-- ==== Sys2Proof/Word.lean ====
section
/-! DEFINITION. Words and bytes: the register word of R10 and the byte of the address space. -/

namespace Sys2Proof

/-- A register word (R10). -/
abbrev Word := BitVec 32

/-- A byte of the address space. -/
abbrev Byte := BitVec 8

end Sys2Proof
end

