-- ==== Sys2Proof/Syntax.lean ====
section
/-! DEFINITION. The commands of the block: one constructor of `Instr` for every row of spec/opcode_table.json, and the
types of their operands. -/

namespace Sys2Proof

/-- The width of a bus access (R10). -/
inductive AccWidth where
  | byte | half | word | dword
  deriving DecidableEq, Repr

/-- What a bus write carries: the word, and the write-one-to-clear bits that hardware sets in the clock cycle of the write
(R13). A double word has `v` as its low and `same` as its high word. -/
structure BusWord where
  v : Word
  same : Word := 0
  deriving DecidableEq, Repr

/-- A bus read: its width, its address, and whether the host clocked it before t_RAD had passed (R460). -/
structure BusRead where
  w : AccWidth := .word
  a : BitVec 32
  early : Bool := false
  deriving DecidableEq, Repr

/-- The outcome of a shadow session's frames: did the spare pass its self-test, and did a compared word differ (R70)? -/
structure ShadowOutcome where
  selfTestOk : Bool := true
  differ : Bool := false
  deriving DecidableEq, Repr

/-- A TILE_ROLES record: role slot, role code, preferred cluster and index (Table 2.2). -/
structure TileRole where
  slot : BitVec 8
  role : Fin 16
  cluster : Fin 4
  index : Fin 17
  deriving DecidableEq, Repr

/-- A ROUTES record (Table 2.2, R59); the period code as its exponents (a, b), or none for code 0xFF, once a frame. -/
structure Route where
  source : BitVec 8
  laneByte : BitVec 8
  mask : BitVec 16
  start : Nat
  period : Option (Nat × Nat)
  deriving DecidableEq, Repr

/-- A STATE_TRANSFER record: role slot, old word address, new word address, word count. -/
structure Transfer where
  slot : BitVec 8
  oldAddr : Nat
  newAddr : Nat
  count : Nat
  deriving DecidableEq, Repr

/-- A SCHEDULE record: role slot, entry point, start cycle and period (Table 2.2). -/
structure SchedEntry where
  slot : BitVec 8
  entry : BitVec 8
  start : Nat
  period : Option (Nat × Nat)
  deriving DecidableEq, Repr

/-- The words of one role slot's microcode context, by word offset, and the data words its code writes, which check 11
compares with STATE_TRANSFER (R66). Of the words themselves the part reads nothing (Table 2.2). -/
structure Context where
  slot : BitVec 8
  words : List (Nat × Word)
  writes : List Nat := []
  deriving DecidableEq, Repr

/-- An entry of an image's section table (R57), and whether the section's bytes match its CRC. -/
structure ImageSection where
  type : BitVec 16
  flags : BitVec 16 := 0
  offset : Nat
  length : Nat
  crcOk : Bool := true
  deriving DecidableEq, Repr

/-- The header, the section table and the signature block of an image of any kind (R56 to R58, R424), with the number of
bytes received. Of its cryptography it holds the outcome: the hash of the key it carries, and whether the signature is
that key's over the bytes signed. -/
structure ImageHead where
  crcOk : Bool := true
  magic : Word := 0x48435450
  major : BitVec 16 := 1
  minor : BitVec 16 := 0
  length : Nat := 0
  received : Nat := 0
  kind : BitVec 16 := 1
  stepping : BitVec 16 := 0x00A1
  buildId : Word := 0x00010001
  baseBuildId : Word := 0
  securityVersion : Nat := 0
  permissions : Word := 0
  group : BitVec 16 := 0xFFFF
  reserved : BitVec 192 := 0
  sections : List ImageSection := []
  keyHash : BitVec 384 := 0
  signatureValid : Bool := true
  deriving DecidableEq, Repr

/-- A pitch image: its head, and the content of its sections that the part acts on. -/
structure PitchImage where
  head : ImageHead := {}
  roles : List TileRole := []
  groups : List (Fin 16 × BitVec 8) := []
  routes : List Route := []
  schedule : List SchedEntry := []
  contexts : List Context := []
  transfers : List Transfer := []
  /-- Identity of the PINMUX section's bytes, and the modulator input each chain takes by it (R154). -/
  pinmux : Nat := 0
  chainInput : List (Fin 24 × Fin 24) := []
  /-- Chains routed to PHASOR tiles (R171), and feeders whose residual is routed (chapter 09). -/
  phasorChains : List (Fin 24) := []
  residualFeeders : List (Fin 8) := []
  /-- Capture inputs routed to the CAPTURE tiles: (tile in TILE_ROLES order, input) (R279). -/
  captureInputs : List (Fin 4 × Fin 64) := []
  /-- The bit of a core's output image routed as the recorder's request, by core and position (R285, source 9). -/
  recRequest : Option (Fin 2 × Nat) := none
  /-- The bits of the cores' output images routed to the grid-forming stages as start (`true`) and stop requests (R236). -/
  stageRequests : List (Fin 2 × Bool × Fin 2 × Nat) := []
  /-- Positions of each core's image that GATEWAY routes fill (R308). -/
  filledPositions : Vector (List Nat) 2 := Vector.replicate 2 []
  /-- Identity of the CLOCKPLAN section's bytes, and the CLK words it sets. -/
  clockplan : Nat := 0
  clockWords : List (Nat × Word) := []
  /-- The register words of SEQUENCER and FILTER_PRESETS. -/
  seqWords : List (Nat × Word) := []
  filtWords : List (Nat × Word) := []
  /-- The register words PINMUX sets (PWM pairs, GDF maps), and those that fix each stage's kind, period and ready cycle
  (R175, R202). -/
  pinWords : List (Nat × Word) := []
  stageWords : List (Nat × Word) := []
  deriving DecidableEq, Repr

/-- What a start meets at the balls and in ROM (R91, R92, R438): the self-test and the STAKE integrity check, BOOT_REC and
SIDE, and the nanoseconds since the part last ran. -/
structure StartPins where
  selfTestOk : Bool := true
  bootRec : Bool := false
  sideB : Bool := false
  elapsed : Nat := 0
  deriving DecidableEq, Repr

/-- A delay exchange a port has completed (R118): request-response, with the stamps of the request's transmission here and of
its receipt at the master, or peer-to-peer, with the four stamps of its two messages; the correctionFields in 1/65,536 ns. -/
inductive PtpDelay where
  | endToEnd (sent : BitVec 64) (atMaster : BitVec 64) (correction : Int)
  | peer (sent : BitVec 64) (atPeer : BitVec 64) (fromPeer : BitVec 64) (received : BitVec 64) (correction : Int)
  deriving DecidableEq, Repr

/-- An edge of PPS_IN: is it a falling one, and the counter instant at which it comes, in quarter ns (now, where that is past;
R117). -/
structure PpsEdge where
  falling : Bool := false
  at' : BitVec 66
  deriving DecidableEq, Repr

/-- A Sync as it arrives, with its Follow_Up where it is two-step (R113, R118): the counter instant at which it arrives, in
quarter ns (now, where that is past), domain, transport, the master's stamp of its
transmission in ns, the correctionFields in 1/65,536 ns, the delay exchange that preceded it, and the residence time in ns
of the copy that a transparent clock forwards. -/
structure PtpSync where
  at' : BitVec 66 := 0
  domain : BitVec 8 := 0
  udp : Bool := false
  origin : BitVec 64 := 0
  correction : Int := 0
  delay : Option PtpDelay := none
  residence : Nat := 0
  deriving DecidableEq, Repr

/-- An Announce (R113): domain, transport, the grandmaster's data set, steps removed, and UTC data. -/
structure Announce where
  domain : BitVec 8 := 0
  udp : Bool := false
  priority1 : BitVec 8 := 128
  clockClass : BitVec 8 := 248
  accuracy : BitVec 8 := 0xFE
  variance : BitVec 16 := 0xFFFF
  priority2 : BitVec 8 := 128
  id : BitVec 64
  steps : Nat := 0
  utcValid : Bool := false
  utc : BitVec 16 := 0
  deriving DecidableEq, Repr

/-- Where a start event comes from (R144): the timer, or the carrier valley or peak of a PWM channel pair. -/
inductive StartKind where
  | timer
  | valley (pair : Fin 12)
  | peak (pair : Fin 12)
  deriving DecidableEq, Repr

/-- The factors one self-calibration measures, by gain code: offsets in 16-bit LSB, gain factors with 0x8000 as 1.0. -/
structure CalSet where
  offsets : Vector Int 4
  gains : Vector Nat 4
  deriving DecidableEq, Repr

/-- A word at a stage's input as its route delivers it (R182): a value in Q15 and the sideband; `routed` is false where the
image routes no word there. -/
structure InWord where
  value : BitVec 16 := 0
  valid : Bool := true
  unsettled : Bool := false
  fault : Bool := false
  routed : Bool := true
  deriving DecidableEq, Repr

/-- The words and measurements of one stage sample. Inputs by number: 0 to 2 the measured voltages a, b, c (a scalar
stage: the measurements of C0 and C1), 3 to 5 the currents (a scalar stage: its current), 6 the DC-link voltage, 7 to 10
the feedforward of C0 to C3, 11 to 14 the references of C0 to C3, 15 the output frequency for axis code 4 (Table 7.2). -/
structure LoopInputs where
  words : Vector InWord 16
  /-- Check 2: the largest |measured − modelled| and the input it concerns. -/
  model : Nat := 0
  modelInput : Fin 16 := 0
  /-- Check 3: two routed measurements of one quantity, and the input they concern. -/
  sensors : Option (BitVec 16 × BitVec 16) := none
  sensorInput : Fin 16 := 0
  /-- Check 5: time outside the band, in 2.5 ns units. -/
  outside : Nat := 0
  /-- The model's estimates of the inputs, for substitution (R209). -/
  estimates : Vector (BitVec 16) 16
  /-- The duty a / (a + b) of R195 by phase, as m in Q15, for a change from HYST to CARRIER (R207). -/
  duty : Vector (BitVec 16) 3
  deriving DecidableEq, Repr

/-- The line-side and the converter-side phasor of a grid-forming stage in one millisecond (R219): magnitude in pu, angle in
degrees by which it lags θ_TAI, frequency in Hz; `usable` is false where a window holds an unusable word. -/
structure LineMeas where
  lineUsable : Bool := true
  convUsable : Bool := true
  vl : Rat := 0
  phi : Rat := 0
  fl : Rat := 0
  vc : Rat := 0
  phiC : Rat := 0
  fc : Rat := 0
  deriving DecidableEq, Repr

/-- The grid-forming state a MIRROR_GFM message carries for one stage (R248, Table 13.2). -/
structure GfmMirror where
  state : Fin 11
  attempt : Fin 16
  dw : Rat
  theta : Rat
  wRes : Rat
  pf : Rat
  qf : Rat
  phi : Rat
  timeMode : Fin 3
  contactor : Bool
  /-- Local time in ns since the state was entered, since the contactor command changed, the awaited slot instant and whether
  it is a back-off, and milliseconds in DEAD, in LIVE, out of LIVE and in the window of R244. -/
  age : Nat
  cmdAge : Nat := 0
  slot : BitVec 64
  backoff : Bool := false
  dead : Nat := 0
  live : Nat := 0
  notLive : Nat := 0
  window : Nat := 0
  deriving DecidableEq, Repr

/-- A phasor in rectangular form, rms. -/
structure Cx where
  re : Rat := 0
  im : Rat := 0
  deriving DecidableEq, Repr

/-- What a PHASOR tile interpolates a sample of one input from (R252): the values and time tags of the input words before and
after the sample instant, and whether both words are usable (R182). -/
structure SampleWords where
  v0 : BitVec 16 := 0
  tag0 : BitVec 16 := 0
  v1 : BitVec 16 := 0
  tag1 : BitVec 16 := 0
  usable : Bool := true
  deriving DecidableEq, Repr

/-- The four samples of every input that end at a phasor update, oldest first: the bus voltages V_A, V_B, V_C, and of each
feeder I_A, I_B, I_C and the measured residual. -/
structure PhasorSamples where
  volt : Vector (Vector SampleWords 4) 3
  feeders : Vector (Vector (Vector SampleWords 4) 4) 8
  deriving DecidableEq, Repr

/-- A word at a capture input (R279): its value, its sideband, its tag where it carries one (R167), and the TAI instant in ns
at which it arrives: its route instant. -/
structure CapWord where
  value : BitVec 16 := 0
  unsettled : Bool := false
  fault : Bool := false
  holdover : Bool := false
  tag : Option (BitVec 16) := none
  at' : Nat := 0
  deriving DecidableEq, Repr

/-- What a CAPTURE tile has for one channel at t + 2 ms: the last word at or before t, and the first after t that has
arrived. -/
structure CapInput where
  last : CapWord := {}
  next : Option CapWord := none
  deriving DecidableEq, Repr

/-- What the I/O map places at a symbol, or how the program uses it (Table 11.2, R313, R332). -/
inductive ScanItem where
  | diState (n : Fin 16)
  | riseFlag (n : Fin 16)
  | fallFlag (n : Fin 16)
  | riseStamp (n : Fin 16)
  | fallStamp (n : Fin 16)
  | edgeCounts (n : Fin 16)
  | remoteValid (m : Fin 32)
  | remoteAge (m : Fin 32)
  | remoteIn (m : Fin 32) (w : Nat)
  | routedIn
  | doCommand (n : Fin 16)
  | remoteOut (m : Fin 32) (w : Nat)
  | routedOut
  | plain
  | ton
  | tof
  | tp
  | edgeTrig
  deriving DecidableEq, Repr

/-- A symbol of a scan program: identity, type, place, task (the writing task of an output, the owner of an edge set, the
task of a timer), whether it is retained, initial and stop value, and image position of a placed item. -/
structure ScanSymbol where
  id : Word
  ty : BitVec 8
  item : ScanItem
  task : Fin 8 := 0
  retained : Bool := false
  init : BitVec 64 := 0
  stop : BitVec 64 := 0
  position : Option Nat := none
  deriving DecidableEq, Repr

/-- The part of a scan program image for one core (R303): build_id, period code of each task, symbols, whether it starts on
its own, and its retained data in KiB. The compiled code is not modelled: what a cycle computes is the result of its
CYCLE_COMPLETE. -/
structure ScanProgram where
  buildId : Word
  periods : Vector (Fin 16) 8
  symbols : List ScanSymbol
  autostart : Bool := true
  retainedKiB : Nat := 0
  deriving DecidableEq, Repr

/-- What one cycle computed: values written by symbol, timer evaluations (symbol, input, PT in ns), edge-trigger
evaluations (symbol, clock). -/
structure CycleResult where
  writes : List (Word × BitVec 64) := []
  timers : List (Word × Bool × Nat) := []
  trigs : List (Word × Bool) := []
  deriving DecidableEq, Repr

/-- The notch of one controller (R187): coefficients in 1/2^30, input states in Q15, output states in Q30. -/
structure NotchState where
  b0 : Int := 0
  b1 : Int := 0
  a2 : Int := 0
  x1 : Int := 0
  x2 : Int := 0
  y1 : Int := 0
  y2 : Int := 0
  /-- A write awaits the next sample. -/
  fresh : Bool := true
  deriving DecidableEq, Repr

/-- What a stage publishes to its BAND tile (R181, R194). -/
structure Phasor where
  w0 : Int := 0
  w1 : Int := 0
  theta : Rat := 0
  omega : Rat := 0
  /-- Local instant of the sample it belongs to, in ns. -/
  since : Nat := 0
  deriving DecidableEq, Repr

/-- A profile generator beyond its registers (R191): exact output, velocity, acceleration, and steps of the present
blend or ramp. -/
structure ProfState where
  x : Rat := 0
  v : Rat := 0
  a : Rat := 0
  steps : Nat := 0
  deriving DecidableEq, Repr

/-- A copy of a retained set (R324); `order` tells the newer copy. -/
structure RetainedSet where
  pitch : Word
  prog : Word
  crcOk : Bool := true
  order : Nat
  values : List (Nat × BitVec 64)
  deriving DecidableEq, Repr


/-- One network parameter of the settings (R392 to R400). A telegram or frame set carries the block (core, block) its data
belong to. -/
inductive NetItem where
  | prpMode (isOn : Bool)
  | blockTimeout (block : Fin 2 × Fin 32) (timeoutMs : Nat)
  | publish (i : Fin 64) (comId : Word) (cycleMs : Nat) (block : Option (Fin 2 × Fin 32))
  | subscribe (i : Fin 64) (comId : Word) (timeoutMs : Nat) (zero : Bool) (block : Option (Fin 2 × Fin 32))
  | canIn (port : Fin 2) (first : Nat) (frames : Nat) (block : Fin 2 × Fin 32)
  | canOut (port : Fin 2) (first : Nat) (frames : Nat) (block : Fin 2 × Fin 32)
  | mvbSink (addr : BitVec 12) (block : Option (Fin 2 × Fin 32))
  | mvbSource (addr : BitVec 12) (block : Option (Fin 2 × Fin 32))
  | modbusPoll (port : Fin 2) (i : Fin 64) (slave : BitVec 8) (fc : BitVec 8) (block : Option (Fin 2 × Fin 32))
  | modbusSlave (port : Fin 2) (slave : BitVec 8)
  deriving DecidableEq, Repr

/-- The header of a GUYLINE message and how it arrives (R361, R363): path, CRC, sender's role (0 none, 1 ACTIVE,
2 STANDBY), epoch and sequence. -/
structure GuyHeader where
  path : Fin 2 := 0
  crcOk : Bool := true
  role : Fin 3 := 1
  epoch : Word := 0
  seq : Word := 0
  deriving DecidableEq, Repr

/-- The versions R376 compares: pitch build_id, scan build_ids, firmware, settings. -/
structure Versions where
  pitch : Word := 0
  scan : Vector Word 2 := Vector.replicate 2 0
  firmware : Word := 0
  settings : Word := 0
  deriving DecidableEq, Repr

/-- A HEARTBEAT (Table 13.2). `versions` stands for what a partner knows of the sender's images and settings (log entry
18); `tripOn` for the energised trip outputs that R358 reads from it. -/
structure Heartbeat where
  state : Fin 10
  owner : Bool
  running : Bool := true
  doCmd : BitVec 16 := 0
  tripCircuit : Vector (Option Bool) 4 := Vector.replicate 4 none
  tripOn : BitVec 4 := 0
  frame : BitVec 64 := 0
  stamp : BitVec 64 := 0
  digest : Word := 0
  versions : Option Versions := none
  deriving DecidableEq, Repr

/-- A MIRROR of one sample of a stage (R372, Table 13.2). -/
structure MirrorMsg where
  stage : Fin 4
  at' : BitVec 64 := 0
  mode : Fin 7 := 0
  region : Fin 16 := 0
  integ : Vector Int 4 := Vector.replicate 4 0
  notch : Vector NotchState 4 := Vector.replicate 4 {}
  /-- The generator of the stage's blend, its state, and the residuals. -/
  blend : Option (Fin 16) := none
  prof : ProfState := {}
  residual : Vector Rat 2 := Vector.replicate 2 0
  out : Vector Int 4 := Vector.replicate 4 0
  phasor : Phasor := {}
  mods : Vector Int 3 := Vector.replicate 3 0
  deriving DecidableEq, Repr

/-- A settings record (R439): type, format, value words, and how the receiving firmware finds it: well formed, its type known
and its value in range; `regs` are the register words it sets, `net` the network
parameter. -/
structure SettingsRecord where
  type : BitVec 16
  major : BitVec 8 := 1
  minor : BitVec 8 := 0
  value : List Word := []
  malformed : Bool := false
  refused : Bool := false
  regs : List (Nat × Word) := []
  net : Option NetItem := none
  deriving DecidableEq, Repr

/-- A settings set (R439): version, the firmware version that wrote it, and records. -/
structure SettingsSet where
  version : Word := 0
  writer : Word := 0
  records : List SettingsRecord := []
  deriving DecidableEq, Repr

/-- One item of SYNC_DATA (R388): settings, the retained set of a core, the thermal state and counter word of a feeder, or
the role state. -/
inductive SyncItem where
  | settings (x : SettingsSet)
  | retained (k : Fin 2) (x : RetainedSet)
  | thermal (f : Fin 8) (theta : Rat) (counts : Word)
  | role (epoch : Word)
  | versions (x : Versions)
  deriving DecidableEq, Repr

/-- The payload of a GUYLINE message (Table 13.2). -/
inductive GuyPayload where
  | heartbeat (x : Heartbeat)
  | mirror (x : MirrorMsg)
  | mirrorGfm (x : Vector GfmMirror 2)
  | retain (x : Vector (Option RetainedSet) 2)
  | timing
  | dying (reason : Nat)
  | switch (at' : BitVec 64)
  | switchAck (at' : BitVec 64)
  | switchCancel (at' : BitVec 64)
  | syncReq (x : Versions)
  | syncData (x : List SyncItem)
  | settings (x : List SettingsRecord) (frame : BitVec 64)
  deriving DecidableEq, Repr

/-- Where a probe comes from: the port it arrives on, ETH0 or ETH1, and the prober's address (R378). -/
structure Prober where
  port : Fin 2
  mac : BitVec 48
  deriving DecidableEq, Repr

/-- A probe reply (R379): role, state, epoch, OWNER, heartbeats running, and of a received one the port it arrives on. -/
structure ProbeReply where
  role : Fin 3
  state : Fin 10
  epoch : Word
  owner : Bool
  running : Bool
  port : Fin 2 := 0
  deriving DecidableEq, Repr

/-- A frame on a data path: its bytes without the FCS, whether its CRC or FCS is right, whether it is addressed to the part
alone, and the source and sequence number of its redundancy control trailer (R394). -/
structure NetFrame where
  bytes : List Byte := []
  crcOk : Bool := true
  own : Bool := false
  prp : Option (Nat × BitVec 16) := none
  deriving DecidableEq, Repr

/-- A Modbus RTU frame as a port receives it (R399): a request to a slave with the words it writes, or a response. -/
inductive ModbusFrame where
  | request (slave fc : BitVec 8) (writes : List (Nat × BitVec 16))
  | response (data : List Word)
  deriving DecidableEq, Repr

/-- A request frame's header as a channel meets it (R410, R412): the outcomes of checks 1, 2, 5 and of the reserved bits, and
the header fields. Channel 0 is the mailbox; `port` is the ETH port by which a frame of message data comes. -/
structure ReqHeader where
  chan : Fin 21 := 1
  port : Fin 2 := 0
  lengthOk : Bool := true
  crcOk : Bool := true
  seq : Word := 0
  epoch : Word := 0
  handle : Word := 0
  payloadOk : Bool := true
  reservedOk : Bool := true
  deriving DecidableEq, Repr

/-- A request of SCAN_CTRL (R321): the request, the task of a step, and whether a restart is cold. -/
inductive ScanReq where
  | run (cold : Bool)
  | stop
  | hold
  | step (t : Fin 8)
  deriving DecidableEq, Repr

/-- A scan program image: the program of each core it changes, and whether code, data and retained data fit (R424, R430). -/
structure ScanImage where
  head : ImageHead := {}
  progs : Vector (Option ScanProgram) 2
  fits : Bool := true
  deriving DecidableEq, Repr

/-- A record type as a firmware knows it: format, default value, and the majors it migrates from (R440). -/
structure RecordFormat where
  type : BitVec 16
  major : BitVec 8 := 1
  minor : BitVec 8 := 0
  defaults : List Word := []
  migrates : List (BitVec 8) := []
  deriving DecidableEq, Repr

/-- A supervisor firmware image: its version and the record formats it carries. The code is not modelled. -/
structure Firmware where
  head : ImageHead := {}
  version : Word := 0
  formats : List RecordFormat := []
  deriving DecidableEq, Repr

/-- What the bytes of a whole image spell, by kind (R423). -/
inductive ImageContent where
  | pitch (x : PitchImage)
  | scan (x : ScanImage)
  | firmware (x : Firmware)
  | boot (x : ImageHead)
  deriving DecidableEq, Repr

/-- A downloaded image: its content and the SHA-384 of its bytes. -/
structure StagedImage where
  content : ImageContent
  sha : BitVec 384
  deriving DecidableEq, Repr

/-- A service token (R446): the hash of the key it carries, whether its signature is that key's, and its fields. -/
structure Token where
  keyHash : BitVec 384 := 0
  signatureValid : Bool := true
  request : Fin 4
  value : Nat := 0
  serial : BitVec 64
  nonce : BitVec 64
  notAfter : BitVec 64
  deriving DecidableEq, Repr


/-- The commands. Each constructor is a row of the table of operations and events; a row that is a register write of its
own carries the master and the word written. -/
inductive Instr where
  /-- REGISTER_WRITE (R11). Master `m` writes `x` at address `a` with an access of width `w`. -/
  | registerWrite (m : Fin 8) (w : AccWidth) (a : BitVec 32) (x : BusWord)
  /-- SNAPSHOT_READ (R49). Master `m` reads the low word of a 64-bit register. -/
  | snapshotRead (m : Fin 8) (x : BusRead)
  /-- HIGH_WORD_READ (R50). Master `m` reads the high word of a 64-bit register. -/
  | highWordRead (m : Fin 8) (x : BusRead)
  /-- LOW_WORD_WRITE (R51). Master `m` writes the low word of a 64-bit register. -/
  | lowWordWrite (m : Fin 8) (a : BitVec 32) (v : Word)
  /-- HIGH_WORD_WRITE (R51). Master `m` writes the high word of a 64-bit register. -/
  | highWordWrite (m : Fin 8) (a : BitVec 32) (v : Word)
  /-- FIELD_LINK_FRAME (R337). The field die receives the next link frame; `ok` is false where its CRC fails or its sequence number does not follow. Its content is what the control die commands now. -/
  | fieldLinkFrame (ok : Bool)
  /-- TRIP_STROBE (R349). The strobe line of TRIPn stands at a level. -/
  | tripStrobe (n : Fin 4) (level : Bool)
  /-- ROUTE_WORD (R29). Tile Tc.i receives a word of `route` with its sideband and its four parity bits, one for each byte (R25). -/
  | routeWord (c : Fin 4) (i : Fin 17) (route : BitVec 16) (w : BitVec 32) (valid unsettled holdover fault : Bool) (parity : BitVec 4)
  /-- FRAME_BOUNDARY (R36). A fabric-frame boundary; `o0` to `o3` are the outcomes of the sessions that check_now starts at it, by cluster. -/
  | frameBoundary (o0 o1 o2 o3 : ShadowOutcome)
  /-- INPUT_IMAGE_PUBLICATION (R39). The next publication instant: values the fabric routes to the input symbols of core 0 and of core 1. -/
  | inputImagePublication (x y : List (Word × BitVec 64))
  /-- FAB_IND_GO (R77). Master `m` writes FAB_IND_CTRL of cluster `c` with go 1; the other bits are those of `v`. -/
  | fabIndGo (m : Fin 8) (c : Fin 4) (v : Word)
  /-- INDIRECT_ACCESS_DONE (R47). The indirect access of cluster `c` completes. -/
  | indirectAccessDone (c : Fin 4)
  /-- MIRROR_FRAME_OPEN (R66). The boundary that opens the mirror frame. -/
  | mirrorFrameOpen
  /-- GROUP_SWAPPED (R66). The boundary that closes the mirror frame, the swap point. -/
  | groupSwapped
  /-- SHADOW_SLOT (R70). The next slot of cluster `c`'s rotation, with the outcome of its session. -/
  | shadowSlot (c : Fin 4) (o : ShadowOutcome)
  /-- TILE_RETIRED (R71). The boundary at which a relocation of cluster `c` falls due. -/
  | tileRetired (c : Fin 4)
  /-- CHECK_NOW (R74). Master `m` writes FAB_SHADOW_CTRL of cluster `c` with check_now 1; the other bits are those of `v`. -/
  | checkNow (m : Fin 8) (c : Fin 4) (v : Word)
  /-- COLD_START (R91). The cold start that follows, with what it meets and the factors its self-calibrations measure. -/
  | coldStart (p : StartPins) (cal : Vector CalSet 4)
  /-- WARM_START (R92). The start that follows the release of a warm reset; `refreshOk` and `hashOk` are the first two conditions of R88, `cal` serves the cold start made where a condition fails. -/
  | warmStart (p : StartPins) (refreshOk hashOk : Bool) (cal : Vector CalSet 4)
  /-- VIN_LOW (R79). VIN falls below V_LOW; `cv` in 10 mV. -/
  | vinLow (cv : BitVec 16)
  /-- POWER_FAIL (R80). VIN falls below V_PF. -/
  | powerFail
  /-- VIN_LOSS (R468). VIN falls below V_LAN. -/
  | vinLoss
  /-- SENSOR_FAULT (R81). The ±15 V pair, or the 5 V rail (`five`), has stayed in current limit for 10 ms. -/
  | sensorFault (five : Bool)
  /-- SENSOR_RETRY (R81). One second after the rail was turned off. -/
  | sensorRetry (five : Bool)
  /-- RESET_N (R87). A low on RESET_N of `ns`; `taken` says whether the qualifier takes one between 1 µs and 10 µs. -/
  | resetN (ns : Nat) (taken : Bool)
  /-- SYS_RESET_CTRL_GO (R86). Master `m` writes SYS_RESET_CTRL with go 1; the other bits are those of `v`. -/
  | sysResetCtrlGo (m : Fin 8) (v : Word)
  /-- WATCHDOG_EXPIRY (R86). The supervisor watchdog expires and the part makes a warm reset. -/
  | watchdogExpiry
  /-- FATAL_FAULT (R86). An uncorrectable supervisor memory error or a boot-stage failure causes a cold reset. -/
  | fatalFault
  /-- SLEEP (R94). The SLEEP command. -/
  | sleep (q : ReqHeader)
  /-- WAKE (R96). Wake sources are recognised in SLEEP, in the bits of PWR_WAKE.cause, and the wake start follows. -/
  | wake (sources : BitVec 8) (p : StartPins) (cal : Vector CalSet 4)
  /-- RTC_LOAD (R97). The time unit loads PWR_RTC at a second while time is locked. -/
  | rtcLoad
  /-- REF_LOST (R109). The external (`ext`) or the MEMS reference fails its check: edges missing, or off frequency. -/
  | refLost (ext offFrequency : Bool)
  /-- PLL_COAST (R109). PLL `n` of Table 4.1 loses lock. -/
  | pllCoast (n : Fin 5)
  /-- REF_RESTORED (R110). The lost reference has passed its checks for 100 ms. -/
  | refRestored (ext : Bool)
  /-- PLL_RELOCKED (R110). PLL `n` regains its phase. -/
  | pllRelocked (n : Fin 5)
  /-- REF_FALLBACK (R110). The external reference has been lost for 100 ms. -/
  | refFallback
  /-- PTP_SYNC (R122). A Sync arrives on ETH0 or ETH1. -/
  | ptpSync (port : Fin 2) (x : PtpSync)
  /-- PTP_ANNOUNCE (R115). An Announce arrives on a port, or its receipt times out (none). -/
  | ptpAnnounce (port : Fin 2) (x : Option Announce)
  /-- TIMING (R116). A GUYLINE timing exchange on a path: partner minus local in ns, before asymmetry. -/
  | timing (path : Fin 2) (theta : Int)
  /-- PPS_IN_EDGE (R117). An edge of PPS_IN. -/
  | ppsInEdge (x : PpsEdge)
  /-- TIME_SOURCE_LOST (R112). Source code `src` has given no measurement for three intervals. -/
  | timeSourceLost (src : Fin 5)
  /-- PPS_OUT_PULSE (R117). The next whole TAI second is reached. -/
  | ppsOutPulse
  /-- TIME_STEP_GO (R126). Master `m` writes TIME_STEP with go 1; step_ms is that of `v`. -/
  | timeStepGo (m : Fin 8) (v : Word)
  /-- TRIG_ARM (R128). Master `m` writes TIME_TRIG_n_CFG with arm 1; the other bits are those of `v`. -/
  | trigArm (m : Fin 8) (n : Fin 8) (v : Word)
  /-- TRIG_DISARM (R128). Master `m` writes TIME_TRIG_n_CFG with disarm 1; the other bits are those of `v`. -/
  | trigDisarm (m : Fin 8) (n : Fin 8) (v : Word)
  /-- TRIG_FIRE (R129). The counter reaches the target of trigger `n`. -/
  | trigFire (n : Fin 8)
  /-- ADC_RUN (R146). Master `m` writes ADC_x_CTRL of core `c` with run 1; the other bits are those of `v`. -/
  | adcRun (m : Fin 8) (c : Fin 4) (v : Word)
  /-- ADC_STOP (R146). Master `m` writes ADC_x_CTRL of core `c` with stop 1; the other bits are those of `v`. -/
  | adcStop (m : Fin 8) (c : Fin 4) (v : Word)
  /-- ADC_CAL (R148). Master `m` writes ADC_x_CTRL of core `c` with cal 1; the other bits are those of `v`. -/
  | adcCal (m : Fin 8) (c : Fin 4) (v : Word)
  /-- ADC_COMMIT (R142). Master `m` writes ADC_x_CTRL of core `c` with commit 1; the other bits are those of `v`. -/
  | adcCommit (m : Fin 8) (c : Fin 4) (v : Word)
  /-- ADC_START_EVENT (R145). A timer instant or carrier event reaches core `c`. -/
  | adcStartEvent (c : Fin 4) (k : StartKind)
  /-- ADC_CONVERSION (R143). Core `c` samples; `code` is the calibrated code before it saturates. -/
  | adcConversion (c : Fin 4) (code : Int)
  /-- ADC_CAL_DONE (R148). Core `c` completes its self-calibration with the factors `f`. -/
  | adcCalDone (c : Fin 4) (f : CalSet)
  /-- HARD_CMP (R135). The magnitude of input `n` reaches its hard threshold. -/
  | hardCmp (n : Fin 16)
  /-- BAND_CROSSING (R196). The band comparator outputs of input `n` change to these. -/
  | bandCrossing (n : Fin 16) (upper lower : Bool)
  /-- DEAD_TIME_ELAPSED (R201). The dead time of pair `p` has elapsed. -/
  | deadTimeElapsed (p : Fin 12)
  /-- DEFERRED_DECISION (R201). The minimum pulse of pair `p` has elapsed since its last decision. -/
  | deferredDecision (p : Fin 12)
  /-- MOD_STUCK (R152). Input `i` has held `level` for 1,024 MCLK periods. -/
  | modStuck (i : Fin 24) (level : Bool)
  /-- FILT_STREAM_RECOVERED (R172). Stuck input `i` changes level. -/
  | filtStreamRecovered (i : Fin 24)
  /-- CHAIN_OUTPUT (R160). The next modulator bits reach the main decimator of chain `n`, oldest first. -/
  | chainOutput (n : Fin 24) (bits : List Bool)
  /-- FAST_OUTPUT (R162). The next modulator bits reach the fast decimator of chain `n`, oldest first. -/
  | fastOutput (n : Fin 24) (bits : List Bool)
  /-- FILTER_SERVICE (R163). The FILTER tile of chains 4k to 4k + 3 serves them. -/
  | filterService (k : Fin 6)
  /-- FILT_CFG_WRITE (R168). Master `m` writes FILT_CH_n_CFG. -/
  | filtCfgWrite (m : Fin 8) (n : Fin 24) (v : Word)
  /-- FILT_RESTARTED (R168). Chain `n`'s anchor boundary has come. -/
  | filtRestarted (n : Fin 24)
  /-- LOOP_SAMPLE (R181). The sample instant of stage `st`, with its inputs. -/
  | loopSample (st : Fin 4) (x : LoopInputs)
  /-- OUTPUT_INSTANT (R202). The output instant of stage `st`. -/
  | outputInstant (st : Fin 4)
  /-- BAND_UPDATE (R194). A band update of hysteretic pair `p` with its routed voltages (R195: V_dc and v of a half-bridge phase; V_dc and v_in of a DC/DC stage). -/
  | bandUpdate (p : Fin 12) (vdc v : BitVec 16) (usable : Bool)
  /-- CARRIER_EVENT (R200). The carrier of pair `p` stands at its valley, or at its peak. -/
  | carrierEvent (p : Fin 12) (peak : Bool)
  /-- PROFILE_STEP (R191). A period of profile generator `g`. -/
  | profileStep (g : Fin 16)
  /-- STAGE_START (R206). Master `m` writes CTRL_STAGE_CMD_s with start 1; the other bits are those of `v`. -/
  | stageStart (m : Fin 8) (st : Fin 4) (v : Word)
  /-- STAGE_STOP (R206). Master `m` writes CTRL_STAGE_CMD_s with stop 1; the other bits are those of `v`. -/
  | stageStop (m : Fin 8) (st : Fin 4) (v : Word)
  /-- INNER_CHANGE (R207). Master `m` writes CTRL_STAGE_CMD_s.inner. -/
  | innerChange (m : Fin 8) (st : Fin 4) (hyst : Bool)
  /-- GDF_ACTIVE (R210). The active level of GDFn has lasted t_F. -/
  | gdfActive (n : Fin 6)
  /-- PWM_BLOCK_WRITE (R211). Master `m` writes PWM_GATE_CTRL.block. -/
  | pwmBlockWrite (m : Fin 8) (mask : BitVec 4)
  /-- GATE_RELEASE_WRITE (R212). Master `m` writes PWM_GATE_CTRL.release. -/
  | gateReleaseWrite (m : Fin 8) (mask : BitVec 4)
  /-- GFM_START (R236). Master `m` writes GFM_CMD of stage 2g with start 1; the other bits are those of `v`. -/
  | gfmStart (m : Fin 8) (g : Fin 2) (v : Word)
  /-- GFM_STOP (R238). Master `m` writes GFM_CMD of stage 2g with stop 1; the other bits are those of `v`. -/
  | gfmStop (m : Fin 8) (g : Fin 2) (v : Word)
  /-- GFM_ACK (R238). Master `m` writes GFM_CMD of stage 2g with ack 1; the other bits are those of `v`. -/
  | gfmAck (m : Fin 8) (g : Fin 2) (v : Word)
  /-- LINE_CLASSIFY (R233). The next millisecond of evaluation of stage 2g, with its phasors. -/
  | lineClassify (g : Fin 2) (x : LineMeas)
  /-- LINE_DEAD_CONFIRMED (R233). The millisecond of evaluation with which the line of stage 2g has been DEAD for t_dead. -/
  | lineDeadConfirmed (g : Fin 2) (x : LineMeas)
  /-- LINE_LIVE_CONFIRMED (R233). The millisecond of evaluation with which the line of stage 2g has been LIVE for t_live. -/
  | lineLiveConfirmed (g : Fin 2) (x : LineMeas)
  /-- CONTACTOR_CHECK (R234). The next millisecond at which the contactor command of stage 2g is compared with its feedback. -/
  | contactorCheck (g : Fin 2)
  /-- SLOT_INSTANT (R240). The slot instant that stage 2g awaits. -/
  | slotInstant (g : Fin 2)
  /-- BACKOFF_EXPIRY (R241). The end of the back-off delay of stage 2g. -/
  | backoffExpiry (g : Fin 2)
  /-- RAMP_COMPLETE (R242). The ramp of stage 2g reaches its target. -/
  | rampComplete (g : Fin 2)
  /-- BLACKSTART_ABORT (R243). Limiting during the black-start ramp of stage 2g has lasted t_hold without a break. -/
  | blackstartAbort (g : Fin 2)
  /-- SYNC_CLOSE (R244). The millisecond of evaluation with which the windows of stage 2g have held for t_sync_hold. -/
  | syncClose (g : Fin 2) (x : LineMeas)
  /-- SYNC_TIMEOUT (R238). Stage 2g has been in SYNC for t_sync_max. -/
  | syncTimeout (g : Fin 2)
  /-- LIMIT_HELD (R231). Stage 2g has been in LIMIT for t_hold since the onset. -/
  | limitHeld (g : Fin 2)
  /-- LIMIT_RELEASE (R232). The reference of stage 2g has stayed below 0.95 of the limit for t_rel. -/
  | limitRelease (g : Fin 2)
  /-- RIDE_RESUME (R238). The millisecond of evaluation with which V_dc of stage 2g has been restored for 10 ms. -/
  | rideResume (g : Fin 2) (x : LineMeas)
  /-- RIDE_EXPIRED (R238). Stage 2g has been in RIDE for t_rt. -/
  | rideExpired (g : Fin 2)
  /-- GFM_TIME_MODE (R226). The time mode of stage 2g changes: now with the TIME state, or when t_hold_rest has passed. -/
  | gfmTimeMode (g : Fin 2)
  /-- PHASOR_UPDATE (R276). The phasor update whose newest sample is taken at TAI instant `t` (now, where that is past). -/
  | phasorUpdate (t : BitVec 64) (x : PhasorSamples)
  /-- PROT_OPERATE (R259). The timer or accumulator of current element `e` of feeder `f` runs out at the update at `t`, its quantity unchanged since the last update. -/
  | protOperate (f : Fin 8) (e : Fin 7) (t : BitVec 64)
  /-- FAST_50P (R257). A fast-stream sample of phase `p` of feeder `f`. -/
  | fast50p (f : Fin 8) (p : Fin 3) (q : BitVec 16) (usable : Bool)
  /-- FREQ_TRACK (R253). A cycle of V1 has passed; its rotation gives `f` in 0.001 Hz. -/
  | freqTrack (f : BitVec 16)
  /-- THERMAL_UPDATE (R264). Ten milliseconds have passed for element 49 of feeder `f`. -/
  | thermalUpdate (f : Fin 8)
  /-- THERMAL_SAVE (R264). One second has passed since the thermal levels were last written to EMBER. -/
  | thermalSave
  /-- LMD_ARMED (R266). Onset + 2 ms is reached. -/
  | lmdArmed
  /-- LMD_NO_FEEDER (R266). Onset + 20 ms is reached. -/
  | lmdNoFeeder
  /-- BKR_RETRIP (R273). The retrip timer of feeder `f` expires. -/
  | bkrRetrip (f : Fin 8)
  /-- BKR_FAIL (R273). The 50BF timer of feeder `f` expires. -/
  | bkrFail (f : Fin 8)
  /-- TRIP_COMMAND_END (R273). t_min has passed since the latest trip issue of feeder `f`. -/
  | tripCommandEnd (f : Fin 8)
  /-- BKR_DISCREPANCY (R270). Twenty milliseconds have passed since the breaker inputs of feeder `f` began to disagree. -/
  | bkrDiscrepancy (f : Fin 8)
  /-- TC_ALARM (R275). The trip circuit of feeder `f` has read open for t_74. -/
  | tcAlarm (f : Fin 8)
  /-- TC_RESTORED (R275). The trip circuit of feeder `f` has been continuous for 1 s. -/
  | tcRestored (f : Fin 8)
  /-- UNIT32_OPERATE (R265). The delay of element 32 of stage 2g has elapsed. -/
  | unit32Operate (g : Fin 2)
  /-- REC_CTRL_ARM (R291). Master `m` writes REC_CTRL with arm 1; the other bits are those of `v`. -/
  | recCtrlArm (m : Fin 8) (v : Word)
  /-- REC_CTRL_DISARM (R292). Master `m` writes REC_CTRL with disarm 1; the other bits are those of `v`. -/
  | recCtrlDisarm (m : Fin 8) (v : Word)
  /-- REC_CTRL_TRIGGER (R285). Master `m` writes REC_CTRL with trigger 1; the other bits are those of `v`. -/
  | recCtrlTrigger (m : Fin 8) (v : Word)
  /-- CAPTURE_SAMPLE (R279). The samples of the next capture instant are formed, 2 ms after it, from the words of each channel. -/
  | captureSample (x : Vector CapInput 64)
  /-- STORED_ROW (R281). The capture instant that completes the next stored row. -/
  | storedRow (x : Vector CapInput 64)
  /-- LEVEL_TRIGGER (R287). The capture instant at which level trigger `l` fires. -/
  | levelTrigger (l : Fin 8) (x : Vector CapInput 64)
  /-- REC_MASK_VIOLATION (R288). The capture instant of the row that completes a violation of mask `k`. -/
  | recMaskViolation (k : Fin 4) (x : Vector CapInput 64)
  /-- BINARY_CHANGE (R284). Binary channel `b` takes its point's present state, changed at a TAI instant. -/
  | binaryChange (b : Fin 256) (at' : BitVec 64)
  /-- REC_TRIGGERED (R292). The capture instant that completes the trigger row. -/
  | recTriggered (x : Vector CapInput 64)
  /-- REC_CLOSED (R292). The record header completes and the recorder returns to IDLE. -/
  | recClosed
  /-- REC_STORED (R289). A record's write to NAND completes. -/
  | recStored
  /-- REC_REARM (R294). The recorder automatically re-arms once checks 6 to 8 pass. -/
  | recRearm
  /-- TASK_RELEASE (R315). The next release instant of task `t` of core `k`. -/
  | taskRelease (k : Fin 2) (t : Fin 8)
  /-- CYCLE_START (R307). The released cycle of task `t` starts. -/
  | cycleStart (k : Fin 2) (t : Fin 8)
  /-- CYCLE_COMPLETE (R309). The cycle of task `t` completes at a TAI instant (now, where that is past). -/
  | cycleComplete (k : Fin 2) (t : Fin 8) (at' : BitVec 64) (w : CycleResult)
  /-- SCAN_TRAP (R323). A cycle of task `t` makes a bus error (1), an illegal instruction (2) or a stack overflow (4). -/
  | scanTrap (k : Fin 2) (t : Fin 8) (cause : Fin 5)
  /-- SCAN_RUN (R321). Master `m` writes SCAN_CTRL_k with run 1; the other bits are those of `v`. -/
  | scanRun (m : Fin 8) (k : Fin 2) (v : Word)
  /-- SCAN_STOP (R321). Master `m` writes SCAN_CTRL_k with stop 1; the other bits are those of `v`. -/
  | scanStop (m : Fin 8) (k : Fin 2) (v : Word)
  /-- SCAN_HOLD (R320). Master `m` writes SCAN_CTRL_k with hold 1; the other bits are those of `v`. -/
  | scanHold (m : Fin 8) (k : Fin 2) (v : Word)
  /-- SCAN_STEP (R321). Master `m` writes SCAN_CTRL_k with step 1; the other bits are those of `v`. -/
  | scanStep (m : Fin 8) (k : Fin 2) (v : Word)
  /-- HOLD_ENDED (R320). The next release of any task of core `k` in HOLD, with a stage energised. -/
  | holdEnded (k : Fin 2)
  /-- RETAIN_COMMIT (R324). Ten milliseconds have passed since the last commit of the retained queues. -/
  | retainCommit
  /-- SCAN_AUTOSTART (R322). The first publication instant after ready. -/
  | scanAutostart (k : Fin 2)
  /-- PROG_SWAP (R332). The swap point of core `k`. -/
  | progSwap (k : Fin 2)
  /-- REMOTE_SET (R401). A complete set of remote block `b` of core `k` is received. -/
  | remoteSet (k : Fin 2) (b : Fin 32) (data : List Word)
  /-- REMOTE_STALE (R328). The age of remote block `b` exceeds its timeout. -/
  | remoteStale (k : Fin 2) (b : Fin 32)
  /-- DI_SAMPLE (R339). The next sample instant of the inputs, with the raw levels. -/
  | diSample (raw : BitVec 16)
  /-- DO_OVERLOAD (R343). DOn has stayed in current limit for t_OL, or (`hot`) its switch exceeds its temperature limit. -/
  | doOverload (n : Fin 16) (hot : Bool)
  /-- DO_RETRY (R343). One second after the turn-off of an overloaded output. -/
  | doRetry (n : Fin 16)
  /-- DO_OVERLOAD_RELEASE (R343). Master `m` writes FIO_DO_FAULT with bit n of overload 1; the other bits are those of `v`. -/
  | doOverloadRelease (m : Fin 8) (n : Fin 16) (v : Word)
  /-- DEMAG_EXCESS (R344). A clamp pulse of DOn ends with its energy estimate in mJ. -/
  | demagExcess (n : Fin 16) (mj : Nat)
  /-- DO_MONITOR (R345). A judgement of DOn at a ball voltage, in 0.1 V, has held for 10 ms. -/
  | doMonitor (n : Fin 16) (dv : Nat)
  /-- FIELD_LOW (R347). VFIELD of a group has stayed below V_FLW for 1 ms; `cv` in 10 mV. -/
  | fieldLow (g : Fin 2) (cv : BitVec 16)
  /-- FIELD_LOST (R347). VFIELD of a group has stayed below V_FLS for 100 µs. -/
  | fieldLost (g : Fin 2) (cv : BitVec 16)
  /-- FIELD_RESTORED (R347). VFIELD of a group has stayed above V_FLWR for t_FRS. -/
  | fieldRestored (g : Fin 2) (cv : BitVec 16)
  /-- FIELD_ACK (R347). Master `m` writes FIO_GRP_CTRL with the ack bit of group `g` 1; the other bits are those of `v`. -/
  | fieldAck (m : Fin 8) (g : Fin 2) (v : Word)
  /-- GROUP_KILL (R342). Master `m` writes FIO_GRP_CTRL with the kill bit of group `g` at a level; the other bits are those of `v`. -/
  | groupKill (m : Fin 8) (g : Fin 2) (level : Bool) (v : Word)
  /-- STROBE_MISMATCH (R349). The ninth consecutive frame in which strobe and copy of TRIPn disagree is received. -/
  | strobeMismatch (n : Fin 4)
  /-- TRIP_SHORT (R350). TRIPn has been in current limit for t_TSC. -/
  | tripShort (n : Fin 4)
  /-- TRIP_OVERTIME (R350). The time above 0.5 A of TRIPn in this energisation has added up to t_TOT. -/
  | tripOvertime (n : Fin 4)
  /-- TRIP_COOLDOWN_END (R350). The cooldown of TRIPn ends. -/
  | tripCooldownEnd (n : Fin 4)
  /-- VTRIP_LOW (R350). VTRIP has stayed below 18 V for 1 ms; `dv` in 0.1 V. -/
  | vtripLow (dv : BitVec 16)
  /-- TRIP_SUPERVISION (R351). A judgement of the trip circuit of TRIPn has held for 20 ms. -/
  | tripSupervision (n : Fin 4) (intact : Bool)
  /-- TRIP_EXT_DRIVE (R351). The ball of TRIPn has stood at a voltage, in 0.1 V, for 10 ms. -/
  | tripExtDrive (n : Fin 4) (dv : Nat)
  /-- SAFE_STATE_ENTERED (R352). FIO_SAFE_CFG.timeout has passed since the last valid frame. -/
  | safeStateEntered
  /-- SAFE_STATE_LEFT (R353). The sixteenth consecutive valid frame with the resume flag is received. -/
  | safeStateLeft
  /-- HEARTBEAT (R364). A HEARTBEAT arrives on a path. -/
  | heartbeat (h : GuyHeader) (b : Heartbeat)
  /-- HEARTBEAT_SEND (R362). The next heartbeat is due; `good` tells the paths whose transmitter reports good. -/
  | heartbeatSend (good : Vector Bool 2)
  /-- PATH_DOWN (R364). The interval of the eighth consecutive miss on a path ends. -/
  | pathDown (p : Fin 2)
  /-- PATH_UP (R364). The sixteenth consecutive valid heartbeat arrives on a path. -/
  | pathUp (h : GuyHeader) (b : Heartbeat)
  /-- PARTNER_LOST (R364). Eighty microseconds have passed since the last valid heartbeat on either path. -/
  | partnerLost
  /-- MIRROR (R372). A MIRROR arrives. -/
  | mirror (h : GuyHeader) (x : MirrorMsg)
  /-- MIRROR_GFM (R248). A MIRROR_GFM arrives. -/
  | mirrorGfm (h : GuyHeader) (x : Vector GfmMirror 2)
  /-- RETAIN (R374). A RETAIN arrives with a set of each core. -/
  | retain (h : GuyHeader) (x : Vector (Option RetainedSet) 2)
  /-- DYING (R377). A DYING arrives. -/
  | dying (h : GuyHeader) (reason : Nat)
  /-- SWITCH (R389). A SWITCH arrives with the switch instant. -/
  | switch (h : GuyHeader) (at' : BitVec 64)
  /-- SWITCH_ACK (R389). A SWITCH_ACK arrives. -/
  | switchAck (h : GuyHeader) (at' : BitVec 64)
  /-- SWITCH_CANCEL (R389). A SWITCH_CANCEL arrives. -/
  | switchCancel (h : GuyHeader) (at' : BitVec 64)
  /-- SYNC_REQ (R388). A SYNC_REQ arrives with the sender's versions. -/
  | syncReq (h : GuyHeader) (v : Versions)
  /-- SYNC_DATA (R388). A SYNC_DATA arrives. -/
  | syncData (h : GuyHeader) (x : List SyncItem)
  /-- SETTINGS (R376). A SETTINGS arrives with records and the frame number (whole milliseconds of TAI) at which they apply. -/
  | settings (h : GuyHeader) (x : List SettingsRecord) (frame : BitVec 64)
  /-- LISTEN_TIMEOUT (R370). t_listen expires in LISTEN and the unit probes its partner. -/
  | listenTimeout
  /-- PROBE (R379). A probe arrives with the prober's epoch. -/
  | probe (p : Prober) (epoch : Word)
  /-- PROBE_REPLY (R378). The reply to the outstanding probe arrives. -/
  | probeReply (r : ProbeReply)
  /-- PROBE_TIMEOUT (R370). t_conf expires with no reply and the unit takes over. -/
  | probeTimeout
  /-- RELEASE_TIMER (R380). 500 µs without a heartbeat sent drops OWNER and enters RELEASED. -/
  | releaseTimer
  /-- DEGRADED_PROBE (R381). Every 10 ms in DEGRADED_STANDBY the unit probes its partner. -/
  | degradedProbe
  /-- DPX_SWITCH (R389). Master `m` writes DPX_CMD with switch 1; the other bits are those of `v`. -/
  | dpxSwitch (m : Fin 8) (v : Word)
  /-- DPX_CANCEL (R389). Master `m` writes DPX_CMD with cancel 1; the other bits are those of `v`. -/
  | dpxCancel (m : Fin 8) (v : Word)
  /-- SWITCH_DEADLINE (R390). At S − 500 µs the ACTIVE quiesces its scan cores or cancels for lack of acknowledgement. -/
  | switchDeadline
  /-- SWITCH_INSTANT (R389). At S the ACTIVE's OWNER falls and the STANDBY's rises with the new epoch. -/
  | switchInstant
  /-- SYNC_DONE (R376). The conditions of SYNCED are met and the STANDBY becomes SYNCED. -/
  | syncDone
  /-- DIGEST_UPDATE (R376). Every 10 ms the configuration digest is recomputed and compared. -/
  | digestUpdate
  /-- SYNC_REQ_RETRY (R388). With images differing, SYNC_REQ is repeated every 10 s. -/
  | syncReqRetry
  /-- LINK_UP (R392). The link of an Ethernet port comes up at 100 Mb/s or 1000 Mb/s. -/
  | linkUp (p : Fin 3) (gigabit : Bool)
  /-- LINK_DOWN (R392). The link of an Ethernet port goes down. -/
  | linkDown (p : Fin 3)
  /-- PRP_LAN_LOST (R394). No frame on one LAN for 1 s while frames arrive on the other. -/
  | prpLanLost (l : Fin 2)
  /-- PRP_LAN_RESTORED (R394). The first frame on a lost LAN. -/
  | prpLanRestored (l : Fin 2)
  /-- PD_PUBLISH (R395). The next grid instant of a published telegram. -/
  | pdPublish (i : Fin 64)
  /-- PD_TIMEOUT (R395). The timeout of a subscribed telegram has passed since its data arrived. -/
  | pdTimeout (i : Fin 64)
  /-- CAN_BUS_OFF (R397). A CAN port enters bus-off from a transmit error count. -/
  | canBusOff (p : Fin 2) (tec : Nat)
  /-- CAN_RECOVERY (R397). A CAN port in bus-off has seen 128 occurrences of 11 recessive bits. -/
  | canRecovery (p : Fin 2)
  /-- MVB_LINE_FAIL (R398). A line has shown no valid frame for 100 ms while the other carries traffic. -/
  | mvbLineFail (l : Fin 2)
  /-- MODBUS_TIMEOUT (R399). The retries of the outstanding request of a port are exhausted. -/
  | modbusTimeout (p : Fin 2)
  /-- TLS_HANDSHAKE (R396). A client completes or fails a handshake on ETH2. -/
  | tlsHandshake (ip : Word) (certOk : Bool)
  /-- FI_ARM (R405). Master `m` writes NET_FI_u_CFG with arm 1; the other bits are those of `v`. -/
  | fiArm (m : Fin 8) (u : Fin 10) (v : Word)
  /-- FI_DISARM (R405). Master `m` writes NET_FI_u_CFG with disarm 1; the other bits are those of `v`. -/
  | fiDisarm (m : Fin 8) (u : Fin 10) (v : Word)
  /-- FI_START (R405). The start time of an armed unit is reached. -/
  | fiStart (u : Fin 10)
  /-- FI_FRAME (R403). A frame of a direction with its match field passes a unit's data path. -/
  | fiFrame (u : Fin 10) (receive : Bool) (field : BitVec 16) (x : NetFrame)
  /-- FI_RELEASE (R403). The hold time of the oldest delayed frame of a unit ends. -/
  | fiRelease (u : Fin 10)
  /-- CMD_DOORBELL (R409). Master `m` writes CMD_DOORBELL. -/
  | cmdDoorbell (m : Fin 8) (v : Word)
  /-- CHAN_RESET (R407). Master `m` writes CMD_CTRL with chan_reset 1; the other bits are those of `v`. -/
  | chanReset (m : Fin 8) (v : Word)
  /-- CHANNEL_IDLE (R407). Sixty seconds have passed without a request on a TRDP channel. -/
  | channelIdle (ch : Fin 21)
  /-- IDENTIFY (R414). The opcode on a channel. -/
  | identify (q : ReqHeader)
  /-- READ_REGS (R414). The opcode with address and count. -/
  | readRegs (q : ReqHeader) (a : BitVec 32) (n : Nat)
  /-- WRITE_REGS (R414). The opcode with address and words. -/
  | writeRegs (q : ReqHeader) (a : BitVec 32) (ws : List Word)
  /-- OP_STATUS (R414). The opcode, naming a handle. -/
  | opStatus (q : ReqHeader)
  /-- OP_LIST (R414). The opcode on a channel. -/
  | opList (q : ReqHeader)
  /-- OP_SUSPEND (R416). The opcode, naming a handle. -/
  | opSuspend (q : ReqHeader)
  /-- OP_RESUME (R416). The opcode, naming a handle. -/
  | opResume (q : ReqHeader)
  /-- OP_CANCEL (R416). The opcode, naming a handle. -/
  | opCancel (q : ReqHeader)
  /-- OP_RELEASE (R415). The opcode, naming a handle. -/
  | opRelease (q : ReqHeader)
  /-- OP_ENDED (R418). The work of the running operation of a slot is complete, where no other event tells it: the files of an EXPORT are written. -/
  | opEnded (n : Fin 16)
  /-- OP_EXPIRED (R415). Six hundred seconds have passed since the operation of a slot terminated. -/
  | opExpired (n : Fin 16)
  /-- EVENT_READ (R421). The opcode with start index, count and filter. -/
  | eventRead (q : ReqHeader) (start : BitVec 64) (count : Nat) (value mask : BitVec 16)
  /-- EVT_LOST (R420). The logger queue has room again and logs the number of events dropped. -/
  | evtLost
  /-- SETTINGS_READ (R414). The opcode with a range of record types. -/
  | settingsRead (q : ReqHeader) (lo hi : BitVec 16)
  /-- SETTINGS_WRITE (R439). The opcode with its records. -/
  | settingsWrite (q : ReqHeader) (x : List SettingsRecord)
  /-- RESET (R414). The opcode with the kind of start. -/
  | reset (q : ReqHeader) (cold : Bool)
  /-- FORCE_SET (R329). The opcode with core, symbol, type and value. -/
  | forceSet (q : ReqHeader) (k : Fin 2) (id : Word) (ty : BitVec 8) (value : BitVec 64)
  /-- FORCE_CLEAR (R329). The opcode with core and symbol. -/
  | forceClear (q : ReqHeader) (k : Fin 2) (id : Word)
  /-- FORCE_LIST (R414). The opcode on a channel. -/
  | forceList (q : ReqHeader)
  /-- SCAN_CTRL (R321). The opcode with core and request. -/
  | scanCtrl (q : ReqHeader) (k : Fin 2) (r : ScanReq)
  /-- REC_ARM (R291). The opcode on a channel. -/
  | recArm (q : ReqHeader)
  /-- REC_DISARM (R292). The opcode on a channel. -/
  | recDisarm (q : ReqHeader)
  /-- REC_TRIGGER (R285). The opcode on a channel. -/
  | recTrigger (q : ReqHeader)
  /-- REC_LIST (R414). The opcode on a channel. -/
  | recList (q : ReqHeader)
  /-- REC_LOCK (R295). The opcode with a record number. -/
  | recLock (q : ReqHeader) (n : Word)
  /-- REC_UNLOCK (R295). The opcode with a record number. -/
  | recUnlock (q : ReqHeader) (n : Word)
  /-- REC_DELETE (R295). The opcode with a record number. -/
  | recDelete (q : ReqHeader) (n : Word)
  /-- REC_EXPORT (R299). The opcode with a record number. -/
  | recExport (q : ReqHeader) (n : Word)
  /-- FILE_READ (R414). The opcode with record number, file, offset and length. -/
  | fileRead (q : ReqHeader) (n : Word) (file : Fin 4) (off len : Nat)
  /-- IMAGE_BEGIN (R427). The opcode with kind, image length and declared hash. -/
  | imageBegin (q : ReqHeader) (kind length : Nat) (hash : BitVec 384)
  /-- IMAGE_DATA (R428). The opcode with block, offset and length of a chunk; `x` is what the staged bytes spell once the last block is confirmed. -/
  | imageData (q : ReqHeader) (block off len : Nat) (x : StagedImage)
  /-- IMAGE_VERIFY (R430). The opcode with a kind. -/
  | imageVerify (q : ReqHeader) (kind : Nat)
  /-- IMAGE_ACTIVATE (R431). The opcode with kind mask and flags. -/
  | imageActivate (q : ReqHeader) (mask flags : BitVec 16)
  /-- IMAGE_CONFIRM (R436). The opcode with a kind. -/
  | imageConfirm (q : ReqHeader) (kind : Nat)
  /-- IMAGE_ABANDON (R436). The opcode with a kind. -/
  | imageAbandon (q : ReqHeader) (kind : Nat)
  /-- SWITCHOVER (R389). The opcode on a channel. -/
  | switchover (q : ReqHeader)
  /-- SERVICE_STATE (R446). The opcode with its token. -/
  | serviceState (q : ReqHeader) (t : Token)
  /-- CAN_FRAME_RECEIVED (R401). A CAN frame passes a receive filter of a port. -/
  | canFrameReceived (p : Fin 2) (id : Nat) (data : List Word)
  /-- MVB_MASTER_FRAME (R398). A master frame addresses a process-data port; `data` is what the source then sends to a sink. -/
  | mvbMasterFrame (addr : BitVec 12) (data : List Word)
  /-- MODBUS_FRAME_RECEIVED (R399). A Modbus RTU frame arrives. -/
  | modbusFrameReceived (p : Fin 2) (x : ModbusFrame)
  /-- EVT_SEL (R421). Master `m` writes CMD_EVT_SEL. -/
  | evtSel (m : Fin 8) (v : Word)
  /-- SETTINGS_APPLIED (R439). The new settings set is applied at the first boundary 2 ms after acceptance. -/
  | settingsApplied
  /-- IMAGE_VERIFIED (R430). The verification checks complete and the verified flag is journaled, or the operation fails. -/
  | imageVerified
  /-- SUPERVISOR_RESTART (R435). Firmware activation closes channels, halts and restarts the supervisor cores, migrates settings and starts TRIAL. -/
  | supervisorRestart
  /-- TRIAL_EXPIRED (R436). The trial window passes without confirmation and the kind reverts. -/
  | trialExpired
  /-- DEFERRED_REVERT (R436). A revert that needs a cold restart, having waited under REVERT_WAIT, is made once no stage is energised. -/
  | deferredRevert
  /-- COMMISSIONING_END (R447). not_after or 8 h is reached, and COMMISSIONING ends with fault injection disarmed and PROT_BLOCK cleared. -/
  | commissioningEnd
  /-- GDF_INACTIVE (R210). The inactive level of GDFn has lasted t_F. -/
  | gdfInactive (n : Fin 6)
  /-- HARD_LIVE_CLEARED (R135). The magnitude of input `n` falls below its hard threshold. -/
  | hardLiveCleared (n : Fin 16)
  /-- COMPARE_MATCH (R199). The counter of pair `p` crosses the compare value; the high side goes on, or off. -/
  | compareMatch (p : Fin 12) (turnOn : Bool)
  /-- VIN_LOW_CLEARED (R79). VIN rises above V_LOW; `cv` in 10 mV. -/
  | vinLowCleared (cv : BitVec 16)
  /-- VTRIP_RESTORED (R350). VTRIP is back at 18 V or above; `dv` in 0.1 V. -/
  | vtripRestored (dv : BitVec 16)
  /-- FIELD_LOW_CLEARED (R347). VFIELD of a group that was not lost rises above V_FLWR. -/
  | fieldLowCleared (g : Fin 2) (cv : BitVec 16)
  /-- SESSION_CLOSED (R407). A TLS session on ETH2 closes. -/
  | sessionClosed (ch : Fin 21)
  /-- CAN_TX_CYCLE (R402). The CAN cycle of an output block comes round. -/
  | canTxCycle (k : Fin 2) (b : Fin 32)
  /-- MODBUS_POLL (R399). A Modbus master reaches the next request of its table. -/
  | modbusPoll (p : Fin 2)
  deriving DecidableEq, Repr

end Sys2Proof
end

