-- ==== Sys2Proof/Config.lean ====
section
/-! DEFINITION. What the spec leaves open: constants without a body, so that no proof can see a value, and a claim is
true whatever they are. Each has a row in the assumption log. -/

namespace Sys2Proof.Config

/-- Does a quotient the spec does not round go up to the next integer (log entry 5)? -/
opaque roundUp : Int → Nat → Bool

/-- A fresh free value: what the spec leaves to chance or to the implementation, by the count of the draw (log entry 2). -/
opaque freeValue : Nat → BitVec 64

/-- Is the parity of a RIDGE word odd (R25, log entry 71)? -/
opaque parityOdd : Bool

/-- A byte of the fabric repair record in MRAM, by the retired tiles it records, as cluster × 32 + index: its format is not
given (R73, log entry 80). -/
opaque repairByte : List Nat → Nat → Byte

/-- A byte of ROM (log entry 6). -/
opaque romByte : Nat → Byte

/-- The interval taken for a logSyncInterval code outside −4 to +1, in 0.5 ms less one (log entry 7). -/
opaque openSyncInterval : Nat → Nat

/-- This clock's own clockClass, clockAccuracy and offsetScaledLogVariance, from the lowest byte up (R113, log entry 82). -/
opaque ownQuality : BitVec 32

/-- This clock's own clockIdentity (log entry 7). -/
opaque clockIdentity : BitVec 64

/-- Coefficient k of a preset's compensation FIR in 1/2^24, for k from 0 to 14; the filter is symmetric, with a gain of 1 for a
constant (R158, log entry 9). -/
opaque firCoeff : Nat → Nat → Int

/-- The DC blocker's k, by corner in 0.1 Hz and output period in 800 MHz ticks, where it lies within ±2 % (R160, log
entry 9). -/
opaque dcbK : Nat → Nat → Rat

/-- The cosine of an angle in degrees as the part computes it, where it lies in the bounds of log entry 10. -/
opaque cosDeg : Rat → Rat

/-- Coefficients b0, b1 and a2 of a notch in 1/2^30, by f0 in 0.1 Hz, Q in 0.01 and the stage's period row, where they lie
within a unit of the real formulas (R187, log entry 12). -/
opaque notchB0 : Nat → Nat → Nat → Int
opaque notchB1 : Nat → Nat → Nat → Int
opaque notchA2 : Nat → Nat → Nat → Int

/-- The shares of its time that a blend or a ramp spends in each jerk phase and in each acceleration phase: the tile sets the
limits so that the move takes its time (R204, R242, log entry 13). -/
opaque moveShares : Rat × Rat

/-- The value of an axis whose code Table 7.2 does not list (log entry 14). -/
opaque openAxis : Nat → Int

/-- Square roots, angles in degrees, powers, e^(-x) and 2π as the part computes them, where they lie in the bounds of log
entry 10. -/
opaque sqrtR : Rat → Rat
opaque argDeg : Rat → Rat → Rat
opaque pow : Rat → Rat → Rat
opaque expNeg : Rat → Rat
opaque twoPi : Rat

/-- t of a user curve by linear interpolation in log t against log M between two points (M, t), where it lies in the bounds of
log entry 10 (R260). -/
opaque logLog : Nat × Nat → Nat × Nat → Rat → Rat

/-- The Q15 value of 1 pu of a variable-frequency stage's voltage reference (log entry 19). -/
opaque vfScale : Rat

/-- R272: is open confirmed under the reserved mode 0b11, by current-open and status open (log entry 95)? -/
opaque openReserved : Bool → Bool → Bool

/-- The gain of the virtual-impedance low-pass, by GFM_CFG_s.vi_fc and the loop period in ns, between those of the two
differences: the spec names a first-order low-pass, not its discretisation (R224, log entry 21). -/
opaque viGain : Nat → Nat → Rat

/-- A quotient by a rating, scale or base frequency of 0 in a stage that runs: the spec states no result (log entry 22). -/
opaque divZero : Rat → Rat

/-- The configuration digest of R376 over the configuration registers: its order of words is not stated (log entry 20). -/
opaque digest : List (Nat × Word) → Word

/-- REC_CAP of a plan without an analogue channel: the spec divides by a row of 0 bytes (R290, log entry 25). -/
opaque emptyPlanCap : Nat

/-- The value words and register words of a settings record that a firmware has migrated, by firmware version, record type
and the record's major (R440, log entry 26). -/
opaque migrate : Word → BitVec 16 → BitVec 8 → List Word × List (Nat × Word) → List Word × List (Nat × Word)

/-- One MVB basic period in ns (R401), and which bit of its byte the bit action of a fault-injection unit inverts, by unit and
offset modulo 8 (R403): neither is stated (log entry 28). -/
opaque mvbPeriod : Nat
opaque fiBit : Nat → Fin 8 → Fin 8

/-- The parts of the CFG, HDR and INF files that no rule gives, by the draw of the export and a number (R299 to R301, log
entry 29). -/
opaque fileText : Nat → Nat → List Byte

/-- The texts of a channel (name, ph, ccbm, uu, primary, secondary, PS) and its full scale, which come from the settings
records, each given as type and value (R300, log entry 29). Channels 64 up are the binary ones. -/
opaque channelText : List (BitVec 16 × List Word) → Nat → Nat → List Byte
opaque channelScale : List (BitVec 16 × List Word) → Nat → Rat

/-- A number as its text in a file, and the name that stands before a value in the INF file (log entry 29). -/
opaque numberText : Rat → List Byte
opaque infName : Nat → List Byte

end Sys2Proof.Config
end

