-- ==== Sys2Proof/Machine/RegMap.lean ====
section
/-! DEFINITION. The register map: the address of every register (namespace Reg), the place of every named field
(namespace F) and, per block, the table of access codes and reset words, all as the registers' own headings and
tables in spec/ chapters 01 to 16 give them (access codes: R11, R12, R48, R51). -/

namespace Sys2Proof.Machine

/-- The place of a field in its word: lowest bit and width. -/
structure Fld where
  lo : Nat
  w : Nat
  deriving DecidableEq, Repr

/-- One register family of the map. `dims` are (count, stride) pairs, widest stride first; a 64-bit register (`wide`)
takes two words (R48), and `hiRW` says that its high half is RW (R51). The masks run over all 64 bits. -/
structure RegSpec where
  base : Nat
  dims : List (Nat × Nat) := []
  wide : Bool := false
  hiRW : Bool := false
  reset : Nat := 0
  rw : Nat := 0
  rwl : Nat := 0
  w1c : Nat := 0
  deriving DecidableEq, Repr

/-! ### Addresses -/

namespace Reg

abbrev SYS_SNAP_MISS : Nat := 0x40000040
abbrev SYS_MASTER_ID : Nat := 0x40000044
abbrev SYS_ID : Nat := 0x40000000
abbrev SYS_STATUS : Nat := 0x40000004
abbrev SYS_RESET_CAUSE : Nat := 0x40000008
abbrev SYS_RESET_CTRL : Nat := 0x4000000C
abbrev PWR_STATUS : Nat := 0x40010000
abbrev PWR_SENSOR : Nat := 0x40010004
abbrev PWR_BLOCK_STATE : Nat := 0x40010010
abbrev PWR_WAKE : Nat := 0x40010020
abbrev PWR_RTC : Nat := 0x40010040
abbrev PWR_RTC_ALARM : Nat := 0x40010048
abbrev CLK_STATUS : Nat := 0x40020000
abbrev CLK_REF_CFG : Nat := 0x40020004
abbrev CLK_MCLK_DIV : Nat := 0x40020010
abbrev CLK_CKOUT (n : Nat) : Nat := 0x40020020 + 4 * n
abbrev TIME_NOW : Nat := 0x40030000
abbrev TIME_STATE : Nat := 0x40030008
abbrev TIME_OFFSET : Nat := 0x4003000C
abbrev TIME_FREQ : Nat := 0x40030010
abbrev TIME_SERVO_CFG : Nat := 0x40030014
abbrev TIME_JUMP_LIMIT : Nat := 0x40030018
abbrev TIME_SRC_CFG : Nat := 0x4003001C
abbrev TIME_PTP_CFG : Nat := 0x40030020
abbrev TIME_STEP : Nat := 0x40030024
abbrev TIME_ASYM (n : Nat) : Nat := 0x40030040 + 4 * n
abbrev TIME_PPS : Nat := 0x40030050
abbrev TIME_PPS_IN_STAMP : Nat := 0x40030058
abbrev TIME_GM_ID : Nat := 0x40030060
abbrev TIME_UTC_OFFSET : Nat := 0x40030068
abbrev TIME_TRIG_TARGET (n : Nat) : Nat := 0x40030100 + 0x10 * n
abbrev TIME_TRIG_CFG (n : Nat) : Nat := 0x40030108 + 0x10 * n
abbrev TIME_TRIG_STATUS (n : Nat) : Nat := 0x4003010C + 0x10 * n
abbrev ADC_STATUS : Nat := 0x40040000
abbrev ADC_CMP_STATUS : Nat := 0x40040004
abbrev ADC_MOD_STATUS : Nat := 0x40040008
abbrev ADC_CTRL (c : Nat) : Nat := 0x40040100 + 0x40 * c
abbrev ADC_START (c : Nat) : Nat := 0x40040104 + 0x40 * c
abbrev ADC_PERIOD (c : Nat) : Nat := 0x40040108 + 0x40 * c
abbrev ADC_STATE (c : Nat) : Nat := 0x4004010C + 0x40 * c
abbrev ADC_LAST (c : Nat) : Nat := 0x40040110 + 0x40 * c
abbrev ADC_CAL (c : Nat) (g : Nat) : Nat := 0x40040120 + 0x40 * c + 4 * g
abbrev ADC_AIN_CFG (n : Nat) : Nat := 0x40040200 + 4 * n
abbrev ADC_BAND (n : Nat) : Nat := 0x40040240 + 4 * n
abbrev ADC_HARD (n : Nat) : Nat := 0x40040280 + 4 * n
abbrev ADC_MOD_CFG (m : Nat) : Nat := 0x40040300 + 4 * m
abbrev ADC_SEQ (c : Nat) (e : Nat) : Nat := 0x40041000 + 0x100 * c + 4 * e
abbrev FILT_STATUS : Nat := 0x40050000
abbrev FILT_SAT : Nat := 0x40050004
abbrev FILT_PENDING : Nat := 0x40050008
abbrev FILT_CH_CFG (n : Nat) : Nat := 0x40050100 + 0x20 * n
abbrev FILT_CH_STATE (n : Nat) : Nat := 0x40050104 + 0x20 * n
abbrev FILT_CH_GDELAY (n : Nat) : Nat := 0x40050108 + 0x20 * n
abbrev FILT_CH_FAST_DELAY (n : Nat) : Nat := 0x4005010C + 0x20 * n
abbrev FILT_CH_LAST (n : Nat) : Nat := 0x40050110 + 0x20 * n
abbrev FILT_CH_LAST_FAST (n : Nat) : Nat := 0x40050114 + 0x20 * n
abbrev FILT_CH_STAMP (n : Nat) : Nat := 0x40050118 + 0x20 * n
abbrev CTRL_STATUS : Nat := 0x40060000
abbrev CTRL_STAGE_CFG (s : Nat) : Nat := 0x40060100 + 0x100 * s
abbrev CTRL_STAGE_CMD (s : Nat) : Nat := 0x40060104 + 0x100 * s
abbrev CTRL_STAGE_STATE (s : Nat) : Nat := 0x40060108 + 0x100 * s
abbrev CTRL_STAGE_FLAGS (s : Nat) : Nat := 0x4006010C + 0x100 * s
abbrev CTRL_HOVER_CFG (s : Nat) : Nat := 0x40060110 + 0x100 * s
abbrev CTRL_REGION_AXES (s : Nat) : Nat := 0x40060114 + 0x100 * s
abbrev CTRL_REGION_B01 (s : Nat) (a : Nat) : Nat := 0x40060118 + 0x100 * s + 8 * a
abbrev CTRL_REGION_B2H (s : Nat) (a : Nat) : Nat := 0x4006011C + 0x100 * s + 8 * a
abbrev CTRL_LIMIT (s : Nat) : Nat := 0x40060128 + 0x100 * s
abbrev CTRL_STAGE_PHASE (s : Nat) : Nat := 0x4006012C + 0x100 * s
abbrev CTRL_PLAUS_STATE (s : Nat) : Nat := 0x40060130 + 0x100 * s
abbrev CTRL_BAND_CFG (s : Nat) : Nat := 0x40060140 + 0x100 * s
abbrev CTRL_BAND_LIM (s : Nat) : Nat := 0x40060144 + 0x100 * s
abbrev CTRL_BAND_K (s : Nat) : Nat := 0x40060148 + 0x100 * s
abbrev CTRL_NOTCH (s : Nat) (c : Nat) : Nat := 0x40060150 + 0x100 * s + 4 * c
abbrev CTRL_PLAUS (s : Nat) (k : Nat) : Nat := 0x40060160 + 0x100 * s + 4 * (k - 1)
abbrev CTRL_INTEG (s : Nat) (c : Nat) : Nat := 0x40060180 + 0x100 * s + 8 * c
abbrev CTRL_COEF (s : Nat) (r : Nat) (w : Nat) : Nat := 0x40061000 + 0x800 * s + 0x80 * r + 4 * w
abbrev CTRL_PROF_CFG (g : Nat) : Nat := 0x40063000 + 0x20 * g
abbrev CTRL_PROF_VMAX (g : Nat) : Nat := 0x40063004 + 0x20 * g
abbrev CTRL_PROF_AMAX (g : Nat) : Nat := 0x40063008 + 0x20 * g
abbrev CTRL_PROF_JMAX (g : Nat) : Nat := 0x4006300C + 0x20 * g
abbrev CTRL_PROF_OUT (g : Nat) : Nat := 0x40063010 + 0x20 * g
abbrev GFM_STATUS : Nat := 0x40070000
abbrev GFM_GROUP : Nat := 0x40070004
abbrev GFM_CFG (s : Nat) : Nat := 0x40070100 + 0x100 * s
abbrev GFM_RATING (s : Nat) : Nat := 0x40070104 + 0x100 * s
abbrev GFM_SCALE (s : Nat) : Nat := 0x40070108 + 0x100 * s
abbrev GFM_DROOP (s : Nat) : Nat := 0x4007010C + 0x100 * s
abbrev GFM_SET (s : Nat) : Nat := 0x40070110 + 0x100 * s
abbrev GFM_VSET (s : Nat) : Nat := 0x40070114 + 0x100 * s
abbrev GFM_VIRT (s : Nat) (k : Nat) : Nat := 0x40070118 + 0x100 * s + 4 * k
abbrev GFM_LIMIT (s : Nat) : Nat := 0x40070124 + 0x100 * s
abbrev GFM_LIMIT_T (s : Nat) : Nat := 0x40070128 + 0x100 * s
abbrev GFM_RECOV (s : Nat) : Nat := 0x4007012C + 0x100 * s
abbrev GFM_BS (s : Nat) : Nat := 0x40070130 + 0x100 * s
abbrev GFM_LIVE (s : Nat) : Nat := 0x40070134 + 0x100 * s
abbrev GFM_SYNC (s : Nat) : Nat := 0x40070138 + 0x100 * s
abbrev GFM_SYNC_T (s : Nat) : Nat := 0x4007013C + 0x100 * s
abbrev GFM_CONT (s : Nat) : Nat := 0x40070140 + 0x100 * s
abbrev GFM_RT (s : Nat) : Nat := 0x40070144 + 0x100 * s
abbrev GFM_REST (s : Nat) : Nat := 0x40070148 + 0x100 * s
abbrev GFM_CMD (s : Nat) : Nat := 0x4007014C + 0x100 * s
abbrev GFM_STATE (s : Nat) : Nat := 0x40070150 + 0x100 * s
abbrev GFM_MEAS (s : Nat) : Nat := 0x40070154 + 0x100 * s
abbrev GFM_FREQ (s : Nat) : Nat := 0x40070158 + 0x100 * s
abbrev GFM_ONSET (s : Nat) : Nat := 0x40070160 + 0x100 * s
abbrev GFM_SLOT (s : Nat) : Nat := 0x40070168 + 0x100 * s
abbrev GFM_TMODE (s : Nat) : Nat := 0x40070170 + 0x100 * s
abbrev GFM_VF_CFG : Nat := 0x40070400
abbrev GFM_VF_VHZ : Nat := 0x40070404
abbrev GFM_VF_STATE : Nat := 0x40070408
abbrev PROT_STATUS : Nat := 0x40080000
abbrev PROT_BUS_CFG : Nat := 0x40080004
abbrev PROT_FREQ : Nat := 0x40080008
abbrev PROT_BUS_MEAS : Nat := 0x4008000C
abbrev PROT_LMD_CFG : Nat := 0x40080010
abbrev PROT_LMD_STATE : Nat := 0x40080014
abbrev PROT_LMD_ONSET : Nat := 0x40080018
abbrev PROT_BLOCK : Nat := 0x40080020
abbrev PROT_32 (g : Nat) : Nat := 0x40080030 + 8 * g
abbrev PROT_32_MAP (g : Nat) : Nat := 0x40080034 + 8 * g
abbrev PROT_UCURVE (u : Nat) (k : Nat) : Nat := 0x40080200 + 0x40 * u + 4 * k
abbrev PROT_FDR_CFG (f : Nat) : Nat := 0x40081000 + 0x100 * f
abbrev PROT_FDR_SCALE (f : Nat) : Nat := 0x40081004 + 0x100 * f
abbrev PROT_FDR_STATE (f : Nat) : Nat := 0x40081008 + 0x100 * f
abbrev PROT_FDR_FLAGS (f : Nat) : Nat := 0x4008100C + 0x100 * f
abbrev PROT_BKR_CFG (f : Nat) : Nat := 0x40081010 + 0x100 * f
abbrev PROT_TRIP_MAP (f : Nat) : Nat := 0x40081014 + 0x100 * f
abbrev PROT_BF_CFG (f : Nat) : Nat := 0x40081018 + 0x100 * f
abbrev PROT_BF_MAP (f : Nat) : Nat := 0x4008101C + 0x100 * f
abbrev PROT_TC_CFG (f : Nat) : Nat := 0x40081020 + 0x100 * f
abbrev PROT_DIR (f : Nat) : Nat := 0x40081024 + 0x100 * f
abbrev PROT_LMD (f : Nat) : Nat := 0x40081028 + 0x100 * f
abbrev PROT_LMD_REACH (f : Nat) : Nat := 0x4008102C + 0x100 * f
abbrev PROT_THERM (f : Nat) : Nat := 0x40081030 + 0x100 * f
abbrev PROT_THERM_STATE (f : Nat) : Nat := 0x40081034 + 0x100 * f
abbrev PROT_OC (f : Nat) (e : Nat) : Nat := 0x40081040 + 0x100 * f + 8 * e
abbrev PROT_OC_T (f : Nat) (e : Nat) : Nat := 0x40081044 + 0x100 * f + 8 * e
abbrev PROT_VF (f : Nat) (v : Nat) : Nat := 0x40081080 + 0x100 * f + 4 * v
abbrev PROT_MEAS (f : Nat) (k : Nat) : Nat := 0x40081090 + 0x100 * f + 4 * k
abbrev PROT_TRIP_TIME (f : Nat) : Nat := 0x400810A0 + 0x100 * f
abbrev PROT_FDR_COUNT (f : Nat) : Nat := 0x400810A8 + 0x100 * f
abbrev REC_STATUS : Nat := 0x40090000
abbrev REC_CTRL : Nat := 0x40090004
abbrev REC_CFG : Nat := 0x40090008
abbrev REC_PERIOD : Nat := 0x4009000C
abbrev REC_PRE : Nat := 0x40090010
abbrev REC_POST : Nat := 0x40090014
abbrev REC_TRIG_SRC : Nat := 0x40090018
abbrev REC_TRIG_FDR : Nat := 0x4009001C
abbrev REC_FILL : Nat := 0x40090020
abbrev REC_CAP : Nat := 0x40090024
abbrev REC_STORE : Nat := 0x40090028
abbrev REC_LAST_NO : Nat := 0x4009002C
abbrev REC_TRIG_TIME : Nat := 0x40090030
abbrev REC_STOP_TIME : Nat := 0x40090038
abbrev REC_ACH (c : Nat) : Nat := 0x40090100 + 4 * c
abbrev REC_BCH (b : Nat) : Nat := 0x40090400 + 4 * b
abbrev REC_LEVEL (l : Nat) : Nat := 0x40090800 + 8 * l
abbrev REC_LEVEL_THR (l : Nat) : Nat := 0x40090804 + 8 * l
abbrev REC_MASK_CFG (m : Nat) : Nat := 0x40090900 + 0x100 * m
abbrev REC_MASK_POST (m : Nat) : Nat := 0x40090904 + 0x100 * m
abbrev REC_MASK_LIM (m : Nat) (k : Nat) : Nat := 0x40090940 + 0x100 * m + 4 * k
abbrev REC_MASK_T (m : Nat) (k : Nat) : Nat := 0x40090980 + 0x100 * m + 4 * k
abbrev SCAN_STATUS : Nat := 0x400A0000
abbrev SCAN_FORCE_STATUS : Nat := 0x400A0004
abbrev SCAN_CTRL (k : Nat) : Nat := 0x400A0100 + 0x100 * k
abbrev SCAN_STATE (k : Nat) : Nat := 0x400A0104 + 0x100 * k
abbrev SCAN_CFG (k : Nat) : Nat := 0x400A0108 + 0x100 * k
abbrev SCAN_PROG_ID (k : Nat) : Nat := 0x400A010C + 0x100 * k
abbrev SCAN_PROG_INFO (k : Nat) : Nat := 0x400A0110 + 0x100 * k
abbrev SCAN_XCHG (k : Nat) : Nat := 0x400A0114 + 0x100 * k
abbrev SCAN_SWAP_TIME (k : Nat) : Nat := 0x400A0118 + 0x100 * k
abbrev SCAN_REMOTE_STALE (k : Nat) : Nat := 0x400A0120 + 0x100 * k
abbrev SCAN_TASK_CFG (k : Nat) (t : Nat) : Nat := 0x400A0140 + 0x100 * k + 8 * t
abbrev SCAN_TASK_STAT (k : Nat) (t : Nat) : Nat := 0x400A0144 + 0x100 * k + 8 * t
abbrev SCAN_TASK_TIME (k : Nat) (t : Nat) : Nat := 0x400A0180 + 0x100 * k + 4 * t
abbrev FIO_STATUS : Nat := 0x400B0000
abbrev FIO_VFIELD : Nat := 0x400B0004
abbrev FIO_VTRIP : Nat := 0x400B0008
abbrev FIO_SAFE_CFG : Nat := 0x400B000C
abbrev FIO_LINK_STAT : Nat := 0x400B0010
abbrev FIO_GRP_CFG : Nat := 0x400B0020
abbrev FIO_GRP_CTRL : Nat := 0x400B0024
abbrev FIO_GRP_STATE : Nat := 0x400B0028
abbrev FIO_DI_CFG (n : Nat) : Nat := 0x400B0100 + 4 * n
abbrev FIO_DI_STATE : Nat := 0x400B0140
abbrev FIO_DO_CFG (n : Nat) : Nat := 0x400B0200 + 4 * n
abbrev FIO_DO_STATE : Nat := 0x400B0240
abbrev FIO_DO_FAULT : Nat := 0x400B0244
abbrev FIO_DO_DIAG : Nat := 0x400B0248
abbrev FIO_DEMAG (g : Nat) : Nat := 0x400B0250 + 4 * g
abbrev FIO_TRIP_CFG (n : Nat) : Nat := 0x400B0300 + 4 * n
abbrev FIO_TRIP_STATE : Nat := 0x400B0340
abbrev DPX_STATUS : Nat := 0x400C0000
abbrev DPX_CFG : Nat := 0x400C0004
abbrev DPX_EPOCH : Nat := 0x400C0008
abbrev DPX_PARTNER : Nat := 0x400C000C
abbrev DPX_CMD : Nat := 0x400C0010
abbrev DPX_ECN_CFG : Nat := 0x400C0014
abbrev DPX_PARTNER_EPOCH : Nat := 0x400C0018
abbrev DPX_PATH_STAT (p : Nat) : Nat := 0x400C0020 + 4 * p
abbrev DPX_DIGEST : Nat := 0x400C0030
abbrev DPX_DIGEST_PARTNER : Nat := 0x400C0034
abbrev DPX_LAST : Nat := 0x400C0038
abbrev DPX_PARTNER_MAC : Nat := 0x400C0040
abbrev DPX_TAKEOVER_TIME : Nat := 0x400C0048
abbrev DPX_SWITCH_TIME : Nat := 0x400C0050
abbrev NET_STATUS : Nat := 0x400D0000
abbrev NET_BUS_STATE : Nat := 0x400D0004
abbrev NET_FI_STATUS : Nat := 0x400D0008
abbrev NET_FI_CFG (u : Nat) : Nat := 0x400D0100 + 0x20 * u
abbrev NET_FI_PARAM (u : Nat) : Nat := 0x400D0104 + 0x20 * u
abbrev NET_FI_MATCH (u : Nat) : Nat := 0x400D0108 + 0x20 * u
abbrev NET_FI_DONE (u : Nat) : Nat := 0x400D010C + 0x20 * u
abbrev NET_FI_START (u : Nat) : Nat := 0x400D0110 + 0x20 * u
abbrev CMD_STATUS : Nat := 0x400E0000
abbrev CMD_DOORBELL : Nat := 0x400E0004
abbrev CMD_RSP_LEN : Nat := 0x400E0008
abbrev CMD_IRQ : Nat := 0x400E000C
abbrev CMD_IRQ_EN : Nat := 0x400E0010
abbrev CMD_CTRL : Nat := 0x400E0014
abbrev CMD_EVT_COUNT : Nat := 0x400E0020
abbrev CMD_EVT_SEL : Nat := 0x400E0028
abbrev CMD_EVT_ENTRY (w : Nat) : Nat := 0x400E0030 + 4 * w
abbrev CMD_EVT_LOST : Nat := 0x400E0040
abbrev CMD_OP_HANDLE (n : Nat) : Nat := 0x400E0100 + 8 * n
abbrev CMD_OP_STATE (n : Nat) : Nat := 0x400E0104 + 8 * n
abbrev UPD_STATUS : Nat := 0x400F0000
abbrev UPD_KIND_STATE (k : Nat) : Nat := 0x400F0010 + 8 * (k - 1)
abbrev UPD_KIND_STAGED (k : Nat) : Nat := 0x400F0014 + 8 * (k - 1)
abbrev UPD_TRIAL_CFG : Nat := 0x400F0040
abbrev UPD_TRIAL_LEFT : Nat := 0x400F0044
abbrev UPD_DL : Nat := 0x400F0048
abbrev UPD_SETTINGS : Nat := 0x400F004C
abbrev UPD_NONCE : Nat := 0x400F0050
abbrev UPD_SERVICE_END : Nat := 0x400F0058
abbrev FAB_STATUS (c : Nat) : Nat := 0x40100000 + 0x10000 * c
abbrev FAB_TILE (c : Nat) (n : Nat) : Nat := 0x40100100 + 0x10000 * c + 4 * n
abbrev FAB_SHADOW_CTRL (c : Nat) : Nat := 0x40100200 + 0x10000 * c
abbrev FAB_SHADOW_STATUS (c : Nat) : Nat := 0x40100204 + 0x10000 * c
abbrev FAB_IND_ADDR (c : Nat) : Nat := 0x40100300 + 0x10000 * c
abbrev FAB_IND_DATA (c : Nat) : Nat := 0x40100304 + 0x10000 * c
abbrev FAB_IND_CTRL (c : Nat) : Nat := 0x40100308 + 0x10000 * c
abbrev FAB_IMAGE_ID : Nat := 0x40100400
abbrev FAB_PERMIT : Nat := 0x40100404
abbrev FAB_FRAME_COUNT : Nat := 0x40100408
abbrev PWM_STATUS : Nat := 0x40140000
abbrev PWM_GATE_CTRL : Nat := 0x40140004
abbrev PWM_BLOCK_STATUS : Nat := 0x40140008
abbrev PWM_GDF_CFG : Nat := 0x40140010
abbrev PWM_GDF_STATUS : Nat := 0x40140014
abbrev PWM_GDF_MAP (n : Nat) : Nat := 0x40140020 + 4 * n
abbrev PWM_PAIR_CFG (p : Nat) : Nat := 0x40140100 + 0x20 * p
abbrev PWM_PAIR_PERIOD (p : Nat) : Nat := 0x40140104 + 0x20 * p
abbrev PWM_PAIR_PHASE (p : Nat) : Nat := 0x40140108 + 0x20 * p
abbrev PWM_PAIR_DEAD (p : Nat) : Nat := 0x4014010C + 0x20 * p
abbrev PWM_PAIR_CMP (p : Nat) : Nat := 0x40140110 + 0x20 * p
abbrev PWM_PAIR_STAT (p : Nat) : Nat := 0x40140114 + 0x20 * p

end Reg

/-! ### Fields -/

namespace F

abbrev SYS_SNAP_MISS_stage_miss : Fld := ⟨8, 8⟩
abbrev SYS_SNAP_MISS_snap_miss : Fld := ⟨0, 8⟩
abbrev SYS_MASTER_ID_id : Fld := ⟨0, 3⟩
abbrev SYS_ID_part : Fld := ⟨16, 16⟩
abbrev SYS_ID_stepping : Fld := ⟨8, 8⟩
abbrev SYS_ID_variant : Fld := ⟨0, 8⟩
abbrev SYS_STATUS_phase : Fld := ⟨4, 4⟩
abbrev SYS_STATUS_start_kind : Fld := ⟨2, 2⟩
abbrev SYS_STATUS_ready : Fld := ⟨0, 1⟩
abbrev SYS_RESET_CAUSE_warm_denied : Fld := ⟨7, 1⟩
abbrev SYS_RESET_CAUSE_wake : Fld := ⟨6, 1⟩
abbrev SYS_RESET_CAUSE_fatal : Fld := ⟨5, 1⟩
abbrev SYS_RESET_CAUSE_watchdog : Fld := ⟨4, 1⟩
abbrev SYS_RESET_CAUSE_software : Fld := ⟨3, 1⟩
abbrev SYS_RESET_CAUSE_reset_n : Fld := ⟨2, 1⟩
abbrev SYS_RESET_CAUSE_power_fail : Fld := ⟨1, 1⟩
abbrev SYS_RESET_CAUSE_power_on : Fld := ⟨0, 1⟩
abbrev SYS_RESET_CTRL_key : Fld := ⟨16, 16⟩
abbrev SYS_RESET_CTRL_cold : Fld := ⟨1, 1⟩
abbrev SYS_RESET_CTRL_go : Fld := ⟨0, 1⟩
abbrev PWR_STATUS_vin : Fld := ⟨16, 16⟩
abbrev PWR_STATUS_vin_low : Fld := ⟨3, 1⟩
abbrev PWR_STATUS_vin_low_seen : Fld := ⟨2, 1⟩
abbrev PWR_STATUS_rtc_valid : Fld := ⟨1, 1⟩
abbrev PWR_SENSOR_latched : Fld := ⟨12, 2⟩
abbrev PWR_SENSOR_good : Fld := ⟨8, 2⟩
abbrev PWR_SENSOR_en_5 : Fld := ⟨1, 1⟩
abbrev PWR_SENSOR_en_15 : Fld := ⟨0, 1⟩
abbrev PWR_WAKE_cause : Fld := ⟨16, 8⟩
abbrev PWR_WAKE_en : Fld := ⟨0, 7⟩
abbrev CLK_STATUS_cfg_err : Fld := ⟨17, 1⟩
abbrev CLK_STATUS_ref_active : Fld := ⟨16, 1⟩
abbrev CLK_STATUS_mems_ok : Fld := ⟨14, 1⟩
abbrev CLK_STATUS_ext_ok : Fld := ⟨13, 1⟩
abbrev CLK_STATUS_coast : Fld := ⟨8, 5⟩
abbrev CLK_STATUS_locked : Fld := ⟨0, 5⟩
abbrev CLK_REF_CFG_ext_10m : Fld := ⟨2, 1⟩
abbrev CLK_REF_CFG_fallback : Fld := ⟨1, 1⟩
abbrev CLK_REF_CFG_sel : Fld := ⟨0, 1⟩
abbrev CLK_CKOUT_div : Fld := ⟨16, 16⟩
abbrev CLK_CKOUT_format : Fld := ⟨10, 2⟩
abbrev CLK_CKOUT_aligned : Fld := ⟨3, 1⟩
abbrev CLK_CKOUT_src : Fld := ⟨0, 3⟩
abbrev TIME_STATE_step_refused : Fld := ⟨19, 1⟩
abbrev TIME_STATE_source_lost_seen : Fld := ⟨18, 1⟩
abbrev TIME_STATE_outlier_seen : Fld := ⟨17, 1⟩
abbrev TIME_STATE_jump_refused : Fld := ⟨16, 1⟩
abbrev TIME_STATE_pll_coast : Fld := ⟨9, 1⟩
abbrev TIME_STATE_holdover : Fld := ⟨8, 1⟩
abbrev TIME_STATE_source : Fld := ⟨4, 3⟩
abbrev TIME_STATE_state : Fld := ⟨0, 3⟩
abbrev TIME_SERVO_CFG_ki : Fld := ⟨24, 8⟩
abbrev TIME_SERVO_CFG_kp : Fld := ⟨16, 8⟩
abbrev TIME_SERVO_CFG_confirm : Fld := ⟨12, 4⟩
abbrev TIME_SERVO_CFG_slew_run : Fld := ⟨0, 12⟩
abbrev TIME_SRC_CFG_master_capable : Fld := ⟨17, 1⟩
abbrev TIME_SRC_CFG_follow_partner : Fld := ⟨16, 1⟩
abbrev TIME_SRC_CFG_third : Fld := ⟨8, 4⟩
abbrev TIME_SRC_CFG_second : Fld := ⟨4, 4⟩
abbrev TIME_SRC_CFG_first : Fld := ⟨0, 4⟩
abbrev TIME_PTP_CFG_log_sync : Fld := ⟨28, 4⟩
abbrev TIME_PTP_CFG_two_step : Fld := ⟨27, 1⟩
abbrev TIME_PTP_CFG_transport : Fld := ⟨26, 1⟩
abbrev TIME_PTP_CFG_p2p : Fld := ⟨25, 1⟩
abbrev TIME_PTP_CFG_power_profile : Fld := ⟨24, 1⟩
abbrev TIME_PTP_CFG_priority2 : Fld := ⟨16, 8⟩
abbrev TIME_PTP_CFG_priority1 : Fld := ⟨8, 8⟩
abbrev TIME_PTP_CFG_domain : Fld := ⟨0, 8⟩
abbrev TIME_STEP_step_ms : Fld := ⟨1, 31⟩
abbrev TIME_STEP_go : Fld := ⟨0, 1⟩
abbrev TIME_PPS_width : Fld := ⟨12, 20⟩
abbrev TIME_PPS_in_edge : Fld := ⟨2, 1⟩
abbrev TIME_PPS_in_en : Fld := ⟨1, 1⟩
abbrev TIME_PPS_out_en : Fld := ⟨0, 1⟩
abbrev TIME_UTC_OFFSET_valid : Fld := ⟨16, 1⟩
abbrev TIME_UTC_OFFSET_offset : Fld := ⟨0, 16⟩
abbrev TIME_TRIG_CFG_mask : Fld := ⟨16, 16⟩
abbrev TIME_TRIG_CFG_disarm : Fld := ⟨6, 1⟩
abbrev TIME_TRIG_CFG_arm : Fld := ⟨5, 1⟩
abbrev TIME_TRIG_CFG_need_lock : Fld := ⟨4, 1⟩
abbrev TIME_TRIG_CFG_kind : Fld := ⟨0, 4⟩
abbrev TIME_TRIG_STATUS_rounded : Fld := ⟨3, 1⟩
abbrev TIME_TRIG_STATUS_state : Fld := ⟨0, 3⟩
abbrev ADC_STATUS_cal_valid : Fld := ⟨16, 4⟩
abbrev ADC_STATUS_not_cal : Fld := ⟨9, 1⟩
abbrev ADC_STATUS_cfg_err : Fld := ⟨8, 1⟩
abbrev ADC_STATUS_state : Fld := ⟨0, 8⟩
abbrev ADC_CMP_STATUS_hard_latched : Fld := ⟨16, 16⟩
abbrev ADC_CMP_STATUS_hard_live : Fld := ⟨0, 16⟩
abbrev ADC_MOD_STATUS_stuck : Fld := ⟨0, 24⟩
abbrev ADC_CTRL_seq_last : Fld := ⟨8, 6⟩
abbrev ADC_CTRL_lp : Fld := ⟨5, 1⟩
abbrev ADC_CTRL_commit : Fld := ⟨4, 1⟩
abbrev ADC_CTRL_cal : Fld := ⟨3, 1⟩
abbrev ADC_CTRL_stop : Fld := ⟨2, 1⟩
abbrev ADC_CTRL_run : Fld := ⟨1, 1⟩
abbrev ADC_START_src : Fld := ⟨30, 2⟩
abbrev ADC_START_event : Fld := ⟨28, 2⟩
abbrev ADC_START_pair : Fld := ⟨24, 4⟩
abbrev ADC_START_delay : Fld := ⟨0, 12⟩
abbrev ADC_PERIOD_period : Fld := ⟨0, 24⟩
abbrev ADC_STATE_missed : Fld := ⟨16, 16⟩
abbrev ADC_STATE_stretched : Fld := ⟨15, 1⟩
abbrev ADC_STATE_held : Fld := ⟨14, 1⟩
abbrev ADC_STATE_entry : Fld := ⟨8, 6⟩
abbrev ADC_LAST_entry : Fld := ⟨24, 6⟩
abbrev ADC_LAST_holdover : Fld := ⟨17, 1⟩
abbrev ADC_LAST_unsettled : Fld := ⟨16, 1⟩
abbrev ADC_LAST_result : Fld := ⟨0, 16⟩
abbrev ADC_CAL_gain : Fld := ⟨16, 16⟩
abbrev ADC_CAL_offset : Fld := ⟨0, 16⟩
abbrev ADC_AIN_CFG_band_en : Fld := ⟨4, 1⟩
abbrev ADC_AIN_CFG_cmp_gain : Fld := ⟨0, 2⟩
abbrev ADC_BAND_upper : Fld := ⟨16, 12⟩
abbrev ADC_BAND_lower : Fld := ⟨0, 12⟩
abbrev ADC_HARD_en : Fld := ⟨31, 1⟩
abbrev ADC_HARD_threshold : Fld := ⟨0, 12⟩
abbrev ADC_MOD_CFG_en : Fld := ⟨31, 1⟩
abbrev ADC_MOD_CFG_delay : Fld := ⟨0, 7⟩
abbrev ADC_SEQ_wait : Fld := ⟨31, 1⟩
abbrev ADC_SEQ_gain : Fld := ⟨29, 2⟩
abbrev ADC_SEQ_channel : Fld := ⟨24, 5⟩
abbrev ADC_SEQ_repeat : Fld := ⟨16, 8⟩
abbrev ADC_SEQ_delay : Fld := ⟨0, 16⟩
abbrev FILT_STATUS_cfg_err : Fld := ⟨24, 1⟩
abbrev FILT_STATUS_fault : Fld := ⟨0, 24⟩
abbrev FILT_SAT_sat : Fld := ⟨0, 24⟩
abbrev FILT_PENDING_pending : Fld := ⟨0, 24⟩
abbrev FILT_CH_CFG_head_delay : Fld := ⟨24, 8⟩
abbrev FILT_CH_CFG_dcb_freeze : Fld := ⟨16, 1⟩
abbrev FILT_CH_CFG_dcb_corner : Fld := ⟨8, 7⟩
abbrev FILT_CH_CFG_median : Fld := ⟨2, 2⟩
abbrev FILT_CH_CFG_preset : Fld := ⟨0, 2⟩
abbrev FILT_CH_STATE_state : Fld := ⟨30, 2⟩
abbrev FILT_CH_STATE_act_preset : Fld := ⟨28, 2⟩
abbrev FILT_CH_STATE_act_median : Fld := ⟨26, 2⟩
abbrev FILT_CH_STATE_fault : Fld := ⟨25, 1⟩
abbrev FILT_CH_STATE_frozen : Fld := ⟨24, 1⟩
abbrev FILT_CH_STATE_unsettled_left : Fld := ⟨16, 8⟩
abbrev FILT_CH_STATE_mclk : Fld := ⟨13, 3⟩
abbrev FILT_CH_STATE_input : Fld := ⟨8, 5⟩
abbrev FILT_CH_STATE_fast_unsettled : Fld := ⟨1, 1⟩
abbrev FILT_CH_LAST_value : Fld := ⟨16, 16⟩
abbrev FILT_CH_LAST_tag : Fld := ⟨0, 16⟩
abbrev FILT_CH_LAST_FAST_value : Fld := ⟨16, 16⟩
abbrev FILT_CH_LAST_FAST_tag : Fld := ⟨0, 16⟩
abbrev CTRL_STATUS_start_refused : Fld := ⟨26, 1⟩
abbrev CTRL_STATUS_cfg_err : Fld := ⟨24, 1⟩
abbrev CTRL_STATUS_blocked : Fld := ⟨20, 4⟩
abbrev CTRL_STATUS_energised : Fld := ⟨16, 4⟩
abbrev CTRL_STAGE_CFG_period : Fld := ⟨4, 4⟩
abbrev CTRL_STAGE_CFG_kind : Fld := ⟨0, 3⟩
abbrev CTRL_STAGE_CMD_inner : Fld := ⟨8, 1⟩
abbrev CTRL_STAGE_CMD_stop : Fld := ⟨1, 1⟩
abbrev CTRL_STAGE_CMD_start : Fld := ⟨0, 1⟩
abbrev CTRL_STAGE_STATE_limiting : Fld := ⟨19, 1⟩
abbrev CTRL_STAGE_STATE_blending : Fld := ⟨18, 1⟩
abbrev CTRL_STAGE_STATE_inner_act : Fld := ⟨17, 1⟩
abbrev CTRL_STAGE_STATE_region : Fld := ⟨12, 4⟩
abbrev CTRL_STAGE_STATE_mode : Fld := ⟨0, 3⟩
abbrev CTRL_STAGE_FLAGS_acc_sat : Fld := ⟨2, 1⟩
abbrev CTRL_STAGE_FLAGS_sched_clamp : Fld := ⟨1, 1⟩
abbrev CTRL_STAGE_FLAGS_input_replaced : Fld := ⟨0, 1⟩
abbrev CTRL_HOVER_CFG_gen : Fld := ⟨16, 4⟩
abbrev CTRL_HOVER_CFG_t_blend : Fld := ⟨0, 14⟩
abbrev CTRL_REGION_AXES_axis1 : Fld := ⟨4, 4⟩
abbrev CTRL_REGION_AXES_axis0 : Fld := ⟨0, 4⟩
abbrev CTRL_REGION_B01_b1 : Fld := ⟨16, 16⟩
abbrev CTRL_REGION_B01_b0 : Fld := ⟨0, 16⟩
abbrev CTRL_REGION_B2H_hys : Fld := ⟨16, 16⟩
abbrev CTRL_REGION_B2H_b2 : Fld := ⟨0, 16⟩
abbrev CTRL_LIMIT_ilim : Fld := ⟨0, 16⟩
abbrev CTRL_STAGE_PHASE_ready : Fld := ⟨16, 16⟩
abbrev CTRL_STAGE_PHASE_out_phase : Fld := ⟨0, 16⟩
abbrev CTRL_PLAUS_STATE_subst : Fld := ⟨16, 5⟩
abbrev CTRL_PLAUS_STATE_violated : Fld := ⟨0, 5⟩
abbrev CTRL_BAND_CFG_fsw_target : Fld := ⟨0, 17⟩
abbrev CTRL_BAND_LIM_h_max : Fld := ⟨16, 12⟩
abbrev CTRL_BAND_LIM_h_min : Fld := ⟨0, 12⟩
abbrev CTRL_NOTCH_en : Fld := ⟨31, 1⟩
abbrev CTRL_NOTCH_q : Fld := ⟨17, 11⟩
abbrev CTRL_NOTCH_f0 : Fld := ⟨0, 17⟩
abbrev CTRL_PLAUS_action : Fld := ⟨24, 3⟩
abbrev CTRL_PLAUS_n : Fld := ⟨16, 8⟩
abbrev CTRL_PLAUS_thr : Fld := ⟨0, 16⟩
abbrev CTRL_COEF_shift : Fld := ⟨16, 4⟩
abbrev CTRL_COEF_mant : Fld := ⟨0, 16⟩
abbrev CTRL_PROF_CFG_target : Fld := ⟨16, 16⟩
abbrev CTRL_PROF_CFG_period : Fld := ⟨8, 4⟩
abbrev CTRL_PROF_CFG_user : Fld := ⟨4, 2⟩
abbrev CTRL_PROF_CFG_en : Fld := ⟨0, 1⟩
abbrev CTRL_PROF_VMAX_e : Fld := ⟨24, 8⟩
abbrev CTRL_PROF_VMAX_m : Fld := ⟨0, 24⟩
abbrev CTRL_PROF_AMAX_e : Fld := ⟨24, 8⟩
abbrev CTRL_PROF_AMAX_m : Fld := ⟨0, 24⟩
abbrev CTRL_PROF_JMAX_e : Fld := ⟨24, 8⟩
abbrev CTRL_PROF_JMAX_m : Fld := ⟨0, 24⟩
abbrev CTRL_PROF_OUT_x : Fld := ⟨16, 16⟩
abbrev CTRL_PROF_OUT_moving : Fld := ⟨1, 1⟩
abbrev CTRL_PROF_OUT_done : Fld := ⟨0, 1⟩
abbrev GFM_STATUS_cfg_err : Fld := ⟨16, 1⟩
abbrev GFM_STATUS_time_mode : Fld := ⟨8, 2⟩
abbrev GFM_GROUP_size : Fld := ⟨16, 5⟩
abbrev GFM_GROUP_t_slot : Fld := ⟨0, 12⟩
abbrev GFM_CFG_position : Fld := ⟨28, 4⟩
abbrev GFM_CFG_f60 : Fld := ⟨24, 1⟩
abbrev GFM_CFG_blackstart : Fld := ⟨23, 1⟩
abbrev GFM_CFG_restore : Fld := ⟨22, 1⟩
abbrev GFM_CFG_tau_pq : Fld := ⟨8, 8⟩
abbrev GFM_CFG_vi_fc : Fld := ⟨0, 8⟩
abbrev GFM_RATING_v_r : Fld := ⟨16, 16⟩
abbrev GFM_RATING_s_r : Fld := ⟨0, 16⟩
abbrev GFM_SCALE_v_fs : Fld := ⟨16, 16⟩
abbrev GFM_SCALE_i_fs : Fld := ⟨0, 16⟩
abbrev GFM_DROOP_h : Fld := ⟨20, 10⟩
abbrev GFM_DROOP_mq : Fld := ⟨10, 10⟩
abbrev GFM_DROOP_mp : Fld := ⟨0, 10⟩
abbrev GFM_SET_q_ref : Fld := ⟨16, 16⟩
abbrev GFM_SET_p_ref : Fld := ⟨0, 16⟩
abbrev GFM_VSET_v_ref : Fld := ⟨0, 16⟩
abbrev GFM_VIRT_x : Fld := ⟨16, 16⟩
abbrev GFM_VIRT_r : Fld := ⟨0, 16⟩
abbrev GFM_LIMIT_ilim : Fld := ⟨16, 10⟩
abbrev GFM_LIMIT_i_cont : Fld := ⟨0, 10⟩
abbrev GFM_LIMIT_T_t_rel : Fld := ⟨16, 8⟩
abbrev GFM_LIMIT_T_t_hold : Fld := ⟨0, 12⟩
abbrev GFM_RECOV_t_recov : Fld := ⟨16, 16⟩
abbrev GFM_RECOV_v_rec : Fld := ⟨0, 16⟩
abbrev GFM_BS_t_ramp : Fld := ⟨16, 16⟩
abbrev GFM_BS_v_dead : Fld := ⟨0, 16⟩
abbrev GFM_LIVE_v_live : Fld := ⟨16, 16⟩
abbrev GFM_LIVE_t_live : Fld := ⟨8, 8⟩
abbrev GFM_LIVE_t_dead : Fld := ⟨0, 8⟩
abbrev GFM_SYNC_ang : Fld := ⟨24, 8⟩
abbrev GFM_SYNC_slip : Fld := ⟨16, 8⟩
abbrev GFM_SYNC_volt : Fld := ⟨8, 8⟩
abbrev GFM_SYNC_t_sync_hold : Fld := ⟨0, 8⟩
abbrev GFM_SYNC_T_t_sync_max : Fld := ⟨0, 16⟩
abbrev GFM_CONT_t_close_max : Fld := ⟨24, 8⟩
abbrev GFM_CONT_t_close_nom : Fld := ⟨16, 8⟩
abbrev GFM_CONT_en : Fld := ⟨15, 1⟩
abbrev GFM_CONT_di : Fld := ⟨8, 4⟩
abbrev GFM_CONT_do : Fld := ⟨0, 4⟩
abbrev GFM_RT_v_dc_stop : Fld := ⟨16, 16⟩
abbrev GFM_RT_t_rt : Fld := ⟨0, 12⟩
abbrev GFM_REST_t_r : Fld := ⟨16, 16⟩
abbrev GFM_REST_t_hold_rest : Fld := ⟨8, 8⟩
abbrev GFM_CMD_ack : Fld := ⟨2, 1⟩
abbrev GFM_CMD_stop : Fld := ⟨1, 1⟩
abbrev GFM_CMD_start : Fld := ⟨0, 1⟩
abbrev GFM_STATE_state : Fld := ⟨24, 4⟩
abbrev GFM_STATE_attempt : Fld := ⟨20, 4⟩
abbrev GFM_STATE_cont_fb : Fld := ⟨19, 1⟩
abbrev GFM_STATE_cont_cmd : Fld := ⟨18, 1⟩
abbrev GFM_STATE_permit : Fld := ⟨17, 1⟩
abbrev GFM_STATE_limit : Fld := ⟨16, 1⟩
abbrev GFM_STATE_phi : Fld := ⟨0, 16⟩
abbrev GFM_MEAS_q : Fld := ⟨16, 16⟩
abbrev GFM_MEAS_p : Fld := ⟨0, 16⟩
abbrev GFM_FREQ_f_line : Fld := ⟨16, 16⟩
abbrev GFM_FREQ_f_unit : Fld := ⟨0, 16⟩
abbrev GFM_TMODE_time_mode : Fld := ⟨0, 2⟩
abbrev GFM_VF_CFG_f_target : Fld := ⟨16, 16⟩
abbrev GFM_VF_CFG_rate : Fld := ⟨0, 16⟩
abbrev GFM_VF_VHZ_v_boost : Fld := ⟨16, 16⟩
abbrev GFM_VF_VHZ_f_base : Fld := ⟨0, 16⟩
abbrev GFM_VF_STATE_f_now : Fld := ⟨16, 16⟩
abbrev GFM_VF_STATE_v_now : Fld := ⟨0, 16⟩
abbrev PROT_STATUS_cfg_err : Fld := ⟨24, 1⟩
abbrev PROT_STATUS_bf : Fld := ⟨16, 8⟩
abbrev PROT_STATUS_trip_cmd : Fld := ⟨8, 8⟩
abbrev PROT_BUS_CFG_v_fs : Fld := ⟨16, 16⟩
abbrev PROT_BUS_CFG_v_n : Fld := ⟨0, 16⟩
abbrev PROT_FREQ_hold : Fld := ⟨16, 1⟩
abbrev PROT_FREQ_f : Fld := ⟨0, 16⟩
abbrev PROT_BUS_MEAS_v1 : Fld := ⟨16, 16⟩
abbrev PROT_BUS_MEAS_v2 : Fld := ⟨0, 16⟩
abbrev PROT_LMD_CFG_n : Fld := ⟨8, 3⟩
abbrev PROT_LMD_CFG_stage2 : Fld := ⟨1, 1⟩
abbrev PROT_LMD_CFG_stage0 : Fld := ⟨0, 1⟩
abbrev PROT_LMD_STATE_tripped : Fld := ⟨24, 8⟩
abbrev PROT_LMD_STATE_qual : Fld := ⟨16, 8⟩
abbrev PROT_LMD_STATE_excluded : Fld := ⟨8, 8⟩
abbrev PROT_LMD_STATE_state : Fld := ⟨0, 3⟩
abbrev PROT_BLOCK_unit32 : Fld := ⟨8, 2⟩
abbrev PROT_BLOCK_feeder : Fld := ⟨0, 8⟩
abbrev PROT_32_en : Fld := ⟨31, 1⟩
abbrev PROT_32_mode : Fld := ⟨30, 1⟩
abbrev PROT_32_delay : Fld := ⟨16, 12⟩
abbrev PROT_32_pickup : Fld := ⟨0, 16⟩
abbrev PROT_32_MAP_block : Fld := ⟨24, 4⟩
abbrev PROT_32_MAP_trip : Fld := ⟨16, 4⟩
abbrev PROT_32_MAP_do : Fld := ⟨0, 16⟩
abbrev PROT_UCURVE_m : Fld := ⟨16, 16⟩
abbrev PROT_UCURVE_t : Fld := ⟨0, 16⟩
abbrev PROT_FDR_CFG_en : Fld := ⟨31, 1⟩
abbrev PROT_FDR_CFG_res_meas : Fld := ⟨30, 1⟩
abbrev PROT_FDR_CFG_i_n : Fld := ⟨0, 16⟩
abbrev PROT_FDR_SCALE_i_fs : Fld := ⟨16, 16⟩
abbrev PROT_FDR_SCALE_in_fs : Fld := ⟨0, 16⟩
abbrev PROT_FDR_STATE_bkr : Fld := ⟨29, 3⟩
abbrev PROT_FDR_STATE_trip_cmd : Fld := ⟨28, 1⟩
abbrev PROT_FDR_STATE_discrepancy : Fld := ⟨27, 1⟩
abbrev PROT_FDR_STATE_status_invalid : Fld := ⟨26, 1⟩
abbrev PROT_FDR_STATE_tc_alarm : Fld := ⟨25, 1⟩
abbrev PROT_FDR_STATE_blocked : Fld := ⟨24, 1⟩
abbrev PROT_FDR_STATE_dir_ph : Fld := ⟨22, 2⟩
abbrev PROT_FDR_STATE_dir_n : Fld := ⟨20, 2⟩
abbrev PROT_FDR_STATE_phasor_invalid : Fld := ⟨19, 1⟩
abbrev PROT_FDR_STATE_lmd_qual : Fld := ⟨18, 1⟩
abbrev PROT_FDR_STATE_lmd_excluded : Fld := ⟨17, 1⟩
abbrev PROT_FDR_FLAGS_operated : Fld := ⟨16, 16⟩
abbrev PROT_FDR_FLAGS_started : Fld := ⟨0, 16⟩
abbrev PROT_BKR_CFG_a_en : Fld := ⟨31, 1⟩
abbrev PROT_BKR_CFG_b_en : Fld := ⟨30, 1⟩
abbrev PROT_BKR_CFG_di_a : Fld := ⟨24, 4⟩
abbrev PROT_BKR_CFG_di_b : Fld := ⟨20, 4⟩
abbrev PROT_BKR_CFG_i_open : Fld := ⟨0, 16⟩
abbrev PROT_TRIP_MAP_t_min : Fld := ⟨24, 8⟩
abbrev PROT_TRIP_MAP_trip : Fld := ⟨16, 4⟩
abbrev PROT_TRIP_MAP_do : Fld := ⟨0, 16⟩
abbrev PROT_BF_CFG_en : Fld := ⟨31, 1⟩
abbrev PROT_BF_CFG_mode : Fld := ⟨29, 2⟩
abbrev PROT_BF_CFG_tc_fast : Fld := ⟨28, 1⟩
abbrev PROT_BF_CFG_t_bf : Fld := ⟨18, 10⟩
abbrev PROT_BF_CFG_t_retrip : Fld := ⟨8, 10⟩
abbrev PROT_BF_CFG_i_bf : Fld := ⟨0, 8⟩
abbrev PROT_BF_MAP_block : Fld := ⟨24, 4⟩
abbrev PROT_BF_MAP_retrip : Fld := ⟨20, 4⟩
abbrev PROT_BF_MAP_trip : Fld := ⟨16, 4⟩
abbrev PROT_BF_MAP_do : Fld := ⟨0, 16⟩
abbrev PROT_TC_CFG_en : Fld := ⟨31, 1⟩
abbrev PROT_TC_CFG_out : Fld := ⟨28, 2⟩
abbrev PROT_TC_CFG_t_74 : Fld := ⟨0, 16⟩
abbrev PROT_DIR_rca_ph : Fld := ⟨24, 8⟩
abbrev PROT_DIR_rca_n : Fld := ⟨16, 8⟩
abbrev PROT_DIR_pol_n : Fld := ⟨15, 1⟩
abbrev PROT_DIR_v_min : Fld := ⟨0, 8⟩
abbrev PROT_LMD_en : Fld := ⟨31, 1⟩
abbrev PROT_LMD_k0 : Fld := ⟨24, 4⟩
abbrev PROT_LMD_i_min : Fld := ⟨0, 16⟩
abbrev PROT_LMD_REACH_x_reach : Fld := ⟨16, 16⟩
abbrev PROT_LMD_REACH_r_reach : Fld := ⟨0, 16⟩
abbrev PROT_THERM_en : Fld := ⟨31, 1⟩
abbrev PROT_THERM_alarm : Fld := ⟨24, 7⟩
abbrev PROT_THERM_tau : Fld := ⟨16, 8⟩
abbrev PROT_THERM_i_ref : Fld := ⟨0, 16⟩
abbrev PROT_THERM_STATE_alarm : Fld := ⟨16, 1⟩
abbrev PROT_THERM_STATE_theta : Fld := ⟨0, 16⟩
abbrev PROT_OC_en : Fld := ⟨31, 1⟩
abbrev PROT_OC_dir : Fld := ⟨29, 2⟩
abbrev PROT_OC_fast : Fld := ⟨28, 1⟩
abbrev PROT_OC_curve : Fld := ⟨24, 4⟩
abbrev PROT_OC_fast_n : Fld := ⟨20, 4⟩
abbrev PROT_OC_pickup : Fld := ⟨0, 16⟩
abbrev PROT_OC_T_reset : Fld := ⟨31, 1⟩
abbrev PROT_OC_T_mult : Fld := ⟨16, 15⟩
abbrev PROT_OC_T_tr : Fld := ⟨0, 16⟩
abbrev PROT_VF_en : Fld := ⟨31, 1⟩
abbrev PROT_VF_all : Fld := ⟨30, 1⟩
abbrev PROT_VF_dead_block : Fld := ⟨29, 1⟩
abbrev PROT_VF_delay : Fld := ⟨16, 13⟩
abbrev PROT_VF_pickup : Fld := ⟨0, 16⟩
abbrev PROT_MEAS_mag : Fld := ⟨16, 16⟩
abbrev PROT_MEAS_ang : Fld := ⟨0, 16⟩
abbrev PROT_FDR_COUNT_bf_count : Fld := ⟨16, 16⟩
abbrev PROT_FDR_COUNT_trip_count : Fld := ⟨0, 16⟩
abbrev REC_STATUS_arm_err : Fld := ⟨24, 8⟩
abbrev REC_STATUS_overflow : Fld := ⟨15, 1⟩
abbrev REC_STATUS_chg_lost : Fld := ⟨14, 1⟩
abbrev REC_STATUS_mask_viol : Fld := ⟨13, 1⟩
abbrev REC_STATUS_cfg_err : Fld := ⟨12, 1⟩
abbrev REC_STATUS_rearm_wait : Fld := ⟨11, 1⟩
abbrev REC_STATUS_nand_busy : Fld := ⟨10, 1⟩
abbrev REC_STATUS_state : Fld := ⟨0, 3⟩
abbrev REC_CTRL_trigger : Fld := ⟨3, 1⟩
abbrev REC_CTRL_disarm : Fld := ⟨2, 1⟩
abbrev REC_CTRL_arm : Fld := ⟨1, 1⟩
abbrev REC_CFG_k : Fld := ⟨16, 16⟩
abbrev REC_CFG_nand_full : Fld := ⟨4, 1⟩
abbrev REC_CFG_auto_rearm : Fld := ⟨3, 1⟩
abbrev REC_CFG_stream : Fld := ⟨0, 1⟩
abbrev REC_TRIG_SRC_trig_n : Fld := ⟨24, 8⟩
abbrev REC_TRIG_SRC_en : Fld := ⟨0, 11⟩
abbrev REC_TRIG_FDR_trip : Fld := ⟨24, 8⟩
abbrev REC_TRIG_FDR_start : Fld := ⟨16, 8⟩
abbrev REC_TRIG_FDR_codes : Fld := ⟨0, 16⟩
abbrev REC_FILL_ring_mib : Fld := ⟨16, 16⟩
abbrev REC_FILL_chg_mib : Fld := ⟨0, 16⟩
abbrev REC_STORE_nand_free : Fld := ⟨16, 16⟩
abbrev REC_STORE_records : Fld := ⟨0, 9⟩
abbrev REC_ACH_en : Fld := ⟨31, 1⟩
abbrev REC_ACH_tile : Fld := ⟨8, 2⟩
abbrev REC_ACH_input : Fld := ⟨0, 6⟩
abbrev REC_BCH_en : Fld := ⟨31, 1⟩
abbrev REC_BCH_edge : Fld := ⟨29, 2⟩
abbrev REC_BCH_class : Fld := ⟨12, 4⟩
abbrev REC_BCH_index : Fld := ⟨0, 12⟩
abbrev REC_LEVEL_en : Fld := ⟨31, 1⟩
abbrev REC_LEVEL_cond : Fld := ⟨29, 2⟩
abbrev REC_LEVEL_achan : Fld := ⟨23, 6⟩
abbrev REC_LEVEL_n : Fld := ⟨16, 7⟩
abbrev REC_LEVEL_hys : Fld := ⟨0, 16⟩
abbrev REC_LEVEL_THR_thr : Fld := ⟨0, 16⟩
abbrev REC_MASK_CFG_action : Fld := ⟨30, 2⟩
abbrev REC_MASK_CFG_ref : Fld := ⟨29, 1⟩
abbrev REC_MASK_CFG_npts : Fld := ⟨24, 5⟩
abbrev REC_MASK_CFG_achan : Fld := ⟨16, 6⟩
abbrev REC_MASK_CFG_n : Fld := ⟨8, 8⟩
abbrev REC_MASK_LIM_upper : Fld := ⟨16, 16⟩
abbrev REC_MASK_LIM_lower : Fld := ⟨0, 16⟩
abbrev SCAN_STATUS_refused : Fld := ⟨25, 1⟩
abbrev SCAN_STATUS_cfg_err : Fld := ⟨24, 1⟩
abbrev SCAN_STATUS_mode1 : Fld := ⟨4, 2⟩
abbrev SCAN_STATUS_mode0 : Fld := ⟨0, 2⟩
abbrev SCAN_FORCE_STATUS_count1 : Fld := ⟨16, 9⟩
abbrev SCAN_FORCE_STATUS_count0 : Fld := ⟨0, 9⟩
abbrev SCAN_CTRL_step_task : Fld := ⟨8, 3⟩
abbrev SCAN_CTRL_cold : Fld := ⟨4, 1⟩
abbrev SCAN_CTRL_step : Fld := ⟨3, 1⟩
abbrev SCAN_CTRL_hold : Fld := ⟨2, 1⟩
abbrev SCAN_CTRL_stop : Fld := ⟨1, 1⟩
abbrev SCAN_CTRL_run : Fld := ⟨0, 1⟩
abbrev SCAN_STATE_xchg_pending : Fld := ⟨31, 1⟩
abbrev SCAN_STATE_code_live : Fld := ⟨30, 1⟩
abbrev SCAN_STATE_data_live : Fld := ⟨29, 1⟩
abbrev SCAN_STATE_warm_last : Fld := ⟨28, 1⟩
abbrev SCAN_STATE_trap : Fld := ⟨16, 8⟩
abbrev SCAN_STATE_overrun : Fld := ⟨8, 8⟩
abbrev SCAN_STATE_mode : Fld := ⟨0, 2⟩
abbrev SCAN_CFG_stop_mode : Fld := ⟨1, 1⟩
abbrev SCAN_CFG_cold_only : Fld := ⟨0, 1⟩
abbrev SCAN_PROG_INFO_hyper : Fld := ⟨16, 16⟩
abbrev SCAN_PROG_INFO_retained : Fld := ⟨8, 8⟩
abbrev SCAN_PROG_INFO_tasks : Fld := ⟨0, 4⟩
abbrev SCAN_XCHG_state : Fld := ⟨0, 2⟩
abbrev SCAN_TASK_CFG_rank : Fld := ⟨4, 4⟩
abbrev SCAN_TASK_CFG_period : Fld := ⟨0, 4⟩
abbrev SCAN_TASK_TIME_max_us : Fld := ⟨16, 16⟩
abbrev SCAN_TASK_TIME_last_us : Fld := ⟨0, 16⟩
abbrev FIO_STATUS_cfg_err : Fld := ⟨24, 1⟩
abbrev FIO_STATUS_safe_seen : Fld := ⟨17, 1⟩
abbrev FIO_STATUS_safe : Fld := ⟨16, 1⟩
abbrev FIO_STATUS_vtrip_low : Fld := ⟨0, 1⟩
abbrev FIO_VFIELD_vfield_b : Fld := ⟨16, 16⟩
abbrev FIO_VFIELD_vfield_a : Fld := ⟨0, 16⟩
abbrev FIO_VTRIP_vtrip : Fld := ⟨0, 16⟩
abbrev FIO_SAFE_CFG_timeout : Fld := ⟨0, 10⟩
abbrev FIO_GRP_CFG_hold_off : Fld := ⟨0, 2⟩
abbrev FIO_GRP_CTRL_ack : Fld := ⟨4, 2⟩
abbrev FIO_GRP_CTRL_kill : Fld := ⟨0, 2⟩
abbrev FIO_GRP_STATE_wait_ack : Fld := ⟨10, 2⟩
abbrev FIO_GRP_STATE_lost : Fld := ⟨8, 2⟩
abbrev FIO_GRP_STATE_low : Fld := ⟨4, 2⟩
abbrev FIO_GRP_STATE_low_seen : Fld := ⟨0, 2⟩
abbrev FIO_DI_CFG_cls : Fld := ⟨31, 1⟩
abbrev FIO_DI_CFG_debounce : Fld := ⟨0, 9⟩
abbrev FIO_DI_STATE_raw : Fld := ⟨16, 16⟩
abbrev FIO_DI_STATE_debounced : Fld := ⟨0, 16⟩
abbrev FIO_DO_CFG_safe : Fld := ⟨4, 2⟩
abbrev FIO_DO_CFG_shared : Fld := ⟨2, 1⟩
abbrev FIO_DO_CFG_ol_en : Fld := ⟨1, 1⟩
abbrev FIO_DO_CFG_retry : Fld := ⟨0, 1⟩
abbrev FIO_DO_STATE_cmd : Fld := ⟨16, 16⟩
abbrev FIO_DO_STATE_on : Fld := ⟨0, 16⟩
abbrev FIO_DO_FAULT_ext_drive : Fld := ⟨16, 16⟩
abbrev FIO_DO_FAULT_overload : Fld := ⟨0, 16⟩
abbrev FIO_DO_DIAG_open_load : Fld := ⟨16, 16⟩
abbrev FIO_DO_DIAG_demag_excess : Fld := ⟨0, 16⟩
abbrev FIO_DEMAG_sum_mj : Fld := ⟨16, 16⟩
abbrev FIO_DEMAG_peak_mj : Fld := ⟨0, 16⟩
abbrev FIO_TRIP_CFG_safe : Fld := ⟨1, 1⟩
abbrev FIO_TRIP_CFG_sup_en : Fld := ⟨0, 1⟩
abbrev FIO_TRIP_STATE_cooldown : Fld := ⟨28, 4⟩
abbrev FIO_TRIP_STATE_ext_drive : Fld := ⟨24, 4⟩
abbrev FIO_TRIP_STATE_short : Fld := ⟨20, 4⟩
abbrev FIO_TRIP_STATE_overtime : Fld := ⟨16, 4⟩
abbrev FIO_TRIP_STATE_intact : Fld := ⟨12, 4⟩
abbrev FIO_TRIP_STATE_measured : Fld := ⟨8, 4⟩
abbrev FIO_TRIP_STATE_strobe : Fld := ⟨4, 4⟩
abbrev FIO_TRIP_STATE_energised : Fld := ⟨0, 4⟩
abbrev DPX_STATUS_role_write : Fld := ⟨20, 1⟩
abbrev DPX_STATUS_mismatch_seen : Fld := ⟨19, 1⟩
abbrev DPX_STATUS_path_down_seen : Fld := ⟨18, 1⟩
abbrev DPX_STATUS_conflict_seen : Fld := ⟨17, 1⟩
abbrev DPX_STATUS_stale_seen : Fld := ⟨16, 1⟩
abbrev DPX_STATUS_synced_ok : Fld := ⟨11, 1⟩
abbrev DPX_STATUS_path_up : Fld := ⟨8, 2⟩
abbrev DPX_STATUS_owner : Fld := ⟨7, 1⟩
abbrev DPX_STATUS_side : Fld := ⟨6, 1⟩
abbrev DPX_STATUS_role : Fld := ⟨4, 2⟩
abbrev DPX_STATUS_state : Fld := ⟨0, 4⟩
abbrev DPX_CFG_en : Fld := ⟨31, 1⟩
abbrev DPX_CFG_mclk_follow : Fld := ⟨30, 1⟩
abbrev DPX_CFG_t_listen : Fld := ⟨16, 10⟩
abbrev DPX_CFG_t_conf : Fld := ⟨0, 8⟩
abbrev DPX_PARTNER_state : Fld := ⟨20, 4⟩
abbrev DPX_PARTNER_role : Fld := ⟨18, 2⟩
abbrev DPX_PARTNER_owner : Fld := ⟨17, 1⟩
abbrev DPX_PARTNER_hb_running : Fld := ⟨16, 1⟩
abbrev DPX_PARTNER_age : Fld := ⟨0, 16⟩
abbrev DPX_CMD_cancel : Fld := ⟨1, 1⟩
abbrev DPX_CMD_switch : Fld := ⟨0, 1⟩
abbrev DPX_ECN_CFG_ethertype : Fld := ⟨16, 16⟩
abbrev DPX_ECN_CFG_pcp : Fld := ⟨0, 3⟩
abbrev DPX_PATH_STAT_crc_err : Fld := ⟨16, 16⟩
abbrev DPX_PATH_STAT_missed : Fld := ⟨0, 16⟩
abbrev DPX_LAST_gap_us : Fld := ⟨16, 16⟩
abbrev DPX_LAST_sync_10ms : Fld := ⟨0, 16⟩
abbrev NET_STATUS_cfg_err : Fld := ⟨24, 1⟩
abbrev NET_STATUS_mode : Fld := ⟨16, 1⟩
abbrev NET_STATUS_speed1 : Fld := ⟨4, 2⟩
abbrev NET_STATUS_speed0 : Fld := ⟨2, 2⟩
abbrev NET_STATUS_link2 : Fld := ⟨1, 1⟩
abbrev NET_BUS_STATE_prp_lost : Fld := ⟨8, 2⟩
abbrev NET_BUS_STATE_mvb_fail : Fld := ⟨6, 2⟩
abbrev NET_BUS_STATE_can_passive : Fld := ⟨2, 2⟩
abbrev NET_BUS_STATE_can_off : Fld := ⟨0, 2⟩
abbrev NET_FI_STATUS_refused : Fld := ⟨24, 1⟩
abbrev NET_FI_STATUS_state : Fld := ⟨0, 20⟩
abbrev NET_FI_CFG_arm : Fld := ⟨31, 1⟩
abbrev NET_FI_CFG_disarm : Fld := ⟨30, 1⟩
abbrev NET_FI_CFG_dir : Fld := ⟨28, 1⟩
abbrev NET_FI_CFG_action : Fld := ⟨24, 4⟩
abbrev NET_FI_CFG_every : Fld := ⟨16, 8⟩
abbrev NET_FI_CFG_count : Fld := ⟨0, 16⟩
abbrev NET_FI_PARAM_arg : Fld := ⟨16, 16⟩
abbrev NET_FI_PARAM_delay : Fld := ⟨0, 16⟩
abbrev NET_FI_MATCH_value : Fld := ⟨16, 16⟩
abbrev NET_FI_MATCH_mask : Fld := ⟨0, 16⟩
abbrev NET_FI_DONE_acted : Fld := ⟨0, 16⟩
abbrev CMD_STATUS_evt_lost_seen : Fld := ⟨16, 1⟩
abbrev CMD_STATUS_ops_open : Fld := ⟨8, 5⟩
abbrev CMD_STATUS_overrun : Fld := ⟨2, 1⟩
abbrev CMD_STATUS_rsp_valid : Fld := ⟨1, 1⟩
abbrev CMD_STATUS_req_busy : Fld := ⟨0, 1⟩
abbrev CMD_DOORBELL_length : Fld := ⟨0, 15⟩
abbrev CMD_RSP_LEN_length : Fld := ⟨0, 15⟩
abbrev CMD_IRQ_event : Fld := ⟨2, 1⟩
abbrev CMD_IRQ_op_done : Fld := ⟨1, 1⟩
abbrev CMD_IRQ_reply : Fld := ⟨0, 1⟩
abbrev CMD_IRQ_EN_en : Fld := ⟨0, 3⟩
abbrev CMD_CTRL_chan_reset : Fld := ⟨0, 1⟩
abbrev CMD_OP_STATE_status : Fld := ⟨24, 8⟩
abbrev CMD_OP_STATE_progress : Fld := ⟨14, 10⟩
abbrev CMD_OP_STATE_hold : Fld := ⟨12, 2⟩
abbrev CMD_OP_STATE_kind : Fld := ⟨8, 4⟩
abbrev CMD_OP_STATE_state : Fld := ⟨0, 3⟩
abbrev UPD_STATUS_lifecycle : Fld := ⟨30, 2⟩
abbrev UPD_STATUS_commissioning : Fld := ⟨24, 1⟩
abbrev UPD_STATUS_counter : Fld := ⟨16, 7⟩
abbrev UPD_STATUS_boot_fail : Fld := ⟨8, 4⟩
abbrev UPD_STATUS_trial : Fld := ⟨4, 4⟩
abbrev UPD_STATUS_boot_rec : Fld := ⟨1, 1⟩
abbrev UPD_STATUS_kindling : Fld := ⟨0, 1⟩
abbrev UPD_KIND_STATE_sec_version : Fld := ⟨24, 8⟩
abbrev UPD_KIND_STATE_fallback_valid : Fld := ⟨7, 1⟩
abbrev UPD_KIND_STATE_verified : Fld := ⟨6, 1⟩
abbrev UPD_KIND_STATE_staged : Fld := ⟨5, 1⟩
abbrev UPD_KIND_STATE_state : Fld := ⟨1, 2⟩
abbrev UPD_KIND_STATE_active : Fld := ⟨0, 1⟩
abbrev UPD_TRIAL_CFG_window : Fld := ⟨0, 16⟩
abbrev UPD_TRIAL_LEFT_left : Fld := ⟨0, 16⟩
abbrev UPD_DL_kind : Fld := ⟨28, 4⟩
abbrev UPD_DL_total : Fld := ⟨16, 9⟩
abbrev UPD_DL_confirmed : Fld := ⟨0, 9⟩
abbrev FAB_STATUS_pending : Fld := ⟨16, 1⟩
abbrev FAB_STATUS_spare_idx : Fld := ⟨8, 5⟩
abbrev FAB_STATUS_retired : Fld := ⟨3, 5⟩
abbrev FAB_STATUS_degraded_no_spare : Fld := ⟨2, 1⟩
abbrev FAB_STATUS_shadow_busy : Fld := ⟨1, 1⟩
abbrev FAB_STATUS_clk_req : Fld := ⟨0, 1⟩
abbrev FAB_TILE_slot : Fld := ⟨16, 8⟩
abbrev FAB_TILE_role : Fld := ⟨12, 4⟩
abbrev FAB_TILE_state : Fld := ⟨8, 2⟩
abbrev FAB_TILE_group : Fld := ⟨4, 4⟩
abbrev FAB_TILE_ctx : Fld := ⟨0, 1⟩
abbrev FAB_SHADOW_CTRL_enable : Fld := ⟨16, 1⟩
abbrev FAB_SHADOW_CTRL_check_now : Fld := ⟨8, 1⟩
abbrev FAB_SHADOW_CTRL_target : Fld := ⟨0, 5⟩
abbrev FAB_SHADOW_STATUS_passed : Fld := ⟨16, 16⟩
abbrev FAB_SHADOW_STATUS_last_idx : Fld := ⟨11, 5⟩
abbrev FAB_SHADOW_STATUS_phase : Fld := ⟨8, 3⟩
abbrev FAB_SHADOW_STATUS_cur_idx : Fld := ⟨3, 5⟩
abbrev FAB_SHADOW_STATUS_last_mismatch : Fld := ⟨2, 1⟩
abbrev FAB_SHADOW_STATUS_abandoned : Fld := ⟨1, 1⟩
abbrev FAB_IND_ADDR_tile : Fld := ⟨22, 5⟩
abbrev FAB_IND_ADDR_space : Fld := ⟨20, 2⟩
abbrev FAB_IND_ADDR_word : Fld := ⟨2, 12⟩
abbrev FAB_IND_CTRL_err : Fld := ⟨3, 1⟩
abbrev FAB_IND_CTRL_busy : Fld := ⟨2, 1⟩
abbrev FAB_IND_CTRL_write : Fld := ⟨1, 1⟩
abbrev FAB_IND_CTRL_go : Fld := ⟨0, 1⟩
abbrev FAB_PERMIT_test_allowed : Fld := ⟨1, 1⟩
abbrev FAB_PERMIT_hold_live : Fld := ⟨0, 1⟩
abbrev PWM_STATUS_cfg_err : Fld := ⟨5, 1⟩
abbrev PWM_STATUS_release_refused : Fld := ⟨4, 1⟩
abbrev PWM_STATUS_ready : Fld := ⟨2, 1⟩
abbrev PWM_STATUS_owner : Fld := ⟨1, 1⟩
abbrev PWM_STATUS_gden : Fld := ⟨0, 1⟩
abbrev PWM_GATE_CTRL_release : Fld := ⟨8, 4⟩
abbrev PWM_GATE_CTRL_block : Fld := ⟨4, 4⟩
abbrev PWM_GATE_CTRL_gden_en : Fld := ⟨0, 1⟩
abbrev PWM_BLOCK_STATUS_latched : Fld := ⟨16, 4⟩
abbrev PWM_BLOCK_STATUS_pair_off : Fld := ⟨0, 12⟩
abbrev PWM_GDF_CFG_filter : Fld := ⟨16, 6⟩
abbrev PWM_GDF_CFG_level : Fld := ⟨8, 6⟩
abbrev PWM_GDF_CFG_en : Fld := ⟨0, 6⟩
abbrev PWM_GDF_STATUS_latched : Fld := ⟨8, 6⟩
abbrev PWM_GDF_STATUS_live : Fld := ⟨0, 6⟩
abbrev PWM_GDF_MAP_stages : Fld := ⟨0, 4⟩
abbrev PWM_PAIR_CFG_ain : Fld := ⟨16, 4⟩
abbrev PWM_PAIR_CFG_load : Fld := ⟨12, 2⟩
abbrev PWM_PAIR_CFG_shape : Fld := ⟨10, 1⟩
abbrev PWM_PAIR_CFG_stage : Fld := ⟨8, 2⟩
abbrev PWM_PAIR_CFG_mode : Fld := ⟨0, 2⟩
abbrev PWM_PAIR_PERIOD_n : Fld := ⟨0, 20⟩
abbrev PWM_PAIR_PHASE_phase : Fld := ⟨0, 20⟩
abbrev PWM_PAIR_DEAD_t_min : Fld := ⟨16, 13⟩
abbrev PWM_PAIR_DEAD_t_d : Fld := ⟨0, 13⟩
abbrev PWM_PAIR_CMP_c : Fld := ⟨0, 20⟩
abbrev PWM_PAIR_STAT_deferred : Fld := ⟨16, 16⟩
abbrev PWM_PAIR_STAT_switches : Fld := ⟨0, 16⟩

end F

/-! ### Access codes and reset words, block by block -/

/-- The registers of the SYS block (spec/01_architecture.md, spec/03_power_reset_sleep.md). -/
def regsSYS : List RegSpec := [
  { base := Reg.SYS_SNAP_MISS, w1c := 0xFFFF },
  { base := Reg.SYS_MASTER_ID },
  { base := Reg.SYS_ID, reset := 0x4864A101 },
  { base := Reg.SYS_STATUS },
  { base := Reg.SYS_RESET_CAUSE, w1c := 0xFF },
  { base := Reg.SYS_RESET_CTRL }]

/-- The registers of the PWR block (spec/03_power_reset_sleep.md). -/
def regsPWR : List RegSpec := [
  { base := Reg.PWR_STATUS, w1c := 0x4 },
  { base := Reg.PWR_SENSOR, reset := 0x3, rw := 0x3 },
  { base := Reg.PWR_BLOCK_STATE },
  { base := Reg.PWR_WAKE, rw := 0x7F, w1c := 0xFF0000 },
  { base := Reg.PWR_RTC, wide := true, hiRW := true, rw := 0xFFFFFFFFFFFFFFFF },
  { base := Reg.PWR_RTC_ALARM, wide := true, hiRW := true, rw := 0xFFFFFFFFFFFFFFFF }]

/-- The registers of the CLK block (spec/04_clocks_and_time.md). -/
def regsCLK : List RegSpec := [
  { base := Reg.CLK_STATUS, reset := 0x6000, w1c := 0x20000 },
  { base := Reg.CLK_REF_CFG, rwl := 0x7 },
  { base := Reg.CLK_MCLK_DIV, reset := 0x111111, rwl := 0xFFFFFF },
  { base := Reg.CLK_CKOUT 0, dims := [(4, 4)], rwl := 0xFFFF0C07 }]

/-- The registers of the TIME block (spec/04_clocks_and_time.md). -/
def regsTIME : List RegSpec := [
  { base := Reg.TIME_NOW, wide := true },
  { base := Reg.TIME_STATE, reset := 0x100, w1c := 0xF0000 },
  { base := Reg.TIME_OFFSET },
  { base := Reg.TIME_FREQ },
  { base := Reg.TIME_SERVO_CFG, reset := 0x52404064, rw := 0xFFFFFFFF },
  { base := Reg.TIME_JUMP_LIMIT, reset := 0x3E8, rw := 0xFFFFFFFF },
  { base := Reg.TIME_SRC_CFG, reset := 0x10421, rw := 0x30FFF },
  { base := Reg.TIME_PTP_CFG, reset := 0x3808000, rw := 0xFFFFFFFF },
  { base := Reg.TIME_STEP, rw := 0xFFFFFFFE },
  { base := Reg.TIME_ASYM 0, dims := [(4, 4)], rw := 0xFFFFFFFF },
  { base := Reg.TIME_PPS, reset := 0x64000, rw := 0xFFFFF007 },
  { base := Reg.TIME_PPS_IN_STAMP, wide := true },
  { base := Reg.TIME_GM_ID, wide := true },
  { base := Reg.TIME_UTC_OFFSET },
  { base := Reg.TIME_TRIG_TARGET 0, dims := [(8, 0x10)], wide := true, hiRW := true, rw := 0xFFFFFFFFFFFFFFFF },
  { base := Reg.TIME_TRIG_CFG 0, dims := [(8, 0x10)], rw := 0xFFFF001F },
  { base := Reg.TIME_TRIG_STATUS 0, dims := [(8, 0x10)] }]

/-- The registers of the ADC block (spec/05_acquisition.md). -/
def regsADC : List RegSpec := [
  { base := Reg.ADC_STATUS, w1c := 0x300 },
  { base := Reg.ADC_CMP_STATUS, w1c := 0xFFFF0000 },
  { base := Reg.ADC_MOD_STATUS, w1c := 0xFFFFFF },
  { base := Reg.ADC_CTRL 0, dims := [(4, 0x40)], rw := 0x20, rwl := 0x3F00 },
  { base := Reg.ADC_START 0, dims := [(4, 0x40)], rwl := 0xFF000FFF },
  { base := Reg.ADC_PERIOD 0, dims := [(4, 0x40)], reset := 0x7D0, rwl := 0xFFFFFF },
  { base := Reg.ADC_STATE 0, dims := [(4, 0x40)], w1c := 0x8000 },
  { base := Reg.ADC_LAST 0, dims := [(4, 0x40)] },
  { base := Reg.ADC_CAL 0 0, dims := [(4, 0x40), (4, 4)], reset := 0x80000000 },
  { base := Reg.ADC_AIN_CFG 0, dims := [(16, 4)], rwl := 0x13 },
  { base := Reg.ADC_BAND 0, dims := [(16, 4)], reset := 0x8000800 },
  { base := Reg.ADC_HARD 0, dims := [(16, 4)], reset := 0xFFF, rw := 0x80000FFF },
  { base := Reg.ADC_MOD_CFG 0, dims := [(24, 4)], rwl := 0x8000007F },
  { base := Reg.ADC_SEQ 0 0, dims := [(4, 0x100), (64, 4)], rwl := 0xFFFFFFFF }]

/-- The registers of the FILT block (spec/06_filter_chains.md). -/
def regsFILT : List RegSpec := [
  { base := Reg.FILT_STATUS, w1c := 0x1000000 },
  { base := Reg.FILT_SAT, w1c := 0xFFFFFF },
  { base := Reg.FILT_PENDING },
  { base := Reg.FILT_CH_CFG 0, dims := [(24, 0x20)], reset := 0x501, rw := 0xFF010000, rwl := 0x7F0F },
  { base := Reg.FILT_CH_STATE 0, dims := [(24, 0x20)] },
  { base := Reg.FILT_CH_GDELAY 0, dims := [(24, 0x20)] },
  { base := Reg.FILT_CH_FAST_DELAY 0, dims := [(24, 0x20)] },
  { base := Reg.FILT_CH_LAST 0, dims := [(24, 0x20)] },
  { base := Reg.FILT_CH_LAST_FAST 0, dims := [(24, 0x20)] },
  { base := Reg.FILT_CH_STAMP 0, dims := [(24, 0x20)], wide := true }]

/-- The registers of the CTRL block, part 1. -/
def regsCTRLPart1 : List RegSpec := [
  { base := Reg.CTRL_STATUS, w1c := 0x5000000 },
  { base := Reg.CTRL_STAGE_CFG 0, dims := [(4, 0x100)] },
  { base := Reg.CTRL_STAGE_CMD 0, dims := [(4, 0x100)], rw := 0x100 },
  { base := Reg.CTRL_STAGE_STATE 0, dims := [(4, 0x100)] },
  { base := Reg.CTRL_STAGE_FLAGS 0, dims := [(4, 0x100)], w1c := 0x7 },
  { base := Reg.CTRL_HOVER_CFG 0, reset := 0x64, rw := 0xF3FFF },
  { base := Reg.CTRL_HOVER_CFG 1, reset := 0x10064, rw := 0xF3FFF },
  { base := Reg.CTRL_HOVER_CFG 2, reset := 0x80064, rw := 0xF3FFF },
  { base := Reg.CTRL_HOVER_CFG 3, reset := 0x90064, rw := 0xF3FFF },
  { base := Reg.CTRL_REGION_AXES 0, dims := [(4, 0x100)], rw := 0xFF },
  { base := Reg.CTRL_REGION_B01 0 0, dims := [(4, 0x100), (2, 8)], rw := 0xFFFFFFFF },
  { base := Reg.CTRL_REGION_B2H 0 0, dims := [(4, 0x100), (2, 8)], rw := 0xFFFFFFFF },
  { base := Reg.CTRL_LIMIT 0, dims := [(4, 0x100)], rw := 0xFFFF },
  { base := Reg.CTRL_STAGE_PHASE 0, dims := [(4, 0x100)], reset := 0x4B0, rw := 0xFFFF },
  { base := Reg.CTRL_PLAUS_STATE 0, dims := [(4, 0x100)], w1c := 0x1F },
  { base := Reg.CTRL_BAND_CFG 0, dims := [(4, 0x100)], reset := 0x3E80, rw := 0x1FFFF },
  { base := Reg.CTRL_BAND_LIM 0, dims := [(4, 0x100)], reset := 0xFFF0001, rw := 0xFFF0FFF },
  { base := Reg.CTRL_BAND_K 0, dims := [(4, 0x100)], rw := 0xFFFFFFFF },
  { base := Reg.CTRL_NOTCH 0 0, dims := [(4, 0x100), (4, 4)], rw := 0x8FFFFFFF },
  { base := Reg.CTRL_PLAUS 0 1, dims := [(4, 0x100), (5, 4)], reset := 0x10000, rw := 0x7FFFFFF },
  { base := Reg.CTRL_INTEG 0 0, dims := [(4, 0x100), (4, 8)], wide := true },
  { base := Reg.CTRL_COEF 0 0 0, dims := [(4, 0x800), (16, 0x80), (32, 4)], rw := 0xFFFFF },
  { base := Reg.CTRL_PROF_CFG 0, dims := [(16, 0x20)], reset := 0x300, rw := 0xFFFF0F01 },
  { base := Reg.CTRL_PROF_VMAX 0, dims := [(16, 0x20)], rw := 0xFFFFFFFF },
  { base := Reg.CTRL_PROF_AMAX 0, dims := [(16, 0x20)], rw := 0xFFFFFFFF }]
/-- The registers of the CTRL block, part 2. -/
def regsCTRLPart2 : List RegSpec := [
  { base := Reg.CTRL_PROF_JMAX 0, dims := [(16, 0x20)], rw := 0xFFFFFFFF },
  { base := Reg.CTRL_PROF_OUT 0, dims := [(16, 0x20)], reset := 0x1 }]
/-- The registers of the CTRL block (spec/07_loop_engine.md). -/
def regsCTRL : List RegSpec := regsCTRLPart1 ++ regsCTRLPart2

/-- The registers of the GFM block, part 1. -/
def regsGFMPart1 : List RegSpec := [
  { base := Reg.GFM_STATUS, reset := 0x200, w1c := 0x10000 },
  { base := Reg.GFM_GROUP, reset := 0x100FA, rw := 0x1F0FFF },
  { base := Reg.GFM_CFG 0, dims := [(2, 0x200)], reset := 0xC00514, rw := 0xF1C0FFFF },
  { base := Reg.GFM_RATING 0, dims := [(2, 0x200)], rw := 0xFFFFFFFF },
  { base := Reg.GFM_SCALE 0, dims := [(2, 0x200)], rw := 0xFFFFFFFF },
  { base := Reg.GFM_DROOP 0, dims := [(2, 0x200)], reset := 0xC84B12C, rw := 0x3FFFFFFF },
  { base := Reg.GFM_SET 0, dims := [(2, 0x200)], rw := 0xFFFFFFFF },
  { base := Reg.GFM_VSET 0, dims := [(2, 0x200)], reset := 0x1000, rw := 0xFFFF },
  { base := Reg.GFM_VIRT 0 0, dims := [(2, 0x200), (3, 4)], reset := 0x1F40000, rw := 0xFFFFFFFF },
  { base := Reg.GFM_LIMIT 0, dims := [(2, 0x200)], reset := 0xC80064, rw := 0x3FF03FF },
  { base := Reg.GFM_LIMIT_T 0, dims := [(2, 0x200)], reset := 0xA01F4, rw := 0xFF0FFF },
  { base := Reg.GFM_RECOV 0, dims := [(2, 0x200)], reset := 0xC80D9A, rw := 0xFFFFFFFF },
  { base := Reg.GFM_BS 0, dims := [(2, 0x200)], reset := 0x1F4019A, rw := 0xFFFFFFFF },
  { base := Reg.GFM_LIVE 0, dims := [(2, 0x200)], reset := 0xD9A0A14, rw := 0xFFFFFFFF },
  { base := Reg.GFM_SYNC 0, dims := [(2, 0x200)], reset := 0x320A3228, rw := 0xFFFFFFFF },
  { base := Reg.GFM_SYNC_T 0, dims := [(2, 0x200)], reset := 0x64, rw := 0xFFFF },
  { base := Reg.GFM_CONT 0, dims := [(2, 0x200)], reset := 0x3C280000, rw := 0xFFFF0000, rwl := 0x8F0F },
  { base := Reg.GFM_RT 0, dims := [(2, 0x200)], reset := 0xC8, rw := 0xFFFF0FFF },
  { base := Reg.GFM_REST 0, dims := [(2, 0x200)], reset := 0x1F40A00, rw := 0xFFFFFF00 },
  { base := Reg.GFM_CMD 0, dims := [(2, 0x200)] },
  { base := Reg.GFM_STATE 0, dims := [(2, 0x200)] },
  { base := Reg.GFM_MEAS 0, dims := [(2, 0x200)] },
  { base := Reg.GFM_FREQ 0, dims := [(2, 0x200)] },
  { base := Reg.GFM_ONSET 0, dims := [(2, 0x200)], wide := true },
  { base := Reg.GFM_SLOT 0, dims := [(2, 0x200)], wide := true }]
/-- The registers of the GFM block, part 2. -/
def regsGFMPart2 : List RegSpec := [
  { base := Reg.GFM_TMODE 0, dims := [(2, 0x200)], reset := 0x2 },
  { base := Reg.GFM_VF_CFG, reset := 0x13880032, rw := 0xFFFFFFFF },
  { base := Reg.GFM_VF_VHZ, reset := 0xCD1388, rw := 0xFFFFFFFF },
  { base := Reg.GFM_VF_STATE }]
/-- The registers of the GFM block (spec/08_grid_forming.md). -/
def regsGFM : List RegSpec := regsGFMPart1 ++ regsGFMPart2

/-- The registers of the PROT block, part 1. -/
def regsPROTPart1 : List RegSpec := [
  { base := Reg.PROT_STATUS, w1c := 0x1FF0000 },
  { base := Reg.PROT_BUS_CFG, rw := 0xFFFFFFFF },
  { base := Reg.PROT_FREQ, reset := 0xC350 },
  { base := Reg.PROT_BUS_MEAS },
  { base := Reg.PROT_LMD_CFG, reset := 0x200, rw := 0x703 },
  { base := Reg.PROT_LMD_STATE },
  { base := Reg.PROT_LMD_ONSET, wide := true },
  { base := Reg.PROT_BLOCK, rw := 0x3FF },
  { base := Reg.PROT_32 0, dims := [(2, 8)], reset := 0x3200CD, rw := 0xCFFFFFFF },
  { base := Reg.PROT_32_MAP 0, dims := [(2, 8)], rw := 0xF0FFFFF },
  { base := Reg.PROT_UCURVE 0 0, dims := [(4, 0x40), (16, 4)], rw := 0xFFFFFFFF },
  { base := Reg.PROT_FDR_CFG 0, dims := [(8, 0x100)], rw := 0x8000FFFF, rwl := 0x40000000 },
  { base := Reg.PROT_FDR_SCALE 0, dims := [(8, 0x100)], rw := 0xFFFFFFFF },
  { base := Reg.PROT_FDR_STATE 0, dims := [(8, 0x100)] },
  { base := Reg.PROT_FDR_FLAGS 0, dims := [(8, 0x100)], w1c := 0xFFFF0000 },
  { base := Reg.PROT_BKR_CFG 0, dims := [(8, 0x100)], reset := 0xA, rw := 0xFFFF, rwl := 0xCFF00000 },
  { base := Reg.PROT_TRIP_MAP 0, dims := [(8, 0x100)], reset := 0x64000000, rw := 0xFF000000, rwl := 0xFFFFF },
  { base := Reg.PROT_BF_CFG 0, dims := [(8, 0x100)], reset := 0x41E0000A, rw := 0xFFFFFFFF },
  { base := Reg.PROT_BF_MAP 0, dims := [(8, 0x100)], rwl := 0xFFFFFFF },
  { base := Reg.PROT_TC_CFG 0, dims := [(8, 0x100)], reset := 0xC8, rw := 0xB000FFFF },
  { base := Reg.PROT_DIR 0, dims := [(8, 0x100)], reset := 0x1ED3000A, rw := 0xFFFF80FF },
  { base := Reg.PROT_LMD 0, dims := [(8, 0x100)], reset := 0x32, rw := 0x8F00FFFF },
  { base := Reg.PROT_LMD_REACH 0, dims := [(8, 0x100)], reset := 0x320064, rw := 0xFFFFFFFF },
  { base := Reg.PROT_THERM 0, dims := [(8, 0x100)], reset := 0x5A1E0069, rw := 0xFFFFFFFF },
  { base := Reg.PROT_THERM_STATE 0, dims := [(8, 0x100)] }]
/-- The registers of the PROT block, part 2. -/
def regsPROTPart2 : List RegSpec := [
  { base := Reg.PROT_OC 0 0, dims := [(8, 0x100), (7, 8)], reset := 0x300064, rw := 0xFFF0FFFF },
  { base := Reg.PROT_OC_T 0 0, dims := [(8, 0x100), (7, 8)], reset := 0xA03E8, rw := 0xFFFFFFFF },
  { base := Reg.PROT_VF 0 0, dims := [(8, 0x100), (4, 4)], rw := 0xFFFFFFFF },
  { base := Reg.PROT_MEAS 0 0, dims := [(8, 0x100), (4, 4)] },
  { base := Reg.PROT_TRIP_TIME 0, dims := [(8, 0x100)], wide := true },
  { base := Reg.PROT_FDR_COUNT 0, dims := [(8, 0x100)], rw := 0xFFFFFFFF }]
/-- The registers of the PROT block (spec/09_feeder_protection.md). -/
def regsPROT : List RegSpec := regsPROTPart1 ++ regsPROTPart2

/-- The registers of the REC block (spec/10_disturbance_recorder.md). -/
def regsREC : List RegSpec := [
  { base := Reg.REC_STATUS, w1c := 0xF000 },
  { base := Reg.REC_CTRL },
  { base := Reg.REC_CFG, reset := 0x10000, rw := 0xFFFF0019 },
  { base := Reg.REC_PERIOD, reset := 0x4E20, rw := 0xFFFFFFFF },
  { base := Reg.REC_PRE, reset := 0xFA0, rw := 0xFFFFFFFF },
  { base := Reg.REC_POST, reset := 0x4E20, rw := 0xFFFFFFFF },
  { base := Reg.REC_TRIG_SRC, reset := 0x1, rw := 0xFF0007FF },
  { base := Reg.REC_TRIG_FDR, reset := 0xFF000000, rw := 0xFFFFFFFF },
  { base := Reg.REC_FILL },
  { base := Reg.REC_CAP },
  { base := Reg.REC_STORE },
  { base := Reg.REC_LAST_NO },
  { base := Reg.REC_TRIG_TIME, wide := true },
  { base := Reg.REC_STOP_TIME, wide := true },
  { base := Reg.REC_ACH 0, dims := [(64, 4)], rw := 0x8000033F },
  { base := Reg.REC_BCH 0, dims := [(256, 4)], rw := 0xE000FFFF },
  { base := Reg.REC_LEVEL 0, dims := [(8, 8)], reset := 0x10000, rw := 0xFFFFFFFF },
  { base := Reg.REC_LEVEL_THR 0, dims := [(8, 8)], rw := 0xFFFF },
  { base := Reg.REC_MASK_CFG 0, dims := [(4, 0x100)], reset := 0x100, rw := 0xFF3FFF00 },
  { base := Reg.REC_MASK_POST 0, dims := [(4, 0x100)], rw := 0xFFFFFFFF },
  { base := Reg.REC_MASK_LIM 0 0, dims := [(4, 0x100), (16, 4)], reset := 0x7FFF8000, rw := 0xFFFFFFFF },
  { base := Reg.REC_MASK_T 0 0, dims := [(4, 0x100), (16, 4)], rw := 0xFFFFFFFF }]

/-- The registers of the SCAN block (spec/11_scan_engine.md). -/
def regsSCAN : List RegSpec := [
  { base := Reg.SCAN_STATUS, w1c := 0x3000000 },
  { base := Reg.SCAN_FORCE_STATUS },
  { base := Reg.SCAN_CTRL 0, dims := [(2, 0x100)], rw := 0x710 },
  { base := Reg.SCAN_STATE 0, dims := [(2, 0x100)], w1c := 0xFF00 },
  { base := Reg.SCAN_CFG 0, dims := [(2, 0x100)], rw := 0x3 },
  { base := Reg.SCAN_PROG_ID 0, dims := [(2, 0x100)] },
  { base := Reg.SCAN_PROG_INFO 0, dims := [(2, 0x100)] },
  { base := Reg.SCAN_XCHG 0, dims := [(2, 0x100)] },
  { base := Reg.SCAN_SWAP_TIME 0, dims := [(2, 0x100)], wide := true },
  { base := Reg.SCAN_REMOTE_STALE 0, dims := [(2, 0x100)] },
  { base := Reg.SCAN_TASK_CFG 0 0, dims := [(2, 0x100), (8, 8)] },
  { base := Reg.SCAN_TASK_STAT 0 0, dims := [(2, 0x100), (8, 8)] },
  { base := Reg.SCAN_TASK_TIME 0 0, dims := [(2, 0x100), (8, 4)] }]

/-- The registers of the FIO block (spec/12_field_io.md). -/
def regsFIO : List RegSpec := [
  { base := Reg.FIO_STATUS, w1c := 0x1020000 },
  { base := Reg.FIO_VFIELD },
  { base := Reg.FIO_VTRIP },
  { base := Reg.FIO_SAFE_CFG, reset := 0xA, rw := 0x3FF },
  { base := Reg.FIO_LINK_STAT },
  { base := Reg.FIO_GRP_CFG, rw := 0x3 },
  { base := Reg.FIO_GRP_CTRL, rw := 0x3 },
  { base := Reg.FIO_GRP_STATE, w1c := 0x3 },
  { base := Reg.FIO_DI_CFG 0, dims := [(16, 4)], reset := 0xA, rw := 0x800001FF },
  { base := Reg.FIO_DI_STATE },
  { base := Reg.FIO_DO_CFG 0, dims := [(16, 4)], rw := 0x37 },
  { base := Reg.FIO_DO_STATE },
  { base := Reg.FIO_DO_FAULT, w1c := 0xFFFF },
  { base := Reg.FIO_DO_DIAG, w1c := 0xFFFF },
  { base := Reg.FIO_DEMAG 0, dims := [(2, 4)] },
  { base := Reg.FIO_TRIP_CFG 0, dims := [(4, 4)], reset := 0x1, rw := 0x3 },
  { base := Reg.FIO_TRIP_STATE, w1c := 0xFF0000 }]

/-- The registers of the DPX block (spec/13_duplex_guyline.md). -/
def regsDPX : List RegSpec := [
  { base := Reg.DPX_STATUS, w1c := 0x1F0000 },
  { base := Reg.DPX_CFG, reset := 0x4064003C, rw := 0x3FF00FF, rwl := 0xC0000000 },
  { base := Reg.DPX_EPOCH },
  { base := Reg.DPX_PARTNER, reset := 0xFFFF },
  { base := Reg.DPX_CMD },
  { base := Reg.DPX_ECN_CFG, reset := 0x88B50007, rw := 0xFFFF0007 },
  { base := Reg.DPX_PARTNER_EPOCH },
  { base := Reg.DPX_PATH_STAT 0, dims := [(2, 4)] },
  { base := Reg.DPX_DIGEST },
  { base := Reg.DPX_DIGEST_PARTNER },
  { base := Reg.DPX_LAST },
  { base := Reg.DPX_PARTNER_MAC, wide := true, hiRW := true, rw := 0xFFFFFFFFFFFF },
  { base := Reg.DPX_TAKEOVER_TIME, wide := true },
  { base := Reg.DPX_SWITCH_TIME, wide := true }]

/-- The registers of the NET block (spec/14_networks.md). -/
def regsNET : List RegSpec := [
  { base := Reg.NET_STATUS, w1c := 0x1000000 },
  { base := Reg.NET_BUS_STATE },
  { base := Reg.NET_FI_STATUS, w1c := 0x1000000 },
  { base := Reg.NET_FI_CFG 0, dims := [(10, 0x20)], reset := 0x10001, rw := 0x1FFFFFFF },
  { base := Reg.NET_FI_PARAM 0, dims := [(10, 0x20)], reset := 0x20000, rw := 0xFFFFFFFF },
  { base := Reg.NET_FI_MATCH 0, dims := [(10, 0x20)], rw := 0xFFFFFFFF },
  { base := Reg.NET_FI_DONE 0, dims := [(10, 0x20)] },
  { base := Reg.NET_FI_START 0, dims := [(10, 0x20)], wide := true, hiRW := true, rw := 0xFFFFFFFFFFFFFFFF }]

/-- The registers of the CMD block (spec/15_host_commands.md). -/
def regsCMD : List RegSpec := [
  { base := Reg.CMD_STATUS, w1c := 0x10004 },
  { base := Reg.CMD_DOORBELL },
  { base := Reg.CMD_RSP_LEN },
  { base := Reg.CMD_IRQ, w1c := 0x7 },
  { base := Reg.CMD_IRQ_EN, reset := 0x3, rw := 0x7 },
  { base := Reg.CMD_CTRL },
  { base := Reg.CMD_EVT_COUNT, wide := true },
  { base := Reg.CMD_EVT_SEL, rw := 0xFFFFFFFF },
  { base := Reg.CMD_EVT_ENTRY 0, dims := [(4, 4)] },
  { base := Reg.CMD_EVT_LOST },
  { base := Reg.CMD_OP_HANDLE 0, dims := [(16, 8)] },
  { base := Reg.CMD_OP_STATE 0, dims := [(16, 8)], reset := 0x7 }]

/-- The registers of the UPD block (spec/16_update_recovery.md). -/
def regsUPD : List RegSpec := [
  { base := Reg.UPD_STATUS },
  { base := Reg.UPD_KIND_STATE 1, dims := [(4, 8)] },
  { base := Reg.UPD_KIND_STAGED 1, dims := [(4, 8)] },
  { base := Reg.UPD_TRIAL_CFG, reset := 0x258, rw := 0xFFFF },
  { base := Reg.UPD_TRIAL_LEFT },
  { base := Reg.UPD_DL },
  { base := Reg.UPD_SETTINGS },
  { base := Reg.UPD_NONCE, wide := true },
  { base := Reg.UPD_SERVICE_END, wide := true }]

/-- The registers of the FABRIC block (spec/02_pitch_image.md). -/
def regsFABRIC : List RegSpec := [
  { base := Reg.FAB_STATUS 0, dims := [(4, 0x10000)], reset := 0x1000 },
  { base := Reg.FAB_TILE 0 0, dims := [(4, 0x10000), (16, 4)], reset := 0xFF00F0 },
  { base := Reg.FAB_TILE 0 16, dims := [(4, 0x10000)], reset := 0xFF02F0 },
  { base := Reg.FAB_SHADOW_CTRL 0, dims := [(4, 0x10000)], reset := 0x10000, rw := 0x1001F },
  { base := Reg.FAB_SHADOW_STATUS 0, dims := [(4, 0x10000)], w1c := 0x2 },
  { base := Reg.FAB_IND_ADDR 0, dims := [(4, 0x10000)], rw := 0x7F03FFC },
  { base := Reg.FAB_IND_DATA 0, dims := [(4, 0x10000)], rw := 0xFFFFFFFF },
  { base := Reg.FAB_IND_CTRL 0, dims := [(4, 0x10000)], rw := 0x2, w1c := 0x8 },
  { base := Reg.FAB_IMAGE_ID },
  { base := Reg.FAB_PERMIT },
  { base := Reg.FAB_FRAME_COUNT, wide := true }]

/-- The registers of the PWM block (spec/07_loop_engine.md). -/
def regsPWM : List RegSpec := [
  { base := Reg.PWM_STATUS, w1c := 0x30 },
  { base := Reg.PWM_GATE_CTRL, reset := 0x1, rw := 0x1 },
  { base := Reg.PWM_BLOCK_STATUS },
  { base := Reg.PWM_GDF_CFG, rw := 0x3F3F3F },
  { base := Reg.PWM_GDF_STATUS, w1c := 0x3F00 },
  { base := Reg.PWM_GDF_MAP 0, dims := [(6, 4)], reset := 0xF, rwl := 0xF },
  { base := Reg.PWM_PAIR_CFG 0, dims := [(12, 0x20)], reset := 0x1000, rw := 0x3000, rwl := 0xF0703 },
  { base := Reg.PWM_PAIR_PERIOD 0, dims := [(12, 0x20)], reset := 0xC350, rwl := 0xFFFFF },
  { base := Reg.PWM_PAIR_PHASE 0, dims := [(12, 0x20)], rwl := 0xFFFFF },
  { base := Reg.PWM_PAIR_DEAD 0, dims := [(12, 0x20)], reset := 0x1900000, rwl := 0x1FFF1FFF },
  { base := Reg.PWM_PAIR_CMP 0, dims := [(12, 0x20)] },
  { base := Reg.PWM_PAIR_STAT 0, dims := [(12, 0x20)] }]

/-- The table of the 64 KiB window an address lies in (Table 1.8, R45); the four FABRIC windows share one table. -/
def blockRegs (a : Nat) : List RegSpec :=
  match a / 0x10000 with
  | 0x4000 => regsSYS
  | 0x4001 => regsPWR
  | 0x4002 => regsCLK
  | 0x4003 => regsTIME
  | 0x4004 => regsADC
  | 0x4005 => regsFILT
  | 0x4006 => regsCTRL
  | 0x4007 => regsGFM
  | 0x4008 => regsPROT
  | 0x4009 => regsREC
  | 0x400A => regsSCAN
  | 0x400B => regsFIO
  | 0x400C => regsDPX
  | 0x400D => regsNET
  | 0x400E => regsCMD
  | 0x400F => regsUPD
  | 0x4010 => regsFABRIC
  | 0x4011 => regsFABRIC
  | 0x4012 => regsFABRIC
  | 0x4013 => regsFABRIC
  | 0x4014 => regsPWM
  | _ => []

/-- The part of an offset that is left after the indices of `dims` are taken out, if each index is in range. -/
def dimsRest : List (Nat × Nat) → Nat → Option Nat
  | [], off => some off
  | (n, st) :: ds, off => if off / st < n then dimsRest ds (off % st) else none

/-- Does the family hold a word at this address? -/
def RegSpec.covers (r : RegSpec) (a : Nat) : Bool :=
  r.base ≤ a &&
    (match dimsRest r.dims (a - r.base) with
     | some 0 => true
     | some 4 => r.wide
     | _ => false)

/-- Is this address the high word of a wide register of the family? -/
def RegSpec.isHigh (r : RegSpec) (a : Nat) : Bool := dimsRest r.dims (a - r.base) == some 4

/-- The register family that has a word at this address, if any (R44: none means the offset is undefined). -/
def findReg (a : Nat) : Option RegSpec := (blockRegs a).find? (·.covers a)

/-- The half of a 64-bit mask or reset value that belongs to this address. -/
def RegSpec.half (r : RegSpec) (a v : Nat) : Word :=
  if r.isHigh a then BitVec.ofNat 32 (v / 0x100000000) else BitVec.ofNat 32 v

/-- The reset word of an address: the heading's value, and 0 where no register is defined (R44). -/
def resetWord (a : Nat) : Word :=
  match findReg a with
  | some r => r.half a r.reset
  | none => 0

/-- FAB_IMAGE_ID, FAB_PERMIT and FAB_FRAME_COUNT are common to the four FABRIC windows (R76): one home. -/
def canonReg (a : Nat) : Nat :=
  if 0x40110000 ≤ a ∧ a < 0x40140000 ∧ 0x400 ≤ a % 0x10000 ∧ a % 0x10000 < 0x410 then 0x40100000 + a % 0x10000 else a

end Sys2Proof.Machine
end

