-- ==== Sys2Proof/Machine/State.lean ====
section
/-! DEFINITION. The state of the part as plain data: the registers of the address map in one sparse store, memory, the
queue of waiting commands, and, block by block, what the registers do not hold. -/

namespace Sys2Proof.Machine

open Sys2Proof

/-- Why the machine stops with a fault. No command of this block stops: a denied access is a reply (R43), an error is a
flag or an event. The type has one constructor, which nothing raises. -/
inductive Fault where
  /-- Raised by nothing; safe. -/
  | unreachable
  deriving DecidableEq, Repr

/-- Why a command is refused. -/
inductive Refusal where
  /-- Raised by the dispatcher for a command that has no meaning in this model yet; safe. -/
  | notModelled (mnemonic : String)
  deriving DecidableEq, Repr

/-! ### Words on RIDGE, the snapshot buffers, the bus reply, events -/

/-- A word on RIDGE with its sideband (R25). -/
structure RidgeWord where
  data : Word := 0
  valid : Bool := false
  unsettled : Bool := false
  holdover : Bool := false
  fault : Bool := false
  deriving DecidableEq, Repr

/-- What a master's snapshot buffer holds (R49, R51): a snapshot of a read register, or a held low-word write. -/
inductive Snap where
  | empty
  | read (addr : Nat) (value : BitVec 64)
  | held (addr : Nat) (low : Word)
  deriving DecidableEq, Repr

/-- What the last bus access of a master answered (R10, R43). The model's own latch: the spec gives the reply, not a
place for it. -/
inductive BusReply where
  | none
  | done
  | data (w : Word)
  | wide (v : BitVec 64)
  | error
  deriving DecidableEq, Repr

/-- One entry of the event log (R420): TAI in ns, code, source, argument. -/
structure Event where
  tai : BitVec 64
  code : BitVec 16
  src : BitVec 16
  arg : Word
  deriving DecidableEq, Repr

/-- The event log: the logger's queue, the entries EMBER retains (oldest first), the next index, and the number of
events dropped and not yet logged (R420). -/
structure LogState where
  queue : List Event := []
  entries : List Event := []
  next : BitVec 64 := 0
  dropped : Nat := 0
  deriving DecidableEq, Repr

/-! ### The fabric (chapters 01 and 02) -/

/-- How far a pending structure change has come (R66). -/
inductive ChangePhase where
  | contextsWritten
  | mirror
  deriving DecidableEq, Repr

/-- The pending structure change; there is at most one (R69). -/
structure StructChange where
  image : PitchImage
  /-- The kinds whose activation this change carries out, for the journal (R432). -/
  opSlot : Option (Fin 16) := none
  phase : ChangePhase := .contextsWritten
  /-- A revert of a group image: the structure it returns to (R434, R436). -/
  restore : Option PitchImage := none
  deriving DecidableEq, Repr

/-- A session of the shadow check (R70): the index it visits, its frame (1 self-test, 2 preparation, 3 compare), the
outcome of its frames, and the word of FAB_TILE its index showed when it began, but for the context bit. -/
structure ShadowSession where
  idx : Fin 17
  phase : Nat := 1
  out : ShadowOutcome
  tile : Word
  deriving DecidableEq, Repr

/-- What a cluster holds beyond its registers: the slot of the rotation to come, the session that starts at the next
boundary and the one under way (R70), and the relocation waiting for the next boundary (R71). -/
structure ClusterState where
  rotation : Nat := 0
  due : Option (Fin 17 × ShadowOutcome) := none
  session : Option ShadowSession := none
  relocate : Option (Fin 17) := none
  deriving DecidableEq, Repr

/-- An indirect access in flight (R47), as it was issued: tile, space (0 data, 1 and 2 the two contexts), word, and the
data of a write. -/
structure IndAccess where
  tile : Fin 17
  space : Fin 3
  word : Nat
  data : Option Word
  deriving DecidableEq, Repr

/-- The fabric beyond its registers. -/
structure FabState where
  change : Option StructChange := none
  clusters : Vector ClusterState 4 := Vector.replicate 4 {}
  /-- The image whose structure runs, with every group image applied since (R54). -/
  running : Option PitchImage := none
  /-- Retired tiles by cluster: the fabric repair record in MRAM (R73). -/
  repair : List (Fin 4 × Fin 17) := []
  /-- The last word each tile received on each route (R29): (cluster × 32 + index, route, word). -/
  inbox : List (Nat × Nat × RidgeWord) := []
  /-- The last word that the SAR core of each cluster's segment has put on it: ADC_A on that of cluster 0 to ADC_D on that of
  cluster 3 (R28). -/
  ingress : Vector RidgeWord 4 := Vector.replicate 4 {}
  /-- Tile memories, keyed by `tileKey`, in canonical form with 0 unlisted. -/
  tileMem : List (Nat × Word) := []
  /-- Addresses of the registers whose RWL fields the image's sections with LOCK have set (R57, R64). -/
  locked : List Nat := []
  /-- Has PINMUX been applied since reset (R451, R63)? -/
  pinmuxApplied : Bool := false
  /-- The indirect access in flight of each cluster (R47). -/
  ind : Vector (Option IndAccess) 4 := Vector.replicate 4 none
  deriving DecidableEq, Repr

/-! ### Supply, reset, sleep (chapter 03) -/

/-- Where the part stands between off and ready (R79, R80, R86, R91 to R96). -/
inductive PowerPhase where
  /-- Held in reset; the next start is made by COLD_START or WARM_START. -/
  | held
  | running
  | asleep
  | kindling
  | unusable
  deriving DecidableEq, Repr

/-- One sensor rail (or the ±15 V pair) of R81. -/
structure RailState where
  isOn : Bool := false
  retries : Nat := 0
  waiting : Bool := false
  /-- Local instants at which it was last turned on and off. -/
  onAt : Nat := 0
  offAt : Nat := 0
  deriving DecidableEq, Repr

/-- The seal LANTERN keeps through SLEEP (R94, R96). -/
structure SleepSeal where
  slot : Fin 2
  buildId : Word
  deriving DecidableEq, Repr

/-- Power and LANTERN beyond their registers. -/
structure PwrState where
  phase : PowerPhase := .held
  /-- Does LANTERN hold its state (R468)? -/
  lantern : Bool := false
  /-- The reset that holds the part: the start kind it asks for, 0 cold, 1 warm (Table 3.4). -/
  askWarm : Bool := false
  sleepSeal : Option SleepSeal := none
  /-- The pitch image last loaded (R88). -/
  loaded : Option SleepSeal := none
  rail15 : RailState := {}
  rail5 : RailState := {}
  /-- FAULT_N is driven low (R89). -/
  faultLow : Bool := true
  /-- The part is unusable or a fatal fault has not yet been cleared by a start (R89). -/
  fatal : Bool := false
  /-- Local instant at which PWR_RTC was last loaded or written (R97). -/
  rtcAt : Nat := 0
  /-- Local instant of t0 of the last start. -/
  t0 : Nat := 0
  /-- Local instant of the last START_COMPLETE (argument of POWER_FAIL, R98). -/
  startedAt : Nat := 0
  /-- Local instant at which SLEEP entry began, while the scan cores still end their cycles (R94). -/
  sleepFrom : Option Nat := none
  deriving DecidableEq, Repr

/-! ### Clocks and time (chapter 04) -/

/-- The servo (R122, R123). Offsets are in quarter nanoseconds, rates in 1/32,768 ppb, predictions and candidates in
1/65,536,000 ns: in these units every sum of the procedure is exact. -/
structure ServoState where
  i : Int := 0
  y : Int := 0
  /-- The correction's history, newest first: (ticks of local time, value), for the frozen word of R109. -/
  hist : List (Nat × Int) := [(0, 0)]
  pred : Int := 0
  cand : Option Int := none
  candCount : Nat := 0
  inWin : Nat := 0
  outWin : Nat := 0
  /-- No measurement of the present source has been accepted yet: pred is 0 (R123). -/
  fresh : Bool := true
  deriving DecidableEq, Repr

/-- The last measurement of a source (R112, R114): local instant in ns, offset in quarter ns, interval in 0.5 ms. -/
structure SourceMark where
  at' : Nat
  th4 : Int
  ts : Nat
  deriving DecidableEq, Repr

/-- Clocks and time beyond their registers. -/
structure TimeState where
  servo : ServoState := {}
  /-- Local instant at which each PLL began to coast (argument of PLL_RELOCKED). -/
  coastFrom : Vector Nat 5 := Vector.replicate 5 0
  /-- The local instant since which each reference, MEMS and external, is lost (R108, R110), and whether the external one
  gives no edges. -/
  lostMems : Option Nat := none
  lostExt : Option Nat := none
  extAbsent : Bool := false
  /-- Is source n (code of TIME_STATE.source, 1 to 4) valid, and its last measurement (R112)? -/
  valid : Vector Bool 5 := Vector.replicate 5 false
  marks : Vector (Option SourceMark) 5 := Vector.replicate 5 none
  /-- The best Announce of each port (R113, R114), and its mean path or link delay in 1/65,536 ns. -/
  best : Vector (Option Announce) 2 := Vector.replicate 2 none
  pathDelay : Vector Int 2 := Vector.replicate 2 0
  /-- The correctionField of the last Sync forwarded as a transparent clock, by egress port, in 1/65,536 ns (R114). -/
  forwarded : Vector (Option Int) 2 := Vector.replicate 2 none
  /-- The tick of local time at which PPS_OUT last rose; the pulse lasts TIME_PPS.width (R117). -/
  ppsRise : Option Nat := none
  /-- MCLK codes in force; CLK_MCLK_DIV holds the codes written (R105). -/
  mclk : Vector (Fin 16) 6 := Vector.replicate 6 1
  /-- The millisecond of the last frame boundary (R31, R32), if one has been taken since reset. -/
  lastBoundary : Option Nat := none
  deriving DecidableEq, Repr

/-! ### Analogue inputs and SAR cores (chapter 05) -/

/-- A SAR core's sequencer beyond its registers (R142 to R146). -/
structure AdcCore where
  /-- The live table and its last entry; the registers are the shadow. -/
  live : List Word := List.replicate 64 0
  liveLast : Nat := 0
  /-- Sample instant of the previous conversion, in quarter ns, and its channel and gain unless the core has left IDLE
  since. -/
  prevAt : Option Nat := none
  prevCh : Option (Nat × Nat) := none
  /-- Conversions already made in the entry. -/
  rep : Nat := 0
  /-- The entry awaits a start event. -/
  waiting : Bool := false
  /-- The instant, in quarter ns, at which the start event taken by the entry, or the held one, becomes effective. -/
  start : Option Nat := none
  held : Option Nat := none
  /-- Local tick of the last start event that reached the core. -/
  eventTick : Option Nat := none
  missedNew : Nat := 0
  missedLogged : Option Nat := none
  /-- The last sample word delivered to RIDGE (R165). -/
  out : RidgeWord := {}
  deriving DecidableEq, Repr

/-- A modulator input beyond its registers (R151, R152): enable and delay in force, and the stuck run. -/
structure ModInput where
  en : Bool := false
  delay : Nat := 0
  /-- Local instant at which the stuck run began, once it has been flagged. -/
  stuckFrom : Option Nat := none
  deriving DecidableEq, Repr

/-- Analogue acquisition beyond its registers. -/
structure AdcState where
  cores : Vector AdcCore 4 := Vector.replicate 4 {}
  mods : Vector ModInput 24 := Vector.replicate 24 {}
  /-- Band comparator outputs, upper and lower, of each input (R134). -/
  bandUp : Vector Bool 16 := Vector.replicate 16 false
  bandLow : Vector Bool 16 := Vector.replicate 16 false
  /-- The calibration record in MRAM of each core, where it is intact (R148). -/
  calRecord : Vector (Option CalSet) 4 := Vector.replicate 4 none
  deriving DecidableEq, Repr

/-! ### Filter chains (chapter 06) -/

/-- A filter chain beyond its registers (R155 to R172). -/
structure ChainState where
  /-- sinc3 integrators and combs; all registers wrap modulo 2^32 (R155). -/
  i1 : Word := 0
  i2 : Word := 0
  i3 : Word := 0
  z1 : Word := 0
  z2 : Word := 0
  z3 : Word := 0
  /-- sinc2 integrators and combs of the fast stream (R162). -/
  j1 : Word := 0
  j2 : Word := 0
  y1 : Word := 0
  y2 : Word := 0
  osrPhase : Nat := 0
  firPhase : Nat := 0
  fastPhase : Nat := 0
  /-- FIR delay line, newest first, in 1/2^24 (R155). -/
  line : List Int := List.replicate 32 0
  /-- The last seven main outputs before the median, newest first, in 1/2^48. -/
  med : List Int := List.replicate 7 0
  /-- The DC estimate, 40 bits, in 1/2^39 (R160). -/
  m : Int := 0
  /-- Anchors of the main and the fast windows in quarter ns, and bits since. -/
  anchor : Nat := 0
  bits : Nat := 0
  fastAnchor : Nat := 0
  fastBits : Nat := 0
  /-- Fast outputs still to be marked UNSETTLED. -/
  fastLeft : Nat := 0
  /-- A restart awaits its anchor boundary, with its cause (Table 6.6). -/
  restart : Option Nat := none
  fastRestart : Bool := false
  /-- Outputs completed since the last service (R163), and the words last driven with VALID. -/
  mainNew : Option RidgeWord := none
  fastNew : Option RidgeWord := none
  mainWord : RidgeWord := {}
  fastWord : RidgeWord := {}
  deriving DecidableEq, Repr

/-- Filter chains beyond their registers. -/
structure FiltState where
  chains : Vector ChainState 24 := Vector.replicate 24 {}
  /-- Milliseconds the counter has been moved by since the last frame boundary (R168). -/
  stepMs : Int := 0
  deriving DecidableEq, Repr

/-! ### Stages, profile generators and gates (chapter 07) -/

/-- One axis of the region map in force (R188). -/
structure AxisMap where
  sel : Nat := 0
  b0 : Int := 0
  b1 : Int := 0
  b2 : Int := 0
  hys : Int := 0
  deriving DecidableEq, Repr

/-- A stage beyond its registers. -/
structure StageState where
  /-- Last usable value of each input word, the consecutive samples it has replaced one (R182), and the value in use: that, or
  the model's estimate (R209). -/
  last : Vector Int 16 := Vector.replicate 16 0
  repl : Vector Nat 16 := Vector.replicate 16 0
  used : Vector Int 16 := Vector.replicate 16 0
  axes : Vector AxisMap 2 := Vector.replicate 2 {}
  mapWritten : Bool := false
  band : Vector Nat 2 := Vector.replicate 2 0
  /-- The coefficient set in force, copied at the sample instant (R189). -/
  coef : Vector Word 32 := Vector.replicate 32 0
  notch : Vector NotchState 4 := Vector.replicate 4 {}
  startReq : Bool := false
  stopReq : Bool := false
  /-- A change of inner control requested, and one taken at a sample and awaiting its output instant (R207). -/
  innerReq : Option Nat := none
  innerNext : Option Nat := none
  /-- Outputs of the controllers in the last sample, Q15. -/
  out : Vector Int 4 := Vector.replicate 4 0
  /-- Residuals being blended out (R204), in Q15 units, and the generator used. -/
  residual : Vector Rat 2 := Vector.replicate 2 0
  blend : Option (Fin 16) := none
  published : Phasor := {}
  awaiting : Option Phasor := none
  /-- Square of the magnitude of the reference before the limiter in the last sample (R232), its magnitude as limited
  (Table 7.2), and the local tick of that sample. -/
  preSq : Nat := 0
  limMag : Int := 0
  sampleTick : Option Nat := none
  /-- Modulating signals of the phases, Q15, awaiting the output instant. -/
  mods : Vector Int 3 := Vector.replicate 3 0
  /-- Output instant in force, in fabric cycles (R202). -/
  outPhase : Nat := 1200
  /-- Block causes since the last release: block source codes, hard comparators, GDF inputs, plausibility checks (R212). -/
  whyCode : Nat := 0
  whyHard : Nat := 0
  whyGdf : Nat := 0
  whyPlaus : Nat := 0
  /-- A block was released before the sample that would have taken the stage to BLOCKED: OFF at its next sample (R212). -/
  freed : Bool := false
  /-- The gate-block line of a PROTECT tile and that of the MODEL tile stand active on this stage. -/
  lineProt : Bool := false
  linePlaus : Bool := false
  /-- Plausibility (R208, R209): consecutive violations, samples below threshold, samples of substitution, substituted
  input. -/
  plCount : Vector Nat 5 := Vector.replicate 5 0
  plBelow : Vector Nat 5 := Vector.replicate 5 0
  plSubst : Vector Nat 5 := Vector.replicate 5 0
  plInput : Vector (Option (Fin 16)) 5 := Vector.replicate 5 none
  /-- The HYST stage switches on band decisions, or on its carrier until the first valley (R207). -/
  hystOn : Bool := false
  deriving DecidableEq, Repr

/-- A PWM channel pair beyond its registers (R196 to R201, R470). -/
structure PairState where
  high : Bool := false
  low : Bool := false
  /-- The side waiting for the dead time: true for the high side. -/
  pendingOn : Option Bool := none
  deferred : Option Bool := none
  /-- Local ticks of the last turn-off and of the last decision. -/
  offAt : Option Nat := none
  decidedAt : Option Nat := none
  running : Bool := false
  /-- Local ticks of the last valley and of the last peak of the carrier (R199). -/
  valleyTick : Option Nat := none
  peakTick : Option Nat := none
  /-- Armed carrier-start triggers the pair waits for (R470). -/
  hold : List (Fin 8) := []
  shadow : Option Nat := none
  /-- Latest usable voltages of the band law (R195, R198). -/
  vdc : Int := 0
  vin : Int := 0
  /-- Local tick of the last band update (R194). -/
  bandTick : Option Nat := none
  count : Nat := 0
  deriving DecidableEq, Repr

/-- Loop engine and gates beyond their registers. -/
structure LoopState where
  stages : Vector StageState 4 := Vector.replicate 4 {}
  prof : Vector ProfState 16 := Vector.replicate 16 {}
  /-- Local ticks of the generators' last periods (R191). -/
  profTick : Vector (Option Nat) 16 := Vector.replicate 16 none
  pairs : Vector PairState 12 := Vector.replicate 12 {}
  /-- Level of OWNER (R214). -/
  owner : Bool := false
  /-- Block sources that stand active: each GDF input; power fail (R211). -/
  gdf : Vector Bool 6 := Vector.replicate 6 false
  powerFail : Bool := false
  deriving DecidableEq, Repr

/-! ### Grid forming (chapter 08) -/

/-- The kinds of ramp of R242. -/
inductive RampKind where
  | blackStart
  | sync
  | recovery
  deriving DecidableEq, Repr

/-- A ramp that runs on a stage's ramp generator: from and to, in pu; has R243 held it? -/
structure Ramp where
  kind : RampKind
  start : Rat
  target : Rat
  held : Bool := false
  wasHeld : Bool := false
  /-- Local instant of its start. -/
  at' : Nat := 0
  deriving DecidableEq, Repr

/-- What grid forming orders a stage to do at its next sample (R238, R232): a start, or a change of mode. -/
inductive GfmStart where
  | blackStart
  | sync
  | join
  | vsm
  | recovery
  deriving DecidableEq, Repr

/-- A grid-forming stage beyond its registers (R219 to R248). Per-unit quantities, angles in degrees, exact. -/
structure GfmStage where
  dw : Rat := 0
  theta : Rat := 0
  pf : Rat := 0
  qf : Rat := 0
  wRes : Rat := 0
  d : Rat := 0
  dwEntry : Rat := 0
  /-- V_ref' of R223, E while it tracks V_L (R244), and the residual of E being blended (R204). -/
  vref : Rat := 1
  eTrack : Rat := 0
  eResid : Rat := 0
  /-- Line and converter phasors (R219): magnitude, lag behind θ_TAI, frequency. -/
  vl : Rat := 0
  phi : Rat := 0
  fl : Rat := 0
  vc : Rat := 0
  phiC : Rat := 0
  fc : Rat := 0
  /-- Line class (R233): 0 UNSURE, 1 DEAD, 2 LIVE; milliseconds without a break in DEAD, in LIVE, and out of LIVE. -/
  lineClass : Nat := 0
  deadMs : Nat := 0
  liveMs : Nat := 0
  notLiveMs : Nat := 0
  /-- Virtual-impedance low-passes of the phase currents (R224), in fractions of full scale. -/
  iFilt : Vector Rat 3 := Vector.replicate 3 0
  /-- The routed start and stop bits as the last publication took them (R236). -/
  reqStart : Bool := false
  reqStop : Bool := false
  /-- Local instant at which the time mode was last REFERENCED (R226). -/
  refAt : Option Nat := none
  /-- The black-start instant awaited; is it a back-off (R241)? -/
  slot : Option (BitVec 64 × Bool) := none
  backoff : Bool := false
  /-- Has the stage not been RUNNING since it was started from STOPPED (Table 8.6)? -/
  cold : Bool := false
  /-- Local instant of the last change of the contactor command, feedback at the last check, and an outstanding no-open
  failure (R234). -/
  cmdAt : Nat := 0
  fbPrev : Option Bool := none
  noOpen : Bool := false
  /-- Milliseconds the windows of R244 have held, δ and the predicted closing angle in degrees. -/
  winMs : Nat := 0
  delta : Rat := 0
  predicted : Rat := 0
  ramp : Option Ramp := none
  /-- Consecutive samples with limiting, TAI of the first of them, and local instants: of the onset, of LIMIT_HELD, since
  the reference stays below 0.95 of the limit, since limiting lasts or has been clear (R229 to R232, R243). -/
  limRun : Nat := 0
  limFirst : BitVec 64 := 0
  limFirstAt : Nat := 0
  heldAt : Option Nat := none
  belowFrom : Option Nat := none
  clearFrom : Option Nat := none
  /-- Local instant of the entry to the state of Table 8.3, milliseconds of restored V_dc in RIDE, and V_dc in Q15. -/
  stateAt : Nat := 0
  rideOkMs : Nat := 0
  vdc : Int := 0
  order : Option GfmStart := none
  /-- Local instants of the last millisecond of evaluation and of the last contactor check. -/
  evalAt : Option Nat := none
  contAt : Option Nat := none
  /-- Local instant of the latest loop sample. -/
  sampleAt : Nat := 0
  deriving DecidableEq, Repr

/-- Grid forming beyond its registers: stages 0 and 2, and the angle of a variable-frequency stage 3 (R249). -/
structure GfmState where
  stages : Vector GfmStage 2 := Vector.replicate 2 {}
  vfTheta : Rat := 0
  deriving DecidableEq, Repr

/-! ### Feeder protection (chapter 09) -/

/-- A feeder beyond its registers (R251 to R276). Elements by code of Table 9.2. -/
structure FeederState where
  /-- Operate outputs, now and at the last update. -/
  op : Nat := 0
  opPrev : Nat := 0
  /-- Local instant at which each element started. -/
  startAt : Vector (Option Nat) 13 := Vector.replicate 13 none
  /-- IDMT accumulators and the last M, by current element. -/
  acc : Vector Rat 7 := Vector.replicate 7 0
  lastM : Vector Rat 7 := Vector.replicate 7 0
  /-- Fast 50P (R257): consecutive samples above pickup and below dropout, operated phases. -/
  fastAbove : Vector Nat 3 := Vector.replicate 3 0
  fastBelow : Vector Nat 3 := Vector.replicate 3 0
  fastOp : Vector Bool 3 := Vector.replicate 3 false
  /-- Thermal level θ, and its copy in EMBER with the TAI of its write (R264). -/
  theta : Rat := 0
  thetaSaved : Rat := 0
  savedAt : BitVec 64 := 0
  /-- Local instant of the latest update of θ. -/
  thermAt : Option Nat := none
  /-- Square of the largest phase magnitude, in I_n², at the last update. -/
  iMax2 : Rat := 0
  /-- Inputs whose phasors are invalid now (R254); the missing residual has been logged (R251). -/
  invalid : Vector Bool 4 := Vector.replicate 4 false
  resLogged : Bool := false
  /-- Directional memory: polarising phasor and local instant of the last update with enough voltage (R261). -/
  memV : Vector Cx 3 := Vector.replicate 3 {}
  memAt : Vector (Option Nat) 3 := Vector.replicate 3 none
  dirPh : Vector Nat 3 := Vector.replicate 3 0
  lastUpd : Option Nat := none
  /-- LMD: consecutive qualifying updates; loop and |Z|² in Ω² of the smallest qualifying loop (R267, R268). -/
  qualRun : Nat := 0
  qualZ : Option (Nat × Rat) := none
  /-- Breaker (R270 to R273): no sample above √2 × i_open (i_bf in TRIPPING); since when 52a and 52b read the same, since
  when current flows against an open status, since when current-closed holds. -/
  peak2 : Rat := 0
  sameFrom : Option Nat := none
  againstFrom : Option Nat := none
  closedFrom : Option Nat := none
  /-- Local instants of the issue that started the timers, of the latest issue, and of the operation of 50BF while its
  outputs hold. -/
  issueAt : Nat := 0
  latestAt : Nat := 0
  retripped : Bool := false
  retripOut : Bool := false
  bfAt : Option Nat := none
  /-- TAI of the last open confirmation. -/
  openAt : BitVec 64 := 0
  /-- 74TC: time read open and time read intact, in ns, and the local instant of the last count (R275). -/
  tcOpen : Nat := 0
  tcGood : Nat := 0
  tcLast : Nat := 0
  deriving DecidableEq, Repr

/-- An element 32 (R265). -/
structure Unit32 where
  since : Option Nat := none
  op : Bool := false
  deriving DecidableEq, Repr

/-- The last 64 samples of one input of a PHASOR tile, newest first, in fractions of full scale, and which of them are
replacements (R252, R254). -/
structure SampleWin where
  xs : List Rat := List.replicate 64 0
  repl : List Bool := List.replicate 64 false
  deriving DecidableEq, Repr

/-- Protection beyond its registers. -/
structure ProtState where
  feeders : Vector FeederState 8 := Vector.replicate 8 {}
  u32 : Vector Unit32 2 := Vector.replicate 2 {}
  /-- Settings registers written since the last phasor update, with the words in force until the next (R256). -/
  old : List (Nat × Word) := []
  /-- Local instant of the latest write of the thermal levels to EMBER (R264). -/
  savedFrom : Option Nat := none
  /-- Sample windows of the bus voltages and, by feeder, of its four inputs (R252). -/
  voltWin : Vector SampleWin 3 := Vector.replicate 3 {}
  curWin : Vector (Vector SampleWin 4) 8 := Vector.replicate 8 (Vector.replicate 4 {})
  /-- Bus inputs whose phasors are invalid now (R254). -/
  vInvalid : Vector Bool 3 := Vector.replicate 3 false
  /-- Has V1 exceeded 10 % since start (R253)? -/
  tracked : Bool := false
  /-- User curves in force: points (M in 0.01, t in ms), by curve (R260). -/
  curves : Vector (List (Nat × Nat)) 4 := Vector.replicate 4 []
  /-- PROT_LMD_CFG in force since LMD left IDLE (R266), and LMD_NO_FEEDER logged. -/
  lmdCfg : Word := 0x00000200
  lmdNoFeeder : Bool := false
  deriving DecidableEq, Repr

/-! ### The recorder (chapter 10) -/

/-- A stored row (R281): its instant in TAI ns and its words, one or two a channel. -/
structure RecRow where
  at' : Nat
  words : List Word
  /-- TIME_STATE when the row was formed. -/
  time : Word := 0
  deriving DecidableEq, Repr

/-- What an interval of k capture instants has gathered of one channel (R281): minimum and maximum over the samples without
FAULT and over all, whether there is one without, and the flags (bits 15 to 12 of Table 10.1). -/
structure ChAcc where
  mn : Int := 32767
  mx : Int := -32768
  mnAll : Int := 32767
  mxAll : Int := -32768
  good : Bool := false
  flags : BitVec 4 := 0
  deriving DecidableEq, Repr

/-- A change entry (R284). -/
structure ChangeEntry where
  at' : Nat
  ch : Fin 256
  level : Bool
  holdover : Bool
  deriving DecidableEq, Repr

/-- A trigger: its source bit of Table 10.3 and its instant in TAI ns. A mark holds the same. -/
structure RecTrigger where
  src : Fin 11
  at' : Nat
  deriving DecidableEq, Repr

/-- What the servo did, for est_err (R298): TAI in ns, |θ| in quarter ns, and 0 an accepted measurement, 1 a candidate, 2 a
refused jump. -/
structure RecNote where
  at' : Nat
  theta : Nat
  kind : Fin 3
  deriving DecidableEq, Repr

/-- Time quality of a record (R297, R298): code, est_err, rows carrying HOLDOVER, longest run of them in ms, refused jumps. -/
structure RecQuality where
  code : Fin 3 := 0
  estErr : Word := 50
  holdRows : Nat := 0
  holdMs : Nat := 0
  refused : Nat := 0
  deriving DecidableEq, Repr

/-- A record (R284 to R297): the capture in progress, or one closed. -/
structure Record where
  number : Word
  mask : Nat := 0
  trigAt : Nat := 0
  marks : List RecTrigger := []
  moreTrigs : Nat := 0
  /-- Table 10.7: TAI of the first and of the last row; serial number, the positions of stages 0 and 2, firmware version and
  TIME_UTC_OFFSET at the trigger; the settings records that name and scale the channels; the enabled channels with their
  REC_ACH_c, and the REC_BCH_b of those of `bch`. -/
  firstAt : Nat := 0
  lastAt : Nat := 0
  serial : BitVec 64 := 0
  positions : Vector Nat 2 := Vector.replicate 2 0
  firmware : Word := 0
  utc : Word := 0
  settings : List SettingsRecord := []
  ach : List (Fin 64 × Word) := []
  bsrc : List Word := []
  /-- Role, epoch, build_id and clockIdentity at the trigger; TIME state and source at first, trigger and last row. -/
  role : Nat := 0
  epoch : Word := 0
  build : Word := 0
  clockId : BitVec 64 := 0
  timeFirst : Word := 0
  timeTrig : Word := 0
  timeLast : Word := 0
  stream : Bool := false
  k : Nat := 1
  period : Nat := 0
  rows : List RecRow := []
  /-- The binary channels of the plan, and their states at the first row. -/
  bch : List (Fin 256) := []
  snapshot : BitVec 256 := 0
  changes : List ChangeEntry := []
  chgLost : Nat := 0
  preRows : Nat := 0
  postRows : Nat := 0
  preShort : Bool := false
  cause : Nat := 0
  firstUnstored : Option Nat := none
  quality : RecQuality := {}
  /-- Bytes it occupies on NAND, and bytes of its rows that had drained there when it closed (streaming). -/
  size : Nat := 0
  drained : Nat := 0
  locked : Bool := false
  /-- Only the header remains (R296). -/
  lost : Bool := false
  op : Option (Fin 16) := none
  deriving DecidableEq, Repr

/-- The files of an exported record: the record as it was read, and the draw that names the parts of the texts that the spec
does not give (log entry 29). -/
structure Exported where
  record : Record
  key : Nat
  deriving DecidableEq, Repr

/-- A level trigger (R287): consecutive instants, and fired but not yet cleared. -/
structure LevelState where
  count : Nat := 0
  fired : Bool := false
  deriving DecidableEq, Repr

/-- A mask test (R288): consecutive violating rows, done for this capture, and rows left after a stop violation. -/
structure MaskState where
  run : Nat := 0
  done : Bool := false
  left : Option Nat := none
  deriving DecidableEq, Repr

/-- The recorder beyond its registers. -/
structure RecState where
  /-- The next capture instant, in capture periods. -/
  next : Option Nat := none
  acc : List ChAcc := []
  accN : Nat := 0
  /-- Rows in the ring of the present plan, and how many have been formed since arming and since the trigger row. -/
  rows : List RecRow := []
  formed : Nat := 0
  post : Nat := 0
  /-- Bytes of the present record that have drained to NAND (streaming). -/
  drained : Nat := 0
  /-- Triggers whose row has not been formed. -/
  trigs : List RecTrigger := []
  cur : Option Record := none
  /-- States of the binary channels now, and at the first row instant of the ring. -/
  bin : BitVec 256 := 0
  binFirst : BitVec 256 := 0
  changes : List ChangeEntry := []
  levels : Vector LevelState 8 := Vector.replicate 8 {}
  masks : Vector MaskState 4 := Vector.replicate 4 {}
  notes : List RecNote := []
  /-- TAI in ns of the latest accepted measurement (R298). -/
  accAt : Option Nat := none
  /-- Local instant of closing, and the arm operation. -/
  closedAt : Nat := 0
  op : Option (Fin 16) := none
  /-- Closed records that await NAND, and records on NAND (R289, R295). -/
  awaiting : List Record := []
  stored : List Record := []
  /-- The number of the next record; it carries across every start. -/
  nextNo : Word := 1
  /-- Exported files in the export area, oldest first. -/
  exported : List Exported := []
  /-- Level of the request bit of source 9 at the last publication. -/
  request : Bool := false
  /-- Records that a warm start closed, whose closing is noted when the recorder runs again (R293, R296). -/
  late : List Word := []
  deriving DecidableEq, Repr

/-! ### The scan cores (chapter 11) -/

/-- A count of edges that saturates at 255, and the instant of the first of them. -/
structure EdgeMark where
  n : Nat := 0
  at' : BitVec 64 := 0
  deriving DecidableEq, Repr

/-- One side of an edge set (R311): flag, stamp and count; and the edges between the last two publication instants and since
the last one, which a cycle that takes an image of before them leaves in place (R312). -/
structure EdgeSide where
  flag : Bool := false
  at' : BitVec 64 := 0
  n : Nat := 0
  between : EdgeMark := {}
  since : EdgeMark := {}
  deriving DecidableEq, Repr

/-- An edge set of the binary input layer (R311). -/
structure EdgeSet where
  rise : EdgeSide := {}
  fall : EdgeSide := {}
  deriving DecidableEq, Repr

/-- A process image: values by symbol identity, publication stamp in ns of TAI and publication counter. -/
structure ProcessImage where
  values : List (Nat × BitVec 64) := []
  stamp : BitVec 64 := 0
  count : Word := 0
  deriving DecidableEq, Repr

/-- The three image buffers of one direction (R38): the one being written, with the TAI instant at which it is complete in
ns, the complete and most recent one, and the one being read. -/
structure ImageBufs where
  writing : Option (ProcessImage × Nat) := none
  latest : ProcessImage := {}
  reading : ProcessImage := {}
  deriving DecidableEq, Repr

/-- A timer instance (R313): elapsed time in ns, output, last input, is it timing, and the stored counter. -/
structure ScanTimer where
  et : Nat := 0
  q : Bool := false
  last : Bool := false
  active : Bool := false
  stored : Nat := 0
  deriving DecidableEq, Repr

/-- A task (R304 to R317). -/
structure ScanTask where
  counter : Nat := 0
  /-- A cycle has been released and is not complete; it has started. -/
  busy : Bool := false
  started : Bool := false
  relAt : Nat := 0
  /-- TAI ns of the last release instant. -/
  lastRel : Option Nat := none
  /-- A release since the swap point waits for the state transfer (R332). -/
  afterSwap : Bool := false
  skipped : Nat := 0
  consecutive : Nat := 0
  /-- The held transfer of a late cycle. -/
  held : Option (List (Nat × BitVec 64)) := none
  /-- The image the cycle took, with the input forces, and its publication stamp (R41). -/
  image : List (Nat × BitVec 64) := []
  imageAt : BitVec 64 := 0
  deriving DecidableEq, Repr

/-- A remote module block (R327, R328). -/
structure RemoteBlock where
  data : List Word := []
  stamp : BitVec 64 := 0
  valid : Bool := false
  everSet : Bool := false
  deriving DecidableEq, Repr

/-- An exchange that waits for its swap point (R331). -/
structure Exchange where
  prog : ScanProgram
  /-- Acceptance + 10 ms, TAI ns. -/
  after : Nat
  opSlot : Option (Fin 16) := none
  deriving DecidableEq, Repr

/-- A scan core beyond its registers. Values by symbol identity, 0 unlisted. -/
structure ScanCore where
  prog : Option ScanProgram := none
  tasks : Vector ScanTask 8 := Vector.replicate 8 {}
  vars : List (Nat × BitVec 64) := []
  timers : List (Nat × ScanTimer) := []
  /-- Edge-trigger instances: previous clock, absent before the first evaluation. -/
  trigs : List (Nat × Bool) := []
  /-- Values of the output positions as the program transferred them, before forces. -/
  out : List (Nat × BitVec 64) := []
  /-- The image buffers in exchange RAM: input, written by the fabric, and output, written by the core (R38). -/
  input : ImageBufs := {}
  output : ImageBufs := {}
  queue : List (Nat × BitVec 64) := []
  copies : Vector (Option RetainedSet) 2 := Vector.replicate 2 none
  edges : Vector EdgeSet 16 := Vector.replicate 16 {}
  remotes : Vector RemoteBlock 32 := Vector.replicate 32 {}
  exchange : Option Exchange := none
  /-- The mode a quiescing core goes to (Table 11.3). -/
  quiesce : Option Nat := none
  /-- Quiesced for a switchover (R390). -/
  frozen : Bool := false
  /-- The task of a step in HOLD, and whether its cycle has been released. -/
  step : Option (Fin 8) := none
  /-- The publication instant, in ns of TAI, from which releases start cycles (R321). -/
  liveFrom : Nat := 0
  /-- The start of the part has been considered for this core (R322). -/
  autoDone : Bool := false
  /-- A takeover awaits the warm restart of this core (R374). -/
  warmStart : Bool := false
  deriving DecidableEq, Repr

/-- A force (R329). -/
structure Force where
  core : Fin 2
  id : Word
  ty : BitVec 8
  value : BitVec 64
  deriving DecidableEq, Repr

/-- The scan engine beyond its registers. -/
structure ScanState where
  cores : Vector ScanCore 2 := Vector.replicate 2 {}
  forces : List Force := []
  /-- DO commands as the fabric took them at the last publication. -/
  doTaken : BitVec 16 := 0
  /-- Remote outputs taken at the last publication: (core, block, word, value). -/
  remoteOut : List (Fin 2 × Fin 32 × Nat × BitVec 64) := []
  /-- The last publication instant in units of 0.25 ms. -/
  lastPub : Option Nat := none
  /-- The last commit of the retained data in units of 10 ms of TAI (R324). -/
  lastCommit : Option Nat := none
  deriving DecidableEq, Repr

/-! ### The field die (chapter 12) -/

/-- A digital output beyond its registers (R343, R345). -/
structure DoDriver where
  latched : Bool := false
  waiting : Bool := false
  retries : Nat := 0
  /-- Local instants of the last overload turn-off and of the last retry. -/
  offAt : Nat := 0
  retryAt : Option Nat := none
  deriving DecidableEq, Repr

/-- A trip output beyond its registers (R349 to R351). -/
structure TripDriver where
  /-- The copy in the last valid frame, consecutive frames in which it read 1, and in which it disagreed with the strobe. -/
  copy : Bool := false
  copyRun : Nat := 0
  disagree : Nat := 0
  onAt : Nat := 0
  offAt : Option Nat := none
  coolUntil : Nat := 0
  deferred : Bool := false
  deriving DecidableEq, Repr

/-- The field die beyond its registers. -/
structure FioState where
  dos : Vector DoDriver 16 := Vector.replicate 16 {}
  trips : Vector TripDriver 4 := Vector.replicate 4 {}
  /-- The control die sends frames; it sets the resume flag (R353). -/
  linkOn : Bool := false
  resume : Bool := false
  /-- Sleep condition, with the off strobes asserted (R469). -/
  sleeping : Bool := false
  /-- Commands at the entry to the safe state, for the safe value hold; local instant of that entry. -/
  holdCmd : BitVec 16 := 0
  safeFrom : Nat := 0
  resumeRun : Nat := 0
  lastValid : Nat := 0
  badNew : Nat := 0
  /-- What the FIO registers showed as the link stopped: the control die sees no more of the field die until it runs again
  (R17). Events of the field die in the meantime, logged as the link resumes. -/
  seen : Option (List (Nat × Word)) := none
  unsaid : List (Nat × Nat × Nat) := []
  badLogged : Option Nat := none
  /-- TAI in 0.1 ms of the last input sample; consecutive samples at the present raw level. -/
  lastDi : Option Nat := none
  diRun : Vector Nat 16 := Vector.replicate 16 0
  /-- Clamp pulses of the last second: group, local instant, mJ. -/
  pulses : List (Nat × Nat × Nat) := []
  deriving DecidableEq, Repr

/-! ### Duplex operation (chapter 13) -/

/-- A GUYLINE path (R364): consecutive valid heartbeats, and local instant of the last one. -/
structure PathState where
  good : Nat := 0
  last : Nat := 0
  /-- Misses of the present gap already counted. -/
  counted : Nat := 0
  deriving DecidableEq, Repr

/-- What the partner's heartbeat tells beyond DPX_PARTNER. -/
structure Partner where
  doCmd : BitVec 16 := 0
  tripCircuit : Vector (Option Bool) 4 := Vector.replicate 4 none
  tripOn : BitVec 4 := 0
  versions : Option Versions := none
  deriving DecidableEq, Repr

/-- A message as sent on both paths. -/
structure GuyMessage where
  role : Nat
  epoch : Word
  seq : Word
  payload : GuyPayload
  deriving DecidableEq, Repr

/-- Duplex operation beyond its registers (R356 to R391). Message types 0x01 to 0x0C index the vectors. -/
structure DpxState where
  /-- The epoch in the duplex region of EMBER (R365). -/
  emberEpoch : Word := 0
  paths : Vector PathState 2 := Vector.replicate 2 {}
  /-- Local instants: last valid heartbeat on either path, first HEARTBEAT of the ACTIVE in a rejoin. -/
  hbAt : Option Nat := none
  firstHb : Nat := 0
  partner : Partner := {}
  /-- TAKING was entered from SYNCED. -/
  fromSynced : Bool := false
  listenAt : Nat := 0
  /-- Local instants of the last SYNC_REQ and of the last digest. -/
  syncReqAt : Nat := 0
  digestAt : Nat := 0
  /-- An outstanding probe; the last probe; unanswered probes in DEGRADED_STANDBY. -/
  probeAt : Option Nat := none
  lastProbe : Nat := 0
  unanswered : Nat := 0
  /-- The last reply this unit's NET block gave. -/
  lastReply : Option ProbeReply := none
  seqIn : Vector (Option Word) 16 := Vector.replicate 16 none
  seqOut : Vector Word 16 := Vector.replicate 16 0
  /-- The last message sent of each type. -/
  sent : Vector (Option GuyMessage) 16 := Vector.replicate 16 none
  /-- Stale messages since the last logging, from GUYLINE and from a host, and when that was (R366). -/
  stale : Vector Nat 2 := Vector.replicate 2 0
  staleLogged : Vector (Option Nat) 2 := Vector.replicate 2 none
  /-- The latest MIRROR of each stage; one has come since the last sample; samples in REPLAY for want of one. -/
  mirrors : Vector (Option MirrorMsg) 4 := Vector.replicate 4 none
  mirrorNew : Vector Bool 4 := Vector.replicate 4 false
  gapRun : Vector Nat 4 := Vector.replicate 4 0
  /-- Local instant since which MIRROR has come without a gap. -/
  mirrorFrom : Option Nat := none
  /-- Local instant of the last heartbeat handed to a path whose transmitter is good (R379, R380). -/
  hbSent : Nat := 0
  hbDue : Nat := 0
  ackHeld : Bool := false
  /-- The switch instant a STANDBY holds (R389). -/
  switchHeld : Option (BitVec 64) := none
  quiesced : Bool := false
  switchOp : Option (Fin 16) := none
  /-- Settings received from the ACTIVE, with the frame number at which they apply (R376). -/
  settings : Option (List SettingsRecord × BitVec 64) := none
  /-- Local instant of a takeover with state, until the first fresh output. -/
  freshFrom : Option Nat := none
  /-- Tracking stages that leave tracking for their own control at their first sample after OWNER rises (R370). -/
  fresh : Vector Bool 4 := Vector.replicate 4 false
  deriving DecidableEq, Repr

/-! ### Networks (chapter 14) -/

/-- A frame on its way: its match field (R403), direction, priority of its VLAN tag (R393), the command whose arrival it is,
and the one where its CRC fails, the PHY stamp of its receipt or transmission in ns (R118, R404), and its residence in the switch in ns, which the
correctionField of a PTP event message gains (R114). -/
structure PathFrame where
  frame : NetFrame := {}
  field : BitVec 16 := 0
  receive : Bool := false
  pcp : Option (Fin 8) := none
  load : Option Instr := none
  badLoad : Option Instr := none
  stamp : BitVec 64 := 0
  residence : Option Nat := none
  deriving DecidableEq, Repr

/-- A fault-injection unit beyond its registers (R403): frames that matched, frames held for a reorder in order of arrival,
delayed frames with the local instant of their release, and the frames the last command let pass. -/
structure FiUnit where
  matched : Nat := 0
  group : List PathFrame := []
  delayed : List (PathFrame × Nat) := []
  out : List PathFrame := []
  deriving DecidableEq, Repr

/-- A partial set of a CAN block (R401): core, block, identifiers come and the words of each. -/
structure CanPart where
  block : Fin 2 × Fin 32
  frames : List (Nat × List Word) := []
  deriving DecidableEq, Repr

/-- Networks beyond their registers. -/
structure NetState where
  /-- Parameters in force (R392). -/
  items : List NetItem := []
  /-- The last telegram of each published index: grid instant and content (R395). -/
  published : Vector (Option (BitVec 64 × List (Nat × BitVec 64))) 64 := Vector.replicate 64 none
  /-- Stamp of the data of each subscribed telegram for which a timeout has been logged. -/
  timedOut : Vector (Option (BitVec 64)) 64 := Vector.replicate 64 none
  canParts : List CanPart := []
  /-- The last output set sent by a block (R402). -/
  sent : List ((Fin 2 × Fin 32) × List (Nat × BitVec 64)) := []
  /-- MVB sinks refreshed, with their data and the local instant (R401). -/
  mvbSinks : List (BitVec 12 × List Word × Nat) := []
  /-- The next request of each Modbus poll table, the one that awaits its response, and the responses of the poll cycle. -/
  pollNext : Vector Nat 2 := Vector.replicate 2 0
  pollWait : Vector (Option (Fin 64)) 2 := Vector.replicate 2 none
  pollData : Vector (List (Fin 64 × List Word)) 2 := Vector.replicate 2 []
  /-- Words of the slave block of each port, and its last answer. -/
  slave : Vector (List (Nat × BitVec 16)) 2 := Vector.replicate 2 []
  answered : Vector (Option (BitVec 8 × BitVec 8)) 2 := Vector.replicate 2 none
  fi : Vector FiUnit 10 := Vector.replicate 10 {}
  /-- Commands whose frames a unit has let through, in order; and the one executed next has passed its unit (R403). -/
  arrived : List Instr := []
  past : Bool := false
  /-- The egress queues of ETH0 and ETH1 (R393), the local instant at which each port is free, and the frame each sent last. -/
  queues : Vector (Vector (List PathFrame) 4) 2 := Vector.replicate 2 (Vector.replicate 4 [])
  freeAt : Vector Nat 2 := Vector.replicate 2 0
  lastSent : Vector (Option PathFrame) 2 := Vector.replicate 2 none
  /-- The frame last delivered to the part's own port. -/
  delivered : Option PathFrame := none
  /-- PRP (R394): the last 256 sequence numbers of each source, newest first, the number the next frame sent carries, and
  the local instant of the last frame of each LAN. -/
  prpSeen : List (Nat × List (BitVec 16)) := []
  prpSeq : BitVec 16 := 0
  lanAt : Vector (Option Nat) 2 := Vector.replicate 2 none
  deriving DecidableEq, Repr

/-! ### The command service (chapter 15) -/

/-- States of an operation (Table 15.5), by their register codes 0 to 5. -/
inductive OpState where
  | queued
  | running
  | suspended
  | completed
  | cancelled
  | failed
  deriving DecidableEq, Repr

/-- A long operation in its slot (R415, R416): `obj` is what it works on (image kinds as a mask, or a record number). -/
structure Oper where
  handle : Word
  kind : Fin 7
  state : OpState
  hostHold : Bool := false
  partHold : Bool := false
  status : Nat := 0
  progress : Nat := 0
  openedAt : BitVec 64
  endedAt : BitVec 64 := 0
  endedLocal : Nat := 0
  chan : Option (Fin 21) := none
  obj : Nat := 0
  /-- The operation has passed its commit point. -/
  committed : Bool := false
  deriving DecidableEq, Repr

/-- A reply frame (R411): opcode, handle, epoch, sequence, status and the result after the status word, as words, with the bytes of FILE_READ after them. -/
structure Reply where
  opcode : Nat
  handle : Word := 0
  epoch : Word := 0
  seq : Word := 0
  status : Nat
  result : List Word := []
  tail : List Byte := []
  deriving DecidableEq, Repr

/-- A notification (R418): channel, opening opcode, handle, final state and status. -/
structure Notice where
  chan : Fin 21
  opcode : Nat
  handle : Word
  final : Nat
  status : Nat
  deriving DecidableEq, Repr

/-- A channel (R407, R413): the last accepted sequence, the stored reply, the reply last sent, and the local instant of
its last request. -/
structure Channel where
  isOpen : Bool := false
  lastSeq : Option Word := none
  stored : Option Reply := none
  sent : Option Reply := none
  lastAt : Nat := 0
  deriving DecidableEq, Repr

/-- The command service beyond its registers. -/
structure CmdState where
  /-- Channel 0 is open from reset. -/
  channels : Vector Channel 21 := (Vector.replicate 21 {}).set 0 { isOpen := true }
  ops : Vector (Option Oper) 16 := Vector.replicate 16 none
  /-- The next handle, once one has been drawn at this start (R415). -/
  nextHandle : Option Word := none
  notices : List Notice := []
  /-- The request of the mailbox in progress: its opcode and header (R409). -/
  mailbox : Option (Nat × ReqHeader) := none
  deriving DecidableEq, Repr

/-! ### Update and recovery (chapter 16) -/

/-- The journaled state of a kind (R426). -/
inductive KindState where
  | normal
  | activating
  | trial
  deriving DecidableEq, Repr

/-- The journal of one kind: active slot, state, and whether its change is a group image (R434). -/
structure KindJournal where
  active : Fin 2 := 0
  state : KindState := .normal
  group : Bool := false
  verified : Bool := false
  deriving DecidableEq, Repr

/-- A pitch slot: a full image and the group images appended behind it (R434). -/
structure PitchSlot where
  image : PitchImage
  groups : List PitchImage := []
  deriving DecidableEq, Repr

/-- The identity and progress of a download (R426, R427). -/
structure Download where
  kind : Fin 4
  length : Nat
  hash : BitVec 384
  confirmed : Nat := 0
  deriving DecidableEq, Repr

/-- A settings write that awaits its boundary: what applies, and the frame instant in TAI ns (R439). -/
structure SettingsDue where
  records : List SettingsRecord
  at' : Nat
  deriving DecidableEq, Repr

/-- STAKE (R443): the two copies of the root key hash, the fuses of the anti-rollback counter (lowest first) and of the
lifecycle word, the serial number and the factory trim. -/
structure Stake where
  rootHash : Vector (BitVec 384) 2 := Vector.replicate 2 0
  counter : BitVec 64 := 0
  lifecycle : BitVec 16 := 0x00FF
  serial : BitVec 64 := 0
  trim : BitVec 112 := 0
  deriving DecidableEq, Repr

/-- Update and recovery beyond their registers. Kinds 1 to 4 are numbered 0 to 3. -/
structure UpdState where
  journal : Vector KindJournal 4 := Vector.replicate 4 {}
  pitch : Vector (Option PitchSlot) 2 := Vector.replicate 2 none
  scan : Vector (Option ScanImage) 2 := Vector.replicate 2 none
  firmware : Vector (Option Firmware) 2 := Vector.replicate 2 none
  boot : Option ImageHead := none
  /-- Complete staged images; that of kind 4 lies in LPDDR4X. -/
  staged : Vector (Option StagedImage) 4 := Vector.replicate 4 none
  /-- The declared SHA-384 of each staged image (R427, R430). -/
  declared : Vector (BitVec 384) 4 := Vector.replicate 4 0
  download : Option Download := none
  /-- Pages of the open block that LPDDR4X holds. -/
  pages : BitVec 16 := 0
  failedBoots : Nat := 0
  settings : Vector (Option SettingsSet) 2 := Vector.replicate 2 none
  inForce : Fin 2 := 0
  paired : Option (Fin 2) := none
  trialWrites : Nat := 0
  settingsDue : List SettingsDue := []
  /-- Local instant at which the trial began; a kind whose revert waits, with its cause (R436). -/
  trialFrom : Option Nat := none
  revertWait : Option (Nat × Nat) := none
  /-- Local instant of the acceptance of a firmware activation that awaits its restart, and its operation. -/
  restartAt : Option (Nat × Option (Fin 16)) := none
  /-- Kinds whose TRIAL_STARTED awaits ready (R437). -/
  trialDue : Nat := 0
  /-- SYS_STATUS.ready stays 0: settings could not be migrated (R440). -/
  migrateFail : Bool := false
  /-- Local instant at which COMMISSIONING ends without TIME. -/
  serviceEnd : Option Nat := none
  stake : Stake := {}
  /-- Local instant at which the last burn of STAKE ends (R444, R445). -/
  burnUntil : Nat := 0
  /-- Level of BOOT_REC at reset. -/
  bootRec : Bool := false
  deriving DecidableEq, Repr

/-! ### The whole machine -/

/-- The machine. -/
structure State where
  /-- Commands waiting, first in first out. -/
  pending : List Instr
  /-- Registers of the address map: (address, word) in canonical form; an unlisted address holds its reset word. -/
  regs : List (Nat × Word)
  /-- Memory of the address map (Table 1.8), in canonical form. -/
  mem : List Host.Cell
  /-- The snapshot buffer of each bus master (R49). -/
  snap : Vector Snap 8
  /-- What the last bus access answered. -/
  busReply : BusReply
  /-- The model's own count of free values drawn; no field of the spec. -/
  fresh : Nat
  /-- The time counter: TAI in quarter nanoseconds (R111). -/
  tai : BitVec 66
  /-- 800 MHz ticks counted since reset (R101). -/
  ticks : Nat
  log : LogState
  fab : FabState
  pwr : PwrState
  time : TimeState
  adc : AdcState
  filt : FiltState
  loop : LoopState
  gfm : GfmState
  prot : ProtState
  scan : ScanState
  fio : FioState
  dpx : DpxState
  cmd : CmdState
  recd : RecState
  net : NetState
  upd : UpdState
  deriving DecidableEq, Repr

/-- The machine right after reset: every register at its heading's reset value, nothing listed in memory, no command
waiting. -/
def State.reset : State where
  pending := []
  regs := []
  mem := []
  snap := Vector.replicate 8 .empty
  busReply := .none
  fresh := 0
  tai := 0
  ticks := 0
  log := {}
  fab := {}
  pwr := {}
  time := {}
  adc := {}
  filt := {}
  loop := {}
  gfm := {}
  prot := {}
  scan := {}
  fio := {}
  dpx := {}
  cmd := {}
  recd := {}
  net := {}
  upd := {}

end Sys2Proof.Machine
end

