-- ==== Sys2Proof/Machine/Store.lean ====
section
/-! DEFINITION. Sparse storage by key in one canonical form: keys strictly rising, and no entry equal to what an
unlisted key reads as. Registers, memory and tile memories are held so. -/

namespace Sys2Proof.Machine

/-- The value of a key: its entry's, or what an unlisted key reads as. -/
def sget {α : Type} (dflt : Nat → α) : List (Nat × α) → Nat → α
  | [], k => dflt k
  | e :: l, k => if e.1 = k then e.2 else sget dflt l k

/-- The list without any entry of a key. -/
def serase {α : Type} (l : List (Nat × α)) (k : Nat) : List (Nat × α) := l.filter (fun e => e.1 != k)

/-- Put an entry in its place by key. -/
def sinsert {α : Type} (e : Nat × α) : List (Nat × α) → List (Nat × α)
  | [] => [e]
  | h :: l => if e.1 < h.1 then e :: h :: l else h :: sinsert e l

/-- Store a value under a key, keeping the canonical form: a value equal to the unlisted one removes the entry. -/
def sput {α : Type} [DecidableEq α] (dflt : Nat → α) (l : List (Nat × α)) (k : Nat) (v : α) : List (Nat × α) :=
  if v = dflt k then serase l k else sinsert (k, v) (serase l k)

/-- The canonical form: keys strictly rise and no entry equals the unlisted value. -/
def swf {α : Type} [DecidableEq α] (dflt : Nat → α) (l : List (Nat × α)) : Bool :=
  decide (l.Pairwise (fun a b => a.1 < b.1)) && l.all (fun e => e.2 != dflt e.1)

/-- What an unlisted byte of memory reads as (log entry 4: the spec gives no power-on contents). -/
def memDefault (_ : Nat) : Byte := 0

/-- What an unlisted word of tile memory reads as (log entry 4). -/
def tileDefault (_ : Nat) : Word := 0

/-- The canonical form of memory. -/
def Memory.wf (m : List Host.Cell) : Bool := swf memDefault m

end Sys2Proof.Machine
end

