-- ==== Sys2Proof/Machine/Ops.lean ====
section
/-! DEFINITION. The named operations over registers, memory, the event log, time and free values that every family
uses. -/

namespace Sys2Proof.Machine

open Sys2Proof

/-! ### Registers -/

/-- The word a register holds. -/
def rd (s : State) (a : Nat) : Word := sget resetWord s.regs a

/-- Put a word into a register. -/
def wr (s : State) (a : Nat) (v : Word) : State := { s with regs := sput resetWord s.regs a v }

/-- The value of a field of a word. -/
def getF (w : Word) (f : Fld) : Nat := (w.extractLsb' f.lo f.w).toNat

/-- A word with one field replaced. -/
def putF (w : Word) (f : Fld) (v : Nat) : Word :=
  let m : Word := (BitVec.ofNat 32 (2 ^ f.w - 1)) <<< f.lo
  (w &&& ~~~m) ||| ((BitVec.ofNat 32 v <<< f.lo) &&& m)

/-- The value of a register's field. -/
def fld (s : State) (a : Nat) (f : Fld) : Nat := getF (rd s a) f

/-- Set a register's field. -/
def setF (s : State) (a : Nat) (f : Fld) (v : Nat) : State := wr s a (putF (rd s a) f v)

/-- Is a one-bit field 1? -/
def flg (s : State) (a : Nat) (f : Fld) : Bool := fld s a f != 0

/-- A truth value as a bit. -/
def b2n (b : Bool) : Nat := if b then 1 else 0

/-- Bit `i` of a field. -/
def fbit (s : State) (a : Nat) (f : Fld) (i : Nat) : Bool := (fld s a f).testBit i

/-- Set or clear bit `i` of a number. -/
def putBit (n i : Nat) (b : Bool) : Nat := if b then n ||| (1 <<< i) else if n.testBit i then n ^^^ (1 <<< i) else n

/-- Set bit `i` of a field. -/
def setFbit (s : State) (a : Nat) (f : Fld) (i : Nat) (b : Bool) : State := setF s a f (putBit (fld s a f) i b)

/-- A field read as two's complement of its width. -/
def sfld (s : State) (a : Nat) (f : Fld) : Int := ((rd s a).extractLsb' f.lo f.w).toInt

/-- The two words of a wide register (R48). -/
def rd64 (s : State) (a : Nat) : BitVec 64 := rd s (a + 4) ++ rd s a

/-- Set both words of a wide register. -/
def wr64 (s : State) (a : Nat) (v : BitVec 64) : State :=
  wr (wr s a (v.extractLsb' 0 32)) (a + 4) (v.extractLsb' 32 32)

/-- Apply an operation to every element of a list, in order. -/
def forEach {α : Type} (l : List α) (f : α → State → State) (s : State) : State := l.foldl (fun t x => f x t) s

/-- Apply an operation under a condition. -/
def whenS (c : Bool) (f : State → State) (s : State) : State := if c then f s else s

/-! ### Memory -/

/-- The byte at an address of memory. -/
def memByte (s : State) (a : Nat) : Byte := sget memDefault s.mem a

/-- Store a byte. -/
def memPut (s : State) (a : Nat) (b : Byte) : State := { s with mem := sput memDefault s.mem a b }

/-- A little-endian word of memory (R45). -/
def memWord (s : State) (a : Nat) : Word := memByte s (a + 3) ++ memByte s (a + 2) ++ memByte s (a + 1) ++ memByte s a

/-- The bytes of a word, little-endian. -/
def wordBytes (w : Word) : List Byte := [w.extractLsb' 0 8, w.extractLsb' 8 8, w.extractLsb' 16 8, w.extractLsb' 24 8]

/-- Store the low `n` bytes of a word, little-endian (R45). -/
def memPutBytes : Nat → State → Nat → Word → State
  | 0, s, _, _ => s
  | n + 1, s, a, v => memPutBytes n (memPut s a (v.extractLsb' 0 8)) (a + 1) (v >>> 8)

/-! ### Time -/

/-- TIME_NOW: whole nanoseconds of the counter (R111). -/
def now (s : State) : BitVec 64 := s.tai.extractLsb' 2 64

/-- TIME_NOW as a number. -/
def nowNat (s : State) : Nat := (now s).toNat

/-- Ticks of 1.25 ns from the counter's present value to the first tick at or after an instant in quarter nanoseconds. -/
def ticksTo (s : State) (q : Nat) : Nat := (q - s.tai.toNat + 4) / 5

/-- Let the counter count on to the first tick at or after an instant, in quarter nanoseconds; it moves by whole ticks of
1.25 ns and never counts backwards (R101, R111, R129). -/
def advanceTo (s : State) (q : Nat) : State :=
  let n := ticksTo s q
  { s with tai := s.tai + BitVec.ofNat 66 (5 * n), ticks := s.ticks + n }

/-- The first instant at or after `q` on the grid of `period` from `base`. -/
def gridFrom (base period q : Nat) : Nat := q + (base + period - q % period) % period

/-- The first instant of a grid from now on, in quarter nanoseconds; an instant already taken at this tick is not taken
again. -/
def gridNext (s : State) (base period : Nat) (taken : Option Nat) : Nat :=
  gridFrom (base % period) period (if taken = some s.ticks then s.tai.toNat + 5 else s.tai.toNat)

/-- Let the counter reach an instant given in whole nanoseconds. -/
def reachNs (s : State) (t : BitVec 64) : State := advanceTo s (4 * t.toNat)

/-- Local time in nanoseconds, for timers and durations: the count of 1.25 ns ticks since reset, whatever the counter
is moved by. -/
def localNs (s : State) : Nat := s.ticks * 5 / 4

/-- Local time reaches a tick; the counter counts on with it. -/
def reachTick (t : Nat) (s : State) : State :=
  { s with tai := s.tai + BitVec.ofNat 66 (5 * (t - s.ticks)), ticks := s.ticks + (t - s.ticks) }

/-- Local time reaches an instant in ns: the first tick at or after it. -/
def reachLocal (t : Nat) (s : State) : State := reachTick ((4 * t + 4) / 5) s

/-! ### The event log -/

/-- Set `CMD_STATUS.evt_lost_seen` and count a dropped event (R420). -/
def dropEvent (s : State) : State :=
  let s := setF s Reg.CMD_STATUS F.CMD_STATUS_evt_lost_seen 1
  let n := rd s Reg.CMD_EVT_LOST
  let s := wr s Reg.CMD_EVT_LOST (if n = 0xFFFFFFFF then n else n + 1)
  { s with log := { s.log with dropped := s.log.dropped + 1 } }

/-- Hand an event to the logger: its queue holds 256, and an event that finds it full is dropped and counted (R420). -/
def logEvent (code src : Nat) (arg : Word) (s : State) : State :=
  if s.log.queue.length < 256 then
    { s with log := { s.log with
        queue := s.log.queue ++ [⟨now s, BitVec.ofNat 16 code, BitVec.ofNat 16 src, arg⟩] } }
  else dropEvent s

/-- An event with a numeric argument. -/
def logN (code src arg : Nat) (s : State) : State := logEvent code src (BitVec.ofNat 32 arg) s

/-- A signed argument, saturating at 32 bits. -/
def satI32 (v : Int) : Word := BitVec.ofInt 32 (max (-2147483648) (min 2147483647 v))

/-- Move one event from the logger's queue into the log in EMBER, which retains 4,096 (R420), and set CMD_IRQ.event where
it is enabled (R421). -/
def drainOne (s : State) : State :=
  match s.log.queue with
  | [] => s
  | e :: q =>
    let es := s.log.entries ++ [e]
    let s := if (fld s Reg.CMD_IRQ_EN F.CMD_IRQ_EN_en).testBit 2 then setF s Reg.CMD_IRQ F.CMD_IRQ_event 1 else s
    { s with log := { s.log with
        queue := q
        entries := if 4096 < es.length then es.tail else es
        next := s.log.next + 1 } }

/-- Move `n` events. -/
def drainN : Nat → State → State
  | 0, s => s
  | n + 1, s => drainN n (drainOne s)

/-- Move every queued event (a commit of EMBER writes). -/
def drainAll (s : State) : State := drainN s.log.queue.length s

/-- One idle tick of the 800 MHz timebase (R101): the counter and the local time advance by 1.25 ns, and the logger moves
one queued event (log entry 8). -/
def idleTick (s : State) : State := drainOne { s with tai := s.tai + 5, ticks := s.ticks + 1 }

/-! ### Free values -/

/-- The next free value, and the state with the counter moved on (log entry 2). -/
def takeFree (s : State) : Nat × State := (s.fresh, { s with fresh := s.fresh + 1 })

/-- A quotient whose rounding the spec does not state: one of the two neighbouring integers where it is not whole. -/
def quot (n : Int) (d : Nat) : Int :=
  if n % (d : Int) = 0 then n / (d : Int) else n / (d : Int) + (if Config.roundUp n d then 1 else 0)

/-- The nearest integer to a quotient; which of two equally near is not stated. -/
def nearest (n : Int) (d : Nat) : Int :=
  if 2 * (n % (d : Int)) < d then n / (d : Int)
  else if 2 * (n % (d : Int)) = d then n / (d : Int) + (if Config.roundUp n d then 1 else 0)
  else n / (d : Int) + 1

/-! ### Conditions of the whole part -/

/-- Is a stage energised (CTRL_STATUS.energised)? -/
def energised (s : State) (st : Nat) : Bool := fbit s Reg.CTRL_STATUS F.CTRL_STATUS_energised st

/-- Is any power stage energised? -/
def anyEnergised (s : State) : Bool := fld s Reg.CTRL_STATUS F.CTRL_STATUS_energised != 0

/-- Is an RWL field at this address locked (R57, R64)? The list holds addresses, and the upper half of the addresses of a
chapter locked as a whole (R142). -/
def lockedAt (s : State) (a : Nat) : Bool := s.fab.locked.contains a || s.fab.locked.contains (a / 0x10000)

/-- SYS_STATUS.ready. -/
def ready (s : State) : Bool := flg s Reg.SYS_STATUS F.SYS_STATUS_ready

/-- Is the part in the COMMISSIONING service state (UPD_STATUS.commissioning)? -/
def commissioning (s : State) : Bool := flg s Reg.UPD_STATUS F.UPD_STATUS_commissioning

/-- HOLDOVER as samples and stamps carry it now (R120). -/
def holdoverNow (s : State) : Bool := flg s Reg.TIME_STATE F.TIME_STATE_holdover

/-- A command that answers a next state. -/
abbrev Out := Host.Outcome State Fault Refusal

end Sys2Proof.Machine
end

