-- ==== Sys2Proof/Machine/Adc.lean ====
section
/-! DEFINITION. SAR cores, their sequencers and calibration, and the comparators' registers (chapter 05). -/

namespace Sys2Proof.Machine

open Sys2Proof

/-- State codes of ADC_STATUS.state. -/
def adcIdle : Nat := 0
def adcRunning : Nat := 1
def adcStopping : Nat := 2
def adcCalibrating : Nat := 3

/-- The state of a core: bits [2c+1:2c] of ADC_STATUS.state. -/
def adcState (s : State) (c : Nat) : Nat := getF (rd s Reg.ADC_STATUS) ⟨2 * c, 2⟩

/-- Set the state of a core. -/
def setAdcState (c v : Nat) (s : State) : State := wr s Reg.ADC_STATUS (putF (rd s Reg.ADC_STATUS) ⟨2 * c, 2⟩ v)

/-- A write ignored under chapter 05. -/
def adcErr (s : State) : State := setF s Reg.ADC_STATUS F.ADC_STATUS_cfg_err 1

/-- Change a core. -/
def setCore (c : Fin 4) (x : AdcCore) (s : State) : State :=
  { s with adc := { s.adc with cores := s.adc.cores.set c x } }

/-- Has the core valid calibration (ADC_STATUS.cal_valid, R148)? -/
def calValid (s : State) (c : Nat) : Bool := fbit s Reg.ADC_STATUS F.ADC_STATUS_cal_valid c

/-- t_CONV, or t_CONV_LP with lp set, in quarter ns (Table 5.5, R149). -/
def convTime (s : State) (c : Nat) : Nat := if flg s (Reg.ADC_CTRL c) F.ADC_CTRL_lp then 6400 else 800

/-! ### Tables and commits (R141, R142) -/

/-- Fields of a table entry (Table 5.6). -/
def seqWait (w : Word) : Bool := getF w F.ADC_SEQ_wait != 0
def seqGain (w : Word) : Nat := getF w F.ADC_SEQ_gain
def seqChannel (w : Word) : Nat := getF w F.ADC_SEQ_channel
def seqRepeat (w : Word) : Nat := getF w F.ADC_SEQ_repeat
def seqDelay (w : Word) : Nat := getF w F.ADC_SEQ_delay

/-- The shadow table of a core. -/
def shadowTable (s : State) (c : Nat) : List Word := (List.range 64).map (fun e => rd s (Reg.ADC_SEQ c e))

/-- An entry of the live table. -/
def liveEntry (x : AdcCore) (e : Nat) : Word := (x.live[e]?).getD 0

/-- The commit takes effect: the shadow table and seq_last become live. -/
def takeCommit (c : Fin 4) (s : State) : State :=
  let s := setCore c { s.adc.cores[c] with
    live := shadowTable s c, liveLast := fld s (Reg.ADC_CTRL c) F.ADC_CTRL_seq_last } s
  setF s (Reg.ADC_CTRL c) F.ADC_CTRL_commit 0

/-- R142: a commit, refused where an entry up to seq_last holds a reserved channel; at once in IDLE. -/
def commitTable (c : Fin 4) (s : State) : State :=
  let last := fld s (Reg.ADC_CTRL c) F.ADC_CTRL_seq_last
  if (List.range (last + 1)).any (fun e => 20 ≤ seqChannel (rd s (Reg.ADC_SEQ c e))) then adcErr s
  else if adcState s c = adcIdle then takeCommit c s
  else setF s (Reg.ADC_CTRL c) F.ADC_CTRL_commit 1

/-! ### Start events (R144 to R146) -/

/-- The first edge of the 400 MHz fabric clock at or after an instant in quarter ns: sample instants are placed on that
clock (R140; log entry 86). -/
def fabricEdge (q : Nat) : Nat := gridFrom 0 10 q

/-- The instant at which an event now becomes effective: now plus ADC_x_START.delay × 2.5 ns. -/
def startInstant (s : State) (c : Nat) : Nat := s.tai.toNat + 10 * fld s (Reg.ADC_START c) F.ADC_START_delay

/-- The grid of a timer source in quarter ns: whole multiples of P ADC clocks of 10 ns (R144). -/
def timerGrid (s : State) (c : Nat) : Nat := 40 * fld s (Reg.ADC_PERIOD c) F.ADC_PERIOD_period

/-- N of a pair, and its shape (R199). -/
def pairN (s : State) (p : Nat) : Nat := fld s (Reg.PWM_PAIR_PERIOD p) F.PWM_PAIR_PERIOD_n
def isSaw (s : State) (p : Nat) : Bool := flg s (Reg.PWM_PAIR_CFG p) F.PWM_PAIR_CFG_shape

/-- The next valley or peak of a pair's carrier in quarter ns: the valleys fall on the grid of N ticks from each whole
millisecond plus PWM_PAIR_PHASE_p.phase, and a TRIANGLE's peaks N / 2 ticks after them (R199). -/
def nextCarrier (s : State) (p : Fin 12) (peak : Bool) : Nat :=
  let ph := fld s (Reg.PWM_PAIR_PHASE p) F.PWM_PAIR_PHASE_phase
  let x := s.loop.pairs[p]
  if peak then gridNext s (5 * (ph + pairN s p / 2)) (5 * pairN s p) x.peakTick
  else gridNext s (5 * ph) (5 * pairN s p) x.valleyTick

/-- R145: a missed start event, logged at most once per second per core. -/
def missStart (c : Fin 4) (s : State) : State :=
  let n := fld s (Reg.ADC_STATE c) F.ADC_STATE_missed
  let s := setF s (Reg.ADC_STATE c) F.ADC_STATE_missed (min 0xFFFF (n + 1))
  let x := s.adc.cores[c]
  let due : Bool := match x.missedLogged with
    | none => true
    | some t => t + 1000000000 ≤ localNs s
  if due then
    logN 0x3003 c (x.missedNew + 1) (setCore c { x with missedNew := 0, missedLogged := some (localNs s) } s)
  else setCore c { x with missedNew := x.missedNew + 1 } s

/-- R145: a start event reaches a RUNNING core: a waiting entry takes it, else the core holds it, else it is missed. -/
def takeStart (c : Fin 4) (at' : Nat) (s : State) : State :=
  if adcState s c ≠ adcRunning then s
  else
    let x := s.adc.cores[c]
    if x.waiting then setCore c { x with waiting := false, start := some at' } s
    else if x.held.isSome || !((x.live.take (x.liveLast + 1)).any seqWait) then missStart c s
    else setF (setCore c { x with held := some at' } s) (Reg.ADC_STATE c) F.ADC_STATE_held 1

/-- Does a start event match the source of ADC_x_START? -/
def startMatches (s : State) (c : Nat) (k : StartKind) : Bool :=
  let src := fld s (Reg.ADC_START c) F.ADC_START_src
  let ev := fld s (Reg.ADC_START c) F.ADC_START_event
  let p := fld s (Reg.ADC_START c) F.ADC_START_pair
  match k with
  | .timer => src == 1
  | .valley q => src == 2 && ev.testBit 0 && p == q.val
  | .peak q => src == 2 && ev.testBit 1 && p == q.val

/-- A start event of a source reaches a core at this tick; one event of a tick reaches it once. -/
def startEvent (c : Fin 4) (k : StartKind) (s : State) : State :=
  if !startMatches s c k ∨ s.adc.cores[c].eventTick = some s.ticks then s
  else takeStart c (startInstant s c) (setCore c { s.adc.cores[c] with eventTick := some s.ticks } s)

/-- R144, R145: the next start event of a core's source reaches it and is held or missed: a timer event at the next
instant of its grid, a valley or a peak at the next of a running carrier. -/
def execAdcStartEvent (c : Fin 4) (k : StartKind) (s : State) : Out :=
  if !startMatches s c k then .next s
  else match k with
  | .timer => .next (startEvent c k (advanceTo s (gridNext s 0 (timerGrid s c) s.adc.cores[c].eventTick)))
  | .valley p => .next (if s.loop.pairs[p].running then startEvent c k (advanceTo s (nextCarrier s p false)) else s)
  | .peak p =>
    .next (if s.loop.pairs[p].running then startEvent c k (advanceTo s (nextCarrier s p (!isSaw s p))) else s)

/-- IDLE to RUNNING: next pointer at entry 0, which awaits the first start event whether or not its wait is set; with
source None the run itself, or the trigger's tick, is the event (Table 5.7). -/
def startCore (c : Fin 4) (s : State) : State :=
  let s := setAdcState c adcRunning s
  let s := setF s (Reg.ADC_STATE c) F.ADC_STATE_missed 0
  let s := setF s (Reg.ADC_STATE c) F.ADC_STATE_entry 0
  let s := setF s (Reg.ADC_STATE c) F.ADC_STATE_held 0
  let x := s.adc.cores[c]
  let s := setCore c { x with
    rep := 0, waiting := true, start := none, held := none, prevCh := none } s
  if fld s (Reg.ADC_START c) F.ADC_START_src = 0 then takeStart c (startInstant s c) s else s

/-- R146: run, by a write or by a trigger. -/
def runCore (c : Fin 4) (s : State) : State :=
  if adcState s c ≠ adcIdle then s
  else if calValid s c then startCore c s
  else setF s Reg.ADC_STATUS F.ADC_STATUS_not_cal 1

/-- Any state but CAL back to IDLE: the held start event is discarded (Table 5.7). -/
def coreToIdle (c : Fin 4) (s : State) : State :=
  let s := setAdcState c adcIdle s
  let s := setF s (Reg.ADC_STATE c) F.ADC_STATE_held 0
  let s := setCore c { s.adc.cores[c] with held := none, start := none, waiting := false, prevCh := none } s
  if flg s (Reg.ADC_CTRL c) F.ADC_CTRL_commit then takeCommit c s else s

/-- The sample instant of the next conversion (R143), whether it is late against its start, and whether it changes gain
or is the first since IDLE. -/
def sampleInstant (s : State) (c : Fin 4) : Nat × Bool × Bool :=
  let x := s.adc.cores[c]
  let w := liveEntry x (fld s (Reg.ADC_STATE c) F.ADC_STATE_entry)
  let first := x.prevCh.isNone
  let chg := x.prevCh != some (seqChannel w, seqGain w)
  let gainChg := match x.prevCh with
    | none => true
    | some p => p.2 != seqGain w
  let d := 40 * seqDelay w
  let tc := convTime s c
  let back := x.prevAt.getD 0
  if x.rep ≠ 0 then (fabricEdge (back + tc), false, gainChg)
  else match x.start with
  | some t =>
    let a := t + d
    let b := match x.prevAt with
      | none => 0
      | some p => p + tc + (if chg then 800 else 0)
    (fabricEdge (max a b), decide (a < b), gainChg || first)
  | none => (fabricEdge (back + tc + (if chg then max d 800 else d)), false, gainChg || first)

/-- R146: stop. No new conversion begins: one whose sample instant has been reached is in progress and completes; with none
in progress the core is IDLE at once. -/
def stopCore (c : Fin 4) (s : State) : State :=
  if adcState s c ≠ adcRunning then s
  else if s.adc.cores[c].waiting ∨ s.tai.toNat < (sampleInstant s c).1 then coreToIdle c s
  else setAdcState c adcStopping s

/-- Would a write of run to this core be refused for lack of calibration (Table 5.7)? -/
def runRefused (s : State) (c : Nat) (v : Word) : Bool :=
  getF v F.ADC_CTRL_run == 1 && getF v F.ADC_CTRL_stop == 0 && adcState s c == adcIdle && !calValid s c

/-- R146, R148: cal. -/
def calCore (c : Fin 4) (s : State) : State :=
  if adcState s c = adcIdle then setAdcState c adcCalibrating s
  else if adcState s c = adcCalibrating then s
  else adcErr s

/-- A write of ADC_x_CTRL (R142, R146, R149). lp changes only in IDLE; stop prevails over run. -/
def writeAdcCtrl (c : Fin 4) (v : Word) (s : State) : State :=
  let s := if lockedAt s (Reg.ADC_CTRL c) then s
    else setF s (Reg.ADC_CTRL c) F.ADC_CTRL_seq_last (getF v F.ADC_CTRL_seq_last)
  let lp := getF v F.ADC_CTRL_lp
  let s := if lp = fld s (Reg.ADC_CTRL c) F.ADC_CTRL_lp then s
    else if adcState s c = adcIdle then setF s (Reg.ADC_CTRL c) F.ADC_CTRL_lp lp
    else adcErr s
  let s := whenS (getF v F.ADC_CTRL_commit == 1) (commitTable c) s
  let s := if getF v F.ADC_CTRL_stop = 1 then stopCore c s
    else whenS (getF v F.ADC_CTRL_run == 1) (runCore c) s
  whenS (getF v F.ADC_CTRL_cal == 1) (calCore c) s

/-! ### Conversions (R139, R143, R147) -/

/-- A code saturated to 16 bits (R139). -/
def satCode (v : Int) : Int := max (-32768) (min 32767 v)

/-- After a conversion: the next repeat, entry or pass; a commit takes effect at the wrap (R142), and a waiting entry
takes the held start event (R145). -/
def nextEntry (c : Fin 4) (s : State) : State :=
  let x := s.adc.cores[c]
  let e := fld s (Reg.ADC_STATE c) F.ADC_STATE_entry
  let w := liveEntry x e
  if x.rep < seqRepeat w then setCore c { x with rep := x.rep + 1, start := none } s
  else
    let wrap := x.liveLast ≤ e
    let s := whenS (wrap && flg s (Reg.ADC_CTRL c) F.ADC_CTRL_commit) (takeCommit c) s
    let e' := if wrap then 0 else e + 1
    let s := setF s (Reg.ADC_STATE c) F.ADC_STATE_entry e'
    let x := s.adc.cores[c]
    if seqWait (liveEntry x e') then
      match x.held with
      | some t =>
        setF (setCore c { x with rep := 0, start := some t, held := none, waiting := false } s)
          (Reg.ADC_STATE c) F.ADC_STATE_held 0
      | none => setCore c { x with rep := 0, start := none, waiting := true } s
    else setCore c { x with rep := 0, start := none, waiting := false } s

/-- The tag of a represented instant in quarter ns: units of 25 ns, nearest, ties up, modulo 65,536 (R166). -/
def tagOfQuarter (q : Nat) : Nat := (q + 50) / 100 % 65536

/-- R143, R139, R147: a conversion is sampled and, t_CONV later, delivered with its sideband. A STOPPING core's conversion in
progress completes and the core goes IDLE. -/
def execAdcConversion (c : Fin 4) (code : Int) (s : State) : Out :=
  let st := adcState s c
  if (st = adcRunning ∧ !s.adc.cores[c].waiting) ∨ st = adcStopping then
    let x := s.adc.cores[c]
    let e := fld s (Reg.ADC_STATE c) F.ADC_STATE_entry
    let w := liveEntry x e
    let r := sampleInstant s c
    let s := advanceTo s (r.1 + convTime s c)
    let s := whenS r.2.1 (fun s =>
      logN 0x3004 c e (setF s (Reg.ADC_STATE c) F.ADC_STATE_stretched 1)) s
    let v := BitVec.ofInt 16 (satCode code)
    let hold := holdoverNow s
    let last := putF (putF (putF (putF 0 F.ADC_LAST_entry e) F.ADC_LAST_holdover (b2n hold))
      F.ADC_LAST_unsettled (b2n r.2.2)) F.ADC_LAST_result v.toNat
    let s := wr s (Reg.ADC_LAST c) last
    let word : RidgeWord := ⟨v ++ BitVec.ofNat 16 (tagOfQuarter r.1), true, r.2.2, hold, false⟩
    let s := setCore c { x with prevAt := some r.1, prevCh := some (seqChannel w, seqGain w), out := word } s
    let s := { s with fab := { s.fab with ingress := s.fab.ingress.set c word } }
    if st = adcStopping then .next (coreToIdle c s) else .next (nextEntry c s)
  else .next s

/-! ### Calibration (R148) -/

/-- The first gain whose factors lie outside the limits: offsets within ±2 % of full scale (655 LSB), gain factors within
0.95 to 1.05. -/
def calFault (f : CalSet) : Option (Nat × Nat) :=
  ((List.finRange 4).findSome? (fun (g : Fin 4) =>
    if 655 < f.offsets[g].natAbs then some (g.val, 1)
    else if f.gains[g] * 100 < 95 * 32768 ∨ 105 * 32768 < f.gains[g] * 100 then some (g.val, 2)
    else none))

/-- Factors reach ADC_x_CAL_g, and the core has valid calibration. -/
def takeFactors (c : Fin 4) (f : CalSet) (s : State) : State :=
  let s := forEach (List.finRange 4) (fun (g : Fin 4) s =>
    wr s (Reg.ADC_CAL c g) (BitVec.ofNat 16 f.gains[g] ++ BitVec.ofInt 16 f.offsets[g])) s
  setFbit s Reg.ADC_STATUS F.ADC_STATUS_cal_valid c true

/-- A core takes the factors of its record in MRAM, if that is intact (R148, R92, R96). -/
def takeRecord (c : Fin 4) (s : State) : State :=
  match s.adc.calRecord[c] with
  | some f => takeFactors c f s
  | none => s

/-- Accept or reject the factors of one self-calibration. A rejected set leaves the previous factors, and a core whose
record in MRAM is intact has valid calibration by it. -/
def finishCal (c : Fin 4) (f : CalSet) (s : State) : State :=
  match calFault f with
  | some (g, why) => logN 0x3002 c (g * 256 + why) (if calValid s c then s else takeRecord c s)
  | none =>
    let s := { s with adc := { s.adc with calRecord := s.adc.calRecord.set c (some f) } }
    logN 0x3001 c 0 (takeFactors c f s)

/-- R148: self-calibration completes. -/
def execAdcCalDone (c : Fin 4) (f : CalSet) (s : State) : Out :=
  if adcState s c = adcCalibrating then
    let s := finishCal c f (setAdcState c adcIdle s)
    .next (whenS (flg s (Reg.ADC_CTRL c) F.ADC_CTRL_commit) (takeCommit c) s)
  else .next s

/-! ### Other writes of the block -/

/-- A write of ADC_x_START: a delay above 4,000 is ignored (R144), and the other fields are written. -/
def writeAdcStart (c : Nat) (v : Word) (s : State) : State :=
  let a := Reg.ADC_START c
  if lockedAt s a then s
  else if 4000 < getF v F.ADC_START_delay then
    adcErr (wr s a (putF (v &&& 0xFF000FFF) F.ADC_START_delay (fld s a F.ADC_START_delay)))
  else wr s a (v &&& 0xFF000FFF)

/-- A write of ADC_x_PERIOD: P lies from 20 to 100,000 and divides 100,000, or is a whole multiple of 100,000 up to
10,000,000 (R144). -/
def writeAdcPeriod (c : Nat) (v : Word) (s : State) : State :=
  let p := getF v F.ADC_PERIOD_period
  let ok := (20 ≤ p && p ≤ 100000 && 100000 % p == 0) || (p != 0 && p % 100000 == 0 && p ≤ 10000000)
  if lockedAt s (Reg.ADC_PERIOD c) then s
  else if ok then wr s (Reg.ADC_PERIOD c) (v &&& 0xFFFFFF)
  else adcErr s

/-- A write of ADC_AIN_n_CFG: a change is made only while no stage is energised (R133). -/
def writeAinCfg (n : Nat) (v : Word) (s : State) : State :=
  let w := v &&& 0x13
  if lockedAt s (Reg.ADC_AIN_CFG n) then s
  else if w ≠ rd s (Reg.ADC_AIN_CFG n) ∧ anyEnergised s then adcErr s
  else wr s (Reg.ADC_AIN_CFG n) w

/-- A write of ADC_HARD_n: en is not cleared while a stage is energised; a comparator fires only while en is 1 (R135). -/
def writeHard (n : Nat) (v : Word) (s : State) : State :=
  if getF v F.ADC_HARD_en = 0 ∧ flg s (Reg.ADC_HARD n) F.ADC_HARD_en ∧ anyEnergised s then adcErr s
  else
    let s := wr s (Reg.ADC_HARD n) (v &&& 0x80000FFF)
    whenS (getF v F.ADC_HARD_en == 0)
      (fun s => setFbit s Reg.ADC_CMP_STATUS F.ADC_CMP_STATUS_hard_live n false) s

/-- A write of ADC_MOD_m_CFG: a delay above 80 is ignored (R151), and en is written. -/
def writeModCfg (i : Nat) (v : Word) (s : State) : State :=
  let a := Reg.ADC_MOD_CFG i
  if lockedAt s a then s
  else if 80 < getF v F.ADC_MOD_CFG_delay then adcErr (setF s a F.ADC_MOD_CFG_en (getF v F.ADC_MOD_CFG_en))
  else wr s a (v &&& 0x8000007F)

/-- A write of ADC_CMP_STATUS: a latched bit whose live bit is 1 stays (R135). -/
def writeCmpStatus (v : Word) (s : State) : State :=
  let latched := fld s Reg.ADC_CMP_STATUS F.ADC_CMP_STATUS_hard_latched
  let live := fld s Reg.ADC_CMP_STATUS F.ADC_CMP_STATUS_hard_live
  let clear := getF v F.ADC_CMP_STATUS_hard_latched
  setF s Reg.ADC_CMP_STATUS F.ADC_CMP_STATUS_hard_latched (latched - (latched &&& clear) ||| (latched &&& live))

/-- R135: a hard comparator fires: live and latched, the first latching logged. The block of the gates is Gate.lean's. -/
def latchHard (n : Fin 16) (s : State) : State :=
  let was := fbit s Reg.ADC_CMP_STATUS F.ADC_CMP_STATUS_hard_latched n
  let s := setFbit s Reg.ADC_CMP_STATUS F.ADC_CMP_STATUS_hard_live n true
  let s := setFbit s Reg.ADC_CMP_STATUS F.ADC_CMP_STATUS_hard_latched n true
  whenS (!was) (logN 0x3005 n 0) s

end Sys2Proof.Machine
end

