-- ==== Sys2Proof/Machine/Flags.lean ====
section
/-! DEFINITION. Flag computations shared by the blocks: sticky status bits, write-one-to-clear, counts that saturate, and
events that are logged at most once per second. -/

namespace Sys2Proof.Machine

open Sys2Proof

/-- What a write leaves of a word by its access masks (R11, R12): RW bits are taken, W1C bits written 1 clear, all other
bits keep their value. -/
def accessWrite (old v rw w1c : Word) : Word := ((old &&& ~~~rw) ||| (v &&& rw)) &&& ~~~(v &&& w1c)

/-- Add 1 to a field that saturates at its width. -/
def bumpSat (a : Nat) (f : Fld) (s : State) : State := setF s a f (min (2 ^ f.w - 1) (fld s a f + 1))

/-- Add 1 to a field that wraps at its width. -/
def bump (a : Nat) (f : Fld) (s : State) : State := setF s a f (fld s a f + 1)

/-- Is an event that is logged at most once per second due, given the local instant of its last logging? -/
def oncePerSecond (last : Option Nat) (s : State) : Bool :=
  match last with
  | none => true
  | some t => t + 1000000000 ≤ localNs s

/-- The bits of a field, lowest first, as a list of the numbers of the set ones. -/
def setBits (n w : Nat) : List Nat := (List.range w).filter (fun i => n.testBit i)

/-- CLK_CKOUT_n.aligned (R106): the output comes from PLL_T and its divider divides 800,000. -/
def ckoutAligned (v : Word) : Bool :=
  let dv := getF v F.CLK_CKOUT_div
  getF v F.CLK_CKOUT_src == 1 && dv != 0 && 800000 % dv == 0

/-! ### Status codes (Table 15.6, R419) -/

def stOk : Nat := 0x00
def stBusy : Nat := 0x01
def stUnknownOp : Nat := 0x02
def stBadLength : Nat := 0x03
def stBadCrc : Nat := 0x04
def stStaleEpoch : Nat := 0x05
def stWrongRole : Nat := 0x06
def stNotPermitted : Nat := 0x07
def stNoHandle : Nat := 0x08
def stBadState : Nat := 0x09
def stLate : Nat := 0x0A
def stSignature : Nat := 0x0B
def stLengthExceeds : Nat := 0x0C
def stRollback : Nat := 0x0D
def stMigrateFail : Nat := 0x0E
def stOverflow : Nat := 0x0F
def stTimeout : Nat := 0x10
def stNotCalibrated : Nat := 0x11

end Sys2Proof.Machine
end

