-- ==== Sys2Proof/Machine/Oper.lean ====
section
/-! DEFINITION. Long operations (R415 to R418): slots, handles, the states of Table 15.5, termination. -/

namespace Sys2Proof.Machine

open Sys2Proof

/-- Kind codes of Table 15.4. -/
def opDownload : Fin 7 := 1
def opVerify : Fin 7 := 2
def opActivate : Fin 7 := 3
def opArm : Fin 7 := 4
def opExport : Fin 7 := 5
def opSwitch : Fin 7 := 6

/-- Register codes of the states. -/
def opCode : OpState → Nat
  | .queued => 0
  | .running => 1
  | .suspended => 2
  | .completed => 3
  | .cancelled => 4
  | .failed => 5

/-- Has the operation terminated? -/
def opDone (o : Oper) : Bool :=
  match o.state with
  | .completed => true
  | .cancelled => true
  | .failed => true
  | _ => false

/-- The opcode that opens a kind. -/
def openingOpcode (k : Fin 7) : Nat :=
  match k with
  | 1 => 0x0070
  | 2 => 0x0072
  | 3 => 0x0073
  | 4 => 0x0060
  | 5 => 0x0067
  | _ => 0x0080

/-- Show a slot in its registers, and the count of occupied slots. -/
def showOp (n : Fin 16) (s : State) : State :=
  let occupied := (s.cmd.ops.toList.filter (fun (o : Option Oper) => o.isSome)).length
  let s := setF s Reg.CMD_STATUS F.CMD_STATUS_ops_open occupied
  match s.cmd.ops[n] with
  | none => wr (wr s (Reg.CMD_OP_HANDLE n) 0) (Reg.CMD_OP_STATE n) 7
  | some o =>
    let s := wr s (Reg.CMD_OP_HANDLE n) o.handle
    let w : Word := 0
    let w := putF w F.CMD_OP_STATE_state (opCode o.state)
    let w := putF w F.CMD_OP_STATE_kind o.kind
    let w := putF w F.CMD_OP_STATE_hold (b2n o.hostHold + 2 * b2n o.partHold)
    let w := putF w F.CMD_OP_STATE_progress o.progress
    wr s (Reg.CMD_OP_STATE n) (putF w F.CMD_OP_STATE_status o.status)

/-- Put an operation into a slot, or free the slot. -/
def setOper (n : Fin 16) (o : Option Oper) (s : State) : State :=
  showOp n { s with cmd := { s.cmd with ops := s.cmd.ops.set n o } }

/-- The slot of a handle. -/
def slotOf (s : State) (h : Word) : Option (Fin 16) :=
  (List.finRange 16).find? (fun (n : Fin 16) => match s.cmd.ops[n] with | none => false | some o => o.handle == h)

/-- The slots of a kind that have not terminated. -/
def openOfKind (s : State) (k : Fin 7) : List (Fin 16) :=
  (List.finRange 16).filter (fun (n : Fin 16) => match s.cmd.ops[n] with | none => false | some o => o.kind == k && !opDone o)

/-- Any long operation that has not terminated (R431). -/
def anyOpOpen (s : State) : Bool := s.cmd.ops.toList.any (fun (o : Option Oper) => match o with | none => false | some o => !opDone o)

/-- The first free slot. -/
def freeSlot (s : State) : Option (Fin 16) := (List.finRange 16).find? (fun (n : Fin 16) => (s.cmd.ops[n]).isNone)

/-- The next handle: increasing from a value drawn at each start, 0 skipped (R415). -/
def takeHandle (s : State) : Word × State :=
  let r : Word × State := match s.cmd.nextHandle with
    | some h => (h, s)
    | none => let f := takeFree s; ((Config.freeValue f.1).extractLsb' 0 32, f.2)
  let h := if r.1 = 0 then 1 else r.1
  (h, { r.2 with cmd := { r.2.cmd with nextHandle := some (h + 1) } })

/-- Open an operation in a slot: the handle. -/
def openOp (n : Fin 16) (k : Fin 7) (st : OpState) (ch : Option (Fin 21)) (obj : Nat) (s : State) : Word × State :=
  let r := takeHandle s
  (r.1, setOper n (some { handle := r.1, kind := k, state := st, openedAt := now r.2, chan := ch, obj := obj }) r.2)

/-- The oldest queued export runs where none does (Table 15.4). -/
def startQueuedExport (s : State) : State :=
  let running := (List.finRange 16).any (fun (n : Fin 16) => match s.cmd.ops[n] with
    | none => false | some o => o.kind == opExport && o.state == .running)
  if running then s
  else
    let queued := (List.finRange 16).filterMap (fun (n : Fin 16) => match s.cmd.ops[n] with
      | none => none | some o => if o.kind = opExport ∧ o.state = .queued then some (n, o) else none)
    match queued with
    | [] => s
    | q :: l =>
      let m := l.foldl (fun (a b : Fin 16 × Oper) => if b.2.handle.toNat < a.2.handle.toNat then b else a) q
      setOper m.1 (some { m.2 with state := .running }) s

/-- A state reached from QUEUED enters RUNNING as soon as its resources are free (R416). -/
def settleQueued (n : Fin 16) (s : State) : State :=
  match s.cmd.ops[n] with
  | none => s
  | some o =>
    if o.state ≠ .queued then s
    else if o.kind = opExport then startQueuedExport s
    else setOper n (some { o with state := .running }) s

/-- R416, R418: an operation terminates. -/
def endOp (n : Fin 16) (st : OpState) (status : Nat) (s : State) : State :=
  match s.cmd.ops[n] with
  | none => s
  | some o =>
    if opDone o then s
    else
      let o' := { o with
        state := st, status := status, endedAt := now s, endedLocal := localNs s, hostHold := false, partHold := false
        progress := if st = .completed then 1000 else o.progress }
      let s := setOper n (some o') s
      let s := logEvent 0x1402 (o.kind.val * 256 + opCode st) o.handle s
      let s := setF s Reg.CMD_IRQ F.CMD_IRQ_op_done 1
      let s := match o.chan with
        | none => s
        | some ch =>
          if ch = 0 ∨ !(s.cmd.channels[ch]).isOpen then s
          else { s with cmd := { s.cmd with
            notices := s.cmd.notices ++ [⟨ch, openingOpcode o.kind, o.handle, opCode st, status⟩] } }
      startQueuedExport s

/-- End the operation of a slot where there is one. -/
def endOp? (n : Option (Fin 16)) (st : OpState) (status : Nat) (s : State) : State :=
  match n with | none => s | some n => endOp n st status s

/-- Note that an operation has passed its commit point. -/
def commitOp (n : Option (Fin 16)) (s : State) : State :=
  match n with
  | none => s
  | some n => match s.cmd.ops[n] with
    | none => s
    | some o => setOper n (some { o with committed := true }) s

/-- The part's hold on exports (R289, R416): set or released. -/
def partHold (b : Bool) (s : State) : State :=
  forEach (List.finRange 16) (fun (n : Fin 16) s =>
    match s.cmd.ops[n] with
    | none => s
    | some o =>
      if o.kind ≠ opExport ∨ opDone o then s
      else if b then
        if o.state = .running then setOper n (some { o with state := .suspended, partHold := true }) s
        else if o.state = .suspended then setOper n (some { o with partHold := true }) s
        else s
      else if o.partHold then
        if o.hostHold then setOper n (some { o with partHold := false }) s
        else settleQueued n (setOper n (some { o with partHold := false, state := .queued }) s)
      else s) s

end Sys2Proof.Machine
end

