-- ==== Sys2Proof/Machine/RecHook.lean ====
section
/-! DEFINITION. What the other blocks tell the recorder: triggers of Table 10.3, what the servo does, and what ends a capture
(R285, R292, R293, R298). -/

namespace Sys2Proof.Machine

open Sys2Proof

/-- Source bits of Table 10.3. -/
def srcTrip : Fin 11 := 0
def srcStart : Fin 11 := 1
def srcLmd : Fin 11 := 2
def srcLimit : Fin 11 := 3
def srcBlock : Fin 11 := 4
def srcLevel : Fin 11 := 5
def srcMask : Fin 11 := 6
def srcEdge : Fin 11 := 7
def srcWrite : Fin 11 := 8
def srcRequest : Fin 11 := 9
def srcTrig : Fin 11 := 10

/-- State codes of REC_STATUS.state. -/
def recIdle : Nat := 0
def recArmed : Nat := 1
def recCapturing : Nat := 2
def recClosing : Nat := 3

/-- The recorder's state. -/
def recState (s : State) : Nat := fld s Reg.REC_STATUS F.REC_STATUS_state

/-- R285, R286: a trigger of a source at a TAI instant in ns, where the source is enabled and a plan is armed or captures. -/
def recTrig (src : Fin 11) (at' : Nat) (s : State) : State :=
  if (recState s = recArmed ∨ recState s = recCapturing) ∧ fbit s Reg.REC_TRIG_SRC F.REC_TRIG_SRC_en src then
    { s with recd := { s.recd with trigs := s.recd.trigs ++ [⟨src, at'⟩] } }
  else s

/-- A trigger at this instant. -/
def recTrigNow (src : Fin 11) (s : State) : State := recTrig src (nowNat s) s

/-- Note a measurement of the servo while a plan is armed or captures (R298). -/
def recNote (kind : Fin 3) (theta4 : Int) (s : State) : State :=
  let s := if kind = 0 then { s with recd := { s.recd with accAt := some (nowNat s) } } else s
  if recState s = recArmed ∨ recState s = recCapturing then
    { s with recd := { s.recd with notes := s.recd.notes ++ [⟨nowNat s, theta4.natAbs, kind⟩] } }
  else s

/-! ### Ends of a capture (R292, R293) -/

/-- Change the recorder. -/
def setRec (x : RecState) (s : State) : State := { s with recd := x }

/-- Set REC_STATUS.state. -/
def setRecState (n : Nat) (s : State) : State := setF s Reg.REC_STATUS F.REC_STATUS_state n

/-- Forget what the present plan has gathered. -/
def clearPlan (s : State) : State :=
  setRec { s.recd with
    acc := [], accN := 0, rows := [], formed := 0, post := 0, drained := 0, changes := [], binFirst := s.recd.bin
    levels := Vector.replicate 8 {}, masks := Vector.replicate 4 {}, notes := [] } s

/-- ARMED returns to IDLE: pre rows discarded, no record; an arm operation ends CANCELLED. -/
def recDisarmed (s : State) : State :=
  if recState s = recArmed then
    let op := s.recd.op
    let s := clearPlan (setRec { s.recd with next := none, trigs := [], op := none } s)
    endOp? op .cancelled 0 (setRecState recIdle s)
  else s

/-- A capture closes for a cause: its last row is the last one formed. -/
def recClose (cause : Nat) (s : State) : State :=
  match s.recd.cur with
  | none => s
  | some r =>
    if recState s = recCapturing then
      setRecState recClosing (setRec { s.recd with
        cur := some { r with cause := cause }, next := none, trigs := [], closedAt := localNs s } s)
    else s

/-- R292, R293: the counter is moved: a capture closes with cause 5; an armed plan discards its rows and collects afresh. -/
def recTimeMoved (s : State) : State :=
  if recState s = recCapturing then recClose 5 s
  else if recState s = recArmed then setRec { (clearPlan s).recd with next := none } s
  else s

/-- R292, R293: a full image reaches its swap point. -/
def recFullImage (s : State) : State := if recState s = recCapturing then recClose 7 s else recDisarmed s

end Sys2Proof.Machine
end

