-- ==== Sys2Proof/Machine/Clock.lean ====
section
/-! DEFINITION. Clocks, references, network time and the servo (chapter 04). Triggers stand in Trig.lean. -/

namespace Sys2Proof.Machine

open Sys2Proof

/-! ### Time states (Table 4.6) -/

def timeUnset : Nat := 0
def timeHoldover : Nat := 1
def timeSlewing : Nat := 2
def timeLocked : Nat := 3
def timeGrandmaster : Nat := 4

/-- TIME_STATE.state. -/
def timeState (s : State) : Nat := fld s Reg.TIME_STATE F.TIME_STATE_state

/-- TIME_STATE.source. -/
def timeSource (s : State) : Nat := fld s Reg.TIME_STATE F.TIME_STATE_source

/-- Is time locked in the sense of R129: LOCKED or GRANDMASTER? -/
def timeIsLocked (s : State) : Bool := timeState s == timeLocked || timeState s == timeGrandmaster

/-- Change the servo. -/
def setServo (v : ServoState) (s : State) : State := { s with time := { s.time with servo := v } }

/-- Enter a time state: the consecutive counts start anew, and HOLDOVER is carried in every state but LOCKED and
GRANDMASTER (R120). -/
def toTimeState (n : Nat) (s : State) : State :=
  let s := if timeState s = n then s else setServo { s.time.servo with inWin := 0, outWin := 0 } s
  let s := setF s Reg.TIME_STATE F.TIME_STATE_state n
  setF s Reg.TIME_STATE F.TIME_STATE_holdover (b2n (!(n == timeLocked || n == timeGrandmaster)))

/-! ### The servo (R121 to R126) -/

/-- TIME_SERVO_CFG.slew_run in ppm; a value out of range is taken as 1,000 (R125). -/
def slewRun (s : State) : Nat :=
  let v := fld s Reg.TIME_SERVO_CFG F.TIME_SERVO_CFG_slew_run
  if 1 ≤ v ∧ v ≤ 1000 then v else 1000

/-- The slew limit of R125 in 1/32,768 ppb. -/
def slewLimit (s : State) : Int := (if anyEnergised s then slewRun s else 9000) * 1000 * 32768

/-- Candidates needed to confirm a jump; 0 is taken as 1. -/
def confirmCount (s : State) : Nat := max 1 (fld s Reg.TIME_SERVO_CFG F.TIME_SERVO_CFG_confirm)

/-- The jump limit in ns (R124): 100 ns to 1 s. -/
def jumpLimit (s : State) : Nat := min 1000000000 (max 100 (rd s Reg.TIME_JUMP_LIMIT).toNat)

/-- Clamp to plus or minus a limit. -/
def clampI (lim v : Int) : Int := max (-lim) (min lim v)

/-- Set the correction of PLL_D and show it in TIME_FREQ, in units of 0.01 ppb. -/
def setY (y : Int) (s : State) : State :=
  let v := s.time.servo
  let s := setServo { v with y := y, hist := ((s.ticks, y) :: v.hist).take 32 } s
  wr s Reg.TIME_FREQ (satI32 (quot (y * 100) 32768))

/-- TIME_OFFSET from an offset in quarter ns. -/
def showOffset (th4 : Int) (s : State) : State :=
  wr s Reg.TIME_OFFSET (BitVec.ofInt 32 (max (-2147483647) (min 2147483647 (quot th4 4))))

/-- An offset in microseconds, as the events give it. -/
def offsetUs (th4 : Int) : Word := satI32 (quot th4 4000)

/-- R122: feed an accepted offset (quarter ns) with its interval (units of 0.5 ms) to the servo, then the consecutive
counts of Table 4.7. The measurement that itself entered SLEWING counts as the first of the four (log entry 85). -/
def servoAccept (th4 : Int) (ts : Nat) (s : State) : State :=
  let s := recNote 0 th4 s
  let v := s.time.servo
  let lim := slewLimit s
  let kp : Int := fld s Reg.TIME_SERVO_CFG F.TIME_SERVO_CFG_kp
  let ki : Int := fld s Reg.TIME_SERVO_CFG F.TIME_SERVO_CFG_ki
  let coarse : Bool := 4000 < th4.natAbs
  let i := if coarse then v.i else v.i + ki * th4 * 4000 / ts
  let y := if coarse then clampI lim (v.i + th4 * 16384000 / ts) else clampI lim (i + kp * th4 * 64000 / ts)
  let s := setServo { v with i := i, pred := th4 * 16384000 - y * ts, fresh := false, cand := none, candCount := 0 } s
  let s := showOffset th4 (setY y s)
  let v := s.time.servo
  if timeState s = timeSlewing then
    let n := if th4.natAbs ≤ 100 then v.inWin + 1 else 0
    let s := setServo { v with inWin := n } s
    if 4 ≤ n then logEvent 0x2101 (timeSource s) (satI32 (quot th4 4)) (toTimeState timeLocked s) else s
  else if timeState s = timeLocked then
    let n := if 200 < th4.natAbs then v.outWin + 1 else 0
    let s := setServo { v with outWin := n } s
    if 2 ≤ n then logEvent 0x2102 timeSlewing (satI32 (quot th4 4)) (toTimeState timeSlewing s) else s
  else s

/-- R125: y glides down to slew_run when a stage is energised during a slew. -/
def clampOnEnergise (s : State) : State :=
  if timeState s = timeSlewing ∧ anyEnergised s ∧ slewLimit s < s.time.servo.y.natAbs then
    setY (clampI (slewLimit s) s.time.servo.y) s
  else s

/-- R130: a forward move of the counter puts the triggers it passed into SKIPPED; pairs they held go on (R470). -/
def skipTriggers (s : State) : State :=
  forEach (List.range 8) (fun n s =>
    let t := rd64 s (Reg.TIME_TRIG_TARGET n)
    if fld s (Reg.TIME_TRIG_STATUS n) F.TIME_TRIG_STATUS_state = 1 ∧ t.toNat < nowNat s then
      let s := { s with loop := { s.loop with
        pairs := s.loop.pairs.map (fun x => { x with hold := x.hold.filter (fun m => m.val != n) }) } }
      logEvent 0x2202 n (t.extractLsb' 0 32) (setF s (Reg.TIME_TRIG_STATUS n) F.TIME_TRIG_STATUS_state 4)
    else s) s

/-- An instant in quarter ns moved with the counter. -/
def shiftQ (ms : Int) (q : Nat) : Nat := (q + ms * 4000000).toNat

/-- What the model holds as instants of the counter moves with it: the boundary last taken, sample and start instants of
the SAR cores, anchors of the filter chains, publications and releases of the scan cores, and the boundaries at which
settings are due. -/
def shiftInstants (ms : Int) (s : State) : State :=
  let core := fun (x : AdcCore) => { x with
    prevAt := x.prevAt.map (shiftQ ms), start := x.start.map (shiftQ ms), held := x.held.map (shiftQ ms) }
  let chain := fun (x : ChainState) => { x with anchor := shiftQ ms x.anchor, fastAnchor := shiftQ ms x.fastAnchor }
  let task := fun (y : ScanTask) => { y with
    relAt := (y.relAt + ms * 1000000).toNat, lastRel := y.lastRel.map (fun l => (l + ms * 1000000).toNat) }
  let scan := fun (x : ScanCore) => { x with
    tasks := x.tasks.map task, liveFrom := (x.liveFrom + ms * 1000000).toNat
    input := { x.input with writing := x.input.writing.map (fun w => (w.1, (w.2 + ms * 1000000).toNat)) } }
  { s with
    scan := { s.scan with
      cores := s.scan.cores.map scan
      lastPub := s.scan.lastPub.map (fun l => (l + 4 * ms).toNat)
      lastCommit := s.scan.lastCommit.map (fun l => ((l * 10 + ms) / 10).toNat) }
    time := { s.time with lastBoundary := s.time.lastBoundary.map (fun l => (l + ms).toNat) }
    adc := { s.adc with cores := s.adc.cores.map core }
    filt := { chains := s.filt.chains.map chain, stepMs := s.filt.stepMs + ms }
    upd := { s.upd with settingsDue := s.upd.settingsDue.map (fun d => { d with at' := (d.at' + ms * 1000000).toNat }) } }

/-- Move the counter by whole milliseconds (R111, R126), with the triggers it passes (R130). The boundary last taken stays
taken: the next one lies a whole frame after it. -/
def moveCounter (ms : Int) (s : State) : State :=
  let s := recTimeMoved s
  let s := shiftInstants ms { s with tai := s.tai + BitVec.ofInt 66 (ms * 4000000) }
  whenS (0 < ms) skipTriggers s

/-- R126: the initial set, to the millisecond nearest to the offset; the remainder is slewed out. -/
def initialSet (th4 : Int) (ts : Nat) (s : State) : State :=
  let ms := nearest th4 4000000
  let s := moveCounter ms (logEvent 0x2107 0 (satI32 ms) s)
  servoAccept (th4 - ms * 4000000) ts (toTimeState timeSlewing s)

/-- R123: a jump candidate. -/
def jumpCandidate (th4 : Int) (ts : Nat) (s : State) : State :=
  let s := recNote 1 th4 s
  let v := s.time.servo
  let c := th4 * 16384000
  let lim : Int := jumpLimit s * 65536000
  let s := showOffset th4 s
  let agrees : Bool := match v.cand with
    | none => true
    | some p => decide ((c - (p - v.y * ts)).natAbs ≤ lim)
  let n := if agrees then v.candCount + 1 else 1
  let s := setServo { v with cand := some c, candCount := n, inWin := 0 } s
  let s := whenS (!agrees) (fun s =>
    logEvent 0x2106 (timeSource s) (offsetUs th4) (setF s Reg.TIME_STATE F.TIME_STATE_outlier_seen 1)) s
  if confirmCount s ≤ n then
    let s := recNote 2 th4 (setF s Reg.TIME_STATE F.TIME_STATE_jump_refused 1)
    let s := logEvent 0x2105 (timeSource s) (offsetUs th4) s
    let s := if timeState s = timeGrandmaster then s else toTimeState timeSlewing s
    servoAccept th4 ts s
  else s

/-- R121 to R123: judge a measurement of the source in use. -/
def judge (th4 : Int) (ts : Nat) (s : State) : State :=
  if timeState s = timeUnset then initialSet th4 ts s
  else
    let pred := if timeState s = timeHoldover ∨ s.time.servo.fresh then 0 else s.time.servo.pred
    let lim : Int := jumpLimit s * 65536000
    if lim < (th4 * 16384000 - pred).natAbs then jumpCandidate th4 ts s
    else servoAccept th4 ts (if timeState s = timeHoldover then toTimeState timeSlewing s else s)

/-! ### Sources (R112 to R117) -/

/-- The listed sources in order; GUYLINE first for a STANDBY with follow_partner (R112). -/
def sourceList (s : State) : List Nat :=
  let l := [fld s Reg.TIME_SRC_CFG F.TIME_SRC_CFG_first, fld s Reg.TIME_SRC_CFG F.TIME_SRC_CFG_second,
    fld s Reg.TIME_SRC_CFG F.TIME_SRC_CFG_third]
  if flg s Reg.TIME_SRC_CFG F.TIME_SRC_CFG_follow_partner && fld s Reg.DPX_STATUS F.DPX_STATUS_role == 2 then 3 :: l else l

/-- The first listed source that is valid; 0 for none. -/
def selectSource (s : State) : Nat :=
  ((sourceList s).find? (fun c => 1 ≤ c && c ≤ 4 && (s.time.valid[c]?).getD false)).getD 0

/-- Take another source: its first measurement is judged against 0 (R112, R123). -/
def takeSource (src : Nat) (s : State) : State :=
  if timeSource s = src then s
  else
    let s := setF s Reg.TIME_STATE F.TIME_STATE_source src
    setServo { s.time.servo with fresh := true, cand := none, candCount := 0 } s

/-- Does PLL_D or PLL_T coast (TIME_STATE.pll_coast)? -/
def pllCoasts (s : State) : Bool := flg s Reg.TIME_STATE F.TIME_STATE_pll_coast

/-- A measurement of a source: it keeps the source alive, and the servo takes it if the source is the one in use and no
disciplined PLL coasts (R112, R115, R121). -/
def measure (src : Fin 5) (th4 : Int) (ts : Nat) (s : State) : State :=
  let s := { s with time := { s.time with
    valid := s.time.valid.set src true, marks := s.time.marks.set src (some ⟨localNs s, th4, ts⟩) } }
  if pllCoasts s then s
  else if timeState s = timeGrandmaster then
    if src = 4 then judge th4 ts (takeSource 4 s) else s
  else if selectSource s = src.val then judge th4 ts (takeSource src s)
  else s

/-- Half the port's asymmetry in quarter ns (R119). -/
def halfAsym (n : Nat) (s : State) : Int := 2 * (rd s (Reg.TIME_ASYM n)).toInt

/-- The Sync interval in units of 0.5 ms (Table 4.4, TIME_PTP_CFG.log_sync). -/
def syncTs (s : State) : Nat :=
  match fld s Reg.TIME_PTP_CFG F.TIME_PTP_CFG_log_sync with
  | 12 => 125
  | 13 => 250
  | 14 => 500
  | 15 => 1000
  | 0 => 2000
  | 1 => 4000
  | n => Config.openSyncInterval n + 1

/-- Is a PTP message of the domain and the transport that TIME_PTP_CFG sets (R113)? -/
def ptpMine (domain : BitVec 8) (udp : Bool) (s : State) : Bool :=
  domain.toNat == fld s Reg.TIME_PTP_CFG F.TIME_PTP_CFG_domain && udp == flg s Reg.TIME_PTP_CFG F.TIME_PTP_CFG_transport

/-- The mean path delay of an exchange, or the mean link delay of a peer-to-peer one, in 1/65,536 ns; none for the mechanism
that TIME_PTP_CFG.p2p does not set. `t1` and `t2` are the stamps of the Sync, less its corrections. -/
def meanDelay (x : PtpSync) (t2 : BitVec 64) (s : State) : Option Int :=
  let p2p := flg s Reg.TIME_PTP_CFG F.TIME_PTP_CFG_p2p
  match x.delay with
  | some (.endToEnd t3 t4 c) => if p2p then none else
      some (quot (((t2.toNat : Int) - x.origin.toNat + t4.toNat - t3.toNat) * 65536 - x.correction - c) 2)
  | some (.peer a b c d k) => if !p2p then none else
      some (quot (((d.toNat : Int) - a.toNat - (c.toNat - b.toNat)) * 65536 - k) 2)
  | none => none

/-- The path delay of a port after an exchange whose Sync was stamped at `t`. -/
def takeDelay (port : Fin 2) (t : BitVec 66) (x : PtpSync) (s : State) : State :=
  match meanDelay x (BitVec.ofNat 64 (t.toNat / 4)) s with
  | none => s
  | some d => { s with time := { s.time with pathDelay := s.time.pathDelay.set port d } }

/-- R114, R118: in LINE mode the switch forwards the Sync out of the other port as a transparent clock: residence time and,
with peer-to-peer delay, the link's delay enter the correctionField. -/
def forwardSync (port : Fin 2) (x : PtpSync) (s : State) : State :=
  if flg s Reg.NET_STATUS F.NET_STATUS_mode then s
  else
    let link := if flg s Reg.TIME_PTP_CFG F.TIME_PTP_CFG_p2p then s.time.pathDelay[port] else 0
    { s with time := { s.time with
      forwarded := s.time.forwarded.set (1 - port) (some (x.correction + 65536 * x.residence + link)) } }

/-- The offset of a Sync in quarter ns: the master's stamp with its corrections and the path delay, less the stamp of its
receipt, less half the asymmetry (R118, R119, R122). -/
def syncOffset (port : Fin 2) (t : BitVec 66) (x : PtpSync) (s : State) : Int :=
  let th := ((x.origin.toNat : Int) - (t.toNat / 4 : Nat)) * 65536 + x.correction + s.time.pathDelay[port]
  quot th 16384 - halfAsym port s

/-- A Sync of a port, stamped to 1 ns at the counter instant `t` in quarter ns (R113, R118, R122). -/
def ptpSync (port : Fin 2) (t : BitVec 66) (x : PtpSync) (s : State) : Out :=
  if !ptpMine x.domain x.udp s then .next s
  else
    let s := forwardSync port x (takeDelay port t x s)
    .next (measure (Fin.ofNat 5 (port + 1)) (syncOffset port t x s) (syncTs s) s)

/-- What a Sync carries that the part transmits now as grandmaster: one-step, its own stamp; two-step, the stamp for its
Follow_Up (R113, R118). -/
def syncStamp (s : State) : Option (Bool × BitVec 64) :=
  if timeState s = timeGrandmaster then some (flg s Reg.TIME_PTP_CFG F.TIME_PTP_CFG_two_step, now s) else none

/-- R116: a GUYLINE timing exchange. The STANDBY uses path 0 while path 0 is up, path 1 otherwise. -/
def timing (path : Fin 2) (theta : Int) (s : State) : Out :=
  let up0 := fbit s Reg.DPX_STATUS F.DPX_STATUS_path_up 0
  let inUse := fbit s Reg.DPX_STATUS F.DPX_STATUS_path_up path && (path.val == 0 || !up0)
  if fld s Reg.DPX_STATUS F.DPX_STATUS_role = 2 ∧ inUse then
    .next (measure 3 (4 * theta - halfAsym (2 + path) s) 2 s)
  else .next s

/-- R117: the selected edge of PPS_IN is stamped to 1.25 ns; its offset is that to the nearest whole second. -/
def execPpsInEdge (x : PpsEdge) (s : State) : Out :=
  let s := advanceTo s x.at'.toNat
  if !flg s Reg.TIME_PPS F.TIME_PPS_in_en || flg s Reg.TIME_PPS F.TIME_PPS_in_edge != x.falling then .next s
  else
    let s := wr64 s Reg.TIME_PPS_IN_STAMP (now s)
    let frac : Int := s.tai.toNat % 4000000000
    let th4 : Int := if frac ≤ 2000000000 then -frac else 4000000000 - frac
    if timeState s = timeUnset then .next s else .next (measure 4 th4 2000 s)

/-- R114: in PRP mode, with one grandmaster on both ports, may the other port take over without HOLDOVER: did its last
offset agree with the servo's prediction within the jump limit? Any other change of source takes none. -/
def takeoverAgrees (src nxt : Nat) (s : State) : Bool :=
  let ports := (src == 1 && nxt == 2) || (src == 2 && nxt == 1)
  let oneGm := match s.time.best[0], s.time.best[1] with | some a, some b => a.id == b.id | _, _ => false
  if ports && oneGm && flg s Reg.NET_STATUS F.NET_STATUS_mode then
    match (s.time.marks[nxt]?).getD none with
    | none => false
    | some m => decide ((m.th4 * 16384000 - s.time.servo.pred).natAbs ≤ jumpLimit s * 65536000)
  else true

/-- R112: a source has given no measurement for three of its intervals, which local time has passed since its last one.
Only the loss of the source in use is shown and logged (log entry 81). -/
def execTimeSourceLost (src : Fin 5) (s : State) : Out :=
  if s.time.valid[src] then
    let s := match s.time.marks[src] with | none => s | some m => reachLocal (m.at' + 3 * m.ts * 500000) s
    let s := { s with time := { s.time with valid := s.time.valid.set src false } }
    if timeSource s = src.val ∧ src ≠ 0 then
      let nxt := if timeState s = timeGrandmaster then 0 else selectSource s
      let hold := nxt == 0 || !takeoverAgrees src nxt s
      let s := setF s Reg.TIME_STATE F.TIME_STATE_source_lost_seen 1
      let s := takeSource nxt (logN 0x2103 src nxt s)
      if hold ∧ (timeState s = timeLocked ∨ timeState s = timeSlewing) then
        .next (toTimeState timeHoldover s)
      else .next s
    else .next s
  else .next s

/-! ### The best master (R113, R115) -/

/-- This clock's own data set: its priorities from TIME_PTP_CFG, and what the spec does not give (log entry 82). -/
def ownAnnounce (s : State) : Announce where
  priority1 := BitVec.ofNat 8 (fld s Reg.TIME_PTP_CFG F.TIME_PTP_CFG_priority1)
  clockClass := Config.ownQuality.extractLsb' 0 8
  accuracy := Config.ownQuality.extractLsb' 8 8
  variance := Config.ownQuality.extractLsb' 16 16
  priority2 := BitVec.ofNat 8 (fld s Reg.TIME_PTP_CFG F.TIME_PTP_CFG_priority2)
  id := Config.clockIdentity

/-- The data set comparison of the default BMCA (IEEE 1588; log entry 82): is `a` better than `b`? One grandmaster on two
paths is told apart by the steps removed. -/
def betterClock (a b : Announce) : Bool :=
  if a.id = b.id then decide (a.steps < b.steps)
  else if a.priority1 ≠ b.priority1 then decide (a.priority1 < b.priority1)
  else if a.clockClass ≠ b.clockClass then decide (a.clockClass < b.clockClass)
  else if a.accuracy ≠ b.accuracy then decide (a.accuracy < b.accuracy)
  else if a.variance ≠ b.variance then decide (a.variance < b.variance)
  else if a.priority2 ≠ b.priority2 then decide (a.priority2 < b.priority2)
  else decide (a.id < b.id)

/-- The best Announce of a port after another arrives: one of the same master replaces it, of another where it is better. -/
def keepBest (old : Option Announce) (x : Announce) : Option Announce :=
  match old with
  | none => some x
  | some o => if o.id = x.id ∨ betterClock x o then some x else some o

/-- The best master of both ports, with its port. -/
def bestMaster (s : State) : Option (Fin 2 × Announce) :=
  match s.time.best[0], s.time.best[1] with
  | some a, some b => if betterClock b a then some (1, b) else some (0, a)
  | some a, none => some (0, a)
  | none, some b => some (1, b)
  | none, none => none

/-- This clock becomes the grandmaster: it follows PPS_IN where that is enabled and valid, and serves its own time
otherwise (R115). -/
def becomeGrandmaster (port : Fin 2) (s : State) : State :=
  if flg s Reg.TIME_SRC_CFG F.TIME_SRC_CFG_master_capable ∧ timeState s ≠ timeUnset ∧ timeState s ≠ timeGrandmaster then
    let s := wr64 s Reg.TIME_GM_ID Config.clockIdentity
    let s := logEvent 0x2104 port (Config.clockIdentity.extractLsb' 0 32) s
    let s := takeSource (if flg s Reg.TIME_PPS F.TIME_PPS_in_en && s.time.valid[4] then 4 else 0) s
    toTimeState timeGrandmaster s
  else s

/-- Another clock is the grandmaster: its identity and UTC data, and out of GRANDMASTER into HOLDOVER, so that the new
master's first measurement follows the jump rules (Table 4.7). -/
def followMaster (port : Fin 2) (x : Announce) (s : State) : State :=
  let changed := rd64 s Reg.TIME_GM_ID != x.id
  let s := wr64 s Reg.TIME_GM_ID x.id
  let s := setF s Reg.TIME_UTC_OFFSET F.TIME_UTC_OFFSET_valid (b2n x.utcValid)
  let s := setF s Reg.TIME_UTC_OFFSET F.TIME_UTC_OFFSET_offset x.utc.toNat
  let s := whenS changed (logEvent 0x2104 port (x.id.extractLsb' 0 32)) s
  if timeState s = timeGrandmaster then toTimeState timeHoldover (takeSource 0 s) else s

/-- Does this clock win over the best master heard? -/
def ownWins (s : State) : Bool :=
  match bestMaster s with
  | none => true
  | some m => flg s Reg.TIME_SRC_CFG F.TIME_SRC_CFG_master_capable && betterClock (ownAnnounce s) m.2

/-- A new master on the port in use: its first measurement is judged against 0 (R123). -/
def newMaster (port : Fin 2) (old new : Option Announce) (s : State) : State :=
  let changed := old.map (·.id) != new.map (·.id)
  whenS (changed && timeSource s == port.val + 1) (fun s =>
    setServo { s.time.servo with fresh := true, cand := none, candCount := 0 } s) s

/-- PTP_ANNOUNCE: the best-master choice after an Announce of the part's domain and transport, or after its receipt timed
out (R113, R115). -/
def ptpAnnounce (port : Fin 2) (x : Option Announce) (s : State) : Out :=
  let old := s.time.best[port]
  let new := match x with
    | none => none
    | some a => if ptpMine a.domain a.udp s then keepBest old a else old
  let s := newMaster port old new { s with time := { s.time with best := s.time.best.set port new } }
  if ownWins s then .next (becomeGrandmaster port s)
  else
    match bestMaster s with
    | none => .next s
    | some m => .next (followMaster m.1 m.2 s)

/-- R117: PPS_OUT starts a pulse at the next whole TAI second. -/
def execPpsOutPulse (s : State) : Out :=
  let sec := (s.tai.toNat + 3999999999) / 4000000000
  let s := advanceTo s (sec * 4000000000)
  if flg s Reg.TIME_PPS F.TIME_PPS_out_en then .next { s with time := { s.time with ppsRise := some s.ticks } }
  else .next s

/-- Does PPS_OUT stand high now? The pulse lasts TIME_PPS.width microseconds (R117), which are 800 ticks each. A width
outside 1 to 500,000 is used as written, and a pulse that has begun goes on when out_en is cleared (log entry 83). -/
def ppsOutHigh (s : State) : Bool :=
  match s.time.ppsRise with
  | none => false
  | some t => t ≤ s.ticks && s.ticks < t + 800 * fld s Reg.TIME_PPS F.TIME_PPS_width

/-- R97: while time is locked, the time unit loads PWR_RTC, which then holds a value loaded from TIME. -/
def execRtcLoad (s : State) : Out :=
  if timeIsLocked s then
    let s := { s with pwr := { s.pwr with rtcAt := localNs s } }
    .next (setF (wr64 s Reg.PWR_RTC (now s)) Reg.PWR_STATUS F.PWR_STATUS_rtc_valid 1)
  else .next s

/-- R126: a write of TIME_STEP. -/
def writeTimeStep (v : Word) (s : State) : State :=
  let s := setF s Reg.TIME_STEP F.TIME_STEP_step_ms (getF v F.TIME_STEP_step_ms)
  if getF v F.TIME_STEP_go = 0 then s
  else
    let ms := (v.extractLsb' 1 31).toInt
    let cause := if anyEnergised s then 1 else if timeState s = timeUnset then 2
      else if s.fab.change.isSome then 3 else 0
    if cause ≠ 0 then
      logEvent 0x2108 cause (satI32 ms) (setF s Reg.TIME_STATE F.TIME_STATE_step_refused 1)
    else
      let s := moveCounter ms (logEvent 0x2107 1 (satI32 ms) s)
      let v := s.time.servo
      toTimeState timeSlewing (setServo { v with pred := v.pred - ms * 65536000000000, cand := none, candCount := 0 } s)

/-! ### References and PLLs (R99 to R110) -/

/-- The correction in force at an earlier tick (R109); the oldest word held where the history does not reach so far. -/
def yAt (h : List (Nat × Int)) (t : Nat) (dflt : Int) : Int :=
  match h.find? (fun e => e.1 ≤ t) with
  | some e => e.2
  | none => ((h.getLast?).map (·.2)).getD dflt

/-- PLL_D or PLL_T coasts, or neither does any more: TIME_STATE.pll_coast, and HOLDOVER on a coast (Table 4.7). -/
def showPllCoast (s : State) : State :=
  let c := fld s Reg.CLK_STATUS F.CLK_STATUS_coast % 4 != 0
  let s := setF s Reg.TIME_STATE F.TIME_STATE_pll_coast (b2n c)
  if c ∧ timeState s ≠ timeUnset then toTimeState timeHoldover s else s

/-- R109: a PLL freezes its word and coasts; `back` is how many ticks before now the frozen word held. -/
def coastPll (n : Fin 5) (reason back : Nat) (s : State) : State :=
  if fbit s Reg.CLK_STATUS F.CLK_STATUS_coast n then s
  else
    let s := setFbit s Reg.CLK_STATUS F.CLK_STATUS_coast n true
    let s := setFbit s Reg.CLK_STATUS F.CLK_STATUS_locked n false
    let s := { s with time := { s.time with coastFrom := s.time.coastFrom.set n (localNs s) } }
    let s := if n = 0 then setY (yAt s.time.servo.hist (s.ticks - back) s.time.servo.y) s else s
    showPllCoast (logN 0x2003 n reason s)

/-- A PLL leaves coasting. -/
def resumePll (n : Fin 5) (s : State) : State :=
  let s := setFbit s Reg.CLK_STATUS F.CLK_STATUS_coast n false
  showPllCoast (setFbit s Reg.CLK_STATUS F.CLK_STATUS_locked n true)

/-- Does PLL_D run from the external reference (CLK_STATUS.ref_active)? -/
def extActive (s : State) : Bool := flg s Reg.CLK_STATUS F.CLK_STATUS_ref_active

/-- The PLLs fed from a reference (R99). -/
def fedFrom (ext : Bool) (s : State) : List (Fin 5) :=
  (if extActive s = ext then [0] else []) ++ (if ext then [] else [2, 3, 4])

/-- Show the checks of R108; ext_ok reads 1 while the external reference is not selected and absent. -/
def showRefs (s : State) : State :=
  let unused := s.time.extAbsent && !flg s Reg.CLK_REF_CFG F.CLK_REF_CFG_sel
  let s := setF s Reg.CLK_STATUS F.CLK_STATUS_ext_ok (b2n (s.time.lostExt.isNone || unused))
  setF s Reg.CLK_STATUS F.CLK_STATUS_mems_ok (b2n s.time.lostMems.isNone)

/-- How long before its detection a frozen word held: 4 µs, or the 10 ms window of a deviation, in ticks (R109). -/
def frozenBack (offFreq : Bool) : Nat := if offFreq then 8000000 else 3200

/-- R108, R109: a reference is found missing or off frequency. An external one that is neither selected nor present has
not failed: nothing is logged. -/
def execRefLost (ext offFreq : Bool) (s : State) : Out :=
  let already := if ext then s.time.lostExt.isSome else s.time.lostMems.isSome
  if already then .next s
  else
    let s := { s with time := if ext then { s.time with lostExt := some (localNs s), extAbsent := !offFreq }
      else { s.time with lostMems := some (localNs s) } }
    let s := showRefs s
    let s := forEach (fedFrom ext s) (fun n s => coastPll n 1 (frozenBack offFreq) s) s
    if ext && !offFreq && !flg s Reg.CLK_REF_CFG F.CLK_REF_CFG_sel then .next s
    else .next (logN 0x2001 (b2n ext) (if offFreq then 2 else 1) s)

/-- R109: a PLL loses lock. -/
def execPllCoast (n : Fin 5) (s : State) : Out := .next (coastPll n 2 (frozenBack false) s)

/-- The local instant 100 ms after a loss (R110). -/
def after100ms (t : Option Nat) (s : State) : State := match t with | none => s | some t => reachLocal (t + 100000000) s

/-- R110: a lost reference has passed its checks for 100 ms, at least so long after its loss: PLL_D resumes from its frozen
word; the integer PLLs regain their phase on their own (PLL_RELOCKED). -/
def execRefRestored (ext : Bool) (s : State) : Out :=
  let lost := if ext then s.time.lostExt else s.time.lostMems
  if lost.isNone then .next s
  else
    let quiet := ext && s.time.extAbsent && !flg s Reg.CLK_REF_CFG F.CLK_REF_CFG_sel
    let s := after100ms lost s
    let s := { s with time := if ext then { s.time with lostExt := none, extAbsent := false }
      else { s.time with lostMems := none } }
    let s := whenS (!quiet) (logN 0x2002 (b2n ext) 0) (showRefs s)
    .next (whenS (extActive s == ext && fbit s Reg.CLK_STATUS F.CLK_STATUS_coast 0) (resumePll 0) s)

/-- Is the reference a PLL runs from lost now? -/
def refOfPllLost (n : Fin 5) (s : State) : Bool :=
  if n = 1 then false else if n = 0 ∧ extActive s then s.time.lostExt.isSome else s.time.lostMems.isSome

/-- R110: a PLL regains its phase and leaves coasting. The integer PLLs log it; PLL_D, which has lost lock and regains it,
logs nothing (log entry 40). -/
def execPllRelocked (n : Fin 5) (s : State) : Out :=
  if fbit s Reg.CLK_STATUS F.CLK_STATUS_coast n ∧ !refOfPllLost n s then
    let us := (localNs s - s.time.coastFrom[n]) / 1000
    .next (whenS (n != 0) (logN 0x2004 n (min us 0xFFFFFFFF)) (resumePll n s))
  else .next s

/-- R110: with fallback set, and the selected external reference lost for 100 ms, PLL_D takes the MEMS reference from its
frozen word. -/
def execRefFallback (s : State) : Out :=
  if flg s Reg.CLK_REF_CFG F.CLK_REF_CFG_fallback ∧ extActive s ∧ s.time.lostExt.isSome ∧ s.time.lostMems.isNone then
    .next (resumePll 0 (setF (after100ms s.time.lostExt s) Reg.CLK_STATUS F.CLK_STATUS_ref_active 0))
  else .next s

/-! ### CLK writes (R105 to R107) -/

/-- A write ignored under R107. -/
def clkErr (s : State) : State := setF s Reg.CLK_STATUS F.CLK_STATUS_cfg_err 1

/-- A write of CLK_REF_CFG: selecting the external reference returns PLL_D to it (R110); PLL_D coasts where the reference it
is given is lost, and resumes where it had coasted for want of the other. -/
def writeRefCfg (v : Word) (s : State) : State :=
  if lockedAt s Reg.CLK_REF_CFG then s
  else
    let s := wr s Reg.CLK_REF_CFG (v &&& 7)
    let was := fld s Reg.CLK_STATUS F.CLK_STATUS_ref_active
    let sel := getF v F.CLK_REF_CFG_sel
    let s := showRefs (setF s Reg.CLK_STATUS F.CLK_STATUS_ref_active sel)
    if was = sel then s
    else if refOfPllLost 0 s then coastPll 0 1 (frozenBack false) s
    else whenS (fbit s Reg.CLK_STATUS F.CLK_STATUS_coast 0) (resumePll 0) s

/-- The code of MCLK `m` in a word of CLK_MCLK_DIV. -/
def mclkCode (v : Word) (m : Nat) : Nat := (v.extractLsb' (4 * m) 4).toNat

/-- A write of CLK_MCLK_DIV: reserved codes break Table 4.2, and the write is ignored (R107). -/
def writeMclk (v : Word) (s : State) : State :=
  if lockedAt s Reg.CLK_MCLK_DIV then s
  else if (List.range 6).any (fun m => 9 ≤ mclkCode v m && mclkCode v m ≤ 14) then clkErr s
  else wr s Reg.CLK_MCLK_DIV (v &&& 0xFFFFFF)

/-- N of a modulator clock code: the period in 800 MHz ticks (Table 4.2); 0 for a clock held low. -/
def mclkTicks (code : Nat) : Nat :=
  match code with
  | 0 => 32 | 1 => 40 | 2 => 50 | 3 => 64 | 4 => 80 | 5 => 100 | 6 => 125 | 7 => 128 | 8 => 160
  | _ => 0

/-- The frequency in kHz of a CKOUT source before its divider (R106). -/
def ckoutKhz (src : Nat) : Nat := match src with | 1 => 800000 | 2 => 25000 | 3 => 125000 | _ => 0

/-- The highest frequency of a CKOUT format in kHz (Table 4.3). -/
def ckoutLimit (fmt : Nat) : Nat := match fmt with | 0 => 400000 | 1 => 200000 | 2 => 100000 | _ => 50000

/-- A write of CLK_CKOUT_n (R106, R107); a reserved source code is stored as written, and gives no frequency (log entry
84). -/
def writeCkout (n : Nat) (v : Word) (s : State) : State :=
  let dv := getF v F.CLK_CKOUT_div
  let src := getF v F.CLK_CKOUT_src
  if lockedAt s (Reg.CLK_CKOUT n) then s
  else if dv ≠ 0 ∧ ckoutLimit (getF v F.CLK_CKOUT_format) * dv < ckoutKhz src then clkErr s
  else
    let s := wr s (Reg.CLK_CKOUT n) (v &&& 0xFFFF0C07)
    setF s (Reg.CLK_CKOUT n) F.CLK_CKOUT_aligned (b2n (ckoutAligned v))

/-- The frame boundary at which the counter reads its next whole millisecond (R32, R111). -/
def reachBoundary (s : State) : State :=
  let here := (s.tai.toNat + 3999999) / 4000000
  let ms := match s.time.lastBoundary with | none => here | some l => max here (l + 1)
  let s := advanceTo s (ms * 4000000)
  { s with time := { s.time with lastBoundary := some ms } }

/-- R105: new modulator clock codes take effect; the clocks that changed. -/
def applyMclk (s : State) : State × List Nat :=
  let w := rd s Reg.CLK_MCLK_DIV
  let changed : List (Fin 6) := (List.finRange 6).filter (fun m => (s.time.mclk[m]).val != mclkCode w m)
  ({ s with time := { s.time with mclk := changed.foldl (fun (v : Vector (Fin 16) 6) (m : Fin 6) => v.set m (Fin.ofNat 16 (mclkCode w m))) s.time.mclk } },
   changed.map (·.val))

end Sys2Proof.Machine
end

