-- ==== Sys2Proof/Machine/Gate.lean ====
section
/-! DEFINITION. The PWM and gate unit: blocks and releases, GDEN and OWNER, carriers, band decisions, dead time and minimum
pulse (chapter 07). -/

namespace Sys2Proof.Machine

open Sys2Proof

/-- Mode codes of CTRL_STAGE_STATE_s.mode. -/
def modeOff : Nat := 0
def modeBlocked : Nat := 1
def modeReg : Nat := 2
def modeRamp : Nat := 3
def modeVsm : Nat := 4
def modeLimit : Nat := 5
def modeReplay : Nat := 6

/-- The mode of a stage. -/
def stageMode (s : State) (st : Nat) : Nat := fld s (Reg.CTRL_STAGE_STATE st) F.CTRL_STAGE_STATE_mode

/-- Kind codes of CTRL_STAGE_CFG_s.kind. -/
def kindGridForming : Nat := 1
def kindDcDc : Nat := 2
def kindCharger : Nat := 3
def kindVarFreq : Nat := 4

/-- The kind of a stage. -/
def stageKind (s : State) (st : Nat) : Nat := fld s (Reg.CTRL_STAGE_CFG st) F.CTRL_STAGE_CFG_kind

/-- Has the stage a dq frame (Table 7.1)? -/
def isDq (s : State) (st : Nat) : Bool := stageKind s st == kindGridForming || stageKind s st == kindVarFreq

/-- Change a stage. -/
def setStage (st : Fin 4) (x : StageState) (s : State) : State :=
  { s with loop := { s.loop with stages := s.loop.stages.set st x } }

/-- Change a pair. -/
def setPair (p : Fin 12) (x : PairState) (s : State) : State :=
  { s with loop := { s.loop with pairs := s.loop.pairs.set p x } }

/-- The stage that owns a pair, and its mode field. -/
def pairStage (s : State) (p : Nat) : Fin 4 := Fin.ofNat 4 (fld s (Reg.PWM_PAIR_CFG p) F.PWM_PAIR_CFG_stage)
def pairMode (s : State) (p : Nat) : Nat := fld s (Reg.PWM_PAIR_CFG p) F.PWM_PAIR_CFG_mode

/-- The pairs of a stage, in order. -/
def pairsOf (s : State) (st : Fin 4) : List (Fin 12) :=
  (List.finRange 12).filter (fun (p : Fin 12) => pairStage s p == st && pairMode s p != 0)

/-- Is the stage latched blocked (PWM_BLOCK_STATUS.latched)? -/
def latchedBlocked (s : State) (st : Nat) : Bool := fbit s Reg.PWM_BLOCK_STATUS F.PWM_BLOCK_STATUS_latched st

/-- Does a stage count as BLOCKED (R212)? -/
def isBlocked (s : State) (st : Nat) : Bool := stageMode s st == modeBlocked || latchedBlocked s st

/-! ### GDEN and OWNER (R213, R214) -/

/-- Is a block of code 1 or 6 active or latched? -/
def killsGden (s : State) : Bool :=
  fld s Reg.ADC_CMP_STATUS F.ADC_CMP_STATUS_hard_live != 0 || s.loop.powerFail ||
    s.loop.stages.toList.any (fun x => x.whyCode.testBit 1 || x.whyCode.testBit 6)

/-- R213: is GDEN active? -/
def gdenActive (s : State) : Bool :=
  ready s && s.loop.owner && flg s Reg.PWM_GATE_CTRL F.PWM_GATE_CTRL_gden_en && !killsGden s

/-- Show ready, OWNER and GDEN in PWM_STATUS. -/
def showGates (s : State) : State :=
  let s := setF s Reg.PWM_STATUS F.PWM_STATUS_ready (b2n (ready s))
  let s := setF s Reg.PWM_STATUS F.PWM_STATUS_owner (b2n s.loop.owner)
  setF s Reg.PWM_STATUS F.PWM_STATUS_gden (b2n (gdenActive s))

/-- Set OWNER. -/
def setOwner (b : Bool) (s : State) : State := showGates { s with loop := { s.loop with owner := b } }

/-- The levels of a pair's gate balls: the gate logic's states while OWNER is high and GDEN active (R213, R214). -/
def gateBalls (s : State) (p : Fin 12) : Bool × Bool :=
  let on := gdenActive s
  (on && s.loop.pairs[p].high, on && s.loop.pairs[p].low)

/-! ### Blocks (R211) -/

/-- Both switches of a pair off at once; dead time, minimum pulse and pending decisions are overridden (R201). -/
def pairOff (p : Fin 12) (s : State) : State :=
  setPair p { s.loop.pairs[p] with
    high := false, low := false, pendingOn := none, deferred := none, offAt := some s.ticks } s

/-- The gates of a stage off. -/
def stageGatesOff (st : Fin 4) (s : State) : State := forEach (pairsOf s st) pairOff s

/-- Show the pairs held off by a block. -/
def showPairOff (s : State) : State :=
  setF s Reg.PWM_BLOCK_STATUS F.PWM_BLOCK_STATUS_pair_off
    ((List.range 12).foldl (fun n p => putBit n p (latchedBlocked s (pairStage s p) && pairMode s p != 0)) 0)

/-- One stage blocked by a source. -/
def blockStage (code : Nat) (st : Fin 4) (s : State) : State :=
  let s := whenS (!latchedBlocked s st) (recTrigNow srcBlock) s
  let s := setFbit s Reg.PWM_BLOCK_STATUS F.PWM_BLOCK_STATUS_latched st true
  let x := s.loop.stages[st]
  stageGatesOff st (setStage st { x with whyCode := putBit x.whyCode code true, freed := false } s)

/-- R211: a source blocks the stages of a mask: gates off, latched, and logged with the source code. The mode BLOCKED
follows at each stage's next sample instant. -/
def blockStages (code mask : Nat) (s : State) : State :=
  if mask % 16 = 0 then s
  else
    let s := forEach (List.finRange 4) (fun (st : Fin 4) s =>
      if mask.testBit st then blockStage code st s else s) s
    logN 0x4021 code (mask % 16) (showGates (showPairOff s))

/-- Note which latched bit blocked the stages of a mask (R212). -/
def noteWhy (f : StageState → StageState) (mask : Nat) (s : State) : State :=
  forEach (List.finRange 4) (fun (st : Fin 4) s =>
    if mask.testBit st then setStage st (f s.loop.stages[st]) s else s) s

/-- R135, R211: an enabled hard comparator fires, blocks all gates and latches. -/
def execHardCmp (n : Fin 16) (s : State) : Out :=
  if flg s (Reg.ADC_HARD n) F.ADC_HARD_en ∧ !fbit s Reg.ADC_CMP_STATUS F.ADC_CMP_STATUS_hard_live n then
    let s := latchHard n s
    let s := noteWhy (fun x => { x with whyHard := putBit x.whyHard n true }) 15 s
    .next (blockStages 1 15 s)
  else .next s

/-- R135: the comparator stops firing. -/
def execHardLiveCleared (n : Fin 16) (s : State) : Out :=
  .next (showGates (setFbit s Reg.ADC_CMP_STATUS F.ADC_CMP_STATUS_hard_live n false))

/-- R210: a filtered GDF input becomes active: it latches, and blocks the stages of its map. -/
def execGdfActive (n : Fin 6) (s : State) : Out :=
  if fbit s Reg.PWM_GDF_CFG F.PWM_GDF_CFG_en n ∧ !s.loop.gdf[n] then
    let map := fld s (Reg.PWM_GDF_MAP n) F.PWM_GDF_MAP_stages
    let was := fbit s Reg.PWM_GDF_STATUS F.PWM_GDF_STATUS_latched n
    let s := { s with loop := { s.loop with gdf := s.loop.gdf.set n true } }
    let s := setFbit s Reg.PWM_GDF_STATUS F.PWM_GDF_STATUS_live n true
    let s := setFbit s Reg.PWM_GDF_STATUS F.PWM_GDF_STATUS_latched n true
    let s := whenS (!was) (logN 0x4024 n map) s
    let s := noteWhy (fun x => { x with whyGdf := putBit x.whyGdf n true }) map s
    .next (blockStages 2 map s)
  else .next s

/-- R210: the inactive level has lasted t_F. -/
def execGdfInactive (n : Fin 6) (s : State) : Out :=
  let s := { s with loop := { s.loop with gdf := s.loop.gdf.set n false } }
  .next (setFbit s Reg.PWM_GDF_STATUS F.PWM_GDF_STATUS_live n false)

/-- No request waits any more. -/
def clearRequests (st : Fin 4) (s : State) : State :=
  let s := setF s (Reg.CTRL_STAGE_CMD st) F.CTRL_STAGE_CMD_start 0
  let s := setF s (Reg.CTRL_STAGE_CMD st) F.CTRL_STAGE_CMD_stop 0
  setStage st { s.loop.stages[st] with startReq := false, stopReq := false } s

/-- The causes, by source code, that still prevent the release of a stage (R212, Table 7.8). -/
def releaseCauses (s : State) (st : Fin 4) : Nat :=
  let x := s.loop.stages[st]
  let hl := fld s Reg.ADC_CMP_STATUS F.ADC_CMP_STATUS_hard_latched
  let gl := fld s Reg.PWM_GDF_STATUS F.PWM_GDF_STATUS_latched
  let c1 := fld s Reg.ADC_CMP_STATUS F.ADC_CMP_STATUS_hard_live != 0 || (hl &&& x.whyHard) != 0
  let live := (List.finRange 6).any (fun (n : Fin 6) => s.loop.gdf[n] &&
    fbit s (Reg.PWM_GDF_MAP n) F.PWM_GDF_MAP_stages st)
  let c2 := live || (gl &&& x.whyGdf) != 0
  let c4 := x.linePlaus || (fld s (Reg.CTRL_PLAUS_STATE st) F.CTRL_PLAUS_STATE_violated &&& x.whyPlaus) != 0
  putBit (putBit (putBit (putBit (putBit 0 1 c1) 2 c2) 3 x.lineProt) 4 c4) 6 s.loop.powerFail

/-- R212: a release of one stage, accepted or refused; nothing for a stage that is not BLOCKED. No request made before the
release remains: the stage switches again only after a start. -/
def releaseStage (st : Fin 4) (s : State) : State :=
  if !latchedBlocked s st then s
  else
    let c := releaseCauses s st
    if c ≠ 0 then
      logN 0x4023 st c (setF s Reg.PWM_STATUS F.PWM_STATUS_release_refused 1)
    else
      let s := setFbit s Reg.PWM_BLOCK_STATUS F.PWM_BLOCK_STATUS_latched st false
      let s := clearRequests st s
      let s := setStage st { s.loop.stages[st] with
        whyCode := 0, whyHard := 0, whyGdf := 0, whyPlaus := 0, freed := stageMode s st != modeBlocked } s
      logN 0x4022 st 0 (showGates (showPairOff s))

/-- A write of PWM_GATE_CTRL (R211 to R213): blocks, then releases, then gden_en. -/
def writeGateCtrl (v : Word) (s : State) : State :=
  let s := setF s Reg.PWM_GATE_CTRL F.PWM_GATE_CTRL_gden_en (getF v F.PWM_GATE_CTRL_gden_en)
  let s := blockStages 5 (getF v F.PWM_GATE_CTRL_block) s
  let rel := getF v F.PWM_GATE_CTRL_release
  showGates (forEach (List.finRange 4) (fun (st : Fin 4) s => if rel.testBit st then releaseStage st s else s) s)

/-- A write of PWM_GDF_CFG: a filter above 40 makes the whole write be ignored (R210). An input that is no longer enabled is
no longer active (log entry 87). -/
def writeGdfCfg (v : Word) (s : State) : State :=
  if 40 < getF v F.PWM_GDF_CFG_filter then setF s Reg.PWM_STATUS F.PWM_STATUS_cfg_err 1
  else
    let en := getF v F.PWM_GDF_CFG_en
    let s := wr s Reg.PWM_GDF_CFG (v &&& 0x003F3F3F)
    let s := { s with loop := { s.loop with gdf := Vector.ofFn (fun (n : Fin 6) => s.loop.gdf[n] && en.testBit n) } }
    setF s Reg.PWM_GDF_STATUS F.PWM_GDF_STATUS_live (fld s Reg.PWM_GDF_STATUS F.PWM_GDF_STATUS_live &&& en)

/-- A write of PWM_GDF_STATUS: a latched bit whose input is active stays (R210). -/
def writeGdfStatus (v : Word) (s : State) : State :=
  let l := fld s Reg.PWM_GDF_STATUS F.PWM_GDF_STATUS_latched
  let live := fld s Reg.PWM_GDF_STATUS F.PWM_GDF_STATUS_live
  let c := getF v F.PWM_GDF_STATUS_latched
  setF s Reg.PWM_GDF_STATUS F.PWM_GDF_STATUS_latched ((l - (l &&& c)) ||| (l &&& live))

/-! ### Switching decisions (R196, R201) -/

/-- t_d and t_min of a pair in ticks. -/
def deadTicks (s : State) (p : Nat) : Nat := fld s (Reg.PWM_PAIR_DEAD p) F.PWM_PAIR_DEAD_t_d
def minTicks (s : State) (p : Nat) : Nat := fld s (Reg.PWM_PAIR_DEAD p) F.PWM_PAIR_DEAD_t_min

/-- May the pair's gates switch: its stage energised, not blocked, and not on its way to OFF after a release? -/
def maySwitch (s : State) (p : Fin 12) : Bool :=
  let st := pairStage s p
  pairMode s p != 0 && energised s st && !latchedBlocked s st && !(s.loop.stages[st]).freed

/-- A switch of a pair turns on; turn-ons of the high side are counted. -/
def turnOn (p : Fin 12) (hi : Bool) (s : State) : State :=
  let x := s.loop.pairs[p]
  setPair p { x with
    high := if hi then true else x.high, low := if hi then x.low else true, pendingOn := none,
    count := if hi then x.count + 1 else x.count } s

/-- Turn the outgoing side off and the incoming side on after the dead time; `drop` leaves the incoming side off. A
reversal before the incoming side has turned on cancels that turn-on, and the outgoing side waits a full dead time. -/
def commutate (p : Fin 12) (hi drop : Bool) (s : State) : State :=
  let x := s.loop.pairs[p]
  let wasOn := if hi then x.low else x.high
  let already := (if hi then x.high else x.low) || x.pendingOn == some hi
  if already then s
  else
    let off := if wasOn ∨ x.pendingOn.isSome then some s.ticks else x.offAt
    let s := setPair p { x with
      high := if hi then x.high else false, low := if hi then false else x.low,
      pendingOn := if drop then none else some hi, offAt := off, decidedAt := some s.ticks } s
    let free : Bool := match off with
      | none => true
      | some t => t + deadTicks s p ≤ s.ticks
    if free ∧ !drop then turnOn p hi s else s

/-- A HYST decision: deferred when it comes less than t_min after the previous one. -/
def hystDecision (p : Fin 12) (hi : Bool) (s : State) : State :=
  let x := s.loop.pairs[p]
  let early : Bool := match x.decidedAt with
    | none => false
    | some t => s.ticks < t + minTicks s p
  let already := (if hi then x.high else x.low) || x.pendingOn == some hi
  if already then setPair p { x with deferred := none } s
  else if early then
    bumpSat (Reg.PWM_PAIR_STAT p) F.PWM_PAIR_STAT_deferred (setPair p { x with deferred := some hi } s)
  else commutate p hi false (setPair p { x with deferred := none } s)

/-- R196: the band comparator outputs of an input change; every hysteretic pair on that input decides. Both outputs 1 hold
the pair. -/
def execBandCrossing (n : Fin 16) (upper lower : Bool) (s : State) : Out :=
  let s := { s with adc := { s.adc with bandUp := s.adc.bandUp.set n upper, bandLow := s.adc.bandLow.set n lower } }
  if !flg s (Reg.ADC_AIN_CFG n) F.ADC_AIN_CFG_band_en ∨ upper = lower then .next s
  else
    .next (forEach (List.finRange 12) (fun (p : Fin 12) s =>
      if fld s (Reg.PWM_PAIR_CFG p) F.PWM_PAIR_CFG_ain = n.val ∧ maySwitch s p ∧ (s.loop.stages[pairStage s p]).hystOn then
        hystDecision p lower s
      else s) s)

/-- R201: the dead time after a turn-off elapses and the incoming switch turns on. -/
def execDeadTimeElapsed (p : Fin 12) (s : State) : Out :=
  let x := s.loop.pairs[p]
  match x.pendingOn with
  | none => .next s
  | some hi => .next (turnOn p hi (reachTick (x.offAt.getD 0 + deadTicks s p) s))

/-- R201: a deferred decision is carried out t_min after the previous one. -/
def execDeferredDecision (p : Fin 12) (s : State) : Out :=
  let x := s.loop.pairs[p]
  match x.deferred with
  | none => .next s
  | some hi =>
    let s := reachTick (x.decidedAt.getD 0 + minTicks s p) s
    .next (commutate p hi false (setPair p { s.loop.pairs[p] with deferred := none } s))

/-! ### Carriers (R199, R200, R470) -/

/-- c_max and the compare value in force. -/
def pairCmax (s : State) (p : Nat) : Nat := if isSaw s p then pairN s p else pairN s p / 2
def pairCmp (s : State) (p : Nat) : Nat := fld s (Reg.PWM_PAIR_CMP p) F.PWM_PAIR_CMP_c

/-- Ticks since the last valley of a pair's grid, and the count of its carrier (R199). -/
def carrierPhase (s : State) (p : Nat) : Nat :=
  let n := pairN s p
  (s.tai.toNat / 5 + n - fld s (Reg.PWM_PAIR_PHASE p) F.PWM_PAIR_PHASE_phase % n) % n
def carrierCount (s : State) (p : Nat) : Nat :=
  let t := carrierPhase s p
  if isSaw s p then t else min t (pairN s p - t)

/-- Ticks of a carrier period in which the count is below the compare value (R199). -/
def highTicks (s : State) (p : Nat) : Nat := if isSaw s p then pairCmp s p else 2 * pairCmp s p - 1

/-- A carrier decision with the minimum pulse of R201: an on-interval shorter than t_min after dead time is dropped, and an
off-interval of the conducting switch shorter than t_min is merged. -/
def carrierDecision (p : Fin 12) (hi : Bool) (s : State) : State :=
  let onT := if hi then highTicks s p else pairN s p - highTicks s p
  if onT < minTicks s p then s
  else commutate p hi (onT < minTicks s p + deadTicks s p) s

/-- Does the pair's stage use its carrier now? -/
def usesCarrier (s : State) (p : Fin 12) : Bool :=
  pairMode s p != 0 && !(s.loop.stages[pairStage s p]).hystOn

/-- A carrier stops: both switches off, no load and no PWM events (R470). -/
def stopCarrier (p : Fin 12) (s : State) : State := pairOff p (setPair p { s.loop.pairs[p] with running := false } s)

/-- The armed carrier-start triggers that name a pair. -/
def armedFor (s : State) (p : Fin 12) : List (Fin 8) :=
  (List.finRange 8).filter (fun (n : Fin 8) =>
    fld s (Reg.TIME_TRIG_STATUS n) F.TIME_TRIG_STATUS_state == 1 &&
    fld s (Reg.TIME_TRIG_CFG n) F.TIME_TRIG_CFG_kind == 2 && fbit s (Reg.TIME_TRIG_CFG n) F.TIME_TRIG_CFG_mask p)

/-- R470: a pair becomes able to run its carrier, which stands until a valley after this moment, with both switches off; an
armed trigger that names the pair holds it. -/
def carrierAble (p : Fin 12) (s : State) : State :=
  let s := stopCarrier p s
  setPair p { s.loop.pairs[p] with hold := armedFor s p, valleyTick := some s.ticks } s

/-- Of a pair whose mode, stage or inner control may have changed: it stops its carrier or becomes able to run it; `was` says
whether it used it before (R470). -/
def settleCarrier (p : Fin 12) (was : Bool) (s : State) : State :=
  if usesCarrier s p = was then s else if was then stopCarrier p s else carrierAble p s

/-- The carriers of all pairs after a pitch image has set their registers; `before` is the state it found. -/
def carriersAfter (before s : State) : State :=
  forEach (List.finRange 12) (fun p s => settleCarrier p (usesCarrier before p) s) s

/-- A carrier-start trigger fires, and a valley at its very tick is in time; or it ends without firing. The pairs it held go
on (R470). -/
def releaseHold (n : Fin 8) (fired : Bool) (s : State) : State :=
  forEach (List.finRange 12) (fun (p : Fin 12) s =>
    let x := s.loop.pairs[p]
    if x.hold.contains n then
      setPair p (if fired then { x with hold := [], valleyTick := none }
        else { x with hold := x.hold.filter (· != n) }) s
    else s) s

/-- Load the shadow compare value (R200). -/
def loadCompare (p : Fin 12) (s : State) : State :=
  match s.loop.pairs[p].shadow with
  | none => s
  | some c => setPair p { s.loop.pairs[p] with shadow := none } (setF s (Reg.PWM_PAIR_CMP p) F.PWM_PAIR_CMP_c c)

/-- Does the load code select this event? On SAWTOOTH every code loads at the valley (R199). -/
def loadsAt (s : State) (p : Nat) (peak : Bool) : Bool :=
  let c := fld s (Reg.PWM_PAIR_CFG p) F.PWM_PAIR_CFG_load
  if isSaw s p then !peak else if peak then c.testBit 1 else c.testBit 0

/-- A PWM event reaches the sequencers (R144); on a SAWTOOTH pair a source that names the peak gets one event at each
valley (R199). -/
def pwmEvent (p : Fin 12) (peak : Bool) (s : State) : State :=
  forEach (List.finRange 4) (fun (c : Fin 4) s =>
    if peak then startEvent c (.peak p) s
    else if startMatches s c (.valley p) then startEvent c (.valley p) s
    else if isSaw s p then startEvent c (.peak p) s
    else s) s

/-- The counter reaches the next valley or peak of a pair's grid. -/
def reachCarrier (p : Fin 12) (peak : Bool) (s : State) : State :=
  let s := advanceTo s (nextCarrier s p peak)
  let x := s.loop.pairs[p]
  setPair p (if peak then { x with peakTick := some s.ticks } else { x with valleyTick := some s.ticks }) s

/-- The load and the switching at a valley or peak: below the compare value at a valley if that is not 0, never below it at
a peak. -/
def carrierLoad (p : Fin 12) (peak : Bool) (s : State) : State :=
  let s := whenS (loadsAt s p peak) (loadCompare p) s
  if maySwitch s p then carrierDecision p (decide (!peak ∧ 0 < pairCmp s p)) s else s

/-- R199, R200, R470: the next valley or peak of a pair's carrier. A stopped carrier starts at its first valley unless a
trigger holds it. -/
def execCarrierEvent (p : Fin 12) (peak : Bool) (s : State) : Out :=
  if !usesCarrier s p ∨ (peak ∧ isSaw s p) then .next s
  else
    let s := reachCarrier p peak s
    let x := s.loop.pairs[p]
    let s := if !x.running ∧ !peak ∧ x.hold.isEmpty then setPair p { x with running := true } s else s
    if s.loop.pairs[p].running then .next (pwmEvent p peak (carrierLoad p peak s)) else .next s

/-- The tick, from a valley, at which the count reaches the compare value, or falls below it on a TRIANGLE's way down. -/
def matchTicks (s : State) (p : Nat) (on : Bool) : Nat := if on then pairN s p + 1 - pairCmp s p else pairCmp s p

/-- R199: the counter crosses the compare value: the high side goes off at it, and on below it on the way down. -/
def execCompareMatch (p : Fin 12) (on : Bool) (s : State) : Out :=
  let c := pairCmp s p
  if usesCarrier s p ∧ s.loop.pairs[p].running ∧ maySwitch s p ∧ 0 < c ∧
      (if isSaw s p then !on ∧ c < pairN s p else c ≤ pairCmax s p) then
    let ph := fld s (Reg.PWM_PAIR_PHASE p) F.PWM_PAIR_PHASE_phase
    let s := advanceTo s (gridNext s (5 * (ph + matchTicks s p on)) (5 * pairN s p) none)
    .next (carrierDecision p on s)
  else .next s

/-- R200: a modulating signal in Q15 as a compare value: round((1 + m) / 2 × c_max), nearest, ties up. -/
def compareOf (m : Int) (cmax : Nat) : Nat := (((32768 + m) * cmax + 32768) / 65536).toNat

/-- The switch counts of the frame that a boundary completes (PWM_PAIR_STAT_p.switches). -/
def countsAtBoundary (s : State) : State :=
  forEach (List.finRange 12) (fun (p : Fin 12) s =>
    let x := s.loop.pairs[p]
    setPair p { x with count := 0 } (setF s (Reg.PWM_PAIR_STAT p) F.PWM_PAIR_STAT_switches (min 0xFFFF x.count))) s

/-! ### Writes of the pairs (R199, R201) -/

/-- A write ignored under R199, R201 or R210. -/
def pwmErr (s : State) : State := setF s Reg.PWM_STATUS F.PWM_STATUS_cfg_err 1

/-- R199: is N permitted with a shape? -/
def periodPermitted (n : Nat) (saw : Bool) : Bool :=
  800 ≤ n && n ≤ 800000 && 800000 % n == 0 && (saw || n % 2 == 0)

/-- A write of PWM_PAIR_CFG_p. The stage's inner control, not the mode field, selects between CARRIER and HYST for a pair that
is not OFF. -/
def writePairCfg (p : Fin 12) (v : Word) (s : State) : State :=
  let a := Reg.PWM_PAIR_CFG p
  if getF v F.PWM_PAIR_CFG_mode = 3 ∨ getF v F.PWM_PAIR_CFG_load = 0 then pwmErr s
  else
    let s := setF s a F.PWM_PAIR_CFG_load (getF v F.PWM_PAIR_CFG_load)
    if lockedAt s a then s
    else
      let was := usesCarrier s p
      let saw := getF v F.PWM_PAIR_CFG_shape == 1
      let s := if periodPermitted (pairN s p) saw then setF s a F.PWM_PAIR_CFG_shape (b2n saw) else pwmErr s
      let s := setF s a F.PWM_PAIR_CFG_ain (getF v F.PWM_PAIR_CFG_ain)
      let s := setF s a F.PWM_PAIR_CFG_stage (getF v F.PWM_PAIR_CFG_stage)
      let s := setF s a F.PWM_PAIR_CFG_mode (getF v F.PWM_PAIR_CFG_mode)
      let s := settleCarrier p was s
      showPairOff (if getF v F.PWM_PAIR_CFG_mode = 0 then pairOff p s else s)

/-- A write of PWM_PAIR_PERIOD_p. -/
def writePairPeriod (p : Nat) (v : Word) (s : State) : State :=
  let n := getF v F.PWM_PAIR_PERIOD_n
  if lockedAt s (Reg.PWM_PAIR_PERIOD p) then s
  else if periodPermitted n (isSaw s p) ∧ fld s (Reg.PWM_PAIR_PHASE p) F.PWM_PAIR_PHASE_phase < n then
    setF s (Reg.PWM_PAIR_PERIOD p) F.PWM_PAIR_PERIOD_n n
  else pwmErr s

/-- A write of PWM_PAIR_PHASE_p. -/
def writePairPhase (p : Nat) (v : Word) (s : State) : State :=
  let ph := getF v F.PWM_PAIR_PHASE_phase
  if lockedAt s (Reg.PWM_PAIR_PHASE p) then s
  else if ph < pairN s p then setF s (Reg.PWM_PAIR_PHASE p) F.PWM_PAIR_PHASE_phase ph
  else pwmErr s

/-- A write of PWM_PAIR_DEAD_p: both times from 0 to 8,000 ticks (R201). -/
def writePairDead (p : Nat) (v : Word) (s : State) : State :=
  if lockedAt s (Reg.PWM_PAIR_DEAD p) then s
  else if 8000 < getF v F.PWM_PAIR_DEAD_t_d ∨ 8000 < getF v F.PWM_PAIR_DEAD_t_min then pwmErr s
  else wr s (Reg.PWM_PAIR_DEAD p) (v &&& 0x1FFF1FFF)

end Sys2Proof.Machine
end

