-- ==== Sys2Proof/Machine/Operands.lean ====
section
/-! DEFINITION. Number formats and operand forms: Q15 signals, coefficient words, the 40-bit accumulator, LIM24 limits,
angles, square roots and exact rationals (R176 to R180, R193). -/

namespace Sys2Proof.Machine

open Sys2Proof

/-- A Q15 word as the integer it stores (R176). -/
def q15 (w : BitVec 16) : Int := w.toInt

/-- The Q15 word in the low half of a register word. -/
def loQ15 (w : Word) : Int := (w.extractLsb' 0 16).toInt

/-- The Q15 word in the high half of a register word. -/
def hiQ15 (w : Word) : Int := (w.extractLsb' 16 16).toInt

/-- Saturation to 16 bits. -/
def sat16 (v : Int) : Int := max (-32768) (min 32767 v)

/-- A Q15 value as a 16-bit field. -/
def q15Bits (v : Int) : Nat := (BitVec.ofInt 16 v).toNat

/-- R179: a store to Q15 of a Q30 value: nearest, ties up, then saturation. -/
def storeQ15 (v : Int) : Int := sat16 ((v + 16384) / 32768)

/-- R178: the bounds of the 40-bit accumulator. -/
def sat40 (v : Int) : Int := max (-549755813888) (min 549755813887 v)

/-- A saturating accumulation (R178): the result, and whether it saturated. -/
def acc40 (p : Int × Bool) (x : Int) : Int × Bool :=
  let r := sat40 (p.1 + x)
  (r, p.2 || r != p.1 + x)

/-- A right shift of n bits with rounding to nearest, ties up (R177). -/
def shrRound (v : Int) (n : Nat) : Int := if n = 0 then v else (v + 2 ^ (n - 1)) / 2 ^ n

/-- The mantissa and the shift of a coefficient word (R177). -/
def coefMant (w : Word) : Int := loQ15 w
def coefShift (w : Word) : Int := (w.extractLsb' 16 4).toInt

/-- A coefficient times a Q15 value, in Q30 (R177). -/
def mulCoef (w : Word) (x : Int) : Int :=
  let s := coefShift w
  if 0 ≤ s then coefMant w * x * 2 ^ s.toNat else shrRound (coefMant w * x) (-s).toNat

/-- A coefficient times a Q30 value, rounded to Q30 (R177, R184). -/
def mulCoefQ30 (w : Word) (x : Int) : Int := shrRound (coefMant w * x) (15 - coefShift w).toNat

/-- R193: a LIM24 word as an exact value. -/
def lim24 (w : Word) : Rat := (w.extractLsb' 0 24).toNat * (2 : Rat) ^ (((w.extractLsb' 24 8).toNat : Int) - 32)

/-- One bit of an integer square root. -/
def isqrtFrom (n : Nat) : Nat → Nat → Nat
  | 0, r => r
  | k + 1, r => isqrtFrom n k (if (r + 2 ^ k) * (r + 2 ^ k) ≤ n then r + 2 ^ k else r)

/-- The integer square root of a number below 2^128. -/
def isqrt (n : Nat) : Nat := isqrtFrom n 64 0

/-- A Q15 value as a rational. -/
def q15Rat (v : Int) : Rat := v / 32768

/-- A rational stored to Q15: nearest, ties up, saturating (R179). -/
def ratQ15 (v : Rat) : Int := sat16 ((v * 32768 + 1 / 2).floor)

/-- An angle wrapped into ±180° (R7). -/
def wrapDeg (a : Rat) : Rat := a - 360 * ((a + 180) / 360).floor

/-! ### Real functions

The rules name cosines, angles, roots, powers and exponentials; how the part's arithmetic forms them is not stated. Each is
the real value the rule names, found here to about 2^-38 by its series, with a free error inside a bound (log entry 10). -/

/-- A value within `tol` of `x`: the free value `v` where it lies in those bounds. -/
def within (x tol v : Rat) : Rat := if x - tol ≤ v ∧ v ≤ x + tol then v else x

/-- The magnitude of a rational. -/
def absR (x : Rat) : Rat := if x < 0 then -x else x

/-- A rational cut to 40 fractional bits. -/
def cut40 (x : Rat) : Rat := (x * 1099511627776).floor / 1099511627776

/-- π and ln 2 to 20 places. -/
def piR : Rat := 314159265358979323846 / 100000000000000000000
def ln2R : Rat := 69314718055994530942 / 100000000000000000000

/-- 1 − z/(n+1)(n+2) · (1 − z/(n+3)(n+4) · …), k levels deep. -/
def cosTerms (z : Rat) : Nat → Nat → Rat
  | 0, _ => 1
  | k + 1, n => 1 - z / ((n + 1) * (n + 2) : Nat) * cosTerms z k (n + 2)

/-- The cosine of an angle in degrees. -/
def cosReal (a : Rat) : Rat :=
  let x := cut40 (wrapDeg a * piR / 180)
  cosTerms (x * x) 16 0

/-- Cosine and sine of an angle in degrees (R7). -/
def cosDeg (a : Rat) : Rat := within (cosReal a) (1 / 65536) (Config.cosDeg a)
def sinDeg (a : Rat) : Rat := cosDeg (a - 90)

/-- 1 + 2n/(2n+1) · z · (1 + …), k levels deep. -/
def atanTerms (z : Rat) : Nat → Nat → Rat
  | 0, _ => 1
  | k + 1, n => 1 + (2 * n : Nat) / (2 * n + 1 : Nat) * z * atanTerms z k (n + 1)

/-- The arc tangent in degrees of a value within ±1. -/
def atanReal (t : Rat) : Rat :=
  let u := cut40 t
  let z := cut40 (u * u / (1 + u * u))
  u / (1 + u * u) * atanTerms z 40 1 * 180 / piR

/-- The angle of (x, y) in degrees, in ±180° (R7); of (0, 0), 0. -/
def angleReal (x y : Rat) : Rat :=
  if absR y ≤ absR x then
    if x = 0 then 0
    else if 0 < x then atanReal (y / x)
    else if y < 0 then atanReal (y / x) - 180 else atanReal (y / x) + 180
  else if 0 < y then 90 - atanReal (x / y)
  else -90 - atanReal (x / y)

/-- The angle of a phasor in degrees (R7); the angle of a phasor of 0 is free. -/
def argDeg (x y : Rat) : Rat :=
  if x = 0 ∧ y = 0 then Config.argDeg 0 0 else within (angleReal x y) (1 / 256) (Config.argDeg x y)

/-- A square root. -/
def sqrtReal (x : Rat) : Rat :=
  let m := (x * 1208925819614629174706176).floor.toNat
  (isqrtFrom m (m.log2 / 2 + 1) 0 : Rat) / 1099511627776
def sqrtR (x : Rat) : Rat := within (sqrtReal x) (sqrtReal x / 65536) (Config.sqrtR x)

/-- 1 + x/n · (1 + x/(n+1) · …), k levels deep. -/
def expTerms (x : Rat) : Nat → Nat → Rat
  | 0, _ => 1
  | k + 1, n => 1 + x / n * expTerms x k (n + 1)

/-- e^x; below e^-60, 0. -/
def expReal (x : Rat) : Rat :=
  if x < -60 then 0
  else
    let k := (x / ln2R).floor
    (2 : Rat) ^ k * expTerms (cut40 (x - k * ln2R)) 20 1

/-- 1/(2n+1) + z · (1/(2n+3) + …), k levels deep. -/
def atanhTerms (z : Rat) : Nat → Nat → Rat
  | 0, n => 1 / (2 * n + 1 : Nat)
  | k + 1, n => 1 / (2 * n + 1 : Nat) + z * atanhTerms z k (n + 1)

/-- ln x of a positive value. -/
def lnReal (x : Rat) : Rat :=
  let e : Int := x.num.toNat.log2 - x.den.log2
  let m := x / (2 : Rat) ^ e
  let t := cut40 ((m - 1) / (m + 1))
  2 * t * atanhTerms (t * t) 24 0 + e * ln2R

/-- e^(−x), 2π, and a^b for a positive a. -/
def expNeg (x : Rat) : Rat := within (expReal (-x)) (expReal (-x) / 65536) (Config.expNeg x)
def twoPi : Rat := within (2 * piR) (1 / 65536) Config.twoPi
def powReal (a b : Rat) : Rat := if a ≤ 0 then 0 else expReal (b * lnReal a)
def powR (a b : Rat) : Rat := within (powReal a b) (powReal a b / 65536) (Config.pow a b)

/-- The t at M on the line in log t against log M through two points (M in 0.01, t in ms). -/
def logLogReal (p q : Nat × Nat) (m : Rat) : Rat :=
  let f := fun (n : Nat) => lnReal n
  expReal (f p.2 + (f q.2 - f p.2) * (lnReal (100 * m) - f p.1) / (f q.1 - f p.1))
def logLog (p q : Nat × Nat) (m : Rat) : Rat :=
  within (logLogReal p q m) (logLogReal p q m / 65536) (Config.logLog p q m)

/-- A value in 1/2^30 within one unit of it, the rounding being free (log entry 12). -/
def fixed30 (x : Rat) (v : Int) : Int :=
  let y := x * 1073741824
  if y - 1 ≤ v ∧ (v : Rat) ≤ y + 1 then v else (y + 1 / 2).floor

/-- The d and q components of three phase values at an angle, the inverse of the phasor of R194: Q15 (log entry 11). -/
def park (a b c : Int) (theta : Rat) : Int × Int :=
  let f := fun (g : Rat → Rat) => 2 / 3 * (q15Rat a * g theta + q15Rat b * g (theta - 120) + q15Rat c * g (theta + 120))
  (ratQ15 (f cosDeg), ratQ15 (-(f sinDeg)))

/-- The value of phase k of a phasor at an angle: Re{(w0 + j w1) e^{j(θ − k·120°)}} (R194). -/
def phaseOf (w0 w1 : Int) (theta : Rat) (k : Nat) : Rat :=
  q15Rat w0 * cosDeg (theta - 120 * k) - q15Rat w1 * sinDeg (theta - 120 * k)

end Sys2Proof.Machine
end

