-- ==== Sys2Proof/Machine/Prot.lean ====
section
/-! DEFINITION. Feeder protection (chapter 09): phasors, elements, curves, direction, the thermal element, the limit-mode
discriminator and the trip issue. The breaker machine stands in Breaker.lean. -/

namespace Sys2Proof.Machine

open Sys2Proof

/-- A write ignored under chapter 09. -/
def protErr (s : State) : State := setF s Reg.PROT_STATUS F.PROT_STATUS_cfg_err 1

/-- Change a feeder. -/
def setFeeder (f : Fin 8) (x : FeederState) (s : State) : State :=
  { s with prot := { s.prot with feeders := s.prot.feeders.set f x } }

/-! ### Settings in force (R256) -/

/-- A settings register as it is in force: a word written takes effect at the next phasor update. -/
def protReg (s : State) (a : Nat) : Word := (s.prot.old.lookup a).getD (rd s a)

/-- Fields of a settings register in force. -/
def pfld (s : State) (a : Nat) (f : Fld) : Nat := getF (protReg s a) f
def pflg (s : State) (a : Nat) (f : Fld) : Bool := pfld s a f != 0
def pbit (s : State) (a : Nat) (f : Fld) (i : Nat) : Bool := (pfld s a f).testBit i
def psfld (s : State) (a : Nat) (f : Fld) : Int := ((protReg s a).extractLsb' f.lo f.w).toInt

/-- A settings register has been written over `w`: `w` stays in force until the next phasor update. -/
def keepForce (a : Nat) (w : Word) (s : State) : State :=
  if rd s a = w ∨ (s.prot.old.lookup a).isSome then s else { s with prot := { s.prot with old := (a, w) :: s.prot.old } }

/-- The settings written come into force. -/
def takeSettings (s : State) : State := { s with prot := { s.prot with old := [] } }

/-! ### Phasor arithmetic -/

def cxAdd (a b : Cx) : Cx := ⟨a.re + b.re, a.im + b.im⟩
def cxSub (a b : Cx) : Cx := ⟨a.re - b.re, a.im - b.im⟩
def cxScale (k : Rat) (a : Cx) : Cx := ⟨k * a.re, k * a.im⟩
def cxMul (a b : Cx) : Cx := ⟨a.re * b.re - a.im * b.im, a.re * b.im + a.im * b.re⟩
def cxConj (a : Cx) : Cx := ⟨a.re, -a.im⟩

/-- Squared magnitude: magnitudes are compared by their squares, exactly. -/
def cxSq (a : Cx) : Rat := a.re * a.re + a.im * a.im

/-- Magnitude and angle as the part computes them (log entry 10). -/
def cxMag (a : Cx) : Rat := sqrtR (cxSq a)
def cxAng (a : Cx) : Rat := argDeg a.re a.im

/-- A phasor of unit length at an angle. -/
def cxUnit (deg : Rat) : Cx := ⟨cosDeg deg, sinDeg deg⟩

/-- The rotations by 120° and 240° of R7. -/
def cxA : Cx := cxUnit 120
def cxA2 : Cx := cxUnit 240

/-- Sequence components of a phase set: positive, negative, and three times the zero sequence. -/
def seq1 (v : Vector Cx 3) : Cx := cxScale (1 / 3) (cxAdd v[0] (cxAdd (cxMul cxA v[1]) (cxMul cxA2 v[2])))
def seq2 (v : Vector Cx 3) : Cx := cxScale (1 / 3) (cxAdd v[0] (cxAdd (cxMul cxA2 v[1]) (cxMul cxA v[2])))
def seq0 (v : Vector Cx 3) : Cx := cxAdd v[0] (cxAdd v[1] v[2])

/-- The phase-to-phase voltages AB, BC, CA. -/
def lineToLine (v : Vector Cx 3) : Vector Cx 3 := #v[cxSub v[0] v[1], cxSub v[1] v[2], cxSub v[2] v[0]]

/-! ### Sampling and phasors (R252, R254) -/

/-- What the PHASOR tile hands on for one feeder at an update (R252, R254, R267, R270), in fractions of full scale: the
full-cycle and half-cycle phasors of I_A, I_B, I_C and of the measured residual with angles at the update instant, whether
more than 8 of the 64 samples of a window are replacements, and the largest |sample| of any phase in the last 32. -/
structure FeederPhasors where
  cur : Vector Cx 4
  half : Vector Cx 4
  bad : Vector Bool 4
  peak : Rat
  deriving DecidableEq, Repr

/-- One phasor update: the bus voltages V_A, V_B, V_C in the same form, the eight feeders, and the instant in TAI ns of the
oldest sample of the half-cycle windows. -/
structure PhasorSet where
  volt : Vector Cx 3
  voltHalf : Vector Cx 3
  voltBad : Vector Bool 3
  feeders : Vector FeederPhasors 8
  halfFrom : Rat
  deriving DecidableEq, Repr

/-- The spacing of the 64 samples of a cycle of f_tr, in ns. -/
def samplePeriod (s : State) : Rat := 1000000000000 / (64 * fld s Reg.PROT_FREQ F.PROT_FREQ_f)

/-- R252: the value at an instant in units of 25 ns by linear interpolation between two input words, by their tags modulo
65,536. -/
def sampleValue (w : SampleWords) (at25 : Rat) : Rat :=
  let a := q15Rat (q15 w.v0)
  let d := (w.tag1 - w.tag0).toNat
  let off := at25 - w.tag0.toNat
  if d = 0 then a else a + (q15Rat (q15 w.v1) - a) * (off - 65536 * (off / 65536).floor) / d

/-- R254: one sample enters a window; one formed from an unusable word is replaced by the sample 64 positions earlier. -/
def pushSample (w : SampleWords) (at25 : Rat) (x : SampleWin) : SampleWin :=
  { xs := ((if w.usable then sampleValue w at25 else x.xs.getD 63 0) :: x.xs).take 64, repl := ((!w.usable) :: x.repl).take 64 }

/-- The four samples of an input that end at an update, its newest taken at `t` ns. -/
def pushFour (ws : Vector SampleWords 4) (t step : Rat) (x : SampleWin) : SampleWin :=
  pushSample ws[3] (t / 25) (pushSample ws[2] ((t - step) / 25)
    (pushSample ws[1] ((t - 2 * step) / 25) (pushSample ws[0] ((t - 3 * step) / 25) x)))

/-- R252: the samples of an update enter the windows of the 35 inputs. -/
def takeSamples (x : PhasorSamples) (s : State) : State :=
  let t : Rat := nowNat s
  let d := samplePeriod s
  { s with prot := { s.prot with
    voltWin := Vector.ofFn (fun k : Fin 3 => pushFour x.volt[k] t d s.prot.voltWin[k])
    curWin := Vector.ofFn (fun f : Fin 8 => Vector.ofFn (fun k : Fin 4 => pushFour x.feeders[f][k] t d s.prot.curWin[f][k])) } }

/-- The rms phasor of the newest `n` samples, 64 a cycle, its angle that of the input at the newest one. -/
def dft (n : Nat) (x : SampleWin) : Cx :=
  let z := (x.xs.take n).zipIdx.foldl (fun (z : Cx) p => cxAdd z (cxScale p.1 (cxUnit (45 * (p.2 : Rat) / 8)))) {}
  cxScale (sqrtR 2 / n) z

/-- R254: more than 8 of a window's samples are replacements. -/
def windowBad (x : SampleWin) : Bool := decide (8 < x.repl.count true)

/-- The largest |sample| of the newest 32. -/
def windowPeak (x : SampleWin) : Rat := (x.xs.take 32).foldl (fun m v => max m |v|) 0

/-- The phasors of an update, its samples taken. -/
def phasors (s : State) : PhasorSet :=
  let v := s.prot.voltWin
  { volt := v.map (dft 64), voltHalf := v.map (dft 32), voltBad := v.map windowBad
    feeders := s.prot.curWin.map (fun (c : Vector SampleWin 4) =>
      ⟨c.map (dft 64), c.map (dft 32), c.map windowBad, max (windowPeak (c.get 0)) (max (windowPeak (c.get 1)) (windowPeak (c.get 2)))⟩)
    halfFrom := nowNat s - 31 * samplePeriod s }

/-! ### Measurement (R251 to R254) -/

/-- V_n, I_n and the scales. -/
def vn (s : State) : Nat := pfld s Reg.PROT_BUS_CFG F.PROT_BUS_CFG_v_n
def rated (s : State) (f : Nat) : Nat := pfld s (Reg.PROT_FDR_CFG f) F.PROT_FDR_CFG_i_n
def resMeas (s : State) (f : Nat) : Bool := pflg s (Reg.PROT_FDR_CFG f) F.PROT_FDR_CFG_res_meas
def iScale (s : State) (f : Nat) : Nat := pfld s (Reg.PROT_FDR_SCALE f) F.PROT_FDR_SCALE_i_fs
def inScale (s : State) (f : Nat) : Nat := pfld s (Reg.PROT_FDR_SCALE f) F.PROT_FDR_SCALE_in_fs

/-- Does the running image route a residual input to the feeder? -/
def residualRouted (s : State) (f : Nat) : Bool :=
  match s.fab.running with
  | none => false
  | some img => img.residualFeeders.any (fun g => g.val == f)

/-- A feeder with en at 0, or with i_n or a scale at 0, evaluates nothing (R251). -/
def feederOn (s : State) (f : Nat) : Bool :=
  pflg s (Reg.PROT_FDR_CFG f) F.PROT_FDR_CFG_en && rated s f != 0 && iScale s f != 0 && (!resMeas s f || inScale s f != 0)

/-- The quantities of one update in scaled form: currents in I_n, voltages in V_n, each on its own base. -/
structure FdrMeas where
  i : Vector Cx 3
  i0 : Cx
  v : Vector Cx 3
  iBad : Bool
  i0Bad : Bool
  vBad : Bool
  deriving DecidableEq, Repr

/-- Currents of a feeder in multiples of I_n, with 3I0 measured or calculated (R251). -/
def feederCurrents (s : State) (f : Nat) (ph : Vector Cx 4) : Vector Cx 3 × Cx :=
  let k : Rat := (iScale s f : Rat) / rated s f
  let i : Vector Cx 3 := #v[cxScale k ph[0], cxScale k ph[1], cxScale k ph[2]]
  (i, if resMeas s f then cxScale ((inScale s f : Rat) / rated s f) ph[3] else seq0 i)

/-- Bus voltages in multiples of V_n; all 0 where V_n is 0. -/
def busVoltages (s : State) (v : Vector Cx 3) : Vector Cx 3 :=
  let k : Rat := if vn s = 0 then 0 else (pfld s Reg.PROT_BUS_CFG F.PROT_BUS_CFG_v_fs : Rat) / vn s
  #v[cxScale k v[0], cxScale k v[1], cxScale k v[2]]

/-- The full-cycle quantities of a feeder at an update. -/
def feederMeas (s : State) (f : Fin 8) (x : PhasorSet) : FdrMeas :=
  let p := x.feeders[f]
  let c := feederCurrents s f p.cur
  let phBad := p.bad[0] || p.bad[1] || p.bad[2]
  { i := c.1, i0 := c.2, v := busVoltages s x.volt, iBad := phBad
    i0Bad := if resMeas s f then p.bad[3] || !residualRouted s f else phBad
    vBad := x.voltBad[0] || x.voltBad[1] || x.voltBad[2] }

/-- A magnitude in 0.001 I_n and an angle in 0.01°, for PROT_MEAS. -/
def measWord (m : Rat) (a : Rat) : Word :=
  BitVec.ofNat 32 ((min 65535 (m * 1000).floor.toNat) * 65536 + (BitVec.ofInt 16 (wrapDeg a * 100).floor).toNat)

/-- R252: show the phasors of a feeder, with angles to V1. -/
def showMeas (f : Fin 8) (m : FdrMeas) (s : State) : State :=
  let a1 := cxAng (seq1 m.v)
  let put := fun (k : Nat) (z : Cx) (s : State) => wr s (Reg.PROT_MEAS f k) (measWord (cxMag z) (cxAng z - a1))
  put 3 m.i0 (put 2 m.i[2] (put 1 m.i[1] (put 0 m.i[0] s)))

/-- A magnitude on the phase base V_n / √3, in 0.1 %, of a voltage in V_n. -/
def phaseBase (z : Cx) : Nat := (cxMag (cxScale 1000 z) * sqrtR 3).floor.toNat

/-- R252, R254: what an update shows of the bus set, and the invalid inputs it begins. -/
def busUpdate (x : PhasorSet) (s : State) : State :=
  let v := busVoltages s x.volt
  let s := whenS (!(x.voltBad[0] || x.voltBad[1] || x.voltBad[2])) (fun s =>
    setF (setF s Reg.PROT_BUS_MEAS F.PROT_BUS_MEAS_v1 (min 65535 (phaseBase (seq1 v)))) Reg.PROT_BUS_MEAS
      F.PROT_BUS_MEAS_v2 (min 65535 (phaseBase (seq2 v)))) s
  let s := forEach (List.finRange 3) (fun (k : Fin 3) s =>
    whenS (x.voltBad[k] && !s.prot.vInvalid[k]) (logN 0x600B 8 (4 + k.val)) s) s
  { s with prot := { s.prot with vInvalid := x.voltBad } }

/-- R254, R251: invalid inputs of a feeder, logged once per episode, and a measured residual the image does not route. -/
def noteInvalid (f : Fin 8) (x : PhasorSet) (s : State) : State :=
  let p := x.feeders[f]
  let s := forEach (List.finRange 4) (fun (k : Fin 4) s =>
    whenS (p.bad[k] && !(s.prot.feeders[f]).invalid[k]) (logN 0x600B f k) s) s
  let missing := resMeas s f && !residualRouted s f
  let s := whenS (missing && !(s.prot.feeders[f]).resLogged) (logN 0x600B f 3) s
  let s := setFeeder f { s.prot.feeders[f] with invalid := p.bad, resLogged := missing } s
  setF s (Reg.PROT_FDR_STATE f) F.PROT_FDR_STATE_phasor_invalid (b2n (p.bad[0] || p.bad[1] || p.bad[2] || p.bad[3]))

/-- The square of V1 on its phase base, at the last phasor update. -/
def v1Sq (s : State) : Rat := 3 * cxSq (seq1 (busVoltages s (s.prot.voltWin.map (dft 64))))

/-- R253: f_tr from the rotation of V1, each cycle; f_r until V1 first exceeds 10 %. -/
def execFreqTrack (f : BitVec 16) (s : State) : Out :=
  let bad := s.prot.vInvalid[0] || s.prot.vInvalid[1] || s.prot.vInvalid[2]
  let holds := bad || decide (v1Sq s < 1 / 100)
  let s := if 1 / 100 < v1Sq s ∧ !bad then { s with prot := { s.prot with tracked := true } } else s
  let s := setF s Reg.PROT_FREQ F.PROT_FREQ_hold (b2n holds)
  if !s.prot.tracked then
    let f60 := stageKind s 0 == kindGridForming && flg s (Reg.GFM_CFG 0) F.GFM_CFG_f60
    .next (setF s Reg.PROT_FREQ F.PROT_FREQ_f (if f60 then 60000 else 50000))
  else if holds then .next s
  else .next (setF s Reg.PROT_FREQ F.PROT_FREQ_f (max 45000 (min 65000 f.toNat)))

/-! ### Direction (R261 to R263) -/

/-- Decision of an angle difference against a characteristic angle: 1 forward, 2 reverse, 0 none. -/
def decideDir (diff rca : Rat) : Nat :=
  if |wrapDeg (diff - rca)| ≤ 85 then 1 else if |wrapDeg (diff - rca - 180)| ≤ 85 then 2 else 0

/-- LMD codes. -/
def lmdIdle : Nat := 0
def lmdWait : Nat := 1
def lmdMeasure : Nat := 2
def lmdTripped : Nat := 3
def lmdState (s : State) : Nat := fld s Reg.PROT_LMD_STATE F.PROT_LMD_STATE_state

/-- PROT_LMD_CFG in force (R266). -/
def lmdCfg (s : State) : Word := if lmdState s = lmdIdle then protReg s Reg.PROT_LMD_CFG else s.prot.lmdCfg

/-- Is a grid-forming stage (by index, 0 or 1) marked, and in LIMIT? -/
def lmdMarked (s : State) (g : Fin 2) : Bool :=
  getF (lmdCfg s) (if g = 0 then F.PROT_LMD_CFG_stage0 else F.PROT_LMD_CFG_stage2) == 1
def inLimit (s : State) (g : Fin 2) : Bool := flg s (Reg.GFM_STATE (2 * g)) F.GFM_STATE_limit
def markedLimit (s : State) (g : Fin 2) : Bool := lmdMarked s g && inLimit s g

/-- The stage that gives the θ reference: the marked stage in LIMIT, and of two the one whose onset is in use (R261). -/
def thetaStage (s : State) : Option (Fin 2) :=
  let inUse := rd64 s Reg.PROT_LMD_ONSET
  let own := fun (g : Fin 2) => rd64 s (Reg.GFM_ONSET (2 * g)) == inUse
  if markedLimit s 0 ∧ markedLimit s 1 then (if own 1 ∧ !own 0 then some 1 else some 0)
  else if markedLimit s 0 then some 0 else if markedLimit s 1 then some 1 else none

/-- f_r of a grid-forming stage in Hz. -/
def ratedHz (s : State) (g : Fin 2) : Nat := if flg s (Reg.GFM_CFG (2 * g)) F.GFM_CFG_f60 then 60 else 50

/-- θ of a stage advanced from its latest loop sample to now at f_r × (1 + Δω). -/
def thetaNow (s : State) (g : Fin 2) : Rat :=
  let z := s.gfm.stages[g]
  z.theta + 360 * ratedHz s g * (1 + z.dw) * ((localNs s - z.sampleAt : Nat) : Rat) / 1000000000

/-- v_min as a fraction. -/
def vMin (s : State) (f : Nat) : Rat := (pfld s (Reg.PROT_DIR f) F.PROT_DIR_v_min : Rat) / 1000

/-- The polarising angle of phase k: V_BC, V_CA, V_AB; by the θ reference, by voltage, or by memory (R261). -/
def polAngle (s : State) (f : Fin 8) (m : FdrMeas) (k : Fin 3) : Option Rat :=
  let x := s.prot.feeders[f]
  let pol := (lineToLine m.v)[k + 1]
  let low := cxSq pol < vMin s f * vMin s f
  if !low then some (cxAng pol)
  else match thetaStage s with
  | some g => some (thetaNow s g - 120 * k.val - 90)
  | none =>
    match x.memAt[k] with
    | some t =>
      if localNs s ≤ t + 100000000 then
        some (cxAng x.memV[k] + 360 * (fld s Reg.PROT_FREQ F.PROT_FREQ_f : Rat) / 1000 * ((localNs s - t : Nat) : Rat) / 1000000000)
      else none
    | none => none

/-- R261: the decision of a phase. -/
def phaseDir (s : State) (f : Fin 8) (m : FdrMeas) (k : Fin 3) : Nat :=
  if vn s = 0 ∨ cxSq m.i[k] < 1 / 400 then 0
  else match polAngle s f m k with
  | none => 0
  | some a => decideDir (cxAng m.i[k] - a) (psfld s (Reg.PROT_DIR f) F.PROT_DIR_rca_ph)

/-- R262: the residual decision. -/
def resDir (s : State) (f : Fin 8) (m : FdrMeas) : Nat :=
  let neg := pflg s (Reg.PROT_DIR f) F.PROT_DIR_pol_n
  let pol := if neg then seq2 m.v else seq0 m.v
  let i := if neg then seq2 m.i else m.i0
  -- magnitudes on the base V_n / √3, hence 3 |·|² against v_min²
  if vn s = 0 ∨ 3 * cxSq pol < vMin s f * vMin s f then 0
  else decideDir (cxAng i - cxAng (cxScale (-1) pol)) (psfld s (Reg.PROT_DIR f) F.PROT_DIR_rca_n)

/-- R261, R262: the directional step of an update. -/
def directionStep (f : Fin 8) (m : FdrMeas) (s : State) : State :=
  if m.iBad || m.vBad then s
  else
    let d := Vector.ofFn (fun (k : Fin 3) => phaseDir s f m k)
    let x := s.prot.feeders[f]
    let ll := lineToLine m.v
    let good := fun (k : Fin 3) => vMin s f * vMin s f ≤ cxSq ll[k + 1]
    let s := setFeeder f { x with
      dirPh := d
      memV := Vector.ofFn (fun (k : Fin 3) => if good k then ll[k + 1] else x.memV[k])
      memAt := Vector.ofFn (fun (k : Fin 3) => if good k then some (localNs s) else x.memAt[k]) } s
    let any := if d.toList.contains 1 then 1 else if d.toList.contains 2 then 2 else 0
    let s := setF s (Reg.PROT_FDR_STATE f) F.PROT_FDR_STATE_dir_ph any
    if m.i0Bad then s else setF s (Reg.PROT_FDR_STATE f) F.PROT_FDR_STATE_dir_n (resDir s f m)

/-! ### Curves (R258 to R260) -/

/-- M^P − 1 for the constants of Table 9.4. -/
def powM (m : Rat) (p : Rat) : Rat := (if p = 1 then m else if p = 2 then m * m else powR m p) - 1

/-- A, P, B of codes 1 to 7. -/
def curveConst (code : Nat) : Rat × Rat × Rat :=
  match code with
  | 1 => (7 / 50, 1 / 50, 0)
  | 2 => (27 / 2, 1, 0)
  | 3 => (80, 2, 0)
  | 4 => (120, 1, 0)
  | 5 => (103 / 2000, 1 / 50, 57 / 500)
  | 6 => (1961 / 100, 2, 491 / 1000)
  | _ => (141 / 5, 2, 1217 / 10000)

/-- tr in seconds: the table's for the IEEE curves, else the setting. -/
def curveTr (s : State) (f e code : Nat) : Rat :=
  match code with
  | 5 => 97 / 20
  | 6 => 108 / 5
  | 7 => 291 / 10
  | _ => (pfld s (Reg.PROT_OC_T f e) F.PROT_OC_T_tr : Rat) / 100

/-- t of a user curve at T = 1, in seconds (R260): none below its first point. -/
def userTime : List (Nat × Nat) → Rat → Option Rat
  | [], _ => none
  | [p], m => if (p.1 : Rat) / 100 ≤ m then some ((p.2 : Rat) / 1000) else none
  | p :: q :: l, m =>
    if m < (p.1 : Rat) / 100 then none
    else if m < (q.1 : Rat) / 100 then some (logLog p q m)
    else userTime (q :: l) m

/-- t(M) in seconds of an element's curve, M clamped to 20 (R258). -/
def curveTime (s : State) (f e code : Nat) (m : Rat) : Option Rat :=
  let t : Rat := (pfld s (Reg.PROT_OC_T f e) F.PROT_OC_T_mult : Rat) / 100
  let m := min m 20
  if code < 8 then
    let k := curveConst code
    some (t * (k.1 / powM m k.2.1 + k.2.2))
  else (userTime (s.prot.curves[Fin.ofNat 4 (code - 8)]) m).map (t * ·)

/-! ### Elements (R255, R259) -/

/-- Curve code of a current element; only 51P, 51N and 46 have one. -/
def curveOf (s : State) (f e : Nat) : Nat :=
  if e = 3 ∨ e = 5 ∨ e = 6 then pfld s (Reg.PROT_OC f e) F.PROT_OC_curve else 0

/-- Is the element started, and operated, now? -/
def isStarted (s : State) (f e : Nat) : Bool := fbit s (Reg.PROT_FDR_FLAGS f) F.PROT_FDR_FLAGS_started e
def isOperated (s : State) (f : Fin 8) (e : Nat) : Bool := (s.prot.feeders[f]).op.testBit e

/-- Set an element's start state; a start begins its timer, a dropout returns it to 0 (R255). -/
def setStarted (f : Fin 8) (e : Fin 13) (b : Bool) (s : State) : State :=
  let x := s.prot.feeders[f]
  let was := isStarted s f e
  let s := whenS (b && !was && fbit s Reg.REC_TRIG_FDR F.REC_TRIG_FDR_start f && fbit s Reg.REC_TRIG_FDR F.REC_TRIG_FDR_codes e)
    (recTrigNow srcStart) s
  let at' := if !b then none else if was then x.startAt[e] else some (localNs s)
  setFbit (setFeeder f { x with startAt := x.startAt.set e at' } s) (Reg.PROT_FDR_FLAGS f) F.PROT_FDR_FLAGS_started e b

/-- Set an operate output. -/
def setOp (f : Fin 8) (e : Nat) (b : Bool) (s : State) : State :=
  let x := s.prot.feeders[f]
  setFeeder f { x with op := putBit x.op e b } s

/-- A definite-time element: it operates when it has stayed started for its delay (R255). -/
def definiteStep (f : Fin 8) (e : Fin 13) (delay : Nat) (s : State) : State :=
  match (s.prot.feeders[f]).startAt[e] with
  | none => setOp f e false s
  | some t => whenS (decide (t + delay ≤ localNs s)) (setOp f e true) s

/-- Pickup or Is in I_n. -/
def pickupOf (s : State) (f e : Nat) : Rat := (pfld s (Reg.PROT_OC f e) F.PROT_OC_pickup : Rat) / 100

/-- Squared start or dropout threshold of a current element. -/
def ocThreshold (s : State) (f e : Nat) : Rat :=
  let p := pickupOf s f e * (if curveOf s f e = 0 then 1 else 11 / 10) * (if isStarted s f e then 19 / 20 else 1)
  p * p

/-- Does a directional decision satisfy an element's dir setting (R263)? -/
def dirMatches (s : State) (f e decision : Nat) : Bool :=
  let d := pfld s (Reg.PROT_OC f e) F.PROT_OC_dir
  e == 6 || d == 0 || d == decision

/-- The squared quantity of a current element, and whether a phase or the residual exceeds its threshold with a matching
decision. -/
def ocQuantity (s : State) (f : Fin 8) (e : Nat) (m : FdrMeas) : Rat × Bool :=
  let thr := ocThreshold s f e
  if e ≤ 3 then
    let q := fun (k : Fin 3) => cxSq m.i[k]
    (max (q 0) (max (q 1) (q 2)),
      (List.finRange 3).any (fun (k : Fin 3) => thr ≤ q k && dirMatches s f e (s.prot.feeders[f]).dirPh[k]))
  else
    let z := if e = 6 then seq2 m.i else m.i0
    (cxSq z, thr ≤ cxSq z && dirMatches s f e (fld s (Reg.PROT_FDR_STATE f) F.PROT_FDR_STATE_dir_n))

/-- Store an accumulator. -/
def setAcc (f : Fin 8) (e : Fin 7) (a : Rat) (s : State) : State :=
  let x := s.prot.feeders[f]
  setFeeder f { x with acc := x.acc.set e a } s

/-- R259: the accumulator of an IDMT element over `dt` ns. -/
def idmtStep (f : Fin 8) (e : Fin 7) (m : Rat) (dt : Nat) (s : State) : State :=
  let code := curveOf s f e
  let a := (s.prot.feeders[f]).acc[e]
  let dts : Rat := (dt : Rat) / 1000000000
  if isStarted s f e then
    let a := match curveTime s f e code m with
      | none => a
      | some t => if t ≤ 0 then a + 1 else a + dts / t
    whenS (decide (1 ≤ a)) (setOp f e true) (setAcc f e a s)
  else
    let s := setOp f e false s
    if !pflg s (Reg.PROT_OC_T f e) F.PROT_OC_T_reset then setAcc f e 0 s
    else if 1 ≤ m then s
    else
      let t : Rat := (pfld s (Reg.PROT_OC_T f e) F.PROT_OC_T_mult : Rat) / 100
      let tr := t * curveTr s f e code / (1 - m * m)
      if tr ≤ 0 then setAcc f e 0 s else setAcc f e (max 0 (a - dts / tr)) s

/-- Does a current element use an invalid phasor (R254)? -/
def ocHeld (s : State) (f : Fin 8) (e : Fin 7) (iBad i0Bad vBad : Bool) : Bool :=
  (if e = 4 ∨ e = 5 then i0Bad else iBad) || (pfld s (Reg.PROT_OC f e) F.PROT_OC_dir != 0 && e != 6 && vBad)

/-- The timer of an element that holds stands still (R254). -/
def holdTimer (f : Fin 8) (e : Fin 13) (dt : Nat) (s : State) : State :=
  let x := s.prot.feeders[f]
  setFeeder f { x with startAt := x.startAt.set e (x.startAt[e].map (· + dt)) } s

/-- Forget the runs of the fast mode (R257). -/
def clearFast (f : Fin 8) (s : State) : State :=
  setFeeder f { s.prot.feeders[f] with
    fastAbove := Vector.replicate 3 0, fastBelow := Vector.replicate 3 0, fastOp := Vector.replicate 3 false } s

/-- Is 50P stage 1 in fast mode? -/
def fastMode (s : State) (f : Nat) : Bool :=
  pflg s (Reg.PROT_OC f 0) F.PROT_OC_en && pflg s (Reg.PROT_OC f 0) F.PROT_OC_fast

/-- One current element at an update; an element that uses an invalid phasor holds (R254). -/
def ocStep (f : Fin 8) (m : FdrMeas) (dt : Nat) (e : Fin 7) (s : State) : State :=
  if e = 0 ∧ fastMode s f then s
  else
  let s := if e = 0 then clearFast f s else s
  if !pflg s (Reg.PROT_OC f e) F.PROT_OC_en then
    setAcc f e 0 (setOp f e false (setStarted f (e.castLE (by omega)) false s))
  else if ocHeld s f e m.iBad m.i0Bad m.vBad then holdTimer f (e.castLE (by omega)) dt s
  else
    let q := ocQuantity s f e m
    let s := setStarted f (e.castLE (by omega)) q.2 s
    if curveOf s f e = 0 then
      definiteStep f (e.castLE (by omega)) (10000000 * pfld s (Reg.PROT_OC_T f e) F.PROT_OC_T_mult) s
    else
      let mm := if pickupOf s f e = 0 then 0 else sqrtR q.1 / pickupOf s f e
      let x := s.prot.feeders[f]
      idmtStep f e mm dt (setFeeder f { x with lastM := x.lastM.set e mm } s)

/-- A voltage or frequency element (codes 9 to 12): started, and its delay. -/
def vfStep (f : Fin 8) (m : FdrMeas) (dt : Nat) (v : Fin 4) (s : State) : State :=
  let e : Fin 13 := ⟨9 + v.val, by omega⟩
  let a := Reg.PROT_VF f v
  if !pflg s a F.PROT_VF_en ∨ vn s = 0 then setOp f e false (setStarted f e false s)
  else if m.vBad then holdTimer f e dt s
  else
    let p := pfld s a F.PROT_VF_pickup
    let was := isStarted s f e
    let ll := (lineToLine m.v).toList.map cxSq
    let combine := fun (t : Rat → Bool) => if pflg s a F.PROT_VF_all then ll.all t else ll.any t
    let sq := fun (r : Rat) => r * r
    let fr := fld s Reg.PROT_FREQ F.PROT_FREQ_f
    let v1Low := decide (3 * cxSq (seq1 m.v) < 9 / 100)
    let on : Bool := match v with
      | 0 =>
        let dead := pflg s a F.PROT_VF_dead_block && ll.all (fun q => decide (q < 1 / 400))
        !dead && combine (fun q => decide (q ≤ sq ((p : Rat) / 1000 * (if was then 21 / 20 else 1))))
      | 1 => combine (fun q => decide (sq ((p : Rat) / 1000 * (if was then 19 / 20 else 1)) ≤ q))
      | 2 => !v1Low && decide (10 * p ≤ fr + (if was then 50 else 0))
      | _ => !v1Low && decide (fr ≤ 10 * p + (if was then 50 else 0))
    definiteStep f e (10000000 * pfld s a F.PROT_VF_delay) (setStarted f e on s)

/-- Elements of a feeder at an update (codes 0 to 6 and 9 to 12). -/
def elementsStep (f : Fin 8) (m : FdrMeas) (s : State) : State :=
  let x := s.prot.feeders[f]
  let dt := match x.lastUpd with | none => 0 | some t => localNs s - t
  let s := forEach (List.finRange 7) (fun e s => ocStep f m dt e s) s
  let s := forEach (List.finRange 4) (fun v s => vfStep f m dt v s) s
  let q := fun (k : Fin 3) => cxSq m.i[k]
  let x := s.prot.feeders[f]
  setFeeder f { x with
    lastUpd := some (localNs s)
    iMax2 := if m.iBad then x.iMax2 else max (q 0) (max (q 1) (q 2)) } s

/-! ### Thermal element (R264) -/

/-- Show θ. -/
def showTheta (f : Fin 8) (s : State) : State :=
  setF s (Reg.PROT_THERM_STATE f) F.PROT_THERM_STATE_theta
    (min 65535 ((s.prot.feeders[f]).theta * 10000).floor.toNat)

/-- The alarm of 49, on the level it stands at. -/
def thermAlarm (f : Fin 8) (s : State) : State :=
  let x := s.prot.feeders[f]
  let lvl : Rat := (pfld s (Reg.PROT_THERM f) F.PROT_THERM_alarm : Rat) / 100
  let above := pflg s (Reg.PROT_THERM f) F.PROT_THERM_en && decide (lvl ≤ x.theta)
  let was := flg s (Reg.PROT_THERM_STATE f) F.PROT_THERM_STATE_alarm
  let s := setF s (Reg.PROT_THERM_STATE f) F.PROT_THERM_STATE_alarm (b2n above)
  whenS (above && !was) (logN 0x600A f (x.theta * 10000).floor.toNat) (showTheta f s)

/-- The next update of 49, 10 ms after the last. -/
def reachThermal (f : Fin 8) (s : State) : State :=
  let s := match (s.prot.feeders[f]).thermAt with
    | none => s
    | some t => reachLocal (t + 10000000) s
  setFeeder f { s.prot.feeders[f] with thermAt := some (localNs s) } s

/-- R264: ten milliseconds of 49. -/
def execThermalUpdate (f : Fin 8) (s : State) : Out :=
  let s := reachThermal f s
  let x := s.prot.feeders[f]
  let a := Reg.PROT_THERM f
  if !feederOn s f then .next s
  else if !pflg s a F.PROT_THERM_en then .next (setOp f 8 false (setStarted f 8 false s))
  else if x.invalid[0] ∨ x.invalid[1] ∨ x.invalid[2] then .next s
  else
    let iref : Rat := (pfld s a F.PROT_THERM_i_ref : Rat) / 100
    let tau : Rat := 60 * pfld s a F.PROT_THERM_tau
    let th := x.theta + 1 / 100 / tau * (x.iMax2 / (iref * iref) - x.theta)
    let s := thermAlarm f (setFeeder f { x with theta := th } s)
    let on := if isOperated s f 8 then decide (19 / 20 ≤ th) else decide (1 ≤ th)
    .next (setOp f 8 on (setStarted f 8 on s))

/-- R264: the thermal levels are written to EMBER. -/
def thermalSave (s : State) : State :=
  forEach (List.finRange 8) (fun (f : Fin 8) s =>
    setFeeder f { s.prot.feeders[f] with thetaSaved := (s.prot.feeders[f]).theta, savedAt := now s } s) s

/-- R264: a second has passed since the last write. -/
def execThermalSave (s : State) : Out :=
  let s := match s.prot.savedFrom with
    | none => s
    | some t => reachLocal (t + 1000000000) s
  .next (thermalSave { s with prot := { s.prot with savedFrom := some (localNs s) } })

/-- R264: a warm or cold start restores θ, decayed by the time since its write where TIME is not UNSET. -/
def thermalRestore (s : State) : State :=
  forEach (List.finRange 8) (fun (f : Fin 8) s =>
    let x := s.prot.feeders[f]
    let dt : Rat := ((nowNat s - x.savedAt.toNat : Nat) : Rat) / 1000000000
    let tau : Rat := 60 * pfld s (Reg.PROT_THERM f) F.PROT_THERM_tau
    let th := if timeState s = timeUnset then x.thetaSaved else x.thetaSaved * expNeg (dt / tau)
    thermAlarm f (setFeeder f { x with theta := th } s)) s

/-! ### Limit-mode discriminator (R266 to R269) -/

/-- Set the state of LMD. -/
def setLmd (n : Nat) (s : State) : State := setF s Reg.PROT_LMD_STATE F.PROT_LMD_STATE_state n

/-- Clear the qualification counts and operate outputs of LMD. -/
def clearQual (s : State) : State :=
  forEach (List.finRange 8) (fun (f : Fin 8) s =>
    let s := setFeeder f { s.prot.feeders[f] with qualRun := 0, qualZ := none } s
    let s := setF s (Reg.PROT_FDR_STATE f) F.PROT_FDR_STATE_lmd_qual 0
    setOp f 14 false s) (setF s Reg.PROT_LMD_STATE F.PROT_LMD_STATE_qual 0)

/-- Exclude the feeders of a mask; every other exclusion stands as it was or clears. -/
def setExcluded (mask : Nat) (s : State) : State :=
  forEach (List.finRange 8) (fun (f : Fin 8) s =>
    setF s (Reg.PROT_FDR_STATE f) F.PROT_FDR_STATE_lmd_excluded (b2n (mask.testBit f)))
    (setF s Reg.PROT_LMD_STATE F.PROT_LMD_STATE_excluded mask)

/-- The instant at which the windows of MEASURE start: onset + 2 ms. -/
def windowsFrom (s : State) : Nat := (rd64 s Reg.PROT_LMD_ONSET).toNat + 2000000

/-- The mask of marked stages in LIMIT, by stage number. -/
def limitMask (s : State) : Nat := b2n (markedLimit s 0) + 4 * b2n (markedLimit s 1)

/-- WAIT_ARM to MEASURE where onset + 2 ms has come. -/
def lmdArm (s : State) : State :=
  if lmdState s = lmdWait ∧ windowsFrom s ≤ nowNat s then
    let o := rd64 s Reg.PROT_LMD_ONSET
    let s := { s with prot := { s.prot with lmdNoFeeder := false } }
    logEvent 0x6101 (limitMask s) (o.extractLsb' 0 32) (setLmd lmdMeasure (clearQual s))
  else s

/-- R266: a stage enters LIMIT with its onset; GFM_STATE_s.limit and GFM_ONSET_s hold it already. -/
def lmdLimitEntry (g : Fin 2) (s : State) : State :=
  let onset := rd64 s (Reg.GFM_ONSET (2 * g))
  if !lmdMarked s g then s
  else if lmdState s = lmdIdle then
    let s := { s with prot := { s.prot with lmdCfg := protReg s Reg.PROT_LMD_CFG } }
    let s := recTrig srcLmd onset.toNat s
    let s := setF (setExcluded 0 s) Reg.PROT_LMD_STATE F.PROT_LMD_STATE_tripped 0
    lmdArm (setLmd lmdWait (wr64 s Reg.PROT_LMD_ONSET onset))
  else if lmdState s = lmdWait ∧ onset.toNat < (rd64 s Reg.PROT_LMD_ONSET).toNat then
    lmdArm (wr64 s Reg.PROT_LMD_ONSET onset)
  else s

/-- R266: a marked stage leaves LIMIT while the other stays in it: in WAIT_ARM the onset in use is then the other's. After a
re-arming, which excludes a feeder, the onset is that of the open confirmation and stands. -/
def lmdOnset (s : State) : State :=
  if lmdState s = lmdWait ∧ fld s Reg.PROT_LMD_STATE F.PROT_LMD_STATE_excluded = 0 ∧ markedLimit s 0 ≠ markedLimit s 1 then
    lmdArm (wr64 s Reg.PROT_LMD_ONSET (rd64 s (Reg.GFM_ONSET (if markedLimit s 0 then 0 else 2))))
  else s

/-- R266: a stage has left LIMIT. Released, that is no marked stage is in LIMIT, LMD returns to IDLE, with LMD_ABORT before a
decision. -/
def lmdRelease (s : State) : State :=
  if lmdState s = lmdIdle then s
  else if markedLimit s 0 ∨ markedLimit s 1 then lmdOnset s
  else
    let s := whenS (lmdState s != lmdTripped) (logN 0x6103 0 (lmdState s)) s
    setLmd lmdIdle (clearQual s)

/-- R266: onset + 2 ms is reached. -/
def execLmdArmed (s : State) : Out :=
  if lmdState s = lmdWait then .next (lmdArm (reachNs s (BitVec.ofNat 64 (windowsFrom s)))) else .next s

/-- R266: onset + 20 ms is reached with no decision. -/
def execLmdNoFeeder (s : State) : Out :=
  if lmdState s = lmdMeasure ∧ !s.prot.lmdNoFeeder then
    let s := reachNs s (rd64 s Reg.PROT_LMD_ONSET + 20000000)
    .next (logN 0x6104 0 0 { s with prot := { s.prot with lmdNoFeeder := true } })
  else .next s

/-- The six loops of R267 in volts and amperes: voltage, current, and the larger phase current squared (in I_n²). -/
def lmdLoops (s : State) (f : Fin 8) (x : PhasorSet) : List (Nat × Cx × Cx × Rat) :=
  let c := feederCurrents s f (x.feeders[f]).half
  let i := c.1
  let v := busVoltages s x.voltHalf
  let k0 : Rat := (pfld s (Reg.PROT_LMD f) F.PROT_LMD_k0 : Rat) / 4
  let pair := fun (n : Nat) (a b : Fin 3) => (n, cxSub v[a] v[b], cxSub i[a] i[b], max (cxSq i[a]) (cxSq i[b]))
  let gnd := fun (n : Nat) (a : Fin 3) => (n, v[a], cxAdd i[a] (cxScale k0 c.2), cxSq i[a])
  [pair 0 0 1, pair 1 1 2, pair 2 2 0] ++
    (if resMeas s f && !residualRouted s f then [] else [gnd 3 0, gnd 4 1, gnd 5 2])

/-- The impedance of a loop in ohms, where its current is not 0: V in V_n and I in I_n give V / I × V_n / I_n. -/
def loopZ (s : State) (f : Fin 8) (v i : Cx) : Option Cx :=
  if cxSq i = 0 then none
  else some (cxScale ((vn s : Rat) * 10 / rated s f / cxSq i) (cxMul v (cxConj i)))

/-- The qualifying loops of a feeder (R267, 1 and 2): loop and |Z|². -/
def goodLoops (s : State) (f : Fin 8) (x : PhasorSet) : List (Nat × Rat) :=
  let r : Rat := (pfld s (Reg.PROT_LMD_REACH f) F.PROT_LMD_REACH_r_reach : Rat) / 100
  let xr : Rat := (pfld s (Reg.PROT_LMD_REACH f) F.PROT_LMD_REACH_x_reach : Rat) / 100
  let imin : Rat := (pfld s (Reg.PROT_LMD f) F.PROT_LMD_i_min : Rat) / 100
  (lmdLoops s f x).filterMap (fun l =>
    match loopZ s f l.2.1 l.2.2.1 with
    | none => none
    | some z =>
      if 0 ≤ z.re ∧ z.re ≤ r ∧ -xr / 10 ≤ z.im ∧ z.im ≤ xr ∧ imin * imin ≤ l.2.2.2 then some (l.1, cxSq z) else none)

/-- R267, 3: the direction test on the half-cycle quantities. -/
def lmdForward (s : State) (f : Fin 8) (x : PhasorSet) : Bool :=
  let i := (feederCurrents s f (x.feeders[f]).half).1
  let v := busVoltages s x.voltHalf
  let i1 := seq1 i
  let i2 := seq2 i
  if vn s = 0 then false
  else if cxSq i1 / 100 ≤ cxSq i2 then
    let d := wrapDeg (cxAng i2 - cxAng (cxScale (-1) (seq2 v)))
    decide (-150 ≤ d ∧ d ≤ 30)
  else match thetaStage s with
  | none => false
  | some g =>
    let d := wrapDeg (cxAng i1 - thetaNow s g)
    decide (-100 ≤ d ∧ d ≤ 10)

/-- The feeder with the smallest |Z|. -/
def smallest : List (Nat × Rat) → Option (Nat × Rat)
  | [] => none
  | a :: l => match smallest l with
    | none => some a
    | some b => some (if a.2 ≤ b.2 then a else b)

/-- Breaker states of PROT_FDR_STATE_f.bkr. -/
def bkrUnknown : Nat := 0
def bkrClosed : Nat := 1
def bkrTripping : Nat := 2
def bkrOpen : Nat := 3
def bkrFailed : Nat := 4
def bkrState (s : State) (f : Nat) : Nat := fld s (Reg.PROT_FDR_STATE f) F.PROT_FDR_STATE_bkr

/-- Is a feeder blocked from tripping (PROT_BLOCK)? -/
def feederBlocked (s : State) (f : Nat) : Bool := fbit s Reg.PROT_BLOCK F.PROT_BLOCK_feeder f

/-- R267, R268: qualification of a feeder at an update in MEASURE; invalid phasors hold its count. -/
def lmdQualify (f : Fin 8) (x : PhasorSet) (s : State) : State :=
  let p := x.feeders[f]
  let bad := p.bad[0] || p.bad[1] || p.bad[2] || (resMeas s f && residualRouted s f && p.bad[3]) ||
    x.voltBad[0] || x.voltBad[1] || x.voltBad[2]
  if lmdState s ≠ lmdMeasure ∨ !pflg s (Reg.PROT_LMD f) F.PROT_LMD_en ∨ !feederOn s f ∨
      x.halfFrom < windowsFrom s then s
  else
    let elig := !fbit s Reg.PROT_LMD_STATE F.PROT_LMD_STATE_excluded f && bkrState s f != bkrOpen && !feederBlocked s f
    let good := if elig && lmdForward s f x then goodLoops s f x else []
    let q := !bad && !good.isEmpty
    let y := s.prot.feeders[f]
    let s := setF s (Reg.PROT_FDR_STATE f) F.PROT_FDR_STATE_lmd_qual (b2n q)
    let s := setFbit s Reg.PROT_LMD_STATE F.PROT_LMD_STATE_qual f q
    if bad then s
    else setFeeder f { y with qualRun := if q then y.qualRun + 1 else 0, qualZ := smallest good } s

/-- R268: the decision across the feeders: those to trip, each with loop and |Z| in mΩ. -/
def lmdDecide (s : State) : List (Fin 8) :=
  let n := max 1 (getF (lmdCfg s) F.PROT_LMD_CFG_n)
  if lmdState s ≠ lmdMeasure then []
  else
    let c := (List.finRange 8).filter (fun (f : Fin 8) =>
      n ≤ (s.prot.feeders[f]).qualRun && flg s (Reg.PROT_FDR_STATE f) F.PROT_FDR_STATE_lmd_qual)
    let z := fun (f : Fin 8) => ((s.prot.feeders[f]).qualZ.map (·.2)).getD 0
    match smallest (c.map (fun f => (f.val, z f))) with
    | none => []
    | some m => c.filter (fun f => z f ≤ 25 / 16 * m.2)

/-- The argument of LMD_TRIP. -/
def lmdArg (x : FeederState) : Nat :=
  match x.qualZ with
  | none => 0
  | some (l, z2) => l * 0x1000000 + min 0xFFFFFF (sqrtR z2 * 1000).floor.toNat

/-- Table 9.5: the decision; the trips are issued as operate outputs of code 14 that rise at this update. -/
def lmdTake (s : State) : State :=
  match lmdDecide s with
  | [] => s
  | l =>
    let s := setLmd lmdTripped s
    forEach l (fun (f : Fin 8) s =>
      let s := setFbit s Reg.PROT_LMD_STATE F.PROT_LMD_STATE_tripped f true
      setOp f 14 true (logN 0x6102 f (lmdArg s.prot.feeders[f]) s)) s

/-- The latest of a list of instants. -/
def latestOf (l : List (BitVec 64)) : BitVec 64 := l.foldl (fun a b => if a.toNat < b.toNat then b else a) 0

/-- Table 9.5: every feeder tripped by LMD is OPEN while not released: they are excluded and LMD re-arms. -/
def lmdRearm (s : State) : State :=
  let fresh := (List.finRange 8).filter (fun (f : Fin 8) => isOperated s f 14)
  if lmdState s = lmdTripped ∧ !fresh.isEmpty ∧ fresh.all (fun f => bkrState s f == bkrOpen) then
    let mask := fresh.foldl (fun n (f : Fin 8) => putBit n f true) (fld s Reg.PROT_LMD_STATE F.PROT_LMD_STATE_excluded)
    let onset := latestOf (fresh.map (fun (f : Fin 8) => (s.prot.feeders[f]).openAt))
    let s := setExcluded mask (clearQual s)
    lmdArm (logN 0x6105 0 mask (setLmd lmdWait (wr64 s Reg.PROT_LMD_ONSET onset)))
  else s

/-! ### Unit elements (R265) -/

/-- Change an element 32. -/
def setUnit32 (g : Fin 2) (x : Unit32) (s : State) : State :=
  { s with prot := { s.prot with u32 := s.prot.u32.set g x } }

/-- P_f of a stage beyond a threshold in PU12, in the mode of its 32. -/
def beyond32 (s : State) (g : Fin 2) (thr : Rat) : Bool :=
  let p := (s.gfm.stages[g]).pf * 4096
  if pflg s (Reg.PROT_32 g) F.PROT_32_mode then decide (thr < p) else decide (p < -thr)

/-- R265: at each sample of P_f, start or dropout at 0.9 × pickup. -/
def unit32Step (g : Fin 2) (s : State) : State :=
  let x := s.prot.u32[g]
  let pk : Rat := pfld s (Reg.PROT_32 g) F.PROT_32_pickup
  let on := pflg s (Reg.PROT_32 g) F.PROT_32_en && beyond32 s g (if x.op then pk * 9 / 10 else pk)
  if !on then setUnit32 g {} s
  else setUnit32 g { x with since := some (x.since.getD (localNs s)) } s

/-! ### Writes (R251, R256, R260) -/

/-- A setting is in its range. -/
def inRange (lo v hi : Nat) : Bool := lo ≤ v && v ≤ hi

/-- A write judged whole (R256). -/
def protWrite (a : Nat) (v mask : Word) (ok : Bool) (s : State) : State :=
  if ok then wr s a ((rd s a &&& ~~~mask) ||| (v &&& mask)) else protErr s

/-- Ranges of a current element's pickup (Table 9.3), in 0.01 I_n. -/
def ocRange (e : Nat) : Nat × Nat :=
  match e with
  | 0 | 1 | 2 => (5, 4000)
  | 3 => (5, 400)
  | 4 => (2, 2000)
  | 5 => (2, 200)
  | _ => (5, 200)

/-- A write of PROT_OC_f_e. -/
def writeOc (f : Fin 8) (e : Fin 7) (v : Word) (s : State) : State :=
  let en := getF v F.PROT_OC_en == 1
  let pk := getF v F.PROT_OC_pickup
  let r := ocRange e
  let curve := getF v F.PROT_OC_curve
  let n := fld s (Reg.PROT_FDR_CFG f) F.PROT_FDR_CFG_i_n
  let fs := fld s (Reg.PROT_FDR_SCALE f) F.PROT_FDR_SCALE_i_fs
  -- √2 × pickup × I_n at most i_fs, in hundredths squared
  let fastBad := e == 0 && getF v F.PROT_OC_fast == 1 && 10000 * (fs * fs) < 2 * (pk * n) * (pk * n)
  let ok := !en || (inRange r.1 pk r.2 && curve ≤ 11 && (curve == 0 || e == 3 || e == 5 || e == 6) &&
    getF v F.PROT_OC_dir ≤ 2 && !fastBad)
  if ok then wr s (Reg.PROT_OC f e) (v &&& 0xFFF0FFFF) else protErr s

/-- A write of PROT_OC_T_f_e: no en bit, so it is judged on every write; mult as a delay or as T by the element's curve. -/
def writeOcT (f : Fin 8) (e : Fin 7) (v : Word) (s : State) : State :=
  let m := getF v F.PROT_OC_T_mult
  let c := if e = 3 ∨ e = 5 ∨ e = 6 then fld s (Reg.PROT_OC f e) F.PROT_OC_curve else 0
  let mOk := if c = 0 then m ≤ 6000 else if 5 ≤ c ∧ c ≤ 7 then inRange 50 m 1500 else inRange 5 m 150
  protWrite (Reg.PROT_OC_T f e) v 0xFFFFFFFF (mOk && inRange 10 (getF v F.PROT_OC_T_tr) 60000) s

/-- A write of PROT_VF_f_v. -/
def writeVf (f : Fin 8) (k : Fin 4) (v : Word) (s : State) : State :=
  let en := getF v F.PROT_VF_en == 1
  let pk := getF v F.PROT_VF_pickup
  let r : Bool := match k with | 0 => inRange 100 pk 1000 | 1 => inRange 1000 pk 1500 | _ => inRange 4500 pk 6500
  let ok := !en || (r && inRange 5 (getF v F.PROT_VF_delay) 6000)
  if ok then wr s (Reg.PROT_VF f k) v else protErr s

/-- A write of PROT_THERM_f. -/
def writeTherm (f : Fin 8) (v : Word) (s : State) : State :=
  let en := getF v F.PROT_THERM_en == 1
  let ok := !en || (inRange 50 (getF v F.PROT_THERM_alarm) 100 && inRange 1 (getF v F.PROT_THERM_tau) 240 &&
    inRange 10 (getF v F.PROT_THERM_i_ref) 200)
  if ok then wr s (Reg.PROT_THERM f) v else protErr s

/-- A write of PROT_LMD_f, of its reach, of PROT_DIR_f and of PROT_TC_CFG_f. -/
def writeLmdF (f : Nat) (v : Word) (s : State) : State :=
  protWrite (Reg.PROT_LMD f) v 0x8F00FFFF (getF v F.PROT_LMD_en == 0 || inRange 10 (getF v F.PROT_LMD_i_min) 300) s
def writeReach (f : Nat) (v : Word) (s : State) : State :=
  protWrite (Reg.PROT_LMD_REACH f) v 0xFFFFFFFF
    (inRange 1 (getF v F.PROT_LMD_REACH_x_reach) 10000 && inRange 1 (getF v F.PROT_LMD_REACH_r_reach) 10000) s
def writeDir (f : Nat) (v : Word) (s : State) : State :=
  let ang := fun (n : Nat) => let k := (BitVec.ofNat 8 n).toInt; decide (-90 ≤ k ∧ k ≤ 90)
  protWrite (Reg.PROT_DIR f) v 0xFFFF80FF
    (ang (getF v F.PROT_DIR_rca_ph) && ang (getF v F.PROT_DIR_rca_n) && inRange 5 (getF v F.PROT_DIR_v_min) 200) s
def writeTc (f : Nat) (v : Word) (s : State) : State :=
  protWrite (Reg.PROT_TC_CFG f) v 0xB000FFFF (getF v F.PROT_TC_CFG_en == 0 || inRange 10 (getF v F.PROT_TC_CFG_t_74) 1000) s

/-- A write of PROT_FDR_CFG_f: res_meas is RWL under the image's lock, and needs a routed residual (R251). -/
def writeFdrCfg (f : Fin 8) (v : Word) (s : State) : State :=
  let rm := getF v F.PROT_FDR_CFG_res_meas
  let locked := lockedAt s (Reg.PROT_FDR_CFG f)
  if !locked ∧ rm = 1 ∧ !residualRouted s f then protErr s
  else
    let s := setF s (Reg.PROT_FDR_CFG f) F.PROT_FDR_CFG_en (getF v F.PROT_FDR_CFG_en)
    let s := setF s (Reg.PROT_FDR_CFG f) F.PROT_FDR_CFG_i_n (getF v F.PROT_FDR_CFG_i_n)
    if locked then s else setF s (Reg.PROT_FDR_CFG f) F.PROT_FDR_CFG_res_meas rm

/-- A write of PROT_BKR_CFG_f, PROT_TRIP_MAP_f, PROT_BF_CFG_f and PROT_BF_MAP_f; RWL bits stay under the lock. -/
def rwl (s : State) (a : Nat) (rw lockable : Word) : Word := if lockedAt s a then rw else rw ||| lockable
def writeBkrCfg (f : Nat) (v : Word) (s : State) : State :=
  protWrite (Reg.PROT_BKR_CFG f) v (rwl s (Reg.PROT_BKR_CFG f) 0xFFFF 0xCFF00000) (inRange 5 (getF v F.PROT_BKR_CFG_i_open) 200) s
def writeTripMap (f : Nat) (v : Word) (s : State) : State :=
  protWrite (Reg.PROT_TRIP_MAP f) v (rwl s (Reg.PROT_TRIP_MAP f) 0xFF000000 0xFFFFF) (inRange 20 (getF v F.PROT_TRIP_MAP_t_min) 200) s
def writeBfCfg (f : Nat) (v : Word) (s : State) : State :=
  let tb := getF v F.PROT_BF_CFG_t_bf
  let tr := getF v F.PROT_BF_CFG_t_retrip
  protWrite (Reg.PROT_BF_CFG f) v 0xFFFFFFFF
    (getF v F.PROT_BF_CFG_en == 0 || (getF v F.PROT_BF_CFG_mode != 3 && inRange 30 tb 500 && tr ≤ 499 && tr < tb &&
      inRange 5 (getF v F.PROT_BF_CFG_i_bf) 200)) s
def writeBfMap (f : Nat) (v : Word) (s : State) : State := protWrite (Reg.PROT_BF_MAP f) v (rwl s (Reg.PROT_BF_MAP f) 0 0x0FFFFFFF) true s

/-- A write of PROT_LMD_CFG and of PROT_32_g. -/
def writeLmdCfg (v : Word) (s : State) : State :=
  protWrite Reg.PROT_LMD_CFG v 0x703 (inRange 1 (getF v F.PROT_LMD_CFG_n) 4) s
def write32 (g : Fin 2) (v : Word) (s : State) : State :=
  let en := getF v F.PROT_32_en == 1
  protWrite (Reg.PROT_32 g) v 0xCFFFFFFF
    (!en || (inRange 1 (getF v F.PROT_32_delay) 600 && inRange 41 (getF v F.PROT_32_pickup) 4096)) s

/-- The points of a curve's registers up to the one that ends the table. -/
def curvePoints (s : State) (u : Nat) : List (Nat × Nat) :=
  ((List.range 16).map (fun k =>
    (fld s (Reg.PROT_UCURVE u k) F.PROT_UCURVE_m, fld s (Reg.PROT_UCURVE u k) F.PROT_UCURVE_t))).takeWhile (fun p => p.1 != 0)

/-- Do the points keep the rules of R260? -/
def curveOk (l : List (Nat × Nat)) : Bool :=
  decide (2 ≤ l.length) && l.all (fun p => inRange 110 p.1 2000 && 1 ≤ p.2) &&
    (l.zip l.tail).all (fun q => q.1.1 < q.2.1 && q.2.2 ≤ q.1.2)

/-- R260: a write of a curve's point; a table that breaks the rules is not loaded. -/
def writeCurve (u : Fin 4) (k : Nat) (v : Word) (s : State) : State :=
  let s := wr s (Reg.PROT_UCURVE u k) v
  let l := curvePoints s u
  if curveOk l then { s with prot := { s.prot with curves := s.prot.curves.set u l } } else protErr s

end Sys2Proof.Machine
end

