-- ==== Sys2Proof/Machine/Breaker.lean ====
section
/-! DEFINITION. Breaker conversations (chapter 09): status, open confirmation, the trip issue, the breaker machine, 50BF,
74TC, and the order of an update (R276). -/

namespace Sys2Proof.Machine

open Sys2Proof

/-! ### Status (R270, R272) -/

/-- The debounced level of an input. -/
def diLevel (s : State) (n : Nat) : Bool := fbit s Reg.FIO_DI_STATE F.FIO_DI_STATE_debounced n

/-- Are status inputs used? -/
def aUsed (s : State) (f : Nat) : Bool := pflg s (Reg.PROT_BKR_CFG f) F.PROT_BKR_CFG_a_en
def bUsed (s : State) (f : Nat) : Bool := pflg s (Reg.PROT_BKR_CFG f) F.PROT_BKR_CFG_b_en
def aLevel (s : State) (f : Nat) : Bool := diLevel s (pfld s (Reg.PROT_BKR_CFG f) F.PROT_BKR_CFG_di_a)
def bLevel (s : State) (f : Nat) : Bool := diLevel s (pfld s (Reg.PROT_BKR_CFG f) F.PROT_BKR_CFG_di_b)

/-- The breaker's status. -/
inductive BkrStatus where
  | none | isOpen | isClosed | unknown
  deriving DecidableEq, Repr

def bkrStatus (s : State) (f : Nat) : BkrStatus :=
  if !aUsed s f ∧ !bUsed s f then .none
  else if flg s (Reg.PROT_FDR_STATE f) F.PROT_FDR_STATE_status_invalid then .unknown
  else if aUsed s f then (if aLevel s f then .isClosed else .isOpen)
  else if bLevel s f then .isOpen else .isClosed

/-- Has no sample of any phase exceeded √2 × i_open (i_bf in TRIPPING) in the last 32 samples (R270)? -/
def currentOpen (s : State) (f : Fin 8) : Bool :=
  let th : Rat := if bkrState s f = bkrTripping then pfld s (Reg.PROT_BF_CFG f) F.PROT_BF_CFG_i_bf
    else pfld s (Reg.PROT_BKR_CFG f) F.PROT_BKR_CFG_i_open
  (s.prot.feeders[f]).peak2 ≤ 2 * (th / 100) * (th / 100)

/-- R272: is open confirmed? -/
def openConfirmed (s : State) (f : Fin 8) : Bool :=
  let st := bkrStatus s f == .isOpen
  match pfld s (Reg.PROT_BF_CFG f) F.PROT_BF_CFG_mode with
  | 0 => currentOpen s f
  | 1 => st
  | 2 => st && currentOpen s f
  | _ => Config.openReserved (currentOpen s f) st

/-- Does a local interval that began at an instant last 20 ms? -/
def lasts20 (t : Option Nat) (s : State) : Bool :=
  match t with | none => false | some t => t + 20000000 ≤ localNs s

/-- Begin or keep an interval while a condition holds. -/
def interval (t : Option Nat) (b : Bool) (s : State) : Option Nat := if b then some (t.getD (localNs s)) else none

/-- R270: read the inputs of a feeder: 52a against 52b, status against current. -/
def statusStep (f : Fin 8) (s : State) : State :=
  let x := s.prot.feeders[f]
  let same := aUsed s f && bUsed s f && aLevel s f == bLevel s f
  let t := interval x.sameFrom same s
  let s := setFeeder f { x with sameFrom := t } s
  let was := flg s (Reg.PROT_FDR_STATE f) F.PROT_FDR_STATE_status_invalid
  if lasts20 t s then
    whenS (!was) (logN 0x6006 f 2) (setF s (Reg.PROT_FDR_STATE f) F.PROT_FDR_STATE_status_invalid 1)
  else whenS (!same) (fun s => setF s (Reg.PROT_FDR_STATE f) F.PROT_FDR_STATE_status_invalid 0) s

/-! ### Outputs of protection (R265, R271, R273) -/

/-- Does the trip command of a feeder hold? -/
def tripCmd (s : State) (f : Nat) : Bool := flg s (Reg.PROT_FDR_STATE f) F.PROT_FDR_STATE_trip_cmd

/-- Do 50BF outputs, or retrip outputs, hold? -/
def bfHolds (s : State) (f : Fin 8) : Bool := (s.prot.feeders[f]).bfAt.isSome

/-- Does an element 32 act? -/
def acts32 (s : State) (g : Fin 2) : Bool :=
  (s.prot.u32[g]).op && !fbit s Reg.PROT_BLOCK F.PROT_BLOCK_unit32 g

/-- Does a protection command energise TRIPn? Commands are combined by OR (R271). -/
def protTrip (s : State) (n : Nat) : Bool :=
  (List.finRange 8).any (fun (f : Fin 8) =>
    (tripCmd s f && pbit s (Reg.PROT_TRIP_MAP f) F.PROT_TRIP_MAP_trip n) ||
    ((s.prot.feeders[f]).retripOut && pbit s (Reg.PROT_BF_MAP f) F.PROT_BF_MAP_retrip n) ||
    (bfHolds s f && pbit s (Reg.PROT_BF_MAP f) F.PROT_BF_MAP_trip n)) ||
  (List.finRange 2).any (fun (g : Fin 2) => acts32 s g && pbit s (Reg.PROT_32_MAP g) F.PROT_32_MAP_trip n)

/-- Does a protection command hold on DOn? -/
def protDo (s : State) (n : Nat) : Bool :=
  (List.finRange 8).any (fun (f : Fin 8) =>
    (tripCmd s f && pbit s (Reg.PROT_TRIP_MAP f) F.PROT_TRIP_MAP_do n) ||
    (bfHolds s f && pbit s (Reg.PROT_BF_MAP f) F.PROT_BF_MAP_do n)) ||
  (List.finRange 2).any (fun (g : Fin 2) => acts32 s g && pbit s (Reg.PROT_32_MAP g) F.PROT_32_MAP_do n)

/-- Does the gate-block line of a PROTECT tile stand active on a stage? -/
def protLine (s : State) (st : Nat) : Bool :=
  (List.finRange 8).any (fun (f : Fin 8) => bfHolds s f && pbit s (Reg.PROT_BF_MAP f) F.PROT_BF_MAP_block st) ||
  (List.finRange 2).any (fun (g : Fin 2) => acts32 s g && pbit s (Reg.PROT_32_MAP g) F.PROT_32_MAP_block st)

/-- The gate-block lines after a change of the outputs. -/
def refreshLines (s : State) : State :=
  forEach (List.finRange 4) (fun (st : Fin 4) s =>
    setStage st { s.loop.stages[st] with lineProt := protLine s st } s) s

/-! ### Trips and the breaker machine (R271, R273, R274) -/

/-- Set a breaker state. -/
def setBkr (f : Fin 8) (n : Nat) (s : State) : State := setF s (Reg.PROT_FDR_STATE f) F.PROT_FDR_STATE_bkr n

/-- Set or end a trip command. -/
def setTripCmd (f : Fin 8) (b : Bool) (s : State) : State :=
  setFbit (setF s (Reg.PROT_FDR_STATE f) F.PROT_FDR_STATE_trip_cmd (b2n b)) Reg.PROT_STATUS F.PROT_STATUS_trip_cmd f b

/-- R271: what issuing a trip does at once. -/
def issueTrip (f : Fin 8) (mask : Nat) (s : State) : State :=
  let s := whenS (fbit s Reg.REC_TRIG_FDR F.REC_TRIG_FDR_trip f) (recTrigNow srcTrip) s
  let s := setTripCmd f true s
  let s := wr64 s (Reg.PROT_TRIP_TIME f) (now s)
  let s := bumpSat (Reg.PROT_FDR_COUNT f) F.PROT_FDR_COUNT_trip_count s
  logN 0x6002 f mask (setFeeder f { s.prot.feeders[f] with latestAt := localNs s } s)

/-- Are retrip and 50BF enabled? -/
def bfOn (s : State) (f : Nat) : Bool := pflg s (Reg.PROT_BF_CFG f) F.PROT_BF_CFG_en

/-- Row 8: 50BF operates, with the criteria that show the breaker closed. -/
def bfOperate (f : Fin 8) (s : State) : State :=
  let cc := !currentOpen s f
  let stBad := bkrStatus s f != .isOpen
  let mode := pfld s (Reg.PROT_BF_CFG f) F.PROT_BF_CFG_mode
  let arg := b2n (cc && mode != 1) + 2 * b2n (stBad && mode != 0)
  let s := setFeeder f { s.prot.feeders[f] with bfAt := some (localNs s) } (setBkr f bkrFailed s)
  let s := setFbit s Reg.PROT_STATUS F.PROT_STATUS_bf f true
  let s := setFbit s (Reg.PROT_FDR_FLAGS f) F.PROT_FDR_FLAGS_operated 13 true
  let s := bumpSat (Reg.PROT_FDR_COUNT f) F.PROT_FDR_COUNT_bf_count s
  let s := refreshLines (logN 0x6005 f arg s)
  blockStages 3 (pfld s (Reg.PROT_BF_MAP f) F.PROT_BF_MAP_block) s

/-- t_min, t_retrip and t_bf in ns. -/
def tMin (s : State) (f : Nat) : Nat := 1000000 * pfld s (Reg.PROT_TRIP_MAP f) F.PROT_TRIP_MAP_t_min
def tRetrip (s : State) (f : Nat) : Nat := 1000000 * pfld s (Reg.PROT_BF_CFG f) F.PROT_BF_CFG_t_retrip
def tBf (s : State) (f : Nat) : Nat := 1000000 * pfld s (Reg.PROT_BF_CFG f) F.PROT_BF_CFG_t_bf

/-- Rows 1 and 2. -/
def rowUnknown (f : Fin 8) (s : State) : State :=
  if bkrState s f ≠ bkrUnknown then s
  else if bkrStatus s f = .isClosed ∨ !currentOpen s f then setBkr f bkrClosed s
  else if openConfirmed s f then
    setFeeder f { s.prot.feeders[f] with openAt := now s } (setBkr f bkrOpen s)
  else s

/-- Rows 3 to 5, and R274: a trip has been issued; 50BF acts at once by row 8, so not on a confirmed open. -/
def rowIssued (f : Fin 8) (s : State) : State :=
  let st := bkrState s f
  let s := if st = bkrClosed ∨ st = bkrUnknown then
      setBkr f bkrTripping (setFeeder f { s.prot.feeders[f] with
        issueAt := localNs s, retripped := false } s)
    else s
  if bkrState s f = bkrTripping ∧ bfOn s f ∧ pflg s (Reg.PROT_BF_CFG f) F.PROT_BF_CFG_tc_fast ∧
      flg s (Reg.PROT_FDR_STATE f) F.PROT_FDR_STATE_tc_alarm ∧ !openConfirmed s f then bfOperate f s else s

/-- Row 6. -/
def rowRetrip (f : Fin 8) (s : State) : State :=
  let x := s.prot.feeders[f]
  if bkrState s f = bkrTripping ∧ bfOn s f ∧ tRetrip s f ≠ 0 ∧ !x.retripped ∧ x.issueAt + tRetrip s f ≤ localNs s ∧
      !openConfirmed s f then
    logN 0x6004 f 0 (setFeeder f { x with retripped := true, retripOut := true } s)
  else s

/-- Rows 7 and 9: open is confirmed. -/
def rowOpened (f : Fin 8) (s : State) : State :=
  let st := bkrState s f
  if (st = bkrTripping ∨ st = bkrFailed) ∧ openConfirmed s f then
    let x := s.prot.feeders[f]
    let s := setFeeder f { x with openAt := now s, closedFrom := none } (setBkr f bkrOpen s)
    if st = bkrTripping then logN 0x6003 f (min 0xFFFFFFFF ((localNs s - x.issueAt) / 1000000)) s else s
  else s

/-- Row 8. -/
def rowFail (f : Fin 8) (s : State) : State :=
  if bkrState s f = bkrTripping ∧ bfOn s f ∧ (s.prot.feeders[f]).issueAt + tBf s f ≤ localNs s ∧ !openConfirmed s f then
    bfOperate f s
  else s

/-- Rows 10 and 11. -/
def rowOpenClosed (f : Fin 8) (s : State) : State :=
  let x := s.prot.feeders[f]
  let t := interval x.closedFrom (!currentOpen s f) s
  let s := setFeeder f { x with closedFrom := t } s
  if bkrState s f = bkrOpen ∧ !tripCmd s f ∧ (bkrStatus s f = .isClosed ∨ lasts20 t s) then setBkr f bkrClosed s
  else if bkrState s f = bkrClosed ∧ !tripCmd s f ∧ bkrStatus s f = .isOpen ∧ currentOpen s f then
    logN 0x6007 f 0 (setBkr f bkrOpen (setFeeder f { s.prot.feeders[f] with openAt := now s } s))
  else s

/-- Row 12: status open against flowing current. -/
def rowDiscrepancy (f : Fin 8) (s : State) : State :=
  let st := bkrState s f
  let x := s.prot.feeders[f]
  let against := bkrStatus s f == .isOpen && !currentOpen s f && (st == bkrClosed || st == bkrTripping)
  let t := interval x.againstFrom against s
  let s := setFeeder f { x with againstFrom := t } s
  let was := flg s (Reg.PROT_FDR_STATE f) F.PROT_FDR_STATE_discrepancy
  let agree := (bkrStatus s f == .isOpen) == currentOpen s f
  if lasts20 t s then whenS (!was) (logN 0x6006 f 1) (setF s (Reg.PROT_FDR_STATE f) F.PROT_FDR_STATE_discrepancy 1)
  else whenS agree (fun s => setF s (Reg.PROT_FDR_STATE f) F.PROT_FDR_STATE_discrepancy 0) s

/-- The trip command ends when open is confirmed and t_min has passed since the latest issue; the retrip outputs end with
it, and those of 50BF t_min after its operation. -/
def endCommands (f : Fin 8) (s : State) : State :=
  let x := s.prot.feeders[f]
  let s := if tripCmd s f ∧ bkrState s f = bkrOpen ∧ x.latestAt + tMin s f ≤ localNs s then
      setTripCmd f false (setFeeder f { x with retripOut := false } s)
    else s
  let x := s.prot.feeders[f]
  match x.bfAt with
  | none => s
  | some t =>
    if bkrState s f = bkrOpen ∧ t + tMin s f ≤ localNs s then
      refreshLines (setFeeder f { x with bfAt := none } s)
    else s

/-- Table 9.6 in row order; row 13 renews the command in FAILED, which the issue has done. -/
def breakerMachine (f : Fin 8) (issued : Bool) (s : State) : State :=
  let s := whenS issued (rowIssued f) (rowUnknown f s)
  let confirmed := openConfirmed s f
  let s := if confirmed then rowOpened f s else rowOpened f (rowFail f (rowRetrip f s))
  let s := rowDiscrepancy f (rowOpenClosed f s)
  -- a state left OPEN without status or current evidence stays as it is
  endCommands f s

/-! ### 74TC (R275, R351, R358) -/

/-- The continuity of a TRIP output as this partner takes it: the field die's judgement, or the partner's from its
heartbeat where this one does not hold OWNER; none where no judgement is current. -/
def tripIntact (s : State) (n : Nat) : Option Bool :=
  if flg s Reg.DPX_CFG F.DPX_CFG_en ∧ !s.loop.owner then
    s.dpx.partner.tripCircuit[Fin.ofNat 4 n]
  else if fbit s Reg.FIO_TRIP_STATE F.FIO_TRIP_STATE_measured n then
    some (fbit s Reg.FIO_TRIP_STATE F.FIO_TRIP_STATE_intact n)
  else none

/-- The alarm of 74TC. -/
def setTcAlarm (f : Fin 8) (b : Bool) (s : State) : State :=
  let out := pfld s (Reg.PROT_TC_CFG f) F.PROT_TC_CFG_out
  let s := setF s (Reg.PROT_FDR_STATE f) F.PROT_FDR_STATE_tc_alarm (b2n b)
  logN (if b then 0x6008 else 0x6009) f out (setFbit s (Reg.PROT_FDR_FLAGS f) F.PROT_FDR_FLAGS_started 7 b)

/-- R275: count the trip circuit's state up to now. -/
def tcStep (f : Fin 8) (s : State) : State :=
  let x := s.prot.feeders[f]
  let dt := localNs s - x.tcLast
  let s := setFeeder f { x with tcLast := localNs s } s
  let x := s.prot.feeders[f]
  let alarm := flg s (Reg.PROT_FDR_STATE f) F.PROT_FDR_STATE_tc_alarm
  if !pflg s (Reg.PROT_TC_CFG f) F.PROT_TC_CFG_en then s
  else if (aUsed s f ∨ bUsed s f) ∧ bkrStatus s f ≠ .isClosed then s
  else match tripIntact s (pfld s (Reg.PROT_TC_CFG f) F.PROT_TC_CFG_out) with
  | none => s
  | some false =>
    let s := setFeeder f { x with tcOpen := x.tcOpen + dt, tcGood := 0 } s
    let due := decide (10000000 * pfld s (Reg.PROT_TC_CFG f) F.PROT_TC_CFG_t_74 ≤ x.tcOpen + dt)
    whenS (due && !alarm) (setTcAlarm f true) s
  | some true =>
    let s := setFeeder f { x with tcOpen := 0, tcGood := x.tcGood + dt } s
    whenS (alarm && decide (1000000000 ≤ x.tcGood + dt)) (setTcAlarm f false) s

/-! ### The order of an update (R276) -/

/-- The first half of an update on one feeder: status, direction, elements, qualification. -/
def feederFirst (x : PhasorSet) (f : Fin 8) (s : State) : State :=
  if !feederOn s f then s
  else
    let s := noteInvalid f x s
    let k : Rat := (iScale s f : Rat) / rated s f * (x.feeders[f]).peak
    let s := setFeeder f { s.prot.feeders[f] with peak2 := k * k } s
    let m := feederMeas s f x
    let s := statusStep f (if m.iBad || m.vBad then s else showMeas f m s)
    lmdQualify f x (elementsStep f m (directionStep f m s))

/-- Log the operate outputs that rose, and keep them in the flags. -/
def noteOperated (f : Fin 8) (mask : Nat) (s : State) : State :=
  forEach (setBits mask 16) (fun e s =>
    logN 0x6001 f e (setFbit s (Reg.PROT_FDR_FLAGS f) F.PROT_FDR_FLAGS_operated e true)) s

/-- Operate outputs that rose since the last update. -/
def risen (s : State) (f : Fin 8) : Nat :=
  let x := s.prot.feeders[f]
  ((BitVec.ofNat 16 x.op) &&& ~~~(BitVec.ofNat 16 x.opPrev)).toNat

/-- The mask that issues a trip: a fast 50P that rose has issued its own (R276). -/
def issuing (s : State) (f : Fin 8) (mask : Nat) : Nat := if fastMode s f then putBit mask 0 false else mask

/-- The second half: trips, then the breaker machine. -/
def feederSecond (f : Fin 8) (s : State) : State :=
  if !feederOn s f then s
  else
    let mask := risen s f
    let go := issuing s f mask
    let s := noteOperated f mask s
    let issue := go != 0 && !feederBlocked s f
    let s := tcStep f (breakerMachine f issue (whenS issue (issueTrip f go) s))
    setFeeder f { s.prot.feeders[f] with opPrev := (s.prot.feeders[f]).op } s

/-- R276: a phasor update of all eight feeders; the decision of R268 spans them. -/
def execPhasorUpdate (t : BitVec 64) (x : PhasorSamples) (s : State) : Out :=
  let s := takeSamples x (lmdArm (takeSettings (reachNs s t)))
  let p := phasors s
  let s := lmdTake (forEach (List.finRange 8) (feederFirst p) (busUpdate p s))
  .next (refreshLines (lmdRearm (forEach (List.finRange 8) feederSecond s)))

/-- Are phasors of a feeder's currents, of its residual, or of the bus voltages invalid (R254)? -/
def badPhases (s : State) (f : Fin 8) : Bool :=
  let x := s.prot.feeders[f]
  x.invalid[0] || x.invalid[1] || x.invalid[2]
def badResidual (s : State) (f : Fin 8) : Bool :=
  if resMeas s f then (s.prot.feeders[f]).invalid[3] || !residualRouted s f else badPhases s f
def badBus (s : State) : Bool := s.prot.vInvalid[0] || s.prot.vInvalid[1] || s.prot.vInvalid[2]

/-- R259, R255: the timer or the accumulator of a current element runs out. -/
def execProtOperate (f : Fin 8) (e : Fin 7) (t : BitVec 64) (s : State) : Out :=
  let s := reachNs s t
  if !feederOn s f ∨ !isStarted s f e ∨ isOperated s f e ∨ (e = 0 ∧ fastMode s f) ∨
      ocHeld s f e (badPhases s f) (badResidual s f) (badBus s) then .next s
  else
    let x := s.prot.feeders[f]
    let dt := match x.lastUpd with | none => 0 | some u => localNs s - u
    let s := if curveOf s f e = 0 then
        definiteStep f (e.castLE (by omega)) (10000000 * pfld s (Reg.PROT_OC_T f e) F.PROT_OC_T_mult) s
      else idmtStep f e x.lastM[e] dt s
    .next (feederSecond f (setFeeder f { s.prot.feeders[f] with lastUpd := some (localNs s) } s))

/-- R257: a fast-stream sample. A sample that carries FAULT or UNSETTLED counts as not exceeding; it is not taken as one below
the dropout either (log entry 95). -/
def execFast50p (f : Fin 8) (p : Fin 3) (q : BitVec 16) (usable : Bool) (s : State) : Out :=
  let x := s.prot.feeders[f]
  let w := protReg s (Reg.PROT_OC f 0)
  if !feederOn s f ∨ !fastMode s f then .next s
  else
    let n := getF w F.PROT_OC_fast_n + 1
    let i : Rat := q15Rat (q15 q) * iScale s f / rated s f
    let pk : Rat := (getF w F.PROT_OC_pickup : Rat) / 100
    let above := usable && decide (2 * pk * pk < i * i)
    let below := usable && decide (i * i < 2 * (19 / 20 * pk) * (19 / 20 * pk))
    let na := if above then x.fastAbove[p] + 1 else 0
    let nb := if below then x.fastBelow[p] + 1 else 0
    let on := if x.fastOp[p] then decide (nb < n) else decide (n ≤ na)
    let ops := x.fastOp.set p on
    let s := setFeeder f { x with
      fastAbove := x.fastAbove.set p na, fastBelow := x.fastBelow.set p nb, fastOp := ops } s
    let any := ops.toList.any id
    let rose := any && !isOperated s f 0
    let s := setOp f 0 any (setStarted f 0 any s)
    if rose ∧ !feederBlocked s f then .next (breakerMachine f true (issueTrip f 1 s)) else .next s

/-! ### Timers of the conversation -/

/-- R273 row 6: the retrip timer expires. -/
def execBkrRetrip (f : Fin 8) (s : State) : Out :=
  if bkrState s f = bkrTripping ∧ bfOn s f ∧ tRetrip s f ≠ 0 then
    .next (rowRetrip f (reachLocal ((s.prot.feeders[f]).issueAt + tRetrip s f) s))
  else .next s

/-- R273 row 8: the 50BF timer expires; a retrip timer that expired with it acts first. -/
def execBkrFail (f : Fin 8) (s : State) : Out :=
  if bkrState s f = bkrTripping ∧ bfOn s f then
    .next (rowFail f (rowRetrip f (reachLocal ((s.prot.feeders[f]).issueAt + tBf s f) s)))
  else .next s

/-- R273: t_min has passed since the latest issue. -/
def execTripCommandEnd (f : Fin 8) (s : State) : Out :=
  if tripCmd s f ∧ bkrState s f = bkrOpen then
    .next (endCommands f (reachLocal ((s.prot.feeders[f]).latestAt + tMin s f) s))
  else .next s

/-- R270, R273 row 12: 20 ms of disagreement. -/
def execBkrDiscrepancy (f : Fin 8) (s : State) : Out :=
  let x := s.prot.feeders[f]
  let due := match x.sameFrom, x.againstFrom with
    | some a, some b => some (min a b)
    | some a, none => some a
    | none, b => b
  match due with
  | none => .next s
  | some t => .next (rowDiscrepancy f (statusStep f (reachLocal (t + 20000000) s)))

/-- R275: the circuit has read open for t_74. -/
def execTcAlarm (f : Fin 8) (s : State) : Out :=
  let x := s.prot.feeders[f]
  let left := 10000000 * pfld s (Reg.PROT_TC_CFG f) F.PROT_TC_CFG_t_74 - x.tcOpen
  if pflg s (Reg.PROT_TC_CFG f) F.PROT_TC_CFG_en ∧ tripIntact s (pfld s (Reg.PROT_TC_CFG f) F.PROT_TC_CFG_out) = some false ∧
      !flg s (Reg.PROT_FDR_STATE f) F.PROT_FDR_STATE_tc_alarm then
    .next (tcStep f (reachLocal (x.tcLast + left) s))
  else .next s

/-- R275: 1 s of continuity. -/
def execTcRestored (f : Fin 8) (s : State) : Out :=
  let x := s.prot.feeders[f]
  if flg s (Reg.PROT_FDR_STATE f) F.PROT_FDR_STATE_tc_alarm ∧
      tripIntact s (pfld s (Reg.PROT_TC_CFG f) F.PROT_TC_CFG_out) = some true then
    .next (tcStep f (reachLocal (x.tcLast + (1000000000 - x.tcGood)) s))
  else .next s

/-- R265: the delay of an element 32 elapses: it acts on its map; blocked in PROT_BLOCK it does not act. -/
def execUnit32Operate (g : Fin 2) (s : State) : Out :=
  let x := s.prot.u32[g]
  match x.since with
  | none => .next s
  | some t =>
    if x.op then .next s
    else
      let s := reachLocal (t + 100000000 * pfld s (Reg.PROT_32 g) F.PROT_32_delay) s
      let p := (s.gfm.stages[g]).pf * 4096
      let s := logEvent 0x6201 (2 * g) (BitVec.ofNat 32 (BitVec.ofInt 16 p.floor).toNat) (setUnit32 g { x with op := true } s)
      if acts32 s g then .next (blockStages 3 (pfld s (Reg.PROT_32_MAP g) F.PROT_32_MAP_block) (refreshLines s)) else .next s

/-- The elements 32 blocked from acting change: one that has operated and is no longer blocked acts (R265). -/
def freeUnits (mask : Nat) (s : State) : State :=
  let t := setF s Reg.PROT_BLOCK F.PROT_BLOCK_unit32 mask
  forEach (List.finRange 2) (fun (g : Fin 2) t =>
    if acts32 t g ∧ !acts32 s g then blockStages 3 (pfld t (Reg.PROT_32_MAP g) F.PROT_32_MAP_block) t else t) (refreshLines t)

/-- A write of PROT_BLOCK: the feeder bits are taken only in COMMISSIONING (R271). -/
def writeBlock (v : Word) (s : State) : State :=
  let s := freeUnits (getF v F.PROT_BLOCK_unit32) s
  let fb := getF v F.PROT_BLOCK_feeder
  if commissioning s then
    forEach (List.finRange 8) (fun (f : Fin 8) s =>
      setF s (Reg.PROT_FDR_STATE f) F.PROT_FDR_STATE_blocked (b2n (fb.testBit f)))
      (setF s Reg.PROT_BLOCK F.PROT_BLOCK_feeder fb)
  else if fb = fld s Reg.PROT_BLOCK F.PROT_BLOCK_feeder then s else protErr s

end Sys2Proof.Machine
end

