-- ==== Sys2Proof/Machine/Scan.lean ====
section
/-! DEFINITION. The scan cores (chapter 11): images, edges, tasks, timers, overrun, modes, retained data, remote blocks,
forces and program exchange. -/

namespace Sys2Proof.Machine

open Sys2Proof

/-- Mode codes of SCAN_STATE_k.mode. -/
def scanStop : Nat := 0
def scanRun : Nat := 1
def scanHold : Nat := 2

/-- The mode of a core. -/
def scanMode (s : State) (k : Nat) : Nat := fld s (Reg.SCAN_STATE k) F.SCAN_STATE_mode

/-- Change a core, and a task of a core. -/
def setScan (k : Fin 2) (x : ScanCore) (s : State) : State :=
  { s with scan := { s.scan with cores := s.scan.cores.set k x } }
def setTask (k : Fin 2) (t : Fin 8) (y : ScanTask) (s : State) : State :=
  let x := s.scan.cores[k]
  setScan k { x with tasks := x.tasks.set t y } s

/-- A value by symbol identity. -/
def symGet (l : List (Nat × BitVec 64)) (k : Nat) : BitVec 64 := sget (fun _ => 0) l k
def symPut (l : List (Nat × BitVec 64)) (k : Nat) (v : BitVec 64) : List (Nat × BitVec 64) := sput (fun _ => 0) l k v

/-- The entry of an instance. -/
def instGet {α : Type} (l : List (Nat × α)) (k : Nat) : Option α := (l.find? (fun e => e.1 == k)).map (·.2)
def instPut {α : Type} (l : List (Nat × α)) (k : Nat) (v : α) : List (Nat × α) := sinsert (k, v) (serase l k)

/-- The symbols of a core's program. -/
def symbolsOf (x : ScanCore) : List ScanSymbol := match x.prog with | none => [] | some p => p.symbols

/-- Table 11.1 in ns; 0 for an unused task. -/
def taskPeriod (code : Nat) : Nat :=
  (([0, 250000, 500000, 1000000, 2000000, 5000000, 10000000, 20000000, 50000000, 100000000, 200000000, 500000000,
    1000000000, 2000000000, 5000000000, 10000000000] : List Nat)[code]?).getD 0

/-- The period code and the period of a task. -/
def periodCode (s : State) (k t : Nat) : Nat := fld s (Reg.SCAN_TASK_CFG k t) F.SCAN_TASK_CFG_period
def periodOf (s : State) (k t : Nat) : Nat := taskPeriod (periodCode s k t)

/-- Does an output symbol belong to the output image? -/
def isOutput (y : ScanSymbol) : Bool :=
  match y.item with
  | .doCommand _ => true
  | .remoteOut _ _ => true
  | .routedOut => true
  | _ => false

/-! ### Program load (R303 to R308, R322) -/

/-- Period codes of a program, and its hyperperiod in 0.25 ms (R305). -/
def codesOf (p : ScanProgram) : List Nat := p.periods.toList.map (·.val)
def hyperOf (p : ScanProgram) : Nat :=
  ((codesOf p).filter (· != 0)).foldl (fun h c => Nat.lcm h (taskPeriod c / 250000)) 1

/-- Priority rank of a task: a shorter period first, then the lower number (R306). -/
def rankOf (p : ScanProgram) (t : Nat) : Nat :=
  let c := ((codesOf p)[t]?).getD 0
  ((codesOf p).zipIdx.filter (fun q => q.1 != 0 && (q.1 < c || (q.1 == c && q.2 < t)))).length

/-- R308, R324: is a program refused: an image position the pitch image fills or two symbols share, or too much retained
data? -/
def mapConflict (s : State) (k : Fin 2) (p : ScanProgram) : Bool :=
  let pos := p.symbols.filterMap (fun (y : ScanSymbol) => y.position)
  let placed := p.symbols.filterMap (fun (y : ScanSymbol) => match y.item with
    | .plain => none | .ton => none | .tof => none | .tp => none | .edgeTrig => none | .routedIn => none
    | .routedOut => none | i => some i)
  let filled := match s.fab.running with | none => [] | some img => img.filledPositions[k]
  decide (¬ pos.Nodup) || decide (¬ placed.Nodup) || pos.any (fun n => filled.contains n) || 128 < p.retainedKiB

/-- Show a program in the registers of its core. -/
def showProgram (k : Fin 2) (p : ScanProgram) (s : State) : State :=
  let s := wr s (Reg.SCAN_PROG_ID k) p.buildId
  let s := setF s (Reg.SCAN_PROG_INFO k) F.SCAN_PROG_INFO_hyper (hyperOf p)
  let s := setF s (Reg.SCAN_PROG_INFO k) F.SCAN_PROG_INFO_retained p.retainedKiB
  let s := setF s (Reg.SCAN_PROG_INFO k) F.SCAN_PROG_INFO_tasks ((codesOf p).filter (· != 0)).length
  forEach (List.finRange 8) (fun (t : Fin 8) s =>
    let s := setF s (Reg.SCAN_TASK_CFG k t) F.SCAN_TASK_CFG_period p.periods[t]
    setF s (Reg.SCAN_TASK_CFG k t) F.SCAN_TASK_CFG_rank (rankOf p t)) s


/-! ### Modes (R318 to R323) -/

/-- Set a mode, and log it (R321). -/
def setScanMode (k : Fin 2) (n : Nat) (s : State) : State :=
  let old := scanMode s k
  if old = n then s
  else
    let s := setF s (Reg.SCAN_STATE k) F.SCAN_STATE_mode n
    let s := setF s Reg.SCAN_STATUS (if k = 0 then F.SCAN_STATUS_mode0 else F.SCAN_STATUS_mode1) n
    logN 0x8001 k (old * 256 + n) s

/-- A publication instant, in ns, at or after an instant. -/
def publicationFrom (t : Nat) : Nat := (t + 249999) / 250000 * 250000

/-- R334: a core that stops with an exchange pending swaps as a core in STOP: at the first publication instant after the
10 ms. -/
def rescheduleSwap (k : Fin 2) (s : State) : State :=
  match (s.scan.cores[k]).exchange with
  | none => s
  | some x =>
    if fld s (Reg.SCAN_XCHG k) F.SCAN_XCHG_state = 1 then
      wr64 s (Reg.SCAN_SWAP_TIME k) (BitVec.ofNat 64 (publicationFrom (max (nowNat s) x.after)))
    else s

/-- Is any cycle in progress? -/
def anyBusy (x : ScanCore) : Bool := x.tasks.toList.any (fun y => y.busy)

/-- The force on an identity of a core. -/
def forceOn (s : State) (k : Fin 2) (id : Nat) : Option Force :=
  s.scan.forces.find? (fun f => f.core == k && f.id.toNat == id)

/-- A value with the force on its symbol, if any (R330). -/
def forced (s : State) (k : Fin 2) (id : Nat) (v : BitVec 64) : BitVec 64 :=
  match forceOn s k id with | none => v | some f => f.value

/-- Are the scan cores of this unit held in STOP (R374)? A unit of a duplex without the ACTIVE role holds them so (log
entry 23). -/
def heldInStop (s : State) : Bool :=
  flg s Reg.DPX_CFG F.DPX_CFG_en && fld s Reg.DPX_STATUS F.DPX_STATUS_role != 1

/-! ### The image buffers (R38 to R41) -/

/-- The writer begins an image, complete at an instant; the buffer being read stays as it is. -/
def ImageBufs.begin (b : ImageBufs) (values : List (Nat × BitVec 64)) (stamp : BitVec 64) (done : Nat) : ImageBufs :=
  { b with writing := some ({ values := values, stamp := stamp, count := b.latest.count + 1 }, done) }

/-- The image being written is complete, and the most recent, from its instant on. -/
def ImageBufs.settle (b : ImageBufs) (t : Nat) : ImageBufs :=
  match b.writing with
  | none => b
  | some w => if w.2 ≤ t then { b with writing := none, latest := w.1 } else b

/-- A whole image is handed over at once. -/
def ImageBufs.put (b : ImageBufs) (values : List (Nat × BitVec 64)) (stamp : BitVec 64) : ImageBufs :=
  { b with latest := { values := values, stamp := stamp, count := b.latest.count + 1 } }

/-- The reader takes the most recent complete image. -/
def ImageBufs.take (b : ImageBufs) : ImageBufs := { b with reading := b.latest }

/-- Values handed over in the output image of a core, with the forces applied (R309, R330). -/
def handOver (k : Fin 2) (l : List (Nat × BitVec 64)) (s : State) : State :=
  let x := s.scan.cores[k]
  let img := l.foldl (fun o e => symPut o e.1 (forced s k e.1 e.2)) x.output.latest.values
  setScan k { x with output := x.output.put img (now s) } s

/-- The last output image with the forces applied afresh; in STOP with stop_mode 1 it holds the stop values (R319); a core
held as that of a STANDBY keeps its last transferred values (R390). -/
def idleImage (k : Fin 2) (s : State) : State :=
  let x := s.scan.cores[k]
  let stops := scanMode s k == scanStop && flg s (Reg.SCAN_CFG k) F.SCAN_CFG_stop_mode && !heldInStop s
  handOver k (((symbolsOf x).filter isOutput).map (fun (y : ScanSymbol) =>
    (y.id.toNat, if stops then y.stop else symGet x.out y.id.toNat))) s

/-- A core that no longer runs drops its releases. -/
def dropCycles (x : ScanCore) : ScanCore :=
  { x with tasks := x.tasks.map (fun y => { y with busy := false, started := false, afterSwap := false, held := none, skipped := 0 })
           quiesce := none, step := none, frozen := false }

/-- A transfer: the values as the program gives them, and the output image with the forces (R309, R316). -/
def transferNow (k : Fin 2) (l : List (Nat × BitVec 64)) (s : State) : State :=
  let x := s.scan.cores[k]
  handOver k l (setScan k { x with out := l.foldl (fun o e => symPut o e.1 e.2) x.out } s)

/-- The held transfer of a late cycle is made (R316). -/
def makeHeld (k : Fin 2) (t : Fin 8) (s : State) : State :=
  let y := (s.scan.cores[k]).tasks[t]
  match y.held with
  | none => s
  | some l => transferNow k l (setTask k t { y with held := none } s)

/-- Released cycles that have not started are no longer started when a core quiesces. -/
def dropUnstarted (x : ScanCore) : ScanCore :=
  { x with tasks := x.tasks.map (fun y => if y.busy ∧ !y.started then { y with busy := false } else y) }

/-- The quiesced mode is reached when no cycle is in progress. -/
def settleQuiesce (k : Fin 2) (s : State) : State :=
  let x := s.scan.cores[k]
  match x.quiesce with
  | none => s
  | some m => if anyBusy x then s else
      whenS (m == scanStop) (rescheduleSwap k)
        (setScanMode k m (setScan k (if m = scanStop then dropCycles x else { x with quiesce := none }) s))

/-- Quiesce towards a mode (Table 11.3). -/
def quiesceTo (k : Fin 2) (m : Nat) (s : State) : State :=
  let s := forEach (List.finRange 8) (makeHeld k) s
  settleQuiesce k (setScan k { dropUnstarted s.scan.cores[k] with quiesce := some m } s)

/-- The copy of a retained set in force: the newest with a valid CRC (R324). -/
def copyInForce (x : ScanCore) : Option RetainedSet :=
  match x.copies[0], x.copies[1] with
  | some a, some b =>
    if a.crcOk && b.crcOk then (if a.order < b.order then some b else some a)
    else if a.crcOk then some a else if b.crcOk then some b else none
  | some a, none => if a.crcOk then some a else none
  | none, some b => if b.crcOk then some b else none
  | none, none => none

/-- R325: why a warm restart is not permitted: 1 no copy, 2 another pitch image, 3 another program; 0 permitted. -/
def warmDenied (s : State) (k : Fin 2) : Nat :=
  match copyInForce s.scan.cores[k] with
  | none => 1
  | some c => if c.pitch ≠ rd s Reg.FAB_IMAGE_ID then 2 else if c.prog ≠ rd s (Reg.SCAN_PROG_ID k) then 3 else 0

/-- Load a program at a start of the part, its retained variables from the copy in force into TCM; the core stays in STOP
until it is started. -/
def loadProgram (k : Fin 2) (p : ScanProgram) (s : State) : State :=
  let x := s.scan.cores[k]
  let kept := match copyInForce x with | none => [] | some c => c.values
  showProgram k p (setScan k { x with
    prog := some p, vars := kept, timers := [], trigs := [], out := [], input := {}, output := {}, queue := []
    autoDone := false } s)

/-- R325: a restart: values, edges, timers, overrun counts. On a warm restart the retained values are those held in TCM
(R326); a cold one queues the initial values, so that the copy in force equals TCM (log entry 69). -/
def restart (k : Fin 2) (warm : Bool) (s : State) : State :=
  let x := s.scan.cores[k]
  let vars := (symbolsOf x).foldl (fun l (y : ScanSymbol) =>
    symPut l y.id.toNat (if warm && y.retained then symGet x.vars y.id.toNat else y.init)) []
  let s := setScan k { x with
    vars := vars, timers := [], trigs := [], edges := Vector.replicate 16 {}
    queue := if warm then x.queue else ((symbolsOf x).filter (fun (y : ScanSymbol) => y.retained)).foldl
      (fun l (y : ScanSymbol) => instPut l y.id.toNat y.init) []
    tasks := x.tasks.map (fun y => { y with busy := false, started := false, held := none, skipped := 0, consecutive := 0 }) } s
  let s := setF s (Reg.SCAN_STATE k) F.SCAN_STATE_overrun 0
  let s := setF s (Reg.SCAN_STATE k) F.SCAN_STATE_warm_last (b2n warm)
  let s := forEach (List.range 8) (fun t s =>
    wr (wr s (Reg.SCAN_TASK_STAT k t) 0) (Reg.SCAN_TASK_TIME k t) 0) s
  logN 0x8005 k (b2n warm) s

/-- Enter RUN after a restart; tasks start at their first release at or after the publication instant `from'` (R321). -/
def enterRun (k : Fin 2) (from' : Nat) (s : State) : State :=
  let s := setF s (Reg.SCAN_STATE k) F.SCAN_STATE_trap 0
  setScanMode k scanRun
    (setScan k { s.scan.cores[k] with liveFrom := from', quiesce := none, step := none, frozen := false } s)

/-- The next publication instant, in 0.25 ms. -/
def nextPublication (s : State) : Nat :=
  let here := (nowNat s + 249999) / 250000
  match s.scan.lastPub with | none => here | some l => max here (l + 1)

/-- A run request (R321, R326): the status code and the state. -/
def runRequest (k : Fin 2) (cold : Bool) (s : State) : Nat × State :=
  let m := scanMode s k
  if m = scanHold then (stOk, setScanMode k scanRun (setScan k { s.scan.cores[k] with step := none } s))
  else if m = scanRun then
    match s.scan.cores[k].quiesce with
    | some _ => (stBadState, s)
    | none => (stOk, s)
  else if s.scan.cores[k].prog.isNone ∨ heldInStop s then (stBadState, s)
  else if cold then (stOk, enterRun k (nextPublication s * 250000) (restart k false s))
  else
    let c := warmDenied s k
    if c = 0 then (stOk, enterRun k (nextPublication s * 250000) (restart k true s)) else (stBadState, logN 0x8006 k c s)

/-- A stop request: taken in every mode; a pending step ends with it (R321). -/
def stopRequest (k : Fin 2) (s : State) : State :=
  if scanMode s k = scanStop then s else quiesceTo k scanStop (setScan k { s.scan.cores[k] with step := none } s)

/-- R320: is HOLD permitted now? -/
def holdPermitted (s : State) : Bool := !anyEnergised s || flg s Reg.FAB_PERMIT F.FAB_PERMIT_hold_live

/-- A hold request; a core on its way to STOP is refused as one in STOP. -/
def holdRequest (k : Fin 2) (s : State) : Nat × State :=
  if scanMode s k ≠ scanRun ∨ (s.scan.cores[k]).quiesce = some scanStop then (stBadState, s)
  else if !holdPermitted s then (stNotPermitted, s)
  else (stOk, quiesceTo k scanHold s)

/-- A step request of a task. -/
def stepRequest (k : Fin 2) (t : Fin 8) (s : State) : Nat × State :=
  if scanMode s k ≠ scanHold then (stBadState, s)
  else if (s.scan.cores[k]).step.isSome then (stBusy, s)
  else (stOk, setScan k { s.scan.cores[k] with step := some t } s)

/-- The requests of one write or command: stop prevails over hold, hold over step, step over run (R321). Answers the
request taken (1 run, 2 hold, 3 step, 0 stop or none) and its status. -/
def takeRequests (k : Fin 2) (run stop hold step cold : Bool) (t : Fin 8) (s : State) : Nat × Nat × State :=
  if stop then (0, stOk, stopRequest k s)
  else if hold then let r := holdRequest k s; (2, r.1, r.2)
  else if step then let r := stepRequest k t s; (3, r.1, r.2)
  else if run then let r := runRequest k cold s; (1, r.1, r.2)
  else (0, stOk, s)

/-- A write of SCAN_CTRL_k; a request refused through the register sets refused and is logged. -/
def writeScanCtrl (k : Fin 2) (v : Word) (s : State) : State :=
  let s := setF s (Reg.SCAN_CTRL k) F.SCAN_CTRL_step_task (getF v F.SCAN_CTRL_step_task)
  let s := setF s (Reg.SCAN_CTRL k) F.SCAN_CTRL_cold (getF v F.SCAN_CTRL_cold)
  let r := takeRequests k (getF v F.SCAN_CTRL_run == 1) (getF v F.SCAN_CTRL_stop == 1) (getF v F.SCAN_CTRL_hold == 1)
    (getF v F.SCAN_CTRL_step == 1) (getF v F.SCAN_CTRL_cold == 1) (Fin.ofNat 8 (getF v F.SCAN_CTRL_step_task)) s
  if r.2.1 = stOk then r.2.2
  else logN 0x8003 k (r.1 * 256 + r.2.1) (setF r.2.2 Reg.SCAN_STATUS F.SCAN_STATUS_refused 1)

/-- R323: a trap: the cycle makes no transfer and the core stops. -/
def trapCore (k : Fin 2) (t cause : Nat) (s : State) : State :=
  if scanMode s k = scanStop then s
  else
    let s := logN 0x8007 k (t * 0x1000000 + cause) (setF s (Reg.SCAN_STATE k) F.SCAN_STATE_trap cause)
    rescheduleSwap k (setScanMode k scanStop (setScan k (dropCycles s.scan.cores[k]) s))

/-! ### Input images and edges (R307 to R312) -/

/-- One more edge in a mark, at an instant, and two marks of which the first is the older. -/
def EdgeMark.edge (m : EdgeMark) (t : BitVec 64) : EdgeMark :=
  { n := min 255 (m.n + 1), at' := if m.n = 0 then t else m.at' }
def EdgeMark.join (a b : EdgeMark) : EdgeMark := { n := min 255 (a.n + b.n), at' := if a.n = 0 then b.at' else a.at' }

/-- R311: an edge on a side: the stamp is that of the edge that sets the flag. -/
def EdgeSide.edge (e : EdgeSide) (t : BitVec 64) : EdgeSide :=
  { e with flag := true, at' := if e.flag then e.at' else t, n := min 255 (e.n + 1), since := e.since.edge t }

/-- A publication instant passes. -/
def EdgeSide.publish (e : EdgeSide) : EdgeSide := { e with between := e.since, since := {} }

/-- R312: the layer clears a flag that a cycle has read as 1, and its count; edges that came after the image are kept. `old`:
the image is the one before the image being published. -/
def EdgeSide.clear (e : EdgeSide) (old : Bool) : EdgeSide :=
  let m := if old then e.between.join e.since else e.since
  { e with flag := m.n != 0, n := m.n, at' := if m.n = 0 then e.at' else m.at'
           between := if old then e.between else {} }

/-- R311: the binary input layer takes the debounced states of a sample before and after it. -/
def edgeSample (old new : BitVec 16) (s : State) : State :=
  let step := fun (n : Fin 16) (e : EdgeSet) =>
    let a := old.getLsbD n
    let b := new.getLsbD n
    { rise := if !a && b then e.rise.edge (now s) else e.rise, fall := if a && !b then e.fall.edge (now s) else e.fall }
  { s with scan := { s.scan with cores := s.scan.cores.map (fun x =>
      { x with edges := Vector.ofFn (fun (n : Fin 16) => step n x.edges[n]) }) } }

/-- The age word of a block: publication stamp minus receive stamp in µs, saturating (R327). -/
def ageOf (s : State) (b : RemoteBlock) : Nat := min 0xFFFFFFFF ((nowNat s - b.stamp.toNat) / 1000)

/-- The value of an input symbol as the fabric publishes it now. -/
def inputValue (s : State) (x : ScanCore) (routed : List (Word × BitVec 64)) (y : ScanSymbol) : Option (BitVec 64) :=
  let bit := fun (b : Bool) => some (BitVec.ofNat 64 (b2n b))
  match y.item with
  | .diState n => bit (fbit s Reg.FIO_DI_STATE F.FIO_DI_STATE_debounced n)
  | .riseFlag n => bit (x.edges[n]).rise.flag
  | .fallFlag n => bit (x.edges[n]).fall.flag
  | .riseStamp n => some (x.edges[n]).rise.at'
  | .fallStamp n => some (x.edges[n]).fall.at'
  | .edgeCounts n => some (BitVec.ofNat 64 ((x.edges[n]).rise.n * 256 + (x.edges[n]).fall.n))
  | .remoteValid m => bit (x.remotes[m]).valid
  | .remoteAge m => some (BitVec.ofNat 64 (ageOf s x.remotes[m]))
  | .remoteIn m w => some (((((x.remotes[m]).data)[w]?).getD 0).setWidth 64)
  | .routedIn => some (((routed.find? (fun e => e.1 == y.id)).map (·.2)).getD 0)
  | _ => none

/-- R39: publish the input image of a core. The publication completes at a free instant at most 3 µs later. -/
def publishCore (k : Fin 2) (routed : List (Word × BitVec 64)) (s : State) : State :=
  let x := s.scan.cores[k]
  let img := (symbolsOf x).foldl (fun l (y : ScanSymbol) =>
    match inputValue s x routed y with | none => l | some v => symPut l y.id.toNat v) []
  let r := takeFree s
  let done := nowNat s + (Config.freeValue r.1).toNat % 3001
  setScan k { x with
    input := (x.input.settle (nowNat s)).begin img (now s) done
    edges := x.edges.map (fun e => { rise := e.rise.publish, fall := e.fall.publish }) } r.2

/-- R39, R330, R312: a cycle takes the most recent complete image with the input forces; the layer clears the edge flags of
its task that the image reads as 1, but a forced flag leaves the layer unchanged. -/
def takeImage (k : Fin 2) (t : Fin 8) (s : State) : State :=
  let x := s.scan.cores[k]
  let bufs := (x.input.settle (nowNat s)).take
  let old := bufs.writing.isSome
  let img := (symbolsOf x).foldl (fun l (y : ScanSymbol) =>
    if isOutput y then l else
      match forceOn s k y.id.toNat with | none => l | some f => symPut l y.id.toNat f.value) bufs.reading.values
  let clear := fun (es : Vector EdgeSet 16) (y : ScanSymbol) =>
    if y.task ≠ t ∨ symGet bufs.reading.values y.id.toNat = 0 ∨ (forceOn s k y.id.toNat).isSome then es
    else match y.item with
    | .riseFlag n => es.set n { es[n] with rise := es[n].rise.clear old }
    | .fallFlag n => es.set n { es[n] with fall := es[n].fall.clear old }
    | _ => es
  let y := x.tasks[t]
  setScan k { x with
    input := bufs
    edges := (symbolsOf x).foldl clear x.edges
    tasks := x.tasks.set t { y with started := true, image := img, imageAt := bufs.reading.stamp } } s

/-- R41: the age in ns of the image a cycle uses. -/
def imageAge (s : State) (k : Fin 2) (t : Fin 8) : Nat := nowNat s - ((s.scan.cores[k]).tasks[t]).imageAt.toNat

/-! ### Releases and cycles (R305 to R317) -/

/-- The next release instant of a task: the next TAI multiple of its period (R305). -/
def nextRelease (s : State) (k : Fin 2) (t : Fin 8) : Nat :=
  let p := periodOf s k t
  let here := (nowNat s + p - 1) / p
  match (s.scan.cores[k]).tasks[t].lastRel with
  | none => here * p
  | some l => (max here (l / p + 1)) * p

/-- R315: a release finds the previous cycle unfinished and is skipped; 16 in a row trap the core. -/
def skipRelease (k : Fin 2) (t : Fin 8) (s : State) : State :=
  let y := (s.scan.cores[k]).tasks[t]
  let n := (rd s (Reg.SCAN_TASK_STAT k t)).toNat
  let s := wr s (Reg.SCAN_TASK_STAT k t) (BitVec.ofNat 32 (min 0xFFFFFFFF (n + 1)))
  let s := setFbit s (Reg.SCAN_STATE k) F.SCAN_STATE_overrun t true
  let s := setTask k t { y with skipped := y.skipped + 1, consecutive := y.consecutive + 1 } s
  if y.consecutive + 1 = 16 then trapCore k t 3 s else s

/-- Advance a task's release counter (R313). -/
def advanceCounter (k : Fin 2) (t : Fin 8) (s : State) : State :=
  let y := (s.scan.cores[k]).tasks[t]
  setTask k t { y with counter := y.counter + 1 } s

/-- Release a cycle. -/
def releaseCycle (k : Fin 2) (t : Fin 8) (rel : Nat) (s : State) : State :=
  let y := (s.scan.cores[k]).tasks[t]
  setTask k t { y with busy := true, started := false, relAt := rel, skipped := 0, consecutive := 0, afterSwap := false } s

/-- R320: a core in HOLD without permission returns to RUN. -/
def endHold (k : Fin 2) (s : State) : State :=
  if scanMode s k = scanHold ∧ !holdPermitted s then
    logN 0x8004 k (fld s Reg.CTRL_STATUS F.CTRL_STATUS_energised)
      (setScanMode k scanRun (setScan k { s.scan.cores[k] with step := none } s))
  else s

/-- Is the state transfer of an exchange waiting for old cycles (R332)? -/
def transferring (s : State) (k : Nat) : Bool := fld s (Reg.SCAN_XCHG k) F.SCAN_XCHG_state == 2

/-- Has the swap point of a pending exchange come by a release instant (R332)? -/
def swapDue (s : State) (k rel : Nat) : Bool :=
  fld s (Reg.SCAN_XCHG k) F.SCAN_XCHG_state == 1 && (rd64 s (Reg.SCAN_SWAP_TIME k)).toNat ≤ rel

/-- A release in RUN: a skip while the previous cycle is unfinished (R315), the held transfer of a late cycle, a new cycle.
A release at or after the swap point waits for the new program until the state transfer is done (R332). -/
def runRelease (k : Fin 2) (t : Fin 8) (rel : Nat) (s : State) : State :=
  let x := s.scan.cores[k]
  if rel < x.liveFrom ∨ x.quiesce.isSome ∨ x.frozen then s
  else if transferring s k ∨ swapDue s k rel then setTask k t { x.tasks[t] with afterSwap := true } s
  else
    let s := makeHeld k t s
    if (x.tasks[t]).busy then skipRelease k t s else releaseCycle k t rel s

/-- R313 to R316, R320, R321: a release instant of a task. -/
def execTaskRelease (k : Fin 2) (t : Fin 8) (s : State) : Out :=
  if periodOf s k t = 0 then .next s
  else
    let rel := nextRelease s k t
    let s := endHold k (reachNs s (BitVec.ofNat 64 rel))
    let s := setTask k t { (s.scan.cores[k]).tasks[t] with lastRel := some rel } s
    if scanMode s k = scanHold then
      if (s.scan.cores[k]).step = some t ∧ !((s.scan.cores[k]).tasks[t]).busy then
        .next (releaseCycle k t rel (advanceCounter k t s))
      else .next s
    else if scanMode s k = scanRun then .next (runRelease k t rel (advanceCounter k t s))
    else .next (advanceCounter k t s)

/-- R320: the next release instant of any task of a core in HOLD, with a stage energised. -/
def execHoldEnded (k : Fin 2) (s : State) : Out :=
  if scanMode s k = scanHold ∧ !holdPermitted s then
    let rels := ((List.finRange 8).filter (fun (t : Fin 8) => periodOf s k t != 0)).map (fun (t : Fin 8) => nextRelease s k t)
    match rels with
    | [] => .next s
    | r :: l => .next (endHold k (reachNs s (BitVec.ofNat 64 (l.foldl min r))))
  else .next s

/-- R306: is a task's cycle pre-empted at an instant, by a task of higher priority whose cycle was released at least 1 µs
before and is not complete? -/
def preempted (s : State) (k : Fin 2) (t : Fin 8) (at' : Nat) : Bool :=
  let rank := fun (h : Fin 8) => fld s (Reg.SCAN_TASK_CFG k h) F.SCAN_TASK_CFG_rank
  (List.finRange 8).any (fun (h : Fin 8) =>
    let y := (s.scan.cores[k]).tasks[h]
    y.busy && decide (rank h < rank t) && decide (y.relAt + 1000 ≤ at'))

/-- R307: the cycle starts no earlier than 4 µs after its release, while no task of higher priority has the core, and takes
its image. -/
def execCycleStart (k : Fin 2) (t : Fin 8) (s : State) : Out :=
  let y := (s.scan.cores[k]).tasks[t]
  if y.busy ∧ !y.started ∧ !preempted s k t (max (nowNat s) (y.relAt + 4000)) then
    .next (takeImage k t (reachNs s (BitVec.ofNat 64 (y.relAt + 4000))))
  else .next s

/-- R313: one evaluation of a timer. -/
def timerEval (item : ScanItem) (z : ScanTimer) (inp : Bool) (pt counter period : Nat) : ScanTimer :=
  let et := z.et + (counter - z.stored) * period
  match item with
  | .ton =>
    if !inp then { et := 0, q := false, last := false, active := false, stored := counter }
    else
      let e := if z.last then min et pt else 0
      { et := e, q := pt ≤ e, last := true, active := true, stored := counter }
  | .tof =>
    if inp then { et := 0, q := true, last := true, active := false, stored := counter }
    else if z.last then { et := 0, q := decide (0 < pt), last := false, active := true, stored := counter }
    else if z.active then
      let e := min et pt
      { et := e, q := decide (e < pt), last := false, active := decide (e < pt), stored := counter }
    else { z with stored := counter }
  | _ =>
    if z.active then
      let e := min et pt
      if e < pt then { et := e, q := true, last := inp, active := true, stored := counter }
      else { et := if inp then pt else 0, q := false, last := inp, active := false, stored := counter }
    else if inp ∧ !z.last then { et := 0, q := decide (0 < pt), last := true, active := decide (0 < pt), stored := counter }
    else { et := if inp then z.et else 0, q := false, last := inp, active := false, stored := counter }

/-- The timers and edge triggers a cycle evaluates; a trigger new to the core takes previous = current (R332). -/
def evalInstances (s : State) (k : Fin 2) (t : Fin 8) (w : CycleResult) (x : ScanCore) : ScanCore :=
  let counter := (x.tasks[t]).counter
  let item := fun (id : Word) => (((symbolsOf x).find? (fun (y : ScanSymbol) => y.id == id)).map (fun (y : ScanSymbol) => y.item)).getD .ton
  let timers := w.timers.foldl (fun l e =>
    let z := (instGet l e.1.toNat).getD { stored := counter }
    instPut l e.1.toNat (timerEval (item e.1) z e.2.1 e.2.2 counter (periodOf s k t))) x.timers
  { x with timers := timers, trigs := w.trigs.foldl (fun l e => instPut l e.1.toNat e.2) x.trigs }

/-- Store what a cycle wrote: variables, and the queue of retained words (R324). -/
def storeWrites (w : CycleResult) (x : ScanCore) : ScanCore :=
  let ret := fun (id : Word) => (symbolsOf x).any (fun (y : ScanSymbol) => y.id == id && y.retained)
  { x with
    vars := w.writes.foldl (fun l e => symPut l e.1.toNat e.2) x.vars
    queue := (w.writes.filter (fun e => ret e.1)).foldl (fun l e => instPut l e.1.toNat e.2) x.queue }

/-- The output-image transfer a cycle makes: the values of the positions its task writes (R309). -/
def transferOf (x : ScanCore) (t : Fin 8) : List (Nat × BitVec 64) :=
  ((symbolsOf x).filter (fun (y : ScanSymbol) => isOutput y && y.task == t)).map
    (fun (y : ScanSymbol) => (y.id.toNat, symGet x.vars y.id.toNat))

/-! ### Exchange (R331 to R334) -/

/-- Does a symbol of the new program match one of the old by identity and type? -/
def matchesOld (old : List ScanSymbol) (y : ScanSymbol) : Bool := old.any (fun z => z.id == y.id && z.ty == y.ty)

/-- Do two output symbols name the same output position? -/
def samePosition (a b : ScanSymbol) : Bool :=
  isOutput a && isOutput b &&
    (match a.position with | some n => b.position == some n | none => a.item == b.item && a.item != .routedOut)

/-- R332: output positions keep their last transferred values: the values of old symbols under the identities that name
their positions now. -/
def keepPositions (old new : List ScanSymbol) (l : List (Nat × BitVec 64)) : List (Nat × BitVec 64) :=
  (new.filter isOutput).foldl (fun o (y : ScanSymbol) =>
    match old.find? (fun z => samePosition y z) with
    | none => o
    | some z => symPut o y.id.toNat (symGet l z.id.toNat)) []

/-- R332: the values, timers and triggers a new program starts with. -/
def transferVars (new : ScanProgram) (x : ScanCore) : ScanCore :=
  let old := symbolsOf x
  let vars := new.symbols.foldl (fun l (y : ScanSymbol) =>
    symPut l y.id.toNat (if matchesOld old y then symGet x.vars y.id.toNat else y.init)) []
  let timers := new.symbols.foldl (fun l (y : ScanSymbol) =>
    match matchesOld old y, instGet x.timers y.id.toNat with
    | true, some z => instPut l y.id.toNat { z with stored := (x.tasks[y.task]).counter }
    | _, _ => l) []
  let trigs := new.symbols.foldl (fun l (y : ScanSymbol) =>
    match matchesOld old y, instGet x.trigs y.id.toNat with
    | true, some b => instPut l y.id.toNat b
    | _, _ => l) []
  { x with
    prog := some new, vars := vars, timers := timers, trigs := trigs, exchange := none
    out := keepPositions old new.symbols x.out
    output := { x.output with latest := { x.output.latest with
      values := keepPositions old new.symbols x.output.latest.values } }
    queue := (new.symbols.filter (fun (y : ScanSymbol) => y.retained)).foldl
      (fun l (y : ScanSymbol) => instPut l y.id.toNat (symGet vars y.id.toNat)) [] }

/-- Show the counts of forces. -/
def showForces (s : State) : State :=
  let n := fun (k : Fin 2) => (s.scan.forces.filter (fun f => f.core == k)).length
  let s := setF s Reg.SCAN_FORCE_STATUS F.SCAN_FORCE_STATUS_count0 (n 0)
  setF s Reg.SCAN_FORCE_STATUS F.SCAN_FORCE_STATUS_count1 (n 1)

/-- R333: forces whose symbol is gone or of another type are dropped. -/
def dropForces (k : Fin 2) (new : ScanProgram) (s : State) : State :=
  let keep := fun (f : Force) => f.core != k || new.symbols.any (fun (y : ScanSymbol) => y.id == f.id && y.ty == f.ty)
  let gone := s.scan.forces.filter (fun f => !keep f)
  let s := { s with scan := { s.scan with forces := s.scan.forces.filter keep } }
  showForces (forEach gone (fun f s => logEvent 0x8023 k f.id s) s)

/-- R332: the swap of a core on which no cycle is in progress: state transfer, banks, forces, and the releases that waited. -/
def swapCore (k : Fin 2) (s : State) : State :=
  match (s.scan.cores[k]).exchange with
  | none => s
  | some e =>
    let s := dropForces k e.prog (setScan k (transferVars e.prog s.scan.cores[k]) s)
    let s := setF s (Reg.SCAN_XCHG k) F.SCAN_XCHG_state 0
    let a := Reg.SCAN_STATE k
    let s := setF s a F.SCAN_STATE_xchg_pending 0
    let s := setF s a F.SCAN_STATE_code_live (1 - fld s a F.SCAN_STATE_code_live)
    let s := setF s a F.SCAN_STATE_data_live (1 - fld s a F.SCAN_STATE_data_live)
    let s := showProgram k e.prog s
    let s := logEvent 0x8011 k e.prog.buildId s
    forEach (List.finRange 8) (fun (t : Fin 8) s =>
      let y := (s.scan.cores[k]).tasks[t]
      if y.afterSwap then
        if periodOf s k t = 0 then setTask k t { y with afterSwap := false } s
        else releaseCycle k t (y.lastRel.getD 0) s
      else s) s

/-- Complete a transfer that waits for old cycles once none is in progress. -/
def settleSwap (k : Fin 2) (s : State) : State :=
  if transferring s k ∧ !anyBusy s.scan.cores[k] then swapCore k s else s

/-- R331: the swap point of a core. -/
def reachSwap (k : Fin 2) (s : State) : State :=
  if fld s (Reg.SCAN_XCHG k) F.SCAN_XCHG_state = 1 then
    let s := reachNs s (rd64 s (Reg.SCAN_SWAP_TIME k))
    let s := forEach (List.finRange 8) (makeHeld k) s
    settleSwap k (setF s (Reg.SCAN_XCHG k) F.SCAN_XCHG_state 2)
  else s

/-- R331: the swap point of an exchange accepted now: a TAI multiple of the old and new hyperperiods of every running core
changed, at least 10 ms later; a publication instant where every changed core is in STOP. -/
def swapPoint (progs : List (Fin 2 × ScanProgram)) (extra : Nat) (s : State) : Nat :=
  let from' := nowNat s + 10000000
  if progs.all (fun p => scanMode s p.1 == scanStop) ∧ extra = 1 then publicationFrom from'
  else
    let h := progs.foldl (fun h p =>
      let old := match (s.scan.cores[p.1]).prog with | none => 1 | some q => hyperOf q
      Nat.lcm h (Nat.lcm old (hyperOf p.2))) extra * 250000
    (from' + h - 1) / h * h

/-- R331: why an exchange is refused; `stOk` where it is not. -/
def exchangeRefused (progs : List (Fin 2 × ScanProgram)) (s : State) : Nat :=
  if progs.any (fun p => (s.scan.cores[p.1]).exchange.isSome) then stBusy
  else if progs.any (fun p => scanMode s p.1 == scanHold || mapConflict s p.1 p.2) then stBadState
  else stOk

/-- Take an exchange with its swap point. -/
def openExchange (progs : List (Fin 2 × ScanProgram)) (at' : Nat) (op : Option (Fin 16)) (s : State) : State :=
  forEach progs (fun p s =>
    let s := setScan p.1 { s.scan.cores[p.1] with exchange := some ⟨p.2, nowNat s + 10000000, op⟩ } s
    let s := setF s (Reg.SCAN_STATE p.1) F.SCAN_STATE_xchg_pending 1
    let s := setF s (Reg.SCAN_XCHG p.1) F.SCAN_XCHG_state 1
    wr64 s (Reg.SCAN_SWAP_TIME p.1) (BitVec.ofNat 64 at')) s

/-- R334: withdraw the pending exchanges. The status CANCELLED of the event has no code in Table 15.6: a free value (log
entry 2). -/
def withdrawExchange (s : State) : State :=
  forEach (List.finRange 2) (fun (k : Fin 2) s =>
    if fld s (Reg.SCAN_XCHG k) F.SCAN_XCHG_state = 1 then
      let s := setScan k { s.scan.cores[k] with exchange := none } s
      let s := setF s (Reg.SCAN_STATE k) F.SCAN_STATE_xchg_pending 0
      let s := setF s (Reg.SCAN_XCHG k) F.SCAN_XCHG_state 0
      let r := takeFree s
      logEvent 0x8012 k ((Config.freeValue r.1).extractLsb' 0 32) r.2
    else s) s

/-! ### Completion and traps -/

/-- Note the time of a completed cycle, in µs from release to completion, saturating. -/
def noteTime (k : Fin 2) (t : Fin 8) (s : State) : State :=
  let us := min 65535 ((nowNat s - ((s.scan.cores[k]).tasks[t]).relAt) / 1000)
  let a := Reg.SCAN_TASK_TIME k t
  let s := setF s a F.SCAN_TASK_TIME_last_us us
  setF s a F.SCAN_TASK_TIME_max_us (max us (fld s a F.SCAN_TASK_TIME_max_us))

/-- R309, R316, R321, R332: a cycle completes at an instant. A late cycle's transfer waits, unless the core quiesces or
exchanges its program. -/
def completeCycle (k : Fin 2) (t : Fin 8) (at' : BitVec 64) (w : CycleResult) (s : State) : State :=
  let y := (s.scan.cores[k]).tasks[t]
  if !y.busy ∨ !y.started ∨ preempted s k t (max (nowNat s) at'.toNat) then s
  else
    let s := reachNs s at'
    let s := setScan k (storeWrites w (evalInstances s k t w s.scan.cores[k])) s
    let s := noteTime k t s
    let x := s.scan.cores[k]
    let l := transferOf x t
    let s := setScan k { x with
      tasks := x.tasks.set t { y with busy := false, started := false, skipped := 0 }
      step := if x.step = some t then none else x.step } s
    let late := y.skipped ≠ 0
    let s := whenS late (logN 0x8002 k (t.val * 0x1000000 + min y.skipped 0xFFFFFF)) s
    let s := if late ∧ x.quiesce.isNone ∧ !x.frozen ∧ !transferring s k then
        setTask k t { (s.scan.cores[k]).tasks[t] with held := some l } s
      else transferNow k l s
    settleSwap k (settleQuiesce k s)

/-- R323: a cycle traps its core. -/
def scanTrap (k : Fin 2) (t : Fin 8) (cause : Fin 5) (s : State) : State :=
  if ((s.scan.cores[k]).tasks[t]).busy then trapCore k t cause s else s

/-! ### Publication (R39, R40, R319, R322) -/

/-- R322, R326: the start of a program at the first publication instant after ready; after a takeover (`warmStart`) it is
a warm restart on the retained sets in EMBER (R374). -/
def autostart (k : Fin 2) (s : State) : State :=
  let x := s.scan.cores[k]
  match x.prog with
  | none => s
  | some p =>
    if x.autoDone ∨ !ready s ∨ heldInStop s then s
    else
      let kept := match copyInForce x with | none => x.vars | some c => c.values
      let s := setScan k { x with autoDone := true, warmStart := false, vars := if x.warmStart then kept else x.vars } s
      if !p.autostart ∨ scanMode s k ≠ scanStop then s
      else
        let c := warmDenied s k
        let coldOnly := flg s (Reg.SCAN_CFG k) F.SCAN_CFG_cold_only && !x.warmStart
        if coldOnly then enterRun k (nowNat s) (restart k false s)
        else if c = 0 then enterRun k (nowNat s) (restart k true s)
        else enterRun k (nowNat s) (restart k false (logN 0x8006 k c s))

/-- R322: the first publication instant after ready. -/
def execScanAutostart (k : Fin 2) (s : State) : Out := .next (autostart k s)

/-- The DO commands a core hands over. -/
def doOf (s : State) (k : Fin 2) : Nat :=
  let x := s.scan.cores[k]
  (symbolsOf x).foldl (fun m (y : ScanSymbol) =>
    match y.item with
    | .doCommand n => if symGet x.output.reading.values y.id.toNat = 0 then m else putBit m n true
    | _ => m) 0

/-- The remote outputs a core hands over. -/
def remoteOf (s : State) (k : Fin 2) : List (Fin 2 × Fin 32 × Nat × BitVec 64) :=
  let x := s.scan.cores[k]
  (symbolsOf x).filterMap (fun (y : ScanSymbol) =>
    match y.item with
    | .remoteOut m w => some (k, m, w, symGet x.output.reading.values y.id.toNat)
    | _ => none)

/-- One core at a publication instant: its input image, in STOP and HOLD its idle output image, and the output image the
fabric takes (R40); a core quiesced for a switchover that did not come about runs on (R390). -/
def publishOne (x : Vector (List (Word × BitVec 64)) 2) (k : Fin 2) (s : State) : State :=
  let s := publishCore k x[k] s
  let s := if scanMode s k = scanRun then s else idleImage k s
  let y := s.scan.cores[k]
  let s := setScan k { y with
    output := y.output.take, frozen := (s.scan.cores[k]).frozen && fld s Reg.DPX_STATUS F.DPX_STATUS_state == 8 } s
  autostart k s

/-- R39, R40: a publication instant. DO commands of both cores are combined by OR (log entry 16). -/
def publication (x : Vector (List (Word × BitVec 64)) 2) (s : State) : State :=
  let n := nextPublication s
  let s := reachNs s (BitVec.ofNat 64 (n * 250000))
  let s := { s with scan := { s.scan with lastPub := some n } }
  let s := forEach (List.finRange 2) (publishOne x) s
  { s with scan := { s.scan with
    doTaken := BitVec.ofNat 16 (doOf s 0 ||| doOf s 1), remoteOut := remoteOf s 0 ++ remoteOf s 1 } }

/-! ### Retained data (R324) -/

/-- The next set of a core: every retained variable as the copy in force holds it, with the queued words applied. -/
def nextSet (s : State) (k : Fin 2) (p : ScanProgram) : RetainedSet :=
  let x := s.scan.cores[k]
  let base := match copyInForce x with
    | some c => if c.prog = p.buildId ∧ c.pitch = rd s Reg.FAB_IMAGE_ID then c.values else x.vars
    | none => x.vars
  let top := max ((x.copies[0].map (·.order)).getD 0) ((x.copies[1].map (·.order)).getD 0)
  { pitch := rd s Reg.FAB_IMAGE_ID, prog := p.buildId, order := top + 1
    values := (p.symbols.filter (fun (y : ScanSymbol) => y.retained)).foldl (fun l (y : ScanSymbol) =>
      symPut l y.id.toNat ((instGet x.queue y.id.toNat).getD (symGet base y.id.toNat))) [] }

/-- Commit the queue of a core to the copy that is not the newer one. -/
def commitRetained (k : Fin 2) (s : State) : State :=
  let x := s.scan.cores[k]
  match x.prog with
  | none => s
  | some p =>
    let newer : Fin 2 := match x.copies[0], x.copies[1] with
      | some a, some b => if a.order < b.order then 1 else 0
      | none, some _ => 1
      | _, _ => 0
    let first := x.copies[0].isNone && x.copies[1].isNone
    let dst : Fin 2 := if first then 0 else 1 - newer
    setScan k { x with copies := x.copies.set dst (some (nextSet s k p)), queue := [] } s

/-- R324: the commit of both cores. -/
def commitBoth (s : State) : State := commitRetained 1 (commitRetained 0 s)

/-! ### Remote blocks (R327, R328) -/

/-- Change a remote block. -/
def setRemote (k : Fin 2) (b : Fin 32) (v : RemoteBlock) (s : State) : State :=
  let x := s.scan.cores[k]
  setScan k { x with remotes := x.remotes.set b v } s

/-- R327: a complete received set with its TAI receive stamp. -/
def remoteArrived (k : Fin 2) (b : Fin 32) (data : List Word) (s : State) : State :=
  let was := fbit s (Reg.SCAN_REMOTE_STALE k) ⟨0, 32⟩ b
  let s := setRemote k b { data := data, stamp := now s, valid := true, everSet := true } s
  let s := setFbit s (Reg.SCAN_REMOTE_STALE k) ⟨0, 32⟩ b false
  whenS was (logN 0x8032 k b) s

/-- REMOTE_SET. -/
def execRemoteSet (k : Fin 2) (b : Fin 32) (data : List Word) (s : State) : Out := .next (remoteArrived k b data s)

/-! ### Forces (R329, R330) -/

/-- Is an identity an I/O variable of a core's program? -/
def ioSymbol (s : State) (k : Fin 2) (id : Word) : Bool :=
  (symbolsOf s.scan.cores[k]).any (fun (y : ScanSymbol) => y.id == id && y.position.isSome)

/-- FORCE_SET: BUSY when the table is full, BAD_STATE for a symbol that is no I/O variable. -/
def setForce (f : Force) (s : State) : Nat × State :=
  let rest := s.scan.forces.filter (fun g => !(g.core == f.core && g.id == f.id))
  if !ioSymbol s f.core f.id then (stBadState, s)
  else if 256 ≤ rest.length then (stBusy, s)
  else (stOk, logEvent 0x8021 f.core f.id (showForces { s with scan := { s.scan with forces := rest ++ [f] } }))

/-- FORCE_CLEAR: one force, or all of a core's (0xFFFF_FFFF). -/
def clearForce (k : Fin 2) (id : Word) (s : State) : State :=
  let gone := fun (f : Force) => f.core == k && (f.id == id || id == 0xFFFFFFFF)
  let l := s.scan.forces.filter gone
  let s := showForces { s with scan := { s.scan with forces := s.scan.forces.filter (fun f => !gone f) } }
  forEach l (fun f s => logEvent 0x8022 k f.id s) s

end Sys2Proof.Machine
end

