-- ==== Sys2Proof/Machine/Fio.lean ====
section
/-! DEFINITION. Field inputs, outputs and trip drivers (chapter 12): the link frame, Table 12.3, debouncing, overload,
field supply, trip drivers and safe states. -/

namespace Sys2Proof.Machine

open Sys2Proof

/-- A write ignored under chapter 12. -/
def fioErr (s : State) : State := setF s Reg.FIO_STATUS F.FIO_STATUS_cfg_err 1

/-- Change a driver. -/
def setDo (n : Fin 16) (x : DoDriver) (s : State) : State := { s with fio := { s.fio with dos := s.fio.dos.set n x } }
def setTrip (n : Fin 4) (x : TripDriver) (s : State) : State :=
  { s with fio := { s.fio with trips := s.fio.trips.set n x } }

/-- Is the field die in its safe state? -/
def inSafe (s : State) : Bool := flg s Reg.FIO_STATUS F.FIO_STATUS_safe

/-- The group of an output. -/
def groupOfDo (n : Nat) : Nat := n / 8

/-- R17: an event of the field die reaches the control die over the link; while the link is silent it waits. -/
def fieldLog (code src arg : Nat) (s : State) : State :=
  if s.fio.linkOn then logN code src arg s
  else { s with fio := { s.fio with unsaid := s.fio.unsaid ++ [(code, src, arg)] } }

/-! ### Table 12.3 (R342) -/

/-- Is this unit the STANDBY of a duplex? -/
def isStandby (s : State) : Bool := fld s Reg.DPX_STATUS F.DPX_STATUS_role == 2

/-- The grid-forming stage whose contactor output is DOn. -/
def contactorOf (s : State) (n : Nat) : Option (Fin 2) :=
  (List.finRange 2).find? (fun (g : Fin 2) =>
    flg s (Reg.GFM_CONT (2 * g)) F.GFM_CONT_en && fld s (Reg.GFM_CONT (2 * g)) F.GFM_CONT_do == n)

/-- Is DOn named in a trip map: it follows the trip command alone (R271, R310)? -/
def inTripMap (s : State) (n : Nat) : Bool :=
  (List.range 8).any (fun f => pbit s (Reg.PROT_TRIP_MAP f) F.PROT_TRIP_MAP_do n)

/-- Rows 6 and 7 on this unit's own decisions: only a unit that holds OWNER acts on a contactor output (R248), and the output
image has no effect on a DO of a trip map. -/
def ownCommand (s : State) (n : Nat) : Bool :=
  match contactorOf s n with
  | some g => flg s (Reg.GFM_STATE (2 * g)) F.GFM_STATE_cont_cmd && (s.loop.owner || !flg s Reg.DPX_CFG F.DPX_CFG_en)
  | none => !inTripMap s n && s.scan.doTaken.getLsbD n

/-- Rows 5 to 7: the command placed in a frame; off before the resume flag is set (R353); rows 6 and 7 of a STANDBY are the
ACTIVE's (R373). -/
def frameCommand (s : State) (n : Nat) : Bool :=
  s.fio.resume && (protDo s n || (if isStandby s then s.dpx.partner.doCmd.getLsbD n else ownCommand s n))

/-- Rows 1 to 4: the state of an output. -/
def doOn (s : State) (n : Fin 16) : Bool :=
  let g := groupOfDo n
  let x := s.fio.dos[n]
  let cmd := fbit s Reg.FIO_DO_STATE F.FIO_DO_STATE_cmd n
  if s.fio.sleeping ∨ fbit s Reg.FIO_GRP_CTRL F.FIO_GRP_CTRL_kill g then false
  else if fbit s Reg.FIO_GRP_STATE F.FIO_GRP_STATE_lost g ∨ fbit s Reg.FIO_GRP_STATE F.FIO_GRP_STATE_wait_ack g then false
  else if x.latched ∨ x.waiting then false
  else if inSafe s then
    match fld s (Reg.FIO_DO_CFG n) F.FIO_DO_CFG_safe with
    | 1 => true
    | 2 => s.fio.holdCmd.getLsbD n
    | _ => false
  else cmd

/-- Show the outputs after a change. -/
def refreshDo (s : State) : State :=
  setF s Reg.FIO_DO_STATE F.FIO_DO_STATE_on
    ((List.finRange 16).foldl (fun m (n : Fin 16) => putBit m n (doOn s n)) 0)

/-! ### Trip drivers (R349 to R351) -/

/-- The strobe and the energised state of a trip output. -/
def strobeOf (s : State) (n : Nat) : Bool := fbit s Reg.FIO_TRIP_STATE F.FIO_TRIP_STATE_strobe n
def tripOn (s : State) (n : Nat) : Bool := fbit s Reg.FIO_TRIP_STATE F.FIO_TRIP_STATE_energised n
def cooling (s : State) (n : Nat) : Bool := fbit s Reg.FIO_TRIP_STATE F.FIO_TRIP_STATE_cooldown n

/-- Should a trip output be energised: strobe, confirmed copy (or, once energised, the copy alone), or safe value? In the safe
state the copy is not taken (R352 beside R18 and R349; log entry 88). -/
def tripWanted (s : State) (n : Fin 4) : Bool :=
  let x := s.fio.trips[n]
  let safe := inSafe s
  !s.fio.sleeping && (strobeOf s n || (safe && flg s (Reg.FIO_TRIP_CFG n) F.FIO_TRIP_CFG_safe) ||
    (!safe && (4 ≤ x.copyRun || (tripOn s n && x.copy))))

/-- Energise or de-energise; a judgement is current only while the output is off. -/
def energise (n : Fin 4) (b : Bool) (s : State) : State :=
  if tripOn s n = b then s
  else
    let s := setFbit s Reg.FIO_TRIP_STATE F.FIO_TRIP_STATE_energised n b
    let s := setFbit s Reg.FIO_TRIP_STATE F.FIO_TRIP_STATE_measured n false
    let x := s.fio.trips[n]
    setTrip n (if b then { x with onAt := localNs s } else { x with offAt := some (localNs s) }) s

/-- Bring a trip output to what its commands want; a command during a cooldown is deferred (R350). -/
def settleTrip (n : Fin 4) (s : State) : State :=
  let w := tripWanted s n
  if cooling s n then
    let x := s.fio.trips[n]
    if w ∧ !x.deferred then
      fieldLog 0x9023 n ((x.coolUntil - localNs s + 999999) / 1000000) (setTrip n { x with deferred := true } s)
    else s
  else energise n w s

/-- All trip outputs. -/
def settleTrips (s : State) : State := forEach (List.finRange 4) settleTrip s

/-- A protective turn-off: off for t_TCD, a free value between 1.0 s and 1.1 s (log entry 2). -/
def coolDown (n : Fin 4) (s : State) : State :=
  let r := takeFree (energise n false s)
  let t := 1000000000 + (Config.freeValue r.1).toNat % 100000001
  let s := setFbit r.2 Reg.FIO_TRIP_STATE F.FIO_TRIP_STATE_cooldown n true
  settleTrip n (setTrip n { s.fio.trips[n] with coolUntil := localNs s + t, deferred := false } s)

/-- R349: a strobe line changes level. -/
def execTripStrobe (n : Fin 4) (level : Bool) (s : State) : Out :=
  .next (settleTrip n (setFbit s Reg.FIO_TRIP_STATE F.FIO_TRIP_STATE_strobe n level))

/-- R350: current limit for t_TSC. -/
def execTripShort (n : Fin 4) (s : State) : Out :=
  if tripOn s n then
    let s := fieldLog 0x9021 n 0 (setFbit s Reg.FIO_TRIP_STATE F.FIO_TRIP_STATE_short n true)
    .next (coolDown n s)
  else .next s

/-- R350: more than 0.5 A for t_TOT within one energisation. -/
def execTripOvertime (n : Fin 4) (s : State) : Out :=
  if tripOn s n then
    let ms := (localNs s - (s.fio.trips[n]).onAt) / 1000000
    let s := fieldLog 0x9022 n ms (setFbit s Reg.FIO_TRIP_STATE F.FIO_TRIP_STATE_overtime n true)
    .next (coolDown n s)
  else .next s

/-- R350: the cooldown ends; a holding command energises the output again. -/
def execTripCooldownEnd (n : Fin 4) (s : State) : Out :=
  if cooling s n then
    let s := reachLocal (s.fio.trips[n]).coolUntil s
    let s := setFbit s Reg.FIO_TRIP_STATE F.FIO_TRIP_STATE_cooldown n false
    .next (settleTrip n (setTrip n { s.fio.trips[n] with deferred := false } s))
  else .next s

/-- R350: VTRIP is low; outputs still energise on command. -/
def execVtripLow (dv : BitVec 16) (s : State) : Out :=
  let was := flg s Reg.FIO_STATUS F.FIO_STATUS_vtrip_low
  let s := setF (setF s Reg.FIO_VTRIP F.FIO_VTRIP_vtrip dv.toNat) Reg.FIO_STATUS F.FIO_STATUS_vtrip_low 1
  .next (whenS (!was) (fieldLog 0x9025 0 dv.toNat) s)

/-- VTRIP is back at 18 V. -/
def execVtripRestored (dv : BitVec 16) (s : State) : Out :=
  .next (setF (setF s Reg.FIO_VTRIP F.FIO_VTRIP_vtrip dv.toNat) Reg.FIO_STATUS F.FIO_STATUS_vtrip_low 0)

/-- Is the supervision current of a trip output injected: enabled, and OWNER held in a duplex (R358)? -/
def supervises (s : State) (n : Nat) : Bool :=
  flg s (Reg.FIO_TRIP_CFG n) F.FIO_TRIP_CFG_sup_en && (!flg s Reg.DPX_CFG F.DPX_CFG_en || s.loop.owner)

/-- R351: a continuity judgement takes effect, no earlier than 220 ms after the last de-energisation. -/
def execTripSupervision (n : Fin 4) (intact : Bool) (s : State) : Out :=
  if tripOn s n ∨ s.fio.sleeping ∨ !supervises s n then .next s
  else
    let s := match (s.fio.trips[n]).offAt with
      | none => s
      | some t => reachLocal (t + 220000000) s
    let s := setFbit s Reg.FIO_TRIP_STATE F.FIO_TRIP_STATE_measured n true
    .next (setFbit s Reg.FIO_TRIP_STATE F.FIO_TRIP_STATE_intact n intact)

/-- R351, R358: an off output stands above 20 V, or no longer does; no event while the heartbeat shows the partner's output
energised. -/
def execTripExtDrive (n : Fin 4) (dv : Nat) (s : State) : Out :=
  if tripOn s n then .next s
  else
    let was := fbit s Reg.FIO_TRIP_STATE F.FIO_TRIP_STATE_ext_drive n
    let partner := flg s Reg.DPX_CFG F.DPX_CFG_en && !s.loop.owner && s.dpx.partner.tripOn.getLsbD n
    let s := setFbit s Reg.FIO_TRIP_STATE F.FIO_TRIP_STATE_ext_drive n (200 < dv)
    .next (whenS (decide (200 < dv) && !was && !partner) (fieldLog 0x9024 n dv) s)

/-! ### Safe states (R352, R353) -/

/-- The field die enters its safe state. -/
def enterSafe (cause : Nat) (s : State) : State :=
  if inSafe s then s
  else
    let cmd := BitVec.ofNat 16 (fld s Reg.FIO_DO_STATE F.FIO_DO_STATE_cmd)
    let s := { s with fio := { s.fio with holdCmd := cmd, safeFrom := localNs s, resumeRun := 0 } }
    let s := setF (setF s Reg.FIO_STATUS F.FIO_STATUS_safe 1) Reg.FIO_STATUS F.FIO_STATUS_safe_seen 1
    settleTrips (refreshDo (fieldLog 0x9031 0 cause s))

/-- R352: no valid frame for the timeout. -/
def execSafeStateEntered (s : State) : Out :=
  if inSafe s ∨ s.fio.sleeping then .next s
  else
    .next (enterSafe 1 (reachLocal (s.fio.lastValid + 100000 * fld s Reg.FIO_SAFE_CFG F.FIO_SAFE_CFG_timeout) s))

/-- The field die leaves its safe state. -/
def leaveSafe (s : State) : State :=
  let us := min 0xFFFFFFFF ((localNs s - s.fio.safeFrom) / 1000)
  let s := setF { s with fio := { s.fio with resumeRun := 0 } } Reg.FIO_STATUS F.FIO_STATUS_safe 0
  settleTrips (refreshDo (fieldLog 0x9032 0 us s))

/-! ### Frames (R337, R349, R353) -/

/-- The trip copies of a valid frame, with the count of disagreements. -/
def takeCopy (n : Fin 4) (s : State) : State :=
  let x := s.fio.trips[n]
  let b := protTrip s n
  let st := strobeOf s n
  let d := if st = b then 0 else min 9 (x.disagree + 1)
  let s := setTrip n { x with copy := b, copyRun := if b then min 4 (x.copyRun + 1) else 0, disagree := d } s
  let s := whenS (d == 9 && x.disagree != 9) (fieldLog 0x9026 n (if st then 1 else 2)) s
  settleTrip n s

/-- A valid frame. One without the resume flag begins the safe state on the commands in force before it. -/
def goodFrame (s : State) : State :=
  let s := if s.fio.resume then s else enterSafe 3 { s with fio := { s.fio with resumeRun := 0 } }
  let cmd := (List.range 16).foldl (fun m n => putBit m n (frameCommand s n)) 0
  let s := setF s Reg.FIO_DO_STATE F.FIO_DO_STATE_cmd cmd
  let s := { s with fio := { s.fio with lastValid := localNs s } }
  let s := forEach (List.finRange 4) takeCopy s
  if s.fio.resume then
    if inSafe s then
      let n := s.fio.resumeRun + 1
      let s := { s with fio := { s.fio with resumeRun := n } }
      if 16 ≤ n then leaveSafe s else refreshDo s
    else refreshDo s
  else refreshDo s

/-- A discarded frame. -/
def badFrame (s : State) : State :=
  let n := (rd s Reg.FIO_LINK_STAT).toNat
  let s := wr s Reg.FIO_LINK_STAT (BitVec.ofNat 32 (min 0xFFFFFFFF (n + 1)))
  let s := { s with fio := { s.fio with badNew := s.fio.badNew + 1, resumeRun := 0 } }
  if oncePerSecond s.fio.badLogged s then
    let s := fieldLog 0x9033 0 s.fio.badNew s
    { s with fio := { s.fio with badNew := 0, badLogged := some (localNs s) } }
  else s

/-- R337: a frame reaches the field die while the link runs. -/
def execFieldLinkFrame (ok : Bool) (s : State) : Out :=
  if !s.fio.linkOn then .next s else .next (if ok then goodFrame s else badFrame s)

/-- R353: the sixteenth consecutive valid frame with the resume flag. -/
def execSafeStateLeft (s : State) : Out :=
  if s.fio.linkOn ∧ s.fio.resume ∧ inSafe s ∧ s.fio.resumeRun = 15 then .next (goodFrame s) else .next s

/-- R349: the ninth frame in which strobe and copy disagree. -/
def execStrobeMismatch (n : Fin 4) (s : State) : Out :=
  if s.fio.linkOn ∧ (s.fio.trips[n]).disagree = 8 ∧ strobeOf s n ≠ protTrip s n then .next (goodFrame s) else .next s

/-! ### Inputs (R339) -/

/-- Debounce one input: the new run and the debounced level. -/
def debounce (s : State) (raw : BitVec 16) (n : Fin 16) : Nat × Bool :=
  let was := fbit s Reg.FIO_DI_STATE F.FIO_DI_STATE_raw n
  let run := if was = raw.getLsbD n then s.fio.diRun[n] + 1 else 1
  let d := fld s (Reg.FIO_DI_CFG n) F.FIO_DI_CFG_debounce
  (run, if d < run then raw.getLsbD n else fbit s Reg.FIO_DI_STATE F.FIO_DI_STATE_debounced n)

/-- R339, R311: the next sample instant, a TAI multiple of 100 µs; the samples come over the link (R17). -/
def execDiSample (raw : BitVec 16) (s : State) : Out :=
  let here := (nowNat s + 99999) / 100000
  let k := match s.fio.lastDi with | none => here | some l => max here (l + 1)
  let s := reachNs s (BitVec.ofNat 64 (k * 100000))
  if !s.fio.linkOn then .next { s with fio := { s.fio with lastDi := some k } }
  else
  let old := BitVec.ofNat 16 (fld s Reg.FIO_DI_STATE F.FIO_DI_STATE_debounced)
  let runs := Vector.ofFn (fun (n : Fin 16) => (debounce s raw n).1)
  let new := BitVec.ofNat 16 ((List.finRange 16).foldl (fun m (n : Fin 16) => putBit m n (debounce s raw n).2) 0)
  let s := { s with fio := { s.fio with diRun := runs, lastDi := some k } }
  let s := setF (setF s Reg.FIO_DI_STATE F.FIO_DI_STATE_raw raw.toNat) Reg.FIO_DI_STATE F.FIO_DI_STATE_debounced new.toNat
  .next (edgeSample old new s)

/-! ### Outputs (R343 to R345) -/

/-- R343: an output turns off and latches overload, or waits for a retry. A retry that carried the load beyond t_OL ends the
row of failures (log entry 17). -/
def execDoOverload (n : Fin 16) (hot : Bool) (s : State) : Out :=
  if !doOn s n then .next s
  else
    let x := s.fio.dos[n]
    let failed : Bool := match x.retryAt with | none => false | some t => decide (localNs s ≤ t + 11000000)
    let r := if failed then x.retries + 1 else 0
    let retry := flg s (Reg.FIO_DO_CFG n) F.FIO_DO_CFG_retry
    let last := retry && decide (3 ≤ r)
    let s := setDo n { x with
      latched := !retry || last, waiting := retry && !last, retries := r, offAt := localNs s, retryAt := none } s
    let s := setFbit s Reg.FIO_DO_FAULT F.FIO_DO_FAULT_overload n true
    .next (refreshDo (fieldLog 0x9011 n (if last then 3 else if hot then 2 else 1) s))

/-- R343: the retry after 1 s. -/
def execDoRetry (n : Fin 16) (s : State) : Out :=
  let x := s.fio.dos[n]
  if x.waiting then
    let s := reachLocal (x.offAt + 1000000000) s
    .next (refreshDo (setDo n { s.fio.dos[n] with waiting := false, retryAt := some (localNs s) } s))
  else .next s

/-- A write of FIO_DO_FAULT releases overloads and clears their retry counts (R343). -/
def writeDoFault (v : Word) (s : State) : State :=
  let s := setF s Reg.FIO_DO_FAULT F.FIO_DO_FAULT_overload
    (((BitVec.ofNat 16 (fld s Reg.FIO_DO_FAULT F.FIO_DO_FAULT_overload)) &&& ~~~(v.extractLsb' 0 16)).toNat)
  refreshDo (forEach (List.finRange 16) (fun (n : Fin 16) s =>
    if v.getLsbD n then setDo n { s.fio.dos[n] with latched := false, waiting := false, retries := 0, retryAt := none } s
    else s) s)

/-- The clamp pulses of a group in the last second, in mJ. -/
def recentPulses (s : State) (g : Nat) : List Nat :=
  (s.fio.pulses.filter (fun p => p.1 == g && decide (localNs s < p.2.1 + 1000000000))).map (fun p => p.2.2)

/-- FIO_DEMAG_g as it reads now: sum and peak of the last second (R344). -/
def demagWord (s : State) (g : Nat) : Word :=
  let l := recentPulses s g
  BitVec.ofNat 32 (min 65535 (l.foldl (· + ·) 0) * 0x10000 + min 65535 (l.foldl max 0))

/-- R344: the end of a clamp pulse: the sums of the last second, and the limits. -/
def execDemagExcess (n : Fin 16) (mj : Nat) (s : State) : Out :=
  let g := groupOfDo n
  let kept := (s.fio.pulses ++ [(g, localNs s, mj)]).filter (fun p => localNs s < p.2.1 + 1000000000)
  let s := { s with fio := { s.fio with pulses := kept } }
  let sum := (recentPulses s g).foldl (· + ·) 0
  let s := wr s (Reg.FIO_DEMAG g) (demagWord s g)
  if 250 < mj ∨ 1500 < sum then
    .next (fieldLog 0x9014 n (min 65535 mj * 0x10000 + min 65535 sum)
      (setFbit s Reg.FIO_DO_DIAG F.FIO_DO_DIAG_demag_excess n true))
  else .next s

/-- R345, R346: a judgement of the off-state monitor takes effect. -/
def execDoMonitor (n : Fin 16) (dv : Nat) (s : State) : Out :=
  if doOn s n ∨ s.fio.sleeping then .next s
  else
    let present := decide (dv < 20)
    let opened := decide (30 ≤ dv ∧ dv ≤ 50)
    let ext := decide (80 < dv)
    if !present ∧ !opened ∧ !ext then .next s
    else
      let cfg := Reg.FIO_DO_CFG n
      let shared := flg s cfg F.FIO_DO_CFG_shared
      let ol := opened && flg s cfg F.FIO_DO_CFG_ol_en && !shared
      let wasOl := fbit s Reg.FIO_DO_DIAG F.FIO_DO_DIAG_open_load n
      let wasExt := fbit s Reg.FIO_DO_FAULT F.FIO_DO_FAULT_ext_drive n
      let s := setFbit s Reg.FIO_DO_DIAG F.FIO_DO_DIAG_open_load n ol
      let s := setFbit s Reg.FIO_DO_FAULT F.FIO_DO_FAULT_ext_drive n ext
      let s := whenS (ol && !wasOl) (fieldLog 0x9012 n 0) s
      .next (whenS (ext && !wasExt && !shared) (fieldLog 0x9013 n dv) s)

/-! ### Field supply (R347) -/

/-- Show a group's VFIELD. -/
def showVfield (g : Fin 2) (cv : BitVec 16) (s : State) : State :=
  setF s Reg.FIO_VFIELD (if g = 0 then F.FIO_VFIELD_vfield_a else F.FIO_VFIELD_vfield_b) cv.toNat

/-- Set a bit of FIO_GRP_STATE. -/
def setGrp (f : Fld) (g : Fin 2) (b : Bool) (s : State) : State := setFbit s Reg.FIO_GRP_STATE f g b

/-- R347: below V_FLW: the group stays on; a restore condition no longer holds. -/
def execFieldLow (g : Fin 2) (cv : BitVec 16) (s : State) : Out :=
  let was := fbit s Reg.FIO_GRP_STATE F.FIO_GRP_STATE_low g
  let waiting := fbit s Reg.FIO_GRP_STATE F.FIO_GRP_STATE_wait_ack g
  let s := setGrp F.FIO_GRP_STATE_low_seen g true (setGrp F.FIO_GRP_STATE_low g true (showVfield g cv s))
  let s := whenS waiting (fun s => setGrp F.FIO_GRP_STATE_lost g true (setGrp F.FIO_GRP_STATE_wait_ack g false s)) s
  .next (whenS (!was) (fieldLog 0x9001 g cv.toNat) s)

/-- The outputs of a group commanded on. -/
def commandedOn (s : State) (g : Fin 2) : Nat :=
  (List.range 16).foldl (fun m n => putBit m n (groupOfDo n == g.val && fbit s Reg.FIO_DO_STATE F.FIO_DO_STATE_cmd n)) 0

/-- R347: below V_FLS: every output of the group turns off. -/
def execFieldLost (g : Fin 2) (cv : BitVec 16) (s : State) : Out :=
  let was := fbit s Reg.FIO_GRP_STATE F.FIO_GRP_STATE_lost g
  let s := setGrp F.FIO_GRP_STATE_wait_ack g false (setGrp F.FIO_GRP_STATE_lost g true (showVfield g cv s))
  .next (refreshDo (whenS (!was) (fieldLog 0x9002 g (commandedOn s g)) s))

/-- R347: above V_FLWR for t_FRS: the outputs take their commanded states, unless hold_off waits for an acknowledgement. -/
def execFieldRestored (g : Fin 2) (cv : BitVec 16) (s : State) : Out :=
  let lost := fbit s Reg.FIO_GRP_STATE F.FIO_GRP_STATE_lost g
  let s := setGrp F.FIO_GRP_STATE_low g false (showVfield g cv s)
  if !lost then .next s
  else
    let s := setGrp F.FIO_GRP_STATE_lost g false s
    if fbit s Reg.FIO_GRP_CFG F.FIO_GRP_CFG_hold_off g then .next (refreshDo (setGrp F.FIO_GRP_STATE_wait_ack g true s))
    else .next (refreshDo (fieldLog 0x9003 g 0 s))

/-- VFIELD of a group that was not lost is back above V_FLWR. -/
def execFieldLowCleared (g : Fin 2) (cv : BitVec 16) (s : State) : Out :=
  let s := showVfield g cv s
  .next (if fbit s Reg.FIO_GRP_STATE F.FIO_GRP_STATE_lost g then s else setGrp F.FIO_GRP_STATE_low g false s)

/-- An acknowledgement of a group: ignored while the restore condition does not hold. -/
def ackGroup (g : Fin 2) (s : State) : State :=
  if fbit s Reg.FIO_GRP_STATE F.FIO_GRP_STATE_wait_ack g then
    refreshDo (fieldLog 0x9003 g 1 (setGrp F.FIO_GRP_STATE_wait_ack g false s))
  else fioErr s

/-- A write of FIO_GRP_CTRL (R342, R347); the role rule of R368 bears on the acknowledgement. -/
def writeGrpCtrl (v : Word) (ackActs : Bool) (s : State) : State :=
  let s := setF s Reg.FIO_GRP_CTRL F.FIO_GRP_CTRL_kill (getF v F.FIO_GRP_CTRL_kill)
  let s := refreshDo s
  let a := getF v F.FIO_GRP_CTRL_ack
  if a = 0 then s
  else if ackActs then forEach (List.finRange 2) (fun (g : Fin 2) s => if a.testBit g then ackGroup g s else s) s
  else setF s Reg.DPX_STATUS F.DPX_STATUS_role_write 1

/-! ### Writes -/

/-- A write of FIO_SAFE_CFG: 2 to 1,000 in 0.1 ms. -/
def writeSafeCfg (v : Word) (s : State) : State :=
  let t := getF v F.FIO_SAFE_CFG_timeout
  if 2 ≤ t ∧ t ≤ 1000 then setF s Reg.FIO_SAFE_CFG F.FIO_SAFE_CFG_timeout t else fioErr s

/-- A write of FIO_DO_CFG_n: the reserved safe code makes the whole write be ignored (R352). -/
def writeDoCfg (n : Nat) (v : Word) (s : State) : State :=
  if getF v F.FIO_DO_CFG_safe = 3 then fioErr s else refreshDo (wr s (Reg.FIO_DO_CFG n) (v &&& 0x37))

/-- A write of FIO_TRIP_CFG_n. -/
def writeTripCfg (n : Nat) (v : Word) (s : State) : State :=
  let s := wr s (Reg.FIO_TRIP_CFG n) (v &&& 3)
  settleTrips (whenS (!supervises s n) (fun s => setFbit s Reg.FIO_TRIP_STATE F.FIO_TRIP_STATE_measured n false) s)

/-! ### Start and end of the field die's states (R336, R353, R469) -/

/-- VIN returns after a loss: the field die starts in its safe state with reset values, every output off; not logged. -/
def fieldPowerUp (s : State) : State :=
  setF { s with fio := { s.fio with safeFrom := localNs s } } Reg.FIO_STATUS F.FIO_STATUS_safe 1

/-- The control die leaves reset and starts the link; frames carry no resume flag. -/
def startLink (s : State) : State :=
  let woke := s.fio.sleeping
  let late := s.fio.unsaid
  let s := { s with fio := { s.fio with
    linkOn := true, resume := false, sleeping := false, lastValid := localNs s, seen := none, unsaid := [] } }
  let s := forEach late (fun e => logN e.1 e.2.1 e.2.2) s
  let s := whenS woke (fun s => setF { s with fio := { s.fio with holdCmd := 0, safeFrom := localNs s, resumeRun := 0 } }
    Reg.FIO_STATUS F.FIO_STATUS_safe 1) s
  settleTrips (refreshDo s)

/-- The link stops: the control die is held in reset, or KINDLING runs. -/
def stopLink (s : State) : State :=
  { s with fio := { s.fio with
    linkOn := false, resume := false, seen := some (s.regs.filter (fun e => e.1 / 0x10000 == 0x400B)) } }

/-- An FIO register as the control die sees it. -/
def fioWord (s : State) (a : Nat) : Word :=
  match s.fio.seen with | none => rd s a | some l => sget resetWord l a

/-- A write of an FIO register while the link is silent changes what the control die holds, and not the field die. -/
def silentWrite (r : RegSpec) (a : Nat) (v : Word) (s : State) : State :=
  match s.fio.seen with
  | none => s
  | some l =>
    { s with fio := { s.fio with seen := some (sput resetWord l a (accessWrite (sget resetWord l a) v (r.half a r.rw) 0)) } }

/-- R469: the last frame of SLEEP entry. -/
def sleepField (s : State) : State :=
  let s := setF s Reg.FIO_DO_STATE F.FIO_DO_STATE_cmd 0
  let s := { s with fio := { s.fio with
    sleeping := true, linkOn := false, resume := false, trips := s.fio.trips.map (fun x => { x with copy := false, copyRun := 0 }) } }
  settleTrips (refreshDo s)

end Sys2Proof.Machine
end

