-- ==== Sys2Proof/Machine/Profile.lean ====
section
/-! DEFINITION. The shortest jerk-limited profile and its first step (R191), and the limits of a move that takes a given
time (R204, R242). -/

namespace Sys2Proof.Machine

open Sys2Proof

/-- A point of motion: position, velocity and acceleration. -/
structure Motion where
  x : Rat
  v : Rat
  a : Rat
  deriving DecidableEq, Repr

/-- Limits of velocity, acceleration and jerk. -/
structure MoveLim where
  v : Rat
  a : Rat
  j : Rat
  deriving DecidableEq, Repr

/-- A phase of a profile: a jerk and its duration. -/
abbrev Phase := Rat × Rat

/-- The motion after a time under a constant jerk. -/
def moved (m : Motion) (j t : Rat) : Motion :=
  { x := m.x + m.v * t + m.a * t * t / 2 + j * t * t * t / 6, v := m.v + m.a * t + j * t * t / 2, a := m.a + j * t }

/-- The motion at the end of phases. -/
def afterPhases (m : Motion) (ps : List Phase) : Motion := ps.foldl (fun m p => moved m p.1 p.2) m

/-- The motion a time into phases; `none` where they end before it. -/
def alongPhases (m : Motion) : List Phase → Rat → Option Motion
  | [], _ => none
  | p :: ps, t => if t < p.2 then some (moved m p.1 t) else alongPhases (moved m p.1 p.2) ps (t - p.2)

/-- The velocity reached when the acceleration is brought to 0 at once. -/
def restVel (l : MoveLim) (v a : Rat) : Rat := v + a * absR a / (2 * l.j)

/-- The fastest change from (v, a) to a velocity w at rest in acceleration, for w at or above `restVel`. -/
def velUp (l : MoveLim) (v a w : Rat) : List Phase :=
  if l.a < a then [(-l.j, (a - l.a) / l.j), (0, (w - v - a * a / (2 * l.j)) / l.a), (-l.j, l.a / l.j)]
  else
    let p := sqrtReal (l.j * (w - v) + a * a / 2)
    if l.a < p then
      [(l.j, (l.a - a) / l.j), (0, (w - v - (2 * l.a * l.a - a * a) / (2 * l.j)) / l.a), (-l.j, l.a / l.j)]
    else [(l.j, max 0 ((p - a) / l.j)), (-l.j, p / l.j)]

/-- The fastest change from (v, a) to a velocity w at rest in acceleration. -/
def velTo (l : MoveLim) (v a w : Rat) : List Phase :=
  if restVel l v a ≤ w then velUp l v a w else (velUp l (-v) (-a) (-w)).map (fun p => (-p.1, p.2))

/-- The phases by way of a peak velocity w to rest. -/
def viaPeak (l : MoveLim) (m : Motion) (w : Rat) : List Phase := velTo l m.v m.a w ++ velTo l w 0 0

/-- The phases that first raise the acceleration to b and then come to rest. -/
def viaAcc (l : MoveLim) (m : Motion) (b : Rat) : List Phase :=
  let t := (b - m.a) / l.j
  let n := moved m l.j t
  (l.j, t) :: velTo l n.v n.a 0

/-- The largest value between two at which a rising function stays at or below a target, to k bits. -/
def bisect (f : Rat → Rat) (target : Rat) : Nat → Rat → Rat → Rat
  | 0, lo, _ => lo
  | k + 1, lo, hi =>
    let mid := (lo + hi) / 2
    if f mid ≤ target then bisect f target k mid hi else bisect f target k lo mid

/-- The shortest profile to a target at or beyond where the motion would come to rest. -/
def profileUp (l : MoveLim) (m : Motion) (target : Rat) : List Phase :=
  let r := restVel l m.v m.a
  let far := fun (ps : List Phase) => (afterPhases m ps).x
  if m.a < 0 ∧ 0 < r ∧ target < far (viaPeak l m r) then
    viaAcc l m (bisect (fun b => far (viaAcc l m b)) target 40 m.a 0)
  else
    let top := far (viaPeak l m l.v)
    if top ≤ target then velTo l m.v m.a l.v ++ [(0, (target - top) / l.v)] ++ velTo l l.v 0 0
    else viaPeak l m (bisect (fun w => far (viaPeak l m w)) target 40 (if r < l.v then max 0 r else 0) l.v)

/-- The motion seen from the other side. -/
def mirrored (m : Motion) : Motion := { x := -m.x, v := -m.v, a := -m.a }

/-- The shortest profile that brings a motion to a target at rest (R191). -/
def profileTo (l : MoveLim) (m : Motion) (target : Rat) : List Phase :=
  let stop := velTo l m.v m.a 0
  let e := (afterPhases m stop).x
  if e = target then stop
  else if e < target then profileUp l m target
  else (profileUp l (mirrored m) (-target)).map (fun p => (-p.1, p.2))

/-- R191: the first step of the shortest profile, a period long. Under a limit of 0 nothing moves. -/
def profileStep (l : MoveLim) (m : Motion) (target t : Rat) : Motion :=
  if l.v ≤ 0 ∨ l.a ≤ 0 ∨ l.j ≤ 0 then m
  else (alongPhases m (profileTo l m target) t).getD { x := target, v := 0, a := 0 }

/-- The limits that make a move of length d from rest to rest take a time t: jerk phases of p·t and acceleration phases of
q·t, the shares being the tile's own (R204, R242, log entry 13). -/
def limitsFor (d t : Rat) : MoveLim :=
  let f := Config.moveShares
  let p := if 0 < f.1 ∧ f.1 ≤ 1 / 4 then f.1 else 1 / 4
  let q := if 0 ≤ f.2 ∧ 4 * p + 2 * f.2 ≤ 1 then f.2 else 0
  let tj := p * t
  let ta := q * t
  let j := absR d / (tj * (tj + ta) * (t - 2 * tj - ta))
  { v := j * tj * (tj + ta), a := j * tj, j := j }

end Sys2Proof.Machine
end

