-- ==== Sys2Proof/Machine/Loop.lean ====
section
/-! DEFINITION. The loop engine: inputs, gain schedule, notch, PI with back-calculation, current limiter, blends, band law,
profile generators, plausibility (chapter 07). The order of one sample is composed in Sample.lean. -/

namespace Sys2Proof.Machine

open Sys2Proof

/-- A write ignored under chapter 07. -/
def ctrlErr (s : State) : State := setF s Reg.CTRL_STATUS F.CTRL_STATUS_cfg_err 1

/-- The periods of Table 1.5 in ns, by row. -/
def periodNs (row : Nat) : Nat :=
  (([10000, 12500, 15625, 20000, 25000, 31250, 40000, 50000, 62500, 100000] : List Nat)[row]?).getD 100000

/-- The loop period of a stage in ns. -/
def stagePeriod (s : State) (st : Nat) : Nat := periodNs (fld s (Reg.CTRL_STAGE_CFG st) F.CTRL_STAGE_CFG_period)

/-! ### Inputs (R182) -/

/-- Is an input word usable? -/
def usable (w : InWord) : Bool := w.valid && !w.fault && !w.unsettled

/-- The value of one input in this sample, and its count of consecutive replacements. An unrouted input is 0. -/
def takeWord (w : InWord) (last : Int) (n : Nat) : Int × Nat :=
  if !w.routed then (0, 0) else if usable w then (q15 w.value, 0) else (last, n + 1)

/-- The estimate that replaces an input under substitution, if one does (R209). -/
def substituted (s : State) (st : Fin 4) (i : Fin 16) : Bool :=
  let x := s.loop.stages[st]
  (List.finRange 5).any (fun (k : Fin 5) =>
    fbit s (Reg.CTRL_PLAUS_STATE st) F.CTRL_PLAUS_STATE_subst k && x.plInput[k] == some i)

/-- R182: take the input words of a sample; under substitution the estimate is used in place of the measurement (R209). -/
def takeWords (st : Fin 4) (x : LoopInputs) (s : State) : State :=
  let y := s.loop.stages[st]
  let r := Vector.ofFn (fun (i : Fin 16) => takeWord x.words[i] y.last[i] y.repl[i])
  let v := Vector.ofFn (fun (i : Fin 16) => (r[i]).1)
  let n := Vector.ofFn (fun (i : Fin 16) => (r[i]).2)
  let u := Vector.ofFn (fun (i : Fin 16) => if substituted s st i then q15 x.estimates[i] else v[i])
  let s := setStage st { y with last := v, repl := n, used := u } s
  if n.toList.any (fun c => c != 0) then setF s (Reg.CTRL_STAGE_FLAGS st) F.CTRL_STAGE_FLAGS_input_replaced 1 else s

/-- The value in use of an input. -/
def input (s : State) (st : Fin 4) (i : Fin 16) : Int := (s.loop.stages[st]).used[i]

/-! ### Gain schedule (R188 to R190) -/

/-- An axis of the map as the registers hold it. -/
def readAxis (s : State) (st : Fin 4) (a : Nat) : AxisMap :=
  let b01 := rd s (Reg.CTRL_REGION_B01 st a)
  let b2h := rd s (Reg.CTRL_REGION_B2H st a)
  { sel := fld s (Reg.CTRL_REGION_AXES st) (if a = 0 then F.CTRL_REGION_AXES_axis0 else F.CTRL_REGION_AXES_axis1)
    b0 := loQ15 b01, b1 := hiQ15 b01, b2 := loQ15 b2h, hys := hiQ15 b2h }

/-- Is an axis valid: boundaries ordered, hysteresis at most half the smallest gap? -/
def axisValid (m : AxisMap) : Bool :=
  m.b0 ≤ m.b1 && m.b1 ≤ m.b2 && 0 ≤ m.hys && 2 * m.hys ≤ min (m.b1 - m.b0) (m.b2 - m.b1)

/-- R188: judge the map whole at the sample instant after a write. -/
def judgeMap (st : Fin 4) (s : State) : State :=
  let x := s.loop.stages[st]
  if !x.mapWritten then s
  else
    let m0 := readAxis s st 0
    let m1 := readAxis s st 1
    if axisValid m0 ∧ axisValid m1 then
      setStage st { x with mapWritten := false, axes := #v[m0, m1] } s
    else ctrlErr (setStage st { x with mapWritten := false } s)

/-- Magnitude of a pair of Q15 values, stored to the nearest (R179). -/
def mag (a b : Int) : Int :=
  let n := (a * a + b * b).toNat
  let r := isqrt n
  if r * r + r < n then r + 1 else r

/-- The value of an axis (Table 7.2). -/
def axisValue (s : State) (st : Fin 4) (code : Nat) : Int :=
  match code with
  | 0 => 0
  | 1 => input s st 6
  | 2 => (s.loop.stages[st]).limMag
  | 3 => if isDq s st then
      let p := park (input s st 3) (input s st 4) (input s st 5) 0
      mag p.1 p.2
    else (input s st 3).natAbs
  | 4 => input s st 15
  | 5 => input s st 7
  | n => Config.openAxis n

/-- The band index of an axis moves by at most one band a sample, with hysteresis. -/
def moveBand (m : AxisMap) (v : Int) (j : Nat) : Nat :=
  let up := fun (j : Nat) => match j with | 0 => m.b0 | 1 => m.b1 | _ => m.b2
  if m.sel = 0 then 0
  else if j < 3 ∧ up j + m.hys < v then j + 1
  else if 0 < j ∧ v < up (j - 1) - m.hys then j - 1
  else j

/-- The coefficient set of a region as the registers hold it. -/
def readSet (s : State) (st : Fin 4) (r : Nat) : Vector Word 32 :=
  Vector.ofFn (fun (w : Fin 32) => rd s (Reg.CTRL_COEF st r w))

/-- A coefficient of a set. -/
def coef (k : Vector Word 32) (c : Fin 4) (j : Fin 8) : Word := k[8 * c.val + j.val]

/-- Limits of a controller in a set, Q15. -/
def coefLo (k : Vector Word 32) (c : Fin 4) : Int := loQ15 (coef k c 3)
def coefHi (k : Vector Word 32) (c : Fin 4) : Int := loQ15 (coef k c 4)

/-- Has every controller of the set lo at most hi? -/
def setValid (k : Vector Word 32) : Bool := (List.finRange 4).all (fun c => coefLo k c ≤ coefHi k c)

/-- An integrator (R178). -/
def integ (s : State) (st c : Nat) : Int := (rd64 s (Reg.CTRL_INTEG st c)).toInt

/-- Store an integrator, saturated to 40 bits and sign-extended. -/
def setInteg (st c : Nat) (v : Int) (s : State) : State :=
  wr64 s (Reg.CTRL_INTEG st c) (BitVec.ofInt 64 (sat40 v))

/-- R178: an accumulation of a controller saturated. -/
def noteAccSat (st c : Nat) (sat : Bool) (s : State) : State :=
  if sat then
    let was := flg s (Reg.CTRL_STAGE_FLAGS st) F.CTRL_STAGE_FLAGS_acc_sat
    whenS (!was) (logN 0x4004 st c) (setF s (Reg.CTRL_STAGE_FLAGS st) F.CTRL_STAGE_FLAGS_acc_sat 1)
  else s

/-- R190: clamp an integrator that a region change leaves outside narrowed limits. -/
def clampInteg (st : Fin 4) (old k : Vector Word 32) (r : Nat) (c : Fin 4) (s : State) : State :=
  let lo := coefLo k c * 32768
  let hi := coefHi k c * 32768
  let i := integ s st c
  let narrowed := coefLo old c < coefLo k c ∨ coefHi k c < coefHi old c
  if narrowed ∧ (i < lo ∨ hi < i) then
    let s := setInteg st c (max lo (min hi i)) s
    let s := setF s (Reg.CTRL_STAGE_FLAGS st) F.CTRL_STAGE_FLAGS_sched_clamp 1
    logN 0x4001 st (c * 256 + r) s
  else s

/-- The region in force. -/
def regionOf (s : State) (st : Nat) : Nat := fld s (Reg.CTRL_STAGE_STATE st) F.CTRL_STAGE_STATE_region

/-- R188 to R190: the region of this sample and its coefficient set, taken whole. -/
def applyRegion (st : Fin 4) (s : State) : State :=
  let s := judgeMap st s
  let x := s.loop.stages[st]
  let b0 := moveBand x.axes[0] (axisValue s st (x.axes[0]).sel) x.band[0]
  let b1 := moveBand x.axes[1] (axisValue s st (x.axes[1]).sel) x.band[1]
  let r := 4 * b1 + b0
  let k := readSet s st r
  if !setValid k then ctrlErr s
  else
    let changed := r ≠ regionOf s st
    let s := setStage st { x with band := #v[b0, b1], coef := k } s
    if changed then
      forEach (List.finRange 4) (fun c s => clampInteg st x.coef k r c s)
        (setF s (Reg.CTRL_STAGE_STATE st) F.CTRL_STAGE_STATE_region r)
    else s

/-! ### Notch (R187) -/

/-- Is a notch on? -/
def notchOn (s : State) (st c : Nat) : Bool := flg s (Reg.CTRL_NOTCH st c) F.CTRL_NOTCH_en

/-- The notch with its coefficients computed and its states set to the present input: at a write, on enabling and on a
start from OFF. -/
def primeNotch (s : State) (st : Fin 4) (c : Nat) (x : Int) : NotchState :=
  let f0 := fld s (Reg.CTRL_NOTCH st c) F.CTRL_NOTCH_f0
  let q := fld s (Reg.CTRL_NOTCH st c) F.CTRL_NOTCH_q
  let row := fld s (Reg.CTRL_STAGE_CFG st) F.CTRL_STAGE_CFG_period
  let w := (360 * f0 * stagePeriod s st : Nat) / (10000000000 : Rat)
  let al := cosReal (w - 90) * 50 / q
  { b0 := fixed30 (1 / (1 + al)) (Config.notchB0 f0 q row)
    b1 := fixed30 (-2 * cosReal w / (1 + al)) (Config.notchB1 f0 q row)
    a2 := fixed30 ((1 - al) / (1 + al)) (Config.notchA2 f0 q row)
    x1 := x, x2 := x, y1 := x * 32768, y2 := x * 32768, fresh := false }

/-- A saturating accumulation of the extended form, in 1/2^60 (R178, R180). -/
def acc60 (p : Int × Bool) (x : Int) : Int × Bool :=
  let r := max (-590295810358705651712) (min 590295810358705651711 (p.1 + x))
  (r, p.2 || r != p.1 + x)

/-- A coefficient of 30 fractional bits times a Q30 value: two multiply-accumulates, by its high and its low word (R180). -/
def macPair (c v : Int) (p : Int × Bool) : Int × Bool :=
  let hi := (c + 32768) / 65536
  acc60 (acc60 p (hi * 65536 * v)) ((c - hi * 65536) * v)

/-- The output of the notch at Q30, H(z) with b2 = b0 and a1 = b1, and whether an accumulation saturated (R178, R187). -/
def notchOut (n : NotchState) (x : Int) : Int × Bool :=
  let p := macPair n.b0 (n.x2 * 32768) (macPair n.b1 (n.x1 * 32768) (macPair n.b0 (x * 32768) (0, false)))
  let p := macPair (-n.a2) n.y2 (macPair (-n.b1) n.y1 p)
  (sat40 (shrRound p.1 30), p.2)

/-- The feedback of a controller through its notch, stored to Q15. -/
def feedback (st : Fin 4) (c : Fin 4) (x : Int) (s : State) : Int × State :=
  if !notchOn s st c then (x, s)
  else
    let z := s.loop.stages[st]
    let n := if (z.notch[c]).fresh then primeNotch s st c x else z.notch[c]
    let y := notchOut n x
    let n' := { n with x1 := x, x2 := n.x1, y1 := y.1, y2 := n.y1 }
    (storeQ15 y.1, noteAccSat st c y.2 (setStage st { z with notch := z.notch.set c n' } s))

/-! ### PI controllers (R184) and the current limiter (R186) -/

/-- One controller in one sample: error in Q15, v in Q30, w after its own clamp in Q15. -/
structure Ctl where
  e : Int
  v : Int
  w : Int
  sat : Bool
  deriving DecidableEq, Repr

/-- R184: v = kp · e + I + kff · ff, w = clamp(v, lo, hi). -/
def controller (k : Vector Word 32) (c : Fin 4) (ref y ff i : Int) : Ctl :=
  let e := ref - y
  let p := acc40 (acc40 (acc40 (0, false) (mulCoef (coef k c 0) e)) i) (mulCoef (coef k c 5) ff)
  { e := e, v := p.1, w := max (coefLo k c) (min (coefHi k c) (storeQ15 p.1)), sat := p.2 }

/-- R184: I ← I + ki_ts · e + kb · (w − v), with the w after the limiter. -/
def integrate (k : Vector Word 32) (c : Fin 4) (u : Ctl) (w i : Int) : Int × Bool :=
  let d := acc40 (w * 32768, false) (-u.v)
  acc40 (acc40 (i, d.2) (mulCoef (coef k c 1) u.e)) (mulCoefQ30 (coef k c 2) d.1)

/-- A component scaled to a magnitude limit and rounded towards zero (R186). -/
def scaleTo (w : Int) (ilim m2 : Nat) : Int :=
  let n : Int := isqrt (w.natAbs * w.natAbs * (ilim * ilim) / m2)
  if w < 0 then -n else n

/-- R186: the current limiter of a dq stage: √(w0² + w1²) ≤ ilim, angle kept. -/
def limitDq (w0 w1 : Int) (ilim : Nat) : Int × Int × Bool :=
  let m2 := (w0 * w0 + w1 * w1).toNat
  if m2 ≤ ilim * ilim then (w0, w1, false) else (scaleTo w0 ilim m2, scaleTo w1 ilim m2, true)

/-- R186: the current limiter of a scalar stage. -/
def limitScalar (w0 : Int) (ilim : Nat) : Int × Bool :=
  let w := max (-(ilim : Int)) (min ilim w0)
  (w, w != w0)

/-- CTRL_LIMIT_s.ilim. -/
def ilimOf (s : State) (st : Nat) : Nat := fld s (Reg.CTRL_LIMIT st) F.CTRL_LIMIT_ilim

/-! ### Blends (R203, R204) -/

/-- Users of a generator (CTRL_PROF_CFG_g.user). -/
def userHost : Nat := 0
def userBlend : Nat := 1
def userGfm : Nat := 2

/-- Change a generator. -/
def setProf (g : Fin 16) (x : ProfState) (s : State) : State :=
  { s with loop := { s.loop with prof := s.loop.prof.set g x } }

/-- Show a generator's output. -/
def showProf (g : Fin 16) (s : State) : State :=
  let x := s.loop.prof[g]
  let moving := x.v != 0 || x.a != 0
  let tgt := q15Rat (fld s (Reg.CTRL_PROF_CFG g) F.CTRL_PROF_CFG_target |> fun n => (BitVec.ofNat 16 n).toInt)
  let s := setF s (Reg.CTRL_PROF_OUT g) F.CTRL_PROF_OUT_x (q15Bits (ratQ15 x.x))
  let s := setF s (Reg.CTRL_PROF_OUT g) F.CTRL_PROF_OUT_moving (b2n moving)
  setF s (Reg.CTRL_PROF_OUT g) F.CTRL_PROF_OUT_done (b2n (!moving && x.x == tgt))

/-- Give a generator to a user with its output at a value and a target. -/
def takeProf (g : Fin 16) (user : Nat) (x0 : Rat) (target : Int) (s : State) : State :=
  let s := setF s (Reg.CTRL_PROF_CFG g) F.CTRL_PROF_CFG_user user
  let s := setF s (Reg.CTRL_PROF_CFG g) F.CTRL_PROF_CFG_target (q15Bits target)
  showProf g (setProf g { x := x0, v := 0, a := 0, steps := 0 } s)

/-- The user returns to host software with x at 0. -/
def freeProf (g : Fin 16) (s : State) : State := takeProf g userHost 0 0 s

/-- Change a grid-forming stage. -/
def setGfm (g : Fin 2) (x : GfmStage) (s : State) : State := { s with gfm := { s.gfm with stages := s.gfm.stages.set g x } }

/-- The residual of E on a grid-forming stage. -/
def setEResid (st : Fin 4) (r : Rat) (s : State) : State :=
  if st = 0 then setGfm 0 { s.gfm.stages[0] with eResid := r } s
  else if st = 2 then setGfm 1 { s.gfm.stages[1] with eResid := r } s
  else s

/-- The blend of a stage ends. -/
def endBlend (st : Fin 4) (s : State) : State :=
  let x := s.loop.stages[st]
  match x.blend with
  | none => s
  | some g =>
    let s := setEResid st 0 (setStage st { x with blend := none, residual := #v[0, 0] } s)
    freeProf g (setF s (Reg.CTRL_STAGE_STATE st) F.CTRL_STAGE_STATE_blending 0)

/-- R204: blend residuals of the outputs and of E out, taken against the output as blended; with t_blend 0 they are dropped.
One blend restarts. -/
def startBlend (st : Fin 4) (r0 r1 re : Rat) (s : State) : State :=
  let s := endBlend st s
  if fld s (Reg.CTRL_HOVER_CFG st) F.CTRL_HOVER_CFG_t_blend = 0 ∨ (r0 = 0 ∧ r1 = 0 ∧ re = 0) then s
  else
    let g : Fin 16 := Fin.ofNat 16 (fld s (Reg.CTRL_HOVER_CFG st) F.CTRL_HOVER_CFG_gen)
    let s := setEResid st re (setStage st { s.loop.stages[st] with blend := some g, residual := #v[r0, r1] } s)
    let s := setF s (Reg.CTRL_STAGE_STATE st) F.CTRL_STAGE_STATE_blending 1
    takeProf g userBlend 1 0 s

/-- The factor of the running blend; 0 where none runs. -/
def blendFactor (s : State) (st : Fin 4) : Rat :=
  match (s.loop.stages[st]).blend with
  | none => 0
  | some g => (s.loop.prof[g]).x

/-- The residual still to be added to output j, in Q15 units. -/
def blendTerm (s : State) (st : Fin 4) (j : Fin 2) : Rat := (s.loop.stages[st]).residual[j] * blendFactor s st

/-- A Q15 word with a residual added, stored to Q15 (R179, R181). -/
def addTerm (w : Int) (t : Rat) : Int := sat16 ((w + t + 1 / 2).floor)

/-- R203: preload the integrator of a controller so that its output equals `w`; answers the residual where a limit keeps
it from that. -/
def preload (st : Fin 4) (c : Fin 4) (w e ff : Int) (s : State) : Int × State :=
  let k := (s.loop.stages[st]).coef
  let wl := max (coefLo k c) (min (coefHi k c) w)
  (w - wl, setInteg st c (wl * 32768 - mulCoef (coef k c 0) e - mulCoef (coef k c 5) ff) s)

/-! ### One computation (R181) -/

/-- The outer controllers of a stage (Table 7.1). -/
def outerOf (s : State) (st : Nat) : List (Fin 4) := if stageKind s st = kindDcDc then [0] else [0, 1]

/-- References, angle and angular rate that a stage takes from outside its inputs (R184, R221). -/
structure SampleCtx where
  ref0 : Int
  ref1 : Int
  theta : Rat
  omega : Rat
  deriving DecidableEq, Repr

/-- The measurements of the outer controllers. -/
def outerMeas (s : State) (st : Fin 4) (x : SampleCtx) : Int × Int :=
  if isDq s st then park (input s st 0) (input s st 1) (input s st 2) x.theta else (input s st 0, input s st 1)

/-- The measurements of the inner controllers. -/
def innerMeas (s : State) (st : Fin 4) (x : SampleCtx) : Int × Int :=
  if isDq s st then park (input s st 3) (input s st 4) (input s st 5) x.theta else (input s st 3, 0)

/-- The outer step: controllers, limiter, integration, blend. -/
def outerStep (st : Fin 4) (x : SampleCtx) (s : State) : State :=
  let m := outerMeas s st x
  let f0 := feedback st 0 m.1 s
  let f1 := if stageKind s st = kindDcDc then (0, f0.2) else feedback st 1 m.2 f0.2
  let s := f1.2
  let k := (s.loop.stages[st]).coef
  let u0 := controller k 0 x.ref0 f0.1 (input s st 7) (integ s st 0)
  let u1 := controller k 1 x.ref1 f1.1 (input s st 8) (integ s st 1)
  let il := ilimOf s st
  let r : Int × Int × Bool :=
    if isDq s st then limitDq u0.w u1.w il
    else if stageKind s st = kindCharger then
      let l := limitScalar (min u0.w u1.w) il
      (l.1, l.1, l.2)
    else
      let l := limitScalar u0.w il
      (l.1, 0, l.2)
  let s := setF s (Reg.CTRL_STAGE_STATE st) F.CTRL_STAGE_STATE_limiting (b2n r.2.2)
  let i0 := integrate k 0 u0 r.1 (integ s st 0)
  let s := noteAccSat st 0 (u0.sat || i0.2) (setInteg st 0 i0.1 s)
  let s := if stageKind s st = kindDcDc then s
    else
      let i1 := integrate k 1 u1 r.2.1 (integ s st 1)
      noteAccSat st 1 (u1.sat || i1.2) (setInteg st 1 i1.1 s)
  let o := (s.loop.stages[st]).out
  let w1 := if isDq s st then addTerm r.2.1 (blendTerm s st 1) else 0
  setStage st { s.loop.stages[st] with
    out := (o.set 0 (addTerm r.1 (blendTerm s st 0))).set 1 w1
    preSq := (u0.w * u0.w + u1.w * u1.w).toNat, limMag := mag r.1 r.2.1 } s

/-- One inner controller (R181: by the same law). -/
def innerCtl (st c : Fin 4) (ref meas ff : Int) (s : State) : State :=
  let f := feedback st c meas s
  let s := f.2
  let k := (s.loop.stages[st]).coef
  let u := controller k c ref f.1 ff (integ s st c)
  let i := integrate k c u u.w (integ s st c)
  let s := noteAccSat st c (u.sat || i.2) (setInteg st c i.1 s)
  setStage st { s.loop.stages[st] with out := (s.loop.stages[st]).out.set c u.w } s

/-- The inner step of a stage on its carrier: C2 and, in dq, C3; the modulating signal of each phase. -/
def innerStep (st : Fin 4) (x : SampleCtx) (s : State) : State :=
  let o := (s.loop.stages[st]).out
  let m := innerMeas s st x
  let s := innerCtl st 2 o[0] m.1 (input s st 9) s
  if isDq s st then
    let s := innerCtl st 3 o[1] m.2 (input s st 10) s
    let o := (s.loop.stages[st]).out
    setStage st { s.loop.stages[st] with
      mods := Vector.ofFn (fun (k : Fin 3) => ratQ15 (phaseOf o[2] o[3] x.theta k)) } s
  else
    let o := (s.loop.stages[st]).out
    setStage st { s.loop.stages[st] with mods := Vector.replicate 3 o[2] } s

/-- Publish the reference phasor; it passes on at the output instant (R202). -/
def publish (st : Fin 4) (x : SampleCtx) (s : State) : State :=
  let z := s.loop.stages[st]
  setStage st { z with awaiting := some ⟨z.out[0], z.out[1], x.theta, x.omega, localNs s⟩ } s

/-! ### Output instant (R202, R207) and band law (R194, R195) -/

/-- The place of a pair among its stage's pairs, its phase (log entry 15). -/
def phaseIndex (s : State) (p : Fin 12) : Nat := (pairsOf s (pairStage s p)).idxOf p % 3

/-- R207: a change of inner control taken at a sample comes into force at that sample's output instant. -/
def applyInner (st : Fin 4) (s : State) : State :=
  let x := s.loop.stages[st]
  match x.innerNext with
  | none => s
  | some n =>
    let s := setStage st { x with innerNext := none, hystOn := n == 1 } s
    let s := setF s (Reg.CTRL_STAGE_STATE st) F.CTRL_STAGE_STATE_inner_act n
    if n = 1 then forEach (pairsOf s st) (fun p s => setPair p { s.loop.pairs[p] with running := false } s) s
    else forEach (pairsOf s st) carrierAble s

/-- The compare value of a stage's sample reaches a pair's shadow register; on the tick of a load event of the pair it is
loaded at that tick (R200). -/
def writeShadowCmp (st : Fin 4) (p : Fin 12) (s : State) : State :=
  let c := compareOf (((s.loop.stages[st]).mods.toList[phaseIndex s p]?).getD 0) (pairCmax s p)
  let s := setPair p { s.loop.pairs[p] with shadow := some c } s
  let x := s.loop.pairs[p]
  if !x.running then s
  else if x.valleyTick = some s.ticks ∧ loadsAt s p false then carrierLoad p false s
  else if x.peakTick = some s.ticks ∧ loadsAt s p true then carrierLoad p true s
  else s

/-- The output instant in force: out_phase fabric cycles of 2.5 ns after the sample instant (R202). -/
def reachOutput (st : Fin 4) (s : State) : State :=
  let x := s.loop.stages[st]
  match x.sampleTick with
  | none => s
  | some t => reachTick (t + 2 * x.outPhase) s

/-- R202: at the output instant the phasor passes to the BAND tile, and the compare values to the shadow registers. -/
def execOutputInstant (st : Fin 4) (s : State) : Out :=
  let s := reachOutput st s
  let x := s.loop.stages[st]
  match x.awaiting with
  | none => .next (applyInner st s)
  | some ph =>
    let s := applyInner st (setStage st { x with published := ph, awaiting := none } s)
    if (s.loop.stages[st]).hystOn then .next s else .next (forEach (pairsOf s st) (writeShadowCmp st) s)

/-- R195: the half-width in band DAC LSB, and whether the BAND tile's accumulator, which holds up to 512, saturated before the
clamp (R178). -/
def halfWidth (s : State) (st : Fin 4) (vdc v : Int) : Rat × Bool :=
  let hmin : Rat := max 1 (fld s (Reg.CTRL_BAND_LIM st) F.CTRL_BAND_LIM_h_min)
  let hmax : Rat := fld s (Reg.CTRL_BAND_LIM st) F.CTRL_BAND_LIM_h_max
  let a : Rat := if isDq s st then q15Rat vdc / 2 - q15Rat v else q15Rat v
  let b : Rat := if isDq s st then q15Rat vdc / 2 + q15Rat v else q15Rat vdc - q15Rat v
  let k : Rat := (rd s (Reg.CTRL_BAND_K st)).toNat
  let f : Rat := fld s (Reg.CTRL_BAND_CFG st) F.CTRL_BAND_CFG_fsw_target
  let h := k * a * b / ((a + b) * f)
  if a ≤ 0 ∨ b ≤ 0 then (hmin, false) else (max hmin (min hmax (min 512 h * 2048)), decide (512 ≤ h))

/-- A band DAC code of a value in Q15 full scales plus an edge in LSB (R194): nearest, ties up, clamped. -/
def bandCode (i h : Rat) : Nat := (max 0 (min 4095 (2048 + (i * 2048 + h + 1 / 2).floor))).toNat

/-- R194, R195, R198: a band update of a hysteretic pair, every 200 fabric cycles, writes the band DAC codes of its input. Where
no usable voltage has come, the latest usable ones serve. -/
def execBandUpdate (p : Fin 12) (vdc v : BitVec 16) (ok : Bool) (s : State) : Out :=
  let st := pairStage s p
  let x := s.loop.stages[st]
  if pairMode s p = 0 ∨ !x.hystOn then .next s
  else
    let s := advanceTo s (gridNext s 0 2000 (s.loop.pairs[p]).bandTick)
    let y := { s.loop.pairs[p] with bandTick := some s.ticks }
    let s := setPair p (if ok then { y with vdc := q15 vdc, vin := q15 v } else y) s
    let y := s.loop.pairs[p]
    let ph := x.published
    let th := ph.theta + ph.omega * ((localNs s - ph.since : Nat) : Rat) / 1000000000
    let i := if isDq s st then phaseOf ph.w0 ph.w1 th (phaseIndex s p) else q15Rat ph.w0
    let h := halfWidth s st y.vdc y.vin
    let s := noteAccSat st 0xFF h.2 s
    let a := Reg.ADC_BAND (fld s (Reg.PWM_PAIR_CFG p) F.PWM_PAIR_CFG_ain)
    let s := setF s a F.ADC_BAND_upper (bandCode i h.1)
    .next (setF s a F.ADC_BAND_lower (bandCode i (-h.1)))

/-! ### Profile generators (R191, R192) -/

/-- A generator's period in ns. -/
def profPeriod (s : State) (g : Fin 16) : Nat := periodNs (fld s (Reg.CTRL_PROF_CFG g) F.CTRL_PROF_CFG_period)

/-- The stage whose blend a generator runs. -/
def blendStage (s : State) (g : Fin 16) : Option (Fin 4) :=
  (List.finRange 4).find? (fun (st : Fin 4) => (s.loop.stages[st]).blend == some g)

/-- The next period of a generator, on the grid of its period from each whole millisecond (R191, R34). -/
def reachPeriod (g : Fin 16) (s : State) : State :=
  let s := advanceTo s (gridNext s 0 (4 * profPeriod s g) s.loop.profTick[g])
  { s with loop := { s.loop with profTick := s.loop.profTick.set g (some s.ticks) } }

/-- Set a generator's output, velocity and acceleration. -/
def moveProf (g : Fin 16) (m : Motion) (s : State) : State :=
  showProf g (setProf g { x := m.x, v := m.v, a := m.a, steps := (s.loop.prof[g]).steps + 1 } s)

/-- A generator takes the first step of its shortest profile to a target under limits (R191). -/
def stepProf (g : Fin 16) (l : MoveLim) (target : Rat) (s : State) : State :=
  let x := s.loop.prof[g]
  moveProf g (profileStep l ⟨x.x, x.v, x.a⟩ target (profPeriod s g / 1000000000)) s

/-- A step of a generator whose user moves it a distance in a given time (a blend or a ramp), in units of 0.1 ms. -/
def timedStep (g : Fin 16) (target dist : Rat) (t : Nat) (s : State) : State :=
  stepProf g (limitsFor dist ((t : Rat) / 10000)) target s

/-- R191: a generator of host software takes the first step of its shortest profile; at rest on its target it stays. -/
def hostStep (g : Fin 16) (s : State) : State :=
  if !flg s (Reg.CTRL_PROF_CFG g) F.CTRL_PROF_CFG_en then s
  else
    let x := s.loop.prof[g]
    let tgt := q15Rat (hiQ15 (rd s (Reg.CTRL_PROF_CFG g)))
    if x.x = tgt ∧ x.v = 0 ∧ x.a = 0 then s
    else
      stepProf g ⟨lim24 (rd s (Reg.CTRL_PROF_VMAX g)), lim24 (rd s (Reg.CTRL_PROF_AMAX g)),
        lim24 (rd s (Reg.CTRL_PROF_JMAX g))⟩ tgt s

/-- A step of a generator that blends: the move takes t_blend, and then the blend ends (R204). -/
def blendStep (g : Fin 16) (st : Fin 4) (s : State) : State :=
  let t := fld s (Reg.CTRL_HOVER_CFG st) F.CTRL_HOVER_CFG_t_blend
  if t * 100000 ≤ ((s.loop.prof[g]).steps + 1) * profPeriod s g then endBlend st s
  else timedStep g 0 1 t s

/-! ### Plausibility (R208, R209) -/

/-- The residual of check k = j + 1, and whether the stage evaluates it. -/
def residualOf (s : State) (st : Fin 4) (x : LoopInputs) (j : Fin 5) : Option Nat :=
  match j with
  | 0 => if isDq s st then some (q15 x.words[3].value + q15 x.words[4].value + q15 x.words[5].value).natAbs else none
  | 1 => some x.model
  | 2 => x.sensors.map (fun p => (q15 p.1 - q15 p.2).natAbs)
  | 3 => some ((s.loop.stages[st]).repl.toList.foldl max 0)
  | 4 => if (s.loop.stages[st]).hystOn then some x.outside else none

/-- The input a check names as offending. -/
def offender (s : State) (st : Fin 4) (x : LoopInputs) (j : Fin 5) : Option (Fin 16) :=
  match j with
  | 1 => some x.modelInput
  | 2 => some x.sensorInput
  | 3 => (List.finRange 16).find? (fun (i : Fin 16) => (s.loop.stages[st]).repl[i] != 0)
  | _ => none

/-- The gate-block line of the MODEL tile (Table 7.7, code 3). -/
def plausBlock (st : Fin 4) (j : Fin 5) (s : State) : State :=
  let x := s.loop.stages[st]
  let s := setStage st { x with linePlaus := true, whyPlaus := putBit x.whyPlaus j true } s
  blockStages 4 (2 ^ st.val) (logN 0x4013 st (j + 1) s)

/-- A violation of a check (R209). -/
def violate (st : Fin 4) (inp : LoopInputs) (j : Fin 5) (s : State) : State :=
  let act := fld s (Reg.CTRL_PLAUS st (j + 1)) F.CTRL_PLAUS_action
  let s := setFbit s (Reg.CTRL_PLAUS_STATE st) F.CTRL_PLAUS_STATE_violated j true
  let s := logN 0x4011 st (j + 1) s
  if act = 3 ∨ (act = 2 ∧ (j = 0 ∨ j = 4)) then plausBlock st j s
  else if act = 2 then
    let x := s.loop.stages[st]
    let s := setStage st { x with
      plSubst := x.plSubst.set j 0, plBelow := x.plBelow.set j 0, plInput := x.plInput.set j (offender s st inp j) } s
    logN 0x4012 st (j + 1) (setFbit s (Reg.CTRL_PLAUS_STATE st) F.CTRL_PLAUS_STATE_subst j true)
  else s

/-- A sample of a check that is substituting: 64 further violating samples make it block, n samples below the threshold
end the substitution (R209). -/
def substSample (st : Fin 4) (j : Fin 5) (exceeds below : Bool) (n : Nat) (s : State) : State :=
  let x := s.loop.stages[st]
  if exceeds then
    let c := x.plSubst[j] + 1
    let s := setStage st { x with plSubst := x.plSubst.set j c, plBelow := x.plBelow.set j 0 } s
    if c = 64 then plausBlock st j s else s
  else if !below then setStage st { x with plBelow := x.plBelow.set j 0 } s
  else
    let c := x.plBelow[j] + 1
    let s := setStage st { x with plBelow := x.plBelow.set j c } s
    if n ≤ c then setFbit s (Reg.CTRL_PLAUS_STATE st) F.CTRL_PLAUS_STATE_subst j false else s

/-- The count of consecutive violations of a check becomes `c`; the gate-block line of the MODEL tile stays active while a
check that blocked the stage still exceeds its threshold (R209, R212). -/
def plausCount (st : Fin 4) (j : Fin 5) (c : Nat) (s : State) : State :=
  let x := s.loop.stages[st]
  let counts := x.plCount.set j c
  let still := (List.finRange 5).any (fun (q : Fin 5) => x.whyPlaus.testBit q && counts[q] != 0)
  setStage st { x with plCount := counts, linePlaus := x.linePlaus && still } s

/-- R208: one check in one sample. A check that is off, or whose residual the sample does not give, is not violated. -/
def plausCheck (st : Fin 4) (inp : LoopInputs) (j : Fin 5) (s : State) : State :=
  let a := Reg.CTRL_PLAUS st (j + 1)
  if fld s a F.CTRL_PLAUS_action = 0 then plausCount st j 0 s
  else match residualOf s st inp j with
  | none => plausCount st j 0 s
  | some r =>
    let thr := if j = 3 then 0 else fld s a F.CTRL_PLAUS_thr
    let n := max 1 (fld s a F.CTRL_PLAUS_n)
    let exceeds := decide (thr < r)
    let below := if j = 3 then r == 0 else decide (r < thr)
    let c := if exceeds then min 256 ((s.loop.stages[st]).plCount[j] + 1) else 0
    let s := plausCount st j c s
    let s := if fbit s (Reg.CTRL_PLAUS_STATE st) F.CTRL_PLAUS_STATE_subst j then substSample st j exceeds below n s else s
    if exceeds ∧ c = n then violate st inp j s else s

/-- R208: the checks of a sample. -/
def plausChecks (st : Fin 4) (inp : LoopInputs) (s : State) : State :=
  forEach (List.finRange 5) (fun j s => plausCheck st inp j s) s

/-! ### Writes -/

/-- A write of CTRL_NOTCH_s_c (R187): with en 1 its f0 and Q are checked. -/
def writeNotch (st : Fin 4) (c : Fin 4) (v : Word) (s : State) : State :=
  let f0 := getF v F.CTRL_NOTCH_f0
  let q := getF v F.CTRL_NOTCH_q
  let bad := f0 < 1000 ∨ 100000 < f0 ∨ q < 50 ∨ 2000 < q ∨ 4000000000 < f0 * stagePeriod s st
  if getF v F.CTRL_NOTCH_en = 1 ∧ bad then ctrlErr s
  else
    let x := s.loop.stages[st]
    wr (setStage st { x with notch := x.notch.set c { x.notch[c] with fresh := true } } s) (Reg.CTRL_NOTCH st c)
      (v &&& 0x8FFFFFFF)

/-- A write of CTRL_LIMIT_s: grid forming writes it for its stages (R186); a negative value is no magnitude. -/
def writeLimit (st : Nat) (v : Word) (s : State) : State :=
  if stageKind s st = kindGridForming ∨ 0x8000 ≤ getF v F.CTRL_LIMIT_ilim then ctrlErr s
  else setF s (Reg.CTRL_LIMIT st) F.CTRL_LIMIT_ilim (getF v F.CTRL_LIMIT_ilim)

/-- R205: may a stage's blends use a generator? -/
def genPermitted (s : State) (st : Fin 4) (g : Nat) : Bool :=
  let range := if st.val < 2 then g ≤ 7 else 8 ≤ g && g ≤ 14
  let named := (List.finRange 4).any (fun (q : Fin 4) =>
    q != st && fld s (Reg.CTRL_HOVER_CFG q) F.CTRL_HOVER_CFG_gen == g)
  let reserved := (g == 7 && stageKind s 0 == kindGridForming) || (g == 14 && stageKind s 2 == kindGridForming) ||
    (g == 15 && stageKind s 3 == kindVarFreq)
  range && !named && !reserved

/-- A write of CTRL_HOVER_CFG_s; t_blend runs from 0 to 10,000. -/
def writeHover (st : Fin 4) (v : Word) (s : State) : State :=
  let g := getF v F.CTRL_HOVER_CFG_gen
  let t := getF v F.CTRL_HOVER_CFG_t_blend
  let s := if genPermitted s st g then setF s (Reg.CTRL_HOVER_CFG st) F.CTRL_HOVER_CFG_gen g else ctrlErr s
  if t ≤ 10000 then setF s (Reg.CTRL_HOVER_CFG st) F.CTRL_HOVER_CFG_t_blend t else ctrlErr s

/-- Has the stage a hysteretic pair? -/
def hasHyst (s : State) (st : Fin 4) : Bool :=
  (s.loop.stages[st]).hystOn || (pairsOf s st).any (fun p => pairMode s p == 2)

/-- A write of CTRL_STAGE_PHASE_s (R202). -/
def writePhase (st : Fin 4) (v : Word) (s : State) : State :=
  let o := getF v F.CTRL_STAGE_PHASE_out_phase
  let cycles := stagePeriod s st * 2 / 5
  if fld s (Reg.CTRL_STAGE_PHASE st) F.CTRL_STAGE_PHASE_ready ≤ o ∧ o < cycles ∧ (!hasHyst s st ∨ o % 200 = 0) then
    setF s (Reg.CTRL_STAGE_PHASE st) F.CTRL_STAGE_PHASE_out_phase o
  else ctrlErr s

/-- A write of CTRL_BAND_CFG_s. -/
def writeBandCfg (st : Nat) (v : Word) (s : State) : State :=
  let f := getF v F.CTRL_BAND_CFG_fsw_target
  if 1000 ≤ f ∧ f ≤ 100000 then setF s (Reg.CTRL_BAND_CFG st) F.CTRL_BAND_CFG_fsw_target f else ctrlErr s

/-- A write of CTRL_COEF: a limit word with a shift is refused (R177, R208). -/
def writeCoef (a w : Nat) (v : Word) (s : State) : State :=
  let j := w % 8
  if (j = 3 ∨ j = 4 ∨ j = 6) ∧ getF v F.CTRL_COEF_shift ≠ 0 then ctrlErr s
  else wr s a (v &&& 0xFFFFF)

/-- A write of CTRL_PROF_CFG_g or of a limit: only while the user is host software (R192). -/
def writeProfCfg (g : Fin 16) (v : Word) (s : State) : State :=
  let a := Reg.CTRL_PROF_CFG g
  let s := setF s a F.CTRL_PROF_CFG_en (getF v F.CTRL_PROF_CFG_en)
  let s := setF s a F.CTRL_PROF_CFG_period (getF v F.CTRL_PROF_CFG_period)
  let reserved := g = 15 ∧ stageKind s 3 = kindVarFreq
  if fld s a F.CTRL_PROF_CFG_user = userHost ∧ !reserved then
    showProf g (setF s a F.CTRL_PROF_CFG_target (getF v F.CTRL_PROF_CFG_target))
  else ctrlErr s

/-- A write of a generator's limit (R192). -/
def writeProfLim (g : Nat) (a : Nat) (v : Word) (s : State) : State :=
  if fld s (Reg.CTRL_PROF_CFG g) F.CTRL_PROF_CFG_user = userHost then wr s a v else ctrlErr s

/-- A write of the region map: judged at the next sample (R188). -/
def writeMap (st : Fin 4) (a : Nat) (v mask : Word) (s : State) : State :=
  setStage st { s.loop.stages[st] with mapWritten := true } (wr s a (v &&& mask))

end Sys2Proof.Machine
end

