-- ==== Sys2Proof/Machine/Gfm.lean ====
section
/-! DEFINITION. Grid forming, black start and peer sharing (chapter 08): the virtual synchronous machine, restoration, the
current limit, line state, contactor and 25 check, and the start state machine. -/

namespace Sys2Proof.Machine

open Sys2Proof

/-! ### Modes of a stage (R203, R206) -/

/-- Show which stages are energised and which are blocked (R175). -/
def showModes (s : State) : State :=
  let m := fun (p : Nat → Bool) => (List.range 4).foldl (fun n st => putBit n st (p (stageMode s st))) 0
  let e := m (fun x => x != modeOff && x != modeBlocked)
  let b := m (fun x => x == modeBlocked)
  setF (setF s Reg.CTRL_STATUS F.CTRL_STATUS_energised e) Reg.CTRL_STATUS F.CTRL_STATUS_blocked b

/-- A mode change, logged; a stage that stops turns its gates off and ends its blend, and one that is energised clamps a slew
in progress (R125). -/
def setMode (st : Fin 4) (n : Nat) (s : State) : State :=
  let old := stageMode s st
  if old = n then s
  else
    let was := anyEnergised s
    let s := setF s (Reg.CTRL_STAGE_STATE st) F.CTRL_STAGE_STATE_mode n
    let s := showModes (logN 0x4002 st (old * 256 + n) s)
    let s := if n = modeOff ∨ n = modeBlocked then endBlend st (stageGatesOff st s) else s
    if !was ∧ anyEnergised s then clampOnEnergise s else s

/-! ### Settings in per unit (R218, R220) -/

/-- The stage number of a grid-forming index. -/
def gst (g : Fin 2) : Fin 4 := if g = 0 then 0 else 2

/-- A quotient whose divisor may be a rating, scale or base written as 0 (log entry 22). -/
def rdiv (a b : Rat) : Rat := if b = 0 then Config.divZero a else a / b

/-- m_p and m_q. -/
def droopP (s : State) (g : Fin 2) : Rat := (fld s (Reg.GFM_DROOP (2 * g)) F.GFM_DROOP_mp : Rat) / 10000
def droopQ (s : State) (g : Fin 2) : Rat := (fld s (Reg.GFM_DROOP (2 * g)) F.GFM_DROOP_mq : Rat) / 10000

/-- A PU12 field as a per-unit value. -/
def pu12 (s : State) (a : Nat) (f : Fld) : Rat := (sfld s a f : Rat) / 4096

/-- A value as PU12, where it fits; its rounding is not stated (log entry 5). -/
def toPu12 (v : Rat) : Nat := (BitVec.ofInt 16 (sat16 (quot (v * 4096).num (v * 4096).den))).toNat

/-- A non-negative value as a 16-bit count of a unit. -/
def toCount (v : Rat) : Nat := min 65535 (quot v.num v.den).toNat

/-- Peers and slot length in ns (R240). -/
def groupSize (s : State) : Nat := fld s Reg.GFM_GROUP F.GFM_GROUP_size
def slotNs (s : State) : Nat := fld s Reg.GFM_GROUP F.GFM_GROUP_t_slot * 1000000

/-- Milliseconds of a field, in ns. -/
def msFld (s : State) (a : Nat) (f : Fld) (unit : Nat) : Nat := fld s a f * unit * 1000000

/-- Rating and scale: V_r, S_r in VA, v_fs, i_fs in A. -/
def vRated (s : State) (g : Fin 2) : Nat := fld s (Reg.GFM_RATING (2 * g)) F.GFM_RATING_v_r
def sRated (s : State) (g : Fin 2) : Nat := 100 * fld s (Reg.GFM_RATING (2 * g)) F.GFM_RATING_s_r
def vScale (s : State) (g : Fin 2) : Nat := fld s (Reg.GFM_SCALE (2 * g)) F.GFM_SCALE_v_fs
def iFull (s : State) (g : Fin 2) : Rat := (fld s (Reg.GFM_SCALE (2 * g)) F.GFM_SCALE_i_fs : Rat) / 10

/-- Does a stage hold a rating and a scale? -/
def isRated (s : State) (g : Fin 2) : Bool :=
  vRated s g != 0 && sRated s g != 0 && vScale s g != 0 && iFull s g != 0

/-- The peak bases of voltage, √2 · V_r / √3, and of current, √2 · I_b = (√2 · V_r / √3) · S_r / V_r² (R218). -/
def vBase (s : State) (g : Fin 2) : Rat := vRated s g * sqrtR (2 / 3)
def iBase (s : State) (g : Fin 2) : Rat := rdiv (vBase s g * sRated s g) (vRated s g * vRated s g)

/-! ### State and contactor (Table 8.3) -/

def gStopped : Nat := 0
def gLineCheck : Nat := 1
def gWaitSlot : Nat := 2
def gClosingDead : Nat := 3
def gRamping : Nat := 4
def gSync : Nat := 5
def gClosingLive : Nat := 6
def gRunning : Nat := 7
def gRide : Nat := 8
def gJoin : Nat := 9
def gFailed : Nat := 10

/-- The state of Table 8.3. -/
def gState (s : State) (g : Fin 2) : Nat := fld s (Reg.GFM_STATE (2 * g)) F.GFM_STATE_state

/-- The contactor command and the debounced feedback. -/
def contClosed (s : State) (g : Fin 2) : Bool := flg s (Reg.GFM_STATE (2 * g)) F.GFM_STATE_cont_cmd
def contFb (s : State) (g : Fin 2) : Bool :=
  flg s (Reg.GFM_CONT (2 * g)) F.GFM_CONT_en && diLevel s (fld s (Reg.GFM_CONT (2 * g)) F.GFM_CONT_di)

/-- The contactor command of a state; WAIT_SLOT keeps the command it is entered with. -/
def contactorFor (n : Nat) (present : Bool) : Bool :=
  match n with
  | 2 => present
  | 3 => true
  | 4 => true
  | 6 => true
  | 7 => true
  | 8 => true
  | 9 => true
  | _ => false

/-- Command the contactor. -/
def setContactor (g : Fin 2) (b : Bool) (s : State) : State :=
  if contClosed s g = b then s
  else
    let s := setF s (Reg.GFM_STATE (2 * g)) F.GFM_STATE_cont_cmd (b2n b)
    refreshDo (setGfm g { s.gfm.stages[g] with cmdAt := localNs s } s)

/-- R237: a change of state, logged, with the contactor command of the new state. -/
def setGfmState (g : Fin 2) (n : Nat) (s : State) : State :=
  let old := gState s g
  if old = n then s
  else
    let s := setF s (Reg.GFM_STATE (2 * g)) F.GFM_STATE_state n
    let x := s.gfm.stages[g]
    let s := setGfm g { x with
      stateAt := localNs s, winMs := 0, rideOkMs := 0, notLiveMs := 0,
      slot := if n = gWaitSlot then x.slot else none, backoff := x.backoff && n != gRunning,
      cold := x.cold && n != gRunning } s
    setContactor g (contactorFor n (contClosed s g)) (logN 0x5001 (2 * g) (old * 256 + n) s)

/-- The machine stops its stage at the next sample instant; an order not yet taken is void. -/
def stopStage (g : Fin 2) (s : State) : State :=
  let s := setGfm g { s.gfm.stages[g] with order := none } s
  setStage (gst g) { s.loop.stages[gst g] with stopReq := true } s

/-- The machine orders its stage to start, or to change its mode, at the next sample instant. -/
def orderStage (g : Fin 2) (o : GfmStart) (s : State) : State := setGfm g { s.gfm.stages[g] with order := some o } s

/-- Stop and fail. -/
def failGfm (g : Fin 2) (s : State) : State := setGfmState g gFailed (stopStage g s)

/-- Does V_dc permit a start (Table 8.4)? -/
def vdcOk (s : State) (g : Fin 2) : Bool :=
  let stop := hiQ15 (rd s (Reg.GFM_RT (2 * g)))
  decide (fld s (Reg.GFM_RT (2 * g)) F.GFM_RT_v_dc_stop = 0 ∨ 11 * stop ≤ 10 * (s.gfm.stages[g]).vdc)

/-! ### Time mode and restoration (R225, R226) -/

/-- θ_TAI in degrees. -/
def thetaTai (s : State) (g : Fin 2) : Rat :=
  let t : Rat := (s.tai.toNat : Rat) / 4000000000
  let x := (ratedHz s g : Rat) * t
  360 * (x - x.floor)

/-- The line angle θ_L, and δ = θ_L − θ_C. -/
def thetaLine (s : State) (g : Fin 2) : Rat := thetaTai s g - (s.gfm.stages[g]).phi
def deltaOf (x : GfmStage) : Rat := wrapDeg (x.phiC - x.phi)

/-- The time mode of a stage: 0 REFERENCED, 1 HOLDING, 2 DROOP. -/
def timeMode (s : State) (g : Fin 2) : Nat := fld s (Reg.GFM_TMODE (2 * g)) F.GFM_TMODE_time_mode

/-- K_r · φ in pu (R225): φ in degrees over 360 · f_r · T_r. -/
def krPhi (s : State) (g : Fin 2) : Rat :=
  (s.gfm.stages[g]).phi / (360 * ratedHz s g * ((fld s (Reg.GFM_REST (2 * g)) F.GFM_REST_t_r : Rat) / 1000))

/-- The longest time in HOLDING, in ns. -/
def holdRest (s : State) (g : Fin 2) : Nat := msFld s (Reg.GFM_REST (2 * g)) F.GFM_REST_t_hold_rest 1000

/-- Was the mode REFERENCED within t_hold_rest? -/
def heldRecently (s : State) (g : Fin 2) : Bool :=
  if timeMode s g = 0 then 0 < holdRest s g
  else match (s.gfm.stages[g]).refAt with
  | none => false
  | some t => localNs s < t + holdRest s g

/-- The time mode that Table 8.2 gives now. -/
def timeModeDue (s : State) (g : Fin 2) : Nat :=
  if timeIsLocked s then 0 else if timeState s ≠ timeUnset ∧ heldRecently s g then 1 else 2

/-- Show the time mode in GFM_STATUS: that of stage 0, or of stage 2 when stage 0 is not grid-forming. -/
def showTimeMode (s : State) : State :=
  let g : Fin 2 := if stageKind s 0 = kindGridForming then 0 else 1
  setF s Reg.GFM_STATUS F.GFM_STATUS_time_mode (timeMode s g)

/-- R226: the time mode follows the TIME state; d is the step that ω_res would make on return to REFERENCED. -/
def timeModeStep (g : Fin 2) (s : State) : State :=
  let old := timeMode s g
  let new := timeModeDue s g
  if old = new ∨ stageKind s (gst g) ≠ kindGridForming then s
  else
    let x := s.gfm.stages[g]
    let x := if new = 0 then { x with d := x.wRes - krPhi s g } else { x with d := 0 }
    let x := if old = 0 then { x with refAt := some (localNs s) } else x
    let s := setF (setGfm g x s) (Reg.GFM_TMODE (2 * g)) F.GFM_TMODE_time_mode new
    logN 0x500F (2 * g) (old * 256 + new) (showTimeMode s)

/-- GFM_TIME_MODE (R226): the time mode changes now, or once t_hold_rest has passed in HOLDING. -/
def execGfmTimeMode (g : Fin 2) (s : State) : Out :=
  if timeModeDue s g ≠ timeMode s g then .next (timeModeStep g s)
  else if timeMode s g = 1 then
    match (s.gfm.stages[g]).refAt with
    | none => .next s
    | some t => .next (timeModeStep g (reachLocal (t + holdRest s g) s))
  else .next s

/-- R225, R226: ω_res at a sample, ts in seconds. -/
def restoration (g : Fin 2) (ts : Rat) (s : State) : State :=
  let x := s.gfm.stages[g]
  let tr : Rat := (fld s (Reg.GFM_REST (2 * g)) F.GFM_REST_t_r : Rat) / 1000
  if !flg s (Reg.GFM_CFG (2 * g)) F.GFM_CFG_restore then setGfm g { x with wRes := 0, d := 0 } s
  else match timeMode s g with
  | 0 =>
    let d := x.d * expNeg (ts / tr)
    let d := if d < 1 / 1000000 ∧ -1 / 1000000 < d then 0 else d
    setGfm g { x with d := d, wRes := if 150 < x.phi ∨ x.phi < -150 then x.wRes else krPhi s g + d } s
  | 1 => s
  | _ => setGfm g { x with wRes := x.wRes * expNeg (ts / (10 * tr)) } s

/-! ### The law (R221 to R224) and the current limit (R228) -/

/-- The ramp generator of a stage (R242). Full scale of its output stands for 8 pu (log entry 13). -/
def rampGen (g : Fin 2) : Fin 16 := if g = 0 then 7 else 14
def rampE (s : State) (g : Fin 2) : Rat := 8 * (s.loop.prof[rampGen g]).x

/-- E of R223. -/
def eDroop (s : State) (g : Fin 2) : Rat :=
  let x := s.gfm.stages[g]
  x.vref - droopQ s g * (x.qf - pu12 s (Reg.GFM_SET (2 * g)) F.GFM_SET_q_ref)

/-- A value moved towards a target by at most `d`. -/
def moveTo (v target d : Rat) : Rat := if target < v - d then v - d else if v + d < target then v + d else target

/-- The internal magnitude E by mode (R221, R223, R244). -/
def eSource (s : State) (g : Fin 2) : Rat :=
  let x := s.gfm.stages[g]
  if stageMode s (gst g) = modeRamp then rampE s g
  else if gState s g = gSync then x.eTrack
  else eDroop s g + x.eResid * blendFactor s (gst g)

/-- V_ref' and the tracked E, each moved at no more than 1 pu/s (R223, R244). -/
def moveRefs (g : Fin 2) (ts : Rat) (s : State) : State :=
  let x := s.gfm.stages[g]
  setGfm g { x with
    vref := moveTo x.vref (pu12 s (Reg.GFM_VSET (2 * g)) F.GFM_VSET_v_ref) ts
    eTrack := if gState s g = gSync ∧ stageMode s (gst g) ≠ modeRamp then moveTo x.eTrack x.vl ts else x.eTrack } s

/-- P and Q in pu from the converter-side voltages and the output currents at θ (R219, R6). -/
def powers (s : State) (g : Fin 2) : Rat × Rat :=
  let st := gst g
  let th := (s.gfm.stages[g]).theta
  let v := park (input s st 0) (input s st 1) (input s st 2) th
  let i := park (input s st 3) (input s st 4) (input s st 5) th
  let k := rdiv (3 / 2 * vScale s g * iFull s g) (sRated s g)
  (k * (q15Rat v.1 * q15Rat i.1 + q15Rat v.2 * q15Rat i.2), k * (q15Rat v.2 * q15Rat i.1 - q15Rat v.1 * q15Rat i.2))

/-- P_f and Q_f (R221), shown in GFM_MEAS_s. -/
def filterPowers (g : Fin 2) (ts : Rat) (s : State) : State :=
  let x := s.gfm.stages[g]
  let p := powers s g
  let k := ts / ((fld s (Reg.GFM_CFG (2 * g)) F.GFM_CFG_tau_pq : Rat) / 1000)
  let x := { x with pf := x.pf + (p.1 - x.pf) * k, qf := x.qf + (p.2 - x.qf) * k }
  let a := Reg.GFM_MEAS (2 * g)
  setF (setF (setGfm g x s) a F.GFM_MEAS_p (toPu12 x.pf)) a F.GFM_MEAS_q (toPu12 x.qf)

/-- The slip window in pu and the angle window in degrees (Table 8.1). -/
def slipHz (s : State) (g : Fin 2) : Rat := (fld s (Reg.GFM_SYNC (2 * g)) F.GFM_SYNC_slip : Rat) / 100
def angWin (s : State) (g : Fin 2) : Rat := (fld s (Reg.GFM_SYNC (2 * g)) F.GFM_SYNC_ang : Rat) / 10
def voltWin (s : State) (g : Fin 2) : Rat := (fld s (Reg.GFM_SYNC (2 * g)) F.GFM_SYNC_volt : Rat) / 1000

/-- A value held within bounds. -/
def clampR (lo v hi : Rat) : Rat := max lo (min v hi)

/-- Does a ramp of a kind run on the stage? -/
def rampsIn (x : GfmStage) (k : RampKind) : Bool :=
  match x.ramp with
  | some r => r.kind == k
  | none => false

/-- Δω of a sample (R221, R222, R230, R242, R244). -/
def nextDw (s : State) (g : Fin 2) (ts : Rat) : Rat :=
  let x := s.gfm.stages[g]
  let mp := droopP s g
  let pref := pu12 s (Reg.GFM_SET (2 * g)) F.GFM_SET_p_ref
  let h : Rat := (fld s (Reg.GFM_DROOP (2 * g)) F.GFM_DROOP_h : Rat) / 100
  let md := stageMode s (gst g)
  if mp = 0 then 0
  else if gState s g = gSync then
    if md = modeRamp ∧ rampsIn x .sync then x.dwEntry
    else
      let slip := slipHz s g / ratedHz s g
      x.fl / ratedHz s g - 1 + clampR (-slip / 2) (deltaOf x / (1 / 2)) (slip / 2)
  else if md = modeLimit then clampR (-1 / 100) (x.wRes - mp * (x.pf - pref)) (1 / 100)
  else if md = modeRamp ∧ gState s g = gRamping then 0
  else x.dw + ts / (2 * h) * (pref - x.pf - (x.dw - x.wRes) / mp)

/-- The gain of the first-order low-pass of corner vi_fc at the sample rate: its discretisation is free between that of the
backward difference, x / (1 + x), and that of the forward one, x = 2π · f_c · T_s (R224, log entry 21). -/
def viGain (s : State) (g : Fin 2) : Rat :=
  let p := stagePeriod s (gst g)
  let fc := fld s (Reg.GFM_CFG (2 * g)) F.GFM_CFG_vi_fc
  let x := 2 * piR * (100 * fc : Nat) * p / 1000000000
  let k := Config.viGain fc p
  if x / (1 + x) ≤ k ∧ k ≤ min 1 x then k else x / (1 + x)

/-- The drop across the virtual impedance of phase k in pu, and the filtered current (R224). -/
def virtualDrop (s : State) (g : Fin 2) (ts : Rat) (k : Fin 3) : Rat × Rat :=
  let x := s.gfm.stages[g]
  let st := gst g
  let i := q15Rat (input s st (Fin.ofNat 16 (3 + k)))
  let f := x.iFilt[k] + (i - x.iFilt[k]) * viGain s g
  let a := Reg.GFM_VIRT (2 * g) k
  let r : Rat := (fld s a F.GFM_VIRT_r : Rat) / 10000
  let l : Rat := (fld s a F.GFM_VIRT_x : Rat) / 10000 / (twoPi * ratedHz s g)
  (rdiv ((r * i + l * (f - x.iFilt[k]) / ts) * iFull s g) (iBase s g), f)

/-- The voltage references of the outer controllers, in Q15 of v_fs (R221). -/
def voltageRefs (s : State) (g : Fin 2) (ts : Rat) (e : Rat) : Int × Int :=
  let th := (s.gfm.stages[g]).theta
  let v := fun (k : Fin 3) => e * cosDeg (th - 120 * (k : Nat)) - (virtualDrop s g ts k).1
  let p := fun (f : Rat → Rat) => 2 / 3 * (v 0 * f th + v 1 * f (th - 120) + v 2 * f (th + 120))
  let q := fun (x : Rat) => ratQ15 (rdiv (x * vBase s g) (vScale s g))
  (q (p cosDeg), q (-(p sinDeg)))

/-- The references, angle and angular rate of a grid-forming sample. -/
def gfmCtx (s : State) (g : Fin 2) (ts : Rat) : SampleCtx :=
  let x := s.gfm.stages[g]
  let r := voltageRefs s g ts (eSource s g)
  { ref0 := r.1, ref1 := r.2, theta := x.theta, omega := 360 * ratedHz s g * (1 + x.dw) }

/-- R228: the limit in force in pu × 100: ilim_pu, and after the hold a straight line of 20 ms to i_cont (R231). -/
def limitInForce (s : State) (g : Fin 2) : Rat :=
  let a := Reg.GFM_LIMIT (2 * g)
  let il : Rat := fld s a F.GFM_LIMIT_ilim
  let ic : Rat := fld s a F.GFM_LIMIT_i_cont
  match (s.gfm.stages[g]).heldAt with
  | none => il
  | some t => il + (ic - il) * (min 20000000 (localNs s - t) : Nat) / 20000000

/-- The limit word, rounded only at the store: the root of (2/3)·(S_r/V_r · lim / i_fs · 32,768)² to the nearest integer. -/
def limitWord (s : State) (g : Fin 2) : Nat :=
  let r : Rat := (sRated s g : Rat) / vRated s g * (limitInForce s g / 100) * 32768 / iFull s g
  (isqrt (8 / 3 * r * r).floor.toNat + 1) / 2

/-- R228: grid forming writes CTRL_LIMIT_s.ilim at every sample. -/
def writeIlim (g : Fin 2) (s : State) : State :=
  if !isRated s g then s
  else
    let w := limitWord s g
    let s := setF s (Reg.CTRL_LIMIT (gst g)) F.CTRL_LIMIT_ilim (min 32767 w)
    if 32767 < w then setF s Reg.GFM_STATUS F.GFM_STATUS_cfg_err 1 else s

/-- R221: the law of one sample before the controllers; the first sample of a start keeps the Δω and θ it starts with, but for a
Δω held at 0 (R222). -/
def gfmLaw (g : Fin 2) (first : Bool) (s : State) : State :=
  let ts : Rat := (stagePeriod s (gst g) : Rat) / 1000000000
  let s := filterPowers g ts s
  let s := if first then
      (if droopP s g = 0 then setGfm g { s.gfm.stages[g] with dw := 0 } s else s)
    else
      let dw := nextDw s g ts
      let x := s.gfm.stages[g]
      setGfm g { x with dw := dw, theta := wrapDeg (x.theta + 360 * ratedHz s g * (1 + dw) * ts) } s
  let x := s.gfm.stages[g]
  let s := setF s (Reg.GFM_FREQ (2 * g)) F.GFM_FREQ_f_unit (toCount (1000 * ratedHz s g * (1 + x.dw)))
  writeIlim g s

/-- Keep the filtered phase currents of a sample (R224). -/
def keepFiltered (g : Fin 2) (s : State) : State :=
  let ts : Rat := (stagePeriod s (gst g) : Rat) / 1000000000
  setGfm g { s.gfm.stages[g] with iFilt := Vector.ofFn (fun (k : Fin 3) => (virtualDrop s g ts k).2) } s

/-! ### Ramps (R242, R243) -/

/-- Start a ramp on the stage's generator. -/
def startRamp (g : Fin 2) (k : RampKind) (e0 e1 : Rat) (s : State) : State :=
  let s := takeProf (rampGen g) userGfm (e0 / 8) (ratQ15 (e1 / 8)) s
  setGfm g { s.gfm.stages[g] with ramp := some { kind := k, start := e0, target := e1, at' := localNs s } } s

/-- The length of a ramp in ns. -/
def rampNs (s : State) (g : Fin 2) (k : RampKind) : Nat :=
  match k with
  | .blackStart => msFld s (Reg.GFM_BS (2 * g)) F.GFM_BS_t_ramp 1
  | _ => msFld s (Reg.GFM_RECOV (2 * g)) F.GFM_RECOV_t_recov 1

/-- The four segments of T/4 with jerk +, −, − and +: position, velocity and acceleration of a unit move at τ in [0, 1/2]. -/
def rampHalf (t : Rat) : Rat × Rat × Rat :=
  if t ≤ 1 / 4 then (16 / 3 * t * t * t, 16 * t * t, 32 * t)
  else
    let u := t - 1 / 4
    (1 / 12 + u + 4 * u * u - 16 / 3 * u * u * u, 1 + 8 * u - 16 * u * u, 8 - 32 * u)

/-- The same over [0, 1], by its symmetry. -/
def rampShape (t : Rat) : Rat × Rat × Rat :=
  if t ≤ 1 / 2 then rampHalf t
  else if 1 ≤ t then (1, 0, 0)
  else
    let r := rampHalf (1 - t)
    (1 - r.1, r.2.1, -r.2.2)

/-- A step of a stage's ramp generator: on the four segments, or, once R243 has held it, by the generator's own profile. -/
def rampStep (g : Fin 2) (s : State) : State :=
  match (s.gfm.stages[g]).ramp with
  | none => s
  | some r =>
    let t := rampNs s g r.kind
    if !r.wasHeld then
      let sec : Rat := (t : Rat) / 1000000000
      let q := rampShape (((localNs s - r.at' : Nat) : Rat) / t)
      let d := (r.target - r.start) / 8
      moveProf (rampGen g) ⟨r.start / 8 + d * q.1, d / sec * q.2.1, d / (sec * sec) * q.2.2⟩ s
    else
      let sec : Rat := (t : Rat) / 1000000000
      let d := (s.gfm.stages[g]).vref / 8
      stepProf (rampGen g) ⟨2 * d / sec, 8 * d / (sec * sec), 32 * d / (sec * sec * sec)⟩ (r.target / 8) s

/-- A ramp ends: its generator returns to host software. -/
def endRamp (g : Fin 2) (s : State) : State :=
  match (s.gfm.stages[g]).ramp with
  | none => s
  | some _ => freeProf (rampGen g) (setGfm g { s.gfm.stages[g] with ramp := none } s)

/-- R243: hold the ramp on its present output, or let it go on towards V_ref'. -/
def holdRamp (g : Fin 2) (hold : Bool) (s : State) : State :=
  let x := s.gfm.stages[g]
  match x.ramp with
  | none => s
  | some r =>
    if r.held = hold then s
    else
      let tgt := if hold then rampE s g else x.vref
      let s := setF s (Reg.CTRL_PROF_CFG (rampGen g)) F.CTRL_PROF_CFG_target (q15Bits (ratQ15 (tgt / 8)))
      setGfm g { x with ramp := some { r with held := hold, wasHeld := true, target := tgt } } s

/-- Is the ramp at rest on its target? -/
def rampRests (s : State) (g : Fin 2) (r : Ramp) : Bool :=
  let p := s.loop.prof[rampGen g]
  !r.held && p.x == r.target / 8 && p.v == 0 && p.a == 0

/-- What follows a ramp (rows 11 of Table 8.4, R244, R232): the stage goes to VSM at its next sample. -/
def rampDone (g : Fin 2) (k : RampKind) (s : State) : State :=
  let s := orderStage g .vsm s
  if k = .blackStart ∧ gState s g = gRamping then setGfmState g gRunning s else s

/-- RAMP_COMPLETE: an unheld ramp reaches its target at T; a ramp that R243 has held completes once it rests there. -/
def execRampComplete (g : Fin 2) (s : State) : Out :=
  match (s.gfm.stages[g]).ramp with
  | none => .next s
  | some r =>
    if isStandby s then .next s
    else if !r.wasHeld then
      let s := reachLocal (r.at' + rampNs s g r.kind) s
      .next (rampDone g r.kind (moveProf (rampGen g) ⟨r.target / 8, 0, 0⟩ s))
    else if rampRests s g r then .next (rampDone g r.kind s)
    else .next s

/-! ### Current limit (R229 to R232, R243) -/

/-- Does the current limiter reduce the reference in this sample? -/
def isLimiting (s : State) (st : Nat) : Bool := flg s (Reg.CTRL_STAGE_STATE st) F.CTRL_STAGE_STATE_limiting

/-- R229: entry to LIMIT, with the onset of the first of two limiting samples. -/
def enterLimit (g : Fin 2) (s : State) : State :=
  let x := s.gfm.stages[g]
  let s := wr64 (setF s (Reg.GFM_STATE (2 * g)) F.GFM_STATE_limit 1) (Reg.GFM_ONSET (2 * g)) x.limFirst
  let s := logEvent 0x500A (2 * g) (x.limFirst.extractLsb' 0 32) (recTrig srcLimit x.limFirst.toNat s)
  let s := endRamp g (setGfm g { x with heldAt := none, belowFrom := none } s)
  lmdLimitEntry g (setMode (gst g) modeLimit s)

/-- Count limiting samples. -/
def countLimiting (g : Fin 2) (s : State) : State :=
  let x := s.gfm.stages[g]
  if !isLimiting s (gst g) then
    setGfm g { x with limRun := 0, clearFrom := some (x.clearFrom.getD (localNs s)) } s
  else
    let x := if x.limRun = 0 then { x with limFirst := now s, limFirstAt := localNs s } else x
    setGfm g { x with limRun := x.limRun + 1, clearFrom := none } s

/-- Is the reference before the limiter below 0.95 times the limit in force? -/
def belowLimit (s : State) (g : Fin 2) : Bool :=
  decide (10000 * (s.loop.stages[gst g]).preSq < 9025 * (ilimOf s (gst g) * ilimOf s (gst g)))

/-- After the controllers of a sample: entry to LIMIT, the release count, and the hold of a black-start ramp. -/
def limitStep (g : Fin 2) (s : State) : State :=
  let was := (s.gfm.stages[g]).limRun
  let md := stageMode s (gst g)
  if md = modeLimit then
    let x := s.gfm.stages[g]
    setGfm g { x with belowFrom := if belowLimit s g then some (x.belowFrom.getD (localNs s)) else none } s
  else
    let s := countLimiting g s
    let x := s.gfm.stages[g]
    if md = modeVsm ∨ (md = modeRamp ∧ rampsIn x .recovery) then
      if was = 1 ∧ x.limRun = 2 then enterLimit g s else s
    else if md = modeRamp ∧ gState s g = gRamping then
      if 0 < x.limRun then holdRamp g true s
      else if (x.clearFrom.getD (localNs s)) + msFld s (Reg.GFM_LIMIT_T (2 * g)) F.GFM_LIMIT_T_t_rel 1 ≤ localNs s then
        holdRamp g false s
      else s
    else s

/-- LIMIT_HELD (R231): t_hold after the onset the limit moves to i_cont. -/
def execLimitHeld (g : Fin 2) (s : State) : Out :=
  let x := s.gfm.stages[g]
  if stageMode s (gst g) ≠ modeLimit ∨ x.heldAt.isSome then .next s
  else
    let s := reachLocal (x.limFirstAt + msFld s (Reg.GFM_LIMIT_T (2 * g)) F.GFM_LIMIT_T_t_hold 1) s
    let s := setGfm g { s.gfm.stages[g] with heldAt := some (localNs s) } s
    .next (logN 0x500C (2 * g) (fld s (Reg.GFM_LIMIT (2 * g)) F.GFM_LIMIT_i_cont) s)

/-- The stage is no longer in LIMIT: GFM_STATE_s.limit clears, LIMIT_RELEASE is logged, and the discriminator is told. -/
def leaveLimit (g : Fin 2) (s : State) : State :=
  let x := s.gfm.stages[g]
  let ms := (quot (localNs s - x.limFirstAt : Nat) 1000000).toNat
  let s := setF s (Reg.GFM_STATE (2 * g)) F.GFM_STATE_limit 0
  let s := setGfm g { x with heldAt := none, belowFrom := none, limRun := 0 } s
  lmdRelease (logN 0x500B (2 * g) (min 0xFFFFFFFF ms) s)

/-- LIMIT_RELEASE (R232): back to VSM, or by a recovery ramp where V_L lies below v_rec. -/
def execLimitRelease (g : Fin 2) (s : State) : Out :=
  let x := s.gfm.stages[g]
  match x.belowFrom with
  | none => .next s
  | some t =>
    if stageMode s (gst g) ≠ modeLimit ∨ isStandby s then .next s
    else
      let s := leaveLimit g (reachLocal (t + msFld s (Reg.GFM_LIMIT_T (2 * g)) F.GFM_LIMIT_T_t_rel 1) s)
      let direct := pu12 s (Reg.GFM_RECOV (2 * g)) F.GFM_RECOV_v_rec ≤ x.vl
      .next (orderStage g (if direct then .vsm else .recovery) s)

/-! ### Line state and 25 check (R233, R235) -/

/-- The new phasors of a millisecond; one formed from an unusable word is not used (R219). -/
def takeLine (g : Fin 2) (m : LineMeas) (s : State) : State :=
  let x := s.gfm.stages[g]
  let x := if m.lineUsable then { x with vl := m.vl, phi := wrapDeg m.phi, fl := m.fl } else x
  let x := if m.convUsable then { x with vc := m.vc, phiC := wrapDeg m.phiC, fc := m.fc } else x
  let s := setGfm g { x with delta := deltaOf x } s
  let s := setF s (Reg.GFM_STATE (2 * g)) F.GFM_STATE_phi (BitVec.ofInt 16 (quot (x.phi * 100).num (x.phi * 100).den)).toNat
  setF s (Reg.GFM_FREQ (2 * g)) F.GFM_FREQ_f_line (toCount (1000 * x.fl))

/-- The class of a phasor: 1 DEAD, 2 LIVE, 0 UNSURE. -/
def classOf (s : State) (g : Fin 2) (v f : Rat) : Nat :=
  let fr : Rat := ratedHz s g
  if v < pu12 s (Reg.GFM_BS (2 * g)) F.GFM_BS_v_dead then 1
  else if pu12 s (Reg.GFM_LIVE (2 * g)) F.GFM_LIVE_v_live ≤ v ∧ fr * 95 / 100 ≤ f ∧ f ≤ fr * 105 / 100 then 2
  else 0

/-- Classify the line and count the milliseconds; the counts run in every state but STOPPED and FAILED (R233). -/
def countLine (g : Fin 2) (s : State) : State :=
  let x := s.gfm.stages[g]
  let c := classOf s g x.vl x.fl
  let run := gState s g ≠ gStopped ∧ gState s g ≠ gFailed
  let n := fun (on : Bool) (k : Nat) => if on then (if run then k + 1 else k) else 0
  setGfm g { x with
    lineClass := c, deadMs := n (c == 1) x.deadMs, liveMs := n (c == 2) x.liveMs, notLiveMs := n (c != 2) x.notLiveMs } s

/-- Confirmations. -/
def deadConfirmed (s : State) (g : Fin 2) : Bool :=
  decide (10 * fld s (Reg.GFM_LIVE (2 * g)) F.GFM_LIVE_t_dead ≤ (s.gfm.stages[g]).deadMs)
def liveConfirmed (s : State) (g : Fin 2) : Bool :=
  decide (10 * fld s (Reg.GFM_LIVE (2 * g)) F.GFM_LIVE_t_live ≤ (s.gfm.stages[g]).liveMs)
def lineDead (s : State) (g : Fin 2) : Bool := (s.gfm.stages[g]).lineClass == 1
def lineLive (s : State) (g : Fin 2) : Bool := (s.gfm.stages[g]).lineClass == 2

/-- |v| ≤ w. -/
def inWin (v w : Rat) : Bool := decide (-w ≤ v ∧ v ≤ w)

/-- The LIVE-LIVE and the DEAD-LINE permission. -/
def permitLive (s : State) (g : Fin 2) : Bool :=
  let x := s.gfm.stages[g]
  lineLive s g && classOf s g x.vc x.fc == 2 && inWin (deltaOf x) (angWin s g) && inWin (x.fl - x.fc) (slipHz s g) &&
    inWin (x.vl - x.vc) (voltWin s g)
def permitDead (s : State) (g : Fin 2) : Bool :=
  deadConfirmed s g && decide ((s.gfm.stages[g]).vc < pu12 s (Reg.GFM_BS (2 * g)) F.GFM_BS_v_dead)

/-- Show the permission. -/
def showPermit (g : Fin 2) (s : State) : State :=
  setF s (Reg.GFM_STATE (2 * g)) F.GFM_STATE_permit (b2n (permitLive s g || permitDead s g))

/-- May a unit black-start? -/
def mayBlackStart (s : State) (g : Fin 2) : Bool := flg s (Reg.GFM_CFG (2 * g)) F.GFM_CFG_blackstart

/-! ### Slots and back-off (R240, R241) -/

/-- The first slot instant of the stage's position at or after an instant, in TAI ns. -/
def slotFrom (s : State) (g : Fin 2) (t : Nat) : Nat :=
  let cyc := groupSize s * slotNs s
  let b := t / cyc * cyc + fld s (Reg.GFM_CFG (2 * g)) F.GFM_CFG_position * slotNs s
  if t ≤ b then b else b + cyc

/-- TIME_NOW, rounded up to a whole ns. -/
def nowUp (s : State) : Nat := (s.tai.toNat + 3) / 4

/-- Attempts aborted since the start request. -/
def attemptOf (s : State) (g : Fin 2) : Nat := fld s (Reg.GFM_STATE (2 * g)) F.GFM_STATE_attempt

/-- Await an instant, shown in GFM_SLOT_s. -/
def awaitSlot (g : Fin 2) (t : Nat) (bo : Bool) (s : State) : State :=
  wr64 (setGfm g { s.gfm.stages[g] with slot := some (BitVec.ofNat 64 t, bo) } s) (Reg.GFM_SLOT (2 * g)) (BitVec.ofNat 64 t)

/-- R240, R241: compute the instant to act at: a slot from `t` on, or, in DROOP and after an abort, a delay drawn at random,
in whole milliseconds. -/
def chooseSlot (g : Fin 2) (t : Nat) (s : State) : State :=
  if timeMode s g = 2 ∨ (s.gfm.stages[g]).backoff then
    let r := takeFree s
    let delay := (Config.freeValue r.1).toNat % (groupSize s * (slotNs s / 1000000) * 2 ^ attemptOf s g + 1)
    logN 0x5004 (2 * g) (delay * 256 + attemptOf s g) (awaitSlot g (nowUp s + delay * 1000000) true r.2)
  else awaitSlot g (slotFrom s g t) false s

/-- Enter WAIT_SLOT. -/
def enterWaitSlot (g : Fin 2) (s : State) : State := chooseSlot g (nowUp s) (setGfmState g gWaitSlot s)

/-- Rows 6, 7 and 32: the awaited instant has come with the line DEAD. -/
def takeSlot (g : Fin 2) (t : BitVec 64) (s : State) : State :=
  let arg := t.extractLsb' 0 32
  let lost := fun (s : State) => chooseSlot g (max (nowUp s) t.toNat + 1) s
  if !contClosed s g then
    if permitDead s g then logEvent 0x5003 (2 * g) arg (setGfmState g gClosingDead s) else lost s
  else if vdcOk s g then
    logEvent 0x5003 (2 * g) arg (orderStage g .blackStart (setGfmState g gRamping s))
  else lost s

/-- Rows 4 and 5: the line is no longer DEAD in WAIT_SLOT. -/
def leaveSlot (g : Fin 2) (s : State) : State := setGfmState g (if contClosed s g then gJoin else gLineCheck) s

/-- Rows 4 to 7 and 32 in WAIT_SLOT. -/
def slotRows (g : Fin 2) (s : State) : State :=
  if gState s g ≠ gWaitSlot then s
  else if !lineDead s g then leaveSlot g s
  else match (s.gfm.stages[g]).slot with
  | none => s
  | some (t, _) => if t.toNat ≤ nowNat s then takeSlot g t s else s

/-- Local time passes to an instant of the counter, and on to the next sample instant of the stage. -/
def reachSample (st : Fin 4) (t : BitVec 64) (s : State) : State :=
  let p := stagePeriod s st
  reachNs s (BitVec.ofNat 64 ((t.toNat + p - 1) / p * p))

/-- The awaited instant of a kind is reached. -/
def slotReached (g : Fin 2) (bo : Bool) (s : State) : State :=
  match (s.gfm.stages[g]).slot with
  | none => s
  | some (t, b) => if b = bo ∧ gState s g = gWaitSlot ∧ !isStandby s then slotRows g (reachSample (gst g) t s) else s

/-- SLOT_INSTANT (R240) and BACKOFF_EXPIRY (R241). -/
def execSlotInstant (g : Fin 2) (s : State) : Out := .next (slotReached g false s)
def execBackoffExpiry (g : Fin 2) (s : State) : Out := .next (slotReached g true s)

/-! ### Start, stop and acknowledge (R236, R238) -/

/-- The first cause of R236 that refuses a start in STOPPED; 0 where none holds. -/
def startCause (s : State) (g : Fin 2) : Nat :=
  if !isRated s g then 1
  else if isBlocked s (gst g) ∨ !ready s then 2
  else if fld s (Reg.GFM_DROOP (2 * g)) F.GFM_DROOP_mp = 0 ∧ 1 < groupSize s then 3
  else if groupSize s ≤ fld s (Reg.GFM_CFG (2 * g)) F.GFM_CFG_position then 4
  else if !flg s (Reg.GFM_CONT (2 * g)) F.GFM_CONT_en then 5
  else if gState s g = gFailed ∨ (s.gfm.stages[g]).noOpen then 6
  else 0

/-- A start request: taken only in STOPPED (row 1), ignored in any other state and on a STANDBY. -/
def gfmStartRequest (g : Fin 2) (s : State) : State :=
  if gState s g ≠ gStopped ∨ stageKind s (gst g) ≠ kindGridForming ∨ isStandby s then s
  else
    let c := startCause s g
    if c ≠ 0 then logN 0x5002 (2 * g) c s
    else
      let s := setF s (Reg.GFM_STATE (2 * g)) F.GFM_STATE_attempt 0
      let x := s.gfm.stages[g]
      let s := setGfm g { x with deadMs := 0, liveMs := 0, notLiveMs := 0, backoff := false, cold := true } s
      setGfmState g gLineCheck s

/-- A stop request: taken in every state but STOPPED (row 28). -/
def gfmStopRequest (g : Fin 2) (s : State) : State :=
  if gState s g = gStopped ∨ stageKind s (gst g) ≠ kindGridForming ∨ isStandby s then s
  else setGfmState g gStopped (stopStage g s)

/-- Row 30: FAILED is acknowledged unless a no-open failure is outstanding. -/
def gfmAckRequest (g : Fin 2) (s : State) : State :=
  if gState s g = gFailed ∧ !(s.gfm.stages[g]).noOpen ∧ !isStandby s then setGfmState g gStopped s else s

/-- A write of GFM_CMD_s: the stop is taken before the start, and a start in the same write is then discarded (R239). A unit
that is not ACTIVE takes no start and no stop (R368). -/
def writeGfmCmd (g : Fin 2) (v : Word) (s : State) : State :=
  let ack := getF v F.GFM_CMD_ack = 1
  let stop := getF v F.GFM_CMD_stop = 1
  let start := getF v F.GFM_CMD_start = 1
  let s := if stop then gfmStopRequest g s else s
  let s := if ack then gfmAckRequest g s else s
  if start ∧ !stop then gfmStartRequest g s else s

/-! ### The contactor conversation (R234) -/

/-- t_close_max has passed since the last change of the command. -/
def contLate (s : State) (g : Fin 2) : Bool :=
  decide ((s.gfm.stages[g]).cmdAt + msFld s (Reg.GFM_CONT (2 * g)) F.GFM_CONT_t_close_max 1 ≤ localNs s)

/-- CONTACTOR_FAIL with a cause. -/
def contFail (g : Fin 2) (cause : Nat) (s : State) : State := logN 0x5009 (2 * g) cause s

/-- Command closed: rows 8, 9, 17 (feedback closed), 10 and 18 (no close), 19, 20 and 31 (opened unexpectedly). -/
def contWhileClosed (g : Fin 2) (prev fb : Bool) (s : State) : State :=
  let n := gState s g
  if fb then
    if n = gClosingDead then
      if !lineDead s g then setGfmState g gJoin s
      else if vdcOk s g then orderStage g .blackStart (setGfmState g gRamping s)
      else s
    else if n = gClosingLive then setGfmState g gRunning s
    else s
  else if n = gClosingDead ∨ n = gClosingLive then
    if contLate s g then failGfm g (contFail g 1 s) else s
  else if prev then
    let s := contFail g 3 s
    if n = gRunning ∧ lineLive s g then
      let e := eSource s g
      setGfmState g gSync (setGfm g { s.gfm.stages[g] with eTrack := e } s)
    else setContactor g false (setGfmState g gLineCheck (stopStage g s))
  else s

/-- Command open: row 29 (closed unexpectedly) and no open. -/
def contWhileOpen (g : Fin 2) (prev : Option Bool) (fb : Bool) (s : State) : State :=
  if !fb then
    if (s.gfm.stages[g]).noOpen then setGfm g { s.gfm.stages[g] with noOpen := false } s else s
  else if !contLate s g then s
  else if prev = some false then
    let s := contFail g 4 s
    if gState s g ≠ gFailed then failGfm g s else s
  else if !(s.gfm.stages[g]).noOpen then
    failGfm g (contFail g 2 (setGfm g { s.gfm.stages[g] with noOpen := true } s))
  else s

/-- R234: compare the command with the feedback. -/
def contactorRows (g : Fin 2) (s : State) : State :=
  let fb := contFb s g
  let s := setF s (Reg.GFM_STATE (2 * g)) F.GFM_STATE_cont_fb (b2n fb)
  if !flg s (Reg.GFM_CONT (2 * g)) F.GFM_CONT_en ∨ isStandby s then s
  else
    let prev := (s.gfm.stages[g]).fbPrev
    let s := setGfm g { s.gfm.stages[g] with fbPrev := some fb } s
    if contClosed s g then contWhileClosed g (prev.getD fb) fb s else contWhileOpen g prev fb s

/-- CONTACTOR_CHECK (R234): the next check, 1 ms after the last. -/
def execContactorCheck (g : Fin 2) (s : State) : Out :=
  if stageKind s (gst g) ≠ kindGridForming then .next s
  else
    let s := match (s.gfm.stages[g]).contAt with
      | none => s
      | some t => reachLocal (t + 1000000) s
    .next (contactorRows g (setGfm g { s.gfm.stages[g] with contAt := some (localNs s) } s))

/-! ### The evaluation of a millisecond (R239) -/

/-- What row 27 does to a grid-forming stage that is not STOPPED, FAILED or STANDBY. -/
def failRunning (g : Fin 2) (s : State) : State :=
  if gState s g ≠ gStopped ∧ gState s g ≠ gFailed ∧ !isStandby s then failGfm g s else s

/-- Row 27. -/
def blockedRow (g : Fin 2) (s : State) : State := if isBlocked s (gst g) then failRunning g s else s

/-- Row 24. -/
def rideExpire (g : Fin 2) (s : State) : State := logN 0x500E (2 * g) 0 (setGfmState g gStopped (stopStage g s))

/-- The window of RIDE. -/
def rideNs (s : State) (g : Fin 2) : Nat := msFld s (Reg.GFM_RT (2 * g)) F.GFM_RT_t_rt 10

/-- Rows 21 to 24. -/
def rideRows (g : Fin 2) (s : State) : State :=
  let x := s.gfm.stages[g]
  let stop := hiQ15 (rd s (Reg.GFM_RT (2 * g)))
  if gState s g = gRunning ∧ fld s (Reg.GFM_RT (2 * g)) F.GFM_RT_v_dc_stop ≠ 0 ∧ x.vdc < stop then
    logEvent 0x500D (2 * g) (satI32 x.vdc) (setGfmState g gRide (stopStage g s))
  else if gState s g = gRide then
    let s := setGfm g { x with rideOkMs := if vdcOk s g then x.rideOkMs + 1 else 0 } s
    let ok := 10 ≤ (s.gfm.stages[g]).rideOkMs
    if ok ∧ liveConfirmed s g then setGfmState g gJoin s
    else if ok ∧ deadConfirmed s g ∧ mayBlackStart s g then enterWaitSlot g s
    else if x.stateAt + rideNs s g ≤ localNs s then rideExpire g s
    else s
  else s

/-- Rows 2 to 5, 15, 25 and 26; rows 3 and 25 wait while V_dc is low. -/
def lineRows (g : Fin 2) (s : State) : State :=
  let n := gState s g
  if n = gLineCheck then
    if deadConfirmed s g ∧ mayBlackStart s g then enterWaitSlot g s
    else if liveConfirmed s g ∧ vdcOk s g then orderStage g .sync (setGfmState g gSync s)
    else s
  else if n = gWaitSlot ∧ !lineDead s g then leaveSlot g s
  else if n = gSync ∧ 20 ≤ (s.gfm.stages[g]).notLiveMs then setGfmState g gLineCheck (stopStage g s)
  else if n = gJoin then
    if liveConfirmed s g ∧ vdcOk s g then orderStage g .join (setGfmState g gRunning s)
    else if deadConfirmed s g ∧ mayBlackStart s g then enterWaitSlot g s
    else s
  else s

/-- An angle in 0.01°, signed. -/
def centiDeg (a : Rat) : Word := satI32 (quot (a * 100).num (a * 100).den)

/-- R244: the predicted angle at closing, and the milliseconds for which it, the slip and the voltage difference have stayed
within their windows. -/
def countWindow (g : Fin 2) (s : State) : State :=
  let x := s.gfm.stages[g]
  let nom : Rat := (fld s (Reg.GFM_CONT (2 * g)) F.GFM_CONT_t_close_nom : Rat) / 1000
  let p := deltaOf x + 360 * (x.fl - x.fc) * nom
  let ok := inWin p (angWin s g) && inWin (x.fl - x.fc) (slipHz s g) && inWin (x.vl - x.vc) (voltWin s g)
  setGfm g { x with predicted := p, winMs := if ok then x.winMs + 1 else 0 } s

/-- Row 14: the windows have held and LIVE-LIVE holds: the close is commanded, and the residual of E is blended (R244). -/
def windowRow (g : Fin 2) (s : State) : State :=
  if gState s g ≠ gSync ∨ stageMode s (gst g) ≠ modeVsm then s
  else
    let s := countWindow g s
    let x := s.gfm.stages[g]
    if fld s (Reg.GFM_SYNC (2 * g)) F.GFM_SYNC_t_sync_hold ≤ x.winMs ∧ permitLive s g then
      let s := setGfmState g gClosingLive s
      let s := startBlend (gst g) (blendTerm s (gst g) 0) (blendTerm s (gst g) 1) (x.eTrack - eDroop s g) s
      logEvent 0x5007 (2 * g) (centiDeg x.predicted) s
    else s

/-- The longest time in SYNC. -/
def syncNs (s : State) (g : Fin 2) : Nat := msFld s (Reg.GFM_SYNC_T (2 * g)) F.GFM_SYNC_T_t_sync_max 100

/-- Row 16. -/
def syncExpire (g : Fin 2) (s : State) : State :=
  let d := deltaOf s.gfm.stages[g]
  logEvent 0x5008 (2 * g) (centiDeg d) (failGfm g s)

/-- Row 16 in the evaluation. -/
def syncRow (g : Fin 2) (s : State) : State :=
  if gState s g = gSync ∧ (s.gfm.stages[g]).stateAt + syncNs s g ≤ localNs s then syncExpire g s else s

/-- R239: the triggers of one millisecond, in order; a STANDBY decides nothing. -/
def evaluateGfm (g : Fin 2) (s : State) : State :=
  let s := contactorRows g (blockedRow g s)
  if isStandby s then s else syncRow g (windowRow g (slotRows g (lineRows g (rideRows g s))))

/-- The evaluation of the next millisecond with its phasors. -/
def classify (g : Fin 2) (m : LineMeas) (s : State) : State :=
  if stageKind s (gst g) ≠ kindGridForming then s
  else
    let s := match (s.gfm.stages[g]).evalAt with
      | none => s
      | some t => reachLocal (t + 1000000) s
    let s := setGfm g { s.gfm.stages[g] with evalAt := some (localNs s) } s
    evaluateGfm g (showPermit g (countLine g (takeLine g m s)))

/-- LINE_CLASSIFY (R233). -/
def execLineClassify (g : Fin 2) (m : LineMeas) (s : State) : Out := .next (classify g m s)

/-- LINE_DEAD_CONFIRMED (R233): the millisecond that completes t_dead. -/
def execLineDeadConfirmed (g : Fin 2) (m : LineMeas) (s : State) : Out :=
  if 10 * fld s (Reg.GFM_LIVE (2 * g)) F.GFM_LIVE_t_dead ≤ (s.gfm.stages[g]).deadMs + 1 then .next (classify g m s)
  else .next s

/-- LINE_LIVE_CONFIRMED (R233): the millisecond that completes t_live. -/
def execLineLiveConfirmed (g : Fin 2) (m : LineMeas) (s : State) : Out :=
  if 10 * fld s (Reg.GFM_LIVE (2 * g)) F.GFM_LIVE_t_live ≤ (s.gfm.stages[g]).liveMs + 1 then .next (classify g m s)
  else .next s

/-- SYNC_CLOSE (R244): the millisecond that completes t_sync_hold. -/
def execSyncClose (g : Fin 2) (m : LineMeas) (s : State) : Out :=
  if gState s g = gSync ∧ fld s (Reg.GFM_SYNC (2 * g)) F.GFM_SYNC_t_sync_hold ≤ (s.gfm.stages[g]).winMs + 1 then
    .next (classify g m s)
  else .next s

/-- RIDE_RESUME (R238): the millisecond that completes 10 ms of restored V_dc. -/
def execRideResume (g : Fin 2) (m : LineMeas) (s : State) : Out :=
  if gState s g = gRide ∧ 10 ≤ (s.gfm.stages[g]).rideOkMs + 1 then .next (classify g m s) else .next s

/-- RIDE_EXPIRED (R238 row 24). -/
def execRideExpired (g : Fin 2) (s : State) : Out :=
  if gState s g ≠ gRide ∨ isStandby s then .next s
  else .next (rideExpire g (reachLocal ((s.gfm.stages[g]).stateAt + rideNs s g) s))

/-- SYNC_TIMEOUT (R238 row 16). -/
def execSyncTimeout (g : Fin 2) (s : State) : Out :=
  if gState s g ≠ gSync ∨ isStandby s then .next s
  else .next (syncExpire g (reachLocal ((s.gfm.stages[g]).stateAt + syncNs s g) s))

/-- BLACKSTART_ABORT (R243, rows 12 and 13). -/
def execBlackstartAbort (g : Fin 2) (s : State) : Out :=
  let x := s.gfm.stages[g]
  if gState s g ≠ gRamping ∨ stageMode s (gst g) ≠ modeRamp ∨ x.limRun = 0 ∨ isStandby s then .next s
  else
    let s := reachLocal (x.limFirstAt + msFld s (Reg.GFM_LIMIT_T (2 * g)) F.GFM_LIMIT_T_t_hold 1) s
    let a := attemptOf s g
    if a < 3 then
      let s := setF s (Reg.GFM_STATE (2 * g)) F.GFM_STATE_attempt (a + 1)
      let s := setGfm g { s.gfm.stages[g] with backoff := true } s
      .next (logN 0x5005 (2 * g) (a + 1) (setGfmState g gLineCheck (stopStage g s)))
    else .next (logN 0x5006 (2 * g) 0 (logN 0x5005 (2 * g) a (failGfm g s)))

/-! ### Writes (R220, R222) -/

/-- A write ignored under chapter 08. -/
def gfmErr (s : State) : State := setF s Reg.GFM_STATUS F.GFM_STATUS_cfg_err 1

/-- A write judged whole. -/
def gfmWrite (a : Nat) (v mask : Word) (ok : Bool) (s : State) : State :=
  if ok then wr s a ((rd s a &&& ~~~mask) ||| (v &&& mask)) else gfmErr s

/-- A field of a written word lies in a range. -/
def fieldIn (v : Word) (f : Fld) (lo hi : Nat) : Bool := lo ≤ getF v f && getF v f ≤ hi

/-- A signed half of a written word lies in a range. -/
def signedIn (x lo hi : Int) : Bool := lo ≤ x && x ≤ hi

/-- GFM_CFG_s: f_r changes only in STOPPED. -/
def writeGfmCfg (g : Fin 2) (v : Word) (s : State) : State :=
  let same := getF v F.GFM_CFG_f60 = fld s (Reg.GFM_CFG (2 * g)) F.GFM_CFG_f60
  gfmWrite (Reg.GFM_CFG (2 * g)) v 0xF1C0FFFF
    (fieldIn v F.GFM_CFG_tau_pq 1 100 && fieldIn v F.GFM_CFG_vi_fc 5 50 && (same || gState s g == gStopped)) s

/-- GFM_DROOP_s: m_p = 0 is refused while the stage runs among peers (R222). -/
def writeGfmDroop (g : Fin 2) (v : Word) (s : State) : State :=
  let iso := getF v F.GFM_DROOP_mp == 0 && gState s g != gStopped && decide (1 < groupSize s)
  gfmWrite (Reg.GFM_DROOP (2 * g)) v 0x3FFFFFFF
    (fieldIn v F.GFM_DROOP_h 10 1000 && fieldIn v F.GFM_DROOP_mq 0 1000 && fieldIn v F.GFM_DROOP_mp 0 1000 && !iso) s

/-- GFM_CONT_s: en, di and do stay once the pin map is locked (R57, R64). -/
def writeGfmCont (g : Fin 2) (v : Word) (s : State) : State :=
  let mask : Word := if lockedAt s (Reg.GFM_CONT (2 * g)) then 0xFFFF0000 else 0xFFFF8F0F
  refreshDo (gfmWrite (Reg.GFM_CONT (2 * g)) v mask (fieldIn v F.GFM_CONT_t_close_max 10 255) s)

/-- The other settings of Table 8.1, by the word's offset in the stage's block. -/
def writeGfmSetting (g : Fin 2) (off : Nat) (v : Word) (s : State) : State :=
  let a := Reg.GFM_CFG (2 * g) + off
  match off with
  | 0x04 | 0x08 => wr s a v
  | 0x10 => gfmWrite a v 0xFFFFFFFF (signedIn (loQ15 v) (-6144) 6144 && signedIn (hiQ15 v) (-6144) 6144) s
  | 0x14 => gfmWrite a v 0xFFFF (fieldIn v F.GFM_VSET_v_ref 3277 4710) s
  | 0x18 | 0x1C | 0x20 => gfmWrite a v 0xFFFFFFFF (fieldIn v F.GFM_VIRT_x 0 5000 && fieldIn v F.GFM_VIRT_r 0 5000) s
  | 0x24 => gfmWrite a v 0x03FF03FF (fieldIn v F.GFM_LIMIT_ilim 100 300 && fieldIn v F.GFM_LIMIT_i_cont 100 150 &&
      getF v F.GFM_LIMIT_i_cont ≤ getF v F.GFM_LIMIT_ilim) s
  | 0x28 => gfmWrite a v 0x00FF0FFF (fieldIn v F.GFM_LIMIT_T_t_rel 1 100 && fieldIn v F.GFM_LIMIT_T_t_hold 10 2000) s
  | 0x2C => gfmWrite a v 0xFFFFFFFF (fieldIn v F.GFM_RECOV_t_recov 20 5000) s
  | 0x30 => gfmWrite a v 0xFFFFFFFF (fieldIn v F.GFM_BS_t_ramp 50 5000 && fieldIn v F.GFM_BS_v_dead 205 1229) s
  | 0x34 => gfmWrite a v 0xFFFFFFFF (fieldIn v F.GFM_LIVE_v_live 2867 3891 && fieldIn v F.GFM_LIVE_t_live 1 100 &&
      fieldIn v F.GFM_LIVE_t_dead 1 100) s
  | 0x38 => gfmWrite a v 0xFFFFFFFF (fieldIn v F.GFM_SYNC_ang 10 50 && fieldIn v F.GFM_SYNC_slip 1 10 &&
      fieldIn v F.GFM_SYNC_volt 10 50 && fieldIn v F.GFM_SYNC_t_sync_hold 10 200) s
  | 0x3C => gfmWrite a v 0xFFFF (fieldIn v F.GFM_SYNC_T_t_sync_max 1 6000) s
  | 0x44 => gfmWrite a v 0xFFFF0FFF (fieldIn v F.GFM_RT_t_rt 0 3000) s
  | 0x48 => gfmWrite a v 0xFFFFFF00 (fieldIn v F.GFM_REST_t_r 200 5000 && fieldIn v F.GFM_REST_t_hold_rest 0 60) s
  | _ => s

/-- GFM_GROUP and GFM_VF_CFG. -/
def writeGfmGroup (v : Word) (s : State) : State :=
  gfmWrite Reg.GFM_GROUP v 0x001F0FFF (fieldIn v F.GFM_GROUP_size 1 16 && fieldIn v F.GFM_GROUP_t_slot 50 1000) s
def writeVfCfg (v : Word) (s : State) : State :=
  gfmWrite Reg.GFM_VF_CFG v 0xFFFFFFFF (fieldIn v F.GFM_VF_CFG_f_target 1000 12000 && fieldIn v F.GFM_VF_CFG_rate 1 1000) s

/-! ### A variable-frequency stage 3 (R249) -/

/-- The output frequency in Hz: generator 15 with full scale at 128 Hz. -/
def vfHz (s : State) : Rat := 128 * (s.loop.prof[(15 : Fin 16)]).x

/-- V = v_boost + (1 − v_boost) · f / f_base, at most 1.0 pu. -/
def vfVolts (s : State) : Rat :=
  let b := pu12 s Reg.GFM_VF_VHZ F.GFM_VF_VHZ_v_boost
  let fb : Rat := (fld s Reg.GFM_VF_VHZ F.GFM_VF_VHZ_f_base : Rat) / 100
  min 1 (b + (1 - b) * rdiv (vfHz s) fb)

/-- The angle of a sample and the voltage reference. -/
def vfLaw (s : State) : State :=
  let ts : Rat := (stagePeriod s 3 : Rat) / 1000000000
  let s := { s with gfm := { s.gfm with vfTheta := wrapDeg (s.gfm.vfTheta + 360 * vfHz s * ts) } }
  let s := setF s Reg.GFM_VF_STATE F.GFM_VF_STATE_f_now (toCount (100 * vfHz s))
  setF s Reg.GFM_VF_STATE F.GFM_VF_STATE_v_now (toPu12 (vfVolts s))

/-- References, angle and angular rate of a variable-frequency sample. -/
def vfCtx (s : State) : SampleCtx :=
  { ref0 := ratQ15 (vfVolts s * Config.vfScale), ref1 := 0, theta := s.gfm.vfTheta, omega := 360 * vfHz s }

/-- A step of generator 15: its output goes to f_target on the shortest way with a rate of change within GFM_VF_CFG.rate, which
itself changes by at most 10 times that rate per second (R249, log entry 19). -/
def vfProfStep (s : State) : State :=
  let p := s.loop.prof[(15 : Fin 16)]
  let tgt : Rat := (fld s Reg.GFM_VF_CFG F.GFM_VF_CFG_f_target : Rat) / 12800
  let r : Rat := (fld s Reg.GFM_VF_CFG F.GFM_VF_CFG_rate : Rat) / 1280
  let m : Motion := ⟨0, p.x, p.v⟩
  let n := (alongPhases m (velTo ⟨1, r, 10 * r⟩ p.x p.v tgt) (profPeriod s 15 / 1000000000)).getD ⟨0, tgt, 0⟩
  moveProf 15 ⟨n.v, n.a, 0⟩ s

end Sys2Proof.Machine
end

