-- ==== Sys2Proof/Machine/Guyline.lean ====
section
/-! DEFINITION. What the duplex gives the other blocks (chapter 13): state, role and epoch, and a message sent on both
paths. -/

namespace Sys2Proof.Machine

open Sys2Proof

/-! ### State and role (Table 13.3) -/

def dpxOff : Nat := 0
def dpxListen : Nat := 1
def dpxActive : Nat := 2
def dpxAlone : Nat := 3
def dpxSyncing : Nat := 4
def dpxSynced : Nat := 5
def dpxDegraded : Nat := 6
def dpxTaking : Nat := 7
def dpxSwitching : Nat := 8
def dpxReleased : Nat := 9

/-- The state of Table 13.3, and whether the module runs in a duplex. -/
def dpxState (s : State) : Nat := fld s Reg.DPX_STATUS F.DPX_STATUS_state
def dpxOn (s : State) : Bool := flg s Reg.DPX_CFG F.DPX_CFG_en

/-- The role of a state: 0 none, 1 ACTIVE, 2 STANDBY; a module with en 0 holds the ACTIVE role (R368). -/
def roleOf (en : Bool) (n : Nat) : Nat :=
  match n with
  | 0 => if en then 0 else 1
  | 2 => 1
  | 3 => 1
  | 8 => 1
  | 4 => 2
  | 5 => 2
  | 6 => 2
  | 7 => 2
  | _ => 0

/-- Does the unit hold the ACTIVE role (R366, R368)? -/
def holdsActive (s : State) : Bool := roleOf (dpxOn s) (dpxState s) == 1

/-- The role epoch. -/
def ownEpoch (s : State) : Word := rd s Reg.DPX_EPOCH

/-- Must the stages be OFF in this state (Table 13.3)? -/
def stagesHeldOff (s : State) : Bool :=
  dpxOn s && (match dpxState s with
    | 0 => true
    | 1 => true
    | 4 => fld s Reg.TIME_STATE F.TIME_STATE_state != 3
    | 6 => true
    | 7 => !s.dpx.fromSynced
    | 9 => true
    | _ => false)

/-- Does a stage track the partner (R372): SYNCING with time LOCKED, or SYNCED? -/
def tracks (s : State) : Bool := dpxOn s && ((dpxState s == 4 && !stagesHeldOff s) || dpxState s == 5)

/-- Change the duplex state beyond its registers. -/
def setDpxRec (x : DpxState) (s : State) : State := { s with dpx := x }

/-- R361, R363: send a message of a type on both paths, with the next sequence number of its type. -/
def sendGuy (ty : Fin 16) (p : GuyPayload) (s : State) : State :=
  if !dpxOn s then s
  else
    let q := s.dpx.seqOut[ty] + 1
    let m : GuyMessage := ⟨roleOf true (dpxState s), ownEpoch s, q, p⟩
    { s with dpx := { s.dpx with seqOut := s.dpx.seqOut.set ty q, sent := s.dpx.sent.set ty (some m) } }

end Sys2Proof.Machine
end

