-- ==== Sys2Proof/Machine/Sample.lean ====
section
/-! DEFINITION. One sample of a stage, in the order of R181 and R206: inputs, blocks, region, stop, REPLAY, starts and changes
of mode, inner change, the law, the controllers, the limit and the plausibility checks; requests to a stage; generator
steps. -/

namespace Sys2Proof.Machine

open Sys2Proof

/-- The grid-forming index of a stage number. -/
def gidx (st : Fin 4) : Fin 2 := if st.val < 2 then 0 else 1

/-- Is a stage grid-forming? -/
def isGfm (s : State) (st : Fin 4) : Bool := stageKind s st == kindGridForming && (st == 0 || st == 2)

/-- The next sample instant of a stage's grid, after its last (R181, R34); the output instant written comes into force with it
(R202). -/
def reachGrid (st : Fin 4) (s : State) : State :=
  let s := advanceTo s (gridNext s 0 (4 * stagePeriod s st) (s.loop.stages[st]).sampleTick)
  setStage st { s.loop.stages[st] with
    sampleTick := some s.ticks, outPhase := fld s (Reg.CTRL_STAGE_PHASE st) F.CTRL_STAGE_PHASE_out_phase } s

/-- What grid forming does in every sample, whatever the mode: V_dc, V_ref' and tracked E, time mode, ω_res and the limit word
(R226, R228, R246). -/
def noteGfm (st : Fin 4) (s : State) : State :=
  if !isGfm s st then s
  else
    let g := gidx st
    let ts : Rat := (stagePeriod s st : Rat) / 1000000000
    let s := setGfm g { s.gfm.stages[g] with vdc := input s st 6, sampleAt := localNs s } s
    writeIlim g (moveRefs g ts (restoration g ts (timeModeStep g s)))

/-- A stage that stops or blocks leaves LIMIT and its ramp. -/
def quitGfm (st : Fin 4) (s : State) : State :=
  if !isGfm s st then s
  else
    let g := gidx st
    let was := flg s (Reg.GFM_STATE (2 * g)) F.GFM_STATE_limit
    let s := endRamp g (setGfm g { s.gfm.stages[g] with
      order := none, heldAt := none, belowFrom := none, limRun := 0, clearFrom := none } s)
    if was then lmdRelease (setF s (Reg.GFM_STATE (2 * g)) F.GFM_STATE_limit 0) else s

/-- The stage goes OFF at this sample. -/
def stageOff (st : Fin 4) (s : State) : State :=
  let s := { s with dpx := { s.dpx with fresh := s.dpx.fresh.set st false } }
  setMode st modeOff (quitGfm st (clearRequests st s))

/-- A start is refused with its cause (R206, Table 7.10). -/
def refuseStart (st : Fin 4) (cause : Nat) (s : State) : State :=
  logN 0x4003 st cause (setF s Reg.CTRL_STATUS F.CTRL_STATUS_start_refused 1)

/-- A start that waits is refused at the sample that finds the stage blocked or the part not ready (R206). -/
def refuseWaiting (st : Fin 4) (cause : Nat) (s : State) : State :=
  if (s.loop.stages[st]).startReq then refuseStart st cause s else s

/-- R206 step 1: a latched block takes the stage to BLOCKED; row 27 of Table 8.4. -/
def sampleBlocked (st : Fin 4) (s : State) : State :=
  let s := refuseWaiting st 1 s
  let s := setMode st modeBlocked (quitGfm st (clearRequests st s))
  if isGfm s st then blockedRow (gidx st) s else s

/-- R212: a stage whose block was released since its last sample moves to OFF; grid forming that was running has failed, as
at a block (row 27). -/
def sampleFreed (st : Fin 4) (s : State) : State :=
  let s := setStage st { s.loop.stages[st] with freed := false } s
  if stageMode s st = modeOff then s
  else
    let s := setMode st modeOff (quitGfm st s)
    if isGfm s st then failRunning (gidx st) s else s

/-! ### Requests (R206, R236) -/

/-- A start request to a stage, by register, trigger or image: refused at once where R206 says so. -/
def requestStart (st : Fin 4) (s : State) : State :=
  if isGfm s st then gfmStartRequest (gidx st) s
  else
    let c := if isBlocked s st then 1 else if !ready s then 2 else if stageKind s st = 0 then 3 else 0
    if c ≠ 0 then refuseStart st c s
    else
      let s := setF s (Reg.CTRL_STAGE_CMD st) F.CTRL_STAGE_CMD_start 1
      setStage st { s.loop.stages[st] with startReq := true } s

/-- A stop request to a stage. -/
def requestStop (st : Fin 4) (s : State) : State :=
  if isGfm s st then gfmStopRequest (gidx st) s
  else if stageKind s st = 0 then s
  else
    let s := setF s (Reg.CTRL_STAGE_CMD st) F.CTRL_STAGE_CMD_stop 1
    setStage st { s.loop.stages[st] with stopReq := true } s

/-- A write of CTRL_STAGE_CMD_s: a start with a stop leaves the stage OFF (R206). -/
def writeStageCmd (st : Fin 4) (v : Word) (s : State) : State :=
  let n := getF v F.CTRL_STAGE_CMD_inner
  let a := Reg.CTRL_STAGE_CMD st
  let s := if n = fld s a F.CTRL_STAGE_CMD_inner then s
    else setStage st { s.loop.stages[st] with innerReq := some n } (setF s a F.CTRL_STAGE_CMD_inner n)
  let stop := getF v F.CTRL_STAGE_CMD_stop = 1
  let s := if stop then requestStop st s else s
  if getF v F.CTRL_STAGE_CMD_start = 1 ∧ !stop then requestStart st s else s

/-! ### Changes of mode (Table 7.5, Table 8.6) -/

/-- How the controllers take the state of the sample over. -/
inductive Handover where
  /-- Nothing changes. -/
  | keep
  /-- A start from OFF: the start values of the coefficient set (R203). -/
  | start
  /-- The output of the last sample, replayed (REPLAY to another mode). -/
  | replayed
  /-- From RAMP or LIMIT: the output, as limited, for the internal magnitude `e` that the outgoing mode holds (Table 7.5). -/
  | limited (e : Rat)
  deriving DecidableEq, Repr

/-- The stage starts from OFF in a mode: notches set to their inputs, a waiting inner change applied (R187, R207). -/
def startMode (st : Fin 4) (n : Nat) (s : State) : State :=
  let x := s.loop.stages[st]
  let s := setStage st { x with
    notch := x.notch.map (fun y => { y with fresh := true }), innerNext := x.innerReq, innerReq := none,
    out := Vector.replicate 4 0, awaiting := none } s
  setMode st n (applyInner st s)

/-- Forget what the limit of a stage counted before it starts. -/
def freshLimit (g : Fin 2) (x : GfmStage) (s : State) : State :=
  setGfm g { x with limRun := 0, heldAt := none, belowFrom := none, clearFrom := none, order := none } s

/-- An order of grid forming at the sample (R238, R242, R244, R245, R232); answers what the controllers do, and whether θ and
Δω start afresh. -/
def takeOrder (st : Fin 4) (s : State) : Handover × Bool × State :=
  let g := gidx st
  let x := s.gfm.stages[g]
  let md := stageMode s st
  let dwl := x.fl / ratedHz s g - 1
  let s0 := setGfm g { x with order := none } s
  match x.order with
  | none => (.keep, false, s)
  | some .blackStart =>
    if md ≠ modeOff ∨ !ready s then (.keep, false, s0)
    else
      let th := if timeMode s g = 2 then 0 else thetaTai s g
      let s := startMode st modeRamp (freshLimit g
        { x with dw := 0, theta := th, wRes := if x.cold then 0 else x.wRes } s)
      (.start, true, startRamp g .blackStart 0 x.vref s)
  | some .sync =>
    if md ≠ modeOff ∨ !ready s then (.keep, false, s0)
    else
      let s := startMode st modeRamp (freshLimit g { x with dw := dwl, dwEntry := dwl, theta := wrapDeg (thetaLine s g) } s)
      (.start, true, startRamp g .sync 0 x.vl s)
  | some .join =>
    if md ≠ modeOff ∨ !ready s then (.keep, false, s0)
    else
      let s := startMode st modeVsm (freshLimit g { x with dw := dwl, theta := wrapDeg (thetaLine s g) } s)
      (.start, true, startBlend st 0 0 (x.vl - eDroop s g) s)
  | some .vsm =>
    if md = modeRamp then
      let e := rampE s g
      let s := setMode st modeVsm (endRamp g (setGfm g { x with order := none, limRun := 0 } s))
      if gState s g = gSync then (.limited e, false, setGfm g { s.gfm.stages[g] with eTrack := e } s)
      else (.limited e, false, startBlend st (blendTerm s st 0) (blendTerm s st 1) (e - eDroop s g) s)
    else if md = modeLimit then (.limited (eSource s g), false, setMode st modeVsm s0)
    else (.keep, false, s0)
  | some .recovery =>
    if md ≠ modeLimit then (.keep, false, s0)
    else
      let e := eSource s g
      let s := setMode st modeRamp s0
      (.limited e, false, startRamp g .recovery x.vc (eDroop s g) s)

/-- A start request of a stage of another kind. -/
def takeStart7 (st : Fin 4) (s : State) : Handover × Bool × State :=
  if (s.loop.stages[st]).startReq ∧ stageMode s st = modeOff ∧ ready s then
    (.start, true, startMode st modeReg (clearRequests st s))
  else (.keep, false, clearRequests st (if ready s then s else refuseWaiting st 2 s))

/-! ### Tracking and REPLAY (R370, R372) -/

/-- Load what a MIRROR carries into a stage. -/
def loadMirror (st : Fin 4) (m : MirrorMsg) (s : State) : State :=
  let x := s.loop.stages[st]
  let s := forEach (List.finRange 4) (fun (c : Fin 4) s => setInteg st c m.integ[c] s) s
  let s := setStage st { x with
    notch := m.notch, blend := m.blend, residual := m.residual, out := m.out, mods := m.mods } s
  let s := setF s (Reg.CTRL_STAGE_STATE st) F.CTRL_STAGE_STATE_region m.region
  let s := match m.blend with
    | none => setF s (Reg.CTRL_STAGE_STATE st) F.CTRL_STAGE_STATE_blending 0
    | some g => showProf g (setProf g m.prof (setF s (Reg.CTRL_STAGE_STATE st) F.CTRL_STAGE_STATE_blending 1))
  let s := if isGfm s st then
      let g := gidx st
      setGfm g { s.gfm.stages[g] with
        theta := m.phasor.theta, dw := m.phasor.omega / (360 * ratedHz s g) - 1 } s
    else if st = 3 then { s with gfm := { s.gfm with vfTheta := m.phasor.theta } }
    else s
  setMode st m.mode s

/-- Load the last published output of the ACTIVE into the PWM shadow registers or the BAND tile. -/
def loadPublished (st : Fin 4) (m : MirrorMsg) (s : State) : State :=
  let s := setStage st { s.loop.stages[st] with out := m.out, mods := m.mods, published := m.phasor, awaiting := none } s
  forEach (pairsOf s st) (fun p s =>
    setPair p { s.loop.pairs[p] with shadow := some (compareOf
      (((s.loop.stages[st]).mods.toList[phaseIndex s p]?).getD 0) (pairCmax s p)) } s) s

/-- Is a mode energised? -/
def modeRuns (n : Nat) : Bool := n != modeOff && n != modeBlocked

/-- Enter REPLAY, or stay in it. -/
def enterReplay (st : Fin 4) (m : MirrorMsg) (s : State) : State :=
  let s := if stageMode s st = modeReplay then s else loadPublished st m s
  setMode st modeReplay { s with dpx := { s.dpx with
    gapRun := s.dpx.gapRun.set st (s.dpx.gapRun[st] + 1), mirrorFrom := none } }

/-- MIRROR_GAP, logged when REPLAY ends (Table 13.7). -/
def endGap (st : Fin 4) (s : State) : State :=
  let n := s.dpx.gapRun[st]
  if n = 0 then s else logN 0xA010 st n { s with dpx := { s.dpx with gapRun := s.dpx.gapRun.set st 0 } }

/-- R372: a tracking stage loads the MIRROR of the ACTIVE's previous sample, or replays for want of one. -/
def trackStage (st : Fin 4) (s : State) : State :=
  match s.dpx.mirrors[st] with
  | none => { s with dpx := { s.dpx with mirrorFrom := none } }
  | some m =>
    if s.dpx.mirrorNew[st] then
      let s := { s with dpx := { s.dpx with
        mirrorNew := s.dpx.mirrorNew.set st false, mirrorFrom := some (s.dpx.mirrorFrom.getD (localNs s)) } }
      let s := endGap st s
      if modeRuns m.mode then loadMirror st m s else stageOff st s
    else if modeRuns m.mode then enterReplay st m s
    else s

/-- The microseconds of the held-output gap, from the last valid HEARTBEAT to this sample's fresh output (DPX_LAST). -/
def noteGap (st : Fin 4) (s : State) : State :=
  match s.dpx.freshFrom with
  | none => s
  | some _ =>
    let out := localNs s + fld s (Reg.CTRL_STAGE_PHASE st) F.CTRL_STAGE_PHASE_out_phase * 5 / 2
    let us := (out - (s.dpx.hbAt.getD 0)) / 1000
    setF { s with dpx := { s.dpx with freshFrom := none } } Reg.DPX_LAST F.DPX_LAST_gap_us (min 65535 us)

/-- Table 7.5: a stage of the new ACTIVE leaves REPLAY for the mode that the last MIRROR carried; one that tracked until the
takeover takes the output it would replay. -/
def leaveReplay (st : Fin 4) (s : State) : Handover × Bool × State :=
  let n := match s.dpx.mirrors[st] with
    | none => if isGfm s st then modeVsm else modeReg
    | some m => m.mode
  let s := match s.dpx.mirrors[st] with
    | some m => if stageMode s st = modeReplay then s else loadPublished st m s
    | none => s
  let s := { s with dpx := { s.dpx with fresh := s.dpx.fresh.set st false } }
  (.replayed, false, noteGap st (setMode st n (endGap st s)))

/-- R206 steps 3 to 6: stop, REPLAY, changes of mode and starts. -/
def modeTriggers (st : Fin 4) (s : State) : Handover × Bool × State :=
  if stagesHeldOff s then (.keep, false, stageOff st s)
  else if tracks s then (.keep, false, trackStage st (clearRequests st s))
  else if dpxState s = dpxTaking then
    (.keep, false, match s.dpx.mirrors[st] with
      | some m => if modeRuns m.mode then enterReplay st m s else s
      | none => s)
  else if (s.loop.stages[st]).stopReq then (.keep, false, stageOff st s)
  else if stageMode s st = modeReplay || s.dpx.fresh[st] then leaveReplay st s
  else if isGfm s st then takeOrder st s
  else takeStart7 st s

/-! ### Inner change (R207) -/

/-- The inner control that this sample computes for: 1 HYST, 0 CARRIER. -/
def innerFor (s : State) (st : Fin 4) : Nat :=
  ((s.loop.stages[st]).innerNext).getD (fld s (Reg.CTRL_STAGE_STATE st) F.CTRL_STAGE_STATE_inner_act)

/-- An inner change is taken at the sample; answers whether C2 and C3 are preloaded to the duty. -/
def takeInner (st : Fin 4) (s : State) : Bool × State :=
  let x := s.loop.stages[st]
  match x.innerReq with
  | none => (false, s)
  | some n =>
    if !modeRuns (stageMode s st) then (false, s)
    else
      let act := fld s (Reg.CTRL_STAGE_STATE st) F.CTRL_STAGE_STATE_inner_act
      let s := setStage st { x with innerReq := none, innerNext := if n = act then none else some n } s
      (n != act && n == 0, s)

/-! ### The computation -/

/-- The references, angle and angular rate of the sample (R184, R221, R249). -/
def sampleCtx (st : Fin 4) (first : Bool) (s : State) : SampleCtx × State :=
  if isGfm s st then
    let g := gidx st
    let ts : Rat := (stagePeriod s st : Rat) / 1000000000
    let s := gfmLaw g first s
    (gfmCtx s g ts, keepFiltered g s)
  else if stageKind s st = kindVarFreq then
    let s := vfLaw s
    (vfCtx s, s)
  else (⟨input s st 11, input s st 12, 0, 0⟩, s)

/-- The error of an outer controller in this sample, with its notch. -/
def outerError (st : Fin 4) (c : Fin 4) (x : SampleCtx) (s : State) : Int :=
  let m := outerMeas s st x
  if c = 0 then x.ref0 - (feedback st 0 m.1 s).1 else x.ref1 - (feedback st 1 m.2 s).1

/-- Preload the outer controllers to outputs, and answer the residuals (R203). -/
def preloadOuter (st : Fin 4) (x : SampleCtx) (w : Fin 4 → Int) (s : State) : Int × Int × State :=
  let r0 := preload st 0 (w 0) (outerError st 0 x s) (input s st 7) s
  if stageKind s st = kindDcDc then (r0.1, 0, r0.2)
  else
    let r1 := preload st 1 (w 1) (outerError st 1 x r0.2) (input s st 8) r0.2
    (r0.1, r1.1, r1.2)

/-- Preload the inner controllers to outputs (R203, R207). -/
def preloadInner (st : Fin 4) (x : SampleCtx) (w2 w3 : Int) (s : State) : State :=
  let o := (s.loop.stages[st]).out
  let m := innerMeas s st x
  let s := (preload st 2 w2 (o[0] - (feedback st 2 m.1 s).1) (input s st 9) s).2
  if isDq s st then (preload st 3 w3 (o[1] - (feedback st 3 m.2 s).1) (input s st 10) s).2 else s

/-- The start value of a controller (Table 7.3, j = 6). -/
def startValue (s : State) (st : Fin 4) (c : Fin 4) : Int := loQ15 (coef (s.loop.stages[st]).coef c 6)

/-- The outputs of the outer controllers for other references, after their limits and the current limiter. -/
def limitedOutput (st : Fin 4) (x : SampleCtx) (s : State) : Int × Int :=
  let m := outerMeas s st x
  let k := (s.loop.stages[st]).coef
  let u0 := controller k 0 x.ref0 (feedback st 0 m.1 s).1 (input s st 7) (integ s st 0)
  let u1 := controller k 1 x.ref1 (feedback st 1 m.2 s).1 (input s st 8) (integ s st 1)
  let l := limitDq u0.w u1.w (ilimOf s st)
  (l.1, l.2.1)

/-- The residual of E still being added (R204). -/
def eLeft (s : State) (st : Fin 4) : Rat :=
  if isGfm s st then (s.gfm.stages[gidx st]).eResid * blendFactor s st else 0

/-- The preload of a hand-over on the outer controllers; residuals are blended (R203, R204, Table 7.5). -/
def handOuter (st : Fin 4) (h : Handover) (x : SampleCtx) (s : State) : State :=
  match h with
  | .keep => s
  | .start => (preloadOuter st x (startValue s st) s).2.2
  | .replayed =>
    let o := (s.loop.stages[st]).out
    let r := preloadOuter st x (fun c => o[c]) s
    startBlend st r.1 r.2.1 (eLeft s st) r.2.2
  | .limited e =>
    let g := gidx st
    let ts : Rat := (stagePeriod s st : Rat) / 1000000000
    let v := voltageRefs s g ts e
    let w := limitedOutput st { x with ref0 := v.1, ref1 := v.2 } s
    let o := fun (c : Fin 4) => if c = 0 then addTerm w.1 (blendTerm s st 0) else addTerm w.2 (blendTerm s st 1)
    let r := preloadOuter st x o s
    startBlend st r.1 r.2.1 (eLeft s st) r.2.2

/-- The preload of a hand-over on the inner controllers. -/
def handInner (st : Fin 4) (h : Handover) (duty : Bool) (inp : LoopInputs) (x : SampleCtx) (s : State) : State :=
  if duty then
    let p := if isDq s st then park (q15 inp.duty[0]) (q15 inp.duty[1]) (q15 inp.duty[2]) x.theta else (q15 inp.duty[0], 0)
    preloadInner st x p.1 p.2 s
  else match h with
  | .start => preloadInner st x (startValue s st 2) (startValue s st 3) s
  | .replayed =>
    let o := (s.loop.stages[st]).out
    preloadInner st x o[2] o[3] s
  | _ => s

/-- The computation of a running stage (R181). -/
def compute (st : Fin 4) (inp : LoopInputs) (h : Handover) (first duty : Bool) (s : State) : State :=
  let r := sampleCtx st first s
  let x := r.1
  let s := outerStep st x (handOuter st h x r.2)
  let s := if innerFor s st = 0 then innerStep st x (handInner st h duty inp x s) else s
  publish st x s

/-- After the computation of a grid-forming stage: the limit (R229 to R243). -/
def afterGfm (st : Fin 4) (s : State) : State :=
  if !isGfm s st ∨ isStandby s then s else limitStep (gidx st) s

/-- The MIRROR of the sample (R372). -/
def mirrorOf (s : State) (st : Fin 4) : MirrorMsg :=
  let x := s.loop.stages[st]
  { stage := st, at' := now s, mode := Fin.ofNat 7 (stageMode s st), region := Fin.ofNat 16 (regionOf s st)
    integ := Vector.ofFn (fun (c : Fin 4) => integ s st c), notch := x.notch, blend := x.blend
    prof := match x.blend with | none => {} | some g => s.loop.prof[g]
    residual := x.residual, out := x.out, phasor := x.awaiting.getD x.published, mods := x.mods }

/-- The ACTIVE sends a MIRROR once per sample of each stage. -/
def sendMirror (st : Fin 4) (s : State) : State :=
  if dpxOn s ∧ holdsActive s then sendGuy 2 (.mirror (mirrorOf s st)) s else s

/-- One sample (R181, R206). -/
def loopSample (st : Fin 4) (inp : LoopInputs) (s : State) : State :=
  let s := noteGfm st (takeWords st inp s)
  if latchedBlocked s st then sendMirror st (plausChecks st inp (sampleBlocked st s))
  else
    let s := if (s.loop.stages[st]).freed then sampleFreed st s
      else if stageMode s st = modeBlocked then setMode st modeOff s else s
    let t := modeTriggers st (applyRegion st s)
    let i := takeInner st t.2.2
    let s := i.2
    let md := stageMode s st
    let s := if modeRuns md ∧ md ≠ modeReplay then afterGfm st (compute st inp t.1 t.2.1 i.1 s) else s
    sendMirror st (plausChecks st inp s)

/-- Element 32 of a grid-forming stage, on the P_f of the sample (R265). -/
def unitElement (st : Fin 4) (s : State) : State := if isGfm s st then refreshLines (unit32Step (gidx st) s) else s

/-- LOOP_SAMPLE: a stage without a kind computes nothing. -/
def execLoopSample (st : Fin 4) (x : LoopInputs) (s : State) : Out :=
  let s := reachGrid st s
  if stageKind s st = 0 then .next s else .next (unitElement st (loopSample st x s))

/-- PROFILE_STEP: the generator's next period (R191, R204, R242, R249). -/
def execProfileStep (g : Fin 16) (s : State) : Out :=
  let s := reachPeriod g s
  let u := fld s (Reg.CTRL_PROF_CFG g) F.CTRL_PROF_CFG_user
  if u = userBlend then
    match blendStage s g with
    | none => .next s
    | some st => .next (blendStep g st s)
  else if u = userGfm then .next (rampStep (if g = 7 then 0 else 1) s)
  else if g = 15 ∧ stageKind s 3 = kindVarFreq then .next (vfProfStep s)
  else .next (hostStep g s)

end Sys2Proof.Machine
end

