-- ==== Sys2Proof/Machine/Fabric.lean ====
section
/-! DEFINITION. The fabric (chapters 01 and 02): RIDGE words, placement and repair of tiles, the shadow check, structure
changes, the indirect port, and the checks of a pitch image. -/

namespace Sys2Proof

/-! ### A pitch image by the fields of its head (Table 2.1) -/

/-- Is it a full image? -/
def PitchImage.full (x : PitchImage) : Bool := x.head.kind == 1

/-- Its build_id, and the build_id of the structure that a group image applies to. -/
def PitchImage.buildId (x : PitchImage) : Word := x.head.buildId
def PitchImage.baseBuildId (x : PitchImage) : Word := x.head.baseBuildId

/-- Its permissions (R61). -/
def PitchImage.holdLive (x : PitchImage) : Bool := x.head.permissions.getLsbD 0
def PitchImage.testAllowed (x : PitchImage) : Bool := x.head.permissions.getLsbD 1

/-- The group of a group image. -/
def PitchImage.group (x : PitchImage) : Fin 16 := Fin.ofNat 16 x.head.group.toNat

end Sys2Proof

namespace Sys2Proof.Machine

open Sys2Proof

/-! ### STAKE and the heads of images (R56 to R58, R424, R443) -/

/-- The anti-rollback counter: the number of burned fuses (R443). -/
def stakeCounter (s : State) : Nat := (List.range 64).countP (fun i => s.upd.stake.counter.getLsbD i)

/-- The fuses of a counter value: contiguous from the first (R443). -/
def counterFuses (n : Nat) : BitVec 64 := BitVec.ofNat 64 (2 ^ n - 1)

/-- The lifecycle state: 0 TEST, 1 FIELD, 2 RETURNED (R443, UPD_STATUS.lifecycle). -/
def lifecycle (s : State) : Nat :=
  if s.upd.stake.lifecycle = 0x00FF then 1 else if s.upd.stake.lifecycle = 0xFFFF then 2 else 0

/-- The STAKE integrity check at a start, but for the sensing margins, which the start's operand tells (R443). -/
def stakeOk (s : State) : Bool :=
  let x := s.upd.stake
  x.rootHash[0] == x.rootHash[1] && x.counter == counterFuses (stakeCounter s) &&
    (x.lifecycle == 0 || x.lifecycle == 0x00FF || x.lifecycle == 0xFFFF)

/-- The magic and the longest image of a kind, numbered from 0 (Table 16.1). -/
def kindMagic (k : Fin 4) : Word :=
  match k with | 0 => 0x48435450 | 1 => 0x4E414353 | 2 => 0x574D5246 | _ => 0x54534F42
def kindLimit (k : Fin 4) : Nat := match k with | 0 => 1048576 | 1 => 524288 | 2 => 16777216 | _ => 1048576

/-- Check 2 on the fields that Table 2.4 names: the offset of the first bad one. -/
def namedField (k : Fin 4) (h : ImageHead) : Option Nat :=
  if h.magic ≠ kindMagic k then some 0
  else if h.major ≠ 1 then some 4
  else if !(h.kind == 1 || (k == 0 && h.kind == 2)) then some 0x0C
  else if h.stepping ≠ 0x00A1 then some 0x0E
  else none

/-- The fields that Table 2.1 and R424 bind and no check of Table 2.4 names: the model has check 2 find them bad (log entry
78). -/
def boundField (k : Fin 4) (h : ImageHead) : Option Nat :=
  let grp := k == 0 && h.kind == 2
  if h.buildId = 0 then some 0x10
  else if h.baseBuildId ≠ 0 ∧ !grp ∧ k ≠ 1 then some 0x14
  else if 64 < h.securityVersion then some 0x18
  else if 4 ≤ h.permissions.toNat then some 0x1C
  else if !(if grp then decide (h.group.toNat < 16) else if k == 1 then decide (h.group.toNat < 4) else h.group == 0xFFFF)
    then some 0x22
  else if h.reserved ≠ 0 then some 0x24
  else none

/-- Check 2: the offset of the first bad header field. -/
def badField (k : Fin 4) (h : ImageHead) : Option Nat :=
  match namedField k h with
  | some o => some o
  | none => boundField k h

/-- The end of the section table, and of the last byte a section may take (R56). -/
def tableEnd (h : ImageHead) : Nat := 64 + 16 * h.sections.length
def sectionsEnd (h : ImageHead) : Nat := h.length - 196

/-- Do two sections overlap? -/
def overlap (x y : ImageSection) : Bool := x.offset < y.offset + y.length && y.offset < x.offset + x.length

/-- Check 3: 0xFFFF for the header, or the index of the first section out of bounds, not aligned, or overlapping one before
it (R57). A section_count outside 1 to 32 counts as the header's. -/
def lengthErr (k : Fin 4) (h : ImageHead) : Option Nat :=
  let n := h.sections.length
  if h.length ≠ h.received ∨ kindLimit k < h.length ∨ n = 0 ∨ 32 < n ∨ h.length < tableEnd h + 196 then some 0xFFFF
  else
    (List.range n).find? (fun i => match h.sections[i]? with
      | none => false
      | some x => x.offset % 16 != 0 || x.offset < tableEnd h || sectionsEnd h < x.offset + x.length ||
          (h.sections.take i).any (overlap x))

/-- Check 4: the key's hash is the root key hash and the signature is that key's (R58). -/
def signatureOk (h : ImageHead) (s : State) : Bool := h.keyHash == s.upd.stake.rootHash[0] && h.signatureValid

/-- Checks 1 to 6 of Table 2.4 on an image of a kind: the check that fails, its status and its argument. -/
def headFault (k : Fin 4) (h : ImageHead) (s : State) : Option (Nat × Nat × Nat) :=
  if !h.crcOk then some (1, stBadCrc, 0)
  else match badField k h with
  | some o => some (2, stNotPermitted, o)
  | none =>
  match lengthErr k h with
  | some i => some (3, stBadLength, i)
  | none =>
  if !signatureOk h s then some (4, stSignature, 0)
  else if h.securityVersion < stakeCounter s then some (5, stRollback, stakeCounter s)
  else (h.sections.findIdx? (fun x => !x.crcOk)).map (fun i => (6, stBadCrc, i))

/-- The section types a kind of pitch image needs, and those it may have (Table 2.2). -/
def neededTypes (full : Bool) : List (BitVec 16) := if full then [1, 2, 3, 4, 5, 6, 7, 8, 10] else [1, 2, 3, 4, 9]
def knownTypes (full : Bool) : List (BitVec 16) := 9 :: neededTypes full

/-- Check 7 on a pitch image: the type of the first section that is refused, unknown and not SKIPPABLE, or carries another
flag, in table order; else of the first needed one that is missing, in the order of Table 2.2 (log entry 79). -/
def sectionsFault (h : ImageHead) : Option Nat :=
  let full := h.kind == 1
  let unknown := fun (x : ImageSection) => x.type == 0 || 10 < x.type.toNat
  let bad := fun (x : ImageSection) =>
    4 ≤ x.flags.toNat || (if unknown x then !x.flags.getLsbD 1 else !(knownTypes full).contains x.type)
  match h.sections.find? bad with
  | some x => some x.type.toNat
  | none => ((neededTypes full).find? (fun t => !h.sections.any (fun x => x.type == t))).map (·.toNat)

/-- Does a section of this type carry LOCK (R57)? -/
def sectionLocks (h : ImageHead) (t : BitVec 16) : Bool := h.sections.any (fun x => x.type == t && x.flags.getLsbD 0)

/-! ### Words on RIDGE -/

/-- The source encoding of a tile in events: cluster × 32 + index (Table 1.9). -/
def tileCode (c i : Nat) : Nat := c * 32 + i

/-- The number of ones of a byte of a word. -/
def onesOf (d : Word) (k : Fin 4) : Nat := (List.range 8).countP (fun i => d.getLsbD (8 * k.val + i))

/-- Do the four parity bits match the word, one for each byte of data (R25)? Whether the parity is even or odd is not
stated (log entry 71). -/
def parityOk (d : Word) (parity : BitVec 4) : Bool :=
  (List.finRange 4).all (fun (k : Fin 4) => parity.getLsbD k == ((onesOf d k + b2n Config.parityOdd) % 2 == 1))

/-- R26, Table 1.4: fabric cycles of a route by its hops. -/
def routeCycles (hops : Nat) : Nat := 2 + 4 * hops

/-- R28, R26: fabric cycles from the segment on which a SAR core enters to a tile of a cluster: the bridges between them. -/
def ingressCycles (core cluster : Fin 4) : Nat :=
  let d := (cluster.val + 4 - core.val) % 4
  4 + (if d = 0 then 0 else if d = 2 then 8 else 4)

/-- R29: a destination tile takes a word, with FAULT set when its parity does not match; a word that is not VALID leaves
the word held before (R163). No role uses a FAULT word: the inputs of the stages and of the elements carry FAULT with them
(R182, R252). -/
def execRouteWord (c : Fin 4) (i : Fin 17) (route : BitVec 16) (d : Word) (v u h f : Bool) (parity : BitVec 4) (s : State) :
    Out :=
  let ok := parityOk d parity
  let w : RidgeWord := ⟨d, v, u, h, f || !ok⟩
  let key := tileCode c i
  let box := s.fab.inbox.filter (fun e => !(e.1 == key && e.2.1 == route.toNat))
  let s := if v then { s with fab := { s.fab with inbox := (key, route.toNat, w) :: box } } else s
  .next (whenS (!ok) (logN 0x1102 key route.toNat) s)

/-! ### Tiles and their memories -/

/-- State codes of FAB_TILE_n.state. -/
def tileFree : Nat := 0
def tileLive : Nat := 1
def tileSpare : Nat := 2
def tileRetired : Nat := 3

/-- FAB_TILE_n.state of tile `i` of cluster `c`. -/
def tileState (s : State) (c i : Nat) : Nat := fld s (Reg.FAB_TILE c i) F.FAB_TILE_state

/-- The lowest-numbered FREE tile of a cluster. -/
def lowestFree (s : State) (c : Nat) : Option Nat := (List.range 17).find? (fun i => tileState s c i == tileFree)

/-- The cluster's spare, if it has one (FAB_STATUS.spare_idx, 31 for none). -/
def spareOf (s : State) (c : Nat) : Option Nat :=
  let i := fld s (Reg.FAB_STATUS c) F.FAB_STATUS_spare_idx
  if i < 17 then some i else none

/-- Retire a tile: its state, the count of FAB_STATUS, the repair record (R73) and the event (Table 2.7). -/
def retireTile (c i cause slot : Nat) (s : State) : State :=
  let s := setF s (Reg.FAB_TILE c i) F.FAB_TILE_state tileRetired
  let s := setF s (Reg.FAB_TILE c i) F.FAB_TILE_slot 0xFF
  let s := setF s (Reg.FAB_TILE c i) F.FAB_TILE_role 0
  let s := setF s (Reg.FAB_TILE c i) F.FAB_TILE_group 0xF
  let s := setF s (Reg.FAB_STATUS c) F.FAB_STATUS_retired (fld s (Reg.FAB_STATUS c) F.FAB_STATUS_retired + 1)
  let s := { s with fab := { s.fab with repair := s.fab.repair ++ [(Fin.ofNat 4 c, Fin.ofNat 17 i)] } }
  logN 0x1204 (tileCode c i) (cause * 0x10000 + slot) s

/-- The clusters a change concerns: all of a full image, those of its slots for a group image. -/
def changeClusters (img : PitchImage) : List Nat :=
  (List.range 4).filter (fun c => img.full || img.roles.any (fun r => r.cluster.val == c))

/-- Does the pending structure change concern this cluster? -/
def changeConcerns (s : State) (c : Nat) : Bool :=
  match s.fab.change with
  | none => false
  | some ch => (changeClusters ch.image).contains c

/-- The lowest-numbered FREE tile becomes the spare, or the cluster reports DEGRADED_NO_SPARE (R70, R71). -/
def chooseSpare (c : Nat) (s : State) : State :=
  match lowestFree s c with
  | some i =>
    let s := setF s (Reg.FAB_TILE c i) F.FAB_TILE_state tileSpare
    setF s (Reg.FAB_STATUS c) F.FAB_STATUS_spare_idx i
  | none =>
    let s := setF s (Reg.FAB_STATUS c) F.FAB_STATUS_spare_idx 31
    let s := setF s (Reg.FAB_STATUS c) F.FAB_STATUS_degraded_no_spare 1
    logN 0x1205 c (fld s (Reg.FAB_STATUS c) F.FAB_STATUS_retired) s

/-- R71: at the boundary the role slot moves to the spare, the faulty tile is retired, and a FREE tile becomes the
spare. Nothing happens where no relocation is due. -/
def applyRelocation (c : Fin 4) (s : State) : State :=
  match s.fab.clusters[c].relocate with
  | none => s
  | some i =>
    let s := { s with fab := { s.fab with
      clusters := s.fab.clusters.set c { s.fab.clusters[c] with relocate := none } } }
    let s := setF s (Reg.FAB_STATUS c) F.FAB_STATUS_pending (b2n (changeConcerns s c))
    match spareOf s c with
    | none => s
    | some sp =>
      let w := putF (rd s (Reg.FAB_TILE c i)) F.FAB_TILE_ctx (fld s (Reg.FAB_TILE c sp) F.FAB_TILE_ctx)
      let s := wr s (Reg.FAB_TILE c sp) (putF w F.FAB_TILE_state tileLive)
      let s := retireTile c i 1 (getF w F.FAB_TILE_slot) s
      chooseSpare c s

/-- The place of a word in tile memory: cluster, tile, space (0 data, 1 and 2 the two contexts), word. -/
def tileKey (c i sp w : Nat) : Nat := ((c * 17 + i) * 3 + sp) * 4096 + w

/-- A word of tile memory. -/
def tileWord (s : State) (k : Nat) : Word := sget tileDefault s.fab.tileMem k

/-- Store a word of tile memory. -/
def putTile (k : Nat) (v : Word) (s : State) : State :=
  { s with fab := { s.fab with tileMem := sput tileDefault s.fab.tileMem k v } }

/-- Copy `n` words of tile memory from `src` to `dst`. -/
def copyWords (src dst n : Nat) (s : State) : State :=
  let held := s.fab.tileMem.filter (fun e => src ≤ e.1 && e.1 < src + n)
  let old := s.fab.tileMem.filter (fun e => dst ≤ e.1 && e.1 < dst + n)
  forEach held (fun e s => putTile (dst + (e.1 - src)) e.2 s) (forEach old (fun e s => putTile e.1 0 s) s)

/-- R70: the spare `sp` takes the context of the live tile `i`, and by mirroring its data memory. Each tile keeps its own
choice of active context. -/
def mirrorTile (c i sp : Nat) (s : State) : State :=
  let act := fun (j : Nat) => 1 + fld s (Reg.FAB_TILE c j) F.FAB_TILE_ctx
  copyWords (tileKey c i (act i) 0) (tileKey c sp (act sp) 0) 1024
    (copyWords (tileKey c i 0 0) (tileKey c sp 0 0) 4096 s)

/-- Change what a cluster holds. -/
def setCluster (c : Fin 4) (x : ClusterState) (s : State) : State :=
  { s with fab := { s.fab with clusters := s.fab.clusters.set c x } }

/-- A session ends: the spare is idle again. -/
def endSession (c : Fin 4) (s : State) : State :=
  let s := setCluster c { s.fab.clusters[c] with session := none } s
  let s := setF s (Reg.FAB_STATUS c) F.FAB_STATUS_shadow_busy 0
  setF s (Reg.FAB_SHADOW_STATUS c) F.FAB_SHADOW_STATUS_phase 0

/-- The session under way is abandoned (R74). One whose mismatch is recorded has its result: its relocation stays due (log
entry 72). -/
def abandonSession (c : Fin 4) (s : State) : State :=
  match s.fab.clusters[c].session, s.fab.clusters[c].relocate with
  | some _, none => setF (endSession c s) (Reg.FAB_SHADOW_STATUS c) F.FAB_SHADOW_STATUS_abandoned 1
  | _, _ => s

/-- The result of a session: the index, whether a word differed, and the count of sessions without mismatch. -/
def sessionResult (c : Fin 4) (i : Fin 17) (differ : Bool) (s : State) : State :=
  let a := Reg.FAB_SHADOW_STATUS c
  let s := setF (setF s a F.FAB_SHADOW_STATUS_last_idx i) a F.FAB_SHADOW_STATUS_last_mismatch (b2n differ)
  let s := whenS (!differ) (fun s => setF s a F.FAB_SHADOW_STATUS_passed (fld s a F.FAB_SHADOW_STATUS_passed + 1)) s
  endSession c s

/-- The word of FAB_TILE without its context bit: what a change of role alters. -/
def tileWordOf (s : State) (c i : Nat) : Word := putF (rd s (Reg.FAB_TILE c i)) F.FAB_TILE_ctx 0

/-- The compare frame opens (R70 step 3). A mismatch is recorded as it opens, where the spec has it within the frame (log
entry 72): the relocation falls due at the boundary that closes the frame. -/
def openCompare (c : Fin 4) (x : ShadowSession) (s : State) : State :=
  let s := setCluster c { s.fab.clusters[c] with session := some { x with phase := 3 } } s
  let s := setF s (Reg.FAB_SHADOW_STATUS c) F.FAB_SHADOW_STATUS_phase 3
  if x.out.differ then
    setF (setCluster c { s.fab.clusters[c] with relocate := some x.idx } s) (Reg.FAB_STATUS c) F.FAB_STATUS_pending 1
  else s

/-- The self-test frame has ended (R70 step 1). -/
def afterSelfTest (c : Fin 4) (x : ShadowSession) (s : State) : State :=
  if !x.out.selfTestOk then
    match spareOf s c with
    | none => endSession c s
    | some sp => chooseSpare c (retireTile c sp 2 0xFFFF (endSession c s))
  else if tileState s c x.idx ≠ tileLive then sessionResult c x.idx false s
  else
    setF (setCluster c { s.fab.clusters[c] with session := some { x with phase := 2 } } s)
      (Reg.FAB_SHADOW_STATUS c) F.FAB_SHADOW_STATUS_phase 2

/-- A boundary moves a session to its next frame (R70); one whose live tile has changed its role is abandoned (R74). -/
def stepSession (c : Fin 4) (s : State) : State :=
  match s.fab.clusters[c].session with
  | none => s
  | some x =>
    if x.tile ≠ tileWordOf s c x.idx ∧ x.phase ≠ 3 then abandonSession c s
    else
      match x.phase with
      | 1 => afterSelfTest c x s
      | 2 => openCompare c x (match spareOf s c with | none => s | some sp => mirrorTile c x.idx sp s)
      | _ => s

/-- The boundary that closes the compare frame: the session completes, before a relocation it asked for is made. -/
def closeCompare (c : Fin 4) (s : State) : State :=
  match s.fab.clusters[c].session with
  | none => s
  | some x => if x.phase = 3 then sessionResult c x.idx x.out.differ s else s

/-- A session starts on an index (R70): its self-test frame opens. It is abandoned at once where a structure change is
pending for the cluster (R74); a cluster without a spare, or with shadow checks off, starts none. -/
def startSession (c : Fin 4) (i : Fin 17) (o : ShadowOutcome) (s : State) : State :=
  if (spareOf s c).isNone ∨ !flg s (Reg.FAB_SHADOW_CTRL c) F.FAB_SHADOW_CTRL_enable then s
  else if changeConcerns s c then setF s (Reg.FAB_SHADOW_STATUS c) F.FAB_SHADOW_STATUS_abandoned 1
  else
    let s := setCluster c { s.fab.clusters[c] with session := some { idx := i, out := o, tile := tileWordOf s c i } } s
    let s := setF s (Reg.FAB_STATUS c) F.FAB_STATUS_shadow_busy 1
    setF (setF s (Reg.FAB_SHADOW_STATUS c) F.FAB_SHADOW_STATUS_cur_idx i) (Reg.FAB_SHADOW_STATUS c)
      F.FAB_SHADOW_STATUS_phase 1

/-- The index the rotation's slot `k` visits: the 16 indices other than the spare's own, in order (R70). -/
def rotationIndex (sp k : Nat) : Nat := if k < sp then k else k + 1

/-- R70: the nominal start of the next slot of a cluster's rotation; its session starts at the next frame boundary. -/
def execShadowSlot (c : Fin 4) (o : ShadowOutcome) (s : State) : Out :=
  let x := s.fab.clusters[c]
  let due := match spareOf s c with
    | none => none
    | some sp => some (Fin.ofNat 17 (rotationIndex sp x.rotation), o)
  .next (setCluster c { x with rotation := (x.rotation + 1) % 16, due := due } s)

/-- R74: a write of FAB_SHADOW_CTRL. A target equal to the spare's own index or above 16 makes check_now do nothing. Enable
0 abandons the session under way. -/
def writeShadowCtrl (c : Fin 4) (v : Word) (s : State) : State :=
  let s := setF s (Reg.FAB_SHADOW_CTRL c) F.FAB_SHADOW_CTRL_enable (getF v F.FAB_SHADOW_CTRL_enable)
  let s := whenS (getF v F.FAB_SHADOW_CTRL_enable == 0) (abandonSession c) s
  let s := setF s (Reg.FAB_SHADOW_CTRL c) F.FAB_SHADOW_CTRL_target (getF v F.FAB_SHADOW_CTRL_target)
  let t := getF v F.FAB_SHADOW_CTRL_target
  if getF v F.FAB_SHADOW_CTRL_check_now = 1 ∧ t ≤ 16 ∧ spareOf s c ≠ some t then
    setF s (Reg.FAB_SHADOW_CTRL c) F.FAB_SHADOW_CTRL_check_now 1
  else s

/-- The session that check_now asked for, at the boundary, which clears the bit; a target that has since become the
spare's index or one above 16 starts none (R74). The rotation does not shift. -/
def startCheckNow (c : Fin 4) (o : ShadowOutcome) (s : State) : State :=
  let t := fld s (Reg.FAB_SHADOW_CTRL c) F.FAB_SHADOW_CTRL_target
  let s := setF s (Reg.FAB_SHADOW_CTRL c) F.FAB_SHADOW_CTRL_check_now 0
  if t ≤ 16 ∧ spareOf s c ≠ some t then startSession c (Fin.ofNat 17 t) o s else s

/-- Sessions at a boundary: the one under way moves on; where none is, the rotation's due slot starts, or else the one that
check_now asks for, with the outcome `o`. -/
def sessionsAtBoundary (c : Fin 4) (o : ShadowOutcome) (s : State) : State :=
  let s := stepSession c s
  if s.fab.clusters[c].session.isSome then s
  else
    match s.fab.clusters[c].due with
    | some d => startSession c d.1 d.2 (setCluster c { s.fab.clusters[c] with due := none } s)
    | none => whenS (flg s (Reg.FAB_SHADOW_CTRL c) F.FAB_SHADOW_CTRL_check_now) (startCheckNow c o) s

/-! ### The clock request (R23) -/

/-- Does a schedule entry run in frame `n`? -/
def entryRuns (e : SchedEntry) (n : Nat) : Bool :=
  match e.period with
  | none => true
  | some (a, b) => let p := 2 ^ a * 5 ^ b; p ≤ 400000 || n % (p / 400000) == e.start / 400000 % (p / 400000)

/-- Is a role slot on a LIVE tile of this cluster? -/
def slotLiveIn (s : State) (c slot : Nat) : Bool :=
  (List.range 17).any (fun i => tileState s c i == tileLive && fld s (Reg.FAB_TILE c i) F.FAB_TILE_slot == slot)

/-- Has any tile of a cluster scheduled work in frame `n`: an entry of a slot that is placed there, or a session of the
spare? -/
def workIn (s : State) (c : Fin 4) (n : Nat) : Bool :=
  let x := s.fab.clusters[c]
  x.session.isSome || x.due.isSome ||
    (match s.fab.running with
     | none => false
     | some img => img.schedule.any (fun e => entryRuns e n && slotLiveIn s c e.slot.toNat))

/-- R23: a cluster requests the fabric clock for work in the frame that opens and, decided one frame ahead, in the one
after it. -/
def clockRequest (c : Fin 4) (s : State) : State :=
  let n := (rd64 s Reg.FAB_FRAME_COUNT).toNat
  setF s (Reg.FAB_STATUS c) F.FAB_STATUS_clk_req (b2n (workIn s c n || workIn s c (n + 1)))

/-! ### The indirect port -/

/-- The space an indirect access names, resolved to data memory or to one of the two contexts: code 0b01 is the active
context, 0b10 the shadow (FAB_IND_ADDR.space); none for the reserved code. -/
def indSpace (s : State) (c i code : Nat) : Option Nat :=
  let act := fld s (Reg.FAB_TILE c i) F.FAB_TILE_ctx
  match code with
  | 0 => some 0
  | 1 => some (1 + act)
  | 2 => some (2 - act)
  | _ => none

/-- The tile a role slot stands on. -/
def tileOfSlot (s : State) (slot : Nat) : Option (Nat × Nat) :=
  ((List.range 4).flatMap (fun c => (List.range 17).map (fun i => (c, i)))).find? (fun p =>
    tileState s p.1 p.2 == tileLive && fld s (Reg.FAB_TILE p.1 p.2) F.FAB_TILE_slot == slot)

/-- The group of a role slot, 0xF for none (Table 2.2, TILE_GROUPS). -/
def groupOf (img : PitchImage) (slot : BitVec 8) : Nat :=
  match img.groups.find? (fun g => g.2 == slot) with
  | some g => g.1
  | none => 0xF

/-- The role slots an image places: those with a role (code 0x0 is FREE, "available as spare", R60). -/
def placedRoles (img : PitchImage) : List TileRole := img.roles.filter (fun r => r.role != 0)

/-- Roles that a group image leaves in place, with its new slots behind them, in TILE_ROLES order; the roles of slots that
run stay as they are (R54). -/
def mergedRoles (run img : PitchImage) : List TileRole :=
  run.roles ++ img.roles.filter (fun r => !run.roles.any (fun q => q.slot == r.slot))

/-- Entries of the running structure whose slot is none of the image's, with the image's (R54). -/
def mergeBy {α : Type} (slot : α → BitVec 8) (img : PitchImage) (run new : List α) : List α :=
  run.filter (fun x => !img.roles.any (fun q => q.slot == slot x)) ++ new

/-- The structure that a group image leaves: microcode, routes, schedule entries and state-transfer entries of its group
replaced, and new slots added (R54, R65, R434). -/
def mergeImage (run img : PitchImage) : PitchImage :=
  { run with
    head := { run.head with buildId := img.buildId }
    roles := mergedRoles run img
    routes := mergeBy (·.source) img run.routes img.routes
    schedule := mergeBy (·.slot) img run.schedule img.schedule
    contexts := mergeBy (·.slot) img run.contexts img.contexts
    transfers := mergeBy (·.slot) img run.transfers img.transfers
    groups := run.groups ++ ((img.roles.filter (fun r => !run.groups.any (fun g => g.2 == r.slot))).map
      (fun r => (img.group, r.slot))) }

/-- The structure after a change: a full image as it is, a group image merged into the running structure, and a revert of
one the structure it returns to. -/
def afterChange (ch : StructChange) (run : Option PitchImage) : PitchImage :=
  match ch.restore with
  | some b => b
  | none => if ch.image.full then ch.image else match run with | some r => mergeImage r ch.image | none => ch.image

/-- Is a tile to be had for a slot that has none: FREE, or left by a slot that the structure `after` does not hold in this
cluster? -/
def tileToHave (after : PitchImage) (s : State) (c i : Nat) : Bool :=
  tileState s c i == tileFree ||
    (tileState s c i == tileLive && !(placedRoles after).any (fun r =>
      r.slot.toNat == fld s (Reg.FAB_TILE c i) F.FAB_TILE_slot && r.cluster.val == c))

/-- The tile for the next slot, given those already given out: its preferred tile where that is to be had, else the
lowest-numbered one (log entry 73). -/
def planNext (after : PitchImage) (s : State) (plan : List (TileRole × Nat)) (r : TileRole) : List (TileRole × Nat) :=
  let have' := fun (i : Nat) => tileToHave after s r.cluster i && !plan.any (fun p => p.1.cluster == r.cluster && p.2 == i)
  let at' := if have' r.index then some r.index.val else (List.range 17).find? have'
  match at' with
  | some i => plan ++ [(r, i)]
  | none => plan

/-- Where the slots of a structure stand at run time: a slot that runs keeps its tile, a new one takes a FREE tile (R65). -/
def planTiles (after : PitchImage) (s : State) : List (TileRole × Nat) :=
  let kept := (placedRoles after).filterMap (fun r =>
    match tileOfSlot s r.slot.toNat with
    | some (c, i) => if c = r.cluster.val then some (r, i) else none
    | none => none)
  let rest := (placedRoles after).filter (fun r => !kept.any (fun p => p.1.slot == r.slot))
  rest.foldl (planNext after s) kept

/-- The tile a plan gives a slot. -/
def plannedTile (plan : List (TileRole × Nat)) (slot : BitVec 8) : Option (Nat × Nat) :=
  (plan.find? (fun p => p.1.slot == slot)).map (fun p => (p.1.cluster.val, p.2))

/-- Does the pending change, or a relocation, concern this tile (R77)? -/
def tilePending (s : State) (c : Fin 4) (i : Nat) : Bool :=
  (match s.fab.change with
   | none => false
   | some ch => (planTiles (afterChange ch s.fab.running) s).any (fun p =>
       p.1.cluster == c && p.2 == i && (ch.image.full || ch.image.roles.any (fun r => r.slot == p.1.slot)))) ||
  (match s.fab.clusters[c].relocate with
   | none => false
   | some j => j.val == i || spareOf s c == some i)

/-- R77: is an indirect write of this tile and space refused? -/
def indRefused (s : State) (c : Fin 4) (i code : Nat) : Bool :=
  let st := tileState s c i
  code == 1 || (code == 2 && tilePending s c i) ||
    ((st == tileLive || st == tileSpare) && !(flg s Reg.FAB_PERMIT F.FAB_PERMIT_test_allowed && commissioning s))

/-- A write of FAB_IND_CTRL (R47, R77): go is ignored while busy; a refused write and a reserved space set err and
change nothing. A tile index above 16 names no tile, and a context word with bits [13:12] not 0 no word of a context: both
are taken as a reserved space (log entry 74). -/
def writeIndCtrl (c : Fin 4) (v : Word) (s : State) : State :=
  let s := whenS (getF v F.FAB_IND_CTRL_err == 1) (fun s => setF s (Reg.FAB_IND_CTRL c) F.FAB_IND_CTRL_err 0) s
  let s := setF s (Reg.FAB_IND_CTRL c) F.FAB_IND_CTRL_write (getF v F.FAB_IND_CTRL_write)
  if getF v F.FAB_IND_CTRL_go = 0 ∨ flg s (Reg.FAB_IND_CTRL c) F.FAB_IND_CTRL_busy then s
  else
    let i := fld s (Reg.FAB_IND_ADDR c) F.FAB_IND_ADDR_tile
    let code := fld s (Reg.FAB_IND_ADDR c) F.FAB_IND_ADDR_space
    let w := fld s (Reg.FAB_IND_ADDR c) F.FAB_IND_ADDR_word
    let write := getF v F.FAB_IND_CTRL_write == 1
    let wrong := 16 < i || code == 3 || (code != 0 && 1024 ≤ w) || (write && indRefused s c i code)
    if wrong then setF s (Reg.FAB_IND_CTRL c) F.FAB_IND_CTRL_err 1
    else
      let x : IndAccess := ⟨Fin.ofNat 17 i, Fin.ofNat 3 ((indSpace s c i code).getD 0), w,
        if write then some (rd s (Reg.FAB_IND_DATA c)) else none⟩
      setF { s with fab := { s.fab with ind := s.fab.ind.set c (some x) } } (Reg.FAB_IND_CTRL c) F.FAB_IND_CTRL_busy 1

/-- R47: the access completes as it was issued, and busy clears. -/
def execIndirectAccessDone (c : Fin 4) (s : State) : Out :=
  match s.fab.ind[c] with
  | none => .next s
  | some x =>
    let s := { s with fab := { s.fab with ind := s.fab.ind.set c none } }
    let s := setF s (Reg.FAB_IND_CTRL c) F.FAB_IND_CTRL_busy 0
    let k := tileKey c x.tile x.space x.word
    match x.data with
    | some v => .next (putTile k v s)
    | none => .next (wr s (Reg.FAB_IND_DATA c) (tileWord s k))

/-! ### Placement (R55) -/

/-- Put a role slot on a tile: LIVE, with its role and group. -/
def placeOn (c i : Nat) (r : TileRole) (g : Nat) (s : State) : State :=
  let w := rd s (Reg.FAB_TILE c i)
  let w := putF w F.FAB_TILE_slot r.slot.toNat
  let w := putF w F.FAB_TILE_role r.role
  let w := putF w F.FAB_TILE_state tileLive
  wr s (Reg.FAB_TILE c i) (putF w F.FAB_TILE_group g)

/-- A tile without a role. -/
def clearTile (c i st : Nat) (s : State) : State :=
  let w := rd s (Reg.FAB_TILE c i)
  let w := putF (putF (putF w F.FAB_TILE_slot 0xFF) F.FAB_TILE_role 0) F.FAB_TILE_group 0xF
  wr s (Reg.FAB_TILE c i) (putF w F.FAB_TILE_state st)

/-- Before a full image is placed: retired tiles from the repair record, every other tile FREE, index 16 the spare unless
it is retired (R5, R73). -/
def clearPlacement (s : State) : State :=
  forEach [0, 1, 2, 3] (fun c s =>
    let gone := fun (i : Nat) => s.fab.repair.any (fun p => p.1.val == c && p.2.val == i)
    let s := forEach (List.range 17) (fun i s => clearTile c i (if gone i then tileRetired else tileFree) s) s
    let s := setF s (Reg.FAB_STATUS c) F.FAB_STATUS_retired ((List.range 17).filter gone).length
    let s := setF s (Reg.FAB_STATUS c) F.FAB_STATUS_degraded_no_spare 0
    if gone 16 then setF s (Reg.FAB_STATUS c) F.FAB_STATUS_spare_idx 31
    else setF (setF s (Reg.FAB_TILE c 16) F.FAB_TILE_state tileSpare) (Reg.FAB_STATUS c) F.FAB_STATUS_spare_idx 16) s

/-- Place a role slot whose preferred tile is retired: on the spare, the lowest-numbered FREE tile becoming the spare (R55; log
entry 73). -/
def placeDisplaced (img : PitchImage) (r : TileRole) (s : State) : State :=
  match spareOf s r.cluster with
  | some sp =>
    let s := placeOn r.cluster sp r (groupOf img r.slot) s
    match lowestFree s r.cluster with
    | some i => setF (setF s (Reg.FAB_TILE r.cluster i) F.FAB_TILE_state tileSpare)
        (Reg.FAB_STATUS r.cluster) F.FAB_STATUS_spare_idx i
    | none => setF s (Reg.FAB_STATUS r.cluster) F.FAB_STATUS_spare_idx 31
  | none => s

/-- Place a role slot on its preferred tile, if that is not retired. -/
def placePreferred (img : PitchImage) (r : TileRole) (s : State) : State :=
  if tileState s r.cluster r.index = tileRetired then s
  else
    let s := placeOn r.cluster r.index r (groupOf img r.slot) s
    if spareOf s r.cluster = some r.index.val then setF s (Reg.FAB_STATUS r.cluster) F.FAB_STATUS_spare_idx 31 else s

/-- A cluster without a spare takes its lowest-numbered FREE tile, or reports DEGRADED_NO_SPARE. -/
def settleSpare (c : Nat) (s : State) : State :=
  match spareOf s c with
  | some _ => s
  | none => chooseSpare c s

/-- R55: place every role slot of a full image at a load. -/
def placeImage (img : PitchImage) (s : State) : State :=
  let s := clearPlacement s
  let s := forEach (placedRoles img) (placePreferred img) s
  let s := forEach (placedRoles img) (fun r s =>
    if tileState s r.cluster r.index = tileRetired then placeDisplaced img r s else s) s
  forEach [0, 1, 2, 3] settleSpare s

/-- The first role slot that repeats a slot number, or the preferred tile, of one before it (R55). -/
def repeatedRole : List TileRole → List TileRole → Option TileRole
  | _, [] => none
  | before, r :: rs =>
    if before.any (fun q => q.slot == r.slot || (q.cluster == r.cluster && q.index == r.index && q.role != 0 && r.role != 0))
    then some r else repeatedRole (before ++ [r]) rs

/-- Tiles of a cluster that have not been retired (R73). -/
def tilesLeft (s : State) (c : Fin 4) : Nat := 17 - (s.fab.repair.filter (fun p => p.1 == c)).length

/-- The limits of Table 2.3 on the number of tiles of a role, for codes FILTER, BAND, CAPTURE and GATEWAY (two a core). -/
def roleLimits : List (Nat × Nat) := [(1, 6), (4, 12), (8, 4), (9, 4)]

/-- Check 9 on a list of roles: the slot that breaks it. A cluster has at most 16 role slots, its assignable tiles (R59),
and no more than the tiles it has left. A limit of Table 2.3 names the last slot of its role in TILE_ROLES order (log
entry 75). -/
def rolesFault (img : PitchImage) (s : State) : Option Nat :=
  let placed := placedRoles img
  let inCl := fun (c : Fin 4) => (placed.filter (fun q => q.cluster == c)).length
  match img.roles.find? (fun r => 0xA ≤ r.role.val || r.slot == 0xFF ||
      (r.role != 0 && (16 < inCl r.cluster || tilesLeft s r.cluster < inCl r.cluster))) with
  | some r => some r.slot.toNat
  | none =>
    let ofCode := fun (k : Nat) => placed.filter (fun r => r.role.val == k)
    (roleLimits.find? (fun p => decide (p.2 < (ofCode p.1).length))).bind (fun p =>
      (ofCode p.1).getLast?.map (·.slot.toNat))

/-- Check 9: roles within Table 2.3, on the structure the image leaves, and placement possible (R55). -/
def placementFault (img : PitchImage) (s : State) : Option Nat :=
  match repeatedRole [] img.roles with
  | some r => some r.slot.toNat
  | none =>
    match rolesFault img s, img.full, s.fab.running with
    | some k, _, _ => some k
    | none, false, some run => rolesFault (mergeImage run img) s
    | none, _, _ => none

/-! ### Routes (R30, R33, R59) -/

/-- The period of a route in cycles; 400,000 for code 0xFF. -/
def routePeriod (r : Route) : Nat := match r.period with | some (a, b) => 2 ^ a * 5 ^ b | none => 400000

/-- R33: the period divides 400,000 or is a whole multiple of it. -/
def periodOk (p : Nat) : Bool := p != 0 && (400000 % p == 0 || p % 400000 == 0)

/-- Do two periodic drives meet in some cycle? -/
def drivesMeet (s1 p1 s2 p2 : Nat) : Bool := s1 % Nat.gcd p1 p2 == s2 % Nat.gcd p1 p2

/-- What a route occupies: the lane of its source segment, and the bridge lane of each bridge it crosses, each with the
cycle at which it does (R59, Table 1.4: 4 cycles a bridge). Entries are (kind and place, start cycle). -/
def routeUses (cl : Nat) (r : Route) : List (Nat × Nat) :=
  let lane := (r.laneByte.extractLsb' 0 3).toNat
  let hops := (r.laneByte.extractLsb' 3 2).toNat
  let down := r.laneByte.getLsbD 5
  let bl := (r.laneByte.extractLsb' 6 2).toNat
  let step := fun (c : Nat) => if down then (c + 3) % 4 else (c + 1) % 4
  let bridge := fun (c : Nat) => 1000 + (c * 2 + b2n down) * 4 + bl
  (cl * 8 + lane, r.start) ::
    (if hops = 0 then [] else if hops = 1 then [(bridge cl, r.start)]
     else [(bridge cl, r.start), (bridge (step cl), r.start + 4)])

/-- The cluster a role slot belongs to in an image. -/
def slotCluster (roles : List TileRole) (slot : BitVec 8) : Option Nat :=
  (roles.find? (fun r => r.slot == slot)).map (·.cluster.val)

/-- Do two uses meet: bridge lanes whoever drives them (R59), tile lanes where two sources drive them (R30)? -/
def usesMeet (same : Bool) (u w : Nat × Nat) (p q : Nat) : Bool :=
  u.1 == w.1 && drivesMeet u.2 p w.2 q && (1000 ≤ u.1 || !same)

/-- Check 10 on one route against the routes before it. A source that is no role slot is refused: the spec gives no source
code for a SAR core (log entry 76). -/
def routeBad (roles : List TileRole) (before : List Route) (r : Route) : Bool :=
  let hops := (r.laneByte.extractLsb' 3 2).toNat
  match slotCluster roles r.source with
  | none => true
  | some cl =>
    hops == 3 || (hops == 0 && (r.laneByte.extractLsb' 5 3).toNat != 0) || !periodOk (routePeriod r) ||
    before.any (fun q =>
      match slotCluster roles q.source with
      | none => false
      | some cq => (routeUses cl r).any (fun u => (routeUses cq q).any (fun w =>
          usesMeet (q.source == r.source) u w (routePeriod r) (routePeriod q))))

/-- Check 10 on a list of routes: the index of the first that breaks R30 or R33. -/
def routesFault (roles : List TileRole) : List Route → List Route → Nat → Option Nat
  | _, [], _ => none
  | before, r :: rs, k => if routeBad roles before r then some k else routesFault roles (before ++ [r]) rs (k + 1)

/-! ### Group images (R65) -/

/-- Is a destination of this route outside the group? The mask names slots of the destination segment, in TILE_ROLES
order (R59). -/
def leavesGroup (run img : PitchImage) (r : Route) : Bool :=
  match slotCluster run.roles r.source with
  | none => false
  | some cl =>
    let hops := (r.laneByte.extractLsb' 3 2).toNat
    let dst := if r.laneByte.getLsbD 5 then (cl + 4 - hops) % 4 else (cl + hops) % 4
    let there := (placedRoles run).filter (fun q => q.cluster.val == dst)
    (List.range 16).any (fun i => r.mask.getLsbD i &&
      (match there[i]? with
       | some q => !img.roles.any (fun p => p.slot == q.slot)
       | none => false))

/-- The cycles of a schedule entry. -/
def entryPeriod (e : SchedEntry) : Nat := match e.period with | some (a, b) => 2 ^ a * 5 ^ b | none => 400000

/-- Check 10: routes by R30 and R33, then schedule entries by R33, with the index of the record (log entry 76). -/
def check10 (roles : List TileRole) (others : List Route) (img : PitchImage) : Option Nat :=
  match routesFault roles others img.routes 0 with
  | some k => some k
  | none => img.schedule.findIdx? (fun e => !periodOk (entryPeriod e))

/-- R65 on the slots of a group image: every slot of the group and no other but new ones, in clusters of the group, for
which FREE tiles are left; at most 16 tiles. The slot that breaks it. -/
def groupSlotsFault (run img : PitchImage) (s : State) : Option Nat :=
  let own := fun (sl : BitVec 8) => run.groups.any (fun g => g.1 == img.group && g.2 == sl)
  let fresh := fun (r : TileRole) => !run.roles.any (fun q => q.slot == r.slot)
  let free := fun (c : Nat) => ((List.range 17).filter (fun i => tileState s c i == tileFree)).length
  let stands := fun (r : TileRole) => run.roles.any (fun q => q.slot == r.slot && q.cluster == r.cluster)
  let mayCome := fun (r : TileRole) => fresh r && run.roles.any (fun q => own q.slot && q.cluster == r.cluster) &&
    (img.roles.filter (fun q => fresh q && q.cluster == r.cluster)).length ≤ free r.cluster
  match img.roles.find? (fun r => !(own r.slot && stands r) && !mayCome r) with
  | some r => some r.slot.toNat
  | none =>
    match run.groups.find? (fun g => g.1 == img.group && !img.roles.any (fun r => r.slot == g.2)) with
    | some g => some g.2.toNat
    | none => (img.roles[16]?).map (·.slot.toNat)

/-- R65, R66 on the records of a group image: routes, schedule, contexts and transfers of its slots alone, every route that
leaves the group as it was, at most 1,024 words transferred a tile, and no new address that the old context writes. A dropped outward route
is named by its index among the running routes, any other record by its slot (log entry 77). -/
def groupRecordsFault (run img : PitchImage) : Option Nat :=
  let mine := fun (sl : BitVec 8) => img.roles.any (fun q => q.slot == sl)
  match img.routes.findIdx? (fun r => !mine r.source) with
  | some k => some k
  | none =>
    match run.routes.findIdx? (fun r => mine r.source && leavesGroup run img r && !img.routes.contains r) with
    | some k => some k
    | none =>
      let words := fun (sl : BitVec 8) => ((img.transfers.filter (fun t => t.slot == sl)).map (·.count)).sum
      let written := fun (t : Transfer) => run.contexts.any (fun x => x.slot == t.slot &&
        x.writes.any (fun w => t.newAddr ≤ w && w < t.newAddr + t.count))
      match img.transfers.find? (fun t => !mine t.slot || 1024 < words t.slot || written t) with
      | some t => some t.slot.toNat
      | none =>
        match img.schedule.find? (fun e => !mine e.slot) with
        | some e => some e.slot.toNat
        | none => (img.contexts.find? (fun x => !mine x.slot)).map (·.slot.toNat)

/-- Check 11: the conditions of R65, with the slot or route that breaks one. -/
def groupFault (run img : PitchImage) (s : State) : Option Nat :=
  match groupSlotsFault run img s with
  | some k => some k
  | none => groupRecordsFault run img

/-- Checks 8 to 11 of Table 2.4 against the running structure. -/
def structureFault (img : PitchImage) (s : State) : Option (Nat × Nat × Nat) :=
  if !img.full && img.baseBuildId != rd s Reg.FAB_IMAGE_ID then
    some (8, stBadState, (rd s Reg.FAB_IMAGE_ID).toNat)
  else match placementFault img s with
  | some k => some (9, stBadState, k)
  | none =>
  let run := if img.full then none else s.fab.running
  let roles := match run with | some r => mergedRoles r img | none => img.roles
  let others := match run with
    | some r => r.routes.filter (fun x => !img.roles.any (fun q => q.slot == x.source))
    | none => []
  match check10 roles others img with
  | some k => some (10, stBadState, k)
  | none =>
  match run with
  | some r => (groupFault r img s).map (fun k => (11, stBadState, k))
  | none => none

/-- Table 2.4: the first check that fails, with its status and the argument of PITCH_REFUSED (R62). -/
def pitchCheck (img : PitchImage) (s : State) : Option (Nat × Nat × Nat) :=
  match headFault 0 img.head s with
  | some e => some e
  | none =>
  match sectionsFault img.head with
  | some k => some (7, stBadState, k)
  | none => structureFault img s

/-- R62: a refused image is logged with the check number; nothing is loaded. -/
def refusePitch (chk arg : Nat) (s : State) : State := logN 0x1202 chk arg s

/-! ### Structure changes (R63, R66 to R69) -/

/-- Empty a context of a tile: 1,024 words (Table 2.2). -/
def clearContext (c i sp : Nat) (s : State) : State :=
  let k := tileKey c i sp 0
  forEach (s.fab.tileMem.filter (fun e => k ≤ e.1 && e.1 < k + 1024)) (fun e s => putTile e.1 0 s) s

/-- The shadow context of a tile, as a space of tile memory. -/
def shadowSpace (s : State) (c i : Nat) : Nat := 2 - fld s (Reg.FAB_TILE c i) F.FAB_TILE_ctx

/-- Write an image's contexts, whole, into the shadow contexts of the tiles a plan gives its slots (R63 step 3, R66 step
1). -/
def writeShadowContexts (img : PitchImage) (plan : List (TileRole × Nat)) (s : State) : State :=
  forEach img.contexts (fun x s =>
    match plannedTile plan x.slot with
    | none => s
    | some (c, i) =>
      let sp := shadowSpace s c i
      forEach x.words (fun w s => putTile (tileKey c i sp (w.1 % 1024)) w.2 s) (clearContext c i sp s)) s

/-- The shadow contexts an image's slots would have taken are discarded (R69). -/
def discardContexts (img : PitchImage) (plan : List (TileRole × Nat)) (s : State) : State :=
  forEach img.contexts (fun x s =>
    match plannedTile plan x.slot with
    | none => s
    | some (c, i) => clearContext c i (shadowSpace s c i) s) s

/-- Swap the contexts of a tile. -/
def swapContext (c i : Nat) (s : State) : State :=
  setF s (Reg.FAB_TILE c i) F.FAB_TILE_ctx (1 - fld s (Reg.FAB_TILE c i) F.FAB_TILE_ctx)

/-- R66, step 2: the words named in STATE_TRANSFER reach their new addresses, each with the latest value of its old one. -/
def transferState (img : PitchImage) (s : State) : State :=
  let moves := img.transfers.flatMap (fun t =>
    match tileOfSlot s t.slot.toNat with
    | none => []
    | some (c, i) => (List.range t.count).map (fun k =>
        (tileKey c i 0 ((t.newAddr + k) % 4096), tileWord s (tileKey c i 0 ((t.oldAddr + k) % 4096)))))
  forEach moves (fun m s => putTile m.1 m.2 s) s

/-- Mark the pending bit of the clusters a change concerns; a relocation keeps its own mark. -/
def markPending (img : PitchImage) (b : Bool) (s : State) : State :=
  forEach (changeClusters img) (fun c s =>
    setF s (Reg.FAB_STATUS c) F.FAB_STATUS_pending
      (b2n (b || (s.fab.clusters[Fin.ofNat 4 c]).relocate.isSome))) s

/-- R66, step 1: accept a structure change. The contexts are written into the shadow contexts of the tiles the slots stand
on or will take; sessions of the clusters concerned are abandoned (R74). -/
def beginChange (img : PitchImage) (op : Option (Fin 16)) (restore : Option PitchImage) (s : State) : State :=
  let ch : StructChange := { image := img, opSlot := op, restore := restore }
  let s := { s with fab := { s.fab with change := some ch } }
  let s := forEach (changeClusters img) (fun c s => abandonSession (Fin.ofNat 4 c) s) s
  markPending img true (writeShadowContexts img (planTiles (afterChange ch s.fab.running) s) s)

/-- R69: a cancel before the mirror frame withdraws the change of its operation, and the shadow contexts are discarded. -/
def withdrawChange (op : Fin 16) (s : State) : State :=
  match s.fab.change with
  | none => s
  | some ch =>
    if ch.opSlot = some op ∧ ch.phase = .contextsWritten then
      let s := discardContexts ch.image (planTiles (afterChange ch s.fab.running) s) s
      markPending ch.image false { s with fab := { s.fab with change := none } }
    else s

/-- R66, step 2: the boundary after the contexts are written opens the mirror frame, over which the second port copies every
named word; the copy at the swap point takes what the frame has written since. -/
def openMirror (s : State) : State :=
  match s.fab.change with
  | some ch =>
    if ch.phase = .contextsWritten then
      transferState ch.image { s with fab := { s.fab with change := some { ch with phase := .mirror } } }
    else s
  | none => s

/-- The bits of a register that an image's section sets: its RW and RWL fields. -/
def imageBits (a : Nat) : Word :=
  match findReg a with
  | none => 0
  | some r => r.half a (r.rw ||| r.rwl)

/-- Apply the register words of a section, in the windows that the section may set (a window by the upper half of its
addresses). -/
def applyWords (windows : List Nat) (ws : List (Nat × Word)) (s : State) : State :=
  forEach ws (fun p s =>
    if windows.contains (p.1 / 0x10000) then wr s p.1 (accessWrite (rd s p.1) p.2 (imageBits p.1) 0) else s) s

/-- The words that fix each stage's kind, loop period and ready cycle (R175, R202): fields of CTRL that are read-only on the
bus. -/
def applyStageWords (ws : List (Nat × Word)) (s : State) : State :=
  forEach ws (fun p s => if p.1 / 0x10000 = 0x4006 then wr s p.1 p.2 else s) s

/-- Windows of the four sections that set registers: CLOCKPLAN; SEQUENCER; FILTER_PRESETS; and PINMUX, whose ball functions
reach the front ends, the stages, the elements, the field die, the link and the gates. -/
def clockWindows : List Nat := [0x4002]
def seqWindows : List Nat := [0x4004]
def filtWindows : List Nat := [0x4005]
def pinWindows : List Nat := [0x4004, 0x4006, 0x4007, 0x4008, 0x400B, 0x400C, 0x4014]

/-- PINMUX is applied (R63 step 1): the balls leave the reset state. -/
def applyPinmux (img : PitchImage) (s : State) : State :=
  applyWords pinWindows img.pinWords { s with fab := { s.fab with pinmuxApplied := true } }

/-- CLOCKPLAN is applied: CLK_REF_CFG names the reference of PLL_D, PLL_D and PLL_T lock unless they coast, and the CKOUT
outputs show their alignment (R63 step 2, R99, R100, R106). -/
def applyClockPlan (img : PitchImage) (s : State) : State :=
  let s := applyWords clockWindows img.clockWords s
  let s := setF s Reg.CLK_STATUS F.CLK_STATUS_ref_active (fld s Reg.CLK_REF_CFG F.CLK_REF_CFG_sel)
  let s := forEach [0, 1] (fun n s =>
    setFbit s Reg.CLK_STATUS F.CLK_STATUS_locked n (!fbit s Reg.CLK_STATUS F.CLK_STATUS_coast n)) s
  forEach [0, 1, 2, 3] (fun n s =>
    setF s (Reg.CLK_CKOUT n) F.CLK_CKOUT_aligned (b2n (ckoutAligned (rd s (Reg.CLK_CKOUT n))))) s

/-- SEQUENCER is written: the shadow tables and, with them, the live tables of the SAR cores (R142). -/
def applySequencer (img : PitchImage) (s : State) : State :=
  let s := applyWords seqWindows img.seqWords s
  let live := fun (c : Fin 4) (x : AdcCore) => { x with
    live := (List.range 64).map (fun k => rd s (Reg.ADC_SEQ c k)), liveLast := fld s (Reg.ADC_CTRL c) F.ADC_CTRL_seq_last }
  { s with adc := { s.adc with cores := s.adc.cores.mapFinIdx (fun c x h => live ⟨c, h⟩ x) } }

/-- The addresses that sections with LOCK set (R57); a locked SEQUENCER locks every RWL field of chapter 05, the window
0x4004 (R142). -/
def lockedBy (img : PitchImage) : List Nat :=
  let of := fun (t : BitVec 16) (ws : List (Nat × Word)) => if sectionLocks img.head t then ws.map (·.1) else []
  of 5 img.pinWords ++ of 6 img.clockWords ++ of 7 img.seqWords ++ of 8 img.filtWords ++
    (if sectionLocks img.head 7 then [0x4004] else [])

/-- What a full image sets beside its placement: permissions, locks, FAB_IMAGE_ID and the words of SEQUENCER and
FILTER_PRESETS (R61, R63, R64, R68). -/
def adoptFull (img : PitchImage) (s : State) : State :=
  let s := { s with fab := { s.fab with running := some img, locked := lockedBy img } }
  let s := wr s Reg.FAB_IMAGE_ID img.buildId
  let s := setF s Reg.FAB_PERMIT F.FAB_PERMIT_hold_live (b2n img.holdLive)
  let s := setF s Reg.FAB_PERMIT F.FAB_PERMIT_test_allowed (b2n img.testAllowed)
  applyWords filtWindows img.filtWords (applySequencer img (applyStageWords img.stageWords s))

/-- Tiles of slots that a structure does not hold in their cluster become FREE. -/
def releaseTiles (after : PitchImage) (s : State) : State :=
  forEach ((List.range 4).flatMap (fun c => (List.range 17).map (fun i => (c, i)))) (fun p s =>
    if tileState s p.1 p.2 = tileLive ∧ tileToHave after s p.1 p.2 then clearTile p.1 p.2 tileFree s else s) s

/-- A cluster that had lost its spare takes a tile that has become FREE (R22; log entry 73). -/
def regainSpare (c : Nat) (s : State) : State :=
  match spareOf s c, lowestFree s c with
  | none, some i =>
    let s := setF (setF s (Reg.FAB_TILE c i) F.FAB_TILE_state tileSpare) (Reg.FAB_STATUS c) F.FAB_STATUS_spare_idx i
    setF s (Reg.FAB_STATUS c) F.FAB_STATUS_degraded_no_spare 0
  | _, _ => s

/-- A change takes effect: words transferred, contexts of its slots swapped on the tiles the plan gives them after any
relocation (R69), the structure that runs, and FAB_IMAGE_ID. -/
def applyChange (ch : StructChange) (s : State) : State :=
  let after := afterChange ch s.fab.running
  let plan := planTiles after s
  let mine := fun (r : TileRole) => ch.image.full || ch.image.roles.any (fun q => q.slot == r.slot)
  let s := transferState ch.image (writeShadowContexts ch.image plan s)
  let s := releaseTiles after s
  let s := forEach (plan.filter (fun p => mine p.1)) (fun p s =>
    swapContext p.1.cluster p.2 (placeOn p.1.cluster p.2 p.1 (groupOf after p.1.slot) s)) s
  let s := { s with fab := { s.fab with running := some after } }
  let s := wr s Reg.FAB_IMAGE_ID ch.image.buildId
  forEach [0, 1, 2, 3] regainSpare (if ch.image.full then adoptFull ch.image s else s)

/-- The source of GROUP_SWAPPED (Table 2.7). -/
def swapSource (img : PitchImage) : Nat := if img.full then 0xFFFF else img.group

/-- R66 step 3, R68: the swap point. Relocations due at the same boundary come first (R69). -/
def swapStructure (s : State) : State :=
  match s.fab.change with
  | some ch =>
    if ch.phase = .mirror then
      let s := applyChange ch (forEach (List.finRange 4) applyRelocation s)
      let s := markPending ch.image false { s with fab := { s.fab with change := none } }
      logEvent 0x1203 (swapSource ch.image) ch.image.buildId s
    else s
  | none => s

/-- R63, steps 3 and 4 and the boundary of step 5: SEQUENCER and FILTER_PRESETS, placement, contexts, routes and schedule,
and every shadow context becomes active at once; from a slot (0 for A, 1 for B). -/
def loadFull (img : PitchImage) (slot : Nat) (s : State) : State :=
  let s := placeImage img s
  let plan := planTiles img s
  let s := writeShadowContexts img plan s
  let s := forEach plan (fun p s => swapContext p.1.cluster p.2 s) s
  let s := wr64 (adoptFull img s) Reg.FAB_FRAME_COUNT 0
  logEvent 0x1201 slot img.buildId (forEach (List.finRange 4) clockRequest s)

end Sys2Proof.Machine
end

