-- ==== Sys2Proof/Machine/Filter.lean ====
section
/-! DEFINITION. Filter chains: decimators, median, DC blocker, time tags, restarts and marking (chapter 06). -/

namespace Sys2Proof.Machine

open Sys2Proof

/-! ### Configuration figures (Tables 6.2 and 6.3) -/

/-- Chain states of FILT_CH_n_STATE.state. -/
def chIdle : Nat := 0
def chWaiting : Nat := 1
def chRunning : Nat := 2
def chChanging : Nat := 3

/-- sinc3 OSR of a preset code. -/
def presetOsr (p : Nat) : Nat := match p with | 0 => 16 | 1 => 32 | 2 => 128 | _ => 256

/-- FIR decimation of a preset code; 1 for FAST, which bypasses the FIR. -/
def presetFir (p : Nat) : Nat := match p with | 0 => 1 | 1 => 2 | 2 => 2 | _ => 4

/-- Total decimation D. -/
def presetD (p : Nat) : Nat := presetOsr p * presetFir p

/-- Unsettled outputs of a preset: 3 for FAST, ⌈35 / d⌉ otherwise (R157). -/
def presetUnsettled (p : Nat) : Nat := if p = 0 then 3 else (35 + presetFir p - 1) / presetFir p

/-- (w − 1)/2 of a median code: 0 off, 1, 2, 3 for widths 3, 5, 7 (R159). -/
def medianHalf (m : Nat) : Nat := m

/-- Change a chain. -/
def setChain (n : Fin 24) (x : ChainState) (s : State) : State :=
  { s with filt := { s.filt with chains := s.filt.chains.set n x } }

/-- State of a chain. -/
def chainState (s : State) (n : Nat) : Nat := fld s (Reg.FILT_CH_STATE n) F.FILT_CH_STATE_state

/-- Set a chain's state, with its bit of FILT_PENDING (WAITING or CHANGING). -/
def setChainState (n v : Nat) (s : State) : State :=
  let s := setF s (Reg.FILT_CH_STATE n) F.FILT_CH_STATE_state v
  setFbit s Reg.FILT_PENDING F.FILT_PENDING_pending n (v == chWaiting || v == chChanging)

/-- The MDAT input of a chain (PINMUX, R154); chain n is on MDATn where the image says nothing. -/
def inputOf (img : Option PitchImage) (n : Fin 24) : Nat :=
  match img.bind (fun i => i.chainInput.find? (fun p => p.1 == n)) with
  | some p => p.2
  | none => n

/-- Has the chain a FILTER slot (R154)? -/
def hasSlot (s : State) (n : Nat) : Bool :=
  match s.fab.running with
  | none => false
  | some img => n / 4 < (img.roles.filter (fun r => r.role == 1)).length

/-- The modulator clock code in force for a chain's input (R150). -/
def chainMclk (s : State) (n : Nat) : Nat :=
  ((s.time.mclk[fld s (Reg.FILT_CH_STATE n) F.FILT_CH_STATE_input / 4]?).map (·.val)).getD 15

/-- T_MCLK of a chain in 1.25 ns ticks. -/
def chainTicks (s : State) (n : Nat) : Nat := mclkTicks (chainMclk s n)

/-- The preset and median in force. -/
def actPreset (s : State) (n : Nat) : Nat := fld s (Reg.FILT_CH_STATE n) F.FILT_CH_STATE_act_preset
def actMedian (s : State) (n : Nat) : Nat := fld s (Reg.FILT_CH_STATE n) F.FILT_CH_STATE_act_median

/-- Show τ of both streams in ps (R157, R159, R166). -/
def showDelays (n : Nat) (s : State) : State :=
  let t := chainTicks s n
  let p := actPreset s n
  let osr := presetOsr p
  let head := 25000 * fld s (Reg.FILT_CH_CFG n) F.FILT_CH_CFG_head_delay
  let main := (3 * (osr - 1) + (if p = 0 then 0 else 31 * osr)) * t * 625 +
    medianHalf (actMedian s n) * presetD p * t * 1250 + head
  let s := wr s (Reg.FILT_CH_GDELAY n) (BitVec.ofNat 32 main)
  wr s (Reg.FILT_CH_FAST_DELAY n) (BitVec.ofNat 32 (7 * t * 1250 + head))

/-! ### Anchors (R164) -/

/-- Periods of a chain's clock in a frame. -/
def periodsPerFrame (s : State) (n : Nat) : Nat := 800000 / chainTicks s n

/-- L of the main stream under a preset, in ms. -/
def anchorL (s : State) (n p : Nat) : Nat := presetD p / Nat.gcd (presetD p) (periodsPerFrame s n)

/-- L_f of the fast stream, in ms. -/
def anchorLf (s : State) (n : Nat) : Nat := 8 / Nat.gcd 8 (periodsPerFrame s n)

/-- The preset and median that the chain's next restart adopts. -/
def nextPreset (s : State) (n : Nat) : Nat := fld s (Reg.FILT_CH_CFG n) F.FILT_CH_CFG_preset
def nextMedian (s : State) (n : Nat) : Nat := fld s (Reg.FILT_CH_CFG n) F.FILT_CH_CFG_median

/-- The modulator clock of a chain under the codes of CLK_MCLK_DIV as written, which the next boundary puts into force. -/
def nextTicks (s : State) (n : Nat) : Nat :=
  mclkTicks (mclkCode (rd s Reg.CLK_MCLK_DIV) (fld s (Reg.FILT_CH_STATE n) F.FILT_CH_STATE_mclk))

/-- Begin new main windows at a boundary of the counter, in ms (R168): the integrators run on, and the first outputs are
marked by the count of the preset and the median. -/
def restartMain (n : Fin 24) (ms cause : Nat) (s : State) : State :=
  let p := nextPreset s n
  let md := nextMedian s n
  let s := setF s (Reg.FILT_CH_STATE n) F.FILT_CH_STATE_act_preset p
  let s := setF s (Reg.FILT_CH_STATE n) F.FILT_CH_STATE_act_median md
  let s := setF s (Reg.FILT_CH_STATE n) F.FILT_CH_STATE_unsettled_left (presetUnsettled p + medianHalf md)
  let s := setChain n { s.filt.chains[n] with
    restart := none, anchor := ms * 4000000, bits := 0, osrPhase := 0, firPhase := 0 } s
  logN 0x3101 n cause (showDelays n (setChainState n chRunning s))

/-- Begin new fast windows. -/
def restartFast (n : Fin 24) (ms : Nat) (s : State) : State :=
  let s := showDelays n (setF s (Reg.FILT_CH_STATE n) F.FILT_CH_STATE_fast_unsettled 1)
  setChain n { s.filt.chains[n] with
    fastRestart := false, fastAnchor := ms * 4000000, fastBits := 0, fastPhase := 0, fastLeft := 2 } s

/-- Restart what a chain has pending, where `ms` is an anchor boundary of it. -/
def tryRestart (n : Fin 24) (ms : Nat) (s : State) : State :=
  let s := match s.filt.chains[n].restart with
    | some cause => if ms % anchorL s n (nextPreset s n) = 0 then restartMain n ms cause s else s
    | none => s
  if s.filt.chains[n].fastRestart && ms % anchorLf s n == 0 then restartFast n ms s else s

/-- A change takes effect that stops a chain's outputs until it restarts (Table 6.5); the delays in use follow the clock of
its input. -/
def waitChain (n : Fin 24) (cause : Nat) (fast : Bool) (s : State) : State :=
  if chainState s n = chIdle then s
  else
    let x := s.filt.chains[n]
    showDelays n (setChainState n chWaiting (setChain n { x with
      restart := some cause, fastRestart := x.fastRestart || fast } s))

/-- Set or clear FAULT of a chain, in its state and in FILT_STATUS (R172). -/
def setFault (n : Fin 24) (b : Bool) (s : State) : State :=
  setFbit (setF s (Reg.FILT_CH_STATE n) F.FILT_CH_STATE_fault (b2n b)) Reg.FILT_STATUS F.FILT_STATUS_fault n b

/-- A chain goes IDLE, m set to 0. -/
def idleChain (n : Fin 24) (s : State) : State :=
  let s := setChain n { s.filt.chains[n] with restart := none, fastRestart := false, m := 0 } s
  setChainState n chIdle (setFault n false s)

/-- A chain's input is enabled: it leaves IDLE with m at 0 and waits (R160, Table 6.5). -/
def enableChain (n : Fin 24) (cause : Nat) (s : State) : State :=
  if hasSlot s n then
    let s := setChain n { s.filt.chains[n] with m := 0 } s
    let s := setChainState n chWaiting s
    waitChain n cause true s
  else s

/-- The chains fed by an input. -/
def chainsOf (s : State) (i : Nat) : List (Fin 24) :=
  (List.finRange 24).filter (fun (n : Fin 24) => fld s (Reg.FILT_CH_STATE n) F.FILT_CH_STATE_input == i)

/-- R151: the enable and delay written for an input take effect at the boundary. -/
def applyModInput (i : Fin 24) (s : State) : State :=
  let w := rd s (Reg.ADC_MOD_CFG i)
  let en := getF w F.ADC_MOD_CFG_en == 1
  let dl := getF w F.ADC_MOD_CFG_delay
  let x := s.adc.mods[i]
  if x.en = en ∧ x.delay = dl then s
  else
    let s := { s with adc := { s.adc with mods := s.adc.mods.set i { x with
      en := en, delay := dl, stuckFrom := if en then x.stuckFrom else none } } }
    if en ∧ !x.en then forEach (chainsOf s i) (fun n s => enableChain n 1 s) s
    else if !en ∧ x.en then forEach (chainsOf s i) idleChain s
    else if en then forEach (chainsOf s i) (fun n s => waitChain n 2 true s) s
    else s

/-- R168: the chains whose windows a move of the counter by whole milliseconds displaces. -/
def applyTimeStep (s : State) : State :=
  let ms := s.filt.stepMs
  if ms = 0 then s
  else
    let s := { s with filt := { s.filt with stepMs := 0 } }
    forEach (List.finRange 24) (fun n s =>
      if ms % (anchorL s n (nextPreset s n) : Int) ≠ 0 then
        waitChain n 5 (ms % (anchorLf s n : Int) != 0) s
      else s) s

/-- What a frame boundary at millisecond `ms` does to the chains: enables and delays (R151), modulator clocks (R105),
moves of the counter (R168), then the restarts anchored there. -/
def chainsAtBoundary (ms : Nat) (changed : List Nat) (s : State) : State :=
  let s := forEach (List.finRange 24) applyModInput s
  let s := forEach (List.finRange 24) (fun n s =>
    if changed.contains (fld s (Reg.FILT_CH_STATE n) F.FILT_CH_STATE_mclk) then
      waitChain n 3 true s
    else s) s
  let s := applyTimeStep s
  forEach (List.finRange 24) (fun n s => tryRestart n ms s) s

/-- The crossbar gives a chain its input, with that input's clock; FAULT follows whether the input is stuck (R154, R172). -/
def connectChain (n : Fin 24) (i : Nat) (s : State) : State :=
  let s := setF s (Reg.FILT_CH_STATE n) F.FILT_CH_STATE_input i
  let s := setF s (Reg.FILT_CH_STATE n) F.FILT_CH_STATE_mclk (i / 4)
  setFault n (chainState s n != chIdle && (s.adc.mods[i]?).any (fun x => x.stuckFrom.isSome)) s

/-- A chain after a full image takes effect (R154, R170): without a slot or with its input disabled it idles; one whose
input, clock code, preset and median are unchanged runs on, and a change of preset or median that was pending is withdrawn
with it; any other restarts with cause 6. `clock` is the code it ran on. -/
def chainAfterImage (clock : Nat) (n : Fin 24) (s : State) : State :=
  let i := inputOf s.fab.running n
  let old := fld s (Reg.FILT_CH_STATE n) F.FILT_CH_STATE_input
  let s := connectChain n i s
  let live : Bool := (s.adc.mods[i]?).any (·.en)
  let same := old = i ∧ clock = chainMclk s n ∧ nextPreset s n = actPreset s n ∧ nextMedian s n = actMedian s n
  if !hasSlot s n ∨ !live then (if chainState s n = chIdle then s else idleChain n s)
  else if chainState s n = chIdle then connectChain n i (enableChain n 6 s)
  else if !same then waitChain n 6 true s
  else if chainState s n = chChanging then
    setChainState n chRunning (setChain n { s.filt.chains[n] with restart := none } s)
  else s

/-- The chains after a full image takes effect; `before` is the state it found. -/
def chainsAfterImage (before s : State) : State :=
  forEach (List.finRange 24) (fun n s => chainAfterImage (chainMclk before n) n s) s

/-! ### Decimation (R155 to R162) -/

/-- A bit as +1 or −1. -/
def bitVal (b : Bool) : Word := if b then 1 else 0xFFFFFFFF

/-- Saturate to Q15 (R155). -/
def satQ15 (v : Int) : Int := max (-32768) (min 32767 v)

/-- Nearest, ties up, at a shift of n bits (R179). -/
def roundShift (v : Int) (n : Nat) : Int := (v + 2 ^ (n - 1)) / 2 ^ n

/-- Record a saturation of a store to Q15: the chain's bit of FILT_SAT, the first logged (R173). -/
def noteSat (n : Nat) (fast sat : Bool) (s : State) : State :=
  if sat then
    let was := fbit s Reg.FILT_SAT F.FILT_SAT_sat n
    whenS (!was) (logN 0x3103 n (b2n fast)) (setFbit s Reg.FILT_SAT F.FILT_SAT_sat n true)
  else s

/-- Coefficient k of a preset's FIR in 1/2^24. The ROM's coefficients are free (log entry 9) but for symmetry (R158) and a
gain of 1 for a constant input, by which a window of all ones gives +1.0 (R155): the middle pair makes up the sum. -/
def firCoeff (preset k : Nat) : Int :=
  let j := min k (31 - k)
  if j < 15 then Config.firCoeff preset j
  else 8388608 - ((List.range 15).map (Config.firCoeff preset)).sum

/-- The FIR's output in 1/2^48: its 32 symmetric coefficients on the delay line (R158). -/
def firOut (preset : Nat) (line : List Int) : Int := (line.zipIdx.map (fun p => firCoeff preset p.2 * p.1)).sum

/-- k of the DC blocker for a corner in 0.1 Hz and an output period in 1.25 ns ticks: 2π·fc / f_out within ±2 %, the part's
own value in those bounds being free (R160, log entry 9). -/
def dcbK (corner ticks : Nat) : Rat :=
  let e : Rat := 2 * corner * ticks / 8000000000
  let lo := e * (314159265 : Rat) / 100000000 * 98 / 100
  let hi := e * (314159266 : Rat) / 100000000 * 102 / 100
  let k := Config.dcbK corner ticks
  if lo ≤ k ∧ k ≤ hi then k else lo

/-- The median of the newest 2h + 1 of the line (R159). -/
def medianOf (h : Nat) (line : List Int) : Int :=
  let w := (line.take (2 * h + 1)).mergeSort
  (w[h]?).getD 0

/-- The represented instant of a window end less τ, in ps. -/
def represented (endQ tauPs : Nat) : Nat := endQ * 250 - tauPs

/-- The tag of a represented instant in ps (R166). -/
def tagOfPs (ps : Nat) : Nat := (ps + 12500) / 25000 % 65536

/-- The DC estimate, in 1/2^39, after an output of 1/2^48: m + k·(x − m), stored to 40 bits, which saturate (R160, R178). -/
def dcEstimate (k : Rat) (v m : Int) : Int :=
  max (-549755813888) (min 549755813887 (m + (k * ((v - m * 512 : Int) : Rat) / 512 + 1 / 2).floor))

/-- A main output `v` (1/2^48) of chain `n`, complete at its window end: median, DC blocker, the store to Q15, tag and marks
(R155, R159, R160, R166, R168). -/
def mainOutput (n : Fin 24) (raw : Int) (s : State) : State :=
  let x := s.filt.chains[n]
  let t := chainTicks s n
  let endQ := x.anchor + x.bits * 5 * t
  let s := advanceTo s endQ
  let med := (raw :: x.med).take 7
  let v := medianOf (medianHalf (actMedian s n)) med
  let left := fld s (Reg.FILT_CH_STATE n) F.FILT_CH_STATE_unsettled_left
  let uns := decide (0 < left)
  let flt := flg s (Reg.FILT_CH_STATE n) F.FILT_CH_STATE_fault
  let corner := fld s (Reg.FILT_CH_CFG n) F.FILT_CH_CFG_dcb_corner
  let frozen := flg s (Reg.FILT_CH_CFG n) F.FILT_CH_CFG_dcb_freeze
  let s := setF s (Reg.FILT_CH_STATE n) F.FILT_CH_STATE_frozen (b2n frozen)
  let yraw := roundShift (if corner = 0 then v else v - x.m * 512) 33
  let y := satQ15 yraw
  let s := noteSat n false (y != yraw) s
  let m := if corner = 0 ∨ frozen ∨ uns ∨ flt then x.m
    else dcEstimate (dcbK corner (presetD (actPreset s n) * t)) v x.m
  let ps := represented endQ (rd s (Reg.FILT_CH_GDELAY n)).toNat
  let w := BitVec.ofInt 16 y ++ BitVec.ofNat 16 (tagOfPs ps)
  let s := setF s (Reg.FILT_CH_STATE n) F.FILT_CH_STATE_unsettled_left (left - 1)
  let s := wr s (Reg.FILT_CH_LAST n) w
  let s := wr64 s (Reg.FILT_CH_STAMP n) (BitVec.ofInt 64 (nearest ps 1000))
  setChain n { s.filt.chains[n] with med := med, m := m, mainNew := some ⟨w, true, uns, holdoverNow s, flt⟩ } s

/-- A completed sinc3 output enters the FIR, or in FAST is the output itself. -/
def sincOutput (n : Fin 24) (y : Int) (s : State) : State :=
  let p := actPreset s n
  if p = 0 then mainOutput n (y * 2 ^ 36) s
  else
    let x := s.filt.chains[n]
    let line := (y * (16777216 / presetOsr p ^ 3 : Nat) :: x.line).take 32
    let ph := x.firPhase + 1
    if presetFir p ≤ ph then
      mainOutput n (firOut p line) (setChain n { x with line := line, firPhase := 0 } s)
    else setChain n { x with line := line, firPhase := ph } s

/-- One modulator bit of the main stream: the integrators always run; a RUNNING or CHANGING chain decimates. -/
def mainBit (n : Fin 24) (b : Bool) (s : State) : State :=
  let x := s.filt.chains[n]
  let i1 := x.i1 + bitVal b
  let i2 := x.i2 + i1
  let i3 := x.i3 + i2
  let x := { x with i1 := i1, i2 := i2, i3 := i3 }
  let st := chainState s n
  if st = chRunning ∨ st = chChanging then
    let x := { x with bits := x.bits + 1, osrPhase := x.osrPhase + 1 }
    if presetOsr (actPreset s n) ≤ x.osrPhase then
      let c1 := i3 - x.z1
      let c2 := c1 - x.z2
      let c3 := c2 - x.z3
      sincOutput n c3.toInt (setChain n { x with z1 := i3, z2 := c1, z3 := c2, osrPhase := 0 } s)
    else setChain n x s
  else setChain n x s

/-- A completed fast output (R162, R166): sinc2 at OSR 8, a density of 1 being +1.0. -/
def fastOut (n : Fin 24) (y : Int) (s : State) : State :=
  let x := s.filt.chains[n]
  let t := chainTicks s n
  let endQ := x.fastAnchor + x.fastBits * 5 * t
  let s := advanceTo s endQ
  let raw := y * 512
  let v := satQ15 raw
  let s := noteSat n true (v != raw) s
  let flt := flg s (Reg.FILT_CH_STATE n) F.FILT_CH_STATE_fault
  let ps := represented endQ (rd s (Reg.FILT_CH_FAST_DELAY n)).toNat
  let w := BitVec.ofInt 16 v ++ BitVec.ofNat 16 (tagOfPs ps)
  let s := wr s (Reg.FILT_CH_LAST_FAST n) w
  let left := x.fastLeft - 1
  let s := setF s (Reg.FILT_CH_STATE n) F.FILT_CH_STATE_fast_unsettled (b2n (decide (0 < left)))
  setChain n { s.filt.chains[n] with
    fastLeft := left, fastNew := some ⟨w, true, decide (0 < x.fastLeft), holdoverNow s, flt⟩ } s

/-- One modulator bit of the fast stream; the fast windows run unless they await their own anchor. -/
def fastBit (n : Fin 24) (b : Bool) (s : State) : State :=
  let x := s.filt.chains[n]
  let j1 := x.j1 + bitVal b
  let j2 := x.j2 + j1
  let x := { x with j1 := j1, j2 := j2 }
  if x.fastRestart then setChain n x s
  else
    let x := { x with fastBits := x.fastBits + 1, fastPhase := x.fastPhase + 1 }
    if 8 ≤ x.fastPhase then
      let c1 := j2 - x.y1
      let c2 := c1 - x.y2
      fastOut n c2.toInt (setChain n { x with y1 := j2, y2 := c1, fastPhase := 0 } s)
    else setChain n x s

/-- A bit of an input reaches every chain the crossbar feeds from it, and both streams of each run on it (R154, R162). -/
def inputBit (i : Nat) (b : Bool) (s : State) : State :=
  forEach (chainsOf s i) (fun n s =>
    if chainState s n = chIdle ∨ chainTicks s n = 0 then s else fastBit n b (mainBit n b s)) s

/-- The bits that a chain's input delivers; a chain that is IDLE gets none. -/
def feedChain (n : Fin 24) (bits : List Bool) (s : State) : State :=
  if chainState s n = chIdle then s
  else forEach bits (inputBit (fld s (Reg.FILT_CH_STATE n) F.FILT_CH_STATE_input)) s

/-- R155 to R160: the bits up to a main output of a chain, and the outputs they complete. -/
def execChainOutput (n : Fin 24) (bits : List Bool) (s : State) : Out := .next (feedChain n bits s)

/-- R162: the bits up to a fast output of a chain, which are bits of the main stream as well. -/
def execFastOutput (n : Fin 24) (bits : List Bool) (s : State) : Out := .next (feedChain n bits s)

/-- The word a service drives: the output completed since the previous service with VALID 1, else the word with VALID 0. -/
def servedWord (new : Option RidgeWord) (old : RidgeWord) : RidgeWord := new.getD { old with valid := false }

/-- R163: a service drives the outputs completed since the previous one; destinations store only words with VALID 1. -/
def serveChain (n : Fin 24) (s : State) : State :=
  let x := s.filt.chains[n]
  setChain n { x with
    mainWord := servedWord x.mainNew x.mainWord, mainNew := none,
    fastWord := servedWord x.fastNew x.fastWord, fastNew := none } s

/-- R163: the FILTER tile of four chains serves them. -/
def execFilterService (k : Fin 6) (s : State) : Out :=
  .next (forEach [0, 1, 2, 3] (fun (j : Nat) s => serveChain (Fin.ofNat 24 (4 * k + j)) s) s)

/-! ### Stuck streams (R152, R172) -/

/-- R152: an enabled input has held one level for 1,024 periods; once for each run of equal bits. Its chains set FAULT
(R172). -/
def execModStuck (i : Fin 24) (level : Bool) (s : State) : Out :=
  let x := s.adc.mods[i]
  if x.en ∧ x.stuckFrom.isNone then
    let t := mclkTicks (((s.time.mclk[i.val / 4]?).map (·.val)).getD 15)
    let s := { s with adc := { s.adc with mods := s.adc.mods.set i { x with
      stuckFrom := some (localNs s - 1024 * t * 5 / 4) } } }
    let s := setFbit s Reg.ADC_MOD_STATUS F.ADC_MOD_STATUS_stuck i true
    let s := logN 0x3006 i (b2n level) s
    .next (forEach (chainsOf s i) (fun n s =>
      if chainState s n = chIdle then s else setFault n true s) s)
  else .next s

/-- R172: a stuck input changes level: FAULT clears, the outputs are marked in the counts of a restart, and the windows
keep their anchor. -/
def execFiltStreamRecovered (i : Fin 24) (s : State) : Out :=
  match s.adc.mods[i].stuckFrom with
  | none => .next s
  | some t0 =>
    let s := { s with adc := { s.adc with mods := s.adc.mods.set i { s.adc.mods[i] with stuckFrom := none } } }
    let us := min 0xFFFFFFFF ((localNs s - t0) / 1000)
    .next (forEach (chainsOf s i) (fun n s =>
      if flg s (Reg.FILT_CH_STATE n) F.FILT_CH_STATE_fault then
        let s := setFault n false s
        let s := setF s (Reg.FILT_CH_STATE n) F.FILT_CH_STATE_unsettled_left
          (presetUnsettled (actPreset s n) + medianHalf (actMedian s n))
        let s := setF s (Reg.FILT_CH_STATE n) F.FILT_CH_STATE_fast_unsettled 1
        logN 0x3102 n us (setChain n { s.filt.chains[n] with fastLeft := 2 } s)
      else s) s)

/-! ### Writes (R168 to R171) -/

/-- A write ignored under R170 or R171. -/
def filtErr (s : State) : State := setF s Reg.FILT_STATUS F.FILT_STATUS_cfg_err 1

/-- Is the chain routed to PHASOR tiles (R171)? -/
def toPhasor (s : State) (n : Fin 24) : Bool :=
  match s.fab.running with
  | none => false
  | some img => img.phasorChains.contains n

/-- Does an output rate of 800 MHz / (ticks × D) fall below 66.56 kS/s (R171, R252)? A clock held low gives no
output (0 ticks). -/
def rateTooLow (ticks d : Nat) : Bool := ticks == 0 || 800000000 < 66560 * ticks * d

/-- A preset or median written while the chain runs waits for its anchor; one equal to the active configuration withdraws
the pending change (R168, R169). -/
def settlePending (n : Fin 24) (s : State) : State :=
  let st := chainState s n
  let same := nextPreset s n = actPreset s n ∧ nextMedian s n = actMedian s n
  if st = chRunning ∨ st = chChanging then
    if same then setChainState n chRunning (setChain n { s.filt.chains[n] with restart := none } s)
    else setChainState n chChanging (setChain n { s.filt.chains[n] with restart := some 4 } s)
  else s

/-- A write of FILT_CH_n_CFG (R160, R166, R168, R170, R171). -/
def writeFiltCfg (n : Fin 24) (v : Word) (s : State) : State :=
  let a := Reg.FILT_CH_CFG n
  let s := setF s a F.FILT_CH_CFG_head_delay (getF v F.FILT_CH_CFG_head_delay)
  let s := setF s a F.FILT_CH_CFG_dcb_freeze (getF v F.FILT_CH_CFG_dcb_freeze)
  let s := if lockedAt s a then s
    else
      let s := if 100 < getF v F.FILT_CH_CFG_dcb_corner then filtErr s
        else setF s a F.FILT_CH_CFG_dcb_corner (getF v F.FILT_CH_CFG_dcb_corner)
      let s := setF s a F.FILT_CH_CFG_median (getF v F.FILT_CH_CFG_median)
      let p := getF v F.FILT_CH_CFG_preset
      let s := if p ≠ nextPreset s n ∧ toPhasor s n ∧ rateTooLow (nextTicks s n) (presetD p) then filtErr s
        else setF s a F.FILT_CH_CFG_preset p
      settlePending n s
  showDelays n s

/-- Would these modulator clock codes take a chain that feeds PHASOR tiles below its rate (R171)? -/
def mclkTooLow (v : Word) (s : State) : Bool :=
  (List.finRange 24).any (fun n => toPhasor s n &&
    rateTooLow (mclkTicks (mclkCode v (fld s (Reg.FILT_CH_STATE n) F.FILT_CH_STATE_mclk))) (presetD (nextPreset s n)))

end Sys2Proof.Machine
end

