-- ==== Sys2Proof/Machine/Net.lean ====
section
/-! DEFINITION. Train networks, field buses and the fault-injection units (chapter 14), and the closing of command channels. -/

namespace Sys2Proof.Machine

open Sys2Proof

/-- Change the networks. -/
def setNet (x : NetState) (s : State) : State := { s with net := x }

/-! ### Ethernet ports (R392 to R394) -/

/-- Is the link of a port up? -/
def linkIsUp (s : State) (p : Fin 3) : Bool :=
  match p with
  | 0 => fld s Reg.NET_STATUS F.NET_STATUS_speed0 != 0
  | 1 => fld s Reg.NET_STATUS F.NET_STATUS_speed1 != 0
  | _ => flg s Reg.NET_STATUS F.NET_STATUS_link2

/-- Show the link of a port: 0 down, 1 at 100 Mb/s, 2 at 1000 Mb/s. -/
def showLink (p : Fin 3) (speed : Nat) (s : State) : State :=
  match p with
  | 0 => setF s Reg.NET_STATUS F.NET_STATUS_speed0 speed
  | 1 => setF s Reg.NET_STATUS F.NET_STATUS_speed1 speed
  | _ => setF s Reg.NET_STATUS F.NET_STATUS_link2 (min 1 speed)

/-- LINK_UP: ETH2 runs at 100 Mb/s only (R396). -/
def execLinkUp (p : Fin 3) (gigabit : Bool) (s : State) : Out :=
  let fast := gigabit && p != 2
  if linkIsUp s p then .next s
  else .next (logN 0xB002 p (if fast then 1000 else 100) (showLink p (if fast then 2 else 1) s))

/-- LINK_DOWN: frames for that side are discarded (R393). -/
def execLinkDown (p : Fin 3) (s : State) : Out :=
  if !linkIsUp s p then .next s
  else
    let s := logN 0xB001 p 0 (showLink p 0 s)
    if h : p.val < 2 then
      .next (setNet { s.net with queues := s.net.queues.set p.val (Vector.replicate 4 []) } s)
    else .next s

/-- Is the part in PRP mode? -/
def prpMode (s : State) : Bool := flg s Reg.NET_STATUS F.NET_STATUS_mode

/-- PRP_LAN_LOST: 1 s after the last frame of the LAN. -/
def execPrpLanLost (l : Fin 2) (s : State) : Out :=
  if prpMode s && !fbit s Reg.NET_BUS_STATE F.NET_BUS_STATE_prp_lost l then
    let s := match s.net.lanAt[l] with | none => s | some t => reachLocal (t + 1000000000) s
    .next (logN 0xB003 l 0 (setFbit s Reg.NET_BUS_STATE F.NET_BUS_STATE_prp_lost l true))
  else .next s

/-- PRP_LAN_RESTORED. -/
def execPrpLanRestored (l : Fin 2) (s : State) : Out :=
  if fbit s Reg.NET_BUS_STATE F.NET_BUS_STATE_prp_lost l then
    .next (logN 0xB004 l 0 (setFbit s Reg.NET_BUS_STATE F.NET_BUS_STATE_prp_lost l false))
  else .next s

/-! ### Fault-injection units (R403 to R405) -/

/-- States of NET_FI_STATUS. -/
def fiIdle : Nat := 0
def fiArmed : Nat := 1
def fiActive : Nat := 2
def fiDone : Nat := 3

/-- The state of a unit. -/
def fiState (s : State) (u : Nat) : Nat := getF (rd s Reg.NET_FI_STATUS) ⟨2 * u, 2⟩

/-- Set the state of a unit. -/
def setFiState (u n : Nat) (s : State) : State := wr s Reg.NET_FI_STATUS (putF (rd s Reg.NET_FI_STATUS) ⟨2 * u, 2⟩ n)

/-- Change a unit. -/
def setFi (u : Fin 10) (x : FiUnit) (s : State) : State := setNet { s.net with fi := s.net.fi.set u x } s

/-- Let frames pass on from a unit. -/
def fiOut (u : Fin 10) (l : List PathFrame) (s : State) : State := setFi u { s.net.fi[u] with out := l } s

/-- Invert the bit at an offset of a frame (R403, log entry 28). -/
def flipBit (u : Nat) (off : Nat) (l : List Byte) : List Byte :=
  l.mapIdx (fun i b => if i = off / 8 then b ^^^ (1#8 <<< (Config.fiBit u (Fin.ofNat 8 off)).val) else b)

/-- The action of a unit on a frame. Codes 0 and 6 to 15 have no effect: the frame passes. What an altered frame says to its
receiver is not modelled: it stands for no command (log entry 59). -/
def fiAct (u : Fin 10) (f : PathFrame) (s : State) : State :=
  let arg := fld s (Reg.NET_FI_PARAM u) F.NET_FI_PARAM_arg
  let x := s.net.fi[u]
  match fld s (Reg.NET_FI_CFG u) F.NET_FI_CFG_action with
  | 1 => fiOut u [] s
  | 2 => fiOut u [{ f with frame := { f.frame with bytes := flipBit u arg f.frame.bytes, crcOk := true }, load := none }] s
  | 3 => fiOut u [{ f with frame := { f.frame with crcOk := false }, load := f.badLoad }] s
  | 4 =>
    let g := x.group ++ [f]
    if min 8 (max 2 arg) ≤ g.length then setFi u { x with group := [], out := g.reverse } s
    else setFi u { x with group := g, out := [] } s
  | 5 =>
    let t := localNs s + 1000 * min 10000 (fld s (Reg.NET_FI_PARAM u) F.NET_FI_PARAM_delay)
    let last := (x.delayed.getLast?.map (·.2)).getD 0
    setFi u { x with delayed := x.delayed ++ [(f, max t last)], out := [] } s
  | _ => fiOut u [f] s

/-- A frame the unit does not act on: it passes, behind delayed frames where there are any. -/
def fiPass (u : Fin 10) (f : PathFrame) (s : State) : State :=
  let x := s.net.fi[u]
  match x.delayed.getLast? with
  | none => fiOut u [f] s
  | some l => setFi u { x with delayed := x.delayed ++ [(f, l.2)], out := [] } s

/-- The count is reached: DONE; a partial reorder group is released. -/
def fiFinish (u : Fin 10) (acted : Nat) (s : State) : State :=
  let x := s.net.fi[u]
  let s := setFi u { x with group := [], out := x.out ++ x.group.reverse } s
  logN 0xB00A u acted (setFiState u fiDone s)

/-- Does an active unit take a frame of its direction: does its match field, under the mask, equal the value? -/
def fiHit (s : State) (u : Fin 10) (f : PathFrame) : Bool :=
  let mask := fld s (Reg.NET_FI_MATCH u) F.NET_FI_MATCH_mask
  fiState s u == fiActive &&
    (mask == 0 || f.field.toNat &&& mask == fld s (Reg.NET_FI_MATCH u) F.NET_FI_MATCH_value)

/-- A frame meets a unit: of the frames of its direction that match, an active unit acts on every n-th until it has acted on
`count`. What passes on stands in `out`. -/
def passUnit (u : Fin 10) (f : PathFrame) (s : State) : State :=
  let cfg := Reg.NET_FI_CFG u
  if flg s cfg F.NET_FI_CFG_dir ≠ f.receive then fiOut u [f] s
  else if !fiHit s u f then fiPass u f s
  else
    let n := (s.net.fi[u]).matched + 1
    let s := setFi u { s.net.fi[u] with matched := n } s
    if n % max 1 (fld s cfg F.NET_FI_CFG_every) ≠ 0 then fiPass u f s
    else
      let acted := fld s (Reg.NET_FI_DONE u) F.NET_FI_DONE_acted + 1
      let s := setF (fiAct u f s) (Reg.NET_FI_DONE u) F.NET_FI_DONE_acted acted
      whenS (max 1 (fld s cfg F.NET_FI_CFG_count) ≤ acted) (fiFinish u acted) s

/-! ### The switch and the two LANs (R393, R394, R404) -/

/-- The unit of an Ethernet port. -/
def portUnit (p : Fin 2) : Fin 10 := ⟨p.val, by omega⟩

/-- The priority of a frame's IEEE 802.1Q tag; none for an untagged frame. -/
def pcpOf (l : List Byte) : Option (Fin 8) :=
  match l[12]?, l[13]?, l[14]? with
  | some a, some b, some c => if a = 0x81 ∧ b = 0x00 then some (Fin.ofNat 8 (c.toNat / 32)) else none
  | _, _, _ => none

/-- R393: the egress queue of a frame. -/
def queueOf (f : PathFrame) : Fin 4 :=
  match f.pcp with | none => 0 | some n => Fin.ofNat 4 (n.val / 2)

/-- The ns that a frame keeps a port busy: preamble, frame, FCS and gap at the link's rate (log entry 101). -/
def frameNs (s : State) (p : Fin 2) (f : PathFrame) : Nat :=
  (f.frame.bytes.length + 24) * (if fld s Reg.NET_STATUS (if p = 0 then F.NET_STATUS_speed0 else F.NET_STATUS_speed1) = 2
    then 8 else 80)

/-- R118, R404: a frame leaves a port, stamped after the unit; one that the switch forwards has its residence taken. -/
def leavePort (p : Fin 2) (f : PathFrame) (s : State) : State :=
  let f := { f with stamp := now s, residence := f.residence.map (fun _ => (now s - f.stamp).toNat) }
  setNet { s.net with
    lastSent := s.net.lastSent.set p (some f), freeAt := s.net.freeAt.set p (localNs s + frameNs s p f) } s

/-- A frame goes out by a port, through the port's unit. -/
def transmit (p : Fin 2) (f : PathFrame) (s : State) : State :=
  let s := passUnit (portUnit p) f s
  forEach (s.net.fi[portUnit p]).out (leavePort p) s

/-- The egress queue that a port serves next: the highest that holds a frame. -/
def nextQueue (s : State) (p : Fin 2) : Option (Fin 4) :=
  [(3 : Fin 4), 2, 1, 0].find? (fun q => !((s.net.queues[p])[q]).isEmpty)

/-- A free port whose link is up sends the first frame of its highest queue. -/
def drainPort (p : Fin 2) (s : State) : State :=
  if !linkIsUp s ⟨p.val, by omega⟩ ∨ localNs s < s.net.freeAt[p] then s
  else
    match nextQueue s p with
    | none => s
    | some q =>
      match (s.net.queues[p])[q] with
      | [] => s
      | f :: l => transmit p f (setNet { s.net with queues := s.net.queues.set p ((s.net.queues[p]).set q l) } s)

/-- Both egress ports. -/
def drainPorts (s : State) : State := drainPort 1 (drainPort 0 s)

/-- R393: a frame for a side joins its egress queue there; with the link down it is discarded. -/
def enqueue (p : Fin 2) (f : PathFrame) (s : State) : State :=
  if !linkIsUp s ⟨p.val, by omega⟩ then s
  else
    let q := queueOf f
    drainPort p (setNet { s.net with
      queues := s.net.queues.set p ((s.net.queues[p]).set q ((s.net.queues[p])[q] ++ [f])) } s)

/-- R393, R394: a frame of the part's own port: to both sides in LINE mode, on both LANs with one sequence number in PRP
mode. -/
def ownSend (f : PathFrame) (s : State) : State :=
  let f := { f with receive := false, residence := none }
  if prpMode s then
    let f := { f with frame := { f.frame with prp := some (0, s.net.prpSeq) } }
    let s := setNet { s.net with prpSeq := s.net.prpSeq + 1 } s
    forEach (List.finRange 2) (fun (p : Fin 2) s => if linkIsUp s ⟨p.val, by omega⟩ then transmit p f s else s) s
  else enqueue 1 f (enqueue 0 f s)

/-- A frame reaches the part: the command it stands for, where it has one, is carried out. -/
def deliver (f : PathFrame) (s : State) : State :=
  setNet { s.net with
    delivered := some f
    arrived := match f.load with | none => s.net.arrived | some i => s.net.arrived ++ [i] } s

/-- R394: the sequence numbers seen of a source. -/
def prpWindow (s : State) (src : Nat) : List (BitVec 16) :=
  ((s.net.prpSeen.find? (fun e => e.1 == src)).map (·.2)).getD []

/-- R394: a frame of a source and sequence is kept once; the second is a duplicate within the window of 256. -/
def prpReceive (f : PathFrame) (s : State) : State :=
  match f.frame.prp with
  | none => deliver f s
  | some (src, n) =>
    let w := prpWindow s src
    if w.contains n then s
    else deliver f (setNet { s.net with
      prpSeen := s.net.prpSeen.filter (fun e => e.1 != src) ++ [(src, (n :: w).take 256)] } s)

/-- A frame has come on a LAN: the first after a loss is logged (R394). -/
def lanHeard (p : Fin 2) (s : State) : State :=
  let s := setNet { s.net with lanAt := s.net.lanAt.set p (some (localNs s)) } s
  if prpMode s && fbit s Reg.NET_BUS_STATE F.NET_BUS_STATE_prp_lost p then
    logN 0xB004 p 0 (setFbit s Reg.NET_BUS_STATE F.NET_BUS_STATE_prp_lost p false)
  else s

/-- A frame that a port's unit let in: a bad FCS discards it; in LINE mode it is delivered, and forwarded to the other side
unless it is the part's alone; in PRP mode no frame passes between the LANs. -/
def portReceive (p : Fin 2) (f : PathFrame) (s : State) : State :=
  if !f.frame.crcOk then s
  else
    let s := lanHeard p s
    if prpMode s then prpReceive f s
    else
      let s := deliver f s
      if f.frame.own then s
      else enqueue (1 - p) { f with receive := false, residence := some 0, load := none, badLoad := none } s

/-- What a unit let pass goes on: received frames to the part, transmitted ones out of an Ethernet port. -/
def surface (u : Fin 10) (s : State) : State :=
  forEach (s.net.fi[u]).out (fun f s =>
    if h : u.val < 2 then
      let p : Fin 2 := ⟨u.val, h⟩
      if f.receive then portReceive p f s else leavePort p f s
    else if f.receive ∧ (f.frame.crcOk ∨ f.load.isSome) then deliver f s
    else s) s

/-- A unit to IDLE: frames it holds are released at once, unchanged. -/
def fiIdleNow (u : Fin 10) (s : State) : State :=
  let x := s.net.fi[u]
  surface u (setFiState u fiIdle (setFi u { out := x.group ++ x.delayed.map (·.1) } s))

/-- Disarm the units of a list that are not IDLE, logged as one mask with its reason. -/
def fiDisarm (us : List (Fin 10)) (why : Nat) (s : State) : State :=
  let busy : List (Fin 10) := us.filter (fun (u : Fin 10) => fiState s u != fiIdle)
  if busy.isEmpty then s
  else
    let mask := busy.foldl (fun n (u : Fin 10) => n ||| (1 <<< u.val)) 0
    logN 0xB00B mask why (forEach busy fiIdleNow s)

/-- Every unit disarms: the service state was left (1), or an image without TEST_ALLOWED was loaded (2). -/
def fiDisarmAll (why : Nat) (s : State) : State := fiDisarm (List.finRange 10) why s

/-- Arm a unit: it acts from NET_FI_u_START, or at once where that is 0 or has passed. -/
def fiArmNow (u : Fin 10) (s : State) : State :=
  let s := wr (setFi u { s.net.fi[u] with matched := 0 } s) (Reg.NET_FI_DONE u) 0
  let start := (rd64 s (Reg.NET_FI_START u)).toNat
  setFiState u (if nowNat s < start then fiArmed else fiActive) s

/-- An arming, or its refusal. -/
def fiArmRequest (u : Fin 10) (s : State) : State :=
  let why := if !flg s Reg.FAB_PERMIT F.FAB_PERMIT_test_allowed then 1 else if !commissioning s then 2 else 0
  if why = 0 then fiArmNow u s
  else logN 0xB00C u why (setF s Reg.NET_FI_STATUS F.NET_FI_STATUS_refused 1)

/-- Are configuration writes of a unit ignored? -/
def fiLocked (s : State) (u : Nat) : Bool := fiState s u == fiArmed || fiState s u == fiActive

/-- A write ignored under R405. -/
def netErr (s : State) : State := setF s Reg.NET_STATUS F.NET_STATUS_cfg_err 1

/-- The writable fields of NET_FI_u_CFG. -/
def fiCfgMask : Word := 0x1FFFFFFF

/-- A write of NET_FI_u_CFG; arm and disarm in one write disarm. -/
def writeFiCfg (u : Fin 10) (v : Word) (s : State) : State :=
  let old := rd s (Reg.NET_FI_CFG u)
  let disarm := v.getLsbD 30
  let lockd := fiLocked s u
  let s := if lockd then whenS (!disarm || old &&& fiCfgMask != v &&& fiCfgMask) netErr s
    else wr s (Reg.NET_FI_CFG u) (accessWrite old v fiCfgMask 0)
  if disarm then fiDisarm [u] 3 s
  else if v.getLsbD 31 && !lockd then fiArmRequest u s
  else s

/-- FI_START. -/
def execFiStart (u : Fin 10) (s : State) : Out :=
  if fiState s u = fiArmed then .next (setFiState u fiActive (reachNs s (rd64 s (Reg.NET_FI_START u)))) else .next s

/-- FI_FRAME: a frame of a data path. One the part sends by ETH0 or ETH1 meets the unit as its port sends it: in LINE mode
after its egress queue. A received one is stamped before the unit (R404). -/
def execFiFrame (u : Fin 10) (receive : Bool) (field : BitVec 16) (x : NetFrame) (s : State) : Out :=
  let f : PathFrame := { frame := x, field := field, receive := receive, pcp := pcpOf x.bytes, stamp := now s }
  if u.val < 2 ∧ !receive ∧ !prpMode s then .next (enqueue (Fin.ofNat 2 u) f s)
  else .next (surface u (passUnit u f s))

/-- FI_RELEASE. -/
def execFiRelease (u : Fin 10) (s : State) : Out :=
  match (s.net.fi[u]).delayed with
  | [] => .next s
  | e :: l =>
    let s := reachLocal e.2 s
    .next (surface u (setFi u { s.net.fi[u] with delayed := l, out := [e.1] } s))

/-! ### Arrivals (R403, R404) -/

/-- Does a unit leave a received frame as it is: it is not ACTIVE, or acts on transmitted frames, and holds none? -/
def fiQuiet (s : State) (u : Fin 10) : Bool :=
  (fiState s u != fiActive || !flg s (Reg.NET_FI_CFG u) F.NET_FI_CFG_dir) && (s.net.fi[u]).delayed.isEmpty

/-- A frame that a command stands for arrives at a unit. Where the unit lets it pass, the command runs; `bad`: what the
receiver meets where the unit spoils the CRC. Frames the unit releases later run their commands then (`arrived`). -/
def arrives (u : Fin 10) (field : BitVec 16) (i : Instr) (run : State → Out) (bad : Option (Instr × (State → Out)))
    (s : State) : Out :=
  if s.net.past then run (setNet { s.net with past := false } s)
  else if fiQuiet s u then run s
  else
    let f : PathFrame := { frame := { own := true }, field := field, receive := true, load := some i
                           badLoad := bad.map (·.1), stamp := now s }
    let waiting := s.net.arrived
    let s := surface u (passUnit u f (setNet { s.net with arrived := [] } s))
    match s.net.arrived with
    | [] => .next (setNet { s.net with arrived := waiting } s)
    | j :: l =>
      let s := setNet { s.net with arrived := waiting ++ l } s
      if j = i then run s
      else match bad with
        | some b => if j = b.1 then b.2 s else .next (setNet { s.net with arrived := waiting ++ j :: l } s)
        | none => .next (setNet { s.net with arrived := waiting ++ j :: l } s)

/-- EtherTypes of PTP over IEEE 802.3 and of IPv4 (IEEE 1588, IEEE 802). -/
def etherPtp : BitVec 16 := 0x88F7
def etherIp : BitVec 16 := 0x0800

/-- PTP_SYNC (R118, R404): stamped as it crosses the medium boundary, before the unit. -/
def execPtpSync (port : Fin 2) (x : PtpSync) (s : State) : Out :=
  let at' := if s.net.past ∨ s.tai ≤ x.at' then x.at' else s.tai
  let s := if s.net.past then s else advanceTo s x.at'.toNat
  arrives (portUnit port) (if x.udp then etherIp else etherPtp) (.ptpSync port { x with at' := at' })
    (ptpSync port at' x) none s

/-- PTP_ANNOUNCE: an Announce passes the unit; the expiry of its receipt is no frame. -/
def execPtpAnnounce (port : Fin 2) (x : Option Announce) (s : State) : Out :=
  match x with
  | none => ptpAnnounce port none s
  | some a => arrives (portUnit port) (if a.udp then etherIp else etherPtp) (.ptpAnnounce port x) (ptpAnnounce port x) none s

/-- The unit of a GUYLINE path. -/
def guyUnit (p : Fin 2) : Fin 10 := ⟨8 + p.val, by omega⟩

/-- A GUYLINE message of a type arrives on its path. -/
def guyArrives (ty : BitVec 16) (h : GuyHeader) (mk : GuyHeader → Instr) (run : GuyHeader → State → Out) (s : State) : Out :=
  let b : GuyHeader := { h with crcOk := false }
  arrives (guyUnit h.path) ty (mk h) (run h) (some (mk b, run b)) s

/-- TIMING (R116, R404): an exchange on a path is stamped before the unit. -/
def execTiming (path : Fin 2) (theta : Int) (s : State) : Out :=
  arrives (guyUnit path) 5 (.timing path theta) (timing path theta) none s

/-- The unit of the network port by which a channel's frames of message data come. -/
def onChannel (q : ReqHeader) (i : Instr) (run : State → Out) (s : State) : Out :=
  if 5 ≤ q.chan.val then arrives (portUnit q.port) etherIp i run none s else run s

/-! ### Process data (R395, R402) -/

/-- A published or subscribed telegram: its ComId, its cycle or timeout in ms, zeroing, and its block. -/
structure Telegram where
  comId : Word
  ms : Nat
  zero : Bool := false
  block : Option (Fin 2 × Fin 32)
  deriving DecidableEq, Repr

/-- The published telegram of an index. -/
def publishedAs (s : State) (i : Fin 64) : Option Telegram :=
  s.net.items.findSome? (fun x => match x with
    | .publish j c ms b => if j = i then some ⟨c, ms, false, b⟩ else none
    | _ => none)

/-- The subscribed telegram of an index. -/
def subscribedAs (s : State) (i : Fin 64) : Option Telegram :=
  s.net.items.findSome? (fun x => match x with
    | .subscribe j c ms z b => if j = i then some ⟨c, ms, z, b⟩ else none
    | _ => none)

/-- The newest output set of a block, as the last publication took it (R402). -/
def outputSet (s : State) (b : Fin 2 × Fin 32) : List (Nat × BitVec 64) :=
  s.scan.remoteOut.filterMap (fun e => if e.1 = b.1 ∧ e.2.1 = b.2 then some (e.2.2.1, e.2.2.2) else none)

/-- The output set of a telegram, empty where it names no block. -/
def outputSet? (s : State) (b : Option (Fin 2 × Fin 32)) : List (Nat × BitVec 64) :=
  match b with | none => [] | some b => outputSet s b

/-- A block sends its newest set. -/
def sendBlock (b : Fin 2 × Fin 32) (s : State) : State :=
  setNet { s.net with sent := s.net.sent.filter (fun e => e.1 != b) ++ [(b, outputSet s b)] } s

/-- The timeout in ns of a block's input, where a subscribed telegram fills it; other transports' timeouts have no setting of
their own in this model (log entry 100). -/
def blockTimeout (s : State) (b : Fin 2 × Fin 32) : Option Nat :=
  s.net.items.findSome? (fun x => match x with
    | .subscribe _ _ ms _ (some c) => if c = b then some (1000000 * ms) else none
    | .blockTimeout c ms => if c = b then some (1000000 * ms) else none
    | _ => none)

/-- R328: a block's age exceeds its timeout: valid clears, the values stay. -/
def execRemoteStale (k : Fin 2) (b : Fin 32) (s : State) : Out :=
  let v := (s.scan.cores[k]).remotes[b]
  if !v.valid then .next s
  else
    let s := match blockTimeout s (k, b) with
      | none => s
      | some d => reachNs s (BitVec.ofNat 64 (v.stamp.toNat + d + 1))
    let s := setRemote k b { v with valid := false } s
    .next (logN 0x8031 k b (setFbit s (Reg.SCAN_REMOTE_STALE k) ⟨0, 32⟩ b true))

/-- PD_PUBLISH: at the next instant of the telegram's TAI grid. -/
def execPdPublish (i : Fin 64) (s : State) : Out :=
  match publishedAs s i with
  | none => .next s
  | some t =>
    let cyc := 1000000 * max 1 t.ms
    let at' := (nowNat s / cyc + 1) * cyc
    let s := reachNs s (BitVec.ofNat 64 at')
    let s := setNet { s.net with published := s.net.published.set i (some (BitVec.ofNat 64 at', outputSet? s t.block)) } s
    let s := ownSend { field := etherIp } s
    .next (match t.block with | none => s | some b => sendBlock b s)

/-- PD_TIMEOUT: logged once for one reception; the data are kept, or zeroed as set. -/
def execPdTimeout (i : Fin 64) (s : State) : Out :=
  match subscribedAs s i with
  | none => .next s
  | some t =>
    match t.block with
    | none => .next (logEvent 0xB005 i t.comId s)
    | some (k, b) =>
      let v := (s.scan.cores[k]).remotes[b]
      if v.everSet ∧ s.net.timedOut[i] ≠ some v.stamp then
        let s := reachNs s (v.stamp + BitVec.ofNat 64 (1000000 * t.ms))
        let s := setNet { s.net with timedOut := s.net.timedOut.set i (some v.stamp) } s
        let s := logEvent 0xB005 i t.comId s
        .next (whenS t.zero (setRemote k b { v with data := v.data.map (fun _ => 0) }) s)
      else .next s

/-! ### CAN (R397, R401, R402) -/

/-- Is a port in bus-off? -/
def canOff (s : State) (p : Fin 2) : Bool := fbit s Reg.NET_BUS_STATE F.NET_BUS_STATE_can_off p

/-- CAN_BUS_OFF. -/
def execCanBusOff (p : Fin 2) (tec : Nat) (s : State) : Out :=
  if canOff s p then .next s
  else
    let s := setFbit s Reg.NET_BUS_STATE F.NET_BUS_STATE_can_passive p false
    .next (logN 0xB006 p tec (setFbit s Reg.NET_BUS_STATE F.NET_BUS_STATE_can_off p true))

/-- CAN_RECOVERY. -/
def execCanRecovery (p : Fin 2) (s : State) : Out :=
  .next (setFbit s Reg.NET_BUS_STATE F.NET_BUS_STATE_can_off p false)

/-- The input blocks a frame of a port belongs to: block, first identifier, frame count. -/
def canBlocks (s : State) (p : Fin 2) (id : Nat) : List ((Fin 2 × Fin 32) × Nat × Nat) :=
  s.net.items.filterMap (fun x => match x with
    | .canIn q first n b => if q = p ∧ first ≤ id ∧ id < first + n then some (b, first, n) else none
    | _ => none)

/-- R401: a frame joins the partial set of a block; a repeated identifier restarts the set; the last one closes it. -/
def canFrame (id : Nat) (data : List Word) (e : (Fin 2 × Fin 32) × Nat × Nat) (s : State) : State :=
  let part := (s.net.canParts.find? (fun q => q.block == e.1)).getD { block := e.1 }
  let frames := if part.frames.any (fun f => f.1 == id) then [(id, data)] else part.frames ++ [(id, data)]
  let rest := s.net.canParts.filter (fun q => q.block != e.1)
  if e.2.2 ≤ frames.length then
    let words := ((List.range e.2.2).map (fun n =>
      ((frames.find? (fun f => f.1 == e.2.1 + n)).map (·.2)).getD [])).flatten
    remoteArrived e.1.1 e.1.2 words (setNet { s.net with canParts := rest } s)
  else
    let q : CanPart := { block := e.1, frames := frames }
    setNet { s.net with canParts := rest ++ [q] } s

/-- CAN_FRAME_RECEIVED. -/
def execCanFrameReceived (p : Fin 2) (id : Nat) (data : List Word) (s : State) : Out :=
  arrives ⟨3 + p.val, by omega⟩ (BitVec.ofNat 16 id) (.canFrameReceived p id data)
    (fun s => if canOff s p then .next s else .next (forEach (canBlocks s p id) (canFrame id data) s)) none s

/-- CAN_TX_CYCLE. -/
def execCanTxCycle (k : Fin 2) (b : Fin 32) (s : State) : Out :=
  let port := s.net.items.findSome? (fun x => match x with
    | .canOut p _ _ c => if c = (k, b) then some p else none
    | _ => none)
  match port with
  | none => .next s
  | some p => if canOff s p then .next s else .next (sendBlock (k, b) s)

/-! ### MVB (R398, R401, R402) -/

/-- MVB_LINE_FAIL. -/
def execMvbLineFail (l : Fin 2) (s : State) : Out :=
  if fbit s Reg.NET_BUS_STATE F.NET_BUS_STATE_mvb_fail l then .next s
  else .next (logN 0xB007 l 0 (setFbit s Reg.NET_BUS_STATE F.NET_BUS_STATE_mvb_fail l true))

/-- The block of a sink port, and of a source port. -/
def sinkBlock (s : State) (addr : BitVec 12) : Option (Option (Fin 2 × Fin 32)) :=
  s.net.items.findSome? (fun x => match x with | .mvbSink a b => if a = addr then some b else none | _ => none)
def sourceBlock (s : State) (addr : BitVec 12) : Option (Option (Fin 2 × Fin 32)) :=
  s.net.items.findSome? (fun x => match x with | .mvbSource a b => if a = addr then some b else none | _ => none)

/-- The sink ports of a block, in the order of the settings. -/
def sinksOf (s : State) (b : Fin 2 × Fin 32) : List (BitVec 12) :=
  s.net.items.filterMap (fun x => match x with | .mvbSink a (some c) => if c = b then some a else none | _ => none)

/-- R401: a block whose sinks have all been refreshed within one basic period is complete. -/
def mvbSettle (b : Fin 2 × Fin 32) (s : State) : State :=
  let fresh := s.net.mvbSinks.filter (fun e => localNs s ≤ e.2.2 + Config.mvbPeriod)
  let ports := sinksOf s b
  if ports.all (fun a => fresh.any (fun e => e.1 == a)) then
    let words := (ports.map (fun a => ((fresh.find? (fun e => e.1 == a)).map (·.2.1)).getD [])).flatten
    remoteArrived b.1 b.2 words (setNet { s.net with mvbSinks := s.net.mvbSinks.filter (fun e => !ports.contains e.1) } s)
  else s

/-- A master frame: a sink takes the data, a source sends its block's newest set. -/
def mvbMaster (addr : BitVec 12) (data : List Word) (s : State) : Out :=
  match sinkBlock s addr with
  | some b =>
    let s := setNet { s.net with
      mvbSinks := s.net.mvbSinks.filter (fun e => e.1 != addr) ++ [(addr, data, localNs s)] } s
    .next (match b with | none => s | some b => mvbSettle b s)
  | none =>
    match sourceBlock s addr with
    | some (some b) => .next (sendBlock b s)
    | _ => .next s

/-- MVB_MASTER_FRAME. -/
def execMvbMasterFrame (addr : BitVec 12) (data : List Word) (s : State) : Out :=
  arrives 5 (addr.setWidth 16) (.mvbMasterFrame addr data) (mvbMaster addr data) none s

/-! ### Modbus (R399, R401, R402) -/

/-- A request of a port's poll table. -/
structure Poll where
  i : Fin 64
  slave : BitVec 8
  fc : BitVec 8
  block : Option (Fin 2 × Fin 32)
  deriving DecidableEq, Repr

/-- The poll table of a port, in index order. -/
def pollTable (s : State) (p : Fin 2) : List Poll :=
  (List.finRange 64).filterMap (fun (i : Fin 64) => s.net.items.findSome? (fun x => match x with
    | .modbusPoll q j sl fc b => if q = p ∧ j = i then some ⟨i, sl, fc, b⟩ else none
    | _ => none))

/-- Function codes of R399, and those that write. -/
def modbusCode (fc : BitVec 8) : Bool := [1, 2, 3, 4, 5, 6, 15, 16].contains fc.toNat
def modbusWrites (fc : BitVec 8) : Bool := [5, 6, 15, 16].contains fc.toNat

/-- MODBUS_POLL: the next request of the table goes out; a write carries its block's newest set. -/
def execModbusPoll (p : Fin 2) (s : State) : Out :=
  let l := pollTable s p
  let n := if s.net.pollNext[p] < l.length then s.net.pollNext[p] else 0
  match l[n]? with
  | none => .next s
  | some q =>
    let s := whenS (n == 0) (fun s => setNet { s.net with pollData := s.net.pollData.set p [] } s) s
    let s := setNet { s.net with
      pollNext := s.net.pollNext.set p (n + 1), pollWait := s.net.pollWait.set p (some q.i) } s
    .next (match q.block with | some b => whenS (modbusWrites q.fc) (sendBlock b) s | none => s)

/-- The request of a port that awaits its response. -/
def awaited (s : State) (p : Fin 2) : Option Poll :=
  match s.net.pollWait[p] with
  | none => none
  | some i => (pollTable s p).find? (fun q => q.i == i)

/-- MODBUS_TIMEOUT. -/
def execModbusTimeout (p : Fin 2) (s : State) : Out :=
  match awaited s p with
  | none => .next s
  | some q => .next (logN 0xB008 p (q.slave.toNat * 256 + q.fc.toNat)
      (setNet { s.net with pollWait := s.net.pollWait.set p none } s))

/-- A response: with every request of the block answered in this cycle, the set is complete. -/
def modbusResponse (p : Fin 2) (q : Poll) (data : List Word) (s : State) : State :=
  let got := (s.net.pollData[p]).filter (fun e => e.1 != q.i) ++ [(q.i, data)]
  let s := setNet { s.net with pollWait := s.net.pollWait.set p none, pollData := s.net.pollData.set p got } s
  match q.block with
  | none => s
  | some b =>
    let group := (pollTable s p).filter (fun r => r.block == some b)
    if group.all (fun r => got.any (fun e => e.1 == r.i)) then
      remoteArrived b.1 b.2 ((group.map (fun r => ((got.find? (fun e => e.1 == r.i)).map (·.2)).getD [])).flatten) s
    else s

/-- The slave address of a port. -/
def slaveAddr (s : State) (p : Fin 2) : Option (BitVec 8) :=
  s.net.items.findSome? (fun x => match x with | .modbusSlave q a => if q = p then some a else none | _ => none)

/-- A request to the slave of a port: its own address is obeyed and answered, a broadcast obeyed. -/
def modbusRequest (p : Fin 2) (a fc : BitVec 8) (writes : List (Nat × BitVec 16)) (s : State) : State :=
  if slaveAddr s p = none ∨ !modbusCode fc ∨ (a ≠ 0 ∧ slaveAddr s p ≠ some a) then s
  else
    let block := if modbusWrites fc then
        writes.foldl (fun l e => sput (fun _ => (0 : BitVec 16)) l e.1 e.2) s.net.slave[p] else s.net.slave[p]
    let s := setNet { s.net with slave := s.net.slave.set p block } s
    if a = 0 then s else setNet { s.net with answered := s.net.answered.set p (some (a, fc)) } s

/-- The address and function code of a Modbus frame: those of a request, or of the request a response answers. -/
def modbusField (s : State) (p : Fin 2) (x : ModbusFrame) : BitVec 16 :=
  match x with
  | .request a fc _ => a ++ fc
  | .response _ => match awaited s p with | none => 0 | some q => q.slave ++ q.fc

/-- A Modbus frame arrives. -/
def modbusIn (p : Fin 2) (x : ModbusFrame) (s : State) : Out :=
  match x with
  | .request a fc writes => .next (modbusRequest p a fc writes s)
  | .response data =>
    match awaited s p with
    | none => .next s
    | some q => .next (modbusResponse p q data s)

/-- MODBUS_FRAME_RECEIVED. -/
def execModbusFrameReceived (p : Fin 2) (x : ModbusFrame) (s : State) : Out :=
  arrives ⟨6 + p.val, by omega⟩ (modbusField s p x) (.modbusFrameReceived p x) (modbusIn p x) none s

/-! ### Channels (R396, R407) -/

/-- Change a channel. -/
def setChannel (ch : Fin 21) (x : Channel) (s : State) : State :=
  { s with cmd := { s.cmd with channels := s.cmd.channels.set ch x } }

/-- A channel closes (0), resets (1) or idles out (2): sequence state and stored reply are discarded. Channel 0 stays open. -/
def resetChannel (ch : Fin 21) (why : Nat) (s : State) : State :=
  logN 0x1403 ch why (setChannel ch { isOpen := ch == 0 } s)

/-- TLS_HANDSHAKE: the lowest free channel of 1 to 4 opens; with none free the handshake is refused. -/
def execTlsHandshake (ip : Word) (certOk : Bool) (s : State) : Out :=
  if !certOk then .next (logEvent 0xB009 0 ip s)
  else
    match [(1 : Fin 21), 2, 3, 4].find? (fun ch => !(s.cmd.channels[ch]).isOpen) with
    | none => .next s
    | some ch => .next (setChannel ch { isOpen := true, lastAt := localNs s } s)

/-- SESSION_CLOSED. -/
def execSessionClosed (ch : Fin 21) (s : State) : Out :=
  if 1 ≤ ch.val ∧ ch.val ≤ 4 ∧ (s.cmd.channels[ch]).isOpen then .next (resetChannel ch 0 s) else .next s

end Sys2Proof.Machine
end

