-- ==== Sys2Proof/Machine/Comtrade.lean ====
section
/-! DEFINITION. The files of an export (R299 to R301): the BINARY32 DAT file row by row, and the texts of CFG, HDR and
INF. -/

namespace Sys2Proof.Machine

open Sys2Proof

/-- Does a row carry HOLDOVER: a flag of a word, or the TIME state? -/
def rowHoldover (r : RecRow) : Bool := r.words.any (fun w => w.getLsbD 13) || getF r.time F.TIME_STATE_holdover != 0

/-- Words per analogue channel in a row of a record, and its analogue channels. -/
def perChannel (r : Record) : Nat := if r.k = 1 then 1 else 2
def recChannels (r : Record) : Nat := r.ach.length

/-- Does a word of a channel in a row carry UNSETTLED, FAULT or HELD? -/
def rowFlagged (r : Record) (c : Nat) (row : RecRow) : Bool :=
  ((row.words.drop (c * perChannel r)).take (perChannel r)).any (fun w => w.getLsbD 15 || w.getLsbD 14 || w.getLsbD 12)

/-- The channels that get a _Q status channel. -/
def flaggedChannels (r : Record) : List Nat :=
  (List.range (recChannels r)).filter (fun c => r.rows.any (rowFlagged r c))

/-- The state of a binary channel at an instant. -/
def binaryAt (r : Record) (b : Fin 256) (at' : Nat) : Bool :=
  r.changes.foldl (fun v e => if e.ch = b ∧ e.at' ≤ at' then e.level else v) (r.snapshot.getLsbD b)

/-- The status channels of a row: _Q, HOLDOVER, binary. -/
def statusBits (r : Record) (row : RecRow) : List Bool :=
  (flaggedChannels r).map (fun c => rowFlagged r c row) ++
    (if r.rows.any rowHoldover then [rowHoldover row] else []) ++ r.bch.map (fun b => binaryAt r b row.at')

/-- Status channels packed sixteen to a little-endian word. -/
def packStatus (l : List Bool) : List Byte :=
  (List.range (2 * ((l.length + 15) / 16))).map (fun i =>
    BitVec.ofNat 8 ((List.range 8).foldl (fun n j => if (l[8 * i + j]?).getD false then n + 2 ^ j else n) 0))

/-- One row of a DAT file: sample number from 1, time stamp (the row index from 0), Q15 codes sign-extended to 32 bits,
status channels. -/
def datRow (r : Record) (i : Nat) (row : RecRow) : List Byte :=
  wordBytes (BitVec.ofNat 32 (i + 1)) ++ wordBytes (BitVec.ofNat 32 i) ++
    row.words.flatMap (fun w => wordBytes ((w.extractLsb' 16 16).signExtend 32)) ++ packStatus (statusBits r row)

/-- The DAT file. -/
def datFile (r : Record) : List Byte := (r.rows.zipIdx.map (fun p => datRow r p.2 p.1)).flatten

/-! ### Texts (R300, R301; their layout is that of IEEE C37.111, log entry 29) -/

/-- The bytes of an ASCII text, and the end of a line. -/
def ascii (t : String) : List Byte := t.toList.map (fun c => BitVec.ofNat 8 c.toNat)
def lineEnd : List Byte := [13, 10]

/-- Decimal digits of a number, within a number of digits. -/
def digits : Nat → Nat → List Byte
  | 0, _ => []
  | k + 1, n => (if n < 10 then [] else digits k (n / 10)) ++ [BitVec.ofNat 8 (48 + n % 10)]

/-- A number in decimal, a signed one, and one with leading zeros. -/
def decText (n : Nat) : List Byte := digits 40 n
def intText (n : Int) : List Byte := (if n < 0 then ascii "-" else []) ++ decText n.natAbs
def padText (w n : Nat) : List Byte := List.replicate (w - (decText n).length) 48 ++ decText n

/-- Fields with commas between them. -/
def joinFields : List (List Byte) → List Byte
  | [] => []
  | [a] => a
  | a :: l => a ++ [44] ++ joinFields l

/-- A line of fields. -/
def csvLine (l : List (List Byte)) : List Byte := joinFields l ++ lineEnd

/-- Day, month and year of a number of days since the PTP epoch, 1 January 1970. -/
def civilDate (days : Nat) : Nat × Nat × Nat :=
  let z := days + 719468
  let doe := z % 146097
  let yoe := (doe - doe / 1460 + doe / 36524 - doe / 146096) / 365
  let doy := doe - (365 * yoe + yoe / 4 - yoe / 100)
  let mp := (5 * doy + 2) / 153
  let m := if mp < 10 then mp + 3 else mp - 9
  (doy - (153 * mp + 2) / 5 + 1, m, yoe + z / 146097 * 400 + (if m ≤ 2 then 1 else 0))

/-- R301: a TAI instant in ns as dd/mm/yyyy,hh:mm:ss.ssssss. -/
def timeText (ns : Nat) : List Byte :=
  let us := (quot ns 1000).toNat
  let sec := us / 1000000
  let d := civilDate (sec / 86400)
  padText 2 d.1 ++ [47] ++ padText 2 d.2.1 ++ [47] ++ padText 4 d.2.2 ++ [44] ++ padText 2 (sec / 3600 % 24) ++ [58] ++
    padText 2 (sec / 60 % 60) ++ [58] ++ padText 2 (sec % 60) ++ [46] ++ padText 6 (us % 1000000)

/-- R301: tmq_code, the code of IEEE C37.111 whose error bound, 10^(n - 10) s for code n, is the smallest that covers est_err;
F when the quality code is 2. -/
def tmqCode (q : RecQuality) : List Byte :=
  if q.code = 2 then ascii "F"
  else match (List.range 11).find? (fun i => q.estErr.toNat ≤ 10 ^ i) with
  | some i => if i < 9 then decText (i + 1) else if i = 9 then ascii "A" else ascii "B"
  | none => ascii "F"

/-- The settings that name and scale the channels of a record. -/
def namesOf (r : Record) : List (BitVec 16 × List Word) := r.settings.map (fun x => (x.type, x.value))

/-- The names of a channel's COMTRADE channels (R300). -/
def channelNames (r : Record) (c : Nat) : List (List Byte) :=
  let n := Config.channelText (namesOf r) c 0
  if r.k = 1 then [n] else [n ++ ascii "_MIN", n ++ ascii "_MAX"]

/-- The CFG lines of the analogue channels. -/
def analogLines (e : Exported) : List Byte :=
  let r := e.record
  let cs := r.ach.flatMap (fun p => (channelNames r p.1).map (fun n => (p.1.val, n)))
  cs.zipIdx.flatMap (fun q =>
    let tx := Config.channelText (namesOf r) q.1.1
    csvLine [decText (q.2 + 1), q.1.2, tx 1, tx 2, tx 3, Config.numberText (Config.channelScale (namesOf r) q.1.1 / 32768),
      Config.numberText 0, Config.fileText e.key 3, intText (-32768), intText 32767, tx 4, tx 5, tx 6])

/-- The names of the status channels: _Q, HOLDOVER, binary. -/
def statusNames (r : Record) : List (List Byte) :=
  (flaggedChannels r).map (fun c =>
    Config.channelText (namesOf r) ((r.ach[c]?).map (fun p => p.1.val) |>.getD 0) 0 ++ ascii "_Q") ++
    (if r.rows.any rowHoldover then [ascii "HOLDOVER"] else []) ++
    r.bch.map (fun b => Config.channelText (namesOf r) (64 + b.val) 0)

/-- The CFG lines of the status channels, each with normal state 0. -/
def statusLines (e : Exported) : List Byte :=
  (statusNames e.record).zipIdx.flatMap (fun q =>
    csvLine [decText (q.2 + 1), q.1, Config.fileText e.key 4, Config.fileText e.key 5, decText 0])

/-- The CFG file. -/
def cfgFile (e : Exported) : List Byte :=
  let r := e.record
  let na := r.ach.length * perChannel r
  let nd := (statusNames r).length
  csvLine [Config.fileText e.key 0, Config.fileText e.key 1, ascii "2013"] ++
    csvLine [decText (na + nd), decText na ++ ascii "A", decText nd ++ ascii "D"] ++ analogLines e ++ statusLines e ++
    csvLine [Config.fileText e.key 2] ++ csvLine [decText 1] ++
    csvLine [Config.numberText (400000000 / (r.k * r.period : Rat)), decText r.rows.length] ++
    csvLine [timeText r.firstAt] ++ csvLine [timeText r.trigAt] ++ csvLine [ascii "BINARY32"] ++
    csvLine [Config.numberText ((r.k * r.period : Rat) / 400)] ++ csvLine [decText 0, decText 0] ++
    csvLine [tmqCode r.quality, decText 0]

/-- currentUtcOffset of a record. -/
def utcOffset (r : Record) : Int := (r.utc.extractLsb' 0 16).toInt

/-- The HDR file: free text that states that the times are TAI and gives currentUtcOffset. -/
def hdrFile (e : Exported) : List Byte :=
  Config.fileText e.key 6 ++ ascii "TAI" ++ Config.fileText e.key 7 ++ intText (utcOffset e.record) ++ Config.fileText e.key 8

/-- A TIME_STATE word, as state and source. -/
def timeFields (w : Word) : List (List Byte) := [decText (getF w F.TIME_STATE_state), decText (getF w F.TIME_STATE_source)]

/-- The fields of Table 10.7, in its order; some with several values. -/
def infFields (r : Record) : List (List Byte) :=
  [decText r.number.toNat, decText r.serial.toNat, joinFields (r.positions.toList.map decText), decText r.role,
    decText r.epoch.toNat, decText r.build.toNat, decText r.firmware.toNat,
    decText r.period, decText r.k, decText (if r.stream then 1 else 0),
    joinFields (r.ach.map (fun p => decText p.2.toNat)), joinFields (r.bsrc.map (fun w => decText w.toNat)),
    joinFields (r.ach.map (fun p => Config.channelText (namesOf r) p.1 0)),
    joinFields (r.ach.map (fun p => Config.numberText (Config.channelScale (namesOf r) p.1))),
    joinFields (r.bch.map (fun b => Config.channelText (namesOf r) (64 + b.val) 0)),
    decText r.firstAt, decText r.trigAt, decText r.mask,
    joinFields (r.marks.map (fun m => decText m.at' ++ [58] ++ decText m.src.val)), decText r.moreTrigs, decText r.lastAt,
    (r.firstUnstored.map decText).getD [],
    decText r.preRows, decText r.postRows, decText (if r.preShort then 1 else 0), decText r.cause,
    joinFields (r.bch.map (fun b => decText (if r.snapshot.getLsbD b then 1 else 0))), decText r.changes.length,
    decText r.chgLost,
    joinFields (timeFields r.timeFirst ++ timeFields r.timeTrig ++ timeFields r.timeLast), decText r.clockId.toNat,
    decText r.quality.holdRows, decText r.quality.holdMs, decText r.quality.refused, intText (utcOffset r),
    decText (getF r.utc F.TIME_UTC_OFFSET_valid), decText r.quality.code.val, decText r.quality.estErr.toNat]

/-- The change list at full nanosecond resolution: instant, channel, state, quality. -/
def changeFields (r : Record) : List (List Byte) :=
  r.changes.map (fun c => joinFields
    [decText c.at', decText c.ch.val, decText (if c.level then 1 else 0), decText (if c.holdover then 1 else 0)])

/-- The INF file: the private section with the fields of Table 10.7 and the change list. -/
def infFile (e : Exported) : List Byte :=
  ascii "[Ozaisel TA-4864]" ++ lineEnd ++
    (infFields e.record ++ changeFields e.record).zipIdx.flatMap (fun p => Config.infName p.2 ++ [61] ++ p.1 ++ lineEnd)

/-- The bytes of a file: 0 CFG, 1 DAT, 2 HDR, 3 INF; and of a part of it. -/
def fileOf (e : Exported) (f : Fin 4) : List Byte :=
  match f with
  | 0 => cfgFile e
  | 1 => datFile e.record
  | 2 => hdrFile e
  | 3 => infFile e
def fileBytes (e : Exported) (f : Fin 4) (off len : Nat) : List Byte := ((fileOf e f).drop off).take len

/-- Bytes of the four files. -/
def exportBytes (e : Exported) : Nat := (cfgFile e).length + (datFile e.record).length + (hdrFile e).length + (infFile e).length

end Sys2Proof.Machine
end

