-- ==== Sys2Proof/Machine/Rec.lean ====
section
/-! DEFINITION. The disturbance recorder (chapter 10): plan, arming, capture, triggers, masks, storage. -/

namespace Sys2Proof.Machine

open Sys2Proof

/-! ### The plan (R278 to R282, R290) -/

/-- Sizes: the analogue area, the change area in entries, and the record area on NAND. -/
def ringBytes : Nat := 1006632960
def changeEntries : Nat := 4194304
def nandBytes : Nat := 3221225472
def mib : Nat := 1048576

/-- k, P, and the enabled analogue channels in index order. -/
def recK (s : State) : Nat := max 1 (fld s Reg.REC_CFG F.REC_CFG_k)
def recP (s : State) : Nat := (rd s Reg.REC_PERIOD).toNat
def recStream (s : State) : Bool := flg s Reg.REC_CFG F.REC_CFG_stream
def recPre (s : State) : Nat := (rd s Reg.REC_PRE).toNat
def recPost (s : State) : Nat := max 1 (rd s Reg.REC_POST).toNat
def recNandFull (s : State) : Bool := flg s Reg.REC_CFG F.REC_CFG_nand_full
def achans (s : State) : List (Fin 64) :=
  (List.finRange 64).filter (fun (c : Fin 64) => flg s (Reg.REC_ACH c) F.REC_ACH_en)
def bchanOn (s : State) (b : Fin 256) : Bool := flg s (Reg.REC_BCH b) F.REC_BCH_en

/-- Bytes of a stored row (R281). -/
def rowBytes (s : State) : Nat := (if recK s = 1 then 4 else 8) * (achans s).length

/-- C (R290). -/
def recCap (s : State) : Nat := if rowBytes s = 0 then Config.emptyPlanCap else ringBytes / rowBytes s

/-- The instant of a capture index, in quarter nanoseconds. -/
def capQ (s : State) (n : Nat) : Nat := n * recP s * 10

/-- The first capture instant of the next stored row. -/
def nextInterval (s : State) : Nat :=
  let q := recK s * recP s * 10
  if q = 0 then 0 else (s.tai.toNat + q - 1) / q * recK s

/-! ### Binary points (R283) -/

/-- Does Table 10.2 hold the code? -/
def binCodeOk (cls idx : Nat) : Bool :=
  match cls with
  | 0 | 1 => idx < 16
  | 2 => idx < 4
  | 3 | 4 => idx < 128 && idx % 16 < 15
  | 5 => idx < 32
  | 6 => idx < 32 && idx % 8 < 7
  | 7 => idx < 26
  | 8 | 9 => true
  | _ => false

/-- A point of FDRf (class 5). -/
def feederPoint (s : State) (f : Fin 8) (j : Nat) : Bool :=
  match j with
  | 0 => tripCmd s f
  | 1 => bkrStatus s f == .isClosed
  | 2 => !currentOpen s f
  | _ => bfHolds s f

/-- A point of a stage (class 6). -/
def stagePoint (s : State) (st : Nat) (j : Nat) : Bool :=
  match j with
  | 0 => energised s st
  | 1 => isBlocked s st
  | 2 => flg s (Reg.CTRL_STAGE_STATE st) F.CTRL_STAGE_STATE_limiting
  | 3 => stageMode s st == modeLimit
  | 4 => stageMode s st == modeReplay
  | 5 => st % 2 == 0 && flg s (Reg.GFM_STATE st) F.GFM_STATE_cont_cmd
  | _ => st % 2 == 0 && flg s (Reg.GFM_STATE st) F.GFM_STATE_cont_fb

/-- A point of class 7. -/
def partPoint (s : State) (i : Nat) : Bool :=
  match i with
  | 0 => gdenActive s
  | 1 => s.loop.owner
  | 2 => ready s
  | 3 => holdoverNow s
  | _ => if i < 10 then fbit s Reg.PWM_GDF_STATUS F.PWM_GDF_STATUS_live (i - 4)
         else fbit s Reg.ADC_CMP_STATUS F.ADC_CMP_STATUS_hard_live (i - 10)

/-- The bit at a position of a core's output image, as the fabric took it last (R40). -/
def imageBit (s : State) (k : Fin 2) (pos : Nat) : Bool :=
  let x := s.scan.cores[k]
  match (symbolsOf x).find? (fun y => isOutput y && y.position == some pos) with
  | none => false
  | some y => (symGet x.output.reading.values y.id.toNat) != 0

/-- The present state of a binary point. -/
def binPoint (s : State) (cls idx : Nat) : Bool :=
  match cls with
  | 0 => fbit s Reg.FIO_DI_STATE F.FIO_DI_STATE_debounced idx
  | 1 => fbit s Reg.FIO_DO_STATE F.FIO_DO_STATE_cmd idx
  | 2 => fbit s Reg.FIO_TRIP_STATE F.FIO_TRIP_STATE_energised idx
  | 3 => fbit s (Reg.PROT_FDR_FLAGS (idx / 16)) F.PROT_FDR_FLAGS_started (idx % 16)
  | 4 => (s.prot.feeders[Fin.ofNat 8 (idx / 16)]).op.testBit (idx % 16)
  | 5 => feederPoint s (Fin.ofNat 8 (idx / 4)) (idx % 4)
  | 6 => stagePoint s (idx / 8) (idx % 8)
  | 7 => partPoint s idx
  | 8 => imageBit s 0 idx
  | _ => imageBit s 1 idx

/-- The present state of a binary channel. -/
def bchanPoint (s : State) (b : Fin 256) : Bool :=
  binPoint s (fld s (Reg.REC_BCH b) F.REC_BCH_class) (fld s (Reg.REC_BCH b) F.REC_BCH_index)

/-- The states of all channels in the plan. -/
def allPoints (s : State) : BitVec 256 :=
  (List.finRange 256).foldl (fun (v : BitVec 256) (b : Fin 256) =>
    if bchanOn s b && bchanPoint s b then v ||| (1#256 <<< b.val) else v) 0

/-! ### What the registers show -/

/-- Bytes a closed record still takes in the ring, and of all that await NAND. -/
def ringOf (r : Record) : Nat := r.rows.foldl (fun n w => n + 4 * w.words.length) 0 - r.drained
def awaitingBytes (s : State) : Nat := s.recd.awaiting.foldl (fun n r => n + ringOf r) 0

/-- Bytes of the present plan's rows in the ring. -/
def planBytes (s : State) : Nat := s.recd.rows.length * rowBytes s - s.recd.drained

/-- Change entries in the ring. -/
def changesHeld (s : State) : Nat := s.recd.awaiting.foldl (fun n r => n + r.changes.length) s.recd.changes.length

/-- Bytes on NAND: stored records, and streaming records that await the rest. -/
def nandUsed (s : State) : Nat :=
  s.recd.stored.foldl (fun n r => n + r.size) 0 +
    (s.recd.awaiting.filter (·.stream)).foldl (fun n r => n + r.size) 0

/-- REC_FILL. -/
def showFill (s : State) : State :=
  let s := setF s Reg.REC_FILL F.REC_FILL_ring_mib (quot (planBytes s + awaitingBytes s) mib).toNat
  setF s Reg.REC_FILL F.REC_FILL_chg_mib (quot (16 * changesHeld s) mib).toNat

/-- REC_CAP. -/
def showCap (s : State) : State := wr s Reg.REC_CAP (BitVec.ofNat 32 (recCap s))

/-- REC_STORE, and REC_STATUS.nand_busy. -/
def showStore (s : State) : State :=
  let s := setF s Reg.REC_STORE F.REC_STORE_nand_free ((nandBytes - nandUsed s) / mib)
  let s := setF s Reg.REC_STORE F.REC_STORE_records (min 256 s.recd.stored.length)
  setF s Reg.REC_STATUS F.REC_STATUS_nand_busy (b2n (!s.recd.awaiting.isEmpty))

/-! ### Room on NAND (R295) -/

/-- Is a record being exported (an EXPORT that has not terminated)? -/
def exporting (s : State) (n : Word) : Bool :=
  s.cmd.ops.toList.any (fun (o : Option Oper) => match o with
    | none => false
    | some o => o.kind == opExport && !opDone o && o.obj == n.toNat)

/-- Is there room for a number of bytes and one more record? -/
def hasRoom (s : State) (need : Nat) : Bool := nandUsed s + need ≤ nandBytes && s.recd.stored.length < 256

/-- Delete the oldest unlocked records until there is room, within a number of deletions. -/
def makeRoom : Nat → Nat → State → Bool × State
  | 0, need, s => (hasRoom s need, s)
  | n + 1, need, s =>
    if hasRoom s need then (true, s)
    else if recNandFull s then (false, s)
    else
      match s.recd.stored.find? (fun r => !r.locked && !exporting s r.number) with
      | none => (false, s)
      | some r =>
        let s := setRec { s.recd with stored := s.recd.stored.filter (fun x => x.number != r.number) } s
        makeRoom n need (logEvent 0x7007 0 r.number s)

/-! ### Arming (R291, Table 10.4) -/

/-- Is a mask configured against R288? -/
def maskBad (s : State) (m : Fin 4) : Bool :=
  let a := Reg.REC_MASK_CFG m
  let n := fld s a F.REC_MASK_CFG_npts
  let act := fld s a F.REC_MASK_CFG_action
  act != 0 && (n == 0 || 16 < n || (act == 1 && !flg s a F.REC_MASK_CFG_ref) ||
    (List.range (n - 1)).any (fun k => (rd s (Reg.REC_MASK_T m (k + 1))).toNat ≤ (rd s (Reg.REC_MASK_T m k)).toNat))

/-- Does the running image route the capture input of a channel? -/
def inputRouted (s : State) (c : Fin 64) : Bool :=
  match s.fab.running with
  | none => false
  | some img =>
    let w := rd s (Reg.REC_ACH c)
    img.captureInputs.any (fun p => p.1.val == getF w F.REC_ACH_tile && p.2.val == getF w F.REC_ACH_input)

/-- The first check of 2 and 3 that fails. -/
def planRefused (s : State) : Option (Nat × Nat) :=
  let bs := (List.finRange 256).filter (fun (b : Fin 256) => bchanOn s b)
  let tileWords := fun (t : Nat) =>
    (if recK s = 1 then 1 else 2) * ((achans s).filter (fun c => fld s (Reg.REC_ACH c) F.REC_ACH_tile == t)).length
  if ((achans s).isEmpty && bs.isEmpty) || (achans s).any (fun c => !inputRouted s c) ||
      bs.any (fun b => !binCodeOk (fld s (Reg.REC_BCH b) F.REC_BCH_class) (fld s (Reg.REC_BCH b) F.REC_BCH_index)) ||
      (List.finRange 4).any (fun (m : Fin 4) => maskBad s m) then some (stNotPermitted, 1)
  else if (List.range 4).any (fun t => recK s * recP s < 4 * tileWords t) then some (stNotPermitted, 2)
  else none

/-- The first check of 4 and 5 that fails. -/
def lengthRefused (s : State) : Option (Nat × Nat) :=
  if rowBytes s = 0 then none
  else if recStream s then if recCap s < recPre s then some (stLengthExceeds, 2) else none
  else if recCap s < recPost s then some (stLengthExceeds, 1)
  else if recCap s < recPre s + recPost s then some (stLengthExceeds, 2)
  else none

/-- Room on NAND a plan needs: the header, and the pre rows or the pre and post rows. -/
def planNeed (s : State) : Nat := 4096 + rowBytes s * (if recStream s then recPre s else recPre s + recPost s)

/-- The first check of 6 to 8 that fails: those that an automatic re-arm repeats (R294). -/
def roomRefused (s : State) : Option (Nat × Nat) :=
  let free := if rowBytes s = 0 then recPre s + recPost s else (ringBytes - awaitingBytes s) / rowBytes s
  if recStream s && !s.recd.awaiting.isEmpty then some (stBusy, 3)
  else if !recStream s && free < recPre s + recPost s then some (stBusy, 3)
  else if recNandFull s && !hasRoom s (planNeed s) then some (stBadState, 4)
  else if !recNandFull s && s.recd.stored.all (·.locked) && !hasRoom s (planNeed s) then some (stBadState, 5)
  else none

/-- Table 10.4. -/
def armRefused (s : State) : Option (Nat × Nat) :=
  if recState s ≠ recIdle then some (stBusy, 0)
  else (planRefused s).or ((lengthRefused s).or (roomRefused s))

/-- IDLE to ARMED: pre rows collect from the next stored row. -/
def armNow (src : Nat) (op : Option (Fin 16)) (s : State) : State :=
  let s := setRec { s.recd with bin := allPoints s, op := op, trigs := [] } s
  let notes := (s.recd.accAt.map (fun t => ({ at' := t, theta := 0, kind := 0 } : RecNote))).toList
  let s := setRec { (clearPlan s).recd with next := some (nextInterval s), notes := notes } s
  let s := setF (setRecState recArmed s) Reg.REC_STATUS F.REC_STATUS_rearm_wait 0
  logEvent 0x7001 src (BitVec.ofNat 32 (min 0xFFFFFFFF (recCap s))) (showFill (showCap s))

/-- A refused arming: its status and event. -/
def armDenied (e : Nat × Nat) (s : State) : State :=
  logN 0x7009 e.1 e.2 (setF s Reg.REC_STATUS F.REC_STATUS_arm_err e.1)

/-- REC_CTRL.arm. -/
def armByRegister (s : State) : State :=
  match armRefused s with | some e => armDenied e s | none => armNow 0 none s

/-- A disarm: one taken in the same stored row as a trigger is discarded; a capture closes with cause 4. -/
def disarmRequest (s : State) : State :=
  if recState s = recArmed then if s.recd.trigs.isEmpty then showFill (recDisarmed s) else s
  else recClose 4 s

/-- A write of REC_CTRL: trigger, disarm and arm act in that order where several are written. -/
def writeRecCtrl (v : Word) (s : State) : State :=
  let s := whenS (getF v F.REC_CTRL_trigger != 0) (recTrigNow srcWrite) s
  let s := whenS (getF v F.REC_CTRL_disarm != 0) disarmRequest s
  whenS (getF v F.REC_CTRL_arm != 0) armByRegister s

/-! ### Samples, level triggers, reduction -/

/-- R167: the TAI instant in ns of a tag that arrives at an instant. -/
def expandTag (arrival : Nat) (tag : BitVec 16) : Nat :=
  let a := arrival / 25
  (a - (a + 65536 - tag.toNat) % 65536) * 25

/-- The instant a word represents: its expanded tag, or its route instant (R279). -/
def represents (w : CapWord) : Nat :=
  match w.tag with
  | none => w.at'
  | some t => expandTag w.at' t

/-- A sample of a channel: its value and the flags of Table 10.1, bits 15 to 12. -/
structure CapSample where
  value : Int
  flags : BitVec 4
  deriving DecidableEq, Repr

def capFault (x : CapSample) : Bool := x.flags.getLsbD 2
def capUnsettled (x : CapSample) : Bool := x.flags.getLsbD 3

/-- The flags of a word, and HELD. -/
def capFlags (w : CapWord) (held : Bool) : BitVec 4 :=
  BitVec.ofNat 4 (8 * b2n w.unsettled + 4 * b2n w.fault + 2 * b2n w.holdover + b2n held)

/-- The first word after an instant in quarter nanoseconds, if it has arrived 2 ms after it. -/
def nextWord (q : Nat) (x : CapInput) : Option CapWord :=
  x.next.filter (fun w => q < 4 * represents w && 4 * w.at' ≤ q + 8000000)

/-- R279: the sample at an instant in quarter nanoseconds. -/
def capSample (q : Nat) (x : CapInput) : CapSample :=
  let v0 := q15 x.last.value
  let t0 := represents x.last
  match nextWord q x with
  | none => ⟨v0, capFlags x.last true⟩
  | some w =>
    let v := v0 + quot ((q15 w.value - v0) * ((q : Int) - 4 * t0)) (4 * (represents w - t0))
    ⟨v, capFlags x.last false ||| capFlags w false⟩

/-- The condition of a level trigger, and its clearing by the hysteresis (R287). -/
def levelOn (cond : Nat) (thr x : Int) : Bool :=
  match cond with | 0 => thr < x | 1 => x < thr | 2 => thr < x.natAbs | _ => false
def levelCleared (cond : Nat) (thr hys x : Int) : Bool :=
  match cond with | 0 => x ≤ thr - hys | 1 => thr + hys ≤ x | 2 => (x.natAbs : Int) ≤ thr - hys | _ => false

/-- One level trigger at a capture instant in ns. -/
def levelStep (at' : Nat) (samples : List (Fin 64 × CapSample)) (l : Fin 8) (s : State) : State :=
  let a := Reg.REC_LEVEL l
  let n := max 1 (fld s a F.REC_LEVEL_n)
  let cond := fld s a F.REC_LEVEL_cond
  let thr := sfld s (Reg.REC_LEVEL_THR l) F.REC_LEVEL_THR_thr
  let y := s.recd.levels[l]
  let put := fun (z : LevelState) => setRec { s.recd with levels := s.recd.levels.set l z } s
  match samples.find? (fun p => p.1.val == fld s a F.REC_LEVEL_achan) with
  | none => s
  | some p =>
    if !flg s a F.REC_LEVEL_en then s
    else if capFault p.2 || capUnsettled p.2 then put { y with count := 0 }
    else if y.fired then
      if levelCleared cond thr (fld s a F.REC_LEVEL_hys) p.2.value then put { count := 0, fired := false } else s
    else if !levelOn cond thr p.2.value then put { y with count := 0 }
    else if y.count + 1 < n then put { y with count := y.count + 1 }
    else recTrig srcLevel at' (put { count := 0, fired := true })

/-- R281: a sample joins the interval of its channel. -/
def accSample (a : ChAcc) (x : CapSample) : ChAcc :=
  let a := { a with mnAll := min a.mnAll x.value, mxAll := max a.mxAll x.value, flags := a.flags ||| x.flags }
  if capFault x then a
  else { a with mn := min a.mn x.value, mx := max a.mx x.value, good := true }

/-- The word of Table 10.1. -/
def capWord (v : Int) (fl : BitVec 4) : Word := BitVec.ofInt 16 v ++ (fl ++ 0#12)

/-- The words of a channel in a stored row. -/
def accWords (k : Nat) (a : ChAcc) : List Word :=
  let mn := if a.good then a.mn else a.mnAll
  let mx := if a.good then a.mx else a.mxAll
  if k = 1 then [capWord mn a.flags] else [capWord mn a.flags, capWord mx a.flags]

/-! ### Masks (R288) -/

/-- The limits of a mask at a row count from its reference, as (upper, lower); none before the first point. -/
def maskLimits (s : State) (m : Fin 4) (row : Nat) : Option (Rat × Rat) :=
  let cfg := Reg.REC_MASK_CFG m
  let up := fun (k : Nat) => hiQ15 (rd s (Reg.REC_MASK_LIM m k))
  let lo := fun (k : Nat) => loQ15 (rd s (Reg.REC_MASK_LIM m k))
  let t := fun (k : Nat) => (rd s (Reg.REC_MASK_T m k)).toNat
  let n := fld s cfg F.REC_MASK_CFG_npts
  if flg s cfg F.REC_MASK_CFG_ref then some (up 0, lo 0)
  else
    match ((List.range n).filter (fun k => t k ≤ row)).getLast? with
    | none => none
    | some k =>
      if k + 1 < n then
        let r : Rat := ((row : Rat) - t k) / ((t (k + 1) : Rat) - t k)
        some (up k + r * (up (k + 1) - up k), lo k + r * (lo (k + 1) - lo k))
      else some (up k, lo k)

/-- The minimum, maximum and test permission of a mask's channel in the row that has formed. -/
def maskChannel (s : State) (c : Nat) : Option (Int × Int × Bool) :=
  match ((achans s).zip s.recd.acc).find? (fun p => p.1.val == c) with
  | none => none
  | some (_, a) => some (if a.good then a.mn else a.mnAll, if a.good then a.mx else a.mxAll,
      !(a.flags.getLsbD 2 || a.flags.getLsbD 3))

/-- Does the row violate the mask? -/
def maskOut (s : State) (m : Fin 4) (row : Nat) : Bool :=
  match maskChannel s (fld s (Reg.REC_MASK_CFG m) F.REC_MASK_CFG_achan), maskLimits s m row with
  | some (mn, mx, true), some (u, l) => u < (mx : Rat) || (mn : Rat) < l
  | _, _ => false

/-- R286: a mark; the seventeenth trigger and later ones are counted only. -/
def addMark (t : RecTrigger) (s : State) : State :=
  match s.recd.cur with
  | none => s
  | some r =>
    let r : Record := if r.marks.length < 16 then { r with marks := r.marks ++ [t] } else { r with moreTrigs := r.moreTrigs + 1 }
    setRec { s.recd with cur := some r } s

/-- A violation of a mask: logged, marked, and its action. -/
def maskViolated (m : Fin 4) (row at' : Nat) (s : State) : State :=
  let s := setF (logN 0x7005 m row s) Reg.REC_STATUS F.REC_STATUS_mask_viol 1
  let capturing := recState s == recCapturing
  let act := fld s (Reg.REC_MASK_CFG m) F.REC_MASK_CFG_action
  let s := if act = 1 ∧ !capturing then recTrig srcMask at' s else addMark ⟨srcMask, at'⟩ s
  let left := if act = 2 ∧ capturing then some (rd s (Reg.REC_MASK_POST m)).toNat else none
  setRec { s.recd with masks := s.recd.masks.set m { run := 0, done := true, left := left } } s

/-- One mask at a row: masks of one reference, at the row's count from it. -/
def maskStep (ref : Bool) (row at' : Nat) (m : Fin 4) (s : State) : State :=
  let cfg := Reg.REC_MASK_CFG m
  let y := s.recd.masks[m]
  let put := fun (z : MaskState) => setRec { s.recd with masks := s.recd.masks.set m z } s
  if fld s cfg F.REC_MASK_CFG_action = 0 ∨ flg s cfg F.REC_MASK_CFG_ref ≠ ref then s
  else if y.done then put { y with left := y.left.map (· - 1) }
  else if !maskOut s m row then put { y with run := 0 }
  else if y.run + 1 < max 1 (fld s cfg F.REC_MASK_CFG_n) then put { y with run := y.run + 1 }
  else maskViolated m row at' s

/-! ### The trigger row and the rows after it -/

/-- The state of every channel at the first row, after older rows have left the ring; changes from that instant on stay in
the list (R284). -/
def foldChanges (upTo : Nat) (s : State) : State :=
  let old := s.recd.changes.filter (fun e => e.at' ≤ upTo)
  let bits := old.foldl (fun (v : BitVec 256) e =>
    if e.level then v ||| (1#256 <<< e.ch.val) else v &&& ~~~(1#256 <<< e.ch.val)) s.recd.binFirst
  setRec { s.recd with binFirst := bits, changes := s.recd.changes.filter (fun e => upTo ≤ e.at') } s

/-- ARMED: a row joins the pre rows, and the oldest beyond the pre-trigger length leaves. -/
def keepPre (row : RecRow) (s : State) : State :=
  let rows := s.recd.rows ++ [row]
  let s := setRec { s.recd with rows := rows.drop (rows.length - recPre s) } s
  match s.recd.rows.head? with
  | some r => foldChanges r.at' s
  | none => foldChanges row.at' s

/-- R286, R292: the trigger row is formed: CAPTURING. -/
def startCapture (hits : List RecTrigger) (row : RecRow) (s : State) : State :=
  let s := match s.recd.rows.head? with | some r => foldChanges r.at' s | none => foldChanges row.at' s
  let mask := hits.foldl (fun n t => n ||| (1 <<< t.src.val)) 0
  let first := (setBits mask 11).headD 0
  let r : Record := {
    number := s.recd.nextNo, mask := mask, trigAt := row.at', role := roleOf (dpxOn s) (dpxState s), epoch := ownEpoch s,
    build := rd s Reg.FAB_IMAGE_ID, clockId := rd64 s Reg.TIME_GM_ID, timeTrig := row.time, stream := recStream s,
    k := recK s, period := recP s, firstAt := ((s.recd.rows.head?).getD row).at', serial := s.upd.stake.serial
    positions := Vector.ofFn (fun (g : Fin 2) => fld s (Reg.GFM_CFG (2 * g)) F.GFM_CFG_position)
    firmware := ((s.upd.firmware[(s.upd.journal[2]).active]).map (·.version)).getD 0, utc := rd s Reg.TIME_UTC_OFFSET
    settings := ((s.upd.settings[s.upd.inForce]).map (·.records)).getD []
    ach := (achans s).map (fun c => (c, rd s (Reg.REC_ACH c)))
    bsrc := ((List.finRange 256).filter (bchanOn s)).map (fun b => rd s (Reg.REC_BCH b))
    bch := (List.finRange 256).filter (bchanOn s), snapshot := s.recd.binFirst, preRows := s.recd.rows.length,
    preShort := s.recd.rows.length < recPre s, op := s.recd.op }
  let s := commitOp s.recd.op (setRecState recCapturing (setRec { s.recd with
    cur := some r, nextNo := s.recd.nextNo + 1, post := 0, drained := 0 } s))
  let s := wr64 (logEvent 0x7002 first r.number s) Reg.REC_TRIG_TIME (BitVec.ofNat 64 row.at')
  whenS (recStream s) (partHold true) s

/-- The triggers of a row: those at or before its last capture instant, in quarter nanoseconds. -/
def takeTriggers (lastQ : Nat) (row : RecRow) (s : State) : State :=
  let hits := s.recd.trigs.filter (fun t => 4 * t.at' ≤ lastQ)
  let s := setRec { s.recd with trigs := s.recd.trigs.filter (fun t => lastQ < 4 * t.at') } s
  if hits.isEmpty then s
  else if recState s = recArmed then startCapture hits row s
  else forEach hits addMark s

/-- Does a firmware download write to NAND (R289)? -/
def firmwareDownload (s : State) : Bool :=
  match s.upd.download with
  | some d => d.kind.val == 2 && (openOfKind s opDownload).any (fun n => match s.cmd.ops[n] with
      | none => false | some o => o.state == .running)
  | none => false

/-- Streaming: rows drain in the time of one row, at least at 40 MB/s while no firmware download writes. -/
def drainRows (s : State) : State :=
  let f := takeFree s
  let least := if firmwareDownload s then 0 else recK s * recP s / 10
  let s := f.2
  setRec { s.recd with
    drained := min (s.recd.rows.length * rowBytes s) (s.recd.drained + least + (Config.freeValue f.1).toNat) } s

/-- Close with a first row that was not stored (causes 2 and 6). -/
def closeShort (cause : Nat) (row : RecRow) (s : State) : State :=
  let s := match s.recd.cur with
    | none => s
    | some r => setRec { s.recd with cur := some { r with firstUnstored := some row.at' } } s
  recClose cause s

/-- Bytes of the open record: header, rows and changes. -/
def openBytes (s : State) : Nat := 4096 + s.recd.rows.length * rowBytes s + 16 * s.recd.changes.length

/-- CAPTURING: a post row is stored, or closes the record (R293). -/
def storePost (row : RecRow) (s : State) : State :=
  if recStream s && ringBytes < planBytes s + rowBytes s then closeShort 2 row s
  else
    let room : Bool × State := if recStream s then makeRoom 256 (openBytes s + rowBytes s) s else (true, s)
    let s := room.2
    if !room.1 then closeShort 6 row s
    else
      let s := setRec { s.recd with rows := s.recd.rows ++ [row], post := s.recd.post + 1 } s
      let s := whenS (recStream s) drainRows s
      if recPost s ≤ s.recd.post then recClose 1 s
      else if s.recd.masks.toList.any (fun y => y.left == some 0) then recClose 3 s
      else s

/-- A stored row: masks from arming, triggers, the row itself, masks from the trigger row. -/
def formRow (firstQ lastQ : Nat) (s : State) : State :=
  let words := (s.recd.acc.map (accWords (recK s))).flatten
  let row : RecRow := ⟨firstQ / 4, words, rd s Reg.TIME_STATE⟩
  let s := forEach (List.finRange 4) (maskStep true s.recd.formed row.at') s
  let s := takeTriggers lastQ row s
  let s := setRec { s.recd with formed := s.recd.formed + 1 } s
  let s := if recState s = recCapturing then
      storePost row (forEach (List.finRange 4) (maskStep false s.recd.post row.at') s)
    else keepPre row s
  showStore (showFill (setRec { s.recd with acc := [], accN := 0 } s))

/-! ### The capture instant (R279) -/

/-- One capture instant: 2 ms after it the samples form. -/
def captureStep (x : Vector CapInput 64) (s : State) : State :=
  if recState s = recArmed ∨ recState s = recCapturing then
    let n := s.recd.next.getD (nextInterval s)
    let q := capQ s n
    let s := advanceTo s (q + 8000000)
    let samples := (achans s).map (fun c => (c, capSample q x[c]))
    let s := forEach (List.finRange 8) (levelStep (q / 4) samples) s
    let old := if s.recd.accN = 0 then samples.map (fun _ => ({} : ChAcc)) else s.recd.acc
    let acc := (old.zip samples).map (fun p => accSample p.1 p.2.2)
    let s := setRec { s.recd with acc := acc, accN := s.recd.accN + 1, next := some (n + 1) } s
    if recK s ≤ s.recd.accN then formRow (capQ s (n + 1 - recK s)) q s else s
  else s

/-- CAPTURE_SAMPLE. -/
def execCaptureSample (x : Vector CapInput 64) (s : State) : Out := .next (captureStep x s)

/-- Does the next capture instant complete a stored row? -/
def rowDue (s : State) : Bool := s.recd.accN + 1 == recK s

/-- STORED_ROW. -/
def execStoredRow (x : Vector CapInput 64) (s : State) : Out := .next (whenS (rowDue s) (captureStep x) s)

/-- LEVEL_TRIGGER: the instant that may complete the count. -/
def execLevelTrigger (l : Fin 8) (x : Vector CapInput 64) (s : State) : Out :=
  .next (whenS (flg s (Reg.REC_LEVEL l) F.REC_LEVEL_en && !(s.recd.levels[l]).fired &&
    (s.recd.levels[l]).count + 1 == max 1 (fld s (Reg.REC_LEVEL l) F.REC_LEVEL_n)) (captureStep x) s)

/-- REC_MASK_VIOLATION: the row that may complete the count. -/
def execRecMaskViolation (k : Fin 4) (x : Vector CapInput 64) (s : State) : Out :=
  .next (whenS (rowDue s && fld s (Reg.REC_MASK_CFG k) F.REC_MASK_CFG_action != 0 && !(s.recd.masks[k]).done &&
    (s.recd.masks[k]).run + 1 == max 1 (fld s (Reg.REC_MASK_CFG k) F.REC_MASK_CFG_n)) (captureStep x) s)

/-- REC_TRIGGERED: the trigger row is formed. -/
def execRecTriggered (x : Vector CapInput 64) (s : State) : Out :=
  .next (whenS (rowDue s && recState s == recArmed) (captureStep x) s)

/-! ### Binary changes (R284) -/

/-- Put an entry in order of instant, then channel. -/
def insertChange (e : ChangeEntry) : List ChangeEntry → List ChangeEntry
  | [] => [e]
  | h :: l =>
    if e.at' < h.at' ∨ (e.at' = h.at' ∧ e.ch.val < h.ch.val) then e :: h :: l else h :: insertChange e l

/-- A change that finds the area full. -/
def loseChange (s : State) : State :=
  match s.recd.cur with
  | none => s
  | some r =>
    let s' := setRec { s.recd with cur := some { r with chgLost := r.chgLost + 1 } } s
    if r.chgLost = 0 then setF (logEvent 0x7006 0 r.number s') Reg.REC_STATUS F.REC_STATUS_chg_lost 1 else s'

/-- Does an edge trigger by REC_BCH_b.edge? -/
def edgeTriggers (s : State) (b : Fin 256) (up : Bool) : Bool :=
  fbit s (Reg.REC_BCH b) F.REC_BCH_edge (if up then 0 else 1)

/-- The instant of a change: points of class 7 are sampled every 200 fabric cycles (R283). -/
def changeInstant (s : State) (b : Fin 256) (at' : BitVec 64) : BitVec 64 :=
  if fld s (Reg.REC_BCH b) F.REC_BCH_class = 7 then BitVec.ofNat 64 ((at'.toNat + 499) / 500 * 500) else at'

/-- BINARY_CHANGE. -/
def execBinaryChange (b : Fin 256) (at' : BitVec 64) (s : State) : Out :=
  let at' := changeInstant s b at'
  let s := reachNs s at'
  let up := bchanPoint s b
  if recState s = recIdle ∨ !bchanOn s b ∨ s.recd.bin.getLsbD b = up then .next s
  else
    let bin := if up then s.recd.bin ||| (1#256 <<< b.val) else s.recd.bin &&& ~~~(1#256 <<< b.val)
    let full : Bool := changeEntries ≤ changesHeld s
    let s := setRec { s.recd with bin := bin } s
    let s := if full then loseChange s
      else setRec { s.recd with changes := insertChange ⟨at'.toNat, b, up, holdoverNow s⟩ s.recd.changes } s
    .next (showFill (whenS (edgeTriggers s b up) (recTrig srcEdge at'.toNat) s))

/-- Source 9: a rising edge of the routed request bit at a publication. -/
def requestEdge (s : State) : State :=
  let now' := match s.fab.running with
    | some img => (match img.recRequest with | some (k, pos) => imageBit s k pos | none => false)
    | none => false
  let s := whenS (now' && !s.recd.request) (recTrigNow srcRequest) s
  setRec { s.recd with request := now' } s

/-! ### Closing (R292, R297, R298) -/

/-- TIME_STATE.state of a stored word. -/
def timeCodeOf (w : Word) : Nat := getF w F.TIME_STATE_state

/-- The longest run of rows with HOLDOVER. -/
def longestRun : List RecRow → Nat → Nat → Nat
  | [], _, best => best
  | r :: l, run, best => if rowHoldover r then longestRun l (run + 1) (max best (run + 1)) else longestRun l 0 best

/-- The longest gap between instants, in ns. -/
def longestGap : Nat → List Nat → Nat → Nat
  | _, [], best => best
  | p, t :: l, best => longestGap (max p t) l (max best (t - p))

/-- R298 over the rows of a record and what the servo did meanwhile. -/
def qualityOf (rows : List RecRow) (notes : List RecNote) (k period : Nat) : RecQuality :=
  let first := (rows.head?.map (·.at')).getD 0
  let last := (rows.getLast?.map (·.at')).getD 0
  let ns := notes.filter (fun n => first ≤ n.at' && n.at' ≤ last)
  let acc := (ns.filter (fun n => n.kind.val == 0)).map (·.at')
  let before := (notes.filter (fun n => n.kind.val == 0 && n.at' < first)).foldl (fun m n => max m n.at') 0
  let theta := (ns.filter (fun n => n.kind.val ≤ 1)).foldl (fun m n => max m n.theta) 0
  let gap := longestGap (if before = 0 then first else before) (acc ++ [last]) 0
  let unset := rows.any (fun r => timeCodeOf r.time == 0)
  let slew := rows.any (fun r => timeCodeOf r.time == 1 || timeCodeOf r.time == 2)
  { code := if unset then 2 else if slew then 1 else 0
    estErr := if unset then 0xFFFFFFFF
      else if slew then BitVec.ofNat 32 (min 0xFFFFFFFF (50 + quot theta 4 + quot gap 2000000).toNat) else 50
    holdRows := (rows.filter rowHoldover).length
    holdMs := (quot (longestRun rows 0 0 * k * period * 5) 2000000).toNat
    refused := (ns.filter (fun n => n.kind.val == 2)).length }

/-- The record as its header completes it. -/
def finishRecord (r : Record) (s : State) : Record :=
  let rows := s.recd.rows
  let lo := (rows.head?.map (·.at')).getD 0
  let hi := (rows.getLast?.map (·.at')).getD 0
  let chg := s.recd.changes.filter (fun e => lo ≤ e.at' && e.at' ≤ hi)
  { r with
    rows := rows, changes := chg, postRows := s.recd.post, quality := qualityOf rows s.recd.notes r.k r.period
    timeFirst := (rows.head?.map (·.time)).getD 0, timeLast := (rows.getLast?.map (·.time)).getD 0
    lastAt := hi, drained := s.recd.drained, size := 4096 + rows.length * rowBytes s + 16 * chg.length }

/-- Does a cause allow an automatic re-arm (R294)? -/
def rearmCause (c : Nat) : Bool := c == 1 || c == 2 || c == 3 || c == 5 || c == 7 || c == 8

/-- The automatic re-arm: at once where checks 6 to 8 pass, else it waits. -/
def tryRearm (s : State) : State :=
  match roomRefused s with
  | none => armNow 1 none s
  | some _ => setF s Reg.REC_STATUS F.REC_STATUS_rearm_wait 1

/-- What the closing of a record shows: the event, its number, its last row, and overflow. -/
def noteClosed (r : Record) (s : State) : State :=
  let s := wr (logEvent 0x7003 r.cause r.number s) Reg.REC_LAST_NO r.number
  let s := match r.rows.getLast? with
    | none => s
    | some w => wr64 s Reg.REC_STOP_TIME (BitVec.ofNat 64 w.at')
  whenS (r.cause == 2 || r.cause == 6) (fun s => setF s Reg.REC_STATUS F.REC_STATUS_overflow 1) s

/-- After a warm start: the records it closed are noted, and a re-arm that R294 gives waits for a stored row. -/
def finishLate (s : State) : State :=
  let l := s.recd.awaiting.filter (fun r => s.recd.late.contains r.number)
  let s := forEach l noteClosed (setRec { s.recd with late := [] } s)
  whenS (flg s Reg.REC_CFG F.REC_CFG_auto_rearm && l.any (fun r => rearmCause r.cause))
    (fun s => setF s Reg.REC_STATUS F.REC_STATUS_rearm_wait 1) s

/-- REC_CLOSED: the header is complete. -/
def recordClosed (s : State) : State :=
  match s.recd.cur with
  | none => s
  | some r =>
    let r := finishRecord r s
    let s := setRec { s.recd with cur := none, awaiting := s.recd.awaiting ++ [r], op := none } s
    let s := noteClosed r (setRecState recIdle (clearPlan s))
    let s := whenS r.stream (partHold false) (showStore (showFill s))
    whenS (flg s Reg.REC_CFG F.REC_CFG_auto_rearm && rearmCause r.cause) tryRearm s

/-- REC_CLOSED: at most 10 ms after the close. -/
def execRecClosed (s : State) : Out :=
  if recState s = recClosing then .next (recordClosed (reachLocal (s.recd.closedAt + 10000000) s)) else .next s

/-- REC_STORED: the write of the oldest waiting record completes, where there is room for it. -/
def execRecStored (s : State) : Out :=
  match s.recd.awaiting with
  | [] => .next s
  | r :: l =>
    let s1 := setRec { s.recd with awaiting := l } s
    let m := makeRoom 256 r.size s1
    if !m.1 then .next { m.2 with recd := { m.2.recd with awaiting := r :: l } }
    else
      let s := m.2
      let r' : Record := { r with drained := 0, op := none }
      let s := logEvent 0x7004 0 r.number (setRec { s.recd with stored := s.recd.stored ++ [r'] } s)
      let s := endOp? r.op .completed (if r.cause = 2 ∨ r.cause = 6 then stOverflow else stOk) s
      .next (showStore (showFill s))

/-- REC_REARM: a stored row at which checks 6 to 8 pass. -/
def execRecRearm (s : State) : Out :=
  if recState s = recIdle ∧ flg s Reg.REC_STATUS F.REC_STATUS_rearm_wait ∧ flg s Reg.REC_CFG F.REC_CFG_auto_rearm then
    .next (tryRearm s)
  else .next s

/-! ### Records on NAND (R295, R299) -/

/-- Change a stored record. -/
def mapRecord (n : Word) (f : Record → Record) (s : State) : State :=
  setRec { s.recd with stored := s.recd.stored.map (fun r => if r.number = n then f r else r) } s

/-- Is the record stored? -/
def isStored (s : State) (n : Word) : Bool := s.recd.stored.any (fun r => r.number == n)

/-- Lock, unlock: status and state. A record that is not stored answers BAD_STATE (log entry 27). -/
def lockRecord (b : Bool) (n : Word) (s : State) : Nat × State :=
  if !isStored s n || exporting s n then (stBadState, s) else (stOk, mapRecord n (fun r => { r with locked := b }) s)

/-- Delete a record. -/
def deleteRecord (n : Word) (s : State) : Nat × State :=
  if !isStored s n || exporting s n then (stBadState, s)
  else (stOk, showStore (setRec { s.recd with stored := s.recd.stored.filter (fun r => r.number != n) } s))

/-- Open an EXPORT: it queues behind a running one, and a streaming capture holds it (R289). -/
def openExport (n : Word) (slot : Fin 16) (ch : Option (Fin 21)) (s : State) : Word × State :=
  let r := openOp slot opExport .queued ch n.toNat s
  let s := startQueuedExport r.2
  let streaming := recState s == recCapturing && recStream s
  (r.1, whenS streaming (partHold true) s)

/-- Drop the oldest exported files until the sizes fit the 512 MiB of the export area. -/
def trimExported : Nat → List Exported → List Exported
  | 0, l => l
  | n + 1, l => if l.foldl (fun m e => m + exportBytes e) 0 ≤ 536870912 then l else trimExported n l.tail

/-- The work of an EXPORT is complete: its four files are in the export area. -/
def exportDone (n : Fin 16) (s : State) : State :=
  match s.cmd.ops[n] with
  | none => s
  | some o =>
    let f := takeFree s
    let num := BitVec.ofNat 32 o.obj
    let new := (s.recd.stored.filter (fun r => r.number == num)).map (fun r => (⟨r, f.1⟩ : Exported))
    let l := s.recd.exported.filter (fun e => e.record.number != num) ++ new
    let s := setRec { f.2.recd with exported := trimExported l.length l } f.2
    endOp n .completed stOk s

/-! ### Resets (R296) -/

/-- What remains of a record after a cold start: a streaming one keeps the rows on NAND, a RAM-ring one its header. -/
def coldRecord (r : Record) (rowSize : Nat) : Record :=
  if r.stream then
    let n := if rowSize = 0 then r.rows.length else r.drained / rowSize
    { r with cause := 9, rows := r.rows.take n, lastAt := ((r.rows.take n).getLast?.map (·.at')).getD 0, drained := 0, size := 4096 + n * rowSize + 16 * r.changes.length, op := none }
  else { r with cause := 9, rows := [], changes := [], lastAt := 0, drained := 0, size := 4096, lost := true, op := none }

/-- The records whose index entry is OPEN: the capture in progress and those that await NAND. -/
def openRecords (s : State) : List Record :=
  s.recd.awaiting ++ (match s.recd.cur with
    | none => []
    | some r => [{ finishRecord r s with drained := s.recd.drained }])

/-- Cold start: the ring is lost; the stored records, the number of the next and the exported files remain. -/
def coldRecState (s : State) : RecState :=
  let kept := (openRecords s).map (fun r => coldRecord r (((r.rows.head?).map (fun w => 4 * w.words.length)).getD 0))
  { stored := s.recd.stored ++ kept, nextNo := s.recd.nextNo, exported := s.recd.exported }

/-- The records lost with the ring, logged after the start with cause 9. -/
def lostRecords (s : State) : List Word := ((openRecords s).filter (fun r => !r.stream)).map (·.number)

/-- Warm start: a capture closes with cause 8; LPDDR4X keeps what awaits NAND, with what an earlier reset left to note. -/
def warmRecState (s : State) : RecState :=
  let more := match s.recd.cur with
    | none => []
    | some r => [{ finishRecord r s with cause := if recState s = recCapturing then 8 else r.cause, op := none }]
  { awaiting := (s.recd.awaiting.map (fun r => { r with op := none })) ++ more
    stored := s.recd.stored, nextNo := s.recd.nextNo, exported := s.recd.exported
    late := s.recd.late ++ more.map (·.number) }

end Sys2Proof.Machine
end

