-- ==== Sys2Proof/Machine/Trig.lean ====
section
/-! DEFINITION. Absolute-time triggers (R128 to R130). -/

namespace Sys2Proof.Machine

open Sys2Proof

/-- States of TIME_TRIG_n_STATUS. -/
abbrev trigIdle : Nat := 0
abbrev trigArmed : Nat := 1
abbrev trigFired : Nat := 2
abbrev trigLate : Nat := 3
abbrev trigSkipped : Nat := 4
abbrev trigNoLock : Nat := 5

/-- The state of a trigger. -/
def trigState (s : State) (n : Fin 8) : Nat := fld s (Reg.TIME_TRIG_STATUS n) F.TIME_TRIG_STATUS_state

/-- A trigger's target in TAI ns. -/
def trigTarget (s : State) (n : Fin 8) : BitVec 64 := rd64 s (Reg.TIME_TRIG_TARGET n)

/-- Set a trigger's state. -/
def setTrig (n : Fin 8) (x : Nat) (s : State) : State := setF s (Reg.TIME_TRIG_STATUS n) F.TIME_TRIG_STATUS_state x

/-! ### Firing (R129) -/

/-- Does an instant in ns lie on a grid of `num`/`den` ns from each whole millisecond, plus an offset of `off`/`den` ns? -/
def onGrid (t num den off : Nat) : Bool := (t % 1000000 * den + num * den * 1000000 - off) % num == 0

/-- Does the PWM event that a core's source names fall on an instant? A SAWTOOTH pair gives every event at its valley. -/
def pwmOnGrid (s : State) (t : Nat) (c : Fin 4) : Bool :=
  let p := fld s (Reg.ADC_START c) F.ADC_START_pair
  let ev := fld s (Reg.ADC_START c) F.ADC_START_event
  let off := 5 * fld s (Reg.PWM_PAIR_PHASE p) F.PWM_PAIR_PHASE_phase
  let valley := onGrid t (5 * pairN s p) 4 off
  let peak := onGrid t (5 * pairN s p) 4 ((off + 5 * (pairN s p / 2)) % (5 * pairN s p))
  if isSaw s p then ev != 0 && valley else (ev.testBit 0 && valley) || (ev.testBit 1 && peak)

/-- Does the ADC start of a core fall on another instant than the target: the timer's grid, or the events of its pair? -/
def adcRounded (s : State) (t : Nat) (c : Fin 4) : Bool :=
  if adcState s c ≠ adcIdle ∨ !calValid s c then false
  else
    match fld s (Reg.ADC_START c) F.ADC_START_src with
    | 1 =>
      let p := 10 * (rd s (Reg.ADC_PERIOD c)).toNat
      p != 0 && t % p != 0
    | 2 => !pwmOnGrid s t c
    | _ => false

/-- Does the first valley of a held pair differ from the target? The grid is N ticks of 1.25 ns plus the phase. -/
def pairRounded (s : State) (t : Nat) (p : Fin 12) : Bool :=
  !(s.loop.pairs[p]).hold.isEmpty &&
    !onGrid t (5 * pairN s p) 4 (5 * fld s (Reg.PWM_PAIR_PHASE p) F.PWM_PAIR_PHASE_phase)

/-- Does a stage's first sample differ from the target? -/
def stageRounded (s : State) (t : Nat) (st : Fin 4) : Bool :=
  stageKind s st != 0 && !isGfm s st && t % stagePeriod s st != 0

/-- What a trigger of a kind starts, and whether it moves to the next grid instant. -/
def trigEffect (n : Fin 8) (t : Nat) (s : State) : Bool × State :=
  let mask := fld s (Reg.TIME_TRIG_CFG n) F.TIME_TRIG_CFG_mask
  match fld s (Reg.TIME_TRIG_CFG n) F.TIME_TRIG_CFG_kind with
  | 1 =>
    let cores := (List.finRange 4).filter (fun (c : Fin 4) => mask.testBit c)
    (cores.any (adcRounded s t), forEach cores runCore s)
  | 2 =>
    let pairs := (List.finRange 12).filter (fun (p : Fin 12) => mask.testBit p)
    (pairs.any (pairRounded s t), releaseHold n true s)
  | 3 =>
    let stages := (List.finRange 4).filter (fun (st : Fin 4) => mask.testBit st)
    (stages.any (stageRounded s t), forEach stages requestStart s)
  | 4 =>
    let stages := (List.finRange 4).filter (fun (st : Fin 4) => mask.testBit st)
    (false, forEach stages (fun st s =>
      if stageKind s st = 0 then refuseStart st 3 s else requestStart st s) s)
  | 5 =>
    (false, whenS (fbit s Reg.REC_TRIG_SRC F.REC_TRIG_SRC_trig_n n) (recTrig srcTrig t) s)
  | _ => (false, s)

/-- The counter has reached an armed target. -/
def fireTrig (n : Fin 8) (s : State) : State :=
  if flg s (Reg.TIME_TRIG_CFG n) F.TIME_TRIG_CFG_need_lock ∧ !timeIsLocked s then
    logN 0x2203 n (timeState s) (releaseHold n false (setTrig n trigNoLock s))
  else
    let r := trigEffect n (trigTarget s n).toNat (setTrig n trigFired s)
    setF r.2 (Reg.TIME_TRIG_STATUS n) F.TIME_TRIG_STATUS_rounded (b2n r.1)

/-! ### Arming (R128) -/

/-- Arm an idle trigger; a target less than 10 µs ahead makes it LATE (R128). -/
def armTrig (n : Fin 8) (s : State) : State :=
  let s := setF s (Reg.TIME_TRIG_STATUS n) F.TIME_TRIG_STATUS_rounded 0
  let t := trigTarget s n
  if t.toNat < nowNat s + 10000 then logEvent 0x2201 n (t.extractLsb' 0 32) (setTrig n trigLate s)
  else setTrig n trigArmed s

/-- Disarm an armed trigger: the pairs it held start at their next valley (R470). Where the counter has reached the target,
the firing prevails (R130). -/
def disarmTrig (n : Fin 8) (s : State) : State :=
  if trigState s n ≠ trigArmed then s
  else if 4 * (trigTarget s n).toNat ≤ s.tai.toNat then fireTrig n s
  else releaseHold n false (setTrig n trigIdle s)

/-- A write of TIME_TRIG_n_CFG: disarm prevails over arm; arm does nothing to an armed trigger. -/
def writeTrigCfg (n : Fin 8) (v : Word) (s : State) : State :=
  let s := wr s (Reg.TIME_TRIG_CFG n) (v &&& 0xFFFF001F)
  if getF v F.TIME_TRIG_CFG_disarm = 1 then disarmTrig n s
  else if getF v F.TIME_TRIG_CFG_arm = 1 ∧ trigState s n ≠ trigArmed then armTrig n s
  else s

/-- A write of TIME_TRIG_n_TARGET, whole: ignored while armed. -/
def writeTrigTarget (n : Fin 8) (v : BitVec 64) (s : State) : State :=
  if trigState s n = trigArmed then s else wr64 s (Reg.TIME_TRIG_TARGET n) v

/-- TRIG_FIRE. -/
def execTrigFire (n : Fin 8) (s : State) : Out :=
  if trigState s n = trigArmed then .next (fireTrig n (reachNs s (trigTarget s n))) else .next s

end Sys2Proof.Machine
end

