-- ==== Sys2Proof/Machine/Write.lean ====
section
/-! DEFINITION. Register writes by window: what each register of the blocks does with a written word (R11, R12, R368). The
bus and the settings write through these. -/

namespace Sys2Proof.Machine

open Sys2Proof

/-- A write with no effect beyond its access codes (R11, R12). -/
def plainWrite (r : RegSpec) (a : Nat) (v : Word) (s : State) : State :=
  wr s a (accessWrite (rd s a) v (r.half a (if lockedAt s a then r.rw else r.rw ||| r.rwl)) (r.half a r.w1c))

/-- R368: may the part act on a write that takes the ACTIVE role? -/
def roleWrite (act : State → State) (s : State) : State :=
  if holdsActive s then act s else setF s Reg.DPX_STATUS F.DPX_STATUS_role_write 1

/-- Writes of CLK. -/
def writeClk (r : RegSpec) (a : Nat) (v : Word) (s : State) : State :=
  if a = Reg.CLK_REF_CFG then writeRefCfg v s
  else if a = Reg.CLK_MCLK_DIV then (if !lockedAt s a && mclkTooLow v s then clkErr s else writeMclk v s)
  else if r.base = Reg.CLK_CKOUT 0 then writeCkout ((a - r.base) / 4) v s
  else plainWrite r a v s

/-- Writes of TIME. -/
def writeTime (r : RegSpec) (a : Nat) (v : Word) (s : State) : State :=
  if a = Reg.TIME_STEP then writeTimeStep v s
  else if r.base = Reg.TIME_TRIG_CFG 0 then writeTrigCfg (Fin.ofNat 8 ((a - r.base) / 16)) v s
  else plainWrite r a v s

/-- Writes of ADC. -/
def writeAdc (r : RegSpec) (a : Nat) (v : Word) (s : State) : State :=
  let o := a - r.base
  if a = Reg.ADC_CMP_STATUS then writeCmpStatus v s
  else if r.base = Reg.ADC_CTRL 0 then writeAdcCtrl (Fin.ofNat 4 (o / 0x40)) v s
  else if r.base = Reg.ADC_START 0 then writeAdcStart (o / 0x40) v s
  else if r.base = Reg.ADC_PERIOD 0 then writeAdcPeriod (o / 0x40) v s
  else if r.base = Reg.ADC_AIN_CFG 0 then writeAinCfg (o / 4) v s
  else if r.base = Reg.ADC_HARD 0 then showGates (writeHard (o / 4) v s)
  else if r.base = Reg.ADC_MOD_CFG 0 then writeModCfg (o / 4) v s
  else plainWrite r a v s

/-- Writes of FILT. -/
def writeFilt (r : RegSpec) (a : Nat) (v : Word) (s : State) : State :=
  if r.base = Reg.FILT_CH_CFG 0 then writeFiltCfg (Fin.ofNat 24 ((a - r.base) / 0x20)) v s else plainWrite r a v s

/-- Writes of CTRL. -/
def writeCtrl (r : RegSpec) (a : Nat) (v : Word) (s : State) : State :=
  let o := a - r.base
  let st : Fin 4 := Fin.ofNat 4 (o / 0x100)
  let hov : Fin 4 := Fin.ofNat 4 ((a - Reg.CTRL_HOVER_CFG 0) / 0x100)
  if r.base = Reg.CTRL_STAGE_CMD 0 then roleWrite (writeStageCmd st v) s
  else if a = Reg.CTRL_HOVER_CFG hov then writeHover hov v s
  else if r.base = Reg.CTRL_REGION_AXES 0 then writeMap st a v 0xFF s
  else if r.base = Reg.CTRL_REGION_B01 0 0 ∨ r.base = Reg.CTRL_REGION_B2H 0 0 then writeMap st a v 0xFFFFFFFF s
  else if r.base = Reg.CTRL_LIMIT 0 then writeLimit st v s
  else if r.base = Reg.CTRL_STAGE_PHASE 0 then writePhase st v s
  else if r.base = Reg.CTRL_BAND_CFG 0 then writeBandCfg st v s
  else if r.base = Reg.CTRL_NOTCH 0 0 then writeNotch st (Fin.ofNat 4 (o / 4)) v s
  else if r.base = Reg.CTRL_COEF 0 0 0 then writeCoef a (o % 0x80 / 4) v s
  else if r.base = Reg.CTRL_PROF_CFG 0 then writeProfCfg (Fin.ofNat 16 (o / 0x20)) v s
  else if r.base = Reg.CTRL_PROF_VMAX 0 ∨ r.base = Reg.CTRL_PROF_AMAX 0 ∨ r.base = Reg.CTRL_PROF_JMAX 0 then
    writeProfLim (o / 0x20) a (v &&& r.half a r.rw) s
  else plainWrite r a v s

/-- Writes of GFM. -/
def writeGfm (r : RegSpec) (a : Nat) (v : Word) (s : State) : State :=
  let g : Fin 2 := Fin.ofNat 2 ((a - r.base) / 0x200)
  let off := (a - Reg.GFM_CFG 0) % 0x200
  if a = Reg.GFM_GROUP then writeGfmGroup v s
  else if a = Reg.GFM_VF_CFG then writeVfCfg v s
  else if r.base = Reg.GFM_CFG 0 then writeGfmCfg g v s
  else if r.base = Reg.GFM_DROOP 0 then writeGfmDroop g v s
  else if r.base = Reg.GFM_CONT 0 then writeGfmCont g v s
  else if r.base = Reg.GFM_CMD 0 then roleWrite (writeGfmCmd g v) s
  else if Reg.GFM_CFG 0 ≤ a ∧ a < Reg.GFM_VF_CFG ∧ off ≤ 0x48 then writeGfmSetting g off v s
  else plainWrite r a v s

/-- Writes of a feeder's PROT registers. -/
def writeFeeder (r : RegSpec) (a : Nat) (v : Word) (s : State) : State :=
  let o := a - r.base
  let f : Fin 8 := Fin.ofNat 8 (o / 0x100)
  if r.base = Reg.PROT_FDR_CFG 0 then writeFdrCfg f v s
  else if r.base = Reg.PROT_BKR_CFG 0 then writeBkrCfg f v s
  else if r.base = Reg.PROT_TRIP_MAP 0 then writeTripMap f v s
  else if r.base = Reg.PROT_BF_CFG 0 then writeBfCfg f v s
  else if r.base = Reg.PROT_BF_MAP 0 then writeBfMap f v s
  else if r.base = Reg.PROT_TC_CFG 0 then writeTc f v s
  else if r.base = Reg.PROT_DIR 0 then writeDir f v s
  else if r.base = Reg.PROT_LMD 0 then writeLmdF f v s
  else if r.base = Reg.PROT_LMD_REACH 0 then writeReach f v s
  else if r.base = Reg.PROT_THERM 0 then writeTherm f v s
  else if r.base = Reg.PROT_OC 0 0 then writeOc f (Fin.ofNat 7 (o % 0x100 / 8)) v s
  else if r.base = Reg.PROT_OC_T 0 0 then writeOcT f (Fin.ofNat 7 (o % 0x100 / 8)) v s
  else if r.base = Reg.PROT_VF 0 0 then writeVf f (Fin.ofNat 4 (o % 0x100 / 4)) v s
  else plainWrite r a v s

/-- Writes of PROT. -/
def putProt (r : RegSpec) (a : Nat) (v : Word) (s : State) : State :=
  let o := a - r.base
  if a = Reg.PROT_LMD_CFG then writeLmdCfg v s
  else if a = Reg.PROT_BLOCK then writeBlock v s
  else if r.base = Reg.PROT_32 0 then write32 (Fin.ofNat 2 (o / 8)) v s
  else if r.base = Reg.PROT_UCURVE 0 0 then writeCurve (Fin.ofNat 4 (o / 0x40)) (o % 0x40 / 4) v s
  else writeFeeder r a v s

/-- Writes of PROT: a setting takes effect at the next phasor update (R256). -/
def writeProt (r : RegSpec) (a : Nat) (v : Word) (s : State) : State :=
  let t := putProt r a v s
  if a = Reg.PROT_STATUS ∨ a = Reg.PROT_BLOCK ∨ r.base = Reg.PROT_FDR_FLAGS 0 ∨ r.base = Reg.PROT_UCURVE 0 0 then t
  else keepForce a (rd s a) t

/-- R278: may REC_PERIOD hold P? -/
def recPeriodOk (p : Nat) : Bool := 80 ≤ p && p ≤ 400000000 && (400000 % p == 0 || p % 400000 == 0)

/-- Writes of REC: plan registers take writes only in IDLE (R278). -/
def writeRec (r : RegSpec) (a : Nat) (v : Word) (s : State) : State :=
  if a = Reg.REC_CTRL then writeRecCtrl v s
  else if a = Reg.REC_STATUS ∨ r.half a r.rw = 0 then plainWrite r a v s
  else if recState s ≠ recIdle ∨ (a = Reg.REC_PERIOD ∧ !recPeriodOk v.toNat) then
    setF s Reg.REC_STATUS F.REC_STATUS_cfg_err 1
  else showCap (plainWrite r a v s)

/-- Writes of SCAN. -/
def writeScan (r : RegSpec) (a : Nat) (v : Word) (s : State) : State :=
  if r.base = Reg.SCAN_CTRL 0 then roleWrite (writeScanCtrl (Fin.ofNat 2 ((a - r.base) / 0x100)) v) s else plainWrite r a v s

/-- Writes of FIO; an acknowledgement takes the ACTIVE role, a kill does not (R368). -/
def writeFio (r : RegSpec) (a : Nat) (v : Word) (s : State) : State :=
  let n := (a - r.base) / 4
  if s.fio.seen.isSome then silentWrite r a v s
  else if a = Reg.FIO_SAFE_CFG then writeSafeCfg v s
  else if a = Reg.FIO_GRP_CTRL then writeGrpCtrl v (holdsActive s) s
  else if r.base = Reg.FIO_DO_CFG 0 then writeDoCfg n v s
  else if a = Reg.FIO_DO_FAULT then writeDoFault v s
  else if r.base = Reg.FIO_TRIP_CFG 0 then writeTripCfg n v s
  else plainWrite r a v s

/-- Writes of NET: a unit that is armed or acting takes no configuration (R405). -/
def writeNet (r : RegSpec) (a : Nat) (v : Word) (s : State) : State :=
  let u := (a - r.base) / 0x20
  if r.base = Reg.NET_FI_CFG 0 then writeFiCfg (Fin.ofNat 10 u) v s
  else if (r.base = Reg.NET_FI_PARAM 0 ∨ r.base = Reg.NET_FI_MATCH 0) ∧ fiLocked s u then netErr s
  else plainWrite r a v s

/-- Writes of a FABRIC window. -/
def writeFab (r : RegSpec) (a : Nat) (v : Word) (s : State) : State :=
  let c := Fin.ofNat 4 ((a - r.base) / 0x10000)
  if r.base = Reg.FAB_SHADOW_CTRL 0 then writeShadowCtrl c v s
  else if r.base = Reg.FAB_IND_CTRL 0 then writeIndCtrl c v s
  else plainWrite r a v s

/-- A write of PWM_GATE_CTRL: a release takes the ACTIVE role, a block does not (R368). -/
def gateCtrlWrite (v : Word) (s : State) : State :=
  if holdsActive s ∨ getF v F.PWM_GATE_CTRL_release = 0 then writeGateCtrl v s
  else setF (writeGateCtrl (putF v F.PWM_GATE_CTRL_release 0) s) Reg.DPX_STATUS F.DPX_STATUS_role_write 1

/-- Writes of PWM. -/
def writePwm (r : RegSpec) (a : Nat) (v : Word) (s : State) : State :=
  let p : Fin 12 := Fin.ofNat 12 ((a - r.base) / 0x20)
  if a = Reg.PWM_GATE_CTRL then gateCtrlWrite v s
  else if a = Reg.PWM_GDF_CFG then writeGdfCfg v s
  else if a = Reg.PWM_GDF_STATUS then writeGdfStatus v s
  else if r.base = Reg.PWM_PAIR_CFG 0 then writePairCfg p v s
  else if r.base = Reg.PWM_PAIR_PERIOD 0 then writePairPeriod p v s
  else if r.base = Reg.PWM_PAIR_PHASE 0 then writePairPhase p v s
  else if r.base = Reg.PWM_PAIR_DEAD 0 then writePairDead p v s
  else plainWrite r a v s

/-- A write of a register of the blocks that carry the functions of the part. -/
def writeBlockReg (r : RegSpec) (a : Nat) (v : Word) (s : State) : State :=
  match a / 0x10000 with
  | 0x4002 => writeClk r a v s
  | 0x4003 => writeTime r a v s
  | 0x4004 => writeAdc r a v s
  | 0x4005 => writeFilt r a v s
  | 0x4006 => writeCtrl r a v s
  | 0x4007 => writeGfm r a v s
  | 0x4008 => writeProt r a v s
  | 0x4009 => writeRec r a v s
  | 0x400A => writeScan r a v s
  | 0x400B => writeFio r a v s
  | 0x400D => writeNet r a v s
  | 0x4014 => writePwm r a v s
  | _ => plainWrite r a v s

/-! ### Settings (R5, R64, R439) -/

/-- Windows whose registers a settings record may set: values inside the structure, never the fabric, the part's own control
or the mailbox. -/
def settingWindows : List Nat :=
  [0x4002, 0x4003, 0x4004, 0x4005, 0x4006, 0x4007, 0x4008, 0x4009, 0x400A, 0x400B, 0x400C, 0x400D, 0x400F, 0x4014]

/-- Registers that command rather than configure: no record sets them. -/
def commandRegs : List Nat :=
  [Reg.PWM_GATE_CTRL, Reg.FIO_GRP_CTRL, Reg.PROT_BLOCK, Reg.DPX_CMD] ++ (List.range 4).map Reg.CTRL_STAGE_CMD ++
    (List.range 8).map Reg.TIME_TRIG_CFG

/-- A settings record sets a register: its RW fields and its RWL fields that no lock holds, by the register's own rules. -/
def settingWrite (a : Nat) (v : Word) (s : State) : State :=
  if !settingWindows.contains (a / 0x10000) || commandRegs.contains a then s
  else
    match findReg a with
    | none => s
    | some r =>
      let w := v &&& r.half a (r.rw ||| r.rwl)
      if r.wide then wr s a (accessWrite (rd s a) w (r.half a r.rw) 0) else writeBlockReg r a w s

end Sys2Proof.Machine
end

