-- ==== Sys2Proof/Machine/Settings.lean ====
section
/-! DEFINITION. The settings set in force, its storage and its application (R439), and the versions a duplex compares
(R376). -/

namespace Sys2Proof.Machine

open Sys2Proof

/-- Change update and recovery. -/
def setUpd (x : UpdState) (s : State) : State := { s with upd := x }

/-- The settings set in force; an empty one where none is stored. -/
def settingsNow (s : State) : SettingsSet := (s.upd.settings[s.upd.inForce]).getD {}

/-- The firmware that runs: the image in the active slot of kind 3. -/
def runningFirmware (s : State) : Option Firmware := s.upd.firmware[(s.upd.journal[2]).active]

/-- Its version. -/
def firmwareVersion (s : State) : Word := match runningFirmware s with | none => 0 | some f => f.version

/-- R376: the versions of this unit. -/
def ownVersions (s : State) : Versions where
  pitch := rd s Reg.FAB_IMAGE_ID
  scan := #v[rd s (Reg.SCAN_PROG_ID 0), rd s (Reg.SCAN_PROG_ID 1)]
  firmware := firmwareVersion s
  settings := rd s Reg.UPD_SETTINGS

/-- Is the firmware in a trial? -/
def firmwareTrial (s : State) : Bool := (s.upd.journal[2]).state == .trial

/-- Show the settings version in force. -/
def showSettings (s : State) : State := wr s Reg.UPD_SETTINGS (settingsNow s).version

/-- R439: write a complete set into the other slot and journal that slot as the slot in force. -/
def storeOther (x : SettingsSet) (s : State) : State :=
  let o := 1 - s.upd.inForce
  showSettings (setUpd { s.upd with settings := s.upd.settings.set o (some x), inForce := o } s)

/-- R440: during a firmware trial the trial slot is rewritten in place. -/
def storeInPlace (x : SettingsSet) (s : State) : State :=
  showSettings (setUpd { s.upd with
    settings := s.upd.settings.set s.upd.inForce (some x), trialWrites := s.upd.trialWrites + 1 } s)

/-- Records replaced by type, and new ones added. -/
def mergeRecords (old new : List SettingsRecord) : List SettingsRecord :=
  old.map (fun r => (new.find? (fun q => q.type == r.type)).getD r) ++
    new.filter (fun q => !old.any (fun r => r.type == q.type))

/-- The set with records written; its version rises. -/
def writtenSet (s : State) (new : List SettingsRecord) : SettingsSet :=
  { version := (settingsNow s).version + 1, writer := firmwareVersion s, records := mergeRecords (settingsNow s).records new }

/-- R439: the bytes of a set: its header, and each record's 8 bytes and padded value. -/
def setBytes (x : SettingsSet) : Nat := 64 + (x.records.map (fun r => 8 + 4 * r.value.length)).sum

/-- R439: the fields of a set's header but its CRC: version, firmware that wrote it, record count, total length. -/
def setHeader (x : SettingsSet) : List Word :=
  [x.version, x.writer, BitVec.ofNat 32 x.records.length, BitVec.ofNat 32 (setBytes x)]

/-- Store a write: in place during a firmware trial, in the other slot otherwise. -/
def storeWrite (new : List SettingsRecord) (s : State) : State :=
  if firmwareTrial s then storeInPlace (writtenSet s new) s else storeOther (writtenSet s new) s

/-- Put records into effect: the registers they set, and the network parameters. -/
def applyRecords (rs : List SettingsRecord) (s : State) : State :=
  let s := forEach rs (fun r s => forEach r.regs (fun p s => settingWrite p.1 p.2 s) s) s
  { s with net := { s.net with items := (settingsNow s).records.filterMap (fun r => r.net) } }

/-- SETTINGS_APPLIED (R439): the records apply at their boundary. -/
def settingsApplied (rs : List SettingsRecord) (s : State) : State :=
  let s := applyRecords rs s
  logEvent 0xC00C 0 (settingsNow s).version s

end Sys2Proof.Machine
end

