-- ==== Sys2Proof/Machine/Dpx.lean ====
section
/-! DEFINITION. Duplex operation over GUYLINE: messages, epochs, the state machine of Table 13.4, takeover, rejoin and
switchover (chapter 13). -/

namespace Sys2Proof.Machine

open Sys2Proof

/-! ### State, OWNER and epoch -/

/-- Drive OWNER, and show it in DPX_STATUS too. -/
def driveOwner (b : Bool) (s : State) : State := setF (setOwner b s) Reg.DPX_STATUS F.DPX_STATUS_owner (b2n b)

/-- R369: a change of state with its role, logged. -/
def setDpx (n : Nat) (s : State) : State :=
  let old := dpxState s
  if old = n then s
  else
    let s := setF s Reg.DPX_STATUS F.DPX_STATUS_state n
    let s := setF s Reg.DPX_STATUS F.DPX_STATUS_role (roleOf (dpxOn s) n)
    logN 0xA001 0 (old * 256 + n) s

/-- R365: commit an epoch to EMBER and take it. -/
def takeEpoch (e : Word) (s : State) : State :=
  wr (setDpxRec { s.dpx with emberEpoch := e } s) Reg.DPX_EPOCH e

/-- Side B has SIDE high. -/
def sideB (s : State) : Bool := flg s Reg.DPX_STATUS F.DPX_STATUS_side

/-- Is this unit ACTIVE, ACTIVE_ALONE or SWITCHING? -/
def actsAlone (s : State) : Bool := dpxState s == dpxActive || dpxState s == dpxAlone || dpxState s == dpxSwitching

/-- Do the scan cores stop because the unit no longer holds the ACTIVE role (R374, R390)? Their output images keep their
values. -/
def holdCores (s : State) : State :=
  forEach (List.finRange 2) (fun (k : Fin 2) s =>
    if scanMode s k = scanStop then s
    else rescheduleSwap k (setScanMode k scanStop (setScan k (dropCycles s.scan.cores[k]) s))) s

/-- R367, R379, R380: OWNER falls and the unit enters RELEASED. -/
def enterReleased (s : State) : State := holdCores (setDpx dpxReleased (driveOwner false s))

/-- Rows 9 and 10: the unit releases itself, by its timer (1) or a probe (2). -/
def selfRelease (cause : Nat) (s : State) : State :=
  logEvent 0xA008 cause (ownEpoch s) (enterReleased s)

/-- R367, row 11: a higher epoch is claimed. -/
def epochConflict (e : Word) (s : State) : State :=
  let s := setF s Reg.DPX_STATUS F.DPX_STATUS_conflict_seen 1
  logEvent 0xA009 0 e (enterReleased s)

/-- R366: count a stale message (0 GUYLINE, 1 host) and log it at most once per second. -/
def noteStale (i : Fin 2) (s : State) : State :=
  let s := whenS (i == 0) (fun s => setF s Reg.DPX_STATUS F.DPX_STATUS_stale_seen 1) s
  let n := s.dpx.stale[i] + 1
  if oncePerSecond (s.dpx.staleLogged[i]) s then
    let s := setDpxRec { s.dpx with
      stale := s.dpx.stale.set i 0, staleLogged := s.dpx.staleLogged.set i (some (localNs s)) } s
    logN 0xA00A i n s
  else setDpxRec { s.dpx with stale := s.dpx.stale.set i n } s

/-! ### Receiving (R361 to R363) -/

/-- Count a message discarded for its CRC. -/
def badCrc (p : Fin 2) (s : State) : State := bumpSat (Reg.DPX_PATH_STAT p) F.DPX_PATH_STAT_crc_err s

/-- R363: is this the first copy of its sequence, with a valid CRC, in a duplex? -/
def firstCopy (s : State) (ty : Fin 16) (h : GuyHeader) : Bool :=
  dpxOn s && dpxState s != dpxOff && h.crcOk &&
    (match s.dpx.seqIn[ty] with | none => true | some q => decide (q < h.seq))

/-- Accept a sequence number. -/
def acceptSeq (ty : Fin 16) (q : Word) (s : State) : State :=
  setDpxRec { s.dpx with seqIn := s.dpx.seqIn.set ty (some q) } s

/-- A message of a type, other than HEARTBEAT: acted on where it is a first copy and its epoch and its sender's role pass
R366; `role` is the role the message requires, if any. -/
def receive (ty : Fin 16) (role : Option Nat) (anyEpoch : Bool) (h : GuyHeader) (act : State → State) (s : State) : State :=
  if !dpxOn s ∨ dpxState s = dpxOff then s
  else if !h.crcOk then badCrc h.path s
  else if !firstCopy s ty h then s
  else
    let s := wr (acceptSeq ty h.seq s) Reg.DPX_PARTNER_EPOCH h.epoch
    let roleOk := match role with | none => true | some r => h.role.val == r
    if (h.epoch ≠ ownEpoch s ∧ !anyEpoch) ∨ !roleOk then noteStale 0 s else act s

/-! ### Paths (R364) -/

def pathUp (s : State) (p : Fin 2) : Bool := fbit s Reg.DPX_STATUS F.DPX_STATUS_path_up p
def anyPathUp (s : State) : Bool := fld s Reg.DPX_STATUS F.DPX_STATUS_path_up != 0

/-- Add misses to the count of a path. -/
def addMissed (p : Fin 2) (n : Nat) (s : State) : State :=
  let a := Reg.DPX_PATH_STAT p
  setF s a F.DPX_PATH_STAT_missed (min 65535 (fld s a F.DPX_PATH_STAT_missed + n))

/-- A path goes down, with its missed heartbeats. -/
def takeDown (p : Fin 2) (n : Nat) (s : State) : State :=
  if !pathUp s p then s
  else
    let s := setFbit s Reg.DPX_STATUS F.DPX_STATUS_path_up p false
    logN 0xA002 p n (setF s Reg.DPX_STATUS F.DPX_STATUS_path_down_seen 1)

/-- A valid heartbeat on a path: misses of the gap before it, and the run of valid ones. -/
def pathHeard (p : Fin 2) (s : State) : State :=
  let x := s.dpx.paths[p]
  let missed := (localNs s - x.last) / 10000 - 1
  let s := addMissed p (missed - x.counted) s
  let s := if 8 ≤ missed then takeDown p missed s else s
  let good := if missed = 0 then x.good + 1 else 1
  let s := setDpxRec { s.dpx with
    paths := s.dpx.paths.set p { good := good, last := localNs s, counted := 0 }, hbAt := some (localNs s) } s
  if 16 ≤ good ∧ !pathUp s p then
    logN 0xA003 p 0 (setFbit s Reg.DPX_STATUS F.DPX_STATUS_path_up p true)
  else s

/-! ### Takeover (R370) -/

/-- An unsynced takeover: grid forming STOPPED, and every stage OFF from its next sample instant, where alone a mode changes
(R203). -/
def stagesAllOff (s : State) : State :=
  let s := forEach (List.finRange 4) (fun (st : Fin 4) s =>
    whenS (modeRuns (stageMode s st)) (fun s => setStage st { s.loop.stages[st] with stopReq := true } s) s) s
  forEach (List.finRange 2) (fun (g : Fin 2) s =>
    whenS (gState s g != gStopped) (setGfmState g gStopped) s) s

/-- Tracking stages are marked to leave at their first sample after OWNER rises, in the mode their last MIRROR carried. -/
def stagesReplay (s : State) : State :=
  setDpxRec { s.dpx with fresh := Vector.ofFn (fun (st : Fin 4) =>
    match s.dpx.mirrors[st] with
    | none => stageMode s st == modeReplay
    | some m => modeRuns m.mode && modeRuns (stageMode s st)) } s

/-- The scan cores of a new ACTIVE restart warm at the next publication instant (R374). -/
def coresTakeover (s : State) : State :=
  forEach (List.finRange 2) (fun (k : Fin 2) s =>
    setScan k { s.scan.cores[k] with autoDone := false, warmStart := true } s) s

/-- R365, R370: a takeover, by source code of TAKEOVER, into a state. Source 4 is without state, source 5 a switchover. -/
def takeover (src n : Nat) (s : State) : State :=
  let p := rd s Reg.DPX_PARTNER_EPOCH
  let e := (if ownEpoch s < p then p else ownEpoch s) + 1
  let s := takeEpoch e s
  let s := if src = 4 then stagesAllOff s else if src = 5 then s else stagesReplay s
  let s := coresTakeover (driveOwner true s)
  let s := wr64 s Reg.DPX_TAKEOVER_TIME (now s)
  let s := setDpxRec { s.dpx with
    probeAt := none, unanswered := 0, switchHeld := none
    freshFrom := if src = 4 then none else some (localNs s) } s
  setDpx n (logEvent 0xA006 src e s)

/-- The source of a takeover from TAKING: without state where it was entered from SYNCING. -/
def takingSource (s : State) (src : Nat) : Nat := if s.dpx.fromSynced then src else 4

/-! ### SYNCED (R376) -/

/-- Is a stage blocked here that the ACTIVE's corresponding stage is not? -/
def blockedAlone (s : State) (st : Fin 4) : Bool :=
  latchedBlocked s st && (match s.dpx.mirrors[st] with | none => true | some m => m.mode.val != modeBlocked)

/-- Has MIRROR come with a gap in the last second, or does a stage replay? -/
def mirrorGap (s : State) : Bool :=
  (match s.dpx.mirrorFrom with | none => true | some t => decide (localNs s < t + 1000000000)) ||
    (List.finRange 4).any (fun (st : Fin 4) => stageMode s st == modeReplay)

/-- The first condition of R376 that fails, by the codes of SYNC_FAILED; 0 where all hold. -/
def syncFault (s : State) : Nat :=
  if s.dpx.partner.versions ≠ some (ownVersions s) then 1
  else if rd s Reg.DPX_DIGEST ≠ rd s Reg.DPX_DIGEST_PARTNER then 2
  else if timeState s ≠ timeLocked ∨ timeSource s ≠ 3 then 3
  else if mirrorGap s then 4
  else if (List.finRange 4).any (blockedAlone s) then 5
  else if !anyPathUp s then 6
  else 0

/-- CONFIG_MISMATCH. -/
def noteMismatch (s : State) : State :=
  logEvent 0xA00F 0 (rd s Reg.DPX_DIGEST_PARTNER) (setF s Reg.DPX_STATUS F.DPX_STATUS_mismatch_seen 1)

/-- Show whether the conditions hold. -/
def showSynced (s : State) : State :=
  setF s Reg.DPX_STATUS F.DPX_STATUS_synced_ok (b2n ((dpxState s == dpxSyncing || dpxState s == dpxSynced) && syncFault s == 0))

/-- Row 17: a condition fails in SYNCED. -/
def checkSynced (s : State) : State :=
  let c := syncFault s
  let s := showSynced s
  if dpxState s = dpxSynced ∧ c ≠ 0 then
    setDpx dpxSyncing (logN 0xA00C c 0 (whenS (c == 2) noteMismatch s))
  else s

/-- Send SYNC_REQ. -/
def sendSyncReq (s : State) : State :=
  sendGuy 0x0A (.syncReq (ownVersions s)) (setDpxRec { s.dpx with syncReqAt := localNs s } s)

/-- Enter SYNCING to rejoin (rows 2 and 25). -/
def enterSyncing (s : State) : State :=
  sendSyncReq (setDpx dpxSyncing (setDpxRec { s.dpx with
    firstHb := localNs s, probeAt := none, unanswered := 0, mirrorFrom := none } s))

/-! ### HEARTBEAT (R362, R364, R366, R367) -/

/-- Keep what a heartbeat tells. -/
def noteHeartbeat (h : GuyHeader) (b : Heartbeat) (s : State) : State :=
  let a := Reg.DPX_PARTNER
  let s := setF (setF s a F.DPX_PARTNER_state b.state) a F.DPX_PARTNER_role h.role
  let s := setF (setF s a F.DPX_PARTNER_owner (b2n b.owner)) a F.DPX_PARTNER_hb_running (b2n b.running)
  let s := wr (wr s Reg.DPX_PARTNER_EPOCH h.epoch) Reg.DPX_DIGEST_PARTNER b.digest
  let p := s.dpx.partner
  setDpxRec { s.dpx with partner := { p with
    doCmd := b.doCmd, tripCircuit := b.tripCircuit, tripOn := b.tripOn
    versions := match b.versions with | none => p.versions | some v => some v } } s

/-- R366: is a heartbeat stale? Its epoch is lower, its sender claims a role, and this unit has a role or rejoins. -/
def staleHeartbeat (s : State) (h : GuyHeader) : Bool :=
  h.epoch < ownEpoch s && h.role != 0 && dpxState s != dpxListen && dpxState s != dpxReleased

/-- R370: an epoch above its own of an ACTIVE partner is adopted by a unit that does not hold the ACTIVE role. -/
def adoptHigher (e : Word) (s : State) : State :=
  let n := dpxState s
  if ownEpoch s < e ∧ (n = dpxListen ∨ n = dpxSyncing ∨ n = dpxSynced ∨ n = dpxDegraded ∨ n = dpxTaking) then takeEpoch e s
  else s

/-- PARTNER_LOST with the partner's last reported state. -/
def logLost (s : State) : State := logN 0xA004 0 (fld s Reg.DPX_PARTNER F.DPX_PARTNER_state) s

/-- Row 8: the unit carries on alone. -/
def carryOn (s : State) : State := setDpx dpxAlone (logLost s)

/-- The rows of Table 13.4 that a heartbeat takes. -/
def heartbeatRows (h : GuyHeader) (b : Heartbeat) (s : State) : State :=
  let n := dpxState s
  if h.role = 1 ∧ s.loop.owner ∧ actsAlone s ∧ ownEpoch s < h.epoch then epochConflict h.epoch s
  else
    let s := if h.role = 1 then adoptHigher h.epoch s else s
    if n = dpxListen then
      if h.role = 1 then enterSyncing (takeEpoch h.epoch s)
      else if h.role = 0 ∧ !sideB s then takeover 4 dpxAlone s
      else s
    else if n = dpxAlone then
      if h.role = 2 ∧ b.state.val = dpxSynced ∧ h.epoch = ownEpoch s then setDpx dpxActive s else s
    else if n = dpxActive then if b.state.val = dpxSynced then s else carryOn s
    else if n = dpxTaking then
      if h.role = 1 ∧ h.epoch = ownEpoch s then
        let s := setDpxRec { s.dpx with probeAt := none } s
        setDpx (if s.dpx.fromSynced then dpxSynced else dpxSyncing) s
      else s
    else checkSynced s

/-- A valid first copy of a heartbeat. -/
def takeHeartbeat (h : GuyHeader) (b : Heartbeat) (s : State) : State :=
  if staleHeartbeat s h then noteStale 0 s else heartbeatRows h b (noteHeartbeat h b s)

/-- A partner that was silent for 80 µs may have started anew: its sequence numbers begin again. -/
def freshSequences (s : State) : State :=
  match s.dpx.hbAt with
  | none => s
  | some t => if t + 80000 ≤ localNs s then setDpxRec { s.dpx with seqIn := Vector.replicate 16 none } s else s

/-- Row 25: a path comes up in DEGRADED_STANDBY. -/
def rejoinOnPath (was : Bool) (p : Fin 2) (s : State) : State :=
  if !was ∧ pathUp s p ∧ dpxState s = dpxDegraded then enterSyncing s else s

/-- A HEARTBEAT arrives on a path: each copy counts for its path, the first copy is acted on. -/
def heard (h : GuyHeader) (b : Heartbeat) (s : State) : State :=
  if !dpxOn s ∨ dpxState s = dpxOff then s
  else if !h.crcOk then badCrc h.path s
  else
    let was := pathUp s h.path
    let s := pathHeard h.path (freshSequences s)
    let s := if firstCopy s 1 h then takeHeartbeat h b (acceptSeq 1 h.seq s) else s
    rejoinOnPath was h.path s

/-- HEARTBEAT as its unit lets it in. -/
def heartbeatIn (b : Heartbeat) (h : GuyHeader) (s : State) : Out := .next (heard h b s)

/-- HEARTBEAT (R364). -/
def execHeartbeat (h : GuyHeader) (b : Heartbeat) (s : State) : Out :=
  guyArrives 1 h (fun h => .heartbeat h b) (heartbeatIn b) s

/-- PATH_UP as its unit lets it in. -/
def pathUpIn (b : Heartbeat) (h : GuyHeader) (s : State) : Out :=
  if !pathUp s h.path ∧ 15 ≤ (s.dpx.paths[h.path]).good then .next (heard h b s) else .next s

/-- PATH_UP (R364): the heartbeat that completes sixteen. -/
def execPathUp (h : GuyHeader) (b : Heartbeat) (s : State) : Out :=
  guyArrives 1 h (fun h => .pathUp h b) (pathUpIn b) s

/-- PATH_DOWN (R364): the eighth interval without a heartbeat ends 90 µs after the last. -/
def execPathDown (p : Fin 2) (s : State) : Out :=
  if !dpxOn s ∨ !pathUp s p then .next s
  else
    let x := s.dpx.paths[p]
    let s := reachLocal (x.last + 90000) s
    let s := addMissed p (8 - x.counted) s
    let s := setDpxRec { s.dpx with paths := s.dpx.paths.set p { x with good := 0, counted := 8 } } s
    .next (checkSynced (takeDown p 8 s))

/-- Is this unit's heartbeat running (R379)? -/
def hbRunning (s : State) : Bool := decide (localNs s < s.dpx.hbSent + 20000)

/-- The heartbeat this unit sends (Table 13.2). -/
def ownHeartbeat (s : State) : Heartbeat where
  state := Fin.ofNat 10 (dpxState s)
  owner := s.loop.owner
  running := hbRunning s
  doCmd := BitVec.ofNat 16 (fld s Reg.FIO_DO_STATE F.FIO_DO_STATE_on)
  tripCircuit := #v[tripIntact s 0, tripIntact s 1, tripIntact s 2, tripIntact s 3]
  tripOn := BitVec.ofNat 4 ((List.range 4).foldl (fun m n => putBit m n (tripOn s n)) 0)
  frame := rd64 s Reg.FAB_FRAME_COUNT
  stamp := now s
  digest := rd s Reg.DPX_DIGEST
  versions := some (ownVersions s)

/-- R380: has the release timer run out? -/
def releaseDue (s : State) : Bool := actsAlone s && decide (s.dpx.hbSent + 500000 ≤ localNs s)

/-- HEARTBEAT_SEND (R362, R380). -/
def execHeartbeatSend (good : Vector Bool 2) (s : State) : Out :=
  if !dpxOn s ∨ dpxState s = dpxOff then .next s
  else
    let s := reachLocal s.dpx.hbDue s
    if releaseDue s then .next (selfRelease 1 s)
    else
      let s := whenS (good[0] || good[1]) (fun s => setDpxRec { s.dpx with hbSent := localNs s } s) s
      let s := setDpxRec { s.dpx with hbDue := localNs s + 10000 } s
      .next (sendGuy 1 (.heartbeat (ownHeartbeat s)) s)

/-- RELEASE_TIMER (R380, row 9). -/
def execReleaseTimer (s : State) : Out :=
  if actsAlone s then .next (selfRelease 1 (reachLocal (s.dpx.hbSent + 500000) s)) else .next s

/-! ### Probes (R378, R379, R381) -/

/-- A probe or its reply as a frame of the part's own port (R378, R393): its EtherType and priority. -/
def probeFrame (s : State) : PathFrame where
  field := BitVec.ofNat 16 (fld s Reg.DPX_ECN_CFG F.DPX_ECN_CFG_ethertype)
  pcp := some (Fin.ofNat 8 (fld s Reg.DPX_ECN_CFG F.DPX_ECN_CFG_pcp))

/-- Send a probe. -/
def sendProbe (s : State) : State :=
  ownSend (probeFrame s) (setDpxRec { s.dpx with probeAt := some (localNs s), lastProbe := localNs s } s)

/-- t_conf in ns. -/
def tConf (s : State) : Nat := 1000 * fld s Reg.DPX_CFG F.DPX_CFG_t_conf

/-- PARTNER_LOST (R364, rows 8 and 20). -/
def execPartnerLost (s : State) : Out :=
  let n := dpxState s
  if !dpxOn s ∨ (n ≠ dpxActive ∧ n ≠ dpxSynced ∧ n ≠ dpxSyncing) then .next s
  else
    let s := reachLocal ((s.dpx.hbAt).getD 0 + 80000) s
    if n = dpxActive then .next (carryOn s)
    else
      let s := setDpxRec { s.dpx with fromSynced := n == dpxSynced, mirrorFrom := none } s
      .next (sendProbe (setDpx dpxTaking (logLost s)))

/-- LISTEN_TIMEOUT (R370): t_listen has run out, doubled on side B. -/
def execListenTimeout (s : State) : Out :=
  if dpxState s ≠ dpxListen ∨ s.dpx.probeAt.isSome then .next s
  else
    let t := 1000000 * fld s Reg.DPX_CFG F.DPX_CFG_t_listen
    .next (sendProbe (reachLocal (s.dpx.listenAt + (if sideB s then 2 * t else t)) s))

/-- DEGRADED_PROBE (R381). -/
def execDegradedProbe (s : State) : Out :=
  if dpxState s ≠ dpxDegraded then .next s
  else .next (sendProbe (reachLocal (s.dpx.lastProbe + 10000000) s))

/-- R379: the NET block answers the partner's address from pitch load onward; a released unit lowers OWNER first. -/
def probeIn (mac : BitVec 48) (epoch : Word) (s : State) : Out :=
  if mac ≠ (rd64 s Reg.DPX_PARTNER_MAC).extractLsb' 0 48 ∨ s.fab.running.isNone then .next s
  else
    let s := if actsAlone s ∧ s.loop.owner ∧ !hbRunning s ∧ epoch = ownEpoch s then selfRelease 2 s else s
    let r : ProbeReply :=
      { role := Fin.ofNat 3 (roleOf (dpxOn s) (dpxState s)), state := Fin.ofNat 10 (dpxState s)
        epoch := ownEpoch s, owner := s.loop.owner, running := hbRunning s }
    .next (ownSend (probeFrame s) (setDpxRec { s.dpx with lastReply := some r } s))

/-- PROBE. -/
def execProbe (p : Prober) (epoch : Word) (s : State) : Out :=
  arrives (portUnit p.port) (probeFrame s).field (.probe p epoch) (probeIn p.mac epoch) none s

/-- Does a reply show the partner released? -/
def showsReleased (r : ProbeReply) : Bool := r.state.val == dpxReleased

/-- The probe is answered. -/
def answered (s : State) : State := setDpxRec { s.dpx with probeAt := none, unanswered := 0 } s

/-- Row 4 and row 24. -/
def degrade (s : State) : State := setDpx dpxDegraded (answered s)

/-- The rows that a probe reply takes; one that no row names decides nothing (R370). -/
def replyRows (r : ProbeReply) (s : State) : State :=
  let n := dpxState s
  let s := if r.role = 1 then adoptHigher r.epoch s else s
  if n = dpxListen then
    if r.role = 1 ∧ r.running then degrade (takeEpoch r.epoch s)
    else if r.role = 0 then
      if sideB s then setDpxRec { s.dpx with listenAt := localNs s, probeAt := none } s else takeover 4 dpxAlone s
    else s
  else if n = dpxTaking then
    if showsReleased r then takeover (takingSource s 2) dpxAlone s
    else if r.role = 1 ∧ r.running then logN 0xA007 0 r.state (degrade s)
    else s
  else if n = dpxDegraded then
    if showsReleased r then takeover 4 dpxAlone s
    else if r.role = 1 ∧ r.running then answered s
    else s
  else s

/-- R378: a reply counts within t_conf of its probe. -/
def probeReplyIn (r : ProbeReply) (s : State) : Out :=
  match s.dpx.probeAt with
  | none => .next s
  | some t =>
    if t + tConf s < localNs s then .next s
    else
      let a := Reg.DPX_PARTNER
      let s := setF (setF s a F.DPX_PARTNER_state r.state) a F.DPX_PARTNER_role r.role
      let s := setF (setF s a F.DPX_PARTNER_owner (b2n r.owner)) a F.DPX_PARTNER_hb_running (b2n r.running)
      let s := wr s Reg.DPX_PARTNER_EPOCH r.epoch
      if r.role = 1 ∧ s.loop.owner ∧ actsAlone s ∧ ownEpoch s < r.epoch then .next (epochConflict r.epoch s)
      else .next (replyRows r s)

/-- PROBE_REPLY. -/
def execProbeReply (r : ProbeReply) (s : State) : Out :=
  arrives (portUnit r.port) (probeFrame s).field (.probeReply r) (probeReplyIn r) none s

/-- PROBE_TIMEOUT (R370, rows 5, 23 and 26). -/
def execProbeTimeout (s : State) : Out :=
  match s.dpx.probeAt with
  | none => .next s
  | some t =>
    let s := reachLocal (t + tConf s) s
    let n := dpxState s
    if n = dpxListen then .next (takeover 4 dpxAlone s)
    else if n = dpxTaking then .next (takeover (takingSource s 3) dpxAlone s)
    else if n = dpxDegraded then
      let s := setDpxRec { s.dpx with probeAt := none, unanswered := s.dpx.unanswered + 1 } s
      if 3 ≤ s.dpx.unanswered then .next (takeover 4 dpxAlone s) else .next s
    else .next (setDpxRec { s.dpx with probeAt := none } s)

/-! ### Messages of the ACTIVE and of a rejoin -/

/-- DYING (R377, rows 19 and 22). -/
def dyingRows (h : GuyHeader) (s : State) : State :=
  let n := dpxState s
  if h.role = 1 ∧ n = dpxSynced then takeover 1 dpxAlone s
  else if h.role = 1 ∧ n = dpxSyncing then takeover 4 dpxAlone s
  else if n = dpxTaking then takeover (takingSource s 1) dpxAlone s
  else if n = dpxActive then carryOn s
  else s

/-- DYING as its unit lets it in. -/
def dyingIn (reason : Nat) (h : GuyHeader) (s : State) : Out :=
  let _ := reason
  .next (receive 6 none false h (fun s => dyingRows h (logEvent 0xA005 h.path h.epoch s)) s)

def execDying (h : GuyHeader) (reason : Nat) (s : State) : Out :=
  guyArrives 6 h (fun h => .dying h reason) (dyingIn reason) s

/-- MIRROR as its unit lets it in. -/
def mirrorIn (x : MirrorMsg) (h : GuyHeader) (s : State) : Out :=
  .next (receive 2 (some 1) false h (fun s => setDpxRec { s.dpx with
    mirrors := s.dpx.mirrors.set x.stage (some x), mirrorNew := s.dpx.mirrorNew.set x.stage true } s) s)

/-- MIRROR (R372): the state of the ACTIVE's sample, for this unit's next sample. -/
def execMirror (h : GuyHeader) (x : MirrorMsg) (s : State) : Out :=
  guyArrives 2 h (fun h => .mirror h x) (mirrorIn x) s

/-- R248: the mirrored grid-forming state of a stage. -/
def loadGfm (g : Fin 2) (m : GfmMirror) (s : State) : State :=
  if stageKind s (gst g) ≠ kindGridForming then s
  else
    let a := Reg.GFM_STATE (2 * g)
    let s := setF (setF s a F.GFM_STATE_state m.state) a F.GFM_STATE_attempt m.attempt
    let s := setF s a F.GFM_STATE_cont_cmd (b2n m.contactor)
    let s := showTimeMode (setF s (Reg.GFM_TMODE (2 * g)) F.GFM_TMODE_time_mode m.timeMode)
    setGfm g { s.gfm.stages[g] with
      dw := m.dw, theta := m.theta, wRes := m.wRes, pf := m.pf, qf := m.qf, phi := m.phi
      deadMs := m.dead, liveMs := m.live, notLiveMs := m.notLive, winMs := m.window
      cmdAt := localNs s - m.cmdAge, stateAt := localNs s - m.age
      backoff := m.backoff, slot := if m.state.val = gWaitSlot then some (m.slot, m.backoff) else none } s

/-- MIRROR_GFM as its unit lets it in. -/
def mirrorGfmIn (x : Vector GfmMirror 2) (h : GuyHeader) (s : State) : Out :=
  .next (receive 3 (some 1) false h (fun s =>
    if isStandby s then loadGfm 1 x[1] (loadGfm 0 x[0] s) else s) s)

/-- MIRROR_GFM (R248, R373). -/
def execMirrorGfm (h : GuyHeader) (x : Vector GfmMirror 2) (s : State) : Out :=
  guyArrives 3 h (fun h => .mirrorGfm h x) (mirrorGfmIn x) s

/-- Write a retained set as the copy in force of a core (R374). -/
def putRetained (k : Fin 2) (r : RetainedSet) (s : State) : State :=
  let x := s.scan.cores[k]
  let order : Option RetainedSet → Nat := fun (c : Option RetainedSet) => match c with | none => 0 | some c => c.order
  let dst : Fin 2 := if order x.copies[0] ≤ order x.copies[1] then 0 else 1
  let top := max (order x.copies[0]) (order x.copies[1])
  setScan k { x with copies := x.copies.set dst (some { r with order := top + 1, crcOk := true }) } s

/-- RETAIN as its unit lets it in. -/
def retainIn (x : Vector (Option RetainedSet) 2) (h : GuyHeader) (s : State) : Out :=
  .next (receive 4 (some 1) false h (fun s =>
    forEach (List.finRange 2) (fun (k : Fin 2) s => match x[k] with | none => s | some r => putRetained k r s) s) s)

/-- RETAIN (R374). -/
def execRetain (h : GuyHeader) (x : Vector (Option RetainedSet) 2) (s : State) : Out :=
  guyArrives 4 h (fun h => .retain h x) (retainIn x) s

/-- What the ACTIVE answers a rejoining unit (R388). -/
def syncItems (s : State) : List SyncItem :=
  let sets := (List.finRange 2).filterMap (fun (k : Fin 2) =>
    (copyInForce s.scan.cores[k]).map (fun c => SyncItem.retained k c))
  let therm := (List.finRange 8).map (fun (f : Fin 8) =>
    SyncItem.thermal f (s.prot.feeders[f]).theta (rd s (Reg.PROT_FDR_COUNT f)))
  [.versions (ownVersions s), .settings (settingsNow s)] ++ sets ++ therm ++ [.role (ownEpoch s)]

/-- SYNC_REQ as its unit lets it in. -/
def syncReqIn (v : Versions) (h : GuyHeader) (s : State) : Out :=
  .next (receive 0x0A none true h (fun s =>
    if actsAlone s then
      let s := setDpxRec { s.dpx with partner := { s.dpx.partner with versions := some v } } s
      sendGuy 0x0B (.syncData (syncItems s)) s
    else s) s)

/-- SYNC_REQ (R388): the ACTIVE answers whatever the epoch. -/
def execSyncReq (h : GuyHeader) (v : Versions) (s : State) : Out :=
  guyArrives 10 h (fun h => .syncReq h v) (syncReqIn v) s

/-- SYNC_FAILED 1 where the versions differ. -/
def compareVersions (v : Versions) (s : State) : State :=
  let s := setDpxRec { s.dpx with partner := { s.dpx.partner with versions := some v } } s
  if v = ownVersions s then s else logN 0xA00C 1 0 s

/-- One item of SYNC_DATA is written to this unit's MRAM. -/
def takeItem (x : SyncItem) (s : State) : State :=
  match x with
  | .versions v => setDpxRec { s.dpx with partner := { s.dpx.partner with versions := some v } } s
  | .settings y => if settingsNow s = y then s else applyRecords y.records (storeOther y s)
  | .retained k r => putRetained k r s
  | .thermal f th w =>
    setFeeder f { s.prot.feeders[f] with theta := th, thetaSaved := th } (wr s (Reg.PROT_FDR_COUNT f) w)
  | .role e => adoptHigher e s

/-- SYNC_DATA as its unit lets it in. -/
def syncDataIn (x : List SyncItem) (h : GuyHeader) (s : State) : Out :=
  .next (receive 0x0B (some 1) false h (fun s =>
    if dpxState s = dpxSyncing then
      let s := forEach x takeItem s
      match s.dpx.partner.versions with
      | none => s
      | some v => compareVersions v s
    else s) s)

/-- SYNC_DATA (R388): the comparison follows when the items are written. -/
def execSyncData (h : GuyHeader) (x : List SyncItem) (s : State) : Out :=
  guyArrives 11 h (fun h => .syncData h x) (syncDataIn x) s

/-- SYNC_REQ_RETRY (R388): with versions differing, SYNC_REQ is repeated every 10 s. -/
def execSyncReqRetry (s : State) : Out :=
  if dpxState s = dpxSyncing ∧ s.dpx.partner.versions ≠ some (ownVersions s) then
    .next (sendSyncReq (reachLocal (s.dpx.syncReqAt + 10000000000) s))
  else .next s

/-- SETTINGS as its unit lets it in. -/
def settingsIn (x : List SettingsRecord) (frame : BitVec 64) (h : GuyHeader) (s : State) : Out :=
  .next (receive 0x0C (some 1) false h (fun s =>
    if isStandby s then setDpxRec { s.dpx with settings := some (x, frame) } s else s) s)

/-- SETTINGS (R376): forwarded records await their frame boundary. -/
def execSettings (h : GuyHeader) (x : List SettingsRecord) (frame : BitVec 64) (s : State) : Out :=
  guyArrives 12 h (fun h => .settings h x frame) (settingsIn x frame) s

/-- Forwarded settings are stored and applied at their frame (R376). -/
def forwardedSettings (s : State) : State :=
  match s.dpx.settings with
  | none => s
  | some (x, frame) =>
    if frame.toNat * 1000000 ≤ nowNat s then
      settingsApplied x (storeWrite x (setDpxRec { s.dpx with settings := none } s))
    else s

/-- SYNC_DONE (R376, row 16). -/
def execSyncDone (s : State) : Out :=
  let s := showSynced s
  if dpxState s = dpxSyncing ∧ syncFault s = 0 then
    let ms := (localNs s - s.dpx.firstHb) / 1000000
    let s := setF s Reg.DPX_LAST F.DPX_LAST_sync_10ms (min 65535 (ms / 10))
    .next (logN 0xA00B 0 ms (setDpx dpxSynced s))
  else .next s

/-- The configuration registers of CTRL, PWM, GFM, PROT and FIO that differ from their reset words, under their writable bits
(R376, log entry 20). -/
def configWords (s : State) : List (Nat × Word) :=
  s.regs.filterMap (fun e =>
    let w := e.1 / 0x10000
    if w = 0x4006 ∨ w = 0x4007 ∨ w = 0x4008 ∨ w = 0x400B ∨ w = 0x4014 then
      match findReg e.1 with
      | none => none
      | some r =>
        let m := r.half e.1 (r.rw ||| r.rwl)
        if e.2 &&& m = resetWord e.1 &&& m then none else some (e.1, e.2 &&& m)
    else none)

/-- DIGEST_UPDATE (R376). -/
def execDigestUpdate (s : State) : Out :=
  let s := reachLocal (s.dpx.digestAt + 10000000) s
  let s := setDpxRec { s.dpx with digestAt := localNs s } s
  .next (checkSynced (wr s Reg.DPX_DIGEST (Config.digest (configWords s))))

/-! ### Planned switchover (R389, R390) -/

/-- SWITCH_ABORT. -/
def logAbort (cause : Nat) (s : State) : State :=
  logEvent 0xA00E cause ((rd64 s Reg.DPX_SWITCH_TIME).extractLsb' 0 32) s

/-- A request for a switchover; its status. -/
def switchRequest (op : Option (Fin 16)) (s : State) : Nat × State :=
  if dpxState s = dpxActive ∧ fld s Reg.DPX_PARTNER F.DPX_PARTNER_state = dpxSynced then
    let t := (nowNat s + 2000000 + 999999) / 1000000 * 1000000
    let s := wr64 s Reg.DPX_SWITCH_TIME (BitVec.ofNat 64 t)
    let s := setDpxRec { s.dpx with ackHeld := false, quiesced := false, switchOp := op } s
    (stOk, sendGuy 7 (.switch (BitVec.ofNat 64 t)) (setDpx dpxSwitching s))
  else (stBadState, logAbort 3 s)

/-- The switchover does not come about: back to ACTIVE. -/
def abortSwitch (cause : Nat) (s : State) : State :=
  let s := sendGuy 9 (.switchCancel (rd64 s Reg.DPX_SWITCH_TIME)) s
  setDpxRec { s.dpx with switchOp := none, ackHeld := false } (logAbort cause (setDpx dpxActive s))

/-- R389: a cancel; its status. -/
def switchCancelRequest (s : State) : Nat × State :=
  if dpxState s = dpxSwitching ∧ nowNat s + 500000 < (rd64 s Reg.DPX_SWITCH_TIME).toNat then
    let op := s.dpx.switchOp
    (stOk, endOp? op .cancelled 0 (abortSwitch 2 s))
  else (stLate, s)

/-- SWITCH as its unit lets it in. -/
def switchIn (at' : BitVec 64) (h : GuyHeader) (s : State) : Out :=
  .next (receive 7 (some 1) false h (fun s =>
    if dpxState s = dpxSynced then
      let s := wr64 (setDpxRec { s.dpx with switchHeld := some at' } s) Reg.DPX_SWITCH_TIME at'
      sendGuy 8 (.switchAck at') s
    else s) s)

/-- SWITCH (R389): a SYNCED STANDBY holds S and acknowledges. -/
def execSwitch (h : GuyHeader) (at' : BitVec 64) (s : State) : Out :=
  guyArrives 7 h (fun h => .switch h at') (switchIn at') s

/-- SWITCH_ACK as its unit lets it in. -/
def switchAckIn (at' : BitVec 64) (h : GuyHeader) (s : State) : Out :=
  .next (receive 8 (some 2) false h (fun s =>
    if dpxState s = dpxSwitching ∧ at' = rd64 s Reg.DPX_SWITCH_TIME then setDpxRec { s.dpx with ackHeld := true } s
    else s) s)

/-- SWITCH_ACK (R389). -/
def execSwitchAck (h : GuyHeader) (at' : BitVec 64) (s : State) : Out :=
  guyArrives 8 h (fun h => .switchAck h at') (switchAckIn at') s

/-- SWITCH_CANCEL as its unit lets it in. -/
def switchCancelIn (at' : BitVec 64) (h : GuyHeader) (s : State) : Out :=
  .next (receive 9 (some 1) false h (fun s =>
    if s.dpx.switchHeld = some at' then setDpxRec { s.dpx with switchHeld := none } s else s) s)

/-- SWITCH_CANCEL (R389): the STANDBY drops S. -/
def execSwitchCancel (h : GuyHeader) (at' : BitVec 64) (s : State) : Out :=
  guyArrives 9 h (fun h => .switchCancel h at') (switchCancelIn at') s

/-- The scan cores quiesce for the switchover, and the transfers of cycles in progress are made at once (R390). -/
def quiesceCores (s : State) : State :=
  forEach (List.finRange 2) (fun (k : Fin 2) s =>
    let s := forEach (List.finRange 8) (makeHeld k) s
    setScan k { (dropUnstarted s.scan.cores[k]) with frozen := true } s) s

/-- The retained sets as RETAIN carries them. -/
def retainPayload (s : State) : GuyPayload := .retain #v[copyInForce s.scan.cores[0], copyInForce s.scan.cores[1]]

/-- SWITCH_DEADLINE (R390, row 15). -/
def execSwitchDeadline (s : State) : Out :=
  if dpxState s ≠ dpxSwitching ∨ s.dpx.quiesced then .next s
  else
    let s := reachNs s (rd64 s Reg.DPX_SWITCH_TIME - 500000)
    if s.dpx.ackHeld then
      let s := commitBoth (quiesceCores s)
      let s := sendGuy 4 (retainPayload s) s
      .next (commitOp s.dpx.switchOp (setDpxRec { s.dpx with quiesced := true } s))
    else
      let op := s.dpx.switchOp
      .next (endOp? op .failed stTimeout (abortSwitch 1 s))

/-- SWITCH_INSTANT (R389, R390, rows 14 and 18). -/
def execSwitchInstant (s : State) : Out :=
  if dpxState s = dpxSwitching ∧ s.dpx.ackHeld then
    let s := reachNs s (rd64 s Reg.DPX_SWITCH_TIME)
    let op := s.dpx.switchOp
    let s := holdCores (setDpx dpxSynced (takeEpoch (ownEpoch s + 1) (driveOwner false s)))
    let s := setDpxRec { s.dpx with
      switchOp := none, ackHeld := false, quiesced := false, mirrorNew := Vector.replicate 4 false
      mirrorFrom := some (localNs s) } s
    .next (endOp? op .completed stOk s)
  else match s.dpx.switchHeld with
  | none => .next s
  | some t =>
    if dpxState s = dpxSynced then
      let s := takeover 5 dpxActive (reachNs s t)
      .next (logEvent 0xA00D 0 (ownEpoch s) s)
    else .next s

/-! ### Start, reset and configuration -/

/-- Row 1: a unit of a duplex begins to listen. -/
def beginListen (s : State) : State :=
  let t := localNs s
  let s := driveOwner false s
  let s := setDpxRec { s.dpx with
    listenAt := t, probeAt := none, hbSent := t, hbDue := t, digestAt := t
    paths := s.dpx.paths.map (fun x => { x with last := t, good := 0, counted := 0 }) } s
  setDpx dpxListen s

/-- What SYS_STATUS.ready brings (R214, R369, row 1). -/
def dpxAtReady (s : State) : State :=
  if dpxOn s then beginListen s
  else driveOwner true (setF s Reg.DPX_STATUS F.DPX_STATUS_role (roleOf false dpxOff))

/-- R377: before a reset, and at a power fail, OWNER falls and then DYING is sent. -/
def sayDying (reason : Nat) (s : State) : State :=
  let s := driveOwner false s
  if dpxState s = dpxOff then s else sendGuy 6 (.dying reason) s

/-- A write of DPX_CFG: t_listen from 20 ms to 500 ms and t_conf from 20 µs to 100 µs; others are ignored. `en` and
`mclk_follow` are locked with PINMUX; en acts once ready is set (log entry 24). -/
def writeDpxCfg (v : Word) (s : State) : State :=
  let a := Reg.DPX_CFG
  let s := if inRange 20 (getF v F.DPX_CFG_t_listen) 500 then setF s a F.DPX_CFG_t_listen (getF v F.DPX_CFG_t_listen) else s
  let s := if inRange 20 (getF v F.DPX_CFG_t_conf) 100 then setF s a F.DPX_CFG_t_conf (getF v F.DPX_CFG_t_conf) else s
  if lockedAt s a then s
  else
    let s := setF s a F.DPX_CFG_mclk_follow (getF v F.DPX_CFG_mclk_follow)
    let was := dpxOn s
    let s := setF s a F.DPX_CFG_en (getF v F.DPX_CFG_en)
    if was = dpxOn s ∨ !ready s then s
    else if dpxOn s then beginListen s
    else dpxAtReady (setDpx dpxOff s)

end Sys2Proof.Machine
end

