-- ==== Sys2Proof/Machine/Channel.lean ====
section
/-! DEFINITION. Frames, channels and the mailbox of the command service (R407 to R413). -/

namespace Sys2Proof.Machine

open Sys2Proof

/-! ### Frames (R410, R411) -/

/-- One bit of a CRC-32C, least significant bit first. -/
def crcBit (c : Word) : Word := if c.getLsbD 0 then (c >>> 1) ^^^ 0x82F63B78 else c >>> 1

/-- One byte of a CRC-32C. -/
def crcByte (c : Word) (b : Byte) : Word := (List.range 8).foldl (fun x _ => crcBit x) (c ^^^ b.setWidth 32)

/-- The CRC-32C of bytes. -/
def crc32c (l : List Byte) : Word := ~~~(l.foldl crcByte 0xFFFFFFFF)

/-- The words of a reply frame before its bytes and its trailer. -/
def replyWords (r : Reply) : List Word :=
  [BitVec.ofNat 32 (r.opcode + 0x10000), r.handle, r.epoch, r.seq, BitVec.ofNat 32 (4 + 4 * r.result.length + r.tail.length), 0,
   BitVec.ofNat 32 r.status] ++ r.result

/-- A reply frame as bytes. -/
def replyBytes (r : Reply) : List Byte :=
  let b := (replyWords r).flatMap wordBytes ++ r.tail
  b ++ wordBytes (crc32c b)

/-! ### The mailbox (R409) -/

/-- The windows CMD_REQ and CMD_RSP. -/
def cmdReq : Nat := 0x400E4000
def cmdRsp : Nat := 0x400E8000

/-- Store bytes of memory from an address. -/
def memPutList : State → Nat → List Byte → State
  | s, _, [] => s
  | s, a, b :: l => memPutList (memPut s a b) (a + 1) l

/-- The reply stands in CMD_RSP. -/
def mailReply (r : Reply) (s : State) : State :=
  let b := replyBytes r
  let s := memPutList s cmdRsp b
  let s := wr { s with cmd := { s.cmd with mailbox := none } } Reg.CMD_RSP_LEN (BitVec.ofNat 32 b.length)
  let s := setF (setF s Reg.CMD_STATUS F.CMD_STATUS_req_busy 0) Reg.CMD_STATUS F.CMD_STATUS_rsp_valid 1
  setF s Reg.CMD_IRQ F.CMD_IRQ_reply 1

/-! ### Replies (R411, R413) -/

/-- A reply leaves on a channel; `store` says whether it advances the sequence and becomes the stored reply. -/
def sendReply (ch : Fin 21) (store : Bool) (r : Reply) (s : State) : State :=
  let c := s.cmd.channels[ch]
  let s := setChannel ch
    (if store then { c with sent := some r, stored := some r, lastSeq := some r.seq } else { c with sent := some r }) s
  whenS (ch == 0) (mailReply r) s

/-- A refusal of checks 1 to 4. -/
def frameRefusal (s : State) (opcode : Nat) (seq : Word) (status : Nat) (result : List Word) : Reply :=
  { opcode := opcode, epoch := ownEpoch s, seq := seq, status := status, result := result }

/-- What the sequence of a frame means to its channel (check 3, R413). -/
inductive SeqCheck where
  | fresh
  | again (r : Reply)
  | wrong (expected : Word)
  deriving DecidableEq, Repr

/-- Check 3. -/
def seqCheck (c : Channel) (seq : Word) : SeqCheck :=
  match c.lastSeq, c.stored with
  | some q, some r => if seq = q then .again r else if seq = q + 1 then .fresh else .wrong (q + 1)
  | some q, none => if seq = q + 1 then .fresh else .wrong (q + 1)
  | none, _ => .fresh

/-- Checks 1 to 3: a request that passes them goes on; others are answered here. A check 3 refusal accepts no sequence. -/
def checkFrame (ch : Fin 21) (opcode : Nat) (lengthOk crcOk : Bool) (seq : Word) (go : State → State) (s : State) : State :=
  if !lengthOk then sendReply ch false (frameRefusal s opcode seq stBadLength []) s
  else if !crcOk then sendReply ch false (frameRefusal s opcode seq stBadCrc []) s
  else
    match seqCheck (s.cmd.channels[ch]) seq with
    | .again r => sendReply ch false r s
    | .wrong e => sendReply ch false (frameRefusal s opcode seq stBadState [e]) s
    | .fresh => go s

/-- Is an opcode in Table 15.3? -/
def knownOpcode (n : Nat) : Bool :=
  [0x01, 0x02, 0x03, 0x10, 0x11, 0x12, 0x13, 0x14, 0x15, 0x20, 0x30, 0x31, 0x40, 0x41, 0x50, 0x51, 0x52, 0x58, 0x60, 0x61,
   0x62, 0x63, 0x64, 0x65, 0x66, 0x67, 0x68, 0x70, 0x71, 0x72, 0x73, 0x74, 0x75, 0x80, 0x90].contains n

/-- Bytes of memory from an address. -/
def memBytes (s : State) (a n : Nat) : List Byte := (List.range n).map (fun i => memByte s (a + i))

/-- The frame in CMD_REQ, `n` bytes by the doorbell: opcode, and the header as channel 0 meets it. -/
def mailFrame (s : State) (n : Nat) : Nat × ReqHeader :=
  let w := fun i => memWord s (cmdReq + 4 * i)
  let len := (w 4).toNat
  let opcode := ((w 0).extractLsb' 0 16).toNat
  (opcode,
    { chan := 0, seq := w 3, epoch := w 2, handle := w 1
      lengthOk := decide (28 ≤ n ∧ 28 + len = n ∧ len ≤ 16384 - 28)
      crcOk := crc32c (memBytes s cmdReq (n - 4)) ==
        memByte s (cmdReq + n - 1) ++ memByte s (cmdReq + n - 2) ++ memByte s (cmdReq + n - 3) ++ memByte s (cmdReq + n - 4)
      reservedOk := (w 0).extractLsb' 18 14 == 0 && w 5 == 0 })

/-- Does the command service run? -/
def serviceUp (s : State) : Bool := s.pwr.phase == .running || s.pwr.phase == .kindling

/-- A doorbell of master 6: the frame meets checks 1 to 4, and a request that passes them waits for its opcode's effect. One
that comes while a request is in progress is ignored. -/
def doorbell (n : Nat) (s : State) : State :=
  if flg s Reg.CMD_STATUS F.CMD_STATUS_req_busy then setF s Reg.CMD_STATUS F.CMD_STATUS_overrun 1
  else if !serviceUp s then s
  else
    let s := setF (setF s Reg.CMD_STATUS F.CMD_STATUS_rsp_valid 0) Reg.CMD_STATUS F.CMD_STATUS_req_busy 1
    let f := mailFrame s n
    checkFrame 0 f.1 f.2.lengthOk f.2.crcOk f.2.seq (fun s =>
      if knownOpcode f.1 then { s with cmd := { s.cmd with mailbox := some f } }
      else sendReply 0 true (frameRefusal s f.1 f.2.seq stUnknownOp []) s) s

/-- CMD_CTRL.chan_reset: ignored while a mailbox request is in progress. -/
def writeCmdCtrl (v : Word) (s : State) : State :=
  if getF v F.CMD_CTRL_chan_reset = 1 ∧ !flg s Reg.CMD_STATUS F.CMD_STATUS_req_busy then resetChannel 0 1 s else s

/-! ### The event log by register (R421) -/

/-- The newest retained entry whose index has these low 32 bits, if any. -/
def selectEvent (s : State) (low : Word) : Option Event :=
  let n := s.log.entries.length
  let back := ((s.log.next.extractLsb' 0 32) - 1 - low).toNat
  if back < n then s.log.entries[n - 1 - back]? else none

/-- A write of CMD_EVT_SEL copies the selected entry into CMD_EVT_ENTRY as one unit. -/
def writeEvtSel (v : Word) (s : State) : State :=
  let s := wr s Reg.CMD_EVT_SEL v
  let put := fun (a b c d : Word) =>
    wr (wr (wr (wr s (Reg.CMD_EVT_ENTRY 0) a) (Reg.CMD_EVT_ENTRY 1) b) (Reg.CMD_EVT_ENTRY 2) c) (Reg.CMD_EVT_ENTRY 3) d
  match selectEvent s v with
  | none => put 0 0 0 0
  | some e => put (e.tai.extractLsb' 0 32) (e.tai.extractLsb' 32 32) (e.src ++ e.code) e.arg

/-- HINT_N is low while CMD_IRQ ANDed with CMD_IRQ_EN is not 0. -/
def hintLow (s : State) : Bool := (rd s Reg.CMD_IRQ &&& rd s Reg.CMD_IRQ_EN) != 0

/-! ### Channels that close, and events that were lost -/

/-- CHANNEL_IDLE: sixty seconds without a request on a TRDP channel. -/
def execChannelIdle (ch : Fin 21) (s : State) : Out :=
  if 5 ≤ ch.val ∧ (s.cmd.channels[ch]).isOpen then
    .next (resetChannel ch 2 (reachLocal ((s.cmd.channels[ch]).lastAt + 60000000000) s))
  else .next s

/-- EVT_LOST: the queue has room again. -/
def execEvtLost (s : State) : Out :=
  if s.log.dropped ≠ 0 ∧ s.log.queue.length < 256 then
    .next (logN 0x1401 0 s.log.dropped { s with log := { s.log with dropped := 0 } })
  else .next s

/-! ### Operations that end or expire (R415, R418) -/

/-- OP_EXPIRED: 600 s after termination the slot is free. -/
def execOpExpired (n : Fin 16) (s : State) : Out :=
  match s.cmd.ops[n] with
  | none => .next s
  | some o => if opDone o then .next (setOper n none (reachLocal (o.endedLocal + 600000000000) s)) else .next s

end Sys2Proof.Machine
end

