-- ==== Sys2Proof/Machine/Reset.lean ====
section
/-! DEFINITION. Supply events and resets: what a reset keeps, the power-fail sequence, the sensor rails, and the end of
COMMISSIONING (R78 to R89, R296, R447, R468). -/

namespace Sys2Proof.Machine

open Sys2Proof

/-- Change the power state. -/
def setPwr (x : PwrState) (s : State) : State := { s with pwr := x }

/-! ### COMMISSIONING (R447) -/

/-- The part leaves COMMISSIONING: units disarm, blocked feeders are freed. -/
def leaveCommissioning (s : State) : State :=
  if commissioning s then
    let s := fiDisarmAll 1 s
    let mask := fld s Reg.PROT_BLOCK F.PROT_BLOCK_feeder
    let s := setF s Reg.PROT_BLOCK F.PROT_BLOCK_feeder 0
    let s := forEach (List.range 8) (fun f s => setF s (Reg.PROT_FDR_STATE f) F.PROT_FDR_STATE_blocked 0) s
    let s := setF s Reg.UPD_STATUS F.UPD_STATUS_commissioning 0
    let s := wr64 { s with upd := { s.upd with serviceEnd := none } } Reg.UPD_SERVICE_END 0
    logN 0xC00F 0 mask s
  else s

/-- COMMISSIONING_END: not_after is reached, or 8 h of local time where TIME was UNSET. -/
def execCommissioningEnd (s : State) : Out :=
  if commissioning s then
    let s := match s.upd.serviceEnd with
      | some t => reachLocal t s
      | none => reachNs s (rd64 s Reg.UPD_SERVICE_END)
    .next (leaveCommissioning s)
  else .next s

/-! ### What a reset keeps -/

/-- The registers of the SAR calibration record in MRAM (R148). -/
def calReg (a : Nat) : Bool :=
  (List.range 4).any (fun c => (List.range 4).any (fun g => a == Reg.ADC_CAL c g))

/-- Registers that a reset of the control die keeps: LANTERN's and the supply's (R468), the field die's (R336), the
calibration record's, and the protection counters of EMBER. -/
def keptReg (a : Nat) : Bool :=
  a == Reg.SYS_RESET_CAUSE || a == Reg.PWR_STATUS || (Reg.PWR_WAKE ≤ a && a < Reg.PWR_RTC_ALARM + 8) ||
    (0x400B0000 ≤ a && a < 0x400C0000) || calReg a || (List.range 8).any (fun f => a == Reg.PROT_FDR_COUNT f)

/-- Of update and recovery, what the journal, the slots, LPDDR4X and STAKE keep. -/
def keptUpd (u : UpdState) : UpdState :=
  { u with
    pages := 0, settingsDue := [], trialFrom := none, revertWait := none, restartAt := none
    trialDue := 0, migrateFail := false, serviceEnd := none }

/-- The control die in reset: every register and block at reset, but for what outlives it. -/
def heldState (s : State) : State :=
  { State.reset with
    pending := s.pending, fresh := s.fresh, tai := s.tai, ticks := s.ticks, mem := s.mem
    regs := s.regs.filter (fun e => keptReg e.1)
    log := s.log
    fab := { repair := s.fab.repair, tileMem := s.fab.tileMem }
    pwr := s.pwr
    adc := { calRecord := s.adc.calRecord }
    prot := { feeders := s.prot.feeders.map (fun x => { thetaSaved := x.thetaSaved, savedAt := x.savedAt }) }
    scan := { cores := s.scan.cores.map (fun x => { copies := x.copies }) }
    fio := s.fio
    dpx := { emberEpoch := s.dpx.emberEpoch, sent := s.dpx.sent }
    cmd := { channels := s.cmd.channels.mapFinIdx (fun i c _ => { isOpen := i == 0, sent := c.sent }) }
    recd := warmRecState s
    upd := keptUpd s.upd }

/-- The control die goes into reset: the link stops and FAULT_N is low (R89); the start that follows is warm or cold. -/
def hold (warm : Bool) (s : State) : State :=
  let s := stopLink (heldState (drainAll (leaveCommissioning s)))
  let s := setF s Reg.PWR_STATUS F.PWR_STATUS_vin_low_seen 0
  setPwr { s.pwr with phase := .held, askWarm := warm, faultLow := true, sleepFrom := none } s

/-- Set a bit of SYS_RESET_CAUSE (R86). -/
def setCause (bit : Nat) (s : State) : State := wr s Reg.SYS_RESET_CAUSE (rd s Reg.SYS_RESET_CAUSE ||| (1#32 <<< bit))

/-- A reset of Table 3.4: OWNER falls and DYING is sent (R377), pending retained words are committed except at a fatal
fault (R324), then the control die is held. The reason carried by DYING has no stated code: a free value. -/
def resetPart (bit : Option Nat) (warm : Bool) (s : State) : State :=
  let f := takeFree (whenS (bit != some 5) commitBoth s)
  let s := sayDying (Config.freeValue f.1).toNat f.2
  let s := match bit with | some b => setCause b s | none => s
  hold warm s

/-- Does the control die run: started, or in KINDLING? -/
def dieRuns (s : State) : Bool := s.pwr.phase == .running || s.pwr.phase == .kindling

/-- RESET_N (R86, R87): a warm reset by a low of at least 10 µs, or by one of 1 µs to 10 µs that the qualifier takes. -/
def execResetN (ns : Nat) (taken : Bool) (s : State) : Out :=
  if dieRuns s ∧ (10000 ≤ ns ∨ (1000 ≤ ns ∧ taken)) then .next (resetPart (some 2) true s) else .next s

/-- The supervisor watchdog expires; it is suspended from a restart's halt to its end (R435), which is one step here. -/
def execWatchdogExpiry (s : State) : Out :=
  if s.pwr.phase = .running then .next (resetPart (some 4) true s) else .next s

/-- A fatal internal fault: a cold reset, with FAULT_N low until a start completes (R89). -/
def fatalReset (s : State) : State :=
  let s := resetPart (some 5) false s
  setPwr { s.pwr with fatal := true } s

/-- FATAL_FAULT. -/
def execFatalFault (s : State) : Out := if dieRuns s then .next (fatalReset s) else .next s

/-- A write of SYS_RESET_CTRL: go with the key resets the part (Table 3.4). -/
def writeResetCtrl (v : Word) (s : State) : State :=
  if getF v F.SYS_RESET_CTRL_key = 0x0A5F ∧ getF v F.SYS_RESET_CTRL_go = 1 then
    resetPart (some 3) (getF v F.SYS_RESET_CTRL_cold == 0) s
  else s

/-! ### The battery supply (R79, R80, R468) -/

/-- VIN_LOW. -/
def execVinLow (cv : BitVec 16) (s : State) : Out :=
  let s := setF s Reg.PWR_STATUS F.PWR_STATUS_vin cv.toNat
  if flg s Reg.PWR_STATUS F.PWR_STATUS_vin_low then .next s
  else
    let s := setF (setF s Reg.PWR_STATUS F.PWR_STATUS_vin_low 1) Reg.PWR_STATUS F.PWR_STATUS_vin_low_seen 1
    .next (logN 0x1301 0 cv.toNat s)

/-- VIN_LOW_CLEARED. -/
def execVinLowCleared (cv : BitVec 16) (s : State) : Out :=
  .next (setF (setF s Reg.PWR_STATUS F.PWR_STATUS_vin cv.toNat) Reg.PWR_STATUS F.PWR_STATUS_vin_low 0)

/-- A rail, or the pair, by number: 0 the ±15 V pair, 1 the 5 V rail. -/
def railOf (s : State) (n : Fin 2) : RailState := if n = 0 then s.pwr.rail15 else s.pwr.rail5
def setRail (n : Fin 2) (x : RailState) (s : State) : State :=
  if n = 0 then setPwr { s.pwr with rail15 := x } s else setPwr { s.pwr with rail5 := x } s

/-- Is the rail enabled in PWR_SENSOR? -/
def railEnabled (s : State) (n : Fin 2) : Bool := (rd s Reg.PWR_SENSOR).getLsbD n.val

/-- Turn a rail on; it reads good once its soft start of 20 ms has passed (`railGood`). -/
def railOn (n : Fin 2) (retries : Nat) (s : State) : State :=
  let s := setRail n { isOn := true, retries := retries, onAt := localNs s, offAt := (railOf s n).offAt } s
  setFbit s Reg.PWR_SENSOR F.PWR_SENSOR_good n true

/-- Is a rail in regulation, t_SS after it was turned on (Table 3.2)? -/
def railGood (s : State) (n : Fin 2) : Bool := (railOf s n).isOn && decide ((railOf s n).onAt + 20000000 ≤ localNs s)

/-- Turn a rail off. -/
def railOff (n : Fin 2) (s : State) : State :=
  let s := setRail n { railOf s n with isOn := false, waiting := false, offAt := localNs s } s
  setFbit s Reg.PWR_SENSOR F.PWR_SENSOR_good n false

/-- The rail has been turned off for good: it waits for PWR_SENSOR (R81). -/
def railLatched (x : RailState) : Bool := !x.isOn && !x.waiting && decide (4 ≤ x.retries)

/-- Step 1 of a start: a rail that stayed on is shown, one latched off stays so, any other enabled rail turns on. -/
def railsOn (s : State) : State :=
  forEach (List.finRange 2) (fun (n : Fin 2) s =>
    let x := railOf s n
    if x.isOn then setFbit s Reg.PWR_SENSOR F.PWR_SENSOR_good n true
    else if railLatched x then setFbit s Reg.PWR_SENSOR F.PWR_SENSOR_latched n true
    else if railEnabled s n then railOn n x.retries s
    else s) s
def railsOff (s : State) : State := railOff 1 (railOff 0 s)

/-- Milliseconds since the last START_COMPLETE (R98). -/
def sinceStart (s : State) : Nat := (localNs s - s.pwr.startedAt) / 1000000

/-- R80, steps 1 to 4, and the reset of step 5. -/
def powerFailSequence (s : State) : State :=
  let t := localNs s
  let s := reachLocal (t + 1000) s
  let s := railsOff (blockStages 6 15 { s with loop := { s.loop with powerFail := true } })
  let f := takeFree (driveOwner false s)
  let s := sayDying (Config.freeValue f.1).toNat (reachLocal (t + 5000) f.2)
  let s := enterSafe 2 (reachLocal (t + 10000) s)
  let s := reachLocal (t + 40000) s
  let s := drainAll (logN 0x1302 0 (sinceStart s) (thermalSave (commitBoth s)))
  hold false (setCause 1 (reachLocal (t + 50000) s))

/-- R80 where a reset holds the control die: its gates are off and its link is quiet, and what is left of the sequence runs. -/
def heldPowerFail (s : State) : State :=
  let t := localNs s
  let s := railsOff (reachLocal (t + 1000) s)
  let s := enterSafe 2 (reachLocal (t + 10000) s)
  let s := drainAll (logN 0x1302 0 (sinceStart s) (reachLocal (t + 40000) s))
  hold false (setCause 1 (reachLocal (t + 50000) s))

/-- What VIN below V_PF does, by the phase the part is in: the sequence always runs to its end. In SLEEP only the kind of the
next start changes, and an unusable unit does nothing. -/
def powerFails (s : State) : State :=
  match s.pwr.phase with
  | .running => powerFailSequence s
  | .kindling => powerFailSequence s
  | .held => heldPowerFail s
  | .asleep => hold false (setCause 1 s)
  | .unusable => s

/-- POWER_FAIL (R79, R80). -/
def execPowerFail (s : State) : Out := .next (powerFails s)

/-- Everything VIN supplies is lost: LANTERN's state, and the field die's (R336, R468). FAULT_N is high-impedance (R89). -/
def vinLost (s : State) : State :=
  let s := { s with
    regs := s.regs.filter (fun e => calReg e.1 || (List.range 8).any (fun f => e.1 == Reg.PROT_FDR_COUNT f))
    fio := {} }
  setPwr { faultLow := false } s

/-- Has the part yet to run the power-fail sequence before VIN is lost? -/
def failsFirst (s : State) : Bool := dieRuns s || s.pwr.phase == .asleep

/-- VIN_LOSS: a fall below V_LAN; the part has failed below V_PF before. Within a burn of STAKE it makes the unit unusable for
good, and an unusable unit stays one (R445). -/
def execVinLoss (s : State) : Out :=
  let dead : Bool := s.pwr.phase == .unusable || decide (localNs s < s.upd.burnUntil)
  let s := vinLost (if failsFirst s then powerFails s else s)
  .next (if dead then setPwr { s.pwr with phase := .unusable, fatal := true } s else s)

/-! ### Sensor supplies (R81) -/

/-- SENSOR_FAULT: the rail is turned off; a retry that fails within 30 ms of its start counts in a row, and after three the
rail stays off. -/
def execSensorFault (five : Bool) (s : State) : Out :=
  let n : Fin 2 := if five then 1 else 0
  let x := railOf s n
  if !x.isOn then .next s
  else
    let k := if localNs s ≤ x.onAt + 30000000 then x.retries + 1 else 1
    let s := railOff n s
    let s := setRail n { railOf s n with retries := k, waiting := decide (k < 4) } s
    .next (logN 0x1305 n k (whenS (decide (4 ≤ k)) (fun s => setFbit s Reg.PWR_SENSOR F.PWR_SENSOR_latched n true) s))

/-- SENSOR_RETRY: one second after the turn-off. -/
def execSensorRetry (five : Bool) (s : State) : Out :=
  let n : Fin 2 := if five then 1 else 0
  let x := railOf s n
  if x.waiting ∧ railEnabled s n then .next (railOn n x.retries (reachLocal (x.offAt + 1000000000) s)) else .next s

/-- A write of PWR_SENSOR: enable 0 turns a rail off and frees it; enable 1 after 0 turns it on. -/
def writeSensor (v : Word) (s : State) : State :=
  forEach (List.finRange 2) (fun (n : Fin 2) s =>
    let was := railEnabled s n
    let new := v.getLsbD n.val
    let s := wr s Reg.PWR_SENSOR (accessWrite (rd s Reg.PWR_SENSOR) v (1#32 <<< n.val) 0)
    if was && !new then
      setFbit (setRail n { railOf (railOff n s) n with retries := 0 } (railOff n s)) Reg.PWR_SENSOR F.PWR_SENSOR_latched n false
    else if new && !was then railOn n 0 s
    else s) s

end Sys2Proof.Machine
end

