-- ==== Sys2Proof/Machine/Upd.lean ====
section
/-! DEFINITION. Update, migration and recovery (chapter 16): download, verification, activation, trial, revert, settings and
tokens. What a start makes of the journal stands in Start.lean. -/

namespace Sys2Proof.Machine

open Sys2Proof

/-! ### Images and slots (R423 to R426) -/

/-- The head of an image, and the kind (from 0) its content spells. -/
def contentHead : ImageContent → ImageHead
  | .pitch x => x.head
  | .scan x => x.head
  | .firmware x => x.head
  | .boot x => x
def contentKind : ImageContent → Fin 4
  | .pitch _ => 0
  | .scan _ => 1
  | .firmware _ => 2
  | .boot _ => 3

/-- A content with the number of bytes the download received in its head (check 3). -/
def withReceived (n : Nat) : ImageContent → ImageContent
  | .pitch x => .pitch { x with head := { x.head with received := n } }
  | .scan x => .scan { x with head := { x.head with received := n } }
  | .firmware x => .firmware { x with head := { x.head with received := n } }
  | .boot x => .boot { x with received := n }

/-- The head of the image in a slot of a kind; the boot stage has one copy. -/
def slotHead (s : State) (k : Fin 4) (i : Fin 2) : Option ImageHead :=
  match k with
  | 0 => s.upd.pitch[i].map (fun p => p.image.head)
  | 1 => s.upd.scan[i].map (·.head)
  | 2 => s.upd.firmware[i].map (·.head)
  | _ => s.upd.boot

/-- The head of the active image of a kind. -/
def activeHead (s : State) (k : Fin 4) : Option ImageHead := slotHead s k (s.upd.journal[k]).active

/-- Register codes of a journaled state. -/
def kindCode : KindState → Nat
  | .normal => 0
  | .activating => 1
  | .trial => 2

/-- Blocks of 64 KiB in a download. -/
def dlTotal (d : Download) : Nat := (d.length + 65535) / 65536

/-- Show one kind in its registers; fallback_valid is settled at each start. -/
def showKind (k : Fin 4) (s : State) : State :=
  let a := Reg.UPD_KIND_STATE (k.val + 1)
  let j := s.upd.journal[k]
  let staged := s.upd.staged[k]
  let s := setF s a F.UPD_KIND_STATE_sec_version (match activeHead s k with | none => 0 | some h => h.securityVersion)
  let s := setF s a F.UPD_KIND_STATE_verified (b2n j.verified)
  let s := setF s a F.UPD_KIND_STATE_staged (b2n staged.isSome)
  let s := setF s a F.UPD_KIND_STATE_state (kindCode j.state)
  let s := setF s a F.UPD_KIND_STATE_active j.active
  wr s (Reg.UPD_KIND_STAGED (k.val + 1)) (match staged with | none => 0 | some x => (contentHead x.content).buildId)

/-- Show the journal, the download and STAKE in the UPD registers. -/
def showUpd (s : State) : State :=
  let s := forEach (List.finRange 4) showKind s
  let mask := (List.finRange 4).foldl (fun n (k : Fin 4) => putBit n k ((s.upd.journal[k]).state != .normal)) 0
  let s := setF s Reg.UPD_STATUS F.UPD_STATUS_lifecycle (lifecycle s)
  let s := setF s Reg.UPD_STATUS F.UPD_STATUS_counter (stakeCounter s)
  let s := setF s Reg.UPD_STATUS F.UPD_STATUS_boot_fail s.upd.failedBoots
  let s := setF s Reg.UPD_STATUS F.UPD_STATUS_trial mask
  let s := setF s Reg.UPD_STATUS F.UPD_STATUS_boot_rec (b2n s.upd.bootRec)
  let s := match s.upd.download with
    | none => wr s Reg.UPD_DL 0
    | some d => wr s Reg.UPD_DL (putF (putF (putF 0 F.UPD_DL_kind (d.kind.val + 1)) F.UPD_DL_total (dlTotal d))
        F.UPD_DL_confirmed d.confirmed)
  showSettings s

/-- Change the journal of a kind. -/
def setJournal (k : Fin 4) (j : KindJournal) (s : State) : State :=
  showUpd (setUpd { s.upd with journal := s.upd.journal.set k j } s)

/-- Change the staged image of a kind. -/
def setStaged (k : Fin 4) (x : Option StagedImage) (s : State) : State :=
  setUpd { s.upd with staged := s.upd.staged.set k x } s

/-- The state of a kind. -/
def kindState (s : State) (k : Fin 4) : KindState := (s.upd.journal[k]).state

/-- A kind code of a payload. -/
def kindOf (n : Nat) : Option (Fin 4) := if 1 ≤ n ∧ n ≤ 4 then some (Fin.ofNat 4 (n - 1)) else none

/-- KINDLING runs (R442). -/
def inKindling (s : State) : Bool := s.pwr.phase == .kindling

/-- The structure of a pitch slot: the full image and the group images that form on it in order (R434). -/
def structureOf (p : PitchSlot) : PitchImage :=
  p.groups.foldl (fun run g => if g.baseBuildId = run.buildId then mergeImage run g else run) p.image

/-! ### Download (R427 to R429) -/

/-- A slot loses what it held (the staging slot of a new download). -/
def clearSlot (k : Fin 4) (i : Fin 2) (s : State) : State :=
  match k with
  | 0 => setUpd { s.upd with pitch := s.upd.pitch.set i none } s
  | 1 => setUpd { s.upd with scan := s.upd.scan.set i none } s
  | 2 => setUpd { s.upd with firmware := s.upd.firmware.set i none } s
  | _ => s

/-- Journal a new download identity; the staging slot's former content stops counting as an image. -/
def newDownload (d : Download) (s : State) : State :=
  let j := s.upd.journal[d.kind]
  let s := clearSlot d.kind (1 - j.active) (setStaged d.kind none s)
  let s := setUpd { s.upd with download := some d, pages := 0, declared := s.upd.declared.set d.kind d.hash } s
  let s := setF s (Reg.UPD_KIND_STATE (d.kind.val + 1)) F.UPD_KIND_STATE_fallback_valid 0
  setJournal d.kind { j with verified := false } s

/-- The download that an IMAGE_BEGIN resumes. -/
def resumes (s : State) (k : Fin 4) (length : Nat) (hash : BitVec 384) : Option Download :=
  match s.upd.download with
  | some d => if d.kind = k ∧ d.length = length ∧ d.hash = hash then some d else none
  | none => none

/-- IMAGE_BEGIN: status, result, handle. -/
def imageBegin (kind length : Nat) (hash : BitVec 384) (ch : Option (Fin 21)) (s : State) : Nat × List Word × Word × State :=
  match kindOf kind with
  | none => (stBadState, [], 0, s)
  | some k =>
    if kindState s k ≠ .normal ∨ (k = 3 ∧ !inKindling s) ∨ length = 0 then (stBadState, [], 0, s)
    else if kindLimit k < length then (stLengthExceeds, [], 0, s)
    else if !(openOfKind s opDownload).isEmpty then (stBusy, [], 0, s)
    else
      match freeSlot s with
      | none => (stBusy, [], 0, s)
      | some n =>
        let old := resumes s k length hash
        let d := old.getD ⟨k, length, hash, 0⟩
        let s := match old with
          | some d => logN 0xC002 kind d.confirmed s
          | none => newDownload d s
        let r := openOp n opDownload .running ch kind s
        let s := whenS (decide (dlTotal d ≤ d.confirmed)) (endOp n .completed stOk) r.2
        (stOk, [BitVec.ofNat 32 (b2n old.isSome), BitVec.ofNat 32 (dlTotal d), BitVec.ofNat 32 d.confirmed], r.1, s)

/-- Is a chunk of a block laid out as R428 asks? -/
def chunkOk (d : Download) (block off len : Nat) : Bool :=
  let stop := block * 65536 + off + len
  off % 4096 == 0 && 0 < len && len ≤ 61440 && off + len ≤ 65536 && stop ≤ d.length &&
    ((len % 4096 == 0 && 4096 ≤ len) || stop == d.length)

/-- Pages of a block: those the image has in it. -/
def blockPages (d : Download) (block : Nat) : Nat := (min 65536 (d.length - block * 65536) + 4095) / 4096

/-- The pages of a chunk, as a bitmap. -/
def chunkPages (off len : Nat) : BitVec 16 :=
  (List.range ((len + 4095) / 4096)).foldl (fun (v : BitVec 16) i => v ||| (1#16 <<< (off / 4096 + i))) 0

/-- What IMAGE_DATA answers: confirmed blocks and the page bitmap of the open block. -/
def dataResult (s : State) (d : Download) : List Word := [BitVec.ofNat 32 d.confirmed, s.upd.pages.setWidth 32]

/-- The last block is confirmed: the image is staged, and the operation completes. -/
def imageStaged (n : Fin 16) (d : Download) (x : StagedImage) (s : State) : State :=
  let x := { x with content := withReceived d.length x.content }
  let s := showUpd (setStaged d.kind (some x) s)
  endOp n .completed stOk (logEvent 0xC001 (d.kind.val + 1) (contentHead x.content).buildId s)

/-- Every page of the open block is held: it is written, read back and confirmed. -/
def confirmBlock (n : Fin 16) (d : Download) (x : StagedImage) (s : State) : State :=
  let d' := { d with confirmed := d.confirmed + 1 }
  let s := showUpd (setUpd { s.upd with download := some d', pages := 0 } s)
  let s := match s.cmd.ops[n] with
    | none => s
    | some o => setOper n (some { o with progress := d'.confirmed * 1000 / dlTotal d' }) s
  if dlTotal d' ≤ d'.confirmed then imageStaged n d' x s else s

/-- A chunk of the open block. -/
def openChunk (n : Fin 16) (d : Download) (off len : Nat) (x : StagedImage) (s : State) : Nat × List Word × State :=
  let pages := s.upd.pages ||| chunkPages off len
  let s := setJournal d.kind { s.upd.journal[d.kind] with verified := false } (setUpd { s.upd with pages := pages } s)
  let full := (List.range (blockPages d d.confirmed)).all (fun i => pages.getLsbD i)
  let s := whenS full (confirmBlock n d x) s
  (stOk, dataResult s (s.upd.download.getD d), s)

/-- IMAGE_DATA under a DOWNLOAD handle: status, result. -/
def imageData (handle : Word) (block off len : Nat) (x : StagedImage) (s : State) : Nat × List Word × State :=
  match slotOf s handle, s.upd.download with
  | some n, some d =>
    match s.cmd.ops[n] with
    | none => (stNoHandle, [], s)
    | some o =>
      if o.kind ≠ opDownload then (stNoHandle, [], s)
      else if opDone o then (stLate, [], s)
      else if o.state ≠ .running then (stBadState, [], s)
      else if d.confirmed < block ∨ dlTotal d ≤ block then (stBadState, [BitVec.ofNat 32 d.confirmed], s)
      else if !chunkOk d block off len then (stBadLength, [], s)
      else if block < d.confirmed then (stOk, dataResult s d, s)
      else openChunk n d off len x s
  | _, _ => (stNoHandle, [], s)

/-! ### Verification (R430) -/

/-- A scan program image's own checks: it fits, its map is placed, and the pitch image it needs runs or is staged and
verified. -/
def scanFits (x : ScanImage) (s : State) : Bool :=
  let base := x.head.baseBuildId
  let paired := match s.upd.staged[0] with
    | some y => (s.upd.journal[0]).verified && (contentHead y.content).buildId == base
    | none => false
  x.fits && (base == 0 || base == rd s Reg.FAB_IMAGE_ID || paired) &&
    (List.finRange 2).all (fun (k : Fin 2) => match x.progs[k] with | none => true | some p => !mapConflict s k p)

/-- The first check of R430 that fails, with its status. -/
def verifyFault (k : Fin 4) (x : StagedImage) (declared : BitVec 384) (s : State) : Option (Nat × Nat) :=
  match headFault k (contentHead x.content) s with
  | some e => some (1, e.2.1)
  | none =>
    if contentKind x.content ≠ k then some (1, stNotPermitted)
    else if x.sha ≠ declared then some (2, stBadCrc)
    else
      match x.content with
      | .pitch p => (pitchCheck p s).map (fun e => (3, e.2.1))
      | .scan p => if scanFits p s then none else some (4, stBadState)
      | _ => none

/-- An image of kind 1 that a check of Table 2.4 refuses is logged (R62); bytes that spell no pitch image fail by their
magic. -/
def notePitchRefused (k : Fin 4) (x : ImageContent) (s : State) : State :=
  if k ≠ 0 then s
  else
    let fault := match x with
      | .pitch p => pitchCheck p s
      | _ => some ((headFault 0 (contentHead x) s).getD (2, stNotPermitted, 0))
    match fault with
    | some e => refusePitch e.1 e.2.2 s
    | none => s

/-- IMAGE_VERIFY: status, handle. -/
def imageVerify (kind : Nat) (ch : Option (Fin 21)) (s : State) : Nat × Word × State :=
  match kindOf kind with
  | none => (stBadState, 0, s)
  | some k =>
    if (s.upd.staged[k]).isNone then (stBadState, 0, s)
    else if !(openOfKind s opVerify).isEmpty then (stBusy, 0, s)
    else
      match freeSlot s with
      | none => (stBusy, 0, s)
      | some n => let r := openOp n opVerify .running ch kind s; (stOk, r.1, r.2)

/-- IMAGE_VERIFIED: the running verification ends. -/
def execImageVerified (s : State) : Out :=
  match (openOfKind s opVerify).head? with
  | none => .next s
  | some n =>
    match s.cmd.ops[n] with
    | none => .next s
    | some o =>
      match kindOf o.obj with
      | none => .next s
      | some k =>
        match s.upd.staged[k] with
        | none => .next (endOp n .failed stBadState s)
        | some x =>
          match verifyFault k x s.upd.declared[k] s with
          | some e => .next (endOp n .failed e.2 (logN 0xC004 e.1 e.2 (whenS (e.1 != 2) (notePitchRefused k x.content) s)))
          | none =>
            let s := setJournal k { s.upd.journal[k] with verified := true } s
            .next (endOp n .completed stOk (logEvent 0xC003 o.obj (contentHead x.content).buildId s))

/-! ### Commit points and trials (R432) -/

/-- The trial window in s. -/
def trialWindow (s : State) : Nat := fld s Reg.UPD_TRIAL_CFG F.UPD_TRIAL_CFG_window

/-- The staged image takes its slot: a group image is appended to the active pitch slot, any other image fills the other
slot. -/
def moveStaged (k : Fin 4) (x : StagedImage) (s : State) : State :=
  let j := s.upd.journal[k]
  let o := 1 - j.active
  match x.content with
  | .pitch p =>
    if p.full then
      let q : PitchSlot := { image := p }
      setUpd { s.upd with pitch := s.upd.pitch.set o (some q) } s
    else
      match s.upd.pitch[j.active] with
      | none => s
      | some q =>
        let q' : PitchSlot := { q with groups := q.groups ++ [p] }
        setUpd { s.upd with pitch := s.upd.pitch.set j.active (some q') } s
  | .scan p => setUpd { s.upd with scan := s.upd.scan.set o (some p) } s
  | .firmware p => setUpd { s.upd with firmware := s.upd.firmware.set o (some p) } s
  | .boot p => setUpd { s.upd with boot := some p } s

/-- Is the content a group image? -/
def isGroup : ImageContent → Bool
  | .pitch p => !p.full
  | _ => false

/-- The commit point of a kind: journaled ACTIVATING and logged. -/
def commitKind (k : Fin 4) (s : State) : State :=
  match s.upd.staged[k] with
  | none => s
  | some x =>
    let s := setStaged k none (moveStaged k x s)
    let s := setJournal k { s.upd.journal[k] with state := .activating, group := isGroup x.content, verified := false } s
    logEvent 0xC005 (k.val + 1) (contentHead x.content).buildId s

/-- TRIAL begins for a kind: the new slot is active. -/
def beginTrial (k : Fin 4) (s : State) : State :=
  let j := s.upd.journal[k]
  if j.state = .activating then
    let s := setJournal k { j with state := .trial, active := if j.group then j.active else 1 - j.active } s
    logN 0xC006 (k.val + 1) (trialWindow s) (setUpd { s.upd with trialFrom := some (localNs s) } s)
  else s

/-- The mask of kinds an operation activates. -/
def opMask (s : State) (n : Fin 16) : Nat := match s.cmd.ops[n] with | none => 0 | some o => o.obj

/-- The kinds of a mask commit, and the operation with them. -/
def commitMask (n : Fin 16) (s : State) : State :=
  let mask := opMask s n
  commitOp (some n) (forEach (List.finRange 4) (fun (k : Fin 4) s => if mask.testBit k then commitKind k s else s) s)

/-- The kinds of a mask enter TRIAL, and the operation completes. -/
def trialMask (n : Fin 16) (s : State) : State :=
  let mask := opMask s n
  endOp n .completed stOk
    (forEach (List.finRange 4) (fun (k : Fin 4) s => if mask.testBit k then beginTrial k s else s) s)

/-- The swap point that an operation's scan exchange has, if any core awaits it. -/
def pairedSwap (s : State) (n : Fin 16) : Option Nat :=
  (List.finRange 2).findSome? (fun (k : Fin 2) => match (s.scan.cores[k]).exchange with
    | none => none
    | some e => if e.opSlot = some n then some (rd64 s (Reg.SCAN_SWAP_TIME k)).toNat else none)

/-- Does the mirror frame open at this boundary: at once after the contexts are written, or one frame before the common swap
point of a pair (Table 16.3)? -/
def mirrorDue (s : State) : Bool :=
  match s.fab.change with
  | none => false
  | some ch => ch.phase == .contextsWritten &&
    (match ch.opSlot with
     | none => true
     | some n => match pairedSwap s n with | none => true | some t => t ≤ nowNat s + 1000000)

/-- R66 step 2, R432: the boundary that opens the mirror frame is the commit point of a pitch activation. -/
def mirrorOpens (s : State) : State :=
  if mirrorDue s then
    let op := match s.fab.change with | none => none | some ch => ch.opSlot
    let s := openMirror s
    match op with | none => s | some n => commitMask n s
  else s

/-- An image without TEST_ALLOWED disarms fault injection (R405). -/
def afterImage (s : State) : State := whenS (!flg s Reg.FAB_PERMIT F.FAB_PERMIT_test_allowed) (fiDisarmAll 2) s

/-- The swap point of a pending structure change: a full image ends captures (R292, R293) and may withdraw permissions; a pair
swaps its scan programs with it; then TRIAL begins. -/
def structureSwaps (s : State) : State :=
  match s.fab.change with
  | none => s
  | some ch =>
    if ch.phase = .mirror then
      let s := whenS ch.image.full recFullImage s
      let s := whenS ch.image.full afterImage (swapStructure s)
      match ch.opSlot with
      | none => s
      | some n =>
        let s := forEach (List.finRange 2) (fun (k : Fin 2) s =>
          match (s.scan.cores[k]).exchange with
          | none => s
          | some e => if e.opSlot = some n then reachSwap k s else s) s
        trialMask n s
    else s

/-- The swap point of a core (R331), with the commit of an activation of scan programs alone and its TRIAL once every core has
swapped. -/
def scanSwaps (k : Fin 2) (s : State) : State :=
  let op := match (s.scan.cores[k]).exchange with | none => none | some e => e.opSlot
  match op with
  | none => reachSwap k s
  | some n =>
    if (opMask s n).testBit 0 then reachSwap k s
    else
      let s := reachSwap k (whenS (kindState s 1 == .normal) (commitMask n) s)
      if (pairedSwap s n).isNone then trialMask n s else s

/-- PROG_SWAP. -/
def execProgSwap (k : Fin 2) (s : State) : Out := .next (scanSwaps k s)

/-- An operation whose exchange completed with a late cycle enters TRIAL then. -/
def settleTrial (s : State) : State :=
  match (openOfKind s opActivate).head? with
  | none => s
  | some n => if opMask s n = 2 ∧ kindState s 1 = .activating ∧ (pairedSwap s n).isNone then trialMask n s else s

/-! ### Revert (R436, R440) -/

/-- Does a pitch image need a cold restart to replace the running structure (R68)? -/
def needsCold (s : State) (img : PitchImage) : Bool :=
  match s.fab.running with | none => true | some r => img.full && (r.pinmux != img.pinmux || r.clockplan != img.clockplan)

/-- A reset that the part itself requests: not a failure, and of no cause of Table 3.4 (R438). -/
def ownColdStart (s : State) : State := resetPart none false (setUpd { s.upd with failedBoots := 0 } s)

/-- The structure change that returns to a structure; that of a group image gives its slots their former roles, routes and
contexts back. -/
def returnTo (back : PitchImage) (dropped : Option PitchImage) (s : State) : State :=
  match dropped with
  | none => beginChange back none none s
  | some g =>
    let mine := fun (x : BitVec 8) => g.roles.any (fun r => r.slot == x)
    let img : PitchImage := { g with
      head := { g.head with buildId := back.buildId }
      roles := back.roles.filter (fun r => mine r.slot), routes := back.routes.filter (fun r => mine r.source)
      schedule := back.schedule.filter (fun e => mine e.slot)
      contexts := back.contexts.filter (fun x => mine x.slot), transfers := [] }
    beginChange img none (some back) s

/-- The pitch image returns: through a new swap point, or by a cold restart once no stage is energised. -/
def returnPitch (cause : Nat) (dropped : Option PitchImage) (s : State) : State :=
  match s.upd.pitch[(s.upd.journal[0]).active] with
  | none => s
  | some p =>
    let back := structureOf p
    if dropped.isNone && needsCold s back then
      if anyEnergised s then
        logN 0xC009 1 (fld s Reg.CTRL_STATUS F.CTRL_STATUS_energised)
          (setUpd { s.upd with revertWait := some (0, cause) } s)
      else ownColdStart s
    else returnTo back dropped s

/-- The scan programs of the cores that an image changed return; a core without a former program stops. -/
def returnScan (new : Option ScanImage) (s : State) : State :=
  let old := s.upd.scan[(s.upd.journal[1]).active]
  let changed := (List.finRange 2).filter (fun (k : Fin 2) => match new with | none => false | some x => (x.progs[k]).isSome)
  let back : List (Fin 2 × ScanProgram) := changed.filterMap (fun k =>
    match old with | none => none | some x => (x.progs[k]).map (fun p => (k, p)))
  let gone := changed.filter (fun k => !back.any (fun p => p.1 == k))
  let s := forEach gone stopRequest s
  if back.isEmpty then s else openExchange back (swapPoint back 1 s) none s

/-- The settings return with their firmware; writes made during its trial are lost. -/
def returnSettings (s : State) : State :=
  match s.upd.paired with
  | none => s
  | some i =>
    let s := whenS (s.upd.trialWrites != 0) (fun s => logN 0xC00D 0 s.upd.trialWrites s) s
    showSettings (setUpd { s.upd with inForce := i, paired := none, trialWrites := 0 } s)

/-- Is any kind in TRIAL? -/
def anyTrial (s : State) : Bool := s.upd.journal.toList.any (fun j => j.state == .trial)

/-- The journal of a revert: the old slot is active, or the last group image is dropped. -/
def revertJournal (k : Fin 4) (s : State) : State :=
  let j := s.upd.journal[k]
  let s := if j.group then
      match s.upd.pitch[j.active] with
      | none => s
      | some p =>
        let q : PitchSlot := { p with groups := p.groups.dropLast }
        setUpd { s.upd with pitch := s.upd.pitch.set j.active (some q) } s
    else s
  setJournal k { j with state := .normal, active := if j.group then j.active else 1 - j.active, group := false } s

/-- A kind in TRIAL reverts, with the cause of TRIAL_FAILED. -/
def revertKind (cause : Nat) (k : Fin 4) (s : State) : State :=
  let j := s.upd.journal[k]
  if j.state ≠ .trial then s
  else
    let dropped := if j.group then
        match s.upd.pitch[j.active] with | none => none | some p => p.groups.getLast?
      else none
    let scanNew := s.upd.scan[(s.upd.journal[1]).active]
    let s := logN 0xC008 (k.val + 1) cause (revertJournal k s)
    let s := setUpd { s.upd with trialFrom := if anyTrial s then s.upd.trialFrom else none } s
    match k with
    | 0 => returnPitch cause dropped s
    | 1 => returnScan scanNew s
    | 2 => let s := returnSettings s; setUpd { s.upd with restartAt := some (localNs s, none) } s
    | _ => s

/-- TRIAL_EXPIRED: the window has passed. -/
def execTrialExpired (s : State) : Out :=
  match s.upd.trialFrom with
  | none => .next s
  | some t => .next (forEach (List.finRange 4) (revertKind 2) (reachLocal (t + 1000000000 * trialWindow s) s))

/-- DEFERRED_REVERT. -/
def execDeferredRevert (s : State) : Out :=
  if s.upd.revertWait.isSome ∧ !anyEnergised s then .next (ownColdStart s) else .next s

/-- Seconds until the trial window expires (UPD_TRIAL_LEFT). -/
def trialLeft (s : State) : Nat :=
  match s.upd.trialFrom with
  | none => 0
  | some t => (t + 1000000000 * trialWindow s - localNs s) / 1000000000

/-- IMAGE_CONFIRM: status. -/
def imageConfirm (kind : Nat) (s : State) : Nat × State :=
  match kindOf kind with
  | none => (stBadState, s)
  | some k =>
    if kindState s k ≠ .trial then (stBadState, s)
    else
      let s := setJournal k { s.upd.journal[k] with state := .normal, group := false } s
      let s := setUpd { s.upd with trialFrom := if anyTrial s then s.upd.trialFrom else none } s
      let s := if k = 2 then setUpd { s.upd with paired := none, trialWrites := 0 } s else s
      (stOk, logEvent 0xC007 kind ((activeHead s k).map (·.buildId) |>.getD 0) s)

/-- The operations on a kind, DOWNLOAD and VERIFY, end CANCELLED. -/
def cancelFor (kind : Nat) (s : State) : State :=
  forEach (openOfKind s opDownload ++ openOfKind s opVerify) (fun n s =>
    if opMask s n = kind then endOp n .cancelled stOk s else s) s

/-- IMAGE_ABANDON: status. -/
def imageAbandon (kind : Nat) (s : State) : Nat × State :=
  match kindOf kind with
  | none => (stBadState, s)
  | some k =>
    match kindState s k with
    | .activating => (stBadState, s)
    | .trial => (stOk, revertKind 3 k s)
    | .normal =>
      let s := cancelFor kind s
      let mine := match s.upd.download with | none => false | some d => d.kind == k
      let s := setUpd { s.upd with
        download := if mine then none else s.upd.download, pages := if mine then 0 else s.upd.pages } s
      (stOk, setJournal k { s.upd.journal[k] with verified := false } (setStaged k none s))

/-! ### Activation (R431 to R433) -/

/-- The staged pitch image, and the programs of the staged scan image. -/
def stagedPitch (s : State) : Option PitchImage :=
  match s.upd.staged[0] with
  | some x => (match x.content with | .pitch p => some p | _ => none)
  | none => none
def stagedProgs (s : State) : List (Fin 2 × ScanProgram) :=
  match s.upd.staged[1] with
  | some x => (match x.content with
    | .scan p => (List.finRange 2).filterMap (fun (k : Fin 2) => (p.progs[k]).map (fun q => (k, q)))
    | _ => [])
  | none => []

/-- The kinds of a mask. -/
def kindsOf (mask : Nat) : List (Fin 4) := (List.finRange 4).filter (fun (k : Fin 4) => mask.testBit k)

/-- Is another kind on its way, so that no activation is taken? Kind 4 may be named again while it is ACTIVATING. -/
def kindBusy (s : State) (mask : Nat) : Bool :=
  (List.finRange 4).any (fun (k : Fin 4) => kindState s k != .normal && !(k == 3 && mask == 8 && inKindling s))

/-- Group images appended in the active pitch slot. -/
def groupsHeld (s : State) : Nat :=
  match s.upd.pitch[(s.upd.journal[0]).active] with
  | none => 0
  | some p => p.groups.length

/-- Bytes of the images in the active pitch slot. -/
def slotBytes (s : State) : Nat :=
  match s.upd.pitch[(s.upd.journal[0]).active] with
  | none => 0
  | some p => p.image.head.length + (p.groups.map (fun g => g.head.length)).sum

/-- The staged pitch image is a group image, and the active slot already holds its 15 or has no room for it (R434). -/
def groupsFull (s : State) : Bool :=
  match stagedPitch s with
  | none => false
  | some p => !p.full && (decide (15 ≤ groupsHeld s) || decide (kindLimit 0 < slotBytes s + p.head.length))

/-- R431, R434, R331: why an activation is refused; `stOk` where it is not. -/
def activateRefused (mask flags : Nat) (s : State) : Nat :=
  let verified := fun (k : Fin 4) => (s.upd.journal[k]).verified && (s.upd.staged[k]).isSome
  let cold : Bool := match stagedPitch s with | none => false | some p => mask.testBit 0 && needsCold s p && !inKindling s
  if !([1, 2, 4, 8, 3].contains mask) then stBadState
  else if (kindsOf mask).any (fun k => !verified k && !(k == 3 && kindState s 3 == .activating)) then stBadState
  else if !inKindling s ∧ mask.testBit 0 ∧ s.fab.change.isSome then stBusy
  else if kindBusy s mask then stBadState
  else if mask = 8 ∧ !inKindling s then stBadState
  else if mask = 4 ∧ !inKindling s ∧ (anyOpOpen s ∨ (recState s = recCapturing ∧ recStream s)) then stBadState
  else if cold ∧ (flags % 2 = 0 ∨ anyEnergised s) then stBadState
  else if mask.testBit 0 && groupsFull s then stLengthExceeds
  else if !inKindling s ∧ mask.testBit 1 then exchangeRefused (stagedProgs s) s
  else stOk

/-- The boot stage is written (R433). -/
def writeBoot (n : Fin 16) (s : State) : State :=
  let s := commitMask n s
  let s := setUpd { s.upd with failedBoots := 0 } (setJournal 3 { s.upd.journal[3] with state := .normal } s)
  endOp n .completed stOk (showUpd s)

/-- In KINDLING the kinds are journaled ACTIVATING, and the next RESET starts the new image (R442). -/
def activateKindling (n : Fin 16) (mask : Nat) (s : State) : State :=
  if mask = 8 then writeBoot n s
  else
    let s := commitMask n s
    showUpd (setUpd { s.upd with failedBoots := 0 } s)

/-- An accepted activation under way (Table 16.3). -/
def activateNow (n : Fin 16) (mask : Nat) (s : State) : State :=
  if inKindling s then activateKindling n mask s
  else
    match stagedPitch s, mask with
    | _, 4 => setUpd { s.upd with restartAt := some (localNs s, some n) } s
    | _, 2 => let ps := stagedProgs s; openExchange ps (swapPoint ps 1 s) (some n) s
    | some p, 1 => if needsCold s p then ownColdStart (commitMask n s) else beginChange p (some n) none s
    | some p, 3 =>
      if needsCold s p then ownColdStart (commitMask n s)
      else let ps := stagedProgs s; openExchange ps (swapPoint ps 4 s) (some n) (beginChange p (some n) none s)
    | _, _ => s

/-- IMAGE_ACTIVATE: status, handle. The reply precedes a cold start. -/
def imageActivate (mask flags : Nat) (ch : Option (Fin 21)) (s : State) : Nat × Word × State :=
  let r := activateRefused mask flags s
  if r ≠ stOk then (r, 0, s)
  else if !(openOfKind s opActivate).isEmpty then (stBusy, 0, s)
  else
    match freeSlot s with
    | none => (stBusy, 0, s)
    | some n => let o := openOp n opActivate .running ch mask s; (stOk, o.1, activateNow n mask o.2)

/-- A cancel of an ACTIVATE before its commit point withdraws it, and no change of another origin (R69, R334, R432). -/
def withdrawActivation (n : Fin 16) (s : State) : State :=
  setUpd { s.upd with restartAt := none } (withdrawExchange (withdrawChange n s))

/-! ### Settings (R439, R440) -/

/-- The frame boundary at which settings accepted now apply, in whole ms of TAI. -/
def settingsFrame (s : State) : Nat := (nowNat s + 2000000 + 999999) / 1000000

/-- Does the running firmware know a type? A part without a firmware image known to the model leaves it to the record. -/
def typeKnown (s : State) (ty : BitVec 16) : Bool :=
  match runningFirmware s with
  | none => true
  | some f => f.formats.any (fun x => x.type == ty)

/-- SETTINGS_WRITE: the whole write is checked first; then stored, forwarded by the ACTIVE of a duplex, and due. -/
def settingsWrite (x : List SettingsRecord) (s : State) : Nat × List Word × State :=
  match x.findIdx? (fun r => r.malformed), x.findIdx? (fun r => r.refused || !typeKnown s r.type) with
  | some _, _ => (stBadLength, [], s)
  | none, some i => (stBadState, [BitVec.ofNat 32 i], s)
  | none, none =>
    let f := settingsFrame s
    let s := storeWrite x s
    let s := whenS (dpxOn s && holdsActive s) (sendGuy 0x0C (.settings x (BitVec.ofNat 64 f))) s
    let d : SettingsDue := ⟨x, f * 1000000⟩
    (stOk, [], setUpd { s.upd with settingsDue := s.upd.settingsDue ++ [d] } s)

/-- Apply what is due by now. -/
def settingsAtBoundary (s : State) : State :=
  let due := s.upd.settingsDue.filter (fun d => d.at' ≤ nowNat s)
  let s := setUpd { s.upd with settingsDue := s.upd.settingsDue.filter (fun d => !decide (d.at' ≤ nowNat s)) } s
  forEach due (fun d s => settingsApplied d.records s) s

/-- SETTINGS_APPLIED. -/
def execSettingsApplied (s : State) : Out :=
  match s.upd.settingsDue with
  | [] => .next s
  | d :: _ => .next (settingsAtBoundary (reachNs s (BitVec.ofNat 64 d.at')))

/-- How one record fares under a firmware (Table of R440): the record it becomes, or none where it cannot be migrated. -/
def migrateRecord (f : Firmware) (r : SettingsRecord) : Option SettingsRecord :=
  match f.formats.find? (fun x => x.type == r.type) with
  | none => if r.type.getLsbD 15 then none else some r
  | some x =>
    if x.major = r.major then
      if r.minor.toNat < x.minor.toNat then
        some { r with minor := x.minor, value := r.value ++ x.defaults.drop r.value.length }
      else some r
    else if x.migrates.contains r.major then
      let v := Config.migrate f.version r.type r.major (r.value, r.regs)
      some { r with major := x.major, minor := x.minor, value := v.1, regs := v.2 }
    else none

/-- The first record type that a firmware cannot migrate. -/
def unmigratable (f : Firmware) (x : SettingsSet) : Option (BitVec 16) :=
  (x.records.find? (fun r => (migrateRecord f r).isNone)).map (·.type)

/-- The first start of a firmware: the migrated set becomes the trial set, paired with the old one. -/
def migrateSettings (f : Firmware) (s : State) : State :=
  let old := settingsNow s
  let i := s.upd.inForce
  let s := storeOther { version := old.version + 1, writer := f.version, records := old.records.filterMap (migrateRecord f) } s
  setUpd { s.upd with paired := some i, trialWrites := 0 } s

/-! ### Supervisor restart (R435) -/

/-- The network command channels close. -/
def closeChannels (s : State) : State :=
  forEach (List.finRange 21) (fun (ch : Fin 21) s =>
    if ch ≠ 0 ∧ (s.cmd.channels[ch]).isOpen then resetChannel ch 0 s else s) s

/-- The firmware runs with its settings: TRIAL, or its end by MIGRATE_FAIL. -/
def firmwareRuns (op : Option (Fin 16)) (s : State) : State :=
  if kindState s 2 = .activating then
    let new := s.upd.firmware[1 - (s.upd.journal[2]).active]
    match new with
    | none => s
    | some f =>
      match unmigratable f (settingsNow s) with
      | some ty =>
        let j := s.upd.journal[2]
        let s := setJournal 2 { j with state := .trial, active := 1 - j.active } (logEvent 0xC00B 0 (ty.setWidth 32) s)
        endOp? op .failed stMigrateFail (revertKind 4 2 s)
      | none =>
        let s := beginTrial 2 (migrateSettings f s)
        endOp? op .completed stOk (applyRecords (settingsNow s).records s)
  else applyRecords (settingsNow s).records s

/-- The snapshot buffers of the masters on the supervisor, empty. -/
def emptySnaps (s : State) : State :=
  { s with snap := Vector.ofFn (fun (m : Fin 8) => if m.val < 4 then .empty else s.snap[m]) }

/-- SUPERVISOR_RESTART: the steps of R435 in one. A revert restarts with the old firmware already journaled. -/
def supervisorRestart (s : State) : State :=
  match s.upd.restartAt with
  | none => s
  | some (t0, op) =>
    let s := closeChannels (reachLocal (t0 + 20000000) s)
    let s := setUpd { s.upd with restartAt := none } s
    let s := emptySnaps s
    let s := match op with | none => s | some n => commitMask n s
    firmwareRuns op (reachLocal (t0 + 150000000) s)

/-! ### Service states (R444 to R447) -/

/-- A new nonce. -/
def newNonce (s : State) : State :=
  let f := takeFree s
  wr64 f.2 Reg.UPD_NONCE (Config.freeValue f.1)

/-- The smallest security_version among the active images. -/
def leastSecurity (s : State) : Option Nat :=
  ((List.finRange 4).filterMap (fun (k : Fin 4) => (activeHead s k).map (·.securityVersion))).foldl
    (fun m v => match m with | none => some v | some w => some (min w v)) none

/-- R446: why a token is refused; `stOk` where it is not. -/
def tokenRefused (t : Token) (s : State) : Nat :=
  if t.request = 0 then stOk
  else if t.keyHash ≠ s.upd.stake.rootHash[0] ∨ !t.signatureValid then stSignature
  else if t.serial ≠ s.upd.stake.serial ∨ t.nonce ≠ rd64 s Reg.UPD_NONCE ∨
      (t.notAfter.toNat < nowNat s ∧ timeState s ≠ timeUnset) then stNotPermitted
  else if (t.request = 1 ∧ inKindling s) ∨ (t.request ≠ 1 ∧ !inKindling s) ∨ (t.request = 3 ∧ lifecycle s ≠ 1) then
    stBadState
  else if t.request = 2 ∧ (t.value ≤ stakeCounter s ∨ 64 < t.value ∨
      (match leastSecurity s with | none => false | some v => decide (v < t.value)) = true) then stRollback
  else if t.request ≠ 1 ∧ flg s Reg.PWR_STATUS F.PWR_STATUS_vin_low then stBadState
  else stOk

/-- COMMISSIONING until not_after, or for 8 h where TIME is UNSET. -/
def enterCommissioning (t : Token) (s : State) : State :=
  let unset := timeState s == timeUnset
  let eight := 28800000000000
  let s := setUpd { s.upd with serviceEnd := if unset then some (localNs s + eight) else none } s
  let s := wr64 s Reg.UPD_SERVICE_END (if unset then now s + BitVec.ofNat 64 eight else t.notAfter)
  logN 0xC00F 1 0 (setF s Reg.UPD_STATUS F.UPD_STATUS_commissioning 1)

/-- R443, R444: fuses burn, from 0 to 1 only, in one operation of at most 1.2 ms. -/
def burn (counter : BitVec 64) (word : BitVec 16) (s : State) : State :=
  let k := s.upd.stake
  setUpd { s.upd with
    stake := { k with counter := k.counter ||| counter, lifecycle := k.lifecycle ||| word }
    burnUntil := localNs s + 1200000 } s

/-- R444: RETURNED. EMBER and both settings slots are erased. -/
def enterReturned (s : State) : State :=
  let s := { s with
    log := { queue := [], entries := [], next := 0, dropped := s.log.dropped }
    scan := { s.scan with cores := s.scan.cores.map (fun x => { x with copies := x.copies.set 0 none }) }
    dpx := { s.dpx with emberEpoch := 0 }
    prot := { s.prot with feeders := s.prot.feeders.map (fun x => { x with thetaSaved := 0, savedAt := 0 }) } }
  let s := forEach (List.range 8) (fun f s => wr s (Reg.PROT_FDR_COUNT f) 0) s
  let s := setUpd { s.upd with
    journal := Vector.replicate 4 {}, download := none, failedBoots := 0, settings := Vector.replicate 2 none
    inForce := 0, paired := none } s
  logN 0xC012 0 0xFFFF (showUpd (burn 0 0xFFFF s))

/-- SERVICE_STATE: status. -/
def serviceState (t : Token) (s : State) : Nat × State :=
  let r := tokenRefused t s
  if r ≠ stOk then (r, logN 0xC010 t.request r s)
  else
    let s := match t.request with
      | 0 => leaveCommissioning s
      | 1 => enterCommissioning t s
      | 2 => logN 0xC011 0 t.value (showUpd (burn (counterFuses t.value) 0 s))
      | _ => enterReturned s
    (stOk, newNonce s)

end Sys2Proof.Machine
end

