-- ==== Sys2Proof/Machine/Start.lean ====
section
/-! DEFINITION. Starts and sleep (R88 to R97, R437, R438, R440, R445): cold, warm and wake starts, KINDLING, and SLEEP entry.
Every step of a start takes its bound. -/

namespace Sys2Proof.Machine

open Sys2Proof

/-- A start kind of SYS_STATUS.start_kind: 0 cold, 1 warm, 2 wake. -/
abbrev startCold : Nat := 0
abbrev startWarm : Nat := 1
abbrev startWake : Nat := 2

/-- Let local time reach an instant in ms after t0. -/
def startMs (ms : Nat) (s : State) : State := reachLocal (s.pwr.t0 + 1000000 * ms) s

/-- PWR_RTC now (R97): LANTERN has counted whole ticks of 32.768 kHz since it was last loaded or written. -/
def rtcNow (s : State) : BitVec 64 :=
  let k := (localNs s - s.pwr.rtcAt) * 32768 / 1000000000
  rd64 s Reg.PWR_RTC + BitVec.ofNat 64 (k * 30517578125 / 1000000)

/-! ### Step 1: the control die leaves reset -/

/-- A power-on start: LANTERN begins anew, and the field die with its reset values (Table 3.4, R336, R468). -/
def powerOn (s : State) : State :=
  if s.pwr.lantern then s
  else
    let s := wr (setPwr { s.pwr with lantern := true, rtcAt := localNs s } s) Reg.SYS_RESET_CAUSE 1
    fieldPowerUp (setF s Reg.PWR_STATUS F.PWR_STATUS_rtc_valid 0)

/-- R120: TIME takes PWR_RTC in HOLDOVER where it is valid, and is UNSET otherwise. -/
def startTime (s : State) : State :=
  if flg s Reg.PWR_STATUS F.PWR_STATUS_rtc_valid then
    toTimeState timeHoldover { s with tai := BitVec.ofNat 66 (4 * (rtcNow s).toNat) }
  else toTimeState timeUnset { s with tai := 0 }

/-- What a cold or wake start does not keep: memory but ROM and MRAM, and tile memories (log entry 4). -/
def dropVolatile (s : State) : State :=
  { s with mem := s.mem.filter (fun e => e.1 < 0x20000000), fab := { s.fab with tileMem := [] } }

/-- Step 1 of a start. -/
def leaveReset (kind : Nat) (p : StartPins) (s : State) : State :=
  let s := powerOn { s with ticks := s.ticks + p.elapsed * 4 / 5 }
  let s := startTime (setPwr { s.pwr with phase := .running, t0 := localNs s, sleepSeal := none, faultLow := true } s)
  let s := whenS (kind != startWarm) dropVolatile s
  let s := setF s Reg.SYS_STATUS F.SYS_STATUS_start_kind kind
  let s := logN 0x1303 (getF (rd s Reg.SYS_RESET_CAUSE) ⟨0, 8⟩) kind s
  let s := setF s Reg.DPX_STATUS F.DPX_STATUS_side (b2n p.sideB)
  let s := newNonce (setUpd { s.upd with bootRec := p.bootRec } s)
  railsOn (startLink (showUpd s))

/-! ### Steps 2 and 3: ROM and boot stage -/

/-- R445: the unit becomes unusable. -/
def becomeUnusable (s : State) : State := setPwr { s.pwr with phase := .unusable, fatal := true, faultLow := true } s

/-- R438: why this start is KINDLING; the lowest-numbered cause of Table 16.7. -/
def kindlingCause (s : State) : Option Nat :=
  if 3 ≤ s.upd.failedBoots then some 1
  else if s.upd.bootRec then some 2
  else if kindState s 3 = .activating then some 3
  else if lifecycle s = 2 then some 4
  else none

/-- R442: KINDLING: no link, no image, never ready. -/
def enterKindling (src : Nat) (s : State) : State :=
  let s := stopLink (setPwr { s.pwr with phase := .kindling } s)
  let s := setF (setF s Reg.SYS_STATUS F.SYS_STATUS_phase 7) Reg.UPD_STATUS F.UPD_STATUS_kindling 1
  logN 0xC00E src s.upd.failedBoots s

/-- The failed-boot count rises at the boot stage (R438). -/
def countBoot (s : State) : State := showUpd (setUpd { s.upd with failedBoots := s.upd.failedBoots + 1 } s)

/-- Does the boot stage fail its checks? -/
def bootFails (s : State) : Bool :=
  match s.upd.boot with
  | none => true
  | some h => (headFault 3 h s).isSome

/-- R437: the journal of one kind is applied. -/
def applyJournal (k : Fin 4) (s : State) : State :=
  let j := s.upd.journal[k]
  match j.state with
  | .normal => s
  | .activating =>
    let s := setJournal k { j with state := .trial, active := if j.group then j.active else 1 - j.active } s
    setUpd { s.upd with trialDue := putBit s.upd.trialDue k true } s
  | .trial =>
    let s := logN 0xC008 (k.val + 1) 1 (revertJournal k s)
    whenS (k == 2) returnSettings s

/-! ### Slots and fallback (R437) -/

/-- Which slot of a kind starts: the active one where it passes, else the other, which is then journaled; whether there is
one. `fallback_valid` tells whether the other slot passed. -/
def startSlot (k : Fin 4) (ok : Fin 2 → Bool) (s : State) : Bool × State :=
  let j := s.upd.journal[k]
  let valid := fun (i : Fin 2) (s : State) =>
    setF s (Reg.UPD_KIND_STATE (k.val + 1)) F.UPD_KIND_STATE_fallback_valid (b2n (ok i))
  if ok j.active then (true, valid (1 - j.active) s)
  else if ok (1 - j.active) then
    let s := setUpd { s.upd with trialDue := putBit s.upd.trialDue k false } s
    let s := setJournal k { j with active := 1 - j.active, state := .normal, group := false } s
    (true, valid j.active (logN 0xC00A (k.val + 1) (1 - j.active) s))
  else (false, valid (1 - j.active) s)

/-- The check of a pitch image at a start that fails, with the argument of PITCH_REFUSED; `waived` where an intact seal names
its slot, so that its section CRCs stand in place of the signature (R96). -/
def pitchStartFault (waived : Bool) (s : State) (p : PitchImage) : Option (Nat × Nat × Nat) :=
  pitchCheck (if waived then
    { p with head := { p.head with signatureValid := true, keyHash := s.upd.stake.rootHash[0] } } else p) s

/-- Is a slot the one that the seal names? -/
def sealedSlot (sl : Option (Fin 2)) (i : Fin 2) : Bool := sl == some i

/-- The fault of the image in a pitch slot, if it holds one. -/
def slotFault (sl : Option (Fin 2)) (s : State) (i : Fin 2) : Option (Nat × Nat × Nat) :=
  match s.upd.pitch[i] with
  | none => none
  | some p => pitchStartFault (sealedSlot sl i) s p.image

/-- Does a pitch slot pass? -/
def pitchSlotOk (sl : Option (Fin 2)) (s : State) (i : Fin 2) : Bool :=
  (s.upd.pitch[i]).isSome && (slotFault sl s i).isNone

/-- R62: the image of a slot is refused, and logged. -/
def noteRefused (sl : Option (Fin 2)) (i : Fin 2) (s : State) : State :=
  match slotFault sl s i with
  | none => s
  | some e => refusePitch e.1 e.2.2 s

/-- R62: what the slots hold that a start refuses: the active one, and then the other it would fall back on. -/
def noteSlots (sl : Option (Fin 2)) (s : State) : State :=
  let i := (s.upd.journal[0]).active
  let both := !pitchSlotOk sl s i
  let s := noteRefused sl i s
  whenS both (noteRefused sl (1 - i)) s

/-- R434: appended group images, in order, as far as they pass. -/
def loadGroups (waived : Bool) (slot : Nat) : List PitchImage → State → State
  | [], s => s
  | g :: gs, s =>
    match pitchStartFault waived s g with
    | none => loadGroups waived slot gs (applyChange { image := g } s)
    | some e => whenS (e.2.1 == stBadCrc) (logN 0xC00A 1 slot) (refusePitch e.1 e.2.2 s)

/-- The last whole millisecond of the counter no later than `ms` after t0: the boundary at which the fabric runs its first
frame (R63 step 5). -/
def firstFrame (ms : Nat) (s : State) : State :=
  let q := (s.tai.toNat + 4 * (s.pwr.t0 + 1000000 * ms - localNs s)) / 4000000
  let s := advanceTo s (q * 4000000)
  { s with time := { s.time with lastBoundary := some q } }

/-- Steps 1 and 2 of R63, `v` being the end of validation: PINMUX, then CLOCKPLAN with the modulator clocks it names. -/
def applyPlans (p : PitchImage) (v : Nat) (s : State) : State :=
  let before := s
  let s := carriersAfter before (applyPinmux p (reachLocal (v + 500000) s))
  (applyMclk (applyClockPlan p (reachLocal (v + 8000000) s))).1

/-- The pitch image of the active slot loads by R63. -/
def loadPitch (sl : Option (Fin 2)) (ms : Nat) (s : State) : State :=
  let i := (s.upd.journal[0]).active
  match s.upd.pitch[i] with
  | none => s
  | some p =>
    let before := applyPlans p.image (localNs s) s
    let s := loadGroups (sealedSlot sl i) i p.groups (loadFull p.image i (firstFrame ms before))
    chainsAfterImage before (setPwr { s.pwr with loaded := some ⟨i, rd s Reg.FAB_IMAGE_ID⟩ } s)

/-- Steps 5 and 6: the pitch image is validated and runs, and the SAR cores are calibrated or take their record. -/
def pitchStage (kind : Nat) (sl : Option (Fin 2)) (cal : Vector CalSet 4) (s : State) : Bool × State :=
  let s := startMs (if kind = startWarm then 72 else if sl.isSome then 17 else 75) s
  let s := setF s Reg.SYS_STATUS F.SYS_STATUS_phase 2
  let s := noteSlots sl s
  let r := startSlot 0 (pitchSlotOk sl s) s
  if !r.1 then r
  else
    let s := loadPitch sl (if kind = startWarm then 87 else if sl.isSome then 32 else 90) r.2
    if kind = startCold then (true, forEach (List.finRange 4) (fun (c : Fin 4) s => finishCal c cal[c] s) s)
    else (true, forEach (List.finRange 4) takeRecord s)

/-- Does a firmware slot pass? -/
def firmwareSlotOk (s : State) (i : Fin 2) : Bool :=
  match s.upd.firmware[i] with
  | none => false
  | some f => (headFault 2 f.head s).isNone

/-- Step 7: the supervisor firmware runs. `kept`: the firmware held in LPDDR4X, whose hash matches, is the one that starts,
and NAND is not read (R92). -/
def firmwareStage (kind : Nat) (kept : Bool) (s : State) : Bool × State :=
  let s := setF (startMs (if kind = startWarm then 40 else 130) s) Reg.SYS_STATUS F.SYS_STATUS_phase 3
  if kept then (true, s) else startSlot 2 (firmwareSlotOk s) s

/-- Does a scan program slot pass? -/
def scanSlotOk (s : State) (i : Fin 2) : Bool :=
  match s.upd.scan[i] with
  | none => false
  | some x => (headFault 1 x.head s).isNone && x.fits &&
      (x.head.baseBuildId == 0 || x.head.baseBuildId == rd s Reg.FAB_IMAGE_ID)

/-- The scan programs are loaded, where a slot of kind 2 passes. -/
def loadScan (s : State) : State :=
  let r := startSlot 1 (scanSlotOk s) s
  if !r.1 then r.2
  else
    match r.2.upd.scan[(r.2.upd.journal[1]).active] with
    | none => r.2
    | some x => forEach (List.finRange 2) (fun (k : Fin 2) s =>
        match x.progs[k] with
        | none => s
        | some p => loadProgram k p s) r.2

/-! ### Step 8: settings -/

/-- R296: what a start makes of the recorder; LPDDR4X is lost at a wake start too. -/
def recAtStart (kind : Nat) (s : State) : State :=
  if kind = startWarm then finishLate s
  else
    let lost := lostRecords s
    forEach lost (fun n => logEvent 0x7008 9 n) (setRec (coldRecState s) s)

/-- The set in force takes effect, scan programs lie in TCM, EMBER's copies are taken, and link frames carry the resume
flag. -/
def settingsTake (kind : Nat) (s : State) : State :=
  let s := setF s Reg.SYS_STATUS F.SYS_STATUS_phase 4
  let s := applyRecords (settingsNow s).records s
  let s := setF s Reg.NET_STATUS F.NET_STATUS_mode (b2n (s.net.items.any (fun x => x == .prpMode true)))
  let s := thermalRestore (wr s Reg.DPX_EPOCH s.dpx.emberEpoch)
  let s := showStore (showCap (recAtStart kind (loadScan s)))
  { s with fio := { s.fio with resume := true } }

/-- R440 at the first start of a firmware: the set is migrated, or the firmware reverts and ready stays 0. -/
def firstFirmwareStart (s : State) : State :=
  if !s.upd.trialDue.testBit 2 then s
  else
    match runningFirmware s with
    | none => s
    | some f =>
      match unmigratable f (settingsNow s) with
      | none => migrateSettings f s
      | some ty =>
        let s := logEvent 0xC00B 0 (ty.setWidth 32) s
        let s := setUpd { s.upd with migrateFail := true, trialDue := putBit s.upd.trialDue 2 false } s
        revertKind 4 2 s

/-! ### Step 9: ready -/

/-- R437: the trials that a start has begun are logged. -/
def startTrials (s : State) : State :=
  if s.upd.trialDue = 0 then s
  else
    let due := s.upd.trialDue
    let s := setUpd { s.upd with trialDue := 0, trialFrom := some (localNs s) } s
    forEach (setBits due 4) (fun k s => logN 0xC006 (k + 1) (trialWindow s) s) s

/-- Does the running image, or the settings in force, set a register of a window? -/
def windowUsed (s : State) (w : Nat) : Bool :=
  let hits := fun (l : List (Nat × Word)) => l.any (fun p => p.1 / 0x10000 == w)
  (match s.fab.running with
   | none => false
   | some img => hits (img.pinWords ++ img.clockWords ++ img.seqWords ++ img.filtWords ++ img.stageWords)) ||
    (settingsNow s).records.any (fun r => hits r.regs)

/-- A block is OFF where nothing uses it, and RUN or IDLE as it has work. -/
def useState (used works : Bool) : Nat := if !used then 0 else if works then 3 else 2

/-- A cluster without a role is OFF; one whose clock is gated holds its state (R23). -/
def clusterState (s : State) (c : Nat) : Nat :=
  let placed := match s.fab.running with
    | none => false
    | some img => (placedRoles img).any (fun r => r.cluster.val == c)
  if !placed then 0 else if flg s (Reg.FAB_STATUS c) F.FAB_STATUS_clk_req then 3 else 1

/-- The state of a block of Table 3.3 while the control die runs: 0 OFF, 1 RETAIN, 2 IDLE, 3 RUN (R83, R84; log entry 89). A
block that runs holds the request for its clock, and one in RETAIN has released it. -/
def blockState (s : State) (n : Nat) : Nat :=
  let cores := List.range 4
  let netUsed := !s.net.items.isEmpty
  match n with
  | 4 => 3
  | 5 => useState (s.scan.cores[0]).prog.isSome (scanMode s 0 != scanStop)
  | 6 => useState (s.scan.cores[1]).prog.isSome (scanMode s 1 != scanStop)
  | 7 => useState (windowUsed s 0x4004) (cores.any (fun c => adcState s c != adcIdle))
  | 8 => useState (windowUsed s 0x4004) true
  | 9 => useState (windowUsed s 0x4005) ((List.range 24).any (fun n => chainState s n != chIdle))
  | 10 => useState (windowUsed s 0x4006 || windowUsed s 0x4014) (anyEnergised s)
  | 11 => 3
  | 12 => useState (netUsed || s.pwr.phase == .kindling) true
  | 13 => useState (dpxOn s) true
  | 14 => useState netUsed true
  | 15 => 3
  | c => clusterState s c

/-- PWR_BLOCK_STATE as it reads. -/
def blockWord (s : State) : Word :=
  if dieRuns s then BitVec.ofNat 32 ((List.range 16).foldl (fun v n => v + blockState s n * 4 ^ n) 0) else 0

/-- SYS_STATUS.ready sets, and FAULT_N is released. -/
def becomeReady (s : State) : State :=
  let s := setF (setF s Reg.SYS_STATUS F.SYS_STATUS_ready 1) Reg.SYS_STATUS F.SYS_STATUS_phase 5
  let s := showUpd (setUpd { s.upd with failedBoots := 0 } s)
  let s := logN 0x1304 (fld s Reg.SYS_STATUS F.SYS_STATUS_start_kind) ((localNs s - s.pwr.t0) / 1000000) s
  let s := setPwr { s.pwr with faultLow := false, fatal := false, startedAt := localNs s } s
  startTrials (dpxAtReady s)

/-- Steps 8 and 9. A firmware that cannot migrate the settings stops here, and its revert goes on (SUPERVISOR_RESTART). -/
def finishStart (kind : Nat) (s : State) : State :=
  let s := firstFirmwareStart (startMs (if kind = startWarm then 100 else 170) s)
  if s.upd.migrateFail then s
  else becomeReady (startMs (if kind = startWarm then 120 else 250) (settingsTake kind s))

/-- R100: the ROM starts PLL_C, PLL_N and PLL_M at fixed settings, and they lock. -/
def romPlls (s : State) : State :=
  setF s Reg.CLK_STATUS F.CLK_STATUS_locked (fld s Reg.CLK_STATUS F.CLK_STATUS_locked ||| 0b11100)

/-- Steps 3 to 9, from the boot stage on. -/
def bootStage (kind : Nat) (sl : Option (Fin 2)) (cal : Vector CalSet 4) (s : State) : State :=
  let s := countBoot (startMs (if kind = startWarm then 12 else 15) s)
  if bootFails s then fatalReset s
  else
    let kept : Bool := kind == startWarm && kindState s 2 == .normal
    let s := setF s Reg.SYS_STATUS F.SYS_STATUS_phase 1
    let s := forEach [(0 : Fin 4), 1, 2] applyJournal s
    let r := if kind = startWarm then firmwareStage kind kept s else pitchStage kind sl cal s
    if !r.1 then fatalReset r.2
    else
      let r := if kind = startWarm then pitchStage kind sl cal r.2 else firmwareStage kind kept r.2
      if !r.1 then fatalReset r.2 else finishStart kind r.2

/-- A start from step 1. -/
def startPart (kind : Nat) (sl : Option (Fin 2)) (p : StartPins) (cal : Vector CalSet 4) (s : State) : State :=
  let s := startMs (if kind = startWarm then 8 else 11) (leaveReset kind p s)
  if !p.selfTestOk ∨ !stakeOk s then becomeUnusable s
  else
    let s := romPlls s
    match kindlingCause s with
    | some src => enterKindling src s
    | none => bootStage kind sl cal s

/-- COLD_START. A unit in RELEASED requests the reset itself (R370); an unusable unit that is supplied again drives FAULT_N
low and does no more (R445). -/
def execColdStart (p : StartPins) (cal : Vector CalSet 4) (s : State) : Out :=
  if s.pwr.phase = .held ∧ !s.pwr.askWarm then .next (startPart startCold none p cal s)
  else if s.pwr.phase = .running ∧ dpxState s = dpxReleased then
    .next (startPart startCold none p cal
      (resetPart (some 3) false (setUpd { s.upd with failedBoots := 0 } s)))
  else if s.pwr.phase = .unusable then .next (setPwr { s.pwr with faultLow := true } s)
  else .next s

/-- The slot and build_id of the structure that the active pitch slot holds. -/
def activePitch (s : State) : Option SleepSeal :=
  (s.upd.pitch[(s.upd.journal[0]).active]).map (fun p => ⟨(s.upd.journal[0]).active, (structureOf p).buildId⟩)

/-- R88: the condition of a warm start that fails. -/
def warmFault (refreshOk hashOk : Bool) (s : State) : Option Nat :=
  if !refreshOk then some 1
  else if !hashOk then some 2
  else if kindState s 0 ≠ .normal ∨ s.pwr.loaded.isNone ∨ s.pwr.loaded ≠ activePitch s then some 3
  else none

/-- WARM_START. -/
def execWarmStart (p : StartPins) (refreshOk hashOk : Bool) (cal : Vector CalSet 4) (s : State) : Out :=
  if s.pwr.phase = .held ∧ s.pwr.askWarm then
    match warmFault refreshOk hashOk s with
    | none => .next (startPart startWarm none p cal s)
    | some why => .next (startPart startCold none p cal (logN 0x1308 why 0 (setCause 7 s)))
  else .next s

/-- The wake sources that take effect: those enabled, and RESET_N always (R95). -/
def wakeEnabled (sources : BitVec 8) (s : State) : Nat :=
  sources.toNat &&& (fld s Reg.PWR_WAKE F.PWR_WAKE_en ||| 128)

/-- The RTC alarm is recognised once PWR_RTC has reached the alarm time: LANTERN counts on to it (R95). -/
def reachAlarm (s : State) : State :=
  let short := (rd64 s Reg.PWR_RTC_ALARM).toNat - (rtcNow s).toNat
  if short = 0 then s else reachLocal (localNs s + short + 30518) s

/-- WAKE: the sources that are enabled are latched, and the start follows (R95, R96); one during SLEEP entry is latched (R94). -/
def execWake (sources : BitVec 8) (p : StartPins) (cal : Vector CalSet 4) (s : State) : Out :=
  let eff := wakeEnabled sources s
  if s.pwr.phase = .asleep ∧ eff ≠ 0 then
    let s := if eff.testBit 6 then reachAlarm s else s
    let sl := s.pwr.sleepSeal
    let whole := sl.isSome && sl == activePitch s && kindState s 0 == .normal
    let s := setF s Reg.PWR_WAKE F.PWR_WAKE_cause (fld s Reg.PWR_WAKE F.PWR_WAKE_cause ||| eff)
    let s := logN 0x1307 (fld s Reg.PWR_WAKE F.PWR_WAKE_cause) 0 (setCause 6 s)
    .next (startPart (if whole then startWake else startCold) (if whole then sl.map (·.slot) else none) p cal s)
  else if s.pwr.sleepFrom.isSome then
    .next (setF s Reg.PWR_WAKE F.PWR_WAKE_cause (fld s Reg.PWR_WAKE F.PWR_WAKE_cause ||| eff))
  else .next s

/-! ### SLEEP (R93, R94) -/

/-- R93: is SLEEP refused? -/
def sleepRefused (s : State) : Bool :=
  !ready s || gdenActive s || anyEnergised s || (List.range 4).any (fun n => tripOn s n) ||
    recState s == recCapturing || recState s == recClosing || !s.recd.awaiting.isEmpty ||
    !(openOfKind s opDownload ++ openOfKind s opVerify ++ openOfKind s opActivate).isEmpty

/-- Steps 1 to 3 of SLEEP entry, `t` being its acceptance: cores, recorder, field die, sensor supplies. -/
def quietPart (t : Nat) (s : State) : State :=
  let s := commitBoth (reachLocal (t + 10000000) s)
  let s := recDisarmed (reachLocal (t + 20000000) s)
  let s := setRec { s.recd with rows := [], changes := [] } s
  railsOff (sleepField (reachLocal (t + 25000000) s))

/-- SLEEP entry goes on once the last cycle of the scan cores has ended. -/
def continueSleep (s : State) : State :=
  match s.pwr.sleepFrom with
  | none => s
  | some t =>
    if (s.scan.cores).toList.any anyBusy then s
    else
      let s := reachLocal (t + 30000000) (quietPart t s)
      let s := setF (wr64 s Reg.PWR_RTC (now s)) Reg.PWR_STATUS F.PWR_STATUS_rtc_valid 1
      let s := setPwr { s.pwr with rtcAt := localNs s, sleepSeal := activePitch s } s
      let s := logN 0x1306 0 (fld s Reg.PWR_WAKE F.PWR_WAKE_en) s
      let s := hold false (driveOwner false (reachLocal (t + 35000000) s))
      setPwr { s.pwr with phase := .asleep } s

/-- SLEEP entry: ready clears, FAULT_N is low, and the scan cores stop at a cycle boundary. -/
def sleepEntry (s : State) : State :=
  let t := localNs s
  let s := setF (setF s Reg.SYS_STATUS F.SYS_STATUS_ready 0) Reg.SYS_STATUS F.SYS_STATUS_phase 6
  let s := driveOwner s.loop.owner (setPwr { s.pwr with faultLow := true, sleepFrom := some t } s)
  continueSleep (forEach (List.finRange 2) stopRequest s)

/-- CYCLE_COMPLETE (R309, R316); a SLEEP entry that waited for the cycle goes on. -/
def execCycleComplete (k : Fin 2) (t : Fin 8) (at' : BitVec 64) (w : CycleResult) (s : State) : Out :=
  .next (continueSleep (settleTrial (completeCycle k t at' w s)))

/-- SCAN_TRAP (R323): a cycle traps its core; a SLEEP entry that waited for it goes on. -/
def execScanTrap (k : Fin 2) (t : Fin 8) (cause : Fin 5) (s : State) : Out :=
  .next (continueSleep (scanTrap k t cause s))

/-! ### Supervisor restart (R435, R440) -/

/-- SUPERVISOR_RESTART; where a start waited for the revert of a firmware that could not migrate its settings, the start then
goes on to ready. -/
def execSupervisorRestart (s : State) : Out :=
  let was := s.upd.migrateFail && s.upd.restartAt.isSome
  let s := supervisorRestart s
  if was ∧ s.pwr.phase = .running then
    let s := setUpd { s.upd with migrateFail := false } s
    .next (becomeReady (settingsTake (fld s Reg.SYS_STATUS F.SYS_STATUS_start_kind) s))
  else .next s

end Sys2Proof.Machine
end

