-- ==== Sys2Proof/Machine/Frame.lean ====
section
/-! DEFINITION. Fabric-frame boundaries, publication instants and the retained commit (R36, R39, R40, R66, R324, and what
the ACTIVE of a duplex sends each frame, R362). -/

namespace Sys2Proof.Machine

open Sys2Proof

/-! ### What the ACTIVE sends each frame (Table 13.2) -/

/-- The grid-forming state of a stage as MIRROR_GFM carries it. -/
def gfmMirrorOf (s : State) (g : Fin 2) : GfmMirror :=
  let x := s.gfm.stages[g]
  { state := Fin.ofNat 11 (gState s g), attempt := Fin.ofNat 16 (attemptOf s g), dw := x.dw, theta := x.theta
    wRes := x.wRes, pf := x.pf, qf := x.qf, phi := x.phi, timeMode := Fin.ofNat 3 (timeMode s g)
    contactor := contClosed s g, age := localNs s - x.stateAt, cmdAge := localNs s - x.cmdAt
    slot := match x.slot with | some t => t.1 | none => 0
    backoff := match x.slot with | some t => t.2 | none => x.backoff
    dead := x.deadMs, live := x.liveMs, notLive := x.notLiveMs, window := x.winMs }

/-- MIRROR_GFM of the ACTIVE, and TIMING of both units, once a frame. -/
def sendFrame (s : State) : State :=
  let s := whenS (dpxOn s && holdsActive s) (fun s =>
    sendGuy 3 (.mirrorGfm #v[gfmMirrorOf s 0, gfmMirrorOf s 1]) s) s
  whenS (dpxState s != dpxOff) (sendGuy 5 .timing) s

/-! ### The boundary -/

/-- The swap point of a change whose mirror frame is open; after a full image the chains follow their inputs. -/
def swapAtBoundary (s : State) : State :=
  match s.fab.change with
  | none => s
  | some ch =>
    if ch.phase = .mirror then (if ch.image.full then chainsAfterImage s (structureSwaps s) else structureSwaps s) else s

/-- Structure at a boundary, in the order of R36: compare frames end, relocations, the swap point, then the mirror frame of a
change whose contexts are written, the sessions of the shadow check with the outcomes `o`, and the clock requests. -/
def structureAtBoundary (o : Fin 4 → ShadowOutcome) (s : State) : State :=
  let s := forEach (List.finRange 4) applyRelocation (forEach (List.finRange 4) closeCompare s)
  let s := mirrorOpens (swapAtBoundary s)
  forEach (List.finRange 4) clockRequest
    (forEach (List.finRange 4) (fun (c : Fin 4) s => sessionsAtBoundary c (o c) s) s)

/-- New modulator clocks and chain settings take effect (R105, R168). -/
def clocksAtBoundary (s : State) : State :=
  let ms := nowNat s / 1000000
  let r := applyMclk s
  chainsAtBoundary ms r.2 r.1

/-- The next fabric-frame boundary. -/
def frameBoundary (o : Fin 4 → ShadowOutcome) (s : State) : State :=
  let s := reachBoundary s
  let s := wr64 s Reg.FAB_FRAME_COUNT (rd64 s Reg.FAB_FRAME_COUNT + 1)
  let s := countsAtBoundary (clocksAtBoundary (structureAtBoundary o s))
  sendFrame (settingsAtBoundary (forwardedSettings s))

/-- FRAME_BOUNDARY. -/
def execFrameBoundary (o0 o1 o2 o3 : ShadowOutcome) (s : State) : Out :=
  .next (frameBoundary (fun (c : Fin 4) => (#v[o0, o1, o2, o3])[c]) s)

/-- A boundary at which no session of check_now starts with an outcome of its own. -/
def plainBoundary (s : State) : State := frameBoundary (fun _ => {}) s

/-- MIRROR_FRAME_OPEN: the boundary, where one at the next whole millisecond opens the mirror frame. -/
def execMirrorFrameOpen (s : State) : Out :=
  if mirrorDue (reachBoundary s) then .next (plainBoundary s) else .next s

/-- GROUP_SWAPPED: the boundary, where the mirror frame is open. -/
def execGroupSwapped (s : State) : Out :=
  match s.fab.change with
  | none => .next s
  | some ch => if ch.phase = .mirror then .next (plainBoundary s) else .next s

/-- TILE_RETIRED: the boundary, where a relocation of the cluster is due (R71). -/
def execTileRetired (c : Fin 4) (s : State) : Out :=
  if (s.fab.clusters[c]).relocate.isSome then .next (plainBoundary s) else .next s

/-- Boundaries pass, at most `fuel`, until a chain has restarted. -/
def untilRestart (n : Fin 24) : Nat → State → State
  | 0, s => s
  | fuel + 1, s => if (s.filt.chains[n]).restart.isNone then s else untilRestart n fuel (plainBoundary s)

/-- FILT_RESTARTED: the boundary at which the chain's pending restart takes effect (R168, R169). -/
def execFiltRestarted (n : Fin 24) (s : State) : Out := .next (untilRestart n 1024 s)

/-! ### Publication and the retained commit -/

/-- Does a bit routed to a stage as a start (`start`) or stop request read 1 in the output images taken? -/
def routedBit (s : State) (g : Fin 2) (start : Bool) : Bool :=
  match s.fab.running with
  | none => false
  | some img => img.stageRequests.any (fun r => r.1 == g && r.2.1 == start && imageBit s r.2.2.1 r.2.2.2)

/-- The bits routed to a grid-forming stage: a rising edge of each is a request, the stop before the start (R236, R239). -/
def routedRequests (g : Fin 2) (s : State) : State :=
  let x := s.gfm.stages[g]
  let start := routedBit s g true
  let stop := routedBit s g false
  let s := { s with gfm := { s.gfm with stages := s.gfm.stages.set g { x with reqStart := start, reqStop := stop } } }
  let s := whenS (isGfm s (gst g) && stop && !x.reqStop) (gfmStopRequest g) s
  whenS (isGfm s (gst g) && start && !x.reqStart && !(stop && !x.reqStop)) (gfmStartRequest g) s

/-- INPUT_IMAGE_PUBLICATION. -/
def execInputImagePublication (x y : List (Word × BitVec 64)) (s : State) : Out :=
  .next (requestEdge (forEach (List.finRange 2) routedRequests (publication #v[x, y] s)))

/-- The next commit instant of the retained data, in units of 10 ms. -/
def nextCommit (s : State) : Nat :=
  let here := (nowNat s + 9999999) / 10000000
  match s.scan.lastCommit with | none => here | some l => max here (l + 1)

/-- RETAIN_COMMIT (R324): every 10 ms both queues are committed, and the ACTIVE sends RETAIN. -/
def execRetainCommit (s : State) : Out :=
  let n := nextCommit s
  let s := reachNs s (BitVec.ofNat 64 (n * 10000000))
  let s := commitBoth { s with scan := { s.scan with lastCommit := some n } }
  .next (whenS (dpxOn s && holdsActive s) (fun s => sendGuy 4 (retainPayload s) s) s)

end Sys2Proof.Machine
end

