-- ==== Sys2Proof/Machine/Bus.lean ====
section
/-! DEFINITION. The bus: what each master reaches, reads and writes of the address map, the snapshot buffers, and the
commands that are register writes (R10 to R12, R42 to R52, R368). -/

namespace Sys2Proof.Machine

open Sys2Proof

/-! ### Regions (Tables 1.7 and 1.8) -/

/-- A region of Table 1.8. -/
inductive Region where
  | rom
  | mram
  | bank (k : Fin 2) (data : Bool) (b : Fin 2)
  | exchange (k : Fin 2)
  | aliasCode
  | aliasData
  | registers
  | lpddr
  deriving DecidableEq, Repr

/-- The region of an address, if any. -/
def busRegion (a : Nat) : Option Region :=
  if a < 0x20000 then some .rom
  else if 0x10000000 ≤ a ∧ a < 0x10800000 then some .mram
  else if 0x20000000 ≤ a ∧ a < 0x20100000 then
    some (.bank (Fin.ofNat 2 ((a - 0x20000000) / 0x80000)) ((a / 0x40000) % 2 == 1) (Fin.ofNat 2 (a / 0x20000)))
  else if 0x20100000 ≤ a ∧ a < 0x20110000 then some (.exchange (Fin.ofNat 2 (a / 0x8000)))
  else if 0x20200000 ≤ a ∧ a < 0x20220000 then some .aliasCode
  else if 0x20240000 ≤ a ∧ a < 0x20260000 then some .aliasData
  else if 0x40000000 ≤ a ∧ a < 0x40150000 then some .registers
  else if 0x80000000 ≤ a ∧ a < 0x100000000 then some .lpddr
  else none

/-- The bank that SCAN marks live for a core (R46). -/
def liveBank (s : State) (k : Fin 2) (data : Bool) : Nat :=
  fld s (Reg.SCAN_STATE k) (if data then F.SCAN_STATE_data_live else F.SCAN_STATE_code_live)

/-- Does a scan core reach a region of its own? -/
def scanReaches (k : Fin 2) (write : Bool) (a : Nat) (r : Region) : Bool :=
  match r with
  | .bank j _ _ => j == k
  | .exchange j => j == k
  | .aliasCode => true
  | .aliasData => true
  | .registers => a / 0x10000 == 0x400A || (a / 0x10000 == 0x4003 && !write)
  | _ => false

/-- R46: is a write to a physical bank refused? -/
def liveRefused (s : State) (m : Fin 8) (r : Region) : Bool :=
  match r with
  | .bank k data b => b.val == liveBank s k data && m.val != 4 + k.val && scanMode s k != scanStop
  | _ => false

/-- Does a master reach an address (R42, R43, R46)? -/
def reaches (s : State) (m : Fin 8) (write : Bool) (a : Nat) : Bool :=
  match busRegion a with
  | none => false
  | some r =>
    let noAlias := r != .aliasCode && r != .aliasData
    let ok := match m with
      | 4 => scanReaches 0 write a r
      | 5 => scanReaches 1 write a r
      | 6 => r == .registers
      | 7 => lifecycle s != 1 && noAlias
      | _ => noAlias
    ok && !(write && liveRefused s m r)

/-- The physical address behind a live alias, for the core that uses it. -/
def physical (s : State) (m : Fin 8) (a : Nat) : Nat :=
  let k : Fin 2 := if m = 5 then 1 else 0
  match busRegion a with
  | some .aliasCode => 0x20000000 + k * 0x80000 + liveBank s k false * 0x20000 + a % 0x20000
  | some .aliasData => 0x20040000 + k * 0x80000 + liveBank s k true * 0x20000 + a % 0x20000
  | _ => a

/-- What an access answers. -/
def reply (r : BusReply) (s : State) : State := { s with busReply := r }

/-- R43: a denied access. -/
def denied (m : Fin 8) (a : Nat) (s : State) : State := reply .error (logN 0x1101 m a s)

/-- Is an address in the windows of the command mailbox? -/
def inMailbox (a : Nat) : Bool := cmdReq ≤ a && a < cmdRsp + 0x4000

/-! ### Reads -/

/-- The live value of a 64-bit register at its low word. -/
def liveWide (s : State) (a : Nat) : BitVec 64 :=
  if a = Reg.TIME_NOW then now s
  else if a = Reg.PWR_RTC then rtcNow s
  else if a = Reg.CMD_EVT_COUNT then s.log.next
  else rd64 s a

/-- Microseconds since the last valid heartbeat, saturating (DPX_PARTNER.age). -/
def partnerAge (s : State) : Nat :=
  match s.dpx.hbAt with
  | none => 0xFFFF
  | some t => min 0xFFFF ((localNs s - t) / 1000)

/-- The live value of a 32-bit register, as a master reads it. -/
def liveWord (m : Fin 8) (s : State) (a : Nat) : Word :=
  if a = Reg.SYS_MASTER_ID then BitVec.ofNat 32 m
  else if a = Reg.DPX_PARTNER then putF (rd s a) F.DPX_PARTNER_age (partnerAge s)
  else if a = Reg.UPD_TRIAL_LEFT then BitVec.ofNat 32 (trialLeft s)
  else if a = Reg.PWR_BLOCK_STATE then blockWord s
  else if a / 0x10000 = 0x400B then
    (if s.fio.seen.isSome then fioWord s a else if a = Reg.FIO_DEMAG 0 then demagWord s 0
     else if a = Reg.FIO_DEMAG 1 then demagWord s 1 else rd s a)
  else if a = Reg.PWR_SENSOR then
    putF (rd s a) F.PWR_SENSOR_good (b2n (railGood s 0) + 2 * b2n (railGood s 1))
  else rd s a

/-- Set a master's bit in SYS_SNAP_MISS. -/
def setMiss (f : Fld) (m : Fin 8) (s : State) : State := setFbit s Reg.SYS_SNAP_MISS f m true

/-- Change a master's snapshot buffer. -/
def setSnap (m : Fin 8) (x : Snap) (s : State) : State := { s with snap := s.snap.set m x }

/-- R49: a low-word read. -/
def readLow (m : Fin 8) (a : Nat) (s : State) : Word × State :=
  let v := liveWide s a
  (v.extractLsb' 0 32, setSnap m (.read a v) s)

/-- R50: a high-word read of the register whose low word is at `a`. -/
def readHigh (m : Fin 8) (a : Nat) (s : State) : Word × State :=
  match s.snap[m] with
  | .read b v =>
    if b = a then (v.extractLsb' 32 32, setSnap m .empty s)
    else ((liveWide s a).extractLsb' 32 32, setMiss F.SYS_SNAP_MISS_snap_miss m s)
  | _ => ((liveWide s a).extractLsb' 32 32, setMiss F.SYS_SNAP_MISS_snap_miss m s)

/-- A read of an aligned word of register space. -/
def regRead (m : Fin 8) (a : Nat) (s : State) : Word × State :=
  if inMailbox a then (memWord s a, s)
  else
    let a := canonReg a
    match findReg a with
    | none => (0, s)
    | some r =>
      if r.wide then (if r.isHigh a then readHigh m (a - 4) s else readLow m a s)
      else (liveWord m s a, s)

/-- Does an address lie in the fabric repair record (Table 16.2)? -/
def inRepair (a : Nat) : Bool := 0x10580000 ≤ a && a < 0x10581000

/-- A byte of memory, of ROM, or of the fabric repair record, which MRAM shows at its address in a form that no rule gives
(R73, log entry 80). -/
def byteAt (s : State) (a : Nat) : Byte :=
  if a < 0x20000 then Config.romByte a
  else if inRepair a then Config.repairByte (s.fab.repair.map (fun p => p.1.val * 32 + p.2.val)) (a - 0x10580000)
  else memByte s a

/-- The four bytes from an address, little-endian (R45). -/
def wordAt (s : State) (a : Nat) : Word := byteAt s (a + 3) ++ byteAt s (a + 2) ++ byteAt s (a + 1) ++ byteAt s a

/-- Bytes of an access. -/
def accBytes : AccWidth → Nat
  | .byte => 1
  | .half => 2
  | .word => 4
  | .dword => 8

/-- What a read of memory answers, by the width of the access. -/
def memReply (s : State) (w : AccWidth) (a : Nat) : BusReply :=
  match w with
  | .byte => .data (wordAt s a &&& 0xFF)
  | .half => .data (wordAt s a &&& 0xFFFF)
  | .word => .data (wordAt s a)
  | .dword => .wide (wordAt s (a + 4) ++ wordAt s a)

/-- A read of register space: of an aligned word (R10). One that the SPI host clocks before t_RAD has passed answers 0 in
place of the word and has no side effect (R460). -/
def regReadBus (m : Fin 8) (w : AccWidth) (a : Nat) (early : Bool) (s : State) : State :=
  if w ≠ AccWidth.word ∨ a % 4 ≠ 0 then reply .error s
  else if early && m == 6 then reply (.data 0) s
  else let r := regRead m a s; reply (.data r.1) r.2

/-- A read on the bus: what it answers. A part that is not out of reset serves no access (R408). -/
def busRead (m : Fin 8) (w : AccWidth) (a : Nat) (early : Bool) (s : State) : State :=
  if !dieRuns s then reply .error s
  else if !(reaches s m false a && reaches s m false (a + accBytes w - 1)) then denied m a s
  else if busRegion a = some .registers then regReadBus m w a early s
  else reply (memReply s w (physical s m a)) s

/-! ### Writes -/

/-- A write of DPX_CMD: a cancel with a request withdraws it. -/
def writeDpxCmd (v : Word) (s : State) : State :=
  let s := whenS (getF v F.DPX_CMD_switch == 1) (fun s => (switchRequest none s).2) s
  whenS (getF v F.DPX_CMD_cancel == 1) (fun s => (switchCancelRequest s).2) s

/-- Writes of CMD: only master 6 rings the doorbell (R409). -/
def writeCmd (m : Fin 8) (r : RegSpec) (a : Nat) (v : Word) (s : State) : State :=
  if a = Reg.CMD_DOORBELL then (if m = 6 then doorbell (getF v F.CMD_DOORBELL_length) s else s)
  else if a = Reg.CMD_CTRL then writeCmdCtrl v s
  else if a = Reg.CMD_EVT_SEL then writeEvtSel v s
  else plainWrite r a v s

/-- Writes of UPD: a trial window from 60 to 7,200. -/
def writeUpd (r : RegSpec) (a : Nat) (v : Word) (s : State) : State :=
  if a = Reg.UPD_TRIAL_CFG then
    (if inRange 60 (getF v F.UPD_TRIAL_CFG_window) 7200 then plainWrite r a v s else s)
  else plainWrite r a v s

/-- A write of a 32-bit register. -/
def write32Reg (m : Fin 8) (r : RegSpec) (a : Nat) (v : Word) (s : State) : State :=
  match a / 0x10000 with
  | 0x4000 => if a = Reg.SYS_RESET_CTRL then writeResetCtrl v s else plainWrite r a v s
  | 0x4001 => if a = Reg.PWR_SENSOR then writeSensor v s else plainWrite r a v s
  | 0x400C =>
    if a = Reg.DPX_CFG then writeDpxCfg v s
    else if a = Reg.DPX_CMD then writeDpxCmd v s
    else plainWrite r a v s
  | 0x400E => writeCmd m r a v s
  | 0x400F => writeUpd r a v s
  | n => if 0x4010 ≤ n ∧ n ≤ 0x4013 then writeFab r a v s else writeBlockReg r a v s

/-- A 64-bit register takes a value in one cycle (R51). -/
def commitWide (r : RegSpec) (a : Nat) (v : BitVec 64) (s : State) : State :=
  let v := v &&& BitVec.ofNat 64 r.rw
  if r.base = Reg.TIME_TRIG_TARGET 0 then writeTrigTarget (Fin.ofNat 8 ((a - r.base) / 16)) v s
  else if a = Reg.PWR_RTC then setPwr { s.pwr with rtcAt := localNs s } (wr64 s a v)
  else if r.base = Reg.NET_FI_START 0 ∧ fiLocked s ((a - r.base) / 0x20) then netErr s
  else wr64 s a v

/-- R51: a low-word write is held where the high half is RW, and ignored where it is RO. -/
def writeLow (m : Fin 8) (r : RegSpec) (a : Nat) (v : Word) (s : State) : State :=
  if r.hiRW then setSnap m (.held a v) s else s

/-- A high-word write with nothing held for the register: the high half alone. -/
def writeHighAlone (m : Fin 8) (r : RegSpec) (a : Nat) (v : Word) (s : State) : State :=
  setMiss F.SYS_SNAP_MISS_stage_miss m (commitWide r a (v ++ (liveWide s a).extractLsb' 0 32) s)

/-- R51: a high-word write of the register whose low word is at `a`. -/
def writeHigh (m : Fin 8) (r : RegSpec) (a : Nat) (v : Word) (s : State) : State :=
  if r.hiRW then
    match s.snap[m] with
    | .held b lo => if b = a then commitWide r a (v ++ lo) (setSnap m .empty s) else writeHighAlone m r a v s
    | _ => writeHighAlone m r a v s
  else s

/-- A write of the mailbox windows: CMD_REQ by master 6 while no request is in progress; CMD_RSP is read-only (R409). -/
def mailWrite (m : Fin 8) (a : Nat) (v : Word) (s : State) : State :=
  if m = 6 ∧ a < cmdRsp ∧ !flg s Reg.CMD_STATUS F.CMD_STATUS_req_busy then memPutBytes 4 s a v else s

/-- A write of an aligned word of register space; an offset without a register ignores it (R44). -/
def regWrite (m : Fin 8) (a : Nat) (v : Word) (s : State) : State :=
  if inMailbox a then mailWrite m a v s
  else
    let a := canonReg a
    match findReg a with
    | none => s
    | some r =>
      if r.wide then (if r.isHigh a then writeHigh m r (a - 4) v s else writeLow m r a v s)
      else write32Reg m r a v s

/-- A write of memory; ROM takes none. -/
def memWrite (n a : Nat) (v : Word) (s : State) : State := if a < 0x20000 then s else memPutBytes n s a v

/-- A write on the bus (R10, R43, R44); `hi` is the high word of a double word. A part that is not out of reset serves no
access (R408). -/
def busWrite (m : Fin 8) (w : AccWidth) (a : Nat) (v hi : Word) (s : State) : State :=
  if !dieRuns s then reply .error s
  else if !(reaches s m true a && reaches s m true (a + accBytes w - 1)) then denied m a s
  else if busRegion a = some .registers then
    if w ≠ AccWidth.word ∨ a % 4 ≠ 0 then reply .error s else regWrite m a v (reply .done s)
  else if w = AccWidth.dword then
    memWrite 4 (physical s m a + 4) hi (memWrite 4 (physical s m a) v (reply .done s))
  else memWrite (accBytes w) (physical s m a) v (reply .done s)

/-- A register write of one aligned word. -/
def regCommand (m : Fin 8) (a : Nat) (v : Word) (s : State) : State := busWrite m .word a v 0 s

/-- A written word with a bit set, and with a bit clear. -/
def withBit (v : Word) (i : Nat) : Word := v ||| (1#32 <<< i)

/-! ### The commands -/

/-- The write-one-to-clear bits at an address of register space. -/
def clearBits (a : Nat) : Word :=
  match findReg (canonReg a) with
  | some r => r.half (canonReg a) r.w1c
  | none => 0

/-- R13: the ones of a word written to a register that clear bits which hardware sets in the same cycle have no effect. -/
def sameCycle (a : Nat) (v same : Word) : Word :=
  if busRegion a = some .registers then v &&& ~~~(same &&& clearBits a) else v

/-- REGISTER_WRITE (R11, R13). -/
def execRegisterWrite (m : Fin 8) (w : AccWidth) (a : BitVec 32) (x : BusWord) (s : State) : Out :=
  .next (busWrite m w a.toNat (sameCycle a.toNat x.v x.same) x.same s)

/-- SNAPSHOT_READ (R49). -/
def execSnapshotRead (m : Fin 8) (x : BusRead) (s : State) : Out := .next (busRead m x.w x.a.toNat x.early s)

/-- HIGH_WORD_READ (R50). -/
def execHighWordRead (m : Fin 8) (x : BusRead) (s : State) : Out := .next (busRead m x.w x.a.toNat x.early s)

/-- LOW_WORD_WRITE (R51). -/
def execLowWordWrite (m : Fin 8) (a : BitVec 32) (v : Word) (s : State) : Out := .next (regCommand m a.toNat v s)

/-- HIGH_WORD_WRITE (R51). -/
def execHighWordWrite (m : Fin 8) (a : BitVec 32) (v : Word) (s : State) : Out := .next (regCommand m a.toNat v s)

/-- FAB_IND_GO (R47, R77). -/
def execFabIndGo (m : Fin 8) (c : Fin 4) (v : Word) (s : State) : Out :=
  .next (regCommand m (Reg.FAB_IND_CTRL c) (putF v F.FAB_IND_CTRL_go 1) s)

/-- CHECK_NOW (R74). -/
def execCheckNow (m : Fin 8) (c : Fin 4) (v : Word) (s : State) : Out :=
  .next (regCommand m (Reg.FAB_SHADOW_CTRL c) (putF v F.FAB_SHADOW_CTRL_check_now 1) s)

/-- SYS_RESET_CTRL_GO (Table 3.4). -/
def execSysResetCtrlGo (m : Fin 8) (v : Word) (s : State) : Out :=
  .next (regCommand m Reg.SYS_RESET_CTRL (putF v F.SYS_RESET_CTRL_go 1) s)

/-- TIME_STEP_GO (R126). -/
def execTimeStepGo (m : Fin 8) (v : Word) (s : State) : Out :=
  .next (regCommand m Reg.TIME_STEP (putF v F.TIME_STEP_go 1) s)

/-- TRIG_ARM (R128). -/
def execTrigArm (m : Fin 8) (n : Fin 8) (v : Word) (s : State) : Out :=
  .next (regCommand m (Reg.TIME_TRIG_CFG n) (putF v F.TIME_TRIG_CFG_arm 1) s)

/-- TRIG_DISARM (R128). -/
def execTrigDisarm (m : Fin 8) (n : Fin 8) (v : Word) (s : State) : Out :=
  .next (regCommand m (Reg.TIME_TRIG_CFG n) (putF v F.TIME_TRIG_CFG_disarm 1) s)

/-- ADC_RUN (R146). -/
def execAdcRun (m : Fin 8) (c : Fin 4) (v : Word) (s : State) : Out :=
  .next (regCommand m (Reg.ADC_CTRL c) (putF v F.ADC_CTRL_run 1) s)

/-- ADC_STOP (R146). -/
def execAdcStop (m : Fin 8) (c : Fin 4) (v : Word) (s : State) : Out :=
  .next (regCommand m (Reg.ADC_CTRL c) (putF v F.ADC_CTRL_stop 1) s)

/-- ADC_CAL (R146, R148). -/
def execAdcCal (m : Fin 8) (c : Fin 4) (v : Word) (s : State) : Out :=
  .next (regCommand m (Reg.ADC_CTRL c) (putF v F.ADC_CTRL_cal 1) s)

/-- ADC_COMMIT (R142). -/
def execAdcCommit (m : Fin 8) (c : Fin 4) (v : Word) (s : State) : Out :=
  .next (regCommand m (Reg.ADC_CTRL c) (putF v F.ADC_CTRL_commit 1) s)

/-- FILT_CFG_WRITE (R168 to R171). -/
def execFiltCfgWrite (m : Fin 8) (n : Fin 24) (v : Word) (s : State) : Out :=
  .next (regCommand m (Reg.FILT_CH_CFG n) v s)

/-- STAGE_START (R206). -/
def execStageStart (m : Fin 8) (st : Fin 4) (v : Word) (s : State) : Out :=
  .next (regCommand m (Reg.CTRL_STAGE_CMD st) (putF v F.CTRL_STAGE_CMD_start 1) s)

/-- STAGE_STOP (R206). -/
def execStageStop (m : Fin 8) (st : Fin 4) (v : Word) (s : State) : Out :=
  .next (regCommand m (Reg.CTRL_STAGE_CMD st) (putF v F.CTRL_STAGE_CMD_stop 1) s)

/-- INNER_CHANGE (R207): only the inner field is written. -/
def execInnerChange (m : Fin 8) (st : Fin 4) (hyst : Bool) (s : State) : Out :=
  .next (regCommand m (Reg.CTRL_STAGE_CMD st) (putF 0 F.CTRL_STAGE_CMD_inner (b2n hyst)) s)

/-- PWM_BLOCK_WRITE (R211): gden_en is written as it reads. -/
def execPwmBlockWrite (m : Fin 8) (mask : BitVec 4) (s : State) : Out :=
  .next (regCommand m Reg.PWM_GATE_CTRL (putF (rd s Reg.PWM_GATE_CTRL) F.PWM_GATE_CTRL_block mask.toNat) s)

/-- GATE_RELEASE_WRITE (R212): gden_en is written as it reads. -/
def execGateReleaseWrite (m : Fin 8) (mask : BitVec 4) (s : State) : Out :=
  .next (regCommand m Reg.PWM_GATE_CTRL (putF (rd s Reg.PWM_GATE_CTRL) F.PWM_GATE_CTRL_release mask.toNat) s)

/-- GFM_START (R236). -/
def execGfmStart (m : Fin 8) (g : Fin 2) (v : Word) (s : State) : Out :=
  .next (regCommand m (Reg.GFM_CMD (2 * g)) (putF v F.GFM_CMD_start 1) s)

/-- GFM_STOP (R236). -/
def execGfmStop (m : Fin 8) (g : Fin 2) (v : Word) (s : State) : Out :=
  .next (regCommand m (Reg.GFM_CMD (2 * g)) (putF v F.GFM_CMD_stop 1) s)

/-- GFM_ACK (R238 row 30). -/
def execGfmAck (m : Fin 8) (g : Fin 2) (v : Word) (s : State) : Out :=
  .next (regCommand m (Reg.GFM_CMD (2 * g)) (putF v F.GFM_CMD_ack 1) s)

/-- REC_CTRL_ARM (R291). -/
def execRecCtrlArm (m : Fin 8) (v : Word) (s : State) : Out :=
  .next (regCommand m Reg.REC_CTRL (putF v F.REC_CTRL_arm 1) s)

/-- REC_CTRL_DISARM (R292, R293). -/
def execRecCtrlDisarm (m : Fin 8) (v : Word) (s : State) : Out :=
  .next (regCommand m Reg.REC_CTRL (putF v F.REC_CTRL_disarm 1) s)

/-- REC_CTRL_TRIGGER (Table 10.3, source 8). -/
def execRecCtrlTrigger (m : Fin 8) (v : Word) (s : State) : Out :=
  .next (regCommand m Reg.REC_CTRL (putF v F.REC_CTRL_trigger 1) s)

/-- SCAN_RUN (R321). -/
def execScanRun (m : Fin 8) (k : Fin 2) (v : Word) (s : State) : Out :=
  .next (regCommand m (Reg.SCAN_CTRL k) (putF v F.SCAN_CTRL_run 1) s)

/-- SCAN_STOP (R321). -/
def execScanStop (m : Fin 8) (k : Fin 2) (v : Word) (s : State) : Out :=
  .next (regCommand m (Reg.SCAN_CTRL k) (putF v F.SCAN_CTRL_stop 1) s)

/-- SCAN_HOLD (R320, R321). -/
def execScanHold (m : Fin 8) (k : Fin 2) (v : Word) (s : State) : Out :=
  .next (regCommand m (Reg.SCAN_CTRL k) (putF v F.SCAN_CTRL_hold 1) s)

/-- SCAN_STEP (R321). -/
def execScanStep (m : Fin 8) (k : Fin 2) (v : Word) (s : State) : Out :=
  .next (regCommand m (Reg.SCAN_CTRL k) (putF v F.SCAN_CTRL_step 1) s)

/-- DO_OVERLOAD_RELEASE (R343). -/
def execDoOverloadRelease (m : Fin 8) (n : Fin 16) (v : Word) (s : State) : Out :=
  .next (regCommand m Reg.FIO_DO_FAULT (withBit v n) s)

/-- FIELD_ACK (R347). -/
def execFieldAck (m : Fin 8) (g : Fin 2) (v : Word) (s : State) : Out :=
  .next (regCommand m Reg.FIO_GRP_CTRL (withBit v (4 + g.val)) s)

/-- GROUP_KILL (R342). -/
def execGroupKill (m : Fin 8) (g : Fin 2) (level : Bool) (v : Word) (s : State) : Out :=
  .next (regCommand m Reg.FIO_GRP_CTRL (putF v ⟨g, 1⟩ (b2n level)) s)

/-- DPX_SWITCH (R389). -/
def execDpxSwitch (m : Fin 8) (v : Word) (s : State) : Out :=
  .next (regCommand m Reg.DPX_CMD (putF v F.DPX_CMD_switch 1) s)

/-- DPX_CANCEL (R389). -/
def execDpxCancel (m : Fin 8) (v : Word) (s : State) : Out :=
  .next (regCommand m Reg.DPX_CMD (putF v F.DPX_CMD_cancel 1) s)

/-- FI_ARM (R405). -/
def execFiArm (m : Fin 8) (u : Fin 10) (v : Word) (s : State) : Out :=
  .next (regCommand m (Reg.NET_FI_CFG u) (putF v F.NET_FI_CFG_arm 1) s)

/-- FI_DISARM (R405). -/
def execFiDisarm (m : Fin 8) (u : Fin 10) (v : Word) (s : State) : Out :=
  .next (regCommand m (Reg.NET_FI_CFG u) (putF v F.NET_FI_CFG_disarm 1) s)

/-- CMD_DOORBELL (R409). -/
def execCmdDoorbell (m : Fin 8) (v : Word) (s : State) : Out := .next (regCommand m Reg.CMD_DOORBELL v s)

/-- CHAN_RESET (R407). -/
def execChanReset (m : Fin 8) (v : Word) (s : State) : Out :=
  .next (regCommand m Reg.CMD_CTRL (putF v F.CMD_CTRL_chan_reset 1) s)

/-- EVT_SEL (R421). -/
def execEvtSel (m : Fin 8) (v : Word) (s : State) : Out := .next (regCommand m Reg.CMD_EVT_SEL v s)

end Sys2Proof.Machine
end

