-- ==== Sys2Proof/Machine/Cmd.lean ====
section
/-! DEFINITION. The opcodes of the command service (R407 to R422, Table 15.3). -/

namespace Sys2Proof.Machine

open Sys2Proof

/-! ### Serving a request (R407, R412, R442) -/

/-- What an opcode's effect answers: status, the handle of the reply, the result, and the state; `final` marks a reply that
leaves although the effect ends in a reset. -/
structure Answer where
  status : Nat
  handle : Word := 0
  result : List Word := []
  tail : List Byte := []
  final : Bool := false
  state : State

/-- A plain answer. -/
def answer (r : Nat × State) : Answer := { status := r.1, state := r.2 }

/-- What Table 15.3 asks of an opcode: its code, whether the request depends on the role, whether it may be served, and
whether it is a control opcode. -/
structure Opcode where
  code : Nat
  role : Bool := false
  permitted : Bool := true
  control : Bool := false

/-- The opcodes that KINDLING serves (R442). -/
def kindlingServes (n : Nat) : Bool :=
  [0x01, 0x02, 0x20, 0x40, 0x70, 0x71, 0x72, 0x73, 0x74, 0x75, 0x90].contains n

/-- The status of the first of checks 5 to 9 that fails. -/
def checkRequest (o : Opcode) (q : ReqHeader) (s : State) : Nat :=
  if !q.payloadOk then stBadLength
  else if o.role ∧ q.epoch ≠ ownEpoch s then stStaleEpoch
  else if o.role ∧ !holdsActive s then stWrongRole
  else if !q.reservedOk ∨ !o.permitted ∨ (inKindling s ∧ !kindlingServes o.code) then stNotPermitted
  else if o.control ∧ (slotOf s q.handle).isNone then stNoHandle
  else stOk

/-- Send the reply to a request that passed checks 1 to 4. The reply's epoch is the one in force as it leaves. -/
def answerRequest (ch : Fin 21) (code : Nat) (seq : Word) (before : State) (r : Answer) : State :=
  let s := r.state
  let msg : Reply := { opcode := code, handle := r.handle, seq := seq, status := r.status, result := r.result, tail := r.tail }
  if serviceUp s then sendReply ch true { msg with epoch := ownEpoch s } s
  else if r.final then setChannel ch { s.cmd.channels[ch] with sent := some { msg with epoch := ownEpoch before } } s
  else s

/-- Checks 5 to 9, the effect, and the reply. -/
def serveChecked (o : Opcode) (q : ReqHeader) (act : State → Answer) (s : State) : State :=
  let st := checkRequest o q s
  if st = stOk then answerRequest q.chan o.code q.seq s (act s)
  else
    let s := whenS (st == stStaleEpoch || st == stWrongRole) (noteStale 1) s
    answerRequest q.chan o.code q.seq s { status := st, state := s }

/-- Does a network channel take a request: a TLS session, a TRDP source, which its first request opens, or the one session
of KINDLING? -/
def takesRequest (s : State) (ch : Fin 21) : Bool :=
  if inKindling s then ch == 1
  else s.pwr.phase == .running && ((s.cmd.channels[ch]).isOpen || 5 ≤ ch.val)

/-- A request on a network channel. -/
def serveNetwork (o : Opcode) (q : ReqHeader) (act : State → Answer) (s : State) : State :=
  if takesRequest s q.chan then
    let s := setChannel q.chan { s.cmd.channels[q.chan] with isOpen := true, lastAt := localNs s } s
    checkFrame q.chan o.code q.lengthOk q.crcOk q.seq (serveChecked o q act) s
  else s

/-- A request of the mailbox: the one whose frame the doorbell took, checks 1 to 4 behind it. -/
def serveMailbox (o : Opcode) (q : ReqHeader) (act : State → Answer) (s : State) : State :=
  match s.cmd.mailbox with
  | none => s
  | some (code, h) =>
    if code = o.code ∧ serviceUp s then serveChecked o { h with chan := 0, payloadOk := q.payloadOk } act s else s

/-- A request on a channel. -/
def serve (o : Opcode) (q : ReqHeader) (act : State → Answer) (s : State) : State :=
  if q.chan = 0 then serveMailbox o q act s else serveNetwork o q act s

/-- The header an effect sees: on the mailbox, that of the frame. -/
def header (q : ReqHeader) (s : State) : ReqHeader :=
  if q.chan = 0 then (match s.cmd.mailbox with | none => q | some p => p.2) else q

/-! ### Identity and registers -/

/-- The two words of a 64-bit value. -/
def words64 (v : BitVec 64) : List Word := [v.extractLsb' 0 32, v.extractLsb' 32 32]

/-- IDENTIFY. -/
def execIdentify (q : ReqHeader) (s : State) : Out :=
  onChannel q (.identify q) (fun s =>
  .next (serve { code := 0x01 } q (fun s =>
    { status := stOk, state := s
      result := [rd s Reg.SYS_ID] ++ words64 s.upd.stake.serial ++
        [firmwareVersion s, rd s Reg.FAB_IMAGE_ID, rd s (Reg.SCAN_PROG_ID 0), rd s (Reg.SCAN_PROG_ID 1), rd s Reg.DPX_STATUS,
         ownEpoch s] }) s)) s

/-- Does HOST reach `n` words from an address (check 8)? A misaligned address is outside. -/
def hostReaches (a n : Nat) : Bool := a % 4 == 0 && decide (0x40000000 ≤ a) && decide (a + 4 * n ≤ 0x40150000)

/-- Read words in address order. -/
def readWords : Nat → Nat → State → List Word × State
  | 0, _, s => ([], s)
  | n + 1, a, s => let r := regRead 6 a s; let t := readWords n (a + 4) r.2; (r.1 :: t.1, t.2)

/-- READ_REGS; a count outside 1 to 1,024 is no payload of the opcode. -/
def execReadRegs (q : ReqHeader) (a : BitVec 32) (n : Nat) (s : State) : Out :=
  onChannel q (.readRegs q a n) (fun s =>
  let ok := decide (1 ≤ n ∧ n ≤ 1024)
  .next (serve { code := 0x02, permitted := hostReaches a.toNat n } { q with payloadOk := q.payloadOk && ok } (fun s =>
    let r := readWords n a.toNat s
    { status := stOk, result := r.1, state := r.2 }) s)) s

/-- Is a word that WRITE_REGS writes a run of a SAR core refused for want of calibration (R146)? -/
def runsUncalibrated (a : Nat) (w : Word) (s : State) : Bool :=
  (List.finRange 4).any (fun (c : Fin 4) => a == Reg.ADC_CTRL c && runRefused s c w)

/-- Write words in address order; the status is NOT_CALIBRATED where a run among them was refused so. -/
def writeWords : Nat → List Word → Nat × State → Nat × State
  | _, [], p => p
  | a, w :: l, (st, s) =>
    if serviceUp s then
      writeWords (a + 4) l (if runsUncalibrated a w s then stNotCalibrated else st, regWrite 6 a w s)
    else writeWords (a + 4) l (st, s)

/-- WRITE_REGS. -/
def execWriteRegs (q : ReqHeader) (a : BitVec 32) (ws : List Word) (s : State) : Out :=
  onChannel q (.writeRegs q a ws) (fun s =>
  .next (serve { code := 0x03, permitted := hostReaches a.toNat ws.length } q (fun s =>
    answer (writeWords a.toNat ws (stOk, s))) s)) s

/-! ### Long operations (R415 to R417) -/

/-- OP_STATUS. -/
def execOpStatus (q : ReqHeader) (s : State) : Out :=
  onChannel q (.opStatus q) (fun s =>
  .next (serve { code := 0x10 } q (fun s =>
    match (slotOf s (header q s).handle).bind (fun n => s.cmd.ops[n]) with
    | none => { status := stNoHandle, state := s }
    | some o =>
      { status := stOk, state := s
        result := [BitVec.ofNat 32 (opCode o.state), BitVec.ofNat 32 o.kind, BitVec.ofNat 32 o.status,
          BitVec.ofNat 32 o.progress] ++ words64 o.openedAt ++ words64 o.endedAt }) s)) s

/-- OP_LIST: the occupied slots. -/
def execOpList (q : ReqHeader) (s : State) : Out :=
  onChannel q (.opList q) (fun s =>
  .next (serve { code := 0x11 } q (fun s =>
    { status := stOk, state := s
      result := s.cmd.ops.toList.flatMap (fun (o : Option Oper) => match o with
        | none => []
        | some o => [o.handle, BitVec.ofNat 32 o.kind, BitVec.ofNat 32 (opCode o.state)]) }) s)) s

/-- Does a control of the handle depend on the role: does it hold a SWITCH (R414)? -/
def controlsSwitch (s : State) (h : Word) : Bool :=
  match (slotOf s h).bind (fun n => s.cmd.ops[n]) with
  | none => false
  | some o => o.kind == opSwitch

/-- Serve a control opcode with an effect on the operation in its slot. -/
def control (code : Nat) (q : ReqHeader) (act : Fin 16 → Oper → State → Nat × State) (s : State) : State :=
  let h := (header q s).handle
  serve { code := code, role := controlsSwitch s h, control := true } q (fun s =>
    match slotOf s h with
    | none => { status := stNoHandle, state := s }
    | some n => match s.cmd.ops[n] with
      | none => { status := stNoHandle, state := s }
      | some o => let r := act n o s; { status := r.1, handle := h, state := r.2 }) s

/-- Kinds that may be suspended (Table 15.4). -/
def suspendable (k : Fin 7) : Bool := k == opDownload || k == opExport

/-- Table 15.5: OP_SUSPEND. -/
def suspendOp (n : Fin 16) (o : Oper) (s : State) : Nat × State :=
  if opDone o then (stLate, s)
  else if !suspendable o.kind then (stNotPermitted, s)
  else (stOk, startQueuedExport (setOper n (some { o with state := .suspended, hostHold := true }) s))

/-- Table 15.5: OP_RESUME. -/
def resumeOp (n : Fin 16) (o : Oper) (s : State) : Nat × State :=
  if opDone o then (stLate, s)
  else if o.state ≠ .suspended then (stOk, s)
  else if o.partHold then (stOk, setOper n (some { o with hostHold := false }) s)
  else (stOk, settleQueued n (setOper n (some { o with hostHold := false, state := .queued }) s))

/-- Table 15.5: OP_CANCEL: before the commit point the work is withdrawn; a cancel of an ARM after its trigger disarms. -/
def cancelOp (n : Fin 16) (o : Oper) (s : State) : Nat × State :=
  if opDone o then (stLate, s)
  else if o.kind = opSwitch then switchCancelRequest s
  else if o.kind = opArm ∧ (o.committed ∨ !s.recd.trigs.isEmpty) then (stLate, recClose 4 s)
  else if o.committed then (stLate, s)
  else if o.kind = opArm then (stOk, endOp n .cancelled stOk (disarmRequest s))
  else if o.kind = opActivate then (stOk, endOp n .cancelled stOk (withdrawActivation n s))
  else (stOk, endOp n .cancelled stOk s)

/-- OP_RELEASE: only a terminated operation. -/
def releaseOp (n : Fin 16) (o : Oper) (s : State) : Nat × State :=
  if opDone o then (stOk, setOper n none s) else (stBadState, s)

/-- OP_SUSPEND. -/
def execOpSuspend (q : ReqHeader) (s : State) : Out :=
  onChannel q (.opSuspend q) (fun s => .next (control 0x12 q suspendOp s)) s

/-- OP_RESUME. -/
def execOpResume (q : ReqHeader) (s : State) : Out :=
  onChannel q (.opResume q) (fun s => .next (control 0x13 q resumeOp s)) s

/-- OP_CANCEL. -/
def execOpCancel (q : ReqHeader) (s : State) : Out :=
  onChannel q (.opCancel q) (fun s => .next (control 0x14 q cancelOp s)) s

/-- OP_RELEASE. -/
def execOpRelease (q : ReqHeader) (s : State) : Out :=
  onChannel q (.opRelease q) (fun s => .next (control 0x15 q releaseOp s)) s

/-- OP_ENDED: the work of a running EXPORT is complete; every other kind ends by an event of its own. -/
def execOpEnded (n : Fin 16) (s : State) : Out :=
  match s.cmd.ops[n] with
  | none => .next s
  | some o => if o.kind = opExport ∧ o.state = .running then .next (exportDone n s) else .next s

/-! ### Events (R421) -/

/-- The index of the oldest retained entry. -/
def oldestIndex (s : State) : Nat := s.log.next.toNat - s.log.entries.length

/-- The retained entries with their indices. -/
def indexedEvents (s : State) : List (Nat × Event) := s.log.entries.zipIdx.map (fun p => (oldestIndex s + p.2, p.1))

/-- The entries a read returns. -/
def readEvents (s : State) (start count : Nat) (value mask : BitVec 16) : List (Nat × Event) :=
  ((indexedEvents s).filter (fun p => start ≤ p.1 && (mask == 0 || (p.2.code &&& mask) == value))).take count

/-- The words of a returned entry. -/
def eventWords (p : Nat × Event) : List Word :=
  words64 (BitVec.ofNat 64 p.1) ++ words64 p.2.tai ++ [p.2.src ++ p.2.code, p.2.arg]

/-- EVENT_READ; a count outside 1 to 256 is no payload of the opcode. -/
def execEventRead (q : ReqHeader) (start : BitVec 64) (count : Nat) (value mask : BitVec 16) (s : State) : Out :=
  onChannel q (.eventRead q start count value mask) (fun s =>
  let ok := decide (1 ≤ count ∧ count ≤ 256)
  .next (serve { code := 0x20 } { q with payloadOk := q.payloadOk && ok } (fun s =>
    let l := readEvents s start.toNat count value mask
    let first := match l with | [] => s.log.next | p :: _ => BitVec.ofNat 64 p.1
    let gap := decide (start.toNat + 4096 < s.log.next.toNat)
    { status := stOk, state := s
      result := words64 first ++ words64 s.log.next ++ [BitVec.ofNat 32 (b2n gap)] ++ l.flatMap eventWords }) s)) s

/-! ### Settings, reset, sleep -/

/-- The words of a settings record: type and format, length of the value, value. -/
def recordWords (r : SettingsRecord) : List Word :=
  [r.minor ++ r.major ++ r.type, BitVec.ofNat 32 (4 * r.value.length)] ++ r.value

/-- SETTINGS_READ: the records of the set in force whose type lies in the range. -/
def execSettingsRead (q : ReqHeader) (lo hi : BitVec 16) (s : State) : Out :=
  onChannel q (.settingsRead q lo hi) (fun s =>
  .next (serve { code := 0x30 } q (fun s =>
    { status := stOk, state := s
      result := ((settingsNow s).records.filter (fun r => lo ≤ r.type && r.type ≤ hi)).flatMap recordWords }) s)) s

/-- SETTINGS_WRITE. -/
def execSettingsWrite (q : ReqHeader) (x : List SettingsRecord) (s : State) : Out :=
  onChannel q (.settingsWrite q x) (fun s =>
  .next (serve { code := 0x31, role := true } q (fun s =>
    let r := settingsWrite x s
    { status := r.1, result := r.2.1, state := r.2.2 }) s)) s

/-- RESET: the reply is sent before the reset, a software reset. -/
def execReset (q : ReqHeader) (cold : Bool) (s : State) : Out :=
  onChannel q (.reset q cold) (fun s =>
  .next (serve { code := 0x40 } q (fun s => { status := stOk, final := true, state := resetPart (some 3) (!cold) s }) s)) s

/-- SLEEP (R93, R94). -/
def execSleep (q : ReqHeader) (s : State) : Out :=
  onChannel q (.sleep q) (fun s =>
  .next (serve { code := 0x41 } q (fun s =>
    if sleepRefused s then { status := stBadState, state := s }
    else { status := stOk, final := true, state := sleepEntry s }) s)) s

/-! ### Forces and scan cores -/

/-- FORCE_SET. -/
def execForceSet (q : ReqHeader) (k : Fin 2) (id : Word) (ty : BitVec 8) (value : BitVec 64) (s : State) : Out :=
  onChannel q (.forceSet q k id ty value) (fun s =>
  .next (serve { code := 0x50 } q (fun s => answer (setForce ⟨k, id, ty, value⟩ s)) s)) s

/-- FORCE_CLEAR. -/
def execForceClear (q : ReqHeader) (k : Fin 2) (id : Word) (s : State) : Out :=
  onChannel q (.forceClear q k id) (fun s =>
  .next (serve { code := 0x51 } q (fun s => answer (stOk, clearForce k id s)) s)) s

/-- FORCE_LIST. -/
def execForceList (q : ReqHeader) (s : State) : Out :=
  onChannel q (.forceList q) (fun s =>
  .next (serve { code := 0x52 } q (fun s =>
    { status := stOk, state := s
      result := s.scan.forces.flatMap (fun f => [BitVec.ofNat 32 f.core, f.id, f.ty.setWidth 32] ++ words64 f.value) }) s)) s

/-- One request of SCAN_CTRL. -/
def scanRequest (k : Fin 2) (r : ScanReq) (s : State) : Nat × State :=
  match r with
  | .run cold => runRequest k cold s
  | .stop => (stOk, stopRequest k s)
  | .hold => holdRequest k s
  | .step t => stepRequest k t s

/-- SCAN_CTRL. -/
def execScanCtrl (q : ReqHeader) (k : Fin 2) (r : ScanReq) (s : State) : Out :=
  onChannel q (.scanCtrl q k r) (fun s =>
  .next (serve { code := 0x58, role := true } q (fun s => answer (scanRequest k r s)) s)) s

/-! ### The recorder -/

/-- REC_ARM: an ARM operation, refused as Table 10.4 says. -/
def recArmRequest (ch : Fin 21) (s : State) : Answer :=
  match armRefused s with
  | some e => { status := e.1, state := armDenied e s }
  | none =>
    match (if (openOfKind s opArm).isEmpty then freeSlot s else none) with
    | none => { status := stBusy, state := s }
    | some n =>
      let o := openOp n opArm .running (some ch) 0 s
      { status := stOk, handle := o.1, state := armNow 0 (some n) o.2 }

/-- REC_ARM. -/
def execRecArm (q : ReqHeader) (s : State) : Out :=
  onChannel q (.recArm q) (fun s => .next (serve { code := 0x60 } q (recArmRequest q.chan) s)) s

/-- REC_DISARM. -/
def execRecDisarm (q : ReqHeader) (s : State) : Out :=
  onChannel q (.recDisarm q) (fun s =>
  .next (serve { code := 0x61 } q (fun s => answer (stOk, disarmRequest s)) s)) s

/-- REC_TRIGGER: trigger source 8. -/
def execRecTrigger (q : ReqHeader) (s : State) : Out :=
  onChannel q (.recTrigger q) (fun s =>
  .next (serve { code := 0x62 } q (fun s => answer (stOk, recTrigNow srcWrite s)) s)) s

/-- REC_LIST: number, trigger instant, size, lock and close cause of each record. -/
def execRecList (q : ReqHeader) (s : State) : Out :=
  onChannel q (.recList q) (fun s =>
  .next (serve { code := 0x63 } q (fun s =>
    { status := stOk, state := s
      result := s.recd.stored.flatMap (fun r => [r.number] ++ words64 (BitVec.ofNat 64 r.trigAt) ++
        [BitVec.ofNat 32 r.size, BitVec.ofNat 32 (b2n r.locked), BitVec.ofNat 32 r.cause]) }) s)) s

/-- REC_LOCK. -/
def execRecLock (q : ReqHeader) (n : Word) (s : State) : Out :=
  onChannel q (.recLock q n) (fun s =>
  .next (serve { code := 0x64 } q (fun s => answer (lockRecord true n s)) s)) s

/-- REC_UNLOCK. -/
def execRecUnlock (q : ReqHeader) (n : Word) (s : State) : Out :=
  onChannel q (.recUnlock q n) (fun s =>
  .next (serve { code := 0x65 } q (fun s => answer (lockRecord false n s)) s)) s

/-- REC_DELETE. -/
def execRecDelete (q : ReqHeader) (n : Word) (s : State) : Out :=
  onChannel q (.recDelete q n) (fun s =>
  .next (serve { code := 0x66 } q (fun s => answer (deleteRecord n s)) s)) s

/-- REC_EXPORT: four at most, one running and the others queued. -/
def recExportRequest (ch : Fin 21) (n : Word) (s : State) : Answer :=
  if !isStored s n then { status := stBadState, state := s }
  else
    match freeSlot s with
    | none => { status := stBusy, state := s }
    | some slot => let r := openExport n slot (some ch) s; { status := stOk, handle := r.1, state := r.2 }

/-- REC_EXPORT. -/
def execRecExport (q : ReqHeader) (n : Word) (s : State) : Out :=
  onChannel q (.recExport q n) (fun s =>
  .next (serve { code := 0x67 } q (recExportRequest q.chan n) s)) s

/-- FILE_READ: up to 60 KiB of an exported file. -/
def execFileRead (q : ReqHeader) (n : Word) (file : Fin 4) (off len : Nat) (s : State) : Out :=
  onChannel q (.fileRead q n file off len) (fun s =>
  .next (serve { code := 0x68 } { q with payloadOk := q.payloadOk && decide (len ≤ 61440) } (fun s =>
    match s.recd.exported.find? (fun e => e.record.number == n) with
    | none => { status := stBadState, state := s }
    | some e => { status := stOk, tail := fileBytes e file off len, state := s }) s)) s

/-! ### Images, switchover, service state -/

/-- IMAGE_BEGIN (R427). -/
def execImageBegin (q : ReqHeader) (kind length : Nat) (hash : BitVec 384) (s : State) : Out :=
  onChannel q (.imageBegin q kind length hash) (fun s =>
  .next (serve { code := 0x70 } q (fun s =>
    let r := imageBegin kind length hash (some q.chan) s
    { status := r.1, result := r.2.1, handle := r.2.2.1, state := r.2.2.2 }) s)) s

/-- IMAGE_DATA (R428). -/
def execImageData (q : ReqHeader) (block off len : Nat) (x : StagedImage) (s : State) : Out :=
  onChannel q (.imageData q block off len x) (fun s =>
  .next (serve { code := 0x71 } q (fun s =>
    let r := imageData (header q s).handle block off len x s
    { status := r.1, result := r.2.1, state := r.2.2 }) s)) s

/-- IMAGE_VERIFY (R430). -/
def execImageVerify (q : ReqHeader) (kind : Nat) (s : State) : Out :=
  onChannel q (.imageVerify q kind) (fun s =>
  .next (serve { code := 0x72 } q (fun s =>
    let r := imageVerify kind (some q.chan) s
    { status := r.1, handle := r.2.1, state := r.2.2 }) s)) s

/-- IMAGE_ACTIVATE (R431, R432): the reply precedes a cold restart. -/
def execImageActivate (q : ReqHeader) (mask flags : BitVec 16) (s : State) : Out :=
  onChannel q (.imageActivate q mask flags) (fun s =>
  .next (serve { code := 0x73 } q (fun s =>
    let r := imageActivate mask.toNat flags.toNat (some q.chan) s
    { status := r.1, handle := r.2.1, final := true, state := r.2.2 }) s)) s

/-- IMAGE_CONFIRM (R436). -/
def execImageConfirm (q : ReqHeader) (kind : Nat) (s : State) : Out :=
  onChannel q (.imageConfirm q kind) (fun s =>
  .next (serve { code := 0x74 } q (fun s => answer (imageConfirm kind s)) s)) s

/-- IMAGE_ABANDON (R436). -/
def execImageAbandon (q : ReqHeader) (kind : Nat) (s : State) : Out :=
  onChannel q (.imageAbandon q kind) (fun s =>
  .next (serve { code := 0x75 } q (fun s => answer (imageAbandon kind s)) s)) s

/-- SWITCHOVER: a SWITCH operation (R389). -/
def switchoverRequest (ch : Fin 21) (s : State) : Answer :=
  if !(openOfKind s opSwitch).isEmpty then { status := stBusy, state := s }
  else
    match freeSlot s with
    | none => { status := stBusy, state := s }
    | some n =>
      let o := openOp n opSwitch .running (some ch) 0 s
      let r := switchRequest (some n) o.2
      if r.1 = stOk then { status := stOk, handle := o.1, state := r.2 }
      else { status := r.1, state := setOper n none r.2 }

/-- SWITCHOVER. -/
def execSwitchover (q : ReqHeader) (s : State) : Out :=
  onChannel q (.switchover q) (fun s =>
  .next (serve { code := 0x80, role := true } q (switchoverRequest q.chan) s)) s

/-- SERVICE_STATE (R446). -/
def execServiceState (q : ReqHeader) (t : Token) (s : State) : Out :=
  onChannel q (.serviceState q t) (fun s =>
  .next (serve { code := 0x90 } q (fun s => answer (serviceState t s)) s)) s

end Sys2Proof.Machine
end

