-- ==== Sys2Proof/Machine/Dispatch.lean ====
section
/-! DEFINITION. One arm per command: a direct call of its meaning. -/

namespace Sys2Proof.Machine

/-- The effect of a command on everything but the queue. -/
def exec (i : Instr) (s : State) : Host.Outcome State Fault Refusal :=
  match i with
  | .registerWrite m w a x => Sys2Proof.Machine.execRegisterWrite m w a x s
  | .snapshotRead m x => Sys2Proof.Machine.execSnapshotRead m x s
  | .highWordRead m x => Sys2Proof.Machine.execHighWordRead m x s
  | .lowWordWrite m a v => Sys2Proof.Machine.execLowWordWrite m a v s
  | .highWordWrite m a v => Sys2Proof.Machine.execHighWordWrite m a v s
  | .fieldLinkFrame ok => Sys2Proof.Machine.execFieldLinkFrame ok s
  | .tripStrobe n level => Sys2Proof.Machine.execTripStrobe n level s
  | .routeWord c i0 route w valid unsettled holdover fault parity => Sys2Proof.Machine.execRouteWord c i0 route w valid unsettled holdover fault parity s
  | .frameBoundary o0 o1 o2 o3 => Sys2Proof.Machine.execFrameBoundary o0 o1 o2 o3 s
  | .inputImagePublication x y => Sys2Proof.Machine.execInputImagePublication x y s
  | .fabIndGo m c v => Sys2Proof.Machine.execFabIndGo m c v s
  | .indirectAccessDone c => Sys2Proof.Machine.execIndirectAccessDone c s
  | .mirrorFrameOpen => Sys2Proof.Machine.execMirrorFrameOpen s
  | .groupSwapped => Sys2Proof.Machine.execGroupSwapped s
  | .shadowSlot c o => Sys2Proof.Machine.execShadowSlot c o s
  | .tileRetired c => Sys2Proof.Machine.execTileRetired c s
  | .checkNow m c v => Sys2Proof.Machine.execCheckNow m c v s
  | .coldStart p cal => Sys2Proof.Machine.execColdStart p cal s
  | .warmStart p refreshOk hashOk cal => Sys2Proof.Machine.execWarmStart p refreshOk hashOk cal s
  | .vinLow cv => Sys2Proof.Machine.execVinLow cv s
  | .powerFail => Sys2Proof.Machine.execPowerFail s
  | .vinLoss => Sys2Proof.Machine.execVinLoss s
  | .sensorFault five => Sys2Proof.Machine.execSensorFault five s
  | .sensorRetry five => Sys2Proof.Machine.execSensorRetry five s
  | .resetN ns taken => Sys2Proof.Machine.execResetN ns taken s
  | .sysResetCtrlGo m v => Sys2Proof.Machine.execSysResetCtrlGo m v s
  | .watchdogExpiry => Sys2Proof.Machine.execWatchdogExpiry s
  | .fatalFault => Sys2Proof.Machine.execFatalFault s
  | .sleep q => Sys2Proof.Machine.execSleep q s
  | .wake sources p cal => Sys2Proof.Machine.execWake sources p cal s
  | .rtcLoad => Sys2Proof.Machine.execRtcLoad s
  | .refLost ext offFrequency => Sys2Proof.Machine.execRefLost ext offFrequency s
  | .pllCoast n => Sys2Proof.Machine.execPllCoast n s
  | .refRestored ext => Sys2Proof.Machine.execRefRestored ext s
  | .pllRelocked n => Sys2Proof.Machine.execPllRelocked n s
  | .refFallback => Sys2Proof.Machine.execRefFallback s
  | .ptpSync port x => Sys2Proof.Machine.execPtpSync port x s
  | .ptpAnnounce port x => Sys2Proof.Machine.execPtpAnnounce port x s
  | .timing path theta => Sys2Proof.Machine.execTiming path theta s
  | .ppsInEdge x => Sys2Proof.Machine.execPpsInEdge x s
  | .timeSourceLost src => Sys2Proof.Machine.execTimeSourceLost src s
  | .ppsOutPulse => Sys2Proof.Machine.execPpsOutPulse s
  | .timeStepGo m v => Sys2Proof.Machine.execTimeStepGo m v s
  | .trigArm m n v => Sys2Proof.Machine.execTrigArm m n v s
  | .trigDisarm m n v => Sys2Proof.Machine.execTrigDisarm m n v s
  | .trigFire n => Sys2Proof.Machine.execTrigFire n s
  | .adcRun m c v => Sys2Proof.Machine.execAdcRun m c v s
  | .adcStop m c v => Sys2Proof.Machine.execAdcStop m c v s
  | .adcCal m c v => Sys2Proof.Machine.execAdcCal m c v s
  | .adcCommit m c v => Sys2Proof.Machine.execAdcCommit m c v s
  | .adcStartEvent c k => Sys2Proof.Machine.execAdcStartEvent c k s
  | .adcConversion c code => Sys2Proof.Machine.execAdcConversion c code s
  | .adcCalDone c f => Sys2Proof.Machine.execAdcCalDone c f s
  | .hardCmp n => Sys2Proof.Machine.execHardCmp n s
  | .bandCrossing n upper lower => Sys2Proof.Machine.execBandCrossing n upper lower s
  | .deadTimeElapsed p => Sys2Proof.Machine.execDeadTimeElapsed p s
  | .deferredDecision p => Sys2Proof.Machine.execDeferredDecision p s
  | .modStuck i0 level => Sys2Proof.Machine.execModStuck i0 level s
  | .filtStreamRecovered i0 => Sys2Proof.Machine.execFiltStreamRecovered i0 s
  | .chainOutput n bits => Sys2Proof.Machine.execChainOutput n bits s
  | .fastOutput n bits => Sys2Proof.Machine.execFastOutput n bits s
  | .filterService k => Sys2Proof.Machine.execFilterService k s
  | .filtCfgWrite m n v => Sys2Proof.Machine.execFiltCfgWrite m n v s
  | .filtRestarted n => Sys2Proof.Machine.execFiltRestarted n s
  | .loopSample st x => Sys2Proof.Machine.execLoopSample st x s
  | .outputInstant st => Sys2Proof.Machine.execOutputInstant st s
  | .bandUpdate p vdc v usable => Sys2Proof.Machine.execBandUpdate p vdc v usable s
  | .carrierEvent p peak => Sys2Proof.Machine.execCarrierEvent p peak s
  | .profileStep g => Sys2Proof.Machine.execProfileStep g s
  | .stageStart m st v => Sys2Proof.Machine.execStageStart m st v s
  | .stageStop m st v => Sys2Proof.Machine.execStageStop m st v s
  | .innerChange m st hyst => Sys2Proof.Machine.execInnerChange m st hyst s
  | .gdfActive n => Sys2Proof.Machine.execGdfActive n s
  | .pwmBlockWrite m mask => Sys2Proof.Machine.execPwmBlockWrite m mask s
  | .gateReleaseWrite m mask => Sys2Proof.Machine.execGateReleaseWrite m mask s
  | .gfmStart m g v => Sys2Proof.Machine.execGfmStart m g v s
  | .gfmStop m g v => Sys2Proof.Machine.execGfmStop m g v s
  | .gfmAck m g v => Sys2Proof.Machine.execGfmAck m g v s
  | .lineClassify g x => Sys2Proof.Machine.execLineClassify g x s
  | .lineDeadConfirmed g x => Sys2Proof.Machine.execLineDeadConfirmed g x s
  | .lineLiveConfirmed g x => Sys2Proof.Machine.execLineLiveConfirmed g x s
  | .contactorCheck g => Sys2Proof.Machine.execContactorCheck g s
  | .slotInstant g => Sys2Proof.Machine.execSlotInstant g s
  | .backoffExpiry g => Sys2Proof.Machine.execBackoffExpiry g s
  | .rampComplete g => Sys2Proof.Machine.execRampComplete g s
  | .blackstartAbort g => Sys2Proof.Machine.execBlackstartAbort g s
  | .syncClose g x => Sys2Proof.Machine.execSyncClose g x s
  | .syncTimeout g => Sys2Proof.Machine.execSyncTimeout g s
  | .limitHeld g => Sys2Proof.Machine.execLimitHeld g s
  | .limitRelease g => Sys2Proof.Machine.execLimitRelease g s
  | .rideResume g x => Sys2Proof.Machine.execRideResume g x s
  | .rideExpired g => Sys2Proof.Machine.execRideExpired g s
  | .gfmTimeMode g => Sys2Proof.Machine.execGfmTimeMode g s
  | .phasorUpdate t x => Sys2Proof.Machine.execPhasorUpdate t x s
  | .protOperate f e t => Sys2Proof.Machine.execProtOperate f e t s
  | .fast50p f p q usable => Sys2Proof.Machine.execFast50p f p q usable s
  | .freqTrack f => Sys2Proof.Machine.execFreqTrack f s
  | .thermalUpdate f => Sys2Proof.Machine.execThermalUpdate f s
  | .thermalSave => Sys2Proof.Machine.execThermalSave s
  | .lmdArmed => Sys2Proof.Machine.execLmdArmed s
  | .lmdNoFeeder => Sys2Proof.Machine.execLmdNoFeeder s
  | .bkrRetrip f => Sys2Proof.Machine.execBkrRetrip f s
  | .bkrFail f => Sys2Proof.Machine.execBkrFail f s
  | .tripCommandEnd f => Sys2Proof.Machine.execTripCommandEnd f s
  | .bkrDiscrepancy f => Sys2Proof.Machine.execBkrDiscrepancy f s
  | .tcAlarm f => Sys2Proof.Machine.execTcAlarm f s
  | .tcRestored f => Sys2Proof.Machine.execTcRestored f s
  | .unit32Operate g => Sys2Proof.Machine.execUnit32Operate g s
  | .recCtrlArm m v => Sys2Proof.Machine.execRecCtrlArm m v s
  | .recCtrlDisarm m v => Sys2Proof.Machine.execRecCtrlDisarm m v s
  | .recCtrlTrigger m v => Sys2Proof.Machine.execRecCtrlTrigger m v s
  | .captureSample x => Sys2Proof.Machine.execCaptureSample x s
  | .storedRow x => Sys2Proof.Machine.execStoredRow x s
  | .levelTrigger l x => Sys2Proof.Machine.execLevelTrigger l x s
  | .recMaskViolation k x => Sys2Proof.Machine.execRecMaskViolation k x s
  | .binaryChange b at' => Sys2Proof.Machine.execBinaryChange b at' s
  | .recTriggered x => Sys2Proof.Machine.execRecTriggered x s
  | .recClosed => Sys2Proof.Machine.execRecClosed s
  | .recStored => Sys2Proof.Machine.execRecStored s
  | .recRearm => Sys2Proof.Machine.execRecRearm s
  | .taskRelease k t => Sys2Proof.Machine.execTaskRelease k t s
  | .cycleStart k t => Sys2Proof.Machine.execCycleStart k t s
  | .cycleComplete k t at' w => Sys2Proof.Machine.execCycleComplete k t at' w s
  | .scanTrap k t cause => Sys2Proof.Machine.execScanTrap k t cause s
  | .scanRun m k v => Sys2Proof.Machine.execScanRun m k v s
  | .scanStop m k v => Sys2Proof.Machine.execScanStop m k v s
  | .scanHold m k v => Sys2Proof.Machine.execScanHold m k v s
  | .scanStep m k v => Sys2Proof.Machine.execScanStep m k v s
  | .holdEnded k => Sys2Proof.Machine.execHoldEnded k s
  | .retainCommit => Sys2Proof.Machine.execRetainCommit s
  | .scanAutostart k => Sys2Proof.Machine.execScanAutostart k s
  | .progSwap k => Sys2Proof.Machine.execProgSwap k s
  | .remoteSet k b data => Sys2Proof.Machine.execRemoteSet k b data s
  | .remoteStale k b => Sys2Proof.Machine.execRemoteStale k b s
  | .diSample raw => Sys2Proof.Machine.execDiSample raw s
  | .doOverload n hot => Sys2Proof.Machine.execDoOverload n hot s
  | .doRetry n => Sys2Proof.Machine.execDoRetry n s
  | .doOverloadRelease m n v => Sys2Proof.Machine.execDoOverloadRelease m n v s
  | .demagExcess n mj => Sys2Proof.Machine.execDemagExcess n mj s
  | .doMonitor n dv => Sys2Proof.Machine.execDoMonitor n dv s
  | .fieldLow g cv => Sys2Proof.Machine.execFieldLow g cv s
  | .fieldLost g cv => Sys2Proof.Machine.execFieldLost g cv s
  | .fieldRestored g cv => Sys2Proof.Machine.execFieldRestored g cv s
  | .fieldAck m g v => Sys2Proof.Machine.execFieldAck m g v s
  | .groupKill m g level v => Sys2Proof.Machine.execGroupKill m g level v s
  | .strobeMismatch n => Sys2Proof.Machine.execStrobeMismatch n s
  | .tripShort n => Sys2Proof.Machine.execTripShort n s
  | .tripOvertime n => Sys2Proof.Machine.execTripOvertime n s
  | .tripCooldownEnd n => Sys2Proof.Machine.execTripCooldownEnd n s
  | .vtripLow dv => Sys2Proof.Machine.execVtripLow dv s
  | .tripSupervision n intact => Sys2Proof.Machine.execTripSupervision n intact s
  | .tripExtDrive n dv => Sys2Proof.Machine.execTripExtDrive n dv s
  | .safeStateEntered => Sys2Proof.Machine.execSafeStateEntered s
  | .safeStateLeft => Sys2Proof.Machine.execSafeStateLeft s
  | .heartbeat h b => Sys2Proof.Machine.execHeartbeat h b s
  | .heartbeatSend good => Sys2Proof.Machine.execHeartbeatSend good s
  | .pathDown p => Sys2Proof.Machine.execPathDown p s
  | .pathUp h b => Sys2Proof.Machine.execPathUp h b s
  | .partnerLost => Sys2Proof.Machine.execPartnerLost s
  | .mirror h x => Sys2Proof.Machine.execMirror h x s
  | .mirrorGfm h x => Sys2Proof.Machine.execMirrorGfm h x s
  | .retain h x => Sys2Proof.Machine.execRetain h x s
  | .dying h reason => Sys2Proof.Machine.execDying h reason s
  | .switch h at' => Sys2Proof.Machine.execSwitch h at' s
  | .switchAck h at' => Sys2Proof.Machine.execSwitchAck h at' s
  | .switchCancel h at' => Sys2Proof.Machine.execSwitchCancel h at' s
  | .syncReq h v => Sys2Proof.Machine.execSyncReq h v s
  | .syncData h x => Sys2Proof.Machine.execSyncData h x s
  | .settings h x frame => Sys2Proof.Machine.execSettings h x frame s
  | .listenTimeout => Sys2Proof.Machine.execListenTimeout s
  | .probe p epoch => Sys2Proof.Machine.execProbe p epoch s
  | .probeReply r => Sys2Proof.Machine.execProbeReply r s
  | .probeTimeout => Sys2Proof.Machine.execProbeTimeout s
  | .releaseTimer => Sys2Proof.Machine.execReleaseTimer s
  | .degradedProbe => Sys2Proof.Machine.execDegradedProbe s
  | .dpxSwitch m v => Sys2Proof.Machine.execDpxSwitch m v s
  | .dpxCancel m v => Sys2Proof.Machine.execDpxCancel m v s
  | .switchDeadline => Sys2Proof.Machine.execSwitchDeadline s
  | .switchInstant => Sys2Proof.Machine.execSwitchInstant s
  | .syncDone => Sys2Proof.Machine.execSyncDone s
  | .digestUpdate => Sys2Proof.Machine.execDigestUpdate s
  | .syncReqRetry => Sys2Proof.Machine.execSyncReqRetry s
  | .linkUp p gigabit => Sys2Proof.Machine.execLinkUp p gigabit s
  | .linkDown p => Sys2Proof.Machine.execLinkDown p s
  | .prpLanLost l => Sys2Proof.Machine.execPrpLanLost l s
  | .prpLanRestored l => Sys2Proof.Machine.execPrpLanRestored l s
  | .pdPublish i0 => Sys2Proof.Machine.execPdPublish i0 s
  | .pdTimeout i0 => Sys2Proof.Machine.execPdTimeout i0 s
  | .canBusOff p tec => Sys2Proof.Machine.execCanBusOff p tec s
  | .canRecovery p => Sys2Proof.Machine.execCanRecovery p s
  | .mvbLineFail l => Sys2Proof.Machine.execMvbLineFail l s
  | .modbusTimeout p => Sys2Proof.Machine.execModbusTimeout p s
  | .tlsHandshake ip certOk => Sys2Proof.Machine.execTlsHandshake ip certOk s
  | .fiArm m u v => Sys2Proof.Machine.execFiArm m u v s
  | .fiDisarm m u v => Sys2Proof.Machine.execFiDisarm m u v s
  | .fiStart u => Sys2Proof.Machine.execFiStart u s
  | .fiFrame u receive field x => Sys2Proof.Machine.execFiFrame u receive field x s
  | .fiRelease u => Sys2Proof.Machine.execFiRelease u s
  | .cmdDoorbell m v => Sys2Proof.Machine.execCmdDoorbell m v s
  | .chanReset m v => Sys2Proof.Machine.execChanReset m v s
  | .channelIdle ch => Sys2Proof.Machine.execChannelIdle ch s
  | .identify q => Sys2Proof.Machine.execIdentify q s
  | .readRegs q a n => Sys2Proof.Machine.execReadRegs q a n s
  | .writeRegs q a ws => Sys2Proof.Machine.execWriteRegs q a ws s
  | .opStatus q => Sys2Proof.Machine.execOpStatus q s
  | .opList q => Sys2Proof.Machine.execOpList q s
  | .opSuspend q => Sys2Proof.Machine.execOpSuspend q s
  | .opResume q => Sys2Proof.Machine.execOpResume q s
  | .opCancel q => Sys2Proof.Machine.execOpCancel q s
  | .opRelease q => Sys2Proof.Machine.execOpRelease q s
  | .opEnded n => Sys2Proof.Machine.execOpEnded n s
  | .opExpired n => Sys2Proof.Machine.execOpExpired n s
  | .eventRead q start count value mask => Sys2Proof.Machine.execEventRead q start count value mask s
  | .evtLost => Sys2Proof.Machine.execEvtLost s
  | .settingsRead q lo hi => Sys2Proof.Machine.execSettingsRead q lo hi s
  | .settingsWrite q x => Sys2Proof.Machine.execSettingsWrite q x s
  | .reset q cold => Sys2Proof.Machine.execReset q cold s
  | .forceSet q k id ty value => Sys2Proof.Machine.execForceSet q k id ty value s
  | .forceClear q k id => Sys2Proof.Machine.execForceClear q k id s
  | .forceList q => Sys2Proof.Machine.execForceList q s
  | .scanCtrl q k r => Sys2Proof.Machine.execScanCtrl q k r s
  | .recArm q => Sys2Proof.Machine.execRecArm q s
  | .recDisarm q => Sys2Proof.Machine.execRecDisarm q s
  | .recTrigger q => Sys2Proof.Machine.execRecTrigger q s
  | .recList q => Sys2Proof.Machine.execRecList q s
  | .recLock q n => Sys2Proof.Machine.execRecLock q n s
  | .recUnlock q n => Sys2Proof.Machine.execRecUnlock q n s
  | .recDelete q n => Sys2Proof.Machine.execRecDelete q n s
  | .recExport q n => Sys2Proof.Machine.execRecExport q n s
  | .fileRead q n file off len => Sys2Proof.Machine.execFileRead q n file off len s
  | .imageBegin q kind length hash => Sys2Proof.Machine.execImageBegin q kind length hash s
  | .imageData q block off len x => Sys2Proof.Machine.execImageData q block off len x s
  | .imageVerify q kind => Sys2Proof.Machine.execImageVerify q kind s
  | .imageActivate q mask flags => Sys2Proof.Machine.execImageActivate q mask flags s
  | .imageConfirm q kind => Sys2Proof.Machine.execImageConfirm q kind s
  | .imageAbandon q kind => Sys2Proof.Machine.execImageAbandon q kind s
  | .switchover q => Sys2Proof.Machine.execSwitchover q s
  | .serviceState q t => Sys2Proof.Machine.execServiceState q t s
  | .canFrameReceived p id data => Sys2Proof.Machine.execCanFrameReceived p id data s
  | .mvbMasterFrame addr data => Sys2Proof.Machine.execMvbMasterFrame addr data s
  | .modbusFrameReceived p x => Sys2Proof.Machine.execModbusFrameReceived p x s
  | .evtSel m v => Sys2Proof.Machine.execEvtSel m v s
  | .settingsApplied => Sys2Proof.Machine.execSettingsApplied s
  | .imageVerified => Sys2Proof.Machine.execImageVerified s
  | .supervisorRestart => Sys2Proof.Machine.execSupervisorRestart s
  | .trialExpired => Sys2Proof.Machine.execTrialExpired s
  | .deferredRevert => Sys2Proof.Machine.execDeferredRevert s
  | .commissioningEnd => Sys2Proof.Machine.execCommissioningEnd s
  | .gdfInactive n => Sys2Proof.Machine.execGdfInactive n s
  | .hardLiveCleared n => Sys2Proof.Machine.execHardLiveCleared n s
  | .compareMatch p turnOn => Sys2Proof.Machine.execCompareMatch p turnOn s
  | .vinLowCleared cv => Sys2Proof.Machine.execVinLowCleared cv s
  | .vtripRestored dv => Sys2Proof.Machine.execVtripRestored dv s
  | .fieldLowCleared g cv => Sys2Proof.Machine.execFieldLowCleared g cv s
  | .sessionClosed ch => Sys2Proof.Machine.execSessionClosed ch s
  | .canTxCycle k b => Sys2Proof.Machine.execCanTxCycle k b s
  | .modbusPoll p => Sys2Proof.Machine.execModbusPoll p s

end Sys2Proof.Machine
end

