-- ==== Sys2Proof/Machine/Step.lean ====
section
/-! DEFINITION. One step: take the command at the front of the queue; on an empty queue a frame that a fault-injection unit
has released is carried out, or one tick of the 800 MHz timebase passes. -/

namespace Sys2Proof.Machine

open Sys2Proof

/-- The step on an empty queue (log entry 8): the command of a frame that has passed its unit, else one 1.25 ns tick, in which
free egress ports send. -/
def idleStep (s : State) : Host.Outcome State Fault Refusal :=
  match s.net.arrived with
  | [] => .next (drainPorts (idleTick s))
  | i :: rest => exec i (setNet { s.net with arrived := rest, past := true } s)

/-- The step. -/
def step (s : State) : Host.Outcome State Fault Refusal :=
  match s.pending with
  | [] => idleStep s
  | i :: rest => exec i { s with pending := rest }

/-- The state with the command a table word spells at the front of its queue; no row of the table gives bits, so the
state itself. -/
def State.withFetchWord (s : State) (nbits w : Nat) : State :=
  match decodeTableWord nbits w with
  | some i => { s with pending := i :: s.pending }
  | none => s

end Sys2Proof.Machine
end

