-- ==== Sys2Proof/Safety.lean ====
section
/-! DEFINITION. The words in which claims are made: the parts of the state and the blocks of the register map, what a
change leaves alone, the events a change logs, and what every state that a step reaches keeps. -/

namespace Sys2Proof.Safety

open Sys2Proof Sys2Proof.Machine

/-! ### Parts of the state -/

/-- The blocks of the register map (Table 1.8), each a window of 64 KiB; FAB has one for each cluster. -/
inductive Block where
  | sys | pwr | clk | time | adc | filt | ctrl | gfm | prot | recd | scan | fio | dpx | net | cmd | upd | fab | pwm
  deriving DecidableEq, Repr

/-- The block an address of the register map lies in. -/
def blockAt (a : Nat) : Option Block :=
  match a / 0x10000 with
  | 0x4000 => some .sys
  | 0x4001 => some .pwr
  | 0x4002 => some .clk
  | 0x4003 => some .time
  | 0x4004 => some .adc
  | 0x4005 => some .filt
  | 0x4006 => some .ctrl
  | 0x4007 => some .gfm
  | 0x4008 => some .prot
  | 0x4009 => some .recd
  | 0x400A => some .scan
  | 0x400B => some .fio
  | 0x400C => some .dpx
  | 0x400D => some .net
  | 0x400E => some .cmd
  | 0x400F => some .upd
  | 0x4010 => some .fab
  | 0x4011 => some .fab
  | 0x4012 => some .fab
  | 0x4013 => some .fab
  | 0x4014 => some .pwm
  | _ => none

/-- The parts of the state beyond the registers. -/
inductive Part where
  | mem | snap | busReply | fresh | tai | ticks | log | fab | pwr | time | adc | filt | loop | gfm | prot | scan | fio
  | dpx | cmd | recd | net | upd
  deriving DecidableEq, Repr

/-- Are two states equal in a part? -/
def Part.same (p : Part) (s t : State) : Prop :=
  match p with
  | .mem => t.mem = s.mem
  | .snap => t.snap = s.snap
  | .busReply => t.busReply = s.busReply
  | .fresh => t.fresh = s.fresh
  | .tai => t.tai = s.tai
  | .ticks => t.ticks = s.ticks
  | .log => t.log = s.log
  | .fab => t.fab = s.fab
  | .pwr => t.pwr = s.pwr
  | .time => t.time = s.time
  | .adc => t.adc = s.adc
  | .filt => t.filt = s.filt
  | .loop => t.loop = s.loop
  | .gfm => t.gfm = s.gfm
  | .prot => t.prot = s.prot
  | .scan => t.scan = s.scan
  | .fio => t.fio = s.fio
  | .dpx => t.dpx = s.dpx
  | .cmd => t.cmd = s.cmd
  | .recd => t.recd = s.recd
  | .net => t.net = s.net
  | .upd => t.upd = s.upd

/-- What a change may touch: parts, the registers of blocks, or any register. -/
structure Foot where
  parts : List Part := []
  blocks : List Block := []
  anyReg : Bool := false
  deriving DecidableEq, Repr

/-- All else is as before: the other parts, every register outside the blocks, and the queue of waiting commands. -/
structure Keeps (f : Foot) (s t : State) : Prop where
  pending : t.pending = s.pending
  parts : ∀ p, p ∉ f.parts → p.same s t
  regs : f.anyReg = false → ∀ a, (∀ b, blockAt a = some b → b ∉ f.blocks) → rd t a = rd s a

/-- What a write on the bus may touch, by the 64 KiB window of its address: the block's registers and parts, the reply, and
the event of a denied access (R43). A write that resets the part touches all that a reset does not keep; a write outside
the register map touches memory. -/
def windowFoot (k : Nat) : Foot :=
  match k with
  | 0x4000 => ⟨[.snap, .busReply, .fresh, .log, .fab, .pwr, .time, .adc, .filt, .loop, .gfm, .prot, .scan, .fio, .dpx,
      .cmd, .recd, .net, .upd], [.sys, .pwr, .prot, .dpx, .net, .cmd, .upd, .pwm], true⟩
  | 0x4001 => ⟨[.snap, .busReply, .log, .pwr], [.sys, .pwr, .cmd], false⟩
  | 0x4002 => ⟨[.busReply, .log, .time], [.clk, .time, .cmd], false⟩
  | 0x4003 => ⟨[.snap, .busReply, .tai, .log, .time, .adc, .filt, .loop, .gfm, .scan, .recd, .upd], [.sys, .time, .adc,
      .ctrl, .gfm, .recd, .fio, .cmd], false⟩
  | 0x4004 => ⟨[.busReply, .log, .adc], [.adc, .cmd, .pwm], false⟩
  | 0x4005 => ⟨[.busReply, .log, .filt], [.filt, .cmd], false⟩
  | 0x4006 => ⟨[.busReply, .log, .loop, .gfm], [.ctrl, .gfm, .fio, .dpx, .cmd], false⟩
  | 0x4007 => ⟨[.busReply, .log, .loop, .gfm], [.gfm, .fio, .dpx, .cmd], false⟩
  | 0x4008 => ⟨[.busReply, .log, .loop, .prot, .recd], [.prot, .cmd, .pwm], false⟩
  | 0x4009 => ⟨[.busReply, .log, .cmd, .recd], [.recd, .cmd], false⟩
  | 0x400A => ⟨[.busReply, .log, .scan], [.scan, .dpx, .cmd], false⟩
  | 0x400B => ⟨[.busReply, .log, .fio], [.fio, .dpx, .cmd], false⟩
  | 0x400C => ⟨[.snap, .busReply, .log, .loop, .dpx, .cmd], [.sys, .dpx, .cmd, .pwm], false⟩
  | 0x400D => ⟨[.snap, .busReply, .log, .net], [.sys, .net, .cmd], false⟩
  | 0x400E => ⟨[.mem, .busReply, .log, .cmd], [.cmd], false⟩
  | 0x400F => ⟨[.busReply, .log], [.cmd, .upd], false⟩
  | 0x4010 => ⟨[.busReply, .log, .fab], [.cmd, .fab], false⟩
  | 0x4011 => ⟨[.busReply, .log, .fab], [.cmd, .fab], false⟩
  | 0x4012 => ⟨[.busReply, .log, .fab], [.cmd, .fab], false⟩
  | 0x4013 => ⟨[.busReply, .log, .fab], [.cmd, .fab], false⟩
  | 0x4014 => ⟨[.busReply, .log, .loop, .recd], [.ctrl, .dpx, .cmd, .pwm], false⟩
  | _ => ⟨[.mem, .busReply, .log], [.cmd], false⟩

/-- What a bus read may touch (R43, R49, R50). -/
def readFoot : Foot := ⟨[.snap, .busReply, .log], [.sys, .cmd], false⟩

/-! ### What each command may touch -/

/-- A request served on a channel: the reply, its event, a frame of TRDP that opens channels, and the mailbox. -/
def serveFoot : Foot := ⟨[.mem, .log, .dpx, .cmd, .net], [.dpx, .net, .cmd], false⟩

/-- A frame boundary (R36, R37): what falls due at it in every block, and the settings and clock words it applies. -/
def boundaryFoot : Foot := ⟨[.tai, .ticks, .log, .fab, .time, .adc, .filt, .loop, .gfm, .prot, .scan, .fio,
  .dpx, .cmd, .recd, .net, .upd], [.clk, .time, .adc, .filt, .ctrl, .gfm, .prot, .recd, .scan, .fio, .dpx, .net,
  .cmd, .upd, .fab, .pwm], true⟩

/-- A reset (Table 3.4): all that it does not keep. -/
def resetFoot : Foot := ⟨[.snap, .busReply, .fresh, .log, .fab, .pwr, .time, .adc, .filt, .loop, .gfm, .prot,
  .scan, .fio, .dpx, .cmd, .recd, .net, .upd], [.sys, .pwr, .prot, .dpx, .net, .cmd, .upd, .pwm], true⟩

/-- A start: every block it brings up. -/
def startFoot : Foot := ⟨[.mem, .snap, .busReply, .fresh, .tai, .ticks, .log, .fab, .pwr, .time, .adc, .filt,
  .loop, .gfm, .prot, .scan, .fio, .dpx, .cmd, .recd, .net, .upd], [.sys, .pwr, .clk, .time, .adc, .filt, .ctrl,
  .gfm, .prot, .recd, .scan, .fio, .dpx, .net, .cmd, .upd, .fab, .pwm], true⟩

/-- A change of duplex role: control, grid forming, protection, scan and time follow it. -/
def roleFoot : Foot := ⟨[.log, .loop, .gfm, .scan, .dpx, .net], [.gfm, .scan, .fio, .dpx, .net, .cmd, .pwm],
  false⟩

/-- A millisecond of evaluation of a grid-forming stage. -/
def lineFoot : Foot := ⟨[.fresh, .tai, .ticks, .log, .loop, .gfm], [.ctrl, .gfm, .fio, .cmd], false⟩

/-- Any write on the bus, and the replies of a served request. -/
def anyFoot : Foot := ⟨[.mem, .snap, .busReply, .fresh, .tai, .log, .fab, .pwr, .time, .adc, .filt, .loop, .gfm,
  .prot, .scan, .fio, .dpx, .cmd, .recd, .net, .upd], [.sys, .pwr, .clk, .time, .adc, .filt, .ctrl, .gfm, .prot,
  .recd, .scan, .fio, .dpx, .net, .cmd, .upd, .fab, .pwm], true⟩

/-- What a command may touch. -/
def touches (i : Instr) : Foot :=
  match i with
  | .registerWrite _ _ a _ => windowFoot (a.toNat / 0x10000)
  | .snapshotRead _ _ => ⟨[.snap, .busReply, .log], [.sys, .cmd], false⟩
  | .highWordRead _ _ => ⟨[.snap, .busReply, .log], [.sys, .cmd], false⟩
  | .lowWordWrite _ a _ => windowFoot (a.toNat / 0x10000)
  | .highWordWrite _ a _ => windowFoot (a.toNat / 0x10000)
  | .fieldLinkFrame _ => ⟨[.log, .fio], [.fio, .cmd], false⟩
  | .tripStrobe _ _ => ⟨[.log, .fio], [.fio, .cmd], false⟩
  | .routeWord _ _ _ _ _ _ _ _ _ => ⟨[.log, .fab], [.cmd], false⟩
  | .frameBoundary _ _ _ _ => boundaryFoot
  | .inputImagePublication _ _ => ⟨[.fresh, .tai, .ticks, .log, .loop, .gfm, .scan, .recd], [.gfm, .scan, .fio, .cmd],
      false⟩
  | .fabIndGo _ _ _ => windowFoot 0x4010
  | .indirectAccessDone _ => ⟨[.fab], [.fab], false⟩
  | .mirrorFrameOpen => boundaryFoot
  | .groupSwapped => boundaryFoot
  | .shadowSlot _ _ => ⟨[.fab], [], false⟩
  | .tileRetired _ => boundaryFoot
  | .checkNow _ _ _ => windowFoot 0x4010
  | .coldStart _ _ => startFoot
  | .warmStart _ _ _ _ => startFoot
  | .vinLow _ => ⟨[.log], [.pwr, .cmd], false⟩
  | .powerFail => ⟨[.snap, .busReply, .fresh, .tai, .ticks, .log, .fab, .pwr, .time, .adc, .filt, .loop, .gfm, .prot,
      .scan, .fio, .dpx, .cmd, .recd, .net, .upd], [.sys, .pwr, .prot, .fio, .dpx, .net, .cmd, .upd, .pwm], true⟩
  | .vinLoss => ⟨[.snap, .busReply, .fresh, .tai, .ticks, .log, .fab, .pwr, .time, .adc, .filt, .loop, .gfm, .prot,
      .scan, .fio, .dpx, .cmd, .recd, .net, .upd], [.sys, .pwr, .prot, .fio, .dpx, .net, .cmd, .upd, .pwm], true⟩
  | .sensorFault _ => ⟨[.log, .pwr], [.pwr, .cmd], false⟩
  | .sensorRetry _ => ⟨[.tai, .ticks, .pwr], [.pwr], false⟩
  | .resetN _ _ => resetFoot
  | .sysResetCtrlGo _ _ => windowFoot 0x4000
  | .watchdogExpiry => resetFoot
  | .fatalFault => resetFoot
  | .sleep _ => ⟨[.mem, .snap, .busReply, .tai, .ticks, .log, .fab, .pwr, .time, .adc, .filt, .loop, .gfm, .prot, .scan,
      .fio, .dpx, .cmd, .recd, .net, .upd], [.sys, .pwr, .prot, .recd, .scan, .fio, .dpx, .net, .cmd, .upd, .pwm],
      true⟩
  | .wake _ _ _ => startFoot
  | .rtcLoad => ⟨[.pwr], [.pwr], false⟩
  | .refLost _ _ => ⟨[.log, .time], [.clk, .time, .cmd], false⟩
  | .pllCoast _ => ⟨[.log, .time], [.clk, .time, .cmd], false⟩
  | .refRestored _ => ⟨[.tai, .ticks, .log, .time], [.clk, .time, .cmd], false⟩
  | .pllRelocked _ => ⟨[.log, .time], [.clk, .time, .cmd], false⟩
  | .refFallback => ⟨[.tai, .ticks, .time], [.clk, .time], false⟩
  | .ptpSync _ _ => ⟨[.tai, .ticks, .log, .time, .adc, .filt, .loop, .scan, .recd, .net, .upd], [.time, .recd, .net,
      .cmd], false⟩
  | .ptpAnnounce _ _ => ⟨[.log, .time, .net], [.time, .net, .cmd], false⟩
  | .timing _ _ => ⟨[.tai, .log, .time, .adc, .filt, .loop, .scan, .recd, .net, .upd], [.time, .recd, .net, .cmd],
      false⟩
  | .ppsInEdge _ => ⟨[.tai, .ticks, .log, .time, .adc, .filt, .loop, .scan, .recd, .upd], [.time, .recd, .cmd], false⟩
  | .timeSourceLost _ => ⟨[.tai, .ticks, .log, .time], [.time, .cmd], false⟩
  | .ppsOutPulse => ⟨[.tai, .ticks, .time], [], false⟩
  | .timeStepGo _ _ => windowFoot 0x4003
  | .trigArm _ _ _ => windowFoot 0x4003
  | .trigDisarm _ _ _ => windowFoot 0x4003
  | .trigFire _ => ⟨[.tai, .ticks, .log, .adc, .loop, .gfm, .recd], [.time, .adc, .ctrl, .gfm, .fio, .cmd], false⟩
  | .adcRun _ _ _ => windowFoot 0x4004
  | .adcStop _ _ _ => windowFoot 0x4004
  | .adcCal _ _ _ => windowFoot 0x4004
  | .adcCommit _ _ _ => windowFoot 0x4004
  | .adcStartEvent _ _ => ⟨[.tai, .ticks, .log, .adc], [.adc, .cmd], false⟩
  | .adcConversion _ _ => ⟨[.tai, .ticks, .log, .fab, .adc], [.adc, .cmd], false⟩
  | .adcCalDone _ _ => ⟨[.log, .adc], [.adc, .cmd], false⟩
  | .hardCmp _ => ⟨[.log, .loop, .recd], [.adc, .cmd, .pwm], false⟩
  | .bandCrossing _ _ _ => ⟨[.adc, .loop], [.pwm], false⟩
  | .deadTimeElapsed _ => ⟨[.tai, .ticks, .loop], [], false⟩
  | .deferredDecision _ => ⟨[.tai, .ticks, .loop], [], false⟩
  | .modStuck _ _ => ⟨[.log, .adc], [.adc, .filt, .cmd], false⟩
  | .filtStreamRecovered _ => ⟨[.log, .adc, .filt], [.filt, .cmd], false⟩
  | .chainOutput _ _ => ⟨[.tai, .ticks, .log, .filt], [.filt, .cmd], false⟩
  | .fastOutput _ _ => ⟨[.tai, .ticks, .log, .filt], [.filt, .cmd], false⟩
  | .filterService _ => ⟨[.filt], [], false⟩
  | .filtCfgWrite _ _ _ => windowFoot 0x4005
  | .filtRestarted _ => boundaryFoot
  | .loopSample _ _ => ⟨[.tai, .ticks, .log, .time, .loop, .gfm, .prot, .dpx, .recd], [.time, .ctrl, .gfm, .prot, .fio,
      .dpx, .cmd, .pwm], false⟩
  | .outputInstant _ => ⟨[.tai, .ticks, .loop], [.ctrl, .pwm], false⟩
  | .bandUpdate _ _ _ _ => ⟨[.tai, .ticks, .log, .loop], [.adc, .ctrl, .cmd], false⟩
  | .carrierEvent _ _ => ⟨[.tai, .ticks, .log, .adc, .loop], [.adc, .cmd, .pwm], false⟩
  | .profileStep _ => ⟨[.tai, .ticks, .loop, .gfm], [.ctrl], false⟩
  | .stageStart _ _ _ => windowFoot 0x4006
  | .stageStop _ _ _ => windowFoot 0x4006
  | .innerChange _ _ _ => windowFoot 0x4006
  | .gdfActive _ => ⟨[.log, .loop, .recd], [.cmd, .pwm], false⟩
  | .pwmBlockWrite _ _ => windowFoot 0x4014
  | .gateReleaseWrite _ _ => windowFoot 0x4014
  | .gfmStart _ _ _ => windowFoot 0x4007
  | .gfmStop _ _ _ => windowFoot 0x4007
  | .gfmAck _ _ _ => windowFoot 0x4007
  | .lineClassify _ _ => lineFoot
  | .lineDeadConfirmed _ _ => lineFoot
  | .lineLiveConfirmed _ _ => lineFoot
  | .contactorCheck _ => ⟨[.tai, .ticks, .log, .loop, .gfm], [.gfm, .fio, .cmd], false⟩
  | .slotInstant _ => ⟨[.fresh, .tai, .ticks, .log, .gfm], [.gfm, .fio, .cmd], false⟩
  | .backoffExpiry _ => ⟨[.fresh, .tai, .ticks, .log, .gfm], [.gfm, .fio, .cmd], false⟩
  | .rampComplete _ => ⟨[.tai, .ticks, .log, .loop, .gfm], [.ctrl, .gfm, .fio, .cmd], false⟩
  | .blackstartAbort _ => ⟨[.tai, .ticks, .log, .loop, .gfm], [.gfm, .fio, .cmd], false⟩
  | .syncClose _ _ => lineFoot
  | .syncTimeout _ => ⟨[.tai, .ticks, .log, .loop, .gfm], [.gfm, .fio, .cmd], false⟩
  | .limitHeld _ => ⟨[.tai, .ticks, .log, .gfm], [.cmd], false⟩
  | .limitRelease _ => ⟨[.tai, .ticks, .log, .gfm, .prot], [.gfm, .prot, .cmd], false⟩
  | .rideResume _ _ => lineFoot
  | .rideExpired _ => ⟨[.tai, .ticks, .log, .loop, .gfm], [.gfm, .fio, .cmd], false⟩
  | .gfmTimeMode _ => ⟨[.tai, .ticks, .log, .gfm], [.gfm, .cmd], false⟩
  | .phasorUpdate _ _ => ⟨[.tai, .ticks, .log, .loop, .prot, .recd], [.prot, .cmd, .pwm], false⟩
  | .protOperate _ _ _ => ⟨[.tai, .ticks, .log, .loop, .prot, .recd], [.prot, .cmd, .pwm], false⟩
  | .fast50p _ _ _ _ => ⟨[.log, .loop, .prot, .recd], [.prot, .cmd, .pwm], false⟩
  | .freqTrack _ => ⟨[.prot], [.prot], false⟩
  | .thermalUpdate _ => ⟨[.tai, .ticks, .log, .prot, .recd], [.prot, .cmd], false⟩
  | .thermalSave => ⟨[.tai, .ticks, .prot], [], false⟩
  | .lmdArmed => ⟨[.tai, .ticks, .log, .prot], [.prot, .cmd], false⟩
  | .lmdNoFeeder => ⟨[.tai, .ticks, .log, .prot], [.cmd], false⟩
  | .bkrRetrip _ => ⟨[.tai, .ticks, .log, .prot], [.cmd], false⟩
  | .bkrFail _ => ⟨[.tai, .ticks, .log, .loop, .prot, .recd], [.prot, .cmd, .pwm], false⟩
  | .tripCommandEnd _ => ⟨[.tai, .ticks, .loop, .prot], [.prot], false⟩
  | .bkrDiscrepancy _ => ⟨[.tai, .ticks, .log, .prot], [.prot, .cmd], false⟩
  | .tcAlarm _ => ⟨[.tai, .ticks, .log, .prot], [.prot, .cmd], false⟩
  | .tcRestored _ => ⟨[.tai, .ticks, .log, .prot], [.prot, .cmd], false⟩
  | .unit32Operate _ => ⟨[.tai, .ticks, .log, .loop, .prot, .recd], [.cmd, .pwm], false⟩
  | .recCtrlArm _ _ => windowFoot 0x4009
  | .recCtrlDisarm _ _ => windowFoot 0x4009
  | .recCtrlTrigger _ _ => windowFoot 0x4009
  | .captureSample _ => ⟨[.fresh, .tai, .ticks, .log, .cmd, .recd], [.recd, .cmd], false⟩
  | .storedRow _ => ⟨[.fresh, .tai, .ticks, .log, .cmd, .recd], [.recd, .cmd], false⟩
  | .levelTrigger _ _ => ⟨[.fresh, .tai, .ticks, .log, .cmd, .recd], [.recd, .cmd], false⟩
  | .recMaskViolation _ _ => ⟨[.fresh, .tai, .ticks, .log, .cmd, .recd], [.recd, .cmd], false⟩
  | .binaryChange _ _ => ⟨[.tai, .ticks, .log, .recd], [.recd, .cmd], false⟩
  | .recTriggered _ => ⟨[.fresh, .tai, .ticks, .log, .cmd, .recd], [.recd, .cmd], false⟩
  | .recClosed => ⟨[.tai, .ticks, .log, .cmd, .recd], [.recd, .cmd], false⟩
  | .recStored => ⟨[.log, .cmd, .recd], [.recd, .cmd], false⟩
  | .recRearm => ⟨[.log, .recd], [.recd, .cmd], false⟩
  | .taskRelease _ _ => ⟨[.tai, .ticks, .log, .scan], [.scan, .cmd], false⟩
  | .cycleStart _ _ => ⟨[.tai, .ticks, .scan], [], false⟩
  | .cycleComplete _ _ _ _ => ⟨[.snap, .busReply, .tai, .ticks, .log, .fab, .pwr, .time, .adc, .filt, .loop, .gfm,
      .prot, .scan, .fio, .dpx, .cmd, .recd, .net, .upd], [.pwr, .prot, .recd, .scan, .fio, .dpx, .net, .cmd, .upd,
      .pwm], true⟩
  | .scanTrap _ _ _ => ⟨[.snap, .busReply, .tai, .ticks, .log, .fab, .pwr, .time, .adc, .filt, .loop, .gfm, .prot,
      .scan, .fio, .dpx, .cmd, .recd, .net, .upd], [.pwr, .prot, .recd, .scan, .fio, .dpx, .net, .cmd, .upd, .pwm],
      true⟩
  | .scanRun _ _ _ => windowFoot 0x400A
  | .scanStop _ _ _ => windowFoot 0x400A
  | .scanHold _ _ _ => windowFoot 0x400A
  | .scanStep _ _ _ => windowFoot 0x400A
  | .holdEnded _ => ⟨[.tai, .ticks, .log, .scan], [.scan, .cmd], false⟩
  | .retainCommit => ⟨[.tai, .ticks, .scan, .dpx], [], false⟩
  | .scanAutostart _ => ⟨[.log, .scan], [.scan, .cmd], false⟩
  | .progSwap _ => ⟨[.tai, .ticks, .log, .scan, .cmd, .upd], [.scan, .cmd, .upd], false⟩
  | .remoteSet _ _ _ => ⟨[.log, .scan], [.scan, .cmd], false⟩
  | .remoteStale _ _ => ⟨[.tai, .ticks, .log, .scan], [.scan, .cmd], false⟩
  | .diSample _ => ⟨[.tai, .ticks, .scan, .fio], [.fio], false⟩
  | .doOverload _ _ => ⟨[.log, .fio], [.fio, .cmd], false⟩
  | .doRetry _ => ⟨[.tai, .ticks, .fio], [.fio], false⟩
  | .doOverloadRelease _ _ _ => windowFoot 0x400B
  | .demagExcess _ _ => ⟨[.log, .fio], [.fio, .cmd], false⟩
  | .doMonitor _ _ => ⟨[.log, .fio], [.fio, .cmd], false⟩
  | .fieldLow _ _ => ⟨[.log, .fio], [.fio, .cmd], false⟩
  | .fieldLost _ _ => ⟨[.log, .fio], [.fio, .cmd], false⟩
  | .fieldRestored _ _ => ⟨[.log, .fio], [.fio, .cmd], false⟩
  | .fieldAck _ _ _ => windowFoot 0x400B
  | .groupKill _ _ _ _ => windowFoot 0x400B
  | .strobeMismatch _ => ⟨[.log, .fio], [.fio, .cmd], false⟩
  | .tripShort _ => ⟨[.fresh, .log, .fio], [.fio, .cmd], false⟩
  | .tripOvertime _ => ⟨[.fresh, .log, .fio], [.fio, .cmd], false⟩
  | .tripCooldownEnd _ => ⟨[.tai, .ticks, .log, .fio], [.fio, .cmd], false⟩
  | .vtripLow _ => ⟨[.log, .fio], [.fio, .cmd], false⟩
  | .tripSupervision _ _ => ⟨[.tai, .ticks], [.fio], false⟩
  | .tripExtDrive _ _ => ⟨[.log, .fio], [.fio, .cmd], false⟩
  | .safeStateEntered => ⟨[.tai, .ticks, .log, .fio], [.fio, .cmd], false⟩
  | .safeStateLeft => ⟨[.log, .fio], [.fio, .cmd], false⟩
  | .heartbeat _ _ => roleFoot
  | .heartbeatSend _ => ⟨[.tai, .ticks, .log, .loop, .scan, .dpx], [.scan, .dpx, .cmd, .pwm], false⟩
  | .pathDown _ => ⟨[.tai, .ticks, .log, .dpx], [.dpx, .cmd], false⟩
  | .pathUp _ _ => roleFoot
  | .partnerLost => ⟨[.tai, .ticks, .log, .dpx, .net], [.dpx, .net, .cmd], false⟩
  | .mirror _ _ => ⟨[.log, .dpx, .net], [.dpx, .net, .cmd], false⟩
  | .mirrorGfm _ _ => ⟨[.log, .gfm, .dpx, .net], [.gfm, .dpx, .net, .cmd], false⟩
  | .retain _ _ => ⟨[.log, .scan, .dpx, .net], [.dpx, .net, .cmd], false⟩
  | .dying _ _ => ⟨[.log, .loop, .gfm, .scan, .dpx, .net], [.gfm, .fio, .dpx, .net, .cmd, .pwm], false⟩
  | .switch _ _ => ⟨[.log, .dpx, .net], [.dpx, .net, .cmd], false⟩
  | .switchAck _ _ => ⟨[.log, .dpx, .net], [.dpx, .net, .cmd], false⟩
  | .switchCancel _ _ => ⟨[.log, .dpx, .net], [.dpx, .net, .cmd], false⟩
  | .syncReq _ _ => ⟨[.log, .dpx, .net], [.dpx, .net, .cmd], false⟩
  | .syncData _ _ => ⟨[.tai, .log, .time, .adc, .filt, .loop, .gfm, .prot, .scan, .fio, .dpx, .cmd, .recd, .net, .upd],
      [.clk, .time, .adc, .filt, .ctrl, .gfm, .prot, .recd, .scan, .fio, .dpx, .net, .cmd, .upd, .pwm], true⟩
  | .settings _ _ _ => ⟨[.log, .dpx, .net], [.dpx, .net, .cmd], false⟩
  | .listenTimeout => ⟨[.tai, .ticks, .log, .dpx, .net], [.net, .cmd], false⟩
  | .probe _ _ => ⟨[.log, .loop, .scan, .dpx, .net], [.scan, .dpx, .net, .cmd, .pwm], false⟩
  | .probeReply _ => roleFoot
  | .probeTimeout => ⟨[.tai, .ticks, .log, .loop, .gfm, .scan, .dpx], [.gfm, .fio, .dpx, .cmd, .pwm], false⟩
  | .releaseTimer => ⟨[.tai, .ticks, .log, .loop, .scan], [.scan, .dpx, .cmd, .pwm], false⟩
  | .degradedProbe => ⟨[.tai, .ticks, .log, .dpx, .net], [.net, .cmd], false⟩
  | .dpxSwitch _ _ => windowFoot 0x400C
  | .dpxCancel _ _ => windowFoot 0x400C
  | .switchDeadline => ⟨[.tai, .ticks, .log, .scan, .dpx, .cmd], [.dpx, .cmd], false⟩
  | .switchInstant => ⟨[.tai, .ticks, .log, .loop, .gfm, .scan, .dpx, .cmd], [.gfm, .scan, .fio, .dpx, .cmd, .pwm],
      false⟩
  | .syncDone => ⟨[.log], [.dpx, .cmd], false⟩
  | .digestUpdate => ⟨[.tai, .ticks, .log, .dpx], [.dpx, .cmd], false⟩
  | .syncReqRetry => ⟨[.tai, .ticks, .dpx], [], false⟩
  | .linkUp _ _ => ⟨[.log], [.net, .cmd], false⟩
  | .linkDown _ => ⟨[.log, .net], [.net, .cmd], false⟩
  | .prpLanLost _ => ⟨[.tai, .ticks, .log], [.net, .cmd], false⟩
  | .prpLanRestored _ => ⟨[.log], [.net, .cmd], false⟩
  | .pdPublish _ => ⟨[.tai, .ticks, .log, .net], [.net, .cmd], false⟩
  | .pdTimeout _ => ⟨[.tai, .ticks, .log, .scan, .net], [.cmd], false⟩
  | .canBusOff _ _ => ⟨[.log], [.net, .cmd], false⟩
  | .canRecovery _ => ⟨[], [.net], false⟩
  | .mvbLineFail _ => ⟨[.log], [.net, .cmd], false⟩
  | .modbusTimeout _ => ⟨[.log, .net], [.cmd], false⟩
  | .tlsHandshake _ _ => ⟨[.log, .cmd], [.cmd], false⟩
  | .fiArm _ _ _ => windowFoot 0x400D
  | .fiDisarm _ _ _ => windowFoot 0x400D
  | .fiStart _ => ⟨[.tai, .ticks], [.net], false⟩
  | .fiFrame _ _ _ _ => ⟨[.log, .net], [.net, .cmd], false⟩
  | .fiRelease _ => ⟨[.tai, .ticks, .log, .net], [.net, .cmd], false⟩
  | .cmdDoorbell _ _ => windowFoot 0x400E
  | .chanReset _ _ => windowFoot 0x400E
  | .channelIdle _ => ⟨[.tai, .ticks, .log, .cmd], [.cmd], false⟩
  | .identify _ => serveFoot
  | .readRegs _ _ _ => ⟨[.mem, .snap, .log, .dpx, .cmd, .net], [.sys, .dpx, .net, .cmd], false⟩
  | .writeRegs _ _ _ => anyFoot
  | .opStatus _ => serveFoot
  | .opList _ => serveFoot
  | .opSuspend _ => serveFoot
  | .opResume _ => serveFoot
  | .opCancel _ => ⟨[.mem, .fresh, .log, .fab, .scan, .dpx, .cmd, .recd, .net, .upd], [.recd, .scan, .dpx, .net, .cmd,
      .fab], false⟩
  | .opRelease _ => serveFoot
  | .opEnded _ => ⟨[.fresh, .log, .cmd, .recd], [.cmd], false⟩
  | .opExpired _ => ⟨[.tai, .ticks, .cmd], [.cmd], false⟩
  | .eventRead _ _ _ _ _ => serveFoot
  | .evtLost => ⟨[.log], [.cmd], false⟩
  | .settingsRead _ _ _ => serveFoot
  | .settingsWrite _ _ => ⟨[.mem, .log, .dpx, .cmd, .net, .upd], [.dpx, .net, .cmd, .upd], false⟩
  | .reset _ _ => ⟨[.mem, .snap, .busReply, .fresh, .log, .fab, .pwr, .time, .adc, .filt, .loop, .gfm, .prot, .scan,
      .fio, .dpx, .cmd, .recd, .net, .upd], [.sys, .pwr, .prot, .dpx, .net, .cmd, .upd, .pwm], true⟩
  | .forceSet _ _ _ _ _ => ⟨[.mem, .log, .scan, .dpx, .cmd, .net], [.scan, .dpx, .net, .cmd], false⟩
  | .forceClear _ _ _ => ⟨[.mem, .log, .scan, .dpx, .cmd, .net], [.scan, .dpx, .net, .cmd], false⟩
  | .forceList _ => serveFoot
  | .scanCtrl _ _ _ => ⟨[.mem, .log, .scan, .dpx, .cmd, .net], [.scan, .dpx, .net, .cmd], false⟩
  | .recArm _ => ⟨[.mem, .fresh, .log, .dpx, .cmd, .recd, .net], [.recd, .dpx, .net, .cmd], false⟩
  | .recDisarm _ => ⟨[.mem, .log, .dpx, .cmd, .recd, .net], [.recd, .dpx, .net, .cmd], false⟩
  | .recTrigger _ => ⟨[.mem, .log, .dpx, .cmd, .recd, .net], [.dpx, .net, .cmd], false⟩
  | .recList _ => serveFoot
  | .recLock _ _ => ⟨[.mem, .log, .dpx, .cmd, .recd, .net], [.dpx, .net, .cmd], false⟩
  | .recUnlock _ _ => ⟨[.mem, .log, .dpx, .cmd, .recd, .net], [.dpx, .net, .cmd], false⟩
  | .recDelete _ _ => ⟨[.mem, .log, .dpx, .cmd, .recd, .net], [.recd, .dpx, .net, .cmd], false⟩
  | .recExport _ _ => ⟨[.mem, .fresh, .log, .dpx, .cmd, .net], [.dpx, .net, .cmd], false⟩
  | .fileRead _ _ _ _ _ => serveFoot
  | .imageBegin _ _ _ _ => ⟨[.mem, .fresh, .log, .dpx, .cmd, .net, .upd], [.dpx, .net, .cmd, .upd], false⟩
  | .imageData _ _ _ _ _ => ⟨[.mem, .log, .dpx, .cmd, .net, .upd], [.dpx, .net, .cmd, .upd], false⟩
  | .imageVerify _ _ => ⟨[.mem, .fresh, .log, .dpx, .cmd, .net], [.dpx, .net, .cmd], false⟩
  | .imageActivate _ _ _ => ⟨[.mem, .snap, .busReply, .fresh, .log, .fab, .pwr, .time, .adc, .filt, .loop, .gfm, .prot,
      .scan, .fio, .dpx, .cmd, .recd, .net, .upd], [.sys, .pwr, .prot, .scan, .dpx, .net, .cmd, .upd, .fab, .pwm],
      true⟩
  | .imageConfirm _ _ => ⟨[.mem, .log, .dpx, .cmd, .net, .upd], [.dpx, .net, .cmd, .upd], false⟩
  | .imageAbandon _ _ => ⟨[.mem, .snap, .busReply, .fresh, .log, .fab, .pwr, .time, .adc, .filt, .loop, .gfm, .prot,
      .scan, .fio, .dpx, .cmd, .recd, .net, .upd], [.sys, .pwr, .prot, .scan, .dpx, .net, .cmd, .upd, .fab, .pwm],
      true⟩
  | .switchover _ => ⟨[.mem, .fresh, .log, .dpx, .cmd, .net], [.dpx, .net, .cmd], false⟩
  | .serviceState _ _ => ⟨[.mem, .fresh, .log, .prot, .scan, .dpx, .cmd, .net, .upd], [.prot, .dpx, .net, .cmd, .upd],
      false⟩
  | .canFrameReceived _ _ _ => ⟨[.log, .scan, .net], [.scan, .net, .cmd], false⟩
  | .mvbMasterFrame _ _ => ⟨[.log, .scan, .net], [.scan, .net, .cmd], false⟩
  | .modbusFrameReceived _ _ => ⟨[.log, .scan, .net], [.scan, .net, .cmd], false⟩
  | .evtSel _ _ => windowFoot 0x400E
  | .settingsApplied => ⟨[.tai, .ticks, .log, .time, .adc, .filt, .loop, .gfm, .prot, .scan, .fio, .cmd, .recd, .net,
      .upd], [.clk, .time, .adc, .filt, .ctrl, .gfm, .prot, .recd, .scan, .fio, .dpx, .net, .cmd, .pwm], true⟩
  | .imageVerified => ⟨[.log, .cmd, .upd], [.cmd, .upd], false⟩
  | .supervisorRestart => ⟨[.snap, .busReply, .fresh, .tai, .ticks, .log, .fab, .pwr, .time, .adc, .filt, .loop, .gfm,
      .prot, .scan, .fio, .dpx, .cmd, .recd, .net, .upd], [.sys, .pwr, .clk, .time, .adc, .filt, .ctrl, .gfm, .prot,
      .recd, .scan, .fio, .dpx, .net, .cmd, .upd, .fab, .pwm], true⟩
  | .trialExpired => ⟨[.snap, .busReply, .fresh, .tai, .ticks, .log, .fab, .pwr, .time, .adc, .filt, .loop, .gfm, .prot,
      .scan, .fio, .dpx, .cmd, .recd, .net, .upd], [.sys, .pwr, .prot, .scan, .dpx, .net, .cmd, .upd, .fab, .pwm],
      true⟩
  | .deferredRevert => resetFoot
  | .commissioningEnd => ⟨[.tai, .ticks, .log, .net, .upd], [.prot, .net, .cmd, .upd], false⟩
  | .gdfInactive _ => ⟨[.loop], [.pwm], false⟩
  | .hardLiveCleared _ => ⟨[], [.adc, .pwm], false⟩
  | .compareMatch _ _ => ⟨[.tai, .ticks, .loop], [], false⟩
  | .vinLowCleared _ => ⟨[], [.pwr], false⟩
  | .vtripRestored _ => ⟨[], [.fio], false⟩
  | .fieldLowCleared _ _ => ⟨[], [.fio], false⟩
  | .sessionClosed _ => ⟨[.log, .cmd], [.cmd], false⟩
  | .canTxCycle _ _ => ⟨[.net], [], false⟩
  | .modbusPoll _ => ⟨[.net], [], false⟩

/-! ### Events, accesses and registers -/

/-- The event log gained exactly these events (code, source, argument), stamped with the time after the change (R420). -/
def Logged (es : List (Nat × Nat × Word)) (s t : State) : Prop :=
  t.log = { s.log with
    queue := s.log.queue ++ es.map (fun e => ⟨now t, BitVec.ofNat 16 e.1, BitVec.ofNat 16 e.2.1, e.2.2⟩) }

/-- Among the events logged is one with this code, source and argument. -/
def Raises (code src : Nat) (arg : Word) (s t : State) : Prop :=
  ∃ es, t.log.queue = s.log.queue ++ es ∧
    ∃ e ∈ es, e.code = BitVec.ofNat 16 code ∧ e.src = BitVec.ofNat 16 src ∧ e.arg = arg

/-- The logger's queue has room for `n` more events (R420). -/
abbrev Room (n : Nat) (s : State) : Prop := s.log.queue.length + n ≤ 256

/-- The field die has these events to tell, each code, source and argument: the log gains them while the link runs; while it is silent
they wait (R17). -/
def Told (es : List (Nat × Nat × Nat)) (s t : State) : Prop :=
  if s.fio.linkOn then Logged (es.map (fun e => (e.1, e.2.1, BitVec.ofNat 32 e.2.2))) s t
  else t.log = s.log ∧ t.fio.unsaid = s.fio.unsaid ++ es

/-- Among the events of the field die, told or waiting, is this one. -/
def Tells (code src arg : Nat) (s t : State) : Prop :=
  if s.fio.linkOn then Raises code src (BitVec.ofNat 32 arg) s t
  else ∃ es, t.fio.unsaid = s.fio.unsaid ++ es ∧ (code, src, arg) ∈ es

/-- An access of `n` bytes at `a` by master `m` is served: the part is out of reset (R408), and the master reaches the first
and the last byte (R43). -/
abbrev Served (m : Fin 8) (write : Bool) (a n : Nat) (s : State) : Prop :=
  dieRuns s = true ∧ reaches s m write a = true ∧ reaches s m write (a + n - 1) = true

/-- May the 64-bit register at `a` be written: not the target of an armed trigger (R128), nor the start of a locked unit (R405)? -/
abbrev wideWritable (a : Nat) (s : State) : Prop :=
  (∀ n : Fin 8, a = Reg.TIME_TRIG_TARGET n → trigState s n ≠ trigArmed) ∧
    ∀ u : Fin 10, a = Reg.NET_FI_START u → fiLocked s u = false

/-- Every register outside the list is as before. -/
def OnlyRegs (rs : List Nat) (s t : State) : Prop := ∀ a, a ∉ rs → rd t a = rd s a

/-- A frame that arrives at a fault-injection unit now goes on at once and unchanged: it has not been held before, and the unit is
not ACTIVE on received frames and holds none (R403). -/
abbrev Clear (u : Fin 10) (s : State) : Prop := s.net.past = false ∧ fiQuiet s u = true

/-- A request by message data on a TRDP channel comes by an ETH port whose unit lets it pass; one on any other channel meets no
unit (R404, R407). -/
abbrev ClearChan (q : ReqHeader) (s : State) : Prop := 5 ≤ q.chan.val → Clear (portUnit q.port) s

/-! ### Measurements of time (R112, R121 to R125) -/

/-- Does the servo use a measurement of a source: does no disciplined PLL coast, and is the source the first valid one listed, or, of a
grandmaster, PPS_IN (R112, R115)? -/
def uses (src : Fin 5) (s : State) : Bool :=
  let s' := { s with time := { s.time with valid := s.time.valid.set src true } }
  !pllCoasts s && (if timeState s = timeGrandmaster then src == 4 else selectSource s' == src.val)

/-- The servo as a measurement of a source meets it: a change of source forgets the candidates, and the first measurement of a
source, or one in HOLDOVER, is judged against 0 (R112, R123). -/
def servoFor (src : Fin 5) (s : State) : ServoState :=
  let v := if timeSource s = src.val then s.time.servo
    else { s.time.servo with fresh := true, cand := none, candCount := 0 }
  if timeState s = timeHoldover ∨ v.fresh then { v with pred := 0 } else v

/-- What a measurement does: offset `th` in quarter ns, interval `ts` in 0.5 ms. It keeps its source alive. Of a source not used it
leaves the servo as it is. Used and within the jump limit, it sets the integral part, the correction, clamped to the slew
limit, and the prediction (R122); beyond the limit it is a candidate (R123). In UNSET it sets the counter to the nearest
millisecond (R126). -/
structure Measured (src : Fin 5) (th : Int) (ts : Nat) (s t : State) : Prop where
  alive : t.time.valid[src] = true ∧ t.time.marks[src] = some ⟨localNs s, th, ts⟩
  idle : uses src s = false → t.time.servo = s.time.servo ∧ timeState t = timeState s ∧ t.tai = s.tai
  source : uses src s = true → timeSource t = src.val
  taken : uses src s = true → timeState s ≠ timeUnset →
    (th * 16384000 - (servoFor src s).pred).natAbs ≤ jumpLimit s * 65536000 →
    let i := if 4000 < th.natAbs then s.time.servo.i
      else s.time.servo.i + fld s Reg.TIME_SERVO_CFG F.TIME_SERVO_CFG_ki * th * 4000 / ts
    let y := clampI (slewLimit s) (if 4000 < th.natAbs then s.time.servo.i + th * 16384000 / ts
      else i + fld s Reg.TIME_SERVO_CFG F.TIME_SERVO_CFG_kp * th * 64000 / ts)
    t.time.servo.i = i ∧ t.time.servo.y = y ∧ t.time.servo.pred = th * 16384000 - y * ts ∧ t.time.servo.fresh = false ∧
      t.tai = s.tai
  candidate : uses src s = true → timeState s ≠ timeUnset →
    jumpLimit s * 65536000 < (th * 16384000 - (servoFor src s).pred).natAbs → (servoFor src s).candCount + 1 < confirmCount s →
    t.time.servo.i = s.time.servo.i ∧ t.time.servo.y = s.time.servo.y ∧ t.time.servo.cand = some (th * 16384000) ∧
      timeState t = timeState s ∧ t.tai = s.tai
  first : uses src s = true → timeState s = timeUnset →
    t.tai = s.tai + BitVec.ofInt 66 (nearest th 4000000 * 4000000) ∧ timeState t = timeSlewing

/-! ### Frame boundaries (R36) -/

/-- The millisecond of the next boundary: a whole one, now or ahead, later than the boundary last taken (R32, R111). -/
def nextMs (s : State) : Nat :=
  let here := (s.tai.toNat + 3999999) / 4000000
  match s.time.lastBoundary with | none => here | some l => max here (l + 1)

/-- At the next boundary the filter chains meet nothing but their own restarts: no structure change and no settings are due, the
counter has not been moved, and the clocks, enables and delays written are those in force (R105, R151, R168). -/
structure OnlyRestarts (s : State) : Prop where
  structure' : s.fab.change = none
  settings : s.upd.settingsDue = [] ∧ s.dpx.settings = none
  moved : s.filt.stepMs = 0
  clocks : ∀ m : Fin 6, (s.time.mclk[m]).val = mclkCode (rd s Reg.CLK_MCLK_DIV) m
  inputs : ∀ i : Fin 24, s.adc.mods[i].en = decide (fld s (Reg.ADC_MOD_CFG i) F.ADC_MOD_CFG_en = 1) ∧
    s.adc.mods[i].delay = fld s (Reg.ADC_MOD_CFG i) F.ADC_MOD_CFG_delay

/-! ### Black start (R240, R241) -/

/-- What an awaited instant `i` does to a stage in WAIT_SLOT once it has come (rows 4 to 7 and 32 of Table 8.4): a line no longer
dead is left, a dead one taken by closing the contactor or, where that is closed already, by ramping; where neither may be, another
instant is awaited. -/
structure SlotTaken (g : Fin 2) (i : BitVec 64) (s t : State) : Prop where
  come : i.toNat ≤ nowNat t
  leaves : lineDead s g = false → gState t g = (if contClosed s g then gJoin else gLineCheck)
  closes : lineDead s g = true → contClosed s g = false → permitDead s g = true →
    gState t g = gClosingDead ∧ contClosed t g = true ∧
      Logged [(0x5001, 2 * g.val, 0x203), (0x5003, 2 * g.val, i.extractLsb' 0 32)] s t
  ramps : lineDead s g = true → contClosed s g = true → vdcOk s g = true →
    gState t g = gRamping ∧ contClosed t g = true ∧ (t.gfm.stages[g]).order = some .blackStart ∧
      Logged [(0x5001, 2 * g.val, 0x204), (0x5003, 2 * g.val, i.extractLsb' 0 32)] s t
  waits : lineDead s g = true → (if contClosed s g then vdcOk s g else permitDead s g) = false →
    gState t g = gWaitSlot ∧ contClosed t g = contClosed s g ∧ attemptOf t g = attemptOf s g ∧
      ∃ j b, (t.gfm.stages[g]).slot = some (j, b) ∧ rd64 t (Reg.GFM_SLOT (2 * g)) = j

/-! ### Starts (R91, R92, R96) -/

/-- What a start needs, beside being asked for, to reach ready: a part that passes its self-test and the check of STAKE, that is
not RETURNED and not called to recovery (R438, R443, R445), no activation, trial or migration left open (R437, R440), and a boot
stage, a full pitch image and a firmware that pass (Table 2.4). -/
structure Bootable (p : StartPins) (s : State) : Prop where
  selfTest : p.selfTestOk = true
  stake : stakeOk s = true
  kept : lifecycle s ≠ 2
  boots : s.upd.failedBoots < 3
  recovery : p.bootRec = false
  settled : ∀ k : Fin 4, kindState s k = .normal
  noTrial : s.upd.trialDue = 0 ∧ s.upd.migrateFail = false
  boot : ∃ h, s.upd.boot = some h ∧ headFault 3 h s = none
  pitch : ∃ x, s.upd.pitch[(s.upd.journal[0]).active] = some x ∧ x.image.full = true ∧ pitchCheck x.image s = none
  firmware : ∃ f, s.upd.firmware[(s.upd.journal[2]).active] = some f ∧ headFault 2 f.head s = none

/-- A start of a kind has completed: SYS_STATUS shows ready, phase 5 and the kind; FAULT_N is released and the count of failed
boots is 0 (R89, R91, R438). -/
structure Started (kind : Nat) (t : State) : Prop where
  phase : t.pwr.phase = .running
  ready : ready t = true
  shown : fld t Reg.SYS_STATUS F.SYS_STATUS_phase = 5 ∧ fld t Reg.SYS_STATUS F.SYS_STATUS_start_kind = kind
  faultN : t.pwr.faultLow = false
  boots : t.upd.failedBoots = 0

/-- A reset of Table 3.4 by a cause: its bit of SYS_RESET_CAUSE joins those set (R86), the part is held with FAULT_N low (R89) and asks for the kind of start,
the logger's queue is in the log, and every register is at its reset value but those that outlive a reset. -/
structure ResetBy (bit : Nat) (warm : Bool) (s t : State) : Prop where
  phase : t.pwr.phase = .held
  kind : t.pwr.askWarm = warm
  faultN : t.pwr.faultLow = true
  cause : rd t Reg.SYS_RESET_CAUSE = rd s Reg.SYS_RESET_CAUSE ||| (1#32 <<< bit)
  events : t.log.queue = []
  regs : ∀ a, keptReg a = false → rd t a = resetWord a
  kept : t.mem = s.mem ∧ t.fab.repair = s.fab.repair ∧ t.fab.tileMem = s.fab.tileMem

/-! ### Requests of the command service (chapter 15) -/

/-- A request of Table 15.3: its header, its opcode, and whether it always depends on the role. -/
structure Request where
  header : ReqHeader
  code : Nat
  role : Bool

/-- The request that a command carries. -/
def requestOf : Instr → Option Request
  | .identify q => some ⟨q, 0x01, false⟩
  | .readRegs q _ _ => some ⟨q, 0x02, false⟩
  | .writeRegs q _ _ => some ⟨q, 0x03, false⟩
  | .opStatus q => some ⟨q, 0x10, false⟩
  | .opList q => some ⟨q, 0x11, false⟩
  | .opSuspend q => some ⟨q, 0x12, false⟩
  | .opResume q => some ⟨q, 0x13, false⟩
  | .opCancel q => some ⟨q, 0x14, false⟩
  | .opRelease q => some ⟨q, 0x15, false⟩
  | .eventRead q _ _ _ _ => some ⟨q, 0x20, false⟩
  | .settingsRead q _ _ => some ⟨q, 0x30, false⟩
  | .settingsWrite q _ => some ⟨q, 0x31, true⟩
  | .reset q _ => some ⟨q, 0x40, false⟩
  | .sleep q => some ⟨q, 0x41, false⟩
  | .forceSet q _ _ _ _ => some ⟨q, 0x50, false⟩
  | .forceClear q _ _ => some ⟨q, 0x51, false⟩
  | .forceList q => some ⟨q, 0x52, false⟩
  | .scanCtrl q _ _ => some ⟨q, 0x58, true⟩
  | .recArm q => some ⟨q, 0x60, false⟩
  | .recDisarm q => some ⟨q, 0x61, false⟩
  | .recTrigger q => some ⟨q, 0x62, false⟩
  | .recList q => some ⟨q, 0x63, false⟩
  | .recLock q _ => some ⟨q, 0x64, false⟩
  | .recUnlock q _ => some ⟨q, 0x65, false⟩
  | .recDelete q _ => some ⟨q, 0x66, false⟩
  | .recExport q _ => some ⟨q, 0x67, false⟩
  | .fileRead q _ _ _ _ => some ⟨q, 0x68, false⟩
  | .imageBegin q _ _ _ => some ⟨q, 0x70, false⟩
  | .imageData q _ _ _ _ => some ⟨q, 0x71, false⟩
  | .imageVerify q _ => some ⟨q, 0x72, false⟩
  | .imageActivate q _ _ => some ⟨q, 0x73, false⟩
  | .imageConfirm q _ => some ⟨q, 0x74, false⟩
  | .imageAbandon q _ => some ⟨q, 0x75, false⟩
  | .switchover q => some ⟨q, 0x80, true⟩
  | .serviceState q _ => some ⟨q, 0x90, false⟩
  | _ => none

/-- A request on a network channel of a running part, let in by its port's unit, that passes checks 1 to 3, with a right payload and
reserved bits of 0 (R412). -/
structure Accepted (q : ReqHeader) (s : State) : Prop where
  network : q.chan ≠ 0
  clear : ClearChan q s
  running : s.pwr.phase = .running
  taken : takesRequest s q.chan = true
  length : q.lengthOk = true
  crc : q.crcOk = true
  fresh : seqCheck s.cmd.channels[q.chan] q.seq = .fresh
  payload : q.payloadOk = true
  reserved : q.reservedOk = true

/-- The state in which an accepted request takes effect: its channel is open and has just had a request. -/
def opened (q : ReqHeader) (s : State) : State :=
  setChannel q.chan { s.cmd.channels[q.chan] with isOpen := true, lastAt := localNs s } s

/-- The channel has sent and stored this reply (R411, R413). -/
def Replied (q : ReqHeader) (code : Nat) (handle : Word) (status : Nat) (result : List Word) (t : State) : Prop :=
  let r : Reply := { opcode := code, handle := handle, epoch := ownEpoch t, seq := q.seq, status := status, result := result }
  (t.cmd.channels[q.chan]).sent = some r ∧ (t.cmd.channels[q.chan]).stored = some r ∧
    (t.cmd.channels[q.chan]).lastSeq = some q.seq

/-! ### What every step keeps -/

/-- Registers, memory and tile memory are in canonical form, and the event log is within its bounds: a queue of 256 and
4,096 retained entries (R420). -/
structure Sound (s : State) : Prop where
  regs : swf resetWord s.regs = true
  mem : Memory.wf s.mem = true
  tileMem : swf tileDefault s.fab.tileMem = true
  queue : s.log.queue.length ≤ 256
  entries : s.log.entries.length ≤ 4096

end Sys2Proof.Safety
end

