-- ==== Sys2Proof/Certificates/Slice0/Obligations.lean ====
section
/-! DEFINITION. The statements for the provers: the step, the bus, and family by family what every command does. -/

open Sys2Proof Sys2Proof.Machine Sys2Proof.Safety

/-- A step with a command at the front of the queue of waiting commands is that command's effect on the state whose queue is
the rest. -/
def Obligations.StepRunsFrontCommand : Prop :=
  ∀ (c : Instr) (rest : List Instr) (s : State), step { s with pending := c :: rest } = exec c { s with pending := rest }

/-- On an empty queue of commands (log entry 8: the model's choice): where a fault-injection unit has released a frame, the command that
frame stands for is carried out; else, with nothing to send in an egress queue, one tick of the 800 MHz timebase passes. The
counter and the local time move on by 1.25 ns; the logger moves its oldest queued event to the end of the log, which keeps
the newest 4,096 entries (R420), and sets CMD_IRQ.event where that interrupt is enabled (R421); nothing else changes. -/
def Obligations.IdleTick : Prop :=
  ∀ s : State, s.pending = [] →
    (∀ i rest, s.net.arrived = i :: rest → step s = exec i (setNet { s.net with arrived := rest, past := true } s)) ∧
    (s.net.arrived = [] → nextQueue s 0 = none → nextQueue s 1 = none → s.log.entries.length ≤ 4096 →
      ∃ t, step s = .next t ∧ t.tai = s.tai + 5 ∧ t.ticks = s.ticks + 1 ∧
        (∀ p, p ∉ [Part.tai, Part.ticks, Part.log] → p.same s t) ∧
        match s.log.queue with
        | [] => t.log = s.log ∧ OnlyRegs [] s t
        | e :: q =>
          t.log.queue = q ∧ t.log.next = s.log.next + 1 ∧
          t.log.entries = (s.log.entries ++ [e]).drop (s.log.entries.length + 1 - 4096) ∧
          OnlyRegs [Reg.CMD_IRQ] s t ∧
          rd t Reg.CMD_IRQ = if fbit s Reg.CMD_IRQ_EN F.CMD_IRQ_EN_en 2 then putF (rd s Reg.CMD_IRQ) F.CMD_IRQ_event 1
            else rd s Reg.CMD_IRQ)

/-- After reset the registers, memory and tile memory are in canonical form and the event log is within its bounds. -/
def Obligations.ResetSound : Prop := Sound State.reset

/-- Whatever the state and whatever commands wait, a step from a sound state reaches a sound state: registers, memory and tile
memory stay in canonical form, the logger's queue holds at most 256 events and the log at most 4,096 entries (R420). -/
def Obligations.StepKeepsSound : Prop := ∀ s t : State, Sound s → step s = .next t → Sound t

/-- Every command, in every state, answers a next state; no command stops the block, and none changes the queue of waiting
commands. -/
def Obligations.EveryCommandAnswers : Prop :=
  ∀ (c : Instr) (s : State), ∃ t, exec c s = .next t ∧ t.pending = s.pending

/-- The frame of every command: the parts of the state and the register blocks outside its footprint `touches c` are as before,
and so is the queue of waiting commands. -/
def Obligations.CommandFootprint : Prop := ∀ (c : Instr) (s t : State), exec c s = .next t → Keeps (touches c) s t

/-- Every byte of memory reads as before after any command but a register write on the bus, an opcode (whose reply may stand
in the mailbox), a start, or SLEEP. -/
def Obligations.MemoryUntouched : Prop :=
  ∀ (c : Instr) (s t : State), Part.mem ∉ (touches c).parts → exec c s = .next t → ∀ a, memByte t a = memByte s a

/-- The table of operations and events gives no row bits, so no word spells a command, and placing one changes nothing. -/
def Obligations.NoWordSpellsACommand : Prop :=
  ∀ (n w : Nat) (s : State), decodeTableWord n w = none ∧ s.withFetchWord n w = s

/-- After reset a register of each block holds the reset value that its heading in the spec gives. -/
def Obligations.ResetValues : Prop :=
  [(0x40100000, 0x00001000), (0x4010013C, 0x00FF00F0), (0x40100140, 0x00FF02F0), (0x40130200, 0x00010000),
    (0x40010004, 0x00000003), (0x40020010, 0x00111111), (0x40030008, 0x00000100), (0x40030014, 0x52404064),
    (0x400401C8, 0x000007D0), (0x40040124, 0x80000000), (0x40040280, 0x00000FFF), (0x40050120, 0x00000501),
    (0x40060110, 0x00000064), (0x4006012C, 0x000004B0), (0x40070000, 0x00000200), (0x40070100, 0x00C00514),
    (0x40080008, 0x0000C350), (0x40081010, 0x0000000A), (0x4009000C, 0x00004E20), (0x400B000C, 0x0000000A),
    (0x400B013C, 0x0000000A), (0x400C0004, 0x4064003C), (0x400C000C, 0x0000FFFF), (0x400D0220, 0x00010001),
    (0x400E0104, 0x00000007), (0x400F0040, 0x00000258)].all (fun p => rd State.reset p.1 == BitVec.ofNat 32 p.2) = true

/-- R10. A register access the master may make, of another width than a word or not word-aligned, answers a bus error and changes
nothing: as a write, and as a read through either read command. -/
def Obligations.WrongWidthIsBusError : Prop :=
  ∀ (m : Fin 8) (w : AccWidth) (a : BitVec 32) (v same : Word) (early : Bool) (s : State),
    busRegion a.toNat = some .registers → (w ≠ .word ∨ a.toNat % 4 ≠ 0) →
    (Served m true a.toNat (accBytes w) s → exec (.registerWrite m w a ⟨v, same⟩) s = .next { s with busReply := .error }) ∧
    (Served m false a.toNat (accBytes w) s →
      exec (.snapshotRead m ⟨w, a, early⟩) s = .next { s with busReply := .error } ∧
      exec (.highWordRead m ⟨w, a, early⟩) s = .next { s with busReply := .error })

/-- R43. An access of which the first or the last byte lies outside the regions a master reaches, or in no region, by a write or a
read of any width, in a part out of reset: the reply is a bus error, BUS_DENIED is logged with the master and the address, and
nothing else changes. An address in no region is outside every master's, and so is a write of a scan core into the TIME window. -/
def Obligations.DeniedAccess : Prop :=
  ∀ (m : Fin 8) (w : AccWidth) (a : BitVec 32) (v same : Word) (early : Bool) (s : State), dieRuns s = true → Room 1 s →
    (reaches s m true a.toNat = false ∨ reaches s m true (a.toNat + accBytes w - 1) = false →
      ∃ t, exec (.registerWrite m w a ⟨v, same⟩) s = .next t ∧ t.busReply = .error ∧
        Logged [(0x1101, m, a)] s t ∧ OnlyRegs [] s t ∧ ∀ p, p ∉ [Part.busReply, Part.log] → p.same s t) ∧
    (busRegion a.toNat = none → reaches s m true a.toNat = false ∧ reaches s m false a.toNat = false) ∧
    ((m = 4 ∨ m = 5) → a.toNat / 0x10000 = 0x4003 → reaches s m true a.toNat = false) ∧
    (reaches s m false a.toNat = false ∨ reaches s m false (a.toNat + accBytes w - 1) = false →
      ∀ c, c = .snapshotRead m ⟨w, a, early⟩ ∨ c = .highWordRead m ⟨w, a, early⟩ →
      ∃ t, exec c s = .next t ∧ t.busReply = .error ∧
        Logged [(0x1101, m, a)] s t ∧ OnlyRegs [] s t ∧ ∀ p, p ∉ [Part.busReply, Part.log] → p.same s t)

/-- A served, aligned word access of a peripheral window at an offset without a register: a read answers 0, a write is done,
and nothing changes. The windows of the mailbox are memory and are left out. -/
def Obligations.NoRegisterThere : Prop :=
  ∀ (m : Fin 8) (a : BitVec 32) (v same : Word) (early : Bool) (s : State), busRegion a.toNat = some .registers →
    a.toNat % 4 = 0 → inMailbox a.toNat = false → findReg (canonReg a.toNat) = none →
    (Served m true a.toNat 4 s → exec (.registerWrite m .word a ⟨v, same⟩) s = .next { s with busReply := .done }) ∧
    (Served m false a.toNat 4 s → exec (.snapshotRead m ⟨.word, a, early⟩) s = .next { s with busReply := .data 0 })

/-- SNAPSHOT_READ at the low word of a 64-bit register answers the live low word and loads the master's buffer with the
register's address and its whole live value, whatever the buffer held; the other masters' buffers and all else are as before.
A read that the SPI host clocks early is left out (R460: it answers 0, as HighWordRead says). -/
def Obligations.SnapshotRead : Prop :=
  ∀ (m : Fin 8) (a : BitVec 32) (early : Bool) (s : State) (r : RegSpec), busRegion a.toNat = some .registers →
    a.toNat % 4 = 0 → inMailbox a.toNat = false → Served m false a.toNat 4 s → findReg (canonReg a.toNat) = some r →
    r.wide = true → r.isHigh (canonReg a.toNat) = false → (early = false ∨ m ≠ 6) →
    exec (.snapshotRead m ⟨.word, a, early⟩) s = .next { s with
      busReply := .data ((liveWide s (canonReg a.toNat)).extractLsb' 0 32)
      snap := s.snap.set m (.read (canonReg a.toNat) (liveWide s (canonReg a.toNat))) }

/-- R50. HIGH_WORD_READ at the high word of a 64-bit register: where the master's buffer holds a snapshot of that register, whichever
of its addresses was read, the reply is the buffered high word and the buffer is emptied; otherwise the reply is the live high
word, the buffer stays, and the master's bit of SYS_SNAP_MISS.snap_miss is set. R460: a served read of any word of register space
that the SPI host clocks before t_RAD, through either read command, answers 0 and has no side effect. -/
def Obligations.HighWordRead : Prop :=
  (∀ (a : BitVec 32) (s : State), busRegion a.toNat = some .registers → a.toNat % 4 = 0 → Served 6 false a.toNat 4 s →
    ∀ c, c = .snapshotRead 6 ⟨.word, a, true⟩ ∨ c = .highWordRead 6 ⟨.word, a, true⟩ →
      exec c s = .next { s with busReply := .data 0 }) ∧
  ∀ (m : Fin 8) (a : BitVec 32) (early : Bool) (s : State) (r : RegSpec), busRegion a.toNat = some .registers →
    a.toNat % 4 = 0 → inMailbox a.toNat = false → Served m false a.toNat 4 s → findReg (canonReg a.toNat) = some r →
    r.wide = true → r.isHigh (canonReg a.toNat) = true → (early = false ∨ m ≠ 6) →
    (∀ v, s.snap[m] = .read (canonReg a.toNat - 4) v → exec (.highWordRead m ⟨.word, a, early⟩) s =
      .next { s with busReply := .data (v.extractLsb' 32 32), snap := s.snap.set m .empty }) ∧
    ((∀ v, s.snap[m] ≠ .read (canonReg a.toNat - 4) v) → ∃ t, exec (.highWordRead m ⟨.word, a, early⟩) s = .next t ∧
      t.busReply = .data ((liveWide s (canonReg a.toNat - 4)).extractLsb' 32 32) ∧ t.snap = s.snap ∧
      fbit t Reg.SYS_SNAP_MISS F.SYS_SNAP_MISS_snap_miss m = true ∧
      (∀ i < 8, i ≠ m.val → fbit t Reg.SYS_SNAP_MISS F.SYS_SNAP_MISS_snap_miss i =
        fbit s Reg.SYS_SNAP_MISS F.SYS_SNAP_MISS_snap_miss i) ∧
      fld t Reg.SYS_SNAP_MISS F.SYS_SNAP_MISS_stage_miss = fld s Reg.SYS_SNAP_MISS F.SYS_SNAP_MISS_stage_miss ∧
      OnlyRegs [Reg.SYS_SNAP_MISS] s t ∧ ∀ p, p ≠ Part.busReply → p.same s t)

/-- A served word write of a 64-bit register. Low word, high half RW: held in the master's buffer without effect; high half RO:
ignored and not held. High word, high half RW: with the low word held for this register, both halves commit at once and the
buffer is emptied; without, the high half commits beside the live low half and the master's stage_miss bit sets. High word, high
half RO: done, and nothing changes. An armed trigger's target and the start of a locked fault-injection unit take no write. -/
def Obligations.WideWrite : Prop :=
  ∀ (m : Fin 8) (a : BitVec 32) (v : Word) (s : State) (r : RegSpec), busRegion a.toNat = some .registers →
    a.toNat % 4 = 0 → inMailbox a.toNat = false → Served m true a.toNat 4 s → findReg (canonReg a.toNat) = some r →
    r.wide = true →
    (r.isHigh (canonReg a.toNat) = false →
      exec (.lowWordWrite m a v) s = .next (if r.hiRW
        then { s with busReply := .done, snap := s.snap.set m (.held (canonReg a.toNat) v) }
        else { s with busReply := .done })) ∧
    (r.isHigh (canonReg a.toNat) = true → r.hiRW = false →
      exec (.highWordWrite m a v) s = .next { s with busReply := .done }) ∧
    (r.isHigh (canonReg a.toNat) = true → r.hiRW = true →
      (∀ lo, s.snap[m] = .held (canonReg a.toNat - 4) lo → ∃ t, exec (.highWordWrite m a v) s = .next t ∧
        t.busReply = .done ∧ t.snap = s.snap.set m .empty ∧
        OnlyRegs [canonReg a.toNat - 4, canonReg a.toNat, Reg.NET_STATUS] s t ∧
        (wideWritable (canonReg a.toNat - 4) s → rd64 t (canonReg a.toNat - 4) = (v ++ lo) &&& BitVec.ofNat 64 r.rw)) ∧
      ((∀ lo, s.snap[m] ≠ .held (canonReg a.toNat - 4) lo) → ∃ t, exec (.highWordWrite m a v) s = .next t ∧
        t.busReply = .done ∧ t.snap = s.snap ∧ fbit t Reg.SYS_SNAP_MISS F.SYS_SNAP_MISS_stage_miss m = true ∧
        OnlyRegs [canonReg a.toNat - 4, canonReg a.toNat, Reg.NET_STATUS, Reg.SYS_SNAP_MISS] s t ∧
        (wideWritable (canonReg a.toNat - 4) s → rd64 t (canonReg a.toNat - 4) =
          (v ++ (liveWide s (canonReg a.toNat - 4)).extractLsb' 0 32) &&& BitVec.ofNat 64 r.rw)))

/-- R11 to R13. A served word write of a 32-bit register whose write starts no action of its own (here: the plain registers of SYS, PWR, DPX
and UPD): each RW bit takes the written bit, each RWL bit takes it until the loaded image locks the field, each W1C bit clears
where 1 is written unless hardware sets it in the same cycle (`same`), every other bit (RO, reserved, or locked) keeps its
value; the write completes without bus error and no other register changes. -/
def Obligations.AccessCodes : Prop :=
  ∀ (m : Fin 8) (a : BitVec 32) (v same : Word) (s : State) (r : RegSpec), Served m true a.toNat 4 s →
    a.toNat / 0x10000 ∈ [0x4000, 0x4001, 0x400C, 0x400F] → a.toNat % 4 = 0 → findReg a.toNat = some r → r.wide = false →
    a.toNat ∉ [Reg.SYS_RESET_CTRL, Reg.PWR_SENSOR, Reg.DPX_CFG, Reg.DPX_CMD, Reg.UPD_TRIAL_CFG] →
    ∃ t, exec (.registerWrite m .word a ⟨v, same⟩) s = .next t ∧ t.busReply = .done ∧ OnlyRegs [a.toNat] s t ∧
      (∀ p, p ≠ Part.busReply → p.same s t) ∧
      ∀ i < 32, (rd t a.toNat).getLsbD i =
        if (r.half a.toNat r.w1c).getLsbD i then (rd s a.toNat).getLsbD i && !(v.getLsbD i && !same.getLsbD i)
        else if (r.half a.toNat r.rw).getLsbD i then v.getLsbD i
        else if (r.half a.toNat r.rwl).getLsbD i ∧ lockedAt s a.toNat = false then v.getLsbD i
        else (rd s a.toNat).getLsbD i

/-- R44 to R46. A served write of memory outside register space, of 1, 2, 4 or 8 bytes: byte i of the stored bytes, at the physical
address behind the address written plus i, is byte i of the operand (a double word's high half is the second operand); every
other byte and every register is as before. ROM takes no write. A served word read answers the four bytes from the physical
address, the first in bits 7 to 0, a byte read that byte, and each changes only the reply; the fabric repair record, whose
layout no rule gives (log entry 80), is left out. A word that a scan core writes through a live alias stands at the same
offset of the bank that SCAN_STATE of that core marks live, code at the code alias and data at the data alias. -/
def Obligations.MemoryAccess : Prop :=
  (∀ (m : Fin 8) (w : AccWidth) (a : BitVec 32) (v hi : Word) (s : State), Served m true a.toNat (accBytes w) s →
    busRegion a.toNat ≠ some .registers →
    ∃ t, exec (.registerWrite m w a ⟨v, hi⟩) s = .next t ∧ t.busReply = .done ∧ OnlyRegs [] s t ∧
      (∀ p, p ∉ [Part.busReply, Part.mem] → p.same s t) ∧
      (∀ i < accBytes w, 0x20000 ≤ physical s m a.toNat →
        memByte t (physical s m a.toNat + i) = (hi ++ v).extractLsb' (8 * i) 8) ∧
      (∀ b, (b < physical s m a.toNat ∨ physical s m a.toNat + accBytes w ≤ b) → memByte t b = memByte s b) ∧
      (physical s m a.toNat < 0x20000 → t.mem = s.mem)) ∧
  (∀ (m : Fin 8) (a : BitVec 32) (early : Bool) (s : State), busRegion a.toNat ≠ some .registers →
    0x20000 ≤ physical s m a.toNat →
    (Served m false a.toNat 4 s → (∀ i < 4, inRepair (physical s m a.toNat + i) = false) →
      ∀ c, c = .snapshotRead m ⟨.word, a, early⟩ ∨ c = .highWordRead m ⟨.word, a, early⟩ →
        ∃ w : Word, exec c s = .next { s with busReply := .data w } ∧
          ∀ i < 4, w.extractLsb' (8 * i) 8 = memByte s (physical s m a.toNat + i)) ∧
    (Served m false a.toNat 1 s → inRepair (physical s m a.toNat) = false →
      exec (.snapshotRead m ⟨.byte, a, early⟩) s =
        .next { s with busReply := .data ((memByte s (physical s m a.toNat)).setWidth 32) })) ∧
  ∀ (k : Fin 2) (o : Nat) (v same : Word) (s : State), dieRuns s = true → o + 4 ≤ 0x20000 →
    (∃ t, exec (.registerWrite (if k = 0 then 4 else 5) .word (BitVec.ofNat 32 (0x20200000 + o)) ⟨v, same⟩) s = .next t ∧
      memWord t (0x20000000 + k * 0x80000 + fld s (Reg.SCAN_STATE k) F.SCAN_STATE_code_live * 0x20000 + o) = v) ∧
    (∃ t, exec (.registerWrite (if k = 0 then 4 else 5) .word (BitVec.ofNat 32 (0x20240000 + o)) ⟨v, same⟩) s = .next t ∧
      memWord t (0x20040000 + k * 0x80000 + fld s (Reg.SCAN_STATE k) F.SCAN_STATE_data_live * 0x20000 + o) = v)

/-- R29. ROUTE_WORD: the destination tile's last word of the route is this word with its sideband, FAULT set as well where the parity
does not match; a word that is not VALID leaves the words held (R163). The mismatch is logged as RIDGE_PARITY with the tile as
source and the route as argument; every other route's word, every register and every other part is as before. R25: for each
data word exactly one value of the four parity bits matches. -/
def Obligations.RouteWord : Prop :=
  (∀ d : Word, ∃ p : BitVec 4, ∀ q : BitVec 4, parityOk d q = true ↔ q = p) ∧
  ∀ (c : Fin 4) (i : Fin 17) (route : BitVec 16) (d : Word) (v u h f : Bool) (parity : BitVec 4) (s : State), Room 1 s →
    ∃ t, exec (.routeWord c i route d v u h f parity) s = .next t ∧ OnlyRegs [] s t ∧
      (v = true →
        (∀ w, (tileCode c i, route.toNat, w) ∈ t.fab.inbox ↔ w = ⟨d, true, u, h, f || !parityOk d parity⟩) ∧
        ∀ e : Nat × Nat × RidgeWord, (e.1 ≠ tileCode c i ∨ e.2.1 ≠ route.toNat) → (e ∈ t.fab.inbox ↔ e ∈ s.fab.inbox)) ∧
      (v = false → t.fab = s.fab) ∧ { t.fab with inbox := s.fab.inbox } = s.fab ∧
      Logged (if parityOk d parity then [] else [(0x1102, tileCode c i, BitVec.ofNat 32 route.toNat)]) s t ∧
      (∀ p, p ∉ [Part.fab, Part.log] → p.same s t)

/-- R47, R77. FAB_IND_GO with an idle port, a tile index of at most 16, a defined space, a word within it, and no refused write:
busy sets and the access is in flight as it was issued, with tile, resolved space, word and the data of a write; a wrong or
refused access (log entry 74 for the wrong ones) sets err and starts nothing; a busy port ignores go. INDIRECT_ACCESS_DONE of an access in flight: busy clears, a write
stores its data at the word addressed and at no other, a read puts that word into FAB_IND_DATA; with none in flight nothing happens. -/
def Obligations.IndirectAccess : Prop :=
  (∀ (m : Fin 8) (c : Fin 4) (v : Word) (s : State), Served m true (Reg.FAB_IND_CTRL c) 4 s →
    let i := fld s (Reg.FAB_IND_ADDR c) F.FAB_IND_ADDR_tile
    let sp := fld s (Reg.FAB_IND_ADDR c) F.FAB_IND_ADDR_space
    let w := fld s (Reg.FAB_IND_ADDR c) F.FAB_IND_ADDR_word
    let write := getF v F.FAB_IND_CTRL_write = 1
    let wrong := 16 < i ∨ sp = 3 ∨ (sp ≠ 0 ∧ 1024 ≤ w) ∨ (write ∧ indRefused s c i sp = true)
    ∃ t, exec (.fabIndGo m c v) s = .next t ∧ t.busReply = .done ∧ OnlyRegs [Reg.FAB_IND_CTRL c] s t ∧
      t.fab.tileMem = s.fab.tileMem ∧
      (flg s (Reg.FAB_IND_CTRL c) F.FAB_IND_CTRL_busy = true →
        t.fab = s.fab ∧ flg t (Reg.FAB_IND_CTRL c) F.FAB_IND_CTRL_busy = true) ∧
      (flg s (Reg.FAB_IND_CTRL c) F.FAB_IND_CTRL_busy = false → wrong →
        t.fab = s.fab ∧ flg t (Reg.FAB_IND_CTRL c) F.FAB_IND_CTRL_err = true ∧
        flg t (Reg.FAB_IND_CTRL c) F.FAB_IND_CTRL_busy = false) ∧
      (flg s (Reg.FAB_IND_CTRL c) F.FAB_IND_CTRL_busy = false → ¬ wrong →
        flg t (Reg.FAB_IND_CTRL c) F.FAB_IND_CTRL_busy = true ∧ (∀ d ≠ c, t.fab.ind[d] = s.fab.ind[d]) ∧
        ∃ x : IndAccess, t.fab.ind[c] = some x ∧ x.tile.val = i ∧ indSpace s c i sp = some x.space.val ∧ x.word = w ∧
          (write → x.data = some (rd s (Reg.FAB_IND_DATA c))) ∧ (¬ write → x.data = none))) ∧
  (∀ (c : Fin 4) (s : State), s.fab.ind[c] = none → exec (.indirectAccessDone c) s = .next s) ∧
  (∀ (c : Fin 4) (x : IndAccess) (s : State), s.fab.ind[c] = some x →
    let key := tileKey c x.tile x.space x.word
    ∃ t, exec (.indirectAccessDone c) s = .next t ∧ t.fab.ind[c] = none ∧
      flg t (Reg.FAB_IND_CTRL c) F.FAB_IND_CTRL_busy = false ∧
      OnlyRegs [Reg.FAB_IND_CTRL c, Reg.FAB_IND_DATA c] s t ∧
      (∀ d, x.data = some d → tileWord t key = d ∧
        rd t (Reg.FAB_IND_DATA c) = rd s (Reg.FAB_IND_DATA c) ∧ ∀ k, k ≠ key → tileWord t k = tileWord s k) ∧
      (x.data = none → rd t (Reg.FAB_IND_DATA c) = tileWord s key ∧ t.fab.tileMem = s.fab.tileMem))

/-- R70, R74. SHADOW_SLOT moves the rotation on by one of 16 and has the next index visited from the next boundary, where the
cluster has a spare. CHECK_NOW with a target of at most 16 other than the spare asks for a session at the next boundary; with the
spare's own index or one above 16 it does not. At a boundary (`sessionsAtBoundary`): a due slot of a cluster with a spare, its
check enabled and no structure change pending, starts its self-test frame; a spare that fails it is retired; the compare frame
that differs makes a relocation due; the boundary that closes an agreeing compare frame counts it as passed (`closeCompare`). -/
def Obligations.ShadowCheck : Prop :=
  (∀ (c : Fin 4) (o : ShadowOutcome) (s : State), ∃ t, exec (.shadowSlot c o) s = .next t ∧ OnlyRegs [] s t ∧
    (∀ p, p ≠ Part.fab → p.same s t) ∧ (∀ d ≠ c, t.fab.clusters[d] = s.fab.clusters[d]) ∧
    t.fab.clusters[c].rotation = (s.fab.clusters[c].rotation + 1) % 16 ∧
    t.fab.clusters[c].session = s.fab.clusters[c].session ∧ t.fab.clusters[c].relocate = s.fab.clusters[c].relocate ∧
    (∀ sp, spareOf s c = some sp →
      t.fab.clusters[c].due = some (Fin.ofNat 17 (rotationIndex sp s.fab.clusters[c].rotation), o)) ∧
    (spareOf s c = none → t.fab.clusters[c].due = none)) ∧
  (∀ (m : Fin 8) (c : Fin 4) (v : Word) (s : State), Served m true (Reg.FAB_SHADOW_CTRL c) 4 s →
    ∃ t, exec (.checkNow m c v) s = .next t ∧ t.busReply = .done ∧
      OnlyRegs [Reg.FAB_SHADOW_CTRL c, Reg.FAB_SHADOW_STATUS c, Reg.FAB_STATUS c] s t ∧
      (getF v F.FAB_SHADOW_CTRL_enable = 1 → t.fab = s.fab ∧ OnlyRegs [Reg.FAB_SHADOW_CTRL c] s t) ∧
      flg t (Reg.FAB_SHADOW_CTRL c) F.FAB_SHADOW_CTRL_check_now =
        ((decide (getF v F.FAB_SHADOW_CTRL_target ≤ 16 ∧ spareOf s c ≠ some (getF v F.FAB_SHADOW_CTRL_target))) ||
          flg s (Reg.FAB_SHADOW_CTRL c) F.FAB_SHADOW_CTRL_check_now)) ∧
  (∀ (c : Fin 4) (o : ShadowOutcome) (s : State) (sp : Nat), spareOf s c = some sp →
    (∀ d, s.fab.clusters[c].session = none → s.fab.clusters[c].due = some d → changeConcerns s c = false →
      flg s (Reg.FAB_SHADOW_CTRL c) F.FAB_SHADOW_CTRL_enable = true →
      let t := sessionsAtBoundary c o s
      (∃ x, t.fab.clusters[c].session = some x ∧ x.idx = d.1 ∧ x.phase = 1 ∧ x.out = d.2) ∧
        t.fab.clusters[c].due = none ∧ flg t (Reg.FAB_STATUS c) F.FAB_STATUS_shadow_busy = true ∧
        fld t (Reg.FAB_SHADOW_STATUS c) F.FAB_SHADOW_STATUS_phase = 1 ∧
        fld t (Reg.FAB_SHADOW_STATUS c) F.FAB_SHADOW_STATUS_cur_idx = d.1) ∧
    (∀ x, s.fab.clusters[c].session = some x → x.tile = tileWordOf s c x.idx →
      (x.phase = 1 → x.out.selfTestOk = false → s.fab.clusters[c].due = none →
        flg s (Reg.FAB_SHADOW_CTRL c) F.FAB_SHADOW_CTRL_check_now = false →
        tileState (sessionsAtBoundary c o s) c sp = tileRetired ∧
          (sessionsAtBoundary c o s).fab.clusters[c].session = none) ∧
      (x.phase = 2 → x.out.differ = true →
        (sessionsAtBoundary c o s).fab.clusters[c].relocate = some x.idx ∧
          flg (sessionsAtBoundary c o s) (Reg.FAB_STATUS c) F.FAB_STATUS_pending = true) ∧
      (x.phase = 3 → x.out.differ = false →
        (closeCompare c s).fab.clusters[c].session = none ∧
          flg (closeCompare c s) (Reg.FAB_SHADOW_STATUS c) F.FAB_SHADOW_STATUS_last_mismatch = false ∧
          fld (closeCompare c s) (Reg.FAB_SHADOW_STATUS c) F.FAB_SHADOW_STATUS_last_idx = x.idx ∧
          fld (closeCompare c s) (Reg.FAB_SHADOW_STATUS c) F.FAB_SHADOW_STATUS_passed =
            (fld s (Reg.FAB_SHADOW_STATUS c) F.FAB_SHADOW_STATUS_passed + 1) % 2 ^ F.FAB_SHADOW_STATUS_passed.w)))

/-- R32, R36, R71. FRAME_BOUNDARY, in every state and with every outcome of the sessions: the counter stands at the first tick of
its next whole millisecond, one that is later than the boundary last taken, and FAB_FRAME_COUNT, as one 64-bit number, has
counted on by 1. TILE_RETIRED with a relocation due of a cluster with a spare is that boundary too, and the cluster's repair
record names the faulty tile; with no structure change and no session under way, the faulty tile is RETIRED and without its
role, the former spare is LIVE in its role slot, and no relocation is left. -/
def Obligations.FrameBoundary : Prop :=
  (∀ (o0 o1 o2 o3 : ShadowOutcome) (s : State),
    let ms := nextMs s
    4000000 * ms + 5 ≤ 2 ^ 66 →
    ∃ t, exec (.frameBoundary o0 o1 o2 o3) s = .next t ∧ 4000000 * ms ≤ t.tai.toNat ∧ t.tai.toNat < 4000000 * ms + 5 ∧
      t.time.lastBoundary = some ms ∧ rd64 t Reg.FAB_FRAME_COUNT = rd64 s Reg.FAB_FRAME_COUNT + 1) ∧
  (∀ (c : Fin 4) (i : Fin 17) (sp : Nat) (s : State), s.fab.clusters[c].relocate = some i → spareOf s c = some sp →
    ∃ t, exec (.tileRetired c) s = .next t ∧ rd64 t Reg.FAB_FRAME_COUNT = rd64 s Reg.FAB_FRAME_COUNT + 1 ∧
      (c, i) ∈ t.fab.repair ∧
      (s.fab.change = none → sp ≠ i.val → s.fab.clusters[c].session = none → s.fab.clusters[c].due = none →
        flg s (Reg.FAB_SHADOW_CTRL c) F.FAB_SHADOW_CTRL_check_now = false →
        tileState t c i = tileRetired ∧ fld t (Reg.FAB_TILE c i) F.FAB_TILE_slot = 0xFF ∧
        tileState t c sp = tileLive ∧ fld t (Reg.FAB_TILE c sp) F.FAB_TILE_slot = fld s (Reg.FAB_TILE c i) F.FAB_TILE_slot ∧
        t.fab.clusters[c].relocate = none))

/-- R66. With a change accepted and its contexts written, and its common swap point, where it has one (Table 16.3), no more than a
frame away, MIRROR_FRAME_OPEN is the boundary at which the mirror frame opens. With the mirror frame open, GROUP_SWAPPED is the boundary
at which the change takes effect: none is pending after it, and FAB_IMAGE_ID is the image's build_id. Both count a frame. -/
def Obligations.StructureChange : Prop :=
  (∀ (s : State) (ch : StructChange), s.fab.change = some ch → ch.phase = .contextsWritten →
    (∀ n t, ch.opSlot = some n → pairedSwap s n = some t → t ≤ nowNat (reachBoundary s) + 1000000) →
    ∃ t, exec .mirrorFrameOpen s = .next t ∧ t.fab.change = some { ch with phase := .mirror } ∧
      rd64 t Reg.FAB_FRAME_COUNT = rd64 s Reg.FAB_FRAME_COUNT + 1) ∧
  (∀ (s : State) (ch : StructChange), s.fab.change = some ch → ch.phase = .mirror →
    ∃ t, exec .groupSwapped s = .next t ∧ t.fab.change = none ∧ rd t Reg.FAB_IMAGE_ID = ch.image.buildId ∧
      rd64 t Reg.FAB_FRAME_COUNT = rd64 s Reg.FAB_FRAME_COUNT + 1)

/-- R79, R97. VIN_LOW shows the value and sets vin_low and vin_low_seen, and is logged where vin_low was not yet set;
VIN_LOW_CLEARED shows the value and clears vin_low alone. RTC_LOAD with time locked puts TIME_NOW into PWR_RTC and marks it
valid; with time not locked it does nothing.
R81. SENSOR_FAULT of a rail that is on turns it off and is logged with the count of failures in a row; a failure within 30 ms of
a turn-on counts on, any other begins at 1; while the count is at most 3 the rail waits for a retry, and at 4 it is latched off.
SENSOR_RETRY of a waiting, enabled rail turns it on again, one second after the turn-off at the earliest. -/
def Obligations.Supply : Prop :=
  (∀ (cv : BitVec 16) (s : State), flg s Reg.PWR_STATUS F.PWR_STATUS_vin_low = false → Room 1 s →
    ∃ t, exec (.vinLow cv) s = .next t ∧ OnlyRegs [Reg.PWR_STATUS] s t ∧ rd t Reg.PWR_STATUS =
        putF (putF (putF (rd s Reg.PWR_STATUS) F.PWR_STATUS_vin cv.toNat) F.PWR_STATUS_vin_low 1) F.PWR_STATUS_vin_low_seen 1 ∧
      Logged [(0x1301, 0, BitVec.ofNat 32 cv.toNat)] s t) ∧
  (∀ (cv : BitVec 16) (s : State), flg s Reg.PWR_STATUS F.PWR_STATUS_vin_low = true →
    ∃ t, exec (.vinLow cv) s = .next t ∧ OnlyRegs [Reg.PWR_STATUS] s t ∧ t.log = s.log ∧
      rd t Reg.PWR_STATUS = putF (rd s Reg.PWR_STATUS) F.PWR_STATUS_vin cv.toNat) ∧
  (∀ (cv : BitVec 16) (s : State), ∃ t, exec (.vinLowCleared cv) s = .next t ∧ OnlyRegs [Reg.PWR_STATUS] s t ∧
    t.log = s.log ∧ rd t Reg.PWR_STATUS = putF (putF (rd s Reg.PWR_STATUS) F.PWR_STATUS_vin cv.toNat) F.PWR_STATUS_vin_low 0) ∧
  (∀ s : State, timeIsLocked s = true → ∃ t, exec .rtcLoad s = .next t ∧
    OnlyRegs [Reg.PWR_RTC, Reg.PWR_RTC + 4, Reg.PWR_STATUS] s t ∧ rd64 t Reg.PWR_RTC = now s ∧
    rd t Reg.PWR_STATUS = putF (rd s Reg.PWR_STATUS) F.PWR_STATUS_rtc_valid 1 ∧ t.pwr = { s.pwr with rtcAt := localNs s } ∧
    t.tai = s.tai ∧ t.log = s.log) ∧
  (∀ s : State, timeIsLocked s = false → exec .rtcLoad s = .next s) ∧
  (∀ (five : Bool) (n : Fin 2) (s : State), n = (if five then 1 else 0) → (railOf s n).isOn = true → Room 1 s →
    let k := if localNs s ≤ (railOf s n).onAt + 30000000 then (railOf s n).retries + 1 else 1
    ∃ t, exec (.sensorFault five) s = .next t ∧ (railOf t n).isOn = false ∧ (railOf t n).retries = k ∧
      ((railOf t n).waiting = true ↔ k ≤ 3) ∧ (railOf t (1 - n)) = railOf s (1 - n) ∧
      fbit t Reg.PWR_SENSOR F.PWR_SENSOR_good n = false ∧
      fbit t Reg.PWR_SENSOR F.PWR_SENSOR_latched n = (decide (4 ≤ k) || fbit s Reg.PWR_SENSOR F.PWR_SENSOR_latched n) ∧
      OnlyRegs [Reg.PWR_SENSOR] s t ∧ Logged [(0x1305, n, BitVec.ofNat 32 k)] s t) ∧
  (∀ (five : Bool) (s : State), (railOf s (if five then 1 else 0)).isOn = false → exec (.sensorFault five) s = .next s) ∧
  (∀ (five : Bool) (n : Fin 2) (s : State), n = (if five then 1 else 0) → (railOf s n).waiting = true →
    railEnabled s n = true →
    ∃ t, exec (.sensorRetry five) s = .next t ∧ (railOf t n).isOn = true ∧ (railOf t n).retries = (railOf s n).retries ∧
      (railOf t (1 - n)) = railOf s (1 - n) ∧ fbit t Reg.PWR_SENSOR F.PWR_SENSOR_good n = true ∧
      (railOf s n).offAt + 1000000000 ≤ localNs t ∧ OnlyRegs [Reg.PWR_SENSOR] s t ∧ t.log = s.log)

/-- R86, R87, Table 3.4. Of a part out of reset, RESET_N of at least 10 µs, or of 1 µs to 10 µs where the qualifier takes it, resets
warm with cause bit 2; of a running part, WATCHDOG_EXPIRY resets warm with bit 4; FATAL_FAULT resets cold with bit 5, and FAULT_N
stays low until a start completes (R89); SYS_RESET_CTRL_GO with the key resets with bit 3, cold where `cold` is 1. What a reset
leaves is said by `ResetBy`. A shorter or untaken low, and a write without the key, reset nothing. -/
def Obligations.Resets : Prop :=
  (∀ (ns : Nat) (taken : Bool) (s : State), dieRuns s = true → (10000 ≤ ns ∨ (1000 ≤ ns ∧ taken = true)) →
    ∃ t, exec (.resetN ns taken) s = .next t ∧ ResetBy 2 true s t) ∧
  (∀ s : State, s.pwr.phase = .running → ∃ t, exec .watchdogExpiry s = .next t ∧ ResetBy 4 true s t) ∧
  (∀ s : State, dieRuns s = true → ∃ t, exec .fatalFault s = .next t ∧ ResetBy 5 false s t ∧ t.pwr.fatal = true) ∧
  (∀ (m : Fin 8) (v : Word) (s : State), Served m true Reg.SYS_RESET_CTRL 4 s → getF v F.SYS_RESET_CTRL_key = 0x0A5F →
    ∃ t, exec (.sysResetCtrlGo m v) s = .next t ∧ ResetBy 3 (decide (getF v F.SYS_RESET_CTRL_cold = 0)) s t) ∧
  (∀ (ns : Nat) (taken : Bool) (s : State), (ns < 1000 ∨ (ns < 10000 ∧ taken = false)) →
    exec (.resetN ns taken) s = .next s) ∧
  (∀ (m : Fin 8) (v : Word) (s : State), Served m true Reg.SYS_RESET_CTRL 4 s → getF v F.SYS_RESET_CTRL_key ≠ 0x0A5F →
    exec (.sysResetCtrlGo m v) s = .next { s with busReply := .done })

/-- R80, R468. POWER_FAIL in any phase but that of an unusable unit ends in a held part that starts cold, with cause bit 1 set,
OWNER low, and every event in the log. VIN_LOSS loses what VIN supplies: LANTERN's state, the field die's, and every register but
the calibration record and the protection counters; FAULT_N is released (R89). Within a burn of STAKE it makes the unit unusable,
and an unusable unit stays one (R445). -/
def Obligations.SupplyLoss : Prop :=
  (∀ s : State, s.pwr.phase ≠ .unusable →
    ∃ t, exec .powerFail s = .next t ∧ t.pwr.phase = .held ∧ t.pwr.askWarm = false ∧ t.pwr.faultLow = true ∧
      rd t Reg.SYS_RESET_CAUSE = rd s Reg.SYS_RESET_CAUSE ||| (1#32 <<< 1) ∧ t.loop.owner = false ∧ t.log.queue = []) ∧
  (∀ s : State, s.pwr.phase = .unusable → exec .powerFail s = .next s) ∧
  (∀ s : State, ∃ t, exec .vinLoss s = .next t ∧ t.fio = {} ∧ t.pwr.faultLow = false ∧ t.pwr.lantern = false ∧
    (∀ a, calReg a = false → (∀ f < 8, a ≠ Reg.PROT_FDR_COUNT f) → rd t a = resetWord a) ∧
    t.pwr.phase = if s.pwr.phase = .unusable ∨ localNs s < s.upd.burnUntil then .unusable else .held)

/-- R88, R91, R92, R96, R438. COLD_START of a held part that asks for a cold start, WARM_START of one that asks for a warm start, and WAKE of a
sleeping part by an enabled source: with all that a start needs (`Bootable`) the start completes (`Started`), warm only where no
condition of R88 fails, cold or as a wake start at a WAKE. A failed self-test or check of STAKE leaves the unit unusable with
FAULT_N low; else three failed boots, or BOOT_REC, lead to KINDLING, never ready. COLD_START of a unit in RELEASED resets it
first (R370). WARM_START with a condition of R88 failing sets bit 7 of SYS_RESET_CAUSE. In KINDLING the three change nothing. -/
def Obligations.Starts : Prop :=
  (∀ (p : StartPins) (cal : Vector CalSet 4) (s : State), s.pwr.phase = .held → s.pwr.askWarm = false → Bootable p s →
    ∃ t, exec (.coldStart p cal) s = .next t ∧ Started startCold t) ∧
  (∀ (p : StartPins) (cal : Vector CalSet 4) (s : State), s.pwr.phase = .running → dpxState s = dpxReleased →
    Bootable p { s with upd := { s.upd with failedBoots := 0, trialDue := 0, migrateFail := false } } →
    ∃ t, exec (.coldStart p cal) s = .next t ∧ Started startCold t) ∧
  (∀ (p : StartPins) (r h : Bool) (cal : Vector CalSet 4) (s : State), s.pwr.phase = .held → s.pwr.askWarm = true →
    Bootable p s → ∃ t, exec (.warmStart p r h cal) s = .next t ∧
      Started (if (warmFault r h s).isNone then startWarm else startCold) t) ∧
  (∀ (src : BitVec 8) (p : StartPins) (cal : Vector CalSet 4) (s : State), s.pwr.phase = .asleep → wakeEnabled src s ≠ 0 →
    Bootable p s → ∃ t, exec (.wake src p cal) s = .next t ∧ (Started startCold t ∨ Started startWake t)) ∧
  (∀ (c : Instr) (p : StartPins) (cal : Vector CalSet 4) (s : State),
    ((c = .coldStart p cal ∧ s.pwr.phase = .held ∧ s.pwr.askWarm = false) ∨
     (∃ r h, c = .warmStart p r h cal ∧ s.pwr.phase = .held ∧ s.pwr.askWarm = true) ∨
     (∃ src, c = .wake src p cal ∧ s.pwr.phase = .asleep ∧ wakeEnabled src s ≠ 0)) →
    (p.selfTestOk = false ∨ stakeOk s = false → ∃ t, exec c s = .next t ∧ t.pwr.phase = .unusable ∧ t.pwr.faultLow = true) ∧
    (p.selfTestOk = true → stakeOk s = true → 3 ≤ s.upd.failedBoots ∨ p.bootRec = true →
      ∃ t, exec c s = .next t ∧ t.pwr.phase = .kindling ∧ fld t Reg.SYS_STATUS F.SYS_STATUS_phase = 7 ∧
        flg t Reg.UPD_STATUS F.UPD_STATUS_kindling = true ∧ t.fio.linkOn = false)) ∧
  (∀ (p : StartPins) (r h : Bool) (cal : Vector CalSet 4) (s : State), s.pwr.phase = .held → s.pwr.askWarm = true →
    s.pwr.lantern = true → warmFault r h s ≠ none → p.selfTestOk = false →
    ∃ t, exec (.warmStart p r h cal) s = .next t ∧
      rd t Reg.SYS_RESET_CAUSE = rd s Reg.SYS_RESET_CAUSE ||| (1#32 <<< 7)) ∧
  (∀ (p : StartPins) (r h : Bool) (cal : Vector CalSet 4) (src : BitVec 8) (s : State), s.pwr.phase = .kindling →
    s.pwr.sleepFrom = none →
    exec (.coldStart p cal) s = .next s ∧ exec (.warmStart p r h cal) s = .next s ∧ exec (.wake src p cal) s = .next s)

/-- R112, R113, R116 to R118, R121 to R126. What a measurement does to a source and to the servo is said by `Measured`. PTP_SYNC of the
part's domain and transport, let in by its port's fault-injection unit, measures the port's source: the master's stamp with its
corrections and the path delay, less the stamp of its receipt; one of another domain or transport measures nothing. TIMING on
the path in use of a STANDBY measures source 3, with an interval of 1 ms; any other measures nothing. PPS_IN_EDGE on the
selected edge with the input enabled stamps TIME_PPS_IN_STAMP at the first tick at or after it and, outside UNSET, measures
source 4 against the nearest whole second. -/
def Obligations.TimeMeasurements : Prop :=
  (∀ (p : Fin 2) (x : PtpSync) (s : State), Clear (portUnit p) s →
    let s1 := advanceTo s x.at'.toNat
    let at' := if s.tai ≤ x.at' then x.at' else s.tai
    ∃ t, exec (.ptpSync p x) s = .next t ∧
      (ptpMine x.domain x.udp s = false → t = s1) ∧
      (ptpMine x.domain x.udp s = true →
        Measured (Fin.ofNat 5 (p + 1)) (syncOffset p at' x (takeDelay p at' x s1)) (syncTs s) s1 t ∧
        t.time.pathDelay = (takeDelay p at' x s1).time.pathDelay)) ∧
  (∀ (p : Fin 2) (th : Int) (s : State), Clear (guyUnit p) s →
    let inUse := fld s Reg.DPX_STATUS F.DPX_STATUS_role = 2 ∧ fbit s Reg.DPX_STATUS F.DPX_STATUS_path_up p = true ∧
      (p = 0 ∨ fbit s Reg.DPX_STATUS F.DPX_STATUS_path_up 0 = false)
    ∃ t, exec (.timing p th) s = .next t ∧ (¬ inUse → t = s) ∧
      (inUse → Measured 3 (4 * th - halfAsym (2 + p) s) 2 s t)) ∧
  (∀ (fall : Bool) (e : BitVec 66) (s : State),
    let s1 := advanceTo s e.toNat
    let frac : Int := s1.tai.toNat % 4000000000
    ∃ t, exec (.ppsInEdge ⟨fall, e⟩) s = .next t ∧
      (flg s Reg.TIME_PPS F.TIME_PPS_in_en = false ∨ flg s Reg.TIME_PPS F.TIME_PPS_in_edge ≠ fall → t = s1) ∧
      (flg s Reg.TIME_PPS F.TIME_PPS_in_en = true → flg s Reg.TIME_PPS F.TIME_PPS_in_edge = fall →
        rd64 t Reg.TIME_PPS_IN_STAMP = s1.tai.extractLsb' 2 64 ∧
        (timeState s ≠ timeUnset → Measured 4 (if frac ≤ 2000000000 then -frac else 4000000000 - frac) 2000 s1 t)))

/-- R112 to R115, R117. PTP_ANNOUNCE of the part's domain and transport replaces its port's best master where it is better or the same
clock; its receipt running out leaves the port none. Where the best master of both ports beats this clock, its identity and UTC
data are shown, GM_CHANGED logged where the identity differs, and GRANDMASTER ends in HOLDOVER; a part that wins, master-capable
and outside UNSET, becomes GRANDMASTER. TIME_SOURCE_LOST comes three intervals after the source's last measurement; of the source
in use it takes the next valid listed source, logged with it, and moves LOCKED and SLEWING to HOLDOVER where none is left or R114
asks for it. PPS_OUT_PULSE brings the counter to the first tick of its next whole second, at which an enabled PPS_OUT rises for
its width. -/
def Obligations.TimeSources : Prop :=
  (∀ (p : Fin 2) (x : Option Announce) (s : State), (x ≠ none → Clear (portUnit p) s) → Room 1 s →
    let b := match x with
      | none => none
      | some a => if ptpMine a.domain a.udp s then keepBest s.time.best[p] a else s.time.best[p]
    let s' := { s with time := { s.time with best := s.time.best.set p b } }
    ∃ t, exec (.ptpAnnounce p x) s = .next t ∧ t.time.best[p] = b ∧ t.time.best[1 - p] = s.time.best[1 - p] ∧
      (ownWins s' = false → ∀ (q : Fin 2) (a : Announce), bestMaster s' = some (q, a) →
        rd64 t Reg.TIME_GM_ID = a.id ∧ flg t Reg.TIME_UTC_OFFSET F.TIME_UTC_OFFSET_valid = a.utcValid ∧
        fld t Reg.TIME_UTC_OFFSET F.TIME_UTC_OFFSET_offset = a.utc.toNat % 2 ^ F.TIME_UTC_OFFSET_offset.w ∧
        timeState t = (if timeState s = timeGrandmaster then timeHoldover else timeState s) ∧
        Logged (if rd64 s Reg.TIME_GM_ID = a.id then [] else [(0x2104, q, a.id.extractLsb' 0 32)]) s t) ∧
      (ownWins s' = true → flg s Reg.TIME_SRC_CFG F.TIME_SRC_CFG_master_capable = true → timeState s ≠ timeUnset →
        timeState s ≠ timeGrandmaster →
        timeState t = timeGrandmaster ∧ flg t Reg.TIME_STATE F.TIME_STATE_holdover = false ∧
        timeSource t = (if flg s Reg.TIME_PPS F.TIME_PPS_in_en = true ∧ s.time.valid[4] = true then 4 else 0) ∧
        rd64 t Reg.TIME_GM_ID = Config.clockIdentity ∧ Logged [(0x2104, p, Config.clockIdentity.extractLsb' 0 32)] s t) ∧
      (ownWins s' = true → flg s Reg.TIME_SRC_CFG F.TIME_SRC_CFG_master_capable = false ∨ timeState s = timeUnset ∨
        timeState s = timeGrandmaster → t.log = s.log ∧ OnlyRegs [] s t) ∧
      OnlyRegs [Reg.TIME_GM_ID, Reg.TIME_GM_ID + 4, Reg.TIME_UTC_OFFSET, Reg.TIME_STATE] s t) ∧
  (∀ (src : Fin 5) (s : State), s.time.valid[src] = true → Room 1 s →
    let s' := { s with time := { s.time with valid := s.time.valid.set src false } }
    let nxt := if timeState s = timeGrandmaster then 0 else selectSource s'
    ∃ t, exec (.timeSourceLost src) s = .next t ∧ t.time.valid = s.time.valid.set src false ∧ OnlyRegs [Reg.TIME_STATE] s t ∧
      (∀ m, s.time.marks[src] = some m → m.at' + 3 * m.ts * 500000 ≤ localNs t) ∧
      (src ≠ 0 → timeSource s = src.val → timeSource t = nxt ∧
        flg t Reg.TIME_STATE F.TIME_STATE_source_lost_seen = true ∧ Logged [(0x2103, src, BitVec.ofNat 32 nxt)] s t ∧
        timeState t = (if (nxt = 0 ∨ takeoverAgrees src nxt s' = false) ∧ (timeState s = timeLocked ∨ timeState s = timeSlewing)
          then timeHoldover else timeState s)) ∧
      (src = 0 ∨ timeSource s ≠ src.val → OnlyRegs [] s t ∧ t.log = s.log)) ∧
  (∀ (src : Fin 5) (s : State), s.time.valid[src] = false → exec (.timeSourceLost src) s = .next s) ∧
  (∀ s : State, s.tai.toNat + 4000000005 < 2 ^ 66 →
    let q := (s.tai.toNat + 3999999999) / 4000000000 * 4000000000
    ∃ t, exec .ppsOutPulse s = .next t ∧ q ≤ t.tai.toNat ∧ t.tai.toNat < q + 5 ∧ OnlyRegs [] s t ∧
      (flg s Reg.TIME_PPS F.TIME_PPS_out_en = true →
        ppsOutHigh t = decide (0 < fld s Reg.TIME_PPS F.TIME_PPS_width)) ∧
      (flg s Reg.TIME_PPS F.TIME_PPS_out_en = false → t.time = s.time))

/-- R111, R126. TIME_STEP_GO with no stage energised, TIME not UNSET and no structure change pending moves the counter by step_ms whole
milliseconds, with the boundary last taken, takes the step from the prediction, and enters SLEWING; local time does not move. In
any other case the counter stays, step_refused sets, and TIME_STEP_REFUSED is logged with the first cause that holds (1
energised, 2 UNSET, 3 a pending change) and the step. -/
def Obligations.TimeStep : Prop :=
  ∀ (m : Fin 8) (v : Word) (s : State), Served m true Reg.TIME_STEP 4 s →
    let ms := (v.extractLsb' 1 31).toInt
    let cause := if anyEnergised s then 1 else if timeState s = timeUnset then 2 else if s.fab.change.isSome then 3 else 0
    (cause = 0 → ∃ t, exec (.timeStepGo m v) s = .next t ∧ t.busReply = .done ∧ t.tai = s.tai + BitVec.ofInt 66 (ms * 4000000) ∧
      t.ticks = s.ticks ∧ timeState t = timeSlewing ∧ flg t Reg.TIME_STATE F.TIME_STATE_holdover = true ∧
      t.time.lastBoundary = s.time.lastBoundary.map (fun l => (l + ms).toNat) ∧
      t.time.servo.pred = s.time.servo.pred - ms * 65536000000000 ∧ t.time.servo.cand = none ∧ t.time.servo.y = s.time.servo.y) ∧
    (cause ≠ 0 → Room 1 s → ∃ t, exec (.timeStepGo m v) s = .next t ∧ t.busReply = .done ∧ t.tai = s.tai ∧ t.time = s.time ∧
      flg t Reg.TIME_STATE F.TIME_STATE_step_refused = true ∧ OnlyRegs [Reg.TIME_STEP, Reg.TIME_STATE] s t ∧
      Logged [(0x2108, cause, satI32 ms)] s t)

/-- R128 to R130. TRIG_ARM of a trigger that is not armed, with disarm not written: ARMED where the target lies at least 10 µs after
TIME_NOW, otherwise LATE, which acts on nothing and logs TRIG_LATE; an armed trigger stays as it is. With disarm, alone or
beside arm, an armed trigger returns to IDLE while the counter has not reached its target, fires where it has, and any other
stays. TRIG_FIRE of an armed trigger comes at the first tick at or after its target, and leaves it FIRED, or, where it needs a
lock that time has not, in NO_LOCK with its event. -/
def Obligations.Triggers : Prop :=
  (∀ (m n : Fin 8) (v : Word) (s : State), Served m true (Reg.TIME_TRIG_CFG n) 4 s → getF v F.TIME_TRIG_CFG_disarm = 0 →
    Room 1 s → ∃ t, exec (.trigArm m n v) s = .next t ∧ t.busReply = .done ∧ t.tai = s.tai ∧
      (trigState s n = trigArmed → trigState t n = trigArmed ∧ t.log = s.log) ∧
      (trigState s n ≠ trigArmed → nowNat s + 10000 ≤ (trigTarget s n).toNat → trigState t n = trigArmed ∧ t.log = s.log) ∧
      (trigState s n ≠ trigArmed → (trigTarget s n).toNat < nowNat s + 10000 → trigState t n = trigLate ∧
        t.loop = s.loop ∧ t.adc = s.adc ∧ t.gfm = s.gfm ∧ t.recd = s.recd ∧
        Logged [(0x2201, n, (trigTarget s n).extractLsb' 0 32)] s t) ∧
      OnlyRegs [Reg.TIME_TRIG_CFG n, Reg.TIME_TRIG_STATUS n] s t) ∧
  (∀ (m n : Fin 8) (v : Word) (s : State), Served m true (Reg.TIME_TRIG_CFG n) 4 s →
    let ends := fun (t : State) => t.busReply = .done ∧ t.tai = s.tai ∧
      (trigState s n ≠ trigArmed ∨ s.tai.toNat < 4 * (trigTarget s n).toNat →
        trigState t n = (if trigState s n = trigArmed then trigIdle else trigState s n) ∧
        OnlyRegs [Reg.TIME_TRIG_CFG n, Reg.TIME_TRIG_STATUS n] s t ∧ t.log = s.log) ∧
      (trigState s n = trigArmed → 4 * (trigTarget s n).toNat ≤ s.tai.toNat →
        trigState t n = trigFired ∨ trigState t n = trigNoLock)
    (∃ t, exec (.trigDisarm m n v) s = .next t ∧ ends t) ∧
    (getF v F.TIME_TRIG_CFG_disarm = 1 → ∃ t, exec (.trigArm m n v) s = .next t ∧ ends t)) ∧
  (∀ (n : Fin 8) (s : State), trigState s n = trigArmed →
    ∃ t, exec (.trigFire n) s = .next t ∧ t.tai = (reachNs s (trigTarget s n)).tai ∧
      ((trigTarget s n).toNat + 2 < 2 ^ 64 → 4 * (trigTarget s n).toNat ≤ t.tai.toNat ∧
        t.tai.toNat < max (s.tai.toNat + 1) (4 * (trigTarget s n).toNat + 5)) ∧
      (flg s (Reg.TIME_TRIG_CFG n) F.TIME_TRIG_CFG_need_lock = false ∨ timeIsLocked s = true → trigState t n = trigFired) ∧
      (flg s (Reg.TIME_TRIG_CFG n) F.TIME_TRIG_CFG_need_lock = true → timeIsLocked s = false → Room 1 s →
        trigState t n = trigNoLock ∧ Logged [(0x2203, n, BitVec.ofNat 32 (timeState s))] s t)) ∧
  (∀ (n : Fin 8) (s : State), trigState s n ≠ trigArmed → exec (.trigFire n) s = .next s)

/-- R108 to R110. REF_LOST of a reference that is not lost (the external one absent while unselected has not failed) clears its ok
bit, logs it with the cause, and every PLL fed from it coasts. PLL_COAST of a PLL in lock moves it from locked to coast, logged
with cause 2, and takes TIME out of every state but UNSET to HOLDOVER where PLL_D or PLL_T coasts. REF_RESTORED, 100 ms after
the loss at the earliest, sets the ok bit and is logged, and PLL_D resumes from that reference; PLL_RELOCKED ends the coasting
of a PLL whose reference is there, of an integer PLL logged with its microseconds; REF_FALLBACK, where configured, takes the
MEMS reference 100 ms after the loss and ends PLL_D's coasting. -/
def Obligations.References : Prop :=
  (∀ (ext off : Bool) (s : State), (if ext then s.time.lostExt else s.time.lostMems) = none →
    (ext = true → off = false → flg s Reg.CLK_REF_CFG F.CLK_REF_CFG_sel = true) → Room 5 s →
    ∃ t, exec (.refLost ext off) s = .next t ∧ (if ext then t.time.lostExt else t.time.lostMems) = some (localNs s) ∧
      flg t Reg.CLK_STATUS (if ext then F.CLK_STATUS_ext_ok else F.CLK_STATUS_mems_ok) = false ∧
      (∀ n ∈ fedFrom ext s, fbit t Reg.CLK_STATUS F.CLK_STATUS_coast n = true) ∧
      Raises 0x2001 (b2n ext) (if off then 2 else 1) s t ∧ OnlyRegs [Reg.CLK_STATUS, Reg.TIME_STATE, Reg.TIME_FREQ] s t) ∧
  (∀ (n : Fin 5) (s : State), fbit s Reg.CLK_STATUS F.CLK_STATUS_coast n = false → Room 1 s →
    ∃ t, exec (.pllCoast n) s = .next t ∧ fbit t Reg.CLK_STATUS F.CLK_STATUS_coast n = true ∧
      fbit t Reg.CLK_STATUS F.CLK_STATUS_locked n = false ∧ t.time.coastFrom[n] = localNs s ∧
      (n.val < 2 → timeState s ≠ timeUnset → timeState t = timeHoldover) ∧ Logged [(0x2003, n, 2)] s t ∧
      OnlyRegs [Reg.CLK_STATUS, Reg.TIME_STATE, Reg.TIME_FREQ] s t) ∧
  (∀ (ext : Bool) (t0 : Nat) (s : State), (if ext then s.time.lostExt else s.time.lostMems) = some t0 →
    (ext = true → s.time.extAbsent = true → flg s Reg.CLK_REF_CFG F.CLK_REF_CFG_sel = true) → Room 1 s →
    ∃ t, exec (.refRestored ext) s = .next t ∧ (if ext then t.time.lostExt else t.time.lostMems) = none ∧
      t0 + 100000000 ≤ localNs t ∧
      flg t Reg.CLK_STATUS (if ext then F.CLK_STATUS_ext_ok else F.CLK_STATUS_mems_ok) = true ∧
      (extActive s = ext → fbit t Reg.CLK_STATUS F.CLK_STATUS_coast 0 = false) ∧ Logged [(0x2002, b2n ext, 0)] s t ∧
      OnlyRegs [Reg.CLK_STATUS, Reg.TIME_STATE] s t) ∧
  (∀ (n : Fin 5) (s : State), fbit s Reg.CLK_STATUS F.CLK_STATUS_coast n = true → refOfPllLost n s = false → Room 1 s →
    ∃ t, exec (.pllRelocked n) s = .next t ∧ fbit t Reg.CLK_STATUS F.CLK_STATUS_coast n = false ∧
      fbit t Reg.CLK_STATUS F.CLK_STATUS_locked n = true ∧ OnlyRegs [Reg.CLK_STATUS, Reg.TIME_STATE] s t ∧
      Logged (if n = 0 then [] else
        [(0x2004, n, BitVec.ofNat 32 (min ((localNs s - s.time.coastFrom[n]) / 1000) 0xFFFFFFFF))]) s t) ∧
  (∀ (t0 : Nat) (s : State), flg s Reg.CLK_REF_CFG F.CLK_REF_CFG_fallback = true → extActive s = true →
    s.time.lostExt = some t0 → s.time.lostMems = none →
    ∃ t, exec .refFallback s = .next t ∧ extActive t = false ∧ fbit t Reg.CLK_STATUS F.CLK_STATUS_coast 0 = false ∧
      fbit t Reg.CLK_STATUS F.CLK_STATUS_locked 0 = true ∧ t0 + 100000000 ≤ localNs t ∧
      OnlyRegs [Reg.CLK_STATUS, Reg.TIME_STATE] s t ∧ t.log = s.log)

/-- R142, R146, R148, Table 5.7. A served ADC_RUN without stop of an IDLE core: with valid calibration it is RUNNING at entry 0 with no
missed and no held start event, waiting for its first unless the source is None; without (and with cal not written) it stays
IDLE and not_cal sets. ADC_STOP (cal not written): a RUNNING core that waits, or whose next sample instant lies ahead, is IDLE, one with a
conversion in progress is STOPPING. ADC_CAL (run not written): an IDLE core is CALIBRATING, a RUNNING or STOPPING one (stop not written) stays so and
cfg_err sets. ADC_COMMIT (run, stop and cal not written): where every entry up to seq_last names a channel there is, an IDLE core
takes the shadow table at once and a RUNNING one remembers the commit; otherwise cfg_err sets and the live table stays. -/
def Obligations.AdcCommands : Prop :=
  (∀ (m : Fin 8) (c : Fin 4) (v : Word) (s : State), Served m true (Reg.ADC_CTRL c) 4 s → getF v F.ADC_CTRL_stop = 0 →
    adcState s c = adcIdle →
    (calValid s c = true → ∃ t, exec (.adcRun m c v) s = .next t ∧ t.busReply = .done ∧ adcState t c = adcRunning ∧
      fld t (Reg.ADC_STATE c) F.ADC_STATE_entry = 0 ∧ fld t (Reg.ADC_STATE c) F.ADC_STATE_missed = 0 ∧
      fld t (Reg.ADC_STATE c) F.ADC_STATE_held = 0 ∧
      t.adc.cores[c].waiting = decide (fld s (Reg.ADC_START c) F.ADC_START_src ≠ 0)) ∧
    (calValid s c = false → getF v F.ADC_CTRL_cal = 0 → ∃ t, exec (.adcRun m c v) s = .next t ∧ t.busReply = .done ∧
      adcState t c = adcIdle ∧ flg t Reg.ADC_STATUS F.ADC_STATUS_not_cal = true)) ∧
  (∀ (m : Fin 8) (c : Fin 4) (v : Word) (s : State), Served m true (Reg.ADC_CTRL c) 4 s → getF v F.ADC_CTRL_cal = 0 →
    adcState s c = adcRunning → ∃ t, exec (.adcStop m c v) s = .next t ∧ t.busReply = .done ∧
      adcState t c = (if s.adc.cores[c].waiting ∨ s.tai.toNat < (sampleInstant s c).1 then adcIdle else adcStopping)) ∧
  (∀ (m : Fin 8) (c : Fin 4) (v : Word) (s : State), Served m true (Reg.ADC_CTRL c) 4 s → getF v F.ADC_CTRL_run = 0 →
    (adcState s c = adcIdle → ∃ t, exec (.adcCal m c v) s = .next t ∧ t.busReply = .done ∧ adcState t c = adcCalibrating) ∧
    (adcState s c = adcRunning ∨ adcState s c = adcStopping → getF v F.ADC_CTRL_stop = 0 →
      ∃ t, exec (.adcCal m c v) s = .next t ∧ t.busReply = .done ∧ adcState t c = adcState s c ∧
        flg t Reg.ADC_STATUS F.ADC_STATUS_cfg_err = true)) ∧
  (∀ (m : Fin 8) (c : Fin 4) (v : Word) (s : State), Served m true (Reg.ADC_CTRL c) 4 s → getF v F.ADC_CTRL_run = 0 →
    getF v F.ADC_CTRL_stop = 0 → getF v F.ADC_CTRL_cal = 0 →
    let last := if lockedAt s (Reg.ADC_CTRL c) then fld s (Reg.ADC_CTRL c) F.ADC_CTRL_seq_last else getF v F.ADC_CTRL_seq_last
    let good := ∀ e ≤ last, seqChannel (rd s (Reg.ADC_SEQ c e)) < 20
    ∃ t, exec (.adcCommit m c v) s = .next t ∧ t.busReply = .done ∧ adcState t c = adcState s c ∧
      (good → adcState s c = adcIdle → t.adc.cores[c].live = shadowTable s c ∧ t.adc.cores[c].liveLast = last ∧
        flg t (Reg.ADC_CTRL c) F.ADC_CTRL_commit = false) ∧
      (good → adcState s c ≠ adcIdle → t.adc = s.adc ∧ flg t (Reg.ADC_CTRL c) F.ADC_CTRL_commit = true) ∧
      (¬ good → t.adc = s.adc ∧ flg t Reg.ADC_STATUS F.ADC_STATUS_cfg_err = true))

/-- R139, R143 to R145, R148. A start event of the core's source comes at the next instant of its grid, of a carrier that runs, and
reaches a RUNNING core once a tick: a waiting entry takes it, with the delay of ADC_x_START; else a core whose table waits
somewhere and that holds none holds it; else it is missed and counted, saturating. Any other event changes nothing. A
conversion is delivered t_CONV after its sample instant and shows the saturated code with its entry in ADC_x_LAST, and puts the
same word, with its tag, on the core's segment; a STOPPING core then is IDLE. A completed calibration leaves the core IDLE:
factors within the limits are stored and make the calibration valid, others leave an intact record in force; each is logged. -/
def Obligations.AdcEvents : Prop :=
  (∀ (c : Fin 4) (k : StartKind) (s : State), startMatches s c k = true →
    (∀ p, k = .valley p ∨ k = .peak p → s.loop.pairs[p].running = true) →
    let x := s.adc.cores[c]
    let s1 := match k with
      | .timer => advanceTo s (gridNext s 0 (timerGrid s c) x.eventTick)
      | .valley p => advanceTo s (nextCarrier s p false)
      | .peak p => advanceTo s (nextCarrier s p (!isSaw s p))
    let waits := (x.live.take (x.liveLast + 1)).any seqWait
    ∃ t, exec (.adcStartEvent c k) s = .next t ∧ t.tai = s1.tai ∧
      (k = .timer → 0 < timerGrid s c → s.tai.toNat + timerGrid s c + 10 < 2 ^ 66 → t.tai.toNat % timerGrid s c < 5) ∧
      (x.eventTick = some s1.ticks → t = s1) ∧
      (adcState s c ≠ adcRunning → OnlyRegs [] s t ∧ t.adc.cores[c].start = x.start ∧ t.adc.cores[c].held = x.held) ∧
      (x.eventTick ≠ some s1.ticks → adcState s c = adcRunning → adcState t c = adcRunning ∧
        (x.waiting = true → t.adc.cores[c].waiting = false ∧ t.adc.cores[c].start = some (startInstant s1 c) ∧ OnlyRegs [] s t) ∧
        (x.waiting = false → x.held = none → waits = true → t.adc.cores[c].held = some (startInstant s1 c) ∧
          flg t (Reg.ADC_STATE c) F.ADC_STATE_held = true ∧ OnlyRegs [Reg.ADC_STATE c] s t) ∧
        (x.waiting = false → (x.held.isSome ∨ waits = false) → t.adc.cores[c].held = x.held ∧
          fld t (Reg.ADC_STATE c) F.ADC_STATE_missed = min 0xFFFF (fld s (Reg.ADC_STATE c) F.ADC_STATE_missed + 1)))) ∧
  (∀ (c : Fin 4) (k : StartKind) (s : State), (startMatches s c k = false ∨
      ∃ p, (k = .valley p ∨ k = .peak p) ∧ s.loop.pairs[p].running = false) →
    exec (.adcStartEvent c k) s = .next s) ∧
  (∀ (c : Fin 4) (code : Int) (s : State),
    let runs := (adcState s c = adcRunning ∧ s.adc.cores[c].waiting = false) ∨ adcState s c = adcStopping
    let q := (sampleInstant s c).1 + convTime s c
    (runs → ∃ t, exec (.adcConversion c code) s = .next t ∧
      (s.tai.toNat ≤ q → q + 5 < 2 ^ 66 → q ≤ t.tai.toNat ∧ t.tai.toNat < q + 5) ∧
      fld t (Reg.ADC_LAST c) F.ADC_LAST_result = (BitVec.ofInt 16 (max (-32768) (min 32767 code))).toNat ∧
      fld t (Reg.ADC_LAST c) F.ADC_LAST_entry = fld s (Reg.ADC_STATE c) F.ADC_STATE_entry % 2 ^ F.ADC_LAST_entry.w ∧
      t.adc.cores[c].out.data = BitVec.ofInt 16 (max (-32768) (min 32767 code)) ++
        BitVec.ofNat 16 (tagOfQuarter (sampleInstant s c).1) ∧
      t.adc.cores[c].out.valid = true ∧ t.adc.cores[c].out.fault = false ∧ t.fab.ingress[c] = t.adc.cores[c].out ∧
      t.adc.cores[c].prevAt = some (sampleInstant s c).1 ∧
      adcState t c = (if adcState s c = adcStopping then adcIdle else adcRunning)) ∧
    (¬ runs → exec (.adcConversion c code) s = .next s)) ∧
  (∀ (c : Fin 4) (f : CalSet) (s : State), adcState s c = adcCalibrating → Room 1 s →
    ∃ t, exec (.adcCalDone c f) s = .next t ∧ adcState t c = adcIdle ∧
      (calFault f = none → calValid t c = true ∧ t.adc.calRecord[c] = some f ∧ Logged [(0x3001, c, 0)] s t ∧
        ∀ g : Fin 4, rd t (Reg.ADC_CAL c g) = BitVec.ofNat 16 f.gains[g] ++ BitVec.ofInt 16 f.offsets[g]) ∧
      (∀ g why, calFault f = some (g, why) → t.adc.calRecord = s.adc.calRecord ∧
        calValid t c = (calValid s c || (s.adc.calRecord[c]).isSome) ∧
        Logged [(0x3002, c, BitVec.ofNat 32 (g * 256 + why))] s t ∧
        (calValid s c = true ∨ s.adc.calRecord[c] = none →
          ∀ g : Fin 4, rd t (Reg.ADC_CAL c g) = rd s (Reg.ADC_CAL c g)))) ∧
  (∀ (c : Fin 4) (f : CalSet) (s : State), adcState s c ≠ adcCalibrating → exec (.adcCalDone c f) s = .next s)

/-- R152, R163, R164, R168, R172. An enabled input that holds one level is stuck, logged once a run, and every chain on it that is not
IDLE carries FAULT; a change of level ends both, and the chains' outputs are marked again in the counts of a restart. A service
of the FILTER tile drives, for its four chains alone, the outputs completed since the last one, with VALID 0 where there is
none. FILT_RESTARTED of a chain with a restart pending lets boundaries pass: where the next one is an anchor of the chain and
brings it nothing else, it is that one, and the chain is RUNNING with the configured preset and median, its window anchored
there, and its cause logged unless the queue is full; with none pending nothing happens. -/
def Obligations.FilterEvents : Prop :=
  (∀ (i : Fin 24) (level : Bool) (s : State), s.adc.mods[i].en = true → s.adc.mods[i].stuckFrom = none → Room 1 s →
    ∃ t, exec (.modStuck i level) s = .next t ∧ t.adc.mods[i].stuckFrom.isSome ∧
      fbit t Reg.ADC_MOD_STATUS F.ADC_MOD_STATUS_stuck i = true ∧ Logged [(0x3006, i, BitVec.ofNat 32 (b2n level))] s t ∧
      (∀ n ∈ chainsOf s i, chainState s n ≠ chIdle → flg t (Reg.FILT_CH_STATE n) F.FILT_CH_STATE_fault = true ∧
        fbit t Reg.FILT_STATUS F.FILT_STATUS_fault n = true) ∧
      OnlyRegs (Reg.ADC_MOD_STATUS :: Reg.FILT_STATUS :: (chainsOf s i).map (fun n => Reg.FILT_CH_STATE n)) s t) ∧
  (∀ (i : Fin 24) (level : Bool) (s : State), s.adc.mods[i].en = false ∨ s.adc.mods[i].stuckFrom ≠ none →
    exec (.modStuck i level) s = .next s) ∧
  (∀ (i : Fin 24) (s : State), s.adc.mods[i].stuckFrom.isSome →
    ∃ t, exec (.filtStreamRecovered i) s = .next t ∧ t.adc.mods[i].stuckFrom = none ∧
      (∀ n ∈ chainsOf s i, flg t (Reg.FILT_CH_STATE n) F.FILT_CH_STATE_fault = false) ∧
      (∀ n ∈ chainsOf s i, flg s (Reg.FILT_CH_STATE n) F.FILT_CH_STATE_fault = true →
        t.filt.chains[n].fastLeft = 2 ∧ fld t (Reg.FILT_CH_STATE n) F.FILT_CH_STATE_unsettled_left =
          (presetUnsettled (actPreset s n) + medianHalf (actMedian s n)) % 2 ^ F.FILT_CH_STATE_unsettled_left.w)) ∧
  (∀ (i : Fin 24) (s : State), s.adc.mods[i].stuckFrom = none → exec (.filtStreamRecovered i) s = .next s) ∧
  (∀ (k : Fin 6) (s : State), ∃ t, exec (.filterService k) s = .next t ∧ OnlyRegs [] s t ∧
    (∀ p, p ≠ Part.filt → p.same s t) ∧
    ∀ n : Fin 24, if n.val / 4 = k.val then
        t.filt.chains[n].mainWord = s.filt.chains[n].mainNew.getD { s.filt.chains[n].mainWord with valid := false } ∧
        t.filt.chains[n].fastWord = s.filt.chains[n].fastNew.getD { s.filt.chains[n].fastWord with valid := false } ∧
        t.filt.chains[n].mainNew = none ∧ t.filt.chains[n].fastNew = none
      else t.filt.chains[n] = s.filt.chains[n]) ∧
  (∀ (n : Fin 24) (s : State), (s.filt.chains[n].restart = none → exec (.filtRestarted n) s = .next s) ∧
    ∀ cause, s.filt.chains[n].restart = some cause → ∃ t, exec (.filtRestarted n) s = .next t ∧
      (∃ k : Nat, 1 ≤ k ∧ k ≤ 1024 ∧ rd64 t Reg.FAB_FRAME_COUNT = rd64 s Reg.FAB_FRAME_COUNT + BitVec.ofNat 64 k ∧
        (t.filt.chains[n].restart = none ∨ k = 1024)) ∧
      (OnlyRestarts s → 4000000 * nextMs s + 5 ≤ 2 ^ 66 → nextMs s % anchorL s n (nextPreset s n) = 0 →
        chainState t n = chRunning ∧ actPreset t n = nextPreset s n ∧ actMedian t n = nextMedian s n ∧
        t.filt.chains[n].restart = none ∧ t.filt.chains[n].bits = 0 ∧ t.filt.chains[n].anchor = nextMs s * 4000000 ∧
        fbit t Reg.FILT_PENDING F.FILT_PENDING_pending n = false ∧
        (Raises 0x3101 n (BitVec.ofNat 32 cause) s t ∨ 256 ≤ t.log.queue.length)))

/-- R154, R155, R162. The bits of a chain that is not IDLE, and whose clock runs, run its three main and two fast integrators modulo
2^32, each bit as +1 or −1, whichever stream's output they come up to, and a RUNNING chain counts them. The bit that completes a
window of 16 in preset FAST, with the median and the DC blocker off, gives the triple difference of the third integrator times
8, saturated to Q15, as the main output; the bit that completes a fast window of 8 gives the double difference of the second
times 512 as the fast output. An IDLE chain takes none. -/
def Obligations.Decimation : Prop :=
  (∀ (n : Fin 24) (bits : List Bool) (s : State), chainState s n ≠ chIdle → chainTicks s n ≠ 0 →
    let x := s.filt.chains[n]
    ∃ t, exec (.chainOutput n bits) s = .next t ∧ exec (.fastOutput n bits) s = .next t ∧
      (t.filt.chains[n].i1, t.filt.chains[n].i2, t.filt.chains[n].i3) = bits.foldl (fun (a : Word × Word × Word) b =>
        let i1 := a.1 + bitVal b
        let i2 := a.2.1 + i1
        (i1, i2, a.2.2 + i2)) (x.i1, x.i2, x.i3) ∧
      (t.filt.chains[n].j1, t.filt.chains[n].j2) = bits.foldl (fun (a : Word × Word) b =>
        (a.1 + bitVal b, a.2 + (a.1 + bitVal b))) (x.j1, x.j2) ∧
      t.filt.chains[n].bits = (if chainState s n = chRunning ∨ chainState s n = chChanging then x.bits + bits.length
        else x.bits)) ∧
  (∀ (n : Fin 24) (b : Bool) (s : State), chainState s n = chRunning → chainTicks s n ≠ 0 → actPreset s n = 0 →
    actMedian s n = 0 → fld s (Reg.FILT_CH_CFG n) F.FILT_CH_CFG_dcb_corner = 0 → s.filt.chains[n].osrPhase = 15 →
    let x := s.filt.chains[n]
    let i3 := x.i3 + (x.i2 + (x.i1 + bitVal b))
    ∃ t, exec (.chainOutput n [b]) s = .next t ∧ t.filt.chains[n].mainNew.isSome ∧
      (rd t (Reg.FILT_CH_LAST n)).extractLsb' 16 16 =
        BitVec.ofInt 16 (max (-32768) (min 32767 ((i3 - x.z1 - x.z2 - x.z3).toInt * 8)))) ∧
  (∀ (n : Fin 24) (b : Bool) (s : State), chainState s n ≠ chIdle → chainTicks s n ≠ 0 →
    s.filt.chains[n].fastRestart = false → s.filt.chains[n].fastPhase = 7 →
    let x := s.filt.chains[n]
    let j2 := x.j2 + (x.j1 + bitVal b)
    ∃ t, exec (.fastOutput n [b]) s = .next t ∧ t.filt.chains[n].fastNew.isSome ∧ t.filt.chains[n].j2 = j2 ∧
      (rd t (Reg.FILT_CH_LAST_FAST n)).extractLsb' 16 16 =
        BitVec.ofInt 16 (max (-32768) (min 32767 ((j2 - x.y1 - x.y2).toInt * 512)))) ∧
  (∀ (n : Fin 24) (bits : List Bool) (s : State), chainState s n = chIdle →
    exec (.chainOutput n bits) s = .next s ∧ exec (.fastOutput n bits) s = .next s)

/-- R160, R166, R168 to R171. A served write of FILT_CH_n_CFG takes head_delay and dcb_freeze at once; while the image does not lock the
field, it also takes the median, a corner of at most 100 Hz, and the preset unless that would take a chain routed to PHASOR tiles
below its rate (a refused field sets cfg_err and stays). A running chain whose next preset and median differ from those in force is
CHANGING until its anchor; one whose pending change is written back is RUNNING with nothing pending. Locked fields stay. -/
def Obligations.FilterConfig : Prop :=
  ∀ (m : Fin 8) (n : Fin 24) (v : Word) (s : State), Served m true (Reg.FILT_CH_CFG n) 4 s →
    let p := getF v F.FILT_CH_CFG_preset
    let low := p ≠ nextPreset s n ∧ toPhasor s n = true ∧ rateTooLow (nextTicks s n) (presetD p) = true
    ∃ t, exec (.filtCfgWrite m n v) s = .next t ∧ t.busReply = .done ∧
      fld t (Reg.FILT_CH_CFG n) F.FILT_CH_CFG_head_delay = getF v F.FILT_CH_CFG_head_delay ∧
      fld t (Reg.FILT_CH_CFG n) F.FILT_CH_CFG_dcb_freeze = getF v F.FILT_CH_CFG_dcb_freeze ∧
      (lockedAt s (Reg.FILT_CH_CFG n) = true → nextPreset t n = nextPreset s n ∧ nextMedian t n = nextMedian s n ∧
        fld t (Reg.FILT_CH_CFG n) F.FILT_CH_CFG_dcb_corner = fld s (Reg.FILT_CH_CFG n) F.FILT_CH_CFG_dcb_corner ∧
        chainState t n = chainState s n) ∧
      (lockedAt s (Reg.FILT_CH_CFG n) = false → nextMedian t n = getF v F.FILT_CH_CFG_median ∧
        (low → nextPreset t n = nextPreset s n ∧ flg t Reg.FILT_STATUS F.FILT_STATUS_cfg_err = true) ∧
        (¬ low → nextPreset t n = p) ∧
        (getF v F.FILT_CH_CFG_dcb_corner ≤ 100 →
          fld t (Reg.FILT_CH_CFG n) F.FILT_CH_CFG_dcb_corner = getF v F.FILT_CH_CFG_dcb_corner) ∧
        (100 < getF v F.FILT_CH_CFG_dcb_corner → flg t Reg.FILT_STATUS F.FILT_STATUS_cfg_err = true ∧
          fld t (Reg.FILT_CH_CFG n) F.FILT_CH_CFG_dcb_corner = fld s (Reg.FILT_CH_CFG n) F.FILT_CH_CFG_dcb_corner) ∧
        (chainState s n = chRunning ∨ chainState s n = chChanging →
          if nextPreset t n = actPreset s n ∧ nextMedian t n = actMedian s n
          then chainState t n = chRunning ∧ t.filt.chains[n].restart = none
          else chainState t n = chChanging ∧ t.filt.chains[n].restart = some 4))

/-- R135, R210, R211. An enabled hard comparator that begins to fire blocks all four stages (source 1); a filtered fault input that
becomes active blocks the stages of its map (source 2); a write of PWM_GATE_CTRL.block the stages of its mask (source 5). The source's
live and latched bits set, its first latching logged; each blocked stage is latched, both switches of each of its pairs are off, and
one GATE_BLOCK event tells the source and the mask. A firing comparator takes GDEN away. A comparator or input that is not enabled,
or is live already, blocks nothing. -/
def Obligations.GateBlocks : Prop :=
  let blocked := fun (mask : Nat) (s t : State) => ∀ st : Fin 4, mask.testBit st →
    latchedBlocked t st = true ∧ ∀ p ∈ pairsOf s st, t.loop.pairs[p].high = false ∧ t.loop.pairs[p].low = false
  (∀ (n : Fin 16) (s : State), flg s (Reg.ADC_HARD n) F.ADC_HARD_en = true →
    fbit s Reg.ADC_CMP_STATUS F.ADC_CMP_STATUS_hard_live n = false → Room 2 s →
    ∃ t, exec (.hardCmp n) s = .next t ∧ fbit t Reg.ADC_CMP_STATUS F.ADC_CMP_STATUS_hard_live n = true ∧
      fbit t Reg.ADC_CMP_STATUS F.ADC_CMP_STATUS_hard_latched n = true ∧ blocked 15 s t ∧ gdenActive t = false ∧
      Logged ((if fbit s Reg.ADC_CMP_STATUS F.ADC_CMP_STATUS_hard_latched n then [] else [(0x3005, n.val, 0)]) ++
        [(0x4021, 1, 15)]) s t) ∧
  (∀ (n : Fin 16) (s : State), flg s (Reg.ADC_HARD n) F.ADC_HARD_en = false ∨
    fbit s Reg.ADC_CMP_STATUS F.ADC_CMP_STATUS_hard_live n = true → exec (.hardCmp n) s = .next s) ∧
  (∀ (n : Fin 6) (s : State), fbit s Reg.PWM_GDF_CFG F.PWM_GDF_CFG_en n = false ∨ s.loop.gdf[n] = true →
    exec (.gdfActive n) s = .next s) ∧
  (∀ (n : Fin 6) (s : State), fbit s Reg.PWM_GDF_CFG F.PWM_GDF_CFG_en n = true → s.loop.gdf[n] = false → Room 2 s →
    let map := fld s (Reg.PWM_GDF_MAP n) F.PWM_GDF_MAP_stages
    ∃ t, exec (.gdfActive n) s = .next t ∧ t.loop.gdf[n] = true ∧
      fbit t Reg.PWM_GDF_STATUS F.PWM_GDF_STATUS_live n = true ∧ fbit t Reg.PWM_GDF_STATUS F.PWM_GDF_STATUS_latched n = true ∧
      blocked map s t ∧
      Logged ((if fbit s Reg.PWM_GDF_STATUS F.PWM_GDF_STATUS_latched n then [] else [(0x4024, n.val, BitVec.ofNat 32 map)]) ++
        (if map % 16 = 0 then [] else [(0x4021, 2, BitVec.ofNat 32 (map % 16))])) s t) ∧
  (∀ (m : Fin 8) (mask : BitVec 4) (s : State), Served m true Reg.PWM_GATE_CTRL 4 s → mask ≠ 0 →
    fld s Reg.PWM_GATE_CTRL F.PWM_GATE_CTRL_release = 0 → Room 1 s →
    ∃ t, exec (.pwmBlockWrite m mask) s = .next t ∧ t.busReply = .done ∧ blocked mask.toNat s t ∧
      Logged [(0x4021, 5, BitVec.ofNat 32 mask.toNat)] s t ∧
      fld t Reg.PWM_GATE_CTRL F.PWM_GATE_CTRL_gden_en = fld s Reg.PWM_GATE_CTRL F.PWM_GATE_CTRL_gden_en)

/-- R135, R210, R212, R368. A write of PWM_GATE_CTRL.release on the ACTIVE unit frees each latched stage of its mask for which no cause of
Table 7.8 remains, leaves every other latched, and for a refused one sets release_refused; on a unit without the ACTIVE role it frees
none and sets DPX_STATUS.role_write. A comparator or fault input that goes inactive clears its live bit and leaves its latched bit. -/
def Obligations.GateReleases : Prop :=
  (∀ (m : Fin 8) (mask : BitVec 4) (s : State), Served m true Reg.PWM_GATE_CTRL 4 s → holdsActive s = true →
    fld s Reg.PWM_GATE_CTRL F.PWM_GATE_CTRL_block = 0 →
    ∃ t, exec (.gateReleaseWrite m mask) s = .next t ∧ t.busReply = .done ∧
      (∀ st : Fin 4, latchedBlocked t st =
        (latchedBlocked s st && !(mask.getLsbD st && decide (releaseCauses s st = 0)))) ∧
      ((∃ st : Fin 4, mask.getLsbD st = true ∧ latchedBlocked s st = true ∧ releaseCauses s st ≠ 0) →
        flg t Reg.PWM_STATUS F.PWM_STATUS_release_refused = true)) ∧
  (∀ (m : Fin 8) (mask : BitVec 4) (s : State), Served m true Reg.PWM_GATE_CTRL 4 s → holdsActive s = false → mask ≠ 0 →
    fld s Reg.PWM_GATE_CTRL F.PWM_GATE_CTRL_block = 0 →
    ∃ t, exec (.gateReleaseWrite m mask) s = .next t ∧ t.busReply = .done ∧ t.loop = s.loop ∧ t.log = s.log ∧
      rd t Reg.PWM_BLOCK_STATUS = rd s Reg.PWM_BLOCK_STATUS ∧ flg t Reg.DPX_STATUS F.DPX_STATUS_role_write = true) ∧
  (∀ (n : Fin 16) (s : State), ∃ t, exec (.hardLiveCleared n) s = .next t ∧
    fbit t Reg.ADC_CMP_STATUS F.ADC_CMP_STATUS_hard_live n = false ∧
    fld t Reg.ADC_CMP_STATUS F.ADC_CMP_STATUS_hard_latched = fld s Reg.ADC_CMP_STATUS F.ADC_CMP_STATUS_hard_latched ∧
    t.loop = s.loop ∧ t.log = s.log ∧ OnlyRegs [Reg.ADC_CMP_STATUS, Reg.PWM_STATUS] s t) ∧
  (∀ (n : Fin 6) (s : State), ∃ t, exec (.gdfInactive n) s = .next t ∧ t.loop.gdf = s.loop.gdf.set n false ∧
    rd t Reg.PWM_GDF_STATUS = putF (rd s Reg.PWM_GDF_STATUS) F.PWM_GDF_STATUS_live
      (putBit (fld s Reg.PWM_GDF_STATUS F.PWM_GDF_STATUS_live) n false) ∧
    t.log = s.log ∧ OnlyRegs [Reg.PWM_GDF_STATUS] s t)

/-- R196, R199 to R201, R470. A band crossing commands every hysteretic pair on its input that may switch: the side named by the lower
comparator is on, or follows after dead time, or is deferred for the minimum pulse. When the dead time has elapsed the pending
side turns on; a deferred decision is taken when the minimum pulse has elapsed. A valley or peak comes at the next instant of the
pair's grid: a valley starts a stopped carrier that no trigger holds, an event that the load code names loads the shadow compare
value, and a held carrier stays. A compare match whose on-interval is longer than the minimum pulse and the dead time commands
its side; a pair that does not run its carrier, may not switch or has no such crossing keeps its state. -/
def Obligations.Switching : Prop :=
  let commanded := fun (x : PairState) (hi : Bool) => (if hi then x.high else x.low) = true ∨ x.pendingOn = some hi
  (∀ (n : Fin 16) (up low : Bool) (s : State), ∃ t, exec (.bandCrossing n up low) s = .next t ∧
    t.adc.bandUp = s.adc.bandUp.set n up ∧ t.adc.bandLow = s.adc.bandLow.set n low ∧
    (up = low ∨ flg s (Reg.ADC_AIN_CFG n) F.ADC_AIN_CFG_band_en = false → t.loop = s.loop ∧ OnlyRegs [] s t) ∧
    (up ≠ low → flg s (Reg.ADC_AIN_CFG n) F.ADC_AIN_CFG_band_en = true → ∀ p : Fin 12,
      fld s (Reg.PWM_PAIR_CFG p) F.PWM_PAIR_CFG_ain = n.val → maySwitch s p = true →
      (s.loop.stages[pairStage s p]).hystOn = true →
      commanded t.loop.pairs[p] low ∨ t.loop.pairs[p].deferred = some low)) ∧
  (∀ (p : Fin 12) (s : State),
    (s.loop.pairs[p].pendingOn = none → exec (.deadTimeElapsed p) s = .next s) ∧
    (∀ hi, s.loop.pairs[p].pendingOn = some hi →
      ∃ t, exec (.deadTimeElapsed p) s = .next t ∧ (if hi then t.loop.pairs[p].high else t.loop.pairs[p].low) = true ∧
        t.loop.pairs[p].pendingOn = none ∧ OnlyRegs [] s t ∧ (∀ q, q ≠ p → t.loop.pairs[q] = s.loop.pairs[q]) ∧
        t.ticks = max s.ticks (s.loop.pairs[p].offAt.getD 0 + deadTicks s p)) ∧
    (s.loop.pairs[p].deferred = none → exec (.deferredDecision p) s = .next s) ∧
    (∀ hi, s.loop.pairs[p].deferred = some hi →
      ∃ t, exec (.deferredDecision p) s = .next t ∧ t.loop.pairs[p].deferred = none ∧ commanded t.loop.pairs[p] hi ∧
        t.ticks = max s.ticks (s.loop.pairs[p].decidedAt.getD 0 + minTicks s p) ∧
        OnlyRegs [] s t ∧ (∀ q, q ≠ p → t.loop.pairs[q] = s.loop.pairs[q]))) ∧
  (∀ (p : Fin 12) (peak : Bool) (s : State),
    (usesCarrier s p = false ∨ (peak = true ∧ isSaw s p = true) → exec (.carrierEvent p peak) s = .next s) ∧
    (usesCarrier s p = true → (peak = false ∨ isSaw s p = false) →
      let x := s.loop.pairs[p]
      ∃ t, exec (.carrierEvent p peak) s = .next t ∧ t.tai = (advanceTo s (nextCarrier s p peak)).tai ∧
        (x.running = false → (x.hold ≠ [] ∨ peak = true) → t.loop.pairs[p].running = false ∧
          t.loop.pairs[p].high = x.high ∧ t.loop.pairs[p].low = x.low ∧ OnlyRegs [] s t) ∧
        (x.running = true ∨ (x.hold = [] ∧ peak = false) → t.loop.pairs[p].running = true ∧
          (∀ c, x.shadow = some c → loadsAt s p peak = true →
            pairCmp t p = c % 2 ^ F.PWM_PAIR_CMP_c.w ∧ t.loop.pairs[p].shadow = none)))) ∧
  (∀ (p : Fin 12) (hi : Bool) (s : State),
    let crosses := usesCarrier s p = true ∧ s.loop.pairs[p].running = true ∧ maySwitch s p = true ∧ 0 < pairCmp s p ∧
      (if isSaw s p then hi = false ∧ pairCmp s p < pairN s p else pairCmp s p ≤ pairCmax s p)
    (¬ crosses → exec (.compareMatch p hi) s = .next s) ∧
    (crosses → ∃ t, exec (.compareMatch p hi) s = .next t ∧ OnlyRegs [] s t ∧ t.log = s.log ∧
      (∀ q, q ≠ p → t.loop.pairs[q] = s.loop.pairs[q]) ∧
      (minTicks s p + deadTicks s p ≤ (if hi then highTicks s p else pairN s p - highTicks s p) →
        commanded t.loop.pairs[p] hi ∧
        (¬ commanded s.loop.pairs[p] hi → (if hi then t.loop.pairs[p].low else t.loop.pairs[p].high) = false)) ∧
      ((if hi then highTicks s p else pairN s p - highTicks s p) < minTicks s p → t.loop.pairs[p] = s.loop.pairs[p])))

/-- R206, R207, R236, R368, on the ACTIVE unit. Of a grid-forming stage STAGE_START and STAGE_STOP are the requests of GFM_CMD. Of any other, STAGE_START without stop requests a start at the next
sample; a stage that is BLOCKED (cause 1), a part that is not ready (2) and a stage of no kind (3) refuse it with start_refused and
an event. STAGE_STOP of a stage of some kind requests a stop, and a start in the same write is not requested; a stage of no kind stays. INNER_CHANGE to another inner
control requests that change alone. Without the ACTIVE role nothing is requested and role_write sets. -/
def Obligations.StageRequests : Prop :=
  (∀ (m : Fin 8) (st : Fin 4) (v : Word) (s : State), Served m true (Reg.CTRL_STAGE_CMD st) 4 s → holdsActive s = true →
    isGfm s st = false → getF v F.CTRL_STAGE_CMD_stop = 0 →
    let cause := if isBlocked s st then 1 else if !ready s then 2 else if stageKind s st = 0 then 3 else 0
    (cause = 0 → ∃ t, exec (.stageStart m st v) s = .next t ∧ t.busReply = .done ∧
      flg t (Reg.CTRL_STAGE_CMD st) F.CTRL_STAGE_CMD_start = true ∧ t.loop.stages[st].startReq = true ∧
      t.loop.stages[st].stopReq = s.loop.stages[st].stopReq ∧ stageMode t st = stageMode s st ∧
      OnlyRegs [Reg.CTRL_STAGE_CMD st] s t ∧ t.log = s.log) ∧
    (cause ≠ 0 → Room 1 s → ∃ t, exec (.stageStart m st v) s = .next t ∧ t.busReply = .done ∧
      flg t Reg.CTRL_STATUS F.CTRL_STATUS_start_refused = true ∧ t.loop.stages[st].startReq = s.loop.stages[st].startReq ∧
      OnlyRegs [Reg.CTRL_STAGE_CMD st, Reg.CTRL_STATUS] s t ∧ Logged [(0x4003, st, BitVec.ofNat 32 cause)] s t)) ∧
  (∀ (m : Fin 8) (st : Fin 4) (v : Word) (s : State), Served m true (Reg.CTRL_STAGE_CMD st) 4 s → holdsActive s = true →
    isGfm s st = false → stageKind s st ≠ 0 →
    ∃ t, exec (.stageStop m st v) s = .next t ∧ t.busReply = .done ∧ t.loop.stages[st].stopReq = true ∧
      flg t (Reg.CTRL_STAGE_CMD st) F.CTRL_STAGE_CMD_stop = true ∧ t.loop.stages[st].startReq = s.loop.stages[st].startReq ∧
      OnlyRegs [Reg.CTRL_STAGE_CMD st] s t ∧ t.log = s.log) ∧
  (∀ (m : Fin 8) (st : Fin 4) (v : Word) (s : State), Served m true (Reg.CTRL_STAGE_CMD st) 4 s → holdsActive s = true →
    getF v F.CTRL_STAGE_CMD_inner = fld s (Reg.CTRL_STAGE_CMD st) F.CTRL_STAGE_CMD_inner →
    let s' := { s with busReply := .done }
    (isGfm s st = true → getF v F.CTRL_STAGE_CMD_stop = 0 →
      exec (.stageStart m st v) s = .next (gfmStartRequest (gidx st) s')) ∧
    (isGfm s st = true → exec (.stageStop m st v) s = .next (gfmStopRequest (gidx st) s')) ∧
    (stageKind s st = 0 → exec (.stageStop m st v) s = .next s')) ∧
  (∀ (m : Fin 8) (st : Fin 4) (h : Bool) (s : State), Served m true (Reg.CTRL_STAGE_CMD st) 4 s → holdsActive s = true →
    fld s (Reg.CTRL_STAGE_CMD st) F.CTRL_STAGE_CMD_inner ≠ b2n h →
    ∃ t, exec (.innerChange m st h) s = .next t ∧ t.busReply = .done ∧ t.loop.stages[st].innerReq = some (b2n h) ∧
      rd t (Reg.CTRL_STAGE_CMD st) = putF (rd s (Reg.CTRL_STAGE_CMD st)) F.CTRL_STAGE_CMD_inner (b2n h) ∧
      t.loop.stages[st].startReq = s.loop.stages[st].startReq ∧ t.loop.stages[st].stopReq = s.loop.stages[st].stopReq ∧
      OnlyRegs [Reg.CTRL_STAGE_CMD st] s t ∧ t.log = s.log) ∧
  (∀ (m : Fin 8) (st : Fin 4) (v : Word) (h : Bool) (s : State), Served m true (Reg.CTRL_STAGE_CMD st) 4 s →
    holdsActive s = false →
    let t := setF { s with busReply := .done } Reg.DPX_STATUS F.DPX_STATUS_role_write 1
    exec (.stageStart m st v) s = .next t ∧ exec (.stageStop m st v) s = .next t ∧ exec (.innerChange m st h) s = .next t)

/-- R34, R181, R202, R206, R212. A sample comes at the first tick of the next instant of the stage's grid, one later than its last,
and brings the written output instant into force. A stage without a kind computes nothing. A stage latched blocked is BLOCKED
at the sample and its requests are gone; a start that waited is refused. A stage of a kind without grid forming, not latched,
on a unit whose duplex state lets it run: with a stop request it is OFF, even beside a start request; from OFF or BLOCKED with a
start request in a ready part it is in REG. -/
def Obligations.LoopSample : Prop :=
  (∀ (st : Fin 4) (x : LoopInputs) (s : State), s.tai.toNat + 4 * stagePeriod s st + 10 < 2 ^ 66 →
    ∃ t, exec (.loopSample st x) s = .next t ∧ t.tai = (reachGrid st s).tai ∧ t.ticks = (reachGrid st s).ticks ∧
      t.tai.toNat % (4 * stagePeriod s st) < 5 ∧ s.tai.toNat ≤ t.tai.toNat ∧
      t.loop.stages[st].sampleTick = some t.ticks ∧
      (∀ k, s.loop.stages[st].sampleTick = some k → k ≤ s.ticks → k < t.ticks) ∧
      t.loop.stages[st].outPhase = fld s (Reg.CTRL_STAGE_PHASE st) F.CTRL_STAGE_PHASE_out_phase ∧
      (stageKind s st = 0 → t = reachGrid st s)) ∧
  (∀ (st : Fin 4) (x : LoopInputs) (s : State), stageKind s st ≠ 0 → latchedBlocked s st = true →
    ∃ t, exec (.loopSample st x) s = .next t ∧ stageMode t st = modeBlocked ∧ t.loop.stages[st].startReq = false ∧
      t.loop.stages[st].stopReq = false ∧
      (s.loop.stages[st].startReq = true → flg t Reg.CTRL_STATUS F.CTRL_STATUS_start_refused = true)) ∧
  (∀ (st : Fin 4) (x : LoopInputs) (s : State), stageKind s st ≠ 0 → isGfm s st = false → latchedBlocked s st = false →
    stagesHeldOff s = false → tracks s = false → dpxState s ≠ dpxTaking →
    (s.loop.stages[st].stopReq = true → ∃ t, exec (.loopSample st x) s = .next t ∧ stageMode t st = modeOff ∧
      t.loop.stages[st].startReq = false ∧ t.loop.stages[st].stopReq = false) ∧
    (s.loop.stages[st].stopReq = false → s.loop.stages[st].startReq = true → ready s = true → s.dpx.fresh[st] = false →
      stageMode s st = modeOff ∨ stageMode s st = modeBlocked →
      ∃ t, exec (.loopSample st x) s = .next t ∧ stageMode t st = modeReg ∧ t.loop.stages[st].startReq = false ∧
        t.loop.stages[st].awaiting.isSome))

/-- R191, R194, R195, R200, R202, R204. At its output instant, the cycles in force after its sample, a stage publishes the reference
phasor of that sample, and on the carrier each of its pairs gets the compare value of its phase's modulating signal in its shadow,
or, on the tick of a load event, in force. A band update of a hysteretic pair, on its grid of 200 cycles, writes the band DAC codes
of its input: the reference at this instant plus and minus the half-width of the latest usable voltages. A generator's step comes
on its grid: of host software, enabled and off its target, it takes the first step of its shortest profile, and at rest on the
target it stays; a blend steps on, and ends when its time is over. -/
def Obligations.LoopOutputs : Prop :=
  (∀ (st : Fin 4) (ph : Phasor) (s : State), s.loop.stages[st].awaiting = some ph → s.loop.stages[st].innerNext = none →
    let s1 := reachOutput st s
    let c := fun (p : Fin 12) => compareOf ((s.loop.stages[st].mods.toList[phaseIndex s p]?).getD 0) (pairCmax s p)
    ∃ t, exec (.outputInstant st) s = .next t ∧ t.loop.stages[st].published = ph ∧ t.loop.stages[st].awaiting = none ∧
      t.tai = s1.tai ∧ OnlyRegs ((pairsOf s st).map (fun p => Reg.PWM_PAIR_CMP p)) s t ∧ t.log = s.log ∧
      (s.loop.stages[st].hystOn = true → t.loop.pairs = s.loop.pairs) ∧
      (s.loop.stages[st].hystOn = false → ∀ p : Fin 12, (p ∉ pairsOf s st → t.loop.pairs[p] = s.loop.pairs[p]) ∧
        (p ∈ pairsOf s st → let x := s.loop.pairs[p]
          (x.running = false ∨ (x.valleyTick ≠ some s1.ticks ∧ x.peakTick ≠ some s1.ticks) →
            t.loop.pairs[p] = { x with shadow := some (c p) }) ∧
          (x.running = true → x.valleyTick = some s1.ticks → loadsAt s p false = true →
            t.loop.pairs[p].shadow = none ∧ pairCmp t p = c p % 2 ^ F.PWM_PAIR_CMP_c.w)))) ∧
  (∀ (st : Fin 4) (s : State), s.loop.stages[st].awaiting = none →
    exec (.outputInstant st) s = .next (applyInner st (reachOutput st s))) ∧
  (∀ (p : Fin 12) (vdc v : BitVec 16) (ok : Bool) (s : State),
    let st := pairStage s p
    let runs := pairMode s p ≠ 0 ∧ (s.loop.stages[st]).hystOn = true
    let s1 := advanceTo s (gridNext s 0 2000 (s.loop.pairs[p]).bandTick)
    let ph := (s.loop.stages[st]).published
    let th := ph.theta + ph.omega * ((localNs s1 - ph.since : Nat) : Rat) / 1000000000
    let i := if isDq s st then phaseOf ph.w0 ph.w1 th (phaseIndex s p) else q15Rat ph.w0
    let h := if ok then halfWidth s st vdc.toInt v.toInt else halfWidth s st (s.loop.pairs[p]).vdc (s.loop.pairs[p]).vin
    let a := Reg.ADC_BAND (fld s (Reg.PWM_PAIR_CFG p) F.PWM_PAIR_CFG_ain)
    (¬ runs → exec (.bandUpdate p vdc v ok) s = .next s) ∧
    (runs → ∃ t, exec (.bandUpdate p vdc v ok) s = .next t ∧ t.tai = s1.tai ∧ fld t a F.ADC_BAND_upper = bandCode i h.1 ∧
      fld t a F.ADC_BAND_lower = bandCode i (-h.1) ∧ (h.2 = false → OnlyRegs [a] s t ∧ t.log = s.log) ∧
      (h.2 = true → flg t (Reg.CTRL_STAGE_FLAGS st) F.CTRL_STAGE_FLAGS_acc_sat = true))) ∧
  (∀ (g : Fin 16) (s : State), ∃ t, exec (.profileStep g) s = .next t ∧ t.tai = (reachPeriod g s).tai ∧
    (fld s (Reg.CTRL_PROF_CFG g) F.CTRL_PROF_CFG_user = userHost → ¬ (g = 15 ∧ stageKind s 3 = kindVarFreq) →
      let x := s.loop.prof[g]
      let tgt := q15Rat (hiQ15 (rd s (Reg.CTRL_PROF_CFG g)))
      let moves := flg s (Reg.CTRL_PROF_CFG g) F.CTRL_PROF_CFG_en = true ∧ ¬ (x.x = tgt ∧ x.v = 0 ∧ x.a = 0)
      (¬ moves → t = reachPeriod g s) ∧
      (moves → Motion.mk t.loop.prof[g].x t.loop.prof[g].v t.loop.prof[g].a = profileStep
          ⟨lim24 (rd s (Reg.CTRL_PROF_VMAX g)), lim24 (rd s (Reg.CTRL_PROF_AMAX g)), lim24 (rd s (Reg.CTRL_PROF_JMAX g))⟩
          ⟨x.x, x.v, x.a⟩ tgt (profPeriod s g / 1000000000) ∧
        fld t (Reg.CTRL_PROF_OUT g) F.CTRL_PROF_OUT_x = q15Bits (ratQ15 t.loop.prof[g].x) ∧
        OnlyRegs [Reg.CTRL_PROF_OUT g] s t ∧ t.log = s.log)) ∧
    (∀ st, fld s (Reg.CTRL_PROF_CFG g) F.CTRL_PROF_CFG_user = userBlend → blendStage s g = some st →
      (fld s (Reg.CTRL_HOVER_CFG st) F.CTRL_HOVER_CFG_t_blend * 100000 ≤ (s.loop.prof[g].steps + 1) * profPeriod s g →
        t.loop.stages[st].blend = none ∧ t.loop.stages[st].residual = #v[0, 0] ∧
        fld t (Reg.CTRL_PROF_CFG g) F.CTRL_PROF_CFG_user = userHost ∧
        flg t (Reg.CTRL_STAGE_STATE st) F.CTRL_STAGE_STATE_blending = false) ∧
      ((s.loop.prof[g].steps + 1) * profPeriod s g < fld s (Reg.CTRL_HOVER_CFG st) F.CTRL_HOVER_CFG_t_blend * 100000 →
        t.loop.stages[st].blend = some g ∧ t.loop.prof[g].steps = s.loop.prof[g].steps + 1)))

/-- R226, R231, R232, R236, R238 rows 1, 28 and 30, R368. On the ACTIVE unit a start (no stop in the word) in STOPPED is refused with
the first cause that holds, or takes the stage to LINE_CHECK with no attempts and fresh line counts; a stop takes any other state to
STOPPED with the contactor open and stops the stage; an acknowledgement takes FAILED to STOPPED unless a no-open failure is
outstanding; a start in another state is ignored. Without the ACTIVE role nothing is taken and role_write sets. In LIMIT, t_hold after
the onset the limit falls towards i_cont; when the reference has stayed low for t_rel the limit is released, to VSM or by a recovery
ramp. The time mode follows Table 8.2, at once or when t_hold_rest has passed. Each acts only where it is due. -/
def Obligations.GfmCommands : Prop :=
  (∀ (m : Fin 8) (g : Fin 2) (v : Word) (s : State), Served m true (Reg.GFM_CMD (2 * g)) 4 s → holdsActive s = true →
    isStandby s = false → stageKind s (gst g) = kindGridForming → Room 1 s →
    (gState s g = gStopped → getF v F.GFM_CMD_stop = 0 →
      (startCause s g = 0 → ∃ t, exec (.gfmStart m g v) s = .next t ∧ t.busReply = .done ∧ gState t g = gLineCheck ∧
        attemptOf t g = 0 ∧ contClosed t g = false ∧ (t.gfm.stages[g]).deadMs = 0 ∧ (t.gfm.stages[g]).liveMs = 0 ∧
        (t.gfm.stages[g]).cold = true ∧ (t.gfm.stages[g]).backoff = false ∧
        Logged [(0x5001, 2 * g.val, 1)] s t ∧ OnlyRegs [Reg.GFM_STATE (2 * g), Reg.FIO_DO_STATE] s t) ∧
      (startCause s g ≠ 0 → ∃ t, exec (.gfmStart m g v) s = .next t ∧ t.busReply = .done ∧ t.gfm = s.gfm ∧ OnlyRegs [] s t ∧
        Logged [(0x5002, 2 * g.val, BitVec.ofNat 32 (startCause s g))] s t)) ∧
    (gState s g ≠ gStopped → getF v F.GFM_CMD_stop = 0 → getF v F.GFM_CMD_ack = 0 →
      exec (.gfmStart m g v) s = .next { s with busReply := .done }) ∧
    (gState s g ≠ gStopped → ∃ t, exec (.gfmStop m g v) s = .next t ∧ t.busReply = .done ∧ gState t g = gStopped ∧
      contClosed t g = false ∧ (t.loop.stages[gst g]).stopReq = true ∧ (t.gfm.stages[g]).order = none ∧
      Logged [(0x5001, 2 * g.val, BitVec.ofNat 32 (gState s g * 256))] s t ∧
      OnlyRegs [Reg.GFM_STATE (2 * g), Reg.FIO_DO_STATE] s t) ∧
    (gState s g = gFailed → getF v F.GFM_CMD_stop = 0 → getF v F.GFM_CMD_start = 0 →
      ((s.gfm.stages[g]).noOpen = false → ∃ t, exec (.gfmAck m g v) s = .next t ∧ gState t g = gStopped ∧ t.busReply = .done ∧
        Logged [(0x5001, 2 * g.val, 2560)] s t ∧ OnlyRegs [Reg.GFM_STATE (2 * g), Reg.FIO_DO_STATE] s t) ∧
      ((s.gfm.stages[g]).noOpen = true → exec (.gfmAck m g v) s = .next { s with busReply := .done }))) ∧
  (∀ (m : Fin 8) (g : Fin 2) (v : Word) (s : State), Served m true (Reg.GFM_CMD (2 * g)) 4 s → holdsActive s = false →
    let t := setF { s with busReply := .done } Reg.DPX_STATUS F.DPX_STATUS_role_write 1
    exec (.gfmStart m g v) s = .next t ∧ exec (.gfmStop m g v) s = .next t ∧ exec (.gfmAck m g v) s = .next t) ∧
  (∀ (g : Fin 2) (s : State), stageMode s (gst g) = modeLimit → (s.gfm.stages[g]).heldAt = none → Room 1 s →
    ∃ t, exec (.limitHeld g) s = .next t ∧ (t.gfm.stages[g]).heldAt = some (localNs t) ∧
      (s.gfm.stages[g]).limFirstAt + msFld s (Reg.GFM_LIMIT_T (2 * g)) F.GFM_LIMIT_T_t_hold 1 ≤ localNs t ∧
      Logged [(0x500C, 2 * g.val, BitVec.ofNat 32 (fld s (Reg.GFM_LIMIT (2 * g)) F.GFM_LIMIT_i_cont))] s t ∧
      OnlyRegs [] s t) ∧
  (∀ (g : Fin 2) (s : State),
    (stageMode s (gst g) ≠ modeLimit ∨ (s.gfm.stages[g]).heldAt ≠ none → exec (.limitHeld g) s = .next s) ∧
    (stageMode s (gst g) ≠ modeLimit ∨ (s.gfm.stages[g]).belowFrom = none ∨ isStandby s = true →
      exec (.limitRelease g) s = .next s)) ∧
  (∀ (g : Fin 2) (b : Nat) (s : State), stageMode s (gst g) = modeLimit → (s.gfm.stages[g]).belowFrom = some b →
    isStandby s = false → Room 3 s → ∃ t, exec (.limitRelease g) s = .next t ∧
      flg t (Reg.GFM_STATE (2 * g)) F.GFM_STATE_limit = false ∧ (t.gfm.stages[g]).limRun = 0 ∧
      (t.gfm.stages[g]).heldAt = none ∧ (t.gfm.stages[g]).belowFrom = none ∧
      b + msFld s (Reg.GFM_LIMIT_T (2 * g)) F.GFM_LIMIT_T_t_rel 1 ≤ localNs t ∧ (∃ ms, Raises 0x500B (2 * g) ms s t) ∧
      (t.gfm.stages[g]).order = some (if pu12 s (Reg.GFM_RECOV (2 * g)) F.GFM_RECOV_v_rec ≤ (s.gfm.stages[g]).vl
        then .vsm else .recovery)) ∧
  (∀ (g : Fin 2) (s : State), stageKind s (gst g) = kindGridForming → Room 1 s →
    (timeModeDue s g ≠ timeMode s g → ∃ t, exec (.gfmTimeMode g) s = .next t ∧ timeMode t g = timeModeDue s g ∧
      Logged [(0x500F, 2 * g.val, BitVec.ofNat 32 (timeMode s g * 256 + timeModeDue s g))] s t ∧
      OnlyRegs [Reg.GFM_TMODE (2 * g), Reg.GFM_STATUS] s t) ∧
    (∀ r, timeModeDue s g = 1 → timeMode s g = 1 → (s.gfm.stages[g]).refAt = some r →
      ∃ t, exec (.gfmTimeMode g) s = .next t ∧ timeMode t g = 2 ∧ r + holdRest s g ≤ localNs t) ∧
    (timeModeDue s g = timeMode s g → timeMode s g ≠ 1 → exec (.gfmTimeMode g) s = .next s))

/-- R219, R233 to R235, R238 rows 2, 3, 8, 9, 10, 17 and 18. A millisecond of evaluation takes the usable phasors, classifies the line,
counts its DEAD and LIVE milliseconds and shows the 25 permission. The millisecond that completes t_dead takes a stage in LINE_CHECK
that may black-start, its contactor open, towards its slot; the one that completes t_live takes it to SYNC. A contactor check shows
the feedback; a commanded contactor that reads closed takes CLOSING_LIVE to RUNNING, and CLOSING_DEAD to RAMPING or JOIN by the
line; one that stays open beyond t_close_max fails both. -/
def Obligations.GfmLine : Prop :=
  (∀ (g : Fin 2) (m : LineMeas) (s : State), stageKind s (gst g) = kindGridForming →
    let x := s.gfm.stages[g]
    let vl := if m.lineUsable then m.vl else x.vl
    let fl := if m.lineUsable then m.fl else x.fl
    let run := gState s g ≠ gStopped ∧ gState s g ≠ gFailed
    ∃ t, exec (.lineClassify g m) s = .next t ∧ (t.gfm.stages[g]).vl = vl ∧ (t.gfm.stages[g]).fl = fl ∧
      (m.convUsable = true → (t.gfm.stages[g]).vc = m.vc ∧ (t.gfm.stages[g]).fc = m.fc) ∧
      (m.convUsable = false → (t.gfm.stages[g]).vc = x.vc ∧ (t.gfm.stages[g]).fc = x.fc) ∧
      (t.gfm.stages[g]).lineClass = classOf s g vl fl ∧
      (t.gfm.stages[g]).deadMs = (if classOf s g vl fl = 1 then (if run then x.deadMs + 1 else x.deadMs) else 0) ∧
      (t.gfm.stages[g]).liveMs = (if classOf s g vl fl = 2 then (if run then x.liveMs + 1 else x.liveMs) else 0) ∧
      fld t (Reg.GFM_STATE (2 * g)) F.GFM_STATE_permit = b2n (permitLive t g || permitDead t g) ∧
      (t.gfm.stages[g]).evalAt = some (localNs t) ∧ (∀ e, x.evalAt = some e → e + 1000000 ≤ localNs t)) ∧
  (∀ (g : Fin 2) (m : LineMeas) (s : State), stageKind s (gst g) ≠ kindGridForming →
    exec (.lineClassify g m) s = .next s ∧ exec (.contactorCheck g) s = .next s) ∧
  (∀ (g : Fin 2) (m : LineMeas) (s : State), stageKind s (gst g) = kindGridForming → isBlocked s (gst g) = false →
    isStandby s = false → gState s g = gLineCheck → contClosed s g = false → contFb s g = false → m.lineUsable = true →
    (classOf s g m.vl m.fl = 1 → mayBlackStart s g = true →
      10 * fld s (Reg.GFM_LIVE (2 * g)) F.GFM_LIVE_t_dead ≤ (s.gfm.stages[g]).deadMs + 1 →
      ∃ t, exec (.lineDeadConfirmed g m) s = .next t ∧ deadConfirmed t g = true ∧ lineDead t g = true ∧
        (gState t g = gWaitSlot ∨ gState t g = gClosingDead)) ∧
    (classOf s g m.vl m.fl = 2 → vdcOk s g = true → stageMode s (gst g) ≠ modeVsm → 0 < syncNs s g →
      0 < fld s (Reg.GFM_LIVE (2 * g)) F.GFM_LIVE_t_dead →
      10 * fld s (Reg.GFM_LIVE (2 * g)) F.GFM_LIVE_t_live ≤ (s.gfm.stages[g]).liveMs + 1 →
      ∃ t, exec (.lineLiveConfirmed g m) s = .next t ∧ liveConfirmed t g = true ∧ lineLive t g = true ∧
        gState t g = gSync ∧ (t.gfm.stages[g]).order = some .sync)) ∧
  (∀ (g : Fin 2) (m : LineMeas) (s : State),
    ((s.gfm.stages[g]).deadMs + 1 < 10 * fld s (Reg.GFM_LIVE (2 * g)) F.GFM_LIVE_t_dead →
      exec (.lineDeadConfirmed g m) s = .next s) ∧
    ((s.gfm.stages[g]).liveMs + 1 < 10 * fld s (Reg.GFM_LIVE (2 * g)) F.GFM_LIVE_t_live →
      exec (.lineLiveConfirmed g m) s = .next s)) ∧
  (∀ (g : Fin 2) (s : State), stageKind s (gst g) = kindGridForming → Room 2 s →
    (∃ t, exec (.contactorCheck g) s = .next t ∧ fld t (Reg.GFM_STATE (2 * g)) F.GFM_STATE_cont_fb = b2n (contFb s g) ∧
      (t.gfm.stages[g]).contAt = some (localNs t) ∧
      (∀ c, (s.gfm.stages[g]).contAt = some c → c + 1000000 ≤ localNs t)) ∧
    (flg s (Reg.GFM_CONT (2 * g)) F.GFM_CONT_en = true → isStandby s = false → contClosed s g = true →
      (contFb s g = true → gState s g = gClosingLive → ∃ t, exec (.contactorCheck g) s = .next t ∧ gState t g = gRunning ∧
        Logged [(0x5001, 2 * g.val, 0x607)] s t) ∧
      (contFb s g = true → gState s g = gClosingDead → lineDead s g = false →
        ∃ t, exec (.contactorCheck g) s = .next t ∧ gState t g = gJoin ∧ Logged [(0x5001, 2 * g.val, 0x309)] s t) ∧
      (contFb s g = true → gState s g = gClosingDead → lineDead s g = true → vdcOk s g = true →
        ∃ t, exec (.contactorCheck g) s = .next t ∧ gState t g = gRamping ∧ (t.gfm.stages[g]).order = some .blackStart ∧
          Logged [(0x5001, 2 * g.val, 0x304)] s t) ∧
      (contFb s g = false → gState s g = gClosingDead ∨ gState s g = gClosingLive → contLate s g = true →
        ∃ t, exec (.contactorCheck g) s = .next t ∧ gState t g = gFailed ∧ contClosed t g = false ∧
          (t.loop.stages[gst g]).stopReq = true ∧
          Logged [(0x5009, 2 * g.val, 1), (0x5001, 2 * g.val, BitVec.ofNat 32 (gState s g * 256 + 10))] s t)))

/-- R238 rows 4 to 7, 11 to 14, 16, 22, 24 and 32, R240 to R244. At the awaited slot or back-off instant a stage on a dead line takes it
(closing, or ramping where the contactor is closed), or with no permission awaits another; on a line no longer dead it leaves. A
ramp that reaches its target orders VSM. Limiting through t_hold aborts a black start: up to the third attempt back to LINE_CHECK,
then FAILED. Windows that have held with LIVE-LIVE close the contactor; t_sync_max fails; restored V_dc leaves RIDE through JOIN; t_rt
ends RIDE in STOPPED. Each acts only in its state. -/
def Obligations.GfmMoves : Prop :=
  (∀ (g : Fin 2) (i : BitVec 64) (s : State), gState s g = gWaitSlot → isStandby s = false → Room 2 s →
    i.toNat + stagePeriod s (gst g) < 2 ^ 64 →
    ((s.gfm.stages[g]).slot = some (i, false) → ∃ t, exec (.slotInstant g) s = .next t ∧ SlotTaken g i s t) ∧
    ((s.gfm.stages[g]).slot = some (i, true) → ∃ t, exec (.backoffExpiry g) s = .next t ∧ SlotTaken g i s t)) ∧
  (∀ (g : Fin 2) (s : State), gState s g ≠ gWaitSlot ∨ isStandby s = true ∨ (s.gfm.stages[g]).slot = none →
    exec (.slotInstant g) s = .next s ∧ exec (.backoffExpiry g) s = .next s) ∧
  (∀ (g : Fin 2) (r : Ramp) (s : State), (s.gfm.stages[g]).ramp = some r → isStandby s = false →
    (r.wasHeld = false ∨ rampRests s g r = true → ∃ t, exec (.rampComplete g) s = .next t ∧
      (t.loop.prof[rampGen g]).x = r.target / 8 ∧ (t.loop.prof[rampGen g]).v = 0 ∧
      (r.wasHeld = false → r.at' + rampNs s g r.kind ≤ localNs t) ∧ (t.gfm.stages[g]).order = some .vsm ∧
      gState t g = (if r.kind = .blackStart ∧ gState s g = gRamping then gRunning else gState s g)) ∧
    (r.wasHeld = true → rampRests s g r = false → exec (.rampComplete g) s = .next s)) ∧
  (∀ (g : Fin 2) (s : State), gState s g = gRamping → stageMode s (gst g) = modeRamp → (s.gfm.stages[g]).limRun ≠ 0 →
    isStandby s = false → Room 3 s → ∃ t, exec (.blackstartAbort g) s = .next t ∧ contClosed t g = false ∧
      (t.loop.stages[gst g]).stopReq = true ∧
      (s.gfm.stages[g]).limFirstAt + msFld s (Reg.GFM_LIMIT_T (2 * g)) F.GFM_LIMIT_T_t_hold 1 ≤ localNs t ∧
      (attemptOf s g < 3 → gState t g = gLineCheck ∧ attemptOf t g = attemptOf s g + 1 ∧ (t.gfm.stages[g]).backoff = true ∧
        Logged [(0x5001, 2 * g.val, 0x401), (0x5005, 2 * g.val, BitVec.ofNat 32 (attemptOf s g + 1))] s t) ∧
      (3 ≤ attemptOf s g → gState t g = gFailed ∧ Logged [(0x5001, 2 * g.val, 0x40A),
        (0x5005, 2 * g.val, BitVec.ofNat 32 (attemptOf s g)), (0x5006, 2 * g.val, 0)] s t)) ∧
  (∀ (g : Fin 2) (s : State), gState s g ≠ gRamping ∨ stageMode s (gst g) ≠ modeRamp ∨ (s.gfm.stages[g]).limRun = 0 →
    exec (.blackstartAbort g) s = .next s) ∧
  (∀ (g : Fin 2) (m : LineMeas) (s : State), stageKind s (gst g) = kindGridForming → gState s g = gSync →
    stageMode s (gst g) = modeVsm → isBlocked s (gst g) = false → isStandby s = false → contClosed s g = false →
    contFb s g = false → m.lineUsable = true → m.convUsable = true → classOf s g m.vl m.fl = 2 →
    classOf s g m.vc m.fc = 2 →
    let d := wrapDeg (wrapDeg m.phiC - wrapDeg m.phi)
    inWin d (angWin s g) = true → inWin (m.fl - m.fc) (slipHz s g) = true → inWin (m.vl - m.vc) (voltWin s g) = true →
    inWin (d + 360 * (m.fl - m.fc) * ((fld s (Reg.GFM_CONT (2 * g)) F.GFM_CONT_t_close_nom : Rat) / 1000)) (angWin s g) = true →
    fld s (Reg.GFM_SYNC (2 * g)) F.GFM_SYNC_t_sync_hold ≤ (s.gfm.stages[g]).winMs + 1 →
    ∃ t, exec (.syncClose g m) s = .next t ∧ gState t g = gClosingLive ∧ contClosed t g = true ∧
      (t.gfm.stages[g]).winMs = 0) ∧
  (∀ (g : Fin 2) (m : LineMeas) (s : State),
    gState s g ≠ gSync ∨ (s.gfm.stages[g]).winMs + 1 < fld s (Reg.GFM_SYNC (2 * g)) F.GFM_SYNC_t_sync_hold →
    exec (.syncClose g m) s = .next s) ∧
  (∀ (g : Fin 2) (s : State), gState s g = gSync → isStandby s = false → Room 2 s →
    ∃ t, exec (.syncTimeout g) s = .next t ∧ gState t g = gFailed ∧ contClosed t g = false ∧
      (t.loop.stages[gst g]).stopReq = true ∧ (s.gfm.stages[g]).stateAt + syncNs s g ≤ localNs t ∧
      Logged [(0x5001, 2 * g.val, 0x50A), (0x5008, 2 * g.val, centiDeg (deltaOf s.gfm.stages[g]))] s t) ∧
  (∀ (g : Fin 2) (m : LineMeas) (s : State), stageKind s (gst g) = kindGridForming → gState s g = gRide →
    isBlocked s (gst g) = false → isStandby s = false → contClosed s g = true → contFb s g = true → vdcOk s g = true →
    9 ≤ (s.gfm.stages[g]).rideOkMs → m.lineUsable = true → classOf s g m.vl m.fl = 2 →
    10 * fld s (Reg.GFM_LIVE (2 * g)) F.GFM_LIVE_t_live ≤ (s.gfm.stages[g]).liveMs + 1 → Room 4 s →
    ∃ t, exec (.rideResume g m) s = .next t ∧ gState t g = gRunning ∧ contClosed t g = true ∧
      (t.gfm.stages[g]).order = some .join ∧ Logged [(0x5001, 2 * g.val, 0x809), (0x5001, 2 * g.val, 0x907)] s t) ∧
  (∀ (g : Fin 2) (m : LineMeas) (s : State),
    (gState s g ≠ gRide ∨ (s.gfm.stages[g]).rideOkMs < 9 → exec (.rideResume g m) s = .next s) ∧
    (gState s g ≠ gRide ∨ isStandby s = true → exec (.rideExpired g) s = .next s) ∧
    (gState s g ≠ gSync ∨ isStandby s = true → exec (.syncTimeout g) s = .next s)) ∧
  (∀ (g : Fin 2) (s : State), gState s g = gRide → isStandby s = false → Room 2 s →
    ∃ t, exec (.rideExpired g) s = .next t ∧ gState t g = gStopped ∧ contClosed t g = false ∧
      (t.loop.stages[gst g]).stopReq = true ∧ (s.gfm.stages[g]).stateAt + rideNs s g ≤ localNs t ∧
      Logged [(0x5001, 2 * g.val, 0x800), (0x500E, 2 * g.val, 0)] s t)

/-- R252 to R259, R264, R265, R271, R276. An update brings the settings written into force, takes four samples of each input, a
replaced one being that of 64 positions earlier, and judges every current element of a feeder that is on by its valid quantities: a
disabled one neither starts nor operates; a non-directional one is started as its quantity exceeds its threshold. An element whose
delay or accumulator has run out operates, and issues a trip unless the feeder is blocked. A fast 50P sample counts, operates and
drops out by its phases. f_tr follows V1 above 10 %, between 45 and 65 Hz, and holds below. Ten milliseconds of 49 move θ by its
time constant; each write to EMBER, a second after the last, takes all eight levels. An element 32 whose delay has elapsed operates. -/
def Obligations.ProtElements : Prop :=
  (∀ (i : BitVec 64) (x : PhasorSamples) (s : State), i.toNat + 1 < 2 ^ 64 → ∃ t, exec (.phasorUpdate i x) s = .next t ∧
    i.toNat ≤ nowNat t ∧ t.prot.old = [] ∧
    (∀ k : Fin 3, (s.prot.voltWin[k]).xs.length = 64 → let w := x.volt[k][3]
      (t.prot.voltWin[k]).xs.length = 64 ∧ (t.prot.voltWin[k]).xs.drop 4 = (s.prot.voltWin[k]).xs.take 60 ∧
      (t.prot.voltWin[k]).repl.head? = some (!w.usable) ∧
      (w.usable = false → (t.prot.voltWin[k]).xs.head? = (s.prot.voltWin[k]).xs[60]?) ∧
      (w.usable = true → (w.tag1 - w.tag0).toNat ≠ 0 → nowNat t = 25 * w.tag0.toNat →
        (t.prot.voltWin[k]).xs.head? = some (q15Rat w.v0.toInt))) ∧
    (∀ k : Fin 3, t.prot.vInvalid[k] = decide (8 < (t.prot.voltWin[k]).repl.count true)) ∧
    let p := phasors t; let u := takeSettings s; ∀ f : Fin 8, feederOn u f = true →
      (t.prot.feeders[f]).lastUpd = some (localNs t) ∧ (t.prot.feeders[f]).invalid = (p.feeders[f]).bad ∧
      ∀ e : Fin 7, (if e = 4 ∨ e = 5 then (feederMeas u f p).i0Bad else (feederMeas u f p).iBad) = false →
        (feederMeas u f p).vBad = false →
        (pflg u (Reg.PROT_OC f e) F.PROT_OC_en = false → isStarted t f e = false ∧ isOperated t f e = false ∧
          (t.prot.feeders[f]).acc[e] = 0) ∧
        (pflg u (Reg.PROT_OC f e) F.PROT_OC_en = true → ¬ (e = 0 ∧ fastMode u f = true) →
          pfld u (Reg.PROT_OC f e) F.PROT_OC_dir = 0 → isStarted t f e = (ocQuantity u f e (feederMeas u f p)).2)) ∧
  (∀ (f : Fin 8) (e : Fin 7) (i : BitVec 64) (s : State), feederOn s f = true → isStarted s f e = true →
    isOperated s f e = false → ¬ (e = 0 ∧ fastMode s f = true) →
    ocHeld s f e (badPhases s f) (badResidual s f) (badBus s) = false → (s.prot.feeders[f]).opPrev.testBit e = false →
    ((curveOf s f e = 0 ∧ ∃ a, (s.prot.feeders[f]).startAt[e.val] = some a ∧
        a + 10000000 * pfld s (Reg.PROT_OC_T f e) F.PROT_OC_T_mult ≤ localNs s) ∨
      (curveOf s f e ≠ 0 ∧ 1 ≤ (s.prot.feeders[f]).acc[e])) → Room 24 s →
    ∃ t, exec (.protOperate f e i) s = .next t ∧ isOperated t f e = true ∧
      fbit t (Reg.PROT_FDR_FLAGS f) F.PROT_FDR_FLAGS_operated e = true ∧ Raises 0x6001 f (BitVec.ofNat 32 e) s t ∧
      (feederBlocked s f = false → rd64 t (Reg.PROT_TRIP_TIME f) = now t ∧
        fld t (Reg.PROT_FDR_COUNT f) F.PROT_FDR_COUNT_trip_count = min (2 ^ F.PROT_FDR_COUNT_trip_count.w - 1)
          (fld s (Reg.PROT_FDR_COUNT f) F.PROT_FDR_COUNT_trip_count + 1)) ∧
      (feederBlocked s f = true → rd64 t (Reg.PROT_TRIP_TIME f) = rd64 s (Reg.PROT_TRIP_TIME f) ∧
        (tripCmd s f = false → tripCmd t f = false))) ∧
  (∀ (f : Fin 8) (e : Fin 7) (i : BitVec 64) (s : State), feederOn s f = false ∨ isStarted s f e = false ∨
    isOperated s f e = true → exec (.protOperate f e i) s = .next (reachNs s i)) ∧
  (∀ (f : Fin 8) (p : Fin 3) (q : BitVec 16) (usable : Bool) (s : State),
    (feederOn s f = false ∨ fastMode s f = false → exec (.fast50p f p q usable) s = .next s) ∧
    (feederOn s f = true → fastMode s f = true →
      let x := s.prot.feeders[f]
      let n := pfld s (Reg.PROT_OC f 0) F.PROT_OC_fast_n + 1
      let i : Rat := q15Rat q.toInt * iScale s f / rated s f
      let pk : Rat := (pfld s (Reg.PROT_OC f 0) F.PROT_OC_pickup : Rat) / 100
      let na := if usable = true ∧ 2 * pk * pk < i * i then x.fastAbove[p] + 1 else 0
      let nb := if usable = true ∧ i * i < 2 * (19 / 20 * pk) * (19 / 20 * pk) then x.fastBelow[p] + 1 else 0
      let ops := x.fastOp.set p (if x.fastOp[p] then decide (nb < n) else decide (n ≤ na))
      let any := ops.toList.any id
      ∃ t, exec (.fast50p f p q usable) s = .next t ∧ (t.prot.feeders[f]).fastAbove[p] = na ∧
        (t.prot.feeders[f]).fastBelow[p] = nb ∧ (t.prot.feeders[f]).fastOp = ops ∧ isOperated t f 0 = any ∧
        isStarted t f 0 = any ∧
        fld t (Reg.PROT_FDR_COUNT f) F.PROT_FDR_COUNT_trip_count = (if any && !isOperated s f 0 && !feederBlocked s f then
          min (2 ^ F.PROT_FDR_COUNT_trip_count.w - 1) (fld s (Reg.PROT_FDR_COUNT f) F.PROT_FDR_COUNT_trip_count + 1)
          else fld s (Reg.PROT_FDR_COUNT f) F.PROT_FDR_COUNT_trip_count))) ∧
  (∀ (q : BitVec 16) (s : State), ∃ t, exec (.freqTrack q) s = .next t ∧ t.log = s.log ∧ OnlyRegs [Reg.PROT_FREQ] s t ∧
    (1 / 100 < v1Sq s → badBus s = false → flg t Reg.PROT_FREQ F.PROT_FREQ_hold = false ∧ t.prot.tracked = true ∧
      fld t Reg.PROT_FREQ F.PROT_FREQ_f = max 45000 (min 65000 q.toNat)) ∧
    (v1Sq s < 1 / 100 ∨ badBus s = true → flg t Reg.PROT_FREQ F.PROT_FREQ_hold = true ∧ t.prot = s.prot ∧
      (s.prot.tracked = true → fld t Reg.PROT_FREQ F.PROT_FREQ_f = fld s Reg.PROT_FREQ F.PROT_FREQ_f))) ∧
  (∀ (f : Fin 8) (s : State),
    let x := s.prot.feeders[f]
    let a := Reg.PROT_THERM f
    (feederOn s f = false ∨ (pflg s a F.PROT_THERM_en = true ∧ badPhases s f = true) →
      exec (.thermalUpdate f) s = .next (reachThermal f s)) ∧
    (feederOn s f = true → pflg s a F.PROT_THERM_en = false → ∃ t, exec (.thermalUpdate f) s = .next t ∧
      isStarted t f 8 = false ∧ isOperated t f 8 = false ∧ (t.prot.feeders[f]).theta = x.theta) ∧
    (feederOn s f = true → pflg s a F.PROT_THERM_en = true → badPhases s f = false →
      let iref : Rat := (pfld s a F.PROT_THERM_i_ref : Rat) / 100
      let tau : Rat := 60 * pfld s a F.PROT_THERM_tau
      let th := x.theta + 1 / 100 / tau * (x.iMax2 / (iref * iref) - x.theta)
      ∃ t, exec (.thermalUpdate f) s = .next t ∧ (t.prot.feeders[f]).theta = th ∧
        (∀ b, x.thermAt = some b → b + 10000000 ≤ localNs t) ∧
        isOperated t f 8 = (if isOperated s f 8 then decide (19 / 20 ≤ th) else decide (1 ≤ th)) ∧
        isStarted t f 8 = isOperated t f 8 ∧
        fld t (Reg.PROT_THERM_STATE f) F.PROT_THERM_STATE_theta = min 65535 (th * 10000).floor.toNat)) ∧
  (∀ s : State, ∃ t, exec .thermalSave s = .next t ∧ OnlyRegs [] s t ∧ t.log = s.log ∧
    t.prot.savedFrom = some (localNs t) ∧ (∀ b, s.prot.savedFrom = some b → b + 1000000000 ≤ localNs t) ∧ ∀ f : Fin 8,
      t.prot.feeders[f] = { s.prot.feeders[f] with thetaSaved := (s.prot.feeders[f]).theta, savedAt := now t }) ∧
  (∀ (g : Fin 2) (s : State), (s.prot.u32[g]).since = none ∨ (s.prot.u32[g]).op = true →
    exec (.unit32Operate g) s = .next s) ∧
  (∀ (g : Fin 2) (a : Nat) (s : State), (s.prot.u32[g]).since = some a → (s.prot.u32[g]).op = false → Room 2 s →
    ∃ t, exec (.unit32Operate g) s = .next t ∧ (t.prot.u32[g]).op = true ∧ (∃ p, Raises 0x6201 (2 * g) p s t) ∧
      a + 100000000 * pfld s (Reg.PROT_32 g) F.PROT_32_delay ≤ localNs t ∧
      (fbit s Reg.PROT_BLOCK F.PROT_BLOCK_unit32 g = true → t.loop = s.loop) ∧
      (fbit s Reg.PROT_BLOCK F.PROT_BLOCK_unit32 g = false → ∀ st : Fin 4,
        pbit s (Reg.PROT_32_MAP g) F.PROT_32_MAP_block st = true → latchedBlocked t st = true))

/-- R266, R270, R273 rows 6, 8 and 12, R275. Two milliseconds after the onset the discriminator measures, its counts cleared; 20 ms
after, with no decision, it logs that no feeder qualifies. While a breaker is TRIPPING and open is not confirmed, t_retrip renews
the trip on the second set of outputs and t_bf fails the breaker and blocks its stages. A trip command ends t_min after the latest
issue once the breaker is OPEN. 20 ms of status against current, or of equal 52a and 52b, show the discrepancy. A trip circuit that
has read open for t_74 alarms, and 1 s of continuity restores it. -/
def Obligations.ProtTimers : Prop :=
  (∀ s : State, lmdState s = lmdWait → windowsFrom s + 1 < 2 ^ 64 → Room 1 s → ∃ t, exec .lmdArmed s = .next t ∧
    lmdState t = lmdMeasure ∧ windowsFrom s ≤ nowNat t ∧ (∀ f : Fin 8, (t.prot.feeders[f]).qualRun = 0 ∧
      (t.prot.feeders[f]).qualZ = none ∧ isOperated t f 14 = false) ∧
    Logged [(0x6101, limitMask s, (rd64 s Reg.PROT_LMD_ONSET).extractLsb' 0 32)] s t) ∧
  (∀ s : State, lmdState s ≠ lmdWait → exec .lmdArmed s = .next s) ∧
  (∀ s : State, (lmdState s = lmdMeasure → s.prot.lmdNoFeeder = false → Room 1 s → ∃ t, exec .lmdNoFeeder s = .next t ∧
      t.prot.lmdNoFeeder = true ∧ Logged [(0x6104, 0, 0)] s t ∧ OnlyRegs [] s t) ∧
    (lmdState s ≠ lmdMeasure ∨ s.prot.lmdNoFeeder = true → exec .lmdNoFeeder s = .next s)) ∧
  (∀ (f : Fin 8) (s : State), bkrState s f = bkrTripping → bfOn s f = true → openConfirmed s f = false → Room 2 s →
    (tRetrip s f ≠ 0 → (s.prot.feeders[f]).retripped = false → ∃ t, exec (.bkrRetrip f) s = .next t ∧
      (t.prot.feeders[f]).retripped = true ∧ (t.prot.feeders[f]).retripOut = true ∧ bkrState t f = bkrTripping ∧
      (s.prot.feeders[f]).issueAt + tRetrip s f ≤ localNs t ∧ Logged [(0x6004, f, 0)] s t ∧ OnlyRegs [] s t) ∧
    ∃ t, exec (.bkrFail f) s = .next t ∧ bkrState t f = bkrFailed ∧ (t.prot.feeders[f]).bfAt = some (localNs t) ∧
      fbit t Reg.PROT_STATUS F.PROT_STATUS_bf f = true ∧ (s.prot.feeders[f]).issueAt + tBf s f ≤ localNs t ∧
      fld t (Reg.PROT_FDR_COUNT f) F.PROT_FDR_COUNT_bf_count = min (2 ^ F.PROT_FDR_COUNT_bf_count.w - 1)
        (fld s (Reg.PROT_FDR_COUNT f) F.PROT_FDR_COUNT_bf_count + 1) ∧
      (∃ a, Raises 0x6005 f a s t) ∧
      ∀ st : Fin 4, pbit s (Reg.PROT_BF_MAP f) F.PROT_BF_MAP_block st = true → latchedBlocked t st = true) ∧
  (∀ (f : Fin 8) (s : State), bkrState s f ≠ bkrTripping ∨ bfOn s f = false →
    exec (.bkrRetrip f) s = .next s ∧ exec (.bkrFail f) s = .next s) ∧
  (∀ (f : Fin 8) (s : State), (tripCmd s f = true → bkrState s f = bkrOpen → ∃ t, exec (.tripCommandEnd f) s = .next t ∧
      tripCmd t f = false ∧ fbit t Reg.PROT_STATUS F.PROT_STATUS_trip_cmd f = false ∧
      (t.prot.feeders[f]).retripOut = false ∧ (s.prot.feeders[f]).latestAt + tMin s f ≤ localNs t ∧ t.log = s.log ∧
      OnlyRegs [Reg.PROT_FDR_STATE f, Reg.PROT_STATUS] s t) ∧
    (tripCmd s f = false ∨ bkrState s f ≠ bkrOpen → exec (.tripCommandEnd f) s = .next s)) ∧
  (∀ (f : Fin 8) (s : State), (s.prot.feeders[f]).sameFrom = none → (s.prot.feeders[f]).againstFrom = none →
    exec (.bkrDiscrepancy f) s = .next s) ∧
  (∀ (f : Fin 8) (a : Nat) (s : State), Room 1 s →
    ((s.prot.feeders[f]).sameFrom = none → (s.prot.feeders[f]).againstFrom = some a → aUsed s f = true → bUsed s f = false →
      aLevel s f = false → currentOpen s f = false → bkrState s f = bkrClosed ∨ bkrState s f = bkrTripping →
      flg s (Reg.PROT_FDR_STATE f) F.PROT_FDR_STATE_status_invalid = false →
      ∃ t, exec (.bkrDiscrepancy f) s = .next t ∧ a + 20000000 ≤ localNs t ∧
        flg t (Reg.PROT_FDR_STATE f) F.PROT_FDR_STATE_discrepancy = true ∧
        Logged (if flg s (Reg.PROT_FDR_STATE f) F.PROT_FDR_STATE_discrepancy then [] else [(0x6006, f.val, 1)]) s t) ∧
    ((s.prot.feeders[f]).sameFrom = some a → (s.prot.feeders[f]).againstFrom = none → aUsed s f = true → bUsed s f = true →
      aLevel s f = bLevel s f → ∃ t, exec (.bkrDiscrepancy f) s = .next t ∧ a + 20000000 ≤ localNs t ∧
        flg t (Reg.PROT_FDR_STATE f) F.PROT_FDR_STATE_status_invalid = true ∧ bkrStatus t f = .unknown ∧
        Logged (if flg s (Reg.PROT_FDR_STATE f) F.PROT_FDR_STATE_status_invalid then [] else [(0x6006, f.val, 2)]) s t)) ∧
  (∀ (f : Fin 8) (s : State),
    (flg s (Reg.PROT_FDR_STATE f) F.PROT_FDR_STATE_tc_alarm = true → exec (.tcAlarm f) s = .next s) ∧
    (flg s (Reg.PROT_FDR_STATE f) F.PROT_FDR_STATE_tc_alarm = false → exec (.tcRestored f) s = .next s)) ∧
  (∀ (f : Fin 8) (s : State), pflg s (Reg.PROT_TC_CFG f) F.PROT_TC_CFG_en = true → Room 1 s →
    (aUsed s f = true ∨ bUsed s f = true → bkrStatus s f = .isClosed) →
    let out := pfld s (Reg.PROT_TC_CFG f) F.PROT_TC_CFG_out
    (tripIntact s out = some false → flg s (Reg.PROT_FDR_STATE f) F.PROT_FDR_STATE_tc_alarm = false →
      ∃ t, exec (.tcAlarm f) s = .next t ∧ flg t (Reg.PROT_FDR_STATE f) F.PROT_FDR_STATE_tc_alarm = true ∧
        isStarted t f 7 = true ∧ Logged [(0x6008, f, BitVec.ofNat 32 out)] s t) ∧
    (tripIntact s out = some true → flg s (Reg.PROT_FDR_STATE f) F.PROT_FDR_STATE_tc_alarm = true →
      ∃ t, exec (.tcRestored f) s = .next t ∧ flg t (Reg.PROT_FDR_STATE f) F.PROT_FDR_STATE_tc_alarm = false ∧
        isStarted t f 7 = false ∧ Logged [(0x6009, f, BitVec.ofNat 32 out)] s t))

/-- R284, R285, R289, R291 to R294, Table 10.4. REC_CTRL.arm alone arms an idle recorder whose checks pass, its pre rows from the next
stored row, and is refused with the first failing check otherwise. Disarm alone takes an ARMED one without a trigger to IDLE and
closes a capture with cause 4. Trigger alone notes source 8 where it is enabled. A binary channel in the plan whose point has
changed is entered with its level. A closing record's header completes within 10 ms: it awaits NAND. The oldest waiting record is
stored where there is room. A waiting re-arm is made as soon as checks 6 to 8 pass. -/
def Obligations.RecCommands : Prop :=
  (∀ (m : Fin 8) (v : Word) (s : State), Served m true Reg.REC_CTRL 4 s → getF v F.REC_CTRL_trigger = 0 →
    getF v F.REC_CTRL_disarm = 0 → Room 1 s →
    (armRefused s = none → ∃ t, exec (.recCtrlArm m v) s = .next t ∧ t.busReply = .done ∧ recState t = recArmed ∧
      t.recd.rows = [] ∧ t.recd.trigs = [] ∧ t.recd.next = some (nextInterval s) ∧
      rd t Reg.REC_CAP = BitVec.ofNat 32 (recCap s) ∧ flg t Reg.REC_STATUS F.REC_STATUS_rearm_wait = false ∧
      Logged [(0x7001, 0, BitVec.ofNat 32 (min 0xFFFFFFFF (recCap s)))] s t ∧
      OnlyRegs [Reg.REC_STATUS, Reg.REC_CAP, Reg.REC_FILL] s t) ∧
    (∀ e, armRefused s = some e → ∃ t, exec (.recCtrlArm m v) s = .next t ∧ t.busReply = .done ∧ t.recd = s.recd ∧
      fld t Reg.REC_STATUS F.REC_STATUS_arm_err = e.1 ∧ recState t = recState s ∧
      Logged [(0x7009, e.1, BitVec.ofNat 32 e.2)] s t ∧ OnlyRegs [Reg.REC_STATUS] s t)) ∧
  (∀ (m : Fin 8) (v : Word) (s : State), Served m true Reg.REC_CTRL 4 s → getF v F.REC_CTRL_trigger = 0 →
    getF v F.REC_CTRL_arm = 0 →
    (recState s = recArmed → s.recd.trigs = [] → ∃ t, exec (.recCtrlDisarm m v) s = .next t ∧ t.busReply = .done ∧
      recState t = recIdle ∧ t.recd.rows = [] ∧ t.recd.next = none ∧ t.recd.awaiting = s.recd.awaiting ∧
      t.recd.stored = s.recd.stored) ∧
    (recState s = recArmed → s.recd.trigs ≠ [] →
      exec (.recCtrlDisarm m v) s = .next { s with busReply := .done }) ∧
    (∀ r, recState s = recCapturing → s.recd.cur = some r → ∃ t, exec (.recCtrlDisarm m v) s = .next t ∧
      t.busReply = .done ∧ recState t = recClosing ∧ t.recd.cur = some { r with cause := 4 } ∧
      t.recd.closedAt = localNs s ∧ t.log = s.log ∧ OnlyRegs [Reg.REC_STATUS] s t) ∧
    (recState s ≠ recArmed → recState s ≠ recCapturing →
      exec (.recCtrlDisarm m v) s = .next { s with busReply := .done })) ∧
  (∀ (m : Fin 8) (v : Word) (s : State), Served m true Reg.REC_CTRL 4 s → getF v F.REC_CTRL_disarm = 0 →
    getF v F.REC_CTRL_arm = 0 → ∃ t, exec (.recCtrlTrigger m v) s = .next t ∧ t.busReply = .done ∧ OnlyRegs [] s t ∧
      t.recd = if (recState s = recArmed ∨ recState s = recCapturing) ∧ fbit s Reg.REC_TRIG_SRC F.REC_TRIG_SRC_en 8 = true
        then { s.recd with trigs := s.recd.trigs ++ [⟨8, nowNat s⟩] } else s.recd) ∧
  (∀ (b : Fin 256) (i : BitVec 64) (s : State), recState s ≠ recIdle → bchanOn s b = true →
    s.recd.bin.getLsbD b = (!bchanPoint s b) → changesHeld s < changeEntries →
    ∃ t, exec (.binaryChange b i) s = .next t ∧ t.recd.bin.getLsbD b = bchanPoint s b ∧
      t.recd.changes = insertChange ⟨(changeInstant s b i).toNat, b, bchanPoint s b, holdoverNow s⟩ s.recd.changes ∧
      (∀ c : Fin 256, c ≠ b → t.recd.bin.getLsbD c = s.recd.bin.getLsbD c) ∧ t.log = s.log ∧
      OnlyRegs [Reg.REC_FILL] s t ∧
      t.recd.trigs = s.recd.trigs ++ (if edgeTriggers s b (bchanPoint s b) = true ∧ recState s ≠ recClosing ∧
        (recState s = recArmed ∨ recState s = recCapturing) ∧ fbit s Reg.REC_TRIG_SRC F.REC_TRIG_SRC_en 7 = true
        then [⟨7, (changeInstant s b i).toNat⟩] else [])) ∧
  (∀ (b : Fin 256) (i : BitVec 64) (s : State), recState s = recIdle ∨ bchanOn s b = false ∨
    s.recd.bin.getLsbD b = bchanPoint s b → ∃ t, exec (.binaryChange b i) s = .next t ∧ t.recd = s.recd ∧
      t.log = s.log ∧ OnlyRegs [] s t) ∧
  (∀ (r : Record) (s : State), recState s = recClosing → s.recd.cur = some r → Room 4 s →
    ∃ t, exec .recClosed s = .next t ∧ t.recd.cur = none ∧ t.recd.awaiting = s.recd.awaiting ++ [finishRecord r s] ∧
      s.recd.closedAt + 10000000 ≤ localNs t ∧ rd t Reg.REC_LAST_NO = r.number ∧ Raises 0x7003 r.cause r.number s t ∧
      (flg s Reg.REC_CFG F.REC_CFG_auto_rearm = false → recState t = recIdle)) ∧
  (∀ s : State, recState s ≠ recClosing → exec .recClosed s = .next s) ∧
  (∀ s : State, s.recd.awaiting = [] → exec .recStored s = .next s) ∧
  (∀ (r : Record) (l : List Record) (s : State), s.recd.awaiting = r :: l →
    hasRoom { s with recd := { s.recd with awaiting := l } } r.size = true → Room 4 s →
    ∃ t, exec .recStored s = .next t ∧ t.recd.awaiting = l ∧
      t.recd.stored = s.recd.stored ++ [{ r with drained := 0, op := none }] ∧ Raises 0x7004 0 r.number s t) ∧
  (∀ s : State, recState s ≠ recIdle ∨ flg s Reg.REC_STATUS F.REC_STATUS_rearm_wait = false →
    exec .recRearm s = .next s) ∧
  (∀ s : State, recState s = recIdle → flg s Reg.REC_STATUS F.REC_STATUS_rearm_wait = true →
    flg s Reg.REC_CFG F.REC_CFG_auto_rearm = true → Room 1 s →
    (roomRefused s = none → ∃ t, exec .recRearm s = .next t ∧ recState t = recArmed ∧
      flg t Reg.REC_STATUS F.REC_STATUS_rearm_wait = false ∧
      Logged [(0x7001, 1, BitVec.ofNat 32 (min 0xFFFFFFFF (recCap s)))] s t) ∧
    (roomRefused s ≠ none → ∃ t, exec .recRearm s = .next t ∧ recState t = recIdle ∧ t.recd = s.recd ∧ t.log = s.log ∧
      flg t Reg.REC_STATUS F.REC_STATUS_rearm_wait = true))

/-- R279, R281, R285 to R288, R292. The five rows are capture instants: the next one, or where they name what it completes, the next one
under that condition and nothing otherwise. A capture instant of an armed or capturing plan that completes no row adds its samples
to the interval. One that completes a row of an armed plan without a level trigger, a mask or a trigger keeps the row within the
pre-trigger length; with a trigger at or before it the capture begins there, with the next record number. A level trigger whose
count is complete fires; a mask whose count is complete is violated, shown and logged. -/
def Obligations.RecCapture : Prop :=
  let due := fun (s : State) => s.recd.next.getD (nextInterval s)
  let active := fun (s : State) => recState s = recArmed ∨ recState s = recCapturing
  let levelDue := fun (l : Fin 8) (s : State) => flg s (Reg.REC_LEVEL l) F.REC_LEVEL_en = true ∧
    (s.recd.levels[l]).fired = false ∧ (s.recd.levels[l]).count + 1 = max 1 (fld s (Reg.REC_LEVEL l) F.REC_LEVEL_n)
  let samples := fun (x : Vector CapInput 64) (s : State) =>
    (achans s).map (fun c => (c, capSample (capQ s (due s)) x[c]))
  let accs := fun (x : Vector CapInput 64) (s : State) =>
    ((if s.recd.accN = 0 then (samples x s).map (fun _ => ({} : ChAcc)) else s.recd.acc).zip (samples x s)).map
      (fun p => accSample p.1 p.2.2)
  let row := fun (x : Vector CapInput 64) (s : State) =>
    (⟨capQ s (due s + 1 - recK s) / 4, ((accs x s).map (accWords (recK s))).flatten, rd s Reg.TIME_STATE⟩ : RecRow)
  let quiet := fun (s : State) => (∀ l : Fin 8, flg s (Reg.REC_LEVEL l) F.REC_LEVEL_en = false) ∧
    ∀ k : Fin 4, fld s (Reg.REC_MASK_CFG k) F.REC_MASK_CFG_action = 0 ∧ (s.recd.masks[k]).left = none
  let adds := fun (x : Vector CapInput 64) (s t : State) => t.recd.next = some (due s + 1) ∧
    capQ s (due s) + 8000000 ≤ t.tai.toNat ∧ t.recd.accN = s.recd.accN + 1 ∧ t.recd.acc = accs x s ∧
    t.recd.rows = s.recd.rows ∧ t.log = s.log ∧ OnlyRegs [] s t
  let keeps := fun (x : Vector CapInput 64) (s t : State) => recState t = recArmed ∧ t.recd.accN = 0 ∧
    t.recd.formed = s.recd.formed + 1 ∧ t.log = s.log ∧
    t.recd.rows = (s.recd.rows ++ [row x s]).drop ((s.recd.rows ++ [row x s]).length - recPre s)
  let starts := fun (x : Vector CapInput 64) (tr : RecTrigger) (s t : State) => recState t = recCapturing ∧
    t.recd.rows = s.recd.rows ++ [row x s] ∧ t.recd.trigs = [] ∧ t.recd.nextNo = s.recd.nextNo + 1 ∧
    rd64 t Reg.REC_TRIG_TIME = BitVec.ofNat 64 (row x s).at' ∧ Raises 0x7002 tr.src s.recd.nextNo s t ∧
    ∃ r, t.recd.cur = some r ∧ r.number = s.recd.nextNo ∧ r.mask = 2 ^ tr.src.val ∧ r.trigAt = (row x s).at' ∧
      r.preRows = s.recd.rows.length
  (∀ (x : Vector CapInput 64) (s : State), (¬ active s → exec (.captureSample x) s = .next s) ∧
    (rowDue s = false → exec (.storedRow x) s = .next s ∧ exec (.recTriggered x) s = .next s ∧
      ∀ k : Fin 4, exec (.recMaskViolation k x) s = .next s) ∧
    ∀ l : Fin 8, flg s (Reg.REC_LEVEL l) F.REC_LEVEL_en = false → exec (.levelTrigger l x) s = .next s) ∧
  (∀ (x : Vector CapInput 64) (s : State), active s → s.recd.accN + 1 < recK s → capQ s (due s) + 8000008 < 2 ^ 66 →
    (∃ t, exec (.captureSample x) s = .next t ∧ adds x s t) ∧
    ∀ l : Fin 8, levelDue l s → ∃ t, exec (.levelTrigger l x) s = .next t ∧ adds x s t) ∧
  (∀ (x : Vector CapInput 64) (s : State), recState s = recArmed → rowDue s = true → quiet s →
    (s.recd.trigs = [] → (∃ t, exec (.captureSample x) s = .next t ∧ keeps x s t) ∧
      (∃ t, exec (.storedRow x) s = .next t ∧ keeps x s t) ∧ ∃ t, exec (.recTriggered x) s = .next t ∧ keeps x s t) ∧
    (∀ tr, s.recd.trigs = [tr] → 4 * tr.at' ≤ capQ s (due s) → recStream s = false → 1 < recPost s → Room 2 s →
      (∃ t, exec (.captureSample x) s = .next t ∧ starts x tr s t) ∧
      (∃ t, exec (.storedRow x) s = .next t ∧ starts x tr s t) ∧
      ∃ t, exec (.recTriggered x) s = .next t ∧ starts x tr s t)) ∧
  (∀ (l : Fin 8) (x : Vector CapInput 64) (ch : Fin 64) (s : State), active s → levelDue l s →
    ch.val = fld s (Reg.REC_LEVEL l) F.REC_LEVEL_achan → flg s (Reg.REC_ACH ch) F.REC_ACH_en = true →
    capFault (capSample (capQ s (due s)) x[ch]) = false → capUnsettled (capSample (capQ s (due s)) x[ch]) = false →
    levelOn (fld s (Reg.REC_LEVEL l) F.REC_LEVEL_cond) (sfld s (Reg.REC_LEVEL_THR l) F.REC_LEVEL_THR_thr)
      (capSample (capQ s (due s)) x[ch]).value = true →
    ∃ t, exec (.levelTrigger l x) s = .next t ∧ t.recd.levels[l] = { count := 0, fired := true }) ∧
  (∀ (k : Fin 4) (x : Vector CapInput 64) (s : State), active s → rowDue s = true →
    fld s (Reg.REC_MASK_CFG k) F.REC_MASK_CFG_action ≠ 0 → (s.recd.masks[k]).done = false →
    (s.recd.masks[k]).run + 1 = max 1 (fld s (Reg.REC_MASK_CFG k) F.REC_MASK_CFG_n) → Room 12 s →
    (flg s (Reg.REC_MASK_CFG k) F.REC_MASK_CFG_ref = false → recState s = recCapturing) →
    let n := if flg s (Reg.REC_MASK_CFG k) F.REC_MASK_CFG_ref then s.recd.formed else s.recd.post
    maskOut (setRec { s.recd with acc := accs x s } s) k n = true →
    ∃ t, exec (.recMaskViolation k x) s = .next t ∧ (t.recd.masks[k]).done = true ∧
      flg t Reg.REC_STATUS F.REC_STATUS_mask_viol = true ∧ Raises 0x7005 k (BitVec.ofNat 32 n) s t)

/-- R320 to R322, R325, R326, R368. On the ACTIVE unit a run request alone restarts a core in STOP that holds a program, cold with every
variable at its initial value or warm on its retained values where a warm restart is permitted, resumes one in HOLD, and else is
refused. A stop, whatever else is written, and a hold where permitted take effect at once with no started cycle. A step in HOLD waits for
its task's release. A refused request sets refused and logs what and why. Without the ACTIVE role nothing is taken. At the first
publication after ready a program that starts on its own runs. A core in HOLD without permission runs on at the next release. -/
def Obligations.ScanModes : Prop :=
  let core := fun (s : State) (k : Fin 2) => s.scan.cores[k]
  let idle := fun (s : State) (k : Fin 2) => ∀ t : Fin 8, (core s k).tasks[t].busy = true → (core s k).tasks[t].started = false
  let refused := fun (s t : State) (k : Fin 2) => t.busReply = .done ∧ scanMode t k = scanMode s k ∧
    flg t Reg.SCAN_STATUS F.SCAN_STATUS_refused = true ∧ t.scan = s.scan
  let restarted := fun (s t : State) (k : Fin 2) (warm : Bool) => t.busReply = .done ∧ scanMode t k = scanRun ∧
    flg t (Reg.SCAN_STATE k) F.SCAN_STATE_warm_last = warm ∧ fld t (Reg.SCAN_STATE k) F.SCAN_STATE_trap = 0 ∧
    fld t (Reg.SCAN_STATE k) F.SCAN_STATE_overrun = 0 ∧ (core t k).liveFrom = nextPublication s * 250000 ∧ (core t k).timers = [] ∧
    (∀ y ∈ symbolsOf (core s k), (∀ z ∈ symbolsOf (core s k), z.id = y.id → z = y) → symGet (core t k).vars y.id.toNat =
      if warm = true ∧ y.retained = true then symGet (core s k).vars y.id.toNat else y.init) ∧
    Logged [(0x8005, k, BitVec.ofNat 32 (b2n warm)), (0x8001, k, 1)] s t
  (∀ (m : Fin 8) (k : Fin 2) (v : Word) (s : State), Served m true (Reg.SCAN_CTRL k) 4 s → holdsActive s = true → Room 2 s →
    (getF v F.SCAN_CTRL_stop = 0 → getF v F.SCAN_CTRL_hold = 0 → getF v F.SCAN_CTRL_step = 0 →
      (scanMode s k = scanHold → ∃ t, exec (.scanRun m k v) s = .next t ∧ t.busReply = .done ∧ scanMode t k = scanRun ∧
        (core t k).step = none ∧ Logged [(0x8001, k, 0x201)] s t) ∧
      (scanMode s k = scanStop → (core s k).prog.isSome = true → heldInStop s = false →
        (getF v F.SCAN_CTRL_cold = 1 → ∃ t, exec (.scanRun m k v) s = .next t ∧ restarted s t k false) ∧
        (getF v F.SCAN_CTRL_cold = 0 → warmDenied s k = 0 → ∃ t, exec (.scanRun m k v) s = .next t ∧ restarted s t k true) ∧
        (getF v F.SCAN_CTRL_cold = 0 → warmDenied s k ≠ 0 → ∃ t, exec (.scanRun m k v) s = .next t ∧ refused s t k ∧
          Logged [(0x8006, k, BitVec.ofNat 32 (warmDenied s k)), (0x8003, k, 0x109)] s t)) ∧
      (scanMode s k = scanStop → (core s k).prog.isNone = true ∨ heldInStop s = true →
        ∃ t, exec (.scanRun m k v) s = .next t ∧ refused s t k ∧ Logged [(0x8003, k, 0x109)] s t)) ∧
    (scanMode s k ≠ scanStop → idle s k → ∃ t, exec (.scanStop m k v) s = .next t ∧ t.busReply = .done ∧
      scanMode t k = scanStop ∧ (core t k).step = none ∧ (∀ i : Fin 8, (core t k).tasks[i].busy = false) ∧
      Logged [(0x8001, k, BitVec.ofNat 32 (scanMode s k * 256))] s t) ∧
    (scanMode s k ≠ scanStop → ¬ idle s k → ∃ t, exec (.scanStop m k v) s = .next t ∧ t.busReply = .done ∧
      scanMode t k = scanMode s k ∧ (core t k).quiesce = some scanStop ∧ t.log = s.log) ∧
    (getF v F.SCAN_CTRL_stop = 0 →
      (scanMode s k = scanRun → (core s k).quiesce ≠ some scanStop → holdPermitted s = true → idle s k → ∃ t, exec (.scanHold m k v) s = .next t ∧
        t.busReply = .done ∧ scanMode t k = scanHold ∧ Logged [(0x8001, k, 0x102)] s t) ∧
      (scanMode s k = scanRun → (core s k).quiesce ≠ some scanStop → holdPermitted s = false → ∃ t, exec (.scanHold m k v) s = .next t ∧ refused s t k ∧
        Logged [(0x8003, k, 0x207)] s t) ∧
      (scanMode s k ≠ scanRun ∨ (core s k).quiesce = some scanStop → ∃ t, exec (.scanHold m k v) s = .next t ∧ refused s t k ∧
        Logged [(0x8003, k, 0x209)] s t)) ∧
    (getF v F.SCAN_CTRL_stop = 0 → getF v F.SCAN_CTRL_hold = 0 →
      (scanMode s k = scanHold → (core s k).step = none → ∃ t, exec (.scanStep m k v) s = .next t ∧ t.busReply = .done ∧
        (core t k).step = some (Fin.ofNat 8 (getF v F.SCAN_CTRL_step_task)) ∧ scanMode t k = scanHold ∧ t.log = s.log) ∧
      (scanMode s k = scanHold → (core s k).step.isSome = true → ∃ t, exec (.scanStep m k v) s = .next t ∧
        refused s t k ∧ Logged [(0x8003, k, 0x301)] s t) ∧
      (scanMode s k ≠ scanHold → ∃ t, exec (.scanStep m k v) s = .next t ∧ refused s t k ∧
        Logged [(0x8003, k, 0x309)] s t))) ∧
  (∀ (m : Fin 8) (k : Fin 2) (v : Word) (s : State), Served m true (Reg.SCAN_CTRL k) 4 s → holdsActive s = false →
    let t := setF { s with busReply := .done } Reg.DPX_STATUS F.DPX_STATUS_role_write 1
    exec (.scanRun m k v) s = .next t ∧ exec (.scanStop m k v) s = .next t ∧ exec (.scanHold m k v) s = .next t ∧
      exec (.scanStep m k v) s = .next t) ∧
  (∀ (k : Fin 2) (p : ScanProgram) (s : State), (core s k).prog = some p → (core s k).autoDone = false → ready s = true →
    heldInStop s = false → p.autostart = true → scanMode s k = scanStop →
    ∃ t, exec (.scanAutostart k) s = .next t ∧ scanMode t k = scanRun ∧ (core t k).autoDone = true ∧
      (core t k).liveFrom = nowNat s) ∧
  (∀ (k : Fin 2) (s : State), (core s k).prog = none ∨ (core s k).autoDone = true ∨ ready s = false ∨ heldInStop s = true →
    exec (.scanAutostart k) s = .next s) ∧
  (∀ (k : Fin 2) (s : State), (scanMode s k = scanHold → holdPermitted s = false → (∃ t : Fin 8, periodOf s k t ≠ 0) →
      Room 2 s → ∃ t, exec (.holdEnded k) s = .next t ∧ scanMode t k = scanRun ∧ (core t k).step = none ∧
        Logged [(0x8001, k, 0x201), (0x8004, k, BitVec.ofNat 32 (fld s Reg.CTRL_STATUS F.CTRL_STATUS_energised))] s t) ∧
    (scanMode s k ≠ scanHold ∨ holdPermitted s = true → exec (.holdEnded k) s = .next s))

/-- R39, R305, R307 to R309, R313, R315, R316, R323, R324, R327, R328, R330 to R332. A release comes at the next multiple of its period
and releases a cycle, or finds the last one unfinished and is counted, the sixteenth in a row trapping the core. A cycle takes the
most recent complete image with the forces; complete and on time it hands its outputs over, forces applied; late, its transfer waits. A trap stops the
core. A commit writes the copy that is not the newer one. A swap point starts the new program on the other banks. A remote set is
valid with its stamp until its age exceeds its timeout. A publication begins every core's image of the input layer's states, complete
within 3 µs, and takes its output image. -/
def Obligations.ScanCycles : Prop :=
  let core := fun (s : State) (k : Fin 2) => s.scan.cores[k]
  (∀ (k : Fin 2) (i : Fin 8) (s : State), (periodOf s k i = 0 → exec (.taskRelease k i) s = .next s) ∧
    (periodOf s k i ≠ 0 → nextRelease s k i + 1 < 2 ^ 64 → Room 2 s →
      let y := (core s k).tasks[i]
      ∃ t, exec (.taskRelease k i) s = .next t ∧ nextRelease s k i ≤ nowNat t ∧ nextRelease s k i % periodOf s k i = 0 ∧
        (core t k).tasks[i].lastRel = some (nextRelease s k i) ∧
        (scanMode s k = scanStop → (core t k).tasks[i] =
          { y with lastRel := some (nextRelease s k i), counter := y.counter + 1 } ∧ t.log = s.log ∧ OnlyRegs [] s t) ∧
        (scanMode s k = scanHold → holdPermitted s = true → t.log = s.log ∧ OnlyRegs [] s t ∧
          ((core s k).step = some i → y.busy = false → (core t k).tasks[i].busy = true ∧
            (core t k).tasks[i].relAt = nextRelease s k i ∧ (core t k).tasks[i].counter = y.counter + 1) ∧
          ((core s k).step ≠ some i → (core t k).tasks[i] = { y with lastRel := some (nextRelease s k i) })) ∧
        (scanMode s k = scanRun → (core s k).liveFrom ≤ nextRelease s k i → (core s k).quiesce = none → (core s k).frozen = false →
          transferring s k = false → swapDue s k (nextRelease s k i) = false → (core t k).tasks[i].counter = y.counter + 1 ∧
          (y.busy = false → (core t k).tasks[i].busy = true ∧ (core t k).tasks[i].started = false ∧
            (core t k).tasks[i].relAt = nextRelease s k i ∧ t.log = s.log ∧ OnlyRegs [] s t) ∧
          (y.busy = true → fbit t (Reg.SCAN_STATE k) F.SCAN_STATE_overrun i = true ∧
            (rd t (Reg.SCAN_TASK_STAT k i)).toNat = min 0xFFFFFFFF ((rd s (Reg.SCAN_TASK_STAT k i)).toNat + 1) ∧
            (y.consecutive + 1 ≠ 16 → scanMode t k = scanRun ∧ (core t k).tasks[i].consecutive = y.consecutive + 1) ∧
            (y.consecutive + 1 = 16 → scanMode t k = scanStop ∧ fld t (Reg.SCAN_STATE k) F.SCAN_STATE_trap = 3))))) ∧
  (∀ (k : Fin 2) (i : Fin 8) (s : State), (core s k).tasks[i].busy = true → (core s k).tasks[i].started = false →
    preempted s k i (max (nowNat s) ((core s k).tasks[i].relAt + 4000)) = false →
    (core s k).tasks[i].relAt + 4001 < 2 ^ 64 → ∃ t, exec (.cycleStart k i) s = .next t ∧
      (core t k).tasks[i].started = true ∧ (core s k).tasks[i].relAt + 4000 ≤ nowNat t ∧
      let b := (core s k).input.settle (nowNat t)
      (core t k).input = { b with reading := b.latest } ∧ (core t k).tasks[i].imageAt = b.latest.stamp ∧
      ∀ y ∈ symbolsOf (core s k), isOutput y = false → symGet (core t k).tasks[i].image y.id.toNat =
        match forceOn s k y.id.toNat with | none => symGet b.latest.values y.id.toNat | some f => f.value) ∧
  (∀ (k : Fin 2) (i : Fin 8) (e : BitVec 64) (w : CycleResult) (s : State), (core s k).tasks[i].busy = true →
    (core s k).tasks[i].started = true → preempted s k i (max (nowNat s) e.toNat) = false → e.toNat + 1 < 2 ^ 64 →
    s.pwr.sleepFrom = none → (core s k).quiesce = none → (core s k).frozen = false → transferring s k = false →
    ∃ t, exec (.cycleComplete k i e w) s = .next t ∧ (core t k).tasks[i].busy = false ∧ e.toNat ≤ nowNat t ∧
      (core t k).vars = w.writes.foldl (fun l x => symPut l x.1.toNat x.2) (core s k).vars ∧
      ((core s k).tasks[i].skipped = 0 → ∀ y ∈ symbolsOf (core s k), isOutput y = true → y.task = i →
        symGet (core t k).out y.id.toNat = symGet (core t k).vars y.id.toNat ∧
        symGet (core t k).output.latest.values y.id.toNat = forced s k y.id.toNat (symGet (core t k).vars y.id.toNat)) ∧
      ((core s k).tasks[i].skipped ≠ 0 → (core t k).out = (core s k).out ∧ (core t k).output = (core s k).output ∧
        (core t k).tasks[i].held.isSome = true)) ∧
  (∀ (k : Fin 2) (i : Fin 8) (c : Fin 5) (s : State),
    ((core s k).tasks[i].busy = false → exec (.cycleStart k i) s = .next s ∧
      (s.pwr.sleepFrom = none → exec (.scanTrap k i c) s = .next s)) ∧
    ((core s k).tasks[i].busy = true → scanMode s k ≠ scanStop → s.pwr.sleepFrom = none → Room 2 s →
      ∃ t, exec (.scanTrap k i c) s = .next t ∧
      scanMode t k = scanStop ∧ fld t (Reg.SCAN_STATE k) F.SCAN_STATE_trap = c.val ∧
      (∀ j : Fin 8, (core t k).tasks[j].busy = false) ∧ (core t k).out = (core s k).out ∧
      Logged [(0x8007, k, BitVec.ofNat 32 (i.val * 0x1000000 + c.val)),
        (0x8001, k, BitVec.ofNat 32 (scanMode s k * 256))] s t)) ∧
  (∀ s : State, nextCommit s * 10000000 + 1 < 2 ^ 64 → ∃ t, exec .retainCommit s = .next t ∧ OnlyRegs [] s t ∧
    t.log = s.log ∧ t.scan.lastCommit = some (nextCommit s) ∧ nextCommit s * 10000000 ≤ nowNat t ∧ ∀ k : Fin 2,
    ((core s k).prog = none → core t k = core s k) ∧ ∀ p, (core s k).prog = some p → (core t k).queue = [] ∧
      ∃ d : Fin 2, (core t k).copies = (core s k).copies.set d (some (nextSet s k p)) ∧
        ∀ a b, (core s k).copies[d] = some a → (core s k).copies[1 - d] = some b → a.order ≤ b.order) ∧
  (∀ (k : Fin 2) (s : State), (core s k).exchange = none → fld s (Reg.SCAN_XCHG k) F.SCAN_XCHG_state ≠ 1 →
    exec (.progSwap k) s = .next s) ∧
  (∀ (k : Fin 2) (x : Exchange) (s : State), (core s k).exchange = some x →
    fld s (Reg.SCAN_XCHG k) F.SCAN_XCHG_state = 1 → (∀ j : Fin 8, (core s k).tasks[j].busy = false) →
    (rd64 s (Reg.SCAN_SWAP_TIME k)).toNat + 1 < 2 ^ 64 → ∃ t, exec (.progSwap k) s = .next t ∧ (core t k).prog = some x.prog ∧ (core t k).exchange = none ∧
      rd t (Reg.SCAN_PROG_ID k) = x.prog.buildId ∧ fld t (Reg.SCAN_XCHG k) F.SCAN_XCHG_state = 0 ∧
      (rd64 s (Reg.SCAN_SWAP_TIME k)).toNat ≤ nowNat t ∧
      flg t (Reg.SCAN_STATE k) F.SCAN_STATE_code_live = !flg s (Reg.SCAN_STATE k) F.SCAN_STATE_code_live ∧
      flg t (Reg.SCAN_STATE k) F.SCAN_STATE_data_live = !flg s (Reg.SCAN_STATE k) F.SCAN_STATE_data_live) ∧
  (∀ (k : Fin 2) (b : Fin 32) (l : List Word) (s : State), Room 1 s →
    (∃ t, exec (.remoteSet k b l) s = .next t ∧ (core t k).remotes[b] = ⟨l, now s, true, true⟩ ∧
      rd t (Reg.SCAN_REMOTE_STALE k) = rd s (Reg.SCAN_REMOTE_STALE k) &&& ~~~(1#32 <<< b.val) ∧
      Logged (if (rd s (Reg.SCAN_REMOTE_STALE k)).getLsbD b then [(0x8032, k.val, BitVec.ofNat 32 b)] else []) s t ∧
      OnlyRegs [Reg.SCAN_REMOTE_STALE k] s t) ∧
    ((core s k).remotes[b].valid = true → ∃ t, exec (.remoteStale k b) s = .next t ∧
      (core t k).remotes[b] = { (core s k).remotes[b] with valid := false } ∧
      rd t (Reg.SCAN_REMOTE_STALE k) = rd s (Reg.SCAN_REMOTE_STALE k) ||| (1#32 <<< b.val) ∧
      (∀ d, blockTimeout s (k, b) = some d → (core s k).remotes[b].stamp.toNat + d + 2 < 2 ^ 64 →
        (core s k).remotes[b].stamp.toNat + d < nowNat t) ∧
      Logged [(0x8031, k.val, BitVec.ofNat 32 b)] s t ∧ OnlyRegs [Reg.SCAN_REMOTE_STALE k] s t) ∧
    ((core s k).remotes[b].valid = false → exec (.remoteStale k b) s = .next s)) ∧
  (∀ (x y : List (Word × BitVec 64)) (s : State),
    nextPublication s * 250000 + 1 < 2 ^ 64 → ∃ t, exec (.inputImagePublication x y) s = .next t ∧
      t.scan.lastPub = some (nextPublication s) ∧ nextPublication s * 250000 ≤ nowNat t ∧
      t.scan.doTaken = BitVec.ofNat 16 (doOf t 0 ||| doOf t 1) ∧ ∀ k : Fin 2,
        (core t k).output.reading = (core t k).output.latest ∧ ∃ img done, (core t k).input.writing = some (img, done) ∧
        img.stamp = now t ∧ nowNat t ≤ done ∧ done ≤ nowNat t + 3000 ∧
        ∀ y ∈ symbolsOf (core s k), (∀ z ∈ symbolsOf (core s k), z.id = y.id → z = y) → ∀ n, y.item = .diState n →
          symGet img.values y.id.toNat = BitVec.ofNat 64 (b2n (fbit s Reg.FIO_DI_STATE F.FIO_DI_STATE_debounced n)))

/-- R337, R339, R342 to R346, R349, R352, R353. A valid frame gives every output its command and shows what each is; with the resume
flag the sixteenth in a row ends the safe state, without it the safe state begins; a bad one only counts. The safe state also
begins when no valid frame comes for the timeout. Nine frames whose copy disagrees with the strobe are logged. An input sample
debounces each input and notes its edges. An overloaded output turns off and waits for a retry or latches; a retry comes 1 s later;
a write releases. Clamp pulses are summed over 1 s and judged. The monitor of an output that is off judges load and external drive.
While the link is silent its events wait, no sample arrives, and a write does not reach the field die (R17). -/
def Obligations.FioOutputs : Prop :=
  let shown := fun (t : State) => ∀ n : Fin 16, fbit t Reg.FIO_DO_STATE F.FIO_DO_STATE_on n = doOn t n
  (∀ s : State, s.fio.linkOn = false → ∀ ok n, exec (.fieldLinkFrame ok) s = .next s ∧ exec .safeStateLeft s = .next s ∧
    exec (.strobeMismatch n) s = .next s) ∧
  (∀ s : State, s.fio.linkOn = true → Room 16 s → ∃ t, exec (.fieldLinkFrame true) s = .next t ∧
    (∀ n < 16, fbit t Reg.FIO_DO_STATE F.FIO_DO_STATE_cmd n = frameCommand s n) ∧ t.fio.lastValid = localNs s ∧ shown t ∧
    (s.fio.resume = false → inSafe t = true) ∧
    (s.fio.resume = true → inSafe s = false → inSafe t = false) ∧
    (s.fio.resume = true → inSafe s = true → s.fio.resumeRun < 15 → inSafe t = true ∧
      t.fio.resumeRun = s.fio.resumeRun + 1) ∧
    (s.fio.resume = true → inSafe s = true → 15 ≤ s.fio.resumeRun → inSafe t = false)) ∧
  (∀ s : State, s.fio.linkOn = true → Room 1 s → ∃ t, exec (.fieldLinkFrame false) s = .next t ∧
    rd t Reg.FIO_LINK_STAT = BitVec.ofNat 32 (min 0xFFFFFFFF ((rd s Reg.FIO_LINK_STAT).toNat + 1)) ∧ t.fio.resumeRun = 0 ∧
    t.fio.dos = s.fio.dos ∧ t.fio.trips = s.fio.trips ∧ OnlyRegs [Reg.FIO_LINK_STAT] s t ∧
    Logged (if oncePerSecond s.fio.badLogged s then [(0x9033, 0, BitVec.ofNat 32 (s.fio.badNew + 1))] else []) s t) ∧
  (∀ s : State, inSafe s = true ∨ s.fio.sleeping = true → exec .safeStateEntered s = .next s) ∧
  (∀ s : State, inSafe s = false → s.fio.sleeping = false → Room 5 s → ∃ t, exec .safeStateEntered s = .next t ∧
    inSafe t = true ∧ flg t Reg.FIO_STATUS F.FIO_STATUS_safe_seen = true ∧ t.fio.resumeRun = 0 ∧ shown t ∧
    t.fio.holdCmd.toNat = fld s Reg.FIO_DO_STATE F.FIO_DO_STATE_cmd ∧
    s.fio.lastValid + 100000 * fld s Reg.FIO_SAFE_CFG F.FIO_SAFE_CFG_timeout ≤ localNs t ∧ Tells 0x9031 0 1 s t) ∧
  (∀ s : State, s.fio.linkOn = true → s.fio.resume = true → inSafe s = true → s.fio.resumeRun = 15 → Room 16 s →
    ∃ t, exec .safeStateLeft s = .next t ∧ inSafe t = false ∧ shown t ∧ ∃ us, Raises 0x9032 0 us s t) ∧
  (∀ s : State, s.fio.resume = false ∨ inSafe s = false ∨ s.fio.resumeRun ≠ 15 → exec .safeStateLeft s = .next s) ∧
  (∀ (n : Fin 4) (s : State), s.fio.linkOn = true → (s.fio.trips[n]).disagree = 8 → strobeOf s n ≠ protTrip s n →
    Room 16 s → ∃ t, exec (.strobeMismatch n) s = .next t ∧ (t.fio.trips[n]).disagree = 9 ∧
      Raises 0x9026 n (if strobeOf s n then 1 else 2) s t) ∧
  (∀ (n : Fin 4) (s : State), (s.fio.trips[n]).disagree ≠ 8 ∨ strobeOf s n = protTrip s n →
    exec (.strobeMismatch n) s = .next s) ∧
  (∀ (raw : BitVec 16) (s : State),
    let here := (nowNat s + 99999) / 100000
    let k := match s.fio.lastDi with | none => here | some l => max here (l + 1)
    k * 100000 + 1 < 2 ^ 64 → ∃ t, exec (.diSample raw) s = .next t ∧ t.fio.lastDi = some k ∧ k * 100000 ≤ nowNat t ∧
      (s.fio.linkOn = false → OnlyRegs [] s t ∧ t.log = s.log ∧ t.scan = s.scan) ∧
      (s.fio.linkOn = true → fld t Reg.FIO_DI_STATE F.FIO_DI_STATE_raw = raw.toNat ∧ OnlyRegs [Reg.FIO_DI_STATE] s t ∧ t.log = s.log ∧
      ∀ n : Fin 16, fbit t Reg.FIO_DI_STATE F.FIO_DI_STATE_debounced n = (debounce s raw n).2 ∧
        t.fio.diRun[n] = (debounce s raw n).1 ∧
        (fbit s Reg.FIO_DI_STATE F.FIO_DI_STATE_debounced n = false → (debounce s raw n).2 = true → ∀ c : Fin 2,
          ((t.scan.cores[c]).edges[n]).rise.flag = true ∧
          ((t.scan.cores[c]).edges[n]).rise.n = min 255 (((s.scan.cores[c]).edges[n]).rise.n + 1) ∧
          (((s.scan.cores[c]).edges[n]).rise.flag = false → ((t.scan.cores[c]).edges[n]).rise.at' = now t)))) ∧
  (∀ (n : Fin 16) (hot : Bool) (s : State),
    let x := s.fio.dos[n]
    let retry := flg s (Reg.FIO_DO_CFG n) F.FIO_DO_CFG_retry
    let failed : Bool := match x.retryAt with | none => false | some a => decide (localNs s ≤ a + 11000000)
    let r : Nat := if failed then x.retries + 1 else 0
    let last := retry && decide (3 ≤ r)
    (doOn s n = false → exec (.doOverload n hot) s = .next s) ∧
    (doOn s n = true → Room 1 s → ∃ t, exec (.doOverload n hot) s = .next t ∧ doOn t n = false ∧ shown t ∧
      fbit t Reg.FIO_DO_FAULT F.FIO_DO_FAULT_overload n = true ∧
      t.fio.dos[n] = ⟨!retry || last, retry && !last, r, localNs s, none⟩ ∧ (∀ m : Fin 16, m ≠ n → t.fio.dos[m] = s.fio.dos[m]) ∧
      Told [(0x9011, n, if last then 3 else if hot then 2 else 1)] s t ∧
      OnlyRegs [Reg.FIO_DO_FAULT, Reg.FIO_DO_STATE] s t) ∧
    (x.waiting = false → exec (.doRetry n) s = .next s) ∧
    (x.waiting = true → ∃ t, exec (.doRetry n) s = .next t ∧ x.offAt + 1000000000 ≤ localNs t ∧ shown t ∧
      t.fio.dos[n] = { x with waiting := false, retryAt := some (localNs t) } ∧ t.log = s.log ∧
      OnlyRegs [Reg.FIO_DO_STATE] s t)) ∧
  (∀ (m : Fin 8) (n : Fin 16) (v : Word) (s : State), Served m true Reg.FIO_DO_FAULT 4 s → s.fio.seen.isSome = true →
    ∃ t, exec (.doOverloadRelease m n v) s = .next t ∧ t.busReply = .done ∧ OnlyRegs [] s t ∧ t.fio.dos = s.fio.dos) ∧
  (∀ (m : Fin 8) (n : Fin 16) (v : Word) (s : State), Served m true Reg.FIO_DO_FAULT 4 s → s.fio.seen = none →
    ∃ t, exec (.doOverloadRelease m n v) s = .next t ∧ t.busReply = .done ∧ shown t ∧ t.log = s.log ∧
      OnlyRegs [Reg.FIO_DO_FAULT, Reg.FIO_DO_STATE] s t ∧
      fld t Reg.FIO_DO_FAULT F.FIO_DO_FAULT_ext_drive = fld s Reg.FIO_DO_FAULT F.FIO_DO_FAULT_ext_drive ∧
      ∀ i : Fin 16, if i = n ∨ v.getLsbD i then fbit t Reg.FIO_DO_FAULT F.FIO_DO_FAULT_overload i = false ∧
          t.fio.dos[i] = { s.fio.dos[i] with latched := false, waiting := false, retries := 0, retryAt := none }
        else fbit t Reg.FIO_DO_FAULT F.FIO_DO_FAULT_overload i = fbit s Reg.FIO_DO_FAULT F.FIO_DO_FAULT_overload i ∧
          t.fio.dos[i] = s.fio.dos[i]) ∧
  (∀ (n : Fin 16) (mj : Nat) (s : State), Room 1 s →
    let g := groupOfDo n
    let mine := (((s.fio.pulses ++ [(g, localNs s, mj)]).filter (fun p => localNs s < p.2.1 + 1000000000)).filter
      (fun p => p.1 == g)).map (fun p => p.2.2)
    let sum := mine.foldl (· + ·) 0
    ∃ t, exec (.demagExcess n mj) s = .next t ∧ fld t (Reg.FIO_DEMAG g) F.FIO_DEMAG_sum_mj = min 65535 sum ∧
      fld t (Reg.FIO_DEMAG g) F.FIO_DEMAG_peak_mj = min 65535 (mine.foldl max 0) ∧
      OnlyRegs [Reg.FIO_DEMAG g, Reg.FIO_DO_DIAG] s t ∧
      (250 < mj ∨ 1500 < sum → fbit t Reg.FIO_DO_DIAG F.FIO_DO_DIAG_demag_excess n = true ∧
        Told [(0x9014, n, min 65535 mj * 0x10000 + min 65535 sum)] s t) ∧
      (mj ≤ 250 → sum ≤ 1500 → rd t Reg.FIO_DO_DIAG = rd s Reg.FIO_DO_DIAG ∧ t.log = s.log)) ∧
  (∀ (n : Fin 16) (dv : Nat) (s : State),
    let shared := flg s (Reg.FIO_DO_CFG n) F.FIO_DO_CFG_shared
    let ol := flg s (Reg.FIO_DO_CFG n) F.FIO_DO_CFG_ol_en && !shared
    let wasOl := fbit s Reg.FIO_DO_DIAG F.FIO_DO_DIAG_open_load n
    let wasExt := fbit s Reg.FIO_DO_FAULT F.FIO_DO_FAULT_ext_drive n
    let judged := fun (t : State) (o e : Bool) => fbit t Reg.FIO_DO_DIAG F.FIO_DO_DIAG_open_load n = o ∧
      fbit t Reg.FIO_DO_FAULT F.FIO_DO_FAULT_ext_drive n = e ∧ OnlyRegs [Reg.FIO_DO_DIAG, Reg.FIO_DO_FAULT] s t
    (doOn s n = true ∨ s.fio.sleeping = true ∨ (20 ≤ dv ∧ dv < 30) ∨ (50 < dv ∧ dv ≤ 80) →
      exec (.doMonitor n dv) s = .next s) ∧
    (doOn s n = false → s.fio.sleeping = false → Room 1 s →
      (dv < 20 → ∃ t, exec (.doMonitor n dv) s = .next t ∧ judged t false false ∧ t.log = s.log) ∧
      (30 ≤ dv → dv ≤ 50 → ∃ t, exec (.doMonitor n dv) s = .next t ∧ judged t ol false ∧
        Told (if ol && !wasOl then [(0x9012, n.val, 0)] else []) s t) ∧
      (80 < dv → ∃ t, exec (.doMonitor n dv) s = .next t ∧ judged t false true ∧
        Told (if !wasExt && !shared then [(0x9013, n.val, dv)] else []) s t)))

/-- R342, R347, R349 to R351, R358, R368. Below V_FLW a group is low; below V_FLS it is lost and its outputs are off; back above, it takes its
commands, or waits for an acknowledgement, which ACTIVE alone may give. A kill turns a group off. A trip output follows its strobe
and its confirmed copy except in a cooldown, which follows a current limit or an overload for 1.0 s to 1.1 s and logs; its end
restores the command. VTRIP's low is logged once. Supervision takes effect 220 ms after the last de-energisation at the earliest,
and an external drive above 20 V shows and is logged once. -/
def Obligations.FioSupply : Prop :=
  let shown := fun (t : State) => ∀ n : Fin 16, fbit t Reg.FIO_DO_STATE F.FIO_DO_STATE_on n = doOn t n
  let grp := fun (s : State) (f : Fld) (g : Fin 2) => fbit s Reg.FIO_GRP_STATE f g
  let vf := fun (g : Fin 2) => if g = 0 then F.FIO_VFIELD_vfield_a else F.FIO_VFIELD_vfield_b
  (∀ (g : Fin 2) (cv : BitVec 16) (s : State), Room 1 s →
    (∃ t, exec (.fieldLow g cv) s = .next t ∧ fld t Reg.FIO_VFIELD (vf g) = cv.toNat ∧
      grp t F.FIO_GRP_STATE_low g = true ∧ grp t F.FIO_GRP_STATE_low_seen g = true ∧
      (grp s F.FIO_GRP_STATE_wait_ack g = true → grp t F.FIO_GRP_STATE_lost g = true) ∧
      OnlyRegs [Reg.FIO_VFIELD, Reg.FIO_GRP_STATE] s t ∧
      Told (if grp s F.FIO_GRP_STATE_low g then [] else [(0x9001, g.val, cv.toNat)]) s t) ∧
    (∃ t, exec (.fieldLost g cv) s = .next t ∧ fld t Reg.FIO_VFIELD (vf g) = cv.toNat ∧
      grp t F.FIO_GRP_STATE_lost g = true ∧ grp t F.FIO_GRP_STATE_wait_ack g = false ∧ shown t ∧
      (∀ n : Fin 16, groupOfDo n = g.val → doOn t n = false) ∧
      OnlyRegs [Reg.FIO_VFIELD, Reg.FIO_GRP_STATE, Reg.FIO_DO_STATE] s t ∧
      Told (if grp s F.FIO_GRP_STATE_lost g then [] else [(0x9002, g.val, commandedOn s g)]) s t) ∧
    (∃ t, exec (.fieldRestored g cv) s = .next t ∧ fld t Reg.FIO_VFIELD (vf g) = cv.toNat ∧
      grp t F.FIO_GRP_STATE_low g = false ∧ grp t F.FIO_GRP_STATE_lost g = false ∧
      OnlyRegs [Reg.FIO_VFIELD, Reg.FIO_GRP_STATE, Reg.FIO_DO_STATE] s t ∧
      (grp s F.FIO_GRP_STATE_lost g = false → t.log = s.log ∧ rd t Reg.FIO_DO_STATE = rd s Reg.FIO_DO_STATE) ∧
      (grp s F.FIO_GRP_STATE_lost g = true → shown t ∧
        (fbit s Reg.FIO_GRP_CFG F.FIO_GRP_CFG_hold_off g = true → t.log = s.log ∧
          grp t F.FIO_GRP_STATE_wait_ack g = true ∧ ∀ n : Fin 16, groupOfDo n = g.val → doOn t n = false) ∧
        (fbit s Reg.FIO_GRP_CFG F.FIO_GRP_CFG_hold_off g = false → Told [(0x9003, g, 0)] s t))) ∧
    ∃ t, exec (.fieldLowCleared g cv) s = .next t ∧ fld t Reg.FIO_VFIELD (vf g) = cv.toNat ∧ t.log = s.log ∧
      OnlyRegs [Reg.FIO_VFIELD, Reg.FIO_GRP_STATE] s t ∧
      (grp s F.FIO_GRP_STATE_lost g = false → grp t F.FIO_GRP_STATE_low g = false) ∧
      (grp s F.FIO_GRP_STATE_lost g = true → rd t Reg.FIO_GRP_STATE = rd s Reg.FIO_GRP_STATE)) ∧
  (∀ (m : Fin 8) (g : Fin 2) (v : Word) (level : Bool) (s : State), Served m true Reg.FIO_GRP_CTRL 4 s →
    s.fio.seen = none → Room 2 s →
    (∃ t, exec (.groupKill m g level v) s = .next t ∧ t.busReply = .done ∧ shown t ∧
      fbit t Reg.FIO_GRP_CTRL F.FIO_GRP_CTRL_kill g = level ∧
      (level = true → ∀ n : Fin 16, groupOfDo n = g.val → doOn t n = false) ∧
      (getF v F.FIO_GRP_CTRL_ack = 0 → t.log = s.log ∧ OnlyRegs [Reg.FIO_GRP_CTRL, Reg.FIO_DO_STATE] s t)) ∧
    ∃ t, exec (.fieldAck m g v) s = .next t ∧ t.busReply = .done ∧ shown t ∧
      fld t Reg.FIO_GRP_CTRL F.FIO_GRP_CTRL_kill = getF v F.FIO_GRP_CTRL_kill ∧
      (holdsActive s = true → grp t F.FIO_GRP_STATE_wait_ack g = false ∧
        (grp s F.FIO_GRP_STATE_wait_ack g = true → Tells 0x9003 g 1 s t) ∧
        (grp s F.FIO_GRP_STATE_wait_ack g = false → flg t Reg.FIO_STATUS F.FIO_STATUS_cfg_err = true)) ∧
      (holdsActive s = false → flg t Reg.DPX_STATUS F.DPX_STATUS_role_write = true ∧ t.log = s.log ∧
        rd t Reg.FIO_GRP_STATE = rd s Reg.FIO_GRP_STATE)) ∧
  (∀ (n : Fin 4) (level : Bool) (s : State), Room 2 s →
    (∃ t, exec (.tripStrobe n level) s = .next t ∧ strobeOf t n = level ∧ OnlyRegs [Reg.FIO_TRIP_STATE] s t ∧
      (cooling s n = false → tripOn t n = tripWanted t n ∧ t.log = s.log) ∧
      (cooling s n = true → tripOn t n = tripOn s n) ∧ ∀ k : Fin 4, k ≠ n → tripOn t k = tripOn s k) ∧
    (tripOn s n = false → exec (.tripShort n) s = .next s ∧ exec (.tripOvertime n) s = .next s) ∧
    (tripOn s n = true → ∃ t u, exec (.tripShort n) s = .next t ∧ exec (.tripOvertime n) s = .next u ∧
      fbit t Reg.FIO_TRIP_STATE F.FIO_TRIP_STATE_short n = true ∧ Tells 0x9021 n 0 s t ∧
      fbit u Reg.FIO_TRIP_STATE F.FIO_TRIP_STATE_overtime n = true ∧
      Tells 0x9022 n ((localNs s - (s.fio.trips[n]).onAt) / 1000000) s u ∧
      ∀ w, w = t ∨ w = u → tripOn w n = false ∧ cooling w n = true ∧ (w.fio.trips[n]).offAt = some (localNs w) ∧
        localNs w + 1000000000 ≤ (w.fio.trips[n]).coolUntil ∧ (w.fio.trips[n]).coolUntil ≤ localNs w + 1100000000 ∧
        OnlyRegs [Reg.FIO_TRIP_STATE] s w) ∧
    (cooling s n = false → exec (.tripCooldownEnd n) s = .next s) ∧
    (cooling s n = true → ∃ t, exec (.tripCooldownEnd n) s = .next t ∧ cooling t n = false ∧
      (s.fio.trips[n]).coolUntil ≤ localNs t ∧ tripOn t n = tripWanted t n ∧ (t.fio.trips[n]).deferred = false ∧
      t.log = s.log ∧ OnlyRegs [Reg.FIO_TRIP_STATE] s t)) ∧
  (∀ (dv : BitVec 16) (s : State), Room 1 s →
    (∃ t, exec (.vtripLow dv) s = .next t ∧ fld t Reg.FIO_VTRIP F.FIO_VTRIP_vtrip = dv.toNat ∧
      flg t Reg.FIO_STATUS F.FIO_STATUS_vtrip_low = true ∧ OnlyRegs [Reg.FIO_VTRIP, Reg.FIO_STATUS] s t ∧
      Told (if flg s Reg.FIO_STATUS F.FIO_STATUS_vtrip_low then [] else [(0x9025, 0, dv.toNat)]) s t) ∧
    ∃ t, exec (.vtripRestored dv) s = .next t ∧ fld t Reg.FIO_VTRIP F.FIO_VTRIP_vtrip = dv.toNat ∧
      flg t Reg.FIO_STATUS F.FIO_STATUS_vtrip_low = false ∧ OnlyRegs [Reg.FIO_VTRIP, Reg.FIO_STATUS] s t ∧ t.log = s.log) ∧
  (∀ (n : Fin 4) (intact : Bool) (dv : Nat) (s : State),
    (tripOn s n = true → exec (.tripSupervision n intact) s = .next s ∧ exec (.tripExtDrive n dv) s = .next s) ∧
    (s.fio.sleeping = true ∨ supervises s n = false → exec (.tripSupervision n intact) s = .next s) ∧
    (tripOn s n = false → s.fio.sleeping = false → supervises s n = true → ∃ t, exec (.tripSupervision n intact) s = .next t ∧
      fbit t Reg.FIO_TRIP_STATE F.FIO_TRIP_STATE_measured n = true ∧
      fbit t Reg.FIO_TRIP_STATE F.FIO_TRIP_STATE_intact n = intact ∧
      (∀ a, (s.fio.trips[n]).offAt = some a → a + 220000000 ≤ localNs t) ∧ t.log = s.log ∧
      OnlyRegs [Reg.FIO_TRIP_STATE] s t) ∧
    (tripOn s n = false → Room 1 s → ∃ t, exec (.tripExtDrive n dv) s = .next t ∧
      fbit t Reg.FIO_TRIP_STATE F.FIO_TRIP_STATE_ext_drive n = decide (200 < dv) ∧ OnlyRegs [Reg.FIO_TRIP_STATE] s t ∧
      Told (if 200 < dv ∧ fbit s Reg.FIO_TRIP_STATE F.FIO_TRIP_STATE_ext_drive n = false ∧
          ¬ (flg s Reg.DPX_CFG F.DPX_CFG_en = true ∧ s.loop.owner = false ∧ s.dpx.partner.tripOn.getLsbD n = true)
        then [(0x9024, n.val, dv)] else []) s t))

/-- R362 to R367, R370, R378 to R381, Table 13.4. A heartbeat that its unit lets in counts for its path, sixteen in a row bringing it up and
eight missed intervals taking it down; its first copy moves the state: LISTEN joins an ACTIVE or, on side A, takes over; ACTIVE_ALONE finds its
partner SYNCED; ACTIVE loses it; TAKING returns; a higher ACTIVE epoch releases an owner; a stale one is noted. Eight intervals of
silence lose the partner. t_listen probes, as does DEGRADED each 10 ms. A probe is answered; an owner without a running heartbeat
releases itself, as it does 0.5 ms after its last heartbeat. Replies and t_conf without one decide. A takeover raises the epoch
above both and OWNER. -/
def Obligations.DpxPaths : Prop :=
  let tookOver := fun (s t : State) (src : Nat) (p : Word) => dpxState t = dpxAlone ∧ t.loop.owner = true ∧
    ownEpoch t = (if ownEpoch s < p then p else ownEpoch s) + 1 ∧ t.dpx.emberEpoch = ownEpoch t ∧
    rd64 t Reg.DPX_TAKEOVER_TIME = now t ∧ Raises 0xA006 src (ownEpoch t) s t
  let released := fun (s t : State) => dpxState t = dpxReleased ∧ t.loop.owner = false ∧ ownEpoch t = ownEpoch s
  let probed := fun (t : State) => t.dpx.probeAt = some (localNs t) ∧ t.dpx.lastProbe = localNs t
  let onlyNet := fun (s t : State) => ∀ a, blockAt a ≠ some .net → rd t a = rd s a
  (∀ (h : GuyHeader) (b : Heartbeat) (s : State), Clear (guyUnit h.path) s →
    (dpxOn s = false ∨ dpxState s = dpxOff → exec (.heartbeat h b) s = .next s ∧ exec (.pathUp h b) s = .next s) ∧
    (dpxOn s = true → dpxState s ≠ dpxOff → h.crcOk = false → exec (.heartbeat h b) s =
      .next (bumpSat (Reg.DPX_PATH_STAT h.path) F.DPX_PATH_STAT_crc_err s)) ∧
    (pathUp s h.path = true ∨ (s.dpx.paths[h.path]).good < 15 → exec (.pathUp h b) s = .next s) ∧
    (dpxOn s = true → dpxState s ≠ dpxOff → h.crcOk = true → Room 32 s →
      let x := s.dpx.paths[h.path]
      ∃ t, exec (.heartbeat h b) s = .next t ∧ t.dpx.hbAt = some (localNs t) ∧ localNs t = localNs s ∧
        t.dpx.paths[h.path] = { good := if localNs s < x.last + 20000 then x.good + 1 else 1, last := localNs s, counted := 0 } ∧
        (pathUp s h.path = false → 15 ≤ x.good → localNs s < x.last + 20000 → exec (.pathUp h b) s = .next t ∧
          pathUp t h.path = true ∧ Raises 0xA003 h.path 0 s t ∧ (dpxState s = dpxDegraded → dpxState t = dpxSyncing)) ∧
        (firstCopy (freshSequences s) 1 h = true → t.dpx.seqIn[1] = some h.seq ∧
          (staleHeartbeat s h = true → flg t Reg.DPX_STATUS F.DPX_STATUS_stale_seen = true ∧ ownEpoch t = ownEpoch s ∧
            t.loop = s.loop ∧ (dpxState s ≠ dpxDegraded → dpxState t = dpxState s)) ∧
          (dpxState s = dpxListen → h.role = 1 → dpxState t = dpxSyncing ∧ ownEpoch t = h.epoch ∧ t.dpx.emberEpoch = h.epoch ∧
            t.dpx.firstHb = localNs t ∧ (t.dpx.sent[10]).map (·.payload) = some (.syncReq (ownVersions s))) ∧
          (dpxState s = dpxListen → h.role = 0 → sideB s = false → tookOver s t 4 h.epoch) ∧
          (h.role = 1 → s.loop.owner = true → actsAlone s = true → ownEpoch s < h.epoch → released s t ∧
            flg t Reg.DPX_STATUS F.DPX_STATUS_conflict_seen = true ∧ Raises 0xA009 0 h.epoch s t) ∧
          (h.epoch = ownEpoch s →
            (dpxState s = dpxAlone → h.role = 2 → b.state.val = dpxSynced → dpxState t = dpxActive) ∧
            (dpxState s = dpxActive → b.state.val ≠ dpxSynced → dpxState t = dpxAlone ∧
              Raises 0xA004 0 (BitVec.ofNat 32 b.state) s t) ∧
            (dpxState s = dpxTaking → h.role = 1 → t.dpx.probeAt = none ∧
              dpxState t = if s.dpx.fromSynced then dpxSynced else dpxSyncing))))) ∧
  (∀ (p : Fin 2) (s : State), (dpxOn s = false ∨ pathUp s p = false → exec (.pathDown p) s = .next s) ∧
    (dpxOn s = true → pathUp s p = true → Room 8 s → ∃ t, exec (.pathDown p) s = .next t ∧ pathUp t p = false ∧
      (s.dpx.paths[p]).last + 90000 ≤ localNs t ∧ (t.dpx.paths[p]).good = 0 ∧
      flg t Reg.DPX_STATUS F.DPX_STATUS_path_down_seen = true ∧ Raises 0xA002 p 8 s t ∧
      fld t (Reg.DPX_PATH_STAT p) F.DPX_PATH_STAT_missed =
        min 65535 (fld s (Reg.DPX_PATH_STAT p) F.DPX_PATH_STAT_missed + (8 - (s.dpx.paths[p]).counted)))) ∧
  (∀ s : State, (dpxOn s = false ∨ (dpxState s ≠ dpxActive ∧ dpxState s ≠ dpxSynced ∧ dpxState s ≠ dpxSyncing) →
      exec .partnerLost s = .next s) ∧
    (dpxOn s = true → Room 8 s → dpxState s = dpxActive ∨ dpxState s = dpxSynced ∨ dpxState s = dpxSyncing →
      ∃ t, exec .partnerLost s = .next t ∧ (s.dpx.hbAt).getD 0 + 80000 ≤ localNs t ∧ t.loop = s.loop ∧
        Raises 0xA004 0 (BitVec.ofNat 32 (fld s Reg.DPX_PARTNER F.DPX_PARTNER_state)) s t ∧
        (dpxState s = dpxActive → dpxState t = dpxAlone) ∧
        (dpxState s ≠ dpxActive → dpxState t = dpxTaking ∧ probed t ∧ t.dpx.mirrorFrom = none ∧
          t.dpx.fromSynced = (dpxState s == dpxSynced)))) ∧
  (∀ (good : Vector Bool 2) (s : State), (dpxOn s = false ∨ dpxState s = dpxOff → exec (.heartbeatSend good) s = .next s) ∧
    (dpxOn s = true → dpxState s ≠ dpxOff → Room 16 s → ∃ t, exec (.heartbeatSend good) s = .next t ∧
      s.dpx.hbDue ≤ localNs t ∧
      (actsAlone s = true → s.dpx.hbSent + 500000 ≤ max (localNs s) s.dpx.hbDue → released s t ∧
        Raises 0xA008 1 (ownEpoch s) s t) ∧
      (actsAlone s = false ∨ max (localNs s) s.dpx.hbDue + 1 < s.dpx.hbSent + 500000 → dpxState t = dpxState s ∧
        t.dpx.hbDue = localNs t + 10000 ∧ t.log = s.log ∧ OnlyRegs [] s t ∧
        t.dpx.seqOut[1] = s.dpx.seqOut[1] + 1 ∧ (∃ x, t.dpx.sent[1] = some ⟨roleOf true (dpxState s), ownEpoch s,
          s.dpx.seqOut[1] + 1, .heartbeat x⟩ ∧ x.owner = s.loop.owner ∧ x.stamp = now t ∧ x.digest = rd s Reg.DPX_DIGEST ∧
          x.running = hbRunning t) ∧
        t.dpx.hbSent = if good[0] || good[1] then localNs t else s.dpx.hbSent))) ∧
  (∀ s : State, (actsAlone s = false → exec .releaseTimer s = .next s) ∧
    (actsAlone s = true → Room 16 s → ∃ t, exec .releaseTimer s = .next t ∧ released s t ∧
      s.dpx.hbSent + 500000 ≤ localNs t ∧ Raises 0xA008 1 (ownEpoch s) s t) ∧
    (dpxState s ≠ dpxDegraded → exec .degradedProbe s = .next s) ∧
    (dpxState s = dpxDegraded → Room 2 s → ∃ t, exec .degradedProbe s = .next t ∧
      s.dpx.lastProbe + 10000000 ≤ localNs t ∧ probed t ∧ onlyNet s t ∧ t.loop = s.loop) ∧
    (dpxState s ≠ dpxListen ∨ s.dpx.probeAt.isSome = true → exec .listenTimeout s = .next s) ∧
    (dpxState s = dpxListen → s.dpx.probeAt = none → Room 2 s → ∃ t, exec .listenTimeout s = .next t ∧ probed t ∧
      s.dpx.listenAt + (if sideB s then 2 else 1) * (1000000 * fld s Reg.DPX_CFG F.DPX_CFG_t_listen) ≤ localNs t ∧
      onlyNet s t ∧ t.loop = s.loop)) ∧
  (∀ (port : Fin 2) (mac : BitVec 48) (e : Word) (s : State), Clear (portUnit port) s →
    let mine := mac = (rd64 s Reg.DPX_PARTNER_MAC).extractLsb' 0 48 ∧ s.fab.running.isSome = true
    let own : ProbeReply :=
      ⟨Fin.ofNat 3 (roleOf (dpxOn s) (dpxState s)), Fin.ofNat 10 (dpxState s), ownEpoch s, s.loop.owner, hbRunning s, 0⟩
    let gives := actsAlone s = true ∧ s.loop.owner = true ∧ hbRunning s = false ∧ e = ownEpoch s
    (¬ mine → exec (.probe ⟨port, mac⟩ e) s = .next s) ∧
    (mine → ¬ gives → Room 2 s → ∃ t, exec (.probe ⟨port, mac⟩ e) s = .next t ∧ onlyNet s t ∧ t.loop = s.loop ∧
      t.dpx = { s.dpx with lastReply := some own }) ∧
    (mine → gives → Room 16 s → ∃ t, exec (.probe ⟨port, mac⟩ e) s = .next t ∧ released s t ∧ Raises 0xA008 2 e s t ∧
      t.dpx.lastReply = some ⟨0, 9, e, false, false, 0⟩)) ∧
  (∀ (r : ProbeReply) (s : State), Clear (portUnit r.port) s →
    (s.dpx.probeAt = none → exec (.probeReply r) s = .next s) ∧
    ∀ a, s.dpx.probeAt = some a → (a + tConf s < localNs s → exec (.probeReply r) s = .next s) ∧
      (localNs s ≤ a + tConf s → Room 32 s → ∃ t, exec (.probeReply r) s = .next t ∧
        fld t Reg.DPX_PARTNER F.DPX_PARTNER_state = r.state.val ∧ rd t Reg.DPX_PARTNER_EPOCH = r.epoch ∧
        (r.role = 1 → s.loop.owner = true → actsAlone s = true → ownEpoch s < r.epoch → released s t ∧
          flg t Reg.DPX_STATUS F.DPX_STATUS_conflict_seen = true ∧ Raises 0xA009 0 r.epoch s t) ∧
        (dpxState s = dpxListen → r.role = 1 → r.running = true → dpxState t = dpxDegraded ∧ t.dpx.probeAt = none ∧
          t.loop = s.loop ∧ ownEpoch t = r.epoch) ∧
        (dpxState s = dpxTaking → r.state.val ≠ dpxReleased → r.role = 1 → r.running = true → dpxState t = dpxDegraded ∧
          t.dpx.probeAt = none ∧ t.loop = s.loop ∧ Raises 0xA007 0 (BitVec.ofNat 32 r.state) s t) ∧
        (dpxState s = dpxTaking → r.state.val = dpxReleased →
          tookOver s t (if s.dpx.fromSynced then 2 else 4) r.epoch) ∧
        (dpxState s = dpxListen → r.role = 0 → sideB s = false → tookOver s t 4 r.epoch) ∧
        (dpxState s = dpxListen → r.role = 0 → sideB s = true → dpxState t = dpxListen ∧ t.dpx.listenAt = localNs t ∧
          t.dpx.probeAt = none) ∧
        (dpxState s = dpxDegraded → r.state.val = dpxReleased → tookOver s t 4 r.epoch) ∧
        (dpxState s = dpxDegraded → r.state.val ≠ dpxReleased → r.role = 1 → r.running = true →
          dpxState t = dpxDegraded ∧ t.dpx.unanswered = 0 ∧ t.dpx.probeAt = none))) ∧
  (∀ s : State, (s.dpx.probeAt = none → exec .probeTimeout s = .next s) ∧
    ∀ a, s.dpx.probeAt = some a → Room 32 s → ∃ t, exec .probeTimeout s = .next t ∧ a + tConf s ≤ localNs t ∧
      t.dpx.probeAt = none ∧
      (dpxState s = dpxListen → tookOver s t 4 (rd s Reg.DPX_PARTNER_EPOCH)) ∧
      (dpxState s = dpxTaking → tookOver s t (if s.dpx.fromSynced then 3 else 4) (rd s Reg.DPX_PARTNER_EPOCH)) ∧
      (dpxState s = dpxDegraded → s.dpx.unanswered < 2 → dpxState t = dpxDegraded ∧
        t.dpx.unanswered = s.dpx.unanswered + 1) ∧
      (dpxState s = dpxDegraded → 2 ≤ s.dpx.unanswered → tookOver s t 4 (rd s Reg.DPX_PARTNER_EPOCH)))

/-- R363, R366, R368, R372 to R377, R388 to R390. A message that its unit lets in counts as a first copy with a good CRC; one of a wrong epoch
or role is stale, counted, shown and logged at most once a second. MIRROR, MIRROR_GFM, RETAIN and SETTINGS keep what the ACTIVE sends;
DYING makes a STANDBY take over, an ACTIVE carry on; SYNC_REQ is answered by the ACTIVE, SYNC_DATA compared. A switchover is asked for of a
SYNCED partner, held and acknowledged, cancelled until 0.5 ms before S, quiesced then or aborted for want of an acknowledgement, and at S
OWNER changes sides with the next epoch. SYNCING becomes SYNCED when every condition holds, and SYNCED is left on a digest that differs. -/
def Obligations.DpxMessages : Prop :=
  let tookOver := fun (s t : State) (src : Nat) => dpxState t = dpxAlone ∧ t.loop.owner = true ∧
    ownEpoch t = ownEpoch s + 1 ∧ t.dpx.emberEpoch = ownEpoch t ∧ Raises 0xA006 src (ownEpoch t) s t
  let sends := fun (s t : State) (ty : Fin 16) (p : GuyPayload) => ∃ m, t.dpx.sent[ty] = some m ∧ m.payload = p ∧
    m.seq = s.dpx.seqOut[ty] + 1
  (∀ (h : GuyHeader) (x : MirrorMsg) (y : Vector GfmMirror 2) (z : Vector (Option RetainedSet) 2) (why : Nat) (a : BitVec 64)
      (w : Versions) (l : List SyncItem) (rs : List SettingsRecord) (fr : BitVec 64) (s : State), Clear (guyUnit h.path) s →
    ∀ c, c ∈ ([(.mirror h x, 2, some 1, false), (.mirrorGfm h y, 3, some 1, false), (.retain h z, 4, some 1, false),
        (.dying h why, 6, none, false), (.switch h a, 7, some 1, false), (.switchAck h a, 8, some 2, false),
        (.switchCancel h a, 9, some 1, false), (.syncReq h w, 10, none, true), (.syncData h l, 11, some 1, false),
        (.settings h rs fr, 12, some 1, false)] : List (Instr × Fin 16 × Option Nat × Bool)) →
      let bad := (h.epoch ≠ ownEpoch s ∧ c.2.2.2 = false) ∨ (∃ r, c.2.2.1 = some r ∧ h.role.val ≠ r)
      (dpxOn s = false ∨ dpxState s = dpxOff → exec c.1 s = .next s) ∧
      (dpxOn s = true → dpxState s ≠ dpxOff → h.crcOk = false → exec c.1 s =
        .next (bumpSat (Reg.DPX_PATH_STAT h.path) F.DPX_PATH_STAT_crc_err s)) ∧
      (h.crcOk = true → firstCopy s c.2.1 h = false → exec c.1 s = .next s) ∧
      (firstCopy s c.2.1 h = true → bad → Room 1 s → ∃ t, exec c.1 s = .next t ∧ t.dpx.seqIn[c.2.1] = some h.seq ∧
        flg t Reg.DPX_STATUS F.DPX_STATUS_stale_seen = true ∧ rd t Reg.DPX_PARTNER_EPOCH = h.epoch ∧
        OnlyRegs [Reg.DPX_STATUS, Reg.DPX_PARTNER_EPOCH] s t ∧ dpxState t = dpxState s ∧ t.loop = s.loop ∧ t.scan = s.scan ∧
        Logged (if oncePerSecond s.dpx.staleLogged[0] s then [(0xA00A, 0, BitVec.ofNat 32 (s.dpx.stale[0] + 1))] else []) s t)) ∧
  (∀ (h : GuyHeader) (s : State), Clear (guyUnit h.path) s → h.epoch = ownEpoch s → h.role = 1 →
    (∀ x : MirrorMsg, firstCopy s 2 h = true → ∃ t, exec (.mirror h x) s = .next t ∧ t.log = s.log ∧
      t.dpx.mirrors = s.dpx.mirrors.set x.stage (some x) ∧ t.dpx.mirrorNew = s.dpx.mirrorNew.set x.stage true ∧
      OnlyRegs [Reg.DPX_PARTNER_EPOCH] s t) ∧
    (∀ y : Vector GfmMirror 2, firstCopy s 3 h = true → ∃ t, exec (.mirrorGfm h y) s = .next t ∧ t.log = s.log ∧
      (isStandby s = false → t.gfm = s.gfm ∧ OnlyRegs [Reg.DPX_PARTNER_EPOCH] s t) ∧
      (isStandby s = true → ∀ g : Fin 2, stageKind s (gst g) = kindGridForming →
        (t.gfm.stages[g]).dw = (y[g]).dw ∧ (t.gfm.stages[g]).theta = (y[g]).theta ∧ (t.gfm.stages[g]).wRes = (y[g]).wRes ∧
        (t.gfm.stages[g]).phi = (y[g]).phi ∧ (t.gfm.stages[g]).stateAt = localNs s - (y[g]).age ∧
        gState t g = (y[g]).state.val ∧ contClosed t g = (y[g]).contactor)) ∧
    (∀ z : Vector (Option RetainedSet) 2, firstCopy s 4 h = true → ∃ t, exec (.retain h z) s = .next t ∧ t.log = s.log ∧
      OnlyRegs [Reg.DPX_PARTNER_EPOCH] s t ∧ ∀ k : Fin 2, (z[k] = none → t.scan.cores[k] = s.scan.cores[k]) ∧
        ∀ r, z[k] = some r → ∃ d : Fin 2, ∃ n, (t.scan.cores[k]).copies =
          (s.scan.cores[k]).copies.set d (some { r with order := n, crcOk := true }) ∧
          ∀ c, (s.scan.cores[k]).copies[1 - d] = some c → c.order < n) ∧
    (∀ a : BitVec 64, firstCopy s 7 h = true → ∃ t, exec (.switch h a) s = .next t ∧ t.log = s.log ∧
      (dpxState s = dpxSynced → t.dpx.switchHeld = some a ∧ rd64 t Reg.DPX_SWITCH_TIME = a ∧ sends s t 8 (.switchAck a)) ∧
      (dpxState s ≠ dpxSynced → t.dpx.switchHeld = s.dpx.switchHeld ∧ OnlyRegs [Reg.DPX_PARTNER_EPOCH] s t)) ∧
    (∀ a : BitVec 64, firstCopy s 9 h = true → ∃ t, exec (.switchCancel h a) s = .next t ∧ t.log = s.log ∧
      OnlyRegs [Reg.DPX_PARTNER_EPOCH] s t ∧
      t.dpx.switchHeld = if s.dpx.switchHeld = some a then none else s.dpx.switchHeld) ∧
    (∀ l : List SyncItem, firstCopy s 11 h = true → Room 4 s → ∃ t, exec (.syncData h l) s = .next t ∧
      (dpxState s ≠ dpxSyncing → t.upd = s.upd ∧ t.prot = s.prot ∧ t.scan = s.scan ∧ t.log = s.log ∧
        OnlyRegs [Reg.DPX_PARTNER_EPOCH] s t) ∧
      (dpxState s = dpxSyncing → ∀ w : Versions, l = [.versions w] → t.dpx.partner.versions = some w ∧
        OnlyRegs [Reg.DPX_PARTNER_EPOCH] s t ∧ Logged (if w = ownVersions s then [] else [(0xA00C, 1, 0)]) s t)) ∧
    (∀ (rs : List SettingsRecord) (fr : BitVec 64), firstCopy s 12 h = true → ∃ t, exec (.settings h rs fr) s = .next t ∧
      t.log = s.log ∧ OnlyRegs [Reg.DPX_PARTNER_EPOCH] s t ∧
      t.dpx.settings = if isStandby s then some (rs, fr) else s.dpx.settings)) ∧
  (∀ (h : GuyHeader) (why : Nat) (s : State), Clear (guyUnit h.path) s → firstCopy s 6 h = true → h.epoch = ownEpoch s →
    Room 32 s → ∃ t, exec (.dying h why) s = .next t ∧ Raises 0xA005 h.path h.epoch s t ∧
      (dpxState s = dpxSynced → h.role = 1 → tookOver s t 1) ∧ (dpxState s = dpxSyncing → h.role = 1 → tookOver s t 4) ∧
      (dpxState s = dpxTaking → tookOver s t (if s.dpx.fromSynced then 1 else 4)) ∧
      (dpxState s = dpxActive → dpxState t = dpxAlone ∧ t.loop = s.loop) ∧
      ((dpxState s = dpxSynced ∨ dpxState s = dpxSyncing) ∧ h.role ≠ 1 → dpxState t = dpxState s ∧ t.loop = s.loop)) ∧
  (∀ (h : GuyHeader) (a : BitVec 64) (s : State), Clear (guyUnit h.path) s → firstCopy s 8 h = true → h.epoch = ownEpoch s →
    h.role = 2 → ∃ t, exec (.switchAck h a) s = .next t ∧ t.log = s.log ∧ OnlyRegs [Reg.DPX_PARTNER_EPOCH] s t ∧
      t.dpx.ackHeld = (s.dpx.ackHeld || decide (dpxState s = dpxSwitching ∧ a = rd64 s Reg.DPX_SWITCH_TIME))) ∧
  (∀ (h : GuyHeader) (w : Versions) (s : State), Clear (guyUnit h.path) s → firstCopy s 10 h = true →
    ∃ t, exec (.syncReq h w) s = .next t ∧ t.log = s.log ∧ OnlyRegs [Reg.DPX_PARTNER_EPOCH] s t ∧
    (actsAlone s = true → t.dpx.partner.versions = some w ∧ sends s t 11 (.syncData (syncItems s))) ∧
    (actsAlone s = false → t.dpx.sent = s.dpx.sent)) ∧
  (∀ (m : Fin 8) (v : Word) (s : State), Served m true Reg.DPX_CMD 4 s → Room 4 s →
    (getF v F.DPX_CMD_cancel = 0 →
      let S := (nowNat s + 2999999) / 1000000 * 1000000
      let may := dpxState s = dpxActive ∧ fld s Reg.DPX_PARTNER F.DPX_PARTNER_state = dpxSynced
      (may → dpxOn s = true → ∃ t, exec (.dpxSwitch m v) s = .next t ∧ t.busReply = .done ∧ dpxState t = dpxSwitching ∧
        rd64 t Reg.DPX_SWITCH_TIME = BitVec.ofNat 64 S ∧ sends s t 7 (.switch (BitVec.ofNat 64 S)) ∧ t.dpx.ackHeld = false) ∧
      (¬ may → ∃ t, exec (.dpxSwitch m v) s = .next t ∧ t.busReply = .done ∧ OnlyRegs [] s t ∧ t.dpx = s.dpx ∧
        Logged [(0xA00E, 3, rd s Reg.DPX_SWITCH_TIME)] s t)) ∧
    (getF v F.DPX_CMD_switch = 0 →
      let may := dpxState s = dpxSwitching ∧ nowNat s + 500000 < (rd64 s Reg.DPX_SWITCH_TIME).toNat
      (may → dpxOn s = true → ∃ t, exec (.dpxCancel m v) s = .next t ∧ t.busReply = .done ∧ dpxState t = dpxActive ∧
        sends s t 9 (.switchCancel (rd64 s Reg.DPX_SWITCH_TIME)) ∧ Raises 0xA00E 2 (rd s Reg.DPX_SWITCH_TIME) s t) ∧
      (¬ may → exec (.dpxCancel m v) s = .next { s with busReply := .done }))) ∧
  (∀ s : State, (dpxState s ≠ dpxSwitching ∨ s.dpx.quiesced = true → exec .switchDeadline s = .next s) ∧
    (dpxState s = dpxSwitching → s.dpx.quiesced = false → dpxOn s = true → Room 4 s →
      (rd64 s Reg.DPX_SWITCH_TIME - 500000).toNat + 1 < 2 ^ 64 →
      ∃ t, exec .switchDeadline s = .next t ∧ (rd64 s Reg.DPX_SWITCH_TIME - 500000).toNat ≤ nowNat t ∧
        (s.dpx.ackHeld = true → t.dpx.quiesced = true ∧ dpxState t = dpxSwitching ∧ (t.dpx.sent[4]).isSome = true ∧
          ∀ k : Fin 2, (t.scan.cores[k]).frozen = true) ∧
        (s.dpx.ackHeld = false → dpxState t = dpxActive ∧ Raises 0xA00E 1 (rd s Reg.DPX_SWITCH_TIME) s t ∧
          sends s t 9 (.switchCancel (rd64 s Reg.DPX_SWITCH_TIME)))) ∧
    (dpxState s = dpxSwitching → s.dpx.ackHeld = true → (rd64 s Reg.DPX_SWITCH_TIME).toNat + 1 < 2 ^ 64 →
      ∃ t, exec .switchInstant s = .next t ∧
      (rd64 s Reg.DPX_SWITCH_TIME).toNat ≤ nowNat t ∧ dpxState t = dpxSynced ∧ t.loop.owner = false ∧
      ownEpoch t = ownEpoch s + 1 ∧ t.dpx.emberEpoch = ownEpoch t ∧ ∀ k : Fin 2, scanMode t k = scanStop) ∧
    (∀ a, dpxState s = dpxSynced → s.dpx.switchHeld = some a → Room 32 s → a.toNat + 1 < 2 ^ 64 →
      ∃ t, exec .switchInstant s = .next t ∧
      a.toNat ≤ nowNat t ∧ dpxState t = dpxActive ∧ t.loop.owner = true ∧ t.dpx.switchHeld = none ∧
      Raises 0xA00D 0 (ownEpoch t) s t) ∧
    (dpxState s ≠ dpxSwitching ∨ s.dpx.ackHeld = false → dpxState s ≠ dpxSynced ∨ s.dpx.switchHeld = none →
      exec .switchInstant s = .next s)) ∧
  (∀ s : State, Room 4 s →
    (dpxState s = dpxSyncing → syncFault s = 0 → ∃ t, exec .syncDone s = .next t ∧ dpxState t = dpxSynced ∧
      flg t Reg.DPX_STATUS F.DPX_STATUS_synced_ok = true ∧
      Raises 0xA00B 0 (BitVec.ofNat 32 ((localNs s - s.dpx.firstHb) / 1000000)) s t) ∧
    (dpxState s ≠ dpxSyncing ∨ syncFault s ≠ 0 → ∃ t, exec .syncDone s = .next t ∧ dpxState t = dpxState s ∧ t.log = s.log ∧
      OnlyRegs [Reg.DPX_STATUS] s t) ∧
    (∃ t, exec .digestUpdate s = .next t ∧ s.dpx.digestAt + 10000000 ≤ localNs t ∧ t.dpx.digestAt = localNs t ∧
      rd t Reg.DPX_DIGEST = Config.digest (configWords s) ∧
      (dpxState s = dpxSynced → s.dpx.partner.versions = some (ownVersions s) →
        Config.digest (configWords s) ≠ rd s Reg.DPX_DIGEST_PARTNER → dpxState t = dpxSyncing ∧ Raises 0xA00C 2 0 s t)) ∧
    (dpxState s = dpxSyncing → s.dpx.partner.versions ≠ some (ownVersions s) → dpxOn s = true →
      ∃ t, exec .syncReqRetry s = .next t ∧ s.dpx.syncReqAt + 10000000000 ≤ localNs t ∧ t.dpx.syncReqAt = localNs t ∧
        sends s t 10 (.syncReq (ownVersions s)) ∧ OnlyRegs [] s t ∧ t.log = s.log) ∧
    (dpxState s ≠ dpxSyncing ∨ s.dpx.partner.versions = some (ownVersions s) → exec .syncReqRetry s = .next s))

/-- R392 to R399, R401 to R405. Links, LANs, CAN ports and MVB lines show and log their changes; a link that falls empties its queues. A
telegram goes out on its TAI grid with the newest set of its block; one not received for its timeout is logged once and its data kept or
zeroed. CAN frames, MVB sinks and Modbus responses that their units let in complete the sets of their blocks; sources, transmit cycles
and writing polls send them. A frame that a port sends waits in the egress queue of its priority, one received in LINE mode is
delivered and forwarded, one of PRP delivered once. A unit is armed where the image permits tests in COMMISSIONING, acts from its start
on every n-th matching frame up to its count, and is disarmed with its held frames released; a refused arming is logged. A frame it
does not act on passes. -/
def Obligations.Networks : Prop :=
  let lost := fun (s : State) (f : Fld) (l : Fin 2) => fbit s Reg.NET_BUS_STATE f l
  let remote := fun (s : State) (b : Fin 2 × Fin 32) => (s.scan.cores[b.1]).remotes[b.2]
  let sentSet := fun (s t : State) (b : Fin 2 × Fin 32) => (b, outputSet s b) ∈ t.net.sent
  let onlyNet := fun (s t : State) => ∀ a, blockAt a ≠ some .net → rd t a = rd s a
  (∀ (p : Fin 3) (fast : Bool) (s : State), Room 1 s →
    (linkIsUp s p = true → exec (.linkUp p fast) s = .next s ∧ ∃ t, exec (.linkDown p) s = .next t ∧ linkIsUp t p = false ∧
      Logged [(0xB001, p, 0)] s t ∧ OnlyRegs [Reg.NET_STATUS] s t ∧
      ∀ e : Fin 2, (t.net.queues[e]) = if e.val = p.val then Vector.replicate 4 [] else s.net.queues[e]) ∧
    (linkIsUp s p = false → exec (.linkDown p) s = .next s ∧ ∃ t, exec (.linkUp p fast) s = .next t ∧ linkIsUp t p = true ∧
      Logged [(0xB002, p, if fast && p != 2 then 1000 else 100)] s t ∧ OnlyRegs [Reg.NET_STATUS] s t)) ∧
  (∀ (l : Fin 2) (tec : Nat) (s : State), Room 1 s →
    (prpMode s = true → lost s F.NET_BUS_STATE_prp_lost l = false → ∃ t, exec (.prpLanLost l) s = .next t ∧
      lost t F.NET_BUS_STATE_prp_lost l = true ∧ Logged [(0xB003, l, 0)] s t ∧ OnlyRegs [Reg.NET_BUS_STATE] s t ∧
      ∀ a, s.net.lanAt[l] = some a → a + 1000000000 ≤ localNs t) ∧
    (prpMode s = false ∨ lost s F.NET_BUS_STATE_prp_lost l = true → exec (.prpLanLost l) s = .next s) ∧
    (lost s F.NET_BUS_STATE_prp_lost l = true → ∃ t, exec (.prpLanRestored l) s = .next t ∧
      lost t F.NET_BUS_STATE_prp_lost l = false ∧ Logged [(0xB004, l, 0)] s t ∧ OnlyRegs [Reg.NET_BUS_STATE] s t) ∧
    (lost s F.NET_BUS_STATE_prp_lost l = false → exec (.prpLanRestored l) s = .next s) ∧
    (canOff s l = true → exec (.canBusOff l tec) s = .next s) ∧
    (canOff s l = false → ∃ t, exec (.canBusOff l tec) s = .next t ∧ canOff t l = true ∧
      Logged [(0xB006, l, BitVec.ofNat 32 tec)] s t ∧ OnlyRegs [Reg.NET_BUS_STATE] s t) ∧
    (∃ t, exec (.canRecovery l) s = .next t ∧ canOff t l = false ∧ t.log = s.log ∧ OnlyRegs [Reg.NET_BUS_STATE] s t) ∧
    (lost s F.NET_BUS_STATE_mvb_fail l = true → exec (.mvbLineFail l) s = .next s) ∧
    (lost s F.NET_BUS_STATE_mvb_fail l = false → ∃ t, exec (.mvbLineFail l) s = .next t ∧
      lost t F.NET_BUS_STATE_mvb_fail l = true ∧ Logged [(0xB007, l, 0)] s t ∧ OnlyRegs [Reg.NET_BUS_STATE] s t)) ∧
  (∀ (i : Fin 64) (s : State), (publishedAs s i = none → exec (.pdPublish i) s = .next s) ∧
    (∀ g, publishedAs s i = some g →
      let due := (nowNat s / (1000000 * max 1 g.ms) + 1) * (1000000 * max 1 g.ms)
      due + 1 < 2 ^ 64 → Room 2 s → ∃ t, exec (.pdPublish i) s = .next t ∧ due ≤ nowNat t ∧ onlyNet s t ∧
        t.net.published[i] = some (BitVec.ofNat 64 due, outputSet? s g.block) ∧ ∀ b, g.block = some b → sentSet s t b) ∧
    (subscribedAs s i = none → exec (.pdTimeout i) s = .next s) ∧
    (∀ g, subscribedAs s i = some g → g.block = none → Room 1 s → ∃ t, exec (.pdTimeout i) s = .next t ∧
      Logged [(0xB005, i, g.comId)] s t ∧ OnlyRegs [] s t ∧ t.scan = s.scan) ∧
    (∀ g b, subscribedAs s i = some g → g.block = some b → Room 1 s →
      ((remote s b).everSet = false ∨ s.net.timedOut[i] = some (remote s b).stamp → exec (.pdTimeout i) s = .next s) ∧
      ((remote s b).everSet = true → s.net.timedOut[i] ≠ some (remote s b).stamp →
        ((remote s b).stamp + BitVec.ofNat 64 (1000000 * g.ms)).toNat + 1 < 2 ^ 64 → ∃ t, exec (.pdTimeout i) s = .next t ∧
        ((remote s b).stamp + BitVec.ofNat 64 (1000000 * g.ms)).toNat ≤ nowNat t ∧ Logged [(0xB005, i, g.comId)] s t ∧
        t.net.timedOut[i] = some (remote s b).stamp ∧ OnlyRegs [] s t ∧
        remote t b = if g.zero then { remote s b with data := (remote s b).data.map (fun _ => 0) } else remote s b))) ∧
  (∀ (p : Fin 2) (id : Nat) (data : List Word) (s : State), Clear ⟨3 + p.val, by omega⟩ s → (canOff s p = true →
      exec (.canFrameReceived p id data) s = .next s) ∧
    (∀ (b : Fin 2 × Fin 32) (n : Nat), canOff s p = false → canBlocks s p id = [(b, id, n)] →
      (∀ q ∈ s.net.canParts, q.block ≠ b) → ∃ t, exec (.canFrameReceived p id data) s = .next t ∧
        (n = 1 → remote t b = ⟨data, now s, true, true⟩ ∧ t.net.canParts = s.net.canParts) ∧
        (2 ≤ n → t.scan = s.scan ∧ t.net.canParts = s.net.canParts ++ [⟨b, [(id, data)]⟩] ∧ t.log = s.log))) ∧
  (∀ (k : Fin 2) (c : Fin 32) (p : Fin 2) (first n : Nat) (rest : List NetItem) (s : State),
    s.net.items = .canOut p first n (k, c) :: rest → (canOff s p = true → exec (.canTxCycle k c) s = .next s) ∧
      (canOff s p = false → ∃ t, exec (.canTxCycle k c) s = .next t ∧ sentSet s t (k, c) ∧ OnlyRegs [] s t ∧ t.log = s.log)) ∧
  (∀ (a : BitVec 12) (data : List Word) (b : Fin 2 × Fin 32) (s : State), Clear 5 s →
    (sinkBlock s a = some none → ∃ t, exec (.mvbMasterFrame a data) s = .next t ∧ t.scan = s.scan ∧ OnlyRegs [] s t) ∧
    (sinkBlock s a = some (some b) → sinksOf s b = [a] → ∃ t, exec (.mvbMasterFrame a data) s = .next t ∧
      remote t b = ⟨data, now s, true, true⟩) ∧
    (sinkBlock s a = none → sourceBlock s a = some (some b) → ∃ t, exec (.mvbMasterFrame a data) s = .next t ∧
      sentSet s t b ∧ t.scan = s.scan ∧ OnlyRegs [] s t) ∧
    (sinkBlock s a = none → sourceBlock s a = none → exec (.mvbMasterFrame a data) s = .next s)) ∧
  (∀ (p : Fin 2) (s : State), (pollTable s p = [] → exec (.modbusPoll p) s = .next s) ∧
    (∀ q, (pollTable s p)[s.net.pollNext[p]]? = some q → ∃ t, exec (.modbusPoll p) s = .next t ∧ OnlyRegs [] s t ∧
      t.net.pollNext[p] = s.net.pollNext[p] + 1 ∧ t.net.pollWait[p] = some q.i ∧ t.log = s.log ∧
      ∀ b, q.block = some b → modbusWrites q.fc = true → sentSet s t b) ∧
    (awaited s p = none → exec (.modbusTimeout p) s = .next s ∧
      (Clear ⟨6 + p.val, by omega⟩ s → ∀ data, exec (.modbusFrameReceived p (.response data)) s = .next s)) ∧
    (∀ q, awaited s p = some q → Room 1 s → ∃ t, exec (.modbusTimeout p) s = .next t ∧ t.net.pollWait[p] = none ∧
      Logged [(0xB008, p, BitVec.ofNat 32 (q.slave.toNat * 256 + q.fc.toNat))] s t ∧ OnlyRegs [] s t) ∧
    (∀ q b data, Clear ⟨6 + p.val, by omega⟩ s → awaited s p = some q → q.block = some b → (pollTable s p).filter (fun r => r.block == some b) = [q] →
      ∃ t, exec (.modbusFrameReceived p (.response data)) s = .next t ∧ t.net.pollWait[p] = none ∧
        remote t b = ⟨data, now s, true, true⟩) ∧
    (∀ (a fc : BitVec 8) (ws : List (Nat × BitVec 16)), Clear ⟨6 + p.val, by omega⟩ s → a ≠ 0 → slaveAddr s p = some a → modbusCode fc = true →
      ∃ t, exec (.modbusFrameReceived p (.request a fc ws)) s = .next t ∧ t.net.answered[p] = some (a, fc) ∧
        OnlyRegs [] s t ∧ (modbusWrites fc = false → t.net.slave = s.net.slave))) ∧
  (∀ (m : Fin 8) (u : Fin 10) (v : Word) (s : State), Served m true (Reg.NET_FI_CFG u) 4 s → Room 8 s →
    (v.getLsbD 30 = false →
      let why : Word := if flg s Reg.FAB_PERMIT F.FAB_PERMIT_test_allowed then (if commissioning s then 0 else 2) else 1
      (fiLocked s u = true → ∃ t, exec (.fiArm m u v) s = .next t ∧ t.busReply = .done ∧ t.log = s.log ∧
        flg t Reg.NET_STATUS F.NET_STATUS_cfg_err = true ∧ OnlyRegs [Reg.NET_STATUS] s t ∧ t.net = s.net) ∧
      (fiLocked s u = false → ∃ t, exec (.fiArm m u v) s = .next t ∧ t.busReply = .done ∧
        rd t (Reg.NET_FI_CFG u) &&& 0x1FFFFFFF = v &&& 0x1FFFFFFF ∧
        (why = 0 → t.log = s.log ∧ rd t (Reg.NET_FI_DONE u) = 0 ∧ (t.net.fi[u]).matched = 0 ∧
          fiState t u = if nowNat s < (rd64 s (Reg.NET_FI_START u)).toNat then fiArmed else fiActive) ∧
        (why ≠ 0 → Logged [(0xB00C, u, why)] s t ∧ flg t Reg.NET_FI_STATUS F.NET_FI_STATUS_refused = true ∧
          fiState t u = fiState s u ∧ t.net = s.net))) ∧
    ∃ t, exec (.fiDisarm m u v) s = .next t ∧ t.busReply = .done ∧
      (fiState s u = fiIdle → t.log = s.log ∧ t.net = s.net) ∧
      (fiState s u ≠ fiIdle → fiState t u = fiIdle ∧ Raises 0xB00B (1 <<< u.val) 3 s t ∧
        (t.net.fi[u]).out = (s.net.fi[u]).group ++ (s.net.fi[u]).delayed.map (·.1) ∧ (t.net.fi[u]).delayed = [])) ∧
  (∀ (u : Fin 10) (s : State), (fiState s u ≠ fiArmed → exec (.fiStart u) s = .next s) ∧
    (fiState s u = fiArmed → (rd64 s (Reg.NET_FI_START u)).toNat + 1 < 2 ^ 64 → ∃ t, exec (.fiStart u) s = .next t ∧ fiState t u = fiActive ∧
      (rd64 s (Reg.NET_FI_START u)).toNat ≤ nowNat t ∧ t.log = s.log ∧ OnlyRegs [Reg.NET_FI_STATUS] s t) ∧
    ((s.net.fi[u]).delayed = [] → exec (.fiRelease u) s = .next s) ∧
    (∀ e l, (s.net.fi[u]).delayed = e :: l → Room 4 s → ∃ t, exec (.fiRelease u) s = .next t ∧ e.2 ≤ localNs t ∧
      (t.net.fi[u]).out = [e.1] ∧ (t.net.fi[u]).delayed = l ∧ onlyNet s t)) ∧
  (∀ (u : Fin 10) (recv : Bool) (x : BitVec 16) (f : NetFrame) (s : State), Room 4 s →
    let p : PathFrame := { frame := f, field := x, receive := recv, pcp := pcpOf f.bytes, stamp := now s }
    let cfg := Reg.NET_FI_CFG u
    let mask := fld s (Reg.NET_FI_MATCH u) F.NET_FI_MATCH_mask
    let mine := flg s cfg F.NET_FI_CFG_dir = recv
    let hits := fiState s u = fiActive ∧ (mask = 0 ∨ x.toNat &&& mask = fld s (Reg.NET_FI_MATCH u) F.NET_FI_MATCH_value)
    let n := (s.net.fi[u]).matched + 1
    let acts := n % max 1 (fld s cfg F.NET_FI_CFG_every) = 0
    let done := fld s (Reg.NET_FI_DONE u) F.NET_FI_DONE_acted + 1
    let action := fld s cfg F.NET_FI_CFG_action
    let wait := 1000 * min 10000 (fld s (Reg.NET_FI_PARAM u) F.NET_FI_PARAM_delay)
    (∀ e : Fin 2, u = portUnit e → recv = false → prpMode s = false → linkIsUp s ⟨e, by omega⟩ = true ∧
      s.net.freeAt[e] ≤ localNs s ∧ ∀ q : Fin 4, (s.net.queues[e])[q] = []) →
    (¬ mine → ∃ t, exec (.fiFrame u recv x f) s = .next t ∧ (t.net.fi[u]).out = [p] ∧ onlyNet s t) ∧
    (mine → (s.net.fi[u]).delayed = [] → ¬ (hits ∧ acts) → ∃ t, exec (.fiFrame u recv x f) s = .next t ∧
      (t.net.fi[u]).out = [p] ∧ (hits → (t.net.fi[u]).matched = n) ∧ (¬ hits → (t.net.fi[u]).matched = (s.net.fi[u]).matched) ∧
      onlyNet s t ∧ ∀ e : Fin 2, u = portUnit e → recv = false → (t.net.lastSent[e]).map (·.frame) = some f) ∧
    (mine → hits → acts → (s.net.fi[u]).group = [] → done < 65536 → ∃ t, exec (.fiFrame u recv x f) s = .next t ∧
      (t.net.fi[u]).matched = n ∧ fld t (Reg.NET_FI_DONE u) F.NET_FI_DONE_acted = done ∧ onlyNet s t ∧
      (action = 1 → (t.net.fi[u]).out = []) ∧
      (action = 3 → (t.net.fi[u]).out = [{ p with frame := { f with crcOk := false } }]) ∧
      (action = 2 → (t.net.fi[u]).out = [{ p with frame := { f with
        bytes := flipBit u (fld s (Reg.NET_FI_PARAM u) F.NET_FI_PARAM_arg) f.bytes, crcOk := true } }]) ∧
      (action = 5 → (t.net.fi[u]).out = [] ∧ ∃ a, (t.net.fi[u]).delayed = (s.net.fi[u]).delayed ++ [(p, a)] ∧
        localNs s + wait ≤ a) ∧
      (action = 0 ∨ 6 ≤ action → (t.net.fi[u]).out = [p]) ∧
      (done < max 1 (fld s cfg F.NET_FI_CFG_count) → fiState t u = fiActive) ∧
      (max 1 (fld s cfg F.NET_FI_CFG_count) ≤ done → fiState t u = fiDone ∧ Raises 0xB00A u (BitVec.ofNat 32 done) s t))) ∧
  (∀ (e : Fin 2) (x : BitVec 16) (f : NetFrame) (s : State), prpMode s = false →
    let p : PathFrame := { frame := f, field := x, pcp := pcpOf f.bytes, stamp := now s }
    (linkIsUp s ⟨e, by omega⟩ = false → exec (.fiFrame (portUnit e) false x f) s = .next s) ∧
    (linkIsUp s ⟨e, by omega⟩ = true → localNs s < s.net.freeAt[e] → ∃ t, exec (.fiFrame (portUnit e) false x f) s = .next t ∧
      OnlyRegs [] s t ∧ t.log = s.log ∧ t.net.queues =
        s.net.queues.set e ((s.net.queues[e]).set (queueOf p) ((s.net.queues[e])[queueOf p] ++ [p])))) ∧
  (∀ (e : Fin 2) (x : BitVec 16) (f : NetFrame) (s : State),
    let u := portUnit e
    let o : Fin 2 := 1 - e
    let p : PathFrame := { frame := f, field := x, receive := true, pcp := pcpOf f.bytes, stamp := now s }
    let fwd := { p with receive := false, residence := some 0 }
    fiQuiet s u = true → Room 4 s → ∃ t, exec (.fiFrame u true x f) s = .next t ∧
      (f.crcOk = false → t.net.delivered = s.net.delivered ∧ t.net.queues = s.net.queues) ∧
      (f.crcOk = true → prpMode s = false → t.net.delivered = some p ∧
        (f.own = true ∨ linkIsUp s ⟨o, by omega⟩ = false → t.net.queues = s.net.queues) ∧
        (f.own = false → linkIsUp s ⟨o, by omega⟩ = true → localNs s < s.net.freeAt[o] → t.net.queues =
          s.net.queues.set o ((s.net.queues[o]).set (queueOf p) ((s.net.queues[o])[queueOf p] ++ [fwd])))) ∧
      (f.crcOk = true → prpMode s = true → t.net.queues = s.net.queues ∧ ∀ src n, f.prp = some (src, n) →
        ((prpWindow s src).contains n = true → t.net.delivered = s.net.delivered) ∧
        ((prpWindow s src).contains n = false → t.net.delivered = some p ∧
          prpWindow t src = (n :: prpWindow s src).take 256)))

/-- R396, R407 to R413, R415, R418, R420, R421. A request of a channel that is not open does nothing. A bad length or CRC and a wrong
sequence are answered and accept no sequence; a repeated one gets the stored reply; a bad payload, and where the role decides a stale epoch,
a wrong role or reserved bits, are answered and stored. A doorbell of master 6 takes the frame, answers what fails or is unknown, and
sets overrun while one is in progress; the mailbox's reply stands in CMD_RSP. Channels open, close, reset and idle out. An event is
selected, a loss is logged; an export ends; a slot is free 600 s after its end. -/
def Obligations.CmdChannels : Prop :=
  (∀ (c : Instr) (r : Request) (s : State), requestOf c = some r → r.header.chan ≠ 0 → ClearChan r.header s →
    let q := r.header
    let k := s.cmd.channels[q.chan]
    let fresh := seqCheck k q.seq = .fresh
    let still := fun (t : State) => OnlyRegs [] s t ∧ t.cmd.ops = s.cmd.ops ∧ t.upd = s.upd ∧ t.scan = s.scan ∧ t.recd = s.recd
    let answers := fun (x : Reply) => ∃ t, exec c s = .next t ∧ (t.cmd.channels[q.chan]).sent = some x ∧
      (t.cmd.channels[q.chan]).stored = k.stored ∧ (t.cmd.channels[q.chan]).lastSeq = k.lastSeq ∧ still t ∧ t.log = s.log
    let refuses := fun (st : Nat) => ∃ t, exec c s = .next t ∧ Replied q r.code 0 st [] t ∧ still t ∧ t.log = s.log
    let stale := fun (st : Nat) => ∃ t, exec c s = .next t ∧ Replied q r.code 0 st [] t ∧ still t ∧
      Logged (if oncePerSecond s.dpx.staleLogged[1] s then [(0xA00A, 1, BitVec.ofNat 32 (s.dpx.stale[1] + 1))] else []) s t
    (takesRequest s q.chan = false → exec c s = .next s) ∧
    (takesRequest s q.chan = true →
      (q.lengthOk = false → answers (frameRefusal s r.code q.seq stBadLength [])) ∧
      (q.lengthOk = true → q.crcOk = false → answers (frameRefusal s r.code q.seq stBadCrc [])) ∧
      (∀ x, q.lengthOk = true → q.crcOk = true → seqCheck k q.seq = .again x → answers x) ∧
      (∀ e, q.lengthOk = true → q.crcOk = true → seqCheck k q.seq = .wrong e →
        answers (frameRefusal s r.code q.seq stBadState [e])) ∧
      (q.lengthOk = true → q.crcOk = true → fresh → q.payloadOk = false → refuses stBadLength) ∧
      (q.lengthOk = true → q.crcOk = true → fresh → q.payloadOk = true → r.role = true → Room 1 s →
        (q.epoch ≠ ownEpoch s → stale stStaleEpoch) ∧
        (q.epoch = ownEpoch s → holdsActive s = false → stale stWrongRole) ∧
        (q.epoch = ownEpoch s → holdsActive s = true → q.reservedOk = false → refuses stNotPermitted)))) ∧
  (∀ (c : Instr) (r : Request) (s : State), requestOf c = some r → r.header.chan = 0 →
    (s.cmd.mailbox = none → exec c s = .next s) ∧
    (∀ p, s.cmd.mailbox = some p → p.1 ≠ r.code → exec c s = .next s)) ∧
  (∀ (q h : ReqHeader) (s : State), q.chan = 0 → s.cmd.mailbox = some (1, h) → s.pwr.phase = .running →
    q.payloadOk = true → h.reservedOk = true → ∃ t, exec (.identify q) s = .next t ∧ t.cmd.mailbox = none ∧
      flg t Reg.CMD_STATUS F.CMD_STATUS_req_busy = false ∧ flg t Reg.CMD_STATUS F.CMD_STATUS_rsp_valid = true ∧
      flg t Reg.CMD_IRQ F.CMD_IRQ_reply = true ∧ (t.cmd.channels[0]).lastSeq = some h.seq ∧
      ∃ x, (t.cmd.channels[0]).sent = some x ∧ x.status = stOk ∧ x.seq = h.seq ∧
        rd t Reg.CMD_RSP_LEN = BitVec.ofNat 32 (replyBytes x).length) ∧
  (∀ (m : Fin 8) (v : Word) (s : State), Served m true Reg.CMD_DOORBELL 4 s →
    let f := mailFrame s (getF v F.CMD_DOORBELL_length)
    let busy := flg s Reg.CMD_STATUS F.CMD_STATUS_req_busy
    let good := f.2.lengthOk = true ∧ f.2.crcOk = true ∧ seqCheck s.cmd.channels[0] f.2.seq = .fresh
    let back := fun (t : State) (st : Nat) => t.cmd.mailbox = none ∧ flg t Reg.CMD_STATUS F.CMD_STATUS_req_busy = false ∧
      flg t Reg.CMD_STATUS F.CMD_STATUS_rsp_valid = true ∧ flg t Reg.CMD_IRQ F.CMD_IRQ_reply = true ∧
      ∃ x, (t.cmd.channels[0]).sent = some x ∧ x.status = st ∧ x.opcode = f.1
    (m ≠ 6 → exec (.cmdDoorbell m v) s = .next { s with busReply := .done }) ∧
    (m = 6 → busy = true → exec (.cmdDoorbell m v) s =
      .next (setF { s with busReply := .done } Reg.CMD_STATUS F.CMD_STATUS_overrun 1)) ∧
    (m = 6 → busy = false → ∃ t, exec (.cmdDoorbell m v) s = .next t ∧ t.busReply = .done ∧ t.log = s.log ∧
      (good → knownOpcode f.1 = true → t.cmd.mailbox = some f ∧ flg t Reg.CMD_STATUS F.CMD_STATUS_req_busy = true ∧
        flg t Reg.CMD_STATUS F.CMD_STATUS_rsp_valid = false ∧ t.mem = s.mem) ∧
      (good → knownOpcode f.1 = false → back t stUnknownOp) ∧
      (f.2.lengthOk = false → back t stBadLength) ∧ (f.2.lengthOk = true → f.2.crcOk = false → back t stBadCrc))) ∧
  (∀ (m : Fin 8) (v : Word) (s : State), Served m true Reg.CMD_CTRL 4 s → Room 1 s →
    (flg s Reg.CMD_STATUS F.CMD_STATUS_req_busy = true → exec (.chanReset m v) s = .next { s with busReply := .done }) ∧
    (flg s Reg.CMD_STATUS F.CMD_STATUS_req_busy = false → ∃ t, exec (.chanReset m v) s = .next t ∧ t.busReply = .done ∧
      t.cmd.channels = s.cmd.channels.set 0 { isOpen := true } ∧ OnlyRegs [] s t ∧ Logged [(0x1403, 0, 1)] s t)) ∧
  (∀ (ch : Fin 21) (s : State), Room 1 s →
    let closed := fun (t : State) (why : Word) => t.cmd.channels = s.cmd.channels.set ch {} ∧ OnlyRegs [] s t ∧
      Logged [(0x1403, ch, why)] s t
    ((s.cmd.channels[ch]).isOpen = false → exec (.channelIdle ch) s = .next s ∧ exec (.sessionClosed ch) s = .next s) ∧
    (5 ≤ ch.val → exec (.sessionClosed ch) s = .next s) ∧ (ch.val < 5 → exec (.channelIdle ch) s = .next s) ∧
    (5 ≤ ch.val → (s.cmd.channels[ch]).isOpen = true → ∃ t, exec (.channelIdle ch) s = .next t ∧ closed t 2 ∧
      (s.cmd.channels[ch]).lastAt + 60000000000 ≤ localNs t) ∧
    (1 ≤ ch.val → ch.val ≤ 4 → (s.cmd.channels[ch]).isOpen = true → ∃ t, exec (.sessionClosed ch) s = .next t ∧ closed t 0) ∧
    ∀ ip : Word, (∃ t, exec (.tlsHandshake ip false) s = .next t ∧ Logged [(0xB009, 0, ip)] s t ∧ OnlyRegs [] s t ∧
        t.cmd = s.cmd) ∧
      ((∀ i : Fin 21, 1 ≤ i.val → i.val ≤ 4 → (s.cmd.channels[i]).isOpen = true) → exec (.tlsHandshake ip true) s = .next s) ∧
      (1 ≤ ch.val → ch.val ≤ 4 → (s.cmd.channels[ch]).isOpen = false →
        (∀ i : Fin 21, 1 ≤ i.val → i.val < ch.val → (s.cmd.channels[i]).isOpen = true) →
        ∃ t, exec (.tlsHandshake ip true) s = .next t ∧ OnlyRegs [] s t ∧ t.log = s.log ∧
          t.cmd.channels = s.cmd.channels.set ch { isOpen := true, lastAt := localNs s })) ∧
  (∀ (m : Fin 8) (v : Word) (s : State), Served m true Reg.CMD_EVT_SEL 4 s → ∃ t, exec (.evtSel m v) s = .next t ∧
    t.busReply = .done ∧ t.log = s.log ∧ rd t Reg.CMD_EVT_SEL = v ∧
    OnlyRegs [Reg.CMD_EVT_SEL, Reg.CMD_EVT_ENTRY 0, Reg.CMD_EVT_ENTRY 1, Reg.CMD_EVT_ENTRY 2, Reg.CMD_EVT_ENTRY 3] s t ∧
    (selectEvent s v = none → rd64 t (Reg.CMD_EVT_ENTRY 0) = 0 ∧ rd64 t (Reg.CMD_EVT_ENTRY 2) = 0) ∧
    (∀ e, selectEvent s v = some e → rd64 t (Reg.CMD_EVT_ENTRY 0) = e.tai ∧ rd t (Reg.CMD_EVT_ENTRY 2) = e.src ++ e.code ∧
      rd t (Reg.CMD_EVT_ENTRY 3) = e.arg)) ∧
  (∀ s : State, (s.log.dropped = 0 ∨ 256 ≤ s.log.queue.length → exec .evtLost s = .next s) ∧
    (s.log.dropped ≠ 0 → Room 1 s → ∃ t, exec .evtLost s = .next t ∧ t.log.dropped = 0 ∧ OnlyRegs [] s t ∧
      Raises 0x1401 0 (BitVec.ofNat 32 s.log.dropped) s t)) ∧
  (∀ (n : Fin 16) (s : State), (s.cmd.ops[n] = none → exec (.opEnded n) s = .next s ∧ exec (.opExpired n) s = .next s) ∧
    ∀ o, s.cmd.ops[n] = some o →
      (o.kind ≠ opExport ∨ o.state ≠ .running → exec (.opEnded n) s = .next s) ∧
      (o.kind = opExport → o.state = .running → Room 1 s → ∃ t x, exec (.opEnded n) s = .next t ∧ t.cmd.ops[n] = some x ∧
        x.state = .completed ∧ x.status = stOk ∧ x.handle = o.handle ∧ x.progress = 1000 ∧ x.endedAt = now t ∧
        flg t Reg.CMD_IRQ F.CMD_IRQ_op_done = true ∧ Raises 0x1402 0x0503 o.handle s t) ∧
      (opDone o = false → exec (.opExpired n) s = .next s) ∧
      (opDone o = true → ∃ t, exec (.opExpired n) s = .next t ∧ t.cmd.ops = s.cmd.ops.set n none ∧
        o.endedLocal + 600000000000 ≤ localNs t ∧ t.log = s.log ∧ rd t (Reg.CMD_OP_HANDLE n) = 0 ∧
        rd t (Reg.CMD_OP_STATE n) = 7))

/-- Table 15.3, R414 to R417, R421, R439, R93, R94, R326. An accepted request of a network channel has its opcode's effect, and its reply is
sent and stored: identity; words read and written in the host window, and NOT_PERMITTED outside it; states and lists of
operations, their control by Table 15.5 with NO_HANDLE for an unknown handle, LATE after an end, BAD_STATE for a release before one;
events; settings read, and written whole or refused whole; the reset; sleep or BAD_STATE; forces set, cleared and listed; and, with the
role and its epoch, the requests to a scan core. -/
def Obligations.CmdOpcodes : Prop :=
  ∀ (q : ReqHeader) (s : State), Accepted q s →
    let u := opened q s
    let still := fun (t : State) => OnlyRegs [] s t ∧ t.log = s.log ∧ t.cmd.ops = s.cmd.ops ∧ t.upd = s.upd ∧ t.scan = s.scan
    let told := fun (code : Nat) (st : Nat) (res : List Word) (t : State) => Replied q code 0 st res t ∧ still t
    let mine := q.epoch = ownEpoch s ∧ holdsActive s = true
    (∃ t, exec (.identify q) s = .next t ∧ told 0x01 stOk ([rd s Reg.SYS_ID] ++ words64 s.upd.stake.serial ++ [firmwareVersion s, rd s Reg.FAB_IMAGE_ID, rd s (Reg.SCAN_PROG_ID 0), rd s (Reg.SCAN_PROG_ID 1), rd s Reg.DPX_STATUS, ownEpoch s]) t) ∧
    (∀ (a : BitVec 32) (n : Nat), 1 ≤ n → n ≤ 1024 →
      (hostReaches a.toNat n = false → (∃ t, exec (.readRegs q a n) s = .next t ∧ told 0x02 stNotPermitted [] t)) ∧
      (hostReaches a.toNat n = true → ∃ t, exec (.readRegs q a n) s = .next t ∧
        Replied q 0x02 0 stOk (readWords n a.toNat u).1 t ∧ t.snap = (readWords n a.toNat u).2.snap ∧ t.log = s.log)) ∧
    (∀ (a : BitVec 32) (ws : List Word),
      (hostReaches a.toNat ws.length = false → (∃ t, exec (.writeRegs q a ws) s = .next t ∧ told 0x03 stNotPermitted [] t)) ∧
      let p := writeWords a.toNat ws (stOk, u)
      (hostReaches a.toNat ws.length = true → serviceUp p.2 = true → ∃ t, exec (.writeRegs q a ws) s = .next t ∧
        Replied q 0x03 0 p.1 [] t ∧ ∀ b, rd t b = rd p.2 b)) ∧
    (∀ (a : BitVec 32) (w : Word), hostReaches a.toNat 1 = true → serviceUp (regWrite 6 a.toNat w u) = true →
      runsUncalibrated a.toNat w u = false → ∃ t, exec (.writeRegs q a [w]) s = .next t ∧ Replied q 0x03 0 stOk [] t ∧
        ∀ b, rd t b = rd (regWrite 6 a.toNat w u) b) ∧
    (∃ t, exec (.opList q) s = .next t ∧ told 0x11 stOk (s.cmd.ops.toList.flatMap (fun (o : Option Oper) => match o with | none => [] | some o => [o.handle, BitVec.ofNat 32 o.kind, BitVec.ofNat 32 (opCode o.state)])) t) ∧
    (slotOf s q.handle = none → (∃ t, exec (.opStatus q) s = .next t ∧ told 0x10 stNoHandle [] t) ∧ (∃ t, exec (.opSuspend q) s = .next t ∧ told 0x12 stNoHandle [] t) ∧
      (∃ t, exec (.opResume q) s = .next t ∧ told 0x13 stNoHandle [] t) ∧ (∃ t, exec (.opCancel q) s = .next t ∧ told 0x14 stNoHandle [] t) ∧ (∃ t, exec (.opRelease q) s = .next t ∧ told 0x15 stNoHandle [] t)) ∧
    (∀ (n : Fin 16) (o : Oper), slotOf s q.handle = some n → s.cmd.ops[n] = some o →
      let ends := fun (code : Nat) (st : Nat) (x : Option Oper) (t : State) => Replied q code q.handle st [] t ∧ t.cmd.ops[n] = x
      (∃ t, exec (.opStatus q) s = .next t ∧ told 0x10 stOk ([BitVec.ofNat 32 (opCode o.state), BitVec.ofNat 32 o.kind, BitVec.ofNat 32 o.status, BitVec.ofNat 32 o.progress] ++ words64 o.openedAt ++ words64 o.endedAt) t) ∧
      (o.kind ≠ opSwitch →
        (opDone o = true → (∃ t, exec (.opSuspend q) s = .next t ∧ ends 0x12 stLate (some o) t) ∧ (∃ t, exec (.opResume q) s = .next t ∧ ends 0x13 stLate (some o) t) ∧
          (∃ t, exec (.opCancel q) s = .next t ∧ ends 0x14 stLate (some o) t) ∧ (∃ t, exec (.opRelease q) s = .next t ∧ ends 0x15 stOk none t)) ∧
        (opDone o = false → (∃ t, exec (.opRelease q) s = .next t ∧ ends 0x15 stBadState (some o) t) ∧
          (o.kind = opDownload ∨ o.kind = opExport →
            (∃ t, exec (.opSuspend q) s = .next t ∧ ends 0x12 stOk (some { o with state := .suspended, hostHold := true }) t)) ∧
          (o.kind ≠ opDownload → o.kind ≠ opExport → (∃ t, exec (.opSuspend q) s = .next t ∧ ends 0x12 stNotPermitted (some o) t)) ∧
          (o.state ≠ .suspended → (∃ t, exec (.opResume q) s = .next t ∧ ends 0x13 stOk (some o) t)) ∧
          (o.kind = opDownload → o.state = .suspended → o.partHold = false →
            (∃ t, exec (.opResume q) s = .next t ∧ ends 0x13 stOk (some { o with state := .running, hostHold := false }) t)) ∧
          (o.state = .suspended → o.partHold = true → (∃ t, exec (.opResume q) s = .next t ∧ ends 0x13 stOk (some { o with hostHold := false }) t)) ∧
          (o.kind ≠ opArm → o.committed = true → (∃ t, exec (.opCancel q) s = .next t ∧ ends 0x14 stLate (some o) t)) ∧
          (o.kind = opDownload ∨ o.kind = opVerify ∨ o.kind = opExport → o.committed = false → Room 1 s →
            ∃ t x, exec (.opCancel q) s = .next t ∧ Replied q 0x14 q.handle stOk [] t ∧ t.cmd.ops[n] = some x ∧
              x.state = .cancelled ∧ Raises 0x1402 (o.kind.val * 256 + 4) o.handle s t)))) ∧
    (∀ (start : BitVec 64) (count : Nat) (value mask : BitVec 16), 1 ≤ count → count ≤ 256 →
      let l := readEvents s start.toNat count value mask
      (∃ t, exec (.eventRead q start count value mask) s = .next t ∧ told 0x20 stOk (words64 (match l with | [] => s.log.next | p :: _ => BitVec.ofNat 64 p.1) ++ words64 s.log.next ++ [if start.toNat + 4096 < s.log.next.toNat then 1 else 0] ++ l.flatMap eventWords) t)) ∧
    (∀ lo hi : BitVec 16, (∃ t, exec (.settingsRead q lo hi) s = .next t ∧ told 0x30 stOk (((settingsNow s).records.filter (fun r => lo ≤ r.type && r.type ≤ hi)).flatMap recordWords) t)) ∧
    (∀ x : List SettingsRecord, mine →
      (x.any (fun r => r.malformed) = true → (∃ t, exec (.settingsWrite q x) s = .next t ∧ told 0x31 stBadLength [] t)) ∧
      (∀ i, x.any (fun r => r.malformed) = false → x.findIdx? (fun r => r.refused || !typeKnown s r.type) = some i →
        (∃ t, exec (.settingsWrite q x) s = .next t ∧ told 0x31 stBadState [BitVec.ofNat 32 i] t)) ∧
      (x.any (fun r => r.malformed || (r.refused || !typeKnown s r.type)) = false → ∃ t, exec (.settingsWrite q x) s = .next t ∧
        Replied q 0x31 0 stOk [] t ∧ settingsNow t = writtenSet s x ∧ rd t Reg.UPD_SETTINGS = (settingsNow s).version + 1 ∧
        t.upd.settingsDue = s.upd.settingsDue ++ [⟨x, settingsFrame s * 1000000⟩] ∧ t.log = s.log ∧
        OnlyRegs [Reg.UPD_SETTINGS] s t)) ∧
    (∀ cold : Bool, ∃ t x, exec (.reset q cold) s = .next t ∧ t.pwr.phase = .held ∧ t.pwr.askWarm = !cold ∧
      rd t Reg.SYS_RESET_CAUSE = rd s Reg.SYS_RESET_CAUSE ||| 8 ∧ (t.cmd.channels[q.chan]).sent = some x ∧
      x.opcode = 0x40 ∧ x.status = stOk ∧ x.seq = q.seq ∧ x.epoch = ownEpoch s) ∧
    (sleepRefused s = true → (∃ t, exec (.sleep q) s = .next t ∧ told 0x41 stBadState [] t)) ∧
    (sleepRefused s = false → (∀ k : Fin 2, anyBusy s.scan.cores[k] = false) → ∃ t x, exec (.sleep q) s = .next t ∧ t.pwr.phase = .asleep ∧ t.loop.owner = false ∧
      t.fio.sleeping = true ∧ localNs s + 35000000 ≤ localNs t ∧ (t.cmd.channels[q.chan]).sent = some x ∧ x.status = stOk ∧
      x.seq = q.seq) ∧
    (∀ (k : Fin 2) (i : Fin 8), sleepRefused s = false → scanMode s k ≠ scanStop →
      ((s.scan.cores[k]).tasks[i]).busy = true → ((s.scan.cores[k]).tasks[i]).started = true → ∃ t,
      exec (.sleep q) s = .next t ∧ Replied q 0x41 0 stOk [] t ∧ t.pwr.sleepFrom = some (localNs s) ∧ ready t = false ∧
      t.pwr.faultLow = true ∧ (t.scan.cores[k]).quiesce = some scanStop) ∧
    (∀ (k : Fin 2) (id : Word) (ty : BitVec 8) (v : BitVec 64),
      let rest := s.scan.forces.filter (fun g => !(g.core == k && g.id == id))
      (ioSymbol s k id = false → (∃ t, exec (.forceSet q k id ty v) s = .next t ∧ told 0x50 stBadState [] t)) ∧
      (ioSymbol s k id = true → 256 ≤ rest.length → (∃ t, exec (.forceSet q k id ty v) s = .next t ∧ told 0x50 stBusy [] t)) ∧
      (ioSymbol s k id = true → rest.length < 256 → Room 1 s → ∃ t, exec (.forceSet q k id ty v) s = .next t ∧
        Replied q 0x50 0 stOk [] t ∧ t.scan.forces = rest ++ [⟨k, id, ty, v⟩] ∧ Logged [(0x8021, k, id)] s t) ∧
      ∃ t, exec (.forceClear q k id) s = .next t ∧ Replied q 0x51 0 stOk [] t ∧ t.scan.forces =
        s.scan.forces.filter (fun f => !(f.core == k && (f.id == id || id == 0xFFFFFFFF)))) ∧
    (∃ t, exec (.forceList q) s = .next t ∧ told 0x52 stOk (s.scan.forces.flatMap (fun f => [BitVec.ofNat 32 f.core, f.id, f.ty.setWidth 32] ++ words64 f.value)) t) ∧
    (∀ (k : Fin 2) (r : ScanReq), mine → ∃ t, exec (.scanCtrl q k r) s = .next t ∧
      Replied q 0x58 0 (scanRequest k r u).1 [] t ∧ t.scan = (scanRequest k r u).2.scan ∧ ∀ b, rd t b = rd (scanRequest k r u).2 b)

/-- Table 15.3, R289 to R293, R389, R427, R428, R430 to R432, R436, R446. An accepted request arms, disarms and triggers the recorder, lists, locks,
unlocks and deletes records and exports them; a file is read; a download begins and takes pages; a verification and an activation
open their operations or are refused; a trial is confirmed, a staged image or a trial abandoned; a switchover of a SYNCED partner begins; a
token is taken or refused with its event. Each reply is sent and stored with the status and handle that follow. -/
def Obligations.CmdWork : Prop :=
  ∀ (q : ReqHeader) (s : State), Accepted q s →
    let u := opened q s
    let told := fun (code : Nat) (st : Nat) (res : List Word) (t : State) => Replied q code 0 st res t ∧
      OnlyRegs [] s t ∧ t.log = s.log ∧ t.cmd.ops = s.cmd.ops ∧ t.upd = s.upd ∧ t.recd = s.recd
    let opens := fun (code : Nat) (res : List Word) (n : Fin 16) (k : Fin 7) (t : State) => ∃ o, t.cmd.ops[n] = some o ∧
      o.kind = k ∧ o.state = .running ∧ o.chan = some q.chan ∧ Replied q code o.handle stOk res t
    let journal := fun (s : State) (k : Fin 4) => s.upd.journal[k]
    (armRefused s = none → openOfKind s opArm = [] → ∀ n, freeSlot s = some n → Room 1 s →
      (∃ t, exec (.recArm q) s = .next t ∧ opens 0x60 [] n opArm t ∧ recState t = recArmed ∧ t.recd.op = some n ∧ ∃ a, Raises 0x7001 0 a s t)) ∧
    (∀ e, armRefused s = some e → Room 1 s → ∃ t, exec (.recArm q) s = .next t ∧ Replied q 0x60 0 e.1 [] t ∧
      recState t = recState s ∧ Logged [(0x7009, e.1, BitVec.ofNat 32 e.2)] s t) ∧
    (∃ t, exec (.recDisarm q) s = .next t ∧ Replied q 0x61 0 stOk [] t ∧
      (recState s = recArmed → s.recd.trigs = [] → recState t = recIdle)) ∧
    (∃ t, exec (.recTrigger q) s = .next t ∧ Replied q 0x62 0 stOk [] t ∧ t.recd.trigs =
      if (recState s = recArmed ∨ recState s = recCapturing) ∧ fbit s Reg.REC_TRIG_SRC F.REC_TRIG_SRC_en srcWrite.val = true
        then s.recd.trigs ++ [⟨srcWrite, nowNat s⟩] else s.recd.trigs) ∧
    (∃ t, exec (.recList q) s = .next t ∧ told 0x63 stOk (s.recd.stored.flatMap (fun r => [r.number] ++ words64 (BitVec.ofNat 64 r.trigAt) ++ [BitVec.ofNat 32 r.size, BitVec.ofNat 32 (b2n r.locked), BitVec.ofNat 32 r.cause])) t) ∧
    (∀ n : Word, isStored s n = false ∨ exporting s n = true → (∃ t, exec (.recLock q n) s = .next t ∧ told 0x64 stBadState [] t) ∧
      (∃ t, exec (.recUnlock q n) s = .next t ∧ told 0x65 stBadState [] t) ∧ (∃ t, exec (.recDelete q n) s = .next t ∧ told 0x66 stBadState [] t)) ∧
    (∀ n : Word, isStored s n = true → exporting s n = false →
      (∃ t, exec (.recLock q n) s = .next t ∧ Replied q 0x64 0 stOk [] t ∧
        t.recd.stored = s.recd.stored.map (fun r => if r.number = n then { r with locked := true } else r)) ∧
      (∃ t, exec (.recUnlock q n) s = .next t ∧ Replied q 0x65 0 stOk [] t ∧
        t.recd.stored = s.recd.stored.map (fun r => if r.number = n then { r with locked := false } else r)) ∧
      (∃ t, exec (.recDelete q n) s = .next t ∧ Replied q 0x66 0 stOk [] t ∧
        t.recd.stored = s.recd.stored.filter (fun r => r.number != n) ∧ isStored t n = false)) ∧
    (∀ n : Word, (isStored s n = false → (∃ t, exec (.recExport q n) s = .next t ∧ told 0x67 stBadState [] t)) ∧
      (isStored s n = true → freeSlot s = none → (∃ t, exec (.recExport q n) s = .next t ∧ told 0x67 stBusy [] t)) ∧
      (∀ i, isStored s n = true → freeSlot s = some i → ∃ t o, exec (.recExport q n) s = .next t ∧ t.cmd.ops[i] = some o ∧
        o.kind = opExport ∧ o.obj = n.toNat ∧ Replied q 0x67 o.handle stOk [] t ∧ exporting t n = true)) ∧
    (∀ (n : Word) (file : Fin 4) (off len : Nat), len ≤ 61440 →
      (s.recd.exported.find? (fun e => e.record.number == n) = none → (∃ t, exec (.fileRead q n file off len) s = .next t ∧ told 0x68 stBadState [] t)) ∧
      ∀ e, s.recd.exported.find? (fun e => e.record.number == n) = some e → ∃ t x, exec (.fileRead q n file off len) s = .next t ∧
        (t.cmd.channels[q.chan]).sent = some x ∧ x.status = stOk ∧ x.tail = fileBytes e file off len ∧ x.seq = q.seq) ∧
    (∀ (kind length : Nat) (hash : BitVec 384) (k : Fin 4) (i : Fin 16), kindOf kind = some k → kindState s k = .normal →
      k ≠ 3 → length ≠ 0 → length ≤ kindLimit k → openOfKind s opDownload = [] → freeSlot s = some i →
      resumes s k length hash = none →
      (∃ t, exec (.imageBegin q kind length hash) s = .next t ∧ opens 0x70 [0, BitVec.ofNat 32 ((length + 65535) / 65536), 0] i opDownload t ∧ t.upd.download = some ⟨k, length, hash, 0⟩ ∧ t.upd.staged[k] = none ∧ t.upd.declared[k] = hash ∧ (journal t k).verified = false)) ∧
    (∀ (block off len : Nat) (x : StagedImage) (n : Fin 16) (o : Oper) (d : Download), slotOf s q.handle = some n →
      s.cmd.ops[n] = some o → o.kind = opDownload → o.state = .running → s.upd.download = some d →
      (d.confirmed < block ∨ dlTotal d ≤ block →
        (∃ t, exec (.imageData q block off len x) s = .next t ∧ told 0x71 stBadState [BitVec.ofNat 32 d.confirmed] t)) ∧
      (block ≤ d.confirmed → block < dlTotal d → chunkOk d block off len = false →
        (∃ t, exec (.imageData q block off len x) s = .next t ∧ told 0x71 stBadLength [] t)) ∧
      (block = d.confirmed → block < dlTotal d → chunkOk d block off len = true →
        let pages := s.upd.pages ||| chunkPages off len
        (List.range (blockPages d d.confirmed)).all (fun i => pages.getLsbD i) = false →
        ∃ t, exec (.imageData q block off len x) s = .next t ∧ t.upd.pages = pages ∧ t.upd.download = some d ∧
          Replied q 0x71 0 stOk [BitVec.ofNat 32 d.confirmed, pages.setWidth 32] t)) ∧
    (∀ (kind : Nat) (k : Fin 4), kindOf kind = some k →
      (s.upd.staged[k] = none → (∃ t, exec (.imageVerify q kind) s = .next t ∧ told 0x72 stBadState [] t)) ∧
      (∀ i, (s.upd.staged[k]).isSome = true → openOfKind s opVerify = [] → freeSlot s = some i →
        (∃ t, exec (.imageVerify q kind) s = .next t ∧ opens 0x72 [] i opVerify t ∧ t.upd = s.upd)) ∧
      (kindState s k ≠ .trial → (∃ t, exec (.imageConfirm q kind) s = .next t ∧ told 0x74 stBadState [] t)) ∧
      (kindState s k = .trial → Room 1 s → ∃ t, exec (.imageConfirm q kind) s = .next t ∧ Replied q 0x74 0 stOk [] t ∧
        kindState t k = .normal ∧ (journal t k).active = (journal s k).active ∧
        (∃ a, Raises 0xC007 kind a s t)) ∧
      (kindState s k = .activating → (∃ t, exec (.imageAbandon q kind) s = .next t ∧ told 0x75 stBadState [] t)) ∧
      (kindState s k = .normal → ∃ t, exec (.imageAbandon q kind) s = .next t ∧ Replied q 0x75 0 stOk [] t ∧
        t.upd.staged[k] = none ∧ (journal t k).verified = false ∧ kindState t k = .normal ∧
        (∀ d, t.upd.download = some d → d.kind ≠ k))) ∧
    (∀ (mask flags : BitVec 16),
      (activateRefused mask.toNat flags.toNat u ≠ stOk →
        (∃ t, exec (.imageActivate q mask flags) s = .next t ∧ told 0x73 (activateRefused mask.toNat flags.toNat u) [] t)) ∧
      (∀ i, activateRefused mask.toNat flags.toNat u = stOk → mask = 4 → openOfKind s opActivate = [] → freeSlot s = some i →
        (∃ t, exec (.imageActivate q mask flags) s = .next t ∧ opens 0x73 [] i opActivate t ∧ t.upd.restartAt = some (localNs s, some i) ∧ t.upd.journal = s.upd.journal))) ∧
    (q.epoch = ownEpoch s → holdsActive s = true → openOfKind s opSwitch = [] → ∀ i, freeSlot s = some i → Room 1 s →
      let may := dpxState s = dpxActive ∧ fld s Reg.DPX_PARTNER F.DPX_PARTNER_state = dpxSynced
      (may → (∃ t, exec (.switchover q) s = .next t ∧ opens 0x80 [] i opSwitch t ∧ dpxState t = dpxSwitching ∧ t.dpx.switchOp = some i)) ∧
      (¬ may → ∃ t, exec (.switchover q) s = .next t ∧ Replied q 0x80 0 stBadState [] t ∧ t.cmd.ops = s.cmd.ops ∧
        dpxState t = dpxState s ∧ Logged [(0xA00E, 3, rd s Reg.DPX_SWITCH_TIME)] s t)) ∧
    (∀ k : Token, Room 3 s →
      (tokenRefused k u ≠ stOk → ∃ t, exec (.serviceState q k) s = .next t ∧
        Replied q 0x90 0 (tokenRefused k u) [] t ∧ OnlyRegs [] s t ∧ t.upd = s.upd ∧
        Logged [(0xC010, k.request, BitVec.ofNat 32 (tokenRefused k u))] s t) ∧
      (tokenRefused k u = stOk → k.request.val ≤ 1 → ∃ t, exec (.serviceState q k) s = .next t ∧
        Replied q 0x90 0 stOk [] t ∧ commissioning t = decide (k.request = 1) ∧
        (k.request = 1 → Raises 0xC00F 1 0 s t) ∧ (k.request = 1 → timeState s ≠ timeUnset →
          rd64 t Reg.UPD_SERVICE_END = k.notAfter)))

/-- R430, R432, R435, R436, R439, R440, R447. A verification completes with its kind verified, or fails with the first check's status. The end of the
trial window reverts every kind in TRIAL to NORMAL, its former slot active but for a group image. A revert that waited cold-starts the part
once no stage is energised. A restart closes the network channels and commits an activated firmware, which runs in TRIAL where it can
migrate the settings. Settings apply at their instant. COMMISSIONING ends with units disarmed and feeders freed. -/
def Obligations.UpdateSteps : Prop :=
  (∀ (n : Fin 16) (o : Oper) (k : Fin 4) (x : StagedImage) (s : State), (openOfKind s opVerify).head? = some n →
    s.cmd.ops[n] = some o → kindOf o.obj = some k → s.upd.staged[k] = some x → Room 4 s →
    ∃ t y, exec .imageVerified s = .next t ∧ t.cmd.ops[n] = some y ∧ y.handle = o.handle ∧
      (verifyFault k x s.upd.declared[k] s = none → y.state = .completed ∧ (t.upd.journal[k]).verified = true ∧
        Raises 0xC003 o.obj (contentHead x.content).buildId s t) ∧
      (∀ e, verifyFault k x s.upd.declared[k] s = some e → y.state = .failed ∧ y.status = e.2 ∧ t.upd.journal = s.upd.journal ∧
        Raises 0xC004 e.1 (BitVec.ofNat 32 e.2) s t)) ∧
  (∀ s : State, openOfKind s opVerify = [] → exec .imageVerified s = .next s) ∧
  (∀ s : State, (s.upd.trialFrom = none → exec .trialExpired s = .next s) ∧
    ∀ a, s.upd.trialFrom = some a → ∃ t, exec .trialExpired s = .next t ∧
      a + 1000000000 * trialWindow s ≤ localNs t ∧ ∀ k : Fin 4,
      (kindState s k ≠ .trial → t.upd.journal[k] = s.upd.journal[k]) ∧
      (kindState s k = .trial → kindState t k = .normal ∧ (t.upd.journal[k]).active =
        if (s.upd.journal[k]).group then (s.upd.journal[k]).active else 1 - (s.upd.journal[k]).active)) ∧
  (∀ s : State, (s.upd.revertWait = none ∨ anyEnergised s = true → exec .deferredRevert s = .next s) ∧
    (s.upd.revertWait.isSome = true → anyEnergised s = false → ∃ t, exec .deferredRevert s = .next t ∧ t.pwr.phase = .held ∧
      t.pwr.askWarm = false ∧ t.upd.failedBoots = 0 ∧ rd t Reg.SYS_RESET_CAUSE = rd s Reg.SYS_RESET_CAUSE ∧
      t.upd.journal = s.upd.journal)) ∧
  (∀ s : State, (s.upd.restartAt = none → exec .supervisorRestart s = .next s) ∧
    ∀ a op, s.upd.restartAt = some (a, op) → s.upd.migrateFail = false →
      (op = none → kindState s 2 ≠ .activating → ∃ t, exec .supervisorRestart s = .next t ∧ a + 150000000 ≤ localNs t ∧
        t.upd.restartAt = none ∧ t.upd.journal = s.upd.journal ∧
        ∀ ch : Fin 21, ch ≠ 0 → (t.cmd.channels[ch]).isOpen = false) ∧
      (∀ (n : Fin 16) (o : Oper) (f : Firmware), op = some n → s.cmd.ops[n] = some o → o.obj = 4 →
        opDone o = false → kindState s 2 = .normal → (s.upd.staged[2]).map (·.content) = some (.firmware f) →
        unmigratable f (settingsNow s) = none → ∃ t y, exec .supervisorRestart s = .next t ∧ kindState t 2 = .trial ∧
          (t.upd.journal[2]).active = 1 - (s.upd.journal[2]).active ∧ runningFirmware t = some f ∧
          t.cmd.ops[n] = some y ∧ y.state = .completed ∧ t.upd.restartAt = none ∧ t.upd.staged[2] = none ∧
          (settingsNow t).records = (settingsNow s).records.filterMap (migrateRecord f))) ∧
  (∀ s : State, (s.upd.settingsDue = [] → exec .settingsApplied s = .next s) ∧
    ∀ d l, s.upd.settingsDue = d :: l → d.at' + 1 < 2 ^ 64 → ∃ t, exec .settingsApplied s = .next t ∧
      d.at' ≤ nowNat t ∧ settingsNow t = settingsNow s ∧
      t.net.items = (settingsNow s).records.filterMap (fun r => r.net) ∧
      (l = [] → Room 1 s → t.upd.settingsDue = [] ∧
        ((∀ r ∈ d.records, r.regs = []) → Logged [(0xC00C, 0, (settingsNow s).version)] s t ∧ OnlyRegs [] s t) ∧
        ∀ r w, d.records = [r] → r.regs = [(Reg.UPD_TRIAL_CFG, w)] → Logged [(0xC00C, 0, (settingsNow s).version)] s t ∧
          OnlyRegs [Reg.UPD_TRIAL_CFG] s t ∧
          fld t Reg.UPD_TRIAL_CFG F.UPD_TRIAL_CFG_window = getF w F.UPD_TRIAL_CFG_window)) ∧
  (∀ s : State, (commissioning s = false → exec .commissioningEnd s = .next s) ∧
    (commissioning s = true → Room 8 s → (s.upd.serviceEnd = none → (rd64 s Reg.UPD_SERVICE_END).toNat + 1 < 2 ^ 64) → ∃ t, exec .commissioningEnd s = .next t ∧ commissioning t = false ∧
      t.upd.serviceEnd = none ∧ fld t Reg.PROT_BLOCK F.PROT_BLOCK_feeder = 0 ∧ (∀ u : Fin 10, fiState t u = fiIdle) ∧
      (∀ a, s.upd.serviceEnd = some a → a ≤ localNs t) ∧
      (s.upd.serviceEnd = none → (rd64 s Reg.UPD_SERVICE_END).toNat ≤ nowNat t) ∧
      Raises 0xC00F 0 (BitVec.ofNat 32 (fld s Reg.PROT_BLOCK F.PROT_BLOCK_feeder)) s t))
end

