-- ==== Sys2Proof/Laws/Store.lean ====
section
/-! SUPPORT. Laws of sparse storage: a read after a write, and that a write keeps the canonical form. -/

namespace Sys2Proof.Machine

variable {α : Type}

theorem sget_erase_same (d : Nat → α) (l : List (Nat × α)) (k : Nat) : sget d (serase l k) k = d k := by
  induction l with
  | nil => rfl
  | cons e l ih =>
    by_cases h : e.1 = k
    · simpa [serase, h] using ih
    · simpa [serase, h, sget] using ih

theorem sget_erase_other (d : Nat → α) (l : List (Nat × α)) {j k : Nat} (hjk : j ≠ k) :
    sget d (serase l k) j = sget d l j := by
  induction l with
  | nil => rfl
  | cons e l ih =>
    by_cases h : e.1 = k
    · have hj : e.1 ≠ j := fun x => hjk (x.symm.trans h)
      simpa [serase, h, sget, hj, Ne.symm hjk] using ih
    · by_cases hj : e.1 = j
      · simp [serase, sget, hj, hjk]
      · simpa [serase, h, sget, hj] using ih

theorem sget_insert_same (d : Nat → α) (l : List (Nat × α)) (k : Nat) (v : α) (h : ∀ e ∈ l, e.1 ≠ k) :
    sget d (sinsert (k, v) l) k = v := by
  induction l with
  | nil => simp [sinsert, sget]
  | cons e l ih =>
    have he : e.1 ≠ k := h e (by simp)
    unfold sinsert
    split
    · simp [sget]
    · simpa [sget, he] using ih (fun x hx => h x (by simp [hx]))

theorem sget_insert_other (d : Nat → α) (l : List (Nat × α)) {j k : Nat} (v : α) (hjk : j ≠ k) :
    sget d (sinsert (k, v) l) j = sget d l j := by
  induction l with
  | nil => simp [sinsert, sget, Ne.symm hjk]
  | cons e l ih =>
    unfold sinsert
    split
    · simp [sget, Ne.symm hjk]
    · by_cases he : e.1 = j <;> simp [sget, he, ih]

theorem serase_key_ne (l : List (Nat × α)) (k : Nat) : ∀ e ∈ serase l k, e.1 ≠ k := by
  intro e he
  simpa [serase] using (List.mem_filter.1 he).2

variable [DecidableEq α]

/-- Reading the key just written gives the value written. -/
@[simp] theorem sget_sput_same (d : Nat → α) (l : List (Nat × α)) (k : Nat) (v : α) : sget d (sput d l k v) k = v := by
  unfold sput
  split
  · next h => rw [sget_erase_same, h]
  · exact sget_insert_same d _ k v (serase_key_ne l k)

/-- A write leaves every other key alone. -/
theorem sget_sput_other (d : Nat → α) (l : List (Nat × α)) {j k : Nat} (v : α) (h : j ≠ k) :
    sget d (sput d l k v) j = sget d l j := by
  unfold sput
  split
  · exact sget_erase_other d l h
  · rw [sget_insert_other d _ v h, sget_erase_other d l h]

theorem sinsert_mem (e : Nat × α) (l : List (Nat × α)) (x : Nat × α) : x ∈ sinsert e l ↔ x = e ∨ x ∈ l := by
  induction l with
  | nil => simp [sinsert]
  | cons h l ih =>
    unfold sinsert
    split
    · simp
    · simp only [List.mem_cons, ih]; tauto

theorem sinsert_rises (e : Nat × α) (l : List (Nat × α)) (h : l.Pairwise (fun a b => a.1 < b.1))
    (hne : ∀ x ∈ l, x.1 ≠ e.1) : (sinsert e l).Pairwise (fun a b => a.1 < b.1) := by
  induction l with
  | nil => simp [sinsert]
  | cons x l ih =>
    have hx := List.pairwise_cons.1 h
    unfold sinsert
    split
    · next hlt =>
      refine List.pairwise_cons.2 ⟨fun y hy => ?_, h⟩
      rcases List.mem_cons.1 hy with rfl | hy
      · exact hlt
      · exact Nat.lt_trans hlt (hx.1 y hy)
    · next hlt =>
      have hne' : x.1 ≠ e.1 := hne x (by simp)
      refine List.pairwise_cons.2 ⟨fun y hy => ?_, ih hx.2 (fun y hy => hne y (by simp [hy]))⟩
      rcases (sinsert_mem e l y).1 hy with rfl | hy
      · omega
      · exact hx.1 y hy

/-- Every write keeps the canonical form. -/
theorem swf_sput (d : Nat → α) (l : List (Nat × α)) (k : Nat) (v : α) (h : swf d l = true) :
    swf d (sput d l k v) = true := by
  simp only [swf, Bool.and_eq_true, decide_eq_true_eq, List.all_eq_true, bne_iff_ne, ne_eq] at h ⊢
  have hp : (serase l k).Pairwise (fun a b => a.1 < b.1) := h.1.filter _
  have ha : ∀ x ∈ serase l k, ¬ x.2 = d x.1 := fun x hx => h.2 x (List.mem_filter.1 hx).1
  unfold sput
  split
  · exact ⟨hp, ha⟩
  · next hv =>
    refine ⟨sinsert_rises _ _ hp (serase_key_ne l k), fun x hx => ?_⟩
    rcases (sinsert_mem _ _ _).1 hx with rfl | hx
    · exact hv
    · exact ha x hx

/-- Leaving entries out keeps the canonical form. -/
theorem swf_filter (d : Nat → α) (l : List (Nat × α)) (p : Nat × α → Bool) (h : swf d l = true) :
    swf d (l.filter p) = true := by
  simp only [swf, Bool.and_eq_true, decide_eq_true_eq, List.all_eq_true, bne_iff_ne, ne_eq] at h ⊢
  exact ⟨h.1.filter _, fun x hx => h.2 x (List.mem_filter.1 hx).1⟩

end Sys2Proof.Machine
end

