-- ==== Sys2Proof/Laws/Evolve.lean ====
section
/-! SUPPORT. What a change built from the shared operations can do: it touches only its footprint and keeps the state
sound. One lemma for each operation of Machine/Ops.lean and Machine/Flags.lean. -/

set_option Elab.async false

namespace Sys2Proof.Laws

open Sys2Proof Sys2Proof.Machine Sys2Proof.Safety

/-- A change from `s` to `t` that stays within a footprint and keeps the state sound. -/
structure Ev (f : Foot) (s t : State) : Prop where
  keeps : Keeps f s t
  sound : Sound s → Sound t

/-- One footprint within another. -/
structure Foot.le (g f : Foot) : Prop where
  parts : ∀ p, p ∈ g.parts → p ∈ f.parts
  blocks : ∀ b, b ∈ g.blocks → b ∈ f.blocks
  anyReg : g.anyReg = true → f.anyReg = true

/-- The same as a computation. -/
def leB (g f : Foot) : Bool :=
  g.parts.all (fun p => f.parts.contains p) && g.blocks.all (fun b => f.blocks.contains b) && (!g.anyReg || f.anyReg)

theorem le_of {g f : Foot} (h : leB g f = true) : Foot.le g f := by
  simp only [leB, Bool.and_eq_true, List.all_eq_true, List.contains_iff_mem, Bool.or_eq_true, Bool.not_eq_true'] at h
  exact ⟨h.1.1, h.1.2, fun x => h.2.resolve_left (by simp [x])⟩

theorem le_trans' {g f k : Foot} (hf : Foot.le f k) (h : leB g f = true) : Foot.le g k :=
  ⟨fun p hp => hf.parts p ((le_of h).parts p hp), fun b hb => hf.blocks b ((le_of h).blocks b hb),
    fun x => hf.anyReg ((le_of h).anyReg x)⟩

variable {f : Foot} {s x : State}

theorem Ev.refl (f : Foot) (s : State) : Ev f s s :=
  ⟨⟨rfl, fun p _ => by cases p <;> rfl, fun _ _ _ => rfl⟩, id⟩

/-- May the register at an address change? -/
def Foot.reg (f : Foot) (a : Nat) : Prop := f.anyReg = true ∨ ∃ b, blockAt a = some b ∧ b ∈ f.blocks

theorem reg_any {G : Foot} (hf : Foot.le G f) (h : G.anyReg = true) (a : Nat) : Foot.reg f a := .inl (hf.anyReg h)

theorem reg_block {G : Foot} (hf : Foot.le G f) {a : Nat} (b : Block) (h : G.blocks.contains b = true)
    (ha : blockAt a = some b) : Foot.reg f a :=
  .inr ⟨b, ha, hf.blocks b (by simpa using h)⟩

/-- A register in the window of a block, by the number of the window. -/
theorem reg_at {G : Foot} (hf : Foot.le G f) {a : Nat} (k : Nat) (b : Block) (h : G.blocks.contains b = true)
    (hk : blockAt (k * 0x10000) = some b) (ha : a / 0x10000 = k) : Foot.reg f a := by
  refine reg_block hf b h ?_
  rw [← hk, blockAt, blockAt, Nat.mul_div_cancel k (by omega), ha]

/-- A register of FAB. -/
theorem reg_fab {G : Foot} (hf : Foot.le G f) {a : Nat} (h : G.blocks.contains .fab = true)
    (ha : 0x4010 ≤ a / 0x10000 ∧ a / 0x10000 ≤ 0x4013) : Foot.reg f a := by
  have : a / 0x10000 = 0x4010 ∨ a / 0x10000 = 0x4011 ∨ a / 0x10000 = 0x4012 ∨ a / 0x10000 = 0x4013 := by omega
  rcases this with e | e | e | e
  · exact reg_at hf 0x4010 .fab h rfl e
  · exact reg_at hf 0x4011 .fab h rfl e
  · exact reg_at hf 0x4012 .fab h rfl e
  · exact reg_at hf 0x4013 .fab h rfl e

theorem block_mem {G : Foot} (hf : Foot.le G f) {b : Block} (h : G.blocks.contains b = true) : b ∈ f.blocks :=
  hf.blocks b (by simpa using h)

theorem part_mem {G : Foot} (hf : Foot.le G f) {p : Part} (h : G.parts.contains p = true) : p ∈ f.parts :=
  hf.parts p (by simpa using h)

theorem ev_ite {c : Prop} {d : Decidable c} {a b : State} (ha : c → Ev f s a) (hb : ¬c → Ev f s b) :
    Ev f s (if c then a else b) := by
  split
  · exact ha ‹_›
  · exact hb ‹_›

theorem ev_snd {α : Type} {p : α × State} {a : α} {t : State} (e : p = (a, t)) (h : Ev f s p.2) : Ev f s t := by
  subst e; exact h

theorem ev_snd2 {α β : Type} {p : α × β × State} {a : α} {b : β} {t : State} (e : p = (a, b, t)) (h : Ev f s p.2.2) :
    Ev f s t := by
  subst e; exact h

theorem ev_snd3 {α β γ : Type} {p : α × β × γ × State} {a : α} {b : β} {c : γ} {t : State} (e : p = (a, b, c, t))
    (h : Ev f s p.2.2.2) : Ev f s t := by
  subst e; exact h

/-- A command's outcome, where it answers a next state. -/
def EvO (f : Foot) (s : State) (o : Out) : Prop := ∀ t, o = .next t → Ev f s t

theorem evo_next (h : Ev f s x) : EvO f s (.next x) := by
  rintro t ⟨⟩; exact h

theorem evo_ite {c : Prop} {d : Decidable c} {a b : Out} (ha : c → EvO f s a) (hb : ¬c → EvO f s b) :
    EvO f s (if c then a else b) := by
  split
  · exact ha ‹_›
  · exact hb ‹_›

theorem ev_ite2 {α : Type} {c : Prop} {d : Decidable c} {a b : α × State} (ha : c → Ev f s a.2) (hb : ¬c → Ev f s b.2) :
    Ev f s (if c then a else b).2 := by
  split
  · exact ha ‹_›
  · exact hb ‹_›

theorem ev_ite3 {α β : Type} {c : Prop} {d : Decidable c} {a b : α × β × State} (ha : c → Ev f s a.2.2)
    (hb : ¬c → Ev f s b.2.2) : Ev f s (if c then a else b).2.2 := by
  split
  · exact ha ‹_›
  · exact hb ‹_›

theorem ev_forEach_range {n : Nat} {g : Nat → State → State} (hg : ∀ a < n, ∀ y, Ev f s y → Ev f s (g a y))
    (h : Ev f s x) : Ev f s (forEach (List.range n) g x) := by
  have k : ∀ (l : List Nat), (∀ a ∈ l, a < n) → ∀ y, Ev f s y → Ev f s (forEach l g y) := by
    intro l
    induction l with
    | nil => exact fun _ y hy => hy
    | cons a l ih =>
      exact fun hl y hy => ih (fun b hb => hl b (List.mem_cons_of_mem _ hb)) _ (hg a (hl a (List.mem_cons_self ..)) y hy)
  exact k _ (fun a ha => List.mem_range.1 ha) x h

theorem ev_forEach {α : Type} {l : List α} {g : α → State → State} (hg : ∀ a ∈ l, ∀ y, Ev f s y → Ev f s (g a y))
    (h : Ev f s x) : Ev f s (forEach l g x) := by
  induction l generalizing x with
  | nil => exact h
  | cons a l ih => exact ih (fun b hb => hg b (List.mem_cons_of_mem _ hb)) (hg a (List.mem_cons_self ..) x h)

theorem ev_whenS {c : Bool} {g : State → State} (hg : c = true → ∀ y, Ev f s y → Ev f s (g y)) (h : Ev f s x) :
    Ev f s (whenS c g x) := by
  unfold whenS
  split
  · exact hg ‹_› x h
  · exact h

/-! ### Primitive changes -/

theorem rd_wr_same (s : State) (a : Nat) (v : Word) : rd (wr s a v) a = v := by simp [rd, wr]

theorem rd_wr_other (s : State) {a b : Nat} (v : Word) (h : b ≠ a) : rd (wr s a v) b = rd s b := by
  simp [rd, wr, sget_sput_other _ _ _ h]

theorem ev_wr {a : Nat} {v : Word} (hr : Foot.reg f a) (h : Ev f s x) : Ev f s (wr x a v) := by
  refine ⟨⟨h.keeps.pending, fun p hp => ?_, fun hn b hb => ?_⟩, fun hs => ?_⟩
  · have := h.keeps.parts p hp
    cases p <;> exact this
  · have hab : b ≠ a := by
      rintro rfl
      rcases hr with hr | ⟨k, hk, hk'⟩
      · simp [hn] at hr
      · exact hb k hk hk'
    rw [rd_wr_other x v hab]; exact h.keeps.regs hn b hb
  · have k := h.sound hs
    exact ⟨swf_sput _ _ _ _ k.regs, k.mem, k.tileMem, k.queue, k.entries⟩

theorem ev_setF {a : Nat} {F : Fld} {v : Nat} (hr : Foot.reg f a) (h : Ev f s x) : Ev f s (setF x a F v) := ev_wr hr h

theorem ev_setFbit {a : Nat} {F : Fld} {i : Nat} {b : Bool} (hr : Foot.reg f a) (h : Ev f s x) :
    Ev f s (setFbit x a F i b) := ev_wr hr h

theorem ev_wr64 {a : Nat} {v : BitVec 64} (hr : Foot.reg f a) (hr' : Foot.reg f (a + 4)) (h : Ev f s x) :
    Ev f s (wr64 x a v) := ev_wr hr' (ev_wr hr h)

theorem ev_bump {a : Nat} {F : Fld} (hr : Foot.reg f a) (h : Ev f s x) : Ev f s (bump a F x) := ev_wr hr h

theorem ev_bumpSat {a : Nat} {F : Fld} (hr : Foot.reg f a) (h : Ev f s x) : Ev f s (bumpSat a F x) := ev_wr hr h

/-! ### Primitive changes of one part -/

theorem ev_snap {v : Vector Snap 8} (hp : .snap ∈ f.parts) (h : Ev f s x) : Ev f s { x with snap := v } :=
  ⟨⟨h.keeps.pending, fun p hq => by have := h.keeps.parts p hq; cases p <;> first | exact this | exact absurd hp hq,
    h.keeps.regs⟩, fun hs => let k := h.sound hs; ⟨k.regs, k.mem, k.tileMem, k.queue, k.entries⟩⟩

theorem ev_busReply {v : BusReply} (hp : .busReply ∈ f.parts) (h : Ev f s x) : Ev f s { x with busReply := v } :=
  ⟨⟨h.keeps.pending, fun p hq => by have := h.keeps.parts p hq; cases p <;> first | exact this | exact absurd hp hq,
    h.keeps.regs⟩, fun hs => let k := h.sound hs; ⟨k.regs, k.mem, k.tileMem, k.queue, k.entries⟩⟩

theorem ev_fresh {v : Nat} (hp : .fresh ∈ f.parts) (h : Ev f s x) : Ev f s { x with fresh := v } :=
  ⟨⟨h.keeps.pending, fun p hq => by have := h.keeps.parts p hq; cases p <;> first | exact this | exact absurd hp hq,
    h.keeps.regs⟩, fun hs => let k := h.sound hs; ⟨k.regs, k.mem, k.tileMem, k.queue, k.entries⟩⟩

theorem ev_tai {v : BitVec 66} (hp : .tai ∈ f.parts) (h : Ev f s x) : Ev f s { x with tai := v } :=
  ⟨⟨h.keeps.pending, fun p hq => by have := h.keeps.parts p hq; cases p <;> first | exact this | exact absurd hp hq,
    h.keeps.regs⟩, fun hs => let k := h.sound hs; ⟨k.regs, k.mem, k.tileMem, k.queue, k.entries⟩⟩

theorem ev_ticks {v : Nat} (hp : .ticks ∈ f.parts) (h : Ev f s x) : Ev f s { x with ticks := v } :=
  ⟨⟨h.keeps.pending, fun p hq => by have := h.keeps.parts p hq; cases p <;> first | exact this | exact absurd hp hq,
    h.keeps.regs⟩, fun hs => let k := h.sound hs; ⟨k.regs, k.mem, k.tileMem, k.queue, k.entries⟩⟩

theorem ev_pwr {v : PwrState} (hp : .pwr ∈ f.parts) (h : Ev f s x) : Ev f s { x with pwr := v } :=
  ⟨⟨h.keeps.pending, fun p hq => by have := h.keeps.parts p hq; cases p <;> first | exact this | exact absurd hp hq,
    h.keeps.regs⟩, fun hs => let k := h.sound hs; ⟨k.regs, k.mem, k.tileMem, k.queue, k.entries⟩⟩

theorem ev_time {v : TimeState} (hp : .time ∈ f.parts) (h : Ev f s x) : Ev f s { x with time := v } :=
  ⟨⟨h.keeps.pending, fun p hq => by have := h.keeps.parts p hq; cases p <;> first | exact this | exact absurd hp hq,
    h.keeps.regs⟩, fun hs => let k := h.sound hs; ⟨k.regs, k.mem, k.tileMem, k.queue, k.entries⟩⟩

theorem ev_adc {v : AdcState} (hp : .adc ∈ f.parts) (h : Ev f s x) : Ev f s { x with adc := v } :=
  ⟨⟨h.keeps.pending, fun p hq => by have := h.keeps.parts p hq; cases p <;> first | exact this | exact absurd hp hq,
    h.keeps.regs⟩, fun hs => let k := h.sound hs; ⟨k.regs, k.mem, k.tileMem, k.queue, k.entries⟩⟩

theorem ev_filt {v : FiltState} (hp : .filt ∈ f.parts) (h : Ev f s x) : Ev f s { x with filt := v } :=
  ⟨⟨h.keeps.pending, fun p hq => by have := h.keeps.parts p hq; cases p <;> first | exact this | exact absurd hp hq,
    h.keeps.regs⟩, fun hs => let k := h.sound hs; ⟨k.regs, k.mem, k.tileMem, k.queue, k.entries⟩⟩

theorem ev_loop {v : LoopState} (hp : .loop ∈ f.parts) (h : Ev f s x) : Ev f s { x with loop := v } :=
  ⟨⟨h.keeps.pending, fun p hq => by have := h.keeps.parts p hq; cases p <;> first | exact this | exact absurd hp hq,
    h.keeps.regs⟩, fun hs => let k := h.sound hs; ⟨k.regs, k.mem, k.tileMem, k.queue, k.entries⟩⟩

theorem ev_gfm {v : GfmState} (hp : .gfm ∈ f.parts) (h : Ev f s x) : Ev f s { x with gfm := v } :=
  ⟨⟨h.keeps.pending, fun p hq => by have := h.keeps.parts p hq; cases p <;> first | exact this | exact absurd hp hq,
    h.keeps.regs⟩, fun hs => let k := h.sound hs; ⟨k.regs, k.mem, k.tileMem, k.queue, k.entries⟩⟩

theorem ev_prot {v : ProtState} (hp : .prot ∈ f.parts) (h : Ev f s x) : Ev f s { x with prot := v } :=
  ⟨⟨h.keeps.pending, fun p hq => by have := h.keeps.parts p hq; cases p <;> first | exact this | exact absurd hp hq,
    h.keeps.regs⟩, fun hs => let k := h.sound hs; ⟨k.regs, k.mem, k.tileMem, k.queue, k.entries⟩⟩

theorem ev_scan {v : ScanState} (hp : .scan ∈ f.parts) (h : Ev f s x) : Ev f s { x with scan := v } :=
  ⟨⟨h.keeps.pending, fun p hq => by have := h.keeps.parts p hq; cases p <;> first | exact this | exact absurd hp hq,
    h.keeps.regs⟩, fun hs => let k := h.sound hs; ⟨k.regs, k.mem, k.tileMem, k.queue, k.entries⟩⟩

theorem ev_fio {v : FioState} (hp : .fio ∈ f.parts) (h : Ev f s x) : Ev f s { x with fio := v } :=
  ⟨⟨h.keeps.pending, fun p hq => by have := h.keeps.parts p hq; cases p <;> first | exact this | exact absurd hp hq,
    h.keeps.regs⟩, fun hs => let k := h.sound hs; ⟨k.regs, k.mem, k.tileMem, k.queue, k.entries⟩⟩

theorem ev_dpx {v : DpxState} (hp : .dpx ∈ f.parts) (h : Ev f s x) : Ev f s { x with dpx := v } :=
  ⟨⟨h.keeps.pending, fun p hq => by have := h.keeps.parts p hq; cases p <;> first | exact this | exact absurd hp hq,
    h.keeps.regs⟩, fun hs => let k := h.sound hs; ⟨k.regs, k.mem, k.tileMem, k.queue, k.entries⟩⟩

theorem ev_cmd {v : CmdState} (hp : .cmd ∈ f.parts) (h : Ev f s x) : Ev f s { x with cmd := v } :=
  ⟨⟨h.keeps.pending, fun p hq => by have := h.keeps.parts p hq; cases p <;> first | exact this | exact absurd hp hq,
    h.keeps.regs⟩, fun hs => let k := h.sound hs; ⟨k.regs, k.mem, k.tileMem, k.queue, k.entries⟩⟩

theorem ev_recd {v : RecState} (hp : .recd ∈ f.parts) (h : Ev f s x) : Ev f s { x with recd := v } :=
  ⟨⟨h.keeps.pending, fun p hq => by have := h.keeps.parts p hq; cases p <;> first | exact this | exact absurd hp hq,
    h.keeps.regs⟩, fun hs => let k := h.sound hs; ⟨k.regs, k.mem, k.tileMem, k.queue, k.entries⟩⟩

theorem ev_net {v : NetState} (hp : .net ∈ f.parts) (h : Ev f s x) : Ev f s { x with net := v } :=
  ⟨⟨h.keeps.pending, fun p hq => by have := h.keeps.parts p hq; cases p <;> first | exact this | exact absurd hp hq,
    h.keeps.regs⟩, fun hs => let k := h.sound hs; ⟨k.regs, k.mem, k.tileMem, k.queue, k.entries⟩⟩

theorem ev_upd {v : UpdState} (hp : .upd ∈ f.parts) (h : Ev f s x) : Ev f s { x with upd := v } :=
  ⟨⟨h.keeps.pending, fun p hq => by have := h.keeps.parts p hq; cases p <;> first | exact this | exact absurd hp hq,
    h.keeps.regs⟩, fun hs => let k := h.sound hs; ⟨k.regs, k.mem, k.tileMem, k.queue, k.entries⟩⟩

theorem ev_mem {v : List Host.Cell} (hp : .mem ∈ f.parts) (hm : Memory.wf x.mem = true → Memory.wf v = true) (h : Ev f s x) : Ev f s { x with mem := v } :=
  ⟨⟨h.keeps.pending, fun p hq => by have := h.keeps.parts p hq; cases p <;> first | exact this | exact absurd hp hq,
    h.keeps.regs⟩, fun hs => let k := h.sound hs; ⟨k.regs, hm k.mem, k.tileMem, k.queue, k.entries⟩⟩

theorem ev_fab {v : FabState} (hp : .fab ∈ f.parts) (hm : v.tileMem = x.fab.tileMem) (h : Ev f s x) : Ev f s { x with fab := v } :=
  ⟨⟨h.keeps.pending, fun p hq => by have := h.keeps.parts p hq; cases p <;> first | exact this | exact absurd hp hq,
    h.keeps.regs⟩, fun hs => let k := h.sound hs; ⟨k.regs, k.mem, by simpa [hm] using k.tileMem, k.queue, k.entries⟩⟩

theorem ev_log {v : LogState} (hp : .log ∈ f.parts) (hq : x.log.queue.length ≤ 256 → v.queue.length ≤ 256)
    (he : x.log.entries.length ≤ 4096 → v.entries.length ≤ 4096) (h : Ev f s x) : Ev f s { x with log := v } :=
  ⟨⟨h.keeps.pending, fun p hq => by have := h.keeps.parts p hq; cases p <;> first | exact this | exact absurd hp hq,
    h.keeps.regs⟩, fun hs => let k := h.sound hs; ⟨k.regs, k.mem, k.tileMem, hq k.queue, he k.entries⟩⟩

theorem ev_fab' {v : FabState} (hp : .fab ∈ f.parts)
    (hm : swf tileDefault x.fab.tileMem = true → swf tileDefault v.tileMem = true) (h : Ev f s x) :
    Ev f s { x with fab := v } :=
  ⟨⟨h.keeps.pending, fun p hq => by have := h.keeps.parts p hq; cases p <;> first | exact this | exact absurd hp hq,
    h.keeps.regs⟩, fun hs => let k := h.sound hs; ⟨k.regs, k.mem, hm k.tileMem, k.queue, k.entries⟩⟩

/-- Any change of the registers that keeps their canonical form. -/
theorem ev_regs {v : List (Nat × Word)} (ha : f.anyReg = true)
    (hm : swf resetWord x.regs = true → swf resetWord v = true) (h : Ev f s x) : Ev f s { x with regs := v } :=
  ⟨⟨h.keeps.pending, fun p hq => by have := h.keeps.parts p hq; cases p <;> exact this,
    fun hn => absurd ha (by simp [hn])⟩, fun hs => let k := h.sound hs; ⟨hm k.regs, k.mem, k.tileMem, k.queue, k.entries⟩⟩

/-- A change of several parts that leaves the registers, memory, tile memory and the log. -/
theorem ev_parts {y : State} (hp : ∀ p, p ∉ f.parts → p.same x y) (h0 : y.pending = x.pending) (h1 : y.regs = x.regs)
    (h2 : y.mem = x.mem) (h3 : y.fab.tileMem = x.fab.tileMem) (h4 : y.log = x.log) (h : Ev f s x) : Ev f s y :=
  ⟨⟨h0.trans h.keeps.pending, fun p hq => by
      have a := h.keeps.parts p hq
      have b := hp p hq
      cases p <;> exact Eq.trans b a,
    fun hn a ha => by rw [rd, h1]; exact h.keeps.regs hn a ha⟩,
   fun hs => let k := h.sound hs
    ⟨h1 ▸ k.regs, h2 ▸ k.mem, h3 ▸ k.tileMem, h4 ▸ k.queue, h4 ▸ k.entries⟩⟩

/-! ### Memory, time, the log, free values -/

theorem ev_memPut {a : Nat} {b : Byte} (hp : .mem ∈ f.parts) (h : Ev f s x) : Ev f s (memPut x a b) :=
  ev_mem hp (swf_sput _ _ _ _) h

theorem ev_memPutBytes {n a : Nat} {v : Word} (hp : .mem ∈ f.parts) (h : Ev f s x) :
    Ev f s (memPutBytes n x a v) := by
  induction n generalizing x a v with
  | zero => exact h
  | succ n ih => exact ih (ev_memPut hp h)

theorem ev_advanceTo {q : Nat} (hp : .tai ∈ f.parts) (ht : .ticks ∈ f.parts) (h : Ev f s x) :
    Ev f s (advanceTo x q) := by
  exact ev_tai (v := x.tai + BitVec.ofNat 66 (5 * ticksTo x q)) hp (ev_ticks (v := x.ticks + ticksTo x q) ht h)

theorem ev_reachNs {t : BitVec 64} (hp : .tai ∈ f.parts) (ht : .ticks ∈ f.parts) (h : Ev f s x) :
    Ev f s (reachNs x t) := ev_advanceTo hp ht h

theorem ev_reachTick {t : Nat} (hp : .tai ∈ f.parts) (ht : .ticks ∈ f.parts) (h : Ev f s x) : Ev f s (reachTick t x) :=
  ev_tai (v := x.tai + BitVec.ofNat 66 (5 * (t - x.ticks))) hp (ev_ticks (v := x.ticks + (t - x.ticks)) ht h)

theorem ev_reachLocal {t : Nat} (hp : .tai ∈ f.parts) (ht : .ticks ∈ f.parts) (h : Ev f s x) :
    Ev f s (reachLocal t x) := ev_reachTick hp ht h

theorem ev_dropEvent (hp : .log ∈ f.parts) (hr : .cmd ∈ f.blocks) (h : Ev f s x) : Ev f s (dropEvent x) :=
  ev_log hp id id (ev_wr (.inr ⟨.cmd, rfl, hr⟩) (ev_setF (.inr ⟨.cmd, rfl, hr⟩) h))

/-- Handing an event to the logger touches the log, and CMD where the queue is full (R420). -/
theorem ev_logEvent {code src : Nat} {arg : Word} (hp : .log ∈ f.parts) (hr : .cmd ∈ f.blocks) (h : Ev f s x) :
    Ev f s (logEvent code src arg x) := by
  unfold logEvent
  split
  · exact ev_log hp (fun _ => by simp; omega) id h
  · exact ev_dropEvent hp hr h

theorem ev_logN {code src arg : Nat} (hp : .log ∈ f.parts) (hr : .cmd ∈ f.blocks) (h : Ev f s x) :
    Ev f s (logN code src arg x) := ev_logEvent hp hr h

theorem ev_drainOne (hp : .log ∈ f.parts) (hr : .cmd ∈ f.blocks) (h : Ev f s x) : Ev f s (drainOne x) := by
  unfold drainOne
  split
  · exact h
  · next e q he =>
    refine ev_log hp (fun hq => ?_) (fun hq => ?_) (ev_ite (fun _ => ev_setF (.inr ⟨.cmd, rfl, hr⟩) h) (fun _ => h))
    · have : x.log.queue.length ≤ 256 := by revert hq; split <;> exact id
      rw [he] at this; simp at this ⊢; omega
    · have : x.log.entries.length ≤ 4096 := by revert hq; split <;> exact id
      dsimp only
      split
      · next hl => simp at hl ⊢; omega
      · next hl => omega

theorem ev_drainN {n : Nat} (hp : .log ∈ f.parts) (hr : .cmd ∈ f.blocks) (h : Ev f s x) : Ev f s (drainN n x) := by
  induction n generalizing x with
  | zero => exact h
  | succ n ih => exact ih (ev_drainOne hp hr h)

theorem ev_drainAll (hp : .log ∈ f.parts) (hr : .cmd ∈ f.blocks) (h : Ev f s x) : Ev f s (drainAll x) :=
  ev_drainN hp hr h

theorem ev_takeFree (hp : .fresh ∈ f.parts) (h : Ev f s x) : Ev f s (takeFree x).2 := ev_fresh hp h

end Sys2Proof.Laws
end

