-- ==== Sys2Proof/Laws/RegBlocks.lean ====
section
/-! SUPPORT. Every register of an indexed family lies in its block's window (Table 1.8): one lemma a family. -/

namespace Sys2Proof.Laws

open Sys2Proof Sys2Proof.Machine Sys2Proof.Safety

variable {G f : Foot}

theorem reg_CLK_CKOUT {i : Nat} (hf : Foot.le G f) (hb : G.blocks.contains .clk = true) (hi : i < 4) :
    Foot.reg f (Reg.CLK_CKOUT i) :=
  reg_at hf 0x4002 .clk hb rfl (by simp only [Reg.CLK_CKOUT]; omega)

theorem reg_TIME_ASYM {i : Nat} (hf : Foot.le G f) (hb : G.blocks.contains .time = true) (hi : i < 4) :
    Foot.reg f (Reg.TIME_ASYM i) :=
  reg_at hf 0x4003 .time hb rfl (by simp only [Reg.TIME_ASYM]; omega)

theorem reg_TIME_TRIG_TARGET {i : Nat} (hf : Foot.le G f) (hb : G.blocks.contains .time = true) (hi : i < 8) :
    Foot.reg f (Reg.TIME_TRIG_TARGET i) :=
  reg_at hf 0x4003 .time hb rfl (by simp only [Reg.TIME_TRIG_TARGET]; omega)

theorem reg_TIME_TRIG_TARGET_hi {i : Nat} (hf : Foot.le G f) (hb : G.blocks.contains .time = true) (hi : i < 8) :
    Foot.reg f (Reg.TIME_TRIG_TARGET i + 4) :=
  reg_at hf 0x4003 .time hb rfl (by simp only [Reg.TIME_TRIG_TARGET]; omega)

theorem reg_TIME_TRIG_CFG {i : Nat} (hf : Foot.le G f) (hb : G.blocks.contains .time = true) (hi : i < 8) :
    Foot.reg f (Reg.TIME_TRIG_CFG i) :=
  reg_at hf 0x4003 .time hb rfl (by simp only [Reg.TIME_TRIG_CFG]; omega)

theorem reg_TIME_TRIG_STATUS {i : Nat} (hf : Foot.le G f) (hb : G.blocks.contains .time = true) (hi : i < 8) :
    Foot.reg f (Reg.TIME_TRIG_STATUS i) :=
  reg_at hf 0x4003 .time hb rfl (by simp only [Reg.TIME_TRIG_STATUS]; omega)

theorem reg_ADC_CTRL {i : Nat} (hf : Foot.le G f) (hb : G.blocks.contains .adc = true) (hi : i < 4) :
    Foot.reg f (Reg.ADC_CTRL i) :=
  reg_at hf 0x4004 .adc hb rfl (by simp only [Reg.ADC_CTRL]; omega)

theorem reg_ADC_START {i : Nat} (hf : Foot.le G f) (hb : G.blocks.contains .adc = true) (hi : i < 4) :
    Foot.reg f (Reg.ADC_START i) :=
  reg_at hf 0x4004 .adc hb rfl (by simp only [Reg.ADC_START]; omega)

theorem reg_ADC_PERIOD {i : Nat} (hf : Foot.le G f) (hb : G.blocks.contains .adc = true) (hi : i < 4) :
    Foot.reg f (Reg.ADC_PERIOD i) :=
  reg_at hf 0x4004 .adc hb rfl (by simp only [Reg.ADC_PERIOD]; omega)

theorem reg_ADC_STATE {i : Nat} (hf : Foot.le G f) (hb : G.blocks.contains .adc = true) (hi : i < 4) :
    Foot.reg f (Reg.ADC_STATE i) :=
  reg_at hf 0x4004 .adc hb rfl (by simp only [Reg.ADC_STATE]; omega)

theorem reg_ADC_LAST {i : Nat} (hf : Foot.le G f) (hb : G.blocks.contains .adc = true) (hi : i < 4) :
    Foot.reg f (Reg.ADC_LAST i) :=
  reg_at hf 0x4004 .adc hb rfl (by simp only [Reg.ADC_LAST]; omega)

theorem reg_ADC_CAL {i j : Nat} (hf : Foot.le G f) (hb : G.blocks.contains .adc = true) (hi : i < 4) (hj : j < 4) :
    Foot.reg f (Reg.ADC_CAL i j) :=
  reg_at hf 0x4004 .adc hb rfl (by simp only [Reg.ADC_CAL]; omega)

theorem reg_ADC_AIN_CFG {i : Nat} (hf : Foot.le G f) (hb : G.blocks.contains .adc = true) (hi : i < 16) :
    Foot.reg f (Reg.ADC_AIN_CFG i) :=
  reg_at hf 0x4004 .adc hb rfl (by simp only [Reg.ADC_AIN_CFG]; omega)

theorem reg_ADC_BAND {i : Nat} (hf : Foot.le G f) (hb : G.blocks.contains .adc = true) (hi : i < 16) :
    Foot.reg f (Reg.ADC_BAND i) :=
  reg_at hf 0x4004 .adc hb rfl (by simp only [Reg.ADC_BAND]; omega)

theorem reg_ADC_HARD {i : Nat} (hf : Foot.le G f) (hb : G.blocks.contains .adc = true) (hi : i < 16) :
    Foot.reg f (Reg.ADC_HARD i) :=
  reg_at hf 0x4004 .adc hb rfl (by simp only [Reg.ADC_HARD]; omega)

theorem reg_ADC_MOD_CFG {i : Nat} (hf : Foot.le G f) (hb : G.blocks.contains .adc = true) (hi : i < 24) :
    Foot.reg f (Reg.ADC_MOD_CFG i) :=
  reg_at hf 0x4004 .adc hb rfl (by simp only [Reg.ADC_MOD_CFG]; omega)

theorem reg_ADC_SEQ {i j : Nat} (hf : Foot.le G f) (hb : G.blocks.contains .adc = true) (hi : i < 4) (hj : j < 64) :
    Foot.reg f (Reg.ADC_SEQ i j) :=
  reg_at hf 0x4004 .adc hb rfl (by simp only [Reg.ADC_SEQ]; omega)

theorem reg_FILT_CH_CFG {i : Nat} (hf : Foot.le G f) (hb : G.blocks.contains .filt = true) (hi : i < 24) :
    Foot.reg f (Reg.FILT_CH_CFG i) :=
  reg_at hf 0x4005 .filt hb rfl (by simp only [Reg.FILT_CH_CFG]; omega)

theorem reg_FILT_CH_STATE {i : Nat} (hf : Foot.le G f) (hb : G.blocks.contains .filt = true) (hi : i < 24) :
    Foot.reg f (Reg.FILT_CH_STATE i) :=
  reg_at hf 0x4005 .filt hb rfl (by simp only [Reg.FILT_CH_STATE]; omega)

theorem reg_FILT_CH_GDELAY {i : Nat} (hf : Foot.le G f) (hb : G.blocks.contains .filt = true) (hi : i < 24) :
    Foot.reg f (Reg.FILT_CH_GDELAY i) :=
  reg_at hf 0x4005 .filt hb rfl (by simp only [Reg.FILT_CH_GDELAY]; omega)

theorem reg_FILT_CH_FAST_DELAY {i : Nat} (hf : Foot.le G f) (hb : G.blocks.contains .filt = true) (hi : i < 24) :
    Foot.reg f (Reg.FILT_CH_FAST_DELAY i) :=
  reg_at hf 0x4005 .filt hb rfl (by simp only [Reg.FILT_CH_FAST_DELAY]; omega)

theorem reg_FILT_CH_LAST {i : Nat} (hf : Foot.le G f) (hb : G.blocks.contains .filt = true) (hi : i < 24) :
    Foot.reg f (Reg.FILT_CH_LAST i) :=
  reg_at hf 0x4005 .filt hb rfl (by simp only [Reg.FILT_CH_LAST]; omega)

theorem reg_FILT_CH_LAST_FAST {i : Nat} (hf : Foot.le G f) (hb : G.blocks.contains .filt = true) (hi : i < 24) :
    Foot.reg f (Reg.FILT_CH_LAST_FAST i) :=
  reg_at hf 0x4005 .filt hb rfl (by simp only [Reg.FILT_CH_LAST_FAST]; omega)

theorem reg_FILT_CH_STAMP {i : Nat} (hf : Foot.le G f) (hb : G.blocks.contains .filt = true) (hi : i < 24) :
    Foot.reg f (Reg.FILT_CH_STAMP i) :=
  reg_at hf 0x4005 .filt hb rfl (by simp only [Reg.FILT_CH_STAMP]; omega)

theorem reg_FILT_CH_STAMP_hi {i : Nat} (hf : Foot.le G f) (hb : G.blocks.contains .filt = true) (hi : i < 24) :
    Foot.reg f (Reg.FILT_CH_STAMP i + 4) :=
  reg_at hf 0x4005 .filt hb rfl (by simp only [Reg.FILT_CH_STAMP]; omega)

theorem reg_CTRL_STAGE_CFG {i : Nat} (hf : Foot.le G f) (hb : G.blocks.contains .ctrl = true) (hi : i < 4) :
    Foot.reg f (Reg.CTRL_STAGE_CFG i) :=
  reg_at hf 0x4006 .ctrl hb rfl (by simp only [Reg.CTRL_STAGE_CFG]; omega)

theorem reg_CTRL_STAGE_CMD {i : Nat} (hf : Foot.le G f) (hb : G.blocks.contains .ctrl = true) (hi : i < 4) :
    Foot.reg f (Reg.CTRL_STAGE_CMD i) :=
  reg_at hf 0x4006 .ctrl hb rfl (by simp only [Reg.CTRL_STAGE_CMD]; omega)

theorem reg_CTRL_STAGE_STATE {i : Nat} (hf : Foot.le G f) (hb : G.blocks.contains .ctrl = true) (hi : i < 4) :
    Foot.reg f (Reg.CTRL_STAGE_STATE i) :=
  reg_at hf 0x4006 .ctrl hb rfl (by simp only [Reg.CTRL_STAGE_STATE]; omega)

theorem reg_CTRL_STAGE_FLAGS {i : Nat} (hf : Foot.le G f) (hb : G.blocks.contains .ctrl = true) (hi : i < 4) :
    Foot.reg f (Reg.CTRL_STAGE_FLAGS i) :=
  reg_at hf 0x4006 .ctrl hb rfl (by simp only [Reg.CTRL_STAGE_FLAGS]; omega)

theorem reg_CTRL_HOVER_CFG {i : Nat} (hf : Foot.le G f) (hb : G.blocks.contains .ctrl = true) (hi : i < 4) :
    Foot.reg f (Reg.CTRL_HOVER_CFG i) :=
  reg_at hf 0x4006 .ctrl hb rfl (by simp only [Reg.CTRL_HOVER_CFG]; omega)

theorem reg_CTRL_REGION_AXES {i : Nat} (hf : Foot.le G f) (hb : G.blocks.contains .ctrl = true) (hi : i < 4) :
    Foot.reg f (Reg.CTRL_REGION_AXES i) :=
  reg_at hf 0x4006 .ctrl hb rfl (by simp only [Reg.CTRL_REGION_AXES]; omega)

theorem reg_CTRL_REGION_B01 {i j : Nat} (hf : Foot.le G f) (hb : G.blocks.contains .ctrl = true) (hi : i < 4) (hj : j < 2) :
    Foot.reg f (Reg.CTRL_REGION_B01 i j) :=
  reg_at hf 0x4006 .ctrl hb rfl (by simp only [Reg.CTRL_REGION_B01]; omega)

theorem reg_CTRL_REGION_B2H {i j : Nat} (hf : Foot.le G f) (hb : G.blocks.contains .ctrl = true) (hi : i < 4) (hj : j < 2) :
    Foot.reg f (Reg.CTRL_REGION_B2H i j) :=
  reg_at hf 0x4006 .ctrl hb rfl (by simp only [Reg.CTRL_REGION_B2H]; omega)

theorem reg_CTRL_LIMIT {i : Nat} (hf : Foot.le G f) (hb : G.blocks.contains .ctrl = true) (hi : i < 4) :
    Foot.reg f (Reg.CTRL_LIMIT i) :=
  reg_at hf 0x4006 .ctrl hb rfl (by simp only [Reg.CTRL_LIMIT]; omega)

theorem reg_CTRL_STAGE_PHASE {i : Nat} (hf : Foot.le G f) (hb : G.blocks.contains .ctrl = true) (hi : i < 4) :
    Foot.reg f (Reg.CTRL_STAGE_PHASE i) :=
  reg_at hf 0x4006 .ctrl hb rfl (by simp only [Reg.CTRL_STAGE_PHASE]; omega)

theorem reg_CTRL_PLAUS_STATE {i : Nat} (hf : Foot.le G f) (hb : G.blocks.contains .ctrl = true) (hi : i < 4) :
    Foot.reg f (Reg.CTRL_PLAUS_STATE i) :=
  reg_at hf 0x4006 .ctrl hb rfl (by simp only [Reg.CTRL_PLAUS_STATE]; omega)

theorem reg_CTRL_BAND_CFG {i : Nat} (hf : Foot.le G f) (hb : G.blocks.contains .ctrl = true) (hi : i < 4) :
    Foot.reg f (Reg.CTRL_BAND_CFG i) :=
  reg_at hf 0x4006 .ctrl hb rfl (by simp only [Reg.CTRL_BAND_CFG]; omega)

theorem reg_CTRL_BAND_LIM {i : Nat} (hf : Foot.le G f) (hb : G.blocks.contains .ctrl = true) (hi : i < 4) :
    Foot.reg f (Reg.CTRL_BAND_LIM i) :=
  reg_at hf 0x4006 .ctrl hb rfl (by simp only [Reg.CTRL_BAND_LIM]; omega)

theorem reg_CTRL_BAND_K {i : Nat} (hf : Foot.le G f) (hb : G.blocks.contains .ctrl = true) (hi : i < 4) :
    Foot.reg f (Reg.CTRL_BAND_K i) :=
  reg_at hf 0x4006 .ctrl hb rfl (by simp only [Reg.CTRL_BAND_K]; omega)

theorem reg_CTRL_NOTCH {i j : Nat} (hf : Foot.le G f) (hb : G.blocks.contains .ctrl = true) (hi : i < 4) (hj : j < 4) :
    Foot.reg f (Reg.CTRL_NOTCH i j) :=
  reg_at hf 0x4006 .ctrl hb rfl (by simp only [Reg.CTRL_NOTCH]; omega)

theorem reg_CTRL_PLAUS {i j : Nat} (hf : Foot.le G f) (hb : G.blocks.contains .ctrl = true) (hi : i < 5) (hj : j < 6) :
    Foot.reg f (Reg.CTRL_PLAUS i j) :=
  reg_at hf 0x4006 .ctrl hb rfl (by simp only [Reg.CTRL_PLAUS]; omega)

theorem reg_CTRL_INTEG {i j : Nat} (hf : Foot.le G f) (hb : G.blocks.contains .ctrl = true) (hi : i < 4) (hj : j < 4) :
    Foot.reg f (Reg.CTRL_INTEG i j) :=
  reg_at hf 0x4006 .ctrl hb rfl (by simp only [Reg.CTRL_INTEG]; omega)

theorem reg_CTRL_INTEG_hi {i j : Nat} (hf : Foot.le G f) (hb : G.blocks.contains .ctrl = true) (hi : i < 4) (hj : j < 4) :
    Foot.reg f (Reg.CTRL_INTEG i j + 4) :=
  reg_at hf 0x4006 .ctrl hb rfl (by simp only [Reg.CTRL_INTEG]; omega)

theorem reg_CTRL_COEF {i j k : Nat} (hf : Foot.le G f) (hb : G.blocks.contains .ctrl = true) (hi : i < 4) (hj : j < 16) (hk : k < 32) :
    Foot.reg f (Reg.CTRL_COEF i j k) :=
  reg_at hf 0x4006 .ctrl hb rfl (by simp only [Reg.CTRL_COEF]; omega)

theorem reg_CTRL_PROF_CFG {i : Nat} (hf : Foot.le G f) (hb : G.blocks.contains .ctrl = true) (hi : i < 16) :
    Foot.reg f (Reg.CTRL_PROF_CFG i) :=
  reg_at hf 0x4006 .ctrl hb rfl (by simp only [Reg.CTRL_PROF_CFG]; omega)

theorem reg_CTRL_PROF_VMAX {i : Nat} (hf : Foot.le G f) (hb : G.blocks.contains .ctrl = true) (hi : i < 16) :
    Foot.reg f (Reg.CTRL_PROF_VMAX i) :=
  reg_at hf 0x4006 .ctrl hb rfl (by simp only [Reg.CTRL_PROF_VMAX]; omega)

theorem reg_CTRL_PROF_AMAX {i : Nat} (hf : Foot.le G f) (hb : G.blocks.contains .ctrl = true) (hi : i < 16) :
    Foot.reg f (Reg.CTRL_PROF_AMAX i) :=
  reg_at hf 0x4006 .ctrl hb rfl (by simp only [Reg.CTRL_PROF_AMAX]; omega)

theorem reg_CTRL_PROF_JMAX {i : Nat} (hf : Foot.le G f) (hb : G.blocks.contains .ctrl = true) (hi : i < 16) :
    Foot.reg f (Reg.CTRL_PROF_JMAX i) :=
  reg_at hf 0x4006 .ctrl hb rfl (by simp only [Reg.CTRL_PROF_JMAX]; omega)

theorem reg_CTRL_PROF_OUT {i : Nat} (hf : Foot.le G f) (hb : G.blocks.contains .ctrl = true) (hi : i < 16) :
    Foot.reg f (Reg.CTRL_PROF_OUT i) :=
  reg_at hf 0x4006 .ctrl hb rfl (by simp only [Reg.CTRL_PROF_OUT]; omega)

theorem reg_GFM_CFG {i : Nat} (hf : Foot.le G f) (hb : G.blocks.contains .gfm = true) (hi : i < 4) :
    Foot.reg f (Reg.GFM_CFG i) :=
  reg_at hf 0x4007 .gfm hb rfl (by simp only [Reg.GFM_CFG]; omega)

theorem reg_GFM_RATING {i : Nat} (hf : Foot.le G f) (hb : G.blocks.contains .gfm = true) (hi : i < 4) :
    Foot.reg f (Reg.GFM_RATING i) :=
  reg_at hf 0x4007 .gfm hb rfl (by simp only [Reg.GFM_RATING]; omega)

theorem reg_GFM_SCALE {i : Nat} (hf : Foot.le G f) (hb : G.blocks.contains .gfm = true) (hi : i < 4) :
    Foot.reg f (Reg.GFM_SCALE i) :=
  reg_at hf 0x4007 .gfm hb rfl (by simp only [Reg.GFM_SCALE]; omega)

theorem reg_GFM_DROOP {i : Nat} (hf : Foot.le G f) (hb : G.blocks.contains .gfm = true) (hi : i < 4) :
    Foot.reg f (Reg.GFM_DROOP i) :=
  reg_at hf 0x4007 .gfm hb rfl (by simp only [Reg.GFM_DROOP]; omega)

theorem reg_GFM_SET {i : Nat} (hf : Foot.le G f) (hb : G.blocks.contains .gfm = true) (hi : i < 4) :
    Foot.reg f (Reg.GFM_SET i) :=
  reg_at hf 0x4007 .gfm hb rfl (by simp only [Reg.GFM_SET]; omega)

theorem reg_GFM_VSET {i : Nat} (hf : Foot.le G f) (hb : G.blocks.contains .gfm = true) (hi : i < 4) :
    Foot.reg f (Reg.GFM_VSET i) :=
  reg_at hf 0x4007 .gfm hb rfl (by simp only [Reg.GFM_VSET]; omega)

theorem reg_GFM_VIRT {i j : Nat} (hf : Foot.le G f) (hb : G.blocks.contains .gfm = true) (hi : i < 4) (hj : j < 3) :
    Foot.reg f (Reg.GFM_VIRT i j) :=
  reg_at hf 0x4007 .gfm hb rfl (by simp only [Reg.GFM_VIRT]; omega)

theorem reg_GFM_LIMIT {i : Nat} (hf : Foot.le G f) (hb : G.blocks.contains .gfm = true) (hi : i < 4) :
    Foot.reg f (Reg.GFM_LIMIT i) :=
  reg_at hf 0x4007 .gfm hb rfl (by simp only [Reg.GFM_LIMIT]; omega)

theorem reg_GFM_LIMIT_T {i : Nat} (hf : Foot.le G f) (hb : G.blocks.contains .gfm = true) (hi : i < 4) :
    Foot.reg f (Reg.GFM_LIMIT_T i) :=
  reg_at hf 0x4007 .gfm hb rfl (by simp only [Reg.GFM_LIMIT_T]; omega)

theorem reg_GFM_RECOV {i : Nat} (hf : Foot.le G f) (hb : G.blocks.contains .gfm = true) (hi : i < 4) :
    Foot.reg f (Reg.GFM_RECOV i) :=
  reg_at hf 0x4007 .gfm hb rfl (by simp only [Reg.GFM_RECOV]; omega)

theorem reg_GFM_BS {i : Nat} (hf : Foot.le G f) (hb : G.blocks.contains .gfm = true) (hi : i < 4) :
    Foot.reg f (Reg.GFM_BS i) :=
  reg_at hf 0x4007 .gfm hb rfl (by simp only [Reg.GFM_BS]; omega)

theorem reg_GFM_LIVE {i : Nat} (hf : Foot.le G f) (hb : G.blocks.contains .gfm = true) (hi : i < 4) :
    Foot.reg f (Reg.GFM_LIVE i) :=
  reg_at hf 0x4007 .gfm hb rfl (by simp only [Reg.GFM_LIVE]; omega)

theorem reg_GFM_SYNC {i : Nat} (hf : Foot.le G f) (hb : G.blocks.contains .gfm = true) (hi : i < 4) :
    Foot.reg f (Reg.GFM_SYNC i) :=
  reg_at hf 0x4007 .gfm hb rfl (by simp only [Reg.GFM_SYNC]; omega)

theorem reg_GFM_SYNC_T {i : Nat} (hf : Foot.le G f) (hb : G.blocks.contains .gfm = true) (hi : i < 4) :
    Foot.reg f (Reg.GFM_SYNC_T i) :=
  reg_at hf 0x4007 .gfm hb rfl (by simp only [Reg.GFM_SYNC_T]; omega)

theorem reg_GFM_CONT {i : Nat} (hf : Foot.le G f) (hb : G.blocks.contains .gfm = true) (hi : i < 4) :
    Foot.reg f (Reg.GFM_CONT i) :=
  reg_at hf 0x4007 .gfm hb rfl (by simp only [Reg.GFM_CONT]; omega)

theorem reg_GFM_RT {i : Nat} (hf : Foot.le G f) (hb : G.blocks.contains .gfm = true) (hi : i < 4) :
    Foot.reg f (Reg.GFM_RT i) :=
  reg_at hf 0x4007 .gfm hb rfl (by simp only [Reg.GFM_RT]; omega)

theorem reg_GFM_REST {i : Nat} (hf : Foot.le G f) (hb : G.blocks.contains .gfm = true) (hi : i < 4) :
    Foot.reg f (Reg.GFM_REST i) :=
  reg_at hf 0x4007 .gfm hb rfl (by simp only [Reg.GFM_REST]; omega)

theorem reg_GFM_CMD {i : Nat} (hf : Foot.le G f) (hb : G.blocks.contains .gfm = true) (hi : i < 4) :
    Foot.reg f (Reg.GFM_CMD i) :=
  reg_at hf 0x4007 .gfm hb rfl (by simp only [Reg.GFM_CMD]; omega)

theorem reg_GFM_STATE {i : Nat} (hf : Foot.le G f) (hb : G.blocks.contains .gfm = true) (hi : i < 4) :
    Foot.reg f (Reg.GFM_STATE i) :=
  reg_at hf 0x4007 .gfm hb rfl (by simp only [Reg.GFM_STATE]; omega)

theorem reg_GFM_MEAS {i : Nat} (hf : Foot.le G f) (hb : G.blocks.contains .gfm = true) (hi : i < 4) :
    Foot.reg f (Reg.GFM_MEAS i) :=
  reg_at hf 0x4007 .gfm hb rfl (by simp only [Reg.GFM_MEAS]; omega)

theorem reg_GFM_FREQ {i : Nat} (hf : Foot.le G f) (hb : G.blocks.contains .gfm = true) (hi : i < 4) :
    Foot.reg f (Reg.GFM_FREQ i) :=
  reg_at hf 0x4007 .gfm hb rfl (by simp only [Reg.GFM_FREQ]; omega)

theorem reg_GFM_ONSET {i : Nat} (hf : Foot.le G f) (hb : G.blocks.contains .gfm = true) (hi : i < 4) :
    Foot.reg f (Reg.GFM_ONSET i) :=
  reg_at hf 0x4007 .gfm hb rfl (by simp only [Reg.GFM_ONSET]; omega)

theorem reg_GFM_ONSET_hi {i : Nat} (hf : Foot.le G f) (hb : G.blocks.contains .gfm = true) (hi : i < 4) :
    Foot.reg f (Reg.GFM_ONSET i + 4) :=
  reg_at hf 0x4007 .gfm hb rfl (by simp only [Reg.GFM_ONSET]; omega)

theorem reg_GFM_SLOT {i : Nat} (hf : Foot.le G f) (hb : G.blocks.contains .gfm = true) (hi : i < 4) :
    Foot.reg f (Reg.GFM_SLOT i) :=
  reg_at hf 0x4007 .gfm hb rfl (by simp only [Reg.GFM_SLOT]; omega)

theorem reg_GFM_SLOT_hi {i : Nat} (hf : Foot.le G f) (hb : G.blocks.contains .gfm = true) (hi : i < 4) :
    Foot.reg f (Reg.GFM_SLOT i + 4) :=
  reg_at hf 0x4007 .gfm hb rfl (by simp only [Reg.GFM_SLOT]; omega)

theorem reg_GFM_TMODE {i : Nat} (hf : Foot.le G f) (hb : G.blocks.contains .gfm = true) (hi : i < 4) :
    Foot.reg f (Reg.GFM_TMODE i) :=
  reg_at hf 0x4007 .gfm hb rfl (by simp only [Reg.GFM_TMODE]; omega)

theorem reg_PROT_32 {i : Nat} (hf : Foot.le G f) (hb : G.blocks.contains .prot = true) (hi : i < 2) :
    Foot.reg f (Reg.PROT_32 i) :=
  reg_at hf 0x4008 .prot hb rfl (by simp only [Reg.PROT_32]; omega)

theorem reg_PROT_32_MAP {i : Nat} (hf : Foot.le G f) (hb : G.blocks.contains .prot = true) (hi : i < 2) :
    Foot.reg f (Reg.PROT_32_MAP i) :=
  reg_at hf 0x4008 .prot hb rfl (by simp only [Reg.PROT_32_MAP]; omega)

theorem reg_PROT_UCURVE {i j : Nat} (hf : Foot.le G f) (hb : G.blocks.contains .prot = true) (hi : i < 4) (hj : j < 16) :
    Foot.reg f (Reg.PROT_UCURVE i j) :=
  reg_at hf 0x4008 .prot hb rfl (by simp only [Reg.PROT_UCURVE]; omega)

theorem reg_PROT_FDR_CFG {i : Nat} (hf : Foot.le G f) (hb : G.blocks.contains .prot = true) (hi : i < 8) :
    Foot.reg f (Reg.PROT_FDR_CFG i) :=
  reg_at hf 0x4008 .prot hb rfl (by simp only [Reg.PROT_FDR_CFG]; omega)

theorem reg_PROT_FDR_SCALE {i : Nat} (hf : Foot.le G f) (hb : G.blocks.contains .prot = true) (hi : i < 8) :
    Foot.reg f (Reg.PROT_FDR_SCALE i) :=
  reg_at hf 0x4008 .prot hb rfl (by simp only [Reg.PROT_FDR_SCALE]; omega)

theorem reg_PROT_FDR_STATE {i : Nat} (hf : Foot.le G f) (hb : G.blocks.contains .prot = true) (hi : i < 8) :
    Foot.reg f (Reg.PROT_FDR_STATE i) :=
  reg_at hf 0x4008 .prot hb rfl (by simp only [Reg.PROT_FDR_STATE]; omega)

theorem reg_PROT_FDR_FLAGS {i : Nat} (hf : Foot.le G f) (hb : G.blocks.contains .prot = true) (hi : i < 8) :
    Foot.reg f (Reg.PROT_FDR_FLAGS i) :=
  reg_at hf 0x4008 .prot hb rfl (by simp only [Reg.PROT_FDR_FLAGS]; omega)

theorem reg_PROT_BKR_CFG {i : Nat} (hf : Foot.le G f) (hb : G.blocks.contains .prot = true) (hi : i < 8) :
    Foot.reg f (Reg.PROT_BKR_CFG i) :=
  reg_at hf 0x4008 .prot hb rfl (by simp only [Reg.PROT_BKR_CFG]; omega)

theorem reg_PROT_TRIP_MAP {i : Nat} (hf : Foot.le G f) (hb : G.blocks.contains .prot = true) (hi : i < 8) :
    Foot.reg f (Reg.PROT_TRIP_MAP i) :=
  reg_at hf 0x4008 .prot hb rfl (by simp only [Reg.PROT_TRIP_MAP]; omega)

theorem reg_PROT_BF_CFG {i : Nat} (hf : Foot.le G f) (hb : G.blocks.contains .prot = true) (hi : i < 8) :
    Foot.reg f (Reg.PROT_BF_CFG i) :=
  reg_at hf 0x4008 .prot hb rfl (by simp only [Reg.PROT_BF_CFG]; omega)

theorem reg_PROT_BF_MAP {i : Nat} (hf : Foot.le G f) (hb : G.blocks.contains .prot = true) (hi : i < 8) :
    Foot.reg f (Reg.PROT_BF_MAP i) :=
  reg_at hf 0x4008 .prot hb rfl (by simp only [Reg.PROT_BF_MAP]; omega)

theorem reg_PROT_TC_CFG {i : Nat} (hf : Foot.le G f) (hb : G.blocks.contains .prot = true) (hi : i < 8) :
    Foot.reg f (Reg.PROT_TC_CFG i) :=
  reg_at hf 0x4008 .prot hb rfl (by simp only [Reg.PROT_TC_CFG]; omega)

theorem reg_PROT_DIR {i : Nat} (hf : Foot.le G f) (hb : G.blocks.contains .prot = true) (hi : i < 8) :
    Foot.reg f (Reg.PROT_DIR i) :=
  reg_at hf 0x4008 .prot hb rfl (by simp only [Reg.PROT_DIR]; omega)

theorem reg_PROT_LMD {i : Nat} (hf : Foot.le G f) (hb : G.blocks.contains .prot = true) (hi : i < 8) :
    Foot.reg f (Reg.PROT_LMD i) :=
  reg_at hf 0x4008 .prot hb rfl (by simp only [Reg.PROT_LMD]; omega)

theorem reg_PROT_LMD_REACH {i : Nat} (hf : Foot.le G f) (hb : G.blocks.contains .prot = true) (hi : i < 8) :
    Foot.reg f (Reg.PROT_LMD_REACH i) :=
  reg_at hf 0x4008 .prot hb rfl (by simp only [Reg.PROT_LMD_REACH]; omega)

theorem reg_PROT_THERM {i : Nat} (hf : Foot.le G f) (hb : G.blocks.contains .prot = true) (hi : i < 8) :
    Foot.reg f (Reg.PROT_THERM i) :=
  reg_at hf 0x4008 .prot hb rfl (by simp only [Reg.PROT_THERM]; omega)

theorem reg_PROT_THERM_STATE {i : Nat} (hf : Foot.le G f) (hb : G.blocks.contains .prot = true) (hi : i < 8) :
    Foot.reg f (Reg.PROT_THERM_STATE i) :=
  reg_at hf 0x4008 .prot hb rfl (by simp only [Reg.PROT_THERM_STATE]; omega)

theorem reg_PROT_OC {i j : Nat} (hf : Foot.le G f) (hb : G.blocks.contains .prot = true) (hi : i < 8) (hj : j < 7) :
    Foot.reg f (Reg.PROT_OC i j) :=
  reg_at hf 0x4008 .prot hb rfl (by simp only [Reg.PROT_OC]; omega)

theorem reg_PROT_OC_T {i j : Nat} (hf : Foot.le G f) (hb : G.blocks.contains .prot = true) (hi : i < 8) (hj : j < 7) :
    Foot.reg f (Reg.PROT_OC_T i j) :=
  reg_at hf 0x4008 .prot hb rfl (by simp only [Reg.PROT_OC_T]; omega)

theorem reg_PROT_VF {i j : Nat} (hf : Foot.le G f) (hb : G.blocks.contains .prot = true) (hi : i < 8) (hj : j < 4) :
    Foot.reg f (Reg.PROT_VF i j) :=
  reg_at hf 0x4008 .prot hb rfl (by simp only [Reg.PROT_VF]; omega)

theorem reg_PROT_MEAS {i j : Nat} (hf : Foot.le G f) (hb : G.blocks.contains .prot = true) (hi : i < 8) (hj : j < 4) :
    Foot.reg f (Reg.PROT_MEAS i j) :=
  reg_at hf 0x4008 .prot hb rfl (by simp only [Reg.PROT_MEAS]; omega)

theorem reg_PROT_TRIP_TIME {i : Nat} (hf : Foot.le G f) (hb : G.blocks.contains .prot = true) (hi : i < 8) :
    Foot.reg f (Reg.PROT_TRIP_TIME i) :=
  reg_at hf 0x4008 .prot hb rfl (by simp only [Reg.PROT_TRIP_TIME]; omega)

theorem reg_PROT_TRIP_TIME_hi {i : Nat} (hf : Foot.le G f) (hb : G.blocks.contains .prot = true) (hi : i < 8) :
    Foot.reg f (Reg.PROT_TRIP_TIME i + 4) :=
  reg_at hf 0x4008 .prot hb rfl (by simp only [Reg.PROT_TRIP_TIME]; omega)

theorem reg_PROT_FDR_COUNT {i : Nat} (hf : Foot.le G f) (hb : G.blocks.contains .prot = true) (hi : i < 8) :
    Foot.reg f (Reg.PROT_FDR_COUNT i) :=
  reg_at hf 0x4008 .prot hb rfl (by simp only [Reg.PROT_FDR_COUNT]; omega)

theorem reg_REC_ACH {i : Nat} (hf : Foot.le G f) (hb : G.blocks.contains .recd = true) (hi : i < 64) :
    Foot.reg f (Reg.REC_ACH i) :=
  reg_at hf 0x4009 .recd hb rfl (by simp only [Reg.REC_ACH]; omega)

theorem reg_REC_BCH {i : Nat} (hf : Foot.le G f) (hb : G.blocks.contains .recd = true) (hi : i < 256) :
    Foot.reg f (Reg.REC_BCH i) :=
  reg_at hf 0x4009 .recd hb rfl (by simp only [Reg.REC_BCH]; omega)

theorem reg_REC_LEVEL {i : Nat} (hf : Foot.le G f) (hb : G.blocks.contains .recd = true) (hi : i < 8) :
    Foot.reg f (Reg.REC_LEVEL i) :=
  reg_at hf 0x4009 .recd hb rfl (by simp only [Reg.REC_LEVEL]; omega)

theorem reg_REC_LEVEL_THR {i : Nat} (hf : Foot.le G f) (hb : G.blocks.contains .recd = true) (hi : i < 8) :
    Foot.reg f (Reg.REC_LEVEL_THR i) :=
  reg_at hf 0x4009 .recd hb rfl (by simp only [Reg.REC_LEVEL_THR]; omega)

theorem reg_REC_MASK_CFG {i : Nat} (hf : Foot.le G f) (hb : G.blocks.contains .recd = true) (hi : i < 4) :
    Foot.reg f (Reg.REC_MASK_CFG i) :=
  reg_at hf 0x4009 .recd hb rfl (by simp only [Reg.REC_MASK_CFG]; omega)

theorem reg_REC_MASK_POST {i : Nat} (hf : Foot.le G f) (hb : G.blocks.contains .recd = true) (hi : i < 4) :
    Foot.reg f (Reg.REC_MASK_POST i) :=
  reg_at hf 0x4009 .recd hb rfl (by simp only [Reg.REC_MASK_POST]; omega)

theorem reg_REC_MASK_LIM {i j : Nat} (hf : Foot.le G f) (hb : G.blocks.contains .recd = true) (hi : i < 4) (hj : j < 16) :
    Foot.reg f (Reg.REC_MASK_LIM i j) :=
  reg_at hf 0x4009 .recd hb rfl (by simp only [Reg.REC_MASK_LIM]; omega)

theorem reg_REC_MASK_T {i j : Nat} (hf : Foot.le G f) (hb : G.blocks.contains .recd = true) (hi : i < 4) (hj : j < 16) :
    Foot.reg f (Reg.REC_MASK_T i j) :=
  reg_at hf 0x4009 .recd hb rfl (by simp only [Reg.REC_MASK_T]; omega)

theorem reg_SCAN_CTRL {i : Nat} (hf : Foot.le G f) (hb : G.blocks.contains .scan = true) (hi : i < 2) :
    Foot.reg f (Reg.SCAN_CTRL i) :=
  reg_at hf 0x400A .scan hb rfl (by simp only [Reg.SCAN_CTRL]; omega)

theorem reg_SCAN_STATE {i : Nat} (hf : Foot.le G f) (hb : G.blocks.contains .scan = true) (hi : i < 2) :
    Foot.reg f (Reg.SCAN_STATE i) :=
  reg_at hf 0x400A .scan hb rfl (by simp only [Reg.SCAN_STATE]; omega)

theorem reg_SCAN_CFG {i : Nat} (hf : Foot.le G f) (hb : G.blocks.contains .scan = true) (hi : i < 2) :
    Foot.reg f (Reg.SCAN_CFG i) :=
  reg_at hf 0x400A .scan hb rfl (by simp only [Reg.SCAN_CFG]; omega)

theorem reg_SCAN_PROG_ID {i : Nat} (hf : Foot.le G f) (hb : G.blocks.contains .scan = true) (hi : i < 2) :
    Foot.reg f (Reg.SCAN_PROG_ID i) :=
  reg_at hf 0x400A .scan hb rfl (by simp only [Reg.SCAN_PROG_ID]; omega)

theorem reg_SCAN_PROG_INFO {i : Nat} (hf : Foot.le G f) (hb : G.blocks.contains .scan = true) (hi : i < 2) :
    Foot.reg f (Reg.SCAN_PROG_INFO i) :=
  reg_at hf 0x400A .scan hb rfl (by simp only [Reg.SCAN_PROG_INFO]; omega)

theorem reg_SCAN_XCHG {i : Nat} (hf : Foot.le G f) (hb : G.blocks.contains .scan = true) (hi : i < 2) :
    Foot.reg f (Reg.SCAN_XCHG i) :=
  reg_at hf 0x400A .scan hb rfl (by simp only [Reg.SCAN_XCHG]; omega)

theorem reg_SCAN_SWAP_TIME {i : Nat} (hf : Foot.le G f) (hb : G.blocks.contains .scan = true) (hi : i < 2) :
    Foot.reg f (Reg.SCAN_SWAP_TIME i) :=
  reg_at hf 0x400A .scan hb rfl (by simp only [Reg.SCAN_SWAP_TIME]; omega)

theorem reg_SCAN_SWAP_TIME_hi {i : Nat} (hf : Foot.le G f) (hb : G.blocks.contains .scan = true) (hi : i < 2) :
    Foot.reg f (Reg.SCAN_SWAP_TIME i + 4) :=
  reg_at hf 0x400A .scan hb rfl (by simp only [Reg.SCAN_SWAP_TIME]; omega)

theorem reg_SCAN_REMOTE_STALE {i : Nat} (hf : Foot.le G f) (hb : G.blocks.contains .scan = true) (hi : i < 2) :
    Foot.reg f (Reg.SCAN_REMOTE_STALE i) :=
  reg_at hf 0x400A .scan hb rfl (by simp only [Reg.SCAN_REMOTE_STALE]; omega)

theorem reg_SCAN_TASK_CFG {i j : Nat} (hf : Foot.le G f) (hb : G.blocks.contains .scan = true) (hi : i < 2) (hj : j < 8) :
    Foot.reg f (Reg.SCAN_TASK_CFG i j) :=
  reg_at hf 0x400A .scan hb rfl (by simp only [Reg.SCAN_TASK_CFG]; omega)

theorem reg_SCAN_TASK_STAT {i j : Nat} (hf : Foot.le G f) (hb : G.blocks.contains .scan = true) (hi : i < 2) (hj : j < 8) :
    Foot.reg f (Reg.SCAN_TASK_STAT i j) :=
  reg_at hf 0x400A .scan hb rfl (by simp only [Reg.SCAN_TASK_STAT]; omega)

theorem reg_SCAN_TASK_TIME {i j : Nat} (hf : Foot.le G f) (hb : G.blocks.contains .scan = true) (hi : i < 2) (hj : j < 8) :
    Foot.reg f (Reg.SCAN_TASK_TIME i j) :=
  reg_at hf 0x400A .scan hb rfl (by simp only [Reg.SCAN_TASK_TIME]; omega)

theorem reg_FIO_DI_CFG {i : Nat} (hf : Foot.le G f) (hb : G.blocks.contains .fio = true) (hi : i < 16) :
    Foot.reg f (Reg.FIO_DI_CFG i) :=
  reg_at hf 0x400B .fio hb rfl (by simp only [Reg.FIO_DI_CFG]; omega)

theorem reg_FIO_DO_CFG {i : Nat} (hf : Foot.le G f) (hb : G.blocks.contains .fio = true) (hi : i < 16) :
    Foot.reg f (Reg.FIO_DO_CFG i) :=
  reg_at hf 0x400B .fio hb rfl (by simp only [Reg.FIO_DO_CFG]; omega)

theorem reg_FIO_DEMAG {i : Nat} (hf : Foot.le G f) (hb : G.blocks.contains .fio = true) (hi : i < 2) :
    Foot.reg f (Reg.FIO_DEMAG i) :=
  reg_at hf 0x400B .fio hb rfl (by simp only [Reg.FIO_DEMAG]; omega)

theorem reg_FIO_TRIP_CFG {i : Nat} (hf : Foot.le G f) (hb : G.blocks.contains .fio = true) (hi : i < 4) :
    Foot.reg f (Reg.FIO_TRIP_CFG i) :=
  reg_at hf 0x400B .fio hb rfl (by simp only [Reg.FIO_TRIP_CFG]; omega)

theorem reg_DPX_PATH_STAT {i : Nat} (hf : Foot.le G f) (hb : G.blocks.contains .dpx = true) (hi : i < 2) :
    Foot.reg f (Reg.DPX_PATH_STAT i) :=
  reg_at hf 0x400C .dpx hb rfl (by simp only [Reg.DPX_PATH_STAT]; omega)

theorem reg_NET_FI_CFG {i : Nat} (hf : Foot.le G f) (hb : G.blocks.contains .net = true) (hi : i < 10) :
    Foot.reg f (Reg.NET_FI_CFG i) :=
  reg_at hf 0x400D .net hb rfl (by simp only [Reg.NET_FI_CFG]; omega)

theorem reg_NET_FI_PARAM {i : Nat} (hf : Foot.le G f) (hb : G.blocks.contains .net = true) (hi : i < 10) :
    Foot.reg f (Reg.NET_FI_PARAM i) :=
  reg_at hf 0x400D .net hb rfl (by simp only [Reg.NET_FI_PARAM]; omega)

theorem reg_NET_FI_MATCH {i : Nat} (hf : Foot.le G f) (hb : G.blocks.contains .net = true) (hi : i < 10) :
    Foot.reg f (Reg.NET_FI_MATCH i) :=
  reg_at hf 0x400D .net hb rfl (by simp only [Reg.NET_FI_MATCH]; omega)

theorem reg_NET_FI_DONE {i : Nat} (hf : Foot.le G f) (hb : G.blocks.contains .net = true) (hi : i < 10) :
    Foot.reg f (Reg.NET_FI_DONE i) :=
  reg_at hf 0x400D .net hb rfl (by simp only [Reg.NET_FI_DONE]; omega)

theorem reg_NET_FI_START {i : Nat} (hf : Foot.le G f) (hb : G.blocks.contains .net = true) (hi : i < 10) :
    Foot.reg f (Reg.NET_FI_START i) :=
  reg_at hf 0x400D .net hb rfl (by simp only [Reg.NET_FI_START]; omega)

theorem reg_NET_FI_START_hi {i : Nat} (hf : Foot.le G f) (hb : G.blocks.contains .net = true) (hi : i < 10) :
    Foot.reg f (Reg.NET_FI_START i + 4) :=
  reg_at hf 0x400D .net hb rfl (by simp only [Reg.NET_FI_START]; omega)

theorem reg_CMD_EVT_ENTRY {i : Nat} (hf : Foot.le G f) (hb : G.blocks.contains .cmd = true) (hi : i < 4) :
    Foot.reg f (Reg.CMD_EVT_ENTRY i) :=
  reg_at hf 0x400E .cmd hb rfl (by simp only [Reg.CMD_EVT_ENTRY]; omega)

theorem reg_CMD_OP_HANDLE {i : Nat} (hf : Foot.le G f) (hb : G.blocks.contains .cmd = true) (hi : i < 16) :
    Foot.reg f (Reg.CMD_OP_HANDLE i) :=
  reg_at hf 0x400E .cmd hb rfl (by simp only [Reg.CMD_OP_HANDLE]; omega)

theorem reg_CMD_OP_STATE {i : Nat} (hf : Foot.le G f) (hb : G.blocks.contains .cmd = true) (hi : i < 16) :
    Foot.reg f (Reg.CMD_OP_STATE i) :=
  reg_at hf 0x400E .cmd hb rfl (by simp only [Reg.CMD_OP_STATE]; omega)

theorem reg_UPD_KIND_STATE {i : Nat} (hf : Foot.le G f) (hb : G.blocks.contains .upd = true) (hi : i < 5) :
    Foot.reg f (Reg.UPD_KIND_STATE i) :=
  reg_at hf 0x400F .upd hb rfl (by simp only [Reg.UPD_KIND_STATE]; omega)

theorem reg_UPD_KIND_STAGED {i : Nat} (hf : Foot.le G f) (hb : G.blocks.contains .upd = true) (hi : i < 5) :
    Foot.reg f (Reg.UPD_KIND_STAGED i) :=
  reg_at hf 0x400F .upd hb rfl (by simp only [Reg.UPD_KIND_STAGED]; omega)

theorem reg_FAB_STATUS {i : Nat} (hf : Foot.le G f) (hb : G.blocks.contains .fab = true) (hi : i < 4) :
    Foot.reg f (Reg.FAB_STATUS i) :=
  reg_fab hf hb (by simp only [Reg.FAB_STATUS]; omega)

theorem reg_FAB_TILE {i j : Nat} (hf : Foot.le G f) (hb : G.blocks.contains .fab = true) (hi : i < 4) (hj : j < 17) :
    Foot.reg f (Reg.FAB_TILE i j) :=
  reg_fab hf hb (by simp only [Reg.FAB_TILE]; omega)

theorem reg_FAB_SHADOW_CTRL {i : Nat} (hf : Foot.le G f) (hb : G.blocks.contains .fab = true) (hi : i < 4) :
    Foot.reg f (Reg.FAB_SHADOW_CTRL i) :=
  reg_fab hf hb (by simp only [Reg.FAB_SHADOW_CTRL]; omega)

theorem reg_FAB_SHADOW_STATUS {i : Nat} (hf : Foot.le G f) (hb : G.blocks.contains .fab = true) (hi : i < 4) :
    Foot.reg f (Reg.FAB_SHADOW_STATUS i) :=
  reg_fab hf hb (by simp only [Reg.FAB_SHADOW_STATUS]; omega)

theorem reg_FAB_IND_ADDR {i : Nat} (hf : Foot.le G f) (hb : G.blocks.contains .fab = true) (hi : i < 4) :
    Foot.reg f (Reg.FAB_IND_ADDR i) :=
  reg_fab hf hb (by simp only [Reg.FAB_IND_ADDR]; omega)

theorem reg_FAB_IND_DATA {i : Nat} (hf : Foot.le G f) (hb : G.blocks.contains .fab = true) (hi : i < 4) :
    Foot.reg f (Reg.FAB_IND_DATA i) :=
  reg_fab hf hb (by simp only [Reg.FAB_IND_DATA]; omega)

theorem reg_FAB_IND_CTRL {i : Nat} (hf : Foot.le G f) (hb : G.blocks.contains .fab = true) (hi : i < 4) :
    Foot.reg f (Reg.FAB_IND_CTRL i) :=
  reg_fab hf hb (by simp only [Reg.FAB_IND_CTRL]; omega)

theorem reg_PWM_GDF_MAP {i : Nat} (hf : Foot.le G f) (hb : G.blocks.contains .pwm = true) (hi : i < 6) :
    Foot.reg f (Reg.PWM_GDF_MAP i) :=
  reg_at hf 0x4014 .pwm hb rfl (by simp only [Reg.PWM_GDF_MAP]; omega)

theorem reg_PWM_PAIR_CFG {i : Nat} (hf : Foot.le G f) (hb : G.blocks.contains .pwm = true) (hi : i < 12) :
    Foot.reg f (Reg.PWM_PAIR_CFG i) :=
  reg_at hf 0x4014 .pwm hb rfl (by simp only [Reg.PWM_PAIR_CFG]; omega)

theorem reg_PWM_PAIR_PERIOD {i : Nat} (hf : Foot.le G f) (hb : G.blocks.contains .pwm = true) (hi : i < 12) :
    Foot.reg f (Reg.PWM_PAIR_PERIOD i) :=
  reg_at hf 0x4014 .pwm hb rfl (by simp only [Reg.PWM_PAIR_PERIOD]; omega)

theorem reg_PWM_PAIR_PHASE {i : Nat} (hf : Foot.le G f) (hb : G.blocks.contains .pwm = true) (hi : i < 12) :
    Foot.reg f (Reg.PWM_PAIR_PHASE i) :=
  reg_at hf 0x4014 .pwm hb rfl (by simp only [Reg.PWM_PAIR_PHASE]; omega)

theorem reg_PWM_PAIR_DEAD {i : Nat} (hf : Foot.le G f) (hb : G.blocks.contains .pwm = true) (hi : i < 12) :
    Foot.reg f (Reg.PWM_PAIR_DEAD i) :=
  reg_at hf 0x4014 .pwm hb rfl (by simp only [Reg.PWM_PAIR_DEAD]; omega)

theorem reg_PWM_PAIR_CMP {i : Nat} (hf : Foot.le G f) (hb : G.blocks.contains .pwm = true) (hi : i < 12) :
    Foot.reg f (Reg.PWM_PAIR_CMP i) :=
  reg_at hf 0x4014 .pwm hb rfl (by simp only [Reg.PWM_PAIR_CMP]; omega)

theorem reg_PWM_PAIR_STAT {i : Nat} (hf : Foot.le G f) (hb : G.blocks.contains .pwm = true) (hi : i < 12) :
    Foot.reg f (Reg.PWM_PAIR_STAT i) :=
  reg_at hf 0x4014 .pwm hb rfl (by simp only [Reg.PWM_PAIR_STAT]; omega)

end Sys2Proof.Laws
end

