-- ==== Sys2Proof/Laws/EvAdc.lean ====
section
/-! SUPPORT. What each change of Machine/Adc.lean can touch, and that it keeps the state sound: one lemma a function. -/

namespace Sys2Proof.Laws

open Sys2Proof Sys2Proof.Machine Sys2Proof.Safety

variable {f : Foot} {s x : State}

theorem setAdcState_ev {c : Nat} {v : Nat} (hf : Foot.le ⟨[], [.adc], false⟩ f) (h : Ev f s x) :
    Ev f s (setAdcState c v x) := by
  unfold setAdcState
  repeat' first
    | with_reducible exact h
    | with_reducible assumption
    | with_reducible refine ev_wr ?_ ?_
    | with_reducible refine ev_ite (fun _ => ?_) (fun _ => ?_)
    | exact reg_block hf .adc rfl rfl

theorem adcErr_ev (hf : Foot.le ⟨[], [.adc], false⟩ f) (h : Ev f s x) :
    Ev f s (adcErr x) := by
  unfold adcErr
  repeat' first
    | with_reducible exact h
    | with_reducible assumption
    | with_reducible refine ev_setF ?_ ?_
    | with_reducible refine ev_ite (fun _ => ?_) (fun _ => ?_)
    | exact reg_block hf .adc rfl rfl

theorem setCore_ev {c : Fin 4} {x0 : AdcCore} (hf : Foot.le ⟨[.adc], [], false⟩ f) (h : Ev f s x) :
    Ev f s (setCore c x0 x) := by
  unfold setCore
  repeat' first
    | with_reducible exact h
    | with_reducible assumption
    | with_reducible refine ev_ite (fun _ => ?_) (fun _ => ?_)
    | exact Fin.isLt _
    | omega
    | split
    | dsimp only
    | with_reducible refine ev_adc (part_mem hf rfl) ?_

theorem takeCommit_ev {c : Fin 4} (hf : Foot.le ⟨[.adc], [.adc], false⟩ f) (h : Ev f s x) :
    Ev f s (takeCommit c x) := by
  unfold takeCommit
  repeat' first
    | with_reducible exact h
    | with_reducible assumption
    | with_reducible refine setCore_ev (le_trans' hf rfl) ?_
    | with_reducible refine ev_setF ?_ ?_
    | with_reducible refine ev_ite (fun _ => ?_) (fun _ => ?_)
    | with_reducible refine reg_ADC_CTRL hf rfl ?_
    | exact reg_block hf .adc rfl rfl
    | exact Fin.isLt _

theorem commitTable_ev {c : Fin 4} (hf : Foot.le ⟨[.adc], [.adc], false⟩ f) (h : Ev f s x) :
    Ev f s (commitTable c x) := by
  unfold commitTable
  repeat' first
    | with_reducible exact h
    | with_reducible assumption
    | with_reducible refine adcErr_ev (le_trans' hf rfl) ?_
    | with_reducible refine takeCommit_ev (le_trans' hf rfl) ?_
    | with_reducible refine ev_setF ?_ ?_
    | with_reducible refine ev_ite (fun _ => ?_) (fun _ => ?_)
    | with_reducible refine reg_ADC_CTRL hf rfl ?_
    | with_reducible refine reg_ADC_SEQ hf rfl ?_ ?_
    | exact reg_block hf .adc rfl rfl
    | exact Fin.isLt _

theorem missStart_ev {c : Fin 4} (hf : Foot.le ⟨[.log, .adc], [.adc, .cmd], false⟩ f) (h : Ev f s x) :
    Ev f s (missStart c x) := by
  unfold missStart
  repeat' first
    | with_reducible exact h
    | with_reducible assumption
    | with_reducible refine setCore_ev (le_trans' hf rfl) ?_
    | with_reducible refine ev_setF ?_ ?_
    | with_reducible refine ev_logN (part_mem hf rfl) (block_mem hf rfl) ?_
    | with_reducible refine ev_ite (fun _ => ?_) (fun _ => ?_)
    | with_reducible refine reg_ADC_STATE hf rfl ?_
    | exact reg_block hf .adc rfl rfl
    | exact reg_block hf .cmd rfl rfl
    | exact Fin.isLt _

theorem takeStart_ev {c : Fin 4} {at' : Nat} (hf : Foot.le ⟨[.log, .adc], [.adc, .cmd], false⟩ f) (h : Ev f s x) :
    Ev f s (takeStart c at' x) := by
  unfold takeStart
  repeat' first
    | with_reducible exact h
    | with_reducible assumption
    | with_reducible refine missStart_ev (le_trans' hf rfl) ?_
    | with_reducible refine setCore_ev (le_trans' hf rfl) ?_
    | with_reducible refine ev_setF ?_ ?_
    | with_reducible refine ev_ite (fun _ => ?_) (fun _ => ?_)
    | with_reducible refine reg_ADC_STATE hf rfl ?_
    | exact reg_block hf .adc rfl rfl
    | exact Fin.isLt _

theorem startEvent_ev {c : Fin 4} {k : StartKind} (hf : Foot.le ⟨[.log, .adc], [.adc, .cmd], false⟩ f) (h : Ev f s x) :
    Ev f s (startEvent c k x) := by
  unfold startEvent
  repeat' first
    | with_reducible exact h
    | with_reducible assumption
    | with_reducible refine setCore_ev (le_trans' hf rfl) ?_
    | with_reducible refine takeStart_ev (le_trans' hf rfl) ?_
    | with_reducible refine ev_ite (fun _ => ?_) (fun _ => ?_)

theorem execAdcStartEvent_ev {c : Fin 4} {k : StartKind} (hf : Foot.le ⟨[.tai, .ticks, .log, .adc], [.adc, .cmd], false⟩ f) (h : Ev f s x) :
    EvO f s (execAdcStartEvent c k x) := by
  unfold execAdcStartEvent
  repeat' first
    | with_reducible exact h
    | with_reducible assumption
    | with_reducible refine startEvent_ev (le_trans' hf rfl) ?_
    | with_reducible refine ev_advanceTo (part_mem hf rfl) (part_mem hf rfl) ?_
    | with_reducible refine evo_next ?_
    | with_reducible refine evo_ite (fun _ => ?_) (fun _ => ?_)
    | with_reducible refine ev_ite (fun _ => ?_) (fun _ => ?_)
    | exact Fin.isLt _
    | omega
    | split

theorem startCore_ev {c : Fin 4} (hf : Foot.le ⟨[.log, .adc], [.adc, .cmd], false⟩ f) (h : Ev f s x) :
    Ev f s (startCore c x) := by
  unfold startCore
  repeat' first
    | with_reducible exact h
    | with_reducible assumption
    | with_reducible refine setAdcState_ev (le_trans' hf rfl) ?_
    | with_reducible refine setCore_ev (le_trans' hf rfl) ?_
    | with_reducible refine takeStart_ev (le_trans' hf rfl) ?_
    | with_reducible refine ev_setF ?_ ?_
    | with_reducible refine ev_ite (fun _ => ?_) (fun _ => ?_)
    | with_reducible refine reg_ADC_START hf rfl ?_
    | with_reducible refine reg_ADC_STATE hf rfl ?_
    | exact reg_block hf .adc rfl rfl
    | exact Fin.isLt _

theorem runCore_ev {c : Fin 4} (hf : Foot.le ⟨[.log, .adc], [.adc, .cmd], false⟩ f) (h : Ev f s x) :
    Ev f s (runCore c x) := by
  unfold runCore
  repeat' first
    | with_reducible exact h
    | with_reducible assumption
    | with_reducible refine startCore_ev (le_trans' hf rfl) ?_
    | with_reducible refine ev_setF ?_ ?_
    | with_reducible refine ev_ite (fun _ => ?_) (fun _ => ?_)
    | exact reg_block hf .adc rfl rfl

theorem coreToIdle_ev {c : Fin 4} (hf : Foot.le ⟨[.adc], [.adc], false⟩ f) (h : Ev f s x) :
    Ev f s (coreToIdle c x) := by
  unfold coreToIdle
  repeat' first
    | with_reducible exact h
    | with_reducible assumption
    | with_reducible refine setAdcState_ev (le_trans' hf rfl) ?_
    | with_reducible refine setCore_ev (le_trans' hf rfl) ?_
    | with_reducible refine takeCommit_ev (le_trans' hf rfl) ?_
    | with_reducible refine ev_setF ?_ ?_
    | with_reducible refine ev_ite (fun _ => ?_) (fun _ => ?_)
    | with_reducible refine reg_ADC_CTRL hf rfl ?_
    | with_reducible refine reg_ADC_STATE hf rfl ?_
    | exact reg_block hf .adc rfl rfl
    | exact Fin.isLt _

theorem stopCore_ev {c : Fin 4} (hf : Foot.le ⟨[.adc], [.adc], false⟩ f) (h : Ev f s x) :
    Ev f s (stopCore c x) := by
  unfold stopCore
  repeat' first
    | with_reducible exact h
    | with_reducible assumption
    | with_reducible refine coreToIdle_ev (le_trans' hf rfl) ?_
    | with_reducible refine setAdcState_ev (le_trans' hf rfl) ?_
    | with_reducible refine ev_ite (fun _ => ?_) (fun _ => ?_)

theorem calCore_ev {c : Fin 4} (hf : Foot.le ⟨[], [.adc], false⟩ f) (h : Ev f s x) :
    Ev f s (calCore c x) := by
  unfold calCore
  repeat' first
    | with_reducible exact h
    | with_reducible assumption
    | with_reducible refine adcErr_ev (le_trans' hf rfl) ?_
    | with_reducible refine setAdcState_ev (le_trans' hf rfl) ?_
    | with_reducible refine ev_ite (fun _ => ?_) (fun _ => ?_)

theorem writeAdcCtrl_ev {c : Fin 4} {v : Word} (hf : Foot.le ⟨[.log, .adc], [.adc, .cmd], false⟩ f) (h : Ev f s x) :
    Ev f s (writeAdcCtrl c v x) := by
  unfold writeAdcCtrl
  repeat' first
    | with_reducible exact h
    | with_reducible assumption
    | with_reducible refine adcErr_ev (le_trans' hf rfl) ?_
    | with_reducible refine calCore_ev (le_trans' hf rfl) ?_
    | with_reducible refine commitTable_ev (le_trans' hf rfl) ?_
    | with_reducible refine runCore_ev (le_trans' hf rfl) ?_
    | with_reducible refine stopCore_ev (le_trans' hf rfl) ?_
    | with_reducible refine ev_setF ?_ ?_
    | with_reducible refine ev_whenS (fun hc y hy => ?_) ?_
    | with_reducible refine ev_ite (fun _ => ?_) (fun _ => ?_)
    | with_reducible refine reg_ADC_CTRL hf rfl ?_
    | exact reg_block hf .adc rfl rfl
    | exact Fin.isLt _

theorem nextEntry_ev {c : Fin 4} (hf : Foot.le ⟨[.adc], [.adc], false⟩ f) (h : Ev f s x) :
    Ev f s (nextEntry c x) := by
  unfold nextEntry
  repeat' first
    | with_reducible exact h
    | with_reducible assumption
    | with_reducible refine setCore_ev (le_trans' hf rfl) ?_
    | with_reducible refine takeCommit_ev (le_trans' hf rfl) ?_
    | with_reducible refine ev_setF ?_ ?_
    | with_reducible refine ev_whenS (fun hc y hy => ?_) ?_
    | with_reducible refine ev_ite (fun _ => ?_) (fun _ => ?_)
    | with_reducible refine reg_ADC_CTRL hf rfl ?_
    | with_reducible refine reg_ADC_STATE hf rfl ?_
    | exact reg_block hf .adc rfl rfl
    | exact Fin.isLt _
    | omega
    | split

theorem execAdcConversion_ev {c : Fin 4} {code : Int} (hf : Foot.le ⟨[.tai, .ticks, .log, .fab, .adc], [.adc, .cmd], false⟩ f) (h : Ev f s x) :
    EvO f s (execAdcConversion c code x) := by
  unfold execAdcConversion
  repeat' first
    | with_reducible exact h
    | with_reducible assumption
    | with_reducible refine coreToIdle_ev (le_trans' hf rfl) ?_
    | with_reducible refine nextEntry_ev (le_trans' hf rfl) ?_
    | with_reducible refine setCore_ev (le_trans' hf rfl) ?_
    | with_reducible refine ev_wr ?_ ?_
    | with_reducible refine ev_setF ?_ ?_
    | with_reducible refine ev_logN (part_mem hf rfl) (block_mem hf rfl) ?_
    | with_reducible refine ev_advanceTo (part_mem hf rfl) (part_mem hf rfl) ?_
    | with_reducible refine ev_whenS (fun hc y hy => ?_) ?_
    | with_reducible refine evo_next ?_
    | with_reducible refine evo_ite (fun _ => ?_) (fun _ => ?_)
    | with_reducible refine ev_ite (fun _ => ?_) (fun _ => ?_)
    | with_reducible refine reg_ADC_LAST hf rfl ?_
    | with_reducible refine reg_ADC_STATE hf rfl ?_
    | exact reg_block hf .adc rfl rfl
    | exact reg_block hf .cmd rfl rfl
    | exact Fin.isLt _
    | omega
    | split
    | dsimp only
    | with_reducible refine ev_fab (part_mem hf rfl) (by rfl) ?_

theorem takeFactors_ev {c : Fin 4} {f0 : CalSet} (hf : Foot.le ⟨[], [.adc], false⟩ f) (h : Ev f s x) :
    Ev f s (takeFactors c f0 x) := by
  unfold takeFactors
  repeat' first
    | with_reducible exact h
    | with_reducible assumption
    | with_reducible refine ev_wr ?_ ?_
    | with_reducible refine ev_setFbit ?_ ?_
    | (with_reducible refine ev_forEach_range (fun i hi y hy => ?_) ?_)
    | (with_reducible refine ev_forEach (fun i hi y hy => ?_) ?_)
    | with_reducible refine ev_ite (fun _ => ?_) (fun _ => ?_)
    | with_reducible refine reg_ADC_CAL hf rfl ?_ ?_
    | exact reg_block hf .adc rfl rfl
    | exact Fin.isLt _

theorem takeRecord_ev {c : Fin 4} (hf : Foot.le ⟨[], [.adc], false⟩ f) (h : Ev f s x) :
    Ev f s (takeRecord c x) := by
  unfold takeRecord
  repeat' first
    | with_reducible exact h
    | with_reducible assumption
    | with_reducible refine takeFactors_ev (le_trans' hf rfl) ?_
    | with_reducible refine ev_ite (fun _ => ?_) (fun _ => ?_)
    | exact Fin.isLt _
    | omega
    | split

theorem finishCal_ev {c : Fin 4} {f0 : CalSet} (hf : Foot.le ⟨[.log, .adc], [.adc, .cmd], false⟩ f) (h : Ev f s x) :
    Ev f s (finishCal c f0 x) := by
  unfold finishCal
  repeat' first
    | with_reducible exact h
    | with_reducible assumption
    | with_reducible refine takeFactors_ev (le_trans' hf rfl) ?_
    | with_reducible refine takeRecord_ev (le_trans' hf rfl) ?_
    | with_reducible refine ev_logN (part_mem hf rfl) (block_mem hf rfl) ?_
    | with_reducible refine ev_ite (fun _ => ?_) (fun _ => ?_)
    | exact reg_block hf .cmd rfl rfl
    | exact Fin.isLt _
    | omega
    | split
    | dsimp only
    | with_reducible refine ev_adc (part_mem hf rfl) ?_

theorem execAdcCalDone_ev {c : Fin 4} {f0 : CalSet} (hf : Foot.le ⟨[.log, .adc], [.adc, .cmd], false⟩ f) (h : Ev f s x) :
    EvO f s (execAdcCalDone c f0 x) := by
  unfold execAdcCalDone
  repeat' first
    | with_reducible exact h
    | with_reducible assumption
    | with_reducible refine finishCal_ev (le_trans' hf rfl) ?_
    | with_reducible refine setAdcState_ev (le_trans' hf rfl) ?_
    | with_reducible refine takeCommit_ev (le_trans' hf rfl) ?_
    | with_reducible refine ev_whenS (fun hc y hy => ?_) ?_
    | with_reducible refine evo_next ?_
    | with_reducible refine evo_ite (fun _ => ?_) (fun _ => ?_)

theorem writeAdcStart_ev {c : Nat} {v : Word} (hf : Foot.le ⟨[], [.adc], false⟩ f) (hc : c < 4) (h : Ev f s x) :
    Ev f s (writeAdcStart c v x) := by
  unfold writeAdcStart
  repeat' first
    | with_reducible exact h
    | with_reducible assumption
    | with_reducible refine adcErr_ev (le_trans' hf rfl) ?_
    | with_reducible refine ev_wr ?_ ?_
    | with_reducible refine ev_ite (fun _ => ?_) (fun _ => ?_)
    | with_reducible refine reg_ADC_START hf rfl ?_

theorem writeAdcStart_at {c : Nat} {v : Word} (hf : Foot.le ⟨[], [.adc], false⟩ f) (hk : Reg.ADC_START c / 0x10000 = 0x4004) (h : Ev f s x) :
    Ev f s (writeAdcStart c v x) := by
  unfold writeAdcStart
  repeat' first
    | with_reducible exact h
    | with_reducible assumption
    | with_reducible refine adcErr_ev (le_trans' hf rfl) ?_
    | with_reducible refine ev_wr ?_ ?_
    | with_reducible refine ev_ite (fun _ => ?_) (fun _ => ?_)
    | exact reg_at hf 0x4004 .adc rfl rfl hk

theorem writeAdcPeriod_ev {c : Nat} {v : Word} (hf : Foot.le ⟨[], [.adc], false⟩ f) (hc : c < 4) (h : Ev f s x) :
    Ev f s (writeAdcPeriod c v x) := by
  unfold writeAdcPeriod
  repeat' first
    | with_reducible exact h
    | with_reducible assumption
    | with_reducible refine adcErr_ev (le_trans' hf rfl) ?_
    | with_reducible refine ev_wr ?_ ?_
    | with_reducible refine ev_ite (fun _ => ?_) (fun _ => ?_)
    | with_reducible refine reg_ADC_PERIOD hf rfl ?_

theorem writeAdcPeriod_at {c : Nat} {v : Word} (hf : Foot.le ⟨[], [.adc], false⟩ f) (hk : Reg.ADC_PERIOD c / 0x10000 = 0x4004) (h : Ev f s x) :
    Ev f s (writeAdcPeriod c v x) := by
  unfold writeAdcPeriod
  repeat' first
    | with_reducible exact h
    | with_reducible assumption
    | with_reducible refine adcErr_ev (le_trans' hf rfl) ?_
    | with_reducible refine ev_wr ?_ ?_
    | with_reducible refine ev_ite (fun _ => ?_) (fun _ => ?_)
    | exact reg_at hf 0x4004 .adc rfl rfl hk

theorem writeAinCfg_ev {n : Nat} {v : Word} (hf : Foot.le ⟨[], [.adc], false⟩ f) (hn : n < 16) (h : Ev f s x) :
    Ev f s (writeAinCfg n v x) := by
  unfold writeAinCfg
  repeat' first
    | with_reducible exact h
    | with_reducible assumption
    | with_reducible refine adcErr_ev (le_trans' hf rfl) ?_
    | with_reducible refine ev_wr ?_ ?_
    | with_reducible refine ev_ite (fun _ => ?_) (fun _ => ?_)
    | with_reducible refine reg_ADC_AIN_CFG hf rfl ?_

theorem writeAinCfg_at {n : Nat} {v : Word} (hf : Foot.le ⟨[], [.adc], false⟩ f) (hk : Reg.ADC_AIN_CFG n / 0x10000 = 0x4004) (h : Ev f s x) :
    Ev f s (writeAinCfg n v x) := by
  unfold writeAinCfg
  repeat' first
    | with_reducible exact h
    | with_reducible assumption
    | with_reducible refine adcErr_ev (le_trans' hf rfl) ?_
    | with_reducible refine ev_wr ?_ ?_
    | with_reducible refine ev_ite (fun _ => ?_) (fun _ => ?_)
    | exact reg_at hf 0x4004 .adc rfl rfl hk

theorem writeHard_ev {n : Nat} {v : Word} (hf : Foot.le ⟨[], [.adc], false⟩ f) (hn : n < 16) (h : Ev f s x) :
    Ev f s (writeHard n v x) := by
  unfold writeHard
  repeat' first
    | with_reducible exact h
    | with_reducible assumption
    | with_reducible refine adcErr_ev (le_trans' hf rfl) ?_
    | with_reducible refine ev_wr ?_ ?_
    | with_reducible refine ev_setFbit ?_ ?_
    | with_reducible refine ev_whenS (fun hc y hy => ?_) ?_
    | with_reducible refine ev_ite (fun _ => ?_) (fun _ => ?_)
    | with_reducible refine reg_ADC_HARD hf rfl ?_
    | exact reg_block hf .adc rfl rfl

theorem writeHard_at {n : Nat} {v : Word} (hf : Foot.le ⟨[], [.adc], false⟩ f) (hk : Reg.ADC_HARD n / 0x10000 = 0x4004) (h : Ev f s x) :
    Ev f s (writeHard n v x) := by
  unfold writeHard
  repeat' first
    | with_reducible exact h
    | with_reducible assumption
    | with_reducible refine adcErr_ev (le_trans' hf rfl) ?_
    | with_reducible refine ev_wr ?_ ?_
    | with_reducible refine ev_setFbit ?_ ?_
    | with_reducible refine ev_whenS (fun hc y hy => ?_) ?_
    | with_reducible refine ev_ite (fun _ => ?_) (fun _ => ?_)
    | exact reg_at hf 0x4004 .adc rfl rfl hk
    | with_reducible refine reg_ADC_HARD hf rfl ?_
    | exact reg_block hf .adc rfl rfl

theorem writeModCfg_ev {i : Nat} {v : Word} (hf : Foot.le ⟨[], [.adc], false⟩ f) (hi : i < 24) (h : Ev f s x) :
    Ev f s (writeModCfg i v x) := by
  unfold writeModCfg
  repeat' first
    | with_reducible exact h
    | with_reducible assumption
    | with_reducible refine adcErr_ev (le_trans' hf rfl) ?_
    | with_reducible refine ev_wr ?_ ?_
    | with_reducible refine ev_setF ?_ ?_
    | with_reducible refine ev_ite (fun _ => ?_) (fun _ => ?_)
    | with_reducible refine reg_ADC_MOD_CFG hf rfl ?_

theorem writeModCfg_at {i : Nat} {v : Word} (hf : Foot.le ⟨[], [.adc], false⟩ f) (hk : Reg.ADC_MOD_CFG i / 0x10000 = 0x4004) (h : Ev f s x) :
    Ev f s (writeModCfg i v x) := by
  unfold writeModCfg
  repeat' first
    | with_reducible exact h
    | with_reducible assumption
    | with_reducible refine adcErr_ev (le_trans' hf rfl) ?_
    | with_reducible refine ev_wr ?_ ?_
    | with_reducible refine ev_setF ?_ ?_
    | with_reducible refine ev_ite (fun _ => ?_) (fun _ => ?_)
    | exact reg_at hf 0x4004 .adc rfl rfl hk

theorem writeCmpStatus_ev {v : Word} (hf : Foot.le ⟨[], [.adc], false⟩ f) (h : Ev f s x) :
    Ev f s (writeCmpStatus v x) := by
  unfold writeCmpStatus
  repeat' first
    | with_reducible exact h
    | with_reducible assumption
    | with_reducible refine ev_setF ?_ ?_
    | with_reducible refine ev_ite (fun _ => ?_) (fun _ => ?_)
    | exact reg_block hf .adc rfl rfl

theorem latchHard_ev {n : Fin 16} (hf : Foot.le ⟨[.log], [.adc, .cmd], false⟩ f) (h : Ev f s x) :
    Ev f s (latchHard n x) := by
  unfold latchHard
  repeat' first
    | with_reducible exact h
    | with_reducible assumption
    | with_reducible refine ev_setFbit ?_ ?_
    | with_reducible refine ev_logN (part_mem hf rfl) (block_mem hf rfl) ?_
    | with_reducible refine ev_whenS (fun hc y hy => ?_) ?_
    | with_reducible refine ev_ite (fun _ => ?_) (fun _ => ?_)
    | exact reg_block hf .adc rfl rfl

end Sys2Proof.Laws
end

