-- ==== Sys2Proof/Laws/EvOper.lean ====
section
/-! SUPPORT. What each change of Machine/Oper.lean can touch, and that it keeps the state sound: one lemma a function. -/

namespace Sys2Proof.Laws

open Sys2Proof Sys2Proof.Machine Sys2Proof.Safety

variable {f : Foot} {s x : State}

theorem showOp_ev {n : Fin 16} (hf : Foot.le ⟨[], [.cmd], false⟩ f) (h : Ev f s x) :
    Ev f s (showOp n x) := by
  unfold showOp
  repeat' first
    | with_reducible exact h
    | with_reducible assumption
    | with_reducible refine ev_wr ?_ ?_
    | with_reducible refine ev_setF ?_ ?_
    | with_reducible refine ev_ite (fun _ => ?_) (fun _ => ?_)
    | with_reducible refine reg_CMD_OP_HANDLE hf rfl ?_
    | with_reducible refine reg_CMD_OP_STATE hf rfl ?_
    | exact reg_block hf .cmd rfl rfl
    | exact Fin.isLt _
    | omega
    | split
    | dsimp only

theorem setOper_ev {n : Fin 16} {o : Option Oper} (hf : Foot.le ⟨[.cmd], [.cmd], false⟩ f) (h : Ev f s x) :
    Ev f s (setOper n o x) := by
  unfold setOper
  repeat' first
    | with_reducible exact h
    | with_reducible assumption
    | with_reducible refine showOp_ev (le_trans' hf rfl) ?_
    | with_reducible refine ev_ite (fun _ => ?_) (fun _ => ?_)
    | exact Fin.isLt _
    | omega
    | split
    | dsimp only
    | with_reducible refine ev_cmd (part_mem hf rfl) ?_

theorem startQueuedExport_ev (hf : Foot.le ⟨[.cmd], [.cmd], false⟩ f) (h : Ev f s x) :
    Ev f s (startQueuedExport x) := by
  unfold startQueuedExport
  repeat' first
    | with_reducible exact h
    | with_reducible assumption
    | with_reducible refine setOper_ev (le_trans' hf rfl) ?_
    | with_reducible refine ev_ite (fun _ => ?_) (fun _ => ?_)
    | exact Fin.isLt _
    | omega
    | split
    | dsimp only

theorem endOp_ev {n : Fin 16} {st : OpState} {status : Nat} (hf : Foot.le ⟨[.log, .cmd], [.cmd], false⟩ f) (h : Ev f s x) :
    Ev f s (endOp n st status x) := by
  unfold endOp
  repeat' first
    | with_reducible exact h
    | with_reducible assumption
    | with_reducible refine setOper_ev (le_trans' hf rfl) ?_
    | with_reducible refine startQueuedExport_ev (le_trans' hf rfl) ?_
    | with_reducible refine ev_setF ?_ ?_
    | with_reducible refine ev_logEvent (part_mem hf rfl) (block_mem hf rfl) ?_
    | with_reducible refine ev_ite (fun _ => ?_) (fun _ => ?_)
    | exact reg_block hf .cmd rfl rfl
    | exact Fin.isLt _
    | omega
    | split
    | dsimp only
    | with_reducible refine ev_cmd (part_mem hf rfl) ?_

theorem endOp?_ev {n : Option (Fin 16)} {st : OpState} {status : Nat} (hf : Foot.le ⟨[.log, .cmd], [.cmd], false⟩ f) (h : Ev f s x) :
    Ev f s (endOp? n st status x) := by
  unfold endOp?
  repeat' first
    | with_reducible exact h
    | with_reducible assumption
    | with_reducible refine endOp_ev (le_trans' hf rfl) ?_
    | with_reducible refine ev_ite (fun _ => ?_) (fun _ => ?_)
    | exact Fin.isLt _
    | omega
    | split

theorem settleQueued_ev {n : Fin 16} (hf : Foot.le ⟨[.cmd], [.cmd], false⟩ f) (h : Ev f s x) :
    Ev f s (settleQueued n x) := by
  unfold settleQueued
  repeat' first
    | with_reducible exact h
    | with_reducible assumption
    | with_reducible refine setOper_ev (le_trans' hf rfl) ?_
    | with_reducible refine startQueuedExport_ev (le_trans' hf rfl) ?_
    | with_reducible refine ev_ite (fun _ => ?_) (fun _ => ?_)
    | exact Fin.isLt _
    | omega
    | split

theorem takeHandle_ev (hf : Foot.le ⟨[.fresh, .cmd], [], false⟩ f) (h : Ev f s x) :
    Ev f s (takeHandle x).2 := by
  unfold takeHandle
  repeat' first
    | with_reducible exact h
    | with_reducible assumption
    | refine ev_snd (by assumption) ?_
    | with_reducible refine ev_takeFree (part_mem hf rfl) ?_
    | with_reducible refine ev_ite2 (fun _ => ?_) (fun _ => ?_)
    | with_reducible refine ev_ite (fun _ => ?_) (fun _ => ?_)
    | exact Fin.isLt _
    | omega
    | split
    | dsimp only
    | with_reducible refine ev_cmd (part_mem hf rfl) ?_

theorem openOp_ev {n : Fin 16} {k : Fin 7} {st : OpState} {ch : Option (Fin 21)} {obj : Nat} (hf : Foot.le ⟨[.fresh, .cmd], [.cmd], false⟩ f) (h : Ev f s x) :
    Ev f s (openOp n k st ch obj x).2 := by
  unfold openOp
  repeat' first
    | with_reducible exact h
    | with_reducible assumption
    | with_reducible refine setOper_ev (le_trans' hf rfl) ?_
    | with_reducible refine takeHandle_ev (le_trans' hf rfl) ?_

theorem partHold_ev {b : Bool} (hf : Foot.le ⟨[.cmd], [.cmd], false⟩ f) (h : Ev f s x) :
    Ev f s (partHold b x) := by
  unfold partHold
  repeat' first
    | with_reducible exact h
    | with_reducible assumption
    | with_reducible refine setOper_ev (le_trans' hf rfl) ?_
    | with_reducible refine settleQueued_ev (le_trans' hf rfl) ?_
    | (with_reducible refine ev_forEach_range (fun i hi y hy => ?_) ?_)
    | (with_reducible refine ev_forEach (fun i hi y hy => ?_) ?_)
    | with_reducible refine ev_ite (fun _ => ?_) (fun _ => ?_)
    | exact Fin.isLt _
    | omega
    | split

theorem commitOp_ev {n : Option (Fin 16)} (hf : Foot.le ⟨[.cmd], [.cmd], false⟩ f) (h : Ev f s x) :
    Ev f s (commitOp n x) := by
  unfold commitOp
  repeat' first
    | with_reducible exact h
    | with_reducible assumption
    | with_reducible refine setOper_ev (le_trans' hf rfl) ?_
    | with_reducible refine ev_ite (fun _ => ?_) (fun _ => ?_)
    | exact Fin.isLt _
    | omega
    | split

end Sys2Proof.Laws
end

