-- ==== Sys2Proof/Laws/EvRecHook.lean ====
section
/-! SUPPORT. What each change of Machine/RecHook.lean can touch, and that it keeps the state sound: one lemma a function. -/

namespace Sys2Proof.Laws

open Sys2Proof Sys2Proof.Machine Sys2Proof.Safety

variable {f : Foot} {s x : State}

theorem recTrig_ev {src : Fin 11} {at' : Nat} (hf : Foot.le ⟨[.recd], [], false⟩ f) (h : Ev f s x) :
    Ev f s (recTrig src at' x) := by
  unfold recTrig
  repeat' first
    | with_reducible exact h
    | with_reducible assumption
    | with_reducible refine ev_ite (fun _ => ?_) (fun _ => ?_)
    | exact Fin.isLt _
    | omega
    | split
    | dsimp only
    | with_reducible refine ev_recd (part_mem hf rfl) ?_

theorem recTrigNow_ev {src : Fin 11} (hf : Foot.le ⟨[.recd], [], false⟩ f) (h : Ev f s x) :
    Ev f s (recTrigNow src x) := by
  unfold recTrigNow
  repeat' first
    | with_reducible exact h
    | with_reducible assumption
    | with_reducible refine recTrig_ev (le_trans' hf rfl) ?_

theorem setRecState_ev {n : Nat} (hf : Foot.le ⟨[], [.recd], false⟩ f) (h : Ev f s x) :
    Ev f s (setRecState n x) := by
  unfold setRecState
  repeat' first
    | with_reducible exact h
    | with_reducible assumption
    | with_reducible refine ev_setF ?_ ?_
    | with_reducible refine ev_ite (fun _ => ?_) (fun _ => ?_)
    | exact reg_block hf .recd rfl rfl

theorem setRec_ev {x0 : RecState} (hf : Foot.le ⟨[.recd], [], false⟩ f) (h : Ev f s x) :
    Ev f s (setRec x0 x) := by
  unfold setRec
  repeat' first
    | with_reducible exact h
    | with_reducible assumption
    | with_reducible refine ev_ite (fun _ => ?_) (fun _ => ?_)
    | exact Fin.isLt _
    | omega
    | split
    | dsimp only
    | with_reducible refine ev_recd (part_mem hf rfl) ?_

theorem recClose_ev {cause : Nat} (hf : Foot.le ⟨[.recd], [.recd], false⟩ f) (h : Ev f s x) :
    Ev f s (recClose cause x) := by
  unfold recClose
  repeat' first
    | with_reducible exact h
    | with_reducible assumption
    | with_reducible refine setRec_ev (le_trans' hf rfl) ?_
    | with_reducible refine setRecState_ev (le_trans' hf rfl) ?_
    | with_reducible refine ev_ite (fun _ => ?_) (fun _ => ?_)
    | exact Fin.isLt _
    | omega
    | split

theorem clearPlan_ev (hf : Foot.le ⟨[.recd], [], false⟩ f) (h : Ev f s x) :
    Ev f s (clearPlan x) := by
  unfold clearPlan
  repeat' first
    | with_reducible exact h
    | with_reducible assumption
    | with_reducible refine setRec_ev (le_trans' hf rfl) ?_

theorem recTimeMoved_ev (hf : Foot.le ⟨[.recd], [.recd], false⟩ f) (h : Ev f s x) :
    Ev f s (recTimeMoved x) := by
  unfold recTimeMoved
  repeat' first
    | with_reducible exact h
    | with_reducible assumption
    | with_reducible refine clearPlan_ev (le_trans' hf rfl) ?_
    | with_reducible refine recClose_ev (le_trans' hf rfl) ?_
    | with_reducible refine setRec_ev (le_trans' hf rfl) ?_
    | with_reducible refine ev_ite (fun _ => ?_) (fun _ => ?_)

theorem recDisarmed_ev (hf : Foot.le ⟨[.log, .cmd, .recd], [.recd, .cmd], false⟩ f) (h : Ev f s x) :
    Ev f s (recDisarmed x) := by
  unfold recDisarmed
  repeat' first
    | with_reducible exact h
    | with_reducible assumption
    | with_reducible refine clearPlan_ev (le_trans' hf rfl) ?_
    | with_reducible refine endOp?_ev (le_trans' hf rfl) ?_
    | with_reducible refine setRec_ev (le_trans' hf rfl) ?_
    | with_reducible refine setRecState_ev (le_trans' hf rfl) ?_
    | with_reducible refine ev_ite (fun _ => ?_) (fun _ => ?_)

theorem recNote_ev {kind : Fin 3} {theta4 : Int} (hf : Foot.le ⟨[.recd], [], false⟩ f) (h : Ev f s x) :
    Ev f s (recNote kind theta4 x) := by
  unfold recNote
  repeat' first
    | with_reducible exact h
    | with_reducible assumption
    | with_reducible refine ev_ite (fun _ => ?_) (fun _ => ?_)
    | exact Fin.isLt _
    | omega
    | split
    | dsimp only
    | with_reducible refine ev_recd (part_mem hf rfl) ?_

theorem recFullImage_ev (hf : Foot.le ⟨[.log, .cmd, .recd], [.recd, .cmd], false⟩ f) (h : Ev f s x) :
    Ev f s (recFullImage x) := by
  unfold recFullImage
  repeat' first
    | with_reducible exact h
    | with_reducible assumption
    | with_reducible refine recClose_ev (le_trans' hf rfl) ?_
    | with_reducible refine recDisarmed_ev (le_trans' hf rfl) ?_
    | with_reducible refine ev_ite (fun _ => ?_) (fun _ => ?_)

end Sys2Proof.Laws
end

