-- ==== Sys2Proof/Laws/EvClock.lean ====
section
/-! SUPPORT. What each change of Machine/Clock.lean can touch, and that it keeps the state sound: one lemma a function. -/

namespace Sys2Proof.Laws

open Sys2Proof Sys2Proof.Machine Sys2Proof.Safety

variable {f : Foot} {s x : State}

theorem showRefs_ev (hf : Foot.le ⟨[], [.clk], false⟩ f) (h : Ev f s x) :
    Ev f s (showRefs x) := by
  unfold showRefs
  repeat' first
    | with_reducible exact h
    | with_reducible assumption
    | with_reducible refine ev_setF ?_ ?_
    | with_reducible refine ev_ite (fun _ => ?_) (fun _ => ?_)
    | exact reg_block hf .clk rfl rfl

theorem setServo_ev {v : ServoState} (hf : Foot.le ⟨[.time], [], false⟩ f) (h : Ev f s x) :
    Ev f s (setServo v x) := by
  unfold setServo
  repeat' first
    | with_reducible exact h
    | with_reducible assumption
    | with_reducible refine ev_ite (fun _ => ?_) (fun _ => ?_)
    | exact Fin.isLt _
    | omega
    | split
    | dsimp only
    | with_reducible refine ev_time (part_mem hf rfl) ?_

theorem setY_ev {y : Int} (hf : Foot.le ⟨[.time], [.time], false⟩ f) (h : Ev f s x) :
    Ev f s (setY y x) := by
  unfold setY
  repeat' first
    | with_reducible exact h
    | with_reducible assumption
    | with_reducible refine setServo_ev (le_trans' hf rfl) ?_
    | with_reducible refine ev_wr ?_ ?_
    | with_reducible refine ev_ite (fun _ => ?_) (fun _ => ?_)
    | exact reg_block hf .time rfl rfl

theorem toTimeState_ev {n : Nat} (hf : Foot.le ⟨[.time], [.time], false⟩ f) (h : Ev f s x) :
    Ev f s (toTimeState n x) := by
  unfold toTimeState
  repeat' first
    | with_reducible exact h
    | with_reducible assumption
    | with_reducible refine setServo_ev (le_trans' hf rfl) ?_
    | with_reducible refine ev_setF ?_ ?_
    | with_reducible refine ev_ite (fun _ => ?_) (fun _ => ?_)
    | exact reg_block hf .time rfl rfl

theorem showPllCoast_ev (hf : Foot.le ⟨[.time], [.time], false⟩ f) (h : Ev f s x) :
    Ev f s (showPllCoast x) := by
  unfold showPllCoast
  repeat' first
    | with_reducible exact h
    | with_reducible assumption
    | with_reducible refine toTimeState_ev (le_trans' hf rfl) ?_
    | with_reducible refine ev_setF ?_ ?_
    | with_reducible refine ev_ite (fun _ => ?_) (fun _ => ?_)
    | exact reg_block hf .time rfl rfl

theorem coastPll_ev {n : Fin 5} {reason : Nat} {back : Nat} (hf : Foot.le ⟨[.log, .time], [.clk, .time, .cmd], false⟩ f) (h : Ev f s x) :
    Ev f s (coastPll n reason back x) := by
  unfold coastPll
  repeat' first
    | with_reducible exact h
    | with_reducible assumption
    | with_reducible refine setY_ev (le_trans' hf rfl) ?_
    | with_reducible refine showPllCoast_ev (le_trans' hf rfl) ?_
    | with_reducible refine ev_setFbit ?_ ?_
    | with_reducible refine ev_logN (part_mem hf rfl) (block_mem hf rfl) ?_
    | with_reducible refine ev_ite (fun _ => ?_) (fun _ => ?_)
    | exact reg_block hf .clk rfl rfl
    | exact reg_block hf .cmd rfl rfl
    | exact Fin.isLt _
    | omega
    | split
    | dsimp only
    | with_reducible refine ev_time (part_mem hf rfl) ?_

theorem resumePll_ev {n : Fin 5} (hf : Foot.le ⟨[.time], [.clk, .time], false⟩ f) (h : Ev f s x) :
    Ev f s (resumePll n x) := by
  unfold resumePll
  repeat' first
    | with_reducible exact h
    | with_reducible assumption
    | with_reducible refine showPllCoast_ev (le_trans' hf rfl) ?_
    | with_reducible refine ev_setFbit ?_ ?_
    | with_reducible refine ev_ite (fun _ => ?_) (fun _ => ?_)
    | exact reg_block hf .clk rfl rfl

theorem writeRefCfg_ev {v : Word} (hf : Foot.le ⟨[.log, .time], [.clk, .time, .cmd], false⟩ f) (h : Ev f s x) :
    Ev f s (writeRefCfg v x) := by
  unfold writeRefCfg
  repeat' first
    | with_reducible exact h
    | with_reducible assumption
    | with_reducible refine coastPll_ev (le_trans' hf rfl) ?_
    | with_reducible refine resumePll_ev (le_trans' hf rfl) ?_
    | with_reducible refine showRefs_ev (le_trans' hf rfl) ?_
    | with_reducible refine ev_wr ?_ ?_
    | with_reducible refine ev_setF ?_ ?_
    | with_reducible refine ev_whenS (fun hc y hy => ?_) ?_
    | with_reducible refine ev_ite (fun _ => ?_) (fun _ => ?_)
    | exact reg_block hf .clk rfl rfl

theorem clkErr_ev (hf : Foot.le ⟨[], [.clk], false⟩ f) (h : Ev f s x) :
    Ev f s (clkErr x) := by
  unfold clkErr
  repeat' first
    | with_reducible exact h
    | with_reducible assumption
    | with_reducible refine ev_setF ?_ ?_
    | with_reducible refine ev_ite (fun _ => ?_) (fun _ => ?_)
    | exact reg_block hf .clk rfl rfl

theorem writeMclk_ev {v : Word} (hf : Foot.le ⟨[], [.clk], false⟩ f) (h : Ev f s x) :
    Ev f s (writeMclk v x) := by
  unfold writeMclk
  repeat' first
    | with_reducible exact h
    | with_reducible assumption
    | with_reducible refine clkErr_ev (le_trans' hf rfl) ?_
    | with_reducible refine ev_wr ?_ ?_
    | with_reducible refine ev_ite (fun _ => ?_) (fun _ => ?_)
    | exact reg_block hf .clk rfl rfl

theorem writeCkout_ev {n : Nat} {v : Word} (hf : Foot.le ⟨[], [.clk], false⟩ f) (hn : n < 4) (h : Ev f s x) :
    Ev f s (writeCkout n v x) := by
  unfold writeCkout
  repeat' first
    | with_reducible exact h
    | with_reducible assumption
    | with_reducible refine clkErr_ev (le_trans' hf rfl) ?_
    | with_reducible refine ev_wr ?_ ?_
    | with_reducible refine ev_setF ?_ ?_
    | with_reducible refine ev_ite (fun _ => ?_) (fun _ => ?_)
    | with_reducible refine reg_CLK_CKOUT hf rfl ?_

theorem writeCkout_at {n : Nat} {v : Word} (hf : Foot.le ⟨[], [.clk], false⟩ f) (hk : Reg.CLK_CKOUT n / 0x10000 = 0x4002) (h : Ev f s x) :
    Ev f s (writeCkout n v x) := by
  unfold writeCkout
  repeat' first
    | with_reducible exact h
    | with_reducible assumption
    | with_reducible refine clkErr_ev (le_trans' hf rfl) ?_
    | with_reducible refine ev_wr ?_ ?_
    | with_reducible refine ev_setF ?_ ?_
    | with_reducible refine ev_ite (fun _ => ?_) (fun _ => ?_)
    | exact reg_at hf 0x4002 .clk rfl rfl hk

theorem shiftInstants_ev {ms : Int} (hf : Foot.le ⟨[.time, .adc, .filt, .scan, .upd], [], false⟩ f) (h : Ev f s x) :
    Ev f s (shiftInstants ms x) := by
  refine ev_parts (x := x) (fun p hp => ?_) rfl rfl rfl rfl rfl h
  cases p <;> first | rfl | exact absurd (part_mem hf rfl) hp

theorem skipTriggers_ev (hf : Foot.le ⟨[.log, .loop], [.time, .cmd], false⟩ f) (h : Ev f s x) :
    Ev f s (skipTriggers x) := by
  unfold skipTriggers
  repeat' first
    | with_reducible exact h
    | with_reducible assumption
    | with_reducible refine ev_setF ?_ ?_
    | with_reducible refine ev_logEvent (part_mem hf rfl) (block_mem hf rfl) ?_
    | (with_reducible refine ev_forEach_range (fun i hi y hy => ?_) ?_)
    | (with_reducible refine ev_forEach (fun i hi y hy => ?_) ?_)
    | with_reducible refine ev_ite (fun _ => ?_) (fun _ => ?_)
    | with_reducible refine reg_TIME_TRIG_STATUS hf rfl ?_
    | with_reducible refine reg_TIME_TRIG_TARGET hf rfl ?_
    | exact reg_block hf .time rfl rfl
    | exact reg_block hf .cmd rfl rfl
    | exact Fin.isLt _
    | omega
    | split
    | dsimp only
    | with_reducible refine ev_loop (part_mem hf rfl) ?_

theorem moveCounter_ev {ms : Int} (hf : Foot.le ⟨[.tai, .log, .time, .adc, .filt, .loop, .scan, .recd, .upd], [.time, .recd, .cmd], false⟩ f) (h : Ev f s x) :
    Ev f s (moveCounter ms x) := by
  unfold moveCounter
  exact ev_whenS (fun _ y hy => skipTriggers_ev (le_trans' hf rfl) hy) (shiftInstants_ev (le_trans' hf rfl)
    (ev_tai (part_mem hf rfl) (recTimeMoved_ev (le_trans' hf rfl) h)))

theorem writeTimeStep_ev {v : Word} (hf : Foot.le ⟨[.tai, .log, .time, .adc, .filt, .loop, .scan, .recd, .upd], [.time, .recd, .cmd], false⟩ f) (h : Ev f s x) :
    Ev f s (writeTimeStep v x) := by
  unfold writeTimeStep
  repeat' first
    | with_reducible exact h
    | with_reducible assumption
    | with_reducible refine moveCounter_ev (le_trans' hf rfl) ?_
    | with_reducible refine setServo_ev (le_trans' hf rfl) ?_
    | with_reducible refine toTimeState_ev (le_trans' hf rfl) ?_
    | with_reducible refine ev_setF ?_ ?_
    | with_reducible refine ev_logEvent (part_mem hf rfl) (block_mem hf rfl) ?_
    | with_reducible refine ev_ite (fun _ => ?_) (fun _ => ?_)
    | exact reg_block hf .time rfl rfl

theorem showOffset_ev {th4 : Int} (hf : Foot.le ⟨[], [.time], false⟩ f) (h : Ev f s x) :
    Ev f s (showOffset th4 x) := by
  unfold showOffset
  repeat' first
    | with_reducible exact h
    | with_reducible assumption
    | with_reducible refine ev_wr ?_ ?_
    | with_reducible refine ev_ite (fun _ => ?_) (fun _ => ?_)
    | exact reg_block hf .time rfl rfl

theorem servoAccept_ev {th4 : Int} {ts : Nat} (hf : Foot.le ⟨[.log, .time, .recd], [.time, .cmd], false⟩ f) (h : Ev f s x) :
    Ev f s (servoAccept th4 ts x) := by
  unfold servoAccept
  repeat' first
    | with_reducible exact h
    | with_reducible assumption
    | with_reducible refine recNote_ev (le_trans' hf rfl) ?_
    | with_reducible refine setServo_ev (le_trans' hf rfl) ?_
    | with_reducible refine setY_ev (le_trans' hf rfl) ?_
    | with_reducible refine showOffset_ev (le_trans' hf rfl) ?_
    | with_reducible refine toTimeState_ev (le_trans' hf rfl) ?_
    | with_reducible refine ev_logEvent (part_mem hf rfl) (block_mem hf rfl) ?_
    | with_reducible refine ev_ite (fun _ => ?_) (fun _ => ?_)

theorem clampOnEnergise_ev (hf : Foot.le ⟨[.time], [.time], false⟩ f) (h : Ev f s x) :
    Ev f s (clampOnEnergise x) := by
  unfold clampOnEnergise
  repeat' first
    | with_reducible exact h
    | with_reducible assumption
    | with_reducible refine setY_ev (le_trans' hf rfl) ?_
    | with_reducible refine ev_ite (fun _ => ?_) (fun _ => ?_)

theorem initialSet_ev {th4 : Int} {ts : Nat} (hf : Foot.le ⟨[.tai, .log, .time, .adc, .filt, .loop, .scan, .recd, .upd], [.time, .recd, .cmd], false⟩ f) (h : Ev f s x) :
    Ev f s (initialSet th4 ts x) := by
  unfold initialSet
  repeat' first
    | with_reducible exact h
    | with_reducible assumption
    | with_reducible refine moveCounter_ev (le_trans' hf rfl) ?_
    | with_reducible refine servoAccept_ev (le_trans' hf rfl) ?_
    | with_reducible refine toTimeState_ev (le_trans' hf rfl) ?_
    | with_reducible refine ev_logEvent (part_mem hf rfl) (block_mem hf rfl) ?_

theorem jumpCandidate_ev {th4 : Int} {ts : Nat} (hf : Foot.le ⟨[.log, .time, .recd], [.time, .cmd], false⟩ f) (h : Ev f s x) :
    Ev f s (jumpCandidate th4 ts x) := by
  unfold jumpCandidate
  repeat' first
    | with_reducible exact h
    | with_reducible assumption
    | with_reducible refine recNote_ev (le_trans' hf rfl) ?_
    | with_reducible refine servoAccept_ev (le_trans' hf rfl) ?_
    | with_reducible refine setServo_ev (le_trans' hf rfl) ?_
    | with_reducible refine showOffset_ev (le_trans' hf rfl) ?_
    | with_reducible refine toTimeState_ev (le_trans' hf rfl) ?_
    | with_reducible refine ev_setF ?_ ?_
    | with_reducible refine ev_logEvent (part_mem hf rfl) (block_mem hf rfl) ?_
    | with_reducible refine ev_whenS (fun hc y hy => ?_) ?_
    | with_reducible refine ev_ite (fun _ => ?_) (fun _ => ?_)
    | exact reg_block hf .time rfl rfl

theorem judge_ev {th4 : Int} {ts : Nat} (hf : Foot.le ⟨[.tai, .log, .time, .adc, .filt, .loop, .scan, .recd, .upd], [.time, .recd, .cmd], false⟩ f) (h : Ev f s x) :
    Ev f s (judge th4 ts x) := by
  unfold judge
  repeat' first
    | with_reducible exact h
    | with_reducible assumption
    | with_reducible refine initialSet_ev (le_trans' hf rfl) ?_
    | with_reducible refine jumpCandidate_ev (le_trans' hf rfl) ?_
    | with_reducible refine servoAccept_ev (le_trans' hf rfl) ?_
    | with_reducible refine toTimeState_ev (le_trans' hf rfl) ?_
    | with_reducible refine ev_ite (fun _ => ?_) (fun _ => ?_)

theorem takeSource_ev {src : Nat} (hf : Foot.le ⟨[.time], [.time], false⟩ f) (h : Ev f s x) :
    Ev f s (takeSource src x) := by
  unfold takeSource
  repeat' first
    | with_reducible exact h
    | with_reducible assumption
    | with_reducible refine setServo_ev (le_trans' hf rfl) ?_
    | with_reducible refine ev_setF ?_ ?_
    | with_reducible refine ev_ite (fun _ => ?_) (fun _ => ?_)
    | exact reg_block hf .time rfl rfl

theorem measure_ev {src : Fin 5} {th4 : Int} {ts : Nat} (hf : Foot.le ⟨[.tai, .log, .time, .adc, .filt, .loop, .scan, .recd, .upd], [.time, .recd, .cmd], false⟩ f) (h : Ev f s x) :
    Ev f s (Machine.measure src th4 ts x) := by
  unfold Machine.measure
  repeat' first
    | with_reducible exact h
    | with_reducible assumption
    | with_reducible refine judge_ev (le_trans' hf rfl) ?_
    | with_reducible refine takeSource_ev (le_trans' hf rfl) ?_
    | with_reducible refine ev_ite (fun _ => ?_) (fun _ => ?_)
    | exact Fin.isLt _
    | omega
    | split
    | dsimp only
    | with_reducible refine ev_time (part_mem hf rfl) ?_

theorem takeDelay_ev {port : Fin 2} {t : BitVec 66} {x0 : PtpSync} (hf : Foot.le ⟨[.time], [], false⟩ f) (h : Ev f s x) :
    Ev f s (takeDelay port t x0 x) := by
  unfold takeDelay
  repeat' first
    | with_reducible exact h
    | with_reducible assumption
    | with_reducible refine ev_ite (fun _ => ?_) (fun _ => ?_)
    | exact Fin.isLt _
    | omega
    | split
    | dsimp only
    | with_reducible refine ev_time (part_mem hf rfl) ?_

theorem forwardSync_ev {port : Fin 2} {x0 : PtpSync} (hf : Foot.le ⟨[.time], [], false⟩ f) (h : Ev f s x) :
    Ev f s (forwardSync port x0 x) := by
  unfold forwardSync
  repeat' first
    | with_reducible exact h
    | with_reducible assumption
    | with_reducible refine ev_ite (fun _ => ?_) (fun _ => ?_)
    | exact Fin.isLt _
    | omega
    | split
    | dsimp only
    | with_reducible refine ev_time (part_mem hf rfl) ?_

theorem ptpSync_ev {port : Fin 2} {t : BitVec 66} {x0 : PtpSync} (hf : Foot.le ⟨[.tai, .log, .time, .adc, .filt, .loop, .scan, .recd, .upd], [.time, .recd, .cmd], false⟩ f) (h : Ev f s x) :
    EvO f s (ptpSync port t x0 x) := by
  unfold ptpSync
  repeat' first
    | with_reducible exact h
    | with_reducible assumption
    | with_reducible refine forwardSync_ev (le_trans' hf rfl) ?_
    | with_reducible refine measure_ev (le_trans' hf rfl) ?_
    | with_reducible refine takeDelay_ev (le_trans' hf rfl) ?_
    | with_reducible refine evo_next ?_
    | with_reducible refine evo_ite (fun _ => ?_) (fun _ => ?_)

theorem timing_ev {path : Fin 2} {theta : Int} (hf : Foot.le ⟨[.tai, .log, .time, .adc, .filt, .loop, .scan, .recd, .upd], [.time, .recd, .cmd], false⟩ f) (h : Ev f s x) :
    EvO f s (timing path theta x) := by
  unfold timing
  repeat' first
    | with_reducible exact h
    | with_reducible assumption
    | with_reducible refine measure_ev (le_trans' hf rfl) ?_
    | with_reducible refine evo_next ?_
    | with_reducible refine evo_ite (fun _ => ?_) (fun _ => ?_)

theorem execPpsInEdge_ev {x0 : PpsEdge} (hf : Foot.le ⟨[.tai, .ticks, .log, .time, .adc, .filt, .loop, .scan, .recd, .upd], [.time, .recd, .cmd], false⟩ f) (h : Ev f s x) :
    EvO f s (execPpsInEdge x0 x) := by
  unfold execPpsInEdge
  repeat' first
    | with_reducible exact h
    | with_reducible assumption
    | with_reducible refine measure_ev (le_trans' hf rfl) ?_
    | with_reducible refine ev_wr64 ?_ ?_ ?_
    | with_reducible refine ev_advanceTo (part_mem hf rfl) (part_mem hf rfl) ?_
    | with_reducible refine evo_next ?_
    | with_reducible refine evo_ite (fun _ => ?_) (fun _ => ?_)
    | with_reducible refine ev_ite (fun _ => ?_) (fun _ => ?_)
    | exact reg_block hf .time rfl rfl

theorem execTimeSourceLost_ev {src : Fin 5} (hf : Foot.le ⟨[.tai, .ticks, .log, .time], [.time, .cmd], false⟩ f) (h : Ev f s x) :
    EvO f s (execTimeSourceLost src x) := by
  unfold execTimeSourceLost
  repeat' first
    | with_reducible exact h
    | with_reducible assumption
    | with_reducible refine takeSource_ev (le_trans' hf rfl) ?_
    | with_reducible refine toTimeState_ev (le_trans' hf rfl) ?_
    | with_reducible refine ev_setF ?_ ?_
    | with_reducible refine ev_logN (part_mem hf rfl) (block_mem hf rfl) ?_
    | with_reducible refine ev_reachLocal (part_mem hf rfl) (part_mem hf rfl) ?_
    | with_reducible refine evo_next ?_
    | with_reducible refine evo_ite (fun _ => ?_) (fun _ => ?_)
    | with_reducible refine ev_ite (fun _ => ?_) (fun _ => ?_)
    | exact reg_block hf .time rfl rfl
    | exact reg_block hf .cmd rfl rfl
    | exact Fin.isLt _
    | omega
    | split
    | dsimp only
    | with_reducible refine ev_time (part_mem hf rfl) ?_

theorem becomeGrandmaster_ev {port : Fin 2} (hf : Foot.le ⟨[.log, .time], [.time, .cmd], false⟩ f) (h : Ev f s x) :
    Ev f s (becomeGrandmaster port x) := by
  unfold becomeGrandmaster
  repeat' first
    | with_reducible exact h
    | with_reducible assumption
    | with_reducible refine takeSource_ev (le_trans' hf rfl) ?_
    | with_reducible refine toTimeState_ev (le_trans' hf rfl) ?_
    | with_reducible refine ev_wr64 ?_ ?_ ?_
    | with_reducible refine ev_logEvent (part_mem hf rfl) (block_mem hf rfl) ?_
    | with_reducible refine ev_ite (fun _ => ?_) (fun _ => ?_)
    | exact reg_block hf .time rfl rfl

theorem followMaster_ev {port : Fin 2} {x0 : Announce} (hf : Foot.le ⟨[.log, .time], [.time, .cmd], false⟩ f) (h : Ev f s x) :
    Ev f s (followMaster port x0 x) := by
  unfold followMaster
  repeat' first
    | with_reducible exact h
    | with_reducible assumption
    | with_reducible refine takeSource_ev (le_trans' hf rfl) ?_
    | with_reducible refine toTimeState_ev (le_trans' hf rfl) ?_
    | with_reducible refine ev_setF ?_ ?_
    | with_reducible refine ev_wr64 ?_ ?_ ?_
    | with_reducible refine ev_logEvent (part_mem hf rfl) (block_mem hf rfl) ?_
    | with_reducible refine ev_whenS (fun hc y hy => ?_) ?_
    | with_reducible refine ev_ite (fun _ => ?_) (fun _ => ?_)
    | exact reg_block hf .time rfl rfl

theorem newMaster_ev {port : Fin 2} {old : Option Announce} {new : Option Announce} (hf : Foot.le ⟨[.time], [], false⟩ f) (h : Ev f s x) :
    Ev f s (newMaster port old new x) := by
  unfold newMaster
  repeat' first
    | with_reducible exact h
    | with_reducible assumption
    | with_reducible refine setServo_ev (le_trans' hf rfl) ?_
    | with_reducible refine ev_whenS (fun hc y hy => ?_) ?_

theorem ptpAnnounce_ev {port : Fin 2} {x0 : Option Announce} (hf : Foot.le ⟨[.log, .time], [.time, .cmd], false⟩ f) (h : Ev f s x) :
    EvO f s (ptpAnnounce port x0 x) := by
  unfold ptpAnnounce
  repeat' first
    | with_reducible exact h
    | with_reducible assumption
    | with_reducible refine becomeGrandmaster_ev (le_trans' hf rfl) ?_
    | with_reducible refine followMaster_ev (le_trans' hf rfl) ?_
    | with_reducible refine newMaster_ev (le_trans' hf rfl) ?_
    | with_reducible refine evo_next ?_
    | with_reducible refine evo_ite (fun _ => ?_) (fun _ => ?_)
    | with_reducible refine ev_ite (fun _ => ?_) (fun _ => ?_)
    | exact Fin.isLt _
    | omega
    | split
    | dsimp only
    | with_reducible refine ev_time (part_mem hf rfl) ?_

theorem execPpsOutPulse_ev (hf : Foot.le ⟨[.tai, .ticks, .time], [], false⟩ f) (h : Ev f s x) :
    EvO f s (execPpsOutPulse x) := by
  unfold execPpsOutPulse
  repeat' first
    | with_reducible exact h
    | with_reducible assumption
    | with_reducible refine ev_advanceTo (part_mem hf rfl) (part_mem hf rfl) ?_
    | with_reducible refine evo_next ?_
    | with_reducible refine evo_ite (fun _ => ?_) (fun _ => ?_)
    | with_reducible refine ev_ite (fun _ => ?_) (fun _ => ?_)
    | exact Fin.isLt _
    | omega
    | split
    | dsimp only
    | with_reducible refine ev_time (part_mem hf rfl) ?_

theorem execRtcLoad_ev (hf : Foot.le ⟨[.pwr], [.pwr], false⟩ f) (h : Ev f s x) :
    EvO f s (execRtcLoad x) := by
  unfold execRtcLoad
  repeat' first
    | with_reducible exact h
    | with_reducible assumption
    | with_reducible refine ev_setF ?_ ?_
    | with_reducible refine ev_wr64 ?_ ?_ ?_
    | with_reducible refine evo_next ?_
    | with_reducible refine evo_ite (fun _ => ?_) (fun _ => ?_)
    | with_reducible refine ev_ite (fun _ => ?_) (fun _ => ?_)
    | exact reg_block hf .pwr rfl rfl
    | exact Fin.isLt _
    | omega
    | split
    | dsimp only
    | with_reducible refine ev_pwr (part_mem hf rfl) ?_

theorem execRefLost_ev {ext : Bool} {offFreq : Bool} (hf : Foot.le ⟨[.log, .time], [.clk, .time, .cmd], false⟩ f) (h : Ev f s x) :
    EvO f s (execRefLost ext offFreq x) := by
  unfold execRefLost
  repeat' first
    | with_reducible exact h
    | with_reducible assumption
    | with_reducible refine coastPll_ev (le_trans' hf rfl) ?_
    | with_reducible refine showRefs_ev (le_trans' hf rfl) ?_
    | with_reducible refine ev_logN (part_mem hf rfl) (block_mem hf rfl) ?_
    | (with_reducible refine ev_forEach_range (fun i hi y hy => ?_) ?_)
    | (with_reducible refine ev_forEach (fun i hi y hy => ?_) ?_)
    | with_reducible refine evo_next ?_
    | with_reducible refine evo_ite (fun _ => ?_) (fun _ => ?_)
    | with_reducible refine ev_ite (fun _ => ?_) (fun _ => ?_)
    | exact reg_block hf .cmd rfl rfl
    | exact Fin.isLt _
    | omega
    | split
    | dsimp only
    | with_reducible refine ev_time (part_mem hf rfl) ?_

theorem execPllCoast_ev {n : Fin 5} (hf : Foot.le ⟨[.log, .time], [.clk, .time, .cmd], false⟩ f) (h : Ev f s x) :
    EvO f s (execPllCoast n x) := by
  unfold execPllCoast
  repeat' first
    | with_reducible exact h
    | with_reducible assumption
    | with_reducible refine coastPll_ev (le_trans' hf rfl) ?_
    | with_reducible refine evo_next ?_

theorem after100ms_ev {t : Option Nat} (hf : Foot.le ⟨[.tai, .ticks], [], false⟩ f) (h : Ev f s x) :
    Ev f s (after100ms t x) := by
  unfold after100ms
  repeat' first
    | with_reducible exact h
    | with_reducible assumption
    | with_reducible refine ev_reachLocal (part_mem hf rfl) (part_mem hf rfl) ?_
    | with_reducible refine ev_ite (fun _ => ?_) (fun _ => ?_)
    | exact Fin.isLt _
    | omega
    | split

theorem execRefRestored_ev {ext : Bool} (hf : Foot.le ⟨[.tai, .ticks, .log, .time], [.clk, .time, .cmd], false⟩ f) (h : Ev f s x) :
    EvO f s (execRefRestored ext x) := by
  unfold execRefRestored
  repeat' first
    | with_reducible exact h
    | with_reducible assumption
    | with_reducible refine after100ms_ev (le_trans' hf rfl) ?_
    | with_reducible refine resumePll_ev (le_trans' hf rfl) ?_
    | with_reducible refine showRefs_ev (le_trans' hf rfl) ?_
    | with_reducible refine ev_logN (part_mem hf rfl) (block_mem hf rfl) ?_
    | with_reducible refine ev_whenS (fun hc y hy => ?_) ?_
    | with_reducible refine evo_next ?_
    | with_reducible refine evo_ite (fun _ => ?_) (fun _ => ?_)
    | with_reducible refine ev_ite (fun _ => ?_) (fun _ => ?_)
    | exact reg_block hf .cmd rfl rfl
    | exact Fin.isLt _
    | omega
    | split
    | dsimp only
    | with_reducible refine ev_time (part_mem hf rfl) ?_

theorem execPllRelocked_ev {n : Fin 5} (hf : Foot.le ⟨[.log, .time], [.clk, .time, .cmd], false⟩ f) (h : Ev f s x) :
    EvO f s (execPllRelocked n x) := by
  unfold execPllRelocked
  repeat' first
    | with_reducible exact h
    | with_reducible assumption
    | with_reducible refine resumePll_ev (le_trans' hf rfl) ?_
    | with_reducible refine ev_logN (part_mem hf rfl) (block_mem hf rfl) ?_
    | with_reducible refine ev_whenS (fun hc y hy => ?_) ?_
    | with_reducible refine evo_next ?_
    | with_reducible refine evo_ite (fun _ => ?_) (fun _ => ?_)

theorem execRefFallback_ev (hf : Foot.le ⟨[.tai, .ticks, .time], [.clk, .time], false⟩ f) (h : Ev f s x) :
    EvO f s (execRefFallback x) := by
  unfold execRefFallback
  repeat' first
    | with_reducible exact h
    | with_reducible assumption
    | with_reducible refine after100ms_ev (le_trans' hf rfl) ?_
    | with_reducible refine resumePll_ev (le_trans' hf rfl) ?_
    | with_reducible refine ev_setF ?_ ?_
    | with_reducible refine evo_next ?_
    | with_reducible refine evo_ite (fun _ => ?_) (fun _ => ?_)
    | with_reducible refine ev_ite (fun _ => ?_) (fun _ => ?_)
    | exact reg_block hf .clk rfl rfl

theorem reachBoundary_ev (hf : Foot.le ⟨[.tai, .ticks, .time], [], false⟩ f) (h : Ev f s x) :
    Ev f s (reachBoundary x) := by
  unfold reachBoundary
  repeat' first
    | with_reducible exact h
    | with_reducible assumption
    | with_reducible refine ev_advanceTo (part_mem hf rfl) (part_mem hf rfl) ?_
    | with_reducible refine ev_ite (fun _ => ?_) (fun _ => ?_)
    | exact Fin.isLt _
    | omega
    | split
    | dsimp only
    | with_reducible refine ev_time (part_mem hf rfl) ?_

end Sys2Proof.Laws
end

