-- ==== Sys2Proof/Laws/EvGate.lean ====
section
/-! SUPPORT. What each change of Machine/Gate.lean can touch, and that it keeps the state sound: one lemma a function. -/

namespace Sys2Proof.Laws

open Sys2Proof Sys2Proof.Machine Sys2Proof.Safety

variable {f : Foot} {s x : State}

theorem setStage_ev {st : Fin 4} {x0 : StageState} (hf : Foot.le ⟨[.loop], [], false⟩ f) (h : Ev f s x) :
    Ev f s (setStage st x0 x) := by
  unfold setStage
  repeat' first
    | with_reducible exact h
    | with_reducible assumption
    | with_reducible refine ev_ite (fun _ => ?_) (fun _ => ?_)
    | exact Fin.isLt _
    | omega
    | split
    | dsimp only
    | with_reducible refine ev_loop (part_mem hf rfl) ?_

theorem setPair_ev {p : Fin 12} {x0 : PairState} (hf : Foot.le ⟨[.loop], [], false⟩ f) (h : Ev f s x) :
    Ev f s (setPair p x0 x) := by
  unfold setPair
  repeat' first
    | with_reducible exact h
    | with_reducible assumption
    | with_reducible refine ev_ite (fun _ => ?_) (fun _ => ?_)
    | exact Fin.isLt _
    | omega
    | split
    | dsimp only
    | with_reducible refine ev_loop (part_mem hf rfl) ?_

theorem pairOff_ev {p : Fin 12} (hf : Foot.le ⟨[.loop], [], false⟩ f) (h : Ev f s x) :
    Ev f s (pairOff p x) := by
  unfold pairOff
  repeat' first
    | with_reducible exact h
    | with_reducible assumption
    | with_reducible refine setPair_ev (le_trans' hf rfl) ?_

theorem stageGatesOff_ev {st : Fin 4} (hf : Foot.le ⟨[.loop], [], false⟩ f) (h : Ev f s x) :
    Ev f s (stageGatesOff st x) := by
  unfold stageGatesOff
  repeat' first
    | with_reducible exact h
    | with_reducible assumption
    | with_reducible refine pairOff_ev (le_trans' hf rfl) ?_
    | (with_reducible refine ev_forEach_range (fun i hi y hy => ?_) ?_)
    | (with_reducible refine ev_forEach (fun i hi y hy => ?_) ?_)

theorem blockStage_ev {code : Nat} {st : Fin 4} (hf : Foot.le ⟨[.loop, .recd], [.pwm], false⟩ f) (h : Ev f s x) :
    Ev f s (blockStage code st x) := by
  unfold blockStage
  repeat' first
    | with_reducible exact h
    | with_reducible assumption
    | with_reducible refine recTrigNow_ev (le_trans' hf rfl) ?_
    | with_reducible refine setStage_ev (le_trans' hf rfl) ?_
    | with_reducible refine stageGatesOff_ev (le_trans' hf rfl) ?_
    | with_reducible refine ev_setFbit ?_ ?_
    | with_reducible refine ev_whenS (fun hc y hy => ?_) ?_
    | with_reducible refine ev_ite (fun _ => ?_) (fun _ => ?_)
    | exact reg_block hf .pwm rfl rfl

theorem showGates_ev (hf : Foot.le ⟨[], [.pwm], false⟩ f) (h : Ev f s x) :
    Ev f s (showGates x) := by
  unfold showGates
  repeat' first
    | with_reducible exact h
    | with_reducible assumption
    | with_reducible refine ev_setF ?_ ?_
    | with_reducible refine ev_ite (fun _ => ?_) (fun _ => ?_)
    | exact reg_block hf .pwm rfl rfl

theorem showPairOff_ev (hf : Foot.le ⟨[], [.pwm], false⟩ f) (h : Ev f s x) :
    Ev f s (showPairOff x) := by
  unfold showPairOff
  repeat' first
    | with_reducible exact h
    | with_reducible assumption
    | with_reducible refine ev_setF ?_ ?_
    | with_reducible refine ev_ite (fun _ => ?_) (fun _ => ?_)
    | exact reg_block hf .pwm rfl rfl

theorem blockStages_ev {code : Nat} {mask : Nat} (hf : Foot.le ⟨[.log, .loop, .recd], [.cmd, .pwm], false⟩ f) (h : Ev f s x) :
    Ev f s (blockStages code mask x) := by
  unfold blockStages
  repeat' first
    | with_reducible exact h
    | with_reducible assumption
    | with_reducible refine blockStage_ev (le_trans' hf rfl) ?_
    | with_reducible refine showGates_ev (le_trans' hf rfl) ?_
    | with_reducible refine showPairOff_ev (le_trans' hf rfl) ?_
    | with_reducible refine ev_logN (part_mem hf rfl) (block_mem hf rfl) ?_
    | (with_reducible refine ev_forEach_range (fun i hi y hy => ?_) ?_)
    | (with_reducible refine ev_forEach (fun i hi y hy => ?_) ?_)
    | with_reducible refine ev_ite (fun _ => ?_) (fun _ => ?_)

theorem setOwner_ev {b : Bool} (hf : Foot.le ⟨[.loop], [.pwm], false⟩ f) (h : Ev f s x) :
    Ev f s (setOwner b x) := by
  unfold setOwner
  repeat' first
    | with_reducible exact h
    | with_reducible assumption
    | with_reducible refine showGates_ev (le_trans' hf rfl) ?_
    | with_reducible refine ev_ite (fun _ => ?_) (fun _ => ?_)
    | exact Fin.isLt _
    | omega
    | split
    | dsimp only
    | with_reducible refine ev_loop (part_mem hf rfl) ?_

theorem releaseHold_ev {n : Fin 8} {fired : Bool} (hf : Foot.le ⟨[.loop], [], false⟩ f) (h : Ev f s x) :
    Ev f s (releaseHold n fired x) := by
  unfold releaseHold
  repeat' first
    | with_reducible exact h
    | with_reducible assumption
    | with_reducible refine setPair_ev (le_trans' hf rfl) ?_
    | (with_reducible refine ev_forEach_range (fun i hi y hy => ?_) ?_)
    | (with_reducible refine ev_forEach (fun i hi y hy => ?_) ?_)
    | with_reducible refine ev_ite (fun _ => ?_) (fun _ => ?_)

theorem clearRequests_ev {st : Fin 4} (hf : Foot.le ⟨[.loop], [.ctrl], false⟩ f) (h : Ev f s x) :
    Ev f s (clearRequests st x) := by
  unfold clearRequests
  repeat' first
    | with_reducible exact h
    | with_reducible assumption
    | with_reducible refine setStage_ev (le_trans' hf rfl) ?_
    | with_reducible refine ev_setF ?_ ?_
    | with_reducible refine ev_ite (fun _ => ?_) (fun _ => ?_)
    | with_reducible refine reg_CTRL_STAGE_CMD hf rfl ?_
    | exact reg_block hf .ctrl rfl rfl
    | exact Fin.isLt _

theorem releaseStage_ev {st : Fin 4} (hf : Foot.le ⟨[.log, .loop], [.ctrl, .cmd, .pwm], false⟩ f) (h : Ev f s x) :
    Ev f s (releaseStage st x) := by
  unfold releaseStage
  repeat' first
    | with_reducible exact h
    | with_reducible assumption
    | with_reducible refine clearRequests_ev (le_trans' hf rfl) ?_
    | with_reducible refine setStage_ev (le_trans' hf rfl) ?_
    | with_reducible refine showGates_ev (le_trans' hf rfl) ?_
    | with_reducible refine showPairOff_ev (le_trans' hf rfl) ?_
    | with_reducible refine ev_setF ?_ ?_
    | with_reducible refine ev_setFbit ?_ ?_
    | with_reducible refine ev_logN (part_mem hf rfl) (block_mem hf rfl) ?_
    | with_reducible refine ev_ite (fun _ => ?_) (fun _ => ?_)
    | exact reg_block hf .cmd rfl rfl
    | exact reg_block hf .pwm rfl rfl

theorem writeGateCtrl_ev {v : Word} (hf : Foot.le ⟨[.log, .loop, .recd], [.ctrl, .cmd, .pwm], false⟩ f) (h : Ev f s x) :
    Ev f s (writeGateCtrl v x) := by
  unfold writeGateCtrl
  repeat' first
    | with_reducible exact h
    | with_reducible assumption
    | with_reducible refine blockStages_ev (le_trans' hf rfl) ?_
    | with_reducible refine releaseStage_ev (le_trans' hf rfl) ?_
    | with_reducible refine showGates_ev (le_trans' hf rfl) ?_
    | with_reducible refine ev_setF ?_ ?_
    | (with_reducible refine ev_forEach_range (fun i hi y hy => ?_) ?_)
    | (with_reducible refine ev_forEach (fun i hi y hy => ?_) ?_)
    | with_reducible refine ev_ite (fun _ => ?_) (fun _ => ?_)
    | exact reg_block hf .pwm rfl rfl

theorem writeGdfCfg_ev {v : Word} (hf : Foot.le ⟨[.loop], [.pwm], false⟩ f) (h : Ev f s x) :
    Ev f s (writeGdfCfg v x) := by
  unfold writeGdfCfg
  repeat' first
    | with_reducible exact h
    | with_reducible assumption
    | with_reducible refine ev_wr ?_ ?_
    | with_reducible refine ev_setF ?_ ?_
    | with_reducible refine ev_ite (fun _ => ?_) (fun _ => ?_)
    | exact reg_block hf .pwm rfl rfl
    | exact Fin.isLt _
    | omega
    | split
    | dsimp only
    | with_reducible refine ev_loop (part_mem hf rfl) ?_

theorem writeGdfStatus_ev {v : Word} (hf : Foot.le ⟨[], [.pwm], false⟩ f) (h : Ev f s x) :
    Ev f s (writeGdfStatus v x) := by
  unfold writeGdfStatus
  repeat' first
    | with_reducible exact h
    | with_reducible assumption
    | with_reducible refine ev_setF ?_ ?_
    | with_reducible refine ev_ite (fun _ => ?_) (fun _ => ?_)
    | exact reg_block hf .pwm rfl rfl

theorem pwmErr_ev (hf : Foot.le ⟨[], [.pwm], false⟩ f) (h : Ev f s x) :
    Ev f s (pwmErr x) := by
  unfold pwmErr
  repeat' first
    | with_reducible exact h
    | with_reducible assumption
    | with_reducible refine ev_setF ?_ ?_
    | with_reducible refine ev_ite (fun _ => ?_) (fun _ => ?_)
    | exact reg_block hf .pwm rfl rfl

theorem stopCarrier_ev {p : Fin 12} (hf : Foot.le ⟨[.loop], [], false⟩ f) (h : Ev f s x) :
    Ev f s (stopCarrier p x) := by
  unfold stopCarrier
  repeat' first
    | with_reducible exact h
    | with_reducible assumption
    | with_reducible refine pairOff_ev (le_trans' hf rfl) ?_
    | with_reducible refine setPair_ev (le_trans' hf rfl) ?_

theorem carrierAble_ev {p : Fin 12} (hf : Foot.le ⟨[.loop], [], false⟩ f) (h : Ev f s x) :
    Ev f s (carrierAble p x) := by
  unfold carrierAble
  repeat' first
    | with_reducible exact h
    | with_reducible assumption
    | with_reducible refine setPair_ev (le_trans' hf rfl) ?_
    | with_reducible refine stopCarrier_ev (le_trans' hf rfl) ?_

theorem settleCarrier_ev {p : Fin 12} {was : Bool} (hf : Foot.le ⟨[.loop], [], false⟩ f) (h : Ev f s x) :
    Ev f s (settleCarrier p was x) := by
  unfold settleCarrier
  repeat' first
    | with_reducible exact h
    | with_reducible assumption
    | with_reducible refine carrierAble_ev (le_trans' hf rfl) ?_
    | with_reducible refine stopCarrier_ev (le_trans' hf rfl) ?_
    | with_reducible refine ev_ite (fun _ => ?_) (fun _ => ?_)

theorem writePairCfg_ev {p : Fin 12} {v : Word} (hf : Foot.le ⟨[.loop], [.pwm], false⟩ f) (h : Ev f s x) :
    Ev f s (writePairCfg p v x) := by
  unfold writePairCfg
  repeat' first
    | with_reducible exact h
    | with_reducible assumption
    | with_reducible refine pairOff_ev (le_trans' hf rfl) ?_
    | with_reducible refine pwmErr_ev (le_trans' hf rfl) ?_
    | with_reducible refine settleCarrier_ev (le_trans' hf rfl) ?_
    | with_reducible refine showPairOff_ev (le_trans' hf rfl) ?_
    | with_reducible refine ev_setF ?_ ?_
    | with_reducible refine ev_ite (fun _ => ?_) (fun _ => ?_)
    | with_reducible refine reg_PWM_PAIR_CFG hf rfl ?_
    | exact reg_block hf .pwm rfl rfl
    | exact Fin.isLt _

theorem writePairPeriod_ev {p : Nat} {v : Word} (hf : Foot.le ⟨[], [.pwm], false⟩ f) (hp : p < 12) (h : Ev f s x) :
    Ev f s (writePairPeriod p v x) := by
  unfold writePairPeriod
  repeat' first
    | with_reducible exact h
    | with_reducible assumption
    | with_reducible refine pwmErr_ev (le_trans' hf rfl) ?_
    | with_reducible refine ev_setF ?_ ?_
    | with_reducible refine ev_ite (fun _ => ?_) (fun _ => ?_)
    | with_reducible refine reg_PWM_PAIR_PERIOD hf rfl ?_

theorem writePairPhase_ev {p : Nat} {v : Word} (hf : Foot.le ⟨[], [.pwm], false⟩ f) (hp : p < 12) (h : Ev f s x) :
    Ev f s (writePairPhase p v x) := by
  unfold writePairPhase
  repeat' first
    | with_reducible exact h
    | with_reducible assumption
    | with_reducible refine pwmErr_ev (le_trans' hf rfl) ?_
    | with_reducible refine ev_setF ?_ ?_
    | with_reducible refine ev_ite (fun _ => ?_) (fun _ => ?_)
    | with_reducible refine reg_PWM_PAIR_PHASE hf rfl ?_

theorem writePairDead_ev {p : Nat} {v : Word} (hf : Foot.le ⟨[], [.pwm], false⟩ f) (hp : p < 12) (h : Ev f s x) :
    Ev f s (writePairDead p v x) := by
  unfold writePairDead
  repeat' first
    | with_reducible exact h
    | with_reducible assumption
    | with_reducible refine pwmErr_ev (le_trans' hf rfl) ?_
    | with_reducible refine ev_wr ?_ ?_
    | with_reducible refine ev_ite (fun _ => ?_) (fun _ => ?_)
    | with_reducible refine reg_PWM_PAIR_DEAD hf rfl ?_

theorem countsAtBoundary_ev (hf : Foot.le ⟨[.loop], [.pwm], false⟩ f) (h : Ev f s x) :
    Ev f s (countsAtBoundary x) := by
  unfold countsAtBoundary
  repeat' first
    | with_reducible exact h
    | with_reducible assumption
    | with_reducible refine setPair_ev (le_trans' hf rfl) ?_
    | with_reducible refine ev_setF ?_ ?_
    | (with_reducible refine ev_forEach_range (fun i hi y hy => ?_) ?_)
    | (with_reducible refine ev_forEach (fun i hi y hy => ?_) ?_)
    | with_reducible refine ev_ite (fun _ => ?_) (fun _ => ?_)
    | with_reducible refine reg_PWM_PAIR_STAT hf rfl ?_
    | exact reg_block hf .pwm rfl rfl
    | exact Fin.isLt _

theorem noteWhy_ev {f0 : StageState → StageState} {mask : Nat} (hf : Foot.le ⟨[.loop], [], false⟩ f) (h : Ev f s x) :
    Ev f s (noteWhy f0 mask x) := by
  unfold noteWhy
  repeat' first
    | with_reducible exact h
    | with_reducible assumption
    | with_reducible refine setStage_ev (le_trans' hf rfl) ?_
    | (with_reducible refine ev_forEach_range (fun i hi y hy => ?_) ?_)
    | (with_reducible refine ev_forEach (fun i hi y hy => ?_) ?_)
    | with_reducible refine ev_ite (fun _ => ?_) (fun _ => ?_)

theorem execHardCmp_ev {n : Fin 16} (hf : Foot.le ⟨[.log, .loop, .recd], [.adc, .cmd, .pwm], false⟩ f) (h : Ev f s x) :
    EvO f s (execHardCmp n x) := by
  unfold execHardCmp
  repeat' first
    | with_reducible exact h
    | with_reducible assumption
    | with_reducible refine blockStages_ev (le_trans' hf rfl) ?_
    | with_reducible refine latchHard_ev (le_trans' hf rfl) ?_
    | with_reducible refine noteWhy_ev (le_trans' hf rfl) ?_
    | with_reducible refine evo_next ?_
    | with_reducible refine evo_ite (fun _ => ?_) (fun _ => ?_)

theorem execHardLiveCleared_ev {n : Fin 16} (hf : Foot.le ⟨[], [.adc, .pwm], false⟩ f) (h : Ev f s x) :
    EvO f s (execHardLiveCleared n x) := by
  unfold execHardLiveCleared
  repeat' first
    | with_reducible exact h
    | with_reducible assumption
    | with_reducible refine showGates_ev (le_trans' hf rfl) ?_
    | with_reducible refine ev_setFbit ?_ ?_
    | with_reducible refine evo_next ?_
    | with_reducible refine evo_ite (fun _ => ?_) (fun _ => ?_)
    | with_reducible refine ev_ite (fun _ => ?_) (fun _ => ?_)
    | exact reg_block hf .adc rfl rfl

theorem execGdfActive_ev {n : Fin 6} (hf : Foot.le ⟨[.log, .loop, .recd], [.cmd, .pwm], false⟩ f) (h : Ev f s x) :
    EvO f s (execGdfActive n x) := by
  unfold execGdfActive
  repeat' first
    | with_reducible exact h
    | with_reducible assumption
    | with_reducible refine blockStages_ev (le_trans' hf rfl) ?_
    | with_reducible refine noteWhy_ev (le_trans' hf rfl) ?_
    | with_reducible refine ev_setFbit ?_ ?_
    | with_reducible refine ev_logN (part_mem hf rfl) (block_mem hf rfl) ?_
    | with_reducible refine ev_whenS (fun hc y hy => ?_) ?_
    | with_reducible refine evo_next ?_
    | with_reducible refine evo_ite (fun _ => ?_) (fun _ => ?_)
    | with_reducible refine ev_ite (fun _ => ?_) (fun _ => ?_)
    | with_reducible refine reg_PWM_GDF_MAP hf rfl ?_
    | exact reg_block hf .cmd rfl rfl
    | exact reg_block hf .pwm rfl rfl
    | exact Fin.isLt _
    | omega
    | split
    | dsimp only
    | with_reducible refine ev_loop (part_mem hf rfl) ?_

theorem execGdfInactive_ev {n : Fin 6} (hf : Foot.le ⟨[.loop], [.pwm], false⟩ f) (h : Ev f s x) :
    EvO f s (execGdfInactive n x) := by
  unfold execGdfInactive
  repeat' first
    | with_reducible exact h
    | with_reducible assumption
    | with_reducible refine ev_setFbit ?_ ?_
    | with_reducible refine evo_next ?_
    | with_reducible refine evo_ite (fun _ => ?_) (fun _ => ?_)
    | with_reducible refine ev_ite (fun _ => ?_) (fun _ => ?_)
    | exact reg_block hf .pwm rfl rfl
    | exact Fin.isLt _
    | omega
    | split
    | dsimp only
    | with_reducible refine ev_loop (part_mem hf rfl) ?_

theorem turnOn_ev {p : Fin 12} {hi : Bool} (hf : Foot.le ⟨[.loop], [], false⟩ f) (h : Ev f s x) :
    Ev f s (turnOn p hi x) := by
  unfold turnOn
  repeat' first
    | with_reducible exact h
    | with_reducible assumption
    | with_reducible refine setPair_ev (le_trans' hf rfl) ?_

theorem commutate_ev {p : Fin 12} {hi : Bool} {drop : Bool} (hf : Foot.le ⟨[.loop], [], false⟩ f) (h : Ev f s x) :
    Ev f s (commutate p hi drop x) := by
  unfold commutate
  repeat' first
    | with_reducible exact h
    | with_reducible assumption
    | with_reducible refine setPair_ev (le_trans' hf rfl) ?_
    | with_reducible refine turnOn_ev (le_trans' hf rfl) ?_
    | with_reducible refine ev_ite (fun _ => ?_) (fun _ => ?_)

theorem hystDecision_ev {p : Fin 12} {hi : Bool} (hf : Foot.le ⟨[.loop], [.pwm], false⟩ f) (h : Ev f s x) :
    Ev f s (hystDecision p hi x) := by
  unfold hystDecision
  repeat' first
    | with_reducible exact h
    | with_reducible assumption
    | with_reducible refine commutate_ev (le_trans' hf rfl) ?_
    | with_reducible refine setPair_ev (le_trans' hf rfl) ?_
    | with_reducible refine ev_bumpSat ?_ ?_
    | with_reducible refine ev_ite (fun _ => ?_) (fun _ => ?_)
    | with_reducible refine reg_PWM_PAIR_STAT hf rfl ?_
    | exact reg_block hf .pwm rfl rfl
    | exact Fin.isLt _

theorem execBandCrossing_ev {n : Fin 16} {upper : Bool} {lower : Bool} (hf : Foot.le ⟨[.adc, .loop], [.pwm], false⟩ f) (h : Ev f s x) :
    EvO f s (execBandCrossing n upper lower x) := by
  unfold execBandCrossing
  repeat' first
    | with_reducible exact h
    | with_reducible assumption
    | with_reducible refine hystDecision_ev (le_trans' hf rfl) ?_
    | (with_reducible refine ev_forEach_range (fun i hi y hy => ?_) ?_)
    | (with_reducible refine ev_forEach (fun i hi y hy => ?_) ?_)
    | with_reducible refine evo_next ?_
    | with_reducible refine evo_ite (fun _ => ?_) (fun _ => ?_)
    | with_reducible refine ev_ite (fun _ => ?_) (fun _ => ?_)
    | exact Fin.isLt _
    | omega
    | split
    | dsimp only
    | with_reducible refine ev_adc (part_mem hf rfl) ?_

theorem execDeadTimeElapsed_ev {p : Fin 12} (hf : Foot.le ⟨[.tai, .ticks, .loop], [], false⟩ f) (h : Ev f s x) :
    EvO f s (execDeadTimeElapsed p x) := by
  unfold execDeadTimeElapsed
  repeat' first
    | with_reducible exact h
    | with_reducible assumption
    | with_reducible refine turnOn_ev (le_trans' hf rfl) ?_
    | with_reducible refine ev_reachTick (part_mem hf rfl) (part_mem hf rfl) ?_
    | with_reducible refine evo_next ?_
    | with_reducible refine evo_ite (fun _ => ?_) (fun _ => ?_)
    | with_reducible refine ev_ite (fun _ => ?_) (fun _ => ?_)
    | exact Fin.isLt _
    | omega
    | split
    | dsimp only

theorem execDeferredDecision_ev {p : Fin 12} (hf : Foot.le ⟨[.tai, .ticks, .loop], [], false⟩ f) (h : Ev f s x) :
    EvO f s (execDeferredDecision p x) := by
  unfold execDeferredDecision
  repeat' first
    | with_reducible exact h
    | with_reducible assumption
    | with_reducible refine commutate_ev (le_trans' hf rfl) ?_
    | with_reducible refine setPair_ev (le_trans' hf rfl) ?_
    | with_reducible refine ev_reachTick (part_mem hf rfl) (part_mem hf rfl) ?_
    | with_reducible refine evo_next ?_
    | with_reducible refine evo_ite (fun _ => ?_) (fun _ => ?_)
    | with_reducible refine ev_ite (fun _ => ?_) (fun _ => ?_)
    | exact Fin.isLt _
    | omega
    | split
    | dsimp only

theorem carrierDecision_ev {p : Fin 12} {hi : Bool} (hf : Foot.le ⟨[.loop], [], false⟩ f) (h : Ev f s x) :
    Ev f s (carrierDecision p hi x) := by
  unfold carrierDecision
  repeat' first
    | with_reducible exact h
    | with_reducible assumption
    | with_reducible refine commutate_ev (le_trans' hf rfl) ?_
    | with_reducible refine ev_ite (fun _ => ?_) (fun _ => ?_)

theorem carriersAfter_ev {before : State} (hf : Foot.le ⟨[.loop], [], false⟩ f) (h : Ev f s x) :
    Ev f s (carriersAfter before x) := by
  unfold carriersAfter
  repeat' first
    | with_reducible exact h
    | with_reducible assumption
    | with_reducible refine settleCarrier_ev (le_trans' hf rfl) ?_
    | (with_reducible refine ev_forEach_range (fun i hi y hy => ?_) ?_)
    | (with_reducible refine ev_forEach (fun i hi y hy => ?_) ?_)

theorem loadCompare_ev {p : Fin 12} (hf : Foot.le ⟨[.loop], [.pwm], false⟩ f) (h : Ev f s x) :
    Ev f s (loadCompare p x) := by
  unfold loadCompare
  repeat' first
    | with_reducible exact h
    | with_reducible assumption
    | with_reducible refine setPair_ev (le_trans' hf rfl) ?_
    | with_reducible refine ev_setF ?_ ?_
    | with_reducible refine ev_ite (fun _ => ?_) (fun _ => ?_)
    | with_reducible refine reg_PWM_PAIR_CMP hf rfl ?_
    | exact reg_block hf .pwm rfl rfl
    | exact Fin.isLt _
    | omega
    | split

theorem pwmEvent_ev {p : Fin 12} {peak : Bool} (hf : Foot.le ⟨[.log, .adc], [.adc, .cmd], false⟩ f) (h : Ev f s x) :
    Ev f s (pwmEvent p peak x) := by
  unfold pwmEvent
  repeat' first
    | with_reducible exact h
    | with_reducible assumption
    | with_reducible refine startEvent_ev (le_trans' hf rfl) ?_
    | (with_reducible refine ev_forEach_range (fun i hi y hy => ?_) ?_)
    | (with_reducible refine ev_forEach (fun i hi y hy => ?_) ?_)
    | with_reducible refine ev_ite (fun _ => ?_) (fun _ => ?_)

theorem reachCarrier_ev {p : Fin 12} {peak : Bool} (hf : Foot.le ⟨[.tai, .ticks, .loop], [], false⟩ f) (h : Ev f s x) :
    Ev f s (reachCarrier p peak x) := by
  unfold reachCarrier
  repeat' first
    | with_reducible exact h
    | with_reducible assumption
    | with_reducible refine setPair_ev (le_trans' hf rfl) ?_
    | with_reducible refine ev_advanceTo (part_mem hf rfl) (part_mem hf rfl) ?_

theorem carrierLoad_ev {p : Fin 12} {peak : Bool} (hf : Foot.le ⟨[.loop], [.pwm], false⟩ f) (h : Ev f s x) :
    Ev f s (carrierLoad p peak x) := by
  unfold carrierLoad
  repeat' first
    | with_reducible exact h
    | with_reducible assumption
    | with_reducible refine carrierDecision_ev (le_trans' hf rfl) ?_
    | with_reducible refine loadCompare_ev (le_trans' hf rfl) ?_
    | with_reducible refine ev_whenS (fun hc y hy => ?_) ?_
    | with_reducible refine ev_ite (fun _ => ?_) (fun _ => ?_)

theorem execCarrierEvent_ev {p : Fin 12} {peak : Bool} (hf : Foot.le ⟨[.tai, .ticks, .log, .adc, .loop], [.adc, .cmd, .pwm], false⟩ f) (h : Ev f s x) :
    EvO f s (execCarrierEvent p peak x) := by
  unfold execCarrierEvent
  repeat' first
    | with_reducible exact h
    | with_reducible assumption
    | with_reducible refine carrierLoad_ev (le_trans' hf rfl) ?_
    | with_reducible refine pwmEvent_ev (le_trans' hf rfl) ?_
    | with_reducible refine reachCarrier_ev (le_trans' hf rfl) ?_
    | with_reducible refine setPair_ev (le_trans' hf rfl) ?_
    | with_reducible refine evo_next ?_
    | with_reducible refine evo_ite (fun _ => ?_) (fun _ => ?_)
    | with_reducible refine ev_ite (fun _ => ?_) (fun _ => ?_)

theorem execCompareMatch_ev {p : Fin 12} {on : Bool} (hf : Foot.le ⟨[.tai, .ticks, .loop], [], false⟩ f) (h : Ev f s x) :
    EvO f s (execCompareMatch p on x) := by
  unfold execCompareMatch
  repeat' first
    | with_reducible exact h
    | with_reducible assumption
    | with_reducible refine carrierDecision_ev (le_trans' hf rfl) ?_
    | with_reducible refine ev_advanceTo (part_mem hf rfl) (part_mem hf rfl) ?_
    | with_reducible refine evo_next ?_
    | with_reducible refine evo_ite (fun _ => ?_) (fun _ => ?_)

end Sys2Proof.Laws
end

