-- ==== Sys2Proof/Laws/EvProt.lean ====
section
/-! SUPPORT. What each change of Machine/Prot.lean can touch, and that it keeps the state sound: one lemma a function. -/

namespace Sys2Proof.Laws

open Sys2Proof Sys2Proof.Machine Sys2Proof.Safety

variable {f : Foot} {s x : State}

theorem setFeeder_ev {f0 : Fin 8} {x0 : FeederState} (hf : Foot.le ⟨[.prot], [], false⟩ f) (h : Ev f s x) :
    Ev f s (setFeeder f0 x0 x) := by
  unfold setFeeder
  repeat' first
    | with_reducible exact h
    | with_reducible assumption
    | with_reducible refine ev_ite (fun _ => ?_) (fun _ => ?_)
    | exact Fin.isLt _
    | omega
    | split
    | dsimp only
    | with_reducible refine ev_prot (part_mem hf rfl) ?_

theorem noteInvalid_ev {f0 : Fin 8} {x0 : PhasorSet} (hf : Foot.le ⟨[.log, .prot], [.prot, .cmd], false⟩ f) (h : Ev f s x) :
    Ev f s (noteInvalid f0 x0 x) := by
  unfold noteInvalid
  repeat' first
    | with_reducible exact h
    | with_reducible assumption
    | with_reducible refine setFeeder_ev (le_trans' hf rfl) ?_
    | with_reducible refine ev_setF ?_ ?_
    | with_reducible refine ev_logN (part_mem hf rfl) (block_mem hf rfl) ?_
    | (with_reducible refine ev_forEach_range (fun i hi y hy => ?_) ?_)
    | (with_reducible refine ev_forEach (fun i hi y hy => ?_) ?_)
    | with_reducible refine ev_whenS (fun hc y hy => ?_) ?_
    | with_reducible refine ev_ite (fun _ => ?_) (fun _ => ?_)
    | with_reducible refine reg_PROT_FDR_STATE hf rfl ?_
    | exact reg_block hf .prot rfl rfl
    | exact reg_block hf .cmd rfl rfl
    | exact Fin.isLt _

theorem showMeas_ev {f0 : Fin 8} {m : FdrMeas} (hf : Foot.le ⟨[], [.prot], false⟩ f) (h : Ev f s x) :
    Ev f s (showMeas f0 m x) := by
  unfold showMeas
  repeat' first
    | with_reducible exact h
    | with_reducible assumption
    | with_reducible refine ev_wr ?_ ?_
    | with_reducible refine ev_ite (fun _ => ?_) (fun _ => ?_)
    | with_reducible refine reg_PROT_MEAS hf rfl ?_ ?_
    | exact reg_block hf .prot rfl rfl
    | exact Fin.isLt _
    | omega

theorem lmdQualify_ev {f0 : Fin 8} {x0 : PhasorSet} (hf : Foot.le ⟨[.prot], [.prot], false⟩ f) (h : Ev f s x) :
    Ev f s (lmdQualify f0 x0 x) := by
  unfold lmdQualify
  repeat' first
    | with_reducible exact h
    | with_reducible assumption
    | with_reducible refine setFeeder_ev (le_trans' hf rfl) ?_
    | with_reducible refine ev_setF ?_ ?_
    | with_reducible refine ev_setFbit ?_ ?_
    | with_reducible refine ev_ite (fun _ => ?_) (fun _ => ?_)
    | with_reducible refine reg_PROT_FDR_STATE hf rfl ?_
    | with_reducible refine reg_PROT_LMD hf rfl ?_
    | exact reg_block hf .prot rfl rfl
    | exact Fin.isLt _

theorem clearFast_ev {f0 : Fin 8} (hf : Foot.le ⟨[.prot], [], false⟩ f) (h : Ev f s x) :
    Ev f s (clearFast f0 x) := by
  unfold clearFast
  repeat' first
    | with_reducible exact h
    | with_reducible assumption
    | with_reducible refine setFeeder_ev (le_trans' hf rfl) ?_

theorem setAcc_ev {f0 : Fin 8} {e : Fin 7} {a : Rat} (hf : Foot.le ⟨[.prot], [], false⟩ f) (h : Ev f s x) :
    Ev f s (setAcc f0 e a x) := by
  unfold setAcc
  repeat' first
    | with_reducible exact h
    | with_reducible assumption
    | with_reducible refine setFeeder_ev (le_trans' hf rfl) ?_

theorem setOp_ev {f0 : Fin 8} {e : Nat} {b : Bool} (hf : Foot.le ⟨[.prot], [], false⟩ f) (h : Ev f s x) :
    Ev f s (setOp f0 e b x) := by
  unfold setOp
  repeat' first
    | with_reducible exact h
    | with_reducible assumption
    | with_reducible refine setFeeder_ev (le_trans' hf rfl) ?_

theorem setStarted_ev {f0 : Fin 8} {e : Fin 13} {b : Bool} (hf : Foot.le ⟨[.prot, .recd], [.prot], false⟩ f) (h : Ev f s x) :
    Ev f s (setStarted f0 e b x) := by
  unfold setStarted
  repeat' first
    | with_reducible exact h
    | with_reducible assumption
    | with_reducible refine recTrigNow_ev (le_trans' hf rfl) ?_
    | with_reducible refine setFeeder_ev (le_trans' hf rfl) ?_
    | with_reducible refine ev_setFbit ?_ ?_
    | with_reducible refine ev_whenS (fun hc y hy => ?_) ?_
    | with_reducible refine ev_ite (fun _ => ?_) (fun _ => ?_)
    | with_reducible refine reg_PROT_FDR_FLAGS hf rfl ?_
    | exact reg_block hf .prot rfl rfl
    | exact Fin.isLt _

theorem holdTimer_ev {f0 : Fin 8} {e : Fin 13} {dt : Nat} (hf : Foot.le ⟨[.prot], [], false⟩ f) (h : Ev f s x) :
    Ev f s (holdTimer f0 e dt x) := by
  unfold holdTimer
  repeat' first
    | with_reducible exact h
    | with_reducible assumption
    | with_reducible refine setFeeder_ev (le_trans' hf rfl) ?_

theorem definiteStep_ev {f0 : Fin 8} {e : Fin 13} {delay : Nat} (hf : Foot.le ⟨[.prot], [], false⟩ f) (h : Ev f s x) :
    Ev f s (definiteStep f0 e delay x) := by
  unfold definiteStep
  repeat' first
    | with_reducible exact h
    | with_reducible assumption
    | with_reducible refine setOp_ev (le_trans' hf rfl) ?_
    | with_reducible refine ev_whenS (fun hc y hy => ?_) ?_
    | with_reducible refine ev_ite (fun _ => ?_) (fun _ => ?_)
    | exact Fin.isLt _
    | omega
    | split

theorem idmtStep_ev {f0 : Fin 8} {e : Fin 7} {m : Rat} {dt : Nat} (hf : Foot.le ⟨[.prot], [], false⟩ f) (h : Ev f s x) :
    Ev f s (idmtStep f0 e m dt x) := by
  unfold idmtStep
  repeat' first
    | with_reducible exact h
    | with_reducible assumption
    | with_reducible refine setAcc_ev (le_trans' hf rfl) ?_
    | with_reducible refine setOp_ev (le_trans' hf rfl) ?_
    | with_reducible refine ev_whenS (fun hc y hy => ?_) ?_
    | with_reducible refine ev_ite (fun _ => ?_) (fun _ => ?_)

theorem ocStep_ev {f0 : Fin 8} {m : FdrMeas} {dt : Nat} {e : Fin 7} (hf : Foot.le ⟨[.prot, .recd], [.prot], false⟩ f) (h : Ev f s x) :
    Ev f s (ocStep f0 m dt e x) := by
  unfold ocStep
  repeat' first
    | with_reducible exact h
    | with_reducible assumption
    | with_reducible refine clearFast_ev (le_trans' hf rfl) ?_
    | with_reducible refine definiteStep_ev (le_trans' hf rfl) ?_
    | with_reducible refine holdTimer_ev (le_trans' hf rfl) ?_
    | with_reducible refine idmtStep_ev (le_trans' hf rfl) ?_
    | with_reducible refine setAcc_ev (le_trans' hf rfl) ?_
    | with_reducible refine setFeeder_ev (le_trans' hf rfl) ?_
    | with_reducible refine setOp_ev (le_trans' hf rfl) ?_
    | with_reducible refine setStarted_ev (le_trans' hf rfl) ?_
    | with_reducible refine ev_ite (fun _ => ?_) (fun _ => ?_)

theorem vfStep_ev {f0 : Fin 8} {m : FdrMeas} {dt : Nat} {v : Fin 4} (hf : Foot.le ⟨[.prot, .recd], [.prot], false⟩ f) (h : Ev f s x) :
    Ev f s (vfStep f0 m dt v x) := by
  unfold vfStep
  repeat' first
    | with_reducible exact h
    | with_reducible assumption
    | with_reducible refine definiteStep_ev (le_trans' hf rfl) ?_
    | with_reducible refine holdTimer_ev (le_trans' hf rfl) ?_
    | with_reducible refine setOp_ev (le_trans' hf rfl) ?_
    | with_reducible refine setStarted_ev (le_trans' hf rfl) ?_
    | with_reducible refine ev_ite (fun _ => ?_) (fun _ => ?_)

theorem elementsStep_ev {f0 : Fin 8} {m : FdrMeas} (hf : Foot.le ⟨[.prot, .recd], [.prot], false⟩ f) (h : Ev f s x) :
    Ev f s (elementsStep f0 m x) := by
  unfold elementsStep
  repeat' first
    | with_reducible exact h
    | with_reducible assumption
    | with_reducible refine ocStep_ev (le_trans' hf rfl) ?_
    | with_reducible refine setFeeder_ev (le_trans' hf rfl) ?_
    | with_reducible refine vfStep_ev (le_trans' hf rfl) ?_
    | (with_reducible refine ev_forEach_range (fun i hi y hy => ?_) ?_)
    | (with_reducible refine ev_forEach (fun i hi y hy => ?_) ?_)

theorem directionStep_ev {f0 : Fin 8} {m : FdrMeas} (hf : Foot.le ⟨[.prot], [.prot], false⟩ f) (h : Ev f s x) :
    Ev f s (directionStep f0 m x) := by
  unfold directionStep
  repeat' first
    | with_reducible exact h
    | with_reducible assumption
    | with_reducible refine setFeeder_ev (le_trans' hf rfl) ?_
    | with_reducible refine ev_setF ?_ ?_
    | with_reducible refine ev_ite (fun _ => ?_) (fun _ => ?_)
    | with_reducible refine reg_PROT_FDR_STATE hf rfl ?_
    | exact reg_block hf .prot rfl rfl
    | exact Fin.isLt _

theorem takeSamples_ev {x0 : PhasorSamples} (hf : Foot.le ⟨[.prot], [], false⟩ f) (h : Ev f s x) :
    Ev f s (takeSamples x0 x) := by
  unfold takeSamples
  repeat' first
    | with_reducible exact h
    | with_reducible assumption
    | with_reducible refine ev_ite (fun _ => ?_) (fun _ => ?_)
    | exact Fin.isLt _
    | omega
    | split
    | dsimp only
    | with_reducible refine ev_prot (part_mem hf rfl) ?_

theorem setLmd_ev {n : Nat} (hf : Foot.le ⟨[], [.prot], false⟩ f) (h : Ev f s x) :
    Ev f s (setLmd n x) := by
  unfold setLmd
  repeat' first
    | with_reducible exact h
    | with_reducible assumption
    | with_reducible refine ev_setF ?_ ?_
    | with_reducible refine ev_ite (fun _ => ?_) (fun _ => ?_)
    | exact reg_block hf .prot rfl rfl

theorem clearQual_ev (hf : Foot.le ⟨[.prot], [.prot], false⟩ f) (h : Ev f s x) :
    Ev f s (clearQual x) := by
  unfold clearQual
  repeat' first
    | with_reducible exact h
    | with_reducible assumption
    | with_reducible refine setFeeder_ev (le_trans' hf rfl) ?_
    | with_reducible refine setOp_ev (le_trans' hf rfl) ?_
    | with_reducible refine ev_setF ?_ ?_
    | (with_reducible refine ev_forEach_range (fun i hi y hy => ?_) ?_)
    | (with_reducible refine ev_forEach (fun i hi y hy => ?_) ?_)
    | with_reducible refine ev_ite (fun _ => ?_) (fun _ => ?_)
    | with_reducible refine reg_PROT_FDR_STATE hf rfl ?_
    | exact reg_block hf .prot rfl rfl
    | exact Fin.isLt _

theorem lmdArm_ev (hf : Foot.le ⟨[.log, .prot], [.prot, .cmd], false⟩ f) (h : Ev f s x) :
    Ev f s (lmdArm x) := by
  unfold lmdArm
  repeat' first
    | with_reducible exact h
    | with_reducible assumption
    | with_reducible refine clearQual_ev (le_trans' hf rfl) ?_
    | with_reducible refine setLmd_ev (le_trans' hf rfl) ?_
    | with_reducible refine ev_logEvent (part_mem hf rfl) (block_mem hf rfl) ?_
    | with_reducible refine ev_ite (fun _ => ?_) (fun _ => ?_)
    | exact reg_block hf .cmd rfl rfl
    | exact Fin.isLt _
    | omega
    | split
    | dsimp only
    | with_reducible refine ev_prot (part_mem hf rfl) ?_

theorem takeSettings_ev (hf : Foot.le ⟨[.prot], [], false⟩ f) (h : Ev f s x) :
    Ev f s (takeSettings x) := by
  unfold takeSettings
  repeat' first
    | with_reducible exact h
    | with_reducible assumption
    | with_reducible refine ev_ite (fun _ => ?_) (fun _ => ?_)
    | exact Fin.isLt _
    | omega
    | split
    | dsimp only
    | with_reducible refine ev_prot (part_mem hf rfl) ?_

theorem lmdTake_ev (hf : Foot.le ⟨[.log, .prot], [.prot, .cmd], false⟩ f) (h : Ev f s x) :
    Ev f s (lmdTake x) := by
  unfold lmdTake
  repeat' first
    | with_reducible exact h
    | with_reducible assumption
    | with_reducible refine setLmd_ev (le_trans' hf rfl) ?_
    | with_reducible refine setOp_ev (le_trans' hf rfl) ?_
    | with_reducible refine ev_setFbit ?_ ?_
    | with_reducible refine ev_logN (part_mem hf rfl) (block_mem hf rfl) ?_
    | (with_reducible refine ev_forEach_range (fun i hi y hy => ?_) ?_)
    | (with_reducible refine ev_forEach (fun i hi y hy => ?_) ?_)
    | with_reducible refine ev_ite (fun _ => ?_) (fun _ => ?_)
    | exact reg_block hf .prot rfl rfl
    | exact reg_block hf .cmd rfl rfl
    | exact Fin.isLt _
    | omega
    | split

theorem busUpdate_ev {x0 : PhasorSet} (hf : Foot.le ⟨[.log, .prot], [.prot, .cmd], false⟩ f) (h : Ev f s x) :
    Ev f s (busUpdate x0 x) := by
  unfold busUpdate
  repeat' first
    | with_reducible exact h
    | with_reducible assumption
    | with_reducible refine ev_setF ?_ ?_
    | with_reducible refine ev_logN (part_mem hf rfl) (block_mem hf rfl) ?_
    | (with_reducible refine ev_forEach_range (fun i hi y hy => ?_) ?_)
    | (with_reducible refine ev_forEach (fun i hi y hy => ?_) ?_)
    | with_reducible refine ev_whenS (fun hc y hy => ?_) ?_
    | with_reducible refine ev_ite (fun _ => ?_) (fun _ => ?_)
    | exact reg_block hf .prot rfl rfl
    | exact reg_block hf .cmd rfl rfl
    | exact Fin.isLt _
    | omega
    | split
    | dsimp only
    | with_reducible refine ev_prot (part_mem hf rfl) ?_

theorem setExcluded_ev {mask : Nat} (hf : Foot.le ⟨[], [.prot], false⟩ f) (h : Ev f s x) :
    Ev f s (setExcluded mask x) := by
  unfold setExcluded
  repeat' first
    | with_reducible exact h
    | with_reducible assumption
    | with_reducible refine ev_setF ?_ ?_
    | (with_reducible refine ev_forEach_range (fun i hi y hy => ?_) ?_)
    | (with_reducible refine ev_forEach (fun i hi y hy => ?_) ?_)
    | with_reducible refine ev_ite (fun _ => ?_) (fun _ => ?_)
    | with_reducible refine reg_PROT_FDR_STATE hf rfl ?_
    | exact reg_block hf .prot rfl rfl
    | exact Fin.isLt _

theorem lmdRearm_ev (hf : Foot.le ⟨[.log, .prot], [.prot, .cmd], false⟩ f) (h : Ev f s x) :
    Ev f s (lmdRearm x) := by
  unfold lmdRearm
  repeat' first
    | with_reducible exact h
    | with_reducible assumption
    | with_reducible refine clearQual_ev (le_trans' hf rfl) ?_
    | with_reducible refine lmdArm_ev (le_trans' hf rfl) ?_
    | with_reducible refine setExcluded_ev (le_trans' hf rfl) ?_
    | with_reducible refine setLmd_ev (le_trans' hf rfl) ?_
    | with_reducible refine ev_wr64 ?_ ?_ ?_
    | with_reducible refine ev_logN (part_mem hf rfl) (block_mem hf rfl) ?_
    | with_reducible refine ev_ite (fun _ => ?_) (fun _ => ?_)
    | exact reg_block hf .prot rfl rfl

theorem setUnit32_ev {g : Fin 2} {x0 : Unit32} (hf : Foot.le ⟨[.prot], [], false⟩ f) (h : Ev f s x) :
    Ev f s (setUnit32 g x0 x) := by
  unfold setUnit32
  repeat' first
    | with_reducible exact h
    | with_reducible assumption
    | with_reducible refine ev_ite (fun _ => ?_) (fun _ => ?_)
    | exact Fin.isLt _
    | omega
    | split
    | dsimp only
    | with_reducible refine ev_prot (part_mem hf rfl) ?_

theorem protErr_ev (hf : Foot.le ⟨[], [.prot], false⟩ f) (h : Ev f s x) :
    Ev f s (protErr x) := by
  unfold protErr
  repeat' first
    | with_reducible exact h
    | with_reducible assumption
    | with_reducible refine ev_setF ?_ ?_
    | with_reducible refine ev_ite (fun _ => ?_) (fun _ => ?_)
    | exact reg_block hf .prot rfl rfl

theorem protWrite_ev {a : Nat} {v : Word} {mask : Word} {ok : Bool} (hf : Foot.le ⟨[], [.prot], false⟩ f) (ha : Foot.reg f a) (h : Ev f s x) :
    Ev f s (protWrite a v mask ok x) := by
  unfold protWrite
  repeat' first
    | with_reducible exact h
    | with_reducible assumption
    | with_reducible refine protErr_ev (le_trans' hf rfl) ?_
    | with_reducible refine ev_wr ?_ ?_
    | with_reducible refine ev_ite (fun _ => ?_) (fun _ => ?_)

theorem writeLmdCfg_ev {v : Word} (hf : Foot.le ⟨[], [.prot], false⟩ f) (h : Ev f s x) :
    Ev f s (writeLmdCfg v x) := by
  unfold writeLmdCfg
  repeat' first
    | with_reducible exact h
    | with_reducible assumption
    | with_reducible refine protWrite_ev (le_trans' hf rfl) ?_ ?_
    | with_reducible refine ev_ite (fun _ => ?_) (fun _ => ?_)
    | exact reg_block hf .prot rfl rfl

theorem write32_ev {g : Fin 2} {v : Word} (hf : Foot.le ⟨[], [.prot], false⟩ f) (h : Ev f s x) :
    Ev f s (write32 g v x) := by
  unfold write32
  repeat' first
    | with_reducible exact h
    | with_reducible assumption
    | with_reducible refine protWrite_ev (le_trans' hf rfl) ?_ ?_
    | with_reducible refine ev_ite (fun _ => ?_) (fun _ => ?_)
    | with_reducible refine reg_PROT_32 hf rfl ?_
    | exact reg_block hf .prot rfl rfl
    | exact Fin.isLt _

theorem writeCurve_ev {u : Fin 4} {k : Nat} {v : Word} (hf : Foot.le ⟨[.prot], [.prot], false⟩ f) (hk : k < 16) (h : Ev f s x) :
    Ev f s (writeCurve u k v x) := by
  unfold writeCurve
  repeat' first
    | with_reducible exact h
    | with_reducible assumption
    | with_reducible refine protErr_ev (le_trans' hf rfl) ?_
    | with_reducible refine ev_wr ?_ ?_
    | with_reducible refine ev_ite (fun _ => ?_) (fun _ => ?_)
    | with_reducible refine reg_PROT_UCURVE hf rfl ?_ ?_
    | exact reg_block hf .prot rfl rfl
    | exact Fin.isLt _
    | omega
    | split
    | dsimp only
    | with_reducible refine ev_prot (part_mem hf rfl) ?_

theorem writeFdrCfg_ev {f0 : Fin 8} {v : Word} (hf : Foot.le ⟨[], [.prot], false⟩ f) (h : Ev f s x) :
    Ev f s (writeFdrCfg f0 v x) := by
  unfold writeFdrCfg
  repeat' first
    | with_reducible exact h
    | with_reducible assumption
    | with_reducible refine protErr_ev (le_trans' hf rfl) ?_
    | with_reducible refine ev_setF ?_ ?_
    | with_reducible refine ev_ite (fun _ => ?_) (fun _ => ?_)
    | with_reducible refine reg_PROT_FDR_CFG hf rfl ?_
    | exact reg_block hf .prot rfl rfl
    | exact Fin.isLt _

theorem writeBkrCfg_ev {f0 : Nat} {v : Word} (hf : Foot.le ⟨[], [.prot], false⟩ f) (hf0 : f0 < 8) (h : Ev f s x) :
    Ev f s (writeBkrCfg f0 v x) := by
  unfold writeBkrCfg
  repeat' first
    | with_reducible exact h
    | with_reducible assumption
    | with_reducible refine protWrite_ev (le_trans' hf rfl) ?_ ?_
    | with_reducible refine ev_ite (fun _ => ?_) (fun _ => ?_)
    | with_reducible refine reg_PROT_BKR_CFG hf rfl ?_

theorem writeTripMap_ev {f0 : Nat} {v : Word} (hf : Foot.le ⟨[], [.prot], false⟩ f) (hf0 : f0 < 8) (h : Ev f s x) :
    Ev f s (writeTripMap f0 v x) := by
  unfold writeTripMap
  repeat' first
    | with_reducible exact h
    | with_reducible assumption
    | with_reducible refine protWrite_ev (le_trans' hf rfl) ?_ ?_
    | with_reducible refine ev_ite (fun _ => ?_) (fun _ => ?_)
    | with_reducible refine reg_PROT_TRIP_MAP hf rfl ?_

theorem writeBfCfg_ev {f0 : Nat} {v : Word} (hf : Foot.le ⟨[], [.prot], false⟩ f) (hf0 : f0 < 8) (h : Ev f s x) :
    Ev f s (writeBfCfg f0 v x) := by
  unfold writeBfCfg
  repeat' first
    | with_reducible exact h
    | with_reducible assumption
    | with_reducible refine protWrite_ev (le_trans' hf rfl) ?_ ?_
    | with_reducible refine ev_ite (fun _ => ?_) (fun _ => ?_)
    | with_reducible refine reg_PROT_BF_CFG hf rfl ?_

theorem writeBfMap_ev {f0 : Nat} {v : Word} (hf : Foot.le ⟨[], [.prot], false⟩ f) (hf0 : f0 < 8) (h : Ev f s x) :
    Ev f s (writeBfMap f0 v x) := by
  unfold writeBfMap
  repeat' first
    | with_reducible exact h
    | with_reducible assumption
    | with_reducible refine protWrite_ev (le_trans' hf rfl) ?_ ?_
    | with_reducible refine ev_ite (fun _ => ?_) (fun _ => ?_)
    | with_reducible refine reg_PROT_BF_MAP hf rfl ?_

theorem writeTc_ev {f0 : Nat} {v : Word} (hf : Foot.le ⟨[], [.prot], false⟩ f) (hf0 : f0 < 8) (h : Ev f s x) :
    Ev f s (writeTc f0 v x) := by
  unfold writeTc
  repeat' first
    | with_reducible exact h
    | with_reducible assumption
    | with_reducible refine protWrite_ev (le_trans' hf rfl) ?_ ?_
    | with_reducible refine ev_ite (fun _ => ?_) (fun _ => ?_)
    | with_reducible refine reg_PROT_TC_CFG hf rfl ?_

theorem writeDir_ev {f0 : Nat} {v : Word} (hf : Foot.le ⟨[], [.prot], false⟩ f) (hf0 : f0 < 8) (h : Ev f s x) :
    Ev f s (writeDir f0 v x) := by
  unfold writeDir
  repeat' first
    | with_reducible exact h
    | with_reducible assumption
    | with_reducible refine protWrite_ev (le_trans' hf rfl) ?_ ?_
    | with_reducible refine ev_ite (fun _ => ?_) (fun _ => ?_)
    | with_reducible refine reg_PROT_DIR hf rfl ?_

theorem writeLmdF_ev {f0 : Nat} {v : Word} (hf : Foot.le ⟨[], [.prot], false⟩ f) (hf0 : f0 < 8) (h : Ev f s x) :
    Ev f s (writeLmdF f0 v x) := by
  unfold writeLmdF
  repeat' first
    | with_reducible exact h
    | with_reducible assumption
    | with_reducible refine protWrite_ev (le_trans' hf rfl) ?_ ?_
    | with_reducible refine ev_ite (fun _ => ?_) (fun _ => ?_)
    | with_reducible refine reg_PROT_LMD hf rfl ?_

theorem writeReach_ev {f0 : Nat} {v : Word} (hf : Foot.le ⟨[], [.prot], false⟩ f) (hf0 : f0 < 8) (h : Ev f s x) :
    Ev f s (writeReach f0 v x) := by
  unfold writeReach
  repeat' first
    | with_reducible exact h
    | with_reducible assumption
    | with_reducible refine protWrite_ev (le_trans' hf rfl) ?_ ?_
    | with_reducible refine ev_ite (fun _ => ?_) (fun _ => ?_)
    | with_reducible refine reg_PROT_LMD_REACH hf rfl ?_

theorem writeTherm_ev {f0 : Fin 8} {v : Word} (hf : Foot.le ⟨[], [.prot], false⟩ f) (h : Ev f s x) :
    Ev f s (writeTherm f0 v x) := by
  unfold writeTherm
  repeat' first
    | with_reducible exact h
    | with_reducible assumption
    | with_reducible refine protErr_ev (le_trans' hf rfl) ?_
    | with_reducible refine ev_wr ?_ ?_
    | with_reducible refine ev_ite (fun _ => ?_) (fun _ => ?_)
    | with_reducible refine reg_PROT_THERM hf rfl ?_
    | exact reg_block hf .prot rfl rfl
    | exact Fin.isLt _

theorem writeOc_ev {f0 : Fin 8} {e : Fin 7} {v : Word} (hf : Foot.le ⟨[], [.prot], false⟩ f) (h : Ev f s x) :
    Ev f s (writeOc f0 e v x) := by
  unfold writeOc
  repeat' first
    | with_reducible exact h
    | with_reducible assumption
    | with_reducible refine protErr_ev (le_trans' hf rfl) ?_
    | with_reducible refine ev_wr ?_ ?_
    | with_reducible refine ev_ite (fun _ => ?_) (fun _ => ?_)
    | with_reducible refine reg_PROT_FDR_CFG hf rfl ?_
    | with_reducible refine reg_PROT_FDR_SCALE hf rfl ?_
    | with_reducible refine reg_PROT_OC hf rfl ?_ ?_
    | exact reg_block hf .prot rfl rfl
    | exact Fin.isLt _

theorem writeOcT_ev {f0 : Fin 8} {e : Fin 7} {v : Word} (hf : Foot.le ⟨[], [.prot], false⟩ f) (h : Ev f s x) :
    Ev f s (writeOcT f0 e v x) := by
  unfold writeOcT
  repeat' first
    | with_reducible exact h
    | with_reducible assumption
    | with_reducible refine protWrite_ev (le_trans' hf rfl) ?_ ?_
    | with_reducible refine ev_ite (fun _ => ?_) (fun _ => ?_)
    | with_reducible refine reg_PROT_OC hf rfl ?_ ?_
    | with_reducible refine reg_PROT_OC_T hf rfl ?_ ?_
    | exact reg_block hf .prot rfl rfl
    | exact Fin.isLt _

theorem writeVf_ev {f0 : Fin 8} {k : Fin 4} {v : Word} (hf : Foot.le ⟨[], [.prot], false⟩ f) (h : Ev f s x) :
    Ev f s (writeVf f0 k v x) := by
  unfold writeVf
  repeat' first
    | with_reducible exact h
    | with_reducible assumption
    | with_reducible refine protErr_ev (le_trans' hf rfl) ?_
    | with_reducible refine ev_wr ?_ ?_
    | with_reducible refine ev_ite (fun _ => ?_) (fun _ => ?_)
    | with_reducible refine reg_PROT_VF hf rfl ?_ ?_
    | exact reg_block hf .prot rfl rfl
    | exact Fin.isLt _

theorem keepForce_ev {a : Nat} {w : Word} (hf : Foot.le ⟨[.prot], [], false⟩ f) (h : Ev f s x) :
    Ev f s (keepForce a w x) := by
  unfold keepForce
  repeat' first
    | with_reducible exact h
    | with_reducible assumption
    | with_reducible refine ev_ite (fun _ => ?_) (fun _ => ?_)
    | exact Fin.isLt _
    | omega
    | split
    | dsimp only
    | with_reducible refine ev_prot (part_mem hf rfl) ?_

theorem lmdLimitEntry_ev {g : Fin 2} (hf : Foot.le ⟨[.log, .prot, .recd], [.prot, .cmd], false⟩ f) (h : Ev f s x) :
    Ev f s (lmdLimitEntry g x) := by
  unfold lmdLimitEntry
  repeat' first
    | with_reducible exact h
    | with_reducible assumption
    | with_reducible refine lmdArm_ev (le_trans' hf rfl) ?_
    | with_reducible refine recTrig_ev (le_trans' hf rfl) ?_
    | with_reducible refine setExcluded_ev (le_trans' hf rfl) ?_
    | with_reducible refine setLmd_ev (le_trans' hf rfl) ?_
    | with_reducible refine ev_setF ?_ ?_
    | with_reducible refine ev_wr64 ?_ ?_ ?_
    | with_reducible refine ev_ite (fun _ => ?_) (fun _ => ?_)
    | exact reg_block hf .prot rfl rfl
    | exact Fin.isLt _
    | omega
    | split
    | dsimp only
    | with_reducible refine ev_prot (part_mem hf rfl) ?_

theorem lmdOnset_ev (hf : Foot.le ⟨[.log, .prot], [.prot, .cmd], false⟩ f) (h : Ev f s x) :
    Ev f s (lmdOnset x) := by
  unfold lmdOnset
  repeat' first
    | with_reducible exact h
    | with_reducible assumption
    | with_reducible refine lmdArm_ev (le_trans' hf rfl) ?_
    | with_reducible refine ev_wr64 ?_ ?_ ?_
    | with_reducible refine ev_ite (fun _ => ?_) (fun _ => ?_)
    | exact reg_block hf .prot rfl rfl

theorem lmdRelease_ev (hf : Foot.le ⟨[.log, .prot], [.prot, .cmd], false⟩ f) (h : Ev f s x) :
    Ev f s (lmdRelease x) := by
  unfold lmdRelease
  repeat' first
    | with_reducible exact h
    | with_reducible assumption
    | with_reducible refine lmdOnset_ev (le_trans' hf rfl) ?_
    | with_reducible refine clearQual_ev (le_trans' hf rfl) ?_
    | with_reducible refine setLmd_ev (le_trans' hf rfl) ?_
    | with_reducible refine ev_logN (part_mem hf rfl) (block_mem hf rfl) ?_
    | with_reducible refine ev_whenS (fun hc y hy => ?_) ?_
    | with_reducible refine ev_ite (fun _ => ?_) (fun _ => ?_)

theorem execFreqTrack_ev {f0 : BitVec 16} (hf : Foot.le ⟨[.prot], [.prot], false⟩ f) (h : Ev f s x) :
    EvO f s (execFreqTrack f0 x) := by
  unfold execFreqTrack
  repeat' first
    | with_reducible exact h
    | with_reducible assumption
    | with_reducible refine ev_setF ?_ ?_
    | with_reducible refine evo_next ?_
    | with_reducible refine evo_ite (fun _ => ?_) (fun _ => ?_)
    | with_reducible refine ev_ite (fun _ => ?_) (fun _ => ?_)
    | exact reg_block hf .prot rfl rfl
    | exact Fin.isLt _
    | omega
    | split
    | dsimp only
    | with_reducible refine ev_prot (part_mem hf rfl) ?_

theorem showTheta_ev {f0 : Fin 8} (hf : Foot.le ⟨[], [.prot], false⟩ f) (h : Ev f s x) :
    Ev f s (showTheta f0 x) := by
  unfold showTheta
  repeat' first
    | with_reducible exact h
    | with_reducible assumption
    | with_reducible refine ev_setF ?_ ?_
    | with_reducible refine ev_ite (fun _ => ?_) (fun _ => ?_)
    | with_reducible refine reg_PROT_THERM_STATE hf rfl ?_
    | exact reg_block hf .prot rfl rfl
    | exact Fin.isLt _

theorem thermAlarm_ev {f0 : Fin 8} (hf : Foot.le ⟨[.log], [.prot, .cmd], false⟩ f) (h : Ev f s x) :
    Ev f s (thermAlarm f0 x) := by
  unfold thermAlarm
  repeat' first
    | with_reducible exact h
    | with_reducible assumption
    | with_reducible refine showTheta_ev (le_trans' hf rfl) ?_
    | with_reducible refine ev_setF ?_ ?_
    | with_reducible refine ev_logN (part_mem hf rfl) (block_mem hf rfl) ?_
    | with_reducible refine ev_whenS (fun hc y hy => ?_) ?_
    | with_reducible refine ev_ite (fun _ => ?_) (fun _ => ?_)
    | with_reducible refine reg_PROT_THERM hf rfl ?_
    | with_reducible refine reg_PROT_THERM_STATE hf rfl ?_
    | exact reg_block hf .prot rfl rfl
    | exact reg_block hf .cmd rfl rfl
    | exact Fin.isLt _

theorem reachThermal_ev {f0 : Fin 8} (hf : Foot.le ⟨[.tai, .ticks, .prot], [], false⟩ f) (h : Ev f s x) :
    Ev f s (reachThermal f0 x) := by
  unfold reachThermal
  repeat' first
    | with_reducible exact h
    | with_reducible assumption
    | with_reducible refine setFeeder_ev (le_trans' hf rfl) ?_
    | with_reducible refine ev_reachLocal (part_mem hf rfl) (part_mem hf rfl) ?_
    | with_reducible refine ev_ite (fun _ => ?_) (fun _ => ?_)
    | exact Fin.isLt _
    | omega
    | split

theorem execThermalUpdate_ev {f0 : Fin 8} (hf : Foot.le ⟨[.tai, .ticks, .log, .prot, .recd], [.prot, .cmd], false⟩ f) (h : Ev f s x) :
    EvO f s (execThermalUpdate f0 x) := by
  unfold execThermalUpdate
  repeat' first
    | with_reducible exact h
    | with_reducible assumption
    | with_reducible refine reachThermal_ev (le_trans' hf rfl) ?_
    | with_reducible refine setFeeder_ev (le_trans' hf rfl) ?_
    | with_reducible refine setOp_ev (le_trans' hf rfl) ?_
    | with_reducible refine setStarted_ev (le_trans' hf rfl) ?_
    | with_reducible refine thermAlarm_ev (le_trans' hf rfl) ?_
    | with_reducible refine evo_next ?_
    | with_reducible refine evo_ite (fun _ => ?_) (fun _ => ?_)

theorem thermalSave_ev (hf : Foot.le ⟨[.prot], [], false⟩ f) (h : Ev f s x) :
    Ev f s (thermalSave x) := by
  unfold thermalSave
  repeat' first
    | with_reducible exact h
    | with_reducible assumption
    | with_reducible refine setFeeder_ev (le_trans' hf rfl) ?_
    | (with_reducible refine ev_forEach_range (fun i hi y hy => ?_) ?_)
    | (with_reducible refine ev_forEach (fun i hi y hy => ?_) ?_)

theorem execThermalSave_ev (hf : Foot.le ⟨[.tai, .ticks, .prot], [], false⟩ f) (h : Ev f s x) :
    EvO f s (execThermalSave x) := by
  unfold execThermalSave
  repeat' first
    | with_reducible exact h
    | with_reducible assumption
    | with_reducible refine thermalSave_ev (le_trans' hf rfl) ?_
    | with_reducible refine ev_reachLocal (part_mem hf rfl) (part_mem hf rfl) ?_
    | with_reducible refine evo_next ?_
    | with_reducible refine evo_ite (fun _ => ?_) (fun _ => ?_)
    | with_reducible refine ev_ite (fun _ => ?_) (fun _ => ?_)
    | exact Fin.isLt _
    | omega
    | split
    | dsimp only
    | with_reducible refine ev_prot (part_mem hf rfl) ?_

theorem thermalRestore_ev (hf : Foot.le ⟨[.log, .prot], [.prot, .cmd], false⟩ f) (h : Ev f s x) :
    Ev f s (thermalRestore x) := by
  unfold thermalRestore
  repeat' first
    | with_reducible exact h
    | with_reducible assumption
    | with_reducible refine setFeeder_ev (le_trans' hf rfl) ?_
    | with_reducible refine thermAlarm_ev (le_trans' hf rfl) ?_
    | (with_reducible refine ev_forEach_range (fun i hi y hy => ?_) ?_)
    | (with_reducible refine ev_forEach (fun i hi y hy => ?_) ?_)

theorem execLmdArmed_ev (hf : Foot.le ⟨[.tai, .ticks, .log, .prot], [.prot, .cmd], false⟩ f) (h : Ev f s x) :
    EvO f s (execLmdArmed x) := by
  unfold execLmdArmed
  repeat' first
    | with_reducible exact h
    | with_reducible assumption
    | with_reducible refine lmdArm_ev (le_trans' hf rfl) ?_
    | with_reducible refine ev_reachNs (part_mem hf rfl) (part_mem hf rfl) ?_
    | with_reducible refine evo_next ?_
    | with_reducible refine evo_ite (fun _ => ?_) (fun _ => ?_)

theorem execLmdNoFeeder_ev (hf : Foot.le ⟨[.tai, .ticks, .log, .prot], [.cmd], false⟩ f) (h : Ev f s x) :
    EvO f s (execLmdNoFeeder x) := by
  unfold execLmdNoFeeder
  repeat' first
    | with_reducible exact h
    | with_reducible assumption
    | with_reducible refine ev_logN (part_mem hf rfl) (block_mem hf rfl) ?_
    | with_reducible refine ev_reachNs (part_mem hf rfl) (part_mem hf rfl) ?_
    | with_reducible refine evo_next ?_
    | with_reducible refine evo_ite (fun _ => ?_) (fun _ => ?_)
    | with_reducible refine ev_ite (fun _ => ?_) (fun _ => ?_)
    | exact reg_block hf .cmd rfl rfl
    | exact Fin.isLt _
    | omega
    | split
    | dsimp only
    | with_reducible refine ev_prot (part_mem hf rfl) ?_

theorem unit32Step_ev {g : Fin 2} (hf : Foot.le ⟨[.prot], [], false⟩ f) (h : Ev f s x) :
    Ev f s (unit32Step g x) := by
  unfold unit32Step
  repeat' first
    | with_reducible exact h
    | with_reducible assumption
    | with_reducible refine setUnit32_ev (le_trans' hf rfl) ?_
    | with_reducible refine ev_ite (fun _ => ?_) (fun _ => ?_)

end Sys2Proof.Laws
end

