-- ==== Sys2Proof/Laws/EvBreaker.lean ====
section
/-! SUPPORT. What each change of Machine/Breaker.lean can touch, and that it keeps the state sound: one lemma a function. -/

namespace Sys2Proof.Laws

open Sys2Proof Sys2Proof.Machine Sys2Proof.Safety

variable {f : Foot} {s x : State}

theorem statusStep_ev {f0 : Fin 8} (hf : Foot.le ⟨[.log, .prot], [.prot, .cmd], false⟩ f) (h : Ev f s x) :
    Ev f s (statusStep f0 x) := by
  unfold statusStep
  repeat' first
    | with_reducible exact h
    | with_reducible assumption
    | with_reducible refine setFeeder_ev (le_trans' hf rfl) ?_
    | with_reducible refine ev_setF ?_ ?_
    | with_reducible refine ev_logN (part_mem hf rfl) (block_mem hf rfl) ?_
    | with_reducible refine ev_whenS (fun hc y hy => ?_) ?_
    | with_reducible refine ev_ite (fun _ => ?_) (fun _ => ?_)
    | with_reducible refine reg_PROT_FDR_STATE hf rfl ?_
    | exact reg_block hf .prot rfl rfl
    | exact reg_block hf .cmd rfl rfl
    | exact Fin.isLt _

theorem refreshLines_ev (hf : Foot.le ⟨[.loop], [], false⟩ f) (h : Ev f s x) :
    Ev f s (refreshLines x) := by
  unfold refreshLines
  repeat' first
    | with_reducible exact h
    | with_reducible assumption
    | with_reducible refine setStage_ev (le_trans' hf rfl) ?_
    | (with_reducible refine ev_forEach_range (fun i hi y hy => ?_) ?_)
    | (with_reducible refine ev_forEach (fun i hi y hy => ?_) ?_)

theorem setBkr_ev {f0 : Fin 8} {n : Nat} (hf : Foot.le ⟨[], [.prot], false⟩ f) (h : Ev f s x) :
    Ev f s (setBkr f0 n x) := by
  unfold setBkr
  repeat' first
    | with_reducible exact h
    | with_reducible assumption
    | with_reducible refine ev_setF ?_ ?_
    | with_reducible refine ev_ite (fun _ => ?_) (fun _ => ?_)
    | with_reducible refine reg_PROT_FDR_STATE hf rfl ?_
    | exact reg_block hf .prot rfl rfl
    | exact Fin.isLt _

theorem setTripCmd_ev {f0 : Fin 8} {b : Bool} (hf : Foot.le ⟨[], [.prot], false⟩ f) (h : Ev f s x) :
    Ev f s (setTripCmd f0 b x) := by
  unfold setTripCmd
  repeat' first
    | with_reducible exact h
    | with_reducible assumption
    | with_reducible refine ev_setF ?_ ?_
    | with_reducible refine ev_setFbit ?_ ?_
    | with_reducible refine ev_ite (fun _ => ?_) (fun _ => ?_)
    | with_reducible refine reg_PROT_FDR_STATE hf rfl ?_
    | exact reg_block hf .prot rfl rfl
    | exact Fin.isLt _

theorem issueTrip_ev {f0 : Fin 8} {mask : Nat} (hf : Foot.le ⟨[.log, .prot, .recd], [.prot, .cmd], false⟩ f) (h : Ev f s x) :
    Ev f s (issueTrip f0 mask x) := by
  unfold issueTrip
  repeat' first
    | with_reducible exact h
    | with_reducible assumption
    | with_reducible refine recTrigNow_ev (le_trans' hf rfl) ?_
    | with_reducible refine setFeeder_ev (le_trans' hf rfl) ?_
    | with_reducible refine setTripCmd_ev (le_trans' hf rfl) ?_
    | with_reducible refine ev_bumpSat ?_ ?_
    | with_reducible refine ev_wr64 ?_ ?_ ?_
    | with_reducible refine ev_logN (part_mem hf rfl) (block_mem hf rfl) ?_
    | with_reducible refine ev_whenS (fun hc y hy => ?_) ?_
    | with_reducible refine ev_ite (fun _ => ?_) (fun _ => ?_)
    | with_reducible refine reg_PROT_FDR_COUNT hf rfl ?_
    | with_reducible refine reg_PROT_TRIP_TIME hf rfl ?_
    | with_reducible refine reg_PROT_TRIP_TIME_hi hf rfl ?_
    | exact reg_block hf .prot rfl rfl
    | exact reg_block hf .cmd rfl rfl
    | exact Fin.isLt _

theorem bfOperate_ev {f0 : Fin 8} (hf : Foot.le ⟨[.log, .loop, .prot, .recd], [.prot, .cmd, .pwm], false⟩ f) (h : Ev f s x) :
    Ev f s (bfOperate f0 x) := by
  unfold bfOperate
  repeat' first
    | with_reducible exact h
    | with_reducible assumption
    | with_reducible refine blockStages_ev (le_trans' hf rfl) ?_
    | with_reducible refine refreshLines_ev (le_trans' hf rfl) ?_
    | with_reducible refine setBkr_ev (le_trans' hf rfl) ?_
    | with_reducible refine setFeeder_ev (le_trans' hf rfl) ?_
    | with_reducible refine ev_setFbit ?_ ?_
    | with_reducible refine ev_bumpSat ?_ ?_
    | with_reducible refine ev_logN (part_mem hf rfl) (block_mem hf rfl) ?_
    | with_reducible refine ev_ite (fun _ => ?_) (fun _ => ?_)
    | with_reducible refine reg_PROT_BF_CFG hf rfl ?_
    | with_reducible refine reg_PROT_BF_MAP hf rfl ?_
    | with_reducible refine reg_PROT_FDR_COUNT hf rfl ?_
    | with_reducible refine reg_PROT_FDR_FLAGS hf rfl ?_
    | exact reg_block hf .prot rfl rfl
    | exact reg_block hf .cmd rfl rfl
    | exact Fin.isLt _

theorem rowUnknown_ev {f0 : Fin 8} (hf : Foot.le ⟨[.prot], [.prot], false⟩ f) (h : Ev f s x) :
    Ev f s (rowUnknown f0 x) := by
  unfold rowUnknown
  repeat' first
    | with_reducible exact h
    | with_reducible assumption
    | with_reducible refine setBkr_ev (le_trans' hf rfl) ?_
    | with_reducible refine setFeeder_ev (le_trans' hf rfl) ?_
    | with_reducible refine ev_ite (fun _ => ?_) (fun _ => ?_)

theorem rowIssued_ev {f0 : Fin 8} (hf : Foot.le ⟨[.log, .loop, .prot, .recd], [.prot, .cmd, .pwm], false⟩ f) (h : Ev f s x) :
    Ev f s (rowIssued f0 x) := by
  unfold rowIssued
  repeat' first
    | with_reducible exact h
    | with_reducible assumption
    | with_reducible refine bfOperate_ev (le_trans' hf rfl) ?_
    | with_reducible refine setBkr_ev (le_trans' hf rfl) ?_
    | with_reducible refine setFeeder_ev (le_trans' hf rfl) ?_
    | with_reducible refine ev_ite (fun _ => ?_) (fun _ => ?_)

theorem rowRetrip_ev {f0 : Fin 8} (hf : Foot.le ⟨[.log, .prot], [.cmd], false⟩ f) (h : Ev f s x) :
    Ev f s (rowRetrip f0 x) := by
  unfold rowRetrip
  repeat' first
    | with_reducible exact h
    | with_reducible assumption
    | with_reducible refine setFeeder_ev (le_trans' hf rfl) ?_
    | with_reducible refine ev_logN (part_mem hf rfl) (block_mem hf rfl) ?_
    | with_reducible refine ev_ite (fun _ => ?_) (fun _ => ?_)

theorem rowOpened_ev {f0 : Fin 8} (hf : Foot.le ⟨[.log, .prot], [.prot, .cmd], false⟩ f) (h : Ev f s x) :
    Ev f s (rowOpened f0 x) := by
  unfold rowOpened
  repeat' first
    | with_reducible exact h
    | with_reducible assumption
    | with_reducible refine setBkr_ev (le_trans' hf rfl) ?_
    | with_reducible refine setFeeder_ev (le_trans' hf rfl) ?_
    | with_reducible refine ev_logN (part_mem hf rfl) (block_mem hf rfl) ?_
    | with_reducible refine ev_ite (fun _ => ?_) (fun _ => ?_)

theorem rowFail_ev {f0 : Fin 8} (hf : Foot.le ⟨[.log, .loop, .prot, .recd], [.prot, .cmd, .pwm], false⟩ f) (h : Ev f s x) :
    Ev f s (rowFail f0 x) := by
  unfold rowFail
  repeat' first
    | with_reducible exact h
    | with_reducible assumption
    | with_reducible refine bfOperate_ev (le_trans' hf rfl) ?_
    | with_reducible refine ev_ite (fun _ => ?_) (fun _ => ?_)

theorem rowOpenClosed_ev {f0 : Fin 8} (hf : Foot.le ⟨[.log, .prot], [.prot, .cmd], false⟩ f) (h : Ev f s x) :
    Ev f s (rowOpenClosed f0 x) := by
  unfold rowOpenClosed
  repeat' first
    | with_reducible exact h
    | with_reducible assumption
    | with_reducible refine setBkr_ev (le_trans' hf rfl) ?_
    | with_reducible refine setFeeder_ev (le_trans' hf rfl) ?_
    | with_reducible refine ev_logN (part_mem hf rfl) (block_mem hf rfl) ?_
    | with_reducible refine ev_ite (fun _ => ?_) (fun _ => ?_)

theorem rowDiscrepancy_ev {f0 : Fin 8} (hf : Foot.le ⟨[.log, .prot], [.prot, .cmd], false⟩ f) (h : Ev f s x) :
    Ev f s (rowDiscrepancy f0 x) := by
  unfold rowDiscrepancy
  repeat' first
    | with_reducible exact h
    | with_reducible assumption
    | with_reducible refine setFeeder_ev (le_trans' hf rfl) ?_
    | with_reducible refine ev_setF ?_ ?_
    | with_reducible refine ev_logN (part_mem hf rfl) (block_mem hf rfl) ?_
    | with_reducible refine ev_whenS (fun hc y hy => ?_) ?_
    | with_reducible refine ev_ite (fun _ => ?_) (fun _ => ?_)
    | with_reducible refine reg_PROT_FDR_STATE hf rfl ?_
    | exact reg_block hf .prot rfl rfl
    | exact reg_block hf .cmd rfl rfl
    | exact Fin.isLt _

theorem endCommands_ev {f0 : Fin 8} (hf : Foot.le ⟨[.loop, .prot], [.prot], false⟩ f) (h : Ev f s x) :
    Ev f s (endCommands f0 x) := by
  unfold endCommands
  repeat' first
    | with_reducible exact h
    | with_reducible assumption
    | with_reducible refine refreshLines_ev (le_trans' hf rfl) ?_
    | with_reducible refine setFeeder_ev (le_trans' hf rfl) ?_
    | with_reducible refine setTripCmd_ev (le_trans' hf rfl) ?_
    | with_reducible refine ev_ite (fun _ => ?_) (fun _ => ?_)
    | exact Fin.isLt _
    | omega
    | split
    | dsimp only

theorem breakerMachine_ev {f0 : Fin 8} {issued : Bool} (hf : Foot.le ⟨[.log, .loop, .prot, .recd], [.prot, .cmd, .pwm], false⟩ f) (h : Ev f s x) :
    Ev f s (breakerMachine f0 issued x) := by
  unfold breakerMachine
  repeat' first
    | with_reducible exact h
    | with_reducible assumption
    | with_reducible refine endCommands_ev (le_trans' hf rfl) ?_
    | with_reducible refine rowDiscrepancy_ev (le_trans' hf rfl) ?_
    | with_reducible refine rowFail_ev (le_trans' hf rfl) ?_
    | with_reducible refine rowIssued_ev (le_trans' hf rfl) ?_
    | with_reducible refine rowOpenClosed_ev (le_trans' hf rfl) ?_
    | with_reducible refine rowOpened_ev (le_trans' hf rfl) ?_
    | with_reducible refine rowRetrip_ev (le_trans' hf rfl) ?_
    | with_reducible refine rowUnknown_ev (le_trans' hf rfl) ?_
    | with_reducible refine ev_whenS (fun hc y hy => ?_) ?_
    | with_reducible refine ev_ite (fun _ => ?_) (fun _ => ?_)

theorem setTcAlarm_ev {f0 : Fin 8} {b : Bool} (hf : Foot.le ⟨[.log], [.prot, .cmd], false⟩ f) (h : Ev f s x) :
    Ev f s (setTcAlarm f0 b x) := by
  unfold setTcAlarm
  repeat' first
    | with_reducible exact h
    | with_reducible assumption
    | with_reducible refine ev_setF ?_ ?_
    | with_reducible refine ev_setFbit ?_ ?_
    | with_reducible refine ev_logN (part_mem hf rfl) (block_mem hf rfl) ?_
    | with_reducible refine ev_ite (fun _ => ?_) (fun _ => ?_)
    | with_reducible refine reg_PROT_FDR_FLAGS hf rfl ?_
    | with_reducible refine reg_PROT_FDR_STATE hf rfl ?_
    | with_reducible refine reg_PROT_TC_CFG hf rfl ?_
    | exact reg_block hf .prot rfl rfl
    | exact reg_block hf .cmd rfl rfl
    | exact Fin.isLt _

theorem tcStep_ev {f0 : Fin 8} (hf : Foot.le ⟨[.log, .prot], [.prot, .cmd], false⟩ f) (h : Ev f s x) :
    Ev f s (tcStep f0 x) := by
  unfold tcStep
  repeat' first
    | with_reducible exact h
    | with_reducible assumption
    | with_reducible refine setFeeder_ev (le_trans' hf rfl) ?_
    | with_reducible refine setTcAlarm_ev (le_trans' hf rfl) ?_
    | with_reducible refine ev_whenS (fun hc y hy => ?_) ?_
    | with_reducible refine ev_ite (fun _ => ?_) (fun _ => ?_)
    | exact Fin.isLt _
    | omega
    | split

theorem feederFirst_ev {x0 : PhasorSet} {f0 : Fin 8} (hf : Foot.le ⟨[.log, .prot, .recd], [.prot, .cmd], false⟩ f) (h : Ev f s x) :
    Ev f s (feederFirst x0 f0 x) := by
  unfold feederFirst
  repeat' first
    | with_reducible exact h
    | with_reducible assumption
    | with_reducible refine directionStep_ev (le_trans' hf rfl) ?_
    | with_reducible refine elementsStep_ev (le_trans' hf rfl) ?_
    | with_reducible refine lmdQualify_ev (le_trans' hf rfl) ?_
    | with_reducible refine noteInvalid_ev (le_trans' hf rfl) ?_
    | with_reducible refine setFeeder_ev (le_trans' hf rfl) ?_
    | with_reducible refine showMeas_ev (le_trans' hf rfl) ?_
    | with_reducible refine statusStep_ev (le_trans' hf rfl) ?_
    | with_reducible refine ev_ite (fun _ => ?_) (fun _ => ?_)

theorem noteOperated_ev {f0 : Fin 8} {mask : Nat} (hf : Foot.le ⟨[.log], [.prot, .cmd], false⟩ f) (h : Ev f s x) :
    Ev f s (noteOperated f0 mask x) := by
  unfold noteOperated
  repeat' first
    | with_reducible exact h
    | with_reducible assumption
    | with_reducible refine ev_setFbit ?_ ?_
    | with_reducible refine ev_logN (part_mem hf rfl) (block_mem hf rfl) ?_
    | (with_reducible refine ev_forEach_range (fun i hi y hy => ?_) ?_)
    | (with_reducible refine ev_forEach (fun i hi y hy => ?_) ?_)
    | with_reducible refine ev_ite (fun _ => ?_) (fun _ => ?_)
    | with_reducible refine reg_PROT_FDR_FLAGS hf rfl ?_
    | exact reg_block hf .prot rfl rfl
    | exact reg_block hf .cmd rfl rfl
    | exact Fin.isLt _

theorem feederSecond_ev {f0 : Fin 8} (hf : Foot.le ⟨[.log, .loop, .prot, .recd], [.prot, .cmd, .pwm], false⟩ f) (h : Ev f s x) :
    Ev f s (feederSecond f0 x) := by
  unfold feederSecond
  repeat' first
    | with_reducible exact h
    | with_reducible assumption
    | with_reducible refine breakerMachine_ev (le_trans' hf rfl) ?_
    | with_reducible refine issueTrip_ev (le_trans' hf rfl) ?_
    | with_reducible refine noteOperated_ev (le_trans' hf rfl) ?_
    | with_reducible refine setFeeder_ev (le_trans' hf rfl) ?_
    | with_reducible refine tcStep_ev (le_trans' hf rfl) ?_
    | with_reducible refine ev_whenS (fun hc y hy => ?_) ?_
    | with_reducible refine ev_ite (fun _ => ?_) (fun _ => ?_)

theorem execPhasorUpdate_ev {t : BitVec 64} {x0 : PhasorSamples} (hf : Foot.le ⟨[.tai, .ticks, .log, .loop, .prot, .recd], [.prot, .cmd, .pwm], false⟩ f) (h : Ev f s x) :
    EvO f s (execPhasorUpdate t x0 x) := by
  unfold execPhasorUpdate
  repeat' first
    | with_reducible exact h
    | with_reducible assumption
    | with_reducible refine busUpdate_ev (le_trans' hf rfl) ?_
    | with_reducible refine feederFirst_ev (le_trans' hf rfl) ?_
    | with_reducible refine feederSecond_ev (le_trans' hf rfl) ?_
    | with_reducible refine lmdArm_ev (le_trans' hf rfl) ?_
    | with_reducible refine lmdRearm_ev (le_trans' hf rfl) ?_
    | with_reducible refine lmdTake_ev (le_trans' hf rfl) ?_
    | with_reducible refine refreshLines_ev (le_trans' hf rfl) ?_
    | with_reducible refine takeSamples_ev (le_trans' hf rfl) ?_
    | with_reducible refine takeSettings_ev (le_trans' hf rfl) ?_
    | with_reducible refine ev_reachNs (part_mem hf rfl) (part_mem hf rfl) ?_
    | (with_reducible refine ev_forEach_range (fun i hi y hy => ?_) ?_)
    | (with_reducible refine ev_forEach (fun i hi y hy => ?_) ?_)
    | with_reducible refine evo_next ?_

theorem execProtOperate_ev {f0 : Fin 8} {e : Fin 7} {t : BitVec 64} (hf : Foot.le ⟨[.tai, .ticks, .log, .loop, .prot, .recd], [.prot, .cmd, .pwm], false⟩ f) (h : Ev f s x) :
    EvO f s (execProtOperate f0 e t x) := by
  unfold execProtOperate
  repeat' first
    | with_reducible exact h
    | with_reducible assumption
    | with_reducible refine definiteStep_ev (le_trans' hf rfl) ?_
    | with_reducible refine feederSecond_ev (le_trans' hf rfl) ?_
    | with_reducible refine idmtStep_ev (le_trans' hf rfl) ?_
    | with_reducible refine setFeeder_ev (le_trans' hf rfl) ?_
    | with_reducible refine ev_reachNs (part_mem hf rfl) (part_mem hf rfl) ?_
    | with_reducible refine evo_next ?_
    | with_reducible refine evo_ite (fun _ => ?_) (fun _ => ?_)
    | with_reducible refine ev_ite (fun _ => ?_) (fun _ => ?_)

theorem execFast50p_ev {f0 : Fin 8} {p : Fin 3} {q : BitVec 16} {usable : Bool} (hf : Foot.le ⟨[.log, .loop, .prot, .recd], [.prot, .cmd, .pwm], false⟩ f) (h : Ev f s x) :
    EvO f s (execFast50p f0 p q usable x) := by
  unfold execFast50p
  repeat' first
    | with_reducible exact h
    | with_reducible assumption
    | with_reducible refine breakerMachine_ev (le_trans' hf rfl) ?_
    | with_reducible refine issueTrip_ev (le_trans' hf rfl) ?_
    | with_reducible refine setFeeder_ev (le_trans' hf rfl) ?_
    | with_reducible refine setOp_ev (le_trans' hf rfl) ?_
    | with_reducible refine setStarted_ev (le_trans' hf rfl) ?_
    | with_reducible refine evo_next ?_
    | with_reducible refine evo_ite (fun _ => ?_) (fun _ => ?_)

theorem execBkrRetrip_ev {f0 : Fin 8} (hf : Foot.le ⟨[.tai, .ticks, .log, .prot], [.cmd], false⟩ f) (h : Ev f s x) :
    EvO f s (execBkrRetrip f0 x) := by
  unfold execBkrRetrip
  repeat' first
    | with_reducible exact h
    | with_reducible assumption
    | with_reducible refine rowRetrip_ev (le_trans' hf rfl) ?_
    | with_reducible refine ev_reachLocal (part_mem hf rfl) (part_mem hf rfl) ?_
    | with_reducible refine evo_next ?_
    | with_reducible refine evo_ite (fun _ => ?_) (fun _ => ?_)

theorem execBkrFail_ev {f0 : Fin 8} (hf : Foot.le ⟨[.tai, .ticks, .log, .loop, .prot, .recd], [.prot, .cmd, .pwm], false⟩ f) (h : Ev f s x) :
    EvO f s (execBkrFail f0 x) := by
  unfold execBkrFail
  repeat' first
    | with_reducible exact h
    | with_reducible assumption
    | with_reducible refine rowFail_ev (le_trans' hf rfl) ?_
    | with_reducible refine rowRetrip_ev (le_trans' hf rfl) ?_
    | with_reducible refine ev_reachLocal (part_mem hf rfl) (part_mem hf rfl) ?_
    | with_reducible refine evo_next ?_
    | with_reducible refine evo_ite (fun _ => ?_) (fun _ => ?_)

theorem execTripCommandEnd_ev {f0 : Fin 8} (hf : Foot.le ⟨[.tai, .ticks, .loop, .prot], [.prot], false⟩ f) (h : Ev f s x) :
    EvO f s (execTripCommandEnd f0 x) := by
  unfold execTripCommandEnd
  repeat' first
    | with_reducible exact h
    | with_reducible assumption
    | with_reducible refine endCommands_ev (le_trans' hf rfl) ?_
    | with_reducible refine ev_reachLocal (part_mem hf rfl) (part_mem hf rfl) ?_
    | with_reducible refine evo_next ?_
    | with_reducible refine evo_ite (fun _ => ?_) (fun _ => ?_)

theorem execBkrDiscrepancy_ev {f0 : Fin 8} (hf : Foot.le ⟨[.tai, .ticks, .log, .prot], [.prot, .cmd], false⟩ f) (h : Ev f s x) :
    EvO f s (execBkrDiscrepancy f0 x) := by
  unfold execBkrDiscrepancy
  repeat' first
    | with_reducible exact h
    | with_reducible assumption
    | with_reducible refine rowDiscrepancy_ev (le_trans' hf rfl) ?_
    | with_reducible refine statusStep_ev (le_trans' hf rfl) ?_
    | with_reducible refine ev_reachLocal (part_mem hf rfl) (part_mem hf rfl) ?_
    | with_reducible refine evo_next ?_
    | with_reducible refine evo_ite (fun _ => ?_) (fun _ => ?_)
    | with_reducible refine ev_ite (fun _ => ?_) (fun _ => ?_)
    | exact Fin.isLt _
    | omega
    | split
    | dsimp only

theorem execTcAlarm_ev {f0 : Fin 8} (hf : Foot.le ⟨[.tai, .ticks, .log, .prot], [.prot, .cmd], false⟩ f) (h : Ev f s x) :
    EvO f s (execTcAlarm f0 x) := by
  unfold execTcAlarm
  repeat' first
    | with_reducible exact h
    | with_reducible assumption
    | with_reducible refine tcStep_ev (le_trans' hf rfl) ?_
    | with_reducible refine ev_reachLocal (part_mem hf rfl) (part_mem hf rfl) ?_
    | with_reducible refine evo_next ?_
    | with_reducible refine evo_ite (fun _ => ?_) (fun _ => ?_)

theorem execTcRestored_ev {f0 : Fin 8} (hf : Foot.le ⟨[.tai, .ticks, .log, .prot], [.prot, .cmd], false⟩ f) (h : Ev f s x) :
    EvO f s (execTcRestored f0 x) := by
  unfold execTcRestored
  repeat' first
    | with_reducible exact h
    | with_reducible assumption
    | with_reducible refine tcStep_ev (le_trans' hf rfl) ?_
    | with_reducible refine ev_reachLocal (part_mem hf rfl) (part_mem hf rfl) ?_
    | with_reducible refine evo_next ?_
    | with_reducible refine evo_ite (fun _ => ?_) (fun _ => ?_)

theorem execUnit32Operate_ev {g : Fin 2} (hf : Foot.le ⟨[.tai, .ticks, .log, .loop, .prot, .recd], [.cmd, .pwm], false⟩ f) (h : Ev f s x) :
    EvO f s (execUnit32Operate g x) := by
  unfold execUnit32Operate
  repeat' first
    | with_reducible exact h
    | with_reducible assumption
    | with_reducible refine blockStages_ev (le_trans' hf rfl) ?_
    | with_reducible refine refreshLines_ev (le_trans' hf rfl) ?_
    | with_reducible refine setUnit32_ev (le_trans' hf rfl) ?_
    | with_reducible refine ev_logEvent (part_mem hf rfl) (block_mem hf rfl) ?_
    | with_reducible refine ev_reachLocal (part_mem hf rfl) (part_mem hf rfl) ?_
    | with_reducible refine evo_next ?_
    | with_reducible refine evo_ite (fun _ => ?_) (fun _ => ?_)
    | with_reducible refine ev_ite (fun _ => ?_) (fun _ => ?_)
    | exact reg_block hf .cmd rfl rfl
    | exact Fin.isLt _
    | omega
    | split
    | dsimp only

theorem freeUnits_ev {mask : Nat} (hf : Foot.le ⟨[.log, .loop, .recd], [.prot, .cmd, .pwm], false⟩ f) (h : Ev f s x) :
    Ev f s (freeUnits mask x) := by
  unfold freeUnits
  repeat' first
    | with_reducible exact h
    | with_reducible assumption
    | with_reducible refine blockStages_ev (le_trans' hf rfl) ?_
    | with_reducible refine refreshLines_ev (le_trans' hf rfl) ?_
    | with_reducible refine ev_setF ?_ ?_
    | (with_reducible refine ev_forEach_range (fun i hi y hy => ?_) ?_)
    | (with_reducible refine ev_forEach (fun i hi y hy => ?_) ?_)
    | with_reducible refine ev_ite (fun _ => ?_) (fun _ => ?_)
    | with_reducible refine reg_PROT_32_MAP hf rfl ?_
    | exact reg_block hf .prot rfl rfl

theorem writeBlock_ev {v : Word} (hf : Foot.le ⟨[.log, .loop, .recd], [.prot, .cmd, .pwm], false⟩ f) (h : Ev f s x) :
    Ev f s (writeBlock v x) := by
  unfold writeBlock
  repeat' first
    | with_reducible exact h
    | with_reducible assumption
    | with_reducible refine freeUnits_ev (le_trans' hf rfl) ?_
    | with_reducible refine protErr_ev (le_trans' hf rfl) ?_
    | with_reducible refine ev_setF ?_ ?_
    | (with_reducible refine ev_forEach_range (fun i hi y hy => ?_) ?_)
    | (with_reducible refine ev_forEach (fun i hi y hy => ?_) ?_)
    | with_reducible refine ev_ite (fun _ => ?_) (fun _ => ?_)
    | with_reducible refine reg_PROT_FDR_STATE hf rfl ?_
    | exact reg_block hf .prot rfl rfl
    | exact Fin.isLt _

end Sys2Proof.Laws
end

