-- ==== Sys2Proof/Laws/EvScan.lean ====
section
/-! SUPPORT. What each change of Machine/Scan.lean can touch, and that it keeps the state sound: one lemma a function. -/

namespace Sys2Proof.Laws

open Sys2Proof Sys2Proof.Machine Sys2Proof.Safety

variable {f : Foot} {s x : State}

theorem setScan_ev {k : Fin 2} {x0 : ScanCore} (hf : Foot.le ⟨[.scan], [], false⟩ f) (h : Ev f s x) :
    Ev f s (setScan k x0 x) := by
  unfold setScan
  repeat' first
    | with_reducible exact h
    | with_reducible assumption
    | with_reducible refine ev_ite (fun _ => ?_) (fun _ => ?_)
    | exact Fin.isLt _
    | omega
    | split
    | dsimp only
    | with_reducible refine ev_scan (part_mem hf rfl) ?_

theorem commitRetained_ev {k : Fin 2} (hf : Foot.le ⟨[.scan], [], false⟩ f) (h : Ev f s x) :
    Ev f s (commitRetained k x) := by
  unfold commitRetained
  repeat' first
    | with_reducible exact h
    | with_reducible assumption
    | with_reducible refine setScan_ev (le_trans' hf rfl) ?_
    | with_reducible refine ev_ite (fun _ => ?_) (fun _ => ?_)
    | exact Fin.isLt _
    | omega
    | split
    | dsimp only

theorem commitBoth_ev (hf : Foot.le ⟨[.scan], [], false⟩ f) (h : Ev f s x) :
    Ev f s (commitBoth x) := by
  unfold commitBoth
  repeat' first
    | with_reducible exact h
    | with_reducible assumption
    | with_reducible refine commitRetained_ev (le_trans' hf rfl) ?_

theorem handOver_ev {k : Fin 2} {l : List (Nat × BitVec 64)} (hf : Foot.le ⟨[.scan], [], false⟩ f) (h : Ev f s x) :
    Ev f s (handOver k l x) := by
  unfold handOver
  repeat' first
    | with_reducible exact h
    | with_reducible assumption
    | with_reducible refine setScan_ev (le_trans' hf rfl) ?_

theorem transferNow_ev {k : Fin 2} {l : List (Nat × BitVec 64)} (hf : Foot.le ⟨[.scan], [], false⟩ f) (h : Ev f s x) :
    Ev f s (transferNow k l x) := by
  unfold transferNow
  repeat' first
    | with_reducible exact h
    | with_reducible assumption
    | with_reducible refine handOver_ev (le_trans' hf rfl) ?_
    | with_reducible refine setScan_ev (le_trans' hf rfl) ?_

theorem setTask_ev {k : Fin 2} {t : Fin 8} {y : ScanTask} (hf : Foot.le ⟨[.scan], [], false⟩ f) (h : Ev f s x) :
    Ev f s (setTask k t y x) := by
  unfold setTask
  repeat' first
    | with_reducible exact h
    | with_reducible assumption
    | with_reducible refine setScan_ev (le_trans' hf rfl) ?_

theorem makeHeld_ev {k : Fin 2} {t : Fin 8} (hf : Foot.le ⟨[.scan], [], false⟩ f) (h : Ev f s x) :
    Ev f s (makeHeld k t x) := by
  unfold makeHeld
  repeat' first
    | with_reducible exact h
    | with_reducible assumption
    | with_reducible refine setTask_ev (le_trans' hf rfl) ?_
    | with_reducible refine transferNow_ev (le_trans' hf rfl) ?_
    | with_reducible refine ev_ite (fun _ => ?_) (fun _ => ?_)
    | exact Fin.isLt _
    | omega
    | split
    | dsimp only

theorem rescheduleSwap_ev {k : Fin 2} (hf : Foot.le ⟨[], [.scan], false⟩ f) (h : Ev f s x) :
    Ev f s (rescheduleSwap k x) := by
  unfold rescheduleSwap
  repeat' first
    | with_reducible exact h
    | with_reducible assumption
    | with_reducible refine ev_wr64 ?_ ?_ ?_
    | with_reducible refine ev_ite (fun _ => ?_) (fun _ => ?_)
    | with_reducible refine reg_SCAN_SWAP_TIME hf rfl ?_
    | with_reducible refine reg_SCAN_SWAP_TIME_hi hf rfl ?_
    | with_reducible refine reg_SCAN_XCHG hf rfl ?_
    | exact reg_block hf .scan rfl rfl
    | exact Fin.isLt _
    | omega
    | split

theorem setScanMode_ev {k : Fin 2} {n : Nat} (hf : Foot.le ⟨[.log], [.scan, .cmd], false⟩ f) (h : Ev f s x) :
    Ev f s (setScanMode k n x) := by
  unfold setScanMode
  repeat' first
    | with_reducible exact h
    | with_reducible assumption
    | with_reducible refine ev_setF ?_ ?_
    | with_reducible refine ev_logN (part_mem hf rfl) (block_mem hf rfl) ?_
    | with_reducible refine ev_ite (fun _ => ?_) (fun _ => ?_)
    | with_reducible refine reg_SCAN_STATE hf rfl ?_
    | exact reg_block hf .scan rfl rfl
    | exact reg_block hf .cmd rfl rfl
    | exact Fin.isLt _

theorem settleQuiesce_ev {k : Fin 2} (hf : Foot.le ⟨[.log, .scan], [.scan, .cmd], false⟩ f) (h : Ev f s x) :
    Ev f s (settleQuiesce k x) := by
  unfold settleQuiesce
  repeat' first
    | with_reducible exact h
    | with_reducible assumption
    | with_reducible refine rescheduleSwap_ev (le_trans' hf rfl) ?_
    | with_reducible refine setScan_ev (le_trans' hf rfl) ?_
    | with_reducible refine setScanMode_ev (le_trans' hf rfl) ?_
    | with_reducible refine ev_whenS (fun hc y hy => ?_) ?_
    | with_reducible refine ev_ite (fun _ => ?_) (fun _ => ?_)
    | exact Fin.isLt _
    | omega
    | split
    | dsimp only

theorem quiesceTo_ev {k : Fin 2} {m : Nat} (hf : Foot.le ⟨[.log, .scan], [.scan, .cmd], false⟩ f) (h : Ev f s x) :
    Ev f s (quiesceTo k m x) := by
  unfold quiesceTo
  repeat' first
    | with_reducible exact h
    | with_reducible assumption
    | with_reducible refine makeHeld_ev (le_trans' hf rfl) ?_
    | with_reducible refine setScan_ev (le_trans' hf rfl) ?_
    | with_reducible refine settleQuiesce_ev (le_trans' hf rfl) ?_
    | (with_reducible refine ev_forEach_range (fun i hi y hy => ?_) ?_)
    | (with_reducible refine ev_forEach (fun i hi y hy => ?_) ?_)

theorem stopRequest_ev {k : Fin 2} (hf : Foot.le ⟨[.log, .scan], [.scan, .cmd], false⟩ f) (h : Ev f s x) :
    Ev f s (stopRequest k x) := by
  unfold stopRequest
  repeat' first
    | with_reducible exact h
    | with_reducible assumption
    | with_reducible refine quiesceTo_ev (le_trans' hf rfl) ?_
    | with_reducible refine setScan_ev (le_trans' hf rfl) ?_
    | with_reducible refine ev_ite (fun _ => ?_) (fun _ => ?_)

theorem holdRequest_ev {k : Fin 2} (hf : Foot.le ⟨[.log, .scan], [.scan, .cmd], false⟩ f) (h : Ev f s x) :
    Ev f s (holdRequest k x).2 := by
  unfold holdRequest
  repeat' first
    | with_reducible exact h
    | with_reducible assumption
    | with_reducible refine quiesceTo_ev (le_trans' hf rfl) ?_
    | with_reducible refine ev_ite2 (fun _ => ?_) (fun _ => ?_)

theorem stepRequest_ev {k : Fin 2} {t : Fin 8} (hf : Foot.le ⟨[.scan], [], false⟩ f) (h : Ev f s x) :
    Ev f s (stepRequest k t x).2 := by
  unfold stepRequest
  repeat' first
    | with_reducible exact h
    | with_reducible assumption
    | with_reducible refine setScan_ev (le_trans' hf rfl) ?_
    | with_reducible refine ev_ite2 (fun _ => ?_) (fun _ => ?_)

theorem enterRun_ev {k : Fin 2} {from' : Nat} (hf : Foot.le ⟨[.log, .scan], [.scan, .cmd], false⟩ f) (h : Ev f s x) :
    Ev f s (enterRun k from' x) := by
  unfold enterRun
  repeat' first
    | with_reducible exact h
    | with_reducible assumption
    | with_reducible refine setScan_ev (le_trans' hf rfl) ?_
    | with_reducible refine setScanMode_ev (le_trans' hf rfl) ?_
    | with_reducible refine ev_setF ?_ ?_
    | with_reducible refine ev_ite (fun _ => ?_) (fun _ => ?_)
    | with_reducible refine reg_SCAN_STATE hf rfl ?_
    | exact reg_block hf .scan rfl rfl
    | exact Fin.isLt _

theorem restart_ev {k : Fin 2} {warm : Bool} (hf : Foot.le ⟨[.log, .scan], [.scan, .cmd], false⟩ f) (h : Ev f s x) :
    Ev f s (restart k warm x) := by
  unfold restart
  repeat' first
    | with_reducible exact h
    | with_reducible assumption
    | with_reducible refine setScan_ev (le_trans' hf rfl) ?_
    | with_reducible refine ev_wr ?_ ?_
    | with_reducible refine ev_setF ?_ ?_
    | with_reducible refine ev_logN (part_mem hf rfl) (block_mem hf rfl) ?_
    | (with_reducible refine ev_forEach_range (fun i hi y hy => ?_) ?_)
    | (with_reducible refine ev_forEach (fun i hi y hy => ?_) ?_)
    | with_reducible refine ev_ite (fun _ => ?_) (fun _ => ?_)
    | with_reducible refine reg_SCAN_STATE hf rfl ?_
    | with_reducible refine reg_SCAN_TASK_STAT hf rfl ?_ ?_
    | with_reducible refine reg_SCAN_TASK_TIME hf rfl ?_ ?_
    | exact reg_block hf .scan rfl rfl
    | exact reg_block hf .cmd rfl rfl
    | exact Fin.isLt _

theorem runRequest_ev {k : Fin 2} {cold : Bool} (hf : Foot.le ⟨[.log, .scan], [.scan, .cmd], false⟩ f) (h : Ev f s x) :
    Ev f s (runRequest k cold x).2 := by
  unfold runRequest
  repeat' first
    | with_reducible exact h
    | with_reducible assumption
    | with_reducible refine enterRun_ev (le_trans' hf rfl) ?_
    | with_reducible refine restart_ev (le_trans' hf rfl) ?_
    | with_reducible refine setScan_ev (le_trans' hf rfl) ?_
    | with_reducible refine setScanMode_ev (le_trans' hf rfl) ?_
    | with_reducible refine ev_logN (part_mem hf rfl) (block_mem hf rfl) ?_
    | with_reducible refine ev_ite2 (fun _ => ?_) (fun _ => ?_)
    | with_reducible refine ev_ite (fun _ => ?_) (fun _ => ?_)
    | exact reg_block hf .cmd rfl rfl
    | exact Fin.isLt _
    | omega
    | split

theorem takeRequests_ev {k : Fin 2} {run : Bool} {stop : Bool} {hold : Bool} {step : Bool} {cold : Bool} {t : Fin 8} (hf : Foot.le ⟨[.log, .scan], [.scan, .cmd], false⟩ f) (h : Ev f s x) :
    Ev f s (takeRequests k run stop hold step cold t x).2.2 := by
  unfold takeRequests
  repeat' first
    | with_reducible exact h
    | with_reducible assumption
    | with_reducible refine holdRequest_ev (le_trans' hf rfl) ?_
    | with_reducible refine runRequest_ev (le_trans' hf rfl) ?_
    | with_reducible refine stepRequest_ev (le_trans' hf rfl) ?_
    | with_reducible refine stopRequest_ev (le_trans' hf rfl) ?_
    | refine ev_snd (by assumption) ?_
    | with_reducible refine ev_ite3 (fun _ => ?_) (fun _ => ?_)

theorem writeScanCtrl_ev {k : Fin 2} {v : Word} (hf : Foot.le ⟨[.log, .scan], [.scan, .cmd], false⟩ f) (h : Ev f s x) :
    Ev f s (writeScanCtrl k v x) := by
  unfold writeScanCtrl
  repeat' first
    | with_reducible exact h
    | with_reducible assumption
    | with_reducible refine takeRequests_ev (le_trans' hf rfl) ?_
    | refine ev_snd2 (by assumption) ?_
    | with_reducible refine ev_setF ?_ ?_
    | with_reducible refine ev_logN (part_mem hf rfl) (block_mem hf rfl) ?_
    | with_reducible refine ev_ite (fun _ => ?_) (fun _ => ?_)
    | with_reducible refine reg_SCAN_CTRL hf rfl ?_
    | exact reg_block hf .scan rfl rfl
    | exact reg_block hf .cmd rfl rfl
    | exact Fin.isLt _

theorem withdrawExchange_ev (hf : Foot.le ⟨[.fresh, .log, .scan], [.scan, .cmd], false⟩ f) (h : Ev f s x) :
    Ev f s (withdrawExchange x) := by
  unfold withdrawExchange
  repeat' first
    | with_reducible exact h
    | with_reducible assumption
    | with_reducible refine setScan_ev (le_trans' hf rfl) ?_
    | refine ev_snd (by assumption) ?_
    | with_reducible refine ev_setF ?_ ?_
    | with_reducible refine ev_logEvent (part_mem hf rfl) (block_mem hf rfl) ?_
    | with_reducible refine ev_takeFree (part_mem hf rfl) ?_
    | (with_reducible refine ev_forEach_range (fun i hi y hy => ?_) ?_)
    | (with_reducible refine ev_forEach (fun i hi y hy => ?_) ?_)
    | with_reducible refine ev_ite (fun _ => ?_) (fun _ => ?_)
    | with_reducible refine reg_SCAN_STATE hf rfl ?_
    | with_reducible refine reg_SCAN_XCHG hf rfl ?_
    | exact reg_block hf .scan rfl rfl
    | exact reg_block hf .cmd rfl rfl
    | exact Fin.isLt _

theorem showForces_ev (hf : Foot.le ⟨[], [.scan], false⟩ f) (h : Ev f s x) :
    Ev f s (showForces x) := by
  unfold showForces
  repeat' first
    | with_reducible exact h
    | with_reducible assumption
    | with_reducible refine ev_setF ?_ ?_
    | with_reducible refine ev_ite (fun _ => ?_) (fun _ => ?_)
    | exact reg_block hf .scan rfl rfl

theorem setForce_ev {f0 : Force} (hf : Foot.le ⟨[.log, .scan], [.scan, .cmd], false⟩ f) (h : Ev f s x) :
    Ev f s (setForce f0 x).2 := by
  unfold setForce
  repeat' first
    | with_reducible exact h
    | with_reducible assumption
    | with_reducible refine showForces_ev (le_trans' hf rfl) ?_
    | with_reducible refine ev_logEvent (part_mem hf rfl) (block_mem hf rfl) ?_
    | with_reducible refine ev_ite2 (fun _ => ?_) (fun _ => ?_)
    | with_reducible refine ev_ite (fun _ => ?_) (fun _ => ?_)
    | exact reg_block hf .cmd rfl rfl
    | exact Fin.isLt _
    | omega
    | split
    | dsimp only
    | with_reducible refine ev_scan (part_mem hf rfl) ?_

theorem clearForce_ev {k : Fin 2} {id : Word} (hf : Foot.le ⟨[.log, .scan], [.scan, .cmd], false⟩ f) (h : Ev f s x) :
    Ev f s (clearForce k id x) := by
  unfold clearForce
  repeat' first
    | with_reducible exact h
    | with_reducible assumption
    | with_reducible refine showForces_ev (le_trans' hf rfl) ?_
    | with_reducible refine ev_logEvent (part_mem hf rfl) (block_mem hf rfl) ?_
    | (with_reducible refine ev_forEach_range (fun i hi y hy => ?_) ?_)
    | (with_reducible refine ev_forEach (fun i hi y hy => ?_) ?_)
    | with_reducible refine ev_ite (fun _ => ?_) (fun _ => ?_)
    | exact reg_block hf .cmd rfl rfl
    | exact Fin.isLt _
    | omega
    | split
    | dsimp only
    | with_reducible refine ev_scan (part_mem hf rfl) ?_

theorem openExchange_ev {progs : List (Fin 2 × ScanProgram)} {at' : Nat} {op : Option (Fin 16)} (hf : Foot.le ⟨[.scan], [.scan], false⟩ f) (h : Ev f s x) :
    Ev f s (openExchange progs at' op x) := by
  unfold openExchange
  repeat' first
    | with_reducible exact h
    | with_reducible assumption
    | with_reducible refine setScan_ev (le_trans' hf rfl) ?_
    | with_reducible refine ev_setF ?_ ?_
    | with_reducible refine ev_wr64 ?_ ?_ ?_
    | (with_reducible refine ev_forEach_range (fun i hi y hy => ?_) ?_)
    | (with_reducible refine ev_forEach (fun i hi y hy => ?_) ?_)
    | with_reducible refine ev_ite (fun _ => ?_) (fun _ => ?_)
    | with_reducible refine reg_SCAN_STATE hf rfl ?_
    | with_reducible refine reg_SCAN_SWAP_TIME hf rfl ?_
    | with_reducible refine reg_SCAN_SWAP_TIME_hi hf rfl ?_
    | with_reducible refine reg_SCAN_XCHG hf rfl ?_
    | exact reg_block hf .scan rfl rfl
    | exact Fin.isLt _

theorem edgeSample_ev {old : BitVec 16} {new : BitVec 16} (hf : Foot.le ⟨[.scan], [], false⟩ f) (h : Ev f s x) :
    Ev f s (edgeSample old new x) := by
  unfold edgeSample
  repeat' first
    | with_reducible exact h
    | with_reducible assumption
    | with_reducible refine ev_ite (fun _ => ?_) (fun _ => ?_)
    | exact Fin.isLt _
    | omega
    | split
    | dsimp only
    | with_reducible refine ev_scan (part_mem hf rfl) ?_

theorem dropForces_ev {k : Fin 2} {new : ScanProgram} (hf : Foot.le ⟨[.log, .scan], [.scan, .cmd], false⟩ f) (h : Ev f s x) :
    Ev f s (dropForces k new x) := by
  unfold dropForces
  repeat' first
    | with_reducible exact h
    | with_reducible assumption
    | with_reducible refine showForces_ev (le_trans' hf rfl) ?_
    | with_reducible refine ev_logEvent (part_mem hf rfl) (block_mem hf rfl) ?_
    | (with_reducible refine ev_forEach_range (fun i hi y hy => ?_) ?_)
    | (with_reducible refine ev_forEach (fun i hi y hy => ?_) ?_)
    | with_reducible refine ev_ite (fun _ => ?_) (fun _ => ?_)
    | exact reg_block hf .cmd rfl rfl
    | exact Fin.isLt _
    | omega
    | split
    | dsimp only
    | with_reducible refine ev_scan (part_mem hf rfl) ?_

theorem showProgram_ev {k : Fin 2} {p : ScanProgram} (hf : Foot.le ⟨[], [.scan], false⟩ f) (h : Ev f s x) :
    Ev f s (showProgram k p x) := by
  unfold showProgram
  repeat' first
    | with_reducible exact h
    | with_reducible assumption
    | with_reducible refine ev_wr ?_ ?_
    | with_reducible refine ev_setF ?_ ?_
    | (with_reducible refine ev_forEach_range (fun i hi y hy => ?_) ?_)
    | (with_reducible refine ev_forEach (fun i hi y hy => ?_) ?_)
    | with_reducible refine ev_ite (fun _ => ?_) (fun _ => ?_)
    | with_reducible refine reg_SCAN_PROG_ID hf rfl ?_
    | with_reducible refine reg_SCAN_PROG_INFO hf rfl ?_
    | with_reducible refine reg_SCAN_TASK_CFG hf rfl ?_ ?_
    | exact reg_block hf .scan rfl rfl
    | exact Fin.isLt _

theorem releaseCycle_ev {k : Fin 2} {t : Fin 8} {rel : Nat} (hf : Foot.le ⟨[.scan], [], false⟩ f) (h : Ev f s x) :
    Ev f s (releaseCycle k t rel x) := by
  unfold releaseCycle
  repeat' first
    | with_reducible exact h
    | with_reducible assumption
    | with_reducible refine setTask_ev (le_trans' hf rfl) ?_

theorem swapCore_ev {k : Fin 2} (hf : Foot.le ⟨[.log, .scan], [.scan, .cmd], false⟩ f) (h : Ev f s x) :
    Ev f s (swapCore k x) := by
  unfold swapCore
  repeat' first
    | with_reducible exact h
    | with_reducible assumption
    | with_reducible refine dropForces_ev (le_trans' hf rfl) ?_
    | with_reducible refine releaseCycle_ev (le_trans' hf rfl) ?_
    | with_reducible refine setScan_ev (le_trans' hf rfl) ?_
    | with_reducible refine setTask_ev (le_trans' hf rfl) ?_
    | with_reducible refine showProgram_ev (le_trans' hf rfl) ?_
    | with_reducible refine ev_setF ?_ ?_
    | with_reducible refine ev_logEvent (part_mem hf rfl) (block_mem hf rfl) ?_
    | (with_reducible refine ev_forEach_range (fun i hi y hy => ?_) ?_)
    | (with_reducible refine ev_forEach (fun i hi y hy => ?_) ?_)
    | with_reducible refine ev_ite (fun _ => ?_) (fun _ => ?_)
    | with_reducible refine reg_SCAN_STATE hf rfl ?_
    | with_reducible refine reg_SCAN_XCHG hf rfl ?_
    | exact reg_block hf .scan rfl rfl
    | exact reg_block hf .cmd rfl rfl
    | exact Fin.isLt _
    | omega
    | split

theorem settleSwap_ev {k : Fin 2} (hf : Foot.le ⟨[.log, .scan], [.scan, .cmd], false⟩ f) (h : Ev f s x) :
    Ev f s (settleSwap k x) := by
  unfold settleSwap
  repeat' first
    | with_reducible exact h
    | with_reducible assumption
    | with_reducible refine swapCore_ev (le_trans' hf rfl) ?_
    | with_reducible refine ev_ite (fun _ => ?_) (fun _ => ?_)

theorem reachSwap_ev {k : Fin 2} (hf : Foot.le ⟨[.tai, .ticks, .log, .scan], [.scan, .cmd], false⟩ f) (h : Ev f s x) :
    Ev f s (reachSwap k x) := by
  unfold reachSwap
  repeat' first
    | with_reducible exact h
    | with_reducible assumption
    | with_reducible refine makeHeld_ev (le_trans' hf rfl) ?_
    | with_reducible refine settleSwap_ev (le_trans' hf rfl) ?_
    | with_reducible refine ev_setF ?_ ?_
    | with_reducible refine ev_reachNs (part_mem hf rfl) (part_mem hf rfl) ?_
    | (with_reducible refine ev_forEach_range (fun i hi y hy => ?_) ?_)
    | (with_reducible refine ev_forEach (fun i hi y hy => ?_) ?_)
    | with_reducible refine ev_ite (fun _ => ?_) (fun _ => ?_)
    | with_reducible refine reg_SCAN_SWAP_TIME hf rfl ?_
    | with_reducible refine reg_SCAN_XCHG hf rfl ?_
    | exact reg_block hf .scan rfl rfl
    | exact Fin.isLt _

theorem publishCore_ev {k : Fin 2} {routed : List (Word × BitVec 64)} (hf : Foot.le ⟨[.fresh, .scan], [], false⟩ f) (h : Ev f s x) :
    Ev f s (publishCore k routed x) := by
  unfold publishCore
  repeat' first
    | with_reducible exact h
    | with_reducible assumption
    | with_reducible refine setScan_ev (le_trans' hf rfl) ?_
    | refine ev_snd (by assumption) ?_
    | with_reducible refine ev_takeFree (part_mem hf rfl) ?_

theorem idleImage_ev {k : Fin 2} (hf : Foot.le ⟨[.scan], [], false⟩ f) (h : Ev f s x) :
    Ev f s (idleImage k x) := by
  unfold idleImage
  repeat' first
    | with_reducible exact h
    | with_reducible assumption
    | with_reducible refine handOver_ev (le_trans' hf rfl) ?_

theorem autostart_ev {k : Fin 2} (hf : Foot.le ⟨[.log, .scan], [.scan, .cmd], false⟩ f) (h : Ev f s x) :
    Ev f s (autostart k x) := by
  unfold autostart
  repeat' first
    | with_reducible exact h
    | with_reducible assumption
    | with_reducible refine enterRun_ev (le_trans' hf rfl) ?_
    | with_reducible refine restart_ev (le_trans' hf rfl) ?_
    | with_reducible refine setScan_ev (le_trans' hf rfl) ?_
    | with_reducible refine ev_logN (part_mem hf rfl) (block_mem hf rfl) ?_
    | with_reducible refine ev_ite (fun _ => ?_) (fun _ => ?_)
    | exact reg_block hf .cmd rfl rfl
    | exact Fin.isLt _
    | omega
    | split
    | dsimp only

theorem publishOne_ev {x0 : Vector (List (Word × BitVec 64)) 2} {k : Fin 2} (hf : Foot.le ⟨[.fresh, .log, .scan], [.scan, .cmd], false⟩ f) (h : Ev f s x) :
    Ev f s (publishOne x0 k x) := by
  unfold publishOne
  repeat' first
    | with_reducible exact h
    | with_reducible assumption
    | with_reducible refine autostart_ev (le_trans' hf rfl) ?_
    | with_reducible refine idleImage_ev (le_trans' hf rfl) ?_
    | with_reducible refine publishCore_ev (le_trans' hf rfl) ?_
    | with_reducible refine setScan_ev (le_trans' hf rfl) ?_
    | with_reducible refine ev_ite (fun _ => ?_) (fun _ => ?_)

theorem publication_ev {x0 : Vector (List (Word × BitVec 64)) 2} (hf : Foot.le ⟨[.fresh, .tai, .ticks, .log, .scan], [.scan, .cmd], false⟩ f) (h : Ev f s x) :
    Ev f s (publication x0 x) := by
  unfold publication
  repeat' first
    | with_reducible exact h
    | with_reducible assumption
    | with_reducible refine publishOne_ev (le_trans' hf rfl) ?_
    | with_reducible refine ev_reachNs (part_mem hf rfl) (part_mem hf rfl) ?_
    | (with_reducible refine ev_forEach_range (fun i hi y hy => ?_) ?_)
    | (with_reducible refine ev_forEach (fun i hi y hy => ?_) ?_)
    | with_reducible refine ev_ite (fun _ => ?_) (fun _ => ?_)
    | exact Fin.isLt _
    | omega
    | split
    | dsimp only
    | with_reducible refine ev_scan (part_mem hf rfl) ?_

theorem setRemote_ev {k : Fin 2} {b : Fin 32} {v : RemoteBlock} (hf : Foot.le ⟨[.scan], [], false⟩ f) (h : Ev f s x) :
    Ev f s (setRemote k b v x) := by
  unfold setRemote
  repeat' first
    | with_reducible exact h
    | with_reducible assumption
    | with_reducible refine setScan_ev (le_trans' hf rfl) ?_

theorem remoteArrived_ev {k : Fin 2} {b : Fin 32} {data : List Word} (hf : Foot.le ⟨[.log, .scan], [.scan, .cmd], false⟩ f) (h : Ev f s x) :
    Ev f s (remoteArrived k b data x) := by
  unfold remoteArrived
  repeat' first
    | with_reducible exact h
    | with_reducible assumption
    | with_reducible refine setRemote_ev (le_trans' hf rfl) ?_
    | with_reducible refine ev_setFbit ?_ ?_
    | with_reducible refine ev_logN (part_mem hf rfl) (block_mem hf rfl) ?_
    | with_reducible refine ev_whenS (fun hc y hy => ?_) ?_
    | with_reducible refine ev_ite (fun _ => ?_) (fun _ => ?_)
    | with_reducible refine reg_SCAN_REMOTE_STALE hf rfl ?_
    | exact reg_block hf .scan rfl rfl
    | exact reg_block hf .cmd rfl rfl
    | exact Fin.isLt _

theorem loadProgram_ev {k : Fin 2} {p : ScanProgram} (hf : Foot.le ⟨[.scan], [.scan], false⟩ f) (h : Ev f s x) :
    Ev f s (loadProgram k p x) := by
  unfold loadProgram
  repeat' first
    | with_reducible exact h
    | with_reducible assumption
    | with_reducible refine setScan_ev (le_trans' hf rfl) ?_
    | with_reducible refine showProgram_ev (le_trans' hf rfl) ?_

theorem trapCore_ev {k : Fin 2} {t : Nat} {cause : Nat} (hf : Foot.le ⟨[.log, .scan], [.scan, .cmd], false⟩ f) (h : Ev f s x) :
    Ev f s (trapCore k t cause x) := by
  unfold trapCore
  repeat' first
    | with_reducible exact h
    | with_reducible assumption
    | with_reducible refine rescheduleSwap_ev (le_trans' hf rfl) ?_
    | with_reducible refine setScan_ev (le_trans' hf rfl) ?_
    | with_reducible refine setScanMode_ev (le_trans' hf rfl) ?_
    | with_reducible refine ev_setF ?_ ?_
    | with_reducible refine ev_logN (part_mem hf rfl) (block_mem hf rfl) ?_
    | with_reducible refine ev_ite (fun _ => ?_) (fun _ => ?_)
    | with_reducible refine reg_SCAN_STATE hf rfl ?_
    | exact reg_block hf .scan rfl rfl
    | exact reg_block hf .cmd rfl rfl
    | exact Fin.isLt _

theorem takeImage_ev {k : Fin 2} {t : Fin 8} (hf : Foot.le ⟨[.scan], [], false⟩ f) (h : Ev f s x) :
    Ev f s (takeImage k t x) := by
  unfold takeImage
  repeat' first
    | with_reducible exact h
    | with_reducible assumption
    | with_reducible refine setScan_ev (le_trans' hf rfl) ?_

theorem skipRelease_ev {k : Fin 2} {t : Fin 8} (hf : Foot.le ⟨[.log, .scan], [.scan, .cmd], false⟩ f) (h : Ev f s x) :
    Ev f s (skipRelease k t x) := by
  unfold skipRelease
  repeat' first
    | with_reducible exact h
    | with_reducible assumption
    | with_reducible refine setTask_ev (le_trans' hf rfl) ?_
    | with_reducible refine trapCore_ev (le_trans' hf rfl) ?_
    | with_reducible refine ev_wr ?_ ?_
    | with_reducible refine ev_setFbit ?_ ?_
    | with_reducible refine ev_ite (fun _ => ?_) (fun _ => ?_)
    | with_reducible refine reg_SCAN_STATE hf rfl ?_
    | with_reducible refine reg_SCAN_TASK_STAT hf rfl ?_ ?_
    | exact reg_block hf .scan rfl rfl
    | exact Fin.isLt _

theorem advanceCounter_ev {k : Fin 2} {t : Fin 8} (hf : Foot.le ⟨[.scan], [], false⟩ f) (h : Ev f s x) :
    Ev f s (advanceCounter k t x) := by
  unfold advanceCounter
  repeat' first
    | with_reducible exact h
    | with_reducible assumption
    | with_reducible refine setTask_ev (le_trans' hf rfl) ?_

theorem endHold_ev {k : Fin 2} (hf : Foot.le ⟨[.log, .scan], [.scan, .cmd], false⟩ f) (h : Ev f s x) :
    Ev f s (endHold k x) := by
  unfold endHold
  repeat' first
    | with_reducible exact h
    | with_reducible assumption
    | with_reducible refine setScan_ev (le_trans' hf rfl) ?_
    | with_reducible refine setScanMode_ev (le_trans' hf rfl) ?_
    | with_reducible refine ev_logN (part_mem hf rfl) (block_mem hf rfl) ?_
    | with_reducible refine ev_ite (fun _ => ?_) (fun _ => ?_)

theorem runRelease_ev {k : Fin 2} {t : Fin 8} {rel : Nat} (hf : Foot.le ⟨[.log, .scan], [.scan, .cmd], false⟩ f) (h : Ev f s x) :
    Ev f s (runRelease k t rel x) := by
  unfold runRelease
  repeat' first
    | with_reducible exact h
    | with_reducible assumption
    | with_reducible refine makeHeld_ev (le_trans' hf rfl) ?_
    | with_reducible refine releaseCycle_ev (le_trans' hf rfl) ?_
    | with_reducible refine setTask_ev (le_trans' hf rfl) ?_
    | with_reducible refine skipRelease_ev (le_trans' hf rfl) ?_
    | with_reducible refine ev_ite (fun _ => ?_) (fun _ => ?_)

theorem execTaskRelease_ev {k : Fin 2} {t : Fin 8} (hf : Foot.le ⟨[.tai, .ticks, .log, .scan], [.scan, .cmd], false⟩ f) (h : Ev f s x) :
    EvO f s (execTaskRelease k t x) := by
  unfold execTaskRelease
  repeat' first
    | with_reducible exact h
    | with_reducible assumption
    | with_reducible refine advanceCounter_ev (le_trans' hf rfl) ?_
    | with_reducible refine endHold_ev (le_trans' hf rfl) ?_
    | with_reducible refine releaseCycle_ev (le_trans' hf rfl) ?_
    | with_reducible refine runRelease_ev (le_trans' hf rfl) ?_
    | with_reducible refine setTask_ev (le_trans' hf rfl) ?_
    | with_reducible refine ev_reachNs (part_mem hf rfl) (part_mem hf rfl) ?_
    | with_reducible refine evo_next ?_
    | with_reducible refine evo_ite (fun _ => ?_) (fun _ => ?_)

theorem execHoldEnded_ev {k : Fin 2} (hf : Foot.le ⟨[.tai, .ticks, .log, .scan], [.scan, .cmd], false⟩ f) (h : Ev f s x) :
    EvO f s (execHoldEnded k x) := by
  unfold execHoldEnded
  repeat' first
    | with_reducible exact h
    | with_reducible assumption
    | with_reducible refine endHold_ev (le_trans' hf rfl) ?_
    | with_reducible refine ev_reachNs (part_mem hf rfl) (part_mem hf rfl) ?_
    | with_reducible refine evo_next ?_
    | with_reducible refine evo_ite (fun _ => ?_) (fun _ => ?_)
    | with_reducible refine ev_ite (fun _ => ?_) (fun _ => ?_)
    | exact Fin.isLt _
    | omega
    | split
    | dsimp only

theorem execCycleStart_ev {k : Fin 2} {t : Fin 8} (hf : Foot.le ⟨[.tai, .ticks, .scan], [], false⟩ f) (h : Ev f s x) :
    EvO f s (execCycleStart k t x) := by
  unfold execCycleStart
  repeat' first
    | with_reducible exact h
    | with_reducible assumption
    | with_reducible refine takeImage_ev (le_trans' hf rfl) ?_
    | with_reducible refine ev_reachNs (part_mem hf rfl) (part_mem hf rfl) ?_
    | with_reducible refine evo_next ?_
    | with_reducible refine evo_ite (fun _ => ?_) (fun _ => ?_)

theorem noteTime_ev {k : Fin 2} {t : Fin 8} (hf : Foot.le ⟨[], [.scan], false⟩ f) (h : Ev f s x) :
    Ev f s (noteTime k t x) := by
  unfold noteTime
  repeat' first
    | with_reducible exact h
    | with_reducible assumption
    | with_reducible refine ev_setF ?_ ?_
    | with_reducible refine ev_ite (fun _ => ?_) (fun _ => ?_)
    | with_reducible refine reg_SCAN_TASK_TIME hf rfl ?_ ?_
    | exact reg_block hf .scan rfl rfl
    | exact Fin.isLt _

theorem completeCycle_ev {k : Fin 2} {t : Fin 8} {at' : BitVec 64} {w : CycleResult} (hf : Foot.le ⟨[.tai, .ticks, .log, .scan], [.scan, .cmd], false⟩ f) (h : Ev f s x) :
    Ev f s (completeCycle k t at' w x) := by
  unfold completeCycle
  repeat' first
    | with_reducible exact h
    | with_reducible assumption
    | with_reducible refine noteTime_ev (le_trans' hf rfl) ?_
    | with_reducible refine setScan_ev (le_trans' hf rfl) ?_
    | with_reducible refine setTask_ev (le_trans' hf rfl) ?_
    | with_reducible refine settleQuiesce_ev (le_trans' hf rfl) ?_
    | with_reducible refine settleSwap_ev (le_trans' hf rfl) ?_
    | with_reducible refine transferNow_ev (le_trans' hf rfl) ?_
    | with_reducible refine ev_logN (part_mem hf rfl) (block_mem hf rfl) ?_
    | with_reducible refine ev_reachNs (part_mem hf rfl) (part_mem hf rfl) ?_
    | with_reducible refine ev_whenS (fun hc y hy => ?_) ?_
    | with_reducible refine ev_ite (fun _ => ?_) (fun _ => ?_)

theorem scanTrap_ev {k : Fin 2} {t : Fin 8} {cause : Fin 5} (hf : Foot.le ⟨[.log, .scan], [.scan, .cmd], false⟩ f) (h : Ev f s x) :
    Ev f s (scanTrap k t cause x) := by
  unfold scanTrap
  repeat' first
    | with_reducible exact h
    | with_reducible assumption
    | with_reducible refine trapCore_ev (le_trans' hf rfl) ?_
    | with_reducible refine ev_ite (fun _ => ?_) (fun _ => ?_)

theorem execScanAutostart_ev {k : Fin 2} (hf : Foot.le ⟨[.log, .scan], [.scan, .cmd], false⟩ f) (h : Ev f s x) :
    EvO f s (execScanAutostart k x) := by
  unfold execScanAutostart
  repeat' first
    | with_reducible exact h
    | with_reducible assumption
    | with_reducible refine autostart_ev (le_trans' hf rfl) ?_
    | with_reducible refine evo_next ?_

theorem execRemoteSet_ev {k : Fin 2} {b : Fin 32} {data : List Word} (hf : Foot.le ⟨[.log, .scan], [.scan, .cmd], false⟩ f) (h : Ev f s x) :
    EvO f s (execRemoteSet k b data x) := by
  unfold execRemoteSet
  repeat' first
    | with_reducible exact h
    | with_reducible assumption
    | with_reducible refine remoteArrived_ev (le_trans' hf rfl) ?_
    | with_reducible refine evo_next ?_

end Sys2Proof.Laws
end

