-- ==== Sys2Proof/Laws/EvFio.lean ====
section
/-! SUPPORT. What each change of Machine/Fio.lean can touch, and that it keeps the state sound: one lemma a function. -/

namespace Sys2Proof.Laws

open Sys2Proof Sys2Proof.Machine Sys2Proof.Safety

variable {f : Foot} {s x : State}

theorem groupOfDo_lt (n : Fin 16) : groupOfDo n < 2 := by
  unfold groupOfDo; omega

theorem stopLink_ev (hf : Foot.le ⟨[.fio], [], false⟩ f) (h : Ev f s x) :
    Ev f s (stopLink x) := by
  unfold stopLink
  repeat' first
    | with_reducible exact h
    | with_reducible assumption
    | with_reducible refine ev_ite (fun _ => ?_) (fun _ => ?_)
    | exact Fin.isLt _
    | omega
    | split
    | dsimp only
    | with_reducible refine ev_fio (part_mem hf rfl) ?_

theorem refreshDo_ev (hf : Foot.le ⟨[], [.fio], false⟩ f) (h : Ev f s x) :
    Ev f s (refreshDo x) := by
  unfold refreshDo
  repeat' first
    | with_reducible exact h
    | with_reducible assumption
    | with_reducible refine ev_setF ?_ ?_
    | with_reducible refine ev_ite (fun _ => ?_) (fun _ => ?_)
    | exact reg_block hf .fio rfl rfl

theorem silentWrite_ev {r : RegSpec} {a : Nat} {v : Word} (hf : Foot.le ⟨[.fio], [], false⟩ f) (h : Ev f s x) :
    Ev f s (silentWrite r a v x) := by
  unfold silentWrite
  repeat' first
    | with_reducible exact h
    | with_reducible assumption
    | with_reducible refine ev_ite (fun _ => ?_) (fun _ => ?_)
    | exact Fin.isLt _
    | omega
    | split
    | dsimp only
    | with_reducible refine ev_fio (part_mem hf rfl) ?_

theorem fioErr_ev (hf : Foot.le ⟨[], [.fio], false⟩ f) (h : Ev f s x) :
    Ev f s (fioErr x) := by
  unfold fioErr
  repeat' first
    | with_reducible exact h
    | with_reducible assumption
    | with_reducible refine ev_setF ?_ ?_
    | with_reducible refine ev_ite (fun _ => ?_) (fun _ => ?_)
    | exact reg_block hf .fio rfl rfl

theorem writeSafeCfg_ev {v : Word} (hf : Foot.le ⟨[], [.fio], false⟩ f) (h : Ev f s x) :
    Ev f s (writeSafeCfg v x) := by
  unfold writeSafeCfg
  repeat' first
    | with_reducible exact h
    | with_reducible assumption
    | with_reducible refine fioErr_ev (le_trans' hf rfl) ?_
    | with_reducible refine ev_setF ?_ ?_
    | with_reducible refine ev_ite (fun _ => ?_) (fun _ => ?_)
    | exact reg_block hf .fio rfl rfl

theorem fieldLog_ev {code : Nat} {src : Nat} {arg : Nat} (hf : Foot.le ⟨[.log, .fio], [.cmd], false⟩ f) (h : Ev f s x) :
    Ev f s (fieldLog code src arg x) := by
  unfold fieldLog
  repeat' first
    | with_reducible exact h
    | with_reducible assumption
    | with_reducible refine ev_logN (part_mem hf rfl) (block_mem hf rfl) ?_
    | with_reducible refine ev_ite (fun _ => ?_) (fun _ => ?_)
    | exact reg_block hf .cmd rfl rfl
    | exact Fin.isLt _
    | omega
    | split
    | dsimp only
    | with_reducible refine ev_fio (part_mem hf rfl) ?_

theorem setGrp_ev {f0 : Fld} {g : Fin 2} {b : Bool} (hf : Foot.le ⟨[], [.fio], false⟩ f) (h : Ev f s x) :
    Ev f s (setGrp f0 g b x) := by
  unfold setGrp
  repeat' first
    | with_reducible exact h
    | with_reducible assumption
    | with_reducible refine ev_setFbit ?_ ?_
    | with_reducible refine ev_ite (fun _ => ?_) (fun _ => ?_)
    | exact reg_block hf .fio rfl rfl

theorem ackGroup_ev {g : Fin 2} (hf : Foot.le ⟨[.log, .fio], [.fio, .cmd], false⟩ f) (h : Ev f s x) :
    Ev f s (ackGroup g x) := by
  unfold ackGroup
  repeat' first
    | with_reducible exact h
    | with_reducible assumption
    | with_reducible refine fieldLog_ev (le_trans' hf rfl) ?_
    | with_reducible refine fioErr_ev (le_trans' hf rfl) ?_
    | with_reducible refine refreshDo_ev (le_trans' hf rfl) ?_
    | with_reducible refine setGrp_ev (le_trans' hf rfl) ?_
    | with_reducible refine ev_ite (fun _ => ?_) (fun _ => ?_)

theorem writeGrpCtrl_ev {v : Word} {ackActs : Bool} (hf : Foot.le ⟨[.log, .fio], [.fio, .dpx, .cmd], false⟩ f) (h : Ev f s x) :
    Ev f s (writeGrpCtrl v ackActs x) := by
  unfold writeGrpCtrl
  repeat' first
    | with_reducible exact h
    | with_reducible assumption
    | with_reducible refine ackGroup_ev (le_trans' hf rfl) ?_
    | with_reducible refine refreshDo_ev (le_trans' hf rfl) ?_
    | with_reducible refine ev_setF ?_ ?_
    | (with_reducible refine ev_forEach_range (fun i hi y hy => ?_) ?_)
    | (with_reducible refine ev_forEach (fun i hi y hy => ?_) ?_)
    | with_reducible refine ev_ite (fun _ => ?_) (fun _ => ?_)
    | exact reg_block hf .fio rfl rfl
    | exact reg_block hf .dpx rfl rfl

theorem writeDoCfg_ev {n : Nat} {v : Word} (hf : Foot.le ⟨[], [.fio], false⟩ f) (hn : n < 16) (h : Ev f s x) :
    Ev f s (writeDoCfg n v x) := by
  unfold writeDoCfg
  repeat' first
    | with_reducible exact h
    | with_reducible assumption
    | with_reducible refine fioErr_ev (le_trans' hf rfl) ?_
    | with_reducible refine refreshDo_ev (le_trans' hf rfl) ?_
    | with_reducible refine ev_wr ?_ ?_
    | with_reducible refine ev_ite (fun _ => ?_) (fun _ => ?_)
    | with_reducible refine reg_FIO_DO_CFG hf rfl ?_

theorem writeDoCfg_at {n : Nat} {v : Word} (hf : Foot.le ⟨[], [.fio], false⟩ f) (hk : Reg.FIO_DO_CFG n / 0x10000 = 0x400B) (h : Ev f s x) :
    Ev f s (writeDoCfg n v x) := by
  unfold writeDoCfg
  repeat' first
    | with_reducible exact h
    | with_reducible assumption
    | with_reducible refine fioErr_ev (le_trans' hf rfl) ?_
    | with_reducible refine refreshDo_ev (le_trans' hf rfl) ?_
    | with_reducible refine ev_wr ?_ ?_
    | with_reducible refine ev_ite (fun _ => ?_) (fun _ => ?_)
    | exact reg_at hf 0x400B .fio rfl rfl hk

theorem setDo_ev {n : Fin 16} {x0 : DoDriver} (hf : Foot.le ⟨[.fio], [], false⟩ f) (h : Ev f s x) :
    Ev f s (setDo n x0 x) := by
  unfold setDo
  repeat' first
    | with_reducible exact h
    | with_reducible assumption
    | with_reducible refine ev_ite (fun _ => ?_) (fun _ => ?_)
    | exact Fin.isLt _
    | omega
    | split
    | dsimp only
    | with_reducible refine ev_fio (part_mem hf rfl) ?_

theorem writeDoFault_ev {v : Word} (hf : Foot.le ⟨[.fio], [.fio], false⟩ f) (h : Ev f s x) :
    Ev f s (writeDoFault v x) := by
  unfold writeDoFault
  repeat' first
    | with_reducible exact h
    | with_reducible assumption
    | with_reducible refine refreshDo_ev (le_trans' hf rfl) ?_
    | with_reducible refine setDo_ev (le_trans' hf rfl) ?_
    | with_reducible refine ev_setF ?_ ?_
    | (with_reducible refine ev_forEach_range (fun i hi y hy => ?_) ?_)
    | (with_reducible refine ev_forEach (fun i hi y hy => ?_) ?_)
    | with_reducible refine ev_ite (fun _ => ?_) (fun _ => ?_)
    | exact reg_block hf .fio rfl rfl

theorem setTrip_ev {n : Fin 4} {x0 : TripDriver} (hf : Foot.le ⟨[.fio], [], false⟩ f) (h : Ev f s x) :
    Ev f s (setTrip n x0 x) := by
  unfold setTrip
  repeat' first
    | with_reducible exact h
    | with_reducible assumption
    | with_reducible refine ev_ite (fun _ => ?_) (fun _ => ?_)
    | exact Fin.isLt _
    | omega
    | split
    | dsimp only
    | with_reducible refine ev_fio (part_mem hf rfl) ?_

theorem energise_ev {n : Fin 4} {b : Bool} (hf : Foot.le ⟨[.fio], [.fio], false⟩ f) (h : Ev f s x) :
    Ev f s (energise n b x) := by
  unfold energise
  repeat' first
    | with_reducible exact h
    | with_reducible assumption
    | with_reducible refine setTrip_ev (le_trans' hf rfl) ?_
    | with_reducible refine ev_setFbit ?_ ?_
    | with_reducible refine ev_ite (fun _ => ?_) (fun _ => ?_)
    | exact reg_block hf .fio rfl rfl

theorem settleTrip_ev {n : Fin 4} (hf : Foot.le ⟨[.log, .fio], [.fio, .cmd], false⟩ f) (h : Ev f s x) :
    Ev f s (settleTrip n x) := by
  unfold settleTrip
  repeat' first
    | with_reducible exact h
    | with_reducible assumption
    | with_reducible refine energise_ev (le_trans' hf rfl) ?_
    | with_reducible refine fieldLog_ev (le_trans' hf rfl) ?_
    | with_reducible refine setTrip_ev (le_trans' hf rfl) ?_
    | with_reducible refine ev_ite (fun _ => ?_) (fun _ => ?_)

theorem settleTrips_ev (hf : Foot.le ⟨[.log, .fio], [.fio, .cmd], false⟩ f) (h : Ev f s x) :
    Ev f s (settleTrips x) := by
  unfold settleTrips
  repeat' first
    | with_reducible exact h
    | with_reducible assumption
    | with_reducible refine settleTrip_ev (le_trans' hf rfl) ?_
    | (with_reducible refine ev_forEach_range (fun i hi y hy => ?_) ?_)
    | (with_reducible refine ev_forEach (fun i hi y hy => ?_) ?_)

theorem writeTripCfg_ev {n : Nat} {v : Word} (hf : Foot.le ⟨[.log, .fio], [.fio, .cmd], false⟩ f) (hn : n < 4) (h : Ev f s x) :
    Ev f s (writeTripCfg n v x) := by
  unfold writeTripCfg
  repeat' first
    | with_reducible exact h
    | with_reducible assumption
    | with_reducible refine settleTrips_ev (le_trans' hf rfl) ?_
    | with_reducible refine ev_wr ?_ ?_
    | with_reducible refine ev_setFbit ?_ ?_
    | with_reducible refine ev_whenS (fun hc y hy => ?_) ?_
    | with_reducible refine ev_ite (fun _ => ?_) (fun _ => ?_)
    | with_reducible refine reg_FIO_TRIP_CFG hf rfl ?_
    | exact reg_block hf .fio rfl rfl

theorem writeTripCfg_at {n : Nat} {v : Word} (hf : Foot.le ⟨[.log, .fio], [.fio, .cmd], false⟩ f) (hk : Reg.FIO_TRIP_CFG n / 0x10000 = 0x400B) (h : Ev f s x) :
    Ev f s (writeTripCfg n v x) := by
  unfold writeTripCfg
  repeat' first
    | with_reducible exact h
    | with_reducible assumption
    | with_reducible refine settleTrips_ev (le_trans' hf rfl) ?_
    | with_reducible refine ev_wr ?_ ?_
    | with_reducible refine ev_setFbit ?_ ?_
    | with_reducible refine ev_whenS (fun hc y hy => ?_) ?_
    | with_reducible refine ev_ite (fun _ => ?_) (fun _ => ?_)
    | exact reg_at hf 0x400B .fio rfl rfl hk
    | with_reducible refine reg_FIO_TRIP_CFG hf rfl ?_
    | exact reg_block hf .fio rfl rfl

theorem sleepField_ev (hf : Foot.le ⟨[.log, .fio], [.fio, .cmd], false⟩ f) (h : Ev f s x) :
    Ev f s (sleepField x) := by
  unfold sleepField
  repeat' first
    | with_reducible exact h
    | with_reducible assumption
    | with_reducible refine refreshDo_ev (le_trans' hf rfl) ?_
    | with_reducible refine settleTrips_ev (le_trans' hf rfl) ?_
    | with_reducible refine ev_setF ?_ ?_
    | with_reducible refine ev_ite (fun _ => ?_) (fun _ => ?_)
    | exact reg_block hf .fio rfl rfl
    | exact Fin.isLt _
    | omega
    | split
    | dsimp only
    | with_reducible refine ev_fio (part_mem hf rfl) ?_

theorem coolDown_ev {n : Fin 4} (hf : Foot.le ⟨[.fresh, .log, .fio], [.fio, .cmd], false⟩ f) (h : Ev f s x) :
    Ev f s (coolDown n x) := by
  unfold coolDown
  repeat' first
    | with_reducible exact h
    | with_reducible assumption
    | with_reducible refine energise_ev (le_trans' hf rfl) ?_
    | with_reducible refine setTrip_ev (le_trans' hf rfl) ?_
    | with_reducible refine settleTrip_ev (le_trans' hf rfl) ?_
    | refine ev_snd (by assumption) ?_
    | with_reducible refine ev_setFbit ?_ ?_
    | with_reducible refine ev_takeFree (part_mem hf rfl) ?_
    | with_reducible refine ev_ite (fun _ => ?_) (fun _ => ?_)
    | exact reg_block hf .fio rfl rfl

theorem execTripStrobe_ev {n : Fin 4} {level : Bool} (hf : Foot.le ⟨[.log, .fio], [.fio, .cmd], false⟩ f) (h : Ev f s x) :
    EvO f s (execTripStrobe n level x) := by
  unfold execTripStrobe
  repeat' first
    | with_reducible exact h
    | with_reducible assumption
    | with_reducible refine settleTrip_ev (le_trans' hf rfl) ?_
    | with_reducible refine ev_setFbit ?_ ?_
    | with_reducible refine evo_next ?_
    | with_reducible refine evo_ite (fun _ => ?_) (fun _ => ?_)
    | with_reducible refine ev_ite (fun _ => ?_) (fun _ => ?_)
    | exact reg_block hf .fio rfl rfl

theorem execTripShort_ev {n : Fin 4} (hf : Foot.le ⟨[.fresh, .log, .fio], [.fio, .cmd], false⟩ f) (h : Ev f s x) :
    EvO f s (execTripShort n x) := by
  unfold execTripShort
  repeat' first
    | with_reducible exact h
    | with_reducible assumption
    | with_reducible refine coolDown_ev (le_trans' hf rfl) ?_
    | with_reducible refine fieldLog_ev (le_trans' hf rfl) ?_
    | with_reducible refine ev_setFbit ?_ ?_
    | with_reducible refine evo_next ?_
    | with_reducible refine evo_ite (fun _ => ?_) (fun _ => ?_)
    | with_reducible refine ev_ite (fun _ => ?_) (fun _ => ?_)
    | exact reg_block hf .fio rfl rfl

theorem execTripOvertime_ev {n : Fin 4} (hf : Foot.le ⟨[.fresh, .log, .fio], [.fio, .cmd], false⟩ f) (h : Ev f s x) :
    EvO f s (execTripOvertime n x) := by
  unfold execTripOvertime
  repeat' first
    | with_reducible exact h
    | with_reducible assumption
    | with_reducible refine coolDown_ev (le_trans' hf rfl) ?_
    | with_reducible refine fieldLog_ev (le_trans' hf rfl) ?_
    | with_reducible refine ev_setFbit ?_ ?_
    | with_reducible refine evo_next ?_
    | with_reducible refine evo_ite (fun _ => ?_) (fun _ => ?_)
    | with_reducible refine ev_ite (fun _ => ?_) (fun _ => ?_)
    | exact reg_block hf .fio rfl rfl

theorem execTripCooldownEnd_ev {n : Fin 4} (hf : Foot.le ⟨[.tai, .ticks, .log, .fio], [.fio, .cmd], false⟩ f) (h : Ev f s x) :
    EvO f s (execTripCooldownEnd n x) := by
  unfold execTripCooldownEnd
  repeat' first
    | with_reducible exact h
    | with_reducible assumption
    | with_reducible refine setTrip_ev (le_trans' hf rfl) ?_
    | with_reducible refine settleTrip_ev (le_trans' hf rfl) ?_
    | with_reducible refine ev_setFbit ?_ ?_
    | with_reducible refine ev_reachLocal (part_mem hf rfl) (part_mem hf rfl) ?_
    | with_reducible refine evo_next ?_
    | with_reducible refine evo_ite (fun _ => ?_) (fun _ => ?_)
    | with_reducible refine ev_ite (fun _ => ?_) (fun _ => ?_)
    | exact reg_block hf .fio rfl rfl

theorem execVtripLow_ev {dv : BitVec 16} (hf : Foot.le ⟨[.log, .fio], [.fio, .cmd], false⟩ f) (h : Ev f s x) :
    EvO f s (execVtripLow dv x) := by
  unfold execVtripLow
  repeat' first
    | with_reducible exact h
    | with_reducible assumption
    | with_reducible refine fieldLog_ev (le_trans' hf rfl) ?_
    | with_reducible refine ev_setF ?_ ?_
    | with_reducible refine ev_whenS (fun hc y hy => ?_) ?_
    | with_reducible refine evo_next ?_
    | with_reducible refine evo_ite (fun _ => ?_) (fun _ => ?_)
    | with_reducible refine ev_ite (fun _ => ?_) (fun _ => ?_)
    | exact reg_block hf .fio rfl rfl

theorem execVtripRestored_ev {dv : BitVec 16} (hf : Foot.le ⟨[], [.fio], false⟩ f) (h : Ev f s x) :
    EvO f s (execVtripRestored dv x) := by
  unfold execVtripRestored
  repeat' first
    | with_reducible exact h
    | with_reducible assumption
    | with_reducible refine ev_setF ?_ ?_
    | with_reducible refine evo_next ?_
    | with_reducible refine evo_ite (fun _ => ?_) (fun _ => ?_)
    | with_reducible refine ev_ite (fun _ => ?_) (fun _ => ?_)
    | exact reg_block hf .fio rfl rfl

theorem execTripSupervision_ev {n : Fin 4} {intact : Bool} (hf : Foot.le ⟨[.tai, .ticks], [.fio], false⟩ f) (h : Ev f s x) :
    EvO f s (execTripSupervision n intact x) := by
  unfold execTripSupervision
  repeat' first
    | with_reducible exact h
    | with_reducible assumption
    | with_reducible refine ev_setFbit ?_ ?_
    | with_reducible refine ev_reachLocal (part_mem hf rfl) (part_mem hf rfl) ?_
    | with_reducible refine evo_next ?_
    | with_reducible refine evo_ite (fun _ => ?_) (fun _ => ?_)
    | with_reducible refine ev_ite (fun _ => ?_) (fun _ => ?_)
    | exact reg_block hf .fio rfl rfl
    | exact Fin.isLt _
    | omega
    | split

theorem execTripExtDrive_ev {n : Fin 4} {dv : Nat} (hf : Foot.le ⟨[.log, .fio], [.fio, .cmd], false⟩ f) (h : Ev f s x) :
    EvO f s (execTripExtDrive n dv x) := by
  unfold execTripExtDrive
  repeat' first
    | with_reducible exact h
    | with_reducible assumption
    | with_reducible refine fieldLog_ev (le_trans' hf rfl) ?_
    | with_reducible refine ev_setFbit ?_ ?_
    | with_reducible refine ev_whenS (fun hc y hy => ?_) ?_
    | with_reducible refine evo_next ?_
    | with_reducible refine evo_ite (fun _ => ?_) (fun _ => ?_)
    | with_reducible refine ev_ite (fun _ => ?_) (fun _ => ?_)
    | exact reg_block hf .fio rfl rfl

theorem enterSafe_ev {cause : Nat} (hf : Foot.le ⟨[.log, .fio], [.fio, .cmd], false⟩ f) (h : Ev f s x) :
    Ev f s (enterSafe cause x) := by
  unfold enterSafe
  repeat' first
    | with_reducible exact h
    | with_reducible assumption
    | with_reducible refine fieldLog_ev (le_trans' hf rfl) ?_
    | with_reducible refine refreshDo_ev (le_trans' hf rfl) ?_
    | with_reducible refine settleTrips_ev (le_trans' hf rfl) ?_
    | with_reducible refine ev_setF ?_ ?_
    | with_reducible refine ev_ite (fun _ => ?_) (fun _ => ?_)
    | exact reg_block hf .fio rfl rfl
    | exact Fin.isLt _
    | omega
    | split
    | dsimp only
    | with_reducible refine ev_fio (part_mem hf rfl) ?_

theorem execSafeStateEntered_ev (hf : Foot.le ⟨[.tai, .ticks, .log, .fio], [.fio, .cmd], false⟩ f) (h : Ev f s x) :
    EvO f s (execSafeStateEntered x) := by
  unfold execSafeStateEntered
  repeat' first
    | with_reducible exact h
    | with_reducible assumption
    | with_reducible refine enterSafe_ev (le_trans' hf rfl) ?_
    | with_reducible refine ev_reachLocal (part_mem hf rfl) (part_mem hf rfl) ?_
    | with_reducible refine evo_next ?_
    | with_reducible refine evo_ite (fun _ => ?_) (fun _ => ?_)

theorem leaveSafe_ev (hf : Foot.le ⟨[.log, .fio], [.fio, .cmd], false⟩ f) (h : Ev f s x) :
    Ev f s (leaveSafe x) := by
  unfold leaveSafe
  repeat' first
    | with_reducible exact h
    | with_reducible assumption
    | with_reducible refine fieldLog_ev (le_trans' hf rfl) ?_
    | with_reducible refine refreshDo_ev (le_trans' hf rfl) ?_
    | with_reducible refine settleTrips_ev (le_trans' hf rfl) ?_
    | with_reducible refine ev_setF ?_ ?_
    | with_reducible refine ev_ite (fun _ => ?_) (fun _ => ?_)
    | exact reg_block hf .fio rfl rfl
    | exact Fin.isLt _
    | omega
    | split
    | dsimp only
    | with_reducible refine ev_fio (part_mem hf rfl) ?_

theorem takeCopy_ev {n : Fin 4} (hf : Foot.le ⟨[.log, .fio], [.fio, .cmd], false⟩ f) (h : Ev f s x) :
    Ev f s (takeCopy n x) := by
  unfold takeCopy
  repeat' first
    | with_reducible exact h
    | with_reducible assumption
    | with_reducible refine fieldLog_ev (le_trans' hf rfl) ?_
    | with_reducible refine setTrip_ev (le_trans' hf rfl) ?_
    | with_reducible refine settleTrip_ev (le_trans' hf rfl) ?_
    | with_reducible refine ev_whenS (fun hc y hy => ?_) ?_

theorem goodFrame_ev (hf : Foot.le ⟨[.log, .fio], [.fio, .cmd], false⟩ f) (h : Ev f s x) :
    Ev f s (goodFrame x) := by
  unfold goodFrame
  repeat' first
    | with_reducible exact h
    | with_reducible assumption
    | with_reducible refine enterSafe_ev (le_trans' hf rfl) ?_
    | with_reducible refine leaveSafe_ev (le_trans' hf rfl) ?_
    | with_reducible refine refreshDo_ev (le_trans' hf rfl) ?_
    | with_reducible refine takeCopy_ev (le_trans' hf rfl) ?_
    | with_reducible refine ev_setF ?_ ?_
    | (with_reducible refine ev_forEach_range (fun i hi y hy => ?_) ?_)
    | (with_reducible refine ev_forEach (fun i hi y hy => ?_) ?_)
    | with_reducible refine ev_ite (fun _ => ?_) (fun _ => ?_)
    | exact reg_block hf .fio rfl rfl
    | exact Fin.isLt _
    | omega
    | split
    | dsimp only
    | with_reducible refine ev_fio (part_mem hf rfl) ?_

theorem badFrame_ev (hf : Foot.le ⟨[.log, .fio], [.fio, .cmd], false⟩ f) (h : Ev f s x) :
    Ev f s (badFrame x) := by
  unfold badFrame
  repeat' first
    | with_reducible exact h
    | with_reducible assumption
    | with_reducible refine fieldLog_ev (le_trans' hf rfl) ?_
    | with_reducible refine ev_wr ?_ ?_
    | with_reducible refine ev_ite (fun _ => ?_) (fun _ => ?_)
    | exact reg_block hf .fio rfl rfl
    | exact Fin.isLt _
    | omega
    | split
    | dsimp only
    | with_reducible refine ev_fio (part_mem hf rfl) ?_

theorem execFieldLinkFrame_ev {ok : Bool} (hf : Foot.le ⟨[.log, .fio], [.fio, .cmd], false⟩ f) (h : Ev f s x) :
    EvO f s (execFieldLinkFrame ok x) := by
  unfold execFieldLinkFrame
  repeat' first
    | with_reducible exact h
    | with_reducible assumption
    | with_reducible refine badFrame_ev (le_trans' hf rfl) ?_
    | with_reducible refine goodFrame_ev (le_trans' hf rfl) ?_
    | with_reducible refine evo_next ?_
    | with_reducible refine evo_ite (fun _ => ?_) (fun _ => ?_)
    | with_reducible refine ev_ite (fun _ => ?_) (fun _ => ?_)

theorem execSafeStateLeft_ev (hf : Foot.le ⟨[.log, .fio], [.fio, .cmd], false⟩ f) (h : Ev f s x) :
    EvO f s (execSafeStateLeft x) := by
  unfold execSafeStateLeft
  repeat' first
    | with_reducible exact h
    | with_reducible assumption
    | with_reducible refine goodFrame_ev (le_trans' hf rfl) ?_
    | with_reducible refine evo_next ?_
    | with_reducible refine evo_ite (fun _ => ?_) (fun _ => ?_)

theorem execStrobeMismatch_ev {n : Fin 4} (hf : Foot.le ⟨[.log, .fio], [.fio, .cmd], false⟩ f) (h : Ev f s x) :
    EvO f s (execStrobeMismatch n x) := by
  unfold execStrobeMismatch
  repeat' first
    | with_reducible exact h
    | with_reducible assumption
    | with_reducible refine goodFrame_ev (le_trans' hf rfl) ?_
    | with_reducible refine evo_next ?_
    | with_reducible refine evo_ite (fun _ => ?_) (fun _ => ?_)

theorem execDiSample_ev {raw : BitVec 16} (hf : Foot.le ⟨[.tai, .ticks, .scan, .fio], [.fio], false⟩ f) (h : Ev f s x) :
    EvO f s (execDiSample raw x) := by
  unfold execDiSample
  repeat' first
    | with_reducible exact h
    | with_reducible assumption
    | with_reducible refine edgeSample_ev (le_trans' hf rfl) ?_
    | with_reducible refine ev_setF ?_ ?_
    | with_reducible refine ev_reachNs (part_mem hf rfl) (part_mem hf rfl) ?_
    | with_reducible refine evo_next ?_
    | with_reducible refine evo_ite (fun _ => ?_) (fun _ => ?_)
    | with_reducible refine ev_ite (fun _ => ?_) (fun _ => ?_)
    | exact reg_block hf .fio rfl rfl
    | exact Fin.isLt _
    | omega
    | split
    | dsimp only
    | with_reducible refine ev_fio (part_mem hf rfl) ?_

theorem execDoOverload_ev {n : Fin 16} {hot : Bool} (hf : Foot.le ⟨[.log, .fio], [.fio, .cmd], false⟩ f) (h : Ev f s x) :
    EvO f s (execDoOverload n hot x) := by
  unfold execDoOverload
  repeat' first
    | with_reducible exact h
    | with_reducible assumption
    | with_reducible refine fieldLog_ev (le_trans' hf rfl) ?_
    | with_reducible refine refreshDo_ev (le_trans' hf rfl) ?_
    | with_reducible refine setDo_ev (le_trans' hf rfl) ?_
    | with_reducible refine ev_setFbit ?_ ?_
    | with_reducible refine evo_next ?_
    | with_reducible refine evo_ite (fun _ => ?_) (fun _ => ?_)
    | with_reducible refine ev_ite (fun _ => ?_) (fun _ => ?_)
    | with_reducible refine reg_FIO_DO_CFG hf rfl ?_
    | exact reg_block hf .fio rfl rfl

theorem execDoRetry_ev {n : Fin 16} (hf : Foot.le ⟨[.tai, .ticks, .fio], [.fio], false⟩ f) (h : Ev f s x) :
    EvO f s (execDoRetry n x) := by
  unfold execDoRetry
  repeat' first
    | with_reducible exact h
    | with_reducible assumption
    | with_reducible refine refreshDo_ev (le_trans' hf rfl) ?_
    | with_reducible refine setDo_ev (le_trans' hf rfl) ?_
    | with_reducible refine ev_reachLocal (part_mem hf rfl) (part_mem hf rfl) ?_
    | with_reducible refine evo_next ?_
    | with_reducible refine evo_ite (fun _ => ?_) (fun _ => ?_)

theorem execDemagExcess_ev {n : Fin 16} {mj : Nat} (hf : Foot.le ⟨[.log, .fio], [.fio, .cmd], false⟩ f) (h : Ev f s x) :
    EvO f s (execDemagExcess n mj x) := by
  unfold execDemagExcess
  repeat' first
    | with_reducible exact h
    | with_reducible assumption
    | with_reducible refine fieldLog_ev (le_trans' hf rfl) ?_
    | with_reducible refine ev_wr ?_ ?_
    | with_reducible refine ev_setFbit ?_ ?_
    | with_reducible refine evo_next ?_
    | with_reducible refine evo_ite (fun _ => ?_) (fun _ => ?_)
    | with_reducible refine ev_ite (fun _ => ?_) (fun _ => ?_)
    | with_reducible refine reg_FIO_DEMAG hf rfl ?_
    | exact reg_block hf .fio rfl rfl
    | exact groupOfDo_lt _
    | exact Fin.isLt _
    | omega
    | split
    | dsimp only
    | with_reducible refine ev_fio (part_mem hf rfl) ?_

theorem execDoMonitor_ev {n : Fin 16} {dv : Nat} (hf : Foot.le ⟨[.log, .fio], [.fio, .cmd], false⟩ f) (h : Ev f s x) :
    EvO f s (execDoMonitor n dv x) := by
  unfold execDoMonitor
  repeat' first
    | with_reducible exact h
    | with_reducible assumption
    | with_reducible refine fieldLog_ev (le_trans' hf rfl) ?_
    | with_reducible refine ev_setFbit ?_ ?_
    | with_reducible refine ev_whenS (fun hc y hy => ?_) ?_
    | with_reducible refine evo_next ?_
    | with_reducible refine evo_ite (fun _ => ?_) (fun _ => ?_)
    | with_reducible refine ev_ite (fun _ => ?_) (fun _ => ?_)
    | with_reducible refine reg_FIO_DO_CFG hf rfl ?_
    | exact reg_block hf .fio rfl rfl

theorem showVfield_ev {g : Fin 2} {cv : BitVec 16} (hf : Foot.le ⟨[], [.fio], false⟩ f) (h : Ev f s x) :
    Ev f s (showVfield g cv x) := by
  unfold showVfield
  repeat' first
    | with_reducible exact h
    | with_reducible assumption
    | with_reducible refine ev_setF ?_ ?_
    | with_reducible refine ev_ite (fun _ => ?_) (fun _ => ?_)
    | exact reg_block hf .fio rfl rfl

theorem execFieldLow_ev {g : Fin 2} {cv : BitVec 16} (hf : Foot.le ⟨[.log, .fio], [.fio, .cmd], false⟩ f) (h : Ev f s x) :
    EvO f s (execFieldLow g cv x) := by
  unfold execFieldLow
  repeat' first
    | with_reducible exact h
    | with_reducible assumption
    | with_reducible refine fieldLog_ev (le_trans' hf rfl) ?_
    | with_reducible refine setGrp_ev (le_trans' hf rfl) ?_
    | with_reducible refine showVfield_ev (le_trans' hf rfl) ?_
    | with_reducible refine ev_whenS (fun hc y hy => ?_) ?_
    | with_reducible refine evo_next ?_

theorem execFieldLost_ev {g : Fin 2} {cv : BitVec 16} (hf : Foot.le ⟨[.log, .fio], [.fio, .cmd], false⟩ f) (h : Ev f s x) :
    EvO f s (execFieldLost g cv x) := by
  unfold execFieldLost
  repeat' first
    | with_reducible exact h
    | with_reducible assumption
    | with_reducible refine fieldLog_ev (le_trans' hf rfl) ?_
    | with_reducible refine refreshDo_ev (le_trans' hf rfl) ?_
    | with_reducible refine setGrp_ev (le_trans' hf rfl) ?_
    | with_reducible refine showVfield_ev (le_trans' hf rfl) ?_
    | with_reducible refine ev_whenS (fun hc y hy => ?_) ?_
    | with_reducible refine evo_next ?_

theorem execFieldRestored_ev {g : Fin 2} {cv : BitVec 16} (hf : Foot.le ⟨[.log, .fio], [.fio, .cmd], false⟩ f) (h : Ev f s x) :
    EvO f s (execFieldRestored g cv x) := by
  unfold execFieldRestored
  repeat' first
    | with_reducible exact h
    | with_reducible assumption
    | with_reducible refine fieldLog_ev (le_trans' hf rfl) ?_
    | with_reducible refine refreshDo_ev (le_trans' hf rfl) ?_
    | with_reducible refine setGrp_ev (le_trans' hf rfl) ?_
    | with_reducible refine showVfield_ev (le_trans' hf rfl) ?_
    | with_reducible refine evo_next ?_
    | with_reducible refine evo_ite (fun _ => ?_) (fun _ => ?_)

theorem execFieldLowCleared_ev {g : Fin 2} {cv : BitVec 16} (hf : Foot.le ⟨[], [.fio], false⟩ f) (h : Ev f s x) :
    EvO f s (execFieldLowCleared g cv x) := by
  unfold execFieldLowCleared
  repeat' first
    | with_reducible exact h
    | with_reducible assumption
    | with_reducible refine setGrp_ev (le_trans' hf rfl) ?_
    | with_reducible refine showVfield_ev (le_trans' hf rfl) ?_
    | with_reducible refine evo_next ?_
    | with_reducible refine evo_ite (fun _ => ?_) (fun _ => ?_)
    | with_reducible refine ev_ite (fun _ => ?_) (fun _ => ?_)

theorem fieldPowerUp_ev (hf : Foot.le ⟨[.fio], [.fio], false⟩ f) (h : Ev f s x) :
    Ev f s (fieldPowerUp x) := by
  unfold fieldPowerUp
  repeat' first
    | with_reducible exact h
    | with_reducible assumption
    | with_reducible refine ev_setF ?_ ?_
    | with_reducible refine ev_ite (fun _ => ?_) (fun _ => ?_)
    | exact reg_block hf .fio rfl rfl
    | exact Fin.isLt _
    | omega
    | split
    | dsimp only
    | with_reducible refine ev_fio (part_mem hf rfl) ?_

theorem startLink_ev (hf : Foot.le ⟨[.log, .fio], [.fio, .cmd], false⟩ f) (h : Ev f s x) :
    Ev f s (startLink x) := by
  unfold startLink
  repeat' first
    | with_reducible exact h
    | with_reducible assumption
    | with_reducible refine refreshDo_ev (le_trans' hf rfl) ?_
    | with_reducible refine settleTrips_ev (le_trans' hf rfl) ?_
    | with_reducible refine ev_setF ?_ ?_
    | with_reducible refine ev_logN (part_mem hf rfl) (block_mem hf rfl) ?_
    | (with_reducible refine ev_forEach_range (fun i hi y hy => ?_) ?_)
    | (with_reducible refine ev_forEach (fun i hi y hy => ?_) ?_)
    | with_reducible refine ev_whenS (fun hc y hy => ?_) ?_
    | with_reducible refine ev_ite (fun _ => ?_) (fun _ => ?_)
    | exact reg_block hf .fio rfl rfl
    | exact reg_block hf .cmd rfl rfl
    | exact Fin.isLt _
    | omega
    | split
    | dsimp only
    | with_reducible refine ev_fio (part_mem hf rfl) ?_

end Sys2Proof.Laws
end

