-- ==== Sys2Proof/Laws/EvLoop.lean ====
section
/-! SUPPORT. What each change of Machine/Loop.lean can touch, and that it keeps the state sound: one lemma a function. -/

namespace Sys2Proof.Laws

open Sys2Proof Sys2Proof.Machine Sys2Proof.Safety

variable {f : Foot} {s x : State}

theorem setGfm_ev {g : Fin 2} {x0 : GfmStage} (hf : Foot.le ⟨[.gfm], [], false⟩ f) (h : Ev f s x) :
    Ev f s (setGfm g x0 x) := by
  unfold setGfm
  repeat' first
    | with_reducible exact h
    | with_reducible assumption
    | with_reducible refine ev_ite (fun _ => ?_) (fun _ => ?_)
    | exact Fin.isLt _
    | omega
    | split
    | dsimp only
    | with_reducible refine ev_gfm (part_mem hf rfl) ?_

theorem ctrlErr_ev (hf : Foot.le ⟨[], [.ctrl], false⟩ f) (h : Ev f s x) :
    Ev f s (ctrlErr x) := by
  unfold ctrlErr
  repeat' first
    | with_reducible exact h
    | with_reducible assumption
    | with_reducible refine ev_setF ?_ ?_
    | with_reducible refine ev_ite (fun _ => ?_) (fun _ => ?_)
    | exact reg_block hf .ctrl rfl rfl

theorem writeHover_ev {st : Fin 4} {v : Word} (hf : Foot.le ⟨[], [.ctrl], false⟩ f) (h : Ev f s x) :
    Ev f s (writeHover st v x) := by
  unfold writeHover
  repeat' first
    | with_reducible exact h
    | with_reducible assumption
    | with_reducible refine ctrlErr_ev (le_trans' hf rfl) ?_
    | with_reducible refine ev_setF ?_ ?_
    | with_reducible refine ev_ite (fun _ => ?_) (fun _ => ?_)
    | with_reducible refine reg_CTRL_HOVER_CFG hf rfl ?_
    | exact reg_block hf .ctrl rfl rfl
    | exact Fin.isLt _

theorem writeMap_ev {st : Fin 4} {a : Nat} {v : Word} {mask : Word} (hf : Foot.le ⟨[.loop], [.ctrl], false⟩ f) (ha : Foot.reg f a) (h : Ev f s x) :
    Ev f s (writeMap st a v mask x) := by
  unfold writeMap
  repeat' first
    | with_reducible exact h
    | with_reducible assumption
    | with_reducible refine setStage_ev (le_trans' hf rfl) ?_
    | with_reducible refine ev_wr ?_ ?_

theorem writeLimit_ev {st : Nat} {v : Word} (hf : Foot.le ⟨[], [.ctrl], false⟩ f) (hst : st < 4) (h : Ev f s x) :
    Ev f s (writeLimit st v x) := by
  unfold writeLimit
  repeat' first
    | with_reducible exact h
    | with_reducible assumption
    | with_reducible refine ctrlErr_ev (le_trans' hf rfl) ?_
    | with_reducible refine ev_setF ?_ ?_
    | with_reducible refine ev_ite (fun _ => ?_) (fun _ => ?_)
    | with_reducible refine reg_CTRL_LIMIT hf rfl ?_

theorem writePhase_ev {st : Fin 4} {v : Word} (hf : Foot.le ⟨[], [.ctrl], false⟩ f) (h : Ev f s x) :
    Ev f s (writePhase st v x) := by
  unfold writePhase
  repeat' first
    | with_reducible exact h
    | with_reducible assumption
    | with_reducible refine ctrlErr_ev (le_trans' hf rfl) ?_
    | with_reducible refine ev_setF ?_ ?_
    | with_reducible refine ev_ite (fun _ => ?_) (fun _ => ?_)
    | with_reducible refine reg_CTRL_STAGE_PHASE hf rfl ?_
    | exact reg_block hf .ctrl rfl rfl
    | exact Fin.isLt _

theorem writeBandCfg_ev {st : Nat} {v : Word} (hf : Foot.le ⟨[], [.ctrl], false⟩ f) (hst : st < 4) (h : Ev f s x) :
    Ev f s (writeBandCfg st v x) := by
  unfold writeBandCfg
  repeat' first
    | with_reducible exact h
    | with_reducible assumption
    | with_reducible refine ctrlErr_ev (le_trans' hf rfl) ?_
    | with_reducible refine ev_setF ?_ ?_
    | with_reducible refine ev_ite (fun _ => ?_) (fun _ => ?_)
    | with_reducible refine reg_CTRL_BAND_CFG hf rfl ?_

theorem writeNotch_ev {st : Fin 4} {c : Fin 4} {v : Word} (hf : Foot.le ⟨[.loop], [.ctrl], false⟩ f) (h : Ev f s x) :
    Ev f s (writeNotch st c v x) := by
  unfold writeNotch
  repeat' first
    | with_reducible exact h
    | with_reducible assumption
    | with_reducible refine ctrlErr_ev (le_trans' hf rfl) ?_
    | with_reducible refine setStage_ev (le_trans' hf rfl) ?_
    | with_reducible refine ev_wr ?_ ?_
    | with_reducible refine ev_ite (fun _ => ?_) (fun _ => ?_)
    | with_reducible refine reg_CTRL_NOTCH hf rfl ?_ ?_
    | exact reg_block hf .ctrl rfl rfl
    | exact Fin.isLt _

theorem writeCoef_ev {a : Nat} {w : Nat} {v : Word} (hf : Foot.le ⟨[], [.ctrl], false⟩ f) (ha : Foot.reg f a) (h : Ev f s x) :
    Ev f s (writeCoef a w v x) := by
  unfold writeCoef
  repeat' first
    | with_reducible exact h
    | with_reducible assumption
    | with_reducible refine ctrlErr_ev (le_trans' hf rfl) ?_
    | with_reducible refine ev_wr ?_ ?_
    | with_reducible refine ev_ite (fun _ => ?_) (fun _ => ?_)

theorem showProf_ev {g : Fin 16} (hf : Foot.le ⟨[], [.ctrl], false⟩ f) (h : Ev f s x) :
    Ev f s (showProf g x) := by
  unfold showProf
  repeat' first
    | with_reducible exact h
    | with_reducible assumption
    | with_reducible refine ev_setF ?_ ?_
    | with_reducible refine ev_ite (fun _ => ?_) (fun _ => ?_)
    | with_reducible refine reg_CTRL_PROF_CFG hf rfl ?_
    | with_reducible refine reg_CTRL_PROF_OUT hf rfl ?_
    | exact reg_block hf .ctrl rfl rfl
    | exact Fin.isLt _

theorem writeProfCfg_ev {g : Fin 16} {v : Word} (hf : Foot.le ⟨[], [.ctrl], false⟩ f) (h : Ev f s x) :
    Ev f s (writeProfCfg g v x) := by
  unfold writeProfCfg
  repeat' first
    | with_reducible exact h
    | with_reducible assumption
    | with_reducible refine ctrlErr_ev (le_trans' hf rfl) ?_
    | with_reducible refine showProf_ev (le_trans' hf rfl) ?_
    | with_reducible refine ev_setF ?_ ?_
    | with_reducible refine ev_ite (fun _ => ?_) (fun _ => ?_)
    | with_reducible refine reg_CTRL_PROF_CFG hf rfl ?_
    | exact reg_block hf .ctrl rfl rfl
    | exact Fin.isLt _

theorem writeProfLim_ev {g : Nat} {a : Nat} {v : Word} (hf : Foot.le ⟨[], [.ctrl], false⟩ f) (ha : Foot.reg f a) (h : Ev f s x) :
    Ev f s (writeProfLim g a v x) := by
  unfold writeProfLim
  repeat' first
    | with_reducible exact h
    | with_reducible assumption
    | with_reducible refine ctrlErr_ev (le_trans' hf rfl) ?_
    | with_reducible refine ev_wr ?_ ?_
    | with_reducible refine ev_ite (fun _ => ?_) (fun _ => ?_)

theorem setEResid_ev {st : Fin 4} {r : Rat} (hf : Foot.le ⟨[.gfm], [], false⟩ f) (h : Ev f s x) :
    Ev f s (setEResid st r x) := by
  unfold setEResid
  repeat' first
    | with_reducible exact h
    | with_reducible assumption
    | with_reducible refine setGfm_ev (le_trans' hf rfl) ?_
    | with_reducible refine ev_ite (fun _ => ?_) (fun _ => ?_)

theorem setProf_ev {g : Fin 16} {x0 : ProfState} (hf : Foot.le ⟨[.loop], [], false⟩ f) (h : Ev f s x) :
    Ev f s (setProf g x0 x) := by
  unfold setProf
  repeat' first
    | with_reducible exact h
    | with_reducible assumption
    | with_reducible refine ev_ite (fun _ => ?_) (fun _ => ?_)
    | exact Fin.isLt _
    | omega
    | split
    | dsimp only
    | with_reducible refine ev_loop (part_mem hf rfl) ?_

theorem takeProf_ev {g : Fin 16} {user : Nat} {x0 : Rat} {target : Int} (hf : Foot.le ⟨[.loop], [.ctrl], false⟩ f) (h : Ev f s x) :
    Ev f s (takeProf g user x0 target x) := by
  unfold takeProf
  repeat' first
    | with_reducible exact h
    | with_reducible assumption
    | with_reducible refine setProf_ev (le_trans' hf rfl) ?_
    | with_reducible refine showProf_ev (le_trans' hf rfl) ?_
    | with_reducible refine ev_setF ?_ ?_
    | with_reducible refine ev_ite (fun _ => ?_) (fun _ => ?_)
    | with_reducible refine reg_CTRL_PROF_CFG hf rfl ?_
    | exact reg_block hf .ctrl rfl rfl
    | exact Fin.isLt _

theorem freeProf_ev {g : Fin 16} (hf : Foot.le ⟨[.loop], [.ctrl], false⟩ f) (h : Ev f s x) :
    Ev f s (freeProf g x) := by
  unfold freeProf
  repeat' first
    | with_reducible exact h
    | with_reducible assumption
    | with_reducible refine takeProf_ev (le_trans' hf rfl) ?_

theorem endBlend_ev {st : Fin 4} (hf : Foot.le ⟨[.loop, .gfm], [.ctrl], false⟩ f) (h : Ev f s x) :
    Ev f s (endBlend st x) := by
  unfold endBlend
  repeat' first
    | with_reducible exact h
    | with_reducible assumption
    | with_reducible refine freeProf_ev (le_trans' hf rfl) ?_
    | with_reducible refine setEResid_ev (le_trans' hf rfl) ?_
    | with_reducible refine setStage_ev (le_trans' hf rfl) ?_
    | with_reducible refine ev_setF ?_ ?_
    | with_reducible refine ev_ite (fun _ => ?_) (fun _ => ?_)
    | with_reducible refine reg_CTRL_STAGE_STATE hf rfl ?_
    | exact reg_block hf .ctrl rfl rfl
    | exact Fin.isLt _
    | omega
    | split
    | dsimp only

theorem moveProf_ev {g : Fin 16} {m : Motion} (hf : Foot.le ⟨[.loop], [.ctrl], false⟩ f) (h : Ev f s x) :
    Ev f s (moveProf g m x) := by
  unfold moveProf
  repeat' first
    | with_reducible exact h
    | with_reducible assumption
    | with_reducible refine setProf_ev (le_trans' hf rfl) ?_
    | with_reducible refine showProf_ev (le_trans' hf rfl) ?_

theorem stepProf_ev {g : Fin 16} {l : MoveLim} {target : Rat} (hf : Foot.le ⟨[.loop], [.ctrl], false⟩ f) (h : Ev f s x) :
    Ev f s (stepProf g l target x) := by
  unfold stepProf
  repeat' first
    | with_reducible exact h
    | with_reducible assumption
    | with_reducible refine moveProf_ev (le_trans' hf rfl) ?_

theorem startBlend_ev {st : Fin 4} {r0 : Rat} {r1 : Rat} {re : Rat} (hf : Foot.le ⟨[.loop, .gfm], [.ctrl], false⟩ f) (h : Ev f s x) :
    Ev f s (startBlend st r0 r1 re x) := by
  unfold startBlend
  repeat' first
    | with_reducible exact h
    | with_reducible assumption
    | with_reducible refine endBlend_ev (le_trans' hf rfl) ?_
    | with_reducible refine setEResid_ev (le_trans' hf rfl) ?_
    | with_reducible refine setStage_ev (le_trans' hf rfl) ?_
    | with_reducible refine takeProf_ev (le_trans' hf rfl) ?_
    | with_reducible refine ev_setF ?_ ?_
    | with_reducible refine ev_ite (fun _ => ?_) (fun _ => ?_)
    | with_reducible refine reg_CTRL_HOVER_CFG hf rfl ?_
    | with_reducible refine reg_CTRL_STAGE_STATE hf rfl ?_
    | exact reg_block hf .ctrl rfl rfl
    | exact Fin.isLt _

theorem takeWords_ev {st : Fin 4} {x0 : LoopInputs} (hf : Foot.le ⟨[.loop], [.ctrl], false⟩ f) (h : Ev f s x) :
    Ev f s (takeWords st x0 x) := by
  unfold takeWords
  repeat' first
    | with_reducible exact h
    | with_reducible assumption
    | with_reducible refine setStage_ev (le_trans' hf rfl) ?_
    | with_reducible refine ev_setF ?_ ?_
    | with_reducible refine ev_ite (fun _ => ?_) (fun _ => ?_)
    | with_reducible refine reg_CTRL_STAGE_FLAGS hf rfl ?_
    | exact reg_block hf .ctrl rfl rfl
    | exact Fin.isLt _

theorem judgeMap_ev {st : Fin 4} (hf : Foot.le ⟨[.loop], [.ctrl], false⟩ f) (h : Ev f s x) :
    Ev f s (judgeMap st x) := by
  unfold judgeMap
  repeat' first
    | with_reducible exact h
    | with_reducible assumption
    | with_reducible refine ctrlErr_ev (le_trans' hf rfl) ?_
    | with_reducible refine setStage_ev (le_trans' hf rfl) ?_
    | with_reducible refine ev_ite (fun _ => ?_) (fun _ => ?_)

theorem setInteg_ev {st : Nat} {c : Nat} {v : Int} (hf : Foot.le ⟨[], [.ctrl], false⟩ f) (hst : st < 4) (hc : c < 4) (h : Ev f s x) :
    Ev f s (setInteg st c v x) := by
  unfold setInteg
  repeat' first
    | with_reducible exact h
    | with_reducible assumption
    | with_reducible refine ev_wr64 ?_ ?_ ?_
    | with_reducible refine ev_ite (fun _ => ?_) (fun _ => ?_)
    | with_reducible refine reg_CTRL_INTEG hf rfl ?_ ?_
    | with_reducible refine reg_CTRL_INTEG_hi hf rfl ?_ ?_

theorem noteAccSat_ev {st : Nat} {c : Nat} {sat : Bool} (hf : Foot.le ⟨[.log], [.ctrl, .cmd], false⟩ f) (hst : st < 4) (h : Ev f s x) :
    Ev f s (noteAccSat st c sat x) := by
  unfold noteAccSat
  repeat' first
    | with_reducible exact h
    | with_reducible assumption
    | with_reducible refine ev_setF ?_ ?_
    | with_reducible refine ev_logN (part_mem hf rfl) (block_mem hf rfl) ?_
    | with_reducible refine ev_whenS (fun hc y hy => ?_) ?_
    | with_reducible refine ev_ite (fun _ => ?_) (fun _ => ?_)
    | with_reducible refine reg_CTRL_STAGE_FLAGS hf rfl ?_

theorem clampInteg_ev {st : Fin 4} {old : Vector Word 32} {k : Vector Word 32} {r : Nat} {c : Fin 4} (hf : Foot.le ⟨[.log], [.ctrl, .cmd], false⟩ f) (h : Ev f s x) :
    Ev f s (clampInteg st old k r c x) := by
  unfold clampInteg
  repeat' first
    | with_reducible exact h
    | with_reducible assumption
    | with_reducible refine setInteg_ev (le_trans' hf rfl) ?_ ?_ ?_
    | with_reducible refine ev_setF ?_ ?_
    | with_reducible refine ev_logN (part_mem hf rfl) (block_mem hf rfl) ?_
    | with_reducible refine ev_ite (fun _ => ?_) (fun _ => ?_)
    | with_reducible refine reg_CTRL_STAGE_FLAGS hf rfl ?_
    | exact reg_block hf .ctrl rfl rfl
    | exact reg_block hf .cmd rfl rfl
    | exact Fin.isLt _

theorem applyRegion_ev {st : Fin 4} (hf : Foot.le ⟨[.log, .loop], [.ctrl, .cmd], false⟩ f) (h : Ev f s x) :
    Ev f s (applyRegion st x) := by
  unfold applyRegion
  repeat' first
    | with_reducible exact h
    | with_reducible assumption
    | with_reducible refine clampInteg_ev (le_trans' hf rfl) ?_
    | with_reducible refine ctrlErr_ev (le_trans' hf rfl) ?_
    | with_reducible refine judgeMap_ev (le_trans' hf rfl) ?_
    | with_reducible refine setStage_ev (le_trans' hf rfl) ?_
    | with_reducible refine ev_setF ?_ ?_
    | (with_reducible refine ev_forEach_range (fun i hi y hy => ?_) ?_)
    | (with_reducible refine ev_forEach (fun i hi y hy => ?_) ?_)
    | with_reducible refine ev_ite (fun _ => ?_) (fun _ => ?_)
    | with_reducible refine reg_CTRL_STAGE_STATE hf rfl ?_
    | exact reg_block hf .ctrl rfl rfl
    | exact Fin.isLt _

theorem feedback_ev {st : Fin 4} {c : Fin 4} {x0 : Int} (hf : Foot.le ⟨[.log, .loop], [.ctrl, .cmd], false⟩ f) (h : Ev f s x) :
    Ev f s (feedback st c x0 x).2 := by
  unfold feedback
  repeat' first
    | with_reducible exact h
    | with_reducible assumption
    | with_reducible refine noteAccSat_ev (le_trans' hf rfl) ?_ ?_
    | with_reducible refine setStage_ev (le_trans' hf rfl) ?_
    | with_reducible refine ev_ite2 (fun _ => ?_) (fun _ => ?_)
    | with_reducible refine ev_ite (fun _ => ?_) (fun _ => ?_)
    | exact Fin.isLt _

theorem preload_ev {st : Fin 4} {c : Fin 4} {w : Int} {e : Int} {ff : Int} (hf : Foot.le ⟨[], [.ctrl], false⟩ f) (h : Ev f s x) :
    Ev f s (preload st c w e ff x).2 := by
  unfold preload
  repeat' first
    | with_reducible exact h
    | with_reducible assumption
    | with_reducible refine setInteg_ev (le_trans' hf rfl) ?_ ?_ ?_
    | with_reducible refine ev_ite2 (fun _ => ?_) (fun _ => ?_)
    | with_reducible refine ev_ite (fun _ => ?_) (fun _ => ?_)
    | exact Fin.isLt _

theorem outerStep_ev {st : Fin 4} {x0 : SampleCtx} (hf : Foot.le ⟨[.log, .loop], [.ctrl, .cmd], false⟩ f) (h : Ev f s x) :
    Ev f s (outerStep st x0 x) := by
  unfold outerStep
  repeat' first
    | with_reducible exact h
    | with_reducible assumption
    | with_reducible refine feedback_ev (le_trans' hf rfl) ?_
    | with_reducible refine noteAccSat_ev (le_trans' hf rfl) ?_ ?_
    | with_reducible refine setInteg_ev (le_trans' hf rfl) ?_ ?_ ?_
    | with_reducible refine setStage_ev (le_trans' hf rfl) ?_
    | refine ev_snd (by assumption) ?_
    | with_reducible refine ev_setF ?_ ?_
    | with_reducible refine ev_ite (fun _ => ?_) (fun _ => ?_)
    | with_reducible refine reg_CTRL_STAGE_STATE hf rfl ?_
    | exact reg_block hf .ctrl rfl rfl
    | exact Fin.isLt _
    | omega
    | split

theorem innerCtl_ev {st : Fin 4} {c : Fin 4} {ref : Int} {meas : Int} {ff : Int} (hf : Foot.le ⟨[.log, .loop], [.ctrl, .cmd], false⟩ f) (h : Ev f s x) :
    Ev f s (innerCtl st c ref meas ff x) := by
  unfold innerCtl
  repeat' first
    | with_reducible exact h
    | with_reducible assumption
    | with_reducible refine feedback_ev (le_trans' hf rfl) ?_
    | with_reducible refine noteAccSat_ev (le_trans' hf rfl) ?_ ?_
    | with_reducible refine setInteg_ev (le_trans' hf rfl) ?_ ?_ ?_
    | with_reducible refine setStage_ev (le_trans' hf rfl) ?_
    | refine ev_snd (by assumption) ?_
    | with_reducible refine ev_ite (fun _ => ?_) (fun _ => ?_)
    | exact Fin.isLt _

theorem innerStep_ev {st : Fin 4} {x0 : SampleCtx} (hf : Foot.le ⟨[.log, .loop], [.ctrl, .cmd], false⟩ f) (h : Ev f s x) :
    Ev f s (innerStep st x0 x) := by
  unfold innerStep
  repeat' first
    | with_reducible exact h
    | with_reducible assumption
    | with_reducible refine innerCtl_ev (le_trans' hf rfl) ?_
    | with_reducible refine setStage_ev (le_trans' hf rfl) ?_
    | with_reducible refine ev_ite (fun _ => ?_) (fun _ => ?_)

theorem publish_ev {st : Fin 4} {x0 : SampleCtx} (hf : Foot.le ⟨[.loop], [], false⟩ f) (h : Ev f s x) :
    Ev f s (publish st x0 x) := by
  unfold publish
  repeat' first
    | with_reducible exact h
    | with_reducible assumption
    | with_reducible refine setStage_ev (le_trans' hf rfl) ?_

theorem applyInner_ev {st : Fin 4} (hf : Foot.le ⟨[.loop], [.ctrl], false⟩ f) (h : Ev f s x) :
    Ev f s (applyInner st x) := by
  unfold applyInner
  repeat' first
    | with_reducible exact h
    | with_reducible assumption
    | with_reducible refine carrierAble_ev (le_trans' hf rfl) ?_
    | with_reducible refine setPair_ev (le_trans' hf rfl) ?_
    | with_reducible refine setStage_ev (le_trans' hf rfl) ?_
    | with_reducible refine ev_setF ?_ ?_
    | (with_reducible refine ev_forEach_range (fun i hi y hy => ?_) ?_)
    | (with_reducible refine ev_forEach (fun i hi y hy => ?_) ?_)
    | with_reducible refine ev_ite (fun _ => ?_) (fun _ => ?_)
    | with_reducible refine reg_CTRL_STAGE_STATE hf rfl ?_
    | exact reg_block hf .ctrl rfl rfl
    | exact Fin.isLt _
    | omega
    | split
    | dsimp only

theorem writeShadowCmp_ev {st : Fin 4} {p : Fin 12} (hf : Foot.le ⟨[.loop], [.pwm], false⟩ f) (h : Ev f s x) :
    Ev f s (writeShadowCmp st p x) := by
  unfold writeShadowCmp
  repeat' first
    | with_reducible exact h
    | with_reducible assumption
    | with_reducible refine carrierLoad_ev (le_trans' hf rfl) ?_
    | with_reducible refine setPair_ev (le_trans' hf rfl) ?_
    | with_reducible refine ev_ite (fun _ => ?_) (fun _ => ?_)

theorem reachOutput_ev {st : Fin 4} (hf : Foot.le ⟨[.tai, .ticks], [], false⟩ f) (h : Ev f s x) :
    Ev f s (reachOutput st x) := by
  unfold reachOutput
  repeat' first
    | with_reducible exact h
    | with_reducible assumption
    | with_reducible refine ev_reachTick (part_mem hf rfl) (part_mem hf rfl) ?_
    | with_reducible refine ev_ite (fun _ => ?_) (fun _ => ?_)
    | exact Fin.isLt _
    | omega
    | split
    | dsimp only

theorem execOutputInstant_ev {st : Fin 4} (hf : Foot.le ⟨[.tai, .ticks, .loop], [.ctrl, .pwm], false⟩ f) (h : Ev f s x) :
    EvO f s (execOutputInstant st x) := by
  unfold execOutputInstant
  repeat' first
    | with_reducible exact h
    | with_reducible assumption
    | with_reducible refine applyInner_ev (le_trans' hf rfl) ?_
    | with_reducible refine reachOutput_ev (le_trans' hf rfl) ?_
    | with_reducible refine setStage_ev (le_trans' hf rfl) ?_
    | with_reducible refine writeShadowCmp_ev (le_trans' hf rfl) ?_
    | (with_reducible refine ev_forEach_range (fun i hi y hy => ?_) ?_)
    | (with_reducible refine ev_forEach (fun i hi y hy => ?_) ?_)
    | with_reducible refine evo_next ?_
    | with_reducible refine evo_ite (fun _ => ?_) (fun _ => ?_)
    | with_reducible refine ev_ite (fun _ => ?_) (fun _ => ?_)
    | exact Fin.isLt _
    | omega
    | split
    | dsimp only

theorem execBandUpdate_ev {p : Fin 12} {vdc : BitVec 16} {v : BitVec 16} {ok : Bool} (hf : Foot.le ⟨[.tai, .ticks, .log, .loop], [.adc, .ctrl, .cmd], false⟩ f) (h : Ev f s x) :
    EvO f s (execBandUpdate p vdc v ok x) := by
  unfold execBandUpdate
  repeat' first
    | with_reducible exact h
    | with_reducible assumption
    | with_reducible refine noteAccSat_ev (le_trans' hf rfl) ?_ ?_
    | with_reducible refine setPair_ev (le_trans' hf rfl) ?_
    | with_reducible refine ev_setF ?_ ?_
    | with_reducible refine ev_advanceTo (part_mem hf rfl) (part_mem hf rfl) ?_
    | with_reducible refine evo_next ?_
    | with_reducible refine evo_ite (fun _ => ?_) (fun _ => ?_)
    | with_reducible refine ev_ite (fun _ => ?_) (fun _ => ?_)
    | with_reducible refine reg_ADC_BAND hf rfl ?_
    | exact reg_block hf .adc rfl rfl
    | exact Fin.isLt _

theorem reachPeriod_ev {g : Fin 16} (hf : Foot.le ⟨[.tai, .ticks, .loop], [], false⟩ f) (h : Ev f s x) :
    Ev f s (reachPeriod g x) := by
  unfold reachPeriod
  repeat' first
    | with_reducible exact h
    | with_reducible assumption
    | with_reducible refine ev_advanceTo (part_mem hf rfl) (part_mem hf rfl) ?_
    | with_reducible refine ev_ite (fun _ => ?_) (fun _ => ?_)
    | exact Fin.isLt _
    | omega
    | split
    | dsimp only
    | with_reducible refine ev_loop (part_mem hf rfl) ?_

theorem timedStep_ev {g : Fin 16} {target : Rat} {dist : Rat} {t : Nat} (hf : Foot.le ⟨[.loop], [.ctrl], false⟩ f) (h : Ev f s x) :
    Ev f s (timedStep g target dist t x) := by
  unfold timedStep
  repeat' first
    | with_reducible exact h
    | with_reducible assumption
    | with_reducible refine stepProf_ev (le_trans' hf rfl) ?_

theorem hostStep_ev {g : Fin 16} (hf : Foot.le ⟨[.loop], [.ctrl], false⟩ f) (h : Ev f s x) :
    Ev f s (hostStep g x) := by
  unfold hostStep
  repeat' first
    | with_reducible exact h
    | with_reducible assumption
    | with_reducible refine stepProf_ev (le_trans' hf rfl) ?_
    | with_reducible refine ev_ite (fun _ => ?_) (fun _ => ?_)

theorem blendStep_ev {g : Fin 16} {st : Fin 4} (hf : Foot.le ⟨[.loop, .gfm], [.ctrl], false⟩ f) (h : Ev f s x) :
    Ev f s (blendStep g st x) := by
  unfold blendStep
  repeat' first
    | with_reducible exact h
    | with_reducible assumption
    | with_reducible refine endBlend_ev (le_trans' hf rfl) ?_
    | with_reducible refine timedStep_ev (le_trans' hf rfl) ?_
    | with_reducible refine ev_ite (fun _ => ?_) (fun _ => ?_)

theorem plausBlock_ev {st : Fin 4} {j : Fin 5} (hf : Foot.le ⟨[.log, .loop, .recd], [.cmd, .pwm], false⟩ f) (h : Ev f s x) :
    Ev f s (plausBlock st j x) := by
  unfold plausBlock
  repeat' first
    | with_reducible exact h
    | with_reducible assumption
    | with_reducible refine blockStages_ev (le_trans' hf rfl) ?_
    | with_reducible refine setStage_ev (le_trans' hf rfl) ?_
    | with_reducible refine ev_logN (part_mem hf rfl) (block_mem hf rfl) ?_

theorem violate_ev {st : Fin 4} {inp : LoopInputs} {j : Fin 5} (hf : Foot.le ⟨[.log, .loop, .recd], [.ctrl, .cmd, .pwm], false⟩ f) (h : Ev f s x) :
    Ev f s (violate st inp j x) := by
  unfold violate
  repeat' first
    | with_reducible exact h
    | with_reducible assumption
    | with_reducible refine plausBlock_ev (le_trans' hf rfl) ?_
    | with_reducible refine setStage_ev (le_trans' hf rfl) ?_
    | with_reducible refine ev_setFbit ?_ ?_
    | with_reducible refine ev_logN (part_mem hf rfl) (block_mem hf rfl) ?_
    | with_reducible refine ev_ite (fun _ => ?_) (fun _ => ?_)
    | with_reducible refine reg_CTRL_PLAUS hf rfl ?_ ?_
    | with_reducible refine reg_CTRL_PLAUS_STATE hf rfl ?_
    | exact reg_block hf .ctrl rfl rfl
    | exact reg_block hf .cmd rfl rfl
    | exact Fin.isLt _

theorem substSample_ev {st : Fin 4} {j : Fin 5} {exceeds : Bool} {below : Bool} {n : Nat} (hf : Foot.le ⟨[.log, .loop, .recd], [.ctrl, .cmd, .pwm], false⟩ f) (h : Ev f s x) :
    Ev f s (substSample st j exceeds below n x) := by
  unfold substSample
  repeat' first
    | with_reducible exact h
    | with_reducible assumption
    | with_reducible refine plausBlock_ev (le_trans' hf rfl) ?_
    | with_reducible refine setStage_ev (le_trans' hf rfl) ?_
    | with_reducible refine ev_setFbit ?_ ?_
    | with_reducible refine ev_ite (fun _ => ?_) (fun _ => ?_)
    | with_reducible refine reg_CTRL_PLAUS_STATE hf rfl ?_
    | exact reg_block hf .ctrl rfl rfl
    | exact Fin.isLt _

theorem plausCount_ev {st : Fin 4} {j : Fin 5} {c : Nat} (hf : Foot.le ⟨[.loop], [], false⟩ f) (h : Ev f s x) :
    Ev f s (plausCount st j c x) := by
  unfold plausCount
  repeat' first
    | with_reducible exact h
    | with_reducible assumption
    | with_reducible refine setStage_ev (le_trans' hf rfl) ?_

theorem plausCheck_ev {st : Fin 4} {inp : LoopInputs} {j : Fin 5} (hf : Foot.le ⟨[.log, .loop, .recd], [.ctrl, .cmd, .pwm], false⟩ f) (h : Ev f s x) :
    Ev f s (plausCheck st inp j x) := by
  unfold plausCheck
  repeat' first
    | with_reducible exact h
    | with_reducible assumption
    | with_reducible refine plausCount_ev (le_trans' hf rfl) ?_
    | with_reducible refine substSample_ev (le_trans' hf rfl) ?_
    | with_reducible refine violate_ev (le_trans' hf rfl) ?_
    | with_reducible refine ev_ite (fun _ => ?_) (fun _ => ?_)
    | exact Fin.isLt _
    | omega
    | split

theorem plausChecks_ev {st : Fin 4} {inp : LoopInputs} (hf : Foot.le ⟨[.log, .loop, .recd], [.ctrl, .cmd, .pwm], false⟩ f) (h : Ev f s x) :
    Ev f s (plausChecks st inp x) := by
  unfold plausChecks
  repeat' first
    | with_reducible exact h
    | with_reducible assumption
    | with_reducible refine plausCheck_ev (le_trans' hf rfl) ?_
    | (with_reducible refine ev_forEach_range (fun i hi y hy => ?_) ?_)
    | (with_reducible refine ev_forEach (fun i hi y hy => ?_) ?_)

end Sys2Proof.Laws
end

