-- ==== Sys2Proof/Laws/EvGfm.lean ====
section
/-! SUPPORT. What each change of Machine/Gfm.lean can touch, and that it keeps the state sound: one lemma a function. -/

namespace Sys2Proof.Laws

open Sys2Proof Sys2Proof.Machine Sys2Proof.Safety

variable {f : Foot} {s x : State}

theorem setContactor_ev {g : Fin 2} {b : Bool} (hf : Foot.le ⟨[.gfm], [.gfm, .fio], false⟩ f) (h : Ev f s x) :
    Ev f s (setContactor g b x) := by
  unfold setContactor
  repeat' first
    | with_reducible exact h
    | with_reducible assumption
    | with_reducible refine refreshDo_ev (le_trans' hf rfl) ?_
    | with_reducible refine setGfm_ev (le_trans' hf rfl) ?_
    | with_reducible refine ev_setF ?_ ?_
    | with_reducible refine ev_ite (fun _ => ?_) (fun _ => ?_)
    | with_reducible refine reg_GFM_STATE hf rfl ?_
    | exact reg_block hf .gfm rfl rfl
    | exact Fin.isLt _
    | omega

theorem setGfmState_ev {g : Fin 2} {n : Nat} (hf : Foot.le ⟨[.log, .gfm], [.gfm, .fio, .cmd], false⟩ f) (h : Ev f s x) :
    Ev f s (setGfmState g n x) := by
  unfold setGfmState
  repeat' first
    | with_reducible exact h
    | with_reducible assumption
    | with_reducible refine setContactor_ev (le_trans' hf rfl) ?_
    | with_reducible refine setGfm_ev (le_trans' hf rfl) ?_
    | with_reducible refine ev_setF ?_ ?_
    | with_reducible refine ev_logN (part_mem hf rfl) (block_mem hf rfl) ?_
    | with_reducible refine ev_ite (fun _ => ?_) (fun _ => ?_)
    | with_reducible refine reg_GFM_STATE hf rfl ?_
    | exact reg_block hf .gfm rfl rfl
    | exact reg_block hf .cmd rfl rfl
    | exact Fin.isLt _
    | omega

theorem gfmStartRequest_ev {g : Fin 2} (hf : Foot.le ⟨[.log, .gfm], [.gfm, .fio, .cmd], false⟩ f) (h : Ev f s x) :
    Ev f s (gfmStartRequest g x) := by
  unfold gfmStartRequest
  repeat' first
    | with_reducible exact h
    | with_reducible assumption
    | with_reducible refine setGfm_ev (le_trans' hf rfl) ?_
    | with_reducible refine setGfmState_ev (le_trans' hf rfl) ?_
    | with_reducible refine ev_setF ?_ ?_
    | with_reducible refine ev_logN (part_mem hf rfl) (block_mem hf rfl) ?_
    | with_reducible refine ev_ite (fun _ => ?_) (fun _ => ?_)
    | with_reducible refine reg_GFM_STATE hf rfl ?_
    | exact reg_block hf .gfm rfl rfl
    | exact reg_block hf .cmd rfl rfl
    | exact Fin.isLt _
    | omega

theorem stopStage_ev {g : Fin 2} (hf : Foot.le ⟨[.loop, .gfm], [], false⟩ f) (h : Ev f s x) :
    Ev f s (stopStage g x) := by
  unfold stopStage
  repeat' first
    | with_reducible exact h
    | with_reducible assumption
    | with_reducible refine setGfm_ev (le_trans' hf rfl) ?_
    | with_reducible refine setStage_ev (le_trans' hf rfl) ?_

theorem gfmStopRequest_ev {g : Fin 2} (hf : Foot.le ⟨[.log, .loop, .gfm], [.gfm, .fio, .cmd], false⟩ f) (h : Ev f s x) :
    Ev f s (gfmStopRequest g x) := by
  unfold gfmStopRequest
  repeat' first
    | with_reducible exact h
    | with_reducible assumption
    | with_reducible refine setGfmState_ev (le_trans' hf rfl) ?_
    | with_reducible refine stopStage_ev (le_trans' hf rfl) ?_
    | with_reducible refine ev_ite (fun _ => ?_) (fun _ => ?_)

theorem gfmErr_ev (hf : Foot.le ⟨[], [.gfm], false⟩ f) (h : Ev f s x) :
    Ev f s (gfmErr x) := by
  unfold gfmErr
  repeat' first
    | with_reducible exact h
    | with_reducible assumption
    | with_reducible refine ev_setF ?_ ?_
    | with_reducible refine ev_ite (fun _ => ?_) (fun _ => ?_)
    | exact reg_block hf .gfm rfl rfl

theorem gfmWrite_ev {a : Nat} {v : Word} {mask : Word} {ok : Bool} (hf : Foot.le ⟨[], [.gfm], false⟩ f) (ha : Foot.reg f a) (h : Ev f s x) :
    Ev f s (gfmWrite a v mask ok x) := by
  unfold gfmWrite
  repeat' first
    | with_reducible exact h
    | with_reducible assumption
    | with_reducible refine gfmErr_ev (le_trans' hf rfl) ?_
    | with_reducible refine ev_wr ?_ ?_
    | with_reducible refine ev_ite (fun _ => ?_) (fun _ => ?_)

theorem writeGfmGroup_ev {v : Word} (hf : Foot.le ⟨[], [.gfm], false⟩ f) (h : Ev f s x) :
    Ev f s (writeGfmGroup v x) := by
  unfold writeGfmGroup
  repeat' first
    | with_reducible exact h
    | with_reducible assumption
    | with_reducible refine gfmWrite_ev (le_trans' hf rfl) ?_ ?_
    | with_reducible refine ev_ite (fun _ => ?_) (fun _ => ?_)
    | exact reg_block hf .gfm rfl rfl

theorem writeVfCfg_ev {v : Word} (hf : Foot.le ⟨[], [.gfm], false⟩ f) (h : Ev f s x) :
    Ev f s (writeVfCfg v x) := by
  unfold writeVfCfg
  repeat' first
    | with_reducible exact h
    | with_reducible assumption
    | with_reducible refine gfmWrite_ev (le_trans' hf rfl) ?_ ?_
    | with_reducible refine ev_ite (fun _ => ?_) (fun _ => ?_)
    | exact reg_block hf .gfm rfl rfl

theorem writeGfmCfg_ev {g : Fin 2} {v : Word} (hf : Foot.le ⟨[], [.gfm], false⟩ f) (h : Ev f s x) :
    Ev f s (writeGfmCfg g v x) := by
  unfold writeGfmCfg
  repeat' first
    | with_reducible exact h
    | with_reducible assumption
    | with_reducible refine gfmWrite_ev (le_trans' hf rfl) ?_ ?_
    | with_reducible refine ev_ite (fun _ => ?_) (fun _ => ?_)
    | with_reducible refine reg_GFM_CFG hf rfl ?_
    | exact reg_block hf .gfm rfl rfl
    | exact Fin.isLt _
    | omega

theorem writeGfmDroop_ev {g : Fin 2} {v : Word} (hf : Foot.le ⟨[], [.gfm], false⟩ f) (h : Ev f s x) :
    Ev f s (writeGfmDroop g v x) := by
  unfold writeGfmDroop
  repeat' first
    | with_reducible exact h
    | with_reducible assumption
    | with_reducible refine gfmWrite_ev (le_trans' hf rfl) ?_ ?_
    | with_reducible refine ev_ite (fun _ => ?_) (fun _ => ?_)
    | with_reducible refine reg_GFM_DROOP hf rfl ?_
    | exact reg_block hf .gfm rfl rfl
    | exact Fin.isLt _
    | omega

theorem writeGfmCont_ev {g : Fin 2} {v : Word} (hf : Foot.le ⟨[], [.gfm, .fio], false⟩ f) (h : Ev f s x) :
    Ev f s (writeGfmCont g v x) := by
  unfold writeGfmCont
  repeat' first
    | with_reducible exact h
    | with_reducible assumption
    | with_reducible refine gfmWrite_ev (le_trans' hf rfl) ?_ ?_
    | with_reducible refine refreshDo_ev (le_trans' hf rfl) ?_
    | with_reducible refine ev_ite (fun _ => ?_) (fun _ => ?_)
    | with_reducible refine reg_GFM_CONT hf rfl ?_
    | exact reg_block hf .gfm rfl rfl
    | exact Fin.isLt _
    | omega

theorem gfmAckRequest_ev {g : Fin 2} (hf : Foot.le ⟨[.log, .gfm], [.gfm, .fio, .cmd], false⟩ f) (h : Ev f s x) :
    Ev f s (gfmAckRequest g x) := by
  unfold gfmAckRequest
  repeat' first
    | with_reducible exact h
    | with_reducible assumption
    | with_reducible refine setGfmState_ev (le_trans' hf rfl) ?_
    | with_reducible refine ev_ite (fun _ => ?_) (fun _ => ?_)

theorem writeGfmCmd_ev {g : Fin 2} {v : Word} (hf : Foot.le ⟨[.log, .loop, .gfm], [.gfm, .fio, .cmd], false⟩ f) (h : Ev f s x) :
    Ev f s (writeGfmCmd g v x) := by
  unfold writeGfmCmd
  repeat' first
    | with_reducible exact h
    | with_reducible assumption
    | with_reducible refine gfmAckRequest_ev (le_trans' hf rfl) ?_
    | with_reducible refine gfmStartRequest_ev (le_trans' hf rfl) ?_
    | with_reducible refine gfmStopRequest_ev (le_trans' hf rfl) ?_
    | with_reducible refine ev_ite (fun _ => ?_) (fun _ => ?_)

theorem writeGfmSetting_ev {g : Fin 2} {off : Nat} {v : Word} (hf : Foot.le ⟨[], [.gfm], false⟩ f) (ha : Foot.reg f (Reg.GFM_CFG (2 * g) + off)) (h : Ev f s x) :
    Ev f s (writeGfmSetting g off v x) := by
  unfold writeGfmSetting
  repeat' first
    | with_reducible exact h
    | with_reducible assumption
    | with_reducible refine gfmWrite_ev (le_trans' hf rfl) ?_ ?_
    | with_reducible refine ev_wr ?_ ?_
    | with_reducible refine ev_ite (fun _ => ?_) (fun _ => ?_)
    | with_reducible refine reg_GFM_CFG hf rfl ?_
    | exact reg_block hf .gfm rfl rfl
    | exact Fin.isLt _
    | omega
    | split

theorem showTimeMode_ev (hf : Foot.le ⟨[], [.gfm], false⟩ f) (h : Ev f s x) :
    Ev f s (showTimeMode x) := by
  unfold showTimeMode
  repeat' first
    | with_reducible exact h
    | with_reducible assumption
    | with_reducible refine ev_setF ?_ ?_
    | with_reducible refine ev_ite (fun _ => ?_) (fun _ => ?_)
    | exact reg_block hf .gfm rfl rfl

theorem showModes_ev (hf : Foot.le ⟨[], [.ctrl], false⟩ f) (h : Ev f s x) :
    Ev f s (showModes x) := by
  unfold showModes
  repeat' first
    | with_reducible exact h
    | with_reducible assumption
    | with_reducible refine ev_setF ?_ ?_
    | with_reducible refine ev_ite (fun _ => ?_) (fun _ => ?_)
    | exact reg_block hf .ctrl rfl rfl

theorem setMode_ev {st : Fin 4} {n : Nat} (hf : Foot.le ⟨[.log, .time, .loop, .gfm], [.time, .ctrl, .cmd], false⟩ f) (h : Ev f s x) :
    Ev f s (setMode st n x) := by
  unfold setMode
  repeat' first
    | with_reducible exact h
    | with_reducible assumption
    | with_reducible refine clampOnEnergise_ev (le_trans' hf rfl) ?_
    | with_reducible refine endBlend_ev (le_trans' hf rfl) ?_
    | with_reducible refine showModes_ev (le_trans' hf rfl) ?_
    | with_reducible refine stageGatesOff_ev (le_trans' hf rfl) ?_
    | with_reducible refine ev_setF ?_ ?_
    | with_reducible refine ev_logN (part_mem hf rfl) (block_mem hf rfl) ?_
    | with_reducible refine ev_ite (fun _ => ?_) (fun _ => ?_)
    | with_reducible refine reg_CTRL_STAGE_STATE hf rfl ?_
    | exact reg_block hf .ctrl rfl rfl
    | exact reg_block hf .cmd rfl rfl
    | exact Fin.isLt _

theorem orderStage_ev {g : Fin 2} {o : GfmStart} (hf : Foot.le ⟨[.gfm], [], false⟩ f) (h : Ev f s x) :
    Ev f s (orderStage g o x) := by
  unfold orderStage
  repeat' first
    | with_reducible exact h
    | with_reducible assumption
    | with_reducible refine setGfm_ev (le_trans' hf rfl) ?_

theorem failGfm_ev {g : Fin 2} (hf : Foot.le ⟨[.log, .loop, .gfm], [.gfm, .fio, .cmd], false⟩ f) (h : Ev f s x) :
    Ev f s (failGfm g x) := by
  unfold failGfm
  repeat' first
    | with_reducible exact h
    | with_reducible assumption
    | with_reducible refine setGfmState_ev (le_trans' hf rfl) ?_
    | with_reducible refine stopStage_ev (le_trans' hf rfl) ?_

theorem timeModeStep_ev {g : Fin 2} (hf : Foot.le ⟨[.log, .gfm], [.gfm, .cmd], false⟩ f) (h : Ev f s x) :
    Ev f s (timeModeStep g x) := by
  unfold timeModeStep
  repeat' first
    | with_reducible exact h
    | with_reducible assumption
    | with_reducible refine setGfm_ev (le_trans' hf rfl) ?_
    | with_reducible refine showTimeMode_ev (le_trans' hf rfl) ?_
    | with_reducible refine ev_setF ?_ ?_
    | with_reducible refine ev_logN (part_mem hf rfl) (block_mem hf rfl) ?_
    | with_reducible refine ev_ite (fun _ => ?_) (fun _ => ?_)
    | with_reducible refine reg_GFM_TMODE hf rfl ?_
    | exact reg_block hf .gfm rfl rfl
    | exact reg_block hf .cmd rfl rfl
    | exact Fin.isLt _
    | omega

theorem execGfmTimeMode_ev {g : Fin 2} (hf : Foot.le ⟨[.tai, .ticks, .log, .gfm], [.gfm, .cmd], false⟩ f) (h : Ev f s x) :
    EvO f s (execGfmTimeMode g x) := by
  unfold execGfmTimeMode
  repeat' first
    | with_reducible exact h
    | with_reducible assumption
    | with_reducible refine timeModeStep_ev (le_trans' hf rfl) ?_
    | with_reducible refine ev_reachLocal (part_mem hf rfl) (part_mem hf rfl) ?_
    | with_reducible refine evo_next ?_
    | with_reducible refine evo_ite (fun _ => ?_) (fun _ => ?_)
    | with_reducible refine ev_ite (fun _ => ?_) (fun _ => ?_)
    | exact Fin.isLt _
    | omega
    | split

theorem restoration_ev {g : Fin 2} {ts : Rat} (hf : Foot.le ⟨[.gfm], [], false⟩ f) (h : Ev f s x) :
    Ev f s (restoration g ts x) := by
  unfold restoration
  repeat' first
    | with_reducible exact h
    | with_reducible assumption
    | with_reducible refine setGfm_ev (le_trans' hf rfl) ?_
    | with_reducible refine ev_ite (fun _ => ?_) (fun _ => ?_)
    | exact Fin.isLt _
    | omega
    | split

theorem moveRefs_ev {g : Fin 2} {ts : Rat} (hf : Foot.le ⟨[.gfm], [], false⟩ f) (h : Ev f s x) :
    Ev f s (moveRefs g ts x) := by
  unfold moveRefs
  repeat' first
    | with_reducible exact h
    | with_reducible assumption
    | with_reducible refine setGfm_ev (le_trans' hf rfl) ?_

theorem filterPowers_ev {g : Fin 2} {ts : Rat} (hf : Foot.le ⟨[.gfm], [.gfm], false⟩ f) (h : Ev f s x) :
    Ev f s (filterPowers g ts x) := by
  unfold filterPowers
  repeat' first
    | with_reducible exact h
    | with_reducible assumption
    | with_reducible refine setGfm_ev (le_trans' hf rfl) ?_
    | with_reducible refine ev_setF ?_ ?_
    | with_reducible refine ev_ite (fun _ => ?_) (fun _ => ?_)
    | with_reducible refine reg_GFM_CFG hf rfl ?_
    | with_reducible refine reg_GFM_MEAS hf rfl ?_
    | exact reg_block hf .gfm rfl rfl
    | exact Fin.isLt _
    | omega

theorem writeIlim_ev {g : Fin 2} (hf : Foot.le ⟨[], [.ctrl, .gfm], false⟩ f) (h : Ev f s x) :
    Ev f s (writeIlim g x) := by
  unfold writeIlim
  repeat' first
    | with_reducible exact h
    | with_reducible assumption
    | with_reducible refine ev_setF ?_ ?_
    | with_reducible refine ev_ite (fun _ => ?_) (fun _ => ?_)
    | with_reducible refine reg_CTRL_LIMIT hf rfl ?_
    | exact reg_block hf .ctrl rfl rfl
    | exact reg_block hf .gfm rfl rfl
    | exact Fin.isLt _

theorem gfmLaw_ev {g : Fin 2} {first : Bool} (hf : Foot.le ⟨[.gfm], [.ctrl, .gfm], false⟩ f) (h : Ev f s x) :
    Ev f s (gfmLaw g first x) := by
  unfold gfmLaw
  repeat' first
    | with_reducible exact h
    | with_reducible assumption
    | with_reducible refine filterPowers_ev (le_trans' hf rfl) ?_
    | with_reducible refine setGfm_ev (le_trans' hf rfl) ?_
    | with_reducible refine writeIlim_ev (le_trans' hf rfl) ?_
    | with_reducible refine ev_setF ?_ ?_
    | with_reducible refine ev_ite (fun _ => ?_) (fun _ => ?_)
    | with_reducible refine reg_GFM_FREQ hf rfl ?_
    | exact reg_block hf .gfm rfl rfl
    | exact Fin.isLt _
    | omega

theorem keepFiltered_ev {g : Fin 2} (hf : Foot.le ⟨[.gfm], [], false⟩ f) (h : Ev f s x) :
    Ev f s (keepFiltered g x) := by
  unfold keepFiltered
  repeat' first
    | with_reducible exact h
    | with_reducible assumption
    | with_reducible refine setGfm_ev (le_trans' hf rfl) ?_

theorem startRamp_ev {g : Fin 2} {k : RampKind} {e0 : Rat} {e1 : Rat} (hf : Foot.le ⟨[.loop, .gfm], [.ctrl], false⟩ f) (h : Ev f s x) :
    Ev f s (startRamp g k e0 e1 x) := by
  unfold startRamp
  repeat' first
    | with_reducible exact h
    | with_reducible assumption
    | with_reducible refine setGfm_ev (le_trans' hf rfl) ?_
    | with_reducible refine takeProf_ev (le_trans' hf rfl) ?_

theorem rampStep_ev {g : Fin 2} (hf : Foot.le ⟨[.loop], [.ctrl], false⟩ f) (h : Ev f s x) :
    Ev f s (rampStep g x) := by
  unfold rampStep
  repeat' first
    | with_reducible exact h
    | with_reducible assumption
    | with_reducible refine moveProf_ev (le_trans' hf rfl) ?_
    | with_reducible refine stepProf_ev (le_trans' hf rfl) ?_
    | with_reducible refine ev_ite (fun _ => ?_) (fun _ => ?_)
    | exact Fin.isLt _
    | omega
    | split

theorem endRamp_ev {g : Fin 2} (hf : Foot.le ⟨[.loop, .gfm], [.ctrl], false⟩ f) (h : Ev f s x) :
    Ev f s (endRamp g x) := by
  unfold endRamp
  repeat' first
    | with_reducible exact h
    | with_reducible assumption
    | with_reducible refine freeProf_ev (le_trans' hf rfl) ?_
    | with_reducible refine setGfm_ev (le_trans' hf rfl) ?_
    | with_reducible refine ev_ite (fun _ => ?_) (fun _ => ?_)
    | exact Fin.isLt _
    | omega
    | split

theorem holdRamp_ev {g : Fin 2} {hold : Bool} (hf : Foot.le ⟨[.gfm], [.ctrl], false⟩ f) (h : Ev f s x) :
    Ev f s (holdRamp g hold x) := by
  unfold holdRamp
  repeat' first
    | with_reducible exact h
    | with_reducible assumption
    | with_reducible refine setGfm_ev (le_trans' hf rfl) ?_
    | with_reducible refine ev_setF ?_ ?_
    | with_reducible refine ev_ite (fun _ => ?_) (fun _ => ?_)
    | with_reducible refine reg_CTRL_PROF_CFG hf rfl ?_
    | exact reg_block hf .ctrl rfl rfl
    | exact Fin.isLt _
    | omega
    | split
    | dsimp only

theorem rampDone_ev {g : Fin 2} {k : RampKind} (hf : Foot.le ⟨[.log, .gfm], [.gfm, .fio, .cmd], false⟩ f) (h : Ev f s x) :
    Ev f s (rampDone g k x) := by
  unfold rampDone
  repeat' first
    | with_reducible exact h
    | with_reducible assumption
    | with_reducible refine orderStage_ev (le_trans' hf rfl) ?_
    | with_reducible refine setGfmState_ev (le_trans' hf rfl) ?_
    | with_reducible refine ev_ite (fun _ => ?_) (fun _ => ?_)

theorem execRampComplete_ev {g : Fin 2} (hf : Foot.le ⟨[.tai, .ticks, .log, .loop, .gfm], [.ctrl, .gfm, .fio, .cmd], false⟩ f) (h : Ev f s x) :
    EvO f s (execRampComplete g x) := by
  unfold execRampComplete
  repeat' first
    | with_reducible exact h
    | with_reducible assumption
    | with_reducible refine moveProf_ev (le_trans' hf rfl) ?_
    | with_reducible refine rampDone_ev (le_trans' hf rfl) ?_
    | with_reducible refine ev_reachLocal (part_mem hf rfl) (part_mem hf rfl) ?_
    | with_reducible refine evo_next ?_
    | with_reducible refine evo_ite (fun _ => ?_) (fun _ => ?_)
    | with_reducible refine ev_ite (fun _ => ?_) (fun _ => ?_)
    | exact Fin.isLt _
    | omega
    | split

theorem enterLimit_ev {g : Fin 2} (hf : Foot.le ⟨[.log, .time, .loop, .gfm, .prot, .recd], [.time, .ctrl, .gfm, .prot, .cmd], false⟩ f) (h : Ev f s x) :
    Ev f s (enterLimit g x) := by
  unfold enterLimit
  repeat' first
    | with_reducible exact h
    | with_reducible assumption
    | with_reducible refine endRamp_ev (le_trans' hf rfl) ?_
    | with_reducible refine lmdLimitEntry_ev (le_trans' hf rfl) ?_
    | with_reducible refine recTrig_ev (le_trans' hf rfl) ?_
    | with_reducible refine setGfm_ev (le_trans' hf rfl) ?_
    | with_reducible refine setMode_ev (le_trans' hf rfl) ?_
    | with_reducible refine ev_setF ?_ ?_
    | with_reducible refine ev_wr64 ?_ ?_ ?_
    | with_reducible refine ev_logEvent (part_mem hf rfl) (block_mem hf rfl) ?_
    | with_reducible refine ev_ite (fun _ => ?_) (fun _ => ?_)
    | with_reducible refine reg_GFM_ONSET hf rfl ?_
    | with_reducible refine reg_GFM_ONSET_hi hf rfl ?_
    | with_reducible refine reg_GFM_STATE hf rfl ?_
    | exact reg_block hf .gfm rfl rfl
    | exact reg_block hf .cmd rfl rfl
    | exact Fin.isLt _
    | omega

theorem countLimiting_ev {g : Fin 2} (hf : Foot.le ⟨[.gfm], [], false⟩ f) (h : Ev f s x) :
    Ev f s (countLimiting g x) := by
  unfold countLimiting
  repeat' first
    | with_reducible exact h
    | with_reducible assumption
    | with_reducible refine setGfm_ev (le_trans' hf rfl) ?_
    | with_reducible refine ev_ite (fun _ => ?_) (fun _ => ?_)

theorem limitStep_ev {g : Fin 2} (hf : Foot.le ⟨[.log, .time, .loop, .gfm, .prot, .recd], [.time, .ctrl, .gfm, .prot, .cmd], false⟩ f) (h : Ev f s x) :
    Ev f s (limitStep g x) := by
  unfold limitStep
  repeat' first
    | with_reducible exact h
    | with_reducible assumption
    | with_reducible refine countLimiting_ev (le_trans' hf rfl) ?_
    | with_reducible refine enterLimit_ev (le_trans' hf rfl) ?_
    | with_reducible refine holdRamp_ev (le_trans' hf rfl) ?_
    | with_reducible refine setGfm_ev (le_trans' hf rfl) ?_
    | with_reducible refine ev_ite (fun _ => ?_) (fun _ => ?_)

theorem execLimitHeld_ev {g : Fin 2} (hf : Foot.le ⟨[.tai, .ticks, .log, .gfm], [.cmd], false⟩ f) (h : Ev f s x) :
    EvO f s (execLimitHeld g x) := by
  unfold execLimitHeld
  repeat' first
    | with_reducible exact h
    | with_reducible assumption
    | with_reducible refine setGfm_ev (le_trans' hf rfl) ?_
    | with_reducible refine ev_logN (part_mem hf rfl) (block_mem hf rfl) ?_
    | with_reducible refine ev_reachLocal (part_mem hf rfl) (part_mem hf rfl) ?_
    | with_reducible refine evo_next ?_
    | with_reducible refine evo_ite (fun _ => ?_) (fun _ => ?_)

theorem leaveLimit_ev {g : Fin 2} (hf : Foot.le ⟨[.log, .gfm, .prot], [.gfm, .prot, .cmd], false⟩ f) (h : Ev f s x) :
    Ev f s (leaveLimit g x) := by
  unfold leaveLimit
  repeat' first
    | with_reducible exact h
    | with_reducible assumption
    | with_reducible refine lmdRelease_ev (le_trans' hf rfl) ?_
    | with_reducible refine setGfm_ev (le_trans' hf rfl) ?_
    | with_reducible refine ev_setF ?_ ?_
    | with_reducible refine ev_logN (part_mem hf rfl) (block_mem hf rfl) ?_
    | with_reducible refine ev_ite (fun _ => ?_) (fun _ => ?_)
    | with_reducible refine reg_GFM_STATE hf rfl ?_
    | exact reg_block hf .gfm rfl rfl
    | exact reg_block hf .cmd rfl rfl
    | exact Fin.isLt _
    | omega

theorem execLimitRelease_ev {g : Fin 2} (hf : Foot.le ⟨[.tai, .ticks, .log, .gfm, .prot], [.gfm, .prot, .cmd], false⟩ f) (h : Ev f s x) :
    EvO f s (execLimitRelease g x) := by
  unfold execLimitRelease
  repeat' first
    | with_reducible exact h
    | with_reducible assumption
    | with_reducible refine leaveLimit_ev (le_trans' hf rfl) ?_
    | with_reducible refine orderStage_ev (le_trans' hf rfl) ?_
    | with_reducible refine ev_reachLocal (part_mem hf rfl) (part_mem hf rfl) ?_
    | with_reducible refine evo_next ?_
    | with_reducible refine evo_ite (fun _ => ?_) (fun _ => ?_)
    | with_reducible refine ev_ite (fun _ => ?_) (fun _ => ?_)
    | exact Fin.isLt _
    | omega
    | split
    | dsimp only

theorem takeLine_ev {g : Fin 2} {m : LineMeas} (hf : Foot.le ⟨[.gfm], [.gfm], false⟩ f) (h : Ev f s x) :
    Ev f s (takeLine g m x) := by
  unfold takeLine
  repeat' first
    | with_reducible exact h
    | with_reducible assumption
    | with_reducible refine setGfm_ev (le_trans' hf rfl) ?_
    | with_reducible refine ev_setF ?_ ?_
    | with_reducible refine ev_ite (fun _ => ?_) (fun _ => ?_)
    | with_reducible refine reg_GFM_FREQ hf rfl ?_
    | with_reducible refine reg_GFM_STATE hf rfl ?_
    | exact reg_block hf .gfm rfl rfl
    | exact Fin.isLt _
    | omega

theorem countLine_ev {g : Fin 2} (hf : Foot.le ⟨[.gfm], [], false⟩ f) (h : Ev f s x) :
    Ev f s (countLine g x) := by
  unfold countLine
  repeat' first
    | with_reducible exact h
    | with_reducible assumption
    | with_reducible refine setGfm_ev (le_trans' hf rfl) ?_

theorem showPermit_ev {g : Fin 2} (hf : Foot.le ⟨[], [.gfm], false⟩ f) (h : Ev f s x) :
    Ev f s (showPermit g x) := by
  unfold showPermit
  repeat' first
    | with_reducible exact h
    | with_reducible assumption
    | with_reducible refine ev_setF ?_ ?_
    | with_reducible refine ev_ite (fun _ => ?_) (fun _ => ?_)
    | with_reducible refine reg_GFM_STATE hf rfl ?_
    | exact reg_block hf .gfm rfl rfl
    | exact Fin.isLt _
    | omega

theorem awaitSlot_ev {g : Fin 2} {t : Nat} {bo : Bool} (hf : Foot.le ⟨[.gfm], [.gfm], false⟩ f) (h : Ev f s x) :
    Ev f s (awaitSlot g t bo x) := by
  unfold awaitSlot
  repeat' first
    | with_reducible exact h
    | with_reducible assumption
    | with_reducible refine setGfm_ev (le_trans' hf rfl) ?_
    | with_reducible refine ev_wr64 ?_ ?_ ?_
    | with_reducible refine ev_ite (fun _ => ?_) (fun _ => ?_)
    | with_reducible refine reg_GFM_SLOT hf rfl ?_
    | with_reducible refine reg_GFM_SLOT_hi hf rfl ?_
    | exact reg_block hf .gfm rfl rfl
    | exact Fin.isLt _
    | omega

theorem chooseSlot_ev {g : Fin 2} {t : Nat} (hf : Foot.le ⟨[.fresh, .log, .gfm], [.gfm, .cmd], false⟩ f) (h : Ev f s x) :
    Ev f s (chooseSlot g t x) := by
  unfold chooseSlot
  repeat' first
    | with_reducible exact h
    | with_reducible assumption
    | with_reducible refine awaitSlot_ev (le_trans' hf rfl) ?_
    | refine ev_snd (by assumption) ?_
    | with_reducible refine ev_logN (part_mem hf rfl) (block_mem hf rfl) ?_
    | with_reducible refine ev_takeFree (part_mem hf rfl) ?_
    | with_reducible refine ev_ite (fun _ => ?_) (fun _ => ?_)

theorem enterWaitSlot_ev {g : Fin 2} (hf : Foot.le ⟨[.fresh, .log, .gfm], [.gfm, .fio, .cmd], false⟩ f) (h : Ev f s x) :
    Ev f s (enterWaitSlot g x) := by
  unfold enterWaitSlot
  repeat' first
    | with_reducible exact h
    | with_reducible assumption
    | with_reducible refine chooseSlot_ev (le_trans' hf rfl) ?_
    | with_reducible refine setGfmState_ev (le_trans' hf rfl) ?_

theorem takeSlot_ev {g : Fin 2} {t : BitVec 64} (hf : Foot.le ⟨[.fresh, .log, .gfm], [.gfm, .fio, .cmd], false⟩ f) (h : Ev f s x) :
    Ev f s (takeSlot g t x) := by
  unfold takeSlot
  repeat' first
    | with_reducible exact h
    | with_reducible assumption
    | with_reducible refine chooseSlot_ev (le_trans' hf rfl) ?_
    | with_reducible refine orderStage_ev (le_trans' hf rfl) ?_
    | with_reducible refine setGfmState_ev (le_trans' hf rfl) ?_
    | with_reducible refine ev_logEvent (part_mem hf rfl) (block_mem hf rfl) ?_
    | with_reducible refine ev_ite (fun _ => ?_) (fun _ => ?_)

theorem leaveSlot_ev {g : Fin 2} (hf : Foot.le ⟨[.log, .gfm], [.gfm, .fio, .cmd], false⟩ f) (h : Ev f s x) :
    Ev f s (leaveSlot g x) := by
  unfold leaveSlot
  repeat' first
    | with_reducible exact h
    | with_reducible assumption
    | with_reducible refine setGfmState_ev (le_trans' hf rfl) ?_

theorem slotRows_ev {g : Fin 2} (hf : Foot.le ⟨[.fresh, .log, .gfm], [.gfm, .fio, .cmd], false⟩ f) (h : Ev f s x) :
    Ev f s (slotRows g x) := by
  unfold slotRows
  repeat' first
    | with_reducible exact h
    | with_reducible assumption
    | with_reducible refine leaveSlot_ev (le_trans' hf rfl) ?_
    | with_reducible refine takeSlot_ev (le_trans' hf rfl) ?_
    | with_reducible refine ev_ite (fun _ => ?_) (fun _ => ?_)
    | exact Fin.isLt _
    | omega
    | split

theorem reachSample_ev {st : Fin 4} {t : BitVec 64} (hf : Foot.le ⟨[.tai, .ticks], [], false⟩ f) (h : Ev f s x) :
    Ev f s (reachSample st t x) := by
  unfold reachSample
  repeat' first
    | with_reducible exact h
    | with_reducible assumption
    | with_reducible refine ev_reachNs (part_mem hf rfl) (part_mem hf rfl) ?_

theorem slotReached_ev {g : Fin 2} {bo : Bool} (hf : Foot.le ⟨[.fresh, .tai, .ticks, .log, .gfm], [.gfm, .fio, .cmd], false⟩ f) (h : Ev f s x) :
    Ev f s (slotReached g bo x) := by
  unfold slotReached
  repeat' first
    | with_reducible exact h
    | with_reducible assumption
    | with_reducible refine reachSample_ev (le_trans' hf rfl) ?_
    | with_reducible refine slotRows_ev (le_trans' hf rfl) ?_
    | with_reducible refine ev_ite (fun _ => ?_) (fun _ => ?_)
    | exact Fin.isLt _
    | omega
    | split

theorem execSlotInstant_ev {g : Fin 2} (hf : Foot.le ⟨[.fresh, .tai, .ticks, .log, .gfm], [.gfm, .fio, .cmd], false⟩ f) (h : Ev f s x) :
    EvO f s (execSlotInstant g x) := by
  unfold execSlotInstant
  repeat' first
    | with_reducible exact h
    | with_reducible assumption
    | with_reducible refine slotReached_ev (le_trans' hf rfl) ?_
    | with_reducible refine evo_next ?_

theorem execBackoffExpiry_ev {g : Fin 2} (hf : Foot.le ⟨[.fresh, .tai, .ticks, .log, .gfm], [.gfm, .fio, .cmd], false⟩ f) (h : Ev f s x) :
    EvO f s (execBackoffExpiry g x) := by
  unfold execBackoffExpiry
  repeat' first
    | with_reducible exact h
    | with_reducible assumption
    | with_reducible refine slotReached_ev (le_trans' hf rfl) ?_
    | with_reducible refine evo_next ?_

theorem contFail_ev {g : Fin 2} {cause : Nat} (hf : Foot.le ⟨[.log], [.cmd], false⟩ f) (h : Ev f s x) :
    Ev f s (contFail g cause x) := by
  unfold contFail
  repeat' first
    | with_reducible exact h
    | with_reducible assumption
    | with_reducible refine ev_logN (part_mem hf rfl) (block_mem hf rfl) ?_

theorem contWhileClosed_ev {g : Fin 2} {prev : Bool} {fb : Bool} (hf : Foot.le ⟨[.log, .loop, .gfm], [.gfm, .fio, .cmd], false⟩ f) (h : Ev f s x) :
    Ev f s (contWhileClosed g prev fb x) := by
  unfold contWhileClosed
  repeat' first
    | with_reducible exact h
    | with_reducible assumption
    | with_reducible refine contFail_ev (le_trans' hf rfl) ?_
    | with_reducible refine failGfm_ev (le_trans' hf rfl) ?_
    | with_reducible refine orderStage_ev (le_trans' hf rfl) ?_
    | with_reducible refine setContactor_ev (le_trans' hf rfl) ?_
    | with_reducible refine setGfm_ev (le_trans' hf rfl) ?_
    | with_reducible refine setGfmState_ev (le_trans' hf rfl) ?_
    | with_reducible refine stopStage_ev (le_trans' hf rfl) ?_
    | with_reducible refine ev_ite (fun _ => ?_) (fun _ => ?_)

theorem contWhileOpen_ev {g : Fin 2} {prev : Option Bool} {fb : Bool} (hf : Foot.le ⟨[.log, .loop, .gfm], [.gfm, .fio, .cmd], false⟩ f) (h : Ev f s x) :
    Ev f s (contWhileOpen g prev fb x) := by
  unfold contWhileOpen
  repeat' first
    | with_reducible exact h
    | with_reducible assumption
    | with_reducible refine contFail_ev (le_trans' hf rfl) ?_
    | with_reducible refine failGfm_ev (le_trans' hf rfl) ?_
    | with_reducible refine setGfm_ev (le_trans' hf rfl) ?_
    | with_reducible refine ev_ite (fun _ => ?_) (fun _ => ?_)

theorem contactorRows_ev {g : Fin 2} (hf : Foot.le ⟨[.log, .loop, .gfm], [.gfm, .fio, .cmd], false⟩ f) (h : Ev f s x) :
    Ev f s (contactorRows g x) := by
  unfold contactorRows
  repeat' first
    | with_reducible exact h
    | with_reducible assumption
    | with_reducible refine contWhileClosed_ev (le_trans' hf rfl) ?_
    | with_reducible refine contWhileOpen_ev (le_trans' hf rfl) ?_
    | with_reducible refine setGfm_ev (le_trans' hf rfl) ?_
    | with_reducible refine ev_setF ?_ ?_
    | with_reducible refine ev_ite (fun _ => ?_) (fun _ => ?_)
    | with_reducible refine reg_GFM_CONT hf rfl ?_
    | with_reducible refine reg_GFM_STATE hf rfl ?_
    | exact reg_block hf .gfm rfl rfl
    | exact Fin.isLt _
    | omega

theorem execContactorCheck_ev {g : Fin 2} (hf : Foot.le ⟨[.tai, .ticks, .log, .loop, .gfm], [.gfm, .fio, .cmd], false⟩ f) (h : Ev f s x) :
    EvO f s (execContactorCheck g x) := by
  unfold execContactorCheck
  repeat' first
    | with_reducible exact h
    | with_reducible assumption
    | with_reducible refine contactorRows_ev (le_trans' hf rfl) ?_
    | with_reducible refine setGfm_ev (le_trans' hf rfl) ?_
    | with_reducible refine ev_reachLocal (part_mem hf rfl) (part_mem hf rfl) ?_
    | with_reducible refine evo_next ?_
    | with_reducible refine evo_ite (fun _ => ?_) (fun _ => ?_)
    | with_reducible refine ev_ite (fun _ => ?_) (fun _ => ?_)
    | exact Fin.isLt _
    | omega
    | split

theorem failRunning_ev {g : Fin 2} (hf : Foot.le ⟨[.log, .loop, .gfm], [.gfm, .fio, .cmd], false⟩ f) (h : Ev f s x) :
    Ev f s (failRunning g x) := by
  unfold failRunning
  repeat' first
    | with_reducible exact h
    | with_reducible assumption
    | with_reducible refine failGfm_ev (le_trans' hf rfl) ?_
    | with_reducible refine ev_ite (fun _ => ?_) (fun _ => ?_)

theorem blockedRow_ev {g : Fin 2} (hf : Foot.le ⟨[.log, .loop, .gfm], [.gfm, .fio, .cmd], false⟩ f) (h : Ev f s x) :
    Ev f s (blockedRow g x) := by
  unfold blockedRow
  repeat' first
    | with_reducible exact h
    | with_reducible assumption
    | with_reducible refine failRunning_ev (le_trans' hf rfl) ?_
    | with_reducible refine ev_ite (fun _ => ?_) (fun _ => ?_)

theorem rideExpire_ev {g : Fin 2} (hf : Foot.le ⟨[.log, .loop, .gfm], [.gfm, .fio, .cmd], false⟩ f) (h : Ev f s x) :
    Ev f s (rideExpire g x) := by
  unfold rideExpire
  repeat' first
    | with_reducible exact h
    | with_reducible assumption
    | with_reducible refine setGfmState_ev (le_trans' hf rfl) ?_
    | with_reducible refine stopStage_ev (le_trans' hf rfl) ?_
    | with_reducible refine ev_logN (part_mem hf rfl) (block_mem hf rfl) ?_

theorem rideRows_ev {g : Fin 2} (hf : Foot.le ⟨[.fresh, .log, .loop, .gfm], [.gfm, .fio, .cmd], false⟩ f) (h : Ev f s x) :
    Ev f s (rideRows g x) := by
  unfold rideRows
  repeat' first
    | with_reducible exact h
    | with_reducible assumption
    | with_reducible refine enterWaitSlot_ev (le_trans' hf rfl) ?_
    | with_reducible refine rideExpire_ev (le_trans' hf rfl) ?_
    | with_reducible refine setGfm_ev (le_trans' hf rfl) ?_
    | with_reducible refine setGfmState_ev (le_trans' hf rfl) ?_
    | with_reducible refine stopStage_ev (le_trans' hf rfl) ?_
    | with_reducible refine ev_logEvent (part_mem hf rfl) (block_mem hf rfl) ?_
    | with_reducible refine ev_ite (fun _ => ?_) (fun _ => ?_)

theorem lineRows_ev {g : Fin 2} (hf : Foot.le ⟨[.fresh, .log, .loop, .gfm], [.gfm, .fio, .cmd], false⟩ f) (h : Ev f s x) :
    Ev f s (lineRows g x) := by
  unfold lineRows
  repeat' first
    | with_reducible exact h
    | with_reducible assumption
    | with_reducible refine enterWaitSlot_ev (le_trans' hf rfl) ?_
    | with_reducible refine leaveSlot_ev (le_trans' hf rfl) ?_
    | with_reducible refine orderStage_ev (le_trans' hf rfl) ?_
    | with_reducible refine setGfmState_ev (le_trans' hf rfl) ?_
    | with_reducible refine stopStage_ev (le_trans' hf rfl) ?_
    | with_reducible refine ev_ite (fun _ => ?_) (fun _ => ?_)

theorem countWindow_ev {g : Fin 2} (hf : Foot.le ⟨[.gfm], [], false⟩ f) (h : Ev f s x) :
    Ev f s (countWindow g x) := by
  unfold countWindow
  repeat' first
    | with_reducible exact h
    | with_reducible assumption
    | with_reducible refine setGfm_ev (le_trans' hf rfl) ?_

theorem windowRow_ev {g : Fin 2} (hf : Foot.le ⟨[.log, .loop, .gfm], [.ctrl, .gfm, .fio, .cmd], false⟩ f) (h : Ev f s x) :
    Ev f s (windowRow g x) := by
  unfold windowRow
  repeat' first
    | with_reducible exact h
    | with_reducible assumption
    | with_reducible refine countWindow_ev (le_trans' hf rfl) ?_
    | with_reducible refine setGfmState_ev (le_trans' hf rfl) ?_
    | with_reducible refine startBlend_ev (le_trans' hf rfl) ?_
    | with_reducible refine ev_logEvent (part_mem hf rfl) (block_mem hf rfl) ?_
    | with_reducible refine ev_ite (fun _ => ?_) (fun _ => ?_)

theorem syncExpire_ev {g : Fin 2} (hf : Foot.le ⟨[.log, .loop, .gfm], [.gfm, .fio, .cmd], false⟩ f) (h : Ev f s x) :
    Ev f s (syncExpire g x) := by
  unfold syncExpire
  repeat' first
    | with_reducible exact h
    | with_reducible assumption
    | with_reducible refine failGfm_ev (le_trans' hf rfl) ?_
    | with_reducible refine ev_logEvent (part_mem hf rfl) (block_mem hf rfl) ?_

theorem syncRow_ev {g : Fin 2} (hf : Foot.le ⟨[.log, .loop, .gfm], [.gfm, .fio, .cmd], false⟩ f) (h : Ev f s x) :
    Ev f s (syncRow g x) := by
  unfold syncRow
  repeat' first
    | with_reducible exact h
    | with_reducible assumption
    | with_reducible refine syncExpire_ev (le_trans' hf rfl) ?_
    | with_reducible refine ev_ite (fun _ => ?_) (fun _ => ?_)

theorem evaluateGfm_ev {g : Fin 2} (hf : Foot.le ⟨[.fresh, .log, .loop, .gfm], [.ctrl, .gfm, .fio, .cmd], false⟩ f) (h : Ev f s x) :
    Ev f s (evaluateGfm g x) := by
  unfold evaluateGfm
  repeat' first
    | with_reducible exact h
    | with_reducible assumption
    | with_reducible refine blockedRow_ev (le_trans' hf rfl) ?_
    | with_reducible refine contactorRows_ev (le_trans' hf rfl) ?_
    | with_reducible refine lineRows_ev (le_trans' hf rfl) ?_
    | with_reducible refine rideRows_ev (le_trans' hf rfl) ?_
    | with_reducible refine slotRows_ev (le_trans' hf rfl) ?_
    | with_reducible refine syncRow_ev (le_trans' hf rfl) ?_
    | with_reducible refine windowRow_ev (le_trans' hf rfl) ?_
    | with_reducible refine ev_ite (fun _ => ?_) (fun _ => ?_)

theorem classify_ev {g : Fin 2} {m : LineMeas} (hf : Foot.le ⟨[.fresh, .tai, .ticks, .log, .loop, .gfm], [.ctrl, .gfm, .fio, .cmd], false⟩ f) (h : Ev f s x) :
    Ev f s (classify g m x) := by
  unfold classify
  repeat' first
    | with_reducible exact h
    | with_reducible assumption
    | with_reducible refine countLine_ev (le_trans' hf rfl) ?_
    | with_reducible refine evaluateGfm_ev (le_trans' hf rfl) ?_
    | with_reducible refine setGfm_ev (le_trans' hf rfl) ?_
    | with_reducible refine showPermit_ev (le_trans' hf rfl) ?_
    | with_reducible refine takeLine_ev (le_trans' hf rfl) ?_
    | with_reducible refine ev_reachLocal (part_mem hf rfl) (part_mem hf rfl) ?_
    | with_reducible refine ev_ite (fun _ => ?_) (fun _ => ?_)
    | exact Fin.isLt _
    | omega
    | split

theorem execLineClassify_ev {g : Fin 2} {m : LineMeas} (hf : Foot.le ⟨[.fresh, .tai, .ticks, .log, .loop, .gfm], [.ctrl, .gfm, .fio, .cmd], false⟩ f) (h : Ev f s x) :
    EvO f s (execLineClassify g m x) := by
  unfold execLineClassify
  repeat' first
    | with_reducible exact h
    | with_reducible assumption
    | with_reducible refine classify_ev (le_trans' hf rfl) ?_
    | with_reducible refine evo_next ?_

theorem execLineDeadConfirmed_ev {g : Fin 2} {m : LineMeas} (hf : Foot.le ⟨[.fresh, .tai, .ticks, .log, .loop, .gfm], [.ctrl, .gfm, .fio, .cmd], false⟩ f) (h : Ev f s x) :
    EvO f s (execLineDeadConfirmed g m x) := by
  unfold execLineDeadConfirmed
  repeat' first
    | with_reducible exact h
    | with_reducible assumption
    | with_reducible refine classify_ev (le_trans' hf rfl) ?_
    | with_reducible refine evo_next ?_
    | with_reducible refine evo_ite (fun _ => ?_) (fun _ => ?_)

theorem execLineLiveConfirmed_ev {g : Fin 2} {m : LineMeas} (hf : Foot.le ⟨[.fresh, .tai, .ticks, .log, .loop, .gfm], [.ctrl, .gfm, .fio, .cmd], false⟩ f) (h : Ev f s x) :
    EvO f s (execLineLiveConfirmed g m x) := by
  unfold execLineLiveConfirmed
  repeat' first
    | with_reducible exact h
    | with_reducible assumption
    | with_reducible refine classify_ev (le_trans' hf rfl) ?_
    | with_reducible refine evo_next ?_
    | with_reducible refine evo_ite (fun _ => ?_) (fun _ => ?_)

theorem execSyncClose_ev {g : Fin 2} {m : LineMeas} (hf : Foot.le ⟨[.fresh, .tai, .ticks, .log, .loop, .gfm], [.ctrl, .gfm, .fio, .cmd], false⟩ f) (h : Ev f s x) :
    EvO f s (execSyncClose g m x) := by
  unfold execSyncClose
  repeat' first
    | with_reducible exact h
    | with_reducible assumption
    | with_reducible refine classify_ev (le_trans' hf rfl) ?_
    | with_reducible refine evo_next ?_
    | with_reducible refine evo_ite (fun _ => ?_) (fun _ => ?_)

theorem execRideResume_ev {g : Fin 2} {m : LineMeas} (hf : Foot.le ⟨[.fresh, .tai, .ticks, .log, .loop, .gfm], [.ctrl, .gfm, .fio, .cmd], false⟩ f) (h : Ev f s x) :
    EvO f s (execRideResume g m x) := by
  unfold execRideResume
  repeat' first
    | with_reducible exact h
    | with_reducible assumption
    | with_reducible refine classify_ev (le_trans' hf rfl) ?_
    | with_reducible refine evo_next ?_
    | with_reducible refine evo_ite (fun _ => ?_) (fun _ => ?_)

theorem execRideExpired_ev {g : Fin 2} (hf : Foot.le ⟨[.tai, .ticks, .log, .loop, .gfm], [.gfm, .fio, .cmd], false⟩ f) (h : Ev f s x) :
    EvO f s (execRideExpired g x) := by
  unfold execRideExpired
  repeat' first
    | with_reducible exact h
    | with_reducible assumption
    | with_reducible refine rideExpire_ev (le_trans' hf rfl) ?_
    | with_reducible refine ev_reachLocal (part_mem hf rfl) (part_mem hf rfl) ?_
    | with_reducible refine evo_next ?_
    | with_reducible refine evo_ite (fun _ => ?_) (fun _ => ?_)

theorem execSyncTimeout_ev {g : Fin 2} (hf : Foot.le ⟨[.tai, .ticks, .log, .loop, .gfm], [.gfm, .fio, .cmd], false⟩ f) (h : Ev f s x) :
    EvO f s (execSyncTimeout g x) := by
  unfold execSyncTimeout
  repeat' first
    | with_reducible exact h
    | with_reducible assumption
    | with_reducible refine syncExpire_ev (le_trans' hf rfl) ?_
    | with_reducible refine ev_reachLocal (part_mem hf rfl) (part_mem hf rfl) ?_
    | with_reducible refine evo_next ?_
    | with_reducible refine evo_ite (fun _ => ?_) (fun _ => ?_)

theorem execBlackstartAbort_ev {g : Fin 2} (hf : Foot.le ⟨[.tai, .ticks, .log, .loop, .gfm], [.gfm, .fio, .cmd], false⟩ f) (h : Ev f s x) :
    EvO f s (execBlackstartAbort g x) := by
  unfold execBlackstartAbort
  repeat' first
    | with_reducible exact h
    | with_reducible assumption
    | with_reducible refine failGfm_ev (le_trans' hf rfl) ?_
    | with_reducible refine setGfm_ev (le_trans' hf rfl) ?_
    | with_reducible refine setGfmState_ev (le_trans' hf rfl) ?_
    | with_reducible refine stopStage_ev (le_trans' hf rfl) ?_
    | with_reducible refine ev_setF ?_ ?_
    | with_reducible refine ev_logN (part_mem hf rfl) (block_mem hf rfl) ?_
    | with_reducible refine ev_reachLocal (part_mem hf rfl) (part_mem hf rfl) ?_
    | with_reducible refine evo_next ?_
    | with_reducible refine evo_ite (fun _ => ?_) (fun _ => ?_)
    | with_reducible refine ev_ite (fun _ => ?_) (fun _ => ?_)
    | with_reducible refine reg_GFM_LIMIT_T hf rfl ?_
    | with_reducible refine reg_GFM_STATE hf rfl ?_
    | exact reg_block hf .gfm rfl rfl
    | exact reg_block hf .cmd rfl rfl
    | exact Fin.isLt _
    | omega

theorem vfLaw_ev (hf : Foot.le ⟨[.gfm], [.gfm], false⟩ f) (h : Ev f s x) :
    Ev f s (vfLaw x) := by
  unfold vfLaw
  repeat' first
    | with_reducible exact h
    | with_reducible assumption
    | with_reducible refine ev_setF ?_ ?_
    | with_reducible refine ev_ite (fun _ => ?_) (fun _ => ?_)
    | exact reg_block hf .gfm rfl rfl
    | exact Fin.isLt _
    | omega
    | split
    | dsimp only
    | with_reducible refine ev_gfm (part_mem hf rfl) ?_

theorem vfProfStep_ev (hf : Foot.le ⟨[.loop], [.ctrl], false⟩ f) (h : Ev f s x) :
    Ev f s (vfProfStep x) := by
  unfold vfProfStep
  repeat' first
    | with_reducible exact h
    | with_reducible assumption
    | with_reducible refine moveProf_ev (le_trans' hf rfl) ?_

end Sys2Proof.Laws
end

