-- ==== Sys2Proof/Laws/EvGuyline.lean ====
section
/-! SUPPORT. What each change of Machine/Guyline.lean can touch, and that it keeps the state sound: one lemma a function. -/

namespace Sys2Proof.Laws

open Sys2Proof Sys2Proof.Machine Sys2Proof.Safety

variable {f : Foot} {s x : State}

theorem setDpxRec_ev {x0 : DpxState} (hf : Foot.le ⟨[.dpx], [], false⟩ f) (h : Ev f s x) :
    Ev f s (setDpxRec x0 x) := by
  unfold setDpxRec
  repeat' first
    | with_reducible exact h
    | with_reducible assumption
    | with_reducible refine ev_ite (fun _ => ?_) (fun _ => ?_)
    | exact Fin.isLt _
    | omega
    | split
    | dsimp only
    | with_reducible refine ev_dpx (part_mem hf rfl) ?_

theorem sendGuy_ev {ty : Fin 16} {p : GuyPayload} (hf : Foot.le ⟨[.dpx], [], false⟩ f) (h : Ev f s x) :
    Ev f s (sendGuy ty p x) := by
  unfold sendGuy
  repeat' first
    | with_reducible exact h
    | with_reducible assumption
    | with_reducible refine ev_ite (fun _ => ?_) (fun _ => ?_)
    | exact Fin.isLt _
    | omega
    | split
    | dsimp only
    | with_reducible refine ev_dpx (part_mem hf rfl) ?_

end Sys2Proof.Laws
end

