-- ==== Sys2Proof/Laws/EvSample.lean ====
section
/-! SUPPORT. What each change of Machine/Sample.lean can touch, and that it keeps the state sound: one lemma a function. -/

namespace Sys2Proof.Laws

open Sys2Proof Sys2Proof.Machine Sys2Proof.Safety

variable {f : Foot} {s x : State}

theorem refuseStart_ev {st : Fin 4} {cause : Nat} (hf : Foot.le ⟨[.log], [.ctrl, .cmd], false⟩ f) (h : Ev f s x) :
    Ev f s (refuseStart st cause x) := by
  unfold refuseStart
  repeat' first
    | with_reducible exact h
    | with_reducible assumption
    | with_reducible refine ev_setF ?_ ?_
    | with_reducible refine ev_logN (part_mem hf rfl) (block_mem hf rfl) ?_
    | with_reducible refine ev_ite (fun _ => ?_) (fun _ => ?_)
    | exact reg_block hf .ctrl rfl rfl

theorem requestStart_ev {st : Fin 4} (hf : Foot.le ⟨[.log, .loop, .gfm], [.ctrl, .gfm, .fio, .cmd], false⟩ f) (h : Ev f s x) :
    Ev f s (requestStart st x) := by
  unfold requestStart
  repeat' first
    | with_reducible exact h
    | with_reducible assumption
    | with_reducible refine gfmStartRequest_ev (le_trans' hf rfl) ?_
    | with_reducible refine refuseStart_ev (le_trans' hf rfl) ?_
    | with_reducible refine setStage_ev (le_trans' hf rfl) ?_
    | with_reducible refine ev_setF ?_ ?_
    | with_reducible refine ev_ite (fun _ => ?_) (fun _ => ?_)
    | with_reducible refine reg_CTRL_STAGE_CMD hf rfl ?_
    | exact reg_block hf .ctrl rfl rfl
    | exact Fin.isLt _

theorem requestStop_ev {st : Fin 4} (hf : Foot.le ⟨[.log, .loop, .gfm], [.ctrl, .gfm, .fio, .cmd], false⟩ f) (h : Ev f s x) :
    Ev f s (requestStop st x) := by
  unfold requestStop
  repeat' first
    | with_reducible exact h
    | with_reducible assumption
    | with_reducible refine gfmStopRequest_ev (le_trans' hf rfl) ?_
    | with_reducible refine setStage_ev (le_trans' hf rfl) ?_
    | with_reducible refine ev_setF ?_ ?_
    | with_reducible refine ev_ite (fun _ => ?_) (fun _ => ?_)
    | with_reducible refine reg_CTRL_STAGE_CMD hf rfl ?_
    | exact reg_block hf .ctrl rfl rfl
    | exact Fin.isLt _

theorem writeStageCmd_ev {st : Fin 4} {v : Word} (hf : Foot.le ⟨[.log, .loop, .gfm], [.ctrl, .gfm, .fio, .cmd], false⟩ f) (h : Ev f s x) :
    Ev f s (writeStageCmd st v x) := by
  unfold writeStageCmd
  repeat' first
    | with_reducible exact h
    | with_reducible assumption
    | with_reducible refine requestStart_ev (le_trans' hf rfl) ?_
    | with_reducible refine requestStop_ev (le_trans' hf rfl) ?_
    | with_reducible refine setStage_ev (le_trans' hf rfl) ?_
    | with_reducible refine ev_setF ?_ ?_
    | with_reducible refine ev_ite (fun _ => ?_) (fun _ => ?_)
    | with_reducible refine reg_CTRL_STAGE_CMD hf rfl ?_
    | exact reg_block hf .ctrl rfl rfl
    | exact Fin.isLt _

theorem reachGrid_ev {st : Fin 4} (hf : Foot.le ⟨[.tai, .ticks, .loop], [], false⟩ f) (h : Ev f s x) :
    Ev f s (reachGrid st x) := by
  unfold reachGrid
  repeat' first
    | with_reducible exact h
    | with_reducible assumption
    | with_reducible refine setStage_ev (le_trans' hf rfl) ?_
    | with_reducible refine ev_advanceTo (part_mem hf rfl) (part_mem hf rfl) ?_

theorem noteGfm_ev {st : Fin 4} (hf : Foot.le ⟨[.log, .gfm], [.ctrl, .gfm, .cmd], false⟩ f) (h : Ev f s x) :
    Ev f s (noteGfm st x) := by
  unfold noteGfm
  repeat' first
    | with_reducible exact h
    | with_reducible assumption
    | with_reducible refine moveRefs_ev (le_trans' hf rfl) ?_
    | with_reducible refine restoration_ev (le_trans' hf rfl) ?_
    | with_reducible refine setGfm_ev (le_trans' hf rfl) ?_
    | with_reducible refine timeModeStep_ev (le_trans' hf rfl) ?_
    | with_reducible refine writeIlim_ev (le_trans' hf rfl) ?_
    | with_reducible refine ev_ite (fun _ => ?_) (fun _ => ?_)

theorem quitGfm_ev {st : Fin 4} (hf : Foot.le ⟨[.log, .loop, .gfm, .prot], [.ctrl, .gfm, .prot, .cmd], false⟩ f) (h : Ev f s x) :
    Ev f s (quitGfm st x) := by
  unfold quitGfm
  repeat' first
    | with_reducible exact h
    | with_reducible assumption
    | with_reducible refine endRamp_ev (le_trans' hf rfl) ?_
    | with_reducible refine lmdRelease_ev (le_trans' hf rfl) ?_
    | with_reducible refine setGfm_ev (le_trans' hf rfl) ?_
    | with_reducible refine ev_setF ?_ ?_
    | with_reducible refine ev_ite (fun _ => ?_) (fun _ => ?_)
    | with_reducible refine reg_GFM_STATE hf rfl ?_
    | exact reg_block hf .gfm rfl rfl
    | exact Fin.isLt _
    | omega

theorem stageOff_ev {st : Fin 4} (hf : Foot.le ⟨[.log, .time, .loop, .gfm, .prot, .dpx], [.time, .ctrl, .gfm, .prot, .cmd], false⟩ f) (h : Ev f s x) :
    Ev f s (stageOff st x) := by
  unfold stageOff
  repeat' first
    | with_reducible exact h
    | with_reducible assumption
    | with_reducible refine clearRequests_ev (le_trans' hf rfl) ?_
    | with_reducible refine quitGfm_ev (le_trans' hf rfl) ?_
    | with_reducible refine setMode_ev (le_trans' hf rfl) ?_
    | with_reducible refine ev_ite (fun _ => ?_) (fun _ => ?_)
    | exact Fin.isLt _
    | omega
    | split
    | dsimp only
    | with_reducible refine ev_dpx (part_mem hf rfl) ?_

theorem refuseWaiting_ev {st : Fin 4} {cause : Nat} (hf : Foot.le ⟨[.log], [.ctrl, .cmd], false⟩ f) (h : Ev f s x) :
    Ev f s (refuseWaiting st cause x) := by
  unfold refuseWaiting
  repeat' first
    | with_reducible exact h
    | with_reducible assumption
    | with_reducible refine refuseStart_ev (le_trans' hf rfl) ?_
    | with_reducible refine ev_ite (fun _ => ?_) (fun _ => ?_)

theorem sampleBlocked_ev {st : Fin 4} (hf : Foot.le ⟨[.log, .time, .loop, .gfm, .prot], [.time, .ctrl, .gfm, .prot, .fio, .cmd], false⟩ f) (h : Ev f s x) :
    Ev f s (sampleBlocked st x) := by
  unfold sampleBlocked
  repeat' first
    | with_reducible exact h
    | with_reducible assumption
    | with_reducible refine blockedRow_ev (le_trans' hf rfl) ?_
    | with_reducible refine clearRequests_ev (le_trans' hf rfl) ?_
    | with_reducible refine quitGfm_ev (le_trans' hf rfl) ?_
    | with_reducible refine refuseWaiting_ev (le_trans' hf rfl) ?_
    | with_reducible refine setMode_ev (le_trans' hf rfl) ?_
    | with_reducible refine ev_ite (fun _ => ?_) (fun _ => ?_)

theorem sampleFreed_ev {st : Fin 4} (hf : Foot.le ⟨[.log, .time, .loop, .gfm, .prot], [.time, .ctrl, .gfm, .prot, .fio, .cmd], false⟩ f) (h : Ev f s x) :
    Ev f s (sampleFreed st x) := by
  unfold sampleFreed
  repeat' first
    | with_reducible exact h
    | with_reducible assumption
    | with_reducible refine failRunning_ev (le_trans' hf rfl) ?_
    | with_reducible refine quitGfm_ev (le_trans' hf rfl) ?_
    | with_reducible refine setMode_ev (le_trans' hf rfl) ?_
    | with_reducible refine setStage_ev (le_trans' hf rfl) ?_
    | with_reducible refine ev_ite (fun _ => ?_) (fun _ => ?_)

theorem startMode_ev {st : Fin 4} {n : Nat} (hf : Foot.le ⟨[.log, .time, .loop, .gfm], [.time, .ctrl, .cmd], false⟩ f) (h : Ev f s x) :
    Ev f s (startMode st n x) := by
  unfold startMode
  repeat' first
    | with_reducible exact h
    | with_reducible assumption
    | with_reducible refine applyInner_ev (le_trans' hf rfl) ?_
    | with_reducible refine setMode_ev (le_trans' hf rfl) ?_
    | with_reducible refine setStage_ev (le_trans' hf rfl) ?_

theorem freshLimit_ev {g : Fin 2} {x0 : GfmStage} (hf : Foot.le ⟨[.gfm], [], false⟩ f) (h : Ev f s x) :
    Ev f s (freshLimit g x0 x) := by
  unfold freshLimit
  repeat' first
    | with_reducible exact h
    | with_reducible assumption
    | with_reducible refine setGfm_ev (le_trans' hf rfl) ?_

theorem takeOrder_ev {st : Fin 4} (hf : Foot.le ⟨[.log, .time, .loop, .gfm], [.time, .ctrl, .cmd], false⟩ f) (h : Ev f s x) :
    Ev f s (takeOrder st x).2.2 := by
  unfold takeOrder
  repeat' first
    | with_reducible exact h
    | with_reducible assumption
    | with_reducible refine endRamp_ev (le_trans' hf rfl) ?_
    | with_reducible refine freshLimit_ev (le_trans' hf rfl) ?_
    | with_reducible refine setGfm_ev (le_trans' hf rfl) ?_
    | with_reducible refine setMode_ev (le_trans' hf rfl) ?_
    | with_reducible refine startBlend_ev (le_trans' hf rfl) ?_
    | with_reducible refine startMode_ev (le_trans' hf rfl) ?_
    | with_reducible refine startRamp_ev (le_trans' hf rfl) ?_
    | with_reducible refine ev_ite3 (fun _ => ?_) (fun _ => ?_)
    | with_reducible refine ev_ite (fun _ => ?_) (fun _ => ?_)
    | exact Fin.isLt _
    | omega
    | split
    | dsimp only

theorem takeStart7_ev {st : Fin 4} (hf : Foot.le ⟨[.log, .time, .loop, .gfm], [.time, .ctrl, .cmd], false⟩ f) (h : Ev f s x) :
    Ev f s (takeStart7 st x).2.2 := by
  unfold takeStart7
  repeat' first
    | with_reducible exact h
    | with_reducible assumption
    | with_reducible refine clearRequests_ev (le_trans' hf rfl) ?_
    | with_reducible refine refuseWaiting_ev (le_trans' hf rfl) ?_
    | with_reducible refine startMode_ev (le_trans' hf rfl) ?_
    | with_reducible refine ev_ite3 (fun _ => ?_) (fun _ => ?_)
    | with_reducible refine ev_ite (fun _ => ?_) (fun _ => ?_)

theorem loadMirror_ev {st : Fin 4} {m : MirrorMsg} (hf : Foot.le ⟨[.log, .time, .loop, .gfm], [.time, .ctrl, .cmd], false⟩ f) (h : Ev f s x) :
    Ev f s (loadMirror st m x) := by
  unfold loadMirror
  repeat' first
    | with_reducible exact h
    | with_reducible assumption
    | with_reducible refine setGfm_ev (le_trans' hf rfl) ?_
    | with_reducible refine setInteg_ev (le_trans' hf rfl) ?_ ?_ ?_
    | with_reducible refine setMode_ev (le_trans' hf rfl) ?_
    | with_reducible refine setProf_ev (le_trans' hf rfl) ?_
    | with_reducible refine setStage_ev (le_trans' hf rfl) ?_
    | with_reducible refine showProf_ev (le_trans' hf rfl) ?_
    | with_reducible refine ev_setF ?_ ?_
    | (with_reducible refine ev_forEach_range (fun i hi y hy => ?_) ?_)
    | (with_reducible refine ev_forEach (fun i hi y hy => ?_) ?_)
    | with_reducible refine ev_ite (fun _ => ?_) (fun _ => ?_)
    | with_reducible refine reg_CTRL_STAGE_STATE hf rfl ?_
    | exact reg_block hf .ctrl rfl rfl
    | exact Fin.isLt _
    | omega
    | split
    | dsimp only
    | with_reducible refine ev_gfm (part_mem hf rfl) ?_

theorem loadPublished_ev {st : Fin 4} {m : MirrorMsg} (hf : Foot.le ⟨[.loop], [], false⟩ f) (h : Ev f s x) :
    Ev f s (loadPublished st m x) := by
  unfold loadPublished
  repeat' first
    | with_reducible exact h
    | with_reducible assumption
    | with_reducible refine setPair_ev (le_trans' hf rfl) ?_
    | with_reducible refine setStage_ev (le_trans' hf rfl) ?_
    | (with_reducible refine ev_forEach_range (fun i hi y hy => ?_) ?_)
    | (with_reducible refine ev_forEach (fun i hi y hy => ?_) ?_)

theorem enterReplay_ev {st : Fin 4} {m : MirrorMsg} (hf : Foot.le ⟨[.log, .time, .loop, .gfm, .dpx], [.time, .ctrl, .cmd], false⟩ f) (h : Ev f s x) :
    Ev f s (enterReplay st m x) := by
  unfold enterReplay
  repeat' first
    | with_reducible exact h
    | with_reducible assumption
    | with_reducible refine loadPublished_ev (le_trans' hf rfl) ?_
    | with_reducible refine setMode_ev (le_trans' hf rfl) ?_
    | with_reducible refine ev_ite (fun _ => ?_) (fun _ => ?_)
    | exact Fin.isLt _
    | omega
    | split
    | dsimp only
    | with_reducible refine ev_dpx (part_mem hf rfl) ?_

theorem endGap_ev {st : Fin 4} (hf : Foot.le ⟨[.log, .dpx], [.cmd], false⟩ f) (h : Ev f s x) :
    Ev f s (endGap st x) := by
  unfold endGap
  repeat' first
    | with_reducible exact h
    | with_reducible assumption
    | with_reducible refine ev_logN (part_mem hf rfl) (block_mem hf rfl) ?_
    | with_reducible refine ev_ite (fun _ => ?_) (fun _ => ?_)
    | exact reg_block hf .cmd rfl rfl
    | exact Fin.isLt _
    | omega
    | split
    | dsimp only
    | with_reducible refine ev_dpx (part_mem hf rfl) ?_

theorem trackStage_ev {st : Fin 4} (hf : Foot.le ⟨[.log, .time, .loop, .gfm, .prot, .dpx], [.time, .ctrl, .gfm, .prot, .cmd], false⟩ f) (h : Ev f s x) :
    Ev f s (trackStage st x) := by
  unfold trackStage
  repeat' first
    | with_reducible exact h
    | with_reducible assumption
    | with_reducible refine endGap_ev (le_trans' hf rfl) ?_
    | with_reducible refine enterReplay_ev (le_trans' hf rfl) ?_
    | with_reducible refine loadMirror_ev (le_trans' hf rfl) ?_
    | with_reducible refine stageOff_ev (le_trans' hf rfl) ?_
    | with_reducible refine ev_ite (fun _ => ?_) (fun _ => ?_)
    | exact Fin.isLt _
    | omega
    | split
    | dsimp only
    | with_reducible refine ev_dpx (part_mem hf rfl) ?_

theorem noteGap_ev {st : Fin 4} (hf : Foot.le ⟨[.dpx], [.dpx], false⟩ f) (h : Ev f s x) :
    Ev f s (noteGap st x) := by
  unfold noteGap
  repeat' first
    | with_reducible exact h
    | with_reducible assumption
    | with_reducible refine ev_setF ?_ ?_
    | with_reducible refine ev_ite (fun _ => ?_) (fun _ => ?_)
    | exact reg_block hf .dpx rfl rfl
    | exact Fin.isLt _
    | omega
    | split
    | dsimp only
    | with_reducible refine ev_dpx (part_mem hf rfl) ?_

theorem leaveReplay_ev {st : Fin 4} (hf : Foot.le ⟨[.log, .time, .loop, .gfm, .dpx], [.time, .ctrl, .dpx, .cmd], false⟩ f) (h : Ev f s x) :
    Ev f s (leaveReplay st x).2.2 := by
  unfold leaveReplay
  repeat' first
    | with_reducible exact h
    | with_reducible assumption
    | with_reducible refine endGap_ev (le_trans' hf rfl) ?_
    | with_reducible refine loadPublished_ev (le_trans' hf rfl) ?_
    | with_reducible refine noteGap_ev (le_trans' hf rfl) ?_
    | with_reducible refine setMode_ev (le_trans' hf rfl) ?_
    | with_reducible refine ev_ite3 (fun _ => ?_) (fun _ => ?_)
    | with_reducible refine ev_ite (fun _ => ?_) (fun _ => ?_)
    | exact Fin.isLt _
    | omega
    | split
    | dsimp only
    | with_reducible refine ev_dpx (part_mem hf rfl) ?_

theorem modeTriggers_ev {st : Fin 4} (hf : Foot.le ⟨[.log, .time, .loop, .gfm, .prot, .dpx], [.time, .ctrl, .gfm, .prot, .dpx, .cmd], false⟩ f) (h : Ev f s x) :
    Ev f s (modeTriggers st x).2.2 := by
  unfold modeTriggers
  repeat' first
    | with_reducible exact h
    | with_reducible assumption
    | with_reducible refine clearRequests_ev (le_trans' hf rfl) ?_
    | with_reducible refine enterReplay_ev (le_trans' hf rfl) ?_
    | with_reducible refine leaveReplay_ev (le_trans' hf rfl) ?_
    | with_reducible refine stageOff_ev (le_trans' hf rfl) ?_
    | with_reducible refine takeOrder_ev (le_trans' hf rfl) ?_
    | with_reducible refine takeStart7_ev (le_trans' hf rfl) ?_
    | with_reducible refine trackStage_ev (le_trans' hf rfl) ?_
    | refine ev_snd2 (by assumption) ?_
    | with_reducible refine ev_ite3 (fun _ => ?_) (fun _ => ?_)
    | with_reducible refine ev_ite (fun _ => ?_) (fun _ => ?_)
    | exact Fin.isLt _
    | omega
    | split

theorem takeInner_ev {st : Fin 4} (hf : Foot.le ⟨[.loop], [], false⟩ f) (h : Ev f s x) :
    Ev f s (takeInner st x).2 := by
  unfold takeInner
  repeat' first
    | with_reducible exact h
    | with_reducible assumption
    | with_reducible refine setStage_ev (le_trans' hf rfl) ?_
    | with_reducible refine ev_ite2 (fun _ => ?_) (fun _ => ?_)
    | with_reducible refine ev_ite (fun _ => ?_) (fun _ => ?_)
    | exact Fin.isLt _
    | omega
    | split
    | dsimp only

theorem sampleCtx_ev {st : Fin 4} {first : Bool} (hf : Foot.le ⟨[.gfm], [.ctrl, .gfm], false⟩ f) (h : Ev f s x) :
    Ev f s (sampleCtx st first x).2 := by
  unfold sampleCtx
  repeat' first
    | with_reducible exact h
    | with_reducible assumption
    | with_reducible refine gfmLaw_ev (le_trans' hf rfl) ?_
    | with_reducible refine keepFiltered_ev (le_trans' hf rfl) ?_
    | with_reducible refine vfLaw_ev (le_trans' hf rfl) ?_
    | with_reducible refine ev_ite2 (fun _ => ?_) (fun _ => ?_)

theorem preloadOuter_ev {st : Fin 4} {x0 : SampleCtx} {w : Fin 4 → Int} (hf : Foot.le ⟨[], [.ctrl], false⟩ f) (h : Ev f s x) :
    Ev f s (preloadOuter st x0 w x).2.2 := by
  unfold preloadOuter
  repeat' first
    | with_reducible exact h
    | with_reducible assumption
    | with_reducible refine preload_ev (le_trans' hf rfl) ?_
    | refine ev_snd (by assumption) ?_
    | with_reducible refine ev_ite3 (fun _ => ?_) (fun _ => ?_)

theorem preloadInner_ev {st : Fin 4} {x0 : SampleCtx} {w2 : Int} {w3 : Int} (hf : Foot.le ⟨[.log, .loop], [.ctrl, .cmd], false⟩ f) (h : Ev f s x) :
    Ev f s (preloadInner st x0 w2 w3 x) := by
  unfold preloadInner
  repeat' first
    | with_reducible exact h
    | with_reducible assumption
    | with_reducible refine feedback_ev (le_trans' hf rfl) ?_
    | with_reducible refine preload_ev (le_trans' hf rfl) ?_
    | refine ev_snd (by assumption) ?_
    | with_reducible refine ev_ite (fun _ => ?_) (fun _ => ?_)

theorem handOuter_ev {st : Fin 4} {h0 : Handover} {x0 : SampleCtx} (hf : Foot.le ⟨[.loop, .gfm], [.ctrl], false⟩ f) (h : Ev f s x) :
    Ev f s (handOuter st h0 x0 x) := by
  unfold handOuter
  repeat' first
    | with_reducible exact h
    | with_reducible assumption
    | with_reducible refine preloadOuter_ev (le_trans' hf rfl) ?_
    | with_reducible refine startBlend_ev (le_trans' hf rfl) ?_
    | refine ev_snd2 (by assumption) ?_
    | with_reducible refine ev_ite (fun _ => ?_) (fun _ => ?_)
    | exact Fin.isLt _
    | omega
    | split

theorem handInner_ev {st : Fin 4} {h0 : Handover} {duty : Bool} {inp : LoopInputs} {x0 : SampleCtx} (hf : Foot.le ⟨[.log, .loop], [.ctrl, .cmd], false⟩ f) (h : Ev f s x) :
    Ev f s (handInner st h0 duty inp x0 x) := by
  unfold handInner
  repeat' first
    | with_reducible exact h
    | with_reducible assumption
    | with_reducible refine preloadInner_ev (le_trans' hf rfl) ?_
    | with_reducible refine ev_ite (fun _ => ?_) (fun _ => ?_)
    | exact Fin.isLt _
    | omega
    | split

theorem compute_ev {st : Fin 4} {inp : LoopInputs} {h0 : Handover} {first : Bool} {duty : Bool} (hf : Foot.le ⟨[.log, .loop, .gfm], [.ctrl, .gfm, .cmd], false⟩ f) (h : Ev f s x) :
    Ev f s (compute st inp h0 first duty x) := by
  unfold compute
  repeat' first
    | with_reducible exact h
    | with_reducible assumption
    | with_reducible refine handInner_ev (le_trans' hf rfl) ?_
    | with_reducible refine handOuter_ev (le_trans' hf rfl) ?_
    | with_reducible refine innerStep_ev (le_trans' hf rfl) ?_
    | with_reducible refine outerStep_ev (le_trans' hf rfl) ?_
    | with_reducible refine publish_ev (le_trans' hf rfl) ?_
    | with_reducible refine sampleCtx_ev (le_trans' hf rfl) ?_
    | refine ev_snd (by assumption) ?_
    | with_reducible refine ev_ite (fun _ => ?_) (fun _ => ?_)

theorem afterGfm_ev {st : Fin 4} (hf : Foot.le ⟨[.log, .time, .loop, .gfm, .prot, .recd], [.time, .ctrl, .gfm, .prot, .cmd], false⟩ f) (h : Ev f s x) :
    Ev f s (afterGfm st x) := by
  unfold afterGfm
  repeat' first
    | with_reducible exact h
    | with_reducible assumption
    | with_reducible refine limitStep_ev (le_trans' hf rfl) ?_
    | with_reducible refine ev_ite (fun _ => ?_) (fun _ => ?_)

theorem sendMirror_ev {st : Fin 4} (hf : Foot.le ⟨[.dpx], [], false⟩ f) (h : Ev f s x) :
    Ev f s (sendMirror st x) := by
  unfold sendMirror
  repeat' first
    | with_reducible exact h
    | with_reducible assumption
    | with_reducible refine sendGuy_ev (le_trans' hf rfl) ?_
    | with_reducible refine ev_ite (fun _ => ?_) (fun _ => ?_)

theorem loopSample_ev {st : Fin 4} {inp : LoopInputs} (hf : Foot.le ⟨[.log, .time, .loop, .gfm, .prot, .dpx, .recd], [.time, .ctrl, .gfm, .prot, .fio, .dpx, .cmd, .pwm], false⟩ f) (h : Ev f s x) :
    Ev f s (loopSample st inp x) := by
  unfold loopSample
  repeat' first
    | with_reducible exact h
    | with_reducible assumption
    | with_reducible refine afterGfm_ev (le_trans' hf rfl) ?_
    | with_reducible refine applyRegion_ev (le_trans' hf rfl) ?_
    | with_reducible refine compute_ev (le_trans' hf rfl) ?_
    | with_reducible refine modeTriggers_ev (le_trans' hf rfl) ?_
    | with_reducible refine noteGfm_ev (le_trans' hf rfl) ?_
    | with_reducible refine plausChecks_ev (le_trans' hf rfl) ?_
    | with_reducible refine sampleBlocked_ev (le_trans' hf rfl) ?_
    | with_reducible refine sampleFreed_ev (le_trans' hf rfl) ?_
    | with_reducible refine sendMirror_ev (le_trans' hf rfl) ?_
    | with_reducible refine setMode_ev (le_trans' hf rfl) ?_
    | with_reducible refine takeInner_ev (le_trans' hf rfl) ?_
    | with_reducible refine takeWords_ev (le_trans' hf rfl) ?_
    | refine ev_snd (by assumption) ?_
    | refine ev_snd2 (by assumption) ?_
    | with_reducible refine ev_ite (fun _ => ?_) (fun _ => ?_)

theorem unitElement_ev {st : Fin 4} (hf : Foot.le ⟨[.loop, .prot], [], false⟩ f) (h : Ev f s x) :
    Ev f s (unitElement st x) := by
  unfold unitElement
  repeat' first
    | with_reducible exact h
    | with_reducible assumption
    | with_reducible refine refreshLines_ev (le_trans' hf rfl) ?_
    | with_reducible refine unit32Step_ev (le_trans' hf rfl) ?_
    | with_reducible refine ev_ite (fun _ => ?_) (fun _ => ?_)

theorem execLoopSample_ev {st : Fin 4} {x0 : LoopInputs} (hf : Foot.le ⟨[.tai, .ticks, .log, .time, .loop, .gfm, .prot, .dpx, .recd], [.time, .ctrl, .gfm, .prot, .fio, .dpx, .cmd, .pwm], false⟩ f) (h : Ev f s x) :
    EvO f s (execLoopSample st x0 x) := by
  unfold execLoopSample
  repeat' first
    | with_reducible exact h
    | with_reducible assumption
    | with_reducible refine loopSample_ev (le_trans' hf rfl) ?_
    | with_reducible refine reachGrid_ev (le_trans' hf rfl) ?_
    | with_reducible refine unitElement_ev (le_trans' hf rfl) ?_
    | with_reducible refine evo_next ?_
    | with_reducible refine evo_ite (fun _ => ?_) (fun _ => ?_)

theorem execProfileStep_ev {g : Fin 16} (hf : Foot.le ⟨[.tai, .ticks, .loop, .gfm], [.ctrl], false⟩ f) (h : Ev f s x) :
    EvO f s (execProfileStep g x) := by
  unfold execProfileStep
  repeat' first
    | with_reducible exact h
    | with_reducible assumption
    | with_reducible refine blendStep_ev (le_trans' hf rfl) ?_
    | with_reducible refine hostStep_ev (le_trans' hf rfl) ?_
    | with_reducible refine rampStep_ev (le_trans' hf rfl) ?_
    | with_reducible refine reachPeriod_ev (le_trans' hf rfl) ?_
    | with_reducible refine vfProfStep_ev (le_trans' hf rfl) ?_
    | with_reducible refine evo_next ?_
    | with_reducible refine evo_ite (fun _ => ?_) (fun _ => ?_)
    | with_reducible refine ev_ite (fun _ => ?_) (fun _ => ?_)
    | exact Fin.isLt _
    | omega
    | split

end Sys2Proof.Laws
end

