-- ==== Sys2Proof/Laws/EvFabric.lean ====
section
/-! SUPPORT. What each change of Machine/Fabric.lean can touch, and that it keeps the state sound: one lemma a function. -/

namespace Sys2Proof.Laws

open Sys2Proof Sys2Proof.Machine Sys2Proof.Safety

variable {f : Foot} {s x : State}

theorem mem4 {i : Nat} (h : i ∈ [0, 1, 2, 3]) : i < 4 := by
  simp at h; omega

theorem lowestFree_lt {c i : Nat} (h : lowestFree x c = some i) : i < 17 :=
  List.mem_range.1 (List.mem_of_find?_eq_some h)

theorem spareOf_lt {c i : Nat} (h : spareOf x c = some i) : i < 17 := by
  unfold spareOf at h
  dsimp only at h
  split at h
  · cases h; assumption
  · cases h

theorem changeClusters_lt {img : PitchImage} {c : Nat} (h : c ∈ changeClusters img) : c < 4 :=
  List.mem_range.1 (List.mem_filter.1 h).1

theorem tileOfSlot_mem {slot c i : Nat} (h : tileOfSlot x slot = some (c, i)) : c < 4 ∧ i < 17 := by
  have := List.mem_of_find?_eq_some h
  simpa using this

theorem tileOfSlot_lt {slot c i : Nat} (h : tileOfSlot x slot = some (c, i)) : c < 4 := (tileOfSlot_mem h).1

theorem find_lt {n i : Nat} {p : Nat → Bool} (h : (List.range n).find? p = some i) : i < n :=
  List.mem_range.1 (List.mem_of_find?_eq_some h)

/-- A plan names tiles of a cluster. -/
theorem planTiles_lt {after : PitchImage} {p : TileRole × Nat} (h : p ∈ planTiles after x) : p.2 < 17 := by
  have step : ∀ (rest : List TileRole) (plan : List (TileRole × Nat)), (∀ q ∈ plan, q.2 < 17) →
      ∀ q ∈ rest.foldl (planNext after x) plan, q.2 < 17 := by
    intro rest
    induction rest with
    | nil => exact fun _ hp => hp
    | cons r rest ih =>
      intro plan hp
      refine ih _ ?_
      unfold planNext
      dsimp only
      split
      · next i hi =>
        intro q hq
        rcases List.mem_append.1 hq with hq | hq
        · exact hp q hq
        · rw [List.mem_singleton.1 hq]
          split at hi
          · cases hi; exact Fin.isLt _
          · exact find_lt hi
      · exact hp
  refine step _ _ (fun q hq => ?_) p h
  obtain ⟨r, -, hr⟩ := List.mem_filterMap.1 hq
  split at hr
  · next c i hi =>
    split at hr
    · cases hr; exact (tileOfSlot_mem hi).2
    · cases hr
  · cases hr

theorem tileOfSlot_lt' {slot c i : Nat} (h : tileOfSlot x slot = some (c, i)) : i < 17 := (tileOfSlot_mem h).2

theorem setCluster_ev {c : Fin 4} {x0 : ClusterState} (hf : Foot.le ⟨[.fab], [], false⟩ f) (h : Ev f s x) :
    Ev f s (setCluster c x0 x) := by
  unfold setCluster
  repeat' first
    | with_reducible exact h
    | with_reducible assumption
    | with_reducible refine ev_ite (fun _ => ?_) (fun _ => ?_)
    | exact Fin.isLt _
    | omega
    | split
    | dsimp only
    | with_reducible refine ev_fab (part_mem hf rfl) (by rfl) ?_

theorem endSession_ev {c : Fin 4} (hf : Foot.le ⟨[.fab], [.fab], false⟩ f) (h : Ev f s x) :
    Ev f s (endSession c x) := by
  unfold endSession
  repeat' first
    | with_reducible exact h
    | with_reducible assumption
    | with_reducible refine setCluster_ev (le_trans' hf rfl) ?_
    | with_reducible refine ev_setF ?_ ?_
    | with_reducible refine ev_ite (fun _ => ?_) (fun _ => ?_)
    | with_reducible refine reg_FAB_SHADOW_STATUS hf rfl ?_
    | with_reducible refine reg_FAB_STATUS hf rfl ?_
    | exact reg_block hf .fab rfl rfl
    | exact Fin.isLt _

theorem abandonSession_ev {c : Fin 4} (hf : Foot.le ⟨[.fab], [.fab], false⟩ f) (h : Ev f s x) :
    Ev f s (abandonSession c x) := by
  unfold abandonSession
  repeat' first
    | with_reducible exact h
    | with_reducible assumption
    | with_reducible refine endSession_ev (le_trans' hf rfl) ?_
    | with_reducible refine ev_setF ?_ ?_
    | with_reducible refine ev_ite (fun _ => ?_) (fun _ => ?_)
    | with_reducible refine reg_FAB_SHADOW_STATUS hf rfl ?_
    | exact reg_block hf .fab rfl rfl
    | exact Fin.isLt _
    | omega
    | split

theorem writeShadowCtrl_ev {c : Fin 4} {v : Word} (hf : Foot.le ⟨[.fab], [.fab], false⟩ f) (h : Ev f s x) :
    Ev f s (writeShadowCtrl c v x) := by
  unfold writeShadowCtrl
  repeat' first
    | with_reducible exact h
    | with_reducible assumption
    | with_reducible refine abandonSession_ev (le_trans' hf rfl) ?_
    | with_reducible refine ev_setF ?_ ?_
    | with_reducible refine ev_whenS (fun hc y hy => ?_) ?_
    | with_reducible refine ev_ite (fun _ => ?_) (fun _ => ?_)
    | with_reducible refine reg_FAB_SHADOW_CTRL hf rfl ?_
    | exact reg_block hf .fab rfl rfl
    | exact spareOf_lt (by assumption)
    | exact Fin.isLt _

theorem writeShadowCtrl_at {c : Fin 4} {v : Word} (hf : Foot.le ⟨[.fab], [.fab], false⟩ f) (hk : 0x4010 ≤ Reg.FAB_SHADOW_CTRL c / 0x10000 ∧ Reg.FAB_SHADOW_CTRL c / 0x10000 ≤ 0x4013) (h : Ev f s x) :
    Ev f s (writeShadowCtrl c v x) := by
  unfold writeShadowCtrl
  repeat' first
    | with_reducible exact h
    | with_reducible assumption
    | with_reducible refine abandonSession_ev (le_trans' hf rfl) ?_
    | with_reducible refine ev_setF ?_ ?_
    | with_reducible refine ev_whenS (fun hc y hy => ?_) ?_
    | with_reducible refine ev_ite (fun _ => ?_) (fun _ => ?_)
    | exact reg_fab hf rfl hk

theorem writeIndCtrl_ev {c : Fin 4} {v : Word} (hf : Foot.le ⟨[.fab], [.fab], false⟩ f) (h : Ev f s x) :
    Ev f s (writeIndCtrl c v x) := by
  unfold writeIndCtrl
  repeat' first
    | with_reducible exact h
    | with_reducible assumption
    | with_reducible refine ev_setF ?_ ?_
    | with_reducible refine ev_whenS (fun hc y hy => ?_) ?_
    | with_reducible refine ev_ite (fun _ => ?_) (fun _ => ?_)
    | with_reducible refine reg_FAB_IND_ADDR hf rfl ?_
    | with_reducible refine reg_FAB_IND_CTRL hf rfl ?_
    | with_reducible refine reg_FAB_IND_DATA hf rfl ?_
    | exact reg_block hf .fab rfl rfl
    | exact Fin.isLt _
    | omega
    | split
    | dsimp only
    | with_reducible refine ev_fab (part_mem hf rfl) (by rfl) ?_

theorem putTile_ev {k : Nat} {v : Word} (hf : Foot.le ⟨[.fab], [], false⟩ f) (h : Ev f s x) :
    Ev f s (putTile k v x) := by
  exact ev_fab' (part_mem hf rfl) (swf_sput _ _ _ _) h

theorem clearContext_ev {c : Nat} {i : Nat} {sp : Nat} (hf : Foot.le ⟨[.fab], [], false⟩ f) (h : Ev f s x) :
    Ev f s (clearContext c i sp x) := by
  unfold clearContext
  repeat' first
    | with_reducible exact h
    | with_reducible assumption
    | with_reducible refine putTile_ev (le_trans' hf rfl) ?_
    | (with_reducible refine ev_forEach_range (fun i hi y hy => ?_) ?_)
    | (with_reducible refine ev_forEach (fun i hi y hy => ?_) ?_)

theorem discardContexts_ev {img : PitchImage} {plan : List (TileRole × Nat)} (hf : Foot.le ⟨[.fab], [], false⟩ f) (h : Ev f s x) :
    Ev f s (discardContexts img plan x) := by
  unfold discardContexts
  repeat' first
    | with_reducible exact h
    | with_reducible assumption
    | with_reducible refine clearContext_ev (le_trans' hf rfl) ?_
    | (with_reducible refine ev_forEach_range (fun i hi y hy => ?_) ?_)
    | (with_reducible refine ev_forEach (fun i hi y hy => ?_) ?_)
    | with_reducible refine ev_ite (fun _ => ?_) (fun _ => ?_)
    | exact mem4 (by assumption)
    | exact Fin.isLt _
    | omega
    | split

theorem markPending_ev {img : PitchImage} {b : Bool} (hf : Foot.le ⟨[], [.fab], false⟩ f) (h : Ev f s x) :
    Ev f s (markPending img b x) := by
  unfold markPending
  repeat' first
    | with_reducible exact h
    | with_reducible assumption
    | with_reducible refine ev_setF ?_ ?_
    | (with_reducible refine ev_forEach_range (fun i hi y hy => ?_) ?_)
    | (with_reducible refine ev_forEach (fun i hi y hy => ?_) ?_)
    | with_reducible refine ev_ite (fun _ => ?_) (fun _ => ?_)
    | with_reducible refine reg_FAB_STATUS hf rfl ?_
    | exact reg_block hf .fab rfl rfl
    | exact mem4 (by assumption)
    | exact changeClusters_lt (by assumption)

theorem withdrawChange_ev {op : Fin 16} (hf : Foot.le ⟨[.fab], [.fab], false⟩ f) (h : Ev f s x) :
    Ev f s (withdrawChange op x) := by
  unfold withdrawChange
  repeat' first
    | with_reducible exact h
    | with_reducible assumption
    | with_reducible refine discardContexts_ev (le_trans' hf rfl) ?_
    | with_reducible refine markPending_ev (le_trans' hf rfl) ?_
    | with_reducible refine ev_ite (fun _ => ?_) (fun _ => ?_)
    | exact planTiles_lt (List.mem_filter.1 (by assumption)).1
    | exact planTiles_lt (by assumption)
    | exact Fin.isLt _
    | omega
    | split
    | dsimp only
    | with_reducible refine ev_fab (part_mem hf rfl) (by rfl) ?_

theorem writeShadowContexts_ev {img : PitchImage} {plan : List (TileRole × Nat)} (hf : Foot.le ⟨[.fab], [], false⟩ f) (h : Ev f s x) :
    Ev f s (writeShadowContexts img plan x) := by
  unfold writeShadowContexts
  repeat' first
    | with_reducible exact h
    | with_reducible assumption
    | with_reducible refine clearContext_ev (le_trans' hf rfl) ?_
    | with_reducible refine putTile_ev (le_trans' hf rfl) ?_
    | (with_reducible refine ev_forEach_range (fun i hi y hy => ?_) ?_)
    | (with_reducible refine ev_forEach (fun i hi y hy => ?_) ?_)
    | with_reducible refine ev_ite (fun _ => ?_) (fun _ => ?_)
    | exact mem4 (by assumption)
    | exact Fin.isLt _
    | omega
    | split

theorem beginChange_ev {img : PitchImage} {op : Option (Fin 16)} {restore : Option PitchImage} (hf : Foot.le ⟨[.fab], [.fab], false⟩ f) (h : Ev f s x) :
    Ev f s (beginChange img op restore x) := by
  unfold beginChange
  repeat' first
    | with_reducible exact h
    | with_reducible assumption
    | with_reducible refine abandonSession_ev (le_trans' hf rfl) ?_
    | with_reducible refine markPending_ev (le_trans' hf rfl) ?_
    | with_reducible refine writeShadowContexts_ev (le_trans' hf rfl) ?_
    | (with_reducible refine ev_forEach_range (fun i hi y hy => ?_) ?_)
    | (with_reducible refine ev_forEach (fun i hi y hy => ?_) ?_)
    | with_reducible refine ev_ite (fun _ => ?_) (fun _ => ?_)
    | exact mem4 (by assumption)
    | exact changeClusters_lt (by assumption)
    | exact planTiles_lt (List.mem_filter.1 (by assumption)).1
    | exact planTiles_lt (by assumption)
    | exact Fin.isLt _
    | omega
    | split
    | dsimp only
    | with_reducible refine ev_fab (part_mem hf rfl) (by rfl) ?_

theorem execRouteWord_ev {c : Fin 4} {i : Fin 17} {route : BitVec 16} {d : Word} {v : Bool} {u : Bool} {h0 : Bool} {f0 : Bool} {parity : BitVec 4} (hf : Foot.le ⟨[.log, .fab], [.cmd], false⟩ f) (h : Ev f s x) :
    EvO f s (execRouteWord c i route d v u h0 f0 parity x) := by
  unfold execRouteWord
  repeat' first
    | with_reducible exact h
    | with_reducible assumption
    | with_reducible refine ev_logN (part_mem hf rfl) (block_mem hf rfl) ?_
    | with_reducible refine ev_whenS (fun hc y hy => ?_) ?_
    | with_reducible refine evo_next ?_
    | with_reducible refine evo_ite (fun _ => ?_) (fun _ => ?_)
    | with_reducible refine ev_ite (fun _ => ?_) (fun _ => ?_)
    | exact reg_block hf .cmd rfl rfl
    | exact Fin.isLt _
    | omega
    | split
    | dsimp only
    | with_reducible refine ev_fab (part_mem hf rfl) (by rfl) ?_

theorem retireTile_ev {c : Nat} {i : Nat} {cause : Nat} {slot : Nat} (hf : Foot.le ⟨[.log, .fab], [.cmd, .fab], false⟩ f) (hc : c < 4) (hi : i < 17) (h : Ev f s x) :
    Ev f s (retireTile c i cause slot x) := by
  unfold retireTile
  repeat' first
    | with_reducible exact h
    | with_reducible assumption
    | with_reducible refine ev_setF ?_ ?_
    | with_reducible refine ev_logN (part_mem hf rfl) (block_mem hf rfl) ?_
    | with_reducible refine ev_ite (fun _ => ?_) (fun _ => ?_)
    | with_reducible refine reg_FAB_STATUS hf rfl ?_
    | with_reducible refine reg_FAB_TILE hf rfl ?_ ?_
    | exact reg_block hf .cmd rfl rfl
    | exact reg_block hf .fab rfl rfl
    | exact Fin.isLt _
    | omega
    | split
    | dsimp only
    | with_reducible refine ev_fab (part_mem hf rfl) (by rfl) ?_

theorem chooseSpare_ev {c : Nat} (hf : Foot.le ⟨[.log], [.cmd, .fab], false⟩ f) (hc : c < 4) (h : Ev f s x) :
    Ev f s (chooseSpare c x) := by
  unfold chooseSpare
  repeat' first
    | with_reducible exact h
    | with_reducible assumption
    | with_reducible refine ev_setF ?_ ?_
    | with_reducible refine ev_logN (part_mem hf rfl) (block_mem hf rfl) ?_
    | with_reducible refine ev_ite (fun _ => ?_) (fun _ => ?_)
    | with_reducible refine reg_FAB_STATUS hf rfl ?_
    | with_reducible refine reg_FAB_TILE hf rfl ?_ ?_
    | exact reg_block hf .cmd rfl rfl
    | exact reg_block hf .fab rfl rfl
    | exact lowestFree_lt (by assumption)
    | exact Fin.isLt _
    | omega
    | split

theorem applyRelocation_ev {c : Fin 4} (hf : Foot.le ⟨[.log, .fab], [.cmd, .fab], false⟩ f) (h : Ev f s x) :
    Ev f s (applyRelocation c x) := by
  unfold applyRelocation
  repeat' first
    | with_reducible exact h
    | with_reducible assumption
    | with_reducible refine chooseSpare_ev (le_trans' hf rfl) ?_ ?_
    | with_reducible refine retireTile_ev (le_trans' hf rfl) ?_ ?_ ?_
    | with_reducible refine ev_wr ?_ ?_
    | with_reducible refine ev_setF ?_ ?_
    | with_reducible refine ev_ite (fun _ => ?_) (fun _ => ?_)
    | with_reducible refine reg_FAB_STATUS hf rfl ?_
    | with_reducible refine reg_FAB_TILE hf rfl ?_ ?_
    | exact reg_block hf .fab rfl rfl
    | exact spareOf_lt (by assumption)
    | exact Fin.isLt _
    | omega
    | split
    | dsimp only
    | with_reducible refine ev_fab (part_mem hf rfl) (by rfl) ?_

theorem copyWords_ev {src : Nat} {dst : Nat} {n : Nat} (hf : Foot.le ⟨[.fab], [], false⟩ f) (h : Ev f s x) :
    Ev f s (copyWords src dst n x) := by
  unfold copyWords
  repeat' first
    | with_reducible exact h
    | with_reducible assumption
    | with_reducible refine putTile_ev (le_trans' hf rfl) ?_
    | (with_reducible refine ev_forEach_range (fun i hi y hy => ?_) ?_)
    | (with_reducible refine ev_forEach (fun i hi y hy => ?_) ?_)

theorem mirrorTile_ev {c : Nat} {i : Nat} {sp : Nat} (hf : Foot.le ⟨[.fab], [], false⟩ f) (h : Ev f s x) :
    Ev f s (mirrorTile c i sp x) := by
  unfold mirrorTile
  repeat' first
    | with_reducible exact h
    | with_reducible assumption
    | with_reducible refine copyWords_ev (le_trans' hf rfl) ?_

theorem sessionResult_ev {c : Fin 4} {i : Fin 17} {differ : Bool} (hf : Foot.le ⟨[.fab], [.fab], false⟩ f) (h : Ev f s x) :
    Ev f s (sessionResult c i differ x) := by
  unfold sessionResult
  repeat' first
    | with_reducible exact h
    | with_reducible assumption
    | with_reducible refine endSession_ev (le_trans' hf rfl) ?_
    | with_reducible refine ev_setF ?_ ?_
    | with_reducible refine ev_whenS (fun hc y hy => ?_) ?_
    | with_reducible refine ev_ite (fun _ => ?_) (fun _ => ?_)
    | with_reducible refine reg_FAB_SHADOW_STATUS hf rfl ?_
    | exact reg_block hf .fab rfl rfl
    | exact Fin.isLt _

theorem openCompare_ev {c : Fin 4} {x0 : ShadowSession} (hf : Foot.le ⟨[.fab], [.fab], false⟩ f) (h : Ev f s x) :
    Ev f s (openCompare c x0 x) := by
  unfold openCompare
  repeat' first
    | with_reducible exact h
    | with_reducible assumption
    | with_reducible refine setCluster_ev (le_trans' hf rfl) ?_
    | with_reducible refine ev_setF ?_ ?_
    | with_reducible refine ev_ite (fun _ => ?_) (fun _ => ?_)
    | with_reducible refine reg_FAB_SHADOW_STATUS hf rfl ?_
    | with_reducible refine reg_FAB_STATUS hf rfl ?_
    | exact reg_block hf .fab rfl rfl
    | exact Fin.isLt _

theorem afterSelfTest_ev {c : Fin 4} {x0 : ShadowSession} (hf : Foot.le ⟨[.log, .fab], [.cmd, .fab], false⟩ f) (h : Ev f s x) :
    Ev f s (afterSelfTest c x0 x) := by
  unfold afterSelfTest
  repeat' first
    | with_reducible exact h
    | with_reducible assumption
    | with_reducible refine chooseSpare_ev (le_trans' hf rfl) ?_ ?_
    | with_reducible refine endSession_ev (le_trans' hf rfl) ?_
    | with_reducible refine retireTile_ev (le_trans' hf rfl) ?_ ?_ ?_
    | with_reducible refine sessionResult_ev (le_trans' hf rfl) ?_
    | with_reducible refine setCluster_ev (le_trans' hf rfl) ?_
    | with_reducible refine ev_setF ?_ ?_
    | with_reducible refine ev_ite (fun _ => ?_) (fun _ => ?_)
    | with_reducible refine reg_FAB_SHADOW_STATUS hf rfl ?_
    | exact reg_block hf .fab rfl rfl
    | exact spareOf_lt (by assumption)
    | exact Fin.isLt _
    | omega
    | split

theorem stepSession_ev {c : Fin 4} (hf : Foot.le ⟨[.log, .fab], [.cmd, .fab], false⟩ f) (h : Ev f s x) :
    Ev f s (stepSession c x) := by
  unfold stepSession
  repeat' first
    | with_reducible exact h
    | with_reducible assumption
    | with_reducible refine abandonSession_ev (le_trans' hf rfl) ?_
    | with_reducible refine afterSelfTest_ev (le_trans' hf rfl) ?_
    | with_reducible refine mirrorTile_ev (le_trans' hf rfl) ?_
    | with_reducible refine openCompare_ev (le_trans' hf rfl) ?_
    | with_reducible refine ev_ite (fun _ => ?_) (fun _ => ?_)
    | exact spareOf_lt (by assumption)
    | exact Fin.isLt _
    | omega
    | split

theorem closeCompare_ev {c : Fin 4} (hf : Foot.le ⟨[.fab], [.fab], false⟩ f) (h : Ev f s x) :
    Ev f s (closeCompare c x) := by
  unfold closeCompare
  repeat' first
    | with_reducible exact h
    | with_reducible assumption
    | with_reducible refine sessionResult_ev (le_trans' hf rfl) ?_
    | with_reducible refine ev_ite (fun _ => ?_) (fun _ => ?_)
    | exact Fin.isLt _
    | omega
    | split

theorem startSession_ev {c : Fin 4} {i : Fin 17} {o : ShadowOutcome} (hf : Foot.le ⟨[.fab], [.fab], false⟩ f) (h : Ev f s x) :
    Ev f s (startSession c i o x) := by
  unfold startSession
  repeat' first
    | with_reducible exact h
    | with_reducible assumption
    | with_reducible refine setCluster_ev (le_trans' hf rfl) ?_
    | with_reducible refine ev_setF ?_ ?_
    | with_reducible refine ev_ite (fun _ => ?_) (fun _ => ?_)
    | with_reducible refine reg_FAB_SHADOW_CTRL hf rfl ?_
    | with_reducible refine reg_FAB_SHADOW_STATUS hf rfl ?_
    | with_reducible refine reg_FAB_STATUS hf rfl ?_
    | exact reg_block hf .fab rfl rfl
    | exact spareOf_lt (by assumption)
    | exact Fin.isLt _

theorem execShadowSlot_ev {c : Fin 4} {o : ShadowOutcome} (hf : Foot.le ⟨[.fab], [], false⟩ f) (h : Ev f s x) :
    EvO f s (execShadowSlot c o x) := by
  unfold execShadowSlot
  repeat' first
    | with_reducible exact h
    | with_reducible assumption
    | with_reducible refine setCluster_ev (le_trans' hf rfl) ?_
    | with_reducible refine evo_next ?_

theorem startCheckNow_ev {c : Fin 4} {o : ShadowOutcome} (hf : Foot.le ⟨[.fab], [.fab], false⟩ f) (h : Ev f s x) :
    Ev f s (startCheckNow c o x) := by
  unfold startCheckNow
  repeat' first
    | with_reducible exact h
    | with_reducible assumption
    | with_reducible refine startSession_ev (le_trans' hf rfl) ?_
    | with_reducible refine ev_setF ?_ ?_
    | with_reducible refine ev_ite (fun _ => ?_) (fun _ => ?_)
    | with_reducible refine reg_FAB_SHADOW_CTRL hf rfl ?_
    | exact reg_block hf .fab rfl rfl
    | exact spareOf_lt (by assumption)
    | exact Fin.isLt _

theorem sessionsAtBoundary_ev {c : Fin 4} {o : ShadowOutcome} (hf : Foot.le ⟨[.log, .fab], [.cmd, .fab], false⟩ f) (h : Ev f s x) :
    Ev f s (sessionsAtBoundary c o x) := by
  unfold sessionsAtBoundary
  repeat' first
    | with_reducible exact h
    | with_reducible assumption
    | with_reducible refine setCluster_ev (le_trans' hf rfl) ?_
    | with_reducible refine startCheckNow_ev (le_trans' hf rfl) ?_
    | with_reducible refine startSession_ev (le_trans' hf rfl) ?_
    | with_reducible refine stepSession_ev (le_trans' hf rfl) ?_
    | with_reducible refine ev_whenS (fun hc y hy => ?_) ?_
    | with_reducible refine ev_ite (fun _ => ?_) (fun _ => ?_)
    | exact Fin.isLt _
    | omega
    | split

theorem clockRequest_ev {c : Fin 4} (hf : Foot.le ⟨[], [.fab], false⟩ f) (h : Ev f s x) :
    Ev f s (clockRequest c x) := by
  unfold clockRequest
  repeat' first
    | with_reducible exact h
    | with_reducible assumption
    | with_reducible refine ev_setF ?_ ?_
    | with_reducible refine ev_ite (fun _ => ?_) (fun _ => ?_)
    | with_reducible refine reg_FAB_STATUS hf rfl ?_
    | exact reg_block hf .fab rfl rfl
    | exact Fin.isLt _

theorem execIndirectAccessDone_ev {c : Fin 4} (hf : Foot.le ⟨[.fab], [.fab], false⟩ f) (h : Ev f s x) :
    EvO f s (execIndirectAccessDone c x) := by
  unfold execIndirectAccessDone
  repeat' first
    | with_reducible exact h
    | with_reducible assumption
    | with_reducible refine putTile_ev (le_trans' hf rfl) ?_
    | with_reducible refine ev_wr ?_ ?_
    | with_reducible refine ev_setF ?_ ?_
    | with_reducible refine evo_next ?_
    | with_reducible refine evo_ite (fun _ => ?_) (fun _ => ?_)
    | with_reducible refine ev_ite (fun _ => ?_) (fun _ => ?_)
    | with_reducible refine reg_FAB_IND_CTRL hf rfl ?_
    | with_reducible refine reg_FAB_IND_DATA hf rfl ?_
    | exact reg_block hf .fab rfl rfl
    | exact Fin.isLt _
    | omega
    | split
    | dsimp only
    | with_reducible refine ev_fab (part_mem hf rfl) (by rfl) ?_

theorem placeOn_ev {c : Nat} {i : Nat} {r : TileRole} {g : Nat} (hf : Foot.le ⟨[], [.fab], false⟩ f) (hc : c < 4) (hi : i < 17) (h : Ev f s x) :
    Ev f s (placeOn c i r g x) := by
  unfold placeOn
  repeat' first
    | with_reducible exact h
    | with_reducible assumption
    | with_reducible refine ev_wr ?_ ?_
    | with_reducible refine ev_ite (fun _ => ?_) (fun _ => ?_)
    | with_reducible refine reg_FAB_TILE hf rfl ?_ ?_

theorem clearTile_ev {c : Nat} {i : Nat} {st : Nat} (hf : Foot.le ⟨[], [.fab], false⟩ f) (hc : c < 4) (hi : i < 17) (h : Ev f s x) :
    Ev f s (clearTile c i st x) := by
  unfold clearTile
  repeat' first
    | with_reducible exact h
    | with_reducible assumption
    | with_reducible refine ev_wr ?_ ?_
    | with_reducible refine ev_ite (fun _ => ?_) (fun _ => ?_)
    | with_reducible refine reg_FAB_TILE hf rfl ?_ ?_

theorem clearPlacement_ev (hf : Foot.le ⟨[], [.fab], false⟩ f) (h : Ev f s x) :
    Ev f s (clearPlacement x) := by
  unfold clearPlacement
  repeat' first
    | with_reducible exact h
    | with_reducible assumption
    | with_reducible refine clearTile_ev (le_trans' hf rfl) ?_ ?_ ?_
    | with_reducible refine ev_setF ?_ ?_
    | (with_reducible refine ev_forEach_range (fun i hi y hy => ?_) ?_)
    | (with_reducible refine ev_forEach (fun i hi y hy => ?_) ?_)
    | with_reducible refine ev_ite (fun _ => ?_) (fun _ => ?_)
    | with_reducible refine reg_FAB_STATUS hf rfl ?_
    | with_reducible refine reg_FAB_TILE hf rfl ?_ ?_
    | exact reg_block hf .fab rfl rfl
    | exact mem4 (by assumption)
    | exact Fin.isLt _
    | omega

theorem placeDisplaced_ev {img : PitchImage} {r : TileRole} (hf : Foot.le ⟨[], [.fab], false⟩ f) (h : Ev f s x) :
    Ev f s (placeDisplaced img r x) := by
  unfold placeDisplaced
  repeat' first
    | with_reducible exact h
    | with_reducible assumption
    | with_reducible refine placeOn_ev (le_trans' hf rfl) ?_ ?_ ?_
    | with_reducible refine ev_setF ?_ ?_
    | with_reducible refine ev_ite (fun _ => ?_) (fun _ => ?_)
    | with_reducible refine reg_FAB_STATUS hf rfl ?_
    | with_reducible refine reg_FAB_TILE hf rfl ?_ ?_
    | exact reg_block hf .fab rfl rfl
    | exact lowestFree_lt (by assumption)
    | exact spareOf_lt (by assumption)
    | exact Fin.isLt _
    | omega
    | split
    | dsimp only

theorem placePreferred_ev {img : PitchImage} {r : TileRole} (hf : Foot.le ⟨[], [.fab], false⟩ f) (h : Ev f s x) :
    Ev f s (placePreferred img r x) := by
  unfold placePreferred
  repeat' first
    | with_reducible exact h
    | with_reducible assumption
    | with_reducible refine placeOn_ev (le_trans' hf rfl) ?_ ?_ ?_
    | with_reducible refine ev_setF ?_ ?_
    | with_reducible refine ev_ite (fun _ => ?_) (fun _ => ?_)
    | with_reducible refine reg_FAB_STATUS hf rfl ?_
    | exact reg_block hf .fab rfl rfl
    | exact spareOf_lt (by assumption)
    | exact Fin.isLt _

theorem settleSpare_ev {c : Nat} (hf : Foot.le ⟨[.log], [.cmd, .fab], false⟩ f) (hc : c < 4) (h : Ev f s x) :
    Ev f s (settleSpare c x) := by
  unfold settleSpare
  repeat' first
    | with_reducible exact h
    | with_reducible assumption
    | with_reducible refine chooseSpare_ev (le_trans' hf rfl) ?_ ?_
    | with_reducible refine ev_ite (fun _ => ?_) (fun _ => ?_)
    | exact spareOf_lt (by assumption)
    | exact Fin.isLt _
    | omega
    | split

theorem placeImage_ev {img : PitchImage} (hf : Foot.le ⟨[.log], [.cmd, .fab], false⟩ f) (h : Ev f s x) :
    Ev f s (placeImage img x) := by
  unfold placeImage
  repeat' first
    | with_reducible exact h
    | with_reducible assumption
    | with_reducible refine clearPlacement_ev (le_trans' hf rfl) ?_
    | with_reducible refine placeDisplaced_ev (le_trans' hf rfl) ?_
    | with_reducible refine placePreferred_ev (le_trans' hf rfl) ?_
    | with_reducible refine settleSpare_ev (le_trans' hf rfl) ?_ ?_
    | (with_reducible refine ev_forEach_range (fun i hi y hy => ?_) ?_)
    | (with_reducible refine ev_forEach (fun i hi y hy => ?_) ?_)
    | with_reducible refine ev_ite (fun _ => ?_) (fun _ => ?_)
    | exact mem4 (by assumption)

theorem refusePitch_ev {chk : Nat} {arg : Nat} (hf : Foot.le ⟨[.log], [.cmd], false⟩ f) (h : Ev f s x) :
    Ev f s (refusePitch chk arg x) := by
  unfold refusePitch
  repeat' first
    | with_reducible exact h
    | with_reducible assumption
    | with_reducible refine ev_logN (part_mem hf rfl) (block_mem hf rfl) ?_

theorem swapContext_ev {c : Nat} {i : Nat} (hf : Foot.le ⟨[], [.fab], false⟩ f) (hc : c < 4) (hi : i < 17) (h : Ev f s x) :
    Ev f s (swapContext c i x) := by
  unfold swapContext
  repeat' first
    | with_reducible exact h
    | with_reducible assumption
    | with_reducible refine ev_setF ?_ ?_
    | with_reducible refine ev_ite (fun _ => ?_) (fun _ => ?_)
    | with_reducible refine reg_FAB_TILE hf rfl ?_ ?_

theorem transferState_ev {img : PitchImage} (hf : Foot.le ⟨[.fab], [], false⟩ f) (h : Ev f s x) :
    Ev f s (transferState img x) := by
  unfold transferState
  exact ev_forEach (fun m _ y hy => putTile_ev (le_trans' hf rfl) hy) h

theorem openMirror_ev (hf : Foot.le ⟨[.fab], [], false⟩ f) (h : Ev f s x) :
    Ev f s (openMirror x) := by
  unfold openMirror
  repeat' first
    | with_reducible exact h
    | with_reducible assumption
    | with_reducible refine transferState_ev (le_trans' hf rfl) ?_
    | with_reducible refine ev_ite (fun _ => ?_) (fun _ => ?_)
    | exact Fin.isLt _
    | omega
    | split
    | dsimp only
    | with_reducible refine ev_fab (part_mem hf rfl) (by rfl) ?_

theorem applyWords_ev {windows : List Nat} {ws : List (Nat × Word)} (hf : Foot.le ⟨[], [], true⟩ f) (h : Ev f s x) :
    Ev f s (applyWords windows ws x) := by
  unfold applyWords
  repeat' first
    | with_reducible exact h
    | with_reducible assumption
    | with_reducible refine ev_wr ?_ ?_
    | (with_reducible refine ev_forEach_range (fun i hi y hy => ?_) ?_)
    | (with_reducible refine ev_forEach (fun i hi y hy => ?_) ?_)
    | with_reducible refine ev_ite (fun _ => ?_) (fun _ => ?_)
    | exact reg_any hf rfl _

theorem applyStageWords_ev {ws : List (Nat × Word)} (hf : Foot.le ⟨[], [.ctrl], false⟩ f) (h : Ev f s x) :
    Ev f s (applyStageWords ws x) := by
  unfold applyStageWords
  exact ev_forEach (fun p _ y hy => ev_ite (fun e => ev_wr (reg_at hf 0x4006 .ctrl rfl rfl e) hy) (fun _ => hy)) h

theorem applyPinmux_ev {img : PitchImage} (hf : Foot.le ⟨[.fab], [], true⟩ f) (h : Ev f s x) :
    Ev f s (applyPinmux img x) := by
  unfold applyPinmux
  repeat' first
    | with_reducible exact h
    | with_reducible assumption
    | with_reducible refine applyWords_ev (le_trans' hf rfl) ?_
    | with_reducible refine ev_ite (fun _ => ?_) (fun _ => ?_)
    | exact reg_any hf rfl _
    | exact Fin.isLt _
    | omega
    | split
    | dsimp only
    | with_reducible refine ev_fab (part_mem hf rfl) (by rfl) ?_

theorem applyClockPlan_ev {img : PitchImage} (hf : Foot.le ⟨[], [.clk], true⟩ f) (h : Ev f s x) :
    Ev f s (applyClockPlan img x) := by
  unfold applyClockPlan
  repeat' first
    | with_reducible exact h
    | with_reducible assumption
    | with_reducible refine applyWords_ev (le_trans' hf rfl) ?_
    | with_reducible refine ev_setF ?_ ?_
    | with_reducible refine ev_setFbit ?_ ?_
    | (with_reducible refine ev_forEach_range (fun i hi y hy => ?_) ?_)
    | (with_reducible refine ev_forEach (fun i hi y hy => ?_) ?_)
    | with_reducible refine ev_ite (fun _ => ?_) (fun _ => ?_)
    | exact reg_any hf rfl _

theorem applySequencer_ev {img : PitchImage} (hf : Foot.le ⟨[.adc], [], true⟩ f) (h : Ev f s x) :
    Ev f s (applySequencer img x) := by
  unfold applySequencer
  repeat' first
    | with_reducible exact h
    | with_reducible assumption
    | with_reducible refine applyWords_ev (le_trans' hf rfl) ?_
    | with_reducible refine ev_ite (fun _ => ?_) (fun _ => ?_)
    | exact reg_any hf rfl _
    | exact Fin.isLt _
    | omega
    | split
    | dsimp only
    | with_reducible refine ev_adc (part_mem hf rfl) ?_

theorem adoptFull_ev {img : PitchImage} (hf : Foot.le ⟨[.fab, .adc], [.ctrl, .fab], true⟩ f) (h : Ev f s x) :
    Ev f s (adoptFull img x) := by
  unfold adoptFull
  repeat' first
    | with_reducible exact h
    | with_reducible assumption
    | with_reducible refine applySequencer_ev (le_trans' hf rfl) ?_
    | with_reducible refine applyStageWords_ev (le_trans' hf rfl) ?_
    | with_reducible refine applyWords_ev (le_trans' hf rfl) ?_
    | with_reducible refine ev_wr ?_ ?_
    | with_reducible refine ev_setF ?_ ?_
    | with_reducible refine ev_ite (fun _ => ?_) (fun _ => ?_)
    | exact reg_any hf rfl _
    | exact Fin.isLt _
    | omega
    | split
    | dsimp only
    | with_reducible refine ev_fab (part_mem hf rfl) (by rfl) ?_

theorem releaseTiles_ev {after : PitchImage} (hf : Foot.le ⟨[], [.fab], false⟩ f) (h : Ev f s x) :
    Ev f s (releaseTiles after x) := by
  unfold releaseTiles
  refine ev_forEach (fun p hp y hy => ev_ite (fun _ => ?_) (fun _ => hy)) h
  obtain ⟨c, hc, hp⟩ := List.mem_flatMap.1 hp
  obtain ⟨i, hi, rfl⟩ := List.mem_map.1 hp
  exact clearTile_ev (le_trans' hf rfl) (List.mem_range.1 hc) (List.mem_range.1 hi) hy

theorem regainSpare_ev {c : Nat} (hf : Foot.le ⟨[], [.fab], false⟩ f) (hc : c < 4) (h : Ev f s x) :
    Ev f s (regainSpare c x) := by
  unfold regainSpare
  repeat' first
    | with_reducible exact h
    | with_reducible assumption
    | with_reducible refine ev_setF ?_ ?_
    | with_reducible refine ev_ite (fun _ => ?_) (fun _ => ?_)
    | with_reducible refine reg_FAB_STATUS hf rfl ?_
    | with_reducible refine reg_FAB_TILE hf rfl ?_ ?_
    | exact reg_block hf .fab rfl rfl
    | exact lowestFree_lt (by assumption)
    | exact spareOf_lt (by assumption)
    | exact Fin.isLt _
    | omega
    | split

theorem applyChange_ev {ch : StructChange} (hf : Foot.le ⟨[.fab, .adc], [.ctrl, .fab], true⟩ f) (h : Ev f s x) :
    Ev f s (applyChange ch x) := by
  unfold applyChange
  repeat' first
    | with_reducible exact h
    | with_reducible assumption
    | with_reducible refine adoptFull_ev (le_trans' hf rfl) ?_
    | with_reducible refine placeOn_ev (le_trans' hf rfl) ?_ ?_ ?_
    | with_reducible refine regainSpare_ev (le_trans' hf rfl) ?_ ?_
    | with_reducible refine releaseTiles_ev (le_trans' hf rfl) ?_
    | with_reducible refine swapContext_ev (le_trans' hf rfl) ?_ ?_ ?_
    | with_reducible refine transferState_ev (le_trans' hf rfl) ?_
    | with_reducible refine writeShadowContexts_ev (le_trans' hf rfl) ?_
    | with_reducible refine ev_wr ?_ ?_
    | (with_reducible refine ev_forEach_range (fun i hi y hy => ?_) ?_)
    | (with_reducible refine ev_forEach (fun i hi y hy => ?_) ?_)
    | with_reducible refine ev_ite (fun _ => ?_) (fun _ => ?_)
    | exact reg_any hf rfl _
    | exact mem4 (by assumption)
    | exact planTiles_lt (List.mem_filter.1 (by assumption)).1
    | exact planTiles_lt (by assumption)
    | exact Fin.isLt _
    | omega
    | split
    | dsimp only
    | with_reducible refine ev_fab (part_mem hf rfl) (by rfl) ?_

theorem swapStructure_ev (hf : Foot.le ⟨[.log, .fab, .adc], [.ctrl, .cmd, .fab], true⟩ f) (h : Ev f s x) :
    Ev f s (swapStructure x) := by
  unfold swapStructure
  repeat' first
    | with_reducible exact h
    | with_reducible assumption
    | with_reducible refine applyChange_ev (le_trans' hf rfl) ?_
    | with_reducible refine applyRelocation_ev (le_trans' hf rfl) ?_
    | with_reducible refine markPending_ev (le_trans' hf rfl) ?_
    | with_reducible refine ev_logEvent (part_mem hf rfl) (block_mem hf rfl) ?_
    | (with_reducible refine ev_forEach_range (fun i hi y hy => ?_) ?_)
    | (with_reducible refine ev_forEach (fun i hi y hy => ?_) ?_)
    | with_reducible refine ev_ite (fun _ => ?_) (fun _ => ?_)
    | exact reg_any hf rfl _
    | exact mem4 (by assumption)
    | exact Fin.isLt _
    | omega
    | split
    | dsimp only
    | with_reducible refine ev_fab (part_mem hf rfl) (by rfl) ?_

theorem loadFull_ev {img : PitchImage} {slot : Nat} (hf : Foot.le ⟨[.log, .fab, .adc], [.ctrl, .cmd, .fab], true⟩ f) (h : Ev f s x) :
    Ev f s (loadFull img slot x) := by
  unfold loadFull
  repeat' first
    | with_reducible exact h
    | with_reducible assumption
    | with_reducible refine adoptFull_ev (le_trans' hf rfl) ?_
    | with_reducible refine clockRequest_ev (le_trans' hf rfl) ?_
    | with_reducible refine placeImage_ev (le_trans' hf rfl) ?_
    | with_reducible refine swapContext_ev (le_trans' hf rfl) ?_ ?_ ?_
    | with_reducible refine writeShadowContexts_ev (le_trans' hf rfl) ?_
    | with_reducible refine ev_wr64 ?_ ?_ ?_
    | with_reducible refine ev_logEvent (part_mem hf rfl) (block_mem hf rfl) ?_
    | (with_reducible refine ev_forEach_range (fun i hi y hy => ?_) ?_)
    | (with_reducible refine ev_forEach (fun i hi y hy => ?_) ?_)
    | with_reducible refine ev_ite (fun _ => ?_) (fun _ => ?_)
    | exact reg_any hf rfl _
    | exact mem4 (by assumption)
    | exact planTiles_lt (List.mem_filter.1 (by assumption)).1
    | exact planTiles_lt (by assumption)
    | exact Fin.isLt _

end Sys2Proof.Laws
end

