-- ==== Sys2Proof/Laws/EvFilter.lean ====
section
/-! SUPPORT. What each change of Machine/Filter.lean can touch, and that it keeps the state sound: one lemma a function. -/

namespace Sys2Proof.Laws

open Sys2Proof Sys2Proof.Machine Sys2Proof.Safety

variable {f : Foot} {s x : State}

theorem filtErr_ev (hf : Foot.le ⟨[], [.filt], false⟩ f) (h : Ev f s x) :
    Ev f s (filtErr x) := by
  unfold filtErr
  repeat' first
    | with_reducible exact h
    | with_reducible assumption
    | with_reducible refine ev_setF ?_ ?_
    | with_reducible refine ev_ite (fun _ => ?_) (fun _ => ?_)
    | exact reg_block hf .filt rfl rfl

theorem setChainState_ev {n : Nat} {v : Nat} (hf : Foot.le ⟨[], [.filt], false⟩ f) (hn : n < 24) (h : Ev f s x) :
    Ev f s (setChainState n v x) := by
  unfold setChainState
  repeat' first
    | with_reducible exact h
    | with_reducible assumption
    | with_reducible refine ev_setF ?_ ?_
    | with_reducible refine ev_setFbit ?_ ?_
    | with_reducible refine ev_ite (fun _ => ?_) (fun _ => ?_)
    | with_reducible refine reg_FILT_CH_STATE hf rfl ?_
    | exact reg_block hf .filt rfl rfl

theorem setChain_ev {n : Fin 24} {x0 : ChainState} (hf : Foot.le ⟨[.filt], [], false⟩ f) (h : Ev f s x) :
    Ev f s (setChain n x0 x) := by
  unfold setChain
  repeat' first
    | with_reducible exact h
    | with_reducible assumption
    | with_reducible refine ev_ite (fun _ => ?_) (fun _ => ?_)
    | exact Fin.isLt _
    | omega
    | split
    | dsimp only
    | with_reducible refine ev_filt (part_mem hf rfl) ?_

theorem settlePending_ev {n : Fin 24} (hf : Foot.le ⟨[.filt], [.filt], false⟩ f) (h : Ev f s x) :
    Ev f s (settlePending n x) := by
  unfold settlePending
  repeat' first
    | with_reducible exact h
    | with_reducible assumption
    | with_reducible refine setChain_ev (le_trans' hf rfl) ?_
    | with_reducible refine setChainState_ev (le_trans' hf rfl) ?_ ?_
    | with_reducible refine ev_ite (fun _ => ?_) (fun _ => ?_)
    | exact Fin.isLt _

theorem showDelays_ev {n : Nat} (hf : Foot.le ⟨[], [.filt], false⟩ f) (hn : n < 24) (h : Ev f s x) :
    Ev f s (showDelays n x) := by
  unfold showDelays
  repeat' first
    | with_reducible exact h
    | with_reducible assumption
    | with_reducible refine ev_wr ?_ ?_
    | with_reducible refine ev_ite (fun _ => ?_) (fun _ => ?_)
    | with_reducible refine reg_FILT_CH_CFG hf rfl ?_
    | with_reducible refine reg_FILT_CH_FAST_DELAY hf rfl ?_
    | with_reducible refine reg_FILT_CH_GDELAY hf rfl ?_

theorem writeFiltCfg_ev {n : Fin 24} {v : Word} (hf : Foot.le ⟨[.filt], [.filt], false⟩ f) (h : Ev f s x) :
    Ev f s (writeFiltCfg n v x) := by
  unfold writeFiltCfg
  repeat' first
    | with_reducible exact h
    | with_reducible assumption
    | with_reducible refine filtErr_ev (le_trans' hf rfl) ?_
    | with_reducible refine settlePending_ev (le_trans' hf rfl) ?_
    | with_reducible refine showDelays_ev (le_trans' hf rfl) ?_ ?_
    | with_reducible refine ev_setF ?_ ?_
    | with_reducible refine ev_ite (fun _ => ?_) (fun _ => ?_)
    | with_reducible refine reg_FILT_CH_CFG hf rfl ?_
    | exact reg_block hf .filt rfl rfl
    | exact Fin.isLt _

theorem restartMain_ev {n : Fin 24} {ms : Nat} {cause : Nat} (hf : Foot.le ⟨[.log, .filt], [.filt, .cmd], false⟩ f) (h : Ev f s x) :
    Ev f s (restartMain n ms cause x) := by
  unfold restartMain
  repeat' first
    | with_reducible exact h
    | with_reducible assumption
    | with_reducible refine setChain_ev (le_trans' hf rfl) ?_
    | with_reducible refine setChainState_ev (le_trans' hf rfl) ?_ ?_
    | with_reducible refine showDelays_ev (le_trans' hf rfl) ?_ ?_
    | with_reducible refine ev_setF ?_ ?_
    | with_reducible refine ev_logN (part_mem hf rfl) (block_mem hf rfl) ?_
    | with_reducible refine ev_ite (fun _ => ?_) (fun _ => ?_)
    | with_reducible refine reg_FILT_CH_STATE hf rfl ?_
    | exact reg_block hf .filt rfl rfl
    | exact reg_block hf .cmd rfl rfl
    | exact Fin.isLt _

theorem restartFast_ev {n : Fin 24} {ms : Nat} (hf : Foot.le ⟨[.filt], [.filt], false⟩ f) (h : Ev f s x) :
    Ev f s (restartFast n ms x) := by
  unfold restartFast
  repeat' first
    | with_reducible exact h
    | with_reducible assumption
    | with_reducible refine setChain_ev (le_trans' hf rfl) ?_
    | with_reducible refine showDelays_ev (le_trans' hf rfl) ?_ ?_
    | with_reducible refine ev_setF ?_ ?_
    | with_reducible refine ev_ite (fun _ => ?_) (fun _ => ?_)
    | with_reducible refine reg_FILT_CH_STATE hf rfl ?_
    | exact reg_block hf .filt rfl rfl
    | exact Fin.isLt _

theorem tryRestart_ev {n : Fin 24} {ms : Nat} (hf : Foot.le ⟨[.log, .filt], [.filt, .cmd], false⟩ f) (h : Ev f s x) :
    Ev f s (tryRestart n ms x) := by
  unfold tryRestart
  repeat' first
    | with_reducible exact h
    | with_reducible assumption
    | with_reducible refine restartFast_ev (le_trans' hf rfl) ?_
    | with_reducible refine restartMain_ev (le_trans' hf rfl) ?_
    | with_reducible refine ev_ite (fun _ => ?_) (fun _ => ?_)
    | exact Fin.isLt _
    | omega
    | split

theorem waitChain_ev {n : Fin 24} {cause : Nat} {fast : Bool} (hf : Foot.le ⟨[.filt], [.filt], false⟩ f) (h : Ev f s x) :
    Ev f s (waitChain n cause fast x) := by
  unfold waitChain
  repeat' first
    | with_reducible exact h
    | with_reducible assumption
    | with_reducible refine setChain_ev (le_trans' hf rfl) ?_
    | with_reducible refine setChainState_ev (le_trans' hf rfl) ?_ ?_
    | with_reducible refine showDelays_ev (le_trans' hf rfl) ?_ ?_
    | with_reducible refine ev_ite (fun _ => ?_) (fun _ => ?_)
    | exact Fin.isLt _

theorem setFault_ev {n : Fin 24} {b : Bool} (hf : Foot.le ⟨[], [.filt], false⟩ f) (h : Ev f s x) :
    Ev f s (setFault n b x) := by
  unfold setFault
  repeat' first
    | with_reducible exact h
    | with_reducible assumption
    | with_reducible refine ev_setF ?_ ?_
    | with_reducible refine ev_setFbit ?_ ?_
    | with_reducible refine ev_ite (fun _ => ?_) (fun _ => ?_)
    | with_reducible refine reg_FILT_CH_STATE hf rfl ?_
    | exact reg_block hf .filt rfl rfl
    | exact Fin.isLt _

theorem idleChain_ev {n : Fin 24} (hf : Foot.le ⟨[.filt], [.filt], false⟩ f) (h : Ev f s x) :
    Ev f s (idleChain n x) := by
  unfold idleChain
  repeat' first
    | with_reducible exact h
    | with_reducible assumption
    | with_reducible refine setChain_ev (le_trans' hf rfl) ?_
    | with_reducible refine setChainState_ev (le_trans' hf rfl) ?_ ?_
    | with_reducible refine setFault_ev (le_trans' hf rfl) ?_
    | with_reducible refine ev_ite (fun _ => ?_) (fun _ => ?_)
    | exact Fin.isLt _

theorem enableChain_ev {n : Fin 24} {cause : Nat} (hf : Foot.le ⟨[.filt], [.filt], false⟩ f) (h : Ev f s x) :
    Ev f s (enableChain n cause x) := by
  unfold enableChain
  repeat' first
    | with_reducible exact h
    | with_reducible assumption
    | with_reducible refine setChain_ev (le_trans' hf rfl) ?_
    | with_reducible refine setChainState_ev (le_trans' hf rfl) ?_ ?_
    | with_reducible refine waitChain_ev (le_trans' hf rfl) ?_
    | with_reducible refine ev_ite (fun _ => ?_) (fun _ => ?_)
    | exact Fin.isLt _

theorem applyModInput_ev {i : Fin 24} (hf : Foot.le ⟨[.adc, .filt], [.filt], false⟩ f) (h : Ev f s x) :
    Ev f s (applyModInput i x) := by
  unfold applyModInput
  repeat' first
    | with_reducible exact h
    | with_reducible assumption
    | with_reducible refine enableChain_ev (le_trans' hf rfl) ?_
    | with_reducible refine idleChain_ev (le_trans' hf rfl) ?_
    | with_reducible refine waitChain_ev (le_trans' hf rfl) ?_
    | (with_reducible refine ev_forEach_range (fun i hi y hy => ?_) ?_)
    | (with_reducible refine ev_forEach (fun i hi y hy => ?_) ?_)
    | with_reducible refine ev_ite (fun _ => ?_) (fun _ => ?_)
    | exact Fin.isLt _
    | omega
    | split
    | dsimp only
    | with_reducible refine ev_adc (part_mem hf rfl) ?_

theorem applyTimeStep_ev (hf : Foot.le ⟨[.filt], [.filt], false⟩ f) (h : Ev f s x) :
    Ev f s (applyTimeStep x) := by
  unfold applyTimeStep
  repeat' first
    | with_reducible exact h
    | with_reducible assumption
    | with_reducible refine waitChain_ev (le_trans' hf rfl) ?_
    | (with_reducible refine ev_forEach_range (fun i hi y hy => ?_) ?_)
    | (with_reducible refine ev_forEach (fun i hi y hy => ?_) ?_)
    | with_reducible refine ev_ite (fun _ => ?_) (fun _ => ?_)
    | exact Fin.isLt _
    | omega
    | split
    | dsimp only
    | with_reducible refine ev_filt (part_mem hf rfl) ?_

theorem chainsAtBoundary_ev {ms : Nat} {changed : List Nat} (hf : Foot.le ⟨[.log, .adc, .filt], [.filt, .cmd], false⟩ f) (h : Ev f s x) :
    Ev f s (chainsAtBoundary ms changed x) := by
  unfold chainsAtBoundary
  repeat' first
    | with_reducible exact h
    | with_reducible assumption
    | with_reducible refine applyModInput_ev (le_trans' hf rfl) ?_
    | with_reducible refine applyTimeStep_ev (le_trans' hf rfl) ?_
    | with_reducible refine tryRestart_ev (le_trans' hf rfl) ?_
    | with_reducible refine waitChain_ev (le_trans' hf rfl) ?_
    | (with_reducible refine ev_forEach_range (fun i hi y hy => ?_) ?_)
    | (with_reducible refine ev_forEach (fun i hi y hy => ?_) ?_)
    | with_reducible refine ev_ite (fun _ => ?_) (fun _ => ?_)

theorem connectChain_ev {n : Fin 24} {i : Nat} (hf : Foot.le ⟨[], [.filt], false⟩ f) (h : Ev f s x) :
    Ev f s (connectChain n i x) := by
  unfold connectChain
  repeat' first
    | with_reducible exact h
    | with_reducible assumption
    | with_reducible refine setFault_ev (le_trans' hf rfl) ?_
    | with_reducible refine ev_setF ?_ ?_
    | with_reducible refine ev_ite (fun _ => ?_) (fun _ => ?_)
    | with_reducible refine reg_FILT_CH_STATE hf rfl ?_
    | exact reg_block hf .filt rfl rfl
    | exact Fin.isLt _

theorem chainAfterImage_ev {clock : Nat} {n : Fin 24} (hf : Foot.le ⟨[.filt], [.filt], false⟩ f) (h : Ev f s x) :
    Ev f s (chainAfterImage clock n x) := by
  unfold chainAfterImage
  repeat' first
    | with_reducible exact h
    | with_reducible assumption
    | with_reducible refine connectChain_ev (le_trans' hf rfl) ?_
    | with_reducible refine enableChain_ev (le_trans' hf rfl) ?_
    | with_reducible refine idleChain_ev (le_trans' hf rfl) ?_
    | with_reducible refine setChain_ev (le_trans' hf rfl) ?_
    | with_reducible refine setChainState_ev (le_trans' hf rfl) ?_ ?_
    | with_reducible refine waitChain_ev (le_trans' hf rfl) ?_
    | with_reducible refine ev_ite (fun _ => ?_) (fun _ => ?_)
    | exact Fin.isLt _

theorem chainsAfterImage_ev {before : State} (hf : Foot.le ⟨[.filt], [.filt], false⟩ f) (h : Ev f s x) :
    Ev f s (chainsAfterImage before x) := by
  unfold chainsAfterImage
  repeat' first
    | with_reducible exact h
    | with_reducible assumption
    | with_reducible refine chainAfterImage_ev (le_trans' hf rfl) ?_
    | (with_reducible refine ev_forEach_range (fun i hi y hy => ?_) ?_)
    | (with_reducible refine ev_forEach (fun i hi y hy => ?_) ?_)

theorem noteSat_ev {n : Nat} {fast : Bool} {sat : Bool} (hf : Foot.le ⟨[.log], [.filt, .cmd], false⟩ f) (h : Ev f s x) :
    Ev f s (noteSat n fast sat x) := by
  unfold noteSat
  repeat' first
    | with_reducible exact h
    | with_reducible assumption
    | with_reducible refine ev_setFbit ?_ ?_
    | with_reducible refine ev_logN (part_mem hf rfl) (block_mem hf rfl) ?_
    | with_reducible refine ev_whenS (fun hc y hy => ?_) ?_
    | with_reducible refine ev_ite (fun _ => ?_) (fun _ => ?_)
    | exact reg_block hf .filt rfl rfl

theorem mainOutput_ev {n : Fin 24} {raw : Int} (hf : Foot.le ⟨[.tai, .ticks, .log, .filt], [.filt, .cmd], false⟩ f) (h : Ev f s x) :
    Ev f s (mainOutput n raw x) := by
  unfold mainOutput
  repeat' first
    | with_reducible exact h
    | with_reducible assumption
    | with_reducible refine noteSat_ev (le_trans' hf rfl) ?_
    | with_reducible refine setChain_ev (le_trans' hf rfl) ?_
    | with_reducible refine ev_wr ?_ ?_
    | with_reducible refine ev_setF ?_ ?_
    | with_reducible refine ev_wr64 ?_ ?_ ?_
    | with_reducible refine ev_advanceTo (part_mem hf rfl) (part_mem hf rfl) ?_
    | with_reducible refine ev_ite (fun _ => ?_) (fun _ => ?_)
    | with_reducible refine reg_FILT_CH_CFG hf rfl ?_
    | with_reducible refine reg_FILT_CH_GDELAY hf rfl ?_
    | with_reducible refine reg_FILT_CH_LAST hf rfl ?_
    | with_reducible refine reg_FILT_CH_STAMP hf rfl ?_
    | with_reducible refine reg_FILT_CH_STAMP_hi hf rfl ?_
    | with_reducible refine reg_FILT_CH_STATE hf rfl ?_
    | exact reg_block hf .filt rfl rfl
    | exact Fin.isLt _

theorem sincOutput_ev {n : Fin 24} {y : Int} (hf : Foot.le ⟨[.tai, .ticks, .log, .filt], [.filt, .cmd], false⟩ f) (h : Ev f s x) :
    Ev f s (sincOutput n y x) := by
  unfold sincOutput
  repeat' first
    | with_reducible exact h
    | with_reducible assumption
    | with_reducible refine mainOutput_ev (le_trans' hf rfl) ?_
    | with_reducible refine setChain_ev (le_trans' hf rfl) ?_
    | with_reducible refine ev_ite (fun _ => ?_) (fun _ => ?_)

theorem mainBit_ev {n : Fin 24} {b : Bool} (hf : Foot.le ⟨[.tai, .ticks, .log, .filt], [.filt, .cmd], false⟩ f) (h : Ev f s x) :
    Ev f s (mainBit n b x) := by
  unfold mainBit
  repeat' first
    | with_reducible exact h
    | with_reducible assumption
    | with_reducible refine setChain_ev (le_trans' hf rfl) ?_
    | with_reducible refine sincOutput_ev (le_trans' hf rfl) ?_
    | with_reducible refine ev_ite (fun _ => ?_) (fun _ => ?_)

theorem fastOut_ev {n : Fin 24} {y : Int} (hf : Foot.le ⟨[.tai, .ticks, .log, .filt], [.filt, .cmd], false⟩ f) (h : Ev f s x) :
    Ev f s (fastOut n y x) := by
  unfold fastOut
  repeat' first
    | with_reducible exact h
    | with_reducible assumption
    | with_reducible refine noteSat_ev (le_trans' hf rfl) ?_
    | with_reducible refine setChain_ev (le_trans' hf rfl) ?_
    | with_reducible refine ev_wr ?_ ?_
    | with_reducible refine ev_setF ?_ ?_
    | with_reducible refine ev_advanceTo (part_mem hf rfl) (part_mem hf rfl) ?_
    | with_reducible refine ev_ite (fun _ => ?_) (fun _ => ?_)
    | with_reducible refine reg_FILT_CH_FAST_DELAY hf rfl ?_
    | with_reducible refine reg_FILT_CH_LAST_FAST hf rfl ?_
    | with_reducible refine reg_FILT_CH_STATE hf rfl ?_
    | exact reg_block hf .filt rfl rfl
    | exact Fin.isLt _

theorem fastBit_ev {n : Fin 24} {b : Bool} (hf : Foot.le ⟨[.tai, .ticks, .log, .filt], [.filt, .cmd], false⟩ f) (h : Ev f s x) :
    Ev f s (fastBit n b x) := by
  unfold fastBit
  repeat' first
    | with_reducible exact h
    | with_reducible assumption
    | with_reducible refine fastOut_ev (le_trans' hf rfl) ?_
    | with_reducible refine setChain_ev (le_trans' hf rfl) ?_
    | with_reducible refine ev_ite (fun _ => ?_) (fun _ => ?_)

theorem inputBit_ev {i : Nat} {b : Bool} (hf : Foot.le ⟨[.tai, .ticks, .log, .filt], [.filt, .cmd], false⟩ f) (h : Ev f s x) :
    Ev f s (inputBit i b x) := by
  unfold inputBit
  repeat' first
    | with_reducible exact h
    | with_reducible assumption
    | with_reducible refine fastBit_ev (le_trans' hf rfl) ?_
    | with_reducible refine mainBit_ev (le_trans' hf rfl) ?_
    | (with_reducible refine ev_forEach_range (fun i hi y hy => ?_) ?_)
    | (with_reducible refine ev_forEach (fun i hi y hy => ?_) ?_)
    | with_reducible refine ev_ite (fun _ => ?_) (fun _ => ?_)

theorem feedChain_ev {n : Fin 24} {bits : List Bool} (hf : Foot.le ⟨[.tai, .ticks, .log, .filt], [.filt, .cmd], false⟩ f) (h : Ev f s x) :
    Ev f s (feedChain n bits x) := by
  unfold feedChain
  repeat' first
    | with_reducible exact h
    | with_reducible assumption
    | with_reducible refine inputBit_ev (le_trans' hf rfl) ?_
    | (with_reducible refine ev_forEach_range (fun i hi y hy => ?_) ?_)
    | (with_reducible refine ev_forEach (fun i hi y hy => ?_) ?_)
    | with_reducible refine ev_ite (fun _ => ?_) (fun _ => ?_)

theorem execChainOutput_ev {n : Fin 24} {bits : List Bool} (hf : Foot.le ⟨[.tai, .ticks, .log, .filt], [.filt, .cmd], false⟩ f) (h : Ev f s x) :
    EvO f s (execChainOutput n bits x) := by
  unfold execChainOutput
  repeat' first
    | with_reducible exact h
    | with_reducible assumption
    | with_reducible refine feedChain_ev (le_trans' hf rfl) ?_
    | with_reducible refine evo_next ?_

theorem execFastOutput_ev {n : Fin 24} {bits : List Bool} (hf : Foot.le ⟨[.tai, .ticks, .log, .filt], [.filt, .cmd], false⟩ f) (h : Ev f s x) :
    EvO f s (execFastOutput n bits x) := by
  unfold execFastOutput
  repeat' first
    | with_reducible exact h
    | with_reducible assumption
    | with_reducible refine feedChain_ev (le_trans' hf rfl) ?_
    | with_reducible refine evo_next ?_

theorem serveChain_ev {n : Fin 24} (hf : Foot.le ⟨[.filt], [], false⟩ f) (h : Ev f s x) :
    Ev f s (serveChain n x) := by
  unfold serveChain
  repeat' first
    | with_reducible exact h
    | with_reducible assumption
    | with_reducible refine setChain_ev (le_trans' hf rfl) ?_

theorem execFilterService_ev {k : Fin 6} (hf : Foot.le ⟨[.filt], [], false⟩ f) (h : Ev f s x) :
    EvO f s (execFilterService k x) := by
  unfold execFilterService
  repeat' first
    | with_reducible exact h
    | with_reducible assumption
    | with_reducible refine serveChain_ev (le_trans' hf rfl) ?_
    | (with_reducible refine ev_forEach_range (fun i hi y hy => ?_) ?_)
    | (with_reducible refine ev_forEach (fun i hi y hy => ?_) ?_)
    | with_reducible refine evo_next ?_

theorem execModStuck_ev {i : Fin 24} {level : Bool} (hf : Foot.le ⟨[.log, .adc], [.adc, .filt, .cmd], false⟩ f) (h : Ev f s x) :
    EvO f s (execModStuck i level x) := by
  unfold execModStuck
  repeat' first
    | with_reducible exact h
    | with_reducible assumption
    | with_reducible refine setFault_ev (le_trans' hf rfl) ?_
    | with_reducible refine ev_setFbit ?_ ?_
    | with_reducible refine ev_logN (part_mem hf rfl) (block_mem hf rfl) ?_
    | (with_reducible refine ev_forEach_range (fun i hi y hy => ?_) ?_)
    | (with_reducible refine ev_forEach (fun i hi y hy => ?_) ?_)
    | with_reducible refine evo_next ?_
    | with_reducible refine evo_ite (fun _ => ?_) (fun _ => ?_)
    | with_reducible refine ev_ite (fun _ => ?_) (fun _ => ?_)
    | exact reg_block hf .adc rfl rfl
    | exact reg_block hf .cmd rfl rfl
    | exact Fin.isLt _
    | omega
    | split
    | dsimp only
    | with_reducible refine ev_adc (part_mem hf rfl) ?_

theorem execFiltStreamRecovered_ev {i : Fin 24} (hf : Foot.le ⟨[.log, .adc, .filt], [.filt, .cmd], false⟩ f) (h : Ev f s x) :
    EvO f s (execFiltStreamRecovered i x) := by
  unfold execFiltStreamRecovered
  repeat' first
    | with_reducible exact h
    | with_reducible assumption
    | with_reducible refine setChain_ev (le_trans' hf rfl) ?_
    | with_reducible refine setFault_ev (le_trans' hf rfl) ?_
    | with_reducible refine ev_setF ?_ ?_
    | with_reducible refine ev_logN (part_mem hf rfl) (block_mem hf rfl) ?_
    | (with_reducible refine ev_forEach_range (fun i hi y hy => ?_) ?_)
    | (with_reducible refine ev_forEach (fun i hi y hy => ?_) ?_)
    | with_reducible refine evo_next ?_
    | with_reducible refine evo_ite (fun _ => ?_) (fun _ => ?_)
    | with_reducible refine ev_ite (fun _ => ?_) (fun _ => ?_)
    | with_reducible refine reg_FILT_CH_STATE hf rfl ?_
    | exact reg_block hf .filt rfl rfl
    | exact reg_block hf .cmd rfl rfl
    | exact Fin.isLt _
    | omega
    | split
    | dsimp only
    | with_reducible refine ev_adc (part_mem hf rfl) ?_

end Sys2Proof.Laws
end

