-- ==== Sys2Proof/Laws/EvNet.lean ====
section
/-! SUPPORT. What each change of Machine/Net.lean can touch, and that it keeps the state sound: one lemma a function. -/

namespace Sys2Proof.Laws

open Sys2Proof Sys2Proof.Machine Sys2Proof.Safety

variable {f : Foot} {s x : State}

theorem setChannel_ev {ch : Fin 21} {x0 : Channel} (hf : Foot.le ⟨[.cmd], [], false⟩ f) (h : Ev f s x) :
    Ev f s (setChannel ch x0 x) := by
  unfold setChannel
  repeat' first
    | with_reducible exact h
    | with_reducible assumption
    | with_reducible refine ev_ite (fun _ => ?_) (fun _ => ?_)
    | exact Fin.isLt _
    | omega
    | split
    | dsimp only
    | with_reducible refine ev_cmd (part_mem hf rfl) ?_

theorem resetChannel_ev {ch : Fin 21} {why : Nat} (hf : Foot.le ⟨[.log, .cmd], [.cmd], false⟩ f) (h : Ev f s x) :
    Ev f s (resetChannel ch why x) := by
  unfold resetChannel
  repeat' first
    | with_reducible exact h
    | with_reducible assumption
    | with_reducible refine setChannel_ev (le_trans' hf rfl) ?_
    | with_reducible refine ev_logN (part_mem hf rfl) (block_mem hf rfl) ?_

theorem setNet_ev {x0 : NetState} (hf : Foot.le ⟨[.net], [], false⟩ f) (h : Ev f s x) :
    Ev f s (setNet x0 x) := by
  unfold setNet
  repeat' first
    | with_reducible exact h
    | with_reducible assumption
    | with_reducible refine ev_ite (fun _ => ?_) (fun _ => ?_)
    | exact Fin.isLt _
    | omega
    | split
    | dsimp only
    | with_reducible refine ev_net (part_mem hf rfl) ?_

theorem lanHeard_ev {p : Fin 2} (hf : Foot.le ⟨[.log, .net], [.net, .cmd], false⟩ f) (h : Ev f s x) :
    Ev f s (lanHeard p x) := by
  unfold lanHeard
  repeat' first
    | with_reducible exact h
    | with_reducible assumption
    | with_reducible refine setNet_ev (le_trans' hf rfl) ?_
    | with_reducible refine ev_setFbit ?_ ?_
    | with_reducible refine ev_logN (part_mem hf rfl) (block_mem hf rfl) ?_
    | with_reducible refine ev_ite (fun _ => ?_) (fun _ => ?_)
    | exact reg_block hf .net rfl rfl

theorem deliver_ev {f0 : PathFrame} (hf : Foot.le ⟨[.net], [], false⟩ f) (h : Ev f s x) :
    Ev f s (deliver f0 x) := by
  unfold deliver
  repeat' first
    | with_reducible exact h
    | with_reducible assumption
    | with_reducible refine setNet_ev (le_trans' hf rfl) ?_

theorem prpReceive_ev {f0 : PathFrame} (hf : Foot.le ⟨[.net], [], false⟩ f) (h : Ev f s x) :
    Ev f s (prpReceive f0 x) := by
  unfold prpReceive
  repeat' first
    | with_reducible exact h
    | with_reducible assumption
    | with_reducible refine deliver_ev (le_trans' hf rfl) ?_
    | with_reducible refine setNet_ev (le_trans' hf rfl) ?_
    | with_reducible refine ev_ite (fun _ => ?_) (fun _ => ?_)
    | exact Fin.isLt _
    | omega
    | split

theorem setFi_ev {u : Fin 10} {x0 : FiUnit} (hf : Foot.le ⟨[.net], [], false⟩ f) (h : Ev f s x) :
    Ev f s (setFi u x0 x) := by
  unfold setFi
  repeat' first
    | with_reducible exact h
    | with_reducible assumption
    | with_reducible refine setNet_ev (le_trans' hf rfl) ?_

theorem fiOut_ev {u : Fin 10} {l : List PathFrame} (hf : Foot.le ⟨[.net], [], false⟩ f) (h : Ev f s x) :
    Ev f s (fiOut u l x) := by
  unfold fiOut
  repeat' first
    | with_reducible exact h
    | with_reducible assumption
    | with_reducible refine setFi_ev (le_trans' hf rfl) ?_

theorem fiPass_ev {u : Fin 10} {f0 : PathFrame} (hf : Foot.le ⟨[.net], [], false⟩ f) (h : Ev f s x) :
    Ev f s (fiPass u f0 x) := by
  unfold fiPass
  repeat' first
    | with_reducible exact h
    | with_reducible assumption
    | with_reducible refine fiOut_ev (le_trans' hf rfl) ?_
    | with_reducible refine setFi_ev (le_trans' hf rfl) ?_
    | with_reducible refine ev_ite (fun _ => ?_) (fun _ => ?_)
    | exact Fin.isLt _
    | omega
    | split
    | dsimp only

theorem fiAct_ev {u : Fin 10} {f0 : PathFrame} (hf : Foot.le ⟨[.net], [], false⟩ f) (h : Ev f s x) :
    Ev f s (fiAct u f0 x) := by
  unfold fiAct
  repeat' first
    | with_reducible exact h
    | with_reducible assumption
    | with_reducible refine fiOut_ev (le_trans' hf rfl) ?_
    | with_reducible refine setFi_ev (le_trans' hf rfl) ?_
    | with_reducible refine ev_ite (fun _ => ?_) (fun _ => ?_)
    | exact Fin.isLt _
    | omega
    | split

theorem setFiState_ev {u : Nat} {n : Nat} (hf : Foot.le ⟨[], [.net], false⟩ f) (h : Ev f s x) :
    Ev f s (setFiState u n x) := by
  unfold setFiState
  repeat' first
    | with_reducible exact h
    | with_reducible assumption
    | with_reducible refine ev_wr ?_ ?_
    | with_reducible refine ev_ite (fun _ => ?_) (fun _ => ?_)
    | exact reg_block hf .net rfl rfl

theorem fiFinish_ev {u : Fin 10} {acted : Nat} (hf : Foot.le ⟨[.log, .net], [.net, .cmd], false⟩ f) (h : Ev f s x) :
    Ev f s (fiFinish u acted x) := by
  unfold fiFinish
  repeat' first
    | with_reducible exact h
    | with_reducible assumption
    | with_reducible refine setFi_ev (le_trans' hf rfl) ?_
    | with_reducible refine setFiState_ev (le_trans' hf rfl) ?_
    | with_reducible refine ev_logN (part_mem hf rfl) (block_mem hf rfl) ?_

theorem passUnit_ev {u : Fin 10} {f0 : PathFrame} (hf : Foot.le ⟨[.log, .net], [.net, .cmd], false⟩ f) (h : Ev f s x) :
    Ev f s (passUnit u f0 x) := by
  unfold passUnit
  repeat' first
    | with_reducible exact h
    | with_reducible assumption
    | with_reducible refine fiAct_ev (le_trans' hf rfl) ?_
    | with_reducible refine fiFinish_ev (le_trans' hf rfl) ?_
    | with_reducible refine fiOut_ev (le_trans' hf rfl) ?_
    | with_reducible refine fiPass_ev (le_trans' hf rfl) ?_
    | with_reducible refine setFi_ev (le_trans' hf rfl) ?_
    | with_reducible refine ev_setF ?_ ?_
    | with_reducible refine ev_whenS (fun hc y hy => ?_) ?_
    | with_reducible refine ev_ite (fun _ => ?_) (fun _ => ?_)
    | with_reducible refine reg_NET_FI_CFG hf rfl ?_
    | with_reducible refine reg_NET_FI_DONE hf rfl ?_
    | exact reg_block hf .net rfl rfl
    | exact Fin.isLt _

theorem leavePort_ev {p : Fin 2} {f0 : PathFrame} (hf : Foot.le ⟨[.net], [], false⟩ f) (h : Ev f s x) :
    Ev f s (leavePort p f0 x) := by
  unfold leavePort
  repeat' first
    | with_reducible exact h
    | with_reducible assumption
    | with_reducible refine setNet_ev (le_trans' hf rfl) ?_

theorem transmit_ev {p : Fin 2} {f0 : PathFrame} (hf : Foot.le ⟨[.log, .net], [.net, .cmd], false⟩ f) (h : Ev f s x) :
    Ev f s (transmit p f0 x) := by
  unfold transmit
  repeat' first
    | with_reducible exact h
    | with_reducible assumption
    | with_reducible refine leavePort_ev (le_trans' hf rfl) ?_
    | with_reducible refine passUnit_ev (le_trans' hf rfl) ?_
    | (with_reducible refine ev_forEach_range (fun i hi y hy => ?_) ?_)
    | (with_reducible refine ev_forEach (fun i hi y hy => ?_) ?_)

theorem drainPort_ev {p : Fin 2} (hf : Foot.le ⟨[.log, .net], [.net, .cmd], false⟩ f) (h : Ev f s x) :
    Ev f s (drainPort p x) := by
  unfold drainPort
  repeat' first
    | with_reducible exact h
    | with_reducible assumption
    | with_reducible refine setNet_ev (le_trans' hf rfl) ?_
    | with_reducible refine transmit_ev (le_trans' hf rfl) ?_
    | with_reducible refine ev_ite (fun _ => ?_) (fun _ => ?_)
    | exact Fin.isLt _
    | omega
    | split

theorem enqueue_ev {p : Fin 2} {f0 : PathFrame} (hf : Foot.le ⟨[.log, .net], [.net, .cmd], false⟩ f) (h : Ev f s x) :
    Ev f s (enqueue p f0 x) := by
  unfold enqueue
  repeat' first
    | with_reducible exact h
    | with_reducible assumption
    | with_reducible refine drainPort_ev (le_trans' hf rfl) ?_
    | with_reducible refine setNet_ev (le_trans' hf rfl) ?_
    | with_reducible refine ev_ite (fun _ => ?_) (fun _ => ?_)

theorem portReceive_ev {p : Fin 2} {f0 : PathFrame} (hf : Foot.le ⟨[.log, .net], [.net, .cmd], false⟩ f) (h : Ev f s x) :
    Ev f s (portReceive p f0 x) := by
  unfold portReceive
  repeat' first
    | with_reducible exact h
    | with_reducible assumption
    | with_reducible refine deliver_ev (le_trans' hf rfl) ?_
    | with_reducible refine enqueue_ev (le_trans' hf rfl) ?_
    | with_reducible refine lanHeard_ev (le_trans' hf rfl) ?_
    | with_reducible refine prpReceive_ev (le_trans' hf rfl) ?_
    | with_reducible refine ev_ite (fun _ => ?_) (fun _ => ?_)

theorem surface_ev {u : Fin 10} (hf : Foot.le ⟨[.log, .net], [.net, .cmd], false⟩ f) (h : Ev f s x) :
    Ev f s (surface u x) := by
  unfold surface
  repeat' first
    | with_reducible exact h
    | with_reducible assumption
    | with_reducible refine deliver_ev (le_trans' hf rfl) ?_
    | with_reducible refine leavePort_ev (le_trans' hf rfl) ?_
    | with_reducible refine portReceive_ev (le_trans' hf rfl) ?_
    | (with_reducible refine ev_forEach_range (fun i hi y hy => ?_) ?_)
    | (with_reducible refine ev_forEach (fun i hi y hy => ?_) ?_)
    | with_reducible refine ev_ite (fun _ => ?_) (fun _ => ?_)
    | exact Fin.isLt _
    | omega
    | split

theorem fiIdleNow_ev {u : Fin 10} (hf : Foot.le ⟨[.log, .net], [.net, .cmd], false⟩ f) (h : Ev f s x) :
    Ev f s (fiIdleNow u x) := by
  unfold fiIdleNow
  repeat' first
    | with_reducible exact h
    | with_reducible assumption
    | with_reducible refine setFi_ev (le_trans' hf rfl) ?_
    | with_reducible refine setFiState_ev (le_trans' hf rfl) ?_
    | with_reducible refine surface_ev (le_trans' hf rfl) ?_

theorem fiDisarm_ev {us : List (Fin 10)} {why : Nat} (hf : Foot.le ⟨[.log, .net], [.net, .cmd], false⟩ f) (h : Ev f s x) :
    Ev f s (fiDisarm us why x) := by
  unfold fiDisarm
  repeat' first
    | with_reducible exact h
    | with_reducible assumption
    | with_reducible refine fiIdleNow_ev (le_trans' hf rfl) ?_
    | with_reducible refine ev_logN (part_mem hf rfl) (block_mem hf rfl) ?_
    | (with_reducible refine ev_forEach_range (fun i hi y hy => ?_) ?_)
    | (with_reducible refine ev_forEach (fun i hi y hy => ?_) ?_)
    | with_reducible refine ev_ite (fun _ => ?_) (fun _ => ?_)

theorem fiDisarmAll_ev {why : Nat} (hf : Foot.le ⟨[.log, .net], [.net, .cmd], false⟩ f) (h : Ev f s x) :
    Ev f s (fiDisarmAll why x) := by
  unfold fiDisarmAll
  repeat' first
    | with_reducible exact h
    | with_reducible assumption
    | with_reducible refine fiDisarm_ev (le_trans' hf rfl) ?_

theorem netErr_ev (hf : Foot.le ⟨[], [.net], false⟩ f) (h : Ev f s x) :
    Ev f s (netErr x) := by
  unfold netErr
  repeat' first
    | with_reducible exact h
    | with_reducible assumption
    | with_reducible refine ev_setF ?_ ?_
    | with_reducible refine ev_ite (fun _ => ?_) (fun _ => ?_)
    | exact reg_block hf .net rfl rfl

theorem fiArmNow_ev {u : Fin 10} (hf : Foot.le ⟨[.net], [.net], false⟩ f) (h : Ev f s x) :
    Ev f s (fiArmNow u x) := by
  unfold fiArmNow
  repeat' first
    | with_reducible exact h
    | with_reducible assumption
    | with_reducible refine setFi_ev (le_trans' hf rfl) ?_
    | with_reducible refine setFiState_ev (le_trans' hf rfl) ?_
    | with_reducible refine ev_wr ?_ ?_
    | with_reducible refine ev_ite (fun _ => ?_) (fun _ => ?_)
    | with_reducible refine reg_NET_FI_DONE hf rfl ?_
    | with_reducible refine reg_NET_FI_START hf rfl ?_
    | exact reg_block hf .net rfl rfl
    | exact Fin.isLt _

theorem fiArmRequest_ev {u : Fin 10} (hf : Foot.le ⟨[.log, .net], [.net, .cmd], false⟩ f) (h : Ev f s x) :
    Ev f s (fiArmRequest u x) := by
  unfold fiArmRequest
  repeat' first
    | with_reducible exact h
    | with_reducible assumption
    | with_reducible refine fiArmNow_ev (le_trans' hf rfl) ?_
    | with_reducible refine ev_setF ?_ ?_
    | with_reducible refine ev_logN (part_mem hf rfl) (block_mem hf rfl) ?_
    | with_reducible refine ev_ite (fun _ => ?_) (fun _ => ?_)
    | exact reg_block hf .net rfl rfl

theorem writeFiCfg_ev {u : Fin 10} {v : Word} (hf : Foot.le ⟨[.log, .net], [.net, .cmd], false⟩ f) (h : Ev f s x) :
    Ev f s (writeFiCfg u v x) := by
  unfold writeFiCfg
  repeat' first
    | with_reducible exact h
    | with_reducible assumption
    | with_reducible refine fiArmRequest_ev (le_trans' hf rfl) ?_
    | with_reducible refine fiDisarm_ev (le_trans' hf rfl) ?_
    | with_reducible refine netErr_ev (le_trans' hf rfl) ?_
    | with_reducible refine ev_wr ?_ ?_
    | with_reducible refine ev_whenS (fun hc y hy => ?_) ?_
    | with_reducible refine ev_ite (fun _ => ?_) (fun _ => ?_)
    | with_reducible refine reg_NET_FI_CFG hf rfl ?_
    | exact reg_block hf .net rfl rfl
    | exact Fin.isLt _

theorem arrives_ev {u : Fin 10} {field : BitVec 16} {i : Instr} {run : State → Out} {bad : Option (Instr × (State → Out))} (hf : Foot.le ⟨[.log, .net], [.net, .cmd], false⟩ f) (hrun : ∀ y, Ev f s y → EvO f s (run y)) (hbad : ∀ b, bad = some b → ∀ y, Ev f s y → EvO f s (b.2 y)) (h : Ev f s x) :
    EvO f s (arrives u field i run bad x) := by
  have hn : ∀ (v : NetState) (y : State), Ev f s y → Ev f s (setNet v y) := fun _ _ hy => setNet_ev (le_trans' hf rfl) hy
  unfold arrives
  refine evo_ite (fun _ => hrun _ (hn _ _ h)) (fun _ => evo_ite (fun _ => hrun _ h) (fun _ => ?_))
  have hs := fun (q : PathFrame) => surface_ev (f := f) (s := s) (u := u) (le_trans' hf rfl)
    (passUnit_ev (u := u) (f0 := q) (le_trans' hf rfl) (hn { x.net with arrived := [] } x h))
  dsimp only
  split
  · exact evo_next (hn _ _ (hs _))
  · refine evo_ite (fun _ => hrun _ (hn _ _ (hs _))) (fun _ => ?_)
    cases bad with
    | some b => exact evo_ite (fun _ => hbad b rfl _ (hn _ _ (hs _))) (fun _ => evo_next (hn _ _ (hn _ _ (hs _))))
    | none => exact evo_next (hn _ _ (hn _ _ (hs _)))

theorem onChannel_ev {q : ReqHeader} {i : Instr} {run : State → Out} (hf : Foot.le ⟨[.log, .net], [.net, .cmd], false⟩ f) (hrun : ∀ y, Ev f s y → EvO f s (run y)) (h : Ev f s x) :
    EvO f s (onChannel q i run x) := by
  unfold onChannel
  exact evo_ite (fun _ => arrives_ev (le_trans' hf rfl) hrun (fun _ hb => nomatch hb) h) (fun _ => hrun _ h)

theorem guyArrives_ev {ty : BitVec 16} {h0 : GuyHeader} {mk : GuyHeader → Instr} {run : GuyHeader → State → Out} (hf : Foot.le ⟨[.log, .net], [.net, .cmd], false⟩ f) (hrun : ∀ k y, Ev f s y → EvO f s (run k y)) (h : Ev f s x) :
    EvO f s (guyArrives ty h0 mk run x) := by
  unfold guyArrives
  exact arrives_ev (le_trans' hf rfl) (hrun _) (fun b hb => by cases hb; exact hrun _) h

theorem ownSend_ev {f0 : PathFrame} (hf : Foot.le ⟨[.log, .net], [.net, .cmd], false⟩ f) (h : Ev f s x) :
    Ev f s (ownSend f0 x) := by
  unfold ownSend
  repeat' first
    | with_reducible exact h
    | with_reducible assumption
    | with_reducible refine enqueue_ev (le_trans' hf rfl) ?_
    | with_reducible refine setNet_ev (le_trans' hf rfl) ?_
    | with_reducible refine transmit_ev (le_trans' hf rfl) ?_
    | (with_reducible refine ev_forEach_range (fun i hi y hy => ?_) ?_)
    | (with_reducible refine ev_forEach (fun i hi y hy => ?_) ?_)
    | with_reducible refine ev_ite (fun _ => ?_) (fun _ => ?_)

theorem showLink_ev {p : Fin 3} {speed : Nat} (hf : Foot.le ⟨[], [.net], false⟩ f) (h : Ev f s x) :
    Ev f s (showLink p speed x) := by
  unfold showLink
  repeat' first
    | with_reducible exact h
    | with_reducible assumption
    | with_reducible refine ev_setF ?_ ?_
    | with_reducible refine ev_ite (fun _ => ?_) (fun _ => ?_)
    | exact reg_block hf .net rfl rfl
    | exact Fin.isLt _
    | omega
    | split

theorem execLinkUp_ev {p : Fin 3} {gigabit : Bool} (hf : Foot.le ⟨[.log], [.net, .cmd], false⟩ f) (h : Ev f s x) :
    EvO f s (execLinkUp p gigabit x) := by
  unfold execLinkUp
  repeat' first
    | with_reducible exact h
    | with_reducible assumption
    | with_reducible refine showLink_ev (le_trans' hf rfl) ?_
    | with_reducible refine ev_logN (part_mem hf rfl) (block_mem hf rfl) ?_
    | with_reducible refine evo_next ?_
    | with_reducible refine evo_ite (fun _ => ?_) (fun _ => ?_)

theorem execLinkDown_ev {p : Fin 3} (hf : Foot.le ⟨[.log, .net], [.net, .cmd], false⟩ f) (h : Ev f s x) :
    EvO f s (execLinkDown p x) := by
  unfold execLinkDown
  repeat' first
    | with_reducible exact h
    | with_reducible assumption
    | with_reducible refine setNet_ev (le_trans' hf rfl) ?_
    | with_reducible refine showLink_ev (le_trans' hf rfl) ?_
    | with_reducible refine ev_logN (part_mem hf rfl) (block_mem hf rfl) ?_
    | with_reducible refine evo_next ?_
    | with_reducible refine evo_ite (fun _ => ?_) (fun _ => ?_)
    | with_reducible refine ev_ite (fun _ => ?_) (fun _ => ?_)
    | exact reg_block hf .cmd rfl rfl
    | exact Fin.isLt _
    | omega
    | split

theorem execPrpLanLost_ev {l : Fin 2} (hf : Foot.le ⟨[.tai, .ticks, .log], [.net, .cmd], false⟩ f) (h : Ev f s x) :
    EvO f s (execPrpLanLost l x) := by
  unfold execPrpLanLost
  repeat' first
    | with_reducible exact h
    | with_reducible assumption
    | with_reducible refine ev_setFbit ?_ ?_
    | with_reducible refine ev_logN (part_mem hf rfl) (block_mem hf rfl) ?_
    | with_reducible refine ev_reachLocal (part_mem hf rfl) (part_mem hf rfl) ?_
    | with_reducible refine evo_next ?_
    | with_reducible refine evo_ite (fun _ => ?_) (fun _ => ?_)
    | with_reducible refine ev_ite (fun _ => ?_) (fun _ => ?_)
    | exact reg_block hf .net rfl rfl
    | exact reg_block hf .cmd rfl rfl
    | exact Fin.isLt _
    | omega
    | split

theorem execPrpLanRestored_ev {l : Fin 2} (hf : Foot.le ⟨[.log], [.net, .cmd], false⟩ f) (h : Ev f s x) :
    EvO f s (execPrpLanRestored l x) := by
  unfold execPrpLanRestored
  repeat' first
    | with_reducible exact h
    | with_reducible assumption
    | with_reducible refine ev_setFbit ?_ ?_
    | with_reducible refine ev_logN (part_mem hf rfl) (block_mem hf rfl) ?_
    | with_reducible refine evo_next ?_
    | with_reducible refine evo_ite (fun _ => ?_) (fun _ => ?_)
    | with_reducible refine ev_ite (fun _ => ?_) (fun _ => ?_)
    | exact reg_block hf .net rfl rfl

theorem drainPorts_ev (hf : Foot.le ⟨[.log, .net], [.net, .cmd], false⟩ f) (h : Ev f s x) :
    Ev f s (drainPorts x) := by
  unfold drainPorts
  repeat' first
    | with_reducible exact h
    | with_reducible assumption
    | with_reducible refine drainPort_ev (le_trans' hf rfl) ?_

theorem execFiStart_ev {u : Fin 10} (hf : Foot.le ⟨[.tai, .ticks], [.net], false⟩ f) (h : Ev f s x) :
    EvO f s (execFiStart u x) := by
  unfold execFiStart
  repeat' first
    | with_reducible exact h
    | with_reducible assumption
    | with_reducible refine setFiState_ev (le_trans' hf rfl) ?_
    | with_reducible refine ev_reachNs (part_mem hf rfl) (part_mem hf rfl) ?_
    | with_reducible refine evo_next ?_
    | with_reducible refine evo_ite (fun _ => ?_) (fun _ => ?_)

theorem execFiFrame_ev {u : Fin 10} {receive : Bool} {field : BitVec 16} {x0 : NetFrame} (hf : Foot.le ⟨[.log, .net], [.net, .cmd], false⟩ f) (h : Ev f s x) :
    EvO f s (execFiFrame u receive field x0 x) := by
  unfold execFiFrame
  repeat' first
    | with_reducible exact h
    | with_reducible assumption
    | with_reducible refine enqueue_ev (le_trans' hf rfl) ?_
    | with_reducible refine passUnit_ev (le_trans' hf rfl) ?_
    | with_reducible refine surface_ev (le_trans' hf rfl) ?_
    | with_reducible refine evo_next ?_
    | with_reducible refine evo_ite (fun _ => ?_) (fun _ => ?_)

theorem execFiRelease_ev {u : Fin 10} (hf : Foot.le ⟨[.tai, .ticks, .log, .net], [.net, .cmd], false⟩ f) (h : Ev f s x) :
    EvO f s (execFiRelease u x) := by
  unfold execFiRelease
  repeat' first
    | with_reducible exact h
    | with_reducible assumption
    | with_reducible refine setFi_ev (le_trans' hf rfl) ?_
    | with_reducible refine surface_ev (le_trans' hf rfl) ?_
    | with_reducible refine ev_reachLocal (part_mem hf rfl) (part_mem hf rfl) ?_
    | with_reducible refine evo_next ?_
    | with_reducible refine evo_ite (fun _ => ?_) (fun _ => ?_)
    | with_reducible refine ev_ite (fun _ => ?_) (fun _ => ?_)
    | exact Fin.isLt _
    | omega
    | split

theorem execPtpSync_ev {port : Fin 2} {x0 : PtpSync} (hf : Foot.le ⟨[.tai, .ticks, .log, .time, .adc, .filt, .loop, .scan, .recd, .net, .upd], [.time, .recd, .net, .cmd], false⟩ f) (h : Ev f s x) :
    EvO f s (execPtpSync port x0 x) := by
  unfold execPtpSync
  repeat' first
    | with_reducible exact h
    | with_reducible assumption
    | with_reducible refine arrives_ev (le_trans' hf rfl) (fun y hy => ?_) (fun _ hb => nomatch hb) ?_
    | with_reducible refine ptpSync_ev (le_trans' hf rfl) ?_
    | with_reducible refine ev_advanceTo (part_mem hf rfl) (part_mem hf rfl) ?_
    | with_reducible refine evo_next ?_
    | with_reducible refine evo_ite (fun _ => ?_) (fun _ => ?_)
    | with_reducible refine ev_ite (fun _ => ?_) (fun _ => ?_)

theorem execPtpAnnounce_ev {port : Fin 2} {x0 : Option Announce} (hf : Foot.le ⟨[.log, .time, .net], [.time, .net, .cmd], false⟩ f) (h : Ev f s x) :
    EvO f s (execPtpAnnounce port x0 x) := by
  unfold execPtpAnnounce
  repeat' first
    | with_reducible exact h
    | with_reducible assumption
    | with_reducible refine arrives_ev (le_trans' hf rfl) (fun y hy => ?_) (fun _ hb => nomatch hb) ?_
    | with_reducible refine ptpAnnounce_ev (le_trans' hf rfl) ?_
    | with_reducible refine evo_next ?_
    | with_reducible refine evo_ite (fun _ => ?_) (fun _ => ?_)
    | with_reducible refine ev_ite (fun _ => ?_) (fun _ => ?_)
    | exact Fin.isLt _
    | omega
    | split

theorem execTiming_ev {path : Fin 2} {theta : Int} (hf : Foot.le ⟨[.tai, .log, .time, .adc, .filt, .loop, .scan, .recd, .net, .upd], [.time, .recd, .net, .cmd], false⟩ f) (h : Ev f s x) :
    EvO f s (execTiming path theta x) := by
  unfold execTiming
  repeat' first
    | with_reducible exact h
    | with_reducible assumption
    | with_reducible refine arrives_ev (le_trans' hf rfl) (fun y hy => ?_) (fun _ hb => nomatch hb) ?_
    | with_reducible refine timing_ev (le_trans' hf rfl) ?_

theorem sendBlock_ev {b : Fin 2 × Fin 32} (hf : Foot.le ⟨[.net], [], false⟩ f) (h : Ev f s x) :
    Ev f s (sendBlock b x) := by
  unfold sendBlock
  repeat' first
    | with_reducible exact h
    | with_reducible assumption
    | with_reducible refine setNet_ev (le_trans' hf rfl) ?_

theorem execRemoteStale_ev {k : Fin 2} {b : Fin 32} (hf : Foot.le ⟨[.tai, .ticks, .log, .scan], [.scan, .cmd], false⟩ f) (h : Ev f s x) :
    EvO f s (execRemoteStale k b x) := by
  unfold execRemoteStale
  repeat' first
    | with_reducible exact h
    | with_reducible assumption
    | with_reducible refine setRemote_ev (le_trans' hf rfl) ?_
    | with_reducible refine ev_setFbit ?_ ?_
    | with_reducible refine ev_logN (part_mem hf rfl) (block_mem hf rfl) ?_
    | with_reducible refine ev_reachNs (part_mem hf rfl) (part_mem hf rfl) ?_
    | with_reducible refine evo_next ?_
    | with_reducible refine evo_ite (fun _ => ?_) (fun _ => ?_)
    | with_reducible refine ev_ite (fun _ => ?_) (fun _ => ?_)
    | with_reducible refine reg_SCAN_REMOTE_STALE hf rfl ?_
    | exact reg_block hf .scan rfl rfl
    | exact reg_block hf .cmd rfl rfl
    | exact Fin.isLt _
    | omega
    | split

theorem execPdPublish_ev {i : Fin 64} (hf : Foot.le ⟨[.tai, .ticks, .log, .net], [.net, .cmd], false⟩ f) (h : Ev f s x) :
    EvO f s (execPdPublish i x) := by
  unfold execPdPublish
  repeat' first
    | with_reducible exact h
    | with_reducible assumption
    | with_reducible refine ownSend_ev (le_trans' hf rfl) ?_
    | with_reducible refine sendBlock_ev (le_trans' hf rfl) ?_
    | with_reducible refine setNet_ev (le_trans' hf rfl) ?_
    | with_reducible refine ev_reachNs (part_mem hf rfl) (part_mem hf rfl) ?_
    | with_reducible refine evo_next ?_
    | with_reducible refine evo_ite (fun _ => ?_) (fun _ => ?_)
    | with_reducible refine ev_ite (fun _ => ?_) (fun _ => ?_)
    | exact Fin.isLt _
    | omega
    | split

theorem execPdTimeout_ev {i : Fin 64} (hf : Foot.le ⟨[.tai, .ticks, .log, .scan, .net], [.cmd], false⟩ f) (h : Ev f s x) :
    EvO f s (execPdTimeout i x) := by
  unfold execPdTimeout
  repeat' first
    | with_reducible exact h
    | with_reducible assumption
    | with_reducible refine setNet_ev (le_trans' hf rfl) ?_
    | with_reducible refine setRemote_ev (le_trans' hf rfl) ?_
    | with_reducible refine ev_logEvent (part_mem hf rfl) (block_mem hf rfl) ?_
    | with_reducible refine ev_reachNs (part_mem hf rfl) (part_mem hf rfl) ?_
    | with_reducible refine ev_whenS (fun hc y hy => ?_) ?_
    | with_reducible refine evo_next ?_
    | with_reducible refine evo_ite (fun _ => ?_) (fun _ => ?_)
    | with_reducible refine ev_ite (fun _ => ?_) (fun _ => ?_)
    | exact reg_block hf .cmd rfl rfl
    | exact Fin.isLt _
    | omega
    | split

theorem execCanBusOff_ev {p : Fin 2} {tec : Nat} (hf : Foot.le ⟨[.log], [.net, .cmd], false⟩ f) (h : Ev f s x) :
    EvO f s (execCanBusOff p tec x) := by
  unfold execCanBusOff
  repeat' first
    | with_reducible exact h
    | with_reducible assumption
    | with_reducible refine ev_setFbit ?_ ?_
    | with_reducible refine ev_logN (part_mem hf rfl) (block_mem hf rfl) ?_
    | with_reducible refine evo_next ?_
    | with_reducible refine evo_ite (fun _ => ?_) (fun _ => ?_)
    | with_reducible refine ev_ite (fun _ => ?_) (fun _ => ?_)
    | exact reg_block hf .net rfl rfl

theorem execCanRecovery_ev {p : Fin 2} (hf : Foot.le ⟨[], [.net], false⟩ f) (h : Ev f s x) :
    EvO f s (execCanRecovery p x) := by
  unfold execCanRecovery
  repeat' first
    | with_reducible exact h
    | with_reducible assumption
    | with_reducible refine ev_setFbit ?_ ?_
    | with_reducible refine evo_next ?_
    | with_reducible refine evo_ite (fun _ => ?_) (fun _ => ?_)
    | with_reducible refine ev_ite (fun _ => ?_) (fun _ => ?_)
    | exact reg_block hf .net rfl rfl

theorem canFrame_ev {id : Nat} {data : List Word} {e : (Fin 2 × Fin 32) × Nat × Nat} (hf : Foot.le ⟨[.log, .scan, .net], [.scan, .cmd], false⟩ f) (h : Ev f s x) :
    Ev f s (canFrame id data e x) := by
  unfold canFrame
  repeat' first
    | with_reducible exact h
    | with_reducible assumption
    | with_reducible refine remoteArrived_ev (le_trans' hf rfl) ?_
    | with_reducible refine setNet_ev (le_trans' hf rfl) ?_
    | with_reducible refine ev_ite (fun _ => ?_) (fun _ => ?_)

theorem execCanFrameReceived_ev {p : Fin 2} {id : Nat} {data : List Word} (hf : Foot.le ⟨[.log, .scan, .net], [.scan, .net, .cmd], false⟩ f) (h : Ev f s x) :
    EvO f s (execCanFrameReceived p id data x) := by
  unfold execCanFrameReceived
  repeat' first
    | with_reducible exact h
    | with_reducible assumption
    | with_reducible refine arrives_ev (le_trans' hf rfl) (fun y hy => ?_) (fun _ hb => nomatch hb) ?_
    | with_reducible refine canFrame_ev (le_trans' hf rfl) ?_
    | (with_reducible refine ev_forEach_range (fun i hi y hy => ?_) ?_)
    | (with_reducible refine ev_forEach (fun i hi y hy => ?_) ?_)
    | with_reducible refine evo_next ?_
    | with_reducible refine evo_ite (fun _ => ?_) (fun _ => ?_)

theorem execCanTxCycle_ev {k : Fin 2} {b : Fin 32} (hf : Foot.le ⟨[.net], [], false⟩ f) (h : Ev f s x) :
    EvO f s (execCanTxCycle k b x) := by
  unfold execCanTxCycle
  repeat' first
    | with_reducible exact h
    | with_reducible assumption
    | with_reducible refine sendBlock_ev (le_trans' hf rfl) ?_
    | with_reducible refine evo_next ?_
    | with_reducible refine evo_ite (fun _ => ?_) (fun _ => ?_)
    | with_reducible refine ev_ite (fun _ => ?_) (fun _ => ?_)
    | exact Fin.isLt _
    | omega
    | split
    | dsimp only

theorem execMvbLineFail_ev {l : Fin 2} (hf : Foot.le ⟨[.log], [.net, .cmd], false⟩ f) (h : Ev f s x) :
    EvO f s (execMvbLineFail l x) := by
  unfold execMvbLineFail
  repeat' first
    | with_reducible exact h
    | with_reducible assumption
    | with_reducible refine ev_setFbit ?_ ?_
    | with_reducible refine ev_logN (part_mem hf rfl) (block_mem hf rfl) ?_
    | with_reducible refine evo_next ?_
    | with_reducible refine evo_ite (fun _ => ?_) (fun _ => ?_)
    | with_reducible refine ev_ite (fun _ => ?_) (fun _ => ?_)
    | exact reg_block hf .net rfl rfl

theorem mvbSettle_ev {b : Fin 2 × Fin 32} (hf : Foot.le ⟨[.log, .scan, .net], [.scan, .cmd], false⟩ f) (h : Ev f s x) :
    Ev f s (mvbSettle b x) := by
  unfold mvbSettle
  repeat' first
    | with_reducible exact h
    | with_reducible assumption
    | with_reducible refine remoteArrived_ev (le_trans' hf rfl) ?_
    | with_reducible refine setNet_ev (le_trans' hf rfl) ?_
    | with_reducible refine ev_ite (fun _ => ?_) (fun _ => ?_)

theorem mvbMaster_ev {addr : BitVec 12} {data : List Word} (hf : Foot.le ⟨[.log, .scan, .net], [.scan, .cmd], false⟩ f) (h : Ev f s x) :
    EvO f s (mvbMaster addr data x) := by
  unfold mvbMaster
  repeat' first
    | with_reducible exact h
    | with_reducible assumption
    | with_reducible refine mvbSettle_ev (le_trans' hf rfl) ?_
    | with_reducible refine sendBlock_ev (le_trans' hf rfl) ?_
    | with_reducible refine setNet_ev (le_trans' hf rfl) ?_
    | with_reducible refine evo_next ?_
    | with_reducible refine evo_ite (fun _ => ?_) (fun _ => ?_)
    | with_reducible refine ev_ite (fun _ => ?_) (fun _ => ?_)
    | exact Fin.isLt _
    | omega
    | split

theorem execMvbMasterFrame_ev {addr : BitVec 12} {data : List Word} (hf : Foot.le ⟨[.log, .scan, .net], [.scan, .net, .cmd], false⟩ f) (h : Ev f s x) :
    EvO f s (execMvbMasterFrame addr data x) := by
  unfold execMvbMasterFrame
  repeat' first
    | with_reducible exact h
    | with_reducible assumption
    | with_reducible refine arrives_ev (le_trans' hf rfl) (fun y hy => ?_) (fun _ hb => nomatch hb) ?_
    | with_reducible refine mvbMaster_ev (le_trans' hf rfl) ?_

theorem execModbusPoll_ev {p : Fin 2} (hf : Foot.le ⟨[.net], [], false⟩ f) (h : Ev f s x) :
    EvO f s (execModbusPoll p x) := by
  unfold execModbusPoll
  repeat' first
    | with_reducible exact h
    | with_reducible assumption
    | with_reducible refine sendBlock_ev (le_trans' hf rfl) ?_
    | with_reducible refine setNet_ev (le_trans' hf rfl) ?_
    | with_reducible refine ev_whenS (fun hc y hy => ?_) ?_
    | with_reducible refine evo_next ?_
    | with_reducible refine evo_ite (fun _ => ?_) (fun _ => ?_)
    | with_reducible refine ev_ite (fun _ => ?_) (fun _ => ?_)
    | exact Fin.isLt _
    | omega
    | split
    | dsimp only

theorem execModbusTimeout_ev {p : Fin 2} (hf : Foot.le ⟨[.log, .net], [.cmd], false⟩ f) (h : Ev f s x) :
    EvO f s (execModbusTimeout p x) := by
  unfold execModbusTimeout
  repeat' first
    | with_reducible exact h
    | with_reducible assumption
    | with_reducible refine setNet_ev (le_trans' hf rfl) ?_
    | with_reducible refine ev_logN (part_mem hf rfl) (block_mem hf rfl) ?_
    | with_reducible refine evo_next ?_
    | with_reducible refine evo_ite (fun _ => ?_) (fun _ => ?_)
    | with_reducible refine ev_ite (fun _ => ?_) (fun _ => ?_)
    | exact reg_block hf .cmd rfl rfl
    | exact Fin.isLt _
    | omega
    | split

theorem modbusResponse_ev {p : Fin 2} {q : Poll} {data : List Word} (hf : Foot.le ⟨[.log, .scan, .net], [.scan, .cmd], false⟩ f) (h : Ev f s x) :
    Ev f s (modbusResponse p q data x) := by
  unfold modbusResponse
  repeat' first
    | with_reducible exact h
    | with_reducible assumption
    | with_reducible refine remoteArrived_ev (le_trans' hf rfl) ?_
    | with_reducible refine setNet_ev (le_trans' hf rfl) ?_
    | with_reducible refine ev_ite (fun _ => ?_) (fun _ => ?_)
    | exact Fin.isLt _
    | omega
    | split

theorem modbusRequest_ev {p : Fin 2} {a : BitVec 8} {fc : BitVec 8} {writes : List (Nat × BitVec 16)} (hf : Foot.le ⟨[.net], [], false⟩ f) (h : Ev f s x) :
    Ev f s (modbusRequest p a fc writes x) := by
  unfold modbusRequest
  repeat' first
    | with_reducible exact h
    | with_reducible assumption
    | with_reducible refine setNet_ev (le_trans' hf rfl) ?_
    | with_reducible refine ev_ite (fun _ => ?_) (fun _ => ?_)

theorem modbusIn_ev {p : Fin 2} {x0 : ModbusFrame} (hf : Foot.le ⟨[.log, .scan, .net], [.scan, .cmd], false⟩ f) (h : Ev f s x) :
    EvO f s (modbusIn p x0 x) := by
  unfold modbusIn
  repeat' first
    | with_reducible exact h
    | with_reducible assumption
    | with_reducible refine modbusRequest_ev (le_trans' hf rfl) ?_
    | with_reducible refine modbusResponse_ev (le_trans' hf rfl) ?_
    | with_reducible refine evo_next ?_
    | with_reducible refine evo_ite (fun _ => ?_) (fun _ => ?_)
    | with_reducible refine ev_ite (fun _ => ?_) (fun _ => ?_)
    | exact Fin.isLt _
    | omega
    | split

theorem execModbusFrameReceived_ev {p : Fin 2} {x0 : ModbusFrame} (hf : Foot.le ⟨[.log, .scan, .net], [.scan, .net, .cmd], false⟩ f) (h : Ev f s x) :
    EvO f s (execModbusFrameReceived p x0 x) := by
  unfold execModbusFrameReceived
  repeat' first
    | with_reducible exact h
    | with_reducible assumption
    | with_reducible refine arrives_ev (le_trans' hf rfl) (fun y hy => ?_) (fun _ hb => nomatch hb) ?_
    | with_reducible refine modbusIn_ev (le_trans' hf rfl) ?_

theorem execTlsHandshake_ev {ip : Word} {certOk : Bool} (hf : Foot.le ⟨[.log, .cmd], [.cmd], false⟩ f) (h : Ev f s x) :
    EvO f s (execTlsHandshake ip certOk x) := by
  unfold execTlsHandshake
  repeat' first
    | with_reducible exact h
    | with_reducible assumption
    | with_reducible refine setChannel_ev (le_trans' hf rfl) ?_
    | with_reducible refine ev_logEvent (part_mem hf rfl) (block_mem hf rfl) ?_
    | with_reducible refine evo_next ?_
    | with_reducible refine evo_ite (fun _ => ?_) (fun _ => ?_)
    | with_reducible refine ev_ite (fun _ => ?_) (fun _ => ?_)
    | exact reg_block hf .cmd rfl rfl
    | exact Fin.isLt _
    | omega
    | split

theorem execSessionClosed_ev {ch : Fin 21} (hf : Foot.le ⟨[.log, .cmd], [.cmd], false⟩ f) (h : Ev f s x) :
    EvO f s (execSessionClosed ch x) := by
  unfold execSessionClosed
  repeat' first
    | with_reducible exact h
    | with_reducible assumption
    | with_reducible refine resetChannel_ev (le_trans' hf rfl) ?_
    | with_reducible refine evo_next ?_
    | with_reducible refine evo_ite (fun _ => ?_) (fun _ => ?_)

end Sys2Proof.Laws
end

