-- ==== Sys2Proof/Laws/EvRec.lean ====
section
/-! SUPPORT. What each change of Machine/Rec.lean can touch, and that it keeps the state sound: one lemma a function. -/

namespace Sys2Proof.Laws

open Sys2Proof Sys2Proof.Machine Sys2Proof.Safety

variable {f : Foot} {s x : State}

theorem showFill_ev (hf : Foot.le ⟨[], [.recd], false⟩ f) (h : Ev f s x) :
    Ev f s (showFill x) := by
  unfold showFill
  repeat' first
    | with_reducible exact h
    | with_reducible assumption
    | with_reducible refine ev_setF ?_ ?_
    | with_reducible refine ev_ite (fun _ => ?_) (fun _ => ?_)
    | exact reg_block hf .recd rfl rfl

theorem disarmRequest_ev (hf : Foot.le ⟨[.log, .cmd, .recd], [.recd, .cmd], false⟩ f) (h : Ev f s x) :
    Ev f s (disarmRequest x) := by
  unfold disarmRequest
  repeat' first
    | with_reducible exact h
    | with_reducible assumption
    | with_reducible refine recClose_ev (le_trans' hf rfl) ?_
    | with_reducible refine recDisarmed_ev (le_trans' hf rfl) ?_
    | with_reducible refine showFill_ev (le_trans' hf rfl) ?_
    | with_reducible refine ev_ite (fun _ => ?_) (fun _ => ?_)

theorem armDenied_ev {e : Nat × Nat} (hf : Foot.le ⟨[.log], [.recd, .cmd], false⟩ f) (h : Ev f s x) :
    Ev f s (armDenied e x) := by
  unfold armDenied
  repeat' first
    | with_reducible exact h
    | with_reducible assumption
    | with_reducible refine ev_setF ?_ ?_
    | with_reducible refine ev_logN (part_mem hf rfl) (block_mem hf rfl) ?_
    | with_reducible refine ev_ite (fun _ => ?_) (fun _ => ?_)
    | exact reg_block hf .recd rfl rfl

theorem showCap_ev (hf : Foot.le ⟨[], [.recd], false⟩ f) (h : Ev f s x) :
    Ev f s (showCap x) := by
  unfold showCap
  repeat' first
    | with_reducible exact h
    | with_reducible assumption
    | with_reducible refine ev_wr ?_ ?_
    | with_reducible refine ev_ite (fun _ => ?_) (fun _ => ?_)
    | exact reg_block hf .recd rfl rfl

theorem armNow_ev {src : Nat} {op : Option (Fin 16)} (hf : Foot.le ⟨[.log, .recd], [.recd, .cmd], false⟩ f) (h : Ev f s x) :
    Ev f s (armNow src op x) := by
  unfold armNow
  repeat' first
    | with_reducible exact h
    | with_reducible assumption
    | with_reducible refine clearPlan_ev (le_trans' hf rfl) ?_
    | with_reducible refine setRec_ev (le_trans' hf rfl) ?_
    | with_reducible refine setRecState_ev (le_trans' hf rfl) ?_
    | with_reducible refine showCap_ev (le_trans' hf rfl) ?_
    | with_reducible refine showFill_ev (le_trans' hf rfl) ?_
    | with_reducible refine ev_setF ?_ ?_
    | with_reducible refine ev_logEvent (part_mem hf rfl) (block_mem hf rfl) ?_
    | with_reducible refine ev_ite (fun _ => ?_) (fun _ => ?_)
    | exact reg_block hf .recd rfl rfl

theorem armByRegister_ev (hf : Foot.le ⟨[.log, .recd], [.recd, .cmd], false⟩ f) (h : Ev f s x) :
    Ev f s (armByRegister x) := by
  unfold armByRegister
  repeat' first
    | with_reducible exact h
    | with_reducible assumption
    | with_reducible refine armDenied_ev (le_trans' hf rfl) ?_
    | with_reducible refine armNow_ev (le_trans' hf rfl) ?_
    | with_reducible refine ev_ite (fun _ => ?_) (fun _ => ?_)
    | exact Fin.isLt _
    | omega
    | split

theorem writeRecCtrl_ev {v : Word} (hf : Foot.le ⟨[.log, .cmd, .recd], [.recd, .cmd], false⟩ f) (h : Ev f s x) :
    Ev f s (writeRecCtrl v x) := by
  unfold writeRecCtrl
  repeat' first
    | with_reducible exact h
    | with_reducible assumption
    | with_reducible refine armByRegister_ev (le_trans' hf rfl) ?_
    | with_reducible refine disarmRequest_ev (le_trans' hf rfl) ?_
    | with_reducible refine recTrigNow_ev (le_trans' hf rfl) ?_
    | with_reducible refine ev_whenS (fun hc y hy => ?_) ?_

theorem exportDone_ev {n : Fin 16} (hf : Foot.le ⟨[.fresh, .log, .cmd, .recd], [.cmd], false⟩ f) (h : Ev f s x) :
    Ev f s (exportDone n x) := by
  unfold exportDone
  repeat' first
    | with_reducible exact h
    | with_reducible assumption
    | with_reducible refine endOp_ev (le_trans' hf rfl) ?_
    | with_reducible refine setRec_ev (le_trans' hf rfl) ?_
    | refine ev_snd (by assumption) ?_
    | with_reducible refine ev_takeFree (part_mem hf rfl) ?_
    | with_reducible refine ev_ite (fun _ => ?_) (fun _ => ?_)
    | exact Fin.isLt _
    | omega
    | split

theorem mapRecord_ev {n : Word} {f0 : Record → Record} (hf : Foot.le ⟨[.recd], [], false⟩ f) (h : Ev f s x) :
    Ev f s (mapRecord n f0 x) := by
  unfold mapRecord
  repeat' first
    | with_reducible exact h
    | with_reducible assumption
    | with_reducible refine setRec_ev (le_trans' hf rfl) ?_

theorem lockRecord_ev {b : Bool} {n : Word} (hf : Foot.le ⟨[.recd], [], false⟩ f) (h : Ev f s x) :
    Ev f s (lockRecord b n x).2 := by
  unfold lockRecord
  repeat' first
    | with_reducible exact h
    | with_reducible assumption
    | with_reducible refine mapRecord_ev (le_trans' hf rfl) ?_
    | with_reducible refine ev_ite2 (fun _ => ?_) (fun _ => ?_)

theorem showStore_ev (hf : Foot.le ⟨[], [.recd], false⟩ f) (h : Ev f s x) :
    Ev f s (showStore x) := by
  unfold showStore
  repeat' first
    | with_reducible exact h
    | with_reducible assumption
    | with_reducible refine ev_setF ?_ ?_
    | with_reducible refine ev_ite (fun _ => ?_) (fun _ => ?_)
    | exact reg_block hf .recd rfl rfl

theorem deleteRecord_ev {n : Word} (hf : Foot.le ⟨[.recd], [.recd], false⟩ f) (h : Ev f s x) :
    Ev f s (deleteRecord n x).2 := by
  unfold deleteRecord
  repeat' first
    | with_reducible exact h
    | with_reducible assumption
    | with_reducible refine setRec_ev (le_trans' hf rfl) ?_
    | with_reducible refine showStore_ev (le_trans' hf rfl) ?_
    | with_reducible refine ev_ite2 (fun _ => ?_) (fun _ => ?_)

theorem openExport_ev {n : Word} {slot : Fin 16} {ch : Option (Fin 21)} (hf : Foot.le ⟨[.fresh, .cmd], [.cmd], false⟩ f) (h : Ev f s x) :
    Ev f s (openExport n slot ch x).2 := by
  unfold openExport
  repeat' first
    | with_reducible exact h
    | with_reducible assumption
    | with_reducible refine openOp_ev (le_trans' hf rfl) ?_
    | with_reducible refine partHold_ev (le_trans' hf rfl) ?_
    | with_reducible refine startQueuedExport_ev (le_trans' hf rfl) ?_
    | refine ev_snd (by assumption) ?_
    | with_reducible refine ev_whenS (fun hc y hy => ?_) ?_

theorem requestEdge_ev (hf : Foot.le ⟨[.recd], [], false⟩ f) (h : Ev f s x) :
    Ev f s (requestEdge x) := by
  unfold requestEdge
  repeat' first
    | with_reducible exact h
    | with_reducible assumption
    | with_reducible refine recTrigNow_ev (le_trans' hf rfl) ?_
    | with_reducible refine setRec_ev (le_trans' hf rfl) ?_
    | with_reducible refine ev_whenS (fun hc y hy => ?_) ?_

theorem makeRoom_ev {n : Nat} {need : Nat} (hf : Foot.le ⟨[.log, .recd], [.cmd], false⟩ f) (h : Ev f s x) :
    Ev f s (makeRoom n need x).2 := by
  induction n generalizing x with
  | zero => exact h
  | succ n ih =>
    unfold makeRoom
    refine ev_ite2 (fun _ => h) (fun _ => ev_ite2 (fun _ => h) (fun _ => ?_))
    split
    · exact h
    · exact ih (ev_logEvent (part_mem hf rfl) (block_mem hf rfl) (setRec_ev (le_trans' hf rfl) h))

theorem levelStep_ev {at' : Nat} {samples : List (Fin 64 × CapSample)} {l : Fin 8} (hf : Foot.le ⟨[.recd], [], false⟩ f) (h : Ev f s x) :
    Ev f s (levelStep at' samples l x) := by
  unfold levelStep
  repeat' first
    | with_reducible exact h
    | with_reducible assumption
    | with_reducible refine recTrig_ev (le_trans' hf rfl) ?_
    | with_reducible refine setRec_ev (le_trans' hf rfl) ?_
    | with_reducible refine ev_ite (fun _ => ?_) (fun _ => ?_)
    | exact Fin.isLt _
    | omega
    | split
    | dsimp only

theorem addMark_ev {t : RecTrigger} (hf : Foot.le ⟨[.recd], [], false⟩ f) (h : Ev f s x) :
    Ev f s (addMark t x) := by
  unfold addMark
  repeat' first
    | with_reducible exact h
    | with_reducible assumption
    | with_reducible refine setRec_ev (le_trans' hf rfl) ?_
    | with_reducible refine ev_ite (fun _ => ?_) (fun _ => ?_)
    | exact Fin.isLt _
    | omega
    | split

theorem maskViolated_ev {m : Fin 4} {row : Nat} {at' : Nat} (hf : Foot.le ⟨[.log, .recd], [.recd, .cmd], false⟩ f) (h : Ev f s x) :
    Ev f s (maskViolated m row at' x) := by
  unfold maskViolated
  repeat' first
    | with_reducible exact h
    | with_reducible assumption
    | with_reducible refine addMark_ev (le_trans' hf rfl) ?_
    | with_reducible refine recTrig_ev (le_trans' hf rfl) ?_
    | with_reducible refine setRec_ev (le_trans' hf rfl) ?_
    | with_reducible refine ev_setF ?_ ?_
    | with_reducible refine ev_logN (part_mem hf rfl) (block_mem hf rfl) ?_
    | with_reducible refine ev_ite (fun _ => ?_) (fun _ => ?_)
    | with_reducible refine reg_REC_MASK_CFG hf rfl ?_
    | with_reducible refine reg_REC_MASK_POST hf rfl ?_
    | exact reg_block hf .recd rfl rfl

theorem maskStep_ev {ref : Bool} {row : Nat} {at' : Nat} {m : Fin 4} (hf : Foot.le ⟨[.log, .recd], [.recd, .cmd], false⟩ f) (h : Ev f s x) :
    Ev f s (maskStep ref row at' m x) := by
  unfold maskStep
  repeat' first
    | with_reducible exact h
    | with_reducible assumption
    | with_reducible refine maskViolated_ev (le_trans' hf rfl) ?_
    | with_reducible refine setRec_ev (le_trans' hf rfl) ?_
    | with_reducible refine ev_ite (fun _ => ?_) (fun _ => ?_)

theorem foldChanges_ev {upTo : Nat} (hf : Foot.le ⟨[.recd], [], false⟩ f) (h : Ev f s x) :
    Ev f s (foldChanges upTo x) := by
  unfold foldChanges
  repeat' first
    | with_reducible exact h
    | with_reducible assumption
    | with_reducible refine setRec_ev (le_trans' hf rfl) ?_

theorem keepPre_ev {row : RecRow} (hf : Foot.le ⟨[.recd], [], false⟩ f) (h : Ev f s x) :
    Ev f s (keepPre row x) := by
  unfold keepPre
  repeat' first
    | with_reducible exact h
    | with_reducible assumption
    | with_reducible refine foldChanges_ev (le_trans' hf rfl) ?_
    | with_reducible refine setRec_ev (le_trans' hf rfl) ?_
    | with_reducible refine ev_ite (fun _ => ?_) (fun _ => ?_)
    | exact Fin.isLt _
    | omega
    | split
    | dsimp only

theorem startCapture_ev {hits : List RecTrigger} {row : RecRow} (hf : Foot.le ⟨[.log, .cmd, .recd], [.recd, .cmd], false⟩ f) (h : Ev f s x) :
    Ev f s (startCapture hits row x) := by
  unfold startCapture
  repeat' first
    | with_reducible exact h
    | with_reducible assumption
    | with_reducible refine commitOp_ev (le_trans' hf rfl) ?_
    | with_reducible refine foldChanges_ev (le_trans' hf rfl) ?_
    | with_reducible refine partHold_ev (le_trans' hf rfl) ?_
    | with_reducible refine setRec_ev (le_trans' hf rfl) ?_
    | with_reducible refine setRecState_ev (le_trans' hf rfl) ?_
    | with_reducible refine ev_wr64 ?_ ?_ ?_
    | with_reducible refine ev_logEvent (part_mem hf rfl) (block_mem hf rfl) ?_
    | with_reducible refine ev_whenS (fun hc y hy => ?_) ?_
    | with_reducible refine ev_ite (fun _ => ?_) (fun _ => ?_)
    | with_reducible refine reg_REC_ACH hf rfl ?_
    | with_reducible refine reg_REC_BCH hf rfl ?_
    | exact reg_block hf .recd rfl rfl
    | exact reg_block hf .cmd rfl rfl
    | exact Fin.isLt _
    | omega
    | split

theorem takeTriggers_ev {lastQ : Nat} {row : RecRow} (hf : Foot.le ⟨[.log, .cmd, .recd], [.recd, .cmd], false⟩ f) (h : Ev f s x) :
    Ev f s (takeTriggers lastQ row x) := by
  unfold takeTriggers
  repeat' first
    | with_reducible exact h
    | with_reducible assumption
    | with_reducible refine addMark_ev (le_trans' hf rfl) ?_
    | with_reducible refine setRec_ev (le_trans' hf rfl) ?_
    | with_reducible refine startCapture_ev (le_trans' hf rfl) ?_
    | (with_reducible refine ev_forEach_range (fun i hi y hy => ?_) ?_)
    | (with_reducible refine ev_forEach (fun i hi y hy => ?_) ?_)
    | with_reducible refine ev_ite (fun _ => ?_) (fun _ => ?_)

theorem drainRows_ev (hf : Foot.le ⟨[.fresh, .recd], [], false⟩ f) (h : Ev f s x) :
    Ev f s (drainRows x) := by
  unfold drainRows
  repeat' first
    | with_reducible exact h
    | with_reducible assumption
    | with_reducible refine setRec_ev (le_trans' hf rfl) ?_
    | refine ev_snd (by assumption) ?_
    | with_reducible refine ev_takeFree (part_mem hf rfl) ?_

theorem closeShort_ev {cause : Nat} {row : RecRow} (hf : Foot.le ⟨[.recd], [.recd], false⟩ f) (h : Ev f s x) :
    Ev f s (closeShort cause row x) := by
  unfold closeShort
  repeat' first
    | with_reducible exact h
    | with_reducible assumption
    | with_reducible refine recClose_ev (le_trans' hf rfl) ?_
    | with_reducible refine setRec_ev (le_trans' hf rfl) ?_
    | with_reducible refine ev_ite (fun _ => ?_) (fun _ => ?_)
    | exact Fin.isLt _
    | omega
    | split

theorem storePost_ev {row : RecRow} (hf : Foot.le ⟨[.fresh, .log, .recd], [.recd, .cmd], false⟩ f) (h : Ev f s x) :
    Ev f s (storePost row x) := by
  have hroom : Ev f s (if recStream x then makeRoom 256 (openBytes x + rowBytes x) x else (true, x)).2 :=
    ev_ite2 (fun _ => makeRoom_ev (le_trans' hf rfl) h) (fun _ => h)
  unfold storePost
  dsimp only
  revert hroom
  generalize (if recStream x then makeRoom 256 (openBytes x + rowBytes x) x else (true, x)) = room
  intro hroom
  refine ev_ite (fun _ => closeShort_ev (le_trans' hf rfl) h) (fun _ => ?_)
  refine ev_ite (fun _ => closeShort_ev (le_trans' hf rfl) hroom) (fun _ => ?_)
  have hrows := setRec_ev (le_trans' hf rfl) hroom (x0 := { room.2.recd with rows := room.2.recd.rows ++ [row], post := room.2.recd.post + 1 })
  have hd := ev_whenS (c := recStream (setRec { room.2.recd with rows := room.2.recd.rows ++ [row], post := room.2.recd.post + 1 } room.2)) (g := drainRows) (fun _ y hy => drainRows_ev (le_trans' hf rfl) hy) hrows
  revert hd
  generalize whenS _ drainRows _ = z
  intro hd
  exact ev_ite (fun _ => recClose_ev (le_trans' hf rfl) hd) (fun _ => ev_ite (fun _ => recClose_ev (le_trans' hf rfl) hd) (fun _ => hd))

theorem formRow_ev {firstQ : Nat} {lastQ : Nat} (hf : Foot.le ⟨[.fresh, .log, .cmd, .recd], [.recd, .cmd], false⟩ f) (h : Ev f s x) :
    Ev f s (formRow firstQ lastQ x) := by
  unfold formRow
  repeat' first
    | with_reducible exact h
    | with_reducible assumption
    | with_reducible refine keepPre_ev (le_trans' hf rfl) ?_
    | with_reducible refine maskStep_ev (le_trans' hf rfl) ?_
    | with_reducible refine setRec_ev (le_trans' hf rfl) ?_
    | with_reducible refine showFill_ev (le_trans' hf rfl) ?_
    | with_reducible refine showStore_ev (le_trans' hf rfl) ?_
    | with_reducible refine storePost_ev (le_trans' hf rfl) ?_
    | with_reducible refine takeTriggers_ev (le_trans' hf rfl) ?_
    | (with_reducible refine ev_forEach_range (fun i hi y hy => ?_) ?_)
    | (with_reducible refine ev_forEach (fun i hi y hy => ?_) ?_)
    | with_reducible refine ev_ite (fun _ => ?_) (fun _ => ?_)

theorem captureStep_ev {x0 : Vector CapInput 64} (hf : Foot.le ⟨[.fresh, .tai, .ticks, .log, .cmd, .recd], [.recd, .cmd], false⟩ f) (h : Ev f s x) :
    Ev f s (captureStep x0 x) := by
  unfold captureStep
  repeat' first
    | with_reducible exact h
    | with_reducible assumption
    | with_reducible refine formRow_ev (le_trans' hf rfl) ?_
    | with_reducible refine levelStep_ev (le_trans' hf rfl) ?_
    | with_reducible refine setRec_ev (le_trans' hf rfl) ?_
    | with_reducible refine ev_advanceTo (part_mem hf rfl) (part_mem hf rfl) ?_
    | (with_reducible refine ev_forEach_range (fun i hi y hy => ?_) ?_)
    | (with_reducible refine ev_forEach (fun i hi y hy => ?_) ?_)
    | with_reducible refine ev_ite (fun _ => ?_) (fun _ => ?_)

theorem execCaptureSample_ev {x0 : Vector CapInput 64} (hf : Foot.le ⟨[.fresh, .tai, .ticks, .log, .cmd, .recd], [.recd, .cmd], false⟩ f) (h : Ev f s x) :
    EvO f s (execCaptureSample x0 x) := by
  unfold execCaptureSample
  repeat' first
    | with_reducible exact h
    | with_reducible assumption
    | with_reducible refine captureStep_ev (le_trans' hf rfl) ?_
    | with_reducible refine evo_next ?_

theorem execStoredRow_ev {x0 : Vector CapInput 64} (hf : Foot.le ⟨[.fresh, .tai, .ticks, .log, .cmd, .recd], [.recd, .cmd], false⟩ f) (h : Ev f s x) :
    EvO f s (execStoredRow x0 x) := by
  unfold execStoredRow
  repeat' first
    | with_reducible exact h
    | with_reducible assumption
    | with_reducible refine captureStep_ev (le_trans' hf rfl) ?_
    | with_reducible refine ev_whenS (fun hc y hy => ?_) ?_
    | with_reducible refine evo_next ?_

theorem execLevelTrigger_ev {l : Fin 8} {x0 : Vector CapInput 64} (hf : Foot.le ⟨[.fresh, .tai, .ticks, .log, .cmd, .recd], [.recd, .cmd], false⟩ f) (h : Ev f s x) :
    EvO f s (execLevelTrigger l x0 x) := by
  unfold execLevelTrigger
  repeat' first
    | with_reducible exact h
    | with_reducible assumption
    | with_reducible refine captureStep_ev (le_trans' hf rfl) ?_
    | with_reducible refine ev_whenS (fun hc y hy => ?_) ?_
    | with_reducible refine evo_next ?_

theorem execRecMaskViolation_ev {k : Fin 4} {x0 : Vector CapInput 64} (hf : Foot.le ⟨[.fresh, .tai, .ticks, .log, .cmd, .recd], [.recd, .cmd], false⟩ f) (h : Ev f s x) :
    EvO f s (execRecMaskViolation k x0 x) := by
  unfold execRecMaskViolation
  repeat' first
    | with_reducible exact h
    | with_reducible assumption
    | with_reducible refine captureStep_ev (le_trans' hf rfl) ?_
    | with_reducible refine ev_whenS (fun hc y hy => ?_) ?_
    | with_reducible refine evo_next ?_

theorem execRecTriggered_ev {x0 : Vector CapInput 64} (hf : Foot.le ⟨[.fresh, .tai, .ticks, .log, .cmd, .recd], [.recd, .cmd], false⟩ f) (h : Ev f s x) :
    EvO f s (execRecTriggered x0 x) := by
  unfold execRecTriggered
  repeat' first
    | with_reducible exact h
    | with_reducible assumption
    | with_reducible refine captureStep_ev (le_trans' hf rfl) ?_
    | with_reducible refine ev_whenS (fun hc y hy => ?_) ?_
    | with_reducible refine evo_next ?_

theorem loseChange_ev (hf : Foot.le ⟨[.log, .recd], [.recd, .cmd], false⟩ f) (h : Ev f s x) :
    Ev f s (loseChange x) := by
  unfold loseChange
  repeat' first
    | with_reducible exact h
    | with_reducible assumption
    | with_reducible refine setRec_ev (le_trans' hf rfl) ?_
    | with_reducible refine ev_setF ?_ ?_
    | with_reducible refine ev_logEvent (part_mem hf rfl) (block_mem hf rfl) ?_
    | with_reducible refine ev_ite (fun _ => ?_) (fun _ => ?_)
    | exact reg_block hf .recd rfl rfl
    | exact reg_block hf .cmd rfl rfl
    | exact Fin.isLt _
    | omega
    | split

theorem execBinaryChange_ev {b : Fin 256} {at' : BitVec 64} (hf : Foot.le ⟨[.tai, .ticks, .log, .recd], [.recd, .cmd], false⟩ f) (h : Ev f s x) :
    EvO f s (execBinaryChange b at' x) := by
  unfold execBinaryChange
  repeat' first
    | with_reducible exact h
    | with_reducible assumption
    | with_reducible refine loseChange_ev (le_trans' hf rfl) ?_
    | with_reducible refine recTrig_ev (le_trans' hf rfl) ?_
    | with_reducible refine setRec_ev (le_trans' hf rfl) ?_
    | with_reducible refine showFill_ev (le_trans' hf rfl) ?_
    | with_reducible refine ev_reachNs (part_mem hf rfl) (part_mem hf rfl) ?_
    | with_reducible refine ev_whenS (fun hc y hy => ?_) ?_
    | with_reducible refine evo_next ?_
    | with_reducible refine evo_ite (fun _ => ?_) (fun _ => ?_)
    | with_reducible refine ev_ite (fun _ => ?_) (fun _ => ?_)

theorem tryRearm_ev (hf : Foot.le ⟨[.log, .recd], [.recd, .cmd], false⟩ f) (h : Ev f s x) :
    Ev f s (tryRearm x) := by
  unfold tryRearm
  repeat' first
    | with_reducible exact h
    | with_reducible assumption
    | with_reducible refine armNow_ev (le_trans' hf rfl) ?_
    | with_reducible refine ev_setF ?_ ?_
    | with_reducible refine ev_ite (fun _ => ?_) (fun _ => ?_)
    | exact reg_block hf .recd rfl rfl
    | exact Fin.isLt _
    | omega
    | split

theorem noteClosed_ev {r : Record} (hf : Foot.le ⟨[.log], [.recd, .cmd], false⟩ f) (h : Ev f s x) :
    Ev f s (noteClosed r x) := by
  unfold noteClosed
  repeat' first
    | with_reducible exact h
    | with_reducible assumption
    | with_reducible refine ev_wr ?_ ?_
    | with_reducible refine ev_setF ?_ ?_
    | with_reducible refine ev_wr64 ?_ ?_ ?_
    | with_reducible refine ev_logEvent (part_mem hf rfl) (block_mem hf rfl) ?_
    | with_reducible refine ev_whenS (fun hc y hy => ?_) ?_
    | with_reducible refine ev_ite (fun _ => ?_) (fun _ => ?_)
    | exact reg_block hf .recd rfl rfl
    | exact reg_block hf .cmd rfl rfl
    | exact Fin.isLt _
    | omega
    | split

theorem finishLate_ev (hf : Foot.le ⟨[.log, .recd], [.recd, .cmd], false⟩ f) (h : Ev f s x) :
    Ev f s (finishLate x) := by
  unfold finishLate
  repeat' first
    | with_reducible exact h
    | with_reducible assumption
    | with_reducible refine noteClosed_ev (le_trans' hf rfl) ?_
    | with_reducible refine setRec_ev (le_trans' hf rfl) ?_
    | with_reducible refine ev_setF ?_ ?_
    | (with_reducible refine ev_forEach_range (fun i hi y hy => ?_) ?_)
    | (with_reducible refine ev_forEach (fun i hi y hy => ?_) ?_)
    | with_reducible refine ev_whenS (fun hc y hy => ?_) ?_
    | with_reducible refine ev_ite (fun _ => ?_) (fun _ => ?_)
    | exact reg_block hf .recd rfl rfl

theorem recordClosed_ev (hf : Foot.le ⟨[.log, .cmd, .recd], [.recd, .cmd], false⟩ f) (h : Ev f s x) :
    Ev f s (recordClosed x) := by
  unfold recordClosed
  repeat' first
    | with_reducible exact h
    | with_reducible assumption
    | with_reducible refine clearPlan_ev (le_trans' hf rfl) ?_
    | with_reducible refine noteClosed_ev (le_trans' hf rfl) ?_
    | with_reducible refine partHold_ev (le_trans' hf rfl) ?_
    | with_reducible refine setRec_ev (le_trans' hf rfl) ?_
    | with_reducible refine setRecState_ev (le_trans' hf rfl) ?_
    | with_reducible refine showFill_ev (le_trans' hf rfl) ?_
    | with_reducible refine showStore_ev (le_trans' hf rfl) ?_
    | with_reducible refine tryRearm_ev (le_trans' hf rfl) ?_
    | with_reducible refine ev_whenS (fun hc y hy => ?_) ?_
    | with_reducible refine ev_ite (fun _ => ?_) (fun _ => ?_)
    | exact Fin.isLt _
    | omega
    | split

theorem execRecClosed_ev (hf : Foot.le ⟨[.tai, .ticks, .log, .cmd, .recd], [.recd, .cmd], false⟩ f) (h : Ev f s x) :
    EvO f s (execRecClosed x) := by
  unfold execRecClosed
  repeat' first
    | with_reducible exact h
    | with_reducible assumption
    | with_reducible refine recordClosed_ev (le_trans' hf rfl) ?_
    | with_reducible refine ev_reachLocal (part_mem hf rfl) (part_mem hf rfl) ?_
    | with_reducible refine evo_next ?_
    | with_reducible refine evo_ite (fun _ => ?_) (fun _ => ?_)

theorem execRecStored_ev (hf : Foot.le ⟨[.log, .cmd, .recd], [.recd, .cmd], false⟩ f) (h : Ev f s x) :
    EvO f s (execRecStored x) := by
  unfold execRecStored
  split
  · exact evo_next h
  · next r l _ =>
    dsimp only
    have hm : Ev f s (makeRoom 256 r.size (setRec { x.recd with awaiting := l } x)).2 :=
      makeRoom_ev (le_trans' hf rfl) (setRec_ev (le_trans' hf rfl) h)
    revert hm
    generalize makeRoom 256 r.size (setRec { x.recd with awaiting := l } x) = m
    intro hm
    refine evo_ite (fun _ => evo_next (ev_recd (part_mem hf rfl) hm)) (fun _ => evo_next ?_)
    exact showStore_ev (le_trans' hf rfl) (showFill_ev (le_trans' hf rfl) (endOp?_ev (le_trans' hf rfl)
      (ev_logEvent (part_mem hf rfl) (block_mem hf rfl) (setRec_ev (le_trans' hf rfl) hm))))

theorem execRecRearm_ev (hf : Foot.le ⟨[.log, .recd], [.recd, .cmd], false⟩ f) (h : Ev f s x) :
    EvO f s (execRecRearm x) := by
  unfold execRecRearm
  repeat' first
    | with_reducible exact h
    | with_reducible assumption
    | with_reducible refine tryRearm_ev (le_trans' hf rfl) ?_
    | with_reducible refine evo_next ?_
    | with_reducible refine evo_ite (fun _ => ?_) (fun _ => ?_)

end Sys2Proof.Laws
end

