-- ==== Sys2Proof/Laws/EvTrig.lean ====
section
/-! SUPPORT. What each change of Machine/Trig.lean can touch, and that it keeps the state sound: one lemma a function. -/

namespace Sys2Proof.Laws

open Sys2Proof Sys2Proof.Machine Sys2Proof.Safety

variable {f : Foot} {s x : State}

theorem setTrig_ev {n : Fin 8} {x0 : Nat} (hf : Foot.le ⟨[], [.time], false⟩ f) (h : Ev f s x) :
    Ev f s (setTrig n x0 x) := by
  unfold setTrig
  repeat' first
    | with_reducible exact h
    | with_reducible assumption
    | with_reducible refine ev_setF ?_ ?_
    | with_reducible refine ev_ite (fun _ => ?_) (fun _ => ?_)
    | with_reducible refine reg_TIME_TRIG_STATUS hf rfl ?_
    | exact reg_block hf .time rfl rfl
    | exact Fin.isLt _

theorem trigEffect_ev {n : Fin 8} {t : Nat} (hf : Foot.le ⟨[.log, .adc, .loop, .gfm, .recd], [.adc, .ctrl, .gfm, .fio, .cmd], false⟩ f) (h : Ev f s x) :
    Ev f s (trigEffect n t x).2 := by
  unfold trigEffect
  repeat' first
    | with_reducible exact h
    | with_reducible assumption
    | with_reducible refine recTrig_ev (le_trans' hf rfl) ?_
    | with_reducible refine refuseStart_ev (le_trans' hf rfl) ?_
    | with_reducible refine releaseHold_ev (le_trans' hf rfl) ?_
    | with_reducible refine requestStart_ev (le_trans' hf rfl) ?_
    | with_reducible refine runCore_ev (le_trans' hf rfl) ?_
    | (with_reducible refine ev_forEach_range (fun i hi y hy => ?_) ?_)
    | (with_reducible refine ev_forEach (fun i hi y hy => ?_) ?_)
    | with_reducible refine ev_whenS (fun hc y hy => ?_) ?_
    | with_reducible refine ev_ite2 (fun _ => ?_) (fun _ => ?_)
    | with_reducible refine ev_ite (fun _ => ?_) (fun _ => ?_)
    | exact Fin.isLt _
    | omega
    | split

theorem fireTrig_ev {n : Fin 8} (hf : Foot.le ⟨[.log, .adc, .loop, .gfm, .recd], [.time, .adc, .ctrl, .gfm, .fio, .cmd], false⟩ f) (h : Ev f s x) :
    Ev f s (fireTrig n x) := by
  unfold fireTrig
  repeat' first
    | with_reducible exact h
    | with_reducible assumption
    | with_reducible refine releaseHold_ev (le_trans' hf rfl) ?_
    | with_reducible refine setTrig_ev (le_trans' hf rfl) ?_
    | with_reducible refine trigEffect_ev (le_trans' hf rfl) ?_
    | refine ev_snd (by assumption) ?_
    | with_reducible refine ev_setF ?_ ?_
    | with_reducible refine ev_logN (part_mem hf rfl) (block_mem hf rfl) ?_
    | with_reducible refine ev_ite (fun _ => ?_) (fun _ => ?_)
    | with_reducible refine reg_TIME_TRIG_CFG hf rfl ?_
    | with_reducible refine reg_TIME_TRIG_STATUS hf rfl ?_
    | exact reg_block hf .time rfl rfl
    | exact reg_block hf .cmd rfl rfl
    | exact Fin.isLt _

theorem disarmTrig_ev {n : Fin 8} (hf : Foot.le ⟨[.log, .adc, .loop, .gfm, .recd], [.time, .adc, .ctrl, .gfm, .fio, .cmd], false⟩ f) (h : Ev f s x) :
    Ev f s (disarmTrig n x) := by
  unfold disarmTrig
  repeat' first
    | with_reducible exact h
    | with_reducible assumption
    | with_reducible refine fireTrig_ev (le_trans' hf rfl) ?_
    | with_reducible refine releaseHold_ev (le_trans' hf rfl) ?_
    | with_reducible refine setTrig_ev (le_trans' hf rfl) ?_
    | with_reducible refine ev_ite (fun _ => ?_) (fun _ => ?_)

theorem armTrig_ev {n : Fin 8} (hf : Foot.le ⟨[.log], [.time, .cmd], false⟩ f) (h : Ev f s x) :
    Ev f s (armTrig n x) := by
  unfold armTrig
  repeat' first
    | with_reducible exact h
    | with_reducible assumption
    | with_reducible refine setTrig_ev (le_trans' hf rfl) ?_
    | with_reducible refine ev_setF ?_ ?_
    | with_reducible refine ev_logEvent (part_mem hf rfl) (block_mem hf rfl) ?_
    | with_reducible refine ev_ite (fun _ => ?_) (fun _ => ?_)
    | with_reducible refine reg_TIME_TRIG_STATUS hf rfl ?_
    | exact reg_block hf .time rfl rfl
    | exact reg_block hf .cmd rfl rfl
    | exact Fin.isLt _

theorem writeTrigCfg_ev {n : Fin 8} {v : Word} (hf : Foot.le ⟨[.log, .adc, .loop, .gfm, .recd], [.time, .adc, .ctrl, .gfm, .fio, .cmd], false⟩ f) (h : Ev f s x) :
    Ev f s (writeTrigCfg n v x) := by
  unfold writeTrigCfg
  repeat' first
    | with_reducible exact h
    | with_reducible assumption
    | with_reducible refine armTrig_ev (le_trans' hf rfl) ?_
    | with_reducible refine disarmTrig_ev (le_trans' hf rfl) ?_
    | with_reducible refine ev_wr ?_ ?_
    | with_reducible refine ev_ite (fun _ => ?_) (fun _ => ?_)
    | with_reducible refine reg_TIME_TRIG_CFG hf rfl ?_
    | exact reg_block hf .time rfl rfl
    | exact Fin.isLt _

theorem writeTrigTarget_ev {n : Fin 8} {v : BitVec 64} (hf : Foot.le ⟨[], [.time], false⟩ f) (h : Ev f s x) :
    Ev f s (writeTrigTarget n v x) := by
  unfold writeTrigTarget
  repeat' first
    | with_reducible exact h
    | with_reducible assumption
    | with_reducible refine ev_wr64 ?_ ?_ ?_
    | with_reducible refine ev_ite (fun _ => ?_) (fun _ => ?_)
    | with_reducible refine reg_TIME_TRIG_TARGET hf rfl ?_
    | with_reducible refine reg_TIME_TRIG_TARGET_hi hf rfl ?_
    | exact reg_block hf .time rfl rfl
    | exact Fin.isLt _

theorem execTrigFire_ev {n : Fin 8} (hf : Foot.le ⟨[.tai, .ticks, .log, .adc, .loop, .gfm, .recd], [.time, .adc, .ctrl, .gfm, .fio, .cmd], false⟩ f) (h : Ev f s x) :
    EvO f s (execTrigFire n x) := by
  unfold execTrigFire
  repeat' first
    | with_reducible exact h
    | with_reducible assumption
    | with_reducible refine fireTrig_ev (le_trans' hf rfl) ?_
    | with_reducible refine ev_reachNs (part_mem hf rfl) (part_mem hf rfl) ?_
    | with_reducible refine evo_next ?_
    | with_reducible refine evo_ite (fun _ => ?_) (fun _ => ?_)

end Sys2Proof.Laws
end

