-- ==== Sys2Proof/Laws/EvWrite.lean ====
section
/-! SUPPORT. What each change of Machine/Write.lean can touch, and that it keeps the state sound: one lemma a function. -/

namespace Sys2Proof.Laws

open Sys2Proof Sys2Proof.Machine Sys2Proof.Safety

variable {f : Foot} {s x : State}

theorem plainWrite_ev {r : RegSpec} {a : Nat} {v : Word} (hf : Foot.le ⟨[], [], false⟩ f) (ha : Foot.reg f a) (h : Ev f s x) :
    Ev f s (plainWrite r a v x) := by
  unfold plainWrite
  repeat' first
    | with_reducible exact h
    | with_reducible assumption
    | with_reducible refine ev_wr ?_ ?_

theorem writeFab_ev {r : RegSpec} {a : Nat} {v : Word} (hf : Foot.le ⟨[.fab], [.fab], false⟩ f) (hw : 0x4010 ≤ a / 0x10000 ∧ a / 0x10000 ≤ 0x4013) (h : Ev f s x) :
    Ev f s (writeFab r a v x) := by
  unfold writeFab
  exact ev_ite (fun _ => writeShadowCtrl_ev (le_trans' hf rfl) h) (fun _ => ev_ite
    (fun _ => writeIndCtrl_ev (le_trans' hf rfl) h) (fun _ => plainWrite_ev (le_trans' hf rfl) (reg_fab hf rfl hw) h))

theorem writeClk_ev {r : RegSpec} {a : Nat} {v : Word} (hf : Foot.le ⟨[.log, .time], [.clk, .time, .cmd], false⟩ f) (hw : a / 0x10000 = 0x4002) (h : Ev f s x) :
    Ev f s (writeClk r a v x) := by
  unfold writeClk
  repeat' first
    | with_reducible exact h
    | with_reducible assumption
    | with_reducible refine clkErr_ev (le_trans' hf rfl) ?_
    | with_reducible refine plainWrite_ev (le_trans' hf rfl) ?_ ?_
    | with_reducible refine writeCkout_at (le_trans' hf rfl) ?_ ?_
    | with_reducible refine writeMclk_ev (le_trans' hf rfl) ?_
    | with_reducible refine writeRefCfg_ev (le_trans' hf rfl) ?_
    | with_reducible refine ev_ite (fun _ => ?_) (fun _ => ?_)
    | exact reg_at hf 0x4002 .clk rfl rfl hw
    | (simp only [Reg.CLK_CKOUT] at *; omega)

theorem writeTime_ev {r : RegSpec} {a : Nat} {v : Word} (hf : Foot.le ⟨[.tai, .log, .time, .adc, .filt, .loop, .gfm, .scan, .recd, .upd], [.time, .adc, .ctrl, .gfm, .recd, .fio, .cmd], false⟩ f) (hw : a / 0x10000 = 0x4003) (h : Ev f s x) :
    Ev f s (writeTime r a v x) := by
  unfold writeTime
  repeat' first
    | with_reducible exact h
    | with_reducible assumption
    | with_reducible refine plainWrite_ev (le_trans' hf rfl) ?_ ?_
    | with_reducible refine writeTimeStep_ev (le_trans' hf rfl) ?_
    | with_reducible refine writeTrigCfg_ev (le_trans' hf rfl) ?_
    | with_reducible refine ev_ite (fun _ => ?_) (fun _ => ?_)
    | exact reg_at hf 0x4003 .time rfl rfl hw

theorem writeAdc_ev {r : RegSpec} {a : Nat} {v : Word} (hf : Foot.le ⟨[.log, .adc], [.adc, .cmd, .pwm], false⟩ f) (hw : a / 0x10000 = 0x4004) (h : Ev f s x) :
    Ev f s (writeAdc r a v x) := by
  unfold writeAdc
  repeat' first
    | with_reducible exact h
    | with_reducible assumption
    | with_reducible refine plainWrite_ev (le_trans' hf rfl) ?_ ?_
    | with_reducible refine showGates_ev (le_trans' hf rfl) ?_
    | with_reducible refine writeAdcCtrl_ev (le_trans' hf rfl) ?_
    | with_reducible refine writeAdcPeriod_at (le_trans' hf rfl) ?_ ?_
    | with_reducible refine writeAdcStart_at (le_trans' hf rfl) ?_ ?_
    | with_reducible refine writeAinCfg_at (le_trans' hf rfl) ?_ ?_
    | with_reducible refine writeCmpStatus_ev (le_trans' hf rfl) ?_
    | with_reducible refine writeHard_at (le_trans' hf rfl) ?_ ?_
    | with_reducible refine writeModCfg_at (le_trans' hf rfl) ?_ ?_
    | with_reducible refine ev_ite (fun _ => ?_) (fun _ => ?_)
    | exact reg_at hf 0x4004 .adc rfl rfl hw
    | (simp only [Reg.ADC_START] at *; omega)
    | (simp only [Reg.ADC_PERIOD] at *; omega)
    | (simp only [Reg.ADC_AIN_CFG] at *; omega)
    | (simp only [Reg.ADC_HARD] at *; omega)
    | (simp only [Reg.ADC_MOD_CFG] at *; omega)

theorem writeFilt_ev {r : RegSpec} {a : Nat} {v : Word} (hf : Foot.le ⟨[.filt], [.filt], false⟩ f) (hw : a / 0x10000 = 0x4005) (h : Ev f s x) :
    Ev f s (writeFilt r a v x) := by
  unfold writeFilt
  repeat' first
    | with_reducible exact h
    | with_reducible assumption
    | with_reducible refine plainWrite_ev (le_trans' hf rfl) ?_ ?_
    | with_reducible refine writeFiltCfg_ev (le_trans' hf rfl) ?_
    | with_reducible refine ev_ite (fun _ => ?_) (fun _ => ?_)
    | exact reg_at hf 0x4005 .filt rfl rfl hw

theorem roleWrite_ev {act : State → State} (hf : Foot.le ⟨[], [.dpx], false⟩ f) (hact : ∀ y, Ev f s y → Ev f s (act y)) (h : Ev f s x) :
    Ev f s (roleWrite act x) := by
  unfold roleWrite
  repeat' first
    | with_reducible exact h
    | with_reducible assumption
    | with_reducible refine ev_setF ?_ ?_
    | with_reducible refine ev_ite (fun _ => ?_) (fun _ => ?_)
    | exact reg_block hf .dpx rfl rfl
    | with_reducible refine hact _ ?_

theorem writeCtrl_ev {r : RegSpec} {a : Nat} {v : Word} (hf : Foot.le ⟨[.log, .loop, .gfm], [.ctrl, .gfm, .fio, .dpx, .cmd], false⟩ f) (hw : a / 0x10000 = 0x4006) (h : Ev f s x) :
    Ev f s (writeCtrl r a v x) := by
  unfold writeCtrl
  repeat' first
    | with_reducible exact h
    | with_reducible assumption
    | with_reducible refine plainWrite_ev (le_trans' hf rfl) ?_ ?_
    | with_reducible refine roleWrite_ev (le_trans' hf rfl) ?_ ?_
    | with_reducible refine writeBandCfg_ev (le_trans' hf rfl) ?_ ?_
    | with_reducible refine writeCoef_ev (le_trans' hf rfl) ?_ ?_
    | with_reducible refine writeHover_ev (le_trans' hf rfl) ?_
    | with_reducible refine writeLimit_ev (le_trans' hf rfl) ?_ ?_
    | with_reducible refine writeMap_ev (le_trans' hf rfl) ?_ ?_
    | with_reducible refine writeNotch_ev (le_trans' hf rfl) ?_
    | with_reducible refine writePhase_ev (le_trans' hf rfl) ?_
    | with_reducible refine writeProfCfg_ev (le_trans' hf rfl) ?_
    | with_reducible refine writeProfLim_ev (le_trans' hf rfl) ?_ ?_
    | with_reducible refine writeStageCmd_ev (le_trans' hf rfl) ?_
    | with_reducible refine ev_ite (fun _ => ?_) (fun _ => ?_)
    | exact reg_at hf 0x4006 .ctrl rfl rfl hw
    | with_reducible refine reg_CTRL_BAND_CFG hf rfl ?_
    | with_reducible refine reg_CTRL_COEF hf rfl ?_ ?_ ?_
    | with_reducible refine reg_CTRL_HOVER_CFG hf rfl ?_
    | with_reducible refine reg_CTRL_LIMIT hf rfl ?_
    | with_reducible refine reg_CTRL_NOTCH hf rfl ?_ ?_
    | with_reducible refine reg_CTRL_PROF_AMAX hf rfl ?_
    | with_reducible refine reg_CTRL_PROF_CFG hf rfl ?_
    | with_reducible refine reg_CTRL_PROF_JMAX hf rfl ?_
    | with_reducible refine reg_CTRL_PROF_VMAX hf rfl ?_
    | with_reducible refine reg_CTRL_REGION_AXES hf rfl ?_
    | with_reducible refine reg_CTRL_REGION_B01 hf rfl ?_ ?_
    | with_reducible refine reg_CTRL_REGION_B2H hf rfl ?_ ?_
    | with_reducible refine reg_CTRL_STAGE_CMD hf rfl ?_
    | with_reducible refine reg_CTRL_STAGE_PHASE hf rfl ?_
    | exact reg_block hf .ctrl rfl rfl
    | intro n o y hy
    | intro y hy
    | exact Fin.isLt _

theorem writeGfm_ev {r : RegSpec} {a : Nat} {v : Word} (hf : Foot.le ⟨[.log, .loop, .gfm], [.gfm, .fio, .dpx, .cmd], false⟩ f) (hw : a / 0x10000 = 0x4007) (h : Ev f s x) :
    Ev f s (writeGfm r a v x) := by
  have hr : Foot.reg f a := reg_at hf 0x4007 .gfm rfl rfl hw
  have hs : ∀ g : Fin 2, Foot.reg f (Reg.GFM_CFG (2 * g) + (a - Reg.GFM_CFG 0) % 0x200) := fun g =>
    reg_at hf 0x4007 .gfm rfl rfl (by simp only [Reg.GFM_CFG]; omega)
  unfold writeGfm
  repeat' first
    | with_reducible exact h
    | with_reducible assumption
    | with_reducible refine ev_ite (fun _ => ?_) (fun _ => ?_)
    | with_reducible refine writeGfmGroup_ev (le_trans' hf rfl) ?_
    | with_reducible refine writeVfCfg_ev (le_trans' hf rfl) ?_
    | with_reducible refine writeGfmCfg_ev (le_trans' hf rfl) ?_
    | with_reducible refine writeGfmDroop_ev (le_trans' hf rfl) ?_
    | with_reducible refine writeGfmCont_ev (le_trans' hf rfl) ?_
    | with_reducible refine writeGfmSetting_ev (le_trans' hf rfl) (hs _) ?_
    | with_reducible refine plainWrite_ev (le_trans' hf rfl) hr ?_
    | (refine roleWrite_ev (le_trans' hf rfl) (fun y hy => writeGfmCmd_ev (le_trans' hf rfl) hy) ?_)

theorem writeFeeder_ev {r : RegSpec} {a : Nat} {v : Word} (hf : Foot.le ⟨[], [.prot], false⟩ f) (hw : a / 0x10000 = 0x4008) (h : Ev f s x) :
    Ev f s (writeFeeder r a v x) := by
  unfold writeFeeder
  repeat' first
    | with_reducible exact h
    | with_reducible assumption
    | with_reducible refine plainWrite_ev (le_trans' hf rfl) ?_ ?_
    | with_reducible refine writeBfCfg_ev (le_trans' hf rfl) ?_ ?_
    | with_reducible refine writeBfMap_ev (le_trans' hf rfl) ?_ ?_
    | with_reducible refine writeBkrCfg_ev (le_trans' hf rfl) ?_ ?_
    | with_reducible refine writeDir_ev (le_trans' hf rfl) ?_ ?_
    | with_reducible refine writeFdrCfg_ev (le_trans' hf rfl) ?_
    | with_reducible refine writeLmdF_ev (le_trans' hf rfl) ?_ ?_
    | with_reducible refine writeOc_ev (le_trans' hf rfl) ?_
    | with_reducible refine writeOcT_ev (le_trans' hf rfl) ?_
    | with_reducible refine writeReach_ev (le_trans' hf rfl) ?_ ?_
    | with_reducible refine writeTc_ev (le_trans' hf rfl) ?_ ?_
    | with_reducible refine writeTherm_ev (le_trans' hf rfl) ?_
    | with_reducible refine writeTripMap_ev (le_trans' hf rfl) ?_ ?_
    | with_reducible refine writeVf_ev (le_trans' hf rfl) ?_
    | with_reducible refine ev_ite (fun _ => ?_) (fun _ => ?_)
    | exact reg_at hf 0x4008 .prot rfl rfl hw
    | with_reducible refine reg_PROT_BF_CFG hf rfl ?_
    | with_reducible refine reg_PROT_BF_MAP hf rfl ?_
    | with_reducible refine reg_PROT_BKR_CFG hf rfl ?_
    | with_reducible refine reg_PROT_DIR hf rfl ?_
    | with_reducible refine reg_PROT_FDR_CFG hf rfl ?_
    | with_reducible refine reg_PROT_LMD hf rfl ?_
    | with_reducible refine reg_PROT_LMD_REACH hf rfl ?_
    | with_reducible refine reg_PROT_OC hf rfl ?_ ?_
    | with_reducible refine reg_PROT_OC_T hf rfl ?_ ?_
    | with_reducible refine reg_PROT_TC_CFG hf rfl ?_
    | with_reducible refine reg_PROT_THERM hf rfl ?_
    | with_reducible refine reg_PROT_TRIP_MAP hf rfl ?_
    | with_reducible refine reg_PROT_VF hf rfl ?_ ?_
    | exact reg_block hf .prot rfl rfl
    | exact Fin.isLt _

theorem putProt_ev {r : RegSpec} {a : Nat} {v : Word} (hf : Foot.le ⟨[.log, .loop, .prot, .recd], [.prot, .cmd, .pwm], false⟩ f) (hw : a / 0x10000 = 0x4008) (h : Ev f s x) :
    Ev f s (putProt r a v x) := by
  unfold putProt
  repeat' first
    | with_reducible exact h
    | with_reducible assumption
    | with_reducible refine write32_ev (le_trans' hf rfl) ?_
    | with_reducible refine writeBlock_ev (le_trans' hf rfl) ?_
    | with_reducible refine writeCurve_ev (le_trans' hf rfl) ?_ ?_
    | with_reducible refine writeFeeder_ev (le_trans' hf rfl) ?_ ?_
    | with_reducible refine writeLmdCfg_ev (le_trans' hf rfl) ?_
    | with_reducible refine ev_ite (fun _ => ?_) (fun _ => ?_)
    | exact reg_at hf 0x4008 .prot rfl rfl hw
    | with_reducible refine reg_PROT_32 hf rfl ?_
    | with_reducible refine reg_PROT_UCURVE hf rfl ?_ ?_
    | exact reg_block hf .prot rfl rfl
    | exact Fin.isLt _
    | omega

theorem writeProt_ev {r : RegSpec} {a : Nat} {v : Word} (hf : Foot.le ⟨[.log, .loop, .prot, .recd], [.prot, .cmd, .pwm], false⟩ f) (hw : a / 0x10000 = 0x4008) (h : Ev f s x) :
    Ev f s (writeProt r a v x) := by
  unfold writeProt
  repeat' first
    | with_reducible exact h
    | with_reducible assumption
    | with_reducible refine keepForce_ev (le_trans' hf rfl) ?_
    | with_reducible refine putProt_ev (le_trans' hf rfl) ?_ ?_
    | with_reducible refine ev_ite (fun _ => ?_) (fun _ => ?_)

theorem writeRec_ev {r : RegSpec} {a : Nat} {v : Word} (hf : Foot.le ⟨[.log, .cmd, .recd], [.recd, .cmd], false⟩ f) (hw : a / 0x10000 = 0x4009) (h : Ev f s x) :
    Ev f s (writeRec r a v x) := by
  unfold writeRec
  repeat' first
    | with_reducible exact h
    | with_reducible assumption
    | with_reducible refine plainWrite_ev (le_trans' hf rfl) ?_ ?_
    | with_reducible refine showCap_ev (le_trans' hf rfl) ?_
    | with_reducible refine writeRecCtrl_ev (le_trans' hf rfl) ?_
    | with_reducible refine ev_setF ?_ ?_
    | with_reducible refine ev_ite (fun _ => ?_) (fun _ => ?_)
    | exact reg_at hf 0x4009 .recd rfl rfl hw
    | exact reg_block hf .recd rfl rfl

theorem writeScan_ev {r : RegSpec} {a : Nat} {v : Word} (hf : Foot.le ⟨[.log, .scan], [.scan, .dpx, .cmd], false⟩ f) (hw : a / 0x10000 = 0x400A) (h : Ev f s x) :
    Ev f s (writeScan r a v x) := by
  unfold writeScan
  repeat' first
    | with_reducible exact h
    | with_reducible assumption
    | with_reducible refine plainWrite_ev (le_trans' hf rfl) ?_ ?_
    | with_reducible refine roleWrite_ev (le_trans' hf rfl) ?_ ?_
    | with_reducible refine writeScanCtrl_ev (le_trans' hf rfl) ?_
    | with_reducible refine ev_ite (fun _ => ?_) (fun _ => ?_)
    | exact reg_at hf 0x400A .scan rfl rfl hw
    | with_reducible refine reg_SCAN_CTRL hf rfl ?_
    | exact reg_block hf .scan rfl rfl
    | intro n o y hy
    | intro y hy

theorem writeFio_ev {r : RegSpec} {a : Nat} {v : Word} (hf : Foot.le ⟨[.log, .fio], [.fio, .dpx, .cmd], false⟩ f) (hw : a / 0x10000 = 0x400B) (h : Ev f s x) :
    Ev f s (writeFio r a v x) := by
  unfold writeFio
  repeat' first
    | with_reducible exact h
    | with_reducible assumption
    | with_reducible refine plainWrite_ev (le_trans' hf rfl) ?_ ?_
    | with_reducible refine silentWrite_ev (le_trans' hf rfl) ?_
    | with_reducible refine writeDoCfg_at (le_trans' hf rfl) ?_ ?_
    | with_reducible refine writeDoFault_ev (le_trans' hf rfl) ?_
    | with_reducible refine writeGrpCtrl_ev (le_trans' hf rfl) ?_
    | with_reducible refine writeSafeCfg_ev (le_trans' hf rfl) ?_
    | with_reducible refine writeTripCfg_at (le_trans' hf rfl) ?_ ?_
    | with_reducible refine ev_ite (fun _ => ?_) (fun _ => ?_)
    | exact reg_at hf 0x400B .fio rfl rfl hw
    | (simp only [Reg.FIO_DO_CFG] at *; omega)
    | (simp only [Reg.FIO_TRIP_CFG] at *; omega)

theorem writeNet_ev {r : RegSpec} {a : Nat} {v : Word} (hf : Foot.le ⟨[.log, .net], [.net, .cmd], false⟩ f) (hw : a / 0x10000 = 0x400D) (h : Ev f s x) :
    Ev f s (writeNet r a v x) := by
  unfold writeNet
  repeat' first
    | with_reducible exact h
    | with_reducible assumption
    | with_reducible refine netErr_ev (le_trans' hf rfl) ?_
    | with_reducible refine plainWrite_ev (le_trans' hf rfl) ?_ ?_
    | with_reducible refine writeFiCfg_ev (le_trans' hf rfl) ?_
    | with_reducible refine ev_ite (fun _ => ?_) (fun _ => ?_)
    | exact reg_at hf 0x400D .net rfl rfl hw

theorem gateCtrlWrite_ev {v : Word} (hf : Foot.le ⟨[.log, .loop, .recd], [.ctrl, .dpx, .cmd, .pwm], false⟩ f) (h : Ev f s x) :
    Ev f s (gateCtrlWrite v x) := by
  unfold gateCtrlWrite
  repeat' first
    | with_reducible exact h
    | with_reducible assumption
    | with_reducible refine writeGateCtrl_ev (le_trans' hf rfl) ?_
    | with_reducible refine ev_setF ?_ ?_
    | with_reducible refine ev_ite (fun _ => ?_) (fun _ => ?_)
    | exact reg_block hf .dpx rfl rfl

theorem writePwm_ev {r : RegSpec} {a : Nat} {v : Word} (hf : Foot.le ⟨[.log, .loop, .recd], [.ctrl, .dpx, .cmd, .pwm], false⟩ f) (hw : a / 0x10000 = 0x4014) (h : Ev f s x) :
    Ev f s (writePwm r a v x) := by
  unfold writePwm
  repeat' first
    | with_reducible exact h
    | with_reducible assumption
    | with_reducible refine gateCtrlWrite_ev (le_trans' hf rfl) ?_
    | with_reducible refine plainWrite_ev (le_trans' hf rfl) ?_ ?_
    | with_reducible refine writeGdfCfg_ev (le_trans' hf rfl) ?_
    | with_reducible refine writeGdfStatus_ev (le_trans' hf rfl) ?_
    | with_reducible refine writePairCfg_ev (le_trans' hf rfl) ?_
    | with_reducible refine writePairDead_ev (le_trans' hf rfl) ?_ ?_
    | with_reducible refine writePairPeriod_ev (le_trans' hf rfl) ?_ ?_
    | with_reducible refine writePairPhase_ev (le_trans' hf rfl) ?_ ?_
    | with_reducible refine ev_ite (fun _ => ?_) (fun _ => ?_)
    | exact reg_at hf 0x4014 .pwm rfl rfl hw
    | with_reducible refine reg_PWM_PAIR_CFG hf rfl ?_
    | with_reducible refine reg_PWM_PAIR_DEAD hf rfl ?_
    | with_reducible refine reg_PWM_PAIR_PERIOD hf rfl ?_
    | with_reducible refine reg_PWM_PAIR_PHASE hf rfl ?_
    | exact reg_block hf .pwm rfl rfl
    | exact Fin.isLt _

theorem writeBlockReg_ev {r : RegSpec} {a : Nat} {v : Word} (hf : Foot.le ⟨[.tai, .log, .time, .adc, .filt, .loop, .gfm, .prot, .scan, .fio, .cmd, .recd, .net, .upd], [.clk, .time, .adc, .filt, .ctrl, .gfm, .prot, .recd, .scan, .fio, .dpx, .net, .cmd, .pwm], true⟩ f) (h : Ev f s x) :
    Ev f s (writeBlockReg r a v x) := by
  unfold writeBlockReg
  repeat' first
    | with_reducible exact h
    | with_reducible assumption
    | with_reducible refine plainWrite_ev (le_trans' hf rfl) ?_ ?_
    | with_reducible refine writeAdc_ev (le_trans' hf rfl) ?_ ?_
    | with_reducible refine writeClk_ev (le_trans' hf rfl) ?_ ?_
    | with_reducible refine writeCtrl_ev (le_trans' hf rfl) ?_ ?_
    | with_reducible refine writeFilt_ev (le_trans' hf rfl) ?_ ?_
    | with_reducible refine writeFio_ev (le_trans' hf rfl) ?_ ?_
    | with_reducible refine writeGfm_ev (le_trans' hf rfl) ?_ ?_
    | with_reducible refine writeNet_ev (le_trans' hf rfl) ?_ ?_
    | with_reducible refine writeProt_ev (le_trans' hf rfl) ?_ ?_
    | with_reducible refine writePwm_ev (le_trans' hf rfl) ?_ ?_
    | with_reducible refine writeRec_ev (le_trans' hf rfl) ?_ ?_
    | with_reducible refine writeScan_ev (le_trans' hf rfl) ?_ ?_
    | with_reducible refine writeTime_ev (le_trans' hf rfl) ?_ ?_
    | with_reducible refine ev_ite (fun _ => ?_) (fun _ => ?_)
    | exact reg_any hf rfl _
    | exact Fin.isLt _
    | omega
    | split

theorem settingWrite_ev {a : Nat} {v : Word} (hf : Foot.le ⟨[.tai, .log, .time, .adc, .filt, .loop, .gfm, .prot, .scan, .fio, .cmd, .recd, .net, .upd], [.clk, .time, .adc, .filt, .ctrl, .gfm, .prot, .recd, .scan, .fio, .dpx, .net, .cmd, .pwm], true⟩ f) (h : Ev f s x) :
    Ev f s (settingWrite a v x) := by
  unfold settingWrite
  repeat' first
    | with_reducible exact h
    | with_reducible assumption
    | with_reducible refine writeBlockReg_ev (le_trans' hf rfl) ?_
    | with_reducible refine ev_wr ?_ ?_
    | with_reducible refine ev_ite (fun _ => ?_) (fun _ => ?_)
    | exact reg_any hf rfl _
    | exact Fin.isLt _
    | omega
    | split

end Sys2Proof.Laws
end

