-- ==== Sys2Proof/Laws/EvSettings.lean ====
section
/-! SUPPORT. What each change of Machine/Settings.lean can touch, and that it keeps the state sound: one lemma a function. -/

namespace Sys2Proof.Laws

open Sys2Proof Sys2Proof.Machine Sys2Proof.Safety

variable {f : Foot} {s x : State}

theorem setUpd_ev {x0 : UpdState} (hf : Foot.le ⟨[.upd], [], false⟩ f) (h : Ev f s x) :
    Ev f s (setUpd x0 x) := by
  unfold setUpd
  repeat' first
    | with_reducible exact h
    | with_reducible assumption
    | with_reducible refine ev_ite (fun _ => ?_) (fun _ => ?_)
    | exact Fin.isLt _
    | omega
    | split
    | dsimp only
    | with_reducible refine ev_upd (part_mem hf rfl) ?_

theorem showSettings_ev (hf : Foot.le ⟨[], [.upd], false⟩ f) (h : Ev f s x) :
    Ev f s (showSettings x) := by
  unfold showSettings
  repeat' first
    | with_reducible exact h
    | with_reducible assumption
    | with_reducible refine ev_wr ?_ ?_
    | with_reducible refine ev_ite (fun _ => ?_) (fun _ => ?_)
    | exact reg_block hf .upd rfl rfl

theorem storeInPlace_ev {x0 : SettingsSet} (hf : Foot.le ⟨[.upd], [.upd], false⟩ f) (h : Ev f s x) :
    Ev f s (storeInPlace x0 x) := by
  unfold storeInPlace
  repeat' first
    | with_reducible exact h
    | with_reducible assumption
    | with_reducible refine setUpd_ev (le_trans' hf rfl) ?_
    | with_reducible refine showSettings_ev (le_trans' hf rfl) ?_

theorem storeOther_ev {x0 : SettingsSet} (hf : Foot.le ⟨[.upd], [.upd], false⟩ f) (h : Ev f s x) :
    Ev f s (storeOther x0 x) := by
  unfold storeOther
  repeat' first
    | with_reducible exact h
    | with_reducible assumption
    | with_reducible refine setUpd_ev (le_trans' hf rfl) ?_
    | with_reducible refine showSettings_ev (le_trans' hf rfl) ?_

theorem storeWrite_ev {new : List SettingsRecord} (hf : Foot.le ⟨[.upd], [.upd], false⟩ f) (h : Ev f s x) :
    Ev f s (storeWrite new x) := by
  unfold storeWrite
  repeat' first
    | with_reducible exact h
    | with_reducible assumption
    | with_reducible refine storeInPlace_ev (le_trans' hf rfl) ?_
    | with_reducible refine storeOther_ev (le_trans' hf rfl) ?_
    | with_reducible refine ev_ite (fun _ => ?_) (fun _ => ?_)

theorem applyRecords_ev {rs : List SettingsRecord} (hf : Foot.le ⟨[.tai, .log, .time, .adc, .filt, .loop, .gfm, .prot, .scan, .fio, .cmd, .recd, .net, .upd], [.clk, .time, .adc, .filt, .ctrl, .gfm, .prot, .recd, .scan, .fio, .dpx, .net, .cmd, .pwm], true⟩ f) (h : Ev f s x) :
    Ev f s (applyRecords rs x) := by
  unfold applyRecords
  repeat' first
    | with_reducible exact h
    | with_reducible assumption
    | with_reducible refine settingWrite_ev (le_trans' hf rfl) ?_
    | (with_reducible refine ev_forEach_range (fun i hi y hy => ?_) ?_)
    | (with_reducible refine ev_forEach (fun i hi y hy => ?_) ?_)
    | with_reducible refine ev_ite (fun _ => ?_) (fun _ => ?_)
    | exact reg_any hf rfl _
    | exact Fin.isLt _
    | omega
    | split
    | dsimp only
    | with_reducible refine ev_net (part_mem hf rfl) ?_

theorem settingsApplied_ev {rs : List SettingsRecord} (hf : Foot.le ⟨[.tai, .log, .time, .adc, .filt, .loop, .gfm, .prot, .scan, .fio, .cmd, .recd, .net, .upd], [.clk, .time, .adc, .filt, .ctrl, .gfm, .prot, .recd, .scan, .fio, .dpx, .net, .cmd, .pwm], true⟩ f) (h : Ev f s x) :
    Ev f s (settingsApplied rs x) := by
  unfold settingsApplied
  repeat' first
    | with_reducible exact h
    | with_reducible assumption
    | with_reducible refine applyRecords_ev (le_trans' hf rfl) ?_
    | with_reducible refine ev_logEvent (part_mem hf rfl) (block_mem hf rfl) ?_

end Sys2Proof.Laws
end

