-- ==== Sys2Proof/Laws/EvDpx.lean ====
section
/-! SUPPORT. What each change of Machine/Dpx.lean can touch, and that it keeps the state sound: one lemma a function. -/

namespace Sys2Proof.Laws

open Sys2Proof Sys2Proof.Machine Sys2Proof.Safety

variable {f : Foot} {s x : State}

theorem setDpx_ev {n : Nat} (hf : Foot.le ⟨[.log], [.dpx, .cmd], false⟩ f) (h : Ev f s x) :
    Ev f s (setDpx n x) := by
  unfold setDpx
  repeat' first
    | with_reducible exact h
    | with_reducible assumption
    | with_reducible refine ev_setF ?_ ?_
    | with_reducible refine ev_logN (part_mem hf rfl) (block_mem hf rfl) ?_
    | with_reducible refine ev_ite (fun _ => ?_) (fun _ => ?_)
    | exact reg_block hf .dpx rfl rfl

theorem logAbort_ev {cause : Nat} (hf : Foot.le ⟨[.log], [.cmd], false⟩ f) (h : Ev f s x) :
    Ev f s (logAbort cause x) := by
  unfold logAbort
  repeat' first
    | with_reducible exact h
    | with_reducible assumption
    | with_reducible refine ev_logEvent (part_mem hf rfl) (block_mem hf rfl) ?_

theorem switchRequest_ev {op : Option (Fin 16)} (hf : Foot.le ⟨[.log, .dpx], [.dpx, .cmd], false⟩ f) (h : Ev f s x) :
    Ev f s (switchRequest op x).2 := by
  unfold switchRequest
  repeat' first
    | with_reducible exact h
    | with_reducible assumption
    | with_reducible refine logAbort_ev (le_trans' hf rfl) ?_
    | with_reducible refine sendGuy_ev (le_trans' hf rfl) ?_
    | with_reducible refine setDpx_ev (le_trans' hf rfl) ?_
    | with_reducible refine setDpxRec_ev (le_trans' hf rfl) ?_
    | with_reducible refine ev_wr64 ?_ ?_ ?_
    | with_reducible refine ev_ite2 (fun _ => ?_) (fun _ => ?_)
    | with_reducible refine ev_ite (fun _ => ?_) (fun _ => ?_)
    | exact reg_block hf .dpx rfl rfl

theorem abortSwitch_ev {cause : Nat} (hf : Foot.le ⟨[.log, .dpx], [.dpx, .cmd], false⟩ f) (h : Ev f s x) :
    Ev f s (abortSwitch cause x) := by
  unfold abortSwitch
  repeat' first
    | with_reducible exact h
    | with_reducible assumption
    | with_reducible refine logAbort_ev (le_trans' hf rfl) ?_
    | with_reducible refine sendGuy_ev (le_trans' hf rfl) ?_
    | with_reducible refine setDpx_ev (le_trans' hf rfl) ?_
    | with_reducible refine setDpxRec_ev (le_trans' hf rfl) ?_

theorem switchCancelRequest_ev (hf : Foot.le ⟨[.log, .dpx, .cmd], [.dpx, .cmd], false⟩ f) (h : Ev f s x) :
    Ev f s (switchCancelRequest x).2 := by
  unfold switchCancelRequest
  repeat' first
    | with_reducible exact h
    | with_reducible assumption
    | with_reducible refine abortSwitch_ev (le_trans' hf rfl) ?_
    | with_reducible refine endOp?_ev (le_trans' hf rfl) ?_
    | with_reducible refine ev_ite2 (fun _ => ?_) (fun _ => ?_)

theorem driveOwner_ev {b : Bool} (hf : Foot.le ⟨[.loop], [.dpx, .pwm], false⟩ f) (h : Ev f s x) :
    Ev f s (driveOwner b x) := by
  unfold driveOwner
  repeat' first
    | with_reducible exact h
    | with_reducible assumption
    | with_reducible refine setOwner_ev (le_trans' hf rfl) ?_
    | with_reducible refine ev_setF ?_ ?_
    | with_reducible refine ev_ite (fun _ => ?_) (fun _ => ?_)
    | exact reg_block hf .dpx rfl rfl

theorem sayDying_ev {reason : Nat} (hf : Foot.le ⟨[.loop, .dpx], [.dpx, .pwm], false⟩ f) (h : Ev f s x) :
    Ev f s (sayDying reason x) := by
  unfold sayDying
  repeat' first
    | with_reducible exact h
    | with_reducible assumption
    | with_reducible refine driveOwner_ev (le_trans' hf rfl) ?_
    | with_reducible refine sendGuy_ev (le_trans' hf rfl) ?_
    | with_reducible refine ev_ite (fun _ => ?_) (fun _ => ?_)

theorem beginListen_ev (hf : Foot.le ⟨[.log, .loop, .dpx], [.dpx, .cmd, .pwm], false⟩ f) (h : Ev f s x) :
    Ev f s (beginListen x) := by
  unfold beginListen
  repeat' first
    | with_reducible exact h
    | with_reducible assumption
    | with_reducible refine driveOwner_ev (le_trans' hf rfl) ?_
    | with_reducible refine setDpx_ev (le_trans' hf rfl) ?_
    | with_reducible refine setDpxRec_ev (le_trans' hf rfl) ?_

theorem dpxAtReady_ev (hf : Foot.le ⟨[.log, .loop, .dpx], [.dpx, .cmd, .pwm], false⟩ f) (h : Ev f s x) :
    Ev f s (dpxAtReady x) := by
  unfold dpxAtReady
  repeat' first
    | with_reducible exact h
    | with_reducible assumption
    | with_reducible refine beginListen_ev (le_trans' hf rfl) ?_
    | with_reducible refine driveOwner_ev (le_trans' hf rfl) ?_
    | with_reducible refine ev_setF ?_ ?_
    | with_reducible refine ev_ite (fun _ => ?_) (fun _ => ?_)
    | exact reg_block hf .dpx rfl rfl

theorem writeDpxCfg_ev {v : Word} (hf : Foot.le ⟨[.log, .loop, .dpx], [.dpx, .cmd, .pwm], false⟩ f) (h : Ev f s x) :
    Ev f s (writeDpxCfg v x) := by
  unfold writeDpxCfg
  repeat' first
    | with_reducible exact h
    | with_reducible assumption
    | with_reducible refine beginListen_ev (le_trans' hf rfl) ?_
    | with_reducible refine dpxAtReady_ev (le_trans' hf rfl) ?_
    | with_reducible refine setDpx_ev (le_trans' hf rfl) ?_
    | with_reducible refine ev_setF ?_ ?_
    | with_reducible refine ev_ite (fun _ => ?_) (fun _ => ?_)
    | exact reg_block hf .dpx rfl rfl

theorem noteStale_ev {i : Fin 2} (hf : Foot.le ⟨[.log, .dpx], [.dpx, .cmd], false⟩ f) (h : Ev f s x) :
    Ev f s (noteStale i x) := by
  unfold noteStale
  repeat' first
    | with_reducible exact h
    | with_reducible assumption
    | with_reducible refine setDpxRec_ev (le_trans' hf rfl) ?_
    | with_reducible refine ev_setF ?_ ?_
    | with_reducible refine ev_logN (part_mem hf rfl) (block_mem hf rfl) ?_
    | with_reducible refine ev_whenS (fun hc y hy => ?_) ?_
    | with_reducible refine ev_ite (fun _ => ?_) (fun _ => ?_)
    | exact reg_block hf .dpx rfl rfl

theorem takeEpoch_ev {e : Word} (hf : Foot.le ⟨[.dpx], [.dpx], false⟩ f) (h : Ev f s x) :
    Ev f s (takeEpoch e x) := by
  unfold takeEpoch
  repeat' first
    | with_reducible exact h
    | with_reducible assumption
    | with_reducible refine setDpxRec_ev (le_trans' hf rfl) ?_
    | with_reducible refine ev_wr ?_ ?_
    | with_reducible refine ev_ite (fun _ => ?_) (fun _ => ?_)
    | exact reg_block hf .dpx rfl rfl

theorem holdCores_ev (hf : Foot.le ⟨[.log, .scan], [.scan, .cmd], false⟩ f) (h : Ev f s x) :
    Ev f s (holdCores x) := by
  unfold holdCores
  repeat' first
    | with_reducible exact h
    | with_reducible assumption
    | with_reducible refine rescheduleSwap_ev (le_trans' hf rfl) ?_
    | with_reducible refine setScan_ev (le_trans' hf rfl) ?_
    | with_reducible refine setScanMode_ev (le_trans' hf rfl) ?_
    | (with_reducible refine ev_forEach_range (fun i hi y hy => ?_) ?_)
    | (with_reducible refine ev_forEach (fun i hi y hy => ?_) ?_)
    | with_reducible refine ev_ite (fun _ => ?_) (fun _ => ?_)

theorem enterReleased_ev (hf : Foot.le ⟨[.log, .loop, .scan], [.scan, .dpx, .cmd, .pwm], false⟩ f) (h : Ev f s x) :
    Ev f s (enterReleased x) := by
  unfold enterReleased
  repeat' first
    | with_reducible exact h
    | with_reducible assumption
    | with_reducible refine driveOwner_ev (le_trans' hf rfl) ?_
    | with_reducible refine holdCores_ev (le_trans' hf rfl) ?_
    | with_reducible refine setDpx_ev (le_trans' hf rfl) ?_

theorem selfRelease_ev {cause : Nat} (hf : Foot.le ⟨[.log, .loop, .scan], [.scan, .dpx, .cmd, .pwm], false⟩ f) (h : Ev f s x) :
    Ev f s (selfRelease cause x) := by
  unfold selfRelease
  repeat' first
    | with_reducible exact h
    | with_reducible assumption
    | with_reducible refine enterReleased_ev (le_trans' hf rfl) ?_
    | with_reducible refine ev_logEvent (part_mem hf rfl) (block_mem hf rfl) ?_

theorem epochConflict_ev {e : Word} (hf : Foot.le ⟨[.log, .loop, .scan], [.scan, .dpx, .cmd, .pwm], false⟩ f) (h : Ev f s x) :
    Ev f s (epochConflict e x) := by
  unfold epochConflict
  repeat' first
    | with_reducible exact h
    | with_reducible assumption
    | with_reducible refine enterReleased_ev (le_trans' hf rfl) ?_
    | with_reducible refine ev_setF ?_ ?_
    | with_reducible refine ev_logEvent (part_mem hf rfl) (block_mem hf rfl) ?_
    | with_reducible refine ev_ite (fun _ => ?_) (fun _ => ?_)
    | exact reg_block hf .dpx rfl rfl

theorem badCrc_ev {p : Fin 2} (hf : Foot.le ⟨[], [.dpx], false⟩ f) (h : Ev f s x) :
    Ev f s (badCrc p x) := by
  unfold badCrc
  repeat' first
    | with_reducible exact h
    | with_reducible assumption
    | with_reducible refine ev_bumpSat ?_ ?_
    | with_reducible refine ev_ite (fun _ => ?_) (fun _ => ?_)
    | with_reducible refine reg_DPX_PATH_STAT hf rfl ?_
    | exact reg_block hf .dpx rfl rfl
    | exact Fin.isLt _

theorem acceptSeq_ev {ty : Fin 16} {q : Word} (hf : Foot.le ⟨[.dpx], [], false⟩ f) (h : Ev f s x) :
    Ev f s (acceptSeq ty q x) := by
  unfold acceptSeq
  repeat' first
    | with_reducible exact h
    | with_reducible assumption
    | with_reducible refine setDpxRec_ev (le_trans' hf rfl) ?_

theorem receive_ev {ty : Fin 16} {role : Option Nat} {anyEpoch : Bool} {h0 : GuyHeader} {act : State → State} (hf : Foot.le ⟨[.log, .dpx], [.dpx, .cmd], false⟩ f) (hact : ∀ y, Ev f s y → Ev f s (act y)) (h : Ev f s x) :
    Ev f s (receive ty role anyEpoch h0 act x) := by
  unfold receive
  repeat' first
    | with_reducible exact h
    | with_reducible assumption
    | with_reducible refine acceptSeq_ev (le_trans' hf rfl) ?_
    | with_reducible refine badCrc_ev (le_trans' hf rfl) ?_
    | with_reducible refine noteStale_ev (le_trans' hf rfl) ?_
    | with_reducible refine ev_wr ?_ ?_
    | with_reducible refine ev_ite (fun _ => ?_) (fun _ => ?_)
    | exact reg_block hf .dpx rfl rfl
    | with_reducible refine hact _ ?_

theorem addMissed_ev {p : Fin 2} {n : Nat} (hf : Foot.le ⟨[], [.dpx], false⟩ f) (h : Ev f s x) :
    Ev f s (addMissed p n x) := by
  unfold addMissed
  repeat' first
    | with_reducible exact h
    | with_reducible assumption
    | with_reducible refine ev_setF ?_ ?_
    | with_reducible refine ev_ite (fun _ => ?_) (fun _ => ?_)
    | with_reducible refine reg_DPX_PATH_STAT hf rfl ?_
    | exact reg_block hf .dpx rfl rfl
    | exact Fin.isLt _

theorem takeDown_ev {p : Fin 2} {n : Nat} (hf : Foot.le ⟨[.log], [.dpx, .cmd], false⟩ f) (h : Ev f s x) :
    Ev f s (takeDown p n x) := by
  unfold takeDown
  repeat' first
    | with_reducible exact h
    | with_reducible assumption
    | with_reducible refine ev_setF ?_ ?_
    | with_reducible refine ev_setFbit ?_ ?_
    | with_reducible refine ev_logN (part_mem hf rfl) (block_mem hf rfl) ?_
    | with_reducible refine ev_ite (fun _ => ?_) (fun _ => ?_)
    | exact reg_block hf .dpx rfl rfl

theorem pathHeard_ev {p : Fin 2} (hf : Foot.le ⟨[.log, .dpx], [.dpx, .cmd], false⟩ f) (h : Ev f s x) :
    Ev f s (pathHeard p x) := by
  unfold pathHeard
  repeat' first
    | with_reducible exact h
    | with_reducible assumption
    | with_reducible refine addMissed_ev (le_trans' hf rfl) ?_
    | with_reducible refine setDpxRec_ev (le_trans' hf rfl) ?_
    | with_reducible refine takeDown_ev (le_trans' hf rfl) ?_
    | with_reducible refine ev_setFbit ?_ ?_
    | with_reducible refine ev_logN (part_mem hf rfl) (block_mem hf rfl) ?_
    | with_reducible refine ev_ite (fun _ => ?_) (fun _ => ?_)
    | exact reg_block hf .dpx rfl rfl

theorem stagesAllOff_ev (hf : Foot.le ⟨[.log, .loop, .gfm], [.gfm, .fio, .cmd], false⟩ f) (h : Ev f s x) :
    Ev f s (stagesAllOff x) := by
  unfold stagesAllOff
  repeat' first
    | with_reducible exact h
    | with_reducible assumption
    | with_reducible refine setGfmState_ev (le_trans' hf rfl) ?_
    | with_reducible refine setStage_ev (le_trans' hf rfl) ?_
    | (with_reducible refine ev_forEach_range (fun i hi y hy => ?_) ?_)
    | (with_reducible refine ev_forEach (fun i hi y hy => ?_) ?_)
    | with_reducible refine ev_whenS (fun hc y hy => ?_) ?_

theorem stagesReplay_ev (hf : Foot.le ⟨[.dpx], [], false⟩ f) (h : Ev f s x) :
    Ev f s (stagesReplay x) := by
  unfold stagesReplay
  repeat' first
    | with_reducible exact h
    | with_reducible assumption
    | with_reducible refine setDpxRec_ev (le_trans' hf rfl) ?_

theorem coresTakeover_ev (hf : Foot.le ⟨[.scan], [], false⟩ f) (h : Ev f s x) :
    Ev f s (coresTakeover x) := by
  unfold coresTakeover
  repeat' first
    | with_reducible exact h
    | with_reducible assumption
    | with_reducible refine setScan_ev (le_trans' hf rfl) ?_
    | (with_reducible refine ev_forEach_range (fun i hi y hy => ?_) ?_)
    | (with_reducible refine ev_forEach (fun i hi y hy => ?_) ?_)

theorem takeover_ev {src : Nat} {n : Nat} (hf : Foot.le ⟨[.log, .loop, .gfm, .scan, .dpx], [.gfm, .fio, .dpx, .cmd, .pwm], false⟩ f) (h : Ev f s x) :
    Ev f s (takeover src n x) := by
  unfold takeover
  repeat' first
    | with_reducible exact h
    | with_reducible assumption
    | with_reducible refine coresTakeover_ev (le_trans' hf rfl) ?_
    | with_reducible refine driveOwner_ev (le_trans' hf rfl) ?_
    | with_reducible refine setDpx_ev (le_trans' hf rfl) ?_
    | with_reducible refine setDpxRec_ev (le_trans' hf rfl) ?_
    | with_reducible refine stagesAllOff_ev (le_trans' hf rfl) ?_
    | with_reducible refine stagesReplay_ev (le_trans' hf rfl) ?_
    | with_reducible refine takeEpoch_ev (le_trans' hf rfl) ?_
    | with_reducible refine ev_wr64 ?_ ?_ ?_
    | with_reducible refine ev_logEvent (part_mem hf rfl) (block_mem hf rfl) ?_
    | with_reducible refine ev_ite (fun _ => ?_) (fun _ => ?_)
    | exact reg_block hf .dpx rfl rfl

theorem noteMismatch_ev (hf : Foot.le ⟨[.log], [.dpx, .cmd], false⟩ f) (h : Ev f s x) :
    Ev f s (noteMismatch x) := by
  unfold noteMismatch
  repeat' first
    | with_reducible exact h
    | with_reducible assumption
    | with_reducible refine ev_setF ?_ ?_
    | with_reducible refine ev_logEvent (part_mem hf rfl) (block_mem hf rfl) ?_
    | with_reducible refine ev_ite (fun _ => ?_) (fun _ => ?_)
    | exact reg_block hf .dpx rfl rfl

theorem showSynced_ev (hf : Foot.le ⟨[], [.dpx], false⟩ f) (h : Ev f s x) :
    Ev f s (showSynced x) := by
  unfold showSynced
  repeat' first
    | with_reducible exact h
    | with_reducible assumption
    | with_reducible refine ev_setF ?_ ?_
    | with_reducible refine ev_ite (fun _ => ?_) (fun _ => ?_)
    | exact reg_block hf .dpx rfl rfl

theorem checkSynced_ev (hf : Foot.le ⟨[.log], [.dpx, .cmd], false⟩ f) (h : Ev f s x) :
    Ev f s (checkSynced x) := by
  unfold checkSynced
  repeat' first
    | with_reducible exact h
    | with_reducible assumption
    | with_reducible refine noteMismatch_ev (le_trans' hf rfl) ?_
    | with_reducible refine setDpx_ev (le_trans' hf rfl) ?_
    | with_reducible refine showSynced_ev (le_trans' hf rfl) ?_
    | with_reducible refine ev_logN (part_mem hf rfl) (block_mem hf rfl) ?_
    | with_reducible refine ev_whenS (fun hc y hy => ?_) ?_
    | with_reducible refine ev_ite (fun _ => ?_) (fun _ => ?_)

theorem sendSyncReq_ev (hf : Foot.le ⟨[.dpx], [], false⟩ f) (h : Ev f s x) :
    Ev f s (sendSyncReq x) := by
  unfold sendSyncReq
  repeat' first
    | with_reducible exact h
    | with_reducible assumption
    | with_reducible refine sendGuy_ev (le_trans' hf rfl) ?_
    | with_reducible refine setDpxRec_ev (le_trans' hf rfl) ?_

theorem enterSyncing_ev (hf : Foot.le ⟨[.log, .dpx], [.dpx, .cmd], false⟩ f) (h : Ev f s x) :
    Ev f s (enterSyncing x) := by
  unfold enterSyncing
  repeat' first
    | with_reducible exact h
    | with_reducible assumption
    | with_reducible refine sendSyncReq_ev (le_trans' hf rfl) ?_
    | with_reducible refine setDpx_ev (le_trans' hf rfl) ?_
    | with_reducible refine setDpxRec_ev (le_trans' hf rfl) ?_

theorem noteHeartbeat_ev {h0 : GuyHeader} {b : Heartbeat} (hf : Foot.le ⟨[.dpx], [.dpx], false⟩ f) (h : Ev f s x) :
    Ev f s (noteHeartbeat h0 b x) := by
  unfold noteHeartbeat
  repeat' first
    | with_reducible exact h
    | with_reducible assumption
    | with_reducible refine setDpxRec_ev (le_trans' hf rfl) ?_
    | with_reducible refine ev_wr ?_ ?_
    | with_reducible refine ev_setF ?_ ?_
    | with_reducible refine ev_ite (fun _ => ?_) (fun _ => ?_)
    | exact reg_block hf .dpx rfl rfl

theorem adoptHigher_ev {e : Word} (hf : Foot.le ⟨[.dpx], [.dpx], false⟩ f) (h : Ev f s x) :
    Ev f s (adoptHigher e x) := by
  unfold adoptHigher
  repeat' first
    | with_reducible exact h
    | with_reducible assumption
    | with_reducible refine takeEpoch_ev (le_trans' hf rfl) ?_
    | with_reducible refine ev_ite (fun _ => ?_) (fun _ => ?_)

theorem logLost_ev (hf : Foot.le ⟨[.log], [.cmd], false⟩ f) (h : Ev f s x) :
    Ev f s (logLost x) := by
  unfold logLost
  repeat' first
    | with_reducible exact h
    | with_reducible assumption
    | with_reducible refine ev_logN (part_mem hf rfl) (block_mem hf rfl) ?_

theorem carryOn_ev (hf : Foot.le ⟨[.log], [.dpx, .cmd], false⟩ f) (h : Ev f s x) :
    Ev f s (carryOn x) := by
  unfold carryOn
  repeat' first
    | with_reducible exact h
    | with_reducible assumption
    | with_reducible refine logLost_ev (le_trans' hf rfl) ?_
    | with_reducible refine setDpx_ev (le_trans' hf rfl) ?_

theorem heartbeatRows_ev {h0 : GuyHeader} {b : Heartbeat} (hf : Foot.le ⟨[.log, .loop, .gfm, .scan, .dpx], [.gfm, .scan, .fio, .dpx, .cmd, .pwm], false⟩ f) (h : Ev f s x) :
    Ev f s (heartbeatRows h0 b x) := by
  unfold heartbeatRows
  repeat' first
    | with_reducible exact h
    | with_reducible assumption
    | with_reducible refine adoptHigher_ev (le_trans' hf rfl) ?_
    | with_reducible refine carryOn_ev (le_trans' hf rfl) ?_
    | with_reducible refine checkSynced_ev (le_trans' hf rfl) ?_
    | with_reducible refine enterSyncing_ev (le_trans' hf rfl) ?_
    | with_reducible refine epochConflict_ev (le_trans' hf rfl) ?_
    | with_reducible refine setDpx_ev (le_trans' hf rfl) ?_
    | with_reducible refine setDpxRec_ev (le_trans' hf rfl) ?_
    | with_reducible refine takeEpoch_ev (le_trans' hf rfl) ?_
    | with_reducible refine takeover_ev (le_trans' hf rfl) ?_
    | with_reducible refine ev_ite (fun _ => ?_) (fun _ => ?_)

theorem takeHeartbeat_ev {h0 : GuyHeader} {b : Heartbeat} (hf : Foot.le ⟨[.log, .loop, .gfm, .scan, .dpx], [.gfm, .scan, .fio, .dpx, .cmd, .pwm], false⟩ f) (h : Ev f s x) :
    Ev f s (takeHeartbeat h0 b x) := by
  unfold takeHeartbeat
  repeat' first
    | with_reducible exact h
    | with_reducible assumption
    | with_reducible refine heartbeatRows_ev (le_trans' hf rfl) ?_
    | with_reducible refine noteHeartbeat_ev (le_trans' hf rfl) ?_
    | with_reducible refine noteStale_ev (le_trans' hf rfl) ?_
    | with_reducible refine ev_ite (fun _ => ?_) (fun _ => ?_)

theorem freshSequences_ev (hf : Foot.le ⟨[.dpx], [], false⟩ f) (h : Ev f s x) :
    Ev f s (freshSequences x) := by
  unfold freshSequences
  repeat' first
    | with_reducible exact h
    | with_reducible assumption
    | with_reducible refine setDpxRec_ev (le_trans' hf rfl) ?_
    | with_reducible refine ev_ite (fun _ => ?_) (fun _ => ?_)
    | exact Fin.isLt _
    | omega
    | split

theorem rejoinOnPath_ev {was : Bool} {p : Fin 2} (hf : Foot.le ⟨[.log, .dpx], [.dpx, .cmd], false⟩ f) (h : Ev f s x) :
    Ev f s (rejoinOnPath was p x) := by
  unfold rejoinOnPath
  repeat' first
    | with_reducible exact h
    | with_reducible assumption
    | with_reducible refine enterSyncing_ev (le_trans' hf rfl) ?_
    | with_reducible refine ev_ite (fun _ => ?_) (fun _ => ?_)

theorem heard_ev {h0 : GuyHeader} {b : Heartbeat} (hf : Foot.le ⟨[.log, .loop, .gfm, .scan, .dpx], [.gfm, .scan, .fio, .dpx, .cmd, .pwm], false⟩ f) (h : Ev f s x) :
    Ev f s (heard h0 b x) := by
  unfold heard
  repeat' first
    | with_reducible exact h
    | with_reducible assumption
    | with_reducible refine acceptSeq_ev (le_trans' hf rfl) ?_
    | with_reducible refine badCrc_ev (le_trans' hf rfl) ?_
    | with_reducible refine freshSequences_ev (le_trans' hf rfl) ?_
    | with_reducible refine pathHeard_ev (le_trans' hf rfl) ?_
    | with_reducible refine rejoinOnPath_ev (le_trans' hf rfl) ?_
    | with_reducible refine takeHeartbeat_ev (le_trans' hf rfl) ?_
    | with_reducible refine ev_ite (fun _ => ?_) (fun _ => ?_)

theorem heartbeatIn_ev {b : Heartbeat} {h0 : GuyHeader} (hf : Foot.le ⟨[.log, .loop, .gfm, .scan, .dpx], [.gfm, .scan, .fio, .dpx, .cmd, .pwm], false⟩ f) (h : Ev f s x) :
    EvO f s (heartbeatIn b h0 x) := by
  unfold heartbeatIn
  repeat' first
    | with_reducible exact h
    | with_reducible assumption
    | with_reducible refine heard_ev (le_trans' hf rfl) ?_
    | with_reducible refine evo_next ?_

theorem execHeartbeat_ev {h0 : GuyHeader} {b : Heartbeat} (hf : Foot.le ⟨[.log, .loop, .gfm, .scan, .dpx, .net], [.gfm, .scan, .fio, .dpx, .net, .cmd, .pwm], false⟩ f) (h : Ev f s x) :
    EvO f s (execHeartbeat h0 b x) := by
  unfold execHeartbeat
  repeat' first
    | with_reducible exact h
    | with_reducible assumption
    | with_reducible refine guyArrives_ev (le_trans' hf rfl) (fun k y hy => ?_) ?_
    | with_reducible refine heartbeatIn_ev (le_trans' hf rfl) ?_

theorem pathUpIn_ev {b : Heartbeat} {h0 : GuyHeader} (hf : Foot.le ⟨[.log, .loop, .gfm, .scan, .dpx], [.gfm, .scan, .fio, .dpx, .cmd, .pwm], false⟩ f) (h : Ev f s x) :
    EvO f s (pathUpIn b h0 x) := by
  unfold pathUpIn
  repeat' first
    | with_reducible exact h
    | with_reducible assumption
    | with_reducible refine heard_ev (le_trans' hf rfl) ?_
    | with_reducible refine evo_next ?_
    | with_reducible refine evo_ite (fun _ => ?_) (fun _ => ?_)

theorem execPathUp_ev {h0 : GuyHeader} {b : Heartbeat} (hf : Foot.le ⟨[.log, .loop, .gfm, .scan, .dpx, .net], [.gfm, .scan, .fio, .dpx, .net, .cmd, .pwm], false⟩ f) (h : Ev f s x) :
    EvO f s (execPathUp h0 b x) := by
  unfold execPathUp
  repeat' first
    | with_reducible exact h
    | with_reducible assumption
    | with_reducible refine guyArrives_ev (le_trans' hf rfl) (fun k y hy => ?_) ?_
    | with_reducible refine pathUpIn_ev (le_trans' hf rfl) ?_

theorem execPathDown_ev {p : Fin 2} (hf : Foot.le ⟨[.tai, .ticks, .log, .dpx], [.dpx, .cmd], false⟩ f) (h : Ev f s x) :
    EvO f s (execPathDown p x) := by
  unfold execPathDown
  repeat' first
    | with_reducible exact h
    | with_reducible assumption
    | with_reducible refine addMissed_ev (le_trans' hf rfl) ?_
    | with_reducible refine checkSynced_ev (le_trans' hf rfl) ?_
    | with_reducible refine setDpxRec_ev (le_trans' hf rfl) ?_
    | with_reducible refine takeDown_ev (le_trans' hf rfl) ?_
    | with_reducible refine ev_reachLocal (part_mem hf rfl) (part_mem hf rfl) ?_
    | with_reducible refine evo_next ?_
    | with_reducible refine evo_ite (fun _ => ?_) (fun _ => ?_)

theorem execHeartbeatSend_ev {good : Vector Bool 2} (hf : Foot.le ⟨[.tai, .ticks, .log, .loop, .scan, .dpx], [.scan, .dpx, .cmd, .pwm], false⟩ f) (h : Ev f s x) :
    EvO f s (execHeartbeatSend good x) := by
  unfold execHeartbeatSend
  repeat' first
    | with_reducible exact h
    | with_reducible assumption
    | with_reducible refine selfRelease_ev (le_trans' hf rfl) ?_
    | with_reducible refine sendGuy_ev (le_trans' hf rfl) ?_
    | with_reducible refine setDpxRec_ev (le_trans' hf rfl) ?_
    | with_reducible refine ev_reachLocal (part_mem hf rfl) (part_mem hf rfl) ?_
    | with_reducible refine ev_whenS (fun hc y hy => ?_) ?_
    | with_reducible refine evo_next ?_
    | with_reducible refine evo_ite (fun _ => ?_) (fun _ => ?_)

theorem execReleaseTimer_ev (hf : Foot.le ⟨[.tai, .ticks, .log, .loop, .scan], [.scan, .dpx, .cmd, .pwm], false⟩ f) (h : Ev f s x) :
    EvO f s (execReleaseTimer x) := by
  unfold execReleaseTimer
  repeat' first
    | with_reducible exact h
    | with_reducible assumption
    | with_reducible refine selfRelease_ev (le_trans' hf rfl) ?_
    | with_reducible refine ev_reachLocal (part_mem hf rfl) (part_mem hf rfl) ?_
    | with_reducible refine evo_next ?_
    | with_reducible refine evo_ite (fun _ => ?_) (fun _ => ?_)

theorem sendProbe_ev (hf : Foot.le ⟨[.log, .dpx, .net], [.net, .cmd], false⟩ f) (h : Ev f s x) :
    Ev f s (sendProbe x) := by
  unfold sendProbe
  repeat' first
    | with_reducible exact h
    | with_reducible assumption
    | with_reducible refine ownSend_ev (le_trans' hf rfl) ?_
    | with_reducible refine setDpxRec_ev (le_trans' hf rfl) ?_

theorem execPartnerLost_ev (hf : Foot.le ⟨[.tai, .ticks, .log, .dpx, .net], [.dpx, .net, .cmd], false⟩ f) (h : Ev f s x) :
    EvO f s (execPartnerLost x) := by
  unfold execPartnerLost
  repeat' first
    | with_reducible exact h
    | with_reducible assumption
    | with_reducible refine carryOn_ev (le_trans' hf rfl) ?_
    | with_reducible refine logLost_ev (le_trans' hf rfl) ?_
    | with_reducible refine sendProbe_ev (le_trans' hf rfl) ?_
    | with_reducible refine setDpx_ev (le_trans' hf rfl) ?_
    | with_reducible refine setDpxRec_ev (le_trans' hf rfl) ?_
    | with_reducible refine ev_reachLocal (part_mem hf rfl) (part_mem hf rfl) ?_
    | with_reducible refine evo_next ?_
    | with_reducible refine evo_ite (fun _ => ?_) (fun _ => ?_)

theorem execListenTimeout_ev (hf : Foot.le ⟨[.tai, .ticks, .log, .dpx, .net], [.net, .cmd], false⟩ f) (h : Ev f s x) :
    EvO f s (execListenTimeout x) := by
  unfold execListenTimeout
  repeat' first
    | with_reducible exact h
    | with_reducible assumption
    | with_reducible refine sendProbe_ev (le_trans' hf rfl) ?_
    | with_reducible refine ev_reachLocal (part_mem hf rfl) (part_mem hf rfl) ?_
    | with_reducible refine evo_next ?_
    | with_reducible refine evo_ite (fun _ => ?_) (fun _ => ?_)

theorem execDegradedProbe_ev (hf : Foot.le ⟨[.tai, .ticks, .log, .dpx, .net], [.net, .cmd], false⟩ f) (h : Ev f s x) :
    EvO f s (execDegradedProbe x) := by
  unfold execDegradedProbe
  repeat' first
    | with_reducible exact h
    | with_reducible assumption
    | with_reducible refine sendProbe_ev (le_trans' hf rfl) ?_
    | with_reducible refine ev_reachLocal (part_mem hf rfl) (part_mem hf rfl) ?_
    | with_reducible refine evo_next ?_
    | with_reducible refine evo_ite (fun _ => ?_) (fun _ => ?_)

theorem probeIn_ev {mac : BitVec 48} {epoch : Word} (hf : Foot.le ⟨[.log, .loop, .scan, .dpx, .net], [.scan, .dpx, .net, .cmd, .pwm], false⟩ f) (h : Ev f s x) :
    EvO f s (probeIn mac epoch x) := by
  unfold probeIn
  repeat' first
    | with_reducible exact h
    | with_reducible assumption
    | with_reducible refine ownSend_ev (le_trans' hf rfl) ?_
    | with_reducible refine selfRelease_ev (le_trans' hf rfl) ?_
    | with_reducible refine setDpxRec_ev (le_trans' hf rfl) ?_
    | with_reducible refine evo_next ?_
    | with_reducible refine evo_ite (fun _ => ?_) (fun _ => ?_)
    | with_reducible refine ev_ite (fun _ => ?_) (fun _ => ?_)

theorem execProbe_ev {p : Prober} {epoch : Word} (hf : Foot.le ⟨[.log, .loop, .scan, .dpx, .net], [.scan, .dpx, .net, .cmd, .pwm], false⟩ f) (h : Ev f s x) :
    EvO f s (execProbe p epoch x) := by
  unfold execProbe
  repeat' first
    | with_reducible exact h
    | with_reducible assumption
    | with_reducible refine arrives_ev (le_trans' hf rfl) (fun y hy => ?_) (fun _ hb => nomatch hb) ?_
    | with_reducible refine probeIn_ev (le_trans' hf rfl) ?_

theorem answered_ev (hf : Foot.le ⟨[.dpx], [], false⟩ f) (h : Ev f s x) :
    Ev f s (answered x) := by
  unfold answered
  repeat' first
    | with_reducible exact h
    | with_reducible assumption
    | with_reducible refine setDpxRec_ev (le_trans' hf rfl) ?_

theorem degrade_ev (hf : Foot.le ⟨[.log, .dpx], [.dpx, .cmd], false⟩ f) (h : Ev f s x) :
    Ev f s (degrade x) := by
  unfold degrade
  repeat' first
    | with_reducible exact h
    | with_reducible assumption
    | with_reducible refine answered_ev (le_trans' hf rfl) ?_
    | with_reducible refine setDpx_ev (le_trans' hf rfl) ?_

theorem replyRows_ev {r : ProbeReply} (hf : Foot.le ⟨[.log, .loop, .gfm, .scan, .dpx], [.gfm, .fio, .dpx, .cmd, .pwm], false⟩ f) (h : Ev f s x) :
    Ev f s (replyRows r x) := by
  unfold replyRows
  repeat' first
    | with_reducible exact h
    | with_reducible assumption
    | with_reducible refine adoptHigher_ev (le_trans' hf rfl) ?_
    | with_reducible refine answered_ev (le_trans' hf rfl) ?_
    | with_reducible refine degrade_ev (le_trans' hf rfl) ?_
    | with_reducible refine setDpxRec_ev (le_trans' hf rfl) ?_
    | with_reducible refine takeEpoch_ev (le_trans' hf rfl) ?_
    | with_reducible refine takeover_ev (le_trans' hf rfl) ?_
    | with_reducible refine ev_logN (part_mem hf rfl) (block_mem hf rfl) ?_
    | with_reducible refine ev_ite (fun _ => ?_) (fun _ => ?_)

theorem probeReplyIn_ev {r : ProbeReply} (hf : Foot.le ⟨[.log, .loop, .gfm, .scan, .dpx], [.gfm, .scan, .fio, .dpx, .cmd, .pwm], false⟩ f) (h : Ev f s x) :
    EvO f s (probeReplyIn r x) := by
  unfold probeReplyIn
  repeat' first
    | with_reducible exact h
    | with_reducible assumption
    | with_reducible refine epochConflict_ev (le_trans' hf rfl) ?_
    | with_reducible refine replyRows_ev (le_trans' hf rfl) ?_
    | with_reducible refine ev_wr ?_ ?_
    | with_reducible refine ev_setF ?_ ?_
    | with_reducible refine evo_next ?_
    | with_reducible refine evo_ite (fun _ => ?_) (fun _ => ?_)
    | with_reducible refine ev_ite (fun _ => ?_) (fun _ => ?_)
    | exact reg_block hf .dpx rfl rfl
    | exact Fin.isLt _
    | omega
    | split

theorem execProbeReply_ev {r : ProbeReply} (hf : Foot.le ⟨[.log, .loop, .gfm, .scan, .dpx, .net], [.gfm, .scan, .fio, .dpx, .net, .cmd, .pwm], false⟩ f) (h : Ev f s x) :
    EvO f s (execProbeReply r x) := by
  unfold execProbeReply
  repeat' first
    | with_reducible exact h
    | with_reducible assumption
    | with_reducible refine arrives_ev (le_trans' hf rfl) (fun y hy => ?_) (fun _ hb => nomatch hb) ?_
    | with_reducible refine probeReplyIn_ev (le_trans' hf rfl) ?_

theorem execProbeTimeout_ev (hf : Foot.le ⟨[.tai, .ticks, .log, .loop, .gfm, .scan, .dpx], [.gfm, .fio, .dpx, .cmd, .pwm], false⟩ f) (h : Ev f s x) :
    EvO f s (execProbeTimeout x) := by
  unfold execProbeTimeout
  repeat' first
    | with_reducible exact h
    | with_reducible assumption
    | with_reducible refine setDpxRec_ev (le_trans' hf rfl) ?_
    | with_reducible refine takeover_ev (le_trans' hf rfl) ?_
    | with_reducible refine ev_reachLocal (part_mem hf rfl) (part_mem hf rfl) ?_
    | with_reducible refine evo_next ?_
    | with_reducible refine evo_ite (fun _ => ?_) (fun _ => ?_)
    | with_reducible refine ev_ite (fun _ => ?_) (fun _ => ?_)
    | exact Fin.isLt _
    | omega
    | split

theorem dyingRows_ev {h0 : GuyHeader} (hf : Foot.le ⟨[.log, .loop, .gfm, .scan, .dpx], [.gfm, .fio, .dpx, .cmd, .pwm], false⟩ f) (h : Ev f s x) :
    Ev f s (dyingRows h0 x) := by
  unfold dyingRows
  repeat' first
    | with_reducible exact h
    | with_reducible assumption
    | with_reducible refine carryOn_ev (le_trans' hf rfl) ?_
    | with_reducible refine takeover_ev (le_trans' hf rfl) ?_
    | with_reducible refine ev_ite (fun _ => ?_) (fun _ => ?_)

theorem dyingIn_ev {reason : Nat} {h0 : GuyHeader} (hf : Foot.le ⟨[.log, .loop, .gfm, .scan, .dpx], [.gfm, .fio, .dpx, .cmd, .pwm], false⟩ f) (h : Ev f s x) :
    EvO f s (dyingIn reason h0 x) := by
  unfold dyingIn
  repeat' first
    | with_reducible exact h
    | with_reducible assumption
    | with_reducible refine dyingRows_ev (le_trans' hf rfl) ?_
    | with_reducible refine receive_ev (le_trans' hf rfl) ?_ ?_
    | with_reducible refine ev_logEvent (part_mem hf rfl) (block_mem hf rfl) ?_
    | with_reducible refine evo_next ?_
    | with_reducible refine evo_ite (fun _ => ?_) (fun _ => ?_)
    | with_reducible refine ev_ite (fun _ => ?_) (fun _ => ?_)
    | exact reg_block hf .cmd rfl rfl
    | intro n o y hy
    | intro y hy

theorem execDying_ev {h0 : GuyHeader} {reason : Nat} (hf : Foot.le ⟨[.log, .loop, .gfm, .scan, .dpx, .net], [.gfm, .fio, .dpx, .net, .cmd, .pwm], false⟩ f) (h : Ev f s x) :
    EvO f s (execDying h0 reason x) := by
  unfold execDying
  repeat' first
    | with_reducible exact h
    | with_reducible assumption
    | with_reducible refine dyingIn_ev (le_trans' hf rfl) ?_
    | with_reducible refine guyArrives_ev (le_trans' hf rfl) (fun k y hy => ?_) ?_

theorem mirrorIn_ev {x0 : MirrorMsg} {h0 : GuyHeader} (hf : Foot.le ⟨[.log, .dpx], [.dpx, .cmd], false⟩ f) (h : Ev f s x) :
    EvO f s (mirrorIn x0 h0 x) := by
  unfold mirrorIn
  repeat' first
    | with_reducible exact h
    | with_reducible assumption
    | with_reducible refine receive_ev (le_trans' hf rfl) ?_ ?_
    | with_reducible refine setDpxRec_ev (le_trans' hf rfl) ?_
    | with_reducible refine evo_next ?_
    | with_reducible refine evo_ite (fun _ => ?_) (fun _ => ?_)
    | with_reducible refine ev_ite (fun _ => ?_) (fun _ => ?_)
    | intro n o y hy
    | intro y hy

theorem execMirror_ev {h0 : GuyHeader} {x0 : MirrorMsg} (hf : Foot.le ⟨[.log, .dpx, .net], [.dpx, .net, .cmd], false⟩ f) (h : Ev f s x) :
    EvO f s (execMirror h0 x0 x) := by
  unfold execMirror
  repeat' first
    | with_reducible exact h
    | with_reducible assumption
    | with_reducible refine guyArrives_ev (le_trans' hf rfl) (fun k y hy => ?_) ?_
    | with_reducible refine mirrorIn_ev (le_trans' hf rfl) ?_

theorem loadGfm_ev {g : Fin 2} {m : GfmMirror} (hf : Foot.le ⟨[.gfm], [.gfm], false⟩ f) (h : Ev f s x) :
    Ev f s (loadGfm g m x) := by
  unfold loadGfm
  repeat' first
    | with_reducible exact h
    | with_reducible assumption
    | with_reducible refine setGfm_ev (le_trans' hf rfl) ?_
    | with_reducible refine showTimeMode_ev (le_trans' hf rfl) ?_
    | with_reducible refine ev_setF ?_ ?_
    | with_reducible refine ev_ite (fun _ => ?_) (fun _ => ?_)
    | with_reducible refine reg_GFM_STATE hf rfl ?_
    | with_reducible refine reg_GFM_TMODE hf rfl ?_
    | exact reg_block hf .gfm rfl rfl
    | exact Fin.isLt _
    | omega

theorem mirrorGfmIn_ev {x0 : Vector GfmMirror 2} {h0 : GuyHeader} (hf : Foot.le ⟨[.log, .gfm, .dpx], [.gfm, .dpx, .cmd], false⟩ f) (h : Ev f s x) :
    EvO f s (mirrorGfmIn x0 h0 x) := by
  unfold mirrorGfmIn
  repeat' first
    | with_reducible exact h
    | with_reducible assumption
    | with_reducible refine loadGfm_ev (le_trans' hf rfl) ?_
    | with_reducible refine receive_ev (le_trans' hf rfl) ?_ ?_
    | with_reducible refine evo_next ?_
    | with_reducible refine evo_ite (fun _ => ?_) (fun _ => ?_)
    | with_reducible refine ev_ite (fun _ => ?_) (fun _ => ?_)
    | intro n o y hy
    | intro y hy

theorem execMirrorGfm_ev {h0 : GuyHeader} {x0 : Vector GfmMirror 2} (hf : Foot.le ⟨[.log, .gfm, .dpx, .net], [.gfm, .dpx, .net, .cmd], false⟩ f) (h : Ev f s x) :
    EvO f s (execMirrorGfm h0 x0 x) := by
  unfold execMirrorGfm
  repeat' first
    | with_reducible exact h
    | with_reducible assumption
    | with_reducible refine guyArrives_ev (le_trans' hf rfl) (fun k y hy => ?_) ?_
    | with_reducible refine mirrorGfmIn_ev (le_trans' hf rfl) ?_

theorem putRetained_ev {k : Fin 2} {r : RetainedSet} (hf : Foot.le ⟨[.scan], [], false⟩ f) (h : Ev f s x) :
    Ev f s (putRetained k r x) := by
  unfold putRetained
  repeat' first
    | with_reducible exact h
    | with_reducible assumption
    | with_reducible refine setScan_ev (le_trans' hf rfl) ?_

theorem retainIn_ev {x0 : Vector (Option RetainedSet) 2} {h0 : GuyHeader} (hf : Foot.le ⟨[.log, .scan, .dpx], [.dpx, .cmd], false⟩ f) (h : Ev f s x) :
    EvO f s (retainIn x0 h0 x) := by
  unfold retainIn
  repeat' first
    | with_reducible exact h
    | with_reducible assumption
    | with_reducible refine putRetained_ev (le_trans' hf rfl) ?_
    | with_reducible refine receive_ev (le_trans' hf rfl) ?_ ?_
    | (with_reducible refine ev_forEach_range (fun i hi y hy => ?_) ?_)
    | (with_reducible refine ev_forEach (fun i hi y hy => ?_) ?_)
    | with_reducible refine evo_next ?_
    | with_reducible refine evo_ite (fun _ => ?_) (fun _ => ?_)
    | with_reducible refine ev_ite (fun _ => ?_) (fun _ => ?_)
    | intro n o y hy
    | intro y hy
    | exact Fin.isLt _
    | omega
    | split

theorem execRetain_ev {h0 : GuyHeader} {x0 : Vector (Option RetainedSet) 2} (hf : Foot.le ⟨[.log, .scan, .dpx, .net], [.dpx, .net, .cmd], false⟩ f) (h : Ev f s x) :
    EvO f s (execRetain h0 x0 x) := by
  unfold execRetain
  repeat' first
    | with_reducible exact h
    | with_reducible assumption
    | with_reducible refine guyArrives_ev (le_trans' hf rfl) (fun k y hy => ?_) ?_
    | with_reducible refine retainIn_ev (le_trans' hf rfl) ?_

theorem syncReqIn_ev {v : Versions} {h0 : GuyHeader} (hf : Foot.le ⟨[.log, .dpx], [.dpx, .cmd], false⟩ f) (h : Ev f s x) :
    EvO f s (syncReqIn v h0 x) := by
  unfold syncReqIn
  repeat' first
    | with_reducible exact h
    | with_reducible assumption
    | with_reducible refine receive_ev (le_trans' hf rfl) ?_ ?_
    | with_reducible refine sendGuy_ev (le_trans' hf rfl) ?_
    | with_reducible refine setDpxRec_ev (le_trans' hf rfl) ?_
    | with_reducible refine evo_next ?_
    | with_reducible refine evo_ite (fun _ => ?_) (fun _ => ?_)
    | with_reducible refine ev_ite (fun _ => ?_) (fun _ => ?_)
    | intro n o y hy
    | intro y hy

theorem execSyncReq_ev {h0 : GuyHeader} {v : Versions} (hf : Foot.le ⟨[.log, .dpx, .net], [.dpx, .net, .cmd], false⟩ f) (h : Ev f s x) :
    EvO f s (execSyncReq h0 v x) := by
  unfold execSyncReq
  repeat' first
    | with_reducible exact h
    | with_reducible assumption
    | with_reducible refine guyArrives_ev (le_trans' hf rfl) (fun k y hy => ?_) ?_
    | with_reducible refine syncReqIn_ev (le_trans' hf rfl) ?_

theorem compareVersions_ev {v : Versions} (hf : Foot.le ⟨[.log, .dpx], [.cmd], false⟩ f) (h : Ev f s x) :
    Ev f s (compareVersions v x) := by
  unfold compareVersions
  repeat' first
    | with_reducible exact h
    | with_reducible assumption
    | with_reducible refine setDpxRec_ev (le_trans' hf rfl) ?_
    | with_reducible refine ev_logN (part_mem hf rfl) (block_mem hf rfl) ?_
    | with_reducible refine ev_ite (fun _ => ?_) (fun _ => ?_)

theorem takeItem_ev {x0 : SyncItem} (hf : Foot.le ⟨[.tai, .log, .time, .adc, .filt, .loop, .gfm, .prot, .scan, .fio, .dpx, .cmd, .recd, .net, .upd], [.clk, .time, .adc, .filt, .ctrl, .gfm, .prot, .recd, .scan, .fio, .dpx, .net, .cmd, .upd, .pwm], true⟩ f) (h : Ev f s x) :
    Ev f s (takeItem x0 x) := by
  unfold takeItem
  repeat' first
    | with_reducible exact h
    | with_reducible assumption
    | with_reducible refine adoptHigher_ev (le_trans' hf rfl) ?_
    | with_reducible refine applyRecords_ev (le_trans' hf rfl) ?_
    | with_reducible refine putRetained_ev (le_trans' hf rfl) ?_
    | with_reducible refine setDpxRec_ev (le_trans' hf rfl) ?_
    | with_reducible refine setFeeder_ev (le_trans' hf rfl) ?_
    | with_reducible refine storeOther_ev (le_trans' hf rfl) ?_
    | with_reducible refine ev_wr ?_ ?_
    | with_reducible refine ev_ite (fun _ => ?_) (fun _ => ?_)
    | exact reg_any hf rfl _
    | exact Fin.isLt _
    | omega
    | split

theorem syncDataIn_ev {x0 : List SyncItem} {h0 : GuyHeader} (hf : Foot.le ⟨[.tai, .log, .time, .adc, .filt, .loop, .gfm, .prot, .scan, .fio, .dpx, .cmd, .recd, .net, .upd], [.clk, .time, .adc, .filt, .ctrl, .gfm, .prot, .recd, .scan, .fio, .dpx, .net, .cmd, .upd, .pwm], true⟩ f) (h : Ev f s x) :
    EvO f s (syncDataIn x0 h0 x) := by
  unfold syncDataIn
  repeat' first
    | with_reducible exact h
    | with_reducible assumption
    | with_reducible refine compareVersions_ev (le_trans' hf rfl) ?_
    | with_reducible refine receive_ev (le_trans' hf rfl) ?_ ?_
    | with_reducible refine takeItem_ev (le_trans' hf rfl) ?_
    | (with_reducible refine ev_forEach_range (fun i hi y hy => ?_) ?_)
    | (with_reducible refine ev_forEach (fun i hi y hy => ?_) ?_)
    | with_reducible refine evo_next ?_
    | with_reducible refine evo_ite (fun _ => ?_) (fun _ => ?_)
    | with_reducible refine ev_ite (fun _ => ?_) (fun _ => ?_)
    | exact reg_any hf rfl _
    | intro n o y hy
    | intro y hy
    | exact Fin.isLt _
    | omega
    | split
    | dsimp only

theorem execSyncData_ev {h0 : GuyHeader} {x0 : List SyncItem} (hf : Foot.le ⟨[.tai, .log, .time, .adc, .filt, .loop, .gfm, .prot, .scan, .fio, .dpx, .cmd, .recd, .net, .upd], [.clk, .time, .adc, .filt, .ctrl, .gfm, .prot, .recd, .scan, .fio, .dpx, .net, .cmd, .upd, .pwm], true⟩ f) (h : Ev f s x) :
    EvO f s (execSyncData h0 x0 x) := by
  unfold execSyncData
  repeat' first
    | with_reducible exact h
    | with_reducible assumption
    | with_reducible refine guyArrives_ev (le_trans' hf rfl) (fun k y hy => ?_) ?_
    | with_reducible refine syncDataIn_ev (le_trans' hf rfl) ?_

theorem execSyncReqRetry_ev (hf : Foot.le ⟨[.tai, .ticks, .dpx], [], false⟩ f) (h : Ev f s x) :
    EvO f s (execSyncReqRetry x) := by
  unfold execSyncReqRetry
  repeat' first
    | with_reducible exact h
    | with_reducible assumption
    | with_reducible refine sendSyncReq_ev (le_trans' hf rfl) ?_
    | with_reducible refine ev_reachLocal (part_mem hf rfl) (part_mem hf rfl) ?_
    | with_reducible refine evo_next ?_
    | with_reducible refine evo_ite (fun _ => ?_) (fun _ => ?_)

theorem settingsIn_ev {x0 : List SettingsRecord} {frame : BitVec 64} {h0 : GuyHeader} (hf : Foot.le ⟨[.log, .dpx], [.dpx, .cmd], false⟩ f) (h : Ev f s x) :
    EvO f s (settingsIn x0 frame h0 x) := by
  unfold settingsIn
  repeat' first
    | with_reducible exact h
    | with_reducible assumption
    | with_reducible refine receive_ev (le_trans' hf rfl) ?_ ?_
    | with_reducible refine setDpxRec_ev (le_trans' hf rfl) ?_
    | with_reducible refine evo_next ?_
    | with_reducible refine evo_ite (fun _ => ?_) (fun _ => ?_)
    | with_reducible refine ev_ite (fun _ => ?_) (fun _ => ?_)
    | intro n o y hy
    | intro y hy

theorem execSettings_ev {h0 : GuyHeader} {x0 : List SettingsRecord} {frame : BitVec 64} (hf : Foot.le ⟨[.log, .dpx, .net], [.dpx, .net, .cmd], false⟩ f) (h : Ev f s x) :
    EvO f s (execSettings h0 x0 frame x) := by
  unfold execSettings
  repeat' first
    | with_reducible exact h
    | with_reducible assumption
    | with_reducible refine guyArrives_ev (le_trans' hf rfl) (fun k y hy => ?_) ?_
    | with_reducible refine settingsIn_ev (le_trans' hf rfl) ?_

theorem forwardedSettings_ev (hf : Foot.le ⟨[.tai, .log, .time, .adc, .filt, .loop, .gfm, .prot, .scan, .fio, .dpx, .cmd, .recd, .net, .upd], [.clk, .time, .adc, .filt, .ctrl, .gfm, .prot, .recd, .scan, .fio, .dpx, .net, .cmd, .upd, .pwm], true⟩ f) (h : Ev f s x) :
    Ev f s (forwardedSettings x) := by
  unfold forwardedSettings
  repeat' first
    | with_reducible exact h
    | with_reducible assumption
    | with_reducible refine setDpxRec_ev (le_trans' hf rfl) ?_
    | with_reducible refine settingsApplied_ev (le_trans' hf rfl) ?_
    | with_reducible refine storeWrite_ev (le_trans' hf rfl) ?_
    | with_reducible refine ev_ite (fun _ => ?_) (fun _ => ?_)
    | exact reg_any hf rfl _
    | exact Fin.isLt _
    | omega
    | split

theorem execSyncDone_ev (hf : Foot.le ⟨[.log], [.dpx, .cmd], false⟩ f) (h : Ev f s x) :
    EvO f s (execSyncDone x) := by
  unfold execSyncDone
  repeat' first
    | with_reducible exact h
    | with_reducible assumption
    | with_reducible refine setDpx_ev (le_trans' hf rfl) ?_
    | with_reducible refine showSynced_ev (le_trans' hf rfl) ?_
    | with_reducible refine ev_setF ?_ ?_
    | with_reducible refine ev_logN (part_mem hf rfl) (block_mem hf rfl) ?_
    | with_reducible refine evo_next ?_
    | with_reducible refine evo_ite (fun _ => ?_) (fun _ => ?_)
    | with_reducible refine ev_ite (fun _ => ?_) (fun _ => ?_)
    | exact reg_block hf .dpx rfl rfl

theorem execDigestUpdate_ev (hf : Foot.le ⟨[.tai, .ticks, .log, .dpx], [.dpx, .cmd], false⟩ f) (h : Ev f s x) :
    EvO f s (execDigestUpdate x) := by
  unfold execDigestUpdate
  repeat' first
    | with_reducible exact h
    | with_reducible assumption
    | with_reducible refine checkSynced_ev (le_trans' hf rfl) ?_
    | with_reducible refine setDpxRec_ev (le_trans' hf rfl) ?_
    | with_reducible refine ev_wr ?_ ?_
    | with_reducible refine ev_reachLocal (part_mem hf rfl) (part_mem hf rfl) ?_
    | with_reducible refine evo_next ?_
    | with_reducible refine evo_ite (fun _ => ?_) (fun _ => ?_)
    | with_reducible refine ev_ite (fun _ => ?_) (fun _ => ?_)
    | exact reg_block hf .dpx rfl rfl

theorem switchIn_ev {at' : BitVec 64} {h0 : GuyHeader} (hf : Foot.le ⟨[.log, .dpx], [.dpx, .cmd], false⟩ f) (h : Ev f s x) :
    EvO f s (switchIn at' h0 x) := by
  unfold switchIn
  repeat' first
    | with_reducible exact h
    | with_reducible assumption
    | with_reducible refine receive_ev (le_trans' hf rfl) ?_ ?_
    | with_reducible refine sendGuy_ev (le_trans' hf rfl) ?_
    | with_reducible refine setDpxRec_ev (le_trans' hf rfl) ?_
    | with_reducible refine ev_wr64 ?_ ?_ ?_
    | with_reducible refine evo_next ?_
    | with_reducible refine evo_ite (fun _ => ?_) (fun _ => ?_)
    | with_reducible refine ev_ite (fun _ => ?_) (fun _ => ?_)
    | exact reg_block hf .dpx rfl rfl
    | intro n o y hy
    | intro y hy

theorem execSwitch_ev {h0 : GuyHeader} {at' : BitVec 64} (hf : Foot.le ⟨[.log, .dpx, .net], [.dpx, .net, .cmd], false⟩ f) (h : Ev f s x) :
    EvO f s (execSwitch h0 at' x) := by
  unfold execSwitch
  repeat' first
    | with_reducible exact h
    | with_reducible assumption
    | with_reducible refine guyArrives_ev (le_trans' hf rfl) (fun k y hy => ?_) ?_
    | with_reducible refine switchIn_ev (le_trans' hf rfl) ?_

theorem switchAckIn_ev {at' : BitVec 64} {h0 : GuyHeader} (hf : Foot.le ⟨[.log, .dpx], [.dpx, .cmd], false⟩ f) (h : Ev f s x) :
    EvO f s (switchAckIn at' h0 x) := by
  unfold switchAckIn
  repeat' first
    | with_reducible exact h
    | with_reducible assumption
    | with_reducible refine receive_ev (le_trans' hf rfl) ?_ ?_
    | with_reducible refine setDpxRec_ev (le_trans' hf rfl) ?_
    | with_reducible refine evo_next ?_
    | with_reducible refine evo_ite (fun _ => ?_) (fun _ => ?_)
    | with_reducible refine ev_ite (fun _ => ?_) (fun _ => ?_)
    | intro n o y hy
    | intro y hy

theorem execSwitchAck_ev {h0 : GuyHeader} {at' : BitVec 64} (hf : Foot.le ⟨[.log, .dpx, .net], [.dpx, .net, .cmd], false⟩ f) (h : Ev f s x) :
    EvO f s (execSwitchAck h0 at' x) := by
  unfold execSwitchAck
  repeat' first
    | with_reducible exact h
    | with_reducible assumption
    | with_reducible refine guyArrives_ev (le_trans' hf rfl) (fun k y hy => ?_) ?_
    | with_reducible refine switchAckIn_ev (le_trans' hf rfl) ?_

theorem switchCancelIn_ev {at' : BitVec 64} {h0 : GuyHeader} (hf : Foot.le ⟨[.log, .dpx], [.dpx, .cmd], false⟩ f) (h : Ev f s x) :
    EvO f s (switchCancelIn at' h0 x) := by
  unfold switchCancelIn
  repeat' first
    | with_reducible exact h
    | with_reducible assumption
    | with_reducible refine receive_ev (le_trans' hf rfl) ?_ ?_
    | with_reducible refine setDpxRec_ev (le_trans' hf rfl) ?_
    | with_reducible refine evo_next ?_
    | with_reducible refine evo_ite (fun _ => ?_) (fun _ => ?_)
    | with_reducible refine ev_ite (fun _ => ?_) (fun _ => ?_)
    | intro n o y hy
    | intro y hy

theorem execSwitchCancel_ev {h0 : GuyHeader} {at' : BitVec 64} (hf : Foot.le ⟨[.log, .dpx, .net], [.dpx, .net, .cmd], false⟩ f) (h : Ev f s x) :
    EvO f s (execSwitchCancel h0 at' x) := by
  unfold execSwitchCancel
  repeat' first
    | with_reducible exact h
    | with_reducible assumption
    | with_reducible refine guyArrives_ev (le_trans' hf rfl) (fun k y hy => ?_) ?_
    | with_reducible refine switchCancelIn_ev (le_trans' hf rfl) ?_

theorem quiesceCores_ev (hf : Foot.le ⟨[.scan], [], false⟩ f) (h : Ev f s x) :
    Ev f s (quiesceCores x) := by
  unfold quiesceCores
  repeat' first
    | with_reducible exact h
    | with_reducible assumption
    | with_reducible refine makeHeld_ev (le_trans' hf rfl) ?_
    | with_reducible refine setScan_ev (le_trans' hf rfl) ?_
    | (with_reducible refine ev_forEach_range (fun i hi y hy => ?_) ?_)
    | (with_reducible refine ev_forEach (fun i hi y hy => ?_) ?_)

theorem execSwitchDeadline_ev (hf : Foot.le ⟨[.tai, .ticks, .log, .scan, .dpx, .cmd], [.dpx, .cmd], false⟩ f) (h : Ev f s x) :
    EvO f s (execSwitchDeadline x) := by
  unfold execSwitchDeadline
  repeat' first
    | with_reducible exact h
    | with_reducible assumption
    | with_reducible refine abortSwitch_ev (le_trans' hf rfl) ?_
    | with_reducible refine commitBoth_ev (le_trans' hf rfl) ?_
    | with_reducible refine commitOp_ev (le_trans' hf rfl) ?_
    | with_reducible refine endOp?_ev (le_trans' hf rfl) ?_
    | with_reducible refine quiesceCores_ev (le_trans' hf rfl) ?_
    | with_reducible refine sendGuy_ev (le_trans' hf rfl) ?_
    | with_reducible refine setDpxRec_ev (le_trans' hf rfl) ?_
    | with_reducible refine ev_reachNs (part_mem hf rfl) (part_mem hf rfl) ?_
    | with_reducible refine evo_next ?_
    | with_reducible refine evo_ite (fun _ => ?_) (fun _ => ?_)

theorem execSwitchInstant_ev (hf : Foot.le ⟨[.tai, .ticks, .log, .loop, .gfm, .scan, .dpx, .cmd], [.gfm, .scan, .fio, .dpx, .cmd, .pwm], false⟩ f) (h : Ev f s x) :
    EvO f s (execSwitchInstant x) := by
  unfold execSwitchInstant
  repeat' first
    | with_reducible exact h
    | with_reducible assumption
    | with_reducible refine driveOwner_ev (le_trans' hf rfl) ?_
    | with_reducible refine endOp?_ev (le_trans' hf rfl) ?_
    | with_reducible refine holdCores_ev (le_trans' hf rfl) ?_
    | with_reducible refine setDpx_ev (le_trans' hf rfl) ?_
    | with_reducible refine setDpxRec_ev (le_trans' hf rfl) ?_
    | with_reducible refine takeEpoch_ev (le_trans' hf rfl) ?_
    | with_reducible refine takeover_ev (le_trans' hf rfl) ?_
    | with_reducible refine ev_logEvent (part_mem hf rfl) (block_mem hf rfl) ?_
    | with_reducible refine ev_reachNs (part_mem hf rfl) (part_mem hf rfl) ?_
    | with_reducible refine evo_next ?_
    | with_reducible refine evo_ite (fun _ => ?_) (fun _ => ?_)
    | with_reducible refine ev_ite (fun _ => ?_) (fun _ => ?_)
    | exact reg_block hf .cmd rfl rfl
    | exact Fin.isLt _
    | omega
    | split

end Sys2Proof.Laws
end

