-- ==== Sys2Proof/Laws/EvChannel.lean ====
section
/-! SUPPORT. What each change of Machine/Channel.lean can touch, and that it keeps the state sound: one lemma a function. -/

namespace Sys2Proof.Laws

open Sys2Proof Sys2Proof.Machine Sys2Proof.Safety

variable {f : Foot} {s x : State}

theorem memPutList_ev {a : Nat} {l : List Byte} (hf : Foot.le ⟨[.mem], [], false⟩ f) (h : Ev f s x) :
    Ev f s (memPutList x a l) := by
  induction l generalizing x a with
  | nil => exact h
  | cons b l ih => exact ih (ev_memPut (part_mem hf rfl) h)

theorem mailReply_ev {r : Reply} (hf : Foot.le ⟨[.mem, .cmd], [.cmd], false⟩ f) (h : Ev f s x) :
    Ev f s (mailReply r x) := by
  unfold mailReply
  refine ev_setF (reg_block hf .cmd rfl rfl) (ev_setF (reg_block hf .cmd rfl rfl) (ev_setF (reg_block hf .cmd rfl rfl)
    (ev_wr (reg_block hf .cmd rfl rfl) (ev_cmd (part_mem hf rfl) (memPutList_ev (le_trans' hf rfl) h)))))

theorem sendReply_ev {ch : Fin 21} {store : Bool} {r : Reply} (hf : Foot.le ⟨[.mem, .cmd], [.cmd], false⟩ f) (h : Ev f s x) :
    Ev f s (sendReply ch store r x) := by
  unfold sendReply
  repeat' first
    | with_reducible exact h
    | with_reducible assumption
    | with_reducible refine mailReply_ev (le_trans' hf rfl) ?_
    | with_reducible refine setChannel_ev (le_trans' hf rfl) ?_
    | with_reducible refine ev_whenS (fun hc y hy => ?_) ?_

theorem checkFrame_ev {ch : Fin 21} {opcode : Nat} {lengthOk : Bool} {crcOk : Bool} {seq : Word} {go : State → State} (hf : Foot.le ⟨[.mem, .cmd], [.cmd], false⟩ f) (hgo : ∀ y, Ev f s y → Ev f s (go y)) (h : Ev f s x) :
    Ev f s (checkFrame ch opcode lengthOk crcOk seq go x) := by
  unfold checkFrame
  repeat' first
    | with_reducible exact h
    | with_reducible assumption
    | with_reducible refine sendReply_ev (le_trans' hf rfl) ?_
    | with_reducible refine ev_ite (fun _ => ?_) (fun _ => ?_)
    | with_reducible refine hgo _ ?_
    | exact Fin.isLt _
    | omega
    | split

theorem doorbell_ev {n : Nat} (hf : Foot.le ⟨[.mem, .cmd], [.cmd], false⟩ f) (h : Ev f s x) :
    Ev f s (doorbell n x) := by
  unfold doorbell
  repeat' first
    | with_reducible exact h
    | with_reducible assumption
    | with_reducible refine checkFrame_ev (le_trans' hf rfl) ?_ ?_
    | with_reducible refine sendReply_ev (le_trans' hf rfl) ?_
    | with_reducible refine ev_setF ?_ ?_
    | with_reducible refine ev_ite (fun _ => ?_) (fun _ => ?_)
    | exact reg_block hf .cmd rfl rfl
    | intro n o y hy
    | intro y hy
    | exact Fin.isLt _
    | omega
    | split
    | dsimp only
    | with_reducible refine ev_cmd (part_mem hf rfl) ?_

theorem writeCmdCtrl_ev {v : Word} (hf : Foot.le ⟨[.log, .cmd], [.cmd], false⟩ f) (h : Ev f s x) :
    Ev f s (writeCmdCtrl v x) := by
  unfold writeCmdCtrl
  repeat' first
    | with_reducible exact h
    | with_reducible assumption
    | with_reducible refine resetChannel_ev (le_trans' hf rfl) ?_
    | with_reducible refine ev_ite (fun _ => ?_) (fun _ => ?_)

theorem writeEvtSel_ev {v : Word} (hf : Foot.le ⟨[], [.cmd], false⟩ f) (h : Ev f s x) :
    Ev f s (writeEvtSel v x) := by
  unfold writeEvtSel
  repeat' first
    | with_reducible exact h
    | with_reducible assumption
    | with_reducible refine ev_wr ?_ ?_
    | with_reducible refine ev_ite (fun _ => ?_) (fun _ => ?_)
    | with_reducible refine reg_CMD_EVT_ENTRY hf rfl ?_
    | exact reg_block hf .cmd rfl rfl
    | exact Fin.isLt _
    | omega
    | split
    | dsimp only

theorem execChannelIdle_ev {ch : Fin 21} (hf : Foot.le ⟨[.tai, .ticks, .log, .cmd], [.cmd], false⟩ f) (h : Ev f s x) :
    EvO f s (execChannelIdle ch x) := by
  unfold execChannelIdle
  repeat' first
    | with_reducible exact h
    | with_reducible assumption
    | with_reducible refine resetChannel_ev (le_trans' hf rfl) ?_
    | with_reducible refine ev_reachLocal (part_mem hf rfl) (part_mem hf rfl) ?_
    | with_reducible refine evo_next ?_
    | with_reducible refine evo_ite (fun _ => ?_) (fun _ => ?_)

theorem execEvtLost_ev (hf : Foot.le ⟨[.log], [.cmd], false⟩ f) (h : Ev f s x) :
    EvO f s (execEvtLost x) := by
  unfold execEvtLost
  repeat' first
    | with_reducible exact h
    | with_reducible assumption
    | with_reducible refine ev_logN (part_mem hf rfl) (block_mem hf rfl) ?_
    | with_reducible refine evo_next ?_
    | with_reducible refine evo_ite (fun _ => ?_) (fun _ => ?_)
    | with_reducible refine ev_ite (fun _ => ?_) (fun _ => ?_)
    | exact reg_block hf .cmd rfl rfl
    | exact Fin.isLt _
    | omega
    | split
    | dsimp only
    | with_reducible refine ev_log (part_mem hf rfl) ?_ ?_ ?_

theorem execOpExpired_ev {n : Fin 16} (hf : Foot.le ⟨[.tai, .ticks, .cmd], [.cmd], false⟩ f) (h : Ev f s x) :
    EvO f s (execOpExpired n x) := by
  unfold execOpExpired
  repeat' first
    | with_reducible exact h
    | with_reducible assumption
    | with_reducible refine setOper_ev (le_trans' hf rfl) ?_
    | with_reducible refine ev_reachLocal (part_mem hf rfl) (part_mem hf rfl) ?_
    | with_reducible refine evo_next ?_
    | with_reducible refine evo_ite (fun _ => ?_) (fun _ => ?_)
    | with_reducible refine ev_ite (fun _ => ?_) (fun _ => ?_)
    | exact Fin.isLt _
    | omega
    | split

end Sys2Proof.Laws
end

