-- ==== Sys2Proof/Laws/EvReset.lean ====
section
/-! SUPPORT. What each change of Machine/Reset.lean can touch, and that it keeps the state sound: one lemma a function. -/

namespace Sys2Proof.Laws

open Sys2Proof Sys2Proof.Machine Sys2Proof.Safety

variable {f : Foot} {s x : State}

theorem setCause_ev {bit : Nat} (hf : Foot.le ⟨[], [.sys], false⟩ f) (h : Ev f s x) :
    Ev f s (setCause bit x) := by
  unfold setCause
  repeat' first
    | with_reducible exact h
    | with_reducible assumption
    | with_reducible refine ev_wr ?_ ?_
    | with_reducible refine ev_ite (fun _ => ?_) (fun _ => ?_)
    | exact reg_block hf .sys rfl rfl

theorem heldState_ev (hf : Foot.le ⟨[.snap, .busReply, .fab, .time, .adc, .filt, .loop, .gfm, .prot, .scan, .dpx, .cmd, .recd, .net, .upd], [], true⟩ f) (h : Ev f s x) :
    Ev f s (heldState x) := by
  refine ⟨⟨h.keeps.pending, fun p hq => ?_, fun hn => absurd (hf.anyReg rfl) (by simp [hn])⟩, fun hs => ?_⟩
  · have := h.keeps.parts p hq
    cases p <;> first | exact this | exact absurd (part_mem hf rfl) hq
  · have k := h.sound hs
    exact ⟨swf_filter _ _ _ k.regs, k.mem, k.tileMem, k.queue, k.entries⟩

theorem leaveCommissioning_ev (hf : Foot.le ⟨[.log, .net, .upd], [.prot, .net, .cmd, .upd], false⟩ f) (h : Ev f s x) :
    Ev f s (leaveCommissioning x) := by
  unfold leaveCommissioning
  repeat' first
    | with_reducible exact h
    | with_reducible assumption
    | with_reducible refine fiDisarmAll_ev (le_trans' hf rfl) ?_
    | with_reducible refine ev_setF ?_ ?_
    | with_reducible refine ev_wr64 ?_ ?_ ?_
    | with_reducible refine ev_logN (part_mem hf rfl) (block_mem hf rfl) ?_
    | (with_reducible refine ev_forEach_range (fun i hi y hy => ?_) ?_)
    | (with_reducible refine ev_forEach (fun i hi y hy => ?_) ?_)
    | with_reducible refine ev_ite (fun _ => ?_) (fun _ => ?_)
    | with_reducible refine reg_PROT_FDR_STATE hf rfl ?_
    | exact reg_block hf .prot rfl rfl
    | exact reg_block hf .cmd rfl rfl
    | exact reg_block hf .upd rfl rfl
    | exact Fin.isLt _
    | omega
    | split
    | dsimp only
    | with_reducible refine ev_upd (part_mem hf rfl) ?_

theorem setPwr_ev {x0 : PwrState} (hf : Foot.le ⟨[.pwr], [], false⟩ f) (h : Ev f s x) :
    Ev f s (setPwr x0 x) := by
  unfold setPwr
  repeat' first
    | with_reducible exact h
    | with_reducible assumption
    | with_reducible refine ev_ite (fun _ => ?_) (fun _ => ?_)
    | exact Fin.isLt _
    | omega
    | split
    | dsimp only
    | with_reducible refine ev_pwr (part_mem hf rfl) ?_

theorem hold_ev {warm : Bool} (hf : Foot.le ⟨[.snap, .busReply, .log, .fab, .pwr, .time, .adc, .filt, .loop, .gfm, .prot, .scan, .fio, .dpx, .cmd, .recd, .net, .upd], [.pwr, .prot, .net, .cmd, .upd], true⟩ f) (h : Ev f s x) :
    Ev f s (hold warm x) := by
  unfold hold
  repeat' first
    | with_reducible exact h
    | with_reducible assumption
    | with_reducible refine heldState_ev (le_trans' hf rfl) ?_
    | with_reducible refine leaveCommissioning_ev (le_trans' hf rfl) ?_
    | with_reducible refine setPwr_ev (le_trans' hf rfl) ?_
    | with_reducible refine stopLink_ev (le_trans' hf rfl) ?_
    | with_reducible refine ev_setF ?_ ?_
    | with_reducible refine ev_drainAll (part_mem hf rfl) (block_mem hf rfl) ?_
    | with_reducible refine ev_ite (fun _ => ?_) (fun _ => ?_)
    | exact reg_any hf rfl _

theorem resetPart_ev {bit : Option Nat} {warm : Bool} (hf : Foot.le ⟨[.snap, .busReply, .fresh, .log, .fab, .pwr, .time, .adc, .filt, .loop, .gfm, .prot, .scan, .fio, .dpx, .cmd, .recd, .net, .upd], [.sys, .pwr, .prot, .dpx, .net, .cmd, .upd, .pwm], true⟩ f) (h : Ev f s x) :
    Ev f s (resetPart bit warm x) := by
  unfold resetPart
  repeat' first
    | with_reducible exact h
    | with_reducible assumption
    | with_reducible refine commitBoth_ev (le_trans' hf rfl) ?_
    | with_reducible refine hold_ev (le_trans' hf rfl) ?_
    | with_reducible refine sayDying_ev (le_trans' hf rfl) ?_
    | with_reducible refine setCause_ev (le_trans' hf rfl) ?_
    | refine ev_snd (by assumption) ?_
    | with_reducible refine ev_takeFree (part_mem hf rfl) ?_
    | with_reducible refine ev_whenS (fun hc y hy => ?_) ?_
    | with_reducible refine ev_ite (fun _ => ?_) (fun _ => ?_)
    | exact reg_any hf rfl _
    | exact Fin.isLt _
    | omega
    | split

theorem writeResetCtrl_ev {v : Word} (hf : Foot.le ⟨[.snap, .busReply, .fresh, .log, .fab, .pwr, .time, .adc, .filt, .loop, .gfm, .prot, .scan, .fio, .dpx, .cmd, .recd, .net, .upd], [.sys, .pwr, .prot, .dpx, .net, .cmd, .upd, .pwm], true⟩ f) (h : Ev f s x) :
    Ev f s (writeResetCtrl v x) := by
  unfold writeResetCtrl
  repeat' first
    | with_reducible exact h
    | with_reducible assumption
    | with_reducible refine resetPart_ev (le_trans' hf rfl) ?_
    | with_reducible refine ev_ite (fun _ => ?_) (fun _ => ?_)

theorem setRail_ev {n : Fin 2} {x0 : RailState} (hf : Foot.le ⟨[.pwr], [], false⟩ f) (h : Ev f s x) :
    Ev f s (setRail n x0 x) := by
  unfold setRail
  repeat' first
    | with_reducible exact h
    | with_reducible assumption
    | with_reducible refine setPwr_ev (le_trans' hf rfl) ?_
    | with_reducible refine ev_ite (fun _ => ?_) (fun _ => ?_)

theorem railOff_ev {n : Fin 2} (hf : Foot.le ⟨[.pwr], [.pwr], false⟩ f) (h : Ev f s x) :
    Ev f s (railOff n x) := by
  unfold railOff
  repeat' first
    | with_reducible exact h
    | with_reducible assumption
    | with_reducible refine setRail_ev (le_trans' hf rfl) ?_
    | with_reducible refine ev_setFbit ?_ ?_
    | with_reducible refine ev_ite (fun _ => ?_) (fun _ => ?_)
    | exact reg_block hf .pwr rfl rfl

theorem railOn_ev {n : Fin 2} {retries : Nat} (hf : Foot.le ⟨[.pwr], [.pwr], false⟩ f) (h : Ev f s x) :
    Ev f s (railOn n retries x) := by
  unfold railOn
  repeat' first
    | with_reducible exact h
    | with_reducible assumption
    | with_reducible refine setRail_ev (le_trans' hf rfl) ?_
    | with_reducible refine ev_setFbit ?_ ?_
    | with_reducible refine ev_ite (fun _ => ?_) (fun _ => ?_)
    | exact reg_block hf .pwr rfl rfl

theorem writeSensor_ev {v : Word} (hf : Foot.le ⟨[.pwr], [.pwr], false⟩ f) (h : Ev f s x) :
    Ev f s (writeSensor v x) := by
  unfold writeSensor
  repeat' first
    | with_reducible exact h
    | with_reducible assumption
    | with_reducible refine railOff_ev (le_trans' hf rfl) ?_
    | with_reducible refine railOn_ev (le_trans' hf rfl) ?_
    | with_reducible refine setRail_ev (le_trans' hf rfl) ?_
    | with_reducible refine ev_wr ?_ ?_
    | with_reducible refine ev_setFbit ?_ ?_
    | (with_reducible refine ev_forEach_range (fun i hi y hy => ?_) ?_)
    | (with_reducible refine ev_forEach (fun i hi y hy => ?_) ?_)
    | with_reducible refine ev_ite (fun _ => ?_) (fun _ => ?_)
    | exact reg_block hf .pwr rfl rfl

theorem railsOff_ev (hf : Foot.le ⟨[.pwr], [.pwr], false⟩ f) (h : Ev f s x) :
    Ev f s (railsOff x) := by
  unfold railsOff
  repeat' first
    | with_reducible exact h
    | with_reducible assumption
    | with_reducible refine railOff_ev (le_trans' hf rfl) ?_

theorem execCommissioningEnd_ev (hf : Foot.le ⟨[.tai, .ticks, .log, .net, .upd], [.prot, .net, .cmd, .upd], false⟩ f) (h : Ev f s x) :
    EvO f s (execCommissioningEnd x) := by
  unfold execCommissioningEnd
  repeat' first
    | with_reducible exact h
    | with_reducible assumption
    | with_reducible refine leaveCommissioning_ev (le_trans' hf rfl) ?_
    | with_reducible refine ev_reachNs (part_mem hf rfl) (part_mem hf rfl) ?_
    | with_reducible refine ev_reachLocal (part_mem hf rfl) (part_mem hf rfl) ?_
    | with_reducible refine evo_next ?_
    | with_reducible refine evo_ite (fun _ => ?_) (fun _ => ?_)
    | with_reducible refine ev_ite (fun _ => ?_) (fun _ => ?_)
    | exact Fin.isLt _
    | omega
    | split

theorem execResetN_ev {ns : Nat} {taken : Bool} (hf : Foot.le ⟨[.snap, .busReply, .fresh, .log, .fab, .pwr, .time, .adc, .filt, .loop, .gfm, .prot, .scan, .fio, .dpx, .cmd, .recd, .net, .upd], [.sys, .pwr, .prot, .dpx, .net, .cmd, .upd, .pwm], true⟩ f) (h : Ev f s x) :
    EvO f s (execResetN ns taken x) := by
  unfold execResetN
  repeat' first
    | with_reducible exact h
    | with_reducible assumption
    | with_reducible refine resetPart_ev (le_trans' hf rfl) ?_
    | with_reducible refine evo_next ?_
    | with_reducible refine evo_ite (fun _ => ?_) (fun _ => ?_)

theorem execWatchdogExpiry_ev (hf : Foot.le ⟨[.snap, .busReply, .fresh, .log, .fab, .pwr, .time, .adc, .filt, .loop, .gfm, .prot, .scan, .fio, .dpx, .cmd, .recd, .net, .upd], [.sys, .pwr, .prot, .dpx, .net, .cmd, .upd, .pwm], true⟩ f) (h : Ev f s x) :
    EvO f s (execWatchdogExpiry x) := by
  unfold execWatchdogExpiry
  repeat' first
    | with_reducible exact h
    | with_reducible assumption
    | with_reducible refine resetPart_ev (le_trans' hf rfl) ?_
    | with_reducible refine evo_next ?_
    | with_reducible refine evo_ite (fun _ => ?_) (fun _ => ?_)

theorem fatalReset_ev (hf : Foot.le ⟨[.snap, .busReply, .fresh, .log, .fab, .pwr, .time, .adc, .filt, .loop, .gfm, .prot, .scan, .fio, .dpx, .cmd, .recd, .net, .upd], [.sys, .pwr, .prot, .dpx, .net, .cmd, .upd, .pwm], true⟩ f) (h : Ev f s x) :
    Ev f s (fatalReset x) := by
  unfold fatalReset
  repeat' first
    | with_reducible exact h
    | with_reducible assumption
    | with_reducible refine resetPart_ev (le_trans' hf rfl) ?_
    | with_reducible refine setPwr_ev (le_trans' hf rfl) ?_

theorem execFatalFault_ev (hf : Foot.le ⟨[.snap, .busReply, .fresh, .log, .fab, .pwr, .time, .adc, .filt, .loop, .gfm, .prot, .scan, .fio, .dpx, .cmd, .recd, .net, .upd], [.sys, .pwr, .prot, .dpx, .net, .cmd, .upd, .pwm], true⟩ f) (h : Ev f s x) :
    EvO f s (execFatalFault x) := by
  unfold execFatalFault
  repeat' first
    | with_reducible exact h
    | with_reducible assumption
    | with_reducible refine fatalReset_ev (le_trans' hf rfl) ?_
    | with_reducible refine evo_next ?_
    | with_reducible refine evo_ite (fun _ => ?_) (fun _ => ?_)

theorem execVinLow_ev {cv : BitVec 16} (hf : Foot.le ⟨[.log], [.pwr, .cmd], false⟩ f) (h : Ev f s x) :
    EvO f s (execVinLow cv x) := by
  unfold execVinLow
  repeat' first
    | with_reducible exact h
    | with_reducible assumption
    | with_reducible refine ev_setF ?_ ?_
    | with_reducible refine ev_logN (part_mem hf rfl) (block_mem hf rfl) ?_
    | with_reducible refine evo_next ?_
    | with_reducible refine evo_ite (fun _ => ?_) (fun _ => ?_)
    | with_reducible refine ev_ite (fun _ => ?_) (fun _ => ?_)
    | exact reg_block hf .pwr rfl rfl

theorem execVinLowCleared_ev {cv : BitVec 16} (hf : Foot.le ⟨[], [.pwr], false⟩ f) (h : Ev f s x) :
    EvO f s (execVinLowCleared cv x) := by
  unfold execVinLowCleared
  repeat' first
    | with_reducible exact h
    | with_reducible assumption
    | with_reducible refine ev_setF ?_ ?_
    | with_reducible refine evo_next ?_
    | with_reducible refine evo_ite (fun _ => ?_) (fun _ => ?_)
    | with_reducible refine ev_ite (fun _ => ?_) (fun _ => ?_)
    | exact reg_block hf .pwr rfl rfl

theorem railsOn_ev (hf : Foot.le ⟨[.pwr], [.pwr], false⟩ f) (h : Ev f s x) :
    Ev f s (railsOn x) := by
  unfold railsOn
  repeat' first
    | with_reducible exact h
    | with_reducible assumption
    | with_reducible refine railOn_ev (le_trans' hf rfl) ?_
    | with_reducible refine ev_setFbit ?_ ?_
    | (with_reducible refine ev_forEach_range (fun i hi y hy => ?_) ?_)
    | (with_reducible refine ev_forEach (fun i hi y hy => ?_) ?_)
    | with_reducible refine ev_ite (fun _ => ?_) (fun _ => ?_)
    | exact reg_block hf .pwr rfl rfl

theorem powerFailSequence_ev (hf : Foot.le ⟨[.snap, .busReply, .fresh, .tai, .ticks, .log, .fab, .pwr, .time, .adc, .filt, .loop, .gfm, .prot, .scan, .fio, .dpx, .cmd, .recd, .net, .upd], [.sys, .pwr, .prot, .fio, .dpx, .net, .cmd, .upd, .pwm], true⟩ f) (h : Ev f s x) :
    Ev f s (powerFailSequence x) := by
  unfold powerFailSequence
  repeat' first
    | with_reducible exact h
    | with_reducible assumption
    | with_reducible refine blockStages_ev (le_trans' hf rfl) ?_
    | with_reducible refine commitBoth_ev (le_trans' hf rfl) ?_
    | with_reducible refine driveOwner_ev (le_trans' hf rfl) ?_
    | with_reducible refine enterSafe_ev (le_trans' hf rfl) ?_
    | with_reducible refine hold_ev (le_trans' hf rfl) ?_
    | with_reducible refine railsOff_ev (le_trans' hf rfl) ?_
    | with_reducible refine sayDying_ev (le_trans' hf rfl) ?_
    | with_reducible refine setCause_ev (le_trans' hf rfl) ?_
    | with_reducible refine thermalSave_ev (le_trans' hf rfl) ?_
    | refine ev_snd (by assumption) ?_
    | with_reducible refine ev_logN (part_mem hf rfl) (block_mem hf rfl) ?_
    | with_reducible refine ev_drainAll (part_mem hf rfl) (block_mem hf rfl) ?_
    | with_reducible refine ev_reachLocal (part_mem hf rfl) (part_mem hf rfl) ?_
    | with_reducible refine ev_takeFree (part_mem hf rfl) ?_
    | with_reducible refine ev_ite (fun _ => ?_) (fun _ => ?_)
    | exact reg_any hf rfl _
    | exact Fin.isLt _
    | omega
    | split
    | dsimp only
    | with_reducible refine ev_loop (part_mem hf rfl) ?_

theorem heldPowerFail_ev (hf : Foot.le ⟨[.snap, .busReply, .tai, .ticks, .log, .fab, .pwr, .time, .adc, .filt, .loop, .gfm, .prot, .scan, .fio, .dpx, .cmd, .recd, .net, .upd], [.sys, .pwr, .prot, .fio, .net, .cmd, .upd], true⟩ f) (h : Ev f s x) :
    Ev f s (heldPowerFail x) := by
  unfold heldPowerFail
  repeat' first
    | with_reducible exact h
    | with_reducible assumption
    | with_reducible refine enterSafe_ev (le_trans' hf rfl) ?_
    | with_reducible refine hold_ev (le_trans' hf rfl) ?_
    | with_reducible refine railsOff_ev (le_trans' hf rfl) ?_
    | with_reducible refine setCause_ev (le_trans' hf rfl) ?_
    | with_reducible refine ev_logN (part_mem hf rfl) (block_mem hf rfl) ?_
    | with_reducible refine ev_drainAll (part_mem hf rfl) (block_mem hf rfl) ?_
    | with_reducible refine ev_reachLocal (part_mem hf rfl) (part_mem hf rfl) ?_

theorem powerFails_ev (hf : Foot.le ⟨[.snap, .busReply, .fresh, .tai, .ticks, .log, .fab, .pwr, .time, .adc, .filt, .loop, .gfm, .prot, .scan, .fio, .dpx, .cmd, .recd, .net, .upd], [.sys, .pwr, .prot, .fio, .dpx, .net, .cmd, .upd, .pwm], true⟩ f) (h : Ev f s x) :
    Ev f s (powerFails x) := by
  unfold powerFails
  repeat' first
    | with_reducible exact h
    | with_reducible assumption
    | with_reducible refine heldPowerFail_ev (le_trans' hf rfl) ?_
    | with_reducible refine hold_ev (le_trans' hf rfl) ?_
    | with_reducible refine powerFailSequence_ev (le_trans' hf rfl) ?_
    | with_reducible refine setCause_ev (le_trans' hf rfl) ?_
    | with_reducible refine ev_ite (fun _ => ?_) (fun _ => ?_)
    | exact reg_any hf rfl _
    | exact Fin.isLt _
    | omega
    | split

theorem execPowerFail_ev (hf : Foot.le ⟨[.snap, .busReply, .fresh, .tai, .ticks, .log, .fab, .pwr, .time, .adc, .filt, .loop, .gfm, .prot, .scan, .fio, .dpx, .cmd, .recd, .net, .upd], [.sys, .pwr, .prot, .fio, .dpx, .net, .cmd, .upd, .pwm], true⟩ f) (h : Ev f s x) :
    EvO f s (execPowerFail x) := by
  unfold execPowerFail
  repeat' first
    | with_reducible exact h
    | with_reducible assumption
    | with_reducible refine powerFails_ev (le_trans' hf rfl) ?_
    | with_reducible refine evo_next ?_

theorem vinLost_ev (hf : Foot.le ⟨[.pwr, .fio], [], true⟩ f) (h : Ev f s x) :
    Ev f s (vinLost x) := by
  exact setPwr_ev (le_trans' hf rfl) (ev_fio (part_mem hf rfl) (ev_regs (hf.anyReg rfl) (swf_filter _ _ _) h))

theorem execVinLoss_ev (hf : Foot.le ⟨[.snap, .busReply, .fresh, .tai, .ticks, .log, .fab, .pwr, .time, .adc, .filt, .loop, .gfm, .prot, .scan, .fio, .dpx, .cmd, .recd, .net, .upd], [.sys, .pwr, .prot, .fio, .dpx, .net, .cmd, .upd, .pwm], true⟩ f) (h : Ev f s x) :
    EvO f s (execVinLoss x) := by
  unfold execVinLoss
  repeat' first
    | with_reducible exact h
    | with_reducible assumption
    | with_reducible refine powerFails_ev (le_trans' hf rfl) ?_
    | with_reducible refine setPwr_ev (le_trans' hf rfl) ?_
    | with_reducible refine vinLost_ev (le_trans' hf rfl) ?_
    | with_reducible refine evo_next ?_
    | with_reducible refine evo_ite (fun _ => ?_) (fun _ => ?_)
    | with_reducible refine ev_ite (fun _ => ?_) (fun _ => ?_)

theorem execSensorFault_ev {five : Bool} (hf : Foot.le ⟨[.log, .pwr], [.pwr, .cmd], false⟩ f) (h : Ev f s x) :
    EvO f s (execSensorFault five x) := by
  unfold execSensorFault
  repeat' first
    | with_reducible exact h
    | with_reducible assumption
    | with_reducible refine railOff_ev (le_trans' hf rfl) ?_
    | with_reducible refine setRail_ev (le_trans' hf rfl) ?_
    | with_reducible refine ev_setFbit ?_ ?_
    | with_reducible refine ev_logN (part_mem hf rfl) (block_mem hf rfl) ?_
    | with_reducible refine ev_whenS (fun hc y hy => ?_) ?_
    | with_reducible refine evo_next ?_
    | with_reducible refine evo_ite (fun _ => ?_) (fun _ => ?_)
    | with_reducible refine ev_ite (fun _ => ?_) (fun _ => ?_)
    | exact reg_block hf .pwr rfl rfl

theorem execSensorRetry_ev {five : Bool} (hf : Foot.le ⟨[.tai, .ticks, .pwr], [.pwr], false⟩ f) (h : Ev f s x) :
    EvO f s (execSensorRetry five x) := by
  unfold execSensorRetry
  repeat' first
    | with_reducible exact h
    | with_reducible assumption
    | with_reducible refine railOn_ev (le_trans' hf rfl) ?_
    | with_reducible refine ev_reachLocal (part_mem hf rfl) (part_mem hf rfl) ?_
    | with_reducible refine evo_next ?_
    | with_reducible refine evo_ite (fun _ => ?_) (fun _ => ?_)

end Sys2Proof.Laws
end

