-- ==== Sys2Proof/Laws/EvUpd.lean ====
section
/-! SUPPORT. What each change of Machine/Upd.lean can touch, and that it keeps the state sound: one lemma a function. -/

namespace Sys2Proof.Laws

open Sys2Proof Sys2Proof.Machine Sys2Proof.Safety

variable {f : Foot} {s x : State}

theorem withdrawActivation_ev {n : Fin 16} (hf : Foot.le ⟨[.fresh, .log, .fab, .scan, .upd], [.scan, .cmd, .fab], false⟩ f) (h : Ev f s x) :
    Ev f s (withdrawActivation n x) := by
  unfold withdrawActivation
  repeat' first
    | with_reducible exact h
    | with_reducible assumption
    | with_reducible refine setUpd_ev (le_trans' hf rfl) ?_
    | with_reducible refine withdrawChange_ev (le_trans' hf rfl) ?_
    | with_reducible refine withdrawExchange_ev (le_trans' hf rfl) ?_

theorem settingsWrite_ev {x0 : List SettingsRecord} (hf : Foot.le ⟨[.dpx, .upd], [.upd], false⟩ f) (h : Ev f s x) :
    Ev f s (settingsWrite x0 x).2.2 := by
  unfold settingsWrite
  repeat' first
    | with_reducible exact h
    | with_reducible assumption
    | with_reducible refine sendGuy_ev (le_trans' hf rfl) ?_
    | with_reducible refine setUpd_ev (le_trans' hf rfl) ?_
    | with_reducible refine storeWrite_ev (le_trans' hf rfl) ?_
    | with_reducible refine ev_whenS (fun hc y hy => ?_) ?_
    | with_reducible refine ev_ite3 (fun _ => ?_) (fun _ => ?_)
    | with_reducible refine ev_ite (fun _ => ?_) (fun _ => ?_)
    | exact Fin.isLt _
    | omega
    | split

theorem clearSlot_ev {k : Fin 4} {i : Fin 2} (hf : Foot.le ⟨[.upd], [], false⟩ f) (h : Ev f s x) :
    Ev f s (clearSlot k i x) := by
  unfold clearSlot
  repeat' first
    | with_reducible exact h
    | with_reducible assumption
    | with_reducible refine setUpd_ev (le_trans' hf rfl) ?_
    | with_reducible refine ev_ite (fun _ => ?_) (fun _ => ?_)
    | exact Fin.isLt _
    | omega
    | split

theorem setStaged_ev {k : Fin 4} {x0 : Option StagedImage} (hf : Foot.le ⟨[.upd], [], false⟩ f) (h : Ev f s x) :
    Ev f s (setStaged k x0 x) := by
  unfold setStaged
  repeat' first
    | with_reducible exact h
    | with_reducible assumption
    | with_reducible refine setUpd_ev (le_trans' hf rfl) ?_

theorem showKind_ev {k : Fin 4} (hf : Foot.le ⟨[], [.upd], false⟩ f) (h : Ev f s x) :
    Ev f s (showKind k x) := by
  unfold showKind
  repeat' first
    | with_reducible exact h
    | with_reducible assumption
    | with_reducible refine ev_wr ?_ ?_
    | with_reducible refine ev_setF ?_ ?_
    | with_reducible refine ev_ite (fun _ => ?_) (fun _ => ?_)
    | with_reducible refine reg_UPD_KIND_STAGED hf rfl ?_
    | with_reducible refine reg_UPD_KIND_STATE hf rfl ?_
    | exact reg_block hf .upd rfl rfl
    | exact Fin.isLt _
    | omega

theorem showUpd_ev (hf : Foot.le ⟨[], [.upd], false⟩ f) (h : Ev f s x) :
    Ev f s (showUpd x) := by
  unfold showUpd
  repeat' first
    | with_reducible exact h
    | with_reducible assumption
    | with_reducible refine showKind_ev (le_trans' hf rfl) ?_
    | with_reducible refine showSettings_ev (le_trans' hf rfl) ?_
    | with_reducible refine ev_wr ?_ ?_
    | with_reducible refine ev_setF ?_ ?_
    | (with_reducible refine ev_forEach_range (fun i hi y hy => ?_) ?_)
    | (with_reducible refine ev_forEach (fun i hi y hy => ?_) ?_)
    | with_reducible refine ev_ite (fun _ => ?_) (fun _ => ?_)
    | exact reg_block hf .upd rfl rfl
    | exact mem4 (by assumption)
    | exact Fin.isLt _
    | omega
    | split

theorem setJournal_ev {k : Fin 4} {j : KindJournal} (hf : Foot.le ⟨[.upd], [.upd], false⟩ f) (h : Ev f s x) :
    Ev f s (setJournal k j x) := by
  unfold setJournal
  repeat' first
    | with_reducible exact h
    | with_reducible assumption
    | with_reducible refine setUpd_ev (le_trans' hf rfl) ?_
    | with_reducible refine showUpd_ev (le_trans' hf rfl) ?_

theorem newDownload_ev {d : Download} (hf : Foot.le ⟨[.upd], [.upd], false⟩ f) (h : Ev f s x) :
    Ev f s (newDownload d x) := by
  unfold newDownload
  repeat' first
    | with_reducible exact h
    | with_reducible assumption
    | with_reducible refine clearSlot_ev (le_trans' hf rfl) ?_
    | with_reducible refine setJournal_ev (le_trans' hf rfl) ?_
    | with_reducible refine setStaged_ev (le_trans' hf rfl) ?_
    | with_reducible refine setUpd_ev (le_trans' hf rfl) ?_
    | with_reducible refine ev_setF ?_ ?_
    | with_reducible refine ev_ite (fun _ => ?_) (fun _ => ?_)
    | with_reducible refine reg_UPD_KIND_STATE hf rfl ?_
    | exact reg_block hf .upd rfl rfl
    | exact Fin.isLt _
    | omega

theorem imageBegin_ev {kind : Nat} {length : Nat} {hash : BitVec 384} {ch : Option (Fin 21)} (hf : Foot.le ⟨[.fresh, .log, .cmd, .upd], [.cmd, .upd], false⟩ f) (h : Ev f s x) :
    Ev f s (imageBegin kind length hash ch x).2.2.2 := by
  unfold imageBegin
  repeat' first
    | with_reducible exact h
    | with_reducible assumption
    | with_reducible refine endOp_ev (le_trans' hf rfl) ?_
    | with_reducible refine newDownload_ev (le_trans' hf rfl) ?_
    | with_reducible refine openOp_ev (le_trans' hf rfl) ?_
    | refine ev_snd (by assumption) ?_
    | with_reducible refine ev_logN (part_mem hf rfl) (block_mem hf rfl) ?_
    | with_reducible refine ev_whenS (fun hc y hy => ?_) ?_
    | with_reducible refine ev_ite (fun _ => ?_) (fun _ => ?_)
    | exact reg_block hf .cmd rfl rfl
    | exact Fin.isLt _
    | omega
    | split

theorem imageStaged_ev {n : Fin 16} {d : Download} {x0 : StagedImage} (hf : Foot.le ⟨[.log, .cmd, .upd], [.cmd, .upd], false⟩ f) (h : Ev f s x) :
    Ev f s (imageStaged n d x0 x) := by
  unfold imageStaged
  repeat' first
    | with_reducible exact h
    | with_reducible assumption
    | with_reducible refine endOp_ev (le_trans' hf rfl) ?_
    | with_reducible refine setStaged_ev (le_trans' hf rfl) ?_
    | with_reducible refine showUpd_ev (le_trans' hf rfl) ?_
    | with_reducible refine ev_logEvent (part_mem hf rfl) (block_mem hf rfl) ?_

theorem confirmBlock_ev {n : Fin 16} {d : Download} {x0 : StagedImage} (hf : Foot.le ⟨[.log, .cmd, .upd], [.cmd, .upd], false⟩ f) (h : Ev f s x) :
    Ev f s (confirmBlock n d x0 x) := by
  unfold confirmBlock
  repeat' first
    | with_reducible exact h
    | with_reducible assumption
    | with_reducible refine imageStaged_ev (le_trans' hf rfl) ?_
    | with_reducible refine setOper_ev (le_trans' hf rfl) ?_
    | with_reducible refine setUpd_ev (le_trans' hf rfl) ?_
    | with_reducible refine showUpd_ev (le_trans' hf rfl) ?_
    | with_reducible refine ev_ite (fun _ => ?_) (fun _ => ?_)
    | exact Fin.isLt _
    | omega
    | split

theorem openChunk_ev {n : Fin 16} {d : Download} {off : Nat} {len : Nat} {x0 : StagedImage} (hf : Foot.le ⟨[.log, .cmd, .upd], [.cmd, .upd], false⟩ f) (h : Ev f s x) :
    Ev f s (openChunk n d off len x0 x).2.2 := by
  unfold openChunk
  repeat' first
    | with_reducible exact h
    | with_reducible assumption
    | with_reducible refine confirmBlock_ev (le_trans' hf rfl) ?_
    | with_reducible refine setJournal_ev (le_trans' hf rfl) ?_
    | with_reducible refine setUpd_ev (le_trans' hf rfl) ?_
    | with_reducible refine ev_whenS (fun hc y hy => ?_) ?_

theorem imageData_ev {handle : Word} {block : Nat} {off : Nat} {len : Nat} {x0 : StagedImage} (hf : Foot.le ⟨[.log, .cmd, .upd], [.cmd, .upd], false⟩ f) (h : Ev f s x) :
    Ev f s (imageData handle block off len x0 x).2.2 := by
  unfold imageData
  repeat' first
    | with_reducible exact h
    | with_reducible assumption
    | with_reducible refine openChunk_ev (le_trans' hf rfl) ?_
    | refine ev_snd2 (by assumption) ?_
    | with_reducible refine ev_ite3 (fun _ => ?_) (fun _ => ?_)
    | with_reducible refine ev_ite (fun _ => ?_) (fun _ => ?_)
    | exact Fin.isLt _
    | omega
    | split

theorem imageVerify_ev {kind : Nat} {ch : Option (Fin 21)} (hf : Foot.le ⟨[.fresh, .cmd], [.cmd], false⟩ f) (h : Ev f s x) :
    Ev f s (imageVerify kind ch x).2.2 := by
  unfold imageVerify
  repeat' first
    | with_reducible exact h
    | with_reducible assumption
    | with_reducible refine openOp_ev (le_trans' hf rfl) ?_
    | refine ev_snd (by assumption) ?_
    | with_reducible refine ev_ite3 (fun _ => ?_) (fun _ => ?_)
    | with_reducible refine ev_ite (fun _ => ?_) (fun _ => ?_)
    | exact Fin.isLt _
    | omega
    | split

theorem moveStaged_ev {k : Fin 4} {x0 : StagedImage} (hf : Foot.le ⟨[.upd], [], false⟩ f) (h : Ev f s x) :
    Ev f s (moveStaged k x0 x) := by
  unfold moveStaged
  repeat' first
    | with_reducible exact h
    | with_reducible assumption
    | with_reducible refine setUpd_ev (le_trans' hf rfl) ?_
    | with_reducible refine ev_ite (fun _ => ?_) (fun _ => ?_)
    | exact Fin.isLt _
    | omega
    | split

theorem commitKind_ev {k : Fin 4} (hf : Foot.le ⟨[.log, .upd], [.cmd, .upd], false⟩ f) (h : Ev f s x) :
    Ev f s (commitKind k x) := by
  unfold commitKind
  repeat' first
    | with_reducible exact h
    | with_reducible assumption
    | with_reducible refine moveStaged_ev (le_trans' hf rfl) ?_
    | with_reducible refine setJournal_ev (le_trans' hf rfl) ?_
    | with_reducible refine setStaged_ev (le_trans' hf rfl) ?_
    | with_reducible refine ev_logEvent (part_mem hf rfl) (block_mem hf rfl) ?_
    | with_reducible refine ev_ite (fun _ => ?_) (fun _ => ?_)
    | exact reg_block hf .cmd rfl rfl
    | exact Fin.isLt _
    | omega
    | split

theorem commitMask_ev {n : Fin 16} (hf : Foot.le ⟨[.log, .cmd, .upd], [.cmd, .upd], false⟩ f) (h : Ev f s x) :
    Ev f s (commitMask n x) := by
  unfold commitMask
  repeat' first
    | with_reducible exact h
    | with_reducible assumption
    | with_reducible refine commitKind_ev (le_trans' hf rfl) ?_
    | with_reducible refine commitOp_ev (le_trans' hf rfl) ?_
    | (with_reducible refine ev_forEach_range (fun i hi y hy => ?_) ?_)
    | (with_reducible refine ev_forEach (fun i hi y hy => ?_) ?_)
    | with_reducible refine ev_ite (fun _ => ?_) (fun _ => ?_)

theorem writeBoot_ev {n : Fin 16} (hf : Foot.le ⟨[.log, .cmd, .upd], [.cmd, .upd], false⟩ f) (h : Ev f s x) :
    Ev f s (writeBoot n x) := by
  unfold writeBoot
  repeat' first
    | with_reducible exact h
    | with_reducible assumption
    | with_reducible refine commitMask_ev (le_trans' hf rfl) ?_
    | with_reducible refine endOp_ev (le_trans' hf rfl) ?_
    | with_reducible refine setJournal_ev (le_trans' hf rfl) ?_
    | with_reducible refine setUpd_ev (le_trans' hf rfl) ?_
    | with_reducible refine showUpd_ev (le_trans' hf rfl) ?_

theorem activateKindling_ev {n : Fin 16} {mask : Nat} (hf : Foot.le ⟨[.log, .cmd, .upd], [.cmd, .upd], false⟩ f) (h : Ev f s x) :
    Ev f s (activateKindling n mask x) := by
  unfold activateKindling
  repeat' first
    | with_reducible exact h
    | with_reducible assumption
    | with_reducible refine commitMask_ev (le_trans' hf rfl) ?_
    | with_reducible refine setUpd_ev (le_trans' hf rfl) ?_
    | with_reducible refine showUpd_ev (le_trans' hf rfl) ?_
    | with_reducible refine writeBoot_ev (le_trans' hf rfl) ?_
    | with_reducible refine ev_ite (fun _ => ?_) (fun _ => ?_)

theorem ownColdStart_ev (hf : Foot.le ⟨[.snap, .busReply, .fresh, .log, .fab, .pwr, .time, .adc, .filt, .loop, .gfm, .prot, .scan, .fio, .dpx, .cmd, .recd, .net, .upd], [.sys, .pwr, .prot, .dpx, .net, .cmd, .upd, .pwm], true⟩ f) (h : Ev f s x) :
    Ev f s (ownColdStart x) := by
  unfold ownColdStart
  repeat' first
    | with_reducible exact h
    | with_reducible assumption
    | with_reducible refine resetPart_ev (le_trans' hf rfl) ?_
    | with_reducible refine setUpd_ev (le_trans' hf rfl) ?_

theorem activateNow_ev {n : Fin 16} {mask : Nat} (hf : Foot.le ⟨[.snap, .busReply, .fresh, .log, .fab, .pwr, .time, .adc, .filt, .loop, .gfm, .prot, .scan, .fio, .dpx, .cmd, .recd, .net, .upd], [.sys, .pwr, .prot, .scan, .dpx, .net, .cmd, .upd, .fab, .pwm], true⟩ f) (h : Ev f s x) :
    Ev f s (activateNow n mask x) := by
  unfold activateNow
  repeat' first
    | with_reducible exact h
    | with_reducible assumption
    | with_reducible refine activateKindling_ev (le_trans' hf rfl) ?_
    | with_reducible refine beginChange_ev (le_trans' hf rfl) ?_
    | with_reducible refine commitMask_ev (le_trans' hf rfl) ?_
    | with_reducible refine openExchange_ev (le_trans' hf rfl) ?_
    | with_reducible refine ownColdStart_ev (le_trans' hf rfl) ?_
    | with_reducible refine setUpd_ev (le_trans' hf rfl) ?_
    | with_reducible refine ev_ite (fun _ => ?_) (fun _ => ?_)
    | exact reg_any hf rfl _
    | exact Fin.isLt _
    | omega
    | split

theorem imageActivate_ev {mask : Nat} {flags : Nat} {ch : Option (Fin 21)} (hf : Foot.le ⟨[.snap, .busReply, .fresh, .log, .fab, .pwr, .time, .adc, .filt, .loop, .gfm, .prot, .scan, .fio, .dpx, .cmd, .recd, .net, .upd], [.sys, .pwr, .prot, .scan, .dpx, .net, .cmd, .upd, .fab, .pwm], true⟩ f) (h : Ev f s x) :
    Ev f s (imageActivate mask flags ch x).2.2 := by
  unfold imageActivate
  repeat' first
    | with_reducible exact h
    | with_reducible assumption
    | with_reducible refine activateNow_ev (le_trans' hf rfl) ?_
    | with_reducible refine openOp_ev (le_trans' hf rfl) ?_
    | refine ev_snd (by assumption) ?_
    | with_reducible refine ev_ite3 (fun _ => ?_) (fun _ => ?_)
    | with_reducible refine ev_ite (fun _ => ?_) (fun _ => ?_)
    | exact reg_any hf rfl _
    | exact Fin.isLt _
    | omega
    | split

theorem imageConfirm_ev {kind : Nat} (hf : Foot.le ⟨[.log, .upd], [.cmd, .upd], false⟩ f) (h : Ev f s x) :
    Ev f s (imageConfirm kind x).2 := by
  unfold imageConfirm
  repeat' first
    | with_reducible exact h
    | with_reducible assumption
    | with_reducible refine setJournal_ev (le_trans' hf rfl) ?_
    | with_reducible refine setUpd_ev (le_trans' hf rfl) ?_
    | with_reducible refine ev_logEvent (part_mem hf rfl) (block_mem hf rfl) ?_
    | with_reducible refine ev_ite2 (fun _ => ?_) (fun _ => ?_)
    | with_reducible refine ev_ite (fun _ => ?_) (fun _ => ?_)
    | exact reg_block hf .cmd rfl rfl
    | exact Fin.isLt _
    | omega
    | split

theorem revertJournal_ev {k : Fin 4} (hf : Foot.le ⟨[.upd], [.upd], false⟩ f) (h : Ev f s x) :
    Ev f s (revertJournal k x) := by
  unfold revertJournal
  repeat' first
    | with_reducible exact h
    | with_reducible assumption
    | with_reducible refine setJournal_ev (le_trans' hf rfl) ?_
    | with_reducible refine setUpd_ev (le_trans' hf rfl) ?_
    | with_reducible refine ev_ite (fun _ => ?_) (fun _ => ?_)
    | exact Fin.isLt _
    | omega
    | split

theorem returnTo_ev {back : PitchImage} {dropped : Option PitchImage} (hf : Foot.le ⟨[.fab], [.fab], false⟩ f) (h : Ev f s x) :
    Ev f s (returnTo back dropped x) := by
  unfold returnTo
  repeat' first
    | with_reducible exact h
    | with_reducible assumption
    | with_reducible refine beginChange_ev (le_trans' hf rfl) ?_
    | with_reducible refine ev_ite (fun _ => ?_) (fun _ => ?_)
    | exact Fin.isLt _
    | omega
    | split

theorem returnPitch_ev {cause : Nat} {dropped : Option PitchImage} (hf : Foot.le ⟨[.snap, .busReply, .fresh, .log, .fab, .pwr, .time, .adc, .filt, .loop, .gfm, .prot, .scan, .fio, .dpx, .cmd, .recd, .net, .upd], [.sys, .pwr, .prot, .dpx, .net, .cmd, .upd, .fab, .pwm], true⟩ f) (h : Ev f s x) :
    Ev f s (returnPitch cause dropped x) := by
  unfold returnPitch
  repeat' first
    | with_reducible exact h
    | with_reducible assumption
    | with_reducible refine ownColdStart_ev (le_trans' hf rfl) ?_
    | with_reducible refine returnTo_ev (le_trans' hf rfl) ?_
    | with_reducible refine setUpd_ev (le_trans' hf rfl) ?_
    | with_reducible refine ev_logN (part_mem hf rfl) (block_mem hf rfl) ?_
    | with_reducible refine ev_ite (fun _ => ?_) (fun _ => ?_)
    | exact reg_any hf rfl _
    | exact Fin.isLt _
    | omega
    | split

theorem returnScan_ev {new : Option ScanImage} (hf : Foot.le ⟨[.log, .scan], [.scan, .cmd], false⟩ f) (h : Ev f s x) :
    Ev f s (returnScan new x) := by
  unfold returnScan
  repeat' first
    | with_reducible exact h
    | with_reducible assumption
    | with_reducible refine openExchange_ev (le_trans' hf rfl) ?_
    | with_reducible refine stopRequest_ev (le_trans' hf rfl) ?_
    | (with_reducible refine ev_forEach_range (fun i hi y hy => ?_) ?_)
    | (with_reducible refine ev_forEach (fun i hi y hy => ?_) ?_)
    | with_reducible refine ev_ite (fun _ => ?_) (fun _ => ?_)

theorem returnSettings_ev (hf : Foot.le ⟨[.log, .upd], [.cmd, .upd], false⟩ f) (h : Ev f s x) :
    Ev f s (returnSettings x) := by
  unfold returnSettings
  repeat' first
    | with_reducible exact h
    | with_reducible assumption
    | with_reducible refine setUpd_ev (le_trans' hf rfl) ?_
    | with_reducible refine showSettings_ev (le_trans' hf rfl) ?_
    | with_reducible refine ev_logN (part_mem hf rfl) (block_mem hf rfl) ?_
    | with_reducible refine ev_whenS (fun hc y hy => ?_) ?_
    | with_reducible refine ev_ite (fun _ => ?_) (fun _ => ?_)
    | exact reg_block hf .cmd rfl rfl
    | exact Fin.isLt _
    | omega
    | split

theorem revertKind_ev {cause : Nat} {k : Fin 4} (hf : Foot.le ⟨[.snap, .busReply, .fresh, .log, .fab, .pwr, .time, .adc, .filt, .loop, .gfm, .prot, .scan, .fio, .dpx, .cmd, .recd, .net, .upd], [.sys, .pwr, .prot, .scan, .dpx, .net, .cmd, .upd, .fab, .pwm], true⟩ f) (h : Ev f s x) :
    Ev f s (revertKind cause k x) := by
  unfold revertKind
  repeat' first
    | with_reducible exact h
    | with_reducible assumption
    | with_reducible refine returnPitch_ev (le_trans' hf rfl) ?_
    | with_reducible refine returnScan_ev (le_trans' hf rfl) ?_
    | with_reducible refine returnSettings_ev (le_trans' hf rfl) ?_
    | with_reducible refine revertJournal_ev (le_trans' hf rfl) ?_
    | with_reducible refine setUpd_ev (le_trans' hf rfl) ?_
    | with_reducible refine ev_logN (part_mem hf rfl) (block_mem hf rfl) ?_
    | with_reducible refine ev_ite (fun _ => ?_) (fun _ => ?_)
    | exact reg_any hf rfl _
    | exact Fin.isLt _
    | omega
    | split

theorem cancelFor_ev {kind : Nat} (hf : Foot.le ⟨[.log, .cmd], [.cmd], false⟩ f) (h : Ev f s x) :
    Ev f s (cancelFor kind x) := by
  unfold cancelFor
  repeat' first
    | with_reducible exact h
    | with_reducible assumption
    | with_reducible refine endOp_ev (le_trans' hf rfl) ?_
    | (with_reducible refine ev_forEach_range (fun i hi y hy => ?_) ?_)
    | (with_reducible refine ev_forEach (fun i hi y hy => ?_) ?_)
    | with_reducible refine ev_ite (fun _ => ?_) (fun _ => ?_)

theorem imageAbandon_ev {kind : Nat} (hf : Foot.le ⟨[.snap, .busReply, .fresh, .log, .fab, .pwr, .time, .adc, .filt, .loop, .gfm, .prot, .scan, .fio, .dpx, .cmd, .recd, .net, .upd], [.sys, .pwr, .prot, .scan, .dpx, .net, .cmd, .upd, .fab, .pwm], true⟩ f) (h : Ev f s x) :
    Ev f s (imageAbandon kind x).2 := by
  unfold imageAbandon
  repeat' first
    | with_reducible exact h
    | with_reducible assumption
    | with_reducible refine cancelFor_ev (le_trans' hf rfl) ?_
    | with_reducible refine revertKind_ev (le_trans' hf rfl) ?_
    | with_reducible refine setJournal_ev (le_trans' hf rfl) ?_
    | with_reducible refine setStaged_ev (le_trans' hf rfl) ?_
    | with_reducible refine setUpd_ev (le_trans' hf rfl) ?_
    | with_reducible refine ev_ite2 (fun _ => ?_) (fun _ => ?_)
    | with_reducible refine ev_ite (fun _ => ?_) (fun _ => ?_)
    | exact reg_any hf rfl _
    | exact Fin.isLt _
    | omega
    | split

theorem enterCommissioning_ev {t : Token} (hf : Foot.le ⟨[.log, .upd], [.cmd, .upd], false⟩ f) (h : Ev f s x) :
    Ev f s (enterCommissioning t x) := by
  unfold enterCommissioning
  repeat' first
    | with_reducible exact h
    | with_reducible assumption
    | with_reducible refine setUpd_ev (le_trans' hf rfl) ?_
    | with_reducible refine ev_setF ?_ ?_
    | with_reducible refine ev_wr64 ?_ ?_ ?_
    | with_reducible refine ev_logN (part_mem hf rfl) (block_mem hf rfl) ?_
    | with_reducible refine ev_ite (fun _ => ?_) (fun _ => ?_)
    | exact reg_block hf .cmd rfl rfl
    | exact reg_block hf .upd rfl rfl

theorem burn_ev {counter : BitVec 64} {word : BitVec 16} (hf : Foot.le ⟨[.upd], [], false⟩ f) (h : Ev f s x) :
    Ev f s (burn counter word x) := by
  unfold burn
  repeat' first
    | with_reducible exact h
    | with_reducible assumption
    | with_reducible refine setUpd_ev (le_trans' hf rfl) ?_

theorem enterReturned_ev (hf : Foot.le ⟨[.log, .prot, .scan, .dpx, .upd], [.prot, .cmd, .upd], false⟩ f) (h : Ev f s x) :
    Ev f s (enterReturned x) := by
  unfold enterReturned
  have k : Ev f s { x with
      log := { queue := [], entries := [], next := 0, dropped := x.log.dropped }
      scan := { x.scan with cores := x.scan.cores.map (fun x => { x with copies := x.copies.set 0 none }) }
      dpx := { x.dpx with emberEpoch := 0 }
      prot := { x.prot with feeders := x.prot.feeders.map (fun x => { x with thetaSaved := 0, savedAt := 0 }) } } :=
    ev_prot (v := { x.prot with feeders := x.prot.feeders.map (fun x => { x with thetaSaved := 0, savedAt := 0 }) })
      (part_mem hf rfl) (ev_dpx (v := { x.dpx with emberEpoch := 0 }) (part_mem hf rfl)
        (ev_scan (v := { x.scan with cores := x.scan.cores.map (fun x => { x with copies := x.copies.set 0 none }) })
          (part_mem hf rfl) (ev_log (v := { queue := [], entries := [], next := 0, dropped := x.log.dropped })
            (part_mem hf rfl) (fun _ => by simp) (fun _ => by simp) h)))
  exact ev_logN (part_mem hf rfl) (block_mem hf rfl) (showUpd_ev (le_trans' hf rfl) (burn_ev (le_trans' hf rfl) (setUpd_ev (le_trans' hf rfl)
    (ev_forEach_range (fun i hi y hy => ev_wr (reg_PROT_FDR_COUNT hf rfl hi) hy) k))))

theorem newNonce_ev (hf : Foot.le ⟨[.fresh], [.upd], false⟩ f) (h : Ev f s x) :
    Ev f s (newNonce x) := by
  unfold newNonce
  repeat' first
    | with_reducible exact h
    | with_reducible assumption
    | refine ev_snd (by assumption) ?_
    | with_reducible refine ev_wr64 ?_ ?_ ?_
    | with_reducible refine ev_takeFree (part_mem hf rfl) ?_
    | with_reducible refine ev_ite (fun _ => ?_) (fun _ => ?_)
    | exact reg_block hf .upd rfl rfl

theorem serviceState_ev {t : Token} (hf : Foot.le ⟨[.fresh, .log, .prot, .scan, .dpx, .net, .upd], [.prot, .net, .cmd, .upd], false⟩ f) (h : Ev f s x) :
    Ev f s (serviceState t x).2 := by
  unfold serviceState
  repeat' first
    | with_reducible exact h
    | with_reducible assumption
    | with_reducible refine burn_ev (le_trans' hf rfl) ?_
    | with_reducible refine enterCommissioning_ev (le_trans' hf rfl) ?_
    | with_reducible refine enterReturned_ev (le_trans' hf rfl) ?_
    | with_reducible refine leaveCommissioning_ev (le_trans' hf rfl) ?_
    | with_reducible refine newNonce_ev (le_trans' hf rfl) ?_
    | with_reducible refine showUpd_ev (le_trans' hf rfl) ?_
    | with_reducible refine ev_logN (part_mem hf rfl) (block_mem hf rfl) ?_
    | with_reducible refine ev_ite2 (fun _ => ?_) (fun _ => ?_)
    | with_reducible refine ev_ite (fun _ => ?_) (fun _ => ?_)
    | exact reg_block hf .cmd rfl rfl
    | exact Fin.isLt _
    | omega
    | split

theorem afterImage_ev (hf : Foot.le ⟨[.log, .net], [.net, .cmd], false⟩ f) (h : Ev f s x) :
    Ev f s (afterImage x) := by
  unfold afterImage
  repeat' first
    | with_reducible exact h
    | with_reducible assumption
    | with_reducible refine fiDisarmAll_ev (le_trans' hf rfl) ?_
    | with_reducible refine ev_whenS (fun hc y hy => ?_) ?_

theorem beginTrial_ev {k : Fin 4} (hf : Foot.le ⟨[.log, .upd], [.cmd, .upd], false⟩ f) (h : Ev f s x) :
    Ev f s (beginTrial k x) := by
  unfold beginTrial
  repeat' first
    | with_reducible exact h
    | with_reducible assumption
    | with_reducible refine setJournal_ev (le_trans' hf rfl) ?_
    | with_reducible refine setUpd_ev (le_trans' hf rfl) ?_
    | with_reducible refine ev_logN (part_mem hf rfl) (block_mem hf rfl) ?_
    | with_reducible refine ev_ite (fun _ => ?_) (fun _ => ?_)

theorem trialMask_ev {n : Fin 16} (hf : Foot.le ⟨[.log, .cmd, .upd], [.cmd, .upd], false⟩ f) (h : Ev f s x) :
    Ev f s (trialMask n x) := by
  unfold trialMask
  repeat' first
    | with_reducible exact h
    | with_reducible assumption
    | with_reducible refine beginTrial_ev (le_trans' hf rfl) ?_
    | with_reducible refine endOp_ev (le_trans' hf rfl) ?_
    | (with_reducible refine ev_forEach_range (fun i hi y hy => ?_) ?_)
    | (with_reducible refine ev_forEach (fun i hi y hy => ?_) ?_)
    | with_reducible refine ev_ite (fun _ => ?_) (fun _ => ?_)

theorem structureSwaps_ev (hf : Foot.le ⟨[.tai, .ticks, .log, .fab, .adc, .scan, .cmd, .recd, .net, .upd], [.ctrl, .recd, .scan, .net, .cmd, .upd, .fab], true⟩ f) (h : Ev f s x) :
    Ev f s (structureSwaps x) := by
  unfold structureSwaps
  repeat' first
    | with_reducible exact h
    | with_reducible assumption
    | with_reducible refine afterImage_ev (le_trans' hf rfl) ?_
    | with_reducible refine reachSwap_ev (le_trans' hf rfl) ?_
    | with_reducible refine recFullImage_ev (le_trans' hf rfl) ?_
    | with_reducible refine swapStructure_ev (le_trans' hf rfl) ?_
    | with_reducible refine trialMask_ev (le_trans' hf rfl) ?_
    | (with_reducible refine ev_forEach_range (fun i hi y hy => ?_) ?_)
    | (with_reducible refine ev_forEach (fun i hi y hy => ?_) ?_)
    | with_reducible refine ev_whenS (fun hc y hy => ?_) ?_
    | with_reducible refine ev_ite (fun _ => ?_) (fun _ => ?_)
    | exact reg_any hf rfl _
    | exact mem4 (by assumption)
    | exact Fin.isLt _
    | omega
    | split

theorem mirrorOpens_ev (hf : Foot.le ⟨[.log, .fab, .cmd, .upd], [.cmd, .upd], false⟩ f) (h : Ev f s x) :
    Ev f s (mirrorOpens x) := by
  unfold mirrorOpens
  repeat' first
    | with_reducible exact h
    | with_reducible assumption
    | with_reducible refine commitMask_ev (le_trans' hf rfl) ?_
    | with_reducible refine openMirror_ev (le_trans' hf rfl) ?_
    | with_reducible refine ev_ite (fun _ => ?_) (fun _ => ?_)
    | exact Fin.isLt _
    | omega
    | split
    | dsimp only

theorem settingsAtBoundary_ev (hf : Foot.le ⟨[.tai, .log, .time, .adc, .filt, .loop, .gfm, .prot, .scan, .fio, .cmd, .recd, .net, .upd], [.clk, .time, .adc, .filt, .ctrl, .gfm, .prot, .recd, .scan, .fio, .dpx, .net, .cmd, .pwm], true⟩ f) (h : Ev f s x) :
    Ev f s (settingsAtBoundary x) := by
  unfold settingsAtBoundary
  repeat' first
    | with_reducible exact h
    | with_reducible assumption
    | with_reducible refine setUpd_ev (le_trans' hf rfl) ?_
    | with_reducible refine settingsApplied_ev (le_trans' hf rfl) ?_
    | (with_reducible refine ev_forEach_range (fun i hi y hy => ?_) ?_)
    | (with_reducible refine ev_forEach (fun i hi y hy => ?_) ?_)

theorem migrateSettings_ev {f0 : Firmware} (hf : Foot.le ⟨[.upd], [.upd], false⟩ f) (h : Ev f s x) :
    Ev f s (migrateSettings f0 x) := by
  unfold migrateSettings
  repeat' first
    | with_reducible exact h
    | with_reducible assumption
    | with_reducible refine setUpd_ev (le_trans' hf rfl) ?_
    | with_reducible refine storeOther_ev (le_trans' hf rfl) ?_

theorem settleTrial_ev (hf : Foot.le ⟨[.log, .cmd, .upd], [.cmd, .upd], false⟩ f) (h : Ev f s x) :
    Ev f s (settleTrial x) := by
  unfold settleTrial
  repeat' first
    | with_reducible exact h
    | with_reducible assumption
    | with_reducible refine trialMask_ev (le_trans' hf rfl) ?_
    | with_reducible refine ev_ite (fun _ => ?_) (fun _ => ?_)
    | exact Fin.isLt _
    | omega
    | split

theorem closeChannels_ev (hf : Foot.le ⟨[.log, .cmd], [.cmd], false⟩ f) (h : Ev f s x) :
    Ev f s (closeChannels x) := by
  unfold closeChannels
  repeat' first
    | with_reducible exact h
    | with_reducible assumption
    | with_reducible refine resetChannel_ev (le_trans' hf rfl) ?_
    | (with_reducible refine ev_forEach_range (fun i hi y hy => ?_) ?_)
    | (with_reducible refine ev_forEach (fun i hi y hy => ?_) ?_)
    | with_reducible refine ev_ite (fun _ => ?_) (fun _ => ?_)

theorem emptySnaps_ev (hf : Foot.le ⟨[.snap], [], false⟩ f) (h : Ev f s x) :
    Ev f s (emptySnaps x) := by
  unfold emptySnaps
  repeat' first
    | with_reducible exact h
    | with_reducible assumption
    | with_reducible refine ev_ite (fun _ => ?_) (fun _ => ?_)
    | exact Fin.isLt _
    | omega
    | split
    | dsimp only
    | with_reducible refine ev_snap (part_mem hf rfl) ?_

theorem firmwareRuns_ev {op : Option (Fin 16)} (hf : Foot.le ⟨[.snap, .busReply, .fresh, .tai, .log, .fab, .pwr, .time, .adc, .filt, .loop, .gfm, .prot, .scan, .fio, .dpx, .cmd, .recd, .net, .upd], [.sys, .pwr, .clk, .time, .adc, .filt, .ctrl, .gfm, .prot, .recd, .scan, .fio, .dpx, .net, .cmd, .upd, .fab, .pwm], true⟩ f) (h : Ev f s x) :
    Ev f s (firmwareRuns op x) := by
  unfold firmwareRuns
  repeat' first
    | with_reducible exact h
    | with_reducible assumption
    | with_reducible refine applyRecords_ev (le_trans' hf rfl) ?_
    | with_reducible refine beginTrial_ev (le_trans' hf rfl) ?_
    | with_reducible refine endOp?_ev (le_trans' hf rfl) ?_
    | with_reducible refine migrateSettings_ev (le_trans' hf rfl) ?_
    | with_reducible refine revertKind_ev (le_trans' hf rfl) ?_
    | with_reducible refine setJournal_ev (le_trans' hf rfl) ?_
    | with_reducible refine ev_logEvent (part_mem hf rfl) (block_mem hf rfl) ?_
    | with_reducible refine ev_ite (fun _ => ?_) (fun _ => ?_)
    | exact reg_any hf rfl _
    | exact Fin.isLt _
    | omega
    | split
    | dsimp only

theorem supervisorRestart_ev (hf : Foot.le ⟨[.snap, .busReply, .fresh, .tai, .ticks, .log, .fab, .pwr, .time, .adc, .filt, .loop, .gfm, .prot, .scan, .fio, .dpx, .cmd, .recd, .net, .upd], [.sys, .pwr, .clk, .time, .adc, .filt, .ctrl, .gfm, .prot, .recd, .scan, .fio, .dpx, .net, .cmd, .upd, .fab, .pwm], true⟩ f) (h : Ev f s x) :
    Ev f s (supervisorRestart x) := by
  unfold supervisorRestart
  repeat' first
    | with_reducible exact h
    | with_reducible assumption
    | with_reducible refine closeChannels_ev (le_trans' hf rfl) ?_
    | with_reducible refine commitMask_ev (le_trans' hf rfl) ?_
    | with_reducible refine emptySnaps_ev (le_trans' hf rfl) ?_
    | with_reducible refine firmwareRuns_ev (le_trans' hf rfl) ?_
    | with_reducible refine setUpd_ev (le_trans' hf rfl) ?_
    | with_reducible refine ev_reachLocal (part_mem hf rfl) (part_mem hf rfl) ?_
    | with_reducible refine ev_ite (fun _ => ?_) (fun _ => ?_)
    | exact reg_any hf rfl _
    | exact Fin.isLt _
    | omega
    | split

theorem notePitchRefused_ev {k : Fin 4} {x0 : ImageContent} (hf : Foot.le ⟨[.log], [.cmd], false⟩ f) (h : Ev f s x) :
    Ev f s (notePitchRefused k x0 x) := by
  unfold notePitchRefused
  repeat' first
    | with_reducible exact h
    | with_reducible assumption
    | with_reducible refine refusePitch_ev (le_trans' hf rfl) ?_
    | with_reducible refine ev_ite (fun _ => ?_) (fun _ => ?_)
    | exact Fin.isLt _
    | omega
    | split
    | dsimp only

theorem execImageVerified_ev (hf : Foot.le ⟨[.log, .cmd, .upd], [.cmd, .upd], false⟩ f) (h : Ev f s x) :
    EvO f s (execImageVerified x) := by
  unfold execImageVerified
  repeat' first
    | with_reducible exact h
    | with_reducible assumption
    | with_reducible refine endOp_ev (le_trans' hf rfl) ?_
    | with_reducible refine notePitchRefused_ev (le_trans' hf rfl) ?_
    | with_reducible refine setJournal_ev (le_trans' hf rfl) ?_
    | with_reducible refine ev_logEvent (part_mem hf rfl) (block_mem hf rfl) ?_
    | with_reducible refine ev_logN (part_mem hf rfl) (block_mem hf rfl) ?_
    | with_reducible refine ev_whenS (fun hc y hy => ?_) ?_
    | with_reducible refine evo_next ?_
    | with_reducible refine evo_ite (fun _ => ?_) (fun _ => ?_)
    | with_reducible refine ev_ite (fun _ => ?_) (fun _ => ?_)
    | exact reg_block hf .cmd rfl rfl
    | exact Fin.isLt _
    | omega
    | split

theorem scanSwaps_ev {k : Fin 2} (hf : Foot.le ⟨[.tai, .ticks, .log, .scan, .cmd, .upd], [.scan, .cmd, .upd], false⟩ f) (h : Ev f s x) :
    Ev f s (scanSwaps k x) := by
  unfold scanSwaps
  repeat' first
    | with_reducible exact h
    | with_reducible assumption
    | with_reducible refine commitMask_ev (le_trans' hf rfl) ?_
    | with_reducible refine reachSwap_ev (le_trans' hf rfl) ?_
    | with_reducible refine trialMask_ev (le_trans' hf rfl) ?_
    | with_reducible refine ev_whenS (fun hc y hy => ?_) ?_
    | with_reducible refine ev_ite (fun _ => ?_) (fun _ => ?_)
    | exact Fin.isLt _
    | omega
    | split
    | dsimp only

theorem execProgSwap_ev {k : Fin 2} (hf : Foot.le ⟨[.tai, .ticks, .log, .scan, .cmd, .upd], [.scan, .cmd, .upd], false⟩ f) (h : Ev f s x) :
    EvO f s (execProgSwap k x) := by
  unfold execProgSwap
  repeat' first
    | with_reducible exact h
    | with_reducible assumption
    | with_reducible refine scanSwaps_ev (le_trans' hf rfl) ?_
    | with_reducible refine evo_next ?_

theorem execTrialExpired_ev (hf : Foot.le ⟨[.snap, .busReply, .fresh, .tai, .ticks, .log, .fab, .pwr, .time, .adc, .filt, .loop, .gfm, .prot, .scan, .fio, .dpx, .cmd, .recd, .net, .upd], [.sys, .pwr, .prot, .scan, .dpx, .net, .cmd, .upd, .fab, .pwm], true⟩ f) (h : Ev f s x) :
    EvO f s (execTrialExpired x) := by
  unfold execTrialExpired
  repeat' first
    | with_reducible exact h
    | with_reducible assumption
    | with_reducible refine revertKind_ev (le_trans' hf rfl) ?_
    | with_reducible refine ev_reachLocal (part_mem hf rfl) (part_mem hf rfl) ?_
    | (with_reducible refine ev_forEach_range (fun i hi y hy => ?_) ?_)
    | (with_reducible refine ev_forEach (fun i hi y hy => ?_) ?_)
    | with_reducible refine evo_next ?_
    | with_reducible refine evo_ite (fun _ => ?_) (fun _ => ?_)
    | with_reducible refine ev_ite (fun _ => ?_) (fun _ => ?_)
    | exact reg_any hf rfl _
    | exact mem4 (by assumption)
    | exact Fin.isLt _
    | omega
    | split

theorem execDeferredRevert_ev (hf : Foot.le ⟨[.snap, .busReply, .fresh, .log, .fab, .pwr, .time, .adc, .filt, .loop, .gfm, .prot, .scan, .fio, .dpx, .cmd, .recd, .net, .upd], [.sys, .pwr, .prot, .dpx, .net, .cmd, .upd, .pwm], true⟩ f) (h : Ev f s x) :
    EvO f s (execDeferredRevert x) := by
  unfold execDeferredRevert
  repeat' first
    | with_reducible exact h
    | with_reducible assumption
    | with_reducible refine ownColdStart_ev (le_trans' hf rfl) ?_
    | with_reducible refine evo_next ?_
    | with_reducible refine evo_ite (fun _ => ?_) (fun _ => ?_)

theorem execSettingsApplied_ev (hf : Foot.le ⟨[.tai, .ticks, .log, .time, .adc, .filt, .loop, .gfm, .prot, .scan, .fio, .cmd, .recd, .net, .upd], [.clk, .time, .adc, .filt, .ctrl, .gfm, .prot, .recd, .scan, .fio, .dpx, .net, .cmd, .pwm], true⟩ f) (h : Ev f s x) :
    EvO f s (execSettingsApplied x) := by
  unfold execSettingsApplied
  repeat' first
    | with_reducible exact h
    | with_reducible assumption
    | with_reducible refine settingsAtBoundary_ev (le_trans' hf rfl) ?_
    | with_reducible refine ev_reachNs (part_mem hf rfl) (part_mem hf rfl) ?_
    | with_reducible refine evo_next ?_
    | with_reducible refine evo_ite (fun _ => ?_) (fun _ => ?_)
    | with_reducible refine ev_ite (fun _ => ?_) (fun _ => ?_)
    | exact reg_any hf rfl _
    | exact Fin.isLt _
    | omega
    | split

end Sys2Proof.Laws
end

