-- ==== Sys2Proof/Laws/EvStart.lean ====
section
/-! SUPPORT. What each change of Machine/Start.lean can touch, and that it keeps the state sound: one lemma a function. -/

namespace Sys2Proof.Laws

open Sys2Proof Sys2Proof.Machine Sys2Proof.Safety

variable {f : Foot} {s x : State}

theorem quietPart_ev {t : Nat} (hf : Foot.le ⟨[.tai, .ticks, .log, .pwr, .scan, .fio, .cmd, .recd], [.pwr, .recd, .fio, .cmd], false⟩ f) (h : Ev f s x) :
    Ev f s (quietPart t x) := by
  unfold quietPart
  repeat' first
    | with_reducible exact h
    | with_reducible assumption
    | with_reducible refine commitBoth_ev (le_trans' hf rfl) ?_
    | with_reducible refine railsOff_ev (le_trans' hf rfl) ?_
    | with_reducible refine recDisarmed_ev (le_trans' hf rfl) ?_
    | with_reducible refine setRec_ev (le_trans' hf rfl) ?_
    | with_reducible refine sleepField_ev (le_trans' hf rfl) ?_
    | with_reducible refine ev_reachLocal (part_mem hf rfl) (part_mem hf rfl) ?_

theorem continueSleep_ev (hf : Foot.le ⟨[.snap, .busReply, .tai, .ticks, .log, .fab, .pwr, .time, .adc, .filt, .loop, .gfm, .prot, .scan, .fio, .dpx, .cmd, .recd, .net, .upd], [.pwr, .prot, .recd, .fio, .dpx, .net, .cmd, .upd, .pwm], true⟩ f) (h : Ev f s x) :
    Ev f s (continueSleep x) := by
  unfold continueSleep
  repeat' first
    | with_reducible exact h
    | with_reducible assumption
    | with_reducible refine driveOwner_ev (le_trans' hf rfl) ?_
    | with_reducible refine hold_ev (le_trans' hf rfl) ?_
    | with_reducible refine quietPart_ev (le_trans' hf rfl) ?_
    | with_reducible refine setPwr_ev (le_trans' hf rfl) ?_
    | with_reducible refine ev_setF ?_ ?_
    | with_reducible refine ev_wr64 ?_ ?_ ?_
    | with_reducible refine ev_logN (part_mem hf rfl) (block_mem hf rfl) ?_
    | with_reducible refine ev_reachLocal (part_mem hf rfl) (part_mem hf rfl) ?_
    | with_reducible refine ev_ite (fun _ => ?_) (fun _ => ?_)
    | exact reg_any hf rfl _
    | exact Fin.isLt _
    | omega
    | split

theorem sleepEntry_ev (hf : Foot.le ⟨[.snap, .busReply, .tai, .ticks, .log, .fab, .pwr, .time, .adc, .filt, .loop, .gfm, .prot, .scan, .fio, .dpx, .cmd, .recd, .net, .upd], [.sys, .pwr, .prot, .recd, .scan, .fio, .dpx, .net, .cmd, .upd, .pwm], true⟩ f) (h : Ev f s x) :
    Ev f s (sleepEntry x) := by
  unfold sleepEntry
  repeat' first
    | with_reducible exact h
    | with_reducible assumption
    | with_reducible refine continueSleep_ev (le_trans' hf rfl) ?_
    | with_reducible refine driveOwner_ev (le_trans' hf rfl) ?_
    | with_reducible refine setPwr_ev (le_trans' hf rfl) ?_
    | with_reducible refine stopRequest_ev (le_trans' hf rfl) ?_
    | with_reducible refine ev_setF ?_ ?_
    | (with_reducible refine ev_forEach_range (fun i hi y hy => ?_) ?_)
    | (with_reducible refine ev_forEach (fun i hi y hy => ?_) ?_)
    | with_reducible refine ev_ite (fun _ => ?_) (fun _ => ?_)
    | exact reg_any hf rfl _

theorem startMs_ev {ms : Nat} (hf : Foot.le ⟨[.tai, .ticks], [], false⟩ f) (h : Ev f s x) :
    Ev f s (startMs ms x) := by
  unfold startMs
  repeat' first
    | with_reducible exact h
    | with_reducible assumption
    | with_reducible refine ev_reachLocal (part_mem hf rfl) (part_mem hf rfl) ?_

theorem powerOn_ev (hf : Foot.le ⟨[.pwr, .fio], [.sys, .pwr, .fio], false⟩ f) (h : Ev f s x) :
    Ev f s (powerOn x) := by
  unfold powerOn
  repeat' first
    | with_reducible exact h
    | with_reducible assumption
    | with_reducible refine fieldPowerUp_ev (le_trans' hf rfl) ?_
    | with_reducible refine setPwr_ev (le_trans' hf rfl) ?_
    | with_reducible refine ev_wr ?_ ?_
    | with_reducible refine ev_setF ?_ ?_
    | with_reducible refine ev_ite (fun _ => ?_) (fun _ => ?_)
    | exact reg_block hf .sys rfl rfl
    | exact reg_block hf .pwr rfl rfl

theorem startTime_ev (hf : Foot.le ⟨[.tai, .time], [.time], false⟩ f) (h : Ev f s x) :
    Ev f s (startTime x) := by
  unfold startTime
  repeat' first
    | with_reducible exact h
    | with_reducible assumption
    | with_reducible refine toTimeState_ev (le_trans' hf rfl) ?_
    | with_reducible refine ev_ite (fun _ => ?_) (fun _ => ?_)
    | exact Fin.isLt _
    | omega
    | split
    | dsimp only
    | with_reducible refine ev_tai (part_mem hf rfl) ?_

theorem dropVolatile_ev (hf : Foot.le ⟨[.mem, .fab], [], false⟩ f) (h : Ev f s x) :
    Ev f s (dropVolatile x) := by
  exact ev_fab' (v := { x.fab with tileMem := [] }) (part_mem hf rfl) (fun _ => rfl) (ev_mem (part_mem hf rfl) (swf_filter _ _ _) h)

theorem leaveReset_ev {kind : Nat} {p : StartPins} (hf : Foot.le ⟨[.mem, .fresh, .tai, .ticks, .log, .fab, .pwr, .time, .fio, .upd], [.sys, .pwr, .time, .fio, .dpx, .cmd, .upd], false⟩ f) (h : Ev f s x) :
    Ev f s (leaveReset kind p x) := by
  unfold leaveReset
  repeat' first
    | with_reducible exact h
    | with_reducible assumption
    | with_reducible refine dropVolatile_ev (le_trans' hf rfl) ?_
    | with_reducible refine newNonce_ev (le_trans' hf rfl) ?_
    | with_reducible refine powerOn_ev (le_trans' hf rfl) ?_
    | with_reducible refine railsOn_ev (le_trans' hf rfl) ?_
    | with_reducible refine setPwr_ev (le_trans' hf rfl) ?_
    | with_reducible refine setUpd_ev (le_trans' hf rfl) ?_
    | with_reducible refine showUpd_ev (le_trans' hf rfl) ?_
    | with_reducible refine startLink_ev (le_trans' hf rfl) ?_
    | with_reducible refine startTime_ev (le_trans' hf rfl) ?_
    | with_reducible refine ev_setF ?_ ?_
    | with_reducible refine ev_logN (part_mem hf rfl) (block_mem hf rfl) ?_
    | with_reducible refine ev_whenS (fun hc y hy => ?_) ?_
    | with_reducible refine ev_ite (fun _ => ?_) (fun _ => ?_)
    | exact reg_block hf .sys rfl rfl
    | exact reg_block hf .dpx rfl rfl
    | exact reg_block hf .cmd rfl rfl
    | exact Fin.isLt _
    | omega
    | split
    | dsimp only
    | with_reducible refine ev_ticks (part_mem hf rfl) ?_

theorem becomeUnusable_ev (hf : Foot.le ⟨[.pwr], [], false⟩ f) (h : Ev f s x) :
    Ev f s (becomeUnusable x) := by
  unfold becomeUnusable
  repeat' first
    | with_reducible exact h
    | with_reducible assumption
    | with_reducible refine setPwr_ev (le_trans' hf rfl) ?_

theorem enterKindling_ev {src : Nat} (hf : Foot.le ⟨[.log, .pwr, .fio], [.sys, .cmd, .upd], false⟩ f) (h : Ev f s x) :
    Ev f s (enterKindling src x) := by
  unfold enterKindling
  repeat' first
    | with_reducible exact h
    | with_reducible assumption
    | with_reducible refine setPwr_ev (le_trans' hf rfl) ?_
    | with_reducible refine stopLink_ev (le_trans' hf rfl) ?_
    | with_reducible refine ev_setF ?_ ?_
    | with_reducible refine ev_logN (part_mem hf rfl) (block_mem hf rfl) ?_
    | with_reducible refine ev_ite (fun _ => ?_) (fun _ => ?_)
    | exact reg_block hf .sys rfl rfl
    | exact reg_block hf .cmd rfl rfl
    | exact reg_block hf .upd rfl rfl

theorem countBoot_ev (hf : Foot.le ⟨[.upd], [.upd], false⟩ f) (h : Ev f s x) :
    Ev f s (countBoot x) := by
  unfold countBoot
  repeat' first
    | with_reducible exact h
    | with_reducible assumption
    | with_reducible refine setUpd_ev (le_trans' hf rfl) ?_
    | with_reducible refine showUpd_ev (le_trans' hf rfl) ?_

theorem applyJournal_ev {k : Fin 4} (hf : Foot.le ⟨[.log, .upd], [.cmd, .upd], false⟩ f) (h : Ev f s x) :
    Ev f s (applyJournal k x) := by
  unfold applyJournal
  repeat' first
    | with_reducible exact h
    | with_reducible assumption
    | with_reducible refine returnSettings_ev (le_trans' hf rfl) ?_
    | with_reducible refine revertJournal_ev (le_trans' hf rfl) ?_
    | with_reducible refine setJournal_ev (le_trans' hf rfl) ?_
    | with_reducible refine setUpd_ev (le_trans' hf rfl) ?_
    | with_reducible refine ev_logN (part_mem hf rfl) (block_mem hf rfl) ?_
    | with_reducible refine ev_whenS (fun hc y hy => ?_) ?_
    | with_reducible refine ev_ite (fun _ => ?_) (fun _ => ?_)
    | exact reg_block hf .cmd rfl rfl
    | exact Fin.isLt _
    | omega
    | split
    | dsimp only

theorem startSlot_ev {k : Fin 4} {ok : Fin 2 → Bool} (hf : Foot.le ⟨[.log, .upd], [.cmd, .upd], false⟩ f) (h : Ev f s x) :
    Ev f s (startSlot k ok x).2 := by
  unfold startSlot
  repeat' first
    | with_reducible exact h
    | with_reducible assumption
    | with_reducible refine setJournal_ev (le_trans' hf rfl) ?_
    | with_reducible refine setUpd_ev (le_trans' hf rfl) ?_
    | with_reducible refine ev_setF ?_ ?_
    | with_reducible refine ev_logN (part_mem hf rfl) (block_mem hf rfl) ?_
    | with_reducible refine ev_ite2 (fun _ => ?_) (fun _ => ?_)
    | with_reducible refine ev_ite (fun _ => ?_) (fun _ => ?_)
    | with_reducible refine reg_UPD_KIND_STATE hf rfl ?_
    | exact reg_block hf .cmd rfl rfl
    | exact reg_block hf .upd rfl rfl
    | exact Fin.isLt _
    | omega

theorem noteRefused_ev {sl : Option (Fin 2)} {i : Fin 2} (hf : Foot.le ⟨[.log], [.cmd], false⟩ f) (h : Ev f s x) :
    Ev f s (noteRefused sl i x) := by
  unfold noteRefused
  repeat' first
    | with_reducible exact h
    | with_reducible assumption
    | with_reducible refine refusePitch_ev (le_trans' hf rfl) ?_
    | with_reducible refine ev_ite (fun _ => ?_) (fun _ => ?_)
    | exact Fin.isLt _
    | omega
    | split

theorem noteSlots_ev {sl : Option (Fin 2)} (hf : Foot.le ⟨[.log], [.cmd], false⟩ f) (h : Ev f s x) :
    Ev f s (noteSlots sl x) := by
  unfold noteSlots
  repeat' first
    | with_reducible exact h
    | with_reducible assumption
    | with_reducible refine noteRefused_ev (le_trans' hf rfl) ?_
    | with_reducible refine ev_whenS (fun hc y hy => ?_) ?_

theorem loadGroups_ev {waived : Bool} {slot : Nat} {l : List PitchImage} (hf : Foot.le ⟨[.log, .fab, .adc], [.ctrl, .cmd, .fab], true⟩ f) (h : Ev f s x) :
    Ev f s (loadGroups waived slot l x) := by
  induction l generalizing x with
  | nil => exact h
  | cons g gs ih =>
    unfold loadGroups
    split
    · exact ih (applyChange_ev (le_trans' hf rfl) h)
    · exact ev_whenS (fun _ y hy => ev_logN (part_mem hf rfl) (block_mem hf rfl) hy) (refusePitch_ev (le_trans' hf rfl) h)

theorem firstFrame_ev {ms : Nat} (hf : Foot.le ⟨[.tai, .ticks, .time], [], false⟩ f) (h : Ev f s x) :
    Ev f s (firstFrame ms x) := by
  unfold firstFrame
  repeat' first
    | with_reducible exact h
    | with_reducible assumption
    | with_reducible refine ev_advanceTo (part_mem hf rfl) (part_mem hf rfl) ?_
    | with_reducible refine ev_ite (fun _ => ?_) (fun _ => ?_)
    | exact Fin.isLt _
    | omega
    | split
    | dsimp only
    | with_reducible refine ev_time (part_mem hf rfl) ?_

theorem applyPlans_ev {p : PitchImage} {v : Nat} (hf : Foot.le ⟨[.tai, .ticks, .fab, .time, .loop], [.clk], true⟩ f) (h : Ev f s x) :
    Ev f s (applyPlans p v x) := by
  unfold applyPlans applyMclk
  exact ev_time (part_mem hf rfl) (applyClockPlan_ev (le_trans' hf rfl) (ev_reachLocal (part_mem hf rfl) (part_mem hf rfl)
    (carriersAfter_ev (le_trans' hf rfl) (applyPinmux_ev (le_trans' hf rfl)
      (ev_reachLocal (part_mem hf rfl) (part_mem hf rfl) h)))))

theorem loadPitch_ev {sl : Option (Fin 2)} {ms : Nat} (hf : Foot.le ⟨[.tai, .ticks, .log, .fab, .pwr, .time, .adc, .filt, .loop], [.clk, .filt, .ctrl, .cmd, .fab], true⟩ f) (h : Ev f s x) :
    Ev f s (loadPitch sl ms x) := by
  unfold loadPitch
  repeat' first
    | with_reducible exact h
    | with_reducible assumption
    | with_reducible refine applyPlans_ev (le_trans' hf rfl) ?_
    | with_reducible refine chainsAfterImage_ev (le_trans' hf rfl) ?_
    | with_reducible refine firstFrame_ev (le_trans' hf rfl) ?_
    | with_reducible refine loadFull_ev (le_trans' hf rfl) ?_
    | with_reducible refine loadGroups_ev (le_trans' hf rfl) ?_
    | with_reducible refine setPwr_ev (le_trans' hf rfl) ?_
    | with_reducible refine ev_ite (fun _ => ?_) (fun _ => ?_)
    | exact reg_any hf rfl _
    | exact Fin.isLt _
    | omega
    | split
    | dsimp only

theorem pitchStage_ev {kind : Nat} {sl : Option (Fin 2)} {cal : Vector CalSet 4} (hf : Foot.le ⟨[.tai, .ticks, .log, .fab, .pwr, .time, .adc, .filt, .loop, .upd], [.sys, .clk, .adc, .filt, .ctrl, .cmd, .upd, .fab], true⟩ f) (h : Ev f s x) :
    Ev f s (pitchStage kind sl cal x).2 := by
  unfold pitchStage
  repeat' first
    | with_reducible exact h
    | with_reducible assumption
    | with_reducible refine finishCal_ev (le_trans' hf rfl) ?_
    | with_reducible refine loadPitch_ev (le_trans' hf rfl) ?_
    | with_reducible refine noteSlots_ev (le_trans' hf rfl) ?_
    | with_reducible refine startMs_ev (le_trans' hf rfl) ?_
    | with_reducible refine startSlot_ev (le_trans' hf rfl) ?_
    | with_reducible refine takeRecord_ev (le_trans' hf rfl) ?_
    | refine ev_snd (by assumption) ?_
    | with_reducible refine ev_setF ?_ ?_
    | (with_reducible refine ev_forEach_range (fun i hi y hy => ?_) ?_)
    | (with_reducible refine ev_forEach (fun i hi y hy => ?_) ?_)
    | with_reducible refine ev_ite2 (fun _ => ?_) (fun _ => ?_)
    | with_reducible refine ev_ite (fun _ => ?_) (fun _ => ?_)
    | exact reg_any hf rfl _

theorem firmwareStage_ev {kind : Nat} {kept : Bool} (hf : Foot.le ⟨[.tai, .ticks, .log, .upd], [.sys, .cmd, .upd], false⟩ f) (h : Ev f s x) :
    Ev f s (firmwareStage kind kept x).2 := by
  unfold firmwareStage
  repeat' first
    | with_reducible exact h
    | with_reducible assumption
    | with_reducible refine startMs_ev (le_trans' hf rfl) ?_
    | with_reducible refine startSlot_ev (le_trans' hf rfl) ?_
    | refine ev_snd (by assumption) ?_
    | with_reducible refine ev_setF ?_ ?_
    | with_reducible refine ev_ite2 (fun _ => ?_) (fun _ => ?_)
    | with_reducible refine ev_ite (fun _ => ?_) (fun _ => ?_)
    | exact reg_block hf .sys rfl rfl

theorem loadScan_ev (hf : Foot.le ⟨[.log, .scan, .upd], [.scan, .cmd, .upd], false⟩ f) (h : Ev f s x) :
    Ev f s (loadScan x) := by
  unfold loadScan
  repeat' first
    | with_reducible exact h
    | with_reducible assumption
    | with_reducible refine loadProgram_ev (le_trans' hf rfl) ?_
    | with_reducible refine startSlot_ev (le_trans' hf rfl) ?_
    | refine ev_snd (by assumption) ?_
    | (with_reducible refine ev_forEach_range (fun i hi y hy => ?_) ?_)
    | (with_reducible refine ev_forEach (fun i hi y hy => ?_) ?_)
    | with_reducible refine ev_ite (fun _ => ?_) (fun _ => ?_)
    | exact mem4 (by assumption)
    | exact Fin.isLt _
    | omega
    | split

theorem recAtStart_ev {kind : Nat} (hf : Foot.le ⟨[.log, .recd], [.recd, .cmd], false⟩ f) (h : Ev f s x) :
    Ev f s (recAtStart kind x) := by
  unfold recAtStart
  repeat' first
    | with_reducible exact h
    | with_reducible assumption
    | with_reducible refine finishLate_ev (le_trans' hf rfl) ?_
    | with_reducible refine setRec_ev (le_trans' hf rfl) ?_
    | with_reducible refine ev_logEvent (part_mem hf rfl) (block_mem hf rfl) ?_
    | (with_reducible refine ev_forEach_range (fun i hi y hy => ?_) ?_)
    | (with_reducible refine ev_forEach (fun i hi y hy => ?_) ?_)
    | with_reducible refine ev_ite (fun _ => ?_) (fun _ => ?_)

theorem settingsTake_ev {kind : Nat} (hf : Foot.le ⟨[.tai, .log, .time, .adc, .filt, .loop, .gfm, .prot, .scan, .fio, .cmd, .recd, .net, .upd], [.sys, .clk, .time, .adc, .filt, .ctrl, .gfm, .prot, .recd, .scan, .fio, .dpx, .net, .cmd, .upd, .pwm], true⟩ f) (h : Ev f s x) :
    Ev f s (settingsTake kind x) := by
  unfold settingsTake
  repeat' first
    | with_reducible exact h
    | with_reducible assumption
    | with_reducible refine applyRecords_ev (le_trans' hf rfl) ?_
    | with_reducible refine loadScan_ev (le_trans' hf rfl) ?_
    | with_reducible refine recAtStart_ev (le_trans' hf rfl) ?_
    | with_reducible refine showCap_ev (le_trans' hf rfl) ?_
    | with_reducible refine showStore_ev (le_trans' hf rfl) ?_
    | with_reducible refine thermalRestore_ev (le_trans' hf rfl) ?_
    | with_reducible refine ev_wr ?_ ?_
    | with_reducible refine ev_setF ?_ ?_
    | with_reducible refine ev_ite (fun _ => ?_) (fun _ => ?_)
    | exact reg_any hf rfl _
    | exact Fin.isLt _
    | omega
    | split
    | dsimp only
    | with_reducible refine ev_fio (part_mem hf rfl) ?_

theorem firstFirmwareStart_ev (hf : Foot.le ⟨[.snap, .busReply, .fresh, .log, .fab, .pwr, .time, .adc, .filt, .loop, .gfm, .prot, .scan, .fio, .dpx, .cmd, .recd, .net, .upd], [.sys, .pwr, .prot, .scan, .dpx, .net, .cmd, .upd, .fab, .pwm], true⟩ f) (h : Ev f s x) :
    Ev f s (firstFirmwareStart x) := by
  unfold firstFirmwareStart
  repeat' first
    | with_reducible exact h
    | with_reducible assumption
    | with_reducible refine migrateSettings_ev (le_trans' hf rfl) ?_
    | with_reducible refine revertKind_ev (le_trans' hf rfl) ?_
    | with_reducible refine setUpd_ev (le_trans' hf rfl) ?_
    | with_reducible refine ev_logEvent (part_mem hf rfl) (block_mem hf rfl) ?_
    | with_reducible refine ev_ite (fun _ => ?_) (fun _ => ?_)
    | exact reg_any hf rfl _
    | exact Fin.isLt _
    | omega
    | split

theorem startTrials_ev (hf : Foot.le ⟨[.log, .upd], [.cmd], false⟩ f) (h : Ev f s x) :
    Ev f s (startTrials x) := by
  unfold startTrials
  repeat' first
    | with_reducible exact h
    | with_reducible assumption
    | with_reducible refine setUpd_ev (le_trans' hf rfl) ?_
    | with_reducible refine ev_logN (part_mem hf rfl) (block_mem hf rfl) ?_
    | (with_reducible refine ev_forEach_range (fun i hi y hy => ?_) ?_)
    | (with_reducible refine ev_forEach (fun i hi y hy => ?_) ?_)
    | with_reducible refine ev_ite (fun _ => ?_) (fun _ => ?_)

theorem becomeReady_ev (hf : Foot.le ⟨[.log, .pwr, .loop, .dpx, .upd], [.sys, .dpx, .cmd, .upd, .pwm], false⟩ f) (h : Ev f s x) :
    Ev f s (becomeReady x) := by
  unfold becomeReady
  repeat' first
    | with_reducible exact h
    | with_reducible assumption
    | with_reducible refine dpxAtReady_ev (le_trans' hf rfl) ?_
    | with_reducible refine setPwr_ev (le_trans' hf rfl) ?_
    | with_reducible refine setUpd_ev (le_trans' hf rfl) ?_
    | with_reducible refine showUpd_ev (le_trans' hf rfl) ?_
    | with_reducible refine startTrials_ev (le_trans' hf rfl) ?_
    | with_reducible refine ev_setF ?_ ?_
    | with_reducible refine ev_logN (part_mem hf rfl) (block_mem hf rfl) ?_
    | with_reducible refine ev_ite (fun _ => ?_) (fun _ => ?_)
    | exact reg_block hf .sys rfl rfl

theorem finishStart_ev {kind : Nat} (hf : Foot.le ⟨[.snap, .busReply, .fresh, .tai, .ticks, .log, .fab, .pwr, .time, .adc, .filt, .loop, .gfm, .prot, .scan, .fio, .dpx, .cmd, .recd, .net, .upd], [.sys, .pwr, .clk, .time, .adc, .filt, .ctrl, .gfm, .prot, .recd, .scan, .fio, .dpx, .net, .cmd, .upd, .fab, .pwm], true⟩ f) (h : Ev f s x) :
    Ev f s (finishStart kind x) := by
  unfold finishStart
  repeat' first
    | with_reducible exact h
    | with_reducible assumption
    | with_reducible refine becomeReady_ev (le_trans' hf rfl) ?_
    | with_reducible refine firstFirmwareStart_ev (le_trans' hf rfl) ?_
    | with_reducible refine settingsTake_ev (le_trans' hf rfl) ?_
    | with_reducible refine startMs_ev (le_trans' hf rfl) ?_
    | with_reducible refine ev_ite (fun _ => ?_) (fun _ => ?_)

theorem romPlls_ev (hf : Foot.le ⟨[], [.clk], false⟩ f) (h : Ev f s x) :
    Ev f s (romPlls x) := by
  unfold romPlls
  repeat' first
    | with_reducible exact h
    | with_reducible assumption
    | with_reducible refine ev_setF ?_ ?_
    | with_reducible refine ev_ite (fun _ => ?_) (fun _ => ?_)
    | exact reg_block hf .clk rfl rfl

theorem bootStage_ev {kind : Nat} {sl : Option (Fin 2)} {cal : Vector CalSet 4} (hf : Foot.le ⟨[.snap, .busReply, .fresh, .tai, .ticks, .log, .fab, .pwr, .time, .adc, .filt, .loop, .gfm, .prot, .scan, .fio, .dpx, .cmd, .recd, .net, .upd], [.sys, .pwr, .clk, .time, .adc, .filt, .ctrl, .gfm, .prot, .recd, .scan, .fio, .dpx, .net, .cmd, .upd, .fab, .pwm], true⟩ f) (h : Ev f s x) :
    Ev f s (bootStage kind sl cal x) := by
  unfold bootStage
  repeat' first
    | with_reducible exact h
    | with_reducible assumption
    | with_reducible refine applyJournal_ev (le_trans' hf rfl) ?_
    | with_reducible refine countBoot_ev (le_trans' hf rfl) ?_
    | with_reducible refine fatalReset_ev (le_trans' hf rfl) ?_
    | with_reducible refine finishStart_ev (le_trans' hf rfl) ?_
    | with_reducible refine firmwareStage_ev (le_trans' hf rfl) ?_
    | with_reducible refine pitchStage_ev (le_trans' hf rfl) ?_
    | with_reducible refine startMs_ev (le_trans' hf rfl) ?_
    | refine ev_snd (by assumption) ?_
    | with_reducible refine ev_setF ?_ ?_
    | (with_reducible refine ev_forEach_range (fun i hi y hy => ?_) ?_)
    | (with_reducible refine ev_forEach (fun i hi y hy => ?_) ?_)
    | with_reducible refine ev_ite (fun _ => ?_) (fun _ => ?_)
    | exact reg_any hf rfl _
    | exact mem4 (by assumption)
    | exact Fin.isLt _
    | omega
    | split

theorem startPart_ev {kind : Nat} {sl : Option (Fin 2)} {p : StartPins} {cal : Vector CalSet 4} (hf : Foot.le ⟨[.mem, .snap, .busReply, .fresh, .tai, .ticks, .log, .fab, .pwr, .time, .adc, .filt, .loop, .gfm, .prot, .scan, .fio, .dpx, .cmd, .recd, .net, .upd], [.sys, .pwr, .clk, .time, .adc, .filt, .ctrl, .gfm, .prot, .recd, .scan, .fio, .dpx, .net, .cmd, .upd, .fab, .pwm], true⟩ f) (h : Ev f s x) :
    Ev f s (startPart kind sl p cal x) := by
  unfold startPart
  repeat' first
    | with_reducible exact h
    | with_reducible assumption
    | with_reducible refine becomeUnusable_ev (le_trans' hf rfl) ?_
    | with_reducible refine bootStage_ev (le_trans' hf rfl) ?_
    | with_reducible refine enterKindling_ev (le_trans' hf rfl) ?_
    | with_reducible refine leaveReset_ev (le_trans' hf rfl) ?_
    | with_reducible refine romPlls_ev (le_trans' hf rfl) ?_
    | with_reducible refine startMs_ev (le_trans' hf rfl) ?_
    | with_reducible refine ev_ite (fun _ => ?_) (fun _ => ?_)
    | exact reg_any hf rfl _
    | exact Fin.isLt _
    | omega
    | split
    | dsimp only

theorem execColdStart_ev {p : StartPins} {cal : Vector CalSet 4} (hf : Foot.le ⟨[.mem, .snap, .busReply, .fresh, .tai, .ticks, .log, .fab, .pwr, .time, .adc, .filt, .loop, .gfm, .prot, .scan, .fio, .dpx, .cmd, .recd, .net, .upd], [.sys, .pwr, .clk, .time, .adc, .filt, .ctrl, .gfm, .prot, .recd, .scan, .fio, .dpx, .net, .cmd, .upd, .fab, .pwm], true⟩ f) (h : Ev f s x) :
    EvO f s (execColdStart p cal x) := by
  unfold execColdStart
  repeat' first
    | with_reducible exact h
    | with_reducible assumption
    | with_reducible refine resetPart_ev (le_trans' hf rfl) ?_
    | with_reducible refine setPwr_ev (le_trans' hf rfl) ?_
    | with_reducible refine setUpd_ev (le_trans' hf rfl) ?_
    | with_reducible refine startPart_ev (le_trans' hf rfl) ?_
    | with_reducible refine evo_next ?_
    | with_reducible refine evo_ite (fun _ => ?_) (fun _ => ?_)

theorem execWarmStart_ev {p : StartPins} {refreshOk : Bool} {hashOk : Bool} {cal : Vector CalSet 4} (hf : Foot.le ⟨[.mem, .snap, .busReply, .fresh, .tai, .ticks, .log, .fab, .pwr, .time, .adc, .filt, .loop, .gfm, .prot, .scan, .fio, .dpx, .cmd, .recd, .net, .upd], [.sys, .pwr, .clk, .time, .adc, .filt, .ctrl, .gfm, .prot, .recd, .scan, .fio, .dpx, .net, .cmd, .upd, .fab, .pwm], true⟩ f) (h : Ev f s x) :
    EvO f s (execWarmStart p refreshOk hashOk cal x) := by
  unfold execWarmStart
  repeat' first
    | with_reducible exact h
    | with_reducible assumption
    | with_reducible refine setCause_ev (le_trans' hf rfl) ?_
    | with_reducible refine startPart_ev (le_trans' hf rfl) ?_
    | with_reducible refine ev_logN (part_mem hf rfl) (block_mem hf rfl) ?_
    | with_reducible refine evo_next ?_
    | with_reducible refine evo_ite (fun _ => ?_) (fun _ => ?_)
    | with_reducible refine ev_ite (fun _ => ?_) (fun _ => ?_)
    | exact reg_any hf rfl _
    | exact Fin.isLt _
    | omega
    | split

theorem reachAlarm_ev (hf : Foot.le ⟨[.tai, .ticks], [], false⟩ f) (h : Ev f s x) :
    Ev f s (reachAlarm x) := by
  unfold reachAlarm
  repeat' first
    | with_reducible exact h
    | with_reducible assumption
    | with_reducible refine ev_reachLocal (part_mem hf rfl) (part_mem hf rfl) ?_
    | with_reducible refine ev_ite (fun _ => ?_) (fun _ => ?_)

theorem execWake_ev {sources : BitVec 8} {p : StartPins} {cal : Vector CalSet 4} (hf : Foot.le ⟨[.mem, .snap, .busReply, .fresh, .tai, .ticks, .log, .fab, .pwr, .time, .adc, .filt, .loop, .gfm, .prot, .scan, .fio, .dpx, .cmd, .recd, .net, .upd], [.sys, .pwr, .clk, .time, .adc, .filt, .ctrl, .gfm, .prot, .recd, .scan, .fio, .dpx, .net, .cmd, .upd, .fab, .pwm], true⟩ f) (h : Ev f s x) :
    EvO f s (execWake sources p cal x) := by
  unfold execWake
  repeat' first
    | with_reducible exact h
    | with_reducible assumption
    | with_reducible refine reachAlarm_ev (le_trans' hf rfl) ?_
    | with_reducible refine setCause_ev (le_trans' hf rfl) ?_
    | with_reducible refine startPart_ev (le_trans' hf rfl) ?_
    | with_reducible refine ev_setF ?_ ?_
    | with_reducible refine ev_logN (part_mem hf rfl) (block_mem hf rfl) ?_
    | with_reducible refine evo_next ?_
    | with_reducible refine evo_ite (fun _ => ?_) (fun _ => ?_)
    | with_reducible refine ev_ite (fun _ => ?_) (fun _ => ?_)
    | exact reg_any hf rfl _

theorem execCycleComplete_ev {k : Fin 2} {t : Fin 8} {at' : BitVec 64} {w : CycleResult} (hf : Foot.le ⟨[.snap, .busReply, .tai, .ticks, .log, .fab, .pwr, .time, .adc, .filt, .loop, .gfm, .prot, .scan, .fio, .dpx, .cmd, .recd, .net, .upd], [.pwr, .prot, .recd, .scan, .fio, .dpx, .net, .cmd, .upd, .pwm], true⟩ f) (h : Ev f s x) :
    EvO f s (execCycleComplete k t at' w x) := by
  unfold execCycleComplete
  repeat' first
    | with_reducible exact h
    | with_reducible assumption
    | with_reducible refine completeCycle_ev (le_trans' hf rfl) ?_
    | with_reducible refine continueSleep_ev (le_trans' hf rfl) ?_
    | with_reducible refine settleTrial_ev (le_trans' hf rfl) ?_
    | with_reducible refine evo_next ?_

theorem execScanTrap_ev {k : Fin 2} {t : Fin 8} {cause : Fin 5} (hf : Foot.le ⟨[.snap, .busReply, .tai, .ticks, .log, .fab, .pwr, .time, .adc, .filt, .loop, .gfm, .prot, .scan, .fio, .dpx, .cmd, .recd, .net, .upd], [.pwr, .prot, .recd, .scan, .fio, .dpx, .net, .cmd, .upd, .pwm], true⟩ f) (h : Ev f s x) :
    EvO f s (execScanTrap k t cause x) := by
  unfold execScanTrap
  repeat' first
    | with_reducible exact h
    | with_reducible assumption
    | with_reducible refine continueSleep_ev (le_trans' hf rfl) ?_
    | with_reducible refine scanTrap_ev (le_trans' hf rfl) ?_
    | with_reducible refine evo_next ?_

theorem execSupervisorRestart_ev (hf : Foot.le ⟨[.snap, .busReply, .fresh, .tai, .ticks, .log, .fab, .pwr, .time, .adc, .filt, .loop, .gfm, .prot, .scan, .fio, .dpx, .cmd, .recd, .net, .upd], [.sys, .pwr, .clk, .time, .adc, .filt, .ctrl, .gfm, .prot, .recd, .scan, .fio, .dpx, .net, .cmd, .upd, .fab, .pwm], true⟩ f) (h : Ev f s x) :
    EvO f s (execSupervisorRestart x) := by
  unfold execSupervisorRestart
  repeat' first
    | with_reducible exact h
    | with_reducible assumption
    | with_reducible refine becomeReady_ev (le_trans' hf rfl) ?_
    | with_reducible refine setUpd_ev (le_trans' hf rfl) ?_
    | with_reducible refine settingsTake_ev (le_trans' hf rfl) ?_
    | with_reducible refine supervisorRestart_ev (le_trans' hf rfl) ?_
    | with_reducible refine evo_next ?_
    | with_reducible refine evo_ite (fun _ => ?_) (fun _ => ?_)

end Sys2Proof.Laws
end

