-- ==== Sys2Proof/Laws/EvFrame.lean ====
section
/-! SUPPORT. What each change of Machine/Frame.lean can touch, and that it keeps the state sound: one lemma a function. -/

namespace Sys2Proof.Laws

open Sys2Proof Sys2Proof.Machine Sys2Proof.Safety

variable {f : Foot} {s x : State}

theorem sendFrame_ev (hf : Foot.le ⟨[.dpx], [], false⟩ f) (h : Ev f s x) :
    Ev f s (sendFrame x) := by
  unfold sendFrame
  repeat' first
    | with_reducible exact h
    | with_reducible assumption
    | with_reducible refine sendGuy_ev (le_trans' hf rfl) ?_
    | with_reducible refine ev_whenS (fun hc y hy => ?_) ?_

theorem swapAtBoundary_ev (hf : Foot.le ⟨[.tai, .ticks, .log, .fab, .adc, .filt, .scan, .cmd, .recd, .net, .upd], [.filt, .ctrl, .recd, .scan, .net, .cmd, .upd, .fab], true⟩ f) (h : Ev f s x) :
    Ev f s (swapAtBoundary x) := by
  unfold swapAtBoundary
  repeat' first
    | with_reducible exact h
    | with_reducible assumption
    | with_reducible refine chainsAfterImage_ev (le_trans' hf rfl) ?_
    | with_reducible refine structureSwaps_ev (le_trans' hf rfl) ?_
    | with_reducible refine ev_ite (fun _ => ?_) (fun _ => ?_)
    | exact reg_any hf rfl _
    | exact Fin.isLt _
    | omega
    | split

theorem structureAtBoundary_ev {o : Fin 4 → ShadowOutcome} (hf : Foot.le ⟨[.tai, .ticks, .log, .fab, .adc, .filt, .scan, .cmd, .recd, .net, .upd], [.filt, .ctrl, .recd, .scan, .net, .cmd, .upd, .fab], true⟩ f) (h : Ev f s x) :
    Ev f s (structureAtBoundary o x) := by
  unfold structureAtBoundary
  dsimp only
  refine ev_forEach (fun c _ y hy => clockRequest_ev (le_trans' hf rfl) hy) (ev_forEach
    (fun c _ y hy => sessionsAtBoundary_ev (le_trans' hf rfl) hy) (mirrorOpens_ev (le_trans' hf rfl)
      (swapAtBoundary_ev (le_trans' hf rfl) (ev_forEach (fun c _ y hy => applyRelocation_ev (le_trans' hf rfl) hy)
        (ev_forEach (fun c _ y hy => closeCompare_ev (le_trans' hf rfl) hy) h)))))

theorem clocksAtBoundary_ev (hf : Foot.le ⟨[.log, .time, .adc, .filt], [.filt, .cmd], false⟩ f) (h : Ev f s x) :
    Ev f s (clocksAtBoundary x) := by
  unfold clocksAtBoundary
  exact chainsAtBoundary_ev (le_trans' hf rfl) (ev_time (part_mem hf rfl) h)

theorem frameBoundary_ev {o : Fin 4 → ShadowOutcome} (hf : Foot.le ⟨[.tai, .ticks, .log, .fab, .time, .adc, .filt, .loop, .gfm, .prot, .scan, .fio, .dpx, .cmd, .recd, .net, .upd], [.clk, .time, .adc, .filt, .ctrl, .gfm, .prot, .recd, .scan, .fio, .dpx, .net, .cmd, .upd, .fab, .pwm], true⟩ f) (h : Ev f s x) :
    Ev f s (frameBoundary o x) := by
  unfold frameBoundary
  repeat' first
    | with_reducible exact h
    | with_reducible assumption
    | with_reducible refine clocksAtBoundary_ev (le_trans' hf rfl) ?_
    | with_reducible refine countsAtBoundary_ev (le_trans' hf rfl) ?_
    | with_reducible refine forwardedSettings_ev (le_trans' hf rfl) ?_
    | with_reducible refine reachBoundary_ev (le_trans' hf rfl) ?_
    | with_reducible refine sendFrame_ev (le_trans' hf rfl) ?_
    | with_reducible refine settingsAtBoundary_ev (le_trans' hf rfl) ?_
    | with_reducible refine structureAtBoundary_ev (le_trans' hf rfl) ?_
    | with_reducible refine ev_wr64 ?_ ?_ ?_
    | with_reducible refine ev_ite (fun _ => ?_) (fun _ => ?_)
    | exact reg_any hf rfl _

theorem execFrameBoundary_ev {o0 : ShadowOutcome} {o1 : ShadowOutcome} {o2 : ShadowOutcome} {o3 : ShadowOutcome} (hf : Foot.le ⟨[.tai, .ticks, .log, .fab, .time, .adc, .filt, .loop, .gfm, .prot, .scan, .fio, .dpx, .cmd, .recd, .net, .upd], [.clk, .time, .adc, .filt, .ctrl, .gfm, .prot, .recd, .scan, .fio, .dpx, .net, .cmd, .upd, .fab, .pwm], true⟩ f) (h : Ev f s x) :
    EvO f s (execFrameBoundary o0 o1 o2 o3 x) := by
  unfold execFrameBoundary
  repeat' first
    | with_reducible exact h
    | with_reducible assumption
    | with_reducible refine frameBoundary_ev (le_trans' hf rfl) ?_
    | with_reducible refine evo_next ?_

theorem plainBoundary_ev (hf : Foot.le ⟨[.tai, .ticks, .log, .fab, .time, .adc, .filt, .loop, .gfm, .prot, .scan, .fio, .dpx, .cmd, .recd, .net, .upd], [.clk, .time, .adc, .filt, .ctrl, .gfm, .prot, .recd, .scan, .fio, .dpx, .net, .cmd, .upd, .fab, .pwm], true⟩ f) (h : Ev f s x) :
    Ev f s (plainBoundary x) := by
  unfold plainBoundary
  repeat' first
    | with_reducible exact h
    | with_reducible assumption
    | with_reducible refine frameBoundary_ev (le_trans' hf rfl) ?_

theorem execMirrorFrameOpen_ev (hf : Foot.le ⟨[.tai, .ticks, .log, .fab, .time, .adc, .filt, .loop, .gfm, .prot, .scan, .fio, .dpx, .cmd, .recd, .net, .upd], [.clk, .time, .adc, .filt, .ctrl, .gfm, .prot, .recd, .scan, .fio, .dpx, .net, .cmd, .upd, .fab, .pwm], true⟩ f) (h : Ev f s x) :
    EvO f s (execMirrorFrameOpen x) := by
  unfold execMirrorFrameOpen
  repeat' first
    | with_reducible exact h
    | with_reducible assumption
    | with_reducible refine plainBoundary_ev (le_trans' hf rfl) ?_
    | with_reducible refine reachBoundary_ev (le_trans' hf rfl) ?_
    | with_reducible refine evo_next ?_
    | with_reducible refine evo_ite (fun _ => ?_) (fun _ => ?_)

theorem execGroupSwapped_ev (hf : Foot.le ⟨[.tai, .ticks, .log, .fab, .time, .adc, .filt, .loop, .gfm, .prot, .scan, .fio, .dpx, .cmd, .recd, .net, .upd], [.clk, .time, .adc, .filt, .ctrl, .gfm, .prot, .recd, .scan, .fio, .dpx, .net, .cmd, .upd, .fab, .pwm], true⟩ f) (h : Ev f s x) :
    EvO f s (execGroupSwapped x) := by
  unfold execGroupSwapped
  repeat' first
    | with_reducible exact h
    | with_reducible assumption
    | with_reducible refine plainBoundary_ev (le_trans' hf rfl) ?_
    | with_reducible refine evo_next ?_
    | with_reducible refine evo_ite (fun _ => ?_) (fun _ => ?_)
    | with_reducible refine ev_ite (fun _ => ?_) (fun _ => ?_)
    | exact reg_any hf rfl _
    | exact Fin.isLt _
    | omega
    | split

theorem execTileRetired_ev {c : Fin 4} (hf : Foot.le ⟨[.tai, .ticks, .log, .fab, .time, .adc, .filt, .loop, .gfm, .prot, .scan, .fio, .dpx, .cmd, .recd, .net, .upd], [.clk, .time, .adc, .filt, .ctrl, .gfm, .prot, .recd, .scan, .fio, .dpx, .net, .cmd, .upd, .fab, .pwm], true⟩ f) (h : Ev f s x) :
    EvO f s (execTileRetired c x) := by
  unfold execTileRetired
  repeat' first
    | with_reducible exact h
    | with_reducible assumption
    | with_reducible refine plainBoundary_ev (le_trans' hf rfl) ?_
    | with_reducible refine evo_next ?_
    | with_reducible refine evo_ite (fun _ => ?_) (fun _ => ?_)

theorem untilRestart_ev {n : Fin 24} {v1 : Nat} (hf : Foot.le ⟨[.tai, .ticks, .log, .fab, .time, .adc, .filt, .loop, .gfm, .prot, .scan, .fio, .dpx, .cmd, .recd, .net, .upd], [.clk, .time, .adc, .filt, .ctrl, .gfm, .prot, .recd, .scan, .fio, .dpx, .net, .cmd, .upd, .fab, .pwm], true⟩ f) (h : Ev f s x) :
    Ev f s (untilRestart n v1 x) := by
  induction v1 generalizing x with
  | zero => exact h
  | succ k ih => exact ev_ite (fun _ => h) (fun _ => ih (plainBoundary_ev (le_trans' hf rfl) h))

theorem execFiltRestarted_ev {n : Fin 24} (hf : Foot.le ⟨[.tai, .ticks, .log, .fab, .time, .adc, .filt, .loop, .gfm, .prot, .scan, .fio, .dpx, .cmd, .recd, .net, .upd], [.clk, .time, .adc, .filt, .ctrl, .gfm, .prot, .recd, .scan, .fio, .dpx, .net, .cmd, .upd, .fab, .pwm], true⟩ f) (h : Ev f s x) :
    EvO f s (execFiltRestarted n x) := by
  unfold execFiltRestarted
  repeat' first
    | with_reducible exact h
    | with_reducible assumption
    | with_reducible refine untilRestart_ev (le_trans' hf rfl) ?_
    | with_reducible refine evo_next ?_

theorem routedRequests_ev {g : Fin 2} (hf : Foot.le ⟨[.log, .loop, .gfm], [.gfm, .fio, .cmd], false⟩ f) (h : Ev f s x) :
    Ev f s (routedRequests g x) := by
  unfold routedRequests
  repeat' first
    | with_reducible exact h
    | with_reducible assumption
    | with_reducible refine gfmStartRequest_ev (le_trans' hf rfl) ?_
    | with_reducible refine gfmStopRequest_ev (le_trans' hf rfl) ?_
    | with_reducible refine ev_whenS (fun hc y hy => ?_) ?_
    | with_reducible refine ev_ite (fun _ => ?_) (fun _ => ?_)
    | exact Fin.isLt _
    | omega
    | split
    | dsimp only
    | with_reducible refine ev_gfm (part_mem hf rfl) ?_

theorem execInputImagePublication_ev {x0 y0 : List (Word × BitVec 64)} (hf : Foot.le ⟨[.fresh, .tai, .ticks, .log, .loop, .gfm, .scan, .recd], [.gfm, .scan, .fio, .cmd], false⟩ f) (h : Ev f s x) :
    EvO f s (execInputImagePublication x0 y0 x) := by
  unfold execInputImagePublication
  repeat' first
    | with_reducible exact h
    | with_reducible assumption
    | with_reducible refine publication_ev (le_trans' hf rfl) ?_
    | with_reducible refine requestEdge_ev (le_trans' hf rfl) ?_
    | with_reducible refine routedRequests_ev (le_trans' hf rfl) ?_
    | (with_reducible refine ev_forEach_range (fun i hi y hy => ?_) ?_)
    | (with_reducible refine ev_forEach (fun i hi y hy => ?_) ?_)
    | with_reducible refine evo_next ?_

theorem execRetainCommit_ev (hf : Foot.le ⟨[.tai, .ticks, .scan, .dpx], [], false⟩ f) (h : Ev f s x) :
    EvO f s (execRetainCommit x) := by
  unfold execRetainCommit
  repeat' first
    | with_reducible exact h
    | with_reducible assumption
    | with_reducible refine commitBoth_ev (le_trans' hf rfl) ?_
    | with_reducible refine sendGuy_ev (le_trans' hf rfl) ?_
    | with_reducible refine ev_reachNs (part_mem hf rfl) (part_mem hf rfl) ?_
    | with_reducible refine ev_whenS (fun hc y hy => ?_) ?_
    | with_reducible refine evo_next ?_
    | with_reducible refine evo_ite (fun _ => ?_) (fun _ => ?_)
    | with_reducible refine ev_ite (fun _ => ?_) (fun _ => ?_)
    | exact Fin.isLt _
    | omega
    | split
    | dsimp only
    | with_reducible refine ev_scan (part_mem hf rfl) ?_

end Sys2Proof.Laws
end

