-- ==== Sys2Proof/Laws/EvBus.lean ====
section
/-! SUPPORT. What each change of Machine/Bus.lean can touch, and that it keeps the state sound: one lemma a function. -/

namespace Sys2Proof.Laws

open Sys2Proof Sys2Proof.Machine Sys2Proof.Safety

variable {f : Foot} {s x : State}

theorem reply_ev {r : BusReply} (hf : Foot.le ⟨[.busReply], [], false⟩ f) (h : Ev f s x) :
    Ev f s (reply r x) := by
  unfold reply
  repeat' first
    | with_reducible exact h
    | with_reducible assumption
    | with_reducible refine ev_ite (fun _ => ?_) (fun _ => ?_)
    | exact Fin.isLt _
    | omega
    | split
    | dsimp only
    | with_reducible refine ev_busReply (part_mem hf rfl) ?_

theorem denied_ev {m : Fin 8} {a : Nat} (hf : Foot.le ⟨[.busReply, .log], [.cmd], false⟩ f) (h : Ev f s x) :
    Ev f s (denied m a x) := by
  unfold denied
  repeat' first
    | with_reducible exact h
    | with_reducible assumption
    | with_reducible refine reply_ev (le_trans' hf rfl) ?_
    | with_reducible refine ev_logN (part_mem hf rfl) (block_mem hf rfl) ?_

theorem setMiss_ev {f0 : Fld} {m : Fin 8} (hf : Foot.le ⟨[], [.sys], false⟩ f) (h : Ev f s x) :
    Ev f s (setMiss f0 m x) := by
  unfold setMiss
  repeat' first
    | with_reducible exact h
    | with_reducible assumption
    | with_reducible refine ev_setFbit ?_ ?_
    | with_reducible refine ev_ite (fun _ => ?_) (fun _ => ?_)
    | exact reg_block hf .sys rfl rfl

theorem setSnap_ev {m : Fin 8} {x0 : Snap} (hf : Foot.le ⟨[.snap], [], false⟩ f) (h : Ev f s x) :
    Ev f s (setSnap m x0 x) := by
  unfold setSnap
  repeat' first
    | with_reducible exact h
    | with_reducible assumption
    | with_reducible refine ev_ite (fun _ => ?_) (fun _ => ?_)
    | exact Fin.isLt _
    | omega
    | split
    | dsimp only
    | with_reducible refine ev_snap (part_mem hf rfl) ?_

theorem readLow_ev {m : Fin 8} {a : Nat} (hf : Foot.le ⟨[.snap], [], false⟩ f) (h : Ev f s x) :
    Ev f s (readLow m a x).2 := by
  unfold readLow
  repeat' first
    | with_reducible exact h
    | with_reducible assumption
    | with_reducible refine setSnap_ev (le_trans' hf rfl) ?_

theorem readHigh_ev {m : Fin 8} {a : Nat} (hf : Foot.le ⟨[.snap], [.sys], false⟩ f) (h : Ev f s x) :
    Ev f s (readHigh m a x).2 := by
  unfold readHigh
  repeat' first
    | with_reducible exact h
    | with_reducible assumption
    | with_reducible refine setMiss_ev (le_trans' hf rfl) ?_
    | with_reducible refine setSnap_ev (le_trans' hf rfl) ?_
    | with_reducible refine ev_ite2 (fun _ => ?_) (fun _ => ?_)
    | with_reducible refine ev_ite (fun _ => ?_) (fun _ => ?_)
    | exact Fin.isLt _
    | omega
    | split

theorem regRead_ev {m : Fin 8} {a : Nat} (hf : Foot.le ⟨[.snap], [.sys], false⟩ f) (h : Ev f s x) :
    Ev f s (regRead m a x).2 := by
  unfold regRead
  repeat' first
    | with_reducible exact h
    | with_reducible assumption
    | with_reducible refine readHigh_ev (le_trans' hf rfl) ?_
    | with_reducible refine readLow_ev (le_trans' hf rfl) ?_
    | refine ev_snd (by assumption) ?_
    | with_reducible refine ev_ite2 (fun _ => ?_) (fun _ => ?_)
    | with_reducible refine ev_ite (fun _ => ?_) (fun _ => ?_)
    | exact Fin.isLt _
    | omega
    | split
    | dsimp only

theorem regReadBus_ev {m : Fin 8} {w : AccWidth} {a : Nat} {early : Bool} (hf : Foot.le ⟨[.snap, .busReply], [.sys], false⟩ f) (h : Ev f s x) :
    Ev f s (regReadBus m w a early x) := by
  unfold regReadBus
  repeat' first
    | with_reducible exact h
    | with_reducible assumption
    | with_reducible refine regRead_ev (le_trans' hf rfl) ?_
    | with_reducible refine reply_ev (le_trans' hf rfl) ?_
    | refine ev_snd (by assumption) ?_
    | with_reducible refine ev_ite (fun _ => ?_) (fun _ => ?_)

theorem busRead_ev {m : Fin 8} {w : AccWidth} {a : Nat} {early : Bool} (hf : Foot.le ⟨[.snap, .busReply, .log], [.sys, .cmd], false⟩ f) (h : Ev f s x) :
    Ev f s (busRead m w a early x) := by
  unfold busRead
  repeat' first
    | with_reducible exact h
    | with_reducible assumption
    | with_reducible refine denied_ev (le_trans' hf rfl) ?_
    | with_reducible refine regReadBus_ev (le_trans' hf rfl) ?_
    | with_reducible refine reply_ev (le_trans' hf rfl) ?_
    | with_reducible refine ev_ite (fun _ => ?_) (fun _ => ?_)

theorem writeDpxCmd_ev {v : Word} (hf : Foot.le ⟨[.log, .dpx, .cmd], [.dpx, .cmd], false⟩ f) (h : Ev f s x) :
    Ev f s (writeDpxCmd v x) := by
  unfold writeDpxCmd
  repeat' first
    | with_reducible exact h
    | with_reducible assumption
    | with_reducible refine switchCancelRequest_ev (le_trans' hf rfl) ?_
    | with_reducible refine switchRequest_ev (le_trans' hf rfl) ?_
    | refine ev_snd (by assumption) ?_
    | with_reducible refine ev_whenS (fun hc y hy => ?_) ?_

theorem writeCmd_ev {m : Fin 8} {r : RegSpec} {a : Nat} {v : Word} (hf : Foot.le ⟨[.mem, .log, .cmd], [.cmd], false⟩ f) (hw : a / 0x10000 = 0x400E) (h : Ev f s x) :
    Ev f s (writeCmd m r a v x) := by
  unfold writeCmd
  repeat' first
    | with_reducible exact h
    | with_reducible assumption
    | with_reducible refine doorbell_ev (le_trans' hf rfl) ?_
    | with_reducible refine plainWrite_ev (le_trans' hf rfl) ?_ ?_
    | with_reducible refine writeCmdCtrl_ev (le_trans' hf rfl) ?_
    | with_reducible refine writeEvtSel_ev (le_trans' hf rfl) ?_
    | with_reducible refine ev_ite (fun _ => ?_) (fun _ => ?_)
    | exact reg_at hf 0x400E .cmd rfl rfl hw

theorem writeUpd_ev {r : RegSpec} {a : Nat} {v : Word} (hf : Foot.le ⟨[], [.upd], false⟩ f) (hw : a / 0x10000 = 0x400F) (h : Ev f s x) :
    Ev f s (writeUpd r a v x) := by
  unfold writeUpd
  repeat' first
    | with_reducible exact h
    | with_reducible assumption
    | with_reducible refine plainWrite_ev (le_trans' hf rfl) ?_ ?_
    | with_reducible refine ev_ite (fun _ => ?_) (fun _ => ?_)
    | exact reg_at hf 0x400F .upd rfl rfl hw

theorem writeLow_ev {m : Fin 8} {r : RegSpec} {a : Nat} {v : Word} (hf : Foot.le ⟨[.snap], [], false⟩ f) (h : Ev f s x) :
    Ev f s (writeLow m r a v x) := by
  unfold writeLow
  repeat' first
    | with_reducible exact h
    | with_reducible assumption
    | with_reducible refine setSnap_ev (le_trans' hf rfl) ?_
    | with_reducible refine ev_ite (fun _ => ?_) (fun _ => ?_)

theorem mailWrite_ev {m : Fin 8} {a : Nat} {v : Word} (hf : Foot.le ⟨[.mem], [], false⟩ f) (h : Ev f s x) :
    Ev f s (mailWrite m a v x) := by
  unfold mailWrite
  repeat' first
    | with_reducible exact h
    | with_reducible assumption
    | with_reducible refine ev_memPutBytes (part_mem hf rfl) ?_
    | with_reducible refine ev_ite (fun _ => ?_) (fun _ => ?_)

theorem memWrite_ev {n : Nat} {a : Nat} {v : Word} (hf : Foot.le ⟨[.mem], [], false⟩ f) (h : Ev f s x) :
    Ev f s (memWrite n a v x) := by
  unfold memWrite
  repeat' first
    | with_reducible exact h
    | with_reducible assumption
    | with_reducible refine ev_memPutBytes (part_mem hf rfl) ?_
    | with_reducible refine ev_ite (fun _ => ?_) (fun _ => ?_)

theorem execSnapshotRead_ev {m : Fin 8} {x0 : BusRead} (hf : Foot.le ⟨[.snap, .busReply, .log], [.sys, .cmd], false⟩ f) (h : Ev f s x) :
    EvO f s (execSnapshotRead m x0 x) := by
  unfold execSnapshotRead
  repeat' first
    | with_reducible exact h
    | with_reducible assumption
    | with_reducible refine busRead_ev (le_trans' hf rfl) ?_
    | with_reducible refine evo_next ?_

theorem execHighWordRead_ev {m : Fin 8} {x0 : BusRead} (hf : Foot.le ⟨[.snap, .busReply, .log], [.sys, .cmd], false⟩ f) (h : Ev f s x) :
    EvO f s (execHighWordRead m x0 x) := by
  unfold execHighWordRead
  repeat' first
    | with_reducible exact h
    | with_reducible assumption
    | with_reducible refine busRead_ev (le_trans' hf rfl) ?_
    | with_reducible refine evo_next ?_

/-! ### Register writes by window -/

theorem findReg_mem {a : Nat} {r : RegSpec} (h : findReg a = some r) : r ∈ blockRegs a := List.mem_of_find?_eq_some h

theorem dimsRest_le {l : List (Nat × Nat)} {o k : Nat} (h : dimsRest l o = some k) : k ≤ o := by
  induction l generalizing o with
  | nil => cases h; exact Nat.le_refl _
  | cons p l ih =>
    unfold dimsRest at h
    split at h
    · exact Nat.le_trans (ih h) (Nat.mod_le _ _)
    · cases h

/-- The high word of a wide register lies 4 above its low word, in the same window. -/
theorem isHigh_le {r : RegSpec} {a : Nat} (hc : r.covers a = true) (hh : r.isHigh a = true) : r.base + 4 ≤ a := by
  have h1 : r.base ≤ a := by
    unfold RegSpec.covers at hc
    exact of_decide_eq_true (Bool.and_eq_true_iff.1 hc).1
  have h2 : dimsRest r.dims (a - r.base) = some 4 := by simpa [RegSpec.isHigh] using hh
  have := dimsRest_le h2
  omega

theorem findReg_covers {a : Nat} {r : RegSpec} (h : findReg a = some r) : r.covers a = true := by
  simpa using List.find?_some h

theorem canonReg_eq {a : Nat} (h : ¬(0x4010 ≤ a / 0x10000 ∧ a / 0x10000 ≤ 0x4013)) : canonReg a = a := by
  unfold canonReg
  split
  · omega
  · rfl

theorem canonReg_fab {a : Nat} (h : 0x4010 ≤ a / 0x10000 ∧ a / 0x10000 ≤ 0x4013) :
    0x4010 ≤ canonReg a / 0x10000 ∧ canonReg a / 0x10000 ≤ 0x4013 := by
  unfold canonReg
  split <;> omega

theorem inMailbox_window {a : Nat} (h : inMailbox a = true) : a / 0x10000 = 0x400E := by
  unfold inMailbox cmdReq cmdRsp at h
  simp at h
  omega

theorem regWrite_SYS {m : Fin 8} {a : Nat} {v : Word} (hf : Foot.le (windowFoot 0x4000) f)
    (hw : a / 0x10000 = 0x4000) (h : Ev f s x) : Ev f s (regWrite m a v x) := by
  unfold regWrite
  refine ev_ite (fun hm => absurd (inMailbox_window hm) (by omega)) (fun _ => ?_)
  rw [canonReg_eq (by omega)]
  dsimp only
  split
  · exact h
  · next r hr =>
    have hm : r ∈ regsSYS := by have := findReg_mem hr; simp only [blockRegs, hw] at this; exact this
    have ha : Foot.reg f a := reg_any hf rfl _
    have hh : r.hiRW = false := (by decide : ∀ r ∈ regsSYS, r.hiRW = false) r hm
    refine ev_ite (fun _ => ev_ite (fun _ => by simpa [writeHigh, hh] using h) (fun _ => by simpa [writeLow, hh] using h)) (fun _ => ?_)
    simp only [write32Reg, hw]
    exact ev_ite (fun _ => writeResetCtrl_ev (le_trans' hf rfl) h) (fun _ => plainWrite_ev (le_trans' hf rfl) ha h)

theorem regWrite_PWR {m : Fin 8} {a : Nat} {v : Word} (hf : Foot.le (windowFoot 0x4001) f)
    (hw : a / 0x10000 = 0x4001) (h : Ev f s x) : Ev f s (regWrite m a v x) := by
  unfold regWrite
  refine ev_ite (fun hm => absurd (inMailbox_window hm) (by omega)) (fun _ => ?_)
  rw [canonReg_eq (by omega)]
  dsimp only
  split
  · exact h
  · next r hr =>
    have hm : r ∈ regsPWR := by have := findReg_mem hr; simp only [blockRegs, hw] at this; exact this
    have ha : Foot.reg f a := reg_at hf 0x4001 .pwr rfl rfl hw
    have hb : 0x40010000 ≤ r.base := (by decide : ∀ r ∈ regsPWR, 0x40010000 ≤ r.base) r hm
    refine ev_ite (fun _ => ev_ite (fun hh => ?_) (fun _ => ?_)) (fun _ => ?_)
    · have h4 := isHigh_le (findReg_covers hr) hh
      have hl : Foot.reg f (a - 4) := reg_at hf 0x4001 .pwr rfl rfl (by omega)
      have hl' : Foot.reg f (a - 4 + 4) := by rw [Nat.sub_add_cancel (by omega)]; exact ha
      have hc : ∀ (w : BitVec 64) (y : State), Ev f s y → Ev f s (commitWide r (a - 4) w y) := by
        intro w y hy
        unfold commitWide
        refine ev_ite (fun e => ?_) (fun _ => ev_ite (fun e => setPwr_ev (le_trans' hf rfl) (ev_wr64 hl hl' hy)) (fun _ => ev_ite (fun e => ?_) (fun _ => ev_wr64 hl hl' hy)))
        · exact absurd e ((by decide : ∀ r ∈ regsPWR, r.base ≠ Reg.TIME_TRIG_TARGET 0) r hm)
        · exact absurd e.1 ((by decide : ∀ r ∈ regsPWR, r.base ≠ Reg.NET_FI_START 0) r hm)
      have hall : Ev f s (writeHighAlone m r (a - 4) v x) := by
        unfold writeHighAlone
        exact setMiss_ev (le_trans' hf rfl) (hc _ _ h)
      unfold writeHigh
      refine ev_ite (fun _ => ?_) (fun _ => h)
      split
      · exact ev_ite (fun _ => hc _ _ (setSnap_ev (le_trans' hf rfl) h)) (fun _ => hall)
      · exact hall
    · unfold writeLow
      exact ev_ite (fun _ => setSnap_ev (le_trans' hf rfl) h) (fun _ => h)
    · simp only [write32Reg, hw]
      exact ev_ite (fun _ => writeSensor_ev (le_trans' hf rfl) h) (fun _ => plainWrite_ev (le_trans' hf rfl) ha h)

theorem regWrite_CLK {m : Fin 8} {a : Nat} {v : Word} (hf : Foot.le (windowFoot 0x4002) f)
    (hw : a / 0x10000 = 0x4002) (h : Ev f s x) : Ev f s (regWrite m a v x) := by
  unfold regWrite
  refine ev_ite (fun hm => absurd (inMailbox_window hm) (by omega)) (fun _ => ?_)
  rw [canonReg_eq (by omega)]
  dsimp only
  split
  · exact h
  · next r hr =>
    have hm : r ∈ regsCLK := by have := findReg_mem hr; simp only [blockRegs, hw] at this; exact this
    have ha : Foot.reg f a := reg_at hf 0x4002 .clk rfl rfl hw
    have hh : r.hiRW = false := (by decide : ∀ r ∈ regsCLK, r.hiRW = false) r hm
    refine ev_ite (fun _ => ev_ite (fun _ => by simpa [writeHigh, hh] using h) (fun _ => by simpa [writeLow, hh] using h)) (fun _ => ?_)
    simp only [write32Reg, hw]
    rw [if_neg (by decide)]
    simp only [writeBlockReg, hw]
    exact writeClk_ev (le_trans' hf rfl) hw h

theorem regWrite_TIME {m : Fin 8} {a : Nat} {v : Word} (hf : Foot.le (windowFoot 0x4003) f)
    (hw : a / 0x10000 = 0x4003) (h : Ev f s x) : Ev f s (regWrite m a v x) := by
  unfold regWrite
  refine ev_ite (fun hm => absurd (inMailbox_window hm) (by omega)) (fun _ => ?_)
  rw [canonReg_eq (by omega)]
  dsimp only
  split
  · exact h
  · next r hr =>
    have hm : r ∈ regsTIME := by have := findReg_mem hr; simp only [blockRegs, hw] at this; exact this
    have ha : Foot.reg f a := reg_at hf 0x4003 .time rfl rfl hw
    have hb : 0x40030000 ≤ r.base := (by decide : ∀ r ∈ regsTIME, 0x40030000 ≤ r.base) r hm
    refine ev_ite (fun _ => ev_ite (fun hh => ?_) (fun _ => ?_)) (fun _ => ?_)
    · have h4 := isHigh_le (findReg_covers hr) hh
      have hl : Foot.reg f (a - 4) := reg_at hf 0x4003 .time rfl rfl (by omega)
      have hl' : Foot.reg f (a - 4 + 4) := by rw [Nat.sub_add_cancel (by omega)]; exact ha
      have hc : ∀ (w : BitVec 64) (y : State), Ev f s y → Ev f s (commitWide r (a - 4) w y) := by
        intro w y hy
        unfold commitWide
        refine ev_ite (fun _ => writeTrigTarget_ev (le_trans' hf rfl) hy) (fun _ => ev_ite (fun e => ?_) (fun _ => ev_ite (fun e => ?_) (fun _ => ev_wr64 hl hl' hy)))
        · simp only [Reg.PWR_RTC] at e; omega
        · exact absurd e.1 ((by decide : ∀ r ∈ regsTIME, r.base ≠ Reg.NET_FI_START 0) r hm)
      have hall : Ev f s (writeHighAlone m r (a - 4) v x) := by
        unfold writeHighAlone
        exact setMiss_ev (le_trans' hf rfl) (hc _ _ h)
      unfold writeHigh
      refine ev_ite (fun _ => ?_) (fun _ => h)
      split
      · exact ev_ite (fun _ => hc _ _ (setSnap_ev (le_trans' hf rfl) h)) (fun _ => hall)
      · exact hall
    · unfold writeLow
      exact ev_ite (fun _ => setSnap_ev (le_trans' hf rfl) h) (fun _ => h)
    · simp only [write32Reg, hw]
      rw [if_neg (by decide)]
      simp only [writeBlockReg, hw]
      exact writeTime_ev (le_trans' hf rfl) hw h

theorem regWrite_ADC {m : Fin 8} {a : Nat} {v : Word} (hf : Foot.le (windowFoot 0x4004) f)
    (hw : a / 0x10000 = 0x4004) (h : Ev f s x) : Ev f s (regWrite m a v x) := by
  unfold regWrite
  refine ev_ite (fun hm => absurd (inMailbox_window hm) (by omega)) (fun _ => ?_)
  rw [canonReg_eq (by omega)]
  dsimp only
  split
  · exact h
  · next r hr =>
    have hm : r ∈ regsADC := by have := findReg_mem hr; simp only [blockRegs, hw] at this; exact this
    have ha : Foot.reg f a := reg_at hf 0x4004 .adc rfl rfl hw
    have hh : r.hiRW = false := (by decide : ∀ r ∈ regsADC, r.hiRW = false) r hm
    refine ev_ite (fun _ => ev_ite (fun _ => by simpa [writeHigh, hh] using h) (fun _ => by simpa [writeLow, hh] using h)) (fun _ => ?_)
    simp only [write32Reg, hw]
    rw [if_neg (by decide)]
    simp only [writeBlockReg, hw]
    exact writeAdc_ev (le_trans' hf rfl) hw h

theorem regWrite_FILT {m : Fin 8} {a : Nat} {v : Word} (hf : Foot.le (windowFoot 0x4005) f)
    (hw : a / 0x10000 = 0x4005) (h : Ev f s x) : Ev f s (regWrite m a v x) := by
  unfold regWrite
  refine ev_ite (fun hm => absurd (inMailbox_window hm) (by omega)) (fun _ => ?_)
  rw [canonReg_eq (by omega)]
  dsimp only
  split
  · exact h
  · next r hr =>
    have hm : r ∈ regsFILT := by have := findReg_mem hr; simp only [blockRegs, hw] at this; exact this
    have ha : Foot.reg f a := reg_at hf 0x4005 .filt rfl rfl hw
    have hh : r.hiRW = false := (by decide : ∀ r ∈ regsFILT, r.hiRW = false) r hm
    refine ev_ite (fun _ => ev_ite (fun _ => by simpa [writeHigh, hh] using h) (fun _ => by simpa [writeLow, hh] using h)) (fun _ => ?_)
    simp only [write32Reg, hw]
    rw [if_neg (by decide)]
    simp only [writeBlockReg, hw]
    exact writeFilt_ev (le_trans' hf rfl) hw h

theorem regWrite_CTRL {m : Fin 8} {a : Nat} {v : Word} (hf : Foot.le (windowFoot 0x4006) f)
    (hw : a / 0x10000 = 0x4006) (h : Ev f s x) : Ev f s (regWrite m a v x) := by
  unfold regWrite
  refine ev_ite (fun hm => absurd (inMailbox_window hm) (by omega)) (fun _ => ?_)
  rw [canonReg_eq (by omega)]
  dsimp only
  split
  · exact h
  · next r hr =>
    have hm : r ∈ regsCTRL := by have := findReg_mem hr; simp only [blockRegs, hw] at this; exact this
    have ha : Foot.reg f a := reg_at hf 0x4006 .ctrl rfl rfl hw
    have hh : r.hiRW = false := (by decide : ∀ r ∈ regsCTRL, r.hiRW = false) r hm
    refine ev_ite (fun _ => ev_ite (fun _ => by simpa [writeHigh, hh] using h) (fun _ => by simpa [writeLow, hh] using h)) (fun _ => ?_)
    simp only [write32Reg, hw]
    rw [if_neg (by decide)]
    simp only [writeBlockReg, hw]
    exact writeCtrl_ev (le_trans' hf rfl) hw h

theorem regWrite_GFM {m : Fin 8} {a : Nat} {v : Word} (hf : Foot.le (windowFoot 0x4007) f)
    (hw : a / 0x10000 = 0x4007) (h : Ev f s x) : Ev f s (regWrite m a v x) := by
  unfold regWrite
  refine ev_ite (fun hm => absurd (inMailbox_window hm) (by omega)) (fun _ => ?_)
  rw [canonReg_eq (by omega)]
  dsimp only
  split
  · exact h
  · next r hr =>
    have hm : r ∈ regsGFM := by have := findReg_mem hr; simp only [blockRegs, hw] at this; exact this
    have ha : Foot.reg f a := reg_at hf 0x4007 .gfm rfl rfl hw
    have hh : r.hiRW = false := (by decide : ∀ r ∈ regsGFM, r.hiRW = false) r hm
    refine ev_ite (fun _ => ev_ite (fun _ => by simpa [writeHigh, hh] using h) (fun _ => by simpa [writeLow, hh] using h)) (fun _ => ?_)
    simp only [write32Reg, hw]
    rw [if_neg (by decide)]
    simp only [writeBlockReg, hw]
    exact writeGfm_ev (le_trans' hf rfl) hw h

theorem regWrite_PROT {m : Fin 8} {a : Nat} {v : Word} (hf : Foot.le (windowFoot 0x4008) f)
    (hw : a / 0x10000 = 0x4008) (h : Ev f s x) : Ev f s (regWrite m a v x) := by
  unfold regWrite
  refine ev_ite (fun hm => absurd (inMailbox_window hm) (by omega)) (fun _ => ?_)
  rw [canonReg_eq (by omega)]
  dsimp only
  split
  · exact h
  · next r hr =>
    have hm : r ∈ regsPROT := by have := findReg_mem hr; simp only [blockRegs, hw] at this; exact this
    have ha : Foot.reg f a := reg_at hf 0x4008 .prot rfl rfl hw
    have hh : r.hiRW = false := (by decide : ∀ r ∈ regsPROT, r.hiRW = false) r hm
    refine ev_ite (fun _ => ev_ite (fun _ => by simpa [writeHigh, hh] using h) (fun _ => by simpa [writeLow, hh] using h)) (fun _ => ?_)
    simp only [write32Reg, hw]
    rw [if_neg (by decide)]
    simp only [writeBlockReg, hw]
    exact writeProt_ev (le_trans' hf rfl) hw h

theorem regWrite_REC {m : Fin 8} {a : Nat} {v : Word} (hf : Foot.le (windowFoot 0x4009) f)
    (hw : a / 0x10000 = 0x4009) (h : Ev f s x) : Ev f s (regWrite m a v x) := by
  unfold regWrite
  refine ev_ite (fun hm => absurd (inMailbox_window hm) (by omega)) (fun _ => ?_)
  rw [canonReg_eq (by omega)]
  dsimp only
  split
  · exact h
  · next r hr =>
    have hm : r ∈ regsREC := by have := findReg_mem hr; simp only [blockRegs, hw] at this; exact this
    have ha : Foot.reg f a := reg_at hf 0x4009 .recd rfl rfl hw
    have hh : r.hiRW = false := (by decide : ∀ r ∈ regsREC, r.hiRW = false) r hm
    refine ev_ite (fun _ => ev_ite (fun _ => by simpa [writeHigh, hh] using h) (fun _ => by simpa [writeLow, hh] using h)) (fun _ => ?_)
    simp only [write32Reg, hw]
    rw [if_neg (by decide)]
    simp only [writeBlockReg, hw]
    exact writeRec_ev (le_trans' hf rfl) hw h

theorem regWrite_SCAN {m : Fin 8} {a : Nat} {v : Word} (hf : Foot.le (windowFoot 0x400A) f)
    (hw : a / 0x10000 = 0x400A) (h : Ev f s x) : Ev f s (regWrite m a v x) := by
  unfold regWrite
  refine ev_ite (fun hm => absurd (inMailbox_window hm) (by omega)) (fun _ => ?_)
  rw [canonReg_eq (by omega)]
  dsimp only
  split
  · exact h
  · next r hr =>
    have hm : r ∈ regsSCAN := by have := findReg_mem hr; simp only [blockRegs, hw] at this; exact this
    have ha : Foot.reg f a := reg_at hf 0x400A .scan rfl rfl hw
    have hh : r.hiRW = false := (by decide : ∀ r ∈ regsSCAN, r.hiRW = false) r hm
    refine ev_ite (fun _ => ev_ite (fun _ => by simpa [writeHigh, hh] using h) (fun _ => by simpa [writeLow, hh] using h)) (fun _ => ?_)
    simp only [write32Reg, hw]
    rw [if_neg (by decide)]
    simp only [writeBlockReg, hw]
    exact writeScan_ev (le_trans' hf rfl) hw h

theorem regWrite_FIO {m : Fin 8} {a : Nat} {v : Word} (hf : Foot.le (windowFoot 0x400B) f)
    (hw : a / 0x10000 = 0x400B) (h : Ev f s x) : Ev f s (regWrite m a v x) := by
  unfold regWrite
  refine ev_ite (fun hm => absurd (inMailbox_window hm) (by omega)) (fun _ => ?_)
  rw [canonReg_eq (by omega)]
  dsimp only
  split
  · exact h
  · next r hr =>
    have hm : r ∈ regsFIO := by have := findReg_mem hr; simp only [blockRegs, hw] at this; exact this
    have ha : Foot.reg f a := reg_at hf 0x400B .fio rfl rfl hw
    have hh : r.hiRW = false := (by decide : ∀ r ∈ regsFIO, r.hiRW = false) r hm
    refine ev_ite (fun _ => ev_ite (fun _ => by simpa [writeHigh, hh] using h) (fun _ => by simpa [writeLow, hh] using h)) (fun _ => ?_)
    simp only [write32Reg, hw]
    rw [if_neg (by decide)]
    simp only [writeBlockReg, hw]
    exact writeFio_ev (le_trans' hf rfl) hw h

theorem regWrite_DPX {m : Fin 8} {a : Nat} {v : Word} (hf : Foot.le (windowFoot 0x400C) f)
    (hw : a / 0x10000 = 0x400C) (h : Ev f s x) : Ev f s (regWrite m a v x) := by
  unfold regWrite
  refine ev_ite (fun hm => absurd (inMailbox_window hm) (by omega)) (fun _ => ?_)
  rw [canonReg_eq (by omega)]
  dsimp only
  split
  · exact h
  · next r hr =>
    have hm : r ∈ regsDPX := by have := findReg_mem hr; simp only [blockRegs, hw] at this; exact this
    have ha : Foot.reg f a := reg_at hf 0x400C .dpx rfl rfl hw
    have hb : 0x400C0000 ≤ r.base := (by decide : ∀ r ∈ regsDPX, 0x400C0000 ≤ r.base) r hm
    refine ev_ite (fun _ => ev_ite (fun hh => ?_) (fun _ => ?_)) (fun _ => ?_)
    · have h4 := isHigh_le (findReg_covers hr) hh
      have hl : Foot.reg f (a - 4) := reg_at hf 0x400C .dpx rfl rfl (by omega)
      have hl' : Foot.reg f (a - 4 + 4) := by rw [Nat.sub_add_cancel (by omega)]; exact ha
      have hc : ∀ (w : BitVec 64) (y : State), Ev f s y → Ev f s (commitWide r (a - 4) w y) := by
        intro w y hy
        unfold commitWide
        refine ev_ite (fun e => ?_) (fun _ => ev_ite (fun e => ?_) (fun _ => ev_ite (fun e => ?_) (fun _ => ev_wr64 hl hl' hy)))
        · exact absurd e ((by decide : ∀ r ∈ regsDPX, r.base ≠ Reg.TIME_TRIG_TARGET 0) r hm)
        · simp only [Reg.PWR_RTC] at e; omega
        · exact absurd e.1 ((by decide : ∀ r ∈ regsDPX, r.base ≠ Reg.NET_FI_START 0) r hm)
      have hall : Ev f s (writeHighAlone m r (a - 4) v x) := by
        unfold writeHighAlone
        exact setMiss_ev (le_trans' hf rfl) (hc _ _ h)
      unfold writeHigh
      refine ev_ite (fun _ => ?_) (fun _ => h)
      split
      · exact ev_ite (fun _ => hc _ _ (setSnap_ev (le_trans' hf rfl) h)) (fun _ => hall)
      · exact hall
    · unfold writeLow
      exact ev_ite (fun _ => setSnap_ev (le_trans' hf rfl) h) (fun _ => h)
    · simp only [write32Reg, hw]
      exact ev_ite (fun _ => writeDpxCfg_ev (le_trans' hf rfl) h) (fun _ => ev_ite (fun _ => writeDpxCmd_ev (le_trans' hf rfl) h) (fun _ => plainWrite_ev (le_trans' hf rfl) ha h))

theorem regWrite_NET {m : Fin 8} {a : Nat} {v : Word} (hf : Foot.le (windowFoot 0x400D) f)
    (hw : a / 0x10000 = 0x400D) (h : Ev f s x) : Ev f s (regWrite m a v x) := by
  unfold regWrite
  refine ev_ite (fun hm => absurd (inMailbox_window hm) (by omega)) (fun _ => ?_)
  rw [canonReg_eq (by omega)]
  dsimp only
  split
  · exact h
  · next r hr =>
    have hm : r ∈ regsNET := by have := findReg_mem hr; simp only [blockRegs, hw] at this; exact this
    have ha : Foot.reg f a := reg_at hf 0x400D .net rfl rfl hw
    have hb : 0x400D0000 ≤ r.base := (by decide : ∀ r ∈ regsNET, 0x400D0000 ≤ r.base) r hm
    refine ev_ite (fun _ => ev_ite (fun hh => ?_) (fun _ => ?_)) (fun _ => ?_)
    · have h4 := isHigh_le (findReg_covers hr) hh
      have hl : Foot.reg f (a - 4) := reg_at hf 0x400D .net rfl rfl (by omega)
      have hl' : Foot.reg f (a - 4 + 4) := by rw [Nat.sub_add_cancel (by omega)]; exact ha
      have hc : ∀ (w : BitVec 64) (y : State), Ev f s y → Ev f s (commitWide r (a - 4) w y) := by
        intro w y hy
        unfold commitWide
        refine ev_ite (fun e => ?_) (fun _ => ev_ite (fun e => ?_) (fun _ => ev_ite (fun e => netErr_ev (le_trans' hf rfl) hy) (fun _ => ev_wr64 hl hl' hy)))
        · exact absurd e ((by decide : ∀ r ∈ regsNET, r.base ≠ Reg.TIME_TRIG_TARGET 0) r hm)
        · simp only [Reg.PWR_RTC] at e; omega
      have hall : Ev f s (writeHighAlone m r (a - 4) v x) := by
        unfold writeHighAlone
        exact setMiss_ev (le_trans' hf rfl) (hc _ _ h)
      unfold writeHigh
      refine ev_ite (fun _ => ?_) (fun _ => h)
      split
      · exact ev_ite (fun _ => hc _ _ (setSnap_ev (le_trans' hf rfl) h)) (fun _ => hall)
      · exact hall
    · unfold writeLow
      exact ev_ite (fun _ => setSnap_ev (le_trans' hf rfl) h) (fun _ => h)
    · simp only [write32Reg, hw]
      rw [if_neg (by decide)]
      simp only [writeBlockReg, hw]
      exact writeNet_ev (le_trans' hf rfl) hw h

theorem regWrite_CMD {m : Fin 8} {a : Nat} {v : Word} (hf : Foot.le (windowFoot 0x400E) f)
    (hw : a / 0x10000 = 0x400E) (h : Ev f s x) : Ev f s (regWrite m a v x) := by
  unfold regWrite
  refine ev_ite (fun _ => mailWrite_ev (le_trans' hf rfl) h) (fun _ => ?_)
  rw [canonReg_eq (by omega)]
  dsimp only
  split
  · exact h
  · next r hr =>
    have hm : r ∈ regsCMD := by have := findReg_mem hr; simp only [blockRegs, hw] at this; exact this
    have ha : Foot.reg f a := reg_at hf 0x400E .cmd rfl rfl hw
    have hh : r.hiRW = false := (by decide : ∀ r ∈ regsCMD, r.hiRW = false) r hm
    refine ev_ite (fun _ => ev_ite (fun _ => by simpa [writeHigh, hh] using h) (fun _ => by simpa [writeLow, hh] using h)) (fun _ => ?_)
    simp only [write32Reg, hw]
    exact writeCmd_ev (le_trans' hf rfl) hw h

theorem regWrite_UPD {m : Fin 8} {a : Nat} {v : Word} (hf : Foot.le (windowFoot 0x400F) f)
    (hw : a / 0x10000 = 0x400F) (h : Ev f s x) : Ev f s (regWrite m a v x) := by
  unfold regWrite
  refine ev_ite (fun hm => absurd (inMailbox_window hm) (by omega)) (fun _ => ?_)
  rw [canonReg_eq (by omega)]
  dsimp only
  split
  · exact h
  · next r hr =>
    have hm : r ∈ regsUPD := by have := findReg_mem hr; simp only [blockRegs, hw] at this; exact this
    have ha : Foot.reg f a := reg_at hf 0x400F .upd rfl rfl hw
    have hh : r.hiRW = false := (by decide : ∀ r ∈ regsUPD, r.hiRW = false) r hm
    refine ev_ite (fun _ => ev_ite (fun _ => by simpa [writeHigh, hh] using h) (fun _ => by simpa [writeLow, hh] using h)) (fun _ => ?_)
    simp only [write32Reg, hw]
    exact writeUpd_ev (le_trans' hf rfl) hw h

theorem regWrite_PWM {m : Fin 8} {a : Nat} {v : Word} (hf : Foot.le (windowFoot 0x4014) f)
    (hw : a / 0x10000 = 0x4014) (h : Ev f s x) : Ev f s (regWrite m a v x) := by
  unfold regWrite
  refine ev_ite (fun hm => absurd (inMailbox_window hm) (by omega)) (fun _ => ?_)
  rw [canonReg_eq (by omega)]
  dsimp only
  split
  · exact h
  · next r hr =>
    have hm : r ∈ regsPWM := by have := findReg_mem hr; simp only [blockRegs, hw] at this; exact this
    have ha : Foot.reg f a := reg_at hf 0x4014 .pwm rfl rfl hw
    have hh : r.hiRW = false := (by decide : ∀ r ∈ regsPWM, r.hiRW = false) r hm
    refine ev_ite (fun _ => ev_ite (fun _ => by simpa [writeHigh, hh] using h) (fun _ => by simpa [writeLow, hh] using h)) (fun _ => ?_)
    simp only [write32Reg, hw]
    rw [if_neg (by decide)]
    simp only [writeBlockReg, hw]
    exact writePwm_ev (le_trans' hf rfl) hw h

theorem regWrite_FAB {m : Fin 8} {a : Nat} {v : Word} (hf : Foot.le (windowFoot 0x4010) f)
    (hw : 0x4010 ≤ a / 0x10000 ∧ a / 0x10000 ≤ 0x4013) (h : Ev f s x) : Ev f s (regWrite m a v x) := by
  unfold regWrite
  refine ev_ite (fun hm => absurd (inMailbox_window hm) (by omega)) (fun _ => ?_)
  have hw' := canonReg_fab hw
  revert hw'
  generalize canonReg a = b
  intro hw'
  dsimp only
  split
  · exact h
  · next r hr =>
    have hm : r ∈ regsFABRIC := by
      have := findReg_mem hr
      have e : b / 0x10000 = 0x4010 ∨ b / 0x10000 = 0x4011 ∨ b / 0x10000 = 0x4012 ∨ b / 0x10000 = 0x4013 := by omega
      rcases e with e | e | e | e <;> simp only [blockRegs, e] at this <;> exact this
    have hh : r.hiRW = false := (by decide : ∀ r ∈ regsFABRIC, r.hiRW = false) r hm
    refine ev_ite (fun _ => ev_ite (fun _ => by simpa [writeHigh, hh] using h) (fun _ => by simpa [writeLow, hh] using h)) (fun _ => ?_)
    have e : b / 0x10000 = 0x4010 ∨ b / 0x10000 = 0x4011 ∨ b / 0x10000 = 0x4012 ∨ b / 0x10000 = 0x4013 := by omega
    rcases e with e | e | e | e <;> simp only [write32Reg, e] <;> exact writeFab_ev (le_trans' hf rfl) hw' h

/-- The shape of a write on the bus: no service, a denial, a misuse of register space, a register write, or memory. -/
theorem busWrite_cases {m : Fin 8} {w : AccWidth} {a : Nat} {v hi : Word} (hr : .busReply ∈ f.parts) (hl : .log ∈ f.parts)
    (hc : .cmd ∈ f.blocks ∨ f.anyReg = true)
    (hreg : 0x4000 ≤ a / 0x10000 ∧ a / 0x10000 ≤ 0x4014 → Ev f s (regWrite m a v (reply .done x)))
    (hmem : ¬(0x4000 ≤ a / 0x10000 ∧ a / 0x10000 ≤ 0x4014) → .mem ∈ f.parts) (h : Ev f s x) :
    Ev f s (busWrite m w a v hi x) := by
  have hcm : ∀ b, b / 0x10000 = 0x400E → Foot.reg f b := fun b hb =>
    hc.elim (fun k => .inr ⟨.cmd, by simp [blockAt, hb], k⟩) .inl
  have hrep : ∀ r, Ev f s (reply r x) := fun r => ev_busReply hr h
  have hlog : ∀ c q e, Ev f s (logN c q e x) := by
    intro c q e
    unfold logN logEvent
    split
    · exact ev_log hl (fun _ => by simp; omega) id h
    · exact ev_log hl id id (ev_wr (hcm _ rfl) (ev_setF (hcm _ rfl) h))
  unfold busWrite
  refine ev_ite (fun _ => hrep _) (fun _ => ev_ite (fun _ => ev_busReply hr (hlog _ _ _)) (fun _ => ?_))
  have hreg' : busRegion a = some .registers → 0x4000 ≤ a / 0x10000 ∧ a / 0x10000 ≤ 0x4014 := by
    intro e
    unfold busRegion at e
    repeat' split at e
    all_goals first | omega | cases e
  have hreg'' : busRegion a ≠ some .registers → ¬(0x4000 ≤ a / 0x10000 ∧ a / 0x10000 ≤ 0x4014) := by
    intro e k
    apply e
    unfold busRegion
    repeat' split
    all_goals first | rfl | omega
  refine ev_ite (fun e => ev_ite (fun _ => hrep _) (fun _ => hreg (hreg' e))) (fun e => ?_)
  have hput : ∀ (n b : Nat) (u : Word) (y : State), Ev f s y → Ev f s (memWrite n b u y) := by
    intro n b u y hy
    unfold memWrite
    exact ev_ite (fun _ => hy) (fun _ => ev_memPutBytes (hmem (hreg'' e)) hy)
  exact ev_ite (fun _ => hput _ _ _ _ (hput _ _ _ _ (hrep _))) (fun _ => hput _ _ _ _ (hrep _))

theorem busWrite_SYS {m : Fin 8} {w : AccWidth} {a : Nat} {v hi : Word} (hf : Foot.le (windowFoot 0x4000) f)
    (hw : a / 0x10000 = 0x4000) (h : Ev f s x) : Ev f s (busWrite m w a v hi x) :=
  busWrite_cases (part_mem hf rfl) (part_mem hf rfl) (.inr (hf.anyReg rfl))
    (fun _ => regWrite_SYS hf hw (ev_busReply (part_mem hf rfl) h)) (fun k => absurd ⟨by omega, by omega⟩ k) h

theorem busWrite_PWR {m : Fin 8} {w : AccWidth} {a : Nat} {v hi : Word} (hf : Foot.le (windowFoot 0x4001) f)
    (hw : a / 0x10000 = 0x4001) (h : Ev f s x) : Ev f s (busWrite m w a v hi x) :=
  busWrite_cases (part_mem hf rfl) (part_mem hf rfl) (.inl (block_mem hf rfl))
    (fun _ => regWrite_PWR hf hw (ev_busReply (part_mem hf rfl) h)) (fun k => absurd ⟨by omega, by omega⟩ k) h

theorem busWrite_CLK {m : Fin 8} {w : AccWidth} {a : Nat} {v hi : Word} (hf : Foot.le (windowFoot 0x4002) f)
    (hw : a / 0x10000 = 0x4002) (h : Ev f s x) : Ev f s (busWrite m w a v hi x) :=
  busWrite_cases (part_mem hf rfl) (part_mem hf rfl) (.inl (block_mem hf rfl))
    (fun _ => regWrite_CLK hf hw (ev_busReply (part_mem hf rfl) h)) (fun k => absurd ⟨by omega, by omega⟩ k) h

theorem busWrite_TIME {m : Fin 8} {w : AccWidth} {a : Nat} {v hi : Word} (hf : Foot.le (windowFoot 0x4003) f)
    (hw : a / 0x10000 = 0x4003) (h : Ev f s x) : Ev f s (busWrite m w a v hi x) :=
  busWrite_cases (part_mem hf rfl) (part_mem hf rfl) (.inl (block_mem hf rfl))
    (fun _ => regWrite_TIME hf hw (ev_busReply (part_mem hf rfl) h)) (fun k => absurd ⟨by omega, by omega⟩ k) h

theorem busWrite_ADC {m : Fin 8} {w : AccWidth} {a : Nat} {v hi : Word} (hf : Foot.le (windowFoot 0x4004) f)
    (hw : a / 0x10000 = 0x4004) (h : Ev f s x) : Ev f s (busWrite m w a v hi x) :=
  busWrite_cases (part_mem hf rfl) (part_mem hf rfl) (.inl (block_mem hf rfl))
    (fun _ => regWrite_ADC hf hw (ev_busReply (part_mem hf rfl) h)) (fun k => absurd ⟨by omega, by omega⟩ k) h

theorem busWrite_FILT {m : Fin 8} {w : AccWidth} {a : Nat} {v hi : Word} (hf : Foot.le (windowFoot 0x4005) f)
    (hw : a / 0x10000 = 0x4005) (h : Ev f s x) : Ev f s (busWrite m w a v hi x) :=
  busWrite_cases (part_mem hf rfl) (part_mem hf rfl) (.inl (block_mem hf rfl))
    (fun _ => regWrite_FILT hf hw (ev_busReply (part_mem hf rfl) h)) (fun k => absurd ⟨by omega, by omega⟩ k) h

theorem busWrite_CTRL {m : Fin 8} {w : AccWidth} {a : Nat} {v hi : Word} (hf : Foot.le (windowFoot 0x4006) f)
    (hw : a / 0x10000 = 0x4006) (h : Ev f s x) : Ev f s (busWrite m w a v hi x) :=
  busWrite_cases (part_mem hf rfl) (part_mem hf rfl) (.inl (block_mem hf rfl))
    (fun _ => regWrite_CTRL hf hw (ev_busReply (part_mem hf rfl) h)) (fun k => absurd ⟨by omega, by omega⟩ k) h

theorem busWrite_GFM {m : Fin 8} {w : AccWidth} {a : Nat} {v hi : Word} (hf : Foot.le (windowFoot 0x4007) f)
    (hw : a / 0x10000 = 0x4007) (h : Ev f s x) : Ev f s (busWrite m w a v hi x) :=
  busWrite_cases (part_mem hf rfl) (part_mem hf rfl) (.inl (block_mem hf rfl))
    (fun _ => regWrite_GFM hf hw (ev_busReply (part_mem hf rfl) h)) (fun k => absurd ⟨by omega, by omega⟩ k) h

theorem busWrite_PROT {m : Fin 8} {w : AccWidth} {a : Nat} {v hi : Word} (hf : Foot.le (windowFoot 0x4008) f)
    (hw : a / 0x10000 = 0x4008) (h : Ev f s x) : Ev f s (busWrite m w a v hi x) :=
  busWrite_cases (part_mem hf rfl) (part_mem hf rfl) (.inl (block_mem hf rfl))
    (fun _ => regWrite_PROT hf hw (ev_busReply (part_mem hf rfl) h)) (fun k => absurd ⟨by omega, by omega⟩ k) h

theorem busWrite_REC {m : Fin 8} {w : AccWidth} {a : Nat} {v hi : Word} (hf : Foot.le (windowFoot 0x4009) f)
    (hw : a / 0x10000 = 0x4009) (h : Ev f s x) : Ev f s (busWrite m w a v hi x) :=
  busWrite_cases (part_mem hf rfl) (part_mem hf rfl) (.inl (block_mem hf rfl))
    (fun _ => regWrite_REC hf hw (ev_busReply (part_mem hf rfl) h)) (fun k => absurd ⟨by omega, by omega⟩ k) h

theorem busWrite_SCAN {m : Fin 8} {w : AccWidth} {a : Nat} {v hi : Word} (hf : Foot.le (windowFoot 0x400A) f)
    (hw : a / 0x10000 = 0x400A) (h : Ev f s x) : Ev f s (busWrite m w a v hi x) :=
  busWrite_cases (part_mem hf rfl) (part_mem hf rfl) (.inl (block_mem hf rfl))
    (fun _ => regWrite_SCAN hf hw (ev_busReply (part_mem hf rfl) h)) (fun k => absurd ⟨by omega, by omega⟩ k) h

theorem busWrite_FIO {m : Fin 8} {w : AccWidth} {a : Nat} {v hi : Word} (hf : Foot.le (windowFoot 0x400B) f)
    (hw : a / 0x10000 = 0x400B) (h : Ev f s x) : Ev f s (busWrite m w a v hi x) :=
  busWrite_cases (part_mem hf rfl) (part_mem hf rfl) (.inl (block_mem hf rfl))
    (fun _ => regWrite_FIO hf hw (ev_busReply (part_mem hf rfl) h)) (fun k => absurd ⟨by omega, by omega⟩ k) h

theorem busWrite_DPX {m : Fin 8} {w : AccWidth} {a : Nat} {v hi : Word} (hf : Foot.le (windowFoot 0x400C) f)
    (hw : a / 0x10000 = 0x400C) (h : Ev f s x) : Ev f s (busWrite m w a v hi x) :=
  busWrite_cases (part_mem hf rfl) (part_mem hf rfl) (.inl (block_mem hf rfl))
    (fun _ => regWrite_DPX hf hw (ev_busReply (part_mem hf rfl) h)) (fun k => absurd ⟨by omega, by omega⟩ k) h

theorem busWrite_NET {m : Fin 8} {w : AccWidth} {a : Nat} {v hi : Word} (hf : Foot.le (windowFoot 0x400D) f)
    (hw : a / 0x10000 = 0x400D) (h : Ev f s x) : Ev f s (busWrite m w a v hi x) :=
  busWrite_cases (part_mem hf rfl) (part_mem hf rfl) (.inl (block_mem hf rfl))
    (fun _ => regWrite_NET hf hw (ev_busReply (part_mem hf rfl) h)) (fun k => absurd ⟨by omega, by omega⟩ k) h

theorem busWrite_CMD {m : Fin 8} {w : AccWidth} {a : Nat} {v hi : Word} (hf : Foot.le (windowFoot 0x400E) f)
    (hw : a / 0x10000 = 0x400E) (h : Ev f s x) : Ev f s (busWrite m w a v hi x) :=
  busWrite_cases (part_mem hf rfl) (part_mem hf rfl) (.inl (block_mem hf rfl))
    (fun _ => regWrite_CMD hf hw (ev_busReply (part_mem hf rfl) h)) (fun k => absurd ⟨by omega, by omega⟩ k) h

theorem busWrite_UPD {m : Fin 8} {w : AccWidth} {a : Nat} {v hi : Word} (hf : Foot.le (windowFoot 0x400F) f)
    (hw : a / 0x10000 = 0x400F) (h : Ev f s x) : Ev f s (busWrite m w a v hi x) :=
  busWrite_cases (part_mem hf rfl) (part_mem hf rfl) (.inl (block_mem hf rfl))
    (fun _ => regWrite_UPD hf hw (ev_busReply (part_mem hf rfl) h)) (fun k => absurd ⟨by omega, by omega⟩ k) h

theorem busWrite_PWM {m : Fin 8} {w : AccWidth} {a : Nat} {v hi : Word} (hf : Foot.le (windowFoot 0x4014) f)
    (hw : a / 0x10000 = 0x4014) (h : Ev f s x) : Ev f s (busWrite m w a v hi x) :=
  busWrite_cases (part_mem hf rfl) (part_mem hf rfl) (.inl (block_mem hf rfl))
    (fun _ => regWrite_PWM hf hw (ev_busReply (part_mem hf rfl) h)) (fun k => absurd ⟨by omega, by omega⟩ k) h

theorem busWrite_FAB {m : Fin 8} {w : AccWidth} {a : Nat} {v hi : Word} (hf : Foot.le (windowFoot 0x4010) f)
    (hw : 0x4010 ≤ a / 0x10000 ∧ a / 0x10000 ≤ 0x4013) (h : Ev f s x) : Ev f s (busWrite m w a v hi x) :=
  busWrite_cases (part_mem hf rfl) (part_mem hf rfl) (.inl (block_mem hf rfl))
    (fun _ => regWrite_FAB hf hw (ev_busReply (part_mem hf rfl) h)) (fun k => absurd ⟨by omega, by omega⟩ k) h

/-- A write on the bus stays within the footprint of its window. -/
theorem busWrite_ev {m : Fin 8} {w : AccWidth} {a : Nat} {v hi : Word} (hf : Foot.le (windowFoot (a / 0x10000)) f)
    (h : Ev f s x) : Ev f s (busWrite m w a v hi x) := by
  by_cases hin : 0x4000 ≤ a / 0x10000 ∧ a / 0x10000 ≤ 0x4014
  · have e : a / 0x10000 = 0x4000 ∨ a / 0x10000 = 0x4001 ∨ a / 0x10000 = 0x4002 ∨ a / 0x10000 = 0x4003 ∨ a / 0x10000 = 0x4004 ∨ a / 0x10000 = 0x4005 ∨ a / 0x10000 = 0x4006 ∨ a / 0x10000 = 0x4007 ∨ a / 0x10000 = 0x4008 ∨ a / 0x10000 = 0x4009 ∨ a / 0x10000 = 0x400A ∨ a / 0x10000 = 0x400B ∨ a / 0x10000 = 0x400C ∨ a / 0x10000 = 0x400D ∨ a / 0x10000 = 0x400E ∨ a / 0x10000 = 0x400F ∨ a / 0x10000 = 0x4010 ∨ a / 0x10000 = 0x4011 ∨ a / 0x10000 = 0x4012 ∨ a / 0x10000 = 0x4013 ∨ a / 0x10000 = 0x4014 := by omega
    rcases e with e | e | e | e | e | e | e | e | e | e | e | e | e | e | e | e | e | e | e | e | e
    · rw [e] at hf; exact busWrite_SYS hf e h
    · rw [e] at hf; exact busWrite_PWR hf e h
    · rw [e] at hf; exact busWrite_CLK hf e h
    · rw [e] at hf; exact busWrite_TIME hf e h
    · rw [e] at hf; exact busWrite_ADC hf e h
    · rw [e] at hf; exact busWrite_FILT hf e h
    · rw [e] at hf; exact busWrite_CTRL hf e h
    · rw [e] at hf; exact busWrite_GFM hf e h
    · rw [e] at hf; exact busWrite_PROT hf e h
    · rw [e] at hf; exact busWrite_REC hf e h
    · rw [e] at hf; exact busWrite_SCAN hf e h
    · rw [e] at hf; exact busWrite_FIO hf e h
    · rw [e] at hf; exact busWrite_DPX hf e h
    · rw [e] at hf; exact busWrite_NET hf e h
    · rw [e] at hf; exact busWrite_CMD hf e h
    · rw [e] at hf; exact busWrite_UPD hf e h
    · rw [e] at hf; exact busWrite_FAB hf (by omega) h
    · rw [e] at hf; exact busWrite_FAB hf (by omega) h
    · rw [e] at hf; exact busWrite_FAB hf (by omega) h
    · rw [e] at hf; exact busWrite_FAB hf (by omega) h
    · rw [e] at hf; exact busWrite_PWM hf e h
  · have hd : windowFoot (a / 0x10000) = ⟨[.mem, .busReply, .log], [.cmd], false⟩ := by
      unfold windowFoot
      split <;> first | rfl | omega
    rw [hd] at hf
    exact busWrite_cases (part_mem hf rfl) (part_mem hf rfl) (.inl (block_mem hf rfl)) (fun k => absurd k hin)
      (fun _ => part_mem hf rfl) h

/-- A register write of any word, as the opcode WRITE_REGS makes it. -/
theorem regWrite_ev {m : Fin 8} {a : Nat} {v : Word} (hf : Foot.le ⟨[.mem, .snap, .busReply, .fresh, .tai, .log, .fab, .pwr, .time, .adc, .filt, .loop, .gfm, .prot, .scan, .fio, .dpx, .cmd, .recd, .net, .upd], [.sys, .pwr, .clk, .time, .adc, .filt, .ctrl, .gfm, .prot, .recd, .scan, .fio, .dpx, .net, .cmd, .upd, .fab, .pwm], true⟩ f) (h : Ev f s x) :
    Ev f s (regWrite m a v x) := by
  by_cases hin : 0x4000 ≤ a / 0x10000 ∧ a / 0x10000 ≤ 0x4014
  · have e : a / 0x10000 = 0x4000 ∨ a / 0x10000 = 0x4001 ∨ a / 0x10000 = 0x4002 ∨ a / 0x10000 = 0x4003 ∨ a / 0x10000 = 0x4004 ∨ a / 0x10000 = 0x4005 ∨ a / 0x10000 = 0x4006 ∨ a / 0x10000 = 0x4007 ∨ a / 0x10000 = 0x4008 ∨ a / 0x10000 = 0x4009 ∨ a / 0x10000 = 0x400A ∨ a / 0x10000 = 0x400B ∨ a / 0x10000 = 0x400C ∨ a / 0x10000 = 0x400D ∨ a / 0x10000 = 0x400E ∨ a / 0x10000 = 0x400F ∨ a / 0x10000 = 0x4010 ∨ a / 0x10000 = 0x4011 ∨ a / 0x10000 = 0x4012 ∨ a / 0x10000 = 0x4013 ∨ a / 0x10000 = 0x4014 := by omega
    rcases e with e | e | e | e | e | e | e | e | e | e | e | e | e | e | e | e | e | e | e | e | e
    · exact regWrite_SYS (le_trans' hf rfl) e h
    · exact regWrite_PWR (le_trans' hf rfl) e h
    · exact regWrite_CLK (le_trans' hf rfl) e h
    · exact regWrite_TIME (le_trans' hf rfl) e h
    · exact regWrite_ADC (le_trans' hf rfl) e h
    · exact regWrite_FILT (le_trans' hf rfl) e h
    · exact regWrite_CTRL (le_trans' hf rfl) e h
    · exact regWrite_GFM (le_trans' hf rfl) e h
    · exact regWrite_PROT (le_trans' hf rfl) e h
    · exact regWrite_REC (le_trans' hf rfl) e h
    · exact regWrite_SCAN (le_trans' hf rfl) e h
    · exact regWrite_FIO (le_trans' hf rfl) e h
    · exact regWrite_DPX (le_trans' hf rfl) e h
    · exact regWrite_NET (le_trans' hf rfl) e h
    · exact regWrite_CMD (le_trans' hf rfl) e h
    · exact regWrite_UPD (le_trans' hf rfl) e h
    · exact regWrite_FAB (le_trans' hf rfl) (by omega) h
    · exact regWrite_FAB (le_trans' hf rfl) (by omega) h
    · exact regWrite_FAB (le_trans' hf rfl) (by omega) h
    · exact regWrite_FAB (le_trans' hf rfl) (by omega) h
    · exact regWrite_PWM (le_trans' hf rfl) e h
  · unfold regWrite
    refine ev_ite (fun hm => absurd (inMailbox_window hm) (by omega)) (fun _ => ?_)
    rw [canonReg_eq (by omega)]
    have hd : blockRegs a = [] := by
      unfold blockRegs
      split <;> first | rfl | omega
    simp only [findReg, hd, List.find?_nil]
    exact h


theorem execLowWordWrite_ev {m : Fin 8} {a : BitVec 32} {v : Word} (hf : Foot.le (windowFoot (a.toNat / 0x10000)) f) (h : Ev f s x) :
    EvO f s (execLowWordWrite m a v x) :=
  evo_next (busWrite_ev hf h)

theorem execHighWordWrite_ev {m : Fin 8} {a : BitVec 32} {v : Word} (hf : Foot.le (windowFoot (a.toNat / 0x10000)) f) (h : Ev f s x) :
    EvO f s (execHighWordWrite m a v x) :=
  evo_next (busWrite_ev hf h)

theorem execFabIndGo_ev {m : Fin 8} {c : Fin 4} {v : Word} (hf : Foot.le (windowFoot 0x4010) f) (h : Ev f s x) :
    EvO f s (execFabIndGo m c v x) :=
  evo_next (busWrite_FAB hf (by simp only [Reg.FAB_IND_CTRL]; omega) h)

theorem execCheckNow_ev {m : Fin 8} {c : Fin 4} {v : Word} (hf : Foot.le (windowFoot 0x4010) f) (h : Ev f s x) :
    EvO f s (execCheckNow m c v x) :=
  evo_next (busWrite_FAB hf (by simp only [Reg.FAB_SHADOW_CTRL]; omega) h)

theorem execSysResetCtrlGo_ev {m : Fin 8} {v : Word} (hf : Foot.le (windowFoot 0x4000) f) (h : Ev f s x) :
    EvO f s (execSysResetCtrlGo m v x) :=
  evo_next (busWrite_SYS hf rfl h)

theorem execTimeStepGo_ev {m : Fin 8} {v : Word} (hf : Foot.le (windowFoot 0x4003) f) (h : Ev f s x) :
    EvO f s (execTimeStepGo m v x) :=
  evo_next (busWrite_TIME hf rfl h)

theorem execTrigArm_ev {m : Fin 8} {n : Fin 8} {v : Word} (hf : Foot.le (windowFoot 0x4003) f) (h : Ev f s x) :
    EvO f s (execTrigArm m n v x) :=
  evo_next (busWrite_TIME hf (by simp only [Reg.TIME_TRIG_CFG]; omega) h)

theorem execTrigDisarm_ev {m : Fin 8} {n : Fin 8} {v : Word} (hf : Foot.le (windowFoot 0x4003) f) (h : Ev f s x) :
    EvO f s (execTrigDisarm m n v x) :=
  evo_next (busWrite_TIME hf (by simp only [Reg.TIME_TRIG_CFG]; omega) h)

theorem execAdcRun_ev {m : Fin 8} {c : Fin 4} {v : Word} (hf : Foot.le (windowFoot 0x4004) f) (h : Ev f s x) :
    EvO f s (execAdcRun m c v x) :=
  evo_next (busWrite_ADC hf (by simp only [Reg.ADC_CTRL]; omega) h)

theorem execAdcStop_ev {m : Fin 8} {c : Fin 4} {v : Word} (hf : Foot.le (windowFoot 0x4004) f) (h : Ev f s x) :
    EvO f s (execAdcStop m c v x) :=
  evo_next (busWrite_ADC hf (by simp only [Reg.ADC_CTRL]; omega) h)

theorem execAdcCal_ev {m : Fin 8} {c : Fin 4} {v : Word} (hf : Foot.le (windowFoot 0x4004) f) (h : Ev f s x) :
    EvO f s (execAdcCal m c v x) :=
  evo_next (busWrite_ADC hf (by simp only [Reg.ADC_CTRL]; omega) h)

theorem execAdcCommit_ev {m : Fin 8} {c : Fin 4} {v : Word} (hf : Foot.le (windowFoot 0x4004) f) (h : Ev f s x) :
    EvO f s (execAdcCommit m c v x) :=
  evo_next (busWrite_ADC hf (by simp only [Reg.ADC_CTRL]; omega) h)

theorem execFiltCfgWrite_ev {m : Fin 8} {n : Fin 24} {v : Word} (hf : Foot.le (windowFoot 0x4005) f) (h : Ev f s x) :
    EvO f s (execFiltCfgWrite m n v x) :=
  evo_next (busWrite_FILT hf (by simp only [Reg.FILT_CH_CFG]; omega) h)

theorem execStageStart_ev {m : Fin 8} {st : Fin 4} {v : Word} (hf : Foot.le (windowFoot 0x4006) f) (h : Ev f s x) :
    EvO f s (execStageStart m st v x) :=
  evo_next (busWrite_CTRL hf (by simp only [Reg.CTRL_STAGE_CMD]; omega) h)

theorem execStageStop_ev {m : Fin 8} {st : Fin 4} {v : Word} (hf : Foot.le (windowFoot 0x4006) f) (h : Ev f s x) :
    EvO f s (execStageStop m st v x) :=
  evo_next (busWrite_CTRL hf (by simp only [Reg.CTRL_STAGE_CMD]; omega) h)

theorem execInnerChange_ev {m : Fin 8} {st : Fin 4} {hyst : Bool} (hf : Foot.le (windowFoot 0x4006) f) (h : Ev f s x) :
    EvO f s (execInnerChange m st hyst x) :=
  evo_next (busWrite_CTRL hf (by simp only [Reg.CTRL_STAGE_CMD]; omega) h)

theorem execPwmBlockWrite_ev {m : Fin 8} {mask : BitVec 4} (hf : Foot.le (windowFoot 0x4014) f) (h : Ev f s x) :
    EvO f s (execPwmBlockWrite m mask x) :=
  evo_next (busWrite_PWM hf rfl h)

theorem execGateReleaseWrite_ev {m : Fin 8} {mask : BitVec 4} (hf : Foot.le (windowFoot 0x4014) f) (h : Ev f s x) :
    EvO f s (execGateReleaseWrite m mask x) :=
  evo_next (busWrite_PWM hf rfl h)

theorem execGfmStart_ev {m : Fin 8} {g : Fin 2} {v : Word} (hf : Foot.le (windowFoot 0x4007) f) (h : Ev f s x) :
    EvO f s (execGfmStart m g v x) :=
  evo_next (busWrite_GFM hf (by simp only [Reg.GFM_CMD]; omega) h)

theorem execGfmStop_ev {m : Fin 8} {g : Fin 2} {v : Word} (hf : Foot.le (windowFoot 0x4007) f) (h : Ev f s x) :
    EvO f s (execGfmStop m g v x) :=
  evo_next (busWrite_GFM hf (by simp only [Reg.GFM_CMD]; omega) h)

theorem execGfmAck_ev {m : Fin 8} {g : Fin 2} {v : Word} (hf : Foot.le (windowFoot 0x4007) f) (h : Ev f s x) :
    EvO f s (execGfmAck m g v x) :=
  evo_next (busWrite_GFM hf (by simp only [Reg.GFM_CMD]; omega) h)

theorem execRecCtrlArm_ev {m : Fin 8} {v : Word} (hf : Foot.le (windowFoot 0x4009) f) (h : Ev f s x) :
    EvO f s (execRecCtrlArm m v x) :=
  evo_next (busWrite_REC hf rfl h)

theorem execRecCtrlDisarm_ev {m : Fin 8} {v : Word} (hf : Foot.le (windowFoot 0x4009) f) (h : Ev f s x) :
    EvO f s (execRecCtrlDisarm m v x) :=
  evo_next (busWrite_REC hf rfl h)

theorem execRecCtrlTrigger_ev {m : Fin 8} {v : Word} (hf : Foot.le (windowFoot 0x4009) f) (h : Ev f s x) :
    EvO f s (execRecCtrlTrigger m v x) :=
  evo_next (busWrite_REC hf rfl h)

theorem execScanRun_ev {m : Fin 8} {k : Fin 2} {v : Word} (hf : Foot.le (windowFoot 0x400A) f) (h : Ev f s x) :
    EvO f s (execScanRun m k v x) :=
  evo_next (busWrite_SCAN hf (by simp only [Reg.SCAN_CTRL]; omega) h)

theorem execScanStop_ev {m : Fin 8} {k : Fin 2} {v : Word} (hf : Foot.le (windowFoot 0x400A) f) (h : Ev f s x) :
    EvO f s (execScanStop m k v x) :=
  evo_next (busWrite_SCAN hf (by simp only [Reg.SCAN_CTRL]; omega) h)

theorem execScanHold_ev {m : Fin 8} {k : Fin 2} {v : Word} (hf : Foot.le (windowFoot 0x400A) f) (h : Ev f s x) :
    EvO f s (execScanHold m k v x) :=
  evo_next (busWrite_SCAN hf (by simp only [Reg.SCAN_CTRL]; omega) h)

theorem execScanStep_ev {m : Fin 8} {k : Fin 2} {v : Word} (hf : Foot.le (windowFoot 0x400A) f) (h : Ev f s x) :
    EvO f s (execScanStep m k v x) :=
  evo_next (busWrite_SCAN hf (by simp only [Reg.SCAN_CTRL]; omega) h)

theorem execDoOverloadRelease_ev {m : Fin 8} {n : Fin 16} {v : Word} (hf : Foot.le (windowFoot 0x400B) f) (h : Ev f s x) :
    EvO f s (execDoOverloadRelease m n v x) :=
  evo_next (busWrite_FIO hf rfl h)

theorem execFieldAck_ev {m : Fin 8} {g : Fin 2} {v : Word} (hf : Foot.le (windowFoot 0x400B) f) (h : Ev f s x) :
    EvO f s (execFieldAck m g v x) :=
  evo_next (busWrite_FIO hf rfl h)

theorem execGroupKill_ev {m : Fin 8} {g : Fin 2} {level : Bool} {v : Word} (hf : Foot.le (windowFoot 0x400B) f) (h : Ev f s x) :
    EvO f s (execGroupKill m g level v x) :=
  evo_next (busWrite_FIO hf rfl h)

theorem execDpxSwitch_ev {m : Fin 8} {v : Word} (hf : Foot.le (windowFoot 0x400C) f) (h : Ev f s x) :
    EvO f s (execDpxSwitch m v x) :=
  evo_next (busWrite_DPX hf rfl h)

theorem execDpxCancel_ev {m : Fin 8} {v : Word} (hf : Foot.le (windowFoot 0x400C) f) (h : Ev f s x) :
    EvO f s (execDpxCancel m v x) :=
  evo_next (busWrite_DPX hf rfl h)

theorem execFiArm_ev {m : Fin 8} {u : Fin 10} {v : Word} (hf : Foot.le (windowFoot 0x400D) f) (h : Ev f s x) :
    EvO f s (execFiArm m u v x) :=
  evo_next (busWrite_NET hf (by simp only [Reg.NET_FI_CFG]; omega) h)

theorem execFiDisarm_ev {m : Fin 8} {u : Fin 10} {v : Word} (hf : Foot.le (windowFoot 0x400D) f) (h : Ev f s x) :
    EvO f s (execFiDisarm m u v x) :=
  evo_next (busWrite_NET hf (by simp only [Reg.NET_FI_CFG]; omega) h)

theorem execCmdDoorbell_ev {m : Fin 8} {v : Word} (hf : Foot.le (windowFoot 0x400E) f) (h : Ev f s x) :
    EvO f s (execCmdDoorbell m v x) :=
  evo_next (busWrite_CMD hf rfl h)

theorem execChanReset_ev {m : Fin 8} {v : Word} (hf : Foot.le (windowFoot 0x400E) f) (h : Ev f s x) :
    EvO f s (execChanReset m v x) :=
  evo_next (busWrite_CMD hf rfl h)

theorem execEvtSel_ev {m : Fin 8} {v : Word} (hf : Foot.le (windowFoot 0x400E) f) (h : Ev f s x) :
    EvO f s (execEvtSel m v x) :=
  evo_next (busWrite_CMD hf rfl h)

theorem execRegisterWrite_ev {m : Fin 8} {w : AccWidth} {a : BitVec 32} {v : BusWord} (hf : Foot.le (windowFoot (a.toNat / 0x10000)) f) (h : Ev f s x) :
    EvO f s (execRegisterWrite m w a v x) :=
  evo_next (busWrite_ev hf h)

end Sys2Proof.Laws
end

