-- ==== Sys2Proof/Laws/EvCmd.lean ====
section
/-! SUPPORT. What each change of Machine/Cmd.lean can touch, and that it keeps the state sound: one lemma a function. -/

namespace Sys2Proof.Laws

open Sys2Proof Sys2Proof.Machine Sys2Proof.Safety

variable {f : Foot} {s x : State}

theorem ev_iteA {c : Prop} {d : Decidable c} {a b : Answer} (ha : c → Ev f s a.state) (hb : ¬c → Ev f s b.state) :
    Ev f s (if c then a else b).state := by
  split
  · exact ha ‹_›
  · exact hb ‹_›

theorem ev_answer {r : Nat × State} (h : Ev f s r.2) : Ev f s (answer r).state := h

theorem writeWords_ev {l : List Word} {a : Nat} {p : Nat × State} (hf : Foot.le ⟨[.mem, .snap, .busReply, .fresh, .tai, .log, .fab, .pwr, .time, .adc, .filt, .loop, .gfm, .prot, .scan, .fio, .dpx, .cmd, .recd, .net, .upd], [.sys, .pwr, .clk, .time, .adc, .filt, .ctrl, .gfm, .prot, .recd, .scan, .fio, .dpx, .net, .cmd, .upd, .fab, .pwm], true⟩ f)
    (h : Ev f s p.2) : Ev f s (writeWords a l p).2 := by
  induction l generalizing a p with
  | nil => exact h
  | cons w l ih =>
    unfold writeWords
    exact ev_ite2 (fun _ => ih (regWrite_ev (le_trans' hf rfl) h)) (fun _ => ih h)

theorem answerRequest_ev {ch : Fin 21} {code : Nat} {seq : Word} {r : Answer} (hf : Foot.le ⟨[.mem, .cmd], [.cmd], false⟩ f) (hr : Ev f s r.state) (h : Ev f s x) :
    Ev f s (answerRequest ch code seq x r) := by
  unfold answerRequest
  exact ev_ite (fun _ => sendReply_ev (le_trans' hf rfl) hr) (fun _ => ev_ite (fun _ => setChannel_ev (le_trans' hf rfl) hr)
    (fun _ => hr))

theorem serveChecked_ev {o : Opcode} {q : ReqHeader} {act : State → Answer} (hf : Foot.le ⟨[.mem, .log, .dpx, .cmd], [.dpx, .cmd], false⟩ f) (hact : ∀ y, Ev f s y → Ev f s (act y).state) (h : Ev f s x) :
    Ev f s (serveChecked o q act x) := by
  unfold serveChecked
  refine ev_ite (fun _ => answerRequest_ev (le_trans' hf rfl) (hact x h) h) (fun _ => ?_)
  have k := ev_whenS (f := f) (s := s) (c := checkRequest o q x == stStaleEpoch || checkRequest o q x == stWrongRole)
    (g := noteStale 1) (fun _ y hy => noteStale_ev (le_trans' hf rfl) hy) h
  exact answerRequest_ev (le_trans' hf rfl) k k

theorem serveNetwork_ev {o : Opcode} {q : ReqHeader} {act : State → Answer} (hf : Foot.le ⟨[.mem, .log, .dpx, .cmd], [.dpx, .cmd], false⟩ f) (hact : ∀ y, Ev f s y → Ev f s (act y).state) (h : Ev f s x) :
    Ev f s (serveNetwork o q act x) := by
  unfold serveNetwork
  exact ev_ite (fun _ => checkFrame_ev (le_trans' hf rfl) (fun y hy => serveChecked_ev (le_trans' hf rfl) hact hy)
    (setChannel_ev (le_trans' hf rfl) h)) (fun _ => h)

theorem serveMailbox_ev {o : Opcode} {q : ReqHeader} {act : State → Answer} (hf : Foot.le ⟨[.mem, .log, .dpx, .cmd], [.dpx, .cmd], false⟩ f) (hact : ∀ y, Ev f s y → Ev f s (act y).state) (h : Ev f s x) :
    Ev f s (serveMailbox o q act x) := by
  unfold serveMailbox
  split
  · exact h
  · exact ev_ite (fun _ => serveChecked_ev (le_trans' hf rfl) hact h) (fun _ => h)

theorem serve_ev {o : Opcode} {q : ReqHeader} {act : State → Answer} (hf : Foot.le ⟨[.mem, .log, .dpx, .cmd], [.dpx, .cmd], false⟩ f) (hact : ∀ y, Ev f s y → Ev f s (act y).state) (h : Ev f s x) :
    Ev f s (serve o q act x) := by
  unfold serve
  exact ev_ite (fun _ => serveMailbox_ev (le_trans' hf rfl) hact h) (fun _ => serveNetwork_ev (le_trans' hf rfl) hact h)

theorem execIdentify_ev {q : ReqHeader} (hf : Foot.le ⟨[.mem, .log, .dpx, .cmd, .net], [.dpx, .net, .cmd], false⟩ f) (h : Ev f s x) :
    EvO f s (execIdentify q x) := by
  unfold execIdentify
  repeat' first
    | with_reducible exact h
    | with_reducible assumption
    | with_reducible refine onChannel_ev (le_trans' hf rfl) (fun y hy => ?_) ?_
    | with_reducible refine serve_ev (le_trans' hf rfl) ?_ ?_
    | with_reducible refine evo_next ?_
    | with_reducible refine evo_ite (fun _ => ?_) (fun _ => ?_)
    | with_reducible refine ev_ite (fun _ => ?_) (fun _ => ?_)
    | intro n o y hy
    | intro y hy

theorem readWords_ev {n : Nat} {a : Nat} (hf : Foot.le ⟨[.snap], [.sys], false⟩ f) (h : Ev f s x) :
    Ev f s (readWords n a x).2 := by
  induction n generalizing x a with
  | zero => exact h
  | succ n ih => exact ih (regRead_ev (le_trans' hf rfl) h)

theorem execReadRegs_ev {q : ReqHeader} {a : BitVec 32} {n : Nat} (hf : Foot.le ⟨[.mem, .snap, .log, .dpx, .cmd, .net], [.sys, .dpx, .net, .cmd], false⟩ f) (h : Ev f s x) :
    EvO f s (execReadRegs q a n x) := by
  unfold execReadRegs
  repeat' first
    | with_reducible exact h
    | with_reducible assumption
    | with_reducible refine onChannel_ev (le_trans' hf rfl) (fun y hy => ?_) ?_
    | with_reducible refine readWords_ev (le_trans' hf rfl) ?_
    | with_reducible refine serve_ev (le_trans' hf rfl) ?_ ?_
    | refine ev_snd (by assumption) ?_
    | with_reducible refine evo_next ?_
    | with_reducible refine evo_ite (fun _ => ?_) (fun _ => ?_)
    | with_reducible refine ev_ite (fun _ => ?_) (fun _ => ?_)
    | intro n o y hy
    | intro y hy

theorem execWriteRegs_ev {q : ReqHeader} {a : BitVec 32} {ws : List Word} (hf : Foot.le ⟨[.mem, .snap, .busReply, .fresh, .tai, .log, .fab, .pwr, .time, .adc, .filt, .loop, .gfm, .prot, .scan, .fio, .dpx, .cmd, .recd, .net, .upd], [.sys, .pwr, .clk, .time, .adc, .filt, .ctrl, .gfm, .prot, .recd, .scan, .fio, .dpx, .net, .cmd, .upd, .fab, .pwm], true⟩ f) (h : Ev f s x) :
    EvO f s (execWriteRegs q a ws x) := by
  unfold execWriteRegs
  repeat' first
    | with_reducible exact h
    | with_reducible assumption
    | with_reducible refine onChannel_ev (le_trans' hf rfl) (fun y hy => ?_) ?_
    | with_reducible refine regWrite_ev (le_trans' hf rfl) ?_
    | with_reducible refine serve_ev (le_trans' hf rfl) ?_ ?_
    | with_reducible refine evo_next ?_
    | with_reducible refine evo_ite (fun _ => ?_) (fun _ => ?_)
    | with_reducible refine ev_ite (fun _ => ?_) (fun _ => ?_)
    | exact reg_any hf rfl _
    | intro n o y hy
    | intro y hy
    | exact Fin.isLt _
    | omega
    | with_reducible refine ev_iteA (fun _ => ?_) (fun _ => ?_)
    | with_reducible refine ev_answer ?_
    | refine writeWords_ev (le_trans' hf rfl) ?_

theorem execOpStatus_ev {q : ReqHeader} (hf : Foot.le ⟨[.mem, .log, .dpx, .cmd, .net], [.dpx, .net, .cmd], false⟩ f) (h : Ev f s x) :
    EvO f s (execOpStatus q x) := by
  unfold execOpStatus
  repeat' first
    | with_reducible exact h
    | with_reducible assumption
    | with_reducible refine onChannel_ev (le_trans' hf rfl) (fun y hy => ?_) ?_
    | with_reducible refine serve_ev (le_trans' hf rfl) ?_ ?_
    | with_reducible refine evo_next ?_
    | with_reducible refine evo_ite (fun _ => ?_) (fun _ => ?_)
    | with_reducible refine ev_ite (fun _ => ?_) (fun _ => ?_)
    | intro n o y hy
    | intro y hy
    | exact Fin.isLt _
    | omega
    | with_reducible refine ev_iteA (fun _ => ?_) (fun _ => ?_)
    | with_reducible refine ev_answer ?_
    | split

theorem execOpList_ev {q : ReqHeader} (hf : Foot.le ⟨[.mem, .log, .dpx, .cmd, .net], [.dpx, .net, .cmd], false⟩ f) (h : Ev f s x) :
    EvO f s (execOpList q x) := by
  unfold execOpList
  repeat' first
    | with_reducible exact h
    | with_reducible assumption
    | with_reducible refine onChannel_ev (le_trans' hf rfl) (fun y hy => ?_) ?_
    | with_reducible refine serve_ev (le_trans' hf rfl) ?_ ?_
    | with_reducible refine evo_next ?_
    | with_reducible refine evo_ite (fun _ => ?_) (fun _ => ?_)
    | with_reducible refine ev_ite (fun _ => ?_) (fun _ => ?_)
    | intro n o y hy
    | intro y hy

theorem control_ev {code : Nat} {q : ReqHeader} {act : Fin 16 → Oper → State → Nat × State} (hf : Foot.le ⟨[.mem, .log, .dpx, .cmd], [.dpx, .cmd], false⟩ f) (hact : ∀ n o y, Ev f s y → Ev f s (act n o y).2) (h : Ev f s x) :
    Ev f s (Machine.control code q act x) := by
  unfold Machine.control
  refine serve_ev (le_trans' hf rfl) (fun y hy => ?_) h
  dsimp only
  split
  · exact hy
  · split
    · exact hy
    · exact hact _ _ _ hy

theorem suspendOp_ev {n : Fin 16} {o : Oper} (hf : Foot.le ⟨[.cmd], [.cmd], false⟩ f) (h : Ev f s x) :
    Ev f s (suspendOp n o x).2 := by
  unfold suspendOp
  repeat' first
    | with_reducible exact h
    | with_reducible assumption
    | with_reducible refine setOper_ev (le_trans' hf rfl) ?_
    | with_reducible refine startQueuedExport_ev (le_trans' hf rfl) ?_
    | with_reducible refine ev_ite2 (fun _ => ?_) (fun _ => ?_)

theorem resumeOp_ev {n : Fin 16} {o : Oper} (hf : Foot.le ⟨[.cmd], [.cmd], false⟩ f) (h : Ev f s x) :
    Ev f s (resumeOp n o x).2 := by
  unfold resumeOp
  repeat' first
    | with_reducible exact h
    | with_reducible assumption
    | with_reducible refine setOper_ev (le_trans' hf rfl) ?_
    | with_reducible refine settleQueued_ev (le_trans' hf rfl) ?_
    | with_reducible refine ev_ite2 (fun _ => ?_) (fun _ => ?_)

theorem cancelOp_ev {n : Fin 16} {o : Oper} (hf : Foot.le ⟨[.fresh, .log, .fab, .scan, .dpx, .cmd, .recd, .upd], [.recd, .scan, .dpx, .cmd, .fab], false⟩ f) (h : Ev f s x) :
    Ev f s (cancelOp n o x).2 := by
  unfold cancelOp
  repeat' first
    | with_reducible exact h
    | with_reducible assumption
    | with_reducible refine disarmRequest_ev (le_trans' hf rfl) ?_
    | with_reducible refine endOp_ev (le_trans' hf rfl) ?_
    | with_reducible refine recClose_ev (le_trans' hf rfl) ?_
    | with_reducible refine switchCancelRequest_ev (le_trans' hf rfl) ?_
    | with_reducible refine withdrawActivation_ev (le_trans' hf rfl) ?_
    | refine ev_snd (by assumption) ?_
    | with_reducible refine ev_ite2 (fun _ => ?_) (fun _ => ?_)

theorem releaseOp_ev {n : Fin 16} {o : Oper} (hf : Foot.le ⟨[.cmd], [.cmd], false⟩ f) (h : Ev f s x) :
    Ev f s (releaseOp n o x).2 := by
  unfold releaseOp
  repeat' first
    | with_reducible exact h
    | with_reducible assumption
    | with_reducible refine setOper_ev (le_trans' hf rfl) ?_
    | with_reducible refine ev_ite2 (fun _ => ?_) (fun _ => ?_)

theorem execOpSuspend_ev {q : ReqHeader} (hf : Foot.le ⟨[.mem, .log, .dpx, .cmd, .net], [.dpx, .net, .cmd], false⟩ f) (h : Ev f s x) :
    EvO f s (execOpSuspend q x) := by
  unfold execOpSuspend
  repeat' first
    | with_reducible exact h
    | with_reducible assumption
    | with_reducible refine control_ev (le_trans' hf rfl) ?_ ?_
    | with_reducible refine onChannel_ev (le_trans' hf rfl) (fun y hy => ?_) ?_
    | with_reducible refine suspendOp_ev (le_trans' hf rfl) ?_
    | refine ev_snd (by assumption) ?_
    | with_reducible refine evo_next ?_
    | with_reducible refine evo_ite (fun _ => ?_) (fun _ => ?_)
    | with_reducible refine ev_ite (fun _ => ?_) (fun _ => ?_)
    | intro n o y hy

theorem execOpResume_ev {q : ReqHeader} (hf : Foot.le ⟨[.mem, .log, .dpx, .cmd, .net], [.dpx, .net, .cmd], false⟩ f) (h : Ev f s x) :
    EvO f s (execOpResume q x) := by
  unfold execOpResume
  repeat' first
    | with_reducible exact h
    | with_reducible assumption
    | with_reducible refine control_ev (le_trans' hf rfl) ?_ ?_
    | with_reducible refine onChannel_ev (le_trans' hf rfl) (fun y hy => ?_) ?_
    | with_reducible refine resumeOp_ev (le_trans' hf rfl) ?_
    | refine ev_snd (by assumption) ?_
    | with_reducible refine evo_next ?_
    | with_reducible refine evo_ite (fun _ => ?_) (fun _ => ?_)
    | with_reducible refine ev_ite (fun _ => ?_) (fun _ => ?_)
    | intro n o y hy

theorem execOpCancel_ev {q : ReqHeader} (hf : Foot.le ⟨[.mem, .fresh, .log, .fab, .scan, .dpx, .cmd, .recd, .net, .upd], [.recd, .scan, .dpx, .net, .cmd, .fab], false⟩ f) (h : Ev f s x) :
    EvO f s (execOpCancel q x) := by
  unfold execOpCancel
  repeat' first
    | with_reducible exact h
    | with_reducible assumption
    | with_reducible refine cancelOp_ev (le_trans' hf rfl) ?_
    | with_reducible refine control_ev (le_trans' hf rfl) ?_ ?_
    | with_reducible refine onChannel_ev (le_trans' hf rfl) (fun y hy => ?_) ?_
    | refine ev_snd (by assumption) ?_
    | with_reducible refine evo_next ?_
    | with_reducible refine evo_ite (fun _ => ?_) (fun _ => ?_)
    | with_reducible refine ev_ite (fun _ => ?_) (fun _ => ?_)
    | intro n o y hy

theorem execOpRelease_ev {q : ReqHeader} (hf : Foot.le ⟨[.mem, .log, .dpx, .cmd, .net], [.dpx, .net, .cmd], false⟩ f) (h : Ev f s x) :
    EvO f s (execOpRelease q x) := by
  unfold execOpRelease
  repeat' first
    | with_reducible exact h
    | with_reducible assumption
    | with_reducible refine control_ev (le_trans' hf rfl) ?_ ?_
    | with_reducible refine onChannel_ev (le_trans' hf rfl) (fun y hy => ?_) ?_
    | with_reducible refine releaseOp_ev (le_trans' hf rfl) ?_
    | refine ev_snd (by assumption) ?_
    | with_reducible refine evo_next ?_
    | with_reducible refine evo_ite (fun _ => ?_) (fun _ => ?_)
    | with_reducible refine ev_ite (fun _ => ?_) (fun _ => ?_)
    | intro n o y hy

theorem execOpEnded_ev {n : Fin 16} (hf : Foot.le ⟨[.fresh, .log, .cmd, .recd], [.cmd], false⟩ f) (h : Ev f s x) :
    EvO f s (execOpEnded n x) := by
  unfold execOpEnded
  repeat' first
    | with_reducible exact h
    | with_reducible assumption
    | with_reducible refine exportDone_ev (le_trans' hf rfl) ?_
    | with_reducible refine evo_next ?_
    | with_reducible refine evo_ite (fun _ => ?_) (fun _ => ?_)
    | with_reducible refine ev_ite (fun _ => ?_) (fun _ => ?_)
    | exact Fin.isLt _
    | omega
    | with_reducible refine ev_iteA (fun _ => ?_) (fun _ => ?_)
    | with_reducible refine ev_answer ?_
    | split

theorem execEventRead_ev {q : ReqHeader} {start : BitVec 64} {count : Nat} {value : BitVec 16} {mask : BitVec 16} (hf : Foot.le ⟨[.mem, .log, .dpx, .cmd, .net], [.dpx, .net, .cmd], false⟩ f) (h : Ev f s x) :
    EvO f s (execEventRead q start count value mask x) := by
  unfold execEventRead
  repeat' first
    | with_reducible exact h
    | with_reducible assumption
    | with_reducible refine onChannel_ev (le_trans' hf rfl) (fun y hy => ?_) ?_
    | with_reducible refine serve_ev (le_trans' hf rfl) ?_ ?_
    | with_reducible refine evo_next ?_
    | with_reducible refine evo_ite (fun _ => ?_) (fun _ => ?_)
    | with_reducible refine ev_ite (fun _ => ?_) (fun _ => ?_)
    | intro n o y hy
    | intro y hy

theorem execSettingsRead_ev {q : ReqHeader} {lo : BitVec 16} {hi : BitVec 16} (hf : Foot.le ⟨[.mem, .log, .dpx, .cmd, .net], [.dpx, .net, .cmd], false⟩ f) (h : Ev f s x) :
    EvO f s (execSettingsRead q lo hi x) := by
  unfold execSettingsRead
  repeat' first
    | with_reducible exact h
    | with_reducible assumption
    | with_reducible refine onChannel_ev (le_trans' hf rfl) (fun y hy => ?_) ?_
    | with_reducible refine serve_ev (le_trans' hf rfl) ?_ ?_
    | with_reducible refine evo_next ?_
    | with_reducible refine evo_ite (fun _ => ?_) (fun _ => ?_)
    | with_reducible refine ev_ite (fun _ => ?_) (fun _ => ?_)
    | intro n o y hy
    | intro y hy

theorem execSettingsWrite_ev {q : ReqHeader} {x0 : List SettingsRecord} (hf : Foot.le ⟨[.mem, .log, .dpx, .cmd, .net, .upd], [.dpx, .net, .cmd, .upd], false⟩ f) (h : Ev f s x) :
    EvO f s (execSettingsWrite q x0 x) := by
  unfold execSettingsWrite
  repeat' first
    | with_reducible exact h
    | with_reducible assumption
    | with_reducible refine onChannel_ev (le_trans' hf rfl) (fun y hy => ?_) ?_
    | with_reducible refine serve_ev (le_trans' hf rfl) ?_ ?_
    | with_reducible refine settingsWrite_ev (le_trans' hf rfl) ?_
    | refine ev_snd2 (by assumption) ?_
    | with_reducible refine evo_next ?_
    | with_reducible refine evo_ite (fun _ => ?_) (fun _ => ?_)
    | with_reducible refine ev_ite (fun _ => ?_) (fun _ => ?_)
    | intro n o y hy
    | intro y hy

theorem execReset_ev {q : ReqHeader} {cold : Bool} (hf : Foot.le ⟨[.mem, .snap, .busReply, .fresh, .log, .fab, .pwr, .time, .adc, .filt, .loop, .gfm, .prot, .scan, .fio, .dpx, .cmd, .recd, .net, .upd], [.sys, .pwr, .prot, .dpx, .net, .cmd, .upd, .pwm], true⟩ f) (h : Ev f s x) :
    EvO f s (execReset q cold x) := by
  unfold execReset
  repeat' first
    | with_reducible exact h
    | with_reducible assumption
    | with_reducible refine onChannel_ev (le_trans' hf rfl) (fun y hy => ?_) ?_
    | with_reducible refine resetPart_ev (le_trans' hf rfl) ?_
    | with_reducible refine serve_ev (le_trans' hf rfl) ?_ ?_
    | with_reducible refine evo_next ?_
    | with_reducible refine evo_ite (fun _ => ?_) (fun _ => ?_)
    | with_reducible refine ev_ite (fun _ => ?_) (fun _ => ?_)
    | exact reg_any hf rfl _
    | intro n o y hy
    | intro y hy

theorem execSleep_ev {q : ReqHeader} (hf : Foot.le ⟨[.mem, .snap, .busReply, .tai, .ticks, .log, .fab, .pwr, .time, .adc, .filt, .loop, .gfm, .prot, .scan, .fio, .dpx, .cmd, .recd, .net, .upd], [.sys, .pwr, .prot, .recd, .scan, .fio, .dpx, .net, .cmd, .upd, .pwm], true⟩ f) (h : Ev f s x) :
    EvO f s (execSleep q x) := by
  unfold execSleep
  repeat' first
    | with_reducible exact h
    | with_reducible assumption
    | with_reducible refine onChannel_ev (le_trans' hf rfl) (fun y hy => ?_) ?_
    | with_reducible refine serve_ev (le_trans' hf rfl) ?_ ?_
    | with_reducible refine sleepEntry_ev (le_trans' hf rfl) ?_
    | with_reducible refine evo_next ?_
    | with_reducible refine evo_ite (fun _ => ?_) (fun _ => ?_)
    | with_reducible refine ev_ite (fun _ => ?_) (fun _ => ?_)
    | exact reg_any hf rfl _
    | intro n o y hy
    | intro y hy
    | exact Fin.isLt _
    | omega
    | with_reducible refine ev_iteA (fun _ => ?_) (fun _ => ?_)

theorem execForceSet_ev {q : ReqHeader} {k : Fin 2} {id : Word} {ty : BitVec 8} {value : BitVec 64} (hf : Foot.le ⟨[.mem, .log, .scan, .dpx, .cmd, .net], [.scan, .dpx, .net, .cmd], false⟩ f) (h : Ev f s x) :
    EvO f s (execForceSet q k id ty value x) := by
  unfold execForceSet
  repeat' first
    | with_reducible exact h
    | with_reducible assumption
    | with_reducible refine onChannel_ev (le_trans' hf rfl) (fun y hy => ?_) ?_
    | with_reducible refine serve_ev (le_trans' hf rfl) ?_ ?_
    | with_reducible refine setForce_ev (le_trans' hf rfl) ?_
    | refine ev_snd (by assumption) ?_
    | with_reducible refine evo_next ?_
    | with_reducible refine evo_ite (fun _ => ?_) (fun _ => ?_)
    | with_reducible refine ev_ite (fun _ => ?_) (fun _ => ?_)
    | intro n o y hy
    | intro y hy
    | exact Fin.isLt _
    | omega
    | with_reducible refine ev_iteA (fun _ => ?_) (fun _ => ?_)
    | with_reducible refine ev_answer ?_

theorem execForceClear_ev {q : ReqHeader} {k : Fin 2} {id : Word} (hf : Foot.le ⟨[.mem, .log, .scan, .dpx, .cmd, .net], [.scan, .dpx, .net, .cmd], false⟩ f) (h : Ev f s x) :
    EvO f s (execForceClear q k id x) := by
  unfold execForceClear
  repeat' first
    | with_reducible exact h
    | with_reducible assumption
    | with_reducible refine clearForce_ev (le_trans' hf rfl) ?_
    | with_reducible refine onChannel_ev (le_trans' hf rfl) (fun y hy => ?_) ?_
    | with_reducible refine serve_ev (le_trans' hf rfl) ?_ ?_
    | with_reducible refine evo_next ?_
    | with_reducible refine evo_ite (fun _ => ?_) (fun _ => ?_)
    | with_reducible refine ev_ite (fun _ => ?_) (fun _ => ?_)
    | intro n o y hy
    | intro y hy
    | exact Fin.isLt _
    | omega
    | with_reducible refine ev_iteA (fun _ => ?_) (fun _ => ?_)
    | with_reducible refine ev_answer ?_

theorem execForceList_ev {q : ReqHeader} (hf : Foot.le ⟨[.mem, .log, .dpx, .cmd, .net], [.dpx, .net, .cmd], false⟩ f) (h : Ev f s x) :
    EvO f s (execForceList q x) := by
  unfold execForceList
  repeat' first
    | with_reducible exact h
    | with_reducible assumption
    | with_reducible refine onChannel_ev (le_trans' hf rfl) (fun y hy => ?_) ?_
    | with_reducible refine serve_ev (le_trans' hf rfl) ?_ ?_
    | with_reducible refine evo_next ?_
    | with_reducible refine evo_ite (fun _ => ?_) (fun _ => ?_)
    | with_reducible refine ev_ite (fun _ => ?_) (fun _ => ?_)
    | intro n o y hy
    | intro y hy

theorem scanRequest_ev {k : Fin 2} {r : ScanReq} (hf : Foot.le ⟨[.log, .scan], [.scan, .cmd], false⟩ f) (h : Ev f s x) :
    Ev f s (scanRequest k r x).2 := by
  unfold scanRequest
  repeat' first
    | with_reducible exact h
    | with_reducible assumption
    | with_reducible refine holdRequest_ev (le_trans' hf rfl) ?_
    | with_reducible refine runRequest_ev (le_trans' hf rfl) ?_
    | with_reducible refine stepRequest_ev (le_trans' hf rfl) ?_
    | with_reducible refine stopRequest_ev (le_trans' hf rfl) ?_
    | refine ev_snd (by assumption) ?_
    | with_reducible refine ev_ite2 (fun _ => ?_) (fun _ => ?_)
    | with_reducible refine ev_ite (fun _ => ?_) (fun _ => ?_)
    | exact Fin.isLt _
    | omega
    | with_reducible refine ev_iteA (fun _ => ?_) (fun _ => ?_)
    | with_reducible refine ev_answer ?_
    | split

theorem execScanCtrl_ev {q : ReqHeader} {k : Fin 2} {r : ScanReq} (hf : Foot.le ⟨[.mem, .log, .scan, .dpx, .cmd, .net], [.scan, .dpx, .net, .cmd], false⟩ f) (h : Ev f s x) :
    EvO f s (execScanCtrl q k r x) := by
  unfold execScanCtrl
  repeat' first
    | with_reducible exact h
    | with_reducible assumption
    | with_reducible refine onChannel_ev (le_trans' hf rfl) (fun y hy => ?_) ?_
    | with_reducible refine scanRequest_ev (le_trans' hf rfl) ?_
    | with_reducible refine serve_ev (le_trans' hf rfl) ?_ ?_
    | refine ev_snd (by assumption) ?_
    | with_reducible refine evo_next ?_
    | with_reducible refine evo_ite (fun _ => ?_) (fun _ => ?_)
    | with_reducible refine ev_ite (fun _ => ?_) (fun _ => ?_)
    | intro n o y hy
    | intro y hy
    | exact Fin.isLt _
    | omega
    | with_reducible refine ev_iteA (fun _ => ?_) (fun _ => ?_)
    | with_reducible refine ev_answer ?_

theorem recArmRequest_ev {ch : Fin 21} (hf : Foot.le ⟨[.fresh, .log, .cmd, .recd], [.recd, .cmd], false⟩ f) (h : Ev f s x) :
    Ev f s (recArmRequest ch x).state := by
  unfold recArmRequest
  repeat' first
    | with_reducible exact h
    | with_reducible assumption
    | with_reducible refine armDenied_ev (le_trans' hf rfl) ?_
    | with_reducible refine armNow_ev (le_trans' hf rfl) ?_
    | with_reducible refine openOp_ev (le_trans' hf rfl) ?_
    | refine ev_snd (by assumption) ?_
    | with_reducible refine ev_ite (fun _ => ?_) (fun _ => ?_)
    | exact Fin.isLt _
    | omega
    | with_reducible refine ev_iteA (fun _ => ?_) (fun _ => ?_)
    | with_reducible refine ev_answer ?_
    | split

theorem execRecArm_ev {q : ReqHeader} (hf : Foot.le ⟨[.mem, .fresh, .log, .dpx, .cmd, .recd, .net], [.recd, .dpx, .net, .cmd], false⟩ f) (h : Ev f s x) :
    EvO f s (execRecArm q x) := by
  unfold execRecArm
  repeat' first
    | with_reducible exact h
    | with_reducible assumption
    | with_reducible refine onChannel_ev (le_trans' hf rfl) (fun y hy => ?_) ?_
    | with_reducible refine recArmRequest_ev (le_trans' hf rfl) ?_
    | with_reducible refine serve_ev (le_trans' hf rfl) ?_ ?_
    | with_reducible refine evo_next ?_
    | with_reducible refine evo_ite (fun _ => ?_) (fun _ => ?_)
    | with_reducible refine ev_ite (fun _ => ?_) (fun _ => ?_)
    | intro n o y hy
    | intro y hy

theorem execRecDisarm_ev {q : ReqHeader} (hf : Foot.le ⟨[.mem, .log, .dpx, .cmd, .recd, .net], [.recd, .dpx, .net, .cmd], false⟩ f) (h : Ev f s x) :
    EvO f s (execRecDisarm q x) := by
  unfold execRecDisarm
  repeat' first
    | with_reducible exact h
    | with_reducible assumption
    | with_reducible refine disarmRequest_ev (le_trans' hf rfl) ?_
    | with_reducible refine onChannel_ev (le_trans' hf rfl) (fun y hy => ?_) ?_
    | with_reducible refine serve_ev (le_trans' hf rfl) ?_ ?_
    | with_reducible refine evo_next ?_
    | with_reducible refine evo_ite (fun _ => ?_) (fun _ => ?_)
    | with_reducible refine ev_ite (fun _ => ?_) (fun _ => ?_)
    | intro n o y hy
    | intro y hy
    | exact Fin.isLt _
    | omega
    | with_reducible refine ev_iteA (fun _ => ?_) (fun _ => ?_)
    | with_reducible refine ev_answer ?_

theorem execRecTrigger_ev {q : ReqHeader} (hf : Foot.le ⟨[.mem, .log, .dpx, .cmd, .recd, .net], [.dpx, .net, .cmd], false⟩ f) (h : Ev f s x) :
    EvO f s (execRecTrigger q x) := by
  unfold execRecTrigger
  repeat' first
    | with_reducible exact h
    | with_reducible assumption
    | with_reducible refine onChannel_ev (le_trans' hf rfl) (fun y hy => ?_) ?_
    | with_reducible refine recTrigNow_ev (le_trans' hf rfl) ?_
    | with_reducible refine serve_ev (le_trans' hf rfl) ?_ ?_
    | with_reducible refine evo_next ?_
    | with_reducible refine evo_ite (fun _ => ?_) (fun _ => ?_)
    | with_reducible refine ev_ite (fun _ => ?_) (fun _ => ?_)
    | intro n o y hy
    | intro y hy
    | exact Fin.isLt _
    | omega
    | with_reducible refine ev_iteA (fun _ => ?_) (fun _ => ?_)
    | with_reducible refine ev_answer ?_

theorem execRecList_ev {q : ReqHeader} (hf : Foot.le ⟨[.mem, .log, .dpx, .cmd, .net], [.dpx, .net, .cmd], false⟩ f) (h : Ev f s x) :
    EvO f s (execRecList q x) := by
  unfold execRecList
  repeat' first
    | with_reducible exact h
    | with_reducible assumption
    | with_reducible refine onChannel_ev (le_trans' hf rfl) (fun y hy => ?_) ?_
    | with_reducible refine serve_ev (le_trans' hf rfl) ?_ ?_
    | with_reducible refine evo_next ?_
    | with_reducible refine evo_ite (fun _ => ?_) (fun _ => ?_)
    | with_reducible refine ev_ite (fun _ => ?_) (fun _ => ?_)
    | intro n o y hy
    | intro y hy

theorem execRecLock_ev {q : ReqHeader} {n : Word} (hf : Foot.le ⟨[.mem, .log, .dpx, .cmd, .recd, .net], [.dpx, .net, .cmd], false⟩ f) (h : Ev f s x) :
    EvO f s (execRecLock q n x) := by
  unfold execRecLock
  repeat' first
    | with_reducible exact h
    | with_reducible assumption
    | with_reducible refine lockRecord_ev (le_trans' hf rfl) ?_
    | with_reducible refine onChannel_ev (le_trans' hf rfl) (fun y hy => ?_) ?_
    | with_reducible refine serve_ev (le_trans' hf rfl) ?_ ?_
    | refine ev_snd (by assumption) ?_
    | with_reducible refine evo_next ?_
    | with_reducible refine evo_ite (fun _ => ?_) (fun _ => ?_)
    | with_reducible refine ev_ite (fun _ => ?_) (fun _ => ?_)
    | intro n o y hy
    | intro y hy
    | exact Fin.isLt _
    | omega
    | with_reducible refine ev_iteA (fun _ => ?_) (fun _ => ?_)
    | with_reducible refine ev_answer ?_

theorem execRecUnlock_ev {q : ReqHeader} {n : Word} (hf : Foot.le ⟨[.mem, .log, .dpx, .cmd, .recd, .net], [.dpx, .net, .cmd], false⟩ f) (h : Ev f s x) :
    EvO f s (execRecUnlock q n x) := by
  unfold execRecUnlock
  repeat' first
    | with_reducible exact h
    | with_reducible assumption
    | with_reducible refine lockRecord_ev (le_trans' hf rfl) ?_
    | with_reducible refine onChannel_ev (le_trans' hf rfl) (fun y hy => ?_) ?_
    | with_reducible refine serve_ev (le_trans' hf rfl) ?_ ?_
    | refine ev_snd (by assumption) ?_
    | with_reducible refine evo_next ?_
    | with_reducible refine evo_ite (fun _ => ?_) (fun _ => ?_)
    | with_reducible refine ev_ite (fun _ => ?_) (fun _ => ?_)
    | intro n o y hy
    | intro y hy
    | exact Fin.isLt _
    | omega
    | with_reducible refine ev_iteA (fun _ => ?_) (fun _ => ?_)
    | with_reducible refine ev_answer ?_

theorem execRecDelete_ev {q : ReqHeader} {n : Word} (hf : Foot.le ⟨[.mem, .log, .dpx, .cmd, .recd, .net], [.recd, .dpx, .net, .cmd], false⟩ f) (h : Ev f s x) :
    EvO f s (execRecDelete q n x) := by
  unfold execRecDelete
  repeat' first
    | with_reducible exact h
    | with_reducible assumption
    | with_reducible refine deleteRecord_ev (le_trans' hf rfl) ?_
    | with_reducible refine onChannel_ev (le_trans' hf rfl) (fun y hy => ?_) ?_
    | with_reducible refine serve_ev (le_trans' hf rfl) ?_ ?_
    | refine ev_snd (by assumption) ?_
    | with_reducible refine evo_next ?_
    | with_reducible refine evo_ite (fun _ => ?_) (fun _ => ?_)
    | with_reducible refine ev_ite (fun _ => ?_) (fun _ => ?_)
    | intro n o y hy
    | intro y hy
    | exact Fin.isLt _
    | omega
    | with_reducible refine ev_iteA (fun _ => ?_) (fun _ => ?_)
    | with_reducible refine ev_answer ?_

theorem recExportRequest_ev {ch : Fin 21} {n : Word} (hf : Foot.le ⟨[.fresh, .cmd], [.cmd], false⟩ f) (h : Ev f s x) :
    Ev f s (recExportRequest ch n x).state := by
  unfold recExportRequest
  repeat' first
    | with_reducible exact h
    | with_reducible assumption
    | with_reducible refine openExport_ev (le_trans' hf rfl) ?_
    | refine ev_snd (by assumption) ?_
    | with_reducible refine ev_ite (fun _ => ?_) (fun _ => ?_)
    | exact Fin.isLt _
    | omega
    | with_reducible refine ev_iteA (fun _ => ?_) (fun _ => ?_)
    | with_reducible refine ev_answer ?_
    | split

theorem execRecExport_ev {q : ReqHeader} {n : Word} (hf : Foot.le ⟨[.mem, .fresh, .log, .dpx, .cmd, .net], [.dpx, .net, .cmd], false⟩ f) (h : Ev f s x) :
    EvO f s (execRecExport q n x) := by
  unfold execRecExport
  repeat' first
    | with_reducible exact h
    | with_reducible assumption
    | with_reducible refine onChannel_ev (le_trans' hf rfl) (fun y hy => ?_) ?_
    | with_reducible refine recExportRequest_ev (le_trans' hf rfl) ?_
    | with_reducible refine serve_ev (le_trans' hf rfl) ?_ ?_
    | with_reducible refine evo_next ?_
    | with_reducible refine evo_ite (fun _ => ?_) (fun _ => ?_)
    | with_reducible refine ev_ite (fun _ => ?_) (fun _ => ?_)
    | intro n o y hy
    | intro y hy

theorem execFileRead_ev {q : ReqHeader} {n : Word} {file : Fin 4} {off : Nat} {len : Nat} (hf : Foot.le ⟨[.mem, .log, .dpx, .cmd, .net], [.dpx, .net, .cmd], false⟩ f) (h : Ev f s x) :
    EvO f s (execFileRead q n file off len x) := by
  unfold execFileRead
  repeat' first
    | with_reducible exact h
    | with_reducible assumption
    | with_reducible refine onChannel_ev (le_trans' hf rfl) (fun y hy => ?_) ?_
    | with_reducible refine serve_ev (le_trans' hf rfl) ?_ ?_
    | with_reducible refine evo_next ?_
    | with_reducible refine evo_ite (fun _ => ?_) (fun _ => ?_)
    | with_reducible refine ev_ite (fun _ => ?_) (fun _ => ?_)
    | intro n o y hy
    | intro y hy
    | exact Fin.isLt _
    | omega
    | with_reducible refine ev_iteA (fun _ => ?_) (fun _ => ?_)
    | with_reducible refine ev_answer ?_
    | split

theorem execImageBegin_ev {q : ReqHeader} {kind : Nat} {length : Nat} {hash : BitVec 384} (hf : Foot.le ⟨[.mem, .fresh, .log, .dpx, .cmd, .net, .upd], [.dpx, .net, .cmd, .upd], false⟩ f) (h : Ev f s x) :
    EvO f s (execImageBegin q kind length hash x) := by
  unfold execImageBegin
  repeat' first
    | with_reducible exact h
    | with_reducible assumption
    | with_reducible refine imageBegin_ev (le_trans' hf rfl) ?_
    | with_reducible refine onChannel_ev (le_trans' hf rfl) (fun y hy => ?_) ?_
    | with_reducible refine serve_ev (le_trans' hf rfl) ?_ ?_
    | refine ev_snd3 (by assumption) ?_
    | with_reducible refine evo_next ?_
    | with_reducible refine evo_ite (fun _ => ?_) (fun _ => ?_)
    | with_reducible refine ev_ite (fun _ => ?_) (fun _ => ?_)
    | intro n o y hy
    | intro y hy

theorem execImageData_ev {q : ReqHeader} {block : Nat} {off : Nat} {len : Nat} {x0 : StagedImage} (hf : Foot.le ⟨[.mem, .log, .dpx, .cmd, .net, .upd], [.dpx, .net, .cmd, .upd], false⟩ f) (h : Ev f s x) :
    EvO f s (execImageData q block off len x0 x) := by
  unfold execImageData
  repeat' first
    | with_reducible exact h
    | with_reducible assumption
    | with_reducible refine imageData_ev (le_trans' hf rfl) ?_
    | with_reducible refine onChannel_ev (le_trans' hf rfl) (fun y hy => ?_) ?_
    | with_reducible refine serve_ev (le_trans' hf rfl) ?_ ?_
    | refine ev_snd2 (by assumption) ?_
    | with_reducible refine evo_next ?_
    | with_reducible refine evo_ite (fun _ => ?_) (fun _ => ?_)
    | with_reducible refine ev_ite (fun _ => ?_) (fun _ => ?_)
    | intro n o y hy
    | intro y hy

theorem execImageVerify_ev {q : ReqHeader} {kind : Nat} (hf : Foot.le ⟨[.mem, .fresh, .log, .dpx, .cmd, .net], [.dpx, .net, .cmd], false⟩ f) (h : Ev f s x) :
    EvO f s (execImageVerify q kind x) := by
  unfold execImageVerify
  repeat' first
    | with_reducible exact h
    | with_reducible assumption
    | with_reducible refine imageVerify_ev (le_trans' hf rfl) ?_
    | with_reducible refine onChannel_ev (le_trans' hf rfl) (fun y hy => ?_) ?_
    | with_reducible refine serve_ev (le_trans' hf rfl) ?_ ?_
    | refine ev_snd2 (by assumption) ?_
    | with_reducible refine evo_next ?_
    | with_reducible refine evo_ite (fun _ => ?_) (fun _ => ?_)
    | with_reducible refine ev_ite (fun _ => ?_) (fun _ => ?_)
    | intro n o y hy
    | intro y hy

theorem execImageActivate_ev {q : ReqHeader} {mask : BitVec 16} {flags : BitVec 16} (hf : Foot.le ⟨[.mem, .snap, .busReply, .fresh, .log, .fab, .pwr, .time, .adc, .filt, .loop, .gfm, .prot, .scan, .fio, .dpx, .cmd, .recd, .net, .upd], [.sys, .pwr, .prot, .scan, .dpx, .net, .cmd, .upd, .fab, .pwm], true⟩ f) (h : Ev f s x) :
    EvO f s (execImageActivate q mask flags x) := by
  unfold execImageActivate
  repeat' first
    | with_reducible exact h
    | with_reducible assumption
    | with_reducible refine imageActivate_ev (le_trans' hf rfl) ?_
    | with_reducible refine onChannel_ev (le_trans' hf rfl) (fun y hy => ?_) ?_
    | with_reducible refine serve_ev (le_trans' hf rfl) ?_ ?_
    | refine ev_snd2 (by assumption) ?_
    | with_reducible refine evo_next ?_
    | with_reducible refine evo_ite (fun _ => ?_) (fun _ => ?_)
    | with_reducible refine ev_ite (fun _ => ?_) (fun _ => ?_)
    | exact reg_any hf rfl _
    | intro n o y hy
    | intro y hy

theorem execImageConfirm_ev {q : ReqHeader} {kind : Nat} (hf : Foot.le ⟨[.mem, .log, .dpx, .cmd, .net, .upd], [.dpx, .net, .cmd, .upd], false⟩ f) (h : Ev f s x) :
    EvO f s (execImageConfirm q kind x) := by
  unfold execImageConfirm
  repeat' first
    | with_reducible exact h
    | with_reducible assumption
    | with_reducible refine imageConfirm_ev (le_trans' hf rfl) ?_
    | with_reducible refine onChannel_ev (le_trans' hf rfl) (fun y hy => ?_) ?_
    | with_reducible refine serve_ev (le_trans' hf rfl) ?_ ?_
    | refine ev_snd (by assumption) ?_
    | with_reducible refine evo_next ?_
    | with_reducible refine evo_ite (fun _ => ?_) (fun _ => ?_)
    | with_reducible refine ev_ite (fun _ => ?_) (fun _ => ?_)
    | intro n o y hy
    | intro y hy
    | exact Fin.isLt _
    | omega
    | with_reducible refine ev_iteA (fun _ => ?_) (fun _ => ?_)
    | with_reducible refine ev_answer ?_

theorem execImageAbandon_ev {q : ReqHeader} {kind : Nat} (hf : Foot.le ⟨[.mem, .snap, .busReply, .fresh, .log, .fab, .pwr, .time, .adc, .filt, .loop, .gfm, .prot, .scan, .fio, .dpx, .cmd, .recd, .net, .upd], [.sys, .pwr, .prot, .scan, .dpx, .net, .cmd, .upd, .fab, .pwm], true⟩ f) (h : Ev f s x) :
    EvO f s (execImageAbandon q kind x) := by
  unfold execImageAbandon
  repeat' first
    | with_reducible exact h
    | with_reducible assumption
    | with_reducible refine imageAbandon_ev (le_trans' hf rfl) ?_
    | with_reducible refine onChannel_ev (le_trans' hf rfl) (fun y hy => ?_) ?_
    | with_reducible refine serve_ev (le_trans' hf rfl) ?_ ?_
    | refine ev_snd (by assumption) ?_
    | with_reducible refine evo_next ?_
    | with_reducible refine evo_ite (fun _ => ?_) (fun _ => ?_)
    | with_reducible refine ev_ite (fun _ => ?_) (fun _ => ?_)
    | exact reg_any hf rfl _
    | intro n o y hy
    | intro y hy
    | exact Fin.isLt _
    | omega
    | with_reducible refine ev_iteA (fun _ => ?_) (fun _ => ?_)
    | with_reducible refine ev_answer ?_

theorem switchoverRequest_ev {ch : Fin 21} (hf : Foot.le ⟨[.fresh, .log, .dpx, .cmd], [.dpx, .cmd], false⟩ f) (h : Ev f s x) :
    Ev f s (switchoverRequest ch x).state := by
  unfold switchoverRequest
  repeat' first
    | with_reducible exact h
    | with_reducible assumption
    | with_reducible refine openOp_ev (le_trans' hf rfl) ?_
    | with_reducible refine setOper_ev (le_trans' hf rfl) ?_
    | with_reducible refine switchRequest_ev (le_trans' hf rfl) ?_
    | refine ev_snd (by assumption) ?_
    | with_reducible refine ev_ite (fun _ => ?_) (fun _ => ?_)
    | exact Fin.isLt _
    | omega
    | with_reducible refine ev_iteA (fun _ => ?_) (fun _ => ?_)
    | with_reducible refine ev_answer ?_
    | split

theorem execSwitchover_ev {q : ReqHeader} (hf : Foot.le ⟨[.mem, .fresh, .log, .dpx, .cmd, .net], [.dpx, .net, .cmd], false⟩ f) (h : Ev f s x) :
    EvO f s (execSwitchover q x) := by
  unfold execSwitchover
  repeat' first
    | with_reducible exact h
    | with_reducible assumption
    | with_reducible refine onChannel_ev (le_trans' hf rfl) (fun y hy => ?_) ?_
    | with_reducible refine serve_ev (le_trans' hf rfl) ?_ ?_
    | with_reducible refine switchoverRequest_ev (le_trans' hf rfl) ?_
    | with_reducible refine evo_next ?_
    | with_reducible refine evo_ite (fun _ => ?_) (fun _ => ?_)
    | with_reducible refine ev_ite (fun _ => ?_) (fun _ => ?_)
    | intro n o y hy
    | intro y hy

theorem execServiceState_ev {q : ReqHeader} {t : Token} (hf : Foot.le ⟨[.mem, .fresh, .log, .prot, .scan, .dpx, .cmd, .net, .upd], [.prot, .dpx, .net, .cmd, .upd], false⟩ f) (h : Ev f s x) :
    EvO f s (execServiceState q t x) := by
  unfold execServiceState
  repeat' first
    | with_reducible exact h
    | with_reducible assumption
    | with_reducible refine onChannel_ev (le_trans' hf rfl) (fun y hy => ?_) ?_
    | with_reducible refine serve_ev (le_trans' hf rfl) ?_ ?_
    | with_reducible refine serviceState_ev (le_trans' hf rfl) ?_
    | refine ev_snd (by assumption) ?_
    | with_reducible refine evo_next ?_
    | with_reducible refine evo_ite (fun _ => ?_) (fun _ => ?_)
    | with_reducible refine ev_ite (fun _ => ?_) (fun _ => ?_)
    | intro n o y hy
    | intro y hy
    | exact Fin.isLt _
    | omega
    | with_reducible refine ev_iteA (fun _ => ?_) (fun _ => ?_)
    | with_reducible refine ev_answer ?_

end Sys2Proof.Laws
end

