-- ==== Sys2Proof/Laws/Regs.lean ====
section
/-! SUPPORT. Laws of registers and their fields: what a read gives after a write of the same or of another register, and
after a write of the same or of another field (R10, R11). -/

namespace Sys2Proof.Machine

open Sys2Proof

variable {s : State}

@[simp] theorem rd_wr (s : State) (a : Nat) (v : Word) : rd (wr s a v) a = v := by simp [rd, wr]

theorem rd_wr_ne (s : State) {a b : Nat} (v : Word) (h : b ≠ a) : rd (wr s a v) b = rd s b := by
  simp [rd, wr, sget_sput_other _ _ _ h]

@[simp] theorem rd_setF (s : State) (a : Nat) (F : Fld) (v : Nat) : rd (setF s a F v) a = putF (rd s a) F v := rd_wr ..

theorem rd_setF_ne (s : State) {a b : Nat} (F : Fld) (v : Nat) (h : b ≠ a) : rd (setF s a F v) b = rd s b :=
  rd_wr_ne s _ h

theorem rd_setFbit_ne (s : State) {a b : Nat} (F : Fld) (i : Nat) (x : Bool) (h : b ≠ a) :
    rd (setFbit s a F i x) b = rd s b := rd_wr_ne s _ h

theorem fld_setF_ne (s : State) {a b : Nat} (F G : Fld) (v : Nat) (h : b ≠ a) : fld (setF s a F v) b G = fld s b G := by
  simp [fld, rd_setF_ne s F v h]

theorem fld_setFbit_ne (s : State) {a b : Nat} (F G : Fld) (i : Nat) (x : Bool) (h : b ≠ a) :
    fld (setFbit s a F i x) b G = fld s b G := by
  simp [fld, rd_setFbit_ne s F i x h]

/-- A bit of a word with one field replaced. -/
theorem putF_getLsbD (w : Word) (F : Fld) (v i : Nat) :
    (putF w F v).getLsbD i =
      if F.lo ≤ i ∧ i < F.lo + F.w ∧ i < 32 then v.testBit (i - F.lo) else w.getLsbD i := by
  by_cases hi : i < 32
  · simp only [putF, BitVec.getLsbD_or, BitVec.getLsbD_and, BitVec.getLsbD_not, BitVec.getLsbD_shiftLeft,
      BitVec.getLsbD_ofNat, Nat.testBit_two_pow_sub_one, hi, decide_true, Bool.true_and]
    by_cases h1 : i < F.lo
    · have h1' : ¬F.lo ≤ i := by omega
      simp [h1, h1']
    · have h1' : F.lo ≤ i := by omega
      have h3 : i - F.lo < 32 := by omega
      by_cases h2 : i < F.lo + F.w
      · have h4 : i - F.lo < F.w := by omega
        simp [h1, h1', h2, h3, h4]
      · have h4 : ¬i - F.lo < F.w := by omega
        simp [h1, h2, h4]
  · have hi' : 32 ≤ i := by omega
    rw [BitVec.getLsbD_of_ge _ _ hi', BitVec.getLsbD_of_ge _ _ hi']
    simp [hi]

/-- The field just set reads as the value taken to its width. -/
theorem getF_putF (w : Word) (F : Fld) (v : Nat) (h : F.lo + F.w ≤ 32) : getF (putF w F v) F = v % 2 ^ F.w := by
  apply Nat.eq_of_testBit_eq
  intro i
  simp only [getF, BitVec.testBit_toNat, BitVec.getLsbD_extractLsb', putF_getLsbD, Nat.testBit_mod_two_pow]
  by_cases hi : i < F.w
  · have h1 : F.lo ≤ F.lo + i ∧ F.lo + i < F.lo + F.w ∧ F.lo + i < 32 := by omega
    simp [hi, h1]
  · simp [hi]

/-- Setting a field leaves a field that does not meet it. -/
theorem getF_putF_ne (w : Word) (F G : Fld) (v : Nat) (h : G.lo + G.w ≤ F.lo ∨ F.lo + F.w ≤ G.lo) :
    getF (putF w F v) G = getF w G := by
  apply Nat.eq_of_testBit_eq
  intro i
  simp only [getF, BitVec.testBit_toNat, BitVec.getLsbD_extractLsb', putF_getLsbD]
  by_cases hi : i < G.w
  · have h1 : ¬(F.lo ≤ G.lo + i ∧ G.lo + i < F.lo + F.w ∧ G.lo + i < 32) := by omega
    simp [hi, h1]
  · simp [hi]

theorem fld_setF (s : State) (a : Nat) (F : Fld) (v : Nat) (h : F.lo + F.w ≤ 32) :
    fld (setF s a F v) a F = v % 2 ^ F.w := by
  simp [fld, getF_putF _ _ _ h]

theorem fld_setF_disj (s : State) (a : Nat) (F G : Fld) (v : Nat) (h : G.lo + G.w ≤ F.lo ∨ F.lo + F.w ≤ G.lo) :
    fld (setF s a F v) a G = fld s a G := by
  simp [fld, getF_putF_ne _ _ _ _ h]

theorem getF_lt (w : Word) (F : Fld) : getF w F < 2 ^ F.w := BitVec.isLt _

theorem fld_lt (s : State) (a : Nat) (F : Fld) : fld s a F < 2 ^ F.w := getF_lt _ _

theorem putBit_testBit (n i j : Nat) (b : Bool) : (putBit n i b).testBit j = if j = i then b else n.testBit j := by
  unfold putBit
  cases b
  · simp only [Bool.false_eq_true, if_false]
    by_cases h : n.testBit i
    · rw [if_pos h, Nat.testBit_xor, Nat.one_shiftLeft, Nat.testBit_two_pow]
      by_cases hj : j = i
      · subst hj; simp [h]
      · simp [hj, Ne.symm hj]
    · rw [if_neg h]
      by_cases hj : j = i
      · subst hj; simp at h; simp [h]
      · simp [hj]
  · simp only [if_true]
    rw [Nat.testBit_or, Nat.one_shiftLeft, Nat.testBit_two_pow]
    by_cases hj : j = i
    · subst hj; simp
    · simp [hj, Ne.symm hj]

/-- A bit just set or cleared, and the other bits of its field. -/
theorem fbit_setFbit (s : State) (a : Nat) (F : Fld) (i j : Nat) (b : Bool) (h : F.lo + F.w ≤ 32) (hj : j < F.w) :
    fbit (setFbit s a F i b) a F j = if j = i then b else fbit s a F j := by
  simp only [fbit, setFbit, fld_setF _ _ _ _ h, Nat.testBit_mod_two_pow, hj, decide_true, Bool.true_and, putBit_testBit]

/-- The two words of a wide register just written. -/
@[simp] theorem rd64_wr64 (s : State) (a : Nat) (v : BitVec 64) : rd64 (wr64 s a v) a = v := by
  have h : rd (wr64 s a v) a = v.extractLsb' 0 32 := by
    rw [wr64, rd_wr_ne _ _ (by omega), rd_wr]
  simp only [rd64, h]
  rw [wr64, rd_wr]
  apply BitVec.eq_of_getLsbD_eq
  intro i hi
  simp only [BitVec.getLsbD_append, BitVec.getLsbD_extractLsb']
  by_cases h : i < 32
  · simp [h]
  · have : i - 32 < 32 := by omega
    simp [h, this]
    congr 1; omega

theorem rd_wr64_ne (s : State) {a b : Nat} (v : BitVec 64) (h : b ≠ a) (h' : b ≠ a + 4) : rd (wr64 s a v) b = rd s b := by
  rw [wr64, rd_wr_ne _ _ h', rd_wr_ne _ _ h]

theorem rd_dropEvent (s : State) {a : Nat} (h1 : a ≠ Reg.CMD_STATUS) (h2 : a ≠ Reg.CMD_EVT_LOST) :
    rd (dropEvent s) a = rd s a := by
  show rd (wr (setF s Reg.CMD_STATUS F.CMD_STATUS_evt_lost_seen 1) Reg.CMD_EVT_LOST _) a = _
  rw [rd_wr_ne _ _ h2, rd_setF_ne _ _ _ h1]

/-- Logging an event leaves every register but the two that count lost events. -/
theorem rd_logEvent (s : State) (c q : Nat) (e : Word) {a : Nat} (h1 : a ≠ Reg.CMD_STATUS) (h2 : a ≠ Reg.CMD_EVT_LOST) :
    rd (logEvent c q e s) a = rd s a := by
  unfold logEvent
  split
  · rfl
  · exact rd_dropEvent s h1 h2

theorem rd_logN (s : State) (c q e : Nat) {a : Nat} (h1 : a ≠ Reg.CMD_STATUS) (h2 : a ≠ Reg.CMD_EVT_LOST) :
    rd (logN c q e s) a = rd s a := rd_logEvent s c q _ h1 h2

theorem fld_logN (s : State) (c q e : Nat) {a : Nat} (F : Fld) (h1 : a ≠ Reg.CMD_STATUS) (h2 : a ≠ Reg.CMD_EVT_LOST) :
    fld (logN c q e s) a F = fld s a F := by simp [fld, rd_logN s c q e h1 h2]

theorem fld_logEvent (s : State) (c q : Nat) (e : Word) {a : Nat} (F : Fld) (h1 : a ≠ Reg.CMD_STATUS)
    (h2 : a ≠ Reg.CMD_EVT_LOST) : fld (logEvent c q e s) a F = fld s a F := by simp [fld, rd_logEvent s c q e h1 h2]

/-- Where the logger has room, the event stands at the end of its queue, stamped with the time (R420). -/
theorem logEvent_room (s : State) (c q : Nat) (e : Word) (h : s.log.queue.length < 256) :
    logEvent c q e s = { s with log := { s.log with
      queue := s.log.queue ++ [⟨now s, BitVec.ofNat 16 c, BitVec.ofNat 16 q, e⟩] } } := by
  rw [logEvent, if_pos h]

/-- Where it has none, the event is dropped and counted (R420). -/
theorem logEvent_full (s : State) (c q : Nat) (e : Word) (h : 256 ≤ s.log.queue.length) :
    logEvent c q e s = dropEvent s := by
  rw [logEvent, if_neg (by omega)]

end Sys2Proof.Machine
end

