-- ==== Sys2Proof/Laws/State.lean ====
section
/-! SUPPORT. What each named update leaves: one lemma per field and update. -/

namespace Sys2Proof.Machine

open Sys2Proof

variable {s : State}

@[simp] theorem wr_pending (a : Nat) (v : Word) : (wr s a v).pending = s.pending := rfl
@[simp] theorem wr_mem (a : Nat) (v : Word) : (wr s a v).mem = s.mem := rfl
@[simp] theorem wr_snap (a : Nat) (v : Word) : (wr s a v).snap = s.snap := rfl
@[simp] theorem wr_busReply (a : Nat) (v : Word) : (wr s a v).busReply = s.busReply := rfl
@[simp] theorem wr_fresh (a : Nat) (v : Word) : (wr s a v).fresh = s.fresh := rfl
@[simp] theorem wr_tai (a : Nat) (v : Word) : (wr s a v).tai = s.tai := rfl
@[simp] theorem wr_ticks (a : Nat) (v : Word) : (wr s a v).ticks = s.ticks := rfl
@[simp] theorem wr_log (a : Nat) (v : Word) : (wr s a v).log = s.log := rfl
@[simp] theorem wr_fab (a : Nat) (v : Word) : (wr s a v).fab = s.fab := rfl
@[simp] theorem wr_pwr (a : Nat) (v : Word) : (wr s a v).pwr = s.pwr := rfl
@[simp] theorem wr_time (a : Nat) (v : Word) : (wr s a v).time = s.time := rfl
@[simp] theorem wr_adc (a : Nat) (v : Word) : (wr s a v).adc = s.adc := rfl
@[simp] theorem wr_filt (a : Nat) (v : Word) : (wr s a v).filt = s.filt := rfl
@[simp] theorem wr_loop (a : Nat) (v : Word) : (wr s a v).loop = s.loop := rfl
@[simp] theorem wr_gfm (a : Nat) (v : Word) : (wr s a v).gfm = s.gfm := rfl
@[simp] theorem wr_prot (a : Nat) (v : Word) : (wr s a v).prot = s.prot := rfl
@[simp] theorem wr_scan (a : Nat) (v : Word) : (wr s a v).scan = s.scan := rfl
@[simp] theorem wr_fio (a : Nat) (v : Word) : (wr s a v).fio = s.fio := rfl
@[simp] theorem wr_dpx (a : Nat) (v : Word) : (wr s a v).dpx = s.dpx := rfl
@[simp] theorem wr_cmd (a : Nat) (v : Word) : (wr s a v).cmd = s.cmd := rfl
@[simp] theorem wr_recd (a : Nat) (v : Word) : (wr s a v).recd = s.recd := rfl
@[simp] theorem wr_net (a : Nat) (v : Word) : (wr s a v).net = s.net := rfl
@[simp] theorem wr_upd (a : Nat) (v : Word) : (wr s a v).upd = s.upd := rfl

@[simp] theorem setF_pending (a : Nat) (F : Fld) (v : Nat) : (setF s a F v).pending = s.pending := rfl
@[simp] theorem setF_mem (a : Nat) (F : Fld) (v : Nat) : (setF s a F v).mem = s.mem := rfl
@[simp] theorem setF_snap (a : Nat) (F : Fld) (v : Nat) : (setF s a F v).snap = s.snap := rfl
@[simp] theorem setF_busReply (a : Nat) (F : Fld) (v : Nat) : (setF s a F v).busReply = s.busReply := rfl
@[simp] theorem setF_fresh (a : Nat) (F : Fld) (v : Nat) : (setF s a F v).fresh = s.fresh := rfl
@[simp] theorem setF_tai (a : Nat) (F : Fld) (v : Nat) : (setF s a F v).tai = s.tai := rfl
@[simp] theorem setF_ticks (a : Nat) (F : Fld) (v : Nat) : (setF s a F v).ticks = s.ticks := rfl
@[simp] theorem setF_log (a : Nat) (F : Fld) (v : Nat) : (setF s a F v).log = s.log := rfl
@[simp] theorem setF_fab (a : Nat) (F : Fld) (v : Nat) : (setF s a F v).fab = s.fab := rfl
@[simp] theorem setF_pwr (a : Nat) (F : Fld) (v : Nat) : (setF s a F v).pwr = s.pwr := rfl
@[simp] theorem setF_time (a : Nat) (F : Fld) (v : Nat) : (setF s a F v).time = s.time := rfl
@[simp] theorem setF_adc (a : Nat) (F : Fld) (v : Nat) : (setF s a F v).adc = s.adc := rfl
@[simp] theorem setF_filt (a : Nat) (F : Fld) (v : Nat) : (setF s a F v).filt = s.filt := rfl
@[simp] theorem setF_loop (a : Nat) (F : Fld) (v : Nat) : (setF s a F v).loop = s.loop := rfl
@[simp] theorem setF_gfm (a : Nat) (F : Fld) (v : Nat) : (setF s a F v).gfm = s.gfm := rfl
@[simp] theorem setF_prot (a : Nat) (F : Fld) (v : Nat) : (setF s a F v).prot = s.prot := rfl
@[simp] theorem setF_scan (a : Nat) (F : Fld) (v : Nat) : (setF s a F v).scan = s.scan := rfl
@[simp] theorem setF_fio (a : Nat) (F : Fld) (v : Nat) : (setF s a F v).fio = s.fio := rfl
@[simp] theorem setF_dpx (a : Nat) (F : Fld) (v : Nat) : (setF s a F v).dpx = s.dpx := rfl
@[simp] theorem setF_cmd (a : Nat) (F : Fld) (v : Nat) : (setF s a F v).cmd = s.cmd := rfl
@[simp] theorem setF_recd (a : Nat) (F : Fld) (v : Nat) : (setF s a F v).recd = s.recd := rfl
@[simp] theorem setF_net (a : Nat) (F : Fld) (v : Nat) : (setF s a F v).net = s.net := rfl
@[simp] theorem setF_upd (a : Nat) (F : Fld) (v : Nat) : (setF s a F v).upd = s.upd := rfl

@[simp] theorem setFbit_pending (a : Nat) (F : Fld) (i : Nat) (b : Bool) : (setFbit s a F i b).pending = s.pending := rfl
@[simp] theorem setFbit_mem (a : Nat) (F : Fld) (i : Nat) (b : Bool) : (setFbit s a F i b).mem = s.mem := rfl
@[simp] theorem setFbit_snap (a : Nat) (F : Fld) (i : Nat) (b : Bool) : (setFbit s a F i b).snap = s.snap := rfl
@[simp] theorem setFbit_busReply (a : Nat) (F : Fld) (i : Nat) (b : Bool) : (setFbit s a F i b).busReply = s.busReply := rfl
@[simp] theorem setFbit_fresh (a : Nat) (F : Fld) (i : Nat) (b : Bool) : (setFbit s a F i b).fresh = s.fresh := rfl
@[simp] theorem setFbit_tai (a : Nat) (F : Fld) (i : Nat) (b : Bool) : (setFbit s a F i b).tai = s.tai := rfl
@[simp] theorem setFbit_ticks (a : Nat) (F : Fld) (i : Nat) (b : Bool) : (setFbit s a F i b).ticks = s.ticks := rfl
@[simp] theorem setFbit_log (a : Nat) (F : Fld) (i : Nat) (b : Bool) : (setFbit s a F i b).log = s.log := rfl
@[simp] theorem setFbit_fab (a : Nat) (F : Fld) (i : Nat) (b : Bool) : (setFbit s a F i b).fab = s.fab := rfl
@[simp] theorem setFbit_pwr (a : Nat) (F : Fld) (i : Nat) (b : Bool) : (setFbit s a F i b).pwr = s.pwr := rfl
@[simp] theorem setFbit_time (a : Nat) (F : Fld) (i : Nat) (b : Bool) : (setFbit s a F i b).time = s.time := rfl
@[simp] theorem setFbit_adc (a : Nat) (F : Fld) (i : Nat) (b : Bool) : (setFbit s a F i b).adc = s.adc := rfl
@[simp] theorem setFbit_filt (a : Nat) (F : Fld) (i : Nat) (b : Bool) : (setFbit s a F i b).filt = s.filt := rfl
@[simp] theorem setFbit_loop (a : Nat) (F : Fld) (i : Nat) (b : Bool) : (setFbit s a F i b).loop = s.loop := rfl
@[simp] theorem setFbit_gfm (a : Nat) (F : Fld) (i : Nat) (b : Bool) : (setFbit s a F i b).gfm = s.gfm := rfl
@[simp] theorem setFbit_prot (a : Nat) (F : Fld) (i : Nat) (b : Bool) : (setFbit s a F i b).prot = s.prot := rfl
@[simp] theorem setFbit_scan (a : Nat) (F : Fld) (i : Nat) (b : Bool) : (setFbit s a F i b).scan = s.scan := rfl
@[simp] theorem setFbit_fio (a : Nat) (F : Fld) (i : Nat) (b : Bool) : (setFbit s a F i b).fio = s.fio := rfl
@[simp] theorem setFbit_dpx (a : Nat) (F : Fld) (i : Nat) (b : Bool) : (setFbit s a F i b).dpx = s.dpx := rfl
@[simp] theorem setFbit_cmd (a : Nat) (F : Fld) (i : Nat) (b : Bool) : (setFbit s a F i b).cmd = s.cmd := rfl
@[simp] theorem setFbit_recd (a : Nat) (F : Fld) (i : Nat) (b : Bool) : (setFbit s a F i b).recd = s.recd := rfl
@[simp] theorem setFbit_net (a : Nat) (F : Fld) (i : Nat) (b : Bool) : (setFbit s a F i b).net = s.net := rfl
@[simp] theorem setFbit_upd (a : Nat) (F : Fld) (i : Nat) (b : Bool) : (setFbit s a F i b).upd = s.upd := rfl

@[simp] theorem wr64_pending (a : Nat) (v : BitVec 64) : (wr64 s a v).pending = s.pending := rfl
@[simp] theorem wr64_mem (a : Nat) (v : BitVec 64) : (wr64 s a v).mem = s.mem := rfl
@[simp] theorem wr64_snap (a : Nat) (v : BitVec 64) : (wr64 s a v).snap = s.snap := rfl
@[simp] theorem wr64_busReply (a : Nat) (v : BitVec 64) : (wr64 s a v).busReply = s.busReply := rfl
@[simp] theorem wr64_fresh (a : Nat) (v : BitVec 64) : (wr64 s a v).fresh = s.fresh := rfl
@[simp] theorem wr64_tai (a : Nat) (v : BitVec 64) : (wr64 s a v).tai = s.tai := rfl
@[simp] theorem wr64_ticks (a : Nat) (v : BitVec 64) : (wr64 s a v).ticks = s.ticks := rfl
@[simp] theorem wr64_log (a : Nat) (v : BitVec 64) : (wr64 s a v).log = s.log := rfl
@[simp] theorem wr64_fab (a : Nat) (v : BitVec 64) : (wr64 s a v).fab = s.fab := rfl
@[simp] theorem wr64_pwr (a : Nat) (v : BitVec 64) : (wr64 s a v).pwr = s.pwr := rfl
@[simp] theorem wr64_time (a : Nat) (v : BitVec 64) : (wr64 s a v).time = s.time := rfl
@[simp] theorem wr64_adc (a : Nat) (v : BitVec 64) : (wr64 s a v).adc = s.adc := rfl
@[simp] theorem wr64_filt (a : Nat) (v : BitVec 64) : (wr64 s a v).filt = s.filt := rfl
@[simp] theorem wr64_loop (a : Nat) (v : BitVec 64) : (wr64 s a v).loop = s.loop := rfl
@[simp] theorem wr64_gfm (a : Nat) (v : BitVec 64) : (wr64 s a v).gfm = s.gfm := rfl
@[simp] theorem wr64_prot (a : Nat) (v : BitVec 64) : (wr64 s a v).prot = s.prot := rfl
@[simp] theorem wr64_scan (a : Nat) (v : BitVec 64) : (wr64 s a v).scan = s.scan := rfl
@[simp] theorem wr64_fio (a : Nat) (v : BitVec 64) : (wr64 s a v).fio = s.fio := rfl
@[simp] theorem wr64_dpx (a : Nat) (v : BitVec 64) : (wr64 s a v).dpx = s.dpx := rfl
@[simp] theorem wr64_cmd (a : Nat) (v : BitVec 64) : (wr64 s a v).cmd = s.cmd := rfl
@[simp] theorem wr64_recd (a : Nat) (v : BitVec 64) : (wr64 s a v).recd = s.recd := rfl
@[simp] theorem wr64_net (a : Nat) (v : BitVec 64) : (wr64 s a v).net = s.net := rfl
@[simp] theorem wr64_upd (a : Nat) (v : BitVec 64) : (wr64 s a v).upd = s.upd := rfl

@[simp] theorem memPut_pending (a : Nat) (b : Byte) : (memPut s a b).pending = s.pending := rfl
@[simp] theorem memPut_regs (a : Nat) (b : Byte) : (memPut s a b).regs = s.regs := rfl
@[simp] theorem memPut_snap (a : Nat) (b : Byte) : (memPut s a b).snap = s.snap := rfl
@[simp] theorem memPut_busReply (a : Nat) (b : Byte) : (memPut s a b).busReply = s.busReply := rfl
@[simp] theorem memPut_fresh (a : Nat) (b : Byte) : (memPut s a b).fresh = s.fresh := rfl
@[simp] theorem memPut_tai (a : Nat) (b : Byte) : (memPut s a b).tai = s.tai := rfl
@[simp] theorem memPut_ticks (a : Nat) (b : Byte) : (memPut s a b).ticks = s.ticks := rfl
@[simp] theorem memPut_log (a : Nat) (b : Byte) : (memPut s a b).log = s.log := rfl
@[simp] theorem memPut_fab (a : Nat) (b : Byte) : (memPut s a b).fab = s.fab := rfl
@[simp] theorem memPut_pwr (a : Nat) (b : Byte) : (memPut s a b).pwr = s.pwr := rfl
@[simp] theorem memPut_time (a : Nat) (b : Byte) : (memPut s a b).time = s.time := rfl
@[simp] theorem memPut_adc (a : Nat) (b : Byte) : (memPut s a b).adc = s.adc := rfl
@[simp] theorem memPut_filt (a : Nat) (b : Byte) : (memPut s a b).filt = s.filt := rfl
@[simp] theorem memPut_loop (a : Nat) (b : Byte) : (memPut s a b).loop = s.loop := rfl
@[simp] theorem memPut_gfm (a : Nat) (b : Byte) : (memPut s a b).gfm = s.gfm := rfl
@[simp] theorem memPut_prot (a : Nat) (b : Byte) : (memPut s a b).prot = s.prot := rfl
@[simp] theorem memPut_scan (a : Nat) (b : Byte) : (memPut s a b).scan = s.scan := rfl
@[simp] theorem memPut_fio (a : Nat) (b : Byte) : (memPut s a b).fio = s.fio := rfl
@[simp] theorem memPut_dpx (a : Nat) (b : Byte) : (memPut s a b).dpx = s.dpx := rfl
@[simp] theorem memPut_cmd (a : Nat) (b : Byte) : (memPut s a b).cmd = s.cmd := rfl
@[simp] theorem memPut_recd (a : Nat) (b : Byte) : (memPut s a b).recd = s.recd := rfl
@[simp] theorem memPut_net (a : Nat) (b : Byte) : (memPut s a b).net = s.net := rfl
@[simp] theorem memPut_upd (a : Nat) (b : Byte) : (memPut s a b).upd = s.upd := rfl
@[simp] theorem memPut_rd (a : Nat) (b : Byte) (q : Nat) : rd (memPut s a b) q = rd s q := rfl

@[simp] theorem setServo_pending (v : ServoState) : (setServo v s).pending = s.pending := rfl
@[simp] theorem setServo_regs (v : ServoState) : (setServo v s).regs = s.regs := rfl
@[simp] theorem setServo_mem (v : ServoState) : (setServo v s).mem = s.mem := rfl
@[simp] theorem setServo_snap (v : ServoState) : (setServo v s).snap = s.snap := rfl
@[simp] theorem setServo_busReply (v : ServoState) : (setServo v s).busReply = s.busReply := rfl
@[simp] theorem setServo_fresh (v : ServoState) : (setServo v s).fresh = s.fresh := rfl
@[simp] theorem setServo_tai (v : ServoState) : (setServo v s).tai = s.tai := rfl
@[simp] theorem setServo_ticks (v : ServoState) : (setServo v s).ticks = s.ticks := rfl
@[simp] theorem setServo_log (v : ServoState) : (setServo v s).log = s.log := rfl
@[simp] theorem setServo_fab (v : ServoState) : (setServo v s).fab = s.fab := rfl
@[simp] theorem setServo_pwr (v : ServoState) : (setServo v s).pwr = s.pwr := rfl
@[simp] theorem setServo_adc (v : ServoState) : (setServo v s).adc = s.adc := rfl
@[simp] theorem setServo_filt (v : ServoState) : (setServo v s).filt = s.filt := rfl
@[simp] theorem setServo_loop (v : ServoState) : (setServo v s).loop = s.loop := rfl
@[simp] theorem setServo_gfm (v : ServoState) : (setServo v s).gfm = s.gfm := rfl
@[simp] theorem setServo_prot (v : ServoState) : (setServo v s).prot = s.prot := rfl
@[simp] theorem setServo_scan (v : ServoState) : (setServo v s).scan = s.scan := rfl
@[simp] theorem setServo_fio (v : ServoState) : (setServo v s).fio = s.fio := rfl
@[simp] theorem setServo_dpx (v : ServoState) : (setServo v s).dpx = s.dpx := rfl
@[simp] theorem setServo_cmd (v : ServoState) : (setServo v s).cmd = s.cmd := rfl
@[simp] theorem setServo_recd (v : ServoState) : (setServo v s).recd = s.recd := rfl
@[simp] theorem setServo_net (v : ServoState) : (setServo v s).net = s.net := rfl
@[simp] theorem setServo_upd (v : ServoState) : (setServo v s).upd = s.upd := rfl
@[simp] theorem setServo_time (v : ServoState) : (setServo v s).time.servo = v := rfl
@[simp] theorem setServo_rd (v : ServoState) (q : Nat) : rd (setServo v s) q = rd s q := rfl

@[simp] theorem setCore_pending (c : Fin 4) (v : AdcCore) : (setCore c v s).pending = s.pending := rfl
@[simp] theorem setCore_regs (c : Fin 4) (v : AdcCore) : (setCore c v s).regs = s.regs := rfl
@[simp] theorem setCore_mem (c : Fin 4) (v : AdcCore) : (setCore c v s).mem = s.mem := rfl
@[simp] theorem setCore_snap (c : Fin 4) (v : AdcCore) : (setCore c v s).snap = s.snap := rfl
@[simp] theorem setCore_busReply (c : Fin 4) (v : AdcCore) : (setCore c v s).busReply = s.busReply := rfl
@[simp] theorem setCore_fresh (c : Fin 4) (v : AdcCore) : (setCore c v s).fresh = s.fresh := rfl
@[simp] theorem setCore_tai (c : Fin 4) (v : AdcCore) : (setCore c v s).tai = s.tai := rfl
@[simp] theorem setCore_ticks (c : Fin 4) (v : AdcCore) : (setCore c v s).ticks = s.ticks := rfl
@[simp] theorem setCore_log (c : Fin 4) (v : AdcCore) : (setCore c v s).log = s.log := rfl
@[simp] theorem setCore_fab (c : Fin 4) (v : AdcCore) : (setCore c v s).fab = s.fab := rfl
@[simp] theorem setCore_pwr (c : Fin 4) (v : AdcCore) : (setCore c v s).pwr = s.pwr := rfl
@[simp] theorem setCore_time (c : Fin 4) (v : AdcCore) : (setCore c v s).time = s.time := rfl
@[simp] theorem setCore_filt (c : Fin 4) (v : AdcCore) : (setCore c v s).filt = s.filt := rfl
@[simp] theorem setCore_loop (c : Fin 4) (v : AdcCore) : (setCore c v s).loop = s.loop := rfl
@[simp] theorem setCore_gfm (c : Fin 4) (v : AdcCore) : (setCore c v s).gfm = s.gfm := rfl
@[simp] theorem setCore_prot (c : Fin 4) (v : AdcCore) : (setCore c v s).prot = s.prot := rfl
@[simp] theorem setCore_scan (c : Fin 4) (v : AdcCore) : (setCore c v s).scan = s.scan := rfl
@[simp] theorem setCore_fio (c : Fin 4) (v : AdcCore) : (setCore c v s).fio = s.fio := rfl
@[simp] theorem setCore_dpx (c : Fin 4) (v : AdcCore) : (setCore c v s).dpx = s.dpx := rfl
@[simp] theorem setCore_cmd (c : Fin 4) (v : AdcCore) : (setCore c v s).cmd = s.cmd := rfl
@[simp] theorem setCore_recd (c : Fin 4) (v : AdcCore) : (setCore c v s).recd = s.recd := rfl
@[simp] theorem setCore_net (c : Fin 4) (v : AdcCore) : (setCore c v s).net = s.net := rfl
@[simp] theorem setCore_upd (c : Fin 4) (v : AdcCore) : (setCore c v s).upd = s.upd := rfl
@[simp] theorem setCore_rd (c : Fin 4) (v : AdcCore) (q : Nat) : rd (setCore c v s) q = rd s q := rfl

@[simp] theorem setChain_pending (n : Fin 24) (v : ChainState) : (setChain n v s).pending = s.pending := rfl
@[simp] theorem setChain_regs (n : Fin 24) (v : ChainState) : (setChain n v s).regs = s.regs := rfl
@[simp] theorem setChain_mem (n : Fin 24) (v : ChainState) : (setChain n v s).mem = s.mem := rfl
@[simp] theorem setChain_snap (n : Fin 24) (v : ChainState) : (setChain n v s).snap = s.snap := rfl
@[simp] theorem setChain_busReply (n : Fin 24) (v : ChainState) : (setChain n v s).busReply = s.busReply := rfl
@[simp] theorem setChain_fresh (n : Fin 24) (v : ChainState) : (setChain n v s).fresh = s.fresh := rfl
@[simp] theorem setChain_tai (n : Fin 24) (v : ChainState) : (setChain n v s).tai = s.tai := rfl
@[simp] theorem setChain_ticks (n : Fin 24) (v : ChainState) : (setChain n v s).ticks = s.ticks := rfl
@[simp] theorem setChain_log (n : Fin 24) (v : ChainState) : (setChain n v s).log = s.log := rfl
@[simp] theorem setChain_fab (n : Fin 24) (v : ChainState) : (setChain n v s).fab = s.fab := rfl
@[simp] theorem setChain_pwr (n : Fin 24) (v : ChainState) : (setChain n v s).pwr = s.pwr := rfl
@[simp] theorem setChain_time (n : Fin 24) (v : ChainState) : (setChain n v s).time = s.time := rfl
@[simp] theorem setChain_adc (n : Fin 24) (v : ChainState) : (setChain n v s).adc = s.adc := rfl
@[simp] theorem setChain_loop (n : Fin 24) (v : ChainState) : (setChain n v s).loop = s.loop := rfl
@[simp] theorem setChain_gfm (n : Fin 24) (v : ChainState) : (setChain n v s).gfm = s.gfm := rfl
@[simp] theorem setChain_prot (n : Fin 24) (v : ChainState) : (setChain n v s).prot = s.prot := rfl
@[simp] theorem setChain_scan (n : Fin 24) (v : ChainState) : (setChain n v s).scan = s.scan := rfl
@[simp] theorem setChain_fio (n : Fin 24) (v : ChainState) : (setChain n v s).fio = s.fio := rfl
@[simp] theorem setChain_dpx (n : Fin 24) (v : ChainState) : (setChain n v s).dpx = s.dpx := rfl
@[simp] theorem setChain_cmd (n : Fin 24) (v : ChainState) : (setChain n v s).cmd = s.cmd := rfl
@[simp] theorem setChain_recd (n : Fin 24) (v : ChainState) : (setChain n v s).recd = s.recd := rfl
@[simp] theorem setChain_net (n : Fin 24) (v : ChainState) : (setChain n v s).net = s.net := rfl
@[simp] theorem setChain_upd (n : Fin 24) (v : ChainState) : (setChain n v s).upd = s.upd := rfl
@[simp] theorem setChain_rd (n : Fin 24) (v : ChainState) (q : Nat) : rd (setChain n v s) q = rd s q := rfl

@[simp] theorem setStage_pending (st : Fin 4) (v : StageState) : (setStage st v s).pending = s.pending := rfl
@[simp] theorem setStage_regs (st : Fin 4) (v : StageState) : (setStage st v s).regs = s.regs := rfl
@[simp] theorem setStage_mem (st : Fin 4) (v : StageState) : (setStage st v s).mem = s.mem := rfl
@[simp] theorem setStage_snap (st : Fin 4) (v : StageState) : (setStage st v s).snap = s.snap := rfl
@[simp] theorem setStage_busReply (st : Fin 4) (v : StageState) : (setStage st v s).busReply = s.busReply := rfl
@[simp] theorem setStage_fresh (st : Fin 4) (v : StageState) : (setStage st v s).fresh = s.fresh := rfl
@[simp] theorem setStage_tai (st : Fin 4) (v : StageState) : (setStage st v s).tai = s.tai := rfl
@[simp] theorem setStage_ticks (st : Fin 4) (v : StageState) : (setStage st v s).ticks = s.ticks := rfl
@[simp] theorem setStage_log (st : Fin 4) (v : StageState) : (setStage st v s).log = s.log := rfl
@[simp] theorem setStage_fab (st : Fin 4) (v : StageState) : (setStage st v s).fab = s.fab := rfl
@[simp] theorem setStage_pwr (st : Fin 4) (v : StageState) : (setStage st v s).pwr = s.pwr := rfl
@[simp] theorem setStage_time (st : Fin 4) (v : StageState) : (setStage st v s).time = s.time := rfl
@[simp] theorem setStage_adc (st : Fin 4) (v : StageState) : (setStage st v s).adc = s.adc := rfl
@[simp] theorem setStage_filt (st : Fin 4) (v : StageState) : (setStage st v s).filt = s.filt := rfl
@[simp] theorem setStage_gfm (st : Fin 4) (v : StageState) : (setStage st v s).gfm = s.gfm := rfl
@[simp] theorem setStage_prot (st : Fin 4) (v : StageState) : (setStage st v s).prot = s.prot := rfl
@[simp] theorem setStage_scan (st : Fin 4) (v : StageState) : (setStage st v s).scan = s.scan := rfl
@[simp] theorem setStage_fio (st : Fin 4) (v : StageState) : (setStage st v s).fio = s.fio := rfl
@[simp] theorem setStage_dpx (st : Fin 4) (v : StageState) : (setStage st v s).dpx = s.dpx := rfl
@[simp] theorem setStage_cmd (st : Fin 4) (v : StageState) : (setStage st v s).cmd = s.cmd := rfl
@[simp] theorem setStage_recd (st : Fin 4) (v : StageState) : (setStage st v s).recd = s.recd := rfl
@[simp] theorem setStage_net (st : Fin 4) (v : StageState) : (setStage st v s).net = s.net := rfl
@[simp] theorem setStage_upd (st : Fin 4) (v : StageState) : (setStage st v s).upd = s.upd := rfl
@[simp] theorem setStage_rd (st : Fin 4) (v : StageState) (q : Nat) : rd (setStage st v s) q = rd s q := rfl

@[simp] theorem setPair_pending (p : Fin 12) (v : PairState) : (setPair p v s).pending = s.pending := rfl
@[simp] theorem setPair_regs (p : Fin 12) (v : PairState) : (setPair p v s).regs = s.regs := rfl
@[simp] theorem setPair_mem (p : Fin 12) (v : PairState) : (setPair p v s).mem = s.mem := rfl
@[simp] theorem setPair_snap (p : Fin 12) (v : PairState) : (setPair p v s).snap = s.snap := rfl
@[simp] theorem setPair_busReply (p : Fin 12) (v : PairState) : (setPair p v s).busReply = s.busReply := rfl
@[simp] theorem setPair_fresh (p : Fin 12) (v : PairState) : (setPair p v s).fresh = s.fresh := rfl
@[simp] theorem setPair_tai (p : Fin 12) (v : PairState) : (setPair p v s).tai = s.tai := rfl
@[simp] theorem setPair_ticks (p : Fin 12) (v : PairState) : (setPair p v s).ticks = s.ticks := rfl
@[simp] theorem setPair_log (p : Fin 12) (v : PairState) : (setPair p v s).log = s.log := rfl
@[simp] theorem setPair_fab (p : Fin 12) (v : PairState) : (setPair p v s).fab = s.fab := rfl
@[simp] theorem setPair_pwr (p : Fin 12) (v : PairState) : (setPair p v s).pwr = s.pwr := rfl
@[simp] theorem setPair_time (p : Fin 12) (v : PairState) : (setPair p v s).time = s.time := rfl
@[simp] theorem setPair_adc (p : Fin 12) (v : PairState) : (setPair p v s).adc = s.adc := rfl
@[simp] theorem setPair_filt (p : Fin 12) (v : PairState) : (setPair p v s).filt = s.filt := rfl
@[simp] theorem setPair_gfm (p : Fin 12) (v : PairState) : (setPair p v s).gfm = s.gfm := rfl
@[simp] theorem setPair_prot (p : Fin 12) (v : PairState) : (setPair p v s).prot = s.prot := rfl
@[simp] theorem setPair_scan (p : Fin 12) (v : PairState) : (setPair p v s).scan = s.scan := rfl
@[simp] theorem setPair_fio (p : Fin 12) (v : PairState) : (setPair p v s).fio = s.fio := rfl
@[simp] theorem setPair_dpx (p : Fin 12) (v : PairState) : (setPair p v s).dpx = s.dpx := rfl
@[simp] theorem setPair_cmd (p : Fin 12) (v : PairState) : (setPair p v s).cmd = s.cmd := rfl
@[simp] theorem setPair_recd (p : Fin 12) (v : PairState) : (setPair p v s).recd = s.recd := rfl
@[simp] theorem setPair_net (p : Fin 12) (v : PairState) : (setPair p v s).net = s.net := rfl
@[simp] theorem setPair_upd (p : Fin 12) (v : PairState) : (setPair p v s).upd = s.upd := rfl
@[simp] theorem setPair_rd (p : Fin 12) (v : PairState) (q : Nat) : rd (setPair p v s) q = rd s q := rfl

@[simp] theorem setProf_pending (g : Fin 16) (v : ProfState) : (setProf g v s).pending = s.pending := rfl
@[simp] theorem setProf_regs (g : Fin 16) (v : ProfState) : (setProf g v s).regs = s.regs := rfl
@[simp] theorem setProf_mem (g : Fin 16) (v : ProfState) : (setProf g v s).mem = s.mem := rfl
@[simp] theorem setProf_snap (g : Fin 16) (v : ProfState) : (setProf g v s).snap = s.snap := rfl
@[simp] theorem setProf_busReply (g : Fin 16) (v : ProfState) : (setProf g v s).busReply = s.busReply := rfl
@[simp] theorem setProf_fresh (g : Fin 16) (v : ProfState) : (setProf g v s).fresh = s.fresh := rfl
@[simp] theorem setProf_tai (g : Fin 16) (v : ProfState) : (setProf g v s).tai = s.tai := rfl
@[simp] theorem setProf_ticks (g : Fin 16) (v : ProfState) : (setProf g v s).ticks = s.ticks := rfl
@[simp] theorem setProf_log (g : Fin 16) (v : ProfState) : (setProf g v s).log = s.log := rfl
@[simp] theorem setProf_fab (g : Fin 16) (v : ProfState) : (setProf g v s).fab = s.fab := rfl
@[simp] theorem setProf_pwr (g : Fin 16) (v : ProfState) : (setProf g v s).pwr = s.pwr := rfl
@[simp] theorem setProf_time (g : Fin 16) (v : ProfState) : (setProf g v s).time = s.time := rfl
@[simp] theorem setProf_adc (g : Fin 16) (v : ProfState) : (setProf g v s).adc = s.adc := rfl
@[simp] theorem setProf_filt (g : Fin 16) (v : ProfState) : (setProf g v s).filt = s.filt := rfl
@[simp] theorem setProf_gfm (g : Fin 16) (v : ProfState) : (setProf g v s).gfm = s.gfm := rfl
@[simp] theorem setProf_prot (g : Fin 16) (v : ProfState) : (setProf g v s).prot = s.prot := rfl
@[simp] theorem setProf_scan (g : Fin 16) (v : ProfState) : (setProf g v s).scan = s.scan := rfl
@[simp] theorem setProf_fio (g : Fin 16) (v : ProfState) : (setProf g v s).fio = s.fio := rfl
@[simp] theorem setProf_dpx (g : Fin 16) (v : ProfState) : (setProf g v s).dpx = s.dpx := rfl
@[simp] theorem setProf_cmd (g : Fin 16) (v : ProfState) : (setProf g v s).cmd = s.cmd := rfl
@[simp] theorem setProf_recd (g : Fin 16) (v : ProfState) : (setProf g v s).recd = s.recd := rfl
@[simp] theorem setProf_net (g : Fin 16) (v : ProfState) : (setProf g v s).net = s.net := rfl
@[simp] theorem setProf_upd (g : Fin 16) (v : ProfState) : (setProf g v s).upd = s.upd := rfl
@[simp] theorem setProf_rd (g : Fin 16) (v : ProfState) (q : Nat) : rd (setProf g v s) q = rd s q := rfl

@[simp] theorem setGfm_pending (g : Fin 2) (v : GfmStage) : (setGfm g v s).pending = s.pending := rfl
@[simp] theorem setGfm_regs (g : Fin 2) (v : GfmStage) : (setGfm g v s).regs = s.regs := rfl
@[simp] theorem setGfm_mem (g : Fin 2) (v : GfmStage) : (setGfm g v s).mem = s.mem := rfl
@[simp] theorem setGfm_snap (g : Fin 2) (v : GfmStage) : (setGfm g v s).snap = s.snap := rfl
@[simp] theorem setGfm_busReply (g : Fin 2) (v : GfmStage) : (setGfm g v s).busReply = s.busReply := rfl
@[simp] theorem setGfm_fresh (g : Fin 2) (v : GfmStage) : (setGfm g v s).fresh = s.fresh := rfl
@[simp] theorem setGfm_tai (g : Fin 2) (v : GfmStage) : (setGfm g v s).tai = s.tai := rfl
@[simp] theorem setGfm_ticks (g : Fin 2) (v : GfmStage) : (setGfm g v s).ticks = s.ticks := rfl
@[simp] theorem setGfm_log (g : Fin 2) (v : GfmStage) : (setGfm g v s).log = s.log := rfl
@[simp] theorem setGfm_fab (g : Fin 2) (v : GfmStage) : (setGfm g v s).fab = s.fab := rfl
@[simp] theorem setGfm_pwr (g : Fin 2) (v : GfmStage) : (setGfm g v s).pwr = s.pwr := rfl
@[simp] theorem setGfm_time (g : Fin 2) (v : GfmStage) : (setGfm g v s).time = s.time := rfl
@[simp] theorem setGfm_adc (g : Fin 2) (v : GfmStage) : (setGfm g v s).adc = s.adc := rfl
@[simp] theorem setGfm_filt (g : Fin 2) (v : GfmStage) : (setGfm g v s).filt = s.filt := rfl
@[simp] theorem setGfm_loop (g : Fin 2) (v : GfmStage) : (setGfm g v s).loop = s.loop := rfl
@[simp] theorem setGfm_prot (g : Fin 2) (v : GfmStage) : (setGfm g v s).prot = s.prot := rfl
@[simp] theorem setGfm_scan (g : Fin 2) (v : GfmStage) : (setGfm g v s).scan = s.scan := rfl
@[simp] theorem setGfm_fio (g : Fin 2) (v : GfmStage) : (setGfm g v s).fio = s.fio := rfl
@[simp] theorem setGfm_dpx (g : Fin 2) (v : GfmStage) : (setGfm g v s).dpx = s.dpx := rfl
@[simp] theorem setGfm_cmd (g : Fin 2) (v : GfmStage) : (setGfm g v s).cmd = s.cmd := rfl
@[simp] theorem setGfm_recd (g : Fin 2) (v : GfmStage) : (setGfm g v s).recd = s.recd := rfl
@[simp] theorem setGfm_net (g : Fin 2) (v : GfmStage) : (setGfm g v s).net = s.net := rfl
@[simp] theorem setGfm_upd (g : Fin 2) (v : GfmStage) : (setGfm g v s).upd = s.upd := rfl
@[simp] theorem setGfm_rd (g : Fin 2) (v : GfmStage) (q : Nat) : rd (setGfm g v s) q = rd s q := rfl

@[simp] theorem setUnit32_pending (g : Fin 2) (v : Unit32) : (setUnit32 g v s).pending = s.pending := rfl
@[simp] theorem setUnit32_regs (g : Fin 2) (v : Unit32) : (setUnit32 g v s).regs = s.regs := rfl
@[simp] theorem setUnit32_mem (g : Fin 2) (v : Unit32) : (setUnit32 g v s).mem = s.mem := rfl
@[simp] theorem setUnit32_snap (g : Fin 2) (v : Unit32) : (setUnit32 g v s).snap = s.snap := rfl
@[simp] theorem setUnit32_busReply (g : Fin 2) (v : Unit32) : (setUnit32 g v s).busReply = s.busReply := rfl
@[simp] theorem setUnit32_fresh (g : Fin 2) (v : Unit32) : (setUnit32 g v s).fresh = s.fresh := rfl
@[simp] theorem setUnit32_tai (g : Fin 2) (v : Unit32) : (setUnit32 g v s).tai = s.tai := rfl
@[simp] theorem setUnit32_ticks (g : Fin 2) (v : Unit32) : (setUnit32 g v s).ticks = s.ticks := rfl
@[simp] theorem setUnit32_log (g : Fin 2) (v : Unit32) : (setUnit32 g v s).log = s.log := rfl
@[simp] theorem setUnit32_fab (g : Fin 2) (v : Unit32) : (setUnit32 g v s).fab = s.fab := rfl
@[simp] theorem setUnit32_pwr (g : Fin 2) (v : Unit32) : (setUnit32 g v s).pwr = s.pwr := rfl
@[simp] theorem setUnit32_time (g : Fin 2) (v : Unit32) : (setUnit32 g v s).time = s.time := rfl
@[simp] theorem setUnit32_adc (g : Fin 2) (v : Unit32) : (setUnit32 g v s).adc = s.adc := rfl
@[simp] theorem setUnit32_filt (g : Fin 2) (v : Unit32) : (setUnit32 g v s).filt = s.filt := rfl
@[simp] theorem setUnit32_loop (g : Fin 2) (v : Unit32) : (setUnit32 g v s).loop = s.loop := rfl
@[simp] theorem setUnit32_gfm (g : Fin 2) (v : Unit32) : (setUnit32 g v s).gfm = s.gfm := rfl
@[simp] theorem setUnit32_scan (g : Fin 2) (v : Unit32) : (setUnit32 g v s).scan = s.scan := rfl
@[simp] theorem setUnit32_fio (g : Fin 2) (v : Unit32) : (setUnit32 g v s).fio = s.fio := rfl
@[simp] theorem setUnit32_dpx (g : Fin 2) (v : Unit32) : (setUnit32 g v s).dpx = s.dpx := rfl
@[simp] theorem setUnit32_cmd (g : Fin 2) (v : Unit32) : (setUnit32 g v s).cmd = s.cmd := rfl
@[simp] theorem setUnit32_recd (g : Fin 2) (v : Unit32) : (setUnit32 g v s).recd = s.recd := rfl
@[simp] theorem setUnit32_net (g : Fin 2) (v : Unit32) : (setUnit32 g v s).net = s.net := rfl
@[simp] theorem setUnit32_upd (g : Fin 2) (v : Unit32) : (setUnit32 g v s).upd = s.upd := rfl
@[simp] theorem setUnit32_rd (g : Fin 2) (v : Unit32) (q : Nat) : rd (setUnit32 g v s) q = rd s q := rfl

@[simp] theorem setFeeder_pending (f : Fin 8) (v : FeederState) : (setFeeder f v s).pending = s.pending := rfl
@[simp] theorem setFeeder_regs (f : Fin 8) (v : FeederState) : (setFeeder f v s).regs = s.regs := rfl
@[simp] theorem setFeeder_mem (f : Fin 8) (v : FeederState) : (setFeeder f v s).mem = s.mem := rfl
@[simp] theorem setFeeder_snap (f : Fin 8) (v : FeederState) : (setFeeder f v s).snap = s.snap := rfl
@[simp] theorem setFeeder_busReply (f : Fin 8) (v : FeederState) : (setFeeder f v s).busReply = s.busReply := rfl
@[simp] theorem setFeeder_fresh (f : Fin 8) (v : FeederState) : (setFeeder f v s).fresh = s.fresh := rfl
@[simp] theorem setFeeder_tai (f : Fin 8) (v : FeederState) : (setFeeder f v s).tai = s.tai := rfl
@[simp] theorem setFeeder_ticks (f : Fin 8) (v : FeederState) : (setFeeder f v s).ticks = s.ticks := rfl
@[simp] theorem setFeeder_log (f : Fin 8) (v : FeederState) : (setFeeder f v s).log = s.log := rfl
@[simp] theorem setFeeder_fab (f : Fin 8) (v : FeederState) : (setFeeder f v s).fab = s.fab := rfl
@[simp] theorem setFeeder_pwr (f : Fin 8) (v : FeederState) : (setFeeder f v s).pwr = s.pwr := rfl
@[simp] theorem setFeeder_time (f : Fin 8) (v : FeederState) : (setFeeder f v s).time = s.time := rfl
@[simp] theorem setFeeder_adc (f : Fin 8) (v : FeederState) : (setFeeder f v s).adc = s.adc := rfl
@[simp] theorem setFeeder_filt (f : Fin 8) (v : FeederState) : (setFeeder f v s).filt = s.filt := rfl
@[simp] theorem setFeeder_loop (f : Fin 8) (v : FeederState) : (setFeeder f v s).loop = s.loop := rfl
@[simp] theorem setFeeder_gfm (f : Fin 8) (v : FeederState) : (setFeeder f v s).gfm = s.gfm := rfl
@[simp] theorem setFeeder_scan (f : Fin 8) (v : FeederState) : (setFeeder f v s).scan = s.scan := rfl
@[simp] theorem setFeeder_fio (f : Fin 8) (v : FeederState) : (setFeeder f v s).fio = s.fio := rfl
@[simp] theorem setFeeder_dpx (f : Fin 8) (v : FeederState) : (setFeeder f v s).dpx = s.dpx := rfl
@[simp] theorem setFeeder_cmd (f : Fin 8) (v : FeederState) : (setFeeder f v s).cmd = s.cmd := rfl
@[simp] theorem setFeeder_recd (f : Fin 8) (v : FeederState) : (setFeeder f v s).recd = s.recd := rfl
@[simp] theorem setFeeder_net (f : Fin 8) (v : FeederState) : (setFeeder f v s).net = s.net := rfl
@[simp] theorem setFeeder_upd (f : Fin 8) (v : FeederState) : (setFeeder f v s).upd = s.upd := rfl
@[simp] theorem setFeeder_rd (f : Fin 8) (v : FeederState) (q : Nat) : rd (setFeeder f v s) q = rd s q := rfl

@[simp] theorem setDo_pending (n : Fin 16) (v : DoDriver) : (setDo n v s).pending = s.pending := rfl
@[simp] theorem setDo_regs (n : Fin 16) (v : DoDriver) : (setDo n v s).regs = s.regs := rfl
@[simp] theorem setDo_mem (n : Fin 16) (v : DoDriver) : (setDo n v s).mem = s.mem := rfl
@[simp] theorem setDo_snap (n : Fin 16) (v : DoDriver) : (setDo n v s).snap = s.snap := rfl
@[simp] theorem setDo_busReply (n : Fin 16) (v : DoDriver) : (setDo n v s).busReply = s.busReply := rfl
@[simp] theorem setDo_fresh (n : Fin 16) (v : DoDriver) : (setDo n v s).fresh = s.fresh := rfl
@[simp] theorem setDo_tai (n : Fin 16) (v : DoDriver) : (setDo n v s).tai = s.tai := rfl
@[simp] theorem setDo_ticks (n : Fin 16) (v : DoDriver) : (setDo n v s).ticks = s.ticks := rfl
@[simp] theorem setDo_log (n : Fin 16) (v : DoDriver) : (setDo n v s).log = s.log := rfl
@[simp] theorem setDo_fab (n : Fin 16) (v : DoDriver) : (setDo n v s).fab = s.fab := rfl
@[simp] theorem setDo_pwr (n : Fin 16) (v : DoDriver) : (setDo n v s).pwr = s.pwr := rfl
@[simp] theorem setDo_time (n : Fin 16) (v : DoDriver) : (setDo n v s).time = s.time := rfl
@[simp] theorem setDo_adc (n : Fin 16) (v : DoDriver) : (setDo n v s).adc = s.adc := rfl
@[simp] theorem setDo_filt (n : Fin 16) (v : DoDriver) : (setDo n v s).filt = s.filt := rfl
@[simp] theorem setDo_loop (n : Fin 16) (v : DoDriver) : (setDo n v s).loop = s.loop := rfl
@[simp] theorem setDo_gfm (n : Fin 16) (v : DoDriver) : (setDo n v s).gfm = s.gfm := rfl
@[simp] theorem setDo_prot (n : Fin 16) (v : DoDriver) : (setDo n v s).prot = s.prot := rfl
@[simp] theorem setDo_scan (n : Fin 16) (v : DoDriver) : (setDo n v s).scan = s.scan := rfl
@[simp] theorem setDo_dpx (n : Fin 16) (v : DoDriver) : (setDo n v s).dpx = s.dpx := rfl
@[simp] theorem setDo_cmd (n : Fin 16) (v : DoDriver) : (setDo n v s).cmd = s.cmd := rfl
@[simp] theorem setDo_recd (n : Fin 16) (v : DoDriver) : (setDo n v s).recd = s.recd := rfl
@[simp] theorem setDo_net (n : Fin 16) (v : DoDriver) : (setDo n v s).net = s.net := rfl
@[simp] theorem setDo_upd (n : Fin 16) (v : DoDriver) : (setDo n v s).upd = s.upd := rfl
@[simp] theorem setDo_rd (n : Fin 16) (v : DoDriver) (q : Nat) : rd (setDo n v s) q = rd s q := rfl

@[simp] theorem setTrip_pending (n : Fin 4) (v : TripDriver) : (setTrip n v s).pending = s.pending := rfl
@[simp] theorem setTrip_regs (n : Fin 4) (v : TripDriver) : (setTrip n v s).regs = s.regs := rfl
@[simp] theorem setTrip_mem (n : Fin 4) (v : TripDriver) : (setTrip n v s).mem = s.mem := rfl
@[simp] theorem setTrip_snap (n : Fin 4) (v : TripDriver) : (setTrip n v s).snap = s.snap := rfl
@[simp] theorem setTrip_busReply (n : Fin 4) (v : TripDriver) : (setTrip n v s).busReply = s.busReply := rfl
@[simp] theorem setTrip_fresh (n : Fin 4) (v : TripDriver) : (setTrip n v s).fresh = s.fresh := rfl
@[simp] theorem setTrip_tai (n : Fin 4) (v : TripDriver) : (setTrip n v s).tai = s.tai := rfl
@[simp] theorem setTrip_ticks (n : Fin 4) (v : TripDriver) : (setTrip n v s).ticks = s.ticks := rfl
@[simp] theorem setTrip_log (n : Fin 4) (v : TripDriver) : (setTrip n v s).log = s.log := rfl
@[simp] theorem setTrip_fab (n : Fin 4) (v : TripDriver) : (setTrip n v s).fab = s.fab := rfl
@[simp] theorem setTrip_pwr (n : Fin 4) (v : TripDriver) : (setTrip n v s).pwr = s.pwr := rfl
@[simp] theorem setTrip_time (n : Fin 4) (v : TripDriver) : (setTrip n v s).time = s.time := rfl
@[simp] theorem setTrip_adc (n : Fin 4) (v : TripDriver) : (setTrip n v s).adc = s.adc := rfl
@[simp] theorem setTrip_filt (n : Fin 4) (v : TripDriver) : (setTrip n v s).filt = s.filt := rfl
@[simp] theorem setTrip_loop (n : Fin 4) (v : TripDriver) : (setTrip n v s).loop = s.loop := rfl
@[simp] theorem setTrip_gfm (n : Fin 4) (v : TripDriver) : (setTrip n v s).gfm = s.gfm := rfl
@[simp] theorem setTrip_prot (n : Fin 4) (v : TripDriver) : (setTrip n v s).prot = s.prot := rfl
@[simp] theorem setTrip_scan (n : Fin 4) (v : TripDriver) : (setTrip n v s).scan = s.scan := rfl
@[simp] theorem setTrip_dpx (n : Fin 4) (v : TripDriver) : (setTrip n v s).dpx = s.dpx := rfl
@[simp] theorem setTrip_cmd (n : Fin 4) (v : TripDriver) : (setTrip n v s).cmd = s.cmd := rfl
@[simp] theorem setTrip_recd (n : Fin 4) (v : TripDriver) : (setTrip n v s).recd = s.recd := rfl
@[simp] theorem setTrip_net (n : Fin 4) (v : TripDriver) : (setTrip n v s).net = s.net := rfl
@[simp] theorem setTrip_upd (n : Fin 4) (v : TripDriver) : (setTrip n v s).upd = s.upd := rfl
@[simp] theorem setTrip_rd (n : Fin 4) (v : TripDriver) (q : Nat) : rd (setTrip n v s) q = rd s q := rfl

@[simp] theorem setDpxRec_pending (v : DpxState) : (setDpxRec v s).pending = s.pending := rfl
@[simp] theorem setDpxRec_regs (v : DpxState) : (setDpxRec v s).regs = s.regs := rfl
@[simp] theorem setDpxRec_mem (v : DpxState) : (setDpxRec v s).mem = s.mem := rfl
@[simp] theorem setDpxRec_snap (v : DpxState) : (setDpxRec v s).snap = s.snap := rfl
@[simp] theorem setDpxRec_busReply (v : DpxState) : (setDpxRec v s).busReply = s.busReply := rfl
@[simp] theorem setDpxRec_fresh (v : DpxState) : (setDpxRec v s).fresh = s.fresh := rfl
@[simp] theorem setDpxRec_tai (v : DpxState) : (setDpxRec v s).tai = s.tai := rfl
@[simp] theorem setDpxRec_ticks (v : DpxState) : (setDpxRec v s).ticks = s.ticks := rfl
@[simp] theorem setDpxRec_log (v : DpxState) : (setDpxRec v s).log = s.log := rfl
@[simp] theorem setDpxRec_fab (v : DpxState) : (setDpxRec v s).fab = s.fab := rfl
@[simp] theorem setDpxRec_pwr (v : DpxState) : (setDpxRec v s).pwr = s.pwr := rfl
@[simp] theorem setDpxRec_time (v : DpxState) : (setDpxRec v s).time = s.time := rfl
@[simp] theorem setDpxRec_adc (v : DpxState) : (setDpxRec v s).adc = s.adc := rfl
@[simp] theorem setDpxRec_filt (v : DpxState) : (setDpxRec v s).filt = s.filt := rfl
@[simp] theorem setDpxRec_loop (v : DpxState) : (setDpxRec v s).loop = s.loop := rfl
@[simp] theorem setDpxRec_gfm (v : DpxState) : (setDpxRec v s).gfm = s.gfm := rfl
@[simp] theorem setDpxRec_prot (v : DpxState) : (setDpxRec v s).prot = s.prot := rfl
@[simp] theorem setDpxRec_scan (v : DpxState) : (setDpxRec v s).scan = s.scan := rfl
@[simp] theorem setDpxRec_fio (v : DpxState) : (setDpxRec v s).fio = s.fio := rfl
@[simp] theorem setDpxRec_cmd (v : DpxState) : (setDpxRec v s).cmd = s.cmd := rfl
@[simp] theorem setDpxRec_recd (v : DpxState) : (setDpxRec v s).recd = s.recd := rfl
@[simp] theorem setDpxRec_net (v : DpxState) : (setDpxRec v s).net = s.net := rfl
@[simp] theorem setDpxRec_upd (v : DpxState) : (setDpxRec v s).upd = s.upd := rfl
@[simp] theorem setDpxRec_dpx (v : DpxState) : (setDpxRec v s).dpx = v := rfl
@[simp] theorem setDpxRec_rd (v : DpxState) (q : Nat) : rd (setDpxRec v s) q = rd s q := rfl

@[simp] theorem setNet_pending (v : NetState) : (setNet v s).pending = s.pending := rfl
@[simp] theorem setNet_regs (v : NetState) : (setNet v s).regs = s.regs := rfl
@[simp] theorem setNet_mem (v : NetState) : (setNet v s).mem = s.mem := rfl
@[simp] theorem setNet_snap (v : NetState) : (setNet v s).snap = s.snap := rfl
@[simp] theorem setNet_busReply (v : NetState) : (setNet v s).busReply = s.busReply := rfl
@[simp] theorem setNet_fresh (v : NetState) : (setNet v s).fresh = s.fresh := rfl
@[simp] theorem setNet_tai (v : NetState) : (setNet v s).tai = s.tai := rfl
@[simp] theorem setNet_ticks (v : NetState) : (setNet v s).ticks = s.ticks := rfl
@[simp] theorem setNet_log (v : NetState) : (setNet v s).log = s.log := rfl
@[simp] theorem setNet_fab (v : NetState) : (setNet v s).fab = s.fab := rfl
@[simp] theorem setNet_pwr (v : NetState) : (setNet v s).pwr = s.pwr := rfl
@[simp] theorem setNet_time (v : NetState) : (setNet v s).time = s.time := rfl
@[simp] theorem setNet_adc (v : NetState) : (setNet v s).adc = s.adc := rfl
@[simp] theorem setNet_filt (v : NetState) : (setNet v s).filt = s.filt := rfl
@[simp] theorem setNet_loop (v : NetState) : (setNet v s).loop = s.loop := rfl
@[simp] theorem setNet_gfm (v : NetState) : (setNet v s).gfm = s.gfm := rfl
@[simp] theorem setNet_prot (v : NetState) : (setNet v s).prot = s.prot := rfl
@[simp] theorem setNet_scan (v : NetState) : (setNet v s).scan = s.scan := rfl
@[simp] theorem setNet_fio (v : NetState) : (setNet v s).fio = s.fio := rfl
@[simp] theorem setNet_dpx (v : NetState) : (setNet v s).dpx = s.dpx := rfl
@[simp] theorem setNet_cmd (v : NetState) : (setNet v s).cmd = s.cmd := rfl
@[simp] theorem setNet_recd (v : NetState) : (setNet v s).recd = s.recd := rfl
@[simp] theorem setNet_upd (v : NetState) : (setNet v s).upd = s.upd := rfl
@[simp] theorem setNet_net (v : NetState) : (setNet v s).net = v := rfl
@[simp] theorem setNet_rd (v : NetState) (q : Nat) : rd (setNet v s) q = rd s q := rfl

@[simp] theorem setFi_pending (u : Fin 10) (v : FiUnit) : (setFi u v s).pending = s.pending := rfl
@[simp] theorem setFi_regs (u : Fin 10) (v : FiUnit) : (setFi u v s).regs = s.regs := rfl
@[simp] theorem setFi_mem (u : Fin 10) (v : FiUnit) : (setFi u v s).mem = s.mem := rfl
@[simp] theorem setFi_snap (u : Fin 10) (v : FiUnit) : (setFi u v s).snap = s.snap := rfl
@[simp] theorem setFi_busReply (u : Fin 10) (v : FiUnit) : (setFi u v s).busReply = s.busReply := rfl
@[simp] theorem setFi_fresh (u : Fin 10) (v : FiUnit) : (setFi u v s).fresh = s.fresh := rfl
@[simp] theorem setFi_tai (u : Fin 10) (v : FiUnit) : (setFi u v s).tai = s.tai := rfl
@[simp] theorem setFi_ticks (u : Fin 10) (v : FiUnit) : (setFi u v s).ticks = s.ticks := rfl
@[simp] theorem setFi_log (u : Fin 10) (v : FiUnit) : (setFi u v s).log = s.log := rfl
@[simp] theorem setFi_fab (u : Fin 10) (v : FiUnit) : (setFi u v s).fab = s.fab := rfl
@[simp] theorem setFi_pwr (u : Fin 10) (v : FiUnit) : (setFi u v s).pwr = s.pwr := rfl
@[simp] theorem setFi_time (u : Fin 10) (v : FiUnit) : (setFi u v s).time = s.time := rfl
@[simp] theorem setFi_adc (u : Fin 10) (v : FiUnit) : (setFi u v s).adc = s.adc := rfl
@[simp] theorem setFi_filt (u : Fin 10) (v : FiUnit) : (setFi u v s).filt = s.filt := rfl
@[simp] theorem setFi_loop (u : Fin 10) (v : FiUnit) : (setFi u v s).loop = s.loop := rfl
@[simp] theorem setFi_gfm (u : Fin 10) (v : FiUnit) : (setFi u v s).gfm = s.gfm := rfl
@[simp] theorem setFi_prot (u : Fin 10) (v : FiUnit) : (setFi u v s).prot = s.prot := rfl
@[simp] theorem setFi_scan (u : Fin 10) (v : FiUnit) : (setFi u v s).scan = s.scan := rfl
@[simp] theorem setFi_fio (u : Fin 10) (v : FiUnit) : (setFi u v s).fio = s.fio := rfl
@[simp] theorem setFi_dpx (u : Fin 10) (v : FiUnit) : (setFi u v s).dpx = s.dpx := rfl
@[simp] theorem setFi_cmd (u : Fin 10) (v : FiUnit) : (setFi u v s).cmd = s.cmd := rfl
@[simp] theorem setFi_recd (u : Fin 10) (v : FiUnit) : (setFi u v s).recd = s.recd := rfl
@[simp] theorem setFi_upd (u : Fin 10) (v : FiUnit) : (setFi u v s).upd = s.upd := rfl
@[simp] theorem setFi_rd (u : Fin 10) (v : FiUnit) (q : Nat) : rd (setFi u v s) q = rd s q := rfl

@[simp] theorem setRec_pending (v : RecState) : (setRec v s).pending = s.pending := rfl
@[simp] theorem setRec_regs (v : RecState) : (setRec v s).regs = s.regs := rfl
@[simp] theorem setRec_mem (v : RecState) : (setRec v s).mem = s.mem := rfl
@[simp] theorem setRec_snap (v : RecState) : (setRec v s).snap = s.snap := rfl
@[simp] theorem setRec_busReply (v : RecState) : (setRec v s).busReply = s.busReply := rfl
@[simp] theorem setRec_fresh (v : RecState) : (setRec v s).fresh = s.fresh := rfl
@[simp] theorem setRec_tai (v : RecState) : (setRec v s).tai = s.tai := rfl
@[simp] theorem setRec_ticks (v : RecState) : (setRec v s).ticks = s.ticks := rfl
@[simp] theorem setRec_log (v : RecState) : (setRec v s).log = s.log := rfl
@[simp] theorem setRec_fab (v : RecState) : (setRec v s).fab = s.fab := rfl
@[simp] theorem setRec_pwr (v : RecState) : (setRec v s).pwr = s.pwr := rfl
@[simp] theorem setRec_time (v : RecState) : (setRec v s).time = s.time := rfl
@[simp] theorem setRec_adc (v : RecState) : (setRec v s).adc = s.adc := rfl
@[simp] theorem setRec_filt (v : RecState) : (setRec v s).filt = s.filt := rfl
@[simp] theorem setRec_loop (v : RecState) : (setRec v s).loop = s.loop := rfl
@[simp] theorem setRec_gfm (v : RecState) : (setRec v s).gfm = s.gfm := rfl
@[simp] theorem setRec_prot (v : RecState) : (setRec v s).prot = s.prot := rfl
@[simp] theorem setRec_scan (v : RecState) : (setRec v s).scan = s.scan := rfl
@[simp] theorem setRec_fio (v : RecState) : (setRec v s).fio = s.fio := rfl
@[simp] theorem setRec_dpx (v : RecState) : (setRec v s).dpx = s.dpx := rfl
@[simp] theorem setRec_cmd (v : RecState) : (setRec v s).cmd = s.cmd := rfl
@[simp] theorem setRec_net (v : RecState) : (setRec v s).net = s.net := rfl
@[simp] theorem setRec_upd (v : RecState) : (setRec v s).upd = s.upd := rfl
@[simp] theorem setRec_recd (v : RecState) : (setRec v s).recd = v := rfl
@[simp] theorem setRec_rd (v : RecState) (q : Nat) : rd (setRec v s) q = rd s q := rfl

@[simp] theorem setUpd_pending (v : UpdState) : (setUpd v s).pending = s.pending := rfl
@[simp] theorem setUpd_regs (v : UpdState) : (setUpd v s).regs = s.regs := rfl
@[simp] theorem setUpd_mem (v : UpdState) : (setUpd v s).mem = s.mem := rfl
@[simp] theorem setUpd_snap (v : UpdState) : (setUpd v s).snap = s.snap := rfl
@[simp] theorem setUpd_busReply (v : UpdState) : (setUpd v s).busReply = s.busReply := rfl
@[simp] theorem setUpd_fresh (v : UpdState) : (setUpd v s).fresh = s.fresh := rfl
@[simp] theorem setUpd_tai (v : UpdState) : (setUpd v s).tai = s.tai := rfl
@[simp] theorem setUpd_ticks (v : UpdState) : (setUpd v s).ticks = s.ticks := rfl
@[simp] theorem setUpd_log (v : UpdState) : (setUpd v s).log = s.log := rfl
@[simp] theorem setUpd_fab (v : UpdState) : (setUpd v s).fab = s.fab := rfl
@[simp] theorem setUpd_pwr (v : UpdState) : (setUpd v s).pwr = s.pwr := rfl
@[simp] theorem setUpd_time (v : UpdState) : (setUpd v s).time = s.time := rfl
@[simp] theorem setUpd_adc (v : UpdState) : (setUpd v s).adc = s.adc := rfl
@[simp] theorem setUpd_filt (v : UpdState) : (setUpd v s).filt = s.filt := rfl
@[simp] theorem setUpd_loop (v : UpdState) : (setUpd v s).loop = s.loop := rfl
@[simp] theorem setUpd_gfm (v : UpdState) : (setUpd v s).gfm = s.gfm := rfl
@[simp] theorem setUpd_prot (v : UpdState) : (setUpd v s).prot = s.prot := rfl
@[simp] theorem setUpd_scan (v : UpdState) : (setUpd v s).scan = s.scan := rfl
@[simp] theorem setUpd_fio (v : UpdState) : (setUpd v s).fio = s.fio := rfl
@[simp] theorem setUpd_dpx (v : UpdState) : (setUpd v s).dpx = s.dpx := rfl
@[simp] theorem setUpd_cmd (v : UpdState) : (setUpd v s).cmd = s.cmd := rfl
@[simp] theorem setUpd_recd (v : UpdState) : (setUpd v s).recd = s.recd := rfl
@[simp] theorem setUpd_net (v : UpdState) : (setUpd v s).net = s.net := rfl
@[simp] theorem setUpd_upd (v : UpdState) : (setUpd v s).upd = v := rfl
@[simp] theorem setUpd_rd (v : UpdState) (q : Nat) : rd (setUpd v s) q = rd s q := rfl

@[simp] theorem setPwr_pending (v : PwrState) : (setPwr v s).pending = s.pending := rfl
@[simp] theorem setPwr_regs (v : PwrState) : (setPwr v s).regs = s.regs := rfl
@[simp] theorem setPwr_mem (v : PwrState) : (setPwr v s).mem = s.mem := rfl
@[simp] theorem setPwr_snap (v : PwrState) : (setPwr v s).snap = s.snap := rfl
@[simp] theorem setPwr_busReply (v : PwrState) : (setPwr v s).busReply = s.busReply := rfl
@[simp] theorem setPwr_fresh (v : PwrState) : (setPwr v s).fresh = s.fresh := rfl
@[simp] theorem setPwr_tai (v : PwrState) : (setPwr v s).tai = s.tai := rfl
@[simp] theorem setPwr_ticks (v : PwrState) : (setPwr v s).ticks = s.ticks := rfl
@[simp] theorem setPwr_log (v : PwrState) : (setPwr v s).log = s.log := rfl
@[simp] theorem setPwr_fab (v : PwrState) : (setPwr v s).fab = s.fab := rfl
@[simp] theorem setPwr_time (v : PwrState) : (setPwr v s).time = s.time := rfl
@[simp] theorem setPwr_adc (v : PwrState) : (setPwr v s).adc = s.adc := rfl
@[simp] theorem setPwr_filt (v : PwrState) : (setPwr v s).filt = s.filt := rfl
@[simp] theorem setPwr_loop (v : PwrState) : (setPwr v s).loop = s.loop := rfl
@[simp] theorem setPwr_gfm (v : PwrState) : (setPwr v s).gfm = s.gfm := rfl
@[simp] theorem setPwr_prot (v : PwrState) : (setPwr v s).prot = s.prot := rfl
@[simp] theorem setPwr_scan (v : PwrState) : (setPwr v s).scan = s.scan := rfl
@[simp] theorem setPwr_fio (v : PwrState) : (setPwr v s).fio = s.fio := rfl
@[simp] theorem setPwr_dpx (v : PwrState) : (setPwr v s).dpx = s.dpx := rfl
@[simp] theorem setPwr_cmd (v : PwrState) : (setPwr v s).cmd = s.cmd := rfl
@[simp] theorem setPwr_recd (v : PwrState) : (setPwr v s).recd = s.recd := rfl
@[simp] theorem setPwr_net (v : PwrState) : (setPwr v s).net = s.net := rfl
@[simp] theorem setPwr_upd (v : PwrState) : (setPwr v s).upd = s.upd := rfl
@[simp] theorem setPwr_pwr (v : PwrState) : (setPwr v s).pwr = v := rfl
@[simp] theorem setPwr_rd (v : PwrState) (q : Nat) : rd (setPwr v s) q = rd s q := rfl

@[simp] theorem setSnap_pending (m : Fin 8) (v : Snap) : (setSnap m v s).pending = s.pending := rfl
@[simp] theorem setSnap_regs (m : Fin 8) (v : Snap) : (setSnap m v s).regs = s.regs := rfl
@[simp] theorem setSnap_mem (m : Fin 8) (v : Snap) : (setSnap m v s).mem = s.mem := rfl
@[simp] theorem setSnap_busReply (m : Fin 8) (v : Snap) : (setSnap m v s).busReply = s.busReply := rfl
@[simp] theorem setSnap_fresh (m : Fin 8) (v : Snap) : (setSnap m v s).fresh = s.fresh := rfl
@[simp] theorem setSnap_tai (m : Fin 8) (v : Snap) : (setSnap m v s).tai = s.tai := rfl
@[simp] theorem setSnap_ticks (m : Fin 8) (v : Snap) : (setSnap m v s).ticks = s.ticks := rfl
@[simp] theorem setSnap_log (m : Fin 8) (v : Snap) : (setSnap m v s).log = s.log := rfl
@[simp] theorem setSnap_fab (m : Fin 8) (v : Snap) : (setSnap m v s).fab = s.fab := rfl
@[simp] theorem setSnap_pwr (m : Fin 8) (v : Snap) : (setSnap m v s).pwr = s.pwr := rfl
@[simp] theorem setSnap_time (m : Fin 8) (v : Snap) : (setSnap m v s).time = s.time := rfl
@[simp] theorem setSnap_adc (m : Fin 8) (v : Snap) : (setSnap m v s).adc = s.adc := rfl
@[simp] theorem setSnap_filt (m : Fin 8) (v : Snap) : (setSnap m v s).filt = s.filt := rfl
@[simp] theorem setSnap_loop (m : Fin 8) (v : Snap) : (setSnap m v s).loop = s.loop := rfl
@[simp] theorem setSnap_gfm (m : Fin 8) (v : Snap) : (setSnap m v s).gfm = s.gfm := rfl
@[simp] theorem setSnap_prot (m : Fin 8) (v : Snap) : (setSnap m v s).prot = s.prot := rfl
@[simp] theorem setSnap_scan (m : Fin 8) (v : Snap) : (setSnap m v s).scan = s.scan := rfl
@[simp] theorem setSnap_fio (m : Fin 8) (v : Snap) : (setSnap m v s).fio = s.fio := rfl
@[simp] theorem setSnap_dpx (m : Fin 8) (v : Snap) : (setSnap m v s).dpx = s.dpx := rfl
@[simp] theorem setSnap_cmd (m : Fin 8) (v : Snap) : (setSnap m v s).cmd = s.cmd := rfl
@[simp] theorem setSnap_recd (m : Fin 8) (v : Snap) : (setSnap m v s).recd = s.recd := rfl
@[simp] theorem setSnap_net (m : Fin 8) (v : Snap) : (setSnap m v s).net = s.net := rfl
@[simp] theorem setSnap_upd (m : Fin 8) (v : Snap) : (setSnap m v s).upd = s.upd := rfl
@[simp] theorem setSnap_rd (m : Fin 8) (v : Snap) (q : Nat) : rd (setSnap m v s) q = rd s q := rfl

@[simp] theorem reply_pending (r : BusReply) : (reply r s).pending = s.pending := rfl
@[simp] theorem reply_regs (r : BusReply) : (reply r s).regs = s.regs := rfl
@[simp] theorem reply_mem (r : BusReply) : (reply r s).mem = s.mem := rfl
@[simp] theorem reply_snap (r : BusReply) : (reply r s).snap = s.snap := rfl
@[simp] theorem reply_fresh (r : BusReply) : (reply r s).fresh = s.fresh := rfl
@[simp] theorem reply_tai (r : BusReply) : (reply r s).tai = s.tai := rfl
@[simp] theorem reply_ticks (r : BusReply) : (reply r s).ticks = s.ticks := rfl
@[simp] theorem reply_log (r : BusReply) : (reply r s).log = s.log := rfl
@[simp] theorem reply_fab (r : BusReply) : (reply r s).fab = s.fab := rfl
@[simp] theorem reply_pwr (r : BusReply) : (reply r s).pwr = s.pwr := rfl
@[simp] theorem reply_time (r : BusReply) : (reply r s).time = s.time := rfl
@[simp] theorem reply_adc (r : BusReply) : (reply r s).adc = s.adc := rfl
@[simp] theorem reply_filt (r : BusReply) : (reply r s).filt = s.filt := rfl
@[simp] theorem reply_loop (r : BusReply) : (reply r s).loop = s.loop := rfl
@[simp] theorem reply_gfm (r : BusReply) : (reply r s).gfm = s.gfm := rfl
@[simp] theorem reply_prot (r : BusReply) : (reply r s).prot = s.prot := rfl
@[simp] theorem reply_scan (r : BusReply) : (reply r s).scan = s.scan := rfl
@[simp] theorem reply_fio (r : BusReply) : (reply r s).fio = s.fio := rfl
@[simp] theorem reply_dpx (r : BusReply) : (reply r s).dpx = s.dpx := rfl
@[simp] theorem reply_cmd (r : BusReply) : (reply r s).cmd = s.cmd := rfl
@[simp] theorem reply_recd (r : BusReply) : (reply r s).recd = s.recd := rfl
@[simp] theorem reply_net (r : BusReply) : (reply r s).net = s.net := rfl
@[simp] theorem reply_upd (r : BusReply) : (reply r s).upd = s.upd := rfl
@[simp] theorem reply_busReply (r : BusReply) : (reply r s).busReply = r := rfl
@[simp] theorem reply_rd (r : BusReply) (q : Nat) : rd (reply r s) q = rd s q := rfl

@[simp] theorem setChannel_pending (ch : Fin 21) (v : Channel) : (setChannel ch v s).pending = s.pending := rfl
@[simp] theorem setChannel_regs (ch : Fin 21) (v : Channel) : (setChannel ch v s).regs = s.regs := rfl
@[simp] theorem setChannel_mem (ch : Fin 21) (v : Channel) : (setChannel ch v s).mem = s.mem := rfl
@[simp] theorem setChannel_snap (ch : Fin 21) (v : Channel) : (setChannel ch v s).snap = s.snap := rfl
@[simp] theorem setChannel_busReply (ch : Fin 21) (v : Channel) : (setChannel ch v s).busReply = s.busReply := rfl
@[simp] theorem setChannel_fresh (ch : Fin 21) (v : Channel) : (setChannel ch v s).fresh = s.fresh := rfl
@[simp] theorem setChannel_tai (ch : Fin 21) (v : Channel) : (setChannel ch v s).tai = s.tai := rfl
@[simp] theorem setChannel_ticks (ch : Fin 21) (v : Channel) : (setChannel ch v s).ticks = s.ticks := rfl
@[simp] theorem setChannel_log (ch : Fin 21) (v : Channel) : (setChannel ch v s).log = s.log := rfl
@[simp] theorem setChannel_fab (ch : Fin 21) (v : Channel) : (setChannel ch v s).fab = s.fab := rfl
@[simp] theorem setChannel_pwr (ch : Fin 21) (v : Channel) : (setChannel ch v s).pwr = s.pwr := rfl
@[simp] theorem setChannel_time (ch : Fin 21) (v : Channel) : (setChannel ch v s).time = s.time := rfl
@[simp] theorem setChannel_adc (ch : Fin 21) (v : Channel) : (setChannel ch v s).adc = s.adc := rfl
@[simp] theorem setChannel_filt (ch : Fin 21) (v : Channel) : (setChannel ch v s).filt = s.filt := rfl
@[simp] theorem setChannel_loop (ch : Fin 21) (v : Channel) : (setChannel ch v s).loop = s.loop := rfl
@[simp] theorem setChannel_gfm (ch : Fin 21) (v : Channel) : (setChannel ch v s).gfm = s.gfm := rfl
@[simp] theorem setChannel_prot (ch : Fin 21) (v : Channel) : (setChannel ch v s).prot = s.prot := rfl
@[simp] theorem setChannel_scan (ch : Fin 21) (v : Channel) : (setChannel ch v s).scan = s.scan := rfl
@[simp] theorem setChannel_fio (ch : Fin 21) (v : Channel) : (setChannel ch v s).fio = s.fio := rfl
@[simp] theorem setChannel_dpx (ch : Fin 21) (v : Channel) : (setChannel ch v s).dpx = s.dpx := rfl
@[simp] theorem setChannel_recd (ch : Fin 21) (v : Channel) : (setChannel ch v s).recd = s.recd := rfl
@[simp] theorem setChannel_net (ch : Fin 21) (v : Channel) : (setChannel ch v s).net = s.net := rfl
@[simp] theorem setChannel_upd (ch : Fin 21) (v : Channel) : (setChannel ch v s).upd = s.upd := rfl
@[simp] theorem setChannel_rd (ch : Fin 21) (v : Channel) (q : Nat) : rd (setChannel ch v s) q = rd s q := rfl

@[simp] theorem putTile_pending (k : Nat) (v : Word) : (putTile k v s).pending = s.pending := rfl
@[simp] theorem putTile_regs (k : Nat) (v : Word) : (putTile k v s).regs = s.regs := rfl
@[simp] theorem putTile_mem (k : Nat) (v : Word) : (putTile k v s).mem = s.mem := rfl
@[simp] theorem putTile_snap (k : Nat) (v : Word) : (putTile k v s).snap = s.snap := rfl
@[simp] theorem putTile_busReply (k : Nat) (v : Word) : (putTile k v s).busReply = s.busReply := rfl
@[simp] theorem putTile_fresh (k : Nat) (v : Word) : (putTile k v s).fresh = s.fresh := rfl
@[simp] theorem putTile_tai (k : Nat) (v : Word) : (putTile k v s).tai = s.tai := rfl
@[simp] theorem putTile_ticks (k : Nat) (v : Word) : (putTile k v s).ticks = s.ticks := rfl
@[simp] theorem putTile_log (k : Nat) (v : Word) : (putTile k v s).log = s.log := rfl
@[simp] theorem putTile_pwr (k : Nat) (v : Word) : (putTile k v s).pwr = s.pwr := rfl
@[simp] theorem putTile_time (k : Nat) (v : Word) : (putTile k v s).time = s.time := rfl
@[simp] theorem putTile_adc (k : Nat) (v : Word) : (putTile k v s).adc = s.adc := rfl
@[simp] theorem putTile_filt (k : Nat) (v : Word) : (putTile k v s).filt = s.filt := rfl
@[simp] theorem putTile_loop (k : Nat) (v : Word) : (putTile k v s).loop = s.loop := rfl
@[simp] theorem putTile_gfm (k : Nat) (v : Word) : (putTile k v s).gfm = s.gfm := rfl
@[simp] theorem putTile_prot (k : Nat) (v : Word) : (putTile k v s).prot = s.prot := rfl
@[simp] theorem putTile_scan (k : Nat) (v : Word) : (putTile k v s).scan = s.scan := rfl
@[simp] theorem putTile_fio (k : Nat) (v : Word) : (putTile k v s).fio = s.fio := rfl
@[simp] theorem putTile_dpx (k : Nat) (v : Word) : (putTile k v s).dpx = s.dpx := rfl
@[simp] theorem putTile_cmd (k : Nat) (v : Word) : (putTile k v s).cmd = s.cmd := rfl
@[simp] theorem putTile_recd (k : Nat) (v : Word) : (putTile k v s).recd = s.recd := rfl
@[simp] theorem putTile_net (k : Nat) (v : Word) : (putTile k v s).net = s.net := rfl
@[simp] theorem putTile_upd (k : Nat) (v : Word) : (putTile k v s).upd = s.upd := rfl
@[simp] theorem putTile_rd (k : Nat) (v : Word) (q : Nat) : rd (putTile k v s) q = rd s q := rfl

@[simp] theorem setScan_pending (k : Fin 2) (v : ScanCore) : (setScan k v s).pending = s.pending := rfl
@[simp] theorem setScan_regs (k : Fin 2) (v : ScanCore) : (setScan k v s).regs = s.regs := rfl
@[simp] theorem setScan_mem (k : Fin 2) (v : ScanCore) : (setScan k v s).mem = s.mem := rfl
@[simp] theorem setScan_snap (k : Fin 2) (v : ScanCore) : (setScan k v s).snap = s.snap := rfl
@[simp] theorem setScan_busReply (k : Fin 2) (v : ScanCore) : (setScan k v s).busReply = s.busReply := rfl
@[simp] theorem setScan_fresh (k : Fin 2) (v : ScanCore) : (setScan k v s).fresh = s.fresh := rfl
@[simp] theorem setScan_tai (k : Fin 2) (v : ScanCore) : (setScan k v s).tai = s.tai := rfl
@[simp] theorem setScan_ticks (k : Fin 2) (v : ScanCore) : (setScan k v s).ticks = s.ticks := rfl
@[simp] theorem setScan_log (k : Fin 2) (v : ScanCore) : (setScan k v s).log = s.log := rfl
@[simp] theorem setScan_fab (k : Fin 2) (v : ScanCore) : (setScan k v s).fab = s.fab := rfl
@[simp] theorem setScan_pwr (k : Fin 2) (v : ScanCore) : (setScan k v s).pwr = s.pwr := rfl
@[simp] theorem setScan_time (k : Fin 2) (v : ScanCore) : (setScan k v s).time = s.time := rfl
@[simp] theorem setScan_adc (k : Fin 2) (v : ScanCore) : (setScan k v s).adc = s.adc := rfl
@[simp] theorem setScan_filt (k : Fin 2) (v : ScanCore) : (setScan k v s).filt = s.filt := rfl
@[simp] theorem setScan_loop (k : Fin 2) (v : ScanCore) : (setScan k v s).loop = s.loop := rfl
@[simp] theorem setScan_gfm (k : Fin 2) (v : ScanCore) : (setScan k v s).gfm = s.gfm := rfl
@[simp] theorem setScan_prot (k : Fin 2) (v : ScanCore) : (setScan k v s).prot = s.prot := rfl
@[simp] theorem setScan_fio (k : Fin 2) (v : ScanCore) : (setScan k v s).fio = s.fio := rfl
@[simp] theorem setScan_dpx (k : Fin 2) (v : ScanCore) : (setScan k v s).dpx = s.dpx := rfl
@[simp] theorem setScan_cmd (k : Fin 2) (v : ScanCore) : (setScan k v s).cmd = s.cmd := rfl
@[simp] theorem setScan_recd (k : Fin 2) (v : ScanCore) : (setScan k v s).recd = s.recd := rfl
@[simp] theorem setScan_net (k : Fin 2) (v : ScanCore) : (setScan k v s).net = s.net := rfl
@[simp] theorem setScan_upd (k : Fin 2) (v : ScanCore) : (setScan k v s).upd = s.upd := rfl
@[simp] theorem setScan_rd (k : Fin 2) (v : ScanCore) (q : Nat) : rd (setScan k v s) q = rd s q := rfl

@[simp] theorem setTask_pending (k : Fin 2) (t : Fin 8) (v : ScanTask) : (setTask k t v s).pending = s.pending := rfl
@[simp] theorem setTask_regs (k : Fin 2) (t : Fin 8) (v : ScanTask) : (setTask k t v s).regs = s.regs := rfl
@[simp] theorem setTask_mem (k : Fin 2) (t : Fin 8) (v : ScanTask) : (setTask k t v s).mem = s.mem := rfl
@[simp] theorem setTask_snap (k : Fin 2) (t : Fin 8) (v : ScanTask) : (setTask k t v s).snap = s.snap := rfl
@[simp] theorem setTask_busReply (k : Fin 2) (t : Fin 8) (v : ScanTask) : (setTask k t v s).busReply = s.busReply := rfl
@[simp] theorem setTask_fresh (k : Fin 2) (t : Fin 8) (v : ScanTask) : (setTask k t v s).fresh = s.fresh := rfl
@[simp] theorem setTask_tai (k : Fin 2) (t : Fin 8) (v : ScanTask) : (setTask k t v s).tai = s.tai := rfl
@[simp] theorem setTask_ticks (k : Fin 2) (t : Fin 8) (v : ScanTask) : (setTask k t v s).ticks = s.ticks := rfl
@[simp] theorem setTask_log (k : Fin 2) (t : Fin 8) (v : ScanTask) : (setTask k t v s).log = s.log := rfl
@[simp] theorem setTask_fab (k : Fin 2) (t : Fin 8) (v : ScanTask) : (setTask k t v s).fab = s.fab := rfl
@[simp] theorem setTask_pwr (k : Fin 2) (t : Fin 8) (v : ScanTask) : (setTask k t v s).pwr = s.pwr := rfl
@[simp] theorem setTask_time (k : Fin 2) (t : Fin 8) (v : ScanTask) : (setTask k t v s).time = s.time := rfl
@[simp] theorem setTask_adc (k : Fin 2) (t : Fin 8) (v : ScanTask) : (setTask k t v s).adc = s.adc := rfl
@[simp] theorem setTask_filt (k : Fin 2) (t : Fin 8) (v : ScanTask) : (setTask k t v s).filt = s.filt := rfl
@[simp] theorem setTask_loop (k : Fin 2) (t : Fin 8) (v : ScanTask) : (setTask k t v s).loop = s.loop := rfl
@[simp] theorem setTask_gfm (k : Fin 2) (t : Fin 8) (v : ScanTask) : (setTask k t v s).gfm = s.gfm := rfl
@[simp] theorem setTask_prot (k : Fin 2) (t : Fin 8) (v : ScanTask) : (setTask k t v s).prot = s.prot := rfl
@[simp] theorem setTask_fio (k : Fin 2) (t : Fin 8) (v : ScanTask) : (setTask k t v s).fio = s.fio := rfl
@[simp] theorem setTask_dpx (k : Fin 2) (t : Fin 8) (v : ScanTask) : (setTask k t v s).dpx = s.dpx := rfl
@[simp] theorem setTask_cmd (k : Fin 2) (t : Fin 8) (v : ScanTask) : (setTask k t v s).cmd = s.cmd := rfl
@[simp] theorem setTask_recd (k : Fin 2) (t : Fin 8) (v : ScanTask) : (setTask k t v s).recd = s.recd := rfl
@[simp] theorem setTask_net (k : Fin 2) (t : Fin 8) (v : ScanTask) : (setTask k t v s).net = s.net := rfl
@[simp] theorem setTask_upd (k : Fin 2) (t : Fin 8) (v : ScanTask) : (setTask k t v s).upd = s.upd := rfl
@[simp] theorem setTask_rd (k : Fin 2) (t : Fin 8) (v : ScanTask) (q : Nat) : rd (setTask k t v s) q = rd s q := rfl

@[simp] theorem setRemote_pending (k : Fin 2) (b : Fin 32) (v : RemoteBlock) : (setRemote k b v s).pending = s.pending := rfl
@[simp] theorem setRemote_regs (k : Fin 2) (b : Fin 32) (v : RemoteBlock) : (setRemote k b v s).regs = s.regs := rfl
@[simp] theorem setRemote_mem (k : Fin 2) (b : Fin 32) (v : RemoteBlock) : (setRemote k b v s).mem = s.mem := rfl
@[simp] theorem setRemote_snap (k : Fin 2) (b : Fin 32) (v : RemoteBlock) : (setRemote k b v s).snap = s.snap := rfl
@[simp] theorem setRemote_busReply (k : Fin 2) (b : Fin 32) (v : RemoteBlock) : (setRemote k b v s).busReply = s.busReply := rfl
@[simp] theorem setRemote_fresh (k : Fin 2) (b : Fin 32) (v : RemoteBlock) : (setRemote k b v s).fresh = s.fresh := rfl
@[simp] theorem setRemote_tai (k : Fin 2) (b : Fin 32) (v : RemoteBlock) : (setRemote k b v s).tai = s.tai := rfl
@[simp] theorem setRemote_ticks (k : Fin 2) (b : Fin 32) (v : RemoteBlock) : (setRemote k b v s).ticks = s.ticks := rfl
@[simp] theorem setRemote_log (k : Fin 2) (b : Fin 32) (v : RemoteBlock) : (setRemote k b v s).log = s.log := rfl
@[simp] theorem setRemote_fab (k : Fin 2) (b : Fin 32) (v : RemoteBlock) : (setRemote k b v s).fab = s.fab := rfl
@[simp] theorem setRemote_pwr (k : Fin 2) (b : Fin 32) (v : RemoteBlock) : (setRemote k b v s).pwr = s.pwr := rfl
@[simp] theorem setRemote_time (k : Fin 2) (b : Fin 32) (v : RemoteBlock) : (setRemote k b v s).time = s.time := rfl
@[simp] theorem setRemote_adc (k : Fin 2) (b : Fin 32) (v : RemoteBlock) : (setRemote k b v s).adc = s.adc := rfl
@[simp] theorem setRemote_filt (k : Fin 2) (b : Fin 32) (v : RemoteBlock) : (setRemote k b v s).filt = s.filt := rfl
@[simp] theorem setRemote_loop (k : Fin 2) (b : Fin 32) (v : RemoteBlock) : (setRemote k b v s).loop = s.loop := rfl
@[simp] theorem setRemote_gfm (k : Fin 2) (b : Fin 32) (v : RemoteBlock) : (setRemote k b v s).gfm = s.gfm := rfl
@[simp] theorem setRemote_prot (k : Fin 2) (b : Fin 32) (v : RemoteBlock) : (setRemote k b v s).prot = s.prot := rfl
@[simp] theorem setRemote_fio (k : Fin 2) (b : Fin 32) (v : RemoteBlock) : (setRemote k b v s).fio = s.fio := rfl
@[simp] theorem setRemote_dpx (k : Fin 2) (b : Fin 32) (v : RemoteBlock) : (setRemote k b v s).dpx = s.dpx := rfl
@[simp] theorem setRemote_cmd (k : Fin 2) (b : Fin 32) (v : RemoteBlock) : (setRemote k b v s).cmd = s.cmd := rfl
@[simp] theorem setRemote_recd (k : Fin 2) (b : Fin 32) (v : RemoteBlock) : (setRemote k b v s).recd = s.recd := rfl
@[simp] theorem setRemote_net (k : Fin 2) (b : Fin 32) (v : RemoteBlock) : (setRemote k b v s).net = s.net := rfl
@[simp] theorem setRemote_upd (k : Fin 2) (b : Fin 32) (v : RemoteBlock) : (setRemote k b v s).upd = s.upd := rfl
@[simp] theorem setRemote_rd (k : Fin 2) (b : Fin 32) (v : RemoteBlock) (q : Nat) : rd (setRemote k b v s) q = rd s q := rfl

@[simp] theorem setCluster_pending (c : Fin 4) (v : ClusterState) : (setCluster c v s).pending = s.pending := rfl
@[simp] theorem setCluster_regs (c : Fin 4) (v : ClusterState) : (setCluster c v s).regs = s.regs := rfl
@[simp] theorem setCluster_mem (c : Fin 4) (v : ClusterState) : (setCluster c v s).mem = s.mem := rfl
@[simp] theorem setCluster_snap (c : Fin 4) (v : ClusterState) : (setCluster c v s).snap = s.snap := rfl
@[simp] theorem setCluster_busReply (c : Fin 4) (v : ClusterState) : (setCluster c v s).busReply = s.busReply := rfl
@[simp] theorem setCluster_fresh (c : Fin 4) (v : ClusterState) : (setCluster c v s).fresh = s.fresh := rfl
@[simp] theorem setCluster_tai (c : Fin 4) (v : ClusterState) : (setCluster c v s).tai = s.tai := rfl
@[simp] theorem setCluster_ticks (c : Fin 4) (v : ClusterState) : (setCluster c v s).ticks = s.ticks := rfl
@[simp] theorem setCluster_log (c : Fin 4) (v : ClusterState) : (setCluster c v s).log = s.log := rfl
@[simp] theorem setCluster_pwr (c : Fin 4) (v : ClusterState) : (setCluster c v s).pwr = s.pwr := rfl
@[simp] theorem setCluster_time (c : Fin 4) (v : ClusterState) : (setCluster c v s).time = s.time := rfl
@[simp] theorem setCluster_adc (c : Fin 4) (v : ClusterState) : (setCluster c v s).adc = s.adc := rfl
@[simp] theorem setCluster_filt (c : Fin 4) (v : ClusterState) : (setCluster c v s).filt = s.filt := rfl
@[simp] theorem setCluster_loop (c : Fin 4) (v : ClusterState) : (setCluster c v s).loop = s.loop := rfl
@[simp] theorem setCluster_gfm (c : Fin 4) (v : ClusterState) : (setCluster c v s).gfm = s.gfm := rfl
@[simp] theorem setCluster_prot (c : Fin 4) (v : ClusterState) : (setCluster c v s).prot = s.prot := rfl
@[simp] theorem setCluster_scan (c : Fin 4) (v : ClusterState) : (setCluster c v s).scan = s.scan := rfl
@[simp] theorem setCluster_fio (c : Fin 4) (v : ClusterState) : (setCluster c v s).fio = s.fio := rfl
@[simp] theorem setCluster_dpx (c : Fin 4) (v : ClusterState) : (setCluster c v s).dpx = s.dpx := rfl
@[simp] theorem setCluster_cmd (c : Fin 4) (v : ClusterState) : (setCluster c v s).cmd = s.cmd := rfl
@[simp] theorem setCluster_recd (c : Fin 4) (v : ClusterState) : (setCluster c v s).recd = s.recd := rfl
@[simp] theorem setCluster_net (c : Fin 4) (v : ClusterState) : (setCluster c v s).net = s.net := rfl
@[simp] theorem setCluster_upd (c : Fin 4) (v : ClusterState) : (setCluster c v s).upd = s.upd := rfl
@[simp] theorem setCluster_rd (c : Fin 4) (v : ClusterState) (q : Nat) : rd (setCluster c v s) q = rd s q := rfl

@[simp] theorem setStaged_pending (k : Fin 4) (v : Option StagedImage) : (setStaged k v s).pending = s.pending := rfl
@[simp] theorem setStaged_regs (k : Fin 4) (v : Option StagedImage) : (setStaged k v s).regs = s.regs := rfl
@[simp] theorem setStaged_mem (k : Fin 4) (v : Option StagedImage) : (setStaged k v s).mem = s.mem := rfl
@[simp] theorem setStaged_snap (k : Fin 4) (v : Option StagedImage) : (setStaged k v s).snap = s.snap := rfl
@[simp] theorem setStaged_busReply (k : Fin 4) (v : Option StagedImage) : (setStaged k v s).busReply = s.busReply := rfl
@[simp] theorem setStaged_fresh (k : Fin 4) (v : Option StagedImage) : (setStaged k v s).fresh = s.fresh := rfl
@[simp] theorem setStaged_tai (k : Fin 4) (v : Option StagedImage) : (setStaged k v s).tai = s.tai := rfl
@[simp] theorem setStaged_ticks (k : Fin 4) (v : Option StagedImage) : (setStaged k v s).ticks = s.ticks := rfl
@[simp] theorem setStaged_log (k : Fin 4) (v : Option StagedImage) : (setStaged k v s).log = s.log := rfl
@[simp] theorem setStaged_fab (k : Fin 4) (v : Option StagedImage) : (setStaged k v s).fab = s.fab := rfl
@[simp] theorem setStaged_pwr (k : Fin 4) (v : Option StagedImage) : (setStaged k v s).pwr = s.pwr := rfl
@[simp] theorem setStaged_time (k : Fin 4) (v : Option StagedImage) : (setStaged k v s).time = s.time := rfl
@[simp] theorem setStaged_adc (k : Fin 4) (v : Option StagedImage) : (setStaged k v s).adc = s.adc := rfl
@[simp] theorem setStaged_filt (k : Fin 4) (v : Option StagedImage) : (setStaged k v s).filt = s.filt := rfl
@[simp] theorem setStaged_loop (k : Fin 4) (v : Option StagedImage) : (setStaged k v s).loop = s.loop := rfl
@[simp] theorem setStaged_gfm (k : Fin 4) (v : Option StagedImage) : (setStaged k v s).gfm = s.gfm := rfl
@[simp] theorem setStaged_prot (k : Fin 4) (v : Option StagedImage) : (setStaged k v s).prot = s.prot := rfl
@[simp] theorem setStaged_scan (k : Fin 4) (v : Option StagedImage) : (setStaged k v s).scan = s.scan := rfl
@[simp] theorem setStaged_fio (k : Fin 4) (v : Option StagedImage) : (setStaged k v s).fio = s.fio := rfl
@[simp] theorem setStaged_dpx (k : Fin 4) (v : Option StagedImage) : (setStaged k v s).dpx = s.dpx := rfl
@[simp] theorem setStaged_cmd (k : Fin 4) (v : Option StagedImage) : (setStaged k v s).cmd = s.cmd := rfl
@[simp] theorem setStaged_recd (k : Fin 4) (v : Option StagedImage) : (setStaged k v s).recd = s.recd := rfl
@[simp] theorem setStaged_net (k : Fin 4) (v : Option StagedImage) : (setStaged k v s).net = s.net := rfl
@[simp] theorem setStaged_rd (k : Fin 4) (v : Option StagedImage) (q : Nat) : rd (setStaged k v s) q = rd s q := rfl

@[simp] theorem dropEvent_pending : (dropEvent s).pending = s.pending := rfl
@[simp] theorem logEvent_pending (c q : Nat) (e : Word) : (logEvent c q e s).pending = s.pending := by unfold logEvent; split <;> rfl
@[simp] theorem logN_pending (c q e : Nat) : (logN c q e s).pending = s.pending := logEvent_pending c q _
@[simp] theorem dropEvent_mem : (dropEvent s).mem = s.mem := rfl
@[simp] theorem logEvent_mem (c q : Nat) (e : Word) : (logEvent c q e s).mem = s.mem := by unfold logEvent; split <;> rfl
@[simp] theorem logN_mem (c q e : Nat) : (logN c q e s).mem = s.mem := logEvent_mem c q _
@[simp] theorem dropEvent_snap : (dropEvent s).snap = s.snap := rfl
@[simp] theorem logEvent_snap (c q : Nat) (e : Word) : (logEvent c q e s).snap = s.snap := by unfold logEvent; split <;> rfl
@[simp] theorem logN_snap (c q e : Nat) : (logN c q e s).snap = s.snap := logEvent_snap c q _
@[simp] theorem dropEvent_busReply : (dropEvent s).busReply = s.busReply := rfl
@[simp] theorem logEvent_busReply (c q : Nat) (e : Word) : (logEvent c q e s).busReply = s.busReply := by unfold logEvent; split <;> rfl
@[simp] theorem logN_busReply (c q e : Nat) : (logN c q e s).busReply = s.busReply := logEvent_busReply c q _
@[simp] theorem dropEvent_fresh : (dropEvent s).fresh = s.fresh := rfl
@[simp] theorem logEvent_fresh (c q : Nat) (e : Word) : (logEvent c q e s).fresh = s.fresh := by unfold logEvent; split <;> rfl
@[simp] theorem logN_fresh (c q e : Nat) : (logN c q e s).fresh = s.fresh := logEvent_fresh c q _
@[simp] theorem dropEvent_tai : (dropEvent s).tai = s.tai := rfl
@[simp] theorem logEvent_tai (c q : Nat) (e : Word) : (logEvent c q e s).tai = s.tai := by unfold logEvent; split <;> rfl
@[simp] theorem logN_tai (c q e : Nat) : (logN c q e s).tai = s.tai := logEvent_tai c q _
@[simp] theorem dropEvent_ticks : (dropEvent s).ticks = s.ticks := rfl
@[simp] theorem logEvent_ticks (c q : Nat) (e : Word) : (logEvent c q e s).ticks = s.ticks := by unfold logEvent; split <;> rfl
@[simp] theorem logN_ticks (c q e : Nat) : (logN c q e s).ticks = s.ticks := logEvent_ticks c q _
@[simp] theorem dropEvent_fab : (dropEvent s).fab = s.fab := rfl
@[simp] theorem logEvent_fab (c q : Nat) (e : Word) : (logEvent c q e s).fab = s.fab := by unfold logEvent; split <;> rfl
@[simp] theorem logN_fab (c q e : Nat) : (logN c q e s).fab = s.fab := logEvent_fab c q _
@[simp] theorem dropEvent_pwr : (dropEvent s).pwr = s.pwr := rfl
@[simp] theorem logEvent_pwr (c q : Nat) (e : Word) : (logEvent c q e s).pwr = s.pwr := by unfold logEvent; split <;> rfl
@[simp] theorem logN_pwr (c q e : Nat) : (logN c q e s).pwr = s.pwr := logEvent_pwr c q _
@[simp] theorem dropEvent_time : (dropEvent s).time = s.time := rfl
@[simp] theorem logEvent_time (c q : Nat) (e : Word) : (logEvent c q e s).time = s.time := by unfold logEvent; split <;> rfl
@[simp] theorem logN_time (c q e : Nat) : (logN c q e s).time = s.time := logEvent_time c q _
@[simp] theorem dropEvent_adc : (dropEvent s).adc = s.adc := rfl
@[simp] theorem logEvent_adc (c q : Nat) (e : Word) : (logEvent c q e s).adc = s.adc := by unfold logEvent; split <;> rfl
@[simp] theorem logN_adc (c q e : Nat) : (logN c q e s).adc = s.adc := logEvent_adc c q _
@[simp] theorem dropEvent_filt : (dropEvent s).filt = s.filt := rfl
@[simp] theorem logEvent_filt (c q : Nat) (e : Word) : (logEvent c q e s).filt = s.filt := by unfold logEvent; split <;> rfl
@[simp] theorem logN_filt (c q e : Nat) : (logN c q e s).filt = s.filt := logEvent_filt c q _
@[simp] theorem dropEvent_loop : (dropEvent s).loop = s.loop := rfl
@[simp] theorem logEvent_loop (c q : Nat) (e : Word) : (logEvent c q e s).loop = s.loop := by unfold logEvent; split <;> rfl
@[simp] theorem logN_loop (c q e : Nat) : (logN c q e s).loop = s.loop := logEvent_loop c q _
@[simp] theorem dropEvent_gfm : (dropEvent s).gfm = s.gfm := rfl
@[simp] theorem logEvent_gfm (c q : Nat) (e : Word) : (logEvent c q e s).gfm = s.gfm := by unfold logEvent; split <;> rfl
@[simp] theorem logN_gfm (c q e : Nat) : (logN c q e s).gfm = s.gfm := logEvent_gfm c q _
@[simp] theorem dropEvent_prot : (dropEvent s).prot = s.prot := rfl
@[simp] theorem logEvent_prot (c q : Nat) (e : Word) : (logEvent c q e s).prot = s.prot := by unfold logEvent; split <;> rfl
@[simp] theorem logN_prot (c q e : Nat) : (logN c q e s).prot = s.prot := logEvent_prot c q _
@[simp] theorem dropEvent_scan : (dropEvent s).scan = s.scan := rfl
@[simp] theorem logEvent_scan (c q : Nat) (e : Word) : (logEvent c q e s).scan = s.scan := by unfold logEvent; split <;> rfl
@[simp] theorem logN_scan (c q e : Nat) : (logN c q e s).scan = s.scan := logEvent_scan c q _
@[simp] theorem dropEvent_fio : (dropEvent s).fio = s.fio := rfl
@[simp] theorem logEvent_fio (c q : Nat) (e : Word) : (logEvent c q e s).fio = s.fio := by unfold logEvent; split <;> rfl
@[simp] theorem logN_fio (c q e : Nat) : (logN c q e s).fio = s.fio := logEvent_fio c q _
@[simp] theorem dropEvent_dpx : (dropEvent s).dpx = s.dpx := rfl
@[simp] theorem logEvent_dpx (c q : Nat) (e : Word) : (logEvent c q e s).dpx = s.dpx := by unfold logEvent; split <;> rfl
@[simp] theorem logN_dpx (c q e : Nat) : (logN c q e s).dpx = s.dpx := logEvent_dpx c q _
@[simp] theorem dropEvent_cmd : (dropEvent s).cmd = s.cmd := rfl
@[simp] theorem logEvent_cmd (c q : Nat) (e : Word) : (logEvent c q e s).cmd = s.cmd := by unfold logEvent; split <;> rfl
@[simp] theorem logN_cmd (c q e : Nat) : (logN c q e s).cmd = s.cmd := logEvent_cmd c q _
@[simp] theorem dropEvent_recd : (dropEvent s).recd = s.recd := rfl
@[simp] theorem logEvent_recd (c q : Nat) (e : Word) : (logEvent c q e s).recd = s.recd := by unfold logEvent; split <;> rfl
@[simp] theorem logN_recd (c q e : Nat) : (logN c q e s).recd = s.recd := logEvent_recd c q _
@[simp] theorem dropEvent_net : (dropEvent s).net = s.net := rfl
@[simp] theorem logEvent_net (c q : Nat) (e : Word) : (logEvent c q e s).net = s.net := by unfold logEvent; split <;> rfl
@[simp] theorem logN_net (c q e : Nat) : (logN c q e s).net = s.net := logEvent_net c q _
@[simp] theorem dropEvent_upd : (dropEvent s).upd = s.upd := rfl
@[simp] theorem logEvent_upd (c q : Nat) (e : Word) : (logEvent c q e s).upd = s.upd := by unfold logEvent; split <;> rfl
@[simp] theorem logN_upd (c q e : Nat) : (logN c q e s).upd = s.upd := logEvent_upd c q _

end Sys2Proof.Machine
end

