-- ==== Sys2Proof/WellFormed.lean ====
section
/-! DEFINITION. Which commands can be spelled: every numeric operand fits the field the spec gives it on the wire or in an
event's argument, and an operand that names one of several causes or words names one there is. -/

namespace Sys2Proof

/-- Does a number fit a field of `n` bits? -/
def fits (n v : Nat) : Bool := decide (v < 2 ^ n)

/-- A word address (R10). -/
def wordAddress (a : BitVec 32) : Bool := decide (a.toNat % 4 = 0)

/-- The lower word of an aligned pair, where a 64-bit register has its low word (R48). -/
def lowWord (a : BitVec 32) : Bool := decide (a.toNat % 8 = 0)

/-- A command that its bus, its frame or its pin can carry. -/
def Instr.wf (i : Instr) : Bool :=
  match i with
  | .registerWrite _ _ _ _ => true
  | .snapshotRead _ x => wordAddress x.a && lowWord x.a
  | .highWordRead _ x => wordAddress x.a && !lowWord x.a
  | .lowWordWrite _ a _ => wordAddress a && lowWord a
  | .highWordWrite _ a _ => wordAddress a && !lowWord a
  | .fieldLinkFrame _ => true
  | .tripStrobe _ _ => true
  | .routeWord _ _ _ _ _ _ _ _ _ => true
  | .frameBoundary _ _ _ _ => true
  | .inputImagePublication _ _ => true
  | .fabIndGo _ _ _ => true
  | .indirectAccessDone _ => true
  | .mirrorFrameOpen => true
  | .groupSwapped => true
  | .shadowSlot _ _ => true
  | .tileRetired _ => true
  | .checkNow _ _ _ => true
  | .coldStart _ _ => true
  | .warmStart _ _ _ _ => true
  | .vinLow _ => true
  | .powerFail => true
  | .vinLoss => true
  | .sensorFault _ => true
  | .sensorRetry _ => true
  | .resetN _ _ => true
  | .sysResetCtrlGo _ _ => true
  | .watchdogExpiry => true
  | .fatalFault => true
  | .sleep _ => true
  | .wake _ _ _ => true
  | .rtcLoad => true
  | .refLost _ _ => true
  | .pllCoast _ => true
  | .refRestored _ => true
  | .pllRelocked _ => true
  | .refFallback => true
  | .ptpSync _ _ => true
  | .ptpAnnounce _ _ => true
  | .timing _ _ => true
  | .ppsInEdge _ => true
  | .timeSourceLost src => decide (src ≠ 0)
  | .ppsOutPulse => true
  | .timeStepGo _ _ => true
  | .trigArm _ _ _ => true
  | .trigDisarm _ _ _ => true
  | .trigFire _ => true
  | .adcRun _ _ _ => true
  | .adcStop _ _ _ => true
  | .adcCal _ _ _ => true
  | .adcCommit _ _ _ => true
  | .adcStartEvent _ _ => true
  | .adcConversion _ _ => true
  | .adcCalDone _ _ => true
  | .hardCmp _ => true
  | .bandCrossing _ _ _ => true
  | .deadTimeElapsed _ => true
  | .deferredDecision _ => true
  | .modStuck _ _ => true
  | .filtStreamRecovered _ => true
  | .chainOutput _ _ => true
  | .fastOutput _ _ => true
  | .filterService _ => true
  | .filtCfgWrite _ _ _ => true
  | .filtRestarted _ => true
  | .loopSample _ _ => true
  | .outputInstant _ => true
  | .bandUpdate _ _ _ _ => true
  | .carrierEvent _ _ => true
  | .profileStep _ => true
  | .stageStart _ _ _ => true
  | .stageStop _ _ _ => true
  | .innerChange _ _ _ => true
  | .gdfActive _ => true
  | .pwmBlockWrite _ _ => true
  | .gateReleaseWrite _ _ => true
  | .gfmStart _ _ _ => true
  | .gfmStop _ _ _ => true
  | .gfmAck _ _ _ => true
  | .lineClassify _ _ => true
  | .lineDeadConfirmed _ _ => true
  | .lineLiveConfirmed _ _ => true
  | .contactorCheck _ => true
  | .slotInstant _ => true
  | .backoffExpiry _ => true
  | .rampComplete _ => true
  | .blackstartAbort _ => true
  | .syncClose _ _ => true
  | .syncTimeout _ => true
  | .limitHeld _ => true
  | .limitRelease _ => true
  | .rideResume _ _ => true
  | .rideExpired _ => true
  | .gfmTimeMode _ => true
  | .phasorUpdate _ _ => true
  | .protOperate _ _ _ => true
  | .fast50p _ _ _ _ => true
  | .freqTrack _ => true
  | .thermalUpdate _ => true
  | .thermalSave => true
  | .lmdArmed => true
  | .lmdNoFeeder => true
  | .bkrRetrip _ => true
  | .bkrFail _ => true
  | .tripCommandEnd _ => true
  | .bkrDiscrepancy _ => true
  | .tcAlarm _ => true
  | .tcRestored _ => true
  | .unit32Operate _ => true
  | .recCtrlArm _ _ => true
  | .recCtrlDisarm _ _ => true
  | .recCtrlTrigger _ _ => true
  | .captureSample _ => true
  | .storedRow _ => true
  | .levelTrigger _ _ => true
  | .recMaskViolation _ _ => true
  | .binaryChange _ _ => true
  | .recTriggered _ => true
  | .recClosed => true
  | .recStored => true
  | .recRearm => true
  | .taskRelease _ _ => true
  | .cycleStart _ _ => true
  | .cycleComplete _ _ _ _ => true
  | .scanTrap _ _ cause => decide (cause = 1 ∨ cause = 2 ∨ cause = 4)
  | .scanRun _ _ _ => true
  | .scanStop _ _ _ => true
  | .scanHold _ _ _ => true
  | .scanStep _ _ _ => true
  | .holdEnded _ => true
  | .retainCommit => true
  | .scanAutostart _ => true
  | .progSwap _ => true
  | .remoteSet _ _ _ => true
  | .remoteStale _ _ => true
  | .diSample _ => true
  | .doOverload _ _ => true
  | .doRetry _ => true
  | .doOverloadRelease _ _ _ => true
  | .demagExcess _ mj => fits 16 mj
  | .doMonitor _ dv => fits 16 dv
  | .fieldLow _ _ => true
  | .fieldLost _ _ => true
  | .fieldRestored _ _ => true
  | .fieldAck _ _ _ => true
  | .groupKill _ _ _ _ => true
  | .strobeMismatch _ => true
  | .tripShort _ => true
  | .tripOvertime _ => true
  | .tripCooldownEnd _ => true
  | .vtripLow _ => true
  | .tripSupervision _ _ => true
  | .tripExtDrive _ dv => fits 16 dv
  | .safeStateEntered => true
  | .safeStateLeft => true
  | .heartbeat _ _ => true
  | .heartbeatSend _ => true
  | .pathDown _ => true
  | .pathUp _ _ => true
  | .partnerLost => true
  | .mirror _ _ => true
  | .mirrorGfm _ _ => true
  | .retain _ _ => true
  | .dying _ reason => fits 8 reason
  | .switch _ _ => true
  | .switchAck _ _ => true
  | .switchCancel _ _ => true
  | .syncReq _ _ => true
  | .syncData _ _ => true
  | .settings _ _ _ => true
  | .listenTimeout => true
  | .probe _ _ => true
  | .probeReply _ => true
  | .probeTimeout => true
  | .releaseTimer => true
  | .degradedProbe => true
  | .dpxSwitch _ _ => true
  | .dpxCancel _ _ => true
  | .switchDeadline => true
  | .switchInstant => true
  | .syncDone => true
  | .digestUpdate => true
  | .syncReqRetry => true
  | .linkUp _ _ => true
  | .linkDown _ => true
  | .prpLanLost _ => true
  | .prpLanRestored _ => true
  | .pdPublish _ => true
  | .pdTimeout _ => true
  | .canBusOff _ tec => fits 16 tec
  | .canRecovery _ => true
  | .mvbLineFail _ => true
  | .modbusTimeout _ => true
  | .tlsHandshake _ _ => true
  | .fiArm _ _ _ => true
  | .fiDisarm _ _ _ => true
  | .fiStart _ => true
  | .fiFrame _ _ _ x => decide (x.bytes.length ≤ 1522)
  | .fiRelease _ => true
  | .cmdDoorbell _ _ => true
  | .chanReset _ _ => true
  | .channelIdle _ => true
  | .identify _ => true
  | .readRegs _ _ n => fits 32 n
  | .writeRegs _ _ ws => decide (ws.length ≤ 16379)
  | .opStatus _ => true
  | .opList _ => true
  | .opSuspend _ => true
  | .opResume _ => true
  | .opCancel _ => true
  | .opRelease _ => true
  | .opEnded _ => true
  | .opExpired _ => true
  | .eventRead _ _ count _ _ => fits 32 count
  | .evtLost => true
  | .settingsRead _ _ _ => true
  | .settingsWrite _ _ => true
  | .reset _ _ => true
  | .forceSet _ _ _ _ _ => true
  | .forceClear _ _ _ => true
  | .forceList _ => true
  | .scanCtrl _ _ _ => true
  | .recArm _ => true
  | .recDisarm _ => true
  | .recTrigger _ => true
  | .recList _ => true
  | .recLock _ _ => true
  | .recUnlock _ _ => true
  | .recDelete _ _ => true
  | .recExport _ _ => true
  | .fileRead _ _ _ off len => fits 32 off && fits 32 len
  | .imageBegin _ kind length _ => fits 16 kind && fits 32 length
  | .imageData _ block off len _ => fits 32 block && fits 32 off && fits 32 len
  | .imageVerify _ kind => fits 16 kind
  | .imageActivate _ _ _ => true
  | .imageConfirm _ kind => fits 16 kind
  | .imageAbandon _ kind => fits 16 kind
  | .switchover _ => true
  | .serviceState _ t => fits 8 t.value
  | .canFrameReceived _ id data => fits 29 id && decide (data.length ≤ 2)
  | .mvbMasterFrame _ _ => true
  | .modbusFrameReceived _ _ => true
  | .evtSel _ _ => true
  | .settingsApplied => true
  | .imageVerified => true
  | .supervisorRestart => true
  | .trialExpired => true
  | .deferredRevert => true
  | .commissioningEnd => true
  | .gdfInactive _ => true
  | .hardLiveCleared _ => true
  | .compareMatch _ _ => true
  | .vinLowCleared _ => true
  | .vtripRestored _ => true
  | .fieldLowCleared _ _ => true
  | .sessionClosed _ => true
  | .canTxCycle _ _ => true
  | .modbusPoll _ => true

end Sys2Proof
end

