-- ==== Sys2Proof/Tests/Slice0.lean ====
section
/-! SUPPORT. Tests of the model: a malformed command for each check of well-formedness; for each statement with hypotheses a
state and operands that meet all of them, clause by clause, at the edges of their ranges; and the spec's own worked values. -/

set_option maxRecDepth 100000
set_option Elab.async false

namespace Sys2Proof.Tests

open Sys2Proof Sys2Proof.Machine Sys2Proof.Safety

/-- The reset state with the part running. -/
def idle : State := { State.reset with pwr := { State.reset.pwr with phase := .running } }

/-- A running part with these words in registers. -/
def st (l : List (Nat × Word)) : State := l.foldl (fun s p => wr s p.1 p.2) idle

/-- A running part with these register fields set. -/
def sf (l : List (Nat × Fld × Nat)) : State := l.foldl (fun s p => setF s p.1 p.2.1 p.2.2) idle

/-- Do these hold of the state that a command answers? -/
def after (c : Instr) (s : State) (p : State → Bool) : Bool :=
  match exec c s with
  | .next t => p t
  | _ => false

/-- A structure change, in a phase, of a full image with nothing in it. -/
def changing (p : ChangePhase) : State := { idle with fab := { idle.fab with change := some { image := {}, phase := p }, running := some {} } }

/-- The head of an image of a kind that passes checks 1 to 6: its sections, empty, stand after the table. -/
def goodHead (k : Fin 4) (types : List (BitVec 16)) : ImageHead where
  magic := kindMagic k
  length := 64 + 16 * types.length + 196
  received := 64 + 16 * types.length + 196
  sections := types.map (fun ty => { type := ty, offset := 64 + 16 * types.length, length := 0 })

/-- A part off power, with images that pass every check. -/
def loaded : State := { State.reset with upd := { State.reset.upd with
  boot := some (goodHead 3 [1]), firmware := #v[some { head := goodHead 2 [1], version := 5 }, none],
  pitch := #v[some ⟨{ head := goodHead 0 (neededTypes true) }, []⟩, none], stake := { serial := 77 } } }

/-- The factors of an exact converter. -/
def cal : Vector CalSet 4 := Vector.replicate 4 ⟨Vector.replicate 4 0, Vector.replicate 4 0x8000⟩

/-- A unit that does not hold the ACTIVE role. -/
def standby : List (Nat × Fld × Nat) :=
  [(Reg.DPX_CFG, F.DPX_CFG_en, 1), (Reg.DPX_STATUS, F.DPX_STATUS_state, 5), (Reg.DPX_STATUS, F.DPX_STATUS_role, 2)]

/-- Stage 0 of a kind and in a mode, with its machinery in a state and more fields set. -/
def stage (kind mode : Nat) (x : StageState) (l : List (Nat × Fld × Nat)) : State :=
  let s := sf ((Reg.CTRL_STAGE_CFG 0, F.CTRL_STAGE_CFG_kind, kind) :: (Reg.CTRL_STAGE_STATE 0, F.CTRL_STAGE_STATE_mode, mode) :: l);
  { s with loop := { s.loop with stages := s.loop.stages.set 0 x } }

/-- Grid-forming stage 0 in a state of Table 8.3 on the ACTIVE unit, rated, its contactor configured and commanded, the part ready. -/
def grid (state mode : Nat) (closed fb : Bool) (x : GfmStage) (l : List (Nat × Fld × Nat)) : State :=
  let s := stage kindGridForming mode {} ([(Reg.GFM_STATE 0, F.GFM_STATE_state, state), (Reg.GFM_STATE 0, F.GFM_STATE_cont_cmd, b2n closed),
    (Reg.SYS_STATUS, F.SYS_STATUS_ready, 1), (Reg.GFM_CONT 0, F.GFM_CONT_en, 1), (Reg.FIO_DI_STATE, F.FIO_DI_STATE_debounced, b2n fb),
    (Reg.GFM_CFG 0, F.GFM_CFG_blackstart, 1), (Reg.GFM_RT 0, F.GFM_RT_v_dc_stop, 0), (Reg.GFM_RATING 0, F.GFM_RATING_v_r, 400),
    (Reg.GFM_RATING 0, F.GFM_RATING_s_r, 1000), (Reg.GFM_SCALE 0, F.GFM_SCALE_v_fs, 1000), (Reg.GFM_SCALE 0, F.GFM_SCALE_i_fs, 10000)] ++ l);
  { s with gfm := { s.gfm with stages := s.gfm.stages.set 0 x } }

/-- A program with one plain, one output and one input symbol, which starts on its own. -/
def prog : ScanProgram where
  buildId := 7
  periods := Vector.replicate 8 1
  symbols := [{ id := 1, ty := 1, item := .plain, retained := true, init := 5 }, { id := 2, ty := 1, item := .doCommand 3 }, { id := 3, ty := 1, item := .diState 0 }]

/-- Core 1 in a mode, with its machinery in a state and more fields set. -/
def scan (mode : Nat) (x : ScanCore) (l : List (Nat × Fld × Nat)) : State :=
  let s := sf ((Reg.SCAN_STATE 1, F.SCAN_STATE_mode, mode) :: l);
  { s with scan := { s.scan with cores := s.scan.cores.set 1 x } }

/-- A core that holds the program, all tasks in this state. -/
def tasks (y : ScanTask) : ScanCore := { prog := some prog, tasks := Vector.replicate 8 y }

/-- A plan of analogue channel 0 on a routed input, k 2, in a state, with its machinery in a state. -/
def rec (state : Nat) (x : RecState) (l : List (Nat × Fld × Nat)) : State :=
  let s := sf ([(Reg.REC_STATUS, F.REC_STATUS_state, state), (Reg.REC_ACH 0, F.REC_ACH_en, 1), (Reg.REC_CFG, F.REC_CFG_k, 2),
    (Reg.REC_CFG, F.REC_CFG_stream, 0)] ++ l);
  { s with recd := x, fab := { s.fab with running := some { captureInputs := [(0, 0)] } } }

/-! ### Malformed commands: one for each check -/

theorem test_wf_snapshot_read : (Instr.snapshotRead 0 { a := 0x40030004 }).wf = false ∧ (Instr.snapshotRead 0 { a := 0x40030001 }).wf = false := by decide
theorem test_wf_high_word_read : (Instr.highWordRead 0 { a := 0x40030000 }).wf = false ∧ (Instr.highWordRead 0 { a := 0x40030005 }).wf = false := by decide
theorem test_wf_low_word_write : (Instr.lowWordWrite 0 0x40030004 0).wf = false ∧ (Instr.lowWordWrite 0 0x40030002 0).wf = false := by decide
theorem test_wf_high_word_write : (Instr.highWordWrite 0 0x40030000 0).wf = false ∧ (Instr.highWordWrite 0 0x40030006 0).wf = false := by decide
theorem test_wf_time_source_lost : (Instr.timeSourceLost 0).wf = false := by decide
theorem test_wf_scan_trap : (Instr.scanTrap 0 0 3).wf = false ∧ (Instr.scanTrap 0 0 0).wf = false := by decide
theorem test_wf_demag_excess : (Instr.demagExcess 0 0x10000).wf = false := by decide
theorem test_wf_do_monitor : (Instr.doMonitor 0 0x10000).wf = false := by decide
theorem test_wf_trip_ext_drive : (Instr.tripExtDrive 0 0x10000).wf = false := by decide
theorem test_wf_dying : (Instr.dying {} 256).wf = false := by decide
theorem test_wf_can_bus_off : (Instr.canBusOff 0 0x10000).wf = false := by decide
theorem test_wf_fi_frame : (Instr.fiFrame 0 false 0 { bytes := List.replicate 1523 0 }).wf = false := by decide +kernel
theorem test_wf_read_regs : (Instr.readRegs {} 0 (2 ^ 32)).wf = false := by decide
theorem test_wf_write_regs : (Instr.writeRegs {} 0 (List.replicate 16380 0)).wf = false := by decide +kernel
theorem test_wf_event_read : (Instr.eventRead {} 0 (2 ^ 32) 0 0).wf = false := by decide
theorem test_wf_file_read : (Instr.fileRead {} 0 0 (2 ^ 32) 0).wf = false ∧ (Instr.fileRead {} 0 0 0 (2 ^ 32)).wf = false := by decide
theorem test_wf_image_begin : (Instr.imageBegin {} 0x10000 0 0).wf = false ∧ (Instr.imageBegin {} 0 (2 ^ 32) 0).wf = false := by decide
theorem test_wf_image_data : (Instr.imageData {} (2 ^ 32) 0 0 ⟨.boot {}, 0⟩).wf = false ∧
    (Instr.imageData {} 0 (2 ^ 32) 0 ⟨.boot {}, 0⟩).wf = false ∧ (Instr.imageData {} 0 0 (2 ^ 32) ⟨.boot {}, 0⟩).wf = false := by decide
theorem test_wf_image_verify : (Instr.imageVerify {} 0x10000).wf = false := by decide
theorem test_wf_image_confirm : (Instr.imageConfirm {} 0x10000).wf = false := by decide
theorem test_wf_image_abandon : (Instr.imageAbandon {} 0x10000).wf = false := by decide
theorem test_wf_service_state :
    (Instr.serviceState {} { request := 0, value := 256, serial := 0, nonce := 0, notAfter := 0 }).wf = false := by decide
theorem test_wf_can_frame : (Instr.canFrameReceived 0 (2 ^ 29) []).wf = false ∧
    (Instr.canFrameReceived 0 0 [0, 0, 0]).wf = false := by decide

/-- The largest operands that each check takes. -/
theorem test_wf_edges : [Instr.snapshotRead 0 { a := 0x40030000 }, .highWordRead 0 { a := 0x40030004, early := true }, .lowWordWrite 0 0x40030000 0,
    .highWordWrite 0 0x40030004 0, .timeSourceLost 1, .scanTrap 0 0 4, .demagExcess 0 0xFFFF, .dying {} 255,
    .canBusOff 0 0xFFFF, .readRegs {} 0 (2 ^ 32 - 1), .canFrameReceived 0 (2 ^ 29 - 1) [0, 0]].all Instr.wf = true := by decide

/-! ### Chapters 0 to 2: the bus, the fabric -/

theorem test_meets_IdleTick : idle.pending = [] ∧ idle.log.entries.length ≤ 4096 ∧ idle.net.arrived = [] ∧ nextQueue idle 0 = none ∧
    nextQueue idle 1 = none ∧
    (let s := setNet { idle.net with arrived := [.vinLoss] } idle; s.pending = [] ∧ s.net.arrived = .vinLoss :: []) := by decide +kernel

theorem test_meets_StepKeepsSound : Sound State.reset ∧ ∃ t, step State.reset = .next t :=
  ⟨⟨by decide +kernel, by decide +kernel, by decide +kernel, by decide, by decide⟩, _, rfl⟩

theorem test_meets_MemoryUntouched : Part.mem ∉ (touches .switchInstant).parts ∧ ∃ t, exec .switchInstant idle = .next t :=
  ⟨by decide +kernel, _, rfl⟩

theorem test_meets_CommandFootprint : ∃ t, exec (.trigFire 7) idle = .next t := ⟨_, rfl⟩

/-- A register write and two reads that master 6 may make, one byte wide, or a word off alignment by 1 or by 3. -/
theorem test_meets_WrongWidthIsBusError : busRegion 0x40030000 = some .registers ∧
    Served 6 true 0x40030000 (accBytes .byte) idle ∧ Served 6 true 0x40030000 (accBytes .dword) idle ∧
    Served 6 true 0x40030001 (accBytes .word) idle ∧ Served 6 false 0x40030003 (accBytes .word) idle ∧
    Served 6 false 0x40030000 (accBytes .dword) idle := by decide +kernel

theorem test_meets_DeniedAccess : dieRuns idle = true ∧ Room 1 idle ∧ reaches idle 4 true 0x40030000 = false ∧
    busRegion 0x40150000 = none ∧ busRegion 0x7FFFFFFF = none ∧ reaches idle 6 false 0xFFFFFFFF = false ∧
    (reaches idle 6 true (0x4014FFFC + accBytes .dword - 1) = false ∧ 0x4003FFFF / 0x10000 = 0x4003) := by decide +kernel

/-- Offset 0x0FFC of the TIME window has no register. -/
theorem test_meets_NoRegisterThere : busRegion 0x40030FFC = some .registers ∧ inMailbox 0x40030FFC = false ∧
    findReg (canonReg 0x40030FFC) = none ∧ Served 6 true 0x40030FFC 4 idle ∧ Served 6 false 0x40030FFC 4 idle := by decide +kernel

theorem test_meets_SnapshotRead : busRegion 0x40030000 = some .registers ∧ Served 6 false 0x40030000 4 idle ∧ inMailbox 0x40030000 = false ∧
    (findReg (canonReg 0x40030000)).any (fun r => r.wide && !r.isHigh (canonReg 0x40030000)) = true := by decide +kernel

theorem test_meets_HighWordRead : busRegion 0x40030004 = some .registers ∧ Served 6 false 0x40030004 4 idle ∧ inMailbox 0x40030004 = false ∧
    (findReg (canonReg 0x40030004)).any (fun r => r.wide && r.isHigh (canonReg 0x40030004)) = true ∧
    ({ idle with snap := idle.snap.set 6 (.read (canonReg 0x40030000) 9) } : State).snap[(6 : Fin 8)] = .read (canonReg 0x40030004 - 4) 9 ∧
    idle.snap[(6 : Fin 8)] = .empty := by decide +kernel

/-- PWR_RTC is written whole; TIME_NOW is read-only in both halves. -/
theorem test_meets_WideWrite :
    (Served 6 true Reg.PWR_RTC 4 idle ∧ (findReg (canonReg Reg.PWR_RTC)).any (fun r => r.wide && !r.isHigh Reg.PWR_RTC && r.hiRW) = true) ∧
    (findReg (canonReg (Reg.PWR_RTC + 4))).any (fun r => r.wide && r.isHigh (Reg.PWR_RTC + 4) && r.hiRW) = true ∧
    (Served 6 true 0x40030004 4 idle ∧ (findReg (canonReg 0x40030004)).any (fun r => r.wide && r.isHigh 0x40030004 && !r.hiRW) = true) ∧
    ({ idle with snap := idle.snap.set 6 (.held Reg.PWR_RTC 9) } : State).snap[(6 : Fin 8)] = .held (canonReg (Reg.PWR_RTC + 4) - 4) 9 ∧
    idle.snap[(6 : Fin 8)] = .empty ∧ wideWritable Reg.PWR_RTC idle ∧ wideWritable (Reg.TIME_TRIG_TARGET 0) idle := by decide +kernel

theorem test_meets_AccessCodes : Served 6 true Reg.PWR_WAKE 4 idle ∧ Reg.PWR_WAKE / 0x10000 = 0x4001 ∧ Reg.PWR_WAKE % 4 = 0 ∧
    (findReg Reg.PWR_WAKE).any (fun r => !r.wide) = true ∧
    (findReg Reg.SYS_SNAP_MISS).any (fun r => !r.wide) = true ∧ Reg.PWR_WAKE ∉ [Reg.SYS_RESET_CTRL, Reg.PWR_SENSOR, Reg.DPX_CFG, Reg.DPX_CMD, Reg.UPD_TRIAL_CFG] := by decide +kernel

/-- Bank memory by the supervisor, ROM, and the last word of each alias by its core. -/
theorem test_meets_MemoryAccess :
    (Served 0 true 0x20000000 (accBytes .dword) idle ∧ busRegion 0x20000000 ≠ some .registers ∧ 0x20000 ≤ physical idle 0 0x20000000) ∧
    (Served 0 true 0x1FFFF (accBytes .byte) idle ∧ physical idle 0 0x1FFFF < 0x20000) ∧
    (Served 0 false 0x20000000 4 idle ∧ (∀ i < 4, inRepair (physical idle 0 0x20000000 + i) = false)) ∧ 0x1FFFC + 4 ≤ 0x20000 ∧
    Served 4 true 0x2021FFFC 4 idle ∧ Served 5 true 0x2025FFFC 4 idle := by decide +kernel

theorem test_meets_RouteWord : Room 1 idle := by decide +kernel
theorem test_meets_IndirectAccess :
    (Served 0 true (Reg.FAB_IND_CTRL 3) 4 idle ∧ flg idle (Reg.FAB_IND_CTRL 3) F.FAB_IND_CTRL_busy = false) ∧
    (let s := sf [(Reg.FAB_IND_ADDR 0, F.FAB_IND_ADDR_tile, 16), (Reg.FAB_IND_ADDR 0, F.FAB_IND_ADDR_word, 1023),
        (Reg.FAB_IND_ADDR 0, F.FAB_IND_ADDR_space, 2)];
      fld s (Reg.FAB_IND_ADDR 0) F.FAB_IND_ADDR_tile = 16 ∧ indRefused s 0 15 2 = false) ∧
    (let s := sf [(Reg.FAB_IND_ADDR 0, F.FAB_IND_ADDR_tile, 17)];
      16 < fld s (Reg.FAB_IND_ADDR 0) F.FAB_IND_ADDR_tile ∧ flg s (Reg.FAB_IND_CTRL 0) F.FAB_IND_CTRL_busy = false) ∧
    (flg (sf [(Reg.FAB_IND_CTRL 0, F.FAB_IND_CTRL_busy, 1)]) (Reg.FAB_IND_CTRL 0) F.FAB_IND_CTRL_busy = true) ∧
    (idle.fab.ind[(0 : Fin 4)] = none) ∧
    (let s := { idle with fab := { idle.fab with ind := idle.fab.ind.set 0 (some ⟨16, 2, 1023, some 7⟩) } };
      s.fab.ind[(0 : Fin 4)] = some ⟨16, 2, 1023, some 7⟩) ∧
    (let s := { idle with fab := { idle.fab with ind := idle.fab.ind.set 3 (some ⟨0, 0, 0, none⟩) } };
      s.fab.ind[(3 : Fin 4)] = some ⟨0, 0, 0, none⟩) := by decide +kernel

/-- Cluster 0 with spare 16 and the check enabled; tile 0 LIVE in its slot 5. -/
def spare : State := sf [(Reg.FAB_STATUS 0, F.FAB_STATUS_spare_idx, 16), (Reg.FAB_SHADOW_CTRL 0, F.FAB_SHADOW_CTRL_enable, 1),
  (Reg.FAB_TILE 0 0, F.FAB_TILE_state, tileLive), (Reg.FAB_TILE 0 0, F.FAB_TILE_slot, 5)]

/-- Cluster 0 with a session in a phase and with an outcome. -/
def session (n : Nat) (o : ShadowOutcome) : State := { spare with fab := { spare.fab with
  clusters := spare.fab.clusters.set 0 { spare.fab.clusters[0] with session := some ⟨0, n, o, tileWordOf spare 0 0⟩ } } }

theorem test_meets_ShadowCheck : spareOf spare 0 = some 16 ∧ spareOf (sf [(Reg.FAB_STATUS 1, F.FAB_STATUS_spare_idx, 31)]) 1 = none ∧ Served 0 true (Reg.FAB_SHADOW_CTRL 0) 4 spare ∧
    (let s := { spare with fab := { spare.fab with clusters := spare.fab.clusters.set 0 { spare.fab.clusters[0] with due := some (3, {}) } } };
      spareOf s 0 = some 16 ∧ s.fab.clusters[(0 : Fin 4)].session = none ∧ s.fab.clusters[(0 : Fin 4)].due = some (3, {}) ∧
      changeConcerns s 0 = false ∧ flg s (Reg.FAB_SHADOW_CTRL 0) F.FAB_SHADOW_CTRL_enable = true) ∧
    (∀ p : Fin 4, 1 ≤ p.val → let o : ShadowOutcome := { selfTestOk := p.val != 1, differ := p.val == 2 };
      let s := session p o; let x : ShadowSession := ⟨0, p, o, tileWordOf spare 0 0⟩;
      spareOf s 0 = some 16 ∧ s.fab.clusters[(0 : Fin 4)].session = some x ∧ x.tile = tileWordOf s 0 x.idx ∧ x.phase = p.val ∧
        (x.phase = 1 → x.out.selfTestOk = false ∧ s.fab.clusters[(0 : Fin 4)].due = none ∧
          flg s (Reg.FAB_SHADOW_CTRL 0) F.FAB_SHADOW_CTRL_check_now = false) ∧
        (x.phase = 2 → x.out.differ = true) ∧ (x.phase = 3 → x.out.differ = false)) := by decide +kernel

theorem test_meets_FrameBoundary : 4000000 * nextMs idle + 5 ≤ 2 ^ 66 ∧
    4000000 * nextMs { idle with tai := BitVec.ofNat 66 (2 ^ 66 - 8000001) } + 5 ≤ 2 ^ 66 ∧
    (let s := { spare with fab := { spare.fab with clusters := spare.fab.clusters.set 0 { spare.fab.clusters[(0 : Fin 4)] with relocate := some 0 } } };
      s.fab.clusters[(0 : Fin 4)].relocate = some 0 ∧ spareOf s 0 = some 16 ∧ s.fab.change = none ∧
      s.fab.clusters[(0 : Fin 4)].session = none ∧ s.fab.clusters[(0 : Fin 4)].due = none ∧
      flg s (Reg.FAB_SHADOW_CTRL 0) F.FAB_SHADOW_CTRL_check_now = false) := by decide +kernel

theorem test_meets_StructureChange :
    ((changing .contextsWritten).fab.change = some { image := {}, phase := .contextsWritten } ∧
      ({ image := {}, phase := .contextsWritten } : StructChange).opSlot = none) ∧
    (changing .mirror).fab.change = some { image := {}, phase := .mirror } := by decide +kernel

/-- R32: with the counter at 0.25 ns past 7 ms, the next boundary stands at 8 ms. -/
theorem test_frame_boundary_instant :
    after (.frameBoundary {} {} {} {}) { idle with tai := 28000001 } (fun t => t.tai == 32000001) = true := by decide +kernel

/-! ### Chapter 3: supply, reset, starts -/

theorem test_meets_Supply :
    (flg idle Reg.PWR_STATUS F.PWR_STATUS_vin_low = false ∧ Room 1 idle) ∧
    (flg (sf [(Reg.PWR_STATUS, F.PWR_STATUS_vin_low, 1)]) Reg.PWR_STATUS F.PWR_STATUS_vin_low = true) ∧
    (timeIsLocked (sf [(Reg.TIME_STATE, F.TIME_STATE_state, timeLocked)]) = true ∧ timeIsLocked idle = false) ∧
    (let on := { idle with pwr := { idle.pwr with rail15 := { isOn := true, retries := 3 }, rail5 := { isOn := true, retries := 2 } } };
      (railOf on 0).isOn = true ∧ (railOf on 1).isOn = true ∧ localNs on ≤ (railOf on 0).onAt + 30000000) ∧
    (let s0 := sf [(Reg.PWR_SENSOR, F.PWR_SENSOR_en_15, 1), (Reg.PWR_SENSOR, F.PWR_SENSOR_en_5, 1)];
      let s := { s0 with pwr := { s0.pwr with rail15 := { waiting := true }, rail5 := { waiting := true } } };
      (railOf s 0).waiting = true ∧ railEnabled s 0 = true ∧ (railOf s 1).waiting = true ∧ railEnabled s 1 = true) := by decide +kernel

/-- Both sides of each bound of R87 and the key. -/
theorem test_meets_Resets : dieRuns idle = true ∧ idle.pwr.phase = .running ∧ Served 0 true Reg.SYS_RESET_CTRL 4 idle ∧
    getF 0x0A5F0001 F.SYS_RESET_CTRL_key = 0x0A5F ∧ getF 0x0A5F0003 F.SYS_RESET_CTRL_cold = 1 ∧
    getF 0x0A5E0001 F.SYS_RESET_CTRL_key ≠ 0x0A5F := by decide +kernel

theorem test_reset_n_bounds :
    after (.resetN 9999 false) idle (fun t => t.pwr.phase == .running) = true ∧
    after (.resetN 10000 false) idle (fun t => t.pwr.phase == .held) = true ∧
    after (.resetN 1000 true) idle (fun t => t.pwr.phase == .held) = true := by decide +kernel

theorem test_meets_SupplyLoss : idle.pwr.phase ≠ .unusable ∧
    ({ idle with pwr := { idle.pwr with phase := .unusable } } : State).pwr.phase = .unusable ∧
    calReg Reg.PWR_STATUS = false ∧ ∀ f < 8, Reg.PWR_STATUS ≠ Reg.PROT_FDR_COUNT f := by decide +kernel

theorem loaded_bootable : Bootable {} loaded :=
  ⟨by decide, by decide +kernel, by decide +kernel, by decide +kernel, by decide, by decide +kernel, by decide +kernel,
    ⟨goodHead 3 [1], by decide +kernel, by decide +kernel⟩,
    ⟨⟨{ head := goodHead 0 (neededTypes true) }, []⟩, by decide +kernel, by decide +kernel, by decide +kernel⟩,
    ⟨{ head := goodHead 2 [1], version := 5 }, by decide +kernel, by decide +kernel⟩⟩

/-- The same part held for a warm start, asleep, and released. -/
def warmHeld : State := { loaded with pwr := { loaded.pwr with askWarm := true, lantern := true } }
def slept : State := { loaded with pwr := { loaded.pwr with phase := .asleep } }
def freed : State := setF { loaded with pwr := { loaded.pwr with phase := .running } } Reg.DPX_STATUS F.DPX_STATUS_state dpxReleased

theorem test_meets_Starts :
    (loaded.pwr.phase = .held ∧ loaded.pwr.askWarm = false) ∧ (freed.pwr.phase = .running ∧ dpxState freed = dpxReleased) ∧
    (warmHeld.pwr.phase = .held ∧ warmHeld.pwr.askWarm = true ∧ warmHeld.pwr.lantern = true ∧ warmFault false true warmHeld ≠ none) ∧
    (slept.pwr.phase = .asleep ∧ wakeEnabled 128 slept ≠ 0) ∧ stakeOk loaded = true ∧
    (3 ≤ ({ loaded with upd := { loaded.upd with failedBoots := 3 } } : State).upd.failedBoots) ∧
    (let s := { idle with pwr := { idle.pwr with phase := .kindling } }; s.pwr.phase = .kindling ∧ s.pwr.sleepFrom = none) := by
  decide +kernel

theorem test_meets_Starts_bootable : Bootable {} warmHeld ∧ Bootable {} slept ∧
    Bootable {} { freed with upd := { freed.upd with failedBoots := 0, trialDue := 0, migrateFail := false } } := by
  obtain ⟨a, b, c, d, e, f, g, h, i, j⟩ := loaded_bootable
  refine ⟨⟨a, b, c, d, e, f, g, h, ?_, j⟩, ⟨a, b, c, d, e, f, g, h, ?_, j⟩, ⟨a, by decide +kernel, by decide +kernel, by decide, e, by decide +kernel, by decide, ?_, ?_, ?_⟩⟩
  · exact ⟨⟨{ head := goodHead 0 (neededTypes true) }, []⟩, by decide +kernel, by decide +kernel, by decide +kernel⟩
  · exact ⟨⟨{ head := goodHead 0 (neededTypes true) }, []⟩, by decide +kernel, by decide +kernel, by decide +kernel⟩
  · exact ⟨goodHead 3 [1], by decide +kernel, by decide +kernel⟩
  · exact ⟨⟨{ head := goodHead 0 (neededTypes true) }, []⟩, by decide +kernel, by decide +kernel, by decide +kernel⟩
  · exact ⟨{ head := goodHead 2 [1], version := 5 }, by decide +kernel, by decide +kernel⟩
/-! ### Chapter 4: clocks and time -/

/-- Time in SLEWING on source `src`, listed first and valid. -/
def slew (src : Nat) (h : src < 5) : State :=
  let s := sf [(Reg.TIME_STATE, F.TIME_STATE_state, timeSlewing), (Reg.TIME_STATE, F.TIME_STATE_source, src),
    (Reg.TIME_SRC_CFG, F.TIME_SRC_CFG_first, src), (Reg.DPX_STATUS, F.DPX_STATUS_role, 2), (Reg.DPX_STATUS, F.DPX_STATUS_path_up, 2),
    (Reg.TIME_JUMP_LIMIT, ⟨0, 32⟩, 1000)];
  { s with time := { s.time with valid := s.time.valid.set src true } }

/-- Sync of PTP port 0 and TIMING on path 1 (path 0 down), taken, too far, and with nothing to measure for; the selected edge of PPS_IN. -/
theorem test_meets_TimeMeasurements :
    (let s := slew 1 (by decide); let x : PtpSync := { origin := 1 }; Clear (portUnit 0) s ∧ Clear (portUnit 1) s ∧
      ptpMine x.domain x.udp s = true ∧ ptpMine 1 x.udp s = false ∧ uses 1 s = true ∧ timeState s ≠ timeUnset ∧
      (syncOffset 0 0 x s * 16384000 - (servoFor 1 s).pred).natAbs ≤ jumpLimit s * 65536000 ∧
      jumpLimit s * 65536000 < (syncOffset 0 0 { x with origin := 5000 } s * 16384000 - (servoFor 1 s).pred).natAbs ∧
      (servoFor 1 s).candCount + 1 < confirmCount s) ∧
    (let s := slew 3 (by decide); Clear (guyUnit 1) s ∧ uses 3 s = true ∧ fld s Reg.DPX_STATUS F.DPX_STATUS_role = 2 ∧
      fbit s Reg.DPX_STATUS F.DPX_STATUS_path_up (1 : Fin 2) = true ∧ fbit s Reg.DPX_STATUS F.DPX_STATUS_path_up 0 = false ∧
      ((4 * -1000 - halfAsym 3 s) * 16384000 - (servoFor 3 s).pred).natAbs ≤ jumpLimit s * 65536000) ∧
    fld idle Reg.DPX_STATUS F.DPX_STATUS_role ≠ 2 ∧
    (let s := sf [(Reg.TIME_STATE, F.TIME_STATE_pll_coast, 1)]; uses 1 s = false) ∧
    (let s := setF (slew 4 (by decide)) Reg.TIME_STATE F.TIME_STATE_state timeUnset; uses 4 s = true ∧ timeState s = timeUnset) ∧
    (let s := sf [(Reg.TIME_PPS, F.TIME_PPS_in_en, 1), (Reg.TIME_PPS, F.TIME_PPS_in_edge, 1), (Reg.TIME_STATE, F.TIME_STATE_state, timeLocked)];
      flg s Reg.TIME_PPS F.TIME_PPS_in_en = true ∧ flg s Reg.TIME_PPS F.TIME_PPS_in_edge = true ∧ timeState s ≠ timeUnset) ∧
    flg idle Reg.TIME_PPS F.TIME_PPS_in_en = false := by decide +kernel

/-- Port 0 with a best master, better than this clock, which is master-capable or not. -/
def master (c : Nat) (x : Option Announce) : State :=
  let s := sf [(Reg.TIME_SRC_CFG, F.TIME_SRC_CFG_master_capable, c), (Reg.TIME_STATE, F.TIME_STATE_state, timeHoldover)]
  { s with time := { s.time with best := s.time.best.set 0 x } }

theorem test_meets_TimeSources :
    (let x : Announce := { id := 7, priority1 := 0 }; let s := master 0 none; Clear (portUnit 0) s ∧ Room 1 s ∧
      ptpMine x.domain x.udp s = true ∧ ownWins (master 0 (some x)) = false ∧ bestMaster (master 0 (some x)) = some (0, x) ∧
      bestMaster { master 0 none with time := { (master 0 none).time with best := #v[none, some x] } } = some (1, x)) ∧
    (let s := master 1 none; ownWins s = true ∧ flg s Reg.TIME_SRC_CFG F.TIME_SRC_CFG_master_capable = true ∧
      timeState s ≠ timeUnset ∧ timeState s ≠ timeGrandmaster) ∧
    (let s := master 0 none; ownWins s = true ∧ flg s Reg.TIME_SRC_CFG F.TIME_SRC_CFG_master_capable = false) ∧
    (let s := slew 4 (by decide); s.time.valid[(4 : Fin 5)] = true ∧ timeSource s = 4 ∧ Room 1 s ∧ s.time.valid[(3 : Fin 5)] = false) ∧
    (let s := { slew 4 (by decide) with time := { (slew 4 (by decide)).time with marks := (slew 4 (by decide)).time.marks.set 4 (some ⟨0, 0, 2000⟩) } };
      s.time.marks[(4 : Fin 5)] = some ⟨0, 0, 2000⟩) ∧
    (let s := { slew 2 (by decide) with time := { (slew 2 (by decide)).time with valid := (slew 2 (by decide)).time.valid.set 0 true } };
      s.time.valid[(0 : Fin 5)] = true ∧ timeSource s ≠ 0) ∧
    (let s := { sf [(Reg.TIME_PPS, F.TIME_PPS_out_en, 1)] with tai := BitVec.ofNat 66 (2 ^ 66 - 4000000006) };
      flg s Reg.TIME_PPS F.TIME_PPS_out_en = true ∧ s.tai.toNat + 4000000005 < 2 ^ 66) ∧
    flg idle Reg.TIME_PPS F.TIME_PPS_out_en = false := by decide +kernel

/-- Each cause of R126 alone, and none. -/
theorem test_meets_TimeStep : Served 0 true Reg.TIME_STEP 4 idle ∧ Room 1 idle ∧
    (let s := sf [(Reg.TIME_STATE, F.TIME_STATE_state, timeLocked)]; anyEnergised s = false ∧ timeState s ≠ timeUnset ∧ s.fab.change = none) ∧
    anyEnergised (sf [(Reg.CTRL_STATUS, F.CTRL_STATUS_energised, 8)]) = true ∧ timeState idle = timeUnset ∧
    (changing .mirror).fab.change.isSome := by decide +kernel

/-- A target exactly 10 µs ahead, one 1 ns nearer; an armed trigger whose target lies ahead, and one whose target is reached. -/
theorem test_meets_Triggers :
    (let s := st [(Reg.TIME_TRIG_TARGET 7, 10000)]; Served 0 true (Reg.TIME_TRIG_CFG 7) 4 s ∧ trigState s 7 ≠ trigArmed ∧ Room 1 s ∧
      nowNat s + 10000 ≤ (trigTarget s 7).toNat) ∧
    (let s := st [(Reg.TIME_TRIG_TARGET 7, 9999)]; trigState s 7 ≠ trigArmed ∧ (trigTarget s 7).toNat < nowNat s + 10000) ∧
    (let s := sf [(Reg.TIME_TRIG_STATUS 0, F.TIME_TRIG_STATUS_state, trigArmed)]; trigState s 0 = trigArmed ∧
      flg s (Reg.TIME_TRIG_CFG 0) F.TIME_TRIG_CFG_need_lock = false ∧ (trigTarget s 0).toNat + 2 < 2 ^ 64 ∧
      4 * (trigTarget s 0).toNat ≤ s.tai.toNat) ∧
    (let s := wr (sf [(Reg.TIME_TRIG_STATUS 0, F.TIME_TRIG_STATUS_state, trigArmed)]) (Reg.TIME_TRIG_TARGET 0) 1;
      trigState s 0 = trigArmed ∧ s.tai.toNat < 4 * (trigTarget s 0).toNat) ∧
    (let s := sf [(Reg.TIME_TRIG_STATUS 0, F.TIME_TRIG_STATUS_state, trigArmed), (Reg.TIME_TRIG_CFG 0, F.TIME_TRIG_CFG_need_lock, 1)];
      trigState s 0 = trigArmed ∧ flg s (Reg.TIME_TRIG_CFG 0) F.TIME_TRIG_CFG_need_lock = true ∧ timeIsLocked s = false) ∧
    getF (putF 1 F.TIME_TRIG_CFG_disarm 1) F.TIME_TRIG_CFG_disarm = 1 ∧ getF 1 F.TIME_TRIG_CFG_disarm = 0 := by decide +kernel

theorem test_meets_References :
    (idle.time.lostMems = none ∧ Room 5 idle ∧ fbit idle Reg.CLK_STATUS F.CLK_STATUS_coast 4 = false) ∧
    (let s := sf [(Reg.CLK_REF_CFG, F.CLK_REF_CFG_sel, 1)]; s.time.lostExt = none ∧ flg s Reg.CLK_REF_CFG F.CLK_REF_CFG_sel = true) ∧
    (timeState (sf [(Reg.TIME_STATE, F.TIME_STATE_state, timeLocked)]) ≠ timeUnset) ∧
    (let s := { idle with time := { idle.time with lostMems := some 5, lostExt := some 7 } };
      s.time.lostMems = some 5 ∧ s.time.lostExt = some 7 ∧ s.time.extAbsent = false ∧ extActive s = false) ∧
    (let s := sf [(Reg.CLK_STATUS, F.CLK_STATUS_coast, 17)]; fbit s Reg.CLK_STATUS F.CLK_STATUS_coast (4 : Fin 5) = true ∧ refOfPllLost 4 s = false) ∧
    (let s0 := sf [(Reg.CLK_REF_CFG, F.CLK_REF_CFG_fallback, 1), (Reg.CLK_STATUS, F.CLK_STATUS_ref_active, 1)];
      let s := { s0 with time := { s0.time with lostExt := some 7 } };
      flg s Reg.CLK_REF_CFG F.CLK_REF_CFG_fallback = true ∧ extActive s = true ∧ s.time.lostExt = some 7 ∧ s.time.lostMems = none) := by
  decide +kernel

/-! ### Chapters 5 and 6: acquisition, filter chains -/

/-- Core 0 in a state of Table 5.7, started by the timer. -/
def core (n : Nat) : State := setAdcState 0 n (sf [(Reg.ADC_START 0, F.ADC_START_src, 1)])

/-- The same with its sequencer in a state. -/
def coreAt (n : Nat) (x : AdcCore) : State := { core n with adc := { (core n).adc with cores := (core n).adc.cores.set 0 x } }

/-- The last entry of a table at the channel above the last. -/
theorem test_meets_AdcCommands :
    (Served 0 true (Reg.ADC_CTRL 3) 4 idle ∧ adcState idle 3 = adcIdle ∧ calValid idle 3 = false ∧
      calValid (sf [(Reg.ADC_STATUS, F.ADC_STATUS_cal_valid, 1)]) 0 = true ∧
      adcState (sf [(Reg.ADC_STATUS, F.ADC_STATUS_cal_valid, 1)]) 0 = adcIdle) ∧
    (Served 0 true (Reg.ADC_CTRL 0) 4 (core adcRunning) ∧ adcState (core adcRunning) 0 = adcRunning) ∧
    adcState (core adcStopping) 0 = adcStopping ∧ lockedAt idle (Reg.ADC_CTRL 0) = false ∧
    lockedAt { idle with fab := { idle.fab with locked := [Reg.ADC_CTRL 0] } } (Reg.ADC_CTRL 0) = true ∧
    (∀ e ≤ getF 0 F.ADC_CTRL_seq_last, seqChannel (rd idle (Reg.ADC_SEQ 0 e)) < 20) ∧
    ¬ (∀ e ≤ getF 1 F.ADC_CTRL_seq_last, seqChannel (rd (sf [(Reg.ADC_SEQ 0 0, F.ADC_SEQ_channel, 20)]) (Reg.ADC_SEQ 0 e)) < 20) := by
  decide +kernel

/-- Core 0 RUNNING, started by the carrier of pair 3, running or not. -/
def carrier (on : Bool) : State :=
  let s := setAdcState 0 adcRunning (sf [(Reg.ADC_START 0, F.ADC_START_src, 2), (Reg.ADC_START 0, F.ADC_START_event, 3), (Reg.ADC_START 0, F.ADC_START_pair, 3),
    (Reg.PWM_PAIR_PERIOD 3, F.PWM_PAIR_PERIOD_n, 4000)]);
  { s with loop := { s.loop with pairs := s.loop.pairs.set 3 { running := on } } }

theorem test_meets_AdcEvents :
    (startMatches (core adcRunning) 0 .timer = true ∧ adcState (core adcRunning) 0 = adcRunning ∧ adcState idle 0 ≠ adcRunning ∧
      startMatches (core adcRunning) 0 (.valley 0) = false ∧ (core adcRunning).adc.cores[(0 : Fin 4)].eventTick = none) ∧
    (startMatches (carrier true) 0 (.peak 3) = true ∧ startMatches (carrier true) 0 (.valley 3) = true ∧
      (carrier true).loop.pairs[(3 : Fin 12)].running = true ∧ (carrier false).loop.pairs[(3 : Fin 12)].running = false) ∧
    (let s := { setF (core adcRunning) (Reg.ADC_PERIOD 0) F.ADC_PERIOD_period 100 with tai := BitVec.ofNat 66 (2 ^ 66 - 4011) };
      timerGrid s 0 = 4000 ∧ s.tai.toNat + timerGrid s 0 + 10 < 2 ^ 66) ∧
    (coreAt adcRunning { waiting := true }).adc.cores[(0 : Fin 4)].waiting = true ∧
    (let x := (coreAt adcRunning { live := List.replicate 64 0xFFFFFFFF }).adc.cores[(0 : Fin 4)];
      x.waiting = false ∧ x.held = none ∧ (x.live.take (x.liveLast + 1)).any seqWait = true) ∧
    ((coreAt adcRunning { held := some 0 }).adc.cores[(0 : Fin 4)].held.isSome) ∧
    ((coreAt adcRunning { eventTick := some 0 }).adc.cores[(0 : Fin 4)].eventTick = some (coreAt adcRunning {}).ticks) ∧
    (let s := coreAt adcRunning {}; s.adc.cores[(0 : Fin 4)].waiting = false ∧
      s.tai.toNat ≤ (sampleInstant s 0).1 + convTime s 0 ∧ (sampleInstant s 0).1 + convTime s 0 + 5 < 2 ^ 66) ∧
    (adcState (core adcStopping) 0 = adcStopping ∧ adcState (core adcCalibrating) 0 = adcCalibrating ∧ Room 1 (core adcCalibrating) ∧
      calValid (core adcCalibrating) 0 = false ∧ (core adcCalibrating).adc.calRecord[(0 : Fin 4)] = none) ∧
    calFault (cal[(0 : Fin 4)]) = none ∧ calFault ⟨#v[0, 656, 0, 0], Vector.replicate 4 0x8000⟩ = some (1, 1) ∧
    calFault ⟨#v[0, 655, 0, 0], #v[0x8000, 0x8000, 0, 0x8000]⟩ = some (2, 2) := by decide +kernel

/-- Chain 0 in a state, with its machinery in a state. -/
def chain (n : Nat) (x : ChainState) : State :=
  let s := sf [(Reg.FILT_CH_STATE 0, F.FILT_CH_STATE_state, n), (Reg.FILT_CH_STATE 0, F.FILT_CH_STATE_fault, 1),
    (Reg.FILT_CH_CFG 0, F.FILT_CH_CFG_dcb_corner, 0)];
  { s with filt := { s.filt with chains := s.filt.chains.set 0 x } }

/-- The modulator clocks written are those in force, at reset and with a chain that restarts on every boundary of preset FAST. -/
theorem test_meets_FilterEvents :
    (let s := { chain chRunning {} with adc := { idle.adc with mods := idle.adc.mods.set 0 { en := true } } };
      s.adc.mods[(0 : Fin 24)].en = true ∧ s.adc.mods[(0 : Fin 24)].stuckFrom = none ∧ Room 1 s ∧ 0 ∈ chainsOf s 0 ∧ chainState s 0 ≠ chIdle) ∧
    (let s := { chain chRunning {} with adc := { idle.adc with mods := idle.adc.mods.set 0 { en := true, stuckFrom := some 0 } } };
      s.adc.mods[(0 : Fin 24)].stuckFrom.isSome ∧ 0 ∈ chainsOf s 0 ∧ flg s (Reg.FILT_CH_STATE 0) F.FILT_CH_STATE_fault = true) ∧
    (let s := chain chChanging { restart := some 4 }; s.filt.chains[(0 : Fin 24)].restart = some 4 ∧
      4000000 * nextMs s + 5 ≤ 2 ^ 66 ∧ nextMs s % anchorL s 0 (nextPreset s 0) = 0) ∧
    idle.filt.chains[(23 : Fin 24)].restart = none := by decide +kernel

theorem test_meets_FilterEvents_restart : OnlyRestarts (chain chChanging { restart := some 4 }) :=
  ⟨by decide +kernel, by decide +kernel, by decide +kernel, by decide +kernel, by decide +kernel⟩

theorem test_meets_Decimation :
    (let s := chain chRunning { osrPhase := 15, fastPhase := 7, fastRestart := false };
      chainState s 0 = chRunning ∧ chainState s 0 ≠ chIdle ∧ chainTicks s 0 ≠ 0 ∧ actPreset s 0 = 0 ∧ actMedian s 0 = 0 ∧
      fld s (Reg.FILT_CH_CFG 0) F.FILT_CH_CFG_dcb_corner = 0 ∧ s.filt.chains[(0 : Fin 24)].osrPhase = 15 ∧
      s.filt.chains[(0 : Fin 24)].fastRestart = false ∧ s.filt.chains[(0 : Fin 24)].fastPhase = 7) ∧
    chainState idle 23 = chIdle := by decide +kernel

/-- R155: 16 ones from rest: the last main output of a run of ones is full scale, saturated to 0x7FFF. -/
theorem test_full_scale_saturates :
    after (.chainOutput 0 (List.replicate 48 true)) (chain chRunning {}) (fun t => (rd t (Reg.FILT_CH_LAST 0)).extractLsb' 16 16 == 0x7FFF) = true := by
  decide +kernel

/-- A corner of 100 Hz is taken and 101 Hz is not; the lock; a chain routed to a PHASOR tile, whose rate would fall too low. -/
theorem test_meets_FilterConfig :
    (Served 0 true (Reg.FILT_CH_CFG 0) 4 (chain chRunning {}) ∧ lockedAt (chain chRunning {}) (Reg.FILT_CH_CFG 0) = false ∧ chainState (chain chRunning {}) 0 = chRunning ∧
      getF (putF 0 F.FILT_CH_CFG_dcb_corner 100) F.FILT_CH_CFG_dcb_corner ≤ 100 ∧
      100 < getF (putF 0 F.FILT_CH_CFG_dcb_corner 101) F.FILT_CH_CFG_dcb_corner) ∧
    lockedAt { idle with fab := { idle.fab with locked := [Reg.FILT_CH_CFG 0] } } (Reg.FILT_CH_CFG 0) = true ∧
    (let s := { chain chRunning {} with fab := { idle.fab with running := some { phasorChains := [0] } } };
      let p := getF (putF 0 F.FILT_CH_CFG_preset 7) F.FILT_CH_CFG_preset;
      p ≠ nextPreset s 0 ∧ toPhasor s 0 = true ∧ rateTooLow (nextTicks s 0) (presetD p) = true) := by decide +kernel
/-! ### Chapter 7: gates, stages, generators -/

theorem test_meets_GateBlocks :
    (let s := sf [(Reg.ADC_HARD 15, F.ADC_HARD_en, 1)]; flg s (Reg.ADC_HARD 15) F.ADC_HARD_en = true ∧
      fbit s Reg.ADC_CMP_STATUS F.ADC_CMP_STATUS_hard_live (15 : Fin 16) = false ∧ Room 2 s) ∧
    (let s := sf [(Reg.PWM_GDF_CFG, F.PWM_GDF_CFG_en, 32)]; fbit s Reg.PWM_GDF_CFG F.PWM_GDF_CFG_en (5 : Fin 6) = true ∧
      s.loop.gdf[(5 : Fin 6)] = false ∧ Room 2 s) ∧
    (Served 0 true Reg.PWM_GATE_CTRL 4 idle ∧ fld idle Reg.PWM_GATE_CTRL F.PWM_GATE_CTRL_release = 0 ∧ Room 1 idle) := by decide +kernel

theorem test_meets_GateReleases :
    (let s := sf [(Reg.PWM_BLOCK_STATUS, F.PWM_BLOCK_STATUS_latched, 9), (Reg.ADC_CMP_STATUS, F.ADC_CMP_STATUS_hard_live, 1)];
      Served 0 true Reg.PWM_GATE_CTRL 4 s ∧ holdsActive s = true ∧ fld s Reg.PWM_GATE_CTRL F.PWM_GATE_CTRL_block = 0 ∧
      latchedBlocked s 3 = true ∧ releaseCauses s 3 ≠ 0) ∧
    releaseCauses (sf [(Reg.PWM_BLOCK_STATUS, F.PWM_BLOCK_STATUS_latched, 9)]) 0 = 0 ∧
    (Served 0 true Reg.PWM_GATE_CTRL 4 (sf standby) ∧ holdsActive (sf standby) = false ∧
      fld (sf standby) Reg.PWM_GATE_CTRL F.PWM_GATE_CTRL_block = 0) := by decide +kernel

/-- Pair 0 of stage 0, energised, on input 0, with its machinery in a state. -/
def pair (hyst : Bool) (x : PairState) : State :=
  let s := stage kindDcDc modeReg { hystOn := hyst } [(Reg.PWM_PAIR_CFG 0, F.PWM_PAIR_CFG_mode, 1),
    (Reg.CTRL_STATUS, F.CTRL_STATUS_energised, 1), (Reg.ADC_AIN_CFG 0, F.ADC_AIN_CFG_band_en, 1),
    (Reg.PWM_PAIR_PERIOD 0, F.PWM_PAIR_PERIOD_n, 1000), (Reg.PWM_PAIR_CMP 0, F.PWM_PAIR_CMP_c, 250),
    (Reg.PWM_PAIR_DEAD 0, F.PWM_PAIR_DEAD_t_d, 100), (Reg.PWM_PAIR_DEAD 0, F.PWM_PAIR_DEAD_t_min, 399)];
  { s with loop := { s.loop with pairs := s.loop.pairs.set 0 x } }

/-- Both shapes; an on-interval at its least and one below the minimum pulse. -/
theorem test_meets_Switching :
    (let s := pair true {}; flg s (Reg.ADC_AIN_CFG 0) F.ADC_AIN_CFG_band_en = true ∧ fld s (Reg.PWM_PAIR_CFG 0) F.PWM_PAIR_CFG_ain = 0 ∧
      maySwitch s 0 = true ∧ (s.loop.stages[pairStage s 0]).hystOn = true) ∧
    flg idle (Reg.ADC_AIN_CFG 0) F.ADC_AIN_CFG_band_en = false ∧
    (pair false { pendingOn := some true }).loop.pairs[(0 : Fin 12)].pendingOn = some true ∧
    (pair false { deferred := some false }).loop.pairs[(0 : Fin 12)].deferred = some false ∧
    ((pair false {}).loop.pairs[(0 : Fin 12)].pendingOn = none ∧ (pair false {}).loop.pairs[(0 : Fin 12)].deferred = none) ∧
    (usesCarrier (pair false {}) 0 = true ∧ isSaw (pair false {}) 0 = false ∧ (pair false {}).loop.pairs[(0 : Fin 12)].running = false ∧
      (pair false {}).loop.pairs[(0 : Fin 12)].hold = []) ∧
    (usesCarrier (pair true {}) 0 = false ∧ isSaw (setF (pair false {}) (Reg.PWM_PAIR_CFG 0) F.PWM_PAIR_CFG_shape 1) 0 = true) ∧
    ((pair false { hold := [0] }).loop.pairs[(0 : Fin 12)].hold ≠ []) ∧
    (let s := pair false { running := true, shadow := some 65535 }; s.loop.pairs[(0 : Fin 12)].running = true ∧
      s.loop.pairs[(0 : Fin 12)].shadow = some 65535 ∧ loadsAt s 0 false = true) ∧
    (let s := pair false { running := true }; usesCarrier s 0 = true ∧ maySwitch s 0 = true ∧ 0 < pairCmp s 0 ∧ pairCmp s 0 ≤ pairCmax s 0 ∧
      minTicks s 0 + deadTicks s 0 = highTicks s 0 ∧ minTicks s 0 + deadTicks s 0 ≤ pairN s 0 - highTicks s 0) ∧
    (let s := setF (pair false { running := true }) (Reg.PWM_PAIR_CMP 0) F.PWM_PAIR_CMP_c 199;
      usesCarrier s 0 = true ∧ maySwitch s 0 = true ∧ 0 < pairCmp s 0 ∧ pairCmp s 0 ≤ pairCmax s 0 ∧ highTicks s 0 < minTicks s 0) ∧
    (let s := setF (pair false { running := true }) (Reg.PWM_PAIR_CFG 0) F.PWM_PAIR_CFG_shape 1;
      usesCarrier s 0 = true ∧ maySwitch s 0 = true ∧ 0 < pairCmp s 0 ∧ isSaw s 0 = true ∧ pairCmp s 0 < pairN s 0) ∧
    maySwitch idle 0 = false := by decide +kernel

theorem test_meets_StageRequests :
    (let s := stage kindDcDc modeOff {} [(Reg.SYS_STATUS, F.SYS_STATUS_ready, 1)]; Served 0 true (Reg.CTRL_STAGE_CMD 0) 4 s ∧
      holdsActive s = true ∧ isGfm s 0 = false ∧ isBlocked s 0 = false ∧ ready s = true ∧ stageKind s 0 ≠ 0 ∧
      fld s (Reg.CTRL_STAGE_CMD 0) F.CTRL_STAGE_CMD_inner ≠ b2n true) ∧
    isBlocked (stage kindDcDc modeBlocked {} []) 0 = true ∧
    (ready idle = false ∧ isBlocked idle 0 = false ∧ Room 1 idle ∧ stageKind (sf [(Reg.SYS_STATUS, F.SYS_STATUS_ready, 1)]) 0 = 0) ∧
    (let s := stage kindGridForming modeOff {} []; Served 0 true (Reg.CTRL_STAGE_CMD 0) 4 s ∧ holdsActive s = true ∧ isGfm s 0 = true ∧
      getF 3 F.CTRL_STAGE_CMD_inner = fld s (Reg.CTRL_STAGE_CMD 0) F.CTRL_STAGE_CMD_inner ∧ getF 1 F.CTRL_STAGE_CMD_stop = 0) ∧
    (Served 0 true (Reg.CTRL_STAGE_CMD 3) 4 idle ∧ holdsActive idle = true ∧ stageKind idle 3 = 0 ∧
      getF 3 F.CTRL_STAGE_CMD_inner = fld idle (Reg.CTRL_STAGE_CMD 3) F.CTRL_STAGE_CMD_inner) ∧
    (Served 0 true (Reg.CTRL_STAGE_CMD 3) 4 (sf standby) ∧ holdsActive (sf standby) = false) := by decide +kernel

theorem test_meets_LoopSample :
    (let s := { idle with tai := BitVec.ofNat 66 (2 ^ 66 - 11 - 4 * stagePeriod idle 0) };
      s.tai.toNat + 4 * stagePeriod s 0 + 10 < 2 ^ 66 ∧ stageKind s 0 = 0) ∧
    (let s := { stage kindDcDc modeReg { sampleTick := some 3 } [] with ticks := 3 };
      s.loop.stages[(0 : Fin 4)].sampleTick = some 3 ∧ 3 ≤ s.ticks) ∧
    (let s := stage kindDcDc modeReg { startReq := true } [(Reg.PWM_BLOCK_STATUS, F.PWM_BLOCK_STATUS_latched, 1)];
      stageKind s 0 ≠ 0 ∧ latchedBlocked s 0 = true ∧ s.loop.stages[(0 : Fin 4)].startReq = true) ∧
    (let s := stage kindDcDc modeOff { startReq := true, stopReq := true } [(Reg.SYS_STATUS, F.SYS_STATUS_ready, 1)];
      isGfm s 0 = false ∧ latchedBlocked s 0 = false ∧ stagesHeldOff s = false ∧ tracks s = false ∧ dpxState s ≠ dpxTaking ∧
      s.loop.stages[(0 : Fin 4)].stopReq = true) ∧
    (let s := stage kindDcDc modeBlocked { startReq := true } [(Reg.SYS_STATUS, F.SYS_STATUS_ready, 1)];
      s.loop.stages[(0 : Fin 4)].stopReq = false ∧ s.loop.stages[(0 : Fin 4)].startReq = true ∧ ready s = true ∧
      s.dpx.fresh[(0 : Fin 4)] = false ∧ latchedBlocked s 0 = false ∧ stageMode s 0 = modeBlocked) := by
  decide +kernel

/-- The event of a valley on the tick of the output instant; a generator off its target and one at rest on it; a blend's last step. -/
theorem test_meets_LoopOutputs :
    (let s := stage kindDcDc modeReg { awaiting := some {} } [];
      s.loop.stages[(0 : Fin 4)].awaiting = some {} ∧ s.loop.stages[(0 : Fin 4)].innerNext = none ∧ s.loop.stages[(0 : Fin 4)].hystOn = false) ∧
    (let s0 := pair false { running := true };
      let s := { s0 with loop := { s0.loop with
          stages := s0.loop.stages.set 0 { awaiting := some {} },
          pairs := s0.loop.pairs.set 0 { running := true, valleyTick := some (reachOutput 0 s0).ticks } } };
      s.loop.stages[(0 : Fin 4)].awaiting = some {} ∧ (0 : Fin 12) ∈ pairsOf s 0 ∧ loadsAt s 0 false = true ∧
      s.loop.pairs[(0 : Fin 12)].valleyTick = some (reachOutput 0 s).ticks) ∧
    idle.loop.stages[(0 : Fin 4)].awaiting = none ∧
    (pairMode (pair true {}) 0 ≠ 0 ∧ (pair true {}).loop.stages[pairStage (pair true {}) 0].hystOn = true) ∧ pairMode idle 0 = 0 ∧
    (let s := sf [(Reg.CTRL_PROF_CFG 15, F.CTRL_PROF_CFG_user, userHost), (Reg.CTRL_PROF_CFG 15, F.CTRL_PROF_CFG_en, 1)];
      fld s (Reg.CTRL_PROF_CFG 15) F.CTRL_PROF_CFG_user = userHost ∧ stageKind s 3 ≠ kindVarFreq ∧
      flg s (Reg.CTRL_PROF_CFG 15) F.CTRL_PROF_CFG_en = true ∧ s.loop.prof[(15 : Fin 16)].x = q15Rat (hiQ15 (rd s (Reg.CTRL_PROF_CFG 15))) ∧
      s.loop.prof[(15 : Fin 16)].v = 0 ∧ s.loop.prof[(15 : Fin 16)].a = 0) ∧
    (let s := sf [(Reg.CTRL_PROF_CFG 0, F.CTRL_PROF_CFG_user, userHost), (Reg.CTRL_PROF_CFG 0, F.CTRL_PROF_CFG_en, 1), (Reg.CTRL_PROF_CFG 0, ⟨16, 16⟩, 0x4000)];
      flg s (Reg.CTRL_PROF_CFG 0) F.CTRL_PROF_CFG_en = true ∧ s.loop.prof[(0 : Fin 16)].x ≠ q15Rat (hiQ15 (rd s (Reg.CTRL_PROF_CFG 0)))) ∧
    (let s := stage kindDcDc modeReg { blend := some 3 } [(Reg.CTRL_PROF_CFG 3, F.CTRL_PROF_CFG_user, userBlend),
        (Reg.CTRL_HOVER_CFG 0, F.CTRL_HOVER_CFG_t_blend, 0)];
      fld s (Reg.CTRL_PROF_CFG 3) F.CTRL_PROF_CFG_user = userBlend ∧ blendStage s 3 = some 0 ∧
      fld s (Reg.CTRL_HOVER_CFG 0) F.CTRL_HOVER_CFG_t_blend * 100000 ≤ (s.loop.prof[(3 : Fin 16)].steps + 1) * profPeriod s 3) ∧
    (let s := stage kindDcDc modeReg { blend := some 3 } [(Reg.CTRL_PROF_CFG 3, F.CTRL_PROF_CFG_user, userBlend),
        (Reg.CTRL_HOVER_CFG 0, F.CTRL_HOVER_CFG_t_blend, 65535)];
      blendStage s 3 = some 0 ∧
      (s.loop.prof[(3 : Fin 16)].steps + 1) * profPeriod s 3 < fld s (Reg.CTRL_HOVER_CFG 0) F.CTRL_HOVER_CFG_t_blend * 100000) := by
  decide +kernel

/-! ### Chapter 8: grid forming -/

theorem test_meets_GfmCommands :
    (let s := grid gStopped modeOff false false {} []; Served 0 true (Reg.GFM_CMD 0) 4 s ∧ holdsActive s = true ∧ isStandby s = false ∧
      stageKind s (gst 0) = kindGridForming ∧ Room 1 s ∧ gState s 0 = gStopped ∧ startCause s 0 = 0 ∧ getF 1 F.GFM_CMD_stop = 0) ∧
    startCause (grid gStopped modeOff false false { noOpen := true } []) 0 = 6 ∧
    gState (grid gRunning modeVsm true true {} []) 0 ≠ gStopped ∧
    (gState (grid gFailed modeOff false false {} []) 0 = gFailed ∧ getF 4 F.GFM_CMD_start = 0 ∧
      ((grid gFailed modeOff false false { noOpen := true } []).gfm.stages[(0 : Fin 2)]).noOpen = true) ∧
    (Served 0 true (Reg.GFM_CMD 2) 4 (sf standby) ∧ holdsActive (sf standby) = false) ∧
    (let s := grid gRunning modeLimit true true { belowFrom := some 0 } []; stageMode s (gst 0) = modeLimit ∧
      (s.gfm.stages[(0 : Fin 2)]).heldAt = none ∧ (s.gfm.stages[(0 : Fin 2)]).belowFrom = some 0 ∧ Room 2 s) ∧
    (let s := grid gRunning modeVsm true true {} []; timeModeDue s 0 = timeMode s 0 ∧ timeMode s 0 ≠ 1) ∧
    (let s := grid gRunning modeVsm true true { refAt := some 0 } [(Reg.TIME_STATE, F.TIME_STATE_state, timeHoldover), (Reg.GFM_TMODE 0, F.GFM_TMODE_time_mode, 1)];
      timeModeDue s 0 = 1 ∧ timeMode s 0 = 1 ∧ (s.gfm.stages[(0 : Fin 2)]).refAt = some 0) ∧
    (let s := grid gRunning modeVsm true true {} [(Reg.TIME_STATE, F.TIME_STATE_state, timeLocked)];
      timeModeDue s 0 ≠ timeMode s 0) := by decide +kernel

/-- The least dead time, 10 ms: the tenth dead millisecond completes it; live likewise. -/
theorem test_meets_GfmLine :
    (let s := grid gLineCheck modeOff false false { deadMs := 9, liveMs := 9 } [(Reg.GFM_LIVE 0, F.GFM_LIVE_t_dead, 1), (Reg.GFM_LIVE 0, F.GFM_LIVE_t_live, 1)];
      stageKind s (gst 0) = kindGridForming ∧ isBlocked s (gst 0) = false ∧ isStandby s = false ∧ gState s 0 = gLineCheck ∧
      stageKind idle (gst 0) ≠ kindGridForming ∧ contClosed s 0 = false ∧ contFb s 0 = false ∧ classOf s 0 0 0 = 1 ∧ mayBlackStart s 0 = true ∧
      10 * fld s (Reg.GFM_LIVE 0) F.GFM_LIVE_t_dead = (s.gfm.stages[(0 : Fin 2)]).deadMs + 1 ∧
      classOf s 0 1 50 = 2 ∧ vdcOk s 0 = true ∧ stageMode s (gst 0) ≠ modeVsm ∧ 0 < syncNs s 0 ∧ 0 < fld s (Reg.GFM_LIVE 0) F.GFM_LIVE_t_dead ∧
      10 * fld s (Reg.GFM_LIVE 0) F.GFM_LIVE_t_live = (s.gfm.stages[(0 : Fin 2)]).liveMs + 1) ∧
    (let s := grid gLineCheck modeOff false false { deadMs := 8, liveMs := 8 } [(Reg.GFM_LIVE 0, F.GFM_LIVE_t_dead, 1), (Reg.GFM_LIVE 0, F.GFM_LIVE_t_live, 1)];
      (s.gfm.stages[(0 : Fin 2)]).deadMs + 1 < 10 * fld s (Reg.GFM_LIVE 0) F.GFM_LIVE_t_dead ∧
      (s.gfm.stages[(0 : Fin 2)]).liveMs + 1 < 10 * fld s (Reg.GFM_LIVE 0) F.GFM_LIVE_t_live) ∧
    (let s := grid gClosingLive modeVsm true true {} []; Room 2 s ∧ flg s (Reg.GFM_CONT 0) F.GFM_CONT_en = true ∧ contClosed s 0 = true ∧
      contFb s 0 = true ∧ gState s 0 = gClosingLive) ∧
    (let s := grid gClosingDead modeVsm true true { lineClass := 1 } []; gState s 0 = gClosingDead ∧ lineDead s 0 = true ∧ vdcOk s 0 = true) ∧
    (lineDead (grid gClosingDead modeVsm true true {} []) 0 = false) ∧
    (let s := grid gClosingDead modeVsm true false {} [(Reg.GFM_CONT 0, F.GFM_CONT_t_close_max, 0)]; contFb s 0 = false ∧ contLate s 0 = true) := by
  decide +kernel

theorem test_meets_GfmMoves :
    (let s := grid gWaitSlot modeOff false false { slot := some (BitVec.ofNat 64 (2 ^ 64 - 1000001), true), lineClass := 1, deadMs := 1000 } [];
      (s.gfm.stages[(0 : Fin 2)]).slot = some (BitVec.ofNat 64 (2 ^ 64 - 1000001), true) ∧ gState s 0 = gWaitSlot ∧ isStandby s = false ∧ Room 2 s ∧
      (BitVec.ofNat 64 (2 ^ 64 - 1000001)).toNat + stagePeriod s (gst 0) < 2 ^ 64 ∧ lineDead s 0 = true ∧ contClosed s 0 = false ∧
      permitDead s 0 = true) ∧
    (lineDead (grid gWaitSlot modeOff false false { slot := some (0, false) } []) 0 = false) ∧
    (let s := grid gWaitSlot modeOff true true { slot := some (0, false), lineClass := 1 } []; lineDead s 0 = true ∧ contClosed s 0 = true ∧ vdcOk s 0 = true) ∧
    (let s := grid gWaitSlot modeOff false false { slot := some (0, false), lineClass := 1 } []; permitDead s 0 = false ∧ lineDead s 0 = true) ∧
    (let s := grid gRamping modeRamp true true { ramp := some ⟨.blackStart, 0, 1, false, false, 0⟩, limRun := 1 } [];
      ((s.gfm.stages[(0 : Fin 2)]).ramp = some ⟨.blackStart, 0, 1, false, false, 0⟩) ∧ gState s 0 = gRamping ∧ isStandby s = false ∧ stageMode s (gst 0) = modeRamp ∧ (s.gfm.stages[(0 : Fin 2)]).limRun ≠ 0 ∧
      Room 3 s ∧ attemptOf s 0 < 3) ∧
    (attemptOf (grid gRamping modeRamp true true {} [(Reg.GFM_STATE 0, F.GFM_STATE_attempt, 3)]) 0 = 3) ∧
    (let s := grid gSync modeVsm false false { winMs := 0 } [(Reg.GFM_SYNC 0, F.GFM_SYNC_t_sync_hold, 1)];
      let m : LineMeas := { vl := 1, vc := 1, fl := 50, fc := 50 };
      let d := wrapDeg (wrapDeg m.phiC - wrapDeg m.phi);
      gState s 0 = gSync ∧ stageMode s (gst 0) = modeVsm ∧ isBlocked s (gst 0) = false ∧ contClosed s 0 = false ∧ contFb s 0 = false ∧
      classOf s 0 m.vl m.fl = 2 ∧ classOf s 0 m.vc m.fc = 2 ∧ inWin d (angWin s 0) = true ∧ inWin (m.fl - m.fc) (slipHz s 0) = true ∧
      inWin (m.vl - m.vc) (voltWin s 0) = true ∧
      inWin (d + 360 * (m.fl - m.fc) * ((fld s (Reg.GFM_CONT 0) F.GFM_CONT_t_close_nom : Rat) / 1000)) (angWin s 0) = true ∧
      fld s (Reg.GFM_SYNC 0) F.GFM_SYNC_t_sync_hold = (s.gfm.stages[(0 : Fin 2)]).winMs + 1) ∧
    (let s := grid gSync modeVsm false false {} [(Reg.GFM_SYNC 0, F.GFM_SYNC_t_sync_hold, 2)];
      (s.gfm.stages[(0 : Fin 2)]).winMs + 1 < fld s (Reg.GFM_SYNC 0) F.GFM_SYNC_t_sync_hold ∧ gState idle 0 ≠ gSync) ∧
    (let s := grid gRide modeOff true true { rideOkMs := 9, liveMs := 9 } [(Reg.GFM_LIVE 0, F.GFM_LIVE_t_live, 1)];
      gState s 0 = gRide ∧ contClosed s 0 = true ∧ contFb s 0 = true ∧ vdcOk s 0 = true ∧ 9 ≤ (s.gfm.stages[(0 : Fin 2)]).rideOkMs ∧
      classOf s 0 1 50 = 2 ∧ 10 * fld s (Reg.GFM_LIVE 0) F.GFM_LIVE_t_live ≤ (s.gfm.stages[(0 : Fin 2)]).liveMs + 1 ∧ Room 4 s) := by decide +kernel
/-! ### Chapter 9: feeder protection -/

/-- Feeder 7 on, with more fields set and its machinery in a state. -/
def feeder (x : FeederState) (l : List (Nat × Fld × Nat)) : State :=
  let s := sf ([(Reg.PROT_FDR_CFG 7, F.PROT_FDR_CFG_en, 1), (Reg.PROT_FDR_CFG 7, F.PROT_FDR_CFG_i_n, 400), (Reg.PROT_FDR_SCALE 7, F.PROT_FDR_SCALE_i_fs, 8000)] ++ l);
  { s with prot := { s.prot with feeders := s.prot.feeders.set 7 x } }

/-- Usable samples of 0 everywhere. -/
def quietGrid : PhasorSamples where
  volt := Vector.replicate 3 (Vector.replicate 4 {})
  feeders := Vector.replicate 8 (Vector.replicate 4 (Vector.replicate 4 {}))

/-- An element whose time is up and one whose accumulator is full; of a feeder that is on or off, blocked or not. -/
theorem test_meets_ProtElements :
    ((BitVec.ofNat 64 (2 ^ 64 - 2)).toNat + 1 < 2 ^ 64 ∧ (idle.prot.voltWin[(2 : Fin 3)]).xs.length = 64 ∧
      (let w : SampleWords := { tag0 := 1, tag1 := 2 }; w.usable = true ∧ (w.tag1 - w.tag0).toNat ≠ 0 ∧ nowNat (reachNs idle 25) = 25 * w.tag0.toNat) ∧
      ({ usable := false : SampleWords }).usable = false) ∧
    (let s := feeder {} [(Reg.PROT_OC 7 6, F.PROT_OC_en, 1)];
      let p := phasors (takeSamples quietGrid s);
      feederOn s 7 = true ∧ (feederMeas s 7 p).iBad = false ∧ (feederMeas s 7 p).i0Bad = false ∧ (feederMeas s 7 p).vBad = false ∧
      pflg s (Reg.PROT_OC 7 6) F.PROT_OC_en = true ∧ pfld s (Reg.PROT_OC 7 6) F.PROT_OC_dir = 0 ∧ fastMode s 7 = false ∧
      pflg s (Reg.PROT_OC 7 1) F.PROT_OC_en = false) ∧
    (let s := feeder { op := 0, startAt := Vector.replicate 13 (some 0) } [(Reg.PROT_FDR_FLAGS 7, F.PROT_FDR_FLAGS_started, 2), (Reg.PROT_OC_T 7 1, F.PROT_OC_T_mult, 0)];
      feederOn s 7 = true ∧ isStarted s 7 1 = true ∧ isOperated s 7 1 = false ∧ (s.prot.feeders[(7 : Fin 8)]).opPrev.testBit 1 = false ∧
      ocHeld s 7 1 (badPhases s 7) (badResidual s 7) (badBus s) = false ∧
      curveOf s 7 1 = 0 ∧ (s.prot.feeders[(7 : Fin 8)]).startAt[1] = some 0 ∧ 0 + 10000000 * pfld s (Reg.PROT_OC_T 7 1) F.PROT_OC_T_mult ≤ localNs s ∧
      Room 24 s ∧ feederBlocked s 7 = false ∧ tripCmd s 7 = false) ∧
    (let s := feeder { acc := Vector.replicate 7 1 } [(Reg.PROT_FDR_FLAGS 7, F.PROT_FDR_FLAGS_started, 64), (Reg.PROT_OC 7 6, F.PROT_OC_curve, 1),
        (Reg.PROT_BLOCK, F.PROT_BLOCK_feeder, 128)];
      isStarted s 7 6 = true ∧ ocHeld s 7 6 (badPhases s 7) (badResidual s 7) (badBus s) = false ∧ curveOf s 7 6 ≠ 0 ∧
      1 ≤ (s.prot.feeders[(7 : Fin 8)]).acc[6] ∧ feederBlocked s 7 = true) ∧
    (let s := feeder {} [(Reg.PROT_OC 7 0, F.PROT_OC_en, 1), (Reg.PROT_OC 7 0, F.PROT_OC_fast, 1)]; feederOn s 7 = true ∧ fastMode s 7 = true) ∧
    (feederOn idle 7 = false ∧ isStarted idle 7 1 = false) ∧
    (let s := feeder {} [(Reg.PROT_THERM 7, F.PROT_THERM_en, 1)]; feederOn s 7 = true ∧ pflg s (Reg.PROT_THERM 7) F.PROT_THERM_en = true ∧ badPhases s 7 = false) ∧
    (let s := feeder { invalid := #v[true, false, false, false] } [(Reg.PROT_THERM 7, F.PROT_THERM_en, 1)];
      pflg s (Reg.PROT_THERM 7) F.PROT_THERM_en = true ∧ badPhases s 7 = true) ∧
    (let s := feeder {} [(Reg.PROT_THERM 7, F.PROT_THERM_en, 0)]; feederOn s 7 = true ∧ pflg s (Reg.PROT_THERM 7) F.PROT_THERM_en = false) ∧
    (let s := { idle with prot := { idle.prot with u32 := idle.prot.u32.set 1 { since := some 0 } } };
      (s.prot.u32[(1 : Fin 2)]).since = some 0 ∧ (s.prot.u32[(1 : Fin 2)]).op = false ∧ Room 2 s ∧ fbit s Reg.PROT_BLOCK F.PROT_BLOCK_unit32 (1 : Fin 2) = false) ∧
    (idle.prot.u32[(1 : Fin 2)]).since = none ∧
    fbit (sf [(Reg.PROT_BLOCK, F.PROT_BLOCK_unit32, 2)]) Reg.PROT_BLOCK F.PROT_BLOCK_unit32 (1 : Fin 2) = true := by decide +kernel
/-- Bus voltages in windows of one sample, of phase A alone, 6400 V_n. -/
def tracked : State :=
  let s := sf [(Reg.PROT_BUS_CFG, F.PROT_BUS_CFG_v_n, 1), (Reg.PROT_BUS_CFG, F.PROT_BUS_CFG_v_fs, 6400)]
  { s with prot := { s.prot with voltWin := #v[{ xs := [1] }, { xs := [] }, { xs := [] }] } }

/-- A value within its bounds is at least the lower one. -/
theorem within_ge (x tol v : Rat) (h : 0 ≤ tol) : x - tol ≤ within x tol v := by
  unfold within; split
  · rename_i h1; exact h1.1
  · grind

theorem test_meets_ProtElements_freqTrack : 1 / 100 < v1Sq tracked ∧ badBus tracked = false ∧
    badBus { idle with prot := { idle.prot with vInvalid := #v[false, true, false] } } = true ∧ v1Sq idle < 1 / 100 := by
  refine ⟨?_, by decide +kernel, by decide +kernel, ?_⟩
  · have hw : tracked.prot.voltWin = #v[{ xs := [1] }, { xs := [] }, { xs := [] }] := by rfl
    have hn : vn tracked = 1 := by decide +kernel
    have hf : pfld tracked Reg.PROT_BUS_CFG F.PROT_BUS_CFG_v_fs = 6400 := by decide +kernel
    have hc : (1 : Rat) / 2 ≤ cosDeg 0 := le_trans (by decide +kernel) (within_ge (cosReal 0) (1 / 65536) _ (by decide +kernel))
    have hr : (1 : Rat) ≤ sqrtR 2 := le_trans (by decide +kernel) (within_ge (sqrtReal 2) (sqrtReal 2 / 65536) _ (by decide +kernel))
    simp [v1Sq, busVoltages, hn, hf, hw, dft, seq1, cxAdd, cxScale, cxMul, cxSq, cxUnit]
    have hp : 1 / 2 ≤ sqrtR 2 * cosDeg 0 := by nlinarith
    nlinarith [mul_self_nonneg (sqrtR 2 * sinDeg 0)]
  · have hn : vn idle = 0 := by decide +kernel
    simp [v1Sq, busVoltages, hn, seq1, cxAdd, cxScale, cxMul, cxSq]

theorem test_meets_ProtTimers :
    (let s := sf [(Reg.PROT_LMD_STATE, F.PROT_LMD_STATE_state, lmdWait)]; lmdState s = lmdWait ∧ windowsFrom s + 1 < 2 ^ 64 ∧ Room 1 s) ∧
    (lmdState idle ≠ lmdWait ∧ lmdState idle ≠ lmdMeasure) ∧
    (let s := sf [(Reg.PROT_LMD_STATE, F.PROT_LMD_STATE_state, lmdMeasure)]; lmdState s = lmdMeasure ∧ s.prot.lmdNoFeeder = false) ∧
    (let s := feeder { peak2 := 100 } [(Reg.PROT_FDR_STATE 7, F.PROT_FDR_STATE_bkr, bkrTripping), (Reg.PROT_BF_CFG 7, F.PROT_BF_CFG_en, 1),
        (Reg.PROT_BF_CFG 7, F.PROT_BF_CFG_t_retrip, 1)];
      bkrState s 7 = bkrTripping ∧ bfOn s 7 = true ∧ openConfirmed s 7 = false ∧ Room 2 s ∧ tRetrip s 7 ≠ 0 ∧
      (s.prot.feeders[(7 : Fin 8)]).retripped = false) ∧
    (bkrState idle 7 ≠ bkrTripping ∧ tripCmd idle 7 = false) ∧
    (let s := feeder {} [(Reg.PROT_FDR_STATE 7, F.PROT_FDR_STATE_bkr, bkrOpen), (Reg.PROT_FDR_STATE 7, F.PROT_FDR_STATE_trip_cmd, 1)];
      tripCmd s 7 = true ∧ bkrState s 7 = bkrOpen) ∧
    (let s := feeder { againstFrom := some 0, peak2 := 100 } [(Reg.PROT_BKR_CFG 7, F.PROT_BKR_CFG_a_en, 1), (Reg.PROT_FDR_STATE 7, F.PROT_FDR_STATE_bkr, bkrClosed)];
      (s.prot.feeders[(7 : Fin 8)]).sameFrom = none ∧ (s.prot.feeders[(7 : Fin 8)]).againstFrom = some 0 ∧ aUsed s 7 = true ∧ bUsed s 7 = false ∧
      aLevel s 7 = false ∧ currentOpen s 7 = false ∧ bkrState s 7 = bkrClosed ∧
      flg s (Reg.PROT_FDR_STATE 7) F.PROT_FDR_STATE_status_invalid = false) ∧
    (let s := feeder { sameFrom := some 0 } [(Reg.PROT_BKR_CFG 7, F.PROT_BKR_CFG_a_en, 1), (Reg.PROT_BKR_CFG 7, F.PROT_BKR_CFG_b_en, 1)];
      (s.prot.feeders[(7 : Fin 8)]).sameFrom = some 0 ∧ aUsed s 7 = true ∧ bUsed s 7 = true ∧ aLevel s 7 = bLevel s 7) ∧
    (let s := feeder {} [(Reg.PROT_TC_CFG 7, F.PROT_TC_CFG_en, 1), (Reg.FIO_TRIP_STATE, F.FIO_TRIP_STATE_measured, 1)];
      flg s (Reg.PROT_TC_CFG 7) F.PROT_TC_CFG_en = true ∧ aUsed s 7 = false ∧ bUsed s 7 = false ∧ tripIntact s 0 = some false ∧
      flg s (Reg.PROT_FDR_STATE 7) F.PROT_FDR_STATE_tc_alarm = false) ∧
    (let s := feeder {} [(Reg.PROT_FDR_STATE 7, F.PROT_FDR_STATE_tc_alarm, 1), (Reg.FIO_TRIP_STATE, F.FIO_TRIP_STATE_measured, 1),
        (Reg.FIO_TRIP_STATE, F.FIO_TRIP_STATE_intact, 1)]; tripIntact s 0 = some true ∧ flg s (Reg.PROT_FDR_STATE 7) F.PROT_FDR_STATE_tc_alarm = true) := by
  decide +kernel

/-! ### Chapter 10: the recorder -/

theorem test_meets_RecCommands :
    (let s := rec recIdle {} [(Reg.REC_PERIOD, ⟨0, 32⟩, 400000), (Reg.REC_PRE, ⟨0, 32⟩, 10), (Reg.REC_POST, ⟨0, 32⟩, 10)];
      Served 0 true Reg.REC_CTRL 4 s ∧ Room 1 s ∧ armRefused s = none ∧ getF 2 F.REC_CTRL_trigger = 0 ∧ getF 2 F.REC_CTRL_disarm = 0) ∧
    armRefused (rec recArmed {} []) = some (stBusy, 0) ∧ armRefused idle = some (stNotPermitted, 1) ∧
    ((rec recArmed {} []).recd.trigs = [] ∧ recState (rec recArmed {} []) = recArmed ∧ (rec recArmed { trigs := [⟨8, 0⟩] } []).recd.trigs ≠ []) ∧
    ((rec recCapturing { cur := some { number := 1 } } []).recd.cur = some { number := 1 }) ∧
    (let s := rec recArmed {} [(Reg.REC_TRIG_SRC, F.REC_TRIG_SRC_en, 256)]; fbit s Reg.REC_TRIG_SRC F.REC_TRIG_SRC_en 8 = true) ∧
    (let s := rec recArmed { bin := 1#256 <<< 255 } [(Reg.REC_BCH 255, F.REC_BCH_en, 1)]; recState s ≠ recIdle ∧ bchanOn s 255 = true ∧
      s.recd.bin.getLsbD 255 = (!bchanPoint s 255) ∧ changesHeld s < changeEntries) ∧
    (recState idle = recIdle ∧ recState idle ≠ recClosing ∧ idle.recd.awaiting = [] ∧ bchanOn idle 0 = false) ∧
    (let s := rec recClosing { cur := some { number := 1 } } [(Reg.REC_CFG, F.REC_CFG_auto_rearm, 0)]; recState s = recClosing ∧ Room 4 s ∧
      flg s Reg.REC_CFG F.REC_CFG_auto_rearm = false) ∧
    hasRoom { rec recIdle {} [] with recd := { awaiting := [] } } 4096 = true ∧
    (let s := rec recIdle {} [(Reg.REC_STATUS, F.REC_STATUS_rearm_wait, 1), (Reg.REC_CFG, F.REC_CFG_auto_rearm, 1)];
      flg s Reg.REC_STATUS F.REC_STATUS_rearm_wait = true ∧ flg s Reg.REC_CFG F.REC_CFG_auto_rearm = true ∧ roomRefused s = none) ∧
    roomRefused (rec recIdle { awaiting := [{ number := 1 }] } [(Reg.REC_CFG, F.REC_CFG_stream, 1)]) ≠ none := by decide +kernel

theorem test_meets_RecCapture :
    (recState idle = recIdle ∧ rowDue (rec recArmed {} []) = false ∧ flg idle (Reg.REC_LEVEL 7) F.REC_LEVEL_en = false) ∧
    ((rec recArmed {} []).recd.accN + 1 < recK (rec recArmed {} []) ∧
      capQ (rec recArmed { next := some 0 } []) 0 + 8000008 < 2 ^ 66) ∧
    (let s := rec recArmed { accN := 1 } []; recState s = recArmed ∧ rowDue s = true ∧
      (∀ l : Fin 8, flg s (Reg.REC_LEVEL l) F.REC_LEVEL_en = false) ∧
      (∀ k : Fin 4, fld s (Reg.REC_MASK_CFG k) F.REC_MASK_CFG_action = 0 ∧ (s.recd.masks[k]).left = none) ∧ s.recd.trigs = []) ∧
    (let s := rec recArmed { accN := 1, next := some 0, trigs := [⟨8, 0⟩] } [(Reg.REC_POST, ⟨0, 32⟩, 2)];
      s.recd.trigs = [⟨8, 0⟩] ∧ 4 * 0 ≤ capQ s 0 ∧ recStream s = false ∧ 1 < recPost s ∧ Room 2 s) ∧
    (let s := rec recArmed { accN := 1, next := some 0 } [(Reg.REC_LEVEL 0, F.REC_LEVEL_en, 1), (Reg.REC_LEVEL 0, F.REC_LEVEL_n, 0),
        (Reg.REC_LEVEL 0, F.REC_LEVEL_cond, 0), (Reg.REC_LEVEL_THR 0, F.REC_LEVEL_THR_thr, 100)];
      (s.recd.levels[(0 : Fin 8)]).fired = false ∧ (s.recd.levels[(0 : Fin 8)]).count + 1 = max 1 (fld s (Reg.REC_LEVEL 0) F.REC_LEVEL_n) ∧
      fld s (Reg.REC_LEVEL 0) F.REC_LEVEL_achan = 0 ∧ flg s (Reg.REC_ACH 0) F.REC_ACH_en = true ∧
      (let c := capSample 0 { last := { value := 101 }, next := some { value := 101 } };
        capFault c = false ∧ capUnsettled c = false ∧ levelOn 0 (sfld s (Reg.REC_LEVEL_THR 0) F.REC_LEVEL_THR_thr) c.value = true)) ∧
    (let s := rec recCapturing { accN := 1, next := some 0 } [(Reg.REC_MASK_CFG 3, F.REC_MASK_CFG_action, 3), (Reg.REC_MASK_CFG 3, F.REC_MASK_CFG_npts, 1),
        (Reg.REC_MASK_CFG 3, F.REC_MASK_CFG_n, 1), (Reg.REC_MASK_LIM 3 0, ⟨0, 32⟩, 0), (Reg.REC_MASK_T 3 0, ⟨0, 32⟩, 0)];
      rowDue s = true ∧ fld s (Reg.REC_MASK_CFG 3) F.REC_MASK_CFG_action ≠ 0 ∧ (s.recd.masks[(3 : Fin 4)]).done = false ∧ recState s = recCapturing ∧
      (s.recd.masks[(3 : Fin 4)]).run + 1 = max 1 (fld s (Reg.REC_MASK_CFG 3) F.REC_MASK_CFG_n) ∧ Room 12 s ∧
      maskOut { s with recd := { s.recd with acc := [{ mn := 0, mx := 1, good := true }] } } 3 s.recd.post = true) := by decide +kernel
/-! ### Chapter 11: the scan cores -/

theorem test_meets_ScanModes :
    (Served 0 true (Reg.SCAN_CTRL 1) 4 idle ∧ holdsActive idle = true ∧ Room 2 idle ∧ getF 1 F.SCAN_CTRL_stop = 0 ∧ getF 1 F.SCAN_CTRL_hold = 0 ∧
      getF 1 F.SCAN_CTRL_step = 0 ∧ getF 1 F.SCAN_CTRL_cold = 0 ∧ getF 17 F.SCAN_CTRL_cold = 1) ∧
    (let s := scan scanStop (tasks {}) []; scanMode s 1 = scanStop ∧ (s.scan.cores[(1 : Fin 2)]).prog.isSome = true ∧ heldInStop s = false ∧ warmDenied s 1 ≠ 0) ∧
    (let s := scan scanStop { tasks {} with copies := #v[some { pitch := 0, prog := 0, order := 1, values := [] }, none] } []; warmDenied s 1 = 0) ∧
    ((scan scanStop {} []).scan.cores[(1 : Fin 2)].prog.isNone = true) ∧
    (let s := scan scanRun (tasks {}) []; scanMode s 1 ≠ scanStop ∧ (s.scan.cores[(1 : Fin 2)]).quiesce ≠ some scanStop ∧ holdPermitted s = true ∧ ∀ t : Fin 8, (s.scan.cores[(1 : Fin 2)]).tasks[t].busy = false) ∧
    (let s := scan scanRun (tasks { busy := true, started := true }) [(Reg.CTRL_STATUS, F.CTRL_STATUS_energised, 1)];
      holdPermitted s = false ∧ (s.scan.cores[(1 : Fin 2)]).tasks[(7 : Fin 8)].started = true) ∧
    (let s := scan scanHold (tasks {}) []; scanMode s 1 = scanHold ∧ (s.scan.cores[(1 : Fin 2)]).step = none) ∧
    ((scan scanRun { tasks {} with quiesce := some scanStop } []).scan.cores[(1 : Fin 2)].quiesce = some scanStop) ∧
    ((scan scanHold { tasks {} with step := some 7 } []).scan.cores[(1 : Fin 2)].step.isSome = true) ∧
    (Served 0 true (Reg.SCAN_CTRL 1) 4 (sf standby) ∧ holdsActive (sf standby) = false ∧ heldInStop (sf standby) = true) ∧
    (let s := scan scanStop (tasks {}) [(Reg.SYS_STATUS, F.SYS_STATUS_ready, 1)];
      (s.scan.cores[(1 : Fin 2)]).prog = some prog ∧ (s.scan.cores[(1 : Fin 2)]).autoDone = false ∧ ready s = true ∧ prog.autostart = true) ∧
    (ready idle = false ∧ scanMode idle 1 ≠ scanHold) ∧
    (let s := scan scanHold (tasks {}) [(Reg.CTRL_STATUS, F.CTRL_STATUS_energised, 1), (Reg.SCAN_TASK_CFG 1 0, F.SCAN_TASK_CFG_period, 1)];
      holdPermitted s = false ∧ periodOf s 1 0 ≠ 0 ∧ Room 2 s) := by decide +kernel

/-- The sixteenth release that finds a cycle unfinished, and the fifteenth; a held task, the one to step and another; the last start,
completion, commit, exchange and timeout that the counter can show. -/
theorem test_meets_ScanCycles :
    (let s := scan scanRun (tasks { consecutive := 15, busy := true }) [(Reg.SCAN_TASK_CFG 1 7, F.SCAN_TASK_CFG_period, 15)];
      periodOf s 1 7 = 10000000000 ∧ nextRelease s 1 7 + 1 < 2 ^ 64 ∧ Room 2 s ∧ scanMode s 1 = scanRun ∧
      (s.scan.cores[(1 : Fin 2)]).liveFrom ≤ nextRelease s 1 7 ∧
      (s.scan.cores[(1 : Fin 2)]).quiesce = none ∧ (s.scan.cores[(1 : Fin 2)]).frozen = false ∧ transferring s 1 = false ∧ swapDue s 1 (nextRelease s 1 7) = false ∧
      (s.scan.cores[(1 : Fin 2)]).tasks[(7 : Fin 8)].consecutive + 1 = 16) ∧
    (let s := scan scanRun (tasks { consecutive := 14, busy := true }) []; (s.scan.cores[(1 : Fin 2)]).tasks[(7 : Fin 8)].consecutive + 1 ≠ 16 ∧
      periodOf s 1 7 = 0) ∧
    (let s := scan scanHold { tasks {} with step := some 7 } [(Reg.SCAN_TASK_CFG 1 7, F.SCAN_TASK_CFG_period, 15), (Reg.SCAN_TASK_CFG 1 0, F.SCAN_TASK_CFG_period, 1)];
      scanMode s 1 = scanHold ∧ holdPermitted s = true ∧ periodOf s 1 7 ≠ 0 ∧ (s.scan.cores[(1 : Fin 2)]).step = some 7 ∧
      (s.scan.cores[(1 : Fin 2)]).tasks[(7 : Fin 8)].busy = false ∧ periodOf s 1 0 ≠ 0 ∧ (s.scan.cores[(1 : Fin 2)]).step ≠ some 0) ∧
    (let s := scan scanRun (tasks { busy := true, relAt := 2 ^ 64 - 4002 }) []; (s.scan.cores[(1 : Fin 2)]).tasks[(0 : Fin 8)].busy = true ∧
      (s.scan.cores[(1 : Fin 2)]).tasks[(0 : Fin 8)].started = false ∧ (s.scan.cores[(1 : Fin 2)]).tasks[(0 : Fin 8)].relAt + 4001 < 2 ^ 64 ∧
      preempted s 1 0 (max (nowNat s) ((s.scan.cores[(1 : Fin 2)]).tasks[(0 : Fin 8)].relAt + 4000)) = false) ∧
    (let s := scan scanRun (tasks { busy := true, started := true, skipped := 1 }) []; (s.scan.cores[(1 : Fin 2)]).tasks[(0 : Fin 8)].skipped ≠ 0 ∧
      (s.scan.cores[(1 : Fin 2)]).tasks[(0 : Fin 8)].started = true ∧ scanMode s 1 ≠ scanStop ∧ s.pwr.sleepFrom = none ∧
      preempted s 1 0 (max (nowNat s) (BitVec.ofNat 64 (2 ^ 64 - 2)).toNat) = false) ∧
    ((scan scanRun (tasks { busy := true, started := true }) []).scan.cores[(1 : Fin 2)].tasks[(0 : Fin 8)].skipped = 0) ∧
    (idle.scan.cores[(1 : Fin 2)].tasks[(7 : Fin 8)].busy = false ∧ idle.scan.cores[(1 : Fin 2)].prog = none) ∧
    (nextCommit { idle with tai := BitVec.ofNat 66 (2 ^ 66 - 100000000) } * 10000000 + 1 < 2 ^ 64) ∧
    (let s := { scan scanRun { tasks {} with exchange := some ⟨prog, 0, none⟩ } [(Reg.SCAN_XCHG 1, F.SCAN_XCHG_state, 1)] with tai := 0 };
      (s.scan.cores[(1 : Fin 2)]).exchange = some ⟨prog, 0, none⟩ ∧ fld s (Reg.SCAN_XCHG 1) F.SCAN_XCHG_state = 1 ∧
      (rd64 s (Reg.SCAN_SWAP_TIME 1)).toNat + 1 < 2 ^ 64 ∧ ∀ j : Fin 8, (s.scan.cores[(1 : Fin 2)]).tasks[j].busy = false) ∧
    (let s := scan scanRun { tasks {} with remotes := Vector.replicate 32 { valid := true } } []; (s.scan.cores[(1 : Fin 2)]).remotes[(31 : Fin 32)].valid = true) ∧
    (let s0 := scan scanRun { tasks {} with remotes := Vector.replicate 32 { valid := true, stamp := BitVec.ofNat 64 (2 ^ 64 - 1000003) } } [];
      let s := { s0 with net := { s0.net with items := [.blockTimeout (1, 31) 1] } };
      blockTimeout s (1, 31) = some 1000000 ∧ (s.scan.cores[(1 : Fin 2)]).remotes[(31 : Fin 32)].stamp.toNat + 1000000 + 2 < 2 ^ 64) ∧
    (idle.scan.cores[(1 : Fin 2)].remotes[(31 : Fin 32)].valid = false ∧ nextPublication idle * 250000 + 1 < 2 ^ 64 ∧ (prog.symbols.map (·.id)).Nodup) := by
  decide +kernel

/-- R304: a release of the 250 µs task 1 ns after an instant of its grid comes at the next. -/
theorem test_release_grid :
    nextRelease { scan scanRun (tasks {}) [(Reg.SCAN_TASK_CFG 1 0, F.SCAN_TASK_CFG_period, 1)] with tai := 1000004 } 1 0 = 500000 := by decide +kernel

/-! ### Chapter 12: the field die -/

/-- The field die with its machinery in a state. -/
def field (x : FioState) (l : List (Nat × Fld × Nat)) : State := { sf l with fio := x }

theorem test_meets_FioOutputs :
    (idle.fio.linkOn = false ∧ inSafe idle = false) ∧
    (let s := field { linkOn := true } []; s.fio.linkOn = true ∧ s.fio.resume = false ∧ Room 16 s) ∧
    (let s := field { linkOn := true, resume := true, resumeRun := 14 } [(Reg.FIO_STATUS, F.FIO_STATUS_safe, 1)]; inSafe s = true ∧ s.fio.resumeRun < 15) ∧
    (let s := field { linkOn := true, resume := true, resumeRun := 15 } [(Reg.FIO_STATUS, F.FIO_STATUS_safe, 1)]; inSafe s = true ∧ s.fio.resume = true ∧ s.fio.resumeRun = 15) ∧
    (let s := field { linkOn := true, resume := true } [(Reg.FIO_STATUS, F.FIO_STATUS_safe, 0)]; inSafe s = false ∧ s.fio.sleeping = false ∧ Room 5 s) ∧
    (let s := field { linkOn := true, trips := Vector.replicate 4 { disagree := 8 } } [(Reg.FIO_TRIP_STATE, F.FIO_TRIP_STATE_strobe, 15)];
      (s.fio.trips[(3 : Fin 4)]).disagree = 8 ∧ strobeOf s 3 ≠ protTrip s 3) ∧
    ((idle.fio.trips[(3 : Fin 4)]).disagree ≠ 8 ∧ ((nowNat idle + 99999) / 100000) * 100000 + 1 < 2 ^ 64) ∧
    (let s := field { linkOn := true } [(Reg.FIO_STATUS, F.FIO_STATUS_safe, 0), (Reg.FIO_DO_STATE, F.FIO_DO_STATE_cmd, 0x8000)]; doOn s 15 = true ∧ doOn s 14 = false) ∧
    ((field { dos := Vector.replicate 16 { waiting := true } } []).fio.dos[(15 : Fin 16)].waiting = true ∧ (idle.fio.dos[(15 : Fin 16)]).waiting = false) ∧
    Served 0 true Reg.FIO_DO_FAULT 4 idle ∧ (field { seen := some [] } []).fio.seen.isSome = true ∧ idle.fio.seen = none := by decide +kernel

theorem test_meets_FioSupply :
    (Room 1 idle ∧ Served 0 true Reg.FIO_GRP_CTRL 4 idle ∧ holdsActive idle = true ∧ holdsActive (sf standby) = false ∧
      Served 0 true Reg.FIO_GRP_CTRL 4 (sf standby) ∧ Room 2 (sf standby) ∧ (sf standby).fio.seen = none ∧ idle.fio.seen = none) ∧
    (let s := sf [(Reg.FIO_GRP_STATE, F.FIO_GRP_STATE_wait_ack, 2), (Reg.FIO_GRP_STATE, F.FIO_GRP_STATE_lost, 2), (Reg.FIO_GRP_CFG, F.FIO_GRP_CFG_hold_off, 2)];
      fbit s Reg.FIO_GRP_STATE F.FIO_GRP_STATE_wait_ack (1 : Fin 2) = true ∧ fbit s Reg.FIO_GRP_STATE F.FIO_GRP_STATE_lost (1 : Fin 2) = true ∧
      fbit s Reg.FIO_GRP_CFG F.FIO_GRP_CFG_hold_off (1 : Fin 2) = true) ∧
    (let s := sf [(Reg.FIO_TRIP_STATE, F.FIO_TRIP_STATE_energised, 8)]; tripOn s 3 = true ∧ cooling s 3 = false ∧ Room 2 s) ∧
    (cooling (sf [(Reg.FIO_TRIP_STATE, F.FIO_TRIP_STATE_cooldown, 8)]) 3 = true ∧ tripOn idle 3 = false) ∧
    (idle.fio.sleeping = false ∧ supervises (sf [(Reg.FIO_TRIP_CFG 3, F.FIO_TRIP_CFG_sup_en, 1)]) 3 = true ∧
      supervises (sf [(Reg.FIO_TRIP_CFG 3, F.FIO_TRIP_CFG_sup_en, 0)]) 3 = false) := by decide +kernel
/-! ### Chapter 13: duplex operation -/

/-- A unit of a duplex pair in a state of Table 13.3, with its machinery in a state and more fields set. -/
def unit (state : Nat) (x : DpxState) (owner : Bool) (l : List (Nat × Fld × Nat)) : State :=
  let s := sf ((Reg.DPX_CFG, F.DPX_CFG_en, 1) :: (Reg.DPX_STATUS, F.DPX_STATUS_state, state) :: l);
  { s with dpx := x, loop := { s.loop with owner := owner } }

theorem test_meets_DpxPaths :
    (dpxOn idle = false ∧ pathUp idle 1 = false ∧ actsAlone idle = false ∧ idle.dpx.probeAt = none) ∧
    (let s := unit dpxDegraded { paths := Vector.replicate 2 { good := 15, last := 0 } } false []; dpxOn s = true ∧ dpxState s ≠ dpxOff ∧ Room 32 s ∧
      pathUp s 1 = false ∧ 15 ≤ (s.dpx.paths[(1 : Fin 2)]).good ∧ localNs s < (s.dpx.paths[(1 : Fin 2)]).last + 20000) ∧
    (let s := unit dpxListen {} false []; firstCopy s 1 {} = true ∧ dpxState s = dpxListen ∧ sideB s = false ∧ s.dpx.probeAt = none) ∧
    (let s := unit dpxActive {} true []; firstCopy s 1 { epoch := 1 } = true ∧ s.loop.owner = true ∧ actsAlone s = true ∧ ownEpoch s < 1) ∧
    (let s := unit dpxAlone {} true []; firstCopy s 1 { role := 2 } = true ∧ (0 : Word) = ownEpoch s ∧ dpxState s = dpxAlone) ∧
    (let s := unit dpxTaking { fromSynced := true, probeAt := some 0 } false []; firstCopy s 1 {} = true ∧ dpxState s = dpxTaking ∧
      s.dpx.probeAt = some 0 ∧ localNs s ≤ 0 + tConf s) ∧
    (let s := unit dpxSynced {} false [(Reg.DPX_STATUS, F.DPX_STATUS_path_up, 3)]; pathUp s 1 = true ∧ Room 8 s ∧ dpxState s = dpxSynced ∧
      dpxState s ≠ dpxActive) ∧
    (let s := { unit dpxAlone { hbSent := 0 } true [] with ticks := 400000 }; Room 16 s ∧ actsAlone s = true ∧ s.dpx.hbSent + 500000 ≤ max (localNs s) s.dpx.hbDue ∧
      hbRunning s = false) ∧
    (let s := unit dpxAlone {} true []; max (localNs s) s.dpx.hbDue + 1 < s.dpx.hbSent + 500000 ∧ hbRunning s = true) ∧
    (let s := unit dpxDegraded { probeAt := some 0, unanswered := 1 } false []; dpxState s = dpxDegraded ∧ s.dpx.unanswered < 2) ∧
    (2 ≤ (unit dpxDegraded { probeAt := some 0, unanswered := 2 } false []).dpx.unanswered) ∧
    (let s := unit dpxListen { probeAt := some 0 } false [(Reg.DPX_STATUS, F.DPX_STATUS_side, 1)]; dpxState s = dpxListen ∧ sideB s = true ∧
      s.dpx.probeAt = some 0) ∧
    (let s := { unit dpxAlone {} true [(Reg.DPX_PARTNER_MAC, ⟨0, 32⟩, 5)] with ticks := 400000, fab := { idle.fab with running := some {} } };
      (5 : BitVec 48) = (rd64 s Reg.DPX_PARTNER_MAC).extractLsb' 0 48 ∧ s.fab.running.isSome = true ∧ actsAlone s = true ∧ s.loop.owner = true ∧
      hbRunning s = false ∧ (0 : Word) = ownEpoch s) ∧
    (0 + tConf (unit dpxListen { probeAt := some 0 } false []) < localNs { unit dpxListen { probeAt := some 0 } false [] with ticks := 800000000 }) := by
  decide +kernel

theorem test_meets_DpxMessages :
    (dpxOn idle = false ∧ (let s := unit dpxSynced { seqIn := Vector.replicate 16 (some 5) } false []; dpxOn s = true ∧ dpxState s ≠ dpxOff ∧
      firstCopy s 12 { seq := 5 } = false ∧ firstCopy s 12 { seq := 6 } = true ∧ (0 : Word) = ownEpoch s ∧ (1 : Word) ≠ ownEpoch s ∧ Room 32 s)) ∧
    (isStandby (sf standby) = true ∧ isStandby idle = false ∧ stageKind (grid gStopped modeOff false false {} []) (gst 0) = kindGridForming) ∧
    (let s := unit dpxSyncing {} false []; dpxState s = dpxSyncing ∧ firstCopy s 6 {} = true ∧ firstCopy s 11 {} = true ∧ dpxState s ≠ dpxSynced ∧
      s.dpx.partner.versions ≠ some (ownVersions s) ∧ syncFault s ≠ 0) ∧
    (let s := unit dpxTaking {} false []; dpxState s = dpxTaking ∧ firstCopy s 6 {} = true) ∧
    (let s := unit dpxActive {} true [(Reg.DPX_PARTNER, F.DPX_PARTNER_state, dpxSynced)]; Served 0 true Reg.DPX_CMD 4 s ∧ Room 4 s ∧ dpxState s = dpxActive ∧
      fld s Reg.DPX_PARTNER F.DPX_PARTNER_state = dpxSynced ∧ dpxOn s = true ∧ actsAlone s = true ∧ getF 1 F.DPX_CMD_cancel = 0 ∧ getF 2 F.DPX_CMD_switch = 0) ∧
    (let s := unit dpxSwitching { ackHeld := true } true [(Reg.DPX_SWITCH_TIME, ⟨0, 32⟩, 500001)]; dpxState s = dpxSwitching ∧
      nowNat s + 500000 < (rd64 s Reg.DPX_SWITCH_TIME).toNat ∧ s.dpx.quiesced = false ∧ s.dpx.ackHeld = true ∧ firstCopy s 8 { role := 2 } = true) ∧
    ((unit dpxSwitching {} true []).dpx.ackHeld = false) ∧
    (let s := unit dpxSynced { switchHeld := some 0 } false []; dpxState s = dpxSynced ∧ s.dpx.switchHeld = some 0) ∧
    (dpxState idle ≠ dpxSwitching ∧ idle.dpx.switchHeld = none) ∧
    (let s0 := unit dpxSyncing {} false [(Reg.TIME_STATE, F.TIME_STATE_state, timeLocked), (Reg.TIME_STATE, F.TIME_STATE_source, 3),
        (Reg.DPX_STATUS, F.DPX_STATUS_path_up, 1)];
      let s := { s0 with ticks := 800000000, dpx := { s0.dpx with partner := { versions := some (ownVersions s0) }, mirrorFrom := some 0 } };
      syncFault s = 0) := by decide +kernel

/-! ### Chapter 14: networks -/

/-- These network parameters in force. -/
def net (l : List NetItem) : State := { idle with net := { idle.net with items := l } }

theorem test_meets_Networks :
    (linkIsUp idle 2 = false ∧ linkIsUp (sf [(Reg.NET_STATUS, F.NET_STATUS_link2, 1)]) 2 = true ∧ Room 1 idle) ∧
    (prpMode (sf [(Reg.NET_STATUS, F.NET_STATUS_mode, 1)]) = true ∧ prpMode idle = false ∧ fbit idle Reg.NET_BUS_STATE F.NET_BUS_STATE_prp_lost (1 : Fin 2) = false ∧
      fbit (sf [(Reg.NET_BUS_STATE, F.NET_BUS_STATE_prp_lost, 2)]) Reg.NET_BUS_STATE F.NET_BUS_STATE_prp_lost (1 : Fin 2) = true ∧
      canOff idle 1 = false ∧ canOff (sf [(Reg.NET_BUS_STATE, F.NET_BUS_STATE_can_off, 2)]) 1 = true ∧
      fbit (sf [(Reg.NET_BUS_STATE, F.NET_BUS_STATE_mvb_fail, 2)]) Reg.NET_BUS_STATE F.NET_BUS_STATE_mvb_fail (1 : Fin 2) = true) ∧
    (publishedAs idle 0 = none ∧ publishedAs (net [.publish 63 9 20 none]) 63 = some ⟨9, 20, false, none⟩ ∧ subscribedAs idle 0 = none) ∧
    (let s0 := net [.subscribe 63 9 100 true (some (1, 31))];
      let s := { s0 with scan := { s0.scan with cores := s0.scan.cores.set 1 { remotes := Vector.replicate 32 { everSet := true } } } };
      subscribedAs s 63 = some ⟨9, 100, true, some (1, 31)⟩ ∧ ((s.scan.cores[(1 : Fin 2)]).remotes[(31 : Fin 32)]).everSet = true ∧
      s.net.timedOut[(63 : Fin 64)] ≠ some ((s.scan.cores[(1 : Fin 2)]).remotes[(31 : Fin 32)]).stamp) ∧
    (canBlocks (net [.canIn 1 0x100 1 (0, 3)]) 1 0x100 = [((0, 3), 0x100, 1)] ∧ canBlocks (net [.canIn 1 0x100 2 (0, 3)]) 1 0x100 = [((0, 3), 0x100, 2)] ∧
      (net [.canIn 1 0x100 2 (0, 3)]).net.canParts = []) ∧
    ((net [.canOut 1 0x200 2 (1, 4)]).net.items = [.canOut 1 0x200 2 (1, 4)]) ∧
    (sinkBlock (net [.mvbSink 7 none]) 7 = some none ∧ sinkBlock (net [.mvbSink 7 (some (0, 1))]) 7 = some (some (0, 1)) ∧
      sinksOf (net [.mvbSink 7 (some (0, 1))]) (0, 1) = [7] ∧ sinkBlock (net [.mvbSource 8 (some (0, 1))]) 8 = none ∧
      sourceBlock (net [.mvbSource 8 (some (0, 1))]) 8 = some (some (0, 1)) ∧ sourceBlock idle 8 = none) ∧
    (pollTable idle 1 = [] ∧ awaited idle 1 = none ∧
      (let s0 := net [.modbusPoll 1 63 5 16 (some (0, 1))]; let s := { s0 with net := { s0.net with pollWait := s0.net.pollWait.set 1 (some 63) } };
        (pollTable s 1)[s.net.pollNext[(1 : Fin 2)]]? = some ⟨63, 5, 16, some (0, 1)⟩ ∧ modbusWrites 16 = true ∧ awaited s 1 = some ⟨63, 5, 16, some (0, 1)⟩ ∧
        (pollTable s 1).filter (fun r => r.block == some (0, 1)) = [⟨63, 5, 16, some (0, 1)⟩])) ∧
    (slaveAddr (net [.modbusSlave 1 9]) 1 = some 9 ∧ modbusCode 3 = true ∧ modbusWrites 3 = false) := by and_intros <;> decide +kernel

theorem test_meets_Networks_units :
    (Served 0 true (Reg.NET_FI_CFG 9) 4 idle ∧ fiLocked idle 9 = false ∧ flg idle Reg.FAB_PERMIT F.FAB_PERMIT_test_allowed = false ∧ commissioning idle = false ∧
      fiState idle 9 = fiIdle ∧ (idle.net.fi[(9 : Fin 10)]).delayed = []) ∧
    (let s := sf [(Reg.FAB_PERMIT, F.FAB_PERMIT_test_allowed, 1), (Reg.UPD_STATUS, F.UPD_STATUS_commissioning, 1)];
      flg s Reg.FAB_PERMIT F.FAB_PERMIT_test_allowed = true ∧ commissioning s = true) ∧
    (fiLocked (setFiState 9 fiArmed idle) 9 = true ∧ fiState (setFiState 9 fiArmed idle) 9 = fiArmed) ∧
    (let s := { setFiState 9 fiActive idle with net := { idle.net with fi := Vector.replicate 10 { delayed := [({}, 0)] } } };
      fiState s 9 = fiActive ∧ (s.net.fi[(9 : Fin 10)]).delayed = [({}, 0)]) ∧
    (let s := setFiState 9 fiActive idle; flg s (Reg.NET_FI_CFG 9) F.NET_FI_CFG_dir = false ∧ fld s (Reg.NET_FI_MATCH 9) F.NET_FI_MATCH_mask = 0 ∧
      ((s.net.fi[(9 : Fin 10)]).matched + 1) % max 1 (fld s (Reg.NET_FI_CFG 9) F.NET_FI_CFG_every) = 0 ∧
      fld s (Reg.NET_FI_DONE 9) F.NET_FI_DONE_acted + 1 < 65536 ∧ (s.net.fi[(9 : Fin 10)]).group = []) ∧
    (let s := setFiState 9 fiActive (sf [(Reg.NET_FI_CFG 9, F.NET_FI_CFG_every, 2)]);
      ((s.net.fi[(9 : Fin 10)]).matched + 1) % max 1 (fld s (Reg.NET_FI_CFG 9) F.NET_FI_CFG_every) ≠ 0) := by and_intros <;> decide +kernel

/-- What a unit lets in on both paths and ports; first copies of fresh, stale and matching heartbeats; a switchover's last instants. -/
theorem test_meets_Dpx_frames :
    (Clear (guyUnit 0) idle ∧ Clear (guyUnit 1) idle ∧ Clear (portUnit 0) idle ∧ Clear (portUnit 1) idle) ∧
    (let s := unit dpxListen {} false []; let h : GuyHeader := { role := 1, epoch := 3 };
      dpxOn s = true ∧ dpxState s ≠ dpxOff ∧ Room 32 s ∧ firstCopy (freshSequences s) 1 h = true ∧ dpxState s = dpxListen ∧
      staleHeartbeat s h = false ∧ sideB s = false) ∧
    (let s := wr (unit dpxActive {} true []) Reg.DPX_EPOCH 5; let h : GuyHeader := { epoch := 4 };
      firstCopy (freshSequences s) 1 h = true ∧ staleHeartbeat s h = true) ∧
    (let s := wr (unit dpxActive {} true []) Reg.DPX_EPOCH 5; let h : GuyHeader := { role := 1, epoch := 6 };
      firstCopy (freshSequences s) 1 h = true ∧ s.loop.owner = true ∧ actsAlone s = true ∧ ownEpoch s < h.epoch) ∧
    (let s := unit dpxAlone {} true []; let h : GuyHeader := { role := 2 };
      firstCopy (freshSequences s) 1 h = true ∧ h.epoch = ownEpoch s ∧ dpxState s = dpxAlone) ∧
    (let s := unit dpxSynced {} false []; let h : GuyHeader := { role := 1 };
      firstCopy s 6 h = true ∧ firstCopy s 2 h = true ∧ firstCopy s 12 h = true ∧ h.epoch = ownEpoch s ∧ dpxState s = dpxSynced) ∧
    (let s := unit dpxSwitching { ackHeld := true } true [(Reg.DPX_SWITCH_TIME, ⟨0, 32⟩, 500000)];
      (rd64 s Reg.DPX_SWITCH_TIME - 500000).toNat + 1 < 2 ^ 64 ∧ (rd64 s Reg.DPX_SWITCH_TIME).toNat + 1 < 2 ^ 64 ∧ s.dpx.quiesced = false) ∧
    ((unit dpxSynced { switchHeld := some (BitVec.ofNat 64 (2 ^ 64 - 2)) } false []).dpx.switchHeld = some (BitVec.ofNat 64 (2 ^ 64 - 2)) ∧
      (BitVec.ofNat 64 (2 ^ 64 - 2)).toNat + 1 < 2 ^ 64) ∧
    (let s := unit dpxSyncing { partner := { versions := none } } false [];
      dpxState s = dpxSyncing ∧ s.dpx.partner.versions ≠ some (ownVersions s) ∧ dpxOn s = true) := by and_intros <;> decide +kernel

/-- A port that is idle, one that is busy and one whose link is down; frames of both modes, the first and a repeated copy. -/
theorem test_meets_Networks_frames :
    (let s := sf [(Reg.NET_STATUS, F.NET_STATUS_speed0, 1), (Reg.NET_STATUS, F.NET_STATUS_speed1, 1)];
      prpMode s = false ∧ linkIsUp s 0 = true ∧ s.net.freeAt[(0 : Fin 2)] ≤ localNs s ∧ (∀ q : Fin 4, (s.net.queues[(0 : Fin 2)])[q] = []) ∧
      fiQuiet s (portUnit 0) = true ∧ Room 4 s) ∧
    (let s0 := sf [(Reg.NET_STATUS, F.NET_STATUS_speed0, 1), (Reg.NET_STATUS, F.NET_STATUS_speed1, 1)];
      let s := { s0 with net := { s0.net with freeAt := #v[1, 1] } };
      prpMode s = false ∧ linkIsUp s 0 = true ∧ localNs s < s.net.freeAt[(0 : Fin 2)] ∧ linkIsUp s 1 = true ∧ localNs s < s.net.freeAt[(1 : Fin 2)]) ∧
    linkIsUp idle 0 = false ∧
    (let s := sf [(Reg.NET_STATUS, F.NET_STATUS_mode, 1)]; prpMode s = true ∧ (prpWindow s 7).contains 3 = false ∧ fiQuiet s (portUnit 1) = true) ∧
    (let s0 := sf [(Reg.NET_STATUS, F.NET_STATUS_mode, 1)]; let s := { s0 with net := { s0.net with prpSeen := [(7, [3])] } };
      (prpWindow s 7).contains 3 = true) ∧
    (Clear 3 idle ∧ Clear 4 idle ∧ Clear 5 idle ∧ Clear 6 idle ∧ Clear 7 idle) ∧
    (let s := { sf [(Reg.NET_FI_STATUS, F.NET_FI_STATUS_state, 0)] with tai := BitVec.ofNat 66 (2 ^ 66 - 90000000) };
      (nowNat s / (1000000 * max 1 20) + 1) * (1000000 * max 1 20) + 1 < 2 ^ 64) ∧
    (let s := setFiState 9 fiArmed (sf [(Reg.NET_FI_START 9, ⟨0, 32⟩, 0xFFFFFFFF)]); fiState s 9 = fiArmed ∧ nowNat s < (rd64 s (Reg.NET_FI_START 9)).toNat ∧
      (rd64 s (Reg.NET_FI_START 9)).toNat + 1 < 2 ^ 64) := by and_intros <;> decide +kernel
/-! ### Chapters 15 and 16: requests, operations, images -/

/-- A running part whose channel 1 is open, with these operations, and update and recorder in a state. -/
def served (ops : Vector (Option Oper) 16) (u : UpdState) (r : RecState) (l : List (Nat × Fld × Nat)) : State :=
  { sf l with cmd := { channels := idle.cmd.channels.set 1 { isOpen := true }, ops := ops }, upd := u, recd := r }

/-- No operation; and this one in slot 15. -/
def noOps : Vector (Option Oper) 16 := Vector.replicate 16 none
def oneOp (k : Fin 7) (st : OpState) (obj : Nat) : Vector (Option Oper) 16 :=
  noOps.set 15 (some { handle := 9, kind := k, state := st, openedAt := 0, obj := obj })

/-- A firmware whose head passes its checks. -/
def good : Firmware := { head := goodHead 2 [1] }

/-- A staged, verified image of each kind. -/
def stagedAll : UpdState where
  staged := #v[some ⟨.pitch {}, 0⟩, some ⟨.scan { progs := #v[none, none] }, 0⟩, some ⟨.firmware good, 0⟩, some ⟨.boot {}, 0⟩]
  journal := Vector.replicate 4 { verified := true }

/-- A request on channel 1, and one by message data on channel 20, which its port's unit lets pass. -/
theorem test_accepted : Accepted {} (served noOps {} {} []) ∧ Accepted { chan := 20 } idle :=
  ⟨⟨by decide, by decide, by decide +kernel, by decide +kernel, rfl, rfl, by decide +kernel, rfl, rfl⟩,
    ⟨by decide, fun _ => by decide +kernel, by decide +kernel, by decide +kernel, rfl, rfl, by decide +kernel, rfl, rfl⟩⟩

theorem test_meets_CmdChannels :
    (takesRequest idle 1 = false ∧ takesRequest (served noOps {} {} []) 1 = true ∧ takesRequest idle 20 = true ∧ Room 1 idle ∧
      seqCheck ((served noOps {} {} []).cmd.channels[(1 : Fin 21)]) 0 = .fresh) ∧
    (let r : Reply := { opcode := 1, status := 0 };
      seqCheck { lastSeq := some 5, stored := some r } 5 = .again r ∧ seqCheck { lastSeq := some 5, stored := some r } 7 = .wrong 6 ∧
      seqCheck { lastSeq := some 5, stored := some r } 6 = .fresh) ∧
    ((1 : Word) ≠ ownEpoch idle ∧ (0 : Word) = ownEpoch idle ∧ holdsActive idle = true ∧ holdsActive (sf standby) = false) ∧
    ((requestOf (.switchover {})).map (fun r => (r.code, r.role)) = some (0x80, true) ∧ idle.cmd.mailbox = none ∧
      ({ idle with cmd := { idle.cmd with mailbox := some (1, {}) } } : State).cmd.mailbox = some (1, {}) ∧ idle.pwr.phase = .running) ∧
    (Served 0 true Reg.CMD_DOORBELL 4 idle ∧ Served 6 true Reg.CMD_DOORBELL 4 idle ∧ flg idle Reg.CMD_STATUS F.CMD_STATUS_req_busy = false ∧
      (mailFrame idle 27).2.lengthOk = false ∧ (mailFrame idle 28).2.lengthOk = true ∧ (mailFrame idle 28).2.crcOk = false) ∧
    flg (sf [(Reg.CMD_STATUS, F.CMD_STATUS_req_busy, 1)]) Reg.CMD_STATUS F.CMD_STATUS_req_busy = true ∧
    Served 6 true Reg.CMD_CTRL 4 idle ∧ Served 0 true Reg.CMD_EVT_SEL 4 idle ∧
    (((served noOps {} {} []).cmd.channels[(1 : Fin 21)]).isOpen = true ∧ (idle.cmd.channels[(4 : Fin 21)]).isOpen = false ∧
      (idle.cmd.channels[(5 : Fin 21)]).isOpen = false) ∧
    (let s := { idle with cmd := { channels := Vector.replicate 21 { isOpen := true } } };
      (s.cmd.channels[(20 : Fin 21)]).isOpen = true ∧ ∀ i : Fin 21, 1 ≤ i.val → i.val ≤ 4 → (s.cmd.channels[i]).isOpen = true) ∧
    selectEvent idle 0 = none ∧
    selectEvent { idle with log := { entries := [⟨0, 1, 2, 3⟩], next := 1 } } 0 = some ⟨0, 1, 2, 3⟩ ∧
    (idle.log.dropped = 0 ∧ ({ idle with log := { dropped := 1 } } : State).log.dropped ≠ 0) ∧
    (idle.cmd.ops[(15 : Fin 16)] = none ∧ (oneOp opExport .running 3)[(15 : Fin 16)].isSome = true) := by and_intros <;> decide +kernel

/-- The CRC of R411: a frame that carries it passes check 2. -/
theorem test_mail_crc :
    let b := (([1, 0, 0, 9, 0, 0] : List Word).flatMap wordBytes);
    let s := (List.range 28).foldl (fun s i => memPut s (cmdReq + i) ((b ++ wordBytes (crc32c b)).getD i 0)) idle;
    (mailFrame s 28).1 = 1 ∧ (mailFrame s 28).2.lengthOk = true ∧ (mailFrame s 28).2.crcOk = true ∧ (mailFrame s 28).2.seq = 9 ∧
      knownOpcode 1 = true ∧ knownOpcode 4 = false := by decide +kernel

/-- CRC-32C of the digits 1 to 9. -/
theorem test_crc32c : crc32c [0x31, 0x32, 0x33, 0x34, 0x35, 0x36, 0x37, 0x38, 0x39] = 0xE3069283 := by decide +kernel

theorem test_meets_CmdOpcodes :
    (hostReaches 0x4014FFFC 1 = true ∧ hostReaches 0x4014FFFC 2 = false ∧ hostReaches 0x40000002 1 = false ∧
      hostReaches 0x40010000 0 = true ∧ serviceUp (writeWords 0x40010008 [0] (stOk, opened {} (served noOps {} {} []))).2 = true ∧
      serviceUp (regWrite 6 0x40010008 0 (opened {} (served noOps {} {} []))) = true ∧
      runsUncalibrated 0x40010008 0 (opened {} (served noOps {} {} [])) = false) ∧
    slotOf (served noOps {} {} []) 0 = none ∧
    (let s := served (oneOp opDownload .running 1) {} {} []; slotOf s 9 = some 15 ∧ Room 1 s) ∧
    ((oneOp opExport .completed 1)[15].all opDone = true ∧ (oneOp opDownload .suspended 1)[15].all (fun o => !opDone o && !o.partHold) = true ∧
      opVerify ≠ opSwitch ∧ opVerify ≠ opArm ∧ opVerify ≠ opDownload ∧ opVerify ≠ opExport) ∧
    (let x : SettingsRecord := { type := 1 }; [x].any (fun r => r.malformed || (r.refused || !typeKnown (served noOps {} {} []) r.type)) = false ∧
      ([{ x with refused := true }] : List SettingsRecord).findIdx? (fun r => r.refused || !typeKnown (served noOps {} {} []) r.type) = some 0 ∧
      ([{ x with malformed := true }] : List SettingsRecord).any (fun r => r.malformed) = true) ∧
    (sleepRefused (served noOps {} {} []) = true ∧ sleepRefused (served noOps {} {} [(Reg.SYS_STATUS, F.SYS_STATUS_ready, 1)]) = false ∧
      (∀ k : Fin 2, anyBusy (served noOps {} {} [(Reg.SYS_STATUS, F.SYS_STATUS_ready, 1)]).scan.cores[k] = false) ∧
      (let s0 := scan scanRun (tasks { busy := true, started := true }) [(Reg.SYS_STATUS, F.SYS_STATUS_ready, 1)];
        let s := { s0 with cmd := { s0.cmd with channels := s0.cmd.channels.set 1 { isOpen := true } } };
        takesRequest s 1 = true ∧ sleepRefused s = false ∧ scanMode s 1 ≠ scanStop ∧ ((s.scan.cores[(1 : Fin 2)]).tasks[(7 : Fin 8)]).busy = true ∧
        ((s.scan.cores[(1 : Fin 2)]).tasks[(7 : Fin 8)]).started = true)) ∧
    (ioSymbol idle 1 1 = false ∧
      let p : ScanProgram := { prog with symbols := [{ id := 1, ty := 1, item := .diState 0, position := some 0 }] };
      let s := scan scanStop { prog := some p } []; ioSymbol s 1 1 = true ∧ s.scan.forces.length < 256 ∧
        256 ≤ ((List.replicate 256 (⟨0, 2, 1, 0⟩ : Force)).filter (fun g => !(g.core == 1 && g.id == 1))).length) := by and_intros <;> decide +kernel

theorem test_meets_CmdWork :
    (armRefused (served noOps {} {} []) = some (stNotPermitted, 1) ∧ openOfKind (served noOps {} {} []) opArm = [] ∧ freeSlot (served noOps {} {} []) = some 0) ∧
    (let r : Record := { number := 3 }; let s := served (oneOp opExport .running 3) {} { stored := [r], exported := [⟨r, 0⟩] } [];
      isStored s 3 = true ∧ exporting s 3 = true ∧ s.recd.exported.find? (fun e => e.record.number == 3) = some ⟨r, 0⟩) ∧
    (let s := served noOps {} { stored := [{ number := 3 }] } []; isStored s 3 = true ∧ exporting s 3 = false ∧ isStored s 4 = false) ∧
    freeSlot (served (Vector.replicate 16 (some { handle := 9, kind := opArm, state := .running, openedAt := 0 })) {} {} []) = none ∧
    (let s := served noOps {} {} []; kindOf 3 = some 2 ∧ kindState s 2 = .normal ∧ 16777216 ≤ kindLimit 2 ∧ openOfKind s opDownload = [] ∧
      resumes s 2 16777216 0 = none) ∧
    (let d : Download := { kind := 2, length := 131072, hash := 0, confirmed := 1 };
      let s := served (oneOp opDownload .running 4) { download := some d } {} []; slotOf s 9 = some 15 ∧ s.upd.download = some d ∧
      dlTotal d = 2 ∧ chunkOk d 1 0 4096 = true ∧ chunkOk d 1 1 4096 = false ∧
      (List.range (blockPages d d.confirmed)).all (fun i => (s.upd.pages ||| chunkPages 0 4096).getLsbD i) = false) ∧
    (let s := served noOps stagedAll {} []; (s.upd.staged[(3 : Fin 4)]).isSome = true ∧ openOfKind s opVerify = [] ∧ freeSlot s = some 0 ∧
      activateRefused 4 0 (opened {} s) = stOk) ∧
    (kindState (served noOps { journal := Vector.replicate 4 { state := .trial } } {} []) 0 = .trial ∧
      kindState (served noOps { journal := Vector.replicate 4 { state := .activating } } {} []) 0 = .activating ∧
      activateRefused 5 0 (opened {} (served noOps {} {} [])) ≠ stOk) ∧
    (let s := served noOps {} {} []; (0 : Word) = ownEpoch s ∧ holdsActive s = true ∧ openOfKind s opSwitch = [] ∧ dpxState s ≠ dpxActive) ∧
    (let s := served noOps {} {} [(Reg.DPX_CFG, F.DPX_CFG_en, 1), (Reg.DPX_STATUS, F.DPX_STATUS_state, dpxActive), (Reg.DPX_PARTNER, F.DPX_PARTNER_state, dpxSynced)];
      dpxState s = dpxActive ∧ fld s Reg.DPX_PARTNER F.DPX_PARTNER_state = dpxSynced) ∧
    (let s := served noOps {} {} []; Room 3 s ∧ tokenRefused { request := 1, serial := 0, nonce := 0, notAfter := 0 } (opened {} s) = stOk ∧
      tokenRefused { request := 1, serial := 1, nonce := 0, notAfter := 0 } (opened {} s) ≠ stOk) := by and_intros <;> decide +kernel

/-- A plan that passes the checks, for REC_ARM. -/
theorem test_meets_CmdWork_arm :
    let s := rec recIdle {} [(Reg.REC_PERIOD, ⟨0, 32⟩, 400000), (Reg.REC_PRE, ⟨0, 32⟩, 10), (Reg.REC_POST, ⟨0, 32⟩, 10)];
    let t := { s with cmd := { s.cmd with channels := s.cmd.channels.set 1 { isOpen := true } } };
    takesRequest t 1 = true ∧ armRefused t = none ∧ openOfKind t opArm = [] ∧ freeSlot t = some 0 ∧ Room 1 t := by decide +kernel

theorem test_meets_UpdateSteps :
    (let s := served (oneOp opVerify .running 3) stagedAll {} []; (openOfKind s opVerify).head? = some 15 ∧ kindOf 3 = some 2 ∧
      s.upd.staged[(2 : Fin 4)] = some ⟨.firmware good, 0⟩ ∧ Room 4 s ∧ verifyFault 2 ⟨.firmware good, 0⟩ s.upd.declared[(2 : Fin 4)] s = none ∧
      verifyFault 2 ⟨.firmware good, 1⟩ s.upd.declared[(2 : Fin 4)] s = some (2, stBadCrc)) ∧
    (openOfKind idle opVerify = [] ∧ idle.upd.trialFrom = none ∧ idle.upd.revertWait = none ∧ idle.upd.restartAt = none ∧ idle.upd.settingsDue = [] ∧
      commissioning idle = false) ∧
    (let s := served noOps { trialFrom := some 0, journal := #v[{ state := .trial, group := true }, { state := .trial }, {}, {}] } {} [];
      s.upd.trialFrom = some 0 ∧ kindState s 0 = .trial ∧ kindState s 1 = .trial ∧ kindState s 2 ≠ .trial) ∧
    (let s := served noOps { revertWait := some (0, 1) } {} []; s.upd.revertWait.isSome = true ∧ anyEnergised s = false) ∧
    (let s := served noOps { restartAt := some (0, none) } {} []; s.upd.restartAt = some (0, none) ∧ s.upd.migrateFail = false ∧ kindState s 2 ≠ .activating) ∧
    (let s := served (oneOp opActivate .running 4) { stagedAll with restartAt := some (0, some 15) } {} [];
      s.upd.restartAt = some (0, some 15) ∧ kindState s 2 = .normal ∧ (s.upd.staged[(2 : Fin 4)]).map (·.content) = some (.firmware good) ∧
      unmigratable good (settingsNow s) = none) ∧
    (let s := served noOps { settingsDue := [⟨[], 2 ^ 64 - 2⟩] } {} []; s.upd.settingsDue = [⟨[], 2 ^ 64 - 2⟩] ∧ 2 ^ 64 - 2 + 1 < 2 ^ 64 ∧ Room 1 s) ∧
    (let r : SettingsRecord := { type := 1, regs := [(Reg.UPD_TRIAL_CFG, 5)] }; (served noOps { settingsDue := [⟨[r], 0⟩] } {} []).upd.settingsDue = [⟨[r], 0⟩]) ∧
    (let s := sf [(Reg.UPD_STATUS, F.UPD_STATUS_commissioning, 1)]; commissioning s = true ∧ Room 8 s ∧ s.upd.serviceEnd = none ∧ (rd64 s Reg.UPD_SERVICE_END).toNat + 1 < 2 ^ 64) ∧
    (let s := served noOps { serviceEnd := some 5 } {} [(Reg.UPD_STATUS, F.UPD_STATUS_commissioning, 1)]; commissioning s = true ∧ s.upd.serviceEnd = some 5) := by and_intros <;> decide +kernel

/-! ### The spec's own worked values -/

/-- Chapter 5, "Worked sequence": the table of core 0, RUNNING in an entry, the conversion before it and its start event. -/
def workedCore (entry rep : Nat) (prev : Nat × Nat × Nat) (start : Option Nat) : State :=
  let s := sf [(Reg.ADC_STATUS, ⟨0, 2⟩, 1), (Reg.ADC_STATE 0, F.ADC_STATE_entry, entry)];
  { s with adc := { s.adc with cores := s.adc.cores.set 0 (AdcCore.mk
    [0x80000000, 0x01000000, 0x02000000, 0x49010000, 0] 4 (some (4 * prev.1)) (some (prev.2.1, prev.2.2)) rep false start
    none none 0 none {}) } }

/-- The six sample instants of the worked sequence in quarter ns (t0 at 20 µs), with their UNSETTLED marks. -/
theorem test_worked_sequence :
    sampleInstant (workedCore 0 0 (1800, 0, 0) (some 80000)) 0 = (80000, false, false) ∧
    sampleInstant (workedCore 1 0 (20000, 0, 0) none) 0 = (4 * 20400, false, false) ∧
    sampleInstant (workedCore 2 0 (20400, 1, 0) none) 0 = (4 * 20800, false, false) ∧
    sampleInstant (workedCore 3 0 (20800, 2, 0) none) 0 = (4 * 21200, false, true) ∧
    sampleInstant (workedCore 3 1 (21200, 9, 2) none) 0 = (4 * 21400, false, false) ∧
    sampleInstant (workedCore 4 0 (21400, 9, 2) none) 0 = (4 * 21800, false, true) := by
  and_intros <;> decide +kernel

/-- The worked pass runs through exec: entry 3's first conversion repeats it, entry 4 wraps to the waiting entry 0. -/
theorem test_worked_sequence_runs :
    after (.adcConversion 0 (-40000)) (workedCore 3 0 (20800, 2, 0) none) (fun t =>
      t.tai.toNat == 4 * 21400 && t.adc.cores[(0 : Fin 4)].prevAt == some (4 * 21200) && t.adc.cores[(0 : Fin 4)].rep == 1 && fld t (Reg.ADC_LAST 0) F.ADC_LAST_result == 0x8000 &&
      flg t (Reg.ADC_LAST 0) F.ADC_LAST_unsettled) = true ∧
    after (.adcConversion 0 5) (workedCore 4 0 (21400, 9, 2) none) (fun t =>
      fld t (Reg.ADC_STATE 0) F.ADC_STATE_entry == 0 && t.adc.cores[(0 : Fin 4)].waiting) = true := by
  and_intros <;> decide +kernel

/-- Chapter 6, "Worked change of preset": chain 5 at 20 MHz with a median of 3 and head_delay 48. -/
def workedChain (preset : Nat) : State :=
  sf [(Reg.FILT_CH_STATE 5, F.FILT_CH_STATE_input, 5), (Reg.FILT_CH_CFG 5, F.FILT_CH_CFG_head_delay, 48),
    (Reg.FILT_CH_CFG 5, F.FILT_CH_CFG_preset, preset), (Reg.FILT_CH_CFG 5, F.FILT_CH_CFG_median, 1)]

/-- The correction of NORMAL and of QUIET, QUIET's anchor of 8 ms, its 19 unsettled outputs, and the tag of output 20. -/
theorem test_worked_preset :
    (rd (restartMain 5 1 4 (workedChain 1)) (Reg.FILT_CH_GDELAY 5)).toNat = 31525000 ∧
    (rd (restartMain 5 8 4 (workedChain 2)) (Reg.FILT_CH_GDELAY 5)).toNat = 122725000 ∧
    anchorL (workedChain 2) 5 2 = 8 ∧
    fld (restartMain 5 8 4 (workedChain 2)) (Reg.FILT_CH_STATE 5) F.FILT_CH_STATE_unsettled_left = 19 ∧
    tagOfPs 1700000000008133275000 = 0xF6D3 := by
  and_intros <;> decide +kernel

/-- Chapter 7: R193's LIM24 word of 2 full scales per second, and the encodings of "Worked voltage loop" as their words act
on a full-scale value. -/
theorem test_worked_words :
    lim24 0x0A800000 = 2 ∧ mulCoef 0x00025000 32768 = 2 * 32768 * 40960 ∧ mulCoef 0x00002000 32768 = 32768 * 8192 := by
  and_intros <;> decide +kernel

/-- Chapter 10, "Worked sizing": 48 channels at k = 1, and 64 channels at k = 1. -/
theorem test_worked_sizing :
    (let s := st ((List.range 48).map (fun c => (Reg.REC_ACH c, BitVec.ofNat 32 (2 ^ F.REC_ACH_en.lo))));
      rowBytes s = 192 ∧ recCap s = 5242880) ∧
    (let s := st ((List.range 64).map (fun c => (Reg.REC_ACH c, BitVec.ofNat 32 (2 ^ F.REC_ACH_en.lo))));
      rowBytes s = 256 ∧ recCap s = 3932160) := by
  and_intros <;> decide +kernel

/-- Chapter 9: the constants of the IEC standard inverse curve of the worked time of 51P. -/
theorem test_worked_curve : curveConst 1 = (14 / 100, 2 / 100, 0) := by decide +kernel

/-- Chapter 1: the worked read of a 64-bit time-stamp low word first: the high word answers the snapshot, and a master
without one the live word, its bit of snap_miss set. -/
theorem test_worked_snapshot :
    (let s := { idle with tai := BitVec.ofNat 66 (4 * 0x0005FFFFFFF8) };
      after (.snapshotRead 2 { a := 0x40030000 }) s (fun t => t.busReply == .data 0xFFFFFFF8 &&
        after (.highWordRead 2 { a := 0x40030004 }) { t with tai := BitVec.ofNat 66 (4 * 0x000600000008) } (fun u =>
          u.busReply == .data 5 && rd u Reg.SYS_SNAP_MISS == 0) &&
        after (.highWordRead 3 { a := 0x40030004 }) t (fun u => u.busReply == .data 5 && rd u Reg.SYS_SNAP_MISS == 8))) = true := by
  decide +kernel

/-- Chapter 9: a sample halfway between two words is their mean, across a wrap of the tags; one from an unusable word repeats
the sample 64 positions earlier and counts as a replacement; 32 samples at 50 Hz span 9.6875 ms (R252, R254, "A fault in
current limit"). -/
theorem test_phasor_samples :
    sampleValue ⟨0x4000, 0xFFFF, 0xC000, 1, true⟩ 0 = 0 ∧ sampleValue ⟨0x4000, 10, 0, 14, true⟩ 11 = 3 / 8 ∧
    (pushSample ⟨0x4000, 0, 0x4000, 4, false⟩ 2 ⟨List.replicate 63 0 ++ [5], List.replicate 64 false⟩).xs.head? = some 5 ∧
    windowBad (pushSample ⟨0, 0, 0, 4, false⟩ 2 ⟨[], List.replicate 8 true⟩) = true ∧
    windowBad (pushSample ⟨0, 0, 0, 4, true⟩ 2 ⟨[], List.replicate 8 true⟩) = false ∧ 31 * samplePeriod idle = 9687500 := by
  and_intros <;> decide +kernel

end Sys2Proof.Tests
end

section
/-! PROOFS. Accesses of register space: what a served word access does where no register is defined (R44), at the low word
of a 64-bit register (R49), and in the writes of one (R51). -/

namespace Sys2Proof.Machine

open Sys2Proof Sys2Proof.Safety Sys2Proof.Laws

/-! ### The bus hands a served word access on to register space -/

/-- A served, aligned word write of register space is done by `regWrite`. -/
theorem busWrite_register {m : Fin 8} {a : Nat} {s : State} (v hi : Word) (hreg : busRegion a = some .registers)
    (hal : a % 4 = 0) (hs : Served m true a 4 s) : busWrite m .word a v hi s = regWrite m a v (reply .done s) := by
  obtain ⟨hrun, hfirst, hlast : reaches s m true (a + 3) = true⟩ := hs
  simp [busWrite, accBytes, hrun, hfirst, hlast, hreg, hal]

/-- A served, aligned word read of register space is done by `regReadBus`. -/
theorem busRead_register {m : Fin 8} {a : Nat} {early : Bool} {s : State} (hreg : busRegion a = some .registers)
    (hs : Served m false a 4 s) : busRead m .word a early s = regReadBus m .word a early s := by
  obtain ⟨hrun, hfirst, hlast : reaches s m false (a + 3) = true⟩ := hs
  simp [busRead, accBytes, hrun, hfirst, hlast, hreg]

/-- R460: a read that the SPI host clocks early answers 0. -/
theorem regReadBus_early {a : Nat} (s : State) (hal : a % 4 = 0) :
    regReadBus 6 .word a true s = reply (.data 0) s := by
  simp [regReadBus, hal]

/-- A read in time answers the word that `regRead` gives. -/
theorem regReadBus_inTime {m : Fin 8} {a : Nat} {early : Bool} (s : State) (hal : a % 4 = 0)
    (he : early = false ∨ m ≠ 6) :
    regReadBus m .word a early s = reply (.data (regRead m a s).1) (regRead m a s).2 := by
  have hlate : (early && m == 6) = false := by simpa [imp_iff_not_or] using he
  simp [regReadBus, hal, hlate]

/-! ### Reads and writes of a word, by what stands at its address -/

theorem regWrite_undefined {m : Fin 8} {a : Nat} (v : Word) (s : State) (hmail : inMailbox a = false)
    (hr : findReg (canonReg a) = none) : regWrite m a v s = s := by
  simp [regWrite, hmail, hr]

theorem regRead_undefined {m : Fin 8} {a : Nat} (s : State) (hmail : inMailbox a = false)
    (hr : findReg (canonReg a) = none) : regRead m a s = (0, s) := by
  simp [regRead, hmail, hr]

theorem regRead_low {m : Fin 8} {a : Nat} {r : RegSpec} (s : State) (hmail : inMailbox a = false)
    (hr : findReg (canonReg a) = some r) (hw : r.wide = true) (hlow : r.isHigh (canonReg a) = false) :
    regRead m a s = readLow m (canonReg a) s := by
  simp [regRead, hmail, hr, hw, hlow]

theorem regWrite_low {m : Fin 8} {a : Nat} {r : RegSpec} (v : Word) (s : State) (hmail : inMailbox a = false)
    (hr : findReg (canonReg a) = some r) (hw : r.wide = true) (hlow : r.isHigh (canonReg a) = false) :
    regWrite m a v s = writeLow m r (canonReg a) v s := by
  simp [regWrite, hmail, hr, hw, hlow]

theorem regWrite_high {m : Fin 8} {a : Nat} {r : RegSpec} (v : Word) (s : State) (hmail : inMailbox a = false)
    (hr : findReg (canonReg a) = some r) (hw : r.wide = true) (hhigh : r.isHigh (canonReg a) = true) :
    regWrite m a v s = writeHigh m r (canonReg a - 4) v s := by
  simp [regWrite, hmail, hr, hw, hhigh]

/-- What the bus has answered is no part of a register's live value. -/
@[simp] theorem liveWide_reply (x : BusReply) (s : State) (a : Nat) : liveWide (reply x s) a = liveWide s a := rfl

/-! ### A high-word write, by the master's buffer (R51) -/

theorem writeHigh_readOnly {m : Fin 8} {r : RegSpec} (a : Nat) (v : Word) (s : State) (hro : r.hiRW = false) :
    writeHigh m r a v s = s := by
  simp [writeHigh, hro]

theorem writeHigh_held {m : Fin 8} {r : RegSpec} {a : Nat} {lo : Word} {s : State} (v : Word) (hrw : r.hiRW = true)
    (hb : s.snap[m] = .held a lo) : writeHigh m r a v s = commitWide r a (v ++ lo) (setSnap m .empty s) := by
  simp [writeHigh, hrw, hb]

theorem writeHigh_notHeld {m : Fin 8} {r : RegSpec} {a : Nat} {s : State} (v : Word) (hrw : r.hiRW = true)
    (hb : ∀ lo, s.snap[m] ≠ .held a lo) : writeHigh m r a v s = setMiss F.SYS_SNAP_MISS_stage_miss m
      (commitWide r a (v ++ (liveWide s a).extractLsb' 0 32) s) := by
  rw [writeHigh, if_pos hrw, ← writeHighAlone]
  split
  · next b lo heq =>
    have hne : b ≠ a := fun e => hb lo (e ▸ heq)
    rw [if_neg hne]
  · rfl

/-! ### The 64-bit registers that refuse a write -/

/-- Only the eight trigger targets have their base. -/
theorem dims_of_base_trigTarget {a : Nat} {r : RegSpec} (h : r ∈ blockRegs a) (hb : r.base = Reg.TIME_TRIG_TARGET 0) :
    r.dims = [(8, 0x10)] := by
  revert r
  unfold blockRegs
  split <;> decide

/-- Only the ten starts of the fault-injection units have their base. -/
theorem dims_of_base_fiStart {a : Nat} {r : RegSpec} (h : r ∈ blockRegs a) (hb : r.base = Reg.NET_FI_START 0) :
    r.dims = [(10, 0x20)] := by
  revert r
  unfold blockRegs
  split <;> decide

theorem no_wide_in_SYS {a : Nat} {r : RegSpec} (hr : findReg a = some r) (hw : r.wide = true) : a / 0x10000 ≠ 0x4000 := by
  intro hwin
  have hmem : r ∈ regsSYS := by simpa only [blockRegs, hwin] using findReg_mem hr
  exact absurd hw (Bool.eq_false_iff.1 ((by decide : ∀ r ∈ regsSYS, r.wide = false) r hmem))

/-- The index of a family of `n` wide registers, and its place, from the address of a high word. -/
theorem index_of_isHigh {r : RegSpec} {a n st : Nat} (hd : r.dims = [(n, st)]) (hc : r.covers a = true)
    (hh : r.isHigh a = true) (hst : 4 < st) :
    (a - 4 - r.base) / st < n ∧ a - 4 = r.base + st * ((a - 4 - r.base) / st) := by
  have hle := isHigh_le hc hh
  obtain ⟨hlt, hmod⟩ : (a - r.base) / st < n ∧ (a - r.base) % st = 4 := by
    simpa [RegSpec.isHigh, hd, dimsRest] using hh
  have hoff : a - 4 - r.base = st * ((a - r.base) / st) := by
    have := Nat.div_add_mod (a - r.base) st
    omega
  have hidx : (a - 4 - r.base) / st = (a - r.base) / st := by
    rw [hoff, Nat.mul_div_cancel_left _ (by omega)]
  exact ⟨hidx ▸ hlt, by rw [hidx]; omega⟩

/-! ### What a commit of a 64-bit register does -/

/-- A commit writes both words, and for PWR_RTC notes the instant; or the register takes no write, and nothing changes but
NET_STATUS.cfg_err for a locked fault-injection unit (R128, R405). Here `a` is the high word's address. -/
theorem commitWide_cases {r : RegSpec} {a : Nat} (v : BitVec 64) (s : State) (hr : findReg a = some r)
    (hh : r.isHigh a = true) :
    (∃ p, commitWide r (a - 4) v s = setPwr p (wr64 s (a - 4) (v &&& BitVec.ofNat 64 r.rw))) ∨
      ¬wideWritable (a - 4) s ∧ (commitWide r (a - 4) v s = s ∨ commitWide r (a - 4) v s = netErr s) := by
  unfold commitWide
  dsimp only
  split_ifs with htrig hrtc hfi
  · obtain ⟨hlt, haddr⟩ := index_of_isHigh (dims_of_base_trigTarget (findReg_mem hr) htrig) (findReg_covers hr) hh (by omega)
    have hn : a - 4 = Reg.TIME_TRIG_TARGET (Fin.ofNat 8 ((a - 4 - r.base) / 16)) := by
      rw [Fin.val_ofNat, Nat.mod_eq_of_lt hlt]
      simp only [Reg.TIME_TRIG_TARGET] at htrig ⊢
      omega
    rw [writeTrigTarget, ← hn]
    split_ifs with harmed
    · exact .inr ⟨fun hok => hok.1 _ hn harmed, .inl rfl⟩
    · exact .inl ⟨s.pwr, rfl⟩
  · exact .inl ⟨_, rfl⟩
  · obtain ⟨hbase, hlock⟩ := hfi
    obtain ⟨hlt, haddr⟩ := index_of_isHigh (dims_of_base_fiStart (findReg_mem hr) hbase) (findReg_covers hr) hh (by omega)
    have hu : a - 4 = Reg.NET_FI_START (⟨(a - 4 - r.base) / 0x20, hlt⟩ : Fin 10) := by
      simp only [Reg.NET_FI_START] at hbase ⊢
      omega
    exact .inr ⟨fun hok => absurd hlock (Bool.eq_false_iff.1 (hok.2 _ hu)), .inr rfl⟩
  · exact .inl ⟨s.pwr, rfl⟩

section Commit

variable {r : RegSpec} {a : Nat} (v : BitVec 64) (s : State) (hr : findReg a = some r) (hh : r.isHigh a = true)
include hr hh

theorem commitWide_busReply : (commitWide r (a - 4) v s).busReply = s.busReply := by
  obtain ⟨p, h⟩ | ⟨-, h | h⟩ := commitWide_cases v s hr hh <;> rw [h] <;> rfl

theorem commitWide_snap : (commitWide r (a - 4) v s).snap = s.snap := by
  obtain ⟨p, h⟩ | ⟨-, h | h⟩ := commitWide_cases v s hr hh <;> rw [h] <;> rfl

theorem commitWide_onlyRegs : OnlyRegs [a - 4, a, Reg.NET_STATUS] s (commitWide r (a - 4) v s) := by
  intro b hb
  have ha4 : a - 4 + 4 = a := by have := isHigh_le (findReg_covers hr) hh; omega
  obtain ⟨hlo, hhi, hnet⟩ : b ≠ a - 4 ∧ b ≠ a ∧ b ≠ Reg.NET_STATUS := by simpa using hb
  obtain ⟨p, h⟩ | ⟨-, h | h⟩ := commitWide_cases v s hr hh <;> rw [h]
  · exact rd_wr64_ne s _ hlo (ha4.symm ▸ hhi)
  · exact rd_setF_ne s _ _ hnet

theorem rd64_commitWide (hok : wideWritable (a - 4) s) :
    rd64 (commitWide r (a - 4) v s) (a - 4) = v &&& BitVec.ofNat 64 r.rw := by
  obtain ⟨p, h⟩ | ⟨hno, -⟩ := commitWide_cases v s hr hh
  · rw [h]
    exact rd64_wr64 s _ _
  · exact absurd hok hno

end Commit

/-! ### The master's bit of SYS_SNAP_MISS -/

theorem fbit_setMiss_stage (m : Fin 8) (s : State) :
    fbit (setMiss F.SYS_SNAP_MISS_stage_miss m s) Reg.SYS_SNAP_MISS F.SYS_SNAP_MISS_stage_miss m = true := by
  rw [setMiss, fbit_setFbit _ _ _ _ _ _ (by decide) m.isLt, if_pos rfl]

@[simp] theorem setMiss_busReply (F : Fld) (m : Fin 8) (s : State) : (setMiss F m s).busReply = s.busReply := rfl

@[simp] theorem setMiss_snap (F : Fld) (m : Fin 8) (s : State) : (setMiss F m s).snap = s.snap := rfl

theorem rd_setMiss_ne (F : Fld) (m : Fin 8) (s : State) {b : Nat} (hb : b ≠ Reg.SYS_SNAP_MISS) :
    rd (setMiss F m s) b = rd s b := rd_setFbit_ne s F m true hb

/-- A 64-bit register lies apart from SYS_SNAP_MISS. -/
theorem rd64_setMiss {r : RegSpec} {a : Nat} (F : Fld) (m : Fin 8) (s : State) (hr : findReg a = some r)
    (hw : r.wide = true) (hh : r.isHigh a = true) : rd64 (setMiss F m s) (a - 4) = rd64 s (a - 4) := by
  have hwin := no_wide_in_SYS hr hw
  have h4 := isHigh_le (findReg_covers hr) hh
  simp only [rd64]
  rw [rd_setMiss_ne F m s (b := a - 4 + 4) (by simp only [Reg.SYS_SNAP_MISS]; omega),
    rd_setMiss_ne F m s (b := a - 4) (by simp only [Reg.SYS_SNAP_MISS]; omega)]

end Sys2Proof.Machine

namespace Sys2Proof.Proofs

open Sys2Proof Sys2Proof.Machine Sys2Proof.Safety Sys2Proof.Laws

/-- Settles O12: the write reaches no register, and the read answers 0 whether it comes early or in time. -/
theorem noRegisterThere : Obligations.NoRegisterThere := by
  intro m a v same early s hreg hal hmail hr
  constructor
  · intro hs
    exact congrArg Host.Outcome.next ((busWrite_register _ _ hreg hal hs).trans (regWrite_undefined _ _ hmail hr))
  · intro hs
    refine congrArg Host.Outcome.next ((busRead_register hreg hs).trans ?_)
    by_cases he : early = false ∨ m ≠ 6
    · rw [regReadBus_inTime s hal he, regRead_undefined s hmail hr]
      rfl
    · obtain ⟨rfl, rfl⟩ : early = true ∧ m = 6 := by simpa using he
      exact regReadBus_early s hal

/-- Settles O13: a read in time is `readLow`, which loads the buffer with the whole live value. -/
theorem snapshotRead : Obligations.SnapshotRead := by
  intro m a early s r hreg hal hmail hs hr hw hlow he
  refine congrArg Host.Outcome.next ((busRead_register hreg hs).trans ?_)
  rw [regReadBus_inTime s hal he, regRead_low s hmail hr hw hlow]
  rfl

/-- Settles O15: the write of a high word is a commit, or a commit beside the live low half that also sets the master's
stage_miss bit. -/
theorem wideWrite : Obligations.WideWrite := by
  intro m a v s r hreg hal hmail hs hr hw
  have hbus : regCommand m a.toNat v s = regWrite m a.toNat v (reply .done s) := busWrite_register v 0 hreg hal hs
  refine ⟨fun hlow => ?_, fun hhigh hro => ?_, fun hhigh hrw => ⟨fun lo hheld => ?_, fun hnone => ?_⟩⟩
  · refine congrArg Host.Outcome.next (hbus.trans ?_)
    rw [regWrite_low v _ hmail hr hw hlow, writeLow]
    rfl
  · refine congrArg Host.Outcome.next (hbus.trans ?_)
    rw [regWrite_high v _ hmail hr hw hhigh, writeHigh_readOnly _ _ _ hro]
    rfl
  · have hcommit := hbus.trans ((regWrite_high v _ hmail hr hw hhigh).trans (writeHigh_held v hrw hheld))
    refine ⟨_, congrArg Host.Outcome.next hcommit, ?_, ?_, ?_, ?_⟩
    · exact commitWide_busReply _ _ hr hhigh
    · exact commitWide_snap _ _ hr hhigh
    · exact commitWide_onlyRegs _ _ hr hhigh
    · intro hok
      exact rd64_commitWide _ _ hr hhigh hok
  · have halone := hbus.trans ((regWrite_high v _ hmail hr hw hhigh).trans (writeHigh_notHeld v hrw hnone))
    refine ⟨_, congrArg Host.Outcome.next halone, ?_, ?_, ?_, ?_, ?_⟩
    · exact (setMiss_busReply ..).trans (commitWide_busReply _ _ hr hhigh)
    · exact (setMiss_snap ..).trans (commitWide_snap _ _ hr hhigh)
    · rw [fbit_setMiss_stage]
    · intro b hb
      obtain ⟨hcommit, hmiss⟩ : b ∉ [canonReg a.toNat - 4, canonReg a.toNat, Reg.NET_STATUS] ∧ b ≠ Reg.SYS_SNAP_MISS := by
        simpa [and_assoc] using hb
      exact (rd_setMiss_ne _ m _ hmiss).trans (commitWide_onlyRegs _ _ hr hhigh b hcommit)
    · intro hok
      rw [rd64_setMiss _ m _ hr hw hhigh, ← liveWide_reply .done s]
      exact rd64_commitWide _ _ hr hhigh hok

end Sys2Proof.Proofs
end

section
/-! PROOFS. The step as a whole: every command answers a next state, within its footprint, and keeps the state sound. -/

namespace Sys2Proof.Proofs

open Sys2Proof Sys2Proof.Machine Sys2Proof.Safety Sys2Proof.Laws

/-! ### Every command answers -/

/-- An outcome that is a next state. -/
def Answers (o : Out) : Prop := ∃ t, o = .next t

theorem answers_next (t : State) : Answers (.next t) := ⟨t, rfl⟩

theorem answers_ite {c : Prop} [Decidable c] {a b : Out} (ha : Answers a) (hb : Answers b) :
    Answers (if c then a else b) := by
  split
  · exact ha
  · exact hb

/-- A frame that arrives is carried out, carried out spoilt, or held by the unit; each answers. -/
theorem arrives_answers {u : Fin 10} {field : BitVec 16} {i : Instr} {run : State → Out} {bad : Option (Instr × (State → Out))}
    {s : State} (hrun : ∀ y, Answers (run y)) (hbad : ∀ b ∈ bad, ∀ y, Answers (b.2 y)) :
    Answers (arrives u field i run bad s) := by
  unfold arrives
  refine answers_ite (hrun _) (answers_ite (hrun _) ?_)
  dsimp only
  split
  · exact answers_next _
  · refine answers_ite (hrun _) ?_
    split
    · exact answers_ite (hbad _ rfl _) (answers_next _)
    · exact answers_next _

theorem onChannel_answers {q : ReqHeader} {i : Instr} {run : State → Out} {s : State} (hrun : ∀ y, Answers (run y)) :
    Answers (onChannel q i run s) :=
  answers_ite (arrives_answers hrun (fun _ h => nomatch h)) (hrun s)

theorem guyArrives_answers {ty : BitVec 16} {h : GuyHeader} {mk : GuyHeader → Instr} {run : GuyHeader → State → Out}
    {s : State} (hrun : ∀ k y, Answers (run k y)) : Answers (guyArrives ty h mk run s) :=
  arrives_answers (hrun h) (fun _ hb y => by obtain rfl := Option.some.inj hb; exact hrun _ y)

theorem ptpSync_answers (p : Fin 2) (t : BitVec 66) (x : PtpSync) (s : State) : Answers (ptpSync p t x s) :=
  answers_ite (answers_next _) (answers_next _)

theorem ptpAnnounce_answers (p : Fin 2) (x : Option Announce) (s : State) : Answers (ptpAnnounce p x s) := by
  unfold ptpAnnounce
  dsimp only
  refine answers_ite (answers_next _) ?_
  split <;> exact answers_next _

theorem probeReplyIn_answers (r : ProbeReply) (s : State) : Answers (probeReplyIn r s) := by
  unfold probeReplyIn
  dsimp only
  (repeat' split) <;> exact answers_next _

theorem mvbMaster_answers (a : BitVec 12) (x : List Word) (s : State) : Answers (mvbMaster a x s) := by
  unfold mvbMaster
  dsimp only
  (repeat' split) <;> exact answers_next _

theorem modbusIn_answers (p : Fin 2) (x : ModbusFrame) (s : State) : Answers (modbusIn p x s) := by
  unfold modbusIn
  (repeat' split) <;> exact answers_next _

theorem execIndirectAccessDone_answers (c : Fin 4) (s : State) : Answers (execIndirectAccessDone c s) := by
  unfold execIndirectAccessDone
  (repeat' split) <;> exact answers_next _

theorem execGroupSwapped_answers (s : State) : Answers (execGroupSwapped s) := by
  unfold execGroupSwapped
  (repeat' split) <;> exact answers_next _

theorem execColdStart_answers (p : StartPins) (cal : Vector CalSet 4) (s : State) : Answers (execColdStart p cal s) := by
  unfold execColdStart
  (repeat' split) <;> exact answers_next _

theorem execWarmStart_answers (p : StartPins) (refreshOk hashOk : Bool) (cal : Vector CalSet 4) (s : State) :
    Answers (execWarmStart p refreshOk hashOk cal s) := by
  unfold execWarmStart
  refine answers_ite ?_ (answers_next _)
  split <;> exact answers_next _

theorem execPtpSync_answers (port : Fin 2) (x : PtpSync) (s : State) : Answers (execPtpSync port x s) :=
  arrives_answers (ptpSync_answers port _ x) (fun _ h => nomatch h)

theorem execPtpAnnounce_answers (port : Fin 2) (x : Option Announce) (s : State) : Answers (execPtpAnnounce port x s) := by
  unfold execPtpAnnounce
  split
  · exact ptpAnnounce_answers ..
  · exact arrives_answers (ptpAnnounce_answers port _) (fun _ h => nomatch h)

theorem execTiming_answers (path : Fin 2) (theta : Int) (s : State) : Answers (execTiming path theta s) :=
  arrives_answers (fun _ => answers_ite (answers_next _) (answers_next _)) (fun _ h => nomatch h)

theorem execTimeSourceLost_answers (src : Fin 5) (s : State) : Answers (execTimeSourceLost src s) := by
  unfold execTimeSourceLost
  dsimp only
  (repeat' split) <;> exact answers_next _

theorem execAdcStartEvent_answers (c : Fin 4) (k : StartKind) (s : State) : Answers (execAdcStartEvent c k s) := by
  refine answers_ite (answers_next _) ?_
  cases k <;> exact answers_next _

theorem execAdcConversion_answers (c : Fin 4) (code : Int) (s : State) : Answers (execAdcConversion c code s) := by
  unfold execAdcConversion
  dsimp only
  (repeat' split) <;> exact answers_next _

theorem execDeadTimeElapsed_answers (p : Fin 12) (s : State) : Answers (execDeadTimeElapsed p s) := by
  unfold execDeadTimeElapsed
  dsimp only
  (repeat' split) <;> exact answers_next _

theorem execDeferredDecision_answers (p : Fin 12) (s : State) : Answers (execDeferredDecision p s) := by
  unfold execDeferredDecision
  dsimp only
  (repeat' split) <;> exact answers_next _

theorem execFiltStreamRecovered_answers (i : Fin 24) (s : State) : Answers (execFiltStreamRecovered i s) := by
  unfold execFiltStreamRecovered
  dsimp only
  (repeat' split) <;> exact answers_next _

theorem execOutputInstant_answers (st : Fin 4) (s : State) : Answers (execOutputInstant st s) := by
  unfold execOutputInstant
  dsimp only
  (repeat' split) <;> exact answers_next _

theorem execProfileStep_answers (g : Fin 16) (s : State) : Answers (execProfileStep g s) := by
  unfold execProfileStep
  dsimp only
  (repeat' split) <;> exact answers_next _

theorem execRampComplete_answers (g : Fin 2) (s : State) : Answers (execRampComplete g s) := by
  unfold execRampComplete
  dsimp only
  (repeat' split) <;> exact answers_next _

theorem execLimitRelease_answers (g : Fin 2) (s : State) : Answers (execLimitRelease g s) := by
  unfold execLimitRelease
  dsimp only
  (repeat' split) <;> exact answers_next _

theorem execGfmTimeMode_answers (g : Fin 2) (s : State) : Answers (execGfmTimeMode g s) := by
  refine answers_ite (answers_next _) (answers_ite ?_ (answers_next _))
  split <;> exact answers_next _

theorem execThermalUpdate_answers (f : Fin 8) (s : State) : Answers (execThermalUpdate f s) := by
  unfold execThermalUpdate
  dsimp only
  (repeat' split) <;> exact answers_next _

theorem execBkrDiscrepancy_answers (f : Fin 8) (s : State) : Answers (execBkrDiscrepancy f s) := by
  unfold execBkrDiscrepancy
  dsimp only
  (repeat' split) <;> exact answers_next _

theorem execUnit32Operate_answers (g : Fin 2) (s : State) : Answers (execUnit32Operate g s) := by
  unfold execUnit32Operate
  dsimp only
  (repeat' split) <;> exact answers_next _

theorem execRecStored_answers (s : State) : Answers (execRecStored s) := by
  unfold execRecStored
  dsimp only
  (repeat' split) <;> exact answers_next _

theorem execTaskRelease_answers (k : Fin 2) (t : Fin 8) (s : State) : Answers (execTaskRelease k t s) := by
  unfold execTaskRelease
  dsimp only
  (repeat' split) <;> exact answers_next _

theorem execHoldEnded_answers (k : Fin 2) (s : State) : Answers (execHoldEnded k s) := by
  unfold execHoldEnded
  dsimp only
  (repeat' split) <;> exact answers_next _

theorem execHeartbeat_answers (h : GuyHeader) (b : Heartbeat) (s : State) : Answers (execHeartbeat h b s) :=
  guyArrives_answers fun _ _ => answers_next _

theorem execPathUp_answers (h : GuyHeader) (b : Heartbeat) (s : State) : Answers (execPathUp h b s) :=
  guyArrives_answers fun _ _ => answers_ite (answers_next _) (answers_next _)

theorem execMirror_answers (h : GuyHeader) (x : MirrorMsg) (s : State) : Answers (execMirror h x s) :=
  guyArrives_answers fun _ _ => answers_next _

theorem execMirrorGfm_answers (h : GuyHeader) (x : Vector GfmMirror 2) (s : State) : Answers (execMirrorGfm h x s) :=
  guyArrives_answers fun _ _ => answers_next _

theorem execRetain_answers (h : GuyHeader) (x : Vector (Option RetainedSet) 2) (s : State) : Answers (execRetain h x s) :=
  guyArrives_answers fun _ _ => answers_next _

theorem execDying_answers (h : GuyHeader) (reason : Nat) (s : State) : Answers (execDying h reason s) :=
  guyArrives_answers fun _ _ => answers_next _

theorem execSwitch_answers (h : GuyHeader) (at' : BitVec 64) (s : State) : Answers (execSwitch h at' s) :=
  guyArrives_answers fun _ _ => answers_next _

theorem execSwitchAck_answers (h : GuyHeader) (at' : BitVec 64) (s : State) : Answers (execSwitchAck h at' s) :=
  guyArrives_answers fun _ _ => answers_next _

theorem execSwitchCancel_answers (h : GuyHeader) (at' : BitVec 64) (s : State) : Answers (execSwitchCancel h at' s) :=
  guyArrives_answers fun _ _ => answers_next _

theorem execSyncReq_answers (h : GuyHeader) (v : Versions) (s : State) : Answers (execSyncReq h v s) :=
  guyArrives_answers fun _ _ => answers_next _

theorem execSyncData_answers (h : GuyHeader) (x : List SyncItem) (s : State) : Answers (execSyncData h x s) :=
  guyArrives_answers fun _ _ => answers_next _

theorem execSettings_answers (h : GuyHeader) (x : List SettingsRecord) (frame : BitVec 64) (s : State) :
    Answers (execSettings h x frame s) := guyArrives_answers fun _ _ => answers_next _

theorem execProbe_answers (p : Prober) (epoch : Word) (s : State) : Answers (execProbe p epoch s) :=
  arrives_answers (fun _ => answers_ite (answers_next _) (answers_next _)) (fun _ h => nomatch h)

theorem execProbeReply_answers (r : ProbeReply) (s : State) : Answers (execProbeReply r s) :=
  arrives_answers (probeReplyIn_answers _) (fun _ h => nomatch h)

theorem execProbeTimeout_answers (s : State) : Answers (execProbeTimeout s) := by
  unfold execProbeTimeout
  dsimp only
  (repeat' split) <;> exact answers_next _

theorem execSwitchInstant_answers (s : State) : Answers (execSwitchInstant s) := by
  unfold execSwitchInstant
  (repeat' split) <;> exact answers_next _

theorem execLinkDown_answers (p : Fin 3) (s : State) : Answers (execLinkDown p s) := by
  unfold execLinkDown
  (repeat' split) <;> exact answers_next _

theorem execPdPublish_answers (i : Fin 64) (s : State) : Answers (execPdPublish i s) := by
  unfold execPdPublish
  dsimp only
  (repeat' split) <;> exact answers_next _

theorem execPdTimeout_answers (i : Fin 64) (s : State) : Answers (execPdTimeout i s) := by
  unfold execPdTimeout
  dsimp only
  (repeat' split) <;> exact answers_next _

theorem execModbusTimeout_answers (p : Fin 2) (s : State) : Answers (execModbusTimeout p s) := by
  unfold execModbusTimeout
  (repeat' split) <;> exact answers_next _

theorem execTlsHandshake_answers (ip : Word) (certOk : Bool) (s : State) : Answers (execTlsHandshake ip certOk s) := by
  unfold execTlsHandshake
  (repeat' split) <;> exact answers_next _

theorem execFiRelease_answers (u : Fin 10) (s : State) : Answers (execFiRelease u s) := by
  unfold execFiRelease
  (repeat' split) <;> exact answers_next _

theorem execOpEnded_answers (n : Fin 16) (s : State) : Answers (execOpEnded n s) := by
  unfold execOpEnded
  (repeat' split) <;> exact answers_next _

theorem execOpExpired_answers (n : Fin 16) (s : State) : Answers (execOpExpired n s) := by
  unfold execOpExpired
  split
  · exact answers_next _
  · exact answers_ite (answers_next _) (answers_next _)

theorem execCanFrameReceived_answers (p : Fin 2) (id : Nat) (data : List Word) (s : State) :
    Answers (execCanFrameReceived p id data s) :=
  arrives_answers (fun _ => answers_ite (answers_next _) (answers_next _)) (fun _ h => nomatch h)

theorem execMvbMasterFrame_answers (addr : BitVec 12) (data : List Word) (s : State) :
    Answers (execMvbMasterFrame addr data s) := arrives_answers (mvbMaster_answers _ _) (fun _ h => nomatch h)

theorem execModbusFrameReceived_answers (p : Fin 2) (x : ModbusFrame) (s : State) :
    Answers (execModbusFrameReceived p x s) := arrives_answers (modbusIn_answers _ _) (fun _ h => nomatch h)

theorem execSettingsApplied_answers (s : State) : Answers (execSettingsApplied s) := by
  unfold execSettingsApplied
  (repeat' split) <;> exact answers_next _

theorem execImageVerified_answers (s : State) : Answers (execImageVerified s) := by
  unfold execImageVerified
  (repeat' split) <;> exact answers_next _

theorem execTrialExpired_answers (s : State) : Answers (execTrialExpired s) := by
  unfold execTrialExpired
  split <;> exact answers_next _

theorem execCanTxCycle_answers (k : Fin 2) (b : Fin 32) (s : State) : Answers (execCanTxCycle k b s) := by
  unfold execCanTxCycle
  dsimp only
  (repeat' split) <;> exact answers_next _

theorem execModbusPoll_answers (p : Fin 2) (s : State) : Answers (execModbusPoll p s) := by
  unfold execModbusPoll
  dsimp only
  (repeat' split) <;> exact answers_next _

/-- The cases group the commands by the shape of their meanings: a next state outright, one of two or three under conditions, one
behind a channel's port, and the others by a lemma each. -/
theorem exec_answers (c : Instr) (s : State) : Answers (exec c s) := by
  cases c
  case registerWrite | snapshotRead | highWordRead | lowWordWrite | highWordWrite | tripStrobe | routeWord |
      frameBoundary | inputImagePublication | fabIndGo | shadowSlot | checkNow | powerFail | vinLoss |
      sysResetCtrlGo | pllCoast | timeStepGo | trigArm | trigDisarm | adcRun | adcStop | adcCal | adcCommit |
      chainOutput | fastOutput | filterService | filtCfgWrite | filtRestarted | stageStart | stageStop |
      innerChange | pwmBlockWrite | gateReleaseWrite | gfmStart | gfmStop | gfmAck | lineClassify | slotInstant |
      backoffExpiry | phasorUpdate | thermalSave | recCtrlArm | recCtrlDisarm | recCtrlTrigger | captureSample |
      storedRow | levelTrigger | recMaskViolation | recTriggered | cycleComplete | scanTrap | scanRun | scanStop |
      scanHold | scanStep | retainCommit | scanAutostart | progSwap | remoteSet | doOverloadRelease | fieldLow |
      fieldLost | fieldAck | groupKill | vtripLow | dpxSwitch | dpxCancel | digestUpdate | canRecovery | fiArm |
      fiDisarm | cmdDoorbell | chanReset | evtSel | gdfInactive | hardLiveCleared | vinLowCleared | vtripRestored |
      fieldLowCleared =>
    exact answers_next _
  case fieldLinkFrame | mirrorFrameOpen | tileRetired | vinLow | sensorFault | sensorRetry | resetN | watchdogExpiry |
      fatalFault | rtcLoad | refRestored | pllRelocked | refFallback | ppsOutPulse | trigFire | adcCalDone |
      hardCmp | bandCrossing | modStuck | loopSample | bandUpdate | gdfActive | lineDeadConfirmed |
      lineLiveConfirmed | contactorCheck | syncClose | syncTimeout | limitHeld | rideResume | rideExpired |
      protOperate | lmdArmed | lmdNoFeeder | bkrRetrip | bkrFail | tripCommandEnd | tcAlarm | tcRestored |
      binaryChange | recClosed | recRearm | cycleStart | remoteStale | diSample | doOverload | doRetry |
      demagExcess | strobeMismatch | tripShort | tripOvertime | tripCooldownEnd | tripSupervision | tripExtDrive |
      safeStateEntered | safeStateLeft | pathDown | listenTimeout | releaseTimer | degradedProbe | syncDone |
      syncReqRetry | linkUp | prpLanLost | prpLanRestored | canBusOff | mvbLineFail | fiStart | fiFrame |
      channelIdle | evtLost | supervisorRestart | deferredRevert | commissioningEnd | compareMatch | sessionClosed =>
    exact answers_ite (answers_next _) (answers_next _)
  case wake | refLost | ppsInEdge | carrierEvent | blackstartAbort | fast50p | freqTrack | doMonitor | fieldRestored |
      heartbeatSend | partnerLost | switchDeadline =>
    exact answers_ite (answers_next _) (answers_ite (answers_next _) (answers_next _))
  case sleep | identify | readRegs | writeRegs | opStatus | opList | opSuspend | opResume | opCancel | opRelease |
      eventRead | settingsRead | settingsWrite | reset | forceSet | forceClear | forceList | scanCtrl | recArm |
      recDisarm | recTrigger | recList | recLock | recUnlock | recDelete | recExport | fileRead | imageBegin |
      imageData | imageVerify | imageActivate | imageConfirm | imageAbandon | switchover | serviceState =>
    exact onChannel_answers fun _ => answers_next _
  case indirectAccessDone => exact execIndirectAccessDone_answers ..
  case groupSwapped => exact execGroupSwapped_answers ..
  case coldStart => exact execColdStart_answers ..
  case warmStart => exact execWarmStart_answers ..
  case ptpSync => exact execPtpSync_answers ..
  case ptpAnnounce => exact execPtpAnnounce_answers ..
  case timing => exact execTiming_answers ..
  case timeSourceLost => exact execTimeSourceLost_answers ..
  case adcStartEvent => exact execAdcStartEvent_answers ..
  case adcConversion => exact execAdcConversion_answers ..
  case deadTimeElapsed => exact execDeadTimeElapsed_answers ..
  case deferredDecision => exact execDeferredDecision_answers ..
  case filtStreamRecovered => exact execFiltStreamRecovered_answers ..
  case outputInstant => exact execOutputInstant_answers ..
  case profileStep => exact execProfileStep_answers ..
  case rampComplete => exact execRampComplete_answers ..
  case limitRelease => exact execLimitRelease_answers ..
  case gfmTimeMode => exact execGfmTimeMode_answers ..
  case thermalUpdate => exact execThermalUpdate_answers ..
  case bkrDiscrepancy => exact execBkrDiscrepancy_answers ..
  case unit32Operate => exact execUnit32Operate_answers ..
  case recStored => exact execRecStored_answers ..
  case taskRelease => exact execTaskRelease_answers ..
  case holdEnded => exact execHoldEnded_answers ..
  case heartbeat => exact execHeartbeat_answers ..
  case pathUp => exact execPathUp_answers ..
  case mirror => exact execMirror_answers ..
  case mirrorGfm => exact execMirrorGfm_answers ..
  case retain => exact execRetain_answers ..
  case dying => exact execDying_answers ..
  case switch => exact execSwitch_answers ..
  case switchAck => exact execSwitchAck_answers ..
  case switchCancel => exact execSwitchCancel_answers ..
  case syncReq => exact execSyncReq_answers ..
  case syncData => exact execSyncData_answers ..
  case settings => exact execSettings_answers ..
  case probe => exact execProbe_answers ..
  case probeReply => exact execProbeReply_answers ..
  case probeTimeout => exact execProbeTimeout_answers ..
  case switchInstant => exact execSwitchInstant_answers ..
  case linkDown => exact execLinkDown_answers ..
  case pdPublish => exact execPdPublish_answers ..
  case pdTimeout => exact execPdTimeout_answers ..
  case modbusTimeout => exact execModbusTimeout_answers ..
  case tlsHandshake => exact execTlsHandshake_answers ..
  case fiRelease => exact execFiRelease_answers ..
  case opEnded => exact execOpEnded_answers ..
  case opExpired => exact execOpExpired_answers ..
  case canFrameReceived => exact execCanFrameReceived_answers ..
  case mvbMasterFrame => exact execMvbMasterFrame_answers ..
  case modbusFrameReceived => exact execModbusFrameReceived_answers ..
  case settingsApplied => exact execSettingsApplied_answers ..
  case imageVerified => exact execImageVerified_answers ..
  case trialExpired => exact execTrialExpired_answers ..
  case canTxCycle => exact execCanTxCycle_answers ..
  case modbusPoll => exact execModbusPoll_answers ..

/-! ### Footprint and soundness -/

/-- From a state that a footprint reaches, every command stays within its own footprint and keeps the state sound. -/
theorem exec_evo {f : Foot} {s x : State} (c : Instr) (hf : Foot.le (touches c) f) (h : Ev f s x) : EvO f s (exec c x) := by
  cases c with
  | registerWrite => exact execRegisterWrite_ev hf h
  | snapshotRead => exact execSnapshotRead_ev hf h
  | highWordRead => exact execHighWordRead_ev hf h
  | lowWordWrite => exact execLowWordWrite_ev hf h
  | highWordWrite => exact execHighWordWrite_ev hf h
  | fieldLinkFrame => exact execFieldLinkFrame_ev hf h
  | tripStrobe => exact execTripStrobe_ev hf h
  | routeWord => exact execRouteWord_ev hf h
  | frameBoundary => exact execFrameBoundary_ev hf h
  | inputImagePublication => exact execInputImagePublication_ev hf h
  | fabIndGo => exact execFabIndGo_ev hf h
  | indirectAccessDone => exact execIndirectAccessDone_ev hf h
  | mirrorFrameOpen => exact execMirrorFrameOpen_ev hf h
  | groupSwapped => exact execGroupSwapped_ev hf h
  | shadowSlot => exact execShadowSlot_ev hf h
  | tileRetired => exact execTileRetired_ev hf h
  | checkNow => exact execCheckNow_ev hf h
  | coldStart => exact execColdStart_ev hf h
  | warmStart => exact execWarmStart_ev hf h
  | vinLow => exact execVinLow_ev hf h
  | powerFail => exact execPowerFail_ev hf h
  | vinLoss => exact execVinLoss_ev hf h
  | sensorFault => exact execSensorFault_ev hf h
  | sensorRetry => exact execSensorRetry_ev hf h
  | resetN => exact execResetN_ev hf h
  | sysResetCtrlGo => exact execSysResetCtrlGo_ev hf h
  | watchdogExpiry => exact execWatchdogExpiry_ev hf h
  | fatalFault => exact execFatalFault_ev hf h
  | sleep => exact execSleep_ev hf h
  | wake => exact execWake_ev hf h
  | rtcLoad => exact execRtcLoad_ev hf h
  | refLost => exact execRefLost_ev hf h
  | pllCoast => exact execPllCoast_ev hf h
  | refRestored => exact execRefRestored_ev hf h
  | pllRelocked => exact execPllRelocked_ev hf h
  | refFallback => exact execRefFallback_ev hf h
  | ptpSync => exact execPtpSync_ev hf h
  | ptpAnnounce => exact execPtpAnnounce_ev hf h
  | timing => exact execTiming_ev hf h
  | ppsInEdge => exact execPpsInEdge_ev hf h
  | timeSourceLost => exact execTimeSourceLost_ev hf h
  | ppsOutPulse => exact execPpsOutPulse_ev hf h
  | timeStepGo => exact execTimeStepGo_ev hf h
  | trigArm => exact execTrigArm_ev hf h
  | trigDisarm => exact execTrigDisarm_ev hf h
  | trigFire => exact execTrigFire_ev hf h
  | adcRun => exact execAdcRun_ev hf h
  | adcStop => exact execAdcStop_ev hf h
  | adcCal => exact execAdcCal_ev hf h
  | adcCommit => exact execAdcCommit_ev hf h
  | adcStartEvent => exact execAdcStartEvent_ev hf h
  | adcConversion => exact execAdcConversion_ev hf h
  | adcCalDone => exact execAdcCalDone_ev hf h
  | hardCmp => exact execHardCmp_ev hf h
  | bandCrossing => exact execBandCrossing_ev hf h
  | deadTimeElapsed => exact execDeadTimeElapsed_ev hf h
  | deferredDecision => exact execDeferredDecision_ev hf h
  | modStuck => exact execModStuck_ev hf h
  | filtStreamRecovered => exact execFiltStreamRecovered_ev hf h
  | chainOutput => exact execChainOutput_ev hf h
  | fastOutput => exact execFastOutput_ev hf h
  | filterService => exact execFilterService_ev hf h
  | filtCfgWrite => exact execFiltCfgWrite_ev hf h
  | filtRestarted => exact execFiltRestarted_ev hf h
  | loopSample => exact execLoopSample_ev hf h
  | outputInstant => exact execOutputInstant_ev hf h
  | bandUpdate => exact execBandUpdate_ev hf h
  | carrierEvent => exact execCarrierEvent_ev hf h
  | profileStep => exact execProfileStep_ev hf h
  | stageStart => exact execStageStart_ev hf h
  | stageStop => exact execStageStop_ev hf h
  | innerChange => exact execInnerChange_ev hf h
  | gdfActive => exact execGdfActive_ev hf h
  | pwmBlockWrite => exact execPwmBlockWrite_ev hf h
  | gateReleaseWrite => exact execGateReleaseWrite_ev hf h
  | gfmStart => exact execGfmStart_ev hf h
  | gfmStop => exact execGfmStop_ev hf h
  | gfmAck => exact execGfmAck_ev hf h
  | lineClassify => exact execLineClassify_ev hf h
  | lineDeadConfirmed => exact execLineDeadConfirmed_ev hf h
  | lineLiveConfirmed => exact execLineLiveConfirmed_ev hf h
  | contactorCheck => exact execContactorCheck_ev hf h
  | slotInstant => exact execSlotInstant_ev hf h
  | backoffExpiry => exact execBackoffExpiry_ev hf h
  | rampComplete => exact execRampComplete_ev hf h
  | blackstartAbort => exact execBlackstartAbort_ev hf h
  | syncClose => exact execSyncClose_ev hf h
  | syncTimeout => exact execSyncTimeout_ev hf h
  | limitHeld => exact execLimitHeld_ev hf h
  | limitRelease => exact execLimitRelease_ev hf h
  | rideResume => exact execRideResume_ev hf h
  | rideExpired => exact execRideExpired_ev hf h
  | gfmTimeMode => exact execGfmTimeMode_ev hf h
  | phasorUpdate => exact execPhasorUpdate_ev hf h
  | protOperate => exact execProtOperate_ev hf h
  | fast50p => exact execFast50p_ev hf h
  | freqTrack => exact execFreqTrack_ev hf h
  | thermalUpdate => exact execThermalUpdate_ev hf h
  | thermalSave => exact execThermalSave_ev hf h
  | lmdArmed => exact execLmdArmed_ev hf h
  | lmdNoFeeder => exact execLmdNoFeeder_ev hf h
  | bkrRetrip => exact execBkrRetrip_ev hf h
  | bkrFail => exact execBkrFail_ev hf h
  | tripCommandEnd => exact execTripCommandEnd_ev hf h
  | bkrDiscrepancy => exact execBkrDiscrepancy_ev hf h
  | tcAlarm => exact execTcAlarm_ev hf h
  | tcRestored => exact execTcRestored_ev hf h
  | unit32Operate => exact execUnit32Operate_ev hf h
  | recCtrlArm => exact execRecCtrlArm_ev hf h
  | recCtrlDisarm => exact execRecCtrlDisarm_ev hf h
  | recCtrlTrigger => exact execRecCtrlTrigger_ev hf h
  | captureSample => exact execCaptureSample_ev hf h
  | storedRow => exact execStoredRow_ev hf h
  | levelTrigger => exact execLevelTrigger_ev hf h
  | recMaskViolation => exact execRecMaskViolation_ev hf h
  | binaryChange => exact execBinaryChange_ev hf h
  | recTriggered => exact execRecTriggered_ev hf h
  | recClosed => exact execRecClosed_ev hf h
  | recStored => exact execRecStored_ev hf h
  | recRearm => exact execRecRearm_ev hf h
  | taskRelease => exact execTaskRelease_ev hf h
  | cycleStart => exact execCycleStart_ev hf h
  | cycleComplete => exact execCycleComplete_ev hf h
  | scanTrap => exact execScanTrap_ev hf h
  | scanRun => exact execScanRun_ev hf h
  | scanStop => exact execScanStop_ev hf h
  | scanHold => exact execScanHold_ev hf h
  | scanStep => exact execScanStep_ev hf h
  | holdEnded => exact execHoldEnded_ev hf h
  | retainCommit => exact execRetainCommit_ev hf h
  | scanAutostart => exact execScanAutostart_ev hf h
  | progSwap => exact execProgSwap_ev hf h
  | remoteSet => exact execRemoteSet_ev hf h
  | remoteStale => exact execRemoteStale_ev hf h
  | diSample => exact execDiSample_ev hf h
  | doOverload => exact execDoOverload_ev hf h
  | doRetry => exact execDoRetry_ev hf h
  | doOverloadRelease => exact execDoOverloadRelease_ev hf h
  | demagExcess => exact execDemagExcess_ev hf h
  | doMonitor => exact execDoMonitor_ev hf h
  | fieldLow => exact execFieldLow_ev hf h
  | fieldLost => exact execFieldLost_ev hf h
  | fieldRestored => exact execFieldRestored_ev hf h
  | fieldAck => exact execFieldAck_ev hf h
  | groupKill => exact execGroupKill_ev hf h
  | strobeMismatch => exact execStrobeMismatch_ev hf h
  | tripShort => exact execTripShort_ev hf h
  | tripOvertime => exact execTripOvertime_ev hf h
  | tripCooldownEnd => exact execTripCooldownEnd_ev hf h
  | vtripLow => exact execVtripLow_ev hf h
  | tripSupervision => exact execTripSupervision_ev hf h
  | tripExtDrive => exact execTripExtDrive_ev hf h
  | safeStateEntered => exact execSafeStateEntered_ev hf h
  | safeStateLeft => exact execSafeStateLeft_ev hf h
  | heartbeat => exact execHeartbeat_ev hf h
  | heartbeatSend => exact execHeartbeatSend_ev hf h
  | pathDown => exact execPathDown_ev hf h
  | pathUp => exact execPathUp_ev hf h
  | partnerLost => exact execPartnerLost_ev hf h
  | mirror => exact execMirror_ev hf h
  | mirrorGfm => exact execMirrorGfm_ev hf h
  | retain => exact execRetain_ev hf h
  | dying => exact execDying_ev hf h
  | switch => exact execSwitch_ev hf h
  | switchAck => exact execSwitchAck_ev hf h
  | switchCancel => exact execSwitchCancel_ev hf h
  | syncReq => exact execSyncReq_ev hf h
  | syncData => exact execSyncData_ev hf h
  | settings => exact execSettings_ev hf h
  | listenTimeout => exact execListenTimeout_ev hf h
  | probe => exact execProbe_ev hf h
  | probeReply => exact execProbeReply_ev hf h
  | probeTimeout => exact execProbeTimeout_ev hf h
  | releaseTimer => exact execReleaseTimer_ev hf h
  | degradedProbe => exact execDegradedProbe_ev hf h
  | dpxSwitch => exact execDpxSwitch_ev hf h
  | dpxCancel => exact execDpxCancel_ev hf h
  | switchDeadline => exact execSwitchDeadline_ev hf h
  | switchInstant => exact execSwitchInstant_ev hf h
  | syncDone => exact execSyncDone_ev hf h
  | digestUpdate => exact execDigestUpdate_ev hf h
  | syncReqRetry => exact execSyncReqRetry_ev hf h
  | linkUp => exact execLinkUp_ev hf h
  | linkDown => exact execLinkDown_ev hf h
  | prpLanLost => exact execPrpLanLost_ev hf h
  | prpLanRestored => exact execPrpLanRestored_ev hf h
  | pdPublish => exact execPdPublish_ev hf h
  | pdTimeout => exact execPdTimeout_ev hf h
  | canBusOff => exact execCanBusOff_ev hf h
  | canRecovery => exact execCanRecovery_ev hf h
  | mvbLineFail => exact execMvbLineFail_ev hf h
  | modbusTimeout => exact execModbusTimeout_ev hf h
  | tlsHandshake => exact execTlsHandshake_ev hf h
  | fiArm => exact execFiArm_ev hf h
  | fiDisarm => exact execFiDisarm_ev hf h
  | fiStart => exact execFiStart_ev hf h
  | fiFrame => exact execFiFrame_ev hf h
  | fiRelease => exact execFiRelease_ev hf h
  | cmdDoorbell => exact execCmdDoorbell_ev hf h
  | chanReset => exact execChanReset_ev hf h
  | channelIdle => exact execChannelIdle_ev hf h
  | identify => exact execIdentify_ev hf h
  | readRegs => exact execReadRegs_ev hf h
  | writeRegs => exact execWriteRegs_ev hf h
  | opStatus => exact execOpStatus_ev hf h
  | opList => exact execOpList_ev hf h
  | opSuspend => exact execOpSuspend_ev hf h
  | opResume => exact execOpResume_ev hf h
  | opCancel => exact execOpCancel_ev hf h
  | opRelease => exact execOpRelease_ev hf h
  | opEnded => exact execOpEnded_ev hf h
  | opExpired => exact execOpExpired_ev hf h
  | eventRead => exact execEventRead_ev hf h
  | evtLost => exact execEvtLost_ev hf h
  | settingsRead => exact execSettingsRead_ev hf h
  | settingsWrite => exact execSettingsWrite_ev hf h
  | reset => exact execReset_ev hf h
  | forceSet => exact execForceSet_ev hf h
  | forceClear => exact execForceClear_ev hf h
  | forceList => exact execForceList_ev hf h
  | scanCtrl => exact execScanCtrl_ev hf h
  | recArm => exact execRecArm_ev hf h
  | recDisarm => exact execRecDisarm_ev hf h
  | recTrigger => exact execRecTrigger_ev hf h
  | recList => exact execRecList_ev hf h
  | recLock => exact execRecLock_ev hf h
  | recUnlock => exact execRecUnlock_ev hf h
  | recDelete => exact execRecDelete_ev hf h
  | recExport => exact execRecExport_ev hf h
  | fileRead => exact execFileRead_ev hf h
  | imageBegin => exact execImageBegin_ev hf h
  | imageData => exact execImageData_ev hf h
  | imageVerify => exact execImageVerify_ev hf h
  | imageActivate => exact execImageActivate_ev hf h
  | imageConfirm => exact execImageConfirm_ev hf h
  | imageAbandon => exact execImageAbandon_ev hf h
  | switchover => exact execSwitchover_ev hf h
  | serviceState => exact execServiceState_ev hf h
  | canFrameReceived => exact execCanFrameReceived_ev hf h
  | mvbMasterFrame => exact execMvbMasterFrame_ev hf h
  | modbusFrameReceived => exact execModbusFrameReceived_ev hf h
  | evtSel => exact execEvtSel_ev hf h
  | settingsApplied => exact execSettingsApplied_ev hf h
  | imageVerified => exact execImageVerified_ev hf h
  | supervisorRestart => exact execSupervisorRestart_ev hf h
  | trialExpired => exact execTrialExpired_ev hf h
  | deferredRevert => exact execDeferredRevert_ev hf h
  | commissioningEnd => exact execCommissioningEnd_ev hf h
  | gdfInactive => exact execGdfInactive_ev hf h
  | hardLiveCleared => exact execHardLiveCleared_ev hf h
  | compareMatch => exact execCompareMatch_ev hf h
  | vinLowCleared => exact execVinLowCleared_ev hf h
  | vtripRestored => exact execVtripRestored_ev hf h
  | fieldLowCleared => exact execFieldLowCleared_ev hf h
  | sessionClosed => exact execSessionClosed_ev hf h
  | canTxCycle => exact execCanTxCycle_ev hf h
  | modbusPoll => exact execModbusPoll_ev hf h

/-- What a command answers is within its footprint, and sound where the state before it is. -/
theorem exec_ev {c : Instr} {s t : State} (h : exec c s = .next t) : Ev (touches c) s t :=
  exec_evo c ⟨fun _ => id, fun _ => id, id⟩ (Ev.refl _ s) t h

theorem sound_setPending {s : State} (h : Sound s) (l : List Instr) : Sound { s with pending := l } :=
  ⟨h.regs, h.mem, h.tileMem, h.queue, h.entries⟩

theorem sound_setNet {s : State} (h : Sound s) (n : NetState) : Sound (setNet n s) :=
  ⟨h.regs, h.mem, h.tileMem, h.queue, h.entries⟩

/-- An idle step carries out a frame that a unit has released, or lets one tick pass. -/
theorem idleStep_sound {s t : State} (hs : Sound s) (h : idleStep s = .next t) : Sound t := by
  unfold idleStep at h
  split at h
  · obtain rfl := Host.Outcome.next.inj h
    have hticked : Sound { s with tai := s.tai + 5, ticks := s.ticks + 1 } :=
      ⟨hs.regs, hs.mem, hs.tileMem, hs.queue, hs.entries⟩
    have hdrained : Sound (idleTick s) :=
      (ev_drainOne (f := boundaryFoot) (by decide) (by decide) (Ev.refl _ _)).sound hticked
    exact (drainPorts_ev (f := boundaryFoot) (le_of (by decide)) (Ev.refl _ _)).sound hdrained
  · exact (exec_ev h).sound (sound_setNet hs _)

/-- Settles O4: a step is a command on a state that differs from a sound one in its queues alone, or an idle tick. -/
theorem stepKeepsSound : Obligations.StepKeepsSound := by
  intro s t hs ht
  unfold step at ht
  split at ht
  · exact idleStep_sound hs ht
  · exact (exec_ev ht).sound (sound_setPending hs _)

/-- Settles O5: the answer is there by `exec_answers`, and the queue is in no footprint. -/
theorem everyCommandAnswers : Obligations.EveryCommandAnswers := by
  intro c s
  obtain ⟨t, ht⟩ := exec_answers c s
  exact ⟨t, ht, (exec_ev ht).keeps.pending⟩

/-- Settles O6. -/
theorem commandFootprint : Obligations.CommandFootprint := fun _ _ _ ht => (exec_ev ht).keeps

/-- Settles O7: a byte reads from the part of memory, which the footprint leaves alone. -/
theorem memoryUntouched : Obligations.MemoryUntouched := by
  intro c s t hc ht a
  have hmem : t.mem = s.mem := (exec_ev ht).keeps.parts .mem hc
  rw [memByte, hmem, memByte]

end Sys2Proof.Proofs
end


section
/-! PROOFS. The bus: denied accesses (R43), reads of high words (R50, R460), the access codes (R11 to R13) and memory (R44 to
R46). -/

namespace Sys2Proof.Machine

open Sys2Proof Sys2Proof.Safety Sys2Proof.Laws

/-! ### Events logged where the logger has room (R420) -/

theorem logged_nil {s t : State} (h : t.log = s.log) : Logged [] s t := by
  simp [Logged, h]

/-- Only the log and the counter enter what was logged. -/
theorem logged_congr {es : List (Nat × Nat × Word)} {s t u : State} (h : Logged es s t) (hlog : u.log = t.log)
    (htai : u.tai = t.tai) : Logged es s u := by
  simpa only [Logged, hlog, now, htai] using h

theorem logged_logEvent {s x : State} (c q : Nat) (e : Word) (hlog : x.log = s.log) (h : Room 1 s) :
    Logged [(c, q, e)] s (logEvent c q e x) := by
  rw [logEvent_room _ _ _ _ (by rw [hlog]; omega)]
  simp [Logged, hlog, now]

theorem logged_logN {s x : State} (c q e : Nat) (hlog : x.log = s.log) (h : Room 1 s) :
    Logged [(c, q, BitVec.ofNat 32 e)] s (logN c q e x) := logged_logEvent c q _ hlog h

theorem rd_logEvent_room (s : State) (c q : Nat) (e : Word) (h : s.log.queue.length < 256) (a : Nat) :
    rd (logEvent c q e s) a = rd s a := by rw [logEvent_room _ _ _ _ h]; rfl

/-! ### Denied accesses (R43) -/

theorem busWrite_denied {m : Fin 8} {w : AccWidth} {a : Nat} {s : State} (v hi : Word) (hrun : dieRuns s = true)
    (h : reaches s m true a = false ∨ reaches s m true (a + accBytes w - 1) = false) :
    busWrite m w a v hi s = denied m a s := by
  have hno : (reaches s m true a && reaches s m true (a + accBytes w - 1)) = false := by
    simpa [imp_iff_not_or] using h
  simp [busWrite, hrun, hno]

theorem busRead_denied {m : Fin 8} {w : AccWidth} {a : Nat} {s : State} (early : Bool) (hrun : dieRuns s = true)
    (h : reaches s m false a = false ∨ reaches s m false (a + accBytes w - 1) = false) :
    busRead m w a early s = denied m a s := by
  have hno : (reaches s m false a && reaches s m false (a + accBytes w - 1)) = false := by
    simpa [imp_iff_not_or] using h
  simp [busRead, hrun, hno]

/-- What a denied access changes: the reply and the log. -/
theorem denied_effect (m : Fin 8) (a : BitVec 32) {s : State} (hroom : Room 1 s) :
    (denied m a.toNat s).busReply = .error ∧ Logged [(0x1101, m, a)] s (denied m a.toNat s) ∧
      OnlyRegs [] s (denied m a.toNat s) ∧ ∀ p, p ∉ [Part.busReply, Part.log] → p.same s (denied m a.toNat s) := by
  refine ⟨rfl, ?_, fun b _ => ?_, ?_⟩
  · have hlogged := logged_logN 0x1101 m a.toNat (x := s) rfl hroom
    rw [BitVec.ofNat_toNat, BitVec.setWidth_eq] at hlogged
    exact logged_congr hlogged rfl rfl
  · exact rd_logEvent_room s _ _ _ (by omega) b
  · exact (denied_ev (f := ⟨[.busReply, .log], [.cmd], false⟩) (le_of rfl) (Ev.refl _ s)).keeps.parts

theorem reaches_of_noRegion {s : State} {m : Fin 8} {write : Bool} {a : Nat} (h : busRegion a = none) :
    reaches s m write a = false := by simp [reaches, h]

theorem busRegion_register {a : Nat} (h : 0x40000000 ≤ a) (h' : a < 0x40150000) : busRegion a = some .registers := by
  unfold busRegion
  rw [if_neg (by omega), if_neg (by omega), if_neg (by omega), if_neg (by omega), if_neg (by omega), if_neg (by omega),
    if_pos ⟨h, h'⟩]

/-- R42: a scan core reads the TIME window and writes none of it. -/
theorem not_reaches_scan_TIME {s : State} {m : Fin 8} {a : Nat} (hm : m = 4 ∨ m = 5) (ha : a / 0x10000 = 0x4003) :
    reaches s m true a = false := by
  have hreg : busRegion a = some .registers := busRegion_register (by omega) (by omega)
  obtain rfl | rfl := hm <;> simp [reaches, hreg, scanReaches, ha]

/-! ### High-word reads (R50) -/

theorem regRead_high {m : Fin 8} {a : Nat} {r : RegSpec} (s : State) (hmail : inMailbox a = false)
    (hr : findReg (canonReg a) = some r) (hw : r.wide = true) (hhigh : r.isHigh (canonReg a) = true) :
    regRead m a s = readHigh m (canonReg a - 4) s := by
  simp [regRead, hmail, hr, hw, hhigh]

theorem readHigh_snapshot {m : Fin 8} {a : Nat} {v : BitVec 64} {s : State} (h : s.snap[m] = .read a v) :
    readHigh m a s = (v.extractLsb' 32 32, setSnap m .empty s) := by
  simp [readHigh, h]

theorem readHigh_live {m : Fin 8} {a : Nat} {s : State} (h : ∀ v, s.snap[m] ≠ .read a v) :
    readHigh m a s = ((liveWide s a).extractLsb' 32 32, setMiss F.SYS_SNAP_MISS_snap_miss m s) := by
  unfold readHigh
  split
  · next b v heq =>
    have hne : b ≠ a := fun e => h v (e ▸ heq)
    rw [if_neg hne]
  · rfl

theorem fbit_setMiss_snap (m : Fin 8) (s : State) {i : Nat} (hi : i < 8) :
    fbit (setMiss F.SYS_SNAP_MISS_snap_miss m s) Reg.SYS_SNAP_MISS F.SYS_SNAP_MISS_snap_miss i =
      if i = m.val then true else fbit s Reg.SYS_SNAP_MISS F.SYS_SNAP_MISS_snap_miss i :=
  fbit_setFbit _ _ _ _ _ _ (by decide) hi

/-! ### Plain registers (R11 to R13) -/

theorem half_narrow {r : RegSpec} {a : Nat} (hr : findReg a = some r) (hw : r.wide = false) (v : Nat) :
    r.half a v = BitVec.ofNat 32 v := by
  have hcov : r.covers a = true := findReg_covers hr
  have hlow : r.isHigh a = false := by
    unfold RegSpec.covers at hcov
    unfold RegSpec.isHigh
    split at hcov
    · next h => rw [h]; rfl
    · next h => simp [hw] at hcov
    · next h => simp at hcov
  rw [RegSpec.half, hlow, if_neg (by decide)]

/-- In the windows of SYS, PWR, DPX and UPD no bit that a one clears is also written. -/
theorem w1c_disjoint {a : Nat} {r : RegSpec} (ha : a / 0x10000 ∈ [0x4000, 0x4001, 0x400C, 0x400F])
    (hr : r ∈ blockRegs a) : r.w1c &&& (r.rw ||| r.rwl) = 0 := by
  have hall : ∀ q ∈ regsSYS ++ regsPWR ++ regsDPX ++ regsUPD, q.w1c &&& (q.rw ||| q.rwl) = 0 := by decide
  refine hall r ?_
  unfold blockRegs at hr
  simp only [List.mem_cons, List.not_mem_nil, or_false] at ha
  obtain h | h | h | h := ha <;> rw [h] at hr <;> simp only [List.mem_append] <;> tauto

/-- A bit of a register after a plain write. -/
theorem accessWrite_getLsbD (old v rw w1c : Word) (i : Nat) : (accessWrite old v rw w1c).getLsbD i =
    ((if rw.getLsbD i then v.getLsbD i else old.getLsbD i) && !(v.getLsbD i && w1c.getLsbD i)) := by
  by_cases hi : i < 32
  · simp only [accessWrite, BitVec.getLsbD_and, BitVec.getLsbD_or, BitVec.getLsbD_not, hi, decide_true, Bool.true_and]
    cases rw.getLsbD i <;> simp
  · simp [BitVec.getLsbD_of_ge _ _ (Nat.le_of_not_lt hi)]

theorem write32Reg_plain {m : Fin 8} {r : RegSpec} {a : Nat} (v : Word) (s : State)
    (ha : a / 0x10000 ∈ [0x4000, 0x4001, 0x400C, 0x400F])
    (hno : a ∉ [Reg.SYS_RESET_CTRL, Reg.PWR_SENSOR, Reg.DPX_CFG, Reg.DPX_CMD, Reg.UPD_TRIAL_CFG]) :
    write32Reg m r a v s = plainWrite r a v s := by
  simp only [List.mem_cons, List.not_mem_nil, or_false, not_or] at ha hno
  obtain ⟨hreset, hsensor, hcfg, hcmd, htrial⟩ := hno
  unfold write32Reg
  obtain h | h | h | h := ha <;> simp only [h, writeUpd, if_neg hreset, if_neg hsensor, if_neg hcfg, if_neg hcmd, if_neg htrial]

theorem regWrite_narrow {m : Fin 8} {a : Nat} {r : RegSpec} (v : Word) (s : State) (hmail : inMailbox a = false)
    (hr : findReg (canonReg a) = some r) (hw : r.wide = false) : regWrite m a v s = write32Reg m r (canonReg a) v s := by
  simp [regWrite, hmail, hr, hw]

@[simp] theorem lockedAt_reply (x : BusReply) (s : State) (a : Nat) : lockedAt (reply x s) a = lockedAt s a := rfl

/-! ### Memory (R44 to R46) -/

theorem memByte_memPut (s : State) (a b : Nat) (x : Byte) : memByte (memPut s a x) b = if b = a then x else memByte s b := by
  unfold memByte memPut
  split
  · next h => rw [h, sget_sput_same]
  · next h => exact sget_sput_other _ _ _ h

/-- The bytes stored are those of the word, from its lowest, and no other byte changes. -/
theorem memByte_memPutBytes (n : Nat) (s : State) (a b : Nat) (v : Word) : memByte (memPutBytes n s a v) b =
    if a ≤ b ∧ b < a + n then v.extractLsb' (8 * (b - a)) 8 else memByte s b := by
  induction n generalizing s a v with
  | zero => rw [if_neg (by omega)]; rfl
  | succ n ih =>
    rw [memPutBytes, ih, memByte_memPut]
    by_cases hb : b = a
    · rw [if_neg (by omega), if_pos hb, if_pos (by omega), hb, Nat.sub_self]
    · by_cases hin : a ≤ b ∧ b < a + (n + 1)
      · rw [if_pos (by omega), if_pos hin]
        have hoff : 8 * (b - a) = 8 + 8 * (b - (a + 1)) := by omega
        apply BitVec.eq_of_getLsbD_eq
        intro i hi
        simp [BitVec.getLsbD_extractLsb', hoff, Nat.add_assoc]
      · rw [if_neg (by omega), if_neg hb, if_neg hin]

theorem memPutBytes_onlyMem (n : Nat) (s : State) (a : Nat) (v : Word) : ∃ x, memPutBytes n s a v = { s with mem := x } := by
  induction n generalizing s a v with
  | zero => exact ⟨s.mem, rfl⟩
  | succ n ih =>
    obtain ⟨x, hx⟩ := ih (memPut s a (v.extractLsb' 0 8)) (a + 1) (v >>> 8)
    exact ⟨x, hx⟩

theorem memWrite_onlyMem (n : Nat) (s : State) (a : Nat) (v : Word) : ∃ x, memWrite n a v s = { s with mem := x } := by
  unfold memWrite
  split
  · exact ⟨s.mem, rfl⟩
  · exact memPutBytes_onlyMem n s a v

theorem memWrite_rom {n a : Nat} (v : Word) (s : State) (h : a < 0x20000) : memWrite n a v s = s := by
  rw [memWrite, if_pos h]

theorem memByte_memWrite {n a : Nat} (v : Word) (s : State) (h : 0x20000 ≤ a) (b : Nat) : memByte (memWrite n a v s) b =
    if a ≤ b ∧ b < a + n then v.extractLsb' (8 * (b - a)) 8 else memByte s b := by
  rw [memWrite, if_neg (by omega), memByte_memPutBytes]

/-- The bytes of an access of memory, little-endian: up to four of the word, and of a double word the second word's after. -/
def storeBytes (w : AccWidth) (a : Nat) (v hi : Word) (s : State) : State :=
  if w = .dword then memWrite 4 (a + 4) hi (memWrite 4 a v s) else memWrite (accBytes w) a v s

theorem busWrite_memory {m : Fin 8} {w : AccWidth} {a : Nat} {s : State} (v hi : Word)
    (hs : Served m true a (accBytes w) s) (hreg : busRegion a ≠ some .registers) :
    busWrite m w a v hi s = storeBytes w (physical s m a) v hi (reply .done s) := by
  obtain ⟨hrun, hfirst, hlast⟩ := hs
  simp only [busWrite, hrun, hfirst, hlast, storeBytes, Bool.not_true, Bool.false_eq_true, if_false, Bool.and_self, hreg]

theorem busRead_memory {m : Fin 8} {w : AccWidth} {a : Nat} {s : State} (early : Bool)
    (hs : Served m false a (accBytes w) s) (hreg : busRegion a ≠ some .registers) :
    busRead m w a early s = reply (memReply s w (physical s m a)) s := by
  obtain ⟨hrun, hfirst, hlast⟩ := hs
  simp only [busRead, hrun, hfirst, hlast, Bool.not_true, Bool.false_eq_true, if_false, Bool.and_self, hreg]

theorem storeBytes_onlyMem (w : AccWidth) (a : Nat) (v hi : Word) (s : State) :
    ∃ x, storeBytes w a v hi s = { s with mem := x } := by
  unfold storeBytes
  split
  · obtain ⟨x, hx⟩ := memWrite_onlyMem 4 s a v
    obtain ⟨y, hy⟩ := memWrite_onlyMem 4 { s with mem := x } (a + 4) hi
    exact ⟨y, by rw [hx, hy]⟩
  · exact memWrite_onlyMem _ s a v

theorem extractLsb'_append_low (hi v : Word) {i : Nat} (h : i < 4) :
    (hi ++ v).extractLsb' (8 * i) 8 = v.extractLsb' (8 * i) 8 := by
  apply BitVec.eq_of_getLsbD_eq
  intro j hj
  have hlow : 8 * i + j < 32 := by omega
  rw [BitVec.getLsbD_extractLsb', BitVec.getLsbD_append, if_pos hlow, BitVec.getLsbD_extractLsb']

theorem extractLsb'_append_high (hi v : Word) {i : Nat} (h : 4 ≤ i) :
    (hi ++ v).extractLsb' (8 * i) 8 = hi.extractLsb' (8 * (i - 4)) 8 := by
  apply BitVec.eq_of_getLsbD_eq
  intro j hj
  have hhigh : ¬ 8 * i + j < 32 := by omega
  have hoff : 8 * i + j - 32 = 8 * (i - 4) + j := by omega
  rw [BitVec.getLsbD_extractLsb', BitVec.getLsbD_append, if_neg hhigh, hoff, BitVec.getLsbD_extractLsb']

theorem memByte_storeBytes {w : AccWidth} {a : Nat} (v hi : Word) (s : State) (h : 0x20000 ≤ a) {i : Nat}
    (hi' : i < accBytes w) : memByte (storeBytes w a v hi s) (a + i) = (hi ++ v).extractLsb' (8 * i) 8 := by
  have hlow : ∀ n, i < n → i < 4 → memByte (memWrite n a v s) (a + i) = (hi ++ v).extractLsb' (8 * i) 8 := by
    intro n hn h4
    rw [memByte_memWrite v s h, if_pos (by omega), extractLsb'_append_low hi v h4, Nat.add_sub_cancel_left]
  unfold storeBytes
  cases w
  case byte | half | word =>
    simp only [accBytes] at hi'
    exact hlow _ hi' (by omega)
  case dword =>
    simp only [accBytes] at hi'
    rw [if_pos rfl, memByte_memWrite _ _ (by omega)]
    by_cases h4 : i < 4
    · rw [if_neg (by omega)]
      exact hlow 4 h4 h4
    · rw [if_pos (by omega), extractLsb'_append_high hi v (by omega), Nat.add_sub_add_left]

theorem memByte_storeBytes_ne {w : AccWidth} {a b : Nat} (v hi : Word) (s : State)
    (hb : b < a ∨ a + accBytes w ≤ b) : memByte (storeBytes w a v hi s) b = memByte s b := by
  have hout : ∀ n q x y, (b < q ∨ q + n ≤ b) → memByte (memWrite n q x y) b = memByte y b := by
    intro n q x y hq
    by_cases hrom : q < 0x20000
    · rw [memWrite_rom _ _ hrom]
    · rw [memByte_memWrite _ _ (by omega), if_neg (by omega)]
  unfold storeBytes
  cases w
  case byte | half | word => exact hout _ _ _ _ hb
  case dword =>
    simp only [accBytes] at hb
    rw [if_pos rfl, hout _ _ _ _ (by omega), hout _ _ _ _ (by omega)]

theorem busRegion_rom_end {a : Nat} (h : a < 0x10000000) (h' : busRegion a ≠ none) : a < 0x20000 := by
  by_contra hno
  refine h' ?_
  unfold busRegion
  rw [if_neg (by omega), if_neg (by omega), if_neg (by omega), if_neg (by omega), if_neg (by omega), if_neg (by omega),
    if_neg (by omega), if_neg (by omega)]

/-- Only an address of ROM stands for one of ROM. -/
theorem physical_rom {s : State} {m : Fin 8} {a : Nat} (h : physical s m a < 0x20000) : physical s m a = a := by
  unfold physical at h ⊢
  dsimp only at h ⊢
  split at h
  · omega
  · omega
  · rfl

theorem region_of_reaches {s : State} {m : Fin 8} {write : Bool} {a : Nat} (h : reaches s m write a = true) :
    busRegion a ≠ none := by
  intro hno
  rw [reaches_of_noRegion hno] at h
  exact absurd h (by decide)

/-- A served write of ROM is done and stores nothing. -/
theorem storeBytes_rom {m : Fin 8} {w : AccWidth} {a : Nat} {s : State} (v hi : Word) (x : State)
    (hs : Served m true a (accBytes w) s) (h : a < 0x20000) : storeBytes w a v hi x = x := by
  obtain ⟨-, -, hlast⟩ := hs
  unfold storeBytes
  cases w
  case byte | half | word => exact memWrite_rom _ _ h
  case dword =>
    simp only [accBytes] at hlast
    have hend : a + 8 - 1 < 0x20000 := busRegion_rom_end (by omega) (region_of_reaches hlast)
    rw [if_pos rfl, memWrite_rom _ _ h, memWrite_rom _ _ (by omega)]

theorem byteAt_eq {s : State} {a : Nat} (h : 0x20000 ≤ a) (hr : inRepair a = false) : byteAt s a = memByte s a := by
  simp [byteAt, Nat.not_lt.2 h, hr]

theorem wordAt_extract (s : State) (a : Nat) {i : Nat} (hi : i < 4) : (wordAt s a).extractLsb' (8 * i) 8 = byteAt s (a + i) := by
  unfold wordAt
  generalize hb : byteAt s = b
  apply BitVec.eq_of_getLsbD_eq
  intro j hj
  simp only [BitVec.getLsbD_extractLsb', BitVec.getLsbD_append, hj, decide_true, Bool.true_and]
  match i, hi with
  | 0, _ => simp [hj]
  | 1, _ => simp [show ¬ 8 + j < 8 by omega, show 8 + j - 8 = j by omega, hj]
  | 2, _ => simp [show ¬ 16 + j < 8 by omega, show ¬ 16 + j - 8 < 8 by omega, show 16 + j - 8 - 8 = j by omega, hj]
  | 3, _ => simp [show ¬ 24 + j < 8 by omega, show ¬ 24 + j - 8 < 8 by omega, show ¬ 24 + j - 8 - 8 < 8 by omega,
      show 24 + j - 8 - 8 - 8 = j by omega]

theorem wordAt_lowByte (s : State) (a : Nat) : wordAt s a &&& 0xFF = (byteAt s a).setWidth 32 := by
  rw [← Nat.add_zero a, ← wordAt_extract s a (i := 0) (by omega)]
  have hmask : ∀ j < 32, (0xFF#32).getLsbD j = decide (j < 8) := by decide
  apply BitVec.eq_of_getLsbD_eq
  intro j hj
  change (_ &&& 0xFF#32).getLsbD j = _
  rw [BitVec.getLsbD_and, hmask j hj, BitVec.getLsbD_setWidth, BitVec.getLsbD_extractLsb', Nat.mul_zero, Nat.zero_add,
    decide_eq_true hj, Bool.true_and, Bool.and_comm, Nat.add_zero]

/-! ### The live aliases (R46) -/

theorem busRegion_aliasCode {o : Nat} (ho : o < 0x20000) : busRegion (0x20200000 + o) = some .aliasCode := by
  unfold busRegion
  rw [if_neg (by omega), if_neg (by omega), if_neg (by omega), if_neg (by omega), if_pos (by omega)]

theorem busRegion_aliasData {o : Nat} (ho : o < 0x20000) : busRegion (0x20240000 + o) = some .aliasData := by
  unfold busRegion
  rw [if_neg (by omega), if_neg (by omega), if_neg (by omega), if_neg (by omega), if_neg (by omega), if_pos (by omega)]

/-- The master number of a scan core (R42). -/
def coreMaster (k : Fin 2) : Fin 8 := if k = 0 then 4 else 5

theorem reaches_alias {s : State} {k : Fin 2} {a : Nat} (h : busRegion a = some .aliasCode ∨ busRegion a = some .aliasData) :
    reaches s (coreMaster k) true a = true := by
  obtain h | h := h <;> fin_cases k <;> simp [reaches, h, coreMaster, scanReaches, liveRefused]

theorem physical_aliasCode {s : State} {k : Fin 2} {o : Nat} (ho : o < 0x20000) : physical s (coreMaster k) (0x20200000 + o) =
    0x20000000 + k * 0x80000 + fld s (Reg.SCAN_STATE k) F.SCAN_STATE_code_live * 0x20000 + o := by
  have hoff : (0x20200000 + o) % 0x20000 = o := by omega
  fin_cases k <;> simp [physical, busRegion_aliasCode ho, hoff, coreMaster, liveBank]

theorem physical_aliasData {s : State} {k : Fin 2} {o : Nat} (ho : o < 0x20000) : physical s (coreMaster k) (0x20240000 + o) =
    0x20040000 + k * 0x80000 + fld s (Reg.SCAN_STATE k) F.SCAN_STATE_data_live * 0x20000 + o := by
  have hoff : (0x20240000 + o) % 0x20000 = o := by omega
  fin_cases k <;> simp [physical, busRegion_aliasData ho, hoff, coreMaster, liveBank]

theorem memWord_of_bytes {t : State} {a : Nat} {v : Word} (h : ∀ i < 4, memByte t (a + i) = v.extractLsb' (8 * i) 8) :
    memWord t a = v := by
  have h0 := h 0 (by omega)
  rw [Nat.add_zero] at h0
  rw [memWord, h 3 (by omega), h 2 (by omega), h 1 (by omega), h0]
  apply BitVec.eq_of_getLsbD_eq
  intro j hj
  simp only [BitVec.getLsbD_append, BitVec.getLsbD_extractLsb']
  split_ifs with h1 h2 h3
  · simp [h1]
  · simp [h2, show 8 + (j - 8) = j by omega]
  · simp [h3, show 16 + (j - 8 - 8) = j by omega]
  · simp [show j - 8 - 8 - 8 < 8 by omega, show 24 + (j - 8 - 8 - 8) = j by omega]

/-- A word that a scan core writes through a live alias stands at the physical address behind it. -/
theorem memWord_aliasWrite {s : State} {k : Fin 2} {a : Nat} (v hi : Word) (hrun : dieRuns s = true)
    (h : ∀ i < 4, busRegion (a + i) = some .aliasCode ∨ busRegion (a + i) = some .aliasData) :
    memWord (busWrite (coreMaster k) .word a v hi s) (physical s (coreMaster k) a) = v := by
  have halias : busRegion a = some .aliasCode ∨ busRegion a = some .aliasData := h 0 (by omega)
  have hfirst := reaches_alias (s := s) (k := k) halias
  have hlast := reaches_alias (s := s) (k := k) (h 3 (by omega))
  have hreg : busRegion a ≠ some .registers := by
    intro hno
    simp [hno] at halias
  have hphys : 0x20000 ≤ physical s (coreMaster k) a := by
    obtain halias | halias := halias <;> simp only [physical, halias] <;> omega
  have hs : Served (coreMaster k) true a (accBytes .word) s := ⟨hrun, hfirst, hlast⟩
  rw [busWrite_memory v hi hs hreg]
  refine memWord_of_bytes fun i hi' => ?_
  rw [memByte_storeBytes v hi _ hphys hi', extractLsb'_append_low hi v hi']

theorem sameCycle_memory {a : Nat} (v same : Word) (h : busRegion a ≠ some .registers) : sameCycle a v same = v := if_neg h

theorem exec_aliasWrite {k : Fin 2} {a : Nat} (v same : Word) (s : State) (ha : a < 2 ^ 32)
    (h : busRegion a = some .aliasCode ∨ busRegion a = some .aliasData) :
    exec (.registerWrite (if k = 0 then 4 else 5) .word (BitVec.ofNat 32 a) ⟨v, same⟩) s =
      .next (busWrite (coreMaster k) .word a v same s) := by
  have hnat : (BitVec.ofNat 32 a).toNat = a := by rw [BitVec.toNat_ofNat, Nat.mod_eq_of_lt ha]
  have hreg : busRegion a ≠ some .registers := by
    intro hno
    simp [hno] at h
  change Host.Outcome.next (busWrite (coreMaster k) .word (BitVec.ofNat 32 a).toNat
    (sameCycle (BitVec.ofNat 32 a).toNat v same) same s) = _
  rw [hnat, sameCycle_memory v same hreg]

end Sys2Proof.Machine

namespace Sys2Proof.Proofs

open Sys2Proof Sys2Proof.Machine Sys2Proof.Safety Sys2Proof.Laws

/-- Settles O11. -/
theorem deniedAccess : Obligations.DeniedAccess := by
  intro m w a v same early s hrun hroom
  refine ⟨fun hno => ?_, fun hreg => ⟨reaches_of_noRegion hreg, reaches_of_noRegion hreg⟩, not_reaches_scan_TIME,
    fun hno c hc => ?_⟩
  · exact ⟨_, congrArg Host.Outcome.next (busWrite_denied _ _ hrun hno), denied_effect m a hroom⟩
  · obtain rfl | rfl := hc
    · exact ⟨_, congrArg Host.Outcome.next (busRead_denied early hrun hno), denied_effect m a hroom⟩
    · exact ⟨_, congrArg Host.Outcome.next (busRead_denied early hrun hno), denied_effect m a hroom⟩

/-- Settles O14: an early read answers 0 (R460); a read in time is `readHigh`, by what the master's buffer holds. -/
theorem highWordRead : Obligations.HighWordRead := by
  refine ⟨fun a s hreg hal hs c hc => ?_, fun m a early s r hreg hal hmail hs hr hw hhigh he => ?_⟩
  · have hread : busRead 6 .word a.toNat true s = reply (.data 0) s :=
      (busRead_register hreg hs).trans (regReadBus_early s hal)
    obtain rfl | rfl := hc
    · exact congrArg Host.Outcome.next hread
    · exact congrArg Host.Outcome.next hread
  · have hread : busRead m .word a.toNat early s =
        reply (.data (readHigh m (canonReg a.toNat - 4) s).1) (readHigh m (canonReg a.toNat - 4) s).2 := by
      rw [busRead_register hreg hs, regReadBus_inTime s hal he, regRead_high s hmail hr hw hhigh]
    refine ⟨fun v hv => ?_, fun hno => ?_⟩
    · rw [readHigh_snapshot hv] at hread
      exact congrArg Host.Outcome.next hread
    · rw [readHigh_live hno] at hread
      refine ⟨_, congrArg Host.Outcome.next hread, rfl, rfl, ?_, fun i hi hne => ?_, ?_, fun b hb => ?_, ?_⟩
      · exact (fbit_setMiss_snap m s m.isLt).trans (if_pos rfl)
      · exact (fbit_setMiss_snap m s hi).trans (if_neg hne)
      · exact fld_setF_disj s _ _ _ _ (by decide)
      · exact rd_setMiss_ne _ m s (by simpa using hb)
      · intro p hp
        cases p
        case busReply => exact absurd rfl hp
        all_goals rfl

/-- Settles O16: the write is plain, and each bit follows from the access masks, which do not meet in these windows. -/
theorem accessCodes : Obligations.AccessCodes := by
  intro m a v same s r hs hwin hal hr hw hno
  have hblock : a.toNat / 0x10000 = 0x4000 ∨ a.toNat / 0x10000 = 0x4001 ∨ a.toNat / 0x10000 = 0x400C ∨
      a.toNat / 0x10000 = 0x400F := by simpa using hwin
  have hreg : busRegion a.toNat = some .registers := busRegion_register (by omega) (by omega)
  have hcanon : canonReg a.toNat = a.toNat := canonReg_eq (by omega)
  have hmail : inMailbox a.toNat = false := by
    rw [Bool.eq_false_iff]
    intro h
    have := inMailbox_window h
    omega
  have hword : sameCycle a.toNat v same = v &&& ~~~(same &&& r.half a.toNat r.w1c) := by
    rw [sameCycle, if_pos hreg, clearBits, hcanon, hr]
  have hrun : busWrite m .word a.toNat (sameCycle a.toNat v same) same s =
      plainWrite r a.toNat (v &&& ~~~(same &&& r.half a.toNat r.w1c)) (reply .done s) := by
    rw [busWrite_register _ _ hreg hal hs, hword, regWrite_narrow _ _ hmail (hcanon.symm ▸ hr) hw, hcanon,
      write32Reg_plain _ _ hwin hno]
  refine ⟨_, congrArg Host.Outcome.next hrun, rfl, fun b hb => rd_wr_ne _ _ (by simpa using hb), ?_, fun i hi => ?_⟩
  · intro p hp
    cases p
    case busReply => exact absurd rfl hp
    all_goals rfl
  · have hdisj : (r.w1c &&& (r.rw ||| r.rwl)).testBit i = false := by
      rw [w1c_disjoint hwin (findReg_mem hr), Nat.zero_testBit]
    rw [plainWrite, rd_wr, accessWrite_getLsbD]
    change (_ && _) = if _ then (rd s a.toNat).getLsbD i && _ else if _ then _ else if _ ∧ lockedAt s a.toNat = false then _
      else (rd s a.toNat).getLsbD i
    simp only [half_narrow hr hw, BitVec.getLsbD_ofNat, BitVec.getLsbD_and, BitVec.getLsbD_not, hi, decide_true,
      Bool.true_and, Nat.testBit_and, Nat.testBit_or] at hdisj ⊢
    rw [lockedAt_reply, reply_rd]
    cases hl : lockedAt s a.toNat <;> cases hc : r.w1c.testBit i <;> cases hrw : r.rw.testBit i <;>
      cases hrwl : r.rwl.testBit i <;> simp_all

/-- Settles O17: an access of memory is `storeBytes` or `memReply` at the physical address. -/
theorem memoryAccess : Obligations.MemoryAccess := by
  refine ⟨fun m w a v hi s hs hreg => ?_, fun m a early s hreg hrom => ⟨fun hs hrep c hc => ?_, fun hs hrep => ?_⟩,
    fun k o v same s hrun ho => ⟨?_, ?_⟩⟩
  · have hword : sameCycle a.toNat v hi = v := sameCycle_memory v hi hreg
    have hrun : busWrite m w a.toNat (sameCycle a.toNat v hi) hi s =
        storeBytes w (physical s m a.toNat) v hi (reply .done s) := by rw [hword, busWrite_memory v hi hs hreg]
    obtain ⟨x, hx⟩ := storeBytes_onlyMem w (physical s m a.toNat) v hi (reply .done s)
    refine ⟨_, congrArg Host.Outcome.next hrun, ?_, ?_, ?_, fun i hi' hrom => ?_, fun b hb => ?_, fun hrom => ?_⟩
    · rw [hx]; rfl
    · intro b _
      rw [hx]; rfl
    · intro p hp
      rw [hx]
      cases p
      case busReply | mem => simp at hp
      all_goals rfl
    · exact memByte_storeBytes v hi _ hrom hi'
    · exact memByte_storeBytes_ne v hi _ hb
    · have hphys := physical_rom hrom
      rw [hphys] at hrom ⊢
      rw [storeBytes_rom v hi _ hs hrom]
      rfl
  · have hread : busRead m .word a.toNat early s = reply (.data (wordAt s (physical s m a.toNat))) s :=
      busRead_memory early hs hreg
    refine ⟨wordAt s (physical s m a.toNat), ?_, fun i hi => ?_⟩
    · obtain rfl | rfl := hc
      · exact congrArg Host.Outcome.next hread
      · exact congrArg Host.Outcome.next hread
    · rw [wordAt_extract _ _ hi, byteAt_eq (by omega) (hrep i hi)]
  · refine congrArg Host.Outcome.next ((busRead_memory early hs hreg).trans ?_)
    rw [memReply, wordAt_lowByte, byteAt_eq hrom hrep]
    rfl
  · have halias : ∀ i < 4, busRegion (0x20200000 + o + i) = some .aliasCode := fun i hi => by
      rw [Nat.add_assoc]
      exact busRegion_aliasCode (by omega)
    refine ⟨_, exec_aliasWrite v same s (by omega) (.inl (halias 0 (by omega))), ?_⟩
    rw [← physical_aliasCode (by omega)]
    exact memWord_aliasWrite v same hrun fun i hi => .inl (halias i hi)
  · have halias : ∀ i < 4, busRegion (0x20240000 + o + i) = some .aliasData := fun i hi => by
      rw [Nat.add_assoc]
      exact busRegion_aliasData (by omega)
    refine ⟨_, exec_aliasWrite v same s (by omega) (.inr (halias 0 (by omega))), ?_⟩
    rw [← physical_aliasData (by omega)]
    exact memWord_aliasWrite v same hrun fun i hi => .inr (halias i hi)

end Sys2Proof.Proofs
end


section
/-! PROOFS. Register writes that are commands: what a served word write of each such register hands on (R10, R12, R368). -/

namespace Sys2Proof.Machine

open Sys2Proof Sys2Proof.Safety Sys2Proof.Laws

/-- A 32-bit register of the family with this base stands at the address, which no other address of register space aliases. -/
def narrowAt (a base : Nat) : Bool :=
  busRegion a == some .registers && a % 4 == 0 && !inMailbox a && canonReg a == a &&
    match findReg a with
    | some r => !r.wide && r.base == base
    | none => false

theorem regCommand_narrow {m : Fin 8} {a base : Nat} (v : Word) {s : State} (h : narrowAt a base = true)
    (hs : Served m true a 4 s) :
    ∃ r : RegSpec, r.base = base ∧ regCommand m a v s = write32Reg m r a v (reply .done s) := by
  unfold narrowAt at h
  split at h
  · next r hr =>
    simp only [Bool.and_eq_true, beq_iff_eq, Bool.not_eq_true'] at h
    obtain ⟨⟨⟨⟨hreg, hal⟩, hmail⟩, hcanon⟩, hw, hbase⟩ := h
    refine ⟨r, hbase, ?_⟩
    rw [regCommand, busWrite_register v 0 hreg hal hs, regWrite_narrow v _ hmail (hcanon.symm ▸ hr) hw, hcanon]
  · simp at h

/-! ### Windows -/

theorem write32Reg_TIME {m : Fin 8} {r : RegSpec} {a : Nat} (v : Word) (s : State) (h : a / 0x10000 = 0x4003) :
    write32Reg m r a v s = writeTime r a v s := by
  simp only [write32Reg, writeBlockReg, h]
  rfl

theorem write32Reg_ADC {m : Fin 8} {r : RegSpec} {a : Nat} (v : Word) (s : State) (h : a / 0x10000 = 0x4004) :
    write32Reg m r a v s = writeAdc r a v s := by
  simp only [write32Reg, writeBlockReg, h]
  rfl

theorem write32Reg_FILT {m : Fin 8} {r : RegSpec} {a : Nat} (v : Word) (s : State) (h : a / 0x10000 = 0x4005) :
    write32Reg m r a v s = writeFilt r a v s := by
  simp only [write32Reg, writeBlockReg, h]
  rfl

theorem write32Reg_CTRL {m : Fin 8} {r : RegSpec} {a : Nat} (v : Word) (s : State) (h : a / 0x10000 = 0x4006) :
    write32Reg m r a v s = writeCtrl r a v s := by
  simp only [write32Reg, writeBlockReg, h]
  rfl

theorem write32Reg_GFM {m : Fin 8} {r : RegSpec} {a : Nat} (v : Word) (s : State) (h : a / 0x10000 = 0x4007) :
    write32Reg m r a v s = writeGfm r a v s := by
  simp only [write32Reg, writeBlockReg, h]
  rfl

theorem write32Reg_SCAN {m : Fin 8} {r : RegSpec} {a : Nat} (v : Word) (s : State) (h : a / 0x10000 = 0x400A) :
    write32Reg m r a v s = writeScan r a v s := by
  simp only [write32Reg, writeBlockReg, h]
  rfl

theorem write32Reg_NET {m : Fin 8} {r : RegSpec} {a : Nat} (v : Word) (s : State) (h : a / 0x10000 = 0x400D) :
    write32Reg m r a v s = writeNet r a v s := by
  simp only [write32Reg, writeBlockReg, h]
  rfl

theorem write32Reg_FAB {m : Fin 8} {r : RegSpec} (c : Fin 4) {o : Nat} (v : Word) (s : State) (h : o < 0x10000) :
    write32Reg m r (0x40100000 + o + 0x10000 * c) v s = writeFab r (0x40100000 + o + 0x10000 * c) v s := by
  unfold write32Reg
  split
  case h_6 => exact if_pos (by omega)
  all_goals omega

section Commands

variable {m : Fin 8} (v : Word) {s : State}

theorem regCommand_FAB_IND_CTRL {c : Fin 4} (hs : Served m true (Reg.FAB_IND_CTRL c) 4 s) :
    regCommand m (Reg.FAB_IND_CTRL c) v s = writeIndCtrl c v (reply .done s) := by
  obtain ⟨r, hb, h⟩ := regCommand_narrow v ((by decide : ∀ c : Fin 4, narrowAt (Reg.FAB_IND_CTRL c) (Reg.FAB_IND_CTRL 0)) c) hs
  have hc : Fin.ofNat 4 ((Reg.FAB_IND_CTRL c - Reg.FAB_IND_CTRL 0) / 0x10000) = c := by fin_cases c <;> rfl
  rw [h, write32Reg_FAB c v _ (o := 0x308) (by omega), writeFab, hb, if_neg (by decide), if_pos rfl, hc]

theorem regCommand_FAB_SHADOW_CTRL {c : Fin 4} (hs : Served m true (Reg.FAB_SHADOW_CTRL c) 4 s) :
    regCommand m (Reg.FAB_SHADOW_CTRL c) v s = writeShadowCtrl c v (reply .done s) := by
  obtain ⟨r, hb, h⟩ :=
    regCommand_narrow v ((by decide : ∀ c : Fin 4, narrowAt (Reg.FAB_SHADOW_CTRL c) (Reg.FAB_SHADOW_CTRL 0)) c) hs
  have hc : Fin.ofNat 4 ((Reg.FAB_SHADOW_CTRL c - Reg.FAB_SHADOW_CTRL 0) / 0x10000) = c := by fin_cases c <;> rfl
  rw [h, write32Reg_FAB c v _ (o := 0x200) (by omega), writeFab, hb, if_pos rfl, hc]

theorem regCommand_SYS_RESET_CTRL (hs : Served m true Reg.SYS_RESET_CTRL 4 s) :
    regCommand m Reg.SYS_RESET_CTRL v s = writeResetCtrl v (reply .done s) := by
  obtain ⟨r, -, h⟩ := regCommand_narrow v (by decide : narrowAt Reg.SYS_RESET_CTRL Reg.SYS_RESET_CTRL) hs
  exact h

theorem regCommand_TIME_STEP (hs : Served m true Reg.TIME_STEP 4 s) :
    regCommand m Reg.TIME_STEP v s = writeTimeStep v (reply .done s) := by
  obtain ⟨r, -, h⟩ := regCommand_narrow v (by decide : narrowAt Reg.TIME_STEP Reg.TIME_STEP) hs
  exact h

theorem regCommand_TIME_TRIG_CFG {n : Fin 8} (hs : Served m true (Reg.TIME_TRIG_CFG n) 4 s) :
    regCommand m (Reg.TIME_TRIG_CFG n) v s = writeTrigCfg n v (reply .done s) := by
  obtain ⟨r, hb, h⟩ := regCommand_narrow v ((by decide : ∀ n : Fin 8, narrowAt (Reg.TIME_TRIG_CFG n) (Reg.TIME_TRIG_CFG 0)) n) hs
  have hn : Fin.ofNat 8 ((Reg.TIME_TRIG_CFG n - Reg.TIME_TRIG_CFG 0) / 16) = n := by fin_cases n <;> rfl
  rw [h, write32Reg_TIME _ _ (by simp only [Reg.TIME_TRIG_CFG]; omega), writeTime,
    if_neg (by simp only [Reg.TIME_TRIG_CFG, Reg.TIME_STEP]; omega), hb, if_pos rfl, hn]

theorem regCommand_ADC_CTRL {c : Fin 4} (hs : Served m true (Reg.ADC_CTRL c) 4 s) :
    regCommand m (Reg.ADC_CTRL c) v s = writeAdcCtrl c v (reply .done s) := by
  obtain ⟨r, hb, h⟩ := regCommand_narrow v ((by decide : ∀ c : Fin 4, narrowAt (Reg.ADC_CTRL c) (Reg.ADC_CTRL 0)) c) hs
  have hc : Fin.ofNat 4 ((Reg.ADC_CTRL c - Reg.ADC_CTRL 0) / 0x40) = c := by fin_cases c <;> rfl
  rw [h, write32Reg_ADC _ _ (by simp only [Reg.ADC_CTRL]; omega), writeAdc, hb]
  rw [if_neg (by simp only [Reg.ADC_CTRL, Reg.ADC_CMP_STATUS]; omega), if_pos rfl, hc]

theorem regCommand_FILT_CH_CFG {n : Fin 24} (hs : Served m true (Reg.FILT_CH_CFG n) 4 s) :
    regCommand m (Reg.FILT_CH_CFG n) v s = writeFiltCfg n v (reply .done s) := by
  obtain ⟨r, hb, h⟩ := regCommand_narrow v ((by decide : ∀ n : Fin 24, narrowAt (Reg.FILT_CH_CFG n) (Reg.FILT_CH_CFG 0)) n) hs
  have hn : Fin.ofNat 24 ((Reg.FILT_CH_CFG n - Reg.FILT_CH_CFG 0) / 0x20) = n := by fin_cases n <;> rfl
  rw [h, write32Reg_FILT _ _ (by simp only [Reg.FILT_CH_CFG]; omega), writeFilt, hb, if_pos rfl, hn]

theorem regCommand_CTRL_STAGE_CMD {st : Fin 4} (hs : Served m true (Reg.CTRL_STAGE_CMD st) 4 s) :
    regCommand m (Reg.CTRL_STAGE_CMD st) v s = roleWrite (writeStageCmd st v) (reply .done s) := by
  obtain ⟨r, hb, h⟩ := regCommand_narrow v ((by decide : ∀ n : Fin 4, narrowAt (Reg.CTRL_STAGE_CMD n) (Reg.CTRL_STAGE_CMD 0)) st) hs
  have hst : Fin.ofNat 4 ((Reg.CTRL_STAGE_CMD st - Reg.CTRL_STAGE_CMD 0) / 0x100) = st := by fin_cases st <;> rfl
  rw [h, write32Reg_CTRL _ _ (by simp only [Reg.CTRL_STAGE_CMD]; omega), writeCtrl, hb]
  rw [if_pos rfl, hst]

theorem regCommand_PWM_GATE_CTRL (hs : Served m true Reg.PWM_GATE_CTRL 4 s) :
    regCommand m Reg.PWM_GATE_CTRL v s = gateCtrlWrite v (reply .done s) := by
  obtain ⟨r, -, h⟩ := regCommand_narrow v (by decide : narrowAt Reg.PWM_GATE_CTRL Reg.PWM_GATE_CTRL) hs
  exact h

theorem regCommand_GFM_CMD {g : Fin 2} (hs : Served m true (Reg.GFM_CMD (2 * g)) 4 s) :
    regCommand m (Reg.GFM_CMD (2 * g)) v s = roleWrite (writeGfmCmd g v) (reply .done s) := by
  obtain ⟨r, hb, h⟩ := regCommand_narrow v ((by decide : ∀ g : Fin 2, narrowAt (Reg.GFM_CMD (2 * g)) (Reg.GFM_CMD 0)) g) hs
  have hg : Fin.ofNat 2 ((Reg.GFM_CMD (2 * g) - Reg.GFM_CMD 0) / 0x200) = g := by fin_cases g <;> rfl
  rw [h, write32Reg_GFM _ _ (by simp only [Reg.GFM_CMD]; omega), writeGfm, hb]
  rw [if_neg (by simp only [Reg.GFM_CMD, Reg.GFM_GROUP]; omega), if_neg (by simp only [Reg.GFM_CMD, Reg.GFM_VF_CFG]; omega),
    if_neg (by decide), if_neg (by decide), if_neg (by decide), if_pos rfl, hg]

theorem regCommand_REC_CTRL (hs : Served m true Reg.REC_CTRL 4 s) :
    regCommand m Reg.REC_CTRL v s = writeRecCtrl v (reply .done s) := by
  obtain ⟨r, -, h⟩ := regCommand_narrow v (by decide : narrowAt Reg.REC_CTRL Reg.REC_CTRL) hs
  exact h

theorem regCommand_SCAN_CTRL {k : Fin 2} (hs : Served m true (Reg.SCAN_CTRL k) 4 s) :
    regCommand m (Reg.SCAN_CTRL k) v s = roleWrite (writeScanCtrl k v) (reply .done s) := by
  obtain ⟨r, hb, h⟩ := regCommand_narrow v ((by decide : ∀ k : Fin 2, narrowAt (Reg.SCAN_CTRL k) (Reg.SCAN_CTRL 0)) k) hs
  have hk : Fin.ofNat 2 ((Reg.SCAN_CTRL k - Reg.SCAN_CTRL 0) / 0x100) = k := by fin_cases k <;> rfl
  rw [h, write32Reg_SCAN _ _ (by simp only [Reg.SCAN_CTRL]; omega), writeScan, hb, if_pos rfl, hk]

theorem regCommand_DPX_CMD (hs : Served m true Reg.DPX_CMD 4 s) :
    regCommand m Reg.DPX_CMD v s = writeDpxCmd v (reply .done s) := by
  obtain ⟨r, -, h⟩ := regCommand_narrow v (by decide : narrowAt Reg.DPX_CMD Reg.DPX_CMD) hs
  exact h

theorem regCommand_NET_FI_CFG {u : Fin 10} (hs : Served m true (Reg.NET_FI_CFG u) 4 s) :
    regCommand m (Reg.NET_FI_CFG u) v s = writeFiCfg u v (reply .done s) := by
  obtain ⟨r, hb, h⟩ := regCommand_narrow v ((by decide : ∀ u : Fin 10, narrowAt (Reg.NET_FI_CFG u) (Reg.NET_FI_CFG 0)) u) hs
  have hu : Fin.ofNat 10 ((Reg.NET_FI_CFG u - Reg.NET_FI_CFG 0) / 0x20) = u := by fin_cases u <;> rfl
  rw [h, write32Reg_NET _ _ (by simp only [Reg.NET_FI_CFG]; omega), writeNet, hb]
  rw [if_pos rfl, hu]

theorem regCommand_CMD_DOORBELL (hs : Served m true Reg.CMD_DOORBELL 4 s) : regCommand m Reg.CMD_DOORBELL v s =
    if m = 6 then doorbell (getF v F.CMD_DOORBELL_length) (reply .done s) else reply .done s := by
  obtain ⟨r, -, h⟩ := regCommand_narrow v (by decide : narrowAt Reg.CMD_DOORBELL Reg.CMD_DOORBELL) hs
  exact h

theorem regCommand_CMD_CTRL (hs : Served m true Reg.CMD_CTRL 4 s) :
    regCommand m Reg.CMD_CTRL v s = writeCmdCtrl v (reply .done s) := by
  obtain ⟨r, -, h⟩ := regCommand_narrow v (by decide : narrowAt Reg.CMD_CTRL Reg.CMD_CTRL) hs
  exact h

theorem regCommand_CMD_EVT_SEL (hs : Served m true Reg.CMD_EVT_SEL 4 s) :
    regCommand m Reg.CMD_EVT_SEL v s = writeEvtSel v (reply .done s) := by
  obtain ⟨r, -, h⟩ := regCommand_narrow v (by decide : narrowAt Reg.CMD_EVT_SEL Reg.CMD_EVT_SEL) hs
  exact h

end Commands

end Sys2Proof.Machine
end


section
/-! PROOFS. The fabric: words on RIDGE (R25, R29), the indirect port (R47, R77) and the shadow check (R70, R74). -/

namespace Sys2Proof.Machine

open Sys2Proof Sys2Proof.Safety Sys2Proof.Laws

/-! ### Words on RIDGE (R25, R29) -/

theorem exists_fourBits : ∀ b0 b1 b2 b3 : Bool, ∃ p : BitVec 4,
    p.getLsbD 0 = b0 ∧ p.getLsbD 1 = b1 ∧ p.getLsbD 2 = b2 ∧ p.getLsbD 3 = b3 := by decide

theorem eq_of_fourBits {p q : BitVec 4} (h : ∀ k : Fin 4, q.getLsbD k = p.getLsbD k) : q = p := by
  apply BitVec.eq_of_getLsbD_eq
  exact fun i hi => h ⟨i, hi⟩

/-- The parity bit of a byte, whichever sense the part has (log entry 71). -/
def parityBit (d : Word) (k : Fin 4) : Bool := (onesOf d k + b2n Config.parityOdd) % 2 == 1

theorem parityOk_iff (d : Word) (q : BitVec 4) : parityOk d q = true ↔ ∀ k : Fin 4, q.getLsbD k = parityBit d k := by
  simp [parityOk, parityBit, List.all_eq_true]

/-- R29: what ROUTE_WORD leaves in the inbox of the destination. -/
def takeRoute (key route : Nat) (w : RidgeWord) (s : State) : State :=
  if w.valid then { s with fab := { s.fab with
    inbox := (key, route, w) :: s.fab.inbox.filter (fun e => !(e.1 == key && e.2.1 == route)) } } else s

theorem execRouteWord_eq (c : Fin 4) (i : Fin 17) (route : BitVec 16) (d : Word) (v u h f : Bool) (parity : BitVec 4)
    (s : State) : exec (.routeWord c i route d v u h f parity) s = .next (whenS (!parityOk d parity)
      (logN 0x1102 (tileCode c i) route.toNat)
      (takeRoute (tileCode c i) route.toNat ⟨d, v, u, h, f || !parityOk d parity⟩ s)) := rfl

theorem takeRoute_invalid {key route : Nat} {w : RidgeWord} (s : State) (h : w.valid = false) : takeRoute key route w s = s := by
  simp [takeRoute, h]

theorem mem_inbox_takeRoute {key route : Nat} {w : RidgeWord} (s : State) (h : w.valid = true) (e : Nat × Nat × RidgeWord) :
    e ∈ (takeRoute key route w s).fab.inbox ↔
      e = (key, route, w) ∨ (e ∈ s.fab.inbox ∧ (e.1 ≠ key ∨ e.2.1 ≠ route)) := by
  simp only [takeRoute, h, if_true, List.mem_cons, List.mem_filter, Bool.not_eq_true', Bool.and_eq_false_iff, beq_eq_false_iff_ne]

theorem takeRoute_onlyInbox (key route : Nat) (w : RidgeWord) (s : State) :
    ∃ l, takeRoute key route w s = { s with fab := { s.fab with inbox := l } } := by
  unfold takeRoute
  split
  · exact ⟨_, rfl⟩
  · exact ⟨s.fab.inbox, rfl⟩

/-! ### What the structure of the fabric is read from -/

/-- Two states with the same fabric, tile registers and permits. -/
structure SameTiles (s x : State) : Prop where
  fab : x.fab = s.fab
  tile : ∀ c i, c < 4 → i < 17 → rd x (Reg.FAB_TILE c i) = rd s (Reg.FAB_TILE c i)
  status : ∀ c, c < 4 → rd x (Reg.FAB_STATUS c) = rd s (Reg.FAB_STATUS c)
  permit : rd x Reg.FAB_PERMIT = rd s Reg.FAB_PERMIT
  update : rd x Reg.UPD_STATUS = rd s Reg.UPD_STATUS

section SameTiles

variable {s x : State} (h : SameTiles s x)
include h

theorem SameTiles.tileState {c i : Nat} (hc : c < 4) (hi : i < 17) : tileState x c i = tileState s c i := by
  rw [Machine.tileState, fld, h.tile c i hc hi]; rfl

theorem SameTiles.tileFld {c i : Nat} (F : Fld) (hc : c < 4) (hi : i < 17) :
    fld x (Reg.FAB_TILE c i) F = fld s (Reg.FAB_TILE c i) F := by
  rw [fld, h.tile c i hc hi]; rfl

theorem SameTiles.spareOf {c : Nat} (hc : c < 4) : spareOf x c = spareOf s c := by
  rw [Machine.spareOf, fld, h.status c hc]; rfl

theorem SameTiles.tileOfSlot (slot : Nat) : tileOfSlot x slot = tileOfSlot s slot := by
  unfold Machine.tileOfSlot
  refine List.find?_congr fun p hp => ?_
  obtain ⟨c, hc, i, hi, rfl⟩ : ∃ c < 4, ∃ i < 17, (c, i) = p := by simpa using hp
  rw [h.tileState hc hi, h.tileFld _ hc hi]

theorem SameTiles.tileToHave (after : PitchImage) {c i : Nat} (hc : c < 4) (hi : i < 17) :
    tileToHave after x c i = tileToHave after s c i := by
  simp only [Machine.tileToHave, h.tileState hc hi, h.tileFld _ hc hi]

theorem SameTiles.planNext (after : PitchImage) (plan : List (TileRole × Nat)) (r : TileRole) :
    planNext after x plan r = planNext after s plan r := by
  have hfind : ∀ q : Nat → Bool, (List.range 17).find? (fun i => Machine.tileToHave after x r.cluster i && q i) =
      (List.range 17).find? (fun i => Machine.tileToHave after s r.cluster i && q i) := fun q =>
    List.find?_congr fun i hi => by rw [h.tileToHave after r.cluster.isLt (List.mem_range.1 hi)]
  simp only [Machine.planNext, h.tileToHave after r.cluster.isLt r.index.isLt, hfind]

theorem SameTiles.planTiles (after : PitchImage) : planTiles after x = planTiles after s := by
  have hnext : Machine.planNext after x = Machine.planNext after s := by
    funext plan r
    exact h.planNext after plan r
  simp only [Machine.planTiles, h.tileOfSlot, hnext]

theorem SameTiles.tilePending (c : Fin 4) (i : Nat) : tilePending x c i = tilePending s c i := by
  simp only [Machine.tilePending, h.fab, h.planTiles, h.spareOf c.isLt]

theorem SameTiles.indRefused (c : Fin 4) {i : Nat} (code : Nat) (hi : i < 17) :
    indRefused x c i code = indRefused s c i code := by
  simp only [Machine.indRefused, h.tilePending, h.tileState c.isLt hi, flg, fld, h.permit, commissioning, h.update]

theorem SameTiles.indSpace {c i : Nat} (code : Nat) (hc : c < 4) (hi : i < 17) : indSpace x c i code = indSpace s c i code := by
  simp only [Machine.indSpace, h.tileFld _ hc hi]

end SameTiles

/-! ### The indirect port (R47, R77) -/

/-- The indirect access that a write of FAB_IND_CTRL issues, by the registers of the port. -/
def indIssued (s : State) (c : Fin 4) (write : Bool) : IndAccess :=
  ⟨Fin.ofNat 17 (fld s (Reg.FAB_IND_ADDR c) F.FAB_IND_ADDR_tile),
    Fin.ofNat 3 ((indSpace s c (fld s (Reg.FAB_IND_ADDR c) F.FAB_IND_ADDR_tile)
      (fld s (Reg.FAB_IND_ADDR c) F.FAB_IND_ADDR_space)).getD 0),
    fld s (Reg.FAB_IND_ADDR c) F.FAB_IND_ADDR_word, if write then some (rd s (Reg.FAB_IND_DATA c)) else none⟩

/-- Is the access that the port's registers describe wrong (log entry 74) or refused (R77)? -/
def indWrong (s : State) (c : Fin 4) (write : Bool) : Bool :=
  let i := fld s (Reg.FAB_IND_ADDR c) F.FAB_IND_ADDR_tile
  let code := fld s (Reg.FAB_IND_ADDR c) F.FAB_IND_ADDR_space
  16 < i || code == 3 || (code != 0 && 1024 ≤ fld s (Reg.FAB_IND_ADDR c) F.FAB_IND_ADDR_word) ||
    (write && indRefused s c i code)

/-- What a write of FAB_IND_CTRL does before its go bit acts: err clears where 1 is written, and the write bit is taken. -/
def indPrepare (c : Fin 4) (v : Word) (s : State) : State :=
  setF (whenS (getF v F.FAB_IND_CTRL_err == 1) (fun s => setF s (Reg.FAB_IND_CTRL c) F.FAB_IND_CTRL_err 0) s)
    (Reg.FAB_IND_CTRL c) F.FAB_IND_CTRL_write (getF v F.FAB_IND_CTRL_write)

theorem indPrepare_onlyRegs (c : Fin 4) (v : Word) (s : State) : ∃ l, indPrepare c v s = { s with regs := l } := by
  unfold indPrepare
  cases getF v F.FAB_IND_CTRL_err == 1 <;> exact ⟨_, rfl⟩

theorem rd_indPrepare_ne (c : Fin 4) (v : Word) (s : State) {a : Nat} (h : a ≠ Reg.FAB_IND_CTRL c) :
    rd (indPrepare c v s) a = rd s a := by
  rw [indPrepare, rd_setF_ne _ _ _ h]
  cases getF v F.FAB_IND_CTRL_err == 1
  · rfl
  · exact rd_setF_ne _ _ _ h

theorem busy_indPrepare (c : Fin 4) (v : Word) (s : State) :
    flg (indPrepare c v s) (Reg.FAB_IND_CTRL c) F.FAB_IND_CTRL_busy = flg s (Reg.FAB_IND_CTRL c) F.FAB_IND_CTRL_busy := by
  unfold flg indPrepare
  rw [fld_setF_disj _ _ _ _ _ (by decide)]
  cases getF v F.FAB_IND_CTRL_err == 1
  · rfl
  · exact congrArg (· != 0) (fld_setF_disj _ _ _ _ _ (by decide))

theorem fab_indPrepare (c : Fin 4) (v : Word) (s : State) : (indPrepare c v s).fab = s.fab := by
  obtain ⟨l, hl⟩ := indPrepare_onlyRegs c v s
  rw [hl]

theorem sameTiles_indPrepare (c : Fin 4) (v : Word) (s : State) : SameTiles s (indPrepare c v s) where
  fab := fab_indPrepare c v s
  tile c' i hc hi := rd_indPrepare_ne _ _ _ (by simp only [Reg.FAB_TILE, Reg.FAB_IND_CTRL]; omega)
  status c' hc := rd_indPrepare_ne _ _ _ (by simp only [Reg.FAB_STATUS, Reg.FAB_IND_CTRL]; omega)
  permit := rd_indPrepare_ne _ _ _ (by simp only [Reg.FAB_PERMIT, Reg.FAB_IND_CTRL]; omega)
  update := rd_indPrepare_ne _ _ _ (by simp only [Reg.UPD_STATUS, Reg.FAB_IND_CTRL]; omega)

theorem indWrong_indPrepare (c : Fin 4) (v : Word) (s : State) (write : Bool) :
    indWrong (indPrepare c v s) c write = indWrong s c write := by
  have haddr : rd (indPrepare c v s) (Reg.FAB_IND_ADDR c) = rd s (Reg.FAB_IND_ADDR c) :=
    rd_indPrepare_ne _ _ _ (by simp only [Reg.FAB_IND_ADDR, Reg.FAB_IND_CTRL]; omega)
  simp only [indWrong, fld, haddr]
  by_cases hi : 16 < getF (rd s (Reg.FAB_IND_ADDR c)) F.FAB_IND_ADDR_tile
  · simp [hi]
  · rw [(sameTiles_indPrepare c v s).indRefused c _ (by omega)]
    rfl

theorem indIssued_indPrepare (c : Fin 4) (v : Word) (s : State) {write : Bool} (h : indWrong s c write = false) :
    indIssued (indPrepare c v s) c write = indIssued s c write := by
  have haddr : rd (indPrepare c v s) (Reg.FAB_IND_ADDR c) = rd s (Reg.FAB_IND_ADDR c) :=
    rd_indPrepare_ne _ _ _ (by simp only [Reg.FAB_IND_ADDR, Reg.FAB_IND_CTRL]; omega)
  have hdata : rd (indPrepare c v s) (Reg.FAB_IND_DATA c) = rd s (Reg.FAB_IND_DATA c) :=
    rd_indPrepare_ne _ _ _ (by simp only [Reg.FAB_IND_DATA, Reg.FAB_IND_CTRL]; omega)
  have hi : ¬ 16 < getF (rd s (Reg.FAB_IND_ADDR c)) F.FAB_IND_ADDR_tile := by
    intro hno
    simp [indWrong, fld, hno] at h
  simp only [indIssued, fld, haddr, hdata, (sameTiles_indPrepare c v s).indSpace _ c.isLt (Nat.lt_succ_of_le (Nat.le_of_not_lt hi))]

/-- The three ends of a write of FAB_IND_CTRL: go without effect, a wrong access, and one that is issued. -/
theorem writeIndCtrl_idle {c : Fin 4} {v : Word} {s : State}
    (h : getF v F.FAB_IND_CTRL_go = 0 ∨ flg s (Reg.FAB_IND_CTRL c) F.FAB_IND_CTRL_busy = true) :
    writeIndCtrl c v s = indPrepare c v s := by
  rw [← busy_indPrepare c v s] at h
  exact if_pos h

theorem writeIndCtrl_wrong {c : Fin 4} {v : Word} {s : State} (hgo : getF v F.FAB_IND_CTRL_go ≠ 0)
    (hidle : flg s (Reg.FAB_IND_CTRL c) F.FAB_IND_CTRL_busy = false)
    (h : indWrong s c (getF v F.FAB_IND_CTRL_write == 1) = true) :
    writeIndCtrl c v s = setF (indPrepare c v s) (Reg.FAB_IND_CTRL c) F.FAB_IND_CTRL_err 1 := by
  rw [← busy_indPrepare c v s] at hidle
  rw [← indWrong_indPrepare c v s] at h
  have hnot : ¬(getF v F.FAB_IND_CTRL_go = 0 ∨ flg (indPrepare c v s) (Reg.FAB_IND_CTRL c) F.FAB_IND_CTRL_busy = true) := by
    simp [hgo, hidle]
  exact (if_neg hnot).trans (if_pos h)

theorem writeIndCtrl_issue {c : Fin 4} {v : Word} {s : State} (hgo : getF v F.FAB_IND_CTRL_go ≠ 0)
    (hidle : flg s (Reg.FAB_IND_CTRL c) F.FAB_IND_CTRL_busy = false)
    (h : indWrong s c (getF v F.FAB_IND_CTRL_write == 1) = false) :
    writeIndCtrl c v s = setF { indPrepare c v s with fab := { s.fab with
      ind := s.fab.ind.set c (some (indIssued s c (getF v F.FAB_IND_CTRL_write == 1))) } }
      (Reg.FAB_IND_CTRL c) F.FAB_IND_CTRL_busy 1 := by
  rw [← busy_indPrepare c v s] at hidle
  rw [← indIssued_indPrepare c v s h, ← fab_indPrepare c v s]
  rw [← indWrong_indPrepare c v s] at h
  have hnot : ¬(getF v F.FAB_IND_CTRL_go = 0 ∨ flg (indPrepare c v s) (Reg.FAB_IND_CTRL c) F.FAB_IND_CTRL_busy = true) := by
    simp [hgo, hidle]
  exact (if_neg hnot).trans (if_neg (Bool.eq_false_iff.1 h))

/-- The space of an issued access is the one that FAB_IND_ADDR names. -/
theorem indSpace_lt {s : State} {c i code : Nat} (h : code ≠ 3) (hcode : code < 4) :
    ∃ sp, indSpace s c i code = some sp ∧ sp < 3 := by
  have hact : fld s (Reg.FAB_TILE c i) F.FAB_TILE_ctx < 2 := fld_lt s _ _
  unfold indSpace
  interval_cases code
  · exact ⟨0, rfl, by omega⟩
  · exact ⟨_, rfl, by omega⟩
  · exact ⟨_, rfl, by omega⟩
  · exact absurd rfl h

theorem whenS_true (g : State → State) (s : State) : whenS true g s = g s := rfl

theorem whenS_false (g : State → State) (s : State) : whenS false g s = s := rfl

/-- The port as a completed access leaves it. -/
def indDone (c : Fin 4) (s : State) : State :=
  setF { s with fab := { s.fab with ind := s.fab.ind.set c none } } (Reg.FAB_IND_CTRL c) F.FAB_IND_CTRL_busy 0

theorem execIndirectAccessDone_read {c : Fin 4} {x : IndAccess} {s : State} (h : s.fab.ind[c] = some x) (hd : x.data = none) :
    execIndirectAccessDone c s =
      .next (wr (indDone c s) (Reg.FAB_IND_DATA c) (tileWord s (tileKey c x.tile x.space x.word))) := by
  unfold execIndirectAccessDone
  rw [h]
  dsimp only
  rw [hd]
  rfl

theorem execIndirectAccessDone_write {c : Fin 4} {x : IndAccess} {s : State} {d : Word} (h : s.fab.ind[c] = some x)
    (hd : x.data = some d) :
    execIndirectAccessDone c s = .next (putTile (tileKey c x.tile x.space x.word) d (indDone c s)) := by
  unfold execIndirectAccessDone
  rw [h]
  dsimp only
  rw [hd]
  rfl

theorem ind_indDone (c : Fin 4) (s : State) : (indDone c s).fab.ind[c] = none := Vector.getElem_set_self _

theorem busy_indDone (c : Fin 4) (s : State) : flg (indDone c s) (Reg.FAB_IND_CTRL c) F.FAB_IND_CTRL_busy = false := by
  simp [indDone, flg, fld_setF]

theorem rd_indDone_ne (c : Fin 4) (s : State) {a : Nat} (h : a ≠ Reg.FAB_IND_CTRL c) : rd (indDone c s) a = rd s a :=
  rd_setF_ne _ _ _ h

theorem writeIndCtrl_onlyRegs (c : Fin 4) (v : Word) (s : State) : OnlyRegs [Reg.FAB_IND_CTRL c] s (writeIndCtrl c v s) := by
  intro b hb
  have hne : b ≠ Reg.FAB_IND_CTRL c := by simpa using hb
  by_cases h : getF v F.FAB_IND_CTRL_go = 0 ∨ flg s (Reg.FAB_IND_CTRL c) F.FAB_IND_CTRL_busy = true
  · rw [writeIndCtrl_idle h, rd_indPrepare_ne _ _ _ hne]
  · obtain ⟨hgo, hidle⟩ := not_or.1 h
    cases hw : indWrong s c (getF v F.FAB_IND_CTRL_write == 1)
    · rw [writeIndCtrl_issue hgo (Bool.eq_false_iff.2 hidle) hw, rd_setF_ne _ _ _ hne]
      exact rd_indPrepare_ne _ _ _ hne
    · rw [writeIndCtrl_wrong hgo (Bool.eq_false_iff.2 hidle) hw, rd_setF_ne _ _ _ hne, rd_indPrepare_ne _ _ _ hne]

theorem writeIndCtrl_busReply (c : Fin 4) (v : Word) (s : State) : (writeIndCtrl c v s).busReply = s.busReply := by
  obtain ⟨l, hl⟩ := indPrepare_onlyRegs c v s
  by_cases h : getF v F.FAB_IND_CTRL_go = 0 ∨ flg s (Reg.FAB_IND_CTRL c) F.FAB_IND_CTRL_busy = true
  · rw [writeIndCtrl_idle h, hl]
  · obtain ⟨hgo, hidle⟩ := not_or.1 h
    cases hw : indWrong s c (getF v F.FAB_IND_CTRL_write == 1)
    · rw [writeIndCtrl_issue hgo (Bool.eq_false_iff.2 hidle) hw, setF_busReply, hl]
    · rw [writeIndCtrl_wrong hgo (Bool.eq_false_iff.2 hidle) hw, setF_busReply, hl]

theorem writeIndCtrl_tileMem (c : Fin 4) (v : Word) (s : State) : (writeIndCtrl c v s).fab.tileMem = s.fab.tileMem := by
  by_cases h : getF v F.FAB_IND_CTRL_go = 0 ∨ flg s (Reg.FAB_IND_CTRL c) F.FAB_IND_CTRL_busy = true
  · rw [writeIndCtrl_idle h, fab_indPrepare]
  · obtain ⟨hgo, hidle⟩ := not_or.1 h
    cases hw : indWrong s c (getF v F.FAB_IND_CTRL_write == 1)
    · rw [writeIndCtrl_issue hgo (Bool.eq_false_iff.2 hidle) hw, setF_fab]
    · rw [writeIndCtrl_wrong hgo (Bool.eq_false_iff.2 hidle) hw, setF_fab, fab_indPrepare]

end Sys2Proof.Machine

namespace Sys2Proof.Proofs

open Sys2Proof Sys2Proof.Machine Sys2Proof.Safety Sys2Proof.Laws

/-- Settles O18: the inbox is that of `takeRoute`, and a mismatch adds its event alone. -/
theorem routeWord : Obligations.RouteWord := by
  refine ⟨fun d => ?_, fun c i route d v u h f parity s hroom => ?_⟩
  · obtain ⟨p, h0, h1, h2, h3⟩ := exists_fourBits (parityBit d 0) (parityBit d 1) (parityBit d 2) (parityBit d 3)
    have hp : ∀ k : Fin 4, p.getLsbD k = parityBit d k := by
      intro k
      fin_cases k <;> assumption
    refine ⟨p, fun q => (parityOk_iff d q).trans ⟨fun hq => eq_of_fourBits fun k => (hq k).trans (hp k).symm, ?_⟩⟩
    rintro rfl
    exact hp
  · obtain ⟨l, hl⟩ := takeRoute_onlyInbox (tileCode c i) route.toNat ⟨d, v, u, h, f || !parityOk d parity⟩ s
    have hmem := fun hv => mem_inbox_takeRoute (key := tileCode c i) (route := route.toNat)
      (w := ⟨d, v, u, h, f || !parityOk d parity⟩) s hv
    have hrun := execRouteWord_eq c i route d v u h f parity s
    have hframe := (exec_ev (c := .routeWord c i route d v u h f parity) hrun).keeps
    refine ⟨_, hrun, ?_⟩
    have hinvalid := fun hv : v = false => takeRoute_invalid (key := tileCode c i) (route := route.toNat)
      (w := ⟨d, v, u, h, f || !parityOk d parity⟩) s hv
    generalize takeRoute (tileCode c i) route.toNat ⟨d, v, u, h, f || !parityOk d parity⟩ s = x at hl hmem hinvalid hframe ⊢
    have hlog : x.log = s.log := by rw [hl]
    have hrd : ∀ b, rd x b = rd s b := fun b => by rw [hl]; rfl
    have hfab : (whenS (!parityOk d parity) (logN 0x1102 (tileCode c i) route.toNat) x).fab = x.fab := by
      cases parityOk d parity
      · exact logN_fab ..
      · rfl
    rw [hfab]
    refine ⟨fun b _ => ?_, fun hv => ⟨fun w => ?_, fun e he => ?_⟩, fun hv => ?_, ?_, ?_, fun p hp => ?_⟩
    · cases hok : parityOk d parity
      · exact (rd_logEvent_room x _ _ _ (by rw [hlog]; omega) b).trans (hrd b)
      · exact hrd b
    · subst hv
      rw [hmem rfl]
      simp
    · rw [hmem hv]
      have hne : e ≠ (tileCode c i, route.toNat, ⟨d, v, u, h, f || !parityOk d parity⟩) := by
        rintro rfl
        simp at he
      simp [hne, he]
    · rw [hinvalid hv]
    · rw [hl]
    · cases hok : parityOk d parity
      · exact logged_logN _ _ _ hlog hroom
      · exact logged_nil hlog
    · exact hframe.parts p (by simpa [touches, and_comm] using hp)

/-- The word that FAB_IND_GO writes has its go bit, and the write bit of its operand. -/
theorem getF_go (v : Word) : getF (putF v F.FAB_IND_CTRL_go 1) F.FAB_IND_CTRL_go = 1 := getF_putF _ _ _ (by decide)

theorem getF_write_go (v : Word) :
    getF (putF v F.FAB_IND_CTRL_go 1) F.FAB_IND_CTRL_write = getF v F.FAB_IND_CTRL_write := getF_putF_ne _ _ _ _ (by decide)

/-- Settles O19: a write of FAB_IND_CTRL with go ends in one of the three ways of `writeIndCtrl`. -/
theorem indirectAccess : Obligations.IndirectAccess := by
  refine ⟨fun m c v s hs => ?_, fun c s hnone => ?_, fun c x s hsome => ?_⟩
  · intro i sp w write wrong
    have hwrong : indWrong s c (getF v F.FAB_IND_CTRL_write == 1) = true ↔ wrong := by
      simp only [indWrong, wrong, i, sp, w, write, Bool.or_eq_true, decide_eq_true_eq, beq_iff_eq, Bool.and_eq_true,
        bne_iff_ne, or_assoc]
    have hgo : getF (putF v F.FAB_IND_CTRL_go 1) F.FAB_IND_CTRL_go ≠ 0 := by rw [getF_go]; decide
    refine ⟨writeIndCtrl c (putF v F.FAB_IND_CTRL_go 1) (reply .done s),
      congrArg Host.Outcome.next (regCommand_FAB_IND_CTRL _ hs), writeIndCtrl_busReply .., writeIndCtrl_onlyRegs _ _ (reply .done s),
      writeIndCtrl_tileMem .., fun hbusy => ?_, fun hidle h => ?_, fun hidle h => ?_⟩
    · rw [writeIndCtrl_idle (s := reply .done s) (.inr hbusy)]
      exact ⟨fab_indPrepare .., (busy_indPrepare ..).trans hbusy⟩
    · rw [writeIndCtrl_wrong (s := reply .done s) hgo hidle (by rw [getF_write_go]; exact hwrong.2 h)]
      refine ⟨fab_indPrepare .., by simp [flg, fld_setF], ?_⟩
      rw [flg, fld_setF_disj _ _ _ _ _ (by decide)]
      exact (busy_indPrepare ..).trans hidle
    · have hright : indWrong s c (getF v F.FAB_IND_CTRL_write == 1) = false := Bool.eq_false_iff.2 fun h' => h (hwrong.1 h')
      rw [writeIndCtrl_issue (s := reply .done s) hgo hidle (by rw [getF_write_go]; exact hright), getF_write_go]
      obtain ⟨hi, hsp⟩ : i ≤ 16 ∧ sp ≠ 3 := by
        simp only [wrong, not_or] at h
        omega
      obtain ⟨space, hspace, hlt⟩ := indSpace_lt (s := s) (c := c) (i := i) hsp (fld_lt s _ _)
      refine ⟨by simp [flg, fld_setF], fun d hd => ?_, _, Vector.getElem_set_self _, ?_, ?_, rfl, fun hw => ?_, fun hw => ?_⟩
      · exact Vector.getElem_set_ne c.isLt d.isLt (by omega)
      · exact Nat.mod_eq_of_lt (Nat.lt_succ_of_le hi)
      · change indSpace s c i sp = some (Fin.ofNat 3 ((indSpace s c i sp).getD 0)).val
        rw [hspace]
        simp [Nat.mod_eq_of_lt hlt]
      · simp [indIssued, show getF v F.FAB_IND_CTRL_write = 1 from hw]
      · simp [indIssued, show ¬ getF v F.FAB_IND_CTRL_write = 1 from hw]
  · simp [exec, execIndirectAccessDone, hnone]
  · intro key
    have hctrl : Reg.FAB_IND_CTRL c ≠ Reg.FAB_IND_DATA c := by simp only [Reg.FAB_IND_CTRL, Reg.FAB_IND_DATA]; omega
    cases hd : x.data with
    | none =>
      refine ⟨_, execIndirectAccessDone_read hsome hd, ind_indDone c s, ?_, fun b hb => ?_, fun d h => ?_, fun _ =>
        ⟨rd_wr .., rfl⟩⟩
      · rw [flg, fld, rd_wr_ne _ _ hctrl]
        exact busy_indDone c s
      · simp only [List.mem_cons, List.not_mem_nil, or_false, not_or] at hb
        rw [rd_wr_ne _ _ hb.2, rd_indDone_ne c s hb.1]
      · simp at h
    | some d =>
      refine ⟨_, execIndirectAccessDone_write hsome hd, ind_indDone c s, busy_indDone c s, fun b hb => ?_, fun d' h => ?_,
        fun h => ?_⟩
      · simp only [List.mem_cons, List.not_mem_nil, or_false, not_or] at hb
        exact rd_indDone_ne c s hb.1
      · obtain rfl := Option.some.inj h
        exact ⟨sget_sput_same .., rd_indDone_ne c s hctrl.symm, fun k hk => sget_sput_other _ _ _ hk⟩
      · simp at h

end Sys2Proof.Proofs
end


section
/-! PROOFS. The step on the front command and on an empty queue, the reset state, and accesses of another width (R10, R101, R420). -/

namespace Sys2Proof.Machine

open Sys2Proof Sys2Proof.Safety Sys2Proof.Laws

theorem drainPort_none {p : Fin 2} {s : State} (h : nextQueue s p = none) : drainPort p s = s := by
  unfold drainPort
  split
  · rfl
  · rw [h]

theorem drainOne_net (s : State) : (drainOne s).net = s.net := by
  unfold drainOne
  split
  · rfl
  · dsimp only
    split <;> rfl

theorem nextQueue_of_net {s t : State} (p : Fin 2) (h : t.net = s.net) : nextQueue t p = nextQueue s p := by
  unfold nextQueue
  rw [h]

/-- An idle step with nothing to send is the tick alone. -/
theorem idleStep_quiet {s : State} (hnone : s.net.arrived = []) (h0 : nextQueue s 0 = none) (h1 : nextQueue s 1 = none) :
    idleStep s = .next (idleTick s) := by
  have hnet : (idleTick s).net = s.net := drainOne_net _
  rw [idleStep, hnone, drainPorts]
  rw [drainPort_none ((nextQueue_of_net 0 hnet).trans h0), drainPort_none ((nextQueue_of_net 1 hnet).trans h1)]

/-- The state one tick later. -/
def ticked (s : State) : State := { s with tai := s.tai + 5, ticks := s.ticks + 1 }

/-- The logger's move of its oldest queued event. -/
def moveEvent (e : Event) (q : List Event) (s : State) : State :=
  let x := whenS (fbit s Reg.CMD_IRQ_EN F.CMD_IRQ_EN_en 2) (fun s => setF s Reg.CMD_IRQ F.CMD_IRQ_event 1) s
  { x with log := { s.log with
      queue := q
      entries := if 4096 < (s.log.entries ++ [e]).length then (s.log.entries ++ [e]).tail else s.log.entries ++ [e]
      next := s.log.next + 1 } }

theorem idleTick_empty {s : State} (h : s.log.queue = []) : idleTick s = ticked s := by
  have hq : (ticked s).log.queue = [] := h
  change drainOne (ticked s) = _
  rw [drainOne, hq]

theorem idleTick_cons {s : State} {e : Event} {q : List Event} (h : s.log.queue = e :: q) :
    idleTick s = moveEvent e q (ticked s) := by
  have hq : (ticked s).log.queue = e :: q := h
  change drainOne (ticked s) = _
  rw [drainOne, hq]
  unfold moveEvent whenS fbit
  dsimp only
  split <;> rfl

section MoveEvent

variable (e : Event) (q : List Event) (s : State)

theorem moveEvent_tai : (moveEvent e q s).tai = s.tai := by
  unfold moveEvent whenS
  dsimp only
  split <;> rfl

theorem moveEvent_ticks : (moveEvent e q s).ticks = s.ticks := by
  unfold moveEvent whenS
  dsimp only
  split <;> rfl

theorem moveEvent_onlyRegs : OnlyRegs [Reg.CMD_IRQ] s (moveEvent e q s) := by
  intro a ha
  unfold moveEvent whenS
  dsimp only
  split
  · exact rd_setF_ne s _ _ (by simpa using ha)
  · rfl

theorem rd_moveEvent : rd (moveEvent e q s) Reg.CMD_IRQ =
    if fbit s Reg.CMD_IRQ_EN F.CMD_IRQ_EN_en 2 then putF (rd s Reg.CMD_IRQ) F.CMD_IRQ_event 1 else rd s Reg.CMD_IRQ := by
  unfold moveEvent whenS
  dsimp only
  split
  · exact rd_wr s _ _
  · rfl

theorem moveEvent_same {p : Part} (hp : p ≠ Part.log) : p.same s (moveEvent e q s) := by
  unfold moveEvent whenS
  dsimp only
  cases p
  case log => exact absurd rfl hp
  all_goals
    dsimp only [Part.same]
    split <;> rfl

end MoveEvent

theorem same_trans {p : Part} {s t u : State} (h : p.same s t) (h' : p.same t u) : p.same s u := by
  cases p <;> exact Eq.trans h' h

theorem idleTick_same (s : State) {p : Part} (hp : p ∉ [Part.tai, Part.ticks, Part.log]) : p.same s (idleTick s) := by
  simp only [List.mem_cons, List.not_mem_nil, or_false, not_or] at hp
  obtain ⟨htai, hticks, hlog⟩ := hp
  have htick : p.same s (ticked s) := by
    cases p
    case tai => exact absurd rfl htai
    case ticks => exact absurd rfl hticks
    all_goals rfl
  cases hq : s.log.queue with
  | nil => exact idleTick_empty hq ▸ htick
  | cons e q => exact idleTick_cons hq ▸ same_trans htick (moveEvent_same e q _ hlog)

/-- What a log that keeps the newest `n` entries holds after one more. -/
theorem drop_append_one {α : Type} {n : Nat} (l : List α) (e : α) (h : l.length ≤ n) :
    (if n < (l ++ [e]).length then (l ++ [e]).tail else l ++ [e]) = (l ++ [e]).drop (l.length + 1 - n) := by
  rw [List.length_append, List.length_singleton]
  split
  · rw [show l.length + 1 - n = 1 by omega, List.drop_one]
  · rw [show l.length + 1 - n = 0 by omega, List.drop_zero]

end Sys2Proof.Machine

namespace Sys2Proof.Proofs

open Sys2Proof Sys2Proof.Machine Sys2Proof.Safety Sys2Proof.Laws

/-- Settles O1, by the definition of the step. -/
theorem stepRunsFrontCommand : Obligations.StepRunsFrontCommand := fun _ _ _ => rfl

/-- Settles O2: with both egress queues empty an idle step is the tick, which moves one event. -/
theorem idleTick : Obligations.IdleTick := by
  intro s hidle
  have hstep : step s = idleStep s := by rw [step, hidle]
  refine ⟨fun i rest harr => ?_, fun hnone h0 h1 hlen => ?_⟩
  · rw [hstep, idleStep, harr]
  · refine ⟨_, hstep.trans (idleStep_quiet hnone h0 h1), ?_⟩
    have hother : ∀ p, p ∉ [Part.tai, Part.ticks, Part.log] → p.same s (Machine.idleTick s) :=
      fun p hp => idleTick_same s hp
    cases hq : s.log.queue with
    | nil =>
      rw [idleTick_empty hq] at hother ⊢
      exact ⟨rfl, rfl, hother, rfl, fun _ _ => rfl⟩
    | cons e q =>
      rw [idleTick_cons hq] at hother ⊢
      refine ⟨moveEvent_tai e q _, moveEvent_ticks e q _, hother, rfl, rfl, ?_, moveEvent_onlyRegs e q _, rd_moveEvent e q _⟩
      exact drop_append_one _ e hlen

/-- Settles O3: the reset state holds no register, no memory and no event. -/
theorem resetSound : Obligations.ResetSound where
  regs := rfl
  mem := rfl
  tileMem := rfl
  queue := Nat.zero_le _
  entries := Nat.zero_le _

/-- Settles O8: the table gives no bits. -/
theorem noWordSpellsACommand : Obligations.NoWordSpellsACommand := fun _ _ _ => ⟨rfl, rfl⟩

/-- Settles O10: register space serves aligned words alone. -/
theorem wrongWidthIsBusError : Obligations.WrongWidthIsBusError := by
  intro m w a v same early s hreg hwrong
  refine ⟨fun hs => ?_, fun hs => ?_⟩
  · have hwrite : ∀ x y : Word, busWrite m w a.toNat x y s = reply .error s := by
      intro x y
      obtain ⟨hrun, hfirst, hlast⟩ := hs
      simp [busWrite, hrun, hfirst, hlast, hreg, hwrong]
    exact congrArg Host.Outcome.next (hwrite _ _)
  · have hread : busRead m w a.toNat early s = reply .error s := by
      obtain ⟨hrun, hfirst, hlast⟩ := hs
      simp [busRead, regReadBus, hrun, hfirst, hlast, hreg, hwrong]
    exact ⟨congrArg Host.Outcome.next hread, congrArg Host.Outcome.next hread⟩

end Sys2Proof.Proofs
end


section
/-! PROOFS. The shadow check: the rotation, CHECK_NOW and the frames of a session (R70, R74). -/

namespace Sys2Proof.Machine

open Sys2Proof Sys2Proof.Safety Sys2Proof.Laws

/-! ### Flags -/

theorem flg_setF (s : State) (a : Nat) (G : Fld) (v : Nat) (h : G.lo + G.w ≤ 32) :
    flg (setF s a G v) a G = (v % 2 ^ G.w != 0) := by rw [flg, fld_setF _ _ _ _ h]

theorem flg_setF_disj (s : State) (a : Nat) (G H : Fld) (v : Nat) (h : H.lo + H.w ≤ G.lo ∨ G.lo + G.w ≤ H.lo) :
    flg (setF s a G v) a H = flg s a H := by rw [flg, fld_setF_disj _ _ _ _ _ h]; rfl

theorem flg_setF_ne (s : State) {a b : Nat} (G H : Fld) (v : Nat) (h : b ≠ a) : flg (setF s a G v) b H = flg s b H := by
  rw [flg, fld_setF_ne _ _ _ _ h]; rfl

theorem flg_of_regs {s x : State} (h : x.regs = s.regs) (a : Nat) (G : Fld) : flg x a G = flg s a G := by
  simp only [flg, fld, rd, h]

/-! ### The words of a cluster -/

theorem tileState_setF_ne (s : State) {a c i : Nat} (F : Fld) (v : Nat) (h : Reg.FAB_TILE c i ≠ a) :
    tileState (setF s a F v) c i = tileState s c i := fld_setF_ne s F _ v h

theorem tileState_logN (s : State) (k q e : Nat) (c : Fin 4) {i : Nat} (hi : i < 17) :
    tileState (logN k q e s) c i = tileState s c i :=
  fld_logN s k q e _ (by simp only [Reg.FAB_TILE, Reg.CMD_STATUS]; omega) (by simp only [Reg.FAB_TILE, Reg.CMD_EVT_LOST]; omega)

theorem spareOf_setF (s : State) (c : Fin 4) {a : Nat} (G : Fld) (v : Nat)
    (h : Reg.FAB_STATUS c ≠ a ∨ G.lo + G.w ≤ 8 ∨ 13 ≤ G.lo) : spareOf (setF s a G v) c = spareOf s c := by
  have hfld : fld (setF s a G v) (Reg.FAB_STATUS c) F.FAB_STATUS_spare_idx = fld s (Reg.FAB_STATUS c) F.FAB_STATUS_spare_idx := by
    by_cases ha : Reg.FAB_STATUS c = a
    · subst ha
      exact fld_setF_disj s _ _ _ _ (by simp only; omega)
    · exact fld_setF_ne s _ _ _ ha
  rw [spareOf, hfld]; rfl

@[simp] theorem clusters_setCluster (c : Fin 4) (x : ClusterState) (s : State) :
    (setCluster c x s).fab.clusters = s.fab.clusters.set c x := rfl

theorem changeConcerns_of_fab {s x : State} (c : Nat) (h : x.fab.change = s.fab.change) :
    changeConcerns x c = changeConcerns s c := by rw [changeConcerns, h]; rfl

/-! ### CHECK_NOW (R74) -/

theorem abandonSession_onlyRegs (c : Fin 4) (s : State) :
    OnlyRegs [Reg.FAB_SHADOW_STATUS c, Reg.FAB_STATUS c] s (abandonSession c s) := by
  intro a ha
  simp only [List.mem_cons, List.not_mem_nil, or_false, not_or] at ha
  unfold abandonSession
  split
  · rw [rd_setF_ne _ _ _ ha.1, endSession, rd_setF_ne _ _ _ ha.1, rd_setF_ne _ _ _ ha.2]
    rfl
  · rfl

theorem spareOf_abandonSession (c : Fin 4) (s : State) : spareOf (abandonSession c s) c = spareOf s c := by
  have hne : Reg.FAB_STATUS c ≠ Reg.FAB_SHADOW_STATUS c := by simp only [Reg.FAB_STATUS, Reg.FAB_SHADOW_STATUS]; omega
  unfold abandonSession
  split
  · rw [spareOf_setF _ _ _ _ (.inl hne), endSession, spareOf_setF _ _ _ _ (.inl hne),
      spareOf_setF _ _ _ _ (.inr (.inl (by decide)))]
    rfl
  · rfl

/-- What a write of FAB_SHADOW_CTRL does before check_now acts. -/
def shadowPrepare (c : Fin 4) (v : Word) (s : State) : State :=
  setF (whenS (getF v F.FAB_SHADOW_CTRL_enable == 0) (abandonSession c)
    (setF s (Reg.FAB_SHADOW_CTRL c) F.FAB_SHADOW_CTRL_enable (getF v F.FAB_SHADOW_CTRL_enable)))
    (Reg.FAB_SHADOW_CTRL c) F.FAB_SHADOW_CTRL_target (getF v F.FAB_SHADOW_CTRL_target)

theorem writeShadowCtrl_eq (c : Fin 4) (v : Word) (s : State) : writeShadowCtrl c v s =
    if getF v F.FAB_SHADOW_CTRL_check_now = 1 ∧ getF v F.FAB_SHADOW_CTRL_target ≤ 16 ∧
      spareOf (shadowPrepare c v s) c ≠ some (getF v F.FAB_SHADOW_CTRL_target)
    then setF (shadowPrepare c v s) (Reg.FAB_SHADOW_CTRL c) F.FAB_SHADOW_CTRL_check_now 1 else shadowPrepare c v s := rfl

theorem shadowPrepare_onlyRegs (c : Fin 4) (v : Word) (s : State) :
    OnlyRegs [Reg.FAB_SHADOW_CTRL c, Reg.FAB_SHADOW_STATUS c, Reg.FAB_STATUS c] s (shadowPrepare c v s) := by
  intro a ha
  simp only [List.mem_cons, List.not_mem_nil, or_false, not_or] at ha
  obtain ⟨hctrl, hstatus⟩ := ha
  rw [shadowPrepare, rd_setF_ne _ _ _ hctrl]
  cases getF v F.FAB_SHADOW_CTRL_enable == 0
  · exact rd_setF_ne _ _ _ hctrl
  · exact (abandonSession_onlyRegs c _ a (by simpa using hstatus)).trans (rd_setF_ne _ _ _ hctrl)

theorem shadowPrepare_enabled (c : Fin 4) {v : Word} (s : State) (h : getF v F.FAB_SHADOW_CTRL_enable = 1) :
    shadowPrepare c v s = setF (setF s (Reg.FAB_SHADOW_CTRL c) F.FAB_SHADOW_CTRL_enable 1) (Reg.FAB_SHADOW_CTRL c)
      F.FAB_SHADOW_CTRL_target (getF v F.FAB_SHADOW_CTRL_target) := by
  rw [shadowPrepare, h]
  rfl

theorem spareOf_shadowPrepare (c : Fin 4) (v : Word) (s : State) : spareOf (shadowPrepare c v s) c = spareOf s c := by
  have hne : Reg.FAB_STATUS c ≠ Reg.FAB_SHADOW_CTRL c := by simp only [Reg.FAB_STATUS, Reg.FAB_SHADOW_CTRL]; omega
  rw [shadowPrepare, spareOf_setF _ _ _ _ (.inl hne)]
  cases getF v F.FAB_SHADOW_CTRL_enable == 0
  · exact spareOf_setF _ _ _ _ (.inl hne)
  · exact (spareOf_abandonSession c _).trans (spareOf_setF _ _ _ _ (.inl hne))

theorem checkNow_shadowPrepare (c : Fin 4) (v : Word) (s : State) :
    flg (shadowPrepare c v s) (Reg.FAB_SHADOW_CTRL c) F.FAB_SHADOW_CTRL_check_now =
      flg s (Reg.FAB_SHADOW_CTRL c) F.FAB_SHADOW_CTRL_check_now := by
  have hkeep := abandonSession_onlyRegs c
    (setF s (Reg.FAB_SHADOW_CTRL c) F.FAB_SHADOW_CTRL_enable (getF v F.FAB_SHADOW_CTRL_enable)) (Reg.FAB_SHADOW_CTRL c)
    (by
      simp only [Reg.FAB_SHADOW_CTRL, Reg.FAB_SHADOW_STATUS, Reg.FAB_STATUS, List.mem_cons, List.not_mem_nil, or_false, not_or]
      omega)
  unfold flg shadowPrepare
  rw [fld_setF_disj _ _ _ _ _ (by decide)]
  cases getF v F.FAB_SHADOW_CTRL_enable == 0
  · exact congrArg (· != 0) (fld_setF_disj _ _ _ _ _ (by decide))
  · rw [whenS_true, fld, hkeep]
    exact congrArg (· != 0) (fld_setF_disj _ _ _ _ _ (by decide))

theorem writeShadowCtrl_busReply (c : Fin 4) (v : Word) (s : State) : (writeShadowCtrl c v s).busReply = s.busReply := by
  have hprep : (shadowPrepare c v s).busReply = s.busReply := by
    unfold shadowPrepare abandonSession whenS
    split
    · dsimp only
      split <;> rfl
    · rfl
  rw [writeShadowCtrl_eq]
  split <;> exact hprep

theorem writeShadowCtrl_onlyRegs (c : Fin 4) (v : Word) (s : State) :
    OnlyRegs [Reg.FAB_SHADOW_CTRL c, Reg.FAB_SHADOW_STATUS c, Reg.FAB_STATUS c] s (writeShadowCtrl c v s) := by
  intro a ha
  have hprep := shadowPrepare_onlyRegs c v s a ha
  rw [writeShadowCtrl_eq]
  split
  · exact (rd_setF_ne _ _ _ (List.ne_of_not_mem_cons ha)).trans hprep
  · exact hprep

theorem writeShadowCtrl_enabled (c : Fin 4) {v : Word} (s : State) (h : getF v F.FAB_SHADOW_CTRL_enable = 1) :
    (writeShadowCtrl c v s).fab = s.fab ∧ OnlyRegs [Reg.FAB_SHADOW_CTRL c] s (writeShadowCtrl c v s) := by
  rw [writeShadowCtrl_eq, shadowPrepare_enabled c s h]
  have hkeep : ∀ n, OnlyRegs [Reg.FAB_SHADOW_CTRL c] s (setF (setF s (Reg.FAB_SHADOW_CTRL c) F.FAB_SHADOW_CTRL_enable 1)
      (Reg.FAB_SHADOW_CTRL c) F.FAB_SHADOW_CTRL_target n) := by
    intro n a ha
    have hne : a ≠ Reg.FAB_SHADOW_CTRL c := by simpa using ha
    rw [rd_setF_ne _ _ _ hne, rd_setF_ne _ _ _ hne]
  split
  · exact ⟨rfl, fun a ha => (rd_setF_ne _ _ _ (by simpa using ha)).trans (hkeep _ a ha)⟩
  · exact ⟨rfl, hkeep _⟩

theorem checkNow_writeShadowCtrl (c : Fin 4) {v : Word} (s : State) (h : getF v F.FAB_SHADOW_CTRL_check_now = 1) :
    flg (writeShadowCtrl c v s) (Reg.FAB_SHADOW_CTRL c) F.FAB_SHADOW_CTRL_check_now =
      (decide (getF v F.FAB_SHADOW_CTRL_target ≤ 16 ∧ spareOf s c ≠ some (getF v F.FAB_SHADOW_CTRL_target)) ||
        flg s (Reg.FAB_SHADOW_CTRL c) F.FAB_SHADOW_CTRL_check_now) := by
  rw [writeShadowCtrl_eq, spareOf_shadowPrepare]
  split
  · next hon =>
    rw [flg_setF _ _ _ _ (by decide), decide_eq_true hon.2]
    rfl
  · next hoff =>
    rw [checkNow_shadowPrepare, decide_eq_false fun hon => hoff ⟨h, hon⟩, Bool.false_or]

/-! ### Sessions at a boundary (R70) -/

theorem sessionsAtBoundary_goesOn {c : Fin 4} {o : ShadowOutcome} {s : State} {x : ShadowSession}
    (h : (stepSession c s).fab.clusters[c].session = some x) : sessionsAtBoundary c o s = stepSession c s := by
  unfold sessionsAtBoundary
  dsimp only
  rw [h]
  rfl

theorem sessionsAtBoundary_due {c : Fin 4} {o : ShadowOutcome} {s x : State} {d : Fin 17 × ShadowOutcome}
    (hx : stepSession c s = x) (h : x.fab.clusters[c].session = none) (hd : x.fab.clusters[c].due = some d) :
    sessionsAtBoundary c o s = startSession c d.1 d.2 (setCluster c { x.fab.clusters[c] with due := none } x) := by
  unfold sessionsAtBoundary
  rw [hx]
  dsimp only
  rw [h, hd]
  rfl

theorem sessionsAtBoundary_idle {c : Fin 4} {o : ShadowOutcome} {s : State}
    (h : (stepSession c s).fab.clusters[c].session = none) (hd : (stepSession c s).fab.clusters[c].due = none)
    (hcheck : flg (stepSession c s) (Reg.FAB_SHADOW_CTRL c) F.FAB_SHADOW_CTRL_check_now = false) :
    sessionsAtBoundary c o s = stepSession c s := by
  unfold sessionsAtBoundary
  dsimp only
  rw [h, hd, hcheck]
  rfl

theorem stepSession_none {c : Fin 4} {s : State} (h : s.fab.clusters[c].session = none) : stepSession c s = s := by
  rw [stepSession, h]

theorem stepSession_phase {c : Fin 4} {s : State} {x : ShadowSession} (h : s.fab.clusters[c].session = some x)
    (ht : x.tile = tileWordOf s c x.idx) : stepSession c s = match x.phase with
      | 1 => afterSelfTest c x s
      | 2 => openCompare c x (match spareOf s c with | none => s | some sp => mirrorTile c x.idx sp s)
      | _ => s := by
  rw [stepSession, h]
  exact if_neg (fun hno => hno.1 ht)

theorem startSession_starts {c : Fin 4} {i : Fin 17} {o : ShadowOutcome} {s : State} {sp : Nat} (hsp : spareOf s c = some sp)
    (hen : flg s (Reg.FAB_SHADOW_CTRL c) F.FAB_SHADOW_CTRL_enable = true) (hch : changeConcerns s c = false) :
    startSession c i o s = setF (setF (setF (setCluster c { s.fab.clusters[c] with
      session := some { idx := i, out := o, tile := tileWordOf s c i } } s) (Reg.FAB_STATUS c) F.FAB_STATUS_shadow_busy 1)
      (Reg.FAB_SHADOW_STATUS c) F.FAB_SHADOW_STATUS_cur_idx i) (Reg.FAB_SHADOW_STATUS c) F.FAB_SHADOW_STATUS_phase 1 := by
  unfold startSession
  rw [if_neg (by simp [hsp, hen]), if_neg (by simp [hch])]

/-- The tile that a cluster retires stays so when the next spare is chosen: it is not FREE. -/
theorem tileState_chooseSpare_retired (c : Fin 4) {i : Nat} {s : State} (hi : i < 17) (h : tileState s c i = tileRetired) :
    tileState (chooseSpare c s) c i = tileRetired := by
  have hstatus : Reg.FAB_TILE c i ≠ Reg.FAB_STATUS c := by simp only [Reg.FAB_TILE, Reg.FAB_STATUS]; omega
  unfold chooseSpare
  split
  · next j hj =>
    have hfree : tileState s c j = tileFree := by simpa using List.find?_some hj
    have hne : i ≠ j := by
      rintro rfl
      rw [h] at hfree
      exact absurd hfree (by decide)
    rw [tileState_setF_ne _ _ _ hstatus, tileState_setF_ne _ _ _ (by simp only [Reg.FAB_TILE]; omega), h]
  · rw [tileState_logN _ _ _ _ c hi, tileState_setF_ne _ _ _ hstatus, tileState_setF_ne _ _ _ hstatus, h]

theorem retireTile_regs (c i cause slot : Nat) (s : State) : ∃ x, retireTile c i cause slot s = logN 0x1204 (tileCode c i)
    (cause * 0x10000 + slot) x ∧ x.log = s.log ∧ ∃ n, x.regs = (setF (setF (setF (setF (setF s (Reg.FAB_TILE c i) F.FAB_TILE_state
      tileRetired) (Reg.FAB_TILE c i) F.FAB_TILE_slot 0xFF) (Reg.FAB_TILE c i) F.FAB_TILE_role 0) (Reg.FAB_TILE c i)
      F.FAB_TILE_group 0xF) (Reg.FAB_STATUS c) F.FAB_STATUS_retired n).regs := ⟨_, rfl, rfl, _, rfl⟩

theorem fld_of_regs {s x : State} (h : x.regs = s.regs) (a : Nat) (G : Fld) : fld x a G = fld s a G := by
  simp only [fld, rd, h]

theorem tileState_retireTile_same (c : Fin 4) {i : Nat} (cause slot : Nat) (s : State) (hi : i < 17) :
    tileState (retireTile c i cause slot s) c i = tileRetired := by
  have hstatus : Reg.FAB_TILE c i ≠ Reg.FAB_STATUS c := by simp only [Reg.FAB_TILE, Reg.FAB_STATUS]; omega
  obtain ⟨x, heq, -, n, hregs⟩ := retireTile_regs c i cause slot s
  rw [heq, tileState_logN _ _ _ _ c hi, tileState, fld_of_regs hregs, fld_setF_ne _ _ _ _ hstatus,
    fld_setF_disj _ _ _ _ _ (by decide), fld_setF_disj _ _ _ _ _ (by decide), fld_setF_disj _ _ _ _ _ (by decide),
    fld_setF _ _ _ _ (by decide)]
  rfl

theorem clusters_retireTile (c i cause slot : Nat) (s : State) : (retireTile c i cause slot s).fab.clusters = s.fab.clusters := by
  unfold retireTile
  rw [logN_fab]
  rfl

theorem clusters_chooseSpare (c : Nat) (s : State) : (chooseSpare c s).fab.clusters = s.fab.clusters := by
  unfold chooseSpare
  split
  · rfl
  · rw [logN_fab]; rfl

theorem session_endSession (c : Fin 4) (s : State) : (endSession c s).fab.clusters[c].session = none := by
  simp [endSession]

theorem flg_logN_ctrl (c : Fin 4) (k q e : Nat) (s : State) (G : Fld) :
    flg (logN k q e s) (Reg.FAB_SHADOW_CTRL c) G = flg s (Reg.FAB_SHADOW_CTRL c) G :=
  congrArg (· != 0) (fld_logN s k q e G (by simp only [Reg.FAB_SHADOW_CTRL, Reg.CMD_STATUS]; omega)
    (by simp only [Reg.FAB_SHADOW_CTRL, Reg.CMD_EVT_LOST]; omega))

theorem flg_retireTile_ctrl (c : Fin 4) {i : Nat} (cause slot : Nat) (s : State) (G : Fld) (hi : i < 17) :
    flg (retireTile c i cause slot s) (Reg.FAB_SHADOW_CTRL c) G = flg s (Reg.FAB_SHADOW_CTRL c) G := by
  have htile : Reg.FAB_SHADOW_CTRL c ≠ Reg.FAB_TILE c i := by simp only [Reg.FAB_TILE, Reg.FAB_SHADOW_CTRL]; omega
  have hstatus : Reg.FAB_SHADOW_CTRL c ≠ Reg.FAB_STATUS c := by simp only [Reg.FAB_STATUS, Reg.FAB_SHADOW_CTRL]; omega
  obtain ⟨x, heq, -, n, hregs⟩ := retireTile_regs c i cause slot s
  rw [heq, flg_logN_ctrl, flg_of_regs hregs, flg_setF_ne _ _ _ _ hstatus, flg_setF_ne _ _ _ _ htile,
    flg_setF_ne _ _ _ _ htile, flg_setF_ne _ _ _ _ htile, flg_setF_ne _ _ _ _ htile]

theorem flg_chooseSpare_ctrl (c : Fin 4) (s : State) (G : Fld) :
    flg (chooseSpare c s) (Reg.FAB_SHADOW_CTRL c) G = flg s (Reg.FAB_SHADOW_CTRL c) G := by
  have hstatus : Reg.FAB_SHADOW_CTRL c ≠ Reg.FAB_STATUS c := by simp only [Reg.FAB_STATUS, Reg.FAB_SHADOW_CTRL]; omega
  unfold chooseSpare
  split
  · next j hj =>
    have hlt : j < 17 := List.mem_range.mp (List.mem_of_find?_eq_some hj)
    rw [flg_setF_ne _ _ _ _ hstatus, flg_setF_ne _ _ _ _ (by simp only [Reg.FAB_TILE, Reg.FAB_SHADOW_CTRL]; omega)]
  · rw [flg_logN_ctrl, flg_setF_ne _ _ _ _ hstatus, flg_setF_ne _ _ _ _ hstatus]

theorem flg_endSession_ctrl (c : Fin 4) (s : State) (G : Fld) :
    flg (endSession c s) (Reg.FAB_SHADOW_CTRL c) G = flg s (Reg.FAB_SHADOW_CTRL c) G := by
  unfold endSession
  rw [flg_setF_ne _ _ _ _ (by simp only [Reg.FAB_SHADOW_STATUS, Reg.FAB_SHADOW_CTRL]; omega),
    flg_setF_ne _ _ _ _ (by simp only [Reg.FAB_STATUS, Reg.FAB_SHADOW_CTRL]; omega)]
  rfl

/-- The self-test frame of a spare that fails (R70 step 1). -/
theorem afterSelfTest_fails {c : Fin 4} {x : ShadowSession} {s : State} {sp : Nat} (hsp : spareOf s c = some sp)
    (h : x.out.selfTestOk = false) : afterSelfTest c x s = chooseSpare c (retireTile c sp 2 0xFFFF (endSession c s)) := by
  unfold afterSelfTest
  rw [if_pos (by simp [h]), hsp]

/-! ### Mirroring leaves all but tile memory -/

theorem forEach_putTile {α : Type} (l : List α) (k : α → Nat) (v : α → Word) (s : State) :
    ∃ m, forEach l (fun e => putTile (k e) (v e)) s = { s with fab := { s.fab with tileMem := m } } := by
  induction l generalizing s with
  | nil => exact ⟨s.fab.tileMem, rfl⟩
  | cons e l ih => exact (ih (putTile (k e) (v e) s)).imp fun m hm => hm

theorem copyWords_onlyTileMem (src dst n : Nat) (s : State) :
    ∃ m, copyWords src dst n s = { s with fab := { s.fab with tileMem := m } } := by
  unfold copyWords
  obtain ⟨m, hm⟩ := forEach_putTile (s.fab.tileMem.filter fun e => dst ≤ e.1 && e.1 < dst + n) (fun e => e.1) (fun _ => 0) s
  obtain ⟨m', hm'⟩ := forEach_putTile (s.fab.tileMem.filter fun e => src ≤ e.1 && e.1 < src + n) (fun e => dst + (e.1 - src))
    (fun e => e.2) { s with fab := { s.fab with tileMem := m } }
  exact ⟨m', (congrArg _ hm).trans hm'⟩

theorem mirrorTile_onlyTileMem (c i sp : Nat) (s : State) :
    ∃ m, mirrorTile c i sp s = { s with fab := { s.fab with tileMem := m } } := by
  unfold mirrorTile
  obtain ⟨m, hm⟩ := copyWords_onlyTileMem (tileKey c i 0 0) (tileKey c sp 0 0) 4096 s
  dsimp only
  rw [hm]
  exact copyWords_onlyTileMem _ _ _ _

/-- A compare frame that differs (R70 step 3): the live tile's relocation is due. -/
theorem openCompare_differs (c : Fin 4) {x : ShadowSession} (s : State) (h : x.out.differ = true) :
    (openCompare c x s).fab.clusters[c].session = some { x with phase := 3 } ∧
      (openCompare c x s).fab.clusters[c].relocate = some x.idx ∧
      flg (openCompare c x s) (Reg.FAB_STATUS c) F.FAB_STATUS_pending = true := by
  unfold openCompare
  dsimp only
  rw [if_pos h]
  exact ⟨by simp, by simp, flg_setF _ _ _ _ (by decide)⟩

/-- A session that ends without mismatch counts (R70). -/
theorem sessionResult_agrees (c : Fin 4) (i : Fin 17) (s : State) :
    (sessionResult c i false s).fab.clusters[c].session = none ∧
      flg (sessionResult c i false s) (Reg.FAB_SHADOW_STATUS c) F.FAB_SHADOW_STATUS_last_mismatch = false ∧
      fld (sessionResult c i false s) (Reg.FAB_SHADOW_STATUS c) F.FAB_SHADOW_STATUS_last_idx = i ∧
      fld (sessionResult c i false s) (Reg.FAB_SHADOW_STATUS c) F.FAB_SHADOW_STATUS_passed =
        (fld s (Reg.FAB_SHADOW_STATUS c) F.FAB_SHADOW_STATUS_passed + 1) % 2 ^ F.FAB_SHADOW_STATUS_passed.w := by
  have hne : Reg.FAB_SHADOW_STATUS c ≠ Reg.FAB_STATUS c := by simp only [Reg.FAB_SHADOW_STATUS, Reg.FAB_STATUS]; omega
  refine ⟨session_endSession c _, ?_⟩
  have hword : ∃ x, sessionResult c i false s = setF (setF x (Reg.FAB_STATUS c) F.FAB_STATUS_shadow_busy 0)
      (Reg.FAB_SHADOW_STATUS c) F.FAB_SHADOW_STATUS_phase 0 ∧ x.regs = (setF (setF (setF s (Reg.FAB_SHADOW_STATUS c)
        F.FAB_SHADOW_STATUS_last_idx i) (Reg.FAB_SHADOW_STATUS c) F.FAB_SHADOW_STATUS_last_mismatch 0) (Reg.FAB_SHADOW_STATUS c)
        F.FAB_SHADOW_STATUS_passed (fld (setF (setF s (Reg.FAB_SHADOW_STATUS c) F.FAB_SHADOW_STATUS_last_idx i)
        (Reg.FAB_SHADOW_STATUS c) F.FAB_SHADOW_STATUS_last_mismatch 0) (Reg.FAB_SHADOW_STATUS c)
        F.FAB_SHADOW_STATUS_passed + 1)).regs := ⟨_, rfl, rfl⟩
  obtain ⟨x, hx, hregs⟩ := hword
  rw [hx]
  refine ⟨?_, ?_, ?_⟩
  · rw [flg_setF_disj _ _ _ _ _ (by decide), flg_setF_ne _ _ _ _ hne, flg_of_regs hregs, flg_setF_disj _ _ _ _ _ (by decide),
      flg_setF _ _ _ _ (by decide)]
    rfl
  · rw [fld_setF_disj _ _ _ _ _ (by decide), fld_setF_ne _ _ _ _ hne, fld_of_regs hregs, fld_setF_disj _ _ _ _ _ (by decide),
      fld_setF_disj _ _ _ _ _ (by decide), fld_setF _ _ _ _ (by decide)]
    exact Nat.mod_eq_of_lt (i.isLt.trans (by decide))
  · rw [fld_setF_disj _ _ _ _ _ (by decide), fld_setF_ne _ _ _ _ hne, fld_of_regs hregs, fld_setF _ _ _ _ (by decide),
      fld_setF_disj _ _ _ _ _ (by decide), fld_setF_disj _ _ _ _ _ (by decide)]

end Sys2Proof.Machine

namespace Sys2Proof.Proofs

open Sys2Proof Sys2Proof.Machine Sys2Proof.Safety Sys2Proof.Laws

theorem execShadowSlot_effect (c : Fin 4) (o : ShadowOutcome) (s : State) :
    ∃ x : ClusterState, execShadowSlot c o s = .next (setCluster c x s) ∧
      x.rotation = (s.fab.clusters[c].rotation + 1) % 16 ∧ x.session = s.fab.clusters[c].session ∧
      x.relocate = s.fab.clusters[c].relocate ∧
      x.due = (spareOf s c).map fun sp => (Fin.ofNat 17 (rotationIndex sp s.fab.clusters[c].rotation), o) := by
  refine ⟨_, rfl, rfl, rfl, rfl, ?_⟩
  dsimp only
  cases spareOf s c <;> rfl

/-- Settles O20. -/
theorem shadowCheck : Obligations.ShadowCheck := by
  refine ⟨fun c o s => ?_, fun m c v s hs => ?_, fun c o s sp hsp => ⟨fun d hno hdue hch hen => ?_, fun x hx ht =>
    ⟨fun hphase htest hdue hcheck => ?_, fun hphase hdiff => ?_, fun hphase hdiff => ?_⟩⟩⟩
  · obtain ⟨x, hrun, hrot, hses, hrel, hdue⟩ := execShadowSlot_effect c o s
    refine ⟨_, hrun, fun _ _ => rfl, fun p hp => ?_, fun d hd => ?_, ?_, ?_, ?_, fun sp hsp => ?_, fun hsp => ?_⟩
    · cases p
      case fab => exact absurd rfl hp
      all_goals rfl
    · exact Vector.getElem_set_ne c.isLt d.isLt (by omega)
    · simpa using hrot
    · simpa using hses
    · simpa using hrel
    · simp [hdue, hsp]
    · simp [hdue, hsp]
  · have hbus := regCommand_FAB_SHADOW_CTRL (putF v F.FAB_SHADOW_CTRL_check_now 1) hs
    have hen : getF (putF v F.FAB_SHADOW_CTRL_check_now 1) F.FAB_SHADOW_CTRL_enable = getF v F.FAB_SHADOW_CTRL_enable :=
      getF_putF_ne _ _ _ _ (by decide)
    have htarget : getF (putF v F.FAB_SHADOW_CTRL_check_now 1) F.FAB_SHADOW_CTRL_target = getF v F.FAB_SHADOW_CTRL_target :=
      getF_putF_ne _ _ _ _ (by decide)
    have hcheck : getF (putF v F.FAB_SHADOW_CTRL_check_now 1) F.FAB_SHADOW_CTRL_check_now = 1 := getF_putF _ _ _ (by decide)
    rw [← htarget, ← hen]
    refine ⟨_, congrArg Host.Outcome.next hbus, writeShadowCtrl_busReply c _ _, writeShadowCtrl_onlyRegs c _ (reply .done s),
      fun henabled => ?_, ?_⟩
    · exact writeShadowCtrl_enabled c (reply .done s) henabled
    · exact checkNow_writeShadowCtrl c (reply .done s) hcheck
  · have hstep : stepSession c s = s := stepSession_none hno
    have hdue' : sessionsAtBoundary c o s = startSession c d.1 d.2 (setCluster c { s.fab.clusters[c] with due := none } s) :=
      sessionsAtBoundary_due hstep hno hdue
    intro t
    have ht : t = _ := hdue'.trans (startSession_starts (sp := sp) hsp hen hch)
    rw [ht]
    refine ⟨⟨_, by simp; rfl, rfl, rfl, rfl⟩, by simp, ?_, ?_, ?_⟩
    · rw [flg_setF_ne _ _ _ _ (by simp only [Reg.FAB_SHADOW_STATUS, Reg.FAB_STATUS]; omega),
        flg_setF_ne _ _ _ _ (by simp only [Reg.FAB_SHADOW_STATUS, Reg.FAB_STATUS]; omega), flg_setF _ _ _ _ (by decide)]
      rfl
    · exact fld_setF _ _ _ _ (by decide)
    · rw [fld_setF_disj _ _ _ _ _ (by decide), fld_setF _ _ _ _ (by decide)]
      exact Nat.mod_eq_of_lt (d.1.isLt.trans (by decide))
  · have hlt := spareOf_lt hsp
    have hstep : stepSession c s = chooseSpare c (retireTile c sp 2 0xFFFF (endSession c s)) := by
      rw [stepSession_phase hx ht, hphase]
      exact afterSelfTest_fails hsp htest
    have hcl : (stepSession c s).fab.clusters = (endSession c s).fab.clusters := by
      rw [hstep, clusters_chooseSpare, clusters_retireTile]
    have hses : (stepSession c s).fab.clusters[c].session = none := by
      rw [hcl]; exact session_endSession c s
    have hnodue : (stepSession c s).fab.clusters[c].due = none := by
      rw [hcl]; simpa [endSession] using hdue
    have hnocheck : flg (stepSession c s) (Reg.FAB_SHADOW_CTRL c) F.FAB_SHADOW_CTRL_check_now = false := by
      rw [hstep, flg_chooseSpare_ctrl, flg_retireTile_ctrl c 2 _ _ _ hlt, flg_endSession_ctrl, hcheck]
    rw [sessionsAtBoundary_idle hses hnodue hnocheck, hses, hstep]
    exact ⟨tileState_chooseSpare_retired c hlt (tileState_retireTile_same c _ _ _ hlt), rfl⟩
  · obtain ⟨m, hm⟩ := mirrorTile_onlyTileMem c x.idx sp s
    have hstep : stepSession c s = openCompare c x { s with fab := { s.fab with tileMem := m } } := by
      rw [stepSession_phase hx ht, hphase, hsp]
      exact congrArg (openCompare c x) hm
    obtain ⟨hses, hrel, hpending⟩ := openCompare_differs c { s with fab := { s.fab with tileMem := m } } hdiff
    rw [sessionsAtBoundary_goesOn (x := { x with phase := 3 }) (hstep ▸ hses), hstep]
    exact ⟨hrel, hpending⟩
  · have hclose : closeCompare c s = sessionResult c x.idx false s := by
      rw [closeCompare, hx, ← hdiff]
      exact if_pos hphase
    rw [hclose]
    exact sessionResult_agrees c x.idx s

end Sys2Proof.Proofs
end


section
/-! PROOFS. Frame boundaries and the swap of a structure (R32, R36, R66): what a boundary leaves of the pending change, the
frame count and the image's identity. -/

namespace Sys2Proof.Machine

open Sys2Proof Sys2Proof.Safety Sys2Proof.Laws

/-! ### Footprints as facts about one state -/

theorem foot_self (f : Foot) : Foot.le f f := ⟨fun _ h => h, fun _ h => h, id⟩

/-- An operation's footprint read off its `Ev` lemma, from the state it is applied to. -/
theorem keeps_of_ev {f : Foot} {s t : State} (h : Ev f s t) {p : Part} (hp : f.parts.contains p = false) : p.same s t :=
  h.keeps.parts p (by simpa using hp)

theorem rd_of_ev {f : Foot} {s t : State} (h : Ev f s t) (hany : f.anyReg = false) {a : Nat} {b : Block}
    (ha : blockAt a = some b) (hb : f.blocks.contains b = false) : rd t a = rd s a :=
  h.keeps.regs hany a fun b' hb' => by
    rw [ha] at hb'
    cases hb'
    simpa using hb

theorem forEach_keeps {α : Type} {P : State → Prop} {l : List α} {g : α → State → State}
    (hg : ∀ a ∈ l, ∀ y, P y → P (g a y)) {x : State} (hx : P x) : P (forEach l g x) := by
  induction l generalizing x with
  | nil => exact hx
  | cons a l ih => exact ih (fun b hb => hg b (List.mem_cons_of_mem _ hb)) (hg a (List.mem_cons_self ..) x hx)

/-! ### The head of the fabric -/

/-- The pending structure change, the image's identity and the frame count. -/
structure FabHead where
  change : Option StructChange
  imageId : Word
  countLow : Word
  countHigh : Word

/-- The state has this head of the fabric. -/
structure HasHead (H : FabHead) (x : State) : Prop where
  change : x.fab.change = H.change
  imageId : rd x Reg.FAB_IMAGE_ID = H.imageId
  countLow : rd x Reg.FAB_FRAME_COUNT = H.countLow
  countHigh : rd x (Reg.FAB_FRAME_COUNT + 4) = H.countHigh

/-- The head of a state. -/
def headOf (x : State) : FabHead :=
  ⟨x.fab.change, rd x Reg.FAB_IMAGE_ID, rd x Reg.FAB_FRAME_COUNT, rd x (Reg.FAB_FRAME_COUNT + 4)⟩

theorem hasHead_headOf (x : State) : HasHead (headOf x) x := ⟨rfl, rfl, rfl, rfl⟩

theorem count_of_hasHead {H : FabHead} {x y : State} (hy : HasHead H y) (hlow : H.countLow = rd x Reg.FAB_FRAME_COUNT)
    (hhigh : H.countHigh = rd x (Reg.FAB_FRAME_COUNT + 4)) : rd64 y Reg.FAB_FRAME_COUNT = rd64 x Reg.FAB_FRAME_COUNT := by
  rw [rd64, rd64, hy.countLow, hy.countHigh, hlow, hhigh]

section HasHead

variable {H : FabHead} {x : State}

theorem hasHead_of_same {y : State} (hx : HasHead H x) (hchange : y.fab.change = x.fab.change)
    (hregs : ∀ a, a / 0x10000 = 0x4010 → 0x400 ≤ a % 0x10000 → rd y a = rd x a) : HasHead H y where
  change := hchange.trans hx.change
  imageId := (hregs _ rfl (by decide)).trans hx.imageId
  countLow := (hregs _ rfl (by decide)).trans hx.countLow
  countHigh := (hregs _ rfl (by decide)).trans hx.countHigh

theorem hasHead_of_ev {f : Foot} {y : State} (hx : HasHead H x) (h : Ev f x y)
    (hf : (!f.anyReg && !f.parts.contains .fab && !f.blocks.contains .fab) = true) : HasHead H y := by
  simp only [Bool.and_eq_true, Bool.not_eq_true'] at hf
  obtain ⟨⟨hany, hpart⟩, hblock⟩ := hf
  have hfab : y.fab = x.fab := keeps_of_ev h hpart
  refine hasHead_of_same hx (by rw [hfab]) fun a ha _ => rd_of_ev h hany (b := .fab) ?_ hblock
  rw [blockAt, ha]
  rfl

/-- A write below the head, or outside the fabric's first cluster. -/
theorem hasHead_wr {a : Nat} {v : Word} (hx : HasHead H x) (ha : a % 0x10000 < 0x400 ∨ a / 0x10000 ≠ 0x4010) :
    HasHead H (wr x a v) :=
  hasHead_of_same hx rfl fun b hb hlow => rd_wr_ne x v (by rintro rfl; omega)

theorem hasHead_setF {a : Nat} {G : Fld} {v : Nat} (hx : HasHead H x) (ha : a % 0x10000 < 0x400 ∨ a / 0x10000 ≠ 0x4010) :
    HasHead H (setF x a G v) := hasHead_wr hx ha

theorem hasHead_fab {v : FabState} (hx : HasHead H x) (hv : v.change = x.fab.change) : HasHead H { x with fab := v } :=
  hasHead_of_same hx hv fun _ _ _ => rfl

theorem hasHead_logEvent {c q : Nat} {e : Word} (hx : HasHead H x) : HasHead H (logEvent c q e x) :=
  hasHead_of_ev (f := ⟨[.log], [.cmd], false⟩) hx (ev_logEvent (by simp) (by simp) (Ev.refl _ x)) rfl

theorem hasHead_logN {c q e : Nat} (hx : HasHead H x) : HasHead H (logN c q e x) := hasHead_logEvent hx

theorem low_FAB_TILE {c i : Nat} (hi : i < 17) :
    Reg.FAB_TILE c i % 0x10000 < 0x400 ∨ Reg.FAB_TILE c i / 0x10000 ≠ 0x4010 := by
  left
  simp only [Reg.FAB_TILE]
  omega

theorem low_FAB_STATUS (c : Nat) : Reg.FAB_STATUS c % 0x10000 < 0x400 ∨ Reg.FAB_STATUS c / 0x10000 ≠ 0x4010 := by
  left
  simp only [Reg.FAB_STATUS]
  omega

theorem low_FAB_SHADOW_STATUS (c : Nat) :
    Reg.FAB_SHADOW_STATUS c % 0x10000 < 0x400 ∨ Reg.FAB_SHADOW_STATUS c / 0x10000 ≠ 0x4010 := by
  left
  simp only [Reg.FAB_SHADOW_STATUS]
  omega

theorem low_FAB_SHADOW_CTRL (c : Nat) :
    Reg.FAB_SHADOW_CTRL c % 0x10000 < 0x400 ∨ Reg.FAB_SHADOW_CTRL c / 0x10000 ≠ 0x4010 := by
  left
  simp only [Reg.FAB_SHADOW_CTRL]
  omega

/-! ### Sessions and relocations keep the head -/

theorem hasHead_setCluster {c : Fin 4} {v : ClusterState} (hx : HasHead H x) : HasHead H (setCluster c v x) :=
  hasHead_fab hx rfl

theorem hasHead_endSession {c : Fin 4} (hx : HasHead H x) : HasHead H (endSession c x) :=
  hasHead_setF (hasHead_setF (hasHead_setCluster hx) (low_FAB_STATUS c)) (low_FAB_SHADOW_STATUS c)

theorem hasHead_abandonSession {c : Fin 4} (hx : HasHead H x) : HasHead H (abandonSession c x) := by
  unfold abandonSession
  split
  · exact hasHead_setF (hasHead_endSession hx) (low_FAB_SHADOW_STATUS c)
  · exact hx

theorem hasHead_sessionResult {c : Fin 4} {i : Fin 17} {differ : Bool} (hx : HasHead H x) :
    HasHead H (sessionResult c i differ x) := by
  have hlow := low_FAB_SHADOW_STATUS c
  refine hasHead_endSession ?_
  cases differ
  · exact hasHead_setF (hasHead_setF (hasHead_setF hx hlow) hlow) hlow
  · exact hasHead_setF (hasHead_setF hx hlow) hlow

theorem hasHead_retireTile {c i cause slot : Nat} (hi : i < 17) (hx : HasHead H x) : HasHead H (retireTile c i cause slot x) := by
  have ht := low_FAB_TILE (c := c) hi
  refine hasHead_logN (hasHead_fab (x := setF _ _ _ _) (hasHead_setF ?_ (low_FAB_STATUS c)) rfl)
  exact hasHead_setF (hasHead_setF (hasHead_setF (hasHead_setF hx ht) ht) ht) ht

theorem hasHead_chooseSpare {c : Nat} (hx : HasHead H x) : HasHead H (chooseSpare c x) := by
  unfold chooseSpare
  split
  · next i hi => exact hasHead_setF (hasHead_setF hx (low_FAB_TILE (lowestFree_lt hi))) (low_FAB_STATUS c)
  · exact hasHead_logN (hasHead_setF (hasHead_setF hx (low_FAB_STATUS c)) (low_FAB_STATUS c))

theorem hasHead_applyRelocation {c : Fin 4} (hx : HasHead H x) : HasHead H (applyRelocation c x) := by
  unfold applyRelocation
  split
  · exact hx
  · next i _ =>
    dsimp only
    have hmark : HasHead H (setF { x with fab := { x.fab with clusters := x.fab.clusters.set c { x.fab.clusters[c] with
        relocate := none } } } (Reg.FAB_STATUS c) F.FAB_STATUS_pending (b2n (changeConcerns { x with fab := { x.fab with
        clusters := x.fab.clusters.set c { x.fab.clusters[c] with relocate := none } } } c))) :=
      hasHead_setF (hasHead_fab hx rfl) (low_FAB_STATUS c)
    split
    · exact hmark
    · next sp hsp =>
      exact hasHead_chooseSpare (hasHead_retireTile i.isLt (hasHead_wr hmark (low_FAB_TILE (Laws.spareOf_lt hsp))))

theorem hasHead_closeCompare {c : Fin 4} (hx : HasHead H x) : HasHead H (closeCompare c x) := by
  unfold closeCompare
  split
  · exact hx
  · split
    · exact hasHead_sessionResult hx
    · exact hx

theorem hasHead_openCompare {c : Fin 4} {v : ShadowSession} (hx : HasHead H x) : HasHead H (openCompare c v x) := by
  have hopen := hasHead_setF (G := F.FAB_SHADOW_STATUS_phase) (v := 3)
    (hasHead_setCluster (c := c) (v := { x.fab.clusters[c] with session := some { v with phase := 3 } }) hx)
    (low_FAB_SHADOW_STATUS c)
  unfold openCompare
  dsimp only
  split
  · exact hasHead_setF (hasHead_setCluster hopen) (low_FAB_STATUS c)
  · exact hopen

theorem hasHead_afterSelfTest {c : Fin 4} {v : ShadowSession} (hx : HasHead H x) : HasHead H (afterSelfTest c v x) := by
  unfold afterSelfTest
  split
  · split
    · exact hasHead_endSession hx
    · next sp hsp => exact hasHead_chooseSpare (hasHead_retireTile (Laws.spareOf_lt hsp) (hasHead_endSession hx))
  · split
    · exact hasHead_sessionResult hx
    · exact hasHead_setF (hasHead_setCluster hx) (low_FAB_SHADOW_STATUS c)

theorem hasHead_mirrorTile {c i sp : Nat} (hx : HasHead H x) : HasHead H (mirrorTile c i sp x) := by
  obtain ⟨m, hm⟩ := mirrorTile_onlyTileMem c i sp x
  rw [hm]
  exact hasHead_fab hx rfl

theorem hasHead_stepSession {c : Fin 4} (hx : HasHead H x) : HasHead H (stepSession c x) := by
  unfold stepSession
  split
  · exact hx
  · split
    · exact hasHead_abandonSession hx
    · split
      · exact hasHead_afterSelfTest hx
      · refine hasHead_openCompare ?_
        split
        · exact hx
        · exact hasHead_mirrorTile hx
      · exact hx

theorem hasHead_startSession {c : Fin 4} {i : Fin 17} {o : ShadowOutcome} (hx : HasHead H x) :
    HasHead H (startSession c i o x) := by
  have hlow := low_FAB_SHADOW_STATUS c
  unfold startSession
  split
  · exact hx
  · split
    · exact hasHead_setF hx hlow
    · exact hasHead_setF (hasHead_setF (hasHead_setF (hasHead_setCluster hx) (low_FAB_STATUS c)) hlow) hlow

theorem hasHead_sessionsAtBoundary {c : Fin 4} {o : ShadowOutcome} (hx : HasHead H x) :
    HasHead H (sessionsAtBoundary c o x) := by
  have hstep := hasHead_stepSession (c := c) hx
  unfold sessionsAtBoundary
  dsimp only
  split
  · exact hstep
  · split
    · exact hasHead_startSession (hasHead_setCluster hstep)
    · unfold whenS
      split
      · have hclear := hasHead_setF (G := F.FAB_SHADOW_CTRL_check_now) (v := 0) hstep (low_FAB_SHADOW_CTRL c)
        unfold startCheckNow
        dsimp only
        split
        · exact hasHead_startSession hclear
        · exact hclear
      · exact hstep

theorem hasHead_clockRequest {c : Fin 4} (hx : HasHead H x) : HasHead H (clockRequest c x) :=
  hasHead_setF hx (low_FAB_STATUS c)

/-! ### Settings keep the head: they set no register of the fabric (R439) -/

/-- What a settings record may touch. -/
def settingFoot : Foot :=
  ⟨[.tai, .log, .time, .adc, .filt, .loop, .gfm, .prot, .scan, .fio, .dpx, .cmd, .recd, .net, .upd],
    [.clk, .time, .adc, .filt, .ctrl, .gfm, .prot, .recd, .scan, .fio, .dpx, .net, .cmd, .upd, .pwm], false⟩

theorem reg_settingWindow {a : Nat} (h : settingWindows.contains (a / 0x10000) = true) : Foot.reg settingFoot a := by
  have hw : a / 0x10000 ∈ settingWindows := by simpa using h
  have hall : ∀ w ∈ settingWindows, ∃ b, blockAt (w * 0x10000) = some b ∧ b ∈ settingFoot.blocks := by decide
  obtain ⟨b, hb, hmem⟩ := hall _ hw
  refine .inr ⟨b, ?_, hmem⟩
  rw [← hb, blockAt, blockAt, Nat.mul_div_cancel _ (by omega)]

theorem writeBlockReg_setting {r : RegSpec} {a : Nat} {v : Word} {s : State}
    (h : settingWindows.contains (a / 0x10000) = true) (hx : Ev settingFoot s x) : Ev settingFoot s (writeBlockReg r a v x) := by
  unfold writeBlockReg
  split
  · next hw => exact writeClk_ev (le_of rfl) hw hx
  · next hw => exact writeTime_ev (le_of rfl) hw hx
  · next hw => exact writeAdc_ev (le_of rfl) hw hx
  · next hw => exact writeFilt_ev (le_of rfl) hw hx
  · next hw => exact writeCtrl_ev (le_of rfl) hw hx
  · next hw => exact writeGfm_ev (le_of rfl) hw hx
  · next hw => exact writeProt_ev (le_of rfl) hw hx
  · next hw => exact writeRec_ev (le_of rfl) hw hx
  · next hw => exact writeScan_ev (le_of rfl) hw hx
  · next hw => exact writeFio_ev (le_of rfl) hw hx
  · next hw => exact writeNet_ev (le_of rfl) hw hx
  · next hw => exact writePwm_ev (le_of rfl) hw hx
  · exact plainWrite_ev (le_of rfl) (reg_settingWindow h) hx

theorem settingWrite_setting {a : Nat} {v : Word} {s : State} (hx : Ev settingFoot s x) : Ev settingFoot s (settingWrite a v x) := by
  unfold settingWrite
  split
  · exact hx
  · next hno =>
    have hw : settingWindows.contains (a / 0x10000) = true := by
      by_contra hout
      exact hno (by rw [Bool.not_eq_true] at hout; rw [hout]; rfl)
    split
    · exact hx
    · dsimp only
      split
      · exact ev_wr (reg_settingWindow hw) hx
      · exact writeBlockReg_setting hw hx

theorem settingsApplied_setting {rs : List SettingsRecord} {s : State} (hx : Ev settingFoot s x) :
    Ev settingFoot s (settingsApplied rs x) := by
  refine ev_logEvent (by decide) (by decide) (ev_net (by decide) ?_)
  exact ev_forEach (fun r _ y hy => ev_forEach (fun p _ z hz => settingWrite_setting hz) hy) hx

theorem settingsAtBoundary_setting : Ev settingFoot x (settingsAtBoundary x) :=
  ev_forEach (fun _ _ _ hy => settingsApplied_setting hy) (ev_upd (by decide) (Ev.refl _ x))

theorem forwardedSettings_setting : Ev settingFoot x (forwardedSettings x) := by
  unfold forwardedSettings
  split
  · exact Ev.refl _ x
  · split
    · exact settingsApplied_setting (storeWrite_ev (le_of rfl) (ev_dpx (by decide) (Ev.refl _ x)))
    · exact Ev.refl _ x

/-! ### The boundary after the structure -/

theorem hasHead_afterStructure (hx : HasHead H x) :
    HasHead H (sendFrame (settingsAtBoundary (forwardedSettings (countsAtBoundary (clocksAtBoundary x))))) := by
  have hclocks := hasHead_of_ev hx (clocksAtBoundary_ev (foot_self _) (Ev.refl _ x)) rfl
  have hcounts := hasHead_of_ev hclocks (countsAtBoundary_ev (foot_self _) (Ev.refl _ _)) rfl
  have hforward := hasHead_of_ev hcounts forwardedSettings_setting rfl
  have hsettings := hasHead_of_ev hforward settingsAtBoundary_setting rfl
  exact hasHead_of_ev hsettings (sendFrame_ev (foot_self _) (Ev.refl _ _)) rfl

/-- The sessions and clock requests that end the structure's part of a boundary. -/
theorem hasHead_sessions {o : Fin 4 → ShadowOutcome} (hx : HasHead H x) : HasHead H (forEach (List.finRange 4) clockRequest
    (forEach (List.finRange 4) (fun (c : Fin 4) s => sessionsAtBoundary c (o c) s) x)) :=
  forEach_keeps (fun _ _ _ hy => hasHead_clockRequest hy)
    (forEach_keeps (fun _ _ _ hy => hasHead_sessionsAtBoundary hy) hx)

/-- The compare frames that close and the relocations that open it. -/
theorem hasHead_relocations (hx : HasHead H x) :
    HasHead H (forEach (List.finRange 4) applyRelocation (forEach (List.finRange 4) closeCompare x)) :=
  forEach_keeps (fun _ _ _ hy => hasHead_applyRelocation hy) (forEach_keeps (fun _ _ _ hy => hasHead_closeCompare hy) hx)

/-! ### The mirror frame opens (R66 step 2) -/

theorem forEach_putTile_pairs (l : List (Nat × Word)) (s : State) :
    ∃ m, forEach l (fun e => putTile e.1 e.2) s = { s with fab := { s.fab with tileMem := m } } :=
  forEach_putTile l (fun e => e.1) (fun e => e.2) s

theorem hasHead_transferState {img : PitchImage} (hx : HasHead H x) : HasHead H (transferState img x) := by
  unfold transferState
  dsimp only
  obtain ⟨m, hm⟩ := forEach_putTile_pairs (img.transfers.flatMap fun t =>
    match tileOfSlot x t.slot.toNat with
    | none => []
    | some (c, i) => (List.range t.count).map fun k =>
        (tileKey c i 0 ((t.newAddr + k) % 4096), tileWord x (tileKey c i 0 ((t.oldAddr + k) % 4096)))) x
  exact hm ▸ hasHead_fab hx rfl

theorem hasHead_change {ch : Option StructChange} (hx : HasHead H x) :
    HasHead { H with change := ch } { x with fab := { x.fab with change := ch } } :=
  ⟨rfl, hx.imageId, hx.countLow, hx.countHigh⟩

theorem hasHead_openMirror {ch : StructChange} (hx : HasHead H x) (hch : x.fab.change = some ch)
    (hphase : ch.phase = .contextsWritten) :
    HasHead { H with change := some { ch with phase := .mirror } } (openMirror x) := by
  unfold openMirror
  rw [hch]
  dsimp only
  rw [if_pos hphase]
  exact hasHead_transferState (hasHead_change hx)

theorem hasHead_commitMask {n : Fin 16} (hx : HasHead H x) : HasHead H (commitMask n x) :=
  hasHead_of_ev hx (commitMask_ev (foot_self _) (Ev.refl _ x)) rfl

theorem hasHead_mirrorOpens {ch : StructChange} (hx : HasHead H x) (hdue : mirrorDue x = true)
    (hch : x.fab.change = some ch) (hphase : ch.phase = .contextsWritten) :
    HasHead { H with change := some { ch with phase := .mirror } } (mirrorOpens x) := by
  unfold mirrorOpens
  rw [if_pos hdue]
  dsimp only
  split
  · exact hasHead_openMirror hx hch hphase
  · exact hasHead_commitMask (hasHead_openMirror hx hch hphase)

theorem mirrorDue_of_written {s : State} {ch : StructChange} (hch : s.fab.change = some ch) (hphase : ch.phase = .contextsWritten)
    (h : ∀ n t, ch.opSlot = some n → pairedSwap s n = some t → t ≤ nowNat s + 1000000) : mirrorDue s = true := by
  unfold mirrorDue
  rw [hch]
  dsimp only
  rw [hphase]
  split
  · rfl
  · next n hop =>
    split
    · rfl
    · next t hswap => simpa using h n t hop hswap

/-- Whether the mirror frame is due rests on the change, the exchanges of the scan cores, their swap points and the counter. -/
theorem mirrorDue_congr {s t : State} (hchange : t.fab.change = s.fab.change) (htai : t.tai = s.tai) (hscan : t.scan = s.scan)
    (hswap : ∀ k : Fin 2, rd64 t (Reg.SCAN_SWAP_TIME k) = rd64 s (Reg.SCAN_SWAP_TIME k)) : mirrorDue t = mirrorDue s := by
  have hpair : ∀ n, pairedSwap t n = pairedSwap s n := by
    intro n
    simp only [pairedSwap, hscan, hswap]
  unfold mirrorDue nowNat now
  rw [hchange, htai]
  simp only [hpair]

/-! ### The swap point (R66 step 3) -/

theorem hasHead_applyWords {windows : List Nat} {ws : List (Nat × Word)} (hx : HasHead H x)
    (hw : windows.contains 0x4010 = false) : HasHead H (applyWords windows ws x) := by
  refine forEach_keeps (fun p _ y hy => ?_) hx
  split
  · next hin =>
    refine hasHead_wr hy (.inr fun hp => ?_)
    rw [hp, hw] at hin
    exact absurd hin (by decide)
  · exact hy

theorem hasHead_applyStageWords {ws : List (Nat × Word)} (hx : HasHead H x) : HasHead H (applyStageWords ws x) := by
  refine forEach_keeps (fun p _ y hy => ?_) hx
  split
  · exact hasHead_wr hy (.inr (by omega))
  · exact hy

theorem hasHead_imageId {v : Word} (hx : HasHead H x) : HasHead { H with imageId := v } (wr x Reg.FAB_IMAGE_ID v) :=
  ⟨hx.change, rd_wr x _ v, (rd_wr_ne x v (by decide)).trans hx.countLow, (rd_wr_ne x v (by decide)).trans hx.countHigh⟩

theorem hasHead_permit {G : Fld} {v : Nat} (hx : HasHead H x) : HasHead H (setF x Reg.FAB_PERMIT G v) :=
  ⟨hx.change, (rd_setF_ne x _ _ (by decide)).trans hx.imageId, (rd_setF_ne x _ _ (by decide)).trans hx.countLow,
    (rd_setF_ne x _ _ (by decide)).trans hx.countHigh⟩

theorem hasHead_adoptFull {img : PitchImage} (hx : HasHead H x) : HasHead { H with imageId := img.buildId } (adoptFull img x) := by
  unfold adoptFull applySequencer
  refine hasHead_applyWords (hasHead_of_same (x := applyWords _ _ _) (hasHead_applyWords (hasHead_applyStageWords ?_) rfl) rfl
    fun _ _ _ => rfl) rfl
  exact hasHead_permit (hasHead_permit (hasHead_imageId (x := { x with fab := _ }) (hasHead_fab hx rfl)))

theorem hasHead_putTiles {α : Type} {l : List α} {k : α → Nat} {v : α → Word} (hx : HasHead H x) :
    HasHead H (forEach l (fun e => putTile (k e) (v e)) x) :=
  forEach_keeps (fun e _ y hy => show HasHead H (putTile (k e) (v e) y) from hasHead_fab hy rfl) hx

theorem hasHead_writeShadowContexts {img : PitchImage} {plan : List (TileRole × Nat)} (hx : HasHead H x) :
    HasHead H (writeShadowContexts img plan x) := by
  refine forEach_keeps (fun e _ y hy => ?_) hx
  split
  · exact hy
  · exact hasHead_putTiles (hasHead_putTiles hy)

theorem hasHead_releaseTiles {after : PitchImage} (hx : HasHead H x) : HasHead H (releaseTiles after x) := by
  refine forEach_keeps (fun p hp y hy => ?_) hx
  have hlt : p.2 < 17 := by
    simp only [List.mem_flatMap, List.mem_map, List.mem_range] at hp
    obtain ⟨c, -, i, hi, rfl⟩ := hp
    exact hi
  split
  · exact hasHead_wr hy (low_FAB_TILE hlt)
  · exact hy

theorem hasHead_regainSpare {c : Nat} (hx : HasHead H x) : HasHead H (regainSpare c x) := by
  unfold regainSpare
  split
  · next i _ hi =>
    exact hasHead_setF (hasHead_setF (hasHead_setF hx (low_FAB_TILE (lowestFree_lt hi))) (low_FAB_STATUS c)) (low_FAB_STATUS c)
  · exact hx

theorem hasHead_markPending {img : PitchImage} {b : Bool} (hx : HasHead H x) : HasHead H (markPending img b x) :=
  forEach_keeps (fun c _ _ hy => hasHead_setF hy (low_FAB_STATUS c)) hx

theorem hasHead_place {after : PitchImage} {plan : List (TileRole × Nat)} (hplan : ∀ p ∈ plan, p.2 < 17) (hx : HasHead H x) :
    HasHead H (forEach plan
      (fun p s => swapContext p.1.cluster p.2 (placeOn p.1.cluster p.2 p.1 (groupOf after p.1.slot) s)) x) :=
  forEach_keeps (fun p hp _ hy => hasHead_setF (hasHead_wr hy (low_FAB_TILE (hplan p hp))) (low_FAB_TILE (hplan p hp))) hx

theorem hasHead_runs {after : PitchImage} {v : Word} (hx : HasHead H x) : HasHead { H with imageId := v }
    (wr { x with fab := { x.fab with running := some after } } Reg.FAB_IMAGE_ID v) :=
  hasHead_imageId (x := { x with fab := _ }) (hasHead_fab hx rfl)

theorem hasHead_applyChange {ch : StructChange} (hx : HasHead H x) :
    HasHead { H with imageId := ch.image.buildId } (applyChange ch x) := by
  have hmoved := fun (after : PitchImage) (plan : List (TileRole × Nat)) =>
    hasHead_releaseTiles (after := after) (hasHead_transferState (img := ch.image)
      (hasHead_writeShadowContexts (img := ch.image) (plan := plan) hx))
  unfold applyChange
  dsimp only
  refine forEach_keeps (fun _ _ _ hy => hasHead_regainSpare hy) ?_
  split
  · refine hasHead_adoptFull (H := { H with imageId := ch.image.buildId }) (hasHead_runs ?_)
    exact hasHead_place (fun p hp => planTiles_lt (List.mem_filter.1 hp).1) (hmoved _ _)
  · refine hasHead_runs ?_
    exact hasHead_place (fun p hp => planTiles_lt (List.mem_filter.1 hp).1) (hmoved _ _)

theorem hasHead_swapStructure {ch : StructChange} (hx : HasHead H x) (hch : x.fab.change = some ch) (hphase : ch.phase = .mirror) :
    HasHead { H with change := none, imageId := ch.image.buildId } (swapStructure x) := by
  unfold swapStructure
  rw [hch]
  dsimp only
  rw [if_pos hphase]
  have hrel : HasHead H (forEach (List.finRange 4) applyRelocation x) := forEach_keeps (fun _ _ _ hy => hasHead_applyRelocation hy) hx
  exact hasHead_logEvent (hasHead_markPending (hasHead_change (hasHead_applyChange hrel)))

theorem hasHead_whenS {b : Bool} {g : State → State} (hg : ∀ y, HasHead H y → HasHead H (g y)) (hx : HasHead H x) :
    HasHead H (whenS b g x) := by
  cases b
  · exact hx
  · exact hg x hx

theorem hasHead_afterImage (hx : HasHead H x) : HasHead H (afterImage x) :=
  hasHead_whenS (fun y hy => hasHead_of_ev hy (fiDisarmAll_ev (foot_self _) (Ev.refl _ y)) rfl) hx

theorem hasHead_structureSwaps {ch : StructChange} (hx : HasHead H x) (hch : x.fab.change = some ch) (hphase : ch.phase = .mirror) :
    HasHead { H with change := none, imageId := ch.image.buildId } (structureSwaps x) := by
  unfold structureSwaps
  rw [hch]
  dsimp only
  rw [if_pos hphase]
  have hrec : Ev ⟨[.log, .cmd, .recd], [.recd, .cmd], false⟩ x (whenS ch.image.full recFullImage x) := by
    unfold whenS
    split
    · exact recFullImage_ev (foot_self _) (Ev.refl _ x)
    · exact Ev.refl _ x
  have hchange : (whenS ch.image.full recFullImage x).fab.change = some ch :=
    (congrArg FabState.change (keeps_of_ev hrec (p := .fab) rfl)).trans hch
  have hswap := hasHead_swapStructure (hasHead_of_ev hx hrec rfl) hchange hphase
  have hafter := hasHead_whenS (b := ch.image.full) (fun _ hy => hasHead_afterImage hy) hswap
  split
  · exact hafter
  · refine hasHead_of_ev ?_ (trialMask_ev (foot_self _) (Ev.refl _ _)) rfl
    refine forEach_keeps (fun k _ y hy => ?_) hafter
    split
    · exact hy
    · split
      · exact hasHead_of_ev hy (reachSwap_ev (foot_self _) (Ev.refl _ y)) rfl
      · exact hy

theorem hasHead_swapAtBoundary {ch : StructChange} (hx : HasHead H x) (hch : x.fab.change = some ch) (hphase : ch.phase = .mirror) :
    HasHead { H with change := none, imageId := ch.image.buildId } (swapAtBoundary x) := by
  have hswap := hasHead_structureSwaps hx hch hphase
  unfold swapAtBoundary
  rw [hch]
  dsimp only
  rw [if_pos hphase]
  split
  · exact hasHead_of_ev hswap (chainsAfterImage_ev (foot_self _) (Ev.refl _ _)) rfl
  · exact hswap

theorem swapAtBoundary_idle {s : State} (h : ∀ ch, s.fab.change = some ch → ch.phase ≠ .mirror) : swapAtBoundary s = s := by
  unfold swapAtBoundary
  split
  · rfl
  · next ch hch => rw [if_neg (h ch hch)]

theorem mirrorOpens_idle {s : State} (h : s.fab.change = none) : mirrorOpens s = s := by
  have hdue : mirrorDue s = false := by rw [mirrorDue, h]
  rw [mirrorOpens, hdue]
  rfl

end HasHead

/-! ### The boundary -/

/-- The state with which a boundary turns to the structure: the counter there, the frame counted. -/
def boundaryStart (s : State) : State :=
  wr64 (reachBoundary s) Reg.FAB_FRAME_COUNT (rd64 (reachBoundary s) Reg.FAB_FRAME_COUNT + 1)

theorem frameBoundary_eq (o : Fin 4 → ShadowOutcome) (s : State) : frameBoundary o s = sendFrame (settingsAtBoundary
    (forwardedSettings (countsAtBoundary (clocksAtBoundary (structureAtBoundary o (boundaryStart s)))))) := rfl

theorem reachBoundary_keeps (s : State) : Ev ⟨[.tai, .ticks, .time], [], false⟩ s (reachBoundary s) :=
  reachBoundary_ev (foot_self _) (Ev.refl _ s)

theorem reachBoundary_change (s : State) : (reachBoundary s).fab.change = s.fab.change :=
  congrArg FabState.change (keeps_of_ev (reachBoundary_keeps s) (p := .fab) rfl)

theorem boundaryStart_change (s : State) : (boundaryStart s).fab.change = s.fab.change := by
  rw [boundaryStart, wr64_fab, reachBoundary_change]

theorem rd_reachBoundary (s : State) (a : Nat) : rd (reachBoundary s) a = rd s a :=
  (reachBoundary_keeps s).keeps.regs rfl a (fun _ _ => List.not_mem_nil)

theorem pairedSwap_reachBoundary (s : State) (n : Fin 16) : pairedSwap (reachBoundary s) n = pairedSwap s n := by
  have hscan : (reachBoundary s).scan = s.scan := keeps_of_ev (reachBoundary_keeps s) (p := .scan) rfl
  simp only [pairedSwap, hscan, rd64, rd_reachBoundary]

theorem boundaryStart_count (s : State) : rd64 (boundaryStart s) Reg.FAB_FRAME_COUNT = rd64 s Reg.FAB_FRAME_COUNT + 1 := by
  rw [boundaryStart, rd64_wr64, rd64, rd64, rd_reachBoundary, rd_reachBoundary]

theorem boundaryStart_tai (s : State) : (boundaryStart s).tai = (reachBoundary s).tai := by rw [boundaryStart, wr64_tai]

theorem boundaryStart_scan (s : State) : (boundaryStart s).scan = (reachBoundary s).scan := by rw [boundaryStart, wr64_scan]

theorem rd_boundaryStart (s : State) {a : Nat} (h : blockAt a ≠ some .fab) : rd (boundaryStart s) a = rd (reachBoundary s) a := by
  rw [boundaryStart, rd_wr64_ne _ _ (by rintro rfl; exact h rfl) (by rintro rfl; exact h rfl)]

/-- The head when the swap point of a boundary is looked at. -/
theorem hasHead_opened (s : State) : HasHead (headOf (boundaryStart s))
    (forEach (List.finRange 4) applyRelocation (forEach (List.finRange 4) closeCompare (boundaryStart s))) :=
  hasHead_relocations (hasHead_headOf _)

end Sys2Proof.Machine

namespace Sys2Proof.Proofs

open Sys2Proof Sys2Proof.Machine Sys2Proof.Safety Sys2Proof.Laws

/-- A change whose mirror frame is open, of an operation whose scan exchange has its swap point at 10 ns of TAI. -/
def lateSwap : State :=
  let x := wr (setF State.reset (Reg.SCAN_XCHG 0) F.SCAN_XCHG_state 1) (Reg.SCAN_SWAP_TIME 0) 10
  { x with
    fab := { x.fab with change := some { image := {}, opSlot := some 0, phase := .mirror } }
    scan := { x.scan with cores := x.scan.cores.set 0 { x.scan.cores[(0 : Fin 2)] with
      exchange := some ⟨{ buildId := 0, periods := Vector.replicate 8 0, symbols := [] }, 0, some 0⟩ } } }

/-- Does a frame boundary leave the counter of this state past the first tick of its next millisecond, 0? -/
theorem lateSwap_counter : (match exec (.frameBoundary {} {} {} {}) lateSwap with
    | .next t => decide (5 ≤ t.tai.toNat)
    | _ => false) = true := by decide +kernel

/-- Refutes O21: at a boundary that is the swap point of a structure change, a scan exchange of the same operation whose swap
point lies after the boundary moves the counter on to it, past the first tick of the millisecond. -/
theorem not_frameBoundary : ¬ Obligations.FrameBoundary := by
  intro h
  obtain ⟨t, hrun, -, hlt, -⟩ := h.1 {} {} {} {} lateSwap (by decide +kernel)
  have hms : nextMs lateSwap = 0 := by decide +kernel
  have hlate := lateSwap_counter
  rw [hrun] at hlate
  have hge : 5 ≤ t.tai.toNat := by simpa using hlate
  rw [hms] at hlt
  omega

theorem execGroupSwapped_open {s : State} {ch : StructChange} (hch : s.fab.change = some ch) (hphase : ch.phase = .mirror) :
    exec .groupSwapped s = .next (plainBoundary s) := by
  change execGroupSwapped s = _
  rw [execGroupSwapped, hch]
  exact if_pos hphase

/-- Settles O22: of what a boundary does, only its swap point and the opening of its mirror frame touch the pending change,
the image's identity and the frame count. -/
theorem structureChange : Obligations.StructureChange := by
  refine ⟨fun s ch hch hphase hpair => ?_, fun s ch hch hphase => ?_⟩
  · have hdue : mirrorDue (reachBoundary s) = true := mirrorDue_of_written ((reachBoundary_change s).trans hch) hphase
      fun n t hn hswap => hpair n t hn (by rw [← hswap, pairedSwap_reachBoundary])
    have hopened := hasHead_opened s
    have hrel : Ev ⟨[.log, .fab], [.cmd, .fab], false⟩ (boundaryStart s)
        (forEach (List.finRange 4) applyRelocation (forEach (List.finRange 4) closeCompare (boundaryStart s))) :=
      ev_forEach (fun _ _ _ hy => applyRelocation_ev (foot_self _) hy)
        (ev_forEach (fun _ _ _ hy => closeCompare_ev (le_of rfl) hy) (Ev.refl _ _))
    have htai := keeps_of_ev hrel (p := .tai) rfl
    have hscan := keeps_of_ev hrel (p := .scan) rfl
    have hidle := swapAtBoundary_idle (s := forEach (List.finRange 4) applyRelocation
      (forEach (List.finRange 4) closeCompare (boundaryStart s))) fun ch' hch' => by
        have hsome : some ch' = some ch := hch'.symm.trans (hopened.change.trans ((boundaryStart_change s).trans hch))
        cases hsome
        simp [hphase]
    have hdue' : mirrorDue (forEach (List.finRange 4) applyRelocation
        (forEach (List.finRange 4) closeCompare (boundaryStart s))) = true := by
      rw [mirrorDue_congr (s := reachBoundary s) (hopened.change.trans
        ((boundaryStart_change s).trans (reachBoundary_change s).symm)) (htai.trans (boundaryStart_tai s))
        (hscan.trans (boundaryStart_scan s)) ?_, hdue]
      intro k
      have hrd : ∀ a, blockAt a = some .scan → rd (forEach (List.finRange 4) applyRelocation
          (forEach (List.finRange 4) closeCompare (boundaryStart s))) a = rd (reachBoundary s) a := fun a ha =>
        (rd_of_ev hrel rfl ha rfl).trans (rd_boundaryStart s (by simp [ha]))
      have hblock : ∀ k : Fin 2, blockAt (Reg.SCAN_SWAP_TIME k) = some .scan ∧ blockAt (Reg.SCAN_SWAP_TIME k + 4) = some .scan := by
        decide
      rw [rd64, rd64, hrd _ (hblock k).1, hrd _ (hblock k).2]
    have hmirror := hasHead_mirrorOpens hopened hdue' (hopened.change.trans ((boundaryStart_change s).trans hch)) hphase
    have hend := hasHead_afterStructure (hasHead_sessions (o := fun _ => {}) hmirror)
    refine ⟨plainBoundary s, if_pos hdue, ?_, ?_⟩
    all_goals rw [plainBoundary, frameBoundary_eq, structureAtBoundary, hidle]
    · exact hend.change
    · exact (count_of_hasHead (x := boundaryStart s) hend rfl rfl).trans (boundaryStart_count s)
  · have hopened := hasHead_opened s
    have hswap := hasHead_swapAtBoundary hopened (hopened.change.trans ((boundaryStart_change s).trans hch)) hphase
    have hend := hasHead_afterStructure (hasHead_sessions (o := fun _ => {}) hswap)
    refine ⟨plainBoundary s, ?_, ?_, ?_, ?_⟩
    · exact execGroupSwapped_open hch hphase
    all_goals rw [plainBoundary, frameBoundary_eq, structureAtBoundary, mirrorOpens_idle hswap.change]
    · exact hend.change
    · exact hend.imageId
    · exact (count_of_hasHead (x := boundaryStart s) hend rfl rfl).trans (boundaryStart_count s)

end Sys2Proof.Proofs
end


section
/-! PROOFS. Supply events and resets (R79 to R89, R97, R468). -/

namespace Sys2Proof.Machine

open Sys2Proof Sys2Proof.Safety Sys2Proof.Laws

/-- An event for which the logger has room leaves every register as it is. -/
theorem rd_logN_room {s x : State} (c q e : Nat) (hlog : x.log = s.log) (h : Room 1 s) (a : Nat) :
    rd (logN c q e x) a = rd x a := rd_logEvent_room x c q _ (by rw [hlog]; exact h) a

theorem fbit_logN_room {s x : State} (c q e : Nat) (hlog : x.log = s.log) (h : Room 1 s) (a : Nat) (G : Fld) (i : Nat) :
    fbit (logN c q e x) a G i = fbit x a G i := by
  simp only [fbit, fld, rd_logN_room c q e hlog h]

theorem rd64_of_rd {s t : State} {a : Nat} (h : rd t a = rd s a) (h' : rd t (a + 4) = rd s (a + 4)) : rd64 t a = rd64 s a := by
  rw [rd64, rd64, h, h']

/-- A local instant is reached at or after it. -/
theorem localNs_reachLocal (t : Nat) (s : State) : t ≤ localNs (reachLocal t s) := by
  simp only [localNs, reachLocal, reachTick]
  omega

/-! ### VIN (R79) -/

/-- PWR_STATUS when VIN is first seen low. -/
def vinSeenLow (cv : BitVec 16) (s : State) : State :=
  setF (setF (setF s Reg.PWR_STATUS F.PWR_STATUS_vin cv.toNat) Reg.PWR_STATUS F.PWR_STATUS_vin_low 1) Reg.PWR_STATUS
    F.PWR_STATUS_vin_low_seen 1

theorem vinLow_shown {s : State} (cv : BitVec 16) (b : Bool) (h : flg s Reg.PWR_STATUS F.PWR_STATUS_vin_low = b) :
    flg (setF s Reg.PWR_STATUS F.PWR_STATUS_vin cv.toNat) Reg.PWR_STATUS F.PWR_STATUS_vin_low = b :=
  (flg_setF_disj _ _ _ _ _ (by decide)).trans h

/-! ### Sensor rails (R81) -/

@[simp] theorem railOf_setRail (n : Fin 2) (x : RailState) (s : State) : railOf (setRail n x s) n = x := by
  unfold railOf setRail
  split <;> rfl

@[simp] theorem railOf_setRail_other (n : Fin 2) (x : RailState) (s : State) :
    railOf (setRail n x s) (1 - n) = railOf s (1 - n) := by
  fin_cases n <;> rfl

@[simp] theorem rd_setRail (n : Fin 2) (x : RailState) (s : State) (a : Nat) : rd (setRail n x s) a = rd s a := by
  unfold setRail
  split <;> rfl

@[simp] theorem fbit_setRail (n : Fin 2) (x : RailState) (s : State) (a : Nat) (G : Fld) (i : Nat) :
    fbit (setRail n x s) a G i = fbit s a G i := by
  simp only [fbit, fld, rd_setRail]

@[simp] theorem log_setRail (n : Fin 2) (x : RailState) (s : State) : (setRail n x s).log = s.log := by
  unfold setRail
  split <;> rfl

@[simp] theorem railOf_setFbit (s : State) (a : Nat) (G : Fld) (i : Nat) (b : Bool) (n : Fin 2) :
    railOf (setFbit s a G i b) n = railOf s n := rfl

theorem railOf_of_pwr {s t : State} (h : t.pwr = s.pwr) (n : Fin 2) : railOf t n = railOf s n := by rw [railOf, h]; rfl

theorem fbit_setFbit_disj (s : State) (a : Nat) (G H : Fld) (i j : Nat) (b : Bool) (h : H.lo + H.w ≤ G.lo ∨ G.lo + G.w ≤ H.lo) :
    fbit (setFbit s a G i b) a H j = fbit s a H j := by
  rw [fbit, setFbit, fld_setF_disj _ _ _ _ _ h]
  rfl

section RailOff

variable (n : Fin 2) (s : State)

theorem railOf_railOff : railOf (railOff n s) n = { railOf s n with isOn := false, waiting := false, offAt := localNs s } := by
  simp [railOff]

theorem railOf_railOff_other : railOf (railOff n s) (1 - n) = railOf s (1 - n) := by simp [railOff]

theorem good_railOff : fbit (railOff n s) Reg.PWR_SENSOR F.PWR_SENSOR_good n = false := by
  rw [railOff, fbit_setFbit _ _ _ _ _ _ (by decide) (by simp only; omega), if_pos rfl]

theorem latched_railOff (i : Nat) :
    fbit (railOff n s) Reg.PWR_SENSOR F.PWR_SENSOR_latched i = fbit s Reg.PWR_SENSOR F.PWR_SENSOR_latched i := by
  rw [railOff, fbit_setFbit_disj _ _ _ _ _ _ _ (by decide), fbit_setRail]

theorem railOff_onlyRegs : OnlyRegs [Reg.PWR_SENSOR] s (railOff n s) := by
  intro a ha
  rw [railOff, rd_setFbit_ne _ _ _ _ (by simpa using ha), rd_setRail]

theorem log_railOff : (railOff n s).log = s.log := by simp [railOff]

end RailOff

/-- What a rail's turning off by a sensor fault leaves. -/
def railFaulted (n : Fin 2) (k : Nat) (s : State) : State :=
  whenS (decide (4 ≤ k)) (fun s => setFbit s Reg.PWR_SENSOR F.PWR_SENSOR_latched n true)
    (setRail n { railOf (railOff n s) n with retries := k, waiting := decide (k < 4) } (railOff n s))

/-- The failures in a row with one more now (R81). -/
def failuresInRow (n : Fin 2) (s : State) : Nat :=
  if localNs s ≤ (railOf s n).onAt + 30000000 then (railOf s n).retries + 1 else 1

theorem execSensorFault_on {five : Bool} {n : Fin 2} {s : State} (hn : n = if five then 1 else 0)
    (h : (railOf s n).isOn = true) : exec (.sensorFault five) s =
      .next (logN 0x1305 n (failuresInRow n s) (railFaulted n (failuresInRow n s) s)) := by
  subst hn
  change execSensorFault five s = _
  unfold execSensorFault
  dsimp only
  rw [if_neg (by simp [h])]
  rfl

section RailFaulted

variable (n : Fin 2) (k : Nat) (s : State)

theorem railOf_railFaulted : railOf (railFaulted n k s) n =
    { railOf s n with isOn := false, offAt := localNs s, retries := k, waiting := decide (k < 4) } := by
  unfold railFaulted whenS
  split <;> simp [railOf_railOff]

theorem railOf_railFaulted_other : railOf (railFaulted n k s) (1 - n) = railOf s (1 - n) := by
  unfold railFaulted whenS
  split <;> simp [railOf_railOff_other]

theorem good_railFaulted : fbit (railFaulted n k s) Reg.PWR_SENSOR F.PWR_SENSOR_good n = false := by
  unfold railFaulted whenS
  split
  · rw [fbit_setFbit_disj _ _ _ _ _ _ _ (by decide), fbit_setRail, good_railOff]
  · rw [fbit_setRail, good_railOff]

theorem latched_railFaulted : fbit (railFaulted n k s) Reg.PWR_SENSOR F.PWR_SENSOR_latched n =
    (decide (4 ≤ k) || fbit s Reg.PWR_SENSOR F.PWR_SENSOR_latched n) := by
  unfold railFaulted whenS
  split
  · next h => rw [fbit_setFbit _ _ _ _ _ _ (by decide) (by simp only; omega), if_pos rfl, h, Bool.true_or]
  · next h => rw [fbit_setRail, latched_railOff, eq_false_of_ne_true h, Bool.false_or]

theorem railFaulted_onlyRegs : OnlyRegs [Reg.PWR_SENSOR] s (railFaulted n k s) := by
  intro a ha
  have hne : a ≠ Reg.PWR_SENSOR := by simpa using ha
  unfold railFaulted whenS
  split
  · rw [rd_setFbit_ne _ _ _ _ hne, rd_setRail, railOff_onlyRegs n s a ha]
  · rw [rd_setRail, railOff_onlyRegs n s a ha]

theorem log_railFaulted : (railFaulted n k s).log = s.log := by
  unfold railFaulted whenS
  split <;> simp [log_railOff]

end RailFaulted

/-! ### A retry (R81) -/

theorem railOf_reachLocal (t : Nat) (s : State) (n : Fin 2) : railOf (reachLocal t s) n = railOf s n := rfl

theorem rd_reachLocal (t : Nat) (s : State) (a : Nat) : rd (reachLocal t s) a = rd s a := rfl

theorem log_reachLocal (t : Nat) (s : State) : (reachLocal t s).log = s.log := rfl

theorem execSensorRetry_waiting {five : Bool} {s : State} (hwait : (railOf s (if five then 1 else 0)).waiting = true)
    (hen : railEnabled s (if five then 1 else 0) = true) : exec (.sensorRetry five) s =
      .next (railOn (if five then 1 else 0) (railOf s (if five then 1 else 0)).retries
        (reachLocal ((railOf s (if five then 1 else 0)).offAt + 1000000000) s)) := by
  change execSensorRetry five s = _
  exact if_pos ⟨hwait, hen⟩

section RailOn

variable (n : Fin 2) (k : Nat) (s : State)

theorem railOf_railOn : railOf (railOn n k s) n =
    { isOn := true, retries := k, onAt := localNs s, offAt := (railOf s n).offAt } := by
  simp [railOn]

theorem railOf_railOn_other : railOf (railOn n k s) (1 - n) = railOf s (1 - n) := by simp [railOn]

theorem good_railOn : fbit (railOn n k s) Reg.PWR_SENSOR F.PWR_SENSOR_good n = true := by
  rw [railOn, fbit_setFbit _ _ _ _ _ _ (by decide) (by simp only; omega), if_pos rfl]

theorem ticks_railOn : (railOn n k s).ticks = s.ticks := by
  unfold railOn setRail
  split <;> rfl

theorem railOn_onlyRegs : OnlyRegs [Reg.PWR_SENSOR] s (railOn n k s) := by
  intro a ha
  rw [railOn, rd_setFbit_ne _ _ _ _ (by simpa using ha), rd_setRail]

theorem log_railOn : (railOn n k s).log = s.log := by simp [railOn]

end RailOn

end Sys2Proof.Machine

namespace Sys2Proof.Proofs

open Sys2Proof Sys2Proof.Machine Sys2Proof.Safety Sys2Proof.Laws

/-- Settles O23, by what each supply event does to its registers and to its rail. -/
theorem supply : Obligations.Supply := by
  refine ⟨fun cv s hlow hroom => ?_, fun cv s hlow => ?_, fun cv s => ?_, fun s hlock => ?_, fun s hlock => ?_,
    fun five n s hn hon hroom => ?_, fun five s hoff => ?_, fun five n s hn hwait hen => ?_⟩
  · have hrun : exec (.vinLow cv) s = .next (logN 0x1301 0 cv.toNat (vinSeenLow cv s)) :=
      if_neg (by rw [vinLow_shown cv false hlow]; decide)
    refine ⟨_, hrun, fun a ha => ?_, ?_, logged_logN _ _ _ rfl hroom⟩
    · have hne : a ≠ Reg.PWR_STATUS := by simpa using ha
      rw [rd_logN_room (s := s) (x := vinSeenLow cv s) _ _ _ rfl hroom, vinSeenLow, rd_setF_ne _ _ _ hne, rd_setF_ne _ _ _ hne, rd_setF_ne _ _ _ hne]
    · rw [rd_logN_room (s := s) (x := vinSeenLow cv s) _ _ _ rfl hroom, vinSeenLow, rd_setF, rd_setF, rd_setF]
  · exact ⟨_, if_pos (vinLow_shown cv true hlow), fun a ha => rd_setF_ne _ _ _ (by simpa using ha), rfl, rd_setF _ _ _ _⟩
  · refine ⟨_, rfl, fun a ha => ?_, rfl, ?_⟩
    · rw [rd_setF_ne _ _ _ (by simpa using ha), rd_setF_ne _ _ _ (by simpa using ha)]
    · rw [rd_setF, rd_setF]
  · refine ⟨_, if_pos hlock, fun a ha => ?_, ?_, ?_, rfl, rfl, rfl⟩
    · simp only [List.mem_cons, List.not_mem_nil, or_false, not_or] at ha
      rw [rd_setF_ne _ _ _ ha.2.2, rd_wr64_ne _ _ ha.1 ha.2.1]
      rfl
    · rw [rd64_of_rd (rd_setF_ne _ _ _ (by decide)) (rd_setF_ne _ _ _ (by decide)), rd64_wr64]
      rfl
    · rw [rd_setF, rd_wr64_ne _ _ (by decide) (by decide)]
      rfl
  · exact if_neg (by simp [hlock])
  · intro k
    have hk : k = failuresInRow n s := rfl
    have hlog := log_railFaulted n k s
    have hpwr : (logN 0x1305 n k (railFaulted n k s)).pwr = (railFaulted n k s).pwr := logN_pwr ..
    refine ⟨_, hk ▸ execSensorFault_on hn hon, ?_, ?_, ?_, ?_, ?_, ?_, fun a ha => ?_, logged_logN _ _ _ hlog hroom⟩
    · rw [railOf_of_pwr hpwr, railOf_railFaulted]
    · rw [railOf_of_pwr hpwr, railOf_railFaulted]
    · rw [railOf_of_pwr hpwr, railOf_railFaulted]
      simp only [decide_eq_true_eq]
      omega
    · rw [railOf_of_pwr hpwr, railOf_railFaulted_other]
    · rw [fbit_logN_room _ _ _ hlog hroom, good_railFaulted]
    · rw [fbit_logN_room _ _ _ hlog hroom, latched_railFaulted]
    · rw [rd_logN_room _ _ _ hlog hroom, railFaulted_onlyRegs n k s a ha]
  · exact if_pos (by simp [hoff])
  · subst hn
    refine ⟨_, execSensorRetry_waiting hwait hen, ?_, ?_, ?_, good_railOn .., ?_, fun a ha => ?_, ?_⟩
    · rw [railOf_railOn]
    · rw [railOf_railOn]
    · rw [railOf_railOn_other, railOf_reachLocal]
    · rw [localNs, ticks_railOn]
      exact localNs_reachLocal _ _
    · rw [railOn_onlyRegs _ _ _ a ha, rd_reachLocal]
    · rw [log_railOn, log_reachLocal]

end Sys2Proof.Proofs
end


section
/-! PROOFS. Resets and the loss of the supply: what a reset keeps, what VIN supplies (R80, R86 to R89, R468). -/

namespace Sys2Proof.Machine

open Sys2Proof Sys2Proof.Safety Sys2Proof.Laws

/-! ### Store and log -/

/-- A filter by key keeps what it passes and leaves the rest unlisted. -/
theorem sget_filter {α : Type} (d : Nat → α) (l : List (Nat × α)) (p : Nat → Bool) (k : Nat) :
    sget d (l.filter fun e => p e.1) k = if p k then sget d l k else d k := by
  induction l with
  | nil => simp [sget]
  | cons e l ih =>
    by_cases he : e.1 = k
    · subst he
      by_cases hp : p e.1 = true
      · simp [hp, sget]
      · have hskip : (e :: l).filter (fun e => p e.1) = l.filter fun e => p e.1 := List.filter_cons_of_neg hp
        rw [hskip, ih, if_neg hp, if_neg hp]
    · by_cases hp : p e.1 = true
      · simp only [List.filter_cons, hp, if_true, sget, if_neg he, ih]
      · simp only [List.filter_cons, hp, sget, if_neg he]
        exact ih

theorem queue_drainOne (s : State) : (drainOne s).log.queue = s.log.queue.tail := by
  cases hq : s.log.queue with
  | nil => rw [drainOne, hq, hq]; rfl
  | cons e q => rw [drainOne, hq]; rfl

theorem queue_drainN (n : Nat) (s : State) : (drainN n s).log.queue = s.log.queue.drop n := by
  induction n generalizing s with
  | zero => rfl
  | succ n ih => rw [drainN, ih, queue_drainOne, List.drop_tail]

theorem queue_drainAll (s : State) : (drainAll s).log.queue = [] := by
  rw [drainAll, queue_drainN, List.drop_length]

/-! ### The die in reset -/

theorem rd_heldState (s : State) (a : Nat) : rd (heldState s) a = if keptReg a then rd s a else resetWord a :=
  sget_filter resetWord s.regs keptReg a

/-- What a reset goes on from: the end of COMMISSIONING, and every event in the log. -/
def quieted (s : State) : State := drainAll (leaveCommissioning s)

theorem quieted_ev (s : State) : Ev ⟨[.log, .net, .upd], [.prot, .net, .cmd, .upd], false⟩ s (quieted s) :=
  ev_drainAll (by simp) (by simp) (leaveCommissioning_ev (foot_self _) (Ev.refl _ s))

section Hold

variable (w : Bool) (s : State)

theorem hold_phase : (hold w s).pwr.phase = .held := rfl

theorem hold_askWarm : (hold w s).pwr.askWarm = w := rfl

theorem hold_faultLow : (hold w s).pwr.faultLow = true := rfl

theorem hold_owner : (hold w s).loop.owner = false := rfl

theorem hold_queue : (hold w s).log.queue = [] := queue_drainAll _

theorem hold_mem : (hold w s).mem = s.mem := keeps_of_ev (quieted_ev s) (p := .mem) rfl

theorem hold_fab : (hold w s).fab.repair = s.fab.repair ∧ (hold w s).fab.tileMem = s.fab.tileMem :=
  have h : (quieted s).fab = s.fab := keeps_of_ev (quieted_ev s) (p := .fab) rfl
  ⟨(congrArg FabState.repair h :), (congrArg FabState.tileMem h :)⟩

theorem rd_hold {a : Nat} (h : a ≠ Reg.PWR_STATUS) :
    rd (hold w s) a = if keptReg a then rd (quieted s) a else resetWord a :=
  (rd_setF_ne (stopLink (heldState (quieted s))) _ _ h).trans (rd_heldState (quieted s) a)

theorem rd_hold_lost {a : Nat} (h : keptReg a = false) : rd (hold w s) a = resetWord a := by
  rw [rd_hold w s (by rintro rfl; exact absurd h (by decide)), h]
  rfl

theorem rd_hold_cause : rd (hold w s) Reg.SYS_RESET_CAUSE = rd s Reg.SYS_RESET_CAUSE := by
  rw [rd_hold w s (by decide), if_pos (by decide)]
  exact rd_of_ev (quieted_ev s) rfl (b := .sys) rfl rfl

end Hold

/-! ### The resets of Table 3.4 -/

/-- What a reset does before its cause is set: the retained words committed, OWNER low and DYING sent. -/
def resetLeadIn (bit : Option Nat) (s : State) : State :=
  let f := takeFree (whenS (bit != some 5) commitBoth s)
  sayDying (Config.freeValue f.1).toNat f.2

theorem resetPart_some (b : Nat) (warm : Bool) (s : State) :
    resetPart (some b) warm s = hold warm (setCause b (resetLeadIn (some b) s)) := rfl

theorem resetLeadIn_ev (bit : Option Nat) (s : State) :
    Ev ⟨[.scan, .fresh, .loop, .dpx], [.dpx, .pwm], false⟩ s (resetLeadIn bit s) := by
  refine sayDying_ev (le_of rfl) (ev_fresh (by simp) ?_)
  unfold whenS
  split
  · exact commitBoth_ev (le_of rfl) (Ev.refl _ s)
  · exact Ev.refl _ s

theorem rd_setCause (b : Nat) (s : State) : rd (setCause b s) Reg.SYS_RESET_CAUSE = rd s Reg.SYS_RESET_CAUSE ||| (1#32 <<< b) :=
  rd_wr s _ _

theorem resetPart_resetBy (b : Nat) (warm : Bool) (s : State) : ResetBy b warm s (resetPart (some b) warm s) := by
  have hlead := resetLeadIn_ev (some b) s
  rw [resetPart_some]
  refine ⟨hold_phase .., hold_askWarm .., hold_faultLow .., ?_, hold_queue .., fun a ha => rd_hold_lost _ _ ha, ?_, ?_, ?_⟩
  · rw [rd_hold_cause, rd_setCause, rd_of_ev hlead rfl (b := .sys) rfl rfl]
  · exact (hold_mem ..).trans (keeps_of_ev hlead (p := .mem) rfl)
  · exact (hold_fab ..).1.trans (congrArg FabState.repair (keeps_of_ev hlead (p := .fab) rfl))
  · exact (hold_fab ..).2.trans (congrArg FabState.tileMem (keeps_of_ev hlead (p := .fab) rfl))

theorem resetBy_of_reply {b : Nat} {w : Bool} {r : BusReply} {s t : State} (h : ResetBy b w (reply r s) t) : ResetBy b w s t :=
  ⟨h.phase, h.kind, h.faultN, h.cause, h.events, h.regs, h.kept⟩

/-! ### The supply fails (R80) -/

/-- The steps of the power-fail sequence before the part is held. -/
def failLeadIn (s : State) : State :=
  let t := localNs s
  let s := reachLocal (t + 1000) s
  let s := railsOff (blockStages 6 15 { s with loop := { s.loop with powerFail := true } })
  let f := takeFree (driveOwner false s)
  let s := sayDying (Config.freeValue f.1).toNat (reachLocal (t + 5000) f.2)
  let s := enterSafe 2 (reachLocal (t + 10000) s)
  let s := reachLocal (t + 40000) s
  let s := drainAll (logN 0x1302 0 (sinceStart s) (thermalSave (commitBoth s)))
  reachLocal (t + 50000) s

/-- The same where a reset holds the part. -/
def heldFailLeadIn (s : State) : State :=
  let t := localNs s
  let s := railsOff (reachLocal (t + 1000) s)
  let s := enterSafe 2 (reachLocal (t + 10000) s)
  let s := drainAll (logN 0x1302 0 (sinceStart s) (reachLocal (t + 40000) s))
  reachLocal (t + 50000) s

/-- What the sequence may touch before the part is held: nothing of SYS. -/
def failFoot : Foot :=
  ⟨[.tai, .ticks, .loop, .log, .recd, .pwr, .fresh, .dpx, .fio, .prot, .scan], [.pwm, .cmd, .pwr, .dpx, .fio], false⟩

theorem failLeadIn_ev (s : State) : Ev failFoot s (failLeadIn s) := by
  refine ev_reachLocal (by decide) (by decide) (ev_drainAll (by decide) (by decide) (ev_logN (by decide) (by decide) ?_))
  refine thermalSave_ev (le_of rfl) (commitBoth_ev (le_of rfl) (ev_reachLocal (by decide) (by decide) ?_))
  refine enterSafe_ev (le_of rfl) (ev_reachLocal (by decide) (by decide) (sayDying_ev (le_of rfl) ?_))
  refine ev_reachLocal (by decide) (by decide) (ev_fresh (by decide) (driveOwner_ev (le_of rfl) (railsOff_ev (le_of rfl) ?_)))
  exact blockStages_ev (le_of rfl) (ev_loop (by decide) (ev_reachLocal (by decide) (by decide) (Ev.refl _ s)))

theorem heldFailLeadIn_ev (s : State) : Ev failFoot s (heldFailLeadIn s) := by
  refine ev_reachLocal (by decide) (by decide) (ev_drainAll (by decide) (by decide) (ev_logN (by decide) (by decide) ?_))
  refine ev_reachLocal (by decide) (by decide) (enterSafe_ev (le_of rfl) (ev_reachLocal (by decide) (by decide) ?_))
  exact railsOff_ev (le_of rfl) (ev_reachLocal (by decide) (by decide) (Ev.refl _ s))

theorem powerFailSequence_eq (s : State) : powerFailSequence s = hold false (setCause 1 (failLeadIn s)) := rfl

theorem heldPowerFail_eq (s : State) : heldPowerFail s = hold false (setCause 1 (heldFailLeadIn s)) := rfl

/-- In any phase but that of an unusable unit a power fail ends in the part held, from a state with the causes as they were. -/
theorem powerFails_held {s : State} (h : s.pwr.phase ≠ .unusable) :
    ∃ x, powerFails s = hold false (setCause 1 x) ∧ rd x Reg.SYS_RESET_CAUSE = rd s Reg.SYS_RESET_CAUSE := by
  have hfail := rd_of_ev (failLeadIn_ev s) rfl (a := Reg.SYS_RESET_CAUSE) (b := .sys) rfl rfl
  have hheld := rd_of_ev (heldFailLeadIn_ev s) rfl (a := Reg.SYS_RESET_CAUSE) (b := .sys) rfl rfl
  unfold powerFails
  cases hphase : s.pwr.phase with
  | running => exact ⟨_, powerFailSequence_eq s, hfail⟩
  | kindling => exact ⟨_, powerFailSequence_eq s, hfail⟩
  | held => exact ⟨_, heldPowerFail_eq s, hheld⟩
  | asleep => exact ⟨s, rfl, rfl⟩
  | unusable => exact absurd hphase h

/-! ### VIN is lost (R468) -/

theorem rd_vinLost (s : State) {a : Nat} (h : calReg a = false) (h' : ∀ f < 8, a ≠ Reg.PROT_FDR_COUNT f) :
    rd (vinLost s) a = resetWord a := by
  have hkey : (calReg a || (List.range 8).any fun f => a == Reg.PROT_FDR_COUNT f) = false := by
    rw [h, Bool.false_or, List.any_eq_false]
    exact fun f hf => by simpa using h' f (List.mem_range.1 hf)
  refine (sget_filter resetWord s.regs (fun a => calReg a || (List.range 8).any fun f => a == Reg.PROT_FDR_COUNT f) a).trans ?_
  rw [hkey]
  rfl

end Sys2Proof.Machine

namespace Sys2Proof.Proofs

open Sys2Proof Sys2Proof.Machine Sys2Proof.Safety Sys2Proof.Laws

/-- Settles O24: every reset of Table 3.4 is `resetPart` with its cause, and holds the part. -/
theorem resets : Obligations.Resets := by
  refine ⟨fun ns taken s hrun hlow => ?_, fun s hrun => ?_, fun s hrun => ?_, fun m v s hs hkey => ?_,
    fun ns taken s hlow => ?_, fun m v s hs hkey => ?_⟩
  · exact ⟨_, if_pos ⟨hrun, hlow⟩, resetPart_resetBy 2 true s⟩
  · exact ⟨_, if_pos hrun, resetPart_resetBy 4 true s⟩
  · have hreset := resetPart_resetBy 5 false s
    refine ⟨_, if_pos hrun, ?_, rfl⟩
    exact ⟨hreset.phase, hreset.kind, hreset.faultN, hreset.cause, hreset.events, hreset.regs, hreset.kept⟩
  · have hgo : getF (putF v F.SYS_RESET_CTRL_go 1) F.SYS_RESET_CTRL_go = 1 := getF_putF _ _ _ (by decide)
    have hkey' : getF (putF v F.SYS_RESET_CTRL_go 1) F.SYS_RESET_CTRL_key = 0x0A5F :=
      (getF_putF_ne _ _ _ _ (by decide)).trans hkey
    have hcold : getF (putF v F.SYS_RESET_CTRL_go 1) F.SYS_RESET_CTRL_cold = getF v F.SYS_RESET_CTRL_cold :=
      getF_putF_ne _ _ _ _ (by decide)
    refine ⟨_, congrArg Host.Outcome.next ((regCommand_SYS_RESET_CTRL _ hs).trans (if_pos ⟨hkey', hgo⟩)), ?_⟩
    rw [hcold]
    exact resetBy_of_reply (resetPart_resetBy 3 _ (reply .done s))
  · refine if_neg ?_
    rintro ⟨-, h | ⟨h, htaken⟩⟩
    · omega
    · rcases hlow with hlow | ⟨-, hno⟩
      · omega
      · exact absurd (hno.symm.trans htaken) (by decide)
  · refine congrArg Host.Outcome.next ((regCommand_SYS_RESET_CTRL _ hs).trans (if_neg fun h => hkey ?_))
    exact (getF_putF_ne _ _ _ _ (by decide)).symm.trans h.1

/-- Settles O25: a power fail ends in `hold`, and VIN_LOSS takes what VIN supplies whatever came before. -/
theorem supplyLoss : Obligations.SupplyLoss := by
  refine ⟨fun s hphase => ?_, fun s hphase => ?_, fun s => ?_⟩
  · obtain ⟨x, hx, hcause⟩ := powerFails_held hphase
    refine ⟨_, congrArg Host.Outcome.next hx, hold_phase .., hold_askWarm .., hold_faultLow .., ?_, hold_owner .., hold_queue ..⟩
    rw [rd_hold_cause, rd_setCause, hcause]
  · refine congrArg Host.Outcome.next ?_
    rw [powerFails, hphase]
  · have hrun : ∃ x, exec .vinLoss s = .next (if s.pwr.phase = .unusable ∨ localNs s < s.upd.burnUntil
        then setPwr { (vinLost x).pwr with phase := .unusable, fatal := true } (vinLost x) else vinLost x) := by
      refine ⟨if failsFirst s then powerFails s else s, congrArg Host.Outcome.next ?_⟩
      by_cases hdead : s.pwr.phase = .unusable ∨ localNs s < s.upd.burnUntil
      · rw [if_pos hdead]
        exact if_pos (by simpa using hdead)
      · rw [if_neg hdead]
        exact if_neg (by simpa using hdead)
    obtain ⟨x, hx⟩ := hrun
    refine ⟨_, hx, ?_⟩
    by_cases hdead : s.pwr.phase = .unusable ∨ localNs s < s.upd.burnUntil
    · rw [if_pos hdead, if_pos hdead]
      exact ⟨rfl, rfl, rfl, fun a h h' => rd_vinLost x h h', rfl⟩
    · rw [if_neg hdead, if_neg hdead]
      exact ⟨rfl, rfl, rfl, fun a h h' => rd_vinLost x h h', rfl⟩

end Sys2Proof.Proofs
end


section
/-! PROOFS. Measurements of time and the servo (R112, R113, R116 to R118, R121 to R126). -/

namespace Sys2Proof.Machine

open Sys2Proof Sys2Proof.Safety Sys2Proof.Laws

theorem fld_of_rd {s t : State} {a : Nat} (h : rd t a = rd s a) (G : Fld) : fld t a G = fld s a G := by rw [fld, fld, h]

theorem flg_of_rd {s t : State} {a : Nat} (h : rd t a = rd s a) (G : Fld) : flg t a G = flg s a G := by
  rw [flg, flg, fld_of_rd h]

theorem fbit_of_rd {s t : State} {a : Nat} (h : rd t a = rd s a) (G : Fld) (i : Nat) : fbit t a G i = fbit s a G i := by
  rw [fbit, fbit, fld_of_rd h]

/-! ### What the servo leaves of the sources -/

/-- The sources, their last measurements, the path delays, the source in use and the stamp of PPS_IN are as before. -/
structure SourcesKept (s x : State) : Prop where
  valid : x.time.valid = s.time.valid
  marks : x.time.marks = s.time.marks
  delay : x.time.pathDelay = s.time.pathDelay
  source : timeSource x = timeSource s
  stampLow : rd x Reg.TIME_PPS_IN_STAMP = rd s Reg.TIME_PPS_IN_STAMP
  stampHigh : rd x (Reg.TIME_PPS_IN_STAMP + 4) = rd s (Reg.TIME_PPS_IN_STAMP + 4)

theorem sourcesKept_refl (s : State) : SourcesKept s s := ⟨rfl, rfl, rfl, rfl, rfl, rfl⟩

section SourcesKept

variable {s x : State}

theorem sourcesKept_of_ev {f : Foot} {y : State} (hx : SourcesKept s x) (h : Ev f x y)
    (hf : (!f.anyReg && !f.parts.contains .time && !f.blocks.contains .time) = true) : SourcesKept s y := by
  simp only [Bool.and_eq_true, Bool.not_eq_true'] at hf
  obtain ⟨⟨hany, hpart⟩, hblock⟩ := hf
  have htime : y.time = x.time := keeps_of_ev h hpart
  have hrd : ∀ a, blockAt a = some .time → rd y a = rd x a := fun a ha => rd_of_ev h hany ha hblock
  exact ⟨(by rw [htime]; exact hx.valid), (by rw [htime]; exact hx.marks), (by rw [htime]; exact hx.delay),
    (fld_of_rd (hrd _ rfl) _).trans hx.source, (hrd _ rfl).trans hx.stampLow, (hrd _ rfl).trans hx.stampHigh⟩

theorem sourcesKept_time {v : TimeState} (hx : SourcesKept s x) (hvalid : v.valid = x.time.valid) (hmarks : v.marks = x.time.marks)
    (hdelay : v.pathDelay = x.time.pathDelay) : SourcesKept s { x with time := v } :=
  ⟨hvalid.trans hx.valid, hmarks.trans hx.marks, hdelay.trans hx.delay, hx.source, hx.stampLow, hx.stampHigh⟩

theorem sourcesKept_setServo {v : ServoState} (hx : SourcesKept s x) : SourcesKept s (setServo v x) :=
  sourcesKept_time hx rfl rfl rfl

theorem sourcesKept_wr {a : Nat} {v : Word} (hx : SourcesKept s x)
    (ha : a ∉ [Reg.TIME_STATE, Reg.TIME_PPS_IN_STAMP, Reg.TIME_PPS_IN_STAMP + 4]) : SourcesKept s (wr x a v) := by
  simp only [List.mem_cons, List.not_mem_nil, or_false, not_or] at ha
  obtain ⟨hstate, hlow, hhigh⟩ := ha
  exact ⟨hx.valid, hx.marks, hx.delay, (fld_of_rd (rd_wr_ne x v (Ne.symm hstate)) _).trans hx.source,
    (rd_wr_ne x v (Ne.symm hlow)).trans hx.stampLow, (rd_wr_ne x v (Ne.symm hhigh)).trans hx.stampHigh⟩

theorem sourcesKept_state {G : Fld} {v : Nat} (hx : SourcesKept s x) (hG : 4 + 3 ≤ G.lo ∨ G.lo + G.w ≤ 4) :
    SourcesKept s (setF x Reg.TIME_STATE G v) :=
  ⟨hx.valid, hx.marks, hx.delay, (fld_setF_disj x _ _ _ _ hG).trans hx.source, (rd_setF_ne x _ _ (by decide)).trans hx.stampLow,
    (rd_setF_ne x _ _ (by decide)).trans hx.stampHigh⟩

theorem sourcesKept_logEvent {c q : Nat} {e : Word} (hx : SourcesKept s x) : SourcesKept s (logEvent c q e x) :=
  sourcesKept_of_ev (f := ⟨[.log], [.cmd], false⟩) hx (ev_logEvent (by simp) (by simp) (Ev.refl _ x)) rfl

theorem sourcesKept_recNote {kind : Fin 3} {th : Int} (hx : SourcesKept s x) : SourcesKept s (recNote kind th x) :=
  sourcesKept_of_ev hx (recNote_ev (foot_self _) (Ev.refl _ x)) rfl

theorem sourcesKept_toTimeState {n : Nat} (hx : SourcesKept s x) : SourcesKept s (toTimeState n x) := by
  refine sourcesKept_state (sourcesKept_state ?_ (by decide)) (by decide)
  split
  · exact hx
  · exact sourcesKept_setServo hx

theorem sourcesKept_setY {y : Int} (hx : SourcesKept s x) : SourcesKept s (setY y x) :=
  sourcesKept_wr (sourcesKept_setServo hx) (by decide)

theorem sourcesKept_showOffset {th : Int} (hx : SourcesKept s x) : SourcesKept s (showOffset th x) :=
  sourcesKept_wr hx (by decide)

end SourcesKept

/-! ### The servo's procedure (R122) -/

/-- The integral part after a measurement. -/
def servoI (th : Int) (ts : Nat) (s : State) : Int :=
  if 4000 < th.natAbs then s.time.servo.i
  else s.time.servo.i + fld s Reg.TIME_SERVO_CFG F.TIME_SERVO_CFG_ki * th * 4000 / ts

/-- The correction after a measurement. -/
def servoY (th : Int) (ts : Nat) (s : State) : Int :=
  if 4000 < th.natAbs then clampI (slewLimit s) (s.time.servo.i + th * 16384000 / ts)
  else clampI (slewLimit s) (servoI th ts s + fld s Reg.TIME_SERVO_CFG F.TIME_SERVO_CFG_kp * th * 64000 / ts)

/-- SLEWING with `n` offsets in the window in a row: LOCKED from the fourth. -/
def countIn (n : Nat) (th : Int) (s : State) : State :=
  let s := setServo { s.time.servo with inWin := n } s
  if 4 ≤ n then logEvent 0x2101 (timeSource s) (satI32 (quot th 4)) (toTimeState timeLocked s) else s

/-- LOCKED with `n` offsets out of the window in a row: SLEWING from the second. -/
def countOut (n : Nat) (th : Int) (s : State) : State :=
  let s := setServo { s.time.servo with outWin := n } s
  if 2 ≤ n then logEvent 0x2102 timeSlewing (satI32 (quot th 4)) (toTimeState timeSlewing s) else s

/-- The consecutive counts of Table 4.7 after a measurement. -/
def servoCounts (th : Int) (s : State) : State :=
  if timeState s = timeSlewing then countIn (if th.natAbs ≤ 100 then s.time.servo.inWin + 1 else 0) th s
  else if timeState s = timeLocked then countOut (if 200 < th.natAbs then s.time.servo.outWin + 1 else 0) th s
  else s

/-- The servo with a measurement taken. -/
def servoTaken (th : Int) (ts : Nat) (s : State) : State :=
  showOffset th (setY (servoY th ts s) (setServo { s.time.servo with
    i := servoI th ts s, pred := th * 16384000 - servoY th ts s * ts, fresh := false, cand := none, candCount := 0 } s))

theorem servoAccept_eq (th : Int) (ts : Nat) (s : State) :
    servoAccept th ts s = servoCounts th (servoTaken th ts (recNote 0 th s)) := by
  unfold servoAccept servoTaken servoY servoI
  simp only [decide_eq_true_eq]
  rfl

theorem sourcesKept_countIn {s x : State} {n : Nat} {th : Int} (hx : SourcesKept s x) : SourcesKept s (countIn n th x) := by
  unfold countIn
  dsimp only
  split
  · exact sourcesKept_logEvent (sourcesKept_toTimeState (sourcesKept_setServo hx))
  · exact sourcesKept_setServo hx

theorem sourcesKept_countOut {s x : State} {n : Nat} {th : Int} (hx : SourcesKept s x) : SourcesKept s (countOut n th x) := by
  unfold countOut
  dsimp only
  split
  · exact sourcesKept_logEvent (sourcesKept_toTimeState (sourcesKept_setServo hx))
  · exact sourcesKept_setServo hx

theorem sourcesKept_servoCounts {s x : State} {th : Int} (hx : SourcesKept s x) : SourcesKept s (servoCounts th x) := by
  unfold servoCounts
  split
  · exact sourcesKept_countIn hx
  · split
    · exact sourcesKept_countOut hx
    · exact hx

theorem sourcesKept_servoAccept {s x : State} {th : Int} {ts : Nat} (hx : SourcesKept s x) :
    SourcesKept s (servoAccept th ts x) := by
  rw [servoAccept_eq]
  exact sourcesKept_servoCounts (sourcesKept_showOffset (sourcesKept_setY (sourcesKept_setServo (sourcesKept_recNote hx))))

/-- The servo's figures: all but the consecutive counts, candidates and history. -/
structure Figures (i y pred : Int) (x : State) : Prop where
  i : x.time.servo.i = i
  y : x.time.servo.y = y
  pred : x.time.servo.pred = pred
  fresh : x.time.servo.fresh = false

theorem figures_setServo {i y pred : Int} {x : State} {v : ServoState} (h : Figures i y pred x) (hi : v.i = x.time.servo.i)
    (hy : v.y = x.time.servo.y) (hp : v.pred = x.time.servo.pred) (hf : v.fresh = x.time.servo.fresh) :
    Figures i y pred (setServo v x) :=
  ⟨hi.trans h.i, hy.trans h.y, hp.trans h.pred, hf.trans h.fresh⟩

theorem figures_toTimeState {i y pred : Int} {x : State} {n : Nat} (h : Figures i y pred x) : Figures i y pred (toTimeState n x) := by
  unfold toTimeState
  dsimp only
  split
  · exact ⟨h.i, h.y, h.pred, h.fresh⟩
  · exact ⟨h.i, h.y, h.pred, h.fresh⟩

theorem figures_logEvent {i y pred : Int} {x : State} {c q : Nat} {e : Word} (h : Figures i y pred x) :
    Figures i y pred (logEvent c q e x) := by
  have htime : (logEvent c q e x).time = x.time := logEvent_time ..
  exact ⟨htime ▸ h.i, htime ▸ h.y, htime ▸ h.pred, htime ▸ h.fresh⟩

theorem figures_countIn {i y pred : Int} {x : State} {n : Nat} {th : Int} (h : Figures i y pred x) :
    Figures i y pred (countIn n th x) := by
  have hcount : Figures i y pred (setServo { x.time.servo with inWin := n } x) := figures_setServo h rfl rfl rfl rfl
  unfold countIn
  dsimp only
  split
  · exact figures_logEvent (figures_toTimeState hcount)
  · exact hcount

theorem figures_countOut {i y pred : Int} {x : State} {n : Nat} {th : Int} (h : Figures i y pred x) :
    Figures i y pred (countOut n th x) := by
  have hcount : Figures i y pred (setServo { x.time.servo with outWin := n } x) := figures_setServo h rfl rfl rfl rfl
  unfold countOut
  dsimp only
  split
  · exact figures_logEvent (figures_toTimeState hcount)
  · exact hcount

theorem figures_servoCounts {i y pred : Int} {x : State} {th : Int} (h : Figures i y pred x) :
    Figures i y pred (servoCounts th x) := by
  unfold servoCounts
  split
  · exact figures_countIn h
  · split
    · exact figures_countOut h
    · exact h

theorem figures_servoTaken (th : Int) (ts : Nat) (x : State) :
    Figures (servoI th ts x) (servoY th ts x) (th * 16384000 - servoY th ts x * ts) (servoTaken th ts x) := ⟨rfl, rfl, rfl, rfl⟩

theorem slewLimit_congr {s t : State} (hctrl : rd t Reg.CTRL_STATUS = rd s Reg.CTRL_STATUS)
    (hcfg : rd t Reg.TIME_SERVO_CFG = rd s Reg.TIME_SERVO_CFG) : slewLimit t = slewLimit s := by
  have hon : anyEnergised t = anyEnergised s := by rw [anyEnergised, fld_of_rd hctrl]; rfl
  have hrun : slewRun t = slewRun s := by rw [slewRun, slewRun, fld_of_rd hcfg]
  rw [slewLimit, slewLimit, hon, hrun]

/-- What the servo's figures rest on. -/
structure SameInputs (s t : State) : Prop where
  i : t.time.servo.i = s.time.servo.i
  ctrl : rd t Reg.CTRL_STATUS = rd s Reg.CTRL_STATUS
  cfg : rd t Reg.TIME_SERVO_CFG = rd s Reg.TIME_SERVO_CFG

theorem servoI_congr {s t : State} (h : SameInputs s t) (th : Int) (ts : Nat) : servoI th ts t = servoI th ts s := by
  rw [servoI, servoI, h.i, fld_of_rd h.cfg]

theorem servoY_congr {s t : State} (h : SameInputs s t) (th : Int) (ts : Nat) : servoY th ts t = servoY th ts s := by
  rw [servoY, servoY, servoI_congr h, slewLimit_congr h.ctrl h.cfg, h.i, fld_of_rd h.cfg]

theorem figures_servoAccept {s x : State} (h : SameInputs s x) (th : Int) (ts : Nat) :
    Figures (servoI th ts s) (servoY th ts s) (th * 16384000 - servoY th ts s * ts) (servoAccept th ts x) := by
  have hnote : Ev ⟨[.recd], [], false⟩ x (recNote 0 th x) := recNote_ev (foot_self _) (Ev.refl _ x)
  have hin : SameInputs s (recNote 0 th x) :=
    ⟨(congrArg (fun v : TimeState => v.servo.i) (keeps_of_ev hnote (p := .time) rfl)).trans h.i,
      (rd_of_ev hnote rfl (b := .ctrl) rfl rfl).trans h.ctrl, (rd_of_ev hnote rfl (b := .time) rfl rfl).trans h.cfg⟩
  rw [servoAccept_eq, ← servoI_congr hin, ← servoY_congr hin]
  exact figures_servoCounts (figures_servoTaken th ts _)

theorem tai_servoAccept (th : Int) (ts : Nat) (s : State) : (servoAccept th ts s).tai = s.tai :=
  keeps_of_ev (servoAccept_ev (foot_self _) (Ev.refl _ s)) (p := .tai) rfl

/-! ### Time states -/

theorem timeState_toTimeState (n : Nat) (s : State) (h : n < 8) : timeState (toTimeState n s) = n := by
  unfold toTimeState timeState
  dsimp only
  rw [fld_setF_disj _ _ _ _ _ (by decide), fld_setF _ _ _ _ (by decide)]
  exact Nat.mod_eq_of_lt h

theorem inWin_toTimeState {n : Nat} {s : State} (h : timeState s ≠ n) : (toTimeState n s).time.servo.inWin = 0 := by
  unfold toTimeState
  rw [if_neg h]
  rfl

theorem tai_toTimeState (n : Nat) (s : State) : (toTimeState n s).tai = s.tai := by
  unfold toTimeState
  dsimp only
  split <;> rfl

theorem toTimeState_onlyRegs (n : Nat) (s : State) : OnlyRegs [Reg.TIME_STATE] s (toTimeState n s) := by
  intro a ha
  have hne : a ≠ Reg.TIME_STATE := by simpa using ha
  unfold toTimeState
  dsimp only
  rw [rd_setF_ne _ _ _ hne, rd_setF_ne _ _ _ hne]
  split <;> rfl

theorem sameInputs_toTimeState (n : Nat) (s : State) : SameInputs s (toTimeState n s) where
  i := by
    unfold toTimeState
    dsimp only
    split <;> rfl
  ctrl := toTimeState_onlyRegs n s _ (by decide)
  cfg := toTimeState_onlyRegs n s _ (by decide)

theorem timeState_setServo (v : ServoState) (s : State) : timeState (setServo v s) = timeState s := rfl

theorem inWin_servoTaken (th : Int) (ts : Nat) (s : State) : (servoTaken th ts s).time.servo.inWin = s.time.servo.inWin := rfl

theorem timeState_servoTaken (th : Int) (ts : Nat) (s : State) : timeState (servoTaken th ts s) = timeState s := by
  unfold servoTaken showOffset setY
  exact fld_of_rd ((rd_wr_ne _ _ (by decide)).trans (rd_wr_ne _ _ (by decide))) _

/-- The measurement that enters SLEWING does not leave it: it is the first of the four (Table 4.7). -/
theorem timeState_servoAccept_first {th : Int} {ts : Nat} {s : State} (hstate : timeState s = timeSlewing)
    (hcount : s.time.servo.inWin = 0) : timeState (servoAccept th ts s) = timeSlewing := by
  have hnote : Ev ⟨[.recd], [], false⟩ s (recNote 0 th s) := recNote_ev (foot_self _) (Ev.refl _ s)
  have hst : timeState (servoTaken th ts (recNote 0 th s)) = timeSlewing := by
    rw [timeState_servoTaken, timeState, fld_of_rd (rd_of_ev hnote rfl (b := .time) rfl rfl)]
    exact hstate
  have hwin : (servoTaken th ts (recNote 0 th s)).time.servo.inWin = 0 := by
    rw [inWin_servoTaken, keeps_of_ev hnote (p := .time) rfl]
    exact hcount
  rw [servoAccept_eq]
  unfold servoCounts countIn
  dsimp only
  rw [if_pos hst, hwin, if_neg (by split <;> omega), timeState_setServo, hst]

/-! ### The judgement of a measurement (R121 to R123, R126) -/

theorem sourcesKept_shiftInstants {s x : State} {ms : Int} (hx : SourcesKept s x) : SourcesKept s (shiftInstants ms x) :=
  ⟨hx.valid, hx.marks, hx.delay, hx.source, hx.stampLow, hx.stampHigh⟩

theorem low_TRIG_STATUS {n : Nat} (hn : n < 8) :
    Reg.TIME_TRIG_STATUS n ∉ [Reg.TIME_STATE, Reg.TIME_PPS_IN_STAMP, Reg.TIME_PPS_IN_STAMP + 4] := by
  simp only [Reg.TIME_TRIG_STATUS, Reg.TIME_STATE, Reg.TIME_PPS_IN_STAMP, List.mem_cons, List.not_mem_nil, or_false, not_or]
  omega

theorem sourcesKept_skipTriggers {s x : State} (hx : SourcesKept s x) : SourcesKept s (skipTriggers x) := by
  refine forEach_keeps (fun n hn y hy => ?_) hx
  dsimp only
  split
  · have hwr := sourcesKept_wr (v := putF (rd y (Reg.TIME_TRIG_STATUS n)) F.TIME_TRIG_STATUS_state 4) hy
      (low_TRIG_STATUS (List.mem_range.1 hn))
    exact sourcesKept_logEvent ⟨hwr.valid, hwr.marks, hwr.delay, hwr.source, hwr.stampLow, hwr.stampHigh⟩
  · exact hy

theorem sourcesKept_moveCounter {s x : State} {ms : Int} (hx : SourcesKept s x) : SourcesKept s (moveCounter ms x) := by
  have hrec := sourcesKept_of_ev hx (recTimeMoved_ev (foot_self _) (Ev.refl _ x)) rfl
  have hmoved : SourcesKept s { recTimeMoved x with tai := (recTimeMoved x).tai + BitVec.ofInt 66 (ms * 4000000) } :=
    ⟨hrec.valid, hrec.marks, hrec.delay, hrec.source, hrec.stampLow, hrec.stampHigh⟩
  unfold moveCounter whenS
  dsimp only
  split
  · exact sourcesKept_skipTriggers (sourcesKept_shiftInstants hmoved)
  · exact sourcesKept_shiftInstants hmoved

theorem sourcesKept_initialSet {s x : State} {th : Int} {ts : Nat} (hx : SourcesKept s x) : SourcesKept s (initialSet th ts x) :=
  sourcesKept_servoAccept (sourcesKept_toTimeState (sourcesKept_moveCounter (sourcesKept_logEvent hx)))

theorem shiftInstants_tai (ms : Int) (s : State) : (shiftInstants ms s).tai = s.tai := rfl

theorem rd_skipTriggers (s : State) {a : Nat} (h : ∀ n < 8, a ≠ Reg.TIME_TRIG_STATUS n) (hs : a ≠ Reg.CMD_STATUS)
    (hl : a ≠ Reg.CMD_EVT_LOST) : rd (skipTriggers s) a = rd s a := by
  refine forEach_keeps (P := fun y => rd y a = rd s a) (fun n hn y hy => ?_) rfl
  dsimp only
  split
  · refine (rd_logEvent _ _ _ _ hs hl).trans ((rd_setF_ne _ _ _ (h n (List.mem_range.1 hn))).trans hy)
  · exact hy

/-- A move of the counter leaves the registers of the recorder's block, of the triggers' states and of the logger alone aside. -/
theorem rd_moveCounter (ms : Int) (s : State) {a : Nat} {b : Block} (hb : blockAt a = some b) (hrec : b ≠ .recd)
    (h : ∀ n < 8, a ≠ Reg.TIME_TRIG_STATUS n) (hs : a ≠ Reg.CMD_STATUS) (hl : a ≠ Reg.CMD_EVT_LOST) :
    rd (moveCounter ms s) a = rd s a := by
  have hmoved : rd (recTimeMoved s) a = rd s a :=
    rd_of_ev (recTimeMoved_ev (foot_self _) (Ev.refl _ s)) rfl hb (by cases b <;> first | rfl | exact absurd rfl hrec)
  unfold moveCounter whenS
  dsimp only
  split
  · exact (rd_skipTriggers _ h hs hl).trans hmoved
  · exact hmoved

theorem tai_moveCounter (ms : Int) (s : State) : (moveCounter ms s).tai = s.tai + BitVec.ofInt 66 (ms * 4000000) := by
  have hrec : (recTimeMoved s).tai = s.tai := keeps_of_ev (recTimeMoved_ev (foot_self _) (Ev.refl _ s)) (p := .tai) rfl
  have hskip : ∀ y : State, (whenS (0 < ms) skipTriggers y).tai = y.tai := by
    intro y
    unfold whenS
    split
    · exact keeps_of_ev (skipTriggers_ev (foot_self _) (Ev.refl _ y)) (p := .tai) rfl
    · rfl
  unfold moveCounter
  dsimp only
  rw [hskip, shiftInstants_tai, hrec]

theorem initialSet_tai (th : Int) (ts : Nat) (s : State) :
    (initialSet th ts s).tai = s.tai + BitVec.ofInt 66 (nearest th 4000000 * 4000000) := by
  unfold initialSet
  dsimp only
  rw [tai_servoAccept, tai_toTimeState, tai_moveCounter, logEvent_tai]

theorem rd_moveCounter_time (ms : Int) (s : State) {a : Nat} (h : 0x40030000 ≤ a ∧ a < 0x40030100) :
    rd (moveCounter ms s) a = rd s a := by
  have hb : blockAt a = some .time := by rw [blockAt, show a / 0x10000 = 0x4003 by omega]; rfl
  refine rd_moveCounter ms s hb (by decide) (fun n _ => ?_) ?_ ?_
  · simp only [Reg.TIME_TRIG_STATUS]; omega
  · simp only [Reg.CMD_STATUS]; omega
  · simp only [Reg.CMD_EVT_LOST]; omega

theorem timeState_initialSet {th : Int} {ts : Nat} {s : State} (h : timeState s ≠ timeSlewing) :
    timeState (initialSet th ts s) = timeSlewing := by
  have hmoved : timeState (moveCounter (nearest th 4000000) (logEvent 0x2107 0 (satI32 (nearest th 4000000)) s)) ≠ timeSlewing := by
    rw [timeState, fld_of_rd (rd_moveCounter_time _ _ (by decide)), fld_logEvent _ _ _ _ _ (by decide) (by decide)]
    exact h
  exact timeState_servoAccept_first (timeState_toTimeState _ _ (by decide)) (inWin_toTimeState hmoved)

/-! ### Candidates for a jump (R123) -/

/-- Does an offset agree with the candidate before it? -/
def jumpAgrees (th : Int) (ts : Nat) (s : State) : Bool :=
  match s.time.servo.cand with
  | none => true
  | some p => decide ((th * 16384000 - (p - s.time.servo.y * ts)).natAbs ≤ (jumpLimit s * 65536000 : Int))

/-- The candidates in a row with this one. -/
def jumpCount (agrees : Bool) (s : State) : Nat := if agrees then s.time.servo.candCount + 1 else 1

/-- A candidate for a jump as it is noted, before it is confirmed. -/
def candidateNoted (th : Int) (agrees : Bool) (s : State) : State :=
  whenS (!agrees) (fun s => logEvent 0x2106 (timeSource s) (offsetUs th) (setF s Reg.TIME_STATE F.TIME_STATE_outlier_seen 1))
    (setServo { s.time.servo with cand := some (th * 16384000), candCount := jumpCount agrees s, inWin := 0 } (showOffset th s))

theorem jumpCandidate_eq (th : Int) (ts : Nat) (s : State) : jumpCandidate th ts s =
    let x := recNote 1 th s
    let y := candidateNoted th (jumpAgrees th ts x) x
    if confirmCount y ≤ jumpCount (jumpAgrees th ts x) x then
      let z := recNote 2 th (setF y Reg.TIME_STATE F.TIME_STATE_jump_refused 1)
      let z := logEvent 0x2105 (timeSource z) (offsetUs th) z
      servoAccept th ts (if timeState z = timeGrandmaster then z else toTimeState timeSlewing z)
    else y := rfl

theorem sourcesKept_candidateNoted {s x : State} {th : Int} {agrees : Bool} (hx : SourcesKept s x) :
    SourcesKept s (candidateNoted th agrees x) := by
  unfold candidateNoted whenS
  split
  · exact sourcesKept_logEvent (sourcesKept_state (sourcesKept_setServo (sourcesKept_showOffset hx)) (by decide))
  · exact sourcesKept_setServo (sourcesKept_showOffset hx)

theorem sourcesKept_jumpCandidate {s x : State} {th : Int} {ts : Nat} (hx : SourcesKept s x) :
    SourcesKept s (jumpCandidate th ts x) := by
  have hnoted := sourcesKept_candidateNoted (th := th) (agrees := jumpAgrees th ts (recNote 1 th x))
    (sourcesKept_recNote (kind := 1) (th := th) hx)
  rw [jumpCandidate_eq]
  dsimp only
  split
  · refine sourcesKept_servoAccept ?_
    have hrefused := sourcesKept_recNote (kind := 2) (th := th) (sourcesKept_state (G := F.TIME_STATE_jump_refused) (v := 1) hnoted
      (by decide))
    split
    · exact sourcesKept_logEvent hrefused
    · exact sourcesKept_toTimeState (sourcesKept_logEvent hrefused)
  · exact hnoted

/-- The prediction that a measurement is judged against (R121). -/
def judgedAgainst (s : State) : Int := if timeState s = timeHoldover ∨ s.time.servo.fresh then 0 else s.time.servo.pred

theorem judge_unset {th : Int} {ts : Nat} {s : State} (h : timeState s = timeUnset) : judge th ts s = initialSet th ts s := if_pos h

theorem judge_set {th : Int} {ts : Nat} {s : State} (h : timeState s ≠ timeUnset) : judge th ts s =
    if jumpLimit s * 65536000 < (th * 16384000 - judgedAgainst s).natAbs then jumpCandidate th ts s
    else servoAccept th ts (if timeState s = timeHoldover then toTimeState timeSlewing s else s) := by
  have hcast : ((jumpLimit s : Int) * 65536000 < ((th * 16384000 - judgedAgainst s).natAbs : Int)) ↔
      jumpLimit s * 65536000 < (th * 16384000 - judgedAgainst s).natAbs := by omega
  exact (if_neg h).trans (if_congr hcast rfl rfl)

theorem sourcesKept_judge {s x : State} {th : Int} {ts : Nat} (hx : SourcesKept s x) : SourcesKept s (judge th ts x) := by
  by_cases h : timeState x = timeUnset
  · rw [judge_unset h]
    exact sourcesKept_initialSet hx
  · rw [judge_set h]
    split
    · exact sourcesKept_jumpCandidate hx
    · refine sourcesKept_servoAccept ?_
      split
      · exact sourcesKept_toTimeState hx
      · exact hx

theorem candidateNoted_servo (th : Int) (agrees : Bool) (s : State) : (candidateNoted th agrees s).time.servo =
    { s.time.servo with cand := some (th * 16384000), candCount := jumpCount agrees s, inWin := 0 } := by
  unfold candidateNoted whenS
  split
  · rw [logEvent_time]
    rfl
  · rfl

theorem candidateNoted_tai (th : Int) (agrees : Bool) (s : State) : (candidateNoted th agrees s).tai = s.tai := by
  unfold candidateNoted whenS
  split
  · rw [logEvent_tai]
    rfl
  · rfl

theorem timeState_candidateNoted (th : Int) (agrees : Bool) (s : State) : timeState (candidateNoted th agrees s) = timeState s := by
  have hshow : timeState (setServo { s.time.servo with cand := some (th * 16384000), candCount := jumpCount agrees s, inWin := 0 }
      (showOffset th s)) = timeState s := fld_of_rd (rd_wr_ne s _ (by decide)) _
  unfold candidateNoted whenS
  split
  · rw [timeState, fld_logEvent _ _ _ _ _ (by decide) (by decide), fld_setF_disj _ _ _ _ _ (by decide)]
    exact hshow
  · exact hshow

theorem confirmCount_of_rd {s t : State} (h : rd t Reg.TIME_SERVO_CFG = rd s Reg.TIME_SERVO_CFG) : confirmCount t = confirmCount s := by
  rw [confirmCount, confirmCount, fld_of_rd h]

theorem rd_candidateNoted_cfg (th : Int) (agrees : Bool) (s : State) :
    rd (candidateNoted th agrees s) Reg.TIME_SERVO_CFG = rd s Reg.TIME_SERVO_CFG := by
  have hshow : rd (setServo { s.time.servo with cand := some (th * 16384000), candCount := jumpCount agrees s, inWin := 0 }
      (showOffset th s)) Reg.TIME_SERVO_CFG = rd s Reg.TIME_SERVO_CFG := rd_wr_ne s _ (by decide)
  unfold candidateNoted whenS
  split
  · rw [rd_logEvent _ _ _ _ (by decide) (by decide), rd_setF_ne _ _ _ (by decide), hshow]
  · exact hshow

theorem jumpCount_le (agrees : Bool) (s : State) : jumpCount agrees s ≤ s.time.servo.candCount + 1 := by
  unfold jumpCount
  split <;> omega

/-- A candidate that does not yet confirm a jump is noted, and the servo keeps its figures. -/
theorem jumpCandidate_waits {th : Int} {ts : Nat} {s : State} (h : s.time.servo.candCount + 1 < confirmCount s) :
    (jumpCandidate th ts s).time.servo.i = s.time.servo.i ∧ (jumpCandidate th ts s).time.servo.y = s.time.servo.y ∧
      (jumpCandidate th ts s).time.servo.cand = some (th * 16384000) ∧ timeState (jumpCandidate th ts s) = timeState s ∧
      (jumpCandidate th ts s).tai = s.tai := by
  have hnote : Ev ⟨[.recd], [], false⟩ s (recNote 1 th s) := recNote_ev (foot_self _) (Ev.refl _ s)
  have htime : (recNote 1 th s).time = s.time := keeps_of_ev hnote (p := .time) rfl
  have htai : (recNote 1 th s).tai = s.tai := keeps_of_ev hnote (p := .tai) rfl
  have hcount := jumpCount_le (jumpAgrees th ts (recNote 1 th s)) (recNote 1 th s)
  have hconfirm : confirmCount (candidateNoted th (jumpAgrees th ts (recNote 1 th s)) (recNote 1 th s)) = confirmCount s :=
    confirmCount_of_rd ((rd_candidateNoted_cfg _ _ _).trans (rd_of_ev hnote rfl (b := .time) rfl rfl))
  rw [htime] at hcount
  rw [jumpCandidate_eq]
  dsimp only
  rw [if_neg (by omega), candidateNoted_servo, candidateNoted_tai, timeState_candidateNoted, htime, htai]
  exact ⟨rfl, rfl, rfl, fld_of_rd (rd_of_ev hnote rfl (b := .time) rfl rfl) _, rfl⟩

/-! ### Measurements (R112, R115) -/

/-- The state with a source's measurement noted. -/
def marked (src : Fin 5) (th : Int) (ts : Nat) (s : State) : State :=
  { s with time := { s.time with
      valid := s.time.valid.set src true, marks := s.time.marks.set src (some ⟨localNs s, th, ts⟩) } }

theorem selectSource_marked (src : Fin 5) (th : Int) (ts : Nat) (s : State) : selectSource (marked src th ts s) =
    selectSource { s with time := { s.time with valid := s.time.valid.set src true } } := rfl

theorem measure_eq (src : Fin 5) (th : Int) (ts : Nat) (s : State) : Machine.measure src th ts s =
    if uses src s = true then judge th ts (takeSource src (marked src th ts s)) else marked src th ts s := by
  unfold Machine.measure uses
  change (if pllCoasts s = true then marked src th ts s else if timeState s = timeGrandmaster then
    if src = 4 then judge th ts (takeSource 4 (marked src th ts s)) else marked src th ts s
    else if selectSource (marked src th ts s) = src.val then judge th ts (takeSource src (marked src th ts s))
    else marked src th ts s) = _
  rw [selectSource_marked]
  by_cases hcoast : pllCoasts s = true
  · simp [hcoast]
  · by_cases hgm : timeState s = timeGrandmaster
    · by_cases hsrc : src = 4
      · subst hsrc
        simp [hcoast, hgm]
      · simp [hcoast, hgm, hsrc]
    · simp [hcoast, hgm]

theorem sourcesKept_takeSource_valid (src : Nat) (s : State) : (takeSource src s).time.valid = s.time.valid ∧
    (takeSource src s).time.marks = s.time.marks ∧ (takeSource src s).time.pathDelay = s.time.pathDelay := by
  unfold takeSource
  split <;> exact ⟨rfl, rfl, rfl⟩

theorem takeSource_onlyRegs (src : Nat) (s : State) : OnlyRegs [Reg.TIME_STATE] s (takeSource src s) := by
  intro a ha
  unfold takeSource
  split
  · rfl
  · exact rd_setF_ne s _ _ (by simpa using ha)

theorem timeSource_takeSource (src : Fin 5) (s : State) : timeSource (takeSource src s) = src.val := by
  unfold takeSource
  split
  · assumption
  · refine (fld_setF s _ _ _ (by decide)).trans (Nat.mod_eq_of_lt ?_)
    have := src.isLt
    simp only
    omega

theorem timeState_takeSource (src : Nat) (s : State) : timeState (takeSource src s) = timeState s := by
  unfold takeSource
  split
  · rfl
  · exact fld_setF_disj s _ _ _ _ (by decide)

theorem tai_takeSource (src : Nat) (s : State) : (takeSource src s).tai = s.tai := by
  unfold takeSource
  split <;> rfl

/-- The servo that a used measurement finds, and the prediction it is judged against (R112, R123). -/
theorem servo_takeSource (src : Fin 5) (th : Int) (ts : Nat) (s : State) :
    (takeSource src (marked src th ts s)).time.servo.i = s.time.servo.i ∧
    (takeSource src (marked src th ts s)).time.servo.y = s.time.servo.y ∧
    (takeSource src (marked src th ts s)).time.servo.candCount = (servoFor src s).candCount ∧
    judgedAgainst (takeSource src (marked src th ts s)) = (servoFor src s).pred := by
  have hstate : timeState (takeSource src (marked src th ts s)) = timeState s := timeState_takeSource _ _
  unfold judgedAgainst
  rw [hstate]
  unfold takeSource servoFor
  by_cases hsrc : timeSource s = src.val
  · have hmarked : timeSource (marked src th ts s) = src.val := hsrc
    rw [if_pos hmarked, if_pos hsrc]
    refine ⟨rfl, rfl, ?_, ?_⟩
    · dsimp only
      split <;> rfl
    · dsimp only
      by_cases hz : timeState s = timeHoldover ∨ s.time.servo.fresh = true
      · rw [if_pos hz]
        exact if_pos hz
      · rw [if_neg hz]
        exact if_neg hz
  · have hmarked : ¬ timeSource (marked src th ts s) = src.val := hsrc
    rw [if_neg hmarked, if_neg hsrc]
    refine ⟨rfl, rfl, ?_, ?_⟩
    · dsimp only
      split <;> rfl
    · dsimp only
      rw [if_pos (Or.inr rfl)]
      exact if_pos (Or.inr rfl)

/-- What a measurement leaves of its source, the path delays and the stamp of PPS_IN, used or not. -/
theorem measure_kept (src : Fin 5) (th : Int) (ts : Nat) (s : State) :
    let t := Machine.measure src th ts s
    t.time.valid[src] = true ∧ t.time.marks[src] = some ⟨localNs s, th, ts⟩ ∧ t.time.pathDelay = s.time.pathDelay ∧
      rd64 t Reg.TIME_PPS_IN_STAMP = rd64 s Reg.TIME_PPS_IN_STAMP ∧ (uses src s = true → timeSource t = src.val) := by
  intro t
  have hmark : (marked src th ts s).time.valid[src] = true ∧ (marked src th ts s).time.marks[src] = some ⟨localNs s, th, ts⟩ :=
    ⟨Vector.getElem_set_self _, Vector.getElem_set_self _⟩
  by_cases huse : uses src s = true
  · have ht : t = judge th ts (takeSource src (marked src th ts s)) := (measure_eq src th ts s).trans (if_pos huse)
    have hkept : SourcesKept (takeSource src (marked src th ts s)) t :=
      ht ▸ sourcesKept_judge (th := th) (ts := ts) (sourcesKept_refl _)
    obtain ⟨hvalid, hmarks, hdelay⟩ := sourcesKept_takeSource_valid src (marked src th ts s)
    have hregs := takeSource_onlyRegs src (marked src th ts s)
    refine ⟨?_, ?_, hkept.delay.trans hdelay, ?_, fun _ => hkept.source.trans (timeSource_takeSource _ _)⟩
    · simp only [hkept.valid, hvalid, hmark.1]
    · simp only [hkept.marks, hmarks, hmark.2]
    · exact rd64_of_rd (hkept.stampLow.trans (hregs _ (by decide))) (hkept.stampHigh.trans (hregs _ (by decide)))
  · have ht : t = marked src th ts s := (measure_eq src th ts s).trans (if_neg huse)
    exact ht ▸ ⟨hmark.1, hmark.2, rfl, rfl, fun h => absurd h huse⟩

theorem measure_taken {src : Fin 5} {th : Int} {ts : Nat} {s : State} (huse : uses src s = true) (hset : timeState s ≠ timeUnset)
    (hjump : (th * 16384000 - (servoFor src s).pred).natAbs ≤ jumpLimit s * 65536000) :
    Figures (servoI th ts s) (servoY th ts s) (th * 16384000 - servoY th ts s * ts) (Machine.measure src th ts s) ∧
      (Machine.measure src th ts s).tai = s.tai := by
  have hregs := takeSource_onlyRegs src (marked src th ts s)
  obtain ⟨hi, -, -, hpred⟩ := servo_takeSource src th ts s
  have hset' : timeState (takeSource src (marked src th ts s)) ≠ timeUnset := by
    rw [timeState_takeSource]
    exact hset
  have hlimit : jumpLimit (takeSource src (marked src th ts s)) = jumpLimit s := by
    rw [jumpLimit, hregs _ (by decide)]
    rfl
  have hin : SameInputs s (takeSource src (marked src th ts s)) := ⟨hi, hregs _ (by decide), hregs _ (by decide)⟩
  rw [measure_eq, if_pos huse, judge_set hset', hlimit, hpred, if_neg (by omega), tai_servoAccept]
  split
  · have hslew := sameInputs_toTimeState timeSlewing (takeSource src (marked src th ts s))
    refine ⟨figures_servoAccept ⟨hslew.i.trans hin.i, hslew.ctrl.trans hin.ctrl, hslew.cfg.trans hin.cfg⟩ th ts, ?_⟩
    rw [tai_toTimeState, tai_takeSource]
    rfl
  · exact ⟨figures_servoAccept hin th ts, tai_takeSource _ _⟩

theorem measure_candidate {src : Fin 5} {th : Int} {ts : Nat} {s : State} (huse : uses src s = true) (hset : timeState s ≠ timeUnset)
    (hjump : jumpLimit s * 65536000 < (th * 16384000 - (servoFor src s).pred).natAbs)
    (hwait : (servoFor src s).candCount + 1 < confirmCount s) :
    let t := Machine.measure src th ts s
    t.time.servo.i = s.time.servo.i ∧ t.time.servo.y = s.time.servo.y ∧ t.time.servo.cand = some (th * 16384000) ∧
      timeState t = timeState s ∧ t.tai = s.tai := by
  intro t
  have hregs := takeSource_onlyRegs src (marked src th ts s)
  obtain ⟨hi, hy, hcount, hpred⟩ := servo_takeSource src th ts s
  have hset' : timeState (takeSource src (marked src th ts s)) ≠ timeUnset := by
    rw [timeState_takeSource]
    exact hset
  have hlimit : jumpLimit (takeSource src (marked src th ts s)) = jumpLimit s := by
    rw [jumpLimit, hregs _ (by decide)]
    rfl
  have hconfirm : confirmCount (takeSource src (marked src th ts s)) = confirmCount s := confirmCount_of_rd (hregs _ (by decide))
  have ht : t = jumpCandidate th ts (takeSource src (marked src th ts s)) := by
    change Machine.measure src th ts s = _
    rw [measure_eq, if_pos huse, judge_set hset', hlimit, hpred, if_pos hjump]
  obtain ⟨hi', hy', hcand, hstate, htai⟩ := jumpCandidate_waits (th := th) (ts := ts)
    (s := takeSource src (marked src th ts s)) (by omega)
  rw [ht]
  exact ⟨hi'.trans hi, hy'.trans hy, hcand, hstate.trans (timeState_takeSource _ _), htai.trans (tai_takeSource _ _)⟩

theorem measure_first {src : Fin 5} {th : Int} {ts : Nat} {s : State} (huse : uses src s = true) (hset : timeState s = timeUnset) :
    (Machine.measure src th ts s).tai = s.tai + BitVec.ofInt 66 (nearest th 4000000 * 4000000) ∧
      timeState (Machine.measure src th ts s) = timeSlewing := by
  have hset' : timeState (takeSource src (marked src th ts s)) = timeUnset := (timeState_takeSource _ _).trans hset
  rw [measure_eq, if_pos huse, judge_unset hset', initialSet_tai, tai_takeSource]
  refine ⟨rfl, timeState_initialSet ?_⟩
  rw [hset']
  decide

theorem measure_measured (src : Fin 5) (th : Int) (ts : Nat) (s : State) : Measured src th ts s (Machine.measure src th ts s) := by
  obtain ⟨hvalid, hmark, -, -, hsource⟩ := measure_kept src th ts s
  refine ⟨⟨hvalid, hmark⟩, fun hno => ?_, hsource, fun huse hset hjump => ?_, fun huse hset hjump hwait => ?_,
    fun huse hset => measure_first huse hset⟩
  · have ht : Machine.measure src th ts s = marked src th ts s := (measure_eq src th ts s).trans (if_neg (by simp [hno]))
    rw [ht]
    exact ⟨rfl, rfl, rfl⟩
  · obtain ⟨hfig, htai⟩ := measure_taken (ts := ts) huse hset hjump
    have hy : servoY th ts s = clampI (slewLimit s) (if 4000 < th.natAbs then s.time.servo.i + th * 16384000 / ts
        else servoI th ts s + fld s Reg.TIME_SERVO_CFG F.TIME_SERVO_CFG_kp * th * 64000 / ts) := by
      unfold servoY
      split <;> rfl
    intro i y
    have hyy : y = servoY th ts s := hy.symm
    rw [hyy]
    exact ⟨hfig.i, hfig.y, hfig.pred, hfig.fresh, htai⟩
  · exact measure_candidate huse hset hjump hwait

/-- What `Measured` says of the state before rests on: the time unit but for its path delays and forwarded corrections, the
counters, and every register but the stamp of PPS_IN. -/
structure SameTime (s x : State) : Prop where
  tai : x.tai = s.tai
  ticks : x.ticks = s.ticks
  servo : x.time.servo = s.time.servo
  valid : x.time.valid = s.time.valid
  regs : OnlyRegs [Reg.TIME_PPS_IN_STAMP, Reg.TIME_PPS_IN_STAMP + 4] s x

section SameTime

variable {s x : State} (h : SameTime s x)
include h

theorem SameTime.timeState : timeState x = timeState s := fld_of_rd (h.regs _ (by decide)) _

theorem SameTime.selectSource {v : Vector Bool 5} : selectSource { x with time := { x.time with valid := v } } =
    selectSource { s with time := { s.time with valid := v } } := by
  have hcfg : ∀ G, fld x Reg.TIME_SRC_CFG G = fld s Reg.TIME_SRC_CFG G := fld_of_rd (h.regs _ (by decide))
  have hflg : ∀ G, flg x Reg.TIME_SRC_CFG G = flg s Reg.TIME_SRC_CFG G := flg_of_rd (h.regs _ (by decide))
  have hrole : ∀ G, fld x Reg.DPX_STATUS G = fld s Reg.DPX_STATUS G := fld_of_rd (h.regs _ (by decide))
  have hlist : sourceList { x with time := { x.time with valid := v } } = sourceList { s with time := { s.time with valid := v } } := by
    change sourceList x = sourceList s
    rw [sourceList, sourceList, hcfg, hcfg, hcfg, hflg, hrole]
  unfold Machine.selectSource
  rw [hlist]

theorem SameTime.uses (src : Fin 5) : uses src x = uses src s := by
  have hcoast : pllCoasts x = pllCoasts s := flg_of_rd (h.regs _ (by decide)) _
  unfold Safety.uses
  dsimp only
  rw [hcoast, h.timeState, h.valid, h.selectSource]

theorem SameTime.servoFor (src : Fin 5) : servoFor src x = servoFor src s := by
  have hsource : timeSource x = timeSource s := fld_of_rd (h.regs _ (by decide)) _
  unfold Safety.servoFor
  rw [hsource, h.servo, h.timeState]

theorem SameTime.jumpLimit : jumpLimit x = jumpLimit s := by rw [Machine.jumpLimit, Machine.jumpLimit, h.regs _ (by decide)]

theorem SameTime.measured {src : Fin 5} {th : Int} {ts : Nat} {t : State} (hm : Measured src th ts x t) : Measured src th ts s t := by
  obtain ⟨alive, idle, source, taken, candidate, first⟩ := hm
  have hcfg : ∀ G, fld x Reg.TIME_SERVO_CFG G = fld s Reg.TIME_SERVO_CFG G := fld_of_rd (h.regs _ (by decide))
  have hslew : slewLimit x = slewLimit s := slewLimit_congr (h.regs _ (by decide)) (h.regs _ (by decide))
  have hconfirm : confirmCount x = confirmCount s := confirmCount_of_rd (h.regs _ (by decide))
  simp only [h.uses, h.timeState, h.servo, h.tai, localNs, h.ticks] at alive idle source first
  simp only [h.uses, h.timeState, h.servoFor, h.jumpLimit, h.servo, h.tai, hcfg, hslew] at taken
  simp only [h.uses, h.timeState, h.servoFor, h.jumpLimit, h.servo, h.tai, hconfirm] at candidate
  exact ⟨alive, idle, source, taken, candidate, first⟩

end SameTime

/-! ### Frames that a unit lets in (R403, R404) -/

theorem arrives_clear {u : Fin 10} {field : BitVec 16} {i : Instr} {run : State → Out} {bad : Option (Instr × (State → Out))}
    {s : State} (h : Clear u s) : arrives u field i run bad s = run s := by
  obtain ⟨hpast, hquiet⟩ := h
  rw [arrives, hpast, hquiet]
  rfl

theorem clear_advanceTo {u : Fin 10} {s : State} {q : Nat} (h : Clear u s) : Clear u (advanceTo s q) := h

theorem sameTime_forwardSync (port : Fin 2) (x : PtpSync) (s : State) : SameTime s (forwardSync port x s) := by
  unfold forwardSync
  split <;> exact ⟨rfl, rfl, rfl, rfl, fun _ _ => rfl⟩

theorem sameTime_takeDelay (port : Fin 2) (t : BitVec 66) (x : PtpSync) (s : State) : SameTime s (takeDelay port t x s) := by
  unfold takeDelay
  split <;> exact ⟨rfl, rfl, rfl, rfl, fun _ _ => rfl⟩

theorem sameTime_trans {s x y : State} (h : SameTime s x) (h' : SameTime x y) : SameTime s y :=
  ⟨h'.tai.trans h.tai, h'.ticks.trans h.ticks, h'.servo.trans h.servo, h'.valid.trans h.valid,
    fun a ha => (h'.regs a ha).trans (h.regs a ha)⟩

theorem pathDelay_forwardSync (port : Fin 2) (x : PtpSync) (s : State) :
    (forwardSync port x s).time.pathDelay = s.time.pathDelay := by
  unfold forwardSync
  split <;> rfl

theorem rd_forwardSync (port : Fin 2) (x : PtpSync) (s : State) (a : Nat) : rd (forwardSync port x s) a = rd s a := by
  unfold forwardSync
  split <;> rfl

theorem rd_takeDelay (port : Fin 2) (t : BitVec 66) (x : PtpSync) (s : State) (a : Nat) : rd (takeDelay port t x s) a = rd s a := by
  unfold takeDelay
  split <;> rfl

theorem syncOffset_congr {s t : State} (p : Fin 2) (at' : BitVec 66) (x : PtpSync) (hdelay : t.time.pathDelay = s.time.pathDelay)
    (hregs : ∀ a, rd t a = rd s a) : syncOffset p at' x t = syncOffset p at' x s := by
  unfold syncOffset halfAsym
  rw [hdelay, hregs]

theorem syncTs_congr {s t : State} (h : rd t Reg.TIME_PTP_CFG = rd s Reg.TIME_PTP_CFG) : syncTs t = syncTs s := by
  unfold syncTs
  rw [fld_of_rd h]

end Sys2Proof.Machine

namespace Sys2Proof.Proofs

open Sys2Proof Sys2Proof.Machine Sys2Proof.Safety Sys2Proof.Laws

theorem ptpSync_measured (p : Fin 2) (at' : BitVec 66) (x : PtpSync) (s : State) (hmine : ptpMine x.domain x.udp s = true) :
    ∃ t, ptpSync p at' x s = .next t ∧ Measured (Fin.ofNat 5 (p + 1)) (syncOffset p at' x (takeDelay p at' x s)) (syncTs s) s t ∧
      t.time.pathDelay = (takeDelay p at' x s).time.pathDelay := by
  have hsame := sameTime_trans (sameTime_takeDelay p at' x s) (sameTime_forwardSync p x (takeDelay p at' x s))
  have hoffset : syncOffset p at' x (forwardSync p x (takeDelay p at' x s)) = syncOffset p at' x (takeDelay p at' x s) :=
    syncOffset_congr p at' x (pathDelay_forwardSync _ _ _) (rd_forwardSync _ _ _)
  have hts : syncTs (forwardSync p x (takeDelay p at' x s)) = syncTs s :=
    syncTs_congr ((rd_forwardSync _ _ _ _).trans (rd_takeDelay _ _ _ _ _))
  have hkept := measure_kept (Fin.ofNat 5 (p + 1)) (syncOffset p at' x (takeDelay p at' x s)) (syncTs s)
    (forwardSync p x (takeDelay p at' x s))
  refine ⟨_, if_neg (by simp [hmine]), ?_⟩
  rw [hoffset, hts]
  exact ⟨hsame.measured (measure_measured _ _ _ _), hkept.2.2.1.trans (pathDelay_forwardSync _ _ _)⟩

/-- The effect of a selected edge of PPS_IN at the instant the counter stands at (R117). -/
def ppsTaken (s : State) : Out :=
  if timeState (wr64 s Reg.TIME_PPS_IN_STAMP (now s)) = timeUnset then .next (wr64 s Reg.TIME_PPS_IN_STAMP (now s))
  else .next (Machine.measure 4 (if ((s.tai.toNat % 4000000000 : Nat) : Int) ≤ 2000000000
      then -((s.tai.toNat % 4000000000 : Nat) : Int) else 4000000000 - ((s.tai.toNat % 4000000000 : Nat) : Int)) 2000
    (wr64 s Reg.TIME_PPS_IN_STAMP (now s)))

theorem sameTime_stamp (s : State) : SameTime s (wr64 s Reg.TIME_PPS_IN_STAMP (now s)) := by
  refine ⟨rfl, rfl, rfl, rfl, fun a ha => ?_⟩
  simp only [List.mem_cons, List.not_mem_nil, or_false, not_or] at ha
  exact rd_wr64_ne s _ ha.1 ha.2

theorem execPpsInEdge_eq (fall : Bool) (e : BitVec 66) (s : State) : exec (.ppsInEdge ⟨fall, e⟩) s =
    if flg (advanceTo s e.toNat) Reg.TIME_PPS F.TIME_PPS_in_en = true ∧ flg (advanceTo s e.toNat) Reg.TIME_PPS
      F.TIME_PPS_in_edge = fall then ppsTaken (advanceTo s e.toNat) else .next (advanceTo s e.toNat) := by
  change execPpsInEdge ⟨fall, e⟩ s = _
  unfold execPpsInEdge ppsTaken
  generalize advanceTo s e.toNat = x
  by_cases hen : flg x Reg.TIME_PPS F.TIME_PPS_in_en = true
  · by_cases hfall : flg x Reg.TIME_PPS F.TIME_PPS_in_edge = fall
    · exact (if_neg (by simp [hen, hfall])).trans (if_pos ⟨hen, hfall⟩).symm
    · exact (if_pos (by simp [hfall])).trans (if_neg fun h => hfall h.2).symm
  · exact (if_pos (by simp [hen])).trans (if_neg fun h => hen h.1).symm

theorem ppsTaken_set {s : State} (h : timeState s ≠ timeUnset) : ppsTaken s = .next (Machine.measure 4
    (if ((s.tai.toNat % 4000000000 : Nat) : Int) ≤ 2000000000 then -((s.tai.toNat % 4000000000 : Nat) : Int)
      else 4000000000 - ((s.tai.toNat % 4000000000 : Nat) : Int)) 2000 (wr64 s Reg.TIME_PPS_IN_STAMP (now s))) :=
  if_neg ((sameTime_stamp s).timeState ▸ h)

/-- Settles O27: PTP_SYNC, TIMING and PPS_IN_EDGE each hand an offset to `measure`. -/
theorem timeMeasurements : Obligations.TimeMeasurements := by
  refine ⟨fun p x s hclear => ?_, fun p th s hclear => ?_, fun fall e s => ?_⟩
  · intro s1 at'
    have hrun : exec (.ptpSync p x) s = ptpSync p at' x s1 := by
      change execPtpSync p x s = _
      unfold execPtpSync
      dsimp only
      rw [hclear.1]
      simp only [Bool.false_eq_true, false_or, if_false]
      exact arrives_clear (clear_advanceTo hclear)
    rw [hrun]
    by_cases hmine : ptpMine x.domain x.udp s = true
    · obtain ⟨t, ht, hm, hdelay⟩ := ptpSync_measured p at' x s1 hmine
      exact ⟨t, ht, fun h => absurd (h.symm.trans hmine) (by decide), fun _ => ⟨hm, hdelay⟩⟩
    · have hother : ptpMine x.domain x.udp s1 = false := eq_false_of_ne_true hmine
      exact ⟨s1, if_pos (by rw [hother]; rfl), fun _ => rfl, fun h => absurd h hmine⟩
  · intro inUse
    have hrun : exec (.timing p th) s = timing p th s := arrives_clear hclear
    rw [hrun]
    have hcond : inUse ↔ fld s Reg.DPX_STATUS F.DPX_STATUS_role = 2 ∧ (fbit s Reg.DPX_STATUS F.DPX_STATUS_path_up p &&
        (p.val == 0 || !fbit s Reg.DPX_STATUS F.DPX_STATUS_path_up 0)) = true := by
      have hp : p.val = 0 ↔ p = 0 := by omega
      simp only [inUse, Bool.and_eq_true, Bool.or_eq_true, beq_iff_eq, hp, Bool.not_eq_true']
    by_cases huse : inUse
    · exact ⟨_, if_pos (hcond.1 huse), fun h => absurd huse h, fun _ => measure_measured _ _ _ _⟩
    · exact ⟨s, if_neg (fun h => huse (hcond.2 h)), fun _ => rfl, fun h => absurd h huse⟩
  · intro s1 frac
    by_cases hedge : flg s Reg.TIME_PPS F.TIME_PPS_in_en = true ∧ flg s Reg.TIME_PPS F.TIME_PPS_in_edge = fall
    · obtain ⟨hen, hfall⟩ := hedge
      have hrun : exec (.ppsInEdge ⟨fall, e⟩) s = ppsTaken s1 := (execPpsInEdge_eq fall e s).trans (if_pos ⟨hen, hfall⟩)
      have hoff : ¬ (flg s Reg.TIME_PPS F.TIME_PPS_in_en = false ∨ flg s Reg.TIME_PPS F.TIME_PPS_in_edge ≠ fall) := by
        simp [hen, hfall]
      by_cases hset : timeState s1 = timeUnset
      · refine ⟨_, hrun.trans (if_pos ((sameTime_stamp s1).timeState.trans hset)), fun h => absurd h hoff, fun _ _ =>
          ⟨rd64_wr64 _ _ _, fun h => absurd hset h⟩⟩
      · refine ⟨_, hrun.trans (ppsTaken_set hset), fun h => absurd h hoff, fun _ _ => ⟨?_, fun _ => ?_⟩⟩
        · exact (measure_kept _ _ _ _).2.2.2.1.trans (rd64_wr64 _ _ _)
        · exact (sameTime_stamp s1).measured (measure_measured _ _ _ _)
    · exact ⟨s1, (execPpsInEdge_eq fall e s).trans (if_neg hedge), fun _ => rfl, fun hen hfall => absurd ⟨hen, hfall⟩ hedge⟩

end Sys2Proof.Proofs
end


section
/-! PROOFS. Sources of time: best masters, lost sources and PPS_OUT (R112 to R115, R117). -/

namespace Sys2Proof.Machine

open Sys2Proof Sys2Proof.Safety Sys2Proof.Laws

/-! ### Instants (R32, R117) -/

/-- The counter reaches an instant that it has not passed at the first tick at or after it. -/
theorem advanceTo_reaches {s : State} {q : Nat} (h : s.tai.toNat ≤ q) (hfit : q + 5 ≤ 2 ^ 66) :
    q ≤ (advanceTo s q).tai.toNat ∧ (advanceTo s q).tai.toNat < q + 5 := by
  have hsum : (advanceTo s q).tai.toNat = s.tai.toNat + 5 * ticksTo s q := by
    rw [advanceTo, BitVec.toNat_add, BitVec.toNat_ofNat]
    unfold ticksTo
    omega
  rw [hsum, ticksTo]
  omega

/-! ### The best master (R113, R115) -/

/-- The choice of the best master, once a port's best is what it is (R115). -/
def chooseMaster (port : Fin 2) (s : State) : Out :=
  if ownWins s then .next (becomeGrandmaster port s)
  else
    match bestMaster s with
    | none => .next s
    | some m => .next (followMaster m.1 m.2 s)

/-- What the choice rests on is as in another state: the masters heard, the valid sources and the registers. -/
structure SameMasters (s x : State) : Prop where
  best : x.time.best = s.time.best
  valid : x.time.valid = s.time.valid
  regs : ∀ a, rd x a = rd s a
  log : x.log = s.log
  tai : x.tai = s.tai

theorem sameMasters_newMaster (p : Fin 2) (old new : Option Announce) (s : State) : SameMasters s (newMaster p old new s) := by
  unfold newMaster whenS
  dsimp only
  split <;> exact ⟨rfl, rfl, fun _ => rfl, rfl, rfl⟩

section SameMasters

variable {s x : State} (h : SameMasters s x)
include h

theorem SameMasters.bestMaster : bestMaster x = bestMaster s := by
  unfold Machine.bestMaster
  rw [h.best]

theorem SameMasters.ownWins : ownWins x = ownWins s := by
  have hown : ownAnnounce x = ownAnnounce s := by
    unfold ownAnnounce
    rw [fld_of_rd (h.regs _), fld_of_rd (h.regs _)]
  unfold Machine.ownWins
  rw [h.bestMaster, hown, flg_of_rd (h.regs _)]

end SameMasters

theorem best_toTimeState (n : Nat) (s : State) : (toTimeState n s).time.best = s.time.best := by
  unfold toTimeState
  dsimp only
  split <;> rfl

theorem log_toTimeState (n : Nat) (s : State) : (toTimeState n s).log = s.log := by
  unfold toTimeState
  dsimp only
  split <;> rfl

theorem best_takeSource (n : Nat) (s : State) : (takeSource n s).time.best = s.time.best := by
  unfold takeSource
  split <;> rfl

theorem log_takeSource (n : Nat) (s : State) : (takeSource n s).log = s.log := by
  unfold takeSource
  split <;> rfl

theorem timeSource_takeSource_lt {n : Nat} (s : State) (h : n < 8) : timeSource (takeSource n s) = n := by
  unfold takeSource
  split
  · assumption
  · exact (fld_setF s _ _ _ (by decide)).trans (Nat.mod_eq_of_lt h)

theorem timeSource_toTimeState (n : Nat) (s : State) : timeSource (toTimeState n s) = timeSource s := by
  unfold toTimeState timeSource
  dsimp only
  rw [fld_setF_disj _ _ _ _ _ (by decide), fld_setF_disj _ _ _ _ _ (by decide)]
  split <;> rfl

theorem holdover_toTimeState (n : Nat) (s : State) : flg (toTimeState n s) Reg.TIME_STATE F.TIME_STATE_holdover =
    !(n == timeLocked || n == timeGrandmaster) := by
  unfold toTimeState
  dsimp only
  rw [flg_setF _ _ _ _ (by decide)]
  cases n == timeLocked || n == timeGrandmaster <;> rfl

theorem becomeGrandmaster_stays {p : Fin 2} {s : State} (h : flg s Reg.TIME_SRC_CFG F.TIME_SRC_CFG_master_capable = false ∨
    timeState s = timeUnset ∨ timeState s = timeGrandmaster) : becomeGrandmaster p s = s := by
  refine if_neg ?_
  rintro ⟨hcap, hunset, hgm⟩
  rcases h with h | h | h
  · exact absurd (h.symm.trans hcap) (by decide)
  · exact hunset h
  · exact hgm h

/-- GM_CHANGED, with the identity shown. -/
def showOwn (p : Fin 2) (s : State) : State :=
  logEvent 0x2104 p (Config.clockIdentity.extractLsb' 0 32) (wr64 s Reg.TIME_GM_ID Config.clockIdentity)

theorem becomeGrandmaster_takes {p : Fin 2} {s : State} (hcap : flg s Reg.TIME_SRC_CFG F.TIME_SRC_CFG_master_capable = true)
    (hunset : timeState s ≠ timeUnset) (hgm : timeState s ≠ timeGrandmaster) : becomeGrandmaster p s =
      toTimeState timeGrandmaster (takeSource
        (if flg (showOwn p s) Reg.TIME_PPS F.TIME_PPS_in_en && (showOwn p s).time.valid[4] then 4 else 0) (showOwn p s)) :=
  if_pos ⟨hcap, hunset, hgm⟩

theorem rd_showOwn {p : Fin 2} {s : State} (hroom : Room 1 s) {a : Nat} (ha : a ∉ [Reg.TIME_GM_ID, Reg.TIME_GM_ID + 4]) :
    rd (showOwn p s) a = rd s a := by
  simp only [List.mem_cons, List.not_mem_nil, or_false, not_or] at ha
  unfold showOwn
  exact (rd_logEvent_room _ _ _ _ (by exact hroom) a).trans (rd_wr64_ne s _ ha.1 ha.2)

theorem time_showOwn (p : Fin 2) (s : State) : (showOwn p s).time = s.time := logEvent_time ..

/-- What a part that becomes grandmaster shows and logs (R115). -/
theorem becomeGrandmaster_effect {p : Fin 2} {s : State} (hroom : Room 1 s)
    (hcap : flg s Reg.TIME_SRC_CFG F.TIME_SRC_CFG_master_capable = true)
    (hunset : timeState s ≠ timeUnset) (hgm : timeState s ≠ timeGrandmaster) :
    let t := becomeGrandmaster p s
    timeState t = timeGrandmaster ∧ flg t Reg.TIME_STATE F.TIME_STATE_holdover = false ∧
      timeSource t = (if flg s Reg.TIME_PPS F.TIME_PPS_in_en = true ∧ s.time.valid[4] = true then 4 else 0) ∧
      rd64 t Reg.TIME_GM_ID = Config.clockIdentity ∧ Logged [(0x2104, p, Config.clockIdentity.extractLsb' 0 32)] s t ∧
      t.time.best = s.time.best ∧ OnlyRegs [Reg.TIME_GM_ID, Reg.TIME_GM_ID + 4, Reg.TIME_STATE] s t := by
  intro t
  have ht : t = _ := becomeGrandmaster_takes hcap hunset hgm
  have hlogged : Logged [(0x2104, p, Config.clockIdentity.extractLsb' 0 32)] s (showOwn p s) := logged_logEvent _ _ _ rfl hroom
  have hpps : (if flg (showOwn p s) Reg.TIME_PPS F.TIME_PPS_in_en && (showOwn p s).time.valid[4] then 4 else 0 : Nat) =
      if flg s Reg.TIME_PPS F.TIME_PPS_in_en = true ∧ s.time.valid[4] = true then 4 else 0 := by
    rw [flg_of_rd (rd_showOwn hroom (by decide)), time_showOwn]
    simp only [Bool.and_eq_true]
  rw [hpps] at ht
  rw [ht]
  refine ⟨timeState_toTimeState _ _ (by decide), holdover_toTimeState _ _, ?_, ?_, ?_, ?_, fun a ha => ?_⟩
  · rw [timeSource_toTimeState, timeSource_takeSource_lt _ (by split <;> decide)]
  · have hid : rd64 (showOwn p s) Reg.TIME_GM_ID = Config.clockIdentity :=
      (rd64_of_rd (rd_logEvent_room _ _ _ _ (by exact hroom) _) (rd_logEvent_room _ _ _ _ (by exact hroom) _)).trans
        (rd64_wr64 s _ _)
    exact (rd64_of_rd ((toTimeState_onlyRegs _ _ _ (by decide)).trans (takeSource_onlyRegs _ _ _ (by decide)))
      ((toTimeState_onlyRegs _ _ _ (by decide)).trans (takeSource_onlyRegs _ _ _ (by decide)))).trans hid
  · exact logged_congr hlogged ((log_toTimeState _ _).trans (log_takeSource _ _)) ((tai_toTimeState _ _).trans (tai_takeSource _ _))
  · rw [best_toTimeState, best_takeSource, time_showOwn]
  · simp only [List.mem_cons, List.not_mem_nil, or_false, not_or] at ha
    obtain ⟨hlow, hhigh, hstate⟩ := ha
    rw [toTimeState_onlyRegs _ _ a (by simpa using hstate), takeSource_onlyRegs _ _ a (by simpa using hstate),
      rd_showOwn hroom (by simp [hlow, hhigh])]

/-- The master's identity and UTC data shown, and logged where the identity differs. -/
def showMaster (q : Fin 2) (x : Announce) (s : State) : State :=
  whenS (rd64 s Reg.TIME_GM_ID != x.id) (logEvent 0x2104 q (x.id.extractLsb' 0 32))
    (setF (setF (wr64 s Reg.TIME_GM_ID x.id) Reg.TIME_UTC_OFFSET F.TIME_UTC_OFFSET_valid (b2n x.utcValid)) Reg.TIME_UTC_OFFSET
      F.TIME_UTC_OFFSET_offset x.utc.toNat)

theorem followMaster_eq (q : Fin 2) (x : Announce) (s : State) : followMaster q x s =
    if timeState (showMaster q x s) = timeGrandmaster then toTimeState timeHoldover (takeSource 0 (showMaster q x s))
    else showMaster q x s := rfl

theorem rd_showMaster {q : Fin 2} {x : Announce} {s : State} (hroom : Room 1 s) (a : Nat) : rd (showMaster q x s) a =
    rd (setF (setF (wr64 s Reg.TIME_GM_ID x.id) Reg.TIME_UTC_OFFSET F.TIME_UTC_OFFSET_valid (b2n x.utcValid)) Reg.TIME_UTC_OFFSET
      F.TIME_UTC_OFFSET_offset x.utc.toNat) a := by
  unfold showMaster whenS
  split
  · exact rd_logEvent_room _ _ _ _ (by exact hroom) a
  · rfl

theorem time_showMaster (q : Fin 2) (x : Announce) (s : State) : (showMaster q x s).time = s.time := by
  unfold showMaster whenS
  split
  · exact logEvent_time ..
  · rfl

theorem logged_showMaster {q : Fin 2} {x : Announce} {s : State} (hroom : Room 1 s) :
    Logged (if rd64 s Reg.TIME_GM_ID = x.id then [] else [(0x2104, q, x.id.extractLsb' 0 32)]) s (showMaster q x s) := by
  unfold showMaster whenS
  by_cases hid : rd64 s Reg.TIME_GM_ID = x.id
  · rw [if_pos hid, if_neg (by simp [hid])]
    exact logged_nil rfl
  · rw [if_neg hid, if_pos (by simp [hid])]
    exact logged_logEvent _ _ _ rfl hroom

theorem timeState_showMaster {q : Fin 2} {x : Announce} {s : State} (hroom : Room 1 s) :
    timeState (showMaster q x s) = timeState s :=
  fld_of_rd ((rd_showMaster hroom _).trans (by
    rw [rd_setF_ne _ _ _ (by decide), rd_setF_ne _ _ _ (by decide), rd_wr64_ne _ _ (by decide) (by decide)])) _

/-- What another clock's being the best master shows and logs (R115). -/
theorem followMaster_effect {q : Fin 2} {x : Announce} {s : State} (hroom : Room 1 s) :
    let t := followMaster q x s
    rd64 t Reg.TIME_GM_ID = x.id ∧ flg t Reg.TIME_UTC_OFFSET F.TIME_UTC_OFFSET_valid = x.utcValid ∧
      fld t Reg.TIME_UTC_OFFSET F.TIME_UTC_OFFSET_offset = x.utc.toNat % 2 ^ F.TIME_UTC_OFFSET_offset.w ∧
      timeState t = (if timeState s = timeGrandmaster then timeHoldover else timeState s) ∧
      Logged (if rd64 s Reg.TIME_GM_ID = x.id then [] else [(0x2104, q, x.id.extractLsb' 0 32)]) s t ∧
      t.time.best = s.time.best ∧
      OnlyRegs [Reg.TIME_GM_ID, Reg.TIME_GM_ID + 4, Reg.TIME_UTC_OFFSET, Reg.TIME_STATE] s t := by
  intro t
  have hstate : OnlyRegs [Reg.TIME_STATE] (showMaster q x s) t := by
    intro a ha
    change rd (followMaster q x s) a = _
    rw [followMaster_eq]
    split
    · rw [toTimeState_onlyRegs _ _ a ha, takeSource_onlyRegs _ _ a ha]
    · rfl
  have hsame : t.log = (showMaster q x s).log ∧ t.tai = (showMaster q x s).tai ∧ t.time.best = (showMaster q x s).time.best := by
    change (followMaster q x s).log = _ ∧ (followMaster q x s).tai = _ ∧ (followMaster q x s).time.best = _
    rw [followMaster_eq]
    split
    · rw [log_toTimeState, log_takeSource, tai_toTimeState, tai_takeSource, best_toTimeState, best_takeSource]
      exact ⟨rfl, rfl, rfl⟩
    · exact ⟨rfl, rfl, rfl⟩
  obtain ⟨hlog, htai, hbest⟩ := hsame
  have hutc : rd t Reg.TIME_UTC_OFFSET = putF (putF (rd s Reg.TIME_UTC_OFFSET) F.TIME_UTC_OFFSET_valid (b2n x.utcValid))
      F.TIME_UTC_OFFSET_offset x.utc.toNat := by
    rw [hstate _ (by decide), rd_showMaster hroom, rd_setF, rd_setF, rd_wr64_ne _ _ (by decide) (by decide)]
  refine ⟨?_, ?_, ?_, ?_, logged_congr (logged_showMaster hroom) hlog htai, ?_, fun a ha => ?_⟩
  · refine (rd64_of_rd ((hstate _ (by decide)).trans (rd_showMaster hroom _)) ((hstate _ (by decide)).trans
      (rd_showMaster hroom _))).trans ?_
    refine (rd64_of_rd ?_ ?_).trans (rd64_wr64 s _ _)
    all_goals rw [rd_setF_ne _ _ _ (by decide), rd_setF_ne _ _ _ (by decide)]
  · rw [flg, fld, hutc, getF_putF_ne _ _ _ _ (by decide), getF_putF _ _ _ (by decide)]
    cases x.utcValid <;> rfl
  · rw [fld, hutc, getF_putF _ _ _ (by decide)]
  · change timeState (followMaster q x s) = _
    rw [followMaster_eq, timeState_showMaster hroom]
    split
    · exact timeState_toTimeState _ _ (by decide)
    · exact timeState_showMaster hroom
  · rw [hbest, time_showMaster]
  · simp only [List.mem_cons, List.not_mem_nil, or_false, not_or] at ha
    obtain ⟨hlow, hhigh, hoff, hst⟩ := ha
    rw [hstate a (by simpa using hst), rd_showMaster hroom, rd_setF_ne _ _ _ hoff, rd_setF_ne _ _ _ hoff,
      rd_wr64_ne _ _ hlow hhigh]

/-- The best Announce of a port after one arrives, or after its receipt ran out. -/
def bestAfter (p : Fin 2) (x : Option Announce) (s : State) : Option Announce :=
  match x with
  | none => none
  | some a => if ptpMine a.domain a.udp s then keepBest s.time.best[p] a else s.time.best[p]

/-- The state with a port's best Announce as it is now. -/
def withBest (p : Fin 2) (b : Option Announce) (s : State) : State := { s with time := { s.time with best := s.time.best.set p b } }

theorem ptpAnnounce_eq (p : Fin 2) (x : Option Announce) (s : State) : ptpAnnounce p x s =
    chooseMaster p (newMaster p s.time.best[p] (bestAfter p x s) (withBest p (bestAfter p x s) s)) := by
  cases x <;> rfl

theorem execPtpAnnounce_clear {p : Fin 2} {x : Option Announce} {s : State} (h : x ≠ none → Clear (portUnit p) s) :
    exec (.ptpAnnounce p x) s = ptpAnnounce p x s := by
  change execPtpAnnounce p x s = _
  cases x with
  | none => rfl
  | some a => exact arrives_clear (h nofun)

theorem best_withBest (p : Fin 2) (b : Option Announce) (s : State) :
    (withBest p b s).time.best[p] = b ∧ (withBest p b s).time.best[1 - p] = s.time.best[1 - p] :=
  ⟨Vector.getElem_set_self _, Vector.getElem_set_ne p.isLt (1 - p).isLt (by omega)⟩

/-! ### A source is lost (R112, R114) -/

/-- Three intervals after the last measurement of a source, where there was one. -/
def lossReached (src : Fin 5) (s : State) : State :=
  match s.time.marks[src] with | none => s | some m => reachLocal (m.at' + 3 * m.ts * 500000) s

/-- The state with the source no longer valid, at the instant it was. -/
def invalid (src : Fin 5) (s : State) : State := { s with time := { s.time with valid := s.time.valid.set src false } }

/-- The state when a source's loss is noticed: its last measurement three intervals old, and the source no longer valid. -/
def sourceGone (src : Fin 5) (s : State) : State := invalid src (lossReached src s)

theorem reachLocal_kept (t : Nat) (s : State) : (reachLocal t s).time = s.time ∧ (reachLocal t s).regs = s.regs ∧
    (reachLocal t s).log = s.log := ⟨rfl, rfl, rfl⟩

theorem lossReached_kept (src : Fin 5) (s : State) : (lossReached src s).time = s.time ∧ (lossReached src s).regs = s.regs ∧
    (lossReached src s).log = s.log := by
  unfold lossReached
  split
  · exact ⟨rfl, rfl, rfl⟩
  · exact reachLocal_kept _ s

theorem lossReached_at {src : Fin 5} {s : State} {m : SourceMark} (h : s.time.marks[src] = some m) :
    m.at' + 3 * m.ts * 500000 ≤ localNs (lossReached src s) := by
  unfold lossReached
  rw [h]
  exact localNs_reachLocal _ s

/-- The source taken next. -/
def nextSource (s : State) : Nat := if timeState s = timeGrandmaster then 0 else selectSource s

/-- The loss of the source in use, shown and logged, with the next one taken. -/
def sourceReplaced (src : Fin 5) (s : State) : State :=
  takeSource (nextSource s) (logN 0x2103 src (nextSource s) (setF s Reg.TIME_STATE F.TIME_STATE_source_lost_seen 1))

theorem execTimeSourceLost_used {src : Fin 5} {s : State} (hvalid : s.time.valid[src] = true) (hsrc : src ≠ 0)
    (huse : timeSource (sourceGone src s) = src.val) : exec (.timeSourceLost src) s = .next
      (if (nextSource (sourceGone src s) == 0 || !takeoverAgrees src (nextSource (sourceGone src s)) (sourceGone src s)) = true ∧
        (timeState (sourceReplaced src (sourceGone src s)) = timeLocked ∨
          timeState (sourceReplaced src (sourceGone src s)) = timeSlewing)
      then toTimeState timeHoldover (sourceReplaced src (sourceGone src s)) else sourceReplaced src (sourceGone src s)) := by
  have hrun : exec (.timeSourceLost src) s = _ := if_pos hvalid
  rw [hrun]
  refine (if_pos ⟨huse, hsrc⟩).trans ?_
  exact (apply_ite Host.Outcome.next _ _ _).symm

theorem execTimeSourceLost_unused {src : Fin 5} {s : State} (hvalid : s.time.valid[src] = true)
    (h : src = 0 ∨ timeSource (sourceGone src s) ≠ src.val) : exec (.timeSourceLost src) s = .next (sourceGone src s) := by
  have hrun : exec (.timeSourceLost src) s = _ := if_pos hvalid
  rw [hrun]
  refine if_neg ?_
  rintro ⟨huse, hsrc⟩
  exact h.elim hsrc fun hno => hno huse

/-- What the next source rests on is as before. -/
structure SameSources (s x : State) : Prop where
  best : x.time.best = s.time.best
  marks : x.time.marks = s.time.marks
  servo : x.time.servo = s.time.servo
  valid : x.time.valid = s.time.valid
  regs : ∀ a, rd x a = rd s a

theorem sameSources_sourceGone (src : Fin 5) (s : State) : SameSources (invalid src s) (sourceGone src s) := by
  obtain ⟨htime, hregs, -⟩ := lossReached_kept src s
  unfold sourceGone invalid
  generalize lossReached src s = x at *
  exact ⟨congrArg (·.best) htime, congrArg (·.marks) htime, congrArg (·.servo) htime, congrArg (·.valid.set src false) htime,
    fun a => congrArg (sget resetWord · a) hregs⟩

section SameSources

variable {s x : State} (h : SameSources s x)
include h

theorem SameSources.timeState : timeState x = timeState s := fld_of_rd (h.regs _) _

theorem SameSources.nextSource : nextSource x = nextSource s := by
  have hlist : sourceList x = sourceList s := by
    unfold sourceList
    rw [fld_of_rd (h.regs _), fld_of_rd (h.regs _), fld_of_rd (h.regs _), flg_of_rd (h.regs _), fld_of_rd (h.regs _)]
  have hselect : selectSource x = selectSource s := by
    unfold selectSource
    rw [hlist, h.valid]
  rw [Machine.nextSource, Machine.nextSource, h.timeState, hselect]

theorem SameSources.takeoverAgrees (src nxt : Nat) : takeoverAgrees src nxt x = takeoverAgrees src nxt s := by
  have hjump : jumpLimit x = jumpLimit s := by rw [jumpLimit, jumpLimit, h.regs]
  unfold Machine.takeoverAgrees
  rw [h.best, flg_of_rd (h.regs _), h.marks, h.servo, hjump]

end SameSources

theorem selectSource_lt (s : State) : selectSource s < 8 := by
  unfold selectSource
  cases hfind : (sourceList s).find? (fun c => 1 ≤ c && c ≤ 4 && (s.time.valid[c]?).getD false) with
  | none => decide
  | some c =>
    have hc := List.find?_some hfind
    simp only [Bool.and_eq_true, decide_eq_true_eq] at hc
    exact Nat.lt_of_le_of_lt hc.1.2 (by decide)

theorem nextSource_lt (s : State) : nextSource s < 8 := by
  unfold nextSource
  split
  · decide
  · exact selectSource_lt s

theorem lost_takeSource (src : Nat) (s : State) : flg (takeSource src s) Reg.TIME_STATE F.TIME_STATE_source_lost_seen =
    flg s Reg.TIME_STATE F.TIME_STATE_source_lost_seen := by
  unfold takeSource setServo
  split
  · rfl
  · exact flg_setF_disj s _ _ _ _ (by decide)

section SourceReplaced

variable {src : Fin 5} {s : State} (hroom : Room 1 s)
include hroom

theorem rd_sourceReplaced {a : Nat} (ha : a ≠ Reg.TIME_STATE) : rd (sourceReplaced src s) a = rd s a := by
  unfold sourceReplaced
  rw [takeSource_onlyRegs _ _ a (by simpa using ha)]
  exact (rd_logEvent_room _ _ _ _ (by exact hroom) a).trans (rd_setF_ne s _ _ ha)

theorem timeState_sourceReplaced : timeState (sourceReplaced src s) = timeState s := by
  unfold sourceReplaced
  rw [timeState_takeSource]
  exact (fld_of_rd (rd_logEvent_room _ _ _ _ (by exact hroom) _) _).trans (fld_setF_disj s _ _ _ _ (by decide))

theorem lost_sourceReplaced : flg (sourceReplaced src s) Reg.TIME_STATE F.TIME_STATE_source_lost_seen = true := by
  have hset : flg (logN 0x2103 src (nextSource s) (setF s Reg.TIME_STATE F.TIME_STATE_source_lost_seen 1)) Reg.TIME_STATE
      F.TIME_STATE_source_lost_seen = true :=
    (flg_of_rd (rd_logEvent_room _ _ _ _ (by exact hroom) _) _).trans (flg_setF s _ _ _ (by decide))
  unfold sourceReplaced
  rw [lost_takeSource]
  exact hset

theorem logged_sourceReplaced : Logged [(0x2103, src, BitVec.ofNat 32 (nextSource s))] s (sourceReplaced src s) := by
  have hlogged := logged_logN 0x2103 src (nextSource s) (setF_log Reg.TIME_STATE F.TIME_STATE_source_lost_seen 1) hroom
  unfold sourceReplaced
  generalize logN 0x2103 src (nextSource s) (setF s Reg.TIME_STATE F.TIME_STATE_source_lost_seen 1) = y at hlogged ⊢
  exact logged_congr hlogged (log_takeSource _ _) (tai_takeSource _ _)

omit hroom in
theorem valid_sourceReplaced : (sourceReplaced src s).time.valid = s.time.valid :=
  (sourcesKept_takeSource_valid _ _).1.trans (congrArg TimeState.valid (logEvent_time ..))

omit hroom in
theorem ticks_sourceReplaced : (sourceReplaced src s).ticks = s.ticks := by
  unfold sourceReplaced takeSource
  split
  · exact logEvent_ticks ..
  · exact logEvent_ticks ..

end SourceReplaced

theorem valid_toTimeState (n : Nat) (s : State) : (toTimeState n s).time.valid = s.time.valid := by
  unfold toTimeState
  dsimp only
  split <;> rfl

theorem ticks_toTimeState (n : Nat) (s : State) : (toTimeState n s).ticks = s.ticks := by
  unfold toTimeState
  dsimp only
  split <;> rfl

theorem log_sourceGone (src : Fin 5) (s : State) : (sourceGone src s).log = s.log := by
  obtain ⟨-, -, hlog⟩ := lossReached_kept src s
  unfold sourceGone
  generalize lossReached src s = x at hlog ⊢
  exact hlog

theorem localNs_sourceGone {src : Fin 5} {s : State} {m : SourceMark} (h : s.time.marks[src] = some m) :
    m.at' + 3 * m.ts * 500000 ≤ localNs (sourceGone src s) := by
  have hat := lossReached_at h
  unfold sourceGone
  generalize lossReached src s = x at hat ⊢
  exact hat

theorem flg_toTimeState_lost (n : Nat) (s : State) : flg (toTimeState n s) Reg.TIME_STATE F.TIME_STATE_source_lost_seen =
    flg s Reg.TIME_STATE F.TIME_STATE_source_lost_seen := by
  unfold toTimeState
  dsimp only
  rw [flg_setF_disj _ _ _ _ _ (by decide), flg_setF_disj _ _ _ _ _ (by decide)]
  split <;> rfl

end Sys2Proof.Machine

namespace Sys2Proof.Proofs

open Sys2Proof Sys2Proof.Machine Sys2Proof.Safety Sys2Proof.Laws

theorem ppsOutHigh_risen (x : State) : ppsOutHigh { x with time := { x.time with ppsRise := some x.ticks } } =
    decide (0 < fld x Reg.TIME_PPS F.TIME_PPS_width) := by
  have hrd : ∀ v : TimeState, fld { x with time := v } Reg.TIME_PPS F.TIME_PPS_width = fld x Reg.TIME_PPS F.TIME_PPS_width :=
    fun _ => rfl
  unfold ppsOutHigh
  dsimp only
  rw [hrd, ← Bool.decide_and, decide_eq_decide]
  omega

/-- The state after a second boundary of PPS_OUT, given the state `x` at that boundary. -/
def ppsRisen (x : State) : State :=
  if flg x Reg.TIME_PPS F.TIME_PPS_out_en then { x with time := { x.time with ppsRise := some x.ticks } } else x

theorem execPpsOutPulse_eq (s : State) : execPpsOutPulse s =
    .next (ppsRisen (advanceTo s ((s.tai.toNat + 3999999999) / 4000000000 * 4000000000))) := by
  unfold execPpsOutPulse ppsRisen
  exact (apply_ite Host.Outcome.next ..).symm

theorem ppsRisen_effect {s x : State} (htime : x.time = s.time) (hregs : ∀ a, rd x a = rd s a) :
    (ppsRisen x).tai = x.tai ∧ OnlyRegs [] s (ppsRisen x) ∧
      (flg s Reg.TIME_PPS F.TIME_PPS_out_en = true →
        ppsOutHigh (ppsRisen x) = decide (0 < fld s Reg.TIME_PPS F.TIME_PPS_width)) ∧
      (flg s Reg.TIME_PPS F.TIME_PPS_out_en = false → (ppsRisen x).time = s.time) := by
  unfold ppsRisen
  rw [flg_of_rd (hregs _), ← fld_of_rd (hregs Reg.TIME_PPS)]
  split
  next hen => exact ⟨rfl, fun a _ => hregs a, fun _ => ppsOutHigh_risen x, fun h => absurd (h.symm.trans hen) (by decide)⟩
  next hen => exact ⟨rfl, fun a _ => hregs a, fun h => absurd h hen, fun _ => htime⟩

theorem time_advanceTo (s : State) (q : Nat) : (advanceTo s q).time = s.time := rfl

theorem rd_advanceTo (s : State) (q a : Nat) : rd (advanceTo s q) a = rd s a := rfl

theorem announce_effect (p : Fin 2) (x : Option Announce) (s : State) (hclear : x ≠ none → Clear (portUnit p) s) (hroom : Room 1 s) :
    let b := bestAfter p x s
    let s' := withBest p b s
    ∃ t, exec (.ptpAnnounce p x) s = .next t ∧ t.time.best = s'.time.best ∧
      (ownWins s' = false → ∀ (q : Fin 2) (a : Announce), bestMaster s' = some (q, a) →
        rd64 t Reg.TIME_GM_ID = a.id ∧ flg t Reg.TIME_UTC_OFFSET F.TIME_UTC_OFFSET_valid = a.utcValid ∧
        fld t Reg.TIME_UTC_OFFSET F.TIME_UTC_OFFSET_offset = a.utc.toNat % 2 ^ F.TIME_UTC_OFFSET_offset.w ∧
        timeState t = (if timeState s = timeGrandmaster then timeHoldover else timeState s) ∧
        Logged (if rd64 s Reg.TIME_GM_ID = a.id then [] else [(0x2104, q, a.id.extractLsb' 0 32)]) s t) ∧
      (ownWins s' = true → flg s Reg.TIME_SRC_CFG F.TIME_SRC_CFG_master_capable = true → timeState s ≠ timeUnset →
        timeState s ≠ timeGrandmaster →
        timeState t = timeGrandmaster ∧ flg t Reg.TIME_STATE F.TIME_STATE_holdover = false ∧
        timeSource t = (if flg s Reg.TIME_PPS F.TIME_PPS_in_en = true ∧ s.time.valid[4] = true then 4 else 0) ∧
        rd64 t Reg.TIME_GM_ID = Config.clockIdentity ∧ Logged [(0x2104, p, Config.clockIdentity.extractLsb' 0 32)] s t) ∧
      (ownWins s' = true → flg s Reg.TIME_SRC_CFG F.TIME_SRC_CFG_master_capable = false ∨ timeState s = timeUnset ∨
        timeState s = timeGrandmaster → t.log = s.log ∧ OnlyRegs [] s t) ∧
      OnlyRegs [Reg.TIME_GM_ID, Reg.TIME_GM_ID + 4, Reg.TIME_UTC_OFFSET, Reg.TIME_STATE] s t := by
  intro b s'
  have hrun := (execPtpAnnounce_clear hclear).trans (ptpAnnounce_eq p x s)
  have hsame := sameMasters_newMaster p s.time.best[p] b s'
  generalize newMaster p s.time.best[p] b s' = y at hsame hrun
  have hroom' : Room 1 y := by
    rw [Room, hsame.log]
    exact hroom
  have hstate : timeState y = timeState s := fld_of_rd (hsame.regs _) _
  have hlogged : ∀ {es t}, Logged es y t → Logged es s t := fun h => by
    rw [Logged, hsame.log] at h
    exact h
  have hregs : ∀ {rs t}, OnlyRegs rs y t → OnlyRegs rs s t := fun h a ha => (h a ha).trans (hsame.regs a)
  have hid : rd64 y Reg.TIME_GM_ID = rd64 s Reg.TIME_GM_ID := rd64_of_rd (hsame.regs _) (hsame.regs _)
  by_cases hwin : ownWins s' = true
  · have hrun' : exec (.ptpAnnounce p x) s = .next (becomeGrandmaster p y) := hrun.trans (if_pos (hsame.ownWins.trans hwin))
    refine ⟨_, hrun', ?_, fun h => absurd (h.symm.trans hwin) (by decide), fun _ hcap hunset hgm => ?_, fun _ hno => ?_, ?_⟩
    · by_cases hall : flg y Reg.TIME_SRC_CFG F.TIME_SRC_CFG_master_capable = true ∧ timeState y ≠ timeUnset ∧
          timeState y ≠ timeGrandmaster
      · obtain ⟨hcap, hunset, hgm⟩ := hall
        obtain ⟨-, -, -, -, -, hbest, -⟩ := becomeGrandmaster_effect (p := p) hroom' hcap hunset hgm
        exact hbest.trans hsame.best
      · rw [show becomeGrandmaster p y = y from if_neg hall]
        exact hsame.best
    · obtain ⟨hst, hhold, hsource, hgmid, hlog, -, -⟩ := becomeGrandmaster_effect (p := p) hroom'
        ((flg_of_rd (hsame.regs _) _).trans hcap) (hstate ▸ hunset) (hstate ▸ hgm)
      rw [flg_of_rd (hsame.regs _), hsame.valid] at hsource
      exact ⟨hst, hhold, hsource, hgmid, hlogged hlog⟩
    · have hcfg : flg y Reg.TIME_SRC_CFG F.TIME_SRC_CFG_master_capable = flg s Reg.TIME_SRC_CFG F.TIME_SRC_CFG_master_capable :=
        flg_of_rd (hsame.regs _) _
      rw [← hstate, ← hcfg] at hno
      rw [becomeGrandmaster_stays hno]
      exact ⟨hsame.log, hregs fun _ _ => rfl⟩
    · by_cases hall : flg y Reg.TIME_SRC_CFG F.TIME_SRC_CFG_master_capable = true ∧ timeState y ≠ timeUnset ∧
          timeState y ≠ timeGrandmaster
      · obtain ⟨hcap, hunset, hgm⟩ := hall
        obtain ⟨-, -, -, -, -, -, honly⟩ := becomeGrandmaster_effect (p := p) hroom' hcap hunset hgm
        refine hregs fun a ha => honly a fun hmem => ha ?_
        simp only [List.mem_cons, List.not_mem_nil, or_false] at hmem ⊢
        tauto
      · rw [show becomeGrandmaster p y = y from if_neg hall]
        exact hregs fun _ _ => rfl
  · have hlose : ownWins s' = false := eq_false_of_ne_true hwin
    have hrun' : exec (.ptpAnnounce p x) s = match bestMaster s' with
        | none => .next y
        | some m => .next (followMaster m.1 m.2 y) := by
      rw [hrun, chooseMaster, if_neg (by rw [hsame.ownWins]; exact hwin), hsame.bestMaster]
    cases hm : bestMaster s' with
    | none =>
      rw [hm] at hrun'
      exact ⟨y, hrun', hsame.best, fun _ _ _ h => (Option.some_ne_none _ h.symm).elim, fun h => absurd h hwin, fun h => absurd h hwin,
        hregs fun _ _ => rfl⟩
    | some m =>
      rw [hm] at hrun'
      obtain ⟨hgmid, hutc, hoff, hst, hlog, hbest, honly⟩ := followMaster_effect (q := m.1) (x := m.2) hroom'
      refine ⟨_, hrun', hbest.trans hsame.best, fun _ q a h => ?_, fun h => absurd h hwin, fun h => absurd h hwin, hregs honly⟩
      cases h
      rw [hstate] at hst
      rw [hid] at hlog
      exact ⟨hgmid, hutc, hoff, hst, hlogged hlog⟩

theorem sourceLost_effect (src : Fin 5) (s : State) (hvalid : s.time.valid[src] = true) (hroom : Room 1 s) :
    ∃ t, exec (.timeSourceLost src) s = .next t ∧ t.time.valid = s.time.valid.set src false ∧ OnlyRegs [Reg.TIME_STATE] s t ∧
      (∀ m, s.time.marks[src] = some m → m.at' + 3 * m.ts * 500000 ≤ localNs t) ∧
      (src ≠ 0 → timeSource s = src.val → timeSource t = nextSource (invalid src s) ∧
        flg t Reg.TIME_STATE F.TIME_STATE_source_lost_seen = true ∧
        Logged [(0x2103, src, BitVec.ofNat 32 (nextSource (invalid src s)))] s t ∧
        timeState t = (if (nextSource (invalid src s) = 0 ∨ takeoverAgrees src (nextSource (invalid src s)) (invalid src s) = false) ∧
          (timeState s = timeLocked ∨ timeState s = timeSlewing) then timeHoldover else timeState s)) ∧
      (src = 0 ∨ timeSource s ≠ src.val → OnlyRegs [] s t ∧ t.log = s.log) := by
  have hsame := sameSources_sourceGone src s
  have hlog := log_sourceGone src s
  have hroom' : Room 1 (sourceGone src s) := by
    rw [Room, hlog]
    exact hroom
  have hsource : timeSource (sourceGone src s) = timeSource s := fld_of_rd (hsame.regs _) _
  have hlocal : ∀ m, s.time.marks[src] = some m → m.at' + 3 * m.ts * 500000 ≤ localNs (sourceGone src s) :=
    fun m hm => localNs_sourceGone hm
  by_cases huse : src ≠ 0 ∧ timeSource s = src.val
  · obtain ⟨hsrc, huse⟩ := huse
    have hrun := execTimeSourceLost_used hvalid hsrc (hsource.trans huse)
    rw [hsame.nextSource, hsame.takeoverAgrees, timeState_sourceReplaced hroom', hsame.timeState] at hrun
    have hnext := logged_sourceReplaced (src := src) hroom'
    rw [hsame.nextSource, Logged, hlog] at hnext
    have hnxt : timeSource (sourceReplaced src (sourceGone src s)) = nextSource (invalid src s) := by
      rw [← hsame.nextSource]
      exact timeSource_takeSource_lt _ (nextSource_lt _)
    have hlost := lost_sourceReplaced (src := src) hroom'
    have hst : timeState (sourceReplaced src (sourceGone src s)) = timeState s :=
      (timeState_sourceReplaced hroom').trans (fld_of_rd (hsame.regs _) _)
    have hval : (sourceReplaced src (sourceGone src s)).time.valid = s.time.valid.set src false :=
      valid_sourceReplaced.trans hsame.valid
    have hticks : localNs (sourceReplaced src (sourceGone src s)) = localNs (sourceGone src s) := by
      rw [localNs, localNs, ticks_sourceReplaced]
    have honly : OnlyRegs [Reg.TIME_STATE] s (sourceReplaced src (sourceGone src s)) := fun a ha =>
      (rd_sourceReplaced hroom' (by simpa using ha)).trans (hsame.regs a)
    have hcond : ((nextSource (invalid src s) == 0 || !takeoverAgrees src (nextSource (invalid src s)) (invalid src s)) = true ∧
        (timeState (invalid src s) = timeLocked ∨ timeState (invalid src s) = timeSlewing)) ↔
        ((nextSource (invalid src s) = 0 ∨ takeoverAgrees src (nextSource (invalid src s)) (invalid src s) = false) ∧
          (timeState s = timeLocked ∨ timeState s = timeSlewing)) := by
      have hinv : timeState (invalid src s) = timeState s := rfl
      rw [hinv, Bool.or_eq_true, beq_iff_eq, Bool.not_eq_true']
    rw [if_congr hcond rfl rfl] at hrun
    refine ⟨_, hrun, ?_⟩
    generalize sourceReplaced src (sourceGone src s) = y at hnxt hlost hst hval hticks honly hnext
    split
    · refine ⟨(valid_toTimeState _ _).trans hval, fun a ha => (toTimeState_onlyRegs _ _ a ha).trans (honly a ha), fun m hm => ?_,
        fun _ _ => ⟨(timeSource_toTimeState _ _).trans hnxt, (flg_toTimeState_lost _ _).trans hlost, ?_, timeState_toTimeState _ _ (by decide)⟩,
        fun h => absurd h (by simp [hsrc, huse])⟩
      · rw [localNs, ticks_toTimeState]
        exact (hlocal m hm).trans hticks.ge
      · exact logged_congr hnext (log_toTimeState _ _) (tai_toTimeState _ _)
    · exact ⟨hval, honly, fun m hm => (hlocal m hm).trans hticks.ge, fun _ _ => ⟨hnxt, hlost, hnext, hst⟩,
        fun h => absurd h (by simp [hsrc, huse])⟩
  · have hno : src = 0 ∨ timeSource s ≠ src.val := by
      by_contra hboth
      exact huse ⟨fun h => hboth (.inl h), by_contra fun h => hboth (.inr h)⟩
    exact ⟨_, execTimeSourceLost_unused hvalid (hsource ▸ hno), hsame.valid, fun a _ => hsame.regs a, hlocal,
      fun hsrc hused => absurd ⟨hsrc, hused⟩ huse, fun _ => ⟨fun a _ => hsame.regs a, hlog⟩⟩

/-- Settles O28, by the choice of the best master and by the source that follows a lost one. -/
theorem timeSources : Obligations.TimeSources := by
  refine ⟨fun p x s hclear hroom => ?_, fun src s hvalid hroom => sourceLost_effect src s hvalid hroom, fun src s hvalid => ?_,
    fun s hfit => ?_⟩
  · obtain ⟨t, hrun, hbest, hrest⟩ := announce_effect p x s hclear hroom
    obtain ⟨hp, hq⟩ := best_withBest p (bestAfter p x s) s
    have hbest' : ∀ i : Fin 2, t.time.best[i] = (withBest p (bestAfter p x s) s).time.best[i] := fun i => by rw [hbest]
    exact ⟨t, hrun, (hbest' p).trans hp, (hbest' (1 - p)).trans hq, hrest⟩
  · exact if_neg (by simp [hvalid])
  · intro q
    have hreach := advanceTo_reaches (s := s) (q := q) (by omega) (by omega)
    obtain ⟨htai, hregs, hhigh, hoff⟩ := ppsRisen_effect (time_advanceTo s q) (rd_advanceTo s q)
    rw [← htai] at hreach
    exact ⟨_, execPpsOutPulse_eq s, hreach.1, hreach.2, hregs, hhigh, hoff⟩

end Sys2Proof.Proofs
end


section
/-! PROOFS. A commanded step of the counter (R126), and triggers (R128 to R130). -/

namespace Sys2Proof.Machine

open Sys2Proof Sys2Proof.Safety Sys2Proof.Laws

/-! ### A commanded step (R126) -/

theorem time_moveCounter (ms : Int) (s : State) : (moveCounter ms s).time =
    { s.time with lastBoundary := s.time.lastBoundary.map (fun l => (l + ms).toNat) } := by
  have hrec : (recTimeMoved s).time = s.time := keeps_of_ev (recTimeMoved_ev (foot_self _) (Ev.refl _ s)) (p := .time) rfl
  have hskip : ∀ y : State, (whenS (0 < ms) skipTriggers y).time = y.time := by
    intro y
    unfold whenS
    split
    · exact keeps_of_ev (skipTriggers_ev (foot_self _) (Ev.refl _ y)) (p := .time) rfl
    · rfl
  unfold moveCounter
  dsimp only
  rw [hskip]
  unfold shiftInstants
  rw [hrec]

theorem ticks_moveCounter (ms : Int) (s : State) : (moveCounter ms s).ticks = s.ticks :=
  keeps_of_ev (moveCounter_ev (foot_self _) (Ev.refl _ s)) (p := .ticks) rfl

theorem busReply_moveCounter (ms : Int) (s : State) : (moveCounter ms s).busReply = s.busReply :=
  keeps_of_ev (moveCounter_ev (foot_self _) (Ev.refl _ s)) (p := .busReply) rfl

/-- The cause for which a step is refused; 0 for none. -/
def stepCause (s : State) : Nat :=
  if anyEnergised s then 1 else if timeState s = timeUnset then 2 else if s.fab.change.isSome then 3 else 0

/-- The counter steps by whole milliseconds, with the servo's prediction. -/
def stepTaken (ms : Int) (s : State) : State :=
  let s := moveCounter ms (logEvent 0x2107 1 (satI32 ms) s)
  toTimeState timeSlewing (setServo { s.time.servo with
    pred := s.time.servo.pred - ms * 65536000000000, cand := none, candCount := 0 } s)

theorem writeTimeStep_go {v : Word} (s : State) (hgo : getF v F.TIME_STEP_go ≠ 0) : writeTimeStep v s =
    let x := setF s Reg.TIME_STEP F.TIME_STEP_step_ms (getF v F.TIME_STEP_step_ms)
    let ms := (v.extractLsb' 1 31).toInt
    if stepCause x ≠ 0 then
      logEvent 0x2108 (stepCause x) (satI32 ms) (setF x Reg.TIME_STATE F.TIME_STATE_step_refused 1)
    else stepTaken ms x := by
  unfold writeTimeStep
  rw [if_neg hgo]
  rfl

theorem stepCause_setStep (v : Nat) (s : State) : stepCause (setF s Reg.TIME_STEP F.TIME_STEP_step_ms v) = stepCause s := by
  have henergised : anyEnergised (setF s Reg.TIME_STEP F.TIME_STEP_step_ms v) = anyEnergised s := by
    rw [anyEnergised, anyEnergised, fld_setF_ne s _ _ _ (by decide)]
  have hstate : timeState (setF s Reg.TIME_STEP F.TIME_STEP_step_ms v) = timeState s := fld_setF_ne s _ _ _ (by decide)
  rw [stepCause, stepCause, henergised, hstate, setF_fab]

theorem servo_toTimeState (n : Nat) (s : State) : (toTimeState n s).time.servo.pred = s.time.servo.pred ∧
    (toTimeState n s).time.servo.cand = s.time.servo.cand ∧ (toTimeState n s).time.servo.y = s.time.servo.y := by
  unfold toTimeState
  dsimp only
  split <;> exact ⟨rfl, rfl, rfl⟩

theorem lastBoundary_toTimeState (n : Nat) (s : State) : (toTimeState n s).time.lastBoundary = s.time.lastBoundary := by
  unfold toTimeState
  dsimp only
  split <;> rfl

theorem busReply_toTimeState (n : Nat) (s : State) : (toTimeState n s).busReply = s.busReply := by
  unfold toTimeState
  dsimp only
  split <;> rfl

theorem stepTaken_effect (ms : Int) (s : State) :
    (stepTaken ms s).busReply = s.busReply ∧ (stepTaken ms s).tai = s.tai + BitVec.ofInt 66 (ms * 4000000) ∧
    (stepTaken ms s).ticks = s.ticks ∧ timeState (stepTaken ms s) = timeSlewing ∧
    flg (stepTaken ms s) Reg.TIME_STATE F.TIME_STATE_holdover = true ∧
    (stepTaken ms s).time.lastBoundary = s.time.lastBoundary.map (fun l => (l + ms).toNat) ∧
    (stepTaken ms s).time.servo.pred = s.time.servo.pred - ms * 65536000000000 ∧
    (stepTaken ms s).time.servo.cand = none ∧ (stepTaken ms s).time.servo.y = s.time.servo.y := by
  have hreply := (busReply_moveCounter ms (logEvent 0x2107 1 (satI32 ms) s)).trans (logEvent_busReply ..)
  have htai := tai_moveCounter ms (logEvent 0x2107 1 (satI32 ms) s)
  have hticks := (ticks_moveCounter ms (logEvent 0x2107 1 (satI32 ms) s)).trans (logEvent_ticks ..)
  have htime := time_moveCounter ms (logEvent 0x2107 1 (satI32 ms) s)
  rw [logEvent_tai] at htai
  rw [logEvent_time] at htime
  unfold stepTaken
  dsimp only
  generalize moveCounter ms (logEvent 0x2107 1 (satI32 ms) s) = y at hreply htai hticks htime ⊢
  obtain ⟨hpred, hcand, hy⟩ := servo_toTimeState timeSlewing (setServo { y.time.servo with
    pred := y.time.servo.pred - ms * 65536000000000, cand := none, candCount := 0 } y)
  refine ⟨(busReply_toTimeState ..).trans hreply, (tai_toTimeState ..).trans htai, (ticks_toTimeState ..).trans hticks,
    timeState_toTimeState _ _ (by decide), holdover_toTimeState _ _, (lastBoundary_toTimeState ..).trans ?_, ?_, hcand, ?_⟩
  · exact congrArg TimeState.lastBoundary htime
  · rw [hpred]
    exact congrArg (fun x => x.servo.pred - ms * 65536000000000) htime
  · rw [hy]
    exact congrArg (fun x => x.servo.y) htime

/-! ### Triggers (R128 to R130) -/

section Triggers

variable (n : Fin 8) (v : Word) (s : State)

theorem trigState_wr_cfg : trigState (wr s (Reg.TIME_TRIG_CFG n) v) n = trigState s n :=
  fld_of_rd (rd_wr_ne s _ (by simp only [Reg.TIME_TRIG_CFG, Reg.TIME_TRIG_STATUS]; omega)) _

theorem trigTarget_wr_cfg : trigTarget (wr s (Reg.TIME_TRIG_CFG n) v) n = trigTarget s n := by
  rw [trigTarget, trigTarget, rd64, rd64, rd_wr_ne s _ (by simp only [Reg.TIME_TRIG_CFG, Reg.TIME_TRIG_TARGET]; omega),
    rd_wr_ne s _ (by simp only [Reg.TIME_TRIG_CFG, Reg.TIME_TRIG_TARGET]; omega)]

theorem trigTarget_setStatus (G : Fld) (k : Nat) : trigTarget (setF s (Reg.TIME_TRIG_STATUS n) G k) n = trigTarget s n := by
  rw [trigTarget, trigTarget, rd64, rd64, rd_setF_ne s _ _ (by simp only [Reg.TIME_TRIG_STATUS, Reg.TIME_TRIG_TARGET]; omega),
    rd_setF_ne s _ _ (by simp only [Reg.TIME_TRIG_STATUS, Reg.TIME_TRIG_TARGET]; omega)]

theorem trigState_setTrig (k : Nat) (hk : k < 8) : trigState (setTrig n k s) n = k :=
  (fld_setF s _ _ k (by decide)).trans (Nat.mod_eq_of_lt hk)

theorem rd_releaseHold (fired : Bool) (a : Nat) : rd (releaseHold n fired s) a = rd s a := by
  refine forEach_keeps (P := fun y => rd y a = rd s a) (fun p _ y hy => ?_) rfl
  dsimp only
  split <;> exact hy

theorem log_releaseHold (fired : Bool) : (releaseHold n fired s).log = s.log :=
  keeps_of_ev (releaseHold_ev (foot_self _) (Ev.refl _ s)) (p := .log) rfl

theorem tai_releaseHold (fired : Bool) : (releaseHold n fired s).tai = s.tai :=
  keeps_of_ev (releaseHold_ev (foot_self _) (Ev.refl _ s)) (p := .tai) rfl

theorem tai_reachNs_bounds {s : State} {q : BitVec 64} (hfit : q.toNat + 2 < 2 ^ 64) :
    4 * q.toNat ≤ (reachNs s q).tai.toNat ∧ (reachNs s q).tai.toNat < max (s.tai.toNat + 1) (4 * q.toNat + 5) := by
  have htai := s.tai.isLt
  rw [reachNs, advanceTo, BitVec.toNat_add, BitVec.toNat_ofNat]
  unfold ticksTo
  omega

end Triggers

theorem rd_trigEffect (n : Fin 8) (t : Nat) (s : State) (k : Fin 8) :
    rd (trigEffect n t s).2 (Reg.TIME_TRIG_STATUS k) = rd s (Reg.TIME_TRIG_STATUS k) := by
  have hb : blockAt (Reg.TIME_TRIG_STATUS k) = some .time := by
    rw [blockAt, show Reg.TIME_TRIG_STATUS k / 0x10000 = 0x4003 by simp only [Reg.TIME_TRIG_STATUS]; omega]
    rfl
  exact rd_of_ev (trigEffect_ev (foot_self _) (Ev.refl _ s)) rfl hb rfl

/-- Does an armed trigger that reaches its target do without a lock that it needs (R129)? -/
abbrev lacksLock (n : Fin 8) (s : State) : Prop :=
  flg s (Reg.TIME_TRIG_CFG n) F.TIME_TRIG_CFG_need_lock = true ∧ (!timeIsLocked s) = true

theorem trigState_fireTrig_locked {n : Fin 8} {s : State} (h : ¬ lacksLock n s) : trigState (fireTrig n s) n = trigFired := by
  unfold fireTrig
  rw [if_neg h]
  have hstate := trigState_setTrig n s trigFired (by decide)
  dsimp only
  unfold trigState at hstate ⊢
  rw [fld_setF_disj _ _ _ _ _ (by decide), fld_of_rd (rd_trigEffect ..)]
  exact hstate

theorem fireTrig_lacking {n : Fin 8} {s : State} (h : lacksLock n s) :
    fireTrig n s = logN 0x2203 n (timeState s) (releaseHold n false (setTrig n trigNoLock s)) := if_pos h

theorem trigState_fireTrig_lacking {n : Fin 8} {s : State} (h : lacksLock n s) :
    trigState (fireTrig n s) n = trigNoLock := by
  have hrd : rd (fireTrig n s) (Reg.TIME_TRIG_STATUS n) = rd (setTrig n trigNoLock s) (Reg.TIME_TRIG_STATUS n) := by
    rw [fireTrig_lacking h]
    exact (rd_logEvent _ _ _ _ (by simp only [Reg.TIME_TRIG_STATUS, Reg.CMD_STATUS]; omega)
      (by simp only [Reg.TIME_TRIG_STATUS, Reg.CMD_EVT_LOST]; omega)).trans (rd_releaseHold ..)
  exact (fld_of_rd hrd _).trans (trigState_setTrig n s _ (by decide))

theorem tai_fireTrig (n : Fin 8) (s : State) : (fireTrig n s).tai = s.tai :=
  keeps_of_ev (fireTrig_ev (foot_self _) (Ev.refl _ s)) (p := .tai) rfl

theorem busReply_fireTrig (n : Fin 8) (s : State) : (fireTrig n s).busReply = s.busReply :=
  keeps_of_ev (fireTrig_ev (foot_self _) (Ev.refl _ s)) (p := .busReply) rfl

theorem setTrig_onlyRegs (n : Fin 8) (k : Nat) (s : State) : OnlyRegs [Reg.TIME_TRIG_STATUS n] s (setTrig n k s) :=
  fun _ ha => rd_setF_ne s _ _ (by simpa using ha)

theorem disarmTrig_effect (n : Fin 8) (s : State) :
    (disarmTrig n s).busReply = s.busReply ∧ (disarmTrig n s).tai = s.tai ∧
    (trigState s n ≠ trigArmed ∨ s.tai.toNat < 4 * (trigTarget s n).toNat →
      trigState (disarmTrig n s) n = (if trigState s n = trigArmed then trigIdle else trigState s n) ∧
      OnlyRegs [Reg.TIME_TRIG_STATUS n] s (disarmTrig n s) ∧ (disarmTrig n s).log = s.log) ∧
    (trigState s n = trigArmed → 4 * (trigTarget s n).toNat ≤ s.tai.toNat →
      trigState (disarmTrig n s) n = trigFired ∨ trigState (disarmTrig n s) n = trigNoLock) := by
  unfold disarmTrig
  by_cases harmed : trigState s n = trigArmed
  · rw [if_neg (not_not.2 harmed), if_pos harmed]
    by_cases hreached : 4 * (trigTarget s n).toNat ≤ s.tai.toNat
    · rw [if_pos hreached]
      refine ⟨busReply_fireTrig n s, tai_fireTrig n s, fun h => absurd h (by simp [harmed, hreached]), fun _ _ => ?_⟩
      by_cases hlack : lacksLock n s
      · exact .inr (trigState_fireTrig_lacking hlack)
      · exact .inl (trigState_fireTrig_locked hlack)
    · rw [if_neg hreached]
      refine ⟨keeps_of_ev (releaseHold_ev (foot_self _) (Ev.refl _ _)) (p := .busReply) rfl, tai_releaseHold .., fun _ => ⟨?_, ?_, ?_⟩,
        fun _ h => absurd h hreached⟩
      · exact (fld_of_rd (rd_releaseHold ..) _).trans (trigState_setTrig n s _ (by decide))
      · exact fun a ha => (rd_releaseHold ..).trans (setTrig_onlyRegs n _ s a ha)
      · exact log_releaseHold ..
  · rw [if_pos harmed, if_neg harmed]
    exact ⟨rfl, rfl, fun _ => ⟨rfl, fun _ _ => rfl, rfl⟩, fun h => absurd h harmed⟩

theorem armTrig_ahead {n : Fin 8} {s : State} (h : nowNat s + 10000 ≤ (trigTarget s n).toNat) :
    armTrig n s = setTrig n trigArmed (setF s (Reg.TIME_TRIG_STATUS n) F.TIME_TRIG_STATUS_rounded 0) := by
  have htarget := trigTarget_setStatus n s F.TIME_TRIG_STATUS_rounded 0
  unfold armTrig
  dsimp only
  rw [htarget]
  exact if_neg (Nat.not_lt.2 h)

theorem armTrig_late {n : Fin 8} {s : State} (h : (trigTarget s n).toNat < nowNat s + 10000) :
    armTrig n s = logEvent 0x2201 n ((trigTarget s n).extractLsb' 0 32)
      (setTrig n trigLate (setF s (Reg.TIME_TRIG_STATUS n) F.TIME_TRIG_STATUS_rounded 0)) := by
  have htarget := trigTarget_setStatus n s F.TIME_TRIG_STATUS_rounded 0
  unfold armTrig
  dsimp only
  rw [htarget]
  exact if_pos h

theorem rounded_onlyRegs (n : Fin 8) (k b : Nat) (s : State) : OnlyRegs [Reg.TIME_TRIG_STATUS n] s
    (setTrig n k (setF s (Reg.TIME_TRIG_STATUS n) F.TIME_TRIG_STATUS_rounded b)) :=
  fun a ha => (setTrig_onlyRegs n k _ a ha).trans (rd_setF_ne s _ _ (by simpa using ha))

end Sys2Proof.Machine

namespace Sys2Proof.Proofs

open Sys2Proof Sys2Proof.Machine Sys2Proof.Safety Sys2Proof.Laws

/-- Settles O29, by the causes of a refusal in the order of R126. -/
theorem timeStep : Obligations.TimeStep := by
  intro m v s hs ms cause
  have hms : ((putF v F.TIME_STEP_go 1).extractLsb' 1 31).toInt = ms := by
    have hkeep : (putF v F.TIME_STEP_go 1).extractLsb' 1 31 = v.extractLsb' 1 31 := by
      ext i hi
      simp only [BitVec.getElem_extractLsb', putF_getLsbD]
      rw [if_neg (by omega)]
    rw [hkeep]
  have hrun : exec (.timeStepGo m v) s = .next (writeTimeStep (putF v F.TIME_STEP_go 1) (reply .done s)) :=
    congrArg Host.Outcome.next (regCommand_TIME_STEP _ hs)
  have hgo : getF (putF v F.TIME_STEP_go 1) F.TIME_STEP_go ≠ 0 := by rw [getF_putF _ _ _ (by decide)]; decide
  rw [writeTimeStep_go _ hgo] at hrun
  dsimp only at hrun
  rw [hms] at hrun
  have hcause : ∀ k, stepCause (setF (reply .done s) Reg.TIME_STEP F.TIME_STEP_step_ms k) = cause := fun k => stepCause_setStep k _
  rw [hcause] at hrun
  refine ⟨fun h => ?_, fun h hroom => ?_⟩
  · rw [if_neg (by simp [h])] at hrun
    exact ⟨_, hrun, stepTaken_effect ms _⟩
  · rw [if_pos h] at hrun
    refine ⟨_, hrun, logEvent_busReply .., logEvent_tai .., logEvent_time .., ?_, fun a ha => ?_, logged_logEvent _ _ _ rfl hroom⟩
    · exact (flg_of_rd (rd_logEvent_room _ _ _ _ (by exact hroom) _) _).trans (flg_setF _ _ _ _ (by decide))
    · simp only [List.mem_cons, List.not_mem_nil, or_false, not_or] at ha
      exact (rd_logEvent_room _ _ _ _ (by exact hroom) _).trans ((rd_setF_ne _ _ _ ha.2).trans (rd_setF_ne _ _ _ ha.1))

theorem trigDisarm_ends {n : Fin 8} {v : Word} {s x : State} (hx : x = wr s (Reg.TIME_TRIG_CFG n) v) :
    (disarmTrig n x).busReply = s.busReply ∧ (disarmTrig n x).tai = s.tai ∧
    (trigState s n ≠ trigArmed ∨ s.tai.toNat < 4 * (trigTarget s n).toNat →
      trigState (disarmTrig n x) n = (if trigState s n = trigArmed then trigIdle else trigState s n) ∧
      OnlyRegs [Reg.TIME_TRIG_CFG n, Reg.TIME_TRIG_STATUS n] s (disarmTrig n x) ∧ (disarmTrig n x).log = s.log) ∧
    (trigState s n = trigArmed → 4 * (trigTarget s n).toNat ≤ s.tai.toNat →
      trigState (disarmTrig n x) n = trigFired ∨ trigState (disarmTrig n x) n = trigNoLock) := by
  obtain ⟨hreply, htai, hearly, hfire⟩ := disarmTrig_effect n x
  subst hx
  rw [trigState_wr_cfg, trigTarget_wr_cfg] at hearly hfire
  refine ⟨hreply, htai, fun h => ?_, hfire⟩
  obtain ⟨hst, honly, hlog⟩ := hearly h
  refine ⟨hst, fun a ha => ?_, hlog⟩
  simp only [List.mem_cons, List.not_mem_nil, or_false, not_or] at ha
  exact (honly a (by simpa using ha.2)).trans (rd_wr_ne s _ ha.1)

/-- Settles O30, by the states of a trigger and by whether its target is reached. -/
theorem triggers : Obligations.Triggers := by
  refine ⟨fun m n v s hs hdis hroom => ?_, fun m n v s hs => ⟨?_, fun hdis => ?_⟩, fun n s harmed => ?_, fun n s hno => if_neg hno⟩
  · have hrun : exec (.trigArm m n v) s = .next (writeTrigCfg n (putF v F.TIME_TRIG_CFG_arm 1) (reply .done s)) :=
      congrArg Host.Outcome.next (regCommand_TIME_TRIG_CFG _ hs)
    have harm : getF (putF v F.TIME_TRIG_CFG_arm 1) F.TIME_TRIG_CFG_arm = 1 := by
      rw [getF_putF _ _ _ (by decide)]
      rfl
    have hdis' : getF (putF v F.TIME_TRIG_CFG_arm 1) F.TIME_TRIG_CFG_disarm ≠ 1 := by
      rw [getF_putF_ne _ _ _ _ (by decide), hdis]
      decide
    unfold writeTrigCfg at hrun
    dsimp only at hrun
    rw [if_neg hdis'] at hrun
    simp only [harm, true_and] at hrun
    generalize hx : wr (reply .done s) (Reg.TIME_TRIG_CFG n) (putF v F.TIME_TRIG_CFG_arm 1 &&& 0xFFFF001F) = x at hrun
    have hstate : trigState x n = trigState s n := hx ▸ trigState_wr_cfg n _ (reply .done s)
    have htarget : trigTarget x n = trigTarget s n := hx ▸ trigTarget_wr_cfg n _ (reply .done s)
    have hreply : x.busReply = .done := hx ▸ rfl
    have htai : x.tai = s.tai := hx ▸ rfl
    have hnow : nowNat x = nowNat s := by rw [nowNat, nowNat, now, now, htai]
    have hlog : x.log = s.log := hx ▸ rfl
    have hregs : ∀ a, a ≠ Reg.TIME_TRIG_CFG n → rd x a = rd s a := fun a ha => hx ▸ rd_wr_ne (reply .done s) _ ha
    have honly : ∀ {t}, OnlyRegs [Reg.TIME_TRIG_STATUS n] x t → OnlyRegs [Reg.TIME_TRIG_CFG n, Reg.TIME_TRIG_STATUS n] s t := by
      intro t h a ha
      simp only [List.mem_cons, List.not_mem_nil, or_false, not_or] at ha
      exact (h a (by simpa using ha.2)).trans (hregs a ha.1)
    rw [hstate] at hrun
    by_cases harmed : trigState s n = trigArmed
    · rw [if_neg (not_not.2 harmed)] at hrun
      exact ⟨x, hrun, hreply, htai, fun _ => ⟨hstate.trans harmed, hlog⟩, fun h => absurd harmed h, fun h => absurd harmed h,
        honly fun _ _ => rfl⟩
    · rw [if_pos harmed] at hrun
      by_cases hlate : (trigTarget s n).toNat < nowNat s + 10000
      · rw [armTrig_late (by rw [htarget, hnow]; exact hlate), htarget] at hrun
        have hroom' : (setTrig n trigLate (setF x (Reg.TIME_TRIG_STATUS n) F.TIME_TRIG_STATUS_rounded 0)).log.queue.length < 256 := by
          rw [setTrig, setF_log, setF_log, hlog]
          exact hroom
        refine ⟨_, hrun, (logEvent_busReply ..).trans hreply, (logEvent_tai ..).trans htai, fun h => absurd h harmed,
          fun _ h => absurd hlate (Nat.not_lt.2 h), fun _ _ => ⟨?_, ?_, ?_, ?_, ?_, ?_⟩, honly fun a ha => ?_⟩
        · exact (fld_of_rd (rd_logEvent_room _ _ _ _ hroom' _) _).trans (trigState_setTrig n _ _ (by decide))
        · exact (logEvent_loop ..).trans (hx ▸ rfl)
        · exact (logEvent_adc ..).trans (hx ▸ rfl)
        · exact (logEvent_gfm ..).trans (hx ▸ rfl)
        · exact (logEvent_recd ..).trans (hx ▸ rfl)
        · exact logged_logEvent _ _ _ hlog hroom
        · exact (rd_logEvent_room _ _ _ _ hroom' _).trans (rounded_onlyRegs n _ _ x a ha)
      · rw [armTrig_ahead (by rw [htarget, hnow]; exact Nat.not_lt.1 hlate)] at hrun
        exact ⟨_, hrun, hreply, htai, fun h => absurd h harmed, fun _ _ => ⟨trigState_setTrig n _ _ (by decide), hlog⟩,
          fun _ h => absurd h hlate, honly (rounded_onlyRegs n _ _ x)⟩
  · have hdis : getF (putF v F.TIME_TRIG_CFG_disarm 1) F.TIME_TRIG_CFG_disarm = 1 := by
      rw [getF_putF _ _ _ (by decide)]
      rfl
    have hrun : exec (.trigDisarm m n v) s = .next (disarmTrig n (wr (reply .done s) (Reg.TIME_TRIG_CFG n)
        (putF v F.TIME_TRIG_CFG_disarm 1 &&& 0xFFFF001F))) :=
      congrArg Host.Outcome.next ((regCommand_TIME_TRIG_CFG _ hs).trans (if_pos hdis))
    exact ⟨_, hrun, trigDisarm_ends (s := reply .done s) rfl⟩
  · have hdis' : getF (putF v F.TIME_TRIG_CFG_arm 1) F.TIME_TRIG_CFG_disarm = 1 := by
      rw [getF_putF_ne _ _ _ _ (by decide), hdis]
    have hrun : exec (.trigArm m n v) s = .next (disarmTrig n (wr (reply .done s) (Reg.TIME_TRIG_CFG n)
        (putF v F.TIME_TRIG_CFG_arm 1 &&& 0xFFFF001F))) :=
      congrArg Host.Outcome.next ((regCommand_TIME_TRIG_CFG _ hs).trans (if_pos hdis'))
    exact ⟨_, hrun, trigDisarm_ends (s := reply .done s) rfl⟩
  · have hrun : exec (.trigFire n) s = .next (fireTrig n (reachNs s (trigTarget s n))) := if_pos harmed
    refine ⟨_, hrun, tai_fireTrig .., fun hfit => ?_, fun hlocked => ?_, fun hneed hlock hroom => ?_⟩
    · rw [tai_fireTrig]
      exact tai_reachNs_bounds hfit
    · refine trigState_fireTrig_locked (s := reachNs s (trigTarget s n)) fun hlack => ?_
      obtain ⟨hneed, hlock⟩ := hlack
      rcases hlocked with h | h
      · exact absurd (h.symm.trans hneed) (by decide)
      · exact absurd (hlock.symm.trans (congrArg (!·) h)) (by decide)
    · have hlack : lacksLock n (reachNs s (trigTarget s n)) := ⟨hneed, congrArg (!·) hlock⟩
      refine ⟨trigState_fireTrig_lacking hlack, ?_⟩
      rw [fireTrig_lacking hlack]
      exact logged_logN _ _ _ (log_releaseHold ..) hroom

end Sys2Proof.Proofs
end


section
/-! PROOFS. References and PLLs (R108 to R110). -/

namespace Sys2Proof.Machine

open Sys2Proof Sys2Proof.Safety Sys2Proof.Laws

/-- What showing the coast of PLL_D and PLL_T leaves alone. -/
structure CoastShown (s x : State) : Prop where
  regs : ∀ a, a ≠ Reg.TIME_STATE → rd x a = rd s a
  log : x.log = s.log
  tai : x.tai = s.tai
  ticks : x.ticks = s.ticks
  lostExt : x.time.lostExt = s.time.lostExt
  lostMems : x.time.lostMems = s.time.lostMems
  coastFrom : x.time.coastFrom = s.time.coastFrom

theorem coastShown_toTimeState (n : Nat) (s : State) : CoastShown s (toTimeState n s) := by
  refine ⟨fun a ha => toTimeState_onlyRegs n s a (by simpa using ha), log_toTimeState .., tai_toTimeState .., ticks_toTimeState .., ?_, ?_, ?_⟩
  all_goals
    unfold toTimeState
    dsimp only
    split <;> rfl

theorem coastShown_showPllCoast (s : State) : CoastShown s (showPllCoast s) := by
  have hset : ∀ k, CoastShown s (setF s Reg.TIME_STATE F.TIME_STATE_pll_coast k) := fun k =>
    ⟨fun a ha => rd_setF_ne s _ _ ha, rfl, rfl, rfl, rfl, rfl, rfl⟩
  unfold showPllCoast
  dsimp only
  split
  · have h := coastShown_toTimeState timeHoldover (setF s Reg.TIME_STATE F.TIME_STATE_pll_coast
      (b2n (fld s Reg.CLK_STATUS F.CLK_STATUS_coast % 4 != 0)))
    have h' := hset (b2n (fld s Reg.CLK_STATUS F.CLK_STATUS_coast % 4 != 0))
    exact ⟨fun a ha => (h.regs a ha).trans (h'.regs a ha), h.log, h.tai, h.ticks, h.lostExt, h.lostMems, h.coastFrom⟩
  · exact hset _

theorem timeState_showPllCoast {s : State} (hcoast : fld s Reg.CLK_STATUS F.CLK_STATUS_coast % 4 ≠ 0)
    (hunset : timeState s ≠ timeUnset) : timeState (showPllCoast s) = timeHoldover := by
  have hstate : timeState (setF s Reg.TIME_STATE F.TIME_STATE_pll_coast
      (b2n (fld s Reg.CLK_STATUS F.CLK_STATUS_coast % 4 != 0))) = timeState s := fld_setF_disj s _ _ _ _ (by decide)
  unfold showPllCoast
  dsimp only
  rw [hstate, if_pos ⟨bne_iff_ne.2 hcoast, hunset⟩]
  exact timeState_toTimeState _ _ (by decide)

/-- Fields of CLK_STATUS that tell of the references and not of the PLLs' locks. -/
abbrev OfRefs (G : Fld) : Prop := F.CLK_STATUS_coast.lo + F.CLK_STATUS_coast.w ≤ G.lo

/-- The bits of a PLL written in CLK_STATUS: it coasts, or is locked. -/
def coastBits (n : Fin 5) (c : Bool) (s : State) : State :=
  setFbit (setFbit s Reg.CLK_STATUS F.CLK_STATUS_coast n c) Reg.CLK_STATUS F.CLK_STATUS_locked n (!c)

theorem coast_coastBits (n i : Fin 5) (c : Bool) (s : State) : fbit (coastBits n c s) Reg.CLK_STATUS F.CLK_STATUS_coast i =
    if i.val = n.val then c else fbit s Reg.CLK_STATUS F.CLK_STATUS_coast i := by
  unfold coastBits
  rw [fbit_setFbit_disj _ _ _ _ _ _ _ (by decide), fbit_setFbit _ _ _ _ _ _ (by decide) i.isLt]

theorem locked_coastBits (n : Fin 5) (c : Bool) (s : State) :
    fbit (coastBits n c s) Reg.CLK_STATUS F.CLK_STATUS_locked n = !c := by
  unfold coastBits
  rw [fbit_setFbit _ _ _ _ _ _ (by decide) n.isLt, if_pos rfl]

theorem refs_coastBits (n : Fin 5) (c : Bool) (s : State) {G : Fld} (hG : OfRefs G) :
    flg (coastBits n c s) Reg.CLK_STATUS G = flg s Reg.CLK_STATUS G := by
  have hlo : (13 : Nat) ≤ G.lo := hG
  unfold coastBits setFbit
  rw [flg_setF_disj _ _ _ _ _ (.inr (le_trans (by decide) hlo)), flg_setF_disj _ _ _ _ _ (.inr (le_trans (by decide) hlo))]

theorem rd_coastBits (n : Fin 5) (c : Bool) (s : State) {a : Nat} (ha : a ≠ Reg.CLK_STATUS) :
    rd (coastBits n c s) a = rd s a :=
  (rd_setFbit_ne _ _ _ _ ha).trans (rd_setFbit_ne _ _ _ _ ha)

/-- An event logged after others is among the events logged. -/
theorem raises_of_logged {s x t : State} {c q : Nat} {e : Word} {es : List Event} (hqueue : x.log.queue = s.log.queue ++ es)
    (h : Logged [(c, q, e)] x t) : Raises c q e s t := by
  refine ⟨es ++ [⟨now t, BitVec.ofNat 16 c, BitVec.ofNat 16 q, e⟩], ?_, ⟨now t, BitVec.ofNat 16 c, BitVec.ofNat 16 q, e⟩,
    List.mem_append_right _ (List.mem_singleton_self _), rfl, rfl, rfl⟩
  rw [h, hqueue, ← List.append_assoc]
  rfl

theorem localNs_of_ticks {s x : State} (h : x.ticks = s.ticks) : localNs x = localNs s := by rw [localNs, localNs, h]

/-! ### Coasting (R109) -/

/-- A PLL that begins to coast, before it is logged: its bits, the instant, and PLL_D's frozen word. -/
def coastBegun (n : Fin 5) (back : Nat) (s : State) : State :=
  let s := coastBits n true s
  let s := { s with time := { s.time with coastFrom := s.time.coastFrom.set n (localNs s) } }
  if n = 0 then setY (yAt s.time.servo.hist (s.ticks - back) s.time.servo.y) s else s

theorem coastPll_new {n : Fin 5} {reason back : Nat} {s : State} (h : fbit s Reg.CLK_STATUS F.CLK_STATUS_coast n = false) :
    coastPll n reason back s = showPllCoast (logN 0x2003 n reason (coastBegun n back s)) := by
  unfold coastPll
  rw [if_neg (by simp [h])]
  rfl

section CoastBegun

variable (n : Fin 5) (back : Nat) (s : State)

theorem rd_coastBegun {a : Nat} (ha : a ≠ Reg.TIME_FREQ) : rd (coastBegun n back s) a = rd (coastBits n true s) a := by
  unfold coastBegun
  dsimp only
  split
  · exact rd_wr_ne _ _ ha
  · rfl

theorem coastShown_coastBegun : (coastBegun n back s).log = s.log ∧ (coastBegun n back s).tai = s.tai ∧
    (coastBegun n back s).ticks = s.ticks ∧ (coastBegun n back s).time.lostExt = s.time.lostExt ∧
    (coastBegun n back s).time.lostMems = s.time.lostMems ∧
    (coastBegun n back s).time.coastFrom = s.time.coastFrom.set n (localNs s) := by
  unfold coastBegun
  dsimp only
  split <;> exact ⟨rfl, rfl, rfl, rfl, rfl, rfl⟩

end CoastBegun

/-- What a PLL that begins to coast leaves. -/
structure Coasts (n : Fin 5) (reason : Nat) (s x : State) : Prop where
  regs : ∀ a, a ≠ Reg.TIME_STATE → a ≠ Reg.TIME_FREQ → rd x a = rd (coastBits n true s) a
  logged : Logged [(0x2003, n, BitVec.ofNat 32 reason)] s x
  lostExt : x.time.lostExt = s.time.lostExt
  lostMems : x.time.lostMems = s.time.lostMems
  coastFrom : x.time.coastFrom = s.time.coastFrom.set n (localNs s)

section CoastPll

variable {n : Fin 5} {reason back : Nat} {s : State} (hnew : fbit s Reg.CLK_STATUS F.CLK_STATUS_coast n = false) (hroom : Room 1 s)
include hnew hroom

theorem coastPll_coasts : Coasts n reason s (coastPll n reason back s) := by
  obtain ⟨hlog, htai, -, hext, hmems, hfrom⟩ := coastShown_coastBegun n back s
  have hregs : ∀ a, a ≠ Reg.TIME_FREQ → rd (coastBegun n back s) a = rd (coastBits n true s) a := fun a ha => rd_coastBegun n back s ha
  rw [coastPll_new hnew]
  generalize coastBegun n back s = y at hlog htai hext hmems hfrom hregs
  have htime : (logN 0x2003 n reason y).time = y.time := logEvent_time ..
  have hshown := coastShown_showPllCoast (logN 0x2003 n reason y)
  have hlogged := logged_logN 0x2003 n reason hlog hroom
  refine ⟨fun a hs hf => ?_, logged_congr hlogged hshown.log hshown.tai, ?_, ?_, ?_⟩
  · exact (hshown.regs a hs).trans ((rd_logN_room _ _ _ hlog hroom a).trans (hregs a hf))
  · rw [hshown.lostExt, htime, hext]
  · rw [hshown.lostMems, htime, hmems]
  · rw [hshown.coastFrom, htime, hfrom]

theorem timeState_coastPll (hn : n.val < 2) (hunset : timeState s ≠ timeUnset) :
    timeState (coastPll n reason back s) = timeHoldover := by
  obtain ⟨hlog, -⟩ := coastShown_coastBegun n back s
  have hclk : rd (coastBegun n back s) Reg.CLK_STATUS = rd (coastBits n true s) Reg.CLK_STATUS := rd_coastBegun n back s (by decide)
  have htime : timeState (coastBegun n back s) = timeState s :=
    fld_of_rd ((rd_coastBegun n back s (by decide)).trans (rd_coastBits n true s (by decide))) _
  rw [coastPll_new hnew]
  generalize coastBegun n back s = y at hlog hclk htime
  have hrd : ∀ a, rd (logN 0x2003 n reason y) a = rd y a := rd_logN_room _ _ _ hlog hroom
  have hstate : timeState (logN 0x2003 n reason y) = timeState s := (fld_of_rd (hrd _) _).trans htime
  refine timeState_showPllCoast (fun hzero => ?_) (hstate.trans_ne hunset)
  have hbit : fbit (coastBits n true s) Reg.CLK_STATUS F.CLK_STATUS_coast n = true := by
    rw [coast_coastBits, if_pos rfl]
  rw [fld_of_rd (hrd _), fld_of_rd hclk] at hzero
  have hlow := Nat.testBit_mod_two_pow (fld (coastBits n true s) Reg.CLK_STATUS F.CLK_STATUS_coast) 2 n.val
  rw [show 2 ^ 2 = 4 from rfl, hzero, Nat.zero_testBit, decide_eq_true hn, Bool.true_and] at hlow
  exact absurd (hlow.trans hbit) (by decide)

end CoastPll

theorem coastPll_coasting {n : Fin 5} {reason back : Nat} {s : State} (h : fbit s Reg.CLK_STATUS F.CLK_STATUS_coast n = true) :
    coastPll n reason back s = s := if_pos h

/-- What a loss of references leaves where up to `k` PLLs begin to coast. -/
structure CoastReach (k : Nat) (s x : State) : Prop where
  regs : ∀ a, a ∉ [Reg.CLK_STATUS, Reg.TIME_STATE, Reg.TIME_FREQ] → rd x a = rd s a
  refs : ∀ G, OfRefs G → flg x Reg.CLK_STATUS G = flg s Reg.CLK_STATUS G
  coasting : ∀ i : Fin 5, fbit s Reg.CLK_STATUS F.CLK_STATUS_coast i = true → fbit x Reg.CLK_STATUS F.CLK_STATUS_coast i = true
  log : ∃ es : List Event, x.log.queue = s.log.queue ++ es ∧ es.length ≤ k
  lostExt : x.time.lostExt = s.time.lostExt
  lostMems : x.time.lostMems = s.time.lostMems

theorem CoastReach.refl (k : Nat) (s : State) : CoastReach k s s :=
  ⟨fun _ _ => rfl, fun _ _ => rfl, fun _ h => h, ⟨[], by simp⟩, rfl, rfl⟩

theorem CoastReach.trans {j k : Nat} {s x y : State} (h : CoastReach j s x) (h' : CoastReach k x y) : CoastReach (j + k) s y := by
  obtain ⟨es, hes, hlen⟩ := h.log
  obtain ⟨es', hes', hlen'⟩ := h'.log
  exact ⟨fun a ha => (h'.regs a ha).trans (h.regs a ha), fun G hG => (h'.refs G hG).trans (h.refs G hG),
    fun i hi => h'.coasting i (h.coasting i hi), ⟨es ++ es', by rw [hes', hes, List.append_assoc], by rw [List.length_append]; omega⟩,
    h'.lostExt.trans h.lostExt, h'.lostMems.trans h.lostMems⟩

theorem CoastReach.room {j k : Nat} {s x : State} (h : CoastReach j s x) (hroom : Room (j + k) s) : Room k x := by
  obtain ⟨es, hes, hlen⟩ := h.log
  rw [Room, hes, List.length_append]
  unfold Room at hroom
  omega

theorem coastPll_reach {n : Fin 5} {reason back : Nat} {s : State} (hroom : Room 1 s) :
    CoastReach 1 s (coastPll n reason back s) ∧ fbit (coastPll n reason back s) Reg.CLK_STATUS F.CLK_STATUS_coast n = true := by
  cases hcoast : fbit s Reg.CLK_STATUS F.CLK_STATUS_coast n with
  | true =>
    rw [coastPll_coasting hcoast]
    exact ⟨.refl 1 s, hcoast⟩
  | false =>
    have h := coastPll_coasts (reason := reason) (back := back) hcoast hroom
    have hclk := h.regs Reg.CLK_STATUS (by decide) (by decide)
    refine ⟨⟨fun a ha => ?_, fun G hG => (flg_of_rd hclk G).trans (refs_coastBits n true s hG), fun i hi => ?_, ⟨_, congrArg LogState.queue h.logged, ?_⟩,
      h.lostExt, h.lostMems⟩, ?_⟩
    · simp only [List.mem_cons, List.not_mem_nil, or_false, not_or] at ha
      obtain ⟨hne, hstate, hfreq⟩ := ha
      exact (h.regs a hstate hfreq).trans (rd_coastBits n true s hne)
    · rw [fbit_of_rd hclk, coast_coastBits, hi, ite_self]
    · rfl
    · rw [fbit_of_rd hclk, coast_coastBits, if_pos rfl]

theorem coastAll_reach {reason back : Nat} (l : List (Fin 5)) {s : State} (hroom : Room l.length s) :
    CoastReach l.length s (forEach l (fun n s => coastPll n reason back s) s) ∧
    ∀ n ∈ l, fbit (forEach l (fun n s => coastPll n reason back s) s) Reg.CLK_STATUS F.CLK_STATUS_coast n = true := by
  induction l generalizing s with
  | nil => exact ⟨.refl 0 s, fun _ h => absurd h (List.not_mem_nil)⟩
  | cons n l ih =>
    have hroom' : Room (1 + l.length) s := by rw [Nat.add_comm]; exact hroom
    obtain ⟨hone, hn⟩ := coastPll_reach (n := n) (reason := reason) (back := back) (s := s) (le_trans (by omega) hroom')
    obtain ⟨hrest, hall⟩ := ih (hone.room hroom')
    rw [List.length_cons, Nat.add_comm]
    exact ⟨hone.trans hrest, List.forall_mem_cons.2 ⟨hrest.coasting n hn, hall⟩⟩

/-! ### Resuming (R110) -/

/-- What a PLL that leaves coasting leaves. -/
theorem resumePll_effect (n : Fin 5) (s : State) :
    CoastShown (coastBits n false s) (resumePll n s) := by
  exact coastShown_showPllCoast (coastBits n false s)

theorem flg_setF_b2n (s : State) (a : Nat) (G : Fld) (b : Bool) (h : G.lo + G.w ≤ 32) (hw : 0 < G.w) :
    flg (setF s a G (b2n b)) a G = b := by
  have hone : 1 < 2 ^ G.w := Nat.one_lt_two_pow hw.ne'
  rw [flg_setF _ _ _ _ h]
  cases b
  · simp [b2n]
  · simp [b2n, Nat.mod_eq_of_lt hone]

section ShowRefs

variable (s : State)

/-- Is the external reference absent without being selected (R108)? -/
def extUnused : Bool := s.time.extAbsent && !flg s Reg.CLK_REF_CFG F.CLK_REF_CFG_sel

theorem showRefs_ext : flg (showRefs s) Reg.CLK_STATUS F.CLK_STATUS_ext_ok = (s.time.lostExt.isNone || extUnused s) := by
  unfold showRefs
  dsimp only
  rw [flg_setF_disj _ _ _ _ _ (by decide), flg_setF_b2n _ _ _ _ (by decide) (by decide)]
  rfl

theorem showRefs_mems : flg (showRefs s) Reg.CLK_STATUS F.CLK_STATUS_mems_ok = s.time.lostMems.isNone := by
  unfold showRefs
  dsimp only
  rw [flg_setF_b2n _ _ _ _ (by decide) (by decide)]
  rfl

theorem showRefs_active : extActive (showRefs s) = extActive s :=
  (flg_setF_disj _ _ _ _ _ (by decide)).trans (flg_setF_disj _ _ _ _ _ (by decide))

theorem showRefs_coast (i : Nat) : fbit (showRefs s) Reg.CLK_STATUS F.CLK_STATUS_coast i = fbit s Reg.CLK_STATUS F.CLK_STATUS_coast i := by
  have hfld : fld (showRefs s) Reg.CLK_STATUS F.CLK_STATUS_coast = fld s Reg.CLK_STATUS F.CLK_STATUS_coast :=
    (fld_setF_disj _ _ _ _ _ (by decide)).trans (fld_setF_disj _ _ _ _ _ (by decide))
  rw [fbit, hfld, fbit]

theorem showRefs_rd {a : Nat} (ha : a ≠ Reg.CLK_STATUS) : rd (showRefs s) a = rd s a :=
  (rd_setF_ne _ _ _ ha).trans (rd_setF_ne _ _ _ ha)

theorem showRefs_log : (showRefs s).log = s.log := rfl

theorem showRefs_tai : (showRefs s).tai = s.tai := rfl

theorem showRefs_ticks : (showRefs s).ticks = s.ticks := rfl

theorem showRefs_time : (showRefs s).time = s.time := rfl

end ShowRefs

/-- The state in which a loss is noted, before the PLLs coast. -/
def lossNoted (ext off : Bool) (s : State) : State :=
  showRefs { s with time := if ext then { s.time with lostExt := some (localNs s), extAbsent := !off }
    else { s.time with lostMems := some (localNs s) } }

/-- The PLLs of a lost reference coast. -/
def lossTaken (ext off : Bool) (s : State) : State :=
  forEach (fedFrom ext s) (fun n s => coastPll n 1 (frozenBack off) s) (lossNoted ext off s)

theorem lossNoted_reach {ext off : Bool} {s : State}
    (hsel : ext = true → off = false → flg s Reg.CLK_REF_CFG F.CLK_REF_CFG_sel = true) :
    (if ext then (lossNoted ext off s).time.lostExt else (lossNoted ext off s).time.lostMems) = some (localNs s) ∧
    flg (lossNoted ext off s) Reg.CLK_STATUS (if ext then F.CLK_STATUS_ext_ok else F.CLK_STATUS_mems_ok) = false ∧
    (∀ a, a ≠ Reg.CLK_STATUS → rd (lossNoted ext off s) a = rd s a) ∧ (lossNoted ext off s).log = s.log := by
  refine ⟨?_, ?_, fun a ha => showRefs_rd _ ha, rfl⟩
  · unfold lossNoted
    rw [showRefs_time]
    cases ext <;> rfl
  · cases ext with
    | false => exact (showRefs_mems _).trans rfl
    | true =>
      refine (showRefs_ext _).trans ?_
      change (false || (!off && !flg s Reg.CLK_REF_CFG F.CLK_REF_CFG_sel)) = false
      cases off with
      | true => rfl
      | false => rw [hsel rfl rfl]; rfl

theorem fedFrom_length (ext : Bool) (s : State) : (fedFrom ext s).length ≤ 4 := by
  unfold fedFrom
  cases ext <;> split <;> decide

theorem lossTaken_reach {ext off : Bool} {s : State} (hroom : Room 5 s) :
    CoastReach 4 (lossNoted ext off s) (lossTaken ext off s) ∧
    ∀ n ∈ fedFrom ext s, fbit (lossTaken ext off s) Reg.CLK_STATUS F.CLK_STATUS_coast n = true := by
  have hlen := fedFrom_length ext s
  have hlog : (lossNoted ext off s).log = s.log := rfl
  have hroom' : Room (fedFrom ext s).length (lossNoted ext off s) := by
    rw [Room, hlog]
    unfold Room at hroom
    omega
  obtain ⟨hreach, hall⟩ := coastAll_reach (reason := 1) (back := frozenBack off) (fedFrom ext s) hroom'
  obtain ⟨es, hes, hcount⟩ := hreach.log
  exact ⟨⟨hreach.regs, hreach.refs, hreach.coasting, ⟨es, hes, hcount.trans hlen⟩, hreach.lostExt, hreach.lostMems⟩, hall⟩

theorem execRefLost_new {ext off : Bool} {s : State} (hnew : (if ext then s.time.lostExt else s.time.lostMems) = none)
    (hsel : ext = true → off = false → flg s Reg.CLK_REF_CFG F.CLK_REF_CFG_sel = true) (hroom : Room 5 s) :
    exec (.refLost ext off) s = .next (logN 0x2001 (b2n ext) (if off then 2 else 1) (lossTaken ext off s)) := by
  have halready : ¬ (if ext then s.time.lostExt.isSome else s.time.lostMems.isSome) = true := by
    cases ext with
    | false => exact Option.not_isSome_iff_eq_none.2 hnew
    | true => exact Option.not_isSome_iff_eq_none.2 hnew
  have hfed : fedFrom ext (lossNoted ext off s) = fedFrom ext s := by
    rw [fedFrom, lossNoted, showRefs_active]
    rfl
  have hcfg : flg (lossTaken ext off s) Reg.CLK_REF_CFG F.CLK_REF_CFG_sel = flg s Reg.CLK_REF_CFG F.CLK_REF_CFG_sel :=
    flg_of_rd (((lossTaken_reach hroom).1.regs _ (by decide)).trans ((lossNoted_reach hsel).2.2.1 _ (by decide))) _
  have hrun : exec (.refLost ext off) s =
      (fun x => if ext && !off && !flg x Reg.CLK_REF_CFG F.CLK_REF_CFG_sel then Host.Outcome.next x
        else .next (logN 0x2001 (b2n ext) (if off then 2 else 1) x))
      (forEach (fedFrom ext (lossNoted ext off s)) (fun n s => coastPll n 1 (frozenBack off) s) (lossNoted ext off s)) :=
    if_neg halready
  rw [hfed] at hrun
  refine hrun.trans (if_neg ?_)
  change ¬ (ext && !off && !flg (lossTaken ext off s) Reg.CLK_REF_CFG F.CLK_REF_CFG_sel) = true
  rw [hcfg]
  cases ext with
  | false => exact Bool.false_ne_true
  | true =>
    cases off with
    | true => exact Bool.false_ne_true
    | false => rw [hsel rfl rfl]; exact Bool.false_ne_true

/-! ### A restored reference (R110) -/

/-- A reference is no longer noted as lost. -/
def lossCleared (ext : Bool) (s : State) : State :=
  showRefs { s with time := if ext then { s.time with lostExt := none, extAbsent := false } else { s.time with lostMems := none } }

/-- A reference that has passed its checks again, before PLL_D resumes. -/
def restoredNoted (ext : Bool) (s : State) : State :=
  lossCleared ext (after100ms (if ext then s.time.lostExt else s.time.lostMems) s)

theorem after100ms_some (t : Nat) (s : State) : after100ms (some t) s = reachLocal (t + 100000000) s := rfl

theorem execRefRestored_lost {ext : Bool} {s : State} (hlost : (if ext then s.time.lostExt else s.time.lostMems).isNone = false)
    (hsel : ext = true → s.time.extAbsent = true → flg s Reg.CLK_REF_CFG F.CLK_REF_CFG_sel = true) :
    exec (.refRestored ext) s =
      (fun x => Host.Outcome.next (whenS (extActive x == ext && fbit x Reg.CLK_STATUS F.CLK_STATUS_coast 0) (resumePll 0) x))
        (logN 0x2002 (b2n ext) 0 (restoredNoted ext s)) := by
  have hquiet : (!(ext && s.time.extAbsent && !flg s Reg.CLK_REF_CFG F.CLK_REF_CFG_sel)) = true := by
    cases hext : ext with
    | false => rfl
    | true =>
      cases habsent : s.time.extAbsent with
      | false => rfl
      | true => rw [hsel hext habsent]; rfl
  have hrun : exec (.refRestored ext) s =
      (fun x => Host.Outcome.next (whenS (extActive x == ext && fbit x Reg.CLK_STATUS F.CLK_STATUS_coast 0) (resumePll 0) x))
        (whenS (!(ext && s.time.extAbsent && !flg s Reg.CLK_REF_CFG F.CLK_REF_CFG_sel)) (logN 0x2002 (b2n ext) 0)
          (restoredNoted ext s)) := if_neg (by rw [hlost]; decide)
  rw [hrun, hquiet]
  rfl

theorem lossCleared_effect (ext : Bool) (s : State) :
    (if ext then (lossCleared ext s).time.lostExt else (lossCleared ext s).time.lostMems) = none ∧
    flg (lossCleared ext s) Reg.CLK_STATUS (if ext then F.CLK_STATUS_ext_ok else F.CLK_STATUS_mems_ok) = true ∧
    extActive (lossCleared ext s) = extActive s ∧ (lossCleared ext s).log = s.log ∧ (lossCleared ext s).ticks = s.ticks ∧
    (∀ a, a ≠ Reg.CLK_STATUS → rd (lossCleared ext s) a = rd s a) := by
  refine ⟨?_, ?_, showRefs_active _, rfl, rfl, fun a ha => showRefs_rd _ ha⟩
  · unfold lossCleared
    rw [showRefs_time]
    cases ext <;> rfl
  · cases ext with
    | false => exact (showRefs_mems _).trans rfl
    | true => exact (showRefs_ext _).trans rfl

theorem restoredNoted_effect {ext : Bool} {t0 : Nat} {s : State} (hlost : (if ext then s.time.lostExt else s.time.lostMems) = some t0) :
    (if ext then (restoredNoted ext s).time.lostExt else (restoredNoted ext s).time.lostMems) = none ∧
    t0 + 100000000 ≤ localNs (restoredNoted ext s) ∧
    flg (restoredNoted ext s) Reg.CLK_STATUS (if ext then F.CLK_STATUS_ext_ok else F.CLK_STATUS_mems_ok) = true ∧
    extActive (restoredNoted ext s) = extActive s ∧ (restoredNoted ext s).log = s.log ∧
    (∀ a, a ≠ Reg.CLK_STATUS → rd (restoredNoted ext s) a = rd s a) := by
  obtain ⟨hnone, hok, hact, hlog, hticks, hregs⟩ := lossCleared_effect ext (reachLocal (t0 + 100000000) s)
  have hactive : extActive (reachLocal (t0 + 100000000) s) = extActive s := flg_of_rd (rd_reachLocal _ s _) _
  rw [restoredNoted, hlost, after100ms_some]
  exact ⟨hnone, (localNs_reachLocal _ s).trans_eq (localNs_of_ticks hticks).symm, hok, hact.trans hactive,
    hlog.trans (log_reachLocal _ s), fun a ha => (hregs a ha).trans (rd_reachLocal _ s a)⟩

/-! ### A PLL that resumes -/

section ResumePll

variable (n : Fin 5) (s : State)

theorem resumePll_coast : fbit (resumePll n s) Reg.CLK_STATUS F.CLK_STATUS_coast n = false := by
  rw [fbit_of_rd ((resumePll_effect n s).regs _ (by decide)), coast_coastBits, if_pos rfl]

theorem resumePll_locked : fbit (resumePll n s) Reg.CLK_STATUS F.CLK_STATUS_locked n = true := by
  rw [fbit_of_rd ((resumePll_effect n s).regs _ (by decide)), locked_coastBits]
  rfl

theorem resumePll_refs {G : Fld} (hG : OfRefs G) : flg (resumePll n s) Reg.CLK_STATUS G = flg s Reg.CLK_STATUS G := by
  rw [flg_of_rd ((resumePll_effect n s).regs _ (by decide)), refs_coastBits _ _ _ hG]

theorem resumePll_onlyRegs : OnlyRegs [Reg.CLK_STATUS, Reg.TIME_STATE] s (resumePll n s) := by
  intro a ha
  simp only [List.mem_cons, List.not_mem_nil, or_false, not_or] at ha
  exact ((resumePll_effect n s).regs a ha.2).trans (rd_coastBits n false s ha.1)

theorem localNs_resumePll : localNs (resumePll n s) = localNs s := by
  rw [localNs, localNs, (resumePll_effect n s).ticks]
  rfl

end ResumePll

/-- PLL_D takes the MEMS reference. -/
def memsTaken (s : State) : State := resumePll 0 (setF s Reg.CLK_STATUS F.CLK_STATUS_ref_active 0)

theorem memsTaken_effect (s : State) :
    extActive (memsTaken s) = false ∧ fbit (memsTaken s) Reg.CLK_STATUS F.CLK_STATUS_coast 0 = false ∧
    fbit (memsTaken s) Reg.CLK_STATUS F.CLK_STATUS_locked 0 = true ∧ localNs (memsTaken s) = localNs s ∧
    OnlyRegs [Reg.CLK_STATUS, Reg.TIME_STATE] s (memsTaken s) ∧ (memsTaken s).log = s.log := by
  unfold memsTaken
  have hact : extActive (setF s Reg.CLK_STATUS F.CLK_STATUS_ref_active 0) = false := flg_setF s _ _ _ (by decide)
  refine ⟨(resumePll_refs _ _ (by decide)).trans hact, resumePll_coast 0 _, resumePll_locked 0 _,
    (localNs_resumePll ..).trans (localNs_of_ticks (setF_ticks ..)), fun a ha => ?_, (resumePll_effect 0 _).log⟩
  exact (resumePll_onlyRegs 0 _ a ha).trans (rd_setF_ne _ _ _ fun h => ha (h ▸ List.mem_cons_self))

theorem refFallback_effect {t0 : Nat} {s : State} (hfall : flg s Reg.CLK_REF_CFG F.CLK_REF_CFG_fallback = true)
    (hact : extActive s = true) (hext : s.time.lostExt = some t0) (hmems : s.time.lostMems = none) :
    ∃ t, exec .refFallback s = .next t ∧ extActive t = false ∧ fbit t Reg.CLK_STATUS F.CLK_STATUS_coast 0 = false ∧
      fbit t Reg.CLK_STATUS F.CLK_STATUS_locked 0 = true ∧ t0 + 100000000 ≤ localNs t ∧
      OnlyRegs [Reg.CLK_STATUS, Reg.TIME_STATE] s t ∧ t.log = s.log := by
  have hrun : exec .refFallback s = .next (memsTaken (after100ms s.time.lostExt s)) :=
    if_pos ⟨hfall, hact, by rw [hext]; rfl, by rw [hmems]; rfl⟩
  rw [hext, after100ms_some] at hrun
  obtain ⟨hoff, hcoast, hlocked, hns, hregs, hlog⟩ := memsTaken_effect (reachLocal (t0 + 100000000) s)
  exact ⟨_, hrun, hoff, hcoast, hlocked, (localNs_reachLocal _ s).trans_eq hns.symm,
    fun a ha => (hregs a ha).trans (rd_reachLocal _ s a), hlog.trans (log_reachLocal _ s)⟩

end Sys2Proof.Machine

namespace Sys2Proof.Proofs

open Sys2Proof Sys2Proof.Machine Sys2Proof.Safety Sys2Proof.Laws

/-- Settles O31, by what coasting and resuming do to the bits of a PLL. -/
theorem references : Obligations.References := by
  refine ⟨fun ext off s hnew hsel hroom => ?_, fun n s hnew hroom => ?_, fun ext t0 s hlost hsel hroom => ?_,
    fun n s hcoast hthere hroom => ?_, fun t0 s hfall hact hext hmems => ?_⟩
  · obtain ⟨hlost, hok, hregs, hlog⟩ := lossNoted_reach hsel
    obtain ⟨hreach, hcoast⟩ := lossTaken_reach (ext := ext) (off := off) hroom
    have hroom' := hreach.room (k := 1) (by rw [Room, hlog]; exact hroom)
    have hrd := rd_logN_room (s := lossTaken ext off s) (x := lossTaken ext off s) 0x2001 (b2n ext) (if off then 2 else 1) rfl hroom'
    have htime : (logN 0x2001 (b2n ext) (if off then 2 else 1) (lossTaken ext off s)).time = (lossTaken ext off s).time :=
      logEvent_time ..
    have hlogged := logged_logN (s := lossTaken ext off s) (x := lossTaken ext off s) 0x2001 (b2n ext) (if off then 2 else 1) rfl hroom'
    obtain ⟨es, hes, -⟩ := hreach.log
    refine ⟨_, execRefLost_new hnew hsel hroom, ?_, ?_, fun n hn => ?_, ?_, fun a ha => ?_⟩
    · rw [htime, hreach.lostExt, hreach.lostMems]
      exact hlost
    · rw [flg_of_rd (hrd _), hreach.refs _ (by cases ext <;> decide)]
      exact hok
    · exact (fbit_of_rd (hrd _) _ _).trans (hcoast n hn)
    · rw [hlog] at hes
      have hraises := raises_of_logged hes hlogged
      cases off <;> exact hraises
    · refine (hrd a).trans ((hreach.regs a ha).trans (hregs a fun h => ha ?_))
      rw [h]
      exact List.mem_cons_self
  · have h := coastPll_coasts (reason := 2) (back := frozenBack false) hnew hroom
    have hclk := h.regs Reg.CLK_STATUS (by decide) (by decide)
    refine ⟨_, rfl, ?_, ?_, ?_, fun hn hunset => timeState_coastPll hnew hroom hn hunset, h.logged, fun a ha => ?_⟩
    · rw [fbit_of_rd hclk, coast_coastBits, if_pos rfl]
    · rw [fbit_of_rd hclk, locked_coastBits]
      rfl
    · rw [h.coastFrom]
      simp
    · simp only [List.mem_cons, List.not_mem_nil, or_false, not_or] at ha
      obtain ⟨hne, hstate, hfreq⟩ := ha
      exact (h.regs a hstate hfreq).trans (rd_coastBits n true s hne)
  · obtain ⟨hnone, hns, hok, hact, hlog, hregs⟩ := restoredNoted_effect hlost
    have hrun := execRefRestored_lost (by rw [hlost]; rfl) hsel
    generalize restoredNoted ext s = y at hnone hns hok hact hlog hregs hrun
    have hrd := rd_logN_room 0x2002 (b2n ext) 0 hlog hroom
    have htime : (logN 0x2002 (b2n ext) 0 y).time = y.time := logEvent_time ..
    have hns' : localNs (logN 0x2002 (b2n ext) 0 y) = localNs y := localNs_of_ticks (logEvent_ticks ..)
    have hlogged := logged_logN 0x2002 (b2n ext) 0 hlog hroom
    have hact' : extActive (logN 0x2002 (b2n ext) 0 y) = extActive s := (flg_of_rd (hrd _) _).trans hact
    have hok' := (flg_of_rd (hrd _) _).trans hok
    have hregs' : OnlyRegs [Reg.CLK_STATUS, Reg.TIME_STATE] s (logN 0x2002 (b2n ext) 0 y) := fun a ha =>
      (hrd a).trans (hregs a fun h => ha (h ▸ List.mem_cons_self))
    rw [← htime] at hnone
    rw [← hns'] at hns
    generalize logN 0x2002 (b2n ext) 0 y = z at hnone hns hact' hok' hregs' hlogged hrun
    refine ⟨_, hrun, ?_⟩
    cases hres : extActive z == ext && fbit z Reg.CLK_STATUS F.CLK_STATUS_coast 0 with
    | true =>
      have hkept := resumePll_effect 0 z
      refine ⟨?_, ?_, ?_, fun _ => resumePll_coast 0 z, logged_congr hlogged hkept.log hkept.tai,
        fun a ha => (resumePll_onlyRegs 0 z a ha).trans (hregs' a ha)⟩
      · rw [whenS_true, hkept.lostExt, hkept.lostMems]
        exact hnone
      · rw [whenS_true, localNs_resumePll]
        exact hns
      · rw [whenS_true, resumePll_refs _ _ (by cases ext <;> decide)]
        exact hok'
    | false =>
      refine ⟨hnone, hns, hok', fun h => ?_, hlogged, hregs'⟩
      rw [hact', h, beq_self_eq_true, Bool.true_and] at hres
      exact hres
  · have hrun : exec (.pllRelocked n) s = .next (whenS (n != 0) (logN 0x2004 n
        (min ((localNs s - s.time.coastFrom[n]) / 1000) 0xFFFFFFFF)) (resumePll n s)) := if_pos ⟨hcoast, by rw [hthere]; rfl⟩
    have hkept := resumePll_effect n s
    by_cases hn : n = 0
    · rw [bne_eq_false_iff_eq.2 hn, whenS_false] at hrun
      refine ⟨_, hrun, resumePll_coast n s, resumePll_locked n s, resumePll_onlyRegs n s, ?_⟩
      rw [if_pos hn]
      exact logged_congr (logged_nil rfl) hkept.log hkept.tai
    · rw [bne_iff_ne.2 hn, whenS_true] at hrun
      have hrd := rd_logN_room 0x2004 n (min ((localNs s - s.time.coastFrom[n]) / 1000) 0xFFFFFFFF) hkept.log hroom
      refine ⟨_, hrun, (fbit_of_rd (hrd _) _ _).trans (resumePll_coast n s), (fbit_of_rd (hrd _) _ _).trans (resumePll_locked n s),
        fun a ha => (hrd a).trans (resumePll_onlyRegs n s a ha), ?_⟩
      rw [if_neg hn]
      exact logged_logN _ _ _ hkept.log hroom
  · exact refFallback_effect hfall hact hext hmems

end Sys2Proof.Proofs
end


section
/-! PROOFS. The commands of a SAR core (R142, R146, R148). -/

namespace Sys2Proof.Machine

open Sys2Proof Sys2Proof.Safety Sys2Proof.Laws

/-! ### The state of a core in ADC_STATUS -/

section AdcState

variable (c : Fin 4) (s : State)

theorem adcState_setAdcState (k : Nat) (hk : k < 4) : adcState (setAdcState c k s) c = k :=
  (fld_setF s Reg.ADC_STATUS ⟨2 * c, 2⟩ k (by change 2 * c.val + 2 ≤ 32; omega)).trans (Nat.mod_eq_of_lt hk)

theorem adcState_setStatus (G : Fld) (k : Nat) (hG : 8 ≤ G.lo) : adcState (setF s Reg.ADC_STATUS G k) c = adcState s c :=
  fld_setF_disj s Reg.ADC_STATUS G ⟨2 * c, 2⟩ k (.inl (by change 2 * c.val + 2 ≤ G.lo; omega))

theorem adcState_of_rd {x : State} (h : rd x Reg.ADC_STATUS = rd s Reg.ADC_STATUS) : adcState x c = adcState s c := by
  rw [adcState, adcState, h]

theorem calValid_of_rd {x : State} (h : rd x Reg.ADC_STATUS = rd s Reg.ADC_STATUS) : calValid x c = calValid s c :=
  fbit_of_rd h _ _

theorem adcState_adcErr : adcState (adcErr s) c = adcState s c := adcState_setStatus c s _ _ (by decide)

theorem calValid_adcErr : calValid (adcErr s) c = calValid s c := by
  have hfld : fld (adcErr s) Reg.ADC_STATUS F.ADC_STATUS_cal_valid = fld s Reg.ADC_STATUS F.ADC_STATUS_cal_valid :=
    fld_setF_disj s _ _ _ _ (by decide)
  rw [calValid, fbit, hfld, calValid, fbit]

theorem cfgErr_adcErr : flg (adcErr s) Reg.ADC_STATUS F.ADC_STATUS_cfg_err = true := flg_setF s _ _ _ (by decide)

theorem adc_adcErr : (adcErr s).adc = s.adc := rfl

end AdcState

/-! ### What a write of ADC_x_CTRL does before stop, run and cal -/

/-- seq_last and lp as a write takes them (R142, R149). -/
def ctrlSet (c : Fin 4) (v : Word) (s : State) : State :=
  let s := if lockedAt s (Reg.ADC_CTRL c) then s
    else setF s (Reg.ADC_CTRL c) F.ADC_CTRL_seq_last (getF v F.ADC_CTRL_seq_last)
  let lp := getF v F.ADC_CTRL_lp
  if lp = fld s (Reg.ADC_CTRL c) F.ADC_CTRL_lp then s
  else if adcState s c = adcIdle then setF s (Reg.ADC_CTRL c) F.ADC_CTRL_lp lp
  else adcErr s

theorem writeAdcCtrl_eq (c : Fin 4) (v : Word) (s : State) : writeAdcCtrl c v s =
    whenS (getF v F.ADC_CTRL_cal == 1) (calCore c)
      ((fun x => if getF v F.ADC_CTRL_stop = 1 then stopCore c x else whenS (getF v F.ADC_CTRL_run == 1) (runCore c) x)
        (whenS (getF v F.ADC_CTRL_commit == 1) (commitTable c) (ctrlSet c v s))) := rfl

/-- What a write of ADC_x_CTRL leaves before it stops, runs or calibrates the core. -/
structure CtrlTaken (c : Fin 4) (s x : State) : Prop where
  state : adcState x c = adcState s c
  cal : calValid x c = calValid s c
  regs : ∀ a, a ≠ Reg.ADC_CTRL c → a ≠ Reg.ADC_STATUS → rd x a = rd s a
  reply : x.busReply = s.busReply
  tai : x.tai = s.tai
  busy : adcState s c ≠ adcIdle → x.adc = s.adc ∧
    fld x (Reg.ADC_CTRL c) F.ADC_CTRL_lp = fld s (Reg.ADC_CTRL c) F.ADC_CTRL_lp

section CtrlTaken

variable {c : Fin 4} {s x y : State}

theorem ADC_CTRL_ne_STATUS (c : Fin 4) : Reg.ADC_CTRL c ≠ Reg.ADC_STATUS := by
  simp only [Reg.ADC_CTRL, Reg.ADC_STATUS]
  omega

theorem CtrlTaken.refl : CtrlTaken c s s := ⟨rfl, rfl, fun _ _ _ => rfl, rfl, rfl, fun _ => ⟨rfl, rfl⟩⟩

theorem CtrlTaken.trans (h : CtrlTaken c s x) (h' : CtrlTaken c x y) : CtrlTaken c s y :=
  ⟨h'.state.trans h.state, h'.cal.trans h.cal, fun a ha hb => (h'.regs a ha hb).trans (h.regs a ha hb), h'.reply.trans h.reply,
    h'.tai.trans h.tai, fun hb =>
      have hx := h'.busy (h.state.trans_ne hb)
      ⟨hx.1.trans (h.busy hb).1, hx.2.trans (h.busy hb).2⟩⟩

/-- A field of ADC_x_CTRL is set. -/
theorem ctrlTaken_setCtrl (G : Fld) (k : Nat)
    (hlp : adcState s c ≠ adcIdle → F.ADC_CTRL_lp.lo + F.ADC_CTRL_lp.w ≤ G.lo ∨ G.lo + G.w ≤ F.ADC_CTRL_lp.lo) :
    CtrlTaken c s (setF s (Reg.ADC_CTRL c) G k) := by
  have hstatus : rd (setF s (Reg.ADC_CTRL c) G k) Reg.ADC_STATUS = rd s Reg.ADC_STATUS := rd_setF_ne s _ _ (ADC_CTRL_ne_STATUS c).symm
  exact ⟨adcState_of_rd c s hstatus, calValid_of_rd c s hstatus, fun a ha _ => rd_setF_ne s _ _ ha, rfl, rfl,
    fun hb => ⟨rfl, fld_setF_disj s _ _ _ _ (hlp hb)⟩⟩

theorem ctrlTaken_adcErr : CtrlTaken c s (adcErr s) :=
  ⟨adcState_adcErr c s, calValid_adcErr c s, fun _ _ ha => rd_setF_ne s _ _ ha, rfl, rfl,
    fun _ => ⟨rfl, fld_setF_ne s _ _ _ (ADC_CTRL_ne_STATUS c)⟩⟩

theorem ctrlTaken_ctrlSet (v : Word) : CtrlTaken c s (ctrlSet c v s) := by
  have hlp : ∀ x, CtrlTaken c x (if getF v F.ADC_CTRL_lp = fld x (Reg.ADC_CTRL c) F.ADC_CTRL_lp then x
      else if adcState x c = adcIdle then setF x (Reg.ADC_CTRL c) F.ADC_CTRL_lp (getF v F.ADC_CTRL_lp) else adcErr x) := by
    intro x
    split
    · exact .refl
    · split
      next hidle => exact ctrlTaken_setCtrl _ _ fun h => absurd hidle h
      next => exact ctrlTaken_adcErr
  unfold ctrlSet
  dsimp only
  split
  · exact hlp s
  · exact (ctrlTaken_setCtrl _ _ fun _ => by decide).trans (hlp _)

theorem ctrlSet_table (c : Fin 4) (v : Word) (s : State) : (ctrlSet c v s).adc = s.adc ∧
    fld (ctrlSet c v s) (Reg.ADC_CTRL c) F.ADC_CTRL_seq_last =
      if lockedAt s (Reg.ADC_CTRL c) then fld s (Reg.ADC_CTRL c) F.ADC_CTRL_seq_last else getF v F.ADC_CTRL_seq_last := by
  have hlp : ∀ x : State, (fun y : State => y.adc = x.adc ∧
      fld y (Reg.ADC_CTRL c) F.ADC_CTRL_seq_last = fld x (Reg.ADC_CTRL c) F.ADC_CTRL_seq_last)
      (if getF v F.ADC_CTRL_lp = fld x (Reg.ADC_CTRL c) F.ADC_CTRL_lp then x
      else if adcState x c = adcIdle then setF x (Reg.ADC_CTRL c) F.ADC_CTRL_lp (getF v F.ADC_CTRL_lp) else adcErr x) := by
    intro x
    split
    · exact ⟨rfl, rfl⟩
    · split
      · exact ⟨rfl, fld_setF_disj _ _ _ _ _ (by decide)⟩
      · exact ⟨rfl, fld_setF_ne _ _ _ _ (ADC_CTRL_ne_STATUS c)⟩
  unfold ctrlSet
  dsimp only
  split
  · exact hlp s
  · obtain ⟨hadc, hlast⟩ := hlp (setF s (Reg.ADC_CTRL c) F.ADC_CTRL_seq_last (getF v F.ADC_CTRL_seq_last))
    refine ⟨hadc, hlast.trans ((fld_setF _ _ _ _ (by decide)).trans (Nat.mod_eq_of_lt (getF_lt v _)))⟩

/-- An entry up to seq_last names no channel there is (Table 5.6). -/
def badTable (c : Fin 4) (s : State) : Bool :=
  (List.range (fld s (Reg.ADC_CTRL c) F.ADC_CTRL_seq_last + 1)).any (fun e => 20 ≤ seqChannel (rd s (Reg.ADC_SEQ c e)))

theorem commitTable_eq (c : Fin 4) (s : State) : commitTable c s =
    if badTable c s then adcErr s
    else if adcState s c = adcIdle then takeCommit c s
    else setF s (Reg.ADC_CTRL c) F.ADC_CTRL_commit 1 := rfl

theorem adcState_takeCommit : adcState (takeCommit c s) c = adcState s c :=
  adcState_of_rd c s (rd_setF_ne _ _ _ (ADC_CTRL_ne_STATUS c).symm)

theorem rd_takeCommit {a : Nat} (ha : a ≠ Reg.ADC_CTRL c) : rd (takeCommit c s) a = rd s a := rd_setF_ne _ _ _ ha

theorem ctrlTaken_commitTable : CtrlTaken c s (commitTable c s) := by
  rw [commitTable_eq]
  split
  · exact ctrlTaken_adcErr
  · split
    next hidle =>
      exact ⟨adcState_takeCommit, calValid_of_rd c s (rd_takeCommit (ADC_CTRL_ne_STATUS c).symm), fun a ha _ => rd_takeCommit ha, rfl, rfl,
        fun h => absurd hidle h⟩
    next => exact ctrlTaken_setCtrl _ _ fun _ => by decide

theorem ctrlTaken_commit (v : Word) :
    CtrlTaken c s (whenS (getF v F.ADC_CTRL_commit == 1) (commitTable c) (ctrlSet c v s)) := by
  cases getF v F.ADC_CTRL_commit == 1 with
  | true => exact (ctrlTaken_ctrlSet v).trans ctrlTaken_commitTable
  | false => exact ctrlTaken_ctrlSet v

end CtrlTaken

/-! ### Running, stopping and calibrating -/

/-- A core that has just been told to run, at entry 0 and waiting. -/
def coreReady (c : Fin 4) (s : State) : State :=
  let s := setAdcState c adcRunning s
  let s := setF s (Reg.ADC_STATE c) F.ADC_STATE_missed 0
  let s := setF s (Reg.ADC_STATE c) F.ADC_STATE_entry 0
  let s := setF s (Reg.ADC_STATE c) F.ADC_STATE_held 0
  setCore c { s.adc.cores[c] with rep := 0, waiting := true, start := none, held := none, prevCh := none } s

theorem startCore_eq (c : Fin 4) (s : State) : startCore c s =
    if fld (coreReady c s) (Reg.ADC_START c) F.ADC_START_src = 0
    then takeStart c (startInstant (coreReady c s) c) (coreReady c s) else coreReady c s := rfl

section Core

variable (c : Fin 4) (s : State)

theorem ADC_STATE_ne_STATUS : Reg.ADC_STATE c ≠ Reg.ADC_STATUS := by
  simp only [Reg.ADC_STATE, Reg.ADC_STATUS]
  omega

theorem cores_setCore (x : AdcCore) : (setCore c x s).adc.cores[c] = x := by simp [setCore]

theorem rd_setCore (x : AdcCore) (a : Nat) : rd (setCore c x s) a = rd s a := rfl

theorem fld_setCore (x : AdcCore) (a : Nat) (G : Fld) : fld (setCore c x s) a G = fld s a G := rfl

theorem adcState_setState (G : Fld) (k : Nat) : adcState (setF s (Reg.ADC_STATE c) G k) c = adcState s c :=
  adcState_of_rd c s (rd_setF_ne s _ _ (ADC_STATE_ne_STATUS c).symm)

theorem adcState_setCore (x : AdcCore) : adcState (setCore c x s) c = adcState s c := rfl

theorem coreReady_effect :
    adcState (coreReady c s) c = adcRunning ∧ fld (coreReady c s) (Reg.ADC_STATE c) F.ADC_STATE_entry = 0 ∧
    fld (coreReady c s) (Reg.ADC_STATE c) F.ADC_STATE_missed = 0 ∧ fld (coreReady c s) (Reg.ADC_STATE c) F.ADC_STATE_held = 0 ∧
    (coreReady c s).adc.cores[c].waiting = true ∧
    fld (coreReady c s) (Reg.ADC_START c) F.ADC_START_src = fld s (Reg.ADC_START c) F.ADC_START_src ∧
    (coreReady c s).busReply = s.busReply := by
  unfold coreReady
  dsimp only
  refine ⟨?_, ?_, ?_, ?_, ?_, ?_, rfl⟩
  · rw [adcState_setCore, adcState_setState, adcState_setState, adcState_setState]
    exact adcState_setAdcState c s adcRunning (by decide)
  · rw [fld_setCore, fld_setF_disj _ _ _ _ _ (by decide), fld_setF _ _ _ _ (by decide)]
    rfl
  · rw [fld_setCore, fld_setF_disj _ _ _ _ _ (by decide), fld_setF_disj _ _ _ _ _ (by decide), fld_setF _ _ _ _ (by decide)]
    rfl
  · rw [fld_setCore, fld_setF _ _ _ _ (by decide)]
    rfl
  · rw [cores_setCore]
  · have hne : Reg.ADC_START c ≠ Reg.ADC_STATE c := by simp only [Reg.ADC_START, Reg.ADC_STATE]; omega
    have hne' : Reg.ADC_START c ≠ Reg.ADC_STATUS := by simp only [Reg.ADC_START, Reg.ADC_STATUS]; omega
    rw [fld_setCore, fld_setF_ne _ _ _ _ hne, fld_setF_ne _ _ _ _ hne, fld_setF_ne _ _ _ _ hne]
    exact fld_of_rd (rd_wr_ne s _ hne') _

theorem takeStart_waiting {at' : Nat} {s : State} (hrun : adcState s c = adcRunning) (hwait : s.adc.cores[c].waiting = true) :
    takeStart c at' s = setCore c { s.adc.cores[c] with waiting := false, start := some at' } s := by
  unfold takeStart
  rw [if_neg (not_not.2 hrun)]
  exact if_pos hwait

theorem startCore_effect :
    adcState (startCore c s) c = adcRunning ∧ fld (startCore c s) (Reg.ADC_STATE c) F.ADC_STATE_entry = 0 ∧
    fld (startCore c s) (Reg.ADC_STATE c) F.ADC_STATE_missed = 0 ∧ fld (startCore c s) (Reg.ADC_STATE c) F.ADC_STATE_held = 0 ∧
    (startCore c s).adc.cores[c].waiting = decide (fld s (Reg.ADC_START c) F.ADC_START_src ≠ 0) ∧
    (startCore c s).busReply = s.busReply := by
  obtain ⟨hstate, hentry, hmissed, hheld, hwait, hsrc, hreply⟩ := coreReady_effect c s
  rw [startCore_eq, hsrc]
  generalize coreReady c s = y at hstate hentry hmissed hheld hwait hreply
  by_cases hzero : fld s (Reg.ADC_START c) F.ADC_START_src = 0
  · rw [if_pos hzero, takeStart_waiting c hstate hwait, decide_eq_false (not_not.2 hzero)]
    refine ⟨hstate, hentry, hmissed, hheld, ?_, hreply⟩
    rw [cores_setCore]
  · rw [if_neg hzero, decide_eq_true hzero]
    exact ⟨hstate, hentry, hmissed, hheld, hwait, hreply⟩

theorem coreToIdle_effect : adcState (coreToIdle c s) c = adcIdle ∧ (coreToIdle c s).busReply = s.busReply := by
  have hstate : adcState (setAdcState c adcIdle s) c = adcIdle := adcState_setAdcState c s adcIdle (by decide)
  have hheld : ∀ y : State, adcState y c = adcIdle → adcState (setF y (Reg.ADC_STATE c) F.ADC_STATE_held 0) c = adcIdle :=
    fun y hy => (adcState_of_rd c y (rd_setF_ne _ _ _ (ADC_STATE_ne_STATUS c).symm)).trans hy
  unfold coreToIdle
  dsimp only
  split
  · exact ⟨adcState_takeCommit.trans (hheld _ hstate), rfl⟩
  · exact ⟨hheld _ hstate, rfl⟩

theorem stopCore_effect {s : State} (hrun : adcState s c = adcRunning) :
    adcState (stopCore c s) c = (if s.adc.cores[c].waiting ∨ s.tai.toNat < (sampleInstant s c).1 then adcIdle else adcStopping) ∧
    (stopCore c s).busReply = s.busReply := by
  unfold stopCore
  rw [if_neg (not_not.2 hrun)]
  split
  · exact coreToIdle_effect c s
  · exact ⟨adcState_setAdcState c s adcStopping (by decide), rfl⟩

/-- The sample instant of a core whose registers of the sequencer and whose conversion time are as before. -/
theorem sampleInstant_congr {x : State} (hadc : x.adc = s.adc) (hstate : rd x (Reg.ADC_STATE c) = rd s (Reg.ADC_STATE c))
    (hlp : fld x (Reg.ADC_CTRL c) F.ADC_CTRL_lp = fld s (Reg.ADC_CTRL c) F.ADC_CTRL_lp) :
    sampleInstant x c = sampleInstant s c := by
  have hconv : convTime x c = convTime s c := by rw [convTime, convTime, flg, flg, hlp]
  unfold sampleInstant
  rw [hadc, fld_of_rd hstate, hconv]

end Core

end Sys2Proof.Machine

namespace Sys2Proof.Proofs

open Sys2Proof Sys2Proof.Machine Sys2Proof.Safety Sys2Proof.Laws

section AdcCommands

variable {m : Fin 8} {c : Fin 4} {v : Word} {s : State}

theorem adcRun_effect (hs : Served m true (Reg.ADC_CTRL c) 4 s) (hstop : getF v F.ADC_CTRL_stop = 0) (hidle : adcState s c = adcIdle) :
    (calValid s c = true → ∃ t, exec (.adcRun m c v) s = .next t ∧ t.busReply = .done ∧ adcState t c = adcRunning ∧
      fld t (Reg.ADC_STATE c) F.ADC_STATE_entry = 0 ∧ fld t (Reg.ADC_STATE c) F.ADC_STATE_missed = 0 ∧
      fld t (Reg.ADC_STATE c) F.ADC_STATE_held = 0 ∧
      t.adc.cores[c].waiting = decide (fld s (Reg.ADC_START c) F.ADC_START_src ≠ 0)) ∧
    (calValid s c = false → getF v F.ADC_CTRL_cal = 0 → ∃ t, exec (.adcRun m c v) s = .next t ∧ t.busReply = .done ∧
      adcState t c = adcIdle ∧ flg t Reg.ADC_STATUS F.ADC_STATUS_not_cal = true) := by
  have hrun : exec (.adcRun m c v) s = .next (writeAdcCtrl c (putF v F.ADC_CTRL_run 1) (reply .done s)) :=
    congrArg Host.Outcome.next (regCommand_ADC_CTRL _ hs)
  have hstop' : getF (putF v F.ADC_CTRL_run 1) F.ADC_CTRL_stop ≠ 1 := by
    rw [getF_putF_ne _ _ _ _ (by decide), hstop]
    decide
  have hcal' : getF (putF v F.ADC_CTRL_run 1) F.ADC_CTRL_cal = getF v F.ADC_CTRL_cal := getF_putF_ne _ _ _ _ (by decide)
  have hrun' : (getF (putF v F.ADC_CTRL_run 1) F.ADC_CTRL_run == 1) = true := by rw [getF_putF _ _ _ (by decide)]; rfl
  have htaken := ctrlTaken_commit (c := c) (s := reply .done s) (putF v F.ADC_CTRL_run 1)
  rw [writeAdcCtrl_eq] at hrun
  dsimp only at hrun
  rw [if_neg hstop', hrun', whenS_true, hcal'] at hrun
  generalize whenS (getF (putF v F.ADC_CTRL_run 1) F.ADC_CTRL_commit == 1) (commitTable c)
    (ctrlSet c (putF v F.ADC_CTRL_run 1) (reply .done s)) = x at hrun htaken
  have hidle' : adcState x c = adcIdle := htaken.state.trans hidle
  have hcalValid : calValid x c = calValid s c := htaken.cal
  have hrunCore : runCore c x = if calValid s c = true then startCore c x else setF x Reg.ADC_STATUS F.ADC_STATUS_not_cal 1 := by
    unfold runCore
    rw [if_neg (not_not.2 hidle'), hcalValid]
  rw [hrunCore] at hrun
  refine ⟨fun hvalid => ?_, fun hvalid hcal => ?_⟩
  · rw [if_pos hvalid] at hrun
    obtain ⟨hst, hentry, hmissed, hheld, hwait, hreply⟩ := startCore_effect c x
    have hsrc : fld x (Reg.ADC_START c) F.ADC_START_src = fld s (Reg.ADC_START c) F.ADC_START_src :=
      fld_of_rd (htaken.regs _ (by simp only [Reg.ADC_START, Reg.ADC_CTRL]; omega) (by simp only [Reg.ADC_START, Reg.ADC_STATUS]; omega)) _
    rw [hsrc] at hwait
    have hreply' := hreply.trans htaken.reply
    generalize startCore c x = y at hst hentry hmissed hheld hwait hreply' hrun
    cases hc : getF v F.ADC_CTRL_cal == 1 with
    | false =>
      rw [hc, whenS_false] at hrun
      exact ⟨y, hrun, hreply', hst, hentry, hmissed, hheld, hwait⟩
    | true =>
      have hcalCore : calCore c y = adcErr y := by
        unfold calCore
        rw [if_neg (by rw [hst]; decide), if_neg (by rw [hst]; decide)]
      have hrd : rd (adcErr y) (Reg.ADC_STATE c) = rd y (Reg.ADC_STATE c) := rd_setF_ne y _ _ (ADC_STATE_ne_STATUS c)
      rw [hc, whenS_true, hcalCore] at hrun
      exact ⟨_, hrun, hreply', (adcState_adcErr c y).trans hst, (fld_of_rd hrd _).trans hentry, (fld_of_rd hrd _).trans hmissed,
        (fld_of_rd hrd _).trans hheld, hwait⟩
  · rw [if_neg (by rw [hvalid]; decide), hcal] at hrun
    exact ⟨_, hrun, htaken.reply, (adcState_setStatus c x _ _ (by decide)).trans hidle', flg_setF x _ _ _ (by decide)⟩

theorem adcStop_effect (hs : Served m true (Reg.ADC_CTRL c) 4 s) (hcal : getF v F.ADC_CTRL_cal = 0) (hrunning : adcState s c = adcRunning) :
    ∃ t, exec (.adcStop m c v) s = .next t ∧ t.busReply = .done ∧
      adcState t c = (if s.adc.cores[c].waiting ∨ s.tai.toNat < (sampleInstant s c).1 then adcIdle else adcStopping) := by
  have hrun : exec (.adcStop m c v) s = .next (writeAdcCtrl c (putF v F.ADC_CTRL_stop 1) (reply .done s)) :=
    congrArg Host.Outcome.next (regCommand_ADC_CTRL _ hs)
  have hstop' : getF (putF v F.ADC_CTRL_stop 1) F.ADC_CTRL_stop = 1 := by rw [getF_putF _ _ _ (by decide)]; rfl
  have hcal' : (getF (putF v F.ADC_CTRL_stop 1) F.ADC_CTRL_cal == 1) = false := by
    rw [getF_putF_ne _ _ _ _ (by decide), hcal]
    rfl
  have htaken := ctrlTaken_commit (c := c) (s := reply .done s) (putF v F.ADC_CTRL_stop 1)
  rw [writeAdcCtrl_eq] at hrun
  dsimp only at hrun
  rw [if_pos hstop', hcal', whenS_false] at hrun
  generalize whenS (getF (putF v F.ADC_CTRL_stop 1) F.ADC_CTRL_commit == 1) (commitTable c)
    (ctrlSet c (putF v F.ADC_CTRL_stop 1) (reply .done s)) = x at hrun htaken
  obtain ⟨hadc, hlp⟩ := htaken.busy (by rw [show adcState (reply .done s) c = adcRunning from hrunning]; decide)
  have hregs : rd x (Reg.ADC_STATE c) = rd s (Reg.ADC_STATE c) :=
    htaken.regs _ (by simp only [Reg.ADC_STATE, Reg.ADC_CTRL]; omega) (ADC_STATE_ne_STATUS c)
  have hsample : sampleInstant x c = sampleInstant s c := sampleInstant_congr c s hadc hregs hlp
  obtain ⟨hst, hreply⟩ := stopCore_effect c (htaken.state.trans hrunning)
  have htai : x.tai = s.tai := htaken.tai
  have hadc' : x.adc = s.adc := hadc
  rw [hsample, htai, hadc'] at hst
  exact ⟨_, hrun, hreply.trans htaken.reply, hst⟩

theorem adcCal_effect (hs : Served m true (Reg.ADC_CTRL c) 4 s) (hnorun : getF v F.ADC_CTRL_run = 0) :
    (adcState s c = adcIdle → ∃ t, exec (.adcCal m c v) s = .next t ∧ t.busReply = .done ∧ adcState t c = adcCalibrating) ∧
    (adcState s c = adcRunning ∨ adcState s c = adcStopping → getF v F.ADC_CTRL_stop = 0 →
      ∃ t, exec (.adcCal m c v) s = .next t ∧ t.busReply = .done ∧ adcState t c = adcState s c ∧
        flg t Reg.ADC_STATUS F.ADC_STATUS_cfg_err = true) := by
  have hrun : exec (.adcCal m c v) s = .next (writeAdcCtrl c (putF v F.ADC_CTRL_cal 1) (reply .done s)) :=
    congrArg Host.Outcome.next (regCommand_ADC_CTRL _ hs)
  have hcal' : (getF (putF v F.ADC_CTRL_cal 1) F.ADC_CTRL_cal == 1) = true := by rw [getF_putF _ _ _ (by decide)]; rfl
  have hrun' : (getF (putF v F.ADC_CTRL_cal 1) F.ADC_CTRL_run == 1) = false := by
    rw [getF_putF_ne _ _ _ _ (by decide), hnorun]
    rfl
  have hstop' : getF (putF v F.ADC_CTRL_cal 1) F.ADC_CTRL_stop = getF v F.ADC_CTRL_stop := getF_putF_ne _ _ _ _ (by decide)
  have htaken := ctrlTaken_commit (c := c) (s := reply .done s) (putF v F.ADC_CTRL_cal 1)
  rw [writeAdcCtrl_eq] at hrun
  dsimp only at hrun
  rw [hcal', hrun', whenS_true, whenS_false, hstop'] at hrun
  generalize whenS (getF (putF v F.ADC_CTRL_cal 1) F.ADC_CTRL_commit == 1) (commitTable c)
    (ctrlSet c (putF v F.ADC_CTRL_cal 1) (reply .done s)) = x at hrun htaken
  have hstate : adcState x c = adcState s c := htaken.state
  refine ⟨fun hidle => ?_, fun hbusy hstop => ?_⟩
  · have hstay : (if getF v F.ADC_CTRL_stop = 1 then stopCore c x else x) = x := by
      split
      · exact if_pos (by rw [hstate, hidle]; decide)
      · rfl
    have hcalCore : calCore c x = setAdcState c adcCalibrating x := if_pos (hstate.trans hidle)
    rw [hstay, hcalCore] at hrun
    exact ⟨_, hrun, htaken.reply, adcState_setAdcState c x _ (by decide)⟩
  · have hcalCore : calCore c x = adcErr x := by
      unfold calCore
      rw [hstate]
      rcases hbusy with h | h <;> rw [h, if_neg (by decide), if_neg (by decide)]
    rw [hstop, if_neg (by decide), hcalCore] at hrun
    exact ⟨_, hrun, htaken.reply, (adcState_adcErr c x).trans hstate, cfgErr_adcErr x⟩

theorem adcCommit_effect (hs : Served m true (Reg.ADC_CTRL c) 4 s) (hnorun : getF v F.ADC_CTRL_run = 0)
    (hstop : getF v F.ADC_CTRL_stop = 0) (hcal : getF v F.ADC_CTRL_cal = 0) :
    let last := if lockedAt s (Reg.ADC_CTRL c) then fld s (Reg.ADC_CTRL c) F.ADC_CTRL_seq_last else getF v F.ADC_CTRL_seq_last
    let good := ∀ e ≤ last, seqChannel (rd s (Reg.ADC_SEQ c e)) < 20
    ∃ t, exec (.adcCommit m c v) s = .next t ∧ t.busReply = .done ∧ adcState t c = adcState s c ∧
      (good → adcState s c = adcIdle → t.adc.cores[c].live = shadowTable s c ∧ t.adc.cores[c].liveLast = last ∧
        flg t (Reg.ADC_CTRL c) F.ADC_CTRL_commit = false) ∧
      (good → adcState s c ≠ adcIdle → t.adc = s.adc ∧ flg t (Reg.ADC_CTRL c) F.ADC_CTRL_commit = true) ∧
      (¬ good → t.adc = s.adc ∧ flg t Reg.ADC_STATUS F.ADC_STATUS_cfg_err = true) := by
  intro last good
  have hrun : exec (.adcCommit m c v) s = .next (writeAdcCtrl c (putF v F.ADC_CTRL_commit 1) (reply .done s)) :=
    congrArg Host.Outcome.next (regCommand_ADC_CTRL _ hs)
  have hkeep : ∀ G : Fld, G.lo + G.w ≤ F.ADC_CTRL_commit.lo ∨ F.ADC_CTRL_commit.lo + F.ADC_CTRL_commit.w ≤ G.lo →
      getF (putF v F.ADC_CTRL_commit 1) G = getF v G := fun G hG => getF_putF_ne _ _ _ _ hG
  have hcommit' : (getF (putF v F.ADC_CTRL_commit 1) F.ADC_CTRL_commit == 1) = true := by rw [getF_putF _ _ _ (by decide)]; rfl
  rw [writeAdcCtrl_eq] at hrun
  dsimp only at hrun
  rw [hcommit', hkeep F.ADC_CTRL_cal (by decide), hkeep F.ADC_CTRL_stop (by decide), hkeep F.ADC_CTRL_run (by decide),
    hnorun, hstop, hcal, if_neg (by decide), whenS_true] at hrun
  have hrun : exec (.adcCommit m c v) s = .next (commitTable c (ctrlSet c (putF v F.ADC_CTRL_commit 1) (reply .done s))) := hrun
  have htaken := ctrlTaken_ctrlSet (c := c) (s := reply .done s) (putF v F.ADC_CTRL_commit 1)
  obtain ⟨hadc, hlast⟩ := ctrlSet_table c (putF v F.ADC_CTRL_commit 1) (reply .done s)
  rw [hkeep F.ADC_CTRL_seq_last (by decide)] at hlast
  generalize ctrlSet c (putF v F.ADC_CTRL_commit 1) (reply .done s) = x at hrun htaken hadc hlast
  have hlast' : fld x (Reg.ADC_CTRL c) F.ADC_CTRL_seq_last = last := hlast
  have hstate : adcState x c = adcState s c := htaken.state
  have hseq : ∀ e, rd x (Reg.ADC_SEQ c e) = rd s (Reg.ADC_SEQ c e) := fun e =>
    htaken.regs _ (by simp only [Reg.ADC_SEQ, Reg.ADC_CTRL]; omega) (by simp only [Reg.ADC_SEQ, Reg.ADC_STATUS]; omega)
  have hbad : badTable c x = true ↔ ¬ good := by
    unfold badTable
    rw [hlast']
    simp only [hseq, List.any_eq_true, List.mem_range, decide_eq_true_eq, good]
    push Not
    exact ⟨fun ⟨e, he, h⟩ => ⟨e, Nat.lt_succ_iff.1 he, h⟩, fun ⟨e, he, h⟩ => ⟨e, Nat.lt_succ_iff.2 he, h⟩⟩
  have htotal := ctrlTaken_commitTable (c := c) (s := x)
  refine ⟨_, hrun, htotal.reply.trans htaken.reply, htotal.state.trans hstate, fun hgood hidle => ?_, fun hgood hbusy => ?_, fun hno => ?_⟩
  · rw [commitTable_eq, if_neg (fun h => hbad.1 h hgood), if_pos (hstate.trans hidle)]
    have hcore : (takeCommit c x).adc.cores[c] = { x.adc.cores[c] with
        live := shadowTable x c, liveLast := fld x (Reg.ADC_CTRL c) F.ADC_CTRL_seq_last } := cores_setCore c x _
    rw [hcore]
    refine ⟨?_, hlast', flg_setF _ _ _ _ (by decide)⟩
    exact List.map_congr_left fun e _ => hseq e
  · rw [commitTable_eq, if_neg (fun h => hbad.1 h hgood), if_neg (hstate.trans_ne hbusy)]
    exact ⟨hadc, flg_setF _ _ _ _ (by decide)⟩
  · rw [commitTable_eq, if_pos (hbad.2 hno)]
    exact ⟨hadc, cfgErr_adcErr x⟩

end AdcCommands

/-- Settles O32, command by command: what precedes stop, run and cal in a write leaves the core's state. -/
theorem adcCommands : Obligations.AdcCommands :=
  ⟨fun _ _ _ _ hs hstop hidle => adcRun_effect hs hstop hidle, fun _ _ _ _ hs hcal hrun => adcStop_effect hs hcal hrun,
    fun _ _ _ _ hs hrun => adcCal_effect hs hrun, fun _ _ _ _ hs hrun hstop hcal => adcCommit_effect hs hrun hstop hcal⟩

end Sys2Proof.Proofs
end


section
/-! PROOFS. Start events, conversions and calibrations of a SAR core (R139, R143 to R148). -/

namespace Sys2Proof.Machine

open Sys2Proof Sys2Proof.Safety Sys2Proof.Laws

/-! ### Start events (R144, R145) -/

theorem gridFrom_mod {period q : Nat} (hpos : 0 < period) : gridFrom (0 % period) period q % period = 0 := by
  have hlt := Nat.mod_lt q hpos
  have hdiv := Nat.div_add_mod q period
  unfold gridFrom
  rw [Nat.zero_mod, Nat.zero_add]
  by_cases hzero : q % period = 0
  · rw [hzero, Nat.sub_zero, Nat.mod_self, Nat.add_zero, hzero]
  · rw [Nat.mod_eq_of_lt (by omega : period - q % period < period),
      show q + (period - q % period) = (q / period + 1) * period by rw [Nat.add_mul, Nat.mul_comm (q / period)]; omega,
      Nat.mul_mod_left]

theorem gridFrom_bounds {base period q : Nat} (hpos : 0 < period) :
    q ≤ gridFrom base period q ∧ gridFrom base period q < q + period := by
  have hlt := Nat.mod_lt (base + period - q % period) hpos
  unfold gridFrom
  omega

/-- A counter that comes to an instant of a grid stands within a tick after it. -/
theorem tai_advance_grid {s : State} {period : Nat} {taken : Option Nat} (hpos : 5 ≤ period)
    (hfit : s.tai.toNat + period + 10 < 2 ^ 66) :
    (advanceTo s (gridNext s 0 period taken)).tai.toNat % period < 5 := by
  have hmod := gridFrom_mod (q := if taken = some s.ticks then s.tai.toNat + 5 else s.tai.toNat) (by omega : 0 < period)
  have hbounds := gridFrom_bounds (base := 0 % period) (q := if taken = some s.ticks then s.tai.toNat + 5 else s.tai.toNat)
    (by omega : 0 < period)
  rw [gridNext]
  have hq : s.tai.toNat ≤ (if taken = some s.ticks then s.tai.toNat + 5 else s.tai.toNat) ∧
      (if taken = some s.ticks then s.tai.toNat + 5 else s.tai.toNat) ≤ s.tai.toNat + 5 := by split <;> omega
  generalize (if taken = some s.ticks then s.tai.toNat + 5 else s.tai.toNat) = q at hmod hbounds hq
  generalize gridFrom (0 % period) period q = r at hmod hbounds
  have hreach := advanceTo_reaches (s := s) (q := r) (by omega) (by omega)
  obtain ⟨k, hk⟩ := Nat.dvd_of_mod_eq_zero hmod
  have hsum : (advanceTo s r).tai.toNat = ((advanceTo s r).tai.toNat - r) + period * k := by omega
  rw [hsum, Nat.add_mul_mod_self_left, Nat.mod_eq_of_lt (by omega)]
  omega

section StartEvent

variable {c : Fin 4} {at' : Nat} {s : State} (hrun : adcState s c = adcRunning)

theorem takeStart_idle (h : adcState s c ≠ adcRunning) : takeStart c at' s = s := if_pos h

include hrun

theorem takeStart_held (hwait : s.adc.cores[c].waiting = false) (hheld : s.adc.cores[c].held = none)
    (hwaits : (s.adc.cores[c].live.take (s.adc.cores[c].liveLast + 1)).any seqWait = true) :
    takeStart c at' s = setF (setCore c { s.adc.cores[c] with held := some at' } s) (Reg.ADC_STATE c) F.ADC_STATE_held 1 := by
  unfold takeStart
  dsimp only
  rw [if_neg (not_not.2 hrun), hwait, if_neg Bool.false_ne_true, hheld, hwaits]
  rfl

theorem takeStart_missed (hwait : s.adc.cores[c].waiting = false)
    (hno : s.adc.cores[c].held.isSome = true ∨ (s.adc.cores[c].live.take (s.adc.cores[c].liveLast + 1)).any seqWait = false) :
    takeStart c at' s = missStart c s := by
  have hcond : (s.adc.cores[c].held.isSome || !((s.adc.cores[c].live.take (s.adc.cores[c].liveLast + 1)).any seqWait)) = true := by
    rcases hno with h | h <;> rw [h]
    · rfl
    · exact Bool.or_true _
  unfold takeStart
  dsimp only
  rw [if_neg (not_not.2 hrun), hwait, if_neg Bool.false_ne_true, if_pos hcond]

end StartEvent

/-- A missed start event is counted. -/
def missCounted (c : Fin 4) (s : State) : State :=
  setF s (Reg.ADC_STATE c) F.ADC_STATE_missed (min 0xFFFF (fld s (Reg.ADC_STATE c) F.ADC_STATE_missed + 1))

/-- Is a missed start event due in the log? -/
def missDue (c : Fin 4) (s : State) : Bool :=
  match s.adc.cores[c].missedLogged with
  | none => true
  | some t => t + 1000000000 ≤ localNs s

/-- A counted missed start event is logged, or waits for its second. -/
def missNoted (c : Fin 4) (s : State) : State :=
  if missDue c s then logN 0x3003 c (s.adc.cores[c].missedNew + 1)
    (setCore c { s.adc.cores[c] with missedNew := 0, missedLogged := some (localNs s) } s)
  else setCore c { s.adc.cores[c] with missedNew := s.adc.cores[c].missedNew + 1 } s

theorem missStart_eq (c : Fin 4) (s : State) : missStart c s = missNoted c (missCounted c s) := rfl

theorem missNoted_effect (c : Fin 4) (s : State) :
    (missNoted c s).adc.cores[c].held = s.adc.cores[c].held ∧ (missNoted c s).tai = s.tai ∧
    rd (missNoted c s) Reg.ADC_STATUS = rd s Reg.ADC_STATUS ∧ rd (missNoted c s) (Reg.ADC_STATE c) = rd s (Reg.ADC_STATE c) := by
  have hlo : Reg.ADC_STATE c ≠ Reg.CMD_STATUS ∧ Reg.ADC_STATE c ≠ Reg.CMD_EVT_LOST := by
    simp only [Reg.ADC_STATE, Reg.CMD_STATUS, Reg.CMD_EVT_LOST]
    omega
  unfold missNoted
  split
  · refine ⟨?_, logEvent_tai .., rd_logEvent _ _ _ _ (by decide) (by decide), rd_logEvent _ _ _ _ hlo.1 hlo.2⟩
    refine (congrArg (fun a : AdcState => a.cores[c].held) (logEvent_adc ..)).trans ?_
    rw [cores_setCore]
  · refine ⟨?_, rfl, rfl, rfl⟩
    rw [cores_setCore]

theorem missStart_effect (c : Fin 4) (s : State) :
    (missStart c s).adc.cores[c].held = s.adc.cores[c].held ∧ (missStart c s).tai = s.tai ∧
    adcState (missStart c s) c = adcState s c ∧
    fld (missStart c s) (Reg.ADC_STATE c) F.ADC_STATE_missed = min 0xFFFF (fld s (Reg.ADC_STATE c) F.ADC_STATE_missed + 1) := by
  obtain ⟨hheld, htai, hstatus, hreg⟩ := missNoted_effect c (missCounted c s)
  have hmissed : fld (missCounted c s) (Reg.ADC_STATE c) F.ADC_STATE_missed =
      min 0xFFFF (fld s (Reg.ADC_STATE c) F.ADC_STATE_missed + 1) :=
    (fld_setF s _ _ _ (by decide)).trans (Nat.mod_eq_of_lt (Nat.lt_of_le_of_lt (Nat.min_le_left _ _) (by decide)))
  have hadc : (missCounted c s).adc = s.adc := rfl
  rw [missStart_eq]
  exact ⟨hheld.trans (by rw [hadc]), htai, (adcState_of_rd c _ hstatus).trans (adcState_setState c s _ _), (fld_of_rd hreg _).trans hmissed⟩

/-- A start event that has come to its instant. -/
def eventNoted (c : Fin 4) (s : State) : State := setCore c { s.adc.cores[c] with eventTick := some s.ticks } s

theorem startEvent_eq {c : Fin 4} {k : StartKind} {s : State} (h : startMatches s c k = true) : startEvent c k s =
    if s.adc.cores[c].eventTick = some s.ticks then s else takeStart c (startInstant s c) (eventNoted c s) := by
  unfold startEvent
  rw [h]
  simp only [Bool.not_true, Bool.false_eq_true, false_or]
  rfl

theorem startEvent_effect {c : Fin 4} {k : StartKind} {s : State} (h : startMatches s c k = true) :
    let x := s.adc.cores[c]
    let waits := (x.live.take (x.liveLast + 1)).any seqWait
    let t := startEvent c k s
    t.tai = s.tai ∧ (x.eventTick = some s.ticks → t = s) ∧
    (adcState s c ≠ adcRunning → OnlyRegs [] s t ∧ t.adc.cores[c].start = x.start ∧ t.adc.cores[c].held = x.held) ∧
    (x.eventTick ≠ some s.ticks → adcState s c = adcRunning → adcState t c = adcRunning ∧
      (x.waiting = true → t.adc.cores[c].waiting = false ∧ t.adc.cores[c].start = some (startInstant s c) ∧ OnlyRegs [] s t) ∧
      (x.waiting = false → x.held = none → waits = true → t.adc.cores[c].held = some (startInstant s c) ∧
        flg t (Reg.ADC_STATE c) F.ADC_STATE_held = true ∧ OnlyRegs [Reg.ADC_STATE c] s t) ∧
      (x.waiting = false → (x.held.isSome ∨ waits = false) → t.adc.cores[c].held = x.held ∧
        fld t (Reg.ADC_STATE c) F.ADC_STATE_missed = min 0xFFFF (fld s (Reg.ADC_STATE c) F.ADC_STATE_missed + 1))) := by
  intro x waits t
  have ht : t = startEvent c k s := rfl
  rw [startEvent_eq h] at ht
  by_cases htick : x.eventTick = some s.ticks
  · rw [if_pos htick] at ht
    rw [ht]
    exact ⟨rfl, fun _ => rfl, fun _ => ⟨fun _ _ => rfl, rfl, rfl⟩, fun hne => absurd htick hne⟩
  · rw [if_neg htick] at ht
    have hcore : (eventNoted c s).adc.cores[c] = { x with eventTick := some s.ticks } := cores_setCore c s _
    have hstate : adcState (eventNoted c s) c = adcState s c := adcState_setCore c s _
    have hrd : ∀ a, rd (eventNoted c s) a = rd s a := rd_setCore c s _
    have htai : (eventNoted c s).tai = s.tai := rfl
    generalize eventNoted c s = y at ht hcore hstate hrd htai
    have hstart : y.adc.cores[c].start = x.start := by rw [hcore]
    have hheld : y.adc.cores[c].held = x.held := by rw [hcore]
    have hwait : y.adc.cores[c].waiting = x.waiting := by rw [hcore]
    have hwaits : (y.adc.cores[c].live.take (y.adc.cores[c].liveLast + 1)).any seqWait = waits := by rw [hcore]
    by_cases hrun : adcState s c = adcRunning
    · have hrun' := hstate.trans hrun
      cases hw : x.waiting with
      | true =>
        rw [takeStart_waiting c hrun' (hwait.trans hw)] at ht
        rw [ht]
        refine ⟨htai, fun h => absurd h htick, fun h => absurd hrun h, fun _ _ => ⟨hrun', fun _ => ⟨?_, ?_, fun a _ => hrd a⟩,
          fun h => absurd h (by decide), fun h => absurd h (by decide)⟩⟩
        · rw [cores_setCore]
        · rw [cores_setCore]
      | false =>
        by_cases hhold : x.held = none ∧ waits = true
        · obtain ⟨hnone, hyes⟩ := hhold
          rw [takeStart_held hrun' (hwait.trans hw) (hheld.trans hnone) (hwaits.trans hyes)] at ht
          rw [ht]
          refine ⟨htai, fun h => absurd h htick, fun h => absurd hrun h, fun _ _ => ⟨?_, fun h => absurd h (by decide),
            fun _ _ _ => ⟨?_, flg_setF _ _ _ _ (by decide), fun a ha => ?_⟩, fun _ hno => ?_⟩⟩
          · rw [adcState_setState, adcState_setCore]
            exact hrun'
          · rw [setF_adc, cores_setCore]
          · exact (rd_setF_ne _ _ _ (by simpa using ha)).trans (hrd a)
          · rw [hnone, hyes] at hno
            simp at hno
        · have hno : x.held.isSome = true ∨ waits = false := by
            by_contra hcon
            push Not at hcon
            obtain ⟨hnone, hyes⟩ := hcon
            exact hhold ⟨Option.not_isSome_iff_eq_none.1 hnone, by simpa using hyes⟩
          rw [takeStart_missed hrun' (hwait.trans hw) (by rw [hheld, hwaits]; exact hno)] at ht
          obtain ⟨hkeep, htai', hst, hcount⟩ := missStart_effect c y
          rw [ht]
          refine ⟨htai'.trans htai, fun h => absurd h htick, fun h => absurd hrun h, fun _ _ => ⟨hst.trans hrun', fun h => absurd h (by decide),
            fun _ hnone hyes => absurd ⟨hnone, hyes⟩ hhold, fun _ _ => ⟨hkeep.trans hheld, ?_⟩⟩⟩
          rw [hcount, fld_of_rd (hrd _)]
    · rw [takeStart_idle (hstate.trans_ne hrun)] at ht
      rw [ht]
      exact ⟨htai, fun h => absurd h htick, fun _ => ⟨fun a _ => hrd a, hstart, hheld⟩, fun _ h => absurd h hrun⟩

/-! ### Conversions (R139, R143, R147) -/

/-- The core at the delivery of its conversion, with a late one noted. -/
def convSampled (c : Fin 4) (s : State) : State :=
  whenS (sampleInstant s c).2.1 (fun s' =>
      logN 0x3004 c (fld s (Reg.ADC_STATE c) F.ADC_STATE_entry) (setF s' (Reg.ADC_STATE c) F.ADC_STATE_stretched 1))
    (advanceTo s ((sampleInstant s c).1 + convTime s c))

/-- The word a conversion of `s` puts on its segment, with the holdover flag of its delivery. -/
def convWord (c : Fin 4) (code : Int) (hold : Bool) (s : State) : RidgeWord :=
  ⟨BitVec.ofInt 16 (satCode code) ++ BitVec.ofNat 16 (tagOfQuarter (sampleInstant s c).1), true, (sampleInstant s c).2.2, hold, false⟩

/-- ADC_x_LAST of a conversion of `s`. -/
def convLast (c : Fin 4) (code : Int) (hold : Bool) (s : State) : Word :=
  putF (putF (putF (putF 0 F.ADC_LAST_entry (fld s (Reg.ADC_STATE c) F.ADC_STATE_entry)) F.ADC_LAST_holdover (b2n hold))
    F.ADC_LAST_unsettled (b2n (sampleInstant s c).2.2)) F.ADC_LAST_result (BitVec.ofInt 16 (satCode code)).toNat

/-- A conversion of `s` is delivered in `y`. -/
def convShown (c : Fin 4) (code : Int) (s y : State) : State :=
  let w := liveEntry s.adc.cores[c] (fld s (Reg.ADC_STATE c) F.ADC_STATE_entry)
  let word := convWord c code (holdoverNow y) s
  let y := wr y (Reg.ADC_LAST c) (convLast c code (holdoverNow y) s)
  let y := setCore c { s.adc.cores[c] with
    prevAt := some (sampleInstant s c).1, prevCh := some (seqChannel w, seqGain w), out := word } y
  { y with fab := { y.fab with ingress := y.fab.ingress.set c word } }

theorem execAdcConversion_eq (c : Fin 4) (code : Int) (s : State) : execAdcConversion c code s =
    if (adcState s c = adcRunning ∧ !s.adc.cores[c].waiting) ∨ adcState s c = adcStopping then
      if adcState s c = adcStopping then .next (coreToIdle c (convShown c code s (convSampled c s)))
      else .next (nextEntry c (convShown c code s (convSampled c s)))
    else .next s := rfl

/-- What a conversion delivered in `x` shows of the core in `s`. -/
structure ConvDelivered (c : Fin 4) (code : Int) (s x : State) : Prop where
  tai : x.tai = (advanceTo s ((sampleInstant s c).1 + convTime s c)).tai
  result : fld x (Reg.ADC_LAST c) F.ADC_LAST_result = (BitVec.ofInt 16 (satCode code)).toNat
  entry : fld x (Reg.ADC_LAST c) F.ADC_LAST_entry = fld s (Reg.ADC_STATE c) F.ADC_STATE_entry % 2 ^ F.ADC_LAST_entry.w
  data : x.adc.cores[c].out.data = BitVec.ofInt 16 (satCode code) ++ BitVec.ofNat 16 (tagOfQuarter (sampleInstant s c).1)
  valid : x.adc.cores[c].out.valid = true
  fault : x.adc.cores[c].out.fault = false
  ingress : x.fab.ingress[c] = x.adc.cores[c].out
  prevAt : x.adc.cores[c].prevAt = some (sampleInstant s c).1

theorem convSampled_effect (c : Fin 4) (s : State) :
    (convSampled c s).tai = (advanceTo s ((sampleInstant s c).1 + convTime s c)).tai ∧ adcState (convSampled c s) c = adcState s c := by
  have hstate : adcState (advanceTo s ((sampleInstant s c).1 + convTime s c)) c = adcState s c := adcState_of_rd c s (Proofs.rd_advanceTo ..)
  unfold convSampled
  generalize advanceTo s ((sampleInstant s c).1 + convTime s c) = y at hstate
  cases (sampleInstant s c).2.1 with
  | false => exact ⟨rfl, hstate⟩
  | true =>
    rw [whenS_true]
    exact ⟨logEvent_tai .., (adcState_of_rd c _ (rd_logEvent _ _ _ _ (by decide) (by decide))).trans ((adcState_setState ..).trans hstate)⟩

theorem convLast_fields (c : Fin 4) (code : Int) (hold : Bool) (s : State) :
    getF (convLast c code hold s) F.ADC_LAST_result = (BitVec.ofInt 16 (satCode code)).toNat ∧
    getF (convLast c code hold s) F.ADC_LAST_entry = fld s (Reg.ADC_STATE c) F.ADC_STATE_entry % 2 ^ F.ADC_LAST_entry.w := by
  unfold convLast
  refine ⟨(getF_putF _ _ _ (by decide)).trans (Nat.mod_eq_of_lt (BitVec.isLt _)), ?_⟩
  rw [getF_putF_ne _ _ _ _ (by decide), getF_putF_ne _ _ _ _ (by decide), getF_putF_ne _ _ _ _ (by decide), getF_putF _ _ _ (by decide)]

theorem convShown_delivered {c : Fin 4} {code : Int} {s y : State} (htai : y.tai = (advanceTo s ((sampleInstant s c).1 + convTime s c)).tai) :
    ConvDelivered c code s (convShown c code s y) := by
  obtain ⟨hresult, hentry⟩ := convLast_fields c code (holdoverNow y) s
  have hlast : rd (convShown c code s y) (Reg.ADC_LAST c) = convLast c code (holdoverNow y) s := rd_wr y _ _
  have hcore : (convShown c code s y).adc.cores[c].out = convWord c code (holdoverNow y) s ∧
      (convShown c code s y).adc.cores[c].prevAt = some (sampleInstant s c).1 := by
    simp [convShown, setCore]
  have hingress : (convShown c code s y).fab.ingress[c] = convWord c code (holdoverNow y) s := by
    simp [convShown]
  refine ⟨htai, ?_, ?_, ?_, ?_, ?_, hingress.trans hcore.1.symm, hcore.2⟩
  · rw [fld, hlast, hresult]
  · rw [fld, hlast, hentry]
  all_goals
    rw [hcore.1]
    rfl

theorem adcState_convShown {c : Fin 4} {code : Int} {s y : State} : adcState (convShown c code s y) c = adcState y c := by
  have hne : Reg.ADC_STATUS ≠ Reg.ADC_LAST c := by simp only [Reg.ADC_STATUS, Reg.ADC_LAST]; omega
  exact adcState_of_rd c y (rd_wr_ne y _ hne)

/-- What the step to the next entry or to IDLE keeps of a delivery. -/
theorem ConvDelivered.congr {c : Fin 4} {code : Int} {s x t : State} (h : ConvDelivered c code s x) (htai : t.tai = x.tai)
    (hlast : rd t (Reg.ADC_LAST c) = rd x (Reg.ADC_LAST c)) (hout : t.adc.cores[c].out = x.adc.cores[c].out)
    (hprev : t.adc.cores[c].prevAt = x.adc.cores[c].prevAt) (hfab : t.fab = x.fab) : ConvDelivered c code s t := by
  refine ⟨htai.trans h.tai, (fld_of_rd hlast _).trans h.result, (fld_of_rd hlast _).trans h.entry, ?_, ?_, ?_, ?_, hprev.trans h.prevAt⟩
  · rw [hout, h.data]
  · rw [hout, h.valid]
  · rw [hout, h.fault]
  · rw [hfab, hout, h.ingress]

/-- What a core keeps beyond the place in its table. -/
structure PlaceMoved (c : Fin 4) (s x : State) : Prop where
  tai : x.tai = s.tai
  last : rd x (Reg.ADC_LAST c) = rd s (Reg.ADC_LAST c)
  out : x.adc.cores[c].out = s.adc.cores[c].out
  prevAt : x.adc.cores[c].prevAt = s.adc.cores[c].prevAt
  fab : x.fab = s.fab
  status : rd x Reg.ADC_STATUS = rd s Reg.ADC_STATUS

section PlaceMoved

variable {c : Fin 4} {s x y : State}

theorem PlaceMoved.trans (h : PlaceMoved c s x) (h' : PlaceMoved c x y) : PlaceMoved c s y :=
  ⟨h'.tai.trans h.tai, h'.last.trans h.last, h'.out.trans h.out, h'.prevAt.trans h.prevAt, h'.fab.trans h.fab, h'.status.trans h.status⟩

theorem placeMoved_setCore {z : AdcCore} (hout : z.out = s.adc.cores[c].out) (hprev : z.prevAt = s.adc.cores[c].prevAt) :
    PlaceMoved c s (setCore c z s) :=
  ⟨rfl, rfl, by rw [cores_setCore, hout], by rw [cores_setCore, hprev], rfl, rfl⟩

theorem placeMoved_setF {a : Nat} (G : Fld) (k : Nat) (hl : Reg.ADC_LAST c ≠ a) (hs : Reg.ADC_STATUS ≠ a) :
    PlaceMoved c s (setF s a G k) :=
  ⟨rfl, rd_setF_ne s _ _ hl, rfl, rfl, rfl, rd_setF_ne s _ _ hs⟩

theorem placeMoved_takeCommit : PlaceMoved c s (takeCommit c s) := by
  have hcommit : PlaceMoved c s (setCore c { s.adc.cores[c] with
      live := shadowTable s c, liveLast := fld s (Reg.ADC_CTRL c) F.ADC_CTRL_seq_last } s) := placeMoved_setCore rfl rfl
  exact hcommit.trans (placeMoved_setF _ _ (by simp only [Reg.ADC_LAST, Reg.ADC_CTRL]; omega) (ADC_CTRL_ne_STATUS c).symm)

theorem placeMoved_setState (G : Fld) (k : Nat) : PlaceMoved c s (setF s (Reg.ADC_STATE c) G k) :=
  placeMoved_setF _ _ (by simp only [Reg.ADC_LAST, Reg.ADC_STATE]; omega) (ADC_STATE_ne_STATUS c).symm

end PlaceMoved

/-- The pointer moves to the next entry of the table, with a commit at the wrap (R142). -/
def entryMoved (c : Fin 4) (s : State) : State :=
  let e := fld s (Reg.ADC_STATE c) F.ADC_STATE_entry
  let wrap := s.adc.cores[c].liveLast ≤ e
  setF (whenS (wrap && flg s (Reg.ADC_CTRL c) F.ADC_CTRL_commit) (takeCommit c) s) (Reg.ADC_STATE c) F.ADC_STATE_entry
    (if wrap then 0 else e + 1)

/-- The core takes up entry `e`: a waiting one takes the held start event. -/
def entryTaken (c : Fin 4) (e : Nat) (s : State) : State :=
  if seqWait (liveEntry s.adc.cores[c] e) then
    match s.adc.cores[c].held with
    | some t =>
      setF (setCore c { s.adc.cores[c] with rep := 0, start := some t, held := none, waiting := false } s)
        (Reg.ADC_STATE c) F.ADC_STATE_held 0
    | none => setCore c { s.adc.cores[c] with rep := 0, start := none, waiting := true } s
  else setCore c { s.adc.cores[c] with rep := 0, start := none, waiting := false } s

theorem nextEntry_eq (c : Fin 4) (s : State) : nextEntry c s =
    if s.adc.cores[c].rep < seqRepeat (liveEntry s.adc.cores[c] (fld s (Reg.ADC_STATE c) F.ADC_STATE_entry))
    then setCore c { s.adc.cores[c] with rep := s.adc.cores[c].rep + 1, start := none } s
    else entryTaken c (if s.adc.cores[c].liveLast ≤ fld s (Reg.ADC_STATE c) F.ADC_STATE_entry then 0
      else fld s (Reg.ADC_STATE c) F.ADC_STATE_entry + 1) (entryMoved c s) := by
  unfold nextEntry entryTaken entryMoved
  rfl

theorem placeMoved_entryMoved (c : Fin 4) (s : State) : PlaceMoved c s (entryMoved c s) := by
  unfold entryMoved
  dsimp only
  cases decide (s.adc.cores[c].liveLast ≤ fld s (Reg.ADC_STATE c) F.ADC_STATE_entry) && flg s (Reg.ADC_CTRL c) F.ADC_CTRL_commit with
  | true => exact placeMoved_takeCommit.trans (placeMoved_setState _ _)
  | false => exact placeMoved_setState _ _

theorem placeMoved_entryTaken (c : Fin 4) (e : Nat) (s : State) : PlaceMoved c s (entryTaken c e s) := by
  unfold entryTaken
  split
  · split
    · refine PlaceMoved.trans ?_ (placeMoved_setState _ _)
      exact placeMoved_setCore rfl rfl
    · exact placeMoved_setCore rfl rfl
  · exact placeMoved_setCore rfl rfl

theorem placeMoved_nextEntry (c : Fin 4) (s : State) : PlaceMoved c s (nextEntry c s) := by
  rw [nextEntry_eq]
  split
  · exact placeMoved_setCore rfl rfl
  · exact (placeMoved_entryMoved c s).trans (placeMoved_entryTaken c _ _)

/-- A core told to be IDLE, with its held start event discarded. -/
def coreIdled (c : Fin 4) (s : State) : State :=
  setCore c { s.adc.cores[c] with held := none, start := none, waiting := false, prevCh := none }
    (setF s (Reg.ADC_STATE c) F.ADC_STATE_held 0)

theorem coreToIdle_eq (c : Fin 4) (s : State) : coreToIdle c s =
    (fun y => if flg y (Reg.ADC_CTRL c) F.ADC_CTRL_commit then takeCommit c y else y) (coreIdled c (setAdcState c adcIdle s)) := rfl

theorem placeMoved_idled (c : Fin 4) (s : State) : PlaceMoved c (setAdcState c adcIdle s) (coreToIdle c s) := by
  have hidled : PlaceMoved c (setAdcState c adcIdle s) (coreIdled c (setAdcState c adcIdle s)) :=
    (placeMoved_setState _ _).trans (placeMoved_setCore rfl rfl)
  rw [coreToIdle_eq]
  dsimp only
  split
  · exact hidled.trans placeMoved_takeCommit
  · exact hidled

theorem conversion_effect {c : Fin 4} {code : Int} {s : State}
    (hruns : (adcState s c = adcRunning ∧ s.adc.cores[c].waiting = false) ∨ adcState s c = adcStopping) :
    ∃ t, exec (.adcConversion c code) s = .next t ∧ ConvDelivered c code s t ∧
      adcState t c = (if adcState s c = adcStopping then adcIdle else adcRunning) := by
  have hrun : exec (.adcConversion c code) s = if adcState s c = adcStopping
      then .next (coreToIdle c (convShown c code s (convSampled c s))) else .next (nextEntry c (convShown c code s (convSampled c s))) := by
    refine (execAdcConversion_eq c code s).trans (if_pos ?_)
    exact hruns.imp (fun h => ⟨h.1, by rw [h.2]; rfl⟩) id
  obtain ⟨htai, hstate⟩ := convSampled_effect c s
  have hshown := convShown_delivered (code := code) htai
  have hstate' : adcState (convShown c code s (convSampled c s)) c = adcState s c := adcState_convShown.trans hstate
  generalize convShown c code s (convSampled c s) = y at hrun hshown hstate'
  by_cases hstop : adcState s c = adcStopping
  · rw [if_pos hstop] at hrun
    have hmoved := placeMoved_idled c y
    have hlast : rd (setAdcState c adcIdle y) (Reg.ADC_LAST c) = rd y (Reg.ADC_LAST c) :=
      rd_wr_ne y _ (by simp only [Reg.ADC_STATUS, Reg.ADC_LAST]; omega)
    refine ⟨_, hrun, hshown.congr hmoved.tai (hmoved.last.trans hlast) hmoved.out hmoved.prevAt hmoved.fab, ?_⟩
    rw [if_pos hstop]
    exact (coreToIdle_effect c y).1
  · rw [if_neg hstop] at hrun
    have hmoved := placeMoved_nextEntry c y
    refine ⟨_, hrun, hshown.congr hmoved.tai hmoved.last hmoved.out hmoved.prevAt hmoved.fab, ?_⟩
    rw [if_neg hstop]
    exact ((adcState_of_rd c y hmoved.status).trans hstate').trans (hruns.resolve_right hstop).1

/-! ### Calibration (R148) -/

section Calibration

variable (c : Fin 4) (f : CalSet) (s : State)

/-- The word of one gain's factors. -/
def factorWord (g : Fin 4) : Word := BitVec.ofNat 16 f.gains[g] ++ BitVec.ofInt 16 f.offsets[g]

/-- The factors written gain by gain. -/
def factorsWritten : State := forEach (List.finRange 4) (fun (g : Fin 4) s => wr s (Reg.ADC_CAL c g) (factorWord f g)) s

theorem takeFactors_eq : takeFactors c f s = setFbit (factorsWritten c f s) Reg.ADC_STATUS F.ADC_STATUS_cal_valid c true := rfl

theorem rd_factorsWritten_ne {a : Nat} (h : ∀ g : Fin 4, a ≠ Reg.ADC_CAL c g) : rd (factorsWritten c f s) a = rd s a :=
  forEach_keeps (P := fun y => rd y a = rd s a) (fun g _ _ hy => (rd_wr_ne _ _ (h g)).trans hy) rfl

theorem factorsWritten_kept : (factorsWritten c f s).log = s.log ∧ (factorsWritten c f s).tai = s.tai ∧
    (factorsWritten c f s).adc = s.adc := ⟨rfl, rfl, rfl⟩

theorem rd_factorsWritten (g : Fin 4) : rd (factorsWritten c f s) (Reg.ADC_CAL c g) = factorWord f g := by
  have hne : ∀ a b : Fin 4, a ≠ b → Reg.ADC_CAL c a ≠ Reg.ADC_CAL c b := by
    intro a b hab
    simp only [Reg.ADC_CAL]
    omega
  have hlist : List.finRange 4 = [0, 1, 2, 3] := rfl
  unfold factorsWritten
  rw [hlist]
  simp only [forEach, List.foldl_cons, List.foldl_nil]
  fin_cases g
  · exact (rd_wr_ne _ _ (hne 0 3 (by decide))).trans ((rd_wr_ne _ _ (hne 0 2 (by decide))).trans
      ((rd_wr_ne _ _ (hne 0 1 (by decide))).trans (rd_wr _ _ _)))
  · exact (rd_wr_ne _ _ (hne 1 3 (by decide))).trans ((rd_wr_ne _ _ (hne 1 2 (by decide))).trans (rd_wr _ _ _))
  · exact (rd_wr_ne _ _ (hne 2 3 (by decide))).trans (rd_wr _ _ _)
  · exact rd_wr _ _ _

theorem takeFactors_effect :
    calValid (takeFactors c f s) c = true ∧ adcState (takeFactors c f s) c = adcState s c ∧
    (∀ g : Fin 4, rd (takeFactors c f s) (Reg.ADC_CAL c g) = factorWord f g) ∧ (takeFactors c f s).log = s.log ∧
    (takeFactors c f s).tai = s.tai ∧ (takeFactors c f s).adc = s.adc := by
  have hcal : ∀ g : Fin 4, Reg.ADC_STATUS ≠ Reg.ADC_CAL c g := by
    intro g
    simp only [Reg.ADC_STATUS, Reg.ADC_CAL]
    omega
  have hstate : adcState (factorsWritten c f s) c = adcState s c := adcState_of_rd c s (rd_factorsWritten_ne c f s hcal)
  have hwords := rd_factorsWritten c f s
  obtain ⟨hlog, htai, hadc⟩ := factorsWritten_kept c f s
  rw [takeFactors_eq]
  generalize factorsWritten c f s = y at hstate hwords hlog htai hadc
  refine ⟨?_, (adcState_setStatus c y _ _ (by decide)).trans hstate, fun g => (rd_setFbit_ne y _ _ _ (hcal g).symm).trans (hwords g),
    hlog, htai, hadc⟩
  exact (fbit_setFbit y _ _ _ _ _ (by decide) c.isLt).trans (if_pos rfl)

end Calibration

/-- What the commit held over a calibration keeps. -/
structure CalKept (c : Fin 4) (s x : State) : Prop where
  status : rd x Reg.ADC_STATUS = rd s Reg.ADC_STATUS
  factors : ∀ g : Fin 4, rd x (Reg.ADC_CAL c g) = rd s (Reg.ADC_CAL c g)
  record : x.adc.calRecord = s.adc.calRecord
  log : x.log = s.log
  tai : x.tai = s.tai

theorem calKept_commit (c : Fin 4) (b : Bool) (s : State) : CalKept c s (whenS b (takeCommit c) s) := by
  cases b with
  | false => exact ⟨rfl, fun _ => rfl, rfl, rfl, rfl⟩
  | true =>
    refine ⟨rd_takeCommit (ADC_CTRL_ne_STATUS c).symm, fun g => rd_takeCommit ?_, rfl, rfl, rfl⟩
    simp only [Reg.ADC_CAL, Reg.ADC_CTRL]
    omega

section CalDone

variable {c : Fin 4} {f : CalSet} {s : State} (hroom : Room 1 s)
include hroom

theorem finishCal_accepted (hgood : calFault f = none) :
    adcState (finishCal c f s) c = adcState s c ∧ calValid (finishCal c f s) c = true ∧ (finishCal c f s).adc.calRecord[c] = some f ∧
    Logged [(0x3001, c, 0)] s (finishCal c f s) ∧ ∀ g : Fin 4, rd (finishCal c f s) (Reg.ADC_CAL c g) = factorWord f g := by
  obtain ⟨hvalid, hstate, hwords, hlog, htai, hadc⟩ :=
    takeFactors_effect c f { s with adc := { s.adc with calRecord := s.adc.calRecord.set c (some f) } }
  have hfin : finishCal c f s = logN 0x3001 c 0
      (takeFactors c f { s with adc := { s.adc with calRecord := s.adc.calRecord.set c (some f) } }) := by
    unfold finishCal
    rw [hgood]
  rw [hfin]
  generalize takeFactors c f { s with adc := { s.adc with calRecord := s.adc.calRecord.set c (some f) } } = y
    at hvalid hstate hwords hlog htai hadc
  have hlog' : y.log = s.log := hlog
  have hrd := rd_logN_room 0x3001 c 0 hlog' hroom
  refine ⟨(adcState_of_rd c y (hrd _)).trans hstate, (calValid_of_rd c y (hrd _)).trans hvalid, ?_, logged_logN _ _ _ hlog' hroom,
    fun g => (hrd _).trans (hwords g)⟩
  refine (congrArg (fun a : AdcState => a.calRecord[c]) ((logEvent_adc ..).trans hadc)).trans ?_
  simp

theorem finishCal_rejected {g why : Nat} (hbad : calFault f = some (g, why)) :
    adcState (finishCal c f s) c = adcState s c ∧ (finishCal c f s).adc.calRecord = s.adc.calRecord ∧
    calValid (finishCal c f s) c = (calValid s c || (s.adc.calRecord[c]).isSome) ∧
    Logged [(0x3002, c, BitVec.ofNat 32 (g * 256 + why))] s (finishCal c f s) ∧
    (calValid s c = true ∨ s.adc.calRecord[c] = none → ∀ k : Fin 4, rd (finishCal c f s) (Reg.ADC_CAL c k) = rd s (Reg.ADC_CAL c k)) := by
  have hfin : finishCal c f s = logN 0x3002 c (g * 256 + why) (if calValid s c then s else takeRecord c s) := by
    unfold finishCal
    rw [hbad]
  have hrec : ∀ x : State, x.log = s.log → x.adc = s.adc → adcState x c = adcState s c →
      calValid x c = (calValid s c || (s.adc.calRecord[c]).isSome) →
      (calValid s c = true ∨ s.adc.calRecord[c] = none → ∀ k : Fin 4, rd x (Reg.ADC_CAL c k) = rd s (Reg.ADC_CAL c k)) →
      adcState (logN 0x3002 c (g * 256 + why) x) c = adcState s c ∧ (logN 0x3002 c (g * 256 + why) x).adc.calRecord = s.adc.calRecord ∧
      calValid (logN 0x3002 c (g * 256 + why) x) c = (calValid s c || (s.adc.calRecord[c]).isSome) ∧
      Logged [(0x3002, c, BitVec.ofNat 32 (g * 256 + why))] s (logN 0x3002 c (g * 256 + why) x) ∧
      (calValid s c = true ∨ s.adc.calRecord[c] = none →
        ∀ k : Fin 4, rd (logN 0x3002 c (g * 256 + why) x) (Reg.ADC_CAL c k) = rd s (Reg.ADC_CAL c k)) := by
    intro x hlog hadc hstate hvalid hwords
    have hrd := rd_logN_room 0x3002 c (g * 256 + why) hlog hroom
    refine ⟨(adcState_of_rd c x (hrd _)).trans hstate, ?_, (calValid_of_rd c x (hrd _)).trans hvalid, logged_logN _ _ _ hlog hroom,
      fun h k => (hrd _).trans (hwords h k)⟩
    exact congrArg AdcState.calRecord ((logEvent_adc ..).trans hadc)
  rw [hfin]
  cases hv : calValid s c with
  | true =>
    rw [hv] at hrec
    exact hrec s rfl rfl rfl hv fun _ _ => rfl
  | false =>
    rw [hv] at hrec
    cases hr : s.adc.calRecord[c] with
    | none =>
      rw [hr] at hrec
      have htake : takeRecord c s = s := by
        unfold takeRecord
        rw [hr]
      rw [if_neg Bool.false_ne_true, htake]
      exact hrec s rfl rfl rfl hv fun _ _ => rfl
    | some r =>
      rw [hr] at hrec
      have htake : takeRecord c s = takeFactors c r s := by
        unfold takeRecord
        rw [hr]
      obtain ⟨hvalid, hstate, -, hlog, -, hadc⟩ := takeFactors_effect c r s
      rw [if_neg Bool.false_ne_true, htake]
      exact hrec _ hlog hadc hstate hvalid fun h => absurd h (by simp)

end CalDone

theorem calDone_effect {c : Fin 4} {f : CalSet} {s : State} (hcal : adcState s c = adcCalibrating) (hroom : Room 1 s) :
    ∃ t, exec (.adcCalDone c f) s = .next t ∧ adcState t c = adcIdle ∧
      (calFault f = none → calValid t c = true ∧ t.adc.calRecord[c] = some f ∧ Logged [(0x3001, c, 0)] s t ∧
        ∀ g : Fin 4, rd t (Reg.ADC_CAL c g) = BitVec.ofNat 16 f.gains[g] ++ BitVec.ofInt 16 f.offsets[g]) ∧
      (∀ g why, calFault f = some (g, why) → t.adc.calRecord = s.adc.calRecord ∧
        calValid t c = (calValid s c || (s.adc.calRecord[c]).isSome) ∧
        Logged [(0x3002, c, BitVec.ofNat 32 (g * 256 + why))] s t ∧
        (calValid s c = true ∨ s.adc.calRecord[c] = none →
          ∀ g : Fin 4, rd t (Reg.ADC_CAL c g) = rd s (Reg.ADC_CAL c g))) := by
  have hrun : exec (.adcCalDone c f) s = (fun x => Host.Outcome.next (whenS (flg x (Reg.ADC_CTRL c) F.ADC_CTRL_commit) (takeCommit c) x))
      (finishCal c f (setAdcState c adcIdle s)) := if_pos hcal
  have hidle : adcState (setAdcState c adcIdle s) c = adcIdle := adcState_setAdcState c s adcIdle (by decide)
  have hvalid : calValid (setAdcState c adcIdle s) c = calValid s c := by
    have hfld : fld (setAdcState c adcIdle s) Reg.ADC_STATUS F.ADC_STATUS_cal_valid = fld s Reg.ADC_STATUS F.ADC_STATUS_cal_valid :=
      fld_setF_disj s Reg.ADC_STATUS ⟨2 * c, 2⟩ _ _ (.inr (by change 2 * c.val + 2 ≤ 16; omega))
    rw [calValid, fbit, hfld, calValid, fbit]
  have hregs : ∀ k : Fin 4, rd (setAdcState c adcIdle s) (Reg.ADC_CAL c k) = rd s (Reg.ADC_CAL c k) := fun k =>
    rd_wr_ne s _ (by simp only [Reg.ADC_CAL, Reg.ADC_STATUS]; omega)
  have hadc : (setAdcState c adcIdle s).adc = s.adc := rfl
  have hlog : (setAdcState c adcIdle s).log = s.log := rfl
  have hroom' : Room 1 (setAdcState c adcIdle s) := hroom
  have hkept := calKept_commit c (flg (finishCal c f (setAdcState c adcIdle s)) (Reg.ADC_CTRL c) F.ADC_CTRL_commit)
    (finishCal c f (setAdcState c adcIdle s))
  have hlogged : ∀ {es t}, Logged es (setAdcState c adcIdle s) t → Logged es s t := fun h => by
    rw [Logged, hlog] at h
    exact h
  refine ⟨_, hrun, ?_, fun hgood => ?_, fun g why hbad => ?_⟩
  · refine (adcState_of_rd c _ hkept.status).trans ?_
    cases hfault : calFault f with
    | none => exact (finishCal_accepted (c := c) hroom' hfault).1.trans hidle
    | some w => exact (finishCal_rejected (c := c) hroom' hfault).1.trans hidle
  · obtain ⟨-, hv, hrec, hlg, hwords⟩ := finishCal_accepted (c := c) hroom' hgood
    refine ⟨(calValid_of_rd c _ hkept.status).trans hv, ?_, logged_congr (hlogged hlg) hkept.log hkept.tai,
      fun g => (hkept.factors g).trans (hwords g)⟩
    exact (congrArg (fun r : Vector (Option CalSet) 4 => r[c]) hkept.record).trans hrec
  · obtain ⟨-, hrec, hv, hlg, hwords⟩ := finishCal_rejected (c := c) hroom' hbad
    rw [hvalid, hadc] at hv hwords
    exact ⟨hkept.record.trans hrec, (calValid_of_rd c _ hkept.status).trans hv, logged_congr (hlogged hlg) hkept.log hkept.tai,
      fun h k => (hkept.factors k).trans ((hwords h k).trans (hregs k))⟩

end Sys2Proof.Machine

namespace Sys2Proof.Proofs

open Sys2Proof Sys2Proof.Machine Sys2Proof.Safety Sys2Proof.Laws

/-- The state at the instant of a start event. -/
def eventInstant (c : Fin 4) (k : StartKind) (s : State) : State :=
  match k with
  | .timer => advanceTo s (gridNext s 0 (timerGrid s c) s.adc.cores[c].eventTick)
  | .valley p => advanceTo s (nextCarrier s p false)
  | .peak p => advanceTo s (nextCarrier s p (!isSaw s p))

theorem eventInstant_advances (c : Fin 4) (k : StartKind) (s : State) : ∃ q, eventInstant c k s = advanceTo s q := by
  cases k <;> exact ⟨_, rfl⟩

theorem adcStart_run {c : Fin 4} {k : StartKind} {s : State} (hmatch : startMatches s c k = true)
    (hrun : ∀ p, k = .valley p ∨ k = .peak p → s.loop.pairs[p].running = true) :
    exec (.adcStartEvent c k) s = .next (startEvent c k (eventInstant c k s)) := by
  have hexec : exec (.adcStartEvent c k) s = execAdcStartEvent c k s := rfl
  unfold execAdcStartEvent at hexec
  rw [hmatch, if_neg (by decide)] at hexec
  rw [hexec]
  cases k with
  | timer => rfl
  | valley p => exact congrArg Host.Outcome.next (if_pos (hrun p (.inl rfl)))
  | peak p => exact congrArg Host.Outcome.next (if_pos (hrun p (.inr rfl)))

theorem adcStart_ignored {c : Fin 4} {k : StartKind} {s : State} (h : startMatches s c k = false ∨
      ∃ p, (k = .valley p ∨ k = .peak p) ∧ s.loop.pairs[p].running = false) :
    exec (.adcStartEvent c k) s = .next s := by
  have hexec : exec (.adcStartEvent c k) s = execAdcStartEvent c k s := rfl
  unfold execAdcStartEvent at hexec
  rw [hexec]
  cases hm : startMatches s c k with
  | false => exact if_pos rfl
  | true =>
    rw [if_neg (by decide)]
    obtain h | ⟨p, hk, hstopped⟩ := h
    · exact absurd (h.symm.trans hm) (by decide)
    · rcases hk with rfl | rfl <;> exact congrArg Host.Outcome.next (if_neg (by rw [hstopped]; decide))

theorem adcStart_effect {c : Fin 4} {k : StartKind} {s : State} (hmatch : startMatches s c k = true)
    (hrun : ∀ p, k = .valley p ∨ k = .peak p → s.loop.pairs[p].running = true) :
    let x := s.adc.cores[c]
    let s1 := eventInstant c k s
    let waits := (x.live.take (x.liveLast + 1)).any seqWait
    ∃ t, exec (.adcStartEvent c k) s = .next t ∧ t.tai = s1.tai ∧
      (k = .timer → 0 < timerGrid s c → s.tai.toNat + timerGrid s c + 10 < 2 ^ 66 → t.tai.toNat % timerGrid s c < 5) ∧
      (x.eventTick = some s1.ticks → t = s1) ∧
      (adcState s c ≠ adcRunning → OnlyRegs [] s t ∧ t.adc.cores[c].start = x.start ∧ t.adc.cores[c].held = x.held) ∧
      (x.eventTick ≠ some s1.ticks → adcState s c = adcRunning → adcState t c = adcRunning ∧
        (x.waiting = true → t.adc.cores[c].waiting = false ∧ t.adc.cores[c].start = some (startInstant s1 c) ∧ OnlyRegs [] s t) ∧
        (x.waiting = false → x.held = none → waits = true → t.adc.cores[c].held = some (startInstant s1 c) ∧
          flg t (Reg.ADC_STATE c) F.ADC_STATE_held = true ∧ OnlyRegs [Reg.ADC_STATE c] s t) ∧
        (x.waiting = false → (x.held.isSome ∨ waits = false) → t.adc.cores[c].held = x.held ∧
          fld t (Reg.ADC_STATE c) F.ADC_STATE_missed = min 0xFFFF (fld s (Reg.ADC_STATE c) F.ADC_STATE_missed + 1))) := by
  intro x s1 waits
  have htimer : k = .timer → 0 < timerGrid s c → s.tai.toNat + timerGrid s c + 10 < 2 ^ 66 →
      s1.tai.toNat % timerGrid s c < 5 := by
    rintro rfl hpos hfit
    exact tai_advance_grid (by unfold timerGrid at hpos ⊢; omega) hfit
  obtain ⟨q, hq⟩ := eventInstant_advances c k s
  have hs1 : s1 = advanceTo s q := hq
  have hmatch' : startMatches s1 c k = true := by rw [hs1]; exact hmatch
  have hadc : s1.adc = s.adc := by rw [hs1]; rfl
  have hregs : ∀ a, rd s1 a = rd s a := fun a => by rw [hs1]; rfl
  obtain ⟨htai, hsame, hidle, hbusy⟩ := startEvent_effect hmatch'
  have hstate : adcState s1 c = adcState s c := adcState_of_rd c s (hregs _)
  have honly : ∀ {rs t}, OnlyRegs rs s1 t → OnlyRegs rs s t := fun h a ha => (h a ha).trans (hregs a)
  rw [hadc] at hsame hidle hbusy
  rw [hstate] at hidle hbusy
  rw [fld_of_rd (hregs (Reg.ADC_STATE c))] at hbusy
  refine ⟨_, adcStart_run hmatch hrun, htai, fun h1 h2 h3 => htai ▸ htimer h1 h2 h3, hsame, fun h => ?_, fun h1 h2 => ?_⟩
  · obtain ⟨ho, hstart, hheld⟩ := hidle h
    exact ⟨honly ho, hstart, hheld⟩
  · obtain ⟨hst, hw, hh, hm⟩ := hbusy h1 h2
    refine ⟨hst, fun h => ?_, fun h h' h'' => ?_, hm⟩
    · obtain ⟨hwait, hstart, ho⟩ := hw h
      exact ⟨hwait, hstart, honly ho⟩
    · obtain ⟨hheld, hflag, ho⟩ := hh h h' h''
      exact ⟨hheld, hflag, honly ho⟩

/-- Settles O33, by what a core's table waits for, by the stages of a conversion, and by the limits of the factors. -/
theorem adcEvents : Obligations.AdcEvents := by
  refine ⟨fun c k s hmatch hrun => ?_, fun c k s h => adcStart_ignored h, fun c code s => ⟨fun hruns => ?_, fun hno => if_neg ?_⟩,
    fun c f s hcal hroom => calDone_effect hcal hroom, fun c f s hno => if_neg hno⟩
  · exact adcStart_effect hmatch hrun
  · obtain ⟨t, hexec, hdel, hst⟩ := conversion_effect (code := code) hruns
    refine ⟨t, hexec, fun h1 h2 => ?_, hdel.result, hdel.entry, hdel.data, hdel.valid, hdel.fault, hdel.ingress, hdel.prevAt, hst⟩
    rw [hdel.tai]
    exact advanceTo_reaches h1 (by omega)
  · rintro (⟨h, hw⟩ | h)
    · exact hno (.inl ⟨h, by simpa using hw⟩)
    · exact hno (.inr h)

end Sys2Proof.Proofs
end


section
/-! PROOFS. Filter chains: stuck inputs, services and restarts (R152, R163, R164, R168, R172). -/

namespace Sys2Proof.Machine

open Sys2Proof Sys2Proof.Safety Sys2Proof.Laws

/-! ### Steps over lists -/

/-- A step over a list without repeats acts once for an element, when the steps for the others keep what is asked before and
after it. -/
theorem forEach_once {α : Type} {l : List α} {g : α → State → State} {n : α} {Pre Post : State → Prop} (hnd : l.Nodup) (hn : n ∈ l)
    (hpre : ∀ k ∈ l, k ≠ n → ∀ y, Pre y → Pre (g k y)) (hpost : ∀ k ∈ l, k ≠ n → ∀ y, Post y → Post (g k y))
    (hstep : ∀ y, Pre y → Post (g n y)) {x : State} (hx : Pre x) : Post (forEach l g x) := by
  obtain ⟨l1, l2, rfl⟩ := List.append_of_mem hn
  have hnd' := List.nodup_append.1 hnd
  have hleft : ∀ k ∈ l1, k ≠ n := fun k hk h => hnd'.2.2 k hk n List.mem_cons_self h
  have hright : ∀ k ∈ l2, k ≠ n := fun k hk h => (List.nodup_cons.1 hnd'.2.1).1 (h ▸ hk)
  have hfold : forEach (l1 ++ n :: l2) g x = forEach l2 g (g n (forEach l1 g x)) := by
    rw [forEach, List.foldl_append]
    rfl
  rw [hfold]
  refine forEach_keeps (fun k hk y hy => hpost k ?_ (hright k hk) y hy) (hstep _ (forEach_keeps (fun k hk y hy => hpre k ?_ (hleft k hk) y hy) hx))
  · simp [hk]
  · simp [hk]

/-! ### Addresses -/

section Address

variable {n k : Fin 24}

theorem FILT_CH_STATE_ne (h : k ≠ n) : Reg.FILT_CH_STATE n ≠ Reg.FILT_CH_STATE k := by
  simp only [Reg.FILT_CH_STATE]
  omega

theorem FILT_CH_STATE_ne_STATUS : Reg.FILT_CH_STATE n ≠ Reg.FILT_STATUS := by
  simp only [Reg.FILT_CH_STATE, Reg.FILT_STATUS]
  omega

theorem FILT_CH_STATE_ne_PENDING : Reg.FILT_CH_STATE n ≠ Reg.FILT_PENDING := by
  simp only [Reg.FILT_CH_STATE, Reg.FILT_PENDING]
  omega

theorem FILT_CH_STATE_ne_CMD : Reg.FILT_CH_STATE n ≠ Reg.CMD_STATUS ∧ Reg.FILT_CH_STATE n ≠ Reg.CMD_EVT_LOST := by
  simp only [Reg.FILT_CH_STATE, Reg.CMD_STATUS, Reg.CMD_EVT_LOST]
  omega

end Address

/-! ### FAULT of a chain (R172) -/

section Fault

variable (n : Fin 24) (b : Bool) (s : State)

theorem fault_setFault : flg (setFault n b s) (Reg.FILT_CH_STATE n) F.FILT_CH_STATE_fault = b :=
  (flg_setF_ne _ _ _ _ FILT_CH_STATE_ne_STATUS).trans (flg_setF_b2n s _ _ _ (by decide) (by decide))

theorem status_setFault (k : Fin 24) : fbit (setFault n b s) Reg.FILT_STATUS F.FILT_STATUS_fault k =
    if k.val = n.val then b else fbit s Reg.FILT_STATUS F.FILT_STATUS_fault k := by
  have hset := fbit_setFbit (setF s (Reg.FILT_CH_STATE n) F.FILT_CH_STATE_fault (b2n b)) Reg.FILT_STATUS F.FILT_STATUS_fault n k b
    (by decide) k.isLt
  rw [fbit_of_rd (rd_setF_ne s _ _ FILT_CH_STATE_ne_STATUS.symm)] at hset
  exact hset

theorem rd_setFault {a : Nat} (h1 : a ≠ Reg.FILT_CH_STATE n) (h2 : a ≠ Reg.FILT_STATUS) : rd (setFault n b s) a = rd s a :=
  (rd_setFbit_ne _ _ _ _ h2).trans (rd_setF_ne s _ _ h1)

theorem state_setFault (G : Fld) (hG : G.lo + G.w ≤ F.FILT_CH_STATE_fault.lo ∨ F.FILT_CH_STATE_fault.lo + F.FILT_CH_STATE_fault.w ≤ G.lo) :
    fld (setFault n b s) (Reg.FILT_CH_STATE n) G = fld s (Reg.FILT_CH_STATE n) G :=
  (fld_setFbit_ne _ _ _ _ _ FILT_CH_STATE_ne_STATUS).trans (fld_setF_disj s _ _ _ _ hG)

theorem chainState_setFault (k : Fin 24) : chainState (setFault n b s) k = chainState s k := by
  by_cases h : k = n
  · subst h
    exact state_setFault k b s _ (by decide)
  · exact fld_of_rd (rd_setFault n b s (FILT_CH_STATE_ne (Ne.symm h)) FILT_CH_STATE_ne_STATUS) _

end Fault

/-! ### A stuck input (R152) -/

theorem chainsOf_nodup (s : State) (i : Nat) : (chainsOf s i).Nodup := (List.nodup_finRange 24).filter _

theorem chainsOf_congr {s x : State} (h : ∀ n : Fin 24, rd x (Reg.FILT_CH_STATE n) = rd s (Reg.FILT_CH_STATE n)) (i : Nat) :
    chainsOf x i = chainsOf s i := by
  unfold chainsOf
  refine List.filter_congr fun n _ => ?_
  rw [fld_of_rd (h n)]

theorem mem_chainStates {l : List (Fin 24)} {n : Fin 24} (hn : n ∈ l) : Reg.FILT_CH_STATE n ∈ l.map (fun n => Reg.FILT_CH_STATE n) := by
  simp only [List.mem_map, List.pure_def, List.bind_eq_flatMap, List.mem_flatMap, List.mem_singleton]
  exact ⟨n, ⟨n, hn, rfl⟩, rfl⟩

/-- The chains of a stuck input take FAULT, but for the IDLE ones. -/
def chainsStuck (l : List (Fin 24)) (s : State) : State :=
  forEach l (fun n s => if chainState s n = chIdle then s else setFault n true s) s

theorem chainsStuck_kept (l : List (Fin 24)) (s : State) :
    (chainsStuck l s).adc = s.adc ∧ (chainsStuck l s).log = s.log ∧ (chainsStuck l s).tai = s.tai ∧
    OnlyRegs (Reg.FILT_STATUS :: l.map (fun n => Reg.FILT_CH_STATE n)) s (chainsStuck l s) := by
  refine forEach_keeps (P := fun y => y.adc = s.adc ∧ y.log = s.log ∧ y.tai = s.tai ∧
    OnlyRegs (Reg.FILT_STATUS :: l.map (fun n => Reg.FILT_CH_STATE n)) s y) (fun n hn y hy => ?_) ⟨rfl, rfl, rfl, fun _ _ => rfl⟩
  obtain ⟨hadc, hlog, htai, hregs⟩ := hy
  split
  · exact ⟨hadc, hlog, htai, hregs⟩
  · refine ⟨hadc, hlog, htai, fun a ha => (rd_setFault n true y ?_ ?_).trans (hregs a ha)⟩
    · rintro rfl
      exact ha (List.mem_cons_of_mem _ (mem_chainStates hn))
    · rintro rfl
      exact ha List.mem_cons_self

theorem chainsStuck_fault {l : List (Fin 24)} {s : State} (hnd : l.Nodup) {n : Fin 24} (hn : n ∈ l) (hlive : chainState s n ≠ chIdle) :
    flg (chainsStuck l s) (Reg.FILT_CH_STATE n) F.FILT_CH_STATE_fault = true ∧
    fbit (chainsStuck l s) Reg.FILT_STATUS F.FILT_STATUS_fault n = true := by
  refine forEach_once (Pre := fun y => chainState y n ≠ chIdle) (Post := fun y => flg y (Reg.FILT_CH_STATE n) F.FILT_CH_STATE_fault = true ∧
    fbit y Reg.FILT_STATUS F.FILT_STATUS_fault n = true) hnd hn (fun k _ hk y hy => ?_) (fun k _ hk y hy => ?_) (fun y hy => ?_) hlive
  · split
    · exact hy
    · rw [chainState_setFault]
      exact hy
  · split
    · exact hy
    · refine ⟨(flg_of_rd (rd_setFault k true y (FILT_CH_STATE_ne hk) FILT_CH_STATE_ne_STATUS) _).trans hy.1, ?_⟩
      rw [status_setFault, hy.2, ite_self]
  · rw [if_neg hy]
    refine ⟨fault_setFault n true y, ?_⟩
    rw [status_setFault, if_pos rfl]

/-- An input's run of equal bits began 1,024 periods ago. -/
def stuckBegun (i : Fin 24) (s : State) : State :=
  let t := mclkTicks (((s.time.mclk[i.val / 4]?).map (·.val)).getD 15)
  { s with adc := { s.adc with mods := s.adc.mods.set i { s.adc.mods[i] with stuckFrom := some (localNs s - 1024 * t * 5 / 4) } } }

/-- An input found stuck, before its chains take FAULT. -/
def stuckNoted (i : Fin 24) (level : Bool) (s : State) : State :=
  logN 0x3006 i (b2n level) (setFbit (stuckBegun i s) Reg.ADC_MOD_STATUS F.ADC_MOD_STATUS_stuck i true)

theorem execModStuck_new {i : Fin 24} {level : Bool} {s : State} (hen : s.adc.mods[i].en = true) (hfrom : s.adc.mods[i].stuckFrom = none) :
    exec (.modStuck i level) s = .next (chainsStuck (chainsOf (stuckNoted i level s) i) (stuckNoted i level s)) :=
  if_pos (by rw [hen, hfrom]; exact ⟨rfl, rfl⟩)

theorem stuckNoted_effect {i : Fin 24} {level : Bool} {s : State} (hroom : Room 1 s) :
    (stuckNoted i level s).adc.mods[i].stuckFrom.isSome = true ∧
    fbit (stuckNoted i level s) Reg.ADC_MOD_STATUS F.ADC_MOD_STATUS_stuck i = true ∧
    Logged [(0x3006, i, BitVec.ofNat 32 (b2n level))] s (stuckNoted i level s) ∧
    ∀ a, a ≠ Reg.ADC_MOD_STATUS → rd (stuckNoted i level s) a = rd s a := by
  have hstuck : (stuckBegun i s).adc.mods[i].stuckFrom.isSome = true := by simp [stuckBegun]
  have hlog : (stuckBegun i s).log = s.log := rfl
  have hregs : ∀ a, rd (stuckBegun i s) a = rd s a := fun _ => rfl
  unfold stuckNoted
  generalize stuckBegun i s = y at hstuck hlog hregs
  have hlog' : (setFbit y Reg.ADC_MOD_STATUS F.ADC_MOD_STATUS_stuck i true).log = s.log := hlog
  have hrd := rd_logN_room 0x3006 i (b2n level) hlog' hroom
  refine ⟨?_, ?_, logged_logN _ _ _ hlog' hroom, fun a ha => (hrd a).trans ((rd_setFbit_ne y _ _ _ ha).trans (hregs a))⟩
  · rw [logN, logEvent_adc, setFbit_adc]
    exact hstuck
  · exact (fbit_of_rd (hrd _) _ _).trans ((fbit_setFbit y _ _ _ _ _ (by decide) i.isLt).trans (if_pos rfl))

theorem modStuck_effect {i : Fin 24} {level : Bool} {s : State} (hen : s.adc.mods[i].en = true) (hfrom : s.adc.mods[i].stuckFrom = none)
    (hroom : Room 1 s) :
    ∃ t, exec (.modStuck i level) s = .next t ∧ t.adc.mods[i].stuckFrom.isSome ∧
      fbit t Reg.ADC_MOD_STATUS F.ADC_MOD_STATUS_stuck i = true ∧ Logged [(0x3006, i, BitVec.ofNat 32 (b2n level))] s t ∧
      (∀ n ∈ chainsOf s i, chainState s n ≠ chIdle → flg t (Reg.FILT_CH_STATE n) F.FILT_CH_STATE_fault = true ∧
        fbit t Reg.FILT_STATUS F.FILT_STATUS_fault n = true) ∧
      OnlyRegs (Reg.ADC_MOD_STATUS :: Reg.FILT_STATUS :: (chainsOf s i).map (fun n => Reg.FILT_CH_STATE n)) s t := by
  obtain ⟨hstuck, hbit, hlogged, hregs⟩ := stuckNoted_effect (i := i) (level := level) hroom
  have hstate : ∀ n : Fin 24, rd (stuckNoted i level s) (Reg.FILT_CH_STATE n) = rd s (Reg.FILT_CH_STATE n) := fun n =>
    hregs _ (by simp only [Reg.FILT_CH_STATE, Reg.ADC_MOD_STATUS]; omega)
  have hrun := execModStuck_new (level := level) hen hfrom
  rw [chainsOf_congr hstate] at hrun
  generalize stuckNoted i level s = y at hstuck hbit hlogged hregs hstate hrun
  obtain ⟨hadc, hlog, htai, honly⟩ := chainsStuck_kept (chainsOf s i) y
  refine ⟨_, hrun, ?_, ?_, logged_congr hlogged hlog htai, fun n hn hlive => ?_, fun a ha => ?_⟩
  · rw [hadc]
    exact hstuck
  · refine (fbit_of_rd (honly _ ?_) _ _).trans hbit
    simp only [List.mem_cons, List.mem_map, Reg.ADC_MOD_STATUS, Reg.FILT_STATUS, Reg.FILT_CH_STATE]
    omega
  · exact chainsStuck_fault (chainsOf_nodup s i) hn ((fld_of_rd (hstate n) F.FILT_CH_STATE_state).trans_ne hlive)
  · simp only [List.mem_cons, not_or] at ha
    refine (honly a ?_).trans (hregs a ha.1)
    simp only [List.mem_cons, not_or]
    exact ha.2

/-! ### An input that changes level again (R172) -/

/-- A chain's stream has recovered after `us` microseconds. -/
def chainRecovered (us : Nat) (n : Fin 24) (s : State) : State :=
  if flg s (Reg.FILT_CH_STATE n) F.FILT_CH_STATE_fault then
    let s := setFault n false s
    let s := setF s (Reg.FILT_CH_STATE n) F.FILT_CH_STATE_unsettled_left
      (presetUnsettled (actPreset s n) + medianHalf (actMedian s n))
    let s := setF s (Reg.FILT_CH_STATE n) F.FILT_CH_STATE_fast_unsettled 1
    logN 0x3102 n us (setChain n { s.filt.chains[n] with fastLeft := 2 } s)
  else s

/-- An input that is stuck no more. -/
def stuckEnded (i : Fin 24) (s : State) : State :=
  { s with adc := { s.adc with mods := s.adc.mods.set i { s.adc.mods[i] with stuckFrom := none } } }

theorem execFiltStreamRecovered_stuck {i : Fin 24} {t0 : Nat} {s : State} (h : s.adc.mods[i].stuckFrom = some t0) :
    exec (.filtStreamRecovered i) s = .next (forEach (chainsOf s i)
      (chainRecovered (min 0xFFFFFFFF ((localNs s - t0) / 1000))) (stuckEnded i s)) := by
  change execFiltStreamRecovered i s = _
  unfold execFiltStreamRecovered
  rw [h]
  rfl

/-- A recovered stream is marked again in the counts of a restart. -/
structure StreamMarked (n : Fin 24) (s x : State) : Prop where
  fault : flg x (Reg.FILT_CH_STATE n) F.FILT_CH_STATE_fault = false
  marked : flg s (Reg.FILT_CH_STATE n) F.FILT_CH_STATE_fault = true → x.filt.chains[n].fastLeft = 2 ∧
    fld x (Reg.FILT_CH_STATE n) F.FILT_CH_STATE_unsettled_left =
      (presetUnsettled (actPreset s n) + medianHalf (actMedian s n)) % 2 ^ F.FILT_CH_STATE_unsettled_left.w

theorem rd_setChain (n : Fin 24) (x : ChainState) (s : State) (a : Nat) : rd (setChain n x s) a = rd s a := rfl

theorem chains_setChain (n : Fin 24) (x : ChainState) (s : State) : (setChain n x s).filt.chains[n] = x := by simp [setChain]

theorem chains_setChain_ne {n k : Fin 24} (h : k ≠ n) (x : ChainState) (s : State) : (setChain k x s).filt.chains[n] = s.filt.chains[n] := by
  have hval : k.val ≠ n.val := fun hv => h (Fin.ext hv)
  simp [setChain, hval]

theorem chainRecovered_other {us : Nat} {n k : Fin 24} (h : k ≠ n) (s : State) :
    rd (chainRecovered us k s) (Reg.FILT_CH_STATE n) = rd s (Reg.FILT_CH_STATE n) ∧
    (chainRecovered us k s).filt.chains[n] = s.filt.chains[n] := by
  have hne := FILT_CH_STATE_ne h
  unfold chainRecovered
  split
  · constructor
    · refine (rd_logEvent _ _ _ _ FILT_CH_STATE_ne_CMD.1 FILT_CH_STATE_ne_CMD.2).trans ?_
      exact (rd_setF_ne _ _ _ hne).trans ((rd_setF_ne _ _ _ hne).trans (rd_setFault _ _ _ hne FILT_CH_STATE_ne_STATUS))
    · refine (congrArg (fun f : FiltState => f.chains[n]) (logEvent_filt ..)).trans ?_
      exact chains_setChain_ne h _ _
  · exact ⟨rfl, rfl⟩

theorem chainRecovered_marked (us : Nat) (n : Fin 24) (s : State) : StreamMarked n s (chainRecovered us n s) := by
  unfold chainRecovered
  cases hfault : flg s (Reg.FILT_CH_STATE n) F.FILT_CH_STATE_fault with
  | false => exact ⟨hfault, fun h => absurd (h.symm.trans hfault) (by decide)⟩
  | true =>
    have hset := fault_setFault n false s
    have hpreset : actPreset (setFault n false s) n = actPreset s n := state_setFault n false s _ (by decide)
    have hmedian : actMedian (setFault n false s) n = actMedian s n := state_setFault n false s _ (by decide)
    rw [if_pos rfl]
    dsimp only
    rw [hpreset, hmedian]
    generalize setFault n false s = y at hset
    have hlog : ∀ z, rd (logN 0x3102 n us z) (Reg.FILT_CH_STATE n) = rd z (Reg.FILT_CH_STATE n) := fun z =>
      rd_logEvent _ _ _ _ FILT_CH_STATE_ne_CMD.1 FILT_CH_STATE_ne_CMD.2
    refine ⟨?_, fun _ => ⟨?_, ?_⟩⟩
    · rw [flg_of_rd (hlog _)]
      rw [flg_of_rd (rd_setChain ..), flg_setF_disj _ _ _ _ _ (by decide), flg_setF_disj _ _ _ _ _ (by decide)]
      exact hset
    · rw [logN, logEvent_filt, chains_setChain]
    · rw [fld_of_rd (hlog _)]
      rw [fld_of_rd (rd_setChain ..), fld_setF_disj _ _ _ _ _ (by decide), fld_setF _ _ _ _ (by decide)]

theorem StreamMarked.congr {n : Fin 24} {s x y : State} (h : StreamMarked n s x)
    (hrd : rd y (Reg.FILT_CH_STATE n) = rd x (Reg.FILT_CH_STATE n)) (hchain : y.filt.chains[n] = x.filt.chains[n]) : StreamMarked n s y := by
  refine ⟨(flg_of_rd hrd _).trans h.fault, fun hf => ?_⟩
  obtain ⟨hfast, hleft⟩ := h.marked hf
  refine ⟨?_, (fld_of_rd hrd _).trans hleft⟩
  rw [hchain, hfast]

theorem StreamMarked.of_rd {n : Fin 24} {s s' x : State} (h : StreamMarked n s' x)
    (hrd : rd s' (Reg.FILT_CH_STATE n) = rd s (Reg.FILT_CH_STATE n)) : StreamMarked n s x := by
  refine ⟨h.fault, fun hf => ?_⟩
  have hmarked := h.marked ((flg_of_rd hrd _).trans hf)
  have hpreset : actPreset s' n = actPreset s n := fld_of_rd hrd _
  have hmedian : actMedian s' n = actMedian s n := fld_of_rd hrd _
  rw [hpreset, hmedian] at hmarked
  exact hmarked

theorem mods_chainRecovered (us : Nat) (n : Fin 24) (s : State) : (chainRecovered us n s).adc = s.adc := by
  unfold chainRecovered
  split
  · exact logEvent_adc ..
  · rfl

theorem streamRecovered_effect {i : Fin 24} {s : State} (h : s.adc.mods[i].stuckFrom.isSome = true) :
    ∃ t, exec (.filtStreamRecovered i) s = .next t ∧ t.adc.mods[i].stuckFrom = none ∧
      (∀ n ∈ chainsOf s i, flg t (Reg.FILT_CH_STATE n) F.FILT_CH_STATE_fault = false) ∧
      (∀ n ∈ chainsOf s i, flg s (Reg.FILT_CH_STATE n) F.FILT_CH_STATE_fault = true →
        t.filt.chains[n].fastLeft = 2 ∧ fld t (Reg.FILT_CH_STATE n) F.FILT_CH_STATE_unsettled_left =
          (presetUnsettled (actPreset s n) + medianHalf (actMedian s n)) % 2 ^ F.FILT_CH_STATE_unsettled_left.w) := by
  obtain ⟨t0, ht0⟩ := Option.isSome_iff_exists.1 h
  have hmarked : ∀ us, ∀ n ∈ chainsOf s i, StreamMarked n s (forEach (chainsOf s i) (chainRecovered us) (stuckEnded i s)) := by
    intro us n hn
    refine forEach_once (Pre := fun y => rd y (Reg.FILT_CH_STATE n) = rd s (Reg.FILT_CH_STATE n)) (Post := StreamMarked n s)
      (chainsOf_nodup s i) hn (fun k _ hk y hy => ?_) (fun k _ hk y hy => ?_) (fun y hy => ?_) rfl
    · exact (chainRecovered_other hk y).1.trans hy
    · exact hy.congr (chainRecovered_other hk y).1 (chainRecovered_other hk y).2
    · exact (chainRecovered_marked us n y).of_rd hy
  refine ⟨_, execFiltStreamRecovered_stuck ht0, ?_, fun n hn => (hmarked _ n hn).fault, fun n hn => (hmarked _ n hn).marked⟩
  have hadc := forEach_keeps (l := chainsOf s i) (g := chainRecovered (min 0xFFFFFFFF ((localNs s - t0) / 1000)))
    (P := fun y => y.adc = (stuckEnded i s).adc) (fun n _ y hy => (mods_chainRecovered _ n y).trans hy) rfl
  rw [hadc]
  simp [stuckEnded]

/-! ### Services (R163) -/

/-- The chains that a service of the FILTER tile `k` drives. -/
def servedBy (k : Fin 6) : List (Fin 24) := [0, 1, 2, 3].map (fun j : Nat => Fin.ofNat 24 (4 * k + j))

theorem execFilterService_eq (k : Fin 6) (s : State) : exec (.filterService k) s = .next (forEach (servedBy k) serveChain s) := by
  change execFilterService k s = _
  rw [execFilterService, servedBy, forEach, forEach, List.foldl_map]

theorem mem_servedBy {k : Fin 6} {n : Fin 24} : n ∈ servedBy k ↔ n.val / 4 = k.val := by
  revert k n
  decide

theorem servedBy_nodup (k : Fin 6) : (servedBy k).Nodup := by
  revert k
  decide

/-- A service has driven a chain of `s`. -/
structure Served' (n : Fin 24) (s x : State) : Prop where
  main : x.filt.chains[n].mainWord = s.filt.chains[n].mainNew.getD { s.filt.chains[n].mainWord with valid := false }
  fast : x.filt.chains[n].fastWord = s.filt.chains[n].fastNew.getD { s.filt.chains[n].fastWord with valid := false }
  mainNew : x.filt.chains[n].mainNew = none
  fastNew : x.filt.chains[n].fastNew = none

theorem serveChain_served {n : Fin 24} {s x : State} (h : x.filt.chains[n] = s.filt.chains[n]) : Served' n s (serveChain n x) := by
  unfold serveChain
  rw [h]
  constructor <;> (rw [chains_setChain]; try rfl)

theorem serveChain_other {n k : Fin 24} (h : k ≠ n) (s : State) : (serveChain k s).filt.chains[n] = s.filt.chains[n] :=
  chains_setChain_ne h _ s

theorem filterService_kept (k : Fin 6) (s : State) : OnlyRegs [] s (forEach (servedBy k) serveChain s) ∧
    ∀ p, p ≠ Part.filt → p.same s (forEach (servedBy k) serveChain s) := by
  refine ⟨fun a _ => forEach_keeps (P := fun y => rd y a = rd s a)
    (fun n _ y hy => (rd_setChain n _ y a).trans hy) rfl, fun p hp => ?_⟩
  refine forEach_keeps (P := fun y => p.same s y) (fun n _ y hy => ?_) (by cases p <;> rfl)
  cases p <;> first | exact hy | exact absurd rfl hp

theorem filterService_effect (k : Fin 6) (s : State) : ∃ t, exec (.filterService k) s = .next t ∧ OnlyRegs [] s t ∧
    (∀ p, p ≠ Part.filt → p.same s t) ∧
    ∀ n : Fin 24, if n.val / 4 = k.val then
        t.filt.chains[n].mainWord = s.filt.chains[n].mainNew.getD { s.filt.chains[n].mainWord with valid := false } ∧
        t.filt.chains[n].fastWord = s.filt.chains[n].fastNew.getD { s.filt.chains[n].fastWord with valid := false } ∧
        t.filt.chains[n].mainNew = none ∧ t.filt.chains[n].fastNew = none
      else t.filt.chains[n] = s.filt.chains[n] := by
  obtain ⟨hregs, hparts⟩ := filterService_kept k s
  refine ⟨_, execFilterService_eq k s, hregs, hparts, fun n => ?_⟩
  by_cases hn : n ∈ servedBy k
  · rw [if_pos (mem_servedBy.1 hn)]
    have hserved : Served' n s (forEach (servedBy k) serveChain s) :=
      forEach_once (Pre := fun y => y.filt.chains[n] = s.filt.chains[n]) (servedBy_nodup k) hn
        (fun j _ hj y hy => (serveChain_other hj y).trans hy)
        (fun j _ hj y hy => by
          have hsame := serveChain_other hj y
          exact ⟨by rw [hsame, hy.main], by rw [hsame, hy.fast], by rw [hsame, hy.mainNew], by rw [hsame, hy.fastNew]⟩)
        (fun y hy => serveChain_served hy) rfl
    exact ⟨hserved.main, hserved.fast, hserved.mainNew, hserved.fastNew⟩
  · rw [if_neg (fun h => hn (mem_servedBy.2 h))]
    exact forEach_keeps (P := fun y => y.filt.chains[n] = s.filt.chains[n])
      (fun j hj y hy => (serveChain_other (ne_of_mem_of_not_mem hj hn) y).trans hy) rfl

end Sys2Proof.Machine
end


section
/-! PROOFS. The boundaries that pass until a chain restarts (R36, R168, R169). -/

namespace Sys2Proof.Machine

open Sys2Proof Sys2Proof.Safety Sys2Proof.Laws

/-! ### Every boundary counts one frame (R36) -/

theorem hasHead_opens {H : FabHead} {x : State} (hx : HasHead H x) :
    ∃ H', HasHead H' (mirrorOpens x) ∧ H'.countLow = H.countLow ∧ H'.countHigh = H.countHigh := by
  cases hdue : mirrorDue x with
  | false =>
    refine ⟨H, ?_, rfl, rfl⟩
    rw [mirrorOpens, hdue]
    exact hx
  | true =>
    cases hch : x.fab.change with
    | none => exact ⟨H, (mirrorOpens_idle hch).symm ▸ hx, rfl, rfl⟩
    | some ch =>
      have hwritten : ch.phase = .contextsWritten := by
        rw [mirrorDue, hch] at hdue
        simp only [Bool.and_eq_true] at hdue
        exact eq_of_beq hdue.1
      exact ⟨_, hasHead_mirrorOpens hx hdue hch hwritten, rfl, rfl⟩

theorem hasHead_swapOpens {H : FabHead} {x : State} (hx : HasHead H x) :
    ∃ H', HasHead H' (mirrorOpens (swapAtBoundary x)) ∧ H'.countLow = H.countLow ∧ H'.countHigh = H.countHigh := by
  by_cases hmirror : ∃ ch, x.fab.change = some ch ∧ ch.phase = .mirror
  · obtain ⟨ch, hch, hphase⟩ := hmirror
    have hswap := hasHead_swapAtBoundary hx hch hphase
    rw [mirrorOpens_idle hswap.change]
    exact ⟨_, hswap, rfl, rfl⟩
  · have hphase : ∀ ch, x.fab.change = some ch → ch.phase ≠ .mirror := fun ch hch h => hmirror ⟨ch, hch, h⟩
    rw [swapAtBoundary_idle hphase]
    exact hasHead_opens hx

theorem frameBoundary_count (o : Fin 4 → ShadowOutcome) (s : State) :
    rd64 (frameBoundary o s) Reg.FAB_FRAME_COUNT = rd64 s Reg.FAB_FRAME_COUNT + 1 := by
  obtain ⟨H, hopen, hlow, hhigh⟩ := hasHead_swapOpens (hasHead_opened s)
  have hend := hasHead_afterStructure (hasHead_sessions (o := o) hopen)
  rw [← boundaryStart_count]
  exact count_of_hasHead hend hlow hhigh

/-! ### Boundaries until a restart -/

theorem untilRestart_none {n : Fin 24} {fuel : Nat} {s : State} (h : s.filt.chains[n].restart = none) : untilRestart n fuel s = s := by
  cases fuel with
  | zero => rfl
  | succ fuel => exact if_pos (by rw [h]; rfl)

theorem untilRestart_some {n : Fin 24} {fuel cause : Nat} {s : State} (h : s.filt.chains[n].restart = some cause) :
    untilRestart n (fuel + 1) s = untilRestart n fuel (plainBoundary s) := if_neg (by rw [h]; exact Bool.false_ne_true)

theorem untilRestart_count (n : Fin 24) (fuel : Nat) (s : State) : ∃ k ≤ fuel,
    rd64 (untilRestart n fuel s) Reg.FAB_FRAME_COUNT = rd64 s Reg.FAB_FRAME_COUNT + BitVec.ofNat 64 k ∧
    ((untilRestart n fuel s).filt.chains[n].restart = none ∨ k = fuel) := by
  induction fuel generalizing s with
  | zero => exact ⟨0, le_rfl, (BitVec.add_zero _).symm, .inr rfl⟩
  | succ fuel ih =>
    cases h : s.filt.chains[n].restart with
    | none =>
      rw [untilRestart_none h]
      exact ⟨0, Nat.zero_le _, (BitVec.add_zero _).symm, .inl h⟩
    | some cause =>
      obtain ⟨k, hk, hcount, hdone⟩ := ih (plainBoundary s)
      rw [untilRestart_some h]
      refine ⟨k + 1, Nat.succ_le_succ hk, ?_, hdone.imp id fun h => by rw [h]⟩
      rw [hcount, plainBoundary, frameBoundary_count]
      bv_omega

/-! ### The log grows at a boundary -/

/-- The events queued in `s` are still the first in the queue of `x`. -/
def LogGrows (s x : State) : Prop := ∃ es, x.log.queue = s.log.queue ++ es

section LogGrows

variable {s x : State}

theorem LogGrows.refl (s : State) : LogGrows s s := ⟨[], (List.append_nil _).symm⟩

theorem LogGrows.of_log {y : State} (hx : LogGrows s x) (h : y.log = x.log) : LogGrows s y := by
  rw [LogGrows, h]
  exact hx

theorem LogGrows.logEvent {c q : Nat} {e : Word} (hx : LogGrows s x) : LogGrows s (logEvent c q e x) := by
  obtain ⟨es, hes⟩ := hx
  unfold Machine.logEvent
  split
  · exact ⟨es ++ [⟨now x, BitVec.ofNat 16 c, BitVec.ofNat 16 q, e⟩], by rw [← List.append_assoc, ← hes]⟩
  · exact ⟨es, hes⟩

theorem LogGrows.of_ev {f : Foot} {y : State} (hx : LogGrows s x) (h : Ev f x y) (hf : f.parts.contains .log = false) : LogGrows s y :=
  hx.of_log (keeps_of_ev h (p := .log) hf)

theorem logGrows_retireTile {c i cause slot : Nat} (hx : LogGrows s x) : LogGrows s (retireTile c i cause slot x) :=
  LogGrows.logEvent (hx.of_log rfl)

theorem logGrows_chooseSpare {c : Nat} (hx : LogGrows s x) : LogGrows s (chooseSpare c x) := by
  unfold chooseSpare
  split
  · exact hx.of_log rfl
  · exact LogGrows.logEvent (hx.of_log rfl)

theorem logGrows_applyRelocation {c : Fin 4} (hx : LogGrows s x) : LogGrows s (applyRelocation c x) := by
  unfold applyRelocation
  split
  · exact hx
  · dsimp only
    split
    · exact hx.of_log rfl
    · exact logGrows_chooseSpare (logGrows_retireTile (hx.of_log rfl))

theorem logGrows_afterSelfTest {c : Fin 4} {v : ShadowSession} (hx : LogGrows s x) : LogGrows s (afterSelfTest c v x) := by
  unfold afterSelfTest
  split
  · split
    · exact hx.of_log rfl
    · exact logGrows_chooseSpare (logGrows_retireTile (hx.of_log rfl))
  · split
    · exact hx.of_ev (sessionResult_ev (foot_self _) (Ev.refl _ x)) rfl
    · exact hx.of_log rfl

theorem logGrows_stepSession {c : Fin 4} (hx : LogGrows s x) : LogGrows s (stepSession c x) := by
  unfold stepSession
  split
  · exact hx
  · split
    · exact hx.of_ev (abandonSession_ev (foot_self _) (Ev.refl _ x)) rfl
    · split
      · exact logGrows_afterSelfTest hx
      · refine LogGrows.of_ev ?_ (openCompare_ev (foot_self _) (Ev.refl _ _)) rfl
        split
        · exact hx
        · exact hx.of_ev (mirrorTile_ev (foot_self _) (Ev.refl _ x)) rfl
      · exact hx

theorem logGrows_sessionsAtBoundary {c : Fin 4} {o : ShadowOutcome} (hx : LogGrows s x) : LogGrows s (sessionsAtBoundary c o x) := by
  have hstep := logGrows_stepSession (c := c) hx
  unfold sessionsAtBoundary
  dsimp only
  split
  · exact hstep
  · split
    · next d _ =>
      have hclear : LogGrows s (setCluster c { (stepSession c x).fab.clusters[c] with due := none } (stepSession c x)) := hstep.of_log rfl
      exact hclear.of_ev (startSession_ev (foot_self _) (Ev.refl _ _)) rfl
    · unfold whenS
      split
      · exact hstep.of_ev (startCheckNow_ev (foot_self _) (Ev.refl _ _)) rfl
      · exact hstep

/-- The structure's part of a boundary without a pending change. -/
theorem logGrows_structure {o : Fin 4 → ShadowOutcome} (hchange : x.fab.change = none) (hx : LogGrows s x) :
    LogGrows s (structureAtBoundary o x) := by
  have hrel := hasHead_relocations (hasHead_headOf x)
  have hgrown : LogGrows s (forEach (List.finRange 4) applyRelocation (forEach (List.finRange 4) closeCompare x)) :=
    forEach_keeps (fun _ _ _ hy => logGrows_applyRelocation hy)
      (forEach_keeps (fun _ _ y hy => hy.of_ev (closeCompare_ev (foot_self _) (Ev.refl _ y)) rfl) hx)
  have hnone := hrel.change.trans hchange
  unfold structureAtBoundary
  dsimp only
  rw [swapAtBoundary_idle fun ch hch => absurd (hnone.symm.trans hch) (by simp), mirrorOpens_idle hnone]
  exact forEach_keeps (fun _ _ y hy => hy.of_ev (clockRequest_ev (foot_self _) (Ev.refl _ y)) rfl)
    (forEach_keeps (fun _ _ _ hy => logGrows_sessionsAtBoundary hy) hgrown)

theorem structure_ev {o : Fin 4 → ShadowOutcome} (hchange : x.fab.change = none) :
    Ev ⟨[.log, .fab], [.cmd, .fab], false⟩ x (structureAtBoundary o x) := by
  have hrel := hasHead_relocations (hasHead_headOf x)
  have hnone := hrel.change.trans hchange
  unfold structureAtBoundary
  dsimp only
  rw [swapAtBoundary_idle fun ch hch => absurd (hnone.symm.trans hch) (by simp), mirrorOpens_idle hnone]
  exact ev_forEach (fun _ _ _ hy => clockRequest_ev (le_of rfl) hy)
    (ev_forEach (fun _ _ _ hy => sessionsAtBoundary_ev (foot_self _) hy)
      (ev_forEach (fun _ _ _ hy => applyRelocation_ev (foot_self _) hy)
        (ev_forEach (fun _ _ _ hy => closeCompare_ev (le_of rfl) hy) (Ev.refl _ x))))

end LogGrows

/-! ### Clocks, enables and delays that are in force already (R105, R151, R168) -/

/-- What the restarts of a boundary find: clocks, enables and delays in force, and no move of the counter. -/
structure ClocksSettled (s : State) : Prop where
  moved : s.filt.stepMs = 0
  clocks : ∀ m : Fin 6, (s.time.mclk[m]).val = mclkCode (rd s Reg.CLK_MCLK_DIV) m
  inputs : ∀ i : Fin 24, s.adc.mods[i].en = decide (fld s (Reg.ADC_MOD_CFG i) F.ADC_MOD_CFG_en = 1) ∧
    s.adc.mods[i].delay = fld s (Reg.ADC_MOD_CFG i) F.ADC_MOD_CFG_delay

theorem applyMclk_settled {s : State} (h : ∀ m : Fin 6, (s.time.mclk[m]).val = mclkCode (rd s Reg.CLK_MCLK_DIV) m) :
    applyMclk s = (s, []) := by
  have hnone : (List.finRange 6).filter (fun m : Fin 6 => (s.time.mclk[m]).val != mclkCode (rd s Reg.CLK_MCLK_DIV) m) = [] := by
    refine List.filter_eq_nil_iff.2 fun m _ => ?_
    rw [h m, bne_self_eq_false]
    exact Bool.false_ne_true
  unfold applyMclk
  dsimp only
  rw [hnone]
  rfl

theorem applyModInput_settled {i : Fin 24} {s : State} (hen : s.adc.mods[i].en = decide (fld s (Reg.ADC_MOD_CFG i) F.ADC_MOD_CFG_en = 1))
    (hdelay : s.adc.mods[i].delay = fld s (Reg.ADC_MOD_CFG i) F.ADC_MOD_CFG_delay) : applyModInput i s = s :=
  if_pos ⟨hen, hdelay⟩

theorem forEach_same {α : Type} {l : List α} {g : α → State → State} {s : State} (h : ∀ a ∈ l, g a s = s) : forEach l g s = s :=
  forEach_keeps (P := fun y => y = s) (fun a ha y hy => by rw [hy]; exact h a ha) rfl

theorem clocksAtBoundary_settled {s : State} (h : ClocksSettled s) : clocksAtBoundary s =
    forEach (List.finRange 24) (fun n y => tryRestart n (nowNat s / 1000000) y) s := by
  unfold clocksAtBoundary chainsAtBoundary
  dsimp only
  rw [applyMclk_settled h.clocks]
  dsimp only
  rw [forEach_same (g := applyModInput) fun i _ => applyModInput_settled (h.inputs i).1 (h.inputs i).2,
    forEach_same (g := fun (n : Fin 24) s => if List.contains [] (fld s (Reg.FILT_CH_STATE n) F.FILT_CH_STATE_mclk) then waitChain n 3 true s else s)
      fun _ _ => rfl,
    show applyTimeStep s = s from if_pos h.moved]

/-! ### The restart of one chain (R168) -/

/-- What decides and makes the restart of a chain: its registers, its bit of FILT_PENDING, its windows and its clock. -/
structure ChainSame (n : Fin 24) (s x : State) : Prop where
  cfg : rd x (Reg.FILT_CH_CFG n) = rd s (Reg.FILT_CH_CFG n)
  state : rd x (Reg.FILT_CH_STATE n) = rd s (Reg.FILT_CH_STATE n)
  pending : fbit x Reg.FILT_PENDING F.FILT_PENDING_pending n = fbit s Reg.FILT_PENDING F.FILT_PENDING_pending n
  chain : x.filt.chains[n] = s.filt.chains[n]
  mclk : x.time.mclk = s.time.mclk

section ChainSame

variable {n k : Fin 24} {s x y : State}

theorem ChainSame.refl (n : Fin 24) (s : State) : ChainSame n s s := ⟨rfl, rfl, rfl, rfl, rfl⟩

theorem ChainSame.trans (h : ChainSame n s x) (h' : ChainSame n x y) : ChainSame n s y :=
  ⟨h'.cfg.trans h.cfg, h'.state.trans h.state, h'.pending.trans h.pending, h'.chain.trans h.chain, h'.mclk.trans h.mclk⟩

theorem ChainSame.nextPreset (h : ChainSame n s x) : nextPreset x n = nextPreset s n := fld_of_rd h.cfg _

theorem ChainSame.nextMedian (h : ChainSame n s x) : nextMedian x n = nextMedian s n := fld_of_rd h.cfg _

theorem ChainSame.ticks (h : ChainSame n s x) : chainTicks x n = chainTicks s n := by
  rw [chainTicks, chainTicks, chainMclk, chainMclk, fld_of_rd h.state, h.mclk]

theorem ChainSame.anchorL (h : ChainSame n s x) (p : Nat) : anchorL x n p = anchorL s n p := by
  rw [Machine.anchorL, Machine.anchorL, periodsPerFrame, periodsPerFrame, h.ticks]

/-- Registers of the chain `k`, by their offset. -/
theorem ChainSame.wr (hk : k ≠ n) {a : Nat} {v : Word} (ha : Reg.FILT_CH_CFG k ≤ a ∧ a < Reg.FILT_CH_CFG k + 0x20) :
    ChainSame n s (wr s a v) := by
  simp only [Reg.FILT_CH_CFG] at ha
  have hne : k.val ≠ n.val := fun h => hk (Fin.ext h)
  refine ⟨rd_wr_ne s v ?_, rd_wr_ne s v ?_, fbit_of_rd (rd_wr_ne s v ?_) _ _, rfl, rfl⟩
  · simp only [Reg.FILT_CH_CFG]; omega
  · simp only [Reg.FILT_CH_STATE]; omega
  · simp only [Reg.FILT_PENDING]; omega

theorem ChainSame.setState (hk : k ≠ n) (G : Fld) (v : Nat) : ChainSame n s (setF s (Reg.FILT_CH_STATE k) G v) :=
  .wr hk (by simp only [Reg.FILT_CH_CFG, Reg.FILT_CH_STATE]; omega)

theorem chainSame_setChain (hk : k ≠ n) (z : ChainState) : ChainSame n s (setChain k z s) :=
  ⟨rfl, rfl, rfl, chains_setChain_ne hk z s, rfl⟩

theorem chainSame_showDelays (hk : k ≠ n) : ChainSame n s (showDelays k s) := by
  unfold showDelays
  dsimp only
  exact (ChainSame.wr hk (by simp only [Reg.FILT_CH_CFG, Reg.FILT_CH_GDELAY]; omega)).trans
    (ChainSame.wr hk (by simp only [Reg.FILT_CH_CFG, Reg.FILT_CH_FAST_DELAY]; omega))

theorem chainSame_setChainState (hk : k ≠ n) (v : Nat) : ChainSame n s (setChainState k v s) := by
  have hset := ChainSame.setState (s := s) hk F.FILT_CH_STATE_state v
  have hval : n.val ≠ k.val := fun h => hk (Fin.ext h.symm)
  unfold setChainState
  dsimp only
  generalize setF s (Reg.FILT_CH_STATE k) F.FILT_CH_STATE_state v = y at hset
  refine hset.trans ⟨rd_setFbit_ne y _ _ _ ?_, rd_setFbit_ne y _ _ _ FILT_CH_STATE_ne_PENDING, ?_, rfl, rfl⟩
  · simp only [Reg.FILT_CH_CFG, Reg.FILT_PENDING]; omega
  · rw [fbit_setFbit y _ _ _ _ _ (by decide) n.isLt, if_neg hval]

theorem chainSame_logEvent (c q : Nat) (e : Word) : ChainSame n s (logEvent c q e s) := by
  have hrd : ∀ a, 0x40050000 ≤ a → a < 0x40060000 → rd (logEvent c q e s) a = rd s a := fun a h1 h2 =>
    rd_logEvent _ _ _ _ (by simp only [Reg.CMD_STATUS]; omega) (by simp only [Reg.CMD_EVT_LOST]; omega)
  refine ⟨hrd _ ?_ ?_, hrd _ ?_ ?_, fbit_of_rd (hrd _ (by decide) (by decide)) _ _, ?_, ?_⟩
  · simp only [Reg.FILT_CH_CFG]; omega
  · simp only [Reg.FILT_CH_CFG]; omega
  · simp only [Reg.FILT_CH_STATE]; omega
  · simp only [Reg.FILT_CH_STATE]; omega
  · rw [logEvent_filt]
  · rw [logEvent_time]

/-- A chain's state while its windows begin anew: the preset and median that it adopts, and its marks. -/
def presetTaken (n : Fin 24) (s : State) : State :=
  setF (setF (setF s (Reg.FILT_CH_STATE n) F.FILT_CH_STATE_act_preset (nextPreset s n)) (Reg.FILT_CH_STATE n) F.FILT_CH_STATE_act_median
    (nextMedian s n)) (Reg.FILT_CH_STATE n) F.FILT_CH_STATE_unsettled_left (presetUnsettled (nextPreset s n) + medianHalf (nextMedian s n))

/-- The main windows begin anew at a boundary. -/
def windowsBegun (n : Fin 24) (ms : Nat) (s : State) : State :=
  setChain n { s.filt.chains[n] with restart := none, anchor := ms * 4000000, bits := 0, osrPhase := 0, firPhase := 0 } s

theorem restartMain_eq (n : Fin 24) (ms cause : Nat) (s : State) : restartMain n ms cause s =
    logN 0x3101 n cause (showDelays n (setChainState n chRunning (windowsBegun n ms (presetTaken n s)))) := rfl

theorem restartFast_eq (n : Fin 24) (ms : Nat) (s : State) : restartFast n ms s =
    (fun y : State => setChain n { y.filt.chains[n] with fastRestart := false, fastAnchor := ms * 4000000, fastBits := 0, fastPhase := 0, fastLeft := 2 } y)
      (showDelays n (setF s (Reg.FILT_CH_STATE n) F.FILT_CH_STATE_fast_unsettled 1)) := rfl

theorem chainSame_restartMain (hk : k ≠ n) (ms cause : Nat) : ChainSame n s (restartMain k ms cause s) := by
  rw [restartMain_eq]
  refine .trans ?_ (chainSame_logEvent _ _ _)
  refine .trans ?_ (chainSame_showDelays hk)
  refine .trans ?_ (chainSame_setChainState hk _)
  refine .trans ?_ (chainSame_setChain hk _)
  exact ((ChainSame.setState hk _ _).trans (.setState hk _ _)).trans (.setState hk _ _)

theorem chainSame_restartFast (hk : k ≠ n) (ms : Nat) : ChainSame n s (restartFast k ms s) := by
  rw [restartFast_eq]
  exact ((ChainSame.setState hk _ _).trans (chainSame_showDelays hk)).trans (chainSame_setChain hk _)

/-- A chain's pending main restart at a boundary. -/
def tryMain (n : Fin 24) (ms : Nat) (s : State) : State :=
  match s.filt.chains[n].restart with
  | some cause => if ms % anchorL s n (nextPreset s n) = 0 then restartMain n ms cause s else s
  | none => s

theorem tryRestart_eq (n : Fin 24) (ms : Nat) (s : State) : tryRestart n ms s =
    (fun y => if y.filt.chains[n].fastRestart && ms % anchorLf y n == 0 then restartFast n ms y else y) (tryMain n ms s) := rfl

theorem chainSame_tryRestart (hk : k ≠ n) (ms : Nat) : ChainSame n s (tryRestart k ms s) := by
  have hmain : ChainSame n s (tryMain k ms s) := by
    unfold tryMain
    split
    · split
      · exact chainSame_restartMain hk _ _
      · exact .refl n s
    · exact .refl n s
  rw [tryRestart_eq]
  dsimp only
  split
  · exact hmain.trans (chainSame_restartFast hk _)
  · exact hmain

end ChainSame

/-- A chain has restarted at a boundary, in a preset and a median. -/
structure Restarted (n : Fin 24) (ms p md : Nat) (x : State) : Prop where
  state : chainState x n = chRunning
  preset : actPreset x n = p
  median : actMedian x n = md
  restart : x.filt.chains[n].restart = none
  bits : x.filt.chains[n].bits = 0
  anchor : x.filt.chains[n].anchor = ms * 4000000
  pending : fbit x Reg.FILT_PENDING F.FILT_PENDING_pending n = false

section Restarted

variable {n : Fin 24} {ms p md : Nat} {s x y : State}

theorem Restarted.congr (h : Restarted n ms p md x) (hsame : ChainSame n x y) : Restarted n ms p md y := by
  have hchain := hsame.chain
  exact ⟨(fld_of_rd hsame.state _).trans h.state, (fld_of_rd hsame.state _).trans h.preset, (fld_of_rd hsame.state _).trans h.median,
    by rw [hchain, h.restart], by rw [hchain, h.bits], by rw [hchain, h.anchor], hsame.pending.trans h.pending⟩

theorem rd_showDelays_state (n : Fin 24) (s : State) : rd (showDelays n s) (Reg.FILT_CH_STATE n) = rd s (Reg.FILT_CH_STATE n) :=
  (rd_wr_ne _ _ (by simp only [Reg.FILT_CH_STATE, Reg.FILT_CH_FAST_DELAY]; omega)).trans
    (rd_wr_ne _ _ (by simp only [Reg.FILT_CH_STATE, Reg.FILT_CH_GDELAY]; omega))

theorem rd_showDelays_pending (n : Fin 24) (s : State) : rd (showDelays n s) Reg.FILT_PENDING = rd s Reg.FILT_PENDING :=
  (rd_wr_ne _ _ (by simp only [Reg.FILT_PENDING, Reg.FILT_CH_FAST_DELAY]; omega)).trans
    (rd_wr_ne _ _ (by simp only [Reg.FILT_PENDING, Reg.FILT_CH_GDELAY]; omega))

theorem filt_showDelays (n : Nat) (s : State) : (showDelays n s).filt = s.filt := rfl

theorem presetTaken_fields (n : Fin 24) (s : State) : actPreset (presetTaken n s) n = nextPreset s n ∧
    actMedian (presetTaken n s) n = nextMedian s n := by
  unfold presetTaken
  constructor
  · refine (fld_setF_disj _ _ _ _ _ (by decide)).trans ((fld_setF_disj _ _ _ _ _ (by decide)).trans ((fld_setF s _ _ _ (by decide)).trans ?_))
    exact Nat.mod_eq_of_lt (getF_lt _ F.FILT_CH_CFG_preset)
  · refine (fld_setF_disj _ _ _ _ _ (by decide)).trans ((fld_setF _ _ _ _ (by decide)).trans ?_)
    exact Nat.mod_eq_of_lt (getF_lt _ F.FILT_CH_CFG_median)

theorem setChainState_fields (n : Fin 24) (v : Nat) (s : State) (hv : v < 4) : chainState (setChainState n v s) n = v ∧
    actPreset (setChainState n v s) n = actPreset s n ∧ actMedian (setChainState n v s) n = actMedian s n ∧
    fbit (setChainState n v s) Reg.FILT_PENDING F.FILT_PENDING_pending n = (v == chWaiting || v == chChanging) ∧
    (setChainState n v s).filt = s.filt := by
  have hrd : ∀ (x : State) b, rd (setFbit x Reg.FILT_PENDING F.FILT_PENDING_pending n b) (Reg.FILT_CH_STATE n) = rd x (Reg.FILT_CH_STATE n) :=
    fun x b => rd_setFbit_ne x _ _ _ FILT_CH_STATE_ne_PENDING
  unfold setChainState
  dsimp only
  refine ⟨?_, ?_, ?_, ?_, rfl⟩
  · exact (fld_of_rd (hrd _ _) _).trans ((fld_setF s _ _ _ (by decide)).trans (Nat.mod_eq_of_lt hv))
  · exact (fld_of_rd (hrd _ _) _).trans (fld_setF_disj s _ _ _ _ (by decide))
  · exact (fld_of_rd (hrd _ _) _).trans (fld_setF_disj s _ _ _ _ (by decide))
  · rw [fbit_setFbit _ _ _ _ _ _ (by decide) n.isLt, if_pos rfl]

theorem restartMain_restarted (n : Fin 24) (ms cause : Nat) (s : State) :
    Restarted n ms (nextPreset s n) (nextMedian s n) (restartMain n ms cause s) := by
  obtain ⟨hpreset, hmedian⟩ := presetTaken_fields n s
  rw [restartMain_eq]
  refine Restarted.congr ?_ (chainSame_logEvent _ _ _)
  have hchain := chains_setChain n { (presetTaken n s).filt.chains[n] with
    restart := none, anchor := ms * 4000000, bits := 0, osrPhase := 0, firPhase := 0 } (presetTaken n s)
  have hregs : ∀ a, rd (windowsBegun n ms (presetTaken n s)) a = rd (presetTaken n s) a := rd_setChain n _ _
  have hdef : windowsBegun n ms (presetTaken n s) = setChain n { (presetTaken n s).filt.chains[n] with
    restart := none, anchor := ms * 4000000, bits := 0, osrPhase := 0, firPhase := 0 } (presetTaken n s) := rfl
  rw [← hdef] at hchain
  have hpreset' : actPreset (windowsBegun n ms (presetTaken n s)) n = nextPreset s n := (fld_of_rd (hregs _) _).trans hpreset
  have hmedian' : actMedian (windowsBegun n ms (presetTaken n s)) n = nextMedian s n := (fld_of_rd (hregs _) _).trans hmedian
  generalize windowsBegun n ms (presetTaken n s) = y at hchain hpreset' hmedian'
  obtain ⟨hstate, hp, hm, hpend, hfilt⟩ := setChainState_fields n chRunning y (by decide)
  refine ⟨(fld_of_rd (rd_showDelays_state ..) _).trans hstate, ((fld_of_rd (rd_showDelays_state ..) _).trans hp).trans hpreset',
    ((fld_of_rd (rd_showDelays_state ..) _).trans hm).trans hmedian', ?_, ?_, ?_, (fbit_of_rd (rd_showDelays_pending ..) _ _).trans hpend⟩
  all_goals rw [filt_showDelays, hfilt, hchain]

theorem restartFast_restarted (h : Restarted n ms p md s) (ms' : Nat) : Restarted n ms p md (restartFast n ms' s) := by
  have hrd : ∀ y, rd (showDelays n (setF y (Reg.FILT_CH_STATE n) F.FILT_CH_STATE_fast_unsettled 1)) (Reg.FILT_CH_STATE n) =
      rd (setF y (Reg.FILT_CH_STATE n) F.FILT_CH_STATE_fast_unsettled 1) (Reg.FILT_CH_STATE n) := fun y => rd_showDelays_state n _
  have hpend : rd (showDelays n (setF s (Reg.FILT_CH_STATE n) F.FILT_CH_STATE_fast_unsettled 1)) Reg.FILT_PENDING = rd s Reg.FILT_PENDING :=
    (rd_showDelays_pending n _).trans (rd_setF_ne s _ _ FILT_CH_STATE_ne_PENDING.symm)
  have hfilt : (showDelays n (setF s (Reg.FILT_CH_STATE n) F.FILT_CH_STATE_fast_unsettled 1)).filt = s.filt := rfl
  have hkeep : ∀ G : Fld, G.lo + G.w ≤ F.FILT_CH_STATE_fast_unsettled.lo ∨
      F.FILT_CH_STATE_fast_unsettled.lo + F.FILT_CH_STATE_fast_unsettled.w ≤ G.lo →
      fld (showDelays n (setF s (Reg.FILT_CH_STATE n) F.FILT_CH_STATE_fast_unsettled 1)) (Reg.FILT_CH_STATE n) G =
        fld s (Reg.FILT_CH_STATE n) G := fun G hG => (fld_of_rd (hrd s) G).trans (fld_setF_disj s _ _ _ _ hG)
  rw [restartFast_eq]
  generalize showDelays n (setF s (Reg.FILT_CH_STATE n) F.FILT_CH_STATE_fast_unsettled 1) = y at hpend hfilt hkeep
  dsimp only
  refine ⟨(hkeep _ (by decide)).trans h.state, (hkeep _ (by decide)).trans h.preset, (hkeep _ (by decide)).trans h.median, ?_, ?_, ?_,
    (fbit_of_rd hpend _ _).trans h.pending⟩
  · rw [chains_setChain, hfilt, h.restart]
  · rw [chains_setChain, hfilt, h.bits]
  · rw [chains_setChain, hfilt, h.anchor]

theorem log_restartFast (n : Fin 24) (ms : Nat) (s : State) : (restartFast n ms s).log = s.log := rfl

/-- A restart is in the log, or the logger's queue was full. -/
def RestartNoted (n : Fin 24) (cause : Nat) (s x : State) : Prop :=
  Raises 0x3101 n (BitVec.ofNat 32 cause) s x ∨ 256 ≤ x.log.queue.length

theorem RestartNoted.grows {cause : Nat} (h : RestartNoted n cause s x) (hgrow : LogGrows x y) : RestartNoted n cause s y := by
  obtain ⟨es', hes'⟩ := hgrow
  rcases h with ⟨es, hes, e, he, hrest⟩ | hfull
  · exact .inl ⟨es ++ es', by rw [hes', hes, List.append_assoc], e, List.mem_append_left _ he, hrest⟩
  · right
    rw [hes', List.length_append]
    omega

theorem restartMain_noted {cause : Nat} (hgrow : LogGrows s x) : RestartNoted n cause s (restartMain n ms cause x) := by
  obtain ⟨es, hes⟩ := hgrow
  rw [restartMain_eq]
  have hlog : (showDelays n (setChainState n chRunning (windowsBegun n ms (presetTaken n x)))).log = x.log := rfl
  generalize showDelays n (setChainState n chRunning (windowsBegun n ms (presetTaken n x))) = y at hlog
  by_cases hroom : Room 1 x
  · exact .inl (raises_of_logged hes (logged_logN _ _ _ hlog hroom))
  · right
    have hfull : ¬ y.log.queue.length < 256 := by rw [hlog]; exact hroom
    rw [logN, logEvent, if_neg hfull]
    exact Nat.not_lt.1 hfull

theorem logGrows_restartMain {cause : Nat} (hgrow : LogGrows s x) : LogGrows s (restartMain n ms cause x) := by
  rw [restartMain_eq]
  exact LogGrows.logEvent (hgrow.of_log rfl)

theorem logGrows_tryMain (hgrow : LogGrows s x) : LogGrows s (tryMain n ms x) := by
  unfold tryMain
  split
  · split
    · exact logGrows_restartMain hgrow
    · exact hgrow
  · exact hgrow

theorem logGrows_tryRestart (hgrow : LogGrows s x) : LogGrows s (tryRestart n ms x) := by
  have hmain := logGrows_tryMain (n := n) (ms := ms) hgrow
  rw [tryRestart_eq]
  dsimp only
  split
  · exact hmain.of_log (log_restartFast ..)
  · exact hmain

theorem tryRestart_restarted {cause : Nat} (hcause : x.filt.chains[n].restart = some cause) (hms : ms % anchorL x n (nextPreset x n) = 0)
    (hgrow : LogGrows s x) :
    Restarted n ms (nextPreset x n) (nextMedian x n) (tryRestart n ms x) ∧ RestartNoted n cause s (tryRestart n ms x) := by
  have hmain : tryMain n ms x = restartMain n ms cause x := by
    unfold tryMain
    rw [hcause]
    exact if_pos hms
  have hdone := restartMain_restarted n ms cause x
  have hnoted := restartMain_noted (n := n) (ms := ms) (cause := cause) hgrow
  rw [tryRestart_eq, hmain]
  dsimp only
  split
  · exact ⟨restartFast_restarted hdone ms, hnoted.grows (LogGrows.of_log (.refl _) (log_restartFast ..))⟩
  · exact ⟨hdone, hnoted⟩

/-- The restarts of a boundary, chain by chain: the one of `n` takes effect where the boundary is its anchor. -/
theorem restarts_effect {cause : Nat} (hcause : x.filt.chains[n].restart = some cause) (hms : ms % anchorL x n (nextPreset x n) = 0)
    (hgrow : LogGrows s x) :
    Restarted n ms (nextPreset x n) (nextMedian x n) (forEach (List.finRange 24) (fun k y => tryRestart k ms y) x) ∧
    RestartNoted n cause s (forEach (List.finRange 24) (fun k y => tryRestart k ms y) x) := by
  refine forEach_once (Pre := fun y => ChainSame n x y ∧ LogGrows s y)
    (Post := fun y => Restarted n ms (nextPreset x n) (nextMedian x n) y ∧ RestartNoted n cause s y)
    (List.nodup_finRange 24) (List.mem_finRange n) (fun k _ hk y hy => ?_) (fun k _ hk y hy => ?_) (fun y hy => ?_) ⟨.refl n x, hgrow⟩
  · exact ⟨hy.1.trans (chainSame_tryRestart hk ms), logGrows_tryRestart hy.2⟩
  · exact ⟨hy.1.congr (chainSame_tryRestart hk ms), hy.2.grows (logGrows_tryRestart (.refl y))⟩
  · obtain ⟨hsame, hgrows⟩ := hy
    rw [← hsame.nextPreset, ← hsame.nextMedian]
    refine tryRestart_restarted ?_ ?_ hgrows
    · rw [hsame.chain, hcause]
    · rw [hsame.nextPreset, hsame.anchorL]
      exact hms

end Restarted

/-! ### A boundary that brings nothing but restarts -/

section OnlyRestarts

variable {s : State}

theorem nowNat_eq (s : State) : nowNat s = s.tai.toNat / 4 := by
  have hlt := s.tai.isLt
  rw [nowNat, now, BitVec.extractLsb'_toNat, Nat.shiftRight_eq_div_pow]
  omega

/-- The state at the instant of a boundary, at millisecond `ms`. -/
def boundaryReached (ms q : Nat) (s : State) : State :=
  { advanceTo s q with time := { (advanceTo s q).time with lastBoundary := some ms } }

theorem reachBoundary_eq (s : State) : reachBoundary s = boundaryReached (nextMs s) (nextMs s * 4000000) s := by
  unfold reachBoundary boundaryReached nextMs
  rfl

theorem mclk_boundaryReached (ms q : Nat) (s : State) : (boundaryReached ms q s).time.mclk = s.time.mclk := rfl

theorem tai_boundaryReached (ms q : Nat) (s : State) : (boundaryReached ms q s).tai = (advanceTo s q).tai := rfl

theorem tai_reachBoundary (s : State) : (reachBoundary s).tai = (advanceTo s (nextMs s * 4000000)).tai := by
  rw [reachBoundary_eq, tai_boundaryReached]

theorem nextMs_ahead (s : State) : s.tai.toNat ≤ nextMs s * 4000000 := by
  unfold nextMs
  dsimp only
  split <;> omega

theorem ms_boundaryStart (hfit : 4000000 * nextMs s + 5 ≤ 2 ^ 66) : nowNat (boundaryStart s) / 1000000 = nextMs s := by
  have hreach := advanceTo_reaches (nextMs_ahead s) (by omega)
  have htai : (boundaryStart s).tai = (advanceTo s (nextMs s * 4000000)).tai := (boundaryStart_tai s).trans (tai_reachBoundary s)
  have hnow : nowNat (boundaryStart s) = (boundaryStart s).tai.toNat / 4 := nowNat_eq _
  rw [hnow, htai]
  omega

theorem boundaryStart_ev (s : State) : Ev ⟨[.tai, .ticks, .time], [.fab], false⟩ s (boundaryStart s) :=
  ev_wr64 (reg_block (foot_self _) .fab rfl rfl) (reg_block (foot_self _) .fab rfl rfl) (reachBoundary_ev (le_of rfl) (Ev.refl _ s))

/-- The structure's part of a boundary of `s`. -/
def afterStructure (s : State) : State := structureAtBoundary (fun _ => {}) (boundaryStart s)

variable (h : OnlyRestarts s)
include h

theorem afterStructure_ev : Ev ⟨[.log, .fab], [.cmd, .fab], false⟩ (boundaryStart s) (afterStructure s) :=
  structure_ev ((boundaryStart_change s).trans h.structure')

theorem rd_afterStructure {a : Nat} {b : Block} (hb : blockAt a = some b) (hcmd : b ≠ .cmd) (hfab : b ≠ .fab) :
    rd (afterStructure s) a = rd s a := by
  have hstart : rd (boundaryStart s) a = rd s a :=
    (rd_boundaryStart s (by rw [hb]; intro hsome; exact hfab (Option.some.inj hsome))).trans (rd_reachBoundary s a)
  refine (rd_of_ev (afterStructure_ev h) rfl hb ?_).trans hstart
  cases b <;> first | rfl | exact absurd rfl hcmd | exact absurd rfl hfab

theorem afterStructure_parts : (afterStructure s).filt = s.filt ∧ (afterStructure s).adc = s.adc ∧ (afterStructure s).upd = s.upd ∧
    (afterStructure s).dpx = s.dpx ∧ (afterStructure s).time.mclk = s.time.mclk := by
  have hev := afterStructure_ev h
  have htime : (afterStructure s).time = (boundaryStart s).time := keeps_of_ev hev (p := .time) rfl
  have hstart := boundaryStart_ev s
  have hfilt : (afterStructure s).filt = (boundaryStart s).filt := keeps_of_ev hev (p := .filt) rfl
  have hadc : (afterStructure s).adc = (boundaryStart s).adc := keeps_of_ev hev (p := .adc) rfl
  have hupd : (afterStructure s).upd = (boundaryStart s).upd := keeps_of_ev hev (p := .upd) rfl
  have hdpx : (afterStructure s).dpx = (boundaryStart s).dpx := keeps_of_ev hev (p := .dpx) rfl
  refine ⟨hfilt.trans (keeps_of_ev hstart (p := .filt) rfl), hadc.trans (keeps_of_ev hstart (p := .adc) rfl),
    hupd.trans (keeps_of_ev hstart (p := .upd) rfl), hdpx.trans (keeps_of_ev hstart (p := .dpx) rfl), ?_⟩
  rw [htime, boundaryStart, wr64_time, reachBoundary_eq, mclk_boundaryReached]

theorem settled_afterStructure : ClocksSettled (afterStructure s) := by
  obtain ⟨hfilt, hadc, -, -, hmclk⟩ := afterStructure_parts h
  have hdiv : rd (afterStructure s) Reg.CLK_MCLK_DIV = rd s Reg.CLK_MCLK_DIV := rd_afterStructure h (b := .clk) rfl (by decide) (by decide)
  have hmod : ∀ i : Fin 24, rd (afterStructure s) (Reg.ADC_MOD_CFG i) = rd s (Reg.ADC_MOD_CFG i) := fun i =>
    rd_afterStructure h (b := .adc) (by rw [blockAt, show Reg.ADC_MOD_CFG i / 0x10000 = 0x4004 by simp only [Reg.ADC_MOD_CFG]; omega]; rfl)
      (by decide) (by decide)
  refine ⟨?_, fun m => ?_, fun i => ?_⟩
  · rw [hfilt, h.moved]
  · rw [hmclk, hdiv, h.clocks m]
  · rw [hadc, fld_of_rd (hmod i), fld_of_rd (hmod i)]
    exact h.inputs i

theorem chainSame_afterStructure (n : Fin 24) : ChainSame n s (afterStructure s) := by
  obtain ⟨hfilt, -, -, -, hmclk⟩ := afterStructure_parts h
  have hreg : ∀ a, 0x40050000 ≤ a → a < 0x40060000 → rd (afterStructure s) a = rd s a := fun a h1 h2 =>
    rd_afterStructure h (b := .filt) (by rw [blockAt, show a / 0x10000 = 0x4005 by omega]; rfl) (by decide) (by decide)
  refine ⟨hreg _ ?_ ?_, hreg _ ?_ ?_, fbit_of_rd (hreg _ (by decide) (by decide)) _ _, by rw [hfilt], hmclk⟩
  · simp only [Reg.FILT_CH_CFG]; omega
  · simp only [Reg.FILT_CH_CFG]; omega
  · simp only [Reg.FILT_CH_STATE]; omega
  · simp only [Reg.FILT_CH_STATE]; omega

theorem logGrows_afterStructure : LogGrows s (afterStructure s) := by
  have hlog : (boundaryStart s).log = s.log := by
    rw [boundaryStart, wr64_log]
    exact keeps_of_ev (reachBoundary_keeps s) (p := .log) rfl
  exact logGrows_structure ((boundaryStart_change s).trans h.structure') (LogGrows.of_log (.refl s) hlog)

/-- The clocks' part of such a boundary is its restarts, and its last part moves neither chains nor the log. -/
theorem plainBoundary_restarts (hfit : 4000000 * nextMs s + 5 ≤ 2 ^ 66) (n : Fin 24) :
    ChainSame n (forEach (List.finRange 24) (fun k y => tryRestart k (nextMs s) y) (afterStructure s)) (plainBoundary s) ∧
    (plainBoundary s).log = (forEach (List.finRange 24) (fun k y => tryRestart k (nextMs s) y) (afterStructure s)).log := by
  obtain ⟨-, -, hupd, hdpx, -⟩ := afterStructure_parts h
  have hms : nowNat (afterStructure s) / 1000000 = nextMs s := by
    have htai : (afterStructure s).tai = (boundaryStart s).tai := keeps_of_ev (afterStructure_ev h) (p := .tai) rfl
    rw [nowNat_eq, htai, ← nowNat_eq]
    exact ms_boundaryStart hfit
  have hclocks : clocksAtBoundary (afterStructure s) =
      forEach (List.finRange 24) (fun k y => tryRestart k (nextMs s) y) (afterStructure s) := by
    rw [clocksAtBoundary_settled (settled_afterStructure h), hms]
  have hplain : plainBoundary s = sendFrame (settingsAtBoundary (forwardedSettings (countsAtBoundary (clocksAtBoundary (afterStructure s))))) := rfl
  have hrestarts : Ev ⟨[.log, .filt], [.filt, .cmd], false⟩ (afterStructure s)
      (forEach (List.finRange 24) (fun k y => tryRestart k (nextMs s) y) (afterStructure s)) :=
    ev_forEach (fun _ _ _ hy => tryRestart_ev (foot_self _) hy) (Ev.refl _ _)
  rw [hplain, hclocks]
  have hupd' := (keeps_of_ev hrestarts (p := .upd) rfl : _ = _).trans hupd
  have hdpx' := (keeps_of_ev hrestarts (p := .dpx) rfl : _ = _).trans hdpx
  generalize forEach (List.finRange 24) (fun k y => tryRestart k (nextMs s) y) (afterStructure s) = y at hupd' hdpx'
  have hcounts := countsAtBoundary_ev (foot_self _) (Ev.refl _ y)
  have hdpx'' : (countsAtBoundary y).dpx = s.dpx := (keeps_of_ev hcounts (p := .dpx) rfl : _ = _).trans hdpx'
  have hupd'' : (countsAtBoundary y).upd = s.upd := (keeps_of_ev hcounts (p := .upd) rfl : _ = _).trans hupd'
  have hforward : forwardedSettings (countsAtBoundary y) = countsAtBoundary y := by
    unfold forwardedSettings
    rw [hdpx'', h.settings.2]
  have hsettings : settingsAtBoundary (countsAtBoundary y) = setUpd { (countsAtBoundary y).upd with settingsDue := [] } (countsAtBoundary y) := by
    unfold settingsAtBoundary
    rw [hupd'', h.settings.1]
    rfl
  rw [hforward, hsettings]
  have hev : Ev ⟨[.loop, .upd, .dpx], [.pwm], false⟩ y
      (sendFrame (setUpd { (countsAtBoundary y).upd with settingsDue := [] } (countsAtBoundary y))) :=
    sendFrame_ev (le_of rfl) (ev_upd (by decide) (countsAtBoundary_ev (le_of rfl) (Ev.refl _ y)))
  have hreg : ∀ a, 0x40050000 ≤ a → a < 0x40060000 →
      rd (sendFrame (setUpd { (countsAtBoundary y).upd with settingsDue := [] } (countsAtBoundary y))) a = rd y a := fun a h1 h2 =>
    rd_of_ev hev rfl (b := .filt) (by rw [blockAt, show a / 0x10000 = 0x4005 by omega]; rfl) rfl
  have hfilt : _ = y.filt := keeps_of_ev hev (p := .filt) rfl
  have htime : _ = y.time := keeps_of_ev hev (p := .time) rfl
  refine ⟨⟨hreg _ ?_ ?_, hreg _ ?_ ?_, fbit_of_rd (hreg _ (by decide) (by decide)) _ _, by rw [hfilt], by rw [htime]⟩,
    keeps_of_ev hev (p := .log) rfl⟩
  · simp only [Reg.FILT_CH_CFG]; omega
  · simp only [Reg.FILT_CH_CFG]; omega
  · simp only [Reg.FILT_CH_STATE]; omega
  · simp only [Reg.FILT_CH_STATE]; omega

theorem plainBoundary_restarted {n : Fin 24} {cause : Nat} (hcause : s.filt.chains[n].restart = some cause)
    (hfit : 4000000 * nextMs s + 5 ≤ 2 ^ 66) (hanchor : nextMs s % anchorL s n (nextPreset s n) = 0) :
    Restarted n (nextMs s) (nextPreset s n) (nextMedian s n) (plainBoundary s) ∧ RestartNoted n cause s (plainBoundary s) := by
  have hsame := chainSame_afterStructure h n
  have heffect := restarts_effect (n := n) (ms := nextMs s) (x := afterStructure s) (cause := cause) (by rw [hsame.chain, hcause])
    (by rw [hsame.nextPreset, hsame.anchorL]; exact hanchor) (logGrows_afterStructure h)
  rw [hsame.nextPreset, hsame.nextMedian] at heffect
  obtain ⟨hkept, hlog⟩ := plainBoundary_restarts h hfit n
  exact ⟨heffect.1.congr hkept, heffect.2.grows (LogGrows.of_log (.refl _) hlog)⟩

end OnlyRestarts

end Sys2Proof.Machine

namespace Sys2Proof.Proofs

open Sys2Proof Sys2Proof.Machine Sys2Proof.Safety Sys2Proof.Laws

theorem filtRestarted_effect {n : Fin 24} {cause : Nat} {s : State} (hcause : s.filt.chains[n].restart = some cause) :
    ∃ t, exec (.filtRestarted n) s = .next t ∧
      (∃ k : Nat, 1 ≤ k ∧ k ≤ 1024 ∧ rd64 t Reg.FAB_FRAME_COUNT = rd64 s Reg.FAB_FRAME_COUNT + BitVec.ofNat 64 k ∧
        (t.filt.chains[n].restart = none ∨ k = 1024)) ∧
      (OnlyRestarts s → 4000000 * nextMs s + 5 ≤ 2 ^ 66 → nextMs s % anchorL s n (nextPreset s n) = 0 →
        chainState t n = chRunning ∧ actPreset t n = nextPreset s n ∧ actMedian t n = nextMedian s n ∧
        t.filt.chains[n].restart = none ∧ t.filt.chains[n].bits = 0 ∧ t.filt.chains[n].anchor = nextMs s * 4000000 ∧
        fbit t Reg.FILT_PENDING F.FILT_PENDING_pending n = false ∧
        (Raises 0x3101 n (BitVec.ofNat 32 cause) s t ∨ 256 ≤ t.log.queue.length)) := by
  have hrun : exec (.filtRestarted n) s = .next (untilRestart n 1023 (plainBoundary s)) :=
    congrArg Host.Outcome.next (untilRestart_some hcause)
  refine ⟨_, hrun, ?_, fun honly hfit hanchor => ?_⟩
  · obtain ⟨k, hk, hcount, hdone⟩ := untilRestart_count n 1023 (plainBoundary s)
    refine ⟨k + 1, Nat.le_add_left 1 k, Nat.succ_le_succ hk, ?_, hdone.imp id fun h => by rw [h]⟩
    rw [hcount, plainBoundary, frameBoundary_count]
    bv_omega
  · obtain ⟨hdone, hnoted⟩ := plainBoundary_restarted honly hcause hfit hanchor
    rw [untilRestart_none hdone.restart]
    exact ⟨hdone.state, hdone.preset, hdone.median, hdone.restart, hdone.bits, hdone.anchor, hdone.pending, hnoted⟩

/-- Settles O34, by the chains on a stuck input, by the chains a service drives, and by the boundary that is a chain's anchor. -/
theorem filterEvents : Obligations.FilterEvents := by
  refine ⟨fun i level s hen hfrom hroom => modStuck_effect hen hfrom hroom, fun i level s hno => if_neg ?_,
    fun i s h => streamRecovered_effect h, fun i s h => ?_, fun k s => filterService_effect k s,
    fun n s => ⟨fun h => congrArg Host.Outcome.next (untilRestart_none h), fun cause hcause => filtRestarted_effect hcause⟩⟩
  · rintro ⟨hen, hfrom⟩
    rcases hno with h | h
    · exact absurd (h.symm.trans hen) (by decide)
    · exact h (Option.isNone_iff_eq_none.1 hfrom)
  · change execFiltStreamRecovered i s = _
    unfold execFiltStreamRecovered
    rw [h]

end Sys2Proof.Proofs
end


section
/-! PROOFS. Decimation: the integrators and the outputs they complete (R155, R162). -/

namespace Sys2Proof.Machine

open Sys2Proof Sys2Proof.Safety Sys2Proof.Laws

/-! ### What the bits of other chains leave of a chain -/

/-- A chain's registers and windows are as before. -/
structure WindowSame (n : Fin 24) (s x : State) : Prop where
  regs : ∀ a, Reg.FILT_CH_CFG n ≤ a → a < Reg.FILT_CH_CFG n + 0x20 → rd x a = rd s a
  chain : x.filt.chains[n] = s.filt.chains[n]
  mclk : x.time.mclk = s.time.mclk

section WindowSame

variable {n k : Fin 24} {s x y : State}

theorem WindowSame.refl (n : Fin 24) (s : State) : WindowSame n s s := ⟨fun _ _ _ => rfl, rfl, rfl⟩

theorem WindowSame.trans (h : WindowSame n s x) (h' : WindowSame n x y) : WindowSame n s y :=
  ⟨fun a h1 h2 => (h'.regs a h1 h2).trans (h.regs a h1 h2), h'.chain.trans h.chain, h'.mclk.trans h.mclk⟩

theorem WindowSame.wr {a : Nat} {v : Word} (ha : a < Reg.FILT_CH_CFG n ∨ Reg.FILT_CH_CFG n + 0x20 ≤ a) : WindowSame n s (wr s a v) :=
  ⟨fun b h1 h2 => rd_wr_ne s v (by rintro rfl; omega), rfl, rfl⟩

theorem WindowSame.wrOther (hk : k ≠ n) {a : Nat} {v : Word} (ha : Reg.FILT_CH_CFG k ≤ a ∧ a < Reg.FILT_CH_CFG k + 0x20) :
    WindowSame n s (Machine.wr s a v) := by
  have hne : k.val ≠ n.val := fun h => hk (Fin.ext h)
  simp only [Reg.FILT_CH_CFG] at ha
  refine .wr ?_
  simp only [Reg.FILT_CH_CFG]
  omega

theorem windowSame_setState (hk : k ≠ n) (G : Fld) (v : Nat) : WindowSame n s (setF s (Reg.FILT_CH_STATE k) G v) :=
  .wrOther hk (by simp only [Reg.FILT_CH_CFG, Reg.FILT_CH_STATE]; omega)

theorem windowSame_setChain (hk : k ≠ n) (z : ChainState) : WindowSame n s (setChain k z s) :=
  ⟨fun _ _ _ => rfl, chains_setChain_ne hk z s, rfl⟩

theorem windowSame_advanceTo (q : Nat) : WindowSame n s (advanceTo s q) := ⟨fun _ _ _ => rfl, rfl, rfl⟩

theorem windowSame_logEvent (c q : Nat) (e : Word) : WindowSame n s (logEvent c q e s) := by
  refine ⟨fun a h1 h2 => ?_, by rw [logEvent_filt], by rw [logEvent_time]⟩
  simp only [Reg.FILT_CH_CFG] at h1 h2
  exact rd_logEvent _ _ _ _ (by simp only [Reg.CMD_STATUS]; omega) (by simp only [Reg.CMD_EVT_LOST]; omega)

/-- A saturation is noted outside every chain's window. -/
theorem windowSame_noteSat (j : Nat) (fast sat : Bool) : WindowSame n s (noteSat j fast sat s) := by
  have hset : WindowSame n s (setFbit s Reg.FILT_SAT F.FILT_SAT_sat j true) := .wr (by simp only [Reg.FILT_CH_CFG, Reg.FILT_SAT]; omega)
  unfold noteSat
  split
  · dsimp only
    cases fbit s Reg.FILT_SAT F.FILT_SAT_sat j with
    | true => exact hset
    | false => exact hset.trans (windowSame_logEvent _ _ _)
  · exact .refl n s

theorem windowSame_mainOutput (hk : k ≠ n) (raw : Int) : WindowSame n s (mainOutput k raw s) := by
  unfold mainOutput
  dsimp only
  refine .trans ?_ (windowSame_setChain hk _)
  refine .trans ?_ (.trans (.wrOther hk (by simp only [Reg.FILT_CH_CFG, Reg.FILT_CH_STAMP]; omega))
    (.wrOther hk (by simp only [Reg.FILT_CH_CFG, Reg.FILT_CH_STAMP]; omega)))
  refine .trans ?_ (.wrOther hk (by simp only [Reg.FILT_CH_CFG, Reg.FILT_CH_LAST]; omega))
  refine .trans ?_ (windowSame_setState hk _ _)
  refine .trans ?_ (windowSame_noteSat _ _ _)
  exact (windowSame_advanceTo _).trans (windowSame_setState hk _ _)

theorem windowSame_sincOutput (hk : k ≠ n) (v : Int) : WindowSame n s (sincOutput k v s) := by
  unfold sincOutput
  dsimp only
  split
  · exact windowSame_mainOutput hk _
  · split
    · exact (windowSame_setChain hk _).trans (windowSame_mainOutput hk _)
    · exact windowSame_setChain hk _

theorem windowSame_mainBit (hk : k ≠ n) (b : Bool) : WindowSame n s (mainBit k b s) := by
  unfold mainBit
  dsimp only
  split
  · split
    · exact (windowSame_setChain hk _).trans (windowSame_sincOutput hk _)
    · exact windowSame_setChain hk _
  · exact windowSame_setChain hk _

theorem windowSame_fastOut (hk : k ≠ n) (v : Int) : WindowSame n s (fastOut k v s) := by
  unfold fastOut
  dsimp only
  refine .trans ?_ (windowSame_setChain hk _)
  refine .trans ?_ (windowSame_setState hk _ _)
  refine .trans ?_ (.wrOther hk (by simp only [Reg.FILT_CH_CFG, Reg.FILT_CH_LAST_FAST]; omega))
  exact (windowSame_advanceTo _).trans (windowSame_noteSat _ _ _)

theorem windowSame_fastBit (hk : k ≠ n) (b : Bool) : WindowSame n s (fastBit k b s) := by
  unfold fastBit
  dsimp only
  split
  · exact windowSame_setChain hk _
  · split
    · exact (windowSame_setChain hk _).trans (windowSame_fastOut hk _)
    · exact windowSame_setChain hk _

/-- A bit of an input at one chain. -/
def chainBit (b : Bool) (n : Fin 24) (s : State) : State :=
  if chainState s n = chIdle ∨ chainTicks s n = 0 then s else fastBit n b (mainBit n b s)

theorem windowSame_chainBit (hk : k ≠ n) (b : Bool) : WindowSame n s (chainBit b k s) := by
  unfold chainBit
  split
  · exact .refl n s
  · exact (windowSame_mainBit hk b).trans (windowSame_fastBit hk b)

theorem WindowSame.state (h : WindowSame n s x) : rd x (Reg.FILT_CH_STATE n) = rd s (Reg.FILT_CH_STATE n) :=
  h.regs _ (by simp only [Reg.FILT_CH_STATE, Reg.FILT_CH_CFG]; omega) (by simp only [Reg.FILT_CH_STATE, Reg.FILT_CH_CFG]; omega)

end WindowSame

theorem inputBit_eq (i : Nat) (b : Bool) (s : State) : inputBit i b s = forEach (chainsOf s i) (chainBit b) s := rfl

/-! ### What a bit does to its own chain -/

/-- The value of a word of a value and its tag. -/
theorem extract_high (a b : BitVec 16) : (a ++ b : Word).extractLsb' 16 16 = a := by
  ext i hi
  simp only [BitVec.getElem_extractLsb', BitVec.getLsbD_append]
  rw [if_neg (by omega), Nat.add_sub_cancel_left, BitVec.getLsbD_eq_getElem hi]

/-- A chain that runs on: its state and its clock are as before. -/
structure RunKept (n : Fin 24) (s x : State) : Prop where
  state : chainState x n = chainState s n
  input : fld x (Reg.FILT_CH_STATE n) F.FILT_CH_STATE_input = fld s (Reg.FILT_CH_STATE n) F.FILT_CH_STATE_input
  mclk : x.time.mclk = s.time.mclk

/-- The sums of a chain, and the phases of its fast windows, are as before. -/
structure SumsKept (x z : ChainState) : Prop where
  i1 : z.i1 = x.i1
  i2 : z.i2 = x.i2
  i3 : z.i3 = x.i3
  j1 : z.j1 = x.j1
  j2 : z.j2 = x.j2
  bits : z.bits = x.bits
  y1 : z.y1 = x.y1
  y2 : z.y2 = x.y2
  fastPhase : z.fastPhase = x.fastPhase
  fastRestart : z.fastRestart = x.fastRestart

section OwnChain

variable {n : Fin 24} {s x y : State}

theorem RunKept.refl (n : Fin 24) (s : State) : RunKept n s s := ⟨rfl, rfl, rfl⟩

theorem RunKept.trans (h : RunKept n s x) (h' : RunKept n x y) : RunKept n s y :=
  ⟨h'.state.trans h.state, h'.input.trans h.input, h'.mclk.trans h.mclk⟩

theorem RunKept.ticks (h : RunKept n s x) : chainTicks x n = chainTicks s n := by
  rw [chainTicks, chainTicks, chainMclk, chainMclk, h.input, h.mclk]

theorem runKept_of_window (h : WindowSame n s x) : RunKept n s x :=
  ⟨fld_of_rd h.state _, fld_of_rd h.state _, h.mclk⟩

theorem runKept_wr {a : Nat} {v : Word} (ha : Reg.FILT_CH_STATE n ≠ a) : RunKept n s (wr s a v) :=
  ⟨fld_of_rd (rd_wr_ne s v ha) _, fld_of_rd (rd_wr_ne s v ha) _, rfl⟩

theorem runKept_setState (G : Fld) (v : Nat) (h1 : G.lo + G.w ≤ 30) (h2 : 13 ≤ G.lo ∨ G.lo + G.w ≤ 8) :
    RunKept n s (setF s (Reg.FILT_CH_STATE n) G v) :=
  ⟨fld_setF_disj s _ _ _ _ (.inr h1), fld_setF_disj s _ _ _ _ (h2.elim .inl .inr), rfl⟩

theorem runKept_setChain (z : ChainState) : RunKept n s (setChain n z s) := ⟨rfl, rfl, rfl⟩

theorem SumsKept.refl (x : ChainState) : SumsKept x x := ⟨rfl, rfl, rfl, rfl, rfl, rfl, rfl, rfl, rfl, rfl⟩

theorem SumsKept.trans {x y z : ChainState} (h : SumsKept x y) (h' : SumsKept y z) : SumsKept x z :=
  ⟨h'.i1.trans h.i1, h'.i2.trans h.i2, h'.i3.trans h.i3, h'.j1.trans h.j1, h'.j2.trans h.j2, h'.bits.trans h.bits, h'.y1.trans h.y1,
    h'.y2.trans h.y2, h'.fastPhase.trans h.fastPhase, h'.fastRestart.trans h.fastRestart⟩

theorem filt_noteSat (j : Nat) (fast sat : Bool) (s : State) : (noteSat j fast sat s).filt = s.filt := by
  unfold noteSat
  split
  · dsimp only
    cases fbit s Reg.FILT_SAT F.FILT_SAT_sat j with
    | true => rfl
    | false => exact logEvent_filt ..
  · rfl

/-- A main output keeps the sums and the run of its chain. -/
theorem mainOutput_kept (raw : Int) : RunKept n s (mainOutput n raw s) ∧ SumsKept s.filt.chains[n] (mainOutput n raw s).filt.chains[n] ∧
    (mainOutput n raw s).filt.chains[n].mainNew.isSome = true := by
  have hstate : ∀ a, a = Reg.FILT_CH_STAMP n ∨ a = Reg.FILT_CH_STAMP n + 4 ∨ a = Reg.FILT_CH_LAST n → Reg.FILT_CH_STATE n ≠ a := by
    intro a ha
    simp only [Reg.FILT_CH_STAMP, Reg.FILT_CH_LAST, Reg.FILT_CH_STATE] at *
    omega
  unfold mainOutput
  dsimp only
  refine ⟨?_, ?_, ?_⟩
  · refine .trans ?_ (runKept_setChain _)
    refine .trans ?_ (.trans (runKept_wr (hstate _ (.inl rfl))) (runKept_wr (hstate _ (.inr (.inl rfl)))))
    refine .trans ?_ (runKept_wr (hstate _ (.inr (.inr rfl))))
    refine .trans ?_ (runKept_setState _ _ (by decide) (by decide))
    refine .trans ?_ (runKept_of_window (windowSame_noteSat _ _ _))
    exact (runKept_of_window (windowSame_advanceTo _)).trans (runKept_setState _ _ (by decide) (by decide))
  · rw [chains_setChain, wr64_filt, wr_filt, setF_filt, filt_noteSat, setF_filt]
    exact ⟨rfl, rfl, rfl, rfl, rfl, rfl, rfl, rfl, rfl, rfl⟩
  · rw [chains_setChain]
    rfl

/-- The value of a main output in FILT_CH_LAST where neither the median nor the DC blocker is on. -/
theorem last_mainOutput {raw : Int} (hmed : actMedian s n = 0) (hcorner : fld s (Reg.FILT_CH_CFG n) F.FILT_CH_CFG_dcb_corner = 0) :
    (rd (mainOutput n raw s) (Reg.FILT_CH_LAST n)).extractLsb' 16 16 = BitVec.ofInt 16 (satQ15 (roundShift raw 33)) := by
  have hmed' : ∀ q, actMedian (advanceTo s q) n = 0 := fun _ => hmed
  have hcorner' : ∀ q, fld (advanceTo s q) (Reg.FILT_CH_CFG n) F.FILT_CH_CFG_dcb_corner = 0 := fun _ => hcorner
  have hmedian : medianOf (medianHalf 0) ((raw :: s.filt.chains[n].med).take 7) = raw := by
    unfold medianOf medianHalf
    simp
  unfold mainOutput
  dsimp only
  rw [rd_setChain, rd_wr64_ne _ _ (by simp only [Reg.FILT_CH_LAST, Reg.FILT_CH_STAMP]; omega)
    (by simp only [Reg.FILT_CH_LAST, Reg.FILT_CH_STAMP]; omega), rd_wr, hmed', hcorner', if_pos rfl, hmedian]
  exact extract_high _ _

theorem mainOutput_after {raw : Int} {z : ChainState} (hz : SumsKept s.filt.chains[n] z) : RunKept n s (mainOutput n raw (setChain n z s)) ∧
    SumsKept s.filt.chains[n] (mainOutput n raw (setChain n z s)).filt.chains[n] := by
  obtain ⟨hrun, hsums, -⟩ := mainOutput_kept (n := n) (s := setChain n z s) raw
  rw [chains_setChain] at hsums
  exact ⟨(runKept_setChain z).trans hrun, hz.trans hsums⟩

theorem sincOutput_kept (v : Int) : RunKept n s (sincOutput n v s) ∧ SumsKept s.filt.chains[n] (sincOutput n v s).filt.chains[n] := by
  unfold sincOutput
  dsimp only
  split
  · exact ⟨(mainOutput_kept _).1, (mainOutput_kept _).2.1⟩
  · split
    · exact mainOutput_after ⟨rfl, rfl, rfl, rfl, rfl, rfl, rfl, rfl, rfl, rfl⟩
    · rw [chains_setChain]
      exact ⟨runKept_setChain _, ⟨rfl, rfl, rfl, rfl, rfl, rfl, rfl, rfl, rfl, rfl⟩⟩

/-- Does a chain decimate: is it RUNNING or CHANGING? -/
abbrev Decimates (n : Fin 24) (s : State) : Prop := chainState s n = chRunning ∨ chainState s n = chChanging

/-- A chain after a bit of the main stream: its sums, with the bit counted where it decimates. -/
def mainSummed (n : Fin 24) (b : Bool) (s : State) : ChainState :=
  let x := s.filt.chains[n]
  { x with
    i1 := x.i1 + bitVal b, i2 := x.i2 + (x.i1 + bitVal b), i3 := x.i3 + (x.i2 + (x.i1 + bitVal b))
    bits := if chainState s n = chRunning ∨ chainState s n = chChanging then x.bits + 1 else x.bits }

theorem mainBit_kept (b : Bool) : RunKept n s (mainBit n b s) ∧ SumsKept (mainSummed n b s) (mainBit n b s).filt.chains[n] := by
  unfold mainBit mainSummed
  dsimp only
  by_cases hdec : chainState s n = chRunning ∨ chainState s n = chChanging
  · rw [if_pos hdec, if_pos hdec]
    split
    · refine ⟨(runKept_setChain _).trans (sincOutput_kept _).1, .trans ?_ (sincOutput_kept _).2⟩
      rw [chains_setChain]
      exact ⟨rfl, rfl, rfl, rfl, rfl, rfl, rfl, rfl, rfl, rfl⟩
    · rw [chains_setChain]
      exact ⟨runKept_setChain _, ⟨rfl, rfl, rfl, rfl, rfl, rfl, rfl, rfl, rfl, rfl⟩⟩
  · rw [if_neg hdec, if_neg hdec, chains_setChain]
    exact ⟨runKept_setChain _, ⟨rfl, rfl, rfl, rfl, rfl, rfl, rfl, rfl, rfl, rfl⟩⟩

/-- What a chain's fast stream finds: its sums, its differences and the phase of its windows. -/
structure FastSide (x z : ChainState) : Prop where
  j1 : z.j1 = x.j1
  j2 : z.j2 = x.j2
  y1 : z.y1 = x.y1
  y2 : z.y2 = x.y2
  fastPhase : z.fastPhase = x.fastPhase
  fastRestart : z.fastRestart = x.fastRestart

theorem mainBit_fastSide {b : Bool} {x : ChainState} (hx : s.filt.chains[n] = x) : FastSide x (mainBit n b s).filt.chains[n] := by
  obtain ⟨-, h⟩ := mainBit_kept (n := n) (s := s) b
  subst hx
  exact ⟨h.j1, h.j2, h.y1, h.y2, h.fastPhase, h.fastRestart⟩

/-- The sums of a chain's main and fast streams. -/
structure StreamSums (x z : ChainState) (j1 j2 : Word) : Prop where
  i1 : z.i1 = x.i1
  i2 : z.i2 = x.i2
  i3 : z.i3 = x.i3
  bits : z.bits = x.bits
  j1 : z.j1 = j1
  j2 : z.j2 = j2

theorem fastOut_kept (v : Int) : RunKept n s (fastOut n v s) ∧
    StreamSums s.filt.chains[n] (fastOut n v s).filt.chains[n] s.filt.chains[n].j1 s.filt.chains[n].j2 ∧
    (fastOut n v s).filt.chains[n].fastNew.isSome = true := by
  unfold fastOut
  dsimp only
  refine ⟨?_, ?_, ?_⟩
  · refine .trans ?_ (runKept_setChain _)
    refine .trans ?_ (runKept_setState _ _ (by decide) (by decide))
    refine .trans ?_ (runKept_wr (by simp only [Reg.FILT_CH_STATE, Reg.FILT_CH_LAST_FAST]; omega))
    exact (runKept_of_window (windowSame_advanceTo _)).trans (runKept_of_window (windowSame_noteSat _ _ _))
  · rw [chains_setChain, setF_filt, wr_filt, filt_noteSat]
    exact ⟨rfl, rfl, rfl, rfl, rfl, rfl⟩
  · rw [chains_setChain]
    rfl

theorem fastOut_after {v : Int} {z : ChainState} (h1 : z.i1 = s.filt.chains[n].i1) (h2 : z.i2 = s.filt.chains[n].i2)
    (h3 : z.i3 = s.filt.chains[n].i3) (hbits : z.bits = s.filt.chains[n].bits) : RunKept n s (fastOut n v (setChain n z s)) ∧
    StreamSums s.filt.chains[n] (fastOut n v (setChain n z s)).filt.chains[n] z.j1 z.j2 := by
  obtain ⟨hrun, hsums, -⟩ := fastOut_kept (n := n) (s := setChain n z s) v
  rw [chains_setChain] at hsums
  exact ⟨(runKept_setChain z).trans hrun, ⟨hsums.i1.trans h1, hsums.i2.trans h2, hsums.i3.trans h3, hsums.bits.trans hbits, hsums.j1, hsums.j2⟩⟩

/-- The value of a fast output in FILT_CH_LAST_FAST. -/
theorem last_fastOut (v : Int) : (rd (fastOut n v s) (Reg.FILT_CH_LAST_FAST n)).extractLsb' 16 16 =
    BitVec.ofInt 16 (satQ15 (v * 512)) := by
  unfold fastOut
  dsimp only
  rw [rd_setChain, rd_setF_ne _ _ _ (by simp only [Reg.FILT_CH_LAST_FAST, Reg.FILT_CH_STATE]; omega), rd_wr]
  exact extract_high _ _

theorem fastBit_kept (b : Bool) : RunKept n s (fastBit n b s) ∧
    StreamSums s.filt.chains[n] (fastBit n b s).filt.chains[n] (s.filt.chains[n].j1 + bitVal b)
      (s.filt.chains[n].j2 + (s.filt.chains[n].j1 + bitVal b)) := by
  unfold fastBit
  dsimp only
  split
  · rw [chains_setChain]
    exact ⟨runKept_setChain _, ⟨rfl, rfl, rfl, rfl, rfl, rfl⟩⟩
  · split
    · exact fastOut_after rfl rfl rfl rfl
    · rw [chains_setChain]
      exact ⟨runKept_setChain _, ⟨rfl, rfl, rfl, rfl, rfl, rfl⟩⟩

/-- A fast output of a chain that completes a window: the double difference, and the word delivered. -/
theorem fastBit_output {b : Bool} (hrestart : s.filt.chains[n].fastRestart = false) (hphase : s.filt.chains[n].fastPhase = 7) :
    (fastBit n b s).filt.chains[n].fastNew.isSome = true ∧
    (rd (fastBit n b s) (Reg.FILT_CH_LAST_FAST n)).extractLsb' 16 16 = BitVec.ofInt 16 (satQ15
      ((s.filt.chains[n].j2 + (s.filt.chains[n].j1 + bitVal b) - s.filt.chains[n].y1 - s.filt.chains[n].y2).toInt * 512)) := by
  unfold fastBit
  dsimp only
  rw [hrestart, if_neg Bool.false_ne_true, hphase, if_pos (by decide)]
  exact ⟨(fastOut_kept _).2.2, last_fastOut _⟩

end OwnChain

/-! ### A run of bits -/

/-- The sums of both streams after a bit. -/
def summedBit (a : (Word × Word × Word) × Word × Word) (b : Bool) : (Word × Word × Word) × Word × Word :=
  ((a.1.1 + bitVal b, a.1.2.1 + (a.1.1 + bitVal b), a.1.2.2 + (a.1.2.1 + (a.1.1 + bitVal b))),
    (a.2.1 + bitVal b, a.2.2 + (a.2.1 + bitVal b)))

/-- The sums of both streams of a chain. -/
def sumsOf (x : ChainState) : (Word × Word × Word) × Word × Word := ((x.i1, x.i2, x.i3), (x.j1, x.j2))

/-- A run of `bits` has reached a chain of `s`. -/
structure BitsTaken (n : Fin 24) (bits : List Bool) (s x : State) : Prop where
  run : RunKept n s x
  sums : sumsOf x.filt.chains[n] = bits.foldl summedBit (sumsOf s.filt.chains[n])
  count : x.filt.chains[n].bits = (if chainState s n = chRunning ∨ chainState s n = chChanging
    then s.filt.chains[n].bits + bits.length else s.filt.chains[n].bits)

section BitsTaken

variable {n : Fin 24} {s x y : State}

theorem BitsTaken.congr {bits : List Bool} (h : BitsTaken n bits s x) (hsame : WindowSame n x y) : BitsTaken n bits s y := by
  refine ⟨h.run.trans (runKept_of_window hsame), ?_, ?_⟩
  · rw [hsame.chain, h.sums]
  · rw [hsame.chain, h.count]

theorem bitsTaken_nil (n : Fin 24) (s : State) : BitsTaken n [] s s := ⟨.refl n s, rfl, (ite_self _).symm⟩

theorem chainBit_taken {b : Bool} (hlive : chainState s n ≠ chIdle) (hclock : chainTicks s n ≠ 0) : BitsTaken n [b] s (chainBit b n s) := by
  obtain ⟨hrun, hsums⟩ := mainBit_kept (n := n) (s := s) b
  obtain ⟨hrun', hfast⟩ := fastBit_kept (n := n) (s := mainBit n b s) b
  have hbit : chainBit b n s = fastBit n b (mainBit n b s) := if_neg (by rintro (h | h) <;> contradiction)
  rw [hbit]
  refine ⟨hrun.trans hrun', ?_, ?_⟩
  · rw [sumsOf, hfast.i1, hfast.i2, hfast.i3, hfast.j1, hfast.j2, hsums.i1, hsums.i2, hsums.i3, hsums.j1, hsums.j2]
    rfl
  · rw [hfast.bits, hsums.bits]
    rfl

theorem BitsTaken.snoc {bits : List Bool} {b : Bool} (h : BitsTaken n bits s x) (h' : BitsTaken n [b] x y) :
    BitsTaken n (bits ++ [b]) s y := by
  refine ⟨h.run.trans h'.run, ?_, ?_⟩
  · rw [h'.sums, h.sums, List.foldl_append]
  · rw [h'.count, h.run.state, h.count, List.length_append, List.length_singleton]
    split <;> rfl

theorem mem_chainsOf_own (n : Fin 24) (s : State) : n ∈ chainsOf s (fld s (Reg.FILT_CH_STATE n) F.FILT_CH_STATE_input) := by
  simp [chainsOf]

theorem inputBit_taken {i : Nat} {b : Bool} (hin : fld s (Reg.FILT_CH_STATE n) F.FILT_CH_STATE_input = i)
    (hlive : chainState s n ≠ chIdle) (hclock : chainTicks s n ≠ 0) : BitsTaken n [b] s (inputBit i b s) := by
  rw [inputBit_eq]
  refine forEach_once (Pre := WindowSame n s) (Post := BitsTaken n [b] s) (chainsOf_nodup s i) (hin ▸ mem_chainsOf_own n s)
    (fun k _ hk y hy => hy.trans (windowSame_chainBit hk b)) (fun k _ hk y hy => hy.congr (windowSame_chainBit hk b)) (fun y hy => ?_)
    (.refl n s)
  have hrun := runKept_of_window hy
  have htaken := chainBit_taken (b := b) (hrun.state.trans_ne hlive) (hrun.ticks.trans_ne hclock)
  refine ⟨hrun.trans htaken.run, ?_, ?_⟩
  · rw [htaken.sums, hy.chain]
  · rw [htaken.count, hrun.state, hy.chain]

theorem feedChain_taken (bits : List Bool) (hlive : chainState s n ≠ chIdle) (hclock : chainTicks s n ≠ 0) :
    BitsTaken n bits s (feedChain n bits s) := by
  have hall : ∀ done todo : List Bool, ∀ x, BitsTaken n done s x → BitsTaken n (done ++ todo) s
      (forEach todo (inputBit (fld s (Reg.FILT_CH_STATE n) F.FILT_CH_STATE_input)) x) := by
    intro done todo
    induction todo generalizing done with
    | nil =>
      intro x hx
      rw [List.append_nil]
      exact hx
    | cons b todo ih =>
      intro x hx
      have hone := inputBit_taken (b := b) hx.run.input (hx.run.state.trans_ne hlive) (hx.run.ticks.trans_ne hclock)
      have hnext := ih (done ++ [b]) _ (hx.snoc hone)
      rw [List.append_assoc] at hnext
      exact hnext
  unfold feedChain
  rw [if_neg hlive]
  exact hall [] bits s (bitsTaken_nil n s)

theorem foldl_summedBit (bits : List Bool) (a : (Word × Word × Word) × Word × Word) : bits.foldl summedBit a =
    (bits.foldl (fun (a : Word × Word × Word) b => (a.1 + bitVal b, a.2.1 + (a.1 + bitVal b), a.2.2 + (a.2.1 + (a.1 + bitVal b)))) a.1,
      bits.foldl (fun (a : Word × Word) b => (a.1 + bitVal b, a.2 + (a.1 + bitVal b))) a.2) := by
  induction bits generalizing a with
  | nil => rfl
  | cons b bits ih => exact ih _

/-! ### The outputs a bit completes -/

/-- What holds of a chain after a bit holds after the bit of its input: the other chains leave its window. -/
theorem feedChain_one {b : Bool} {Post : State → Prop} (hlive : chainState s n ≠ chIdle) (hclock : chainTicks s n ≠ 0)
    (hpost : ∀ y z, Post y → WindowSame n y z → Post z) (hstep : ∀ y, WindowSame n s y → Post (fastBit n b (mainBit n b y))) :
    Post (feedChain n [b] s) := by
  have hfeed : feedChain n [b] s = forEach (chainsOf s (fld s (Reg.FILT_CH_STATE n) F.FILT_CH_STATE_input)) (chainBit b) s := if_neg hlive
  rw [hfeed]
  refine forEach_once (Pre := WindowSame n s) (Post := Post) (chainsOf_nodup s _) (mem_chainsOf_own n s)
    (fun k _ hk y hy => hy.trans (windowSame_chainBit hk b)) (fun k _ hk y hy => hpost y _ hy (windowSame_chainBit hk b)) (fun y hy => ?_)
    (.refl n s)
  have hrun := runKept_of_window hy
  have hbit : chainBit b n y = fastBit n b (mainBit n b y) :=
    if_neg (by rw [hrun.state, hrun.ticks]; rintro (h | h) <;> contradiction)
  rw [hbit]
  exact hstep y hy

theorem rd_noteSat_window (j : Nat) (fast sat : Bool) (s : State) {a : Nat} (h1 : Reg.FILT_CH_CFG n ≤ a) (h2 : a < Reg.FILT_CH_CFG n + 0x20) :
    rd (noteSat j fast sat s) a = rd s a := (windowSame_noteSat j fast sat).regs a h1 h2

/-- A bit of the fast stream leaves the main output delivered. -/
theorem fastBit_main (b : Bool) (s : State) : (fastBit n b s).filt.chains[n].mainNew = s.filt.chains[n].mainNew ∧
    rd (fastBit n b s) (Reg.FILT_CH_LAST n) = rd s (Reg.FILT_CH_LAST n) := by
  have hout : ∀ v z, (fastOut n v (setChain n z s)).filt.chains[n].mainNew = z.mainNew ∧
      rd (fastOut n v (setChain n z s)) (Reg.FILT_CH_LAST n) = rd s (Reg.FILT_CH_LAST n) := by
    intro v z
    unfold fastOut
    dsimp only
    constructor
    · rw [chains_setChain, setF_filt, wr_filt, filt_noteSat]
      change (setChain n z s).filt.chains[n].mainNew = z.mainNew
      rw [chains_setChain]
    · rw [rd_setChain, rd_setF_ne _ _ _ (by simp only [Reg.FILT_CH_LAST, Reg.FILT_CH_STATE]; omega),
        rd_wr_ne _ _ (by simp only [Reg.FILT_CH_LAST, Reg.FILT_CH_LAST_FAST]; omega),
        rd_noteSat_window (n := n) _ _ _ _ (by simp only [Reg.FILT_CH_LAST, Reg.FILT_CH_CFG]; omega)
          (by simp only [Reg.FILT_CH_LAST, Reg.FILT_CH_CFG]; omega)]
      rfl
  unfold fastBit
  dsimp only
  split
  · rw [chains_setChain]
    exact ⟨rfl, rd_setChain ..⟩
  · split
    · exact hout _ _
    · rw [chains_setChain]
      exact ⟨rfl, rd_setChain ..⟩

/-- The bit that completes a window in preset FAST gives the triple difference as the main output. -/
theorem mainBit_output {b : Bool} (hrun : chainState s n = chRunning) (hpreset : actPreset s n = 0) (hmedian : actMedian s n = 0)
    (hcorner : fld s (Reg.FILT_CH_CFG n) F.FILT_CH_CFG_dcb_corner = 0) (hphase : s.filt.chains[n].osrPhase = 15) :
    (mainBit n b s).filt.chains[n].mainNew.isSome = true ∧
    (rd (mainBit n b s) (Reg.FILT_CH_LAST n)).extractLsb' 16 16 = BitVec.ofInt 16 (satQ15
      ((s.filt.chains[n].i3 + (s.filt.chains[n].i2 + (s.filt.chains[n].i1 + bitVal b)) - s.filt.chains[n].z1 - s.filt.chains[n].z2 -
        s.filt.chains[n].z3).toInt * 8)) := by
  have hround : ∀ v : Int, roundShift (v * 2 ^ 36) 33 = v * 8 := by
    intro v
    unfold roundShift
    omega
  have hsinc : ∀ v z, sincOutput n v (setChain n z s) = mainOutput n (v * 2 ^ 36) (setChain n z s) := fun v z => if_pos hpreset
  have hlast : ∀ v z, (rd (mainOutput n v (setChain n z s)) (Reg.FILT_CH_LAST n)).extractLsb' 16 16 =
      BitVec.ofInt 16 (satQ15 (roundShift v 33)) := fun v z => last_mainOutput (s := setChain n z s) hmedian hcorner
  unfold mainBit
  dsimp only
  rw [if_pos (.inl hrun), hpreset, hphase, if_pos (by decide), hsinc]
  refine ⟨(mainOutput_kept _).2.2, ?_⟩
  rw [hlast, hround]

end BitsTaken

end Sys2Proof.Machine

namespace Sys2Proof.Proofs

open Sys2Proof Sys2Proof.Machine Sys2Proof.Safety Sys2Proof.Laws

theorem mainOutput_effect {n : Fin 24} {b : Bool} {s : State} (hrun : chainState s n = chRunning) (hclock : chainTicks s n ≠ 0)
    (hpreset : actPreset s n = 0) (hmedian : actMedian s n = 0) (hcorner : fld s (Reg.FILT_CH_CFG n) F.FILT_CH_CFG_dcb_corner = 0)
    (hphase : s.filt.chains[n].osrPhase = 15) :
    let x := s.filt.chains[n]
    let i3 := x.i3 + (x.i2 + (x.i1 + bitVal b))
    (feedChain n [b] s).filt.chains[n].mainNew.isSome = true ∧ (rd (feedChain n [b] s) (Reg.FILT_CH_LAST n)).extractLsb' 16 16 =
      BitVec.ofInt 16 (satQ15 ((i3 - x.z1 - x.z2 - x.z3).toInt * 8)) := by
  intro x i3
  have hlast : ∀ y z, WindowSame n y z → rd z (Reg.FILT_CH_LAST n) = rd y (Reg.FILT_CH_LAST n) := fun y z h =>
    h.regs _ (by simp only [Reg.FILT_CH_LAST, Reg.FILT_CH_CFG]; omega) (by simp only [Reg.FILT_CH_LAST, Reg.FILT_CH_CFG]; omega)
  refine feedChain_one (Post := fun y => y.filt.chains[n].mainNew.isSome = true ∧ (rd y (Reg.FILT_CH_LAST n)).extractLsb' 16 16 =
    BitVec.ofInt 16 (satQ15 ((i3 - x.z1 - x.z2 - x.z3).toInt * 8))) (by rw [hrun]; decide) hclock (fun y z hy hz => ?_) fun y hy => ?_
  · rw [hz.chain, hlast y z hz]
    exact hy
  · obtain ⟨hnew, hkeep⟩ := fastBit_main (n := n) b (mainBit n b y)
    have hcfg : rd y (Reg.FILT_CH_CFG n) = rd s (Reg.FILT_CH_CFG n) := hy.regs _ le_rfl (by omega)
    obtain ⟨hsome, hvalue⟩ := mainBit_output (n := n) (b := b) (s := y) ((runKept_of_window hy).state.trans hrun)
      ((fld_of_rd hy.state _).trans hpreset) ((fld_of_rd hy.state _).trans hmedian) ((fld_of_rd hcfg _).trans hcorner)
      (by rw [hy.chain]; exact hphase)
    rw [hnew, hkeep, hvalue, hy.chain]
    exact ⟨hsome, rfl⟩

theorem fastOutput_effect {n : Fin 24} {b : Bool} {s : State} (hlive : chainState s n ≠ chIdle) (hclock : chainTicks s n ≠ 0)
    (hrestart : s.filt.chains[n].fastRestart = false) (hphase : s.filt.chains[n].fastPhase = 7) :
    let x := s.filt.chains[n]
    let j2 := x.j2 + (x.j1 + bitVal b)
    (feedChain n [b] s).filt.chains[n].fastNew.isSome = true ∧ (feedChain n [b] s).filt.chains[n].j2 = j2 ∧
    (rd (feedChain n [b] s) (Reg.FILT_CH_LAST_FAST n)).extractLsb' 16 16 = BitVec.ofInt 16 (satQ15 ((j2 - x.y1 - x.y2).toInt * 512)) := by
  intro x j2
  have hlast : ∀ y z, WindowSame n y z → rd z (Reg.FILT_CH_LAST_FAST n) = rd y (Reg.FILT_CH_LAST_FAST n) := fun y z h =>
    h.regs _ (by simp only [Reg.FILT_CH_LAST_FAST, Reg.FILT_CH_CFG]; omega) (by simp only [Reg.FILT_CH_LAST_FAST, Reg.FILT_CH_CFG]; omega)
  refine feedChain_one (Post := fun y => y.filt.chains[n].fastNew.isSome = true ∧ y.filt.chains[n].j2 = j2 ∧
    (rd y (Reg.FILT_CH_LAST_FAST n)).extractLsb' 16 16 = BitVec.ofInt 16 (satQ15 ((j2 - x.y1 - x.y2).toInt * 512))) hlive hclock
    (fun y z hy hz => ?_) fun y hy => ?_
  · rw [hz.chain, hlast y z hz]
    exact hy
  · have hsums := mainBit_fastSide (b := b) hy.chain
    have hj1 : (mainBit n b y).filt.chains[n].j1 = x.j1 := hsums.j1
    have hj2 : (mainBit n b y).filt.chains[n].j2 = x.j2 := hsums.j2
    have hy1 : (mainBit n b y).filt.chains[n].y1 = x.y1 := hsums.y1
    have hy2 : (mainBit n b y).filt.chains[n].y2 = x.y2 := hsums.y2
    obtain ⟨hsome, hvalue⟩ := fastBit_output (n := n) (b := b) (s := mainBit n b y)
      (hsums.fastRestart.trans hrestart)
      (hsums.fastPhase.trans hphase)
    have hfast := (fastBit_kept (n := n) (s := mainBit n b y) b).2.j2
    rw [hj1, hj2] at hfast hvalue
    rw [hy1, hy2] at hvalue
    exact ⟨hsome, hfast, hvalue⟩

/-- Settles O35, bit by bit: the sums of a chain's two streams are its own, and the outputs are their differences. -/
theorem decimation : Obligations.Decimation := by
  refine ⟨fun n bits s hlive hclock => ?_, fun n b s hrun hclock hpreset hmedian hcorner hphase =>
    ⟨_, rfl, mainOutput_effect hrun hclock hpreset hmedian hcorner hphase⟩, fun n b s hlive hclock hrestart hphase =>
    ⟨_, rfl, fastOutput_effect hlive hclock hrestart hphase⟩, fun n bits s hidle => ?_⟩
  · have htaken := feedChain_taken bits hlive hclock
    have hsums := htaken.sums
    rw [foldl_summedBit] at hsums
    exact ⟨_, rfl, rfl, congrArg Prod.fst hsums, congrArg Prod.snd hsums, htaken.count⟩
  · have hfeed : feedChain n bits s = s := if_pos hidle
    exact ⟨congrArg Host.Outcome.next hfeed, congrArg Host.Outcome.next hfeed⟩

end Sys2Proof.Proofs
end


section
/-! PROOFS. Writes of a chain's configuration (R160, R166, R168 to R171). -/

namespace Sys2Proof.Machine

open Sys2Proof Sys2Proof.Safety Sys2Proof.Laws

/-! ### The fields that a write takes -/

/-- head_delay and dcb_freeze, which a write takes at once. -/
def atOnce (n : Fin 24) (v : Word) (s : State) : State :=
  setF (setF s (Reg.FILT_CH_CFG n) F.FILT_CH_CFG_head_delay (getF v F.FILT_CH_CFG_head_delay)) (Reg.FILT_CH_CFG n)
    F.FILT_CH_CFG_dcb_freeze (getF v F.FILT_CH_CFG_dcb_freeze)

/-- The corner, or its refusal (R160). -/
def cornerTaken (n : Fin 24) (v : Word) (s : State) : State :=
  if 100 < getF v F.FILT_CH_CFG_dcb_corner then filtErr s
  else setF s (Reg.FILT_CH_CFG n) F.FILT_CH_CFG_dcb_corner (getF v F.FILT_CH_CFG_dcb_corner)

/-- Would this preset take a chain that feeds PHASOR tiles below its rate (R171)? -/
abbrev LowRate (n : Fin 24) (v : Word) (s : State) : Prop :=
  getF v F.FILT_CH_CFG_preset ≠ nextPreset s n ∧ toPhasor s n = true ∧
    rateTooLow (nextTicks s n) (presetD (getF v F.FILT_CH_CFG_preset)) = true

/-- The preset, or its refusal (R171). -/
def presetWritten (n : Fin 24) (v : Word) (s : State) : State :=
  if LowRate n v s then filtErr s else setF s (Reg.FILT_CH_CFG n) F.FILT_CH_CFG_preset (getF v F.FILT_CH_CFG_preset)

/-- The fields that the image may lock. -/
def fieldsTaken (n : Fin 24) (v : Word) (s : State) : State :=
  presetWritten n v (setF (cornerTaken n v s) (Reg.FILT_CH_CFG n) F.FILT_CH_CFG_median (getF v F.FILT_CH_CFG_median))

theorem writeFiltCfg_eq (n : Fin 24) (v : Word) (s : State) : writeFiltCfg n v s = showDelays n
    ((fun x => if lockedAt x (Reg.FILT_CH_CFG n) then x else settlePending n (fieldsTaken n v x)) (atOnce n v s)) := rfl

/-- What a write of a chain's configuration leaves alone until a change is settled. -/
structure CfgWritten (n : Fin 24) (s x : State) : Prop where
  state : rd x (Reg.FILT_CH_STATE n) = rd s (Reg.FILT_CH_STATE n)
  div : rd x Reg.CLK_MCLK_DIV = rd s Reg.CLK_MCLK_DIV
  fab : x.fab = s.fab
  chain : x.filt.chains[n] = s.filt.chains[n]
  reply : x.busReply = s.busReply

section CfgWritten

variable {n : Fin 24} {v : Word} {s x y : State}

theorem CfgWritten.trans (h : CfgWritten n s x) (h' : CfgWritten n x y) : CfgWritten n s y :=
  ⟨h'.state.trans h.state, h'.div.trans h.div, h'.fab.trans h.fab, h'.chain.trans h.chain, h'.reply.trans h.reply⟩

theorem FILT_CH_CFG_ne : Reg.FILT_CH_STATE n ≠ Reg.FILT_CH_CFG n ∧ Reg.CLK_MCLK_DIV ≠ Reg.FILT_CH_CFG n ∧
    Reg.FILT_STATUS ≠ Reg.FILT_CH_CFG n := by
  simp only [Reg.FILT_CH_STATE, Reg.FILT_CH_CFG, Reg.CLK_MCLK_DIV, Reg.FILT_STATUS]
  omega

theorem cfgWritten_setF (G : Fld) (k : Nat) : CfgWritten n s (setF s (Reg.FILT_CH_CFG n) G k) :=
  ⟨rd_setF_ne s _ _ FILT_CH_CFG_ne.1, rd_setF_ne s _ _ FILT_CH_CFG_ne.2.1, rfl, rfl, rfl⟩

theorem cfgWritten_filtErr : CfgWritten n s (filtErr s) :=
  ⟨rd_setF_ne s _ _ FILT_CH_STATE_ne_STATUS, rd_setF_ne s _ _ (by decide), rfl, rfl, rfl⟩

theorem CfgWritten.lowRate (h : CfgWritten n s x) (hp : nextPreset x n = nextPreset s n) : LowRate n v x ↔ LowRate n v s := by
  have hticks : nextTicks x n = nextTicks s n := by rw [nextTicks, nextTicks, h.div, fld_of_rd h.state]
  have hphasor : toPhasor x n = toPhasor s n := by rw [toPhasor, toPhasor, h.fab]
  rw [LowRate, LowRate, hp, hphasor, hticks]

/-! #### The fields of the configuration -/

theorem fld_filtErr (G : Fld) : fld (filtErr s) (Reg.FILT_CH_CFG n) G = fld s (Reg.FILT_CH_CFG n) G :=
  fld_setF_ne s _ _ _ FILT_CH_CFG_ne.2.2.symm

theorem cfgErr_filtErr : flg (filtErr s) Reg.FILT_STATUS F.FILT_STATUS_cfg_err = true := flg_setF s _ _ _ (by decide)

theorem cfgErr_setF (G : Fld) (k : Nat) : flg (setF s (Reg.FILT_CH_CFG n) G k) Reg.FILT_STATUS F.FILT_STATUS_cfg_err =
    flg s Reg.FILT_STATUS F.FILT_STATUS_cfg_err := flg_setF_ne s _ _ _ FILT_CH_CFG_ne.2.2

theorem fld_cfg_taken (G : Fld) (hG : G.lo + G.w ≤ 32) : fld (setF s (Reg.FILT_CH_CFG n) G (getF v G)) (Reg.FILT_CH_CFG n) G = getF v G :=
  (fld_setF s _ _ _ hG).trans (Nat.mod_eq_of_lt (getF_lt v G))

theorem cornerTaken_effect : CfgWritten n s (cornerTaken n v s) ∧
    (∀ G : Fld, G.lo + G.w ≤ F.FILT_CH_CFG_dcb_corner.lo ∨ F.FILT_CH_CFG_dcb_corner.lo + F.FILT_CH_CFG_dcb_corner.w ≤ G.lo →
      fld (cornerTaken n v s) (Reg.FILT_CH_CFG n) G = fld s (Reg.FILT_CH_CFG n) G) ∧
    (getF v F.FILT_CH_CFG_dcb_corner ≤ 100 →
      fld (cornerTaken n v s) (Reg.FILT_CH_CFG n) F.FILT_CH_CFG_dcb_corner = getF v F.FILT_CH_CFG_dcb_corner) ∧
    (100 < getF v F.FILT_CH_CFG_dcb_corner → flg (cornerTaken n v s) Reg.FILT_STATUS F.FILT_STATUS_cfg_err = true ∧
      fld (cornerTaken n v s) (Reg.FILT_CH_CFG n) F.FILT_CH_CFG_dcb_corner = fld s (Reg.FILT_CH_CFG n) F.FILT_CH_CFG_dcb_corner) := by
  unfold cornerTaken
  split
  next hhigh => exact ⟨cfgWritten_filtErr, fun G _ => fld_filtErr G, fun h => absurd hhigh (Nat.not_lt.2 h), fun _ => ⟨cfgErr_filtErr, fld_filtErr _⟩⟩
  next hlow =>
    exact ⟨cfgWritten_setF _ _, fun G hG => fld_setF_disj s _ _ _ _ hG, fun _ => fld_cfg_taken _ (by decide), fun h => absurd h hlow⟩

theorem presetWritten_effect : CfgWritten n s (presetWritten n v s) ∧
    (∀ G : Fld, F.FILT_CH_CFG_preset.lo + F.FILT_CH_CFG_preset.w ≤ G.lo →
      fld (presetWritten n v s) (Reg.FILT_CH_CFG n) G = fld s (Reg.FILT_CH_CFG n) G) ∧
    (flg s Reg.FILT_STATUS F.FILT_STATUS_cfg_err = true → flg (presetWritten n v s) Reg.FILT_STATUS F.FILT_STATUS_cfg_err = true) ∧
    (LowRate n v s → nextPreset (presetWritten n v s) n = nextPreset s n ∧
      flg (presetWritten n v s) Reg.FILT_STATUS F.FILT_STATUS_cfg_err = true) ∧
    (¬ LowRate n v s → nextPreset (presetWritten n v s) n = getF v F.FILT_CH_CFG_preset) := by
  unfold presetWritten
  split
  next hlow =>
    exact ⟨cfgWritten_filtErr, fun G _ => fld_filtErr G, fun _ => cfgErr_filtErr, fun _ => ⟨fld_filtErr _, cfgErr_filtErr⟩, fun h => absurd hlow h⟩
  next hok =>
    exact ⟨cfgWritten_setF _ _, fun G hG => fld_setF_disj s _ _ _ _ (.inr hG), fun h => (cfgErr_setF _ _).trans h, fun h => absurd h hok,
      fun _ => fld_cfg_taken _ (by decide)⟩

/-- What a write leaves of the fields that the image may lock, where it does not lock them. -/
structure FieldsTaken (n : Fin 24) (v : Word) (s x : State) : Prop where
  written : CfgWritten n s x
  delay : fld x (Reg.FILT_CH_CFG n) F.FILT_CH_CFG_head_delay = fld s (Reg.FILT_CH_CFG n) F.FILT_CH_CFG_head_delay
  freeze : fld x (Reg.FILT_CH_CFG n) F.FILT_CH_CFG_dcb_freeze = fld s (Reg.FILT_CH_CFG n) F.FILT_CH_CFG_dcb_freeze
  median : nextMedian x n = getF v F.FILT_CH_CFG_median
  low : LowRate n v s → nextPreset x n = nextPreset s n ∧ flg x Reg.FILT_STATUS F.FILT_STATUS_cfg_err = true
  preset : ¬ LowRate n v s → nextPreset x n = getF v F.FILT_CH_CFG_preset
  corner : getF v F.FILT_CH_CFG_dcb_corner ≤ 100 →
    fld x (Reg.FILT_CH_CFG n) F.FILT_CH_CFG_dcb_corner = getF v F.FILT_CH_CFG_dcb_corner
  refused : 100 < getF v F.FILT_CH_CFG_dcb_corner → flg x Reg.FILT_STATUS F.FILT_STATUS_cfg_err = true ∧
    fld x (Reg.FILT_CH_CFG n) F.FILT_CH_CFG_dcb_corner = fld s (Reg.FILT_CH_CFG n) F.FILT_CH_CFG_dcb_corner

theorem fieldsTaken_taken : FieldsTaken n v s (fieldsTaken n v s) := by
  obtain ⟨hw, hkeep, hcorner, hrefused⟩ := cornerTaken_effect (n := n) (v := v) (s := s)
  unfold fieldsTaken
  generalize cornerTaken n v s = y at hw hkeep hcorner hrefused
  have hset := cfgWritten_setF (n := n) (s := y) F.FILT_CH_CFG_median (getF v F.FILT_CH_CFG_median)
  have hmedian : fld (setF y (Reg.FILT_CH_CFG n) F.FILT_CH_CFG_median (getF v F.FILT_CH_CFG_median)) (Reg.FILT_CH_CFG n) F.FILT_CH_CFG_median =
    getF v F.FILT_CH_CFG_median := fld_cfg_taken _ (by decide)
  have hother : ∀ G : Fld, G.lo + G.w ≤ F.FILT_CH_CFG_median.lo ∨ F.FILT_CH_CFG_median.lo + F.FILT_CH_CFG_median.w ≤ G.lo →
      fld (setF y (Reg.FILT_CH_CFG n) F.FILT_CH_CFG_median (getF v F.FILT_CH_CFG_median)) (Reg.FILT_CH_CFG n) G =
        fld y (Reg.FILT_CH_CFG n) G := fun G hG => fld_setF_disj y _ _ _ _ hG
  have herr := cfgErr_setF (n := n) (s := y) F.FILT_CH_CFG_median (getF v F.FILT_CH_CFG_median)
  generalize setF y (Reg.FILT_CH_CFG n) F.FILT_CH_CFG_median (getF v F.FILT_CH_CFG_median) = z at hset hmedian hother herr
  obtain ⟨hw', hkeep', herr', hlow, hpreset⟩ := presetWritten_effect (n := n) (v := v) (s := z)
  have hp : nextPreset z n = nextPreset s n := (hother _ (by decide)).trans (hkeep _ (by decide))
  have hrate : LowRate n v z ↔ LowRate n v s := (hw.trans hset).lowRate hp
  rw [hrate] at hlow hpreset
  refine ⟨(hw.trans hset).trans hw', ?_, ?_, (hkeep' _ (by decide)).trans hmedian, fun h => ⟨(hlow h).1.trans hp, (hlow h).2⟩, hpreset, ?_, ?_⟩
  · exact (hkeep' _ (by decide)).trans ((hother _ (by decide)).trans (hkeep _ (by decide)))
  · exact (hkeep' _ (by decide)).trans ((hother _ (by decide)).trans (hkeep _ (by decide)))
  · exact fun h => (hkeep' _ (by decide)).trans ((hother _ (by decide)).trans (hcorner h))
  · exact fun h => ⟨herr' (herr.trans (hrefused h).1), (hkeep' _ (by decide)).trans ((hother _ (by decide)).trans (hrefused h).2)⟩

/-! ### The change that a write settles (R168, R169) -/

/-- What settling a change leaves alone, and the state that it gives a chain that runs. -/
structure Settled (n : Fin 24) (s x : State) : Prop where
  cfg : rd x (Reg.FILT_CH_CFG n) = rd s (Reg.FILT_CH_CFG n)
  status : rd x Reg.FILT_STATUS = rd s Reg.FILT_STATUS
  reply : x.busReply = s.busReply
  runs : chainState s n = chRunning ∨ chainState s n = chChanging →
    if nextPreset s n = actPreset s n ∧ nextMedian s n = actMedian s n
    then chainState x n = chRunning ∧ x.filt.chains[n].restart = none
    else chainState x n = chChanging ∧ x.filt.chains[n].restart = some 4

theorem rd_setChainState (n : Fin 24) (k : Nat) (s : State) {a : Nat} (h1 : a ≠ Reg.FILT_CH_STATE n) (h2 : a ≠ Reg.FILT_PENDING) :
    rd (setChainState n k s) a = rd s a := (rd_setFbit_ne _ _ _ _ h2).trans (rd_setF_ne s _ _ h1)

theorem settlePending_settled : Settled n s (settlePending n s) := by
  have hstep : ∀ (k : Nat) (z : ChainState), rd (setChainState n k (setChain n z s)) (Reg.FILT_CH_CFG n) = rd s (Reg.FILT_CH_CFG n) ∧
      rd (setChainState n k (setChain n z s)) Reg.FILT_STATUS = rd s Reg.FILT_STATUS := fun k z =>
    ⟨(rd_setChainState n k _ FILT_CH_CFG_ne.1.symm (by simp only [Reg.FILT_CH_CFG, Reg.FILT_PENDING]; omega)).trans (rd_setChain ..),
      (rd_setChainState n k _ FILT_CH_STATE_ne_STATUS.symm (by decide)).trans (rd_setChain ..)⟩
  unfold settlePending
  dsimp only
  split
  · split
    next hsame =>
      obtain ⟨hstate, -, -, -, hfilt⟩ := setChainState_fields n chRunning (setChain n { s.filt.chains[n] with restart := none } s) (by decide)
      refine ⟨(hstep _ _).1, (hstep _ _).2, rfl, fun _ => ?_⟩
      rw [if_pos hsame, hfilt, chains_setChain]
      exact ⟨hstate, rfl⟩
    next hdiff =>
      obtain ⟨hstate, -, -, -, hfilt⟩ := setChainState_fields n chChanging (setChain n { s.filt.chains[n] with restart := some 4 } s) (by decide)
      refine ⟨(hstep _ _).1, (hstep _ _).2, rfl, fun _ => ?_⟩
      rw [if_neg hdiff, hfilt, chains_setChain]
      exact ⟨hstate, rfl⟩
  next hrest => exact ⟨rfl, rfl, rfl, fun h => absurd h hrest⟩

end CfgWritten

/-- What showing the delays leaves alone. -/
theorem showDelays_kept (n : Fin 24) (s : State) : rd (showDelays n s) (Reg.FILT_CH_CFG n) = rd s (Reg.FILT_CH_CFG n) ∧
    rd (showDelays n s) Reg.FILT_STATUS = rd s Reg.FILT_STATUS ∧ (showDelays n s).busReply = s.busReply := by
  refine ⟨?_, ?_, rfl⟩
  · exact (rd_wr_ne _ _ (by simp only [Reg.FILT_CH_CFG, Reg.FILT_CH_FAST_DELAY]; omega)).trans
      (rd_wr_ne _ _ (by simp only [Reg.FILT_CH_CFG, Reg.FILT_CH_GDELAY]; omega))
  · exact (rd_wr_ne _ _ (by simp only [Reg.FILT_STATUS, Reg.FILT_CH_FAST_DELAY]; omega)).trans
      (rd_wr_ne _ _ (by simp only [Reg.FILT_STATUS, Reg.FILT_CH_GDELAY]; omega))

theorem atOnce_effect (n : Fin 24) (v : Word) (s : State) : CfgWritten n s (atOnce n v s) ∧
    fld (atOnce n v s) (Reg.FILT_CH_CFG n) F.FILT_CH_CFG_head_delay = getF v F.FILT_CH_CFG_head_delay ∧
    fld (atOnce n v s) (Reg.FILT_CH_CFG n) F.FILT_CH_CFG_dcb_freeze = getF v F.FILT_CH_CFG_dcb_freeze ∧
    (∀ G : Fld, G.lo + G.w ≤ 15 → fld (atOnce n v s) (Reg.FILT_CH_CFG n) G = fld s (Reg.FILT_CH_CFG n) G) := by
  refine ⟨(cfgWritten_setF _ _).trans (cfgWritten_setF _ _), ?_, fld_cfg_taken _ (by decide), fun G hG => ?_⟩
  · exact (fld_setF_disj _ _ _ _ _ (by decide)).trans (fld_cfg_taken _ (by decide))
  · exact (fld_setF_disj _ _ _ _ _ (.inl (by change G.lo + G.w ≤ 16; omega))).trans
      (fld_setF_disj _ _ _ _ _ (.inl (by change G.lo + G.w ≤ 24; omega)))

end Sys2Proof.Machine

namespace Sys2Proof.Proofs

open Sys2Proof Sys2Proof.Machine Sys2Proof.Safety Sys2Proof.Laws

/-- Settles O36, by the fields of a write one after the other and by the change that they settle. -/
theorem filterConfig : Obligations.FilterConfig := by
  intro m n v s hs p low
  have hrun : exec (.filtCfgWrite m n v) s = .next (writeFiltCfg n v (reply .done s)) :=
    congrArg Host.Outcome.next (regCommand_FILT_CH_CFG _ hs)
  obtain ⟨hw, hdelay, hfreeze, hkeep⟩ := atOnce_effect n v (reply .done s)
  rw [writeFiltCfg_eq] at hrun
  have hlocked : lockedAt (atOnce n v (reply .done s)) (Reg.FILT_CH_CFG n) = lockedAt s (Reg.FILT_CH_CFG n) := rfl
  dsimp only at hrun
  rw [hlocked] at hrun
  generalize atOnce n v (reply .done s) = x at hw hdelay hfreeze hkeep hrun
  have hreply : x.busReply = .done := hw.reply
  have hstate : rd x (Reg.FILT_CH_STATE n) = rd s (Reg.FILT_CH_STATE n) := hw.state
  have hpreset : nextPreset x n = nextPreset s n := hkeep _ (by decide)
  cases hlock : lockedAt s (Reg.FILT_CH_CFG n) with
  | true =>
    rw [hlock, if_pos rfl] at hrun
    obtain ⟨hcfg, hstatus, hrep⟩ := showDelays_kept n x
    refine ⟨_, hrun, hrep.trans hreply, (fld_of_rd hcfg _).trans hdelay, (fld_of_rd hcfg _).trans hfreeze,
      fun _ => ⟨(fld_of_rd hcfg _).trans hpreset, (fld_of_rd hcfg _).trans (hkeep _ (by decide)), (fld_of_rd hcfg _).trans (hkeep _ (by decide)),
        fld_of_rd ((rd_showDelays_state n x).trans hstate) _⟩, fun h => absurd h (by decide)⟩
  | false =>
    rw [hlock, if_neg Bool.false_ne_true] at hrun
    have ht := fieldsTaken_taken (n := n) (v := v) (s := x)
    have hlow : LowRate n v x ↔ low := hw.lowRate hpreset
    have htlow := ht.low
    have htpreset := ht.preset
    rw [hlow] at htlow htpreset
    have hset := settlePending_settled (n := n) (s := fieldsTaken n v x)
    have hact : actPreset (fieldsTaken n v x) n = actPreset s n := fld_of_rd (ht.written.state.trans hstate) _
    have hactm : actMedian (fieldsTaken n v x) n = actMedian s n := fld_of_rd (ht.written.state.trans hstate) _
    have hst : chainState (fieldsTaken n v x) n = chainState s n := fld_of_rd (ht.written.state.trans hstate) _
    have hruns := hset.runs
    rw [hact, hactm, hst] at hruns
    obtain ⟨hcfg, hstatus, hrep⟩ := showDelays_kept n (settlePending n (fieldsTaken n v x))
    have hcfg' := hcfg.trans hset.cfg
    have hstatus' := hstatus.trans hset.status
    refine ⟨_, hrun, hrep.trans (hset.reply.trans (ht.written.reply.trans hreply)), ?_, ?_, fun h => absurd h (by decide),
      fun _ => ⟨(fld_of_rd hcfg' _).trans ht.median, fun h => ⟨?_, (flg_of_rd hstatus' _).trans (htlow h).2⟩, fun h => (fld_of_rd hcfg' _).trans (htpreset h),
        fun h => (fld_of_rd hcfg' _).trans (ht.corner h), fun h => ⟨(flg_of_rd hstatus' _).trans (ht.refused h).1, ?_⟩, fun h => ?_⟩⟩
    · exact (fld_of_rd hcfg' _).trans (ht.delay.trans hdelay)
    · exact (fld_of_rd hcfg' _).trans (ht.freeze.trans hfreeze)
    · exact (fld_of_rd hcfg' _).trans ((htlow h).1.trans hpreset)
    · exact (fld_of_rd hcfg' _).trans ((ht.refused h).2.trans (hkeep _ (by decide)))
    · have hnext : nextPreset (showDelays n (settlePending n (fieldsTaken n v x))) n = nextPreset (fieldsTaken n v x) n := fld_of_rd hcfg' _
      have hnextm : nextMedian (showDelays n (settlePending n (fieldsTaken n v x))) n = nextMedian (fieldsTaken n v x) n := fld_of_rd hcfg' _
      have hshown : chainState (showDelays n (settlePending n (fieldsTaken n v x))) n = chainState (settlePending n (fieldsTaken n v x)) n :=
        fld_of_rd (rd_showDelays_state n _) _
      rw [hnext, hnextm, hshown, filt_showDelays]
      exact hruns h

end Sys2Proof.Proofs
end


section
/-! PROOFS. Blocks of the gates (R135, R210, R211). -/

namespace Sys2Proof.Machine

open Sys2Proof Sys2Proof.Safety Sys2Proof.Laws

/-- Two runs of events, the second begun in the state the first ended in. -/
theorem logged_append {es fs : List (Nat × Nat × Word)} {s x t : State} (h : Logged es s x) (h' : Logged fs x t)
    (htai : t.tai = x.tai) : Logged (es ++ fs) s t := by
  have hnow : now x = now t := by rw [now, now, htai]
  rw [Logged, h', h, hnow]
  simp

/-! ### Pairs off -/

/-- Both switches of a pair are off. -/
def PairQuiet (p : Fin 12) (s : State) : Prop := s.loop.pairs[p].high = false ∧ s.loop.pairs[p].low = false

theorem pairQuiet_of_loop {p : Fin 12} {s x : State} (h : x.loop.pairs = s.loop.pairs) (hq : PairQuiet p s) : PairQuiet p x := by
  unfold PairQuiet
  rw [h]
  exact hq

theorem pairs_pairOff (p q : Fin 12) (s : State) :
    (pairOff p s).loop.pairs[q] = if q = p then { s.loop.pairs[p] with
      high := false, low := false, pendingOn := none, deferred := none, offAt := some s.ticks } else s.loop.pairs[q] := by
  by_cases h : q = p
  · subst h
    simp [pairOff, setPair]
  · rw [if_neg h]
    exact Vector.getElem_set_ne p.isLt q.isLt fun hv => h (Fin.ext hv.symm)

theorem pairQuiet_pairOff_same (p : Fin 12) (s : State) : PairQuiet p (pairOff p s) := by
  rw [PairQuiet, pairs_pairOff, if_pos rfl]
  exact ⟨rfl, rfl⟩

theorem pairQuiet_pairOff {p : Fin 12} (q : Fin 12) {s : State} (h : PairQuiet p s) : PairQuiet p (pairOff q s) := by
  rw [PairQuiet, pairs_pairOff]
  split
  · exact ⟨rfl, rfl⟩
  · exact h

theorem pairsOf_nodup (s : State) (st : Fin 4) : (pairsOf s st).Nodup := (List.nodup_finRange 12).filter _

theorem pairsOf_congr {s x : State} (h : ∀ p : Fin 12, rd x (Reg.PWM_PAIR_CFG p) = rd s (Reg.PWM_PAIR_CFG p)) (st : Fin 4) :
    pairsOf x st = pairsOf s st := by
  unfold pairsOf
  refine List.filter_congr fun p _ => ?_
  rw [pairStage, pairStage, pairMode, pairMode, fld_of_rd (h p), fld_of_rd (h p)]

theorem pairQuiet_stageGatesOff {p : Fin 12} (st : Fin 4) {s : State} (h : PairQuiet p s) : PairQuiet p (stageGatesOff st s) :=
  forEach_keeps (P := PairQuiet p) (fun q _ _ hy => pairQuiet_pairOff q hy) h

theorem pairQuiet_stageGatesOff_of {p : Fin 12} {st : Fin 4} {s : State} (h : p ∈ pairsOf s st) : PairQuiet p (stageGatesOff st s) :=
  forEach_once (Pre := fun _ => True) (Post := PairQuiet p) (pairsOf_nodup s st) h (fun _ _ _ _ _ => trivial)
    (fun q _ _ _ hy => pairQuiet_pairOff q hy) (fun y _ => pairQuiet_pairOff_same p y) trivial

/-! ### What a block leaves alone -/

/-- What a block of the gates leaves alone: the log, the counter, the reply, the fault inputs and all but one register. -/
structure BlockSame (s y : State) : Prop where
  log : y.log = s.log
  tai : y.tai = s.tai
  busReply : y.busReply = s.busReply
  gdf : y.loop.gdf = s.loop.gdf
  regs : ∀ a, a ≠ Reg.PWM_BLOCK_STATUS → rd y a = rd s a

theorem BlockSame.refl (s : State) : BlockSame s s := ⟨rfl, rfl, rfl, rfl, fun _ _ => rfl⟩

theorem BlockSame.trans {s x y : State} (h : BlockSame s x) (h' : BlockSame x y) : BlockSame s y :=
  ⟨h'.log.trans h.log, h'.tai.trans h.tai, h'.busReply.trans h.busReply, h'.gdf.trans h.gdf,
    fun a ha => (h'.regs a ha).trans (h.regs a ha)⟩

/-- The latched bits alone count in what blocks. -/
theorem blockSame_stageGatesOff (st : Fin 4) (s : State) : BlockSame s (stageGatesOff st s) ∧ (stageGatesOff st s).regs = s.regs :=
  forEach_keeps (g := pairOff) (P := fun y => BlockSame s y ∧ y.regs = s.regs)
    (fun _ _ _ hy => ⟨hy.1.trans ⟨rfl, rfl, rfl, rfl, fun _ _ => rfl⟩, hy.2⟩) ⟨.refl s, rfl⟩

theorem blockSame_recTrigNow (src : Fin 11) (s : State) : BlockSame s (recTrigNow src s) ∧
    (recTrigNow src s).loop = s.loop ∧ (recTrigNow src s).regs = s.regs := by
  unfold recTrigNow recTrig
  split <;> exact ⟨⟨rfl, rfl, rfl, rfl, fun _ _ => rfl⟩, rfl, rfl⟩

theorem blockSame_setStage (st : Fin 4) (x : StageState) (s : State) : BlockSame s (setStage st x s) := ⟨rfl, rfl, rfl, rfl, fun _ _ => rfl⟩

/-- The latching of a stage, before its gates go off. -/
def stageLatched (code : Nat) (st : Fin 4) (s : State) : State :=
  let s := whenS (!latchedBlocked s st) (recTrigNow srcBlock) s
  let s := setFbit s Reg.PWM_BLOCK_STATUS F.PWM_BLOCK_STATUS_latched st true
  setStage st { s.loop.stages[st] with whyCode := putBit s.loop.stages[st].whyCode code true, freed := false } s

theorem blockStage_eq (code : Nat) (st : Fin 4) (s : State) : blockStage code st s = stageGatesOff st (stageLatched code st s) := rfl

theorem stageLatched_effect (code : Nat) (st : Fin 4) (s : State) : BlockSame s (stageLatched code st s) ∧
    (stageLatched code st s).loop.pairs = s.loop.pairs ∧
    ∀ k : Fin 4, latchedBlocked (stageLatched code st s) k = if k.val = st.val then true else latchedBlocked s k := by
  have htrig : BlockSame s (whenS (!latchedBlocked s st) (recTrigNow srcBlock) s) ∧
      (whenS (!latchedBlocked s st) (recTrigNow srcBlock) s).loop = s.loop ∧
      (whenS (!latchedBlocked s st) (recTrigNow srcBlock) s).regs = s.regs := by
    unfold whenS
    split
    · exact blockSame_recTrigNow _ s
    · exact ⟨.refl s, rfl, rfl⟩
  unfold stageLatched
  generalize whenS (!latchedBlocked s st) (recTrigNow srcBlock) s = y at htrig ⊢
  obtain ⟨hsame, hloop, hregs⟩ := htrig
  have hset : BlockSame y (setFbit y Reg.PWM_BLOCK_STATUS F.PWM_BLOCK_STATUS_latched st true) :=
    ⟨rfl, rfl, rfl, rfl, fun a ha => rd_setFbit_ne _ _ _ _ ha⟩
  have hpairs : y.loop.pairs = s.loop.pairs := by rw [hloop]
  refine ⟨(hsame.trans hset).trans (blockSame_setStage _ _ _), hpairs, fun k => ?_⟩
  have hbit := fbit_setFbit y Reg.PWM_BLOCK_STATUS F.PWM_BLOCK_STATUS_latched st k true (by decide) k.isLt
  have hrd : rd y Reg.PWM_BLOCK_STATUS = rd s Reg.PWM_BLOCK_STATUS := by rw [rd, rd, hregs]
  rw [fbit_of_rd hrd] at hbit
  exact hbit

theorem blockSame_blockStage (code : Nat) (st : Fin 4) (s : State) : BlockSame s (blockStage code st s) :=
  (stageLatched_effect code st s).1.trans (blockSame_stageGatesOff st _).1

theorem latched_blockStage (code : Nat) (st k : Fin 4) (s : State) :
    latchedBlocked (blockStage code st s) k = if k.val = st.val then true else latchedBlocked s k := by
  rw [← (stageLatched_effect code st s).2.2 k, blockStage_eq, latchedBlocked, latchedBlocked, fbit, fbit,
    fld_of_regs (blockSame_stageGatesOff st _).2]

/-- The stages' pairs hang on registers that no block writes. -/
theorem BlockSame.pairsOf {s y : State} (h : BlockSame s y) (st : Fin 4) : pairsOf y st = pairsOf s st :=
  pairsOf_congr (fun p => h.regs _ (by simp only [Reg.PWM_PAIR_CFG, Reg.PWM_BLOCK_STATUS]; omega)) st

/-- A stage is blocked: latched, and both switches of each of its pairs off. -/
def StageBlocked (st : Fin 4) (s : State) : Prop := latchedBlocked s st = true ∧ ∀ p ∈ Machine.pairsOf s st, PairQuiet p s

theorem stageBlocked_blockStage_same (code : Nat) (st : Fin 4) (s : State) : StageBlocked st (blockStage code st s) := by
  refine ⟨by rw [latched_blockStage, if_pos rfl], fun p hp => ?_⟩
  rw [(blockSame_blockStage code st s).pairsOf, ← (stageLatched_effect code st s).1.pairsOf] at hp
  exact pairQuiet_stageGatesOff_of hp

theorem stageBlocked_blockStage {st : Fin 4} (code : Nat) (k : Fin 4) {s : State} (h : StageBlocked st s) :
    StageBlocked st (blockStage code k s) := by
  obtain ⟨hlatched, hquiet⟩ := h
  refine ⟨?_, fun p hp => ?_⟩
  · rw [latched_blockStage, hlatched]
    exact ite_self _
  · rw [(blockSame_blockStage code k s).pairsOf] at hp
    exact pairQuiet_stageGatesOff k (pairQuiet_of_loop (stageLatched_effect code k s).2.1 (hquiet p hp))

/-- The stages of a mask are blocked, and the pairs they had before are off. -/
def MaskBlocked (mask : Nat) (s t : State) : Prop :=
  ∀ st : Fin 4, mask.testBit st = true → latchedBlocked t st = true ∧ ∀ p ∈ Machine.pairsOf s st, PairQuiet p t

theorem maskBlocked_of_regs {mask : Nat} {s t : State} (h : ∀ st : Fin 4, mask.testBit st = true → StageBlocked st t)
    (hregs : ∀ p : Fin 12, rd t (Reg.PWM_PAIR_CFG p) = rd s (Reg.PWM_PAIR_CFG p)) : MaskBlocked mask s t := fun st hst => by
  obtain ⟨hlatched, hquiet⟩ := h st hst
  rw [pairsOf_congr hregs] at hquiet
  exact ⟨hlatched, hquiet⟩

theorem PWM_PAIR_CFG_high (p : Fin 12) : 0x40140100 ≤ Reg.PWM_PAIR_CFG p := by
  simp only [Reg.PWM_PAIR_CFG]
  omega

/-! ### The block of a mask -/

/-- The stages of a mask blocked, before the block is shown and logged. -/
def maskBlocked (code mask : Nat) (s : State) : State :=
  forEach (List.finRange 4) (fun (st : Fin 4) s => if mask.testBit st then blockStage code st s else s) s

theorem blockStages_eq (code mask : Nat) (s : State) : blockStages code mask s =
    if mask % 16 = 0 then s else logN 0x4021 code (mask % 16) (showGates (showPairOff (maskBlocked code mask s))) := rfl

theorem blockSame_maskBlocked (code mask : Nat) (s : State) : BlockSame s (maskBlocked code mask s) := by
  refine forEach_keeps (P := BlockSame s) (fun st _ y hy => ?_) (.refl s)
  split
  · exact hy.trans (blockSame_blockStage _ _ _)
  · exact hy

theorem stageBlocked_maskBlocked (code : Nat) {mask : Nat} {st : Fin 4} (h : mask.testBit st = true) (s : State) :
    StageBlocked st (maskBlocked code mask s) := by
  refine forEach_once (Pre := fun _ => True) (Post := StageBlocked st) (List.nodup_finRange 4) (List.mem_finRange st)
    (fun _ _ _ _ _ => trivial) (fun k _ _ y hy => ?_) (fun y _ => ?_) trivial
  · split
    · exact stageBlocked_blockStage code k hy
    · exact hy
  · rw [if_pos h]
    exact stageBlocked_blockStage_same code st y

theorem rd_showGates (s : State) {a : Nat} (h : a ≠ Reg.PWM_STATUS) : rd (showGates s) a = rd s a := by
  unfold showGates
  rw [rd_setF_ne _ _ _ h, rd_setF_ne _ _ _ h, rd_setF_ne _ _ _ h]

theorem latched_showPairOff (s : State) (k : Nat) : latchedBlocked (showPairOff s) k = latchedBlocked s k :=
  congrArg (fun n => n.testBit k) (fld_setF_disj s _ _ _ _ (by decide))

theorem latched_showGates (s : State) (k : Nat) : latchedBlocked (showGates s) k = latchedBlocked s k :=
  fbit_of_rd (rd_showGates s (by decide)) _ _

/-- What a block of a mask does: its stages are blocked, one event tells the source and the mask, and all else is as it was but
for the unit's own status. -/
structure Blocks (code mask : Nat) (s t : State) : Prop where
  stages : ∀ st : Fin 4, mask.testBit st = true → StageBlocked st t
  logged : Logged (if mask % 16 = 0 then [] else [(0x4021, code, BitVec.ofNat 32 (mask % 16))]) s t
  tai : t.tai = s.tai
  busReply : t.busReply = s.busReply
  gdf : t.loop.gdf = s.loop.gdf
  regs : ∀ a, a ≠ Reg.PWM_BLOCK_STATUS → a ≠ Reg.PWM_STATUS → rd t a = rd s a

theorem blocks_shown {mask : Nat} {s y : State} (code : Nat) (hsame : BlockSame s y)
    (hst : ∀ st : Fin 4, mask.testBit st = true → StageBlocked st y) (hroom : Room 1 s) (hmask : mask % 16 ≠ 0) :
    Blocks code mask s (logN 0x4021 code (mask % 16) (showGates (showPairOff y))) := by
  have hlog : (showGates (showPairOff y)).log = s.log := hsame.log
  have hlogged := logged_logN 0x4021 code (mask % 16) hlog hroom
  have hrd := rd_logN_room 0x4021 code (mask % 16) hlog hroom
  have hregs : ∀ a, a ≠ Reg.PWM_BLOCK_STATUS → a ≠ Reg.PWM_STATUS →
      rd (logN 0x4021 code (mask % 16) (showGates (showPairOff y))) a = rd y a := fun a h1 h2 => by
    rw [hrd, rd_showGates _ h2, showPairOff, rd_setF_ne _ _ _ h1]
  refine ⟨fun st h => ⟨?_, fun p hp => ?_⟩, by rw [if_neg hmask]; exact hlogged, ?_, ?_, ?_, fun a h1 h2 => (hregs a h1 h2).trans (hsame.regs a h1)⟩
  · rw [latchedBlocked, fbit_of_rd (hrd _)]
    exact (latched_showGates _ _).trans ((latched_showPairOff y st).trans (hst st h).1)
  · rw [pairsOf_congr (s := y) fun p => hregs _ (by simp only [Reg.PWM_PAIR_CFG, Reg.PWM_BLOCK_STATUS]; omega)
      (by simp only [Reg.PWM_PAIR_CFG, Reg.PWM_STATUS]; omega)] at hp
    refine pairQuiet_of_loop ?_ ((hst st h).2 p hp)
    exact congrArg LoopState.pairs (logEvent_loop ..)
  · exact (logEvent_tai ..).trans hsame.tai
  · exact (logEvent_busReply ..).trans hsame.busReply
  · exact (congrArg LoopState.gdf (logEvent_loop ..)).trans hsame.gdf

theorem blocks_blockStages (code mask : Nat) {s : State} (hroom : Room 1 s) : Blocks code mask s (blockStages code mask s) := by
  rw [blockStages_eq]
  by_cases hmask : mask % 16 = 0
  · rw [if_pos hmask]
    refine ⟨fun st h => absurd h ?_, by rw [if_pos hmask]; exact logged_nil rfl, rfl, rfl, rfl, fun _ _ _ => rfl⟩
    have hbit : (mask % 2 ^ 4).testBit st = false := by rw [show mask % 2 ^ 4 = 0 from hmask]; exact Nat.zero_testBit _
    rw [Nat.testBit_mod_two_pow, decide_eq_true st.isLt, Bool.true_and] at hbit
    simp [hbit]
  · rw [if_neg hmask]
    exact blocks_shown code (blockSame_maskBlocked code mask s) (fun st h => stageBlocked_maskBlocked code h s) hroom hmask

theorem blockSame_noteWhy (f : StageState → StageState) (mask : Nat) (s : State) :
    BlockSame s (noteWhy f mask s) ∧ (noteWhy f mask s).regs = s.regs := by
  refine forEach_keeps (P := fun y => BlockSame s y ∧ y.regs = s.regs) (fun st _ y hy => ?_) ⟨.refl s, rfl⟩
  split
  · exact ⟨hy.1.trans (blockSame_setStage _ _ _), hy.2⟩
  · exact hy

/-! ### Comparators and fault inputs -/

/-- The first latching of a source is logged. -/
theorem logged_whenS {b : Bool} {s x : State} (c q e : Nat) (hlog : x.log = s.log) (h : Room 1 s) :
    Logged (if b then [] else [(c, q, BitVec.ofNat 32 e)]) s (whenS (!b) (logN c q e) x) := by
  cases b
  · exact logged_logN c q e hlog h
  · exact logged_nil hlog

theorem room_of_logged {b : Bool} {e : Nat × Nat × Word} {s x : State} (h : Logged (if b then [] else [e]) s x) (hroom : Room 2 s) :
    Room 1 x := by
  unfold Room at hroom ⊢
  rw [h]
  cases b <;> simp <;> omega

theorem rd_whenS_logN {s x : State} (b : Bool) (c q e : Nat) (hlog : x.log = s.log) (h : Room 1 s) (a : Nat) :
    rd (whenS b (logN c q e) x) a = rd x a := by
  cases b
  · rfl
  · exact rd_logN_room c q e hlog h a

theorem latchHard_effect (n : Fin 16) {s : State} (hroom : Room 1 s) :
    fbit (latchHard n s) Reg.ADC_CMP_STATUS F.ADC_CMP_STATUS_hard_live n = true ∧
    fbit (latchHard n s) Reg.ADC_CMP_STATUS F.ADC_CMP_STATUS_hard_latched n = true ∧
    Logged (if fbit s Reg.ADC_CMP_STATUS F.ADC_CMP_STATUS_hard_latched n then [] else [(0x3005, n.val, 0)]) s (latchHard n s) ∧
    ∀ a, a ≠ Reg.ADC_CMP_STATUS → rd (latchHard n s) a = rd s a := by
  unfold latchHard
  dsimp only
  have hcfg : ∀ a, a ≠ Reg.ADC_CMP_STATUS → rd (setFbit s Reg.ADC_CMP_STATUS F.ADC_CMP_STATUS_hard_live n true) a = rd s a :=
    fun a ha => rd_setFbit_ne _ _ _ _ ha
  have hlive := fbit_setFbit s Reg.ADC_CMP_STATUS F.ADC_CMP_STATUS_hard_live n n true (by decide) n.isLt
  have hlog : (setFbit s Reg.ADC_CMP_STATUS F.ADC_CMP_STATUS_hard_live n true).log = s.log := rfl
  rw [if_pos rfl] at hlive
  generalize setFbit s Reg.ADC_CMP_STATUS F.ADC_CMP_STATUS_hard_live n true = y at hlive hlog hcfg ⊢
  have hlatched := fbit_setFbit y Reg.ADC_CMP_STATUS F.ADC_CMP_STATUS_hard_latched n n true (by decide) n.isLt
  have hlive' := fbit_setFbit_disj y Reg.ADC_CMP_STATUS F.ADC_CMP_STATUS_hard_latched F.ADC_CMP_STATUS_hard_live n n true (by decide)
  rw [if_pos rfl] at hlatched
  have hlog' : (setFbit y Reg.ADC_CMP_STATUS F.ADC_CMP_STATUS_hard_latched n true).log = s.log := hlog
  have hcfg' : ∀ a, a ≠ Reg.ADC_CMP_STATUS → rd (setFbit y Reg.ADC_CMP_STATUS F.ADC_CMP_STATUS_hard_latched n true) a = rd s a :=
    fun a ha => (rd_setFbit_ne _ _ _ _ ha).trans (hcfg a ha)
  generalize setFbit y Reg.ADC_CMP_STATUS F.ADC_CMP_STATUS_hard_latched n true = z at hlatched hlive' hlog' hcfg' ⊢
  have hrd := rd_whenS_logN (!fbit s Reg.ADC_CMP_STATUS F.ADC_CMP_STATUS_hard_latched n) 0x3005 n 0 hlog' hroom
  refine ⟨?_, ?_, logged_whenS 0x3005 n 0 hlog' hroom, fun a ha => (hrd a).trans (hcfg' a ha)⟩
  · rw [fbit_of_rd (hrd _), hlive', hlive]
  · rw [fbit_of_rd (hrd _), hlatched]

/-- A fault input becomes active and latches. -/
def latchGdf (n : Fin 6) (s : State) : State :=
  let was := fbit s Reg.PWM_GDF_STATUS F.PWM_GDF_STATUS_latched n
  let s := { s with loop := { s.loop with gdf := s.loop.gdf.set n true } }
  let s := setFbit s Reg.PWM_GDF_STATUS F.PWM_GDF_STATUS_live n true
  let s := setFbit s Reg.PWM_GDF_STATUS F.PWM_GDF_STATUS_latched n true
  whenS (!was) (logN 0x4024 n (fld s (Reg.PWM_GDF_MAP n) F.PWM_GDF_MAP_stages)) s

theorem PWM_GDF_MAP_ne (n : Fin 6) : Reg.PWM_GDF_MAP n ≠ Reg.PWM_GDF_STATUS := by
  simp only [Reg.PWM_GDF_MAP, Reg.PWM_GDF_STATUS]
  omega

theorem execGdfActive_effective {n : Fin 6} {s : State} (hen : fbit s Reg.PWM_GDF_CFG F.PWM_GDF_CFG_en n = true) (hgdf : s.loop.gdf[n] = false) :
    execGdfActive n s = .next (blockStages 2 (fld s (Reg.PWM_GDF_MAP n) F.PWM_GDF_MAP_stages)
      (noteWhy (fun x => { x with whyGdf := putBit x.whyGdf n true }) (fld s (Reg.PWM_GDF_MAP n) F.PWM_GDF_MAP_stages) (latchGdf n s))) := by
  have hmap : fld (setFbit (setFbit { s with loop := { s.loop with gdf := s.loop.gdf.set n true } } Reg.PWM_GDF_STATUS
      F.PWM_GDF_STATUS_live n true) Reg.PWM_GDF_STATUS F.PWM_GDF_STATUS_latched n true) (Reg.PWM_GDF_MAP n) F.PWM_GDF_MAP_stages =
      fld s (Reg.PWM_GDF_MAP n) F.PWM_GDF_MAP_stages := by
    rw [fld_setFbit_ne _ _ _ _ _ (PWM_GDF_MAP_ne n), fld_setFbit_ne _ _ _ _ _ (PWM_GDF_MAP_ne n)]
    rfl
  unfold execGdfActive latchGdf
  rw [if_pos ⟨hen, by rw [hgdf]; rfl⟩]
  dsimp only
  rw [hmap]

theorem latchGdf_effect (n : Fin 6) {s : State} (hroom : Room 1 s) :
    (latchGdf n s).loop.gdf[n] = true ∧
    fbit (latchGdf n s) Reg.PWM_GDF_STATUS F.PWM_GDF_STATUS_live n = true ∧
    fbit (latchGdf n s) Reg.PWM_GDF_STATUS F.PWM_GDF_STATUS_latched n = true ∧
    Logged (if fbit s Reg.PWM_GDF_STATUS F.PWM_GDF_STATUS_latched n then []
      else [(0x4024, n.val, BitVec.ofNat 32 (fld s (Reg.PWM_GDF_MAP n) F.PWM_GDF_MAP_stages))]) s (latchGdf n s) ∧
    ∀ a, a ≠ Reg.PWM_GDF_STATUS → rd (latchGdf n s) a = rd s a := by
  unfold latchGdf
  dsimp only
  have hgdf : ({ s with loop := { s.loop with gdf := s.loop.gdf.set n true } } : State).loop.gdf[n] = true := by simp
  have hmap : fld { s with loop := { s.loop with gdf := s.loop.gdf.set n true } } (Reg.PWM_GDF_MAP n) F.PWM_GDF_MAP_stages =
    fld s (Reg.PWM_GDF_MAP n) F.PWM_GDF_MAP_stages := rfl
  have hlog : ({ s with loop := { s.loop with gdf := s.loop.gdf.set n true } } : State).log = s.log := rfl
  have hcfg : ∀ a, a ≠ Reg.PWM_GDF_STATUS → rd { s with loop := { s.loop with gdf := s.loop.gdf.set n true } } a = rd s a :=
    fun _ _ => rfl
  generalize ({ s with loop := { s.loop with gdf := s.loop.gdf.set n true } } : State) = x at hgdf hmap hlog hcfg ⊢
  have hlive := fbit_setFbit x Reg.PWM_GDF_STATUS F.PWM_GDF_STATUS_live n n true (by decide) n.isLt
  rw [if_pos rfl] at hlive
  have hgdf' : (setFbit x Reg.PWM_GDF_STATUS F.PWM_GDF_STATUS_live n true).loop.gdf[n] = true := hgdf
  have hmap' := fld_setFbit_ne x F.PWM_GDF_STATUS_live F.PWM_GDF_MAP_stages n true (PWM_GDF_MAP_ne n)
  rw [hmap] at hmap'
  have hlog' : (setFbit x Reg.PWM_GDF_STATUS F.PWM_GDF_STATUS_live n true).log = s.log := hlog
  have hcfg' : ∀ a, a ≠ Reg.PWM_GDF_STATUS → rd (setFbit x Reg.PWM_GDF_STATUS F.PWM_GDF_STATUS_live n true) a = rd s a :=
    fun a ha => (rd_setFbit_ne _ _ _ _ ha).trans (hcfg a ha)
  generalize setFbit x Reg.PWM_GDF_STATUS F.PWM_GDF_STATUS_live n true = y at hlive hgdf' hmap' hlog' hcfg' ⊢
  have hlatched := fbit_setFbit y Reg.PWM_GDF_STATUS F.PWM_GDF_STATUS_latched n n true (by decide) n.isLt
  rw [if_pos rfl] at hlatched
  have hlive' := fbit_setFbit_disj y Reg.PWM_GDF_STATUS F.PWM_GDF_STATUS_latched F.PWM_GDF_STATUS_live n n true (by decide)
  have hgdf'' : (setFbit y Reg.PWM_GDF_STATUS F.PWM_GDF_STATUS_latched n true).loop.gdf[n] = true := hgdf'
  have hmap'' := fld_setFbit_ne y F.PWM_GDF_STATUS_latched F.PWM_GDF_MAP_stages n true (PWM_GDF_MAP_ne n)
  rw [hmap'] at hmap''
  have hlog'' : (setFbit y Reg.PWM_GDF_STATUS F.PWM_GDF_STATUS_latched n true).log = s.log := hlog'
  have hcfg'' : ∀ a, a ≠ Reg.PWM_GDF_STATUS → rd (setFbit y Reg.PWM_GDF_STATUS F.PWM_GDF_STATUS_latched n true) a = rd s a :=
    fun a ha => (rd_setFbit_ne _ _ _ _ ha).trans (hcfg' a ha)
  generalize setFbit y Reg.PWM_GDF_STATUS F.PWM_GDF_STATUS_latched n true = z at hlatched hlive' hgdf'' hmap'' hlog'' hcfg'' ⊢
  rw [hmap'']
  have hrd := rd_whenS_logN (!fbit s Reg.PWM_GDF_STATUS F.PWM_GDF_STATUS_latched n) 0x4024 n
    (fld s (Reg.PWM_GDF_MAP n) F.PWM_GDF_MAP_stages) hlog'' hroom
  refine ⟨?_, ?_, ?_, logged_whenS 0x4024 n _ hlog'' hroom, fun a ha => (hrd a).trans (hcfg'' a ha)⟩
  · unfold whenS
    split
    · exact (congrArg (fun l : LoopState => l.gdf[n]) (logEvent_loop ..)).trans hgdf''
    · exact hgdf''
  · rw [fbit_of_rd (hrd _), hlive', hlive]
  · rw [fbit_of_rd (hrd _), hlatched]

/-- A firing comparator takes GDEN away (R213). -/
theorem gdenActive_of_hardLive {s : State} {n : Fin 16} (h : fbit s Reg.ADC_CMP_STATUS F.ADC_CMP_STATUS_hard_live n = true) :
    gdenActive s = false := by
  have hne : fld s Reg.ADC_CMP_STATUS F.ADC_CMP_STATUS_hard_live ≠ 0 := fun h0 => by
    rw [fbit, h0, Nat.zero_testBit] at h
    exact Bool.false_ne_true h
  simp [gdenActive, killsGden, hne]

/-- The stages of a mask blocked by a source that was noted first. -/
theorem blocks_noted {code mask : Nat} (f : StageState → StageState) {s : State} (hroom : Room 1 s) :
    Blocks code mask s (blockStages code mask (noteWhy f mask s)) := by
  obtain ⟨hsame, -⟩ := blockSame_noteWhy f mask s
  have hroom' : Room 1 (noteWhy f mask s) := by
    unfold Room
    rw [hsame.log]
    exact hroom
  obtain ⟨hst, hlog, htai, hreply, hgdf, hregs⟩ := blocks_blockStages code mask hroom'
  have hlogged := logged_append (logged_nil hsame.log) hlog htai
  rw [List.nil_append] at hlogged
  exact ⟨hst, hlogged, htai.trans hsame.tai, hreply.trans hsame.busReply, hgdf.trans hsame.gdf,
    fun a h1 h2 => (hregs a h1 h2).trans (hsame.regs a h1)⟩

/-! ### A block that is written -/

theorem writeGateCtrl_block {v : Word} {s : State} (hrel : getF v F.PWM_GATE_CTRL_release = 0) : writeGateCtrl v s =
    showGates (blockStages 5 (getF v F.PWM_GATE_CTRL_block) (setF s Reg.PWM_GATE_CTRL F.PWM_GATE_CTRL_gden_en (getF v F.PWM_GATE_CTRL_gden_en))) := by
  unfold writeGateCtrl
  dsimp only
  rw [hrel]
  simp only [Nat.zero_testBit, Bool.false_eq_true, if_false]
  rw [forEach_same fun _ _ => rfl]

theorem stageBlocked_showGates {st : Fin 4} {s : State} (h : StageBlocked st s) : StageBlocked st (showGates s) := by
  obtain ⟨hlatched, hquiet⟩ := h
  refine ⟨(latched_showGates s st).trans hlatched, fun p hp => ?_⟩
  rw [pairsOf_congr (s := s) fun p => rd_showGates s (by simp only [Reg.PWM_PAIR_CFG, Reg.PWM_STATUS]; omega)] at hp
  exact hquiet p hp

/-- A write of the block field alone: its stages blocked, one event, and gden_en as it read. -/
theorem blockWritten_effect {mask : BitVec 4} {s : State} (hmask : mask ≠ 0) (hrel : fld s Reg.PWM_GATE_CTRL F.PWM_GATE_CTRL_release = 0)
    (hroom : Room 1 s) {v : Word} (hv : v = putF (rd s Reg.PWM_GATE_CTRL) F.PWM_GATE_CTRL_block mask.toNat) :
    MaskBlocked mask.toNat s (gateCtrlWrite v s) ∧
    (gateCtrlWrite v s).busReply = s.busReply ∧
    Logged [(0x4021, 5, BitVec.ofNat 32 mask.toNat)] s (gateCtrlWrite v s) ∧
    fld (gateCtrlWrite v s) Reg.PWM_GATE_CTRL F.PWM_GATE_CTRL_gden_en = fld s Reg.PWM_GATE_CTRL F.PWM_GATE_CTRL_gden_en := by
  have hlt : mask.toNat < 16 := mask.isLt
  have hblock : getF v F.PWM_GATE_CTRL_block = mask.toNat := by
    rw [hv, getF_putF _ _ _ (by decide)]
    exact Nat.mod_eq_of_lt hlt
  have hrel' : getF v F.PWM_GATE_CTRL_release = 0 := by
    rw [hv, getF_putF_ne _ _ _ _ (by decide)]
    exact hrel
  have hgden : getF v F.PWM_GATE_CTRL_gden_en = fld s Reg.PWM_GATE_CTRL F.PWM_GATE_CTRL_gden_en := by
    rw [hv, getF_putF_ne _ _ _ _ (by decide), fld]
  have hne : ¬ mask.toNat % 16 = 0 := by
    rw [Nat.mod_eq_of_lt hlt]
    exact fun h0 => hmask (BitVec.eq_of_toNat_eq h0)
  unfold gateCtrlWrite
  rw [if_pos (Or.inr hrel'), writeGateCtrl_block hrel', hblock, hgden]
  have hset := fld_setF s Reg.PWM_GATE_CTRL F.PWM_GATE_CTRL_gden_en (fld s Reg.PWM_GATE_CTRL F.PWM_GATE_CTRL_gden_en) (by decide)
  rw [Nat.mod_eq_of_lt (fld_lt _ _ _)] at hset
  have hlog : (setF s Reg.PWM_GATE_CTRL F.PWM_GATE_CTRL_gden_en (fld s Reg.PWM_GATE_CTRL F.PWM_GATE_CTRL_gden_en)).log = s.log := rfl
  have hreply : (setF s Reg.PWM_GATE_CTRL F.PWM_GATE_CTRL_gden_en (fld s Reg.PWM_GATE_CTRL F.PWM_GATE_CTRL_gden_en)).busReply = s.busReply := rfl
  have hcfg : ∀ p : Fin 12, rd (setF s Reg.PWM_GATE_CTRL F.PWM_GATE_CTRL_gden_en (fld s Reg.PWM_GATE_CTRL F.PWM_GATE_CTRL_gden_en))
      (Reg.PWM_PAIR_CFG p) = rd s (Reg.PWM_PAIR_CFG p) := fun p =>
    rd_setF_ne _ _ _ (ne_of_gt (lt_of_lt_of_le (by decide) (PWM_PAIR_CFG_high p)))
  generalize setF s Reg.PWM_GATE_CTRL F.PWM_GATE_CTRL_gden_en (fld s Reg.PWM_GATE_CTRL F.PWM_GATE_CTRL_gden_en) = x at hset hlog hreply hcfg ⊢
  have hroom' : Room 1 x := by
    unfold Room
    rw [hlog]
    exact hroom
  obtain ⟨hst, hlogged, htai, hreply', -, hregs⟩ := blocks_blockStages 5 mask.toNat hroom'
  rw [if_neg hne, Nat.mod_eq_of_lt hlt] at hlogged
  have hlogged' := logged_append (logged_nil hlog) hlogged htai
  generalize blockStages 5 mask.toNat x = y at hst hlogged' hreply' hregs ⊢
  refine ⟨maskBlocked_of_regs (fun st h => stageBlocked_showGates (hst st h)) fun p => ?_, hreply'.trans hreply,
    logged_congr hlogged' rfl rfl, ?_⟩
  · have hhigh := PWM_PAIR_CFG_high p
    rw [rd_showGates y (ne_of_gt (lt_of_lt_of_le (by decide) hhigh)), hregs _ (ne_of_gt (lt_of_lt_of_le (by decide) hhigh))
      (ne_of_gt (lt_of_lt_of_le (by decide) hhigh)), hcfg]
  · rw [fld_of_rd (rd_showGates y (by decide)), fld_of_rd (hregs _ (by decide) (by decide)), hset]

end Sys2Proof.Machine

namespace Sys2Proof.Proofs

open Sys2Proof Sys2Proof.Machine Sys2Proof.Safety Sys2Proof.Laws

theorem hardCmp_effect {n : Fin 16} {s : State} (hen : flg s (Reg.ADC_HARD n) F.ADC_HARD_en = true)
    (hlive : fbit s Reg.ADC_CMP_STATUS F.ADC_CMP_STATUS_hard_live n = false) (hroom : Room 2 s) :
    ∃ t, exec (.hardCmp n) s = .next t ∧ fbit t Reg.ADC_CMP_STATUS F.ADC_CMP_STATUS_hard_live n = true ∧
      fbit t Reg.ADC_CMP_STATUS F.ADC_CMP_STATUS_hard_latched n = true ∧ MaskBlocked 15 s t ∧
      gdenActive t = false ∧
      Logged ((if fbit s Reg.ADC_CMP_STATUS F.ADC_CMP_STATUS_hard_latched n then [] else [(0x3005, n.val, 0)]) ++
        [(0x4021, 1, 15)]) s t := by
  have hexec : exec (.hardCmp n) s =
      .next (blockStages 1 15 (noteWhy (fun x => { x with whyHard := putBit x.whyHard n true }) 15 (latchHard n s))) :=
    if_pos ⟨hen, by rw [hlive]; rfl⟩
  rw [hexec]
  obtain ⟨hlive', hlatched, hlogged, hcfg⟩ := latchHard_effect n (s := s) (by unfold Room at hroom ⊢; omega)
  have hroom' := room_of_logged hlogged hroom
  generalize latchHard n s = x at hlive' hlatched hlogged hroom' hcfg ⊢
  obtain ⟨hst, hlog, htai, -, -, hregs⟩ := blocks_noted (code := 1) (mask := 15) (fun x => { x with whyHard := putBit x.whyHard n true }) hroom'
  generalize blockStages 1 15 (noteWhy _ 15 x) = t at hst hlog htai hregs ⊢
  have hcmp := hregs Reg.ADC_CMP_STATUS (by decide) (by decide)
  have hlive'' : fbit t Reg.ADC_CMP_STATUS F.ADC_CMP_STATUS_hard_live n = true := by rw [fbit_of_rd hcmp, hlive']
  refine ⟨t, rfl, hlive'', by rw [fbit_of_rd hcmp, hlatched],
    maskBlocked_of_regs hst fun p => ?_, gdenActive_of_hardLive hlive'', logged_append hlogged hlog htai⟩
  have hhigh := PWM_PAIR_CFG_high p
  rw [hregs _ (ne_of_gt (lt_of_lt_of_le (by decide) hhigh)) (ne_of_gt (lt_of_lt_of_le (by decide) hhigh)),
    hcfg _ (ne_of_gt (lt_of_lt_of_le (by decide) hhigh))]

theorem gdfActive_effect {n : Fin 6} {s : State} (hen : fbit s Reg.PWM_GDF_CFG F.PWM_GDF_CFG_en n = true) (hgdf : s.loop.gdf[n] = false)
    (hroom : Room 2 s) :
    ∃ t, exec (.gdfActive n) s = .next t ∧ t.loop.gdf[n] = true ∧
      fbit t Reg.PWM_GDF_STATUS F.PWM_GDF_STATUS_live n = true ∧ fbit t Reg.PWM_GDF_STATUS F.PWM_GDF_STATUS_latched n = true ∧
      MaskBlocked (fld s (Reg.PWM_GDF_MAP n) F.PWM_GDF_MAP_stages) s t ∧
      Logged ((if fbit s Reg.PWM_GDF_STATUS F.PWM_GDF_STATUS_latched n then []
          else [(0x4024, n.val, BitVec.ofNat 32 (fld s (Reg.PWM_GDF_MAP n) F.PWM_GDF_MAP_stages))]) ++
        (if fld s (Reg.PWM_GDF_MAP n) F.PWM_GDF_MAP_stages % 16 = 0 then []
          else [(0x4021, 2, BitVec.ofNat 32 (fld s (Reg.PWM_GDF_MAP n) F.PWM_GDF_MAP_stages % 16))])) s t := by
  have hexec := execGdfActive_effective hen hgdf
  obtain ⟨hgdf', hlive, hlatched, hlogged, hcfg⟩ := latchGdf_effect n (s := s) (by unfold Room at hroom ⊢; omega)
  have hroom' := room_of_logged hlogged hroom
  generalize fld s (Reg.PWM_GDF_MAP n) F.PWM_GDF_MAP_stages = map at hexec hlogged ⊢
  generalize latchGdf n s = x at hexec hgdf' hlive hlatched hlogged hcfg hroom'
  obtain ⟨hst, hlog, htai, -, hgdf'', hregs⟩ := blocks_noted (code := 2) (mask := map) (fun x => { x with whyGdf := putBit x.whyGdf n true }) hroom'
  have hstatus := hregs Reg.PWM_GDF_STATUS (by decide) (by decide)
  refine ⟨_, hexec, by rw [hgdf'', hgdf'], by rw [fbit_of_rd hstatus, hlive], by rw [fbit_of_rd hstatus, hlatched],
    maskBlocked_of_regs hst fun p => ?_, logged_append hlogged hlog htai⟩
  have hhigh := PWM_PAIR_CFG_high p
  rw [hregs _ (ne_of_gt (lt_of_lt_of_le (by decide) hhigh)) (ne_of_gt (lt_of_lt_of_le (by decide) hhigh)),
    hcfg _ (ne_of_gt (lt_of_lt_of_le (by decide) hhigh))]

/-- Settles O37: each source latches and marks itself, and the block of its mask latches the stages and turns their pairs off. -/
theorem gateBlocks : Obligations.GateBlocks := by
  unfold Obligations.GateBlocks
  refine ⟨fun n s hen hlive hroom => hardCmp_effect hen hlive hroom, fun n s h => if_neg ?_, fun n s h => if_neg ?_,
    fun n s hen hgdf hroom => gdfActive_effect hen hgdf hroom, fun m mask s hs hmask hrel hroom => ?_⟩
  · rintro ⟨hen, hlive⟩
    rcases h with h | h
    · exact absurd hen (by simp [h])
    · exact absurd hlive (by simp [h])
  · rintro ⟨hen, hgdf⟩
    rcases h with h | h
    · exact absurd hen (by simp [h])
    · exact absurd hgdf (by simp [h])
  · obtain ⟨hst, hreply, hlogged, hgden⟩ := blockWritten_effect (s := reply .done s) hmask hrel hroom rfl
    exact ⟨_, congrArg Host.Outcome.next (regCommand_PWM_GATE_CTRL _ hs), hreply, hst, hlogged, hgden⟩

end Sys2Proof.Proofs
end


section
/-! PROOFS. Releases of the gates (R135, R210, R212, R368). -/

namespace Sys2Proof.Machine

open Sys2Proof Sys2Proof.Safety Sys2Proof.Laws

/-! ### What a release of one stage leaves to the others -/

/-- The registers that a release may write. -/
structure OffRelease (a : Nat) : Prop where
  block : a ≠ Reg.PWM_BLOCK_STATUS
  status : a ≠ Reg.PWM_STATUS
  gate : a ≠ Reg.PWM_GATE_CTRL
  cmd : a ≠ Reg.CMD_STATUS
  lost : a ≠ Reg.CMD_EVT_LOST
  stageCmd : ∀ k : Fin 4, a ≠ Reg.CTRL_STAGE_CMD k

/-- What the releases of the other stages leave as it is for stage `st`. -/
structure ReleaseSame (st : Fin 4) (s y : State) : Prop where
  busReply : y.busReply = s.busReply
  stage : y.loop.stages[st] = s.loop.stages[st]
  gdf : y.loop.gdf = s.loop.gdf
  powerFail : y.loop.powerFail = s.loop.powerFail
  regs : ∀ a, OffRelease a → rd y a = rd s a
  latched : latchedBlocked y st = latchedBlocked s st
  refused : flg s Reg.PWM_STATUS F.PWM_STATUS_release_refused = true → flg y Reg.PWM_STATUS F.PWM_STATUS_release_refused = true

theorem ReleaseSame.refl (st : Fin 4) (s : State) : ReleaseSame st s s := ⟨rfl, rfl, rfl, rfl, fun _ _ => rfl, rfl, id⟩

theorem ReleaseSame.trans {st : Fin 4} {s x y : State} (h : ReleaseSame st s x) (h' : ReleaseSame st x y) : ReleaseSame st s y :=
  ⟨h'.busReply.trans h.busReply, h'.stage.trans h.stage, h'.gdf.trans h.gdf, h'.powerFail.trans h.powerFail,
    fun a ha => (h'.regs a ha).trans (h.regs a ha), h'.latched.trans h.latched, fun hr => h'.refused (h.refused hr)⟩

theorem offRelease_cmp : OffRelease Reg.ADC_CMP_STATUS :=
  ⟨by decide, by decide, by decide, by decide, by decide, fun k => by simp only [Reg.ADC_CMP_STATUS, Reg.CTRL_STAGE_CMD]; omega⟩

theorem offRelease_gdfStatus : OffRelease Reg.PWM_GDF_STATUS :=
  ⟨by decide, by decide, by decide, by decide, by decide, fun k => by simp only [Reg.PWM_GDF_STATUS, Reg.CTRL_STAGE_CMD]; omega⟩

theorem offRelease_gdfMap (n : Fin 6) : OffRelease (Reg.PWM_GDF_MAP n) := by
  constructor <;> intros <;>
    simp only [Reg.PWM_GDF_MAP, Reg.CTRL_STAGE_CMD, Reg.PWM_BLOCK_STATUS, Reg.PWM_STATUS, Reg.PWM_GATE_CTRL, Reg.CMD_STATUS, Reg.CMD_EVT_LOST] <;> omega

theorem offRelease_plaus (st : Fin 4) : OffRelease (Reg.CTRL_PLAUS_STATE st) := by
  constructor <;> intros <;>
    simp only [Reg.CTRL_PLAUS_STATE, Reg.CTRL_STAGE_CMD, Reg.PWM_BLOCK_STATUS, Reg.PWM_STATUS, Reg.PWM_GATE_CTRL, Reg.CMD_STATUS, Reg.CMD_EVT_LOST] <;> omega

theorem ReleaseSame.causes {st : Fin 4} {s y : State} (h : ReleaseSame st s y) : releaseCauses y st = releaseCauses s st := by
  have hmap : (fun n : Fin 6 => s.loop.gdf[n] && fbit y (Reg.PWM_GDF_MAP n) F.PWM_GDF_MAP_stages st) =
      fun n : Fin 6 => s.loop.gdf[n] && fbit s (Reg.PWM_GDF_MAP n) F.PWM_GDF_MAP_stages st :=
    funext fun n => by rw [fbit_of_rd (h.regs _ (offRelease_gdfMap n))]
  simp only [releaseCauses]
  rw [h.stage, h.powerFail, h.gdf, fld_of_rd (h.regs _ offRelease_cmp), fld_of_rd (h.regs _ offRelease_cmp),
    fld_of_rd (h.regs _ offRelease_gdfStatus), fld_of_rd (h.regs _ (offRelease_plaus st)), hmap]

/-! ### The steps of a release -/

section Steps

variable (st : Fin 4) (s : State)

theorem releaseSame_logN (c q e : Nat) : ReleaseSame st s (logN c q e s) :=
  ⟨logEvent_busReply .., by rw [logN, logEvent_loop], by rw [logN, logEvent_loop], by rw [logN, logEvent_loop],
    fun _ ha => rd_logEvent _ _ _ _ ha.cmd ha.lost, fbit_of_rd (rd_logEvent _ _ _ _ (by decide) (by decide)) _ _,
    fun h => (flg_of_rd (rd_logEvent _ _ _ _ (by decide) (by decide)) _).trans h⟩

theorem refused_showGates : flg (showGates s) Reg.PWM_STATUS F.PWM_STATUS_release_refused =
    flg s Reg.PWM_STATUS F.PWM_STATUS_release_refused := by
  unfold showGates
  rw [flg_setF_disj _ _ _ _ _ (by decide), flg_setF_disj _ _ _ _ _ (by decide), flg_setF_disj _ _ _ _ _ (by decide)]

theorem releaseSame_showGates : ReleaseSame st s (showGates s) :=
  ⟨rfl, rfl, rfl, rfl, fun _ ha => rd_showGates s ha.status, latched_showGates s st, fun h => (refused_showGates s).trans h⟩

theorem releaseSame_showPairOff : ReleaseSame st s (showPairOff s) :=
  ⟨rfl, rfl, rfl, rfl, fun _ ha => rd_setF_ne _ _ _ ha.block, latched_showPairOff s st,
    fun h => (flg_setF_ne _ _ _ _ (by decide)).trans h⟩

theorem releaseSame_setStage {k : Fin 4} (hk : k ≠ st) (x : StageState) : ReleaseSame st s (setStage k x s) :=
  ⟨rfl, Vector.getElem_set_ne k.isLt st.isLt fun hv => hk (Fin.ext hv), rfl, rfl, fun _ _ => rfl, rfl, id⟩

/-- The latched bit of a stage goes. -/
theorem releaseSame_unlatch {k : Fin 4} (hk : k ≠ st) :
    ReleaseSame st s (setFbit s Reg.PWM_BLOCK_STATUS F.PWM_BLOCK_STATUS_latched k false) := by
  refine ⟨rfl, rfl, rfl, rfl, fun _ ha => rd_setFbit_ne _ _ _ _ ha.block, ?_, fun h => ?_⟩
  · have hbit := fbit_setFbit s Reg.PWM_BLOCK_STATUS F.PWM_BLOCK_STATUS_latched k st false (by decide) st.isLt
    rw [if_neg fun hv => hk (Fin.ext hv.symm)] at hbit
    exact hbit
  · rw [flg_of_rd (rd_setFbit_ne _ _ _ _ (by decide))]
    exact h

theorem CTRL_STAGE_CMD_ne (k : Fin 4) : Reg.PWM_BLOCK_STATUS ≠ Reg.CTRL_STAGE_CMD k ∧ Reg.PWM_STATUS ≠ Reg.CTRL_STAGE_CMD k := by
  simp only [Reg.PWM_BLOCK_STATUS, Reg.PWM_STATUS, Reg.CTRL_STAGE_CMD]
  omega

theorem releaseSame_stageCmd (k : Fin 4) (G : Fld) (v : Nat) : ReleaseSame st s (setF s (Reg.CTRL_STAGE_CMD k) G v) :=
  ⟨rfl, rfl, rfl, rfl, fun _ ha => rd_setF_ne _ _ _ (ha.stageCmd k), fbit_of_rd (rd_setF_ne _ _ _ (CTRL_STAGE_CMD_ne k).1) _ _,
    fun h => (flg_setF_ne _ _ _ _ (CTRL_STAGE_CMD_ne k).2).trans h⟩

theorem releaseSame_clearRequests {k : Fin 4} (hk : k ≠ st) : ReleaseSame st s (clearRequests k s) :=
  ((releaseSame_stageCmd st s k _ _).trans (releaseSame_stageCmd st _ k _ _)).trans (releaseSame_setStage st _ hk _)

end Steps

/-- An accepted release of a stage. -/
def stageFreed (st : Fin 4) (s : State) : State :=
  let s := setFbit s Reg.PWM_BLOCK_STATUS F.PWM_BLOCK_STATUS_latched st false
  let s := clearRequests st s
  let s := setStage st { s.loop.stages[st] with
    whyCode := 0, whyHard := 0, whyGdf := 0, whyPlaus := 0, freed := stageMode s st != modeBlocked } s
  logN 0x4022 st 0 (showGates (showPairOff s))

/-- A refused release of a stage. -/
def stageKept (st : Fin 4) (s : State) : State :=
  logN 0x4023 st (releaseCauses s st) (setF s Reg.PWM_STATUS F.PWM_STATUS_release_refused 1)

theorem releaseStage_eq (st : Fin 4) (s : State) : releaseStage st s =
    if !latchedBlocked s st then s else if releaseCauses s st ≠ 0 then stageKept st s else stageFreed st s := rfl

theorem releaseSame_stageFreed (st : Fin 4) {k : Fin 4} (hk : k ≠ st) (s : State) : ReleaseSame st s (stageFreed k s) :=
  ((((releaseSame_unlatch st s hk).trans (releaseSame_clearRequests st _ hk)).trans (releaseSame_setStage st _ hk _)).trans
    (releaseSame_showPairOff st _)).trans ((releaseSame_showGates st _).trans (releaseSame_logN st _ _ _ _))

/-- A refused release is shown, and nothing of any stage changes. -/
theorem releaseSame_stageKept (st k : Fin 4) (s : State) : ReleaseSame st s (stageKept k s) ∧
    flg (stageKept k s) Reg.PWM_STATUS F.PWM_STATUS_release_refused = true := by
  have hset : flg (setF s Reg.PWM_STATUS F.PWM_STATUS_release_refused 1) Reg.PWM_STATUS F.PWM_STATUS_release_refused = true :=
    (flg_setF _ _ _ _ (by decide)).trans (by decide)
  have hsame : ReleaseSame st s (setF s Reg.PWM_STATUS F.PWM_STATUS_release_refused 1) :=
    ⟨rfl, rfl, rfl, rfl, fun _ ha => rd_setF_ne _ _ _ ha.status, fbit_of_rd (rd_setF_ne _ _ _ (by decide)) _ _, fun _ => hset⟩
  have hlog := releaseSame_logN st (setF s Reg.PWM_STATUS F.PWM_STATUS_release_refused 1) 0x4023 k (releaseCauses s k)
  exact ⟨hsame.trans hlog, hlog.refused hset⟩

theorem releaseSame_releaseStage (st : Fin 4) {k : Fin 4} (hk : k ≠ st) (s : State) : ReleaseSame st s (releaseStage k s) := by
  rw [releaseStage_eq]
  split
  · exact .refl st s
  · split
    · exact (releaseSame_stageKept st k s).1
    · exact releaseSame_stageFreed st hk s

theorem latched_stageFreed (st : Fin 4) (s : State) : latchedBlocked (stageFreed st s) st = false ∧
    (stageFreed st s).busReply = s.busReply := by
  unfold stageFreed
  dsimp only
  have hbit := fbit_setFbit s Reg.PWM_BLOCK_STATUS F.PWM_BLOCK_STATUS_latched st st false (by decide) st.isLt
  rw [if_pos rfl] at hbit
  have hreply : (setFbit s Reg.PWM_BLOCK_STATUS F.PWM_BLOCK_STATUS_latched st false).busReply = s.busReply := rfl
  generalize setFbit s Reg.PWM_BLOCK_STATUS F.PWM_BLOCK_STATUS_latched st false = x at hbit hreply ⊢
  have hclear : latchedBlocked (clearRequests st x) st = false ∧ (clearRequests st x).busReply = s.busReply := by
    refine ⟨?_, hreply⟩
    have h1 := (releaseSame_stageCmd st x st F.CTRL_STAGE_CMD_start 0).latched
    have h2 := (releaseSame_stageCmd st (setF x (Reg.CTRL_STAGE_CMD st) F.CTRL_STAGE_CMD_start 0) st F.CTRL_STAGE_CMD_stop 0).latched
    exact (h2.trans h1).trans hbit
  generalize clearRequests st x = y at hclear ⊢
  obtain ⟨hlatched, hreply'⟩ := hclear
  generalize hz : setStage st _ y = z
  have hz' : latchedBlocked z st = false ∧ z.busReply = s.busReply := by
    rw [← hz]
    exact ⟨hlatched, hreply'⟩
  have hsame := ((releaseSame_showPairOff st z).trans (releaseSame_showGates st _)).trans (releaseSame_logN st _ 0x4022 st 0)
  exact ⟨hsame.latched.trans hz'.1, hsame.busReply.trans hz'.2⟩

/-! ### The release of a mask -/

/-- What a release leaves of a stage: not latched where it was asked for and no cause remains, and a refusal is shown. -/
structure Released (bit : Bool) (st : Fin 4) (s y : State) : Prop where
  busReply : y.busReply = s.busReply
  latched : latchedBlocked y st = (latchedBlocked s st && !(bit && decide (releaseCauses s st = 0)))
  refused : bit = true → latchedBlocked s st = true → releaseCauses s st ≠ 0 → flg y Reg.PWM_STATUS F.PWM_STATUS_release_refused = true

theorem Released.then {bit : Bool} {st : Fin 4} {s x y : State} (h : Released bit st s x) (h' : ReleaseSame st x y) : Released bit st s y :=
  ⟨h'.busReply.trans h.busReply, h'.latched.trans h.latched, fun h1 h2 h3 => h'.refused (h.refused h1 h2 h3)⟩

theorem Released.after {bit : Bool} {st : Fin 4} {s x y : State} (h : ReleaseSame st s x) (h' : Released bit st x y) : Released bit st s y := by
  obtain ⟨hreply, hlatched, hrefused⟩ := h'
  rw [h.latched, h.causes] at hlatched hrefused
  exact ⟨hreply.trans h.busReply, hlatched, hrefused⟩

theorem released_releaseStage (st : Fin 4) (s : State) : Released true st s (releaseStage st s) := by
  rw [releaseStage_eq]
  by_cases hlatched : latchedBlocked s st = true
  · rw [if_neg (by rw [hlatched]; exact Bool.false_ne_true)]
    by_cases hcauses : releaseCauses s st = 0
    · rw [if_neg (by rw [hcauses]; exact fun h => h rfl)]
      obtain ⟨hfree, hreply⟩ := latched_stageFreed st s
      exact ⟨hreply, by simp [hfree, hcauses], fun _ _ h => absurd hcauses h⟩
    · rw [if_pos hcauses]
      obtain ⟨hsame, hflag⟩ := releaseSame_stageKept st st s
      exact ⟨hsame.busReply, by simp [hsame.latched, hcauses], fun _ _ _ => hflag⟩
  · rw [if_pos (by simpa using hlatched)]
    exact ⟨rfl, by simp [hlatched], fun _ h => absurd h hlatched⟩

/-- The releases of a mask, in the order of the stages. -/
def maskReleased (rel : Nat) (s : State) : State :=
  forEach (List.finRange 4) (fun (st : Fin 4) s => if rel.testBit st then releaseStage st s else s) s

theorem released_maskReleased (rel : Nat) (st : Fin 4) (s : State) : Released (rel.testBit st) st s (maskReleased rel s) := by
  refine forEach_once (Pre := ReleaseSame st s) (Post := Released (rel.testBit st) st s) (List.nodup_finRange 4) (List.mem_finRange st)
    (fun k _ hk y hy => ?_) (fun k _ hk y hy => ?_) (fun y hy => ?_) (.refl st s)
  · split
    · exact hy.trans (releaseSame_releaseStage st hk y)
    · exact hy
  · split
    · exact hy.then (releaseSame_releaseStage st hk y)
    · exact hy
  · refine .after hy ?_
    by_cases hbit : rel.testBit st = true
    · rw [if_pos hbit, hbit]
      exact released_releaseStage st y
    · rw [if_neg hbit, Bool.eq_false_iff.2 hbit]
      exact ⟨rfl, by simp, fun h => absurd h Bool.false_ne_true⟩

theorem blockStages_zero (code : Nat) (s : State) : blockStages code 0 s = s := rfl

theorem writeGateCtrl_release {v : Word} {s : State} (hblock : getF v F.PWM_GATE_CTRL_block = 0) : writeGateCtrl v s =
    showGates (maskReleased (getF v F.PWM_GATE_CTRL_release)
      (setF s Reg.PWM_GATE_CTRL F.PWM_GATE_CTRL_gden_en (getF v F.PWM_GATE_CTRL_gden_en))) := by
  unfold writeGateCtrl
  dsimp only
  rw [hblock, blockStages_zero]
  rfl

theorem releaseSame_gden (st : Fin 4) (s : State) (v : Nat) : ReleaseSame st s (setF s Reg.PWM_GATE_CTRL F.PWM_GATE_CTRL_gden_en v) := by
  refine ⟨rfl, rfl, rfl, rfl, fun a ha => rd_setF_ne _ _ _ ha.gate, fbit_of_rd (rd_setF_ne _ _ _ (by decide)) _ _,
    fun h => ?_⟩
  rw [flg_setF_ne _ _ _ _ (by decide)]
  exact h

/-- A write of the release field alone, on the ACTIVE unit. -/
theorem released_gateCtrlWrite {mask : BitVec 4} {s : State} (hact : holdsActive s = true)
    (hblock : fld s Reg.PWM_GATE_CTRL F.PWM_GATE_CTRL_block = 0) {v : Word}
    (hv : v = putF (rd s Reg.PWM_GATE_CTRL) F.PWM_GATE_CTRL_release mask.toNat) (st : Fin 4) :
    Released (mask.getLsbD st) st s (gateCtrlWrite v s) := by
  have hrel : getF v F.PWM_GATE_CTRL_release = mask.toNat := by
    rw [hv, getF_putF _ _ _ (by decide)]
    exact Nat.mod_eq_of_lt mask.isLt
  have hblock' : getF v F.PWM_GATE_CTRL_block = 0 := by
    rw [hv, getF_putF_ne _ _ _ _ (by decide)]
    exact hblock
  unfold gateCtrlWrite
  rw [if_pos (Or.inl hact), writeGateCtrl_release hblock', hrel]
  exact ((released_maskReleased mask.toNat st _).after (releaseSame_gden st s _)).then (releaseSame_showGates st _)

/-- A write of the release field without the ACTIVE role frees nothing. -/
theorem gateCtrlWrite_noRole {mask : BitVec 4} {s : State} (hact : holdsActive s = false) (hmask : mask ≠ 0)
    (hblock : fld s Reg.PWM_GATE_CTRL F.PWM_GATE_CTRL_block = 0) {v : Word}
    (hv : v = putF (rd s Reg.PWM_GATE_CTRL) F.PWM_GATE_CTRL_release mask.toNat) :
    gateCtrlWrite v s = setF (showGates (setF s Reg.PWM_GATE_CTRL F.PWM_GATE_CTRL_gden_en
      (getF (putF v F.PWM_GATE_CTRL_release 0) F.PWM_GATE_CTRL_gden_en))) Reg.DPX_STATUS F.DPX_STATUS_role_write 1 := by
  have hrel : getF v F.PWM_GATE_CTRL_release ≠ 0 := by
    rw [hv, getF_putF _ _ _ (by decide)]
    exact fun h => hmask (BitVec.eq_of_toNat_eq ((Nat.mod_eq_of_lt mask.isLt).symm.trans h))
  have hblock' : getF (putF v F.PWM_GATE_CTRL_release 0) F.PWM_GATE_CTRL_block = 0 := by
    rw [hv, getF_putF_ne _ _ _ _ (by decide), getF_putF_ne _ _ _ _ (by decide)]
    exact hblock
  have hrel' : getF (putF v F.PWM_GATE_CTRL_release 0) F.PWM_GATE_CTRL_release = 0 := getF_putF _ _ _ (by decide)
  unfold gateCtrlWrite
  rw [if_neg (by rw [hact]; exact fun h => h.elim Bool.false_ne_true hrel), writeGateCtrl_block hrel', hblock', blockStages_zero]

end Sys2Proof.Machine

namespace Sys2Proof.Proofs

open Sys2Proof Sys2Proof.Machine Sys2Proof.Safety Sys2Proof.Laws

theorem noRole_effect {mask : BitVec 4} {s : State} (hact : holdsActive s = false) (hmask : mask ≠ 0)
    (hblock : fld s Reg.PWM_GATE_CTRL F.PWM_GATE_CTRL_block = 0) {v : Word}
    (hv : v = putF (rd s Reg.PWM_GATE_CTRL) F.PWM_GATE_CTRL_release mask.toNat) :
    (gateCtrlWrite v s).busReply = s.busReply ∧ (gateCtrlWrite v s).loop = s.loop ∧ (gateCtrlWrite v s).log = s.log ∧
    rd (gateCtrlWrite v s) Reg.PWM_BLOCK_STATUS = rd s Reg.PWM_BLOCK_STATUS ∧
    flg (gateCtrlWrite v s) Reg.DPX_STATUS F.DPX_STATUS_role_write = true := by
  rw [gateCtrlWrite_noRole hact hmask hblock hv]
  generalize getF (putF v F.PWM_GATE_CTRL_release 0) F.PWM_GATE_CTRL_gden_en = g
  refine ⟨rfl, rfl, rfl, ?_, (flg_setF _ _ _ _ (by decide)).trans (by decide)⟩
  rw [rd_setF_ne _ _ _ (by decide), rd_showGates _ (by decide), rd_setF_ne _ _ _ (by decide)]

theorem hardLiveCleared_effect (n : Fin 16) (s : State) : ∃ t, exec (.hardLiveCleared n) s = .next t ∧
    fbit t Reg.ADC_CMP_STATUS F.ADC_CMP_STATUS_hard_live n = false ∧
    fld t Reg.ADC_CMP_STATUS F.ADC_CMP_STATUS_hard_latched = fld s Reg.ADC_CMP_STATUS F.ADC_CMP_STATUS_hard_latched ∧
    t.loop = s.loop ∧ t.log = s.log ∧ OnlyRegs [Reg.ADC_CMP_STATUS, Reg.PWM_STATUS] s t := by
  have hbit := fbit_setFbit s Reg.ADC_CMP_STATUS F.ADC_CMP_STATUS_hard_live n n false (by decide) n.isLt
  rw [if_pos rfl] at hbit
  have hcmp := rd_showGates (setFbit s Reg.ADC_CMP_STATUS F.ADC_CMP_STATUS_hard_live n false)
    (by decide : Reg.ADC_CMP_STATUS ≠ Reg.PWM_STATUS)
  refine ⟨_, rfl, by rw [fbit_of_rd hcmp, hbit], ?_, rfl, rfl, fun a ha => ?_⟩
  · rw [fld_of_rd hcmp, setFbit, fld_setF_disj _ _ _ _ _ (by decide)]
  · simp only [List.mem_cons, List.not_mem_nil, or_false, not_or] at ha
    rw [rd_showGates _ ha.2, rd_setFbit_ne _ _ _ _ ha.1]

/-- Settles O38: a release is judged stage by stage, and the other stages' releases touch neither its causes nor its latch. -/
theorem gateReleases : Obligations.GateReleases := by
  unfold Obligations.GateReleases
  refine ⟨fun m mask s hs hact hblock => ?_, fun m mask s hs hact hmask hblock => ?_, hardLiveCleared_effect, fun n s => ?_⟩
  · have h := released_gateCtrlWrite (mask := mask) (s := reply .done s) hact hblock rfl
    refine ⟨_, congrArg Host.Outcome.next (regCommand_PWM_GATE_CTRL _ hs), (h 0).busReply, fun st => (h st).latched, ?_⟩
    rintro ⟨st, hbit, hlatched, hcauses⟩
    exact (h st).refused hbit hlatched hcauses
  · obtain ⟨hreply, hloop, hlog, hrd, hflag⟩ := noRole_effect (s := reply .done s) hact hmask hblock rfl
    exact ⟨_, congrArg Host.Outcome.next (regCommand_PWM_GATE_CTRL _ hs), hreply, hloop, hlog, hrd, hflag⟩
  · exact ⟨_, rfl, rfl, rd_setF _ _ _ _, rfl, fun a ha => rd_setFbit_ne _ _ _ _ (by simpa using ha)⟩

end Sys2Proof.Proofs
end


section
/-! PROOFS. Switching of the pairs (R196, R199 to R201, R470). -/

namespace Sys2Proof.Machine

open Sys2Proof Sys2Proof.Safety Sys2Proof.Laws

/-! ### One pair -/

section Pair

variable (p q : Fin 12) (x : PairState) (s : State)

@[simp] theorem pairs_setPair : (setPair p x s).loop.pairs[p] = x := by simp [setPair]

variable {p q} in
theorem pairs_setPair_ne (h : q ≠ p) : (setPair p x s).loop.pairs[q] = s.loop.pairs[q] :=
  Vector.getElem_set_ne p.isLt q.isLt fun hv => h (Fin.ext hv.symm)

end Pair

/-- Is a side of a pair commanded: on, or to follow after dead time? -/
def SideCommanded (x : PairState) (hi : Bool) : Prop := (if hi then x.high else x.low) = true ∨ x.pendingOn = some hi

/-- All that differs between two states lies in one pair's gate logic: its switches and its dead time. -/
structure PairSwitches (p : Fin 12) (s t : State) : Prop where
  state : t = setPair p t.loop.pairs[p] s
  deferred : t.loop.pairs[p].deferred = s.loop.pairs[p].deferred
  running : t.loop.pairs[p].running = s.loop.pairs[p].running
  shadow : t.loop.pairs[p].shadow = s.loop.pairs[p].shadow

theorem setPair_self (p : Fin 12) (s : State) : setPair p s.loop.pairs[p] s = s := by
  simp [setPair]

theorem setPair_setPair (p : Fin 12) (x y : PairState) (s : State) : setPair p y (setPair p x s) = setPair p y s := by
  simp [setPair]

theorem PairSwitches.refl (p : Fin 12) (s : State) : PairSwitches p s s := ⟨(setPair_self p s).symm, rfl, rfl, rfl⟩

section Kept

variable {p : Fin 12} {s t : State} (h : PairSwitches p s t)

include h

theorem PairSwitches.rd (a : Nat) : Machine.rd t a = Machine.rd s a := by
  rw [h.state]
  rfl

theorem PairSwitches.log : t.log = s.log := by
  rw [h.state]
  rfl

theorem PairSwitches.tai : t.tai = s.tai := by
  rw [h.state]
  rfl

theorem PairSwitches.ticks : t.ticks = s.ticks := by
  rw [h.state]
  rfl

theorem PairSwitches.adc : t.adc = s.adc := by
  rw [h.state]
  rfl

theorem PairSwitches.stages : t.loop.stages = s.loop.stages := by
  rw [h.state]
  rfl

theorem PairSwitches.pairs {q : Fin 12} (hq : q ≠ p) : t.loop.pairs[q] = s.loop.pairs[q] := by
  rw [h.state]
  exact pairs_setPair_ne _ _ hq

end Kept

/-- The switches of a pair change places; the turn-on comes after the dead time. -/
def sidesTurned (p : Fin 12) (hi drop : Bool) (s : State) : State :=
  let x := s.loop.pairs[p]
  let wasOn := if hi then x.low else x.high
  setPair p { x with
    high := if hi then x.high else false, low := if hi then false else x.low,
    pendingOn := if drop then none else some hi, offAt := if wasOn ∨ x.pendingOn.isSome then some s.ticks else x.offAt,
    decidedAt := some s.ticks } s

theorem pairs_sidesTurned (p : Fin 12) (hi drop : Bool) (s : State) : (sidesTurned p hi drop s).loop.pairs[p] = { s.loop.pairs[p] with
    high := if hi then s.loop.pairs[p].high else false, low := if hi then false else s.loop.pairs[p].low,
    pendingOn := if drop then none else some hi,
    offAt := if (if hi then s.loop.pairs[p].low else s.loop.pairs[p].high) ∨ s.loop.pairs[p].pendingOn.isSome then some s.ticks
      else s.loop.pairs[p].offAt,
    decidedAt := some s.ticks } := pairs_setPair ..

theorem pairs_turnOn (p : Fin 12) (hi : Bool) (s : State) : (turnOn p hi s).loop.pairs[p] = { s.loop.pairs[p] with
    high := if hi then true else s.loop.pairs[p].high, low := if hi then s.loop.pairs[p].low else true, pendingOn := none,
    count := if hi then s.loop.pairs[p].count + 1 else s.loop.pairs[p].count } := pairs_setPair ..

/-- Has the dead time of a pair elapsed since its last turn-off? -/
def deadOver (p : Fin 12) (hi : Bool) (x : PairState) (s : State) : Bool :=
  match (if (if hi then x.low else x.high) ∨ x.pendingOn.isSome then some s.ticks else x.offAt) with
  | none => true
  | some t => t + deadTicks s p ≤ s.ticks

/-- Is a side of a pair commanded already? -/
def sideTaken (x : PairState) (hi : Bool) : Bool := (if hi then x.high else x.low) || x.pendingOn == some hi

theorem sideTaken_iff {x : PairState} {hi : Bool} : sideTaken x hi = true ↔ SideCommanded x hi := by
  rw [sideTaken, Bool.or_eq_true, beq_iff_eq, SideCommanded]

theorem commutate_eq (p : Fin 12) (hi drop : Bool) (s : State) : commutate p hi drop s =
    if sideTaken s.loop.pairs[p] hi = true then s
    else if deadOver p hi s.loop.pairs[p] (sidesTurned p hi drop s) ∧ !drop then turnOn p hi (sidesTurned p hi drop s)
    else sidesTurned p hi drop s := rfl

theorem pairSwitches_turnOn (p : Fin 12) (hi : Bool) {s t : State} (h : PairSwitches p s t) : PairSwitches p s (turnOn p hi t) := by
  obtain ⟨hstate, hdef, hrun, hshadow⟩ := h
  refine ⟨?_, by rw [pairs_turnOn, ← hdef], by rw [pairs_turnOn, ← hrun], by rw [pairs_turnOn, ← hshadow]⟩
  unfold turnOn
  rw [pairs_setPair]
  conv_lhs => rw [hstate]
  rw [setPair_setPair, pairs_setPair]

theorem pairSwitches_sidesTurned (p : Fin 12) (hi drop : Bool) (s : State) : PairSwitches p s (sidesTurned p hi drop s) :=
  ⟨by rw [pairs_sidesTurned]; rfl, by rw [pairs_sidesTurned], by rw [pairs_sidesTurned], by rw [pairs_sidesTurned]⟩

theorem pairSwitches_commutate (p : Fin 12) (hi drop : Bool) (s : State) : PairSwitches p s (commutate p hi drop s) := by
  rw [commutate_eq]
  by_cases htaken : sideTaken s.loop.pairs[p] hi = true
  · rw [if_pos htaken]
    exact .refl p s
  · rw [if_neg htaken]
    split
    · exact pairSwitches_turnOn p hi (pairSwitches_sidesTurned p hi drop s)
    · exact pairSwitches_sidesTurned p hi drop s

/-- A side turned on is on, and waits for nothing more. -/
theorem on_turnOn (p : Fin 12) (hi : Bool) (s : State) :
    (if hi then (turnOn p hi s).loop.pairs[p].high else (turnOn p hi s).loop.pairs[p].low) = true ∧
    (turnOn p hi s).loop.pairs[p].pendingOn = none := by
  rw [pairs_turnOn]
  cases hi <;> exact ⟨rfl, rfl⟩

theorem commanded_commutate (p : Fin 12) (hi : Bool) (s : State) : SideCommanded (commutate p hi false s).loop.pairs[p] hi := by
  rw [commutate_eq]
  by_cases htaken : sideTaken s.loop.pairs[p] hi = true
  · rw [if_pos htaken]
    exact sideTaken_iff.1 htaken
  · rw [if_neg htaken]
    by_cases hfree : deadOver p hi s.loop.pairs[p] (sidesTurned p hi false s) ∧ !false
    · rw [if_pos hfree]
      exact Or.inl (on_turnOn p hi _).1
    · rw [if_neg hfree]
      exact Or.inr (by rw [pairs_sidesTurned]; rfl)

theorem otherOff_commutate {p : Fin 12} {hi : Bool} {s : State} (drop : Bool) (h : ¬ SideCommanded s.loop.pairs[p] hi) :
    (if hi then (commutate p hi drop s).loop.pairs[p].low else (commutate p hi drop s).loop.pairs[p].high) = false := by
  rw [commutate_eq, if_neg (sideTaken_iff.not.2 h)]
  by_cases hfree : deadOver p hi s.loop.pairs[p] (sidesTurned p hi drop s) ∧ !drop
  · rw [if_pos hfree, pairs_turnOn, pairs_sidesTurned]
    cases hi <;> rfl
  · rw [if_neg hfree, pairs_sidesTurned]
    cases hi <;> rfl

/-! ### Decisions of a hysteretic pair (R196, R201) -/

/-- A hysteretic decision changes one pair, and counts it where it is deferred. -/
structure PairDecides (p : Fin 12) (s t : State) : Prop where
  adc : t.adc = s.adc
  stages : t.loop.stages = s.loop.stages
  regs : ∀ a, a ≠ Reg.PWM_PAIR_STAT p → rd t a = rd s a
  others : ∀ q, q ≠ p → t.loop.pairs[q] = s.loop.pairs[q]

theorem pairDecides_setPair (p : Fin 12) (x : PairState) (s : State) : PairDecides p s (setPair p x s) :=
  ⟨rfl, rfl, fun _ _ => rfl, fun _ hq => pairs_setPair_ne _ _ hq⟩

theorem PairDecides.then {p : Fin 12} {s x t : State} (h : PairDecides p s x) (h' : PairSwitches p x t) : PairDecides p s t :=
  ⟨h'.adc.trans h.adc, h'.stages.trans h.stages, fun a ha => (h'.rd a).trans (h.regs a ha), fun _ hq => (h'.pairs hq).trans (h.others _ hq)⟩

/-- Does a decision come less than t_min after the previous one? -/
def decisionEarly (p : Fin 12) (s : State) : Bool :=
  match s.loop.pairs[p].decidedAt with
  | none => false
  | some t => s.ticks < t + minTicks s p

theorem hystDecision_eq (p : Fin 12) (hi : Bool) (s : State) : hystDecision p hi s =
    if sideTaken s.loop.pairs[p] hi = true then setPair p { s.loop.pairs[p] with deferred := none } s
    else if decisionEarly p s = true then
      bumpSat (Reg.PWM_PAIR_STAT p) F.PWM_PAIR_STAT_deferred (setPair p { s.loop.pairs[p] with deferred := some hi } s)
    else commutate p hi false (setPair p { s.loop.pairs[p] with deferred := none } s) := rfl

theorem hystDecision_effect (p : Fin 12) (hi : Bool) (s : State) : PairDecides p s (hystDecision p hi s) ∧
    (SideCommanded (hystDecision p hi s).loop.pairs[p] hi ∨ (hystDecision p hi s).loop.pairs[p].deferred = some hi) := by
  rw [hystDecision_eq]
  by_cases htaken : sideTaken s.loop.pairs[p] hi = true
  · rw [if_pos htaken]
    refine ⟨pairDecides_setPair p _ s, Or.inl ?_⟩
    rw [pairs_setPair]
    exact sideTaken_iff.1 htaken
  · rw [if_neg htaken]
    by_cases hearly : decisionEarly p s = true
    · rw [if_pos hearly]
      refine ⟨⟨rfl, rfl, fun a ha => rd_setF_ne _ _ _ ha, fun _ hq => pairs_setPair_ne _ _ hq⟩, Or.inr ?_⟩
      exact congrArg PairState.deferred (pairs_setPair p { s.loop.pairs[p] with deferred := some hi } s)
    · rw [if_neg hearly]
      exact ⟨(pairDecides_setPair p _ s).then (pairSwitches_commutate p hi false _), Or.inl (commanded_commutate p hi _)⟩

/-! ### A band crossing (R196) -/

/-- The pairs that take a band crossing of an input decide. -/
def bandDecided (n : Fin 16) (low : Bool) (s : State) : State :=
  forEach (List.finRange 12) (fun (p : Fin 12) s =>
    if fld s (Reg.PWM_PAIR_CFG p) F.PWM_PAIR_CFG_ain = n.val ∧ maySwitch s p ∧ (s.loop.stages[pairStage s p]).hystOn then
      hystDecision p low s
    else s) s

theorem stages_congr {v w : Vector StageState 4} {i j : Fin 4} (hv : v = w) (hi : i = j) : v[i] = w[j] := by
  subst hv hi
  rfl

theorem maySwitch_congr {s t : State} {p : Fin 12} (hregs : ∀ a, (∀ q : Fin 12, a ≠ Reg.PWM_PAIR_STAT q) → rd t a = rd s a)
    (hstages : t.loop.stages = s.loop.stages) :
    fld t (Reg.PWM_PAIR_CFG p) F.PWM_PAIR_CFG_ain = fld s (Reg.PWM_PAIR_CFG p) F.PWM_PAIR_CFG_ain ∧
    maySwitch t p = maySwitch s p ∧ t.loop.stages[pairStage t p].hystOn = s.loop.stages[pairStage s p].hystOn := by
  have hcfg : rd t (Reg.PWM_PAIR_CFG p) = rd s (Reg.PWM_PAIR_CFG p) :=
    hregs _ fun q => by simp only [Reg.PWM_PAIR_CFG, Reg.PWM_PAIR_STAT]; omega
  have hctrl : rd t Reg.CTRL_STATUS = rd s Reg.CTRL_STATUS :=
    hregs _ fun q => by simp only [Reg.CTRL_STATUS, Reg.PWM_PAIR_STAT]; omega
  have hblock : rd t Reg.PWM_BLOCK_STATUS = rd s Reg.PWM_BLOCK_STATUS :=
    hregs _ fun q => by simp only [Reg.PWM_BLOCK_STATUS, Reg.PWM_PAIR_STAT]; omega
  have hstage : pairStage t p = pairStage s p := by rw [pairStage, pairStage, fld_of_rd hcfg]
  have hx := stages_congr hstages hstage
  have hfreed : t.loop.stages[pairStage t p].freed = s.loop.stages[pairStage s p].freed := congrArg StageState.freed hx
  refine ⟨fld_of_rd hcfg _, ?_, congrArg StageState.hystOn hx⟩
  unfold maySwitch
  dsimp only
  generalize t.loop.stages[pairStage t p].freed = fr at hfreed ⊢
  rw [hfreed, hstage, pairMode, pairMode, fld_of_rd hcfg, energised, energised, fbit_of_rd hctrl, latchedBlocked, latchedBlocked,
    fbit_of_rd hblock]

/-- What the decisions of other pairs leave as it is. -/
structure BandSame (s y : State) : Prop where
  adc : y.adc = s.adc
  stages : y.loop.stages = s.loop.stages
  regs : ∀ a, (∀ q : Fin 12, a ≠ Reg.PWM_PAIR_STAT q) → rd y a = rd s a

theorem BandSame.decide {s x t : State} {p : Fin 12} (h : BandSame s x) (h' : PairDecides p x t) : BandSame s t :=
  ⟨h'.adc.trans h.adc, h'.stages.trans h.stages, fun a ha => (h'.regs a (ha p)).trans (h.regs a ha)⟩

theorem bandSame_bandDecided (n : Fin 16) (low : Bool) (s : State) : BandSame s (bandDecided n low s) := by
  refine forEach_keeps (P := BandSame s) (fun p _ y hy => ?_) ⟨rfl, rfl, fun _ _ => rfl⟩
  split
  · exact hy.decide (hystDecision_effect p low y).1
  · exact hy

theorem bandDecided_pair {n : Fin 16} {low : Bool} {s : State} {p : Fin 12}
    (hain : fld s (Reg.PWM_PAIR_CFG p) F.PWM_PAIR_CFG_ain = n.val) (hmay : maySwitch s p = true)
    (hhyst : s.loop.stages[pairStage s p].hystOn = true) :
    SideCommanded (bandDecided n low s).loop.pairs[p] low ∨ (bandDecided n low s).loop.pairs[p].deferred = some low := by
  refine forEach_once (Pre := BandSame s)
    (Post := fun y => SideCommanded y.loop.pairs[p] low ∨ y.loop.pairs[p].deferred = some low)
    (List.nodup_finRange 12) (List.mem_finRange p) (fun q _ _ y hy => ?_) (fun q _ hq y hy => ?_) (fun y hy => ?_) ⟨rfl, rfl, fun _ _ => rfl⟩
  · split
    · exact hy.decide (hystDecision_effect q low y).1
    · exact hy
  · split
    · rw [(hystDecision_effect q low y).1.others p (Ne.symm hq)]
      exact hy
    · exact hy
  · obtain ⟨hain', hmay', hhyst'⟩ := maySwitch_congr (p := p) hy.regs hy.stages
    rw [if_pos ⟨hain'.trans hain, hmay'.trans hmay, hhyst'.trans hhyst⟩]
    exact (hystDecision_effect p low y).2

/-! ### A carrier's events (R199, R200, R470) -/

theorem pairs_reachCarrier (p : Fin 12) (peak : Bool) (s : State) :
    (reachCarrier p peak s).loop.pairs[p] = if peak then { s.loop.pairs[p] with peakTick := some (advanceTo s (nextCarrier s p peak)).ticks }
      else { s.loop.pairs[p] with valleyTick := some (advanceTo s (nextCarrier s p peak)).ticks } := pairs_setPair ..

theorem pairs_loadCompare {p : Fin 12} {c : Nat} {s : State} (h : s.loop.pairs[p].shadow = some c) :
    pairCmp (loadCompare p s) p = c % 2 ^ F.PWM_PAIR_CMP_c.w ∧ (loadCompare p s).loop.pairs[p].shadow = none := by
  unfold loadCompare
  rw [h]
  refine ⟨fld_setF s _ _ _ (by decide), ?_⟩
  dsimp only
  rw [pairs_setPair]

/-- A load leaves the carrier as it runs. -/
theorem running_loadCompare (p : Fin 12) (s : State) : (loadCompare p s).loop.pairs[p].running = s.loop.pairs[p].running ∧
    (loadCompare p s).tai = s.tai := by
  unfold loadCompare
  split
  · exact ⟨rfl, rfl⟩
  · refine ⟨?_, rfl⟩
    rw [pairs_setPair]

/-- The on-interval of a side in ticks (R201). -/
def onTicks (p : Fin 12) (hi : Bool) (s : State) : Nat := if hi then highTicks s p else pairN s p - highTicks s p

theorem carrierDecision_eq (p : Fin 12) (hi : Bool) (s : State) : carrierDecision p hi s =
    if onTicks p hi s < minTicks s p then s else commutate p hi (onTicks p hi s < minTicks s p + deadTicks s p) s := rfl

theorem pairSwitches_carrierDecision (p : Fin 12) (hi : Bool) (s : State) : PairSwitches p s (carrierDecision p hi s) := by
  rw [carrierDecision_eq]
  generalize onTicks p hi s = n
  split
  · exact .refl p s
  · exact pairSwitches_commutate ..

theorem pairSwitches_switched (p : Fin 12) (hi may : Bool) (s : State) : PairSwitches p s (if may then carrierDecision p hi s else s) := by
  split
  · exact pairSwitches_carrierDecision ..
  · exact .refl p s

theorem running_carrierLoad (p : Fin 12) (peak : Bool) (s : State) : (carrierLoad p peak s).loop.pairs[p].running = s.loop.pairs[p].running ∧
    (carrierLoad p peak s).tai = s.tai := by
  unfold carrierLoad
  have hload : (whenS (loadsAt s p peak) (loadCompare p) s).loop.pairs[p].running = s.loop.pairs[p].running ∧
      (whenS (loadsAt s p peak) (loadCompare p) s).tai = s.tai := by
    cases loadsAt s p peak
    · exact ⟨rfl, rfl⟩
    · exact running_loadCompare p s
  generalize whenS (loadsAt s p peak) (loadCompare p) s = x at hload ⊢
  have hswitch := pairSwitches_switched p (decide (!peak ∧ 0 < pairCmp x p)) (maySwitch x p) x
  exact ⟨hswitch.running.trans hload.1, hswitch.tai.trans hload.2⟩

theorem loaded_carrierLoad {p : Fin 12} {peak : Bool} {c : Nat} {s : State} (hshadow : s.loop.pairs[p].shadow = some c)
    (hloads : loadsAt s p peak = true) :
    pairCmp (carrierLoad p peak s) p = c % 2 ^ F.PWM_PAIR_CMP_c.w ∧ (carrierLoad p peak s).loop.pairs[p].shadow = none := by
  unfold carrierLoad
  rw [hloads, whenS_true]
  obtain ⟨hcmp, hnone⟩ := pairs_loadCompare hshadow
  generalize loadCompare p s = x at hcmp hnone ⊢
  have hswitch := pairSwitches_switched p (decide (!peak ∧ 0 < pairCmp x p)) (maySwitch x p) x
  exact ⟨(fld_of_rd (hswitch.rd _) _).trans hcmp, hswitch.shadow.trans hnone⟩

/-- The events of a pair touch neither its loop nor its registers. -/
theorem pwmEvent_kept (p : Fin 12) (peak : Bool) (s : State) : (pwmEvent p peak s).loop = s.loop ∧ (pwmEvent p peak s).tai = s.tai ∧
    ∀ q : Fin 12, rd (pwmEvent p peak s) (Reg.PWM_PAIR_CMP q) = rd s (Reg.PWM_PAIR_CMP q) := by
  have hev := pwmEvent_ev (p := p) (peak := peak) (foot_self _) (Ev.refl _ s)
  have hblock : ∀ q : Fin 12, blockAt (Reg.PWM_PAIR_CMP q) = some .pwm := by decide
  exact ⟨keeps_of_ev hev (p := .loop) rfl, keeps_of_ev hev (p := .tai) rfl, fun q => rd_of_ev hev rfl (hblock q) rfl⟩

/-- A carrier at its event: a stopped one starts at a valley unless it is held. -/
def carrierStarted (p : Fin 12) (peak : Bool) (s : State) : State :=
  if !s.loop.pairs[p].running ∧ !peak ∧ s.loop.pairs[p].hold.isEmpty then setPair p { s.loop.pairs[p] with running := true } s else s

theorem execCarrierEvent_eq {p : Fin 12} {peak : Bool} {s : State} (huse : usesCarrier s p = true)
    (hpeak : peak = false ∨ isSaw s p = false) : execCarrierEvent p peak s =
    if (carrierStarted p peak (reachCarrier p peak s)).loop.pairs[p].running then
      .next (pwmEvent p peak (carrierLoad p peak (carrierStarted p peak (reachCarrier p peak s))))
    else .next (carrierStarted p peak (reachCarrier p peak s)) := by
  unfold execCarrierEvent
  rw [if_neg (by rcases hpeak with h | h <;> simp [huse, h])]
  rfl

theorem ticks_advanceTo_pair (p : Fin 12) (peak : Bool) (s : State) : (reachCarrier p peak s).tai = (advanceTo s (nextCarrier s p peak)).tai ∧
    ∀ a, rd (reachCarrier p peak s) a = rd s a := ⟨rfl, fun _ => rfl⟩

/-- At its event a pair keeps its switches, its hold and its shadow. -/
theorem reachCarrier_pair (p : Fin 12) (peak : Bool) (s : State) :
    (reachCarrier p peak s).loop.pairs[p].running = s.loop.pairs[p].running ∧
    (reachCarrier p peak s).loop.pairs[p].hold = s.loop.pairs[p].hold ∧
    (reachCarrier p peak s).loop.pairs[p].shadow = s.loop.pairs[p].shadow ∧
    (reachCarrier p peak s).loop.pairs[p].high = s.loop.pairs[p].high ∧
    (reachCarrier p peak s).loop.pairs[p].low = s.loop.pairs[p].low := by
  rw [pairs_reachCarrier]
  cases peak <;> exact ⟨rfl, rfl, rfl, rfl, rfl⟩

theorem carrierStarted_held {p : Fin 12} {peak : Bool} {s : State} (h : s.loop.pairs[p].hold ≠ [] ∨ peak = true) :
    carrierStarted p peak s = s := by
  refine if_neg ?_
  rintro ⟨-, hpeak, hhold⟩
  rcases h with h | h
  · exact h (List.isEmpty_iff.1 hhold)
  · rw [h] at hpeak
    exact Bool.false_ne_true hpeak

theorem carrierStarted_runs {p : Fin 12} {peak : Bool} {s : State}
    (h : s.loop.pairs[p].running = true ∨ (s.loop.pairs[p].hold = [] ∧ peak = false)) :
    (carrierStarted p peak s).loop.pairs[p].running = true ∧ (carrierStarted p peak s).loop.pairs[p].shadow = s.loop.pairs[p].shadow ∧
    (carrierStarted p peak s).tai = s.tai ∧ ∀ a, rd (carrierStarted p peak s) a = rd s a := by
  unfold carrierStarted
  by_cases hrun : s.loop.pairs[p].running = true
  · rw [if_neg (by rw [hrun]; exact fun h => Bool.false_ne_true h.1)]
    exact ⟨hrun, rfl, rfl, fun _ => rfl⟩
  · obtain ⟨hhold, hpeak⟩ := h.resolve_left hrun
    rw [if_pos ⟨by simpa using hrun, by rw [hpeak]; rfl, by rw [hhold]; rfl⟩, pairs_setPair]
    exact ⟨rfl, rfl, rfl, fun _ => rfl⟩

end Sys2Proof.Machine

namespace Sys2Proof.Proofs

open Sys2Proof Sys2Proof.Machine Sys2Proof.Safety Sys2Proof.Laws

section Switching

variable {p : Fin 12} {s : State}

theorem bandCrossing_effect (n : Fin 16) (up low : Bool) (s : State) : ∃ t, exec (.bandCrossing n up low) s = .next t ∧
    t.adc.bandUp = s.adc.bandUp.set n up ∧ t.adc.bandLow = s.adc.bandLow.set n low ∧
    (up = low ∨ flg s (Reg.ADC_AIN_CFG n) F.ADC_AIN_CFG_band_en = false → t.loop = s.loop ∧ OnlyRegs [] s t) ∧
    (up ≠ low → flg s (Reg.ADC_AIN_CFG n) F.ADC_AIN_CFG_band_en = true → ∀ p : Fin 12,
      fld s (Reg.PWM_PAIR_CFG p) F.PWM_PAIR_CFG_ain = n.val → maySwitch s p = true →
      (s.loop.stages[pairStage s p]).hystOn = true →
      SideCommanded t.loop.pairs[p] low ∨ t.loop.pairs[p].deferred = some low) := by
  by_cases hoff : up = low ∨ flg s (Reg.ADC_AIN_CFG n) F.ADC_AIN_CFG_band_en = false
  · have hcond : (!flg s (Reg.ADC_AIN_CFG n) F.ADC_AIN_CFG_band_en) = true ∨ up = low := by
      rcases hoff with h | h
      · exact Or.inr h
      · exact Or.inl (by rw [h]; rfl)
    refine ⟨_, if_pos hcond, rfl, rfl, fun _ => ⟨rfl, fun _ _ => rfl⟩, fun hne hen => ?_⟩
    rcases hoff with h | h
    · exact absurd h hne
    · exact absurd (h.symm.trans hen) Bool.false_ne_true
  · rw [not_or, Bool.not_eq_false] at hoff
    have hcond : ¬ ((!flg s (Reg.ADC_AIN_CFG n) F.ADC_AIN_CFG_band_en) = true ∨ up = low) := by
      rw [hoff.2]
      exact fun h => h.elim Bool.false_ne_true hoff.1
    have hadc := (bandSame_bandDecided n low
      { s with adc := { s.adc with bandUp := s.adc.bandUp.set n up, bandLow := s.adc.bandLow.set n low } }).adc
    refine ⟨_, if_neg hcond, congrArg AdcState.bandUp hadc, congrArg AdcState.bandLow hadc, fun h => ?_, fun _ _ p hain hmay hhyst => ?_⟩
    · exact absurd h (by rw [not_or, Bool.not_eq_false]; exact hoff)
    · exact bandDecided_pair (s := { s with adc := { s.adc with bandUp := s.adc.bandUp.set n up, bandLow := s.adc.bandLow.set n low } })
        hain hmay hhyst

theorem deadTimeElapsed_effect {hi : Bool} (h : s.loop.pairs[p].pendingOn = some hi) :
    ∃ t, exec (.deadTimeElapsed p) s = .next t ∧ (if hi then t.loop.pairs[p].high else t.loop.pairs[p].low) = true ∧
      t.loop.pairs[p].pendingOn = none ∧ OnlyRegs [] s t ∧ (∀ q, q ≠ p → t.loop.pairs[q] = s.loop.pairs[q]) ∧
      t.ticks = max s.ticks (s.loop.pairs[p].offAt.getD 0 + deadTicks s p) := by
  have hexec : exec (.deadTimeElapsed p) s = .next (turnOn p hi (reachTick (s.loop.pairs[p].offAt.getD 0 + deadTicks s p) s)) := by
    show execDeadTimeElapsed p s = _
    unfold execDeadTimeElapsed
    dsimp only
    rw [h]
  generalize s.loop.pairs[p].offAt.getD 0 + deadTicks s p = q at hexec
  have hswitch := pairSwitches_turnOn p hi (.refl p (reachTick q s))
  obtain ⟨hon, hpending⟩ := on_turnOn p hi (reachTick q s)
  refine ⟨_, hexec, hon, hpending, fun a _ => hswitch.rd a, fun r hr => hswitch.pairs hr, hswitch.ticks.trans ?_⟩
  show s.ticks + (q - s.ticks) = _
  omega

theorem deferredDecision_effect {hi : Bool} (h : s.loop.pairs[p].deferred = some hi) :
    ∃ t, exec (.deferredDecision p) s = .next t ∧ t.loop.pairs[p].deferred = none ∧ SideCommanded t.loop.pairs[p] hi ∧
      t.ticks = max s.ticks (s.loop.pairs[p].decidedAt.getD 0 + minTicks s p) ∧
      OnlyRegs [] s t ∧ (∀ q, q ≠ p → t.loop.pairs[q] = s.loop.pairs[q]) := by
  have hexec : exec (.deferredDecision p) s = .next (commutate p hi false
      (setPair p { (reachTick (s.loop.pairs[p].decidedAt.getD 0 + minTicks s p) s).loop.pairs[p] with deferred := none }
        (reachTick (s.loop.pairs[p].decidedAt.getD 0 + minTicks s p) s))) := by
    show execDeferredDecision p s = _
    unfold execDeferredDecision
    dsimp only
    rw [h]
  generalize s.loop.pairs[p].decidedAt.getD 0 + minTicks s p = q at hexec
  have hnone := congrArg PairState.deferred (pairs_setPair p { (reachTick q s).loop.pairs[p] with deferred := none } (reachTick q s))
  have hothers : ∀ r, r ≠ p → (setPair p { (reachTick q s).loop.pairs[p] with deferred := none } (reachTick q s)).loop.pairs[r] = s.loop.pairs[r] :=
    fun r hr => pairs_setPair_ne _ _ hr
  have hticks : (setPair p { (reachTick q s).loop.pairs[p] with deferred := none } (reachTick q s)).ticks = max s.ticks q := by
    show s.ticks + (q - s.ticks) = _
    omega
  have hrd : ∀ a, rd (setPair p { (reachTick q s).loop.pairs[p] with deferred := none } (reachTick q s)) a = rd s a := fun _ => rfl
  generalize setPair p { (reachTick q s).loop.pairs[p] with deferred := none } (reachTick q s) = x at hexec hnone hothers hticks hrd
  have hswitch := pairSwitches_commutate p hi false x
  exact ⟨_, hexec, hswitch.deferred.trans hnone, commanded_commutate p hi x, hswitch.ticks.trans hticks,
    fun a _ => (hswitch.rd a).trans (hrd a), fun r hr => (hswitch.pairs hr).trans (hothers r hr)⟩

theorem loadsAt_congr {x y : State} (h : ∀ a, rd y a = rd x a) (peak : Bool) : loadsAt y p peak = loadsAt x p peak := by
  have hload := fld_of_rd (h (Reg.PWM_PAIR_CFG p)) F.PWM_PAIR_CFG_load
  have hsaw : isSaw y p = isSaw x p := flg_of_rd (h (Reg.PWM_PAIR_CFG p)) F.PWM_PAIR_CFG_shape
  unfold loadsAt
  rw [hload, hsaw]

theorem pairCmp_of_rd {x y : State} (h : rd y (Reg.PWM_PAIR_CMP p) = rd x (Reg.PWM_PAIR_CMP p)) : pairCmp y p = pairCmp x p :=
  fld_of_rd h _

/-- A running carrier at its event: loaded where the load code names the event. -/
theorem carrierRun_effect {peak : Bool} {y : State} (hrun : y.loop.pairs[p].running = true) :
    (pwmEvent p peak (carrierLoad p peak y)).tai = y.tai ∧ (pwmEvent p peak (carrierLoad p peak y)).loop.pairs[p].running = true ∧
    (∀ c, y.loop.pairs[p].shadow = some c → loadsAt y p peak = true →
      pairCmp (pwmEvent p peak (carrierLoad p peak y)) p = c % 2 ^ F.PWM_PAIR_CMP_c.w ∧
      (pwmEvent p peak (carrierLoad p peak y)).loop.pairs[p].shadow = none) := by
  obtain ⟨hrunL, htaiL⟩ := running_carrierLoad p peak y
  obtain ⟨hloop, htaiE, hcmp⟩ := pwmEvent_kept p peak (carrierLoad p peak y)
  refine ⟨htaiE.trans htaiL, by rw [hloop, hrunL, hrun], fun c hc hl => ?_⟩
  obtain ⟨hcmpL, hnone⟩ := loaded_carrierLoad hc hl
  refine ⟨?_, by rw [hloop, hnone]⟩
  rw [pairCmp_of_rd (hcmp p), hcmpL]

theorem carrierEvent_runs {peak : Bool} (huse : usesCarrier s p = true) (hpeak : peak = false ∨ isSaw s p = false)
    (hgo : s.loop.pairs[p].running = true ∨ (s.loop.pairs[p].hold = [] ∧ peak = false)) :
    ∃ t, exec (.carrierEvent p peak) s = .next t ∧ t.tai = (advanceTo s (nextCarrier s p peak)).tai ∧ t.loop.pairs[p].running = true ∧
      (∀ c, s.loop.pairs[p].shadow = some c → loadsAt s p peak = true →
        pairCmp t p = c % 2 ^ F.PWM_PAIR_CMP_c.w ∧ t.loop.pairs[p].shadow = none) := by
  have hexec : exec (.carrierEvent p peak) s = _ := execCarrierEvent_eq huse hpeak
  obtain ⟨hrun, hhold, hshadow, -, -⟩ := reachCarrier_pair p peak s
  obtain ⟨htai, hrd⟩ := ticks_advanceTo_pair p peak s
  generalize reachCarrier p peak s = x at hexec hrun hhold hshadow htai hrd
  obtain ⟨hrun', hshadow', htai', hrd'⟩ := carrierStarted_runs (p := p) (peak := peak) (s := x) (by rw [hrun, hhold]; exact hgo)
  rw [if_pos hrun'] at hexec
  generalize carrierStarted p peak x = y at hexec hrun' hshadow' htai' hrd'
  obtain ⟨htaiE, hrunE, hload⟩ := carrierRun_effect (peak := peak) hrun'
  refine ⟨_, hexec, by rw [htaiE, htai', htai], hrunE, fun c hc hl => hload c (by rw [hshadow', hshadow, hc]) ?_⟩
  rw [loadsAt_congr hrd', loadsAt_congr hrd, hl]

theorem carrierEvent_held {peak : Bool} (huse : usesCarrier s p = true) (hpeak : peak = false ∨ isSaw s p = false)
    (hrun : s.loop.pairs[p].running = false) (hheld : s.loop.pairs[p].hold ≠ [] ∨ peak = true) :
    ∃ t, exec (.carrierEvent p peak) s = .next t ∧ t.tai = (advanceTo s (nextCarrier s p peak)).tai ∧ t.loop.pairs[p].running = false ∧
      t.loop.pairs[p].high = s.loop.pairs[p].high ∧ t.loop.pairs[p].low = s.loop.pairs[p].low ∧ OnlyRegs [] s t := by
  have hexec : exec (.carrierEvent p peak) s = _ := execCarrierEvent_eq huse hpeak
  obtain ⟨hrun', hhold, -, hhigh, hlow⟩ := reachCarrier_pair p peak s
  obtain ⟨htai, hrd⟩ := ticks_advanceTo_pair p peak s
  generalize reachCarrier p peak s = x at hexec hrun' hhold hhigh hlow htai hrd
  rw [carrierStarted_held (by rw [hhold]; exact hheld), if_neg (by rw [hrun', hrun]; exact Bool.false_ne_true)] at hexec
  exact ⟨x, hexec, htai, by rw [hrun', hrun], hhigh, hlow, fun a _ => hrd a⟩

theorem carrierEvent_effect {peak : Bool} (huse : usesCarrier s p = true) (hpeak : peak = false ∨ isSaw s p = false) :
    ∃ t, exec (.carrierEvent p peak) s = .next t ∧ t.tai = (advanceTo s (nextCarrier s p peak)).tai ∧
      (s.loop.pairs[p].running = false → (s.loop.pairs[p].hold ≠ [] ∨ peak = true) → t.loop.pairs[p].running = false ∧
        t.loop.pairs[p].high = s.loop.pairs[p].high ∧ t.loop.pairs[p].low = s.loop.pairs[p].low ∧ OnlyRegs [] s t) ∧
      (s.loop.pairs[p].running = true ∨ (s.loop.pairs[p].hold = [] ∧ peak = false) → t.loop.pairs[p].running = true ∧
        (∀ c, s.loop.pairs[p].shadow = some c → loadsAt s p peak = true →
          pairCmp t p = c % 2 ^ F.PWM_PAIR_CMP_c.w ∧ t.loop.pairs[p].shadow = none)) := by
  by_cases hgo : s.loop.pairs[p].running = true ∨ (s.loop.pairs[p].hold = [] ∧ peak = false)
  · obtain ⟨t, hexec, htai, hruns⟩ := carrierEvent_runs huse hpeak hgo
    refine ⟨t, hexec, htai, fun h1 h2 => ?_, fun _ => hruns⟩
    rcases hgo with hgo | ⟨hgo1, hgo2⟩
    · exact absurd (h1.symm.trans hgo) Bool.false_ne_true
    · rcases h2 with h2 | h2
      · exact absurd hgo1 h2
      · exact absurd (hgo2.symm.trans h2) Bool.false_ne_true
  · have hgo' := hgo
    rw [not_or, not_and, Bool.not_eq_true] at hgo'
    have hheld : s.loop.pairs[p].hold ≠ [] ∨ peak = true := by
      by_cases h : s.loop.pairs[p].hold = []
      · exact Or.inr ((Bool.not_eq_false _).mp (hgo'.2 h))
      · exact Or.inl h
    obtain ⟨t, hexec, htai, hstays⟩ := carrierEvent_held huse hpeak hgo'.1 hheld
    exact ⟨t, hexec, htai, fun _ _ => hstays, fun h => absurd h hgo⟩

/-- Does the count of a pair cross its compare value in this way (R199)? -/
def Crosses (p : Fin 12) (hi : Bool) (s : State) : Prop :=
  usesCarrier s p = true ∧ s.loop.pairs[p].running = true ∧ maySwitch s p = true ∧ 0 < pairCmp s p ∧
    (if isSaw s p then hi = false ∧ pairCmp s p < pairN s p else pairCmp s p ≤ pairCmax s p)

theorem crosses_iff {hi : Bool} : Crosses p hi s ↔ (usesCarrier s p = true ∧ s.loop.pairs[p].running = true ∧ maySwitch s p = true ∧
    0 < pairCmp s p ∧ (if isSaw s p then (!hi) = true ∧ pairCmp s p < pairN s p else pairCmp s p ≤ pairCmax s p)) := by
  rw [Crosses, Bool.not_eq_true']

theorem compareMatch_none {hi : Bool} (h : ¬ Crosses p hi s) : exec (.compareMatch p hi) s = .next s := if_neg (crosses_iff.not.1 h)

theorem compareMatch_effect {hi : Bool} (h : Crosses p hi s) : ∃ t, exec (.compareMatch p hi) s = .next t ∧ OnlyRegs [] s t ∧ t.log = s.log ∧
    (∀ q, q ≠ p → t.loop.pairs[q] = s.loop.pairs[q]) ∧
    (minTicks s p + deadTicks s p ≤ onTicks p hi s → SideCommanded t.loop.pairs[p] hi ∧
      (¬ SideCommanded s.loop.pairs[p] hi → (if hi then t.loop.pairs[p].low else t.loop.pairs[p].high) = false)) ∧
    (onTicks p hi s < minTicks s p → t.loop.pairs[p] = s.loop.pairs[p]) := by
  have hexec : exec (.compareMatch p hi) s = .next (carrierDecision p hi (advanceTo s
      (gridNext s (5 * (fld s (Reg.PWM_PAIR_PHASE p) F.PWM_PAIR_PHASE_phase + matchTicks s p hi)) (5 * pairN s p) none))) :=
    if_pos (crosses_iff.1 h)
  generalize gridNext s (5 * (fld s (Reg.PWM_PAIR_PHASE p) F.PWM_PAIR_PHASE_phase + matchTicks s p hi)) (5 * pairN s p) none = g at hexec
  have hrd : ∀ a, rd (advanceTo s g) a = rd s a := fun _ => rfl
  have hloop : (advanceTo s g).loop = s.loop := rfl
  have hlog : (advanceTo s g).log = s.log := rfl
  have hon : onTicks p hi (advanceTo s g) = onTicks p hi s ∧ minTicks (advanceTo s g) p = minTicks s p ∧
    deadTicks (advanceTo s g) p = deadTicks s p := ⟨rfl, rfl, rfl⟩
  generalize advanceTo s g = x at hexec hrd hloop hlog hon
  have hswitch := pairSwitches_carrierDecision p hi x
  refine ⟨_, hexec, fun a _ => (hswitch.rd a).trans (hrd a), hswitch.log.trans hlog, fun q hq => ?_, fun hlong => ?_, fun hshort => ?_⟩
  · rw [hswitch.pairs hq, hloop]
  · rw [carrierDecision_eq, hon.1, hon.2.1, hon.2.2, if_neg (by omega), decide_eq_false (by omega)]
    refine ⟨commanded_commutate p hi x, fun hc => otherOff_commutate false ?_⟩
    rw [hloop]
    exact hc
  · rw [carrierDecision_eq, hon.1, hon.2.1, if_pos hshort, hloop]

/-- Settles O39: every switching event comes down to a commutation of one pair, which commands the side it names. -/
theorem switching : Obligations.Switching := by
  unfold Obligations.Switching
  refine ⟨bandCrossing_effect, fun p s => ⟨fun h => ?_, fun hi h => deadTimeElapsed_effect h, fun h => ?_, fun hi h => deferredDecision_effect h⟩,
    fun p peak s => ⟨fun h => if_pos ?_, carrierEvent_effect⟩, fun p hi s => ⟨compareMatch_none, compareMatch_effect⟩⟩
  · show execDeadTimeElapsed p s = _
    unfold execDeadTimeElapsed
    dsimp only
    rw [h]
  · show execDeferredDecision p s = _
    unfold execDeferredDecision
    dsimp only
    rw [h]
  · rw [Bool.not_eq_true']
    exact h

end Switching

end Sys2Proof.Proofs
end


section
/-! PROOFS. Requests to a stage (R206, R207, R236, R368). -/

namespace Sys2Proof.Machine

open Sys2Proof Sys2Proof.Safety Sys2Proof.Laws

theorem stages_setStage (st : Fin 4) (x : StageState) (s : State) : (setStage st x s).loop.stages[st] = x := by simp [setStage]

/-- The inner control that a write of CTRL_STAGE_CMD_s names is noted (R207). -/
def innerNoted (st : Fin 4) (n : Nat) (s : State) : State :=
  if n = fld s (Reg.CTRL_STAGE_CMD st) F.CTRL_STAGE_CMD_inner then s
  else setStage st { s.loop.stages[st] with innerReq := some n } (setF s (Reg.CTRL_STAGE_CMD st) F.CTRL_STAGE_CMD_inner n)

theorem writeStageCmd_start {st : Fin 4} {v : Word} {s : State} (hstop : getF v F.CTRL_STAGE_CMD_stop = 0)
    (hstart : getF v F.CTRL_STAGE_CMD_start = 1) :
    writeStageCmd st v s = requestStart st (innerNoted st (getF v F.CTRL_STAGE_CMD_inner) s) := by
  have hno : ¬ getF v F.CTRL_STAGE_CMD_stop = 1 := by omega
  unfold writeStageCmd
  dsimp only
  rw [if_neg hno, if_pos ⟨hstart, by simpa using hno⟩]
  rfl

theorem writeStageCmd_stop {st : Fin 4} {v : Word} {s : State} (hstop : getF v F.CTRL_STAGE_CMD_stop = 1) :
    writeStageCmd st v s = requestStop st (innerNoted st (getF v F.CTRL_STAGE_CMD_inner) s) := by
  unfold writeStageCmd
  dsimp only
  rw [if_pos hstop, if_neg fun h => by simp [hstop] at h]
  rfl

theorem writeStageCmd_neither {st : Fin 4} {v : Word} {s : State} (hstop : getF v F.CTRL_STAGE_CMD_stop = 0)
    (hstart : getF v F.CTRL_STAGE_CMD_start = 0) : writeStageCmd st v s = innerNoted st (getF v F.CTRL_STAGE_CMD_inner) s := by
  unfold writeStageCmd
  dsimp only
  rw [if_neg (by omega), if_neg (by omega)]
  rfl

/-- The first cause for which a stage refuses a start, 0 for none (R206). -/
def stageRefusal (s : State) (st : Nat) : Nat :=
  if isBlocked s st then 1 else if !ready s then 2 else if stageKind s st = 0 then 3 else 0

theorem requestStart_eq {st : Fin 4} {s : State} (h : isGfm s st = false) : requestStart st s =
    if stageRefusal s st ≠ 0 then refuseStart st (stageRefusal s st) s
    else setStage st { s.loop.stages[st] with startReq := true } (setF s (Reg.CTRL_STAGE_CMD st) F.CTRL_STAGE_CMD_start 1) := by
  unfold requestStart
  rw [if_neg (by rw [h]; exact Bool.false_ne_true)]
  rfl

theorem requestStop_eq {st : Fin 4} {s : State} (h : isGfm s st = false) (hkind : stageKind s st ≠ 0) : requestStop st s =
    setStage st { s.loop.stages[st] with stopReq := true } (setF s (Reg.CTRL_STAGE_CMD st) F.CTRL_STAGE_CMD_stop 1) := by
  unfold requestStop
  rw [if_neg (by rw [h]; exact Bool.false_ne_true), if_neg hkind]
  rfl

/-- What the noting of an inner control leaves as it is. -/
structure InnerKept (st : Fin 4) (s x : State) : Prop where
  busReply : x.busReply = s.busReply
  log : x.log = s.log
  tai : x.tai = s.tai
  startReq : x.loop.stages[st].startReq = s.loop.stages[st].startReq
  stopReq : x.loop.stages[st].stopReq = s.loop.stages[st].stopReq
  regs : OnlyRegs [Reg.CTRL_STAGE_CMD st] s x

theorem innerKept_innerNoted (st : Fin 4) (n : Nat) (s : State) : InnerKept st s (innerNoted st n s) := by
  unfold innerNoted
  split
  · exact ⟨rfl, rfl, rfl, rfl, rfl, fun _ _ => rfl⟩
  · refine ⟨rfl, rfl, rfl, ?_, ?_, fun a ha => rd_setF_ne _ _ _ (by simpa using ha)⟩ <;> rw [stages_setStage]

/-- The registers that a start is judged by are none of CTRL_STAGE_CMD_s. -/
theorem InnerKept.judged {st : Fin 4} {s x : State} (h : InnerKept st s x) : stageRefusal x st = stageRefusal s st ∧
    isGfm x st = isGfm s st ∧ stageKind x st = stageKind s st ∧ stageMode x st = stageMode s st := by
  have hrd : ∀ a, a ≠ Reg.CTRL_STAGE_CMD st → rd x a = rd s a := fun a ha => h.regs a (by simpa using ha)
  have hmode : stageMode x st = stageMode s st :=
    fld_of_rd (hrd _ (by simp only [Reg.CTRL_STAGE_STATE, Reg.CTRL_STAGE_CMD]; omega)) _
  have hkind : stageKind x st = stageKind s st :=
    fld_of_rd (hrd _ (by simp only [Reg.CTRL_STAGE_CFG, Reg.CTRL_STAGE_CMD]; omega)) _
  have hlatched : latchedBlocked x st = latchedBlocked s st := fbit_of_rd (hrd _ (CTRL_STAGE_CMD_ne st).1) _ _
  have hready : ready x = ready s :=
    flg_of_rd (hrd _ (by simp only [Reg.SYS_STATUS, Reg.CTRL_STAGE_CMD]; omega)) _
  refine ⟨?_, ?_, hkind, hmode⟩
  · rw [stageRefusal, stageRefusal, isBlocked, isBlocked, hmode, hlatched, hready, hkind]
  · rw [isGfm, isGfm, hkind]

theorem requested_start {st : Fin 4} {s x : State} (hkept : InnerKept st s x) (hgfm : isGfm s st = false) (hcause : stageRefusal s st = 0) :
    (requestStart st x).busReply = s.busReply ∧
    flg (requestStart st x) (Reg.CTRL_STAGE_CMD st) F.CTRL_STAGE_CMD_start = true ∧ (requestStart st x).loop.stages[st].startReq = true ∧
    (requestStart st x).loop.stages[st].stopReq = s.loop.stages[st].stopReq ∧ stageMode (requestStart st x) st = stageMode s st ∧
    OnlyRegs [Reg.CTRL_STAGE_CMD st] s (requestStart st x) ∧ (requestStart st x).log = s.log := by
  obtain ⟨hcause', hgfm', -, hmode⟩ := hkept.judged
  rw [requestStart_eq (hgfm'.trans hgfm), hcause', hcause, if_neg (by decide)]
  have hset : flg (setF x (Reg.CTRL_STAGE_CMD st) F.CTRL_STAGE_CMD_start 1) (Reg.CTRL_STAGE_CMD st) F.CTRL_STAGE_CMD_start = true :=
    (flg_setF _ _ _ _ (by decide)).trans (by decide)
  have hmode' : stageMode (setF x (Reg.CTRL_STAGE_CMD st) F.CTRL_STAGE_CMD_start 1) st = stageMode x st :=
    fld_setF_ne _ _ _ _ (by simp only [Reg.CTRL_STAGE_STATE, Reg.CTRL_STAGE_CMD]; omega)
  refine ⟨hkept.busReply, hset, ?_, ?_, hmode'.trans hmode, fun a ha => ?_, hkept.log⟩
  · rw [stages_setStage]
  · rw [stages_setStage]
    exact hkept.stopReq
  · exact (rd_setF_ne _ _ _ (by simpa using ha)).trans (hkept.regs a ha)

theorem refused_start {st : Fin 4} {s x : State} (hkept : InnerKept st s x) (hgfm : isGfm s st = false) (hcause : stageRefusal s st ≠ 0)
    (hroom : Room 1 s) :
    (requestStart st x).busReply = s.busReply ∧ flg (requestStart st x) Reg.CTRL_STATUS F.CTRL_STATUS_start_refused = true ∧
    (requestStart st x).loop.stages[st].startReq = s.loop.stages[st].startReq ∧
    OnlyRegs [Reg.CTRL_STAGE_CMD st, Reg.CTRL_STATUS] s (requestStart st x) ∧
    Logged [(0x4003, st.val, BitVec.ofNat 32 (stageRefusal s st))] s (requestStart st x) := by
  obtain ⟨hcause', hgfm', -, -⟩ := hkept.judged
  rw [requestStart_eq (hgfm'.trans hgfm), hcause', if_pos hcause, refuseStart]
  have hset : flg (setF x Reg.CTRL_STATUS F.CTRL_STATUS_start_refused 1) Reg.CTRL_STATUS F.CTRL_STATUS_start_refused = true :=
    (flg_setF _ _ _ _ (by decide)).trans (by decide)
  have hrd : OnlyRegs [Reg.CTRL_STAGE_CMD st, Reg.CTRL_STATUS] s (setF x Reg.CTRL_STATUS F.CTRL_STATUS_start_refused 1) := fun a ha => by
    simp only [List.mem_cons, List.not_mem_nil, or_false, not_or] at ha
    exact (rd_setF_ne _ _ _ ha.2).trans (hkept.regs a (by simpa using ha.1))
  have hlog : (setF x Reg.CTRL_STATUS F.CTRL_STATUS_start_refused 1).log = s.log := hkept.log
  have hreply : (setF x Reg.CTRL_STATUS F.CTRL_STATUS_start_refused 1).busReply = s.busReply := hkept.busReply
  have hreq : (setF x Reg.CTRL_STATUS F.CTRL_STATUS_start_refused 1).loop.stages[st].startReq = s.loop.stages[st].startReq := hkept.startReq
  generalize setF x Reg.CTRL_STATUS F.CTRL_STATUS_start_refused 1 = y at hset hrd hlog hreply hreq ⊢
  have hrd' := rd_logN_room 0x4003 st (stageRefusal s st) hlog hroom
  exact ⟨(logEvent_busReply ..).trans hreply, (flg_of_rd (hrd' _) _).trans hset, by rw [logN, logEvent_loop, hreq],
    fun a ha => (hrd' a).trans (hrd a ha), logged_logN 0x4003 st (stageRefusal s st) hlog hroom⟩

theorem requested_stop {st : Fin 4} {s x : State} (hkept : InnerKept st s x) (hgfm : isGfm s st = false) (hkind : stageKind s st ≠ 0) :
    (requestStop st x).busReply = s.busReply ∧ (requestStop st x).loop.stages[st].stopReq = true ∧
    flg (requestStop st x) (Reg.CTRL_STAGE_CMD st) F.CTRL_STAGE_CMD_stop = true ∧
    (requestStop st x).loop.stages[st].startReq = s.loop.stages[st].startReq ∧
    OnlyRegs [Reg.CTRL_STAGE_CMD st] s (requestStop st x) ∧ (requestStop st x).log = s.log := by
  obtain ⟨-, hgfm', hkind', -⟩ := hkept.judged
  rw [requestStop_eq (hgfm'.trans hgfm) (by rw [hkind']; exact hkind)]
  have hset : flg (setF x (Reg.CTRL_STAGE_CMD st) F.CTRL_STAGE_CMD_stop 1) (Reg.CTRL_STAGE_CMD st) F.CTRL_STAGE_CMD_stop = true :=
    (flg_setF _ _ _ _ (by decide)).trans (by decide)
  refine ⟨hkept.busReply, ?_, hset, ?_, fun a ha => ?_, hkept.log⟩
  · rw [stages_setStage]
  · rw [stages_setStage]
    exact hkept.startReq
  · exact (rd_setF_ne _ _ _ (by simpa using ha)).trans (hkept.regs a ha)

theorem innerNoted_same {st : Fin 4} {n : Nat} {s : State} (h : n = fld s (Reg.CTRL_STAGE_CMD st) F.CTRL_STAGE_CMD_inner) :
    innerNoted st n s = s := if_pos h

theorem innerNoted_changed {st : Fin 4} {n : Nat} {s : State} (h : n ≠ fld s (Reg.CTRL_STAGE_CMD st) F.CTRL_STAGE_CMD_inner) :
    (innerNoted st n s).loop.stages[st].innerReq = some n ∧
    rd (innerNoted st n s) (Reg.CTRL_STAGE_CMD st) = putF (rd s (Reg.CTRL_STAGE_CMD st)) F.CTRL_STAGE_CMD_inner n := by
  unfold innerNoted
  rw [if_neg h]
  refine ⟨?_, rd_setF _ _ _ _⟩
  rw [stages_setStage]

/-! ### The words written -/

section Words

variable {st : Fin 4} {v : Word} {s : State}

theorem startWord (v : Word) : getF (putF v F.CTRL_STAGE_CMD_start 1) F.CTRL_STAGE_CMD_start = 1 ∧
    getF (putF v F.CTRL_STAGE_CMD_start 1) F.CTRL_STAGE_CMD_stop = getF v F.CTRL_STAGE_CMD_stop ∧
    getF (putF v F.CTRL_STAGE_CMD_start 1) F.CTRL_STAGE_CMD_inner = getF v F.CTRL_STAGE_CMD_inner :=
  ⟨getF_putF _ _ _ (by decide), getF_putF_ne _ _ _ _ (by decide), getF_putF_ne _ _ _ _ (by decide)⟩

theorem stopWord (v : Word) : getF (putF v F.CTRL_STAGE_CMD_stop 1) F.CTRL_STAGE_CMD_stop = 1 ∧
    getF (putF v F.CTRL_STAGE_CMD_stop 1) F.CTRL_STAGE_CMD_inner = getF v F.CTRL_STAGE_CMD_inner :=
  ⟨getF_putF _ _ _ (by decide), getF_putF_ne _ _ _ _ (by decide)⟩

theorem innerWord (h : Bool) : getF (putF 0 F.CTRL_STAGE_CMD_inner (b2n h)) F.CTRL_STAGE_CMD_inner = b2n h ∧
    getF (putF 0 F.CTRL_STAGE_CMD_inner (b2n h)) F.CTRL_STAGE_CMD_stop = 0 ∧
    getF (putF 0 F.CTRL_STAGE_CMD_inner (b2n h)) F.CTRL_STAGE_CMD_start = 0 := by
  cases h <;> decide

theorem roleWrite_active (act : State → State) (h : holdsActive s = true) : roleWrite act s = act s := if_pos h

theorem roleWrite_other (act : State → State) (h : holdsActive s = false) :
    roleWrite act s = setF s Reg.DPX_STATUS F.DPX_STATUS_role_write 1 := if_neg (by rw [h]; exact Bool.false_ne_true)

theorem startWritten (hact : holdsActive s = true) (hstop : getF v F.CTRL_STAGE_CMD_stop = 0) :
    roleWrite (writeStageCmd st (putF v F.CTRL_STAGE_CMD_start 1)) s =
      requestStart st (innerNoted st (getF v F.CTRL_STAGE_CMD_inner) s) := by
  obtain ⟨hstart, hstop', hinner⟩ := startWord v
  rw [roleWrite_active _ hact, writeStageCmd_start (hstop'.trans hstop) hstart, hinner]

theorem stopWritten (hact : holdsActive s = true) : roleWrite (writeStageCmd st (putF v F.CTRL_STAGE_CMD_stop 1)) s =
    requestStop st (innerNoted st (getF v F.CTRL_STAGE_CMD_inner) s) := by
  obtain ⟨hstop, hinner⟩ := stopWord v
  rw [roleWrite_active _ hact, writeStageCmd_stop hstop, hinner]

theorem innerWritten {h : Bool} (hact : holdsActive s = true) :
    roleWrite (writeStageCmd st (putF 0 F.CTRL_STAGE_CMD_inner (b2n h))) s = innerNoted st (b2n h) s := by
  obtain ⟨hinner, hstop, hstart⟩ := innerWord h
  rw [roleWrite_active _ hact, writeStageCmd_neither hstop hstart, hinner]

end Words

end Sys2Proof.Machine

namespace Sys2Proof.Proofs

open Sys2Proof Sys2Proof.Machine Sys2Proof.Safety Sys2Proof.Laws

section StageCommands

variable {m : Fin 8} {st : Fin 4} {v : Word} {h : Bool} {s : State} (hs : Served m true (Reg.CTRL_STAGE_CMD st) 4 s)

include hs

theorem exec_stageStart : exec (.stageStart m st v) s =
    .next (roleWrite (writeStageCmd st (putF v F.CTRL_STAGE_CMD_start 1)) (reply .done s)) :=
  congrArg Host.Outcome.next (regCommand_CTRL_STAGE_CMD _ hs)

theorem exec_stageStop : exec (.stageStop m st v) s =
    .next (roleWrite (writeStageCmd st (putF v F.CTRL_STAGE_CMD_stop 1)) (reply .done s)) :=
  congrArg Host.Outcome.next (regCommand_CTRL_STAGE_CMD _ hs)

theorem exec_innerChange : exec (.innerChange m st h) s =
    .next (roleWrite (writeStageCmd st (putF 0 F.CTRL_STAGE_CMD_inner (b2n h))) (reply .done s)) :=
  congrArg Host.Outcome.next (regCommand_CTRL_STAGE_CMD _ hs)

end StageCommands

/-- Settles O40: the inner control is noted first, and leaves what a start or a stop is judged by as it was. -/
theorem stageRequests : Obligations.StageRequests := by
  unfold Obligations.StageRequests
  refine ⟨fun m st v s hs hact hgfm hstop => ⟨fun hcause => ?_, fun hcause hroom => ?_⟩, fun m st v s hs hact hgfm hkind => ?_,
    fun m st v s hs hact hinner => ⟨fun hgfm hstop => ?_, fun hgfm => ?_, fun hkind => ?_⟩, fun m st h s hs hact hne => ?_,
    fun m st v h s hs hact => ⟨?_, ?_, ?_⟩⟩
  · have hkept := innerKept_innerNoted st (getF v F.CTRL_STAGE_CMD_inner) (reply .done s)
    exact ⟨_, (exec_stageStart hs).trans (congrArg _ (startWritten (s := reply .done s) hact hstop)),
      requested_start hkept hgfm hcause⟩
  · have hkept := innerKept_innerNoted st (getF v F.CTRL_STAGE_CMD_inner) (reply .done s)
    exact ⟨_, (exec_stageStart hs).trans (congrArg _ (startWritten (s := reply .done s) hact hstop)),
      refused_start hkept hgfm hcause hroom⟩
  · have hkept := innerKept_innerNoted st (getF v F.CTRL_STAGE_CMD_inner) (reply .done s)
    exact ⟨_, (exec_stageStop hs).trans (congrArg _ (stopWritten (s := reply .done s) hact)), requested_stop hkept hgfm hkind⟩
  · rw [exec_stageStart hs, startWritten (s := reply .done s) hact hstop, innerNoted_same (s := reply .done s) hinner]
    exact congrArg _ (if_pos hgfm)
  · rw [exec_stageStop hs, stopWritten (s := reply .done s) hact, innerNoted_same (s := reply .done s) hinner]
    exact congrArg _ (if_pos hgfm)
  · have hgfm : isGfm (reply .done s) st = false := by
      have hkind' : stageKind (reply .done s) st = 0 := hkind
      rw [isGfm, hkind']
      rfl
    rw [exec_stageStop hs, stopWritten (s := reply .done s) hact, innerNoted_same (s := reply .done s) hinner]
    unfold requestStop
    rw [if_neg (by rw [hgfm]; exact Bool.false_ne_true)]
    exact congrArg _ (if_pos hkind)
  · obtain ⟨hreply, hlog, -, hstart, hstop, hregs⟩ := innerKept_innerNoted st (b2n h) (reply .done s)
    obtain ⟨hreq, hrd⟩ := innerNoted_changed (s := reply .done s) (Ne.symm hne)
    exact ⟨_, (exec_innerChange hs).trans (congrArg _ (innerWritten (s := reply .done s) hact)), hreply, hreq, hrd, hstart, hstop, hregs, hlog⟩
  · rw [exec_stageStart hs]
    exact congrArg _ (roleWrite_other (s := reply .done s) _ hact)
  · rw [exec_stageStop hs]
    exact congrArg _ (roleWrite_other (s := reply .done s) _ hact)
  · rw [exec_innerChange hs]
    exact congrArg _ (roleWrite_other (s := reply .done s) _ hact)

end Sys2Proof.Proofs
end


section
/-! PROOFS. The sample of a stage (R181, R206, R212): a blocked grid-forming stage keeps a request. -/

namespace Sys2Proof.Proofs

open Sys2Proof Sys2Proof.Machine Sys2Proof.Safety Sys2Proof.Laws

/-- A grid-forming stage 0 in LINE_CHECK whose gates a block has latched. -/
def latchedGfm : State :=
  setF (setF (setF State.reset (Reg.CTRL_STAGE_CFG 0) F.CTRL_STAGE_CFG_kind kindGridForming) (Reg.GFM_STATE 0) F.GFM_STATE_state gLineCheck)
    Reg.PWM_BLOCK_STATUS F.PWM_BLOCK_STATUS_latched 1

/-- A sample without routed inputs. -/
def noInputs : LoopInputs :=
  { words := Vector.replicate 16 {}, estimates := Vector.replicate 16 0, duty := Vector.replicate 3 0 }

theorem latchedGfm_stops : (match exec (.loopSample 0 noInputs) latchedGfm with
    | .next t => t.loop.stages[(0 : Fin 4)].stopReq
    | _ => false) = true := by decide +kernel

/-- Refutes O41: at the sample that finds a grid-forming stage latched blocked its requests are cleared first, and the failure of
its start state machine (row 27) then requests a stop. -/
theorem not_loopSample : ¬ Obligations.LoopSample := by
  intro h
  obtain ⟨t, hrun, -, -, hstop, -⟩ := h.2.1 0 noInputs latchedGfm (by decide +kernel) (by decide +kernel)
  have hstops := latchedGfm_stops
  rw [hrun] at hstops
  exact Bool.false_ne_true (hstop.symm.trans hstops)

end Sys2Proof.Proofs
end


section
/-! PROOFS. The output instant of a stage and the steps of the generators (R191, R194, R195, R200, R202, R204). -/

namespace Sys2Proof.Machine

open Sys2Proof Sys2Proof.Safety Sys2Proof.Laws

/-! ### A pair takes its compare value (R200) -/

/-- All that differs between two states lies in one pair and its compare value in force. -/
structure PairLoads (p : Fin 12) (s t : State) : Prop where
  log : t.log = s.log
  tai : t.tai = s.tai
  ticks : t.ticks = s.ticks
  stages : t.loop.stages = s.loop.stages
  regs : ∀ a, a ≠ Reg.PWM_PAIR_CMP p → rd t a = rd s a
  others : ∀ q, q ≠ p → t.loop.pairs[q] = s.loop.pairs[q]

theorem PairLoads.refl (p : Fin 12) (s : State) : PairLoads p s s := ⟨rfl, rfl, rfl, rfl, fun _ _ => rfl, fun _ _ => rfl⟩

theorem PairLoads.trans {p : Fin 12} {s x t : State} (h : PairLoads p s x) (h' : PairLoads p x t) : PairLoads p s t :=
  ⟨h'.log.trans h.log, h'.tai.trans h.tai, h'.ticks.trans h.ticks, h'.stages.trans h.stages,
    fun a ha => (h'.regs a ha).trans (h.regs a ha), fun q hq => (h'.others q hq).trans (h.others q hq)⟩

theorem PairSwitches.loads {p : Fin 12} {s t : State} (h : PairSwitches p s t) : PairLoads p s t :=
  ⟨h.log, h.tai, h.ticks, h.stages, fun a _ => h.rd a, fun _ hq => h.pairs hq⟩

theorem pairLoads_setPair (p : Fin 12) (x : PairState) (s : State) : PairLoads p s (setPair p x s) :=
  ⟨rfl, rfl, rfl, rfl, fun _ _ => rfl, fun _ hq => pairs_setPair_ne _ _ hq⟩

theorem pairLoads_loadCompare (p : Fin 12) (s : State) : PairLoads p s (loadCompare p s) := by
  unfold loadCompare
  split
  · exact .refl p s
  · exact ⟨rfl, rfl, rfl, rfl, fun _ ha => rd_setF_ne _ _ _ ha, fun _ hq => pairs_setPair_ne _ _ hq⟩

theorem pairLoads_carrierLoad (p : Fin 12) (peak : Bool) (s : State) : PairLoads p s (carrierLoad p peak s) := by
  unfold carrierLoad
  have hload : PairLoads p s (whenS (loadsAt s p peak) (loadCompare p) s) := by
    cases loadsAt s p peak
    · exact .refl p s
    · exact pairLoads_loadCompare p s
  generalize whenS (loadsAt s p peak) (loadCompare p) s = x at hload ⊢
  exact hload.trans (pairSwitches_switched p (decide (!peak ∧ 0 < pairCmp x p)) (maySwitch x p) x).loads

/-- The compare value that a stage's sample has for a pair. -/
def sampleCompare (st : Fin 4) (s : State) (p : Fin 12) : Nat :=
  compareOf (((s.loop.stages[st]).mods.toList[phaseIndex s p]?).getD 0) (pairCmax s p)

/-- A shadow register just written is loaded where this is a load event of its pair. -/
def shadowTaken (p : Fin 12) (s : State) : State :=
  if !s.loop.pairs[p].running then s
  else if s.loop.pairs[p].valleyTick = some s.ticks ∧ loadsAt s p false then carrierLoad p false s
  else if s.loop.pairs[p].peakTick = some s.ticks ∧ loadsAt s p true then carrierLoad p true s
  else s

theorem writeShadowCmp_eq (st : Fin 4) (p : Fin 12) (s : State) :
    writeShadowCmp st p s = shadowTaken p (setPair p { s.loop.pairs[p] with shadow := some (sampleCompare st s p) } s) := rfl

theorem pairLoads_shadowTaken (p : Fin 12) (s : State) : PairLoads p s (shadowTaken p s) := by
  unfold shadowTaken
  split
  · exact .refl p s
  · split
    · exact pairLoads_carrierLoad ..
    · split
      · exact pairLoads_carrierLoad ..
      · exact .refl p s

theorem pairLoads_writeShadowCmp (st : Fin 4) (p : Fin 12) (s : State) : PairLoads p s (writeShadowCmp st p s) := by
  rw [writeShadowCmp_eq]
  exact (pairLoads_setPair p _ s).trans (pairLoads_shadowTaken p _)

theorem shadowTaken_waits {p : Fin 12} {s : State} (h : s.loop.pairs[p].running = false ∨
    (s.loop.pairs[p].valleyTick ≠ some s.ticks ∧ s.loop.pairs[p].peakTick ≠ some s.ticks)) : shadowTaken p s = s := by
  unfold shadowTaken
  rcases h with h | ⟨hv, hp⟩
  · rw [h]
    rfl
  · split
    · rfl
    · rw [if_neg fun h => hv h.1, if_neg fun h => hp h.1]

theorem shadowTaken_valley {p : Fin 12} {s : State} (hrun : s.loop.pairs[p].running = true)
    (hv : s.loop.pairs[p].valleyTick = some s.ticks) (hload : loadsAt s p false = true) : shadowTaken p s = carrierLoad p false s := by
  unfold shadowTaken
  rw [if_neg (by rw [hrun]; exact Bool.false_ne_true), if_pos ⟨hv, hload⟩]

/-- What a pair's compare value hangs on. -/
structure CompareSame (s y : State) : Prop where
  log : y.log = s.log
  tai : y.tai = s.tai
  ticks : y.ticks = s.ticks
  stages : y.loop.stages = s.loop.stages
  regs : ∀ a, (∀ q : Fin 12, a ≠ Reg.PWM_PAIR_CMP q) → rd y a = rd s a

theorem CompareSame.load {s x t : State} {p : Fin 12} (h : CompareSame s x) (h' : PairLoads p x t) : CompareSame s t :=
  ⟨h'.log.trans h.log, h'.tai.trans h.tai, h'.ticks.trans h.ticks, h'.stages.trans h.stages,
    fun a ha => (h'.regs a (ha p)).trans (h.regs a ha)⟩

section Same

variable {s y : State} (h : CompareSame s y) (p : Fin 12)

include h

theorem CompareSame.cfg : rd y (Reg.PWM_PAIR_CFG p) = rd s (Reg.PWM_PAIR_CFG p) :=
  h.regs _ fun q => by simp only [Reg.PWM_PAIR_CFG, Reg.PWM_PAIR_CMP]; omega

theorem CompareSame.period : rd y (Reg.PWM_PAIR_PERIOD p) = rd s (Reg.PWM_PAIR_PERIOD p) :=
  h.regs _ fun q => by simp only [Reg.PWM_PAIR_PERIOD, Reg.PWM_PAIR_CMP]; omega

theorem CompareSame.isSaw : Machine.isSaw y p = Machine.isSaw s p := flg_of_rd (h.cfg p) _

theorem CompareSame.loadsAt (peak : Bool) : Machine.loadsAt y p peak = Machine.loadsAt s p peak := by
  have hload := fld_of_rd (h.cfg p) F.PWM_PAIR_CFG_load
  unfold Machine.loadsAt
  rw [hload, h.isSaw p]

theorem CompareSame.sampleCompare (st : Fin 4) : Machine.sampleCompare st y p = Machine.sampleCompare st s p := by
  have hn : pairN y p = pairN s p := fld_of_rd (h.period p) _
  have hstage : pairStage y p = pairStage s p := congrArg (Fin.ofNat 4) (fld_of_rd (h.cfg p) _)
  have hphase : phaseIndex y p = phaseIndex s p := by
    rw [phaseIndex, phaseIndex, hstage, pairsOf_congr h.cfg]
  unfold Machine.sampleCompare pairCmax
  rw [h.stages, hphase, h.isSaw p, hn]

end Same

/-- The compare values of a stage's sample reach its pairs. -/
def pairsCompared (st : Fin 4) (s : State) : State := forEach (pairsOf s st) (writeShadowCmp st) s

section Compared

variable (st : Fin 4) (s : State)

theorem compareSame_pairsCompared : CompareSame s (pairsCompared st s) :=
  forEach_keeps (P := CompareSame s) (fun p _ _ hy => hy.load (pairLoads_writeShadowCmp st p _)) ⟨rfl, rfl, rfl, rfl, fun _ _ => rfl⟩

theorem mem_pairCompares {l : List (Fin 12)} {p : Fin 12} (hp : p ∈ l) : Reg.PWM_PAIR_CMP p ∈ l.map (fun p => Reg.PWM_PAIR_CMP p) := by
  simp only [List.mem_map, List.pure_def, List.bind_eq_flatMap, List.mem_flatMap, List.mem_singleton]
  exact ⟨p, ⟨p, hp, rfl⟩, rfl⟩

theorem onlyRegs_pairsCompared : OnlyRegs ((pairsOf s st).map (fun p => Reg.PWM_PAIR_CMP p)) s (pairsCompared st s) := by
  refine forEach_keeps (P := OnlyRegs ((pairsOf s st).map (fun p => Reg.PWM_PAIR_CMP p)) s) (fun p hp y hy a ha => ?_) fun _ _ => rfl
  refine ((pairLoads_writeShadowCmp st p y).regs a fun h => ha ?_).trans (hy a ha)
  rw [h]
  exact mem_pairCompares hp

theorem pairsCompared_other {p : Fin 12} (hp : p ∉ pairsOf s st) : (pairsCompared st s).loop.pairs[p] = s.loop.pairs[p] :=
  forEach_keeps (P := fun y => y.loop.pairs[p] = s.loop.pairs[p])
    (fun q hq y hy => ((pairLoads_writeShadowCmp st q y).others p fun h => hp (h ▸ hq)).trans hy) rfl

/-- A pair of the stage takes its value once, from the state before all of them. -/
theorem pairsCompared_once {p : Fin 12} (hp : p ∈ pairsOf s st) : ∃ y, CompareSame s y ∧ y.loop.pairs[p] = s.loop.pairs[p] ∧
    (pairsCompared st s).loop.pairs[p] = (writeShadowCmp st p y).loop.pairs[p] ∧
    rd (pairsCompared st s) (Reg.PWM_PAIR_CMP p) = rd (writeShadowCmp st p y) (Reg.PWM_PAIR_CMP p) := by
  refine forEach_once (Pre := fun y => CompareSame s y ∧ y.loop.pairs[p] = s.loop.pairs[p])
    (Post := fun t => ∃ y, CompareSame s y ∧ y.loop.pairs[p] = s.loop.pairs[p] ∧ t.loop.pairs[p] = (writeShadowCmp st p y).loop.pairs[p] ∧
      rd t (Reg.PWM_PAIR_CMP p) = rd (writeShadowCmp st p y) (Reg.PWM_PAIR_CMP p))
    (pairsOf_nodup s st) hp (fun q _ hq y hy => ?_) (fun q _ hq t ht => ?_) (fun y hy => ⟨y, hy.1, hy.2, rfl, rfl⟩)
    ⟨⟨rfl, rfl, rfl, rfl, fun _ _ => rfl⟩, rfl⟩
  · have hloads := pairLoads_writeShadowCmp st q y
    exact ⟨hy.1.load hloads, (hloads.others p (Ne.symm hq)).trans hy.2⟩
  · obtain ⟨y, hy, hpair, hval, hcmp⟩ := ht
    have hloads := pairLoads_writeShadowCmp st q t
    refine ⟨y, hy, hpair, (hloads.others p (Ne.symm hq)).trans hval, (hloads.regs _ ?_).trans hcmp⟩
    simp only [Reg.PWM_PAIR_CMP, ne_eq]
    omega

/-- A pair without a load event at this tick keeps the value in its shadow. -/
theorem pairsCompared_waits {p : Fin 12} (hp : p ∈ pairsOf s st) (h : s.loop.pairs[p].running = false ∨
    (s.loop.pairs[p].valleyTick ≠ some s.ticks ∧ s.loop.pairs[p].peakTick ≠ some s.ticks)) :
    (pairsCompared st s).loop.pairs[p] = { s.loop.pairs[p] with shadow := some (sampleCompare st s p) } := by
  obtain ⟨y, hy, hpair, hval, -⟩ := pairsCompared_once st s hp
  rw [hval, writeShadowCmp_eq, hy.sampleCompare p, hpair, shadowTaken_waits, pairs_setPair]
  rw [pairs_setPair]
  show _ ∨ _ ≠ some y.ticks ∧ _ ≠ some y.ticks
  rw [hy.ticks]
  exact h

/-- A pair whose valley is at this tick has the value in force. -/
theorem pairsCompared_valley {p : Fin 12} (hp : p ∈ pairsOf s st) (hrun : s.loop.pairs[p].running = true)
    (hv : s.loop.pairs[p].valleyTick = some s.ticks) (hload : loadsAt s p false = true) :
    (pairsCompared st s).loop.pairs[p].shadow = none ∧
    pairCmp (pairsCompared st s) p = sampleCompare st s p % 2 ^ F.PWM_PAIR_CMP_c.w := by
  obtain ⟨y, hy, hpair, hval, hcmp⟩ := pairsCompared_once st s hp
  have hcmp' : pairCmp (pairsCompared st s) p = pairCmp (writeShadowCmp st p y) p := fld_of_rd hcmp _
  rw [hval, hcmp', writeShadowCmp_eq, hy.sampleCompare p, hpair]
  have hset := pairs_setPair p { s.loop.pairs[p] with shadow := some (sampleCompare st s p) } y
  have hticks : (setPair p { s.loop.pairs[p] with shadow := some (sampleCompare st s p) } y).ticks = s.ticks := hy.ticks
  have hload' : loadsAt (setPair p { s.loop.pairs[p] with shadow := some (sampleCompare st s p) } y) p false = true :=
    (hy.loadsAt p false).trans hload
  generalize setPair p { s.loop.pairs[p] with shadow := some (sampleCompare st s p) } y = x at hset hticks hload' ⊢
  rw [shadowTaken_valley (by rw [hset]; exact hrun) (by rw [hset, hticks]; exact hv) hload']
  obtain ⟨hc, hnone⟩ := loaded_carrierLoad (c := sampleCompare st s p) (by rw [hset]) hload'
  exact ⟨hnone, hc⟩

end Compared

/-! ### The output instant (R202) -/

theorem applyInner_none {st : Fin 4} {s : State} (h : s.loop.stages[st].innerNext = none) : applyInner st s = s := by
  unfold applyInner
  dsimp only
  rw [h]

/-- The phasor of the sample is published. -/
def phasorOut (st : Fin 4) (ph : Phasor) (s : State) : State :=
  setStage st { s.loop.stages[st] with published := ph, awaiting := none } s

theorem execOutputInstant_some {st : Fin 4} {ph : Phasor} {s : State} (hwait : s.loop.stages[st].awaiting = some ph)
    (hinner : s.loop.stages[st].innerNext = none) : execOutputInstant st s =
    .next (if s.loop.stages[st].hystOn then phasorOut st ph (reachOutput st s) else pairsCompared st (phasorOut st ph (reachOutput st s))) := by
  have hstages : (reachOutput st s).loop = s.loop := by
    unfold reachOutput
    dsimp only
    split <;> rfl
  unfold execOutputInstant
  dsimp only
  generalize reachOutput st s = x at hstages ⊢
  have hwait' : x.loop.stages[st].awaiting = some ph := by rw [hstages, hwait]
  have hout : (phasorOut st ph x).loop.stages[st].innerNext = none := by
    rw [phasorOut, stages_setStage, hstages, hinner]
  have hhyst : (phasorOut st ph x).loop.stages[st].hystOn = s.loop.stages[st].hystOn := by
    rw [phasorOut, stages_setStage, hstages]
  rw [hwait']
  dsimp only
  have happly : applyInner st (setStage st { x.loop.stages[st] with published := ph, awaiting := none } x) = phasorOut st ph x :=
    applyInner_none hout
  rw [happly, hhyst]
  split <;> rfl

theorem execOutputInstant_none {st : Fin 4} {s : State} (hwait : s.loop.stages[st].awaiting = none) :
    execOutputInstant st s = .next (applyInner st (reachOutput st s)) := by
  have hstages : (reachOutput st s).loop = s.loop := by
    unfold reachOutput
    dsimp only
    split <;> rfl
  unfold execOutputInstant
  dsimp only
  generalize reachOutput st s = x at hstages ⊢
  have hwait' : x.loop.stages[st].awaiting = none := by rw [hstages, hwait]
  rw [hwait']

theorem reachOutput_kept (st : Fin 4) (s : State) : (reachOutput st s).loop = s.loop ∧ (reachOutput st s).log = s.log ∧
    ∀ a, rd (reachOutput st s) a = rd s a := by
  unfold reachOutput
  dsimp only
  split <;> exact ⟨rfl, rfl, fun _ => rfl⟩

/-! ### The band DAC (R194, R195) -/

theorem bandCode_lt (i h : Rat) : bandCode i h < 4096 := by
  unfold bandCode
  omega

/-- The band DAC codes of an input written. -/
def bandWritten (a up low : Nat) (s : State) : State := setF (setF s a F.ADC_BAND_upper up) a F.ADC_BAND_lower low

theorem bandWritten_effect (a : Nat) {up low : Nat} (s : State) (hup : up < 4096) (hlow : low < 4096) :
    fld (bandWritten a up low s) a F.ADC_BAND_upper = up ∧ fld (bandWritten a up low s) a F.ADC_BAND_lower = low ∧
    ∀ b, b ≠ a → rd (bandWritten a up low s) b = rd s b := by
  refine ⟨?_, ?_, fun b hb => (rd_setF_ne _ _ _ hb).trans (rd_setF_ne _ _ _ hb)⟩
  · rw [bandWritten, fld_setF_disj _ _ _ _ _ (by decide), fld_setF _ _ _ _ (by decide)]
    exact Nat.mod_eq_of_lt hup
  · rw [bandWritten, fld_setF _ _ _ _ (by decide)]
    exact Nat.mod_eq_of_lt hlow

theorem noteAccSat_shown (st : Fin 4) (c : Nat) (s : State) :
    flg (noteAccSat st c true s) (Reg.CTRL_STAGE_FLAGS st) F.CTRL_STAGE_FLAGS_acc_sat = true ∧ (noteAccSat st c true s).tai = s.tai := by
  have hne : Reg.CTRL_STAGE_FLAGS st ≠ Reg.CMD_STATUS ∧ Reg.CTRL_STAGE_FLAGS st ≠ Reg.CMD_EVT_LOST := by
    simp only [Reg.CTRL_STAGE_FLAGS, Reg.CMD_STATUS, Reg.CMD_EVT_LOST]
    omega
  have hset : flg (setF s (Reg.CTRL_STAGE_FLAGS st) F.CTRL_STAGE_FLAGS_acc_sat 1) (Reg.CTRL_STAGE_FLAGS st) F.CTRL_STAGE_FLAGS_acc_sat = true :=
    (flg_setF _ _ _ _ (by decide)).trans (by decide)
  have htai : (setF s (Reg.CTRL_STAGE_FLAGS st) F.CTRL_STAGE_FLAGS_acc_sat 1).tai = s.tai := rfl
  unfold noteAccSat
  rw [if_pos rfl]
  dsimp only
  generalize setF s (Reg.CTRL_STAGE_FLAGS st) F.CTRL_STAGE_FLAGS_acc_sat 1 = x at hset htai ⊢
  unfold whenS
  split
  · exact ⟨(flg_of_rd (rd_logEvent _ _ _ _ hne.1 hne.2) _).trans hset, (logEvent_tai ..).trans htai⟩
  · exact ⟨hset, htai⟩

/-- The counter at the next band update of a pair. -/
def bandReached (p : Fin 12) (s : State) : State := advanceTo s (gridNext s 0 2000 (s.loop.pairs[p]).bandTick)

/-- The pair with the voltages of a band update. -/
def bandPair (p : Fin 12) (vdc v : BitVec 16) (ok : Bool) (s : State) : PairState :=
  if ok then { s.loop.pairs[p] with bandTick := some (bandReached p s).ticks, vdc := q15 vdc, vin := q15 v }
  else { s.loop.pairs[p] with bandTick := some (bandReached p s).ticks }

/-- The reference of a band update in Q15 full scales (R194). -/
def bandRef (p : Fin 12) (s : State) : Rat :=
  let st := pairStage s p
  let ph := s.loop.stages[st].published
  let th := ph.theta + ph.omega * ((localNs (bandReached p s) - ph.since : Nat) : Rat) / 1000000000
  if isDq s st then phaseOf ph.w0 ph.w1 th (phaseIndex s p) else q15Rat ph.w0

/-- The half-width of a band update, and whether the accumulator saturated. -/
def bandHalf (p : Fin 12) (vdc v : BitVec 16) (ok : Bool) (s : State) : Rat × Bool :=
  let st := pairStage s p
  if ok then halfWidth s st vdc.toInt v.toInt else halfWidth s st (s.loop.pairs[p]).vdc (s.loop.pairs[p]).vin

/-- The register of the band DAC of a pair's input. -/
def bandReg (p : Fin 12) (s : State) : Nat := Reg.ADC_BAND (fld s (Reg.PWM_PAIR_CFG p) F.PWM_PAIR_CFG_ain)

theorem bandReg_bounds (p : Fin 12) (s : State) : 0x40040240 ≤ bandReg p s ∧ bandReg p s < 0x40040280 := by
  have hlt : fld s (Reg.PWM_PAIR_CFG p) F.PWM_PAIR_CFG_ain < 16 := fld_lt _ _ _
  unfold bandReg
  simp only [Reg.ADC_BAND]
  omega

theorem halfWidth_congr {s x : State} (h : x.regs = s.regs) (st : Fin 4) (a b : Int) : halfWidth x st a b = halfWidth s st a b := by
  have hfld : ∀ a G, fld x a G = fld s a G := fun a G => fld_of_regs h a G
  have hrd : ∀ a, rd x a = rd s a := fun a => by rw [rd, rd, h]
  unfold halfWidth isDq stageKind
  simp only [hfld, hrd]

/-- The half-width on the pair's latest voltages. -/
theorem bandHalf_pair (p : Fin 12) (vdc v : BitVec 16) (ok : Bool) {s x : State} (hregs : x.regs = s.regs) :
    halfWidth x (pairStage s p) (bandPair p vdc v ok s).vdc (bandPair p vdc v ok s).vin = bandHalf p vdc v ok s := by
  rw [halfWidth_congr hregs]
  cases ok <;> rfl

/-- The update of a pair's band from the state in which it holds its voltages. -/
def bandUpdated (p : Fin 12) (st : Fin 4) (ph : Phasor) (s : State) : State :=
  let y := s.loop.pairs[p]
  let th := ph.theta + ph.omega * ((localNs s - ph.since : Nat) : Rat) / 1000000000
  let i := if isDq s st then phaseOf ph.w0 ph.w1 th (phaseIndex s p) else q15Rat ph.w0
  let h := halfWidth s st y.vdc y.vin
  let s := noteAccSat st 0xFF h.2 s
  bandWritten (Reg.ADC_BAND (fld s (Reg.PWM_PAIR_CFG p) F.PWM_PAIR_CFG_ain)) (bandCode i h.1) (bandCode i (-h.1)) s

theorem execBandUpdate_runs {p : Fin 12} {vdc v : BitVec 16} {ok : Bool} {s : State} (hmode : pairMode s p ≠ 0)
    (hhyst : s.loop.stages[pairStage s p].hystOn = true) : execBandUpdate p vdc v ok s =
    .next (bandUpdated p (pairStage s p) s.loop.stages[pairStage s p].published (setPair p (bandPair p vdc v ok s) (bandReached p s))) := by
  unfold execBandUpdate
  rw [if_neg (by rw [hhyst]; exact fun h => h.elim hmode Bool.false_ne_true)]
  rfl

theorem bandUpdated_eq {p : Fin 12} {vdc v : BitVec 16} {ok : Bool} {s x : State} (hregs : x.regs = s.regs)
    (hticks : x.ticks = (bandReached p s).ticks) (hpair : x.loop.pairs[p] = bandPair p vdc v ok s) :
    bandUpdated p (pairStage s p) s.loop.stages[pairStage s p].published x =
    bandWritten (bandReg p s) (bandCode (bandRef p s) (bandHalf p vdc v ok s).1) (bandCode (bandRef p s) (-(bandHalf p vdc v ok s).1))
      (noteAccSat (pairStage s p) 0xFF (bandHalf p vdc v ok s).2 x) := by
  have hhalf := bandHalf_pair p vdc v ok hregs
  have hrd : ∀ a, rd x a = rd s a := fun a => by rw [rd, rd, hregs]
  have hdq : ∀ st : Fin 4, isDq x st = isDq s st := fun st => by rw [isDq, isDq, stageKind, stageKind, fld_of_regs hregs]
  have hphase : phaseIndex x p = phaseIndex s p := by
    have hst : pairStage x p = pairStage s p := congrArg (Fin.ofNat 4) (fld_of_regs hregs _ _)
    rw [phaseIndex, phaseIndex, hst, pairsOf_congr fun q => hrd _]
  have hreg : ∀ sat, Reg.ADC_BAND (fld (noteAccSat (pairStage s p) 0xFF sat x) (Reg.PWM_PAIR_CFG p) F.PWM_PAIR_CFG_ain) = bandReg p s :=
    fun sat => by
      have hev := noteAccSat_ev (c := 0xFF) (sat := sat) (foot_self _) (pairStage s p).isLt (Ev.refl _ x)
      have hblock : ∀ q : Fin 12, blockAt (Reg.PWM_PAIR_CFG q) = some .pwm := by decide
      rw [bandReg, fld_of_rd ((rd_of_ev hev rfl (hblock p) rfl).trans (hrd _))]
  unfold bandUpdated bandRef
  dsimp only
  rw [hpair, hhalf, hreg, localNs_of_ticks hticks, hphase, hdq]

theorem bandUpdate_effect {p : Fin 12} {vdc v : BitVec 16} {ok : Bool} {s : State} (hmode : pairMode s p ≠ 0)
    (hhyst : s.loop.stages[pairStage s p].hystOn = true) : ∃ t, execBandUpdate p vdc v ok s = .next t ∧ t.tai = (bandReached p s).tai ∧
    fld t (bandReg p s) F.ADC_BAND_upper = bandCode (bandRef p s) (bandHalf p vdc v ok s).1 ∧
    fld t (bandReg p s) F.ADC_BAND_lower = bandCode (bandRef p s) (-(bandHalf p vdc v ok s).1) ∧
    ((bandHalf p vdc v ok s).2 = false → OnlyRegs [bandReg p s] s t ∧ t.log = s.log) ∧
    ((bandHalf p vdc v ok s).2 = true → flg t (Reg.CTRL_STAGE_FLAGS (pairStage s p)) F.CTRL_STAGE_FLAGS_acc_sat = true) := by
  have hexec := execBandUpdate_runs (vdc := vdc) (v := v) (ok := ok) hmode hhyst
  have hregs : (setPair p (bandPair p vdc v ok s) (bandReached p s)).regs = s.regs := rfl
  have hlog : (setPair p (bandPair p vdc v ok s) (bandReached p s)).log = s.log := rfl
  have htai : (setPair p (bandPair p vdc v ok s) (bandReached p s)).tai = (bandReached p s).tai := rfl
  have hticks : (setPair p (bandPair p vdc v ok s) (bandReached p s)).ticks = (bandReached p s).ticks := rfl
  have hpair : (setPair p (bandPair p vdc v ok s) (bandReached p s)).loop.pairs[p] = bandPair p vdc v ok s := pairs_setPair ..
  generalize setPair p (bandPair p vdc v ok s) (bandReached p s) = x at hexec hregs hlog htai hticks hpair
  rw [bandUpdated_eq hregs hticks hpair] at hexec
  generalize bandRef p s = i at hexec ⊢
  generalize bandHalf p vdc v ok s = h at hexec ⊢
  obtain ⟨hup, hlow, hrd⟩ := bandWritten_effect (bandReg p s) (noteAccSat (pairStage s p) 0xFF h.2 x) (bandCode_lt i h.1) (bandCode_lt i (-h.1))
  have hkept : (bandWritten (bandReg p s) (bandCode i h.1) (bandCode i (-h.1)) (noteAccSat (pairStage s p) 0xFF h.2 x)).tai =
      (noteAccSat (pairStage s p) 0xFF h.2 x).tai ∧
    (bandWritten (bandReg p s) (bandCode i h.1) (bandCode i (-h.1)) (noteAccSat (pairStage s p) 0xFF h.2 x)).log =
      (noteAccSat (pairStage s p) 0xFF h.2 x).log := ⟨rfl, rfl⟩
  have hev := noteAccSat_ev (c := 0xFF) (sat := h.2) (foot_self _) (pairStage s p).isLt (Ev.refl _ x)
  have htai' : (noteAccSat (pairStage s p) 0xFF h.2 x).tai = x.tai := keeps_of_ev hev (p := .tai) rfl
  refine ⟨_, hexec, hkept.1.trans (htai'.trans htai), hup, hlow, fun hsat => ?_, fun hsat => ?_⟩
  · have hnone : noteAccSat (pairStage s p) 0xFF h.2 x = x := by rw [hsat]; rfl
    rw [hnone] at hrd hkept ⊢
    refine ⟨fun a ha => (hrd a (by simpa using ha)).trans (by rw [rd, rd, hregs]), hkept.2.trans hlog⟩
  · have hne : Reg.CTRL_STAGE_FLAGS (pairStage s p) ≠ bandReg p s := by
      obtain ⟨-, hhi⟩ := bandReg_bounds p s
      simp only [Reg.CTRL_STAGE_FLAGS]
      omega
    have hshown := (noteAccSat_shown (pairStage s p) 0xFF x).1
    rw [flg_of_rd (hrd _ hne), hsat, hshown]

/-! ### The generators (R191, R204) -/

section Generator

variable {g : Fin 16} {s : State}

theorem prof_setProf (x : ProfState) : (setProf g x s).loop.prof[g] = x := by simp [setProf]

theorem q15Bits_lt (v : Int) : q15Bits v < 65536 := (BitVec.ofInt 16 v).isLt

/-- A generator's output register shows the output, and nothing else changes. -/
theorem showProf_effect (g : Fin 16) (s : State) : (showProf g s).loop = s.loop ∧ (showProf g s).log = s.log ∧
    OnlyRegs [Reg.CTRL_PROF_OUT g] s (showProf g s) ∧
    fld (showProf g s) (Reg.CTRL_PROF_OUT g) F.CTRL_PROF_OUT_x = q15Bits (ratQ15 s.loop.prof[g].x) := by
  unfold showProf
  dsimp only
  refine ⟨rfl, rfl, fun a ha => ?_, ?_⟩
  · have hne : a ≠ Reg.CTRL_PROF_OUT g := by simpa using ha
    rw [rd_setF_ne _ _ _ hne, rd_setF_ne _ _ _ hne, rd_setF_ne _ _ _ hne]
  · rw [fld_setF_disj _ _ _ _ _ (by decide), fld_setF_disj _ _ _ _ _ (by decide), fld_setF _ _ _ _ (by decide)]
    exact Nat.mod_eq_of_lt (q15Bits_lt _)

theorem moveProf_effect (g : Fin 16) (m : Motion) (s : State) : (moveProf g m s).loop.stages = s.loop.stages ∧
    (moveProf g m s).loop.prof[g] = { x := m.x, v := m.v, a := m.a, steps := s.loop.prof[g].steps + 1 } ∧
    (moveProf g m s).log = s.log ∧ OnlyRegs [Reg.CTRL_PROF_OUT g] s (moveProf g m s) ∧
    fld (moveProf g m s) (Reg.CTRL_PROF_OUT g) F.CTRL_PROF_OUT_x = q15Bits (ratQ15 m.x) := by
  have hprof : (setProf g { x := m.x, v := m.v, a := m.a, steps := s.loop.prof[g].steps + 1 } s).loop.prof[g] =
    { x := m.x, v := m.v, a := m.a, steps := s.loop.prof[g].steps + 1 } := prof_setProf ..
  have hkept : (setProf g { x := m.x, v := m.v, a := m.a, steps := s.loop.prof[g].steps + 1 } s).loop.stages = s.loop.stages ∧
    (setProf g { x := m.x, v := m.v, a := m.a, steps := s.loop.prof[g].steps + 1 } s).log = s.log ∧
    ∀ a, rd (setProf g { x := m.x, v := m.v, a := m.a, steps := s.loop.prof[g].steps + 1 } s) a = rd s a := ⟨rfl, rfl, fun _ => rfl⟩
  unfold moveProf
  generalize setProf g { x := m.x, v := m.v, a := m.a, steps := s.loop.prof[g].steps + 1 } s = y at hprof hkept ⊢
  obtain ⟨hloop, hlog, honly, hx⟩ := showProf_effect g y
  refine ⟨by rw [hloop, hkept.1], by rw [hloop, hprof], hlog.trans hkept.2.1, fun a ha => (honly a ha).trans (hkept.2.2 a), ?_⟩
  rw [hx, hprof]

/-- The profile step of a generator of host software. -/
def hostTarget (g : Fin 16) (s : State) : Rat := q15Rat (hiQ15 (rd s (Reg.CTRL_PROF_CFG g)))

theorem hostStep_rests (h : ¬ (flg s (Reg.CTRL_PROF_CFG g) F.CTRL_PROF_CFG_en = true ∧
    ¬ (s.loop.prof[g].x = hostTarget g s ∧ s.loop.prof[g].v = 0 ∧ s.loop.prof[g].a = 0))) : hostStep g s = s := by
  unfold hostStep
  by_cases hen : flg s (Reg.CTRL_PROF_CFG g) F.CTRL_PROF_CFG_en = true
  · rw [hen, if_neg (by decide)]
    exact if_pos (not_not.1 fun hrest => h ⟨hen, hrest⟩)
  · rw [Bool.eq_false_iff.2 hen]
    exact if_pos rfl

theorem hostStep_moves (hen : flg s (Reg.CTRL_PROF_CFG g) F.CTRL_PROF_CFG_en = true)
    (hmove : ¬ (s.loop.prof[g].x = hostTarget g s ∧ s.loop.prof[g].v = 0 ∧ s.loop.prof[g].a = 0)) : hostStep g s =
    moveProf g (profileStep ⟨lim24 (rd s (Reg.CTRL_PROF_VMAX g)), lim24 (rd s (Reg.CTRL_PROF_AMAX g)), lim24 (rd s (Reg.CTRL_PROF_JMAX g))⟩
      ⟨s.loop.prof[g].x, s.loop.prof[g].v, s.loop.prof[g].a⟩ (hostTarget g s) (profPeriod s g / 1000000000)) s := by
  unfold hostStep
  rw [hen, if_neg (by decide)]
  exact if_neg hmove

/-- The end of a blend frees its generator. -/
theorem endBlend_effect {st : Fin 4} (h : s.loop.stages[st].blend = some g) :
    (endBlend st s).loop.stages[st].blend = none ∧ (endBlend st s).loop.stages[st].residual = #v[0, 0] ∧
    fld (endBlend st s) (Reg.CTRL_PROF_CFG g) F.CTRL_PROF_CFG_user = userHost ∧
    flg (endBlend st s) (Reg.CTRL_STAGE_STATE st) F.CTRL_STAGE_STATE_blending = false := by
  have hstage := stages_setStage st { s.loop.stages[st] with blend := none, residual := #v[0, 0] } s
  unfold endBlend
  dsimp only
  rw [h]
  dsimp only
  generalize setStage st { s.loop.stages[st] with blend := none, residual := #v[0, 0] } s = x at hstage ⊢
  have heres : (setEResid st 0 x).loop = x.loop := by
    unfold setEResid
    split
    · rfl
    · split <;> rfl
  generalize setEResid st 0 x = y at heres ⊢
  have hblend : flg (setF y (Reg.CTRL_STAGE_STATE st) F.CTRL_STAGE_STATE_blending 0) (Reg.CTRL_STAGE_STATE st) F.CTRL_STAGE_STATE_blending = false :=
    (flg_setF _ _ _ _ (by decide)).trans (by decide)
  have hloop : (setF y (Reg.CTRL_STAGE_STATE st) F.CTRL_STAGE_STATE_blending 0).loop = x.loop := heres
  generalize setF y (Reg.CTRL_STAGE_STATE st) F.CTRL_STAGE_STATE_blending 0 = z at hblend hloop ⊢
  unfold freeProf takeProf
  dsimp only
  have huser : fld (setF (setF z (Reg.CTRL_PROF_CFG g) F.CTRL_PROF_CFG_user userHost) (Reg.CTRL_PROF_CFG g) F.CTRL_PROF_CFG_target (q15Bits 0))
      (Reg.CTRL_PROF_CFG g) F.CTRL_PROF_CFG_user = userHost := by
    rw [fld_setF_disj _ _ _ _ _ (by decide), fld_setF _ _ _ _ (by decide)]
    rfl
  have hblend' : flg (setF (setF z (Reg.CTRL_PROF_CFG g) F.CTRL_PROF_CFG_user userHost) (Reg.CTRL_PROF_CFG g) F.CTRL_PROF_CFG_target (q15Bits 0))
      (Reg.CTRL_STAGE_STATE st) F.CTRL_STAGE_STATE_blending = false := by
    have hne : Reg.CTRL_STAGE_STATE st ≠ Reg.CTRL_PROF_CFG g := by
      simp only [Reg.CTRL_STAGE_STATE, Reg.CTRL_PROF_CFG]
      omega
    rw [flg_setF_ne _ _ _ _ hne, flg_setF_ne _ _ _ _ hne, hblend]
  have hloop' : (setF (setF z (Reg.CTRL_PROF_CFG g) F.CTRL_PROF_CFG_user userHost) (Reg.CTRL_PROF_CFG g) F.CTRL_PROF_CFG_target (q15Bits 0)).loop =
    x.loop := hloop
  generalize setF (setF z (Reg.CTRL_PROF_CFG g) F.CTRL_PROF_CFG_user userHost) (Reg.CTRL_PROF_CFG g) F.CTRL_PROF_CFG_target (q15Bits 0) = w
    at huser hblend' hloop' ⊢
  have hset : (setProf g { x := 0, v := 0, a := 0, steps := 0 } w).loop.stages = x.loop.stages := by rw [← hloop']; rfl
  have hrd : ∀ a, rd (setProf g { x := 0, v := 0, a := 0, steps := 0 } w) a = rd w a := fun _ => rfl
  generalize setProf g { x := 0, v := 0, a := 0, steps := 0 } w = u at hset hrd ⊢
  obtain ⟨hshow, -, honly, -⟩ := showProf_effect g u
  refine ⟨by rw [hshow, hset, hstage], by rw [hshow, hset, hstage], ?_, ?_⟩
  · rw [fld_of_rd ((honly _ (by simp only [List.mem_singleton, Reg.CTRL_PROF_CFG, Reg.CTRL_PROF_OUT]; omega)).trans (hrd _)), huser]
  · rw [flg_of_rd ((honly _ (by simp only [List.mem_singleton, Reg.CTRL_STAGE_STATE, Reg.CTRL_PROF_OUT]; omega)).trans (hrd _)), hblend']

end Generator

theorem blend_of_blendStage {g : Fin 16} {st : Fin 4} {s : State} (h : blendStage s g = some st) : s.loop.stages[st].blend = some g := by
  have := List.find?_some h
  simpa using this

/-- What a generator's own step does, its period reached. -/
def profStepped (g : Fin 16) (s : State) : State :=
  let u := fld s (Reg.CTRL_PROF_CFG g) F.CTRL_PROF_CFG_user
  if u = userBlend then
    match blendStage s g with
    | none => s
    | some st => blendStep g st s
  else if u = userGfm then rampStep (if g = 7 then 0 else 1) s
  else if g = 15 ∧ stageKind s 3 = kindVarFreq then vfProfStep s
  else hostStep g s

theorem execProfileStep_eq (g : Fin 16) (s : State) : execProfileStep g s = .next (profStepped g (reachPeriod g s)) := by
  unfold execProfileStep profStepped
  dsimp only
  generalize reachPeriod g s = x
  split
  · cases blendStage x g <;> rfl
  · split
    · rfl
    · split <;> rfl

theorem tai_profStepped (g : Fin 16) (s : State) : (profStepped g s).tai = s.tai := by
  unfold profStepped
  dsimp only
  split
  · split
    · rfl
    · exact keeps_of_ev (blendStep_ev (foot_self _) (Ev.refl _ s)) (p := .tai) rfl
  · split
    · exact keeps_of_ev (rampStep_ev (foot_self _) (Ev.refl _ s)) (p := .tai) rfl
    · split
      · exact keeps_of_ev (vfProfStep_ev (foot_self _) (Ev.refl _ s)) (p := .tai) rfl
      · exact keeps_of_ev (hostStep_ev (foot_self _) (Ev.refl _ s)) (p := .tai) rfl

theorem profStepped_host {g : Fin 16} {s : State} (hu : fld s (Reg.CTRL_PROF_CFG g) F.CTRL_PROF_CFG_user = userHost)
    (hvf : ¬ (g = 15 ∧ stageKind s 3 = kindVarFreq)) : profStepped g s = hostStep g s := by
  unfold profStepped
  dsimp only
  rw [hu, if_neg (by decide), if_neg (by decide), if_neg hvf]

theorem profStepped_blend {g : Fin 16} {st : Fin 4} {s : State} (hu : fld s (Reg.CTRL_PROF_CFG g) F.CTRL_PROF_CFG_user = userBlend)
    (hst : blendStage s g = some st) : profStepped g s = blendStep g st s := by
  unfold profStepped
  dsimp only
  rw [hu, if_pos rfl, hst]

end Sys2Proof.Machine

namespace Sys2Proof.Proofs

open Sys2Proof Sys2Proof.Machine Sys2Proof.Safety Sys2Proof.Laws

/-- The pairs of a stage after its output instant. -/
structure PairsOut (st : Fin 4) (s t : State) (ticks : Nat) : Prop where
  others : ∀ p : Fin 12, p ∉ pairsOf s st → t.loop.pairs[p] = s.loop.pairs[p]
  waits : ∀ p : Fin 12, p ∈ pairsOf s st →
    s.loop.pairs[p].running = false ∨ (s.loop.pairs[p].valleyTick ≠ some ticks ∧ s.loop.pairs[p].peakTick ≠ some ticks) →
    t.loop.pairs[p] = { s.loop.pairs[p] with shadow := some (sampleCompare st s p) }
  valley : ∀ p : Fin 12, p ∈ pairsOf s st → s.loop.pairs[p].running = true → s.loop.pairs[p].valleyTick = some ticks →
    loadsAt s p false = true → t.loop.pairs[p].shadow = none ∧ pairCmp t p = sampleCompare st s p % 2 ^ F.PWM_PAIR_CMP_c.w

/-- The pairs, the registers and the samples of the pairs' values before and after the phasor is published. -/
structure PhasorOut (st : Fin 4) (ph : Phasor) (s x : State) : Prop where
  published : x.loop.stages[st].published = ph
  awaiting : x.loop.stages[st].awaiting = none
  pairs : x.loop.pairs = s.loop.pairs
  log : x.log = s.log
  regs : ∀ a, rd x a = rd s a
  compare : ∀ p, sampleCompare st x p = sampleCompare st s p

theorem phasorOut_reachOutput (st : Fin 4) (ph : Phasor) (s : State) : PhasorOut st ph s (phasorOut st ph (reachOutput st s)) := by
  obtain ⟨hloop, hlog, hregs⟩ := reachOutput_kept st s
  generalize reachOutput st s = x at hloop hlog hregs
  have hstage : (phasorOut st ph x).loop.stages[st] = { s.loop.stages[st] with published := ph, awaiting := none } := by
    rw [phasorOut, stages_setStage, hloop]
  have hpairs : x.loop.pairs = s.loop.pairs := by rw [hloop]
  refine ⟨by rw [hstage], by rw [hstage], hpairs, hlog, hregs, fun p => ?_⟩
  have hmods : (phasorOut st ph x).loop.stages[st].mods = s.loop.stages[st].mods := by rw [hstage]
  have hrd : ∀ a, rd (phasorOut st ph x) a = rd s a := hregs
  generalize phasorOut st ph x = y at hmods hrd
  have hsaw : isSaw y p = isSaw s p := flg_of_rd (hrd _) _
  have hn : pairN y p = pairN s p := fld_of_rd (hrd _) _
  have hst : pairStage y p = pairStage s p := congrArg (Fin.ofNat 4) (fld_of_rd (hrd _) _)
  have hphase : phaseIndex y p = phaseIndex s p := by
    rw [phaseIndex, phaseIndex, hst, pairsOf_congr fun q => hrd _]
  unfold sampleCompare pairCmax
  rw [hmods, hphase, hsaw, hn]

theorem pairsOut_pairsCompared {st : Fin 4} {ph : Phasor} {s x : State} (hx : PhasorOut st ph s x) : PairsOut st s (pairsCompared st x) x.ticks := by
  have hpairs : pairsOf x st = pairsOf s st := pairsOf_congr (fun p => hx.regs _) st
  refine ⟨fun p hp => ?_, fun p hp hw => ?_, fun p hp hrun hv hload => ?_⟩
  · rw [pairsCompared_other st x (by rw [hpairs]; exact hp), hx.pairs]
  · rw [pairsCompared_waits st x (by rw [hpairs]; exact hp) (by rw [hx.pairs]; exact hw), hx.compare, hx.pairs]
  · have h := pairsCompared_valley st x (p := p) (by rw [hpairs]; exact hp) (by rw [hx.pairs]; exact hrun) (by rw [hx.pairs]; exact hv)
      ((loadsAt_congr hx.regs false).trans hload)
    rw [hx.compare] at h
    exact h

theorem outputInstant_effect {st : Fin 4} {ph : Phasor} {s : State} (hwait : s.loop.stages[st].awaiting = some ph)
    (hinner : s.loop.stages[st].innerNext = none) :
    ∃ t, exec (.outputInstant st) s = .next t ∧ t.loop.stages[st].published = ph ∧ t.loop.stages[st].awaiting = none ∧
      t.tai = (reachOutput st s).tai ∧ OnlyRegs ((pairsOf s st).map (fun p => Reg.PWM_PAIR_CMP p)) s t ∧ t.log = s.log ∧
      (s.loop.stages[st].hystOn = true → t.loop.pairs = s.loop.pairs) ∧
      (s.loop.stages[st].hystOn = false → PairsOut st s t (reachOutput st s).ticks) := by
  have hexec : exec (.outputInstant st) s = _ := execOutputInstant_some hwait hinner
  have hout := phasorOut_reachOutput st ph s
  have htai : (phasorOut st ph (reachOutput st s)).tai = (reachOutput st s).tai := rfl
  have hticks : (phasorOut st ph (reachOutput st s)).ticks = (reachOutput st s).ticks := rfl
  generalize phasorOut st ph (reachOutput st s) = x at hexec hout htai hticks
  by_cases hhyst : s.loop.stages[st].hystOn = true
  · rw [if_pos hhyst] at hexec
    exact ⟨x, hexec, hout.published, hout.awaiting, htai, fun a _ => hout.regs a, hout.log, fun _ => hout.pairs,
      fun h => absurd (h.symm.trans hhyst) Bool.false_ne_true⟩
  · rw [if_neg hhyst] at hexec
    have hsame := compareSame_pairsCompared st x
    have honly := onlyRegs_pairsCompared st x
    have hpairs := pairsOut_pairsCompared hout
    rw [pairsOf_congr (fun p => hout.regs _)] at honly
    rw [hticks] at hpairs
    refine ⟨_, hexec, ?_, ?_, hsame.tai.trans htai, fun a ha => (honly a ha).trans (hout.regs a), hsame.log.trans hout.log,
      fun h => absurd h hhyst, fun _ => hpairs⟩
    · rw [hsame.stages, hout.published]
    · rw [hsame.stages, hout.awaiting]

theorem hostStep_effect {g : Fin 16} {s : State} (hu : fld s (Reg.CTRL_PROF_CFG g) F.CTRL_PROF_CFG_user = userHost)
    (hvf : ¬ (g = 15 ∧ stageKind s 3 = kindVarFreq)) :
    let moves := flg s (Reg.CTRL_PROF_CFG g) F.CTRL_PROF_CFG_en = true ∧
      ¬ (s.loop.prof[g].x = hostTarget g s ∧ s.loop.prof[g].v = 0 ∧ s.loop.prof[g].a = 0)
    (¬ moves → profStepped g s = s) ∧
    (moves → Motion.mk (profStepped g s).loop.prof[g].x (profStepped g s).loop.prof[g].v (profStepped g s).loop.prof[g].a = profileStep
        ⟨lim24 (rd s (Reg.CTRL_PROF_VMAX g)), lim24 (rd s (Reg.CTRL_PROF_AMAX g)), lim24 (rd s (Reg.CTRL_PROF_JMAX g))⟩
        ⟨s.loop.prof[g].x, s.loop.prof[g].v, s.loop.prof[g].a⟩ (hostTarget g s) (profPeriod s g / 1000000000) ∧
      fld (profStepped g s) (Reg.CTRL_PROF_OUT g) F.CTRL_PROF_OUT_x = q15Bits (ratQ15 (profStepped g s).loop.prof[g].x) ∧
      OnlyRegs [Reg.CTRL_PROF_OUT g] s (profStepped g s) ∧ (profStepped g s).log = s.log) := by
  rw [profStepped_host hu hvf]
  refine ⟨hostStep_rests, fun hmoves => ?_⟩
  rw [hostStep_moves hmoves.1 hmoves.2]
  generalize profileStep _ _ _ _ = m
  obtain ⟨-, hprof, hlog, honly, hx⟩ := moveProf_effect g m s
  exact ⟨by rw [hprof], by rw [hprof]; exact hx, honly, hlog⟩

theorem blendStep_effect {g : Fin 16} {st : Fin 4} {s : State} (hu : fld s (Reg.CTRL_PROF_CFG g) F.CTRL_PROF_CFG_user = userBlend)
    (hst : blendStage s g = some st) :
    (fld s (Reg.CTRL_HOVER_CFG st) F.CTRL_HOVER_CFG_t_blend * 100000 ≤ (s.loop.prof[g].steps + 1) * profPeriod s g →
      (profStepped g s).loop.stages[st].blend = none ∧ (profStepped g s).loop.stages[st].residual = #v[0, 0] ∧
      fld (profStepped g s) (Reg.CTRL_PROF_CFG g) F.CTRL_PROF_CFG_user = userHost ∧
      flg (profStepped g s) (Reg.CTRL_STAGE_STATE st) F.CTRL_STAGE_STATE_blending = false) ∧
    ((s.loop.prof[g].steps + 1) * profPeriod s g < fld s (Reg.CTRL_HOVER_CFG st) F.CTRL_HOVER_CFG_t_blend * 100000 →
      (profStepped g s).loop.stages[st].blend = some g ∧ (profStepped g s).loop.prof[g].steps = s.loop.prof[g].steps + 1) := by
  have hblend := blend_of_blendStage hst
  rw [profStepped_blend hu hst, blendStep]
  refine ⟨fun h => ?_, fun h => ?_⟩
  · rw [if_pos h]
    exact endBlend_effect hblend
  · rw [if_neg (Nat.not_le.2 h), timedStep, stepProf]
    generalize profileStep _ _ _ _ = m
    obtain ⟨hstages, hprof, -, -, -⟩ := moveProf_effect g m s
    exact ⟨by rw [hstages, hblend], by rw [hprof]⟩

/-- Settles O42: an output instant takes each pair of its stage once; a band update writes one DAC register; a generator steps by
its user. -/
theorem loopOutputs : Obligations.LoopOutputs := by
  unfold Obligations.LoopOutputs
  refine ⟨fun st ph s hwait hinner => ?_, fun st s hwait => execOutputInstant_none hwait, fun p vdc v ok s => ⟨fun h => ?_, fun h => ?_⟩,
    fun g s => ⟨_, execProfileStep_eq g s, tai_profStepped g _, fun hu hvf => ?_, fun st hu hst => ?_⟩⟩
  · obtain ⟨t, hexec, hpub, hawait, htai, honly, hlog, hon, hoff⟩ := outputInstant_effect hwait hinner
    refine ⟨t, hexec, hpub, hawait, htai, honly, hlog, hon, fun h p => ⟨(hoff h).others p, fun hp => ⟨(hoff h).waits p hp, ?_⟩⟩⟩
    exact (hoff h).valley p hp
  · show execBandUpdate p vdc v ok s = _
    unfold execBandUpdate
    refine if_pos ?_
    rw [Bool.not_eq_true', ← Bool.not_eq_true, or_iff_not_imp_left]
    exact fun hmode hhyst => h ⟨hmode, hhyst⟩
  · exact bandUpdate_effect h.1 h.2
  · exact hostStep_effect (s := reachPeriod g s) hu hvf
  · exact blendStep_effect (s := reachPeriod g s) hu hst

end Sys2Proof.Proofs
end


section
/-! PROOFS. The states of grid forming: a change of state and the requests of GFM_CMD_s (R236 to R238). -/

namespace Sys2Proof.Machine

open Sys2Proof Sys2Proof.Safety Sys2Proof.Laws

/-! ### Records -/

section Records

variable (g : Fin 2) (x : GfmStage) (s : State)

theorem stages_setGfm : (setGfm g x s).gfm.stages[g] = x := by simp [setGfm]

theorem contState_ne : Reg.GFM_STATE (2 * g) ≠ Reg.FIO_DO_STATE ∧ Reg.GFM_STATE (2 * g) ≠ Reg.CMD_STATUS ∧
    Reg.GFM_STATE (2 * g) ≠ Reg.CMD_EVT_LOST := by
  simp only [Reg.GFM_STATE, Reg.FIO_DO_STATE, Reg.CMD_STATUS, Reg.CMD_EVT_LOST]
  omega

end Records

/-! ### The contactor command -/

theorem rd_refreshDo (s : State) {a : Nat} (h : a ≠ Reg.FIO_DO_STATE) : rd (refreshDo s) a = rd s a := rd_setF_ne _ _ _ h

/-- What a change of the contactor command does. -/
structure ContactorSet (g : Fin 2) (b : Bool) (s t : State) : Prop where
  closed : contClosed t g = b
  fields : ∀ G : Fld, G.lo + G.w ≤ F.GFM_STATE_cont_cmd.lo ∨ F.GFM_STATE_cont_cmd.lo + F.GFM_STATE_cont_cmd.w ≤ G.lo →
    fld t (Reg.GFM_STATE (2 * g)) G = fld s (Reg.GFM_STATE (2 * g)) G
  regs : ∀ a, a ≠ Reg.GFM_STATE (2 * g) → a ≠ Reg.FIO_DO_STATE → rd t a = rd s a
  log : t.log = s.log
  tai : t.tai = s.tai
  ticks : t.ticks = s.ticks
  busReply : t.busReply = s.busReply
  loop : t.loop = s.loop
  stage : ∃ c, t.gfm.stages[g] = { s.gfm.stages[g] with cmdAt := c }

theorem contactorSet_setContactor (g : Fin 2) (b : Bool) (s : State) : ContactorSet g b s (setContactor g b s) := by
  unfold setContactor
  by_cases hsame : contClosed s g = b
  · rw [if_pos hsame]
    exact ⟨hsame, fun _ _ => rfl, fun _ _ _ => rfl, rfl, rfl, rfl, rfl, rfl, _, rfl⟩
  · rw [if_neg hsame]
    dsimp only
    have hset : contClosed (setF s (Reg.GFM_STATE (2 * g)) F.GFM_STATE_cont_cmd (b2n b)) g = b :=
      flg_setF_b2n s _ _ b (by decide) (by decide)
    have hfld : ∀ G : Fld, G.lo + G.w ≤ F.GFM_STATE_cont_cmd.lo ∨ F.GFM_STATE_cont_cmd.lo + F.GFM_STATE_cont_cmd.w ≤ G.lo →
        fld (setF s (Reg.GFM_STATE (2 * g)) F.GFM_STATE_cont_cmd (b2n b)) (Reg.GFM_STATE (2 * g)) G = fld s (Reg.GFM_STATE (2 * g)) G :=
      fun G hG => fld_setF_disj _ _ _ _ _ hG
    have hrd : ∀ a, a ≠ Reg.GFM_STATE (2 * g) → rd (setF s (Reg.GFM_STATE (2 * g)) F.GFM_STATE_cont_cmd (b2n b)) a = rd s a :=
      fun a ha => rd_setF_ne _ _ _ ha
    have hkept : (setF s (Reg.GFM_STATE (2 * g)) F.GFM_STATE_cont_cmd (b2n b)).log = s.log ∧
      (setF s (Reg.GFM_STATE (2 * g)) F.GFM_STATE_cont_cmd (b2n b)).tai = s.tai ∧
      (setF s (Reg.GFM_STATE (2 * g)) F.GFM_STATE_cont_cmd (b2n b)).ticks = s.ticks ∧
      (setF s (Reg.GFM_STATE (2 * g)) F.GFM_STATE_cont_cmd (b2n b)).busReply = s.busReply ∧
      (setF s (Reg.GFM_STATE (2 * g)) F.GFM_STATE_cont_cmd (b2n b)).loop = s.loop ∧
      (setF s (Reg.GFM_STATE (2 * g)) F.GFM_STATE_cont_cmd (b2n b)).gfm = s.gfm := ⟨rfl, rfl, rfl, rfl, rfl, rfl⟩
    generalize setF s (Reg.GFM_STATE (2 * g)) F.GFM_STATE_cont_cmd (b2n b) = y at hset hfld hrd hkept ⊢
    obtain ⟨hlog, htai, hticks, hreply, hloop, hgfm⟩ := hkept
    have hne := (contState_ne g).1
    have hreg : ∀ a, a ≠ Reg.FIO_DO_STATE → rd (refreshDo (setGfm g { y.gfm.stages[g] with cmdAt := localNs y } y)) a = rd y a :=
      fun a ha => rd_refreshDo _ ha
    refine ⟨(flg_of_rd (hreg _ hne) _).trans hset, fun G hG => (fld_of_rd (hreg _ hne) G).trans (hfld G hG),
      fun a h1 h2 => (hreg a h2).trans (hrd a h1), hlog, htai, hticks, hreply, hloop, localNs y, ?_⟩
    refine (stages_setGfm g { y.gfm.stages[g] with cmdAt := localNs y } y).trans ?_
    rw [hgfm]

/-! ### A change of state (R237) -/

/-- The record of a stage that enters a state. -/
def enteredStage (n at' : Nat) (x : GfmStage) : GfmStage :=
  { x with stateAt := at', winMs := 0, rideOkMs := 0, notLiveMs := 0, slot := if n = gWaitSlot then x.slot else none,
           backoff := x.backoff && n != gRunning, cold := x.cold && n != gRunning }

/-- What a change of state does. -/
structure GfmMoved (g : Fin 2) (n : Nat) (s t : State) : Prop where
  state : gState t g = n
  closed : contClosed t g = contactorFor n (contClosed s g)
  fields : ∀ G : Fld, G.lo + G.w ≤ F.GFM_STATE_state.lo →
    (G.lo + G.w ≤ F.GFM_STATE_cont_cmd.lo ∨ F.GFM_STATE_cont_cmd.lo + F.GFM_STATE_cont_cmd.w ≤ G.lo) →
    fld t (Reg.GFM_STATE (2 * g)) G = fld s (Reg.GFM_STATE (2 * g)) G
  attempt : attemptOf t g = attemptOf s g
  regs : ∀ a, a ≠ Reg.GFM_STATE (2 * g) → a ≠ Reg.FIO_DO_STATE → a ≠ Reg.CMD_STATUS → a ≠ Reg.CMD_EVT_LOST → rd t a = rd s a
  only : Room 1 s → OnlyRegs [Reg.GFM_STATE (2 * g), Reg.FIO_DO_STATE] s t
  logged : Room 1 s → Logged [(0x5001, 2 * g.val, BitVec.ofNat 32 (gState s g * 256 + n))] s t
  tai : t.tai = s.tai
  ticks : t.ticks = s.ticks
  busReply : t.busReply = s.busReply
  loop : t.loop = s.loop
  stage : ∃ c, t.gfm.stages[g] = { enteredStage n (localNs s) s.gfm.stages[g] with cmdAt := c }

/-- The state of a stage written and its record entered, before the change is logged. -/
def stateEntered (g : Fin 2) (n : Nat) (s : State) : State :=
  let s := setF s (Reg.GFM_STATE (2 * g)) F.GFM_STATE_state n
  setGfm g (enteredStage n (localNs s) s.gfm.stages[g]) s

theorem setGfmState_eq {g : Fin 2} {n : Nat} {s : State} (h : gState s g ≠ n) : setGfmState g n s =
    setContactor g (contactorFor n (contClosed (stateEntered g n s) g))
      (logN 0x5001 (2 * g) (gState s g * 256 + n) (stateEntered g n s)) := if_neg h

theorem stateEntered_effect (g : Fin 2) {n : Nat} (hn : n < 16) (s : State) : gState (stateEntered g n s) g = n ∧
    (∀ G : Fld, G.lo + G.w ≤ F.GFM_STATE_state.lo → fld (stateEntered g n s) (Reg.GFM_STATE (2 * g)) G = fld s (Reg.GFM_STATE (2 * g)) G) ∧
    (∀ a, a ≠ Reg.GFM_STATE (2 * g) → rd (stateEntered g n s) a = rd s a) ∧
    (stateEntered g n s).gfm.stages[g] = enteredStage n (localNs s) s.gfm.stages[g] := by
  have hset : gState (setF s (Reg.GFM_STATE (2 * g)) F.GFM_STATE_state n) g = n :=
    (fld_setF s _ _ _ (by decide)).trans (Nat.mod_eq_of_lt hn)
  exact ⟨hset, fun G hG => fld_setF_disj s _ _ _ _ (Or.inl hG), fun a ha => rd_setF_ne _ _ _ ha, stages_setGfm ..⟩

theorem gfmMoved_setGfmState {g : Fin 2} {n : Nat} {s : State} (hn : n < 16) (h : gState s g ≠ n) : GfmMoved g n s (setGfmState g n s) := by
  obtain ⟨hstate, hfields, hregs, hstage⟩ := stateEntered_effect g hn s
  have hclosed : contClosed (stateEntered g n s) g = contClosed s g := congrArg (· != 0) (hfields F.GFM_STATE_cont_cmd (by decide))
  have hlog : (stateEntered g n s).log = s.log := rfl
  have htai : (stateEntered g n s).tai = s.tai := rfl
  have hticks : (stateEntered g n s).ticks = s.ticks := rfl
  have hreply : (stateEntered g n s).busReply = s.busReply := rfl
  have hloop : (stateEntered g n s).loop = s.loop := rfl
  rw [setGfmState_eq h, hclosed]
  generalize harg : gState s g * 256 + n = arg
  generalize stateEntered g n s = x at hstate hfields hregs hstage hlog htai hticks hreply hloop ⊢
  obtain ⟨-, hc1, hc2⟩ := contState_ne g
  have hrd : rd (logN 0x5001 (2 * g) arg x) (Reg.GFM_STATE (2 * g)) = rd x (Reg.GFM_STATE (2 * g)) := rd_logEvent _ _ _ _ hc1 hc2
  have hroomed : Room 1 s → Logged [(0x5001, 2 * g.val, BitVec.ofNat 32 arg)] s (logN 0x5001 (2 * g) arg x) ∧
      ∀ a, rd (logN 0x5001 (2 * g) arg x) a = rd x a := fun hroom =>
    ⟨logged_logN 0x5001 (2 * g) arg hlog hroom, rd_logN_room 0x5001 (2 * g) arg hlog hroom⟩
  have hrd' : ∀ a, a ≠ Reg.CMD_STATUS → a ≠ Reg.CMD_EVT_LOST → rd (logN 0x5001 (2 * g) arg x) a = rd x a :=
    fun a h1 h2 => rd_logEvent _ _ _ _ h1 h2
  have htai' : (logN 0x5001 (2 * g) arg x).tai = s.tai := (logEvent_tai ..).trans htai
  have hticks' : (logN 0x5001 (2 * g) arg x).ticks = s.ticks := (logEvent_ticks ..).trans hticks
  have hreply' : (logN 0x5001 (2 * g) arg x).busReply = s.busReply := (logEvent_busReply ..).trans hreply
  have hloop' : (logN 0x5001 (2 * g) arg x).loop = s.loop := (logEvent_loop ..).trans hloop
  have hgfm' : (logN 0x5001 (2 * g) arg x).gfm = x.gfm := logEvent_gfm ..
  generalize logN 0x5001 (2 * g) arg x = y at hrd hroomed hrd' htai' hticks' hreply' hloop' hgfm' ⊢
  have hcont := contactorSet_setContactor g (contactorFor n (contClosed s g)) y
  generalize setContactor g (contactorFor n (contClosed s g)) y = t at hcont ⊢
  have hfld : ∀ G : Fld, G.lo + G.w ≤ F.GFM_STATE_state.lo →
      (G.lo + G.w ≤ F.GFM_STATE_cont_cmd.lo ∨ F.GFM_STATE_cont_cmd.lo + F.GFM_STATE_cont_cmd.w ≤ G.lo) →
      fld t (Reg.GFM_STATE (2 * g)) G = fld s (Reg.GFM_STATE (2 * g)) G := fun G h1 h2 =>
    (hcont.fields G h2).trans ((fld_of_rd hrd G).trans (hfields G h1))
  refine ⟨?_, hcont.closed, hfld, hfld _ (by decide) (by decide),
    fun a h1 h2 h3 h4 => (hcont.regs a h1 h2).trans ((hrd' a h3 h4).trans (hregs a h1)), fun hroom a ha => ?_, fun hroom => ?_,
    hcont.tai.trans htai', hcont.ticks.trans hticks', hcont.busReply.trans hreply', hcont.loop.trans hloop', ?_⟩
  · exact (hcont.fields _ (by decide)).trans ((fld_of_rd hrd _).trans hstate)
  · simp only [List.mem_cons, List.not_mem_nil, or_false, not_or] at ha
    exact (hcont.regs a ha.1 ha.2).trans (((hroomed hroom).2 a).trans (hregs a ha.1))
  · rw [harg]
    exact logged_congr (hroomed hroom).1 hcont.log hcont.tai
  · obtain ⟨c, hc⟩ := hcont.stage
    exact ⟨c, by rw [hc, hgfm', hstage]⟩

/-! ### Requests (R236, R238) -/

section Requests

variable {g : Fin 2} {v : Word} {s : State}

theorem gfmStartRequest_ignored (h : gState s g ≠ gStopped) : gfmStartRequest g s = s := if_pos (Or.inl h)

theorem gfmStartRequest_stopped (hstate : gState s g = gStopped) (hkind : stageKind s (gst g) = kindGridForming)
    (hstandby : isStandby s = false) : gfmStartRequest g s =
    if startCause s g ≠ 0 then logN 0x5002 (2 * g) (startCause s g) s
    else setGfmState g gLineCheck (setGfm g { s.gfm.stages[g] with deadMs := 0, liveMs := 0, notLiveMs := 0, backoff := false, cold := true }
      (setF s (Reg.GFM_STATE (2 * g)) F.GFM_STATE_attempt 0)) := by
  unfold gfmStartRequest
  rw [if_neg (by rw [hstate, hkind, hstandby]; rintro (h | h | h); exacts [h rfl, h rfl, Bool.false_ne_true h])]
  rfl

theorem gfmStopRequest_taken (hstate : gState s g ≠ gStopped) (hkind : stageKind s (gst g) = kindGridForming)
    (hstandby : isStandby s = false) : gfmStopRequest g s = setGfmState g gStopped (stopStage g s) := by
  unfold gfmStopRequest
  rw [if_neg (by rw [hkind, hstandby]; rintro (h | h | h); exacts [hstate h, h rfl, Bool.false_ne_true h])]

theorem gfmAckRequest_ignored (h : gState s g ≠ gFailed) : gfmAckRequest g s = s := if_neg fun hc => h hc.1

theorem gfmAckRequest_noOpen (h : s.gfm.stages[g].noOpen = true) : gfmAckRequest g s = s :=
  if_neg fun hc => by
    rw [h] at hc
    exact Bool.false_ne_true hc.2.1

theorem gfmAckRequest_taken (h : gState s g = gFailed) (hopen : s.gfm.stages[g].noOpen = false) (hstandby : isStandby s = false) :
    gfmAckRequest g s = setGfmState g gStopped s := if_pos ⟨h, by rw [hopen]; rfl, by rw [hstandby]; rfl⟩

theorem stopStage_effect (g : Fin 2) (s : State) : (stopStage g s).loop.stages[gst g].stopReq = true ∧
    (stopStage g s).gfm.stages[g] = { s.gfm.stages[g] with order := none } ∧ (stopStage g s).log = s.log ∧
    (stopStage g s).regs = s.regs ∧ (stopStage g s).tai = s.tai ∧ (stopStage g s).ticks = s.ticks ∧ (stopStage g s).busReply = s.busReply := by
  unfold stopStage
  refine ⟨?_, stages_setGfm .., rfl, rfl, rfl, rfl, rfl⟩
  rw [stages_setStage]

theorem writeGfmCmd_start (hstart : getF v F.GFM_CMD_start = 1) (hstop : getF v F.GFM_CMD_stop = 0) (hstate : gState s g ≠ gFailed ∨ getF v F.GFM_CMD_ack = 0) :
    writeGfmCmd g v s = gfmStartRequest g s := by
  have hno : ¬ getF v F.GFM_CMD_stop = 1 := by omega
  have hack : (if getF v F.GFM_CMD_ack = 1 then gfmAckRequest g s else s) = s := by
    rcases hstate with h | h
    · rw [gfmAckRequest_ignored h, ite_self]
    · rw [if_neg (by omega)]
  unfold writeGfmCmd
  dsimp only
  rw [if_neg hno, hack, if_pos ⟨hstart, by simpa using hno⟩]

theorem writeGfmCmd_stop (hstop : getF v F.GFM_CMD_stop = 1) (hstate : gState (gfmStopRequest g s) g ≠ gFailed) :
    writeGfmCmd g v s = gfmStopRequest g s := by
  unfold writeGfmCmd
  dsimp only
  rw [if_pos hstop, gfmAckRequest_ignored hstate, ite_self, if_neg fun h => by simp [hstop] at h]

theorem writeGfmCmd_ack (hack : getF v F.GFM_CMD_ack = 1) (hstop : getF v F.GFM_CMD_stop = 0) (hstart : getF v F.GFM_CMD_start = 0) :
    writeGfmCmd g v s = gfmAckRequest g s := by
  unfold writeGfmCmd
  dsimp only
  rw [if_neg (by omega), if_pos hack, if_neg (by omega)]

end Requests

end Sys2Proof.Machine
end


section
/-! PROOFS. The commands of grid forming, the current limit and the time mode (R226, R231, R232, R236, R368). -/

namespace Sys2Proof.Machine

open Sys2Proof Sys2Proof.Safety Sys2Proof.Laws

section Start

variable {g : Fin 2} {s : State}

/-- The record and the attempts of a stage that is started. -/
def startPrepared (g : Fin 2) (s : State) : State :=
  setGfm g { s.gfm.stages[g] with deadMs := 0, liveMs := 0, notLiveMs := 0, backoff := false, cold := true }
    (setF s (Reg.GFM_STATE (2 * g)) F.GFM_STATE_attempt 0)

theorem startPrepared_effect (g : Fin 2) (s : State) : gState (startPrepared g s) g = gState s g ∧ attemptOf (startPrepared g s) g = 0 ∧
    (startPrepared g s).log = s.log ∧ (startPrepared g s).busReply = s.busReply ∧
    (∀ a, a ≠ Reg.GFM_STATE (2 * g) → rd (startPrepared g s) a = rd s a) ∧
    (startPrepared g s).gfm.stages[g] =
      { s.gfm.stages[g] with deadMs := 0, liveMs := 0, notLiveMs := 0, backoff := false, cold := true } :=
  ⟨fld_setF_disj s _ _ _ _ (by decide), fld_setF s _ _ _ (by decide), rfl, rfl, fun _ ha => rd_setF_ne _ _ _ ha, stages_setGfm ..⟩

theorem gfmStartRequest_taken (hstate : gState s g = gStopped) (hkind : stageKind s (gst g) = kindGridForming)
    (hstandby : isStandby s = false) (hcause : startCause s g = 0) :
    gfmStartRequest g s = setGfmState g gLineCheck (startPrepared g s) := by
  rw [gfmStartRequest_stopped hstate hkind hstandby, hcause, if_neg (by decide)]
  rfl

/-- Row 1 of Table 8.4: a stage leaves STOPPED for LINE_CHECK. -/
theorem started_effect (hstate : gState s g = gStopped) (hkind : stageKind s (gst g) = kindGridForming) (hstandby : isStandby s = false)
    (hcause : startCause s g = 0) (hroom : Room 1 s) : (gfmStartRequest g s).busReply = s.busReply ∧
    gState (gfmStartRequest g s) g = gLineCheck ∧ attemptOf (gfmStartRequest g s) g = 0 ∧ contClosed (gfmStartRequest g s) g = false ∧
    ((gfmStartRequest g s).gfm.stages[g]).deadMs = 0 ∧ ((gfmStartRequest g s).gfm.stages[g]).liveMs = 0 ∧
    ((gfmStartRequest g s).gfm.stages[g]).cold = true ∧ ((gfmStartRequest g s).gfm.stages[g]).backoff = false ∧
    Logged [(0x5001, 2 * g.val, 1)] s (gfmStartRequest g s) ∧
    OnlyRegs [Reg.GFM_STATE (2 * g), Reg.FIO_DO_STATE] s (gfmStartRequest g s) := by
  rw [gfmStartRequest_taken hstate hkind hstandby hcause]
  obtain ⟨hst, hatt, hlog, hreply, hregs, hstage⟩ := startPrepared_effect g s
  generalize startPrepared g s = x at hst hatt hlog hreply hregs hstage ⊢
  have hroom' : Room 1 x := by
    unfold Room
    rw [hlog]
    exact hroom
  rw [hstate] at hst
  have hmoved := gfmMoved_setGfmState (g := g) (s := x) (by decide : gLineCheck < 16) (by rw [hst]; decide)
  obtain ⟨c, hc⟩ := hmoved.stage
  have hlogged := logged_append (logged_nil hlog) (hmoved.logged hroom') hmoved.tai
  rw [hst] at hlogged
  refine ⟨hmoved.busReply.trans hreply, hmoved.state, hmoved.attempt.trans hatt, hmoved.closed, ?_, ?_, ?_, ?_, hlogged, fun a ha => ?_⟩
  · rw [hc]
    exact congrArg GfmStage.deadMs hstage
  · rw [hc]
    exact congrArg GfmStage.liveMs hstage
  · rw [hc, enteredStage, hstage]
    rfl
  · rw [hc, enteredStage, hstage]
    rfl
  · have hne : a ≠ Reg.GFM_STATE (2 * g) := fun h => ha (h ▸ List.mem_cons_self)
    exact (hmoved.only hroom' a ha).trans (hregs a hne)

theorem startRefused_effect (hstate : gState s g = gStopped) (hkind : stageKind s (gst g) = kindGridForming) (hstandby : isStandby s = false)
    (hcause : startCause s g ≠ 0) (hroom : Room 1 s) : (gfmStartRequest g s).busReply = s.busReply ∧ (gfmStartRequest g s).gfm = s.gfm ∧
    OnlyRegs [] s (gfmStartRequest g s) ∧ Logged [(0x5002, 2 * g.val, BitVec.ofNat 32 (startCause s g))] s (gfmStartRequest g s) := by
  rw [gfmStartRequest_stopped hstate hkind hstandby, if_pos hcause]
  exact ⟨logEvent_busReply .., logEvent_gfm .., fun a _ => rd_logN_room _ _ _ rfl hroom a, logged_logN _ _ _ rfl hroom⟩

/-- Row 28: a stop takes a stage to STOPPED. -/
theorem stopped_effect (hstate : gState s g ≠ gStopped) (hkind : stageKind s (gst g) = kindGridForming) (hstandby : isStandby s = false)
    (hroom : Room 1 s) : (gfmStopRequest g s).busReply = s.busReply ∧ gState (gfmStopRequest g s) g = gStopped ∧
    contClosed (gfmStopRequest g s) g = false ∧ ((gfmStopRequest g s).loop.stages[gst g]).stopReq = true ∧
    ((gfmStopRequest g s).gfm.stages[g]).order = none ∧
    Logged [(0x5001, 2 * g.val, BitVec.ofNat 32 (gState s g * 256))] s (gfmStopRequest g s) ∧
    OnlyRegs [Reg.GFM_STATE (2 * g), Reg.FIO_DO_STATE] s (gfmStopRequest g s) := by
  rw [gfmStopRequest_taken hstate hkind hstandby]
  obtain ⟨hstop, hstage, hlog, hregs, -, -, hreply⟩ := stopStage_effect g s
  have hst : gState (stopStage g s) g = gState s g := fld_of_regs hregs _ _
  generalize stopStage g s = x at hstop hstage hlog hregs hreply hst ⊢
  have hroom' : Room 1 x := by
    unfold Room
    rw [hlog]
    exact hroom
  have hmoved := gfmMoved_setGfmState (g := g) (s := x) (by decide : gStopped < 16) (by rw [hst]; exact hstate)
  obtain ⟨c, hc⟩ := hmoved.stage
  have hlogged := logged_append (logged_nil hlog) (hmoved.logged hroom') hmoved.tai
  have harg : gState s g * 256 + gStopped = gState s g * 256 := Nat.add_zero _
  rw [hst, harg] at hlogged
  refine ⟨hmoved.busReply.trans hreply, hmoved.state, hmoved.closed, ?_, ?_, hlogged, fun a ha => ?_⟩
  · rw [hmoved.loop, hstop]
  · rw [hc, enteredStage, hstage]
  · exact (hmoved.only hroom' a ha).trans (by rw [rd, rd, hregs])

/-- Row 30: FAILED is acknowledged. -/
theorem acked_effect (hstate : gState s g = gFailed) (hopen : s.gfm.stages[g].noOpen = false) (hstandby : isStandby s = false)
    (hroom : Room 1 s) : gState (gfmAckRequest g s) g = gStopped ∧ (gfmAckRequest g s).busReply = s.busReply ∧
    Logged [(0x5001, 2 * g.val, 2560)] s (gfmAckRequest g s) ∧
    OnlyRegs [Reg.GFM_STATE (2 * g), Reg.FIO_DO_STATE] s (gfmAckRequest g s) := by
  rw [gfmAckRequest_taken hstate hopen hstandby]
  have hmoved := gfmMoved_setGfmState (g := g) (s := s) (by decide : gStopped < 16) (by rw [hstate]; decide)
  have hlogged := hmoved.logged hroom
  rw [hstate, show gFailed * 256 + gStopped = 2560 from rfl] at hlogged
  exact ⟨hmoved.state, hmoved.busReply, hlogged, hmoved.only hroom⟩

end Start

/-! ### The words written -/

section Words

variable (v : Word)

theorem gfmStartWord : getF (putF v F.GFM_CMD_start 1) F.GFM_CMD_start = 1 ∧
    getF (putF v F.GFM_CMD_start 1) F.GFM_CMD_stop = getF v F.GFM_CMD_stop ∧
    getF (putF v F.GFM_CMD_start 1) F.GFM_CMD_ack = getF v F.GFM_CMD_ack :=
  ⟨getF_putF _ _ _ (by decide), getF_putF_ne _ _ _ _ (by decide), getF_putF_ne _ _ _ _ (by decide)⟩

theorem gfmStopWord : getF (putF v F.GFM_CMD_stop 1) F.GFM_CMD_stop = 1 := getF_putF _ _ _ (by decide)

theorem gfmAckWord : getF (putF v F.GFM_CMD_ack 1) F.GFM_CMD_ack = 1 ∧
    getF (putF v F.GFM_CMD_ack 1) F.GFM_CMD_stop = getF v F.GFM_CMD_stop ∧
    getF (putF v F.GFM_CMD_ack 1) F.GFM_CMD_start = getF v F.GFM_CMD_start :=
  ⟨getF_putF _ _ _ (by decide), getF_putF_ne _ _ _ _ (by decide), getF_putF_ne _ _ _ _ (by decide)⟩

end Words

/-! ### The current limit (R231, R232) -/

section Limit

variable {g : Fin 2} {s : State}

/-- From an instant on, the limit is held. -/
def limitHeldAt (g : Fin 2) (q : Nat) (s : State) : State :=
  let s := reachLocal q s
  let s := setGfm g { s.gfm.stages[g] with heldAt := some (localNs s) } s
  logN 0x500C (2 * g) (fld s (Reg.GFM_LIMIT (2 * g)) F.GFM_LIMIT_i_cont) s

theorem execLimitHeld_eq (g : Fin 2) (s : State) : execLimitHeld g s =
    if stageMode s (gst g) ≠ modeLimit ∨ (s.gfm.stages[g]).heldAt.isSome then .next s
    else .next (limitHeldAt g (s.gfm.stages[g].limFirstAt + msFld s (Reg.GFM_LIMIT_T (2 * g)) F.GFM_LIMIT_T_t_hold 1) s) := rfl

theorem limitHeldAt_effect (g : Fin 2) (q : Nat) {s : State} (hroom : Room 1 s) :
    (limitHeldAt g q s).gfm.stages[g].heldAt = some (localNs (limitHeldAt g q s)) ∧ q ≤ localNs (limitHeldAt g q s) ∧
    Logged [(0x500C, 2 * g.val, BitVec.ofNat 32 (fld s (Reg.GFM_LIMIT (2 * g)) F.GFM_LIMIT_i_cont))] s (limitHeldAt g q s) ∧
    OnlyRegs [] s (limitHeldAt g q s) := by
  have hreach := localNs_reachLocal q s
  have hlog : (reachLocal q s).log = s.log := rfl
  have hrd : ∀ a, rd (reachLocal q s) a = rd s a := fun _ => rfl
  unfold limitHeldAt
  dsimp only
  generalize reachLocal q s = x at hreach hlog hrd ⊢
  have hstage := stages_setGfm g { x.gfm.stages[g] with heldAt := some (localNs x) } x
  have hlog' : (setGfm g { x.gfm.stages[g] with heldAt := some (localNs x) } x).log = s.log := hlog
  have hticks : (setGfm g { x.gfm.stages[g] with heldAt := some (localNs x) } x).ticks = x.ticks := rfl
  have hrd' : ∀ a, rd (setGfm g { x.gfm.stages[g] with heldAt := some (localNs x) } x) a = rd s a := hrd
  generalize setGfm g { x.gfm.stages[g] with heldAt := some (localNs x) } x = y at hstage hlog' hticks hrd' ⊢
  rw [fld_of_rd (hrd' _)]
  generalize fld s (Reg.GFM_LIMIT (2 * g)) F.GFM_LIMIT_i_cont = arg
  have hlocal : localNs (logN 0x500C (2 * g) arg y) = localNs x := localNs_of_ticks ((logEvent_ticks ..).trans hticks)
  rw [hlocal]
  refine ⟨?_, hreach, logged_logN _ _ _ hlog' hroom, fun a _ => (rd_logN_room _ _ _ hlog' hroom a).trans (hrd' a)⟩
  rw [logN, logEvent_gfm, hstage]

theorem execLimitHeld_due (hmode : stageMode s (gst g) = modeLimit) (hheld : s.gfm.stages[g].heldAt = none) : execLimitHeld g s =
    .next (limitHeldAt g (s.gfm.stages[g].limFirstAt + msFld s (Reg.GFM_LIMIT_T (2 * g)) F.GFM_LIMIT_T_t_hold 1) s) := by
  rw [execLimitHeld_eq, if_neg]
  rw [hmode, hheld]
  exact fun h => h.elim (fun h => h rfl) Bool.false_ne_true

/-- The state in which LIMIT_RELEASE has come and is shown. -/
def limitLeft (g : Fin 2) (s : State) : State :=
  setGfm g { s.gfm.stages[g] with heldAt := none, belowFrom := none, limRun := 0 } (setF s (Reg.GFM_STATE (2 * g)) F.GFM_STATE_limit 0)

/-- The duration of LIMIT that LIMIT_RELEASE carries. -/
def limitMs (g : Fin 2) (s : State) : Nat := min 0xFFFFFFFF (quot (localNs s - s.gfm.stages[g].limFirstAt : Nat) 1000000).toNat

theorem leaveLimit_eq (g : Fin 2) (s : State) : leaveLimit g s = lmdRelease (logN 0x500B (2 * g) (limitMs g s) (limitLeft g s)) := rfl

/-- LMD goes to MEASURE. -/
def lmdMeasured (s : State) : State := setLmd lmdMeasure (clearQual { s with prot := { s.prot with lmdNoFeeder := false } })

theorem lmdArm_eq (s : State) : lmdArm s = if lmdState s = lmdWait ∧ windowsFrom s ≤ nowNat s then
    logEvent 0x6101 (limitMask { s with prot := { s.prot with lmdNoFeeder := false } }) ((rd64 s Reg.PROT_LMD_ONSET).extractLsb' 0 32)
      (lmdMeasured s) else s := rfl

theorem log_clearQual (s : State) : (clearQual s).log = s.log := keeps_of_ev (clearQual_ev (foot_self _) (Ev.refl _ s)) (p := .log) rfl

theorem log_lmdMeasured (s : State) : (lmdMeasured s).log = s.log := by
  rw [lmdMeasured, setLmd, setF_log, log_clearQual]

theorem logGrows_lmdArm {s x : State} (hx : LogGrows s x) : LogGrows s (lmdArm x) := by
  rw [lmdArm_eq]
  have hgrown : LogGrows s (lmdMeasured x) := hx.of_log (log_lmdMeasured x)
  generalize lmdMeasured x = y at hgrown ⊢
  split
  · exact LogGrows.logEvent hgrown
  · exact hx

theorem logGrows_lmdOnset {s x : State} (hx : LogGrows s x) : LogGrows s (lmdOnset x) := by
  unfold lmdOnset
  generalize rd64 x _ = v
  have hgrown : LogGrows s (wr64 x Reg.PROT_LMD_ONSET v) := hx.of_log (wr64_log ..)
  generalize wr64 x Reg.PROT_LMD_ONSET v = y at hgrown ⊢
  split
  · exact logGrows_lmdArm hgrown
  · exact hx

theorem logGrows_whenS {s x : State} {b : Bool} {c q e : Nat} (hx : LogGrows s x) : LogGrows s (whenS b (logN c q e) x) := by
  cases b
  · exact hx
  · exact LogGrows.logEvent hx

theorem logGrows_lmdRelease {s x : State} (hx : LogGrows s x) : LogGrows s (lmdRelease x) := by
  unfold lmdRelease
  dsimp only
  have hgrown : LogGrows s (whenS (lmdState x != lmdTripped) (logN 0x6103 0 (lmdState x)) x) := logGrows_whenS hx
  generalize whenS (lmdState x != lmdTripped) (logN 0x6103 0 (lmdState x)) x = y at hgrown ⊢
  have hcleared : (setLmd lmdIdle (clearQual y)).log = y.log := by rw [setLmd, setF_log, log_clearQual]
  generalize setLmd lmdIdle (clearQual y) = z at hcleared ⊢
  split
  · exact hx
  · split
    · exact logGrows_lmdOnset hx
    · exact hgrown.of_log hcleared

theorem raises_of_grown {c q : Nat} {e : Word} {s x t : State} (h : Logged [(c, q, e)] s x) (hg : LogGrows x t) : Raises c q e s t := by
  obtain ⟨es, hes⟩ := hg
  refine ⟨⟨now x, BitVec.ofNat 16 c, BitVec.ofNat 16 q, e⟩ :: es, ?_, _, List.mem_cons_self, rfl, rfl, rfl⟩
  rw [hes, h]
  simp

theorem leaveLimit_effect (g : Fin 2) {s : State} (hroom : Room 1 s) :
    flg (leaveLimit g s) (Reg.GFM_STATE (2 * g)) F.GFM_STATE_limit = false ∧
    (leaveLimit g s).gfm.stages[g] = { s.gfm.stages[g] with heldAt := none, belowFrom := none, limRun := 0 } ∧
    (leaveLimit g s).ticks = s.ticks ∧ Raises 0x500B (2 * g) (BitVec.ofNat 32 (limitMs g s)) s (leaveLimit g s) ∧
    (∀ a, a ≠ Reg.GFM_STATE (2 * g) → blockAt a = some .gfm → rd (leaveLimit g s) a = rd s a) := by
  rw [leaveLimit_eq]
  have hlimit : flg (limitLeft g s) (Reg.GFM_STATE (2 * g)) F.GFM_STATE_limit = false :=
    (flg_setF s _ _ _ (by decide)).trans (by decide)
  have hstage : (limitLeft g s).gfm.stages[g] = { s.gfm.stages[g] with heldAt := none, belowFrom := none, limRun := 0 } := stages_setGfm ..
  have hlog : (limitLeft g s).log = s.log := rfl
  have hticks : (limitLeft g s).ticks = s.ticks := rfl
  have hrd : ∀ a, a ≠ Reg.GFM_STATE (2 * g) → rd (limitLeft g s) a = rd s a := fun a ha => rd_setF_ne _ _ _ ha
  generalize limitMs g s = ms
  generalize limitLeft g s = x at hlimit hstage hlog hticks hrd ⊢
  have hlogged := logged_logN 0x500B (2 * g) ms hlog hroom
  have hrdL := rd_logN_room 0x500B (2 * g) ms hlog hroom
  have hgfmL : (logN 0x500B (2 * g) ms x).gfm = x.gfm := logEvent_gfm ..
  have hticksL : (logN 0x500B (2 * g) ms x).ticks = x.ticks := logEvent_ticks ..
  generalize logN 0x500B (2 * g) ms x = y at hlogged hrdL hgfmL hticksL ⊢
  have hev := lmdRelease_ev (foot_self _) (Ev.refl _ y)
  have hblock : ∀ g : Fin 2, blockAt (Reg.GFM_STATE (2 * g)) = some .gfm := by decide
  have hgfm : (lmdRelease y).gfm = y.gfm := keeps_of_ev hev (p := .gfm) rfl
  refine ⟨?_, ?_, ?_, raises_of_grown hlogged (logGrows_lmdRelease (.refl y)), fun a ha hb => ?_⟩
  · rw [flg_of_rd (rd_of_ev hev rfl (hblock g) rfl), flg_of_rd (hrdL _), hlimit]
  · rw [hgfm, hgfmL, hstage]
  · exact (keeps_of_ev hev (p := .ticks) rfl : (lmdRelease y).ticks = y.ticks).trans (hticksL.trans hticks)
  · rw [rd_of_ev hev rfl hb rfl, hrdL, hrd a ha]

theorem pu12_of_rd {x y : State} {a : Nat} {G : Fld} (h : rd y a = rd x a) : pu12 y a G = pu12 x a G := by
  unfold pu12 sfld
  rw [h]

/-- What LIMIT_RELEASE orders: VSM where V_L permits it, else a recovery ramp. -/
def releaseOrder (g : Fin 2) (vl : Rat) (s : State) : GfmStart :=
  if pu12 s (Reg.GFM_RECOV (2 * g)) F.GFM_RECOV_v_rec ≤ vl then .vsm else .recovery

/-- The release of the limit at an instant. -/
def limitReleasedAt (g : Fin 2) (q : Nat) (vl : Rat) (s : State) : State :=
  let s := leaveLimit g (reachLocal q s)
  orderStage g (releaseOrder g vl s) s

theorem execLimitRelease_due {b : Nat} (hmode : stageMode s (gst g) = modeLimit) (hbelow : s.gfm.stages[g].belowFrom = some b)
    (hstandby : isStandby s = false) : execLimitRelease g s =
    .next (limitReleasedAt g (b + msFld s (Reg.GFM_LIMIT_T (2 * g)) F.GFM_LIMIT_T_t_rel 1) s.gfm.stages[g].vl s) := by
  unfold execLimitRelease
  dsimp only
  rw [hbelow]
  dsimp only
  rw [if_neg]
  · unfold limitReleasedAt releaseOrder
    dsimp only
  · rw [hmode, hstandby]
    exact fun h => h.elim (fun h => h rfl) Bool.false_ne_true

theorem limitReleasedAt_effect (g : Fin 2) (q : Nat) (vl : Rat) {s : State} (hroom : Room 1 s) :
    flg (limitReleasedAt g q vl s) (Reg.GFM_STATE (2 * g)) F.GFM_STATE_limit = false ∧
    (limitReleasedAt g q vl s).gfm.stages[g].limRun = 0 ∧ (limitReleasedAt g q vl s).gfm.stages[g].heldAt = none ∧
    (limitReleasedAt g q vl s).gfm.stages[g].belowFrom = none ∧ q ≤ localNs (limitReleasedAt g q vl s) ∧
    (∃ ms, Raises 0x500B (2 * g) ms s (limitReleasedAt g q vl s)) ∧
    (limitReleasedAt g q vl s).gfm.stages[g].order = some (releaseOrder g vl s) := by
  have hreach := localNs_reachLocal q s
  have hlog : (reachLocal q s).log = s.log := rfl
  have hrd : ∀ a, rd (reachLocal q s) a = rd s a := fun _ => rfl
  unfold limitReleasedAt
  dsimp only
  generalize reachLocal q s = x at hreach hlog hrd ⊢
  have hroom' : Room 1 x := by
    unfold Room
    rw [hlog]
    exact hroom
  obtain ⟨hlimit, hstage, hticks, hraises, hregs⟩ := leaveLimit_effect g hroom'
  have hblock : ∀ g : Fin 2, blockAt (Reg.GFM_RECOV (2 * g)) = some .gfm := by decide
  have hrec : rd (leaveLimit g x) (Reg.GFM_RECOV (2 * g)) = rd s (Reg.GFM_RECOV (2 * g)) :=
    (hregs _ (by simp only [Reg.GFM_RECOV, Reg.GFM_STATE]; omega) (hblock g)).trans (hrd _)
  have horder : releaseOrder g vl (leaveLimit g x) = releaseOrder g vl s := by
    rw [releaseOrder, releaseOrder, pu12_of_rd hrec]
  rw [horder]
  generalize releaseOrder g vl s = o
  generalize limitMs g x = ms at hraises
  generalize leaveLimit g x = y at hlimit hstage hticks hraises
  have hset := stages_setGfm g { y.gfm.stages[g] with order := some o } y
  obtain ⟨es, hes, hmem⟩ := hraises
  refine ⟨hlimit, ?_, ?_, ?_, ?_, ⟨_, es, ?_, hmem⟩, ?_⟩
  · rw [orderStage, hset, hstage]
  · rw [orderStage, hset, hstage]
  · rw [orderStage, hset, hstage]
  · rw [localNs_of_ticks (show (orderStage g o y).ticks = x.ticks from hticks)]
    exact hreach
  · rw [← hlog, ← hes]
    rfl
  · rw [orderStage, hset]

/-! ### The time mode (R226) -/

/-- The time mode of a stage written and shown, before it is logged. -/
def timeModeSet (g : Fin 2) (new : Nat) (x : GfmStage) (s : State) : State :=
  showTimeMode (setF (setGfm g x s) (Reg.GFM_TMODE (2 * g)) F.GFM_TMODE_time_mode new)

/-- The record of a stage whose time mode changes. -/
def timeModeStage (g : Fin 2) (old new : Nat) (s : State) : GfmStage :=
  let x := s.gfm.stages[g]
  let x := if new = 0 then { x with d := x.wRes - krPhi s g } else { x with d := 0 }
  if old = 0 then { x with refAt := some (localNs s) } else x

theorem timeModeStep_eq (hkind : stageKind s (gst g) = kindGridForming) (hnew : timeMode s g ≠ timeModeDue s g) : timeModeStep g s =
    logN 0x500F (2 * g) (timeMode s g * 256 + timeModeDue s g)
      (timeModeSet g (timeModeDue s g) (timeModeStage g (timeMode s g) (timeModeDue s g) s) s) := by
  unfold timeModeStep
  dsimp only
  rw [if_neg (by rw [hkind]; exact fun h => h.elim hnew fun h => h rfl)]
  rfl

theorem timeModeDue_lt (s : State) (g : Fin 2) : timeModeDue s g < 4 := by
  unfold timeModeDue
  split
  · decide
  · split <;> decide

theorem GFM_TMODE_ne (g : Fin 2) : Reg.GFM_TMODE (2 * g) ≠ Reg.GFM_STATUS ∧ Reg.GFM_TMODE (2 * g) ≠ Reg.CMD_STATUS ∧
    Reg.GFM_TMODE (2 * g) ≠ Reg.CMD_EVT_LOST := by
  simp only [Reg.GFM_TMODE, Reg.GFM_STATUS, Reg.CMD_STATUS, Reg.CMD_EVT_LOST]
  omega

theorem timeModeSet_effect (g : Fin 2) {new : Nat} (hnew : new < 4) (x : GfmStage) (s : State) :
    timeMode (timeModeSet g new x s) g = new ∧ (timeModeSet g new x s).log = s.log ∧ (timeModeSet g new x s).ticks = s.ticks ∧
    OnlyRegs [Reg.GFM_TMODE (2 * g), Reg.GFM_STATUS] s (timeModeSet g new x s) := by
  unfold timeModeSet showTimeMode
  dsimp only
  have hset : timeMode (setF (setGfm g x s) (Reg.GFM_TMODE (2 * g)) F.GFM_TMODE_time_mode new) g = new :=
    (fld_setF _ _ _ _ (by decide)).trans (Nat.mod_eq_of_lt hnew)
  refine ⟨(fld_setF_ne _ _ _ _ (GFM_TMODE_ne g).1).trans hset, rfl, rfl, fun a ha => ?_⟩
  simp only [List.mem_cons, List.not_mem_nil, or_false, not_or] at ha
  exact (rd_setF_ne _ _ _ ha.2).trans (rd_setF_ne _ _ _ ha.1)

theorem timeModeStep_effect (hkind : stageKind s (gst g) = kindGridForming) (hnew : timeMode s g ≠ timeModeDue s g) :
    timeMode (timeModeStep g s) g = timeModeDue s g ∧ (timeModeStep g s).ticks = s.ticks ∧
    (Room 1 s → Logged [(0x500F, 2 * g.val, BitVec.ofNat 32 (timeMode s g * 256 + timeModeDue s g))] s (timeModeStep g s) ∧
      OnlyRegs [Reg.GFM_TMODE (2 * g), Reg.GFM_STATUS] s (timeModeStep g s)) := by
  rw [timeModeStep_eq hkind hnew]
  obtain ⟨hmode, hlog, hticks, honly⟩ := timeModeSet_effect g (timeModeDue_lt s g) (timeModeStage g (timeMode s g) (timeModeDue s g) s) s
  generalize timeMode s g * 256 + timeModeDue s g = arg
  generalize timeModeSet g (timeModeDue s g) (timeModeStage g (timeMode s g) (timeModeDue s g) s) s = y at hmode hlog hticks honly ⊢
  obtain ⟨-, hc1, hc2⟩ := GFM_TMODE_ne g
  exact ⟨(fld_of_rd (rd_logEvent _ _ _ _ hc1 hc2) _).trans hmode, (logEvent_ticks ..).trans hticks,
    fun hroom => ⟨logged_logN _ _ _ hlog hroom, fun a ha => (rd_logN_room _ _ _ hlog hroom a).trans (honly a ha)⟩⟩

/-- When t_hold_rest has passed, HOLDING goes to DROOP. -/
theorem timeModeDue_expired {r q : Nat} (hdue : timeModeDue s g = 1) (hmode : timeMode s g = 1) (hr : s.gfm.stages[g].refAt = some r)
    (hq : r + holdRest s g ≤ q) : timeModeDue (reachLocal q s) g = 2 := by
  have hlocked : timeIsLocked (reachLocal q s) = timeIsLocked s := rfl
  have hmode' : timeMode (reachLocal q s) g = 1 := hmode
  have hr' : (reachLocal q s).gfm.stages[g].refAt = some r := hr
  have hhold : holdRest (reachLocal q s) g = holdRest s g := rfl
  have hreach := localNs_reachLocal q s
  have hno : timeIsLocked s = false := by
    by_contra h
    rw [Bool.not_eq_false] at h
    rw [timeModeDue, if_pos h] at hdue
    exact absurd hdue (by decide)
  have hlate : heldRecently (reachLocal q s) g = false := by
    unfold heldRecently
    rw [if_neg (by rw [hmode']; decide), hr', hhold]
    exact decide_eq_false (by omega)
  rw [timeModeDue, hlocked, hno, hlate, if_neg Bool.false_ne_true, if_neg fun h => Bool.false_ne_true h.2]

end Limit

end Sys2Proof.Machine

namespace Sys2Proof.Proofs

open Sys2Proof Sys2Proof.Machine Sys2Proof.Safety Sys2Proof.Laws

section Commands

variable {m : Fin 8} {g : Fin 2} {v : Word} {s : State} (hs : Served m true (Reg.GFM_CMD (2 * g)) 4 s)

include hs

theorem exec_gfmStart : exec (.gfmStart m g v) s = .next (roleWrite (writeGfmCmd g (putF v F.GFM_CMD_start 1)) (reply .done s)) :=
  congrArg Host.Outcome.next (regCommand_GFM_CMD _ hs)

theorem exec_gfmStop : exec (.gfmStop m g v) s = .next (roleWrite (writeGfmCmd g (putF v F.GFM_CMD_stop 1)) (reply .done s)) :=
  congrArg Host.Outcome.next (regCommand_GFM_CMD _ hs)

theorem exec_gfmAck : exec (.gfmAck m g v) s = .next (roleWrite (writeGfmCmd g (putF v F.GFM_CMD_ack 1)) (reply .done s)) :=
  congrArg Host.Outcome.next (regCommand_GFM_CMD _ hs)

theorem exec_gfmStart_active (hact : holdsActive s = true) (hstop : getF v F.GFM_CMD_stop = 0)
    (hack : gState s g ≠ gFailed ∨ getF v F.GFM_CMD_ack = 0) : exec (.gfmStart m g v) s = .next (gfmStartRequest g (reply .done s)) := by
  obtain ⟨h1, h2, h3⟩ := gfmStartWord v
  rw [exec_gfmStart hs, roleWrite_active (s := reply .done s) _ hact, writeGfmCmd_start h1 (h2.trans hstop) (by rw [h3]; exact hack)]

theorem exec_gfmStop_active (hact : holdsActive s = true) (hstate : gState (gfmStopRequest g (reply .done s)) g ≠ gFailed) :
    exec (.gfmStop m g v) s = .next (gfmStopRequest g (reply .done s)) := by
  rw [exec_gfmStop hs, roleWrite_active (s := reply .done s) _ hact, writeGfmCmd_stop (gfmStopWord v) hstate]

theorem exec_gfmAck_active (hact : holdsActive s = true) (hstop : getF v F.GFM_CMD_stop = 0) (hstart : getF v F.GFM_CMD_start = 0) :
    exec (.gfmAck m g v) s = .next (gfmAckRequest g (reply .done s)) := by
  obtain ⟨h1, h2, h3⟩ := gfmAckWord v
  rw [exec_gfmAck hs, roleWrite_active (s := reply .done s) _ hact, writeGfmCmd_ack h1 (h2.trans hstop) (h3.trans hstart)]

end Commands

theorem limitRelease_none {g : Fin 2} {s : State}
    (h : stageMode s (gst g) ≠ modeLimit ∨ s.gfm.stages[g].belowFrom = none ∨ isStandby s = true) :
    execLimitRelease g s = .next s := by
  unfold execLimitRelease
  dsimp only
  cases hb : s.gfm.stages[g].belowFrom with
  | none => rfl
  | some b =>
    refine if_pos ?_
    rcases h with h | h | h
    · exact Or.inl h
    · exact absurd (hb.symm.trans h) (by simp)
    · exact Or.inr h

section Clauses

variable {g : Fin 2} {s : State}

theorem limitHeld_clause (hmode : stageMode s (gst g) = modeLimit) (hheld : (s.gfm.stages[g]).heldAt = none) (hroom : Room 1 s) :
    ∃ t, exec (.limitHeld g) s = .next t ∧ (t.gfm.stages[g]).heldAt = some (localNs t) ∧
      (s.gfm.stages[g]).limFirstAt + msFld s (Reg.GFM_LIMIT_T (2 * g)) F.GFM_LIMIT_T_t_hold 1 ≤ localNs t ∧
      Logged [(0x500C, 2 * g.val, BitVec.ofNat 32 (fld s (Reg.GFM_LIMIT (2 * g)) F.GFM_LIMIT_i_cont))] s t ∧ OnlyRegs [] s t :=
  ⟨_, execLimitHeld_due hmode hheld, limitHeldAt_effect g _ hroom⟩

theorem limitHeld_none (h : stageMode s (gst g) ≠ modeLimit ∨ (s.gfm.stages[g]).heldAt ≠ none) : exec (.limitHeld g) s = .next s := by
  show execLimitHeld g s = _
  rw [execLimitHeld_eq, if_pos]
  rw [Option.isSome_iff_ne_none]
  exact h

theorem limitRelease_clause {b : Nat} (hmode : stageMode s (gst g) = modeLimit) (hbelow : (s.gfm.stages[g]).belowFrom = some b)
    (hstandby : isStandby s = false) (hroom : Room 3 s) : ∃ t, exec (.limitRelease g) s = .next t ∧
      flg t (Reg.GFM_STATE (2 * g)) F.GFM_STATE_limit = false ∧ (t.gfm.stages[g]).limRun = 0 ∧
      (t.gfm.stages[g]).heldAt = none ∧ (t.gfm.stages[g]).belowFrom = none ∧
      b + msFld s (Reg.GFM_LIMIT_T (2 * g)) F.GFM_LIMIT_T_t_rel 1 ≤ localNs t ∧ (∃ ms, Raises 0x500B (2 * g) ms s t) ∧
      (t.gfm.stages[g]).order = some (releaseOrder g (s.gfm.stages[g]).vl s) := by
  have hroom' : Room 1 s := Nat.le_trans (Nat.add_le_add_left (by decide) _) hroom
  exact ⟨_, execLimitRelease_due hmode hbelow hstandby, limitReleasedAt_effect g _ _ hroom'⟩

theorem gfmTimeMode_changes (hkind : stageKind s (gst g) = kindGridForming) (hroom : Room 1 s) (hnew : timeModeDue s g ≠ timeMode s g) :
    ∃ t, exec (.gfmTimeMode g) s = .next t ∧ timeMode t g = timeModeDue s g ∧
      Logged [(0x500F, 2 * g.val, BitVec.ofNat 32 (timeMode s g * 256 + timeModeDue s g))] s t ∧
      OnlyRegs [Reg.GFM_TMODE (2 * g), Reg.GFM_STATUS] s t := by
  obtain ⟨hmode, -, hlog⟩ := timeModeStep_effect hkind (Ne.symm hnew)
  exact ⟨_, if_pos hnew, hmode, hlog hroom⟩

theorem gfmTimeMode_expires {r : Nat} (hkind : stageKind s (gst g) = kindGridForming) (hdue : timeModeDue s g = 1) (hmode : timeMode s g = 1)
    (hr : (s.gfm.stages[g]).refAt = some r) :
    ∃ t, exec (.gfmTimeMode g) s = .next t ∧ timeMode t g = 2 ∧ r + holdRest s g ≤ localNs t := by
  have hexec : exec (.gfmTimeMode g) s = .next (timeModeStep g (reachLocal (r + holdRest s g) s)) := by
    show execGfmTimeMode g s = _
    unfold execGfmTimeMode
    rw [hdue, hmode, if_neg (by decide), if_pos rfl, hr]
  have hlate := timeModeDue_expired hdue hmode hr (Nat.le_refl _)
  generalize r + holdRest s g = q at hexec hlate ⊢
  have hmode' : timeMode (reachLocal q s) g = 1 := (fld_of_rd (rd_reachLocal q s _) _).trans hmode
  have hkind' : stageKind (reachLocal q s) (gst g) = kindGridForming := (fld_of_rd (rd_reachLocal q s _) _).trans hkind
  have hreach := localNs_reachLocal q s
  generalize reachLocal q s = x at hexec hlate hmode' hkind' hreach
  obtain ⟨hnew, hticks, -⟩ := timeModeStep_effect hkind' (by rw [hmode', hlate]; decide)
  refine ⟨_, hexec, hnew.trans hlate, ?_⟩
  rw [localNs_of_ticks hticks]
  exact hreach

theorem gfmTimeMode_none (hsame : timeModeDue s g = timeMode s g) (hmode : timeMode s g ≠ 1) : exec (.gfmTimeMode g) s = .next s := by
  show execGfmTimeMode g s = _
  unfold execGfmTimeMode
  rw [if_neg (by rw [hsame]; exact fun h => h rfl), if_neg hmode]

end Clauses

section RequestClauses

variable {m : Fin 8} {g : Fin 2} {v : Word} {s : State}

theorem gfmRequest_clauses (hs : Served m true (Reg.GFM_CMD (2 * g)) 4 s) (hact : holdsActive s = true) (hstandby : isStandby s = false)
    (hkind : stageKind s (gst g) = kindGridForming) (hroom : Room 1 s) :
    (gState s g = gStopped → getF v F.GFM_CMD_stop = 0 →
      (startCause s g = 0 → ∃ t, exec (.gfmStart m g v) s = .next t ∧ t.busReply = .done ∧ gState t g = gLineCheck ∧
        attemptOf t g = 0 ∧ contClosed t g = false ∧ (t.gfm.stages[g]).deadMs = 0 ∧ (t.gfm.stages[g]).liveMs = 0 ∧
        (t.gfm.stages[g]).cold = true ∧ (t.gfm.stages[g]).backoff = false ∧
        Logged [(0x5001, 2 * g.val, 1)] s t ∧ OnlyRegs [Reg.GFM_STATE (2 * g), Reg.FIO_DO_STATE] s t) ∧
      (startCause s g ≠ 0 → ∃ t, exec (.gfmStart m g v) s = .next t ∧ t.busReply = .done ∧ t.gfm = s.gfm ∧ OnlyRegs [] s t ∧
        Logged [(0x5002, 2 * g.val, BitVec.ofNat 32 (startCause s g))] s t)) ∧
    (gState s g ≠ gStopped → getF v F.GFM_CMD_stop = 0 → getF v F.GFM_CMD_ack = 0 →
      exec (.gfmStart m g v) s = .next { s with busReply := .done }) ∧
    (gState s g ≠ gStopped → ∃ t, exec (.gfmStop m g v) s = .next t ∧ t.busReply = .done ∧ gState t g = gStopped ∧
      contClosed t g = false ∧ (t.loop.stages[gst g]).stopReq = true ∧ (t.gfm.stages[g]).order = none ∧
      Logged [(0x5001, 2 * g.val, BitVec.ofNat 32 (gState s g * 256))] s t ∧
      OnlyRegs [Reg.GFM_STATE (2 * g), Reg.FIO_DO_STATE] s t) := by
  refine ⟨fun hstate hstop => ⟨fun hcause => ?_, fun hcause => ?_⟩, fun hstate hstop hack => ?_, fun hstate => ?_⟩
  · have hexec := exec_gfmStart_active hs hact hstop (Or.inl (by rw [hstate]; decide))
    exact ⟨_, hexec, started_effect (s := reply .done s) hstate hkind hstandby hcause hroom⟩
  · have hexec := exec_gfmStart_active hs hact hstop (Or.inl (by rw [hstate]; decide))
    exact ⟨_, hexec, startRefused_effect (s := reply .done s) hstate hkind hstandby hcause hroom⟩
  · rw [exec_gfmStart_active hs hact hstop (Or.inr hack)]
    exact congrArg _ (gfmStartRequest_ignored (s := reply .done s) hstate)
  · have h := stopped_effect (s := reply .done s) hstate hkind hstandby hroom
    exact ⟨_, exec_gfmStop_active hs hact (by rw [h.2.1]; decide), h⟩

theorem gfmAck_clause (hs : Served m true (Reg.GFM_CMD (2 * g)) 4 s) (hact : holdsActive s = true) (hstandby : isStandby s = false)
    (hroom : Room 1 s) (hstate : gState s g = gFailed) (hstop : getF v F.GFM_CMD_stop = 0) (hstart : getF v F.GFM_CMD_start = 0) :
    ((s.gfm.stages[g]).noOpen = false → ∃ t, exec (.gfmAck m g v) s = .next t ∧ gState t g = gStopped ∧ t.busReply = .done ∧
      Logged [(0x5001, 2 * g.val, 2560)] s t ∧ OnlyRegs [Reg.GFM_STATE (2 * g), Reg.FIO_DO_STATE] s t) ∧
    ((s.gfm.stages[g]).noOpen = true → exec (.gfmAck m g v) s = .next { s with busReply := .done }) := by
  refine ⟨fun hopen => ?_, fun hopen => ?_⟩
  · exact ⟨_, exec_gfmAck_active hs hact hstop hstart, acked_effect (s := reply .done s) hstate hopen hstandby hroom⟩
  · rw [exec_gfmAck_active hs hact hstop hstart]
    exact congrArg _ (gfmAckRequest_noOpen (s := reply .done s) hopen)

theorem gfm_noRole (hs : Served m true (Reg.GFM_CMD (2 * g)) 4 s) (hact : holdsActive s = false) :
    exec (.gfmStart m g v) s = .next (setF { s with busReply := .done } Reg.DPX_STATUS F.DPX_STATUS_role_write 1) ∧
    exec (.gfmStop m g v) s = .next (setF { s with busReply := .done } Reg.DPX_STATUS F.DPX_STATUS_role_write 1) ∧
    exec (.gfmAck m g v) s = .next (setF { s with busReply := .done } Reg.DPX_STATUS F.DPX_STATUS_role_write 1) := by
  refine ⟨?_, ?_, ?_⟩
  · rw [exec_gfmStart hs]
    exact congrArg _ (roleWrite_other (s := reply .done s) _ hact)
  · rw [exec_gfmStop hs]
    exact congrArg _ (roleWrite_other (s := reply .done s) _ hact)
  · rw [exec_gfmAck hs]
    exact congrArg _ (roleWrite_other (s := reply .done s) _ hact)

end RequestClauses

/-- Settles O43: each request is one change of state of the stage, or none; the limit and the time mode change where they are due. -/
theorem gfmCommands : Obligations.GfmCommands := by
  unfold Obligations.GfmCommands
  refine ⟨fun m g v s hs hact hstandby hkind hroom => ?_, fun m g v s hs hact => gfm_noRole hs hact,
    fun g s hmode hheld hroom => limitHeld_clause hmode hheld hroom, fun g s => ⟨limitHeld_none, limitRelease_none⟩,
    fun g b s hmode hbelow hstandby hroom => limitRelease_clause hmode hbelow hstandby hroom,
    fun g s hkind hroom => ⟨gfmTimeMode_changes hkind hroom, fun r => gfmTimeMode_expires hkind, gfmTimeMode_none⟩⟩
  obtain ⟨hstart, hignored, hstop⟩ := gfmRequest_clauses (v := v) hs hact hstandby hkind hroom
  exact ⟨hstart, hignored, hstop, gfmAck_clause hs hact hstandby hroom⟩

end Sys2Proof.Proofs
end


section
/-! PROOFS. What the rows of the start state machine leave as it is (R233 to R244). -/

namespace Sys2Proof.Machine

open Sys2Proof Sys2Proof.Safety Sys2Proof.Laws

/-- What a millisecond of evaluation settles of a stage before its rows act. -/
structure LineView where
  vl : Rat
  phi : Rat
  fl : Rat
  vc : Rat
  phiC : Rat
  fc : Rat
  lineClass : Nat
  deadMs : Nat
  liveMs : Nat
  vdc : Int
  evalAt : Option Nat
  contAt : Option Nat

def lineView (x : GfmStage) : LineView :=
  ⟨x.vl, x.phi, x.fl, x.vc, x.phiC, x.fc, x.lineClass, x.deadMs, x.liveMs, x.vdc, x.evalAt, x.contAt⟩

/-- The registers of grid forming that no row writes. -/
structure RowReg (g : Fin 2) (a : Nat) : Prop where
  block : blockAt a = some .gfm
  state : a ≠ Reg.GFM_STATE (2 * g)
  slot : a ≠ Reg.GFM_SLOT (2 * g) ∧ a ≠ Reg.GFM_SLOT (2 * g) + 4

/-- What every row leaves as it is. -/
structure RowKept (g : Fin 2) (s t : State) : Prop where
  view : lineView t.gfm.stages[g] = lineView s.gfm.stages[g]
  ticks : t.ticks = s.ticks
  tai : t.tai = s.tai
  permit : fld t (Reg.GFM_STATE (2 * g)) F.GFM_STATE_permit = fld s (Reg.GFM_STATE (2 * g)) F.GFM_STATE_permit
  regs : ∀ a, RowReg g a → rd t a = rd s a

section Kept

variable {g : Fin 2} {s x t : State}

theorem RowKept.refl (g : Fin 2) (s : State) : RowKept g s s := ⟨rfl, rfl, rfl, rfl, fun _ _ => rfl⟩

theorem RowKept.trans (h : RowKept g s x) (h' : RowKept g x t) : RowKept g s t :=
  ⟨h'.view.trans h.view, h'.ticks.trans h.ticks, h'.tai.trans h.tai, h'.permit.trans h.permit, fun a ha => (h'.regs a ha).trans (h.regs a ha)⟩

theorem GFM_STATE_block : ∀ g : Fin 2, blockAt (Reg.GFM_STATE (2 * g)) = some .gfm := by decide

theorem rowKept_of_ev {f : Foot} (h : Ev f s t) (hgfm : f.parts.contains .gfm = false) (hticks : f.parts.contains .ticks = false)
    (htai : f.parts.contains .tai = false) (hany : f.anyReg = false) (hblock : f.blocks.contains .gfm = false) : RowKept g s t := by
  have hg : t.gfm = s.gfm := keeps_of_ev h hgfm
  exact ⟨by rw [hg], keeps_of_ev h hticks, keeps_of_ev h htai, fld_of_rd (rd_of_ev h hany (GFM_STATE_block g) hblock) _,
    fun a ha => rd_of_ev h hany ha.block hblock⟩

theorem rowKept_logEvent (g : Fin 2) (c q : Nat) (e : Word) (s : State) : RowKept g s (logEvent c q e s) :=
  rowKept_of_ev (f := ⟨[.log], [.cmd], false⟩) (ev_logEvent (by decide) (by decide) (Ev.refl _ s)) rfl rfl rfl rfl rfl

theorem rowKept_logN (g : Fin 2) (c q e : Nat) (s : State) : RowKept g s (logN c q e s) := rowKept_logEvent ..

theorem rowKept_setGfm (y : GfmStage) (s : State) (h : lineView y = lineView s.gfm.stages[g]) : RowKept g s (setGfm g y s) :=
  ⟨by rw [stages_setGfm, h], rfl, rfl, rfl, fun _ _ => rfl⟩

theorem rowKept_setStage (g : Fin 2) (st : Fin 4) (y : StageState) (s : State) : RowKept g s (setStage st y s) :=
  ⟨rfl, rfl, rfl, rfl, fun _ _ => rfl⟩

theorem rowKept_setF (g : Fin 2) (G : Fld) (v : Nat) (s : State)
    (hG : F.GFM_STATE_permit.lo + F.GFM_STATE_permit.w ≤ G.lo ∨ G.lo + G.w ≤ F.GFM_STATE_permit.lo) :
    RowKept g s (setF s (Reg.GFM_STATE (2 * g)) G v) :=
  ⟨rfl, rfl, rfl, fld_setF_disj _ _ _ _ _ hG, fun _ ha => rd_setF_ne _ _ _ ha.state⟩

theorem not_rowReg_fio {a : Nat} (h : RowReg g a) : a ≠ Reg.FIO_DO_STATE ∧ a ≠ Reg.CMD_STATUS ∧ a ≠ Reg.CMD_EVT_LOST := by
  obtain ⟨hb, -, -⟩ := h
  refine ⟨?_, ?_, ?_⟩ <;>
  · rintro rfl
    exact absurd hb (by decide)

theorem rowKept_setContactor (g : Fin 2) (b : Bool) (s : State) : RowKept g s (setContactor g b s) := by
  have h := contactorSet_setContactor g b s
  obtain ⟨c, hc⟩ := h.stage
  exact ⟨by rw [hc]; rfl, h.ticks, h.tai, h.fields _ (by decide), fun a ha => h.regs a ha.state (not_rowReg_fio ha).1⟩

theorem rowKept_setGfmState {n : Nat} (hn : n < 16) (g : Fin 2) (s : State) : RowKept g s (setGfmState g n s) := by
  by_cases hsame : gState s g = n
  · have heq : setGfmState g n s = s := if_pos hsame
    rw [heq]
    exact .refl g s
  · have h := gfmMoved_setGfmState hn hsame
    obtain ⟨c, hc⟩ := h.stage
    exact ⟨by rw [hc]; rfl, h.ticks, h.tai, h.fields _ (by decide) (by decide), fun a ha => by
      obtain ⟨h1, h2, h3⟩ := not_rowReg_fio ha
      exact h.regs a ha.state h1 h2 h3⟩

theorem rowKept_stopStage (g : Fin 2) (s : State) : RowKept g s (stopStage g s) :=
  (rowKept_setGfm { s.gfm.stages[g] with order := none } s rfl).trans (rowKept_setStage ..)

theorem rowKept_orderStage (g : Fin 2) (o : GfmStart) (s : State) : RowKept g s (orderStage g o s) := rowKept_setGfm _ _ rfl

theorem rowKept_failGfm (g : Fin 2) (s : State) : RowKept g s (failGfm g s) :=
  (rowKept_stopStage g s).trans (rowKept_setGfmState (by decide) g _)

theorem rowKept_contFail (g : Fin 2) (c : Nat) (s : State) : RowKept g s (contFail g c s) := rowKept_logN ..

/-! ### Blends and slots -/

theorem stage_setEResid (st : Fin 4) (r : Rat) (g : Fin 2) (s : State) :
    ∃ e, (setEResid st r s).gfm.stages[g] = { s.gfm.stages[g] with eResid := e } := by
  have hset : ∀ k : Fin 2, ∃ e, (setGfm k { s.gfm.stages[k] with eResid := r } s).gfm.stages[g] = { s.gfm.stages[g] with eResid := e } := fun k => by
    by_cases hk : g = k
    · subst hk
      exact ⟨r, stages_setGfm ..⟩
    · exact ⟨_, Vector.getElem_set_ne k.isLt g.isLt fun hv => hk (Fin.ext hv.symm)⟩
  unfold setEResid
  split
  · exact hset 0
  · split
    · exact hset 1
    · exact ⟨_, rfl⟩

theorem gfm_freeProf (p : Fin 16) (s : State) : (freeProf p s).gfm = s.gfm := rfl

theorem gfm_takeProf (p : Fin 16) (u : Nat) (x0 : Rat) (v : Int) (s : State) : (takeProf p u x0 v s).gfm = s.gfm := rfl

theorem stage_endBlend (st : Fin 4) (g : Fin 2) (s : State) : ∃ e, (endBlend st s).gfm.stages[g] = { s.gfm.stages[g] with eResid := e } := by
  unfold endBlend
  dsimp only
  split
  · exact ⟨_, rfl⟩
  · rw [gfm_freeProf]
    exact stage_setEResid st 0 g _

theorem stage_startBlend (st : Fin 4) (r0 r1 re : Rat) (g : Fin 2) (s : State) :
    ∃ e, (startBlend st r0 r1 re s).gfm.stages[g] = { s.gfm.stages[g] with eResid := e } := by
  unfold startBlend
  dsimp only
  obtain ⟨e, hend⟩ := stage_endBlend st g s
  generalize endBlend st s = x at hend ⊢
  split
  · exact ⟨e, hend⟩
  · obtain ⟨e', hset⟩ := stage_setEResid st re g
      (setStage st { x.loop.stages[st] with
        blend := some (Fin.ofNat 16 (fld x (Reg.CTRL_HOVER_CFG st) F.CTRL_HOVER_CFG_gen)), residual := #v[r0, r1] } x)
    exact ⟨e', (congrArg (fun m : GfmState => m.stages[g]) (gfm_takeProf ..)).trans (hset.trans
      (congrArg (fun y : GfmStage => { y with eResid := e' }) hend))⟩

theorem rowKept_startBlend (g : Fin 2) (st : Fin 4) (r0 r1 re : Rat) (s : State) : RowKept g s (startBlend st r0 r1 re s) := by
  have hev := startBlend_ev (st := st) (r0 := r0) (r1 := r1) (re := re) (foot_self _) (Ev.refl _ s)
  obtain ⟨e, hstage⟩ := stage_startBlend st r0 r1 re g s
  exact ⟨by rw [hstage]; rfl, keeps_of_ev hev (p := .ticks) rfl, keeps_of_ev hev (p := .tai) rfl,
    fld_of_rd (rd_of_ev hev rfl (GFM_STATE_block g) rfl) _, fun a ha => rd_of_ev hev rfl ha.block rfl⟩

theorem rowKept_awaitSlot (g : Fin 2) (t : Nat) (bo : Bool) (s : State) : RowKept g s (awaitSlot g t bo s) := by
  refine (rowKept_setGfm { s.gfm.stages[g] with slot := some (BitVec.ofNat 64 t, bo) } s rfl).trans ?_
  have hne : Reg.GFM_STATE (2 * g) ≠ Reg.GFM_SLOT (2 * g) ∧ Reg.GFM_STATE (2 * g) ≠ Reg.GFM_SLOT (2 * g) + 4 := by
    simp only [Reg.GFM_STATE, Reg.GFM_SLOT]
    omega
  exact ⟨rfl, rfl, rfl, fld_of_rd (rd_wr64_ne _ _ hne.1 hne.2) _, fun a ha => rd_wr64_ne _ _ ha.slot.1 ha.slot.2⟩

theorem rowKept_chooseSlot (g : Fin 2) (t : Nat) (s : State) : RowKept g s (chooseSlot g t s) := by
  unfold chooseSlot
  split
  · dsimp only
    have hfree : RowKept g s (takeFree s).2 := ⟨rfl, rfl, rfl, rfl, fun _ _ => rfl⟩
    exact (hfree.trans (rowKept_awaitSlot g _ true _)).trans (rowKept_logN g _ _ _ _)
  · exact rowKept_awaitSlot ..

theorem rowKept_enterWaitSlot (g : Fin 2) (s : State) : RowKept g s (enterWaitSlot g s) :=
  (rowKept_setGfmState (by decide) g s).trans (rowKept_chooseSlot ..)

/-! ### The rows -/

theorem rowKept_failRunning (g : Fin 2) (s : State) : RowKept g s (failRunning g s) := by
  unfold failRunning
  split
  · exact rowKept_failGfm g s
  · exact .refl g s

theorem rowKept_blockedRow (g : Fin 2) (s : State) : RowKept g s (blockedRow g s) := by
  unfold blockedRow
  split
  · exact rowKept_failRunning g s
  · exact .refl g s

theorem rowKept_contOpened (g : Fin 2) (s : State) : RowKept g s
    (if gState s g = gRunning ∧ lineLive s g then setGfmState g gSync (setGfm g { s.gfm.stages[g] with eTrack := eSource s g } s)
      else setContactor g false (setGfmState g gLineCheck (stopStage g s))) := by
  split
  · exact (rowKept_setGfm { s.gfm.stages[g] with eTrack := eSource s g } s rfl).trans (rowKept_setGfmState (by decide) g _)
  · exact ((rowKept_stopStage g s).trans (rowKept_setGfmState (by decide) g _)).trans (rowKept_setContactor ..)

theorem rowKept_contWhileClosed (g : Fin 2) (prev fb : Bool) (s : State) : RowKept g s (contWhileClosed g prev fb s) := by
  unfold contWhileClosed
  dsimp only
  split
  · split
    · split
      · exact rowKept_setGfmState (by decide) g s
      · split
        · exact (rowKept_setGfmState (by decide) g s).trans (rowKept_orderStage ..)
        · exact .refl g s
    · split
      · exact rowKept_setGfmState (by decide) g s
      · exact .refl g s
  · split
    · split
      · exact (rowKept_contFail g 1 s).trans (rowKept_failGfm ..)
      · exact .refl g s
    · split
      · have hfail := rowKept_contFail g 3 s
        generalize contFail g 3 s = x at hfail ⊢
        split
        · exact hfail.trans ((rowKept_setGfm { x.gfm.stages[g] with eTrack := eSource x g } x rfl).trans (rowKept_setGfmState (by decide) g _))
        · exact hfail.trans (((rowKept_stopStage g x).trans (rowKept_setGfmState (by decide) g _)).trans (rowKept_setContactor ..))
      · exact .refl g s

theorem rowKept_contWhileOpen (g : Fin 2) (prev : Option Bool) (fb : Bool) (s : State) : RowKept g s (contWhileOpen g prev fb s) := by
  unfold contWhileOpen
  dsimp only
  split
  · split
    · exact rowKept_setGfm _ s rfl
    · exact .refl g s
  · split
    · exact .refl g s
    · split
      · have hfail := rowKept_contFail g 4 s
        generalize contFail g 4 s = x at hfail ⊢
        split
        · exact hfail.trans (rowKept_failGfm g x)
        · exact hfail
      · split
        · exact ((rowKept_setGfm { s.gfm.stages[g] with noOpen := true } s rfl).trans (rowKept_contFail g 2 _)).trans (rowKept_failGfm g _)
        · exact .refl g s

/-- A contactor check by its feedback, shown already. -/
def contactorJudged (g : Fin 2) (fb : Bool) (s : State) : State :=
  if !flg s (Reg.GFM_CONT (2 * g)) F.GFM_CONT_en ∨ isStandby s then s
  else
    let prev := s.gfm.stages[g].fbPrev
    let s := setGfm g { s.gfm.stages[g] with fbPrev := some fb } s
    if contClosed s g then contWhileClosed g (prev.getD fb) fb s else contWhileOpen g prev fb s

theorem contactorRows_eq (g : Fin 2) (s : State) : contactorRows g s =
    contactorJudged g (contFb s g) (setF s (Reg.GFM_STATE (2 * g)) F.GFM_STATE_cont_fb (b2n (contFb s g))) := rfl

theorem rowKept_contactorJudged (g : Fin 2) (fb : Bool) (s : State) : RowKept g s (contactorJudged g fb s) := by
  unfold contactorJudged
  dsimp only
  have hset := rowKept_setGfm { s.gfm.stages[g] with fbPrev := some fb } s rfl
  generalize setGfm g { s.gfm.stages[g] with fbPrev := some fb } s = x at hset ⊢
  split
  · exact .refl g s
  · split
    · exact hset.trans (rowKept_contWhileClosed ..)
    · exact hset.trans (rowKept_contWhileOpen ..)

theorem rowKept_contactorRows (g : Fin 2) (s : State) : RowKept g s (contactorRows g s) := by
  rw [contactorRows_eq]
  exact (rowKept_setF g _ _ s (by decide)).trans (rowKept_contactorJudged ..)

theorem rowKept_rideExpire (g : Fin 2) (s : State) : RowKept g s (rideExpire g s) :=
  ((rowKept_stopStage g s).trans (rowKept_setGfmState (by decide) g _)).trans (rowKept_logN ..)

/-- The rows of a stage in RIDE, its milliseconds of restored V_dc counted. -/
def rideCounted (g : Fin 2) (s : State) : State :=
  setGfm g { s.gfm.stages[g] with rideOkMs := if vdcOk s g then s.gfm.stages[g].rideOkMs + 1 else 0 } s

theorem rowKept_rideRows (g : Fin 2) (s : State) : RowKept g s (rideRows g s) := by
  unfold rideRows
  dsimp only
  have hset : RowKept g s (rideCounted g s) := rowKept_setGfm _ s rfl
  unfold rideCounted at hset
  generalize setGfm g { s.gfm.stages[g] with rideOkMs := if vdcOk s g then s.gfm.stages[g].rideOkMs + 1 else 0 } s = x at hset ⊢
  split
  · exact ((rowKept_stopStage g s).trans (rowKept_setGfmState (by decide) g _)).trans (rowKept_logEvent ..)
  · split
    · split
      · exact hset.trans (rowKept_setGfmState (by decide) g x)
      · split
        · exact hset.trans (rowKept_enterWaitSlot g x)
        · split
          · exact hset.trans (rowKept_rideExpire g x)
          · exact hset
    · exact .refl g s

theorem rowKept_leaveSlot (g : Fin 2) (s : State) : RowKept g s (leaveSlot g s) := by
  unfold leaveSlot
  split
  · exact rowKept_setGfmState (by decide) g s
  · exact rowKept_setGfmState (by decide) g s

theorem rowKept_lineRows (g : Fin 2) (s : State) : RowKept g s (lineRows g s) := by
  unfold lineRows
  dsimp only
  split
  · split
    · exact rowKept_enterWaitSlot g s
    · split
      · exact (rowKept_setGfmState (by decide) g s).trans (rowKept_orderStage ..)
      · exact .refl g s
  · split
    · exact rowKept_leaveSlot g s
    · split
      · exact (rowKept_stopStage g s).trans (rowKept_setGfmState (by decide) g _)
      · split
        · split
          · exact (rowKept_setGfmState (by decide) g s).trans (rowKept_orderStage ..)
          · split
            · exact rowKept_enterWaitSlot g s
            · exact .refl g s
        · exact .refl g s

theorem rowKept_takeSlot (g : Fin 2) (t : BitVec 64) (s : State) : RowKept g s (takeSlot g t s) := by
  unfold takeSlot
  dsimp only
  split
  · split
    · exact (rowKept_setGfmState (by decide) g s).trans (rowKept_logEvent ..)
    · exact rowKept_chooseSlot ..
  · split
    · exact ((rowKept_setGfmState (by decide) g s).trans (rowKept_orderStage ..)).trans (rowKept_logEvent ..)
    · exact rowKept_chooseSlot ..

theorem rowKept_slotRows (g : Fin 2) (s : State) : RowKept g s (slotRows g s) := by
  unfold slotRows
  split
  · exact .refl g s
  · split
    · exact rowKept_leaveSlot g s
    · split
      · exact .refl g s
      · split
        · exact rowKept_takeSlot ..
        · exact .refl g s

theorem rowKept_countWindow (g : Fin 2) (s : State) : RowKept g s (countWindow g s) := rowKept_setGfm _ s rfl

/-- The close of row 14. -/
def windowClosed (g : Fin 2) (s : State) : State :=
  let x := s.gfm.stages[g]
  let s := setGfmState g gClosingLive s
  let s := startBlend (gst g) (blendTerm s (gst g) 0) (blendTerm s (gst g) 1) (x.eTrack - eDroop s g) s
  logEvent 0x5007 (2 * g) (centiDeg x.predicted) s

theorem windowRow_eq (g : Fin 2) (s : State) : windowRow g s =
    if gState s g ≠ gSync ∨ stageMode s (gst g) ≠ modeVsm then s
    else if fld (countWindow g s) (Reg.GFM_SYNC (2 * g)) F.GFM_SYNC_t_sync_hold ≤ (countWindow g s).gfm.stages[g].winMs ∧
      permitLive (countWindow g s) g then windowClosed g (countWindow g s) else countWindow g s := rfl

theorem rowKept_windowClosed (g : Fin 2) (s : State) : RowKept g s (windowClosed g s) :=
  ((rowKept_setGfmState (by decide) g s).trans (rowKept_startBlend ..)).trans (rowKept_logEvent ..)

theorem rowKept_windowRow (g : Fin 2) (s : State) : RowKept g s (windowRow g s) := by
  rw [windowRow_eq]
  have hcount := rowKept_countWindow g s
  generalize countWindow g s = x at hcount ⊢
  split
  · exact .refl g s
  · split
    · exact hcount.trans (rowKept_windowClosed g x)
    · exact hcount

theorem rowKept_syncRow (g : Fin 2) (s : State) : RowKept g s (syncRow g s) := by
  unfold syncRow
  split
  · exact (rowKept_failGfm g s).trans (rowKept_logEvent ..)
  · exact .refl g s

/-- The rows of a millisecond after the contactor's. -/
def decideGfm (g : Fin 2) (s : State) : State :=
  if isStandby s then s else syncRow g (windowRow g (slotRows g (lineRows g (rideRows g s))))

theorem evaluateGfm_eq (g : Fin 2) (s : State) : evaluateGfm g s = decideGfm g (contactorRows g (blockedRow g s)) := rfl

theorem rowKept_decideGfm (g : Fin 2) (s : State) : RowKept g s (decideGfm g s) := by
  unfold decideGfm
  split
  · exact .refl g s
  · exact ((((rowKept_rideRows g s).trans (rowKept_lineRows ..)).trans (rowKept_slotRows ..)).trans (rowKept_windowRow ..)).trans
      (rowKept_syncRow ..)

theorem rowKept_evaluateGfm (g : Fin 2) (s : State) : RowKept g s (evaluateGfm g s) := by
  rw [evaluateGfm_eq]
  exact ((rowKept_blockedRow g s).trans (rowKept_contactorRows ..)).trans (rowKept_decideGfm ..)

/-! ### What the permissions hang on -/

theorem rowReg_of_low {a : Nat} (hb : blockAt a = some .gfm) (hlow : a < Reg.GFM_STATE (2 * g)) : RowReg g a := by
  refine ⟨hb, by omega, ?_⟩
  simp only [Reg.GFM_STATE, Reg.GFM_SLOT] at hlow ⊢
  omega

theorem rowReg_GFM_CFG (g : Fin 2) : RowReg g (Reg.GFM_CFG (2 * g)) :=
  rowReg_of_low ((by decide : ∀ g : Fin 2, blockAt (Reg.GFM_CFG (2 * g)) = some .gfm) g) (by simp only [Reg.GFM_CFG, Reg.GFM_STATE]; omega)

theorem rowReg_GFM_BS (g : Fin 2) : RowReg g (Reg.GFM_BS (2 * g)) :=
  rowReg_of_low ((by decide : ∀ g : Fin 2, blockAt (Reg.GFM_BS (2 * g)) = some .gfm) g) (by simp only [Reg.GFM_BS, Reg.GFM_STATE]; omega)

theorem rowReg_GFM_LIVE (g : Fin 2) : RowReg g (Reg.GFM_LIVE (2 * g)) :=
  rowReg_of_low ((by decide : ∀ g : Fin 2, blockAt (Reg.GFM_LIVE (2 * g)) = some .gfm) g) (by simp only [Reg.GFM_LIVE, Reg.GFM_STATE]; omega)

theorem rowReg_GFM_SYNC (g : Fin 2) : RowReg g (Reg.GFM_SYNC (2 * g)) :=
  rowReg_of_low ((by decide : ∀ g : Fin 2, blockAt (Reg.GFM_SYNC (2 * g)) = some .gfm) g) (by simp only [Reg.GFM_SYNC, Reg.GFM_STATE]; omega)

theorem rowReg_GFM_CONT (g : Fin 2) : RowReg g (Reg.GFM_CONT (2 * g)) :=
  rowReg_of_low ((by decide : ∀ g : Fin 2, blockAt (Reg.GFM_CONT (2 * g)) = some .gfm) g) (by simp only [Reg.GFM_CONT, Reg.GFM_STATE]; omega)

theorem rowReg_GFM_RT (g : Fin 2) : RowReg g (Reg.GFM_RT (2 * g)) :=
  rowReg_of_low ((by decide : ∀ g : Fin 2, blockAt (Reg.GFM_RT (2 * g)) = some .gfm) g) (by simp only [Reg.GFM_RT, Reg.GFM_STATE]; omega)

/-- The permissions of two states with the same view and the same settings. -/
structure LineSame (g : Fin 2) (s t : State) : Prop where
  view : lineView t.gfm.stages[g] = lineView s.gfm.stages[g]
  regs : ∀ a, RowReg g a → rd t a = rd s a

theorem RowKept.line (h : RowKept g s t) : LineSame g s t := ⟨h.view, h.regs⟩

section Same

variable (h : LineSame g s t)

include h

theorem LineSame.classOf (v f : Rat) : Machine.classOf t g v f = Machine.classOf s g v f := by
  have hf60 : flg t (Reg.GFM_CFG (2 * g)) F.GFM_CFG_f60 = flg s (Reg.GFM_CFG (2 * g)) F.GFM_CFG_f60 := flg_of_rd (h.regs _ (rowReg_GFM_CFG g)) _
  have hdead : pu12 t (Reg.GFM_BS (2 * g)) F.GFM_BS_v_dead = pu12 s (Reg.GFM_BS (2 * g)) F.GFM_BS_v_dead := pu12_of_rd (h.regs _ (rowReg_GFM_BS g))
  have hlive : pu12 t (Reg.GFM_LIVE (2 * g)) F.GFM_LIVE_v_live = pu12 s (Reg.GFM_LIVE (2 * g)) F.GFM_LIVE_v_live :=
    pu12_of_rd (h.regs _ (rowReg_GFM_LIVE g))
  unfold Machine.classOf ratedHz
  rw [hf60, hdead, hlive]

theorem LineSame.deadConfirmed : Machine.deadConfirmed t g = Machine.deadConfirmed s g := by
  have hms := congrArg LineView.deadMs h.view
  have hset := fld_of_rd (h.regs _ (rowReg_GFM_LIVE g)) F.GFM_LIVE_t_dead
  unfold Machine.deadConfirmed
  rw [hset, show t.gfm.stages[g].deadMs = s.gfm.stages[g].deadMs from hms]

theorem LineSame.liveConfirmed : Machine.liveConfirmed t g = Machine.liveConfirmed s g := by
  have hms := congrArg LineView.liveMs h.view
  have hset := fld_of_rd (h.regs _ (rowReg_GFM_LIVE g)) F.GFM_LIVE_t_live
  unfold Machine.liveConfirmed
  rw [hset, show t.gfm.stages[g].liveMs = s.gfm.stages[g].liveMs from hms]

theorem LineSame.lineClass : t.gfm.stages[g].lineClass = s.gfm.stages[g].lineClass := congrArg LineView.lineClass h.view

theorem LineSame.lineDead : Machine.lineDead t g = Machine.lineDead s g := by
  rw [Machine.lineDead, Machine.lineDead, h.lineClass]

theorem LineSame.lineLive : Machine.lineLive t g = Machine.lineLive s g := by
  rw [Machine.lineLive, Machine.lineLive, h.lineClass]

theorem LineSame.vdcOk : Machine.vdcOk t g = Machine.vdcOk s g := by
  have hv : t.gfm.stages[g].vdc = s.gfm.stages[g].vdc := congrArg LineView.vdc h.view
  have hset := h.regs _ (rowReg_GFM_RT g)
  have hfld := fld_of_rd hset F.GFM_RT_v_dc_stop
  unfold Machine.vdcOk
  rw [hv, hset, hfld]

theorem LineSame.windows : angWin t g = angWin s g ∧ slipHz t g = slipHz s g ∧ voltWin t g = voltWin s g := by
  have hset := h.regs _ (rowReg_GFM_SYNC g)
  unfold angWin slipHz voltWin
  rw [fld_of_rd hset, fld_of_rd hset, fld_of_rd hset]
  exact ⟨rfl, rfl, rfl⟩

theorem LineSame.permitDead : Machine.permitDead t g = Machine.permitDead s g := by
  have hv : t.gfm.stages[g].vc = s.gfm.stages[g].vc := congrArg LineView.vc h.view
  have hdead : pu12 t (Reg.GFM_BS (2 * g)) F.GFM_BS_v_dead = pu12 s (Reg.GFM_BS (2 * g)) F.GFM_BS_v_dead := pu12_of_rd (h.regs _ (rowReg_GFM_BS g))
  unfold Machine.permitDead
  rw [h.deadConfirmed, hv, hdead]

theorem LineSame.permitLive : Machine.permitLive t g = Machine.permitLive s g := by
  have hvl : t.gfm.stages[g].vl = s.gfm.stages[g].vl := congrArg LineView.vl h.view
  have hfl : t.gfm.stages[g].fl = s.gfm.stages[g].fl := congrArg LineView.fl h.view
  have hvc : t.gfm.stages[g].vc = s.gfm.stages[g].vc := congrArg LineView.vc h.view
  have hfc : t.gfm.stages[g].fc = s.gfm.stages[g].fc := congrArg LineView.fc h.view
  have hphi : t.gfm.stages[g].phi = s.gfm.stages[g].phi := congrArg LineView.phi h.view
  have hphiC : t.gfm.stages[g].phiC = s.gfm.stages[g].phiC := congrArg LineView.phiC h.view
  obtain ⟨hang, hslip, hvolt⟩ := h.windows
  unfold Machine.permitLive deltaOf
  dsimp only
  rw [h.lineLive, h.classOf, hvl, hfl, hvc, hfc, hphi, hphiC, hang, hslip, hvolt]

end Same

end Kept

end Sys2Proof.Machine
end


section
/-! PROOFS. What a millisecond of a line's evaluation takes before its rows act (R219, R233, R235). -/

namespace Sys2Proof.Machine

open Sys2Proof Sys2Proof.Safety Sys2Proof.Laws

/-- Two fields of a word do not overlap. -/
abbrev Apart (G H : Fld) : Prop := H.lo + H.w ≤ G.lo ∨ G.lo + G.w ≤ H.lo

/-- The fields of GFM_STATE that a measurement and a quiet contactor check do not write. -/
abbrev NotShown (H : Fld) : Prop := Apart F.GFM_STATE_phi H ∧ Apart F.GFM_STATE_permit H ∧ Apart F.GFM_STATE_cont_fb H

/-- Nothing of a grid-forming stage has moved: no state, no request, no event, no setting. -/
structure GfmQuiet (g : Fin 2) (s t : State) : Prop where
  fields : ∀ H, NotShown H → fld t (Reg.GFM_STATE (2 * g)) H = fld s (Reg.GFM_STATE (2 * g)) H
  regs : ∀ a, a ≠ Reg.GFM_STATE (2 * g) → a ≠ Reg.GFM_FREQ (2 * g) → rd t a = rd s a
  loop : t.loop = s.loop
  log : t.log = s.log

section Quiet

variable {g : Fin 2} {s x t : State}

theorem GfmQuiet.refl (g : Fin 2) (s : State) : GfmQuiet g s s := ⟨fun _ _ => rfl, fun _ _ _ => rfl, rfl, rfl⟩

theorem GfmQuiet.trans (h : GfmQuiet g s x) (h' : GfmQuiet g x t) : GfmQuiet g s t :=
  ⟨fun H hH => (h'.fields H hH).trans (h.fields H hH), fun a h1 h2 => (h'.regs a h1 h2).trans (h.regs a h1 h2), h'.loop.trans h.loop,
    h'.log.trans h.log⟩

section Same

variable (h : GfmQuiet g s t)

include h

theorem GfmQuiet.gState : Machine.gState t g = Machine.gState s g := h.fields _ (by decide)

theorem GfmQuiet.contClosed : Machine.contClosed t g = Machine.contClosed s g := by
  rw [Machine.contClosed, Machine.contClosed, flg, flg, h.fields _ (by decide)]

theorem GfmQuiet.attempt : attemptOf t g = attemptOf s g := h.fields _ (by decide)

theorem GfmQuiet.isStandby : Machine.isStandby t = Machine.isStandby s := by
  have hne : Reg.DPX_STATUS ≠ Reg.GFM_STATE (2 * g) ∧ Reg.DPX_STATUS ≠ Reg.GFM_FREQ (2 * g) := by
    simp only [Reg.DPX_STATUS, Reg.GFM_STATE, Reg.GFM_FREQ]
    omega
  rw [Machine.isStandby, Machine.isStandby, fld_of_rd (h.regs _ hne.1 hne.2)]

theorem GfmQuiet.reg_other {a : Nat} (hb : blockAt a ≠ some .gfm) : rd t a = rd s a :=
  h.regs a (fun e => hb (e ▸ (by decide : ∀ g : Fin 2, blockAt (Reg.GFM_STATE (2 * g)) = some .gfm) g))
    (fun e => hb (e ▸ (by decide : ∀ g : Fin 2, blockAt (Reg.GFM_FREQ (2 * g)) = some .gfm) g))

theorem GfmQuiet.stageKind : Machine.stageKind t (gst g) = Machine.stageKind s (gst g) :=
  fld_of_rd (h.reg_other ((by decide : ∀ g : Fin 2, blockAt (Reg.CTRL_STAGE_CFG (gst g)) ≠ some .gfm) g)) _

theorem GfmQuiet.stageMode : Machine.stageMode t (gst g) = Machine.stageMode s (gst g) :=
  fld_of_rd (h.reg_other ((by decide : ∀ g : Fin 2, blockAt (Reg.CTRL_STAGE_STATE (gst g)) ≠ some .gfm) g)) _

theorem GfmQuiet.isBlocked : Machine.isBlocked t (gst g) = Machine.isBlocked s (gst g) := by
  rw [Machine.isBlocked, Machine.isBlocked, h.stageMode, latchedBlocked, latchedBlocked, fbit_of_rd (h.reg_other (by decide))]

theorem GfmQuiet.setting {a : Nat} (ha : RowReg g a) (hne : a ≠ Reg.GFM_FREQ (2 * g)) : rd t a = rd s a := h.regs a ha.state hne

theorem GfmQuiet.cont : rd t (Reg.GFM_CONT (2 * g)) = rd s (Reg.GFM_CONT (2 * g)) :=
  h.setting (rowReg_GFM_CONT g) (by simp only [Reg.GFM_CONT, Reg.GFM_FREQ]; omega)

theorem GfmQuiet.contFb : Machine.contFb t g = Machine.contFb s g := by
  rw [Machine.contFb, Machine.contFb, flg_of_rd h.cont, fld_of_rd h.cont, diLevel, diLevel, fbit_of_rd (h.reg_other (by decide))]

theorem GfmQuiet.room {n : Nat} (hroom : Room n s) : Room n t := by
  unfold Room
  rw [h.log]
  exact hroom

end Same

/-! ### The measurement of a millisecond -/

/-- A stage with the usable phasors of a millisecond. -/
def takenStage (m : LineMeas) (x : GfmStage) : GfmStage :=
  let x := if m.lineUsable then { x with vl := m.vl, phi := wrapDeg m.phi, fl := m.fl } else x
  let x := if m.convUsable then { x with vc := m.vc, phiC := wrapDeg m.phiC, fc := m.fc } else x
  { x with delta := deltaOf x }

theorem takeLine_eq (g : Fin 2) (m : LineMeas) (s : State) : ∃ v w, takeLine g m s =
    setF (setF (setGfm g (takenStage m s.gfm.stages[g]) s) (Reg.GFM_STATE (2 * g)) F.GFM_STATE_phi v) (Reg.GFM_FREQ (2 * g)) F.GFM_FREQ_f_line w :=
  ⟨_, _, rfl⟩

/-- A millisecond counted for a class, where the counts run. -/
def countedMs (on run : Bool) (k : Nat) : Nat := if on then (if run then k + 1 else k) else 0

/-- A stage with a millisecond of a class counted. -/
def countedStage (c : Nat) (run : Bool) (x : GfmStage) : GfmStage :=
  { x with lineClass := c, deadMs := countedMs (c == 1) run x.deadMs, liveMs := countedMs (c == 2) run x.liveMs,
           notLiveMs := countedMs (c != 2) run x.notLiveMs }

/-- Do the counts of the line run (R233)? -/
def countsRun (s : State) (g : Fin 2) : Bool := decide (gState s g ≠ gStopped ∧ gState s g ≠ gFailed)

theorem countLine_eq (g : Fin 2) (s : State) : countLine g s =
    setGfm g (countedStage (classOf s g s.gfm.stages[g].vl s.gfm.stages[g].fl) (countsRun s g) s.gfm.stages[g]) s := by
  unfold countLine countedStage countsRun countedMs
  simp only [decide_eq_true_eq]

/-- What a measurement has made of a stage: its phasors, its class, its counts and the instant. -/
structure LineTaken (g : Fin 2) (m : LineMeas) (s t : State) : Prop where
  quiet : GfmQuiet g s t
  stage : t.gfm.stages[g] = countedStage (classOf s g (takenStage m s.gfm.stages[g]).vl (takenStage m s.gfm.stages[g]).fl) (countsRun s g)
    { takenStage m s.gfm.stages[g] with evalAt := some (localNs t) }
  permit : fld t (Reg.GFM_STATE (2 * g)) F.GFM_STATE_permit = b2n (permitLive t g || permitDead t g)
  due : ∀ e, s.gfm.stages[g].evalAt = some e → e + 1000000 ≤ localNs t

theorem GfmQuiet.line (h : GfmQuiet g s t) (hview : lineView t.gfm.stages[g] = lineView s.gfm.stages[g])
    (hfreq : rd t (Reg.GFM_FREQ (2 * g)) = rd s (Reg.GFM_FREQ (2 * g))) : LineSame g s t :=
  ⟨hview, fun a ha => by
    by_cases hne : a = Reg.GFM_FREQ (2 * g)
    · rw [hne, hfreq]
    · exact h.regs a ha.state hne⟩

theorem GfmQuiet.classOf (h : GfmQuiet g s t) (v f : Rat) : Machine.classOf t g v f = Machine.classOf s g v f := by
  have hcfg := h.setting (rowReg_GFM_CFG g) (by simp only [Reg.GFM_CFG, Reg.GFM_FREQ]; omega)
  have hbs := h.setting (rowReg_GFM_BS g) (by simp only [Reg.GFM_BS, Reg.GFM_FREQ]; omega)
  have hlive := h.setting (rowReg_GFM_LIVE g) (by simp only [Reg.GFM_LIVE, Reg.GFM_FREQ]; omega)
  unfold Machine.classOf ratedHz
  rw [flg_of_rd hcfg, pu12_of_rd hbs, pu12_of_rd hlive]

theorem GfmQuiet.countsRun (h : GfmQuiet g s t) : Machine.countsRun t g = Machine.countsRun s g := by
  rw [Machine.countsRun, Machine.countsRun, h.gState]

theorem quiet_setGfm (y : GfmStage) (s : State) : GfmQuiet g s (setGfm g y s) := ⟨fun _ _ => rfl, fun _ _ _ => rfl, rfl, rfl⟩

theorem quiet_setF_state {G : Fld} (hG : ∀ H, NotShown H → Apart G H) (v : Nat) (s : State) :
    GfmQuiet g s (setF s (Reg.GFM_STATE (2 * g)) G v) :=
  ⟨fun H hH => fld_setF_disj _ _ _ _ _ (hG H hH), fun _ h1 _ => rd_setF_ne _ _ _ h1, rfl, rfl⟩

theorem quiet_setF_freq (G : Fld) (v : Nat) (s : State) : GfmQuiet g s (setF s (Reg.GFM_FREQ (2 * g)) G v) :=
  ⟨fun H _ => fld_setF_ne _ _ _ _ (by simp only [Reg.GFM_STATE, Reg.GFM_FREQ]; omega), fun _ _ h2 => rd_setF_ne _ _ _ h2, rfl, rfl⟩

theorem takeLine_effect (g : Fin 2) (m : LineMeas) (s : State) : GfmQuiet g s (takeLine g m s) ∧
    (takeLine g m s).gfm.stages[g] = takenStage m s.gfm.stages[g] ∧ (takeLine g m s).ticks = s.ticks := by
  obtain ⟨v, w, h⟩ := takeLine_eq g m s
  rw [h]
  have hset := stages_setGfm g (takenStage m s.gfm.stages[g]) s
  refine ⟨((quiet_setGfm _ s).trans (quiet_setF_state (fun H hH => hH.1) v _)).trans (quiet_setF_freq _ w _), hset, rfl⟩

theorem countLine_effect (g : Fin 2) (s : State) : GfmQuiet g s (countLine g s) ∧ (countLine g s).gfm.stages[g] =
    countedStage (classOf s g s.gfm.stages[g].vl s.gfm.stages[g].fl) (countsRun s g) s.gfm.stages[g] ∧ (countLine g s).ticks = s.ticks := by
  rw [countLine_eq]
  exact ⟨quiet_setGfm _ s, stages_setGfm .., rfl⟩

theorem showPermit_effect (g : Fin 2) (s : State) : GfmQuiet g s (showPermit g s) ∧ (showPermit g s).gfm = s.gfm ∧
    (showPermit g s).ticks = s.ticks ∧
    fld (showPermit g s) (Reg.GFM_STATE (2 * g)) F.GFM_STATE_permit = b2n (permitLive (showPermit g s) g || permitDead (showPermit g s) g) := by
  unfold showPermit
  have hquiet : GfmQuiet g s (setF s (Reg.GFM_STATE (2 * g)) F.GFM_STATE_permit (b2n (permitLive s g || permitDead s g))) :=
    quiet_setF_state (fun H hH => hH.2.1) _ s
  have hset := fld_setF s (Reg.GFM_STATE (2 * g)) F.GFM_STATE_permit (b2n (permitLive s g || permitDead s g)) (by decide)
  have hfreq : rd (setF s (Reg.GFM_STATE (2 * g)) F.GFM_STATE_permit (b2n (permitLive s g || permitDead s g))) (Reg.GFM_FREQ (2 * g)) =
      rd s (Reg.GFM_FREQ (2 * g)) := rd_setF_ne _ _ _ (by simp only [Reg.GFM_STATE, Reg.GFM_FREQ]; omega)
  have hsame := hquiet.line rfl hfreq
  rw [hsame.permitLive, hsame.permitDead]
  refine ⟨hquiet, rfl, rfl, hset.trans (Nat.mod_eq_of_lt ?_)⟩
  cases permitLive s g || permitDead s g <;> decide

/-- Local time reaches the millisecond after the last one, where there was one. -/
def reachNext (last : Option Nat) (s : State) : State :=
  match last with
  | none => s
  | some t => reachLocal (t + 1000000) s

/-- The instant of a measurement is noted. -/
def stampEval (g : Fin 2) (s : State) : State := setGfm g { s.gfm.stages[g] with evalAt := some (localNs s) } s

/-- The state in which the millisecond is measured. -/
def evalReached (g : Fin 2) (s : State) : State := stampEval g (reachNext s.gfm.stages[g].evalAt s)

/-- The state in which the rows of a millisecond act. -/
def lineTaken (g : Fin 2) (m : LineMeas) (s : State) : State := showPermit g (countLine g (takeLine g m (evalReached g s)))

theorem classify_eq {m : LineMeas} (hkind : stageKind s (gst g) = kindGridForming) : classify g m s = evaluateGfm g (lineTaken g m s) :=
  if_neg (not_not.mpr hkind)

theorem classify_other {m : LineMeas} (hkind : stageKind s (gst g) ≠ kindGridForming) : classify g m s = s := if_pos hkind

theorem loop_reachLocal (q : Nat) (s : State) : (reachLocal q s).loop = s.loop := rfl

theorem gfm_reachLocal (q : Nat) (s : State) : (reachLocal q s).gfm = s.gfm := rfl

theorem quiet_reachLocal (g : Fin 2) (q : Nat) (s : State) : GfmQuiet g s (reachLocal q s) :=
  ⟨fun _ _ => fld_of_rd (rd_reachLocal q s _) _, fun a _ _ => rd_reachLocal q s a, loop_reachLocal q s, log_reachLocal q s⟩

theorem reachNext_effect (g : Fin 2) (last : Option Nat) (s : State) : GfmQuiet g s (reachNext last s) ∧
    (reachNext last s).gfm = s.gfm ∧ (∀ e, last = some e → e + 1000000 ≤ localNs (reachNext last s)) := by
  cases last with
  | none => exact ⟨.refl g s, rfl, nofun⟩
  | some q =>
    refine ⟨quiet_reachLocal g _ s, gfm_reachLocal _ s, fun e he => ?_⟩
    obtain rfl : q = e := Option.some.inj he
    exact localNs_reachLocal _ s

theorem evalReached_effect (g : Fin 2) (s : State) : GfmQuiet g s (evalReached g s) ∧
    (evalReached g s).gfm.stages[g] = { s.gfm.stages[g] with evalAt := some (localNs (evalReached g s)) } ∧
    (∀ e, s.gfm.stages[g].evalAt = some e → e + 1000000 ≤ localNs (evalReached g s)) := by
  unfold evalReached
  obtain ⟨hquiet, hgfm, hdue⟩ := reachNext_effect g s.gfm.stages[g].evalAt s
  generalize reachNext s.gfm.stages[g].evalAt s = x at hquiet hgfm hdue ⊢
  have hset : (stampEval g x).gfm.stages[g] = _ := stages_setGfm g { x.gfm.stages[g] with evalAt := some (localNs x) } x
  exact ⟨hquiet.trans (quiet_setGfm _ x), hset.trans (by rw [hgfm]; rfl), hdue⟩

theorem takenStage_evalAt (m : LineMeas) (x : GfmStage) (q : Option Nat) :
    takenStage m { x with evalAt := q } = { takenStage m x with evalAt := q } := by
  unfold takenStage deltaOf
  cases m.lineUsable <;> cases m.convUsable <;> rfl

theorem lineTaken_effect (g : Fin 2) (m : LineMeas) (s : State) : LineTaken g m s (lineTaken g m s) := by
  unfold lineTaken
  obtain ⟨hquiet, hstage, hdue⟩ := evalReached_effect g s
  generalize evalReached g s = w at hquiet hstage hdue ⊢
  obtain ⟨hquiet1, hstage1, hticks1⟩ := takeLine_effect g m w
  generalize takeLine g m w = x at hquiet1 hstage1 hticks1 ⊢
  obtain ⟨hquiet2, hstage2, hticks2⟩ := countLine_effect g x
  generalize countLine g x = y at hquiet2 hstage2 hticks2 ⊢
  obtain ⟨hquiet3, hgfm3, hticks3, hpermit⟩ := showPermit_effect g y
  generalize showPermit g y = z at hquiet3 hgfm3 hticks3 hpermit ⊢
  have hlocal : localNs z = localNs w := localNs_of_ticks (hticks3.trans (hticks2.trans hticks1))
  have hx : x.gfm.stages[g] = { takenStage m s.gfm.stages[g] with evalAt := some (localNs z) } := by
    rw [hstage1, hstage, takenStage_evalAt, hlocal]
  refine ⟨((hquiet.trans hquiet1).trans hquiet2).trans hquiet3, ?_, hpermit, fun e he => hlocal ▸ hdue e he⟩
  rw [hgfm3, hstage2, (hquiet.trans hquiet1).classOf, (hquiet.trans hquiet1).countsRun, hx]

section Taken

variable {m : LineMeas}

theorem takenStage_line (hl : m.lineUsable = true) (x : GfmStage) : (takenStage m x).vl = m.vl ∧ (takenStage m x).fl = m.fl ∧
    (takenStage m x).phi = wrapDeg m.phi := by
  unfold takenStage
  rw [if_pos hl]
  cases m.convUsable <;> exact ⟨rfl, rfl, rfl⟩

theorem takenStage_noLine (hl : m.lineUsable = false) (x : GfmStage) : (takenStage m x).vl = x.vl ∧ (takenStage m x).fl = x.fl := by
  unfold takenStage
  rw [hl]
  cases m.convUsable <;> exact ⟨rfl, rfl⟩

theorem takenStage_conv (hc : m.convUsable = true) (x : GfmStage) : (takenStage m x).vc = m.vc ∧ (takenStage m x).fc = m.fc ∧
    (takenStage m x).phiC = wrapDeg m.phiC := by
  unfold takenStage
  dsimp only
  rw [if_pos hc]
  exact ⟨rfl, rfl, rfl⟩

theorem takenStage_noConv (hc : m.convUsable = false) (x : GfmStage) : (takenStage m x).vc = x.vc ∧ (takenStage m x).fc = x.fc := by
  unfold takenStage
  rw [hc]
  cases m.lineUsable <;> exact ⟨rfl, rfl⟩

/-- What a measurement leaves of a stage. -/
structure TakenRest (x y : GfmStage) : Prop where
  contAt : y.contAt = x.contAt
  slot : y.slot = x.slot
  stateAt : y.stateAt = x.stateAt
  deadMs : y.deadMs = x.deadMs
  liveMs : y.liveMs = x.liveMs
  vdc : y.vdc = x.vdc
  winMs : y.winMs = x.winMs
  rideOkMs : y.rideOkMs = x.rideOkMs
  noOpen : y.noOpen = x.noOpen
  fbPrev : y.fbPrev = x.fbPrev

theorem takenStage_rest (m : LineMeas) (x : GfmStage) : TakenRest x (takenStage m x) := by
  unfold takenStage
  cases m.lineUsable <;> cases m.convUsable <;> exact ⟨rfl, rfl, rfl, rfl, rfl, rfl, rfl, rfl, rfl, rfl⟩

end Taken

/-! ### A contactor check that finds nothing -/

/-- A contactor check that finds the contactor as commanded, outside a closing. -/
structure ContactorQuiet (g : Fin 2) (s t : State) : Prop where
  quiet : GfmQuiet g s t
  ticks : t.ticks = s.ticks
  tai : t.tai = s.tai
  freq : rd t (Reg.GFM_FREQ (2 * g)) = rd s (Reg.GFM_FREQ (2 * g))
  stage : ∃ a b, t.gfm.stages[g] = { s.gfm.stages[g] with fbPrev := a, noOpen := b }

theorem ContactorQuiet.line (h : ContactorQuiet g s t) : LineSame g s t := by
  obtain ⟨a, b, hstage⟩ := h.stage
  exact h.quiet.line (by rw [hstage]; rfl) h.freq

theorem contWhileClosed_quiet (prev : Bool) (hdead : gState s g ≠ gClosingDead) (hlive : gState s g ≠ gClosingLive) :
    contWhileClosed g prev true s = s := by
  unfold contWhileClosed
  dsimp only
  rw [if_pos rfl, if_neg hdead, if_neg hlive]

theorem contWhileOpen_quiet (prev : Option Bool) (s : State) : ∃ b, contWhileOpen g prev false s =
    setGfm g { s.gfm.stages[g] with noOpen := b } s ∨ contWhileOpen g prev false s = s := by
  unfold contWhileOpen
  dsimp only
  rw [if_pos (show (!false) = true from rfl)]
  split
  · exact ⟨false, .inl rfl⟩
  · exact ⟨false, .inr rfl⟩

theorem contactorRows_quiet (hfb : contFb s g = contClosed s g) (hdead : gState s g ≠ gClosingDead) (hlive : gState s g ≠ gClosingLive) :
    ContactorQuiet g s (contactorRows g s) := by
  rw [contactorRows_eq]
  have hshow : GfmQuiet g s (setF s (Reg.GFM_STATE (2 * g)) F.GFM_STATE_cont_fb (b2n (contFb s g))) :=
    quiet_setF_state (fun H hH => hH.2.2) _ s
  have hfreq : rd (setF s (Reg.GFM_STATE (2 * g)) F.GFM_STATE_cont_fb (b2n (contFb s g))) (Reg.GFM_FREQ (2 * g)) =
      rd s (Reg.GFM_FREQ (2 * g)) := rd_setF_ne _ _ _ (by simp only [Reg.GFM_STATE, Reg.GFM_FREQ]; omega)
  have hgfm : (setF s (Reg.GFM_STATE (2 * g)) F.GFM_STATE_cont_fb (b2n (contFb s g))).gfm = s.gfm := rfl
  have hticks : (setF s (Reg.GFM_STATE (2 * g)) F.GFM_STATE_cont_fb (b2n (contFb s g))).ticks = s.ticks := rfl
  have htai : (setF s (Reg.GFM_STATE (2 * g)) F.GFM_STATE_cont_fb (b2n (contFb s g))).tai = s.tai := rfl
  generalize setF s (Reg.GFM_STATE (2 * g)) F.GFM_STATE_cont_fb (b2n (contFb s g)) = x at hshow hfreq hgfm hticks htai ⊢
  rw [hfb]
  unfold contactorJudged
  dsimp only
  split
  · exact ⟨hshow, hticks, htai, hfreq, _, _, by rw [hgfm]⟩
  · have hset := stages_setGfm g { x.gfm.stages[g] with fbPrev := some (contClosed s g) } x
    have hq := hshow.trans (quiet_setGfm { x.gfm.stages[g] with fbPrev := some (contClosed s g) } x)
    have hticks' : (setGfm g { x.gfm.stages[g] with fbPrev := some (contClosed s g) } x).ticks = s.ticks := hticks
    have htai' : (setGfm g { x.gfm.stages[g] with fbPrev := some (contClosed s g) } x).tai = s.tai := htai
    have hfreq' : rd (setGfm g { x.gfm.stages[g] with fbPrev := some (contClosed s g) } x) (Reg.GFM_FREQ (2 * g)) =
      rd s (Reg.GFM_FREQ (2 * g)) := hfreq
    generalize setGfm g { x.gfm.stages[g] with fbPrev := some (contClosed s g) } x = y at hset hq hticks' htai' hfreq' ⊢
    rw [hgfm] at hset
    rw [hq.contClosed]
    cases hclosed : contClosed s g
    · rw [if_neg Bool.false_ne_true]
      obtain ⟨b, h | h⟩ := contWhileOpen_quiet (g := g) x.gfm.stages[g].fbPrev y
      · rw [h]
        exact ⟨hq.trans (quiet_setGfm _ y), hticks', htai', hfreq', _, b, by rw [stages_setGfm, hset]⟩
      · rw [h]
        exact ⟨hq, hticks', htai', hfreq', _, _, hset⟩
    · rw [if_pos rfl, contWhileClosed_quiet _ (by rw [hq.gState]; exact hdead) (by rw [hq.gState]; exact hlive)]
      exact ⟨hq, hticks', htai', hfreq', _, _, hset⟩

end Quiet

end Sys2Proof.Machine
end


section
/-! PROOFS. The line's evaluation and the contactor check (R233 to R235). -/

namespace Sys2Proof.Machine

open Sys2Proof Sys2Proof.Safety Sys2Proof.Laws

section Line

variable {g : Fin 2} {m : LineMeas} {s x t : State}

theorem room_of_log {n : Nat} (h : x.log = s.log) (hroom : Room n s) : Room n x := by
  unfold Room
  rw [h]
  exact hroom

/-- A stage stopped and taken to a state. -/
structure StoppedInto (g : Fin 2) (n : Nat) (s t : State) : Prop where
  state : gState t g = n
  closed : contClosed t g = contactorFor n (contClosed s g)
  stopped : (t.loop.stages[gst g]).stopReq = true
  logged : Room 1 s → Logged [(0x5001, 2 * g.val, BitVec.ofNat 32 (gState s g * 256 + n))] s t
  tai : t.tai = s.tai
  ticks : t.ticks = s.ticks
  attempt : attemptOf t g = attemptOf s g
  stage : ∃ c, t.gfm.stages[g] = { enteredStage n (localNs s) s.gfm.stages[g] with order := none, cmdAt := c }

theorem stoppedInto {n : Nat} (hn : n < 16) (h : gState s g ≠ n) : StoppedInto g n s (setGfmState g n (stopStage g s)) := by
  obtain ⟨hstop, hstage, hlog, hregs, htai, hticks, -⟩ := stopStage_effect g s
  have hst : gState (stopStage g s) g = gState s g := fld_of_regs hregs _ _
  have hclosed : contClosed (stopStage g s) g = contClosed s g := flg_of_regs hregs _ _
  have hatt : attemptOf (stopStage g s) g = attemptOf s g := fld_of_regs hregs _ _
  generalize stopStage g s = x at hstop hstage hlog hregs htai hticks hst hclosed hatt ⊢
  have hmoved := gfmMoved_setGfmState (g := g) (s := x) hn (by rw [hst]; exact h)
  obtain ⟨c, hc⟩ := hmoved.stage
  refine ⟨hmoved.state, hmoved.closed.trans (by rw [hclosed]), by rw [hmoved.loop, hstop], fun hroom => ?_, hmoved.tai.trans htai,
    hmoved.ticks.trans hticks, hmoved.attempt.trans hatt, c, ?_⟩
  · have hlogged := logged_append (logged_nil hlog) (hmoved.logged (room_of_log hlog hroom)) hmoved.tai
    rwa [hst] at hlogged
  · rw [hc, hstage, localNs_of_ticks hticks]
    rfl

theorem failGfm_into (h : gState s g ≠ gFailed) : StoppedInto g gFailed s (failGfm g s) := stoppedInto (by decide) h

/-! ### The clauses of the evaluation -/

theorem countedMs_eq (c n : Nat) (P : Prop) [Decidable P] (k : Nat) :
    countedMs (c == n) (decide P) k = if c = n then (if P then k + 1 else k) else 0 := by
  simp only [countedMs, beq_iff_eq, decide_eq_true_eq]

/-- What LINE_CLASSIFY says of the stage it has evaluated. -/
theorem lineClassify_effect (g : Fin 2) (m : LineMeas) (s : State) (hkind : stageKind s (gst g) = kindGridForming) :
    RowKept g (lineTaken g m s) (classify g m s) ∧ LineTaken g m s (lineTaken g m s) := by
  rw [classify_eq hkind]
  exact ⟨rowKept_evaluateGfm .., lineTaken_effect ..⟩

theorem takenStage_vl (m : LineMeas) (x : GfmStage) : (takenStage m x).vl = (if m.lineUsable then m.vl else x.vl) ∧
    (takenStage m x).fl = (if m.lineUsable then m.fl else x.fl) := by
  cases hl : m.lineUsable
  · exact takenStage_noLine hl x
  · exact ⟨(takenStage_line hl x).1, (takenStage_line hl x).2.1⟩

/-- The fields that a view shows. -/
theorem lineView_fields {x y : GfmStage} (h : lineView y = lineView x) : y.vl = x.vl ∧ y.fl = x.fl ∧ y.vc = x.vc ∧ y.fc = x.fc ∧
    y.lineClass = x.lineClass ∧ y.deadMs = x.deadMs ∧ y.liveMs = x.liveMs ∧ y.evalAt = x.evalAt :=
  ⟨congrArg LineView.vl h, congrArg LineView.fl h, congrArg LineView.vc h, congrArg LineView.fc h, congrArg LineView.lineClass h,
    congrArg LineView.deadMs h, congrArg LineView.liveMs h, congrArg LineView.evalAt h⟩

/-- The fields of a stage measured. -/
theorem takenView (h : LineTaken g m s t) :
    t.gfm.stages[g].vl = (takenStage m s.gfm.stages[g]).vl ∧ t.gfm.stages[g].fl = (takenStage m s.gfm.stages[g]).fl ∧
    t.gfm.stages[g].vc = (takenStage m s.gfm.stages[g]).vc ∧ t.gfm.stages[g].fc = (takenStage m s.gfm.stages[g]).fc ∧
    t.gfm.stages[g].lineClass = classOf s g (takenStage m s.gfm.stages[g]).vl (takenStage m s.gfm.stages[g]).fl ∧
    t.gfm.stages[g].deadMs = countedMs (classOf s g (takenStage m s.gfm.stages[g]).vl (takenStage m s.gfm.stages[g]).fl == 1)
      (countsRun s g) s.gfm.stages[g].deadMs ∧
    t.gfm.stages[g].liveMs = countedMs (classOf s g (takenStage m s.gfm.stages[g]).vl (takenStage m s.gfm.stages[g]).fl == 2)
      (countsRun s g) s.gfm.stages[g].liveMs ∧
    t.gfm.stages[g].evalAt = some (localNs t) := by
  have hrest := takenStage_rest m s.gfm.stages[g]
  rw [h.stage, ← hrest.deadMs, ← hrest.liveMs]
  generalize takenStage m s.gfm.stages[g] = x
  generalize classOf s g x.vl x.fl = c
  generalize some (localNs t) = q
  exact ⟨rfl, rfl, rfl, rfl, rfl, rfl, rfl, rfl⟩

theorem lineClassify_clause (g : Fin 2) (m : LineMeas) (s : State) (hkind : stageKind s (gst g) = kindGridForming) :
    let x := s.gfm.stages[g]
    let vl := if m.lineUsable then m.vl else x.vl
    let fl := if m.lineUsable then m.fl else x.fl
    let run := gState s g ≠ gStopped ∧ gState s g ≠ gFailed
    ∃ t, exec (.lineClassify g m) s = .next t ∧ (t.gfm.stages[g]).vl = vl ∧ (t.gfm.stages[g]).fl = fl ∧
      (m.convUsable = true → (t.gfm.stages[g]).vc = m.vc ∧ (t.gfm.stages[g]).fc = m.fc) ∧
      (m.convUsable = false → (t.gfm.stages[g]).vc = x.vc ∧ (t.gfm.stages[g]).fc = x.fc) ∧
      (t.gfm.stages[g]).lineClass = classOf s g vl fl ∧
      (t.gfm.stages[g]).deadMs = (if classOf s g vl fl = 1 then (if run then x.deadMs + 1 else x.deadMs) else 0) ∧
      (t.gfm.stages[g]).liveMs = (if classOf s g vl fl = 2 then (if run then x.liveMs + 1 else x.liveMs) else 0) ∧
      fld t (Reg.GFM_STATE (2 * g)) F.GFM_STATE_permit = b2n (permitLive t g || permitDead t g) ∧
      (t.gfm.stages[g]).evalAt = some (localNs t) ∧ (∀ e, x.evalAt = some e → e + 1000000 ≤ localNs t) := by
  dsimp only
  obtain ⟨hkept, htaken⟩ := lineClassify_effect g m s hkind
  refine ⟨classify g m s, rfl, ?_⟩
  generalize classify g m s = t at hkept ⊢
  generalize lineTaken g m s = y at hkept htaken
  obtain ⟨hvl, hfl, hvc, hfc, hclass, hdead, hlive, heval⟩ := takenView htaken
  obtain ⟨kvl, kfl, kvc, kfc, kclass, kdead, klive, keval⟩ := lineView_fields hkept.view
  obtain ⟨hvlT, hflT⟩ := takenStage_vl m s.gfm.stages[g]
  rw [kvl, kfl, kvc, kfc, kclass, kdead, klive, keval, hvl, hfl, hvc, hfc, hclass, hdead, hlive, heval, hvlT, hflT,
    localNs_of_ticks hkept.ticks]
  refine ⟨rfl, rfl, fun hc => ?_, fun hc => takenStage_noConv hc _, rfl, ?_, ?_, ?_, rfl, htaken.due⟩
  · obtain ⟨h1, h2, -⟩ := takenStage_conv hc s.gfm.stages[g]
    exact ⟨h1, h2⟩
  · exact countedMs_eq ..
  · exact countedMs_eq ..
  · rw [hkept.permit, htaken.permit, hkept.line.permitLive, hkept.line.permitDead]

/-! ### The rows that a state leaves alone -/

theorem blockedRow_free (h : isBlocked s (gst g) = false) : blockedRow g s = s := if_neg (by rw [h]; exact Bool.false_ne_true)

theorem rideRows_other (hrun : gState s g ≠ gRunning) (hride : gState s g ≠ gRide) : rideRows g s = s := by
  unfold rideRows
  dsimp only
  rw [if_neg (fun h => hrun h.1), if_neg hride]

theorem slotRows_other (h : gState s g ≠ gWaitSlot) : slotRows g s = s := if_pos h

theorem windowRow_other (h : gState s g ≠ gSync ∨ stageMode s (gst g) ≠ modeVsm) : windowRow g s = s := if_pos h

theorem syncRow_other (h : gState s g ≠ gSync) : syncRow g s = s := if_neg fun hc => h hc.1

theorem syncRow_early (h : localNs s < s.gfm.stages[g].stateAt + syncNs s g) : syncRow g s = s :=
  if_neg fun hc => absurd hc.2 (Nat.not_le.mpr h)

theorem decideGfm_active (h : isStandby s = false) : decideGfm g s = syncRow g (windowRow g (slotRows g (lineRows g (rideRows g s)))) :=
  if_neg (by rw [h]; exact Bool.false_ne_true)

/-! ### Slots -/

theorem GFM_SLOT_ne (g : Fin 2) : Reg.GFM_STATE (2 * g) ≠ Reg.GFM_SLOT (2 * g) ∧ Reg.GFM_STATE (2 * g) ≠ Reg.GFM_SLOT (2 * g) + 4 ∧
    Reg.GFM_STATE (2 * g) ≠ Reg.CMD_STATUS ∧ Reg.GFM_STATE (2 * g) ≠ Reg.CMD_EVT_LOST ∧
    Reg.GFM_SLOT (2 * g) ≠ Reg.CMD_STATUS ∧ Reg.GFM_SLOT (2 * g) ≠ Reg.CMD_EVT_LOST ∧
    Reg.GFM_SLOT (2 * g) + 4 ≠ Reg.CMD_STATUS ∧ Reg.GFM_SLOT (2 * g) + 4 ≠ Reg.CMD_EVT_LOST := by
  simp only [Reg.GFM_STATE, Reg.GFM_SLOT, Reg.CMD_STATUS, Reg.CMD_EVT_LOST]
  omega

/-- An instant awaited and shown; the state of the stage stays. -/
structure SlotAwaited (g : Fin 2) (s t : State) : Prop where
  state : rd t (Reg.GFM_STATE (2 * g)) = rd s (Reg.GFM_STATE (2 * g))
  tai : t.tai = s.tai
  slot : ∃ j b, t.gfm.stages[g].slot = some (j, b) ∧ rd64 t (Reg.GFM_SLOT (2 * g)) = j

theorem slotAwaited_awaitSlot (g : Fin 2) (q : Nat) (b : Bool) (s : State) : SlotAwaited g s (awaitSlot g q b s) := by
  obtain ⟨h1, h2, -⟩ := GFM_SLOT_ne g
  have hset := stages_setGfm g { s.gfm.stages[g] with slot := some (BitVec.ofNat 64 q, b) } s
  exact ⟨rd_wr64_ne _ _ h1 h2, rfl, BitVec.ofNat 64 q, b, congrArg GfmStage.slot hset, rd64_wr64 ..⟩

theorem slotAwaited_chooseSlot (g : Fin 2) (q : Nat) (s : State) : SlotAwaited g s (chooseSlot g q s) := by
  unfold chooseSlot
  split
  · dsimp only
    have hfree : (takeFree s).2.regs = s.regs ∧ (takeFree s).2.tai = s.tai := ⟨rfl, rfl⟩
    generalize (Config.freeValue (takeFree s).1).toNat % _ = delay
    generalize delay * 256 + _ = arg
    generalize nowUp s + delay * 1000000 = due
    generalize (takeFree s).2 = x at hfree ⊢
    obtain ⟨hst, htai, j, b, hslot, hrd⟩ := slotAwaited_awaitSlot g due true x
    generalize awaitSlot g due true x = y at hst htai hslot hrd ⊢
    obtain ⟨-, -, h3, h4, h5, h6, h7, h8⟩ := GFM_SLOT_ne g
    refine ⟨(rd_logEvent y _ _ _ h3 h4).trans (hst.trans (by rw [rd, rd, hfree.1])), (logEvent_tai ..).trans (htai.trans hfree.2), j, b, ?_, ?_⟩
    · rw [logN, logEvent_gfm, hslot]
    · rw [logN, rd64_of_rd (rd_logEvent y _ _ _ h5 h6) (rd_logEvent y _ _ _ h7 h8), hrd]
  · exact slotAwaited_awaitSlot ..

theorem SlotAwaited.gState (h : SlotAwaited g s t) : Machine.gState t g = Machine.gState s g := fld_of_rd h.state _

theorem SlotAwaited.contClosed (h : SlotAwaited g s t) : Machine.contClosed t g = Machine.contClosed s g := flg_of_rd h.state _

theorem enterWaitSlot_effect (h : gState s g ≠ gWaitSlot) : gState (enterWaitSlot g s) g = gWaitSlot ∧
    contClosed (enterWaitSlot g s) g = contClosed s g := by
  unfold enterWaitSlot
  have hmoved := gfmMoved_setGfmState (g := g) (s := s) (by decide : gWaitSlot < 16) h
  generalize setGfmState g gWaitSlot s = x at hmoved ⊢
  have hslot := slotAwaited_chooseSlot g (nowUp s) x
  exact ⟨hslot.gState.trans hmoved.state, hslot.contClosed.trans hmoved.closed⟩

/-- A slot that has come for an open contactor is taken by closing, or another is awaited. -/
theorem slotRows_open (hstate : gState s g = gWaitSlot) (hclosed : contClosed s g = false) (hdead : lineDead s g = true) :
    gState (slotRows g s) g = gWaitSlot ∨ gState (slotRows g s) g = gClosingDead := by
  have hnot : ¬(!lineDead s g) = true := by rw [hdead]; decide
  unfold slotRows
  rw [if_neg (not_not.mpr hstate), if_neg hnot]
  split
  · exact .inl hstate
  next i b _ =>
    split
    · unfold takeSlot
      dsimp only
      rw [if_pos (by rw [hclosed]; rfl)]
      split
      · have hmoved := gfmMoved_setGfmState (g := g) (s := s) (by decide : gClosingDead < 16) (by rw [hstate]; decide)
        obtain ⟨-, -, h3, h4, -⟩ := GFM_SLOT_ne g
        exact .inr ((fld_of_rd (rd_logEvent _ _ _ _ h3 h4) _).trans hmoved.state)
      · exact .inl ((slotAwaited_chooseSlot ..).gState.trans hstate)
    · exact .inl hstate

/-! ### Confirmations (rows 2 and 3) -/

/-- A stage in LINE_CHECK whose line is confirmed DEAD goes towards its slot. -/
theorem decideGfm_dead (hstandby : isStandby s = false) (hstate : gState s g = gLineCheck) (hclosed : contClosed s g = false)
    (hdead : deadConfirmed s g = true) (hline : lineDead s g = true) (hmay : mayBlackStart s g = true) :
    gState (decideGfm g s) g = gWaitSlot ∨ gState (decideGfm g s) g = gClosingDead := by
  have hrows : lineRows g s = enterWaitSlot g s := by
    unfold lineRows
    dsimp only
    rw [if_pos hstate, if_pos ⟨hdead, hmay⟩]
  rw [decideGfm_active hstandby, rideRows_other (by rw [hstate]; decide) (by rw [hstate]; decide), hrows]
  obtain ⟨hwait, hopen⟩ := enterWaitSlot_effect (g := g) (s := s) (by rw [hstate]; decide)
  have hline' : lineDead (enterWaitSlot g s) g = true := (rowKept_enterWaitSlot g s).line.lineDead.trans hline
  generalize enterWaitSlot g s = x at hwait hopen hline' ⊢
  have hslot := slotRows_open hwait (hopen.trans hclosed) hline'
  generalize slotRows g x = y at hslot ⊢
  have hne : gState y g ≠ gSync := by
    obtain h | h := hslot <;> rw [h] <;> decide
  rw [windowRow_other (.inl hne), syncRow_other hne]
  exact hslot

/-- A stage in LINE_CHECK whose line is confirmed LIVE goes to SYNC. -/
theorem decideGfm_live (hstandby : isStandby s = false) (hstate : gState s g = gLineCheck) (hdead : deadConfirmed s g = false)
    (hlive : liveConfirmed s g = true) (hvdc : vdcOk s g = true) (hmode : stageMode s (gst g) ≠ modeVsm) (hsync : 0 < syncNs s g) :
    gState (decideGfm g s) g = gSync ∧ ((decideGfm g s).gfm.stages[g]).order = some .sync := by
  have hrows : lineRows g s = orderStage g .sync (setGfmState g gSync s) := by
    unfold lineRows
    dsimp only
    rw [if_pos hstate, if_neg (by rw [hdead]; exact fun h => Bool.false_ne_true h.1), if_pos ⟨hlive, hvdc⟩]
  rw [decideGfm_active hstandby, rideRows_other (by rw [hstate]; decide) (by rw [hstate]; decide), hrows]
  have hmoved := gfmMoved_setGfmState (g := g) (s := s) (by decide : gSync < 16) (by rw [hstate]; decide)
  have hsettings : fld (setGfmState g gSync s) (Reg.GFM_SYNC_T (2 * g)) F.GFM_SYNC_T_t_sync_max =
      fld s (Reg.GFM_SYNC_T (2 * g)) F.GFM_SYNC_T_t_sync_max :=
    fld_of_rd ((rowKept_setGfmState (by decide) g s).regs _ (rowReg_of_low
      ((by decide : ∀ g : Fin 2, blockAt (Reg.GFM_SYNC_T (2 * g)) = some .gfm) g) (by simp only [Reg.GFM_SYNC_T, Reg.GFM_STATE]; omega))) _
  have hne : Reg.CTRL_STAGE_STATE (gst g) ≠ Reg.FIO_DO_STATE ∧ Reg.CTRL_STAGE_STATE (gst g) ≠ Reg.CMD_STATUS ∧
      Reg.CTRL_STAGE_STATE (gst g) ≠ Reg.CMD_EVT_LOST :=
    (by decide : ∀ g : Fin 2, Reg.CTRL_STAGE_STATE (gst g) ≠ Reg.FIO_DO_STATE ∧ Reg.CTRL_STAGE_STATE (gst g) ≠ Reg.CMD_STATUS ∧
      Reg.CTRL_STAGE_STATE (gst g) ≠ Reg.CMD_EVT_LOST) g
  have hmode' : stageMode (setGfmState g gSync s) (gst g) = stageMode s (gst g) := fld_of_rd (hmoved.regs _
    ((by decide : ∀ g : Fin 2, Reg.CTRL_STAGE_STATE (gst g) ≠ Reg.GFM_STATE (2 * g)) g) hne.1 hne.2.1 hne.2.2) _
  generalize setGfmState g gSync s = x at hmoved hsettings hmode' ⊢
  obtain ⟨c, hc⟩ := hmoved.stage
  have hset := stages_setGfm g { x.gfm.stages[g] with order := some .sync } x
  have hstate' : gState (orderStage g .sync x) g = gSync := hmoved.state
  have hmodeO : stageMode (orderStage g .sync x) (gst g) = stageMode s (gst g) := hmode'
  have hlocal : localNs (orderStage g .sync x) = localNs s := localNs_of_ticks hmoved.ticks
  have hsyncO : syncNs (orderStage g .sync x) g = syncNs s g := by
    rw [syncNs, syncNs, msFld, msFld]
    exact congrArg (fun n => n * 100 * 1000000) hsettings
  have hstageO : (orderStage g .sync x).gfm.stages[g].stateAt = localNs s ∧ (orderStage g .sync x).gfm.stages[g].order = some .sync := by
    rw [orderStage, hset, hc]
    exact ⟨rfl, rfl⟩
  generalize orderStage g .sync x = y at hstate' hmodeO hlocal hsyncO hstageO ⊢
  have hearly : localNs y < y.gfm.stages[g].stateAt + syncNs y g := by
    rw [hlocal, hsyncO, hstageO.1]
    omega
  rw [slotRows_other (by rw [hstate']; decide), windowRow_other (.inr (by rw [hmodeO]; exact hmode)), syncRow_early hearly]
  exact ⟨hstate', hstageO.2⟩

end Line

end Sys2Proof.Machine
end


section
/-! PROOFS. The confirmations of the line and the contactor check, settled (R233 to R235). -/

namespace Sys2Proof.Machine

open Sys2Proof Sys2Proof.Safety Sys2Proof.Laws

section Cont

variable {g : Fin 2} {m : LineMeas} {s x t w : State}

/-! ### A millisecond that only measures -/

/-- A millisecond measured whose contactor check finds nothing. -/
structure MeasuredQuiet (g : Fin 2) (m : LineMeas) (s y w : State) : Prop where
  taken : LineTaken g m s y
  check : ContactorQuiet g y w

theorem classify_quiet (hkind : stageKind s (gst g) = kindGridForming) (hblocked : isBlocked s (gst g) = false)
    (hfb : contFb s g = contClosed s g) (hdead : gState s g ≠ gClosingDead) (hlive : gState s g ≠ gClosingLive) :
    ∃ y w, classify g m s = decideGfm g w ∧ MeasuredQuiet g m s y w := by
  have htaken := lineTaken_effect g m s
  rw [classify_eq hkind, evaluateGfm_eq]
  generalize lineTaken g m s = y at htaken ⊢
  have hq := htaken.quiet
  rw [blockedRow_free (hq.isBlocked.trans hblocked)]
  have hcheck := contactorRows_quiet (g := g) (s := y) (by rw [hq.contFb, hq.contClosed, hfb]) (by rw [hq.gState]; exact hdead)
    (by rw [hq.gState]; exact hlive)
  exact ⟨y, _, rfl, htaken, hcheck⟩

theorem MeasuredQuiet.quiet {y : State} (h : MeasuredQuiet g m s y w) : GfmQuiet g s w := h.taken.quiet.trans h.check.quiet

theorem MeasuredQuiet.fields {y : State} (h : MeasuredQuiet g m s y w) :
    w.gfm.stages[g].lineClass = classOf s g (takenStage m s.gfm.stages[g]).vl (takenStage m s.gfm.stages[g]).fl ∧
    w.gfm.stages[g].deadMs = countedMs (classOf s g (takenStage m s.gfm.stages[g]).vl (takenStage m s.gfm.stages[g]).fl == 1)
      (countsRun s g) s.gfm.stages[g].deadMs ∧
    w.gfm.stages[g].liveMs = countedMs (classOf s g (takenStage m s.gfm.stages[g]).vl (takenStage m s.gfm.stages[g]).fl == 2)
      (countsRun s g) s.gfm.stages[g].liveMs := by
  obtain ⟨a, b, hstage⟩ := h.check.stage
  obtain ⟨-, -, -, -, hclass, hdead, hlive, -⟩ := takenView h.taken
  rw [hstage]
  exact ⟨hclass, hdead, hlive⟩

/-- What a measurement leaves of a stage. -/
theorem takenRest (h : LineTaken g m s t) : t.gfm.stages[g].vdc = s.gfm.stages[g].vdc ∧ t.gfm.stages[g].winMs = s.gfm.stages[g].winMs ∧
    t.gfm.stages[g].rideOkMs = s.gfm.stages[g].rideOkMs := by
  have hrest := takenStage_rest m s.gfm.stages[g]
  rw [h.stage, ← hrest.vdc, ← hrest.winMs, ← hrest.rideOkMs]
  generalize takenStage m s.gfm.stages[g] = x
  generalize classOf s g x.vl x.fl = c
  generalize some (localNs t) = q
  exact ⟨rfl, rfl, rfl⟩

theorem MeasuredQuiet.vdcOk {y : State} (h : MeasuredQuiet g m s y w) : Machine.vdcOk w g = Machine.vdcOk s g := by
  obtain ⟨a, b, hstage⟩ := h.check.stage
  have hvdc : w.gfm.stages[g].vdc = s.gfm.stages[g].vdc := by
    rw [hstage]
    exact (takenRest h.taken).1
  have hset := h.quiet.setting (rowReg_GFM_RT g) (by simp only [Reg.GFM_RT, Reg.GFM_FREQ]; omega)
  unfold Machine.vdcOk
  rw [hvdc, hset, fld_of_rd hset]

theorem MeasuredQuiet.mayBlackStart {y : State} (h : MeasuredQuiet g m s y w) : Machine.mayBlackStart w g = Machine.mayBlackStart s g :=
  flg_of_rd (h.quiet.setting (rowReg_GFM_CFG g) (by simp only [Reg.GFM_CFG, Reg.GFM_FREQ]; omega)) _

theorem MeasuredQuiet.live {y : State} (h : MeasuredQuiet g m s y w) (G : Fld) :
    fld w (Reg.GFM_LIVE (2 * g)) G = fld s (Reg.GFM_LIVE (2 * g)) G :=
  fld_of_rd (h.quiet.setting (rowReg_GFM_LIVE g) (by simp only [Reg.GFM_LIVE, Reg.GFM_FREQ]; omega)) _

theorem GfmQuiet.syncNs (h : GfmQuiet g s t) : Machine.syncNs t g = Machine.syncNs s g := by
  have hset := h.setting (rowReg_of_low ((by decide : ∀ g : Fin 2, blockAt (Reg.GFM_SYNC_T (2 * g)) = some .gfm) g)
    (by simp only [Reg.GFM_SYNC_T, Reg.GFM_STATE]; omega)) (by simp only [Reg.GFM_SYNC_T, Reg.GFM_FREQ]; omega)
  rw [Machine.syncNs, Machine.syncNs, msFld, msFld, fld_of_rd hset]

/-- The permissions once a millisecond's rows have acted. -/
theorem decided_line (w : State) : Machine.deadConfirmed (decideGfm g w) g = Machine.deadConfirmed w g ∧
    Machine.liveConfirmed (decideGfm g w) g = Machine.liveConfirmed w g ∧ Machine.lineDead (decideGfm g w) g = Machine.lineDead w g ∧
    Machine.lineLive (decideGfm g w) g = Machine.lineLive w g :=
  have hline := (rowKept_decideGfm g w).line
  ⟨hline.deadConfirmed, hline.liveConfirmed, hline.lineDead, hline.lineLive⟩

theorem lineDead_confirm (hkind : stageKind s (gst g) = kindGridForming) (hblocked : isBlocked s (gst g) = false)
    (hstandby : isStandby s = false) (hstate : gState s g = gLineCheck) (hclosed : contClosed s g = false) (hfb : contFb s g = false)
    (hm : m.lineUsable = true) (hclass : classOf s g m.vl m.fl = 1) (hmay : mayBlackStart s g = true)
    (hms : 10 * fld s (Reg.GFM_LIVE (2 * g)) F.GFM_LIVE_t_dead ≤ (s.gfm.stages[g]).deadMs + 1) :
    ∃ t, exec (.lineDeadConfirmed g m) s = .next t ∧ deadConfirmed t g = true ∧ lineDead t g = true ∧
      (gState t g = gWaitSlot ∨ gState t g = gClosingDead) := by
  have hexec : exec (.lineDeadConfirmed g m) s = .next (classify g m s) := if_pos hms
  obtain ⟨y, w, heq, hw⟩ := classify_quiet (m := m) hkind hblocked (hfb.trans hclosed.symm) (by rw [hstate]; decide) (by rw [hstate]; decide)
  obtain ⟨hwclass, hwdead, -⟩ := hw.fields
  obtain ⟨hvl, hfl, -⟩ := takenStage_line hm s.gfm.stages[g]
  have hrun : countsRun s g = true := by
    rw [countsRun, hstate]
    decide
  rw [hvl, hfl, hclass] at hwclass hwdead
  rw [hrun] at hwdead
  have hdead : deadConfirmed w g = true := by
    rw [deadConfirmed, hw.live, hwdead]
    exact decide_eq_true hms
  have hline : lineDead w g = true := by rw [lineDead, hwclass]; rfl
  obtain ⟨h1, -, h3, -⟩ := decided_line (g := g) w
  rw [hexec, heq]
  exact ⟨_, rfl, h1.trans hdead, h3.trans hline, decideGfm_dead (hw.quiet.isStandby.trans hstandby) (hw.quiet.gState.trans hstate)
    (hw.quiet.contClosed.trans hclosed) hdead hline (hw.mayBlackStart.trans hmay)⟩

theorem lineLive_confirm (hkind : stageKind s (gst g) = kindGridForming) (hblocked : isBlocked s (gst g) = false)
    (hstandby : isStandby s = false) (hstate : gState s g = gLineCheck) (hclosed : contClosed s g = false) (hfb : contFb s g = false)
    (hm : m.lineUsable = true) (hclass : classOf s g m.vl m.fl = 2) (hvdc : vdcOk s g = true) (hmode : stageMode s (gst g) ≠ modeVsm)
    (hsync : 0 < syncNs s g) (htdead : 0 < fld s (Reg.GFM_LIVE (2 * g)) F.GFM_LIVE_t_dead)
    (hms : 10 * fld s (Reg.GFM_LIVE (2 * g)) F.GFM_LIVE_t_live ≤ (s.gfm.stages[g]).liveMs + 1) :
    ∃ t, exec (.lineLiveConfirmed g m) s = .next t ∧ liveConfirmed t g = true ∧ lineLive t g = true ∧
      gState t g = gSync ∧ (t.gfm.stages[g]).order = some .sync := by
  have hexec : exec (.lineLiveConfirmed g m) s = .next (classify g m s) := if_pos hms
  obtain ⟨y, w, heq, hw⟩ := classify_quiet (m := m) hkind hblocked (hfb.trans hclosed.symm) (by rw [hstate]; decide) (by rw [hstate]; decide)
  obtain ⟨hwclass, hwdead, hwlive⟩ := hw.fields
  obtain ⟨hvl, hfl, -⟩ := takenStage_line hm s.gfm.stages[g]
  have hrun : countsRun s g = true := by
    rw [countsRun, hstate]
    decide
  rw [hvl, hfl, hclass] at hwclass hwdead hwlive
  rw [hrun] at hwlive
  have hlive : liveConfirmed w g = true := by
    rw [liveConfirmed, hw.live, hwlive]
    exact decide_eq_true hms
  have hdead : deadConfirmed w g = false := by
    rw [deadConfirmed, hw.live, hwdead]
    exact decide_eq_false fun h => absurd (show 10 * fld s (Reg.GFM_LIVE (2 * g)) F.GFM_LIVE_t_dead ≤ 0 from h) (by omega)
  have hline : lineLive w g = true := by rw [lineLive, hwclass]; rfl
  obtain ⟨-, h2, -, h4⟩ := decided_line (g := g) w
  rw [hexec, heq]
  exact ⟨_, rfl, h2.trans hlive, h4.trans hline, decideGfm_live (hw.quiet.isStandby.trans hstandby) (hw.quiet.gState.trans hstate)
    hdead hlive (hw.vdcOk.trans hvdc) (by rw [hw.quiet.stageMode]; exact hmode) (by rw [hw.quiet.syncNs]; exact hsync)⟩

/-! ### The feedback that a check shows -/

/-- The feedback shown stays. -/
def FbKept (g : Fin 2) (s t : State) : Prop :=
  fld t (Reg.GFM_STATE (2 * g)) F.GFM_STATE_cont_fb = fld s (Reg.GFM_STATE (2 * g)) F.GFM_STATE_cont_fb

theorem fbKept_setGfmState {n : Nat} (hn : n < 16) (g : Fin 2) (s : State) : FbKept g s (setGfmState g n s) := by
  by_cases hsame : gState s g = n
  · rw [show setGfmState g n s = s from if_pos hsame, FbKept]
  · exact (gfmMoved_setGfmState hn hsame).fields _ (by decide) (by decide)

theorem fbKept_setContactor (g : Fin 2) (b : Bool) (s : State) : FbKept g s (setContactor g b s) :=
  (contactorSet_setContactor g b s).fields _ (by decide)

theorem fbKept_stopStage (g : Fin 2) (s : State) : FbKept g s (stopStage g s) := rfl

theorem fbKept_failGfm (g : Fin 2) (s : State) : FbKept g s (failGfm g s) :=
  (fbKept_setGfmState (by decide) g _).trans (fbKept_stopStage g s)

theorem fbKept_contFail (g : Fin 2) (c : Nat) (s : State) : FbKept g s (contFail g c s) := by
  obtain ⟨-, -, h3, h4, -⟩ := GFM_SLOT_ne g
  exact fld_of_rd (rd_logEvent _ _ _ _ h3 h4) _

theorem fbKept_contWhileClosed (g : Fin 2) (prev fb : Bool) (s : State) : FbKept g s (contWhileClosed g prev fb s) := by
  unfold contWhileClosed
  dsimp only
  split
  · split
    · split
      · exact fbKept_setGfmState (by decide) g s
      · split
        · exact fbKept_setGfmState (by decide) g s
        · rfl
    · split
      · exact fbKept_setGfmState (by decide) g s
      · rfl
  · split
    · split
      · exact (fbKept_failGfm ..).trans (fbKept_contFail g 1 s)
      · rfl
    · split
      · have hfail := fbKept_contFail g 3 s
        generalize contFail g 3 s = x at hfail ⊢
        split
        · exact (fbKept_setGfmState (by decide) g _).trans hfail
        · exact (fbKept_setContactor ..).trans ((fbKept_setGfmState (by decide) g _).trans ((fbKept_stopStage g x).trans hfail))
      · rfl

theorem fbKept_contWhileOpen (g : Fin 2) (prev : Option Bool) (fb : Bool) (s : State) : FbKept g s (contWhileOpen g prev fb s) := by
  unfold contWhileOpen
  dsimp only
  split
  · split <;> rfl
  · split
    · rfl
    · split
      · have hfail := fbKept_contFail g 4 s
        generalize contFail g 4 s = x at hfail ⊢
        split
        · exact (fbKept_failGfm g x).trans hfail
        · exact hfail
      · split
        · have hfail := fbKept_contFail g 2 (setGfm g { s.gfm.stages[g] with noOpen := true } s)
          generalize contFail g 2 (setGfm g { s.gfm.stages[g] with noOpen := true } s) = x at hfail ⊢
          exact (fbKept_failGfm g x).trans hfail
        · rfl

theorem fbKept_contactorJudged (g : Fin 2) (fb : Bool) (s : State) : FbKept g s (contactorJudged g fb s) := by
  unfold contactorJudged
  dsimp only
  split
  · rfl
  · split
    · exact fbKept_contWhileClosed ..
    · exact fbKept_contWhileOpen ..

/-! ### The contactor check -/

/-- The instant of a contactor check is noted. -/
def stampCont (g : Fin 2) (s : State) : State := setGfm g { s.gfm.stages[g] with contAt := some (localNs s) } s

/-- The state in which a contactor check is made. -/
def checkReached (g : Fin 2) (s : State) : State := stampCont g (reachNext s.gfm.stages[g].contAt s)

theorem execContactorCheck_eq (hkind : stageKind s (gst g) = kindGridForming) :
    execContactorCheck g s = .next (contactorRows g (checkReached g s)) := if_neg (not_not.mpr hkind)

theorem localNs_le_reachNext (last : Option Nat) (s : State) : localNs s ≤ localNs (reachNext last s) := by
  cases last with
  | none => exact Nat.le_refl _
  | some q =>
    simp only [reachNext, localNs, reachLocal, reachTick]
    omega

theorem checkReached_effect (g : Fin 2) (s : State) : GfmQuiet g s (checkReached g s) ∧
    (checkReached g s).gfm.stages[g] = { s.gfm.stages[g] with contAt := some (localNs (checkReached g s)) } ∧
    (∀ e, s.gfm.stages[g].contAt = some e → e + 1000000 ≤ localNs (checkReached g s)) ∧ localNs s ≤ localNs (checkReached g s) := by
  unfold checkReached
  obtain ⟨hquiet, hgfm, hdue⟩ := reachNext_effect g s.gfm.stages[g].contAt s
  have hle := localNs_le_reachNext s.gfm.stages[g].contAt s
  generalize reachNext s.gfm.stages[g].contAt s = x at hquiet hgfm hdue hle ⊢
  have hset : (stampCont g x).gfm.stages[g] = _ := stages_setGfm g { x.gfm.stages[g] with contAt := some (localNs x) } x
  exact ⟨hquiet.trans (quiet_setGfm _ x), hset.trans (by rw [hgfm]; rfl), hdue, hle⟩

/-- The state whose contactor a check judges: the feedback is shown and noted. -/
def fbShown (g : Fin 2) (fb : Bool) (s : State) : State :=
  let s := setF s (Reg.GFM_STATE (2 * g)) F.GFM_STATE_cont_fb (b2n fb)
  setGfm g { s.gfm.stages[g] with fbPrev := some fb } s

theorem fbShown_effect (g : Fin 2) (fb : Bool) (s : State) : GfmQuiet g s (fbShown g fb s) ∧
    (fbShown g fb s).gfm.stages[g] = { s.gfm.stages[g] with fbPrev := some fb } ∧ (fbShown g fb s).ticks = s.ticks := by
  unfold fbShown
  have hshow : GfmQuiet g s (setF s (Reg.GFM_STATE (2 * g)) F.GFM_STATE_cont_fb (b2n fb)) := quiet_setF_state (fun H hH => hH.2.2) _ s
  have hgfm : (setF s (Reg.GFM_STATE (2 * g)) F.GFM_STATE_cont_fb (b2n fb)).gfm = s.gfm := rfl
  have hticks : (setF s (Reg.GFM_STATE (2 * g)) F.GFM_STATE_cont_fb (b2n fb)).ticks = s.ticks := rfl
  dsimp only
  generalize setF s (Reg.GFM_STATE (2 * g)) F.GFM_STATE_cont_fb (b2n fb) = x at hshow hgfm hticks ⊢
  exact ⟨hshow.trans (quiet_setGfm _ x), (stages_setGfm ..).trans (by rw [hgfm]), hticks⟩

theorem contactorRows_closed (hen : flg s (Reg.GFM_CONT (2 * g)) F.GFM_CONT_en = true) (hstandby : isStandby s = false)
    (hclosed : contClosed s g = true) :
    ∃ prev, contactorRows g s = contWhileClosed g prev (contFb s g) (fbShown g (contFb s g) s) := by
  rw [contactorRows_eq]
  have hshow : GfmQuiet g s (setF s (Reg.GFM_STATE (2 * g)) F.GFM_STATE_cont_fb (b2n (contFb s g))) :=
    quiet_setF_state (fun H hH => hH.2.2) _ s
  have hquiet := (fbShown_effect g (contFb s g) s).1
  have hclosed' : contClosed (fbShown g (contFb s g) s) g = true := hquiet.contClosed.trans hclosed
  unfold contactorJudged
  rw [flg_of_rd hshow.cont, hen, hshow.isStandby, hstandby, if_neg (by exact fun h => h.elim nofun nofun)]
  exact ⟨_, if_pos hclosed'⟩

/-- A check of a contactor commanded closed. -/
theorem check_closed (hkind : stageKind s (gst g) = kindGridForming) (hen : flg s (Reg.GFM_CONT (2 * g)) F.GFM_CONT_en = true)
    (hstandby : isStandby s = false) (hclosed : contClosed s g = true) :
    ∃ x prev, exec (.contactorCheck g) s = .next (contWhileClosed g prev (contFb s g) x) ∧ GfmQuiet g s x ∧ localNs s ≤ localNs x ∧
      ∃ a b, x.gfm.stages[g] = { s.gfm.stages[g] with contAt := a, fbPrev := b } := by
  obtain ⟨hquiet, hstage, -, hle⟩ := checkReached_effect g s
  have hexec : exec (.contactorCheck g) s = .next (contactorRows g (checkReached g s)) := execContactorCheck_eq hkind
  generalize checkReached g s = y at hquiet hstage hle hexec
  obtain ⟨prev, hrows⟩ := contactorRows_closed (g := g) (s := y) (by rw [flg_of_rd hquiet.cont]; exact hen)
    (hquiet.isStandby.trans hstandby) (hquiet.contClosed.trans hclosed)
  rw [hquiet.contFb] at hrows
  obtain ⟨hquiet', hstage', hticks⟩ := fbShown_effect g (contFb s g) y
  generalize fbShown g (contFb s g) y = x at hrows hquiet' hstage' hticks
  refine ⟨x, prev, by rw [hexec, hrows], hquiet.trans hquiet', by rw [localNs_of_ticks hticks]; exact hle, some (localNs y), some (contFb s g), ?_⟩
  rw [hstage', hstage]

theorem GfmQuiet.logged_moved {n : Nat} (h : GfmQuiet g s x) (hm : GfmMoved g n x t) (hroom : Room 1 s) :
    Logged [(0x5001, 2 * g.val, BitVec.ofNat 32 (Machine.gState s g * 256 + n))] s t := by
  have hlogged := logged_append (logged_nil h.log) (hm.logged (h.room hroom)) hm.tai
  rwa [h.gState] at hlogged

/-- CLOSING_LIVE reads closed: RUNNING. -/
theorem check_live (h : GfmQuiet g s x) (hstate : gState s g = gClosingLive) (prev : Bool) (hroom : Room 1 s) :
    gState (contWhileClosed g prev true x) g = gRunning ∧ Logged [(0x5001, 2 * g.val, 0x607)] s (contWhileClosed g prev true x) := by
  have hx := h.gState.trans hstate
  have heq : contWhileClosed g prev true x = setGfmState g gRunning x := by
    unfold contWhileClosed
    dsimp only
    rw [if_pos rfl, if_neg (by rw [hx]; decide), if_pos hx]
  rw [heq]
  have hmoved := gfmMoved_setGfmState (g := g) (s := x) (by decide : gRunning < 16) (by rw [hx]; decide)
  have hlogged := h.logged_moved hmoved hroom
  rw [hstate] at hlogged
  exact ⟨hmoved.state, hlogged⟩

/-- CLOSING_DEAD reads closed on a line no longer dead: JOIN. -/
theorem check_join (h : GfmQuiet g s x) (hstate : gState s g = gClosingDead) (hline : lineDead x g = false) (prev : Bool) (hroom : Room 1 s) :
    gState (contWhileClosed g prev true x) g = gJoin ∧ Logged [(0x5001, 2 * g.val, 0x309)] s (contWhileClosed g prev true x) := by
  have hx := h.gState.trans hstate
  have heq : contWhileClosed g prev true x = setGfmState g gJoin x := by
    unfold contWhileClosed
    dsimp only
    rw [if_pos rfl, if_pos hx, if_pos (by rw [hline]; rfl)]
  rw [heq]
  have hmoved := gfmMoved_setGfmState (g := g) (s := x) (by decide : gJoin < 16) (by rw [hx]; decide)
  have hlogged := h.logged_moved hmoved hroom
  rw [hstate] at hlogged
  exact ⟨hmoved.state, hlogged⟩

/-- CLOSING_DEAD reads closed on a dead line: RAMPING. -/
theorem check_ramp (h : GfmQuiet g s x) (hstate : gState s g = gClosingDead) (hline : lineDead x g = true) (hvdc : vdcOk x g = true)
    (prev : Bool) (hroom : Room 1 s) : gState (contWhileClosed g prev true x) g = gRamping ∧
    ((contWhileClosed g prev true x).gfm.stages[g]).order = some .blackStart ∧
    Logged [(0x5001, 2 * g.val, 0x304)] s (contWhileClosed g prev true x) := by
  have hx := h.gState.trans hstate
  have heq : contWhileClosed g prev true x = orderStage g .blackStart (setGfmState g gRamping x) := by
    unfold contWhileClosed
    dsimp only
    rw [if_pos rfl, if_pos hx, if_neg (by rw [hline]; exact Bool.false_ne_true), if_pos hvdc]
  rw [heq]
  have hmoved := gfmMoved_setGfmState (g := g) (s := x) (by decide : gRamping < 16) (by rw [hx]; decide)
  have hlogged := h.logged_moved hmoved hroom
  rw [hstate] at hlogged
  have hset := stages_setGfm g { (setGfmState g gRamping x).gfm.stages[g] with order := some .blackStart } (setGfmState g gRamping x)
  exact ⟨hmoved.state, congrArg GfmStage.order hset, hlogged⟩

theorem contFail_effect (g : Fin 2) (c : Nat) {s : State} (hroom : Room 1 s) : Logged [(0x5009, 2 * g.val, BitVec.ofNat 32 c)] s (contFail g c s) ∧
    gState (contFail g c s) g = gState s g ∧ (contFail g c s).tai = s.tai := by
  obtain ⟨-, -, h3, h4, -⟩ := GFM_SLOT_ne g
  exact ⟨logged_logN _ _ _ rfl hroom, fld_of_rd (rd_logEvent _ _ _ _ h3 h4) _, logEvent_tai ..⟩

theorem room_after {n : Nat} {es : List (Nat × Nat × Word)} (h : Logged es s x) (hroom : Room (n + es.length) s) : Room n x := by
  unfold Room at hroom ⊢
  rw [h]
  simp only [List.length_append, List.length_map]
  omega

/-- A contactor that stays open beyond t_close_max fails its stage. -/
theorem check_late (h : GfmQuiet g s x) (hstate : gState s g = gClosingDead ∨ gState s g = gClosingLive) (hlate : contLate x g = true)
    (prev : Bool) (hroom : Room 2 s) : gState (contWhileClosed g prev false x) g = gFailed ∧
    contClosed (contWhileClosed g prev false x) g = false ∧
    ((contWhileClosed g prev false x).loop.stages[gst g]).stopReq = true ∧
    Logged [(0x5009, 2 * g.val, 1), (0x5001, 2 * g.val, BitVec.ofNat 32 (gState s g * 256 + 10))] s (contWhileClosed g prev false x) := by
  have hx : gState x g = gClosingDead ∨ gState x g = gClosingLive := by
    rw [h.gState]
    exact hstate
  have heq : contWhileClosed g prev false x = failGfm g (contFail g 1 x) := by
    unfold contWhileClosed
    dsimp only
    rw [if_neg Bool.false_ne_true, if_pos hx, if_pos hlate]
  rw [heq]
  have hroom1 : Room 1 s := by
    unfold Room at hroom ⊢
    omega
  obtain ⟨hfail, hkeep, htai⟩ := contFail_effect g 1 (h.room hroom1)
  generalize contFail g 1 x = y at hfail hkeep htai ⊢
  have hy : gState y g ≠ gFailed := by
    rw [hkeep]
    obtain h | h := hx <;> rw [h] <;> decide
  have hsy := logged_append (logged_nil h.log) hfail htai
  have hfailed := failGfm_into hy
  generalize failGfm g y = t at hfailed ⊢
  have hlogged := logged_append hsy (hfailed.logged (room_after hsy hroom)) hfailed.tai
  rw [hkeep, h.gState] at hlogged
  exact ⟨hfailed.state, hfailed.closed, hfailed.stopped, hlogged⟩

theorem contactorCheck_shown (g : Fin 2) (s : State) (hkind : stageKind s (gst g) = kindGridForming) :
    ∃ t, exec (.contactorCheck g) s = .next t ∧ fld t (Reg.GFM_STATE (2 * g)) F.GFM_STATE_cont_fb = b2n (contFb s g) ∧
      (t.gfm.stages[g]).contAt = some (localNs t) ∧
      (∀ c, (s.gfm.stages[g]).contAt = some c → c + 1000000 ≤ localNs t) := by
  have hexec : exec (.contactorCheck g) s = .next (contactorRows g (checkReached g s)) := execContactorCheck_eq hkind
  obtain ⟨hquiet, hstage, hdue, -⟩ := checkReached_effect g s
  generalize checkReached g s = y at hexec hquiet hstage hdue
  have hkept := rowKept_contactorRows g y
  have hlocal : localNs (contactorRows g y) = localNs y := localNs_of_ticks hkept.ticks
  have hset := fld_setF y (Reg.GFM_STATE (2 * g)) F.GFM_STATE_cont_fb (b2n (contFb s g)) (by decide)
  have hfb : fld (contactorRows g y) (Reg.GFM_STATE (2 * g)) F.GFM_STATE_cont_fb = b2n (contFb s g) := by
    rw [contactorRows_eq, hquiet.contFb]
    refine (fbKept_contactorJudged ..).trans (hset.trans (Nat.mod_eq_of_lt ?_))
    cases contFb s g <;> decide
  refine ⟨_, hexec, hfb, ?_, ?_⟩
  · rw [hlocal]
    exact (congrArg LineView.contAt hkept.view).trans (by rw [hstage]; rfl)
  · rw [hlocal]
    exact hdue

theorem contLate_mono (h : GfmQuiet g s x) (hle : localNs s ≤ localNs x) (hcmd : x.gfm.stages[g].cmdAt = s.gfm.stages[g].cmdAt)
    (hlate : contLate s g = true) : contLate x g = true := by
  have hlate' := of_decide_eq_true hlate
  unfold contLate msFld
  rw [hcmd, fld_of_rd h.cont]
  exact decide_eq_true (hlate'.trans hle)

theorem lineDead_of_stage (h : ∃ a b, x.gfm.stages[g] = { s.gfm.stages[g] with contAt := a, fbPrev := b }) : lineDead x g = lineDead s g ∧
    x.gfm.stages[g].vdc = s.gfm.stages[g].vdc ∧ x.gfm.stages[g].cmdAt = s.gfm.stages[g].cmdAt := by
  obtain ⟨a, b, h⟩ := h
  unfold lineDead
  rw [h]
  exact ⟨rfl, rfl, rfl⟩

theorem GfmQuiet.vdcOk (h : GfmQuiet g s x) (hvdc : x.gfm.stages[g].vdc = s.gfm.stages[g].vdc) : Machine.vdcOk x g = Machine.vdcOk s g := by
  have hset := h.setting (rowReg_GFM_RT g) (by simp only [Reg.GFM_RT, Reg.GFM_FREQ]; omega)
  unfold Machine.vdcOk
  rw [hvdc, hset, fld_of_rd hset]

theorem contactorCheck_closing (g : Fin 2) (s : State) (hkind : stageKind s (gst g) = kindGridForming) (hroom : Room 2 s)
    (hen : flg s (Reg.GFM_CONT (2 * g)) F.GFM_CONT_en = true) (hstandby : isStandby s = false) (hclosed : contClosed s g = true) :
    (contFb s g = true → gState s g = gClosingLive → ∃ t, exec (.contactorCheck g) s = .next t ∧ gState t g = gRunning ∧
        Logged [(0x5001, 2 * g.val, 0x607)] s t) ∧
    (contFb s g = true → gState s g = gClosingDead → lineDead s g = false →
        ∃ t, exec (.contactorCheck g) s = .next t ∧ gState t g = gJoin ∧ Logged [(0x5001, 2 * g.val, 0x309)] s t) ∧
    (contFb s g = true → gState s g = gClosingDead → lineDead s g = true → vdcOk s g = true →
        ∃ t, exec (.contactorCheck g) s = .next t ∧ gState t g = gRamping ∧ (t.gfm.stages[g]).order = some .blackStart ∧
          Logged [(0x5001, 2 * g.val, 0x304)] s t) ∧
    (contFb s g = false → gState s g = gClosingDead ∨ gState s g = gClosingLive → contLate s g = true →
        ∃ t, exec (.contactorCheck g) s = .next t ∧ gState t g = gFailed ∧ contClosed t g = false ∧
          (t.loop.stages[gst g]).stopReq = true ∧
          Logged [(0x5009, 2 * g.val, 1), (0x5001, 2 * g.val, BitVec.ofNat 32 (gState s g * 256 + 10))] s t) := by
  obtain ⟨x, prev, hexec, hquiet, hle, hstage⟩ := check_closed hkind hen hstandby hclosed
  obtain ⟨hline, hvdc, hcmd⟩ := lineDead_of_stage hstage
  have hroom1 : Room 1 s := by
    unfold Room at hroom ⊢
    omega
  refine ⟨fun hfb hst => ?_, fun hfb hst hl => ?_, fun hfb hst hl hv => ?_, fun hfb hst hlate => ?_⟩ <;> rw [hfb] at hexec
  · exact ⟨_, hexec, check_live hquiet hst prev hroom1⟩
  · exact ⟨_, hexec, check_join hquiet hst (hline.trans hl) prev hroom1⟩
  · exact ⟨_, hexec, check_ramp hquiet hst (hline.trans hl) ((hquiet.vdcOk hvdc).trans hv) prev hroom1⟩
  · exact ⟨_, hexec, check_late hquiet hst (contLate_mono hquiet hle hcmd hlate) prev hroom⟩

end Cont

end Sys2Proof.Machine

namespace Sys2Proof.Proofs

open Sys2Proof Sys2Proof.Machine Sys2Proof.Safety Sys2Proof.Laws

/-- Settles O44: the rows that act after a measurement keep the view it has made of the line; each confirmed or closing stage takes the
one row of its state. -/
theorem gfmLine : Obligations.GfmLine := by
  unfold Obligations.GfmLine
  refine ⟨lineClassify_clause, fun g m s hkind => ⟨congrArg Host.Outcome.next (classify_other hkind), if_pos hkind⟩, ?_, fun g m s => ⟨fun h => ?_, fun h => ?_⟩,
    fun g s hkind hroom => ⟨contactorCheck_shown g s hkind, contactorCheck_closing g s hkind hroom⟩⟩
  · intro g m s hkind hblocked hstandby hstate hclosed hfb hm
    exact ⟨lineDead_confirm hkind hblocked hstandby hstate hclosed hfb hm, lineLive_confirm hkind hblocked hstandby hstate hclosed hfb hm⟩
  · exact if_neg (Nat.not_le.mpr h)
  · exact if_neg (Nat.not_le.mpr h)

end Sys2Proof.Proofs
end


section
/-! PROOFS. Slots, ramps, synchronism and ride-through (R238, R240 to R244). -/

namespace Sys2Proof.Machine

open Sys2Proof Sys2Proof.Safety Sys2Proof.Laws

section Moves

variable {g : Fin 2} {m : LineMeas} {s x t w : State}

theorem GFM_STATE_logs (g : Fin 2) (c q : Nat) (e : Word) (s : State) :
    rd (logEvent c q e s) (Reg.GFM_STATE (2 * g)) = rd s (Reg.GFM_STATE (2 * g)) :=
  have h := GFM_SLOT_ne g
  rd_logEvent s c q e h.2.2.1 h.2.2.2.1

/-! ### Slots and back-off -/

theorem stagePeriod_bounds (s : State) (st : Nat) : 10000 ≤ stagePeriod s st ∧ stagePeriod s st ≤ 100000 := by
  have hrow : ∀ row, 10000 ≤ periodNs row ∧ periodNs row ≤ 100000 := fun row => by
    match row with
    | 0 | 1 | 2 | 3 | 4 | 5 | 6 | 7 | 8 | 9 => decide
    | n + 10 => exact ⟨by simp [periodNs], by simp [periodNs]⟩
  exact hrow _

theorem le_tai_reachNs {q : BitVec 64} (hfit : q.toNat + 1 < 2 ^ 64) (s : State) : 4 * q.toNat ≤ (reachNs s q).tai.toNat := by
  have htai := s.tai.isLt
  rw [reachNs, advanceTo, BitVec.toNat_add, BitVec.toNat_ofNat]
  unfold ticksTo
  omega

theorem nowNat_reachSample (st : Fin 4) (i : BitVec 64) {s : State} (hfit : i.toNat + stagePeriod s st < 2 ^ 64) :
    i.toNat ≤ nowNat (reachSample st i s) := by
  obtain ⟨hlo, hhi⟩ := stagePeriod_bounds s st
  unfold reachSample
  dsimp only
  generalize stagePeriod s st = p at hfit hlo hhi ⊢
  have hup : i.toNat ≤ (i.toNat + p - 1) / p * p ∧ (i.toNat + p - 1) / p * p ≤ i.toNat + p - 1 := by
    have hmod := Nat.div_add_mod (i.toNat + p - 1) p
    have hlt := Nat.mod_lt (i.toNat + p - 1) (by omega : 0 < p)
    rw [Nat.mul_comm] at hmod
    omega
  generalize (i.toNat + p - 1) / p * p = q at hup ⊢
  have hq : (BitVec.ofNat 64 q).toNat = q := by
    rw [BitVec.toNat_ofNat]
    omega
  have hreach := le_tai_reachNs (q := BitVec.ofNat 64 q) (by rw [hq]; omega) s
  rw [hq] at hreach
  rw [nowNat_eq]
  omega

theorem advanceTo_same (q : Nat) (s : State) : (advanceTo s q).gfm = s.gfm ∧ (advanceTo s q).log = s.log ∧ (advanceTo s q).regs = s.regs :=
  ⟨rfl, rfl, rfl⟩

theorem reachSample_same (st : Fin 4) (i : BitVec 64) (s : State) : (reachSample st i s).gfm = s.gfm ∧ (reachSample st i s).log = s.log ∧
    (reachSample st i s).regs = s.regs := advanceTo_same ..

/-- What a step leaves of a stage, its settings and the log. -/
structure SameStage (g : Fin 2) (s t : State) : Prop where
  gfm : t.gfm = s.gfm
  log : t.log = s.log
  regs : t.regs = s.regs

theorem SameStage.line (h : SameStage g s t) : LineSame g s t := ⟨by rw [h.gfm], fun a _ => by rw [rd, rd, h.regs]⟩

/-- A slot that has come (rows 4 to 7 and 32). -/
theorem slotRows_taken {i : BitVec 64} {b : Bool} (hstate : gState s g = gWaitSlot) (hslot : s.gfm.stages[g].slot = some (i, b))
    (hcome : i.toNat ≤ nowNat s) (hroom : Room 2 s) : SlotTaken g i s (slotRows g s) := by
  have hkept := rowKept_slotRows g s
  have hnow : nowNat (slotRows g s) = nowNat s := by rw [nowNat, nowNat, now, now, hkept.tai]
  have hroom1 : Room 1 s := by
    unfold Room at hroom ⊢
    omega
  have htaken : lineDead s g = true → slotRows g s = takeSlot g i s := fun hdead => by
    have hnot : ¬(!lineDead s g) = true := by rw [hdead]; decide
    unfold slotRows
    rw [if_neg (not_not.mpr hstate), if_neg hnot, hslot]
    exact if_pos hcome
  refine ⟨by rw [hnow]; exact hcome, fun hline => ?_, fun hdead hclosed hpermit => ?_, fun hdead hclosed hvdc => ?_, fun hdead hnone => ?_⟩
  · have heq : slotRows g s = leaveSlot g s := by
      unfold slotRows
      rw [if_neg (not_not.mpr hstate), if_pos (by rw [hline]; rfl)]
    rw [heq, leaveSlot]
    cases contClosed s g
    · exact (gfmMoved_setGfmState (by decide) (by rw [hstate]; decide)).state
    · exact (gfmMoved_setGfmState (by decide) (by rw [hstate]; decide)).state
  · have heq : takeSlot g i s = logEvent 0x5003 (2 * g) (i.extractLsb' 0 32) (setGfmState g gClosingDead s) := by
      unfold takeSlot
      dsimp only
      rw [if_pos (by rw [hclosed]; rfl), if_pos hpermit]
    rw [htaken hdead, heq]
    have hmoved := gfmMoved_setGfmState (g := g) (s := s) (by decide : gClosingDead < 16) (by rw [hstate]; decide)
    have hlogged := hmoved.logged hroom1
    rw [hstate] at hlogged
    generalize setGfmState g gClosingDead s = y at hmoved hlogged ⊢
    have hkeep := GFM_STATE_logs g 0x5003 (2 * g) (i.extractLsb' 0 32) y
    exact ⟨(fld_of_rd hkeep _).trans hmoved.state, (flg_of_rd hkeep _).trans hmoved.closed,
      logged_append hlogged (logged_logEvent _ _ _ rfl (room_after hlogged hroom)) (logEvent_tai ..)⟩
  · have heq : takeSlot g i s = logEvent 0x5003 (2 * g) (i.extractLsb' 0 32) (orderStage g .blackStart (setGfmState g gRamping s)) := by
      unfold takeSlot
      dsimp only
      rw [if_neg (by rw [hclosed]; exact Bool.false_ne_true), if_pos hvdc]
    rw [htaken hdead, heq]
    have hmoved := gfmMoved_setGfmState (g := g) (s := s) (by decide : gRamping < 16) (by rw [hstate]; decide)
    have hlogged := hmoved.logged hroom1
    rw [hstate] at hlogged
    generalize setGfmState g gRamping s = y at hmoved hlogged ⊢
    have hset := stages_setGfm g { y.gfm.stages[g] with order := some .blackStart } y
    have hstateO : gState (orderStage g .blackStart y) g = gRamping := hmoved.state
    have hclosedO : contClosed (orderStage g .blackStart y) g = true := hmoved.closed
    have hordO : (orderStage g .blackStart y).gfm.stages[g].order = some .blackStart := congrArg GfmStage.order hset
    have hloggedO : Logged _ s (orderStage g .blackStart y) := logged_congr hlogged rfl rfl
    generalize orderStage g .blackStart y = z at hstateO hclosedO hordO hloggedO ⊢
    have hkeep := GFM_STATE_logs g 0x5003 (2 * g) (i.extractLsb' 0 32) z
    exact ⟨(fld_of_rd hkeep _).trans hstateO, (flg_of_rd hkeep _).trans hclosedO, by rw [logEvent_gfm, hordO],
      logged_append hloggedO (logged_logEvent _ _ _ rfl (room_after hloggedO hroom)) (logEvent_tai ..)⟩
  · have heq : takeSlot g i s = chooseSlot g (max (nowUp s) i.toNat + 1) s := by
      unfold takeSlot
      dsimp only
      cases hclosed : contClosed s g
      · rw [hclosed] at hnone
        rw [if_pos (show (!false) = true from rfl), if_neg (by rw [show permitDead s g = false from hnone]; exact Bool.false_ne_true)]
      · rw [hclosed] at hnone
        rw [if_neg (show ¬(!true) = true from Bool.false_ne_true), if_neg (by rw [show vdcOk s g = false from hnone]; exact Bool.false_ne_true)]
    rw [htaken hdead, heq]
    have hchosen := slotAwaited_chooseSlot g (max (nowUp s) i.toNat + 1) s
    exact ⟨hchosen.gState.trans hstate, hchosen.contClosed, fld_of_rd hchosen.state _, hchosen.slot⟩

/-- What has been taken at a later instant of the same stage. -/
theorem slotTaken_of_same {i : BitVec 64} (hs : SameStage g s x) (h : SlotTaken g i x t) : SlotTaken g i s t := by
  obtain ⟨hgfm, hlog, hregs⟩ := hs
  have hline := SameStage.line (g := g) ⟨hgfm, hlog, hregs⟩
  have hclosed : contClosed x g = contClosed s g := flg_of_regs hregs _ _
  have hatt : attemptOf x g = attemptOf s g := fld_of_regs hregs _ _
  have hlogs : ∀ es, Logged es x t → Logged es s t := fun es hes => by rwa [Logged, hlog] at hes
  refine ⟨h.come, fun hl => ?_, fun hd hc hp => ?_, fun hd hc hv => ?_, fun hd hn => ?_⟩
  · rw [← hclosed]
    exact h.leaves (hline.lineDead.trans hl)
  · obtain ⟨h1, h2, h3⟩ := h.closes (hline.lineDead.trans hd) (hclosed.trans hc) (hline.permitDead.trans hp)
    exact ⟨h1, h2, hlogs _ h3⟩
  · obtain ⟨h1, h2, h3, h4⟩ := h.ramps (hline.lineDead.trans hd) (hclosed.trans hc) (hline.vdcOk.trans hv)
    exact ⟨h1, h2, h3, hlogs _ h4⟩
  · rw [← hclosed, ← hatt]
    exact h.waits (hline.lineDead.trans hd) (by rw [hclosed, hline.vdcOk, hline.permitDead]; exact hn)

theorem slotReached_taken {i : BitVec 64} {b : Bool} (hstate : gState s g = gWaitSlot) (hstandby : isStandby s = false)
    (hroom : Room 2 s) (hfit : i.toNat + stagePeriod s (gst g) < 2 ^ 64) (hslot : s.gfm.stages[g].slot = some (i, b)) :
    SlotTaken g i s (slotReached g b s) := by
  have heq : slotReached g b s = slotRows g (reachSample (gst g) i s) := by
    unfold slotReached
    rw [hslot]
    exact if_pos ⟨rfl, hstate, by rw [hstandby]; rfl⟩
  rw [heq]
  have hcome := nowNat_reachSample (gst g) i hfit
  obtain ⟨hgfm, hlog, hregs⟩ := reachSample_same (gst g) i s
  generalize reachSample (gst g) i s = x at hcome hgfm hlog hregs ⊢
  exact slotTaken_of_same ⟨hgfm, hlog, hregs⟩ (slotRows_taken ((fld_of_regs hregs _ _).trans hstate) (by rw [hgfm]; exact hslot) hcome
    (room_of_log hlog hroom))

theorem slotReached_none (b : Bool) (h : gState s g ≠ gWaitSlot ∨ isStandby s = true ∨ s.gfm.stages[g].slot = none) : slotReached g b s = s := by
  unfold slotReached
  split
  · rfl
  next hslot =>
    refine if_neg fun ⟨_, hstate, hstandby⟩ => ?_
    rcases h with h | h | h
    · exact h hstate
    · rw [h] at hstandby
      exact Bool.false_ne_true hstandby
    · rw [h] at hslot
      exact absurd hslot nofun

/-! ### The end of a ramp -/

theorem rampDone_effect (g : Fin 2) (k : RampKind) (s : State) : (rampDone g k s).loop = s.loop ∧ (rampDone g k s).ticks = s.ticks ∧
    ((rampDone g k s).gfm.stages[g]).order = some .vsm ∧
    gState (rampDone g k s) g = (if k = .blackStart ∧ gState s g = gRamping then gRunning else gState s g) := by
  unfold rampDone
  dsimp only
  have hset : (orderStage g .vsm s).gfm.stages[g].order = some .vsm :=
    congrArg GfmStage.order (stages_setGfm g { s.gfm.stages[g] with order := some .vsm } s)
  have hkeep : (orderStage g .vsm s).loop = s.loop ∧ (orderStage g .vsm s).ticks = s.ticks ∧ gState (orderStage g .vsm s) g = gState s g :=
    ⟨rfl, rfl, rfl⟩
  generalize orderStage g .vsm s = x at hset hkeep ⊢
  obtain ⟨hloop, hticks, hst⟩ := hkeep
  rw [← hst]
  split
  next hramp =>
    have hmoved := gfmMoved_setGfmState (g := g) (s := x) (by decide : gRunning < 16) (by rw [hramp.2]; decide)
    obtain ⟨c, hc⟩ := hmoved.stage
    exact ⟨hmoved.loop.trans hloop, hmoved.ticks.trans hticks, by rw [hc]; exact hset, hmoved.state⟩
  next => exact ⟨hloop, hticks, hset, rfl⟩

/-- A ramp that nothing has held, at its end. -/
def rampReached (g : Fin 2) (r : Ramp) (q : Nat) (s : State) : State := moveProf (rampGen g) ⟨r.target / 8, 0, 0⟩ (reachLocal q s)

theorem rampReached_effect (g : Fin 2) (r : Ramp) (q : Nat) (s : State) : ((rampReached g r q s).loop.prof[rampGen g]).x = r.target / 8 ∧
    ((rampReached g r q s).loop.prof[rampGen g]).v = 0 ∧ q ≤ localNs (rampReached g r q s) ∧ gState (rampReached g r q s) g = gState s g := by
  unfold rampReached
  have hreach := localNs_reachLocal q s
  have hrd : ∀ a, rd (reachLocal q s) a = rd s a := fun _ => rfl
  generalize reachLocal q s = x at hreach hrd ⊢
  obtain ⟨-, hprof, -, honly, -⟩ := moveProf_effect (rampGen g) ⟨r.target / 8, 0, 0⟩ x
  have hticks : (moveProf (rampGen g) ⟨r.target / 8, 0, 0⟩ x).ticks = x.ticks :=
    keeps_of_ev (moveProf_ev (g := rampGen g) (m := ⟨r.target / 8, 0, 0⟩) (foot_self _) (Ev.refl _ x)) (p := .ticks) rfl
  refine ⟨by rw [hprof], by rw [hprof], by rw [localNs_of_ticks hticks]; exact hreach, ?_⟩
  have hne : ∀ g : Fin 2, Reg.GFM_STATE (2 * g) ∉ [Reg.CTRL_PROF_OUT (rampGen g)] := by decide
  exact fld_of_rd ((honly _ (hne g)).trans (hrd _)) _

theorem rampComplete_clause (g : Fin 2) (r : Ramp) (s : State) (hramp : (s.gfm.stages[g]).ramp = some r) (hstandby : isStandby s = false) :
    (r.wasHeld = false ∨ rampRests s g r = true → ∃ t, exec (.rampComplete g) s = .next t ∧
      (t.loop.prof[rampGen g]).x = r.target / 8 ∧ (t.loop.prof[rampGen g]).v = 0 ∧
      (r.wasHeld = false → r.at' + rampNs s g r.kind ≤ localNs t) ∧ (t.gfm.stages[g]).order = some .vsm ∧
      gState t g = (if r.kind = .blackStart ∧ gState s g = gRamping then gRunning else gState s g)) ∧
    (r.wasHeld = true → rampRests s g r = false → exec (.rampComplete g) s = .next s) := by
  have hexec : exec (.rampComplete g) s = if !r.wasHeld then
      .next (rampDone g r.kind (rampReached g r (r.at' + rampNs s g r.kind) s))
      else if rampRests s g r then .next (rampDone g r.kind s) else .next s := by
    refine Eq.trans (b := execRampComplete g s) rfl ?_
    unfold execRampComplete
    rw [hramp]
    dsimp only
    rw [if_neg (by rw [hstandby]; exact Bool.false_ne_true)]
    rfl
  rw [hexec]
  cases hheld : r.wasHeld
  · refine ⟨fun _ => ⟨_, if_pos rfl, ?_⟩, nofun⟩
    obtain ⟨hx, hv, hle, hst⟩ := rampReached_effect g r (r.at' + rampNs s g r.kind) s
    generalize rampReached g r (r.at' + rampNs s g r.kind) s = y at hx hv hle hst ⊢
    obtain ⟨hloop, hticks, hord, hstate⟩ := rampDone_effect g r.kind y
    rw [hloop, hstate, hst, localNs_of_ticks hticks]
    exact ⟨hx, hv, fun _ => hle, hord, rfl⟩
  · refine ⟨fun h => ?_, fun _ hrest => ?_⟩
    · have hrest : rampRests s g r = true := h.resolve_left nofun
      refine ⟨_, (if_neg Bool.false_ne_true).trans (if_pos hrest), ?_⟩
      obtain ⟨hloop, -, hord, hstate⟩ := rampDone_effect g r.kind s
      unfold rampRests at hrest
      simp only [Bool.and_eq_true, beq_iff_eq] at hrest
      obtain ⟨⟨⟨-, hx⟩, hv⟩, -⟩ := hrest
      rw [hloop, hstate]
      exact ⟨hx, hv, nofun, hord, rfl⟩
    · rw [if_neg (show ¬(!true) = true from Bool.false_ne_true), if_neg (by rw [hrest]; exact Bool.false_ne_true)]

end Moves

end Sys2Proof.Machine
end


section
/-! PROOFS. Aborts, synchronism and ride-through, settled (R238, R242 to R244). -/

namespace Sys2Proof.Machine

open Sys2Proof Sys2Proof.Safety Sys2Proof.Laws

section Sync

variable {g : Fin 2} {m : LineMeas} {s x y t w : State}

/-! ### The abort of a black start (rows 12 and 13) -/

/-- A black start aborted with attempts left. -/
def abortRetried (g : Fin 2) (a : Nat) (s : State) : State :=
  let s := setF s (Reg.GFM_STATE (2 * g)) F.GFM_STATE_attempt (a + 1)
  let s := setGfm g { s.gfm.stages[g] with backoff := true } s
  logN 0x5005 (2 * g) (a + 1) (setGfmState g gLineCheck (stopStage g s))

/-- A black start aborted for the last time. -/
def abortFailed (g : Fin 2) (a : Nat) (s : State) : State := logN 0x5006 (2 * g) 0 (logN 0x5005 (2 * g) a (failGfm g s))

theorem execBlackstartAbort_eq (g : Fin 2) (s : State) : execBlackstartAbort g s =
    if gState s g ≠ gRamping ∨ stageMode s (gst g) ≠ modeRamp ∨ s.gfm.stages[g].limRun = 0 ∨ isStandby s then .next s
    else
      let q := s.gfm.stages[g].limFirstAt + msFld s (Reg.GFM_LIMIT_T (2 * g)) F.GFM_LIMIT_T_t_hold 1
      if attemptOf (reachLocal q s) g < 3 then .next (abortRetried g (attemptOf (reachLocal q s) g) (reachLocal q s))
      else .next (abortFailed g (attemptOf (reachLocal q s) g) (reachLocal q s)) := rfl

theorem abortRetried_effect {a : Nat} (hstate : gState s g = gRamping) (ha : a < 3) (hroom : Room 2 s) :
    contClosed (abortRetried g a s) g = false ∧ ((abortRetried g a s).loop.stages[gst g]).stopReq = true ∧
    (abortRetried g a s).ticks = s.ticks ∧ gState (abortRetried g a s) g = gLineCheck ∧ attemptOf (abortRetried g a s) g = a + 1 ∧
    ((abortRetried g a s).gfm.stages[g]).backoff = true ∧
    Logged [(0x5001, 2 * g.val, 0x401), (0x5005, 2 * g.val, BitVec.ofNat 32 (a + 1))] s (abortRetried g a s) := by
  unfold abortRetried
  dsimp only
  have hatt : attemptOf (setF s (Reg.GFM_STATE (2 * g)) F.GFM_STATE_attempt (a + 1)) g = a + 1 :=
    (fld_setF _ _ _ _ (by decide)).trans (Nat.mod_eq_of_lt (show a + 1 < 2 ^ 4 by omega))
  have hst : gState (setF s (Reg.GFM_STATE (2 * g)) F.GFM_STATE_attempt (a + 1)) g = gRamping :=
    (fld_setF_disj _ _ _ _ _ (by decide)).trans hstate
  have hkeep : (setF s (Reg.GFM_STATE (2 * g)) F.GFM_STATE_attempt (a + 1)).log = s.log ∧
    (setF s (Reg.GFM_STATE (2 * g)) F.GFM_STATE_attempt (a + 1)).ticks = s.ticks := ⟨rfl, rfl⟩
  generalize setF s (Reg.GFM_STATE (2 * g)) F.GFM_STATE_attempt (a + 1) = x at hatt hst hkeep ⊢
  obtain ⟨hlog, hticks⟩ := hkeep
  have hset := congrArg GfmStage.backoff (stages_setGfm g { x.gfm.stages[g] with backoff := true } x)
  have hatt' : attemptOf (setGfm g { x.gfm.stages[g] with backoff := true } x) g = a + 1 := hatt
  have hst' : gState (setGfm g { x.gfm.stages[g] with backoff := true } x) g = gRamping := hst
  have hlog' : (setGfm g { x.gfm.stages[g] with backoff := true } x).log = s.log := hlog
  have hticks' : (setGfm g { x.gfm.stages[g] with backoff := true } x).ticks = s.ticks := hticks
  generalize setGfm g { x.gfm.stages[g] with backoff := true } x = y at hset hatt' hst' hlog' hticks' ⊢
  have hinto := stoppedInto (g := g) (s := y) (by decide : gLineCheck < 16) (by rw [hst']; decide)
  generalize setGfmState g gLineCheck (stopStage g y) = z at hinto ⊢
  have hroom1 : Room 1 s := by
    unfold Room at hroom ⊢
    omega
  have hlogged := logged_append (logged_nil hlog') (hinto.logged (room_of_log hlog' hroom1)) hinto.tai
  rw [hst'] at hlogged
  obtain ⟨c, hc⟩ := hinto.stage
  have hkeep := GFM_STATE_logs g 0x5005 (2 * g) (BitVec.ofNat 32 (a + 1)) z
  have hlast := logged_append hlogged (logged_logN 0x5005 (2 * g) (a + 1) rfl (room_after hlogged hroom)) (logEvent_tai ..)
  refine ⟨(flg_of_rd hkeep _).trans hinto.closed, ?_, (logEvent_ticks ..).trans (hinto.ticks.trans hticks'), (fld_of_rd hkeep _).trans hinto.state,
    (fld_of_rd hkeep _).trans (hinto.attempt.trans hatt'), ?_, hlast⟩
  · rw [logN, logEvent_loop, hinto.stopped]
  · rw [logN, logEvent_gfm, hc]
    exact congrArg (fun b : Bool => b && true) hset

theorem abortFailed_effect (a : Nat) (hstate : gState s g = gRamping) (hroom : Room 3 s) :
    contClosed (abortFailed g a s) g = false ∧ ((abortFailed g a s).loop.stages[gst g]).stopReq = true ∧
    (abortFailed g a s).ticks = s.ticks ∧ gState (abortFailed g a s) g = gFailed ∧
    Logged [(0x5001, 2 * g.val, 0x40A), (0x5005, 2 * g.val, BitVec.ofNat 32 a), (0x5006, 2 * g.val, 0)] s (abortFailed g a s) := by
  unfold abortFailed
  have hinto := failGfm_into (g := g) (s := s) (by rw [hstate]; decide)
  generalize failGfm g s = y at hinto ⊢
  have hlogged := hinto.logged (by unfold Room at hroom ⊢; omega)
  rw [hstate] at hlogged
  have hroom2 : Room 2 y := room_after hlogged hroom
  have hsecond := logged_logN 0x5005 (2 * g) a (s := y) rfl (by unfold Room at hroom2 ⊢; omega)
  have hkeep := GFM_STATE_logs g 0x5005 (2 * g) (BitVec.ofNat 32 a) y
  have hsame : (logN 0x5005 (2 * g) a y).ticks = y.ticks ∧ (logN 0x5005 (2 * g) a y).loop = y.loop ∧
    (logN 0x5005 (2 * g) a y).tai = y.tai := ⟨logEvent_ticks .., logEvent_loop .., logEvent_tai ..⟩
  have hkeep' : rd (logN 0x5005 (2 * g) a y) (Reg.GFM_STATE (2 * g)) = rd y (Reg.GFM_STATE (2 * g)) := hkeep
  generalize logN 0x5005 (2 * g) a y = z at hsecond hkeep' hsame ⊢
  obtain ⟨hticks, hloop, htai⟩ := hsame
  have hthird := logged_logN 0x5006 (2 * g) 0 (s := z) rfl (room_after hsecond hroom2)
  have hkeepZ := GFM_STATE_logs g 0x5006 (2 * g) (BitVec.ofNat 32 0) z
  refine ⟨(flg_of_rd hkeepZ _).trans ((flg_of_rd hkeep' _).trans hinto.closed), ?_,
    (logEvent_ticks ..).trans (hticks.trans hinto.ticks), (fld_of_rd hkeepZ _).trans ((fld_of_rd hkeep' _).trans hinto.state),
    logged_append (logged_append hlogged hsecond htai) hthird (logEvent_tai ..)⟩
  rw [logN, logEvent_loop, hloop, hinto.stopped]

theorem blackstartAbort_clause (g : Fin 2) (s : State) (hstate : gState s g = gRamping) (hmode : stageMode s (gst g) = modeRamp)
    (hlim : (s.gfm.stages[g]).limRun ≠ 0) (hstandby : isStandby s = false) (hroom : Room 3 s) :
    ∃ t, exec (.blackstartAbort g) s = .next t ∧ contClosed t g = false ∧
      (t.loop.stages[gst g]).stopReq = true ∧
      (s.gfm.stages[g]).limFirstAt + msFld s (Reg.GFM_LIMIT_T (2 * g)) F.GFM_LIMIT_T_t_hold 1 ≤ localNs t ∧
      (attemptOf s g < 3 → gState t g = gLineCheck ∧ attemptOf t g = attemptOf s g + 1 ∧ (t.gfm.stages[g]).backoff = true ∧
        Logged [(0x5001, 2 * g.val, 0x401), (0x5005, 2 * g.val, BitVec.ofNat 32 (attemptOf s g + 1))] s t) ∧
      (3 ≤ attemptOf s g → gState t g = gFailed ∧ Logged [(0x5001, 2 * g.val, 0x40A),
        (0x5005, 2 * g.val, BitVec.ofNat 32 (attemptOf s g)), (0x5006, 2 * g.val, 0)] s t) := by
  have hcond : ¬(gState s g ≠ gRamping ∨ stageMode s (gst g) ≠ modeRamp ∨ s.gfm.stages[g].limRun = 0 ∨ isStandby s = true) := by
    rw [hstandby]
    exact fun h => h.elim (· hstate) fun h => h.elim (· hmode) fun h => h.elim hlim nofun
  have hexec : exec (.blackstartAbort g) s = execBlackstartAbort g s := rfl
  rw [hexec, execBlackstartAbort_eq, if_neg hcond]
  dsimp only
  generalize s.gfm.stages[g].limFirstAt + msFld s (Reg.GFM_LIMIT_T (2 * g)) F.GFM_LIMIT_T_t_hold 1 = q
  have hreach := localNs_reachLocal q s
  have hquiet := quiet_reachLocal g q s
  generalize reachLocal q s = x at hreach hquiet ⊢
  have hx : gState x g = gRamping := hquiet.gState.trans hstate
  rw [hquiet.attempt]
  by_cases ha : attemptOf s g < 3
  · obtain ⟨h1, h2, h3, h4, h5, h6, h7⟩ := abortRetried_effect hx ha (hquiet.room (by unfold Room at hroom ⊢; omega))
    refine ⟨_, if_pos ha, h1, h2, by rw [localNs_of_ticks h3]; exact hreach, fun _ => ⟨h4, h5, h6, ?_⟩, fun h => absurd ha (by omega)⟩
    rwa [Logged, hquiet.log] at h7
  · obtain ⟨h1, h2, h3, h4, h5⟩ := abortFailed_effect (attemptOf s g) hx (hquiet.room hroom)
    refine ⟨_, if_neg ha, h1, h2, by rw [localNs_of_ticks h3]; exact hreach, fun h => absurd h ha, fun _ => ⟨h4, ?_⟩⟩
    rwa [Logged, hquiet.log] at h5

theorem blackstartAbort_none (g : Fin 2) (s : State) (h : gState s g ≠ gRamping ∨ stageMode s (gst g) ≠ modeRamp ∨ (s.gfm.stages[g]).limRun = 0) :
    exec (.blackstartAbort g) s = .next s := by
  refine Eq.trans (b := execBlackstartAbort g s) rfl ?_
  rw [execBlackstartAbort_eq]
  exact if_pos (h.elim .inl fun h => .inr (h.elim .inl fun h => .inr (.inl h)))

/-! ### The ends of SYNC and RIDE (rows 16 and 24) -/

theorem syncExpired_effect (d : Word) (hstate : gState s g = gSync) (hroom : Room 2 s) :
    gState (logEvent 0x5008 (2 * g) d (failGfm g s)) g = gFailed ∧ contClosed (logEvent 0x5008 (2 * g) d (failGfm g s)) g = false ∧
    ((logEvent 0x5008 (2 * g) d (failGfm g s)).loop.stages[gst g]).stopReq = true ∧
    (logEvent 0x5008 (2 * g) d (failGfm g s)).ticks = s.ticks ∧
    Logged [(0x5001, 2 * g.val, 0x50A), (0x5008, 2 * g.val, d)] s (logEvent 0x5008 (2 * g) d (failGfm g s)) := by
  have hinto := failGfm_into (g := g) (s := s) (by rw [hstate]; decide)
  generalize failGfm g s = y at hinto ⊢
  have hlogged := hinto.logged (by unfold Room at hroom ⊢; omega)
  rw [hstate] at hlogged
  have hkeep := GFM_STATE_logs g 0x5008 (2 * g) d y
  refine ⟨(fld_of_rd hkeep _).trans hinto.state, (flg_of_rd hkeep _).trans hinto.closed, ?_, (logEvent_ticks ..).trans hinto.ticks,
    logged_append hlogged (logged_logEvent 0x5008 (2 * g) d rfl (room_after hlogged hroom)) (logEvent_tai ..)⟩
  rw [logEvent_loop, hinto.stopped]

theorem syncTimeout_clause (g : Fin 2) (s : State) (hstate : gState s g = gSync) (hstandby : isStandby s = false) (hroom : Room 2 s) :
    ∃ t, exec (.syncTimeout g) s = .next t ∧ gState t g = gFailed ∧ contClosed t g = false ∧
      (t.loop.stages[gst g]).stopReq = true ∧ (s.gfm.stages[g]).stateAt + syncNs s g ≤ localNs t ∧
      Logged [(0x5001, 2 * g.val, 0x50A), (0x5008, 2 * g.val, centiDeg (deltaOf s.gfm.stages[g]))] s t := by
  have hexec : exec (.syncTimeout g) s = .next (syncExpire g (reachLocal ((s.gfm.stages[g]).stateAt + syncNs s g) s)) :=
    if_neg (by rw [hstandby]; exact fun h => h.elim (· hstate) nofun)
  rw [hexec]
  generalize (s.gfm.stages[g]).stateAt + syncNs s g = q
  have hreach := localNs_reachLocal q s
  have hquiet := quiet_reachLocal g q s
  have hgfm := gfm_reachLocal q s
  generalize reachLocal q s = x at hreach hquiet hgfm ⊢
  obtain ⟨h1, h2, h3, h4, h5⟩ := syncExpired_effect (centiDeg (deltaOf s.gfm.stages[g])) (hquiet.gState.trans hstate) (hquiet.room hroom)
  have heq : syncExpire g x = logEvent 0x5008 (2 * g) (centiDeg (deltaOf s.gfm.stages[g])) (failGfm g x) := by
    unfold syncExpire
    rw [hgfm]
  rw [heq]
  refine ⟨_, rfl, h1, h2, h3, by rw [localNs_of_ticks h4]; exact hreach, ?_⟩
  rwa [Logged, hquiet.log] at h5

theorem rideExpire_effect (hstate : gState s g = gRide) (hroom : Room 2 s) :
    gState (rideExpire g s) g = gStopped ∧ contClosed (rideExpire g s) g = false ∧
    ((rideExpire g s).loop.stages[gst g]).stopReq = true ∧ (rideExpire g s).ticks = s.ticks ∧
    Logged [(0x5001, 2 * g.val, 0x800), (0x500E, 2 * g.val, 0)] s (rideExpire g s) := by
  unfold rideExpire
  have hinto := stoppedInto (g := g) (s := s) (by decide : gStopped < 16) (by rw [hstate]; decide)
  generalize setGfmState g gStopped (stopStage g s) = y at hinto ⊢
  have hlogged := hinto.logged (by unfold Room at hroom ⊢; omega)
  rw [hstate] at hlogged
  have hkeep := GFM_STATE_logs g 0x500E (2 * g) (BitVec.ofNat 32 0) y
  refine ⟨(fld_of_rd hkeep _).trans hinto.state, (flg_of_rd hkeep _).trans hinto.closed, ?_, (logEvent_ticks ..).trans hinto.ticks,
    logged_append hlogged (logged_logN 0x500E (2 * g) 0 rfl (room_after hlogged hroom)) (logEvent_tai ..)⟩
  rw [logN, logEvent_loop, hinto.stopped]

theorem rideExpired_clause (g : Fin 2) (s : State) (hstate : gState s g = gRide) (hstandby : isStandby s = false) (hroom : Room 2 s) :
    ∃ t, exec (.rideExpired g) s = .next t ∧ gState t g = gStopped ∧ contClosed t g = false ∧
      (t.loop.stages[gst g]).stopReq = true ∧ (s.gfm.stages[g]).stateAt + rideNs s g ≤ localNs t ∧
      Logged [(0x5001, 2 * g.val, 0x800), (0x500E, 2 * g.val, 0)] s t := by
  have hexec : exec (.rideExpired g) s = .next (rideExpire g (reachLocal ((s.gfm.stages[g]).stateAt + rideNs s g) s)) :=
    if_neg (by rw [hstandby]; exact fun h => h.elim (· hstate) nofun)
  rw [hexec]
  generalize (s.gfm.stages[g]).stateAt + rideNs s g = q
  have hreach := localNs_reachLocal q s
  have hquiet := quiet_reachLocal g q s
  generalize reachLocal q s = x at hreach hquiet ⊢
  obtain ⟨h1, h2, h3, h4, h5⟩ := rideExpire_effect (hquiet.gState.trans hstate) (hquiet.room hroom)
  refine ⟨_, rfl, h1, h2, h3, by rw [localNs_of_ticks h4]; exact hreach, ?_⟩
  rwa [Logged, hquiet.log] at h5

/-! ### The close of a synchronised stage (row 14) -/

theorem windowClosed_effect (hstate : gState s g = gSync) : gState (windowClosed g s) g = gClosingLive ∧
    contClosed (windowClosed g s) g = true ∧ ((windowClosed g s).gfm.stages[g]).winMs = 0 := by
  unfold windowClosed
  dsimp only
  have hmoved := gfmMoved_setGfmState (g := g) (s := s) (by decide : gClosingLive < 16) (by rw [hstate]; decide)
  obtain ⟨c, hc⟩ := hmoved.stage
  generalize s.gfm.stages[g].eTrack = e0
  generalize centiDeg _ = d
  have hwin : (setGfmState g gClosingLive s).gfm.stages[g].winMs = 0 := by rw [hc]; rfl
  generalize setGfmState g gClosingLive s = x at hmoved hwin ⊢
  generalize blendTerm x (gst g) 0 = r0
  generalize blendTerm x (gst g) 1 = r1
  generalize e0 - eDroop x g = re
  obtain ⟨e, hstage⟩ := stage_startBlend (gst g) r0 r1 re g x
  have hrd : rd (startBlend (gst g) r0 r1 re x) (Reg.GFM_STATE (2 * g)) = rd x (Reg.GFM_STATE (2 * g)) :=
    rd_of_ev (startBlend_ev (st := gst g) (r0 := r0) (r1 := r1) (re := re) (foot_self _) (Ev.refl _ x)) rfl (GFM_STATE_block g) rfl
  generalize startBlend (gst g) r0 r1 re x = y at hstage hrd ⊢
  have hkeep := (GFM_STATE_logs g 0x5007 (2 * g) d y).trans hrd
  exact ⟨(fld_of_rd hkeep _).trans hmoved.state, (flg_of_rd hkeep _).trans hmoved.closed, by rw [logEvent_gfm, hstage]; exact hwin⟩

theorem lineRows_sync (hstate : gState s g = gSync) (hms : s.gfm.stages[g].notLiveMs = 0) : lineRows g s = s := by
  unfold lineRows
  dsimp only
  rw [if_neg (by rw [hstate]; decide), if_neg (by rw [hstate]; exact fun h => absurd h.1 (by decide)),
    if_neg (by rw [hms]; exact fun h => absurd h.2 (by decide)), if_neg (by rw [hstate]; decide)]

/-- What a synchronised stage sees where its windows hold (R244). -/
structure WindowsHold (g : Fin 2) (s : State) : Prop where
  live : lineLive s g = true
  conv : classOf s g s.gfm.stages[g].vc s.gfm.stages[g].fc = 2
  angle : inWin (deltaOf s.gfm.stages[g]) (angWin s g) = true
  slip : inWin (s.gfm.stages[g].fl - s.gfm.stages[g].fc) (slipHz s g) = true
  volt : inWin (s.gfm.stages[g].vl - s.gfm.stages[g].vc) (voltWin s g) = true
  closing : inWin (deltaOf s.gfm.stages[g] + 360 * (s.gfm.stages[g].fl - s.gfm.stages[g].fc) *
    ((fld s (Reg.GFM_CONT (2 * g)) F.GFM_CONT_t_close_nom : Rat) / 1000)) (angWin s g) = true

theorem windowRow_closes (hstate : gState s g = gSync) (hmode : stageMode s (gst g) = modeVsm) (hwin : WindowsHold g s)
    (hms : fld s (Reg.GFM_SYNC (2 * g)) F.GFM_SYNC_t_sync_hold ≤ s.gfm.stages[g].winMs + 1) :
    windowRow g s = windowClosed g (countWindow g s) := by
  have hok : (inWin (deltaOf s.gfm.stages[g] + 360 * (s.gfm.stages[g].fl - s.gfm.stages[g].fc) *
      ((fld s (Reg.GFM_CONT (2 * g)) F.GFM_CONT_t_close_nom : Rat) / 1000)) (angWin s g) &&
      inWin (s.gfm.stages[g].fl - s.gfm.stages[g].fc) (slipHz s g) && inWin (s.gfm.stages[g].vl - s.gfm.stages[g].vc) (voltWin s g)) = true := by
    rw [hwin.closing, hwin.slip, hwin.volt]
    rfl
  have hcount : (countWindow g s).gfm.stages[g].winMs = s.gfm.stages[g].winMs + 1 := by
    unfold countWindow
    dsimp only
    rw [stages_setGfm, if_pos hok]
  have hline := (rowKept_countWindow g s).line
  have hhold : fld (countWindow g s) (Reg.GFM_SYNC (2 * g)) F.GFM_SYNC_t_sync_hold = fld s (Reg.GFM_SYNC (2 * g)) F.GFM_SYNC_t_sync_hold :=
    fld_of_rd (hline.regs _ (rowReg_GFM_SYNC g)) _
  have hpermit : permitLive (countWindow g s) g = true := by
    rw [hline.permitLive]
    unfold permitLive
    dsimp only
    rw [hwin.live, hwin.conv, hwin.angle, hwin.slip, hwin.volt]
    rfl
  rw [windowRow_eq, if_neg (fun h => h.elim (· hstate) (· hmode))]
  exact if_pos ⟨by rw [hhold, hcount]; exact hms, hpermit⟩

theorem decideGfm_close (hstandby : isStandby s = false) (hstate : gState s g = gSync) (hmode : stageMode s (gst g) = modeVsm)
    (hms : s.gfm.stages[g].notLiveMs = 0) (hwin : WindowsHold g s)
    (hhold : fld s (Reg.GFM_SYNC (2 * g)) F.GFM_SYNC_t_sync_hold ≤ s.gfm.stages[g].winMs + 1) :
    gState (decideGfm g s) g = gClosingLive ∧ contClosed (decideGfm g s) g = true ∧ ((decideGfm g s).gfm.stages[g]).winMs = 0 := by
  rw [decideGfm_active hstandby, rideRows_other (by rw [hstate]; decide) (by rw [hstate]; decide), lineRows_sync hstate hms,
    slotRows_other (by rw [hstate]; decide), windowRow_closes hstate hmode hwin hhold]
  obtain ⟨h1, h2, h3⟩ := windowClosed_effect (g := g) (s := countWindow g s) hstate
  rw [syncRow_other (by rw [h1]; decide)]
  exact ⟨h1, h2, h3⟩

/-- What a measurement has made of the phasors of a stage. -/
theorem takenPhasors (h : LineTaken g m s t) :
    t.gfm.stages[g].vl = (takenStage m s.gfm.stages[g]).vl ∧ t.gfm.stages[g].fl = (takenStage m s.gfm.stages[g]).fl ∧
    t.gfm.stages[g].vc = (takenStage m s.gfm.stages[g]).vc ∧ t.gfm.stages[g].fc = (takenStage m s.gfm.stages[g]).fc ∧
    t.gfm.stages[g].phi = (takenStage m s.gfm.stages[g]).phi ∧ t.gfm.stages[g].phiC = (takenStage m s.gfm.stages[g]).phiC ∧
    t.gfm.stages[g].notLiveMs = countedMs (classOf s g (takenStage m s.gfm.stages[g]).vl (takenStage m s.gfm.stages[g]).fl != 2)
      (countsRun s g) (takenStage m s.gfm.stages[g]).notLiveMs := by
  rw [h.stage]
  generalize takenStage m s.gfm.stages[g] = x
  generalize classOf s g x.vl x.fl = c
  generalize some (localNs t) = q
  exact ⟨rfl, rfl, rfl, rfl, rfl, rfl, rfl⟩

theorem ContactorQuiet.phasors (h : ContactorQuiet g y w) :
    w.gfm.stages[g].vl = y.gfm.stages[g].vl ∧ w.gfm.stages[g].fl = y.gfm.stages[g].fl ∧ w.gfm.stages[g].vc = y.gfm.stages[g].vc ∧
    w.gfm.stages[g].fc = y.gfm.stages[g].fc ∧ w.gfm.stages[g].phi = y.gfm.stages[g].phi ∧ w.gfm.stages[g].phiC = y.gfm.stages[g].phiC ∧
    w.gfm.stages[g].notLiveMs = y.gfm.stages[g].notLiveMs ∧ w.gfm.stages[g].winMs = y.gfm.stages[g].winMs ∧
    w.gfm.stages[g].rideOkMs = y.gfm.stages[g].rideOkMs := by
  obtain ⟨a, b, h⟩ := h.stage
  rw [h]
  exact ⟨rfl, rfl, rfl, rfl, rfl, rfl, rfl, rfl, rfl⟩

theorem GfmQuiet.syncReg (h : GfmQuiet g s t) : rd t (Reg.GFM_SYNC (2 * g)) = rd s (Reg.GFM_SYNC (2 * g)) :=
  h.setting (rowReg_GFM_SYNC g) (by simp only [Reg.GFM_SYNC, Reg.GFM_FREQ]; omega)

theorem GfmQuiet.windows (h : GfmQuiet g s t) : angWin t g = angWin s g ∧ slipHz t g = slipHz s g ∧ voltWin t g = voltWin s g := by
  unfold angWin slipHz voltWin
  rw [fld_of_rd h.syncReg, fld_of_rd h.syncReg, fld_of_rd h.syncReg]
  exact ⟨rfl, rfl, rfl⟩

theorem syncClose_clause (g : Fin 2) (m : LineMeas) (s : State) (hkind : stageKind s (gst g) = kindGridForming) (hstate : gState s g = gSync)
    (hmode : stageMode s (gst g) = modeVsm) (hblocked : isBlocked s (gst g) = false) (hstandby : isStandby s = false)
    (hclosed : contClosed s g = false) (hfb : contFb s g = false) (hline : m.lineUsable = true) (hconv : m.convUsable = true)
    (hlive : classOf s g m.vl m.fl = 2) (hliveC : classOf s g m.vc m.fc = 2) :
    let d := wrapDeg (wrapDeg m.phiC - wrapDeg m.phi)
    inWin d (angWin s g) = true → inWin (m.fl - m.fc) (slipHz s g) = true → inWin (m.vl - m.vc) (voltWin s g) = true →
    inWin (d + 360 * (m.fl - m.fc) * ((fld s (Reg.GFM_CONT (2 * g)) F.GFM_CONT_t_close_nom : Rat) / 1000)) (angWin s g) = true →
    fld s (Reg.GFM_SYNC (2 * g)) F.GFM_SYNC_t_sync_hold ≤ (s.gfm.stages[g]).winMs + 1 →
    ∃ t, exec (.syncClose g m) s = .next t ∧ gState t g = gClosingLive ∧ contClosed t g = true ∧
      (t.gfm.stages[g]).winMs = 0 := by
  intro d hang hslip hvolt hpred hhold
  have hexec : exec (.syncClose g m) s = .next (classify g m s) := if_pos ⟨hstate, hhold⟩
  obtain ⟨y, w, heq, hw⟩ := classify_quiet (m := m) hkind hblocked (hfb.trans hclosed.symm) (by rw [hstate]; decide) (by rw [hstate]; decide)
  obtain ⟨pvl, pfl, pvc, pfc, pphi, pphiC, pnot⟩ := takenPhasors hw.taken
  obtain ⟨cvl, cfl, cvc, cfc, cphi, cphiC, cnot, cwin, -⟩ := hw.check.phasors
  obtain ⟨-, rwin, -⟩ := takenRest hw.taken
  obtain ⟨hvl, hfl, hphi⟩ := takenStage_line hline s.gfm.stages[g]
  obtain ⟨hvc, hfc, hphiC⟩ := takenStage_conv hconv s.gfm.stages[g]
  obtain ⟨hwclass, -, -⟩ := hw.fields
  rw [hvl, hfl, hlive] at hwclass pnot
  obtain ⟨wang, wslip, wvolt⟩ := hw.quiet.windows
  have hdelta : deltaOf w.gfm.stages[g] = d := by rw [deltaOf, cphi, cphiC, pphi, pphiC, hphi, hphiC]
  have hwvl : w.gfm.stages[g].vl = m.vl := cvl.trans (pvl.trans hvl)
  have hwfl : w.gfm.stages[g].fl = m.fl := cfl.trans (pfl.trans hfl)
  have hwvc : w.gfm.stages[g].vc = m.vc := cvc.trans (pvc.trans hvc)
  have hwfc : w.gfm.stages[g].fc = m.fc := cfc.trans (pfc.trans hfc)
  have hwin : WindowsHold g w := by
    refine ⟨by rw [lineLive, hwclass]; rfl, ?_, ?_, ?_, ?_, ?_⟩
    · rw [hwvc, hwfc, hw.quiet.classOf, hliveC]
    · rw [hdelta, wang, hang]
    · rw [hwfl, hwfc, wslip, hslip]
    · rw [hwvl, hwvc, wvolt, hvolt]
    · rw [hdelta, hwfl, hwfc, wang, fld_of_rd hw.quiet.cont, hpred]
  rw [hexec, heq]
  exact ⟨_, rfl, decideGfm_close (hw.quiet.isStandby.trans hstandby) (hw.quiet.gState.trans hstate) (hw.quiet.stageMode.trans hmode)
    (cnot.trans pnot) hwin (by rw [fld_of_rd hw.quiet.syncReg, cwin, rwin]; exact hhold)⟩

/-! ### The end of a ride-through (rows 22 and 25) -/

theorem rideRows_resume (hstate : gState s g = gRide) (hvdc : vdcOk s g = true) (hms : 9 ≤ s.gfm.stages[g].rideOkMs)
    (hlive : liveConfirmed s g = true) : rideRows g s = setGfmState g gJoin (rideCounted g s) := by
  have hcount : (rideCounted g s).gfm.stages[g].rideOkMs = s.gfm.stages[g].rideOkMs + 1 := by
    rw [rideCounted, stages_setGfm, hvdc]
    rfl
  have hlive' : liveConfirmed (rideCounted g s) g = true := by
    have hkept : RowKept g s (rideCounted g s) := rowKept_setGfm _ s rfl
    exact hkept.line.liveConfirmed.trans hlive
  unfold rideRows
  dsimp only
  rw [if_neg (by rw [hstate]; exact fun h => absurd h.1 (by decide)), if_pos hstate]
  exact if_pos ⟨by rw [← rideCounted, hcount]; omega, hlive'⟩

theorem lineRows_join (hstate : gState s g = gJoin) (hlive : liveConfirmed s g = true) (hvdc : vdcOk s g = true) :
    lineRows g s = orderStage g .join (setGfmState g gRunning s) := by
  unfold lineRows
  dsimp only
  rw [if_neg (by rw [hstate]; decide), if_neg (by rw [hstate]; exact fun h => absurd h.1 (by decide)),
    if_neg (by rw [hstate]; exact fun h => absurd h.1 (by decide)), if_pos hstate, if_pos ⟨hlive, hvdc⟩]

theorem decideGfm_resume (hstandby : isStandby s = false) (hstate : gState s g = gRide) (hvdc : vdcOk s g = true)
    (hms : 9 ≤ s.gfm.stages[g].rideOkMs) (hlive : liveConfirmed s g = true) (hroom : Room 4 s) :
    gState (decideGfm g s) g = gRunning ∧ contClosed (decideGfm g s) g = true ∧ ((decideGfm g s).gfm.stages[g]).order = some .join ∧
    Logged [(0x5001, 2 * g.val, 0x809), (0x5001, 2 * g.val, 0x907)] s (decideGfm g s) := by
  rw [decideGfm_active hstandby, rideRows_resume hstate hvdc hms hlive]
  have hstate' : gState (rideCounted g s) g = gRide := hstate
  have hlog : (rideCounted g s).log = s.log := rfl
  have hkept : RowKept g s (rideCounted g s) := rowKept_setGfm _ s rfl
  have hline := hkept.line
  generalize rideCounted g s = x at hstate' hlog hkept hline ⊢
  have hjoin := gfmMoved_setGfmState (g := g) (s := x) (by decide : gJoin < 16) (by rw [hstate']; decide)
  have hlineJ := (rowKept_setGfmState (by decide : gJoin < 16) g x).line
  have hlogged := logged_append (logged_nil hlog) (hjoin.logged (room_of_log hlog (by unfold Room at hroom ⊢; omega))) hjoin.tai
  rw [hstate'] at hlogged
  generalize setGfmState g gJoin x = y at hjoin hlineJ hlogged ⊢
  rw [lineRows_join hjoin.state (hlineJ.liveConfirmed.trans (hline.liveConfirmed.trans hlive))
    (hlineJ.vdcOk.trans (hline.vdcOk.trans hvdc))]
  have hrun := gfmMoved_setGfmState (g := g) (s := y) (by decide : gRunning < 16) (by rw [hjoin.state]; decide)
  have hroom3 : Room 3 y := room_after hlogged hroom
  have hlogged' := logged_append hlogged (hrun.logged (by unfold Room at hroom3 ⊢; omega)) hrun.tai
  rw [hjoin.state] at hlogged'
  have hclosed : contClosed (setGfmState g gRunning y) g = true := hrun.closed
  generalize setGfmState g gRunning y = z at hrun hlogged' hclosed ⊢
  have hord := congrArg GfmStage.order (stages_setGfm g { z.gfm.stages[g] with order := some .join } z)
  have hstateO : gState (orderStage g .join z) g = gRunning := hrun.state
  have hclosedO : contClosed (orderStage g .join z) g = true := hclosed
  have hloggedO : Logged [(0x5001, 2 * g.val, 0x809), (0x5001, 2 * g.val, 0x907)] s (orderStage g .join z) := logged_congr hlogged' rfl rfl
  rw [slotRows_other (by rw [hstateO]; decide), windowRow_other (.inl (by rw [hstateO]; decide)), syncRow_other (by rw [hstateO]; decide)]
  exact ⟨hstateO, hclosedO, hord, hloggedO⟩

theorem rideResume_clause (g : Fin 2) (m : LineMeas) (s : State) (hkind : stageKind s (gst g) = kindGridForming) (hstate : gState s g = gRide)
    (hblocked : isBlocked s (gst g) = false) (hstandby : isStandby s = false) (hclosed : contClosed s g = true) (hfb : contFb s g = true)
    (hvdc : vdcOk s g = true) (hms : 9 ≤ (s.gfm.stages[g]).rideOkMs) (hline : m.lineUsable = true) (hclass : classOf s g m.vl m.fl = 2)
    (hlive : 10 * fld s (Reg.GFM_LIVE (2 * g)) F.GFM_LIVE_t_live ≤ (s.gfm.stages[g]).liveMs + 1) (hroom : Room 4 s) :
    ∃ t, exec (.rideResume g m) s = .next t ∧ gState t g = gRunning ∧ contClosed t g = true ∧
      (t.gfm.stages[g]).order = some .join ∧ Logged [(0x5001, 2 * g.val, 0x809), (0x5001, 2 * g.val, 0x907)] s t := by
  have hexec : exec (.rideResume g m) s = .next (classify g m s) := if_pos ⟨hstate, Nat.succ_le_succ hms⟩
  obtain ⟨y, w, heq, hw⟩ := classify_quiet (m := m) hkind hblocked (hfb.trans hclosed.symm) (by rw [hstate]; decide) (by rw [hstate]; decide)
  obtain ⟨-, -, hwlive⟩ := hw.fields
  obtain ⟨hvl, hfl, -⟩ := takenStage_line hline s.gfm.stages[g]
  have hrun : countsRun s g = true := by
    rw [countsRun, hstate]
    decide
  rw [hvl, hfl, hclass, hrun] at hwlive
  have hconf : liveConfirmed w g = true := by
    rw [liveConfirmed, hw.live, hwlive]
    exact decide_eq_true hlive
  obtain ⟨-, -, -, -, -, -, -, -, cride⟩ := hw.check.phasors
  obtain ⟨-, -, rride⟩ := takenRest hw.taken
  rw [hexec, heq]
  obtain ⟨h1, h2, h3, h4⟩ := decideGfm_resume (hw.quiet.isStandby.trans hstandby) (hw.quiet.gState.trans hstate) (hw.vdcOk.trans hvdc)
    (by rw [cride, rride]; exact hms) hconf (hw.quiet.room hroom)
  refine ⟨_, rfl, h1, h2, h3, ?_⟩
  rwa [Logged, hw.quiet.log] at h4

end Sync

end Sys2Proof.Machine

namespace Sys2Proof.Proofs

open Sys2Proof Sys2Proof.Machine Sys2Proof.Safety Sys2Proof.Laws

/-- Settles O45: each move is one row of the start state machine; what the rows before it do is nothing in its state. -/
theorem gfmMoves : Obligations.GfmMoves := by
  unfold Obligations.GfmMoves
  refine ⟨?_, ?_, rampComplete_clause, blackstartAbort_clause, blackstartAbort_none, syncClose_clause, ?_, syncTimeout_clause,
    rideResume_clause, ?_, rideExpired_clause⟩
  · intro g i s hstate hstandby hroom hfit
    exact ⟨fun hslot => ⟨_, rfl, slotReached_taken hstate hstandby hroom hfit hslot⟩,
      fun hslot => ⟨_, rfl, slotReached_taken hstate hstandby hroom hfit hslot⟩⟩
  · intro g s h
    exact ⟨congrArg Host.Outcome.next (slotReached_none false h), congrArg Host.Outcome.next (slotReached_none true h)⟩
  · intro g m s h
    exact if_neg fun hc => h.elim (fun h => h hc.1) fun h => absurd hc.2 (by omega)
  · intro g m s
    refine ⟨fun h => if_neg fun hc => h.elim (fun h => h hc.1) fun h => absurd hc.2 (by omega), fun h => if_pos h, fun h => if_pos h⟩

end Sys2Proof.Proofs
end


section
/-! PROOFS. What the operations of protection leave of its elements, settings and trips (chapter 09). -/

namespace Sys2Proof.Machine

open Sys2Proof Sys2Proof.Safety Sys2Proof.Laws

section Kept

variable {s x t : State}

/-! ### Feeders -/

theorem feeder_setFeeder (f : Fin 8) (y : FeederState) (s : State) : (setFeeder f y s).prot.feeders[f] = y := by simp [setFeeder]

theorem feeder_setFeeder_ne {f h : Fin 8} (hne : h ≠ f) (y : FeederState) (s : State) :
    (setFeeder f y s).prot.feeders[h] = s.prot.feeders[h] :=
  Vector.getElem_set_ne f.isLt h.isLt fun e => hne (Fin.ext e.symm)

/-- What the elements of a feeder hold between updates. -/
structure ElemView where
  acc : Vector Rat 7
  lastM : Vector Rat 7
  fastAbove : Vector Nat 3
  fastBelow : Vector Nat 3
  fastOp : Vector Bool 3
  theta : Rat
  invalid : Vector Bool 4
  lastUpd : Option Nat

def elemView (x : FeederState) : ElemView :=
  ⟨x.acc, x.lastM, x.fastAbove, x.fastBelow, x.fastOp, x.theta, x.invalid, x.lastUpd⟩

/-- The settings of the current elements, of the feeders and of the bus set, and the tracked frequency. -/
def ElemReg (a : Nat) : Prop :=
  a = Reg.PROT_BUS_CFG ∨ a = Reg.PROT_FREQ ∨ a = Reg.PROT_BLOCK ∨
    (Reg.PROT_FDR_CFG 0 ≤ a ∧ a < Reg.PROT_FDR_CFG 8 ∧ (a % 256 < 8 ∨ (64 ≤ a % 256 ∧ a % 256 < 128)))

/-- The elements of a feeder, their settings and the samples stay. -/
structure ElemKept (f : Fin 8) (s t : State) : Prop where
  view : elemView t.prot.feeders[f] = elemView s.prot.feeders[f]
  op : ∀ e, e ≠ 14 → isOperated t f e = isOperated s f e
  started : ∀ e, e < 16 → e ≠ 7 → isStarted t f e = isStarted s f e
  operated : ∀ e, e < 16 → fbit s (Reg.PROT_FDR_FLAGS f) F.PROT_FDR_FLAGS_operated e = true →
    fbit t (Reg.PROT_FDR_FLAGS f) F.PROT_FDR_FLAGS_operated e = true
  settings : ∀ a, ElemReg a → rd t a = rd s a
  old : t.prot.old = s.prot.old
  volt : t.prot.voltWin = s.prot.voltWin ∧ t.prot.vInvalid = s.prot.vInvalid
  cur : t.prot.curWin = s.prot.curWin
  fab : t.fab = s.fab
  ticks : t.ticks = s.ticks
  tai : t.tai = s.tai
  grows : LogGrows s t

theorem LogGrows.trans (h : LogGrows s x) (h' : LogGrows x t) : LogGrows s t := by
  obtain ⟨es, hes⟩ := h
  obtain ⟨fs, hfs⟩ := h'
  exact ⟨es ++ fs, by rw [hfs, hes, List.append_assoc]⟩

variable {f : Fin 8}

theorem ElemKept.refl (f : Fin 8) (s : State) : ElemKept f s s :=
  ⟨rfl, fun _ _ => rfl, fun _ _ _ => rfl, fun _ _ h => h, fun _ _ => rfl, rfl, ⟨rfl, rfl⟩, rfl, rfl, rfl, rfl, .refl s⟩

theorem ElemKept.trans (h : ElemKept f s x) (h' : ElemKept f x t) : ElemKept f s t :=
  ⟨h'.view.trans h.view, fun e he => (h'.op e he).trans (h.op e he), fun e h1 h2 => (h'.started e h1 h2).trans (h.started e h1 h2),
    fun e h1 h2 => h'.operated e h1 (h.operated e h1 h2), fun a ha => (h'.settings a ha).trans (h.settings a ha), h'.old.trans h.old,
    ⟨h'.volt.1.trans h.volt.1, h'.volt.2.trans h.volt.2⟩, h'.cur.trans h.cur, h'.fab.trans h.fab, h'.ticks.trans h.ticks, h'.tai.trans h.tai,
    h.grows.trans h'.grows⟩

/-! ### Which registers the elements do not sit in -/

theorem FLAGS_ne {f h : Fin 8} : Reg.PROT_FDR_FLAGS h ≠ Reg.PROT_FDR_STATE f ∧ Reg.PROT_FDR_FLAGS h ≠ Reg.PROT_STATUS ∧
    Reg.PROT_FDR_FLAGS h ≠ Reg.PROT_FDR_COUNT f ∧ Reg.PROT_FDR_FLAGS h ≠ Reg.PROT_TRIP_TIME f ∧
    Reg.PROT_FDR_FLAGS h ≠ Reg.PROT_TRIP_TIME f + 4 ∧ Reg.PROT_FDR_FLAGS h ≠ Reg.PROT_LMD_STATE ∧ Reg.PROT_FDR_FLAGS h ≠ Reg.PROT_LMD_ONSET ∧
    Reg.PROT_FDR_FLAGS h ≠ Reg.PROT_LMD_ONSET + 4 ∧ Reg.PROT_FDR_FLAGS h ≠ Reg.PROT_BUS_MEAS ∧ Reg.PROT_FDR_FLAGS h ≠ Reg.PROT_THERM_STATE f := by
  simp only [Reg.PROT_FDR_FLAGS, Reg.PROT_FDR_STATE, Reg.PROT_STATUS, Reg.PROT_FDR_COUNT, Reg.PROT_TRIP_TIME, Reg.PROT_LMD_STATE,
    Reg.PROT_LMD_ONSET, Reg.PROT_BUS_MEAS, Reg.PROT_THERM_STATE]
  omega

/-- The registers that protection shows its state in. -/
def ShownReg (a : Nat) : Prop :=
  a = Reg.PROT_STATUS ∨ a = Reg.PROT_BUS_MEAS ∨ a = Reg.PROT_LMD_STATE ∨ a = Reg.PROT_LMD_ONSET ∨ a = Reg.PROT_LMD_ONSET + 4 ∨
    (Reg.PROT_FDR_CFG 0 ≤ a ∧ a < Reg.PROT_FDR_CFG 8 ∧
      (a % 256 = 8 ∨ a % 256 = 12 ∨ a % 256 = 52 ∨ (144 ≤ a % 256 ∧ a % 256 < 172)))

theorem ElemReg.ne_shown {a b : Nat} (ha : ElemReg a) (hb : ShownReg b) : a ≠ b := by
  unfold ElemReg at ha
  unfold ShownReg at hb
  simp only [Reg.PROT_BUS_CFG, Reg.PROT_FREQ, Reg.PROT_BLOCK, Reg.PROT_FDR_CFG, Reg.PROT_STATUS, Reg.PROT_BUS_MEAS, Reg.PROT_LMD_STATE,
    Reg.PROT_LMD_ONSET] at ha hb
  omega

theorem shown_STATE (f : Fin 8) : ShownReg (Reg.PROT_FDR_STATE f) := by
  unfold ShownReg
  simp only [Reg.PROT_FDR_STATE, Reg.PROT_FDR_CFG]
  omega

theorem shown_FLAGS (f : Fin 8) : ShownReg (Reg.PROT_FDR_FLAGS f) := by
  unfold ShownReg
  simp only [Reg.PROT_FDR_FLAGS, Reg.PROT_FDR_CFG]
  omega

theorem shown_COUNT (f : Fin 8) : ShownReg (Reg.PROT_FDR_COUNT f) := by
  unfold ShownReg
  simp only [Reg.PROT_FDR_COUNT, Reg.PROT_FDR_CFG]
  omega

theorem shown_THERM (f : Fin 8) : ShownReg (Reg.PROT_THERM_STATE f) := by
  unfold ShownReg
  simp only [Reg.PROT_THERM_STATE, Reg.PROT_FDR_CFG]
  omega

theorem shown_TIME (f : Fin 8) : ShownReg (Reg.PROT_TRIP_TIME f) ∧ ShownReg (Reg.PROT_TRIP_TIME f + 4) := by
  unfold ShownReg
  simp only [Reg.PROT_TRIP_TIME, Reg.PROT_FDR_CFG]
  omega

theorem shown_MEAS (f : Fin 8) (k : Fin 4) : ShownReg (Reg.PROT_MEAS f k) := by
  unfold ShownReg
  simp only [Reg.PROT_MEAS, Reg.PROT_FDR_CFG]
  omega

/-- A register of protection. -/
theorem ElemReg.prot {a : Nat} (ha : ElemReg a) : 0x40080000 ≤ a ∧ a < 0x40082000 := by
  unfold ElemReg at ha
  simp only [Reg.PROT_BUS_CFG, Reg.PROT_FREQ, Reg.PROT_BLOCK, Reg.PROT_FDR_CFG] at ha
  omega

theorem block_prot {a : Nat} (h : 0x40080000 ≤ a ∧ a < 0x40082000) : blockAt a = some .prot := by
  have hdiv : a / 0x10000 = 0x4008 := by omega
  unfold blockAt
  rw [hdiv]
  rfl

theorem FLAGS_block (f : Fin 8) : blockAt (Reg.PROT_FDR_FLAGS f) = some .prot :=
  block_prot (by simp only [Reg.PROT_FDR_FLAGS]; omega)

/-! ### The single operations -/

/-- A step outside protection. -/
theorem elemKept_of_ev {ft : Foot} (h : Ev ft s t) (hprot : ft.parts.contains .prot = false) (hfab : ft.parts.contains .fab = false)
    (hticks : ft.parts.contains .ticks = false) (htai : ft.parts.contains .tai = false) (hany : ft.anyReg = false)
    (hblock : ft.blocks.contains .prot = false) (hgrows : LogGrows s t) : ElemKept f s t := by
  have hp : t.prot = s.prot := keeps_of_ev h hprot
  have hflags : rd t (Reg.PROT_FDR_FLAGS f) = rd s (Reg.PROT_FDR_FLAGS f) := rd_of_ev h hany (FLAGS_block f) hblock
  refine ⟨by rw [hp], fun e _ => by rw [isOperated, isOperated, hp], fun e _ _ => fbit_of_rd hflags _ _, fun e _ he => ?_, fun a ha =>
    rd_of_ev h hany (block_prot ha.prot) hblock, by rw [hp], ⟨by rw [hp], by rw [hp]⟩, by rw [hp], keeps_of_ev h hfab, keeps_of_ev h hticks,
    keeps_of_ev h htai, hgrows⟩
  rw [fbit_of_rd hflags]
  exact he

theorem elemKept_logEvent (f : Fin 8) (c q : Nat) (e : Word) (s : State) : ElemKept f s (logEvent c q e s) :=
  elemKept_of_ev (ft := ⟨[.log], [.cmd], false⟩) (ev_logEvent (by decide) (by decide) (Ev.refl _ s)) rfl rfl rfl rfl rfl rfl
    (LogGrows.logEvent (.refl s))

theorem elemKept_logN (f : Fin 8) (c q e : Nat) (s : State) : ElemKept f s (logN c q e s) := elemKept_logEvent ..

theorem elemKept_whenS {b : Bool} {g : State → State} (h : ElemKept f s (g s)) : ElemKept f s (whenS b g s) := by
  cases b
  · exact .refl f s
  · exact h

theorem elemKept_forEach {α : Type} {l : List α} {g : α → State → State} (h : ∀ a ∈ l, ∀ y, ElemKept f y (g a y)) (s : State) :
    ElemKept f s (forEach l g s) :=
  forEach_keeps (P := ElemKept f s) (fun a ha y hy => hy.trans (h a ha y)) (.refl f s)

theorem elemKept_recTrigNow (f : Fin 8) (src : Fin 11) (s : State) : ElemKept f s (recTrigNow src s) :=
  have hev := recTrigNow_ev (src := src) (foot_self _) (Ev.refl _ s)
  elemKept_of_ev hev rfl rfl rfl rfl rfl rfl (LogGrows.of_ev (.refl s) hev rfl)

/-- A record of a feeder changed beside its elements. -/
theorem elemKept_setFeeder {y : FeederState} (hview : elemView y = elemView s.prot.feeders[f])
    (hop : ∀ e, e ≠ 14 → y.op.testBit e = s.prot.feeders[f].op.testBit e) : ElemKept f s (setFeeder f y s) :=
  ⟨by rw [feeder_setFeeder, hview], fun e he => by rw [isOperated, feeder_setFeeder]; exact hop e he, fun _ _ _ => rfl, fun _ _ h => h,
    fun _ _ => rfl, rfl, ⟨rfl, rfl⟩, rfl, rfl, rfl, rfl, .of_log (.refl s) rfl⟩

/-- The record of another feeder changed. -/
theorem elemKept_setFeeder_ne {h : Fin 8} (hne : f ≠ h) (y : FeederState) : ElemKept f s (setFeeder h y s) := by
  have hsame := feeder_setFeeder_ne hne y s
  exact ⟨by rw [hsame], fun e _ => by rw [isOperated, isOperated, hsame], fun _ _ _ => rfl, fun _ _ h => h,
    fun _ _ => rfl, rfl, ⟨rfl, rfl⟩, rfl, rfl, rfl, rfl, .of_log (.refl s) rfl⟩

theorem elemKept_setFeeder_any (h : Fin 8) {y : FeederState} (hview : elemView y = elemView s.prot.feeders[h])
    (hop : ∀ e, e ≠ 14 → y.op.testBit e = s.prot.feeders[h].op.testBit e) : ElemKept f s (setFeeder h y s) := by
  by_cases hne : f = h
  · subst hne
    exact elemKept_setFeeder hview hop
  · exact elemKept_setFeeder_ne hne y

/-- A register that shows protection's state, other than the flags of the elements. -/
theorem elemKept_setF {b : Nat} (hb : ShownReg b) (hflags : Reg.PROT_FDR_FLAGS f ≠ b) (G : Fld) (v : Nat) (s : State) :
    ElemKept f s (setF s b G v) := by
  have hrd : rd (setF s b G v) (Reg.PROT_FDR_FLAGS f) = rd s (Reg.PROT_FDR_FLAGS f) := rd_setF_ne _ _ _ hflags
  refine ⟨rfl, fun _ _ => rfl, fun e _ _ => fbit_of_rd hrd _ _, fun e _ he => ?_, fun a ha => rd_setF_ne _ _ _ (ha.ne_shown hb), rfl, ⟨rfl, rfl⟩, rfl,
    rfl, rfl, rfl, .of_log (.refl s) rfl⟩
  rw [fbit_of_rd hrd]
  exact he

theorem elemKept_wr {b : Nat} (hb : ShownReg b) (hflags : Reg.PROT_FDR_FLAGS f ≠ b) (v : Word) (s : State) : ElemKept f s (wr s b v) := by
  have hrd : rd (wr s b v) (Reg.PROT_FDR_FLAGS f) = rd s (Reg.PROT_FDR_FLAGS f) := rd_wr_ne _ _ hflags
  refine ⟨rfl, fun _ _ => rfl, fun e _ _ => fbit_of_rd hrd _ _, fun e _ he => ?_, fun a ha => rd_wr_ne _ _ (ha.ne_shown hb), rfl, ⟨rfl, rfl⟩, rfl,
    rfl, rfl, rfl, .of_log (.refl s) rfl⟩
  rw [fbit_of_rd hrd]
  exact he

theorem elemKept_wr64 {b : Nat} (hb : ShownReg b ∧ ShownReg (b + 4)) (hflags : Reg.PROT_FDR_FLAGS f ≠ b ∧ Reg.PROT_FDR_FLAGS f ≠ b + 4)
    (v : BitVec 64) (s : State) : ElemKept f s (wr64 s b v) :=
  (elemKept_wr hb.1 hflags.1 _ s).trans (elemKept_wr hb.2 hflags.2 _ _)

theorem elemKept_setF_STATE (f h : Fin 8) (G : Fld) (v : Nat) (s : State) : ElemKept f s (setF s (Reg.PROT_FDR_STATE h) G v) :=
  elemKept_setF (shown_STATE h) (FLAGS_ne (f := h)).1 G v s

theorem elemKept_setF_STATUS (f : Fin 8) (G : Fld) (v : Nat) (s : State) : ElemKept f s (setF s Reg.PROT_STATUS G v) :=
  elemKept_setF (.inl rfl) (FLAGS_ne (f := 0)).2.1 G v s

theorem elemKept_setF_COUNT (f h : Fin 8) (G : Fld) (v : Nat) (s : State) : ElemKept f s (setF s (Reg.PROT_FDR_COUNT h) G v) :=
  elemKept_setF (shown_COUNT h) (FLAGS_ne (f := h)).2.2.1 G v s

theorem elemKept_setF_LMD (f : Fin 8) (G : Fld) (v : Nat) (s : State) : ElemKept f s (setF s Reg.PROT_LMD_STATE G v) :=
  elemKept_setF (.inr (.inr (.inl rfl))) (by simp only [Reg.PROT_FDR_FLAGS, Reg.PROT_LMD_STATE]; omega) G v s

theorem elemKept_wr64_ONSET (f : Fin 8) (v : BitVec 64) (s : State) : ElemKept f s (wr64 s Reg.PROT_LMD_ONSET v) :=
  elemKept_wr64 ⟨.inr (.inr (.inr (.inl rfl))), .inr (.inr (.inr (.inr (.inl rfl))))⟩
    (by simp only [Reg.PROT_FDR_FLAGS, Reg.PROT_LMD_ONSET]; omega) v s

theorem elemKept_wr64_TIME (f h : Fin 8) (v : BitVec 64) (s : State) : ElemKept f s (wr64 s (Reg.PROT_TRIP_TIME h) v) :=
  elemKept_wr64 (shown_TIME h) (by simp only [Reg.PROT_FDR_FLAGS, Reg.PROT_TRIP_TIME]; omega) v s

/-- A bit of the flags of a feeder that is no element's start. -/
theorem elemKept_setFbit_operated (f h : Fin 8) (i : Nat) (s : State) :
    ElemKept f s (setFbit s (Reg.PROT_FDR_FLAGS h) F.PROT_FDR_FLAGS_operated i true) := by
  refine ⟨rfl, fun _ _ => rfl, fun e _ _ => ?_, fun e he hbit => ?_, fun a ha => rd_setF_ne _ _ _ (ha.ne_shown (shown_FLAGS h)), rfl,
    ⟨rfl, rfl⟩, rfl, rfl, rfl, rfl, .of_log (.refl s) rfl⟩
  · by_cases hf : f = h
    · subst hf
      exact fbit_setFbit_disj _ _ _ _ _ _ _ (by decide)
    · exact fbit_of_rd (rd_setF_ne _ _ _ (by simp only [Reg.PROT_FDR_FLAGS]; omega)) _ _
  · by_cases hf : f = h
    · subst hf
      rw [fbit_setFbit _ _ _ _ _ _ (by decide) (by exact he), hbit]
      simp
    · exact (fbit_of_rd (rd_setF_ne _ _ _ (by simp only [Reg.PROT_FDR_FLAGS]; omega)) _ _).trans hbit

theorem elemKept_setFbit_tc (f h : Fin 8) (b : Bool) (s : State) :
    ElemKept f s (setFbit s (Reg.PROT_FDR_FLAGS h) F.PROT_FDR_FLAGS_started 7 b) := by
  refine ⟨rfl, fun _ _ => rfl, fun e he hne => ?_, fun e _ hbit => ?_, fun a ha => rd_setF_ne _ _ _ (ha.ne_shown (shown_FLAGS h)), rfl,
    ⟨rfl, rfl⟩, rfl, rfl, rfl, rfl, .of_log (.refl s) rfl⟩
  · by_cases hf : f = h
    · subst hf
      rw [isStarted, fbit_setFbit _ _ _ _ _ _ (by decide) (by exact he), if_neg hne, isStarted]
    · exact fbit_of_rd (rd_setF_ne _ _ _ (by simp only [Reg.PROT_FDR_FLAGS]; omega)) _ _
  · by_cases hf : f = h
    · subst hf
      rw [fbit_setFbit_disj _ _ _ _ _ _ _ (by decide), hbit]
    · exact (fbit_of_rd (rd_setF_ne _ _ _ (by simp only [Reg.PROT_FDR_FLAGS]; omega)) _ _).trans hbit

/-- The start of an element of another feeder. -/
theorem elemKept_setFbit_ne {h : Fin 8} (hne : f ≠ h) (G : Fld) (i : Nat) (b : Bool) (s : State) :
    ElemKept f s (setFbit s (Reg.PROT_FDR_FLAGS h) G i b) :=
  elemKept_setF (shown_FLAGS h) (by simp only [Reg.PROT_FDR_FLAGS]; omega) G _ s

/-! ### Trips, breakers and supervision -/

theorem elemKept_refreshLines (f : Fin 8) (s : State) : ElemKept f s (refreshLines s) :=
  have hev := refreshLines_ev (foot_self _) (Ev.refl _ s)
  elemKept_of_ev hev rfl rfl rfl rfl rfl rfl (LogGrows.of_ev (.refl s) hev rfl)

theorem logGrows_blockStages (code mask : Nat) (s : State) : LogGrows s (blockStages code mask s) := by
  rw [blockStages_eq]
  split
  · exact .refl s
  · exact LogGrows.logEvent (.of_log (.refl s) (show (showGates (showPairOff (maskBlocked code mask s))).log = s.log from
      (blockSame_maskBlocked code mask s).log))

theorem elemKept_blockStages (f : Fin 8) (code mask : Nat) (s : State) : ElemKept f s (blockStages code mask s) :=
  have hev := blockStages_ev (code := code) (mask := mask) (foot_self _) (Ev.refl _ s)
  elemKept_of_ev hev rfl rfl rfl rfl rfl rfl (logGrows_blockStages code mask s)

theorem elemKept_setBkr (f h : Fin 8) (n : Nat) (s : State) : ElemKept f s (setBkr h n s) := elemKept_setF_STATE ..

theorem elemKept_setTripCmd (f h : Fin 8) (b : Bool) (s : State) : ElemKept f s (setTripCmd h b s) :=
  (elemKept_setF_STATE f h _ _ s).trans (elemKept_setF_STATUS f _ _ _)

/-- The record of a feeder changed outside its elements. -/
theorem elemKept_record (f h : Fin 8) {y : FeederState} (hview : elemView y = elemView s.prot.feeders[h])
    (hop : y.op = s.prot.feeders[h].op) : ElemKept f s (setFeeder h y s) :=
  elemKept_setFeeder_any h hview fun e _ => by rw [hop]

theorem elemKept_issueTrip (f h : Fin 8) (mask : Nat) (s : State) : ElemKept f s (issueTrip h mask s) := by
  unfold issueTrip
  dsimp only
  have h1 : ElemKept f s (whenS (fbit s Reg.REC_TRIG_FDR F.REC_TRIG_FDR_trip h) (recTrigNow srcTrip) s) :=
    elemKept_whenS (elemKept_recTrigNow f srcTrip s)
  generalize whenS (fbit s Reg.REC_TRIG_FDR F.REC_TRIG_FDR_trip h) (recTrigNow srcTrip) s = x at h1 ⊢
  have h2 := h1.trans (elemKept_setTripCmd f h true x)
  generalize setTripCmd h true x = y at h2 ⊢
  have h3 := h2.trans (elemKept_wr64_TIME f h (now y) y)
  generalize wr64 y (Reg.PROT_TRIP_TIME h) (now y) = z at h3 ⊢
  have h4 : ElemKept f s (bumpSat (Reg.PROT_FDR_COUNT h) F.PROT_FDR_COUNT_trip_count z) := h3.trans (elemKept_setF_COUNT ..)
  generalize bumpSat (Reg.PROT_FDR_COUNT h) F.PROT_FDR_COUNT_trip_count z = w at h4 ⊢
  have h5 := h4.trans (elemKept_record f h (y := { w.prot.feeders[h] with latestAt := localNs w }) rfl rfl)
  exact h5.trans (elemKept_logN ..)

/-! ### What the breaker machine leaves of a feeder's trips -/

/-- The elements of a feeder stay, and no trip is issued. -/
structure BkrKept (f : Fin 8) (s t : State) : Prop where
  elem : ElemKept f s t
  count : fld t (Reg.PROT_FDR_COUNT f) F.PROT_FDR_COUNT_trip_count = fld s (Reg.PROT_FDR_COUNT f) F.PROT_FDR_COUNT_trip_count
  time : rd64 t (Reg.PROT_TRIP_TIME f) = rd64 s (Reg.PROT_TRIP_TIME f)
  cmd : tripCmd s f = false → tripCmd t f = false

theorem BkrKept.refl (f : Fin 8) (s : State) : BkrKept f s s := ⟨.refl f s, rfl, rfl, fun h => h⟩

theorem BkrKept.trans (h : BkrKept f s x) (h' : BkrKept f x t) : BkrKept f s t :=
  ⟨h.elem.trans h'.elem, h'.count.trans h.count, h'.time.trans h.time, fun hc => h'.cmd (h.cmd hc)⟩

/-- A step that writes none of the registers of the trips. -/
theorem bkrKept_of_elem (h : ElemKept f s t) (hcount : rd t (Reg.PROT_FDR_COUNT f) = rd s (Reg.PROT_FDR_COUNT f))
    (htime : rd t (Reg.PROT_TRIP_TIME f) = rd s (Reg.PROT_TRIP_TIME f) ∧ rd t (Reg.PROT_TRIP_TIME f + 4) = rd s (Reg.PROT_TRIP_TIME f + 4))
    (hcmd : tripCmd s f = false → tripCmd t f = false) : BkrKept f s t :=
  ⟨h, fld_of_rd hcount _, rd64_of_rd htime.1 htime.2, hcmd⟩

theorem bkrKept_of_prot (h : ElemKept f s t) (hrd : ∀ a, 0x40080000 ≤ a → a < 0x40082000 → rd t a = rd s a) : BkrKept f s t := by
  refine bkrKept_of_elem h (hrd _ ?_ ?_) ⟨hrd _ ?_ ?_, hrd _ ?_ ?_⟩ fun hc => (flg_of_rd (hrd _ ?_ ?_) _).trans hc <;>
  · simp only [Reg.PROT_FDR_COUNT, Reg.PROT_TRIP_TIME, Reg.PROT_FDR_STATE]
    omega

theorem bkrKept_of_ev {ft : Foot} (h : Ev ft s t) (helem : ElemKept f s t) (hany : ft.anyReg = false)
    (hblock : ft.blocks.contains .prot = false) : BkrKept f s t :=
  bkrKept_of_prot helem fun _ h1 h2 => rd_of_ev h hany (block_prot ⟨h1, h2⟩) hblock

theorem bkrKept_logEvent (f : Fin 8) (c q : Nat) (e : Word) (s : State) : BkrKept f s (logEvent c q e s) :=
  bkrKept_of_ev (ft := ⟨[.log], [.cmd], false⟩) (ev_logEvent (by decide) (by decide) (Ev.refl _ s)) (elemKept_logEvent ..) rfl rfl

theorem bkrKept_logN (f : Fin 8) (c q e : Nat) (s : State) : BkrKept f s (logN c q e s) := bkrKept_logEvent ..

theorem bkrKept_whenS {b : Bool} {g : State → State} (h : BkrKept f s (g s)) : BkrKept f s (whenS b g s) := by
  cases b
  · exact .refl f s
  · exact h

theorem bkrKept_record (f h : Fin 8) {y : FeederState} (hview : elemView y = elemView s.prot.feeders[h])
    (hop : y.op = s.prot.feeders[h].op) : BkrKept f s (setFeeder h y s) :=
  bkrKept_of_prot (elemKept_record f h hview hop) fun _ _ _ => rfl

theorem bkrKept_setF_STATE (f h : Fin 8) {G : Fld} (hG : Apart G F.PROT_FDR_STATE_trip_cmd) (v : Nat) (s : State) :
    BkrKept f s (setF s (Reg.PROT_FDR_STATE h) G v) := by
  refine bkrKept_of_elem (elemKept_setF_STATE ..) (rd_setF_ne _ _ _ ?_) ⟨rd_setF_ne _ _ _ ?_, rd_setF_ne _ _ _ ?_⟩ fun hc => ?_
  · simp only [Reg.PROT_FDR_COUNT, Reg.PROT_FDR_STATE]
    omega
  · simp only [Reg.PROT_TRIP_TIME, Reg.PROT_FDR_STATE]
    omega
  · simp only [Reg.PROT_TRIP_TIME, Reg.PROT_FDR_STATE]
    omega
  · by_cases hf : f = h
    · subst hf
      exact (flg_setF_disj _ _ _ _ _ hG).trans hc
    · exact (flg_of_rd (rd_setF_ne _ _ _ (by simp only [Reg.PROT_FDR_STATE]; omega)) _).trans hc

/-- A register of protection that belongs to no trip. -/
theorem bkrKept_setF_other (f : Fin 8) {b : Nat} {G : Fld} {v : Nat} (h : ElemKept f s (setF s b G v))
    (hne : b = Reg.PROT_STATUS ∨ b = Reg.PROT_LMD_STATE ∨ (Reg.PROT_FDR_CFG 0 ≤ b ∧ b % 256 = 12)) : BkrKept f s (setF s b G v) := by
  simp only [Reg.PROT_STATUS, Reg.PROT_LMD_STATE, Reg.PROT_FDR_CFG] at hne
  refine bkrKept_of_elem h (rd_setF_ne _ _ _ ?_) ⟨rd_setF_ne _ _ _ ?_, rd_setF_ne _ _ _ ?_⟩ fun hc =>
    (flg_of_rd (rd_setF_ne _ _ _ ?_) _).trans hc <;>
  · simp only [Reg.PROT_FDR_COUNT, Reg.PROT_TRIP_TIME, Reg.PROT_FDR_STATE]
    omega

theorem bkrKept_setBkr (f h : Fin 8) (n : Nat) (s : State) : BkrKept f s (setBkr h n s) := bkrKept_setF_STATE f h (by decide) n s

theorem bkrKept_setFbit_STATUS (f : Fin 8) (G : Fld) (i : Nat) (b : Bool) (s : State) : BkrKept f s (setFbit s Reg.PROT_STATUS G i b) :=
  bkrKept_setF_other f (elemKept_setF_STATUS ..) (.inl rfl)

theorem flags_mod (h : Fin 8) : Reg.PROT_FDR_CFG 0 ≤ Reg.PROT_FDR_FLAGS h ∧ Reg.PROT_FDR_FLAGS h % 256 = 12 := by
  simp only [Reg.PROT_FDR_FLAGS, Reg.PROT_FDR_CFG]
  omega

theorem bkrKept_setFbit_operated (f h : Fin 8) (i : Nat) (s : State) :
    BkrKept f s (setFbit s (Reg.PROT_FDR_FLAGS h) F.PROT_FDR_FLAGS_operated i true) :=
  bkrKept_setF_other f (elemKept_setFbit_operated ..) (.inr (.inr (flags_mod h)))

theorem bkrKept_setFbit_tc (f h : Fin 8) (b : Bool) (s : State) :
    BkrKept f s (setFbit s (Reg.PROT_FDR_FLAGS h) F.PROT_FDR_FLAGS_started 7 b) :=
  bkrKept_setF_other f (elemKept_setFbit_tc ..) (.inr (.inr (flags_mod h)))

theorem bkrKept_endCmd (f h : Fin 8) (s : State) : BkrKept f s (setTripCmd h false s) := by
  refine BkrKept.trans (x := setF s (Reg.PROT_FDR_STATE h) F.PROT_FDR_STATE_trip_cmd 0) ?_ (bkrKept_setFbit_STATUS ..)
  refine bkrKept_of_elem (elemKept_setF_STATE ..) (rd_setF_ne _ _ _ ?_) ⟨rd_setF_ne _ _ _ ?_, rd_setF_ne _ _ _ ?_⟩ fun hc => ?_
  · simp only [Reg.PROT_FDR_COUNT, Reg.PROT_FDR_STATE]
    omega
  · simp only [Reg.PROT_TRIP_TIME, Reg.PROT_FDR_STATE]
    omega
  · simp only [Reg.PROT_TRIP_TIME, Reg.PROT_FDR_STATE]
    omega
  · by_cases hf : f = h
    · subst hf
      exact (flg_setF _ _ _ _ (by decide)).trans (by decide)
    · exact (flg_of_rd (rd_setF_ne _ _ _ (by simp only [Reg.PROT_FDR_STATE]; omega)) _).trans hc

theorem bkrKept_bumpBf (f h : Fin 8) (s : State) : BkrKept f s (bumpSat (Reg.PROT_FDR_COUNT h) F.PROT_FDR_COUNT_bf_count s) := by
  refine ⟨elemKept_setF_COUNT .., ?_, rd64_of_rd (rd_setF_ne _ _ _ ?_) (rd_setF_ne _ _ _ ?_), fun hc => (flg_of_rd (rd_setF_ne _ _ _ ?_) _).trans hc⟩
  · by_cases hf : f = h
    · subst hf
      exact fld_setF_disj _ _ _ _ _ (by decide)
    · exact fld_of_rd (rd_setF_ne _ _ _ (by simp only [Reg.PROT_FDR_COUNT]; omega)) _
  · simp only [Reg.PROT_TRIP_TIME, Reg.PROT_FDR_COUNT]
    omega
  · simp only [Reg.PROT_TRIP_TIME, Reg.PROT_FDR_COUNT]
    omega
  · simp only [Reg.PROT_FDR_STATE, Reg.PROT_FDR_COUNT]
    omega

theorem bkrKept_refreshLines (f : Fin 8) (s : State) : BkrKept f s (refreshLines s) :=
  bkrKept_of_ev (refreshLines_ev (foot_self _) (Ev.refl _ s)) (elemKept_refreshLines f s) rfl rfl

theorem bkrKept_blockStages (f : Fin 8) (code mask : Nat) (s : State) : BkrKept f s (blockStages code mask s) :=
  bkrKept_of_ev (blockStages_ev (code := code) (mask := mask) (foot_self _) (Ev.refl _ s)) (elemKept_blockStages f code mask s) rfl rfl

/-! ### The breaker machine -/

theorem bkrKept_bfOperate (f h : Fin 8) (s : State) : BkrKept f s (bfOperate h s) := by
  unfold bfOperate
  dsimp only
  generalize b2n _ + 2 * b2n _ = arg
  have h2 : BkrKept f s (setFeeder h { s.prot.feeders[h] with bfAt := some (localNs s) } (setBkr h bkrFailed s)) :=
    (bkrKept_setBkr f h bkrFailed s).trans (bkrKept_record f h rfl rfl)
  generalize setFeeder h { s.prot.feeders[h] with bfAt := some (localNs s) } (setBkr h bkrFailed s) = y at h2 ⊢
  have h3 := h2.trans (bkrKept_setFbit_STATUS f F.PROT_STATUS_bf h true y)
  generalize setFbit y Reg.PROT_STATUS F.PROT_STATUS_bf h true = z at h3 ⊢
  have h4 := h3.trans (bkrKept_setFbit_operated f h 13 z)
  generalize setFbit z (Reg.PROT_FDR_FLAGS h) F.PROT_FDR_FLAGS_operated 13 true = w at h4 ⊢
  have h5 := h4.trans (bkrKept_bumpBf f h w)
  generalize bumpSat (Reg.PROT_FDR_COUNT h) F.PROT_FDR_COUNT_bf_count w = v at h5 ⊢
  have h6 := (h5.trans (bkrKept_logN f 0x6005 h arg v)).trans (bkrKept_refreshLines f _)
  generalize refreshLines (logN 0x6005 h arg v) = u at h6 ⊢
  exact h6.trans (bkrKept_blockStages ..)

theorem bkrKept_rowUnknown (f h : Fin 8) (s : State) : BkrKept f s (rowUnknown h s) := by
  unfold rowUnknown
  split
  · exact .refl f s
  · split
    · exact bkrKept_setBkr ..
    · split
      · have h1 := bkrKept_setBkr f h bkrOpen s
        exact h1.trans (bkrKept_record f h rfl rfl)
      · exact .refl f s

theorem bkrKept_rowIssued (f h : Fin 8) (s : State) : BkrKept f s (rowIssued h s) := by
  unfold rowIssued
  dsimp only
  have h1 : BkrKept f s (if bkrState s h = bkrClosed ∨ bkrState s h = bkrUnknown then
      setBkr h bkrTripping (setFeeder h { s.prot.feeders[h] with issueAt := localNs s, retripped := false } s) else s) := by
    split
    · exact (bkrKept_record f h (y := { s.prot.feeders[h] with issueAt := localNs s, retripped := false }) rfl rfl).trans (bkrKept_setBkr ..)
    · exact .refl f s
  generalize (if bkrState s h = bkrClosed ∨ bkrState s h = bkrUnknown then
      setBkr h bkrTripping (setFeeder h { s.prot.feeders[h] with issueAt := localNs s, retripped := false } s) else s) = x at h1 ⊢
  split
  · exact h1.trans (bkrKept_bfOperate ..)
  · exact h1

theorem bkrKept_rowRetrip (f h : Fin 8) (s : State) : BkrKept f s (rowRetrip h s) := by
  unfold rowRetrip
  dsimp only
  split
  · exact (bkrKept_record f h (y := { s.prot.feeders[h] with retripped := true, retripOut := true }) rfl rfl).trans (bkrKept_logN ..)
  · exact .refl f s

theorem bkrKept_rowOpened (f h : Fin 8) (s : State) : BkrKept f s (rowOpened h s) := by
  unfold rowOpened
  dsimp only
  split
  · have h1 : BkrKept f s (setFeeder h { s.prot.feeders[h] with openAt := now s, closedFrom := none } (setBkr h bkrOpen s)) :=
      (bkrKept_setBkr f h bkrOpen s).trans (bkrKept_record f h rfl rfl)
    generalize setFeeder h { s.prot.feeders[h] with openAt := now s, closedFrom := none } (setBkr h bkrOpen s) = x at h1 ⊢
    split
    · exact h1.trans (bkrKept_logN ..)
    · exact h1
  · exact .refl f s

theorem bkrKept_rowFail (f h : Fin 8) (s : State) : BkrKept f s (rowFail h s) := by
  unfold rowFail
  split
  · exact bkrKept_bfOperate f h s
  · exact .refl f s

theorem bkrKept_rowOpenClosed (f h : Fin 8) (s : State) : BkrKept f s (rowOpenClosed h s) := by
  unfold rowOpenClosed
  dsimp only
  generalize interval s.prot.feeders[h].closedFrom (!currentOpen s h) s = q
  have h1 := bkrKept_record f h (s := s) (y := { s.prot.feeders[h] with closedFrom := q }) rfl rfl
  generalize setFeeder h { s.prot.feeders[h] with closedFrom := q } s = x at h1 ⊢
  split
  · exact h1.trans (bkrKept_setBkr ..)
  · split
    · have h2 := h1.trans (bkrKept_record f h (y := { x.prot.feeders[h] with openAt := now x }) rfl rfl)
      generalize setFeeder h { x.prot.feeders[h] with openAt := now x } x = y at h2 ⊢
      exact (h2.trans (bkrKept_setBkr f h bkrOpen y)).trans (bkrKept_logN ..)
    · exact h1

theorem bkrKept_rowDiscrepancy (f h : Fin 8) (s : State) : BkrKept f s (rowDiscrepancy h s) := by
  unfold rowDiscrepancy
  dsimp only
  generalize interval s.prot.feeders[h].againstFrom _ s = q
  have h1 := bkrKept_record f h (s := s) (y := { s.prot.feeders[h] with againstFrom := q }) rfl rfl
  generalize setFeeder h { s.prot.feeders[h] with againstFrom := q } s = x at h1 ⊢
  split
  · exact (h1.trans (bkrKept_setF_STATE f h (by decide) 1 x)).trans (bkrKept_whenS (bkrKept_logN ..))
  · exact h1.trans (bkrKept_whenS (bkrKept_setF_STATE f h (by decide) 0 x))

theorem bkrKept_endCommands (f h : Fin 8) (s : State) : BkrKept f s (endCommands h s) := by
  unfold endCommands
  dsimp only
  have h1 : BkrKept f s (if tripCmd s h ∧ bkrState s h = bkrOpen ∧ s.prot.feeders[h].latestAt + tMin s h ≤ localNs s then
      setTripCmd h false (setFeeder h { s.prot.feeders[h] with retripOut := false } s) else s) := by
    split
    · exact (bkrKept_record f h (y := { s.prot.feeders[h] with retripOut := false }) rfl rfl).trans (bkrKept_endCmd ..)
    · exact .refl f s
  generalize (if tripCmd s h ∧ bkrState s h = bkrOpen ∧ s.prot.feeders[h].latestAt + tMin s h ≤ localNs s then
      setTripCmd h false (setFeeder h { s.prot.feeders[h] with retripOut := false } s) else s) = x at h1 ⊢
  split
  · exact h1
  · split
    · exact (h1.trans (bkrKept_record f h (y := { x.prot.feeders[h] with bfAt := none }) rfl rfl)).trans (bkrKept_refreshLines ..)
    · exact h1

theorem bkrKept_breakerMachine (f h : Fin 8) (issued : Bool) (s : State) : BkrKept f s (breakerMachine h issued s) := by
  unfold breakerMachine
  dsimp only
  have h1 : BkrKept f s (whenS issued (rowIssued h) (rowUnknown h s)) :=
    (bkrKept_rowUnknown f h s).trans (bkrKept_whenS (bkrKept_rowIssued f h _))
  generalize whenS issued (rowIssued h) (rowUnknown h s) = x at h1 ⊢
  have h2 : BkrKept f s (if openConfirmed x h = true then rowOpened h x else rowOpened h (rowFail h (rowRetrip h x))) := by
    split
    · exact h1.trans (bkrKept_rowOpened f h x)
    · exact ((h1.trans (bkrKept_rowRetrip f h x)).trans (bkrKept_rowFail f h _)).trans (bkrKept_rowOpened f h _)
  generalize (if openConfirmed x h = true then rowOpened h x else rowOpened h (rowFail h (rowRetrip h x))) = y at h2 ⊢
  exact ((h2.trans (bkrKept_rowOpenClosed f h y)).trans (bkrKept_rowDiscrepancy f h _)).trans (bkrKept_endCommands f h _)

theorem bkrKept_setTcAlarm (f h : Fin 8) (b : Bool) (s : State) : BkrKept f s (setTcAlarm h b s) := by
  unfold setTcAlarm
  dsimp only
  generalize (if b = true then 0x6008 else 0x6009) = code
  generalize pfld s _ _ = out
  have h1 := bkrKept_setF_STATE f h (s := s) (G := F.PROT_FDR_STATE_tc_alarm) (by decide) (b2n b)
  generalize setF s (Reg.PROT_FDR_STATE h) F.PROT_FDR_STATE_tc_alarm (b2n b) = x at h1 ⊢
  exact (h1.trans (bkrKept_setFbit_tc f h b x)).trans (bkrKept_logN ..)

theorem bkrKept_tcStep (f h : Fin 8) (s : State) : BkrKept f s (tcStep h s) := by
  unfold tcStep
  dsimp only
  generalize localNs s - s.prot.feeders[h].tcLast = dt
  have h1 := bkrKept_record f h (s := s) (y := { s.prot.feeders[h] with tcLast := localNs s }) rfl rfl
  generalize setFeeder h { s.prot.feeders[h] with tcLast := localNs s } s = x at h1 ⊢
  split
  · exact h1
  · split
    · exact h1
    · split
      · exact h1
      · have h2 := h1.trans (bkrKept_record f h
          (y := { x.prot.feeders[h] with tcOpen := x.prot.feeders[h].tcOpen + dt, tcGood := 0 }) rfl rfl)
        exact h2.trans (bkrKept_whenS (bkrKept_setTcAlarm ..))
      · have h2 := h1.trans (bkrKept_record f h
          (y := { x.prot.feeders[h] with tcOpen := 0, tcGood := x.prot.feeders[h].tcGood + dt }) rfl rfl)
        exact h2.trans (bkrKept_whenS (bkrKept_setTcAlarm ..))

end Kept

end Sys2Proof.Machine
end


section
/-! PROOFS. What operates issues its trip (R255 to R259, R271, R276). -/

namespace Sys2Proof.Machine

open Sys2Proof Sys2Proof.Safety Sys2Proof.Laws

section Trip

variable {f : Fin 8} {s x y t : State}

/-! ### Events -/

theorem raises_after {c q : Nat} {e : Word} (hg : LogGrows s x) (h : Raises c q e x t) : Raises c q e s t := by
  obtain ⟨es, hes⟩ := hg
  obtain ⟨fs, hfs, ev, hmem, hev⟩ := h
  exact ⟨es ++ fs, by rw [hfs, hes, List.append_assoc], ev, List.mem_append_right _ hmem, hev⟩

theorem raises_before {c q : Nat} {e : Word} (h : Raises c q e s x) (hg : LogGrows x t) : Raises c q e s t := by
  obtain ⟨es, hes, ev, hmem, hev⟩ := h
  obtain ⟨fs, hfs⟩ := hg
  exact ⟨es ++ fs, by rw [hfs, hes, List.append_assoc], ev, List.mem_append_left _ hmem, hev⟩

theorem raises_logEvent (c q : Nat) (e : Word) (hroom : Room 1 s) : Raises c q e s (logEvent c q e s) :=
  raises_of_grown (logged_logEvent c q e rfl hroom) (.refl _)

/-! ### The operate outputs that rose -/

/-- One operate output noted. -/
def noteOne (f : Fin 8) (e : Nat) (s : State) : State :=
  logN 0x6001 f e (setFbit s (Reg.PROT_FDR_FLAGS f) F.PROT_FDR_FLAGS_operated e true)

theorem noteOperated_eq (f : Fin 8) (mask : Nat) (s : State) : noteOperated f mask s = forEach (setBits mask 16) (noteOne f) s := rfl

theorem bkrKept_noteOne (f h : Fin 8) (e : Nat) (s : State) : BkrKept f s (noteOne h e s) :=
  (bkrKept_setFbit_operated f h e s).trans (bkrKept_logN ..)

theorem bkrKept_forEach {α : Type} {l : List α} {g : α → State → State} (h : ∀ a ∈ l, ∀ y, BkrKept f y (g a y)) (s : State) :
    BkrKept f s (forEach l g s) :=
  forEach_keeps (P := BkrKept f s) (fun a ha y hy => hy.trans (h a ha y)) (.refl f s)

theorem bkrKept_noteOperated (f h : Fin 8) (mask : Nat) (s : State) : BkrKept f s (noteOperated h mask s) :=
  bkrKept_forEach (fun e _ y => bkrKept_noteOne f h e y) s

theorem noteOne_effect (f : Fin 8) {e : Nat} (he : e < 16) {n : Nat} (hroom : Room (n + 1) s) :
    Raises 0x6001 f (BitVec.ofNat 32 e) s (noteOne f e s) ∧ Room n (noteOne f e s) ∧
    fbit (noteOne f e s) (Reg.PROT_FDR_FLAGS f) F.PROT_FDR_FLAGS_operated e = true := by
  unfold noteOne
  have hset : fbit (setFbit s (Reg.PROT_FDR_FLAGS f) F.PROT_FDR_FLAGS_operated e true) (Reg.PROT_FDR_FLAGS f) F.PROT_FDR_FLAGS_operated e = true := by
    rw [fbit_setFbit _ _ _ _ _ _ (by decide) (by exact he), if_pos rfl]
  have hlog : (setFbit s (Reg.PROT_FDR_FLAGS f) F.PROT_FDR_FLAGS_operated e true).log = s.log := rfl
  generalize setFbit s (Reg.PROT_FDR_FLAGS f) F.PROT_FDR_FLAGS_operated e true = x at hset hlog ⊢
  have hlogged := logged_logN 0x6001 f e hlog (by unfold Room at hroom ⊢; omega)
  have hrd : rd (logN 0x6001 f e x) (Reg.PROT_FDR_FLAGS f) = rd x (Reg.PROT_FDR_FLAGS f) :=
    rd_logEvent x _ _ _ (by simp only [Reg.PROT_FDR_FLAGS, Reg.CMD_STATUS]; omega) (by simp only [Reg.PROT_FDR_FLAGS, Reg.CMD_EVT_LOST]; omega)
  exact ⟨raises_of_grown hlogged (.refl _), room_after hlogged hroom, (fbit_of_rd hrd _ _).trans hset⟩

theorem noteList_effect (f : Fin 8) {e : Nat} (he : e < 16) {l : List Nat} (hmem : e ∈ l) (hl : ∀ k ∈ l, k < 16) (hroom : Room l.length s) :
    Raises 0x6001 f (BitVec.ofNat 32 e) s (forEach l (noteOne f) s) ∧
    fbit (forEach l (noteOne f) s) (Reg.PROT_FDR_FLAGS f) F.PROT_FDR_FLAGS_operated e = true := by
  induction l generalizing s with
  | nil => exact absurd hmem (List.not_mem_nil)
  | cons a l ih =>
    obtain ⟨hraise, hroom', hflag⟩ := noteOne_effect f (hl a List.mem_cons_self) hroom
    have hrest := (bkrKept_forEach (f := f) (l := l) (fun k _ y => bkrKept_noteOne f f k y) (noteOne f a s)).elem
    by_cases ha : e = a
    · subst ha
      exact ⟨raises_before hraise hrest.grows, hrest.operated e he hflag⟩
    · obtain ⟨h1, h2⟩ := ih ((List.mem_cons.1 hmem).resolve_left ha) (fun k hk => hl k (List.mem_cons_of_mem _ hk)) hroom'
      exact ⟨raises_after (bkrKept_noteOne f f a s).elem.grows h1, h2⟩

theorem noteOperated_effect (f : Fin 8) {mask e : Nat} (he : e < 16) (hbit : mask.testBit e = true) (hroom : Room 16 s) :
    Raises 0x6001 f (BitVec.ofNat 32 e) s (noteOperated f mask s) ∧
    fbit (noteOperated f mask s) (Reg.PROT_FDR_FLAGS f) F.PROT_FDR_FLAGS_operated e = true := by
  have hlen : (setBits mask 16).length ≤ 16 := (List.length_filter_le ..).trans_eq List.length_range
  refine noteList_effect f he (List.mem_filter.2 ⟨List.mem_range.2 he, hbit⟩) (fun k hk => List.mem_range.1 (List.mem_filter.1 hk).1) ?_
  unfold Room at hroom ⊢
  omega

/-! ### The issue of a trip -/

/-- What an issue does to the registers of its trip (R271). -/
structure TripIssued (f : Fin 8) (s t : State) : Prop where
  time : rd64 t (Reg.PROT_TRIP_TIME f) = now t
  count : fld t (Reg.PROT_FDR_COUNT f) F.PROT_FDR_COUNT_trip_count = min (2 ^ F.PROT_FDR_COUNT_trip_count.w - 1)
    (fld s (Reg.PROT_FDR_COUNT f) F.PROT_FDR_COUNT_trip_count + 1)

theorem TRIP_ne (f : Fin 8) : Reg.PROT_TRIP_TIME f ≠ Reg.PROT_FDR_COUNT f ∧ Reg.PROT_TRIP_TIME f + 4 ≠ Reg.PROT_FDR_COUNT f ∧
    Reg.PROT_FDR_COUNT f ≠ Reg.PROT_TRIP_TIME f ∧ Reg.PROT_FDR_COUNT f ≠ Reg.PROT_TRIP_TIME f + 4 ∧
    Reg.PROT_FDR_COUNT f ≠ Reg.PROT_FDR_STATE f ∧ Reg.PROT_FDR_COUNT f ≠ Reg.PROT_STATUS := by
  simp only [Reg.PROT_TRIP_TIME, Reg.PROT_FDR_COUNT, Reg.PROT_FDR_STATE, Reg.PROT_STATUS]
  omega

theorem rd_recTrigNow (src : Fin 11) (s : State) (a : Nat) : rd (recTrigNow src s) a = rd s a := by
  unfold recTrigNow recTrig
  split <;> rfl

theorem rd_whenS_recTrigNow (b : Bool) (src : Fin 11) (s : State) (a : Nat) : rd (whenS b (recTrigNow src) s) a = rd s a := by
  cases b
  · rfl
  · exact rd_recTrigNow src s a

theorem tripIssued_issueTrip (f : Fin 8) (mask : Nat) (s : State) : TripIssued f s (issueTrip f mask s) := by
  unfold issueTrip
  dsimp only
  obtain ⟨h1, h2, h3, h4, h5, h6⟩ := TRIP_ne f
  have hrec := rd_whenS_recTrigNow (fbit s Reg.REC_TRIG_FDR F.REC_TRIG_FDR_trip f) srcTrip s (Reg.PROT_FDR_COUNT f)
  generalize whenS (fbit s Reg.REC_TRIG_FDR F.REC_TRIG_FDR_trip f) (recTrigNow srcTrip) s = x at hrec ⊢
  have hcmd : rd (setTripCmd f true x) (Reg.PROT_FDR_COUNT f) = rd s (Reg.PROT_FDR_COUNT f) :=
    (rd_setF_ne _ _ _ h6).trans ((rd_setF_ne _ _ _ h5).trans hrec)
  generalize setTripCmd f true x = y at hcmd ⊢
  have htime : rd64 (wr64 y (Reg.PROT_TRIP_TIME f) (now y)) (Reg.PROT_TRIP_TIME f) = now y := rd64_wr64 ..
  have hcount : rd (wr64 y (Reg.PROT_TRIP_TIME f) (now y)) (Reg.PROT_FDR_COUNT f) = rd s (Reg.PROT_FDR_COUNT f) :=
    (rd_wr64_ne _ _ h3 h4).trans hcmd
  have hnow : now (wr64 y (Reg.PROT_TRIP_TIME f) (now y)) = now y := rfl
  generalize wr64 y (Reg.PROT_TRIP_TIME f) (now y) = z at htime hcount hnow ⊢
  have hbump : fld (bumpSat (Reg.PROT_FDR_COUNT f) F.PROT_FDR_COUNT_trip_count z) (Reg.PROT_FDR_COUNT f) F.PROT_FDR_COUNT_trip_count =
      min (2 ^ F.PROT_FDR_COUNT_trip_count.w - 1) (fld s (Reg.PROT_FDR_COUNT f) F.PROT_FDR_COUNT_trip_count + 1) := by
    rw [bumpSat, fld_setF _ _ _ _ (by decide), fld_of_rd hcount]
    exact Nat.mod_eq_of_lt (lt_of_le_of_lt (Nat.min_le_left _ _) (by decide))
  have htime' : rd64 (bumpSat (Reg.PROT_FDR_COUNT f) F.PROT_FDR_COUNT_trip_count z) (Reg.PROT_TRIP_TIME f) = now y :=
    (rd64_of_rd (rd_setF_ne _ _ _ h1) (rd_setF_ne _ _ _ h2)).trans htime
  have hnow' : now (bumpSat (Reg.PROT_FDR_COUNT f) F.PROT_FDR_COUNT_trip_count z) = now y := hnow
  generalize bumpSat (Reg.PROT_FDR_COUNT f) F.PROT_FDR_COUNT_trip_count z = w at hbump htime' hnow' ⊢
  have hrec' := bkrKept_record f f (s := w) (y := { w.prot.feeders[f] with latestAt := localNs w }) rfl rfl
  have hnow'' : now (setFeeder f { w.prot.feeders[f] with latestAt := localNs w } w) = now y := hnow'
  generalize setFeeder f { w.prot.feeders[f] with latestAt := localNs w } w = v at hrec' hnow'' ⊢
  have hlog := bkrKept_logN f 0x6002 f mask v
  refine ⟨hlog.time.trans (hrec'.time.trans (htime'.trans ?_)), hlog.count.trans (hrec'.count.trans hbump)⟩
  exact hnow''.symm.trans (congrArg (fun q : BitVec 66 => q.extractLsb' 2 64) hlog.elem.tai).symm

theorem TripIssued.kept (h : TripIssued f s x) (hk : BkrKept f x t) : TripIssued f s t :=
  ⟨by rw [hk.time, h.time, now, now, hk.elem.tai], hk.count.trans h.count⟩

theorem TripIssued.after (hk : BkrKept f s x) (h : TripIssued f x t) : TripIssued f s t := ⟨h.time, by rw [h.count, hk.count]⟩

/-! ### The second half of an update -/

/-- The trips of an update, its breaker machine and 74TC. -/
def tripsTaken (f : Fin 8) (issue : Bool) (go : Nat) (s : State) : State :=
  tcStep f (breakerMachine f issue (whenS issue (issueTrip f go) s))

theorem feederSecond_eq (hon : feederOn s f = true) : feederSecond f s =
    let y := tripsTaken f (issuing s f (risen s f) != 0 && !feederBlocked (noteOperated f (risen s f) s) f) (issuing s f (risen s f))
      (noteOperated f (risen s f) s)
    setFeeder f { y.prot.feeders[f] with opPrev := y.prot.feeders[f].op } y := if_neg (by rw [hon]; exact Bool.false_ne_true)

theorem elemKept_tripsTaken (h f : Fin 8) (issue : Bool) (go : Nat) (s : State) : ElemKept h s (tripsTaken f issue go s) :=
  ((elemKept_whenS (elemKept_issueTrip h f go s)).trans (bkrKept_breakerMachine h f issue _).elem).trans (bkrKept_tcStep h f _).elem

theorem tripsTaken_issued (f : Fin 8) (go : Nat) (s : State) : TripIssued f s (tripsTaken f true go s) :=
  ((tripIssued_issueTrip f go s).kept (bkrKept_breakerMachine f f true _)).kept (bkrKept_tcStep f f _)

theorem tripsTaken_none (f : Fin 8) (go : Nat) (s : State) : BkrKept f s (tripsTaken f false go s) :=
  (bkrKept_breakerMachine f f false s).trans (bkrKept_tcStep f f _)

theorem elemKept_feederSecond (h f : Fin 8) (s : State) : ElemKept h s (feederSecond f s) := by
  cases hon : feederOn s f
  · have heq : feederSecond f s = s := if_pos (by rw [hon]; rfl)
    rw [heq]
    exact .refl h s
  · rw [feederSecond_eq hon]
    dsimp only
    generalize (issuing s f (risen s f) != 0 && !feederBlocked (noteOperated f (risen s f) s) f) = issue
    have hk := (bkrKept_noteOperated h f (risen s f) s).elem.trans (elemKept_tripsTaken h f issue (issuing s f (risen s f)) _)
    generalize tripsTaken f issue (issuing s f (risen s f)) (noteOperated f (risen s f) s) = y at hk ⊢
    exact hk.trans (elemKept_record h f (y := { y.prot.feeders[f] with opPrev := y.prot.feeders[f].op }) rfl rfl)

theorem feederBlocked_of_settings (h : ElemKept f s x) (g : Nat) : feederBlocked x g = feederBlocked s g :=
  fbit_of_rd (h.settings _ (.inr (.inr (.inl rfl)))) _ _

/-- What the second half of an update does with an operate output that rose. -/
theorem feederSecond_risen (hon : feederOn s f = true) {e : Nat} (he : e < 16) (hbit : (risen s f).testBit e = true)
    (hgo : (issuing s f (risen s f)).testBit e = true) (hroom : Room 16 s) :
    Raises 0x6001 f (BitVec.ofNat 32 e) s (feederSecond f s) ∧
    fbit (feederSecond f s) (Reg.PROT_FDR_FLAGS f) F.PROT_FDR_FLAGS_operated e = true ∧
    (feederBlocked s f = false → TripIssued f s (feederSecond f s)) ∧
    (feederBlocked s f = true → BkrKept f s (feederSecond f s)) := by
  obtain ⟨hraise, hflag⟩ := noteOperated_effect f he hbit hroom
  have hnote := bkrKept_noteOperated f f (risen s f) s
  have hblocked := feederBlocked_of_settings hnote.elem f
  have hne : (issuing s f (risen s f) != 0) = true := by
    rw [bne_iff_ne]
    intro h0
    rw [h0, Nat.zero_testBit] at hgo
    exact Bool.false_ne_true hgo
  rw [feederSecond_eq hon]
  dsimp only
  generalize issuing s f (risen s f) = go at hne ⊢
  generalize noteOperated f (risen s f) s = x at hraise hflag hnote hblocked ⊢
  rw [hne, hblocked, Bool.true_and]
  have hk := elemKept_tripsTaken f f (!feederBlocked s f) go x
  have hissued : feederBlocked s f = false → TripIssued f x (tripsTaken f (!feederBlocked s f) go x) := fun h => by
    rw [h]
    exact tripsTaken_issued f go x
  have hnone : feederBlocked s f = true → BkrKept f x (tripsTaken f (!feederBlocked s f) go x) := fun h => by
    rw [h]
    exact tripsTaken_none f go x
  generalize tripsTaken f (!feederBlocked s f) go x = y at hk hissued hnone ⊢
  have hlast := bkrKept_record f f (s := y) (y := { y.prot.feeders[f] with opPrev := y.prot.feeders[f].op }) rfl rfl
  exact ⟨raises_before hraise (hk.grows.trans hlast.elem.grows), hlast.elem.operated e he (hk.operated e he hflag),
    fun h => .after hnote ((hissued h).kept hlast), fun h => (hnote.trans (hnone h)).trans hlast⟩

end Trip

end Sys2Proof.Machine
end


section
/-! PROOFS. The clauses of the elements between updates (R253, R257 to R259, R264, R265). -/

namespace Sys2Proof.Machine

open Sys2Proof Sys2Proof.Safety Sys2Proof.Laws

section Elem

variable {f : Fin 8} {s x y t : State}

/-! ### An element operates (R255, R259) -/

theorem localNs_le_reachNs (q : BitVec 64) (s : State) : localNs s ≤ localNs (reachNs s q) := by
  simp only [localNs, reachNs, advanceTo]
  omega

/-- What an operate output's rise has to start from. -/
structure StepFrom (f : Fin 8) (e : Nat) (s y : State) : Prop where
  op : y.prot.feeders[f].op.testBit e = true
  opPrev : y.prot.feeders[f].opPrev = s.prot.feeders[f].opPrev
  regs : y.regs = s.regs
  old : y.prot.old = s.prot.old
  log : y.log = s.log

theorem rd_of_regs (h : y.regs = s.regs) (a : Nat) : rd y a = rd s a := by
  unfold rd
  rw [h]

theorem protReg_congr (hregs : y.regs = s.regs) (hold : y.prot.old = s.prot.old) (a : Nat) : protReg y a = protReg s a := by
  unfold protReg
  rw [hold, rd, rd, hregs]

theorem feederOn_of_protReg {g : Nat} (h : ∀ a, protReg y a = protReg s a) : feederOn y g = feederOn s g := by
  unfold feederOn pflg rated iScale resMeas inScale pflg pfld
  rw [h, h]

theorem fastMode_of_protReg {g : Nat} (h : ∀ a, protReg y a = protReg s a) : fastMode y g = fastMode s g := by
  unfold fastMode pflg pfld
  rw [h]

theorem feederBlocked_of_regs {g : Nat} (h : y.regs = s.regs) : feederBlocked y g = feederBlocked s g := by
  unfold feederBlocked fbit fld rd
  rw [h]

theorem risen_testBit (y : State) (f : Fin 8) {e : Nat} (he : e < 16) :
    (risen y f).testBit e = (y.prot.feeders[f].op.testBit e && !y.prot.feeders[f].opPrev.testBit e) := by
  unfold risen
  dsimp only
  rw [BitVec.testBit_toNat, BitVec.getLsbD_and, BitVec.getLsbD_not, BitVec.getLsbD_ofNat, BitVec.getLsbD_ofNat]
  simp [he]

theorem issuing_testBit (y : State) (f : Fin 8) (mask : Nat) {e : Nat} (h : ¬(e = 0 ∧ fastMode y f = true)) :
    (issuing y f mask).testBit e = mask.testBit e := by
  unfold issuing
  split
  next hfast =>
    rw [putBit_testBit, if_neg fun he => h ⟨he, hfast⟩]
  next => rfl

/-- An element that rises operates, is logged and issues its trip. -/
theorem operate_effect {e : Nat} (he : e < 14) (hon : feederOn s f = true) (hfast : ¬(e = 0 ∧ fastMode s f = true))
    (hprev : s.prot.feeders[f].opPrev.testBit e = false) (h : StepFrom f e s y) (hroom : Room 24 s) :
    isOperated (feederSecond f y) f e = true ∧ fbit (feederSecond f y) (Reg.PROT_FDR_FLAGS f) F.PROT_FDR_FLAGS_operated e = true ∧
    Raises 0x6001 f (BitVec.ofNat 32 e) s (feederSecond f y) ∧
    (feederBlocked s f = false → rd64 (feederSecond f y) (Reg.PROT_TRIP_TIME f) = now (feederSecond f y) ∧
      fld (feederSecond f y) (Reg.PROT_FDR_COUNT f) F.PROT_FDR_COUNT_trip_count = min (2 ^ F.PROT_FDR_COUNT_trip_count.w - 1)
        (fld s (Reg.PROT_FDR_COUNT f) F.PROT_FDR_COUNT_trip_count + 1)) ∧
    (feederBlocked s f = true → rd64 (feederSecond f y) (Reg.PROT_TRIP_TIME f) = rd64 s (Reg.PROT_TRIP_TIME f) ∧
      (tripCmd s f = false → tripCmd (feederSecond f y) f = false)) := by
  have hset := protReg_congr h.regs h.old
  have hbit : (risen y f).testBit e = true := by
    rw [risen_testBit y f (by omega), h.op, h.opPrev, hprev]
    rfl
  have hgo : (issuing y f (risen y f)).testBit e = true := by
    rw [issuing_testBit y f _ (by rw [fastMode_of_protReg hset]; exact hfast), hbit]
  obtain ⟨hraise, hflag, hissued, hnone⟩ := feederSecond_risen ((feederOn_of_protReg hset).trans hon) (by omega : e < 16) hbit hgo
    (room_of_log h.log (by unfold Room at hroom ⊢; omega))
  rw [feederBlocked_of_regs h.regs] at hissued hnone
  have hk := elemKept_feederSecond f f y
  refine ⟨(hk.op e (by omega)).trans h.op, hflag, raises_after (.of_log (.refl s) h.log) hraise, fun hb => ⟨(hissued hb).time, ?_⟩, fun hb => ⟨?_, fun hc => ?_⟩⟩
  · rw [(hissued hb).count, fld_of_regs h.regs]
  · rw [(hnone hb).time, rd64_of_rd (rd_of_regs h.regs _) (rd_of_regs h.regs _)]
  · exact (hnone hb).cmd ((flg_of_regs h.regs _ _).trans hc)

theorem setOp_op (f : Fin 8) (e : Nat) (b : Bool) (s : State) : (setOp f e b s).prot.feeders[f] =
    { s.prot.feeders[f] with op := putBit s.prot.feeders[f].op e b } := feeder_setFeeder ..

/-- A step of an element that has run out, its instant noted. -/
def operated (f : Fin 8) (e : Fin 7) (s : State) : State :=
  let x := s.prot.feeders[f]
  let dt := match x.lastUpd with | none => 0 | some u => localNs s - u
  let y := if curveOf s f e = 0 then
      definiteStep f (e.castLE (by omega)) (10000000 * pfld s (Reg.PROT_OC_T f e) F.PROT_OC_T_mult) s
    else idmtStep f e x.lastM[e] dt s
  setFeeder f { y.prot.feeders[f] with lastUpd := some (localNs y) } y

theorem execProtOperate_eq (f : Fin 8) (e : Fin 7) (i : BitVec 64) (s : State) : execProtOperate f e i s =
    if !feederOn (reachNs s i) f ∨ !isStarted (reachNs s i) f e ∨ isOperated (reachNs s i) f e ∨ (e = 0 ∧ fastMode (reachNs s i) f) ∨
      ocHeld (reachNs s i) f e (badPhases (reachNs s i) f) (badResidual (reachNs s i) f) (badBus (reachNs s i)) then .next (reachNs s i)
    else .next (feederSecond f (operated f e (reachNs s i))) := rfl

/-- A state that a passage of time leads to. -/
structure OnlyLater (s x : State) : Prop where
  regs : x.regs = s.regs
  prot : x.prot = s.prot
  log : x.log = s.log
  fab : x.fab = s.fab
  le : localNs s ≤ localNs x

theorem onlyLater_reachNs (q : BitVec 64) (s : State) : OnlyLater s (reachNs s q) := ⟨rfl, rfl, rfl, rfl, localNs_le_reachNs q s⟩

theorem OnlyLater.protReg (h : OnlyLater s x) (a : Nat) : Machine.protReg x a = Machine.protReg s a :=
  protReg_congr h.regs (by rw [h.prot]) a

theorem OnlyLater.residualRouted (h : OnlyLater s x) (g : Nat) : Machine.residualRouted x g = Machine.residualRouted s g := by
  unfold Machine.residualRouted
  rw [h.fab]

theorem OnlyLater.ocHeld (h : OnlyLater s x) (f : Fin 8) (e : Fin 7) :
    Machine.ocHeld x f e (badPhases x f) (badResidual x f) (badBus x) = Machine.ocHeld s f e (badPhases s f) (badResidual s f) (badBus s) := by
  unfold Machine.ocHeld badResidual badPhases badBus resMeas pflg pfld
  rw [h.protReg, h.protReg, h.residualRouted, h.prot]

theorem OnlyLater.started (h : OnlyLater s x) (f e : Nat) : isStarted x f e = isStarted s f e := by
  unfold isStarted fbit fld rd
  rw [h.regs]

theorem stepFrom_definite {e : Fin 7} (hcurve : curveOf s f e = 0) {a : Nat} (hstart : s.prot.feeders[f].startAt[e.val] = some a)
    (hdue : a + 10000000 * pfld s (Reg.PROT_OC_T f e) F.PROT_OC_T_mult ≤ localNs s) : StepFrom f e s (operated f e s) := by
  have heq : definiteStep f (e.castLE (by omega)) (10000000 * pfld s (Reg.PROT_OC_T f e) F.PROT_OC_T_mult) s = setOp f e true s := by
    unfold definiteStep
    rw [show s.prot.feeders[f].startAt[e.castLE (by omega : 7 ≤ 13)] = some a from hstart]
    exact if_pos (decide_eq_true hdue)
  unfold operated
  dsimp only
  rw [if_pos hcurve, heq]
  refine ⟨?_, ?_, rfl, rfl, rfl⟩
  · rw [feeder_setFeeder, setOp_op]
    show (putBit s.prot.feeders[f].op e true).testBit e = true
    rw [putBit_testBit, if_pos rfl]
  · rw [feeder_setFeeder, setOp_op]

/-- The accumulator of a started element that has run out stays run out. -/
theorem idmtStep_runOut {e : Fin 7} (hstarted : isStarted s f e = true) (hacc : 1 ≤ s.prot.feeders[f].acc[e]) (m : Rat) (dt : Nat) :
    ∃ a, idmtStep f e m dt s = setOp f e true (setAcc f e a s) := by
  unfold idmtStep
  dsimp only
  rw [if_pos hstarted]
  have hdt : (0 : Rat) ≤ (dt : Rat) / 1000000000 := div_nonneg (Nat.cast_nonneg dt) (by norm_num)
  split
  · exact ⟨_, if_pos (decide_eq_true hacc)⟩
  next t _ =>
    split
    · exact ⟨_, if_pos (decide_eq_true (hacc.trans (le_add_of_nonneg_right (by norm_num))))⟩
    next hpos =>
      exact ⟨_, if_pos (decide_eq_true (hacc.trans (le_add_of_nonneg_right (div_nonneg hdt (le_of_lt (not_le.1 hpos))))))⟩

theorem setAcc_feeder (f : Fin 8) (e : Fin 7) (a : Rat) (s : State) : (setAcc f e a s).prot.feeders[f] =
    { s.prot.feeders[f] with acc := s.prot.feeders[f].acc.set e a } := feeder_setFeeder ..

theorem stepFrom_idmt {e : Fin 7} (hcurve : curveOf s f e ≠ 0) (hstarted : isStarted s f e = true) (hacc : 1 ≤ s.prot.feeders[f].acc[e]) :
    StepFrom f e s (operated f e s) := by
  unfold operated
  dsimp only
  rw [if_neg hcurve]
  obtain ⟨a, heq⟩ := idmtStep_runOut hstarted hacc s.prot.feeders[f].lastM[e] (match s.prot.feeders[f].lastUpd with | none => 0 | some u => localNs s - u)
  rw [heq]
  refine ⟨?_, ?_, rfl, rfl, rfl⟩
  · rw [feeder_setFeeder, setOp_op]
    show (putBit (setAcc f e a s).prot.feeders[f].op e true).testBit e = true
    rw [putBit_testBit, if_pos rfl]
  · rw [feeder_setFeeder, setOp_op, setAcc_feeder]

theorem curveOf_later (h : OnlyLater s x) (f e : Nat) : curveOf x f e = curveOf s f e := by
  unfold curveOf pfld
  rw [h.protReg]

theorem protOperate_clause (f : Fin 8) (e : Fin 7) (i : BitVec 64) (s : State) (hon : feederOn s f = true) (hstarted : isStarted s f e = true)
    (hop : isOperated s f e = false) (hfast : ¬(e = 0 ∧ fastMode s f = true))
    (hheld : ocHeld s f e (badPhases s f) (badResidual s f) (badBus s) = false) (hprev : (s.prot.feeders[f]).opPrev.testBit e = false)
    (hrun : (curveOf s f e = 0 ∧ ∃ a, (s.prot.feeders[f]).startAt[e.val] = some a ∧
        a + 10000000 * pfld s (Reg.PROT_OC_T f e) F.PROT_OC_T_mult ≤ localNs s) ∨
      (curveOf s f e ≠ 0 ∧ 1 ≤ (s.prot.feeders[f]).acc[e])) (hroom : Room 24 s) :
    ∃ t, exec (.protOperate f e i) s = .next t ∧ isOperated t f e = true ∧
      fbit t (Reg.PROT_FDR_FLAGS f) F.PROT_FDR_FLAGS_operated e = true ∧ Raises 0x6001 f (BitVec.ofNat 32 e) s t ∧
      (feederBlocked s f = false → rd64 t (Reg.PROT_TRIP_TIME f) = now t ∧
        fld t (Reg.PROT_FDR_COUNT f) F.PROT_FDR_COUNT_trip_count = min (2 ^ F.PROT_FDR_COUNT_trip_count.w - 1)
          (fld s (Reg.PROT_FDR_COUNT f) F.PROT_FDR_COUNT_trip_count + 1)) ∧
      (feederBlocked s f = true → rd64 t (Reg.PROT_TRIP_TIME f) = rd64 s (Reg.PROT_TRIP_TIME f) ∧
        (tripCmd s f = false → tripCmd t f = false)) := by
  have hlater := onlyLater_reachNs i s
  refine ⟨feederSecond f (operated f e (reachNs s i)), Eq.trans (b := execProtOperate f e i s) rfl ?_, ?_⟩
  · rw [execProtOperate_eq, if_neg]
    rw [hlater.ocHeld, hheld, hlater.started, hstarted, feederOn_of_protReg hlater.protReg, hon, fastMode_of_protReg hlater.protReg]
    rw [show isOperated (reachNs s i) f e = isOperated s f e by rw [isOperated, isOperated, hlater.prot], hop]
    exact fun h => h.elim nofun fun h => h.elim nofun fun h => h.elim nofun fun h => h.elim hfast nofun
  · generalize reachNs s i = x at hlater ⊢
    have hstep : StepFrom f e x (operated f e x) := by
      obtain ⟨hcurve, a, ha, hdue⟩ | ⟨hcurve, hacc⟩ := hrun
      · refine stepFrom_definite (a := a) ((curveOf_later hlater f e).trans hcurve) (by rw [hlater.prot]; exact ha) ?_
        rw [show pfld x (Reg.PROT_OC_T f e) F.PROT_OC_T_mult = pfld s (Reg.PROT_OC_T f e) F.PROT_OC_T_mult by rw [pfld, pfld, hlater.protReg]]
        exact hdue.trans hlater.le
      · exact stepFrom_idmt (by rw [curveOf_later hlater]; exact hcurve) ((hlater.started f e).trans hstarted) (by rw [hlater.prot]; exact hacc)
    refine operate_effect (by omega) hon (fun h => hfast ⟨Fin.ext h.1, h.2⟩) hprev (y := operated f e x) ⟨hstep.op, ?_, hstep.regs.trans hlater.regs, ?_, hstep.log.trans hlater.log⟩ hroom
    · rw [hstep.opPrev, hlater.prot]
    · rw [hstep.old, hlater.prot]

theorem protOperate_none (f : Fin 8) (e : Fin 7) (i : BitVec 64) (s : State)
    (h : feederOn s f = false ∨ isStarted s f e = false ∨ isOperated s f e = true) : exec (.protOperate f e i) s = .next (reachNs s i) := by
  have hlater := onlyLater_reachNs i s
  refine Eq.trans (b := execProtOperate f e i s) rfl ?_
  rw [execProtOperate_eq, if_pos]
  rw [hlater.started, feederOn_of_protReg hlater.protReg, show isOperated (reachNs s i) f e = isOperated s f e by rw [isOperated, isOperated, hlater.prot]]
  obtain h | h | h := h
  · exact .inl (by rw [h]; rfl)
  · exact .inr (.inl (by rw [h]; rfl))
  · exact .inr (.inr (.inl h))

end Elem

end Sys2Proof.Machine
end


section
/-! PROOFS. Fast 50P, the tracked frequency, the thermal element and the elements 32 (R253, R257, R264, R265). -/

namespace Sys2Proof.Machine

open Sys2Proof Sys2Proof.Safety Sys2Proof.Laws

section Small

variable {f : Fin 8} {s x y t : State}

/-! ### Starts and operate outputs -/

/-- The start of an element set: its flag, and nothing but the instant of the start beside it. -/
structure StartSet (f : Fin 8) (e : Nat) (b : Bool) (s t : State) : Prop where
  flag : isStarted t f e = b
  others : ∀ k, k < 16 → k ≠ e → isStarted t f k = isStarted s f k
  record : ∃ v, t.prot.feeders[f] = { s.prot.feeders[f] with startAt := v }
  feeders : ∀ h : Fin 8, h ≠ f → t.prot.feeders[h] = s.prot.feeders[h]
  windows : t.prot.voltWin = s.prot.voltWin ∧ t.prot.curWin = s.prot.curWin ∧ t.prot.vInvalid = s.prot.vInvalid
  old : t.prot.old = s.prot.old
  regs : ∀ a, a ≠ Reg.PROT_FDR_FLAGS f → rd t a = rd s a
  fab : t.fab = s.fab
  log : t.log = s.log
  ticks : t.ticks = s.ticks
  tai : t.tai = s.tai

theorem recTrigNow_same (src : Fin 11) (s : State) : (recTrigNow src s).prot = s.prot ∧ (recTrigNow src s).regs = s.regs ∧
    (recTrigNow src s).fab = s.fab ∧ (recTrigNow src s).log = s.log ∧ (recTrigNow src s).ticks = s.ticks ∧ (recTrigNow src s).tai = s.tai := by
  unfold recTrigNow recTrig
  split <;> exact ⟨rfl, rfl, rfl, rfl, rfl, rfl⟩

theorem whenS_recTrigNow_same (b : Bool) (src : Fin 11) (s : State) : (whenS b (recTrigNow src) s).prot = s.prot ∧
    (whenS b (recTrigNow src) s).regs = s.regs ∧ (whenS b (recTrigNow src) s).fab = s.fab ∧ (whenS b (recTrigNow src) s).log = s.log ∧
    (whenS b (recTrigNow src) s).ticks = s.ticks ∧ (whenS b (recTrigNow src) s).tai = s.tai := by
  cases b
  · exact ⟨rfl, rfl, rfl, rfl, rfl, rfl⟩
  · exact recTrigNow_same src s

theorem startSet_setStarted (f : Fin 8) (e : Fin 13) (b : Bool) (s : State) : StartSet f e b s (setStarted f e b s) := by
  unfold setStarted
  dsimp only
  obtain ⟨hprot, hregs, hfab, hlog, hticks, htai⟩ := whenS_recTrigNow_same
    (b && !isStarted s f e && fbit s Reg.REC_TRIG_FDR F.REC_TRIG_FDR_start f && fbit s Reg.REC_TRIG_FDR F.REC_TRIG_FDR_codes e) srcStart s
  generalize whenS _ (recTrigNow srcStart) s = x at hprot hregs hfab hlog hticks htai ⊢
  generalize s.prot.feeders[f].startAt.set e _ = v
  have hfeeder := feeder_setFeeder f { s.prot.feeders[f] with startAt := v } x
  have hflags : fld (setFeeder f { s.prot.feeders[f] with startAt := v } x) (Reg.PROT_FDR_FLAGS f) F.PROT_FDR_FLAGS_started =
    fld s (Reg.PROT_FDR_FLAGS f) F.PROT_FDR_FLAGS_started := fld_of_regs hregs _ _
  have hothers : ∀ h : Fin 8, h ≠ f → (setFeeder f { s.prot.feeders[f] with startAt := v } x).prot.feeders[h] = s.prot.feeders[h] := fun h hne => by
    rw [feeder_setFeeder_ne hne, hprot]
  refine ⟨?_, fun k hk hne => ?_, ⟨v, hfeeder⟩, hothers, ⟨?_, ?_, ?_⟩, ?_, fun a ha => ?_, hfab, hlog, hticks, htai⟩
  · rw [isStarted, fbit_setFbit _ _ _ _ _ _ (by decide) (show e.val < 16 by omega), if_pos rfl]
  · rw [isStarted, fbit_setFbit _ _ _ _ _ _ (by decide) hk, if_neg hne]
    exact congrArg (fun n => n.testBit k) hflags
  · exact show x.prot.voltWin = s.prot.voltWin by rw [hprot]
  · exact show x.prot.curWin = s.prot.curWin by rw [hprot]
  · exact show x.prot.vInvalid = s.prot.vInvalid by rw [hprot]
  · exact show x.prot.old = s.prot.old by rw [hprot]
  · exact (rd_setF_ne _ _ _ ha).trans (rd_of_regs hregs a)

/-- The start and the operate output of an element set alike. -/
theorem setOp_setStarted (f : Fin 8) (e : Fin 13) (b c : Bool) (s : State) :
    isStarted (setOp f e c (setStarted f e b s)) f e = b ∧ isOperated (setOp f e c (setStarted f e b s)) f e = c ∧
    elemView (setOp f e c (setStarted f e b s)).prot.feeders[f] = elemView s.prot.feeders[f] ∧
    (setOp f e c (setStarted f e b s)).prot.old = s.prot.old ∧
    (∀ a, a ≠ Reg.PROT_FDR_FLAGS f → rd (setOp f e c (setStarted f e b s)) a = rd s a) ∧
    (setOp f e c (setStarted f e b s)).ticks = s.ticks := by
  have hset := startSet_setStarted f e b s
  obtain ⟨v, hrec⟩ := hset.record
  generalize setStarted f e b s = x at hset hrec ⊢
  have hop := setOp_op f e c x
  refine ⟨hset.flag, ?_, by rw [hop, hrec]; rfl, hset.old, hset.regs, hset.ticks⟩
  rw [isOperated, hop]
  show (putBit x.prot.feeders[f].op e c).testBit e = c
  rw [putBit_testBit, if_pos rfl]

/-! ### Fast 50P (R257) -/

/-- A fast sample that raises the operate output issues its trip at once. -/
def fastIssued (f : Fin 8) (rose : Bool) (s : State) : State :=
  if rose ∧ !feederBlocked s f then breakerMachine f true (issueTrip f 1 s) else s

theorem fastIssued_effect (f : Fin 8) (rose : Bool) (s : State) : ElemKept f s (fastIssued f rose s) ∧
    fld (fastIssued f rose s) (Reg.PROT_FDR_COUNT f) F.PROT_FDR_COUNT_trip_count = (if rose && !feederBlocked s f then
      min (2 ^ F.PROT_FDR_COUNT_trip_count.w - 1) (fld s (Reg.PROT_FDR_COUNT f) F.PROT_FDR_COUNT_trip_count + 1)
      else fld s (Reg.PROT_FDR_COUNT f) F.PROT_FDR_COUNT_trip_count) := by
  unfold fastIssued
  by_cases h : rose = true ∧ (!feederBlocked s f) = true
  · rw [if_pos h, if_pos (by rw [h.1, h.2]; rfl)]
    have hissued := (tripIssued_issueTrip f 1 s).kept (bkrKept_breakerMachine f f true (issueTrip f 1 s))
    exact ⟨(elemKept_issueTrip f f 1 s).trans (bkrKept_breakerMachine f f true _).elem, hissued.count⟩
  · rw [if_neg h, if_neg (by rwa [Bool.and_eq_true])]
    exact ⟨.refl f s, rfl⟩

theorem feederBlocked_of_rd {g : Nat} (h : rd x Reg.PROT_BLOCK = rd s Reg.PROT_BLOCK) : feederBlocked x g = feederBlocked s g :=
  fbit_of_rd h _ _

/-- A fast sample's counts of a feeder. -/
def fastCounted (f : Fin 8) (p : Fin 3) (na nb : Nat) (ops : Vector Bool 3) (s : State) : State :=
  setFeeder f { s.prot.feeders[f] with
    fastAbove := s.prot.feeders[f].fastAbove.set p na, fastBelow := s.prot.feeders[f].fastBelow.set p nb, fastOp := ops } s

/-- A fast sample taken. -/
def fastTaken (f : Fin 8) (p : Fin 3) (na nb : Nat) (ops : Vector Bool 3) (s : State) : State :=
  let y := fastCounted f p na nb ops s
  fastIssued f (ops.toList.any id && !isOperated y f 0) (setOp f 0 (ops.toList.any id) (setStarted f 0 (ops.toList.any id) y))

theorem fastTaken_effect (f : Fin 8) (p : Fin 3) (na nb : Nat) (ops : Vector Bool 3) (s : State) :
    ((fastTaken f p na nb ops s).prot.feeders[f]).fastAbove[p] = na ∧ ((fastTaken f p na nb ops s).prot.feeders[f]).fastBelow[p] = nb ∧
    ((fastTaken f p na nb ops s).prot.feeders[f]).fastOp = ops ∧ isOperated (fastTaken f p na nb ops s) f 0 = ops.toList.any id ∧
    isStarted (fastTaken f p na nb ops s) f 0 = ops.toList.any id ∧
    fld (fastTaken f p na nb ops s) (Reg.PROT_FDR_COUNT f) F.PROT_FDR_COUNT_trip_count =
      (if ops.toList.any id && !isOperated s f 0 && !feederBlocked s f then
        min (2 ^ F.PROT_FDR_COUNT_trip_count.w - 1) (fld s (Reg.PROT_FDR_COUNT f) F.PROT_FDR_COUNT_trip_count + 1)
        else fld s (Reg.PROT_FDR_COUNT f) F.PROT_FDR_COUNT_trip_count) := by
  unfold fastTaken
  dsimp only
  have hcount : (fastCounted f p na nb ops s).prot.feeders[f] = _ := feeder_setFeeder ..
  have hop : isOperated (fastCounted f p na nb ops s) f 0 = isOperated s f 0 := by rw [isOperated, hcount, isOperated]
  have hrd : ∀ a, rd (fastCounted f p na nb ops s) a = rd s a := fun _ => rfl
  have hview : elemView (fastCounted f p na nb ops s).prot.feeders[f] = { elemView s.prot.feeders[f] with
      fastAbove := s.prot.feeders[f].fastAbove.set p na, fastBelow := s.prot.feeders[f].fastBelow.set p nb, fastOp := ops } := by
    rw [hcount]
    rfl
  rw [hop]
  generalize fastCounted f p na nb ops s = y at hrd hview ⊢
  generalize ops.toList.any id = any
  obtain ⟨hst, hop', hview', -, hrd', -⟩ := setOp_setStarted f 0 any any y
  have hcnt : rd (setOp f 0 any (setStarted f 0 any y)) (Reg.PROT_FDR_COUNT f) = rd s (Reg.PROT_FDR_COUNT f) :=
    (hrd' _ (by simp only [Reg.PROT_FDR_COUNT, Reg.PROT_FDR_FLAGS]; omega)).trans (hrd _)
  have hblk : feederBlocked (setOp f 0 any (setStarted f 0 any y)) f = feederBlocked s f :=
    feederBlocked_of_rd ((hrd' _ (by simp only [Reg.PROT_BLOCK, Reg.PROT_FDR_FLAGS]; omega)).trans (hrd _))
  have hview'' : elemView (setOp f 0 any (setStarted f 0 any y)).prot.feeders[f] = _ := hview'.trans hview
  have hst' : isStarted (setOp f 0 any (setStarted f 0 any y)) f 0 = any := hst
  have hop'' : isOperated (setOp f 0 any (setStarted f 0 any y)) f 0 = any := hop'
  generalize setOp f 0 any (setStarted f 0 any y) = z at hcnt hblk hview'' hst' hop'' ⊢
  obtain ⟨hk, hc⟩ := fastIssued_effect f (any && !isOperated s f 0) z
  have hv := hk.view.trans hview''
  refine ⟨?_, ?_, congrArg ElemView.fastOp hv, (hk.op 0 (by decide)).trans hop'', (hk.started 0 (by decide) (by decide)).trans hst', ?_⟩
  · exact (congrArg (fun v : ElemView => v.fastAbove[p]) hv).trans (Vector.getElem_set_self ..)
  · exact (congrArg (fun v : ElemView => v.fastBelow[p]) hv).trans (Vector.getElem_set_self ..)
  · rw [hc, hblk, fld_of_rd hcnt]

theorem fast50p_on (f : Fin 8) (p : Fin 3) (q : BitVec 16) (usable : Bool) (s : State) (hon : feederOn s f = true) (hfast : fastMode s f = true) :
    let x := s.prot.feeders[f]
    let n := pfld s (Reg.PROT_OC f 0) F.PROT_OC_fast_n + 1
    let i : Rat := q15Rat q.toInt * iScale s f / rated s f
    let pk : Rat := (pfld s (Reg.PROT_OC f 0) F.PROT_OC_pickup : Rat) / 100
    let na := if usable = true ∧ 2 * pk * pk < i * i then x.fastAbove[p] + 1 else 0
    let nb := if usable = true ∧ i * i < 2 * (19 / 20 * pk) * (19 / 20 * pk) then x.fastBelow[p] + 1 else 0
    let ops := x.fastOp.set p (if x.fastOp[p] then decide (nb < n) else decide (n ≤ na))
    exec (.fast50p f p q usable) s = .next (fastTaken f p na nb ops s) := by
  intro x n i pk na nb ops
  have hna : (if (usable && decide (2 * pk * pk < i * i)) = true then x.fastAbove[p] + 1 else 0) = na := by
    simp only [Bool.and_eq_true, decide_eq_true_eq, na]
  have hnb : (if (usable && decide (i * i < 2 * (19 / 20 * pk) * (19 / 20 * pk))) = true then x.fastBelow[p] + 1 else 0) = nb := by
    simp only [Bool.and_eq_true, decide_eq_true_eq, nb]
  have hexec : execFast50p f p q usable s = if !feederOn s f ∨ !fastMode s f then .next s else
      let na := if (usable && decide (2 * pk * pk < i * i)) = true then x.fastAbove[p] + 1 else 0
      let nb := if (usable && decide (i * i < 2 * (19 / 20 * pk) * (19 / 20 * pk))) = true then x.fastBelow[p] + 1 else 0
      let ops := x.fastOp.set p (if x.fastOp[p] then decide (nb < n) else decide (n ≤ na))
      let z := setOp f 0 (ops.toList.any id) (setStarted f 0 (ops.toList.any id) (fastCounted f p na nb ops s))
      if (ops.toList.any id && !isOperated (fastCounted f p na nb ops s) f 0) ∧ !feederBlocked z f then
        .next (breakerMachine f true (issueTrip f 1 z)) else .next z := rfl
  refine Eq.trans (b := execFast50p f p q usable s) rfl ?_
  rw [hexec, hna, hnb, if_neg (by rw [hon, hfast]; exact fun h => h.elim nofun nofun)]
  exact (apply_ite Host.Outcome.next _ _ _).symm

/-! ### The tracked frequency (R253) -/

/-- The hold of f_tr shown. -/
def holdShown (b : Bool) (s : State) : State := setF s Reg.PROT_FREQ F.PROT_FREQ_hold (b2n b)

theorem holdShown_effect (b : Bool) (s : State) : flg (holdShown b s) Reg.PROT_FREQ F.PROT_FREQ_hold = b ∧
    fld (holdShown b s) Reg.PROT_FREQ F.PROT_FREQ_f = fld s Reg.PROT_FREQ F.PROT_FREQ_f ∧ OnlyRegs [Reg.PROT_FREQ] s (holdShown b s) := by
  refine ⟨(flg_setF _ _ _ _ (by decide)).trans ?_, fld_setF_disj _ _ _ _ _ (by decide), fun a ha => rd_setF_ne _ _ _ fun e => ha (e ▸ List.mem_cons_self)⟩
  cases b <;> decide

/-- A frequency shown. -/
def freqShown (v : Nat) (s : State) : State := setF s Reg.PROT_FREQ F.PROT_FREQ_f v

theorem freqShown_effect (v : Nat) (s : State) : fld (freqShown v s) Reg.PROT_FREQ F.PROT_FREQ_f = v % 2 ^ 16 ∧
    flg (freqShown v s) Reg.PROT_FREQ F.PROT_FREQ_hold = flg s Reg.PROT_FREQ F.PROT_FREQ_hold ∧ OnlyRegs [Reg.PROT_FREQ] s (freqShown v s) :=
  ⟨fld_setF _ _ _ _ (by decide), flg_setF_disj _ _ _ _ _ (by decide), fun a ha => rd_setF_ne _ _ _ fun e => ha (e ▸ List.mem_cons_self)⟩

/-- The state whose frequency is tracked. -/
def freqTracked (s : State) : State := { s with prot := { s.prot with tracked := true } }

theorem execFreqTrack_eq (q : BitVec 16) (s : State) : execFreqTrack q s =
    let y := holdShown (badBus s || decide (v1Sq s < 1 / 100)) (if 1 / 100 < v1Sq s ∧ (!badBus s) = true then freqTracked s else s)
    if !y.prot.tracked then
      .next (freqShown (if stageKind y 0 == kindGridForming && flg y (Reg.GFM_CFG 0) F.GFM_CFG_f60 then 60000 else 50000) y)
    else if badBus s || decide (v1Sq s < 1 / 100) then .next y
    else .next (freqShown (max 45000 (min 65000 q.toNat)) y) := rfl

theorem freqTrack_follows (q : BitVec 16) (s : State) (hv : 1 / 100 < v1Sq s) (hb : badBus s = false) :
    execFreqTrack q s = .next (freqShown (max 45000 (min 65000 q.toNat)) (holdShown false (freqTracked s))) := by
  have hlow : decide (v1Sq s < 1 / 100) = false := decide_eq_false (not_lt.2 hv.le)
  rw [execFreqTrack_eq, if_pos (show 1 / 100 < v1Sq s ∧ (!badBus s) = true from ⟨hv, by rw [hb]; rfl⟩), hlow, hb]
  rfl

theorem freqTrack_holds (q : BitVec 16) (s : State) (h : v1Sq s < 1 / 100 ∨ badBus s = true) :
    execFreqTrack q s = if !s.prot.tracked then
      .next (freqShown (if stageKind (holdShown true s) 0 == kindGridForming && flg (holdShown true s) (Reg.GFM_CFG 0) F.GFM_CFG_f60 then 60000
        else 50000) (holdShown true s))
      else .next (holdShown true s) := by
  have hhold : (badBus s || decide (v1Sq s < 1 / 100)) = true := by
    obtain h | h := h
    · rw [decide_eq_true h, Bool.or_true]
    · rw [h, Bool.true_or]
  have hnot : ¬(1 / 100 < v1Sq s ∧ (!badBus s) = true) := fun hc => by
    obtain h | h := h
    · exact absurd hc.1 (not_lt.2 h.le)
    · rw [h] at hc
      exact Bool.false_ne_true hc.2
  rw [execFreqTrack_eq, hhold, if_neg hnot]
  rfl

theorem onlyRegs_trans {l : List Nat} (h : OnlyRegs l s x) (h' : OnlyRegs l x t) : OnlyRegs l s t := fun a ha => (h' a ha).trans (h a ha)

theorem freqTrack_clause (q : BitVec 16) (s : State) : ∃ t, exec (.freqTrack q) s = .next t ∧ t.log = s.log ∧ OnlyRegs [Reg.PROT_FREQ] s t ∧
    (1 / 100 < v1Sq s → badBus s = false → flg t Reg.PROT_FREQ F.PROT_FREQ_hold = false ∧ t.prot.tracked = true ∧
      fld t Reg.PROT_FREQ F.PROT_FREQ_f = max 45000 (min 65000 q.toNat)) ∧
    (v1Sq s < 1 / 100 ∨ badBus s = true → flg t Reg.PROT_FREQ F.PROT_FREQ_hold = true ∧ t.prot = s.prot ∧
      (s.prot.tracked = true → fld t Reg.PROT_FREQ F.PROT_FREQ_f = fld s Reg.PROT_FREQ F.PROT_FREQ_f)) := by
  have hexec : exec (.freqTrack q) s = execFreqTrack q s := rfl
  rw [hexec]
  by_cases hfol : 1 / 100 < v1Sq s ∧ badBus s = false
  · obtain ⟨hhold, -, hregs⟩ := holdShown_effect false (freqTracked s)
    obtain ⟨hf, hkeep, hregs'⟩ := freqShown_effect (max 45000 (min 65000 q.toNat)) (holdShown false (freqTracked s))
    refine ⟨_, freqTrack_follows q s hfol.1 hfol.2, rfl, onlyRegs_trans hregs hregs', fun _ _ => ⟨hkeep.trans hhold, rfl, hf.trans ?_⟩, fun h => ?_⟩
    · exact Nat.mod_eq_of_lt (by omega)
    · obtain h | h := h
      · exact absurd hfol.1 (not_lt.2 h.le)
      · exact absurd (h.symm.trans hfol.2) Bool.false_ne_true.symm
  · by_cases hhold : v1Sq s < 1 / 100 ∨ badBus s = true
    · obtain ⟨h1, h2, hregs⟩ := holdShown_effect true s
      rw [freqTrack_holds q s hhold]
      cases htr : s.prot.tracked
      · generalize (if stageKind (holdShown true s) 0 == kindGridForming && flg (holdShown true s) (Reg.GFM_CFG 0) F.GFM_CFG_f60 then 60000
          else 50000) = v
        obtain ⟨-, hkeep, hregs'⟩ := freqShown_effect v (holdShown true s)
        exact ⟨_, rfl, rfl, onlyRegs_trans hregs hregs', fun hv hb => absurd ⟨hv, hb⟩ hfol, fun _ => ⟨hkeep.trans h1, rfl, nofun⟩⟩
      · exact ⟨_, rfl, rfl, hregs, fun hv hb => absurd ⟨hv, hb⟩ hfol, fun _ => ⟨h1, rfl, fun _ => h2⟩⟩
    · have hedge : v1Sq s = 1 / 100 ∧ badBus s = false := by
        have hb : badBus s = false := by
          cases h : badBus s
          · rfl
          · exact absurd (.inr h) hhold
        exact ⟨le_antisymm (not_lt.1 fun h => hfol ⟨h, hb⟩) (not_lt.1 fun h => hhold (.inl h)), hb⟩
      have hnone : ∀ t, (1 / 100 < v1Sq s → badBus s = false → flg t Reg.PROT_FREQ F.PROT_FREQ_hold = false ∧ t.prot.tracked = true ∧
          fld t Reg.PROT_FREQ F.PROT_FREQ_f = max 45000 (min 65000 q.toNat)) ∧
        (v1Sq s < 1 / 100 ∨ badBus s = true → flg t Reg.PROT_FREQ F.PROT_FREQ_hold = true ∧ t.prot = s.prot ∧
          (s.prot.tracked = true → fld t Reg.PROT_FREQ F.PROT_FREQ_f = fld s Reg.PROT_FREQ F.PROT_FREQ_f)) := fun t =>
        ⟨fun hv hb => absurd ⟨hv, hb⟩ hfol, fun h => absurd h hhold⟩
      obtain ⟨-, -, hregs⟩ := holdShown_effect (badBus s || decide (v1Sq s < 1 / 100)) s
      have hnot : ¬(1 / 100 < v1Sq s ∧ (!badBus s) = true) := fun hc => hfol ⟨hc.1, hedge.2⟩
      rw [execFreqTrack_eq, if_neg hnot]
      dsimp only
      generalize (badBus s || decide (v1Sq s < 1 / 100)) = b at hregs ⊢
      split
      · generalize (if stageKind (holdShown b s) 0 == kindGridForming && flg (holdShown b s) (Reg.GFM_CFG 0) F.GFM_CFG_f60 then 60000
          else 50000) = v
        exact ⟨_, rfl, rfl, onlyRegs_trans hregs (freqShown_effect v _).2.2, hnone _⟩
      · split
        · exact ⟨_, rfl, rfl, hregs, hnone _⟩
        · exact ⟨_, rfl, rfl, onlyRegs_trans hregs (freqShown_effect _ _).2.2, hnone _⟩

/-! ### The thermal element (R264) -/

theorem onlyLater_reachLocal (q : Nat) (s : State) : OnlyLater s (reachLocal q s) :=
  ⟨rfl, rfl, rfl, rfl, by simp only [localNs, reachLocal, reachTick]; omega⟩

/-- Local time reaches an interval after an instant, where there was one. -/
def reachAfter (n : Nat) (last : Option Nat) (s : State) : State :=
  match last with
  | none => s
  | some t => reachLocal (t + n) s

theorem reachAfter_effect (n : Nat) (last : Option Nat) (s : State) : OnlyLater s (reachAfter n last s) ∧
    ∀ b, last = some b → b + n ≤ localNs (reachAfter n last s) := by
  cases last with
  | none => exact ⟨⟨rfl, rfl, rfl, rfl, Nat.le_refl _⟩, nofun⟩
  | some t =>
    refine ⟨onlyLater_reachLocal _ s, fun b hb => ?_⟩
    obtain rfl : t = b := Option.some.inj hb
    exact localNs_reachLocal _ s

theorem reachThermal_eq (f : Fin 8) (s : State) : reachThermal f s =
    let x := reachAfter 10000000 s.prot.feeders[f].thermAt s
    setFeeder f { x.prot.feeders[f] with thermAt := some (localNs x) } x := rfl

/-- A state at the instant of the next update of 49. -/
structure ThermalReached (f : Fin 8) (s x : State) : Prop where
  regs : x.regs = s.regs
  old : x.prot.old = s.prot.old
  record : ∃ q, x.prot.feeders[f] = { s.prot.feeders[f] with thermAt := q }
  due : ∀ b, s.prot.feeders[f].thermAt = some b → b + 10000000 ≤ localNs x

theorem thermalReached (f : Fin 8) (s : State) : ThermalReached f s (reachThermal f s) := by
  rw [reachThermal_eq]
  obtain ⟨hlater, hdue⟩ := reachAfter_effect 10000000 s.prot.feeders[f].thermAt s
  generalize reachAfter 10000000 s.prot.feeders[f].thermAt s = x at hlater hdue ⊢
  have hset := feeder_setFeeder f { x.prot.feeders[f] with thermAt := some (localNs x) } x
  dsimp only
  exact ⟨hlater.regs, show x.prot.old = s.prot.old by rw [hlater.prot], ⟨some (localNs x), hset.trans (by rw [hlater.prot])⟩, hdue⟩

theorem ThermalReached.protReg (h : ThermalReached f s x) (a : Nat) : Machine.protReg x a = Machine.protReg s a := protReg_congr h.regs h.old a

/-- θ shown, and the alarm with it. -/
theorem thermAlarm_effect (f : Fin 8) (s : State) : ElemKept f s (thermAlarm f s) ∧
    fld (thermAlarm f s) (Reg.PROT_THERM_STATE f) F.PROT_THERM_STATE_theta = min 65535 ((s.prot.feeders[f]).theta * 10000).floor.toNat := by
  unfold thermAlarm
  dsimp only
  generalize (pflg s (Reg.PROT_THERM f) F.PROT_THERM_en && _) = above
  generalize flg s (Reg.PROT_THERM_STATE f) F.PROT_THERM_STATE_alarm = was
  have hkeep : ∀ x : State, Reg.PROT_FDR_FLAGS f ≠ Reg.PROT_THERM_STATE f := fun _ => (FLAGS_ne (f := f)).2.2.2.2.2.2.2.2.2
  have h1 : ElemKept f s (setF s (Reg.PROT_THERM_STATE f) F.PROT_THERM_STATE_alarm (b2n above)) :=
    elemKept_setF (shown_THERM f) (hkeep s) _ _ s
  have hprot : (setF s (Reg.PROT_THERM_STATE f) F.PROT_THERM_STATE_alarm (b2n above)).prot = s.prot := rfl
  generalize setF s (Reg.PROT_THERM_STATE f) F.PROT_THERM_STATE_alarm (b2n above) = x at h1 hprot ⊢
  have h2 : ElemKept f x (showTheta f x) := elemKept_setF (shown_THERM f) (hkeep x) _ _ x
  have hshow : fld (showTheta f x) (Reg.PROT_THERM_STATE f) F.PROT_THERM_STATE_theta = min 65535 ((s.prot.feeders[f]).theta * 10000).floor.toNat := by
    rw [showTheta, fld_setF _ _ _ _ (by decide), hprot]
    exact Nat.mod_eq_of_lt (show _ < 65536 by omega)
  generalize showTheta f x = y at h2 hshow ⊢
  refine ⟨(h1.trans h2).trans (elemKept_whenS (elemKept_logN ..)), ?_⟩
  generalize (above && !was) = b
  cases b
  · exact hshow
  · exact (fld_of_rd (rd_logEvent y _ _ _ (by simp only [Reg.PROT_THERM_STATE, Reg.CMD_STATUS]; omega)
      (by simp only [Reg.PROT_THERM_STATE, Reg.CMD_EVT_LOST]; omega)) _).trans hshow

/-- θ moved, with its alarm and its operate output. -/
def thetaMoved (f : Fin 8) (th : Rat) (s : State) : State :=
  let y := thermAlarm f (setFeeder f { s.prot.feeders[f] with theta := th } s)
  let on := if isOperated y f 8 then decide (19 / 20 ≤ th) else decide (1 ≤ th)
  setOp f 8 on (setStarted f 8 on y)

theorem thetaMoved_effect (f : Fin 8) (th : Rat) (s : State) : ((thetaMoved f th s).prot.feeders[f]).theta = th ∧
    (thetaMoved f th s).ticks = s.ticks ∧
    isOperated (thetaMoved f th s) f 8 = (if isOperated s f 8 then decide (19 / 20 ≤ th) else decide (1 ≤ th)) ∧
    isStarted (thetaMoved f th s) f 8 = isOperated (thetaMoved f th s) f 8 ∧
    fld (thetaMoved f th s) (Reg.PROT_THERM_STATE f) F.PROT_THERM_STATE_theta = min 65535 (th * 10000).floor.toNat := by
  unfold thetaMoved
  dsimp only
  have hset := feeder_setFeeder f { s.prot.feeders[f] with theta := th } s
  have hop : isOperated (setFeeder f { s.prot.feeders[f] with theta := th } s) f 8 = isOperated s f 8 := by rw [isOperated, hset, isOperated]
  have hticks : (setFeeder f { s.prot.feeders[f] with theta := th } s).ticks = s.ticks := rfl
  generalize setFeeder f { s.prot.feeders[f] with theta := th } s = x at hset hop hticks ⊢
  obtain ⟨hk, hshow⟩ := thermAlarm_effect f x
  rw [hset] at hshow
  rw [show isOperated (thermAlarm f x) f 8 = isOperated s f 8 from (hk.op 8 (by decide)).trans hop]
  have hth : elemView (thermAlarm f x).prot.feeders[f] = elemView x.prot.feeders[f] := hk.view
  have htick := hk.ticks
  generalize (if isOperated s f 8 = true then decide (19 / 20 ≤ th) else decide (1 ≤ th)) = on
  generalize thermAlarm f x = y at hshow hth htick ⊢
  obtain ⟨hst, hop', hview, -, hrd, hticks'⟩ := setOp_setStarted f 8 on on y
  refine ⟨(congrArg ElemView.theta (hview.trans hth)).trans (by rw [hset]; rfl), hticks'.trans (htick.trans hticks), hop', hst.trans hop'.symm, ?_⟩
  exact (fld_of_rd (hrd _ (by simp only [Reg.PROT_THERM_STATE, Reg.PROT_FDR_FLAGS]; omega)) _).trans hshow

theorem execThermalUpdate_eq (f : Fin 8) (s : State) : execThermalUpdate f s =
    let y := reachThermal f s
    let x := y.prot.feeders[f]
    let iref : Rat := (pfld y (Reg.PROT_THERM f) F.PROT_THERM_i_ref : Rat) / 100
    let tau : Rat := 60 * pfld y (Reg.PROT_THERM f) F.PROT_THERM_tau
    let th := x.theta + 1 / 100 / tau * (x.iMax2 / (iref * iref) - x.theta)
    if !feederOn y f then .next y
    else if !pflg y (Reg.PROT_THERM f) F.PROT_THERM_en then .next (setOp f 8 false (setStarted f 8 false y))
    else if x.invalid[0] ∨ x.invalid[1] ∨ x.invalid[2] then .next y
    else .next (thetaMoved f th y) := rfl

theorem thermalUpdate_clause (f : Fin 8) (s : State) :
    let x := s.prot.feeders[f]
    let a := Reg.PROT_THERM f
    (feederOn s f = false ∨ (pflg s a F.PROT_THERM_en = true ∧ badPhases s f = true) →
      exec (.thermalUpdate f) s = .next (reachThermal f s)) ∧
    (feederOn s f = true → pflg s a F.PROT_THERM_en = false → ∃ t, exec (.thermalUpdate f) s = .next t ∧
      isStarted t f 8 = false ∧ isOperated t f 8 = false ∧ (t.prot.feeders[f]).theta = x.theta) ∧
    (feederOn s f = true → pflg s a F.PROT_THERM_en = true → badPhases s f = false →
      let iref : Rat := (pfld s a F.PROT_THERM_i_ref : Rat) / 100
      let tau : Rat := 60 * pfld s a F.PROT_THERM_tau
      let th := x.theta + 1 / 100 / tau * (x.iMax2 / (iref * iref) - x.theta)
      ∃ t, exec (.thermalUpdate f) s = .next t ∧ (t.prot.feeders[f]).theta = th ∧
        (∀ b, x.thermAt = some b → b + 10000000 ≤ localNs t) ∧
        isOperated t f 8 = (if isOperated s f 8 then decide (19 / 20 ≤ th) else decide (1 ≤ th)) ∧
        isStarted t f 8 = isOperated t f 8 ∧
        fld t (Reg.PROT_THERM_STATE f) F.PROT_THERM_STATE_theta = min 65535 (th * 10000).floor.toNat) := by
  dsimp only
  have hexec : exec (.thermalUpdate f) s = execThermalUpdate f s := rfl
  rw [hexec, execThermalUpdate_eq]
  dsimp only
  have hr := thermalReached f s
  generalize reachThermal f s = y at hr ⊢
  obtain ⟨q, hrec⟩ := hr.record
  have hon := feederOn_of_protReg (g := f) hr.protReg
  have hen : pflg y (Reg.PROT_THERM f) F.PROT_THERM_en = pflg s (Reg.PROT_THERM f) F.PROT_THERM_en := by rw [pflg, pflg, pfld, pfld, hr.protReg]
  have hop : isOperated y f 8 = isOperated s f 8 := by rw [isOperated, hrec, isOperated]
  have hbad : (y.prot.feeders[f].invalid[0] = true ∨ y.prot.feeders[f].invalid[1] = true ∨ y.prot.feeders[f].invalid[2] = true) ↔
      badPhases s f = true := by
    unfold badPhases
    rw [hrec]
    simp only [Bool.or_eq_true, or_assoc]
  rw [hon, hen]
  refine ⟨fun h => ?_, fun h1 h2 => ?_, fun h1 h2 h3 => ?_⟩
  · obtain h | ⟨h1, h2⟩ := h
    · exact if_pos (by rw [h]; rfl)
    · by_cases h0 : (!feederOn s f) = true
      · exact if_pos h0
      · rw [if_neg h0, if_neg (by rw [h1]; exact Bool.false_ne_true), if_pos (hbad.2 h2)]
  · obtain ⟨hst, hop', hview, -⟩ := setOp_setStarted f 8 false false y
    refine ⟨_, (if_neg (by rw [h1]; exact Bool.false_ne_true)).trans (if_pos (by rw [h2]; rfl)), hst, hop', (congrArg ElemView.theta hview).trans ?_⟩
    rw [hrec]
    rfl
  · have hnot : ¬(y.prot.feeders[f].invalid[0] = true ∨ y.prot.feeders[f].invalid[1] = true ∨ y.prot.feeders[f].invalid[2] = true) := fun h => by
      rw [hbad, h3] at h
      exact Bool.false_ne_true h
    rw [if_neg (by rw [h1]; exact Bool.false_ne_true), if_neg (by rw [h2]; exact Bool.false_ne_true), if_neg hnot]
    have hth : y.prot.feeders[f].theta = s.prot.feeders[f].theta ∧ y.prot.feeders[f].iMax2 = s.prot.feeders[f].iMax2 := by
      rw [hrec]
      exact ⟨rfl, rfl⟩
    rw [hth.1, hth.2, show pfld y (Reg.PROT_THERM f) F.PROT_THERM_i_ref = pfld s (Reg.PROT_THERM f) F.PROT_THERM_i_ref by rw [pfld, pfld, hr.protReg],
      show pfld y (Reg.PROT_THERM f) F.PROT_THERM_tau = pfld s (Reg.PROT_THERM f) F.PROT_THERM_tau by rw [pfld, pfld, hr.protReg]]
    generalize s.prot.feeders[f].theta + _ = th
    obtain ⟨g1, g2, g3, g4, g5⟩ := thetaMoved_effect f th y
    exact ⟨_, rfl, g1, fun b hb => by rw [localNs_of_ticks g2]; exact hr.due b hb, g3.trans (by rw [hop]), g4, g5⟩

/-! ### The thermal levels kept (R264) -/

/-- The level of one feeder written to EMBER. -/
def savedRecord (q : BitVec 64) (x : FeederState) : FeederState := { x with thetaSaved := x.theta, savedAt := q }

def thetaKept (f : Fin 8) (s : State) : State := setFeeder f (savedRecord (now s) s.prot.feeders[f]) s

theorem thermalSave_effect (s : State) : (thermalSave s).log = s.log ∧ (thermalSave s).regs = s.regs ∧ (thermalSave s).ticks = s.ticks ∧
    (thermalSave s).tai = s.tai ∧ (thermalSave s).prot.savedFrom = s.prot.savedFrom ∧
    ∀ f : Fin 8, (thermalSave s).prot.feeders[f] = savedRecord (now s) s.prot.feeders[f] := by
  have heq : thermalSave s = forEach (List.finRange 8) thetaKept s := rfl
  rw [heq]
  have hkeep : ∀ k ∈ List.finRange 8, ∀ y : State, (y.log = s.log ∧ y.regs = s.regs ∧ y.ticks = s.ticks ∧ y.tai = s.tai ∧
      y.prot.savedFrom = s.prot.savedFrom) → ((thetaKept k y).log = s.log ∧ (thetaKept k y).regs = s.regs ∧ (thetaKept k y).ticks = s.ticks ∧
      (thetaKept k y).tai = s.tai ∧ (thetaKept k y).prot.savedFrom = s.prot.savedFrom) := fun _ _ _ hy => hy
  obtain ⟨h1, h2, h3, h4, h5⟩ := forEach_keeps hkeep (x := s) ⟨rfl, rfl, rfl, rfl, rfl⟩
  refine ⟨h1, h2, h3, h4, h5, fun f => ?_⟩
  refine forEach_once (g := thetaKept) (n := f) (Pre := fun y => y.prot.feeders[f] = s.prot.feeders[f] ∧ y.tai = s.tai)
    (Post := fun y => y.prot.feeders[f] = savedRecord (now s) s.prot.feeders[f])
    (List.nodup_finRange 8) (List.mem_finRange f) (fun k _ hne y hy => ⟨?_, hy.2⟩) (fun k _ hne y hy => ?_) (fun y hy => ?_) ⟨rfl, rfl⟩
  · exact (feeder_setFeeder_ne hne.symm _ y).trans hy.1
  · exact (feeder_setFeeder_ne hne.symm _ y).trans hy
  · rw [thetaKept, feeder_setFeeder, hy.1, now, hy.2, now]

theorem thermalSave_clause (s : State) : ∃ t, exec .thermalSave s = .next t ∧ OnlyRegs [] s t ∧ t.log = s.log ∧
    t.prot.savedFrom = some (localNs t) ∧ (∀ b, s.prot.savedFrom = some b → b + 1000000000 ≤ localNs t) ∧ ∀ f : Fin 8,
      t.prot.feeders[f] = { s.prot.feeders[f] with thetaSaved := (s.prot.feeders[f]).theta, savedAt := now t } := by
  have hexec : exec .thermalSave s = .next (thermalSave { reachAfter 1000000000 s.prot.savedFrom s with
    prot := { (reachAfter 1000000000 s.prot.savedFrom s).prot with savedFrom := some (localNs (reachAfter 1000000000 s.prot.savedFrom s)) } }) := rfl
  rw [hexec]
  obtain ⟨hlater, hdue⟩ := reachAfter_effect 1000000000 s.prot.savedFrom s
  generalize reachAfter 1000000000 s.prot.savedFrom s = x at hlater hdue ⊢
  obtain ⟨h1, h2, h3, h4, h5, h6⟩ := thermalSave_effect { x with prot := { x.prot with savedFrom := some (localNs x) } }
  have hlocal := localNs_of_ticks (s := x) h3
  refine ⟨_, rfl, fun a _ => rd_of_regs (h2.trans hlater.regs) a, h1.trans hlater.log, ?_, fun b hb => by rw [hlocal]; exact hdue b hb, fun f => ?_⟩
  · rw [hlocal]
    exact h5
  · have hnow : now (thermalSave { x with prot := { x.prot with savedFrom := some (localNs x) } }) = now x :=
      congrArg (fun q : BitVec 66 => q.extractLsb' 2 64) h4
    rw [hnow]
    exact (h6 f).trans (show savedRecord (now x) x.prot.feeders[f] = savedRecord (now x) s.prot.feeders[f] by rw [hlater.prot])

/-! ### The elements 32 (R265) -/

/-- An element 32 operated and logged, before it acts. -/
def unitNoted (g : Fin 2) (q : Nat) (s : State) : State :=
  let x := s.prot.u32[g]
  let s := reachLocal q s
  let p := (s.gfm.stages[g]).pf * 4096
  logEvent 0x6201 (2 * g) (BitVec.ofNat 32 (BitVec.ofInt 16 p.floor).toNat) (setUnit32 g { x with op := true } s)

theorem unitNoted_effect (g : Fin 2) (q : Nat) (s : State) (hroom : Room 2 s) : ((unitNoted g q s).prot.u32[g]).op = true ∧
    q ≤ localNs (unitNoted g q s) ∧ (∃ p, Raises 0x6201 (2 * g) p s (unitNoted g q s)) ∧ Room 1 (unitNoted g q s) ∧
    (unitNoted g q s).loop = s.loop ∧ (∀ a, 0x40080000 ≤ a → a < 0x40082000 → rd (unitNoted g q s) a = rd s a) ∧
    (unitNoted g q s).prot.old = s.prot.old := by
  unfold unitNoted
  dsimp only
  have hreach := localNs_reachLocal q s
  have hlater := onlyLater_reachLocal q s
  have hloop := loop_reachLocal q s
  generalize reachLocal q s = x at hreach hlater hloop ⊢
  generalize (BitVec.ofNat 32 (BitVec.ofInt 16 (x.gfm.stages[g].pf * 4096).floor).toNat) = p
  have hset : (setUnit32 g { s.prot.u32[g] with op := true } x).prot.u32[g] = { s.prot.u32[g] with op := true } := by simp [setUnit32]
  have hlog : (setUnit32 g { s.prot.u32[g] with op := true } x).log = s.log := hlater.log
  have hloop' : (setUnit32 g { s.prot.u32[g] with op := true } x).loop = s.loop := hloop
  have hregs : (setUnit32 g { s.prot.u32[g] with op := true } x).regs = s.regs := hlater.regs
  have hold : (setUnit32 g { s.prot.u32[g] with op := true } x).prot.old = s.prot.old :=
    show x.prot.old = s.prot.old by rw [hlater.prot]
  have hlocal : q ≤ localNs (setUnit32 g { s.prot.u32[g] with op := true } x) := hreach
  generalize setUnit32 g { s.prot.u32[g] with op := true } x = y at hset hlog hloop' hregs hold hlocal ⊢
  have hlogged := logged_logEvent 0x6201 (2 * g) p hlog (by unfold Room at hroom ⊢; omega)
  have hprot : (logEvent 0x6201 (2 * g) p y).prot = y.prot :=
    keeps_of_ev (f := ⟨[.log], [.cmd], false⟩) (ev_logEvent (by decide) (by decide) (Ev.refl _ y)) (p := .prot) rfl
  refine ⟨by rw [hprot, hset], ?_, ⟨p, raises_of_grown hlogged (.refl _)⟩, room_after hlogged hroom, (logEvent_loop ..).trans hloop',
    fun a h1 h2 => (rd_logEvent y _ _ _ ?_ ?_).trans (rd_of_regs hregs a), by rw [hprot, hold]⟩
  · rw [localNs_of_ticks (logEvent_ticks ..)]
    exact hlocal
  · simp only [Reg.CMD_STATUS]
    omega
  · simp only [Reg.CMD_EVT_LOST]
    omega

theorem unit32Operate_none (g : Fin 2) (s : State) (h : (s.prot.u32[g]).since = none ∨ (s.prot.u32[g]).op = true) :
    exec (.unit32Operate g) s = .next s := by
  refine Eq.trans (b := execUnit32Operate g s) rfl ?_
  unfold execUnit32Operate
  dsimp only
  split
  · rfl
  next hsome =>
    obtain h | h := h
    · rw [h] at hsome
      exact absurd hsome nofun
    · exact if_pos h

theorem unit32Operate_due (g : Fin 2) (a : Nat) (s : State) (hsince : (s.prot.u32[g]).since = some a) (hop : (s.prot.u32[g]).op = false) :
    exec (.unit32Operate g) s =
    let y := unitNoted g (a + 100000000 * pfld s (Reg.PROT_32 g) F.PROT_32_delay) s
    if acts32 y g then .next (blockStages 3 (pfld y (Reg.PROT_32_MAP g) F.PROT_32_MAP_block) (refreshLines y)) else .next y := by
  refine Eq.trans (b := execUnit32Operate g s) rfl ?_
  unfold execUnit32Operate
  dsimp only
  split
  next hnone => exact absurd (hsince.symm.trans hnone) nofun
  next b hsome =>
    obtain rfl : a = b := Option.some.inj (hsince.symm.trans hsome)
    exact if_neg (show ¬s.prot.u32[g].op = true by rw [hop]; exact Bool.false_ne_true)

theorem unit32Operate_clause (g : Fin 2) (a : Nat) (s : State) (hsince : (s.prot.u32[g]).since = some a) (hop : (s.prot.u32[g]).op = false)
    (hroom : Room 2 s) :
    ∃ t, exec (.unit32Operate g) s = .next t ∧ (t.prot.u32[g]).op = true ∧ (∃ p, Raises 0x6201 (2 * g) p s t) ∧
      a + 100000000 * pfld s (Reg.PROT_32 g) F.PROT_32_delay ≤ localNs t ∧
      (fbit s Reg.PROT_BLOCK F.PROT_BLOCK_unit32 g = true → t.loop = s.loop) ∧
      (fbit s Reg.PROT_BLOCK F.PROT_BLOCK_unit32 g = false → ∀ st : Fin 4,
        pbit s (Reg.PROT_32_MAP g) F.PROT_32_MAP_block st = true → latchedBlocked t st = true) := by
  rw [unit32Operate_due g a s hsince hop]
  generalize a + 100000000 * pfld s (Reg.PROT_32 g) F.PROT_32_delay = q
  obtain ⟨h1, h2, ⟨p, h3⟩, h4, h5, h6, h7⟩ := unitNoted_effect g q s hroom
  generalize unitNoted g q s = y at h1 h2 h3 h4 h5 h6 h7 ⊢
  have hblock : fbit y Reg.PROT_BLOCK F.PROT_BLOCK_unit32 g = fbit s Reg.PROT_BLOCK F.PROT_BLOCK_unit32 g :=
    fbit_of_rd (h6 _ (by decide) (by decide)) _ _
  have hacts : acts32 y g = !fbit s Reg.PROT_BLOCK F.PROT_BLOCK_unit32 g := by rw [acts32, h1, hblock, Bool.true_and]
  have hmap : pfld y (Reg.PROT_32_MAP g) F.PROT_32_MAP_block = pfld s (Reg.PROT_32_MAP g) F.PROT_32_MAP_block := by
    unfold pfld protReg
    rw [h7, h6 _ (by simp only [Reg.PROT_32_MAP]; omega) (by simp only [Reg.PROT_32_MAP]; omega)]
  dsimp only
  rw [hacts, hmap]
  cases hb : fbit s Reg.PROT_BLOCK F.PROT_BLOCK_unit32 g
  · have hlines := elemKept_refreshLines 0 y
    have hrev := refreshLines_ev (foot_self _) (Ev.refl _ y)
    have hprot : (refreshLines y).prot = y.prot := keeps_of_ev hrev (p := .prot) rfl
    have hlogr : (refreshLines y).log = y.log := keeps_of_ev hrev (p := .log) rfl
    generalize refreshLines y = z at hlines hprot hlogr ⊢
    have hblocks := blocks_blockStages 3 (pfld s (Reg.PROT_32_MAP g) F.PROT_32_MAP_block) (room_of_log hlogr h4)
    have hbev := blockStages_ev (code := 3) (mask := pfld s (Reg.PROT_32_MAP g) F.PROT_32_MAP_block) (foot_self _) (Ev.refl _ z)
    have hbprot : (blockStages 3 (pfld s (Reg.PROT_32_MAP g) F.PROT_32_MAP_block) z).prot = z.prot := keeps_of_ev hbev (p := .prot) rfl
    have hbticks : (blockStages 3 (pfld s (Reg.PROT_32_MAP g) F.PROT_32_MAP_block) z).ticks = z.ticks := keeps_of_ev hbev (p := .ticks) rfl
    refine ⟨_, if_pos rfl, by rw [hbprot, hprot, h1], ⟨p, raises_before h3 (hlines.grows.trans (logGrows_blockStages ..))⟩, ?_, nofun, fun _ st hst =>
      (hblocks.stages st hst).1⟩
    rw [localNs_of_ticks (hbticks.trans hlines.ticks)]
    exact h2
  · exact ⟨_, if_neg Bool.false_ne_true, h1, ⟨p, h3⟩, h2, fun _ => h5, nofun⟩

end Small

end Sys2Proof.Machine
end


section
/-! PROOFS. What the steps of an update leave of a feeder's elements (R252, R254, R261, R266 to R269). -/

namespace Sys2Proof.Machine

open Sys2Proof Sys2Proof.Safety Sys2Proof.Laws

section Steps

variable {f h : Fin 8} {s x y t : State}

/-! ### The discriminator -/

theorem elemKept_setOp14 (f h : Fin 8) (b : Bool) (s : State) : ElemKept f s (setOp h 14 b s) := by
  refine elemKept_setFeeder_any h rfl fun e he => ?_
  show (putBit s.prot.feeders[h].op 14 b).testBit e = _
  rw [putBit_testBit, if_neg he]

/-- One feeder's qualification cleared. -/
def qualCleared (f : Fin 8) (s : State) : State :=
  let s := setFeeder f { s.prot.feeders[f] with qualRun := 0, qualZ := none } s
  let s := setF s (Reg.PROT_FDR_STATE f) F.PROT_FDR_STATE_lmd_qual 0
  setOp f 14 false s

theorem clearQual_eq (s : State) : clearQual s = forEach (List.finRange 8) qualCleared (setF s Reg.PROT_LMD_STATE F.PROT_LMD_STATE_qual 0) := rfl

theorem elemKept_qualCleared (f h : Fin 8) (s : State) : ElemKept f s (qualCleared h s) := by
  unfold qualCleared
  dsimp only
  have h1 := elemKept_record f h (s := s) (y := { s.prot.feeders[h] with qualRun := 0, qualZ := none }) rfl rfl
  generalize setFeeder h { s.prot.feeders[h] with qualRun := 0, qualZ := none } s = x at h1 ⊢
  exact (h1.trans (elemKept_setF_STATE f h _ _ x)).trans (elemKept_setOp14 f h false _)

theorem elemKept_clearQual (f : Fin 8) (s : State) : ElemKept f s (clearQual s) := by
  rw [clearQual_eq]
  exact (elemKept_setF_LMD f _ _ s).trans (elemKept_forEach (fun k _ y => elemKept_qualCleared f k y) _)

theorem elemKept_setLmd (f : Fin 8) (n : Nat) (s : State) : ElemKept f s (setLmd n s) := elemKept_setF_LMD ..

theorem elemKept_setExcluded (f : Fin 8) (mask : Nat) (s : State) : ElemKept f s (setExcluded mask s) :=
  (elemKept_setF_LMD f _ _ s).trans (elemKept_forEach (fun k _ y => elemKept_setF_STATE f k _ _ y) _)

theorem elemKept_noFeeder (f : Fin 8) (b : Bool) (s : State) : ElemKept f s { s with prot := { s.prot with lmdNoFeeder := b } } :=
  ⟨rfl, fun _ _ => rfl, fun _ _ _ => rfl, fun _ _ h => h, fun _ _ => rfl, rfl, ⟨rfl, rfl⟩, rfl, rfl, rfl, rfl, .of_log (.refl s) rfl⟩

theorem elemKept_lmdMeasured (f : Fin 8) (s : State) : ElemKept f s (lmdMeasured s) := by
  unfold lmdMeasured
  have h1 := elemKept_noFeeder f false s
  generalize { s with prot := { s.prot with lmdNoFeeder := false } } = x at h1 ⊢
  exact (h1.trans (elemKept_clearQual f x)).trans (elemKept_setLmd ..)

theorem elemKept_lmdArm (f : Fin 8) (s : State) : ElemKept f s (lmdArm s) := by
  rw [lmdArm_eq]
  split
  · exact (elemKept_lmdMeasured f s).trans (elemKept_logEvent ..)
  · exact .refl f s

/-- One feeder tripped by the discriminator. -/
def lmdTripOne (f : Fin 8) (s : State) : State :=
  let s := setFbit s Reg.PROT_LMD_STATE F.PROT_LMD_STATE_tripped f true
  setOp f 14 true (logN 0x6102 f (lmdArg s.prot.feeders[f]) s)

theorem elemKept_lmdTripOne (f h : Fin 8) (s : State) : ElemKept f s (lmdTripOne h s) := by
  unfold lmdTripOne
  dsimp only
  have h1 : ElemKept f s (setFbit s Reg.PROT_LMD_STATE F.PROT_LMD_STATE_tripped h true) := elemKept_setF_LMD ..
  generalize setFbit s Reg.PROT_LMD_STATE F.PROT_LMD_STATE_tripped h true = x at h1 ⊢
  exact (h1.trans (elemKept_logN f _ _ _ x)).trans (elemKept_setOp14 ..)

theorem elemKept_lmdTake (f : Fin 8) (s : State) : ElemKept f s (lmdTake s) := by
  unfold lmdTake
  split
  · exact .refl f s
  · exact (elemKept_setLmd f _ s).trans (elemKept_forEach (g := lmdTripOne) (fun k _ y => elemKept_lmdTripOne f k y) _)

theorem elemKept_lmdRearm (f : Fin 8) (s : State) : ElemKept f s (lmdRearm s) := by
  unfold lmdRearm
  dsimp only
  generalize List.foldl _ _ _ = mask
  generalize latestOf _ = onset
  split
  · have h1 := (elemKept_clearQual f s).trans (elemKept_setExcluded f mask _)
    generalize setExcluded mask (clearQual s) = x at h1 ⊢
    have h2 := h1.trans (elemKept_wr64_ONSET f onset x)
    generalize wr64 x Reg.PROT_LMD_ONSET onset = y at h2 ⊢
    have h3 := (h2.trans (elemKept_setLmd f lmdWait y)).trans (elemKept_logN f 0x6105 0 mask _)
    generalize logN 0x6105 0 mask (setLmd lmdWait y) = z at h3 ⊢
    exact h3.trans (elemKept_lmdArm f z)
  · exact .refl f s

theorem elemKept_lmdQualify (f h : Fin 8) (p : PhasorSet) (s : State) : ElemKept f s (lmdQualify h p s) := by
  unfold lmdQualify
  dsimp only
  have h1 : ∀ q, ElemKept f s
      (setFbit (setF s (Reg.PROT_FDR_STATE h) F.PROT_FDR_STATE_lmd_qual (b2n q)) Reg.PROT_LMD_STATE F.PROT_LMD_STATE_qual h q) := fun q =>
    (elemKept_setF_STATE f h _ _ s).trans (elemKept_setF_LMD ..)
  split
  · exact .refl f s
  · split
    · exact h1 _
    · exact (h1 _).trans (elemKept_record f h rfl rfl)

/-! ### Status, measurement and direction -/

theorem elemKept_statusStep (f h : Fin 8) (s : State) : ElemKept f s (statusStep h s) := by
  unfold statusStep
  dsimp only
  generalize (aUsed s h && bUsed s h && aLevel s h == bLevel s h) = same
  generalize interval s.prot.feeders[h].sameFrom same s = q
  have h1 := elemKept_record f h (s := s) (y := { s.prot.feeders[h] with sameFrom := q }) rfl rfl
  generalize setFeeder h { s.prot.feeders[h] with sameFrom := q } s = x at h1 ⊢
  split
  · exact (h1.trans (elemKept_setF_STATE f h _ _ x)).trans (elemKept_whenS (elemKept_logN ..))
  · exact h1.trans (elemKept_whenS (elemKept_setF_STATE f h _ _ x))

theorem elemKept_putMeas (f h : Fin 8) (k : Fin 4) (v : Word) (s : State) : ElemKept f s (wr s (Reg.PROT_MEAS h k) v) :=
  elemKept_wr (shown_MEAS h k) (by simp only [Reg.PROT_FDR_FLAGS, Reg.PROT_MEAS]; omega) v s

theorem elemKept_showMeas (f h : Fin 8) (m : FdrMeas) (s : State) : ElemKept f s (showMeas h m s) :=
  (((elemKept_putMeas f h 0 _ s).trans (elemKept_putMeas f h 1 _ _)).trans (elemKept_putMeas f h 2 _ _)).trans (elemKept_putMeas f h 3 _ _)

theorem elemKept_directionStep (f h : Fin 8) (m : FdrMeas) (s : State) : ElemKept f s (directionStep h m s) := by
  unfold directionStep
  dsimp only
  generalize Vector.ofFn (fun k : Fin 3 => phaseDir s h m k) = d
  generalize (Vector.ofFn fun k : Fin 3 => if vMin s h * vMin s h ≤ cxSq (lineToLine m.v)[k + 1] then (lineToLine m.v)[k + 1]
    else s.prot.feeders[h].memV[k]) = mv
  generalize (Vector.ofFn fun k : Fin 3 => if vMin s h * vMin s h ≤ cxSq (lineToLine m.v)[k + 1] then some (localNs s)
    else s.prot.feeders[h].memAt[k]) = ma
  have h1 := elemKept_record f h (s := s) (y := { s.prot.feeders[h] with dirPh := d, memV := mv, memAt := ma }) rfl rfl
  generalize setFeeder h { s.prot.feeders[h] with dirPh := d, memV := mv, memAt := ma } s = x at h1 ⊢
  split
  · exact .refl f s
  · have h2 := h1.trans (elemKept_setF_STATE f h F.PROT_FDR_STATE_dir_ph
      (if d.toList.contains 1 then 1 else if d.toList.contains 2 then 2 else 0) x)
    split
    · exact h2
    · exact h2.trans (elemKept_setF_STATE f h _ _ _)

/-! ### The elements of another feeder -/

theorem elemKept_setStarted_ne (hne : f ≠ h) (e : Fin 13) (b : Bool) (s : State) : ElemKept f s (setStarted h e b s) := by
  have hset := startSet_setStarted h e b s
  generalize setStarted h e b s = x at hset ⊢
  have hflags : rd x (Reg.PROT_FDR_FLAGS f) = rd s (Reg.PROT_FDR_FLAGS f) :=
    hset.regs _ (by simp only [Reg.PROT_FDR_FLAGS]; omega)
  have hfeeder := hset.feeders f hne
  refine ⟨by rw [hfeeder], fun e _ => by rw [isOperated, isOperated, hfeeder], fun e _ _ => fbit_of_rd hflags _ _, fun e _ he => ?_,
    fun a ha => hset.regs a (ha.ne_shown (shown_FLAGS h)), hset.old, ⟨hset.windows.1, hset.windows.2.2⟩, hset.windows.2.1, hset.fab, hset.ticks, hset.tai,
    .of_log (.refl s) hset.log⟩
  rw [fbit_of_rd hflags]
  exact he

theorem elemKept_setOp_ne (hne : f ≠ h) (e : Nat) (b : Bool) (s : State) : ElemKept f s (setOp h e b s) := elemKept_setFeeder_ne hne _

theorem elemKept_definiteStep_ne (hne : f ≠ h) (e : Fin 13) (d : Nat) (s : State) : ElemKept f s (definiteStep h e d s) := by
  unfold definiteStep
  split
  · exact elemKept_setOp_ne hne _ _ s
  · exact elemKept_whenS (elemKept_setOp_ne hne _ _ s)

theorem elemKept_setAcc_ne (hne : f ≠ h) (e : Fin 7) (a : Rat) (s : State) : ElemKept f s (setAcc h e a s) := elemKept_setFeeder_ne hne _

theorem elemKept_idmtStep_ne (hne : f ≠ h) (e : Fin 7) (m : Rat) (dt : Nat) (s : State) : ElemKept f s (idmtStep h e m dt s) := by
  unfold idmtStep
  dsimp only
  split
  · exact (elemKept_setAcc_ne hne e _ s).trans (elemKept_whenS (elemKept_setOp_ne hne _ _ _))
  · have h1 := elemKept_setOp_ne (s := s) hne e false
    generalize setOp h e false s = x at h1 ⊢
    split
    · exact h1.trans (elemKept_setAcc_ne hne e _ x)
    · split
      · exact h1
      · split
        · exact h1.trans (elemKept_setAcc_ne hne e _ x)
        · exact h1.trans (elemKept_setAcc_ne hne e _ x)

theorem elemKept_ocStep_ne (hne : f ≠ h) (m : FdrMeas) (dt : Nat) (e : Fin 7) (s : State) : ElemKept f s (ocStep h m dt e s) := by
  unfold ocStep
  dsimp only
  have h1 : ElemKept f s (if e = 0 then clearFast h s else s) := by
    split
    · exact elemKept_setFeeder_ne hne _
    · exact .refl f s
  generalize (if e = 0 then clearFast h s else s) = x at h1 ⊢
  split
  · exact .refl f s
  · split
    · exact ((h1.trans (elemKept_setStarted_ne hne _ _ x)).trans (elemKept_setOp_ne hne _ _ _)).trans (elemKept_setAcc_ne hne _ _ _)
    · split
      · exact h1.trans (elemKept_setFeeder_ne hne _)
      · have h2 := h1.trans (elemKept_setStarted_ne hne (e.castLE (by omega)) (ocQuantity x h e m).2 x)
        generalize setStarted h (e.castLE (by omega)) (ocQuantity x h e m).2 x = y at h2 ⊢
        split
        · exact h2.trans (elemKept_definiteStep_ne hne _ _ y)
        · exact (h2.trans (elemKept_setFeeder_ne hne _)).trans (elemKept_idmtStep_ne hne e _ dt _)

theorem elemKept_vfStep_ne (hne : f ≠ h) (m : FdrMeas) (dt : Nat) (v : Fin 4) (s : State) : ElemKept f s (vfStep h m dt v s) := by
  unfold vfStep
  dsimp only
  split
  · exact (elemKept_setStarted_ne hne _ _ s).trans (elemKept_setOp_ne hne _ _ _)
  · split
    · exact elemKept_setFeeder_ne hne _
    · exact (elemKept_setStarted_ne hne _ _ s).trans (elemKept_definiteStep_ne hne _ _ _)

theorem elemKept_elementsStep_ne (hne : f ≠ h) (m : FdrMeas) (s : State) : ElemKept f s (elementsStep h m s) := by
  unfold elementsStep
  dsimp only
  exact ((elemKept_forEach (fun e _ y => elemKept_ocStep_ne hne m _ e y) s).trans
    (elemKept_forEach (fun v _ y => elemKept_vfStep_ne hne m _ v y) _)).trans (elemKept_setFeeder_ne hne _)

/-! ### Invalid inputs -/

/-- The invalid inputs of a feeder that begin, logged. -/
def invalidLogged (f : Fin 8) (p : PhasorSet) (s : State) : State :=
  whenS (resMeas (forEach (List.finRange 4) (fun (k : Fin 4) s =>
      whenS ((p.feeders[f]).bad[k] && !(s.prot.feeders[f]).invalid[k]) (logN 0x600B f k) s) s) f &&
      !residualRouted (forEach (List.finRange 4) (fun (k : Fin 4) s =>
      whenS ((p.feeders[f]).bad[k] && !(s.prot.feeders[f]).invalid[k]) (logN 0x600B f k) s) s) f &&
      !((forEach (List.finRange 4) (fun (k : Fin 4) s =>
      whenS ((p.feeders[f]).bad[k] && !(s.prot.feeders[f]).invalid[k]) (logN 0x600B f k) s) s).prot.feeders[f]).resLogged) (logN 0x600B f 3)
    (forEach (List.finRange 4) (fun (k : Fin 4) s =>
      whenS ((p.feeders[f]).bad[k] && !(s.prot.feeders[f]).invalid[k]) (logN 0x600B f k) s) s)

theorem noteInvalid_eq (f : Fin 8) (p : PhasorSet) (s : State) : ∃ b n, noteInvalid f p s =
    setF (setFeeder f { (invalidLogged f p s).prot.feeders[f] with invalid := (p.feeders[f]).bad, resLogged := b } (invalidLogged f p s))
      (Reg.PROT_FDR_STATE f) F.PROT_FDR_STATE_phasor_invalid n := ⟨_, _, rfl⟩

theorem elemKept_invalidLogged (f h : Fin 8) (p : PhasorSet) (s : State) : ElemKept f s (invalidLogged h p s) :=
  (elemKept_forEach (fun _ _ _ => elemKept_whenS (elemKept_logN ..)) s).trans (elemKept_whenS (elemKept_logN ..))

theorem elemKept_noteInvalid_ne (hne : f ≠ h) (p : PhasorSet) (s : State) : ElemKept f s (noteInvalid h p s) := by
  obtain ⟨b, n, heq⟩ := noteInvalid_eq h p s
  rw [heq]
  have h1 := elemKept_invalidLogged f h p s
  generalize invalidLogged h p s = x at h1 ⊢
  exact (h1.trans (elemKept_setFeeder_ne hne _)).trans (elemKept_setF_STATE ..)

/-- What the first half of an update does on a feeder after its invalid inputs. -/
def firstMeasured (p : PhasorSet) (f : Fin 8) (s : State) : State :=
  let k : Rat := (iScale s f : Rat) / rated s f * (p.feeders[f]).peak
  setFeeder f { s.prot.feeders[f] with peak2 := k * k } s

theorem feederFirst_eq (p : PhasorSet) {f : Fin 8} (hon : feederOn s f = true) : feederFirst p f s =
    let y := firstMeasured p f (noteInvalid f p s)
    let m := feederMeas y f p
    lmdQualify f p (elementsStep f m (directionStep f m (statusStep f (if m.iBad || m.vBad then y else showMeas f m y)))) :=
  if_neg (by rw [hon]; exact Bool.false_ne_true)

theorem elemKept_shown (f h : Fin 8) (m : FdrMeas) (s : State) :
    ElemKept f s (directionStep h m (statusStep h (if m.iBad || m.vBad then s else showMeas h m s))) := by
  have h1 : ElemKept f s (if (m.iBad || m.vBad) = true then s else showMeas h m s) := by
    split
    · exact .refl f s
    · exact elemKept_showMeas f h m s
  generalize (if (m.iBad || m.vBad) = true then s else showMeas h m s) = x at h1 ⊢
  exact (h1.trans (elemKept_statusStep f h x)).trans (elemKept_directionStep f h m _)

theorem elemKept_feederFirst_ne (hne : f ≠ h) (p : PhasorSet) (s : State) : ElemKept f s (feederFirst p h s) := by
  cases hon : feederOn s h
  · rw [show feederFirst p h s = s from if_pos (by rw [hon]; rfl)]
    exact .refl f s
  · rw [feederFirst_eq p hon]
    dsimp only
    have h1 : ElemKept f s (firstMeasured p h (noteInvalid h p s)) :=
      (elemKept_noteInvalid_ne hne p s).trans (elemKept_record f h rfl rfl)
    generalize firstMeasured p h (noteInvalid h p s) = x at h1 ⊢
    generalize feederMeas x h p = m
    exact ((h1.trans (elemKept_shown f h m x)).trans (elemKept_elementsStep_ne hne m _)).trans (elemKept_lmdQualify f h p _)

end Steps

end Sys2Proof.Machine
end


section
/-! PROOFS. A phasor update, settled (R252 to R259, R276). -/

namespace Sys2Proof.Machine

open Sys2Proof Sys2Proof.Safety Sys2Proof.Laws

section Update

variable {f : Fin 8} {e : Fin 7} {s x y t : State} {m : FdrMeas} {p : PhasorSet}

/-! ### The settings of an update -/

/-- The settings in force are the same. -/
structure SettingsSame (s t : State) : Prop where
  settings : ∀ a, ElemReg a → rd t a = rd s a
  old : t.prot.old = s.prot.old
  fab : t.fab = s.fab

theorem ElemKept.same (h : ElemKept f s t) : SettingsSame s t := ⟨h.settings, h.old, h.fab⟩

theorem SettingsSame.refl (s : State) : SettingsSame s s := ⟨fun _ _ => rfl, rfl, rfl⟩

theorem SettingsSame.trans (h : SettingsSame s x) (h' : SettingsSame x t) : SettingsSame s t :=
  ⟨fun a ha => (h'.settings a ha).trans (h.settings a ha), h'.old.trans h.old, h'.fab.trans h.fab⟩

/-- The currents of a feeder by its scales and its rated current. -/
def currentsOf (i n r : Nat) (meas : Bool) (ph : Vector Cx 4) : Vector Cx 3 × Cx :=
  let k : Rat := (i : Rat) / r
  let v : Vector Cx 3 := #v[cxScale k ph[0], cxScale k ph[1], cxScale k ph[2]]
  (v, if meas then cxScale ((n : Rat) / r) ph[3] else seq0 v)

theorem feederCurrents_eq (s : State) (f : Nat) (ph : Vector Cx 4) :
    feederCurrents s f ph = currentsOf (iScale s f) (inScale s f) (rated s f) (resMeas s f) ph := rfl

/-- The quantities of a feeder by its currents and the bus voltages. -/
def measOf (c : Vector Cx 3 × Cx) (v : Vector Cx 3) (meas routed : Bool) (bad : Vector Bool 4) (vBad : Vector Bool 3) : FdrMeas :=
  let phBad := bad[0] || bad[1] || bad[2]
  { i := c.1, i0 := c.2, v := v, iBad := phBad, i0Bad := if meas then bad[3] || !routed else phBad, vBad := vBad[0] || vBad[1] || vBad[2] }

theorem feederMeas_eq (s : State) (f : Fin 8) (p : PhasorSet) : feederMeas s f p =
    measOf (feederCurrents s f p.feeders[f].cur) (busVoltages s p.volt) (resMeas s f) (residualRouted s f) p.feeders[f].bad p.voltBad := rfl

theorem elemReg_CFG (f : Fin 8) : ElemReg (Reg.PROT_FDR_CFG f) ∧ ElemReg (Reg.PROT_FDR_SCALE f) := by
  unfold ElemReg
  simp only [Reg.PROT_FDR_CFG, Reg.PROT_FDR_SCALE, Reg.PROT_BUS_CFG, Reg.PROT_FREQ, Reg.PROT_BLOCK]
  omega

theorem elemReg_OC (f : Fin 8) (e : Fin 7) : ElemReg (Reg.PROT_OC f e) ∧ ElemReg (Reg.PROT_OC_T f e) := by
  unfold ElemReg
  simp only [Reg.PROT_OC, Reg.PROT_OC_T, Reg.PROT_FDR_CFG, Reg.PROT_BUS_CFG, Reg.PROT_FREQ, Reg.PROT_BLOCK]
  omega

section Same

variable (h : SettingsSame s t)

include h

theorem SettingsSame.protReg {a : Nat} (ha : ElemReg a) : Machine.protReg t a = Machine.protReg s a := by
  unfold Machine.protReg
  rw [h.old, h.settings a ha]

theorem SettingsSame.feederOn (f : Fin 8) : Machine.feederOn t f = Machine.feederOn s f := by
  unfold Machine.feederOn pflg rated iScale resMeas inScale pflg pfld
  rw [h.protReg (elemReg_CFG f).1, h.protReg (elemReg_CFG f).2]

theorem SettingsSame.resMeas (f : Fin 8) : Machine.resMeas t f = Machine.resMeas s f := by
  unfold Machine.resMeas pflg pfld
  rw [h.protReg (elemReg_CFG f).1]

theorem SettingsSame.residualRouted (g : Nat) : Machine.residualRouted t g = Machine.residualRouted s g := by
  unfold Machine.residualRouted
  rw [h.fab]

theorem SettingsSame.feederCurrents (f : Fin 8) (ph : Vector Cx 4) : Machine.feederCurrents t f ph = Machine.feederCurrents s f ph := by
  have hi : iScale t f = iScale s f := by rw [iScale, iScale, pfld, pfld, h.protReg (elemReg_CFG f).2]
  have hn : inScale t f = inScale s f := by rw [inScale, inScale, pfld, pfld, h.protReg (elemReg_CFG f).2]
  have hr : rated t f = rated s f := by rw [rated, rated, pfld, pfld, h.protReg (elemReg_CFG f).1]
  rw [feederCurrents_eq, feederCurrents_eq, h.resMeas f, hi, hn, hr]

theorem SettingsSame.busVoltages (v : Vector Cx 3) : Machine.busVoltages t v = Machine.busVoltages s v := by
  have hn : vn t = vn s := by rw [vn, vn, pfld, pfld, h.protReg (.inl rfl)]
  have hfs : pfld t Reg.PROT_BUS_CFG F.PROT_BUS_CFG_v_fs = pfld s Reg.PROT_BUS_CFG F.PROT_BUS_CFG_v_fs := by
    rw [pfld, pfld, h.protReg (.inl rfl)]
  unfold Machine.busVoltages
  rw [hn, hfs]

theorem SettingsSame.feederMeas (f : Fin 8) (p : PhasorSet) : Machine.feederMeas t f p = Machine.feederMeas s f p := by
  rw [feederMeas_eq, feederMeas_eq, h.feederCurrents f, h.busVoltages, h.resMeas f, h.residualRouted]

theorem SettingsSame.oc (f : Fin 8) (e : Fin 7) (G : Fld) : pfld t (Reg.PROT_OC f e) G = pfld s (Reg.PROT_OC f e) G := by
  unfold pfld
  rw [h.protReg (elemReg_OC f e).1]

theorem SettingsSame.curveOf (f : Fin 8) (e : Fin 7) : Machine.curveOf t f e = Machine.curveOf s f e := by
  unfold Machine.curveOf
  rw [h.oc]

theorem SettingsSame.fastMode (f : Fin 8) : Machine.fastMode t f = Machine.fastMode s f := by
  have hoc : ∀ G, pfld t (Reg.PROT_OC f 0) G = pfld s (Reg.PROT_OC f 0) G := h.oc f 0
  unfold Machine.fastMode pflg
  rw [hoc, hoc]

theorem SettingsSame.ocThreshold (f : Fin 8) (e : Fin 7) (hst : isStarted t f e = isStarted s f e) :
    Machine.ocThreshold t f e = Machine.ocThreshold s f e := by
  unfold Machine.ocThreshold pickupOf
  rw [h.oc, h.curveOf, hst]

/-- Whether a non-directional element exceeds its threshold hangs on its settings and its start alone. -/
theorem SettingsSame.ocQuantity (f : Fin 8) (e : Fin 7) (m : FdrMeas) (hst : isStarted t f e = isStarted s f e)
    (hdir : pfld s (Reg.PROT_OC f e) F.PROT_OC_dir = 0) : (Machine.ocQuantity t f e m).2 = (Machine.ocQuantity s f e m).2 := by
  have hmatch : ∀ z : State, pfld z (Reg.PROT_OC f e) F.PROT_OC_dir = 0 → ∀ d, dirMatches z f e d = true := fun z hz d => by
    unfold dirMatches
    rw [hz]
    simp
  have hs := hmatch s hdir
  have ht := hmatch t ((h.oc f e _).trans hdir)
  unfold Machine.ocQuantity
  dsimp only
  rw [h.ocThreshold f e hst]
  split
  · simp only [hs, ht, Bool.and_true]
  · simp only [hs, ht, Bool.and_true]

end Same

/-! ### One element of a feeder -/

/-- One current element stays. -/
structure OneKept (f : Fin 8) (e : Fin 7) (s t : State) : Prop where
  same : SettingsSame s t
  started : isStarted t f e = isStarted s f e
  op : isOperated t f e = isOperated s f e
  acc : (t.prot.feeders[f]).acc[e] = (s.prot.feeders[f]).acc[e]
  invalid : (t.prot.feeders[f]).invalid = (s.prot.feeders[f]).invalid

theorem OneKept.refl (f : Fin 8) (e : Fin 7) (s : State) : OneKept f e s s := ⟨.refl s, rfl, rfl, rfl, rfl⟩

theorem OneKept.trans (h : OneKept f e s x) (h' : OneKept f e x t) : OneKept f e s t :=
  ⟨h.same.trans h'.same, h'.started.trans h.started, h'.op.trans h.op, h'.acc.trans h.acc, h'.invalid.trans h.invalid⟩

theorem ElemKept.one (h : ElemKept f s t) (e : Fin 7) (he : e.val ≠ 7) : OneKept f e s t :=
  ⟨h.same, h.started e (by omega) he, h.op e (by omega), congrArg (fun v : ElemView => v.acc[e]) h.view,
    congrArg ElemView.invalid h.view⟩

theorem oneKept_setStarted {k : Fin 13} (hne : k.val ≠ e.val) (b : Bool) (s : State) : OneKept f e s (setStarted f k b s) := by
  have hset := startSet_setStarted f k b s
  obtain ⟨v, hrec⟩ := hset.record
  refine ⟨⟨fun a ha => hset.regs a (ha.ne_shown (shown_FLAGS f)), hset.old, hset.fab⟩, hset.others e (by omega) hne.symm, ?_, ?_, ?_⟩
  · rw [isOperated, hrec, isOperated]
  · rw [hrec]
  · rw [hrec]

theorem oneKept_setOp {k : Nat} (hne : k ≠ e.val) (b : Bool) (s : State) : OneKept f e s (setOp f k b s) := by
  refine ⟨⟨fun _ _ => rfl, rfl, rfl⟩, rfl, ?_, ?_, ?_⟩
  · rw [isOperated, setOp_op, isOperated]
    show (putBit s.prot.feeders[f].op k b).testBit e = _
    rw [putBit_testBit, if_neg hne.symm]
  · rw [setOp_op]
  · rw [setOp_op]

theorem oneKept_setAcc {k : Fin 7} (hne : k ≠ e) (a : Rat) (s : State) : OneKept f e s (setAcc f k a s) := by
  refine ⟨⟨fun _ _ => rfl, rfl, rfl⟩, rfl, ?_, ?_, ?_⟩
  · rw [isOperated, setAcc_feeder, isOperated]
  · rw [setAcc_feeder]
    exact Vector.getElem_set_ne k.isLt e.isLt fun hv => hne (Fin.ext hv)
  · rw [setAcc_feeder]

/-- A record changed beside the operate outputs, the accumulators and the invalid inputs. -/
theorem oneKept_record {z : FeederState} (hop : z.op = s.prot.feeders[f].op) (hacc : z.acc = s.prot.feeders[f].acc)
    (hinv : z.invalid = s.prot.feeders[f].invalid) : OneKept f e s (setFeeder f z s) :=
  ⟨⟨fun _ _ => rfl, rfl, rfl⟩, rfl, by rw [isOperated, feeder_setFeeder, hop, isOperated], by rw [feeder_setFeeder, hacc],
    by rw [feeder_setFeeder, hinv]⟩

theorem oneKept_whenS {b : Bool} {g : State → State} (h : OneKept f e s (g s)) : OneKept f e s (whenS b g s) := by
  cases b
  · exact .refl f e s
  · exact h

theorem oneKept_definiteStep {k : Fin 13} (hne : k.val ≠ e.val) (d : Nat) (s : State) : OneKept f e s (definiteStep f k d s) := by
  unfold definiteStep
  split
  · exact oneKept_setOp hne _ s
  · exact oneKept_whenS (oneKept_setOp hne _ s)

theorem oneKept_idmtStep {k : Fin 7} (hne : k ≠ e) (mm : Rat) (dt : Nat) (s : State) : OneKept f e s (idmtStep f k mm dt s) := by
  have hv : k.val ≠ e.val := fun h => hne (Fin.ext h)
  unfold idmtStep
  dsimp only
  split
  · exact (oneKept_setAcc hne _ s).trans (oneKept_whenS (oneKept_setOp hv _ _))
  · have h1 := oneKept_setOp (s := s) (f := f) hv false
    generalize setOp f k false s = x at h1 ⊢
    split
    · exact h1.trans (oneKept_setAcc hne _ x)
    · split
      · exact h1
      · split
        · exact h1.trans (oneKept_setAcc hne _ x)
        · exact h1.trans (oneKept_setAcc hne _ x)

theorem oneKept_clearFast (f : Fin 8) (e : Fin 7) (s : State) : OneKept f e s (clearFast f s) := oneKept_record rfl rfl rfl

theorem oneKept_ifClear (f : Fin 8) (e k : Fin 7) (s : State) : OneKept f e s (if k = 0 then clearFast f s else s) := by
  split
  · exact oneKept_clearFast f e s
  · exact .refl f e s

theorem oneKept_ocStep {k : Fin 7} (hne : k ≠ e) (m : FdrMeas) (dt : Nat) (s : State) : OneKept f e s (ocStep f m dt k s) := by
  have hv : k.val ≠ e.val := fun h => hne (Fin.ext h)
  unfold ocStep
  dsimp only
  have h1 := oneKept_ifClear f e k s
  generalize (if k = 0 then clearFast f s else s) = x at h1 ⊢
  split
  · exact .refl f e s
  · split
    · exact ((h1.trans (oneKept_setStarted (k := k.castLE (by omega)) hv _ x)).trans (oneKept_setOp hv _ _)).trans (oneKept_setAcc hne _ _)
    · split
      · exact h1.trans (oneKept_record rfl rfl rfl)
      · have h2 := h1.trans (oneKept_setStarted (f := f) (k := k.castLE (by omega)) hv (ocQuantity x f k m).2 x)
        generalize setStarted f (k.castLE (by omega)) (ocQuantity x f k m).2 x = y at h2 ⊢
        split
        · exact h2.trans (oneKept_definiteStep (k := k.castLE (by omega)) hv _ y)
        · have h3 := h2.trans (oneKept_record (f := f) (e := e) (s := y) (z := { y.prot.feeders[f] with
            lastM := y.prot.feeders[f].lastM.set k (if pickupOf y f k = 0 then 0 else sqrtR (ocQuantity x f k m).1 / pickupOf y f k) }) rfl rfl rfl)
          exact h3.trans (oneKept_idmtStep hne _ dt _)

theorem oneKept_vfStep (f : Fin 8) (e : Fin 7) (m : FdrMeas) (dt : Nat) (v : Fin 4) (s : State) : OneKept f e s (vfStep f m dt v s) := by
  have hv : (⟨9 + v.val, by omega⟩ : Fin 13).val ≠ e.val := show 9 + v.val ≠ e.val by omega
  unfold vfStep
  dsimp only
  split
  · exact (oneKept_setStarted hv _ s).trans (oneKept_setOp hv _ _)
  · split
    · exact oneKept_record rfl rfl rfl
    · exact (oneKept_setStarted hv _ s).trans (oneKept_definiteStep hv _ _)

/-- What an update makes of a current element: a disabled one is at rest, a non-directional one is started as its quantity exceeds its
threshold. -/
structure ElementJudged (f : Fin 8) (e : Fin 7) (m : FdrMeas) (s t : State) : Prop where
  disabled : pflg s (Reg.PROT_OC f e) F.PROT_OC_en = false → isStarted t f e = false ∧ isOperated t f e = false ∧
    (t.prot.feeders[f]).acc[e] = 0
  enabled : pflg s (Reg.PROT_OC f e) F.PROT_OC_en = true → ¬(e = 0 ∧ fastMode s f = true) → pfld s (Reg.PROT_OC f e) F.PROT_OC_dir = 0 →
    isStarted t f e = (ocQuantity s f e m).2

theorem ElementJudged.kept (h : ElementJudged f e m s x) (hk : OneKept f e x t) : ElementJudged f e m s t :=
  ⟨fun hd => by rw [hk.started, hk.op, hk.acc]; exact h.disabled hd, fun h1 h2 h3 => hk.started.trans (h.enabled h1 h2 h3)⟩

/-- A judgement stands from any earlier state of the same settings and the same start. -/
theorem ElementJudged.before (hsame : SettingsSame s x) (hst : isStarted x f e = isStarted s f e) (h : ElementJudged f e m x t) :
    ElementJudged f e m s t := by
  have hen : pflg x (Reg.PROT_OC f e) F.PROT_OC_en = pflg s (Reg.PROT_OC f e) F.PROT_OC_en := by rw [pflg, pflg, hsame.oc]
  refine ⟨fun hd => h.disabled (hen.trans hd), fun he hf hdir => ?_⟩
  rw [← hsame.fastMode] at hf
  exact (h.enabled (hen.trans he) hf ((hsame.oc f e _).trans hdir)).trans (hsame.ocQuantity f e m hst hdir)

theorem started_definiteStep (k : Fin 13) (d : Nat) (s : State) (n : Nat) : isStarted (definiteStep f k d s) f n = isStarted s f n := by
  unfold definiteStep
  split
  · rfl
  · unfold whenS
    split <;> rfl

theorem started_whenSetOp (b c : Bool) (k : Nat) (s : State) (n : Nat) : isStarted (whenS b (setOp f k c) s) f n = isStarted s f n := by
  cases b <;> rfl

theorem started_idmtStep (k : Fin 7) (mm : Rat) (dt : Nat) (s : State) (n : Nat) : isStarted (idmtStep f k mm dt s) f n = isStarted s f n := by
  unfold idmtStep
  dsimp only
  split
  · exact started_whenSetOp ..
  · split
    · rfl
    · split
      · rfl
      · split <;> rfl

theorem ocStep_judged (dt : Nat) (hsame : OneKept f e s y) (hheld : (if e = 4 ∨ e = 5 then m.i0Bad else m.iBad) = false) (hv : m.vBad = false) :
    ElementJudged f e m s (ocStep f m dt e y) := by
  have hen : pflg y (Reg.PROT_OC f e) F.PROT_OC_en = pflg s (Reg.PROT_OC f e) F.PROT_OC_en := by rw [pflg, pflg, hsame.same.oc]
  have hnotHeld : ∀ z : State, ocHeld z f e m.iBad m.i0Bad m.vBad = false := fun z => by
    unfold ocHeld
    rw [hheld, hv, Bool.and_false, Bool.or_false]
  have hclear := hsame.trans (oneKept_ifClear f e e y)
  refine ⟨fun hd => ?_, fun he hfast hdir => ?_⟩
  · have hslow : ¬(e = 0 ∧ fastMode y f = true) := fun ⟨h0, hm⟩ => by
      subst h0
      unfold fastMode at hm
      rw [show pflg y (Reg.PROT_OC f 0) F.PROT_OC_en = false from hen.trans hd] at hm
      exact Bool.false_ne_true hm
    have hd' : pflg (if e = 0 then clearFast f y else y) (Reg.PROT_OC f e) F.PROT_OC_en = false := by
      rw [pflg, hclear.same.oc]
      exact hd
    unfold ocStep
    rw [if_neg hslow]
    dsimp only
    generalize (if e = 0 then clearFast f y else y) = x at hd' ⊢
    rw [if_pos (by rw [hd']; rfl)]
    obtain ⟨hst, hop, -⟩ := setOp_setStarted f (e.castLE (by omega)) false false x
    have hst' : isStarted (setOp f e false (setStarted f (e.castLE (by omega)) false x)) f e = false := hst
    have hop' : isOperated (setOp f e false (setStarted f (e.castLE (by omega)) false x)) f e = false := hop
    generalize setOp f e false (setStarted f (e.castLE (by omega)) false x) = z at hst' hop' ⊢
    refine ⟨hst', ?_, ?_⟩
    · rw [isOperated, setAcc_feeder]
      exact hop'
    · rw [setAcc_feeder]
      exact Vector.getElem_set_self ..
  · have hslow : ¬(e = 0 ∧ fastMode y f = true) := by
      rw [hsame.same.fastMode]
      exact hfast
    have he' : pflg (if e = 0 then clearFast f y else y) (Reg.PROT_OC f e) F.PROT_OC_en = true := by
      rw [pflg, hclear.same.oc]
      exact he
    have hq := hclear.same.ocQuantity f e m hclear.started hdir
    unfold ocStep
    rw [if_neg hslow]
    dsimp only
    generalize (if e = 0 then clearFast f y else y) = x at he' hq ⊢
    rw [if_neg (by rw [he']; exact Bool.false_ne_true), if_neg (by rw [hnotHeld]; exact Bool.false_ne_true)]
    have hset : isStarted (setStarted f (e.castLE (by omega)) (ocQuantity x f e m).2 x) f e = (ocQuantity x f e m).2 :=
      (startSet_setStarted f (e.castLE (by omega)) (ocQuantity x f e m).2 x).flag
    rw [← hq]
    generalize (ocQuantity x f e m).2 = b at hset ⊢
    generalize setStarted f (e.castLE (by omega)) b x = z at hset ⊢
    split
    · exact (started_definiteStep ..).trans hset
    · exact (started_idmtStep ..).trans hset

theorem elementsStep_judged (hsame : OneKept f e s y) (hheld : (if e = 4 ∨ e = 5 then m.i0Bad else m.iBad) = false) (hv : m.vBad = false) :
    ElementJudged f e m s (elementsStep f m y) := by
  unfold elementsStep
  dsimp only
  refine ElementJudged.kept ?_ (oneKept_record rfl rfl rfl)
  refine forEach_keeps (P := ElementJudged f e m s) (fun v _ z hz => hz.kept (oneKept_vfStep f e m _ v z)) ?_
  exact forEach_once (n := e) (Pre := OneKept f e s) (Post := ElementJudged f e m s) (List.nodup_finRange 7) (List.mem_finRange e)
    (fun k _ hne z hz => hz.trans (oneKept_ocStep hne m _ z)) (fun k _ hne z hz => hz.kept (oneKept_ocStep hne m _ z))
    (fun z hz => ocStep_judged _ hz hheld hv) hsame

/-- The elements step under the settings of the update, and leave the invalid inputs. -/
theorem elementsStep_kept (f : Fin 8) (m : FdrMeas) (s : State) : SettingsSame s (elementsStep f m s) ∧
    ((elementsStep f m s).prot.feeders[f]).invalid = (s.prot.feeders[f]).invalid := by
  unfold elementsStep
  dsimp only
  let P : State → Prop := fun z => SettingsSame s z ∧ (z.prot.feeders[f]).invalid = (s.prot.feeders[f]).invalid
  have hkeep : ∀ (e : Fin 7) (x z : State), OneKept f e x z → P x → P z :=
    fun e x z h hx => ⟨hx.1.trans h.same, h.invalid.trans hx.2⟩
  refine hkeep 0 _ _ (oneKept_record rfl rfl rfl) ?_
  refine forEach_keeps (P := P) (fun v _ z => hkeep 0 _ _ (oneKept_vfStep f 0 m _ v z)) ?_
  refine forEach_keeps (P := P) (fun k _ z => ?_) ⟨.refl s, rfl⟩
  exact hkeep (if k = 0 then 1 else 0) _ _ (oneKept_ocStep (by split <;> omega) m _ z)

end Update

end Sys2Proof.Machine
end


section
/-! PROOFS. The samples of an update, and the update of all feeders, settled (R252 to R255, R276). -/

namespace Sys2Proof.Machine

open Sys2Proof Sys2Proof.Safety Sys2Proof.Laws

section Phasor

variable {f : Fin 8} {s x y b t : State} {p : PhasorSet}

/-! ### Windows -/

/-- The four samples that an update pushes, oldest last. -/
theorem pushSample_xs (w : SampleWords) (q : Rat) (x : SampleWin) : (pushSample w q x).xs =
    ((if w.usable then sampleValue w q else x.xs.getD 63 0) :: x.xs).take 64 := rfl

theorem pushSample_length (w : SampleWords) (q : Rat) {x : SampleWin} (h : x.xs.length = 64) : (pushSample w q x).xs.length = 64 := by
  rw [pushSample_xs, List.length_take, List.length_cons, h]
  rfl

/-- A window of 64 keeps its newest 63 under a new sample. -/
theorem pushSample_shift (w : SampleWords) (q : Rat) {x : SampleWin} (n : Nat) (hn : n < 63) :
    (pushSample w q x).xs[n + 1]? = x.xs[n]? := by
  rw [pushSample_xs, List.getElem?_take, if_pos (by omega), List.getElem?_cons_succ]

theorem pushFour_eq (ws : Vector SampleWords 4) (q d : Rat) (x : SampleWin) : ∃ y : SampleWin, (x.xs.length = 64 → y.xs.length = 64) ∧
    (∀ n, n < 61 → y.xs[n + 3]? = x.xs[n]?) ∧ pushFour ws q d x = pushSample ws[3] (q / 25) y := by
  refine ⟨pushSample ws[2] ((q - d) / 25) (pushSample ws[1] ((q - 2 * d) / 25) (pushSample ws[0] ((q - 3 * d) / 25) x)), fun h =>
    pushSample_length _ _ (pushSample_length _ _ (pushSample_length _ _ h)), fun n hn => ?_, rfl⟩
  rw [pushSample_shift _ _ (n + 2) (by omega), pushSample_shift _ _ (n + 1) (by omega), pushSample_shift _ _ n (by omega)]

/-- An interpolation at the instant of its first word is that word. -/
theorem sampleValue_at (w : SampleWords) {q : Rat} (h : q = 25 * w.tag0.toNat) : sampleValue w (q / 25) = q15Rat w.v0.toInt := by
  have hoff : q / 25 - w.tag0.toNat = 0 := by
    rw [h, mul_comm, mul_div_assoc, div_self (by norm_num), mul_one, sub_self]
  unfold sampleValue
  dsimp only
  rw [hoff]
  split
  · rfl
  · rw [show (0 / 65536 : Rat) = ((0 : Int) : Rat) by norm_num, Rat.floor_intCast]
    simp [q15]

/-- What four samples make of a full window. -/
theorem pushFour_effect (ws : Vector SampleWords 4) (q d : Rat) {x : SampleWin} (hlen : x.xs.length = 64) :
    (pushFour ws q d x).xs.length = 64 ∧ (pushFour ws q d x).xs.drop 4 = x.xs.take 60 ∧
    (pushFour ws q d x).repl.head? = some (!ws[3].usable) ∧
    (ws[3].usable = false → (pushFour ws q d x).xs.head? = x.xs[60]?) ∧
    (ws[3].usable = true → q = 25 * ws[3].tag0.toNat → (pushFour ws q d x).xs.head? = some (q15Rat ws[3].v0.toInt)) := by
  obtain ⟨y, hy, hshift, heq⟩ := pushFour_eq ws q d x
  rw [heq]
  have hylen := hy hlen
  refine ⟨pushSample_length _ _ hylen, ?_, rfl, fun hu => ?_, fun hu hq => ?_⟩
  · refine List.ext_getElem? fun n => ?_
    rw [List.getElem?_drop, List.getElem?_take]
    by_cases hn : n < 60
    · rw [if_pos hn, show 4 + n = (n + 3) + 1 by omega, pushSample_shift _ _ (n + 3) (by omega), hshift n (by omega)]
    · rw [if_neg hn, List.getElem?_eq_none]
      rw [pushSample_length _ _ hylen]
      omega
  · rw [pushSample_xs, hu, if_neg Bool.false_ne_true, List.head?_take, if_neg (by decide), List.head?_cons]
    have h60 : y.xs[63]? = x.xs[60]? := hshift 60 (by omega)
    rw [← h60, List.getD_eq_getElem?_getD, List.getElem?_eq_getElem (by omega), Option.getD_some]
  · rw [pushSample_xs, hu, if_pos rfl, List.head?_take, if_neg (by decide), List.head?_cons, sampleValue_at _ hq]

/-! ### The state in which the phasors stand -/

/-- Where an update takes its samples: the settings in force, the discriminator measured. -/
structure ReadyFrom (i : BitVec 64) (s b : State) : Prop where
  come : i.toNat ≤ nowNat b
  old : b.prot.old = []
  settings : ∀ a, ElemReg a → rd b a = rd s a
  fab : b.fab = s.fab
  started : ∀ (f : Fin 8) (e : Fin 7), isStarted b f e = isStarted s f e
  volt : b.prot.voltWin = s.prot.voltWin

theorem takeSettings_fields (s : State) : (takeSettings s).regs = s.regs ∧ (takeSettings s).prot.old = [] ∧ (takeSettings s).fab = s.fab ∧
    (takeSettings s).tai = s.tai ∧ (takeSettings s).prot.voltWin = s.prot.voltWin := ⟨rfl, rfl, rfl, rfl, rfl⟩

theorem reachNs_fields (s : State) (i : BitVec 64) : (reachNs s i).regs = s.regs ∧ (reachNs s i).fab = s.fab ∧
    (reachNs s i).prot = s.prot := ⟨rfl, rfl, rfl⟩

theorem isStarted_of_regs (h : t.regs = s.regs) (f : Fin 8) (e : Nat) : isStarted t f e = isStarted s f e := by
  unfold isStarted fbit fld rd
  rw [h]

theorem readyFrom_lmdArm (i : BitVec 64) (s : State) (hfit : i.toNat + 1 < 2 ^ 64) :
    ReadyFrom i s (lmdArm (takeSettings (reachNs s i))) := by
  have hreach : i.toNat ≤ nowNat (reachNs s i) := by
    have h := le_tai_reachNs hfit s
    rw [nowNat_eq]
    omega
  obtain ⟨hr, hf, hp⟩ := reachNs_fields s i
  generalize reachNs s i = r at hreach hr hf hp ⊢
  obtain ⟨hregs, hold, hfab, htai, hvolt⟩ := takeSettings_fields r
  generalize takeSettings r = x at hregs hold hfab htai hvolt ⊢
  have hk := fun f => elemKept_lmdArm f x
  generalize lmdArm x = y at hk ⊢
  have hnow : nowNat y = nowNat r := by rw [nowNat_eq, nowNat_eq, (hk 0).tai, htai]
  have hregs' : x.regs = s.regs := hregs.trans hr
  exact ⟨by rw [hnow]; exact hreach, (hk 0).old.trans hold, fun a ha => ((hk 0).settings a ha).trans (rd_of_regs hregs' a),
    (hk 0).fab.trans (hfab.trans hf), fun f e => ((hk f).started e (by omega) (by omega)).trans (isStarted_of_regs hregs' f e),
    (hk 0).volt.1.trans (hvolt.trans (congrArg ProtState.voltWin hp))⟩

/-- What taking the samples leaves. -/
theorem takeSamples_fields (w : PhasorSamples) (s : State) : (takeSamples w s).regs = s.regs ∧ (takeSamples w s).prot.old = s.prot.old ∧
    (takeSamples w s).fab = s.fab ∧ (takeSamples w s).tai = s.tai := ⟨rfl, rfl, rfl, rfl⟩

theorem takeSamples_volt (w : PhasorSamples) (s : State) (k : Fin 3) :
    (takeSamples w s).prot.voltWin[k] = pushFour w.volt[k] (nowNat s) (samplePeriod s) s.prot.voltWin[k] := by
  unfold takeSamples
  simp

/-- An update's samples taken, its settings in force. -/
def sampled (i : BitVec 64) (w : PhasorSamples) (s : State) : State := takeSamples w (lmdArm (takeSettings (reachNs s i)))

/-- The elements and the settings that an update starts from. -/
structure UpdateFrom (i : BitVec 64) (w : PhasorSamples) (s b : State) : Prop where
  come : i.toNat ≤ nowNat b
  old : b.prot.old = []
  settings : ∀ a, ElemReg a → rd b a = rd s a
  fab : b.fab = s.fab
  started : ∀ (f : Fin 8) (e : Fin 7), isStarted b f e = isStarted s f e
  volt : ∀ k : Fin 3, ∃ d : Rat, b.prot.voltWin[k] = pushFour w.volt[k] (nowNat b) d s.prot.voltWin[k]

theorem updateFrom_sampled (i : BitVec 64) (w : PhasorSamples) (s : State) (hfit : i.toNat + 1 < 2 ^ 64) : UpdateFrom i w s (sampled i w s) := by
  unfold sampled
  have hready := readyFrom_lmdArm i s hfit
  generalize lmdArm (takeSettings (reachNs s i)) = x at hready ⊢
  obtain ⟨hregs, hold, hfab, htai⟩ := takeSamples_fields w x
  have hvolt := takeSamples_volt w x
  generalize takeSamples w x = b at hregs hold hfab htai hvolt ⊢
  have hnow : nowNat b = nowNat x := by rw [nowNat_eq, nowNat_eq, htai]
  refine ⟨by rw [hnow]; exact hready.come, hold.trans hready.old, fun a ha => (rd_of_regs hregs a).trans (hready.settings a ha),
    hfab.trans hready.fab, fun f e => (isStarted_of_regs hregs f e).trans (hready.started f e), fun k => ⟨samplePeriod x, ?_⟩⟩
  rw [hvolt k, hnow, hready.volt]

theorem UpdateFrom.same {i : BitVec 64} {w : PhasorSamples} (h : UpdateFrom i w s b) : SettingsSame (takeSettings s) b := by
  obtain ⟨hregs, hold, hfab, -, -⟩ := takeSettings_fields s
  exact ⟨fun a ha => (h.settings a ha).trans (rd_of_regs hregs a).symm, h.old.trans hold.symm, h.fab.trans hfab.symm⟩

/-! ### The bus set -/

/-- The sequence voltages shown. -/
def busMeasShown (v : Vector Cx 3) (s : State) : State :=
  setF (setF s Reg.PROT_BUS_MEAS F.PROT_BUS_MEAS_v1 (min 65535 (phaseBase (seq1 v)))) Reg.PROT_BUS_MEAS
    F.PROT_BUS_MEAS_v2 (min 65535 (phaseBase (seq2 v)))

/-- What an update shows of the bus set, before the invalid inputs are noted. -/
def busShown (p : PhasorSet) (s : State) : State :=
  forEach (List.finRange 3) (fun (k : Fin 3) s => whenS (p.voltBad[k] && !s.prot.vInvalid[k]) (logN 0x600B 8 (4 + k.val)) s)
    (whenS (!(p.voltBad[0] || p.voltBad[1] || p.voltBad[2])) (busMeasShown (busVoltages s p.volt)) s)

/-- The invalid bus voltages noted. -/
def setVInvalid (v : Vector Bool 3) (s : State) : State := { s with prot := { s.prot with vInvalid := v } }

theorem busUpdate_eq (p : PhasorSet) (s : State) : busUpdate p s = setVInvalid p.voltBad (busShown p s) := rfl

theorem elemKept_setF_BUS (f : Fin 8) (G : Fld) (v : Nat) (s : State) : ElemKept f s (setF s Reg.PROT_BUS_MEAS G v) :=
  elemKept_setF (.inr (.inl rfl)) (by simp only [Reg.PROT_FDR_FLAGS, Reg.PROT_BUS_MEAS]; omega) G v s

theorem elemKept_busShown (f : Fin 8) (p : PhasorSet) (s : State) : ElemKept f s (busShown p s) :=
  (elemKept_whenS ((elemKept_setF_BUS f _ _ s).trans (elemKept_setF_BUS f _ _ _))).trans
    (elemKept_forEach (fun _ _ _ => elemKept_whenS (elemKept_logN ..)) _)

/-- The bus set of an update: its invalid voltages are those of its windows, and all else of the elements stays. -/
theorem busUpdate_effect (p : PhasorSet) (s : State) : (busUpdate p s).prot.vInvalid = p.voltBad ∧ SettingsSame s (busUpdate p s) ∧
    (∀ (f : Fin 8) (e : Fin 7), isStarted (busUpdate p s) f e = isStarted s f e) ∧ (busUpdate p s).ticks = s.ticks ∧
    (busUpdate p s).tai = s.tai ∧ (busUpdate p s).prot.voltWin = s.prot.voltWin ∧ (busUpdate p s).prot.curWin = s.prot.curWin := by
  rw [busUpdate_eq]
  have h := fun f => elemKept_busShown f p s
  generalize busShown p s = x at h ⊢
  obtain ⟨hset, hold, hfab⟩ := (h 0).same
  exact ⟨rfl, ⟨hset, hold, hfab⟩, fun f e => (h f).started e (by omega) (by omega), (h 0).ticks, (h 0).tai, (h 0).volt.1, (h 0).cur⟩

/-! ### The first half of an update -/

/-- What the first half of an update leaves of one feeder. -/
structure FirstDone (p : PhasorSet) (f : Fin 8) (b t : State) : Prop where
  same : SettingsSame b t
  lastUpd : (t.prot.feeders[f]).lastUpd = some (localNs b)
  invalid : (t.prot.feeders[f]).invalid = (p.feeders[f]).bad
  judged : ∀ e : Fin 7, (if e = 4 ∨ e = 5 then (feederMeas b f p).i0Bad else (feederMeas b f p).iBad) = false →
    (feederMeas b f p).vBad = false → ElementJudged f e (feederMeas b f p) b t

theorem FirstDone.kept (h : FirstDone p f b x) (hk : ElemKept f x t) : FirstDone p f b t :=
  ⟨h.same.trans hk.same, (congrArg ElemView.lastUpd hk.view).trans h.lastUpd, (congrArg ElemView.invalid hk.view).trans h.invalid,
    fun e h1 h2 => (h.judged e h1 h2).kept (hk.one e (by omega))⟩

/-- The invalid inputs of a feeder noted: its elements stand as they did. -/
theorem noteInvalid_effect (f : Fin 8) (p : PhasorSet) (s : State) : SettingsSame s (noteInvalid f p s) ∧
    (∀ e : Fin 7, isStarted (noteInvalid f p s) f e = isStarted s f e) ∧
    ((noteInvalid f p s).prot.feeders[f]).invalid = (p.feeders[f]).bad ∧ (noteInvalid f p s).ticks = s.ticks := by
  obtain ⟨b, n, heq⟩ := noteInvalid_eq f p s
  rw [heq]
  have h1 := elemKept_invalidLogged f f p s
  generalize invalidLogged f p s = x at h1 ⊢
  have h2 : SettingsSame x (setFeeder f { x.prot.feeders[f] with invalid := (p.feeders[f]).bad, resLogged := b } x) :=
    ⟨fun _ _ => rfl, rfl, rfl⟩
  have hst : ∀ e : Fin 7, isStarted (setFeeder f { x.prot.feeders[f] with invalid := (p.feeders[f]).bad, resLogged := b } x) f e =
    isStarted x f e := fun _ => rfl
  have hinv := congrArg FeederState.invalid (feeder_setFeeder f { x.prot.feeders[f] with invalid := (p.feeders[f]).bad, resLogged := b } x)
  have hticks : (setFeeder f { x.prot.feeders[f] with invalid := (p.feeders[f]).bad, resLogged := b } x).ticks = x.ticks := rfl
  generalize setFeeder f { x.prot.feeders[f] with invalid := (p.feeders[f]).bad, resLogged := b } x = y at h2 hst hinv hticks ⊢
  have h3 := elemKept_setF_STATE f f F.PROT_FDR_STATE_phasor_invalid n y
  exact ⟨(h1.same.trans h2).trans h3.same, fun e => (h3.started e (by omega) (by omega)).trans ((hst e).trans
    (h1.started e (by omega) (by omega))), (congrArg ElemView.invalid h3.view).trans hinv, h3.ticks.trans (hticks.trans h1.ticks)⟩

theorem elementsStep_lastUpd (f : Fin 8) (m : FdrMeas) (s : State) :
    ((elementsStep f m s).prot.feeders[f]).lastUpd = some (localNs (elementsStep f m s)) := by
  unfold elementsStep
  dsimp only
  generalize forEach (List.finRange 4) _ _ = x
  rw [feeder_setFeeder]
  rfl

theorem elementsStep_ticks (f : Fin 8) (m : FdrMeas) (s : State) : (elementsStep f m s).ticks = s.ticks :=
  keeps_of_ev (elementsStep_ev (f0 := f) (m := m) (foot_self _) (Ev.refl _ s)) (p := .ticks) rfl

/-- The measured quantities of a feeder shown, and its elements stepped. -/
theorem feederFirst_done (hk : ElemKept f b y) (hon : feederOn b f = true) : FirstDone p f b (feederFirst p f y) := by
  have hony : feederOn y f = true := (hk.same.feederOn f).trans hon
  rw [feederFirst_eq p hony]
  dsimp only
  obtain ⟨hsame1, hst1, hinv1, htick1⟩ := noteInvalid_effect f p y
  generalize noteInvalid f p y = x1 at hsame1 hst1 hinv1 htick1 ⊢
  have h2 : ElemKept f x1 (firstMeasured p f x1) := elemKept_record f f rfl rfl
  generalize firstMeasured p f x1 = x2 at h2 ⊢
  have hsame2 : SettingsSame b x2 := (hk.same.trans hsame1).trans h2.same
  have hst2 : ∀ e : Fin 7, isStarted x2 f e = isStarted b f e := fun e =>
    (h2.started e (by omega) (by omega)).trans ((hst1 e).trans (hk.started e (by omega) (by omega)))
  have hm : feederMeas x2 f p = feederMeas b f p := hsame2.feederMeas f p
  rw [hm]
  obtain ⟨m, hmeq⟩ : ∃ m, feederMeas b f p = m := ⟨_, rfl⟩
  rw [hmeq]
  have h3 := elemKept_shown f f m x2
  generalize directionStep f m (statusStep f (if m.iBad || m.vBad then x2 else showMeas f m x2)) = x3 at h3 ⊢
  have hinv3 : x3.prot.feeders[f].invalid = (p.feeders[f]).bad :=
    (congrArg ElemView.invalid h3.view).trans ((congrArg ElemView.invalid h2.view).trans hinv1)
  obtain ⟨hsame4, hinv4⟩ := elementsStep_kept f m x3
  have hlast4 := elementsStep_lastUpd f m x3
  have htick4 := elementsStep_ticks f m x3
  have hj4 : ∀ e : Fin 7, (if e = 4 ∨ e = 5 then m.i0Bad else m.iBad) = false → m.vBad = false →
      ElementJudged f e m b (elementsStep f m x3) := fun e h1 hv =>
    (elementsStep_judged (.refl f e x3) h1 hv).before (hsame2.trans h3.same) ((h3.started e (by omega) (by omega)).trans (hst2 e))
  generalize elementsStep f m x3 = x4 at hinv4 hlast4 htick4 hsame4 hj4 ⊢
  have htick : x4.ticks = b.ticks := htick4.trans (h3.ticks.trans (h2.ticks.trans (htick1.trans hk.ticks)))
  have hdone : FirstDone p f b x4 := ⟨(hsame2.trans h3.same).trans hsame4, hlast4.trans (congrArg some (localNs_of_ticks htick)),
    hinv4.trans hinv3, by rw [hmeq]; exact hj4⟩
  exact hdone.kept (elemKept_lmdQualify f f p x4)

/-! ### The whole update -/

/-- The windows, the instant and the tracked frequency of an update stay. -/
structure WinKept (s t : State) : Prop where
  volt : t.prot.voltWin = s.prot.voltWin
  invalid : t.prot.vInvalid = s.prot.vInvalid
  cur : t.prot.curWin = s.prot.curWin
  ticks : t.ticks = s.ticks
  tai : t.tai = s.tai
  freq : rd t Reg.PROT_FREQ = rd s Reg.PROT_FREQ
  old : t.prot.old = s.prot.old

theorem WinKept.trans (h : WinKept s x) (h' : WinKept x t) : WinKept s t :=
  ⟨h'.volt.trans h.volt, h'.invalid.trans h.invalid, h'.cur.trans h.cur, h'.ticks.trans h.ticks, h'.tai.trans h.tai, h'.freq.trans h.freq,
    h'.old.trans h.old⟩

theorem ElemKept.win (h : ElemKept f s t) : WinKept s t :=
  ⟨h.volt.1, h.volt.2, h.cur, h.ticks, h.tai, h.settings _ (.inr (.inl rfl)), h.old⟩

theorem phasors_of_win (hv : t.prot.voltWin = s.prot.voltWin) (hc : t.prot.curWin = s.prot.curWin) (htai : t.tai = s.tai)
    (hf : rd t Reg.PROT_FREQ = rd s Reg.PROT_FREQ) : phasors t = phasors s := by
  have hp : samplePeriod t = samplePeriod s := by unfold samplePeriod; rw [fld_of_rd hf]
  have hn : nowNat t = nowNat s := by rw [nowNat_eq, nowNat_eq, htai]
  unfold phasors
  rw [hv, hc, hp, hn]

/-- A phasor update after the bus set. -/
def updateRest (p : PhasorSet) (s : State) : State :=
  refreshLines (lmdRearm (forEach (List.finRange 8) feederSecond (lmdTake (forEach (List.finRange 8) (feederFirst p) s))))

theorem phasorUpdate_eq (i : BitVec 64) (w : PhasorSamples) (s : State) : execPhasorUpdate i w s =
    .next (updateRest (phasors (sampled i w s)) (busUpdate (phasors (sampled i w s)) (sampled i w s))) := rfl

theorem elemKept_secondHalf (f : Fin 8) (s : State) :
    ElemKept f s (refreshLines (lmdRearm (forEach (List.finRange 8) feederSecond (lmdTake s)))) :=
  (((elemKept_lmdTake f s).trans (elemKept_forEach (fun h _ y => elemKept_feederSecond f h y) _)).trans (elemKept_lmdRearm f _)).trans
    (elemKept_refreshLines f _)

theorem updateRest_win (p : PhasorSet) (s : State) : WinKept s (updateRest p s) := by
  refine WinKept.trans (x := forEach (List.finRange 8) (feederFirst p) s) ?_ (elemKept_secondHalf 0 _).win
  refine forEach_keeps (P := WinKept s) (fun h _ z hz => hz.trans ?_) ⟨rfl, rfl, rfl, rfl, rfl, rfl, rfl⟩
  exact (elemKept_feederFirst_ne (f := if h = 0 then 1 else 0) (by split <;> omega) p z).win

theorem updateRest_done (p : PhasorSet) (hon : feederOn s f = true) : FirstDone p f s (updateRest p s) :=
  (forEach_once (n := f) (Pre := ElemKept f s) (Post := FirstDone p f s) (List.nodup_finRange 8) (List.mem_finRange f)
    (fun _ _ hne z hz => hz.trans (elemKept_feederFirst_ne hne.symm p z))
    (fun _ _ hne z hz => hz.kept (elemKept_feederFirst_ne hne.symm p z))
    (fun _ hz => feederFirst_done hz hon) (.refl f s)).kept (elemKept_secondHalf f _)

/-- What an update leaves of the windows and of the feeders that are on. -/
structure PhasorDone (i : BitVec 64) (w : PhasorSamples) (s t : State) : Prop where
  come : i.toNat ≤ nowNat t
  old : t.prot.old = []
  volt : ∀ k : Fin 3, ∃ d : Rat, t.prot.voltWin[k] = pushFour w.volt[k] (nowNat t) d s.prot.voltWin[k]
  invalid : t.prot.vInvalid = t.prot.voltWin.map windowBad
  lastUpd : ∀ f : Fin 8, feederOn (takeSettings s) f = true → (t.prot.feeders[f]).lastUpd = some (localNs t)
  bad : ∀ f : Fin 8, feederOn (takeSettings s) f = true → (t.prot.feeders[f]).invalid = ((phasors t).feeders[f]).bad
  judged : ∀ f : Fin 8, feederOn (takeSettings s) f = true → ∀ e : Fin 7,
    (if e = 4 ∨ e = 5 then (feederMeas (takeSettings s) f (phasors t)).i0Bad else (feederMeas (takeSettings s) f (phasors t)).iBad) = false →
    (feederMeas (takeSettings s) f (phasors t)).vBad = false →
    ElementJudged f e (feederMeas (takeSettings s) f (phasors t)) (takeSettings s) t

theorem phasorUpdate_effect (i : BitVec 64) (w : PhasorSamples) (s : State) (hfit : i.toNat + 1 < 2 ^ 64) :
    ∃ t, execPhasorUpdate i w s = .next t ∧ PhasorDone i w s t := by
  refine ⟨_, phasorUpdate_eq i w s, ?_⟩
  have hfrom := updateFrom_sampled i w s hfit
  generalize sampled i w s = b at hfrom ⊢
  have hvolt : (phasors b).voltBad = b.prot.voltWin.map windowBad := rfl
  obtain ⟨p, hp⟩ : ∃ p, phasors b = p := ⟨_, rfl⟩
  rw [hp] at hvolt ⊢
  obtain ⟨hinv, hsame, hst, htick, htai, hvw, hcw⟩ := busUpdate_effect p b
  generalize busUpdate p b = c at hinv hsame hst htick htai hvw hcw ⊢
  have hw := updateRest_win p c
  have hd : ∀ f : Fin 8, feederOn c f = true → FirstDone p f c (updateRest p c) := fun f hon => updateRest_done p hon
  generalize updateRest p c = t at hw hd ⊢
  have hnow : nowNat t = nowNat b := by rw [nowNat_eq, nowNat_eq, hw.tai, htai]
  have hwin : t.prot.voltWin = b.prot.voltWin := hw.volt.trans hvw
  have hpt : phasors t = p := (phasors_of_win hwin (hw.cur.trans hcw) (hw.tai.trans htai)
    (hw.freq.trans (hsame.settings _ (.inr (.inl rfl))))).trans hp
  have hu : SettingsSame (takeSettings s) c := hfrom.same.trans hsame
  have hus : ∀ (f : Fin 8) (e : Fin 7), isStarted c f e = isStarted (takeSettings s) f e := fun f e => by
    rw [hst, hfrom.started]
    exact (isStarted_of_regs (takeSettings_fields s).1 f e).symm
  have hon : ∀ f : Fin 8, feederOn (takeSettings s) f = true → feederOn c f = true := fun f h => (hu.feederOn f).trans h
  have hold : t.prot.old = [] := hw.old.trans (hsame.old.trans hfrom.old)
  refine ⟨by rw [hnow]; exact hfrom.come, hold, fun k => ?_, by rw [hw.invalid, hinv, hvolt, hwin], fun f h => ?_, fun f h => ?_, fun f h e => ?_⟩
  · obtain ⟨d, hd⟩ := hfrom.volt k
    exact ⟨d, by rw [hwin, hnow]; exact hd⟩
  · rw [(hd f (hon f h)).lastUpd, localNs_of_ticks hw.ticks]
  · rw [(hd f (hon f h)).invalid, hpt]
  · rw [hpt, ← hu.feederMeas f p]
    exact fun h1 h2 => ((hd f (hon f h)).judged e h1 h2).before hu (hus f e)

/-- R252 to R256, R276. -/
theorem phasorUpdate_clause (i : BitVec 64) (x : PhasorSamples) (s : State) (hfit : i.toNat + 1 < 2 ^ 64) : ∃ t, exec (.phasorUpdate i x) s = .next t ∧
    i.toNat ≤ nowNat t ∧ t.prot.old = [] ∧
    (∀ k : Fin 3, (s.prot.voltWin[k]).xs.length = 64 → let w := x.volt[k][3]
      (t.prot.voltWin[k]).xs.length = 64 ∧ (t.prot.voltWin[k]).xs.drop 4 = (s.prot.voltWin[k]).xs.take 60 ∧
      (t.prot.voltWin[k]).repl.head? = some (!w.usable) ∧
      (w.usable = false → (t.prot.voltWin[k]).xs.head? = (s.prot.voltWin[k]).xs[60]?) ∧
      (w.usable = true → (w.tag1 - w.tag0).toNat ≠ 0 → nowNat t = 25 * w.tag0.toNat →
        (t.prot.voltWin[k]).xs.head? = some (q15Rat w.v0.toInt))) ∧
    (∀ k : Fin 3, t.prot.vInvalid[k] = decide (8 < (t.prot.voltWin[k]).repl.count true)) ∧
    let p := phasors t; let u := takeSettings s; ∀ f : Fin 8, feederOn u f = true →
      (t.prot.feeders[f]).lastUpd = some (localNs t) ∧ (t.prot.feeders[f]).invalid = (p.feeders[f]).bad ∧
      ∀ e : Fin 7, (if e = 4 ∨ e = 5 then (feederMeas u f p).i0Bad else (feederMeas u f p).iBad) = false →
        (feederMeas u f p).vBad = false →
        (pflg u (Reg.PROT_OC f e) F.PROT_OC_en = false → isStarted t f e = false ∧ isOperated t f e = false ∧
          (t.prot.feeders[f]).acc[e] = 0) ∧
        (pflg u (Reg.PROT_OC f e) F.PROT_OC_en = true → ¬ (e = 0 ∧ fastMode u f = true) →
          pfld u (Reg.PROT_OC f e) F.PROT_OC_dir = 0 → isStarted t f e = (ocQuantity u f e (feederMeas u f p)).2) := by
  obtain ⟨t, hexec, h⟩ := phasorUpdate_effect i x s hfit
  refine ⟨t, Eq.trans (b := execPhasorUpdate i x s) rfl hexec, h.come, h.old, fun k hlen => ?_, fun k => ?_, ?_⟩
  · obtain ⟨d, hd⟩ := h.volt k
    obtain ⟨h1, h2, h3, h4, h5⟩ := pushFour_effect x.volt[k] (nowNat t) d hlen
    rw [hd]
    exact ⟨h1, h2, h3, h4, fun hu _ hq => h5 hu (by rw [hq]; push_cast; ring)⟩
  · rw [h.invalid]
    show (t.prot.voltWin.map windowBad)[k] = windowBad t.prot.voltWin[k]
    simp
  · exact fun f hon => ⟨h.lastUpd f hon, h.bad f hon, fun e h1 h2 => ⟨(h.judged f hon e h1 h2).disabled, (h.judged f hon e h1 h2).enabled⟩⟩

/-- R265: the fast 50P element. -/
theorem fast50p_clause (f : Fin 8) (p : Fin 3) (q : BitVec 16) (usable : Bool) (s : State) :
    (feederOn s f = false ∨ fastMode s f = false → exec (.fast50p f p q usable) s = .next s) ∧
    (feederOn s f = true → fastMode s f = true →
      let x := s.prot.feeders[f]
      let n := pfld s (Reg.PROT_OC f 0) F.PROT_OC_fast_n + 1
      let i : Rat := q15Rat q.toInt * iScale s f / rated s f
      let pk : Rat := (pfld s (Reg.PROT_OC f 0) F.PROT_OC_pickup : Rat) / 100
      let na := if usable = true ∧ 2 * pk * pk < i * i then x.fastAbove[p] + 1 else 0
      let nb := if usable = true ∧ i * i < 2 * (19 / 20 * pk) * (19 / 20 * pk) then x.fastBelow[p] + 1 else 0
      let ops := x.fastOp.set p (if x.fastOp[p] then decide (nb < n) else decide (n ≤ na))
      let any := ops.toList.any id
      ∃ t, exec (.fast50p f p q usable) s = .next t ∧ (t.prot.feeders[f]).fastAbove[p] = na ∧
        (t.prot.feeders[f]).fastBelow[p] = nb ∧ (t.prot.feeders[f]).fastOp = ops ∧ isOperated t f 0 = any ∧
        isStarted t f 0 = any ∧
        fld t (Reg.PROT_FDR_COUNT f) F.PROT_FDR_COUNT_trip_count = (if any && !isOperated s f 0 && !feederBlocked s f then
          min (2 ^ F.PROT_FDR_COUNT_trip_count.w - 1) (fld s (Reg.PROT_FDR_COUNT f) F.PROT_FDR_COUNT_trip_count + 1)
          else fld s (Reg.PROT_FDR_COUNT f) F.PROT_FDR_COUNT_trip_count)) := by
  refine ⟨fun hoff => ?_, fun hon hfast => ?_⟩
  · refine Eq.trans (b := execFast50p f p q usable s) rfl ?_
    refine if_pos ?_
    obtain h | h := hoff
    · exact .inl (by rw [h]; rfl)
    · exact .inr (by rw [h]; rfl)
  · have hexec := fast50p_on f p q usable s hon hfast
    intro x n i pk na nb ops any
    exact ⟨_, hexec, fastTaken_effect f p na nb ops s⟩

end Phasor

end Sys2Proof.Machine

namespace Sys2Proof.Proofs

open Sys2Proof Sys2Proof.Machine Sys2Proof.Safety

/-- Settles O46: an update by its halves over the feeders; the small elements by their own rules. -/
theorem protElements : Obligations.ProtElements := by
  unfold Obligations.ProtElements
  exact ⟨phasorUpdate_clause, protOperate_clause, protOperate_none, fast50p_clause, freqTrack_clause, thermalUpdate_clause, thermalSave_clause,
    unit32Operate_none, unit32Operate_clause⟩

end Sys2Proof.Proofs
end


section
/-! PROOFS. The recorder's commands: arming, disarming, triggers, binary changes, closing, storage and re-arm (R284 to R294). -/

namespace Sys2Proof.Machine

open Sys2Proof Sys2Proof.Safety Sys2Proof.Laws

section Recorder

variable {s x t : State}

/-! ### What the plan's figures are read from -/

/-- Only the registers that show the recorder changed. -/
abbrev RecShown (s t : State) : Prop := OnlyRegs [Reg.REC_STATUS, Reg.REC_CAP, Reg.REC_FILL] s t

theorem ne_shown_ACH (c : Nat) : Reg.REC_ACH c ∉ [Reg.REC_STATUS, Reg.REC_CAP, Reg.REC_FILL] := by
  simp only [Reg.REC_ACH, Reg.REC_STATUS, Reg.REC_CAP, Reg.REC_FILL, List.mem_cons, List.not_mem_nil, or_false]
  omega

theorem achans_congr (h : ∀ c : Fin 64, rd t (Reg.REC_ACH c) = rd s (Reg.REC_ACH c)) : achans t = achans s := by
  unfold achans
  congr 1
  funext c
  exact flg_of_rd (h c) _

theorem rowBytes_of_shown (h : RecShown s t) : rowBytes t = rowBytes s := by
  unfold rowBytes recK
  rw [achans_congr (fun c => h _ (ne_shown_ACH c)), fld_of_rd (h Reg.REC_CFG (by decide))]

theorem recCap_of_shown (h : RecShown s t) : recCap t = recCap s := by
  unfold recCap
  rw [rowBytes_of_shown h]

theorem recState_of_rd (h : rd t Reg.REC_STATUS = rd s Reg.REC_STATUS) : recState t = recState s := fld_of_rd h _

theorem rd_showFill {a : Nat} (ha : a ≠ Reg.REC_FILL) (s : State) : rd (showFill s) a = rd s a := by
  unfold showFill
  rw [rd_setF_ne _ _ _ ha, rd_setF_ne _ _ _ ha]

theorem recd_showFill (s : State) : (showFill s).recd = s.recd := rfl

theorem recd_logEvent (c q : Nat) (e : Word) (s : State) : (logEvent c q e s).recd = s.recd :=
  keeps_of_ev (f := ⟨[.log], [.cmd], false⟩) (p := .recd) (ev_logEvent (by decide) (by decide) (Ev.refl _ s)) rfl

theorem recState_logEvent (c q : Nat) (e : Word) (s : State) : recState (logEvent c q e s) = recState s :=
  recState_of_rd (rd_logEvent s c q e (by decide) (by decide))

theorem recState_setRecState (n : Nat) (h : n < 8) (s : State) : recState (setRecState n s) = n :=
  (fld_setF s _ _ _ (by decide)).trans (Nat.mod_eq_of_lt h)

theorem recState_setStatus (G : Fld) (hG : 3 ≤ G.lo) (v : Nat) (s : State) : recState (setF s Reg.REC_STATUS G v) = recState s :=
  fld_setF_disj s _ _ _ _ (.inl hG)

/-! ### Arming -/

/-- The plan as an arming takes it: nothing gathered yet. -/
def armedPlan (op : Option (Fin 16)) (s : State) : State :=
  let s := setRec { s.recd with bin := allPoints s, op := op, trigs := [] } s
  let notes := (s.recd.accAt.map (fun t => ({ at' := t, theta := 0, kind := 0 } : RecNote))).toList
  setRec { (clearPlan s).recd with next := some (nextInterval s), notes := notes } s

/-- ARMED, with no re-arm waiting. -/
def armedShown (s : State) : State := setF (setRecState recArmed s) Reg.REC_STATUS F.REC_STATUS_rearm_wait 0

theorem armNow_eq (src : Nat) (op : Option (Fin 16)) (s : State) : armNow src op s =
    logEvent 0x7001 src (BitVec.ofNat 32 (min 0xFFFFFFFF (recCap (armedShown (armedPlan op s)))))
      (showFill (showCap (armedShown (armedPlan op s)))) := rfl

theorem armedPlan_fields (op : Option (Fin 16)) (s : State) : (armedPlan op s).regs = s.regs ∧ (armedPlan op s).log = s.log ∧
    (armedPlan op s).recd.rows = [] ∧ (armedPlan op s).recd.trigs = [] ∧ (armedPlan op s).recd.next = some (nextInterval s) ∧
    (armedPlan op s).recd.cur = s.recd.cur ∧ (armedPlan op s).recd.awaiting = s.recd.awaiting ∧
    (armedPlan op s).recd.stored = s.recd.stored ∧ (armedPlan op s).busReply = s.busReply ∧
    (armedPlan op s).ticks = s.ticks := ⟨rfl, rfl, rfl, rfl, rfl, rfl, rfl, rfl, rfl, rfl⟩

theorem shown_armedShown (s : State) : RecShown s (armedShown s) := fun a ha => by
  have hne : a ≠ Reg.REC_STATUS := fun h => ha (h ▸ List.mem_cons_self)
  rw [armedShown, setRecState, rd_setF_ne _ _ _ hne, rd_setF_ne _ _ _ hne]

theorem shown_showCap (s : State) : RecShown s (showCap s) := fun a ha => rd_wr_ne _ _ (by rintro rfl; exact ha (by decide))

theorem shown_showFill (s : State) : RecShown s (showFill s) := fun a ha => rd_showFill (by rintro rfl; exact ha (by decide)) s

theorem shown_of_regs (h : t.regs = s.regs) : RecShown s t := fun a _ => rd_of_regs h a

/-- A plan armed: what it begins with, and what is kept. -/
structure PlanArmed (s t : State) : Prop where
  state : recState t = recArmed
  rows : t.recd.rows = []
  trigs : t.recd.trigs = []
  next : t.recd.next = some (nextInterval s)
  cap : rd t Reg.REC_CAP = BitVec.ofNat 32 (recCap s)
  waits : flg t Reg.REC_STATUS F.REC_STATUS_rearm_wait = false
  cur : t.recd.cur = s.recd.cur
  awaiting : t.recd.awaiting = s.recd.awaiting
  reply : t.busReply = s.busReply
  ticks : t.ticks = s.ticks

theorem armed_before_event (op : Option (Fin 16)) (s : State) : PlanArmed s (showFill (showCap (armedShown (armedPlan op s)))) ∧
    RecShown s (showFill (showCap (armedShown (armedPlan op s)))) ∧
    (showFill (showCap (armedShown (armedPlan op s)))).log = s.log ∧ recCap (armedShown (armedPlan op s)) = recCap s := by
  obtain ⟨hregs, hlog, hrows, htrigs, hnext, hcur, hawait, -, hreply, hticks⟩ := armedPlan_fields op s
  generalize armedPlan op s = x at *
  have hshown : RecShown s (armedShown x) := onlyRegs_trans (shown_of_regs hregs) (shown_armedShown x)
  have hcap : recCap (armedShown x) = recCap s := recCap_of_shown hshown
  refine ⟨⟨?_, hrows, htrigs, hnext, ?_, ?_, hcur, hawait, hreply, hticks⟩,
    onlyRegs_trans (onlyRegs_trans hshown (shown_showCap _)) (shown_showFill _), hlog, hcap⟩
  · rw [recState_of_rd (rd_showFill (by decide) _), showCap, recState_of_rd (rd_wr_ne _ _ (by decide)), armedShown,
      recState_setStatus _ (by decide), recState_setRecState _ (by decide)]
  · rw [rd_showFill (by decide), showCap, rd_wr, hcap]
  · rw [flg_of_rd (rd_showFill (by decide) _), showCap, flg_of_rd (rd_wr_ne _ _ (by decide)), armedShown, flg_setF _ _ _ _ (by decide)]
    rfl

theorem PlanArmed.logEvent (h : PlanArmed s t) (c q : Nat) (e : Word) : PlanArmed s (logEvent c q e t) := by
  have hr := recd_logEvent c q e t
  have hrd : ∀ a, a ≠ Reg.CMD_STATUS → a ≠ Reg.CMD_EVT_LOST → rd (Machine.logEvent c q e t) a = rd t a := fun a => rd_logEvent t c q e
  refine ⟨(recState_logEvent c q e t).trans h.state, ?_, ?_, ?_, (hrd _ (by decide) (by decide)).trans h.cap,
    (flg_of_rd (hrd _ (by decide) (by decide)) _).trans h.waits, ?_, ?_, (logEvent_busReply ..).trans h.reply,
    (logEvent_ticks ..).trans h.ticks⟩
  · rw [hr]; exact h.rows
  · rw [hr]; exact h.trigs
  · rw [hr]; exact h.next
  · rw [hr]; exact h.cur
  · rw [hr]; exact h.awaiting

theorem armNow_armed (src : Nat) (op : Option (Fin 16)) (s : State) : PlanArmed s (armNow src op s) := by
  rw [armNow_eq]
  exact (armed_before_event op s).1.logEvent _ _ _

theorem armNow_logged (src : Nat) (op : Option (Fin 16)) (hroom : Room 1 s) :
    Logged [(0x7001, src, BitVec.ofNat 32 (min 0xFFFFFFFF (recCap s)))] s (armNow src op s) ∧ RecShown s (armNow src op s) := by
  obtain ⟨-, hshown, hlog, hcap⟩ := armed_before_event op s
  rw [armNow_eq, hcap]
  refine ⟨logged_logEvent _ _ _ hlog hroom, fun a ha => ?_⟩
  rw [rd_logEvent_room _ _ _ _ (by rw [hlog]; exact hroom), hshown a ha]

/-- Every refusal of Table 10.4 has a status of one byte. -/
def ByteStatus (o : Option (Nat × Nat)) : Prop := ∀ e, o = some e → e.1 < 256

theorem byteStatus_none : ByteStatus none := fun _ h => nomatch h

theorem byteStatus_some {a b : Nat} (h : a < 256) : ByteStatus (some (a, b)) := fun e he => by
  cases he
  exact h

theorem byteStatus_ite {c : Prop} [Decidable c] {o p : Option (Nat × Nat)} (ho : ByteStatus o) (hp : ByteStatus p) :
    ByteStatus (if c then o else p) := by
  split
  · exact ho
  · exact hp

theorem byteStatus_or {o p : Option (Nat × Nat)} (ho : ByteStatus o) (hp : ByteStatus p) : ByteStatus (o.or p) := by
  cases o
  · exact hp
  · exact ho

theorem byteStatus_planRefused (s : State) : ByteStatus (planRefused s) :=
  byteStatus_ite (byteStatus_some (by decide)) (byteStatus_ite (byteStatus_some (by decide)) byteStatus_none)

theorem byteStatus_lengthRefused (s : State) : ByteStatus (lengthRefused s) :=
  byteStatus_ite byteStatus_none (byteStatus_ite (byteStatus_ite (byteStatus_some (by decide)) byteStatus_none)
    (byteStatus_ite (byteStatus_some (by decide)) (byteStatus_ite (byteStatus_some (by decide)) byteStatus_none)))

theorem byteStatus_roomRefused (s : State) : ByteStatus (roomRefused s) :=
  byteStatus_ite (byteStatus_some (by decide)) (byteStatus_ite (byteStatus_some (by decide))
    (byteStatus_ite (byteStatus_some (by decide)) (byteStatus_ite (byteStatus_some (by decide)) byteStatus_none)))

theorem byteStatus_armRefused (s : State) : ByteStatus (armRefused s) :=
  byteStatus_ite (byteStatus_some (by decide)) (byteStatus_or (byteStatus_planRefused s)
    (byteStatus_or (byteStatus_lengthRefused s) (byteStatus_roomRefused s)))

theorem armDenied_effect {e : Nat × Nat} (he : e.1 < 256) (hroom : Room 1 s) : (armDenied e s).busReply = s.busReply ∧
    (armDenied e s).recd = s.recd ∧ fld (armDenied e s) Reg.REC_STATUS F.REC_STATUS_arm_err = e.1 ∧
    recState (armDenied e s) = recState s ∧ Logged [(0x7009, e.1, BitVec.ofNat 32 e.2)] s (armDenied e s) ∧
    OnlyRegs [Reg.REC_STATUS] s (armDenied e s) := by
  have hrd := rd_logN_room 0x7009 e.1 e.2 (s := s) (x := setF s Reg.REC_STATUS F.REC_STATUS_arm_err e.1) rfl hroom
  refine ⟨logEvent_busReply .., recd_logEvent .., ?_, ?_, logged_logN _ _ _ rfl hroom, fun a ha => ?_⟩
  · rw [armDenied, fld_of_rd (hrd _), fld_setF _ _ _ _ (by decide)]
    exact Nat.mod_eq_of_lt he
  · rw [armDenied, recState_of_rd (hrd _), recState_setStatus _ (by decide)]
  · exact (hrd a).trans (rd_setF_ne _ _ _ (fun h => ha (List.mem_singleton.mpr h)))

theorem armByRegister_none (h : armRefused s = none) : armByRegister s = armNow 0 none s := by
  unfold armByRegister
  rw [h]

theorem armByRegister_some {e : Nat × Nat} (h : armRefused s = some e) : armByRegister s = armDenied e s := by
  unfold armByRegister
  rw [h]

/-! ### Writes of REC_CTRL -/

theorem writeRecCtrl_arm {v : Word} (htrig : getF v F.REC_CTRL_trigger = 0) (hdis : getF v F.REC_CTRL_disarm = 0) :
    writeRecCtrl (putF v F.REC_CTRL_arm 1) s = armByRegister s := by
  unfold writeRecCtrl
  rw [getF_putF_ne _ _ _ _ (by decide), getF_putF_ne _ _ _ _ (by decide), getF_putF _ _ _ (by decide), htrig, hdis]
  rfl

theorem writeRecCtrl_disarm {v : Word} (htrig : getF v F.REC_CTRL_trigger = 0) (harm : getF v F.REC_CTRL_arm = 0) :
    writeRecCtrl (putF v F.REC_CTRL_disarm 1) s = disarmRequest s := by
  unfold writeRecCtrl
  rw [getF_putF_ne _ _ _ _ (by decide), getF_putF_ne _ F.REC_CTRL_disarm F.REC_CTRL_arm _ (by decide), getF_putF _ _ _ (by decide), htrig, harm]
  rfl

theorem writeRecCtrl_trigger {v : Word} (hdis : getF v F.REC_CTRL_disarm = 0) (harm : getF v F.REC_CTRL_arm = 0) :
    writeRecCtrl (putF v F.REC_CTRL_trigger 1) s = recTrigNow srcWrite s := by
  unfold writeRecCtrl
  rw [getF_putF_ne _ F.REC_CTRL_trigger F.REC_CTRL_disarm _ (by decide), getF_putF_ne _ F.REC_CTRL_trigger F.REC_CTRL_arm _ (by decide),
    getF_putF _ _ _ (by decide), hdis, harm]
  rfl

theorem exec_recCtrlArm {m : Fin 8} {v : Word} (hs : Served m true Reg.REC_CTRL 4 s) (htrig : getF v F.REC_CTRL_trigger = 0)
    (hdis : getF v F.REC_CTRL_disarm = 0) : exec (.recCtrlArm m v) s = .next (armByRegister (reply .done s)) := by
  refine Eq.trans (b := .next (regCommand m Reg.REC_CTRL (putF v F.REC_CTRL_arm 1) s)) rfl ?_
  rw [regCommand_REC_CTRL _ hs, writeRecCtrl_arm htrig hdis]

theorem exec_recCtrlDisarm {m : Fin 8} {v : Word} (hs : Served m true Reg.REC_CTRL 4 s) (htrig : getF v F.REC_CTRL_trigger = 0)
    (harm : getF v F.REC_CTRL_arm = 0) : exec (.recCtrlDisarm m v) s = .next (disarmRequest (reply .done s)) := by
  refine Eq.trans (b := .next (regCommand m Reg.REC_CTRL (putF v F.REC_CTRL_disarm 1) s)) rfl ?_
  rw [regCommand_REC_CTRL _ hs, writeRecCtrl_disarm htrig harm]

theorem exec_recCtrlTrigger {m : Fin 8} {v : Word} (hs : Served m true Reg.REC_CTRL 4 s) (hdis : getF v F.REC_CTRL_disarm = 0)
    (harm : getF v F.REC_CTRL_arm = 0) : exec (.recCtrlTrigger m v) s = .next (recTrigNow srcWrite (reply .done s)) := by
  refine Eq.trans (b := .next (regCommand m Reg.REC_CTRL (putF v F.REC_CTRL_trigger 1) s)) rfl ?_
  rw [regCommand_REC_CTRL _ hs, writeRecCtrl_trigger hdis harm]

theorem recCtrlArm_clause {m : Fin 8} {v : Word} (hs : Served m true Reg.REC_CTRL 4 s) (htrig : getF v F.REC_CTRL_trigger = 0)
    (hdis : getF v F.REC_CTRL_disarm = 0) (hroom : Room 1 s) :
    (armRefused s = none → ∃ t, exec (.recCtrlArm m v) s = .next t ∧ t.busReply = .done ∧ recState t = recArmed ∧
      t.recd.rows = [] ∧ t.recd.trigs = [] ∧ t.recd.next = some (nextInterval s) ∧
      rd t Reg.REC_CAP = BitVec.ofNat 32 (recCap s) ∧ flg t Reg.REC_STATUS F.REC_STATUS_rearm_wait = false ∧
      Logged [(0x7001, 0, BitVec.ofNat 32 (min 0xFFFFFFFF (recCap s)))] s t ∧
      OnlyRegs [Reg.REC_STATUS, Reg.REC_CAP, Reg.REC_FILL] s t) ∧
    (∀ e, armRefused s = some e → ∃ t, exec (.recCtrlArm m v) s = .next t ∧ t.busReply = .done ∧ t.recd = s.recd ∧
      fld t Reg.REC_STATUS F.REC_STATUS_arm_err = e.1 ∧ recState t = recState s ∧
      Logged [(0x7009, e.1, BitVec.ofNat 32 e.2)] s t ∧ OnlyRegs [Reg.REC_STATUS] s t) := by
  have hroom' : Room 1 (reply .done s) := hroom
  rw [exec_recCtrlArm hs htrig hdis]
  constructor
  · intro h
    rw [armByRegister_none (s := reply .done s) h]
    have ha := armNow_armed 0 none (reply .done s)
    obtain ⟨hlog, hshown⟩ := armNow_logged 0 none hroom'
    exact ⟨_, rfl, ha.reply, ha.state, ha.rows, ha.trigs, ha.next, ha.cap, ha.waits, hlog, hshown⟩
  · intro e h
    rw [armByRegister_some (s := reply .done s) h]
    obtain ⟨hreply, hrecd, herr, hstate, hlog, hregs⟩ := armDenied_effect (byteStatus_armRefused s e h) hroom'
    exact ⟨_, rfl, hreply, hrecd, herr, hstate, hlog, hregs⟩

/-! ### Disarming -/

theorem disarmRequest_armed (hstate : recState s = recArmed) (htrigs : s.recd.trigs = []) : disarmRequest s = showFill (recDisarmed s) := by
  unfold disarmRequest
  rw [if_pos hstate, htrigs]
  rfl

theorem disarmRequest_triggered (hstate : recState s = recArmed) (htrigs : s.recd.trigs ≠ []) : disarmRequest s = s := by
  unfold disarmRequest
  rw [if_pos hstate, if_neg (by rwa [List.isEmpty_iff])]

theorem disarmRequest_other (hstate : recState s ≠ recArmed) : disarmRequest s = recClose 4 s := if_neg hstate

theorem recClose_capturing {r : Record} {cause : Nat} (hstate : recState s = recCapturing) (hcur : s.recd.cur = some r) :
    recClose cause s = setRecState recClosing (setRec { s.recd with
        cur := some { r with cause := cause }, next := none, trigs := [], closedAt := localNs s } s) := by
  unfold recClose
  rw [hcur]
  exact if_pos hstate

theorem recClose_other {cause : Nat} (hstate : recState s ≠ recCapturing) : recClose cause s = s := by
  unfold recClose
  split
  · rfl
  · exact if_neg hstate

/-- The plan gone: IDLE, before its operation ends. -/
def planGone (s : State) : State := setRecState recIdle (clearPlan (setRec { s.recd with next := none, trigs := [], op := none } s))

theorem recDisarmed_armed (h : recState s = recArmed) : recDisarmed s = endOp? s.recd.op .cancelled 0 (planGone s) := if_pos h

theorem recd_endOp? (n : Option (Fin 16)) (st : OpState) (status : Nat) (s : State) : (endOp? n st status s).recd = s.recd :=
  keeps_of_ev (p := .recd) (endOp?_ev (foot_self _) (Ev.refl _ s)) rfl

theorem rd_endOp? (n : Option (Fin 16)) (st : OpState) (status : Nat) (s : State) {a : Nat} {b : Block} (hb : blockAt a = some b)
    (hne : b ≠ .cmd) : rd (endOp? n st status s) a = rd s a :=
  rd_of_ev (endOp?_ev (foot_self _) (Ev.refl _ s)) rfl hb (by simpa using hne)

theorem busReply_endOp? (n : Option (Fin 16)) (st : OpState) (status : Nat) (s : State) : (endOp? n st status s).busReply = s.busReply :=
  keeps_of_ev (p := .busReply) (endOp?_ev (foot_self _) (Ev.refl _ s)) rfl

theorem recDisarmed_effect (h : recState s = recArmed) : recState (recDisarmed s) = recIdle ∧
    (recDisarmed s).recd = (planGone s).recd ∧ (recDisarmed s).busReply = s.busReply := by
  rw [recDisarmed_armed h]
  refine ⟨?_, recd_endOp? .., busReply_endOp? ..⟩
  rw [recState_of_rd (rd_endOp? _ _ _ _ (b := .recd) (by decide) (by decide)), planGone, recState_setRecState _ (by decide)]

theorem recCtrlDisarm_clause {m : Fin 8} {v : Word} (hs : Served m true Reg.REC_CTRL 4 s) (htrig : getF v F.REC_CTRL_trigger = 0)
    (harm : getF v F.REC_CTRL_arm = 0) :
    (recState s = recArmed → s.recd.trigs = [] → ∃ t, exec (.recCtrlDisarm m v) s = .next t ∧ t.busReply = .done ∧
      recState t = recIdle ∧ t.recd.rows = [] ∧ t.recd.next = none ∧ t.recd.awaiting = s.recd.awaiting ∧
      t.recd.stored = s.recd.stored) ∧
    (recState s = recArmed → s.recd.trigs ≠ [] →
      exec (.recCtrlDisarm m v) s = .next { s with busReply := .done }) ∧
    (∀ r, recState s = recCapturing → s.recd.cur = some r → ∃ t, exec (.recCtrlDisarm m v) s = .next t ∧
      t.busReply = .done ∧ recState t = recClosing ∧ t.recd.cur = some { r with cause := 4 } ∧
      t.recd.closedAt = localNs s ∧ t.log = s.log ∧ OnlyRegs [Reg.REC_STATUS] s t) ∧
    (recState s ≠ recArmed → recState s ≠ recCapturing →
      exec (.recCtrlDisarm m v) s = .next { s with busReply := .done }) := by
  rw [exec_recCtrlDisarm hs htrig harm]
  refine ⟨fun hst htr => ?_, fun hst htr => ?_, fun r hst hcur => ?_, fun hst hst' => ?_⟩
  · rw [disarmRequest_armed (s := reply .done s) hst htr]
    obtain ⟨hstate, hrecd, hreply⟩ := recDisarmed_effect (s := reply .done s) hst
    generalize recDisarmed (reply .done s) = y at hstate hrecd hreply
    refine ⟨_, rfl, hreply, (recState_of_rd (rd_showFill (by decide) y)).trans hstate, ?_, ?_, ?_, ?_⟩ <;> rw [recd_showFill, hrecd] <;> rfl
  · rw [disarmRequest_triggered (s := reply .done s) hst htr]
    rfl
  · rw [disarmRequest_other (s := reply .done s) (by rw [show recState (reply .done s) = recCapturing from hst]; decide),
      recClose_capturing (s := reply .done s) hst hcur]
    exact ⟨_, rfl, rfl, recState_setRecState _ (by decide) _, rfl, rfl, rfl,
      fun a ha => rd_setF_ne _ _ _ (fun h => ha (h ▸ List.mem_cons_self))⟩
  · rw [disarmRequest_other (s := reply .done s) hst, recClose_other (s := reply .done s) hst']
    rfl

/-! ### The trigger command -/

theorem recTrig_recd (src : Fin 11) (i : Nat) (s : State) : (recTrig src i s).recd =
    if (recState s = recArmed ∨ recState s = recCapturing) ∧ fbit s Reg.REC_TRIG_SRC F.REC_TRIG_SRC_en src = true
      then { s.recd with trigs := s.recd.trigs ++ [⟨src, i⟩] } else s.recd := by
  unfold recTrig
  split <;> rfl

theorem recTrig_same (src : Fin 11) (i : Nat) (s : State) : (recTrig src i s).regs = s.regs ∧ (recTrig src i s).log = s.log ∧
    (recTrig src i s).busReply = s.busReply ∧ (recTrig src i s).ticks = s.ticks ∧ (recTrig src i s).tai = s.tai := by
  unfold recTrig
  split <;> exact ⟨rfl, rfl, rfl, rfl, rfl⟩

theorem recCtrlTrigger_clause {m : Fin 8} {v : Word} (hs : Served m true Reg.REC_CTRL 4 s) (hdis : getF v F.REC_CTRL_disarm = 0)
    (harm : getF v F.REC_CTRL_arm = 0) : ∃ t, exec (.recCtrlTrigger m v) s = .next t ∧ t.busReply = .done ∧ OnlyRegs [] s t ∧
      t.recd = if (recState s = recArmed ∨ recState s = recCapturing) ∧ fbit s Reg.REC_TRIG_SRC F.REC_TRIG_SRC_en 8 = true
        then { s.recd with trigs := s.recd.trigs ++ [⟨8, nowNat s⟩] } else s.recd := by
  rw [exec_recCtrlTrigger hs hdis harm]
  obtain ⟨hregs, -, hreply, -⟩ := recTrig_same srcWrite (nowNat s) (reply .done s)
  exact ⟨_, rfl, hreply, fun a _ => rd_of_regs hregs a, recTrig_recd srcWrite (nowNat s) (reply .done s)⟩

end Recorder

end Sys2Proof.Machine
end


section
/-! PROOFS. What happens to the recorder: binary changes, the end of a record, storage, and the automatic re-arm (R284, R289 to R294). -/

namespace Sys2Proof.Machine

open Sys2Proof Sys2Proof.Safety Sys2Proof.Laws

section RecEvents

variable {s x y t : State}

/-! ### Binary changes (R284) -/

theorem reachNs_view (s : State) (i : BitVec 64) (b : Fin 256) : (reachNs s i).recd = s.recd ∧ (reachNs s i).regs = s.regs ∧
    (reachNs s i).log = s.log ∧ bchanPoint (reachNs s i) b = bchanPoint s b := ⟨rfl, rfl, rfl, rfl⟩

theorem putPoint_getLsbD (v : BitVec 256) (b c : Fin 256) (up : Bool) :
    (if up then v ||| (1#256 <<< b.val) else v &&& ~~~(1#256 <<< b.val)).getLsbD c = if c = b then up else v.getLsbD c := by
  have hone : (1#256 <<< b.val).getLsbD c.val = decide (c = b) := by
    rw [← BitVec.twoPow_eq, BitVec.getLsbD_twoPow]
    simp only [b.isLt, decide_true, Bool.true_and, Fin.ext_iff, eq_comm]
  cases up
  · rw [if_neg Bool.false_ne_true, BitVec.getLsbD_and, BitVec.getLsbD_not, hone]
    by_cases h : c = b <;> simp [h]
  · rw [if_pos rfl, BitVec.getLsbD_or, hone]
    by_cases h : c = b <;> simp [h]

/-- The bits of the points after a change of one. -/
def pointPut (b : Fin 256) (up : Bool) (s : State) : State :=
  setRec { s.recd with bin := if up then s.recd.bin ||| (1#256 <<< b.val) else s.recd.bin &&& ~~~(1#256 <<< b.val) } s

/-- The entry of a change that finds room. -/
def changePut (e : ChangeEntry) (s : State) : State := setRec { s.recd with changes := insertChange e s.recd.changes } s

theorem execBinaryChange_entered (b : Fin 256) (i : BitVec 64) (s : State) (hstate : recState s ≠ recIdle)
    (hon : bchanOn s b = true) (hbit : s.recd.bin.getLsbD b = !bchanPoint s b) (hroom : changesHeld s < changeEntries) :
    exec (.binaryChange b i) s = .next (showFill (whenS (edgeTriggers s b (bchanPoint s b)) (recTrig srcEdge (changeInstant s b i).toNat)
      (changePut ⟨(changeInstant s b i).toNat, b, bchanPoint s b, holdoverNow s⟩
        (pointPut b (bchanPoint s b) (reachNs s (changeInstant s b i)))))) := by
  refine Eq.trans (b := execBinaryChange b i s) rfl ?_
  unfold execBinaryChange
  dsimp only
  obtain ⟨hrecd, hregs, -, hpoint⟩ := reachNs_view s (changeInstant s b i) b
  have hoff : ¬ (recState (reachNs s (changeInstant s b i)) = recIdle ∨ (!bchanOn (reachNs s (changeInstant s b i)) b) = true ∨
      (reachNs s (changeInstant s b i)).recd.bin.getLsbD b = bchanPoint (reachNs s (changeInstant s b i)) b) := by
    rw [hpoint, hrecd, hbit, recState_of_rd (rd_of_regs hregs _), show bchanOn (reachNs s (changeInstant s b i)) b = true from hon]
    rintro (h | h | h)
    · exact hstate h
    · cases h
    · cases hp : bchanPoint s b <;> rw [hp] at h <;> cases h
  rw [if_neg hoff, hpoint]
  have hfull : decide (changeEntries ≤ changesHeld (reachNs s (changeInstant s b i))) = false := decide_eq_false (Nat.not_le.mpr hroom)
  rw [hfull]
  rfl

theorem binaryChange_clause (b : Fin 256) (i : BitVec 64) (s : State) (hstate : recState s ≠ recIdle) (hon : bchanOn s b = true)
    (hbit : s.recd.bin.getLsbD b = (!bchanPoint s b)) (hroom : changesHeld s < changeEntries) :
    ∃ t, exec (.binaryChange b i) s = .next t ∧ t.recd.bin.getLsbD b = bchanPoint s b ∧
      t.recd.changes = insertChange ⟨(changeInstant s b i).toNat, b, bchanPoint s b, holdoverNow s⟩ s.recd.changes ∧
      (∀ c : Fin 256, c ≠ b → t.recd.bin.getLsbD c = s.recd.bin.getLsbD c) ∧ t.log = s.log ∧
      OnlyRegs [Reg.REC_FILL] s t ∧
      t.recd.trigs = s.recd.trigs ++ (if edgeTriggers s b (bchanPoint s b) = true ∧ recState s ≠ recClosing ∧
        (recState s = recArmed ∨ recState s = recCapturing) ∧ fbit s Reg.REC_TRIG_SRC F.REC_TRIG_SRC_en 7 = true
        then [⟨7, (changeInstant s b i).toNat⟩] else []) := by
  rw [execBinaryChange_entered b i s hstate hon hbit hroom]
  obtain ⟨hrecd, hregs, hlog, -⟩ := reachNs_view s (changeInstant s b i) b
  generalize (⟨(changeInstant s b i).toNat, b, bchanPoint s b, holdoverNow s⟩ : ChangeEntry) = e
  generalize bchanPoint s b = up
  generalize (changeInstant s b i).toNat = q
  generalize reachNs s (changeInstant s b i) = r at hrecd hregs hlog
  have hbin : ∀ c, (changePut e (pointPut b up r)).recd.bin.getLsbD c.val = if c = b then up else s.recd.bin.getLsbD c := fun c => by
    show ((if up then r.recd.bin ||| (1#256 <<< b.val) else r.recd.bin &&& ~~~(1#256 <<< b.val)) : BitVec 256).getLsbD c = _
    rw [putPoint_getLsbD, hrecd]
  have hchg : (changePut e (pointPut b up r)).recd.changes = insertChange e s.recd.changes := by rw [← hrecd]; rfl
  have htrg : (changePut e (pointPut b up r)).recd.trigs = s.recd.trigs := by rw [← hrecd]; rfl
  have hr : (changePut e (pointPut b up r)).regs = s.regs := hregs
  have hl : (changePut e (pointPut b up r)).log = s.log := hlog
  generalize changePut e (pointPut b up r) = y at hbin hchg htrg hr hl
  have hst : recState y = recState s := recState_of_rd (rd_of_regs hr _)
  have hsrc : fbit y Reg.REC_TRIG_SRC F.REC_TRIG_SRC_en srcEdge = fbit s Reg.REC_TRIG_SRC F.REC_TRIG_SRC_en 7 :=
    fbit_of_rd (rd_of_regs hr _) _ _
  cases hedge : edgeTriggers s b up
  · refine ⟨_, rfl, (hbin b).trans (if_pos rfl), hchg, fun c hc => (hbin c).trans (if_neg hc), hl, fun a ha => ?_, ?_⟩
    · exact (rd_showFill (fun h => ha (List.mem_singleton.mpr h)) y).trans (rd_of_regs hr a)
    · rw [if_neg (fun h => Bool.false_ne_true h.1), List.append_nil]
      exact htrg
  · obtain ⟨hregs', hlog', -⟩ := recTrig_same srcEdge q y
    have hrec := recTrig_recd srcEdge q y
    refine ⟨_, rfl, ?_, ?_, fun c hc => ?_, hlog'.trans hl, fun a ha => ?_, ?_⟩
    · exact (show (recTrig srcEdge q y).recd.bin.getLsbD b = up by rw [hrec]; split <;> exact (hbin b).trans (if_pos rfl))
    · exact (show (recTrig srcEdge q y).recd.changes = _ by rw [hrec]; split <;> exact hchg)
    · exact (show (recTrig srcEdge q y).recd.bin.getLsbD c = _ by rw [hrec]; split <;> exact (hbin c).trans (if_neg hc))
    · exact (rd_showFill (fun h => ha (List.mem_singleton.mpr h)) _).trans ((rd_of_regs hregs' a).trans (rd_of_regs hr a))
    · show (recTrig srcEdge q y).recd.trigs = _
      rw [hrec, hst, hsrc]
      by_cases h : (recState s = recArmed ∨ recState s = recCapturing) ∧ fbit s Reg.REC_TRIG_SRC F.REC_TRIG_SRC_en 7 = true
      · have hne : recState s ≠ recClosing := by
          rcases h.1 with h' | h' <;> rw [h'] <;> decide
        rw [if_pos h, if_pos ⟨rfl, hne, h⟩, ← htrg]
        rfl
      · rw [if_neg h, if_neg (fun h' => h h'.2.2), List.append_nil]
        exact htrg

theorem binaryChange_none (b : Fin 256) (i : BitVec 64) (s : State) (h : recState s = recIdle ∨ bchanOn s b = false ∨
    s.recd.bin.getLsbD b = bchanPoint s b) : ∃ t, exec (.binaryChange b i) s = .next t ∧ t.recd = s.recd ∧
      t.log = s.log ∧ OnlyRegs [] s t := by
  obtain ⟨hrecd, hregs, hlog, hpoint⟩ := reachNs_view s (changeInstant s b i) b
  refine ⟨reachNs s (changeInstant s b i), ?_, hrecd, hlog, fun a _ => rd_of_regs hregs a⟩
  refine Eq.trans (b := execBinaryChange b i s) rfl ?_
  unfold execBinaryChange
  dsimp only
  rw [if_pos]
  rw [hpoint, hrecd, recState_of_rd (rd_of_regs hregs _)]
  exact h.imp_right (.imp_left fun h' => by rw [show bchanOn (reachNs s (changeInstant s b i)) b = false from h']; rfl)

/-! ### The end of a record (R292) -/

theorem rd_showStore {a : Nat} (h : a ≠ Reg.REC_STORE) (h' : a ≠ Reg.REC_STATUS) (s : State) : rd (showStore s) a = rd s a := by
  unfold showStore
  rw [rd_setF_ne _ _ _ h', rd_setF_ne _ _ _ h, rd_setF_ne _ _ _ h]

theorem recState_showStore (s : State) : recState (showStore s) = recState s := by
  unfold showStore
  rw [recState_setStatus _ (by decide), recState_of_rd (rd_setF_ne _ _ _ (by decide)), recState_of_rd (rd_setF_ne _ _ _ (by decide))]

theorem same_showStore (s : State) : (showStore s).recd = s.recd ∧ (showStore s).log = s.log ∧ (showStore s).ticks = s.ticks := ⟨rfl, rfl, rfl⟩

/-- The instant of the last row shown. -/
def stopShown (r : Record) (s : State) : State :=
  match r.rows.getLast? with
  | none => s
  | some w => wr64 s Reg.REC_STOP_TIME (BitVec.ofNat 64 w.at')

/-- An overflow shown. -/
def overflowShown (r : Record) (s : State) : State :=
  whenS (r.cause == 2 || r.cause == 6) (fun s => setF s Reg.REC_STATUS F.REC_STATUS_overflow 1) s

theorem noteClosed_eq (r : Record) (s : State) : noteClosed r s =
    overflowShown r (stopShown r (wr (logEvent 0x7003 r.cause r.number s) Reg.REC_LAST_NO r.number)) := rfl

theorem stopShown_same (r : Record) (s : State) : (stopShown r s).recd = s.recd ∧ (stopShown r s).log = s.log ∧
    (stopShown r s).ticks = s.ticks ∧ recState (stopShown r s) = recState s ∧
    rd (stopShown r s) Reg.REC_LAST_NO = rd s Reg.REC_LAST_NO ∧
    flg (stopShown r s) Reg.REC_CFG F.REC_CFG_auto_rearm = flg s Reg.REC_CFG F.REC_CFG_auto_rearm := by
  unfold stopShown
  split
  · exact ⟨rfl, rfl, rfl, rfl, rfl, rfl⟩
  · exact ⟨rfl, wr64_log .., rfl, recState_of_rd (rd_wr64_ne _ _ (by decide) (by decide)), rd_wr64_ne _ _ (by decide) (by decide),
      flg_of_rd (rd_wr64_ne _ _ (by decide) (by decide)) _⟩

theorem overflowShown_same (r : Record) (s : State) : (overflowShown r s).recd = s.recd ∧ (overflowShown r s).log = s.log ∧
    (overflowShown r s).ticks = s.ticks ∧ recState (overflowShown r s) = recState s ∧
    rd (overflowShown r s) Reg.REC_LAST_NO = rd s Reg.REC_LAST_NO ∧
    flg (overflowShown r s) Reg.REC_CFG F.REC_CFG_auto_rearm = flg s Reg.REC_CFG F.REC_CFG_auto_rearm := by
  unfold overflowShown
  cases r.cause == 2 || r.cause == 6
  · exact ⟨rfl, rfl, rfl, rfl, rfl, rfl⟩
  · exact ⟨rfl, rfl, rfl, recState_setStatus _ (by decide) _ s, rd_setF_ne _ _ _ (by decide), flg_setF_ne _ _ _ _ (by decide)⟩

/-- What a step of the closing of a record leaves: the recorder's record, its state and configuration, the number shown and local time,
and it forgets no event. -/
structure ClosingKept (s t : State) : Prop where
  recd : t.recd = s.recd
  grows : LogGrows s t
  ticks : t.ticks = s.ticks
  state : recState t = recState s
  last : rd t Reg.REC_LAST_NO = rd s Reg.REC_LAST_NO
  rearm : flg t Reg.REC_CFG F.REC_CFG_auto_rearm = flg s Reg.REC_CFG F.REC_CFG_auto_rearm

theorem ClosingKept.trans (h : ClosingKept s x) (h' : ClosingKept x t) : ClosingKept s t :=
  ⟨h'.recd.trans h.recd, h.grows.trans h'.grows, h'.ticks.trans h.ticks, h'.state.trans h.state, h'.last.trans h.last,
    h'.rearm.trans h.rearm⟩

theorem ClosingKept.refl (s : State) : ClosingKept s s := ⟨rfl, .refl _, rfl, rfl, rfl, rfl⟩

theorem closingKept_showFill (s : State) : ClosingKept s (showFill s) :=
  ⟨rfl, .of_log (.refl _) rfl, rfl, recState_of_rd (rd_showFill (by decide) s), rd_showFill (by decide) s,
    flg_of_rd (rd_showFill (by decide) s) _⟩

theorem closingKept_showStore (s : State) : ClosingKept s (showStore s) :=
  ⟨rfl, .of_log (.refl _) rfl, rfl, recState_showStore s, rd_showStore (by decide) (by decide) s,
    flg_of_rd (rd_showStore (by decide) (by decide) s) _⟩

theorem closingKept_of_ev {f : Foot} (h : Ev f s t) (hparts : ∀ p : Part, p = .recd ∨ p = .log ∨ p = .ticks → f.parts.contains p = false)
    (hany : f.anyReg = false) (hblock : f.blocks.contains .recd = false) : ClosingKept s t :=
  ⟨keeps_of_ev (p := .recd) h (hparts _ (.inl rfl)), .of_log (.refl _) (keeps_of_ev (p := .log) h (hparts _ (.inr (.inl rfl)))),
    keeps_of_ev (p := .ticks) h (hparts _ (.inr (.inr rfl))),
    recState_of_rd (rd_of_ev h hany (b := .recd) (by decide) hblock), rd_of_ev h hany (b := .recd) (by decide) hblock,
    flg_of_rd (rd_of_ev h hany (b := .recd) (by decide) hblock) _⟩

theorem closingKept_partHold (b : Bool) (s : State) : ClosingKept s (partHold b s) :=
  closingKept_of_ev (partHold_ev (foot_self _) (Ev.refl _ s)) (by rintro p (rfl | rfl | rfl) <;> rfl) rfl rfl

theorem closingKept_whenS {g : State → State} (b : Bool) (h : ClosingKept s (g s)) : ClosingKept s (whenS b g s) := by
  cases b
  · exact .refl s
  · exact h

theorem noteClosed_effect (r : Record) (s : State) (hroom : Room 1 s) : (noteClosed r s).recd = s.recd ∧ (noteClosed r s).ticks = s.ticks ∧
    recState (noteClosed r s) = recState s ∧ rd (noteClosed r s) Reg.REC_LAST_NO = r.number ∧
    Raises 0x7003 r.cause r.number s (noteClosed r s) ∧
    flg (noteClosed r s) Reg.REC_CFG F.REC_CFG_auto_rearm = flg s Reg.REC_CFG F.REC_CFG_auto_rearm := by
  rw [noteClosed_eq]
  have hraise := raises_logEvent 0x7003 r.cause r.number hroom
  have hrecd := recd_logEvent 0x7003 r.cause r.number s
  have hticks : (logEvent 0x7003 r.cause r.number s).ticks = s.ticks := logEvent_ticks ..
  have hstate := recState_logEvent 0x7003 r.cause r.number s
  have hcfg : flg (logEvent 0x7003 r.cause r.number s) Reg.REC_CFG F.REC_CFG_auto_rearm = flg s Reg.REC_CFG F.REC_CFG_auto_rearm :=
    flg_of_rd (rd_logEvent s _ _ _ (by decide) (by decide)) _
  generalize logEvent 0x7003 r.cause r.number s = x at hraise hrecd hticks hstate hcfg
  have hlast := rd_wr x Reg.REC_LAST_NO r.number
  have hst : recState (wr x Reg.REC_LAST_NO r.number) = recState x := recState_of_rd (rd_wr_ne _ _ (by decide))
  have hc : flg (wr x Reg.REC_LAST_NO r.number) Reg.REC_CFG F.REC_CFG_auto_rearm = flg x Reg.REC_CFG F.REC_CFG_auto_rearm :=
    flg_of_rd (rd_wr_ne _ _ (by decide)) _
  have hrec : (wr x Reg.REC_LAST_NO r.number).recd = x.recd ∧ (wr x Reg.REC_LAST_NO r.number).log = x.log ∧
    (wr x Reg.REC_LAST_NO r.number).ticks = x.ticks := ⟨rfl, rfl, rfl⟩
  obtain ⟨hrec1, hlog1, htick1⟩ := hrec
  generalize wr x Reg.REC_LAST_NO r.number = y at hlast hst hc hrec1 hlog1 htick1
  obtain ⟨a1, a2, a3, a4, a5, a6⟩ := stopShown_same r y
  generalize stopShown r y = z at a1 a2 a3 a4 a5 a6
  obtain ⟨b1, b2, b3, b4, b5, b6⟩ := overflowShown_same r z
  refine ⟨b1.trans (a1.trans (hrec1.trans hrecd)), b3.trans (a3.trans (htick1.trans hticks)), b4.trans (a4.trans (hst.trans hstate)),
    b5.trans (a5.trans hlast), ?_, b6.trans (a6.trans (hc.trans hcfg))⟩
  exact raises_before hraise (.of_log (.refl _) (b2.trans (a2.trans hlog1)))

/-- The record closed, before its closing is noted. -/
def recordEnded (r : Record) (s : State) : State :=
  setRecState recIdle (clearPlan (setRec { s.recd with cur := none, awaiting := s.recd.awaiting ++ [r], op := none } s))

/-- The re-arm that R294 gives. -/
def rearmed (r : Record) (s : State) : State :=
  whenS (flg s Reg.REC_CFG F.REC_CFG_auto_rearm && rearmCause r.cause) tryRearm s

/-- The storage shown, and a streaming record's hold on exports ended. -/
def closingShown (r : Record) (s : State) : State := whenS r.stream (partHold false) (showStore (showFill s))

theorem recordClosed_some {r : Record} (h : s.recd.cur = some r) : recordClosed s =
    rearmed (finishRecord r s) (closingShown (finishRecord r s) (noteClosed (finishRecord r s) (recordEnded (finishRecord r s) s))) := by
  unfold recordClosed
  rw [h]
  rfl

theorem recordEnded_fields (r : Record) (s : State) : (recordEnded r s).recd.cur = none ∧
    (recordEnded r s).recd.awaiting = s.recd.awaiting ++ [r] ∧ (recordEnded r s).log = s.log ∧ (recordEnded r s).ticks = s.ticks ∧
    recState (recordEnded r s) = recIdle ∧
    flg (recordEnded r s) Reg.REC_CFG F.REC_CFG_auto_rearm = flg s Reg.REC_CFG F.REC_CFG_auto_rearm :=
  ⟨rfl, rfl, rfl, rfl, recState_setRecState _ (by decide) _, flg_of_rd (rd_setF_ne _ _ _ (by decide)) _⟩

/-- What an automatic re-arm leaves. -/
theorem tryRearm_kept (s : State) : (tryRearm s).recd.cur = s.recd.cur ∧ (tryRearm s).recd.awaiting = s.recd.awaiting ∧
    (tryRearm s).ticks = s.ticks ∧ rd (tryRearm s) Reg.REC_LAST_NO = rd s Reg.REC_LAST_NO ∧ LogGrows s (tryRearm s) := by
  unfold tryRearm
  split
  · have h := armNow_armed 1 none s
    refine ⟨h.cur, h.awaiting, h.ticks, ?_, ?_⟩
    · rw [armNow_eq, rd_logEvent _ _ _ _ (by decide) (by decide), (armed_before_event none s).2.1 _ (by decide)]
    · rw [armNow_eq]
      exact .logEvent (.of_log (.refl _) (armed_before_event none s).2.2.1)
  · exact ⟨rfl, rfl, rfl, rd_setF_ne _ _ _ (by decide), .of_log (.refl _) rfl⟩

theorem rearmed_kept (r : Record) (s : State) : (rearmed r s).recd.cur = s.recd.cur ∧ (rearmed r s).recd.awaiting = s.recd.awaiting ∧
    (rearmed r s).ticks = s.ticks ∧ rd (rearmed r s) Reg.REC_LAST_NO = rd s Reg.REC_LAST_NO ∧ LogGrows s (rearmed r s) ∧
    (flg s Reg.REC_CFG F.REC_CFG_auto_rearm = false → rearmed r s = s) := by
  unfold rearmed
  cases h : flg s Reg.REC_CFG F.REC_CFG_auto_rearm && rearmCause r.cause
  · exact ⟨rfl, rfl, rfl, rfl, .refl _, fun _ => rfl⟩
  · obtain ⟨h1, h2, h3, h4, h5⟩ := tryRearm_kept s
    refine ⟨h1, h2, h3, h4, h5, fun hf => ?_⟩
    rw [hf] at h
    cases h

theorem recordClosed_effect {r : Record} (h : s.recd.cur = some r) (hroom : Room 1 s) : (recordClosed s).recd.cur = none ∧
    (recordClosed s).recd.awaiting = s.recd.awaiting ++ [finishRecord r s] ∧ (recordClosed s).ticks = s.ticks ∧
    rd (recordClosed s) Reg.REC_LAST_NO = (finishRecord r s).number ∧
    Raises 0x7003 (finishRecord r s).cause (finishRecord r s).number s (recordClosed s) ∧
    (flg s Reg.REC_CFG F.REC_CFG_auto_rearm = false → recState (recordClosed s) = recIdle) := by
  rw [recordClosed_some h]
  generalize finishRecord r s = r'
  obtain ⟨ecur, eawait, elog, eticks, estate, ecfg⟩ := recordEnded_fields r' s
  generalize recordEnded r' s = x at ecur eawait elog eticks estate ecfg
  obtain ⟨nrecd, nticks, nstate, nlast, nraise, ncfg⟩ := noteClosed_effect r' x (room_of_log elog hroom)
  generalize noteClosed r' x = y at nrecd nticks nstate nlast nraise ncfg
  have hk : ClosingKept y (closingShown r' y) :=
    ((closingKept_showFill y).trans (closingKept_showStore _)).trans (closingKept_whenS _ (closingKept_partHold _ _))
  generalize closingShown r' y = z at hk
  obtain ⟨rcur, rawait, rticks, rlast, rgrows, rnone⟩ := rearmed_kept r' z
  have hraise : Raises 0x7003 r'.cause r'.number x (rearmed r' z) := raises_before (raises_before nraise hk.grows) rgrows
  refine ⟨?_, ?_, rticks.trans (hk.ticks.trans (nticks.trans eticks)), rlast.trans (hk.last.trans nlast),
    raises_after (.of_log (.refl _) elog) hraise, fun hf => ?_⟩
  · rw [rcur, hk.recd, nrecd, ecur]
  · rw [rawait, hk.recd, nrecd, eawait]
  · rw [rnone (by rw [hk.rearm, ncfg, ecfg, hf]), hk.state, nstate, estate]

theorem finishRecord_reachLocal (r : Record) (n : Nat) (s : State) : finishRecord r (reachLocal n s) = finishRecord r s ∧
    (finishRecord r s).number = r.number ∧ (finishRecord r s).cause = r.cause := ⟨rfl, rfl, rfl⟩

theorem reachLocal_view (n : Nat) (s : State) : (reachLocal n s).recd = s.recd ∧ (reachLocal n s).regs = s.regs ∧
    (reachLocal n s).log = s.log := ⟨rfl, rfl, rfl⟩

theorem recClosed_clause (r : Record) (s : State) (hstate : recState s = recClosing) (hcur : s.recd.cur = some r) (hroom : Room 4 s) :
    ∃ t, exec .recClosed s = .next t ∧ t.recd.cur = none ∧ t.recd.awaiting = s.recd.awaiting ++ [finishRecord r s] ∧
      s.recd.closedAt + 10000000 ≤ localNs t ∧ rd t Reg.REC_LAST_NO = r.number ∧ Raises 0x7003 r.cause r.number s t ∧
      (flg s Reg.REC_CFG F.REC_CFG_auto_rearm = false → recState t = recIdle) := by
  refine ⟨recordClosed (reachLocal (s.recd.closedAt + 10000000) s),
    Eq.trans (b := execRecClosed s) rfl (if_pos hstate), ?_⟩
  have hle := localNs_reachLocal (s.recd.closedAt + 10000000) s
  obtain ⟨hfin, hnum, hcause⟩ := finishRecord_reachLocal r (s.recd.closedAt + 10000000) s
  obtain ⟨hrecd, hregs, hlog⟩ := reachLocal_view (s.recd.closedAt + 10000000) s
  generalize reachLocal (s.recd.closedAt + 10000000) s = x at hle hfin hrecd hregs hlog
  have hroom' : Room 1 x := room_of_log hlog (by unfold Room at hroom ⊢; omega)
  obtain ⟨h1, h2, h3, h4, h5, h6⟩ := recordClosed_effect (by rw [hrecd]; exact hcur) hroom'
  rw [hfin, hrecd] at h2
  rw [hfin, hnum] at h4
  rw [hfin, hnum, hcause] at h5
  refine ⟨h1, h2, ?_, h4, raises_after (.of_log (.refl _) hlog) h5, fun hf => h6 ((flg_of_regs hregs _ _).trans hf)⟩
  rw [localNs_of_ticks h3]
  exact hle

/-! ### Storage (R289) -/

theorem makeRoom_room {n need : Nat} (h : hasRoom s need = true) : makeRoom n need s = (true, s) := by
  cases n
  · exact congrArg (fun b => (b, s)) h
  · exact if_pos h

/-- An operation ended, before it is logged. -/
def operEnded (n : Fin 16) (o : Oper) (st : OpState) (status : Nat) (s : State) : State :=
  setOper n (some { o with
    state := st, status := status, endedAt := now s, endedLocal := localNs s, hostHold := false, partHold := false
    progress := if st = .completed then 1000 else o.progress }) s

/-- The notice of an end to the channel that opened the operation. -/
def endNoticed (o : Oper) (st : OpState) (status : Nat) (s : State) : State :=
  match o.chan with
  | none => s
  | some ch =>
    if ch = 0 ∨ !(s.cmd.channels[ch]).isOpen then s
    else { s with cmd := { s.cmd with
      notices := s.cmd.notices ++ [⟨ch, openingOpcode o.kind, o.handle, opCode st, status⟩] } }

theorem endOp_some {n : Fin 16} {o : Oper} (st : OpState) (status : Nat) (h : s.cmd.ops[n] = some o) : endOp n st status s =
    if opDone o then s else startQueuedExport (endNoticed o st status (setF
      (logEvent 0x1402 (o.kind.val * 256 + opCode st) o.handle (operEnded n o st status s)) Reg.CMD_IRQ F.CMD_IRQ_op_done 1)) := by
  unfold endOp
  rw [h]
  rfl

theorem log_endNoticed (o : Oper) (st : OpState) (status : Nat) (s : State) : (endNoticed o st status s).log = s.log := by
  unfold endNoticed
  split
  · rfl
  · split <;> rfl

theorem logGrows_endOp (n : Fin 16) (st : OpState) (status : Nat) (s : State) : LogGrows s (endOp n st status s) := by
  cases h : s.cmd.ops[n] with
  | none =>
    unfold endOp
    rw [h]
    exact .refl _
  | some o =>
    rw [endOp_some st status h]
    split
    · exact .refl _
    · refine .of_ev (.of_log (.of_log ?_ (setF_log ..)) (log_endNoticed ..)) (startQueuedExport_ev (foot_self _) (Ev.refl _ _)) rfl
      exact .logEvent (.of_ev (.refl _) (setOper_ev (foot_self _) (Ev.refl _ _)) rfl)

theorem logGrows_endOp? (n : Option (Fin 16)) (st : OpState) (status : Nat) (s : State) : LogGrows s (endOp? n st status s) := by
  cases n
  · exact .refl _
  · exact logGrows_endOp _ _ _ _

/-- The oldest waiting record stored, before it is logged. -/
def recordStored (r : Record) (l : List Record) (s : State) : State :=
  setRec { s.recd with awaiting := l, stored := s.recd.stored ++ [{ r with drained := 0, op := none }] } s

theorem execRecStored_room {r : Record} {l : List Record} (h : s.recd.awaiting = r :: l)
    (hroom : hasRoom { s with recd := { s.recd with awaiting := l } } r.size = true) : exec .recStored s =
    .next (showStore (showFill (endOp? r.op .completed (if r.cause = 2 ∨ r.cause = 6 then stOverflow else stOk)
      (logEvent 0x7004 0 r.number (recordStored r l s))))) := by
  refine Eq.trans (b := execRecStored s) rfl ?_
  unfold execRecStored
  rw [h]
  dsimp only
  rw [makeRoom_room (s := setRec { s.recd with awaiting := l } s) hroom]
  rfl

theorem recStored_clause (r : Record) (l : List Record) (s : State) (h : s.recd.awaiting = r :: l)
    (hroom : hasRoom { s with recd := { s.recd with awaiting := l } } r.size = true) (hlog : Room 4 s) :
    ∃ t, exec .recStored s = .next t ∧ t.recd.awaiting = l ∧
      t.recd.stored = s.recd.stored ++ [{ r with drained := 0, op := none }] ∧ Raises 0x7004 0 r.number s t := by
  rw [execRecStored_room h hroom]
  have hroom' : Room 1 (recordStored r l s) := by
    unfold Room at hlog ⊢
    exact show s.log.queue.length + 1 ≤ 256 by omega
  have hraise := raises_logEvent 0x7004 0 r.number hroom'
  have hrecd := recd_logEvent 0x7004 0 r.number (recordStored r l s)
  generalize logEvent 0x7004 0 r.number (recordStored r l s) = x at hraise hrecd
  generalize (if r.cause = 2 ∨ r.cause = 6 then stOverflow else stOk) = st
  have hgrow := logGrows_endOp? r.op .completed st x
  have hend := recd_endOp? r.op .completed st x
  generalize endOp? r.op .completed st x = y at hgrow hend
  obtain hk := (closingKept_showFill y).trans (closingKept_showStore _)
  refine ⟨_, rfl, ?_, ?_, raises_after (.of_log (.refl _) rfl) (raises_before (raises_before hraise hgrow) hk.grows)⟩
  · rw [hk.recd, hend, hrecd]
    rfl
  · rw [hk.recd, hend, hrecd]
    rfl

theorem recStored_none (s : State) (h : s.recd.awaiting = []) : exec .recStored s = .next s := by
  refine Eq.trans (b := execRecStored s) rfl ?_
  unfold execRecStored
  rw [h]

/-! ### The automatic re-arm (R294) -/

theorem recRearm_clause (s : State) (hstate : recState s = recIdle) (hwait : flg s Reg.REC_STATUS F.REC_STATUS_rearm_wait = true)
    (hauto : flg s Reg.REC_CFG F.REC_CFG_auto_rearm = true) (hroom : Room 1 s) :
    (roomRefused s = none → ∃ t, exec .recRearm s = .next t ∧ recState t = recArmed ∧
      flg t Reg.REC_STATUS F.REC_STATUS_rearm_wait = false ∧
      Logged [(0x7001, 1, BitVec.ofNat 32 (min 0xFFFFFFFF (recCap s)))] s t) ∧
    (roomRefused s ≠ none → ∃ t, exec .recRearm s = .next t ∧ recState t = recIdle ∧ t.recd = s.recd ∧ t.log = s.log ∧
      flg t Reg.REC_STATUS F.REC_STATUS_rearm_wait = true) := by
  have hexec : exec .recRearm s = .next (tryRearm s) := Eq.trans (b := execRecRearm s) rfl (if_pos ⟨hstate, hwait, hauto⟩)
  rw [hexec]
  unfold tryRearm
  constructor
  · intro h
    rw [h]
    have ha := armNow_armed 1 none s
    exact ⟨_, rfl, ha.state, ha.waits, (armNow_logged 1 none hroom).1⟩
  · intro h
    obtain ⟨e, he⟩ := Option.ne_none_iff_exists'.mp h
    rw [he]
    exact ⟨_, rfl, (recState_setStatus _ (by decide) _ s).trans hstate, rfl, rfl, flg_setF _ _ _ _ (by decide)⟩

theorem recRearm_none (s : State) (h : recState s ≠ recIdle ∨ flg s Reg.REC_STATUS F.REC_STATUS_rearm_wait = false) :
    exec .recRearm s = .next s := by
  refine Eq.trans (b := execRecRearm s) rfl (if_neg ?_)
  rintro ⟨hi, hw, -⟩
  rcases h with h | h
  · exact h hi
  · rw [h] at hw
    cases hw

end RecEvents

end Sys2Proof.Machine

namespace Sys2Proof.Proofs

open Sys2Proof Sys2Proof.Machine Sys2Proof.Safety Sys2Proof.Laws

/-- Settles O48: each request acts on the plan through one named change of the recorder; what follows it shows figures, ends
operations or re-arms, which keep the records. -/
theorem recCommands : Obligations.RecCommands :=
  ⟨fun _ _ _ hs htrig hdis hroom => recCtrlArm_clause hs htrig hdis hroom,
    fun _ _ _ hs htrig harm => recCtrlDisarm_clause hs htrig harm,
    fun _ _ _ hs hdis harm => recCtrlTrigger_clause hs hdis harm,
    binaryChange_clause, binaryChange_none, recClosed_clause,
    fun s h => Eq.trans (b := execRecClosed s) rfl (if_neg h), recStored_none, recStored_clause, recRearm_none, recRearm_clause⟩

end Sys2Proof.Proofs
end


section
/-! PROOFS. The scan cores: modes, restarts and the requests of SCAN_CTRL (R320 to R326). -/

namespace Sys2Proof.Machine

open Sys2Proof Sys2Proof.Safety Sys2Proof.Laws

section ScanRules

variable {k : Fin 2} {s x y t : State}

/-! ### Cores, tasks and values by identity -/

@[simp] theorem core_setScan (k : Fin 2) (c : ScanCore) (s : State) : (setScan k c s).scan.cores[k] = c := by simp [setScan]

theorem core_setScan_ne {j : Fin 2} (h : j ≠ k) (c : ScanCore) (s : State) : (setScan k c s).scan.cores[j] = s.scan.cores[j] := by
  have hv : k.val ≠ j.val := fun he => h (Fin.ext he.symm)
  exact Vector.getElem_set_ne k.isLt j.isLt hv

theorem same_setScan (k : Fin 2) (c : ScanCore) (s : State) : (setScan k c s).regs = s.regs ∧ (setScan k c s).log = s.log ∧
    (setScan k c s).tai = s.tai ∧ (setScan k c s).ticks = s.ticks ∧ (setScan k c s).busReply = s.busReply ∧
    (setScan k c s).scan.lastPub = s.scan.lastPub := ⟨rfl, rfl, rfl, rfl, rfl, rfl⟩

theorem core_setTask (k : Fin 2) (i : Fin 8) (z : ScanTask) (s : State) : (setTask k i z s).scan.cores[k] =
    { s.scan.cores[k] with tasks := s.scan.cores[k].tasks.set i z } := core_setScan ..

theorem task_set (c : ScanCore) (i : Fin 8) (z : ScanTask) : (c.tasks.set i z)[i] = z := by simp

theorem task_set_ne (c : ScanCore) {i j : Fin 8} (h : j ≠ i) (z : ScanTask) : (c.tasks.set i z)[j] = c.tasks[j] := by
  have hv : i.val ≠ j.val := fun he => h (Fin.ext he.symm)
  exact Vector.getElem_set_ne i.isLt j.isLt hv

@[simp] theorem symGet_symPut (l : List (Nat × BitVec 64)) (i : Nat) (v : BitVec 64) : symGet (symPut l i v) i = v :=
  sget_sput_same ..

theorem symGet_symPut_ne (l : List (Nat × BitVec 64)) {i j : Nat} (v : BitVec 64) (h : j ≠ i) :
    symGet (symPut l i v) j = symGet l j := sget_sput_other _ _ _ h

/-- Values put under their keys, one after another, by the elements that have one. -/
def putAll {α : Type} (key : α → Nat) (g : α → Option (BitVec 64)) (l : List α) (o : List (Nat × BitVec 64)) : List (Nat × BitVec 64) :=
  l.foldl (fun o z => match g z with | none => o | some v => symPut o (key z) v) o

theorem symGet_putAll_none {α : Type} {key : α → Nat} {g : α → Option (BitVec 64)} {l : List α} {n : Nat}
    (h : ∀ z ∈ l, key z = n → g z = none) (o : List (Nat × BitVec 64)) : symGet (putAll key g l o) n = symGet o n := by
  induction l generalizing o with
  | nil => rfl
  | cons z zs ih =>
    refine (ih (fun w hw => h w (List.mem_cons_of_mem _ hw)) _).trans ?_
    dsimp only
    cases hg : g z with
    | none => rfl
    | some v =>
      refine symGet_symPut_ne _ _ fun he => ?_
      rw [h z List.mem_cons_self he.symm] at hg
      cases hg

/-- Where one element of a key has a value and no other of that key has another, the key has that value. -/
theorem symGet_putAll {α : Type} {key : α → Nat} {g : α → Option (BitVec 64)} {l : List α} {n : Nat} {v : BitVec 64}
    (h : ∃ z ∈ l, key z = n ∧ g z = some v) (hu : ∀ z ∈ l, key z = n → g z = none ∨ g z = some v) (o : List (Nat × BitVec 64)) :
    symGet (putAll key g l o) n = v := by
  induction l generalizing o with
  | nil =>
    obtain ⟨z, hz, -⟩ := h
    cases hz
  | cons w ws ih =>
    have hu' : ∀ z ∈ ws, key z = n → g z = none ∨ g z = some v := fun z hz => hu z (List.mem_cons_of_mem _ hz)
    by_cases hmem : ∃ z ∈ ws, key z = n ∧ g z = some v
    · exact ih hmem hu' _
    · have hnone : ∀ z ∈ ws, key z = n → g z = none := fun z hz hk => (hu' z hz hk).resolve_right fun hg => hmem ⟨z, hz, hk, hg⟩
      obtain ⟨z, hz, hk, hg⟩ := h
      obtain rfl : z = w := (List.mem_cons.mp hz).resolve_right fun hz' => hmem ⟨z, hz', hk, hg⟩
      refine (symGet_putAll_none hnone _).trans ?_
      dsimp only
      rw [hg, hk]
      exact symGet_symPut ..

/-! ### Modes -/

theorem scanMode_of_rd (h : rd t (Reg.SCAN_STATE k) = rd s (Reg.SCAN_STATE k)) : scanMode t k = scanMode s k := fld_of_rd h _

/-- A mode set: nothing else of the core's state register, and no register but it and SCAN_STATUS. -/
structure ModeSet (k : Fin 2) (n : Nat) (s t : State) : Prop where
  scan : t.scan = s.scan
  mode : scanMode t k = n
  state : ∀ G : Fld, 2 ≤ G.lo → fld t (Reg.SCAN_STATE k) G = fld s (Reg.SCAN_STATE k) G
  regs : ∀ a, a ∉ [Reg.SCAN_STATE k, Reg.SCAN_STATUS] → rd t a = rd s a
  reply : t.busReply = s.busReply
  tai : t.tai = s.tai
  ticks : t.ticks = s.ticks
  logged : Logged [(0x8001, k.val, BitVec.ofNat 32 (scanMode s k * 256 + n))] s t

theorem SCAN_STATE_ne_STATUS (k : Nat) : Reg.SCAN_STATE k ≠ Reg.SCAN_STATUS := by
  simp only [Reg.SCAN_STATE, Reg.SCAN_STATUS]
  omega

/-- The mode in the registers. -/
def modeShown (k : Fin 2) (n : Nat) (s : State) : State :=
  setF (setF s (Reg.SCAN_STATE k) F.SCAN_STATE_mode n) Reg.SCAN_STATUS (if k = 0 then F.SCAN_STATUS_mode0 else F.SCAN_STATUS_mode1) n

theorem setScanMode_ne {n : Nat} (h : scanMode s k ≠ n) : setScanMode k n s =
    logN 0x8001 k (scanMode s k * 256 + n) (modeShown k n s) := if_neg h

theorem setScanMode_same {n : Nat} (h : scanMode s k = n) : setScanMode k n s = s := if_pos h

theorem modeShown_effect (k : Fin 2) (n : Nat) (hn : n < 4) (s : State) : scanMode (modeShown k n s) k = n ∧
    (∀ G : Fld, 2 ≤ G.lo → fld (modeShown k n s) (Reg.SCAN_STATE k) G = fld s (Reg.SCAN_STATE k) G) ∧
    (∀ a, a ∉ [Reg.SCAN_STATE k, Reg.SCAN_STATUS] → rd (modeShown k n s) a = rd s a) := by
  refine ⟨?_, fun G hG => ?_, fun a ha => ?_⟩
  · rw [scanMode, modeShown, fld_setF_ne _ _ _ _ (SCAN_STATE_ne_STATUS k), fld_setF _ _ _ _ (by decide)]
    exact Nat.mod_eq_of_lt hn
  · rw [modeShown, fld_setF_ne _ _ _ _ (SCAN_STATE_ne_STATUS k)]
    exact fld_setF_disj s _ F.SCAN_STATE_mode G _ (.inr hG)
  · simp only [List.mem_cons, List.not_mem_nil, or_false, not_or] at ha
    rw [modeShown, rd_setF_ne _ _ _ ha.2, rd_setF_ne _ _ _ ha.1]

theorem setScanMode_effect {n : Nat} (hn : n < 4) (h : scanMode s k ≠ n) (hroom : Room 1 s) : ModeSet k n s (setScanMode k n s) := by
  rw [setScanMode_ne h]
  obtain ⟨hmode, hstate, hregs⟩ := modeShown_effect k n hn s
  have hrd := rd_logN_room 0x8001 k (scanMode s k * 256 + n) (s := s) (x := modeShown k n s) rfl hroom
  refine ⟨?_, (fld_of_rd (hrd _) _).trans hmode, fun G hG => (fld_of_rd (hrd _) _).trans (hstate G hG),
    fun a ha => (hrd a).trans (hregs a ha), logEvent_busReply .., logEvent_tai .., logEvent_ticks .., logged_logN _ _ _ rfl hroom⟩
  exact keeps_of_ev (f := ⟨[.log], [.cmd], false⟩) (p := .scan) (ev_logEvent (by decide) (by decide) (Ev.refl _ _)) rfl

/-! ### Held transfers and quiescing -/

/-- What making a held transfer leaves of a core: its tasks but the held transfer itself, its values, and its plans. -/
structure HeldMade (k : Fin 2) (s t : State) : Prop where
  tasks : ∀ i : Fin 8, ∃ h, (t.scan.cores[k]).tasks[i] = { (s.scan.cores[k]).tasks[i] with held := h }
  rest : ∃ o b v, t.scan.cores[k] = { s.scan.cores[k] with out := o, output := b, tasks := v }
  lastPub : t.scan.lastPub = s.scan.lastPub
  regs : t.regs = s.regs
  log : t.log = s.log
  tai : t.tai = s.tai
  ticks : t.ticks = s.ticks
  reply : t.busReply = s.busReply

theorem HeldMade.refl (k : Fin 2) (s : State) : HeldMade k s s :=
  ⟨fun _ => ⟨_, rfl⟩, ⟨_, _, _, rfl⟩, rfl, rfl, rfl, rfl, rfl, rfl⟩

theorem HeldMade.trans (h : HeldMade k s x) (h' : HeldMade k x t) : HeldMade k s t := by
  refine ⟨fun i => ?_, ?_, h'.lastPub.trans h.lastPub, h'.regs.trans h.regs, h'.log.trans h.log, h'.tai.trans h.tai,
    h'.ticks.trans h.ticks, h'.reply.trans h.reply⟩
  · obtain ⟨a, ha⟩ := h.tasks i
    obtain ⟨b, hb⟩ := h'.tasks i
    exact ⟨b, by rw [hb, ha]⟩
  · obtain ⟨o, b, v, hs⟩ := h.rest
    obtain ⟨o', b', v', hx⟩ := h'.rest
    exact ⟨o', b', v', by rw [hx, hs]⟩

theorem core_handOver (k : Fin 2) (l : List (Nat × BitVec 64)) (s : State) : (handOver k l s).scan.cores[k] =
    { s.scan.cores[k] with output := (s.scan.cores[k].output.put
        (l.foldl (fun o e => symPut o e.1 (forced s k e.1 e.2)) s.scan.cores[k].output.latest.values) (now s)) } := core_setScan ..

theorem core_transferNow (k : Fin 2) (l : List (Nat × BitVec 64)) (s : State) : (transferNow k l s).scan.cores[k] =
    { s.scan.cores[k] with
      out := l.foldl (fun o e => symPut o e.1 e.2) s.scan.cores[k].out
      output := (s.scan.cores[k].output.put
        (l.foldl (fun o e => symPut o e.1 (forced s k e.1 e.2)) s.scan.cores[k].output.latest.values) (now s)) } := by
  refine (core_handOver k l _).trans ?_
  rw [core_setScan]
  rfl

theorem heldMade_makeHeld (k : Fin 2) (i : Fin 8) (s : State) : HeldMade k s (makeHeld k i s) := by
  unfold makeHeld
  dsimp only
  split
  · exact .refl k s
  · next l _ =>
    have hcore := core_transferNow k l (setTask k i { (s.scan.cores[k]).tasks[i] with held := none } s)
    rw [core_setTask] at hcore
    refine ⟨fun j => ?_, ⟨_, _, _, hcore⟩, rfl, rfl, rfl, rfl, rfl, rfl⟩
    rw [hcore]
    by_cases hj : j = i
    · subst hj
      exact ⟨none, task_set _ _ _⟩
    · exact ⟨_, task_set_ne _ hj _⟩

theorem heldMade_forEach (k : Fin 2) (l : List (Fin 8)) (s : State) : HeldMade k s (forEach l (makeHeld k) s) :=
  forEach_keeps (P := HeldMade k s) (fun i _ _ h => h.trans (heldMade_makeHeld k i _)) (.refl k s)

/-- Has a cycle of the core started that is not complete? -/
abbrev InCycle (s : State) (k : Fin 2) : Prop := ¬ ∀ i : Fin 8, (s.scan.cores[k]).tasks[i].busy = true → (s.scan.cores[k]).tasks[i].started = false

theorem task_dropUnstarted (c : ScanCore) (i : Fin 8) : (dropUnstarted c).tasks[i] =
    if c.tasks[i].busy ∧ !c.tasks[i].started then { c.tasks[i] with busy := false } else c.tasks[i] := by simp [dropUnstarted]

theorem anyBusy_iff (c : ScanCore) : anyBusy c = true ↔ ∃ i : Fin 8, c.tasks[i].busy = true := by
  unfold anyBusy
  rw [List.any_eq_true]
  constructor
  · rintro ⟨z, hz, hb⟩
    obtain ⟨i, hi, rfl⟩ := List.getElem_of_mem hz
    exact ⟨⟨i, by simpa using hi⟩, by simpa using hb⟩
  · rintro ⟨i, hb⟩
    exact ⟨c.tasks[i], by simp, hb⟩

theorem anyBusy_dropUnstarted (c : ScanCore) : anyBusy (dropUnstarted c) = true ↔
    ¬ ∀ i : Fin 8, c.tasks[i].busy = true → c.tasks[i].started = false := by
  rw [anyBusy_iff, not_forall]
  refine exists_congr fun i => ?_
  rw [task_dropUnstarted]
  generalize c.tasks[i] = z
  cases hb : z.busy <;> cases hs : z.started <;> simp [hb]

/-- The core as it quiesces towards a mode, before the mode is reached. -/
def quiescing (k : Fin 2) (m : Nat) (s : State) : State :=
  setScan k { dropUnstarted (forEach (List.finRange 8) (makeHeld k) s).scan.cores[k] with quiesce := some m }
    (forEach (List.finRange 8) (makeHeld k) s)

theorem quiesceTo_eq (k : Fin 2) (m : Nat) (s : State) : quiesceTo k m s = settleQuiesce k (quiescing k m s) := rfl

theorem anyBusy_quiescing (k : Fin 2) (m : Nat) (s : State) : anyBusy (quiescing k m s).scan.cores[k] = true ↔ InCycle s k := by
  have hh := heldMade_forEach k (List.finRange 8) s
  rw [quiescing, core_setScan]
  generalize forEach (List.finRange 8) (makeHeld k) s = y at hh
  refine (anyBusy_dropUnstarted y.scan.cores[k]).trans (not_congr (forall_congr' fun i => ?_))
  obtain ⟨h, hi⟩ := hh.tasks i
  rw [hi]

theorem quiescing_fields (k : Fin 2) (m : Nat) (s : State) : (quiescing k m s).scan.cores[k].quiesce = some m ∧
    (quiescing k m s).scan.cores[k].step = s.scan.cores[k].step ∧
    (quiescing k m s).regs = s.regs ∧ (quiescing k m s).log = s.log ∧ (quiescing k m s).tai = s.tai ∧
    (quiescing k m s).busReply = s.busReply := by
  have hh := heldMade_forEach k (List.finRange 8) s
  unfold quiescing
  generalize forEach (List.finRange 8) (makeHeld k) s = y at hh ⊢
  obtain ⟨o, b, v, hrest⟩ := hh.rest
  refine ⟨by rw [core_setScan], ?_, hh.regs, hh.log, hh.tai, hh.reply⟩
  rw [core_setScan]
  exact show y.scan.cores[k].step = _ by rw [hrest]

theorem settleQuiesce_busy {m : Nat} (hq : s.scan.cores[k].quiesce = some m) (hb : anyBusy s.scan.cores[k] = true) :
    settleQuiesce k s = s := by
  unfold settleQuiesce
  dsimp only
  rw [hq]
  exact if_pos hb

theorem settleQuiesce_none (hq : s.scan.cores[k].quiesce = none) : settleQuiesce k s = s := by
  unfold settleQuiesce
  dsimp only
  rw [hq]

theorem settleQuiesce_idle {m : Nat} (hq : s.scan.cores[k].quiesce = some m) (hb : anyBusy s.scan.cores[k] = false) :
    settleQuiesce k s = whenS (m == scanStop) (rescheduleSwap k) (setScanMode k m
      (setScan k (if m = scanStop then dropCycles s.scan.cores[k] else { s.scan.cores[k] with quiesce := none }) s)) := by
  unfold settleQuiesce
  dsimp only
  rw [hq]
  exact if_neg (by rw [hb]; exact Bool.false_ne_true)

theorem wr64_kept (s : State) (a : Nat) (v : BitVec 64) : (wr64 s a v).scan = s.scan ∧ (wr64 s a v).log = s.log ∧ (wr64 s a v).tai = s.tai ∧
    (wr64 s a v).busReply = s.busReply ∧ ∀ b, b ≠ a → b ≠ a + 4 → rd (wr64 s a v) b = rd s b :=
  ⟨rfl, rfl, rfl, rfl, fun _ h h' => rd_wr64_ne _ _ h h'⟩

/-- Rescheduling an exchange writes its swap time alone. -/
theorem rescheduleSwap_effect (k : Fin 2) (s : State) : (rescheduleSwap k s).scan = s.scan ∧ (rescheduleSwap k s).log = s.log ∧
    (rescheduleSwap k s).tai = s.tai ∧ (rescheduleSwap k s).busReply = s.busReply ∧
    ∀ a, a ≠ Reg.SCAN_SWAP_TIME k → a ≠ Reg.SCAN_SWAP_TIME k + 4 → rd (rescheduleSwap k s) a = rd s a := by
  unfold rescheduleSwap
  split
  · exact ⟨rfl, rfl, rfl, rfl, fun _ _ _ => rfl⟩
  · split
    · exact wr64_kept ..
    · exact ⟨rfl, rfl, rfl, rfl, fun _ _ _ => rfl⟩

theorem scanMode_rescheduleSwap (k : Fin 2) (s : State) : scanMode (rescheduleSwap k s) k = scanMode s k := by
  obtain ⟨-, -, -, -, hregs⟩ := rescheduleSwap_effect k s
  exact scanMode_of_rd (hregs _ (by simp only [Reg.SCAN_STATE, Reg.SCAN_SWAP_TIME]; omega)
    (by simp only [Reg.SCAN_STATE, Reg.SCAN_SWAP_TIME]; omega))

theorem task_dropCycles (c : ScanCore) (i : Fin 8) : (dropCycles c).tasks[i] =
    { c.tasks[i] with busy := false, started := false, afterSwap := false, held := none, skipped := 0 } := by simp [dropCycles]

/-- A core that reaches STOP: no cycle, no step, its values as they were. -/
theorem coreStopped_effect (hmode : scanMode s k ≠ scanStop) (hroom : Room 1 s) (c : ScanCore) :
    scanMode (rescheduleSwap k (setScanMode k scanStop (setScan k c s))) k = scanStop ∧
    (rescheduleSwap k (setScanMode k scanStop (setScan k c s))).scan.cores[k] = c ∧
    (rescheduleSwap k (setScanMode k scanStop (setScan k c s))).busReply = s.busReply ∧
    (∀ G : Fld, 2 ≤ G.lo → fld (rescheduleSwap k (setScanMode k scanStop (setScan k c s))) (Reg.SCAN_STATE k) G = fld s (Reg.SCAN_STATE k) G) ∧
    Logged [(0x8001, k.val, BitVec.ofNat 32 (scanMode s k * 256))] s (rescheduleSwap k (setScanMode k scanStop (setScan k c s))) := by
  obtain hset := setScanMode_effect (s := setScan k c s) (k := k) (n := scanStop) (by decide) hmode hroom
  have hstate : ∀ G, fld (setScan k c s) (Reg.SCAN_STATE k) G = fld s (Reg.SCAN_STATE k) G := fun _ => rfl
  have hcore := core_setScan k c s
  have hsame : Logged [(0x8001, k.val, BitVec.ofNat 32 (scanMode s k * 256))] s (setScanMode k scanStop (setScan k c s)) := by
    have h := hset.logged
    rwa [show scanMode (setScan k c s) k * 256 + scanStop = scanMode s k * 256 from Nat.add_zero _] at h
  have hreply : (setScanMode k scanStop (setScan k c s)).busReply = s.busReply := hset.reply
  generalize setScan k c s = x at hset hstate hcore hsame hreply
  generalize setScanMode k scanStop x = y at hset hsame hreply
  obtain ⟨hscan, hlog, htai, hrep, hregs⟩ := rescheduleSwap_effect k y
  refine ⟨(scanMode_rescheduleSwap k y).trans hset.mode, ?_, hrep.trans hreply, fun G hG => ?_, logged_congr hsame hlog htai⟩
  · rw [hscan, hset.scan, hcore]
  · rw [fld_of_rd (hregs _ (by simp only [Reg.SCAN_STATE, Reg.SCAN_SWAP_TIME]; omega)
      (by simp only [Reg.SCAN_STATE, Reg.SCAN_SWAP_TIME]; omega)), hset.state G hG, hstate]

/-! ### Restarts (R325) -/

/-- The values a restart begins with. -/
def restartVars (c : ScanCore) (warm : Bool) : List (Nat × BitVec 64) :=
  (symbolsOf c).foldl (fun l (y : ScanSymbol) =>
    symPut l y.id.toNat (if warm && y.retained then symGet c.vars y.id.toNat else y.init)) []

/-- The core as a restart leaves it. -/
def restartCore (c : ScanCore) (warm : Bool) : ScanCore :=
  { c with
    vars := restartVars c warm, timers := [], trigs := [], edges := Vector.replicate 16 {}
    queue := if warm then c.queue else ((symbolsOf c).filter (fun (y : ScanSymbol) => y.retained)).foldl
      (fun l (y : ScanSymbol) => instPut l y.id.toNat y.init) []
    tasks := c.tasks.map (fun y => { y with busy := false, started := false, held := none, skipped := 0, consecutive := 0 }) }

/-- The figures of the tasks cleared. -/
def taskFiguresCleared (k : Fin 2) (s : State) : State :=
  forEach (List.range 8) (fun t s => wr (wr s (Reg.SCAN_TASK_STAT k t) 0) (Reg.SCAN_TASK_TIME k t) 0) s

theorem restart_eq (k : Fin 2) (warm : Bool) (s : State) : restart k warm s = logN 0x8005 k (b2n warm) (taskFiguresCleared k
    (setF (setF (setScan k (restartCore s.scan.cores[k] warm) s) (Reg.SCAN_STATE k) F.SCAN_STATE_overrun 0)
      (Reg.SCAN_STATE k) F.SCAN_STATE_warm_last (b2n warm))) := rfl

/-- What clearing the figures leaves. -/
structure FiguresOnly (k : Fin 2) (s t : State) : Prop where
  scan : t.scan = s.scan
  log : t.log = s.log
  tai : t.tai = s.tai
  reply : t.busReply = s.busReply
  state : rd t (Reg.SCAN_STATE k) = rd s (Reg.SCAN_STATE k)

theorem FiguresOnly.refl (k : Fin 2) (s : State) : FiguresOnly k s s := ⟨rfl, rfl, rfl, rfl, rfl⟩

/-- The figures of one task cleared. -/
def figureCleared (k : Fin 2) (i : Nat) (s : State) : State := wr (wr s (Reg.SCAN_TASK_STAT k i) 0) (Reg.SCAN_TASK_TIME k i) 0

theorem taskFiguresCleared_eq (k : Fin 2) (s : State) : taskFiguresCleared k s = forEach (List.range 8) (figureCleared k) s := rfl

theorem FiguresOnly.step (h : FiguresOnly k s y) (i : Nat) : FiguresOnly k s (figureCleared k i y) := by
  refine ⟨h.scan, h.log, h.tai, h.reply, Eq.trans ?_ h.state⟩
  rw [figureCleared, rd_wr_ne _ _ (by simp only [Reg.SCAN_STATE, Reg.SCAN_TASK_TIME]; omega),
    rd_wr_ne _ _ (by simp only [Reg.SCAN_STATE, Reg.SCAN_TASK_STAT]; omega)]

theorem figuresOnly_cleared (k : Fin 2) (s : State) : FiguresOnly k s (taskFiguresCleared k s) := by
  rw [taskFiguresCleared_eq]
  exact forEach_keeps (P := FiguresOnly k s) (fun i _ _ h => h.step i) (.refl k s)

/-- A core restarted: its record, its mode still as it was, and the restart logged. -/
structure Restarted' (k : Fin 2) (warm : Bool) (s t : State) : Prop where
  core : t.scan.cores[k] = restartCore s.scan.cores[k] warm
  mode : scanMode t k = scanMode s k
  warmLast : flg t (Reg.SCAN_STATE k) F.SCAN_STATE_warm_last = warm
  overrun : fld t (Reg.SCAN_STATE k) F.SCAN_STATE_overrun = 0
  tai : t.tai = s.tai
  reply : t.busReply = s.busReply
  logged : Room 1 s → Logged [(0x8005, k.val, BitVec.ofNat 32 (b2n warm))] s t

theorem restart_restarted (k : Fin 2) (warm : Bool) (s : State) : Restarted' k warm s (restart k warm s) := by
  rw [restart_eq]
  have hfig := figuresOnly_cleared k (setF (setF (setScan k (restartCore s.scan.cores[k] warm) s) (Reg.SCAN_STATE k) F.SCAN_STATE_overrun 0)
      (Reg.SCAN_STATE k) F.SCAN_STATE_warm_last (b2n warm))
  have hrd : ∀ y : State, rd (logN 0x8005 k (b2n warm) y) (Reg.SCAN_STATE k) = rd y (Reg.SCAN_STATE k) := fun y =>
    rd_logEvent y _ _ _ (by simp only [Reg.SCAN_STATE, Reg.CMD_STATUS]; omega) (by simp only [Reg.SCAN_STATE, Reg.CMD_EVT_LOST]; omega)
  have hscan : ∀ y : State, (logN 0x8005 k (b2n warm) y).scan = y.scan := fun y =>
    keeps_of_ev (f := ⟨[.log], [.cmd], false⟩) (p := .scan) (ev_logEvent (by decide) (by decide) (Ev.refl _ y)) rfl
  refine ⟨?_, ?_, ?_, ?_, (logEvent_tai ..).trans hfig.tai, (logEvent_busReply ..).trans hfig.reply, fun hroom =>
    logged_logN _ _ _ hfig.log hroom⟩
  · rw [hscan, hfig.scan]
    exact core_setScan ..
  · rw [scanMode_of_rd (hrd _), scanMode_of_rd hfig.state, scanMode, fld_setF_disj _ _ _ _ _ (by decide), fld_setF_disj _ _ _ _ _ (by decide)]
    rfl
  · rw [flg_of_rd (hrd _), flg_of_rd hfig.state, flg_setF_b2n _ _ _ _ (by decide) (by decide)]
  · rw [fld_of_rd (hrd _), fld_of_rd hfig.state, fld_setF_disj _ _ _ _ _ (by decide), fld_setF _ _ _ _ (by decide)]
    rfl

theorem restart_value {c : ScanCore} {z : ScanSymbol} (warm : Bool) (hz : z ∈ symbolsOf c) (hu : ∀ w ∈ symbolsOf c, w.id = z.id → w = z) :
    symGet (restartVars c warm) z.id.toNat = if warm = true ∧ z.retained = true then symGet c.vars z.id.toNat else z.init := by
  have h := symGet_putAll (key := fun y => y.id.toNat) (g := fun y => some (if warm && y.retained then symGet c.vars y.id.toNat else y.init))
    (n := z.id.toNat) ⟨z, hz, rfl, rfl⟩ (fun w hw he => .inr (by rw [hu w hw (BitVec.eq_of_toNat_eq he)])) []
  refine h.trans ?_
  simp only [Bool.and_eq_true]

/-- The core live from a publication on, its trap forgotten. -/
def liveCore (k : Fin 2) (q : Nat) (s : State) : State :=
  setScan k { s.scan.cores[k] with liveFrom := q, quiesce := none, step := none, frozen := false }
    (setF s (Reg.SCAN_STATE k) F.SCAN_STATE_trap 0)

theorem enterRun_eq (k : Fin 2) (q : Nat) (s : State) : enterRun k q s = setScanMode k scanRun (liveCore k q s) := rfl

theorem liveCore_fields (k : Fin 2) (q : Nat) (s : State) : (liveCore k q s).scan.cores[k] =
      { s.scan.cores[k] with liveFrom := q, quiesce := none, step := none, frozen := false } ∧
    (liveCore k q s).log = s.log ∧ (liveCore k q s).tai = s.tai ∧ (liveCore k q s).busReply = s.busReply ∧
    scanMode (liveCore k q s) k = scanMode s k ∧ fld (liveCore k q s) (Reg.SCAN_STATE k) F.SCAN_STATE_trap = 0 ∧
    ∀ G : Fld, (G.lo + G.w ≤ 16 ∨ 24 ≤ G.lo) → fld (liveCore k q s) (Reg.SCAN_STATE k) G = fld s (Reg.SCAN_STATE k) G :=
  ⟨core_setScan .., rfl, rfl, rfl, fld_setF_disj s _ _ _ _ (by decide), fld_setF s _ _ _ (by decide),
    fun _ hG => fld_setF_disj s _ _ _ _ hG⟩

/-- A core started from STOP: RUN, with what the restart left, live from the instant given. -/
structure RunEntered (k : Fin 2) (q : Nat) (s t : State) : Prop where
  mode : scanMode t k = scanRun
  core : t.scan.cores[k] = { s.scan.cores[k] with liveFrom := q, quiesce := none, step := none, frozen := false }
  trap : fld t (Reg.SCAN_STATE k) F.SCAN_STATE_trap = 0
  rest : ∀ G : Fld, 2 ≤ G.lo → (G.lo + G.w ≤ 16 ∨ 24 ≤ G.lo) → fld t (Reg.SCAN_STATE k) G = fld s (Reg.SCAN_STATE k) G
  reply : t.busReply = s.busReply
  tai : t.tai = s.tai
  logged : Logged [(0x8001, k.val, 1)] s t

theorem enterRun_effect (q : Nat) (hstop : scanMode s k = scanStop) (hroom : Room 1 s) : RunEntered k q s (enterRun k q s) := by
  rw [enterRun_eq]
  obtain ⟨hcore, hlog, htai, hreply, hmode, htrap, hrest⟩ := liveCore_fields k q s
  generalize liveCore k q s = x at *
  rw [hstop] at hmode
  have hset := setScanMode_effect (n := scanRun) (by decide) (by rw [hmode]; decide) (room_of_log hlog hroom)
  refine ⟨hset.mode, by rw [hset.scan, hcore], (hset.state _ (by decide)).trans htrap, fun G h2 hG => (hset.state G h2).trans (hrest G hG),
    hset.reply.trans hreply, hset.tai.trans htai, ?_⟩
  have hl := hset.logged
  rw [hmode] at hl
  unfold Logged at hl ⊢
  rw [← hlog]
  exact hl

end ScanRules

end Sys2Proof.Machine
end


section
/-! PROOFS. Requests to a scan core by SCAN_CTRL, the start of a program on its own, and the end of HOLD (R320 to R326, R368). -/

namespace Sys2Proof.Machine

open Sys2Proof Sys2Proof.Safety Sys2Proof.Laws

section ScanRequests

variable {k : Fin 2} {m : Fin 8} {v : Word} {s x y t : State}

/-! ### A write of SCAN_CTRL -/

/-- What a write of SCAN_CTRL stores. -/
def ctrlNoted (k : Fin 2) (v : Word) (s : State) : State :=
  setF (setF s (Reg.SCAN_CTRL k) F.SCAN_CTRL_step_task (getF v F.SCAN_CTRL_step_task)) (Reg.SCAN_CTRL k) F.SCAN_CTRL_cold (getF v F.SCAN_CTRL_cold)

/-- The end of a request: a refusal is shown and logged. -/
def requestEnded (k : Fin 2) (r : Nat × Nat × State) : State :=
  if r.2.1 = stOk then r.2.2 else logN 0x8003 k (r.1 * 256 + r.2.1) (setF r.2.2 Reg.SCAN_STATUS F.SCAN_STATUS_refused 1)

theorem writeScanCtrl_eq (k : Fin 2) (v : Word) (s : State) : writeScanCtrl k v s = requestEnded k
    (takeRequests k (getF v F.SCAN_CTRL_run == 1) (getF v F.SCAN_CTRL_stop == 1) (getF v F.SCAN_CTRL_hold == 1)
      (getF v F.SCAN_CTRL_step == 1) (getF v F.SCAN_CTRL_cold == 1) (Fin.ofNat 8 (getF v F.SCAN_CTRL_step_task)) (ctrlNoted k v s)) := rfl

theorem requestEnded_ok (n : Nat) (s : State) : requestEnded k (n, stOk, s) = s := if_pos rfl

/-- Apart from SCAN_CTRL of the core, all is as before. -/
structure CtrlOnly (k : Fin 2) (s t : State) : Prop where
  scan : t.scan = s.scan
  log : t.log = s.log
  tai : t.tai = s.tai
  reply : t.busReply = s.busReply
  regs : ∀ a, a ≠ Reg.SCAN_CTRL k → rd t a = rd s a

theorem ctrlOnly_noted (k : Fin 2) (v : Word) (s : State) : CtrlOnly k s (ctrlNoted k v s) :=
  ⟨rfl, rfl, rfl, rfl, fun a ha => by rw [ctrlNoted, rd_setF_ne _ _ _ ha, rd_setF_ne _ _ _ ha]⟩

theorem CtrlOnly.mode (h : CtrlOnly k s t) : scanMode t k = scanMode s k :=
  fld_of_rd (h.regs _ (by simp only [Reg.SCAN_CTRL, Reg.SCAN_STATE]; omega)) _

theorem CtrlOnly.held (h : CtrlOnly k s t) : heldInStop t = heldInStop s := by
  unfold heldInStop
  rw [flg_of_rd (h.regs _ ((by decide : ∀ k : Fin 2, Reg.DPX_CFG ≠ Reg.SCAN_CTRL k) k)),
    fld_of_rd (h.regs _ ((by decide : ∀ k : Fin 2, Reg.DPX_STATUS ≠ Reg.SCAN_CTRL k) k))]

theorem CtrlOnly.permitted (h : CtrlOnly k s t) : holdPermitted t = holdPermitted s := by
  unfold holdPermitted anyEnergised
  rw [fld_of_rd (h.regs _ ((by decide : ∀ k : Fin 2, Reg.CTRL_STATUS ≠ Reg.SCAN_CTRL k) k)),
    flg_of_rd (h.regs _ ((by decide : ∀ k : Fin 2, Reg.FAB_PERMIT ≠ Reg.SCAN_CTRL k) k))]

theorem CtrlOnly.denied (h : CtrlOnly k s t) : warmDenied t k = warmDenied s k := by
  unfold warmDenied
  rw [h.scan, h.regs _ ((by decide : ∀ k : Fin 2, Reg.FAB_IMAGE_ID ≠ Reg.SCAN_CTRL k) k),
    h.regs _ (by simp only [Reg.SCAN_CTRL, Reg.SCAN_PROG_ID]; omega)]

theorem CtrlOnly.publication (h : CtrlOnly k s t) : nextPublication t = nextPublication s := by
  unfold nextPublication
  rw [nowNat_eq, nowNat_eq, h.scan, h.tai]

theorem logged_of_base {es : List (Nat × Nat × Word)} (hlog : x.log = s.log) (h : Logged es x t) : Logged es s t := by
  unfold Logged at h ⊢
  rw [← hlog]
  exact h

/-! ### The words of the requests -/

theorem exec_scanRun (hs : Served m true (Reg.SCAN_CTRL k) 4 s) (hact : holdsActive s = true) (hstop : getF v F.SCAN_CTRL_stop = 0)
    (hhold : getF v F.SCAN_CTRL_hold = 0) (hstep : getF v F.SCAN_CTRL_step = 0) : exec (.scanRun m k v) s =
    .next (requestEnded k (1, runRequest k (getF v F.SCAN_CTRL_cold == 1) (ctrlNoted k (putF v F.SCAN_CTRL_run 1) (reply .done s)))) := by
  refine Eq.trans (b := .next (regCommand m (Reg.SCAN_CTRL k) (putF v F.SCAN_CTRL_run 1) s)) rfl ?_
  rw [regCommand_SCAN_CTRL _ hs, roleWrite_active (s := reply .done s) _ hact, writeScanCtrl_eq, getF_putF _ _ _ (by decide),
    getF_putF_ne _ F.SCAN_CTRL_run F.SCAN_CTRL_stop _ (by decide), getF_putF_ne _ F.SCAN_CTRL_run F.SCAN_CTRL_hold _ (by decide),
    getF_putF_ne _ F.SCAN_CTRL_run F.SCAN_CTRL_step _ (by decide), getF_putF_ne _ F.SCAN_CTRL_run F.SCAN_CTRL_cold _ (by decide),
    hstop, hhold, hstep]
  rfl

theorem exec_scanStop (hs : Served m true (Reg.SCAN_CTRL k) 4 s) (hact : holdsActive s = true) : exec (.scanStop m k v) s =
    .next (stopRequest k (ctrlNoted k (putF v F.SCAN_CTRL_stop 1) (reply .done s))) := by
  refine Eq.trans (b := .next (regCommand m (Reg.SCAN_CTRL k) (putF v F.SCAN_CTRL_stop 1) s)) rfl ?_
  rw [regCommand_SCAN_CTRL _ hs, roleWrite_active (s := reply .done s) _ hact, writeScanCtrl_eq,
    getF_putF v F.SCAN_CTRL_stop 1 (by decide)]
  rfl

theorem exec_scanHold (hs : Served m true (Reg.SCAN_CTRL k) 4 s) (hact : holdsActive s = true) (hstop : getF v F.SCAN_CTRL_stop = 0) :
    exec (.scanHold m k v) s =
    .next (requestEnded k (2, holdRequest k (ctrlNoted k (putF v F.SCAN_CTRL_hold 1) (reply .done s)))) := by
  refine Eq.trans (b := .next (regCommand m (Reg.SCAN_CTRL k) (putF v F.SCAN_CTRL_hold 1) s)) rfl ?_
  rw [regCommand_SCAN_CTRL _ hs, roleWrite_active (s := reply .done s) _ hact, writeScanCtrl_eq,
    getF_putF_ne _ F.SCAN_CTRL_hold F.SCAN_CTRL_stop _ (by decide), getF_putF v F.SCAN_CTRL_hold 1 (by decide), hstop]
  rfl

theorem exec_scanStep (hs : Served m true (Reg.SCAN_CTRL k) 4 s) (hact : holdsActive s = true) (hstop : getF v F.SCAN_CTRL_stop = 0)
    (hhold : getF v F.SCAN_CTRL_hold = 0) : exec (.scanStep m k v) s =
    .next (requestEnded k (3, stepRequest k (Fin.ofNat 8 (getF v F.SCAN_CTRL_step_task))
      (ctrlNoted k (putF v F.SCAN_CTRL_step 1) (reply .done s)))) := by
  refine Eq.trans (b := .next (regCommand m (Reg.SCAN_CTRL k) (putF v F.SCAN_CTRL_step 1) s)) rfl ?_
  rw [regCommand_SCAN_CTRL _ hs, roleWrite_active (s := reply .done s) _ hact, writeScanCtrl_eq,
    getF_putF_ne _ F.SCAN_CTRL_step F.SCAN_CTRL_stop _ (by decide), getF_putF_ne _ F.SCAN_CTRL_step F.SCAN_CTRL_hold _ (by decide),
    getF_putF_ne _ F.SCAN_CTRL_step F.SCAN_CTRL_step_task _ (by decide), getF_putF v F.SCAN_CTRL_step 1 (by decide), hstop, hhold]
  rfl

theorem scanRequest_other (hs : Served m true (Reg.SCAN_CTRL k) 4 s) (hact : holdsActive s = false) (w : Word) :
    regCommand m (Reg.SCAN_CTRL k) w s = setF { s with busReply := .done } Reg.DPX_STATUS F.DPX_STATUS_role_write 1 := by
  rw [regCommand_SCAN_CTRL _ hs, roleWrite_other (s := reply .done s) _ hact]
  rfl

/-! ### Refusals -/

/-- A request refused: shown and logged, the cores as before. -/
def Refused (k : Fin 2) (s t : State) : Prop := t.busReply = .done ∧ scanMode t k = scanMode s k ∧
  flg t Reg.SCAN_STATUS F.SCAN_STATUS_refused = true ∧ t.scan = s.scan

theorem same_logN (c q e : Nat) (s : State) : (logN c q e s).scan = s.scan ∧ (logN c q e s).busReply = s.busReply ∧
    (logN c q e s).tai = s.tai :=
  ⟨keeps_of_ev (f := ⟨[.log], [.cmd], false⟩) (p := .scan) (ev_logEvent (by decide) (by decide) (Ev.refl _ s)) rfl,
    logEvent_busReply .., logEvent_tai ..⟩

theorem requestEnded_refused (n st : Nat) (hst : st ≠ stOk) (hreply : x.busReply = .done) (hmode : scanMode x k = scanMode s k)
    (hscan : x.scan = s.scan) (hroom : Room 1 x) : Refused k s (requestEnded k (n, st, x)) ∧
    Logged [(0x8003, k.val, BitVec.ofNat 32 (n * 256 + st))] x (requestEnded k (n, st, x)) := by
  have he : requestEnded k (n, st, x) = logN 0x8003 k (n * 256 + st) (setF x Reg.SCAN_STATUS F.SCAN_STATUS_refused 1) := if_neg hst
  rw [he]
  have hrd := rd_logN_room 0x8003 k (n * 256 + st) (s := x) (x := setF x Reg.SCAN_STATUS F.SCAN_STATUS_refused 1) rfl hroom
  obtain ⟨h1, h2, -⟩ := same_logN 0x8003 k (n * 256 + st) (setF x Reg.SCAN_STATUS F.SCAN_STATUS_refused 1)
  refine ⟨⟨h2.trans hreply, ?_, ?_, h1.trans hscan⟩, logged_logN _ _ _ rfl hroom⟩
  · rw [scanMode_of_rd (hrd _), scanMode_of_rd (rd_setF_ne _ _ _ (SCAN_STATE_ne_STATUS k)), hmode]
  · rw [flg_of_rd (hrd _), flg_setF _ _ _ _ (by decide)]
    rfl

/-- A request refused at once. -/
theorem refused_noted (w : Word) (n st : Nat) (hst : st ≠ stOk) (hroom : Room 1 s) : ∃ t,
    requestEnded k (n, st, ctrlNoted k w (reply .done s)) = t ∧ Refused k s t ∧ Logged [(0x8003, k.val, BitVec.ofNat 32 (n * 256 + st))] s t := by
  have hc := ctrlOnly_noted k w (reply .done s)
  obtain ⟨h1, h2⟩ := requestEnded_refused n st hst hc.reply hc.mode hc.scan (room_of_log hc.log hroom)
  exact ⟨_, rfl, h1, logged_of_base hc.log h2⟩

/-! ### Run -/

theorem runRequest_hold {cold : Bool} (h : scanMode s k = scanHold) : runRequest k cold s =
    (stOk, setScanMode k scanRun (setScan k { s.scan.cores[k] with step := none } s)) := if_pos h

theorem runRequest_stop {cold : Bool} (h : scanMode s k = scanStop) : runRequest k cold s =
    if s.scan.cores[k].prog.isNone ∨ heldInStop s then (stBadState, s)
    else if cold then (stOk, enterRun k (nextPublication s * 250000) (restart k false s))
    else if warmDenied s k = 0 then (stOk, enterRun k (nextPublication s * 250000) (restart k true s))
      else (stBadState, logN 0x8006 k (warmDenied s k) s) := by
  unfold runRequest
  dsimp only
  rw [h]
  rfl

/-- A core resumed from HOLD. -/
theorem resumed_effect (h : scanMode s k = scanHold) (hroom : Room 1 s) (c : ScanCore) :
    scanMode (setScanMode k scanRun (setScan k c s)) k = scanRun ∧ (setScanMode k scanRun (setScan k c s)).scan.cores[k] = c ∧
    (setScanMode k scanRun (setScan k c s)).busReply = s.busReply ∧ (setScanMode k scanRun (setScan k c s)).tai = s.tai ∧
    (∀ a, a ∉ [Reg.SCAN_STATE k, Reg.SCAN_STATUS] → rd (setScanMode k scanRun (setScan k c s)) a = rd s a) ∧
    Logged [(0x8001, k.val, 0x201)] s (setScanMode k scanRun (setScan k c s)) := by
  have hm : scanMode (setScan k c s) k = scanHold := h
  have hset := setScanMode_effect (s := setScan k c s) (n := scanRun) (by decide) (by rw [hm]; decide) hroom
  have hl := hset.logged
  rw [hm] at hl
  exact ⟨hset.mode, by rw [hset.scan, core_setScan], hset.reply, hset.tai, hset.regs, hl⟩

theorem scanRun_resumes (hs : Served m true (Reg.SCAN_CTRL k) 4 s) (hact : holdsActive s = true) (hroom : Room 2 s)
    (hstop : getF v F.SCAN_CTRL_stop = 0) (hhold : getF v F.SCAN_CTRL_hold = 0) (hstep : getF v F.SCAN_CTRL_step = 0)
    (hmode : scanMode s k = scanHold) : ∃ t, exec (.scanRun m k v) s = .next t ∧ t.busReply = .done ∧ scanMode t k = scanRun ∧
        (t.scan.cores[k]).step = none ∧ Logged [(0x8001, k.val, 0x201)] s t := by
  rw [exec_scanRun hs hact hstop hhold hstep]
  have hc := ctrlOnly_noted k (putF v F.SCAN_CTRL_run 1) (reply .done s)
  generalize ctrlNoted k (putF v F.SCAN_CTRL_run 1) (reply .done s) = x at hc
  have hm : scanMode x k = scanHold := hc.mode.trans hmode
  rw [runRequest_hold hm]
  obtain ⟨h1, h2, h3, -, -, h5⟩ := resumed_effect hm (room_of_log hc.log (by unfold Room at hroom ⊢; exact show s.log.queue.length + 1 ≤ 256 by omega))
    { x.scan.cores[k] with step := none }
  exact ⟨_, rfl, h3.trans hc.reply, h1, (congrArg ScanCore.step h2 :), logged_of_base hc.log h5⟩

/-- A core restarted from STOP by request. -/
def RestartedBy (s t : State) (k : Fin 2) (warm : Bool) : Prop := t.busReply = .done ∧ scanMode t k = scanRun ∧
    flg t (Reg.SCAN_STATE k) F.SCAN_STATE_warm_last = warm ∧ fld t (Reg.SCAN_STATE k) F.SCAN_STATE_trap = 0 ∧
    fld t (Reg.SCAN_STATE k) F.SCAN_STATE_overrun = 0 ∧ (t.scan.cores[k]).liveFrom = nextPublication s * 250000 ∧ (t.scan.cores[k]).timers = [] ∧
    (∀ y ∈ symbolsOf (s.scan.cores[k]), (∀ z ∈ symbolsOf (s.scan.cores[k]), z.id = y.id → z = y) → symGet (t.scan.cores[k]).vars y.id.toNat =
      if warm = true ∧ y.retained = true then symGet (s.scan.cores[k]).vars y.id.toNat else y.init) ∧
    Logged [(0x8005, k.val, BitVec.ofNat 32 (b2n warm)), (0x8001, k.val, 1)] s t

theorem logged_then {es fs : List (Nat × Nat × Word)} (h : Logged es s x) (h' : Logged fs x t) (htai : t.tai = x.tai) :
    Logged (es ++ fs) s t := logged_append h h' htai

theorem restarted_effect (warm : Bool) (hmode : scanMode s k = scanStop) (hroom : Room 2 s) (hreply : s.busReply = .done)
    (q : Nat) : let t := enterRun k q (restart k warm s)
    t.busReply = .done ∧ scanMode t k = scanRun ∧
    flg t (Reg.SCAN_STATE k) F.SCAN_STATE_warm_last = warm ∧ fld t (Reg.SCAN_STATE k) F.SCAN_STATE_trap = 0 ∧
    fld t (Reg.SCAN_STATE k) F.SCAN_STATE_overrun = 0 ∧ (t.scan.cores[k]).liveFrom = q ∧ (t.scan.cores[k]).timers = [] ∧
    (t.scan.cores[k]).vars = restartVars s.scan.cores[k] warm ∧
    Logged [(0x8005, k.val, BitVec.ofNat 32 (b2n warm)), (0x8001, k.val, 1)] s t := by
  have hr := restart_restarted k warm s
  have hl := hr.logged (by unfold Room at hroom ⊢; omega)
  generalize restart k warm s = x at hr hl
  have hrun := enterRun_effect q (hr.mode.trans hmode) (room_after (n := 1) hl hroom)
  refine ⟨hrun.reply.trans (hr.reply.trans hreply), hrun.mode, ?_, hrun.trap, ?_, ?_, ?_, ?_, logged_then hl hrun.logged hrun.tai⟩
  · refine Eq.trans ?_ hr.warmLast
    unfold flg
    rw [hrun.rest _ (by decide) (by decide)]
  · rw [hrun.rest _ (by decide) (by decide), hr.overrun]
  · rw [hrun.core]
  · rw [hrun.core, hr.core]
    rfl
  · rw [hrun.core, hr.core]
    rfl

theorem scanRun_restarts (warm : Bool) (hs : Served m true (Reg.SCAN_CTRL k) 4 s) (hact : holdsActive s = true) (hroom : Room 2 s)
    (hstop : getF v F.SCAN_CTRL_stop = 0) (hhold : getF v F.SCAN_CTRL_hold = 0) (hstep : getF v F.SCAN_CTRL_step = 0)
    (hmode : scanMode s k = scanStop) (hprog : (s.scan.cores[k]).prog.isSome = true) (hheld : heldInStop s = false)
    (hcold : getF v F.SCAN_CTRL_cold = if warm then 0 else 1) (hwarm : warm = true → warmDenied s k = 0) :
    ∃ t, exec (.scanRun m k v) s = .next t ∧ RestartedBy s t k warm := by
  rw [exec_scanRun hs hact hstop hhold hstep]
  have hc := ctrlOnly_noted k (putF v F.SCAN_CTRL_run 1) (reply .done s)
  generalize ctrlNoted k (putF v F.SCAN_CTRL_run 1) (reply .done s) = x at hc
  have hm : scanMode x k = scanStop := hc.mode.trans hmode
  have hfree : ¬ (x.scan.cores[k].prog.isNone = true ∨ heldInStop x = true) := by
    have hheld' : heldInStop x = false := hc.held.trans hheld
    rw [hheld', hc.scan]
    rintro (h | h)
    · rw [Option.isNone_iff_eq_none] at h
      rw [show (reply .done s).scan = s.scan from rfl] at h
      rw [h] at hprog
      cases hprog
    · cases h
  have hpub : nextPublication x = nextPublication s := hc.publication
  have hvals : ∀ z ∈ symbolsOf (s.scan.cores[k]), (∀ w ∈ symbolsOf (s.scan.cores[k]), w.id = z.id → w = z) →
      symGet (restartVars x.scan.cores[k] warm) z.id.toNat =
      if warm = true ∧ z.retained = true then symGet (s.scan.cores[k]).vars z.id.toNat else z.init := fun z hz hu => by
    rw [hc.scan]
    exact restart_value warm hz hu
  obtain ⟨h1, h2, h3, h4, h5, h6, h7, h8, h9⟩ := restarted_effect warm hm (room_of_log hc.log hroom) hc.reply (nextPublication x * 250000)
  refine ⟨enterRun k (nextPublication x * 250000) (restart k warm x), ?_, h1, h2, h3, h4, h5, h6.trans (by rw [hpub]), h7,
    fun z hz hu => by rw [h8]; exact hvals z hz hu, logged_of_base hc.log h9⟩
  rw [runRequest_stop hm, if_neg hfree, hcold]
  cases warm
  · rfl
  · have hd : warmDenied x k = 0 := hc.denied.trans (hwarm rfl)
    rw [if_neg (by decide), if_pos hd]
    rfl

theorem scanRun_warmDenied (hs : Served m true (Reg.SCAN_CTRL k) 4 s) (hact : holdsActive s = true) (hroom : Room 2 s)
    (hstop : getF v F.SCAN_CTRL_stop = 0) (hhold : getF v F.SCAN_CTRL_hold = 0) (hstep : getF v F.SCAN_CTRL_step = 0)
    (hmode : scanMode s k = scanStop) (hprog : (s.scan.cores[k]).prog.isSome = true) (hheld : heldInStop s = false)
    (hcold : getF v F.SCAN_CTRL_cold = 0) (hden : warmDenied s k ≠ 0) : ∃ t, exec (.scanRun m k v) s = .next t ∧ Refused k s t ∧
          Logged [(0x8006, k.val, BitVec.ofNat 32 (warmDenied s k)), (0x8003, k.val, 0x109)] s t := by
  rw [exec_scanRun hs hact hstop hhold hstep]
  have hc := ctrlOnly_noted k (putF v F.SCAN_CTRL_run 1) (reply .done s)
  generalize ctrlNoted k (putF v F.SCAN_CTRL_run 1) (reply .done s) = x at hc
  have hm : scanMode x k = scanStop := hc.mode.trans hmode
  have hd : warmDenied x k = warmDenied s k := hc.denied
  have hfree : ¬ (x.scan.cores[k].prog.isNone = true ∨ heldInStop x = true) := by
    have hheld' : heldInStop x = false := hc.held.trans hheld
    rw [hheld', hc.scan]
    rintro (h | h)
    · rw [Option.isNone_iff_eq_none] at h
      rw [show (reply .done s).scan = s.scan from rfl] at h
      rw [h] at hprog
      cases hprog
    · cases h
  rw [runRequest_stop hm, if_neg hfree, hcold, if_neg (by decide), if_neg (by rw [hd]; exact hden), hd]
  have hroom1 : Room 1 x := room_of_log hc.log (by unfold Room at hroom ⊢; exact show s.log.queue.length + 1 ≤ 256 by omega)
  have hl := logged_logN 0x8006 k (warmDenied s k) (s := x) rfl hroom1
  obtain ⟨hscan, hreply, htai⟩ := same_logN 0x8006 k (warmDenied s k) x
  have hrd := rd_logN_room 0x8006 k (warmDenied s k) (s := x) rfl hroom1
  generalize logN 0x8006 k (warmDenied s k) x = y at hl hscan hreply htai hrd
  obtain ⟨h1, h2⟩ := requestEnded_refused (k := k) (s := s) 1 stBadState (by decide) (hreply.trans hc.reply)
    ((scanMode_of_rd (hrd _)).trans hc.mode) (hscan.trans hc.scan) (room_after (n := 1) hl (room_of_log hc.log hroom))
  refine ⟨_, rfl, h1, logged_of_base hc.log (logged_then hl h2 ?_)⟩
  exact (same_logN 0x8003 k (1 * 256 + stBadState) _).2.2

theorem scanRun_refused (hs : Served m true (Reg.SCAN_CTRL k) 4 s) (hact : holdsActive s = true) (hroom : Room 2 s)
    (hstop : getF v F.SCAN_CTRL_stop = 0) (hhold : getF v F.SCAN_CTRL_hold = 0) (hstep : getF v F.SCAN_CTRL_step = 0)
    (hmode : scanMode s k = scanStop) (h : (s.scan.cores[k]).prog.isNone = true ∨ heldInStop s = true) :
    ∃ t, exec (.scanRun m k v) s = .next t ∧ Refused k s t ∧ Logged [(0x8003, k.val, 0x109)] s t := by
  rw [exec_scanRun hs hact hstop hhold hstep]
  obtain ⟨t, ht, hr, hl⟩ := refused_noted (k := k) (s := s) (putF v F.SCAN_CTRL_run 1) 1 stBadState (by decide)
    (by unfold Room at hroom ⊢; omega)
  have hc := ctrlOnly_noted k (putF v F.SCAN_CTRL_run 1) (reply .done s)
  generalize ctrlNoted k (putF v F.SCAN_CTRL_run 1) (reply .done s) = x at hc ht
  have hm : scanMode x k = scanStop := hc.mode.trans hmode
  have hheld : heldInStop x = heldInStop s := hc.held
  rw [runRequest_stop hm, if_pos (by rw [hc.scan, hheld]; exact h), ht]
  exact ⟨t, rfl, hr, hl⟩

/-! ### Stop -/

theorem stopRequest_eq (h : scanMode s k ≠ scanStop) : stopRequest k s =
    settleQuiesce k (quiescing k scanStop (setScan k { s.scan.cores[k] with step := none } s)) := by
  unfold stopRequest
  rw [if_neg h, quiesceTo_eq]

theorem inCycle_step (k : Fin 2) (s : State) : InCycle (setScan k { s.scan.cores[k] with step := none } s) k ↔ InCycle s k := by
  unfold InCycle
  rw [core_setScan]

theorem stopRequest_idle (hmode : scanMode s k ≠ scanStop) (hidle : ¬ InCycle s k) (hroom : Room 1 s) :
    (stopRequest k s).busReply = s.busReply ∧ scanMode (stopRequest k s) k = scanStop ∧
    ((stopRequest k s).scan.cores[k]).step = none ∧ (∀ i : Fin 8, ((stopRequest k s).scan.cores[k]).tasks[i].busy = false) ∧
    Logged [(0x8001, k.val, BitVec.ofNat 32 (scanMode s k * 256))] s (stopRequest k s) := by
  rw [stopRequest_eq hmode]
  have hb := anyBusy_quiescing k scanStop (setScan k { s.scan.cores[k] with step := none } s)
  rw [inCycle_step] at hb
  obtain ⟨hq, -, hregs, hlog, -, hreply⟩ := quiescing_fields k scanStop (setScan k { s.scan.cores[k] with step := none } s)
  generalize quiescing k scanStop _ = y at hb hq hregs hlog hreply
  have hb' : anyBusy y.scan.cores[k] = false := Bool.eq_false_iff.mpr fun h => hidle (hb.mp h)
  have hm : scanMode y k = scanMode s k := scanMode_of_rd (rd_of_regs hregs _)
  rw [settleQuiesce_idle hq hb', if_pos rfl, show (scanStop == scanStop) = true from rfl, whenS_true]
  obtain ⟨h1, h2, h3, -, h5⟩ := coreStopped_effect (by rw [hm]; exact hmode) (room_of_log hlog hroom) (dropCycles y.scan.cores[k])
  rw [hm] at h5
  refine ⟨h3.trans hreply, h1, by rw [h2]; rfl, fun i => by rw [h2, task_dropCycles], logged_of_base hlog h5⟩

theorem stopRequest_busy (hmode : scanMode s k ≠ scanStop) (hbusy : InCycle s k) : (stopRequest k s).busReply = s.busReply ∧
    scanMode (stopRequest k s) k = scanMode s k ∧ ((stopRequest k s).scan.cores[k]).quiesce = some scanStop ∧ (stopRequest k s).log = s.log := by
  rw [stopRequest_eq hmode]
  have hb := anyBusy_quiescing k scanStop (setScan k { s.scan.cores[k] with step := none } s)
  rw [inCycle_step] at hb
  obtain ⟨hq, -, hregs, hlog, -, hreply⟩ := quiescing_fields k scanStop (setScan k { s.scan.cores[k] with step := none } s)
  generalize quiescing k scanStop _ = y at hb hq hregs hlog hreply
  rw [settleQuiesce_busy hq (hb.mpr hbusy)]
  exact ⟨hreply, scanMode_of_rd (rd_of_regs hregs _), hq, hlog⟩

theorem CtrlOnly.inCycle (h : CtrlOnly k s t) : InCycle t k ↔ InCycle s k := by
  unfold InCycle
  rw [h.scan]

theorem scanStop_idle (hs : Served m true (Reg.SCAN_CTRL k) 4 s) (hact : holdsActive s = true) (hroom : Room 2 s)
    (hmode : scanMode s k ≠ scanStop) (hidle : ¬ InCycle s k) : ∃ t, exec (.scanStop m k v) s = .next t ∧ t.busReply = .done ∧
      scanMode t k = scanStop ∧ (t.scan.cores[k]).step = none ∧ (∀ i : Fin 8, (t.scan.cores[k]).tasks[i].busy = false) ∧
      Logged [(0x8001, k.val, BitVec.ofNat 32 (scanMode s k * 256))] s t := by
  rw [exec_scanStop hs hact]
  have hc := ctrlOnly_noted k (putF v F.SCAN_CTRL_stop 1) (reply .done s)
  generalize ctrlNoted k (putF v F.SCAN_CTRL_stop 1) (reply .done s) = x at hc
  have hm : scanMode x k = scanMode s k := hc.mode
  obtain ⟨h1, h2, h3, h4, h5⟩ := stopRequest_idle (by rw [hm]; exact hmode) (fun h => hidle (hc.inCycle.mp h))
    (room_of_log hc.log (by unfold Room at hroom ⊢; exact show s.log.queue.length + 1 ≤ 256 by omega))
  rw [hm] at h5
  exact ⟨_, rfl, h1.trans hc.reply, h2, h3, h4, logged_of_base hc.log h5⟩

theorem scanStop_busy (hs : Served m true (Reg.SCAN_CTRL k) 4 s) (hact : holdsActive s = true)
    (hmode : scanMode s k ≠ scanStop) (hbusy : InCycle s k) : ∃ t, exec (.scanStop m k v) s = .next t ∧ t.busReply = .done ∧
      scanMode t k = scanMode s k ∧ (t.scan.cores[k]).quiesce = some scanStop ∧ t.log = s.log := by
  rw [exec_scanStop hs hact]
  have hc := ctrlOnly_noted k (putF v F.SCAN_CTRL_stop 1) (reply .done s)
  generalize ctrlNoted k (putF v F.SCAN_CTRL_stop 1) (reply .done s) = x at hc
  have hm : scanMode x k = scanMode s k := hc.mode
  obtain ⟨h1, h2, h3, h4⟩ := stopRequest_busy (by rw [hm]; exact hmode) (hc.inCycle.mpr hbusy)
  exact ⟨_, rfl, h1.trans hc.reply, h2.trans hm, h3, h4.trans hc.log⟩

/-! ### Hold -/

theorem holdRequest_taken (hmode : scanMode s k = scanRun) (hq : (s.scan.cores[k]).quiesce ≠ some scanStop) (hp : holdPermitted s = true) :
    holdRequest k s = (stOk, quiesceTo k scanHold s) := by
  unfold holdRequest
  rw [if_neg (by rw [hmode]; rintro (h | h); exacts [h rfl, hq h]), if_neg (by rw [hp]; exact Bool.false_ne_true)]

theorem holdRequest_notPermitted (hmode : scanMode s k = scanRun) (hq : (s.scan.cores[k]).quiesce ≠ some scanStop)
    (hp : holdPermitted s = false) : holdRequest k s = (stNotPermitted, s) := by
  unfold holdRequest
  rw [if_neg (by rw [hmode]; rintro (h | h); exacts [h rfl, hq h]), if_pos (by rw [hp]; rfl)]

theorem holdRequest_badState (h : scanMode s k ≠ scanRun ∨ (s.scan.cores[k]).quiesce = some scanStop) :
    holdRequest k s = (stBadState, s) := if_pos h

/-- A core that goes from RUN to HOLD. -/
theorem coreHeld_effect (hmode : scanMode s k = scanRun) (hroom : Room 1 s) (c : ScanCore) :
    (setScanMode k scanHold (setScan k c s)).busReply = s.busReply ∧ scanMode (setScanMode k scanHold (setScan k c s)) k = scanHold ∧
    Logged [(0x8001, k.val, 0x102)] s (setScanMode k scanHold (setScan k c s)) := by
  have hm : scanMode (setScan k c s) k = scanRun := hmode
  have hset := setScanMode_effect (s := setScan k c s) (n := scanHold) (by decide) (by rw [hm]; decide) hroom
  have hl := hset.logged
  rw [hm] at hl
  exact ⟨hset.reply, hset.mode, hl⟩

theorem quiesceTo_hold (hmode : scanMode s k = scanRun) (hidle : ¬ InCycle s k) (hroom : Room 1 s) :
    (quiesceTo k scanHold s).busReply = s.busReply ∧ scanMode (quiesceTo k scanHold s) k = scanHold ∧
    Logged [(0x8001, k.val, 0x102)] s (quiesceTo k scanHold s) := by
  rw [quiesceTo_eq]
  have hb := anyBusy_quiescing k scanHold s
  obtain ⟨hq, -, hregs, hlog, -, hreply⟩ := quiescing_fields k scanHold s
  generalize quiescing k scanHold s = y at hb hq hregs hlog hreply
  have hb' : anyBusy y.scan.cores[k] = false := Bool.eq_false_iff.mpr fun h => hidle (hb.mp h)
  rw [settleQuiesce_idle hq hb', if_neg (by decide), show (scanHold == scanStop) = false from rfl, whenS_false]
  obtain ⟨h1, h2, h3⟩ := coreHeld_effect ((scanMode_of_rd (rd_of_regs hregs _)).trans hmode) (room_of_log hlog hroom)
    { y.scan.cores[k] with quiesce := none }
  exact ⟨h1.trans hreply, h2, logged_of_base hlog h3⟩

theorem scanHold_taken (hs : Served m true (Reg.SCAN_CTRL k) 4 s) (hact : holdsActive s = true) (hroom : Room 2 s)
    (hstop : getF v F.SCAN_CTRL_stop = 0) (hmode : scanMode s k = scanRun) (hq : (s.scan.cores[k]).quiesce ≠ some scanStop)
    (hp : holdPermitted s = true) (hidle : ¬ InCycle s k) : ∃ t, exec (.scanHold m k v) s = .next t ∧
        t.busReply = .done ∧ scanMode t k = scanHold ∧ Logged [(0x8001, k.val, 0x102)] s t := by
  rw [exec_scanHold hs hact hstop]
  have hc := ctrlOnly_noted k (putF v F.SCAN_CTRL_hold 1) (reply .done s)
  generalize ctrlNoted k (putF v F.SCAN_CTRL_hold 1) (reply .done s) = x at hc
  have hm : scanMode x k = scanRun := hc.mode.trans hmode
  rw [holdRequest_taken hm (by rw [hc.scan]; exact hq) (hc.permitted.trans hp), requestEnded_ok]
  obtain ⟨h1, h2, h3⟩ := quiesceTo_hold hm (fun h => hidle (hc.inCycle.mp h))
    (room_of_log hc.log (by unfold Room at hroom ⊢; exact show s.log.queue.length + 1 ≤ 256 by omega))
  exact ⟨_, rfl, h1.trans hc.reply, h2, logged_of_base hc.log h3⟩

theorem scanHold_notPermitted (hs : Served m true (Reg.SCAN_CTRL k) 4 s) (hact : holdsActive s = true) (hroom : Room 2 s)
    (hstop : getF v F.SCAN_CTRL_stop = 0) (hmode : scanMode s k = scanRun) (hq : (s.scan.cores[k]).quiesce ≠ some scanStop)
    (hp : holdPermitted s = false) : ∃ t, exec (.scanHold m k v) s = .next t ∧ Refused k s t ∧ Logged [(0x8003, k.val, 0x207)] s t := by
  rw [exec_scanHold hs hact hstop]
  obtain ⟨t, ht, hr, hl⟩ := refused_noted (k := k) (s := s) (putF v F.SCAN_CTRL_hold 1) 2 stNotPermitted (by decide)
    (by unfold Room at hroom ⊢; omega)
  have hc := ctrlOnly_noted k (putF v F.SCAN_CTRL_hold 1) (reply .done s)
  generalize ctrlNoted k (putF v F.SCAN_CTRL_hold 1) (reply .done s) = x at hc ht
  rw [holdRequest_notPermitted (hc.mode.trans hmode) (by rw [hc.scan]; exact hq) (hc.permitted.trans hp), ht]
  exact ⟨t, rfl, hr, hl⟩

theorem scanHold_badState (hs : Served m true (Reg.SCAN_CTRL k) 4 s) (hact : holdsActive s = true) (hroom : Room 2 s)
    (hstop : getF v F.SCAN_CTRL_stop = 0) (h : scanMode s k ≠ scanRun ∨ (s.scan.cores[k]).quiesce = some scanStop) :
    ∃ t, exec (.scanHold m k v) s = .next t ∧ Refused k s t ∧ Logged [(0x8003, k.val, 0x209)] s t := by
  rw [exec_scanHold hs hact hstop]
  obtain ⟨t, ht, hr, hl⟩ := refused_noted (k := k) (s := s) (putF v F.SCAN_CTRL_hold 1) 2 stBadState (by decide)
    (by unfold Room at hroom ⊢; omega)
  have hc := ctrlOnly_noted k (putF v F.SCAN_CTRL_hold 1) (reply .done s)
  generalize ctrlNoted k (putF v F.SCAN_CTRL_hold 1) (reply .done s) = x at hc ht
  have hm : scanMode x k = scanMode s k := hc.mode
  rw [holdRequest_badState (by rw [hm, hc.scan]; exact h), ht]
  exact ⟨t, rfl, hr, hl⟩

/-! ### Step -/

theorem scanStep_clause (hs : Served m true (Reg.SCAN_CTRL k) 4 s) (hact : holdsActive s = true) (hroom : Room 2 s)
    (hstop : getF v F.SCAN_CTRL_stop = 0) (hhold : getF v F.SCAN_CTRL_hold = 0) :
      (scanMode s k = scanHold → (s.scan.cores[k]).step = none → ∃ t, exec (.scanStep m k v) s = .next t ∧ t.busReply = .done ∧
        (t.scan.cores[k]).step = some (Fin.ofNat 8 (getF v F.SCAN_CTRL_step_task)) ∧ scanMode t k = scanHold ∧ t.log = s.log) ∧
      (scanMode s k = scanHold → (s.scan.cores[k]).step.isSome = true → ∃ t, exec (.scanStep m k v) s = .next t ∧
        Refused k s t ∧ Logged [(0x8003, k.val, 0x301)] s t) ∧
      (scanMode s k ≠ scanHold → ∃ t, exec (.scanStep m k v) s = .next t ∧ Refused k s t ∧
        Logged [(0x8003, k.val, 0x309)] s t) := by
  rw [exec_scanStep hs hact hstop hhold]
  have hroom1 : Room 1 s := by unfold Room at hroom ⊢; omega
  have hbad := refused_noted (k := k) (s := s) (putF v F.SCAN_CTRL_step 1) 3 stBadState (by decide) hroom1
  have hbusy := refused_noted (k := k) (s := s) (putF v F.SCAN_CTRL_step 1) 3 stBusy (by decide) hroom1
  have hc := ctrlOnly_noted k (putF v F.SCAN_CTRL_step 1) (reply .done s)
  generalize ctrlNoted k (putF v F.SCAN_CTRL_step 1) (reply .done s) = x at hc hbad hbusy
  have hm : scanMode x k = scanMode s k := hc.mode
  have hscan : x.scan = s.scan := hc.scan
  unfold stepRequest
  rw [hm]
  refine ⟨fun hmode hstep => ?_, fun hmode hstep => ?_, fun hmode => ?_⟩
  · rw [if_neg (fun h => h hmode), if_neg (by rw [hscan, hstep]; exact Bool.false_ne_true)]
    exact ⟨_, rfl, hc.reply, (congrArg ScanCore.step (core_setScan k _ x) :), hm.trans hmode, hc.log⟩
  · rw [if_neg (fun h => h hmode), if_pos (by rw [hscan]; exact hstep)]
    obtain ⟨t, ht, hr, hl⟩ := hbusy
    exact ⟨t, congrArg _ ht, hr, hl⟩
  · rw [if_pos hmode]
    obtain ⟨t, ht, hr, hl⟩ := hbad
    exact ⟨t, congrArg _ ht, hr, hl⟩

/-! ### The start on its own (R322), and the end of HOLD (R320) -/

/-- The core as the consideration of its start leaves it. -/
def autoConsidered (k : Fin 2) (s : State) : State :=
  setScan k { s.scan.cores[k] with
    autoDone := true, warmStart := false
    vars := if s.scan.cores[k].warmStart then (match copyInForce s.scan.cores[k] with | none => s.scan.cores[k].vars | some c => c.values)
      else s.scan.cores[k].vars } s

/-- The start of the program, as its configuration and the retained sets allow. -/
def autoEntered (k : Fin 2) (warmStart : Bool) (s : State) : State :=
  if flg s (Reg.SCAN_CFG k) F.SCAN_CFG_cold_only && !warmStart then enterRun k (nowNat s) (restart k false s)
  else if warmDenied s k = 0 then enterRun k (nowNat s) (restart k true s)
  else enterRun k (nowNat s) (restart k false (logN 0x8006 k (warmDenied s k) s))

theorem autostart_eq {p : ScanProgram} (hp : (s.scan.cores[k]).prog = some p) (hdone : (s.scan.cores[k]).autoDone = false)
    (hready : ready s = true) (hheld : heldInStop s = false) (hauto : p.autostart = true) (hmode : scanMode s k = scanStop) :
    autostart k s = autoEntered k (s.scan.cores[k]).warmStart (autoConsidered k s) := by
  unfold autostart
  dsimp only
  split
  · next h =>
    rw [hp] at h
    cases h
  · next q hq =>
    obtain rfl : q = p := Option.some.inj (hq.symm.trans hp)
    have hstay : ¬ ((!q.autostart) = true ∨ scanMode s k ≠ scanStop) := by
      rw [hauto]
      rintro (h | h)
      · cases h
      · exact h hmode
    rw [if_neg (by rw [hdone, hready, hheld]; decide)]
    exact if_neg hstay

/-- The mode set, whether or not it was logged. -/
theorem scanMode_setScanMode {n : Nat} (hn : n < 4) (s : State) : scanMode (setScanMode k n s) k = n ∧
    (setScanMode k n s).scan = s.scan := by
  by_cases h : scanMode s k = n
  · rw [setScanMode_same h]
    exact ⟨h, rfl⟩
  · rw [setScanMode_ne h]
    refine ⟨?_, (same_logN ..).1⟩
    refine (scanMode_of_rd (rd_logEvent _ _ _ _ ?_ ?_)).trans (modeShown_effect k n hn s).1
    · simp only [Reg.SCAN_STATE, Reg.CMD_STATUS]
      omega
    · simp only [Reg.SCAN_STATE, Reg.CMD_EVT_LOST]
      omega

theorem enterRun_kept (q : Nat) (s : State) : scanMode (enterRun k q s) k = scanRun ∧
    (enterRun k q s).scan.cores[k].liveFrom = q ∧ (enterRun k q s).scan.cores[k].autoDone = s.scan.cores[k].autoDone := by
  rw [enterRun_eq]
  have hl := (liveCore_fields k q s).1
  obtain ⟨h1, h2⟩ := scanMode_setScanMode (k := k) (n := scanRun) (by decide) (liveCore k q s)
  refine ⟨h1, ?_, ?_⟩
  · rw [h2, hl]
  · rw [h2, hl]

theorem autoDone_restart (warm : Bool) (s : State) : (restart k warm s).scan.cores[k].autoDone = s.scan.cores[k].autoDone := by
  rw [(restart_restarted k warm s).core]
  rfl

theorem autoEntered_effect (b : Bool) (s : State) : scanMode (autoEntered k b s) k = scanRun ∧
    (autoEntered k b s).scan.cores[k].liveFrom = nowNat s ∧ (autoEntered k b s).scan.cores[k].autoDone = s.scan.cores[k].autoDone := by
  unfold autoEntered
  split
  · obtain ⟨h1, h2, h3⟩ := enterRun_kept (k := k) (nowNat s) (restart k false s)
    exact ⟨h1, h2, h3.trans (autoDone_restart _ _)⟩
  · split
    · obtain ⟨h1, h2, h3⟩ := enterRun_kept (k := k) (nowNat s) (restart k true s)
      exact ⟨h1, h2, h3.trans (autoDone_restart _ _)⟩
    · obtain ⟨h1, h2, h3⟩ := enterRun_kept (k := k) (nowNat s) (restart k false (logN 0x8006 k (warmDenied s k) s))
      refine ⟨h1, h2, h3.trans ((autoDone_restart _ _).trans ?_)⟩
      rw [(same_logN ..).1]

theorem autoConsidered_fields (k : Fin 2) (s : State) : (autoConsidered k s).scan.cores[k].autoDone = true ∧
    nowNat (autoConsidered k s) = nowNat s := ⟨by rw [autoConsidered, core_setScan], rfl⟩

theorem scanAutostart_clause (k : Fin 2) (p : ScanProgram) (s : State) (hp : (s.scan.cores[k]).prog = some p)
    (hdone : (s.scan.cores[k]).autoDone = false) (hready : ready s = true) (hheld : heldInStop s = false) (hauto : p.autostart = true)
    (hmode : scanMode s k = scanStop) : ∃ t, exec (.scanAutostart k) s = .next t ∧ scanMode t k = scanRun ∧
      (t.scan.cores[k]).autoDone = true ∧ (t.scan.cores[k]).liveFrom = nowNat s := by
  refine ⟨autostart k s, rfl, ?_⟩
  rw [autostart_eq hp hdone hready hheld hauto hmode]
  obtain ⟨h1, h2⟩ := autoConsidered_fields k s
  generalize autoConsidered k s = x at h1 h2
  obtain ⟨e1, e2, e3⟩ := autoEntered_effect (k := k) (s.scan.cores[k]).warmStart x
  exact ⟨e1, e3.trans h1, e2.trans h2⟩

theorem scanAutostart_none (k : Fin 2) (s : State) (h : (s.scan.cores[k]).prog = none ∨ (s.scan.cores[k]).autoDone = true ∨
    ready s = false ∨ heldInStop s = true) : exec (.scanAutostart k) s = .next s := by
  refine Eq.trans (b := .next (autostart k s)) rfl (congrArg _ ?_)
  unfold autostart
  dsimp only
  split
  · rfl
  · next p hp =>
    refine if_pos ?_
    rcases h with h | h | h | h
    · rw [hp] at h
      cases h
    · exact .inl h
    · exact .inr (.inl (by rw [h]; rfl))
    · exact .inr (.inr h)

theorem endHold_due (hmode : scanMode s k = scanHold) (hp : holdPermitted s = false) : endHold k s =
    logN 0x8004 k (fld s Reg.CTRL_STATUS F.CTRL_STATUS_energised)
      (setScanMode k scanRun (setScan k { s.scan.cores[k] with step := none } s)) := if_pos ⟨hmode, by rw [hp]; rfl⟩

theorem endHold_not (h : scanMode s k ≠ scanHold ∨ holdPermitted s = true) : endHold k s = s := by
  refine if_neg ?_
  rintro ⟨hm, hp⟩
  rcases h with h | h
  · exact h hm
  · rw [h] at hp
    cases hp

theorem endHold_effect (hmode : scanMode s k = scanHold) (hp : holdPermitted s = false) (hroom : Room 2 s) :
    scanMode (endHold k s) k = scanRun ∧ ((endHold k s).scan.cores[k]).step = none ∧
        Logged [(0x8001, k.val, 0x201), (0x8004, k.val, BitVec.ofNat 32 (fld s Reg.CTRL_STATUS F.CTRL_STATUS_energised))] s (endHold k s) := by
  rw [endHold_due hmode hp]
  obtain ⟨h1, h2, -, -, -, h5⟩ := resumed_effect hmode (by unfold Room at hroom ⊢; omega) { s.scan.cores[k] with step := none }
  generalize setScanMode k scanRun (setScan k { s.scan.cores[k] with step := none } s) = y at h1 h2 h5
  have hroom1 : Room 1 y := room_after (n := 1) h5 hroom
  have hl := logged_logN 0x8004 k (fld s Reg.CTRL_STATUS F.CTRL_STATUS_energised) (s := y) rfl hroom1
  have hrd := rd_logN_room 0x8004 k (fld s Reg.CTRL_STATUS F.CTRL_STATUS_energised) (s := y) rfl hroom1
  obtain ⟨hscan, -, htai⟩ := same_logN 0x8004 k (fld s Reg.CTRL_STATUS F.CTRL_STATUS_energised) y
  refine ⟨(scanMode_of_rd (hrd _)).trans h1, by rw [hscan, h2], logged_then h5 hl htai⟩

theorem execHoldEnded_due (hmode : scanMode s k = scanHold) (hp : holdPermitted s = false) (hper : ∃ t : Fin 8, periodOf s k t ≠ 0) :
    ∃ q, exec (.holdEnded k) s = .next (endHold k (reachNs s q)) := by
  obtain ⟨i, hi⟩ := hper
  have hne : ((List.finRange 8).filter (fun (t : Fin 8) => periodOf s k t != 0)).map (fun (t : Fin 8) => nextRelease s k t) ≠ [] := by
    intro h
    rw [List.map_eq_nil_iff, List.filter_eq_nil_iff] at h
    exact h i (List.mem_finRange i) (by simpa using hi)
  have hexec : exec (.holdEnded k) s = (match ((List.finRange 8).filter (fun (t : Fin 8) => periodOf s k t != 0)).map
      (fun (t : Fin 8) => nextRelease s k t) with
    | [] => .next s
    | r :: l => .next (endHold k (reachNs s (BitVec.ofNat 64 (l.foldl min r))))) :=
    Eq.trans (b := execHoldEnded k s) rfl (if_pos ⟨hmode, by rw [hp]; rfl⟩)
  rw [hexec]
  split
  · next h => exact absurd h hne
  · exact ⟨_, rfl⟩

theorem holdEnded_clause (k : Fin 2) (s : State) : (scanMode s k = scanHold → holdPermitted s = false → (∃ t : Fin 8, periodOf s k t ≠ 0) →
      Room 2 s → ∃ t, exec (.holdEnded k) s = .next t ∧ scanMode t k = scanRun ∧ (t.scan.cores[k]).step = none ∧
        Logged [(0x8001, k.val, 0x201), (0x8004, k.val, BitVec.ofNat 32 (fld s Reg.CTRL_STATUS F.CTRL_STATUS_energised))] s t) ∧
    (scanMode s k ≠ scanHold ∨ holdPermitted s = true → exec (.holdEnded k) s = .next s) := by
  refine ⟨fun hmode hp hper hroom => ?_, fun h => ?_⟩
  · obtain ⟨q, hexec⟩ := execHoldEnded_due hmode hp hper
    obtain ⟨h1, h2, h3⟩ := endHold_effect (s := reachNs s q) (k := k) hmode hp hroom
    exact ⟨_, hexec, h1, h2, h3⟩
  · refine Eq.trans (b := execHoldEnded k s) rfl (if_neg ?_)
    rintro ⟨hm, hp⟩
    rcases h with h | h
    · exact h hm
    · rw [h] at hp
      cases hp

end ScanRequests

end Sys2Proof.Machine

namespace Sys2Proof.Proofs

open Sys2Proof Sys2Proof.Machine Sys2Proof.Safety Sys2Proof.Laws

theorem scanModes_active (m : Fin 8) (k : Fin 2) (v : Word) (s : State) (hs : Served m true (Reg.SCAN_CTRL k) 4 s)
    (hact : holdsActive s = true) (hroom : Room 2 s) (hstop : getF v F.SCAN_CTRL_stop = 0) (hhold : getF v F.SCAN_CTRL_hold = 0)
    (hstep : getF v F.SCAN_CTRL_step = 0) (hmode : scanMode s k = scanStop) (hprog : (s.scan.cores[k]).prog.isSome = true)
    (hheld : heldInStop s = false) :
    (getF v F.SCAN_CTRL_cold = 1 → ∃ t, exec (.scanRun m k v) s = .next t ∧ RestartedBy s t k false) ∧
    (getF v F.SCAN_CTRL_cold = 0 → warmDenied s k = 0 → ∃ t, exec (.scanRun m k v) s = .next t ∧ RestartedBy s t k true) ∧
    (getF v F.SCAN_CTRL_cold = 0 → warmDenied s k ≠ 0 → ∃ t, exec (.scanRun m k v) s = .next t ∧ Refused k s t ∧
      Logged [(0x8006, k.val, BitVec.ofNat 32 (warmDenied s k)), (0x8003, k.val, 0x109)] s t) :=
  ⟨fun hc => scanRun_restarts false hs hact hroom hstop hhold hstep hmode hprog hheld hc (fun h => nomatch h),
    fun hc hw => scanRun_restarts true hs hact hroom hstop hhold hstep hmode hprog hheld hc (fun _ => hw),
    fun hc hw => scanRun_warmDenied hs hact hroom hstop hhold hstep hmode hprog hheld hc hw⟩

/-- Settles O50: a write of SCAN_CTRL is one request on a state that differs in that register alone; a restart and a stop each change
the core's record in one step. -/
theorem scanModes : Obligations.ScanModes := by
  refine ⟨fun m k v s hs hact hroom => ⟨fun hstop hhold hstep => ⟨?_, ?_, ?_⟩, ?_, ?_, fun hstop => ⟨?_, ?_, ?_⟩, ?_⟩,
    fun m k v s hs hact => ?_, scanAutostart_clause, scanAutostart_none, holdEnded_clause⟩
  · exact scanRun_resumes hs hact hroom hstop hhold hstep
  · exact scanModes_active m k v s hs hact hroom hstop hhold hstep
  · exact scanRun_refused hs hact hroom hstop hhold hstep
  · exact fun hmode hidle => scanStop_idle hs hact hroom hmode (fun h => h hidle)
  · exact scanStop_busy hs hact
  · exact fun hmode hq hp hidle => scanHold_taken hs hact hroom hstop hmode hq hp (fun h => h hidle)
  · exact scanHold_notPermitted hs hact hroom hstop
  · exact scanHold_badState hs hact hroom hstop
  · exact fun hstop hhold => scanStep_clause hs hact hroom hstop hhold
  · exact ⟨congrArg _ (scanRequest_other hs hact _), congrArg _ (scanRequest_other hs hact _),
      congrArg _ (scanRequest_other hs hact _), congrArg _ (scanRequest_other hs hact _)⟩

end Sys2Proof.Proofs
end


section
/-! PROOFS. Releases of a scan core's tasks: the grid, skips, and the trap of the sixteenth (R305, R313 to R316, R320, R323). -/

namespace Sys2Proof.Machine

open Sys2Proof Sys2Proof.Safety Sys2Proof.Laws

section Releases

variable {k : Fin 2} {i : Fin 8} {s x y t : State}

/-! ### Instants -/

theorem le_nowNat_reachNs {i : BitVec 64} (hfit : i.toNat + 1 < 2 ^ 64) (s : State) : i.toNat ≤ nowNat (reachNs s i) := by
  have h := le_tai_reachNs hfit s
  rw [nowNat_eq]
  omega

theorem le_nowNat_ofNat {n : Nat} (hfit : n + 1 < 2 ^ 64) (s : State) : n ≤ nowNat (reachNs s (BitVec.ofNat 64 n)) := by
  have hn : (BitVec.ofNat 64 n).toNat = n := by
    rw [BitVec.toNat_ofNat]
    exact Nat.mod_eq_of_lt (by omega)
  have h := le_nowNat_reachNs (i := BitVec.ofNat 64 n) (by rw [hn]; exact hfit) s
  rwa [hn] at h

theorem nowNat_of_tai (h : t.tai = s.tai) : nowNat t = nowNat s := by rw [nowNat_eq, nowNat_eq, h]

theorem nextRelease_mod (s : State) (k : Fin 2) (i : Fin 8) : nextRelease s k i % periodOf s k i = 0 := by
  unfold nextRelease
  dsimp only
  split <;> exact Nat.mul_mod_left _ _

/-! ### A trap (R323) -/

/-- The core as a trap finds it: the cause shown and logged. -/
def trapShown (k : Fin 2) (n cause : Nat) (s : State) : State :=
  logN 0x8007 k (n * 0x1000000 + cause) (setF s (Reg.SCAN_STATE k) F.SCAN_STATE_trap cause)

theorem trapCore_eq (n cause : Nat) (h : scanMode s k ≠ scanStop) : trapCore k n cause s =
    rescheduleSwap k (setScanMode k scanStop (setScan k (dropCycles (trapShown k n cause s).scan.cores[k]) (trapShown k n cause s))) := if_neg h

theorem rd_logN_scan (c q e : Nat) (s : State) {a : Nat} (ha : 0x400A0000 ≤ a ∧ a < 0x400B0000) : rd (logN c q e s) a = rd s a :=
  rd_logEvent s c q _ (by simp only [Reg.CMD_STATUS]; omega) (by simp only [Reg.CMD_EVT_LOST]; omega)

theorem trapShown_effect (n : Nat) {cause : Nat} (hc : cause < 256) (s : State) (k : Fin 2) : (trapShown k n cause s).scan = s.scan ∧
    (trapShown k n cause s).tai = s.tai ∧ scanMode (trapShown k n cause s) k = scanMode s k ∧
    fld (trapShown k n cause s) (Reg.SCAN_STATE k) F.SCAN_STATE_trap = cause ∧
    fld (trapShown k n cause s) (Reg.SCAN_STATE k) F.SCAN_STATE_overrun = fld s (Reg.SCAN_STATE k) F.SCAN_STATE_overrun ∧
    (∀ a, 0x400A0000 ≤ a ∧ a < 0x400B0000 → a ≠ Reg.SCAN_STATE k → rd (trapShown k n cause s) a = rd s a) ∧
    (Room 1 s → Logged [(0x8007, k.val, BitVec.ofNat 32 (n * 0x1000000 + cause))] s (trapShown k n cause s)) := by
  obtain ⟨hscan, -, htai⟩ := same_logN 0x8007 k (n * 0x1000000 + cause) (setF s (Reg.SCAN_STATE k) F.SCAN_STATE_trap cause)
  have hst : rd (trapShown k n cause s) (Reg.SCAN_STATE k) = rd (setF s (Reg.SCAN_STATE k) F.SCAN_STATE_trap cause) (Reg.SCAN_STATE k) :=
    rd_logN_scan _ _ _ _ (by simp only [Reg.SCAN_STATE]; omega)
  refine ⟨hscan, htai, ?_, ?_, ?_, fun a ha hne => (rd_logN_scan _ _ _ _ ha).trans (rd_setF_ne _ _ _ hne), fun hroom => logged_logN _ _ _ rfl hroom⟩
  · rw [scanMode_of_rd hst]
    exact fld_setF_disj s _ F.SCAN_STATE_trap _ _ (by decide)
  · rw [fld_of_rd hst, fld_setF _ _ _ _ (by decide)]
    exact Nat.mod_eq_of_lt hc
  · rw [fld_of_rd hst]
    exact fld_setF_disj s _ F.SCAN_STATE_trap _ _ (by decide)

/-- A core that reaches STOP leaves the figures of its tasks. -/
theorem rd_coreStopped (c : ScanCore) (s : State) (j : Nat) :
    rd (rescheduleSwap k (setScanMode k scanStop (setScan k c s))) (Reg.SCAN_TASK_STAT k j) = rd s (Reg.SCAN_TASK_STAT k j) := by
  obtain ⟨-, -, -, -, hregs⟩ := rescheduleSwap_effect k (setScanMode k scanStop (setScan k c s))
  rw [hregs _ (by simp only [Reg.SCAN_TASK_STAT, Reg.SCAN_SWAP_TIME]; omega) (by simp only [Reg.SCAN_TASK_STAT, Reg.SCAN_SWAP_TIME]; omega)]
  by_cases h : scanMode (setScan k c s) k = scanStop
  · rw [setScanMode_same h]
    rfl
  · rw [setScanMode_ne h]
    refine (rd_logEvent _ _ _ _ ?_ ?_).trans (((modeShown_effect k scanStop (by decide) (setScan k c s)).2.2 _ ?_).trans rfl)
    · simp only [Reg.SCAN_TASK_STAT, Reg.CMD_STATUS]
      omega
    · simp only [Reg.SCAN_TASK_STAT, Reg.CMD_EVT_LOST]
      omega
    · simp only [Reg.SCAN_TASK_STAT, Reg.SCAN_STATE, Reg.SCAN_STATUS, List.mem_cons, List.not_mem_nil, or_false]
      omega

theorem tai_coreStopped (c : ScanCore) (s : State) : (rescheduleSwap k (setScanMode k scanStop (setScan k c s))).tai = s.tai := by
  obtain ⟨-, -, htai, -⟩ := rescheduleSwap_effect k (setScanMode k scanStop (setScan k c s))
  rw [htai]
  exact keeps_of_ev (p := .tai) (setScanMode_ev (foot_self _) (Ev.refl _ _)) rfl

/-- A trap: the core in STOP without cycles, its values as they were. -/
structure Trapped (k : Fin 2) (n cause : Nat) (s t : State) : Prop where
  mode : scanMode t k = scanStop
  trap : fld t (Reg.SCAN_STATE k) F.SCAN_STATE_trap = cause
  core : t.scan.cores[k] = dropCycles s.scan.cores[k]
  overrun : fld t (Reg.SCAN_STATE k) F.SCAN_STATE_overrun = fld s (Reg.SCAN_STATE k) F.SCAN_STATE_overrun
  stat : ∀ j : Fin 8, rd t (Reg.SCAN_TASK_STAT k j) = rd s (Reg.SCAN_TASK_STAT k j)
  tai : t.tai = s.tai
  logged : Logged [(0x8007, k.val, BitVec.ofNat 32 (n * 0x1000000 + cause)), (0x8001, k.val, BitVec.ofNat 32 (scanMode s k * 256))] s t

theorem trapCore_trapped (n : Nat) {cause : Nat} (hc : cause < 256) (hmode : scanMode s k ≠ scanStop) (hroom : Room 2 s) :
    Trapped k n cause s (trapCore k n cause s) := by
  rw [trapCore_eq n cause hmode]
  obtain ⟨hscan, htai, hm, htrap, hover, hregs, hl⟩ := trapShown_effect n hc s k
  have hl := hl (by unfold Room at hroom ⊢; omega)
  generalize trapShown k n cause s = x at hscan htai hm htrap hover hregs hl
  obtain ⟨h1, h2, -, h4, h5⟩ := coreStopped_effect (by rw [hm]; exact hmode) (room_after (n := 1) hl hroom) (dropCycles x.scan.cores[k])
  have htai' := tai_coreStopped (k := k) (dropCycles x.scan.cores[k]) x
  have hstat := fun j => rd_coreStopped (k := k) (dropCycles x.scan.cores[k]) x j
  rw [hm] at h5
  refine ⟨h1, (h4 _ (by decide)).trans htrap, by rw [h2, hscan], (h4 _ (by decide)).trans hover, fun j => (hstat j).trans ?_, htai'.trans htai,
    logged_then hl h5 htai'⟩
  exact hregs _ (by simp only [Reg.SCAN_TASK_STAT]; omega) (by simp only [Reg.SCAN_TASK_STAT, Reg.SCAN_STATE]; omega)

/-! ### What every release leaves: its instant in the task's record -/

/-- The last release of a task is as before, and so is the counter of time. -/
def RelKept (k : Fin 2) (i : Fin 8) (s t : State) : Prop :=
  (t.scan.cores[k]).tasks[i].lastRel = (s.scan.cores[k]).tasks[i].lastRel ∧ t.tai = s.tai

theorem RelKept.trans (h : RelKept k i s x) (h' : RelKept k i x t) : RelKept k i s t := ⟨h'.1.trans h.1, h'.2.trans h.2⟩

theorem relKept_setTask {z : ScanTask} (h : z.lastRel = (s.scan.cores[k]).tasks[i].lastRel) : RelKept k i s (setTask k i z s) := by
  refine ⟨?_, rfl⟩
  rw [core_setTask]
  exact (congrArg ScanTask.lastRel (task_set _ i z)).trans h

theorem relKept_makeHeld (j : Fin 8) (s : State) : RelKept k i s (makeHeld k j s) := by
  have h := heldMade_makeHeld k j s
  obtain ⟨l, hl⟩ := h.tasks i
  exact ⟨by rw [hl], h.tai⟩

theorem relKept_trapCore (n cause : Nat) (s : State) : RelKept k i s (trapCore k n cause s) := by
  by_cases hmode : scanMode s k = scanStop
  · rw [show trapCore k n cause s = s from if_pos hmode]
    exact ⟨rfl, rfl⟩
  · rw [trapCore_eq n cause hmode]
    obtain ⟨hscan, -, htai⟩ := same_logN 0x8007 k (n * 0x1000000 + cause) (setF s (Reg.SCAN_STATE k) F.SCAN_STATE_trap cause)
    have hscan' : (trapShown k n cause s).scan = s.scan := hscan
    have htai' : (trapShown k n cause s).tai = s.tai := htai
    generalize trapShown k n cause s = x at hscan' htai'
    refine ⟨?_, (tai_coreStopped _ x).trans htai'⟩
    rw [(rescheduleSwap_effect k _).1, (scanMode_setScanMode (by decide) _).2, core_setScan, task_dropCycles, hscan']

/-- The count and the overrun bit of a skipped release. -/
def skipShown (k : Fin 2) (i : Fin 8) (s : State) : State :=
  setFbit (wr s (Reg.SCAN_TASK_STAT k i) (BitVec.ofNat 32 (min 0xFFFFFFFF ((rd s (Reg.SCAN_TASK_STAT k i)).toNat + 1))))
    (Reg.SCAN_STATE k) F.SCAN_STATE_overrun i true

/-- A skipped release in the task's record. -/
def skipCounted (k : Fin 2) (i : Fin 8) (s : State) : State :=
  setTask k i { (s.scan.cores[k]).tasks[i] with
    skipped := (s.scan.cores[k]).tasks[i].skipped + 1, consecutive := (s.scan.cores[k]).tasks[i].consecutive + 1 } (skipShown k i s)

theorem skipRelease_eq (k : Fin 2) (i : Fin 8) (s : State) : skipRelease k i s =
    if (s.scan.cores[k]).tasks[i].consecutive + 1 = 16 then trapCore k i 3 (skipCounted k i s) else skipCounted k i s := rfl

theorem relKept_skipRelease (s : State) : RelKept k i s (skipRelease k i s) := by
  rw [skipRelease_eq]
  have h : RelKept k i s (skipCounted k i s) := relKept_setTask (s := skipShown k i s) rfl
  split
  · exact h.trans (relKept_trapCore _ _ _)
  · exact h

theorem relKept_releaseCycle (q : Nat) (s : State) : RelKept k i s (releaseCycle k i q s) := relKept_setTask rfl

theorem relKept_advanceCounter (s : State) : RelKept k i s (advanceCounter k i s) := relKept_setTask rfl

theorem runRelease_eq (k : Fin 2) (i : Fin 8) (q : Nat) (s : State) : runRelease k i q s =
    if q < (s.scan.cores[k]).liveFrom ∨ (s.scan.cores[k]).quiesce.isSome ∨ (s.scan.cores[k]).frozen then s
    else if transferring s k ∨ swapDue s k q then setTask k i { (s.scan.cores[k]).tasks[i] with afterSwap := true } s
    else if (s.scan.cores[k]).tasks[i].busy then skipRelease k i (makeHeld k i s) else releaseCycle k i q (makeHeld k i s) := rfl

theorem relKept_runRelease (q : Nat) (s : State) : RelKept k i s (runRelease k i q s) := by
  rw [runRelease_eq]
  split
  · exact ⟨rfl, rfl⟩
  · split
    · exact relKept_setTask rfl
    · split
      · exact (relKept_makeHeld i s).trans (relKept_skipRelease _)
      · exact (relKept_makeHeld i s).trans (relKept_releaseCycle _ _)

/-! ### The release instant -/

/-- The release instant reached and noted. -/
def released (k : Fin 2) (i : Fin 8) (s : State) : State :=
  let x := endHold k (reachNs s (BitVec.ofNat 64 (nextRelease s k i)))
  setTask k i { (x.scan.cores[k]).tasks[i] with lastRel := some (nextRelease s k i) } x

/-- What the release does in the core's mode. -/
def releaseDone (k : Fin 2) (i : Fin 8) (q : Nat) (s : State) : State :=
  if scanMode s k = scanHold then
    if (s.scan.cores[k]).step = some i ∧ !((s.scan.cores[k]).tasks[i]).busy then releaseCycle k i q (advanceCounter k i s) else s
  else if scanMode s k = scanRun then runRelease k i q (advanceCounter k i s)
  else advanceCounter k i s

theorem releaseOut_eq (q : Nat) (x : State) : (if scanMode x k = scanHold then
      if (x.scan.cores[k]).step = some i ∧ !((x.scan.cores[k]).tasks[i]).busy then Host.Outcome.next (releaseCycle k i q (advanceCounter k i x))
      else .next x
    else if scanMode x k = scanRun then .next (runRelease k i q (advanceCounter k i x))
    else .next (advanceCounter k i x) : Out) = .next (releaseDone k i q x) := by
  unfold releaseDone
  split
  · split <;> rfl
  · split <;> rfl

theorem exec_taskRelease (h : periodOf s k i ≠ 0) : exec (.taskRelease k i) s = .next (releaseDone k i (nextRelease s k i) (released k i s)) := by
  refine Eq.trans (b := execTaskRelease k i s) rfl ?_
  unfold execTaskRelease
  rw [if_neg h]
  exact releaseOut_eq _ (released k i s)

theorem relKept_releaseDone (q : Nat) (s : State) : RelKept k i s (releaseDone k i q s) := by
  unfold releaseDone
  split
  · split
    · exact (relKept_advanceCounter s).trans (relKept_releaseCycle _ _)
    · exact ⟨rfl, rfl⟩
  · split
    · exact (relKept_advanceCounter s).trans (relKept_runRelease _ _)
    · exact relKept_advanceCounter s

theorem endHold_tai (s : State) : (endHold k s).tai = s.tai := keeps_of_ev (p := .tai) (endHold_ev (foot_self _) (Ev.refl _ s)) rfl

theorem released_noted (s : State) : ((released k i s).scan.cores[k]).tasks[i].lastRel = some (nextRelease s k i) ∧
    (released k i s).tai = (reachNs s (BitVec.ofNat 64 (nextRelease s k i))).tai := by
  unfold released
  dsimp only
  have ht := endHold_tai (k := k) (reachNs s (BitVec.ofNat 64 (nextRelease s k i)))
  generalize endHold k (reachNs s (BitVec.ofNat 64 (nextRelease s k i))) = x at ht
  refine ⟨?_, ht⟩
  rw [core_setTask]
  exact congrArg ScanTask.lastRel (task_set _ i _)

/-- A release that finds no HOLD to end: the core as before but for the instant noted. -/
structure ReleasedIn (k : Fin 2) (i : Fin 8) (s t : State) : Prop where
  task : (t.scan.cores[k]).tasks[i] = { (s.scan.cores[k]).tasks[i] with lastRel := some (nextRelease s k i) }
  core : ∃ v, t.scan.cores[k] = { s.scan.cores[k] with tasks := v }
  regs : t.regs = s.regs
  log : t.log = s.log

theorem released_in (h : scanMode s k ≠ scanHold ∨ holdPermitted s = true) : ReleasedIn k i s (released k i s) := by
  unfold released
  dsimp only
  have he : endHold k (reachNs s (BitVec.ofNat 64 (nextRelease s k i))) = reachNs s (BitVec.ofNat 64 (nextRelease s k i)) :=
    endHold_not (s := reachNs s (BitVec.ofNat 64 (nextRelease s k i))) h
  rw [he]
  have hr : (reachNs s (BitVec.ofNat 64 (nextRelease s k i))).scan = s.scan ∧ (reachNs s (BitVec.ofNat 64 (nextRelease s k i))).regs = s.regs ∧
      (reachNs s (BitVec.ofNat 64 (nextRelease s k i))).log = s.log := ⟨rfl, rfl, rfl⟩
  obtain ⟨hscan, hregs, hlog⟩ := hr
  generalize reachNs s (BitVec.ofNat 64 (nextRelease s k i)) = x at hscan hregs hlog
  have hcore : ∀ z, (setTask k i z x).scan.cores[k] = { s.scan.cores[k] with tasks := s.scan.cores[k].tasks.set i z } := fun z => by
    rw [core_setTask, hscan]
  refine ⟨?_, ⟨_, hcore _⟩, hregs, hlog⟩
  rw [core_setTask]
  exact (task_set _ i _).trans (by rw [hscan])

theorem setTask_same (z : ScanTask) (s : State) : (setTask k i z s).regs = s.regs ∧ (setTask k i z s).log = s.log ∧
    (setTask k i z s).tai = s.tai ∧ ((setTask k i z s).scan.cores[k]).tasks[i] = z := by
  refine ⟨rfl, rfl, rfl, ?_⟩
  rw [core_setTask]
  exact task_set _ i z

theorem releaseCycle_task (q : Nat) (s : State) : ((releaseCycle k i q s).scan.cores[k]).tasks[i] =
    { (s.scan.cores[k]).tasks[i] with busy := true, started := false, relAt := q, skipped := 0, consecutive := 0, afterSwap := false } :=
  (setTask_same _ s).2.2.2

theorem advanceCounter_task (s : State) : ((advanceCounter k i s).scan.cores[k]).tasks[i] =
    { (s.scan.cores[k]).tasks[i] with counter := (s.scan.cores[k]).tasks[i].counter + 1 } := (setTask_same _ s).2.2.2

/-! ### A skip (R315) -/

theorem skipCounted_effect (s : State) : fbit (skipCounted k i s) (Reg.SCAN_STATE k) F.SCAN_STATE_overrun i = true ∧
    (rd (skipCounted k i s) (Reg.SCAN_TASK_STAT k i)).toNat = min 0xFFFFFFFF ((rd s (Reg.SCAN_TASK_STAT k i)).toNat + 1) ∧
    scanMode (skipCounted k i s) k = scanMode s k ∧ (skipCounted k i s).log = s.log ∧
    ((skipCounted k i s).scan.cores[k]).tasks[i] = { (s.scan.cores[k]).tasks[i] with
      skipped := (s.scan.cores[k]).tasks[i].skipped + 1, consecutive := (s.scan.cores[k]).tasks[i].consecutive + 1 } := by
  have hne : Reg.SCAN_STATE k ≠ Reg.SCAN_TASK_STAT k i := by simp only [Reg.SCAN_STATE, Reg.SCAN_TASK_STAT]; omega
  refine ⟨?_, ?_, ?_, rfl, (setTask_same _ _).2.2.2⟩
  · show fbit (skipShown k i s) _ _ _ = true
    rw [skipShown, fbit_setFbit _ _ _ _ _ _ (by decide) (show i.val < 8 from i.isLt), if_pos rfl]
  · show (rd (skipShown k i s) _).toNat = _
    rw [skipShown, rd_setFbit_ne _ _ _ _ hne.symm, rd_wr, BitVec.toNat_ofNat]
    exact Nat.mod_eq_of_lt (by omega)
  · show scanMode (skipShown k i s) k = _
    exact (fld_setF_disj _ _ F.SCAN_STATE_overrun _ _ (by decide)).trans (fld_of_rd (rd_wr_ne _ _ hne) _)

theorem fbit_of_fld {G : Fld} {a n : Nat} (h : fld t a G = fld s a G) : fbit t a G n = fbit s a G n := congrArg (fun v => v.testBit n) h

theorem skipRelease_effect (hmode : scanMode s k = scanRun) (hroom : Room 2 s) :
    fbit (skipRelease k i s) (Reg.SCAN_STATE k) F.SCAN_STATE_overrun i = true ∧
    (rd (skipRelease k i s) (Reg.SCAN_TASK_STAT k i)).toNat = min 0xFFFFFFFF ((rd s (Reg.SCAN_TASK_STAT k i)).toNat + 1) ∧
    ((skipRelease k i s).scan.cores[k]).tasks[i].counter = (s.scan.cores[k]).tasks[i].counter ∧
    ((s.scan.cores[k]).tasks[i].consecutive + 1 ≠ 16 → scanMode (skipRelease k i s) k = scanRun ∧
      ((skipRelease k i s).scan.cores[k]).tasks[i].consecutive = (s.scan.cores[k]).tasks[i].consecutive + 1) ∧
    ((s.scan.cores[k]).tasks[i].consecutive + 1 = 16 → scanMode (skipRelease k i s) k = scanStop ∧
      fld (skipRelease k i s) (Reg.SCAN_STATE k) F.SCAN_STATE_trap = 3) := by
  have he := skipRelease_eq k i s
  obtain ⟨h1, h2, h3, h4, h5⟩ := skipCounted_effect (k := k) (i := i) s
  generalize skipCounted k i s = y at h1 h2 h3 h4 h5 he
  by_cases hc : (s.scan.cores[k]).tasks[i].consecutive + 1 = 16
  · rw [he.trans (if_pos hc)]
    have ht := trapCore_trapped (k := k) (s := y) i (cause := 3) (by decide) (by rw [h3, hmode]; decide) (room_of_log h4 hroom)
    refine ⟨(fbit_of_fld ht.overrun).trans h1, ?_, ?_, fun h => absurd hc h, fun _ => ⟨ht.mode, ht.trap⟩⟩
    · rw [ht.stat i]
      exact h2
    · rw [ht.core, task_dropCycles, h5]
  · rw [he.trans (if_neg hc)]
    exact ⟨h1, h2, by rw [h5], fun _ => ⟨h3.trans hmode, by rw [h5]⟩, fun h => absurd h hc⟩

/-! ### The clause of the releases -/

theorem taskRelease_stop (q : Nat) (hmode : scanMode x k = scanStop) (hin : ReleasedIn k i s x) :
    ((releaseDone k i q x).scan.cores[k]).tasks[i] = { (s.scan.cores[k]).tasks[i] with
      lastRel := some (nextRelease s k i), counter := (s.scan.cores[k]).tasks[i].counter + 1 } ∧
    (releaseDone k i q x).log = s.log ∧ OnlyRegs [] s (releaseDone k i q x) := by
  have he : releaseDone k i q x = advanceCounter k i x := by
    unfold releaseDone
    rw [hmode]
    rfl
  rw [he]
  refine ⟨?_, hin.log, fun a _ => rd_of_regs hin.regs a⟩
  rw [advanceCounter_task, hin.task]

theorem taskRelease_hold (q : Nat) (hmode : scanMode x k = scanHold) (hin : ReleasedIn k i s x) :
    (releaseDone k i q x).log = s.log ∧ OnlyRegs [] s (releaseDone k i q x) ∧
    ((s.scan.cores[k]).step = some i → (s.scan.cores[k]).tasks[i].busy = false →
      ((releaseDone k i q x).scan.cores[k]).tasks[i].busy = true ∧ ((releaseDone k i q x).scan.cores[k]).tasks[i].relAt = q ∧
      ((releaseDone k i q x).scan.cores[k]).tasks[i].counter = (s.scan.cores[k]).tasks[i].counter + 1) ∧
    ((s.scan.cores[k]).step ≠ some i → ((releaseDone k i q x).scan.cores[k]).tasks[i] =
      { (s.scan.cores[k]).tasks[i] with lastRel := some (nextRelease s k i) }) := by
  obtain ⟨v, hcore⟩ := hin.core
  have hstep : (x.scan.cores[k]).step = (s.scan.cores[k]).step := by rw [hcore]
  have hbusy : (x.scan.cores[k]).tasks[i].busy = (s.scan.cores[k]).tasks[i].busy := by rw [hin.task]
  unfold releaseDone
  rw [if_pos hmode]
  split
  · next h =>
    refine ⟨hin.log, fun a _ => rd_of_regs hin.regs a, fun _ _ => ⟨?_, ?_, ?_⟩, fun hne => absurd (hstep.symm.trans h.1) hne⟩
    · rw [releaseCycle_task]
    · rw [releaseCycle_task]
    · rw [releaseCycle_task, advanceCounter_task, hin.task]
  · next h =>
    refine ⟨hin.log, fun a _ => rd_of_regs hin.regs a, fun hs hb => absurd ⟨hstep.trans hs, ?_⟩ h, fun _ => hin.task⟩
    rw [hbusy, hb]
    rfl

theorem runRelease_taken {q : Nat} (hlive : (s.scan.cores[k]).liveFrom ≤ q) (hq : (s.scan.cores[k]).quiesce = none)
    (hf : (s.scan.cores[k]).frozen = false) (ht : transferring s k = false) (hd : swapDue s k q = false) : runRelease k i q s =
    if (s.scan.cores[k]).tasks[i].busy then skipRelease k i (makeHeld k i s) else releaseCycle k i q (makeHeld k i s) := by
  rw [runRelease_eq, if_neg, if_neg]
  · rw [ht, hd]
    rintro (h | h) <;> cases h
  · rw [hq, hf]
    rintro (h | h | h)
    · omega
    · cases h
    · cases h

theorem transferring_of_regs (h : t.regs = s.regs) : transferring t k = transferring s k := by
  unfold transferring
  rw [fld_of_regs h]

theorem swapDue_of_regs (h : t.regs = s.regs) (q : Nat) : swapDue t k q = swapDue s k q := by
  unfold swapDue
  rw [fld_of_regs h, rd64_of_rd (rd_of_regs h _) (rd_of_regs h _)]

theorem taskRelease_run {q : Nat} (hmode : scanMode x k = scanRun) (hin : ReleasedIn k i s x) (hlive : (s.scan.cores[k]).liveFrom ≤ q)
    (hq : (s.scan.cores[k]).quiesce = none) (hf : (s.scan.cores[k]).frozen = false) (ht : transferring s k = false)
    (hd : swapDue s k q = false) (hroom : Room 2 s) :
    ((releaseDone k i q x).scan.cores[k]).tasks[i].counter = (s.scan.cores[k]).tasks[i].counter + 1 ∧
    ((s.scan.cores[k]).tasks[i].busy = false → ((releaseDone k i q x).scan.cores[k]).tasks[i].busy = true ∧
      ((releaseDone k i q x).scan.cores[k]).tasks[i].started = false ∧ ((releaseDone k i q x).scan.cores[k]).tasks[i].relAt = q ∧
      (releaseDone k i q x).log = s.log ∧ OnlyRegs [] s (releaseDone k i q x)) ∧
    ((s.scan.cores[k]).tasks[i].busy = true → fbit (releaseDone k i q x) (Reg.SCAN_STATE k) F.SCAN_STATE_overrun i = true ∧
      (rd (releaseDone k i q x) (Reg.SCAN_TASK_STAT k i)).toNat = min 0xFFFFFFFF ((rd s (Reg.SCAN_TASK_STAT k i)).toNat + 1) ∧
      ((s.scan.cores[k]).tasks[i].consecutive + 1 ≠ 16 → scanMode (releaseDone k i q x) k = scanRun ∧
        ((releaseDone k i q x).scan.cores[k]).tasks[i].consecutive = (s.scan.cores[k]).tasks[i].consecutive + 1) ∧
      ((s.scan.cores[k]).tasks[i].consecutive + 1 = 16 → scanMode (releaseDone k i q x) k = scanStop ∧
        fld (releaseDone k i q x) (Reg.SCAN_STATE k) F.SCAN_STATE_trap = 3)) := by
  obtain ⟨v, hcore⟩ := hin.core
  have he : releaseDone k i q x = runRelease k i q (advanceCounter k i x) := by
    unfold releaseDone
    rw [hmode]
    rfl
  rw [he]
  have htask := advanceCounter_task (k := k) (i := i) x
  have hac : ∃ v, (advanceCounter k i x).scan.cores[k] = { s.scan.cores[k] with tasks := v } :=
    ⟨_, (core_setTask k i _ x).trans (by rw [hcore])⟩
  have hregs : (advanceCounter k i x).regs = s.regs := hin.regs
  have hlog : (advanceCounter k i x).log = s.log := hin.log
  have hm : scanMode (advanceCounter k i x) k = scanRun := hmode
  rw [hin.task] at htask
  generalize advanceCounter k i x = y at htask hac hregs hlog hm
  obtain ⟨v', hy⟩ := hac
  rw [runRelease_taken (by rw [hy]; exact hlive) (by rw [hy]; exact hq) (by rw [hy]; exact hf)
    ((transferring_of_regs hregs).trans ht) ((swapDue_of_regs hregs q).trans hd)]
  have hheld := heldMade_makeHeld k i y
  obtain ⟨o, ho⟩ := hheld.tasks i
  rw [htask] at ho
  have hb : (y.scan.cores[k]).tasks[i].busy = (s.scan.cores[k]).tasks[i].busy := by rw [htask]
  rw [hb]
  generalize makeHeld k i y = z at hheld ho
  cases hbusy : (s.scan.cores[k]).tasks[i].busy
  · rw [if_neg Bool.false_ne_true]
    refine ⟨?_, fun _ => ⟨?_, ?_, ?_, hheld.log.trans hlog, fun a _ => rd_of_regs (hheld.regs.trans hregs) a⟩, fun h => nomatch h⟩
    · rw [releaseCycle_task, ho]
    · rw [releaseCycle_task]
    · rw [releaseCycle_task]
    · rw [releaseCycle_task]
  · rw [if_pos rfl]
    obtain ⟨h1, h2, h3, h4, h5⟩ := skipRelease_effect (k := k) (i := i) (s := z) ((scanMode_of_rd (rd_of_regs hheld.regs _)).trans hm)
      (room_of_log (hheld.log.trans hlog) hroom)
    rw [ho] at h3 h4 h5
    rw [rd_of_regs (hheld.regs.trans hregs)] at h2
    exact ⟨h3, fun h => (nomatch h), fun _ => ⟨h1, h2, h4, h5⟩⟩

theorem taskRelease_clause (k : Fin 2) (i : Fin 8) (s : State) : (periodOf s k i = 0 → exec (.taskRelease k i) s = .next s) ∧
    (periodOf s k i ≠ 0 → nextRelease s k i + 1 < 2 ^ 64 → Room 2 s →
      let y := (s.scan.cores[k]).tasks[i]
      ∃ t, exec (.taskRelease k i) s = .next t ∧ nextRelease s k i ≤ nowNat t ∧ nextRelease s k i % periodOf s k i = 0 ∧
        (t.scan.cores[k]).tasks[i].lastRel = some (nextRelease s k i) ∧
        (scanMode s k = scanStop → (t.scan.cores[k]).tasks[i] =
          { y with lastRel := some (nextRelease s k i), counter := y.counter + 1 } ∧ t.log = s.log ∧ OnlyRegs [] s t) ∧
        (scanMode s k = scanHold → holdPermitted s = true → t.log = s.log ∧ OnlyRegs [] s t ∧
          ((s.scan.cores[k]).step = some i → y.busy = false → (t.scan.cores[k]).tasks[i].busy = true ∧
            (t.scan.cores[k]).tasks[i].relAt = nextRelease s k i ∧ (t.scan.cores[k]).tasks[i].counter = y.counter + 1) ∧
          ((s.scan.cores[k]).step ≠ some i → (t.scan.cores[k]).tasks[i] = { y with lastRel := some (nextRelease s k i) })) ∧
        (scanMode s k = scanRun → (s.scan.cores[k]).liveFrom ≤ nextRelease s k i → (s.scan.cores[k]).quiesce = none →
          (s.scan.cores[k]).frozen = false →
          transferring s k = false → swapDue s k (nextRelease s k i) = false → (t.scan.cores[k]).tasks[i].counter = y.counter + 1 ∧
          (y.busy = false → (t.scan.cores[k]).tasks[i].busy = true ∧ (t.scan.cores[k]).tasks[i].started = false ∧
            (t.scan.cores[k]).tasks[i].relAt = nextRelease s k i ∧ t.log = s.log ∧ OnlyRegs [] s t) ∧
          (y.busy = true → fbit t (Reg.SCAN_STATE k) F.SCAN_STATE_overrun i = true ∧
            (rd t (Reg.SCAN_TASK_STAT k i)).toNat = min 0xFFFFFFFF ((rd s (Reg.SCAN_TASK_STAT k i)).toNat + 1) ∧
            (y.consecutive + 1 ≠ 16 → scanMode t k = scanRun ∧ (t.scan.cores[k]).tasks[i].consecutive = y.consecutive + 1) ∧
            (y.consecutive + 1 = 16 → scanMode t k = scanStop ∧ fld t (Reg.SCAN_STATE k) F.SCAN_STATE_trap = 3)))) := by
  refine ⟨fun h => Eq.trans (b := execTaskRelease k i s) rfl (if_pos h), fun h hfit hroom => ?_⟩
  refine ⟨_, exec_taskRelease h, ?_, nextRelease_mod s k i, ?_, fun hmode => ?_, fun hmode hp => ?_, fun hmode hlive hq hf ht hd => ?_⟩
  · have hk := relKept_releaseDone (k := k) (i := i) (nextRelease s k i) (released k i s)
    rw [nowNat_of_tai (hk.2.trans (released_noted s).2)]
    exact le_nowNat_ofNat hfit s
  · exact (relKept_releaseDone (k := k) (i := i) _ _).1.trans (released_noted s).1
  · have hin := released_in (k := k) (i := i) (s := s) (.inl (by rw [hmode]; decide))
    exact taskRelease_stop _ ((scanMode_of_rd (rd_of_regs hin.regs _)).trans hmode) hin
  · have hin := released_in (k := k) (i := i) (s := s) (.inr hp)
    exact taskRelease_hold _ ((scanMode_of_rd (rd_of_regs hin.regs _)).trans hmode) hin
  · have hin := released_in (k := k) (i := i) (s := s) (.inl (by rw [hmode]; decide))
    exact taskRelease_run ((scanMode_of_rd (rd_of_regs hin.regs _)).trans hmode) hin hlive hq hf ht hd hroom

end Releases

end Sys2Proof.Machine
end


section
/-! PROOFS. Cycles of a scan core: the image a cycle takes, its completion, and a trap (R307, R309, R316, R323, R330). -/

namespace Sys2Proof.Machine

open Sys2Proof Sys2Proof.Safety Sys2Proof.Laws

section Cycles

variable {k : Fin 2} {i : Fin 8} {s x y t : State}

/-! ### The image a cycle takes (R307, R330) -/

/-- The value a force gives an input symbol. -/
def forcedInput (s : State) (k : Fin 2) (z : ScanSymbol) : Option (BitVec 64) :=
  if isOutput z then none else (forceOn s k z.id.toNat).map (·.value)

/-- The image of a cycle: the most recent complete one with the input forces. -/
def cycleImage (s : State) (k : Fin 2) (o : List (Nat × BitVec 64)) : List (Nat × BitVec 64) :=
  (symbolsOf s.scan.cores[k]).foldl (fun l (y : ScanSymbol) =>
    if isOutput y then l else match forceOn s k y.id.toNat with | none => l | some f => symPut l y.id.toNat f.value) o

theorem cycleImage_eq (s : State) (k : Fin 2) (o : List (Nat × BitVec 64)) :
    cycleImage s k o = putAll (fun z : ScanSymbol => z.id.toNat) (forcedInput s k) (symbolsOf s.scan.cores[k]) o := by
  unfold cycleImage putAll
  congr 1
  funext l z
  unfold forcedInput
  cases isOutput z
  · cases forceOn s k z.id.toNat <;> rfl
  · rfl

theorem symGet_cycleImage {z : ScanSymbol} (hz : z ∈ symbolsOf s.scan.cores[k]) (hin : isOutput z = false)
    (o : List (Nat × BitVec 64)) : symGet (cycleImage s k o) z.id.toNat =
      match forceOn s k z.id.toNat with | none => symGet o z.id.toNat | some f => f.value := by
  rw [cycleImage_eq]
  have hforce : ∀ w : ScanSymbol, w.id.toNat = z.id.toNat →
      forcedInput s k w = none ∨ forcedInput s k w = (forceOn s k z.id.toNat).map (·.value) := fun w hw => by
    unfold forcedInput
    split
    · exact .inl rfl
    · exact .inr (by rw [hw])
  cases hf : forceOn s k z.id.toNat with
  | none =>
    refine symGet_putAll_none (fun w _ hw => ?_) o
    have h := hforce w hw
    rw [hf] at h
    exact h.elim id id
  | some f =>
    refine symGet_putAll ⟨z, hz, rfl, ?_⟩ (fun w _ hw => ?_) o
    · unfold forcedInput
      rw [if_neg (by rw [hin]; exact Bool.false_ne_true), hf]
      rfl
    · have h := hforce w hw
      rw [hf] at h
      exact h

/-- The buffers as the cycle takes them. -/
def bufsTaken (s : State) (k : Fin 2) : ImageBufs := ((s.scan.cores[k]).input.settle (nowNat s)).take

/-- The task as the cycle starts. -/
def taskStarted (s : State) (k : Fin 2) (i : Fin 8) : ScanTask :=
  { (s.scan.cores[k]).tasks[i] with
    started := true, image := cycleImage s k (bufsTaken s k).reading.values, imageAt := (bufsTaken s k).reading.stamp }

theorem core_takeImage (k : Fin 2) (i : Fin 8) (s : State) : ∃ e, (takeImage k i s).scan.cores[k] =
    { s.scan.cores[k] with input := bufsTaken s k, edges := e, tasks := (s.scan.cores[k]).tasks.set i (taskStarted s k i) } :=
  ⟨_, core_setScan k _ s⟩

theorem tai_takeImage (s : State) : (takeImage k i s).tai = s.tai := rfl

theorem takeImage_effect (k : Fin 2) (i : Fin 8) (s : State) : ((takeImage k i s).scan.cores[k]).tasks[i] = taskStarted s k i ∧
    ((takeImage k i s).scan.cores[k]).input = bufsTaken s k := by
  obtain ⟨e, he⟩ := core_takeImage k i s
  rw [he]
  exact ⟨task_set _ i _, rfl⟩

theorem exec_cycleStart (hbusy : (s.scan.cores[k]).tasks[i].busy = true) (hstart : (s.scan.cores[k]).tasks[i].started = false)
    (hfree : preempted s k i (max (nowNat s) ((s.scan.cores[k]).tasks[i].relAt + 4000)) = false) : exec (.cycleStart k i) s =
      .next (takeImage k i (reachNs s (BitVec.ofNat 64 ((s.scan.cores[k]).tasks[i].relAt + 4000)))) := by
  refine Eq.trans (b := execCycleStart k i s) rfl (if_pos ⟨hbusy, ?_, ?_⟩)
  · rw [hstart]; rfl
  · rw [hfree]; rfl

theorem cycleStart_clause (k : Fin 2) (i : Fin 8) (s : State) (hbusy : (s.scan.cores[k]).tasks[i].busy = true)
    (hstart : (s.scan.cores[k]).tasks[i].started = false)
    (hfree : preempted s k i (max (nowNat s) ((s.scan.cores[k]).tasks[i].relAt + 4000)) = false)
    (hfit : (s.scan.cores[k]).tasks[i].relAt + 4001 < 2 ^ 64) : ∃ t, exec (.cycleStart k i) s = .next t ∧
      (t.scan.cores[k]).tasks[i].started = true ∧ (s.scan.cores[k]).tasks[i].relAt + 4000 ≤ nowNat t ∧
      let b := (s.scan.cores[k]).input.settle (nowNat t)
      (t.scan.cores[k]).input = { b with reading := b.latest } ∧ (t.scan.cores[k]).tasks[i].imageAt = b.latest.stamp ∧
      ∀ y ∈ symbolsOf (s.scan.cores[k]), isOutput y = false → symGet (t.scan.cores[k]).tasks[i].image y.id.toNat =
        match forceOn s k y.id.toNat with | none => symGet b.latest.values y.id.toNat | some f => f.value := by
  refine ⟨_, exec_cycleStart hbusy hstart hfree, ?_⟩
  have hle := le_nowNat_ofNat (n := (s.scan.cores[k]).tasks[i].relAt + 4000) hfit s
  have hscan : (reachNs s (BitVec.ofNat 64 ((s.scan.cores[k]).tasks[i].relAt + 4000))).scan = s.scan := rfl
  generalize reachNs s (BitVec.ofNat 64 ((s.scan.cores[k]).tasks[i].relAt + 4000)) = x at hle hscan
  obtain ⟨htask, hinput⟩ := takeImage_effect k i x
  have hnow : nowNat (takeImage k i x) = nowNat x := nowNat_of_tai (tai_takeImage x)
  generalize takeImage k i x = t at htask hinput hnow
  have hbufs : bufsTaken x k = { (s.scan.cores[k]).input.settle (nowNat t) with reading := ((s.scan.cores[k]).input.settle (nowNat t)).latest } := by
    rw [bufsTaken, hscan, hnow]
    rfl
  dsimp only
  rw [htask, hnow, hinput, hbufs, hnow]
  refine ⟨rfl, hle, rfl, ?_, fun z hz hin => ?_⟩
  · rw [taskStarted, hbufs, hnow]
  · have h := symGet_cycleImage (s := x) (k := k) (z := z) (by rw [hscan]; exact hz) hin (bufsTaken x k).reading.values
    rw [hbufs, hnow] at h
    have hf : forceOn x k z.id.toNat = forceOn s k z.id.toNat := by
      unfold forceOn
      rw [hscan]
    rw [hf] at h
    rw [taskStarted, hbufs, hnow]
    exact h

/-! ### The completion of a cycle (R309, R316) -/

/-- What the cycle wrote stored, and its time noted. -/
def cycleStored (k : Fin 2) (i : Fin 8) (w : CycleResult) (s : State) : State :=
  noteTime k i (setScan k (storeWrites w (evalInstances s k i w s.scan.cores[k])) s)

/-- The cycle no longer in progress. -/
def cycleOver (k : Fin 2) (i : Fin 8) (z : ScanTask) (s : State) : State :=
  setScan k { s.scan.cores[k] with
    tasks := (s.scan.cores[k]).tasks.set i { z with busy := false, started := false, skipped := 0 }
    step := if (s.scan.cores[k]).step = some i then none else (s.scan.cores[k]).step } s

/-- A late cycle logged. -/
def lateNoted (k : Fin 2) (i : Fin 8) (n : Nat) (s : State) : State :=
  whenS (decide (n ≠ 0)) (logN 0x8002 k (i.val * 0x1000000 + min n 0xFFFFFF)) s

/-- The outputs handed over, or held where the cycle is late. -/
def outputsMoved (k : Fin 2) (i : Fin 8) (late : Bool) (l : List (Nat × BitVec 64)) (s : State) : State :=
  if late then setTask k i { (s.scan.cores[k]).tasks[i] with held := some l } s else transferNow k l s

theorem completeCycle_eq {e : BitVec 64} {w : CycleResult} (hbusy : (s.scan.cores[k]).tasks[i].busy = true)
    (hstart : (s.scan.cores[k]).tasks[i].started = true) (hfree : preempted s k i (max (nowNat s) e.toNat) = false) :
    completeCycle k i e w s =
      let x := cycleStored k i w (reachNs s e)
      let late := (s.scan.cores[k]).tasks[i].skipped ≠ 0
      let y := lateNoted k i (s.scan.cores[k]).tasks[i].skipped (cycleOver k i (s.scan.cores[k]).tasks[i] x)
      settleSwap k (settleQuiesce k (if late ∧ (x.scan.cores[k]).quiesce.isNone ∧ !(x.scan.cores[k]).frozen ∧ !transferring y k then
          setTask k i { (y.scan.cores[k]).tasks[i] with held := some (transferOf x.scan.cores[k] i) } y
        else transferNow k (transferOf x.scan.cores[k] i) y)) := by
  unfold completeCycle
  dsimp only
  rw [if_neg (by rw [hbusy, hstart, hfree]; decide)]
  rfl

theorem rd_noteTime_state (s : State) {a : Nat} (ha : a ≠ Reg.SCAN_TASK_TIME k i) : rd (noteTime k i s) a = rd s a := by
  unfold noteTime
  dsimp only
  rw [rd_setF_ne _ _ _ ha, rd_setF_ne _ _ _ ha]

/-- What storing the writes of a cycle leaves. -/
theorem cycleStored_effect (k : Fin 2) (i : Fin 8) (w : CycleResult) (s : State) :
    ∃ c, (cycleStored k i w s).scan.cores[k] = c ∧ c.vars = w.writes.foldl (fun l x => symPut l x.1.toNat x.2) (s.scan.cores[k]).vars ∧
      c.prog = (s.scan.cores[k]).prog ∧ c.out = (s.scan.cores[k]).out ∧ c.output = (s.scan.cores[k]).output ∧
      c.quiesce = (s.scan.cores[k]).quiesce ∧ c.frozen = (s.scan.cores[k]).frozen ∧ c.tasks = (s.scan.cores[k]).tasks ∧
      (cycleStored k i w s).tai = s.tai ∧ (cycleStored k i w s).scan.forces = s.scan.forces ∧
      transferring (cycleStored k i w s) k = transferring s k := by
  refine ⟨_, core_setScan k _ s, rfl, rfl, rfl, rfl, rfl, rfl, rfl, rfl, rfl, ?_⟩
  unfold transferring
  rw [fld_of_rd (t := cycleStored k i w s) (rd_noteTime_state _ (by simp only [Reg.SCAN_XCHG, Reg.SCAN_TASK_TIME]; omega))]
  rfl

theorem lateNoted_same (n : Nat) (s : State) : (lateNoted k i n s).scan = s.scan ∧ (lateNoted k i n s).tai = s.tai ∧
    transferring (lateNoted k i n s) k = transferring s k := by
  unfold lateNoted
  cases decide (n ≠ 0)
  · exact ⟨rfl, rfl, rfl⟩
  · obtain ⟨h1, -, h3⟩ := same_logN 0x8002 k (i.val * 0x1000000 + min n 0xFFFFFF) s
    refine ⟨h1, h3, ?_⟩
    unfold transferring
    exact congrArg (· == 2) (fld_of_rd (rd_logN_scan _ _ _ _ (by simp only [Reg.SCAN_XCHG]; omega)) _)

theorem settleSwap_none (h : transferring s k = false) : settleSwap k s = s := by
  refine if_neg ?_
  rw [h]
  rintro ⟨h', -⟩
  cases h'

/-- The core's transfer at the completion. -/
theorem transferNow_values {l : List (Nat × BitVec 64)} {n : Nat} {v : BitVec 64} (hl : ∃ e ∈ l, e.1 = n) (hu : ∀ e ∈ l, e.1 = n → e.2 = v)
    (s : State) : symGet ((transferNow k l s).scan.cores[k]).out n = v ∧
      symGet ((transferNow k l s).scan.cores[k]).output.latest.values n = forced s k n v := by
  rw [core_transferNow]
  obtain ⟨e, he, hn⟩ := hl
  constructor
  · exact symGet_putAll (key := fun e : Nat × BitVec 64 => e.1) (g := fun e => some e.2) (v := v)
      ⟨e, he, hn, by rw [hu e he hn]⟩ (fun z hz hz' => .inr (by rw [hu z hz hz'])) _
  · exact symGet_putAll (key := fun e : Nat × BitVec 64 => e.1) (g := fun e => some (forced s k e.1 e.2)) (v := forced s k n v)
      ⟨e, he, hn, by rw [hu e he hn, hn]⟩ (fun z hz hz' => .inr (by rw [hu z hz hz', hz'])) _

theorem transferOf_mem {c : ScanCore} {z : ScanSymbol} (hz : z ∈ symbolsOf c) (hout : isOutput z = true) (htask : z.task = i) :
    (∃ e ∈ transferOf c i, e.1 = z.id.toNat) ∧ ∀ e ∈ transferOf c i, e.1 = z.id.toNat → e.2 = symGet c.vars z.id.toNat := by
  unfold transferOf
  constructor
  · refine ⟨_, List.mem_map_of_mem (List.mem_filter.mpr ⟨hz, ?_⟩), rfl⟩
    rw [hout, htask]
    simp
  · intro e he hid
    obtain ⟨w, -, rfl⟩ := List.mem_map.mp he
    exact congrArg _ hid

/-- A cycle completed, where nothing quiesces, freezes or exchanges the core. -/
structure CycleDone (k : Fin 2) (i : Fin 8) (w : CycleResult) (s t : State) : Prop where
  busy : (t.scan.cores[k]).tasks[i].busy = false
  vars : (t.scan.cores[k]).vars = w.writes.foldl (fun l x => symPut l x.1.toNat x.2) (s.scan.cores[k]).vars
  outputs : (s.scan.cores[k]).tasks[i].skipped = 0 → ∀ y ∈ symbolsOf (s.scan.cores[k]), isOutput y = true → y.task = i →
    symGet (t.scan.cores[k]).out y.id.toNat = symGet (t.scan.cores[k]).vars y.id.toNat ∧
    symGet (t.scan.cores[k]).output.latest.values y.id.toNat = forced s k y.id.toNat (symGet (t.scan.cores[k]).vars y.id.toNat)
  held : (s.scan.cores[k]).tasks[i].skipped ≠ 0 → (t.scan.cores[k]).out = (s.scan.cores[k]).out ∧
    (t.scan.cores[k]).output = (s.scan.cores[k]).output ∧ (t.scan.cores[k]).tasks[i].held.isSome = true

theorem forced_of_forces (h : t.scan.forces = s.scan.forces) (n : Nat) (v : BitVec 64) : forced t k n v = forced s k n v := by
  unfold forced forceOn
  rw [h]

theorem completeCycle_done {e : BitVec 64} {w : CycleResult} (hbusy : (s.scan.cores[k]).tasks[i].busy = true)
    (hstart : (s.scan.cores[k]).tasks[i].started = true) (hfree : preempted s k i (max (nowNat s) e.toNat) = false)
    (hq : (s.scan.cores[k]).quiesce = none) (hf : (s.scan.cores[k]).frozen = false) (ht : transferring s k = false) :
    CycleDone k i w s (completeCycle k i e w s) ∧ (completeCycle k i e w s).tai = (reachNs s e).tai := by
  rw [completeCycle_eq hbusy hstart hfree]
  dsimp only
  have hr : (reachNs s e).scan = s.scan ∧ transferring (reachNs s e) k = transferring s k := ⟨rfl, rfl⟩
  obtain ⟨hscan, htr⟩ := hr
  generalize reachNs s e = r at hscan htr
  obtain ⟨c, hc, hvars, hprog, hout, houtput, hquiesce, hfrozen, htasks, htai, hforces, htr'⟩ := cycleStored_effect k i w r
  rw [hscan] at hvars hprog hout houtput hquiesce hfrozen htasks hforces
  generalize cycleStored k i w r = x at hc htai hforces htr'
  have hover : (cycleOver k i (s.scan.cores[k]).tasks[i] x).scan.cores[k] = { x.scan.cores[k] with
      tasks := (x.scan.cores[k]).tasks.set i { (s.scan.cores[k]).tasks[i] with busy := false, started := false, skipped := 0 }
      step := if (x.scan.cores[k]).step = some i then none else (x.scan.cores[k]).step } := core_setScan k _ x
  have hover' : (cycleOver k i (s.scan.cores[k]).tasks[i] x).tai = x.tai ∧ (cycleOver k i (s.scan.cores[k]).tasks[i] x).scan.forces = x.scan.forces ∧
      transferring (cycleOver k i (s.scan.cores[k]).tasks[i] x) k = transferring x k := ⟨rfl, rfl, rfl⟩
  obtain ⟨htai2, hforces2, htr2⟩ := hover'
  obtain ⟨hl1, hl2, hl3⟩ := lateNoted_same (k := k) (i := i) (s.scan.cores[k]).tasks[i].skipped (cycleOver k i (s.scan.cores[k]).tasks[i] x)
  rw [hc] at hover
  rw [hc]
  generalize cycleOver k i (s.scan.cores[k]).tasks[i] x = o at hover htai2 hforces2 htr2 hl1 hl2 hl3
  generalize lateNoted k i (s.scan.cores[k]).tasks[i].skipped o = y at hl1 hl2 hl3
  have hty : transferring y k = false := by rw [hl3, htr2, htr', htr, ht]
  have hycore := (congrArg (fun z : ScanState => z.cores[k]) hl1).trans hover
  dsimp only at hycore
  have htaiy : y.tai = r.tai := hl2.trans (htai2.trans htai)
  have hfy : y.scan.forces = s.scan.forces := by rw [hl1, hforces2, hforces]
  have hqn : c.quiesce.isNone = true := by rw [hquiesce, hq]; rfl
  by_cases hlate : (s.scan.cores[k]).tasks[i].skipped = 0
  · rw [if_neg (fun h => h.1 hlate)]
    have hcore := core_transferNow k (transferOf c i) y
    rw [hycore] at hcore
    have hvals := fun n v h h' => transferNow_values (k := k) (l := transferOf c i) (n := n) (v := v) h h' y
    have hkeep : (transferNow k (transferOf c i) y).tai = y.tai ∧ transferring (transferNow k (transferOf c i) y) k = transferring y k := ⟨rfl, rfl⟩
    obtain ⟨htai3, htr3⟩ := hkeep
    generalize transferNow k (transferOf c i) y = z at hcore hvals htai3 htr3
    have hvarsz : (z.scan.cores[k]).vars = c.vars := by rw [hcore]
    rw [settleQuiesce_none (by rw [hcore]; exact hquiesce.trans hq), settleSwap_none (htr3.trans hty)]
    refine ⟨⟨?_, hvarsz.trans hvars, fun _ a ha ho hi => ?_, fun h => absurd hlate h⟩, htai3.trans htaiy⟩
    · rw [hcore]
      exact congrArg ScanTask.busy (task_set _ i _)
    · have hmem : a ∈ symbolsOf c := by
        unfold symbolsOf at ha ⊢
        rw [hprog]
        exact ha
      obtain ⟨h1, h2⟩ := transferOf_mem (i := i) hmem ho hi
      obtain ⟨v1, v2⟩ := hvals _ _ h1 h2
      rw [hvarsz]
      exact ⟨v1, v2.trans (forced_of_forces hfy _ _)⟩
  · rw [if_pos ⟨hlate, hqn, by rw [hfrozen, hf]; rfl, by rw [hty]; rfl⟩]
    have hcore := core_setTask k i { (y.scan.cores[k]).tasks[i] with held := some (transferOf c i) } y
    have htask := (setTask_same (k := k) (i := i) { (y.scan.cores[k]).tasks[i] with held := some (transferOf c i) } y).2.2.2
    have hkeep : ∀ z, (setTask k i z y).tai = y.tai ∧ transferring (setTask k i z y) k = transferring y k := fun _ => ⟨rfl, rfl⟩
    obtain ⟨htai3, htr3⟩ := hkeep { (y.scan.cores[k]).tasks[i] with held := some (transferOf c i) }
    have hbz : ((y.scan.cores[k]).tasks[i]).busy = false := by
      rw [hycore]
      exact congrArg ScanTask.busy (task_set _ i _)
    generalize setTask k i { (y.scan.cores[k]).tasks[i] with held := some (transferOf c i) } y = z at hcore htask htai3 htr3
    have hrest : (z.scan.cores[k]).vars = c.vars ∧ (z.scan.cores[k]).out = c.out ∧ (z.scan.cores[k]).output = c.output ∧
        (z.scan.cores[k]).quiesce = c.quiesce := by
      rw [hcore, hycore]
      exact ⟨rfl, rfl, rfl, rfl⟩
    obtain ⟨hz1, hz2, hz3, hz4⟩ := hrest
    rw [settleQuiesce_none (hz4.trans (hquiesce.trans hq)), settleSwap_none (htr3.trans hty)]
    refine ⟨⟨?_, hz1.trans hvars, fun h => absurd h hlate, fun _ => ⟨hz2.trans hout, hz3.trans houtput, ?_⟩⟩, htai3.trans htaiy⟩
    · rw [htask]
      exact hbz
    · rw [htask]
      rfl

theorem continueSleep_none (h : s.pwr.sleepFrom = none) : continueSleep s = s := by
  unfold continueSleep
  rw [h]

theorem cycleComplete_clause (k : Fin 2) (i : Fin 8) (e : BitVec 64) (w : CycleResult) (s : State)
    (hbusy : (s.scan.cores[k]).tasks[i].busy = true) (hstart : (s.scan.cores[k]).tasks[i].started = true)
    (hfree : preempted s k i (max (nowNat s) e.toNat) = false) (hfit : e.toNat + 1 < 2 ^ 64) (hsleep : s.pwr.sleepFrom = none)
    (hq : (s.scan.cores[k]).quiesce = none) (hf : (s.scan.cores[k]).frozen = false) (ht : transferring s k = false) :
    ∃ t, exec (.cycleComplete k i e w) s = .next t ∧ (t.scan.cores[k]).tasks[i].busy = false ∧ e.toNat ≤ nowNat t ∧
      (t.scan.cores[k]).vars = w.writes.foldl (fun l x => symPut l x.1.toNat x.2) (s.scan.cores[k]).vars ∧
      ((s.scan.cores[k]).tasks[i].skipped = 0 → ∀ y ∈ symbolsOf (s.scan.cores[k]), isOutput y = true → y.task = i →
        symGet (t.scan.cores[k]).out y.id.toNat = symGet (t.scan.cores[k]).vars y.id.toNat ∧
        symGet (t.scan.cores[k]).output.latest.values y.id.toNat = forced s k y.id.toNat (symGet (t.scan.cores[k]).vars y.id.toNat)) ∧
      ((s.scan.cores[k]).tasks[i].skipped ≠ 0 → (t.scan.cores[k]).out = (s.scan.cores[k]).out ∧
        (t.scan.cores[k]).output = (s.scan.cores[k]).output ∧ (t.scan.cores[k]).tasks[i].held.isSome = true) := by
  obtain ⟨hd, htai⟩ := completeCycle_done (w := w) hbusy hstart hfree hq hf ht
  have hpwr : (completeCycle k i e w s).pwr = s.pwr := keeps_of_ev (p := .pwr) (completeCycle_ev (foot_self _) (Ev.refl _ s)) rfl
  have hexec : exec (.cycleComplete k i e w) s = .next (continueSleep (settleTrial (completeCycle k i e w s))) := rfl
  generalize completeCycle k i e w s = x at hd htai hpwr hexec
  have hev : Ev ⟨[.log, .cmd, .upd], [.cmd, .upd], false⟩ x (settleTrial x) := settleTrial_ev (foot_self _) (Ev.refl _ x)
  generalize settleTrial x = y at hev hexec
  have hscan : y.scan = x.scan := keeps_of_ev (p := .scan) hev rfl
  have htai' : y.tai = x.tai := keeps_of_ev (p := .tai) hev rfl
  have hpwr' : y.pwr = x.pwr := keeps_of_ev (p := .pwr) hev rfl
  rw [continueSleep_none (by rw [hpwr', hpwr]; exact hsleep)] at hexec
  refine ⟨y, hexec, ?_⟩
  rw [hscan, nowNat_of_tai (htai'.trans htai)]
  exact ⟨hd.busy, le_nowNat_reachNs hfit s, hd.vars, hd.outputs, hd.held⟩

/-! ### A trap -/

theorem scanTrap_clause (k : Fin 2) (i : Fin 8) (c : Fin 5) (s : State) :
    ((s.scan.cores[k]).tasks[i].busy = false → exec (.cycleStart k i) s = .next s ∧
      (s.pwr.sleepFrom = none → exec (.scanTrap k i c) s = .next s)) ∧
    ((s.scan.cores[k]).tasks[i].busy = true → scanMode s k ≠ scanStop → s.pwr.sleepFrom = none → Room 2 s →
      ∃ t, exec (.scanTrap k i c) s = .next t ∧
      scanMode t k = scanStop ∧ fld t (Reg.SCAN_STATE k) F.SCAN_STATE_trap = c.val ∧
      (∀ j : Fin 8, (t.scan.cores[k]).tasks[j].busy = false) ∧ (t.scan.cores[k]).out = (s.scan.cores[k]).out ∧
      Logged [(0x8007, k, BitVec.ofNat 32 (i.val * 0x1000000 + c.val)),
        (0x8001, k, BitVec.ofNat 32 (scanMode s k * 256))] s t) := by
  have hexec : exec (.scanTrap k i c) s = .next (continueSleep (scanTrap k i c s)) := rfl
  refine ⟨fun hb => ⟨?_, fun hsleep => ?_⟩, fun hb hmode hsleep hroom => ?_⟩
  · refine Eq.trans (b := execCycleStart k i s) rfl (if_neg ?_)
    rw [hb]
    rintro ⟨h, -⟩
    cases h
  · rw [hexec, show scanTrap k i c s = s from if_neg (by rw [hb]; exact Bool.false_ne_true), continueSleep_none hsleep]
  · rw [hexec, show scanTrap k i c s = trapCore k i c s from if_pos hb]
    have ht := trapCore_trapped (k := k) (s := s) i (cause := c) (by omega) hmode hroom
    have hpwr : (trapCore k i c s).pwr = s.pwr := keeps_of_ev (p := .pwr) (trapCore_ev (foot_self _) (Ev.refl _ s)) rfl
    generalize trapCore k i c s = t at ht hpwr
    rw [continueSleep_none (by rw [hpwr]; exact hsleep)]
    refine ⟨t, rfl, ht.mode, ht.trap, fun j => ?_, by rw [ht.core]; rfl, ht.logged⟩
    rw [ht.core, task_dropCycles]

end Cycles

end Sys2Proof.Machine
end


section
/-! PROOFS. The retained sets and the exchange of a program (R324, R331, R332). -/

namespace Sys2Proof.Machine

open Sys2Proof Sys2Proof.Safety Sys2Proof.Laws

section Exchanges

variable {k : Fin 2} {s x y t : State}

/-! ### The commit of the retained sets (R324) -/

/-- The copy that is not the newer one. -/
def olderCopy (c : ScanCore) : Fin 2 :=
  let newer : Fin 2 := match c.copies[0], c.copies[1] with
    | some a, some b => if a.order < b.order then 1 else 0
    | none, some _ => 1
    | _, _ => 0
  if c.copies[0].isNone && c.copies[1].isNone then 0 else 1 - newer

theorem commitRetained_some {p : ScanProgram} (h : (s.scan.cores[k]).prog = some p) : commitRetained k s =
    setScan k { s.scan.cores[k] with
      copies := (s.scan.cores[k]).copies.set (olderCopy s.scan.cores[k]) (some (nextSet s k p)), queue := [] } s := by
  unfold commitRetained
  dsimp only
  split
  · next h' =>
    rw [h] at h'
    cases h'
  · next q hq =>
    obtain rfl : q = p := Option.some.inj (hq.symm.trans h)
    rfl

theorem commitRetained_none (h : (s.scan.cores[k]).prog = none) : commitRetained k s = s := by
  unfold commitRetained
  dsimp only
  split
  · rfl
  · next q hq =>
    rw [h] at hq
    cases hq

theorem le_of_olderCopy_zero {c : ScanCore} {u v : RetainedSet} (h : olderCopy c = 0) (h0 : c.copies[0] = some u)
    (h1 : c.copies[1] = some v) : u.order ≤ v.order := by
  unfold olderCopy at h
  rw [h0, h1] at h
  by_cases hlt : u.order < v.order
  · exact Nat.le_of_lt hlt
  · dsimp only at h
    rw [if_neg hlt] at h
    cases h

theorem le_of_olderCopy_one {c : ScanCore} {u v : RetainedSet} (h : olderCopy c = 1) (h0 : c.copies[0] = some u)
    (h1 : c.copies[1] = some v) : v.order ≤ u.order := by
  unfold olderCopy at h
  rw [h0, h1] at h
  by_cases hlt : u.order < v.order
  · dsimp only at h
    rw [if_pos hlt] at h
    cases h
  · exact Nat.not_lt.mp hlt

theorem olderCopy_le {c : ScanCore} {d : Fin 2} {a b : RetainedSet} (hd : olderCopy c = d) (ha : c.copies[d] = some a)
    (hb : c.copies[1 - d] = some b) : a.order ≤ b.order :=
  match d, hd, ha, hb with
  | 0, hd, ha, hb => le_of_olderCopy_zero hd ha hb
  | 1, hd, ha, hb => le_of_olderCopy_one hd hb ha

theorem nextSet_congr (p : ScanProgram) (hregs : t.regs = s.regs) (hcore : t.scan.cores[k] = s.scan.cores[k]) : nextSet t k p = nextSet s k p := by
  unfold nextSet
  rw [hcore, rd_of_regs hregs]

/-- What the commit of one core leaves. -/
theorem commitRetained_same (k : Fin 2) (s : State) : (commitRetained k s).regs = s.regs ∧ (commitRetained k s).log = s.log ∧
    (commitRetained k s).tai = s.tai ∧ (commitRetained k s).scan.lastCommit = s.scan.lastCommit ∧
    ∀ j, j ≠ k → (commitRetained k s).scan.cores[j] = s.scan.cores[j] := by
  cases h : (s.scan.cores[k]).prog with
  | none =>
    rw [commitRetained_none h]
    exact ⟨rfl, rfl, rfl, rfl, fun _ _ => rfl⟩
  | some p =>
    rw [commitRetained_some h]
    exact ⟨rfl, rfl, rfl, rfl, fun j hj => core_setScan_ne hj _ s⟩

/-- A core's retained set committed: where it runs a program, the next set stands in the copy that is not the newer one. -/
def CommittedCore (next : ScanProgram → RetainedSet) (c c' : ScanCore) : Prop := (c.prog = none → c' = c) ∧
  ∀ p, c.prog = some p → c'.queue = [] ∧ ∃ d : Fin 2, c'.copies = c.copies.set d (some (next p)) ∧
    ∀ a b, c.copies[d] = some a → c.copies[1 - d] = some b → a.order ≤ b.order

theorem committed_commitRetained (k : Fin 2) (s : State) :
    CommittedCore (nextSet s k) s.scan.cores[k] (commitRetained k s).scan.cores[k] := by
  constructor
  · intro h
    rw [commitRetained_none h]
  · intro p h
    rw [commitRetained_some h, core_setScan]
    exact ⟨rfl, olderCopy s.scan.cores[k], rfl, fun a b => olderCopy_le rfl⟩

theorem CommittedCore.congr (h : CommittedCore (nextSet x k) x.scan.cores[k] y.scan.cores[k]) (hregs : x.regs = s.regs)
    (hcore : x.scan.cores[k] = s.scan.cores[k]) (ht : t.scan.cores[k] = y.scan.cores[k]) :
    CommittedCore (nextSet s k) s.scan.cores[k] t.scan.cores[k] := by
  have hnext : nextSet x k = nextSet s k := funext fun p => nextSet_congr p hregs hcore
  rw [hnext, hcore, ← ht] at h
  exact h

/-- The commit noted. -/
def commitNoted (n : Nat) (s : State) : State := { s with scan := { s.scan with lastCommit := some n } }

/-- The commit instant reached and noted. -/
def commitReached (s : State) : State := commitNoted (nextCommit s) (reachNs s (BitVec.ofNat 64 (nextCommit s * 10000000)))

/-- RETAIN sent by the ACTIVE. -/
def retainSent (s : State) : State := whenS (dpxOn s && holdsActive s) (fun s => sendGuy 4 (retainPayload s) s) s

theorem exec_retainCommit (s : State) : exec .retainCommit s = .next (retainSent (commitBoth (commitReached s))) := rfl

theorem commitNoted_fields (n : Nat) (s : State) : (commitNoted n s).regs = s.regs ∧ (commitNoted n s).log = s.log ∧
    (commitNoted n s).scan.cores = s.scan.cores ∧ (commitNoted n s).scan.lastCommit = some n ∧ (commitNoted n s).tai = s.tai :=
  ⟨rfl, rfl, rfl, rfl, rfl⟩

theorem reachNs_scan (s : State) (i : BitVec 64) : (reachNs s i).scan = s.scan ∧ (reachNs s i).regs = s.regs ∧ (reachNs s i).log = s.log :=
  ⟨rfl, rfl, rfl⟩

theorem commitReached_fields (s : State) : (commitReached s).regs = s.regs ∧ (commitReached s).log = s.log ∧
    (commitReached s).scan.cores = s.scan.cores ∧ (commitReached s).scan.lastCommit = some (nextCommit s) ∧
    (commitReached s).tai = (reachNs s (BitVec.ofNat 64 (nextCommit s * 10000000))).tai := by
  unfold commitReached
  obtain ⟨hscan, hregs, hlog⟩ := reachNs_scan s (BitVec.ofNat 64 (nextCommit s * 10000000))
  generalize reachNs s (BitVec.ofNat 64 (nextCommit s * 10000000)) = x at hscan hregs hlog
  obtain ⟨h1, h2, h3, h4, h5⟩ := commitNoted_fields (nextCommit s) x
  exact ⟨h1.trans hregs, h2.trans hlog, h3.trans (by rw [hscan]), h4, h5⟩

theorem retainSent_ev (s : State) : Ev ⟨[.dpx], [], false⟩ s (retainSent s) := by
  unfold retainSent
  cases dpxOn s && holdsActive s
  · exact Ev.refl _ s
  · exact sendGuy_ev (foot_self _) (Ev.refl _ s)

theorem retainCommit_clause (s : State) (hfit : nextCommit s * 10000000 + 1 < 2 ^ 64) : ∃ t, exec .retainCommit s = .next t ∧ OnlyRegs [] s t ∧
    t.log = s.log ∧ t.scan.lastCommit = some (nextCommit s) ∧ nextCommit s * 10000000 ≤ nowNat t ∧ ∀ k : Fin 2, CommittedCore (nextSet s k) s.scan.cores[k] t.scan.cores[k] := by
  refine ⟨_, exec_retainCommit s, ?_⟩
  have hle := le_nowNat_ofNat hfit s
  obtain ⟨hregs, hlog, hcores, hlast, htai⟩ := commitReached_fields s
  have hcore : ∀ k : Fin 2, (commitReached s).scan.cores[k] = s.scan.cores[k] := fun k => by rw [hcores]
  generalize commitReached s = x at hregs hlog hcore hlast htai
  unfold commitBoth
  have ha := commitRetained_same 0 x
  have hb := commitRetained_same 1 (commitRetained 0 x)
  obtain ⟨ar, al, at', alast, acore⟩ := ha
  obtain ⟨br, bl, bt, blast, bcore⟩ := hb
  have hev := retainSent_ev (commitRetained 1 (commitRetained 0 x))
  have h0 : (retainSent (commitRetained 1 (commitRetained 0 x))).scan.cores[(0 : Fin 2)] = (commitRetained 0 x).scan.cores[(0 : Fin 2)] := by
    rw [show (retainSent _).scan = _ from keeps_of_ev (p := .scan) hev rfl, bcore 0 (by decide)]
  have h1 : (retainSent (commitRetained 1 (commitRetained 0 x))).scan.cores[(1 : Fin 2)] =
      (commitRetained 1 (commitRetained 0 x)).scan.cores[(1 : Fin 2)] := by
    rw [show (retainSent _).scan = _ from keeps_of_ev (p := .scan) hev rfl]
  have hscan : (retainSent (commitRetained 1 (commitRetained 0 x))).scan = _ := keeps_of_ev (p := .scan) hev rfl
  have hlog' : (retainSent (commitRetained 1 (commitRetained 0 x))).log = _ := keeps_of_ev (p := .log) hev rfl
  have htai' : (retainSent (commitRetained 1 (commitRetained 0 x))).tai = _ := keeps_of_ev (p := .tai) hev rfl
  refine ⟨fun a _ => ?_, hlog'.trans (bl.trans (al.trans hlog)), ?_, ?_, fun k => ?_⟩
  · exact (hev.keeps.regs rfl a fun b _ => List.not_mem_nil).trans ((rd_of_regs br a).trans ((rd_of_regs ar a).trans (rd_of_regs hregs a)))
  · rw [hscan, blast, alast, hlast]
  · rw [nowNat_of_tai (htai'.trans (bt.trans (at'.trans htai)))]
    exact hle
  · match k with
    | 0 => exact (committed_commitRetained 0 x).congr hregs (hcore 0) h0
    | 1 => exact (committed_commitRetained 1 (commitRetained 0 x)).congr (ar.trans hregs) ((acore 1 (by decide)).trans (hcore 1)) h1

/-! ### The swap of a program (R332) -/

/-- The program, its exchange and what the core's registers show of them are as before, and so is the counter of time. -/
structure ProgKept (k : Fin 2) (s t : State) : Prop where
  prog : (t.scan.cores[k]).prog = (s.scan.cores[k]).prog
  exchange : (t.scan.cores[k]).exchange = (s.scan.cores[k]).exchange
  id : rd t (Reg.SCAN_PROG_ID k) = rd s (Reg.SCAN_PROG_ID k)
  xchg : rd t (Reg.SCAN_XCHG k) = rd s (Reg.SCAN_XCHG k)
  state : rd t (Reg.SCAN_STATE k) = rd s (Reg.SCAN_STATE k)
  tai : t.tai = s.tai

theorem ProgKept.refl (k : Fin 2) (s : State) : ProgKept k s s := ⟨rfl, rfl, rfl, rfl, rfl, rfl⟩

theorem ProgKept.trans (h : ProgKept k s x) (h' : ProgKept k x t) : ProgKept k s t :=
  ⟨h'.prog.trans h.prog, h'.exchange.trans h.exchange, h'.id.trans h.id, h'.xchg.trans h.xchg, h'.state.trans h.state, h'.tai.trans h.tai⟩

theorem progKept_of_ev {f : Foot} (h : Ev f s t) (hscan : f.parts.contains .scan = false) (htai : f.parts.contains .tai = false)
    (hany : f.anyReg = false) (hb : f.blocks.contains .scan = false) : ProgKept k s t := by
  have hrd : ∀ a, blockAt a = some .scan → rd t a = rd s a := fun a ha => rd_of_ev h hany ha hb
  have hsc : t.scan = s.scan := keeps_of_ev (p := .scan) h hscan
  exact ⟨by rw [hsc], by rw [hsc], hrd _ ((by decide : ∀ k : Fin 2, blockAt (Reg.SCAN_PROG_ID k) = some .scan) k),
    hrd _ ((by decide : ∀ k : Fin 2, blockAt (Reg.SCAN_XCHG k) = some .scan) k),
    hrd _ ((by decide : ∀ k : Fin 2, blockAt (Reg.SCAN_STATE k) = some .scan) k), keeps_of_ev (p := .tai) h htai⟩

theorem progKept_logEvent (c q : Nat) (e : Word) (s : State) : ProgKept k s (logEvent c q e s) :=
  progKept_of_ev (f := ⟨[.log], [.cmd], false⟩) (ev_logEvent (by decide) (by decide) (Ev.refl _ s)) rfl rfl rfl rfl

theorem progKept_setScan {c : ScanCore} (hp : c.prog = (s.scan.cores[k]).prog) (he : c.exchange = (s.scan.cores[k]).exchange) :
    ProgKept k s (setScan k c s) := ⟨by rw [core_setScan, hp], by rw [core_setScan, he], rfl, rfl, rfl, rfl⟩

theorem progKept_setTask (i : Fin 8) (z : ScanTask) (s : State) : ProgKept k s (setTask k i z s) := progKept_setScan rfl rfl

theorem progKept_setF {a : Nat} (G : Fld) (v : Nat) (h : a ≠ Reg.SCAN_PROG_ID k) (h' : a ≠ Reg.SCAN_XCHG k) (h'' : a ≠ Reg.SCAN_STATE k) :
    ProgKept k s (setF s a G v) :=
  ⟨rfl, rfl, rd_setF_ne _ _ _ h.symm, rd_setF_ne _ _ _ h'.symm, rd_setF_ne _ _ _ h''.symm, rfl⟩

theorem progKept_heldMade (h : HeldMade k s t) : ProgKept k s t := by
  obtain ⟨o, b, v, hr⟩ := h.rest
  exact ⟨by rw [hr], by rw [hr], rd_of_regs h.regs _, rd_of_regs h.regs _, rd_of_regs h.regs _, h.tai⟩

theorem progKept_showForces (s : State) : ProgKept k s (showForces s) := by
  unfold showForces
  refine (progKept_setF _ _ ?_ ?_ ?_).trans (progKept_setF _ _ ?_ ?_ ?_)
  all_goals simp only [Reg.SCAN_FORCE_STATUS, Reg.SCAN_PROG_ID, Reg.SCAN_XCHG, Reg.SCAN_STATE]; omega

theorem progKept_forces (l : List Force) (s : State) : ProgKept k s { s with scan := { s.scan with forces := l } } :=
  ⟨rfl, rfl, rfl, rfl, rfl, rfl⟩

theorem progKept_dropForces (p : ScanProgram) (s : State) : ProgKept k s (dropForces k p s) := by
  unfold dropForces
  dsimp only
  refine .trans ?_ (progKept_showForces _)
  exact forEach_keeps (P := ProgKept k s) (fun f _ _ h => h.trans (progKept_logEvent _ _ _ _)) (progKept_forces _ s)

/-- The tasks' periods and ranks shown. -/
def periodsShown (k : Fin 2) (p : ScanProgram) (s : State) : State :=
  forEach (List.finRange 8) (fun (t : Fin 8) s => setF (setF s (Reg.SCAN_TASK_CFG k t) F.SCAN_TASK_CFG_period p.periods[t])
    (Reg.SCAN_TASK_CFG k t) F.SCAN_TASK_CFG_rank (rankOf p t)) s

/-- The figures of a program shown. -/
def infoShown (k : Fin 2) (p : ScanProgram) (s : State) : State :=
  setF (setF (setF s (Reg.SCAN_PROG_INFO k) F.SCAN_PROG_INFO_hyper (hyperOf p)) (Reg.SCAN_PROG_INFO k) F.SCAN_PROG_INFO_retained p.retainedKiB)
    (Reg.SCAN_PROG_INFO k) F.SCAN_PROG_INFO_tasks ((codesOf p).filter (· != 0)).length

theorem showProgram_eq (k : Fin 2) (p : ScanProgram) (s : State) : showProgram k p s =
    periodsShown k p (infoShown k p (wr s (Reg.SCAN_PROG_ID k) p.buildId)) := rfl

theorem progKept_periodsShown (p : ScanProgram) (s : State) : ProgKept k s (periodsShown k p s) := by
  unfold periodsShown
  refine forEach_keeps (P := ProgKept k s) (fun i _ y h => h.trans (.trans (progKept_setF _ _ ?_ ?_ ?_) (progKept_setF _ _ ?_ ?_ ?_))) (.refl k s)
  all_goals simp only [Reg.SCAN_TASK_CFG, Reg.SCAN_PROG_ID, Reg.SCAN_XCHG, Reg.SCAN_STATE]; omega

theorem progKept_infoShown (p : ScanProgram) (s : State) : ProgKept k s (infoShown k p s) := by
  unfold infoShown
  refine .trans (.trans (progKept_setF _ _ ?_ ?_ ?_) (progKept_setF _ _ ?_ ?_ ?_)) (progKept_setF _ _ ?_ ?_ ?_)
  all_goals simp only [Reg.SCAN_PROG_INFO, Reg.SCAN_PROG_ID, Reg.SCAN_XCHG, Reg.SCAN_STATE]; omega

/-- The releases that waited for the swap. -/
def waitingReleased (k : Fin 2) (s : State) : State :=
  forEach (List.finRange 8) (fun (t : Fin 8) s =>
    let y := (s.scan.cores[k]).tasks[t]
    if y.afterSwap then
      if periodOf s k t = 0 then setTask k t { y with afterSwap := false } s
      else releaseCycle k t (y.lastRel.getD 0) s
    else s) s

theorem progKept_waitingReleased (s : State) : ProgKept k s (waitingReleased k s) := by
  unfold waitingReleased
  refine forEach_keeps (P := ProgKept k s) (fun i _ y h => h.trans ?_) (.refl k s)
  dsimp only
  split
  · split
    · exact progKept_setTask _ _ _
    · exact progKept_setTask _ _ _
  · exact .refl k y

/-- The banks of the new program live, no exchange pending. -/
def banksSwapped (k : Fin 2) (s : State) : State :=
  let a := Reg.SCAN_STATE k
  let s := setF s a F.SCAN_STATE_xchg_pending 0
  let s := setF s a F.SCAN_STATE_code_live (1 - fld s a F.SCAN_STATE_code_live)
  setF s a F.SCAN_STATE_data_live (1 - fld s a F.SCAN_STATE_data_live)

theorem swapCore_some {e : Exchange} (h : (s.scan.cores[k]).exchange = some e) : swapCore k s =
    waitingReleased k (logEvent 0x8011 k e.prog.buildId (showProgram k e.prog (banksSwapped k
      (setF (dropForces k e.prog (setScan k (transferVars e.prog s.scan.cores[k]) s)) (Reg.SCAN_XCHG k) F.SCAN_XCHG_state 0)))) := by
  unfold swapCore
  split
  · next h' =>
    rw [h] at h'
    cases h'
  · next q hq =>
    obtain rfl : q = e := Option.some.inj (hq.symm.trans h)
    rfl

theorem flg_toggle (s : State) (a : Nat) {G : Fld} (hG : G.lo + G.w ≤ 32) (hw : G.w = 1) :
    flg (setF s a G (1 - fld s a G)) a G = !flg s a G := by
  rw [flg_setF _ _ _ _ hG, flg, hw]
  have h := fld_lt s a G
  rw [hw] at h
  obtain h0 | h1 : fld s a G = 0 ∨ fld s a G = 1 := by omega
  · rw [h0]; rfl
  · rw [h1]; rfl

theorem banksSwapped_effect (k : Fin 2) (s : State) :
    flg (banksSwapped k s) (Reg.SCAN_STATE k) F.SCAN_STATE_code_live = !flg s (Reg.SCAN_STATE k) F.SCAN_STATE_code_live ∧
    flg (banksSwapped k s) (Reg.SCAN_STATE k) F.SCAN_STATE_data_live = !flg s (Reg.SCAN_STATE k) F.SCAN_STATE_data_live ∧
    (∀ a, a ≠ Reg.SCAN_STATE k → rd (banksSwapped k s) a = rd s a) := by
  unfold banksSwapped
  dsimp only
  refine ⟨?_, ?_, fun a ha => ?_⟩
  · rw [flg_setF_disj _ _ _ _ _ (by decide), flg_toggle _ _ (by decide) rfl, flg_setF_disj _ _ _ _ _ (by decide)]
  · rw [flg_toggle _ _ (by decide) rfl, flg_setF_disj _ _ _ _ _ (by decide), flg_setF_disj _ _ _ _ _ (by decide)]
  · rw [rd_setF_ne _ _ _ ha, rd_setF_ne _ _ _ ha, rd_setF_ne _ _ _ ha]

/-- A program swapped in: it runs on the other banks, and no exchange is pending. -/
structure Swapped (k : Fin 2) (p : ScanProgram) (s t : State) : Prop where
  prog : (t.scan.cores[k]).prog = some p
  exchange : (t.scan.cores[k]).exchange = none
  id : rd t (Reg.SCAN_PROG_ID k) = p.buildId
  xchg : fld t (Reg.SCAN_XCHG k) F.SCAN_XCHG_state = 0
  code : flg t (Reg.SCAN_STATE k) F.SCAN_STATE_code_live = !flg s (Reg.SCAN_STATE k) F.SCAN_STATE_code_live
  data : flg t (Reg.SCAN_STATE k) F.SCAN_STATE_data_live = !flg s (Reg.SCAN_STATE k) F.SCAN_STATE_data_live
  tai : t.tai = s.tai

theorem Swapped.after {p : ScanProgram} (h : Swapped k p s x) (h' : ProgKept k x t) : Swapped k p s t :=
  ⟨h'.prog.trans h.prog, h'.exchange.trans h.exchange, h'.id.trans h.id, (fld_of_rd h'.xchg _).trans h.xchg,
    (flg_of_rd h'.state _).trans h.code, (flg_of_rd h'.state _).trans h.data, h'.tai.trans h.tai⟩

theorem progKept_showProgram (p : ScanProgram) (s : State) : ProgKept k (wr s (Reg.SCAN_PROG_ID k) p.buildId) (showProgram k p s) := by
  rw [showProgram_eq]
  exact (progKept_infoShown _ _).trans (progKept_periodsShown _ _)

theorem progKept_swapTold (b : Word) (s : State) : ProgKept k s (waitingReleased k (logEvent 0x8011 k b s)) :=
  (progKept_logEvent _ _ _ _).trans (progKept_waitingReleased _)

/-- The banks of a core swapped and its program shown. -/
theorem swapped_shown {p : ScanProgram} {b : State} (hprog : (b.scan.cores[k]).prog = some p) (hex : (b.scan.cores[k]).exchange = none)
    (hstate : rd b (Reg.SCAN_STATE k) = rd s (Reg.SCAN_STATE k)) (htai : b.tai = s.tai) :
    Swapped k p s (showProgram k p (banksSwapped k (setF b (Reg.SCAN_XCHG k) F.SCAN_XCHG_state 0))) := by
  have hne : Reg.SCAN_STATE k ≠ Reg.SCAN_XCHG k := by simp only [Reg.SCAN_STATE, Reg.SCAN_XCHG]; omega
  have hs1 : Reg.SCAN_STATE k ≠ Reg.SCAN_PROG_ID k := by simp only [Reg.SCAN_STATE, Reg.SCAN_PROG_ID]; omega
  have hs2 : Reg.SCAN_XCHG k ≠ Reg.SCAN_PROG_ID k := by simp only [Reg.SCAN_XCHG, Reg.SCAN_PROG_ID]; omega
  have hx : fld (setF b (Reg.SCAN_XCHG k) F.SCAN_XCHG_state 0) (Reg.SCAN_XCHG k) F.SCAN_XCHG_state = 0 := fld_setF b _ _ _ (by decide)
  have hst : rd (setF b (Reg.SCAN_XCHG k) F.SCAN_XCHG_state 0) (Reg.SCAN_STATE k) = rd s (Reg.SCAN_STATE k) :=
    (rd_setF_ne _ _ _ hne).trans hstate
  have hc : (setF b (Reg.SCAN_XCHG k) F.SCAN_XCHG_state 0).scan = b.scan ∧ (setF b (Reg.SCAN_XCHG k) F.SCAN_XCHG_state 0).tai = b.tai := ⟨rfl, rfl⟩
  generalize setF b (Reg.SCAN_XCHG k) F.SCAN_XCHG_state 0 = c at hx hst hc ⊢
  obtain ⟨h1, h2, h3⟩ := banksSwapped_effect k c
  have hu : (banksSwapped k c).scan = c.scan ∧ (banksSwapped k c).tai = c.tai := ⟨rfl, rfl⟩
  have hxu : rd (banksSwapped k c) (Reg.SCAN_XCHG k) = rd c (Reg.SCAN_XCHG k) := h3 _ hne.symm
  generalize banksSwapped k c = u at h1 h2 hu hxu ⊢
  have hw : (wr u (Reg.SCAN_PROG_ID k) p.buildId).scan = u.scan ∧ (wr u (Reg.SCAN_PROG_ID k) p.buildId).tai = u.tai := ⟨rfl, rfl⟩
  have hscan : (wr u (Reg.SCAN_PROG_ID k) p.buildId).scan = b.scan := hw.1.trans (hu.1.trans hc.1)
  refine Swapped.after (x := wr u (Reg.SCAN_PROG_ID k) p.buildId) ⟨?_, ?_, rd_wr .., ?_, ?_, ?_, hw.2.trans (hu.2.trans (hc.2.trans htai))⟩
    (progKept_showProgram p u)
  · rw [hscan, hprog]
  · rw [hscan, hex]
  · rw [fld_of_rd (rd_wr_ne _ _ hs2), fld_of_rd hxu, hx]
  · rw [flg_of_rd (rd_wr_ne _ _ hs1), h1, flg_of_rd hst]
  · rw [flg_of_rd (rd_wr_ne _ _ hs1), h2, flg_of_rd hst]

theorem transferVars_prog (p : ScanProgram) (c : ScanCore) : (transferVars p c).prog = some p ∧ (transferVars p c).exchange = none := ⟨rfl, rfl⟩

theorem swapCore_swapped {e : Exchange} (h : (s.scan.cores[k]).exchange = some e) : Swapped k e.prog s (swapCore k s) := by
  rw [swapCore_some h]
  refine Swapped.after ?_ (progKept_swapTold _ _)
  have hcore := core_setScan k (transferVars e.prog s.scan.cores[k]) s
  have hkept : rd (setScan k (transferVars e.prog s.scan.cores[k]) s) (Reg.SCAN_STATE k) = rd s (Reg.SCAN_STATE k) ∧
      (setScan k (transferVars e.prog s.scan.cores[k]) s).tai = s.tai := ⟨rfl, rfl⟩
  obtain ⟨hp, hx⟩ := transferVars_prog e.prog s.scan.cores[k]
  rw [← hcore] at hp hx
  generalize setScan k (transferVars e.prog s.scan.cores[k]) s = a at hp hx hkept ⊢
  have hd := progKept_dropForces (k := k) e.prog a
  exact swapped_shown (hd.prog.trans hp) (hd.exchange.trans hx) (hd.state.trans hkept.1) (hd.tai.trans hkept.2)

/-! ### The swap point (R331) -/

theorem reachSwap_due (h : fld s (Reg.SCAN_XCHG k) F.SCAN_XCHG_state = 1) : reachSwap k s =
    settleSwap k (setF (forEach (List.finRange 8) (makeHeld k) (reachNs s (rd64 s (Reg.SCAN_SWAP_TIME k)))) (Reg.SCAN_XCHG k) F.SCAN_XCHG_state 2) :=
  if_pos h

theorem settleSwap_due (h : transferring s k = true) (hb : anyBusy s.scan.cores[k] = false) : settleSwap k s = swapCore k s :=
  if_pos ⟨h, by rw [hb]; rfl⟩

theorem reachSwap_swapped {e : Exchange} (hex : (s.scan.cores[k]).exchange = some e) (h : fld s (Reg.SCAN_XCHG k) F.SCAN_XCHG_state = 1)
    (hidle : ∀ j : Fin 8, (s.scan.cores[k]).tasks[j].busy = false) (hfit : (rd64 s (Reg.SCAN_SWAP_TIME k)).toNat + 1 < 2 ^ 64) :
    ∃ r : State, Swapped k e.prog r (reachSwap k s) ∧ rd r (Reg.SCAN_STATE k) = rd s (Reg.SCAN_STATE k) ∧
      (rd64 s (Reg.SCAN_SWAP_TIME k)).toNat ≤ nowNat r := by
  rw [reachSwap_due h]
  have hle := le_nowNat_reachNs hfit s
  have hr : (reachNs s (rd64 s (Reg.SCAN_SWAP_TIME k))).scan = s.scan ∧ (reachNs s (rd64 s (Reg.SCAN_SWAP_TIME k))).regs = s.regs := ⟨rfl, rfl⟩
  obtain ⟨hscan, hregs⟩ := hr
  generalize reachNs s (rd64 s (Reg.SCAN_SWAP_TIME k)) = r at hle hscan hregs
  have hh := heldMade_forEach k (List.finRange 8) r
  generalize forEach (List.finRange 8) (makeHeld k) r = y at hh
  have hne : Reg.SCAN_STATE k ≠ Reg.SCAN_XCHG k := by simp only [Reg.SCAN_STATE, Reg.SCAN_XCHG]; omega
  have htr : transferring (setF y (Reg.SCAN_XCHG k) F.SCAN_XCHG_state 2) k = true := by
    unfold transferring
    rw [fld_setF _ _ _ _ (by decide)]
    rfl
  have hst : rd (setF y (Reg.SCAN_XCHG k) F.SCAN_XCHG_state 2) (Reg.SCAN_STATE k) = rd s (Reg.SCAN_STATE k) :=
    (rd_setF_ne _ _ _ hne).trans ((rd_of_regs hh.regs _).trans (rd_of_regs hregs _))
  have hc : (setF y (Reg.SCAN_XCHG k) F.SCAN_XCHG_state 2).scan.cores[k] = y.scan.cores[k] ∧
      (setF y (Reg.SCAN_XCHG k) F.SCAN_XCHG_state 2).tai = y.tai := ⟨rfl, rfl⟩
  obtain ⟨hc, htai⟩ := hc
  generalize setF y (Reg.SCAN_XCHG k) F.SCAN_XCHG_state 2 = z at htr hst hc htai
  have hb : anyBusy z.scan.cores[k] = false := by
    rw [Bool.eq_false_iff, ne_eq, anyBusy_iff]
    rintro ⟨j, hj⟩
    obtain ⟨l, hl⟩ := hh.tasks j
    rw [hc, hl, hscan] at hj
    exact Bool.false_ne_true ((hidle j).symm.trans hj)
  have hez : (z.scan.cores[k]).exchange = some e := by
    rw [hc, (progKept_heldMade hh).exchange, hscan]
    exact hex
  rw [settleSwap_due htr hb]
  refine ⟨z, swapCore_swapped hez, hst, ?_⟩
  rw [nowNat_of_tai (htai.trans hh.tai)]
  exact hle

theorem progSwap_none (k : Fin 2) (s : State) (hex : (s.scan.cores[k]).exchange = none) (h : fld s (Reg.SCAN_XCHG k) F.SCAN_XCHG_state ≠ 1) :
    exec (.progSwap k) s = .next s := by
  refine Eq.trans (b := .next (scanSwaps k s)) rfl (congrArg _ ?_)
  unfold scanSwaps
  rw [hex]
  exact if_neg h

/-- The commit point of an activation of scan programs alone, at the swap. -/
def swapCommitted (n : Fin 16) (s : State) : State := whenS (kindState s 1 == .normal) (commitMask n) s

/-- TRIAL, once every core has swapped. -/
def swapTried (n : Fin 16) (s : State) : State := if (pairedSwap s n).isNone then trialMask n s else s

theorem scanSwaps_some {e : Exchange} (h : (s.scan.cores[k]).exchange = some e) : scanSwaps k s =
    match e.opSlot with
    | none => reachSwap k s
    | some n => if (opMask s n).testBit 0 then reachSwap k s else swapTried n (reachSwap k (swapCommitted n s)) := by
  unfold scanSwaps
  rw [h]
  rfl

theorem swapCommitted_ev (n : Fin 16) (s : State) : Ev ⟨[.log, .cmd, .upd], [.cmd, .upd], false⟩ s (swapCommitted n s) := by
  unfold swapCommitted
  cases kindState s 1 == .normal
  · exact Ev.refl _ s
  · exact commitMask_ev (foot_self _) (Ev.refl _ s)

theorem swapTried_ev (n : Fin 16) (s : State) : Ev ⟨[.log, .cmd, .upd], [.cmd, .upd], false⟩ s (swapTried n s) := by
  unfold swapTried
  split
  · exact trialMask_ev (foot_self _) (Ev.refl _ s)
  · exact Ev.refl _ s

theorem progSwap_clause (k : Fin 2) (e : Exchange) (s : State) (hex : (s.scan.cores[k]).exchange = some e)
    (h : fld s (Reg.SCAN_XCHG k) F.SCAN_XCHG_state = 1) (hidle : ∀ j : Fin 8, (s.scan.cores[k]).tasks[j].busy = false)
    (hfit : (rd64 s (Reg.SCAN_SWAP_TIME k)).toNat + 1 < 2 ^ 64) : ∃ t, exec (.progSwap k) s = .next t ∧ (t.scan.cores[k]).prog = some e.prog ∧
      (t.scan.cores[k]).exchange = none ∧
      rd t (Reg.SCAN_PROG_ID k) = e.prog.buildId ∧ fld t (Reg.SCAN_XCHG k) F.SCAN_XCHG_state = 0 ∧
      (rd64 s (Reg.SCAN_SWAP_TIME k)).toNat ≤ nowNat t ∧
      flg t (Reg.SCAN_STATE k) F.SCAN_STATE_code_live = !flg s (Reg.SCAN_STATE k) F.SCAN_STATE_code_live ∧
      flg t (Reg.SCAN_STATE k) F.SCAN_STATE_data_live = !flg s (Reg.SCAN_STATE k) F.SCAN_STATE_data_live := by
  have hexec : exec (.progSwap k) s = .next (scanSwaps k s) := rfl
  have hfinal : ∃ r, Swapped k e.prog r (scanSwaps k s) ∧ rd r (Reg.SCAN_STATE k) = rd s (Reg.SCAN_STATE k) ∧
      (rd64 s (Reg.SCAN_SWAP_TIME k)).toNat ≤ nowNat r := by
    rw [scanSwaps_some hex]
    cases e.opSlot with
    | none => exact reachSwap_swapped hex h hidle hfit
    | some n =>
      dsimp only
      split
      · exact reachSwap_swapped hex h hidle hfit
      · have hev := swapCommitted_ev n s
        generalize swapCommitted n s = x at hev
        have hscan : x.scan = s.scan := keeps_of_ev (p := .scan) hev rfl
        have hrd : ∀ a, blockAt a = some .scan → rd x a = rd s a := fun a ha => rd_of_ev hev rfl ha rfl
        have hx := hrd _ ((by decide : ∀ k : Fin 2, blockAt (Reg.SCAN_XCHG k) = some .scan) k)
        have hst := hrd _ ((by decide : ∀ k : Fin 2, blockAt (Reg.SCAN_STATE k) = some .scan) k)
        have htime : rd64 x (Reg.SCAN_SWAP_TIME k) = rd64 s (Reg.SCAN_SWAP_TIME k) :=
          rd64_of_rd (hrd _ ((by decide : ∀ k : Fin 2, blockAt (Reg.SCAN_SWAP_TIME k) = some .scan) k))
            (hrd _ ((by decide : ∀ k : Fin 2, blockAt (Reg.SCAN_SWAP_TIME k + 4) = some .scan) k))
        obtain ⟨r, hr, hr1, hr2⟩ := reachSwap_swapped (s := x) (by rw [hscan]; exact hex) ((fld_of_rd hx _).trans h)
          (by rw [hscan]; exact hidle) (by rw [htime]; exact hfit)
        refine ⟨r, hr.after (progKept_of_ev (swapTried_ev n _) rfl rfl rfl rfl), hr1.trans hst, ?_⟩
        rwa [htime] at hr2
  obtain ⟨r, hr, hr1, hr2⟩ := hfinal
  refine ⟨_, hexec, hr.prog, hr.exchange, hr.id, hr.xchg, ?_, ?_, ?_⟩
  · rwa [nowNat_of_tai hr.tai]
  · rw [hr.code, flg_of_rd hr1]
  · rw [hr.data, flg_of_rd hr1]

end Exchanges

end Sys2Proof.Machine
end


section
/-! PROOFS. Remote blocks and publications of the scan cores (R39, R40, R327, R328). -/

namespace Sys2Proof.Machine

open Sys2Proof Sys2Proof.Safety Sys2Proof.Laws

section Publications

variable {k : Fin 2} {s x y t : State}

/-! ### Remote blocks (R327, R328) -/

theorem getLsbD_rd (s : State) (a : Nat) {i : Nat} (hi : i < 32) : (rd s a).getLsbD i = fbit s a ⟨0, 32⟩ i := by
  unfold fbit fld getF
  rw [BitVec.testBit_toNat, BitVec.getLsbD_extractLsb', Nat.zero_add, decide_eq_true hi, Bool.true_and]

theorem getLsbD_bit (b : Fin 32) {i : Nat} (hi : i < 32) : (1#32 <<< b.val).getLsbD i = decide (i = b) := by
  rw [← BitVec.twoPow_eq, BitVec.getLsbD_twoPow]
  simp only [b.isLt, decide_true, Bool.true_and, eq_comm]

theorem getLsbD_setFbit (s : State) (a : Nat) (b : Fin 32) (v : Bool) {i : Nat} (hi : i < 32) :
    (rd (setFbit s a ⟨0, 32⟩ b v) a).getLsbD i = if i = b then v else (rd s a).getLsbD i := by
  rw [getLsbD_rd _ _ hi, getLsbD_rd _ _ hi, fbit_setFbit _ _ _ _ _ _ (by decide) hi]

theorem rd_setFbit_true (s : State) (a : Nat) (b : Fin 32) : rd (setFbit s a ⟨0, 32⟩ b true) a = rd s a ||| (1#32 <<< b.val) := by
  refine BitVec.eq_of_getLsbD_eq fun i hi => ?_
  rw [getLsbD_setFbit s a b true hi, BitVec.getLsbD_or, getLsbD_bit b hi]
  by_cases h : i = b <;> simp [h]

theorem rd_setFbit_false (s : State) (a : Nat) (b : Fin 32) : rd (setFbit s a ⟨0, 32⟩ b false) a = rd s a &&& ~~~(1#32 <<< b.val) := by
  refine BitVec.eq_of_getLsbD_eq fun i hi => ?_
  rw [getLsbD_setFbit s a b false hi, BitVec.getLsbD_and, BitVec.getLsbD_not, getLsbD_bit b hi]
  by_cases h : i = b <;> simp [h, hi]

theorem remote_setRemote (b : Fin 32) (v : RemoteBlock) (s : State) : ((setRemote k b v s).scan.cores[k]).remotes[b] = v := by
  unfold setRemote
  rw [core_setScan]
  simp

/-- A complete set received, before its restoration is logged. -/
def remoteTaken (k : Fin 2) (b : Fin 32) (l : List Word) (s : State) : State :=
  setFbit (setRemote k b { data := l, stamp := now s, valid := true, everSet := true } s) (Reg.SCAN_REMOTE_STALE k) ⟨0, 32⟩ b false

theorem remoteArrived_eq (k : Fin 2) (b : Fin 32) (l : List Word) (s : State) : remoteArrived k b l s =
    whenS (fbit s (Reg.SCAN_REMOTE_STALE k) ⟨0, 32⟩ b) (logN 0x8032 k b) (remoteTaken k b l s) := rfl

theorem remoteTaken_effect (k : Fin 2) (b : Fin 32) (l : List Word) (s : State) :
    ((remoteTaken k b l s).scan.cores[k]).remotes[b] = ⟨l, now s, true, true⟩ ∧
    rd (remoteTaken k b l s) (Reg.SCAN_REMOTE_STALE k) = rd s (Reg.SCAN_REMOTE_STALE k) &&& ~~~(1#32 <<< b.val) ∧
    (remoteTaken k b l s).log = s.log ∧ OnlyRegs [Reg.SCAN_REMOTE_STALE k] s (remoteTaken k b l s) :=
  ⟨remote_setRemote b _ s, rd_setFbit_false _ _ _, rfl, fun a ha => rd_setFbit_ne _ _ _ _ fun h => ha (List.mem_singleton.mpr h)⟩

theorem remoteSet_clause (k : Fin 2) (b : Fin 32) (l : List Word) (s : State) (hroom : Room 1 s) :
    ∃ t, exec (.remoteSet k b l) s = .next t ∧ (t.scan.cores[k]).remotes[b] = ⟨l, now s, true, true⟩ ∧
      rd t (Reg.SCAN_REMOTE_STALE k) = rd s (Reg.SCAN_REMOTE_STALE k) &&& ~~~(1#32 <<< b.val) ∧
      Logged (if (rd s (Reg.SCAN_REMOTE_STALE k)).getLsbD b then [(0x8032, k.val, BitVec.ofNat 32 b)] else []) s t ∧
      OnlyRegs [Reg.SCAN_REMOTE_STALE k] s t := by
  refine ⟨remoteArrived k b l s, rfl, ?_⟩
  rw [remoteArrived_eq, getLsbD_rd _ _ b.isLt]
  obtain ⟨h1, h2, h3, h4⟩ := remoteTaken_effect k b l s
  generalize remoteTaken k b l s = x at h1 h2 h3 h4
  cases fbit s (Reg.SCAN_REMOTE_STALE k) ⟨0, 32⟩ b
  · exact ⟨h1, h2, logged_nil h3, h4⟩
  · rw [whenS_true]
    have hrd := rd_logN_room 0x8032 k b (s := x) rfl (room_of_log h3 hroom)
    refine ⟨?_, (hrd _).trans h2, logged_logN _ _ _ h3 hroom, fun a ha => (hrd a).trans (h4 a ha)⟩
    rw [(same_logN ..).1]
    exact h1

/-- A block's age has exceeded its timeout, where it has one. -/
def ageReached (d : Option Nat) (stamp : BitVec 64) (s : State) : State :=
  match d with
  | none => s
  | some d => reachNs s (BitVec.ofNat 64 (stamp.toNat + d + 1))

/-- A block no longer valid, before it is logged. -/
def remoteOld (k : Fin 2) (b : Fin 32) (v : RemoteBlock) (s : State) : State :=
  setFbit (setRemote k b { v with valid := false } s) (Reg.SCAN_REMOTE_STALE k) ⟨0, 32⟩ b true

theorem exec_remoteStale {b : Fin 32} (h : (s.scan.cores[k]).remotes[b].valid = true) : exec (.remoteStale k b) s =
    .next (logN 0x8031 k b (remoteOld k b (s.scan.cores[k]).remotes[b] (ageReached (blockTimeout s (k, b)) (s.scan.cores[k]).remotes[b].stamp s))) := by
  refine Eq.trans (b := execRemoteStale k b s) rfl ?_
  unfold execRemoteStale
  dsimp only
  rw [if_neg (by rw [h]; exact Bool.false_ne_true)]
  rfl

theorem ageReached_same (d : Option Nat) (stamp : BitVec 64) (s : State) : (ageReached d stamp s).regs = s.regs ∧
    (ageReached d stamp s).log = s.log ∧ (∀ n, d = some n → stamp.toNat + n + 2 < 2 ^ 64 → stamp.toNat + n < nowNat (ageReached d stamp s)) := by
  cases d with
  | none => exact ⟨rfl, rfl, fun _ h => nomatch h⟩
  | some d =>
    refine ⟨rfl, rfl, fun n h hfit => ?_⟩
    cases h
    exact le_nowNat_ofNat (n := stamp.toNat + d + 1) hfit s

theorem remoteOld_effect (b : Fin 32) (v : RemoteBlock) (s : State) : ((remoteOld k b v s).scan.cores[k]).remotes[b] = { v with valid := false } ∧
    rd (remoteOld k b v s) (Reg.SCAN_REMOTE_STALE k) = rd s (Reg.SCAN_REMOTE_STALE k) ||| (1#32 <<< b.val) ∧
    (remoteOld k b v s).log = s.log ∧ (remoteOld k b v s).tai = s.tai ∧ OnlyRegs [Reg.SCAN_REMOTE_STALE k] s (remoteOld k b v s) :=
  ⟨remote_setRemote b _ s, rd_setFbit_true _ _ _, rfl, rfl, fun a ha => rd_setFbit_ne _ _ _ _ fun h => ha (List.mem_singleton.mpr h)⟩

theorem remoteStale_clause (k : Fin 2) (b : Fin 32) (s : State) (hroom : Room 1 s) (h : (s.scan.cores[k]).remotes[b].valid = true) :
    ∃ t, exec (.remoteStale k b) s = .next t ∧
      (t.scan.cores[k]).remotes[b] = { (s.scan.cores[k]).remotes[b] with valid := false } ∧
      rd t (Reg.SCAN_REMOTE_STALE k) = rd s (Reg.SCAN_REMOTE_STALE k) ||| (1#32 <<< b.val) ∧
      (∀ d, blockTimeout s (k, b) = some d → (s.scan.cores[k]).remotes[b].stamp.toNat + d + 2 < 2 ^ 64 →
        (s.scan.cores[k]).remotes[b].stamp.toNat + d < nowNat t) ∧
      Logged [(0x8031, k.val, BitVec.ofNat 32 b)] s t ∧ OnlyRegs [Reg.SCAN_REMOTE_STALE k] s t := by
  refine ⟨_, exec_remoteStale h, ?_⟩
  obtain ⟨hregs, hlog, hage⟩ := ageReached_same (blockTimeout s (k, b)) (s.scan.cores[k]).remotes[b].stamp s
  generalize ageReached (blockTimeout s (k, b)) (s.scan.cores[k]).remotes[b].stamp s = x at hregs hlog hage
  obtain ⟨h1, h2, h3, h4, h5⟩ := remoteOld_effect (k := k) b (s.scan.cores[k]).remotes[b] x
  generalize remoteOld k b (s.scan.cores[k]).remotes[b] x = y at h1 h2 h3 h4 h5
  have hrd := rd_logN_room 0x8031 k b (s := y) rfl (room_of_log (h3.trans hlog) hroom)
  obtain ⟨hscan, -, htai⟩ := same_logN 0x8031 k b y
  refine ⟨by rw [hscan]; exact h1, ?_, fun d hd hfit => ?_, logged_logN _ _ _ (h3.trans hlog) hroom, fun a ha => ?_⟩
  · rw [hrd, h2, rd_of_regs hregs]
  · rw [nowNat_of_tai (htai.trans h4)]
    exact hage d hd hfit
  · rw [hrd, h5 a ha, rd_of_regs hregs]

theorem remoteStale_none {b : Fin 32} (h : (s.scan.cores[k]).remotes[b].valid = false) : exec (.remoteStale k b) s = .next s :=
  Eq.trans (b := execRemoteStale k b s) rfl (if_pos (by rw [h]; rfl))

/-! ### What a publication leaves of the images (R39, R40) -/

/-- The images of a core are as before, and so are the other core and the counter of time. -/
structure ImagesKept (k : Fin 2) (s t : State) : Prop where
  input : (t.scan.cores[k]).input = (s.scan.cores[k]).input
  output : (t.scan.cores[k]).output = (s.scan.cores[k]).output
  other : ∀ j, j ≠ k → t.scan.cores[j] = s.scan.cores[j]
  lastPub : t.scan.lastPub = s.scan.lastPub
  tai : t.tai = s.tai

theorem ImagesKept.refl (k : Fin 2) (s : State) : ImagesKept k s s := ⟨rfl, rfl, fun _ _ => rfl, rfl, rfl⟩

theorem ImagesKept.trans (h : ImagesKept k s x) (h' : ImagesKept k x t) : ImagesKept k s t :=
  ⟨h'.input.trans h.input, h'.output.trans h.output, fun j hj => (h'.other j hj).trans (h.other j hj), h'.lastPub.trans h.lastPub,
    h'.tai.trans h.tai⟩

theorem imagesKept_of_scan (h : t.scan = s.scan) (htai : t.tai = s.tai) : ImagesKept k s t :=
  ⟨by rw [h], by rw [h], fun _ _ => by rw [h], by rw [h], htai⟩

theorem imagesKept_setScan {c : ScanCore} (hi : c.input = (s.scan.cores[k]).input) (ho : c.output = (s.scan.cores[k]).output) :
    ImagesKept k s (setScan k c s) :=
  ⟨by rw [core_setScan, hi], by rw [core_setScan, ho], fun j hj => core_setScan_ne hj c s, rfl, rfl⟩

theorem imagesKept_logN (c q e : Nat) (s : State) : ImagesKept k s (logN c q e s) :=
  imagesKept_of_scan (same_logN c q e s).1 (same_logN c q e s).2.2

theorem imagesKept_setScanMode (n : Nat) (s : State) : ImagesKept k s (setScanMode k n s) :=
  have h : Ev ⟨[.log], [.scan, .cmd], false⟩ s (setScanMode k n s) := setScanMode_ev (foot_self _) (Ev.refl _ s)
  imagesKept_of_scan (keeps_of_ev (p := .scan) h rfl) (keeps_of_ev (p := .tai) h rfl)

theorem imagesKept_restart (warm : Bool) (s : State) : ImagesKept k s (restart k warm s) := by
  rw [restart_eq]
  refine .trans (.trans (imagesKept_setScan (c := restartCore s.scan.cores[k] warm) rfl rfl) ?_) (imagesKept_logN _ _ _ _)
  have h := figuresOnly_cleared k (setF (setF (setScan k (restartCore s.scan.cores[k] warm) s) (Reg.SCAN_STATE k) F.SCAN_STATE_overrun 0)
      (Reg.SCAN_STATE k) F.SCAN_STATE_warm_last (b2n warm))
  exact imagesKept_of_scan h.scan h.tai

theorem imagesKept_enterRun (q : Nat) (s : State) : ImagesKept k s (enterRun k q s) := by
  rw [enterRun_eq]
  refine .trans ?_ (imagesKept_setScanMode _ _)
  exact .trans (imagesKept_of_scan (t := setF s (Reg.SCAN_STATE k) F.SCAN_STATE_trap 0) rfl rfl) (imagesKept_setScan rfl rfl)

theorem imagesKept_entered (q : Nat) (warm : Bool) (s : State) : ImagesKept k s (enterRun k q (restart k warm s)) :=
  (imagesKept_restart warm s).trans (imagesKept_enterRun q _)

theorem autostart_some {p : ScanProgram} (hp : (s.scan.cores[k]).prog = some p) : autostart k s =
    if (s.scan.cores[k]).autoDone ∨ !ready s ∨ heldInStop s then s
    else if !p.autostart ∨ scanMode s k ≠ scanStop then autoConsidered k s
    else autoEntered k (s.scan.cores[k]).warmStart (autoConsidered k s) := by
  unfold autostart
  dsimp only
  split
  · next h =>
    rw [hp] at h
    cases h
  · next q hq =>
    obtain rfl : q = p := Option.some.inj (hq.symm.trans hp)
    rfl

theorem autostart_noProgram (hp : (s.scan.cores[k]).prog = none) : autostart k s = s := by
  unfold autostart
  dsimp only
  split
  · rfl
  · next q hq =>
    rw [hp] at hq
    cases hq

theorem imagesKept_autoEntered (b : Bool) (s : State) : ImagesKept k s (autoEntered k b s) := by
  unfold autoEntered
  split
  · exact imagesKept_entered _ _ _
  · split
    · exact imagesKept_entered _ _ _
    · exact (imagesKept_logN _ _ _ s).trans (imagesKept_entered _ _ _)

theorem imagesKept_autostart (s : State) : ImagesKept k s (autostart k s) := by
  cases hp : (s.scan.cores[k]).prog with
  | none =>
    rw [autostart_noProgram hp]
    exact .refl k s
  | some p =>
    rw [autostart_some hp]
    have hc : ImagesKept k s (autoConsidered k s) := imagesKept_setScan rfl rfl
    split
    · exact .refl k s
    · split
      · exact hc
      · exact hc.trans (imagesKept_autoEntered _ _)

/-! ### A core's images at a publication -/

/-- The input image a core gets. -/
def imageOf (s : State) (k : Fin 2) (routed : List (Word × BitVec 64)) : List (Nat × BitVec 64) :=
  putAll (fun z : ScanSymbol => z.id.toNat) (inputValue s s.scan.cores[k] routed) (symbolsOf s.scan.cores[k]) []

/-- The instant at which it is complete. -/
def imageDone (s : State) : Nat := nowNat s + (Config.freeValue (takeFree s).1).toNat % 3001

theorem publishCore_eq (k : Fin 2) (routed : List (Word × BitVec 64)) (s : State) : publishCore k routed s =
    setScan k { s.scan.cores[k] with
      input := ((s.scan.cores[k]).input.settle (nowNat s)).begin (imageOf s k routed) (now s) (imageDone s)
      edges := (s.scan.cores[k]).edges.map (fun e => { rise := e.rise.publish, fall := e.fall.publish }) } (takeFree s).2 := rfl

theorem takeFree_same (s : State) : (takeFree s).2.scan = s.scan ∧ (takeFree s).2.tai = s.tai := ⟨rfl, rfl⟩

theorem publishCore_effect (k : Fin 2) (routed : List (Word × BitVec 64)) (s : State) :
    (∃ n, ((publishCore k routed s).scan.cores[k]).input.writing = some (⟨imageOf s k routed, now s, n⟩, imageDone s)) ∧
    (∀ j, j ≠ k → (publishCore k routed s).scan.cores[j] = s.scan.cores[j]) ∧ (publishCore k routed s).tai = s.tai ∧
    (publishCore k routed s).scan.lastPub = s.scan.lastPub := by
  rw [publishCore_eq]
  obtain ⟨hscan, htai⟩ := takeFree_same s
  generalize (takeFree s).2 = x at hscan htai
  refine ⟨⟨((s.scan.cores[k]).input.settle (nowNat s)).latest.count + 1, ?_⟩, fun j hj => ?_, htai, ?_⟩
  · rw [core_setScan]
    rfl
  · rw [core_setScan_ne hj, hscan]
  · exact show x.scan.lastPub = _ by rw [hscan]

/-- The output image of a core that does not run. -/
def outputShown (k : Fin 2) (s : State) : State := if scanMode s k = scanRun then s else idleImage k s

/-- The output image taken. -/
def outputTaken (k : Fin 2) (s : State) : State :=
  setScan k { s.scan.cores[k] with
    output := s.scan.cores[k].output.take, frozen := (s.scan.cores[k]).frozen && fld s Reg.DPX_STATUS F.DPX_STATUS_state == 8 } s

theorem publishOne_eq (v : Vector (List (Word × BitVec 64)) 2) (k : Fin 2) (s : State) : publishOne v k s =
    autostart k (outputTaken k (outputShown k (publishCore k v[k] s))) := rfl

theorem outputShown_kept (s : State) : ((outputShown k s).scan.cores[k]).input = (s.scan.cores[k]).input ∧
    (∀ j, j ≠ k → (outputShown k s).scan.cores[j] = s.scan.cores[j]) ∧ (outputShown k s).tai = s.tai ∧
    (outputShown k s).scan.lastPub = s.scan.lastPub := by
  unfold outputShown
  split
  · exact ⟨rfl, fun _ _ => rfl, rfl, rfl⟩
  · unfold idleImage
    dsimp only
    generalize List.map _ _ = l
    refine ⟨?_, fun j hj => core_setScan_ne hj _ s, rfl, rfl⟩
    rw [core_handOver]

theorem outputTaken_effect (s : State) : ((outputTaken k s).scan.cores[k]).input = (s.scan.cores[k]).input ∧
    ((outputTaken k s).scan.cores[k]).output.reading = ((outputTaken k s).scan.cores[k]).output.latest ∧
    (∀ j, j ≠ k → (outputTaken k s).scan.cores[j] = s.scan.cores[j]) ∧ (outputTaken k s).tai = s.tai ∧
    (outputTaken k s).scan.lastPub = s.scan.lastPub := by
  unfold outputTaken
  refine ⟨?_, ?_, fun j hj => core_setScan_ne hj _ s, rfl, rfl⟩
  · rw [core_setScan]
  · rw [core_setScan]
    rfl

/-- A core's images published from a state. -/
structure Published (k : Fin 2) (routed : List (Word × BitVec 64)) (s : State) (c : ScanCore) : Prop where
  input : ∃ n, c.input.writing = some (⟨imageOf s k routed, now s, n⟩, imageDone s)
  output : c.output.reading = c.output.latest

theorem publishOne_published (v : Vector (List (Word × BitVec 64)) 2) (k : Fin 2) (s : State) :
    Published k v[k] s (publishOne v k s).scan.cores[k] ∧ (∀ j, j ≠ k → (publishOne v k s).scan.cores[j] = s.scan.cores[j]) ∧
    (publishOne v k s).tai = s.tai ∧ (publishOne v k s).scan.lastPub = s.scan.lastPub := by
  rw [publishOne_eq]
  obtain ⟨⟨n, a1⟩, a2, a3, a4⟩ := publishCore_effect k v[k] s
  generalize publishCore k v[k] s = x at a1 a2 a3 a4
  obtain ⟨b1, b2, b3, b4⟩ := outputShown_kept (k := k) x
  generalize outputShown k x = y at b1 b2 b3 b4
  obtain ⟨c1, c2, c3, c4, c5⟩ := outputTaken_effect (k := k) y
  generalize outputTaken k y = z at c1 c2 c3 c4 c5
  have hk := imagesKept_autostart (k := k) z
  refine ⟨⟨⟨n, ?_⟩, ?_⟩, fun j hj => ?_, hk.tai.trans (c4.trans (b3.trans a3)), hk.lastPub.trans (c5.trans (b4.trans a4))⟩
  · rw [hk.input, c1, b1, a1]
  · rw [hk.output, c2]
  · rw [hk.other j hj, c3 j hj, b2 j hj, a2 j hj]

/-! ### A publication -/

theorem forEach_two (g : Fin 2 → State → State) (s : State) : forEach (List.finRange 2) g s = g 1 (g 0 s) := rfl

/-- The publication instant reached and noted. -/
def pubNoted (n : Nat) (s : State) : State := { s with scan := { s.scan with lastPub := some n } }

/-- What the fabric takes of the output images. -/
def outputsTaken (s : State) : State :=
  { s with scan := { s.scan with
    doTaken := BitVec.ofNat 16 (doOf s 0 ||| doOf s 1), remoteOut := remoteOf s 0 ++ remoteOf s 1 } }

/-- The publication instant reached. -/
def pubReached (s : State) : State := pubNoted (nextPublication s) (reachNs s (BitVec.ofNat 64 (nextPublication s * 250000)))

theorem publication_eq (v : Vector (List (Word × BitVec 64)) 2) (s : State) : publication v s =
    outputsTaken (publishOne v 1 (publishOne v 0 (pubReached s))) := by
  show outputsTaken (forEach (List.finRange 2) (publishOne v) (pubReached s)) = _
  rw [forEach_two]

theorem pubNoted_fields (n : Nat) (s : State) : (pubNoted n s).regs = s.regs ∧ (pubNoted n s).scan.cores = s.scan.cores ∧
    (pubNoted n s).scan.lastPub = some n ∧ (pubNoted n s).tai = s.tai := ⟨rfl, rfl, rfl, rfl⟩

theorem pubReached_fields (s : State) : (pubReached s).regs = s.regs ∧ (pubReached s).scan.cores = s.scan.cores ∧
    (pubReached s).scan.lastPub = some (nextPublication s) ∧
    (pubReached s).tai = (reachNs s (BitVec.ofNat 64 (nextPublication s * 250000))).tai := by
  unfold pubReached
  obtain ⟨hscan, hregs, -⟩ := reachNs_scan s (BitVec.ofNat 64 (nextPublication s * 250000))
  generalize reachNs s (BitVec.ofNat 64 (nextPublication s * 250000)) = x at hscan hregs
  obtain ⟨h1, h2, h3, h4⟩ := pubNoted_fields (nextPublication s) x
  exact ⟨h1.trans hregs, h2.trans (by rw [hscan]), h3, h4⟩

theorem outputsTaken_fields (s : State) : (outputsTaken s).scan.cores = s.scan.cores ∧ (outputsTaken s).scan.lastPub = s.scan.lastPub ∧
    (outputsTaken s).tai = s.tai ∧ (outputsTaken s).scan.doTaken = BitVec.ofNat 16 (doOf s 0 ||| doOf s 1) := ⟨rfl, rfl, rfl, rfl⟩

theorem doOf_of_cores (h : t.scan.cores = s.scan.cores) (k : Fin 2) : doOf t k = doOf s k := by
  unfold doOf
  rw [h]

theorem now_of_tai (h : t.tai = s.tai) : now t = now s := congrArg (fun q : BitVec 66 => q.extractLsb' 2 64) h

theorem imageDone_bounds (s : State) : nowNat s ≤ imageDone s ∧ imageDone s ≤ nowNat s + 3000 := by
  unfold imageDone
  have := Nat.mod_lt (Config.freeValue (takeFree s).1).toNat (show 0 < 3001 by omega)
  omega

theorem symGet_imageOf {routed : List (Word × BitVec 64)} {z : ScanSymbol} {n : Fin 16} (hz : z ∈ symbolsOf s.scan.cores[k])
    (hu : ∀ w ∈ symbolsOf s.scan.cores[k], w.id = z.id → w = z) (hitem : z.item = .diState n) :
    symGet (imageOf s k routed) z.id.toNat = BitVec.ofNat 64 (b2n (fbit s Reg.FIO_DI_STATE F.FIO_DI_STATE_debounced n)) := by
  have hv : inputValue s s.scan.cores[k] routed z = some (BitVec.ofNat 64 (b2n (fbit s Reg.FIO_DI_STATE F.FIO_DI_STATE_debounced n))) := by
    unfold inputValue
    rw [hitem]
  exact symGet_putAll ⟨z, hz, rfl, hv⟩ (fun w hw he => .inr (by rw [hu w hw (BitVec.eq_of_toNat_eq he), hv])) []

/-- The images of a core after a publication: its input image begun, its output image taken. -/
def ImagesAt (s t : State) (k : Fin 2) : Prop :=
  (t.scan.cores[k]).output.reading = (t.scan.cores[k]).output.latest ∧ ∃ img done, (t.scan.cores[k]).input.writing = some (img, done) ∧
    img.stamp = now t ∧ nowNat t ≤ done ∧ done ≤ nowNat t + 3000 ∧
    ∀ y ∈ symbolsOf (s.scan.cores[k]), (∀ z ∈ symbolsOf (s.scan.cores[k]), z.id = y.id → z = y) → ∀ n, y.item = .diState n →
      symGet img.values y.id.toNat = BitVec.ofNat 64 (b2n (fbit s Reg.FIO_DI_STATE F.FIO_DI_STATE_debounced n))

theorem Published.imagesAt {routed : List (Word × BitVec 64)} (h : Published k routed x t.scan.cores[k]) (htai : t.tai = x.tai)
    (hcore : x.scan.cores[k] = s.scan.cores[k]) (hdi : rd x Reg.FIO_DI_STATE = rd s Reg.FIO_DI_STATE) : ImagesAt s t k := by
  obtain ⟨n, hin⟩ := h.input
  obtain ⟨hle, hge⟩ := imageDone_bounds x
  refine ⟨h.output, _, _, hin, (now_of_tai htai).symm, ?_, ?_, fun z hz hu m hitem => ?_⟩
  · rwa [nowNat_of_tai htai]
  · rwa [nowNat_of_tai htai]
  · rw [← hcore] at hz hu
    rw [← fbit_of_rd hdi]
    exact symGet_imageOf hz hu hitem

theorem publication_effect (v : Vector (List (Word × BitVec 64)) 2) (s : State) (hfit : nextPublication s * 250000 + 1 < 2 ^ 64) :
    (publication v s).scan.lastPub = some (nextPublication s) ∧ nextPublication s * 250000 ≤ nowNat (publication v s) ∧
    (publication v s).scan.doTaken = BitVec.ofNat 16 (doOf (publication v s) 0 ||| doOf (publication v s) 1) ∧
    ∀ k : Fin 2, ImagesAt s (publication v s) k := by
  rw [publication_eq]
  have hle := le_nowNat_ofNat hfit s
  obtain ⟨pregs, pcores, plast, ptai⟩ := pubReached_fields s
  generalize pubReached s = p at pregs pcores plast ptai
  obtain ⟨a1, a2, a3, a4⟩ := publishOne_published v 0 p
  have hev : Ev ⟨[.fresh, .log, .scan], [.scan, .cmd], false⟩ p (publishOne v 0 p) := publishOne_ev (foot_self _) (Ev.refl _ p)
  have hdi : rd (publishOne v 0 p) Reg.FIO_DI_STATE = rd p Reg.FIO_DI_STATE := rd_of_ev (b := .fio) hev rfl (by decide) rfl
  generalize publishOne v 0 p = x at a1 a2 a3 a4 hdi
  obtain ⟨b1, b2, b3, b4⟩ := publishOne_published v 1 x
  generalize publishOne v 1 x = y at b1 b2 b3 b4
  obtain ⟨ocores, olast, otai, odo⟩ := outputsTaken_fields y
  have hdo := fun k => doOf_of_cores (t := outputsTaken y) ocores k
  generalize outputsTaken y = t at ocores olast otai odo hdo
  have ht0 : t.scan.cores[(0 : Fin 2)] = x.scan.cores[(0 : Fin 2)] := by rw [ocores, b2 0 (by decide)]
  have ht1 : t.scan.cores[(1 : Fin 2)] = y.scan.cores[(1 : Fin 2)] := by rw [ocores]
  have hx : t.tai = x.tai := otai.trans b3
  refine ⟨olast.trans (b4.trans (a4.trans plast)), ?_, by rw [odo, hdo, hdo], fun k => ?_⟩
  · rw [nowNat_of_tai (hx.trans (a3.trans ptai))]
    exact hle
  · match k with
    | 0 => exact Published.imagesAt (x := p) (by rw [ht0]; exact a1) (hx.trans a3) (by rw [pcores]) (rd_of_regs pregs _)
    | 1 => exact Published.imagesAt (x := x) (by rw [ht1]; exact b1) hx ((a2 1 (by decide)).trans (by rw [pcores])) (hdi.trans (rd_of_regs pregs _))

theorem ImagesAt.after (h : ImagesAt s x k) (hscan : t.scan = x.scan) (htai : t.tai = x.tai) : ImagesAt s t k := by
  unfold ImagesAt
  rw [hscan, now_of_tai htai, nowNat_of_tai htai]
  exact h

/-- What follows a publication: the stage requests routed from the images, and the recorder's. -/
def requestsRouted (s : State) : State := requestEdge (forEach (List.finRange 2) routedRequests s)

theorem requestsRouted_ev (s : State) : Ev ⟨[.log, .loop, .gfm, .recd], [.gfm, .fio, .cmd], false⟩ s (requestsRouted s) :=
  requestEdge_ev (le_of rfl) (ev_forEach (fun _ _ _ h => routedRequests_ev (le_of rfl) h) (Ev.refl _ s))

theorem inputImagePublication_clause (v w : List (Word × BitVec 64)) (s : State)
    (hfit : nextPublication s * 250000 + 1 < 2 ^ 64) : ∃ t, exec (.inputImagePublication v w) s = .next t ∧
      t.scan.lastPub = some (nextPublication s) ∧ nextPublication s * 250000 ≤ nowNat t ∧
      t.scan.doTaken = BitVec.ofNat 16 (doOf t 0 ||| doOf t 1) ∧ ∀ k : Fin 2, ImagesAt s t k := by
  have hexec : exec (.inputImagePublication v w) s = .next (requestsRouted (publication #v[v, w] s)) := rfl
  refine ⟨_, hexec, ?_⟩
  obtain ⟨h1, h2, h3, h4⟩ := publication_effect #v[v, w] s hfit
  generalize publication #v[v, w] s = x at h1 h2 h3 h4
  have hev := requestsRouted_ev x
  have hscan : (requestsRouted x).scan = x.scan := keeps_of_ev (p := .scan) hev rfl
  have htai : (requestsRouted x).tai = x.tai := keeps_of_ev (p := .tai) hev rfl
  generalize requestsRouted x = t at hscan htai
  refine ⟨by rw [hscan]; exact h1, by rw [nowNat_of_tai htai]; exact h2, ?_, fun k => (h4 k).after hscan htai⟩
  rw [doOf_of_cores (t := t) (s := x) (by rw [hscan]), doOf_of_cores (t := t) (s := x) (by rw [hscan]), hscan]
  exact h3

end Publications

end Sys2Proof.Machine

namespace Sys2Proof.Proofs

open Sys2Proof Sys2Proof.Machine Sys2Proof.Safety Sys2Proof.Laws

/-- Settles O51: each event changes one core's record by a named step, whose other steps (held transfers, modes, the start on its own)
keep the parts the clause speaks of. -/
theorem scanCycles : Obligations.ScanCycles :=
  ⟨taskRelease_clause, cycleStart_clause, cycleComplete_clause, scanTrap_clause, retainCommit_clause, progSwap_none, progSwap_clause,
    fun k b l s hroom => ⟨remoteSet_clause k b l s hroom, remoteStale_clause k b s hroom, remoteStale_none⟩,
    fun v w s hfit => inputImagePublication_clause v w s hfit⟩

end Sys2Proof.Proofs
end


section
/-! PROOFS. The field die: what its outputs are read from, the trip drivers, and the field link (R337, R342, R349, R352, R353). -/

namespace Sys2Proof.Machine

open Sys2Proof Sys2Proof.Safety Sys2Proof.Laws

section Field

variable {s x y t : State}

/-! ### Bits put one after another -/

/-- Where every element of a key has the same bit, and there is one, the number has that bit there. -/
theorem testBit_putAll {α : Type} {key : α → Nat} {g : α → Bool} {l : List α} {i : Nat} {v : Bool} (h : ∃ a ∈ l, key a = i)
    (hu : ∀ a ∈ l, key a = i → g a = v) (m : Nat) : (l.foldl (fun m a => putBit m (key a) (g a)) m).testBit i = v := by
  induction l generalizing m with
  | nil =>
    obtain ⟨a, ha, -⟩ := h
    cases ha
  | cons b bs ih =>
    have hu' : ∀ a ∈ bs, key a = i → g a = v := fun a ha => hu a (List.mem_cons_of_mem _ ha)
    by_cases hmem : ∃ a ∈ bs, key a = i
    · exact ih hmem hu' _
    · obtain ⟨a, ha, hk⟩ := h
      obtain rfl : a = b := (List.mem_cons.mp ha).resolve_right fun h => hmem ⟨a, h, hk⟩
      have hrest : ∀ (l : List α) (m : Nat), (∀ a ∈ l, key a ≠ i) →
          (l.foldl (fun m a => putBit m (key a) (g a)) m).testBit i = m.testBit i := fun l => by
        induction l with
        | nil => exact fun _ _ => rfl
        | cons c cs ih' =>
          intro m hne
          rw [List.foldl_cons, ih' _ fun a ha => hne a (List.mem_cons_of_mem _ ha), putBit_testBit,
            if_neg fun h => hne c List.mem_cons_self h.symm]
      rw [List.foldl_cons, hrest bs _ fun a ha hk => hmem ⟨a, ha, hk⟩, putBit_testBit, if_pos hk.symm]
      exact hu a List.mem_cons_self hk

theorem testBit_putFin (g : Fin 16 → Bool) (n : Fin 16) :
    ((List.finRange 16).foldl (fun m (n : Fin 16) => putBit m n (g n)) 0).testBit n = g n :=
  testBit_putAll (key := fun n : Fin 16 => n.val) ⟨n, List.mem_finRange n, rfl⟩ (fun a _ ha => by rw [Fin.ext ha]) 0

theorem fbit_setF_put (s : State) (a : Nat) (G : Fld) (v : Nat) {i : Nat} (hG : G.lo + G.w ≤ 32) (hi : i < G.w) :
    fbit (setF s a G v) a G i = v.testBit i := by
  rw [fbit, fld_setF _ _ _ _ hG, Nat.testBit_mod_two_pow, decide_eq_true hi, Bool.true_and]

/-! ### What the outputs are read from (Table 12.3) -/

/-- Does the state of an output depend on this register as a whole? -/
def OutputReg (a : Nat) : Prop := a = Reg.FIO_GRP_CTRL ∨ a = Reg.FIO_GRP_STATE ∨ a = Reg.FIO_STATUS ∨ ∃ n : Fin 16, a = Reg.FIO_DO_CFG n

/-- All that the states of the outputs depend on is as before. -/
structure OutputsSame (s t : State) : Prop where
  sleeping : t.fio.sleeping = s.fio.sleeping
  dos : t.fio.dos = s.fio.dos
  holdCmd : t.fio.holdCmd = s.fio.holdCmd
  cmd : fld t Reg.FIO_DO_STATE F.FIO_DO_STATE_cmd = fld s Reg.FIO_DO_STATE F.FIO_DO_STATE_cmd
  regs : ∀ a, OutputReg a → rd t a = rd s a

theorem OutputsSame.safe (h : OutputsSame s t) : inSafe t = inSafe s := flg_of_rd (h.regs _ (.inr (.inr (.inl rfl)))) _

theorem OutputsSame.doOn (h : OutputsSame s t) (n : Fin 16) : doOn t n = doOn s n := by
  unfold Machine.doOn
  dsimp only
  rw [h.sleeping, h.dos, h.holdCmd, h.safe, fbit_of_rd (h.regs _ (.inl rfl)), fbit_of_rd (h.regs _ (.inr (.inl rfl))),
    fbit_of_rd (h.regs _ (.inr (.inl rfl))), fld_of_rd (h.regs _ (.inr (.inr (.inr ⟨n, rfl⟩)))), fbit_of_fld h.cmd]

theorem outputReg_ne {a : Nat} (h : OutputReg a) : a ≠ Reg.FIO_DO_STATE ∧ a ≠ Reg.FIO_TRIP_STATE ∧ a ≠ Reg.FIO_DO_FAULT ∧
    a ≠ Reg.CMD_STATUS ∧ a ≠ Reg.CMD_EVT_LOST := by
  obtain rfl | rfl | rfl | ⟨n, rfl⟩ := h
  · decide
  · decide
  · decide
  · simp only [Reg.FIO_DO_CFG, Reg.FIO_DO_STATE, Reg.FIO_TRIP_STATE, Reg.FIO_DO_FAULT, Reg.CMD_STATUS, Reg.CMD_EVT_LOST]
    omega

theorem outputsSame_refreshDo (s : State) : OutputsSame s (refreshDo s) :=
  ⟨rfl, rfl, rfl, fld_setF_disj s _ F.FIO_DO_STATE_on _ _ (by decide), fun _ ha => rd_refreshDo s (outputReg_ne ha).1⟩

/-- FIO_DO_STATE shows what each output is. -/
def OutputsShown (t : State) : Prop := ∀ n : Fin 16, fbit t Reg.FIO_DO_STATE F.FIO_DO_STATE_on n = doOn t n

theorem shown_refreshDo (s : State) : OutputsShown (refreshDo s) := fun n => by
  rw [(outputsSame_refreshDo s).doOn]
  exact (fbit_setF_put s _ F.FIO_DO_STATE_on _ (by decide) n.isLt).trans (testBit_putFin (doOn s) n)

theorem OutputsShown.after (h : OutputsShown s) (hsame : OutputsSame s t) (hreg : rd t Reg.FIO_DO_STATE = rd s Reg.FIO_DO_STATE) :
    OutputsShown t := fun n => by
  rw [fbit_of_rd hreg, hsame.doOn]
  exact h n

/-! ### Events of the field die (R17) -/

/-- The log keeps its queue and gains at most some number of events. -/
def GrowsBy (n : Nat) (s t : State) : Prop := ∃ es, t.log.queue = s.log.queue ++ es ∧ es.length ≤ n

theorem GrowsBy.refl (s : State) : GrowsBy 0 s s := ⟨[], (List.append_nil _).symm, Nat.le_refl 0⟩

theorem GrowsBy.trans {m n : Nat} (h : GrowsBy m s x) (h' : GrowsBy n x t) : GrowsBy (m + n) s t := by
  obtain ⟨es, hes, hm⟩ := h
  obtain ⟨fs, hfs, hn⟩ := h'
  exact ⟨es ++ fs, by rw [hfs, hes, List.append_assoc], by rw [List.length_append]; omega⟩

theorem GrowsBy.mono {m n : Nat} (h : GrowsBy m s t) (hle : m ≤ n) : GrowsBy n s t := by
  obtain ⟨es, hes, hm⟩ := h
  exact ⟨es, hes, by omega⟩

theorem GrowsBy.logGrows {n : Nat} (h : GrowsBy n s t) : LogGrows s t := by
  obtain ⟨es, hes, -⟩ := h
  exact ⟨es, hes⟩

theorem growsBy_of_log {n : Nat} (h : t.log = s.log) : GrowsBy n s t := ⟨[], by rw [h, List.append_nil], Nat.zero_le n⟩

theorem GrowsBy.room {m n : Nat} (h : GrowsBy m s t) (hroom : Room (m + n) s) : Room n t := by
  obtain ⟨es, hes, hm⟩ := h
  unfold Room at hroom ⊢
  rw [hes, List.length_append]
  omega

theorem growsBy_logEvent (c q : Nat) (e : Word) (s : State) : GrowsBy 1 s (logEvent c q e s) := by
  by_cases hroom : Room 1 s
  · refine ⟨[⟨now s, BitVec.ofNat 16 c, BitVec.ofNat 16 q, e⟩], ?_, Nat.le_refl 1⟩
    rw [logEvent_room _ _ _ _ (by omega)]
  · refine ⟨[], ?_, Nat.zero_le 1⟩
    rw [List.append_nil, logEvent_full _ _ _ _ (by unfold Room at hroom; omega)]
    rfl

/-- What an event of the field die leaves: the registers but those of the log, the die but the events that wait. -/
theorem fieldLog_effect (c q e : Nat) (s : State) : (∃ u, (fieldLog c q e s).fio = { s.fio with unsaid := u }) ∧
    (∀ a, a ≠ Reg.CMD_STATUS → a ≠ Reg.CMD_EVT_LOST → rd (fieldLog c q e s) a = rd s a) ∧ GrowsBy 1 s (fieldLog c q e s) ∧
    Ev ⟨[.log, .fio], [.fio, .cmd], false⟩ s (fieldLog c q e s) := by
  refine ⟨?_, ?_, ?_, fieldLog_ev (le_of rfl) (Ev.refl _ s)⟩
  all_goals unfold fieldLog; split
  · exact ⟨s.fio.unsaid, keeps_of_ev (f := ⟨[.log], [.cmd], false⟩) (p := .fio) (ev_logEvent (by decide) (by decide) (Ev.refl _ s)) rfl⟩
  · exact ⟨_, rfl⟩
  · exact fun a h h' => rd_logEvent s c q _ h h'
  · exact fun _ _ _ => rfl
  · exact growsBy_logEvent ..
  · exact growsBy_of_log rfl

theorem fieldLog_on {c q e : Nat} (h : s.fio.linkOn = true) : fieldLog c q e s = logN c q e s := if_pos h

theorem fieldLog_off {c q e : Nat} (h : s.fio.linkOn = false) :
    fieldLog c q e s = { s with fio := { s.fio with unsaid := s.fio.unsaid ++ [(c, q, e)] } } := if_neg (by rw [h]; exact Bool.false_ne_true)

end Field

end Sys2Proof.Machine
end


section
/-! PROOFS. The trip drivers, the safe state and the frames of the field link (R337, R349, R352, R353). -/

namespace Sys2Proof.Machine

open Sys2Proof Sys2Proof.Safety Sys2Proof.Laws

section Frames

variable {s x y t : State}

/-! ### The trip drivers -/

/-- Trip drivers have moved and at most some number of events has been told or waits: the commands of the outputs, the strobes and the
counts of disagreement of the drivers outside a list are as before. -/
structure TripsMoved (c : List (Fin 4)) (n : Nat) (s t : State) : Prop where
  prot : t.prot = s.prot
  ticks : t.ticks = s.ticks
  regs : ∀ a, a ≠ Reg.FIO_TRIP_STATE → a ≠ Reg.CMD_STATUS → a ≠ Reg.CMD_EVT_LOST → rd t a = rd s a
  strobe : ∀ i, strobeOf t i = strobeOf s i
  fio : t.fio = { s.fio with trips := t.fio.trips, unsaid := t.fio.unsaid }
  disagree : ∀ k : Fin 4, k ∉ c → (t.fio.trips[k]).disagree = (s.fio.trips[k]).disagree
  waits : ∃ es, t.fio.unsaid = s.fio.unsaid ++ es
  grows : GrowsBy n s t

theorem TripsMoved.refl (s : State) : TripsMoved [] 0 s s :=
  ⟨rfl, rfl, fun _ _ _ _ => rfl, fun _ => rfl, rfl, fun _ _ => rfl, ⟨[], (List.append_nil _).symm⟩, .refl s⟩

theorem TripsMoved.trans {c d : List (Fin 4)} {m n : Nat} (h : TripsMoved c m s x) (h' : TripsMoved d n x t) :
    TripsMoved (c ++ d) (m + n) s t where
  prot := h'.prot.trans h.prot
  ticks := h'.ticks.trans h.ticks
  regs a h1 h2 h3 := (h'.regs a h1 h2 h3).trans (h.regs a h1 h2 h3)
  strobe i := (h'.strobe i).trans (h.strobe i)
  fio := by
    rw [h'.fio, h.fio]
  disagree k hk := by
    rw [List.mem_append, not_or] at hk
    exact (h'.disagree k hk.2).trans (h.disagree k hk.1)
  waits := by
    obtain ⟨es, hes⟩ := h.waits
    obtain ⟨fs, hfs⟩ := h'.waits
    exact ⟨es ++ fs, by rw [hfs, hes, List.append_assoc]⟩
  grows := h.grows.trans h'.grows

theorem TripsMoved.mono {c : List (Fin 4)} {m n : Nat} (h : TripsMoved c m s t) (hle : m ≤ n) : TripsMoved c n s t :=
  { h with grows := h.grows.mono hle }

theorem TripsMoved.rd {c : List (Fin 4)} {n : Nat} (h : TripsMoved c n s t) {a : Nat}
    (ha : a ≠ Reg.FIO_TRIP_STATE ∧ a ≠ Reg.CMD_STATUS ∧ a ≠ Reg.CMD_EVT_LOST) : Machine.rd t a = Machine.rd s a := h.regs a ha.1 ha.2.1 ha.2.2

theorem TripsMoved.outputsSame {c : List (Fin 4)} {n : Nat} (h : TripsMoved c n s t) : OutputsSame s t := by
  refine ⟨?_, ?_, ?_, fld_of_rd (h.rd (by decide)) _, fun a ha => ?_⟩
  · rw [h.fio]
  · rw [h.fio]
  · rw [h.fio]
  · obtain ⟨-, h1, -, h2, h3⟩ := outputReg_ne ha
    exact h.regs a h1 h2 h3

theorem TripsMoved.linkOn {c : List (Fin 4)} {n : Nat} (h : TripsMoved c n s t) : t.fio.linkOn = s.fio.linkOn := by rw [h.fio]

theorem tripsMoved_fieldLog (c q e : Nat) (s : State) : TripsMoved [] 1 s (fieldLog c q e s) := by
  obtain ⟨⟨u, hu⟩, hregs, hgrows, hev⟩ := fieldLog_effect c q e s
  refine ⟨keeps_of_ev hev (p := .prot) rfl, keeps_of_ev hev (p := .ticks) rfl, fun a _ h h' => hregs a h h', fun i => fbit_of_rd (hregs _ (by decide) (by decide)) .., ?_, fun k _ => ?_, ?_, hgrows⟩
  · rw [hu]
  · rw [hu]
  · cases hl : s.fio.linkOn with
    | true =>
      refine ⟨[], ?_⟩
      rw [fieldLog_on hl, List.append_nil,
        show (logN c q e s).fio = s.fio from
          keeps_of_ev (f := ⟨[.log], [.cmd], false⟩) (p := .fio) (ev_logEvent (by decide) (by decide) (Ev.refl _ s)) rfl]
    | false => exact ⟨[(c, q, e)], by rw [fieldLog_off hl]⟩

/-- A change of one driver that keeps its count of disagreement. -/
theorem tripsMoved_setTrip (n : Fin 4) (d : TripDriver) (hd : d.disagree = (s.fio.trips[n]).disagree) : TripsMoved [] 0 s (setTrip n d s) := by
  refine ⟨rfl, rfl, fun _ _ _ _ => rfl, fun _ => rfl, rfl, fun k _ => ?_, ⟨[], (List.append_nil _).symm⟩,
    growsBy_of_log rfl⟩
  by_cases hk : n = k
  · subst hk
    simpa [setTrip] using hd
  · simp [setTrip, Fin.val_ne_of_ne hk]

theorem tripsMoved_tripBit (G : Fld) (i : Nat) (b : Bool) (hG : F.FIO_TRIP_STATE_strobe.lo + F.FIO_TRIP_STATE_strobe.w ≤ G.lo ∨
    G.lo + G.w ≤ F.FIO_TRIP_STATE_strobe.lo)
    (s : State) : TripsMoved [] 0 s (setFbit s Reg.FIO_TRIP_STATE G i b) :=
  ⟨rfl, rfl, fun _ h _ _ => rd_setF_ne _ _ _ h, fun _ => fbit_setFbit_disj _ _ _ _ _ _ _ hG, rfl,
    fun _ _ => rfl, ⟨[], (List.append_nil _).symm⟩, growsBy_of_log rfl⟩

theorem tripsMoved_energise (n : Fin 4) (b : Bool) (s : State) : TripsMoved [] 0 s (energise n b s) := by
  unfold energise
  split
  · exact .refl s
  · refine ((tripsMoved_tripBit _ _ _ (by decide) s).trans (tripsMoved_tripBit _ _ _ (by decide) _)).trans (tripsMoved_setTrip n _ ?_)
    split <;> rfl

theorem tripsMoved_settleTrip (n : Fin 4) (s : State) : TripsMoved [] 1 s (settleTrip n s) := by
  unfold settleTrip
  dsimp only
  split
  · split
    · exact (tripsMoved_setTrip n { s.fio.trips[n] with deferred := true } rfl).trans (tripsMoved_fieldLog ..)
    · exact (TripsMoved.refl s).mono (Nat.zero_le 1)
  · exact (tripsMoved_energise n _ s).mono (Nat.zero_le 1)

/-- Each of some steps moves drivers. -/
theorem tripsMoved_forEach {c : Fin 4 → List (Fin 4)} {m : Nat} {g : Fin 4 → State → State} (hg : ∀ n y, TripsMoved (c n) m y (g n y))
    (l : List (Fin 4)) (s : State) : TripsMoved (l.flatMap c) (l.length * m) s (forEach l g s) := by
  induction l generalizing s with
  | nil => exact (TripsMoved.refl s).mono (Nat.zero_le _)
  | cons n l ih =>
    refine ((hg n s).trans (ih (g n s))).mono ?_
    rw [List.length_cons, Nat.succ_mul, Nat.add_comm]

theorem tripsMoved_settleTrips (s : State) : TripsMoved [] 4 s (settleTrips s) :=
  tripsMoved_forEach (c := fun _ => []) tripsMoved_settleTrip (List.finRange 4) s

/-- Outputs shown, and drivers settled after that. -/
theorem shown_settleTrips (h : OutputsShown s) : OutputsShown (settleTrips s) :=
  h.after (tripsMoved_settleTrips s).outputsSame ((tripsMoved_settleTrips s).rd (by decide))

/-! ### The safe state -/

/-- The field die has moved by a frame: the resume flag, the link, the strobes and the counts of disagreement of the drivers outside a list are
as before. -/
structure FieldMoved (c : List (Fin 4)) (n : Nat) (s t : State) : Prop where
  prot : t.prot = s.prot
  ticks : t.ticks = s.ticks
  regs : ∀ a, a ≠ Reg.FIO_STATUS → a ≠ Reg.FIO_DO_STATE → a ≠ Reg.FIO_TRIP_STATE → a ≠ Reg.CMD_STATUS → a ≠ Reg.CMD_EVT_LOST →
    rd t a = rd s a
  strobe : ∀ i, strobeOf t i = strobeOf s i
  resume : t.fio.resume = s.fio.resume
  linkOn : t.fio.linkOn = s.fio.linkOn
  disagree : ∀ k : Fin 4, k ∉ c → (t.fio.trips[k]).disagree = (s.fio.trips[k]).disagree
  grows : GrowsBy n s t

theorem FieldMoved.trans {c d : List (Fin 4)} {m n : Nat} (h : FieldMoved c m s x) (h' : FieldMoved d n x t) :
    FieldMoved (c ++ d) (m + n) s t where
  prot := h'.prot.trans h.prot
  ticks := h'.ticks.trans h.ticks
  regs a h1 h2 h3 h4 h5 := (h'.regs a h1 h2 h3 h4 h5).trans (h.regs a h1 h2 h3 h4 h5)
  strobe i := (h'.strobe i).trans (h.strobe i)
  resume := h'.resume.trans h.resume
  linkOn := h'.linkOn.trans h.linkOn
  disagree k hk := by
    rw [List.mem_append, not_or] at hk
    exact (h'.disagree k hk.2).trans (h.disagree k hk.1)
  grows := h.grows.trans h'.grows

theorem TripsMoved.field {c : List (Fin 4)} {n : Nat} (h : TripsMoved c n s t) : FieldMoved c n s t :=
  ⟨h.prot, h.ticks, fun a _ _ h1 h2 h3 => h.regs a h1 h2 h3, h.strobe, by rw [h.fio], h.linkOn, h.disagree, h.grows⟩

theorem fieldMoved_refreshDo (s : State) : FieldMoved [] 0 s (refreshDo s) :=
  ⟨rfl, rfl, fun _ _ h _ _ _ => rd_refreshDo s h, fun _ => fbit_of_rd (rd_refreshDo s (by decide)) .., rfl, rfl,
    fun _ _ => rfl, growsBy_of_log rfl⟩

/-- The safe state noted in the field die before it is told. -/
def safeNoted (s : State) : State :=
  setF (setF { s with fio := { s.fio with
    holdCmd := BitVec.ofNat 16 (fld s Reg.FIO_DO_STATE F.FIO_DO_STATE_cmd), safeFrom := localNs s, resumeRun := 0 } }
    Reg.FIO_STATUS F.FIO_STATUS_safe 1) Reg.FIO_STATUS F.FIO_STATUS_safe_seen 1

theorem enterSafe_eq {cause : Nat} (h : inSafe s = false) :
    enterSafe cause s = settleTrips (refreshDo (fieldLog 0x9031 0 cause (safeNoted s))) :=
  if_neg (by rw [h]; exact Bool.false_ne_true)

theorem inSafe_safeNoted (s : State) : inSafe (safeNoted s) = true ∧ flg (safeNoted s) Reg.FIO_STATUS F.FIO_STATUS_safe_seen = true :=
  ⟨(flg_setF_disj _ _ _ _ _ (by decide)).trans ((flg_setF _ _ _ _ (by decide)).trans (by decide)),
    (flg_setF _ _ _ _ (by decide)).trans (by decide)⟩

theorem fieldMoved_safeNoted (s : State) : FieldMoved [] 0 s (safeNoted s) :=
  ⟨rfl, rfl,
    fun a h _ _ _ _ => (rd_setF_ne _ _ _ h).trans (rd_setF_ne _ _ _ h),
    fun _ => fbit_of_rd ((rd_setF_ne _ _ _ (by decide)).trans (rd_setF_ne _ _ _ (by decide))) .., rfl, rfl, fun _ _ => rfl, growsBy_of_log rfl⟩

/-- What the safe state leaves of a field die that was not in it. -/
structure SafeEntered (cause : Nat) (s t : State) : Prop where
  safe : inSafe t = true
  seen : flg t Reg.FIO_STATUS F.FIO_STATUS_safe_seen = true
  resumeRun : t.fio.resumeRun = 0
  holdCmd : t.fio.holdCmd.toNat = fld s Reg.FIO_DO_STATE F.FIO_DO_STATE_cmd
  shown : OutputsShown t
  tells : Room 5 s → Tells 0x9031 0 cause s t
  moved : FieldMoved [] 5 s t

theorem tells_fieldLog {c q e : Nat} (hroom : Room 1 x) (hlog : x.log = s.log) (hfio : x.fio.unsaid = s.fio.unsaid)
    (hlink : x.fio.linkOn = s.fio.linkOn) (hg : LogGrows (fieldLog c q e x) t) (hw : ∃ es, t.fio.unsaid = (fieldLog c q e x).fio.unsaid ++ es) :
    Tells c q e s t := by
  unfold Tells
  cases hl : s.fio.linkOn with
  | true =>
    rw [if_pos rfl]
    rw [fieldLog_on (hlink.trans hl)] at hg
    exact raises_of_grown (logged_of_base hlog (logged_logN c q e rfl hroom)) hg
  | false =>
    rw [if_neg Bool.false_ne_true]
    obtain ⟨es, hes⟩ := hw
    rw [fieldLog_off (hlink.trans hl)] at hes
    exact ⟨(c, q, e) :: es, by rw [hes, hfio]; simp, List.mem_cons_self⟩

theorem enterSafe_entered (cause : Nat) (h : inSafe s = false) : SafeEntered cause s (enterSafe cause s) := by
  have hsettle := tripsMoved_settleTrips (refreshDo (fieldLog 0x9031 0 cause (safeNoted s)))
  have hlog := tripsMoved_fieldLog 0x9031 0 cause (safeNoted s)
  have hmoved := ((fieldMoved_safeNoted s).trans hlog.field).trans (fieldMoved_refreshDo _) |>.trans hsettle.field
  have hsame := hsettle.outputsSame
  have hstatus : ∀ G, flg (settleTrips (refreshDo (fieldLog 0x9031 0 cause (safeNoted s)))) Reg.FIO_STATUS G =
      flg (safeNoted s) Reg.FIO_STATUS G := fun G =>
    flg_of_rd ((hsettle.rd (by decide)).trans ((rd_refreshDo _ (by decide)).trans (hlog.rd (by decide)))) G
  rw [enterSafe_eq h]
  refine ⟨(hstatus _).trans (inSafe_safeNoted s).1, (hstatus _).trans (inSafe_safeNoted s).2, ?_, ?_, shown_settleTrips (shown_refreshDo _),
    fun hroom => ?_, hmoved⟩
  · rw [hsettle.fio]
    show (fieldLog 0x9031 0 cause (safeNoted s)).fio.resumeRun = 0
    rw [hlog.fio]
    rfl
  · rw [hsettle.fio]
    show (fieldLog 0x9031 0 cause (safeNoted s)).fio.holdCmd.toNat = _
    rw [hlog.fio]
    exact BitVec.toNat_ofNat .. |>.trans (Nat.mod_eq_of_lt (fld_lt s Reg.FIO_DO_STATE F.FIO_DO_STATE_cmd))
  · refine tells_fieldLog (x := safeNoted s) ?_ rfl rfl rfl hsettle.grows.logGrows hsettle.waits
    have : (safeNoted s).log = s.log := rfl
    unfold Room at hroom ⊢
    rw [this]
    omega

/-- The end of the safe state before it is told. -/
def safeEnded (s : State) : State := setF { s with fio := { s.fio with resumeRun := 0 } } Reg.FIO_STATUS F.FIO_STATUS_safe 0

/-- How long the safe state lasted, in µs. -/
def safeFor (s : State) : Nat := min 0xFFFFFFFF ((localNs s - s.fio.safeFrom) / 1000)

theorem leaveSafe_eq (s : State) : leaveSafe s = settleTrips (refreshDo (fieldLog 0x9032 0 (safeFor s) (safeEnded s))) := rfl

/-- What the end of the safe state leaves. -/
structure SafeLeft (s t : State) : Prop where
  safe : inSafe t = false
  shown : OutputsShown t
  cmd : fld t Reg.FIO_DO_STATE F.FIO_DO_STATE_cmd = fld s Reg.FIO_DO_STATE F.FIO_DO_STATE_cmd
  lastValid : t.fio.lastValid = s.fio.lastValid
  raises : s.fio.linkOn = true → Room 1 s → ∃ us, Raises 0x9032 0 us s t
  moved : FieldMoved [] 5 s t

theorem leaveSafe_left (s : State) : SafeLeft s (leaveSafe s) := by
  have hsettle := tripsMoved_settleTrips (refreshDo (fieldLog 0x9032 0 (safeFor s) (safeEnded s)))
  have hlog := tripsMoved_fieldLog 0x9032 0 (safeFor s) (safeEnded s)
  have hend : FieldMoved [] 0 s (safeEnded s) :=
    ⟨rfl, rfl, fun a h _ _ _ _ => rd_setF_ne _ _ _ h, fun _ => fbit_of_rd (rd_setF_ne _ _ _ (by decide)) .., rfl, rfl, fun _ _ => rfl,
      growsBy_of_log rfl⟩
  have hsame := hsettle.outputsSame
  have hshow := outputsSame_refreshDo (fieldLog 0x9032 0 (safeFor s) (safeEnded s))
  rw [leaveSafe_eq]
  refine ⟨?_, shown_settleTrips (shown_refreshDo _), ?_, ?_, fun hlink hroom => ⟨BitVec.ofNat 32 (safeFor s), ?_⟩,
    (hend.trans hlog.field).trans (fieldMoved_refreshDo _) |>.trans hsettle.field⟩
  · rw [hsame.safe, hshow.safe, hlog.outputsSame.safe]
    exact (flg_setF _ _ _ _ (by decide)).trans (by decide)
  · rw [hsame.cmd, hshow.cmd, hlog.outputsSame.cmd]
    exact fld_of_rd (rd_setF_ne _ _ _ (by decide)) _
  · rw [hsettle.fio]
    show (fieldLog 0x9032 0 (safeFor s) (safeEnded s)).fio.lastValid = _
    rw [hlog.fio]
    rfl
  · have hgrows := hsettle.grows.logGrows
    rw [fieldLog_on (show (safeEnded s).fio.linkOn = true from hlink)] at hgrows ⊢
    exact raises_of_grown (logged_logN (s := s) (x := safeEnded s) 0x9032 0 (safeFor s) rfl hroom) hgrows

/-! ### The trip copies of a frame -/

/-- The count of disagreement after a frame. -/
def disagreeNext (n : Fin 4) (s : State) : Nat := if strobeOf s n = protTrip s n then 0 else min 9 ((s.fio.trips[n]).disagree + 1)

/-- The copy of a frame noted in its driver. -/
def copyNoted (n : Fin 4) (s : State) : State :=
  setTrip n { s.fio.trips[n] with
    copy := protTrip s n
    copyRun := if protTrip s n then min 4 ((s.fio.trips[n]).copyRun + 1) else 0
    disagree := disagreeNext n s } s

theorem takeCopy_eq (n : Fin 4) (s : State) : takeCopy n s = settleTrip n
    (whenS (disagreeNext n s == 9 && (s.fio.trips[n]).disagree != 9) (fieldLog 0x9026 n (if strobeOf s n then 1 else 2)) (copyNoted n s)) := rfl

theorem tripsMoved_copyNoted (n : Fin 4) (s : State) : TripsMoved [n] 0 s (copyNoted n s) :=
  ⟨rfl, rfl, fun _ _ _ _ => rfl, fun _ => rfl, rfl, fun k hk => by
    have hne : n ≠ k := fun h => hk (List.mem_singleton.mpr h.symm)
    simp [copyNoted, setTrip, Fin.val_ne_of_ne hne], ⟨[], (List.append_nil _).symm⟩, growsBy_of_log rfl⟩

theorem tripsMoved_whenS_fieldLog (b : Bool) (c q e : Nat) (s : State) : TripsMoved [] 1 s (whenS b (fieldLog c q e) s) := by
  cases b with
  | true => exact tripsMoved_fieldLog c q e s
  | false => exact (TripsMoved.refl s).mono (Nat.zero_le 1)

theorem tripsMoved_takeCopy (n : Fin 4) (s : State) : TripsMoved [n] 2 s (takeCopy n s) :=
  ((tripsMoved_copyNoted n s).trans (tripsMoved_whenS_fieldLog ..)).trans (tripsMoved_settleTrip n _)

/-- The ninth disagreement in a row is told. -/
theorem takeCopy_ninth {n : Fin 4} (hlink : s.fio.linkOn = true) (h8 : (s.fio.trips[n]).disagree = 8) (hne : strobeOf s n ≠ protTrip s n)
    (hroom : Room 1 s) : ((takeCopy n s).fio.trips[n]).disagree = 9 ∧
    Raises 0x9026 n (if strobeOf s n then 1 else 2) s (takeCopy n s) := by
  have hnext : disagreeNext n s = 9 := by
    rw [disagreeNext, if_neg hne, h8]
    rfl
  have hsettle := tripsMoved_settleTrip n (fieldLog 0x9026 n (if strobeOf s n then 1 else 2) (copyNoted n s))
  have hlog := tripsMoved_fieldLog 0x9026 n (if strobeOf s n then 1 else 2) (copyNoted n s)
  rw [takeCopy_eq, hnext, h8, show (9 == 9 && 8 != 9) = true from rfl, whenS_true]
  constructor
  · rw [hsettle.disagree n List.not_mem_nil, hlog.disagree n List.not_mem_nil]
    simp [copyNoted, setTrip, hnext]
  · have hgrows := hsettle.grows.logGrows
    rw [fieldLog_on (show (copyNoted n s).fio.linkOn = true from hlink)] at hgrows ⊢
    have h := raises_of_grown (logged_logN (s := s) 0x9026 n (if strobeOf s n then 1 else 2) (x := copyNoted n s) rfl hroom) hgrows
    revert h
    cases strobeOf s n <;> exact id

/-! ### A valid frame -/

/-- The frame begins the safe state where it has no resume flag. -/
def frameBegun (s : State) : State := if s.fio.resume then s else enterSafe 3 { s with fio := { s.fio with resumeRun := 0 } }

/-- The commands of the outputs in a frame. -/
def frameCommands (s : State) : Nat := (List.range 16).foldl (fun m n => putBit m n (frameCommand s n)) 0

/-- The commands of the outputs and the instant of a frame noted. -/
def frameNoted (cmd at' : Nat) (s : State) : State :=
  { setF s Reg.FIO_DO_STATE F.FIO_DO_STATE_cmd cmd with fio := { s.fio with lastValid := at' } }

/-- The trip copies of a frame taken. -/
def frameCopied (s : State) : State := forEach (List.finRange 4) takeCopy s

/-- The end of a frame: the sixteenth one in a row with the resume flag ends the safe state. -/
def frameEnded (s : State) : State :=
  if s.fio.resume then
    if inSafe s then
      if 16 ≤ s.fio.resumeRun + 1 then leaveSafe { s with fio := { s.fio with resumeRun := s.fio.resumeRun + 1 } }
      else refreshDo { s with fio := { s.fio with resumeRun := s.fio.resumeRun + 1 } }
    else refreshDo s
  else refreshDo s

theorem goodFrame_eq (s : State) : goodFrame s =
    frameEnded (frameCopied (frameNoted (frameCommands (frameBegun s)) (localNs (frameBegun s)) (frameBegun s))) := by
  unfold goodFrame frameEnded frameCopied frameNoted frameBegun frameCommands
  rfl

theorem fieldMoved_noted (cmd at' : Nat) (s : State) : FieldMoved [] 0 s (frameNoted cmd at' s) :=
  ⟨rfl, rfl, fun a _ h _ _ _ => rd_setF_ne s _ _ h, fun _ => fbit_of_rd (rd_setF_ne s _ _ (by decide)) .., rfl, rfl, fun _ _ => rfl,
    growsBy_of_log rfl⟩

theorem tripsMoved_copied (s : State) : TripsMoved (List.finRange 4) 8 s (frameCopied s) :=
  tripsMoved_forEach (c := fun n => [n]) tripsMoved_takeCopy (List.finRange 4) s

theorem frameBegun_resume (h : s.fio.resume = true) : frameBegun s = s := if_pos h

theorem frameBegun_safe (h : s.fio.resume = false) : inSafe (frameBegun s) = true ∧ FieldMoved [] 5 s (frameBegun s) := by
  rw [show frameBegun s = enterSafe 3 { s with fio := { s.fio with resumeRun := 0 } } from if_neg (by rw [h]; exact Bool.false_ne_true)]
  have h0 : FieldMoved [] 0 s { s with fio := { s.fio with resumeRun := 0 } } :=
    ⟨rfl, rfl, fun _ _ _ _ _ _ => rfl, fun _ => rfl, rfl, rfl, fun _ _ => rfl, growsBy_of_log rfl⟩
  cases hs : inSafe s with
  | true =>
    rw [enterSafe, if_pos (show inSafe { s with fio := { s.fio with resumeRun := 0 } } = true from hs)]
    exact ⟨hs, { h0 with grows := h0.grows.mono (Nat.zero_le 5) }⟩
  | false =>
    have hent := enterSafe_entered (s := { s with fio := { s.fio with resumeRun := 0 } }) 3 hs
    exact ⟨hent.safe, h0.trans hent.moved⟩

theorem fieldMoved_begun (s : State) : FieldMoved [] 5 s (frameBegun s) := by
  cases h : s.fio.resume with
  | true =>
    rw [frameBegun_resume h]
    exact (TripsMoved.refl s).mono (Nat.zero_le 5) |>.field
  | false => exact (frameBegun_safe h).2

theorem frameCommand_begun (s : State) (n : Nat) : frameCommand (frameBegun s) n = frameCommand s n := by
  cases h : s.fio.resume with
  | true => rw [frameBegun_resume h]
  | false =>
    rw [frameCommand, frameCommand, (frameBegun_safe h).2.resume, h, Bool.false_and, Bool.false_and]

theorem fbit_frameNoted (at' : Nat) (s : State) {n : Nat} (hn : n < 16) :
    fbit (frameNoted (frameCommands s) at' s) Reg.FIO_DO_STATE F.FIO_DO_STATE_cmd n = frameCommand s n :=
  (fbit_setF_put s _ F.FIO_DO_STATE_cmd (frameCommands s) (by decide) hn).trans
    (testBit_putAll (key := id) ⟨n, List.mem_range.mpr hn, rfl⟩ (fun a _ ha => by rw [show a = n from ha]) 0)

/-- What the end of a frame leaves. -/
structure FrameEnd (s t : State) : Prop where
  cmd : fld t Reg.FIO_DO_STATE F.FIO_DO_STATE_cmd = fld s Reg.FIO_DO_STATE F.FIO_DO_STATE_cmd
  lastValid : t.fio.lastValid = s.fio.lastValid
  shown : OutputsShown t
  kept : s.fio.resume = false ∨ inSafe s = false → inSafe t = inSafe s
  counted : s.fio.resume = true → inSafe s = true → s.fio.resumeRun < 15 → inSafe t = true ∧ t.fio.resumeRun = s.fio.resumeRun + 1
  left : s.fio.resume = true → inSafe s = true → 15 ≤ s.fio.resumeRun → inSafe t = false ∧
    (s.fio.linkOn = true → Room 1 s → ∃ us, Raises 0x9032 0 us s t)
  moved : FieldMoved [] 5 s t

theorem fieldMoved_run (n : Nat) (s : State) : FieldMoved [] 0 s { s with fio := { s.fio with resumeRun := n } } :=
  ⟨rfl, rfl, fun _ _ _ _ _ _ => rfl, fun _ => rfl, rfl, rfl, fun _ _ => rfl, growsBy_of_log rfl⟩

theorem frameEnd_refreshDo (n : Nat) (h : s.fio.resume = true → inSafe s = true → s.fio.resumeRun < 15 ∧ n = s.fio.resumeRun + 1) :
    FrameEnd s (refreshDo { s with fio := { s.fio with resumeRun := n } }) := by
  have hsame := outputsSame_refreshDo { s with fio := { s.fio with resumeRun := n } }
  refine ⟨hsame.cmd, rfl, shown_refreshDo _, fun _ => hsame.safe, fun hr hs _ => ⟨hsame.safe.trans hs, (h hr hs).2⟩,
    fun hr hs h15 => absurd (h hr hs).1 (by omega), ?_⟩
  have hm := (fieldMoved_run n s).trans (fieldMoved_refreshDo _)
  exact { hm with grows := hm.grows.mono (Nat.zero_le 5) }

theorem frameEnded_end (s : State) : FrameEnd s (frameEnded s) := by
  have hidle : ¬ (s.fio.resume = true ∧ inSafe s = true) → FrameEnd s (refreshDo s) := fun h =>
    frameEnd_refreshDo s.fio.resumeRun fun hr hs => absurd ⟨hr, hs⟩ h
  unfold frameEnded
  split
  next hr =>
    split
    next hs =>
      split
      next h16 =>
        have hleft := leaveSafe_left { s with fio := { s.fio with resumeRun := s.fio.resumeRun + 1 } }
        exact ⟨hleft.cmd, hleft.lastValid, hleft.shown,
          fun h => (h.elim (fun h => Bool.noConfusion (h.symm.trans hr)) fun h => Bool.noConfusion (h.symm.trans hs)),
          fun _ _ h => absurd h (by omega), fun _ _ _ => ⟨hleft.safe, hleft.raises⟩, (fieldMoved_run _ s).trans hleft.moved⟩
      next h16 => exact frameEnd_refreshDo _ fun _ _ => ⟨by omega, rfl⟩
    next hs => exact hidle fun h => hs h.2
  next hr => exact hidle fun h => hr h.1

/-- The state of a frame whose trip copies have been taken. -/
def frameRead (s : State) : State := frameCopied (frameNoted (frameCommands (frameBegun s)) (localNs (frameBegun s)) (frameBegun s))

/-- What a frame leaves before its end. -/
structure FrameRead (s t : State) : Prop where
  cmd : ∀ n < 16, fbit t Reg.FIO_DO_STATE F.FIO_DO_STATE_cmd n = frameCommand s n
  lastValid : t.fio.lastValid = localNs s
  entered : s.fio.resume = false → inSafe t = true
  same : s.fio.resume = true → inSafe t = inSafe s ∧ t.fio.resumeRun = s.fio.resumeRun
  moved : FieldMoved (List.finRange 4) 13 s t
  told : s.fio.resume = true → GrowsBy 8 s t

theorem frameRead_read (s : State) : FrameRead s (frameRead s) := by
  have hcopied := tripsMoved_copied (frameNoted (frameCommands (frameBegun s)) (localNs (frameBegun s)) (frameBegun s))
  have hnoted := fieldMoved_noted (frameCommands (frameBegun s)) (localNs (frameBegun s)) (frameBegun s)
  have hcmd := fun n hn => fbit_frameNoted (localNs (frameBegun s)) (frameBegun s) (n := n) hn
  have hsafe : inSafe (frameNoted (frameCommands (frameBegun s)) (localNs (frameBegun s)) (frameBegun s)) = inSafe (frameBegun s) :=
    flg_of_rd (rd_setF_ne (frameBegun s) _ _ (by decide)) _
  have hat : localNs (frameBegun s) = localNs s := localNs_of_ticks (fieldMoved_begun s).ticks
  have hat' : (frameNoted (frameCommands (frameBegun s)) (localNs (frameBegun s)) (frameBegun s)).fio.lastValid = localNs (frameBegun s) := rfl
  have hrun : (frameNoted (frameCommands (frameBegun s)) (localNs (frameBegun s)) (frameBegun s)).fio.resumeRun = (frameBegun s).fio.resumeRun := rfl
  unfold frameRead
  generalize frameNoted (frameCommands (frameBegun s)) (localNs (frameBegun s)) (frameBegun s) = x at *
  have hmoved := (fieldMoved_begun s).trans hnoted |>.trans hcopied.field
  refine ⟨fun n hn => ?_, ?_, fun h => ?_, fun h => ⟨?_, ?_⟩, hmoved, fun h => ?_⟩
  · rw [fbit_of_fld hcopied.outputsSame.cmd, hcmd n hn, frameCommand_begun]
  · rw [hcopied.fio]
    exact hat'.trans hat
  · rw [hcopied.outputsSame.safe, hsafe, (frameBegun_safe h).1]
  · rw [hcopied.outputsSame.safe, hsafe, frameBegun_resume h]
  · rw [hcopied.fio]
    exact hrun.trans (by rw [frameBegun_resume h])
  · rw [frameBegun_resume h] at hnoted
    exact hnoted.grows.trans hcopied.grows

theorem exec_goodFrame (h : s.fio.linkOn = true) : exec (.fieldLinkFrame true) s = .next (frameEnded (frameRead s)) :=
  Eq.trans (b := execFieldLinkFrame true s) rfl (by rw [execFieldLinkFrame, h, goodFrame_eq]; rfl)

theorem fieldLinkFrame_silent (ok : Bool) (h : s.fio.linkOn = false) : exec (.fieldLinkFrame ok) s = .next s :=
  Eq.trans (b := execFieldLinkFrame ok s) rfl (by rw [execFieldLinkFrame, h]; rfl)

theorem fieldLinkFrame_good (h : s.fio.linkOn = true) : ∃ t, exec (.fieldLinkFrame true) s = .next t ∧
    (∀ n < 16, fbit t Reg.FIO_DO_STATE F.FIO_DO_STATE_cmd n = frameCommand s n) ∧ t.fio.lastValid = localNs s ∧ OutputsShown t ∧
    (s.fio.resume = false → inSafe t = true) ∧
    (s.fio.resume = true → inSafe s = false → inSafe t = false) ∧
    (s.fio.resume = true → inSafe s = true → s.fio.resumeRun < 15 → inSafe t = true ∧ t.fio.resumeRun = s.fio.resumeRun + 1) ∧
    (s.fio.resume = true → inSafe s = true → 15 ≤ s.fio.resumeRun → inSafe t = false) := by
  refine ⟨_, exec_goodFrame h, ?_⟩
  have hread := frameRead_read s
  have hend := frameEnded_end (frameRead s)
  have hres := hread.moved.resume
  refine ⟨fun n hn => (fbit_of_fld hend.cmd).trans (hread.cmd n hn), hend.lastValid.trans hread.lastValid, hend.shown, fun hr => ?_,
    fun hr hs => ?_, fun hr hs hrun => ?_, fun hr hs hrun => ?_⟩
  · exact (hend.kept (.inl (hres.trans hr))).trans (hread.entered hr)
  · have hs' := (hread.same hr).1.trans hs
    exact (hend.kept (.inr hs')).trans hs'
  · obtain ⟨hsame, hrun'⟩ := hread.same hr
    have hc := hend.counted (hres.trans hr) (hsame.trans hs) (by omega)
    exact ⟨hc.1, by rw [hc.2, hrun']⟩
  · obtain ⟨hsame, hrun'⟩ := hread.same hr
    exact (hend.left (hres.trans hr) (hsame.trans hs) (by omega)).1

theorem safeStateLeft_left (hlink : s.fio.linkOn = true) (hr : s.fio.resume = true) (hs : inSafe s = true) (hrun : s.fio.resumeRun = 15)
    (hroom : Room 16 s) : ∃ t, exec .safeStateLeft s = .next t ∧ inSafe t = false ∧ OutputsShown t ∧ ∃ us, Raises 0x9032 0 us s t := by
  have hread := frameRead_read s
  have hend := frameEnded_end (frameRead s)
  obtain ⟨hsame, hrun'⟩ := hread.same hr
  obtain ⟨hsafe, hraise⟩ := hend.left (hread.moved.resume.trans hr) (hsame.trans hs) (by omega)
  obtain ⟨us, hus⟩ := hraise (hread.moved.linkOn.trans hlink) ((hread.told hr).room (by unfold Room at hroom ⊢; omega))
  refine ⟨frameEnded (frameRead s), Eq.trans (b := execSafeStateLeft s) rfl ?_, hsafe, hend.shown, us,
    raises_after (hread.told hr).logGrows hus⟩
  rw [execSafeStateLeft, if_pos ⟨hlink, hr, hs, hrun⟩, goodFrame_eq]
  rfl

theorem safeStateLeft_ignored (h : s.fio.linkOn = false ∨ s.fio.resume = false ∨ inSafe s = false ∨ s.fio.resumeRun ≠ 15) :
    exec .safeStateLeft s = .next s :=
  Eq.trans (b := execSafeStateLeft s) rfl (if_neg (by
    rintro ⟨h1, h2, h3, h4⟩
    rw [h1, h2, h3] at h
    simp [h4] at h))

/-! ### The ninth frame in which strobe and copy disagree -/

theorem tripCmd_moved {c : List (Fin 4)} {n : Nat} (h : FieldMoved c n s t) (f : Fin 8) : tripCmd t f = tripCmd s f :=
  flg_of_rd (h.regs _ (by simp only [Reg.PROT_FDR_STATE, Reg.FIO_STATUS]; omega) (by simp only [Reg.PROT_FDR_STATE, Reg.FIO_DO_STATE]; omega)
    (by simp only [Reg.PROT_FDR_STATE, Reg.FIO_TRIP_STATE]; omega) (by simp only [Reg.PROT_FDR_STATE, Reg.CMD_STATUS]; omega)
    (by simp only [Reg.PROT_FDR_STATE, Reg.CMD_EVT_LOST]; omega)) _

theorem protTrip_moved {c : List (Fin 4)} {n : Nat} (h : FieldMoved c n s t) (k : Nat) : protTrip t k = protTrip s k := by
  have hreg : ∀ a, a < Reg.FIO_STATUS → rd t a = rd s a := fun a ha => h.regs a (by omega) (by simp only [Reg.FIO_STATUS, Reg.FIO_DO_STATE] at *; omega)
    (by simp only [Reg.FIO_STATUS, Reg.FIO_TRIP_STATE] at *; omega) (by simp only [Reg.FIO_STATUS, Reg.CMD_STATUS] at *; omega)
    (by simp only [Reg.FIO_STATUS, Reg.CMD_EVT_LOST] at *; omega)
  have hp : ∀ a, a < Reg.FIO_STATUS → ∀ G i, pbit t a G i = pbit s a G i := fun a ha G i => by
    rw [pbit, pbit, pfld, pfld, protReg, protReg, h.prot, hreg a ha]
  have hmap : ∀ f : Fin 8, Reg.PROT_TRIP_MAP f < Reg.FIO_STATUS := by decide
  have hbf : ∀ f : Fin 8, Reg.PROT_BF_MAP f < Reg.FIO_STATUS := by decide
  have h32 : ∀ f : Fin 2, Reg.PROT_32_MAP f < Reg.FIO_STATUS := by decide
  have hblock : ∀ g, fbit t Reg.PROT_BLOCK F.PROT_BLOCK_unit32 g = fbit s Reg.PROT_BLOCK F.PROT_BLOCK_unit32 g := fun g =>
    fbit_of_rd (hreg _ (by decide)) _ _
  unfold protTrip bfHolds acts32
  simp only [fun f : Fin 8 => tripCmd_moved h f, fun f : Fin 8 => hp _ (hmap f), fun f : Fin 8 => hp _ (hbf f), fun f : Fin 2 => hp _ (h32 f), h.prot, hblock]

theorem finRange_split (n : Fin 4) : List.finRange 4 = (List.finRange 4).take n ++ n :: (List.finRange 4).drop (n + 1) ∧
    n ∉ (List.finRange 4).take n ∧ n ∉ (List.finRange 4).drop (n + 1) ∧ ((List.finRange 4).take n).length ≤ 3 := by
  revert n
  decide

theorem forEach_cons_mid {α : Type} (l r : List α) (a : α) (g : α → State → State) (s : State) :
    forEach (l ++ a :: r) g s = forEach r g (g a (forEach l g s)) := by
  simp [forEach]

/-- A driver's ninth disagreement in a row, when its copy is taken with those of the others. -/
theorem frameCopied_ninth {n : Fin 4} (hlink : s.fio.linkOn = true) (h8 : (s.fio.trips[n]).disagree = 8) (hne : strobeOf s n ≠ protTrip s n)
    (hroom : Room 7 s) : ((frameCopied s).fio.trips[n]).disagree = 9 ∧
    Raises 0x9026 n (if strobeOf s n then 1 else 2) s (frameCopied s) := by
  obtain ⟨hsplit, hpre, hpost, hlen⟩ := finRange_split n
  have hbefore := tripsMoved_forEach (c := fun n => [n]) tripsMoved_takeCopy ((List.finRange 4).take n) s
  have hx : FieldMoved (((List.finRange 4).take n).flatMap fun n => [n]) 6 s (forEach ((List.finRange 4).take n) takeCopy s) :=
    (hbefore.mono (by omega)).field
  have hafter := fun x => tripsMoved_forEach (c := fun n => [n]) tripsMoved_takeCopy ((List.finRange 4).drop (n + 1)) x
  have heq : frameCopied s = forEach ((List.finRange 4).drop (n + 1)) takeCopy
      (takeCopy n (forEach ((List.finRange 4).take n) takeCopy s)) := by
    unfold frameCopied
    rw [hsplit, forEach_cons_mid, ← hsplit]
  rw [heq]
  generalize forEach ((List.finRange 4).take n) takeCopy s = x at *
  have hnot : ∀ l : List (Fin 4), n ∉ l → n ∉ l.flatMap fun n => [n] := fun l h => by simpa using h
  have hd : (x.fio.trips[n]).disagree = 8 := (hx.disagree n (hnot _ hpre)).trans h8
  have hst : strobeOf x n ≠ protTrip x n := by rwa [hx.strobe, protTrip_moved hx]
  obtain ⟨h9, hraise⟩ := takeCopy_ninth (hx.linkOn.trans hlink) hd hst (hx.grows.room hroom)
  rw [hx.strobe] at hraise
  exact ⟨((hafter _).disagree n (hnot _ hpost)).trans h9, raises_before (raises_after hx.grows.logGrows hraise) (hafter _).grows.logGrows⟩

theorem strobeMismatch_ninth {n : Fin 4} (hlink : s.fio.linkOn = true) (h8 : (s.fio.trips[n]).disagree = 8) (hne : strobeOf s n ≠ protTrip s n)
    (hroom : Room 16 s) : ∃ t, exec (.strobeMismatch n) s = .next t ∧ (t.fio.trips[n]).disagree = 9 ∧
    Raises 0x9026 n (if strobeOf s n then 1 else 2) s t := by
  have hx := (fieldMoved_begun s).trans (fieldMoved_noted (frameCommands (frameBegun s)) (localNs (frameBegun s)) (frameBegun s))
  have hend := frameEnded_end (frameRead s)
  refine ⟨frameEnded (frameRead s), Eq.trans (b := execStrobeMismatch n s) rfl ?_, ?_⟩
  · rw [execStrobeMismatch, if_pos ⟨hlink, h8, hne⟩, goodFrame_eq]
    rfl
  · unfold frameRead at *
    generalize frameNoted (frameCommands (frameBegun s)) (localNs (frameBegun s)) (frameBegun s) = x at *
    obtain ⟨h9, hraise⟩ := frameCopied_ninth (hx.linkOn.trans hlink) ((hx.disagree n List.not_mem_nil).trans h8)
      (by rwa [hx.strobe, protTrip_moved hx]) (hx.grows.room (by unfold Room at hroom ⊢; omega))
    rw [hx.strobe] at hraise
    exact ⟨(hend.moved.disagree n List.not_mem_nil).trans h9,
      raises_before (raises_after hx.grows.logGrows hraise) hend.moved.grows.logGrows⟩

theorem strobeMismatch_ignored {n : Fin 4} (h : s.fio.linkOn = false ∨ (s.fio.trips[n]).disagree ≠ 8 ∨ strobeOf s n = protTrip s n) :
    exec (.strobeMismatch n) s = .next s :=
  Eq.trans (b := execStrobeMismatch n s) rfl (if_neg (by
    rintro ⟨h1, h2, h3⟩
    exact h.elim (fun h => Bool.noConfusion (h.symm.trans h1)) fun h => h.elim (fun h => h h2) h3))

/-! ### A discarded frame, and the timeout of the link -/

/-- A discarded frame counted. -/
def badCounted (s : State) : State :=
  { wr s Reg.FIO_LINK_STAT (BitVec.ofNat 32 (min 0xFFFFFFFF ((rd s Reg.FIO_LINK_STAT).toNat + 1))) with
    fio := { s.fio with badNew := s.fio.badNew + 1, resumeRun := 0 } }

theorem fieldLinkFrame_bad (hlink : s.fio.linkOn = true) (hroom : Room 1 s) : ∃ t, exec (.fieldLinkFrame false) s = .next t ∧
    rd t Reg.FIO_LINK_STAT = BitVec.ofNat 32 (min 0xFFFFFFFF ((rd s Reg.FIO_LINK_STAT).toNat + 1)) ∧ t.fio.resumeRun = 0 ∧
    t.fio.dos = s.fio.dos ∧ t.fio.trips = s.fio.trips ∧ OnlyRegs [Reg.FIO_LINK_STAT] s t ∧
    Logged (if oncePerSecond s.fio.badLogged s then [(0x9033, 0, BitVec.ofNat 32 (s.fio.badNew + 1))] else []) s t := by
  have hexec : exec (.fieldLinkFrame false) s = .next (badFrame s) :=
    Eq.trans (b := execFieldLinkFrame false s) rfl (by rw [execFieldLinkFrame, hlink]; rfl)
  refine ⟨_, hexec, ?_⟩
  have hreg : rd (badCounted s) Reg.FIO_LINK_STAT = BitVec.ofNat 32 (min 0xFFFFFFFF ((rd s Reg.FIO_LINK_STAT).toNat + 1)) :=
    rd_wr s Reg.FIO_LINK_STAT _
  have honly : OnlyRegs [Reg.FIO_LINK_STAT] s (badCounted s) := fun a ha => rd_wr_ne s _ fun h => ha (List.mem_singleton.mpr h)
  have hbad : badFrame s = if oncePerSecond s.fio.badLogged s then
      { fieldLog 0x9033 0 (s.fio.badNew + 1) (badCounted s) with fio :=
        { (fieldLog 0x9033 0 (s.fio.badNew + 1) (badCounted s)).fio with
          badNew := 0, badLogged := some (localNs (fieldLog 0x9033 0 (s.fio.badNew + 1) (badCounted s))) } }
      else badCounted s := rfl
  have hon : (badCounted s).fio.linkOn = true := hlink
  have hlog : (badCounted s).log = s.log := rfl
  have hfio : (badCounted s).fio = { s.fio with badNew := s.fio.badNew + 1, resumeRun := 0 } := rfl
  have htai : (badCounted s).tai = s.tai := rfl
  generalize badCounted s = x at *
  rw [hbad, fieldLog_on hon]
  have hroom' : x.log.queue.length < 256 := by rw [hlog]; omega
  have hx : (logN 0x9033 0 (s.fio.badNew + 1) x).fio = x.fio := by rw [logN, logEvent_room _ _ _ _ hroom']
  split
  · refine ⟨(rd_logN_room _ _ _ hlog hroom _).trans hreg, ?_, ?_, ?_, fun a ha => (rd_logN_room _ _ _ hlog hroom a).trans (honly a ha),
      logged_congr (logged_logN 0x9033 0 (s.fio.badNew + 1) hlog hroom) rfl rfl⟩ <;> dsimp only <;> rw [hx, hfio]
  · exact ⟨hreg, by rw [hfio], by rw [hfio], by rw [hfio], honly, logged_nil hlog⟩

theorem safeStateEntered_ignored (h : inSafe s = true ∨ s.fio.sleeping = true) : exec .safeStateEntered s = .next s :=
  Eq.trans (b := execSafeStateEntered s) rfl (if_pos h)

theorem safeStateEntered_entered (hs : inSafe s = false) (hw : s.fio.sleeping = false) (hroom : Room 5 s) :
    ∃ t, exec .safeStateEntered s = .next t ∧
    inSafe t = true ∧ flg t Reg.FIO_STATUS F.FIO_STATUS_safe_seen = true ∧ t.fio.resumeRun = 0 ∧ OutputsShown t ∧
    t.fio.holdCmd.toNat = fld s Reg.FIO_DO_STATE F.FIO_DO_STATE_cmd ∧
    s.fio.lastValid + 100000 * fld s Reg.FIO_SAFE_CFG F.FIO_SAFE_CFG_timeout ≤ localNs t ∧ Tells 0x9031 0 1 s t := by
  have hexec : exec .safeStateEntered s =
      .next (enterSafe 1 (reachLocal (s.fio.lastValid + 100000 * fld s Reg.FIO_SAFE_CFG F.FIO_SAFE_CFG_timeout) s)) :=
    Eq.trans (b := execSafeStateEntered s) rfl (if_neg (by simp [hs, hw]))
  refine ⟨_, hexec, ?_⟩
  have hat := localNs_reachLocal (s.fio.lastValid + 100000 * fld s Reg.FIO_SAFE_CFG F.FIO_SAFE_CFG_timeout) s
  generalize s.fio.lastValid + 100000 * fld s Reg.FIO_SAFE_CFG F.FIO_SAFE_CFG_timeout = a at hat ⊢
  have hent := enterSafe_entered (s := reachLocal a s) 1 hs
  exact ⟨hent.safe, hent.seen, hent.resumeRun, hent.shown, hent.holdCmd, hat.trans_eq (localNs_of_ticks hent.moved.ticks).symm, hent.tells hroom⟩

end Frames

end Sys2Proof.Machine
end


section
/-! PROOFS. The inputs and the digital outputs of the field die (R17, R339, R343 to R346). -/

namespace Sys2Proof.Machine

open Sys2Proof Sys2Proof.Safety Sys2Proof.Laws

section Outputs

variable {s x y t : State} {n : Fin 16}

/-! ### Events told or waiting -/

theorem told_nil (hlog : t.log = s.log) (hw : t.fio.unsaid = s.fio.unsaid) : Told [] s t := by
  unfold Told
  split
  · exact logged_nil hlog
  · exact ⟨hlog, hw.trans (List.append_nil _).symm⟩

theorem told_fieldLog {c q e : Nat} (hlog : x.log = s.log) (hw : x.fio.unsaid = s.fio.unsaid) (hlink : x.fio.linkOn = s.fio.linkOn)
    (hroom : Room 1 s) : Told [(c, q, e)] s (fieldLog c q e x) := by
  unfold Told
  cases hl : s.fio.linkOn with
  | true =>
    rw [if_pos rfl, fieldLog_on (hlink.trans hl)]
    exact logged_logN c q e hlog hroom
  | false =>
    rw [if_neg Bool.false_ne_true, fieldLog_off (hlink.trans hl)]
    exact ⟨hlog, by rw [hw]⟩

theorem told_congr {es : List (Nat × Nat × Nat)} (h : Told es s x) (hlog : t.log = x.log) (htai : t.tai = x.tai) (hw : t.fio.unsaid = x.fio.unsaid) :
    Told es s t := by
  unfold Told at h ⊢
  split
  next hl => exact logged_congr (by rwa [if_pos hl] at h) hlog htai
  next hl =>
    rw [if_neg hl] at h
    exact ⟨hlog.trans h.1, hw.trans h.2⟩

theorem rd_fieldLog_room {c q e : Nat} (hroom : Room 1 x) (a : Nat) : rd (fieldLog c q e x) a = rd x a := by
  unfold fieldLog
  split
  · exact rd_logN_room (s := x) c q e rfl hroom a
  · rfl

/-- An event told under a condition. -/
theorem told_whenS {b : Bool} {c q e : Nat} (hlog : x.log = s.log) (hw : x.fio.unsaid = s.fio.unsaid) (hlink : x.fio.linkOn = s.fio.linkOn)
    (hroom : Room 1 s) : Told (if b then [(c, q, e)] else []) s (whenS b (fieldLog c q e) x) ∧
    ∀ a, rd (whenS b (fieldLog c q e) x) a = rd x a := by
  cases b with
  | true => exact ⟨told_fieldLog hlog hw hlink hroom, fun a => rd_fieldLog_room (room_of_log hlog hroom) a⟩
  | false => exact ⟨told_nil hlog hw, fun _ => rfl⟩

/-! ### The inputs (R339) -/

/-- The debounced levels after a sample. -/
def diJudged (raw : BitVec 16) (s : State) : BitVec 16 :=
  BitVec.ofNat 16 ((List.finRange 16).foldl (fun m (n : Fin 16) => putBit m n (debounce s raw n).2) 0)

/-- The runs and the levels of a sample noted. -/
def diNoted (raw : BitVec 16) (k : Nat) (s : State) : State :=
  setF (setF { s with fio := { s.fio with diRun := Vector.ofFn (fun (n : Fin 16) => (debounce s raw n).1), lastDi := some k } }
    Reg.FIO_DI_STATE F.FIO_DI_STATE_raw raw.toNat) Reg.FIO_DI_STATE F.FIO_DI_STATE_debounced (diJudged raw s).toNat

/-- The levels before a sample. -/
def diBefore (s : State) : BitVec 16 := BitVec.ofNat 16 (fld s Reg.FIO_DI_STATE F.FIO_DI_STATE_debounced)

/-- The instant of the next sample, in units of 100 µs. -/
def diNext (s : State) : Nat :=
  match s.fio.lastDi with | none => (nowNat s + 99999) / 100000 | some l => max ((nowNat s + 99999) / 100000) (l + 1)

theorem execDiSample_eq (raw : BitVec 16) (s : State) : execDiSample raw s =
    if !(reachNs s (BitVec.ofNat 64 (diNext s * 100000))).fio.linkOn then
      .next { reachNs s (BitVec.ofNat 64 (diNext s * 100000)) with
        fio := { (reachNs s (BitVec.ofNat 64 (diNext s * 100000))).fio with lastDi := some (diNext s) } }
    else .next (edgeSample (diBefore (reachNs s (BitVec.ofNat 64 (diNext s * 100000)))) (diJudged raw (reachNs s (BitVec.ofNat 64 (diNext s * 100000))))
      (diNoted raw (diNext s) (reachNs s (BitVec.ofNat 64 (diNext s * 100000))))) := rfl

theorem edgeSample_fields (old new : BitVec 16) (s : State) : (edgeSample old new s).regs = s.regs ∧ (edgeSample old new s).fio = s.fio ∧
    (edgeSample old new s).log = s.log ∧ (edgeSample old new s).tai = s.tai := ⟨rfl, rfl, rfl, rfl⟩

theorem edgeSample_rise {old new : BitVec 16} (h0 : old.getLsbD n = false) (h1 : new.getLsbD n = true) (c : Fin 2) :
    (((edgeSample old new s).scan.cores[c]).edges[n]).rise = (((s.scan.cores[c]).edges[n]).rise).edge (now s) := by
  have h0' : old[n.val] = false := h0
  simp [edgeSample, h0', h1]

theorem getLsbD_diBefore (s : State) (n : Fin 16) : (diBefore s).getLsbD n = fbit s Reg.FIO_DI_STATE F.FIO_DI_STATE_debounced n := by
  rw [diBefore, BitVec.getLsbD_ofNat, decide_eq_true n.isLt, Bool.true_and]
  rfl

theorem getLsbD_diJudged (raw : BitVec 16) (s : State) (n : Fin 16) : (diJudged raw s).getLsbD n = (debounce s raw n).2 := by
  rw [diJudged, BitVec.getLsbD_ofNat, decide_eq_true n.isLt, Bool.true_and]
  exact testBit_putFin (fun n => (debounce s raw n).2) n

/-- What a sample that came over the link leaves. -/
structure DiSampled (raw : BitVec 16) (k : Nat) (s t : State) : Prop where
  last : t.fio.lastDi = some k
  raw' : fld t Reg.FIO_DI_STATE F.FIO_DI_STATE_raw = raw.toNat
  only : OnlyRegs [Reg.FIO_DI_STATE] s t
  log : t.log = s.log
  tai : t.tai = s.tai
  level : ∀ n : Fin 16, fbit t Reg.FIO_DI_STATE F.FIO_DI_STATE_debounced n = (debounce s raw n).2
  run : ∀ n : Fin 16, t.fio.diRun[n] = (debounce s raw n).1
  rise : ∀ n : Fin 16, fbit s Reg.FIO_DI_STATE F.FIO_DI_STATE_debounced n = false → (debounce s raw n).2 = true → ∀ c : Fin 2,
    ((t.scan.cores[c]).edges[n]).rise = (((s.scan.cores[c]).edges[n]).rise).edge (now t)

theorem diSampled_effect (raw : BitVec 16) (k : Nat) (s : State) :
    DiSampled raw k s (edgeSample (diBefore s) (diJudged raw s) (diNoted raw k s)) := by
  have hraw : fld (diNoted raw k s) Reg.FIO_DI_STATE F.FIO_DI_STATE_raw = raw.toNat :=
    (fld_setF_disj _ _ _ _ _ (by decide)).trans ((fld_setF _ _ _ _ (by decide)).trans (Nat.mod_eq_of_lt raw.isLt))
  have hlevel : ∀ n : Fin 16, fbit (diNoted raw k s) Reg.FIO_DI_STATE F.FIO_DI_STATE_debounced n = (debounce s raw n).2 := fun n =>
    (fbit_setF_put _ _ F.FIO_DI_STATE_debounced _ (by decide) n.isLt).trans (getLsbD_diJudged raw s n)
  have honly : OnlyRegs [Reg.FIO_DI_STATE] s (diNoted raw k s) := fun a ha =>
    (rd_setF_ne _ _ _ (fun h => ha (List.mem_singleton.mpr h))).trans (rd_setF_ne _ _ _ fun h => ha (List.mem_singleton.mpr h))
  have hfio : (diNoted raw k s).fio.lastDi = some k ∧
      (diNoted raw k s).fio.diRun = Vector.ofFn (fun (n : Fin 16) => (debounce s raw n).1) := ⟨rfl, rfl⟩
  have hrest : (diNoted raw k s).log = s.log ∧ (diNoted raw k s).tai = s.tai ∧ (diNoted raw k s).scan = s.scan := ⟨rfl, rfl, rfl⟩
  obtain ⟨hlast, hrun⟩ := hfio
  obtain ⟨hlog, htai, hscan⟩ := hrest
  generalize diNoted raw k s = x at *
  obtain ⟨hregs, hfio', hlog', htai'⟩ := edgeSample_fields (diBefore s) (diJudged raw s) x
  refine ⟨by rw [hfio', hlast], (fld_of_regs hregs _ _).trans hraw, fun a ha => (rd_of_regs hregs a).trans (honly a ha), hlog'.trans hlog,
    htai'.trans htai, fun n => (fbit_of_rd (rd_of_regs hregs _) _ _).trans (hlevel n), fun n => ?_, fun n h0 h1 c => ?_⟩
  · rw [hfio', hrun]
    simp
  · rw [edgeSample_rise ((getLsbD_diBefore s n).trans h0) ((getLsbD_diJudged raw s n).trans h1), hscan, now_of_tai htai']

theorem reachNs_fio (s : State) (i : BitVec 64) : (reachNs s i).fio = s.fio := rfl

/-- What a sample leaves at its instant. -/
def DiReached (raw : BitVec 16) (k at' : Nat) (s t : State) : Prop :=
  t.fio.lastDi = some k ∧ at' ≤ nowNat t ∧
    (s.fio.linkOn = false → OnlyRegs [] s t ∧ t.log = s.log ∧ t.scan = s.scan) ∧
    (s.fio.linkOn = true → fld t Reg.FIO_DI_STATE F.FIO_DI_STATE_raw = raw.toNat ∧ OnlyRegs [Reg.FIO_DI_STATE] s t ∧ t.log = s.log ∧
      ∀ n : Fin 16, fbit t Reg.FIO_DI_STATE F.FIO_DI_STATE_debounced n = (debounce s raw n).2 ∧
        t.fio.diRun[n] = (debounce s raw n).1 ∧
        (fbit s Reg.FIO_DI_STATE F.FIO_DI_STATE_debounced n = false → (debounce s raw n).2 = true → ∀ c : Fin 2,
          ((t.scan.cores[c]).edges[n]).rise.flag = true ∧
          ((t.scan.cores[c]).edges[n]).rise.n = min 255 (((s.scan.cores[c]).edges[n]).rise.n + 1) ∧
          (((s.scan.cores[c]).edges[n]).rise.flag = false → ((t.scan.cores[c]).edges[n]).rise.at' = now t)))

/-- A sample at its instant. -/
theorem diReached {raw : BitVec 16} {k at' : Nat} (hat : at' ≤ nowNat y) (hscan : y.scan = s.scan) (hregs : y.regs = s.regs) (hlog : y.log = s.log)
    (hfio : y.fio = s.fio) : ∃ t, (if !y.fio.linkOn then Host.Outcome.next { y with fio := { y.fio with lastDi := some k } }
      else .next (edgeSample (diBefore y) (diJudged raw y) (diNoted raw k y))) = (.next t : Out) ∧ DiReached raw k at' s t := by
  have hdeb : ∀ n, debounce y raw n = debounce s raw n := fun n => by
    unfold debounce fbit
    rw [hfio, fld_of_regs hregs, fld_of_regs hregs, fld_of_regs hregs]
  cases hl : s.fio.linkOn with
  | false =>
    refine ⟨_, if_pos (by rw [hfio, hl]; rfl), rfl, hat.trans_eq (nowNat_of_tai rfl).symm,
      fun _ => ⟨fun a _ => rd_of_regs hregs a, hlog, hscan⟩, fun h => Bool.noConfusion (hl.symm.trans h)⟩
  | true =>
    have h := diSampled_effect raw k y
    refine ⟨_, if_neg (by rw [hfio, hl]; exact Bool.false_ne_true), h.last, by rwa [nowNat_of_tai h.tai],
      fun h => Bool.noConfusion (hl.symm.trans h), fun _ =>
      ⟨h.raw', fun a ha => (h.only a ha).trans (rd_of_regs hregs a), h.log.trans hlog, fun n => ⟨by rw [h.level, hdeb], by rw [h.run, hdeb],
        fun h0 h1 c => ?_⟩⟩⟩
    have hr := h.rise n ((fbit_of_rd (rd_of_regs hregs _) _ _).trans h0) (by rw [hdeb, h1]) c
    rw [hr, hscan]
    exact ⟨rfl, rfl, fun hflag => if_neg (by rw [hflag]; exact Bool.false_ne_true)⟩

theorem diSample_sampled (raw : BitVec 16) (hfit : diNext s * 100000 + 1 < 2 ^ 64) : ∃ t, exec (.diSample raw) s = .next t ∧
    t.fio.lastDi = some (diNext s) ∧ diNext s * 100000 ≤ nowNat t ∧
    (s.fio.linkOn = false → OnlyRegs [] s t ∧ t.log = s.log ∧ t.scan = s.scan) ∧
    (s.fio.linkOn = true → fld t Reg.FIO_DI_STATE F.FIO_DI_STATE_raw = raw.toNat ∧ OnlyRegs [Reg.FIO_DI_STATE] s t ∧ t.log = s.log ∧
      ∀ n : Fin 16, fbit t Reg.FIO_DI_STATE F.FIO_DI_STATE_debounced n = (debounce s raw n).2 ∧
        t.fio.diRun[n] = (debounce s raw n).1 ∧
        (fbit s Reg.FIO_DI_STATE F.FIO_DI_STATE_debounced n = false → (debounce s raw n).2 = true → ∀ c : Fin 2,
          ((t.scan.cores[c]).edges[n]).rise.flag = true ∧
          ((t.scan.cores[c]).edges[n]).rise.n = min 255 (((s.scan.cores[c]).edges[n]).rise.n + 1) ∧
          (((s.scan.cores[c]).edges[n]).rise.flag = false → ((t.scan.cores[c]).edges[n]).rise.at' = now t))) := by
  have hexec : exec (.diSample raw) s = execDiSample raw s := rfl
  rw [hexec, execDiSample_eq]
  have hat := le_nowNat_ofNat hfit s
  obtain ⟨hscan, hregs, hlog⟩ := reachNs_scan s (BitVec.ofNat 64 (diNext s * 100000))
  have hfio := reachNs_fio s (BitVec.ofNat 64 (diNext s * 100000))
  generalize hy : reachNs s (BitVec.ofNat 64 (diNext s * 100000)) = y at hat hscan hregs hlog hfio ⊢
  exact diReached hat hscan hregs hlog hfio

/-! ### Overload and retry (R343) -/

theorem doOn_of_held (h : (s.fio.dos[n]).latched = true ∨ (s.fio.dos[n]).waiting = true) : doOn s n = false := by
  unfold doOn
  dsimp only
  rw [if_pos h]
  split
  · rfl
  · split <;> rfl

theorem dos_setDo (n m : Fin 16) (d : DoDriver) (s : State) : (setDo n d s).fio.dos[m] = if m = n then d else s.fio.dos[m] := by
  by_cases h : m = n
  · subst h
    simp [setDo]
  · rw [if_neg h]
    simp [setDo, Fin.val_ne_of_ne (Ne.symm h)]

/-- Did a retry of an output fail within the time that one must last? -/
def retryFailed (n : Fin 16) (s : State) : Bool :=
  match (s.fio.dos[n]).retryAt with | none => false | some t => decide (localNs s ≤ t + 11000000)

/-- The failures in a row of an output that turns off now. -/
def failuresNow (n : Fin 16) (s : State) : Nat := if retryFailed n s then (s.fio.dos[n]).retries + 1 else 0

/-- Does an output have retries, and does it turn off for good now? -/
def retries' (n : Fin 16) (s : State) : Bool := flg s (Reg.FIO_DO_CFG n) F.FIO_DO_CFG_retry
def lastFailure (n : Fin 16) (s : State) : Bool := retries' n s && decide (3 ≤ failuresNow n s)

/-- An overload noted in the driver and in FIO_DO_FAULT. -/
def overloadNoted (n : Fin 16) (s : State) : State :=
  setFbit (setDo n ⟨!retries' n s || lastFailure n s, retries' n s && !lastFailure n s, failuresNow n s, localNs s, none⟩ s)
    Reg.FIO_DO_FAULT F.FIO_DO_FAULT_overload n true

theorem doOverload_eq (hot : Bool) (h : doOn s n = true) : exec (.doOverload n hot) s =
    .next (refreshDo (fieldLog 0x9011 n (if lastFailure n s then 3 else if hot then 2 else 1) (overloadNoted n s))) :=
  Eq.trans (b := execDoOverload n hot s) rfl (if_neg (by rw [h]; exact Bool.false_ne_true))

theorem doOverload_ignored (hot : Bool) (h : doOn s n = false) : exec (.doOverload n hot) s = .next s :=
  Eq.trans (b := execDoOverload n hot s) rfl (if_pos (by rw [h]; rfl))

theorem fio_fieldLog_dos (c q e : Nat) (s : State) : (fieldLog c q e s).fio.dos = s.fio.dos := by
  obtain ⟨⟨u, hu⟩, -⟩ := fieldLog_effect c q e s
  rw [hu]

theorem doOverload_effect (hot : Bool) (h : doOn s n = true) (hroom : Room 1 s) : ∃ t, exec (.doOverload n hot) s = .next t ∧ doOn t n = false ∧
    OutputsShown t ∧ fbit t Reg.FIO_DO_FAULT F.FIO_DO_FAULT_overload n = true ∧
    t.fio.dos[n] = ⟨!retries' n s || lastFailure n s, retries' n s && !lastFailure n s, failuresNow n s, localNs s, none⟩ ∧
    (∀ m : Fin 16, m ≠ n → t.fio.dos[m] = s.fio.dos[m]) ∧ Told [(0x9011, n, if lastFailure n s then 3 else if hot then 2 else 1)] s t ∧
    OnlyRegs [Reg.FIO_DO_FAULT, Reg.FIO_DO_STATE] s t := by
  refine ⟨_, doOverload_eq hot h, ?_⟩
  have hdos := fun m => dos_setDo n m ⟨!retries' n s || lastFailure n s, retries' n s && !lastFailure n s, failuresNow n s, localNs s, none⟩ s
  have hx : (overloadNoted n s).fio = (setDo n ⟨!retries' n s || lastFailure n s, retries' n s && !lastFailure n s, failuresNow n s, localNs s, none⟩ s).fio :=
    rfl
  have hfio : (overloadNoted n s).fio.unsaid = s.fio.unsaid ∧ (overloadNoted n s).fio.linkOn = s.fio.linkOn := ⟨rfl, rfl⟩
  have hlog : (overloadNoted n s).log = s.log := rfl
  have hbit : fbit (overloadNoted n s) Reg.FIO_DO_FAULT F.FIO_DO_FAULT_overload n = true :=
    (fbit_setFbit _ _ _ _ _ _ (by decide) n.isLt).trans (if_pos rfl)
  have honly : ∀ a, a ≠ Reg.FIO_DO_FAULT → rd (overloadNoted n s) a = rd s a := fun a ha => rd_setF_ne _ _ _ ha
  generalize lastFailure n s = last at *
  generalize retries' n s = retry at *
  generalize overloadNoted n s = x at *
  have hroom' : Room 1 x := room_of_log hlog hroom
  have hdos' : (fieldLog 0x9011 n (if last then 3 else if hot then 2 else 1) x).fio.dos = x.fio.dos := fio_fieldLog_dos ..
  have hrd : ∀ a, rd (fieldLog 0x9011 n (if last then 3 else if hot then 2 else 1) x) a = rd x a := rd_fieldLog_room hroom'
  have htold : Told [(0x9011, n.val, if last then 3 else if hot then 2 else 1)] s (fieldLog 0x9011 n (if last then 3 else if hot then 2 else 1) x) :=
    told_fieldLog hlog hfio.1 hfio.2 hroom
  generalize fieldLog 0x9011 n (if last then 3 else if hot then 2 else 1) x = y at *
  have hn : y.fio.dos[n] = ⟨!retry || last, retry && !last, failuresNow n s, localNs s, none⟩ := by rw [hdos', hx, hdos, if_pos rfl]
  refine ⟨?_, shown_refreshDo y, ?_, hn, fun m hm => ?_, told_congr htold rfl rfl rfl, fun a ha => ?_⟩
  · rw [(outputsSame_refreshDo y).doOn]
    refine doOn_of_held ?_
    rw [hn]
    cases retry <;> cases last <;> simp
  · rw [fbit_of_rd (rd_refreshDo y (by decide)), fbit_of_rd (hrd _)]
    exact hbit
  · show y.fio.dos[m] = _
    rw [hdos', hx, hdos, if_neg hm]
  · rw [rd_refreshDo y (by rintro rfl; exact ha (by decide)), hrd, honly a (by rintro rfl; exact ha (by decide))]

theorem doRetry_effect (h : (s.fio.dos[n]).waiting = true) : ∃ t, exec (.doRetry n) s = .next t ∧
    (s.fio.dos[n]).offAt + 1000000000 ≤ localNs t ∧ OutputsShown t ∧
    t.fio.dos[n] = { s.fio.dos[n] with waiting := false, retryAt := some (localNs t) } ∧ t.log = s.log ∧ OnlyRegs [Reg.FIO_DO_STATE] s t := by
  have hexec : ∀ a, a = (s.fio.dos[n]).offAt + 1000000000 → exec (.doRetry n) s = .next (refreshDo (setDo n
      { (reachLocal a s).fio.dos[n] with waiting := false, retryAt := some (localNs (reachLocal a s)) } (reachLocal a s))) := by
    rintro _ rfl
    exact Eq.trans (b := execDoRetry n s) rfl (if_pos h)
  obtain ⟨a, ha⟩ : ∃ a, a = (s.fio.dos[n]).offAt + 1000000000 := ⟨_, rfl⟩
  refine ⟨_, hexec a ha, ?_⟩
  rw [← ha]
  refine ⟨localNs_reachLocal a s, shown_refreshDo _, ?_, rfl, fun b hb => rd_refreshDo _ fun h => hb (List.mem_singleton.mpr h)⟩
  exact (dos_setDo n n _ _).trans (if_pos rfl)

theorem doRetry_ignored (h : (s.fio.dos[n]).waiting = false) : exec (.doRetry n) s = .next s :=
  Eq.trans (b := execDoRetry n s) rfl (if_neg (by rw [h]; exact Bool.false_ne_true))

end Outputs

end Sys2Proof.Machine
end


section
/-! PROOFS. The release of overloads, the clamp pulses and the off-state monitor of the field die (R343 to R346). -/

namespace Sys2Proof.Machine

open Sys2Proof Sys2Proof.Safety Sys2Proof.Laws

section Diagnosis

variable {s x y t : State} {n : Fin 16} {m : Fin 8} {v : Word}

/-! ### The release of overloads (R343) -/

theorem write32Reg_FIO {r : RegSpec} {a : Nat} (v : Word) (s : State) (h : a / 0x10000 = 0x400B) : write32Reg m r a v s = writeFio r a v s := by
  simp only [write32Reg, writeBlockReg, h]
  rfl

/-- A write of FIO_DO_FAULT while the field die is silent changes what the control die holds. -/
theorem regCommand_DO_FAULT_silent (hs : Served m true Reg.FIO_DO_FAULT 4 s) (h : s.fio.seen.isSome = true) :
    ∃ r, regCommand m Reg.FIO_DO_FAULT v s = silentWrite r Reg.FIO_DO_FAULT v (reply .done s) := by
  obtain ⟨r, -, hr⟩ := regCommand_narrow v (by decide : narrowAt Reg.FIO_DO_FAULT Reg.FIO_DO_FAULT) hs
  refine ⟨r, hr.trans ((write32Reg_FIO v _ (by decide)).trans ?_)⟩
  unfold writeFio
  exact if_pos h

theorem regCommand_DO_FAULT (hs : Served m true Reg.FIO_DO_FAULT 4 s) (h : s.fio.seen = none) :
    regCommand m Reg.FIO_DO_FAULT v s = writeDoFault v (reply .done s) := by
  obtain ⟨r, hb, hr⟩ := regCommand_narrow v (by decide : narrowAt Reg.FIO_DO_FAULT Reg.FIO_DO_FAULT) hs
  refine hr.trans ((write32Reg_FIO v _ (by decide)).trans ?_)
  have hseen : ¬ (reply .done s).fio.seen.isSome = true := by
    rw [show (reply .done s).fio.seen = none from h]
    exact Bool.false_ne_true
  unfold writeFio
  dsimp only
  rw [if_neg hseen, if_neg (by decide), if_neg (by decide), if_neg (by rw [hb]; decide), if_pos rfl]

theorem silentWrite_kept (r : RegSpec) (a : Nat) (v : Word) (s : State) : (silentWrite r a v s).regs = s.regs ∧
    (silentWrite r a v s).busReply = s.busReply ∧ (silentWrite r a v s).fio.dos = s.fio.dos := by
  unfold silentWrite
  split
  · exact ⟨rfl, rfl, rfl⟩
  · exact ⟨rfl, rfl, rfl⟩

/-- An output whose overload is released. -/
def freed (d : DoDriver) : DoDriver := { d with latched := false, waiting := false, retries := 0, retryAt := none }

/-- The overload of one output released where a bit of the word says so. -/
def releaseOne (v : Word) (n : Fin 16) (s : State) : State := if v.getLsbD n then setDo n (freed s.fio.dos[n]) s else s

theorem releaseAll_kept (v : Word) (l : List (Fin 16)) (s : State) : (forEach l (releaseOne v) s).regs = s.regs ∧
    (forEach l (releaseOne v) s).log = s.log ∧ (forEach l (releaseOne v) s).busReply = s.busReply :=
  forEach_keeps (P := fun t => t.regs = s.regs ∧ t.log = s.log ∧ t.busReply = s.busReply) (fun n _ y h => by
    unfold releaseOne
    split
    · exact h
    · exact h) ⟨rfl, rfl, rfl⟩

theorem releaseAll_dos (v : Word) (l : List (Fin 16)) (s : State) (i : Fin 16) :
    (forEach l (releaseOne v) s).fio.dos[i] = if i ∈ l ∧ v.getLsbD i then freed s.fio.dos[i] else s.fio.dos[i] := by
  induction l generalizing s with
  | nil => simp [forEach]
  | cons n l ih =>
    refine (ih (releaseOne v n s)).trans ?_
    have hone : (releaseOne v n s).fio.dos[i] = if i = n ∧ v.getLsbD n then freed s.fio.dos[n] else s.fio.dos[i] := by
      unfold releaseOne
      split
      next hb =>
        refine (dos_setDo n i _ s).trans ?_
        simp [hb]
      next hb => simp [hb]
    rw [hone]
    by_cases hi : i = n
    · subst hi
      cases v.getLsbD i <;> simp [freed]
    · simp [hi]

/-- The word of FIO_DO_FAULT after a release. -/
def overloadsLeft (v : Word) (s : State) : Nat :=
  ((BitVec.ofNat 16 (fld s Reg.FIO_DO_FAULT F.FIO_DO_FAULT_overload)) &&& ~~~(v.extractLsb' 0 16)).toNat

theorem writeDoFault_eq (v : Word) (s : State) : writeDoFault v s = refreshDo (forEach (List.finRange 16) (releaseOne v)
    (setF s Reg.FIO_DO_FAULT F.FIO_DO_FAULT_overload (overloadsLeft v s))) := rfl

theorem testBit_overloadsLeft (v : Word) (s : State) (i : Fin 16) : (overloadsLeft v s).testBit i =
    (fbit s Reg.FIO_DO_FAULT F.FIO_DO_FAULT_overload i && !v.getLsbD i) := by
  rw [overloadsLeft, BitVec.testBit_toNat, BitVec.getLsbD_and, BitVec.getLsbD_not, BitVec.getLsbD_extractLsb', BitVec.getLsbD_ofNat,
    decide_eq_true i.isLt, Nat.zero_add]
  simp [fbit]

/-- What a release of overloads leaves. -/
theorem writeDoFault_effect (v : Word) (s : State) : OutputsShown (writeDoFault v s) ∧ (writeDoFault v s).log = s.log ∧
    (writeDoFault v s).busReply = s.busReply ∧ OnlyRegs [Reg.FIO_DO_FAULT, Reg.FIO_DO_STATE] s (writeDoFault v s) ∧
    fld (writeDoFault v s) Reg.FIO_DO_FAULT F.FIO_DO_FAULT_ext_drive = fld s Reg.FIO_DO_FAULT F.FIO_DO_FAULT_ext_drive ∧
    ∀ i : Fin 16, fbit (writeDoFault v s) Reg.FIO_DO_FAULT F.FIO_DO_FAULT_overload i =
        (fbit s Reg.FIO_DO_FAULT F.FIO_DO_FAULT_overload i && !v.getLsbD i) ∧
      (writeDoFault v s).fio.dos[i] = if v.getLsbD i then freed s.fio.dos[i] else s.fio.dos[i] := by
  rw [writeDoFault_eq]
  obtain ⟨x, hx⟩ : ∃ x, setF s Reg.FIO_DO_FAULT F.FIO_DO_FAULT_overload (overloadsLeft v s) = x := ⟨_, rfl⟩
  have hbit : ∀ i : Fin 16, fbit x Reg.FIO_DO_FAULT F.FIO_DO_FAULT_overload i = (fbit s Reg.FIO_DO_FAULT F.FIO_DO_FAULT_overload i && !v.getLsbD i) :=
    fun i => by rw [← hx, fbit_setF_put _ _ _ _ (by decide) i.isLt, testBit_overloadsLeft]
  have hext : fld x Reg.FIO_DO_FAULT F.FIO_DO_FAULT_ext_drive = fld s Reg.FIO_DO_FAULT F.FIO_DO_FAULT_ext_drive := by
    rw [← hx]
    exact fld_setF_disj _ _ _ _ _ (by decide)
  have honly : ∀ a, a ≠ Reg.FIO_DO_FAULT → rd x a = rd s a := fun a ha => by rw [← hx, rd_setF_ne _ _ _ ha]
  have hrest : x.log = s.log ∧ x.busReply = s.busReply ∧ x.fio = s.fio := by
    rw [← hx]
    exact ⟨rfl, rfl, rfl⟩
  obtain ⟨hlog, hreply, hfio⟩ := hrest
  rw [hx]
  clear hx
  obtain ⟨hregs, hlog', hreply'⟩ := releaseAll_kept v (List.finRange 16) x
  have hdos := releaseAll_dos v (List.finRange 16) x
  generalize forEach (List.finRange 16) (releaseOne v) x = y at *
  have hfault : rd (refreshDo y) Reg.FIO_DO_FAULT = rd x Reg.FIO_DO_FAULT := (rd_refreshDo y (by decide)).trans (rd_of_regs hregs _)
  refine ⟨shown_refreshDo y, hlog'.trans hlog, hreply'.trans hreply, fun a ha => ?_, (fld_of_rd hfault _).trans hext,
    fun i => ⟨(fbit_of_rd hfault _ _).trans (hbit i), (hdos i).trans (by simp [hfio])⟩⟩
  rw [rd_refreshDo y (by rintro rfl; exact ha (by decide)), rd_of_regs hregs, honly a (by rintro rfl; exact ha (by decide))]

theorem getLsbD_withBit (v : Word) (n i : Fin 16) : (withBit v n).getLsbD i = (v.getLsbD i || decide (i = n)) := by
  have hi := i.isLt
  rw [withBit, BitVec.getLsbD_or, BitVec.getLsbD_shiftLeft, BitVec.getLsbD_one]
  congr 1
  by_cases h : i = n
  · subst h
    simp
    omega
  · have : (i : Nat) ≠ n := Fin.val_ne_of_ne h
    simp [h]
    omega

theorem doOverloadRelease_silent (n : Fin 16) (hs : Served m true Reg.FIO_DO_FAULT 4 s) (h : s.fio.seen.isSome = true) :
    ∃ t, exec (.doOverloadRelease m n v) s = .next t ∧ t.busReply = .done ∧ OnlyRegs [] s t ∧ t.fio.dos = s.fio.dos := by
  obtain ⟨r, hr⟩ := regCommand_DO_FAULT_silent (v := withBit v n) hs h
  obtain ⟨hregs, hreply, hdos⟩ := silentWrite_kept r Reg.FIO_DO_FAULT (withBit v n) (reply .done s)
  exact ⟨_, Eq.trans (b := execDoOverloadRelease m n v s) rfl (congrArg Host.Outcome.next hr), hreply, fun a _ => rd_of_regs (s := reply .done s) hregs a, hdos⟩

theorem doOverloadRelease_effect (n : Fin 16) (hs : Served m true Reg.FIO_DO_FAULT 4 s) (h : s.fio.seen = none) :
    ∃ t, exec (.doOverloadRelease m n v) s = .next t ∧ t.busReply = .done ∧ OutputsShown t ∧ t.log = s.log ∧
      OnlyRegs [Reg.FIO_DO_FAULT, Reg.FIO_DO_STATE] s t ∧
      fld t Reg.FIO_DO_FAULT F.FIO_DO_FAULT_ext_drive = fld s Reg.FIO_DO_FAULT F.FIO_DO_FAULT_ext_drive ∧
      ∀ i : Fin 16, if i = n ∨ v.getLsbD i then fbit t Reg.FIO_DO_FAULT F.FIO_DO_FAULT_overload i = false ∧
          t.fio.dos[i] = { s.fio.dos[i] with latched := false, waiting := false, retries := 0, retryAt := none }
        else fbit t Reg.FIO_DO_FAULT F.FIO_DO_FAULT_overload i = fbit s Reg.FIO_DO_FAULT F.FIO_DO_FAULT_overload i ∧
          t.fio.dos[i] = s.fio.dos[i] := by
  obtain ⟨hshown, hlog, hreply, honly, hext, heach⟩ := writeDoFault_effect (withBit v n) (reply .done s)
  refine ⟨_, Eq.trans (b := execDoOverloadRelease m n v s) rfl (congrArg Host.Outcome.next (regCommand_DO_FAULT hs h)), hreply, hshown, hlog, honly, hext,
    fun i => ?_⟩
  obtain ⟨hbit, hdos⟩ := heach i
  rw [getLsbD_withBit] at hbit hdos
  split
  next hc =>
    have hb : (v.getLsbD i || decide (i = n)) = true := by simpa [or_comm] using hc
    rw [hb] at hbit hdos
    exact ⟨hbit.trans (Bool.and_false _), hdos⟩
  next hc =>
    have hb : (v.getLsbD i || decide (i = n)) = false := by simpa [and_comm] using hc
    rw [hb] at hbit hdos
    exact ⟨hbit.trans (Bool.and_true _), hdos⟩

/-! ### The clamp pulses (R344) -/

/-- The clamp pulses of the last second after one more. -/
def pulsesKept (n : Fin 16) (mj : Nat) (s : State) : List (Nat × Nat × Nat) :=
  (s.fio.pulses ++ [(groupOfDo n, localNs s, mj)]).filter fun p => localNs s < p.2.1 + 1000000000

/-- A clamp pulse noted. -/
def pulseNoted (n : Fin 16) (mj : Nat) (s : State) : State := { s with fio := { s.fio with pulses := pulsesKept n mj s } }

/-- The pulses of the group of an output in the last second. -/
def pulsesOf (n : Fin 16) (mj : Nat) (s : State) : List Nat := ((pulsesKept n mj s).filter fun p => p.1 == groupOfDo n).map fun p => p.2.2

theorem recentPulses_noted (n : Fin 16) (mj : Nat) (s : State) : recentPulses (pulseNoted n mj s) (groupOfDo n) = pulsesOf n mj s := by
  have hat : localNs (pulseNoted n mj s) = localNs s := rfl
  have hp : (pulseNoted n mj s).fio.pulses = pulsesKept n mj s := rfl
  unfold recentPulses pulsesOf
  rw [hat, hp, pulsesKept, List.filter_filter, List.filter_filter]
  congr 2
  funext p
  cases decide (localNs s < p.2.1 + 1000000000) <;> simp

/-- The sum and the peak of some pulses as FIO_DEMAG shows them. -/
def demagOf (l : List Nat) : Word := BitVec.ofNat 32 (min 65535 (l.foldl (· + ·) 0) * 0x10000 + min 65535 (l.foldl max 0))

theorem getF_pair {a b : Nat} (ha : a < 65536) (hb : b < 65536) : getF (BitVec.ofNat 32 (a * 0x10000 + b)) ⟨16, 16⟩ = a ∧
    getF (BitVec.ofNat 32 (a * 0x10000 + b)) ⟨0, 16⟩ = b := by
  have hw : (BitVec.ofNat 32 (a * 0x10000 + b)).toNat = a * 0x10000 + b := BitVec.toNat_ofNat .. |>.trans (Nat.mod_eq_of_lt (by omega))
  unfold getF
  rw [BitVec.extractLsb'_toNat, BitVec.extractLsb'_toNat, hw, Nat.shiftRight_eq_div_pow, Nat.shiftRight_eq_div_pow]
  refine ⟨?_, ?_⟩
  · show (a * 65536 + b) / 65536 % 65536 = a
    omega
  · show (a * 65536 + b) / 1 % 65536 = b
    omega

theorem demagOf_fields (l : List Nat) : getF (demagOf l) F.FIO_DEMAG_sum_mj = min 65535 (l.foldl (· + ·) 0) ∧
    getF (demagOf l) F.FIO_DEMAG_peak_mj = min 65535 (l.foldl max 0) :=
  getF_pair (Nat.lt_succ_of_le (Nat.min_le_left 65535 _)) (Nat.lt_succ_of_le (Nat.min_le_left 65535 _))

/-- A clamp pulse shown. -/
def pulseShown (n : Fin 16) (mj : Nat) (s : State) : State :=
  wr (pulseNoted n mj s) (Reg.FIO_DEMAG (groupOfDo n)) (demagOf (pulsesOf n mj s))

theorem execDemagExcess_eq (n : Fin 16) (mj : Nat) (s : State) : execDemagExcess n mj s =
    if 250 < mj ∨ 1500 < (pulsesOf n mj s).foldl (· + ·) 0 then
      .next (fieldLog 0x9014 n (min 65535 mj * 0x10000 + min 65535 ((pulsesOf n mj s).foldl (· + ·) 0))
        (setFbit (pulseShown n mj s) Reg.FIO_DO_DIAG F.FIO_DO_DIAG_demag_excess n true))
    else .next (pulseShown n mj s) := by
  unfold pulseShown demagOf
  rw [← recentPulses_noted]
  rfl

/-- A clamp pulse beyond the limits, shown in FIO_DO_DIAG and told. -/
theorem excess_effect {r : Nat} (n : Fin 16) (arg : Nat) (hne : r ≠ Reg.FIO_DO_DIAG) (hlog : x.log = s.log) (hw : x.fio.unsaid = s.fio.unsaid)
    (hlink : x.fio.linkOn = s.fio.linkOn) (hroom : Room 1 s) (honly : ∀ a, a ≠ r → rd x a = rd s a) :
    let t := fieldLog 0x9014 n arg (setFbit x Reg.FIO_DO_DIAG F.FIO_DO_DIAG_demag_excess n true)
    rd t r = rd x r ∧ OnlyRegs [r, Reg.FIO_DO_DIAG] s t ∧ fbit t Reg.FIO_DO_DIAG F.FIO_DO_DIAG_demag_excess n = true ∧
      Told [(0x9014, n.val, arg)] s t := by
  dsimp only
  have hbit : fbit (setFbit x Reg.FIO_DO_DIAG F.FIO_DO_DIAG_demag_excess n true) Reg.FIO_DO_DIAG F.FIO_DO_DIAG_demag_excess n = true :=
    (fbit_setFbit _ _ _ _ _ _ (by decide) n.isLt).trans (if_pos rfl)
  have hother : ∀ a, a ≠ Reg.FIO_DO_DIAG → rd (setFbit x Reg.FIO_DO_DIAG F.FIO_DO_DIAG_demag_excess n true) a = rd x a :=
    fun a ha => rd_setF_ne _ _ _ ha
  have hrest : (setFbit x Reg.FIO_DO_DIAG F.FIO_DO_DIAG_demag_excess n true).log = x.log ∧
      (setFbit x Reg.FIO_DO_DIAG F.FIO_DO_DIAG_demag_excess n true).fio = x.fio := ⟨rfl, rfl⟩
  generalize setFbit x Reg.FIO_DO_DIAG F.FIO_DO_DIAG_demag_excess n true = y at hbit hother hrest ⊢
  obtain ⟨hlog', hfio'⟩ := hrest
  have hrd : ∀ a, rd (fieldLog 0x9014 n arg y) a = rd y a := rd_fieldLog_room (room_of_log (hlog'.trans hlog) hroom)
  refine ⟨(hrd r).trans (hother r hne), fun a ha => ?_, (fbit_of_rd (hrd _) _ _).trans hbit,
    told_fieldLog (hlog'.trans hlog) (by rw [hfio', hw]) (by rw [hfio', hlink]) hroom⟩
  rw [hrd, hother a fun h => ha (h ▸ List.mem_cons_of_mem _ List.mem_cons_self), honly a fun h => ha (h ▸ List.mem_cons_self)]

theorem wr_kept (s : State) (a : Nat) (v : Word) : (wr s a v).log = s.log ∧ (wr s a v).fio = s.fio := ⟨rfl, rfl⟩

theorem pulseShown_kept (n : Fin 16) (mj : Nat) (s : State) : (pulseShown n mj s).log = s.log ∧
    (pulseShown n mj s).fio.unsaid = s.fio.unsaid ∧ (pulseShown n mj s).fio.linkOn = s.fio.linkOn ∧
    rd (pulseShown n mj s) (Reg.FIO_DEMAG (groupOfDo n)) = demagOf (pulsesOf n mj s) ∧
    ∀ a, a ≠ Reg.FIO_DEMAG (groupOfDo n) → rd (pulseShown n mj s) a = rd s a := by
  unfold pulseShown
  generalize demagOf (pulsesOf n mj s) = v
  obtain ⟨hlog, hfio⟩ := wr_kept (pulseNoted n mj s) (Reg.FIO_DEMAG (groupOfDo n)) v
  exact ⟨hlog, by rw [hfio]; rfl, by rw [hfio]; rfl, rd_wr _ _ _, fun _ ha => rd_wr_ne _ _ ha⟩

theorem demagExcess_effect (n : Fin 16) (mj : Nat) (hroom : Room 1 s) : ∃ t, exec (.demagExcess n mj) s = .next t ∧
    fld t (Reg.FIO_DEMAG (groupOfDo n)) F.FIO_DEMAG_sum_mj = min 65535 ((pulsesOf n mj s).foldl (· + ·) 0) ∧
    fld t (Reg.FIO_DEMAG (groupOfDo n)) F.FIO_DEMAG_peak_mj = min 65535 ((pulsesOf n mj s).foldl max 0) ∧
    OnlyRegs [Reg.FIO_DEMAG (groupOfDo n), Reg.FIO_DO_DIAG] s t ∧
    (250 < mj ∨ 1500 < (pulsesOf n mj s).foldl (· + ·) 0 → fbit t Reg.FIO_DO_DIAG F.FIO_DO_DIAG_demag_excess n = true ∧
      Told [(0x9014, n, min 65535 mj * 0x10000 + min 65535 ((pulsesOf n mj s).foldl (· + ·) 0))] s t) ∧
    (mj ≤ 250 → (pulsesOf n mj s).foldl (· + ·) 0 ≤ 1500 → rd t Reg.FIO_DO_DIAG = rd s Reg.FIO_DO_DIAG ∧ t.log = s.log) := by
  have hexec : exec (.demagExcess n mj) s = execDemagExcess n mj s := rfl
  rw [hexec, execDemagExcess_eq]
  have hne : Reg.FIO_DEMAG (groupOfDo n) ≠ Reg.FIO_DO_DIAG := ((by decide : ∀ n : Fin 16, Reg.FIO_DEMAG (groupOfDo n) ≠ Reg.FIO_DO_DIAG)) n
  obtain ⟨hlog, hw, hlink, hword, honly⟩ := pulseShown_kept n mj s
  obtain ⟨hsum, hpeak⟩ := demagOf_fields (pulsesOf n mj s)
  generalize pulseShown n mj s = x at hlog hw hlink hword honly ⊢
  generalize Reg.FIO_DEMAG (groupOfDo n) = r at hne hword honly ⊢
  generalize (pulsesOf n mj s).foldl (· + ·) 0 = sum at hsum ⊢
  have hshown : ∀ t, rd t r = rd x r → fld t r F.FIO_DEMAG_sum_mj = min 65535 sum ∧
      fld t r F.FIO_DEMAG_peak_mj = min 65535 ((pulsesOf n mj s).foldl max 0) := fun t ht => by
    rw [fld, fld, ht, hword]
    exact ⟨hsum, hpeak⟩
  by_cases hc : 250 < mj ∨ 1500 < sum
  · obtain ⟨hr, hall, hbit, htold⟩ := excess_effect n (min 65535 mj * 0x10000 + min 65535 sum) hne hlog hw hlink hroom honly
    obtain ⟨h1, h2⟩ := hshown _ hr
    exact ⟨_, if_pos hc, h1, h2, hall, fun _ => ⟨hbit, htold⟩, fun ha hb => absurd hc (by omega)⟩
  · obtain ⟨h1, h2⟩ := hshown x rfl
    exact ⟨_, if_neg hc, h1, h2, fun a ha => honly a fun h => ha (h ▸ List.mem_cons_self), fun h => absurd h hc,
      fun _ _ => ⟨honly _ (Ne.symm hne), hlog⟩⟩

/-! ### The off-state monitor (R345, R346) -/

/-- A judgement of the monitor shown: open load and external drive. -/
def monitorShown (n : Fin 16) (ol ext : Bool) (s : State) : State :=
  setFbit (setFbit s Reg.FIO_DO_DIAG F.FIO_DO_DIAG_open_load n ol) Reg.FIO_DO_FAULT F.FIO_DO_FAULT_ext_drive n ext

/-- A judgement of the monitor in effect. -/
def monitored (n : Fin 16) (dv : Nat) (ol newOl ext newExt : Bool) (s : State) : State :=
  whenS newExt (fieldLog 0x9013 n dv) (whenS newOl (fieldLog 0x9012 n 0) (monitorShown n ol ext s))

/-- The states of an output that the monitor judges by. -/
def sharedDo (n : Fin 16) (s : State) : Bool := flg s (Reg.FIO_DO_CFG n) F.FIO_DO_CFG_shared
def judgesOpen (n : Fin 16) (s : State) : Bool := flg s (Reg.FIO_DO_CFG n) F.FIO_DO_CFG_ol_en && !sharedDo n s

theorem execDoMonitor_eq (n : Fin 16) (dv : Nat) (s : State) : execDoMonitor n dv s =
    if doOn s n ∨ s.fio.sleeping then .next s
    else if !decide (dv < 20) ∧ !decide (30 ≤ dv ∧ dv ≤ 50) ∧ !decide (80 < dv) then .next s
    else .next (monitored n dv (decide (30 ≤ dv ∧ dv ≤ 50) && flg s (Reg.FIO_DO_CFG n) F.FIO_DO_CFG_ol_en && !sharedDo n s)
      ((decide (30 ≤ dv ∧ dv ≤ 50) && flg s (Reg.FIO_DO_CFG n) F.FIO_DO_CFG_ol_en && !sharedDo n s) &&
        !fbit s Reg.FIO_DO_DIAG F.FIO_DO_DIAG_open_load n) (decide (80 < dv))
      (decide (80 < dv) && !fbit s Reg.FIO_DO_FAULT F.FIO_DO_FAULT_ext_drive n && !sharedDo n s) s) := rfl

theorem doMonitor_ignored {dv : Nat} (h : doOn s n = true ∨ s.fio.sleeping = true ∨ (20 ≤ dv ∧ dv < 30) ∨ (50 < dv ∧ dv ≤ 80)) :
    exec (.doMonitor n dv) s = .next s := by
  refine Eq.trans (b := execDoMonitor n dv s) rfl ?_
  rw [execDoMonitor_eq]
  by_cases hc : doOn s n = true ∨ s.fio.sleeping = true
  · exact if_pos hc
  · rw [if_neg hc, if_pos]
    have : (20 ≤ dv ∧ dv < 30) ∨ (50 < dv ∧ dv ≤ 80) := h.elim (fun h => absurd (.inl h) hc) fun h => h.resolve_left fun h => hc (.inr h)
    simp
    omega

/-- What a judgement in effect leaves, of which at most one event is told. -/
theorem monitored_effect (n : Fin 16) (dv : Nat) (ol newOl ext newExt : Bool) (hroom : Room 1 s) (hone : newOl = false ∨ newExt = false) :
    (fbit (monitored n dv ol newOl ext newExt s) Reg.FIO_DO_DIAG F.FIO_DO_DIAG_open_load n = ol ∧
      fbit (monitored n dv ol newOl ext newExt s) Reg.FIO_DO_FAULT F.FIO_DO_FAULT_ext_drive n = ext ∧
      OnlyRegs [Reg.FIO_DO_DIAG, Reg.FIO_DO_FAULT] s (monitored n dv ol newOl ext newExt s)) ∧
    Told (if newOl then [(0x9012, n.val, 0)] else if newExt then [(0x9013, n.val, dv)] else []) s (monitored n dv ol newOl ext newExt s) := by
  have hol : fbit (monitorShown n ol ext s) Reg.FIO_DO_DIAG F.FIO_DO_DIAG_open_load n = ol :=
    (fbit_of_rd (rd_setF_ne _ _ _ (by decide)) _ _).trans ((fbit_setFbit _ _ _ _ _ _ (by decide) n.isLt).trans (if_pos rfl))
  have hext : fbit (monitorShown n ol ext s) Reg.FIO_DO_FAULT F.FIO_DO_FAULT_ext_drive n = ext :=
    (fbit_setFbit _ _ _ _ _ _ (by decide) n.isLt).trans (if_pos rfl)
  have honly : OnlyRegs [Reg.FIO_DO_DIAG, Reg.FIO_DO_FAULT] s (monitorShown n ol ext s) := fun a ha =>
    (rd_setF_ne _ _ _ (by rintro rfl; exact ha (by decide))).trans (rd_setF_ne _ _ _ (by rintro rfl; exact ha (by decide)))
  have hrest : (monitorShown n ol ext s).log = s.log ∧ (monitorShown n ol ext s).fio = s.fio := ⟨rfl, rfl⟩
  obtain ⟨hlog, hfio⟩ := hrest
  unfold monitored
  generalize monitorShown n ol ext s = x at *
  have hcond := fun b c q e => told_whenS (s := s) (x := x) (b := b) (c := c) (q := q) (e := e) hlog (by rw [hfio]) (by rw [hfio]) hroom
  cases newOl with
  | true =>
    obtain rfl : newExt = false := hone.resolve_left (nomatch ·)
    obtain ⟨htold, hrd⟩ := hcond true 0x9012 n 0
    exact ⟨⟨(fbit_of_rd (hrd _) _ _).trans hol, (fbit_of_rd (hrd _) _ _).trans hext, fun a ha => (hrd a).trans (honly a ha)⟩, htold⟩
  | false =>
    obtain ⟨htold, hrd⟩ := hcond newExt 0x9013 n dv
    exact ⟨⟨(fbit_of_rd (hrd _) _ _).trans hol, (fbit_of_rd (hrd _) _ _).trans hext, fun a ha => (hrd a).trans (honly a ha)⟩, htold⟩

theorem log_of_told (h : Told [] s t) : t.log = s.log := by
  unfold Told at h
  split at h
  · simpa [Logged] using h
  · exact h.1

/-- A judgement in effect: what it is, and which event it tells. -/
theorem doMonitor_effect {dv : Nat} (hoff : doOn s n = false) (hw : s.fio.sleeping = false) (hdv : dv < 20 ∨ (30 ≤ dv ∧ dv ≤ 50) ∨ 80 < dv)
    (hroom : Room 1 s) {op ex : Bool} (hop : decide (30 ≤ dv ∧ dv ≤ 50) = op) (hex : decide (80 < dv) = ex) :
    ∃ t, exec (.doMonitor n dv) s = .next t ∧ (fbit t Reg.FIO_DO_DIAG F.FIO_DO_DIAG_open_load n = (op && judgesOpen n s) ∧
      fbit t Reg.FIO_DO_FAULT F.FIO_DO_FAULT_ext_drive n = ex ∧ OnlyRegs [Reg.FIO_DO_DIAG, Reg.FIO_DO_FAULT] s t) ∧
      Told (if op && (judgesOpen n s && !fbit s Reg.FIO_DO_DIAG F.FIO_DO_DIAG_open_load n) then [(0x9012, n.val, 0)]
        else if ex && (!fbit s Reg.FIO_DO_FAULT F.FIO_DO_FAULT_ext_drive n && !sharedDo n s) then [(0x9013, n.val, dv)] else []) s t := by
  refine ⟨_, Eq.trans (b := execDoMonitor n dv s) rfl ?_, monitored_effect n dv _ _ _ _ hroom ?_⟩
  · rw [execDoMonitor_eq, if_neg (by simp [hoff, hw]), if_neg (by simp; omega), judgesOpen, hop, hex]
    simp only [Bool.and_assoc]
  · have : op = false ∨ ex = false := by
      rw [← hop, ← hex, decide_eq_false_iff_not, decide_eq_false_iff_not]
      omega
    exact this.imp (fun h => by rw [h]; rfl) fun h => by rw [h]; rfl

end Diagnosis

end Sys2Proof.Machine

namespace Sys2Proof.Proofs

open Sys2Proof Sys2Proof.Machine Sys2Proof.Safety Sys2Proof.Laws

/-- Settles O52: each clause is what one row of the field die does; a valid frame is followed from the safe state it may begin, through the
copies of the trip drivers, to the end of the safe state, each of which keeps what the outputs are read from. -/
theorem fioOutputs : Obligations.FioOutputs := by
  unfold Obligations.FioOutputs
  refine ⟨fun s h ok n => ⟨fieldLinkFrame_silent ok h, safeStateLeft_ignored (.inl h), strobeMismatch_ignored (.inl h)⟩,
    fun s h _ => fieldLinkFrame_good h, fun s h hroom => fieldLinkFrame_bad h hroom, fun s h => safeStateEntered_ignored h,
    fun s hs hw hroom => safeStateEntered_entered hs hw hroom, fun s hl hr hs hrun hroom => safeStateLeft_left hl hr hs hrun hroom,
    fun s h => safeStateLeft_ignored (.inr h), fun n s hl h8 hne hroom => strobeMismatch_ninth hl h8 hne hroom,
    fun n s h => strobeMismatch_ignored (.inr h), fun raw s hfit => diSample_sampled raw hfit, fun n hot s => ?_,
    fun m n v s hs h => doOverloadRelease_silent n hs h, fun m n v s hs h => doOverloadRelease_effect n hs h,
    fun n mj s hroom => demagExcess_effect n mj hroom, fun n dv s => ?_⟩
  · exact ⟨doOverload_ignored hot, fun h hroom => doOverload_effect hot h hroom, doRetry_ignored, doRetry_effect⟩
  · refine ⟨doMonitor_ignored, fun hoff hw hroom => ⟨fun hdv => ?_, fun hlo hhi => ?_, fun hdv => ?_⟩⟩
    · obtain ⟨t, ht, hjudged, htold⟩ := doMonitor_effect hoff hw (.inl hdv) hroom (op := false) (ex := false) (decide_eq_false (by omega))
        (decide_eq_false (by omega))
      exact ⟨t, ht, hjudged, log_of_told htold⟩
    · exact doMonitor_effect hoff hw (.inr (.inl ⟨hlo, hhi⟩)) hroom (op := true) (ex := false) (decide_eq_true ⟨hlo, hhi⟩)
        (decide_eq_false (by omega))
    · exact doMonitor_effect hoff hw (.inr (.inr hdv)) hroom (op := false) (ex := true) (decide_eq_false (by omega)) (decide_eq_true hdv)

end Sys2Proof.Proofs
end


section
/-! PROOFS. The capture instants of the disturbance recorder: samples, level triggers and what forming a row leaves
(R279, R281, R285 to R288, R292). -/

namespace Sys2Proof.Machine

open Sys2Proof Sys2Proof.Safety Sys2Proof.Laws

section Capture

variable {s x y t : State}

/-! ### What forming a row never takes back -/

/-- The level triggers are as before, no event is forgotten, and a mask that is done, or a violation shown, stays so. -/
structure Judged (s t : State) : Prop where
  levels : t.recd.levels = s.recd.levels
  grows : LogGrows s t
  viol : flg s Reg.REC_STATUS F.REC_STATUS_mask_viol = true → flg t Reg.REC_STATUS F.REC_STATUS_mask_viol = true
  done : ∀ k : Fin 4, (s.recd.masks[k]).done = true → (t.recd.masks[k]).done = true

theorem Judged.refl (s : State) : Judged s s := ⟨rfl, .refl s, id, fun _ => id⟩

theorem Judged.trans (h : Judged s x) (h' : Judged x t) : Judged s t :=
  ⟨h'.levels.trans h.levels, h.grows.trans h'.grows, h'.viol ∘ h.viol, fun k => h'.done k ∘ h.done k⟩

theorem judged_then (h' : Judged x t) (h : Judged s x) : Judged s t := h.trans h'

/-- A change of the recorder that keeps its level triggers and masks. -/
theorem judged_setRec {r : RecState} (hl : r.levels = s.recd.levels) (hm : r.masks = s.recd.masks) : Judged s (setRec r s) :=
  ⟨hl, .of_log (.refl s) rfl, id, fun k h => by
    show (r.masks[k]).done = true
    rw [hm]
    exact h⟩

theorem judged_of_recd (hrecd : t.recd = s.recd) (hg : LogGrows s t)
    (hst : flg t Reg.REC_STATUS F.REC_STATUS_mask_viol = flg s Reg.REC_STATUS F.REC_STATUS_mask_viol) : Judged s t :=
  ⟨by rw [hrecd], hg, fun h => hst.trans h, fun k h => by rwa [hrecd]⟩

theorem judged_logEvent (c q : Nat) (e : Word) (s : State) : Judged s (logEvent c q e s) :=
  judged_of_recd (recd_logEvent ..) (.logEvent (.refl s)) (flg_of_rd (rd_logEvent s c q e (by decide) (by decide)) _)

theorem judged_ite {c : Prop} [Decidable c] (hx : Judged s x) (hy : Judged s y) : Judged s (if c then x else y) := by
  split
  · exact hx
  · exact hy

theorem judged_whenS {g : State → State} (b : Bool) (h : ∀ y, Judged y (g y)) (s : State) : Judged s (whenS b g s) := by
  cases b
  · exact .refl s
  · exact h s

theorem judged_forEach {α : Type} {l : List α} {g : α → State → State} (hg : ∀ a y, Judged y (g a y)) (s : State) : Judged s (forEach l g s) :=
  forEach_keeps (P := Judged s) (fun a _ y h => h.trans (hg a y)) (.refl s)

theorem judged_recTrig (src : Fin 11) (i : Nat) (s : State) : Judged s (recTrig src i s) :=
  judged_ite (judged_setRec (r := { s.recd with trigs := s.recd.trigs ++ [⟨src, i⟩] }) rfl rfl) (.refl s)

theorem judged_addMark (t : RecTrigger) (s : State) : Judged s (addMark t s) := by
  unfold addMark
  split
  · exact .refl s
  · exact judged_setRec rfl rfl

theorem judged_foldChanges (n : Nat) (s : State) : Judged s (foldChanges n s) := judged_setRec rfl rfl

theorem judged_setRecState (n : Nat) (s : State) : Judged s (setRecState n s) :=
  judged_of_recd rfl (.of_log (.refl s) rfl) (flg_setF_disj _ _ _ _ _ (by decide))

theorem judged_of_ev {f : Foot} (h : Ev f s t) (hrecd : f.parts.contains .recd = false) (hlog : f.parts.contains .log = false)
    (hany : f.anyReg = false) (hb : f.blocks.contains .recd = false) : Judged s t :=
  judged_of_recd (keeps_of_ev (p := .recd) h hrecd) (.of_ev (.refl s) h hlog) (flg_of_rd (rd_of_ev h hany (b := .recd) (by decide) hb) _)

theorem judged_recClose (cause : Nat) (s : State) : Judged s (recClose cause s) := by
  unfold recClose
  split
  · exact .refl s
  · exact judged_ite (judged_then (judged_setRecState _ _) (judged_setRec rfl rfl)) (.refl s)

theorem judged_closeShort (cause : Nat) (row : RecRow) (s : State) : Judged s (closeShort cause row s) := by
  unfold closeShort
  refine .trans ?_ (judged_recClose _ _)
  split
  · exact .refl s
  · exact judged_setRec rfl rfl

theorem judged_makeRoom (n need : Nat) (s : State) : Judged s (makeRoom n need s).2 := by
  induction n generalizing s with
  | zero => exact .refl s
  | succ n ih =>
    unfold makeRoom
    split
    · exact .refl s
    · split
      · exact .refl s
      · split
        · exact .refl s
        · refine .trans ?_ (ih _)
          exact judged_then (judged_logEvent _ _ _ _) (judged_setRec rfl rfl)

theorem judged_drainRows (s : State) : Judged s (drainRows s) :=
  .trans (x := (takeFree s).2) ⟨rfl, .of_log (.refl s) rfl, id, fun _ => id⟩ ⟨rfl, .of_log (.refl _) rfl, id, fun _ => id⟩

theorem judged_showFill (s : State) : Judged s (showFill s) :=
  judged_of_recd rfl (.of_log (.refl s) rfl) (flg_of_rd (rd_showFill (by decide) s) _)

theorem judged_showStore (s : State) : Judged s (showStore s) := by
  refine judged_of_recd rfl (.of_log (.refl s) rfl) ?_
  unfold showStore
  dsimp only
  rw [flg_setF_disj _ _ _ _ _ (by decide)]
  exact flg_of_rd ((rd_setF_ne _ _ _ (by decide)).trans (rd_setF_ne _ _ _ (by decide))) _

/-! ### The stages of a row -/

/-- The row of an interval whose first capture instant is given. -/
def rowOf (firstQ : Nat) (s : State) : RecRow := ⟨firstQ / 4, (s.recd.acc.map (accWords (recK s))).flatten, rd s Reg.TIME_STATE⟩

/-- The masks of one reference at a row. -/
def masksJudged (ref : Bool) (n at' : Nat) (s : State) : State := forEach (List.finRange 4) (maskStep ref n at') s

/-- One more row formed. -/
def rowCounted (s : State) : State := setRec { s.recd with formed := s.recd.formed + 1 } s

/-- The row kept, or stored. -/
def rowPlaced (row : RecRow) (s : State) : State :=
  if recState s = recCapturing then storePost row (masksJudged false s.recd.post row.at' s) else keepPre row s

/-- The interval of the row emptied, and the fill shown. -/
def rowEnded (s : State) : State := showStore (showFill (setRec { s.recd with acc := [], accN := 0 } s))

theorem formRow_eq (firstQ lastQ : Nat) (s : State) : formRow firstQ lastQ s = rowEnded (rowPlaced (rowOf firstQ s)
    (rowCounted (takeTriggers lastQ (rowOf firstQ s) (masksJudged true s.recd.formed (firstQ / 4) s)))) := rfl

theorem judged_rowEnded (s : State) : Judged s (rowEnded s) := by
  unfold rowEnded
  refine .trans ?_ (judged_showStore _)
  exact judged_then (judged_showFill _) (judged_setRec rfl rfl)

theorem judged_keepPre (row : RecRow) (s : State) : Judged s (keepPre row s) := by
  unfold keepPre
  dsimp only
  split <;> exact judged_then (judged_foldChanges _ _) (judged_setRec rfl rfl)

/-! ### The trigger row (R286, R292) -/

/-- The changes before the first row folded. -/
def changesFolded (row : RecRow) (s : State) : State :=
  match s.recd.rows.head? with | some r => foldChanges r.at' s | none => foldChanges row.at' s

/-- The set of the sources that hit, as a word. -/
def hitMask (hits : List RecTrigger) : Nat := hits.foldl (fun n t => n ||| (1 <<< t.src.val)) 0

/-- The record that a trigger row begins. -/
def recordBegun (hits : List RecTrigger) (row : RecRow) (s : State) : Record := {
  number := s.recd.nextNo, mask := hitMask hits, trigAt := row.at', role := roleOf (dpxOn s) (dpxState s), epoch := ownEpoch s,
  build := rd s Reg.FAB_IMAGE_ID, clockId := rd64 s Reg.TIME_GM_ID, timeTrig := row.time, stream := recStream s,
  k := recK s, period := recP s, firstAt := ((s.recd.rows.head?).getD row).at', serial := s.upd.stake.serial
  positions := Vector.ofFn (fun (g : Fin 2) => fld s (Reg.GFM_CFG (2 * g)) F.GFM_CFG_position)
  firmware := ((s.upd.firmware[(s.upd.journal[2]).active]).map (·.version)).getD 0, utc := rd s Reg.TIME_UTC_OFFSET
  settings := ((s.upd.settings[s.upd.inForce]).map (·.records)).getD []
  ach := (achans s).map (fun c => (c, rd s (Reg.REC_ACH c)))
  bsrc := ((List.finRange 256).filter (bchanOn s)).map (fun b => rd s (Reg.REC_BCH b))
  bch := (List.finRange 256).filter (bchanOn s), snapshot := s.recd.binFirst, preRows := s.recd.rows.length,
  preShort := s.recd.rows.length < recPre s, op := s.recd.op }

/-- The capture begun with a record, before it is logged. -/
def captureBegun (r : Record) (s : State) : State :=
  commitOp s.recd.op (setRecState recCapturing (setRec { s.recd with
    cur := some r, nextNo := s.recd.nextNo + 1, post := 0, drained := 0 } s))

/-- The capture begun, logged, and its trigger time shown. -/
def captureTold (first : Nat) (r : Record) (at' : Nat) (s : State) : State :=
  wr64 (logEvent 0x7002 first r.number s) Reg.REC_TRIG_TIME (BitVec.ofNat 64 at')

/-- The capture that a record begins, in all. -/
def captureMade (first : Nat) (r : Record) (at' : Nat) (s : State) : State :=
  whenS (recStream (captureTold first r at' (captureBegun r s))) (partHold true) (captureTold first r at' (captureBegun r s))

theorem startCapture_eq (hits : List RecTrigger) (row : RecRow) (s : State) : startCapture hits row s =
    captureMade ((setBits (hitMask hits) 11).headD 0) (recordBegun hits row (changesFolded row s)) row.at' (changesFolded row s) := rfl

theorem judged_changesFolded (row : RecRow) (s : State) : Judged s (changesFolded row s) := by
  unfold changesFolded
  split <;> exact judged_foldChanges _ _

theorem judged_captureMade (first : Nat) (r : Record) (at' : Nat) (s : State) : Judged s (captureMade first r at' s) := by
  have hbegun : Judged s (captureBegun r s) := by
    unfold captureBegun
    refine .trans ?_ (judged_of_ev (commitOp_ev (foot_self _) (Ev.refl _ _)) rfl rfl rfl rfl)
    exact judged_then (judged_setRecState _ _) (judged_setRec rfl rfl)
  have htold : ∀ y, Judged y (captureTold first r at' y) := fun y => by
    refine (judged_logEvent 0x7002 first r.number y).trans ?_
    obtain ⟨-, hlog, -, -, hrd⟩ := wr64_kept (logEvent 0x7002 first r.number y) Reg.REC_TRIG_TIME (BitVec.ofNat 64 at')
    exact judged_of_recd rfl (.of_log (.refl _) hlog) (flg_of_rd (hrd _ (by decide) (by decide)) _)
  exact (hbegun.trans (htold _)).trans
    (judged_whenS _ (fun y => judged_of_ev (partHold_ev (foot_self _) (Ev.refl _ y)) rfl rfl rfl rfl) _)

theorem judged_takeTriggers (lastQ : Nat) (row : RecRow) (s : State) : Judged s (takeTriggers lastQ row s) := by
  unfold takeTriggers
  dsimp only
  refine .trans (x := setRec { s.recd with trigs := s.recd.trigs.filter (fun t => lastQ < 4 * t.at') } s) (judged_setRec rfl rfl) ?_
  refine judged_ite (.refl _) (judged_ite ?_ (judged_forEach judged_addMark _))
  rw [startCapture_eq]
  exact (judged_changesFolded _ _).trans (judged_captureMade ..)

/-! ### The masks (R288) -/

/-- A violation shown, before its action. -/
def violationShown (m : Fin 4) (row : Nat) (s : State) : State := setF (logN 0x7005 m row s) Reg.REC_STATUS F.REC_STATUS_mask_viol 1

/-- The action of a violated mask. -/
def maskActed (m : Fin 4) (at' : Nat) (s : State) : State :=
  if fld s (Reg.REC_MASK_CFG m) F.REC_MASK_CFG_action = 1 ∧ !(recState s == recCapturing) then recTrig srcMask at' s
  else addMark ⟨srcMask, at'⟩ s

/-- A mask that is done, with the rows left after it where it stops the capture. -/
def maskDone (m : Fin 4) (left : Option Nat) (s : State) : State :=
  setRec { s.recd with masks := s.recd.masks.set m { run := 0, done := true, left := left } } s

theorem maskViolated_eq (m : Fin 4) (row at' : Nat) (s : State) : ∃ left, maskViolated m row at' s =
    maskDone m left (maskActed m at' (violationShown m row s)) := ⟨_, rfl⟩

theorem masks_set (m k : Fin 4) (z : MaskState) (s : State) :
    (setRec { s.recd with masks := s.recd.masks.set m z } s).recd.masks[k] = if k = m then z else s.recd.masks[k] := by
  by_cases h : k = m
  · subst h
    simp [setRec]
  · rw [if_neg h]
    simp [setRec, Fin.val_ne_of_ne (Ne.symm h)]

/-- A change of one mask that does not take back that it is done. -/
theorem judged_setMask {m : Fin 4} {z : MaskState} (hz : (s.recd.masks[m]).done = true → z.done = true) :
    Judged s (setRec { s.recd with masks := s.recd.masks.set m z } s) := by
  refine ⟨rfl, .of_log (.refl s) rfl, id, fun k h => ?_⟩
  rw [masks_set]
  split
  next hk => exact hz (by rwa [hk] at h)
  next => exact h

theorem judged_maskActed (m : Fin 4) (at' : Nat) (s : State) : Judged s (maskActed m at' s) :=
  judged_ite (judged_recTrig ..) (judged_addMark ..)

theorem flg_violationShown (m : Fin 4) (row : Nat) (s : State) :
    flg (violationShown m row s) Reg.REC_STATUS F.REC_STATUS_mask_viol = true :=
  (flg_setF _ _ _ _ (by decide)).trans (by decide)

theorem judged_violationShown (m : Fin 4) (row : Nat) (s : State) : Judged s (violationShown m row s) := by
  refine ⟨?_, .of_log (.logEvent (.refl s)) (setF_log ..), fun _ => flg_violationShown m row s, fun k h => ?_⟩
  · exact congrArg (·.levels) (recd_logEvent 0x7005 m (BitVec.ofNat 32 row) s)
  · show ((logN 0x7005 m row s).recd.masks[k]).done = true
    rw [logN, recd_logEvent]
    exact h

theorem judged_maskViolated (m : Fin 4) (row at' : Nat) (s : State) : Judged s (maskViolated m row at' s) := by
  obtain ⟨left, h⟩ := maskViolated_eq m row at' s
  rw [h]
  exact ((judged_violationShown m row s).trans (judged_maskActed m at' _)).trans (judged_setMask fun _ => rfl)

theorem judged_maskStep (ref : Bool) (row at' : Nat) (m : Fin 4) (s : State) : Judged s (maskStep ref row at' m s) := by
  unfold maskStep
  dsimp only
  split
  · exact .refl s
  · split
    next hd => exact judged_setMask fun _ => hd
    next hd =>
      split
      · exact judged_setMask fun h => h
      · split
        · exact judged_setMask fun h => h
        · exact judged_maskViolated ..

theorem judged_masksJudged (ref : Bool) (n at' : Nat) (s : State) : Judged s (masksJudged ref n at' s) :=
  judged_forEach (fun m y => judged_maskStep ref n at' m y) s

/-- The room made for a post row, and the row stored in it. -/
def postRoom (s : State) : Bool × State := if recStream s then makeRoom 256 (openBytes s + rowBytes s) s else (true, s)
def rowAppended (row : RecRow) (s : State) : State := setRec { s.recd with rows := s.recd.rows ++ [row], post := s.recd.post + 1 } s
def rowStored (row : RecRow) (s : State) : State := whenS (recStream (rowAppended row s)) drainRows (rowAppended row s)

/-- A capture whose post rows are complete, or that a mask stops, closes. -/
def postEnded (s : State) : State :=
  if recPost s ≤ s.recd.post then recClose 1 s
  else if s.recd.masks.toList.any (fun y => y.left == some 0) then recClose 3 s
  else s

theorem storePost_eq (row : RecRow) (s : State) : storePost row s =
    if recStream s && ringBytes < planBytes s + rowBytes s then closeShort 2 row s
    else if !(postRoom s).1 then closeShort 6 row (postRoom s).2
    else postEnded (rowStored row (postRoom s).2) := rfl

theorem judged_postRoom (s : State) : Judged s (postRoom s).2 := by
  unfold postRoom
  split
  · exact judged_makeRoom ..
  · exact .refl s

theorem judged_rowStored (row : RecRow) (s : State) : Judged s (rowStored row s) :=
  .trans (x := rowAppended row s) (judged_setRec rfl rfl) (judged_whenS _ judged_drainRows _)

theorem judged_storePost (row : RecRow) (s : State) : Judged s (storePost row s) := by
  rw [storePost_eq]
  refine judged_ite (judged_closeShort ..) (.trans (judged_postRoom s) (judged_ite (judged_closeShort ..) ?_))
  exact .trans (judged_rowStored ..) (judged_ite (judged_recClose ..) (judged_ite (judged_recClose ..) (.refl _)))

theorem judged_rowPlaced (row : RecRow) (s : State) : Judged s (rowPlaced row s) :=
  judged_ite ((judged_masksJudged ..).trans (judged_storePost ..)) (judged_keepPre ..)

theorem judged_rowCounted (s : State) : Judged s (rowCounted s) := judged_setRec rfl rfl

/-- What is judged before a row is placed stays so. -/
theorem judged_formRow (firstQ lastQ : Nat) (s : State) : Judged s (formRow firstQ lastQ s) := by
  rw [formRow_eq]
  refine .trans ?_ (judged_rowEnded _)
  refine .trans ?_ (judged_rowPlaced _ _)
  refine .trans ?_ (judged_rowCounted _)
  exact .trans (judged_masksJudged ..) (judged_takeTriggers ..)

end Capture

end Sys2Proof.Machine
end


section
/-! PROOFS. The capture instants of the disturbance recorder: what one forms (R279, R281, R285 to R288, R292). -/

namespace Sys2Proof.Machine

open Sys2Proof Sys2Proof.Safety Sys2Proof.Laws

section Instants

variable {s x y t : State}

/-! ### Samples and level triggers -/

/-- Is a plan armed, or does it capture? -/
def recActive (s : State) : Prop := recState s = recArmed ∨ recState s = recCapturing

/-- The next capture instant. -/
def recDue (s : State) : Nat := s.recd.next.getD (nextInterval s)

/-- The samples of an instant in quarter nanoseconds, channel by channel. -/
def samplesAt (z : Vector CapInput 64) (q : Nat) (s : State) : List (Fin 64 × CapSample) := (achans s).map (fun c => (c, capSample q z[c]))

/-- The channels' sums with the samples of an instant. -/
def accsWith (samples : List (Fin 64 × CapSample)) (r : RecState) : List ChAcc :=
  ((if r.accN = 0 then samples.map (fun _ => ({} : ChAcc)) else r.acc).zip samples).map (fun p => accSample p.1 p.2.2)

/-- The level triggers at an instant. -/
def levelsStepped (at' : Nat) (samples : List (Fin 64 × CapSample)) (s : State) : State := forEach (List.finRange 8) (levelStep at' samples) s

/-- The samples of an instant added to the interval. -/
def samplesAdded (samples : List (Fin 64 × CapSample)) (n : Nat) (s : State) : State :=
  setRec { s.recd with acc := accsWith samples s.recd, accN := s.recd.accN + 1, next := some (n + 1) } s

/-- The next capture instant with its samples, before a row forms. -/
def instantTaken (z : Vector CapInput 64) (n q : Nat) (s : State) : State :=
  samplesAdded (samplesAt z q s) n (levelsStepped (q / 4) (samplesAt z q s) (advanceTo s (q + 8000000)))

/-- A row forms where the interval is complete. -/
def rowFormed (n q : Nat) (s : State) : State := if recK s ≤ s.recd.accN then formRow (capQ s (n + 1 - recK s)) q s else s

theorem achans_advanceTo (q : Nat) (s : State) : achans (advanceTo s q) = achans s := achans_congr fun _ => rfl

theorem captureStep_eq (z : Vector CapInput 64) (h : recActive s) : captureStep z s =
    rowFormed (recDue s) (capQ s (recDue s)) (instantTaken z (recDue s) (capQ s (recDue s)) s) := by
  unfold captureStep
  rw [if_pos (show recState s = recArmed ∨ recState s = recCapturing from h)]
  unfold rowFormed instantTaken samplesAdded levelsStepped samplesAt accsWith recDue
  dsimp only
  simp only [achans_advanceTo]

theorem captureStep_idle (z : Vector CapInput 64) (h : ¬ recActive s) : captureStep z s = s := if_neg h

/-- Level triggers outside a list, and all but the triggers raised, are as before. -/
structure LevelsMoved (c : List (Fin 8)) (s t : State) : Prop where
  regs : t.regs = s.regs
  log : t.log = s.log
  tai : t.tai = s.tai
  recd : t.recd = { s.recd with levels := t.recd.levels, trigs := t.recd.trigs }
  levels : ∀ l : Fin 8, l ∉ c → t.recd.levels[l] = s.recd.levels[l]

theorem LevelsMoved.refl (s : State) : LevelsMoved [] s s := ⟨rfl, rfl, rfl, rfl, fun _ _ => rfl⟩

theorem LevelsMoved.trans {c d : List (Fin 8)} (h : LevelsMoved c s x) (h' : LevelsMoved d x t) : LevelsMoved (c ++ d) s t :=
  ⟨h'.regs.trans h.regs, h'.log.trans h.log, h'.tai.trans h.tai, by rw [h'.recd, h.recd], fun l hl => by
    rw [List.mem_append, not_or] at hl
    exact (h'.levels l hl.2).trans (h.levels l hl.1)⟩

theorem levelsMoved_recTrig (src : Fin 11) (i : Nat) (s : State) : LevelsMoved [] s (recTrig src i s) := by
  unfold recTrig
  split
  · exact ⟨rfl, rfl, rfl, rfl, fun _ _ => rfl⟩
  · exact .refl s

theorem levels_set (m l : Fin 8) (z : LevelState) (s : State) :
    (setRec { s.recd with levels := s.recd.levels.set m z } s).recd.levels[l] = if l = m then z else s.recd.levels[l] := by
  by_cases h : l = m
  · subst h
    simp [setRec]
  · rw [if_neg h]
    simp [setRec, Fin.val_ne_of_ne (Ne.symm h)]

theorem levelsMoved_set (m : Fin 8) (z : LevelState) (s : State) :
    LevelsMoved [m] s (setRec { s.recd with levels := s.recd.levels.set m z } s) :=
  ⟨rfl, rfl, rfl, rfl, fun l hl => (levels_set m l z s).trans (if_neg fun h => hl (List.mem_singleton.mpr h))⟩

theorem LevelsMoved.weaken {c : List (Fin 8)} (h : LevelsMoved [] s t) : LevelsMoved c s t :=
  { h with levels := fun l _ => h.levels l List.not_mem_nil }

theorem levelsMoved_levelStep (at' : Nat) (samples : List (Fin 64 × CapSample)) (l : Fin 8) (s : State) :
    LevelsMoved [l] s (levelStep at' samples l s) := by
  unfold levelStep
  dsimp only
  split
  · exact (LevelsMoved.refl s).weaken
  · split
    · exact (LevelsMoved.refl s).weaken
    · split
      · exact levelsMoved_set ..
      · split
        · split
          · exact levelsMoved_set ..
          · exact (LevelsMoved.refl s).weaken
        · split
          · exact levelsMoved_set ..
          · split
            · exact levelsMoved_set ..
            · exact (levelsMoved_set l _ s).trans (levelsMoved_recTrig ..)

theorem levelsMoved_forEach (at' : Nat) (samples : List (Fin 64 × CapSample)) (l : List (Fin 8)) (s : State) :
    LevelsMoved l s (forEach l (levelStep at' samples) s) := by
  induction l generalizing s with
  | nil => exact .refl s
  | cons a l ih => exact (levelsMoved_levelStep at' samples a s).trans (ih _)

theorem levelStep_off {at' : Nat} {samples : List (Fin 64 × CapSample)} {l : Fin 8}
    (h : flg s (Reg.REC_LEVEL l) F.REC_LEVEL_en = false) : levelStep at' samples l s = s := by
  unfold levelStep
  dsimp only
  split
  · rfl
  · exact if_pos (by rw [h]; rfl)

theorem levelsStepped_off {at' : Nat} {samples : List (Fin 64 × CapSample)}
    (h : ∀ l : Fin 8, flg s (Reg.REC_LEVEL l) F.REC_LEVEL_en = false) : levelsStepped at' samples s = s :=
  forEach_keeps (P := (· = s)) (fun l _ y hy => by
    subst hy
    exact levelStep_off (h l)) rfl

/-- A level trigger whose count a sample completes. -/
theorem levelStep_fires {at' : Nat} {samples : List (Fin 64 × CapSample)} {l : Fin 8} {p : Fin 64 × CapSample}
    (hfind : samples.find? (fun p => p.1.val == fld s (Reg.REC_LEVEL l) F.REC_LEVEL_achan) = some p)
    (hen : flg s (Reg.REC_LEVEL l) F.REC_LEVEL_en = true) (hfired : (s.recd.levels[l]).fired = false)
    (hcount : (s.recd.levels[l]).count + 1 = max 1 (fld s (Reg.REC_LEVEL l) F.REC_LEVEL_n)) (hfault : capFault p.2 = false)
    (hunset : capUnsettled p.2 = false)
    (hon : levelOn (fld s (Reg.REC_LEVEL l) F.REC_LEVEL_cond) (sfld s (Reg.REC_LEVEL_THR l) F.REC_LEVEL_THR_thr) p.2.value = true) :
    (levelStep at' samples l s).recd.levels[l] = { count := 0, fired := true } := by
  unfold levelStep
  dsimp only
  rw [hfind]
  dsimp only
  rw [if_neg (by rw [hen]; exact Bool.false_ne_true), if_neg (by rw [hfault, hunset]; exact Bool.false_ne_true),
    if_neg (by rw [hfired]; exact Bool.false_ne_true), if_neg (by rw [hon]; exact Bool.false_ne_true), if_neg (by omega)]
  rw [(levelsMoved_recTrig ..).levels l List.not_mem_nil, levels_set, if_pos rfl]

/-! ### The samples of an instant -/

/-- What a capture instant leaves before a row forms. -/
structure InstantTaken (z : Vector CapInput 64) (s t : State) : Prop where
  regs : t.regs = s.regs
  log : t.log = s.log
  recd : t.recd = { s.recd with
    acc := accsWith (samplesAt z (capQ s (recDue s)) s) s.recd, accN := s.recd.accN + 1, next := some (recDue s + 1),
    levels := t.recd.levels, trigs := t.recd.trigs }
  tai : capQ s (recDue s) + 8000008 < 2 ^ 66 → capQ s (recDue s) + 8000000 ≤ t.tai.toNat

theorem le_tai_advanceTo {q : Nat} (hfit : q + 8 < 2 ^ 66) (s : State) : q ≤ (advanceTo s q).tai.toNat := by
  have htai := s.tai.isLt
  rw [advanceTo, BitVec.toNat_add, BitVec.toNat_ofNat]
  unfold ticksTo
  omega

theorem advanceTo_view (q : Nat) (s : State) : (advanceTo s q).recd = s.recd ∧ (advanceTo s q).regs = s.regs ∧ (advanceTo s q).log = s.log :=
  ⟨rfl, rfl, rfl⟩

theorem instantTaken_taken (z : Vector CapInput 64) (s : State) : InstantTaken z s (instantTaken z (recDue s) (capQ s (recDue s)) s) := by
  have htai : capQ s (recDue s) + 8000008 < 2 ^ 66 → capQ s (recDue s) + 8000000 ≤ (advanceTo s (capQ s (recDue s) + 8000000)).tai.toNat :=
    fun h => le_tai_advanceTo h s
  unfold instantTaken
  obtain ⟨hrecd, hregs, hlog⟩ := advanceTo_view (capQ s (recDue s) + 8000000) s
  generalize advanceTo s (capQ s (recDue s) + 8000000) = a at htai hrecd hregs hlog ⊢
  have hl := levelsMoved_forEach (capQ s (recDue s) / 4) (samplesAt z (capQ s (recDue s)) s) (List.finRange 8) a
  unfold levelsStepped
  generalize forEach (List.finRange 8) (levelStep (capQ s (recDue s) / 4) (samplesAt z (capQ s (recDue s)) s)) a = b at hl ⊢
  refine ⟨hl.regs.trans hregs, hl.log.trans hlog, ?_, fun h => (htai h).trans_eq (congrArg BitVec.toNat hl.tai.symm)⟩
  unfold samplesAdded setRec
  dsimp only
  rw [hl.recd, hrecd]
  rfl

theorem recK_of_regs (h : t.regs = s.regs) : recK t = recK s := congrArg (max 1) (fld_of_regs h _ _)

theorem capQ_of_regs (h : t.regs = s.regs) (n : Nat) : capQ t n = capQ s n := by
  rw [capQ, capQ, recP, recP, rd_of_regs h]

/-- A capture instant that completes no row. -/
theorem captureStep_short (z : Vector CapInput 64) (h : recActive s) (hk : s.recd.accN + 1 < recK s) :
    captureStep z s = instantTaken z (recDue s) (capQ s (recDue s)) s := by
  have ht := instantTaken_taken z s
  rw [captureStep_eq z h]
  generalize instantTaken z (recDue s) (capQ s (recDue s)) s = x at ht ⊢
  unfold rowFormed
  refine if_neg ?_
  rw [recK_of_regs ht.regs, ht.recd]
  exact Nat.not_le.mpr hk

/-- A capture instant that completes a row. -/
theorem captureStep_row (z : Vector CapInput 64) (h : recActive s) (hdue : rowDue s = true) : captureStep z s =
    formRow (capQ s (recDue s + 1 - recK s)) (capQ s (recDue s)) (instantTaken z (recDue s) (capQ s (recDue s)) s) := by
  have ht := instantTaken_taken z s
  rw [captureStep_eq z h]
  generalize instantTaken z (recDue s) (capQ s (recDue s)) s = x at ht ⊢
  have hn : x.recd.accN = s.recd.accN + 1 := by rw [ht.recd]
  rw [rowFormed, recK_of_regs ht.regs, capQ_of_regs ht.regs, hn]
  exact if_pos (Nat.le_of_eq (beq_iff_eq.mp hdue).symm)

/-! ### The five rows -/

theorem exec_storedRow (z : Vector CapInput 64) (h : rowDue s = true) : exec (.storedRow z) s = .next (captureStep z s) :=
  Eq.trans (b := execStoredRow z s) rfl (by rw [execStoredRow, h]; rfl)

theorem exec_recTriggered (z : Vector CapInput 64) (h : rowDue s = true) (ha : recState s = recArmed) :
    exec (.recTriggered z) s = .next (captureStep z s) :=
  Eq.trans (b := execRecTriggered z s) rfl (by rw [execRecTriggered, h, ha]; rfl)

theorem exec_levelTrigger (z : Vector CapInput 64) {l : Fin 8} (hen : flg s (Reg.REC_LEVEL l) F.REC_LEVEL_en = true)
    (hfired : (s.recd.levels[l]).fired = false) (hcount : (s.recd.levels[l]).count + 1 = max 1 (fld s (Reg.REC_LEVEL l) F.REC_LEVEL_n)) :
    exec (.levelTrigger l z) s = .next (captureStep z s) :=
  Eq.trans (b := execLevelTrigger l z s) rfl (by rw [execLevelTrigger, hen, hfired, hcount, beq_self_eq_true]; rfl)

theorem exec_recMaskViolation (z : Vector CapInput 64) {k : Fin 4} (h : rowDue s = true)
    (hact : fld s (Reg.REC_MASK_CFG k) F.REC_MASK_CFG_action ≠ 0) (hdone : (s.recd.masks[k]).done = false)
    (hrun : (s.recd.masks[k]).run + 1 = max 1 (fld s (Reg.REC_MASK_CFG k) F.REC_MASK_CFG_n)) :
    exec (.recMaskViolation k z) s = .next (captureStep z s) :=
  Eq.trans (b := execRecMaskViolation k z s) rfl (by
    rw [execRecMaskViolation, h, hdone, hrun, beq_self_eq_true, bne_iff_ne.mpr hact]
    rfl)

/-- Nothing due by its row. -/
theorem rows_none (z : Vector CapInput 64) (s : State) : (¬ recActive s → exec (.captureSample z) s = .next s) ∧
    (rowDue s = false → exec (.storedRow z) s = .next s ∧ exec (.recTriggered z) s = .next s ∧
      ∀ k : Fin 4, exec (.recMaskViolation k z) s = .next s) ∧
    ∀ l : Fin 8, flg s (Reg.REC_LEVEL l) F.REC_LEVEL_en = false → exec (.levelTrigger l z) s = .next s := by
  refine ⟨fun h => congrArg Host.Outcome.next (captureStep_idle z h), fun h => ⟨?_, ?_, fun k => ?_⟩, fun l h => ?_⟩
  · exact Eq.trans (b := execStoredRow z s) rfl (by rw [execStoredRow, h]; rfl)
  · exact Eq.trans (b := execRecTriggered z s) rfl (by rw [execRecTriggered, h]; rfl)
  · exact Eq.trans (b := execRecMaskViolation k z s) rfl (by rw [execRecMaskViolation, h]; rfl)
  · exact Eq.trans (b := execLevelTrigger l z s) rfl (by rw [execLevelTrigger, h]; rfl)

/-- What a capture instant that completes no row leaves. -/
theorem samples_added (z : Vector CapInput 64) (h : recActive s) (hk : s.recd.accN + 1 < recK s)
    (hfit : capQ s (recDue s) + 8000008 < 2 ^ 66) : let t := captureStep z s
    t.recd.next = some (recDue s + 1) ∧ capQ s (recDue s) + 8000000 ≤ t.tai.toNat ∧ t.recd.accN = s.recd.accN + 1 ∧
    t.recd.acc = accsWith (samplesAt z (capQ s (recDue s)) s) s.recd ∧ t.recd.rows = s.recd.rows ∧ t.log = s.log ∧ OnlyRegs [] s t := by
  dsimp only
  rw [captureStep_short z h hk]
  have ht := instantTaken_taken z s
  generalize instantTaken z (recDue s) (capQ s (recDue s)) s = t at ht
  refine ⟨?_, ht.tai hfit, ?_, ?_, ?_, ht.log, fun a _ => rd_of_regs ht.regs a⟩ <;> rw [ht.recd]

/-- The sample of an enabled channel is found by its number. -/
theorem find_samplesAt {z : Vector CapInput 64} {q n : Nat} {ch : Fin 64} (hn : ch.val = n)
    (hon : flg s (Reg.REC_ACH ch) F.REC_ACH_en = true) :
    (samplesAt z q s).find? (fun p => p.1.val == n) = some (ch, capSample q z[ch]) := by
  subst hn
  have hmem : (ch, capSample q z[ch]) ∈ samplesAt z q s :=
    List.mem_map.mpr ⟨ch, List.mem_filter.mpr ⟨List.mem_finRange ch, hon⟩, rfl⟩
  cases hf : (samplesAt z q s).find? (fun p => p.1.val == ch.val) with
  | none => exact absurd (List.find?_eq_none.mp hf _ hmem) (by simp)
  | some p =>
    obtain ⟨c, -, rfl⟩ := List.mem_map.mp (List.mem_of_find?_eq_some hf)
    obtain rfl : c = ch := Fin.ext (by simpa using List.find?_some hf)
    rfl

theorem finRange_split8 (l : Fin 8) : List.finRange 8 = (List.finRange 8).take l ++ l :: (List.finRange 8).drop (l + 1) ∧
    l ∉ (List.finRange 8).take l ∧ l ∉ (List.finRange 8).drop (l + 1) := by
  revert l
  decide

/-- A sample that completes the count of a level trigger fires it, whatever the others do. -/
theorem levelsStepped_fires {at' : Nat} {samples : List (Fin 64 × CapSample)} {l : Fin 8} {p : Fin 64 × CapSample}
    (hfind : samples.find? (fun p => p.1.val == fld s (Reg.REC_LEVEL l) F.REC_LEVEL_achan) = some p)
    (hen : flg s (Reg.REC_LEVEL l) F.REC_LEVEL_en = true) (hfired : (s.recd.levels[l]).fired = false)
    (hcount : (s.recd.levels[l]).count + 1 = max 1 (fld s (Reg.REC_LEVEL l) F.REC_LEVEL_n)) (hfault : capFault p.2 = false)
    (hunset : capUnsettled p.2 = false)
    (hon : levelOn (fld s (Reg.REC_LEVEL l) F.REC_LEVEL_cond) (sfld s (Reg.REC_LEVEL_THR l) F.REC_LEVEL_THR_thr) p.2.value = true) :
    (levelsStepped at' samples s).recd.levels[l] = { count := 0, fired := true } := by
  obtain ⟨hsplit, hpre, hpost⟩ := finRange_split8 l
  have heq : levelsStepped at' samples s = forEach ((List.finRange 8).drop (l + 1)) (levelStep at' samples)
      (levelStep at' samples l (forEach ((List.finRange 8).take l) (levelStep at' samples) s)) := by
    unfold levelsStepped
    rw [hsplit, forEach_cons_mid, ← hsplit]
  have hb := levelsMoved_forEach at' samples ((List.finRange 8).take l) s
  rw [heq]
  generalize forEach ((List.finRange 8).take l) (levelStep at' samples) s = x at hb ⊢
  have hl := hb.levels l hpre
  rw [(levelsMoved_forEach at' samples _ _).levels l hpost]
  exact levelStep_fires (p := p) (by rw [fld_of_regs hb.regs]; exact hfind) (by rw [flg_of_regs hb.regs]; exact hen) (by rw [hl]; exact hfired)
    (by rw [hl, fld_of_regs hb.regs]; exact hcount) hfault hunset
    (by rw [fld_of_regs hb.regs, sfld, rd_of_regs hb.regs]; exact hon)

theorem levelTrigger_fires {z : Vector CapInput 64} {l : Fin 8} {ch : Fin 64} (h : recActive s)
    (hen : flg s (Reg.REC_LEVEL l) F.REC_LEVEL_en = true) (hfired : (s.recd.levels[l]).fired = false)
    (hcount : (s.recd.levels[l]).count + 1 = max 1 (fld s (Reg.REC_LEVEL l) F.REC_LEVEL_n))
    (hch : ch.val = fld s (Reg.REC_LEVEL l) F.REC_LEVEL_achan) (hon : flg s (Reg.REC_ACH ch) F.REC_ACH_en = true)
    (hfault : capFault (capSample (capQ s (recDue s)) z[ch]) = false) (hunset : capUnsettled (capSample (capQ s (recDue s)) z[ch]) = false)
    (hlevel : levelOn (fld s (Reg.REC_LEVEL l) F.REC_LEVEL_cond) (sfld s (Reg.REC_LEVEL_THR l) F.REC_LEVEL_THR_thr)
      (capSample (capQ s (recDue s)) z[ch]).value = true) :
    (captureStep z s).recd.levels[l] = { count := 0, fired := true } := by
  have hfind := find_samplesAt (z := z) (q := capQ s (recDue s)) hch hon
  have htaken : (instantTaken z (recDue s) (capQ s (recDue s)) s).recd.levels[l] = { count := 0, fired := true } := by
    unfold instantTaken
    obtain ⟨hrecd, hregs, -⟩ := advanceTo_view (capQ s (recDue s) + 8000000) s
    generalize advanceTo s (capQ s (recDue s) + 8000000) = a at hrecd hregs ⊢
    refine levelsStepped_fires (s := a) (p := (ch, capSample (capQ s (recDue s)) z[ch])) ?_ ?_ ?_ ?_ hfault hunset ?_
    · rw [fld_of_regs hregs]
      exact hfind
    · rw [flg_of_regs hregs]
      exact hen
    · rw [hrecd]
      exact hfired
    · rw [hrecd, fld_of_regs hregs]
      exact hcount
    · rw [fld_of_regs hregs, sfld, rd_of_regs hregs]
      exact hlevel
  rw [captureStep_eq z h]
  generalize instantTaken z (recDue s) (capQ s (recDue s)) s = x at htaken ⊢
  have hkept : (rowFormed (recDue s) (capQ s (recDue s)) x).recd.levels = x.recd.levels :=
    (judged_ite (c := recK x ≤ x.recd.accN) (judged_formRow _ _ x) (.refl x)).levels
  rw [hkept]
  exact htaken

end Instants

end Sys2Proof.Machine
end


section
/-! PROOFS. The rows of the disturbance recorder: the pre rows, the trigger row and the masks (R281, R285, R286, R288). -/

namespace Sys2Proof.Machine

open Sys2Proof Sys2Proof.Safety Sys2Proof.Laws

section Rows

variable {s x y t : State} {k : Fin 4}

/-! ### A row of an armed plan without a level trigger or a mask -/

/-- No level trigger is enabled, and no mask acts. -/
def recQuiet (s : State) : Prop := (∀ l : Fin 8, flg s (Reg.REC_LEVEL l) F.REC_LEVEL_en = false) ∧
  ∀ k : Fin 4, fld s (Reg.REC_MASK_CFG k) F.REC_MASK_CFG_action = 0 ∧ (s.recd.masks[k]).left = none

theorem maskStep_off {ref : Bool} {n at' : Nat} (h : fld s (Reg.REC_MASK_CFG k) F.REC_MASK_CFG_action = 0) : maskStep ref n at' k s = s :=
  if_pos (.inl h)

theorem masksJudged_off {ref : Bool} {n at' : Nat} (h : ∀ k : Fin 4, fld s (Reg.REC_MASK_CFG k) F.REC_MASK_CFG_action = 0) :
    masksJudged ref n at' s = s :=
  forEach_keeps (P := (· = s)) (fun k _ y hy => by
    subst hy
    exact maskStep_off (h k)) rfl

/-- The next capture instant of a quiet plan changes its sums alone. -/
theorem instantTaken_quiet (z : Vector CapInput 64) (h : ∀ l : Fin 8, flg s (Reg.REC_LEVEL l) F.REC_LEVEL_en = false) :
    (instantTaken z (recDue s) (capQ s (recDue s)) s).recd = { s.recd with
      acc := accsWith (samplesAt z (capQ s (recDue s)) s) s.recd, accN := s.recd.accN + 1, next := some (recDue s + 1) } := by
  unfold instantTaken
  obtain ⟨hrecd, hregs, -⟩ := advanceTo_view (capQ s (recDue s) + 8000000) s
  generalize advanceTo s (capQ s (recDue s) + 8000000) = a at hrecd hregs ⊢
  rw [levelsStepped_off fun l => (flg_of_regs hregs _ _).trans (h l)]
  unfold samplesAdded setRec
  dsimp only
  rw [hrecd]

/-- The row that the next capture instant forms. -/
def rowDone (z : Vector CapInput 64) (s : State) : RecRow :=
  ⟨capQ s (recDue s + 1 - recK s) / 4, ((accsWith (samplesAt z (capQ s (recDue s)) s) s.recd).map (accWords (recK s))).flatten,
    rd s Reg.TIME_STATE⟩

theorem rowOf_taken {z : Vector CapInput 64} (hregs : t.regs = s.regs)
    (hacc : t.recd.acc = accsWith (samplesAt z (capQ s (recDue s)) s) s.recd) :
    rowOf (capQ s (recDue s + 1 - recK s)) t = rowDone z s := by
  unfold rowOf rowDone
  rw [hacc, recK_of_regs hregs, rd_of_regs hregs]

/-- What the end of a row leaves of a plan. -/
theorem rowEnded_effect (s : State) : (rowEnded s).recd = { s.recd with acc := [], accN := 0 } ∧ (rowEnded s).log = s.log ∧
    recState (rowEnded s) = recState s ∧ ∀ a, a ≠ Reg.REC_FILL → a ≠ Reg.REC_STORE → a ≠ Reg.REC_STATUS → rd (rowEnded s) a = rd s a := by
  unfold rowEnded
  have h : (setRec { s.recd with acc := [], accN := 0 } s).regs = s.regs ∧ (setRec { s.recd with acc := [], accN := 0 } s).log = s.log ∧
      (setRec { s.recd with acc := [], accN := 0 } s).recd = { s.recd with acc := [], accN := 0 } := ⟨rfl, rfl, rfl⟩
  obtain ⟨hregs, hlog, hrecd⟩ := h
  generalize setRec { s.recd with acc := [], accN := 0 } s = u at hregs hlog hrecd ⊢
  have hf : (showFill u).log = u.log := (closingKept_showFill u).grows |> fun _ => rfl
  obtain ⟨h1, h2, -⟩ := same_showStore (showFill u)
  refine ⟨h1.trans ((recd_showFill u).trans hrecd), h2.trans (hf.trans hlog), ?_, fun a h3 h4 h5 => ?_⟩
  · rw [recState_showStore, recState_of_rd (rd_showFill (by decide) u)]
    exact fld_of_regs hregs _ _
  · rw [rd_showStore h4 h5, rd_showFill h3, rd_of_regs hregs]

/-- A pre row kept. -/
theorem keepPre_effect (row : RecRow) (s : State) : (∃ bits ch, (keepPre row s).recd = { s.recd with
      rows := (s.recd.rows ++ [row]).drop ((s.recd.rows ++ [row]).length - recPre s), binFirst := bits, changes := ch }) ∧
    (keepPre row s).log = s.log ∧ (keepPre row s).regs = s.regs := by
  unfold keepPre
  dsimp only
  split <;> exact ⟨⟨_, _, rfl⟩, rfl, rfl⟩

theorem takeTriggers_none {lastQ : Nat} {row : RecRow} (h : s.recd.trigs = []) : takeTriggers lastQ row s = setRec { s.recd with trigs := [] } s := by
  unfold takeTriggers
  rw [h]
  rfl

/-- What a row of a quiet armed plan without a trigger leaves. -/
theorem row_kept (z : Vector CapInput 64) (harmed : recState s = recArmed) (hdue : rowDue s = true) (hq : recQuiet s) (htrigs : s.recd.trigs = []) :
    let t := captureStep z s
    recState t = recArmed ∧ t.recd.accN = 0 ∧ t.recd.formed = s.recd.formed + 1 ∧ t.log = s.log ∧
    t.recd.rows = (s.recd.rows ++ [rowDone z s]).drop ((s.recd.rows ++ [rowDone z s]).length - recPre s) := by
  dsimp only
  rw [captureStep_row z (.inl harmed) hdue]
  have ht := instantTaken_taken z s
  have hrecd := instantTaken_quiet z hq.1
  generalize instantTaken z (recDue s) (capQ s (recDue s)) s = u at ht hrecd ⊢
  have hmask : ∀ k : Fin 4, fld u (Reg.REC_MASK_CFG k) F.REC_MASK_CFG_action = 0 := fun k => (fld_of_regs ht.regs _ _).trans (hq.2 k).1
  rw [formRow_eq, masksJudged_off hmask, rowOf_taken ht.regs (by rw [hrecd]), takeTriggers_none (by rw [hrecd, htrigs])]
  generalize rowDone z s = row
  obtain ⟨hregs', hlog', hrecd'⟩ : (rowCounted (setRec { u.recd with trigs := [] } u)).regs = u.regs ∧
    (rowCounted (setRec { u.recd with trigs := [] } u)).log = u.log ∧
    (rowCounted (setRec { u.recd with trigs := [] } u)).recd = { u.recd with trigs := [], formed := u.recd.formed + 1 } := ⟨rfl, rfl, rfl⟩
  generalize rowCounted (setRec { u.recd with trigs := [] } u) = v at hregs' hlog' hrecd' ⊢
  have hv : v.regs = s.regs := hregs'.trans ht.regs
  have hstate : recState v = recArmed := (fld_of_regs hv _ _).trans harmed
  have hplaced : rowPlaced row v = keepPre row v := if_neg (by rw [hstate]; decide)
  obtain ⟨⟨bits, ch, hk⟩, hklog, hkregs⟩ := keepPre_effect row v
  rw [hplaced]
  generalize keepPre row v = w at hk hklog hkregs ⊢
  obtain ⟨he, helog, hestate, -⟩ := rowEnded_effect w
  have hpre : recPre v = recPre s := congrArg BitVec.toNat (rd_of_regs hv _)
  refine ⟨hestate.trans ((fld_of_regs hkregs _ _).trans hstate), by rw [he], ?_, helog.trans (hklog.trans (hlog'.trans ht.log)), ?_⟩
  · rw [he, hk, hrecd', hrecd]
  · rw [he, hk, hrecd', hrecd, hpre]

/-! ### The trigger row -/

theorem hitMask_one : ∀ src : Fin 11, (0 ||| (1 <<< src.val) : Nat) = 2 ^ src.val ∧ (setBits (0 ||| (1 <<< src.val)) 11).headD 0 = src.val := by decide

theorem takeTriggers_one {lastQ : Nat} {row : RecRow} {tr : RecTrigger} (h : s.recd.trigs = [tr]) (hat : 4 * tr.at' ≤ lastQ)
    (harmed : recState s = recArmed) : takeTriggers lastQ row s = startCapture [tr] row (setRec { s.recd with trigs := [] } s) := by
  have h1 : [tr].filter (fun t => decide (4 * t.at' ≤ lastQ)) = [tr] := by simp [hat]
  have h2 : [tr].filter (fun t => decide (lastQ < 4 * t.at')) = [] := by simp [hat]
  have h3 : recState (setRec { s.recd with trigs := [] } s) = recArmed := harmed
  unfold takeTriggers
  dsimp only
  rw [h, h1, h2]
  exact (if_neg (by simp)).trans (if_pos h3)

theorem changesFolded_effect (row : RecRow) (s : State) : (∃ bits ch, (changesFolded row s).recd = { s.recd with binFirst := bits, changes := ch }) ∧
    (changesFolded row s).log = s.log ∧ (changesFolded row s).regs = s.regs := by
  unfold changesFolded
  split <;> exact ⟨⟨_, _, rfl⟩, rfl, rfl⟩

/-- What the beginning of a capture leaves of a plan that does not stream. -/
structure CaptureMade (first : Nat) (r : Record) (at' : Nat) (s t : State) : Prop where
  state : recState t = recCapturing
  recd : t.recd = { s.recd with cur := some r, nextNo := s.recd.nextNo + 1, post := 0, drained := 0 }
  time : rd64 t Reg.REC_TRIG_TIME = BitVec.ofNat 64 at'
  raises : Room 1 s → Raises 0x7002 first r.number s t
  regs : ∀ a, blockAt a = some .recd → a ≠ Reg.REC_STATUS → a ≠ Reg.REC_TRIG_TIME → a ≠ Reg.REC_TRIG_TIME + 4 → rd t a = rd s a

theorem captureBegun_effect (r : Record) (s : State) : recState (captureBegun r s) = recCapturing ∧
    (captureBegun r s).recd = { s.recd with cur := some r, nextNo := s.recd.nextNo + 1, post := 0, drained := 0 } ∧
    (captureBegun r s).log = s.log ∧ ∀ a, blockAt a = some .recd → a ≠ Reg.REC_STATUS → rd (captureBegun r s) a = rd s a := by
  unfold captureBegun
  have hst := recState_setRecState recCapturing (by decide) (setRec { s.recd with
    cur := some r, nextNo := s.recd.nextNo + 1, post := 0, drained := 0 } s)
  have hrest : (setRecState recCapturing (setRec { s.recd with cur := some r, nextNo := s.recd.nextNo + 1, post := 0, drained := 0 } s)).recd =
      { s.recd with cur := some r, nextNo := s.recd.nextNo + 1, post := 0, drained := 0 } ∧
    (setRecState recCapturing (setRec { s.recd with cur := some r, nextNo := s.recd.nextNo + 1, post := 0, drained := 0 } s)).log = s.log ∧
    ∀ a, a ≠ Reg.REC_STATUS →
      rd (setRecState recCapturing (setRec { s.recd with cur := some r, nextNo := s.recd.nextNo + 1, post := 0, drained := 0 } s)) a = rd s a :=
    ⟨rfl, rfl, fun a ha => rd_setF_ne _ _ _ ha⟩
  obtain ⟨hrecd, hlog, hrd⟩ := hrest
  generalize setRecState recCapturing (setRec { s.recd with cur := some r, nextNo := s.recd.nextNo + 1, post := 0, drained := 0 } s) = u
    at hst hrecd hlog hrd ⊢
  have hev := commitOp_ev (n := s.recd.op) (foot_self _) (Ev.refl _ u)
  exact ⟨(recState_of_rd (rd_of_ev hev rfl (b := .recd) (by decide) rfl)).trans hst, (keeps_of_ev (p := .recd) hev rfl).trans hrecd,
    (keeps_of_ev (p := .log) hev rfl).trans hlog, fun a ha h => (rd_of_ev hev rfl ha rfl).trans (hrd a h)⟩

theorem captureMade_made {first : Nat} {r : Record} {at' : Nat} (hstream : recStream s = false) :
    CaptureMade first r at' s (captureMade first r at' s) := by
  obtain ⟨hst, hrecd, hlog, hrd⟩ := captureBegun_effect r s
  unfold captureMade captureTold
  generalize captureBegun r s = u at hst hrecd hlog hrd ⊢
  have hlrecd := recd_logEvent 0x7002 first r.number u
  have hlst := recState_logEvent 0x7002 first r.number u
  have hlrd : ∀ a, a ≠ Reg.CMD_STATUS → a ≠ Reg.CMD_EVT_LOST → rd (logEvent 0x7002 first r.number u) a = rd u a :=
    fun a h h' => rd_logEvent u 0x7002 first r.number h h'
  have hlogged : Room 1 s → Logged [(0x7002, first, r.number)] s (logEvent 0x7002 first r.number u) := fun h => logged_logEvent _ _ _ hlog h
  generalize logEvent 0x7002 first r.number u = v at hlrecd hlst hlrd hlogged ⊢
  obtain ⟨-, hwlog, -, -, hwrd⟩ := wr64_kept v Reg.REC_TRIG_TIME (BitVec.ofNat 64 at')
  have hwrecd : (wr64 v Reg.REC_TRIG_TIME (BitVec.ofNat 64 at')).recd = v.recd := rfl
  have htime := rd64_wr64 v Reg.REC_TRIG_TIME (BitVec.ofNat 64 at')
  generalize wr64 v Reg.REC_TRIG_TIME (BitVec.ofNat 64 at') = w at hwlog hwrd hwrecd htime ⊢
  have hblock : ∀ a, blockAt a = some .recd → a ≠ Reg.CMD_STATUS ∧ a ≠ Reg.CMD_EVT_LOST := fun a ha =>
    ⟨fun h => absurd (h ▸ ha) (by decide), fun h => absurd (h ▸ ha) (by decide)⟩
  have hregs : ∀ a, blockAt a = some .recd → a ≠ Reg.REC_STATUS → a ≠ Reg.REC_TRIG_TIME → a ≠ Reg.REC_TRIG_TIME + 4 → rd w a = rd s a :=
    fun a ha h1 h2 h3 => (hwrd a h2 h3).trans ((hlrd a (hblock a ha).1 (hblock a ha).2).trans (hrd a ha h1))
  have hnot : recStream w = false := (flg_of_rd (hregs _ (by decide) (by decide) (by decide) (by decide)) _).trans hstream
  rw [hnot, whenS_false]
  exact ⟨(recState_of_rd (hwrd _ (by decide) (by decide))).trans (hlst.trans hst), hwrecd.trans (hlrecd.trans hrecd), htime,
    fun h => raises_of_grown (hlogged h) (.of_log (.refl v) hwlog), hregs⟩

/-- A post row stored by a plan that does not stream, with rows left and no mask that stops it. -/
theorem storePost_stored {row : RecRow} (hstream : recStream s = false) (hpost : s.recd.post + 1 < recPost s)
    (hleft : ∀ k : Fin 4, (s.recd.masks[k]).left = none) :
    storePost row s = setRec { s.recd with rows := s.recd.rows ++ [row], post := s.recd.post + 1 } s := by
  have happ : recStream (rowAppended row s) = false := hstream
  have hroom : postRoom s = (true, s) := if_neg (by rw [hstream]; exact Bool.false_ne_true)
  have hany : (rowAppended row s).recd.masks.toList.any (fun y => y.left == some 0) = false := by
    refine List.any_eq_false.mpr fun m hm => ?_
    obtain ⟨i, hi, rfl⟩ := List.mem_iff_getElem.mp hm
    have hk := hleft ⟨i, by simpa using hi⟩
    have : ((rowAppended row s).recd.masks.toList[i]).left = none := by simpa [rowAppended, setRec] using hk
    rw [this]
    decide
  have hp : ¬ recPost (rowAppended row s) ≤ (rowAppended row s).recd.post := Nat.not_le.mpr hpost
  rw [storePost_eq, if_neg (by rw [hstream]; exact Bool.false_ne_true), hroom, if_neg (show ¬ (!true) = true from Bool.false_ne_true)]
  unfold rowStored postEnded
  rw [happ, whenS_false, if_neg hp, if_neg (by rw [hany]; exact Bool.false_ne_true)]
  rfl

/-- What the trigger row of a quiet armed plan leaves, where the capture does not stream and has post rows left. -/
theorem row_started (z : Vector CapInput 64) {tr : RecTrigger} (harmed : recState s = recArmed) (hdue : rowDue s = true) (hq : recQuiet s)
    (htrigs : s.recd.trigs = [tr]) (hat : 4 * tr.at' ≤ capQ s (recDue s)) (hstream : recStream s = false) (hpost : 1 < recPost s)
    (hroom : Room 2 s) : let t := captureStep z s
    recState t = recCapturing ∧ t.recd.rows = s.recd.rows ++ [rowDone z s] ∧ t.recd.trigs = [] ∧ t.recd.nextNo = s.recd.nextNo + 1 ∧
    rd64 t Reg.REC_TRIG_TIME = BitVec.ofNat 64 (rowDone z s).at' ∧ Raises 0x7002 tr.src s.recd.nextNo s t ∧
    ∃ r, t.recd.cur = some r ∧ r.number = s.recd.nextNo ∧ r.mask = 2 ^ tr.src.val ∧ r.trigAt = (rowDone z s).at' ∧
      r.preRows = s.recd.rows.length := by
  dsimp only
  rw [captureStep_row z (.inl harmed) hdue]
  have ht := instantTaken_taken z s
  have hrecd := instantTaken_quiet z hq.1
  generalize instantTaken z (recDue s) (capQ s (recDue s)) s = u at ht hrecd ⊢
  have hmask : ∀ k : Fin 4, fld u (Reg.REC_MASK_CFG k) F.REC_MASK_CFG_action = 0 := fun k => (fld_of_regs ht.regs _ _).trans (hq.2 k).1
  have hust : recState u = recArmed := (fld_of_regs ht.regs _ _).trans harmed
  obtain ⟨hm, hfirst⟩ := hitMask_one tr.src
  rw [formRow_eq, masksJudged_off hmask, rowOf_taken ht.regs (by rw [hrecd]), takeTriggers_one (by rw [hrecd, htrigs]) hat hust,
    startCapture_eq, show (setBits (hitMask [tr]) 11).headD 0 = tr.src.val from hfirst]
  generalize rowDone z s = row
  obtain ⟨⟨bits, ch, hfold⟩, hflog, hfregs⟩ := changesFolded_effect row (setRec { u.recd with trigs := [] } u)
  have hbase : (setRec { u.recd with trigs := [] } u).recd = { u.recd with trigs := [] } ∧ (setRec { u.recd with trigs := [] } u).log = u.log ∧
    (setRec { u.recd with trigs := [] } u).regs = u.regs := ⟨rfl, rfl, rfl⟩
  obtain ⟨hb1, hb2, hb3⟩ := hbase
  generalize changesFolded row (setRec { u.recd with trigs := [] } u) = v at hfold hflog hfregs ⊢
  rw [hb1, hrecd] at hfold
  have hvlog : v.log = s.log := hflog.trans (hb2.trans ht.log)
  have hvregs : v.regs = s.regs := hfregs.trans (hb3.trans ht.regs)
  have hr : (recordBegun [tr] row v).number = s.recd.nextNo ∧ (recordBegun [tr] row v).mask = 2 ^ tr.src.val ∧
      (recordBegun [tr] row v).trigAt = row.at' ∧ (recordBegun [tr] row v).preRows = s.recd.rows.length := by
    refine ⟨?_, hm, rfl, ?_⟩
    · show v.recd.nextNo = _
      rw [hfold]
    · show v.recd.rows.length = _
      rw [hfold]
  generalize recordBegun [tr] row v = r at hr ⊢
  have hvstream : recStream v = false := (flg_of_regs hvregs _ _).trans hstream
  have hmade := captureMade_made (first := tr.src.val) (r := r) (at' := row.at') hvstream
  generalize captureMade tr.src.val r row.at' v = w at hmade ⊢
  have hwrd : ∀ a, blockAt a = some .recd → a ≠ Reg.REC_STATUS → a ≠ Reg.REC_TRIG_TIME → a ≠ Reg.REC_TRIG_TIME + 4 → rd w a = rd s a :=
    fun a h1 h2 h3 h4 => (hmade.regs a h1 h2 h3 h4).trans (rd_of_regs hvregs a)
  obtain ⟨hcregs, hclog, hcrecd⟩ : (rowCounted w).regs = w.regs ∧ (rowCounted w).log = w.log ∧
    (rowCounted w).recd = { w.recd with formed := w.recd.formed + 1 } := ⟨rfl, rfl, rfl⟩
  generalize rowCounted w = c at hcregs hclog hcrecd ⊢
  rw [hmade.recd, hfold] at hcrecd
  have hcst : recState c = recCapturing := (fld_of_regs hcregs _ _).trans hmade.state
  have hcmask : ∀ k : Fin 4, fld c (Reg.REC_MASK_CFG k) F.REC_MASK_CFG_action = 0 := fun k =>
    (fld_of_regs hcregs _ _).trans ((fld_of_rd (hwrd _ (by revert k; decide) (by revert k; decide) (by revert k; decide)
      (by revert k; decide)) _).trans (hq.2 k).1)
  have hcstream : recStream c = false :=
    (flg_of_regs hcregs _ _).trans ((flg_of_rd (hwrd _ (by decide) (by decide) (by decide) (by decide)) _).trans hstream)
  have hcpost : recPost c = recPost s :=
    congrArg (fun v : Word => max 1 v.toNat) ((rd_of_regs hcregs _).trans (hwrd _ (by decide) (by decide) (by decide) (by decide)))
  have hplaced : rowPlaced row c = setRec { c.recd with rows := c.recd.rows ++ [row], post := c.recd.post + 1 } c := by
    unfold rowPlaced
    rw [if_pos hcst, masksJudged_off hcmask]
    refine storePost_stored hcstream ?_ fun k => ?_
    · rw [hcpost, hcrecd]
      exact hpost
    · rw [hcrecd]
      exact (hq.2 k).2
  have hpregs : (rowPlaced row c).regs = c.regs ∧ (rowPlaced row c).log = c.log ∧
      (rowPlaced row c).recd = { c.recd with rows := c.recd.rows ++ [row], post := c.recd.post + 1 } := by
    rw [hplaced]
    exact ⟨rfl, rfl, rfl⟩
  obtain ⟨hpregs, hplog, hprecd⟩ := hpregs
  generalize rowPlaced row c = p at hpregs hplog hprecd ⊢
  obtain ⟨he, helog, hestate, heregs⟩ := rowEnded_effect p
  rw [hcrecd] at hprecd
  rw [hprecd] at he
  refine ⟨hestate.trans ((fld_of_regs hpregs _ _).trans hcst), by rw [he], by rw [he], by rw [he], ?_, ?_, r, by rw [he], hr⟩
  · rw [← hmade.time]
    exact rd64_of_rd ((heregs _ (by decide) (by decide) (by decide)).trans ((rd_of_regs hpregs _).trans (rd_of_regs hcregs _)))
      ((heregs _ (by decide) (by decide) (by decide)).trans ((rd_of_regs hpregs _).trans (rd_of_regs hcregs _)))
  · have h := hmade.raises (room_of_log hvlog (by unfold Room at hroom ⊢; omega))
    rw [hr.1] at h
    exact raises_before (raises_after (.of_log (.refl s) hvlog) h) (.of_log (.refl w) (helog.trans (hplog.trans hclog)))

end Rows

end Sys2Proof.Machine
end


section
/-! PROOFS. The mask violations of the disturbance recorder, and its capture instants as a whole (R279, R288). -/

namespace Sys2Proof.Machine

open Sys2Proof Sys2Proof.Safety Sys2Proof.Laws

section Masks

variable {s x y t : State} {k : Fin 4}

/-! ### What the masks before one leave to it -/

/-- What a mask is judged by is as before, with at most some number of events. -/
structure MaskMoved (k : Fin 4) (n : Nat) (s t : State) : Prop where
  regs : ∀ a, a ≠ Reg.REC_STATUS → a ≠ Reg.CMD_STATUS → a ≠ Reg.CMD_EVT_LOST → rd t a = rd s a
  state : recState t = recState s
  acc : t.recd.acc = s.recd.acc
  formed : t.recd.formed = s.recd.formed
  post : t.recd.post = s.recd.post
  mask : t.recd.masks[k] = s.recd.masks[k]
  grows : GrowsBy n s t

theorem MaskMoved.refl (s : State) : MaskMoved k 0 s s := ⟨fun _ _ _ _ => rfl, rfl, rfl, rfl, rfl, rfl, .refl s⟩

theorem MaskMoved.trans {m n : Nat} (h : MaskMoved k m s x) (h' : MaskMoved k n x t) : MaskMoved k (m + n) s t :=
  ⟨fun a h1 h2 h3 => (h'.regs a h1 h2 h3).trans (h.regs a h1 h2 h3), h'.state.trans h.state, h'.acc.trans h.acc, h'.formed.trans h.formed,
    h'.post.trans h.post, h'.mask.trans h.mask, h.grows.trans h'.grows⟩

theorem MaskMoved.mono {m n : Nat} (h : MaskMoved k m s t) (hle : m ≤ n) : MaskMoved k n s t := { h with grows := h.grows.mono hle }

theorem MaskMoved.cfg {n : Nat} (h : MaskMoved k n s t) (m : Fin 4) : rd t (Reg.REC_MASK_CFG m) = rd s (Reg.REC_MASK_CFG m) :=
  h.regs _ (by revert m; decide) (by revert m; decide) (by revert m; decide)

theorem maskMoved_setRec {r : RecState} (h1 : r.acc = s.recd.acc) (h2 : r.formed = s.recd.formed) (h3 : r.post = s.recd.post)
    (h4 : r.masks[k] = s.recd.masks[k]) : MaskMoved k 0 s (setRec r s) :=
  ⟨fun _ _ _ _ => rfl, rfl, h1, h2, h3, h4, growsBy_of_log rfl⟩

theorem maskMoved_setMask {m : Fin 4} (z : MaskState) (h : k ≠ m) : MaskMoved k 0 s (setRec { s.recd with masks := s.recd.masks.set m z } s) :=
  maskMoved_setRec rfl rfl rfl ((masks_set m k z s).trans (if_neg h))

theorem maskMoved_recTrig (src : Fin 11) (i : Nat) (s : State) : MaskMoved k 0 s (recTrig src i s) := by
  unfold recTrig
  split
  · exact maskMoved_setRec (r := { s.recd with trigs := s.recd.trigs ++ [⟨src, i⟩] }) rfl rfl rfl rfl
  · exact .refl s

theorem maskMoved_addMark (t : RecTrigger) (s : State) : MaskMoved k 0 s (addMark t s) := by
  unfold addMark
  split
  · exact .refl s
  · exact maskMoved_setRec rfl rfl rfl rfl

theorem maskMoved_violationShown (m : Fin 4) (row : Nat) (s : State) : MaskMoved k 1 s (violationShown m row s) := by
  have hrecd : (violationShown m row s).recd = s.recd := recd_logEvent 0x7005 m (BitVec.ofNat 32 row) s
  refine ⟨fun a h1 h2 h3 => (rd_setF_ne _ _ _ h1).trans (rd_logEvent s _ _ _ h2 h3), ?_, by rw [hrecd], by rw [hrecd], by rw [hrecd], by rw [hrecd],
    growsBy_logEvent ..⟩
  exact (fld_setF_disj _ _ _ _ _ (by decide)).trans (recState_logEvent ..)

theorem maskMoved_maskActed (m : Fin 4) (at' : Nat) (s : State) : MaskMoved k 0 s (maskActed m at' s) := by
  unfold maskActed
  split
  · exact maskMoved_recTrig ..
  · exact maskMoved_addMark ..

theorem maskMoved_maskStep {ref : Bool} {row at' : Nat} {m : Fin 4} (h : k ≠ m ∨ flg s (Reg.REC_MASK_CFG m) F.REC_MASK_CFG_ref ≠ ref) :
    MaskMoved k 1 s (maskStep ref row at' m s) := by
  by_cases hoff : fld s (Reg.REC_MASK_CFG m) F.REC_MASK_CFG_action = 0 ∨ flg s (Reg.REC_MASK_CFG m) F.REC_MASK_CFG_ref ≠ ref
  · rw [maskStep, if_pos hoff]
    exact (MaskMoved.refl s).mono (Nat.zero_le 1)
  · have hne : k ≠ m := h.resolve_right fun h => hoff (.inr h)
    unfold maskStep
    dsimp only
    rw [if_neg hoff]
    split
    · exact (maskMoved_setMask _ hne).mono (Nat.zero_le 1)
    · split
      · exact (maskMoved_setMask _ hne).mono (Nat.zero_le 1)
      · split
        · exact (maskMoved_setMask _ hne).mono (Nat.zero_le 1)
        · obtain ⟨left, hv⟩ := maskViolated_eq m row at' s
          rw [hv]
          exact ((maskMoved_violationShown m row s).trans (maskMoved_maskActed m at' _)).trans (maskMoved_setMask _ hne)

theorem maskMoved_forEach {ref : Bool} {row at' : Nat} {l : List (Fin 4)}
    (h : ∀ m ∈ l, k ≠ m ∨ flg s (Reg.REC_MASK_CFG m) F.REC_MASK_CFG_ref ≠ ref) :
    MaskMoved k l.length s (forEach l (maskStep ref row at') s) := by
  induction l generalizing s with
  | nil => exact .refl s
  | cons m l ih =>
    have hm := maskMoved_maskStep (row := row) (at' := at') (h m List.mem_cons_self)
    refine (hm.trans (ih fun j hj => ?_)).mono (by rw [List.length_cons]; omega)
    rw [flg_of_rd (hm.cfg j)]
    exact h j (List.mem_cons_of_mem _ hj)

theorem maskLimits_congr (hregs : ∀ a, a ≠ Reg.REC_STATUS → a ≠ Reg.CMD_STATUS → a ≠ Reg.CMD_EVT_LOST → rd t a = rd s a) (row : Nat) :
    maskLimits t k row = maskLimits s k row := by
  have hcfg : rd t (Reg.REC_MASK_CFG k) = rd s (Reg.REC_MASK_CFG k) :=
    hregs _ (by revert k; decide) (by revert k; decide) (by revert k; decide)
  have hreg : ∀ a, Reg.REC_MASK_LIM 0 0 ≤ a → a < 0x400A0000 → rd t a = rd s a := fun a h1 h2 =>
    hregs a (by rintro rfl; exact absurd h1 (by decide)) (by rintro rfl; exact absurd h2 (by decide)) (by rintro rfl; exact absurd h2 (by decide))
  have hn : fld s (Reg.REC_MASK_CFG k) F.REC_MASK_CFG_npts < 64 :=
    Nat.lt_of_lt_of_le (fld_lt s (Reg.REC_MASK_CFG k) F.REC_MASK_CFG_npts) (by decide)
  have hk := k.isLt
  have hlim : ∀ j, j < 64 → rd t (Reg.REC_MASK_LIM k j) = rd s (Reg.REC_MASK_LIM k j) := fun j hj =>
    hreg _ (by simp only [Reg.REC_MASK_LIM]; omega) (by simp only [Reg.REC_MASK_LIM]; omega)
  have ht : ∀ j, j < 64 → rd t (Reg.REC_MASK_T k j) = rd s (Reg.REC_MASK_T k j) := fun j hj =>
    hreg _ (by simp only [Reg.REC_MASK_LIM, Reg.REC_MASK_T]; omega) (by simp only [Reg.REC_MASK_T]; omega)
  unfold maskLimits
  dsimp only
  rw [fld_of_rd hcfg, flg_of_rd hcfg, hlim 0 (by decide)]
  generalize fld s (Reg.REC_MASK_CFG k) F.REC_MASK_CFG_npts = m at hn
  have hfilter : (List.range m).filter (fun j => decide ((rd t (Reg.REC_MASK_T k j)).toNat ≤ row)) =
      (List.range m).filter (fun j => decide ((rd s (Reg.REC_MASK_T k j)).toNat ≤ row)) :=
    List.filter_congr fun j hj => by rw [ht j (Nat.lt_trans (List.mem_range.mp hj) hn)]
  rw [hfilter]
  cases hl : ((List.range m).filter (fun j => decide ((rd s (Reg.REC_MASK_T k j)).toNat ≤ row))).getLast? with
  | none => rfl
  | some j =>
    have hj : j < m := List.mem_range.mp (List.mem_of_mem_filter (List.mem_of_getLast? hl))
    dsimp only
    rw [hlim j (by omega), ht j (by omega)]
    by_cases hj1 : j + 1 < m
    · rw [hlim (j + 1) (by omega), ht (j + 1) (by omega)]
    · rw [if_neg hj1, if_neg hj1]

theorem maskOut_congr (hregs : ∀ a, a ≠ Reg.REC_STATUS → a ≠ Reg.CMD_STATUS → a ≠ Reg.CMD_EVT_LOST → rd t a = rd s a) (hacc : t.recd.acc = s.recd.acc)
    (row : Nat) : maskOut t k row = maskOut s k row := by
  have hach : achans t = achans s := achans_congr fun c => hregs _ (by revert c; decide) (by revert c; decide) (by revert c; decide)
  have hcfg : rd t (Reg.REC_MASK_CFG k) = rd s (Reg.REC_MASK_CFG k) :=
    hregs _ (by revert k; decide) (by revert k; decide) (by revert k; decide)
  unfold maskOut maskChannel
  rw [hach, hacc, fld_of_rd hcfg, maskLimits_congr hregs]

theorem maskOut_moved {n row : Nat} (h : MaskMoved k n s t) : maskOut t k row = maskOut s k row := maskOut_congr h.regs h.acc row

/-! ### A violation -/

/-- A violated mask. -/
structure Violated (k : Fin 4) (n : Nat) (s t : State) : Prop where
  done : (t.recd.masks[k]).done = true
  viol : flg t Reg.REC_STATUS F.REC_STATUS_mask_viol = true
  raises : Raises 0x7005 k (BitVec.ofNat 32 n) s t

theorem Violated.judged {n : Nat} (h : Violated k n s x) (hj : Judged x t) : Violated k n s t :=
  ⟨hj.done k h.done, hj.viol h.viol, raises_before h.raises hj.grows⟩

theorem Violated.after {n : Nat} (hg : LogGrows s x) (h : Violated k n x t) : Violated k n s t := ⟨h.done, h.viol, raises_after hg h.raises⟩

/-- The row that completes the count of a mask. -/
theorem maskStep_violated {ref : Bool} {row at' : Nat} (hact : fld s (Reg.REC_MASK_CFG k) F.REC_MASK_CFG_action ≠ 0)
    (href : flg s (Reg.REC_MASK_CFG k) F.REC_MASK_CFG_ref = ref) (hdone : (s.recd.masks[k]).done = false)
    (hrun : (s.recd.masks[k]).run + 1 = max 1 (fld s (Reg.REC_MASK_CFG k) F.REC_MASK_CFG_n)) (hout : maskOut s k row = true) (hroom : Room 1 s) :
    Violated k row s (maskStep ref row at' k s) := by
  have hstep : maskStep ref row at' k s = maskViolated k row at' s := by
    unfold maskStep
    dsimp only
    rw [if_neg (fun h => h.elim hact fun h => h href), if_neg (by rw [hdone]; exact Bool.false_ne_true),
      if_neg (by rw [hout]; exact Bool.false_ne_true), if_neg (by omega)]
  obtain ⟨left, hv⟩ := maskViolated_eq k row at' s
  rw [hstep, hv]
  have hacted := judged_maskActed k at' (violationShown k row s)
  have hviol := hacted.viol (flg_violationShown k row s)
  have hraise : Raises 0x7005 k (BitVec.ofNat 32 row) s (violationShown k row s) :=
    raises_of_grown (logged_logN (s := s) 0x7005 k row rfl hroom) (.of_log (.refl _) rfl)
  have hraise' := raises_before hraise hacted.grows
  generalize maskActed k at' (violationShown k row s) = x at hviol hraise' ⊢
  refine ⟨?_, hviol, raises_before hraise' (.of_log (.refl x) rfl)⟩
  rw [maskDone, masks_set, if_pos rfl]

/-- The masks of one reference at a row that completes the count of one of them. -/
theorem masksJudged_violated {ref : Bool} {row at' : Nat} (hact : fld s (Reg.REC_MASK_CFG k) F.REC_MASK_CFG_action ≠ 0)
    (href : flg s (Reg.REC_MASK_CFG k) F.REC_MASK_CFG_ref = ref) (hdone : (s.recd.masks[k]).done = false)
    (hrun : (s.recd.masks[k]).run + 1 = max 1 (fld s (Reg.REC_MASK_CFG k) F.REC_MASK_CFG_n)) (hout : maskOut s k row = true) (hroom : Room 4 s) :
    Violated k row s (masksJudged ref row at' s) := by
  obtain ⟨hsplit, hpre, hpost, hlen⟩ := finRange_split k
  have heq : masksJudged ref row at' s = forEach ((List.finRange 4).drop (k + 1)) (maskStep ref row at')
      (maskStep ref row at' k (forEach ((List.finRange 4).take k) (maskStep ref row at') s)) := by
    unfold masksJudged
    rw [hsplit, forEach_cons_mid, ← hsplit]
  have hb := maskMoved_forEach (s := s) (k := k) (ref := ref) (row := row) (at' := at') (l := (List.finRange 4).take k)
    fun m hm => .inl fun h => hpre (h ▸ hm)
  rw [heq]
  generalize forEach ((List.finRange 4).take k) (maskStep ref row at') s = x at hb ⊢
  refine (Violated.after hb.grows.logGrows (maskStep_violated (at' := at') ?_ ?_ ?_ ?_ ?_ ?_)).judged
    (judged_forEach (fun m y => judged_maskStep ref row at' m y) _)
  · rwa [fld_of_rd (hb.cfg k)]
  · rwa [flg_of_rd (hb.cfg k)]
  · rwa [hb.mask]
  · rwa [hb.mask, fld_of_rd (hb.cfg k)]
  · rwa [maskOut_moved hb]
  · exact hb.grows.room (by unfold Room at hroom ⊢; omega)

/-- The triggers of a row while a capture runs leave the masks alone. -/
theorem maskMoved_takeTriggers {lastQ : Nat} {row : RecRow} (h : recState s = recCapturing) : MaskMoved k 0 s (takeTriggers lastQ row s) := by
  have hbase : MaskMoved k 0 s (setRec { s.recd with trigs := s.recd.trigs.filter (fun t => lastQ < 4 * t.at') } s) :=
    maskMoved_setRec rfl rfl rfl rfl
  have hst : ¬ recState (setRec { s.recd with trigs := s.recd.trigs.filter (fun t => lastQ < 4 * t.at') } s) = recArmed := by
    rw [hbase.state, h]
    decide
  unfold takeTriggers
  dsimp only
  rw [if_neg hst]
  generalize setRec { s.recd with trigs := s.recd.trigs.filter (fun t => lastQ < 4 * t.at') } s = x at hbase ⊢
  split
  · exact hbase
  · exact forEach_keeps (P := MaskMoved k 0 s) (fun t _ y hy => hy.trans (maskMoved_addMark t y)) hbase

/-- A row of an active plan that completes the count of a mask. -/
theorem row_violates {z : Vector CapInput 64} (h : recActive s) (hdue : rowDue s = true)
    (hact : fld s (Reg.REC_MASK_CFG k) F.REC_MASK_CFG_action ≠ 0) (hdone : (s.recd.masks[k]).done = false)
    (hrun : (s.recd.masks[k]).run + 1 = max 1 (fld s (Reg.REC_MASK_CFG k) F.REC_MASK_CFG_n)) (hroom : Room 12 s)
    (hcap : flg s (Reg.REC_MASK_CFG k) F.REC_MASK_CFG_ref = false → recState s = recCapturing)
    (hout : maskOut (setRec { s.recd with acc := accsWith (samplesAt z (capQ s (recDue s)) s) s.recd } s) k
      (if flg s (Reg.REC_MASK_CFG k) F.REC_MASK_CFG_ref then s.recd.formed else s.recd.post) = true) :
    Violated k (if flg s (Reg.REC_MASK_CFG k) F.REC_MASK_CFG_ref then s.recd.formed else s.recd.post) s (captureStep z s) := by
  rw [captureStep_row z h hdue]
  have ht := instantTaken_taken z s
  generalize instantTaken z (recDue s) (capQ s (recDue s)) s = u at ht ⊢
  have hlog : LogGrows s u := .of_log (.refl s) ht.log
  have hurec : u.recd.formed = s.recd.formed ∧ u.recd.post = s.recd.post ∧ u.recd.masks = s.recd.masks := by
    rw [ht.recd]
    exact ⟨rfl, rfl, rfl⟩
  obtain ⟨hf, hp, hm⟩ := hurec
  have hmoved : MaskMoved k 0 (setRec { s.recd with acc := accsWith (samplesAt z (capQ s (recDue s)) s) s.recd } s) u :=
    ⟨fun a _ _ _ => rd_of_regs ht.regs a, fld_of_regs ht.regs _ _, by rw [ht.recd]; rfl, hf, hp, by rw [hm]; rfl, growsBy_of_log ht.log⟩
  rw [← maskOut_moved hmoved] at hout
  have hact' : fld u (Reg.REC_MASK_CFG k) F.REC_MASK_CFG_action ≠ 0 := by rwa [fld_of_regs ht.regs]
  have hdone' : (u.recd.masks[k]).done = false := by rwa [hm]
  have hrun' : (u.recd.masks[k]).run + 1 = max 1 (fld u (Reg.REC_MASK_CFG k) F.REC_MASK_CFG_n) := by rwa [hm, fld_of_regs ht.regs]
  have hroom' : Room 12 u := room_of_log ht.log hroom
  refine Violated.after hlog ?_
  rw [formRow_eq]
  cases href : flg s (Reg.REC_MASK_CFG k) F.REC_MASK_CFG_ref with
  | true =>
    rw [href, if_pos rfl, ← hf] at hout
    rw [if_pos rfl, ← hf]
    have hv := masksJudged_violated (at' := capQ s (recDue s + 1 - recK s) / 4) hact' ((flg_of_regs ht.regs _ _).trans href) hdone' hrun' hout
      (by unfold Room at hroom' ⊢; omega)
    refine hv.judged (judged_then (judged_rowEnded _) (judged_then (judged_rowPlaced _ _) (judged_then (judged_rowCounted _) (judged_takeTriggers ..))))
  | false =>
    rw [href, if_neg Bool.false_ne_true, ← hp] at hout
    rw [if_neg Bool.false_ne_true, ← hp]
    have href' : flg u (Reg.REC_MASK_CFG k) F.REC_MASK_CFG_ref = false := (flg_of_regs ht.regs _ _).trans href
    have hst : recState u = recCapturing := (fld_of_regs ht.regs _ _).trans (hcap href)
    have h1 : MaskMoved k 4 u (masksJudged true u.recd.formed (capQ s (recDue s + 1 - recK s) / 4) u) :=
      maskMoved_forEach (l := List.finRange 4) fun m _ => (eq_or_ne k m).elim (fun h => .inr (by rw [← h, href']; exact Bool.false_ne_true)) .inl
    generalize masksJudged true u.recd.formed (capQ s (recDue s + 1 - recK s) / 4) u = v at h1 ⊢
    have h2 : MaskMoved k 0 v (takeTriggers (capQ s (recDue s)) (rowOf (capQ s (recDue s + 1 - recK s)) u) v) :=
      maskMoved_takeTriggers (h1.state.trans hst)
    generalize takeTriggers (capQ s (recDue s)) (rowOf (capQ s (recDue s + 1 - recK s)) u) v = w at h2 ⊢
    have h12 := h1.trans h2
    have hc : ∀ a, rd (rowCounted w) a = rd w a := fun _ => rfl
    obtain ⟨hcrecd, hclog⟩ : (rowCounted w).recd = { w.recd with formed := w.recd.formed + 1 } ∧ (rowCounted w).log = w.log := ⟨rfl, rfl⟩
    generalize rowCounted w = c at hc hcrecd hclog ⊢
    have hcst : recState c = recCapturing := (recState_of_rd (hc _)).trans (h12.state.trans hst)
    have hcpost : c.recd.post = u.recd.post := by rw [hcrecd, ← h12.post]
    have hcmask : c.recd.masks[k] = u.recd.masks[k] := by rw [hcrecd, ← h12.mask]
    have hcout : maskOut c k u.recd.post = true := by
      rw [maskOut_congr (s := w) (fun a _ _ _ => hc a) (by rw [hcrecd]), maskOut_moved h12]
      exact hout
    have hv := masksJudged_violated (s := c) (k := k) (ref := false) (row := u.recd.post) (at' := (rowOf (capQ s (recDue s + 1 - recK s)) u).at')
      (by rwa [fld_of_rd ((hc _).trans (h12.cfg k))]) (by rwa [flg_of_rd ((hc _).trans (h12.cfg k))]) (by rwa [hcmask])
      (by rwa [hcmask, fld_of_rd ((hc _).trans (h12.cfg k))]) hcout
      (room_of_log hclog (h12.grows.room (by unfold Room at hroom' ⊢; omega)))
    have hplaced : rowPlaced (rowOf (capQ s (recDue s + 1 - recK s)) u) c = storePost (rowOf (capQ s (recDue s + 1 - recK s)) u)
        (masksJudged false u.recd.post (rowOf (capQ s (recDue s + 1 - recK s)) u).at' c) := by
      rw [← hcpost]
      exact if_pos hcst
    rw [hplaced]
    exact (Violated.after (h12.grows.logGrows.trans (.of_log (.refl w) hclog)) hv).judged
      (judged_then (judged_rowEnded _) (judged_storePost ..))

end Masks

end Sys2Proof.Machine

namespace Sys2Proof.Proofs

open Sys2Proof Sys2Proof.Machine Sys2Proof.Safety Sys2Proof.Laws

/-- Settles O49: a capture instant takes its samples, steps the level triggers, and forms a row where the interval is complete; what a level
trigger or a mask has judged by then, nothing after it in the row takes back. -/
theorem recCapture : Obligations.RecCapture := by
  unfold Obligations.RecCapture
  refine ⟨rows_none, fun z s h hk hfit => ⟨⟨_, rfl, samples_added z h hk hfit⟩, fun l hl => ?_⟩, fun z s harmed hdue hq => ⟨fun htrigs => ?_,
    fun tr htrigs hat hstream hpost hroom => ?_⟩, fun l z ch s h hl hch hon hfault hunset hlevel => ?_,
    fun k z s h hdue hact hdone hrun hroom hcap hout => ?_⟩
  · obtain ⟨hen, hfired, hcount⟩ := hl
    exact ⟨_, exec_levelTrigger z hen hfired hcount, samples_added z h hk hfit⟩
  · have hkept := row_kept z harmed hdue hq htrigs
    exact ⟨⟨_, rfl, hkept⟩, ⟨_, exec_storedRow z hdue, hkept⟩, _, exec_recTriggered z hdue harmed, hkept⟩
  · have hstarted := row_started z harmed hdue hq htrigs hat hstream hpost hroom
    exact ⟨⟨_, rfl, hstarted⟩, ⟨_, exec_storedRow z hdue, hstarted⟩, _, exec_recTriggered z hdue harmed, hstarted⟩
  · obtain ⟨hen, hfired, hcount⟩ := hl
    exact ⟨_, exec_levelTrigger z hen hfired hcount, levelTrigger_fires h hen hfired hcount hch hon hfault hunset hlevel⟩
  · obtain ⟨hd, hv, hr⟩ := row_violates h hdue hact hdone hrun hroom hcap hout
    exact ⟨_, exec_recMaskViolation z hdue hact hdone hrun, hd, hv, hr⟩

end Sys2Proof.Proofs
end


section
/-! PROOFS. What the operations of the duplex do to its state, its epoch and its log: a change of state, OWNER, a release, a takeover, the
conditions of SYNCED, a message sent (R361 to R370, R376). -/

namespace Sys2Proof.Machine

open Sys2Proof Sys2Proof.Safety Sys2Proof.Laws

/-! ### What every move of the duplex keeps -/

/-- The flags of DPX_STATUS that no change of state touches. -/
def dpxFlags : List Fld := [F.DPX_STATUS_side, F.DPX_STATUS_path_up, F.DPX_STATUS_stale_seen, F.DPX_STATUS_conflict_seen,
  F.DPX_STATUS_path_down_seen, F.DPX_STATUS_role_write]

/-- The registers of the duplex that tell of the configuration, of the partner and of a planned switchover. -/
def dpxInputs : List Nat := [Reg.DPX_CFG, Reg.DPX_PARTNER, Reg.DPX_PARTNER_EPOCH, Reg.DPX_DIGEST, Reg.DPX_DIGEST_PARTNER,
  Reg.DPX_SWITCH_TIME, Reg.DPX_SWITCH_TIME + 4, Reg.DPX_PATH_STAT 0, Reg.DPX_PATH_STAT 1]

/-- A move of the duplex: the clocks, what was received, the flags and the inputs are as before, and the log gains at most `n` events. -/
structure DpxMoved (n : Nat) (s t : State) : Prop where
  tai : t.tai = s.tai
  ticks : t.ticks = s.ticks
  hbAt : t.dpx.hbAt = s.dpx.hbAt
  paths : t.dpx.paths = s.dpx.paths
  seqIn : t.dpx.seqIn = s.dpx.seqIn
  grows : GrowsBy n s t
  flags : ∀ G ∈ dpxFlags, fld t Reg.DPX_STATUS G = fld s Reg.DPX_STATUS G
  regs : ∀ a ∈ dpxInputs, rd t a = rd s a

variable {s x y t : State} {m n : Nat}

theorem DpxMoved.refl (s : State) : DpxMoved 0 s s :=
  ⟨rfl, rfl, rfl, rfl, rfl, .refl s, fun _ _ => rfl, fun _ _ => rfl⟩

theorem DpxMoved.trans (h : DpxMoved m s x) (h' : DpxMoved n x t) : DpxMoved (m + n) s t :=
  ⟨h'.tai.trans h.tai, h'.ticks.trans h.ticks, h'.hbAt.trans h.hbAt, h'.paths.trans h.paths, h'.seqIn.trans h.seqIn,
    h.grows.trans h'.grows, fun G hG => (h'.flags G hG).trans (h.flags G hG), fun a ha => (h'.regs a ha).trans (h.regs a ha)⟩

theorem DpxMoved.mono (h : DpxMoved m s t) (hle : m ≤ n) : DpxMoved n s t := { h with grows := h.grows.mono hle }

theorem DpxMoved.localNs (h : DpxMoved n s t) : localNs t = localNs s := localNs_of_ticks h.ticks

theorem DpxMoved.now (h : DpxMoved n s t) : now t = now s := now_of_tai h.tai

theorem DpxMoved.dpxOn (h : DpxMoved n s t) : dpxOn t = dpxOn s := flg_of_rd (h.regs _ (by decide)) _

theorem DpxMoved.flg (h : DpxMoved n s t) {G : Fld} (hG : G ∈ dpxFlags) : flg t Reg.DPX_STATUS G = flg s Reg.DPX_STATUS G := by
  rw [Machine.flg, Machine.flg, h.flags G hG]

theorem DpxMoved.pathUp (h : DpxMoved n s t) (p : Fin 2) : pathUp t p = pathUp s p := by
  rw [Machine.pathUp, Machine.pathUp, fbit, fbit, h.flags _ (by decide)]

/-- What a heartbeat has noted: the clock, the paths and the messages received. -/
structure PathsKept (s t : State) : Prop where
  tai : t.tai = s.tai
  ticks : t.ticks = s.ticks
  hbAt : t.dpx.hbAt = s.dpx.hbAt
  paths : t.dpx.paths = s.dpx.paths
  seqIn : t.dpx.seqIn = s.dpx.seqIn
  up : fld t Reg.DPX_STATUS F.DPX_STATUS_path_up = fld s Reg.DPX_STATUS F.DPX_STATUS_path_up

theorem DpxMoved.pathsKept (h : DpxMoved n s t) : PathsKept s t := ⟨h.tai, h.ticks, h.hbAt, h.paths, h.seqIn, h.flags _ (by decide)⟩

theorem PathsKept.refl (s : State) : PathsKept s s := (DpxMoved.refl s).pathsKept

theorem PathsKept.trans (h : PathsKept s x) (h' : PathsKept x t) : PathsKept s t :=
  ⟨h'.tai.trans h.tai, h'.ticks.trans h.ticks, h'.hbAt.trans h.hbAt, h'.paths.trans h.paths, h'.seqIn.trans h.seqIn, h'.up.trans h.up⟩

theorem pathsKept_setStatus {G : Fld} (hG : G.lo + G.w ≤ 8 ∨ 10 ≤ G.lo) (v : Nat) (s : State) :
    PathsKept s (setF s Reg.DPX_STATUS G v) :=
  ⟨rfl, rfl, rfl, rfl, rfl, fld_setF_disj _ _ _ _ _ (hG.elim (fun h => .inr h) fun h => .inl h)⟩

/-- The duplex block is apart from what a footprint names. -/
def offDpx (f : Foot) : Bool :=
  !f.parts.contains .tai && !f.parts.contains .ticks && !f.parts.contains .dpx && !f.blocks.contains .dpx && !f.anyReg

theorem dpxInputs_block : ∀ a ∈ Reg.DPX_STATUS :: Reg.DPX_EPOCH :: dpxInputs, blockAt a = some .dpx := by decide

/-- A step whose footprint is apart from the duplex. -/
theorem dpxMoved_of_ev {f : Foot} (h : Ev f s t) (hf : offDpx f = true) (hg : GrowsBy n s t) :
    DpxMoved n s t ∧ t.dpx = s.dpx ∧ ∀ a, blockAt a = some .dpx → rd t a = rd s a := by
  simp only [offDpx, Bool.and_eq_true, Bool.not_eq_true'] at hf
  obtain ⟨⟨⟨⟨htai, hticks⟩, hdpx⟩, hblock⟩, hany⟩ := hf
  have hrec : t.dpx = s.dpx := keeps_of_ev h (p := .dpx) hdpx
  have hregs : ∀ a, blockAt a = some .dpx → rd t a = rd s a := fun a ha => rd_of_ev h hany ha hblock
  exact ⟨⟨keeps_of_ev h (p := .tai) htai, keeps_of_ev h (p := .ticks) hticks, congrArg (·.hbAt) hrec, congrArg (·.paths) hrec,
    congrArg (·.seqIn) hrec, hg, fun G _ => fld_of_rd (hregs _ (by decide)) G,
    fun a ha => hregs a (dpxInputs_block a (List.mem_cons_of_mem _ (List.mem_cons_of_mem _ ha)))⟩, hrec, hregs⟩

theorem dpxMoved_logEvent (c q : Nat) (e : Word) (s : State) : DpxMoved 1 s (logEvent c q e s) ∧ (logEvent c q e s).dpx = s.dpx ∧
    ∀ a, blockAt a = some .dpx → rd (logEvent c q e s) a = rd s a :=
  dpxMoved_of_ev (f := ⟨[.log], [.cmd], false⟩) (ev_logEvent (by decide) (by decide) (Ev.refl _ s)) rfl (growsBy_logEvent c q e s)

theorem dpxMoved_setDpxRec (z : DpxState) (s : State) (hhb : z.hbAt = s.dpx.hbAt) (hpaths : z.paths = s.dpx.paths)
    (hseq : z.seqIn = s.dpx.seqIn) : DpxMoved 0 s (setDpxRec z s) :=
  ⟨rfl, rfl, hhb, hpaths, hseq, growsBy_of_log rfl, fun _ _ => rfl, fun _ _ => rfl⟩

/-- A field of DPX_STATUS apart from the flags. -/
theorem dpxMoved_setStatus {G : Fld} (hG : ∀ H ∈ dpxFlags, H.lo + H.w ≤ G.lo ∨ G.lo + G.w ≤ H.lo) (v : Nat) (s : State) :
    DpxMoved 0 s (setF s Reg.DPX_STATUS G v) :=
  ⟨rfl, rfl, rfl, rfl, rfl, growsBy_of_log rfl, fun H hH => fld_setF_disj _ _ _ _ _ (hG H hH),
    fun a ha => rd_setF_ne _ _ _ (by rintro rfl; revert ha; decide)⟩

/-- A register that is no input of the duplex. -/
theorem dpxMoved_wr {a : Nat} (ha : a ∉ Reg.DPX_STATUS :: dpxInputs) (v : Word) (s : State) : DpxMoved 0 s (wr s a v) :=
  ⟨rfl, rfl, rfl, rfl, rfl, growsBy_of_log rfl,
    fun G _ => fld_of_rd (rd_wr_ne _ _ fun h => ha (by rw [← h]; exact List.mem_cons_self)) G,
    fun b hb => rd_wr_ne _ _ fun h => ha (by rw [← h]; exact List.mem_cons_of_mem _ hb)⟩

theorem GrowsBy.of_log (h : GrowsBy n x t) (hlog : x.log = s.log) : GrowsBy n s t := by
  rw [GrowsBy, ← hlog]
  exact h

/-! ### The state of Table 13.3 -/

theorem dpxState_of_rd (h : rd t Reg.DPX_STATUS = rd s Reg.DPX_STATUS) : dpxState t = dpxState s := fld_of_rd h _

theorem ownEpoch_setF_status (G : Fld) (v : Nat) (s : State) : ownEpoch (setF s Reg.DPX_STATUS G v) = ownEpoch s :=
  rd_setF_ne _ _ _ (by decide)

/-- State and role in the registers. -/
def dpxShown (n : Nat) (s : State) : State :=
  setF (setF s Reg.DPX_STATUS F.DPX_STATUS_state n) Reg.DPX_STATUS F.DPX_STATUS_role
    (roleOf (dpxOn (setF s Reg.DPX_STATUS F.DPX_STATUS_state n)) n)

theorem setDpx_eq (n : Nat) (s : State) : setDpx n s = if dpxState s = n then s else logN 0xA001 0 (dpxState s * 256 + n) (dpxShown n s) :=
  rfl

theorem dpxShown_moved (n : Nat) (hn : n < 16) (s : State) : DpxMoved 0 s (dpxShown n s) ∧ dpxState (dpxShown n s) = n ∧
    (dpxShown n s).dpx = s.dpx ∧ ∀ a, a ≠ Reg.DPX_STATUS → rd (dpxShown n s) a = rd s a := by
  unfold dpxShown
  generalize roleOf (dpxOn (setF s Reg.DPX_STATUS F.DPX_STATUS_state n)) n = r
  refine ⟨(dpxMoved_setStatus (by decide) n s).trans (dpxMoved_setStatus (by decide) r _), ?_, rfl, fun a ha => ?_⟩
  · rw [dpxState, fld_setF_disj _ _ _ _ _ (by decide), fld_setF _ _ _ _ (by decide)]
    exact Nat.mod_eq_of_lt hn
  · rw [rd_setF_ne _ _ _ ha, rd_setF_ne _ _ _ ha]

/-- A change of state changes DPX_STATUS alone, and logs at most one event. -/
theorem setDpx_moved (n : Nat) (hn : n < 16) (s : State) : DpxMoved 1 s (setDpx n s) ∧ dpxState (setDpx n s) = n ∧
    (setDpx n s).dpx = s.dpx ∧ ∀ a, blockAt a = some .dpx → a ≠ Reg.DPX_STATUS → rd (setDpx n s) a = rd s a := by
  rw [setDpx_eq]
  by_cases h : dpxState s = n
  · rw [if_pos h]
    exact ⟨(DpxMoved.refl s).mono (by decide), h, rfl, fun _ _ _ => rfl⟩
  · rw [if_neg h]
    obtain ⟨hmoved, hstate, hrec, hregs⟩ := dpxShown_moved n hn s
    generalize dpxState s * 256 + n = e
    generalize dpxShown n s = x at hmoved hstate hrec hregs
    obtain ⟨hmoved', hrec', hregs'⟩ := dpxMoved_logEvent 0xA001 0 (BitVec.ofNat 32 e) x
    refine ⟨(hmoved.trans hmoved').mono (by decide), ?_, hrec'.trans hrec, fun a ha hne => (hregs' a ha).trans (hregs a hne)⟩
    exact (dpxState_of_rd (hregs' _ (by decide))).trans hstate

theorem setDpx_kept (n : Nat) (s : State) : (setDpx n s).loop = s.loop ∧ (setDpx n s).scan = s.scan ∧ (setDpx n s).gfm = s.gfm ∧
    (setDpx n s).upd = s.upd ∧ (setDpx n s).busReply = s.busReply := by
  have h := setDpx_ev (n := n) (foot_self _) (Ev.refl _ s)
  refine ⟨keeps_of_ev h (p := .loop) rfl, keeps_of_ev h (p := .scan) rfl, keeps_of_ev h (p := .gfm) rfl, keeps_of_ev h (p := .upd) rfl,
    ?_⟩
  exact keeps_of_ev h (p := .busReply) rfl

theorem setDpx_epoch (n : Nat) (s : State) : ownEpoch (setDpx n s) = ownEpoch s := by
  rw [setDpx_eq]
  split
  · rfl
  · generalize dpxState s * 256 + n = e
    refine ((dpxMoved_logEvent 0xA001 0 (BitVec.ofNat 32 e) (dpxShown n s)).2.2 _ (by decide)).trans ?_
    rw [dpxShown, rd_setF_ne _ _ _ (by decide), rd_setF_ne _ _ _ (by decide)]
    rfl

/-! ### OWNER and a release (R367, R379, R380) -/

theorem showGates_ev' (s : State) : Ev ⟨[], [.pwm], false⟩ s (showGates s) := showGates_ev (foot_self _) (Ev.refl _ s)

theorem setOwner_ev' (b : Bool) (s : State) : Ev ⟨[.loop], [.pwm], false⟩ s (setOwner b s) := setOwner_ev (foot_self _) (Ev.refl _ s)

theorem owner_setOwner (b : Bool) (s : State) : (setOwner b s).loop = { s.loop with owner := b } := by
  have h := showGates_ev' { s with loop := { s.loop with owner := b } }
  exact keeps_of_ev h (p := .loop) rfl

theorem log_setOwner (b : Bool) (s : State) : (setOwner b s).log = s.log := keeps_of_ev (setOwner_ev' b s) (p := .log) rfl

/-- Driving OWNER changes it and shows it. -/
theorem driveOwner_moved (b : Bool) (s : State) : DpxMoved 0 s (driveOwner b s) ∧ (driveOwner b s).loop = { s.loop with owner := b } ∧
    (driveOwner b s).dpx = s.dpx ∧ dpxState (driveOwner b s) = dpxState s ∧ (driveOwner b s).log = s.log ∧
    ∀ a, blockAt a = some .dpx → a ≠ Reg.DPX_STATUS → rd (driveOwner b s) a = rd s a := by
  unfold driveOwner
  have hloop := owner_setOwner b s
  have hlog := log_setOwner b s
  obtain ⟨hmoved, hrec, hregs⟩ := dpxMoved_of_ev (n := 0) (setOwner_ev' b s) rfl (growsBy_of_log hlog)
  generalize setOwner b s = x at hloop hlog hmoved hrec hregs
  refine ⟨hmoved.trans (dpxMoved_setStatus (by decide) _ x), hloop, hrec, ?_, hlog, fun a ha hne => ?_⟩
  · rw [dpxState, fld_setF_disj _ _ _ _ _ (by decide)]
    exact dpxState_of_rd (hregs _ (by decide))
  · rw [rd_setF_ne _ _ _ hne]
    exact hregs a ha

/-- A core stops for want of the ACTIVE role. -/
def coreHeld (k : Fin 2) (s : State) : State :=
  if scanMode s k = scanStop then s
  else rescheduleSwap k (setScanMode k scanStop (setScan k (dropCycles s.scan.cores[k]) s))

theorem holdCores_eq (s : State) : holdCores s = coreHeld 1 (coreHeld 0 s) := rfl

theorem growsBy_setScanMode (k : Fin 2) (n : Nat) (s : State) : GrowsBy 1 s (setScanMode k n s) := by
  by_cases h : scanMode s k = n
  · rw [setScanMode_same h]
    exact (GrowsBy.refl s).mono (by decide)
  · rw [setScanMode_ne h]
    generalize scanMode s k * 256 + n = e
    have hlog : (modeShown k n s).log = s.log := rfl
    generalize modeShown k n s = x at hlog
    exact (growsBy_of_log (n := 0) hlog).trans (growsBy_logEvent ..)

theorem growsBy_coreHeld (k : Fin 2) (s : State) : GrowsBy 1 s (coreHeld k s) := by
  unfold coreHeld
  split
  · exact (GrowsBy.refl s).mono (by decide)
  · have hlog : (setScan k (dropCycles s.scan.cores[k]) s).log = s.log := rfl
    generalize setScan k (dropCycles s.scan.cores[k]) s = x at hlog
    obtain ⟨-, hres, -⟩ := rescheduleSwap_effect k (setScanMode k scanStop x)
    exact ((growsBy_of_log (n := 0) hlog).trans (growsBy_setScanMode k scanStop x)).trans (growsBy_of_log (n := 0) hres)

theorem growsBy_holdCores (s : State) : GrowsBy 2 s (holdCores s) := by
  rw [holdCores_eq]
  exact (growsBy_coreHeld 0 s).trans (growsBy_coreHeld 1 _)

theorem blockAt_SCAN_STATE (k : Fin 2) : blockAt (Reg.SCAN_STATE k) = some .scan := by
  revert k
  decide

theorem rd_logN_core (c q e : Nat) (k : Fin 2) (s : State) : rd (logN c q e s) (Reg.SCAN_STATE k) = rd s (Reg.SCAN_STATE k) :=
  rd_of_ev (f := ⟨[.log], [.cmd], false⟩) (ev_logEvent (by decide) (by decide) (Ev.refl _ _)) rfl (blockAt_SCAN_STATE k) rfl

theorem scanMode_setScanMode' (k : Fin 2) {n : Nat} (hn : n < 4) (s : State) : scanMode (setScanMode k n s) k = n := by
  by_cases h : scanMode s k = n
  · rw [setScanMode_same h, h]
  · rw [setScanMode_ne h]
    exact (scanMode_of_rd (rd_logN_core ..)).trans (modeShown_effect k n hn s).1

/-- A mode set leaves the state register of the other core. -/
theorem rd_setScanMode_other (k j : Fin 2) (hne : j ≠ k) {n : Nat} (hn : n < 4) (s : State) :
    rd (setScanMode k n s) (Reg.SCAN_STATE j) = rd s (Reg.SCAN_STATE j) := by
  by_cases h : scanMode s k = n
  · rw [setScanMode_same h]
  · rw [setScanMode_ne h]
    refine (rd_logN_core ..).trans ((modeShown_effect k n hn s).2.2 _ ?_)
    clear h
    revert k j
    decide

theorem rd_rescheduleSwap_state (k j : Fin 2) (s : State) : rd (rescheduleSwap k s) (Reg.SCAN_STATE j) = rd s (Reg.SCAN_STATE j) := by
  obtain ⟨-, -, -, -, hres⟩ := rescheduleSwap_effect k s
  exact hres _ (by simp only [Reg.SCAN_STATE, Reg.SCAN_SWAP_TIME]; omega) (by simp only [Reg.SCAN_STATE, Reg.SCAN_SWAP_TIME]; omega)

/-- A core that stops leaves the mode of the other core. -/
theorem scanMode_coreHeld_other (k j : Fin 2) (hne : j ≠ k) (s : State) : scanMode (coreHeld k s) j = scanMode s j := by
  unfold coreHeld
  split
  · rfl
  · have hregs : (setScan k (dropCycles s.scan.cores[k]) s).regs = s.regs := rfl
    generalize setScan k (dropCycles s.scan.cores[k]) s = x at hregs
    refine scanMode_of_rd ((rd_rescheduleSwap_state k j _).trans ((rd_setScanMode_other k j hne (by decide) x).trans ?_))
    exact rd_of_regs hregs _

theorem scanMode_coreHeld (k : Fin 2) (s : State) : scanMode (coreHeld k s) k = scanStop := by
  unfold coreHeld
  split
  next h => exact h
  · exact (scanMode_rescheduleSwap k _).trans (scanMode_setScanMode' k (by decide) _)

/-- The cores of a unit that gives the ACTIVE role up are in STOP. -/
theorem scanMode_holdCores (k : Fin 2) (s : State) : scanMode (holdCores s) k = scanStop := by
  rw [holdCores_eq]
  match k with
  | 0 => exact (scanMode_coreHeld_other 1 0 (by decide) (coreHeld 0 s)).trans (scanMode_coreHeld 0 s)
  | 1 => exact scanMode_coreHeld 1 _

theorem holdCores_moved (s : State) : DpxMoved 2 s (holdCores s) ∧ (holdCores s).dpx = s.dpx ∧ (holdCores s).loop = s.loop ∧
    ∀ a, blockAt a = some .dpx → rd (holdCores s) a = rd s a := by
  have hev := holdCores_ev (foot_self _) (Ev.refl _ s)
  obtain ⟨hmoved, hrec, hregs⟩ := dpxMoved_of_ev hev rfl (growsBy_holdCores s)
  exact ⟨hmoved, hrec, keeps_of_ev hev (p := .loop) rfl, hregs⟩

/-- A unit that gives OWNER up: RELEASED, its epoch and its messages as before. -/
structure GaveUp (n : Nat) (s t : State) : Prop where
  moved : DpxMoved n s t
  state : dpxState t = dpxReleased
  owner : t.loop.owner = false
  epoch : ownEpoch t = ownEpoch s
  rest : t.dpx = s.dpx

theorem GaveUp.then (h : GaveUp m s x) (hmoved : DpxMoved n x t) (hstate : dpxState t = dpxState x) (hloop : t.loop = x.loop)
    (hepoch : ownEpoch t = ownEpoch x) (hrec : t.dpx = x.dpx) : GaveUp (m + n) s t :=
  ⟨h.moved.trans hmoved, hstate.trans h.state, by rw [hloop]; exact h.owner, hepoch.trans h.epoch, hrec.trans h.rest⟩

theorem GaveUp.logEvent (h : GaveUp n s x) (c q : Nat) (e : Word) : GaveUp (n + 1) s (logEvent c q e x) := by
  obtain ⟨hmoved, hrec, hregs⟩ := dpxMoved_logEvent c q e x
  have hloop : (Machine.logEvent c q e x).loop = x.loop :=
    keeps_of_ev (f := ⟨[.log], [.cmd], false⟩) (ev_logEvent (by decide) (by decide) (Ev.refl _ _)) (p := .loop) rfl
  exact h.then hmoved (dpxState_of_rd (hregs _ (by decide))) hloop (hregs _ (by decide)) hrec

theorem enterReleased_gaveUp (s : State) : GaveUp 3 s (enterReleased s) := by
  unfold enterReleased
  obtain ⟨hown, hownLoop, hownRec, -, -, hownRegs⟩ := driveOwner_moved false s
  generalize driveOwner false s = x at hown hownLoop hownRec hownRegs
  obtain ⟨hset, hstate, hsetRec, hsetRegs⟩ := setDpx_moved dpxReleased (by decide) x
  obtain ⟨hsetLoop, -⟩ := setDpx_kept dpxReleased x
  generalize setDpx dpxReleased x = y at hset hstate hsetRec hsetRegs hsetLoop
  obtain ⟨hhold, hholdRec, hholdLoop, hholdRegs⟩ := holdCores_moved y
  refine ⟨((hown.trans hset).trans hhold).mono (by decide), (dpxState_of_rd (hholdRegs _ (by decide))).trans hstate, ?_, ?_,
    hholdRec.trans (hsetRec.trans hownRec)⟩
  · rw [hholdLoop, hsetLoop, hownLoop]
  · exact (hholdRegs _ (by decide)).trans ((hsetRegs _ (by decide) (by decide)).trans (hownRegs _ (by decide) (by decide)))

/-- A release by the timer or a probe is told. -/
theorem selfRelease_gaveUp (cause : Nat) (hroom : Room 4 s) : GaveUp 4 s (selfRelease cause s) ∧
    Raises 0xA008 cause (ownEpoch s) s (selfRelease cause s) := by
  unfold selfRelease
  have h := enterReleased_gaveUp s
  generalize enterReleased s = x at h
  have hx : Room 1 x := h.moved.grows.room hroom
  exact ⟨h.logEvent .., raises_after h.moved.grows.logGrows (raises_logEvent _ _ _ hx)⟩

/-- A claim of a higher epoch is shown. -/
def conflictShown (s : State) : State := setF s Reg.DPX_STATUS F.DPX_STATUS_conflict_seen 1

theorem epochConflict_eq (e : Word) (s : State) : epochConflict e s = logEvent 0xA009 0 e (enterReleased (conflictShown s)) := rfl

theorem conflictShown_effect (s : State) : flg (conflictShown s) Reg.DPX_STATUS F.DPX_STATUS_conflict_seen = true ∧
    (conflictShown s).log = s.log ∧ (conflictShown s).dpx = s.dpx ∧ ownEpoch (conflictShown s) = ownEpoch s ∧
    PathsKept s (conflictShown s) ∧ ∀ a ∈ dpxInputs, rd (conflictShown s) a = rd s a := by
  refine ⟨?_, rfl, rfl, ownEpoch_setF_status .., pathsKept_setStatus (.inr (by decide)) 1 s,
    fun a ha => rd_setF_ne _ _ _ (by rintro rfl; revert ha; decide)⟩
  rw [conflictShown, flg_setF _ _ _ _ (by decide)]
  rfl

/-- A higher epoch is claimed: the unit gives up and tells. -/
structure Conflicted (e : Word) (s t : State) : Prop where
  state : dpxState t = dpxReleased
  owner : t.loop.owner = false
  epoch : ownEpoch t = ownEpoch s
  rest : t.dpx = s.dpx
  seen : flg t Reg.DPX_STATUS F.DPX_STATUS_conflict_seen = true
  told : Raises 0xA009 0 e s t
  kept : PathsKept s t
  regs : ∀ a ∈ dpxInputs, rd t a = rd s a

theorem epochConflict_conflicted (e : Word) (hroom : Room 4 s) : Conflicted e s (epochConflict e s) := by
  rw [epochConflict_eq]
  obtain ⟨hflag, hlog, hrec, hepoch, hkept, hinputs⟩ := conflictShown_effect s
  generalize conflictShown s = x at hflag hlog hrec hepoch hkept hinputs
  have h := enterReleased_gaveUp x
  generalize enterReleased x = y at h
  have hgrows : GrowsBy 3 s y := h.moved.grows.of_log hlog
  have h' := h.logEvent 0xA009 0 e
  have htold := raises_after hgrows.logGrows (raises_logEvent 0xA009 0 e (hgrows.room hroom))
  generalize logEvent 0xA009 0 e y = t at h' htold
  exact ⟨h'.state, h'.owner, h'.epoch.trans hepoch, h'.rest.trans hrec, (h'.moved.flg (by decide)).trans hflag, htold,
    hkept.trans h'.moved.pathsKept, fun a ha => (h'.moved.regs a ha).trans (hinputs a ha)⟩

end Sys2Proof.Machine
end


section
/-! PROOFS. A takeover of the ACTIVE role, with its epoch, its time and its event (R365, R370). -/

namespace Sys2Proof.Machine

open Sys2Proof Sys2Proof.Safety Sys2Proof.Laws

variable {s x y t : State} {m n : Nat}

/-! ### The stages and the cores -/

theorem growsBy_setGfmState (g : Fin 2) (n : Nat) (s : State) : GrowsBy 1 s (setGfmState g n s) := by
  by_cases h : gState s g = n
  · rw [show setGfmState g n s = s from if_pos h]
    exact (GrowsBy.refl s).mono (by decide)
  · rw [setGfmState_eq h]
    generalize gState s g * 256 + n = e
    generalize contactorFor n (contClosed (stateEntered g n s) g) = b
    have hlog : (stateEntered g n s).log = s.log := rfl
    generalize stateEntered g n s = x at hlog
    have hgrown : GrowsBy 1 s (logN 0x5001 (2 * g) e x) := (growsBy_logEvent ..).of_log hlog
    generalize logN 0x5001 (2 * g) e x = y at hgrown
    have hset : (setContactor g b y).log = y.log :=
      keeps_of_ev (setContactor_ev (foot_self _) (Ev.refl _ y)) (p := .log) rfl
    exact hgrown.trans (growsBy_of_log (n := 0) hset)

/-- The stages that run are to stop. -/
def stagesStopped (s : State) : State :=
  forEach (List.finRange 4) (fun (st : Fin 4) s =>
    whenS (modeRuns (stageMode s st)) (fun s => setStage st { s.loop.stages[st] with stopReq := true } s) s) s

/-- The grid forming of a stage stops. -/
def gfmOff (g : Fin 2) (s : State) : State := whenS (gState s g != gStopped) (setGfmState g gStopped) s

theorem stagesAllOff_eq (s : State) : stagesAllOff s = gfmOff 1 (gfmOff 0 (stagesStopped s)) := rfl

theorem log_stagesStopped (s : State) : (stagesStopped s).log = s.log := by
  refine forEach_keeps (P := fun x => x.log = s.log) (fun st _ x hx => ?_) rfl
  cases modeRuns (stageMode x st)
  · exact hx
  · exact hx

theorem growsBy_gfmOff (g : Fin 2) (s : State) : GrowsBy 1 s (gfmOff g s) := by
  unfold gfmOff
  cases gState s g != gStopped
  · exact (GrowsBy.refl s).mono (by decide)
  · exact growsBy_setGfmState ..

theorem growsBy_stagesAllOff (s : State) : GrowsBy 2 s (stagesAllOff s) := by
  rw [stagesAllOff_eq]
  exact ((growsBy_gfmOff 0 _).trans (growsBy_gfmOff 1 _)).of_log (log_stagesStopped s)

/-- What becomes of the stages in a takeover of a source. -/
def stagesTaken (src : Nat) (s : State) : State := if src = 4 then stagesAllOff s else if src = 5 then s else stagesReplay s

/-- A part of a takeover that leaves the registers of the duplex and all but its marks of fresh outputs. -/
structure TakeKept (n : Nat) (s t : State) : Prop where
  moved : DpxMoved n s t
  regs : ∀ a, blockAt a = some .dpx → rd t a = rd s a
  ember : t.dpx.emberEpoch = s.dpx.emberEpoch

theorem TakeKept.trans (h : TakeKept m s x) (h' : TakeKept n x t) : TakeKept (m + n) s t :=
  ⟨h.moved.trans h'.moved, fun a ha => (h'.regs a ha).trans (h.regs a ha), h'.ember.trans h.ember⟩

theorem takeKept_of_ev {f : Foot} (h : Ev f s t) (hf : offDpx f = true) (hg : GrowsBy n s t) : TakeKept n s t := by
  obtain ⟨hmoved, hrec, hregs⟩ := dpxMoved_of_ev h hf hg
  exact ⟨hmoved, hregs, congrArg (·.emberEpoch) hrec⟩

theorem takeKept_stagesTaken (src : Nat) (s : State) : TakeKept 2 s (stagesTaken src s) := by
  unfold stagesTaken
  split
  · exact takeKept_of_ev (stagesAllOff_ev (foot_self _) (Ev.refl _ s)) rfl (growsBy_stagesAllOff s)
  · split
    · exact ⟨(DpxMoved.refl s).mono (by decide), fun _ _ => rfl, rfl⟩
    · unfold stagesReplay
      generalize Vector.ofFn _ = v
      exact ⟨(dpxMoved_setDpxRec { s.dpx with fresh := v } s rfl rfl rfl).mono (Nat.zero_le 2), fun _ _ => rfl, rfl⟩

theorem log_coresTakeover (s : State) : (coresTakeover s).log = s.log :=
  keeps_of_ev (coresTakeover_ev (foot_self _) (Ev.refl _ s)) (p := .log) rfl

theorem takeKept_coresTakeover (s : State) : TakeKept 0 s (coresTakeover s) :=
  takeKept_of_ev (coresTakeover_ev (foot_self _) (Ev.refl _ s)) rfl (growsBy_of_log (log_coresTakeover s))

/-! ### The takeover -/

/-- The epoch a takeover takes: one above both. -/
def nextEpoch (s : State) : Word :=
  (if ownEpoch s < rd s Reg.DPX_PARTNER_EPOCH then rd s Reg.DPX_PARTNER_EPOCH else ownEpoch s) + 1

/-- The instant of a takeover shown. -/
def takeShown (s : State) : State := wr64 s Reg.DPX_TAKEOVER_TIME (now s)

/-- What a takeover makes of the probes and the marks of fresh outputs. -/
def takeNoted (src : Nat) (s : State) : State :=
  setDpxRec { s.dpx with
    probeAt := none, unanswered := 0, switchHeld := none
    freshFrom := if src = 4 then none else some (localNs s) } s

theorem takeover_eq (src n : Nat) (s : State) : takeover src n s =
    setDpx n (logEvent 0xA006 src (nextEpoch s)
      (takeNoted src (takeShown (coresTakeover (driveOwner true (stagesTaken src (takeEpoch (nextEpoch s) s))))))) := rfl

/-- What a takeover does, at its end. -/
structure TookOver (src n : Nat) (s t : State) : Prop where
  moved : DpxMoved 4 s t
  state : dpxState t = n
  owner : t.loop.owner = true
  epoch : ownEpoch t = nextEpoch s
  ember : t.dpx.emberEpoch = ownEpoch t
  time : rd64 t Reg.DPX_TAKEOVER_TIME = now t
  told : Raises 0xA006 src (ownEpoch t) s t
  probe : t.dpx.probeAt = none ∧ t.dpx.unanswered = 0
  held : t.dpx.switchHeld = none

theorem takeEpoch_effect (e : Word) (s : State) : DpxMoved 0 s (takeEpoch e s) ∧ ownEpoch (takeEpoch e s) = e ∧
    (takeEpoch e s).dpx = { s.dpx with emberEpoch := e } ∧ dpxState (takeEpoch e s) = dpxState s ∧ (takeEpoch e s).loop = s.loop := by
  refine ⟨(dpxMoved_setDpxRec { s.dpx with emberEpoch := e } s rfl rfl rfl).trans (dpxMoved_wr (by decide) e _), rd_wr .., rfl, ?_, rfl⟩
  exact dpxState_of_rd (rd_wr_ne _ _ (by decide))

theorem takeShown_effect (s : State) : DpxMoved 0 s (takeShown s) ∧ rd64 (takeShown s) Reg.DPX_TAKEOVER_TIME = now s ∧
    ownEpoch (takeShown s) = ownEpoch s ∧ (takeShown s).dpx = s.dpx ∧ (takeShown s).loop = s.loop := by
  unfold takeShown
  generalize now s = q
  refine ⟨⟨rfl, rfl, rfl, rfl, rfl, growsBy_of_log rfl, fun G _ => fld_of_rd (rd_wr64_ne _ _ (by decide) (by decide)) G,
    fun a ha => rd_wr64_ne _ _ (by rintro rfl; revert ha; decide) (by rintro rfl; revert ha; decide)⟩, rd64_wr64 .., ?_, rfl, rfl⟩
  exact rd_wr64_ne _ _ (by decide) (by decide)

theorem takeNoted_effect (src : Nat) (s : State) : DpxMoved 0 s (takeNoted src s) ∧ (∀ a, rd (takeNoted src s) a = rd s a) ∧
    (takeNoted src s).dpx.emberEpoch = s.dpx.emberEpoch ∧ (takeNoted src s).loop = s.loop ∧ (takeNoted src s).dpx.probeAt = none ∧
    (takeNoted src s).dpx.unanswered = 0 ∧ (takeNoted src s).dpx.switchHeld = none :=
  ⟨dpxMoved_setDpxRec _ s rfl rfl rfl, fun _ => rfl, rfl, rfl, rfl, rfl, rfl⟩

/-- All of a takeover before its event. -/
structure TakeBefore (src : Nat) (s t : State) : Prop where
  moved : DpxMoved 2 s t
  owner : t.loop.owner = true
  epoch : ownEpoch t = nextEpoch s
  ember : t.dpx.emberEpoch = nextEpoch s
  time : rd64 t Reg.DPX_TAKEOVER_TIME = now s
  probe : t.dpx.probeAt = none ∧ t.dpx.unanswered = 0
  held : t.dpx.switchHeld = none

theorem takeBefore (src : Nat) (s : State) : TakeBefore src s
    (takeNoted src (takeShown (coresTakeover (driveOwner true (stagesTaken src (takeEpoch (nextEpoch s) s)))))) := by
  obtain ⟨e, he⟩ : ∃ e, nextEpoch s = e := ⟨_, rfl⟩
  rw [he]
  obtain ⟨hmoved, hepoch, hember, -, -⟩ := takeEpoch_effect e s
  replace hember : (takeEpoch e s).dpx.emberEpoch = e := congrArg (·.emberEpoch) hember
  generalize takeEpoch e s = x1 at hmoved hepoch hember
  have hstages := takeKept_stagesTaken src x1
  generalize stagesTaken src x1 = x2 at hstages
  obtain ⟨hown, hownLoop, hownRec, -, -, hownRegs⟩ := driveOwner_moved true x2
  generalize driveOwner true x2 = x3 at hown hownLoop hownRec hownRegs
  have hcores := takeKept_coresTakeover x3
  have hcoresLoop : (coresTakeover x3).loop = x3.loop := keeps_of_ev (coresTakeover_ev (foot_self _) (Ev.refl _ x3)) (p := .loop) rfl
  generalize coresTakeover x3 = x4 at hcores hcoresLoop
  obtain ⟨hshown, htime, hshownEpoch, hshownRec, hshownLoop⟩ := takeShown_effect x4
  generalize takeShown x4 = x5 at hshown htime hshownEpoch hshownRec hshownLoop
  obtain ⟨hnoted, hnotedRegs, hnotedEmber, hnotedLoop, hprobe, hunanswered, hheld⟩ := takeNoted_effect src x5
  generalize takeNoted src x5 = x6 at hnoted hnotedRegs hnotedEmber hnotedLoop hprobe hunanswered hheld
  have hall := (((hmoved.trans hstages.moved).trans hown).trans hcores.moved)
  refine ⟨((hall.trans hshown).trans hnoted).mono (by decide), ?_, ?_, ?_, ?_, ⟨hprobe, hunanswered⟩, hheld⟩
  · rw [hnotedLoop, hshownLoop, hcoresLoop, hownLoop]
  · calc rd x6 Reg.DPX_EPOCH = rd x5 Reg.DPX_EPOCH := hnotedRegs _
      _ = rd x4 Reg.DPX_EPOCH := hshownEpoch
      _ = rd x3 Reg.DPX_EPOCH := hcores.regs _ (by decide)
      _ = rd x2 Reg.DPX_EPOCH := hownRegs _ (by decide) (by decide)
      _ = rd x1 Reg.DPX_EPOCH := hstages.regs _ (by decide)
      _ = e := hepoch
      _ = nextEpoch s := he.symm
  · rw [hnotedEmber, hshownRec, hcores.ember, hownRec, hstages.ember, hember, he]
  · rw [rd64_of_rd (hnotedRegs _) (hnotedRegs _), htime, hall.now]

theorem takeover_tookOver (src n : Nat) (hn : n < 16) (hroom : Room 4 s) : TookOver src n s (takeover src n s) := by
  rw [takeover_eq]
  have h := takeBefore src s
  generalize takeNoted src _ = x at h
  have htold : Raises 0xA006 src (nextEpoch s) s (logEvent 0xA006 src (nextEpoch s) x) :=
    raises_after h.moved.grows.logGrows (raises_logEvent _ _ _ (h.moved.grows.room (Nat.le_trans (by omega) hroom)))
  obtain ⟨hev, hevRec, hevRegs⟩ := dpxMoved_logEvent 0xA006 src (nextEpoch s) x
  have hevLoop : (logEvent 0xA006 src (nextEpoch s) x).loop = x.loop := logEvent_loop ..
  generalize logEvent 0xA006 src (nextEpoch s) x = y at htold hev hevRec hevRegs hevLoop
  obtain ⟨hset, hstate, hsetRec, hsetRegs⟩ := setDpx_moved n hn y
  obtain ⟨hsetLoop, -⟩ := setDpx_kept n y
  generalize setDpx n y = t at hset hstate hsetRec hsetRegs hsetLoop
  have hrec : t.dpx = x.dpx := hsetRec.trans hevRec
  have hregs : ∀ a, blockAt a = some .dpx → a ≠ Reg.DPX_STATUS → rd t a = rd x a := fun a ha hne =>
    (hsetRegs a ha hne).trans (hevRegs a ha)
  have hepoch : ownEpoch t = nextEpoch s := (hregs _ (by decide) (by decide)).trans h.epoch
  have hmoved : DpxMoved 4 s t := (h.moved.trans hev).trans hset
  refine ⟨hmoved, hstate, ?_, hepoch, ?_, ?_, ?_, ?_, ?_⟩
  · rw [hsetLoop, hevLoop, h.owner]
  · rw [hrec, h.ember, hepoch]
  · rw [rd64_of_rd (hregs _ (by decide) (by decide)) (hregs _ (by decide) (by decide)), h.time, hmoved.now]
  · rw [hepoch]
    exact raises_before htold hset.grows.logGrows
  · rw [hrec]
    exact h.probe
  · rw [hrec, h.held]

end Sys2Proof.Machine
end


section
/-! PROOFS. Messages of a duplex sent, received and found stale, and the conditions of SYNCED (R361 to R363, R366, R376). -/

namespace Sys2Proof.Machine

open Sys2Proof Sys2Proof.Safety Sys2Proof.Laws

variable {s x y t : State} {m n : Nat}

/-! ### Sending (R361) -/

/-- The messages with one more sent. -/
def withSent (ty : Fin 16) (m : GuyMessage) (d : DpxState) : DpxState :=
  { d with seqOut := d.seqOut.set ty m.seq, sent := d.sent.set ty (some m) }

/-- The next message of a type. -/
def nextMessage (ty : Fin 16) (p : GuyPayload) (s : State) : GuyMessage :=
  ⟨roleOf true (dpxState s), ownEpoch s, s.dpx.seqOut[ty] + 1, p⟩

theorem sendGuy_on (ty : Fin 16) (p : GuyPayload) (hon : dpxOn s = true) :
    sendGuy ty p s = setDpxRec (withSent ty (nextMessage ty p s) s.dpx) s := if_neg (by rw [hon]; decide)

theorem sendGuy_off (ty : Fin 16) (p : GuyPayload) (hon : dpxOn s = false) : sendGuy ty p s = s := if_pos (by rw [hon]; decide)

@[simp] theorem sent_withSent (ty : Fin 16) (m : GuyMessage) (d : DpxState) : (withSent ty m d).sent[ty] = some m := by
  simp [withSent]

@[simp] theorem seqOut_withSent (ty : Fin 16) (m : GuyMessage) (d : DpxState) : (withSent ty m d).seqOut[ty] = m.seq := by
  simp [withSent]

/-- A message sent changes what was sent alone. -/
structure SentOnly (s t : State) : Prop where
  moved : DpxMoved 0 s t
  regs : t.regs = s.regs
  log : t.log = s.log
  loop : t.loop = s.loop
  scan : t.scan = s.scan
  cmd : t.cmd = s.cmd
  reply : t.busReply = s.busReply
  rest : ∃ q m, t.dpx = { s.dpx with seqOut := q, sent := m }

theorem sendGuy_sentOnly (ty : Fin 16) (p : GuyPayload) (s : State) : SentOnly s (sendGuy ty p s) := by
  cases hon : dpxOn s
  · rw [sendGuy_off ty p hon]
    exact ⟨.refl s, rfl, rfl, rfl, rfl, rfl, rfl, _, _, rfl⟩
  · rw [sendGuy_on ty p hon]
    generalize nextMessage ty p s = m
    exact ⟨dpxMoved_setDpxRec (withSent ty m s.dpx) s rfl rfl rfl, rfl, rfl, rfl, rfl, rfl, rfl, _, _, rfl⟩

theorem sendGuy_sent (ty : Fin 16) (p : GuyPayload) (hon : dpxOn s = true) :
    (sendGuy ty p s).dpx.sent[ty] = some (nextMessage ty p s) ∧ (sendGuy ty p s).dpx.seqOut[ty] = s.dpx.seqOut[ty] + 1 := by
  rw [sendGuy_on ty p hon]
  exact ⟨sent_withSent .., seqOut_withSent ..⟩

/-! ### Stale messages (R366) -/

/-- A stale message shown and counted. -/
def staleShown (s : State) : State := setF s Reg.DPX_STATUS F.DPX_STATUS_stale_seen 1

/-- The count told, and when. -/
def staleTold (s : State) : State :=
  setDpxRec { s.dpx with stale := s.dpx.stale.set 0 0, staleLogged := s.dpx.staleLogged.set 0 (some (localNs s)) } s

theorem noteStale_eq (s : State) : noteStale 0 s = if oncePerSecond s.dpx.staleLogged[0] (staleShown s) then
      logN 0xA00A 0 (s.dpx.stale[0] + 1) (staleTold (staleShown s))
    else setDpxRec { s.dpx with stale := s.dpx.stale.set 0 (s.dpx.stale[0] + 1) } (staleShown s) := rfl

/-- What a stale message leaves. -/
structure StaleNoted (s t : State) : Prop where
  kept : PathsKept s t
  seen : flg t Reg.DPX_STATUS F.DPX_STATUS_stale_seen = true
  state : dpxState t = dpxState s
  regs : ∀ a, blockAt a = some .dpx → a ≠ Reg.DPX_STATUS → rd t a = rd s a
  loop : t.loop = s.loop
  scan : t.scan = s.scan
  grows : GrowsBy 1 s t
  only : Room 1 s → OnlyRegs [Reg.DPX_STATUS] s t
  logged : Room 1 s → Logged (if oncePerSecond s.dpx.staleLogged[0] s then [(0xA00A, 0, BitVec.ofNat 32 (s.dpx.stale[0] + 1))] else []) s t

theorem staleShown_effect (s : State) : PathsKept s (staleShown s) ∧
    flg (staleShown s) Reg.DPX_STATUS F.DPX_STATUS_stale_seen = true ∧ dpxState (staleShown s) = dpxState s ∧
    (∀ a, a ≠ Reg.DPX_STATUS → rd (staleShown s) a = rd s a) ∧ (staleShown s).loop = s.loop ∧ (staleShown s).scan = s.scan ∧
    (staleShown s).log = s.log := by
  refine ⟨pathsKept_setStatus (.inr (by decide)) 1 s, ?_, ?_, fun a ha => rd_setF_ne _ _ _ ha, rfl, rfl, rfl⟩
  · rw [staleShown, flg_setF _ _ _ _ (by decide)]
    rfl
  · rw [dpxState, staleShown, fld_setF_disj _ _ _ _ _ (by decide)]
    rfl

theorem staleTold_kept (s : State) : PathsKept s (staleTold s) ∧ (staleTold s).regs = s.regs ∧ (staleTold s).loop = s.loop ∧
    (staleTold s).scan = s.scan ∧ (staleTold s).log = s.log := ⟨⟨rfl, rfl, rfl, rfl, rfl, rfl⟩, rfl, rfl, rfl, rfl⟩

theorem noteStale_noted (s : State) : StaleNoted s (noteStale 0 s) := by
  rw [noteStale_eq]
  obtain ⟨hkept, hseen, hstate, hregs, hloop, hscan, hlog⟩ := staleShown_effect s
  have honce : oncePerSecond s.dpx.staleLogged[0] (staleShown s) = oncePerSecond s.dpx.staleLogged[0] s := rfl
  rw [honce]
  obtain ⟨c, hc⟩ : ∃ c, s.dpx.stale[0] + 1 = c := ⟨_, rfl⟩
  rw [hc]
  by_cases h : oncePerSecond s.dpx.staleLogged[0] s = true
  · rw [if_pos h]
    generalize staleShown s = x at hkept hseen hstate hregs hloop hscan hlog
    obtain ⟨hkept', hregs', hloop', hscan', hlog'⟩ := staleTold_kept x
    generalize staleTold x = y at hkept' hregs' hloop' hscan' hlog'
    have hrd : ∀ a, rd y a = rd x a := rd_of_regs hregs'
    obtain ⟨hev, -, hevRegs⟩ := dpxMoved_logEvent 0xA00A 0 (BitVec.ofNat 32 c) y
    have hroom : Room 1 s → (∀ a, rd (logN 0xA00A 0 c y) a = rd y a) ∧
        Logged [(0xA00A, 0, BitVec.ofNat 32 c)] s (logN 0xA00A 0 c y) := fun hroom =>
      ⟨rd_logN_room 0xA00A 0 c (hlog'.trans hlog) hroom, logged_logN 0xA00A 0 c (hlog'.trans hlog) hroom⟩
    have hl : (logN 0xA00A 0 c y).loop = y.loop := logEvent_loop ..
    have hsc : (logN 0xA00A 0 c y).scan = y.scan := logEvent_scan ..
    change DpxMoved 1 y (logN 0xA00A 0 c y) at hev
    change ∀ a, _ → rd (logN 0xA00A 0 c y) a = _ at hevRegs
    generalize logN 0xA00A 0 c y = t at hev hevRegs hroom hl hsc
    refine ⟨(hkept.trans hkept').trans hev.pathsKept, ?_, ?_, fun a ha hne => ?_, ?_, ?_, ?_, fun h1 a ha => ?_, fun h1 => ?_⟩
    · exact (flg_of_rd (hevRegs _ (by decide)) _).trans ((flg_of_rd (hrd _) _).trans hseen)
    · exact (dpxState_of_rd (hevRegs _ (by decide))).trans ((dpxState_of_rd (hrd _)).trans hstate)
    · exact (hevRegs a ha).trans ((hrd a).trans (hregs a hne))
    · rw [hl, hloop', hloop]
    · rw [hsc, hscan', hscan]
    · exact hev.grows.of_log (hlog'.trans hlog)
    · exact ((hroom h1).1 a).trans ((hrd a).trans (hregs a fun he => ha (List.mem_singleton.mpr he)))
    · rw [if_pos h, hc]
      exact (hroom h1).2
  · rw [if_neg h]
    have hrec : ∀ x : State, ∀ z : DpxState, z.hbAt = x.dpx.hbAt → z.paths = x.dpx.paths → z.seqIn = x.dpx.seqIn →
        PathsKept x (setDpxRec z x) := fun x z h1 h2 h3 => ⟨rfl, rfl, h1, h2, h3, rfl⟩
    have hkept' := hrec (staleShown s) { s.dpx with stale := s.dpx.stale.set 0 c } rfl rfl rfl
    generalize ({ s.dpx with stale := s.dpx.stale.set 0 c } : DpxState) = z at hkept'
    generalize staleShown s = x at hkept hseen hstate hregs hloop hscan hlog hkept'
    refine ⟨hkept.trans hkept', hseen, hstate, fun a _ hne => hregs a hne, hloop, hscan, growsBy_of_log hlog,
      fun _ a ha => hregs a fun he => ha (List.mem_singleton.mpr he), fun _ => ?_⟩
    rw [if_neg h]
    exact logged_nil hlog

/-! ### Receiving (R363, R366) -/

theorem firstCopy_iff (s : State) (ty : Fin 16) (h : GuyHeader) : firstCopy s ty h = true → dpxOn s = true ∧ dpxState s ≠ dpxOff ∧
    h.crcOk = true := by
  unfold firstCopy
  simp only [Bool.and_eq_true, bne_iff_ne]
  exact fun h => ⟨h.1.1.1, h.1.1.2, h.1.2⟩

/-- A first copy is noted: its sequence number and its sender's epoch. -/
def received (ty : Fin 16) (h : GuyHeader) (s : State) : State := wr (acceptSeq ty h.seq s) Reg.DPX_PARTNER_EPOCH h.epoch

section Receive

variable {ty : Fin 16} {role : Option Nat} {anyEpoch : Bool} {h : GuyHeader} {act : State → State}

theorem receive_off (hoff : dpxOn s = false ∨ dpxState s = dpxOff) : receive ty role anyEpoch h act s = s :=
  if_pos (hoff.imp_left fun h => by rw [h]; rfl)

theorem receive_crc (hon : dpxOn s = true) (hstate : dpxState s ≠ dpxOff) (hcrc : h.crcOk = false) :
    receive ty role anyEpoch h act s = badCrc h.path s := by
  unfold receive
  rw [if_neg (by simp [hon, hstate]), if_pos (by rw [hcrc]; rfl)]

theorem receive_repeat (hcrc : h.crcOk = true) (hfirst : firstCopy s ty h = false) : receive ty role anyEpoch h act s = s := by
  unfold receive
  rw [if_neg (c := (!h.crcOk) = true) (by rw [hcrc]; decide), if_pos (c := (!firstCopy s ty h) = true) (by rw [hfirst]; rfl)]
  exact ite_self ..

theorem ownEpoch_received (ty : Fin 16) (h : GuyHeader) (s : State) : ownEpoch (received ty h s) = ownEpoch s :=
  rd_wr_ne _ _ (by decide)

theorem receive_first (hfirst : firstCopy s ty h = true) : receive ty role anyEpoch h act s =
    if (h.epoch ≠ ownEpoch s ∧ (!anyEpoch) = true) ∨
        (!(match role with | none => true | some r => h.role.val == r)) = true then noteStale 0 (received ty h s)
      else act (received ty h s) := by
  obtain ⟨hon, hstate, hcrc⟩ := firstCopy_iff s ty h hfirst
  rw [← ownEpoch_received ty h s]
  unfold receive
  rw [if_neg (by simp [hon, hstate]), if_neg (by rw [hcrc]; decide), if_neg (by rw [hfirst]; decide)]
  rfl

theorem receive_acts (hfirst : firstCopy s ty h = true) (hepoch : h.epoch = ownEpoch s ∨ anyEpoch = true)
    (hrole : ∀ r, role = some r → h.role.val = r) : receive ty role anyEpoch h act s = act (received ty h s) := by
  rw [receive_first hfirst, if_neg]
  rintro (⟨hne, hany⟩ | hbad)
  · rcases hepoch with hepoch | hepoch
    · exact hne hepoch
    · rw [hepoch] at hany
      cases hany
  · cases role with
    | none => cases hbad
    | some r => simp [hrole r rfl] at hbad

theorem receive_bad (hfirst : firstCopy s ty h = true)
    (hbad : (h.epoch ≠ ownEpoch s ∧ anyEpoch = false) ∨ ∃ r, role = some r ∧ h.role.val ≠ r) :
    receive ty role anyEpoch h act s = noteStale 0 (received ty h s) := by
  rw [receive_first hfirst, if_pos]
  rcases hbad with ⟨hne, hany⟩ | ⟨r, hr, hne⟩
  · exact .inl ⟨hne, by rw [hany]; rfl⟩
  · rw [hr]
    exact .inr (by simpa using hne)

end Receive

theorem guyArrives_clear {ty : BitVec 16} {h : GuyHeader} {mk : GuyHeader → Instr} {run : GuyHeader → State → Out}
    (hclear : Clear (guyUnit h.path) s) : guyArrives ty h mk run s = run h s := arrives_clear hclear

/-- What noting a first copy changes: the sequence number and the partner's epoch. -/
structure Received (ty : Fin 16) (h : GuyHeader) (s t : State) : Prop where
  seq : t.dpx.seqIn[ty] = some h.seq
  epochSeen : rd t Reg.DPX_PARTNER_EPOCH = h.epoch
  only : OnlyRegs [Reg.DPX_PARTNER_EPOCH] s t
  log : t.log = s.log
  tai : t.tai = s.tai
  ticks : t.ticks = s.ticks
  loop : t.loop = s.loop
  scan : t.scan = s.scan
  gfm : t.gfm = s.gfm
  upd : t.upd = s.upd
  prot : t.prot = s.prot
  rest : t.dpx = { s.dpx with seqIn := t.dpx.seqIn }

theorem received_effect (ty : Fin 16) (h : GuyHeader) (s : State) : Received ty h s (received ty h s) := by
  refine ⟨?_, rd_wr .., fun a ha => rd_wr_ne _ _ fun he => ha (List.mem_singleton.mpr he), rfl, rfl, rfl, rfl, rfl, rfl, rfl, rfl, rfl⟩
  change (s.dpx.seqIn.set ty (some h.seq))[ty] = _
  simp

/-! ### The conditions of SYNCED (R376) -/

/-- What the conditions of SYNCED are judged by, but for DPX_STATUS: the registers, the clock, the messages and the images. -/
structure SyncInputs (s t : State) : Prop where
  regs : ∀ a, a ≠ Reg.DPX_STATUS → rd t a = rd s a
  up : fld t Reg.DPX_STATUS F.DPX_STATUS_path_up = fld s Reg.DPX_STATUS F.DPX_STATUS_path_up
  ticks : t.ticks = s.ticks
  dpx : t.dpx = s.dpx
  upd : t.upd = s.upd

/-- The version of the firmware that runs, of update and recovery alone. -/
def versionIn (u : UpdState) : Word := match u.firmware[(u.journal[2]).active] with | none => 0 | some f => f.version

theorem firmwareVersion_of_upd (h : t.upd = s.upd) : firmwareVersion t = firmwareVersion s := by
  have hdef : ∀ z : State, firmwareVersion z = versionIn z.upd := fun _ => rfl
  rw [hdef, hdef, h]

theorem ownVersions_of_regs (hpitch : rd t Reg.FAB_IMAGE_ID = rd s Reg.FAB_IMAGE_ID)
    (hscan : ∀ k : Fin 2, rd t (Reg.SCAN_PROG_ID k) = rd s (Reg.SCAN_PROG_ID k)) (hset : rd t Reg.UPD_SETTINGS = rd s Reg.UPD_SETTINGS)
    (hupd : t.upd = s.upd) : ownVersions t = ownVersions s := by
  have h0 := hscan 0
  have h1 := hscan 1
  rw [ownVersions, ownVersions, hpitch, hset, firmwareVersion_of_upd hupd]
  exact congrArg₂ (fun a b => (⟨_, #v[a, b], _, _⟩ : Versions)) h0 h1

theorem SyncInputs.versions (h : SyncInputs s t) : ownVersions t = ownVersions s :=
  ownVersions_of_regs (h.regs _ (by decide)) (fun k => h.regs _ (by revert k; decide)) (h.regs _ (by decide)) h.upd

theorem CTRL_STATE_ne_DPX (st : Fin 4) : Reg.CTRL_STAGE_STATE st ≠ Reg.DPX_STATUS := by
  revert st
  decide

theorem SyncInputs.stageMode (h : SyncInputs s t) (st : Fin 4) : stageMode t st = stageMode s st :=
  fld_of_rd (h.regs _ (CTRL_STATE_ne_DPX st)) _

theorem SyncInputs.mirrorGap (h : SyncInputs s t) : mirrorGap t = mirrorGap s := by
  simp only [Machine.mirrorGap, h.dpx, localNs_of_ticks h.ticks, h.stageMode]

theorem SyncInputs.blockedAlone (h : SyncInputs s t) : blockedAlone t = blockedAlone s := by
  funext st
  simp only [Machine.blockedAlone, h.dpx, latchedBlocked]
  rw [fbit_of_rd (h.regs _ (by decide))]

theorem SyncInputs.syncFault (h : SyncInputs s t) : syncFault t = syncFault s := by
  have hup : anyPathUp t = anyPathUp s := by rw [anyPathUp, anyPathUp, h.up]
  have htime : timeState t = timeState s := fld_of_rd (h.regs _ (by decide)) _
  have hsource : timeSource t = timeSource s := fld_of_rd (h.regs _ (by decide)) _
  simp only [Machine.syncFault, h.versions, h.mirrorGap, h.blockedAlone, hup, htime, hsource, h.regs Reg.DPX_DIGEST (by decide),
    h.regs Reg.DPX_DIGEST_PARTNER (by decide), h.dpx]

end Sys2Proof.Machine
end


section
/-! PROOFS. How a unit becomes SYNCED, leaves SYNCED and rejoins (R376, R388, rows 2, 16, 17 and 25). -/

namespace Sys2Proof.Machine

open Sys2Proof Sys2Proof.Safety Sys2Proof.Laws

variable {s x y t : State} {m n : Nat}

/-- A footprint apart from the images and their versions. -/
def offImages (f : Foot) : Bool :=
  !f.parts.contains .upd && !f.blocks.contains .fab && !f.blocks.contains .scan && !f.blocks.contains .upd && !f.anyReg

theorem ownVersions_of_ev {f : Foot} (h : Ev f s t) (hf : offImages f = true) : ownVersions t = ownVersions s := by
  simp only [offImages, Bool.and_eq_true, Bool.not_eq_true'] at hf
  obtain ⟨⟨⟨⟨hupd, hfab⟩, hscan⟩, hset⟩, hany⟩ := hf
  exact ownVersions_of_regs (rd_of_ev h hany (b := .fab) (by decide) hfab)
    (fun k => rd_of_ev h hany (b := .scan) (by revert k; decide) hscan) (rd_of_ev h hany (b := .upd) (by decide) hset)
    (keeps_of_ev h (p := .upd) hupd)

/-! ### The conditions judged (row 17) -/

theorem showSynced_effect (s : State) : DpxMoved 0 s (showSynced s) ∧ dpxState (showSynced s) = dpxState s ∧
    (∀ a, a ≠ Reg.DPX_STATUS → rd (showSynced s) a = rd s a) ∧ (showSynced s).dpx = s.dpx ∧ (showSynced s).loop = s.loop ∧
    (showSynced s).log = s.log ∧ syncFault (showSynced s) = syncFault s ∧
    flg (showSynced s) Reg.DPX_STATUS F.DPX_STATUS_synced_ok = ((dpxState s == dpxSyncing || dpxState s == dpxSynced) && syncFault s == 0) := by
  unfold showSynced
  generalize hb : ((dpxState s == dpxSyncing || dpxState s == dpxSynced) && syncFault s == 0) = b
  have hmoved := dpxMoved_setStatus (G := F.DPX_STATUS_synced_ok) (by decide) (b2n b) s
  have hregs : ∀ a, a ≠ Reg.DPX_STATUS → rd (setF s Reg.DPX_STATUS F.DPX_STATUS_synced_ok (b2n b)) a = rd s a :=
    fun a ha => rd_setF_ne _ _ _ ha
  refine ⟨hmoved, ?_, hregs, rfl, rfl, rfl, ?_, flg_setF_b2n _ _ _ _ (by decide) (by decide)⟩
  · rw [dpxState, fld_setF_disj _ _ _ _ _ (by decide)]
    rfl
  · exact SyncInputs.syncFault ⟨hregs, hmoved.flags _ (by decide), rfl, rfl, rfl⟩

/-- A mismatch shown. -/
def mismatchShown (s : State) : State := setF s Reg.DPX_STATUS F.DPX_STATUS_mismatch_seen 1

theorem noteMismatch_eq (s : State) : noteMismatch s = logEvent 0xA00F 0 (rd s Reg.DPX_DIGEST_PARTNER) (mismatchShown s) := rfl

theorem mismatchShown_moved (s : State) : DpxMoved 0 s (mismatchShown s) ∧ (mismatchShown s).dpx = s.dpx ∧
    (mismatchShown s).loop = s.loop ∧ dpxState (mismatchShown s) = dpxState s ∧
    ∀ a, a ≠ Reg.DPX_STATUS → rd (mismatchShown s) a = rd s a := by
  refine ⟨dpxMoved_setStatus (by decide) 1 s, rfl, rfl, ?_, fun a ha => rd_setF_ne _ _ _ ha⟩
  rw [dpxState, mismatchShown, fld_setF_disj _ _ _ _ _ (by decide)]
  rfl

/-- A move of the duplex that leaves its record, OWNER, and every register of its block but DPX_STATUS. -/
structure StatusMoved (n : Nat) (s t : State) : Prop where
  moved : DpxMoved n s t
  rest : t.dpx = s.dpx
  loop : t.loop = s.loop
  regs : ∀ a, blockAt a = some .dpx → a ≠ Reg.DPX_STATUS → rd t a = rd s a

theorem StatusMoved.refl (s : State) : StatusMoved 0 s s := ⟨.refl s, rfl, rfl, fun _ _ _ => rfl⟩

theorem StatusMoved.trans (h : StatusMoved m s x) (h' : StatusMoved n x t) : StatusMoved (m + n) s t :=
  ⟨h.moved.trans h'.moved, h'.rest.trans h.rest, h'.loop.trans h.loop, fun a ha hne => (h'.regs a ha hne).trans (h.regs a ha hne)⟩

theorem StatusMoved.mono (h : StatusMoved m s t) (hle : m ≤ n) : StatusMoved n s t := { h with moved := h.moved.mono hle }

theorem StatusMoved.epoch (h : StatusMoved n s t) : ownEpoch t = ownEpoch s := h.regs _ (by decide) (by decide)

theorem statusMoved_logEvent (c q : Nat) (e : Word) (s : State) : StatusMoved 1 s (logEvent c q e s) ∧
    dpxState (logEvent c q e s) = dpxState s := by
  obtain ⟨hmoved, hrec, hregs⟩ := dpxMoved_logEvent c q e s
  exact ⟨⟨hmoved, hrec, logEvent_loop .., fun a ha _ => hregs a ha⟩, dpxState_of_rd (hregs _ (by decide))⟩

theorem statusMoved_setDpx (n : Nat) (hn : n < 16) (s : State) : StatusMoved 1 s (setDpx n s) ∧ dpxState (setDpx n s) = n := by
  obtain ⟨hmoved, hstate, hrec, hregs⟩ := setDpx_moved n hn s
  exact ⟨⟨hmoved, hrec, (setDpx_kept n s).1, hregs⟩, hstate⟩

theorem statusMoved_noteMismatch (s : State) : StatusMoved 1 s (noteMismatch s) ∧ dpxState (noteMismatch s) = dpxState s := by
  rw [noteMismatch_eq]
  obtain ⟨hmoved, hrec, hloop, hstate, hregs⟩ := mismatchShown_moved s
  generalize rd s Reg.DPX_DIGEST_PARTNER = e
  generalize mismatchShown s = x at hmoved hrec hloop hstate hregs
  have hx : StatusMoved 0 s x := ⟨hmoved, hrec, hloop, fun a _ hne => hregs a hne⟩
  obtain ⟨hev, hevState⟩ := statusMoved_logEvent 0xA00F 0 e x
  exact ⟨(hx.trans hev).mono (by decide), hevState.trans hstate⟩

theorem statusMoved_showSynced (s : State) : StatusMoved 0 s (showSynced s) := by
  obtain ⟨hmoved, -, hregs, hrec, hloop, -⟩ := showSynced_effect s
  exact ⟨hmoved, hrec, hloop, fun a _ hne => hregs a hne⟩

/-- SYNCED is left for a condition that fails. -/
def syncLost (c : Nat) (s : State) : State := setDpx dpxSyncing (logN 0xA00C c 0 (whenS (c == 2) noteMismatch s))

theorem checkSynced_eq (s : State) : checkSynced s = if dpxState (showSynced s) = dpxSynced ∧ syncFault s ≠ 0 then
    syncLost (syncFault s) (showSynced s) else showSynced s := rfl

theorem syncLost_effect (c : Nat) (s : State) : StatusMoved 3 s (syncLost c s) ∧ dpxState (syncLost c s) = dpxSyncing ∧
    (Room 2 s → Raises 0xA00C c 0 s (syncLost c s)) := by
  unfold syncLost
  have hx : StatusMoved 1 s (whenS (c == 2) noteMismatch s) := by
    cases c == 2
    · exact (StatusMoved.refl s).mono (by decide)
    · exact (statusMoved_noteMismatch s).1
  generalize whenS (c == 2) noteMismatch s = x at hx
  obtain ⟨hev, -⟩ := statusMoved_logEvent 0xA00C c (BitVec.ofNat 32 0) x
  have htold : Room 2 s → Raises 0xA00C c 0 s (logN 0xA00C c 0 x) := fun hroom =>
    raises_after hx.moved.grows.logGrows (raises_logEvent 0xA00C c (BitVec.ofNat 32 0) (hx.moved.grows.room hroom))
  change StatusMoved 1 x (logN 0xA00C c 0 x) at hev
  generalize logN 0xA00C c 0 x = y at hev htold
  obtain ⟨hset, hstate⟩ := statusMoved_setDpx dpxSyncing (by decide) y
  exact ⟨(hx.trans hev).trans hset, hstate, fun hroom => raises_before (htold hroom) hset.moved.grows.logGrows⟩

/-- The conditions judged: they are shown, and SYNCED is left where one fails. -/
structure SyncChecked (s t : State) : Prop where
  status : StatusMoved 3 s t
  other : dpxState s ≠ dpxSynced → dpxState t = dpxState s
  held : syncFault s = 0 → dpxState t = dpxState s
  lost : dpxState s = dpxSynced → syncFault s ≠ 0 → dpxState t = dpxSyncing ∧ (Room 2 s → Raises 0xA00C (syncFault s) 0 s t)

theorem checkSynced_checked (s : State) : SyncChecked s (checkSynced s) := by
  rw [checkSynced_eq]
  obtain ⟨-, hstate, -, -, -, hlog, -, -⟩ := showSynced_effect s
  have hshown := statusMoved_showSynced s
  generalize hc : syncFault s = c
  generalize showSynced s = x at hstate hlog hshown
  rw [hstate]
  by_cases h : dpxState s = dpxSynced ∧ c ≠ 0
  · rw [if_pos h]
    obtain ⟨hmoved, hsync, htold⟩ := syncLost_effect c x
    refine ⟨(hshown.trans hmoved).mono (by decide), fun hne => absurd h.1 hne, fun h0 => absurd (hc.symm.trans h0) h.2, fun _ _ => ?_⟩
    rw [hc]
    refine ⟨hsync, fun hroom => ?_⟩
    exact raises_after hshown.moved.grows.logGrows (htold (hshown.moved.grows.room (by simpa using hroom)))
  · rw [if_neg h]
    exact ⟨hshown.mono (by decide), fun _ => hstate, fun _ => hstate, fun hs h0 => absurd ⟨hs, hc ▸ h0⟩ h⟩

/-! ### Rejoining (rows 2 and 25) -/

/-- The rejoin begins: its first heartbeat, no probe, no MIRROR. -/
def rejoinNoted (s : State) : State :=
  setDpxRec { s.dpx with firstHb := localNs s, probeAt := none, unanswered := 0, mirrorFrom := none } s

/-- The instant of a SYNC_REQ. -/
def requestNoted (s : State) : State := setDpxRec { s.dpx with syncReqAt := localNs s } s

theorem sendSyncReq_eq (s : State) : sendSyncReq s = sendGuy 0x0A (.syncReq (ownVersions s)) (requestNoted s) := rfl

theorem enterSyncing_eq (s : State) : enterSyncing s = sendSyncReq (setDpx dpxSyncing (rejoinNoted s)) := rfl

theorem requestNoted_kept (s : State) : DpxMoved 0 s (requestNoted s) ∧ (requestNoted s).regs = s.regs ∧ (requestNoted s).log = s.log ∧
    (requestNoted s).loop = s.loop ∧ (requestNoted s).dpx = { s.dpx with syncReqAt := localNs s } ∧ (requestNoted s).scan = s.scan :=
  ⟨dpxMoved_setDpxRec { s.dpx with syncReqAt := localNs s } s rfl rfl rfl, rfl, rfl, rfl, rfl, rfl⟩

/-- A SYNC_REQ is sent. -/
structure Requested (s t : State) : Prop where
  moved : DpxMoved 0 s t
  regs : t.regs = s.regs
  log : t.log = s.log
  loop : t.loop = s.loop
  at' : t.dpx.syncReqAt = localNs s
  rest : ∃ q m, t.dpx = { s.dpx with syncReqAt := localNs s, seqOut := q, sent := m }
  sent : dpxOn s = true → t.dpx.sent[10] = some ⟨roleOf true (dpxState s), ownEpoch s, s.dpx.seqOut[10] + 1, .syncReq (ownVersions s)⟩

theorem sendSyncReq_requested (s : State) : Requested s (sendSyncReq s) := by
  rw [sendSyncReq_eq]
  obtain ⟨v, hv⟩ : ∃ v, ownVersions s = v := ⟨_, rfl⟩
  rw [hv]
  obtain ⟨hmoved, hregs, hlog, hloop, hrec, -⟩ := requestNoted_kept s
  generalize requestNoted s = x at hmoved hregs hlog hloop hrec
  have h := sendGuy_sentOnly 0x0A (.syncReq v) x
  have hsent := sendGuy_sent 0x0A (.syncReq v) (s := x)
  generalize sendGuy 0x0A (.syncReq v) x = t at h hsent
  obtain ⟨q, m, hq⟩ := h.rest
  rw [hrec] at hq
  refine ⟨hmoved.trans h.moved, h.regs.trans hregs, h.log.trans hlog, h.loop.trans hloop, by rw [hq], ⟨q, m, hq⟩, fun hon => ?_⟩
  refine ((hsent (hmoved.dpxOn.trans hon)).1).trans ?_
  have hseq : x.dpx.seqOut = s.dpx.seqOut := by rw [hrec]
  simp only [nextMessage, dpxState, ownEpoch, fld, rd_of_regs hregs, hseq, hv]
  rfl

/-- A unit begins to rejoin. -/
structure Rejoined (s t : State) : Prop where
  moved : DpxMoved 1 s t
  state : dpxState t = dpxSyncing
  regs : ∀ a, blockAt a = some .dpx → a ≠ Reg.DPX_STATUS → rd t a = rd s a
  loop : t.loop = s.loop
  ember : t.dpx.emberEpoch = s.dpx.emberEpoch
  first : t.dpx.firstHb = localNs s
  sent : dpxOn s = true → (t.dpx.sent[10]).map (·.payload) = some (.syncReq (ownVersions s))

theorem enterSyncing_rejoined (s : State) : Rejoined s (enterSyncing s) := by
  rw [enterSyncing_eq]
  have hx : DpxMoved 0 s (rejoinNoted s) ∧ (rejoinNoted s).regs = s.regs ∧ (rejoinNoted s).loop = s.loop ∧
      (rejoinNoted s).dpx.emberEpoch = s.dpx.emberEpoch ∧ (rejoinNoted s).dpx.firstHb = localNs s ∧
      ownVersions (rejoinNoted s) = ownVersions s :=
    ⟨dpxMoved_setDpxRec _ s rfl rfl rfl, rfl, rfl, rfl, rfl, rfl⟩
  generalize rejoinNoted s = x at hx
  obtain ⟨hmoved, hregs, hloop, hember, hfirst, hversions⟩ := hx
  obtain ⟨hset, hstate⟩ := statusMoved_setDpx dpxSyncing (by decide) x
  have hown : ownVersions (setDpx dpxSyncing x) = ownVersions x := ownVersions_of_ev (setDpx_ev (foot_self _) (Ev.refl _ x)) rfl
  generalize setDpx dpxSyncing x = y at hset hstate hown
  have h := sendSyncReq_requested y
  generalize sendSyncReq y = t at h
  obtain ⟨q, m, hq⟩ := h.rest
  have hmove : DpxMoved 1 s t := ((hmoved.trans hset.moved).trans h.moved).mono (by decide)
  refine ⟨hmove, (dpxState_of_rd (rd_of_regs h.regs _)).trans hstate, fun a ha hne => ?_, ?_, ?_, ?_, fun hon => ?_⟩
  · exact (rd_of_regs h.regs a).trans ((hset.regs a ha hne).trans (rd_of_regs hregs a))
  · rw [h.loop, hset.loop, hloop]
  · rw [hq]
    exact (congrArg (·.emberEpoch) hset.rest).trans hember
  · rw [hq]
    exact (congrArg (·.firstHb) hset.rest).trans hfirst
  · rw [h.sent ((hmoved.trans hset.moved).dpxOn.trans hon), hown, hversions]
    rfl

end Sys2Proof.Machine
end


section
/-! PROOFS. The messages of a duplex as a unit lets them in: discarded, repeated, or stale (R361 to R363, R366). -/

namespace Sys2Proof.Machine

open Sys2Proof Sys2Proof.Safety Sys2Proof.Laws

variable {s x y t : State} {m n : Nat}

/-! ### What each message's command is -/

section Arrivals

variable {h : GuyHeader} (hclear : Clear (guyUnit h.path) s)
include hclear

theorem exec_mirror (x : MirrorMsg) : exec (.mirror h x) s = .next (receive 2 (some 1) false h (fun s => setDpxRec { s.dpx with
    mirrors := s.dpx.mirrors.set x.stage (some x), mirrorNew := s.dpx.mirrorNew.set x.stage true } s) s) :=
  Eq.trans (b := execMirror h x s) rfl (guyArrives_clear hclear)

theorem exec_mirrorGfm (y : Vector GfmMirror 2) : exec (.mirrorGfm h y) s = .next (receive 3 (some 1) false h (fun s =>
    if isStandby s then loadGfm 1 y[1] (loadGfm 0 y[0] s) else s) s) :=
  Eq.trans (b := execMirrorGfm h y s) rfl (guyArrives_clear hclear)

/-- The retained sets of RETAIN. -/
def putSets (z : Vector (Option RetainedSet) 2) (s : State) : State :=
  forEach (List.finRange 2) (fun (k : Fin 2) s => match z[k] with | none => s | some r => putRetained k r s) s

theorem exec_retain (z : Vector (Option RetainedSet) 2) : exec (.retain h z) s = .next (receive 4 (some 1) false h (putSets z) s) :=
  Eq.trans (b := execRetain h z s) rfl (guyArrives_clear hclear)

theorem exec_dying (why : Nat) : exec (.dying h why) s = .next (receive 6 none false h
    (fun s => dyingRows h (logEvent 0xA005 h.path h.epoch s)) s) :=
  Eq.trans (b := execDying h why s) rfl (guyArrives_clear hclear)

/-- A SYNCED unit holds S and acknowledges. -/
def holdSwitch (a : BitVec 64) (s : State) : State :=
  if dpxState s = dpxSynced then
    sendGuy 8 (.switchAck a) (wr64 (setDpxRec { s.dpx with switchHeld := some a } s) Reg.DPX_SWITCH_TIME a)
  else s

theorem exec_switch (a : BitVec 64) : exec (.switch h a) s = .next (receive 7 (some 1) false h (holdSwitch a) s) :=
  Eq.trans (b := execSwitch h a s) rfl (guyArrives_clear hclear)

/-- An acknowledgement of the planned instant counts. -/
def takeAck (a : BitVec 64) (s : State) : State :=
  if dpxState s = dpxSwitching ∧ a = rd64 s Reg.DPX_SWITCH_TIME then setDpxRec { s.dpx with ackHeld := true } s else s

theorem exec_switchAck (a : BitVec 64) : exec (.switchAck h a) s = .next (receive 8 (some 2) false h (takeAck a) s) :=
  Eq.trans (b := execSwitchAck h a s) rfl (guyArrives_clear hclear)

/-- A cancel drops the instant it names. -/
def dropHeld (a : BitVec 64) (s : State) : State :=
  if s.dpx.switchHeld = some a then setDpxRec { s.dpx with switchHeld := none } s else s

theorem exec_switchCancel (a : BitVec 64) : exec (.switchCancel h a) s = .next (receive 9 (some 1) false h (dropHeld a) s) :=
  Eq.trans (b := execSwitchCancel h a s) rfl (guyArrives_clear hclear)

/-- The ACTIVE answers a rejoining unit. -/
def answerSync (v : Versions) (s : State) : State :=
  if actsAlone s then
    sendGuy 0x0B (.syncData (syncItems (setDpxRec { s.dpx with partner := { s.dpx.partner with versions := some v } } s)))
      (setDpxRec { s.dpx with partner := { s.dpx.partner with versions := some v } } s)
  else s

theorem exec_syncReq (v : Versions) : exec (.syncReq h v) s = .next (receive 0x0A none true h (answerSync v) s) :=
  Eq.trans (b := execSyncReq h v s) rfl (guyArrives_clear hclear)

/-- The versions compared once the items are written. -/
def compareTaken (s : State) : State := match s.dpx.partner.versions with | none => s | some v => compareVersions v s

/-- SYNC_DATA acted on. -/
def takeData (l : List SyncItem) (s : State) : State := if dpxState s = dpxSyncing then compareTaken (forEach l takeItem s) else s

theorem exec_syncData (l : List SyncItem) : exec (.syncData h l) s = .next (receive 0x0B (some 1) false h (takeData l) s) :=
  Eq.trans (b := execSyncData h l s) rfl (guyArrives_clear hclear)

/-- Forwarded settings kept. -/
def keepSettings (rs : List SettingsRecord) (fr : BitVec 64) (s : State) : State :=
  if isStandby s then setDpxRec { s.dpx with settings := some (rs, fr) } s else s

theorem exec_settings (rs : List SettingsRecord) (fr : BitVec 64) :
    exec (.settings h rs fr) s = .next (receive 0x0C (some 1) false h (keepSettings rs fr) s) :=
  Eq.trans (b := execSettings h rs fr s) rfl (guyArrives_clear hclear)

end Arrivals

/-! ### Messages not acted on -/

/-- What a message that is not acted on does: a command, its type, the role its sender must have, and whether any epoch passes. -/
def MessageDropped (h : GuyHeader) (s : State) (c : Instr × Fin 16 × Option Nat × Bool) : Prop :=
  let bad := (h.epoch ≠ ownEpoch s ∧ c.2.2.2 = false) ∨ (∃ r, c.2.2.1 = some r ∧ h.role.val ≠ r)
  (dpxOn s = false ∨ dpxState s = dpxOff → exec c.1 s = .next s) ∧
  (dpxOn s = true → dpxState s ≠ dpxOff → h.crcOk = false → exec c.1 s =
    .next (bumpSat (Reg.DPX_PATH_STAT h.path) F.DPX_PATH_STAT_crc_err s)) ∧
  (h.crcOk = true → firstCopy s c.2.1 h = false → exec c.1 s = .next s) ∧
  (firstCopy s c.2.1 h = true → bad → Room 1 s → ∃ t, exec c.1 s = .next t ∧ t.dpx.seqIn[c.2.1] = some h.seq ∧
    flg t Reg.DPX_STATUS F.DPX_STATUS_stale_seen = true ∧ rd t Reg.DPX_PARTNER_EPOCH = h.epoch ∧
    OnlyRegs [Reg.DPX_STATUS, Reg.DPX_PARTNER_EPOCH] s t ∧ dpxState t = dpxState s ∧ t.loop = s.loop ∧ t.scan = s.scan ∧
    Logged (if oncePerSecond s.dpx.staleLogged[0] s then [(0xA00A, 0, BitVec.ofNat 32 (s.dpx.stale[0] + 1))] else []) s t)

theorem Received.state {ty : Fin 16} {h : GuyHeader} (hr : Received ty h s t) : dpxState t = dpxState s :=
  dpxState_of_rd (hr.only _ (by decide))

theorem Received.epoch {ty : Fin 16} {h : GuyHeader} (hr : Received ty h s t) : ownEpoch t = ownEpoch s := hr.only _ (by decide)

theorem Received.dpxOn {ty : Fin 16} {h : GuyHeader} (hr : Received ty h s t) : dpxOn t = dpxOn s := flg_of_rd (hr.only _ (by decide)) _

theorem oncePerSecond_of_ticks (h : t.ticks = s.ticks) (last : Option Nat) : oncePerSecond last t = oncePerSecond last s := by
  cases last with
  | none => rfl
  | some q => simp only [oncePerSecond, localNs_of_ticks h]

/-- A stale first copy is noted. -/
theorem stale_effect (ty : Fin 16) (h : GuyHeader) (hroom : Room 1 s) :
    (noteStale 0 (received ty h s)).dpx.seqIn[ty] = some h.seq ∧
    flg (noteStale 0 (received ty h s)) Reg.DPX_STATUS F.DPX_STATUS_stale_seen = true ∧
    rd (noteStale 0 (received ty h s)) Reg.DPX_PARTNER_EPOCH = h.epoch ∧
    OnlyRegs [Reg.DPX_STATUS, Reg.DPX_PARTNER_EPOCH] s (noteStale 0 (received ty h s)) ∧
    dpxState (noteStale 0 (received ty h s)) = dpxState s ∧ (noteStale 0 (received ty h s)).loop = s.loop ∧
    (noteStale 0 (received ty h s)).scan = s.scan ∧
    Logged (if oncePerSecond s.dpx.staleLogged[0] s then [(0xA00A, 0, BitVec.ofNat 32 (s.dpx.stale[0] + 1))] else []) s
      (noteStale 0 (received ty h s)) := by
  have hr := received_effect ty h s
  have hstale : (received ty h s).dpx.stale = s.dpx.stale := rfl
  have hsaid : (received ty h s).dpx.staleLogged = s.dpx.staleLogged := rfl
  generalize received ty h s = x at hr hstale hsaid
  have hn := noteStale_noted x
  generalize noteStale 0 x = t at hn
  have hroom' : Room 1 x := by
    rw [Room, hr.log]
    exact hroom
  refine ⟨?_, hn.seen, (hn.regs _ (by decide) (by decide)).trans hr.epochSeen, fun a ha => ?_, hn.state.trans hr.state,
    hn.loop.trans hr.loop, hn.scan.trans hr.scan, ?_⟩
  · rw [hn.kept.seqIn, hr.seq]
  · simp only [List.mem_cons, List.not_mem_nil, or_false, not_or] at ha
    exact (hn.only hroom' a (by simpa using ha.1)).trans (hr.only a (by simpa using ha.2))
  · have hl := hn.logged hroom'
    have honce : oncePerSecond x.dpx.staleLogged[0] x = oncePerSecond s.dpx.staleLogged[0] s := by
      rw [hsaid, oncePerSecond_of_ticks hr.ticks]
    rw [honce, hstale] at hl
    rw [Logged, ← hr.log]
    exact hl

theorem messageDropped {h : GuyHeader} {i : Instr} {ty : Fin 16} {role : Option Nat} {anyEpoch : Bool} {act : State → State}
    (hexec : exec i s = .next (receive ty role anyEpoch h act s)) : MessageDropped h s (i, ty, role, anyEpoch) := by
  refine ⟨fun hoff => ?_, fun hon hstate hcrc => ?_, fun hcrc hfirst => ?_, fun hfirst hbad hroom => ?_⟩
  · exact hexec.trans (congrArg _ (receive_off hoff))
  · exact hexec.trans (congrArg _ (receive_crc hon hstate hcrc))
  · exact hexec.trans (congrArg _ (receive_repeat hcrc hfirst))
  · exact ⟨_, hexec.trans (congrArg _ (receive_bad hfirst hbad)), stale_effect ty h hroom⟩

/-- Every message but HEARTBEAT is discarded, repeated or stale alike. -/
theorem messages_dropped (h : GuyHeader) (x : MirrorMsg) (y : Vector GfmMirror 2) (z : Vector (Option RetainedSet) 2) (why : Nat)
    (a : BitVec 64) (w : Versions) (l : List SyncItem) (rs : List SettingsRecord) (fr : BitVec 64) (s : State)
    (hclear : Clear (guyUnit h.path) s) :
    ∀ c, c ∈ ([(.mirror h x, 2, some 1, false), (.mirrorGfm h y, 3, some 1, false), (.retain h z, 4, some 1, false),
        (.dying h why, 6, none, false), (.switch h a, 7, some 1, false), (.switchAck h a, 8, some 2, false),
        (.switchCancel h a, 9, some 1, false), (.syncReq h w, 10, none, true), (.syncData h l, 11, some 1, false),
        (.settings h rs fr, 12, some 1, false)] : List (Instr × Fin 16 × Option Nat × Bool)) → MessageDropped h s c := by
  intro c hc
  simp only [List.mem_cons, List.not_mem_nil, or_false] at hc
  rcases hc with rfl | rfl | rfl | rfl | rfl | rfl | rfl | rfl | rfl | rfl
  · exact messageDropped (exec_mirror hclear x)
  · exact messageDropped (exec_mirrorGfm hclear y)
  · exact messageDropped (exec_retain hclear z)
  · exact messageDropped (exec_dying hclear why)
  · exact messageDropped (exec_switch hclear a)
  · exact messageDropped (exec_switchAck hclear a)
  · exact messageDropped (exec_switchCancel hclear a)
  · exact messageDropped (exec_syncReq hclear w)
  · exact messageDropped (exec_syncData hclear l)
  · exact messageDropped (exec_settings hclear rs fr)

end Sys2Proof.Machine
end


section
/-! PROOFS. What the messages of the ACTIVE and of a rejoin do, once a unit acts on them (R372 to R376, R388, R389). -/

namespace Sys2Proof.Machine

open Sys2Proof Sys2Proof.Safety Sys2Proof.Laws

variable {s x y t : State} {m n : Nat}

/-- A message of a type sent with a payload. -/
def Sends (s t : State) (ty : Fin 16) (p : GuyPayload) : Prop :=
  ∃ m, t.dpx.sent[ty] = some m ∧ m.payload = p ∧ m.seq = s.dpx.seqOut[ty] + 1

theorem sends_sendGuy (ty : Fin 16) (p : GuyPayload) (hon : dpxOn x = true) (hseq : x.dpx.seqOut = s.dpx.seqOut) :
    Sends s (sendGuy ty p x) ty p :=
  ⟨_, (sendGuy_sent ty p hon).1, rfl, by rw [nextMessage, hseq]⟩

theorem Sends.after {ty : Fin 16} {p : GuyPayload} (h : Sends s x ty p) (hsent : t.dpx.sent = x.dpx.sent) : Sends s t ty p := by
  obtain ⟨m, hm, hp, hq⟩ := h
  exact ⟨m, by rw [hsent]; exact hm, hp, hq⟩

/-- A message acted on. -/
theorem exec_acted {i : Instr} {ty : Fin 16} {role : Option Nat} {anyEpoch : Bool} {h : GuyHeader} {act : State → State}
    (hexec : exec i s = .next (receive ty role anyEpoch h act s)) (hfirst : firstCopy s ty h = true)
    (hepoch : h.epoch = ownEpoch s ∨ anyEpoch = true) (hrole : ∀ r, role = some r → h.role.val = r) :
    exec i s = .next (act (received ty h s)) := hexec.trans (congrArg _ (receive_acts hfirst hepoch hrole))

/-! ### MIRROR and MIRROR_GFM (R248, R372, R373) -/

/-- A MIRROR kept. -/
def mirrorKept (z : MirrorMsg) (s : State) : State := setDpxRec { s.dpx with
  mirrors := s.dpx.mirrors.set z.stage (some z), mirrorNew := s.dpx.mirrorNew.set z.stage true } s

theorem mirrorKept_effect (z : MirrorMsg) (s : State) : (mirrorKept z s).log = s.log ∧
    (mirrorKept z s).dpx.mirrors = s.dpx.mirrors.set z.stage (some z) ∧
    (mirrorKept z s).dpx.mirrorNew = s.dpx.mirrorNew.set z.stage true ∧ ∀ a, rd (mirrorKept z s) a = rd s a :=
  ⟨rfl, rfl, rfl, fun _ => rfl⟩

/-- The mirrored state of a stage in its registers. -/
def gfmShown (g : Fin 2) (m : GfmMirror) (s : State) : State :=
  let a := Reg.GFM_STATE (2 * g)
  let s := setF (setF s a F.GFM_STATE_state m.state) a F.GFM_STATE_attempt m.attempt
  let s := setF s a F.GFM_STATE_cont_cmd (b2n m.contactor)
  showTimeMode (setF s (Reg.GFM_TMODE (2 * g)) F.GFM_TMODE_time_mode m.timeMode)

/-- The mirrored record of a stage. -/
def mirroredStage (m : GfmMirror) (now' : Nat) (x : GfmStage) : GfmStage :=
  { x with
      dw := m.dw, theta := m.theta, wRes := m.wRes, pf := m.pf, qf := m.qf, phi := m.phi
      deadMs := m.dead, liveMs := m.live, notLiveMs := m.notLive, winMs := m.window
      cmdAt := now' - m.cmdAge, stateAt := now' - m.age
      backoff := m.backoff, slot := if m.state.val = gWaitSlot then some (m.slot, m.backoff) else none }

theorem loadGfm_eq (g : Fin 2) (m : GfmMirror) (s : State) : loadGfm g m s =
    if stageKind s (gst g) ≠ kindGridForming then s
    else setGfm g (mirroredStage m (localNs (gfmShown g m s)) (gfmShown g m s).gfm.stages[g]) (gfmShown g m s) := rfl

theorem GFM_STATE_ne (g : Fin 2) : Reg.GFM_TMODE (2 * g.val) ≠ Reg.GFM_STATE (2 * g.val) ∧ Reg.GFM_STATUS ≠ Reg.GFM_STATE (2 * g.val) := by
  revert g
  decide

theorem showTimeMode_kept (s : State) : (∀ a, a ≠ Reg.GFM_STATUS → rd (showTimeMode s) a = rd s a) ∧ (showTimeMode s).gfm = s.gfm ∧
    (showTimeMode s).ticks = s.ticks := ⟨fun _ ha => rd_setF_ne _ _ _ ha, rfl, rfl⟩

theorem gfmShown_effect (g : Fin 2) (m : GfmMirror) (s : State) : gState (gfmShown g m s) g = m.state.val ∧
    contClosed (gfmShown g m s) g = m.contactor ∧ (gfmShown g m s).gfm = s.gfm ∧ (gfmShown g m s).ticks = s.ticks ∧
    ∀ a, a ≠ Reg.GFM_STATE (2 * g) → a ≠ Reg.GFM_TMODE (2 * g) → a ≠ Reg.GFM_STATUS → rd (gfmShown g m s) a = rd s a := by
  obtain ⟨hmode, hstatus⟩ := GFM_STATE_ne g
  unfold gfmShown
  dsimp only
  generalize hx : setF (setF (setF s _ F.GFM_STATE_state m.state) _ F.GFM_STATE_attempt m.attempt) _ F.GFM_STATE_cont_cmd _ = x
  have hstate : gState x g = m.state.val := by
    rw [← hx, gState, fld_setF_disj _ _ _ _ _ (by decide), fld_setF_disj _ _ _ _ _ (by decide), fld_setF _ _ _ _ (by decide)]
    exact Nat.mod_eq_of_lt (Nat.lt_trans m.state.isLt (by decide))
  have hclosed : contClosed x g = m.contactor := by
    rw [← hx]
    exact flg_setF_b2n _ _ _ _ (by decide) (by decide)
  have hkept : x.gfm = s.gfm ∧ x.ticks = s.ticks := by
    rw [← hx]
    exact ⟨rfl, rfl⟩
  have hregs : ∀ a, a ≠ Reg.GFM_STATE (2 * g) → rd x a = rd s a := fun a ha => by
    rw [← hx, rd_setF_ne _ _ _ ha, rd_setF_ne _ _ _ ha, rd_setF_ne _ _ _ ha]
  clear hx
  obtain ⟨hgfm, hticks⟩ := hkept
  have htm : (setF x (Reg.GFM_TMODE (2 * g)) F.GFM_TMODE_time_mode m.timeMode).gfm = x.gfm ∧
      (setF x (Reg.GFM_TMODE (2 * g)) F.GFM_TMODE_time_mode m.timeMode).ticks = x.ticks ∧
      ∀ a, a ≠ Reg.GFM_TMODE (2 * g) → rd (setF x (Reg.GFM_TMODE (2 * g)) F.GFM_TMODE_time_mode m.timeMode) a = rd x a :=
    ⟨rfl, rfl, fun a ha => rd_setF_ne _ _ _ ha⟩
  generalize setF x (Reg.GFM_TMODE (2 * g)) F.GFM_TMODE_time_mode m.timeMode = y at htm
  obtain ⟨hygfm, hyticks, hyregs⟩ := htm
  obtain ⟨htregs, htgfm, htticks⟩ := showTimeMode_kept y
  have hreg : rd (showTimeMode y) (Reg.GFM_STATE (2 * g)) = rd x (Reg.GFM_STATE (2 * g)) :=
    (htregs _ hstatus.symm).trans (hyregs _ hmode.symm)
  exact ⟨(fld_of_rd hreg _).trans hstate, (flg_of_rd hreg _).trans hclosed, htgfm.trans (hygfm.trans hgfm),
    htticks.trans (hyticks.trans hticks), fun a h1 h2 h3 => (htregs a h3).trans ((hyregs a h2).trans (hregs a h1))⟩

/-- A stage with the state of its mirror. -/
structure StageMirrored (g : Fin 2) (m : GfmMirror) (s t : State) : Prop where
  stage : t.gfm.stages[g] = mirroredStage m (localNs s) s.gfm.stages[g]
  state : gState t g = m.state.val
  closed : contClosed t g = m.contactor

theorem setGfm_kept (g : Fin 2) (z : GfmStage) (s : State) : (setGfm g z s).regs = s.regs ∧ (setGfm g z s).ticks = s.ticks := ⟨rfl, rfl⟩

theorem loadGfm_mirrored (g : Fin 2) (m : GfmMirror) (hkind : stageKind s (gst g) = kindGridForming) :
    StageMirrored g m s (loadGfm g m s) := by
  rw [loadGfm_eq, if_neg (not_not.mpr hkind)]
  obtain ⟨hstate, hclosed, hgfm, hticks, -⟩ := gfmShown_effect g m s
  rw [localNs_of_ticks hticks, hgfm]
  generalize gfmShown g m s = x at hstate hclosed
  have hrd := rd_of_regs (setGfm_kept g (mirroredStage m (localNs s) s.gfm.stages[g]) x).1 (Reg.GFM_STATE (2 * g))
  exact ⟨stages_setGfm .., (fld_of_rd hrd _).trans hstate, (flg_of_rd hrd _).trans hclosed⟩

/-- A stage that a step for the other stage leaves. -/
structure StageLeft (j : Fin 2) (s t : State) : Prop where
  stage : t.gfm.stages[j] = s.gfm.stages[j]
  state : rd t (Reg.GFM_STATE (2 * j)) = rd s (Reg.GFM_STATE (2 * j))
  kind : stageKind t (gst j) = stageKind s (gst j)
  ticks : t.ticks = s.ticks

theorem StageLeft.mirrored {j : Fin 2} {m : GfmMirror} (h : StageLeft j s x) (h' : StageMirrored j m x t) : StageMirrored j m s t :=
  ⟨by rw [h'.stage, h.stage, localNs_of_ticks h.ticks], h'.state, h'.closed⟩

theorem StageMirrored.left {j : Fin 2} {m : GfmMirror} (h : StageMirrored j m s x) (h' : StageLeft j x t) : StageMirrored j m s t :=
  ⟨h'.stage.trans h.stage, (fld_of_rd h'.state _).trans h.state, (flg_of_rd h'.state _).trans h.closed⟩

theorem otherStage_ne (g j : Fin 2) (hne : j ≠ g) : Reg.GFM_STATE (2 * j.val) ≠ Reg.GFM_STATE (2 * g.val) ∧
    Reg.GFM_STATE (2 * j.val) ≠ Reg.GFM_TMODE (2 * g.val) ∧ Reg.GFM_STATE (2 * j.val) ≠ Reg.GFM_STATUS ∧
    Reg.CTRL_STAGE_CFG (gst j) ≠ Reg.GFM_STATE (2 * g.val) ∧ Reg.CTRL_STAGE_CFG (gst j) ≠ Reg.GFM_TMODE (2 * g.val) ∧
    Reg.CTRL_STAGE_CFG (gst j) ≠ Reg.GFM_STATUS := by
  revert g j
  decide

theorem loadGfm_left (g j : Fin 2) (hne : j ≠ g) (m : GfmMirror) (s : State) : StageLeft j s (loadGfm g m s) := by
  rw [loadGfm_eq]
  split
  · exact ⟨rfl, rfl, rfl, rfl⟩
  · obtain ⟨-, -, hgfm, hticks, hregs⟩ := gfmShown_effect g m s
    obtain ⟨h1, h2, h3, h4, h5, h6⟩ := otherStage_ne g j hne
    generalize mirroredStage m _ _ = z
    generalize gfmShown g m s = x at hgfm hticks hregs
    obtain ⟨hsame, hsame'⟩ := setGfm_kept g z x
    refine ⟨?_, (rd_of_regs hsame _).trans (hregs _ h1 h2 h3),
      (fld_of_rd (rd_of_regs hsame _) _).trans (fld_of_rd (hregs _ h4 h5 h6) _), hsame'.trans hticks⟩
    rw [← hgfm]
    exact Vector.getElem_set_ne g.isLt j.isLt fun he => hne (Fin.ext he.symm)

/-- MIRROR_GFM on a STANDBY: each grid-forming stage takes its mirror. -/
theorem loadBoth_mirrored (v : Vector GfmMirror 2) (g : Fin 2) (hkind : stageKind s (gst g) = kindGridForming) :
    StageMirrored g v[g] s (loadGfm 1 v[1] (loadGfm 0 v[0] s)) := by
  match g with
  | 0 => exact (loadGfm_mirrored 0 v[0] hkind).left (loadGfm_left 1 0 (by decide) _ _)
  | 1 =>
    have hleft := loadGfm_left 0 1 (by decide) v[0] s
    exact hleft.mirrored (loadGfm_mirrored 1 v[1] (hleft.kind.trans hkind))

/-! ### RETAIN (R374) -/

/-- The order of a copy; 0 of none. -/
def copyOrder (c : Option RetainedSet) : Nat := match c with | none => 0 | some c => c.order

/-- The older copy of a core. -/
def lowerCopy (z : ScanCore) : Fin 2 := if copyOrder z.copies[0] ≤ copyOrder z.copies[1] then 0 else 1

/-- The core with a set written as its copy in force. -/
def withRetained (r : RetainedSet) (z : ScanCore) : ScanCore :=
  { z with copies := z.copies.set (lowerCopy z) (some { r with
      order := max (copyOrder z.copies[0]) (copyOrder z.copies[1]) + 1, crcOk := true }) }

theorem putRetained_eq (k : Fin 2) (r : RetainedSet) (s : State) : putRetained k r s = setScan k (withRetained r s.scan.cores[k]) s := rfl

theorem withRetained_newest (r : RetainedSet) (z : ScanCore) : ∃ d : Fin 2, ∃ n,
    (withRetained r z).copies = z.copies.set d (some { r with order := n, crcOk := true }) ∧
    ∀ c, z.copies[1 - d] = some c → c.order < n := by
  refine ⟨lowerCopy z, _, rfl, fun c hc => ?_⟩
  unfold lowerCopy at hc
  split at hc
  · have h1 : copyOrder z.copies[1] = c.order := congrArg copyOrder hc
    omega
  · have h0 : copyOrder z.copies[0] = c.order := congrArg copyOrder hc
    omega

/-- The retained set of a core, where RETAIN carries one. -/
def putSet (z : Vector (Option RetainedSet) 2) (k : Fin 2) (s : State) : State :=
  match z[k] with | none => s | some r => putRetained k r s

theorem putSets_eq (z : Vector (Option RetainedSet) 2) (s : State) : putSets z s = putSet z 1 (putSet z 0 s) := rfl

theorem putSet_kept (z : Vector (Option RetainedSet) 2) (k : Fin 2) (s : State) : (putSet z k s).log = s.log ∧
    (putSet z k s).regs = s.regs ∧ (∀ j : Fin 2, j ≠ k → (putSet z k s).scan.cores[j] = s.scan.cores[j]) ∧
    (z[k] = none → (putSet z k s).scan.cores[k] = s.scan.cores[k]) ∧
    ∀ r, z[k] = some r → (putSet z k s).scan.cores[k] = withRetained r s.scan.cores[k] := by
  unfold putSet
  split
  next h => exact ⟨rfl, rfl, fun _ _ => rfl, fun _ => rfl, fun r hr => nomatch h.symm.trans hr⟩
  next r h =>
    rw [putRetained_eq]
    refine ⟨rfl, rfl, fun j hj => core_setScan_ne hj _ s, fun hn => (nomatch h.symm.trans hn), fun r' hr => ?_⟩
    rw [core_setScan, Option.some.inj (h.symm.trans hr)]

theorem putSets_kept (z : Vector (Option RetainedSet) 2) (s : State) : (putSets z s).log = s.log ∧ (putSets z s).regs = s.regs ∧
    ∀ k : Fin 2, (z[k] = none → (putSets z s).scan.cores[k] = s.scan.cores[k]) ∧
      ∀ r, z[k] = some r → (putSets z s).scan.cores[k] = withRetained r s.scan.cores[k] := by
  rw [putSets_eq]
  obtain ⟨hlog, hregs, hother, hnone, hsome⟩ := putSet_kept z 0 s
  generalize putSet z 0 s = x at hlog hregs hother hnone hsome
  obtain ⟨hlog', hregs', hother', hnone', hsome'⟩ := putSet_kept z 1 x
  refine ⟨hlog'.trans hlog, hregs'.trans hregs, fun k => ?_⟩
  match k with
  | 0 =>
    have h0 := hother' 0 (by decide)
    exact ⟨fun h => h0.trans (hnone h), fun r h => h0.trans (hsome r h)⟩
  | 1 =>
    have h1 := hother 1 (by decide)
    exact ⟨fun h => (hnone' h).trans h1, fun r h => (hsome' r h).trans (congrArg (withRetained r) h1)⟩

/-! ### SWITCH, SWITCH_ACK and SWITCH_CANCEL (R389) -/

/-- The instant held, and shown. -/
def switchShown (a : BitVec 64) (s : State) : State := wr64 (setDpxRec { s.dpx with switchHeld := some a } s) Reg.DPX_SWITCH_TIME a

theorem holdSwitch_synced (a : BitVec 64) (h : dpxState s = dpxSynced) : holdSwitch a s = sendGuy 8 (.switchAck a) (switchShown a s) :=
  if_pos h

theorem holdSwitch_other (a : BitVec 64) (h : dpxState s ≠ dpxSynced) : holdSwitch a s = s := if_neg h

theorem switchShown_effect (a : BitVec 64) (s : State) : (switchShown a s).log = s.log ∧ (switchShown a s).dpx.switchHeld = some a ∧
    rd64 (switchShown a s) Reg.DPX_SWITCH_TIME = a ∧ (switchShown a s).dpx.seqOut = s.dpx.seqOut ∧
    dpxOn (switchShown a s) = dpxOn s :=
  ⟨rfl, rfl, rd64_wr64 .., rfl, flg_of_rd (rd_wr64_ne _ _ (by decide) (by decide)) _⟩

theorem holdSwitch_held (a : BitVec 64) (h : dpxState s = dpxSynced) (hon : dpxOn s = true) : (holdSwitch a s).log = s.log ∧
    (holdSwitch a s).dpx.switchHeld = some a ∧ rd64 (holdSwitch a s) Reg.DPX_SWITCH_TIME = a ∧
    Sends s (holdSwitch a s) 8 (.switchAck a) := by
  rw [holdSwitch_synced a h]
  obtain ⟨hlog, hheld, htime, hseq, hon'⟩ := switchShown_effect a s
  generalize switchShown a s = x at hlog hheld htime hseq hon'
  have hsends := sends_sendGuy 8 (.switchAck a) (hon'.trans hon) hseq
  have hsent := sendGuy_sentOnly 8 (.switchAck a) x
  generalize sendGuy 8 (.switchAck a) x = t at hsends hsent
  obtain ⟨q, m, hrec⟩ := hsent.rest
  refine ⟨hsent.log.trans hlog, ?_, ?_, hsends⟩
  · rw [hrec, ← hheld]
  · rw [rd64_of_rd (rd_of_regs hsent.regs _) (rd_of_regs hsent.regs _), htime]

theorem takeAck_effect (a : BitVec 64) (s : State) : (takeAck a s).log = s.log ∧ (takeAck a s).regs = s.regs ∧
    (takeAck a s).dpx.ackHeld = (s.dpx.ackHeld || decide (dpxState s = dpxSwitching ∧ a = rd64 s Reg.DPX_SWITCH_TIME)) := by
  unfold takeAck
  split
  next h => exact ⟨rfl, rfl, by rw [decide_eq_true h, Bool.or_true]; rfl⟩
  next h => exact ⟨rfl, rfl, by rw [decide_eq_false h, Bool.or_false]⟩

theorem dropHeld_effect (a : BitVec 64) (s : State) : (dropHeld a s).log = s.log ∧ (dropHeld a s).regs = s.regs ∧
    (dropHeld a s).dpx.switchHeld = if s.dpx.switchHeld = some a then none else s.dpx.switchHeld := by
  unfold dropHeld
  split
  next h => exact ⟨rfl, rfl, rfl⟩
  next h => exact ⟨rfl, rfl, rfl⟩

/-! ### SYNC_REQ, SYNC_DATA and SETTINGS (R376, R388) -/

/-- The versions of the partner noted. -/
def versionsNoted (v : Versions) (s : State) : State := setDpxRec { s.dpx with partner := { s.dpx.partner with versions := some v } } s

theorem answerSync_active (v : Versions) (h : actsAlone s = true) :
    answerSync v s = sendGuy 0x0B (.syncData (syncItems (versionsNoted v s))) (versionsNoted v s) := if_pos h

theorem answerSync_other (v : Versions) (h : actsAlone s = false) : answerSync v s = s := if_neg (by rw [h]; decide)

/-- The settings in force, of update and recovery alone. -/
def settingsStored (u : UpdState) : SettingsSet := (u.settings[u.inForce]).getD {}

theorem settingsNow_of_upd (h : t.upd = s.upd) : settingsNow t = settingsNow s := by
  have hdef : ∀ z : State, settingsNow z = settingsStored z.upd := fun _ => rfl
  rw [hdef, hdef, h]

theorem syncItems_of_kept (hregs : ∀ a, a ≠ Reg.DPX_PARTNER_EPOCH → rd t a = rd s a) (hscan : t.scan = s.scan) (hprot : t.prot = s.prot)
    (hupd : t.upd = s.upd) : syncItems t = syncItems s := by
  have hv : ownVersions t = ownVersions s := ownVersions_of_regs (hregs _ (by decide)) (fun k => hregs _ (by revert k; decide))
    (hregs _ (by decide)) hupd
  have hnow : settingsNow t = settingsNow s := settingsNow_of_upd hupd
  have hcount : ∀ f : Fin 8, rd t (Reg.PROT_FDR_COUNT f) = rd s (Reg.PROT_FDR_COUNT f) := fun f => hregs _ (by revert f; decide)
  have hepoch : ownEpoch t = ownEpoch s := hregs _ (by decide)
  simp only [syncItems, hv, hnow, hscan, hprot, hcount, hepoch]

theorem versionsNoted_kept (v : Versions) (s : State) : (versionsNoted v s).log = s.log ∧ (versionsNoted v s).regs = s.regs ∧
    (versionsNoted v s).scan = s.scan ∧ (versionsNoted v s).prot = s.prot ∧ (versionsNoted v s).upd = s.upd ∧
    (versionsNoted v s).tai = s.tai ∧
    (versionsNoted v s).dpx.seqOut = s.dpx.seqOut ∧ (versionsNoted v s).dpx.partner.versions = some v :=
  ⟨rfl, rfl, rfl, rfl, rfl, rfl, rfl, rfl⟩

/-- The ACTIVE's answer to SYNC_REQ. -/
theorem answerSync_answers (v : Versions) (h : actsAlone s = true) (hon : dpxOn s = true) : (answerSync v s).log = s.log ∧
    (answerSync v s).regs = s.regs ∧ (answerSync v s).dpx.partner.versions = some v ∧
    Sends s (answerSync v s) 11 (.syncData (syncItems s)) := by
  rw [answerSync_active v h]
  obtain ⟨hlog, hregs, hscan, hprot, hupd, -, hseq, hversions⟩ := versionsNoted_kept v s
  generalize versionsNoted v s = x at hlog hregs hscan hprot hupd hseq hversions
  rw [syncItems_of_kept (fun a _ => rd_of_regs hregs a) hscan hprot hupd]
  generalize syncItems s = l
  have hsends := sends_sendGuy 0x0B (.syncData l) (s := s) ((flg_of_regs hregs _ _).trans hon) hseq
  have hsent := sendGuy_sentOnly 0x0B (.syncData l) x
  generalize sendGuy 0x0B (.syncData l) x = t at hsends hsent
  obtain ⟨q, m, hrec⟩ := hsent.rest
  exact ⟨hsent.log.trans hlog, hsent.regs.trans hregs, (congrArg (·.partner.versions) hrec).trans hversions, hsends⟩

theorem takeData_other (l : List SyncItem) (h : dpxState s ≠ dpxSyncing) : takeData l s = s := if_neg h

theorem takeData_versions (w : Versions) (h : dpxState s = dpxSyncing) : takeData [.versions w] s =
    if w = ownVersions (versionsNoted w (versionsNoted w s)) then versionsNoted w (versionsNoted w s)
    else logN 0xA00C 1 0 (versionsNoted w (versionsNoted w s)) := if_pos h

/-- SYNC_DATA with the partner's versions alone: they are noted, and compared. -/
theorem takeData_compares (w : Versions) (h : dpxState s = dpxSyncing) (hroom : Room 1 s) :
    (takeData [.versions w] s).dpx.partner.versions = some w ∧ OnlyRegs [] s (takeData [.versions w] s) ∧
    Logged (if w = ownVersions s then [] else [(0xA00C, 1, 0)]) s (takeData [.versions w] s) := by
  rw [takeData_versions w h]
  obtain ⟨hlog, hregs, -, -, hupd, htai, -, -⟩ := versionsNoted_kept w s
  obtain ⟨hlog', hregs', -, -, hupd', htai', -, hversions⟩ := versionsNoted_kept w (versionsNoted w s)
  replace hlog' := hlog'.trans hlog
  replace hregs' := hregs'.trans hregs
  replace hupd' := hupd'.trans hupd
  replace htai' := htai'.trans htai
  generalize versionsNoted w (versionsNoted w s) = x at hlog' hregs' hupd' htai' hversions
  have hrd : ∀ a, rd x a = rd s a := rd_of_regs hregs'
  rw [ownVersions_of_regs (hrd _) (fun _ => hrd _) (hrd _) hupd']
  by_cases hw : w = ownVersions s
  · rw [if_pos hw, if_pos hw]
    exact ⟨hversions, fun a _ => hrd a, logged_nil hlog'⟩
  · rw [if_neg hw, if_neg hw]
    have hregs := rd_logN_room 0xA00C 1 0 hlog' hroom
    have hdpx : (logN 0xA00C 1 0 x).dpx = x.dpx := logEvent_dpx ..
    exact ⟨by rw [hdpx]; exact hversions, fun a _ => (hregs a).trans (hrd a), logged_logN 0xA00C 1 0 hlog' hroom⟩

theorem keepSettings_effect (rs : List SettingsRecord) (fr : BitVec 64) (s : State) : (keepSettings rs fr s).log = s.log ∧
    (keepSettings rs fr s).regs = s.regs ∧
    (keepSettings rs fr s).dpx.settings = if isStandby s then some (rs, fr) else s.dpx.settings := by
  unfold keepSettings
  split
  next h => exact ⟨rfl, rfl, rfl⟩
  next h => exact ⟨rfl, rfl, rfl⟩

end Sys2Proof.Machine
end


section
/-! PROOFS. The planned switchover of a duplex: the request, the cancel, the deadline and the instant (R389, R390, rows 13 to 15 and 18). -/

namespace Sys2Proof.Machine

open Sys2Proof Sys2Proof.Safety Sys2Proof.Laws

variable {s x y t : State} {m n : Nat}

/-! ### The request and the abort (R389) -/

/-- The marks of a switchover asked for. -/
def switchMarked (op : Option (Fin 16)) (s : State) : State :=
  setDpxRec { s.dpx with ackHeld := false, quiesced := false, switchOp := op } s

/-- A switchover is planned for an instant. -/
def switchPlanned (op : Option (Fin 16)) (q : BitVec 64) (s : State) : State := switchMarked op (wr64 s Reg.DPX_SWITCH_TIME q)

/-- The millisecond at which a switchover asked for now takes place. -/
def switchAt (s : State) : Nat := (nowNat s + 2000000 + 999999) / 1000000 * 1000000

/-- May a switchover be asked for? -/
def MaySwitch (s : State) : Prop := dpxState s = dpxActive ∧ fld s Reg.DPX_PARTNER F.DPX_PARTNER_state = dpxSynced

theorem switchRequest_may (op : Option (Fin 16)) (h : MaySwitch s) : switchRequest op s = (stOk,
    sendGuy 7 (.switch (BitVec.ofNat 64 (switchAt s))) (setDpx dpxSwitching (switchPlanned op (BitVec.ofNat 64 (switchAt s)) s))) := by
  unfold switchRequest
  exact (if_pos h).trans (by dsimp only [switchAt, switchPlanned, switchMarked])

theorem switchRequest_not (op : Option (Fin 16)) (h : ¬ MaySwitch s) : switchRequest op s = (stBadState, logAbort 3 s) := if_neg h

theorem switchPlanned_effect (op : Option (Fin 16)) (q : BitVec 64) (s : State) : (switchPlanned op q s).log = s.log ∧
    (switchPlanned op q s).busReply = s.busReply ∧ rd64 (switchPlanned op q s) Reg.DPX_SWITCH_TIME = q ∧
    dpxOn (switchPlanned op q s) = dpxOn s ∧ (switchPlanned op q s).dpx.seqOut = s.dpx.seqOut ∧
    (switchPlanned op q s).dpx.ackHeld = false ∧ (switchPlanned op q s).dpx.switchOp = op ∧
    (switchPlanned op q s).cmd = s.cmd ∧ (switchPlanned op q s).tai = s.tai ∧ (switchPlanned op q s).ticks = s.ticks :=
  ⟨rfl, rfl, rd64_wr64 .., flg_of_rd (rd_wr64_ne _ _ (by decide) (by decide)) _, rfl, rfl, rfl, rfl, rfl, rfl⟩

/-- A switchover asked for. -/
structure SwitchAsked (op : Option (Fin 16)) (s t : State) : Prop where
  reply : t.busReply = s.busReply
  state : dpxState t = dpxSwitching
  time : rd64 t Reg.DPX_SWITCH_TIME = BitVec.ofNat 64 (switchAt s)
  sends : Sends s t 7 (.switch (BitVec.ofNat 64 (switchAt s)))
  ack : t.dpx.ackHeld = false
  op : t.dpx.switchOp = op
  grows : GrowsBy 1 s t
  cmd : t.cmd = s.cmd

theorem cmd_setDpx (n : Nat) (s : State) : (setDpx n s).cmd = s.cmd :=
  keeps_of_ev (setDpx_ev (foot_self _) (Ev.refl _ s)) (p := .cmd) rfl

theorem switchRequest_asked (op : Option (Fin 16)) (h : MaySwitch s) (hon : dpxOn s = true) :
    SwitchAsked op s (switchRequest op s).2 := by
  rw [switchRequest_may op h]
  obtain ⟨q, hq⟩ : ∃ q, BitVec.ofNat 64 (switchAt s) = q := ⟨_, rfl⟩
  rw [hq]
  obtain ⟨hlog, hreply, htime, hon', hseq, hack, hop, hcmd, -, -⟩ := switchPlanned_effect op q s
  generalize switchPlanned op q s = x at hlog hreply htime hon' hseq hack hop hcmd
  obtain ⟨hset, hstate⟩ := statusMoved_setDpx dpxSwitching (by decide) x
  obtain ⟨-, -, -, -, hsetReply⟩ := setDpx_kept dpxSwitching x
  have hsetCmd := cmd_setDpx dpxSwitching x
  generalize setDpx dpxSwitching x = y at hset hstate hsetReply hsetCmd
  have hsends := sends_sendGuy 7 (.switch q) (s := s) (hset.moved.dpxOn.trans (hon'.trans hon)) ((congrArg (·.seqOut) hset.rest).trans hseq)
  have hsent := sendGuy_sentOnly 7 (.switch q) y
  generalize sendGuy 7 (.switch q) y = t at hsends hsent
  obtain ⟨w, m, hrec⟩ := hsent.rest
  refine ⟨?_, (dpxState_of_rd (rd_of_regs hsent.regs _)).trans hstate, ?_, hq.symm ▸ hsends, ?_, ?_, ?_, ?_⟩
  · rw [hsent.reply, hsetReply, hreply]
  · rw [hq, rd64_of_rd (rd_of_regs hsent.regs _) (rd_of_regs hsent.regs _),
      rd64_of_rd (hset.moved.regs _ (by decide)) (hset.moved.regs _ (by decide)), htime]
  · exact (congrArg (·.ackHeld) hrec).trans ((congrArg (·.ackHeld) hset.rest).trans hack)
  · exact (congrArg (·.switchOp) hrec).trans ((congrArg (·.switchOp) hset.rest).trans hop)
  · exact ((growsBy_of_log (n := 0) hlog).trans hset.moved.grows).trans (growsBy_of_log (n := 0) hsent.log)
  · rw [hsent.cmd, hsetCmd, hcmd]

theorem switchTime_low (s : State) : (rd64 s Reg.DPX_SWITCH_TIME).extractLsb' 0 32 = rd s Reg.DPX_SWITCH_TIME := by
  rw [rd64]
  generalize rd s (Reg.DPX_SWITCH_TIME + 4) = a
  generalize rd s Reg.DPX_SWITCH_TIME = b
  ext i hi
  simp only [BitVec.getElem_extractLsb', BitVec.getLsbD_append, hi, Nat.zero_add, if_true]
  rfl

theorem logAbort_eq (cause : Nat) (s : State) : logAbort cause s = logEvent 0xA00E cause (rd s Reg.DPX_SWITCH_TIME) s := by
  rw [logAbort, switchTime_low]

/-- The marks of a switchover that does not come about. -/
def abortNoted (d : DpxState) (s : State) : State := setDpxRec { d with switchOp := none, ackHeld := false } s

theorem abortSwitch_eq (cause : Nat) (s : State) : abortSwitch cause s =
    abortNoted (sendGuy 9 (.switchCancel (rd64 s Reg.DPX_SWITCH_TIME)) s).dpx
      (logAbort cause (setDpx dpxActive (sendGuy 9 (.switchCancel (rd64 s Reg.DPX_SWITCH_TIME)) s))) := by
  dsimp only [abortSwitch, abortNoted]

/-- A switchover aborted: back to ACTIVE, and the partner told. -/
structure SwitchAborted (cause : Nat) (s t : State) : Prop where
  reply : t.busReply = s.busReply
  state : dpxState t = dpxActive
  sends : Sends s t 9 (.switchCancel (rd64 s Reg.DPX_SWITCH_TIME))
  told : Raises 0xA00E cause (rd s Reg.DPX_SWITCH_TIME) s t
  tai : t.tai = s.tai

theorem abortNoted_kept (d : DpxState) (s : State) : (abortNoted d s).regs = s.regs ∧ (abortNoted d s).log = s.log ∧
    (abortNoted d s).busReply = s.busReply ∧ (abortNoted d s).dpx.sent = d.sent ∧ (abortNoted d s).tai = s.tai := ⟨rfl, rfl, rfl, rfl, rfl⟩

theorem abortSwitch_aborted (cause : Nat) (hon : dpxOn s = true) (hroom : Room 2 s) : SwitchAborted cause s (abortSwitch cause s) := by
  rw [abortSwitch_eq]
  have hsends := sends_sendGuy 9 (.switchCancel (rd64 s Reg.DPX_SWITCH_TIME)) (s := s) hon rfl
  have hsent := sendGuy_sentOnly 9 (.switchCancel (rd64 s Reg.DPX_SWITCH_TIME)) s
  generalize sendGuy 9 (.switchCancel (rd64 s Reg.DPX_SWITCH_TIME)) s = x at hsends hsent
  obtain ⟨hset, hstate⟩ := statusMoved_setDpx dpxActive (by decide) x
  obtain ⟨-, -, -, -, hsetReply⟩ := setDpx_kept dpxActive x
  generalize setDpx dpxActive x = y at hset hstate hsetReply
  have htime : rd y Reg.DPX_SWITCH_TIME = rd s Reg.DPX_SWITCH_TIME :=
    (hset.moved.regs _ (by decide)).trans (rd_of_regs hsent.regs _)
  have hgrows : GrowsBy 1 s y := hset.moved.grows.of_log hsent.log
  rw [logAbort_eq, htime]
  obtain ⟨hev, hevState⟩ := statusMoved_logEvent 0xA00E cause (rd s Reg.DPX_SWITCH_TIME) y
  have htold := raises_after hgrows.logGrows (raises_logEvent 0xA00E cause (rd s Reg.DPX_SWITCH_TIME) (hgrows.room hroom))
  have hevReply : (logEvent 0xA00E cause (rd s Reg.DPX_SWITCH_TIME) y).busReply = y.busReply := logEvent_busReply ..
  generalize logEvent 0xA00E cause (rd s Reg.DPX_SWITCH_TIME) y = z at hev hevState htold hevReply
  obtain ⟨hregs, hlog, hreply, hsame, htai⟩ := abortNoted_kept x.dpx z
  generalize abortNoted x.dpx z = t at hregs hlog hreply hsame htai
  refine ⟨?_, (dpxState_of_rd (rd_of_regs hregs _)).trans (hevState.trans hstate), ?_, raises_before htold (LogGrows.of_log (.refl z) hlog), ?_⟩
  · rw [hreply, hevReply, hsetReply, hsent.reply]
  · exact hsends.after hsame
  · rw [htai, hev.moved.tai, hset.moved.tai, hsent.moved.tai]

/-! ### The deadline (R390, row 15) -/

theorem reachNs_dpx (s : State) (q : BitVec 64) : (reachNs s q).regs = s.regs ∧ (reachNs s q).log = s.log ∧ (reachNs s q).dpx = s.dpx ∧
    (reachNs s q).loop = s.loop ∧ (reachNs s q).scan = s.scan := ⟨rfl, rfl, rfl, rfl, rfl⟩

/-- The retained sets are committed and sent. -/
def setsSent (s : State) : State :=
  sendGuy 4 (retainPayload (commitBoth (quiesceCores s))) (commitBoth (quiesceCores s))

/-- The cores are quiesced. -/
def quiescedNoted (s : State) : State := setDpxRec { s.dpx with quiesced := true } s

/-- The deadline of an acknowledged switchover, at its instant. -/
def deadlineMet (s : State) : State := commitOp (setsSent s).dpx.switchOp (quiescedNoted (setsSent s))

theorem execSwitchDeadline_idle (h : dpxState s ≠ dpxSwitching ∨ s.dpx.quiesced = true) : execSwitchDeadline s = .next s := if_pos h

theorem execSwitchDeadline_due (hstate : dpxState s = dpxSwitching) (hq : s.dpx.quiesced = false) : execSwitchDeadline s =
    if (reachNs s (rd64 s Reg.DPX_SWITCH_TIME - 500000)).dpx.ackHeld
    then .next (deadlineMet (reachNs s (rd64 s Reg.DPX_SWITCH_TIME - 500000)))
    else .next (endOp? (reachNs s (rd64 s Reg.DPX_SWITCH_TIME - 500000)).dpx.switchOp .failed stTimeout
      (abortSwitch 1 (reachNs s (rd64 s Reg.DPX_SWITCH_TIME - 500000)))) := by
  unfold execSwitchDeadline
  refine (if_neg (not_or.mpr ⟨not_not.mpr hstate, by rw [hq]; exact Bool.false_ne_true⟩)).trans ?_
  generalize reachNs s (rd64 s Reg.DPX_SWITCH_TIME - 500000) = x
  rfl

/-- A core quiesced: its held transfers made, frozen. -/
def coreQuiesced (k : Fin 2) (s : State) : State :=
  setScan k { (dropUnstarted (forEach (List.finRange 8) (makeHeld k) s).scan.cores[k]) with frozen := true }
    (forEach (List.finRange 8) (makeHeld k) s)

theorem quiesceCores_eq (s : State) : quiesceCores s = coreQuiesced 1 (coreQuiesced 0 s) := by
  have h : quiesceCores s = forEach (List.finRange 2) coreQuiesced s := by
    unfold quiesceCores coreQuiesced
    rfl
  rw [h]
  exact forEach_two coreQuiesced s

theorem core_setTask_ne {j k : Fin 2} (h : j ≠ k) (i : Fin 8) (z : ScanTask) (s : State) :
    (setTask k i z s).scan.cores[j] = s.scan.cores[j] := core_setScan_ne h ..

theorem core_transferNow_ne {j k : Fin 2} (h : j ≠ k) (l : List (Nat × BitVec 64)) (s : State) :
    (transferNow k l s).scan.cores[j] = s.scan.cores[j] := (core_setScan_ne h ..).trans (core_setScan_ne h ..)

theorem core_makeHeld_ne {j k : Fin 2} (h : j ≠ k) (i : Fin 8) (s : State) : (makeHeld k i s).scan.cores[j] = s.scan.cores[j] := by
  unfold makeHeld
  dsimp only
  split
  · rfl
  · exact (core_transferNow_ne h _ _).trans (core_setTask_ne h _ _ _)

theorem core_coreQuiesced_ne {j k : Fin 2} (h : j ≠ k) (s : State) : (coreQuiesced k s).scan.cores[j] = s.scan.cores[j] :=
  (core_setScan_ne h ..).trans (forEach_keeps (P := fun x => x.scan.cores[j] = s.scan.cores[j])
    (fun i _ x hx => (core_makeHeld_ne h i x).trans hx) rfl)

theorem frozen_coreQuiesced (k : Fin 2) (s : State) : ((coreQuiesced k s).scan.cores[k]).frozen = true := by
  rw [coreQuiesced, core_setScan]

theorem frozen_quiesceCores (k : Fin 2) (s : State) : ((quiesceCores s).scan.cores[k]).frozen = true := by
  rw [quiesceCores_eq]
  match k with
  | 0 => exact (congrArg (·.frozen) (core_coreQuiesced_ne (j := 0) (k := 1) (by decide) _)).trans (frozen_coreQuiesced 0 s)
  | 1 => exact frozen_coreQuiesced 1 _

theorem frozen_commitRetained (j k : Fin 2) (s : State) : ((commitRetained j s).scan.cores[k]).frozen = (s.scan.cores[k]).frozen := by
  cases h : (s.scan.cores[j]).prog with
  | none => rw [commitRetained_none h]
  | some p =>
    rw [commitRetained_some h]
    by_cases hk : k = j
    · subst hk
      rw [core_setScan]
    · rw [core_setScan_ne hk]

theorem frozen_commitBoth (k : Fin 2) (s : State) : ((commitBoth s).scan.cores[k]).frozen = (s.scan.cores[k]).frozen :=
  (frozen_commitRetained 1 k _).trans (frozen_commitRetained 0 k s)

/-- A switchover quiesced at its deadline. -/
structure DeadlineMet (s t : State) : Prop where
  tai : t.tai = s.tai
  quiesced : t.dpx.quiesced = true
  regs : ∀ a, blockAt a = some .dpx → rd t a = rd s a
  sent : (t.dpx.sent[4]).isSome = true
  frozen : ∀ k : Fin 2, (t.scan.cores[k]).frozen = true

theorem deadlineMet_met (hon : dpxOn s = true) : DeadlineMet s (deadlineMet s) := by
  unfold deadlineMet setsSent
  have hev := commitBoth_ev (foot_self _) (quiesceCores_ev (foot_self _) (Ev.refl _ s))
  have hfrozen : ∀ k : Fin 2, ((commitBoth (quiesceCores s)).scan.cores[k]).frozen = true := fun k =>
    (frozen_commitBoth k _).trans (frozen_quiesceCores k s)
  generalize commitBoth (quiesceCores s) = x at hev hfrozen
  have htai : x.tai = s.tai := keeps_of_ev hev (p := .tai) rfl
  have hregs : ∀ a b, blockAt a = some b → rd x a = rd s a := fun a b hb => rd_of_ev hev rfl hb rfl
  have hsent := sendGuy_sentOnly 4 (retainPayload x) x
  have hmsg := (sendGuy_sent 4 (retainPayload x) (s := x) ((flg_of_rd (hregs _ .dpx (by decide)) _).trans hon)).1
  generalize sendGuy 4 (retainPayload x) x = y at hsent hmsg
  have hq : (quiescedNoted y).tai = y.tai ∧ (quiescedNoted y).dpx.quiesced = true ∧ (quiescedNoted y).regs = y.regs ∧
      (quiescedNoted y).dpx.sent = y.dpx.sent ∧ (quiescedNoted y).scan = y.scan := ⟨rfl, rfl, rfl, rfl, rfl⟩
  generalize quiescedNoted y = z at hq
  obtain ⟨hztai, hzq, hzregs, hzsent, hzscan⟩ := hq
  have hcommit := commitOp_ev (n := y.dpx.switchOp) (foot_self _) (Ev.refl _ z)
  have hdpx : (commitOp y.dpx.switchOp z).dpx = z.dpx := keeps_of_ev hcommit (p := .dpx) rfl
  have hscan : (commitOp y.dpx.switchOp z).scan = z.scan := keeps_of_ev hcommit (p := .scan) rfl
  have hctai : (commitOp y.dpx.switchOp z).tai = z.tai := keeps_of_ev hcommit (p := .tai) rfl
  have hcregs : ∀ a, blockAt a = some .dpx → rd (commitOp y.dpx.switchOp z) a = rd z a := fun a ha => rd_of_ev hcommit rfl ha rfl
  generalize commitOp y.dpx.switchOp z = t at hdpx hscan hctai hcregs
  refine ⟨?_, by rw [hdpx, hzq], fun a ha => ?_, ?_, fun k => ?_⟩
  · rw [hctai, hztai, hsent.moved.tai, htai]
  · exact (hcregs a ha).trans ((rd_of_regs hzregs a).trans ((rd_of_regs hsent.regs a).trans (hregs a _ ha)))
  · rw [hdpx, hzsent]
    exact congrArg Option.isSome hmsg
  · rw [hscan, hzscan, hsent.scan]
    exact hfrozen k

/-! ### The instant (R389, R390, rows 14 and 18) -/

/-- The marks of a switchover that has taken place. -/
def switchDone (s : State) : State := setDpxRec { s.dpx with
  switchOp := none, ackHeld := false, quiesced := false, mirrorNew := Vector.replicate 4 false
  mirrorFrom := some (localNs s) } s

/-- The ACTIVE gives OWNER away at the switch instant. -/
def switchGiven (s : State) : State :=
  switchDone (holdCores (setDpx dpxSynced (takeEpoch (ownEpoch s + 1) (driveOwner false s))))

theorem execSwitchInstant_gives (h : dpxState s = dpxSwitching) (hack : s.dpx.ackHeld = true) : execSwitchInstant s =
    .next (endOp? (reachNs s (rd64 s Reg.DPX_SWITCH_TIME)).dpx.switchOp .completed stOk
      (switchGiven (reachNs s (rd64 s Reg.DPX_SWITCH_TIME)))) := by
  unfold execSwitchInstant
  refine (if_pos ⟨h, hack⟩).trans ?_
  generalize reachNs s (rd64 s Reg.DPX_SWITCH_TIME) = x
  rfl

theorem execSwitchInstant_none (h : dpxState s ≠ dpxSwitching ∨ s.dpx.ackHeld = false)
    (h' : dpxState s ≠ dpxSynced ∨ s.dpx.switchHeld = none) : execSwitchInstant s = .next s := by
  unfold execSwitchInstant
  rw [if_neg (by rintro ⟨hs, ha⟩; exact h.elim (fun h => h hs) fun h => by rw [h] at ha; cases ha)]
  split
  · rfl
  next hq => exact if_neg (h'.elim id fun hn => nomatch hn.symm.trans hq)

theorem execSwitchInstant_takes {a : BitVec 64} (h : dpxState s = dpxSynced) (ha : s.dpx.switchHeld = some a) : execSwitchInstant s =
    .next (logEvent 0xA00D 0 (ownEpoch (takeover 5 dpxActive (reachNs s a))) (takeover 5 dpxActive (reachNs s a))) := by
  unfold execSwitchInstant
  rw [if_neg (by rintro ⟨hs, -⟩; rw [h] at hs; exact absurd hs (by decide))]
  split
  next hq => cases ha.symm.trans hq
  next q hq =>
    obtain rfl : q = a := Option.some.inj (hq.symm.trans ha)
    exact if_pos h

/-- The partner takes over as SYNCED: OWNER low, the next epoch, the cores in STOP. -/
structure SwitchGiven (s t : State) : Prop where
  tai : t.tai = s.tai
  state : dpxState t = dpxSynced
  owner : t.loop.owner = false
  epoch : ownEpoch t = ownEpoch s + 1
  ember : t.dpx.emberEpoch = ownEpoch t
  stopped : ∀ k : Fin 2, scanMode t k = scanStop

theorem switchGiven_given (s : State) : SwitchGiven s (switchGiven s) := by
  unfold switchGiven
  obtain ⟨e, he⟩ : ∃ e, ownEpoch s + 1 = e := ⟨_, rfl⟩
  rw [he]
  obtain ⟨hown, hownLoop, -, -, -, -⟩ := driveOwner_moved false s
  generalize driveOwner false s = x at hown hownLoop
  obtain ⟨htake, hepoch, htakeRec, -, htakeLoop⟩ := takeEpoch_effect e x
  replace htakeRec : (takeEpoch e x).dpx.emberEpoch = e := congrArg (·.emberEpoch) htakeRec
  generalize takeEpoch e x = y at htake hepoch htakeRec htakeLoop
  obtain ⟨hset, hstate⟩ := statusMoved_setDpx dpxSynced (by decide) y
  generalize setDpx dpxSynced y = z at hset hstate
  obtain ⟨hhold, hholdRec, hholdLoop, hholdRegs⟩ := holdCores_moved z
  have hstop : ∀ k : Fin 2, scanMode (holdCores z) k = scanStop := fun k => scanMode_holdCores k z
  generalize holdCores z = w at hhold hholdRec hholdLoop hholdRegs hstop
  have hd : (switchDone w).regs = w.regs ∧ (switchDone w).tai = w.tai ∧ (switchDone w).loop = w.loop ∧
      (switchDone w).dpx.emberEpoch = w.dpx.emberEpoch := ⟨rfl, rfl, rfl, rfl⟩
  generalize switchDone w = t at hd
  obtain ⟨hregs, htai, hloop, hember⟩ := hd
  have hepoch' : ownEpoch t = e :=
    (rd_of_regs hregs _).trans ((hholdRegs _ (by decide)).trans ((hset.regs _ (by decide) (by decide)).trans hepoch))
  refine ⟨?_, ?_, ?_, hepoch'.trans he.symm, ?_, fun k => (scanMode_of_rd (rd_of_regs hregs _)).trans (hstop k)⟩
  · rw [htai, hhold.tai, hset.moved.tai, htake.tai, hown.tai]
  · exact (dpxState_of_rd ((rd_of_regs hregs _).trans (hholdRegs _ (by decide)))).trans hstate
  · rw [hloop, hholdLoop, hset.loop, htakeLoop, hownLoop]
  · rw [hember, hholdRec, hset.rest, htakeRec, hepoch']

/-- What an operation's end keeps. -/
theorem endOp?_kept (o : Option (Fin 16)) (st : OpState) (status : Nat) (s : State) : (endOp? o st status s).tai = s.tai ∧
    (endOp? o st status s).dpx = s.dpx ∧ (endOp? o st status s).loop = s.loop ∧
    ∀ a b, blockAt a = some b → b ≠ .cmd → rd (endOp? o st status s) a = rd s a := by
  have hev := endOp?_ev (n := o) (st := st) (status := status) (foot_self _) (Ev.refl _ s)
  exact ⟨keeps_of_ev hev (p := .tai) rfl, keeps_of_ev hev (p := .dpx) rfl, keeps_of_ev hev (p := .loop) rfl,
    fun a b hb hne => rd_endOp? o st status s hb hne⟩

end Sys2Proof.Machine
end


section
/-! PROOFS. DYING, the end of a rejoin, the digest, and the commands of a switchover (R376, R377, R388 to R390). -/

namespace Sys2Proof.Machine

open Sys2Proof Sys2Proof.Safety Sys2Proof.Laws

variable {s x y t : State} {m n : Nat}

/-! ### DYING (R377) -/

theorem nextEpoch_same (h : rd s Reg.DPX_PARTNER_EPOCH = ownEpoch s) : nextEpoch s = ownEpoch s + 1 := by
  rw [nextEpoch, h, ite_self]

theorem dyingRows_takes (h : GuyHeader) (hrole : h.role = 1) : (dpxState s = dpxSynced → dyingRows h s = takeover 1 dpxAlone s) ∧
    (dpxState s = dpxSyncing → dyingRows h s = takeover 4 dpxAlone s) := by
  refine ⟨fun hs => if_pos ⟨hrole, hs⟩, fun hs => ?_⟩
  unfold dyingRows
  dsimp only
  rw [if_neg (by rw [hs]; exact fun hc => absurd hc.2 (by decide)), if_pos ⟨hrole, hs⟩]

theorem dyingRows_taking (h : GuyHeader) (hs : dpxState s = dpxTaking) : dyingRows h s = takeover (takingSource s 1) dpxAlone s := by
  unfold dyingRows
  dsimp only
  rw [if_neg (by rw [hs]; exact fun hc => absurd hc.2 (by decide)), if_neg (by rw [hs]; exact fun hc => absurd hc.2 (by decide)), if_pos hs]

theorem dyingRows_active (h : GuyHeader) (hs : dpxState s = dpxActive) : dyingRows h s = carryOn s := by
  unfold dyingRows
  dsimp only
  rw [if_neg (by rw [hs]; exact fun hc => absurd hc.2 (by decide)), if_neg (by rw [hs]; exact fun hc => absurd hc.2 (by decide)),
    if_neg (by rw [hs]; decide), if_pos hs]

theorem dyingRows_standby (h : GuyHeader) (hs : dpxState s = dpxSynced ∨ dpxState s = dpxSyncing) (hrole : h.role ≠ 1) :
    dyingRows h s = s := by
  unfold dyingRows
  dsimp only
  rw [if_neg (fun hc => hrole hc.1), if_neg (fun hc => hrole hc.1), if_neg (by rcases hs with h | h <;> rw [h] <;> decide),
    if_neg (by rcases hs with h | h <;> rw [h] <;> decide)]

theorem logGrows_of_moved (h : DpxMoved n s t) : LogGrows s t := h.grows.logGrows

theorem carryOn_effect (s : State) : StatusMoved 2 s (carryOn s) ∧ dpxState (carryOn s) = dpxAlone ∧
    (Room 1 s → Raises 0xA004 0 (BitVec.ofNat 32 (fld s Reg.DPX_PARTNER F.DPX_PARTNER_state)) s (carryOn s)) := by
  unfold carryOn logLost
  generalize fld s Reg.DPX_PARTNER F.DPX_PARTNER_state = e
  have hev := (statusMoved_logEvent 0xA004 0 (BitVec.ofNat 32 e) s).1
  have htold : Room 1 s → Raises 0xA004 0 (BitVec.ofNat 32 e) s (logN 0xA004 0 e s) := raises_logEvent 0xA004 0 (BitVec.ofNat 32 e)
  change StatusMoved 1 s (logN 0xA004 0 e s) at hev
  generalize logN 0xA004 0 e s = x at hev htold
  obtain ⟨hset, hstate⟩ := statusMoved_setDpx dpxAlone (by decide) x
  exact ⟨hev.trans hset, hstate, fun hroom => raises_before (htold hroom) hset.moved.grows.logGrows⟩

/-- The log grows whatever row a DYING takes. -/
theorem logGrows_dyingRows (h : GuyHeader) (hroom : Room 4 s) : LogGrows s (dyingRows h s) := by
  unfold dyingRows
  dsimp only
  split
  · exact (takeover_tookOver 1 dpxAlone (by decide) hroom).moved.grows.logGrows
  · split
    · exact (takeover_tookOver 4 dpxAlone (by decide) hroom).moved.grows.logGrows
    · split
      · exact (takeover_tookOver _ dpxAlone (by decide) hroom).moved.grows.logGrows
      · split
        · exact (carryOn_effect s).1.moved.grows.logGrows
        · exact .refl s

/-- A takeover by a DYING, as the obligation tells it. -/
def TakenOver (s t : State) (src : Nat) : Prop := dpxState t = dpxAlone ∧ t.loop.owner = true ∧
  ownEpoch t = ownEpoch s + 1 ∧ t.dpx.emberEpoch = ownEpoch t ∧ Raises 0xA006 src (ownEpoch t) s t

theorem takenOver_of (src : Nat) (hgrows : LogGrows s x) (hepoch : ownEpoch x = ownEpoch s)
    (hpartner : rd x Reg.DPX_PARTNER_EPOCH = ownEpoch s) (hroom : Room 4 x) : TakenOver s (takeover src dpxAlone x) src := by
  have h := takeover_tookOver src dpxAlone (by decide) hroom
  generalize takeover src dpxAlone x = t at h
  refine ⟨h.state, h.owner, ?_, h.ember, raises_after hgrows h.told⟩
  rw [h.epoch, nextEpoch_same (hpartner.trans hepoch.symm), hepoch]

/-- What DYING has told before its rows. -/
theorem dyingTold (h : GuyHeader) (s : State) (hepoch : h.epoch = ownEpoch s) (hroom : Room 32 s) :
    ∃ x, logEvent 0xA005 h.path h.epoch (received 6 h s) = x ∧ Raises 0xA005 h.path h.epoch s x ∧ LogGrows s x ∧ Room 4 x ∧
      dpxState x = dpxState s ∧ x.loop = s.loop ∧ ownEpoch x = ownEpoch s ∧ rd x Reg.DPX_PARTNER_EPOCH = ownEpoch s ∧
      x.dpx.fromSynced = s.dpx.fromSynced := by
  have hr := received_effect 6 h s
  generalize received 6 h s = w at hr
  have hroom' : Room 5 w := by
    rw [Room, hr.log]
    exact Nat.le_trans (by omega) hroom
  obtain ⟨hev, hevState⟩ := statusMoved_logEvent 0xA005 h.path h.epoch w
  have htold := raises_logEvent 0xA005 h.path h.epoch (Nat.le_trans (by omega) hroom' : Room 1 w)
  refine ⟨_, rfl, ?_, ?_, hev.moved.grows.room hroom', hevState.trans hr.state, hev.loop.trans hr.loop, hev.epoch.trans hr.epoch, ?_, ?_⟩
  · exact raises_after (LogGrows.of_log (.refl s) hr.log) htold
  · exact (LogGrows.of_log (.refl s) hr.log).logEvent
  · exact (hev.regs _ (by decide) (by decide)).trans (hr.epochSeen.trans hepoch)
  · rw [hev.rest, hr.rest]

/-! ### The end of a rejoin (R376, row 16) -/

theorem setDpx_flag (n : Nat) {G : Fld} (hG : 6 ≤ G.lo) (s : State) : fld (setDpx n s) Reg.DPX_STATUS G = fld s Reg.DPX_STATUS G := by
  rw [setDpx_eq]
  split
  · rfl
  · generalize dpxState s * 256 + n = e
    refine (fld_of_rd ((dpxMoved_logEvent 0xA001 0 (BitVec.ofNat 32 e) (dpxShown n s)).2.2 _ (by decide)) G).trans ?_
    exact (fld_setF_disj _ _ F.DPX_STATUS_role G _ (.inr hG)).trans
      (fld_setF_disj s _ F.DPX_STATUS_state G n (.inr (Nat.le_trans (by decide) hG)))

/-- The time of a rejoin shown. -/
def rejoinShown (ms : Nat) (s : State) : State := setF s Reg.DPX_LAST F.DPX_LAST_sync_10ms (min 65535 (ms / 10))

theorem execSyncDone_done (h : dpxState (showSynced s) = dpxSyncing) (hf : syncFault (showSynced s) = 0) : execSyncDone s =
    .next (logN 0xA00B 0 ((localNs (showSynced s) - (showSynced s).dpx.firstHb) / 1000000)
      (setDpx dpxSynced (rejoinShown ((localNs (showSynced s) - (showSynced s).dpx.firstHb) / 1000000) (showSynced s)))) := by
  unfold execSyncDone
  generalize showSynced s = x at h hf ⊢
  exact if_pos ⟨h, hf⟩

theorem execSyncDone_not (h : dpxState s ≠ dpxSyncing ∨ syncFault s ≠ 0) : execSyncDone s = .next (showSynced s) := by
  obtain ⟨-, hstate, -, -, -, -, hfault, -⟩ := showSynced_effect s
  unfold execSyncDone
  generalize showSynced s = x at hstate hfault
  refine if_neg ?_
  rw [hstate, hfault]
  rintro ⟨hs, hf⟩
  exact h.elim (fun h => h hs) fun h => h hf

theorem rejoinShown_effect (ms : Nat) (s : State) : (rejoinShown ms s).log = s.log ∧
    rd (rejoinShown ms s) Reg.DPX_STATUS = rd s Reg.DPX_STATUS := ⟨rfl, rd_setF_ne _ _ _ (by decide)⟩

/-- SYNC_DONE with every condition met. -/
theorem syncDone_synced (hs : dpxState s = dpxSyncing) (hf : syncFault s = 0) (hroom : Room 4 s) :
    ∃ t, exec .syncDone s = .next t ∧ dpxState t = dpxSynced ∧ flg t Reg.DPX_STATUS F.DPX_STATUS_synced_ok = true ∧
      Raises 0xA00B 0 (BitVec.ofNat 32 ((localNs s - s.dpx.firstHb) / 1000000)) s t := by
  obtain ⟨hmoved, hstate, -, hrec, -, hlog, hfault, hok⟩ := showSynced_effect s
  refine ⟨_, Eq.trans (b := execSyncDone s) rfl (execSyncDone_done (hstate.trans hs) (hfault.trans hf)), ?_⟩
  rw [hmoved.localNs, hrec]
  rw [hs, hf] at hok
  generalize (localNs s - s.dpx.firstHb) / 1000000 = ms
  generalize showSynced s = x at hlog hok
  obtain ⟨hlast, hlastReg⟩ := rejoinShown_effect ms x
  generalize rejoinShown ms x = y at hlast hlastReg
  obtain ⟨hset, hsetState⟩ := statusMoved_setDpx dpxSynced (by decide) y
  have hflag := setDpx_flag dpxSynced (G := F.DPX_STATUS_synced_ok) (by decide) y
  generalize setDpx dpxSynced y = z at hset hsetState hflag
  have hgrows : GrowsBy 1 s z := hset.moved.grows.of_log (hlast.trans hlog)
  obtain ⟨hev, hevState⟩ := statusMoved_logEvent 0xA00B 0 (BitVec.ofNat 32 ms) z
  have hevReg := (dpxMoved_logEvent 0xA00B 0 (BitVec.ofNat 32 ms) z).2.2 Reg.DPX_STATUS (by decide)
  refine ⟨hevState.trans hsetState, ?_, ?_⟩
  · have h1 : flg z Reg.DPX_STATUS F.DPX_STATUS_synced_ok = flg y Reg.DPX_STATUS F.DPX_STATUS_synced_ok := by rw [flg, flg, hflag]
    exact (flg_of_rd hevReg _).trans (h1.trans ((flg_of_rd hlastReg _).trans (hok.trans (by decide))))
  · exact raises_after hgrows.logGrows (raises_logEvent 0xA00B 0 _ (hgrows.room (Nat.le_trans (by omega) hroom)))

theorem syncDone_waits (h : dpxState s ≠ dpxSyncing ∨ syncFault s ≠ 0) : ∃ t, exec .syncDone s = .next t ∧ dpxState t = dpxState s ∧
    t.log = s.log ∧ OnlyRegs [Reg.DPX_STATUS] s t := by
  obtain ⟨-, hstate, hregs, -, -, hlog, -, -⟩ := showSynced_effect s
  exact ⟨_, Eq.trans (b := execSyncDone s) rfl (execSyncDone_not h), hstate, hlog,
    fun a ha => hregs a fun he => ha (List.mem_singleton.mpr he)⟩

/-! ### The digest (R376) and the repeated request (R388) -/

/-- The instant of a digest. -/
def digestNoted (s : State) : State := setDpxRec { s.dpx with digestAt := localNs s } s

/-- The digest of the configuration shown. -/
def digestShown (s : State) : State := wr s Reg.DPX_DIGEST (Config.digest (configWords s))

theorem execDigestUpdate_eq (s : State) : execDigestUpdate s =
    .next (checkSynced (digestShown (digestNoted (reachLocal (s.dpx.digestAt + 10000000) s)))) := by
  unfold execDigestUpdate
  generalize reachLocal (s.dpx.digestAt + 10000000) s = x
  rfl

theorem configWords_of_regs (h : t.regs = s.regs) : configWords t = configWords s := by
  unfold configWords
  rw [h]

theorem digestShown_effect (s : State) : rd (digestShown s) Reg.DPX_DIGEST = Config.digest (configWords s) ∧
    (digestShown s).log = s.log ∧ (digestShown s).dpx = s.dpx ∧ (digestShown s).ticks = s.ticks ∧ (digestShown s).upd = s.upd ∧
    ∀ a, a ≠ Reg.DPX_DIGEST → rd (digestShown s) a = rd s a := by
  unfold digestShown
  generalize Config.digest (configWords s) = v
  exact ⟨rd_wr .., rfl, rfl, rfl, rfl, fun a ha => rd_wr_ne _ _ ha⟩

/-- A digest apart from the partner's is the first condition to fail, once the versions agree. -/
theorem syncFault_digest (hv : s.dpx.partner.versions = some (ownVersions s))
    (hd : rd s Reg.DPX_DIGEST ≠ rd s Reg.DPX_DIGEST_PARTNER) : syncFault s = 2 := by
  unfold syncFault
  rw [if_neg (not_not.mpr hv), if_pos hd]

/-- What a digest taken at an instant leaves. -/
structure Digested (q : Nat) (s t : State) : Prop where
  reached : q ≤ localNs t
  noted : t.dpx.digestAt = localNs t
  shown : rd t Reg.DPX_DIGEST = Config.digest (configWords s)
  lost : dpxState s = dpxSynced → s.dpx.partner.versions = some (ownVersions s) →
    Config.digest (configWords s) ≠ rd s Reg.DPX_DIGEST_PARTNER → dpxState t = dpxSyncing ∧ Raises 0xA00C 2 0 s t

theorem reachLocal_dpx (q : Nat) (s : State) : (reachLocal q s).regs = s.regs ∧ (reachLocal q s).log = s.log ∧
    (reachLocal q s).dpx = s.dpx ∧ (reachLocal q s).upd = s.upd ∧ (reachLocal q s).loop = s.loop := ⟨rfl, rfl, rfl, rfl, rfl⟩

theorem digestAt_digested (q : Nat) (hroom : Room 4 s) :
    Digested q s (checkSynced (digestShown (digestNoted (reachLocal q s)))) := by
  have hreach := localNs_reachLocal q s
  obtain ⟨hxregs, hxlog, hxdpx, hxupd, -⟩ := reachLocal_dpx q s
  generalize reachLocal q s = x at hreach hxregs hxlog hxdpx hxupd
  have hy : (digestNoted x).regs = x.regs ∧ (digestNoted x).log = x.log ∧ (digestNoted x).dpx.digestAt = localNs x ∧
      (digestNoted x).ticks = x.ticks ∧ (digestNoted x).upd = x.upd ∧ (digestNoted x).dpx.partner = x.dpx.partner :=
    ⟨rfl, rfl, rfl, rfl, rfl, rfl⟩
  generalize digestNoted x = y at hy
  obtain ⟨hyregs, hylog, hyat, hyticks, hyupd, hypartner⟩ := hy
  obtain ⟨hdig, hzlog, hzdpx, hzticks, hzupd, hzregs⟩ := digestShown_effect y
  rw [configWords_of_regs (hyregs.trans hxregs)] at hdig
  generalize digestShown y = z at hdig hzlog hzdpx hzticks hzupd hzregs
  have hrd : ∀ a, a ≠ Reg.DPX_DIGEST → rd z a = rd s a := fun a ha =>
    (hzregs a ha).trans ((rd_of_regs hyregs a).trans (rd_of_regs hxregs a))
  have hversions : ownVersions z = ownVersions s := ownVersions_of_regs (hrd _ (by decide)) (fun k => hrd _ (by revert k; decide))
    (hrd _ (by decide)) (hzupd.trans (hyupd.trans hxupd))
  have hlog : z.log = s.log := hzlog.trans (hylog.trans hxlog)
  have hc := checkSynced_checked z
  generalize checkSynced z = t at hc
  have hticks : localNs t = localNs x := localNs_of_ticks (hc.status.moved.ticks.trans (hzticks.trans hyticks))
  refine ⟨by rw [hticks]; exact hreach, ?_, (hc.status.regs _ (by decide) (by decide)).trans hdig, fun hs hv hne => ?_⟩
  · rw [hc.status.rest, hzdpx, hyat, hticks]
  · have hzstate : dpxState z = dpxSynced := (dpxState_of_rd (hrd _ (by decide))).trans hs
    have hfault : syncFault z = 2 := by
      refine syncFault_digest ?_ ?_
      · rw [hzdpx, hypartner, hxdpx, hversions, hv]
      · rw [hdig, hrd _ (by decide)]
        exact hne
    obtain ⟨hstate, htold⟩ := hc.lost hzstate (by rw [hfault]; decide)
    rw [hfault] at htold
    refine ⟨hstate, ?_⟩
    refine raises_after (LogGrows.of_log (.refl s) hlog) (htold ?_)
    rw [Room, hlog]
    exact Nat.le_trans (by omega) hroom

theorem digestUpdate_effect (hroom : Room 4 s) : ∃ t, exec .digestUpdate s = .next t ∧ Digested (s.dpx.digestAt + 10000000) s t :=
  ⟨_, Eq.trans (b := execDigestUpdate s) rfl (execDigestUpdate_eq s), digestAt_digested _ hroom⟩

/-- What a SYNC_REQ repeated at an instant leaves. -/
structure Repeated (q : Nat) (s t : State) : Prop where
  reached : q ≤ localNs t
  noted : t.dpx.syncReqAt = localNs t
  sends : Sends s t 10 (.syncReq (ownVersions s))
  regs : OnlyRegs [] s t
  log : t.log = s.log

theorem repeatAt_repeated (q : Nat) (hon : dpxOn s = true) : Repeated q s (sendSyncReq (reachLocal q s)) := by
  have hreach := localNs_reachLocal q s
  obtain ⟨hxregs, hxlog, hxdpx, hxupd, -⟩ := reachLocal_dpx q s
  generalize reachLocal q s = x at hreach hxregs hxlog hxdpx hxupd
  have hrd : ∀ a, rd x a = rd s a := rd_of_regs hxregs
  have hversions : ownVersions x = ownVersions s := ownVersions_of_regs (hrd _) (fun _ => hrd _) (hrd _) hxupd
  have h := sendSyncReq_requested x
  generalize sendSyncReq x = t at h
  have hsent := h.sent ((flg_of_regs hxregs _ _).trans hon)
  rw [hversions] at hsent
  refine ⟨?_, ?_, ⟨_, hsent, rfl, ?_⟩, fun a _ => (rd_of_regs h.regs a).trans (hrd a), h.log.trans hxlog⟩
  · rw [h.moved.localNs]
    exact hreach
  · rw [h.at', h.moved.localNs]
  · rw [hxdpx]
    rfl

theorem syncReqRetry_sends (hs : dpxState s = dpxSyncing) (hv : s.dpx.partner.versions ≠ some (ownVersions s)) (hon : dpxOn s = true) :
    ∃ t, exec .syncReqRetry s = .next t ∧ Repeated (s.dpx.syncReqAt + 10000000000) s t :=
  ⟨_, Eq.trans (b := execSyncReqRetry s) rfl (if_pos ⟨hs, hv⟩), repeatAt_repeated _ hon⟩

theorem syncReqRetry_idle (h : dpxState s ≠ dpxSyncing ∨ s.dpx.partner.versions = some (ownVersions s)) :
    exec .syncReqRetry s = .next s := by
  refine Eq.trans (b := execSyncReqRetry s) rfl (if_neg ?_)
  rintro ⟨hs, hv⟩
  exact h.elim (fun h => h hs) fun h => hv h

end Sys2Proof.Machine
end


section
/-! PROOFS. The messages of a duplex and its planned switchover, clause by clause (R363, R366, R368, R372 to R377, R388 to R390). -/

namespace Sys2Proof.Machine

open Sys2Proof Sys2Proof.Safety Sys2Proof.Laws

variable {s x y t : State} {h : GuyHeader}

/-! ### Messages of the ACTIVE -/

section OfActive

variable (hclear : Clear (guyUnit h.path) s) (hepoch : h.epoch = ownEpoch s) (hrole : h.role = 1)
include hclear hepoch hrole

omit hclear hepoch in
theorem roleOfActive : ∀ r, (some 1 : Option Nat) = some r → h.role.val = r := by
  rintro r ⟨⟩
  rw [hrole]
  rfl

theorem mirror_effect (z : MirrorMsg) (hfirst : firstCopy s 2 h = true) : ∃ t, exec (.mirror h z) s = .next t ∧ t.log = s.log ∧
    t.dpx.mirrors = s.dpx.mirrors.set z.stage (some z) ∧ t.dpx.mirrorNew = s.dpx.mirrorNew.set z.stage true ∧
    OnlyRegs [Reg.DPX_PARTNER_EPOCH] s t := by
  refine ⟨_, exec_acted (exec_mirror hclear z) hfirst (.inl hepoch) (roleOfActive hrole), ?_⟩
  have hr := received_effect 2 h s
  generalize received 2 h s = x at hr
  obtain ⟨hlog, hmirrors, hnew, hregs⟩ := mirrorKept_effect z x
  refine ⟨hlog.trans hr.log, hmirrors.trans ?_, hnew.trans ?_, fun a ha => (hregs a).trans (hr.only a ha)⟩
  · rw [hr.rest]
  · rw [hr.rest]

theorem mirrorGfm_effect (v : Vector GfmMirror 2) (hfirst : firstCopy s 3 h = true) : ∃ t, exec (.mirrorGfm h v) s = .next t ∧
    t.log = s.log ∧
    (isStandby s = false → t.gfm = s.gfm ∧ OnlyRegs [Reg.DPX_PARTNER_EPOCH] s t) ∧
    (isStandby s = true → ∀ g : Fin 2, stageKind s (gst g) = kindGridForming →
      (t.gfm.stages[g]).dw = (v[g]).dw ∧ (t.gfm.stages[g]).theta = (v[g]).theta ∧ (t.gfm.stages[g]).wRes = (v[g]).wRes ∧
      (t.gfm.stages[g]).phi = (v[g]).phi ∧ (t.gfm.stages[g]).stateAt = localNs s - (v[g]).age ∧
      gState t g = (v[g]).state.val ∧ contClosed t g = (v[g]).contactor) := by
  refine ⟨_, exec_acted (exec_mirrorGfm hclear v) hfirst (.inl hepoch) (roleOfActive hrole), ?_⟩
  have hr := received_effect 3 h s
  generalize received 3 h s = x at hr
  have hstandby : isStandby x = isStandby s := congrArg (· == 2) (fld_of_rd (hr.only _ (by decide)) F.DPX_STATUS_role)
  have hkind : ∀ g : Fin 2, stageKind x (gst g) = stageKind s (gst g) := fun g => fld_of_rd (hr.only _ (by revert g; decide)) _
  cases hs : isStandby s
  · rw [hs] at hstandby
    rw [if_neg (by rw [hstandby]; decide)]
    exact ⟨hr.log, fun _ => ⟨hr.gfm, hr.only⟩, fun h => nomatch h⟩
  · rw [hs] at hstandby
    rw [if_pos hstandby]
    refine ⟨?_, fun h => (nomatch h), fun _ g hg => ?_⟩
    · exact (keeps_of_ev (loadGfm_ev (foot_self _) (loadGfm_ev (foot_self _) (Ev.refl _ x))) (p := .log) rfl).trans hr.log
    · obtain ⟨hstage, hstate, hclosed⟩ := loadBoth_mirrored v g ((hkind g).trans hg)
      rw [hstage]
      exact ⟨rfl, rfl, rfl, rfl, by rw [← localNs_of_ticks hr.ticks]; rfl, hstate, hclosed⟩

theorem retain_effect (z : Vector (Option RetainedSet) 2) (hfirst : firstCopy s 4 h = true) : ∃ t, exec (.retain h z) s = .next t ∧
    t.log = s.log ∧ OnlyRegs [Reg.DPX_PARTNER_EPOCH] s t ∧ ∀ k : Fin 2, (z[k] = none → t.scan.cores[k] = s.scan.cores[k]) ∧
      ∀ r, z[k] = some r → ∃ d : Fin 2, ∃ n, (t.scan.cores[k]).copies =
        (s.scan.cores[k]).copies.set d (some { r with order := n, crcOk := true }) ∧
        ∀ c, (s.scan.cores[k]).copies[1 - d] = some c → c.order < n := by
  refine ⟨_, exec_acted (exec_retain hclear z) hfirst (.inl hepoch) (roleOfActive hrole), ?_⟩
  have hr := received_effect 4 h s
  generalize received 4 h s = x at hr
  obtain ⟨hlog, hregs, hcores⟩ := putSets_kept z x
  refine ⟨hlog.trans hr.log, fun a ha => (rd_of_regs hregs a).trans (hr.only a ha), fun k => ?_⟩
  obtain ⟨hnone, hsome⟩ := hcores k
  rw [hr.scan] at hnone hsome
  refine ⟨hnone, fun r hz => ?_⟩
  rw [hsome r hz]
  exact withRetained_newest r _

theorem switch_effect (a : BitVec 64) (hfirst : firstCopy s 7 h = true) : ∃ t, exec (.switch h a) s = .next t ∧ t.log = s.log ∧
    (dpxState s = dpxSynced → t.dpx.switchHeld = some a ∧ rd64 t Reg.DPX_SWITCH_TIME = a ∧ Sends s t 8 (.switchAck a)) ∧
    (dpxState s ≠ dpxSynced → t.dpx.switchHeld = s.dpx.switchHeld ∧ OnlyRegs [Reg.DPX_PARTNER_EPOCH] s t) := by
  refine ⟨_, exec_acted (exec_switch hclear a) hfirst (.inl hepoch) (roleOfActive hrole), ?_⟩
  have hon := (firstCopy_iff s 7 h hfirst).1
  have hr := received_effect 7 h s
  have hseq : (received 7 h s).dpx.seqOut = s.dpx.seqOut := rfl
  generalize received 7 h s = x at hr hseq
  by_cases hs : dpxState s = dpxSynced
  · obtain ⟨hlog, hheld, htime, m, hm, hp, hq⟩ := holdSwitch_held a (hr.state.trans hs) (hr.dpxOn.trans hon)
    exact ⟨hlog.trans hr.log, fun _ => ⟨hheld, htime, m, hm, hp, by rw [hq, hseq]⟩, fun hne => absurd hs hne⟩
  · rw [holdSwitch_other a (by rw [hr.state]; exact hs)]
    exact ⟨hr.log, fun h => absurd h hs, fun _ => ⟨by rw [hr.rest], hr.only⟩⟩

theorem switchCancel_effect (a : BitVec 64) (hfirst : firstCopy s 9 h = true) : ∃ t, exec (.switchCancel h a) s = .next t ∧
    t.log = s.log ∧ OnlyRegs [Reg.DPX_PARTNER_EPOCH] s t ∧
    t.dpx.switchHeld = if s.dpx.switchHeld = some a then none else s.dpx.switchHeld := by
  refine ⟨_, exec_acted (exec_switchCancel hclear a) hfirst (.inl hepoch) (roleOfActive hrole), ?_⟩
  have hr := received_effect 9 h s
  generalize received 9 h s = x at hr
  obtain ⟨hlog, hregs, hheld⟩ := dropHeld_effect a x
  have hsame : x.dpx.switchHeld = s.dpx.switchHeld := by rw [hr.rest]
  rw [hsame] at hheld
  exact ⟨hlog.trans hr.log, fun b hb => (rd_of_regs hregs b).trans (hr.only b hb), hheld⟩

theorem syncData_effect (l : List SyncItem) (hfirst : firstCopy s 11 h = true) (hroom : Room 4 s) :
    ∃ t, exec (.syncData h l) s = .next t ∧
      (dpxState s ≠ dpxSyncing → t.upd = s.upd ∧ t.prot = s.prot ∧ t.scan = s.scan ∧ t.log = s.log ∧
        OnlyRegs [Reg.DPX_PARTNER_EPOCH] s t) ∧
      (dpxState s = dpxSyncing → ∀ w : Versions, l = [.versions w] → t.dpx.partner.versions = some w ∧
        OnlyRegs [Reg.DPX_PARTNER_EPOCH] s t ∧ Logged (if w = ownVersions s then [] else [(0xA00C, 1, 0)]) s t) := by
  refine ⟨_, exec_acted (exec_syncData hclear l) hfirst (.inl hepoch) (roleOfActive hrole), fun hs => ?_, fun hs w hl => ?_⟩
  · have hr := received_effect 11 h s
    generalize received 11 h s = x at hr
    rw [takeData_other l (by rw [hr.state]; exact hs)]
    exact ⟨hr.upd, hr.prot, hr.scan, hr.log, hr.only⟩
  · subst hl
    have hr := received_effect 11 h s
    generalize received 11 h s = x at hr
    have hroom' : Room 1 x := by
      rw [Room, hr.log]
      exact Nat.le_trans (by omega) hroom
    obtain ⟨hversions, hregs, hlogged⟩ := takeData_compares w (hr.state.trans hs) hroom'
    have hown : ownVersions x = ownVersions s := ownVersions_of_regs (hr.only _ (by decide)) (fun k => hr.only _ (by revert k; decide))
      (hr.only _ (by decide)) hr.upd
    rw [hown] at hlogged
    refine ⟨hversions, fun a ha => (hregs a List.not_mem_nil).trans (hr.only a ha), ?_⟩
    exact logged_of_base hr.log hlogged

theorem settings_effect (rs : List SettingsRecord) (fr : BitVec 64) (hfirst : firstCopy s 12 h = true) :
    ∃ t, exec (.settings h rs fr) s = .next t ∧ t.log = s.log ∧ OnlyRegs [Reg.DPX_PARTNER_EPOCH] s t ∧
      t.dpx.settings = if isStandby s then some (rs, fr) else s.dpx.settings := by
  refine ⟨_, exec_acted (exec_settings hclear rs fr) hfirst (.inl hepoch) (roleOfActive hrole), ?_⟩
  have hr := received_effect 12 h s
  generalize received 12 h s = x at hr
  obtain ⟨hlog, hregs, hset⟩ := keepSettings_effect rs fr x
  have hstandby : isStandby x = isStandby s := congrArg (· == 2) (fld_of_rd (hr.only _ (by decide)) F.DPX_STATUS_role)
  have hsame : x.dpx.settings = s.dpx.settings := by rw [hr.rest]
  rw [hstandby, hsame] at hset
  exact ⟨hlog.trans hr.log, fun b hb => (rd_of_regs hregs b).trans (hr.only b hb), hset⟩

end OfActive

/-! ### DYING, SWITCH_ACK and SYNC_REQ -/

theorem dying_effect (why : Nat) (hclear : Clear (guyUnit h.path) s) (hfirst : firstCopy s 6 h = true) (hepoch : h.epoch = ownEpoch s)
    (hroom : Room 32 s) : ∃ t, exec (.dying h why) s = .next t ∧ Raises 0xA005 h.path h.epoch s t ∧
      (dpxState s = dpxSynced → h.role = 1 → TakenOver s t 1) ∧ (dpxState s = dpxSyncing → h.role = 1 → TakenOver s t 4) ∧
      (dpxState s = dpxTaking → TakenOver s t (if s.dpx.fromSynced then 1 else 4)) ∧
      (dpxState s = dpxActive → dpxState t = dpxAlone ∧ t.loop = s.loop) ∧
      ((dpxState s = dpxSynced ∨ dpxState s = dpxSyncing) ∧ h.role ≠ 1 → dpxState t = dpxState s ∧ t.loop = s.loop) := by
  refine ⟨_, exec_acted (exec_dying hclear why) hfirst (.inl hepoch) (fun r hr => nomatch hr), ?_⟩
  obtain ⟨x, hx, htold, hgrows, hroom4, hstate, hloop, hown, hpartner, hfrom⟩ := dyingTold h s hepoch hroom
  rw [hx]
  refine ⟨raises_before htold (logGrows_dyingRows h hroom4), fun hs hrole => ?_, fun hs hrole => ?_, fun hs => ?_, fun hs => ?_, ?_⟩
  · rw [(dyingRows_takes h hrole).1 (hstate.trans hs)]
    exact takenOver_of 1 hgrows hown hpartner hroom4
  · rw [(dyingRows_takes h hrole).2 (hstate.trans hs)]
    exact takenOver_of 4 hgrows hown hpartner hroom4
  · rw [dyingRows_taking h (hstate.trans hs), takingSource, hfrom]
    exact takenOver_of _ hgrows hown hpartner hroom4
  · rw [dyingRows_active h (hstate.trans hs)]
    obtain ⟨hmoved, halone, -⟩ := carryOn_effect x
    exact ⟨halone, hmoved.loop.trans hloop⟩
  · rintro ⟨hs, hrole⟩
    rw [dyingRows_standby h (hs.imp hstate.trans hstate.trans) hrole]
    exact ⟨hstate, hloop⟩

theorem switchAck_effect (a : BitVec 64) (hclear : Clear (guyUnit h.path) s) (hfirst : firstCopy s 8 h = true)
    (hepoch : h.epoch = ownEpoch s) (hrole : h.role = 2) : ∃ t, exec (.switchAck h a) s = .next t ∧ t.log = s.log ∧
      OnlyRegs [Reg.DPX_PARTNER_EPOCH] s t ∧
      t.dpx.ackHeld = (s.dpx.ackHeld || decide (dpxState s = dpxSwitching ∧ a = rd64 s Reg.DPX_SWITCH_TIME)) := by
  refine ⟨_, exec_acted (exec_switchAck hclear a) hfirst (.inl hepoch) (by rintro r ⟨⟩; rw [hrole]; rfl), ?_⟩
  have hr := received_effect 8 h s
  generalize received 8 h s = x at hr
  obtain ⟨hlog, hregs, hack⟩ := takeAck_effect a x
  have hsame : x.dpx.ackHeld = s.dpx.ackHeld := by rw [hr.rest]
  rw [hsame, hr.state, rd64_of_rd (hr.only _ (by decide)) (hr.only _ (by decide))] at hack
  exact ⟨hlog.trans hr.log, fun b hb => (rd_of_regs hregs b).trans (hr.only b hb), hack⟩

theorem syncReq_effect (w : Versions) (hclear : Clear (guyUnit h.path) s) (hfirst : firstCopy s 10 h = true) :
    ∃ t, exec (.syncReq h w) s = .next t ∧ t.log = s.log ∧ OnlyRegs [Reg.DPX_PARTNER_EPOCH] s t ∧
    (actsAlone s = true → t.dpx.partner.versions = some w ∧ Sends s t 11 (.syncData (syncItems s))) ∧
    (actsAlone s = false → t.dpx.sent = s.dpx.sent) := by
  refine ⟨_, exec_acted (exec_syncReq hclear w) hfirst (.inr rfl) (fun r hr => nomatch hr), ?_⟩
  have hon := (firstCopy_iff s 10 h hfirst).1
  have hr := received_effect 10 h s
  have hseq : (received 10 h s).dpx.seqOut = s.dpx.seqOut := rfl
  generalize received 10 h s = x at hr hseq
  have hacts : actsAlone x = actsAlone s := by rw [actsAlone, actsAlone, hr.state]
  have hitems : syncItems x = syncItems s :=
    syncItems_of_kept (fun a ha => hr.only a fun hm => ha (List.mem_singleton.mp hm)) hr.scan hr.prot hr.upd
  cases ha : actsAlone s
  · rw [answerSync_other w (hacts.trans ha)]
    exact ⟨hr.log, hr.only, fun h => (nomatch h), fun _ => by rw [hr.rest]⟩
  · obtain ⟨hlog, hregs, hversions, m, hm, hp, hq⟩ := answerSync_answers w (hacts.trans ha) (hr.dpxOn.trans hon)
    rw [hitems] at hp
    exact ⟨hlog.trans hr.log, fun b hb => (rd_of_regs hregs b).trans (hr.only b hb), fun _ => ⟨hversions, m, hm, hp, by rw [hq, hseq]⟩,
      fun h => nomatch h⟩

/-! ### The commands of a switchover (R389) -/

theorem dpxCmd_switch {m : Fin 8} {v : Word} (hs : Served m true Reg.DPX_CMD 4 s) (hv : getF v F.DPX_CMD_cancel = 0) :
    exec (.dpxSwitch m v) s = .next (switchRequest none (reply .done s)).2 := by
  refine Eq.trans (b := Host.Outcome.next (regCommand m Reg.DPX_CMD (putF v F.DPX_CMD_switch 1) s)) rfl ?_
  have hset : (getF (putF v F.DPX_CMD_switch 1) F.DPX_CMD_switch == 1) = true := by
    rw [getF_putF _ _ _ (by decide)]
    rfl
  have hclear : (getF (putF v F.DPX_CMD_switch 1) F.DPX_CMD_cancel == 1) = false := by
    rw [getF_putF_ne _ _ _ _ (by decide), hv]
    rfl
  rw [regCommand_DPX_CMD _ hs, writeDpxCmd, hset, hclear]
  rfl

theorem dpxCmd_cancel {m : Fin 8} {v : Word} (hs : Served m true Reg.DPX_CMD 4 s) (hv : getF v F.DPX_CMD_switch = 0) :
    exec (.dpxCancel m v) s = .next (switchCancelRequest (reply .done s)).2 := by
  refine Eq.trans (b := Host.Outcome.next (regCommand m Reg.DPX_CMD (putF v F.DPX_CMD_cancel 1) s)) rfl ?_
  have hset : (getF (putF v F.DPX_CMD_cancel 1) F.DPX_CMD_cancel == 1) = true := by
    rw [getF_putF _ _ _ (by decide)]
    rfl
  have hclear : (getF (putF v F.DPX_CMD_cancel 1) F.DPX_CMD_switch == 1) = false := by
    rw [getF_putF_ne _ _ _ _ (by decide), hv]
    rfl
  rw [regCommand_DPX_CMD _ hs, writeDpxCmd, hset, hclear]
  rfl

theorem switchRequest_refused (h : ¬ MaySwitch s) (hroom : Room 1 s) : OnlyRegs [] s (switchRequest none s).2 ∧
    (switchRequest none s).2.dpx = s.dpx ∧ (switchRequest none s).2.busReply = s.busReply ∧
    Logged [(0xA00E, 3, rd s Reg.DPX_SWITCH_TIME)] s (switchRequest none s).2 := by
  rw [switchRequest_not none h]
  change OnlyRegs [] s (logAbort 3 s) ∧ (logAbort 3 s).dpx = s.dpx ∧ (logAbort 3 s).busReply = s.busReply ∧
    Logged [(0xA00E, 3, rd s Reg.DPX_SWITCH_TIME)] s (logAbort 3 s)
  rw [logAbort_eq]
  exact ⟨fun a _ => rd_logEvent_room s _ _ _ hroom a, logEvent_dpx .., logEvent_busReply .., logged_logEvent 0xA00E 3 _ rfl hroom⟩

/-- May a switchover be cancelled? -/
def MayCancel (s : State) : Prop := dpxState s = dpxSwitching ∧ nowNat s + 500000 < (rd64 s Reg.DPX_SWITCH_TIME).toNat

theorem switchCancel_may (h : MayCancel s) : (switchCancelRequest s).2 = endOp? s.dpx.switchOp .cancelled 0 (abortSwitch 2 s) := by
  unfold MayCancel at h
  rw [switchCancelRequest, if_pos h]

theorem switchCancel_not (h : ¬ MayCancel s) : (switchCancelRequest s).2 = s := by
  unfold MayCancel at h
  rw [switchCancelRequest, if_neg h]

/-- An aborted switchover with the end of its operation. -/
theorem aborted_ended (cause : Nat) (o : Option (Fin 16)) (st : OpState) (status : Nat) (hon : dpxOn s = true) (hroom : Room 4 s) :
    SwitchAborted cause s (endOp? o st status (abortSwitch cause s)) := by
  have h := abortSwitch_aborted cause hon (Nat.le_trans (by omega) hroom)
  generalize abortSwitch cause s = x at h
  obtain ⟨htai, hdpx, -, hregs⟩ := endOp?_kept o st status x
  have hreply := busReply_endOp? o st status x
  have hgrows := logGrows_endOp? o st status x
  generalize endOp? o st status x = t at htai hdpx hregs hreply hgrows
  exact ⟨hreply.trans h.reply, (dpxState_of_rd (hregs _ .dpx (by decide) (by decide))).trans h.state,
    h.sends.after (by rw [hdpx]), raises_before h.told hgrows, htai.trans h.tai⟩

end Sys2Proof.Machine
end


section
/-! PROOFS. The messages of a duplex and its planned switchover (R363, R366, R368, R372 to R377, R388 to R390). -/

namespace Sys2Proof.Machine

open Sys2Proof Sys2Proof.Safety Sys2Proof.Laws

variable {s t : State}

theorem switchAt_eq (s : State) : switchAt s = (nowNat s + 2999999) / 1000000 * 1000000 := by
  unfold switchAt
  omega

theorem dpxSwitch_effect {m : Fin 8} {v : Word} (hs : Served m true Reg.DPX_CMD 4 s) (hroom : Room 4 s)
    (hv : getF v F.DPX_CMD_cancel = 0) :
    (MaySwitch s → dpxOn s = true → ∃ t, exec (.dpxSwitch m v) s = .next t ∧ t.busReply = .done ∧ dpxState t = dpxSwitching ∧
      rd64 t Reg.DPX_SWITCH_TIME = BitVec.ofNat 64 ((nowNat s + 2999999) / 1000000 * 1000000) ∧
      Sends s t 7 (.switch (BitVec.ofNat 64 ((nowNat s + 2999999) / 1000000 * 1000000))) ∧ t.dpx.ackHeld = false) ∧
    (¬ MaySwitch s → ∃ t, exec (.dpxSwitch m v) s = .next t ∧ t.busReply = .done ∧ OnlyRegs [] s t ∧ t.dpx = s.dpx ∧
      Logged [(0xA00E, 3, rd s Reg.DPX_SWITCH_TIME)] s t) := by
  have hroom1 : Room 1 s := Nat.le_trans (by omega) hroom
  refine ⟨fun hmay hon => ?_, fun hmay => ?_⟩
  · have h := switchRequest_asked none (s := reply .done s) hmay hon
    have hat : switchAt (reply .done s) = (nowNat s + 2999999) / 1000000 * 1000000 := switchAt_eq s
    have htime := h.time
    have hsends := h.sends
    rw [hat] at htime hsends
    exact ⟨_, dpxCmd_switch hs hv, h.reply, h.state, htime, hsends, h.ack⟩
  · obtain ⟨hregs, hdpx, hreply, hlogged⟩ := switchRequest_refused (s := reply .done s) hmay hroom1
    exact ⟨_, dpxCmd_switch hs hv, hreply, hregs, hdpx, hlogged⟩

theorem dpxCancel_effect {m : Fin 8} {v : Word} (hs : Served m true Reg.DPX_CMD 4 s) (hroom : Room 4 s)
    (hv : getF v F.DPX_CMD_switch = 0) :
    (MayCancel s → dpxOn s = true → ∃ t, exec (.dpxCancel m v) s = .next t ∧ t.busReply = .done ∧ dpxState t = dpxActive ∧
      Sends s t 9 (.switchCancel (rd64 s Reg.DPX_SWITCH_TIME)) ∧ Raises 0xA00E 2 (rd s Reg.DPX_SWITCH_TIME) s t) ∧
    (¬ MayCancel s → exec (.dpxCancel m v) s = .next { s with busReply := .done }) := by
  refine ⟨fun hmay hon => ?_, fun hmay => ?_⟩
  · have h := aborted_ended 2 s.dpx.switchOp .cancelled 0 (s := reply .done s) hon hroom
    refine ⟨_, (dpxCmd_cancel hs hv).trans (congrArg _ (switchCancel_may (s := reply .done s) hmay)), h.reply, h.state, h.sends, h.told⟩
  · exact (dpxCmd_cancel hs hv).trans (congrArg _ (switchCancel_not (s := reply .done s) hmay))

theorem switchDeadline_effect (hstate : dpxState s = dpxSwitching) (hq : s.dpx.quiesced = false) (hon : dpxOn s = true)
    (hroom : Room 4 s) (hfit : (rd64 s Reg.DPX_SWITCH_TIME - 500000).toNat + 1 < 2 ^ 64) :
    ∃ t, exec .switchDeadline s = .next t ∧ (rd64 s Reg.DPX_SWITCH_TIME - 500000).toNat ≤ nowNat t ∧
      (s.dpx.ackHeld = true → t.dpx.quiesced = true ∧ dpxState t = dpxSwitching ∧ (t.dpx.sent[4]).isSome = true ∧
        ∀ k : Fin 2, (t.scan.cores[k]).frozen = true) ∧
      (s.dpx.ackHeld = false → dpxState t = dpxActive ∧ Raises 0xA00E 1 (rd s Reg.DPX_SWITCH_TIME) s t ∧
        Sends s t 9 (.switchCancel (rd64 s Reg.DPX_SWITCH_TIME))) := by
  have hexec := Eq.trans (a := exec .switchDeadline s) (b := execSwitchDeadline s) rfl (execSwitchDeadline_due hstate hq)
  have hnow := le_nowNat_reachNs hfit s
  obtain ⟨hregs, hlog, hdpx, hloop, hscan⟩ := reachNs_dpx s (rd64 s Reg.DPX_SWITCH_TIME - 500000)
  generalize rd64 s Reg.DPX_SWITCH_TIME - 500000 = q at hnow hexec hregs hlog hdpx hloop hscan ⊢
  generalize reachNs s q = x at hnow hexec hregs hlog hdpx hloop hscan
  have hon' : dpxOn x = true := (flg_of_regs hregs _ _).trans hon
  rw [hdpx] at hexec
  cases hack : s.dpx.ackHeld
  · rw [hack, if_neg Bool.false_ne_true] at hexec
    have hroom' : Room 4 x := by
      rw [Room, hlog]
      exact hroom
    have h := aborted_ended 1 s.dpx.switchOp .failed stTimeout hon' hroom'
    refine ⟨_, hexec, by rw [nowNat_of_tai h.tai]; exact hnow, fun h => (nomatch h), fun _ => ⟨h.state, ?_, ?_⟩⟩
    · exact raises_after (LogGrows.of_log (.refl s) hlog) (rd_of_regs hregs Reg.DPX_SWITCH_TIME ▸ h.told)
    · obtain ⟨m, hm, hp, hseq⟩ := h.sends
      exact ⟨m, hm, by rw [hp, rd64_of_rd (rd_of_regs hregs _) (rd_of_regs hregs _)], by rw [hseq, hdpx]⟩
  · rw [hack, if_pos rfl] at hexec
    have h := deadlineMet_met hon'
    refine ⟨_, hexec, by rw [nowNat_of_tai h.tai]; exact hnow, fun _ => ⟨h.quiesced, ?_, h.sent, h.frozen⟩, fun h => nomatch h⟩
    exact (dpxState_of_rd ((h.regs _ (by decide)).trans (rd_of_regs hregs _))).trans hstate

theorem switchDeadline_idle (h : dpxState s ≠ dpxSwitching ∨ s.dpx.quiesced = true) : exec .switchDeadline s = .next s :=
  Eq.trans (b := execSwitchDeadline s) rfl (execSwitchDeadline_idle h)

theorem switchInstant_none (h : dpxState s ≠ dpxSwitching ∨ s.dpx.ackHeld = false)
    (h' : dpxState s ≠ dpxSynced ∨ s.dpx.switchHeld = none) : exec .switchInstant s = .next s :=
  Eq.trans (b := execSwitchInstant s) rfl (execSwitchInstant_none h h')

theorem switchInstant_gives (hstate : dpxState s = dpxSwitching) (hack : s.dpx.ackHeld = true)
    (hfit : (rd64 s Reg.DPX_SWITCH_TIME).toNat + 1 < 2 ^ 64) : ∃ t, exec .switchInstant s = .next t ∧
      (rd64 s Reg.DPX_SWITCH_TIME).toNat ≤ nowNat t ∧ dpxState t = dpxSynced ∧ t.loop.owner = false ∧
      ownEpoch t = ownEpoch s + 1 ∧ t.dpx.emberEpoch = ownEpoch t ∧ ∀ k : Fin 2, scanMode t k = scanStop := by
  refine ⟨_, Eq.trans (b := execSwitchInstant s) rfl (execSwitchInstant_gives hstate hack), ?_⟩
  have hnow := le_nowNat_reachNs hfit s
  obtain ⟨hregs, -, -, -, -⟩ := reachNs_dpx s (rd64 s Reg.DPX_SWITCH_TIME)
  generalize rd64 s Reg.DPX_SWITCH_TIME = q at hnow hregs ⊢
  generalize reachNs s q = x at hnow hregs
  have h := switchGiven_given x
  generalize switchGiven x = y at h
  obtain ⟨htai, hdpx, hloop, hrd⟩ := endOp?_kept x.dpx.switchOp .completed stOk y
  generalize endOp? x.dpx.switchOp .completed stOk y = t at htai hdpx hloop hrd
  have hepoch : ownEpoch t = ownEpoch y := hrd _ .dpx (by decide) (by decide)
  refine ⟨?_, (dpxState_of_rd (hrd _ .dpx (by decide) (by decide))).trans h.state, by rw [hloop]; exact h.owner, ?_, ?_, fun k => ?_⟩
  · rw [nowNat_of_tai (htai.trans h.tai)]
    exact hnow
  · rw [hepoch, h.epoch]
    exact congrArg (· + 1) (rd_of_regs hregs _)
  · rw [hdpx, hepoch, h.ember]
  · exact (scanMode_of_rd (hrd _ .scan (blockAt_SCAN_STATE k) (by decide))).trans (h.stopped k)

theorem switchInstant_takes {a : BitVec 64} (hstate : dpxState s = dpxSynced) (ha : s.dpx.switchHeld = some a) (hroom : Room 32 s)
    (hfit : a.toNat + 1 < 2 ^ 64) : ∃ t, exec .switchInstant s = .next t ∧ a.toNat ≤ nowNat t ∧ dpxState t = dpxActive ∧
      t.loop.owner = true ∧ t.dpx.switchHeld = none ∧ Raises 0xA00D 0 (ownEpoch t) s t := by
  refine ⟨_, Eq.trans (b := execSwitchInstant s) rfl (execSwitchInstant_takes hstate ha), ?_⟩
  have hnow := le_nowNat_reachNs hfit s
  obtain ⟨-, hlog, -, -, -⟩ := reachNs_dpx s a
  generalize reachNs s a = x at hnow hlog
  have hroom' : Room 5 x := by
    rw [Room, hlog]
    exact Nat.le_trans (by omega) hroom
  have h := takeover_tookOver 5 dpxActive (by decide) (Nat.le_trans (by omega) hroom' : Room 4 x)
  generalize takeover 5 dpxActive x = y at h
  have hgrows : GrowsBy 4 s y := h.moved.grows.of_log hlog
  obtain ⟨hev, hevState⟩ := statusMoved_logEvent 0xA00D 0 (ownEpoch y) y
  have htold := raises_logEvent 0xA00D 0 (ownEpoch y) (h.moved.grows.room hroom')
  generalize logEvent 0xA00D 0 (ownEpoch y) y = t at hev hevState htold
  refine ⟨?_, hevState.trans h.state, by rw [hev.loop]; exact h.owner, by rw [hev.rest]; exact h.held, ?_⟩
  · rw [nowNat_of_tai (hev.moved.tai.trans h.moved.tai)]
    exact hnow
  · rw [hev.epoch]
    exact raises_after hgrows.logGrows htold

end Sys2Proof.Machine

namespace Sys2Proof.Proofs

open Sys2Proof Sys2Proof.Machine Sys2Proof.Safety Sys2Proof.Laws

/-- Settles O55: a message that is not acted on is dropped alike whatever its type; one acted on does what its rows say to the state after its
sequence number and its sender's epoch are noted. -/
theorem dpxMessages : Obligations.DpxMessages := by
  unfold Obligations.DpxMessages
  refine ⟨fun h x y z why a w l rs fr s hclear => messages_dropped h x y z why a w l rs fr s hclear,
    fun h s hclear hepoch hrole => ⟨fun x hfirst => mirror_effect hclear hepoch hrole x hfirst,
      fun y hfirst => mirrorGfm_effect hclear hepoch hrole y hfirst, fun z hfirst => retain_effect hclear hepoch hrole z hfirst,
      fun a hfirst => switch_effect hclear hepoch hrole a hfirst, fun a hfirst => switchCancel_effect hclear hepoch hrole a hfirst,
      fun l hfirst hroom => syncData_effect hclear hepoch hrole l hfirst hroom,
      fun rs fr hfirst => settings_effect hclear hepoch hrole rs fr hfirst⟩,
    fun h why s hclear hfirst hepoch hroom => dying_effect why hclear hfirst hepoch hroom,
    fun h a s hclear hfirst hepoch hrole => switchAck_effect a hclear hfirst hepoch hrole,
    fun h w s hclear hfirst => syncReq_effect w hclear hfirst,
    fun m v s hs hroom => ⟨fun hv => dpxSwitch_effect hs hroom hv, fun hv => dpxCancel_effect hs hroom hv⟩, fun s => ?_, fun s hroom => ?_⟩
  · exact ⟨switchDeadline_idle, fun hs hq hon hroom hfit => switchDeadline_effect hs hq hon hroom hfit,
      fun hs hack hfit => switchInstant_gives hs hack hfit, fun a hs ha hroom hfit => switchInstant_takes hs ha hroom hfit,
      switchInstant_none⟩
  · refine ⟨fun hs hf => syncDone_synced hs hf hroom, syncDone_waits, ?_, fun hs hv hon => ?_, syncReqRetry_idle⟩
    · obtain ⟨t, ht, hd⟩ := digestUpdate_effect hroom
      exact ⟨t, ht, hd.reached, hd.noted, hd.shown, hd.lost⟩
    · obtain ⟨t, ht, hr⟩ := syncReqRetry_sends hs hv hon
      exact ⟨t, ht, hr.reached, hr.noted, hr.sends, hr.regs, hr.log⟩

end Sys2Proof.Proofs
end


section
/-! PROOFS. What a heartbeat does to its path, whatever it tells (R362, R364). -/

namespace Sys2Proof.Machine

open Sys2Proof Sys2Proof.Safety Sys2Proof.Laws

variable {s x y t : State} {m n : Nat} {p : Fin 2}

/-! ### Misses and a path that goes down -/

theorem PATH_STAT_ne (p : Fin 2) : Reg.DPX_PATH_STAT p ≠ Reg.DPX_STATUS ∧ Reg.DPX_PATH_STAT p ≠ Reg.DPX_EPOCH ∧
    blockAt (Reg.DPX_PATH_STAT p) = some .dpx := by
  revert p
  decide

/-- What a step of a path keeps: the clocks, OWNER, the images, the state of Table 13.3 and the other registers of the duplex. -/
structure PathMoved (n : Nat) (p : Fin 2) (s t : State) : Prop where
  tai : t.tai = s.tai
  ticks : t.ticks = s.ticks
  loop : t.loop = s.loop
  upd : t.upd = s.upd
  grows : GrowsBy n s t
  regs : ∀ a, a ≠ Reg.DPX_STATUS → a ≠ Reg.DPX_PATH_STAT p → blockAt a ≠ some .cmd → rd t a = rd s a
  flags : ∀ G : Fld, G.lo + G.w ≤ 8 ∨ 19 ≤ G.lo → fld t Reg.DPX_STATUS G = fld s Reg.DPX_STATUS G

theorem PathMoved.refl (p : Fin 2) (s : State) : PathMoved 0 p s s := ⟨rfl, rfl, rfl, rfl, .refl s, fun _ _ _ _ => rfl, fun _ _ => rfl⟩

theorem PathMoved.trans (h : PathMoved m p s x) (h' : PathMoved n p x t) : PathMoved (m + n) p s t :=
  ⟨h'.tai.trans h.tai, h'.ticks.trans h.ticks, h'.loop.trans h.loop, h'.upd.trans h.upd, h.grows.trans h'.grows,
    fun a h1 h2 h3 => (h'.regs a h1 h2 h3).trans (h.regs a h1 h2 h3), fun G hG => (h'.flags G hG).trans (h.flags G hG)⟩

theorem PathMoved.mono (h : PathMoved m p s t) (hle : m ≤ n) : PathMoved n p s t := { h with grows := h.grows.mono hle }

theorem PathMoved.state (h : PathMoved n p s t) : dpxState t = dpxState s := h.flags _ (.inl (by decide))

theorem PathMoved.reg (h : PathMoved n p s t) {a : Nat} (h1 : a ≠ Reg.DPX_STATUS) (h2 : blockAt a ≠ some .cmd)
    (h3 : ∀ p : Fin 2, a ≠ Reg.DPX_PATH_STAT p) : rd t a = rd s a := h.regs a h1 (h3 p) h2

theorem PathMoved.epoch (h : PathMoved n p s t) : ownEpoch t = ownEpoch s := h.reg (by decide) (by decide) (by decide)

theorem PathMoved.dpxOn (h : PathMoved n p s t) : dpxOn t = dpxOn s :=
  flg_of_rd (h.reg (by decide) (by decide) (by decide)) _

theorem PathMoved.versions (h : PathMoved n p s t) : ownVersions t = ownVersions s :=
  ownVersions_of_regs (h.reg (by decide) (by decide) (by decide))
    (fun k => h.reg (by revert k; decide) (by revert k; decide) (by revert k; decide)) (h.reg (by decide) (by decide) (by decide)) h.upd

theorem pathMoved_logEvent (c q : Nat) (e : Word) (p : Fin 2) (s : State) : PathMoved 1 p s (logEvent c q e s) := by
  have hev : Ev ⟨[.log], [.cmd], false⟩ s (logEvent c q e s) := ev_logEvent (by decide) (by decide) (Ev.refl _ s)
  refine ⟨logEvent_tai .., logEvent_ticks .., logEvent_loop .., keeps_of_ev hev (p := .upd) rfl, growsBy_logEvent .., fun a _ _ hb => ?_,
    fun G _ => fld_of_rd (rd_of_ev hev rfl (b := .dpx) (by decide) rfl) G⟩
  exact rd_logEvent s c q e (by rintro rfl; exact hb (by decide)) (by rintro rfl; exact hb (by decide))

theorem pathMoved_status {G : Fld} (hG : 8 ≤ G.lo ∧ G.lo + G.w ≤ 19) (v : Nat) (p : Fin 2) (s : State) :
    PathMoved 0 p s (setF s Reg.DPX_STATUS G v) :=
  ⟨rfl, rfl, rfl, rfl, growsBy_of_log rfl, fun _ ha _ _ => rd_setF_ne _ _ _ ha,
    fun _ hH => fld_setF_disj _ _ _ _ _ (hH.elim (fun h => .inl (Nat.le_trans h hG.1)) fun h => .inr (Nat.le_trans hG.2 h))⟩

theorem pathMoved_setDpxRec (z : DpxState) (p : Fin 2) (s : State) : PathMoved 0 p s (setDpxRec z s) :=
  ⟨rfl, rfl, rfl, rfl, growsBy_of_log rfl, fun _ _ _ _ => rfl, fun _ _ => rfl⟩

theorem addMissed_moved (p : Fin 2) (n : Nat) (s : State) : PathMoved 0 p s (addMissed p n s) ∧ (addMissed p n s).dpx = s.dpx ∧
    rd (addMissed p n s) Reg.DPX_STATUS = rd s Reg.DPX_STATUS ∧
    fld (addMissed p n s) (Reg.DPX_PATH_STAT p) F.DPX_PATH_STAT_missed = min 65535 (fld s (Reg.DPX_PATH_STAT p) F.DPX_PATH_STAT_missed + n) := by
  have hdef : addMissed p n s = setF s (Reg.DPX_PATH_STAT p) F.DPX_PATH_STAT_missed
    (min 65535 (fld s (Reg.DPX_PATH_STAT p) F.DPX_PATH_STAT_missed + n)) := rfl
  rw [hdef]
  obtain ⟨v, hv⟩ : ∃ v, min 65535 (fld s (Reg.DPX_PATH_STAT p) F.DPX_PATH_STAT_missed + n) = v := ⟨_, rfl⟩
  have hlt : v < 2 ^ 16 := by omega
  rw [hv]
  have hstat : rd (setF s (Reg.DPX_PATH_STAT p) F.DPX_PATH_STAT_missed v) Reg.DPX_STATUS = rd s Reg.DPX_STATUS :=
    rd_setF_ne _ _ _ (PATH_STAT_ne p).1.symm
  refine ⟨⟨rfl, rfl, rfl, rfl, growsBy_of_log rfl, fun a _ ha _ => rd_setF_ne _ _ _ ha, fun G _ => fld_of_rd hstat G⟩, rfl, hstat, ?_⟩
  rw [fld_setF _ _ _ _ (by decide)]
  exact Nat.mod_eq_of_lt hlt

/-- A path shown down. -/
def pathDownShown (p : Fin 2) (s : State) : State :=
  setF (setFbit s Reg.DPX_STATUS F.DPX_STATUS_path_up p false) Reg.DPX_STATUS F.DPX_STATUS_path_down_seen 1

theorem takeDown_up (n : Nat) (h : pathUp s p = true) : takeDown p n s = logN 0xA002 p n (pathDownShown p s) :=
  if_neg (by rw [h]; decide)

theorem takeDown_down (n : Nat) (h : pathUp s p = false) : takeDown p n s = s := if_pos (by rw [h]; rfl)

theorem pathDownShown_effect (p : Fin 2) (s : State) : PathMoved 0 p s (pathDownShown p s) ∧ pathUp (pathDownShown p s) p = false ∧
    flg (pathDownShown p s) Reg.DPX_STATUS F.DPX_STATUS_path_down_seen = true ∧ (pathDownShown p s).dpx = s.dpx ∧
    (pathDownShown p s).log = s.log := by
  unfold pathDownShown setFbit
  have h1 := pathMoved_status (G := F.DPX_STATUS_path_up) (by decide) (putBit (fld s Reg.DPX_STATUS F.DPX_STATUS_path_up) p false) p s
  have hup : pathUp (setF s Reg.DPX_STATUS F.DPX_STATUS_path_up (putBit (fld s Reg.DPX_STATUS F.DPX_STATUS_path_up) p false)) p = false := by
    refine (fbit_setFbit s Reg.DPX_STATUS F.DPX_STATUS_path_up p p false (by decide) p.isLt).trans ?_
    rw [if_pos rfl]
  have hkept : (setF s Reg.DPX_STATUS F.DPX_STATUS_path_up (putBit (fld s Reg.DPX_STATUS F.DPX_STATUS_path_up) p false)).dpx = s.dpx ∧
    (setF s Reg.DPX_STATUS F.DPX_STATUS_path_up (putBit (fld s Reg.DPX_STATUS F.DPX_STATUS_path_up) p false)).log = s.log := ⟨rfl, rfl⟩
  generalize setF s Reg.DPX_STATUS F.DPX_STATUS_path_up (putBit (fld s Reg.DPX_STATUS F.DPX_STATUS_path_up) p false) = x at h1 hup hkept
  refine ⟨h1.trans (pathMoved_status (by decide) 1 p x), ?_, ?_, hkept.1, hkept.2⟩
  · rw [pathUp, fbit, fld_setF_disj _ _ _ _ _ (by decide)]
    exact hup
  · rw [flg_setF _ _ _ _ (by decide)]
    rfl

/-- A path taken down. -/
theorem takeDown_taken (n : Nat) (h : pathUp s p = true) (hroom : Room 1 s) : PathMoved 1 p s (takeDown p n s) ∧
    pathUp (takeDown p n s) p = false ∧ flg (takeDown p n s) Reg.DPX_STATUS F.DPX_STATUS_path_down_seen = true ∧
    (takeDown p n s).dpx = s.dpx ∧ Raises 0xA002 p (BitVec.ofNat 32 n) s (takeDown p n s) ∧ (∀ a, rd (takeDown p n s) a = rd (pathDownShown p s) a) := by
  rw [takeDown_up n h]
  obtain ⟨hmoved, hup, hseen, hdpx, hlog⟩ := pathDownShown_effect p s
  have hrd := rd_logN_room 0xA002 p n hlog hroom
  have hev := pathMoved_logEvent 0xA002 p (BitVec.ofNat 32 n) p (pathDownShown p s)
  have hroom' : Room 1 (pathDownShown p s) := by
    rw [Room, hlog]
    exact hroom
  refine ⟨(hmoved.trans hev).mono (by decide), (fbit_of_rd (hrd _) _ _).trans hup, (flg_of_rd (hrd _) _).trans hseen,
    (logEvent_dpx ..).trans hdpx, ?_, hrd⟩
  exact raises_after (LogGrows.of_log (.refl s) hlog) (raises_logEvent 0xA002 p (BitVec.ofNat 32 n) hroom')

theorem takeDown_moved (n : Nat) (p : Fin 2) (s : State) (hroom : Room 1 s) : PathMoved 1 p s (takeDown p n s) ∧ (takeDown p n s).dpx = s.dpx := by
  cases h : pathUp s p
  · rw [takeDown_down n h]
    exact ⟨(PathMoved.refl p s).mono (by decide), rfl⟩
  · obtain ⟨hmoved, -, -, hdpx, -⟩ := takeDown_taken n h hroom
    exact ⟨hmoved, hdpx⟩

/-! ### A path that is heard -/

/-- The intervals missed before a heartbeat. -/
def missedBy (p : Fin 2) (s : State) : Nat := (localNs s - (s.dpx.paths[p]).last) / 10000 - 1

/-- The run of heartbeats with this one. -/
def runOf (p : Fin 2) (s : State) : Nat := if missedBy p s = 0 then (s.dpx.paths[p]).good + 1 else 1

/-- The misses of the gap before a heartbeat, counted. -/
def gapCounted (p : Fin 2) (s : State) : State :=
  if 8 ≤ missedBy p s then takeDown p (missedBy p s) (addMissed p (missedBy p s - (s.dpx.paths[p]).counted) s)
  else addMissed p (missedBy p s - (s.dpx.paths[p]).counted) s

/-- The run of a path noted. -/
def runNoted (p : Fin 2) (r : Nat) (s : State) : State := setDpxRec { s.dpx with
  paths := s.dpx.paths.set p { good := r, last := localNs s, counted := 0 }, hbAt := some (localNs s) } s

/-- A path with sixteen in a row comes up. -/
def upBySixteen (p : Fin 2) (r : Nat) (s : State) : State :=
  if 16 ≤ r ∧ !pathUp s p then logN 0xA003 p 0 (setFbit s Reg.DPX_STATUS F.DPX_STATUS_path_up p true) else s

theorem pathHeard_eq (p : Fin 2) (s : State) : pathHeard p s = upBySixteen p (runOf p s) (runNoted p (runOf p s) (gapCounted p s)) := rfl

theorem runOf_eq (p : Fin 2) (s : State) : runOf p s =
    if localNs s < (s.dpx.paths[p]).last + 20000 then (s.dpx.paths[p]).good + 1 else 1 := by
  unfold runOf missedBy
  by_cases h : localNs s < (s.dpx.paths[p]).last + 20000
  · rw [if_pos (by omega), if_pos h]
  · rw [if_neg (by omega), if_neg h]

theorem gapCounted_moved (p : Fin 2) (s : State) (hroom : Room 1 s) : PathMoved 1 p s (gapCounted p s) ∧ (gapCounted p s).dpx = s.dpx ∧
    (pathUp s p = false → pathUp (gapCounted p s) p = false) := by
  unfold gapCounted
  generalize missedBy p s = k
  obtain ⟨hmoved, hdpx, hstat, -⟩ := addMissed_moved p (k - (s.dpx.paths[p]).counted) s
  generalize addMissed p (k - (s.dpx.paths[p]).counted) s = x at hmoved hdpx hstat
  have hup : pathUp x p = pathUp s p := fbit_of_rd hstat _ _
  split
  · obtain ⟨hdown, hdownRec⟩ := takeDown_moved k p x (hmoved.grows.room (by simpa using hroom))
    refine ⟨(hmoved.trans hdown).mono (by decide), hdownRec.trans hdpx, fun h => ?_⟩
    rw [takeDown_down k (hup.trans h)]
    exact hup.trans h
  · exact ⟨hmoved.mono (by decide), hdpx, fun h => hup.trans h⟩

theorem upBySixteen_moved (p : Fin 2) (r : Nat) (s : State) (hroom : Room 1 s) : PathMoved 1 p s (upBySixteen p r s) ∧
    (upBySixteen p r s).dpx = s.dpx ∧
    (16 ≤ r → pathUp s p = false → pathUp (upBySixteen p r s) p = true ∧ Raises 0xA003 p 0 s (upBySixteen p r s)) := by
  unfold upBySixteen
  by_cases h : 16 ≤ r ∧ (!pathUp s p) = true
  · rw [if_pos h]
    have hmoved := pathMoved_status (G := F.DPX_STATUS_path_up) (by decide) (putBit (fld s Reg.DPX_STATUS F.DPX_STATUS_path_up) p true) p s
    have hup : pathUp (setFbit s Reg.DPX_STATUS F.DPX_STATUS_path_up p true) p = true := by
      refine (fbit_setFbit s Reg.DPX_STATUS F.DPX_STATUS_path_up p p true (by decide) p.isLt).trans ?_
      rw [if_pos rfl]
    have hkept : (setFbit s Reg.DPX_STATUS F.DPX_STATUS_path_up p true).dpx = s.dpx ∧
      (setFbit s Reg.DPX_STATUS F.DPX_STATUS_path_up p true).log = s.log := ⟨rfl, rfl⟩
    change PathMoved 0 p s (setFbit s Reg.DPX_STATUS F.DPX_STATUS_path_up p true) at hmoved
    generalize setFbit s Reg.DPX_STATUS F.DPX_STATUS_path_up p true = x at hmoved hup hkept
    have hev := pathMoved_logEvent 0xA003 p (BitVec.ofNat 32 0) p x
    have hrd := rd_logN_room 0xA003 p 0 hkept.2 hroom
    have htold := raises_logEvent 0xA003 p (BitVec.ofNat 32 0) (hmoved.grows.room (by simpa using hroom))
    refine ⟨(hmoved.trans hev).mono (by decide), (logEvent_dpx ..).trans hkept.1, fun _ _ => ⟨(fbit_of_rd (hrd _) _ _).trans hup, ?_⟩⟩
    exact raises_after hmoved.grows.logGrows htold
  · rw [if_neg h]
    exact ⟨(PathMoved.refl p s).mono (by decide), rfl, fun h16 hdown => absurd ⟨h16, by rw [hdown]; rfl⟩ h⟩

/-- A heartbeat counted for its path. -/
structure PathHeard (p : Fin 2) (s t : State) : Prop where
  moved : PathMoved 2 p s t
  rest : t.dpx = { s.dpx with
    paths := s.dpx.paths.set p { good := runOf p s, last := localNs s, counted := 0 }, hbAt := some (localNs s) }
  up : pathUp s p = false → 16 ≤ runOf p s → pathUp t p = true ∧ Raises 0xA003 p 0 s t

theorem pathHeard_heard (p : Fin 2) (s : State) (hroom : Room 2 s) : PathHeard p s (pathHeard p s) := by
  rw [pathHeard_eq]
  obtain ⟨r, hr⟩ : ∃ r, runOf p s = r := ⟨_, rfl⟩
  rw [hr]
  obtain ⟨hgap, hgapRec, hgapUp⟩ := gapCounted_moved p s (Nat.le_trans (by omega) hroom)
  generalize gapCounted p s = x at hgap hgapRec hgapUp
  have hx : PathMoved 0 p x (runNoted p r x) ∧ (runNoted p r x).dpx = { x.dpx with
      paths := x.dpx.paths.set p { good := r, last := localNs x, counted := 0 }, hbAt := some (localNs x) } ∧
      pathUp (runNoted p r x) p = pathUp x p := ⟨pathMoved_setDpxRec _ p x, rfl, rfl⟩
  generalize runNoted p r x = y at hx
  obtain ⟨hnote, hnoteRec, hnoteUp⟩ := hx
  have hxy := hgap.trans hnote
  obtain ⟨hup, hupRec, hupUp⟩ := upBySixteen_moved p r y (hxy.grows.room hroom)
  generalize upBySixteen p r y = t at hup hupRec hupUp
  refine ⟨hxy.trans hup, ?_, fun h h16 => ?_⟩
  · rw [hr, hupRec, hnoteRec, hgapRec, localNs_of_ticks hgap.ticks]
  · obtain ⟨hon, htold⟩ := hupUp (hr ▸ h16) (hnoteUp.trans (hgapUp h))
    exact ⟨hon, raises_after hxy.grows.logGrows htold⟩

end Sys2Proof.Machine
end


section
/-! PROOFS. The rows of Table 13.4 that a heartbeat takes (R362, R364, R366, R367, R370). -/

namespace Sys2Proof.Machine

open Sys2Proof Sys2Proof.Safety Sys2Proof.Laws

variable {s x y z t : State} {m n : Nat} {h : GuyHeader} {b : Heartbeat}

/-! ### Rows -/

/-- What every row keeps of the paths, and that it only adds to the log. -/
structure RowTaken (s t : State) : Prop where
  kept : PathsKept s t
  grows : LogGrows s t

theorem RowTaken.refl (s : State) : RowTaken s s := ⟨.refl s, .refl s⟩

theorem RowTaken.trans (h : RowTaken s x) (h' : RowTaken x t) : RowTaken s t := ⟨h.kept.trans h'.kept, h.grows.trans h'.grows⟩

theorem DpxMoved.row (h : DpxMoved n s t) : RowTaken s t := ⟨h.pathsKept, h.grows.logGrows⟩

theorem adoptHigher_effect (e : Word) (s : State) : DpxMoved 0 s (adoptHigher e s) ∧ dpxState (adoptHigher e s) = dpxState s ∧
    (adoptHigher e s).loop = s.loop ∧ (adoptHigher e s).upd = s.upd ∧ (adoptHigher e s).log = s.log ∧
    (∀ a, a ≠ Reg.DPX_EPOCH → rd (adoptHigher e s) a = rd s a) := by
  unfold adoptHigher
  dsimp only
  split
  · obtain ⟨hmoved, -, -, hstate, hloop⟩ := takeEpoch_effect e s
    exact ⟨hmoved, hstate, hloop, rfl, rfl, fun a ha => rd_wr_ne _ _ ha⟩
  · exact ⟨.refl s, rfl, rfl, rfl, rfl, fun _ _ => rfl⟩

theorem adoptHigher_same {e : Word} (h : ¬ ownEpoch s < e) : adoptHigher e s = s := if_neg fun hc => h hc.1

/-- The epoch adopted from an ACTIVE sender. -/
def roleAdopted (h : GuyHeader) (s : State) : State := if h.role = 1 then adoptHigher h.epoch s else s

theorem roleAdopted_effect (h : GuyHeader) (s : State) : DpxMoved 0 s (roleAdopted h s) ∧ dpxState (roleAdopted h s) = dpxState s ∧
    (roleAdopted h s).loop = s.loop ∧ (roleAdopted h s).upd = s.upd ∧ (roleAdopted h s).log = s.log ∧
    (∀ a, a ≠ Reg.DPX_EPOCH → rd (roleAdopted h s) a = rd s a) := by
  unfold roleAdopted
  split
  · exact adoptHigher_effect h.epoch s
  · exact ⟨.refl s, rfl, rfl, rfl, rfl, fun _ _ => rfl⟩

theorem roleAdopted_same (h : GuyHeader) (hepoch : h.epoch = ownEpoch s) : roleAdopted h s = s := by
  unfold roleAdopted
  rw [adoptHigher_same (by rw [hepoch]; exact BitVec.lt_irrefl _), ite_self]

/-- Does a heartbeat claim a higher epoch than an owner's? -/
def Claims (h : GuyHeader) (s : State) : Prop := h.role = 1 ∧ s.loop.owner = true ∧ actsAlone s = true ∧ ownEpoch s < h.epoch

theorem heartbeatRows_conflict (h : GuyHeader) (b : Heartbeat) (hc : Claims h s) : heartbeatRows h b s = epochConflict h.epoch s :=
  if_pos hc

/-- The rows of a heartbeat by the state it finds. -/
def rowsOf (n : Nat) (h : GuyHeader) (b : Heartbeat) (s : State) : State :=
  if n = dpxListen then
    if h.role = 1 then enterSyncing (takeEpoch h.epoch s)
    else if h.role = 0 ∧ !sideB s then takeover 4 dpxAlone s
    else s
  else if n = dpxAlone then
    if h.role = 2 ∧ b.state.val = dpxSynced ∧ h.epoch = ownEpoch s then setDpx dpxActive s else s
  else if n = dpxActive then if b.state.val = dpxSynced then s else carryOn s
  else if n = dpxTaking then
    if h.role = 1 ∧ h.epoch = ownEpoch s then
      setDpx (if s.dpx.fromSynced then dpxSynced else dpxSyncing) (setDpxRec { s.dpx with probeAt := none } s)
    else s
  else checkSynced s

theorem heartbeatRows_no_conflict (h : GuyHeader) (b : Heartbeat) (hc : ¬ Claims h s) :
    heartbeatRows h b s = rowsOf (dpxState s) h b (roleAdopted h s) := if_neg hc

theorem rowsOf_taken (n : Nat) (h : GuyHeader) (b : Heartbeat) (hroom : Room 4 s) : RowTaken s (rowsOf n h b s) := by
  unfold rowsOf
  split
  · split
    · exact (takeEpoch_effect h.epoch s).1.row.trans (enterSyncing_rejoined _).moved.row
    · split
      · exact (takeover_tookOver 4 dpxAlone (by decide) hroom).moved.row
      · exact .refl s
  · split
    · split
      · exact (setDpx_moved dpxActive (by decide) s).1.row
      · exact .refl s
    · split
      · split
        · exact .refl s
        · exact (carryOn_effect s).1.moved.row
      · split
        · split
          · exact (dpxMoved_setDpxRec { s.dpx with probeAt := none } s rfl rfl rfl).row.trans
              (setDpx_moved _ (by split <;> decide) _).1.row
          · exact .refl s
        · exact (checkSynced_checked s).status.moved.row

theorem heartbeatRows_taken (h : GuyHeader) (b : Heartbeat) (hroom : Room 4 s) : RowTaken s (heartbeatRows h b s) := by
  by_cases hc : Claims h s
  · rw [heartbeatRows_conflict h b hc]
    have hx := epochConflict_conflicted h.epoch hroom
    obtain ⟨es, hes, -⟩ := hx.told
    exact ⟨hx.kept, es, hes⟩
  · rw [heartbeatRows_no_conflict h b hc]
    obtain ⟨hmoved, -, -, -, hlog, -⟩ := roleAdopted_effect h s
    refine hmoved.row.trans (rowsOf_taken _ h b ?_)
    rw [Room, hlog]
    exact hroom

/-! ### What a heartbeat tells, kept -/

/-- A heartbeat noted: what it finds and what it leaves for its row. -/
structure BeatNoted (h : GuyHeader) (b : Heartbeat) (s z : State) : Prop where
  row : RowTaken s z
  state : dpxState z = dpxState s
  epoch : ownEpoch z = ownEpoch s
  loop : z.loop = s.loop
  versions : ownVersions z = ownVersions s
  on : dpxOn z = dpxOn s
  side : sideB z = sideB s
  partner : rd z Reg.DPX_PARTNER_EPOCH = h.epoch
  said : fld z Reg.DPX_PARTNER F.DPX_PARTNER_state = b.state.val
  from' : z.dpx.fromSynced = s.dpx.fromSynced
  log : z.log = s.log

/-- The partner's registers with what a heartbeat tells. -/
def beatShown (h : GuyHeader) (b : Heartbeat) (s : State) : State :=
  let a := Reg.DPX_PARTNER
  let s := setF (setF s a F.DPX_PARTNER_state b.state) a F.DPX_PARTNER_role h.role
  let s := setF (setF s a F.DPX_PARTNER_owner (b2n b.owner)) a F.DPX_PARTNER_hb_running (b2n b.running)
  wr (wr s Reg.DPX_PARTNER_EPOCH h.epoch) Reg.DPX_DIGEST_PARTNER b.digest

/-- The partner's record with what a heartbeat tells. -/
def partnerTold (b : Heartbeat) (p : Partner) : Partner := { p with
  doCmd := b.doCmd, tripCircuit := b.tripCircuit, tripOn := b.tripOn
  versions := match b.versions with | none => p.versions | some v => some v }

theorem noteHeartbeat_eq (h : GuyHeader) (b : Heartbeat) (s : State) : noteHeartbeat h b s =
    setDpxRec { (beatShown h b s).dpx with partner := partnerTold b (beatShown h b s).dpx.partner } (beatShown h b s) := rfl

theorem beatShown_effect (h : GuyHeader) (b : Heartbeat) (s : State) :
    (∀ a, a ≠ Reg.DPX_PARTNER → a ≠ Reg.DPX_PARTNER_EPOCH → a ≠ Reg.DPX_DIGEST_PARTNER → rd (beatShown h b s) a = rd s a) ∧
    rd (beatShown h b s) Reg.DPX_PARTNER_EPOCH = h.epoch ∧
    fld (beatShown h b s) Reg.DPX_PARTNER F.DPX_PARTNER_state = b.state.val ∧ (beatShown h b s).dpx = s.dpx ∧
    (beatShown h b s).loop = s.loop ∧ (beatShown h b s).log = s.log ∧ (beatShown h b s).tai = s.tai ∧
    (beatShown h b s).ticks = s.ticks ∧ (beatShown h b s).upd = s.upd := by
  unfold beatShown
  dsimp only
  obtain ⟨x, hx⟩ : ∃ x, setF (setF (setF (setF s Reg.DPX_PARTNER F.DPX_PARTNER_state b.state) Reg.DPX_PARTNER F.DPX_PARTNER_role h.role)
    Reg.DPX_PARTNER F.DPX_PARTNER_owner (b2n b.owner)) Reg.DPX_PARTNER F.DPX_PARTNER_hb_running (b2n b.running) = x := ⟨_, rfl⟩
  have hregs : ∀ a, a ≠ Reg.DPX_PARTNER → rd x a = rd s a := fun a ha => by
    rw [← hx, rd_setF_ne _ _ _ ha, rd_setF_ne _ _ _ ha, rd_setF_ne _ _ _ ha, rd_setF_ne _ _ _ ha]
  have hstate : fld x Reg.DPX_PARTNER F.DPX_PARTNER_state = b.state.val := by
    rw [← hx, fld_setF_disj _ _ _ _ _ (by decide), fld_setF_disj _ _ _ _ _ (by decide), fld_setF_disj _ _ _ _ _ (by decide),
      fld_setF _ _ _ _ (by decide)]
    exact Nat.mod_eq_of_lt (Nat.lt_trans b.state.isLt (by decide))
  have hkept : x.dpx = s.dpx ∧ x.loop = s.loop ∧ x.log = s.log ∧ x.tai = s.tai ∧ x.ticks = s.ticks ∧ x.upd = s.upd := by
    rw [← hx]
    exact ⟨rfl, rfl, rfl, rfl, rfl, rfl⟩
  rw [hx]
  clear hx
  refine ⟨fun a h1 h2 h3 => ?_, ?_, ?_, hkept⟩
  · rw [rd_wr_ne _ _ h3, rd_wr_ne _ _ h2, hregs a h1]
  · rw [rd_wr_ne _ _ (by decide), rd_wr]
  · refine (fld_of_rd ?_ _).trans hstate
    rw [rd_wr_ne _ _ (by decide), rd_wr_ne _ _ (by decide)]

theorem noteHeartbeat_noted (h : GuyHeader) (b : Heartbeat) (s : State) : BeatNoted h b s (noteHeartbeat h b s) := by
  rw [noteHeartbeat_eq]
  obtain ⟨hregs, hepoch, hsaid, hdpx, hloop, hlog, htai, hticks, hupd⟩ := beatShown_effect h b s
  generalize beatShown h b s = x at hregs hepoch hsaid hdpx hloop hlog htai hticks hupd
  generalize partnerTold b x.dpx.partner = p
  have hz : (setDpxRec { x.dpx with partner := p } x).regs = x.regs ∧ (setDpxRec { x.dpx with partner := p } x).loop = x.loop ∧
      (setDpxRec { x.dpx with partner := p } x).log = x.log ∧ (setDpxRec { x.dpx with partner := p } x).upd = x.upd ∧
      PathsKept x (setDpxRec { x.dpx with partner := p } x) ∧
      (setDpxRec { x.dpx with partner := p } x).dpx.fromSynced = x.dpx.fromSynced :=
    ⟨rfl, rfl, rfl, rfl, ⟨rfl, rfl, rfl, rfl, rfl, rfl⟩, rfl⟩
  generalize setDpxRec { x.dpx with partner := p } x = z at hz
  obtain ⟨hzregs, hzloop, hzlog, hzupd, hzkept, hzfrom⟩ := hz
  have hrd : ∀ a, a ≠ Reg.DPX_PARTNER → a ≠ Reg.DPX_PARTNER_EPOCH → a ≠ Reg.DPX_DIGEST_PARTNER → rd z a = rd s a :=
    fun a h1 h2 h3 => (rd_of_regs hzregs a).trans (hregs a h1 h2 h3)
  have hstat : rd z Reg.DPX_STATUS = rd s Reg.DPX_STATUS := hrd _ (by decide) (by decide) (by decide)
  have hx : PathsKept s x := ⟨htai, hticks, by rw [hdpx], by rw [hdpx], by rw [hdpx],
    fld_of_rd (hregs _ (by decide) (by decide) (by decide)) _⟩
  refine ⟨⟨hx.trans hzkept, LogGrows.of_log (.refl s) (hzlog.trans hlog)⟩, dpxState_of_rd hstat,
    hrd _ (by decide) (by decide) (by decide), hzloop.trans hloop, ?_, flg_of_rd (hrd _ (by decide) (by decide) (by decide)) _,
    flg_of_rd hstat _, (rd_of_regs hzregs _).trans hepoch, (fld_of_rd (rd_of_regs hzregs _) _).trans hsaid, by rw [hzfrom, hdpx],
    hzlog.trans hlog⟩
  exact ownVersions_of_regs (hrd _ (by decide) (by decide) (by decide))
    (fun k => hrd _ (by revert k; decide) (by revert k; decide) (by revert k; decide)) (hrd _ (by decide) (by decide) (by decide))
    (hzupd.trans hupd)

end Sys2Proof.Machine
end


section
/-! PROOFS. A heartbeat as a unit takes it: its path, its first copy, its row, and a rejoin on the path it brings up (R362, R364, R366,
R367, R370). -/

namespace Sys2Proof.Machine

open Sys2Proof Sys2Proof.Safety Sys2Proof.Laws

variable {s x y z t : State} {m n : Nat} {h : GuyHeader} {b : Heartbeat} {p : Fin 2}

/-! ### The order of a heartbeat -/

/-- A first copy acted on. -/
def firstActed (h : GuyHeader) (b : Heartbeat) (s : State) : State :=
  if firstCopy s 1 h then takeHeartbeat h b (acceptSeq 1 h.seq s) else s

theorem heard_on (h : GuyHeader) (b : Heartbeat) (hon : dpxOn s = true) (hstate : dpxState s ≠ dpxOff) (hcrc : h.crcOk = true) :
    heard h b s = rejoinOnPath (pathUp s h.path) h.path (firstActed h b (pathHeard h.path (freshSequences s))) := by
  unfold heard
  rw [if_neg (by simp [hon, hstate]), if_neg (by rw [hcrc]; decide)]
  rfl

theorem heard_off (h : GuyHeader) (b : Heartbeat) (hoff : dpxOn s = false ∨ dpxState s = dpxOff) : heard h b s = s :=
  if_pos (hoff.imp_left fun h => by rw [h]; rfl)

theorem heard_crc (h : GuyHeader) (b : Heartbeat) (hon : dpxOn s = true) (hstate : dpxState s ≠ dpxOff) (hcrc : h.crcOk = false) :
    heard h b s = badCrc h.path s := by
  unfold heard
  rw [if_neg (by simp [hon, hstate]), if_pos (by rw [hcrc]; rfl)]

/-- Sequence numbers that begin again change nothing else. -/
theorem freshSequences_eq (s : State) : ∃ v, freshSequences s = setDpxRec { s.dpx with seqIn := v } s := by
  unfold freshSequences
  split
  · exact ⟨s.dpx.seqIn, rfl⟩
  · split
    · exact ⟨_, rfl⟩
    · exact ⟨s.dpx.seqIn, rfl⟩

/-! ### Before the row -/

/-- A heartbeat's path counted: what is as it was. -/
structure BeatCounted (p : Fin 2) (s x : State) : Prop where
  state : dpxState x = dpxState s
  epoch : ownEpoch x = ownEpoch s
  loop : x.loop = s.loop
  versions : ownVersions x = ownVersions s
  on : dpxOn x = dpxOn s
  side : sideB x = sideB s
  from' : x.dpx.fromSynced = s.dpx.fromSynced
  ticks : x.ticks = s.ticks
  grows : GrowsBy 2 s x
  hbAt : x.dpx.hbAt = some (localNs s)
  paths : x.dpx.paths = s.dpx.paths.set p { good := runOf p s, last := localNs s, counted := 0 }
  up : pathUp s p = false → 16 ≤ runOf p s → pathUp x p = true ∧ Raises 0xA003 p 0 s x

theorem freshSequences_kept (s : State) : (freshSequences s).regs = s.regs ∧ (freshSequences s).loop = s.loop ∧
    (freshSequences s).log = s.log ∧ (freshSequences s).upd = s.upd ∧ (freshSequences s).ticks = s.ticks ∧
    (freshSequences s).dpx.fromSynced = s.dpx.fromSynced ∧ (freshSequences s).dpx.paths = s.dpx.paths := by
  obtain ⟨v, hv⟩ := freshSequences_eq s
  rw [hv]
  exact ⟨rfl, rfl, rfl, rfl, rfl, rfl, rfl⟩

theorem beatCounted (p : Fin 2) (hroom : Room 2 s) : BeatCounted p s (pathHeard p (freshSequences s)) ∧
    (pathHeard p (freshSequences s)).dpx.seqIn = (freshSequences s).dpx.seqIn := by
  obtain ⟨hregs, hloop, hlog, hupd, hticks, hfrom, hpaths⟩ := freshSequences_kept s
  generalize freshSequences s = w at hregs hloop hlog hupd hticks hfrom hpaths ⊢
  have hrun : runOf p w = runOf p s := by
    unfold runOf missedBy
    rw [localNs_of_ticks hticks, hpaths]
  have hh := pathHeard_heard p w (by rw [Room, hlog]; exact hroom)
  generalize pathHeard p w = x at hh
  have hrd : ∀ a, rd w a = rd s a := rd_of_regs hregs
  obtain ⟨hmoved, hrest, hup⟩ := hh
  rw [hrun] at hup hrest
  refine ⟨⟨hmoved.state.trans (dpxState_of_rd (hrd _)), hmoved.epoch.trans (hrd _), hmoved.loop.trans hloop, ?_,
    hmoved.dpxOn.trans (flg_of_rd (hrd _) _), ?_, ?_, hmoved.ticks.trans hticks, hmoved.grows.of_log hlog, ?_, ?_, fun hdown h16 => ?_⟩, ?_⟩
  · exact hmoved.versions.trans (ownVersions_of_regs (hrd _) (fun _ => hrd _) (hrd _) hupd)
  · rw [sideB, flg, hmoved.flags F.DPX_STATUS_side (.inl (by decide))]
    exact flg_of_rd (hrd _) _
  · rw [hrest, hfrom]
  · rw [hrest, localNs_of_ticks hticks]
  · rw [hrest, localNs_of_ticks hticks, hpaths]
  · obtain ⟨hon, htold⟩ := hup ((fbit_of_rd (hrd _) _ _).trans hdown) h16
    exact ⟨hon, raises_after (LogGrows.of_log (.refl s) hlog) htold⟩
  · rw [hrest]

theorem firstCopy_of_kept {ty : Fin 16} (hon : dpxOn t = dpxOn s) (hstate : dpxState t = dpxState s) (hseq : t.dpx.seqIn = s.dpx.seqIn)
    (h : GuyHeader) : firstCopy t ty h = firstCopy s ty h := by
  simp only [firstCopy, hon, hstate, hseq]

theorem firstCopy_counted (h : GuyHeader) (hroom : Room 2 s) :
    firstCopy (pathHeard h.path (freshSequences s)) 1 h = firstCopy (freshSequences s) 1 h := by
  obtain ⟨hc, hseq⟩ := beatCounted h.path hroom
  obtain ⟨hregs, -⟩ := freshSequences_kept s
  exact firstCopy_of_kept (hc.on.trans (flg_of_regs hregs _ _).symm) (hc.state.trans (dpxState_of_rd (rd_of_regs hregs _)).symm) hseq h

/-- A first copy accepted: its path counted, its sequence number noted. -/
structure BeatAccepted (h : GuyHeader) (s z : State) : Prop where
  counted : BeatCounted h.path s z
  seq : z.dpx.seqIn[1] = some h.seq

theorem acceptSeq_kept (ty : Fin 16) (q : Word) (s : State) : (acceptSeq ty q s).regs = s.regs ∧ (acceptSeq ty q s).loop = s.loop ∧
    (acceptSeq ty q s).log = s.log ∧ (acceptSeq ty q s).upd = s.upd ∧ (acceptSeq ty q s).ticks = s.ticks ∧
    (acceptSeq ty q s).tai = s.tai ∧
    (acceptSeq ty q s).dpx = { s.dpx with seqIn := s.dpx.seqIn.set ty (some q) } := ⟨rfl, rfl, rfl, rfl, rfl, rfl, rfl⟩

theorem beatAccepted (h : GuyHeader) (hroom : Room 2 s) :
    BeatAccepted h s (acceptSeq 1 h.seq (pathHeard h.path (freshSequences s))) := by
  obtain ⟨hc, -⟩ := beatCounted h.path hroom
  generalize pathHeard h.path (freshSequences s) = x at hc
  obtain ⟨hregs, hloop, hlog, hupd, hticks, -, hdpx⟩ := acceptSeq_kept 1 h.seq x
  generalize acceptSeq 1 h.seq x = z at hregs hloop hlog hupd hticks hdpx
  have hrd : ∀ a, rd z a = rd x a := rd_of_regs hregs
  refine ⟨⟨(dpxState_of_rd (hrd _)).trans hc.state, (hrd _).trans hc.epoch, hloop.trans hc.loop, ?_, (flg_of_rd (hrd _) _).trans hc.on,
    (flg_of_rd (hrd _) _).trans hc.side, by rw [hdpx]; exact hc.from', hticks.trans hc.ticks, ?_, by rw [hdpx]; exact hc.hbAt,
    by rw [hdpx]; exact hc.paths, fun hdown h16 => ?_⟩, ?_⟩
  · exact (ownVersions_of_regs (hrd _) (fun _ => hrd _) (hrd _) hupd).trans hc.versions
  · exact hc.grows.trans (growsBy_of_log (n := 0) hlog)
  · obtain ⟨hon, htold⟩ := hc.up hdown h16
    exact ⟨(fbit_of_rd (hrd _) _ _).trans hon, raises_before htold (LogGrows.of_log (.refl x) hlog)⟩
  · rw [hdpx]
    exact Vector.getElem_set_self (by decide)

theorem staleHeartbeat_of (hepoch : ownEpoch z = ownEpoch s) (hstate : dpxState z = dpxState s) (h : GuyHeader) :
    staleHeartbeat z h = staleHeartbeat s h := by
  simp only [staleHeartbeat, hepoch, hstate]

theorem claims_iff (hepoch : ownEpoch z = ownEpoch s) (hstate : dpxState z = dpxState s) (hloop : z.loop = s.loop) :
    Claims h z ↔ Claims h s := by
  simp only [Claims, actsAlone, hepoch, hstate, hloop]

/-- A heartbeat that is not stale, noted: what its row finds. -/
structure RowReady (h : GuyHeader) (b : Heartbeat) (s z : State) : Prop where
  state : dpxState z = dpxState s
  epoch : ownEpoch z = ownEpoch s
  loop : z.loop = s.loop
  versions : ownVersions z = ownVersions s
  on : dpxOn z = dpxOn s
  side : sideB z = sideB s
  from' : z.dpx.fromSynced = s.dpx.fromSynced
  partner : rd z Reg.DPX_PARTNER_EPOCH = h.epoch
  said : fld z Reg.DPX_PARTNER F.DPX_PARTNER_state = b.state.val
  grows : LogGrows s z
  room : Room 28 z

theorem rowReady (b : Heartbeat) (hc : BeatAccepted h s x) (hn : BeatNoted h b x z) (hroom : Room 32 s) : RowReady h b s z := by
  obtain ⟨hc, -⟩ := hc
  refine ⟨hn.state.trans hc.state, hn.epoch.trans hc.epoch, hn.loop.trans hc.loop, hn.versions.trans hc.versions, hn.on.trans hc.on,
    hn.side.trans hc.side, hn.from'.trans hc.from', hn.partner, hn.said, hc.grows.logGrows.trans hn.row.grows, ?_⟩
  rw [Room, hn.log]
  exact hc.grows.room (Nat.le_trans (by omega) hroom)

/-! ### The rows -/

/-- A takeover, as the obligation tells it: from a source, with the partner's epoch. -/
def TakenWith (s t : State) (src : Nat) (q : Word) : Prop := dpxState t = dpxAlone ∧ t.loop.owner = true ∧
  ownEpoch t = (if ownEpoch s < q then q else ownEpoch s) + 1 ∧ t.dpx.emberEpoch = ownEpoch t ∧
  rd64 t Reg.DPX_TAKEOVER_TIME = now t ∧ Raises 0xA006 src (ownEpoch t) s t

theorem takenWith_of (src : Nat) (hgrows : LogGrows s x) (hepoch : ownEpoch x = ownEpoch s) (hroom : Room 4 x) :
    TakenWith s (takeover src dpxAlone x) src (rd x Reg.DPX_PARTNER_EPOCH) := by
  have h := takeover_tookOver src dpxAlone (by decide) hroom
  generalize takeover src dpxAlone x = t at h
  refine ⟨h.state, h.owner, ?_, h.ember, h.time, raises_after hgrows h.told⟩
  rw [h.epoch, nextEpoch, hepoch]

/-- What the rows of a heartbeat do, by the state they find. -/
structure RowsDone (h : GuyHeader) (b : Heartbeat) (s t : State) : Prop where
  joins : dpxState s = dpxListen → h.role = 1 → dpxOn s = true → dpxState t = dpxSyncing ∧ ownEpoch t = h.epoch ∧ t.dpx.emberEpoch = h.epoch ∧
    t.dpx.firstHb = localNs t ∧ (t.dpx.sent[10]).map (·.payload) = some (.syncReq (ownVersions s))
  takes : dpxState s = dpxListen → h.role = 0 → sideB s = false → TakenWith s t 4 h.epoch
  gives : Claims h s → dpxState t = dpxReleased ∧ t.loop.owner = false ∧ ownEpoch t = ownEpoch s ∧
    flg t Reg.DPX_STATUS F.DPX_STATUS_conflict_seen = true ∧ Raises 0xA009 0 h.epoch s t
  finds : h.epoch = ownEpoch s → dpxState s = dpxAlone → h.role = 2 → b.state.val = dpxSynced → dpxState t = dpxActive
  loses : h.epoch = ownEpoch s → dpxState s = dpxActive → b.state.val ≠ dpxSynced → dpxState t = dpxAlone ∧
    Raises 0xA004 0 (BitVec.ofNat 32 b.state) s t
  returns : h.epoch = ownEpoch s → dpxState s = dpxTaking → h.role = 1 → t.dpx.probeAt = none ∧
    dpxState t = if s.dpx.fromSynced then dpxSynced else dpxSyncing
  waits : dpxState s = dpxDegraded → dpxState t = dpxDegraded

theorem not_claims_of_state (hs : actsAlone s = false) : ¬ Claims h s := by
  rintro ⟨-, -, hacts, -⟩
  exact Bool.false_ne_true (hs.symm.trans hacts)

theorem not_claims_of_epoch (he : h.epoch = ownEpoch s) : ¬ Claims h s := by
  rintro ⟨-, -, -, hlt⟩
  rw [he] at hlt
  exact BitVec.lt_irrefl _ hlt

theorem actsAlone_of {n : Nat} (hs : dpxState s = n) (hn : n ≠ dpxActive ∧ n ≠ dpxAlone ∧ n ≠ dpxSwitching) : actsAlone s = false := by
  obtain ⟨h1, h2, h3⟩ := hn
  simp [actsAlone, hs, h1, h2, h3]

theorem rowsOf_listen_active (h : GuyHeader) (b : Heartbeat) (s : State) (hr : h.role = 1) :
    rowsOf dpxListen h b s = enterSyncing (takeEpoch h.epoch s) := (if_pos rfl).trans (if_pos hr)

theorem rowsOf_listen_none (h : GuyHeader) (b : Heartbeat) (hr : h.role = 0) (hside : sideB s = false) :
    rowsOf dpxListen h b s = takeover 4 dpxAlone s :=
  (if_pos rfl).trans ((if_neg (by rw [hr]; decide)).trans (if_pos ⟨hr, by rw [hside]; rfl⟩))

theorem rowsOf_alone (h : GuyHeader) (b : Heartbeat) (s : State) : rowsOf dpxAlone h b s =
    if h.role = 2 ∧ b.state.val = dpxSynced ∧ h.epoch = ownEpoch s then setDpx dpxActive s else s := rfl

theorem rowsOf_active (h : GuyHeader) (b : Heartbeat) (s : State) : rowsOf dpxActive h b s =
    if b.state.val = dpxSynced then s else carryOn s := rfl

theorem rowsOf_taking (h : GuyHeader) (b : Heartbeat) (s : State) : rowsOf dpxTaking h b s =
    if h.role = 1 ∧ h.epoch = ownEpoch s then
      setDpx (if s.dpx.fromSynced then dpxSynced else dpxSyncing) (setDpxRec { s.dpx with probeAt := none } s)
    else s := rfl

theorem rowsOf_degraded (h : GuyHeader) (b : Heartbeat) (s : State) : rowsOf dpxDegraded h b s = checkSynced s := rfl

theorem takeEpoch_versions (e : Word) (s : State) : ownVersions (takeEpoch e s) = ownVersions s :=
  ownVersions_of_regs (rd_wr_ne _ _ (by decide)) (fun k => rd_wr_ne _ _ (by revert k; decide)) (rd_wr_ne _ _ (by decide)) rfl

theorem heartbeatRows_done (hr : RowReady h b s z) : RowsDone h b s (heartbeatRows h b z) := by
  have hclaims : Claims h z ↔ Claims h s := claims_iff hr.epoch hr.state hr.loop
  refine ⟨fun hs hrole hon => ?_, fun hs hrole hside => ?_, fun hc => ?_, fun he hs hrole hb => ?_, fun he hs hb => ?_, fun he hs hrole => ?_,
    fun hs => ?_⟩
  · rw [heartbeatRows_no_conflict h b (fun hc => not_claims_of_state (actsAlone_of hs (by decide)) (hclaims.mp hc)), hr.state, hs,
      rowsOf_listen_active h b _ hrole]
    obtain ⟨hmoved, hstate, -, hupd, -, hregs⟩ := roleAdopted_effect h z
    have hv : ownVersions (roleAdopted h z) = ownVersions z := ownVersions_of_regs (hregs _ (by decide))
      (fun k => hregs _ (by revert k; decide)) (hregs _ (by decide)) hupd
    generalize roleAdopted h z = w at hmoved hstate hregs hv
    obtain ⟨htake, hepoch, hember, -, -⟩ := takeEpoch_effect h.epoch w
    replace hember : (takeEpoch h.epoch w).dpx.emberEpoch = h.epoch := congrArg (·.emberEpoch) hember
    have hv' := takeEpoch_versions h.epoch w
    generalize takeEpoch h.epoch w = v at htake hepoch hember hv'
    have hj := enterSyncing_rejoined v
    generalize enterSyncing v = t at hj
    refine ⟨hj.state, (hj.regs _ (by decide) (by decide)).trans hepoch, hj.ember.trans hember, ?_, ?_⟩
    · rw [hj.first, hj.moved.localNs]
    · rw [hj.sent ((hmoved.trans htake).dpxOn.trans (hr.on.trans hon)), hv', hv, hr.versions]
  · have hsame : roleAdopted h z = z := if_neg (by rw [hrole]; decide)
    rw [heartbeatRows_no_conflict h b (fun hc => not_claims_of_state (actsAlone_of hs (by decide)) (hclaims.mp hc)), hr.state, hs,
      hsame, rowsOf_listen_none h b hrole (hr.side.trans hside), ← hr.partner]
    exact takenWith_of 4 hr.grows hr.epoch (Nat.le_trans (by omega) hr.room)
  · rw [heartbeatRows_conflict h b (hclaims.mpr hc)]
    have hx := epochConflict_conflicted h.epoch (Nat.le_trans (by omega) hr.room : Room 4 z)
    exact ⟨hx.state, hx.owner, hx.epoch.trans hr.epoch, hx.seen, raises_after hr.grows hx.told⟩
  · have hez : h.epoch = ownEpoch z := he.trans hr.epoch.symm
    rw [heartbeatRows_no_conflict h b (not_claims_of_epoch hez), hr.state, hs, roleAdopted_same h hez, rowsOf_alone, if_pos ⟨hrole, hb, hez⟩]
    exact (setDpx_moved dpxActive (by decide) z).2.1
  · have hez : h.epoch = ownEpoch z := he.trans hr.epoch.symm
    rw [heartbeatRows_no_conflict h b (not_claims_of_epoch hez), hr.state, hs, roleAdopted_same h hez, rowsOf_active, if_neg hb]
    obtain ⟨-, halone, htold⟩ := carryOn_effect z
    refine ⟨halone, raises_after hr.grows ?_⟩
    rw [← hr.said]
    exact htold (Nat.le_trans (by omega) hr.room)
  · have hez : h.epoch = ownEpoch z := he.trans hr.epoch.symm
    rw [heartbeatRows_no_conflict h b (not_claims_of_epoch hez), hr.state, hs, roleAdopted_same h hez, rowsOf_taking, if_pos ⟨hrole, hez⟩,
      hr.from']
    have hprobe : (setDpxRec { z.dpx with probeAt := none } z).dpx.probeAt = none := rfl
    generalize setDpxRec { z.dpx with probeAt := none } z = w at hprobe
    obtain ⟨-, hstate, hrec, -⟩ := setDpx_moved (if s.dpx.fromSynced then dpxSynced else dpxSyncing) (by split <;> decide) w
    exact ⟨by rw [hrec]; exact hprobe, hstate⟩
  · rw [heartbeatRows_no_conflict h b (fun hc => not_claims_of_state (actsAlone_of hs (by decide)) (hclaims.mp hc)), hr.state, hs,
      rowsOf_degraded]
    obtain ⟨-, hstate, -⟩ := roleAdopted_effect h z
    have hw : dpxState (roleAdopted h z) = dpxDegraded := hstate.trans (hr.state.trans hs)
    exact ((checkSynced_checked _).other (by rw [hw]; decide)).trans hw

end Sys2Proof.Machine
end


section
/-! PROOFS. HEARTBEAT, PATH_UP, PATH_DOWN, PARTNER_LOST, HEARTBEAT_SEND and RELEASE_TIMER (R362, R364, R366, R367, R380). -/

namespace Sys2Proof.Machine

open Sys2Proof Sys2Proof.Safety Sys2Proof.Laws

variable {s x y z t : State} {m n : Nat} {h : GuyHeader} {b : Heartbeat} {p : Fin 2}

/-! ### A rejoin on a path (row 25) -/

theorem rejoinOnPath_other (was : Bool) (p : Fin 2) (hs : dpxState s ≠ dpxDegraded) : rejoinOnPath was p s = s :=
  if_neg fun hc => hs hc.2.2

theorem rejoinOnPath_taken (p : Fin 2) (hup : pathUp s p = true) (hs : dpxState s = dpxDegraded) :
    rejoinOnPath false p s = enterSyncing s := if_pos ⟨rfl, hup, hs⟩

/-- What a rejoin on a path, where there is one, leaves. -/
structure RejoinKept (s t : State) : Prop where
  row : RowTaken s t
  flags : ∀ G ∈ dpxFlags, fld t Reg.DPX_STATUS G = fld s Reg.DPX_STATUS G
  epoch : ownEpoch t = ownEpoch s
  loop : t.loop = s.loop

theorem rejoinOnPath_kept (was : Bool) (p : Fin 2) (s : State) : RejoinKept s (rejoinOnPath was p s) := by
  unfold rejoinOnPath
  split
  · have h := enterSyncing_rejoined s
    exact ⟨h.moved.row, h.moved.flags, h.regs _ (by decide) (by decide), h.loop⟩
  · exact ⟨.refl s, fun _ _ => rfl, rfl, rfl⟩

/-! ### HEARTBEAT and PATH_UP (R362, R364) -/

theorem takeHeartbeat_stale (hst : staleHeartbeat s h = true) : takeHeartbeat h b s = noteStale 0 s := if_pos hst

theorem takeHeartbeat_fresh (hst : staleHeartbeat s h = false) : takeHeartbeat h b s = heartbeatRows h b (noteHeartbeat h b s) :=
  if_neg (by rw [hst]; decide)

/-- Whatever a heartbeat's first copy does, its path stays counted. -/
theorem firstActed_counted (h : GuyHeader) (b : Heartbeat) (hroom : Room 32 s) : ∃ w, BeatCounted h.path s w ∧
    RowTaken w (firstActed h b (pathHeard h.path (freshSequences s))) := by
  have hroom2 : Room 2 s := Nat.le_trans (by omega) hroom
  have hc := (beatCounted h.path hroom2).1
  have ha := beatAccepted h hroom2
  generalize pathHeard h.path (freshSequences s) = x at hc ha ⊢
  unfold firstActed
  split
  · generalize acceptSeq 1 h.seq x = w at ha
    refine ⟨w, ha.counted, ?_⟩
    cases hst : staleHeartbeat w h
    · rw [takeHeartbeat_fresh hst]
      have hn := noteHeartbeat_noted h b w
      have hready := rowReady b ha hn hroom
      generalize noteHeartbeat h b w = z at hn hready
      exact hn.row.trans (heartbeatRows_taken h b (Nat.le_trans (by omega) hready.room))
    · rw [takeHeartbeat_stale hst]
      have hn := noteStale_noted w
      exact ⟨hn.kept, hn.grows.logGrows⟩
  · exact ⟨x, hc, .refl x⟩

/-- A unit in DEGRADED_STANDBY stays there until a path brings it back. -/
theorem firstActed_degraded (h : GuyHeader) (b : Heartbeat) (hs : dpxState s = dpxDegraded) (hroom : Room 32 s) :
    dpxState (firstActed h b (pathHeard h.path (freshSequences s))) = dpxDegraded := by
  have hroom2 : Room 2 s := Nat.le_trans (by omega) hroom
  have hc := (beatCounted h.path hroom2).1
  have ha := beatAccepted h hroom2
  generalize pathHeard h.path (freshSequences s) = x at hc ha ⊢
  unfold firstActed
  split
  · generalize acceptSeq 1 h.seq x = w at ha
    cases hst : staleHeartbeat w h
    · rw [takeHeartbeat_fresh hst]
      exact (heartbeatRows_done (rowReady b ha (noteHeartbeat_noted h b w) hroom)).waits hs
    · rw [takeHeartbeat_stale hst]
      exact (noteStale_noted w).state.trans (ha.counted.state.trans hs)
  · exact hc.state.trans hs

/-- What a first copy of a heartbeat does. -/
def BeatDone (h : GuyHeader) (b : Heartbeat) (s t : State) : Prop :=
  t.dpx.seqIn[1] = some h.seq ∧
  (staleHeartbeat s h = true → flg t Reg.DPX_STATUS F.DPX_STATUS_stale_seen = true ∧ ownEpoch t = ownEpoch s ∧
    t.loop = s.loop ∧ (dpxState s ≠ dpxDegraded → dpxState t = dpxState s)) ∧
  (staleHeartbeat s h = false → ∃ y, RowsDone h b s y ∧ (dpxState y ≠ dpxDegraded → t = y))

theorem heard_first (hon : dpxOn s = true) (hstate : dpxState s ≠ dpxOff) (hcrc : h.crcOk = true) (hroom : Room 32 s)
    (hfirst : firstCopy (freshSequences s) 1 h = true) : BeatDone h b s (heard h b s) := by
  have hroom2 : Room 2 s := Nat.le_trans (by omega) hroom
  rw [heard_on h b hon hstate hcrc]
  have hf := (firstCopy_counted h hroom2).trans hfirst
  have ha := beatAccepted h hroom2
  generalize pathHeard h.path (freshSequences s) = x at hf ha
  rw [show firstActed h b x = takeHeartbeat h b (acceptSeq 1 h.seq x) from if_pos hf]
  generalize acceptSeq 1 h.seq x = w at ha
  have hsame : staleHeartbeat w h = staleHeartbeat s h := staleHeartbeat_of ha.counted.epoch ha.counted.state h
  generalize pathUp s h.path = was
  cases hst : staleHeartbeat s h
  · rw [takeHeartbeat_fresh (hsame.trans hst)]
    have hn := noteHeartbeat_noted h b w
    have hready := rowReady b ha hn hroom
    generalize noteHeartbeat h b w = z at hn hready
    have hdone := heartbeatRows_done hready
    have hrow := heartbeatRows_taken h b (Nat.le_trans (by omega) hready.room : Room 4 z)
    generalize heartbeatRows h b z = y at hdone hrow
    have hj := rejoinOnPath_kept was h.path y
    refine ⟨?_, fun hc => (nomatch hc.symm.trans hst), fun _ => ⟨y, hdone, rejoinOnPath_other was h.path⟩⟩
    rw [hj.row.kept.seqIn, hrow.kept.seqIn, hn.row.kept.seqIn]
    exact ha.seq
  · rw [takeHeartbeat_stale (hsame.trans hst)]
    have hn := noteStale_noted w
    generalize noteStale 0 w = y at hn
    have hj := rejoinOnPath_kept was h.path y
    refine ⟨?_, fun _ => ⟨?_, ?_, ?_, fun hne => ?_⟩, fun hc => (nomatch hc.symm.trans hst)⟩
    · rw [hj.row.kept.seqIn, hn.kept.seqIn]
      exact ha.seq
    · rw [flg, hj.flags _ (by decide)]
      exact hn.seen
    · rw [hj.epoch]
      exact (hn.regs _ (by decide) (by decide)).trans ha.counted.epoch
    · rw [hj.loop, hn.loop, ha.counted.loop]
    · have hy : dpxState y = dpxState s := hn.state.trans ha.counted.state
      rw [rejoinOnPath_other was h.path (by rw [hy]; exact hne), hy]

/-- The path of a heartbeat. -/
structure PathDone (h : GuyHeader) (s t : State) : Prop where
  hbAt : t.dpx.hbAt = some (localNs t)
  now' : localNs t = localNs s
  path : t.dpx.paths[h.path] = { good := if localNs s < (s.dpx.paths[h.path]).last + 20000 then (s.dpx.paths[h.path]).good + 1 else 1,
                                 last := localNs s, counted := 0 }
  up : pathUp s h.path = false → 15 ≤ (s.dpx.paths[h.path]).good → localNs s < (s.dpx.paths[h.path]).last + 20000 →
    pathUp t h.path = true ∧ Raises 0xA003 h.path 0 s t ∧ (dpxState s = dpxDegraded → dpxState t = dpxSyncing)

theorem heard_path (b : Heartbeat) (hon : dpxOn s = true) (hstate : dpxState s ≠ dpxOff) (hcrc : h.crcOk = true) (hroom : Room 32 s) :
    PathDone h s (heard h b s) := by
  rw [heard_on h b hon hstate hcrc]
  obtain ⟨w, hc, hrow⟩ := firstActed_counted h b hroom
  have hdeg := fun hs => firstActed_degraded h b hs hroom
  generalize firstActed h b (pathHeard h.path (freshSequences s)) = y at hrow hdeg
  have hj := hrow.trans (rejoinOnPath_kept (pathUp s h.path) h.path y).row
  have hrun := runOf_eq h.path s
  refine ⟨?_, ?_, ?_, fun hdown hgood hlast => ?_⟩
  · rw [hj.kept.hbAt, hc.hbAt, localNs_of_ticks (hj.kept.ticks.trans hc.ticks)]
  · exact localNs_of_ticks (hj.kept.ticks.trans hc.ticks)
  · rw [hj.kept.paths, hc.paths, hrun]
    exact Vector.getElem_set_self h.path.isLt
  · rw [if_pos hlast] at hrun
    obtain ⟨hon', htold⟩ := hc.up hdown (by rw [hrun]; omega)
    have hup : ∀ u : State, PathsKept w u → pathUp u h.path = true := fun u hk => by
      rw [pathUp, fbit, hk.up]
      exact hon'
    refine ⟨hup _ hj.kept, raises_before htold hj.grows, fun hs => ?_⟩
    rw [hdown, rejoinOnPath_taken h.path (hup y hrow.kept) (hdeg hs)]
    exact (enterSyncing_rejoined y).state

theorem exec_heartbeat (b : Heartbeat) (hclear : Clear (guyUnit h.path) s) : exec (.heartbeat h b) s = .next (heard h b s) :=
  Eq.trans (b := execHeartbeat h b s) rfl (guyArrives_clear hclear)

theorem exec_pathUp (b : Heartbeat) (hclear : Clear (guyUnit h.path) s) : exec (.pathUp h b) s =
    if (!pathUp s h.path) = true ∧ 15 ≤ (s.dpx.paths[h.path]).good then .next (heard h b s) else .next s :=
  Eq.trans (b := execPathUp h b s) rfl (guyArrives_clear hclear)

theorem pathUp_idle (b : Heartbeat) (hclear : Clear (guyUnit h.path) s)
    (hc : pathUp s h.path = true ∨ (s.dpx.paths[h.path]).good < 15) : exec (.pathUp h b) s = .next s := by
  rw [exec_pathUp b hclear, if_neg]
  rintro ⟨hdown, hgood⟩
  rcases hc with hc | hc
  · rw [hc] at hdown
    cases hdown
  · omega

theorem heartbeat_off (b : Heartbeat) (hclear : Clear (guyUnit h.path) s) (hoff : dpxOn s = false ∨ dpxState s = dpxOff) :
    exec (.heartbeat h b) s = .next s ∧ exec (.pathUp h b) s = .next s := by
  rw [exec_heartbeat b hclear, exec_pathUp b hclear, heard_off h b hoff, ite_self]
  exact ⟨rfl, rfl⟩

/-- A heartbeat with a good CRC on a unit of a duplex. -/
theorem heartbeat_heard (b : Heartbeat) (hclear : Clear (guyUnit h.path) s) (hon : dpxOn s = true) (hstate : dpxState s ≠ dpxOff)
    (hcrc : h.crcOk = true) (hroom : Room 32 s) :
    let x := s.dpx.paths[h.path]
    ∃ t, exec (.heartbeat h b) s = .next t ∧ t.dpx.hbAt = some (localNs t) ∧ localNs t = localNs s ∧
      t.dpx.paths[h.path] = { good := if localNs s < x.last + 20000 then x.good + 1 else 1, last := localNs s, counted := 0 } ∧
      (pathUp s h.path = false → 15 ≤ x.good → localNs s < x.last + 20000 → exec (.pathUp h b) s = .next t ∧
        pathUp t h.path = true ∧ Raises 0xA003 h.path 0 s t ∧ (dpxState s = dpxDegraded → dpxState t = dpxSyncing)) ∧
      (firstCopy (freshSequences s) 1 h = true → BeatDone h b s t) := by
  have hp := heard_path b hon hstate hcrc hroom
  refine ⟨_, exec_heartbeat b hclear, hp.hbAt, hp.now', hp.path, fun hdown hgood hlast => ⟨?_, hp.up hdown hgood hlast⟩,
    heard_first hon hstate hcrc hroom⟩
  rw [exec_pathUp b hclear, if_pos ⟨by rw [hdown]; rfl, hgood⟩]

/-! ### PATH_DOWN and PARTNER_LOST (R364) -/

/-- The eighth interval missed, noted. -/
def eighthNoted (p : Fin 2) (v : PathState) (s : State) : State :=
  setDpxRec { s.dpx with paths := s.dpx.paths.set p { v with good := 0, counted := 8 } } s

theorem execPathDown_up (p : Fin 2) (hon : dpxOn s = true) (hup : pathUp s p = true) : execPathDown p s =
    .next (checkSynced (takeDown p 8 (eighthNoted p s.dpx.paths[p]
      (addMissed p (8 - (s.dpx.paths[p]).counted) (reachLocal ((s.dpx.paths[p]).last + 90000) s))))) := by
  unfold execPathDown
  rw [if_neg (by rw [hon, hup]; decide)]
  dsimp only
  unfold eighthNoted
  generalize reachLocal ((s.dpx.paths[p]).last + 90000) s = w
  rfl

theorem addMissed_log (p : Fin 2) (k : Nat) (s : State) : (addMissed p k s).log = s.log := by
  unfold addMissed
  generalize min 65535 _ = v
  rfl

theorem PATH_STAT_input (p : Fin 2) : Reg.DPX_PATH_STAT p ∈ dpxInputs := by
  revert p
  decide

theorem pathDownShown_regs (p : Fin 2) (s : State) (a : Nat) (ha : a ≠ Reg.DPX_STATUS) : rd (pathDownShown p s) a = rd s a :=
  (rd_setF_ne _ _ _ ha).trans (rd_setF_ne _ _ _ ha)

/-- A path down at an instant. -/
structure PathDown (p : Fin 2) (q : Nat) (s t : State) : Prop where
  up : pathUp t p = false
  reached : q ≤ localNs t
  good : (t.dpx.paths[p]).good = 0
  seen : flg t Reg.DPX_STATUS F.DPX_STATUS_path_down_seen = true
  told : Raises 0xA002 p 8 s t
  missed : fld t (Reg.DPX_PATH_STAT p) F.DPX_PATH_STAT_missed =
    min 65535 (fld s (Reg.DPX_PATH_STAT p) F.DPX_PATH_STAT_missed + (8 - (s.dpx.paths[p]).counted))

theorem eighthNoted_kept (p : Fin 2) (v : PathState) (s : State) : (eighthNoted p v s).regs = s.regs ∧ (eighthNoted p v s).log = s.log ∧
    (eighthNoted p v s).ticks = s.ticks ∧ (eighthNoted p v s).dpx.paths = s.dpx.paths.set p { v with good := 0, counted := 8 } :=
  ⟨rfl, rfl, rfl, rfl⟩

theorem pathDown_down (p : Fin 2) (q : Nat) (hup : pathUp s p = true) (hroom : Room 8 s) : PathDown p q s
    (checkSynced (takeDown p 8 (eighthNoted p s.dpx.paths[p] (addMissed p (8 - (s.dpx.paths[p]).counted) (reachLocal q s))))) := by
  have hreach := localNs_reachLocal q s
  obtain ⟨hwregs, hwlog, hwdpx, -, -⟩ := reachLocal_dpx q s
  generalize reachLocal q s = w at hreach hwregs hwlog hwdpx
  obtain ⟨k, hk⟩ : ∃ k, 8 - (s.dpx.paths[p]).counted = k := ⟨_, rfl⟩
  obtain ⟨hmiss, hmissRec, hmissStat, hmissed⟩ := addMissed_moved p k w
  have hmissLog := addMissed_log p k w
  rw [hk]
  generalize addMissed p k w = x at hmiss hmissRec hmissStat hmissed hmissLog
  obtain ⟨hyregs, hylog, hyticks, hypaths⟩ := eighthNoted_kept p s.dpx.paths[p] x
  generalize eighthNoted p s.dpx.paths[p] x = y at hyregs hylog hyticks hypaths
  have hyup : pathUp y p = true := (fbit_of_rd ((rd_of_regs hyregs _).trans (hmissStat.trans (rd_of_regs hwregs _))) _ _).trans hup
  have hgrows : LogGrows s y := by
    refine (LogGrows.of_log (.refl s) hwlog).trans (hmiss.grows.logGrows.trans ?_)
    exact LogGrows.of_log (.refl x) hylog
  have hlog : y.log = s.log := hylog.trans (hmissLog.trans hwlog)
  have hroom1 : Room 1 y := by
    rw [Room, hlog]
    exact Nat.le_trans (by omega) hroom
  obtain ⟨hdown, hdownUp, hseen, hdownRec, htold, hdownRegs⟩ := takeDown_taken 8 hyup hroom1
  generalize takeDown p 8 y = z at hdown hdownUp hseen hdownRec htold hdownRegs
  have hc := checkSynced_checked z
  generalize checkSynced z = t at hc
  have hm := hc.status.moved
  have hpath : rd t (Reg.DPX_PATH_STAT p) = rd x (Reg.DPX_PATH_STAT p) := by
    exact (hm.regs _ (PATH_STAT_input p)).trans ((hdownRegs _).trans
      ((pathDownShown_regs p y _ (PATH_STAT_ne p).1).trans (rd_of_regs hyregs _)))
  refine ⟨?_, ?_, ?_, ?_, raises_after hgrows (raises_before htold hm.grows.logGrows), ?_⟩
  · rw [hm.pathUp]
    exact hdownUp
  · rw [hm.localNs, localNs_of_ticks (hdown.ticks.trans (hyticks.trans hmiss.ticks))]
    exact hreach
  · rw [hm.paths, hdownRec, hypaths]
    exact congrArg PathState.good (Vector.getElem_set_self (xs := x.dpx.paths) p.isLt)
  · rw [hm.flg (by decide)]
    exact hseen
  · rw [fld_of_rd hpath, hmissed, fld_of_rd (rd_of_regs hwregs _), hk]

end Sys2Proof.Machine
end


section
/-! PROOFS. What a frame that the part sends, or that meets a fault-injection unit, changes: registers of NET alone, and at most an event
for each unit it passes (R393, R394, R403). -/

namespace Sys2Proof.Machine

open Sys2Proof Sys2Proof.Safety Sys2Proof.Laws

variable {s x y t : State} {m n : Nat}

/-- A step of the networks: the log gains at most `n` events, and with room for them no register but those of NET changes. -/
structure NetMoved (n : Nat) (s t : State) : Prop where
  grows : GrowsBy n s t
  only : Room n s → ∀ a, blockAt a ≠ some .net → rd t a = rd s a

theorem NetMoved.refl (s : State) : NetMoved 0 s s := ⟨.refl s, fun _ _ _ => rfl⟩

theorem NetMoved.trans (h : NetMoved m s x) (h' : NetMoved n x t) : NetMoved (m + n) s t :=
  ⟨h.grows.trans h'.grows, fun hroom a ha =>
    (h'.only (h.grows.room hroom) a ha).trans (h.only (Nat.le_trans (by omega) hroom) a ha)⟩

theorem NetMoved.mono (h : NetMoved m s t) (hle : m ≤ n) : NetMoved n s t :=
  ⟨h.grows.mono hle, fun hroom => h.only (Nat.le_trans (by omega) hroom)⟩

theorem netMoved_setNet (z : NetState) (s : State) : NetMoved 0 s (setNet z s) := ⟨growsBy_of_log rfl, fun _ _ _ => rfl⟩

theorem netMoved_setFi (u : Fin 10) (z : FiUnit) (s : State) : NetMoved 0 s (setFi u z s) := ⟨growsBy_of_log rfl, fun _ _ _ => rfl⟩

theorem netMoved_wr {a : Nat} (ha : blockAt a = some .net) (v : Word) (s : State) : NetMoved 0 s (wr s a v) :=
  ⟨growsBy_of_log rfl, fun _ b hb => rd_wr_ne _ _ fun he => hb (by rw [he, ha])⟩

theorem netMoved_setF {a : Nat} (ha : blockAt a = some .net) (G : Fld) (v : Nat) (s : State) : NetMoved 0 s (setF s a G v) :=
  netMoved_wr ha _ s

theorem netMoved_logEvent (c q : Nat) (e : Word) (s : State) : NetMoved 1 s (logEvent c q e s) :=
  ⟨growsBy_logEvent c q e s, fun hroom a _ => rd_logEvent_room s c q e hroom a⟩

/-! ### A unit (R403) -/

theorem fiOut_moved (u : Fin 10) (l : List PathFrame) (s : State) : NetMoved 0 s (fiOut u l s) := netMoved_setFi u _ s

theorem fiAct_moved (u : Fin 10) (f : PathFrame) (s : State) : NetMoved 0 s (fiAct u f s) := by
  unfold fiAct
  dsimp only
  split
  · exact fiOut_moved ..
  · exact fiOut_moved ..
  · exact fiOut_moved ..
  · split
    · exact netMoved_setFi ..
    · exact netMoved_setFi ..
  · exact netMoved_setFi ..
  · exact fiOut_moved ..

theorem fiPass_moved (u : Fin 10) (f : PathFrame) (s : State) : NetMoved 0 s (fiPass u f s) := by
  unfold fiPass
  dsimp only
  split
  · exact fiOut_moved ..
  · exact netMoved_setFi ..

theorem fiFinish_moved (u : Fin 10) (acted : Nat) (s : State) : NetMoved 1 s (fiFinish u acted s) := by
  unfold fiFinish setFiState
  exact ((netMoved_setFi u _ s).trans (netMoved_wr (by decide) _ _)).trans (netMoved_logEvent ..)

theorem FI_DONE_net (u : Fin 10) : blockAt (Reg.NET_FI_DONE u) = some .net := by
  revert u
  decide

/-- A unit's count of frames acted on, and its end. -/
def fiCounted (u : Fin 10) (acted count : Nat) (s : State) : State :=
  whenS (max 1 count ≤ acted) (fiFinish u acted) (setF s (Reg.NET_FI_DONE u) F.NET_FI_DONE_acted acted)

theorem fiCounted_moved (u : Fin 10) (acted count : Nat) (s : State) : NetMoved 1 s (fiCounted u acted count s) := by
  unfold fiCounted
  have h := netMoved_setF (FI_DONE_net u) F.NET_FI_DONE_acted acted s
  generalize setF s (Reg.NET_FI_DONE u) F.NET_FI_DONE_acted acted = x at h
  by_cases hc : max 1 count ≤ acted
  · rw [whenS, if_pos (by simpa using hc)]
    exact (h.trans (fiFinish_moved u acted x)).mono (by decide)
  · rw [whenS, if_neg (by simpa using hc)]
    exact h.mono (by decide)

theorem passUnit_moved (u : Fin 10) (f : PathFrame) (s : State) : NetMoved 1 s (passUnit u f s) := by
  unfold passUnit
  dsimp only
  split
  · exact (fiOut_moved ..).mono (Nat.zero_le 1)
  · split
    · exact (fiPass_moved ..).mono (Nat.zero_le 1)
    · have h := netMoved_setFi u { s.net.fi[u] with matched := (s.net.fi[u]).matched + 1 } s
      generalize setFi u { s.net.fi[u] with matched := (s.net.fi[u]).matched + 1 } s = x at h
      split
      · exact (h.trans (fiPass_moved u f x)).mono (Nat.zero_le 1)
      · exact ((h.trans (fiAct_moved u f x)).trans (fiCounted_moved u _ _ _)).mono (by decide)

/-! ### The ports (R393, R394) -/

theorem leavePort_moved (p : Fin 2) (f : PathFrame) (s : State) : NetMoved 0 s (leavePort p f s) := netMoved_setNet _ s

theorem forEach_moved {α : Type} (g : α → State → State) (hg : ∀ a x, NetMoved 0 x (g a x)) (l : List α) (s : State) :
    NetMoved 0 s (forEach l g s) :=
  forEach_keeps (P := NetMoved 0 s) (fun a _ x hx => hx.trans (hg a x)) (.refl s)

theorem transmit_moved (p : Fin 2) (f : PathFrame) (s : State) : NetMoved 1 s (transmit p f s) := by
  unfold transmit
  have h := passUnit_moved (portUnit p) f s
  generalize passUnit (portUnit p) f s = x at h
  exact h.trans (forEach_moved (leavePort p) (leavePort_moved p) _ x)

theorem drainPort_moved (p : Fin 2) (s : State) : NetMoved 1 s (drainPort p s) := by
  unfold drainPort
  split
  · exact (NetMoved.refl s).mono (by decide)
  · split
    · exact (NetMoved.refl s).mono (by decide)
    · split
      · exact (NetMoved.refl s).mono (by decide)
      · exact ((netMoved_setNet _ s).trans (transmit_moved ..)).mono (by decide)

theorem enqueue_moved (p : Fin 2) (f : PathFrame) (s : State) : NetMoved 1 s (enqueue p f s) := by
  unfold enqueue
  split
  · exact (NetMoved.refl s).mono (by decide)
  · exact ((netMoved_setNet _ s).trans (drainPort_moved p _)).mono (by decide)

/-- A frame sent on a LAN whose link is up. -/
def lanSend (f : PathFrame) (p : Fin 2) (s : State) : State := if linkIsUp s ⟨p.val, by omega⟩ then transmit p f s else s

theorem lanSend_moved (f : PathFrame) (p : Fin 2) (s : State) : NetMoved 1 s (lanSend f p s) := by
  unfold lanSend
  split
  · exact transmit_moved ..
  · exact (NetMoved.refl s).mono (by decide)

/-- A frame of the part's own port as it leaves. -/
def ownFrame (f : PathFrame) : PathFrame := { f with receive := false, residence := none }

/-- The frame with its PRP sequence number. -/
def prpFrame (s : State) (f : PathFrame) : PathFrame := { f with frame := { f.frame with prp := some (0, s.net.prpSeq) } }

theorem ownSend_prp (f : PathFrame) (h : prpMode s = true) : ownSend f s =
    forEach (List.finRange 2) (lanSend (prpFrame s (ownFrame f))) (setNet { s.net with prpSeq := s.net.prpSeq + 1 } s) := if_pos h

theorem ownSend_line (f : PathFrame) (h : prpMode s = false) : ownSend f s = enqueue 1 (ownFrame f) (enqueue 0 (ownFrame f) s) :=
  if_neg (by rw [h]; decide)

theorem ownSend_moved (f : PathFrame) (s : State) : NetMoved 2 s (ownSend f s) := by
  cases h : prpMode s
  · rw [ownSend_line f h]
    exact (enqueue_moved ..).trans (enqueue_moved ..)
  · rw [ownSend_prp f h, forEach_two]
    exact (((netMoved_setNet _ s).trans (lanSend_moved ..)).trans (lanSend_moved ..)).mono (by decide)

/-- What a frame sent leaves of the rest. -/
theorem ownSend_kept (f : PathFrame) (s : State) : (ownSend f s).dpx = s.dpx ∧ (ownSend f s).loop = s.loop ∧ (ownSend f s).tai = s.tai ∧
    (ownSend f s).ticks = s.ticks ∧ ∀ a, blockAt a = some .dpx → rd (ownSend f s) a = rd s a := by
  have h := ownSend_ev (f0 := f) (foot_self _) (Ev.refl _ s)
  exact ⟨keeps_of_ev h (p := .dpx) rfl, keeps_of_ev h (p := .loop) rfl, keeps_of_ev h (p := .tai) rfl, keeps_of_ev h (p := .ticks) rfl,
    fun a ha => rd_of_ev h rfl ha rfl⟩

end Sys2Proof.Machine
end


section
/-! PROOFS. PARTNER_LOST, HEARTBEAT_SEND, RELEASE_TIMER, LISTEN_TIMEOUT and DEGRADED_PROBE (R362, R364, R370, R378, R380, R381). -/

namespace Sys2Proof.Machine

open Sys2Proof Sys2Proof.Safety Sys2Proof.Laws

variable {s x y z t : State} {m n : Nat}

/-! ### A probe sent (R378) -/

/-- A probe noted. -/
def probeNoted (s : State) : State := setDpxRec { s.dpx with probeAt := some (localNs s), lastProbe := localNs s } s

theorem sendProbe_eq (s : State) : sendProbe s = ownSend (probeFrame s) (probeNoted s) := rfl

/-- A probe sent: noted, and nothing of the duplex but that changes. -/
structure ProbeSent (s t : State) : Prop where
  rest : t.dpx = { s.dpx with probeAt := some (localNs s), lastProbe := localNs s }
  loop : t.loop = s.loop
  ticks : t.ticks = s.ticks
  tai : t.tai = s.tai
  regs : ∀ a, blockAt a = some .dpx → rd t a = rd s a
  net : NetMoved 2 s t

theorem sendProbe_sent (s : State) : ProbeSent s (sendProbe s) := by
  rw [sendProbe_eq]
  have hx : (probeNoted s).dpx = { s.dpx with probeAt := some (localNs s), lastProbe := localNs s } ∧ (probeNoted s).loop = s.loop ∧
      (probeNoted s).ticks = s.ticks ∧ (probeNoted s).tai = s.tai ∧ (probeNoted s).regs = s.regs ∧ (probeNoted s).log = s.log :=
    ⟨rfl, rfl, rfl, rfl, rfl, rfl⟩
  generalize probeNoted s = x at hx
  obtain ⟨hdpx, hloop, hticks, htai, hregs, hlog⟩ := hx
  obtain ⟨hkdpx, hkloop, hktai, hkticks, hkregs⟩ := ownSend_kept (probeFrame s) x
  have hm := ownSend_moved (probeFrame s) x
  have hx0 : NetMoved 0 s x := ⟨growsBy_of_log hlog, fun _ a _ => rd_of_regs hregs a⟩
  exact ⟨hkdpx.trans hdpx, hkloop.trans hloop, hkticks.trans hticks, hktai.trans htai, fun a ha => (hkregs a ha).trans (rd_of_regs hregs a),
    (hx0.trans hm).mono (by decide)⟩

theorem ProbeSent.probed (h : ProbeSent s t) : t.dpx.probeAt = some (localNs t) ∧ t.dpx.lastProbe = localNs t := by
  rw [h.rest, localNs_of_ticks h.ticks]
  exact ⟨rfl, rfl⟩

theorem ProbeSent.state (h : ProbeSent s t) : dpxState t = dpxState s := dpxState_of_rd (h.regs _ (by decide))

/-! ### A probe at an instant (R370, R381) -/

/-- A probe sent at a local instant. -/
structure ProbedAt (q : Nat) (s t : State) : Prop where
  reached : q ≤ localNs t
  probed : t.dpx.probeAt = some (localNs t) ∧ t.dpx.lastProbe = localNs t
  net : ∀ a, blockAt a ≠ some .net → rd t a = rd s a
  loop : t.loop = s.loop

theorem sendProbe_at (q : Nat) (hroom : Room 2 s) : ProbedAt q s (sendProbe (reachLocal q s)) := by
  have hreach := localNs_reachLocal q s
  obtain ⟨hregs, hlog, -, -, hloop⟩ := reachLocal_dpx q s
  generalize reachLocal q s = x at hreach hregs hlog hloop
  have h := sendProbe_sent x
  generalize sendProbe x = t at h
  refine ⟨by rw [localNs_of_ticks h.ticks]; exact hreach, h.probed, fun a ha => ?_, h.loop.trans hloop⟩
  exact (h.net.only (by rw [Room, hlog]; exact hroom) a ha).trans (rd_of_regs hregs a)

theorem degradedProbe_probes (hs : dpxState s = dpxDegraded) (hroom : Room 2 s) : ∃ t, exec .degradedProbe s = .next t ∧
    ProbedAt (s.dpx.lastProbe + 10000000) s t :=
  ⟨_, Eq.trans (b := execDegradedProbe s) rfl (if_neg (not_not.mpr hs)), sendProbe_at _ hroom⟩

theorem degradedProbe_idle (hs : dpxState s ≠ dpxDegraded) : exec .degradedProbe s = .next s :=
  Eq.trans (b := execDegradedProbe s) rfl (if_pos hs)

/-- The local instant at which a listening unit probes. -/
def listenEnd (s : State) : Nat :=
  s.dpx.listenAt + (if sideB s then 2 * (1000000 * fld s Reg.DPX_CFG F.DPX_CFG_t_listen) else 1000000 * fld s Reg.DPX_CFG F.DPX_CFG_t_listen)

theorem execListenTimeout_due (hs : dpxState s = dpxListen) (hp : s.dpx.probeAt = none) :
    execListenTimeout s = .next (sendProbe (reachLocal (listenEnd s) s)) := by
  unfold execListenTimeout
  refine (if_neg ?_).trans (by dsimp only [listenEnd])
  rintro (hne | hsome)
  · exact hne hs
  · rw [hp] at hsome
    cases hsome

theorem listenEnd_eq (s : State) : listenEnd s =
    s.dpx.listenAt + (if sideB s then 2 else 1) * (1000000 * fld s Reg.DPX_CFG F.DPX_CFG_t_listen) := by
  unfold listenEnd
  generalize 1000000 * fld s Reg.DPX_CFG F.DPX_CFG_t_listen = q
  cases sideB s
  · exact congrArg _ (Nat.one_mul q).symm
  · rfl

theorem listenTimeout_probes (hs : dpxState s = dpxListen) (hp : s.dpx.probeAt = none) (hroom : Room 2 s) :
    ∃ t, exec .listenTimeout s = .next t ∧
      ProbedAt (s.dpx.listenAt + (if sideB s then 2 else 1) * (1000000 * fld s Reg.DPX_CFG F.DPX_CFG_t_listen)) s t := by
  rw [← listenEnd_eq]
  exact ⟨_, Eq.trans (b := execListenTimeout s) rfl (execListenTimeout_due hs hp), sendProbe_at _ hroom⟩

theorem listenTimeout_idle (h : dpxState s ≠ dpxListen ∨ s.dpx.probeAt.isSome = true) : exec .listenTimeout s = .next s :=
  Eq.trans (b := execListenTimeout s) rfl (if_pos h)

/-! ### PARTNER_LOST (R364, rows 8 and 20) -/

/-- The takeover begins: probes, no MIRROR. -/
def takingNoted (b : Bool) (s : State) : State := setDpxRec { s.dpx with fromSynced := b, mirrorFrom := none } s

theorem execPartnerLost_active (hon : dpxOn s = true) (hs : dpxState s = dpxActive) :
    execPartnerLost s = .next (carryOn (reachLocal ((s.dpx.hbAt).getD 0 + 80000) s)) := by
  unfold execPartnerLost
  dsimp only
  rw [if_neg (by rw [hon, hs]; decide), if_pos hs]

theorem execPartnerLost_standby (hon : dpxOn s = true) (hs : dpxState s = dpxSynced ∨ dpxState s = dpxSyncing) :
    execPartnerLost s = .next (sendProbe (setDpx dpxTaking (logLost
      (takingNoted (dpxState s == dpxSynced) (reachLocal ((s.dpx.hbAt).getD 0 + 80000) s))))) := by
  have hne : dpxState s ≠ dpxActive := by rcases hs with h | h <;> rw [h] <;> decide
  unfold execPartnerLost
  dsimp only
  rw [if_neg (by rcases hs with h | h <;> rw [hon, h] <;> decide), if_neg hne]
  rfl

/-- A partner lost at an instant. -/
structure PartnerLost (q : Nat) (s t : State) : Prop where
  reached : q ≤ localNs t
  loop : t.loop = s.loop
  told : Raises 0xA004 0 (BitVec.ofNat 32 (fld s Reg.DPX_PARTNER F.DPX_PARTNER_state)) s t

theorem carryOn_lost (q : Nat) (hroom : Room 8 s) : PartnerLost q s (carryOn (reachLocal q s)) ∧
    dpxState (carryOn (reachLocal q s)) = dpxAlone := by
  have hreach := localNs_reachLocal q s
  obtain ⟨hregs, hlog, -, -, hloop⟩ := reachLocal_dpx q s
  generalize reachLocal q s = x at hreach hregs hlog hloop
  obtain ⟨hmoved, halone, htold⟩ := carryOn_effect x
  generalize carryOn x = t at hmoved halone htold
  refine ⟨⟨by rw [hmoved.moved.localNs]; exact hreach, hmoved.loop.trans hloop, ?_⟩, halone⟩
  rw [← fld_of_rd (rd_of_regs hregs Reg.DPX_PARTNER)]
  refine raises_after (LogGrows.of_log (.refl s) hlog) (htold ?_)
  rw [Room, hlog]
  exact Nat.le_trans (by omega) hroom

/-- A standby that has lost its partner, before its probe. -/
def takingBegun (b : Bool) (s : State) : State := setDpx dpxTaking (logLost (takingNoted b s))

theorem takingBegun_effect (b : Bool) (hroom : Room 1 s) : dpxState (takingBegun b s) = dpxTaking ∧
    (takingBegun b s).dpx.mirrorFrom = none ∧ (takingBegun b s).dpx.fromSynced = b ∧ (takingBegun b s).loop = s.loop ∧
    (takingBegun b s).ticks = s.ticks ∧
    Raises 0xA004 0 (BitVec.ofNat 32 (fld s Reg.DPX_PARTNER F.DPX_PARTNER_state)) s (takingBegun b s) := by
  unfold takingBegun logLost
  have hx : (takingNoted b s).dpx.mirrorFrom = none ∧ (takingNoted b s).dpx.fromSynced = b ∧ (takingNoted b s).loop = s.loop ∧
      (takingNoted b s).ticks = s.ticks ∧ (takingNoted b s).log = s.log ∧
      fld (takingNoted b s) Reg.DPX_PARTNER F.DPX_PARTNER_state = fld s Reg.DPX_PARTNER F.DPX_PARTNER_state :=
    ⟨rfl, rfl, rfl, rfl, rfl, rfl⟩
  generalize takingNoted b s = x at hx
  obtain ⟨hmirror, hfrom, hloop, hticks, hlog, hsaid⟩ := hx
  rw [hsaid]
  generalize fld s Reg.DPX_PARTNER F.DPX_PARTNER_state = e
  have hev := (statusMoved_logEvent 0xA004 0 (BitVec.ofNat 32 e) x).1
  have htold : Raises 0xA004 0 (BitVec.ofNat 32 e) x (logN 0xA004 0 e x) :=
    raises_logEvent 0xA004 0 (BitVec.ofNat 32 e) (by rw [Room, hlog]; exact hroom)
  change StatusMoved 1 x (logN 0xA004 0 e x) at hev
  generalize logN 0xA004 0 e x = y at hev htold
  obtain ⟨hset, hstate⟩ := statusMoved_setDpx dpxTaking (by decide) y
  generalize setDpx dpxTaking y = t at hset hstate
  refine ⟨hstate, ?_, ?_, ?_, ?_, ?_⟩
  · rw [hset.rest, hev.rest, hmirror]
  · rw [hset.rest, hev.rest, hfrom]
  · rw [hset.loop, hev.loop, hloop]
  · rw [hset.moved.ticks, hev.moved.ticks, hticks]
  · exact raises_after (LogGrows.of_log (.refl s) hlog) (raises_before htold hset.moved.grows.logGrows)

theorem taking_lost (q : Nat) (b : Bool) (hroom : Room 8 s) : PartnerLost q s (sendProbe (takingBegun b (reachLocal q s))) ∧
    dpxState (sendProbe (takingBegun b (reachLocal q s))) = dpxTaking ∧
    ((sendProbe (takingBegun b (reachLocal q s))).dpx.probeAt = some (localNs (sendProbe (takingBegun b (reachLocal q s)))) ∧
      (sendProbe (takingBegun b (reachLocal q s))).dpx.lastProbe = localNs (sendProbe (takingBegun b (reachLocal q s)))) ∧
    (sendProbe (takingBegun b (reachLocal q s))).dpx.mirrorFrom = none ∧
    (sendProbe (takingBegun b (reachLocal q s))).dpx.fromSynced = b := by
  have hreach := localNs_reachLocal q s
  obtain ⟨hregs, hlog, -, -, hloop⟩ := reachLocal_dpx q s
  generalize reachLocal q s = x at hreach hregs hlog hloop
  obtain ⟨hstate, hmirror, hfrom, hkloop, hkticks, htold⟩ := takingBegun_effect b (s := x) (by rw [Room, hlog]; exact Nat.le_trans (by omega) hroom)
  generalize takingBegun b x = y at hstate hmirror hfrom hkloop hkticks htold
  have h := sendProbe_sent y
  generalize sendProbe y = t at h
  refine ⟨⟨?_, h.loop.trans (hkloop.trans hloop), ?_⟩, h.state.trans hstate, h.probed, ?_, ?_⟩
  · rw [localNs_of_ticks (h.ticks.trans hkticks)]
    exact hreach
  · rw [← fld_of_rd (rd_of_regs hregs Reg.DPX_PARTNER)]
    exact raises_after (LogGrows.of_log (.refl s) hlog) (raises_before htold h.net.grows.logGrows)
  · rw [h.rest, ← hmirror]
  · rw [h.rest, ← hfrom]

theorem partnerLost_idle (h : dpxOn s = false ∨ (dpxState s ≠ dpxActive ∧ dpxState s ≠ dpxSynced ∧ dpxState s ≠ dpxSyncing)) :
    exec .partnerLost s = .next s :=
  Eq.trans (b := execPartnerLost s) rfl (if_pos (h.imp_left fun h => by rw [h]; rfl))

theorem partnerLost_lost (hon : dpxOn s = true) (hroom : Room 8 s)
    (hs : dpxState s = dpxActive ∨ dpxState s = dpxSynced ∨ dpxState s = dpxSyncing) :
    ∃ t, exec .partnerLost s = .next t ∧ PartnerLost ((s.dpx.hbAt).getD 0 + 80000) s t ∧
      (dpxState s = dpxActive → dpxState t = dpxAlone) ∧
      (dpxState s ≠ dpxActive → dpxState t = dpxTaking ∧ (t.dpx.probeAt = some (localNs t) ∧ t.dpx.lastProbe = localNs t) ∧
        t.dpx.mirrorFrom = none ∧ t.dpx.fromSynced = (dpxState s == dpxSynced)) := by
  rcases hs with hs | hs
  · obtain ⟨hlost, halone⟩ := carryOn_lost ((s.dpx.hbAt).getD 0 + 80000) hroom
    exact ⟨_, Eq.trans (b := execPartnerLost s) rfl (execPartnerLost_active hon hs), hlost, fun _ => halone, fun hne => absurd hs hne⟩
  · obtain ⟨hlost, hrest⟩ := taking_lost ((s.dpx.hbAt).getD 0 + 80000) (dpxState s == dpxSynced) hroom
    refine ⟨_, Eq.trans (b := execPartnerLost s) rfl (execPartnerLost_standby hon hs), hlost, fun ha => ?_, fun _ => hrest⟩
    rw [ha] at hs
    exact absurd hs (by decide)

/-! ### HEARTBEAT_SEND and RELEASE_TIMER (R362, R380) -/

theorem localNs_reachLocal_bounds (q : Nat) (s : State) : max (localNs s) q ≤ localNs (reachLocal q s) ∧
    localNs (reachLocal q s) ≤ max (localNs s) q + 1 := by
  simp only [localNs, reachLocal, reachTick]
  omega

/-- A unit that releases itself at an instant. -/
structure ReleasedAt (q : Nat) (cause : Nat) (s t : State) : Prop where
  reached : q ≤ localNs t
  released : dpxState t = dpxReleased ∧ t.loop.owner = false ∧ ownEpoch t = ownEpoch s
  told : Raises 0xA008 cause (ownEpoch s) s t

theorem selfRelease_at (q cause : Nat) (hroom : Room 4 s) : ReleasedAt q cause s (selfRelease cause (reachLocal q s)) := by
  have hreach := localNs_reachLocal q s
  obtain ⟨hregs, hlog, -, -, -⟩ := reachLocal_dpx q s
  generalize reachLocal q s = x at hreach hregs hlog
  have hepoch : ownEpoch x = ownEpoch s := rd_of_regs hregs _
  obtain ⟨hg, htold⟩ := selfRelease_gaveUp cause (s := x) (by rw [Room, hlog]; exact hroom)
  rw [hepoch] at htold
  refine ⟨by rw [hg.moved.localNs]; exact hreach, ⟨hg.state, hg.owner, hg.epoch.trans hepoch⟩, ?_⟩
  exact raises_after (LogGrows.of_log (.refl s) hlog) htold

theorem releaseTimer_idle (h : actsAlone s = false) : exec .releaseTimer s = .next s :=
  Eq.trans (b := execReleaseTimer s) rfl (if_neg (by rw [h]; decide))

theorem releaseTimer_releases (h : actsAlone s = true) (hroom : Room 16 s) : ∃ t, exec .releaseTimer s = .next t ∧
    ReleasedAt (s.dpx.hbSent + 500000) 1 s t :=
  ⟨_, Eq.trans (b := execReleaseTimer s) rfl (if_pos h), selfRelease_at _ 1 (Nat.le_trans (by omega) hroom)⟩

/-- A heartbeat handed to its paths. -/
def handedOver (good : Bool) (s : State) : State := whenS good (fun s => setDpxRec { s.dpx with hbSent := localNs s } s) s

/-- The next heartbeat's instant. -/
def nextDue (s : State) : State := setDpxRec { s.dpx with hbDue := localNs s + 10000 } s

theorem execHeartbeatSend_on (good : Vector Bool 2) (hon : dpxOn s = true) (hs : dpxState s ≠ dpxOff) : execHeartbeatSend good s =
    if releaseDue (reachLocal s.dpx.hbDue s) then .next (selfRelease 1 (reachLocal s.dpx.hbDue s))
    else .next (sendGuy 1 (.heartbeat (ownHeartbeat (nextDue (handedOver (good[0] || good[1]) (reachLocal s.dpx.hbDue s)))))
      (nextDue (handedOver (good[0] || good[1]) (reachLocal s.dpx.hbDue s)))) := by
  unfold execHeartbeatSend
  rw [if_neg (by simp [hon, hs])]
  rfl

theorem heartbeatSend_off (good : Vector Bool 2) (h : dpxOn s = false ∨ dpxState s = dpxOff) : exec (.heartbeatSend good) s = .next s :=
  Eq.trans (b := execHeartbeatSend good s) rfl (if_pos (h.imp_left fun h => by rw [h]; rfl))

theorem nextDue_effect (g : Bool) (s : State) : (nextDue (handedOver g s)).regs = s.regs ∧ (nextDue (handedOver g s)).log = s.log ∧
    (nextDue (handedOver g s)).ticks = s.ticks ∧ (nextDue (handedOver g s)).loop = s.loop ∧
    (nextDue (handedOver g s)).dpx = { s.dpx with hbSent := if g then localNs s else s.dpx.hbSent, hbDue := localNs s + 10000 } := by
  cases g <;> exact ⟨rfl, rfl, rfl, rfl, rfl⟩

/-- A heartbeat sent. -/
structure BeatSent (good : Bool) (s t : State) : Prop where
  state : dpxState t = dpxState s
  due : t.dpx.hbDue = localNs t + 10000
  log : t.log = s.log
  regs : OnlyRegs [] s t
  seq : t.dpx.seqOut[1] = s.dpx.seqOut[1] + 1
  sent : ∃ x, t.dpx.sent[1] = some ⟨roleOf true (dpxState s), ownEpoch s, s.dpx.seqOut[1] + 1, .heartbeat x⟩ ∧
    x.owner = s.loop.owner ∧ x.stamp = now t ∧ x.digest = rd s Reg.DPX_DIGEST ∧ x.running = hbRunning t
  handed : t.dpx.hbSent = if good then localNs t else s.dpx.hbSent
  ticks : t.ticks = s.ticks

theorem ownHeartbeat_fields (s : State) : (ownHeartbeat s).owner = s.loop.owner ∧ (ownHeartbeat s).stamp = now s ∧
    (ownHeartbeat s).digest = rd s Reg.DPX_DIGEST ∧ (ownHeartbeat s).running = hbRunning s := ⟨rfl, rfl, rfl, rfl⟩

theorem sendBeat_sent (g : Bool) (hon : dpxOn s = true) : BeatSent g s
    (sendGuy 1 (.heartbeat (ownHeartbeat (nextDue (handedOver g s)))) (nextDue (handedOver g s))) := by
  obtain ⟨hregs, hlog, hticks, hloop, hdpx⟩ := nextDue_effect g s
  generalize nextDue (handedOver g s) = y at hregs hlog hticks hloop hdpx
  obtain ⟨hown, hstamp, hdigest, hrun⟩ := ownHeartbeat_fields y
  generalize ownHeartbeat y = v at hown hstamp hdigest hrun
  obtain ⟨hsent, hseq⟩ := sendGuy_sent 1 (.heartbeat v) ((flg_of_regs hregs _ _).trans hon : dpxOn y = true)
  have h := sendGuy_sentOnly 1 (.heartbeat v) y
  generalize sendGuy 1 (.heartbeat v) y = t at hsent hseq h
  obtain ⟨q, m, hrest⟩ := h.rest
  have hrd : ∀ a, rd t a = rd s a := fun a => (rd_of_regs h.regs a).trans (rd_of_regs hregs a)
  have hsame : y.dpx.seqOut = s.dpx.seqOut := by rw [hdpx]
  have hns : localNs t = localNs s := localNs_of_ticks (h.moved.ticks.trans hticks)
  have hsentAt : t.dpx.hbSent = if g then localNs s else s.dpx.hbSent := by rw [hrest, hdpx]
  refine ⟨dpxState_of_rd (hrd _), ?_, h.log.trans hlog, fun a _ => hrd a, ?_, ⟨v, ?_, ?_, ?_, ?_, ?_⟩, ?_, h.moved.ticks.trans hticks⟩
  · rw [hrest, hdpx, hns]
  · rw [← hsame]
    exact hseq
  · refine hsent.trans ?_
    have hst : dpxState y = dpxState s := dpxState_of_rd (rd_of_regs hregs _)
    have hep : ownEpoch y = ownEpoch s := rd_of_regs hregs _
    rw [nextMessage, hst, hep, hsame]
    rfl
  · rw [hown, hloop]
  · rw [hstamp, h.moved.now]
  · rw [hdigest]
    exact rd_of_regs hregs _
  · rw [hrun, hbRunning, hbRunning, h.moved.localNs, hrest]
  · rw [hsentAt, hns]

theorem heartbeatSend_sends (good : Vector Bool 2) (hon : dpxOn s = true) (hs : dpxState s ≠ dpxOff) (hroom : Room 16 s) :
    ∃ t, exec (.heartbeatSend good) s = .next t ∧ s.dpx.hbDue ≤ localNs t ∧
      (actsAlone s = true → s.dpx.hbSent + 500000 ≤ max (localNs s) s.dpx.hbDue →
        (dpxState t = dpxReleased ∧ t.loop.owner = false ∧ ownEpoch t = ownEpoch s) ∧ Raises 0xA008 1 (ownEpoch s) s t) ∧
      (actsAlone s = false ∨ max (localNs s) s.dpx.hbDue + 1 < s.dpx.hbSent + 500000 → dpxState t = dpxState s ∧
        t.dpx.hbDue = localNs t + 10000 ∧ t.log = s.log ∧ OnlyRegs [] s t ∧
        t.dpx.seqOut[1] = s.dpx.seqOut[1] + 1 ∧ (∃ x, t.dpx.sent[1] = some ⟨roleOf true (dpxState s), ownEpoch s,
          s.dpx.seqOut[1] + 1, .heartbeat x⟩ ∧ x.owner = s.loop.owner ∧ x.stamp = now t ∧ x.digest = rd s Reg.DPX_DIGEST ∧
          x.running = hbRunning t) ∧
        t.dpx.hbSent = if good[0] || good[1] then localNs t else s.dpx.hbSent) := by
  have hexec := Eq.trans (a := exec (.heartbeatSend good) s) (b := execHeartbeatSend good s) rfl (execHeartbeatSend_on good hon hs)
  obtain ⟨hlow, hhigh⟩ := localNs_reachLocal_bounds s.dpx.hbDue s
  have hrel := selfRelease_at s.dpx.hbDue 1 (Nat.le_trans (by omega) hroom : Room 4 s)
  obtain ⟨hregs, hlog, hdpx, -, hloop⟩ := reachLocal_dpx s.dpx.hbDue s
  generalize reachLocal s.dpx.hbDue s = x at hexec hlow hhigh hrel hregs hlog hdpx hloop
  have hstate : dpxState x = dpxState s := dpxState_of_rd (rd_of_regs hregs _)
  have hacts : actsAlone x = actsAlone s := by rw [actsAlone, actsAlone, hstate]
  cases hdue : releaseDue x
  · rw [hdue, if_neg Bool.false_ne_true] at hexec
    have h := sendBeat_sent (good[0] || good[1]) ((flg_of_regs hregs _ _).trans hon : dpxOn x = true)
    refine ⟨_, hexec, ?_, fun ha hq => ?_, fun _ => ?_⟩
    · rw [localNs_of_ticks h.ticks]
      omega
    · rw [releaseDue, hacts, ha, Bool.true_and, decide_eq_false_iff_not, hdpx] at hdue
      omega
    · obtain ⟨v, hsent, hv⟩ := h.sent
      have hep : ownEpoch x = ownEpoch s := rd_of_regs hregs _
      have hseq := h.seq
      have hhanded := h.handed
      rw [hstate, hep, hdpx] at hsent
      rw [hloop, rd_of_regs hregs] at hv
      rw [hdpx] at hseq hhanded
      exact ⟨h.state.trans hstate, h.due, h.log.trans hlog, fun a ha => (h.regs a ha).trans (rd_of_regs hregs a), hseq, ⟨v, hsent, hv⟩,
        hhanded⟩
  · rw [hdue, if_pos rfl] at hexec
    refine ⟨_, hexec, hrel.reached, fun _ _ => ⟨hrel.released, hrel.told⟩, fun hc => ?_⟩
    rw [releaseDue, hacts, hdpx] at hdue
    simp only [Bool.and_eq_true, decide_eq_true_eq] at hdue
    obtain ⟨ha, hq⟩ := hdue
    rcases hc with hc | hc
    · rw [hc] at ha
      cases ha
    · omega

end Sys2Proof.Machine
end


section
/-! PROOFS. PROBE, PROBE_REPLY and PROBE_TIMEOUT, and the rows they take (R370, R378, R379, R381). -/

namespace Sys2Proof.Machine

open Sys2Proof Sys2Proof.Safety Sys2Proof.Laws

variable {s x y z t : State} {m n : Nat} {r : ProbeReply}

/-! ### PROBE (R378, R379) -/

/-- What a unit answers of itself. -/
def ownReply (s : State) : ProbeReply :=
  ⟨Fin.ofNat 3 (roleOf (dpxOn s) (dpxState s)), Fin.ofNat 10 (dpxState s), ownEpoch s, s.loop.owner, hbRunning s, 0⟩

/-- The reply given. -/
def replyNoted (s : State) : State := setDpxRec { s.dpx with lastReply := some (ownReply s) } s

/-- A probe answered. -/
def probeAnswered (s : State) : State := ownSend (probeFrame s) (replyNoted s)

/-- Does a probe take OWNER from this unit? -/
def GivesWay (e : Word) (s : State) : Prop := actsAlone s = true ∧ s.loop.owner = true ∧ hbRunning s = false ∧ e = ownEpoch s

theorem execProbe_clear (q : Prober) (e : Word) (hclear : Clear (portUnit q.port) s) : exec (.probe q e) s = probeIn q.mac e s :=
  Eq.trans (b := execProbe q e s) rfl (arrives_clear hclear)

theorem probeIn_other {mac : BitVec 48} (e : Word)
    (h : ¬ (mac = (rd64 s Reg.DPX_PARTNER_MAC).extractLsb' 0 48 ∧ s.fab.running.isSome = true)) : probeIn mac e s = .next s := by
  refine if_pos ?_
  by_cases hm : mac = (rd64 s Reg.DPX_PARTNER_MAC).extractLsb' 0 48
  · refine .inr ?_
    cases hr : s.fab.running
    · rfl
    · exact absurd ⟨hm, by rw [hr]; rfl⟩ h
  · exact .inl hm

theorem probeIn_mine {mac : BitVec 48} (e : Word)
    (h : mac = (rd64 s Reg.DPX_PARTNER_MAC).extractLsb' 0 48 ∧ s.fab.running.isSome = true) : probeIn mac e s =
    .next (probeAnswered (if actsAlone s = true ∧ s.loop.owner = true ∧ (!hbRunning s) = true ∧ e = ownEpoch s then selfRelease 2 s else s)) := by
  unfold probeIn
  rw [if_neg]
  · rfl
  · rintro (hne | hnone)
    · exact hne h.1
    · rw [Option.isNone_iff_eq_none] at hnone
      rw [hnone] at h
      exact Bool.false_ne_true h.2

/-- What an answer leaves. -/
structure Answered (s t : State) : Prop where
  rest : t.dpx = { s.dpx with lastReply := some (ownReply s) }
  loop : t.loop = s.loop
  regs : ∀ a, blockAt a = some .dpx → rd t a = rd s a
  net : NetMoved 2 s t

theorem probeAnswered_answered (s : State) : Answered s (probeAnswered s) := by
  unfold probeAnswered
  have hx : (replyNoted s).dpx = { s.dpx with lastReply := some (ownReply s) } ∧ (replyNoted s).loop = s.loop ∧
      (replyNoted s).regs = s.regs ∧ (replyNoted s).log = s.log := ⟨rfl, rfl, rfl, rfl⟩
  generalize replyNoted s = x at hx
  obtain ⟨hdpx, hloop, hregs, hlog⟩ := hx
  obtain ⟨hkdpx, hkloop, -, -, hkregs⟩ := ownSend_kept (probeFrame s) x
  have hx0 : NetMoved 0 s x := ⟨growsBy_of_log hlog, fun _ a _ => rd_of_regs hregs a⟩
  exact ⟨hkdpx.trans hdpx, hkloop.trans hloop, fun a ha => (hkregs a ha).trans (rd_of_regs hregs a),
    (hx0.trans (ownSend_moved (probeFrame s) x)).mono (by decide)⟩

theorem probe_keeps {q : Prober} {e : Word} (hclear : Clear (portUnit q.port) s)
    (hmine : q.mac = (rd64 s Reg.DPX_PARTNER_MAC).extractLsb' 0 48 ∧ s.fab.running.isSome = true) (hg : ¬ GivesWay e s) (hroom : Room 2 s) :
    ∃ t, exec (.probe q e) s = .next t ∧ (∀ a, blockAt a ≠ some .net → rd t a = rd s a) ∧ t.loop = s.loop ∧
      t.dpx = { s.dpx with lastReply := some (ownReply s) } := by
  refine ⟨_, (execProbe_clear q e hclear).trans (probeIn_mine e hmine), ?_⟩
  rw [if_neg fun hc => hg ⟨hc.1, hc.2.1, by simpa using hc.2.2.1, hc.2.2.2⟩]
  have h := probeAnswered_answered s
  exact ⟨h.net.only hroom, h.loop, h.rest⟩

theorem ownReply_released (hs : dpxState s = dpxReleased) (ho : s.loop.owner = false) (hb : hbRunning s = false) :
    ownReply s = ⟨0, 9, ownEpoch s, false, false, 0⟩ := by
  rw [ownReply, hs, ho, hb]
  rfl

theorem probe_releases {q : Prober} {e : Word} (hclear : Clear (portUnit q.port) s)
    (hmine : q.mac = (rd64 s Reg.DPX_PARTNER_MAC).extractLsb' 0 48 ∧ s.fab.running.isSome = true) (hg : GivesWay e s) (hroom : Room 16 s) :
    ∃ t, exec (.probe q e) s = .next t ∧ (dpxState t = dpxReleased ∧ t.loop.owner = false ∧ ownEpoch t = ownEpoch s) ∧
      Raises 0xA008 2 e s t ∧ t.dpx.lastReply = some ⟨0, 9, e, false, false, 0⟩ := by
  obtain ⟨hacts, hown, hrun, he⟩ := hg
  refine ⟨_, (execProbe_clear q e hclear).trans (probeIn_mine e hmine), ?_⟩
  rw [if_pos ⟨hacts, hown, by rw [hrun]; rfl, he⟩]
  obtain ⟨hgave, htold⟩ := selfRelease_gaveUp 2 (Nat.le_trans (by omega) hroom : Room 4 s)
  generalize selfRelease 2 s = x at hgave htold
  have hb : hbRunning x = false := by
    rw [← hrun, hbRunning, hbRunning, hgave.moved.localNs, hgave.rest]
  have hreply := ownReply_released hgave.state hgave.owner hb
  have h := probeAnswered_answered x
  generalize probeAnswered x = t at h
  refine ⟨⟨(dpxState_of_rd (h.regs _ (by decide))).trans hgave.state, by rw [h.loop]; exact hgave.owner,
    (h.regs _ (by decide)).trans hgave.epoch⟩, ?_, ?_⟩
  · rw [he]
    exact raises_before htold h.net.grows.logGrows
  · rw [h.rest, hreply, hgave.epoch, he]

/-! ### PROBE_REPLY (R378) -/

/-- The partner's registers with what a reply tells. -/
def replyShown (r : ProbeReply) (s : State) : State :=
  let a := Reg.DPX_PARTNER
  let s := setF (setF s a F.DPX_PARTNER_state r.state) a F.DPX_PARTNER_role r.role
  let s := setF (setF s a F.DPX_PARTNER_owner (b2n r.owner)) a F.DPX_PARTNER_hb_running (b2n r.running)
  wr s Reg.DPX_PARTNER_EPOCH r.epoch

/-- Does a reply claim a higher epoch than an owner's? -/
def ReplyClaims (r : ProbeReply) (s : State) : Prop := r.role = 1 ∧ s.loop.owner = true ∧ actsAlone s = true ∧ ownEpoch s < r.epoch

theorem probeReplyIn_none (r : ProbeReply) (h : s.dpx.probeAt = none) : probeReplyIn r s = .next s := by
  unfold probeReplyIn
  split
  · rfl
  next q hq => cases h.symm.trans hq

theorem probeReplyIn_late (r : ProbeReply) {a : Nat} (h : s.dpx.probeAt = some a) (hl : a + tConf s < localNs s) :
    probeReplyIn r s = .next s := by
  unfold probeReplyIn
  split
  · rfl
  next q hq =>
    obtain rfl : q = a := Option.some.inj (hq.symm.trans h)
    exact if_pos hl

theorem probeReplyIn_some (r : ProbeReply) {a : Nat} (h : s.dpx.probeAt = some a) (hl : localNs s ≤ a + tConf s) :
    probeReplyIn r s = if r.role = 1 ∧ (replyShown r s).loop.owner = true ∧ actsAlone (replyShown r s) = true ∧
        ownEpoch (replyShown r s) < r.epoch then .next (epochConflict r.epoch (replyShown r s))
      else .next (replyRows r (replyShown r s)) := by
  unfold probeReplyIn
  split
  next hq => cases h.symm.trans hq
  next q hq =>
    obtain rfl : q = a := Option.some.inj (hq.symm.trans h)
    exact if_neg (Nat.not_lt.mpr hl)

/-- A reply shown: what its row finds. -/
structure ReplyReady (r : ProbeReply) (s z : State) : Prop where
  status : rd z Reg.DPX_STATUS = rd s Reg.DPX_STATUS
  epoch : ownEpoch z = ownEpoch s
  loop : z.loop = s.loop
  dpx : z.dpx = s.dpx
  log : z.log = s.log
  ticks : z.ticks = s.ticks
  partner : rd z Reg.DPX_PARTNER_EPOCH = r.epoch
  said : fld z Reg.DPX_PARTNER F.DPX_PARTNER_state = r.state.val

theorem replyShown_ready (r : ProbeReply) (s : State) : ReplyReady r s (replyShown r s) := by
  unfold replyShown
  dsimp only
  obtain ⟨x, hx⟩ : ∃ x, setF (setF (setF (setF s Reg.DPX_PARTNER F.DPX_PARTNER_state r.state) Reg.DPX_PARTNER F.DPX_PARTNER_role r.role)
    Reg.DPX_PARTNER F.DPX_PARTNER_owner (b2n r.owner)) Reg.DPX_PARTNER F.DPX_PARTNER_hb_running (b2n r.running) = x := ⟨_, rfl⟩
  have hregs : ∀ a, a ≠ Reg.DPX_PARTNER → rd x a = rd s a := fun a ha => by
    rw [← hx, rd_setF_ne _ _ _ ha, rd_setF_ne _ _ _ ha, rd_setF_ne _ _ _ ha, rd_setF_ne _ _ _ ha]
  have hstate : fld x Reg.DPX_PARTNER F.DPX_PARTNER_state = r.state.val := by
    rw [← hx, fld_setF_disj _ _ _ _ _ (by decide), fld_setF_disj _ _ _ _ _ (by decide), fld_setF_disj _ _ _ _ _ (by decide),
      fld_setF _ _ _ _ (by decide)]
    exact Nat.mod_eq_of_lt (Nat.lt_trans r.state.isLt (by decide))
  have hkept : x.loop = s.loop ∧ x.dpx = s.dpx ∧ x.log = s.log ∧ x.ticks = s.ticks := by
    rw [← hx]
    exact ⟨rfl, rfl, rfl, rfl⟩
  rw [hx]
  clear hx
  obtain ⟨hloop, hdpx, hlog, hticks⟩ := hkept
  exact ⟨(rd_wr_ne _ _ (by decide)).trans (hregs _ (by decide)), (rd_wr_ne _ _ (by decide)).trans (hregs _ (by decide)), hloop, hdpx, hlog,
    hticks, rd_wr .., (fld_of_rd (rd_wr_ne _ _ (by decide)) _).trans hstate⟩

theorem ReplyReady.state (h : ReplyReady r s z) : dpxState z = dpxState s := dpxState_of_rd h.status

/-- The epoch adopted from an ACTIVE that replies. -/
def replyAdopted (r : ProbeReply) (s : State) : State := if r.role = 1 then adoptHigher r.epoch s else s

/-- The rows of a reply by the state it finds. -/
def replyRowsOf (n : Nat) (r : ProbeReply) (s : State) : State :=
  if n = dpxListen then
    if r.role = 1 ∧ r.running then degrade (takeEpoch r.epoch s)
    else if r.role = 0 then
      if sideB s then setDpxRec { s.dpx with listenAt := localNs s, probeAt := none } s else takeover 4 dpxAlone s
    else s
  else if n = dpxTaking then
    if showsReleased r then takeover (takingSource s 2) dpxAlone s
    else if r.role = 1 ∧ r.running then logN 0xA007 0 r.state (degrade s)
    else s
  else if n = dpxDegraded then
    if showsReleased r then takeover 4 dpxAlone s
    else if r.role = 1 ∧ r.running then answered s
    else s
  else s

theorem replyRows_eq (r : ProbeReply) (s : State) : replyRows r s = replyRowsOf (dpxState s) r (replyAdopted r s) := rfl

/-- The inputs of the duplex after a row, and that it only adds to the log. -/
def InputsKept (s t : State) : Prop := ∀ a ∈ dpxInputs, rd t a = rd s a

theorem degrade_effect (s : State) : DpxMoved 1 s (degrade s) ∧ dpxState (degrade s) = dpxDegraded ∧ (degrade s).dpx.probeAt = none ∧
    (degrade s).loop = s.loop ∧ ownEpoch (degrade s) = ownEpoch s := by
  unfold degrade
  have hx : DpxMoved 0 s (answered s) ∧ (answered s).dpx.probeAt = none ∧ (answered s).loop = s.loop ∧
      ownEpoch (answered s) = ownEpoch s := ⟨dpxMoved_setDpxRec _ s rfl rfl rfl, rfl, rfl, rfl⟩
  generalize answered s = x at hx
  obtain ⟨hmoved, hprobe, hloop, hepoch⟩ := hx
  obtain ⟨hset, hstate⟩ := statusMoved_setDpx dpxDegraded (by decide) x
  exact ⟨(hmoved.trans hset.moved).mono (by decide), hstate, by rw [hset.rest]; exact hprobe, hset.loop.trans hloop,
    hset.epoch.trans hepoch⟩

theorem answered_effect (s : State) : DpxMoved 0 s (answered s) ∧ dpxState (answered s) = dpxState s ∧
    (answered s).dpx.unanswered = 0 ∧ (answered s).dpx.probeAt = none := ⟨dpxMoved_setDpxRec _ s rfl rfl rfl, rfl, rfl, rfl⟩

theorem replyRowsOf_inputs (n : Nat) (r : ProbeReply) (hroom : Room 4 s) : InputsKept s (replyRowsOf n r s) := by
  unfold replyRowsOf
  split
  · split
    · exact ((takeEpoch_effect r.epoch s).1.trans (degrade_effect _).1).regs
    · split
      · split
        · exact fun _ _ => rfl
        · exact (takeover_tookOver 4 dpxAlone (by decide) hroom).moved.regs
      · exact fun _ _ => rfl
  · split
    · split
      · exact (takeover_tookOver _ dpxAlone (by decide) hroom).moved.regs
      · split
        · exact ((degrade_effect s).1.trans (dpxMoved_logEvent 0xA007 0 _ _).1).regs
        · exact fun _ _ => rfl
    · split
      · split
        · exact (takeover_tookOver 4 dpxAlone (by decide) hroom).moved.regs
        · split
          · exact fun _ _ => rfl
          · exact fun _ _ => rfl
      · exact fun _ _ => rfl

theorem replyAdopted_effect (r : ProbeReply) (s : State) : DpxMoved 0 s (replyAdopted r s) ∧ dpxState (replyAdopted r s) = dpxState s ∧
    (replyAdopted r s).loop = s.loop ∧ (replyAdopted r s).log = s.log ∧
    (replyAdopted r s).dpx.fromSynced = s.dpx.fromSynced := by
  unfold replyAdopted
  split
  · obtain ⟨hmoved, hstate, hloop, -, hlog, -⟩ := adoptHigher_effect r.epoch s
    refine ⟨hmoved, hstate, hloop, hlog, ?_⟩
    unfold adoptHigher
    dsimp only
    split <;> rfl
  · exact ⟨.refl s, rfl, rfl, rfl, rfl⟩

/-- The epoch a takeover takes is the same whether the partner's higher one was adopted before or not. -/
theorem nextEpoch_adopted (r : ProbeReply) (hp : rd s Reg.DPX_PARTNER_EPOCH = r.epoch) : nextEpoch (replyAdopted r s) = nextEpoch s := by
  unfold replyAdopted
  split
  · have hpartner : rd (adoptHigher r.epoch s) Reg.DPX_PARTNER_EPOCH = rd s Reg.DPX_PARTNER_EPOCH :=
      (adoptHigher_effect r.epoch s).1.regs _ (by decide)
    rw [nextEpoch, nextEpoch, hpartner, hp]
    unfold adoptHigher
    dsimp only
    split
    next hc =>
      rw [(takeEpoch_effect r.epoch s).2.1, if_neg (BitVec.lt_irrefl _), if_pos hc.1]
    · rfl
  · rfl

/-- A takeover on a reply, as the obligation tells it. -/
theorem takenWith_adopted (src : Nat) (hz : ReplyReady r s z) (hroom : Room 4 z) :
    TakenWith s (takeover src dpxAlone (replyAdopted r z)) src r.epoch := by
  obtain ⟨-, -, -, hlog, -⟩ := replyAdopted_effect r z
  have hnext := nextEpoch_adopted r hz.partner
  generalize replyAdopted r z = w at hlog hnext
  have h := takeover_tookOver src dpxAlone (by decide) (by rw [Room, hlog]; exact hroom : Room 4 w)
  generalize takeover src dpxAlone w = t at h
  refine ⟨h.state, h.owner, ?_, h.ember, h.time, raises_after (LogGrows.of_log (.refl s) (hlog.trans hz.log)) h.told⟩
  rw [h.epoch, hnext, nextEpoch, hz.partner, hz.epoch]

end Sys2Proof.Machine
end


section
/-! PROOFS. The rows of a probe's reply and of its timeout, and the paths of a duplex (R362 to R367, R370, R378 to R381, Table 13.4). -/

namespace Sys2Proof.Machine

open Sys2Proof Sys2Proof.Safety Sys2Proof.Laws

variable {s x y z t : State} {m n : Nat} {r : ProbeReply}

/-! ### The rows of a reply -/

/-- What a reply within t_conf does, by the state it finds. -/
structure ReplyDone (r : ProbeReply) (s t : State) : Prop where
  said : fld t Reg.DPX_PARTNER F.DPX_PARTNER_state = r.state.val
  epochSeen : rd t Reg.DPX_PARTNER_EPOCH = r.epoch
  gives : r.role = 1 → s.loop.owner = true → actsAlone s = true → ownEpoch s < r.epoch →
    (dpxState t = dpxReleased ∧ t.loop.owner = false ∧ ownEpoch t = ownEpoch s) ∧
      flg t Reg.DPX_STATUS F.DPX_STATUS_conflict_seen = true ∧ Raises 0xA009 0 r.epoch s t
  joins : dpxState s = dpxListen → r.role = 1 → r.running = true → dpxState t = dpxDegraded ∧ t.dpx.probeAt = none ∧
    t.loop = s.loop ∧ ownEpoch t = r.epoch
  abandons : dpxState s = dpxTaking → r.state.val ≠ dpxReleased → r.role = 1 → r.running = true → dpxState t = dpxDegraded ∧
    t.dpx.probeAt = none ∧ t.loop = s.loop ∧ Raises 0xA007 0 (BitVec.ofNat 32 r.state) s t
  takes : dpxState s = dpxTaking → r.state.val = dpxReleased → TakenWith s t (if s.dpx.fromSynced then 2 else 4) r.epoch
  begins : dpxState s = dpxListen → r.role = 0 → sideB s = false → TakenWith s t 4 r.epoch
  listens : dpxState s = dpxListen → r.role = 0 → sideB s = true → dpxState t = dpxListen ∧ t.dpx.listenAt = localNs t ∧
    t.dpx.probeAt = none
  succeeds : dpxState s = dpxDegraded → r.state.val = dpxReleased → TakenWith s t 4 r.epoch
  stays : dpxState s = dpxDegraded → r.state.val ≠ dpxReleased → r.role = 1 → r.running = true →
    dpxState t = dpxDegraded ∧ t.dpx.unanswered = 0 ∧ t.dpx.probeAt = none

theorem showsReleased_true (h : r.state.val = dpxReleased) : showsReleased r = true := beq_iff_eq.mpr h

theorem showsReleased_false (h : r.state.val ≠ dpxReleased) : showsReleased r = false := beq_eq_false_iff_ne.mpr h

theorem replyRowsOf_listen_active (s : State) (hr : r.role = 1) (hrun : r.running = true) :
    replyRowsOf dpxListen r s = degrade (takeEpoch r.epoch s) := (if_pos rfl).trans (if_pos ⟨hr, hrun⟩)

theorem replyRowsOf_listen_none (s : State) (hr : r.role = 0) : replyRowsOf dpxListen r s =
    if sideB s then setDpxRec { s.dpx with listenAt := localNs s, probeAt := none } s else takeover 4 dpxAlone s :=
  (if_pos rfl).trans ((if_neg fun hc => absurd (hr.symm.trans hc.1) (by decide)).trans (if_pos hr))

theorem replyRowsOf_taking (r : ProbeReply) (s : State) : replyRowsOf dpxTaking r s =
    if showsReleased r then takeover (takingSource s 2) dpxAlone s
    else if r.role = 1 ∧ r.running then logN 0xA007 0 r.state (degrade s) else s := rfl

theorem replyRowsOf_degraded (r : ProbeReply) (s : State) : replyRowsOf dpxDegraded r s =
    if showsReleased r then takeover 4 dpxAlone s else if r.role = 1 ∧ r.running then answered s else s := rfl

/-- A reply that claims a higher epoch finds an owner, which is in none of the other rows' states. -/
theorem conflict_done (hz : ReplyReady r s z) (hroom : Room 4 z) (hacts : actsAlone s = true) : ReplyDone r s (epochConflict r.epoch z) := by
  have hx := epochConflict_conflicted r.epoch hroom
  generalize epochConflict r.epoch z = t at hx
  have hno : ∀ k, dpxState s = k → k ≠ dpxActive ∧ k ≠ dpxAlone ∧ k ≠ dpxSwitching → False := fun k hk hne =>
    Bool.false_ne_true ((actsAlone_of hk hne).symm.trans hacts)
  exact {
    said := (fld_of_rd (hx.regs _ (by decide)) _).trans hz.said
    epochSeen := (hx.regs _ (by decide)).trans hz.partner
    gives := fun _ _ _ _ => ⟨⟨hx.state, hx.owner, hx.epoch.trans hz.epoch⟩, hx.seen, raises_after (LogGrows.of_log (.refl s) hz.log) hx.told⟩
    joins := fun hs => (hno _ hs (by decide)).elim
    abandons := fun hs => (hno _ hs (by decide)).elim
    takes := fun hs => (hno _ hs (by decide)).elim
    begins := fun hs => (hno _ hs (by decide)).elim
    listens := fun hs => (hno _ hs (by decide)).elim
    succeeds := fun hs => (hno _ hs (by decide)).elim
    stays := fun hs => (hno _ hs (by decide)).elim }

theorem rows_done (hz : ReplyReady r s z) (hroom : Room 4 z) (hc : ¬ ReplyClaims r s) : ReplyDone r s (replyRows r z) := by
  have hinputs : InputsKept z (replyRows r z) := by
    rw [replyRows_eq]
    obtain ⟨hmoved, -, -, hlog, -⟩ := replyAdopted_effect r z
    exact fun a ha => (replyRowsOf_inputs _ r (by rw [Room, hlog]; exact hroom) a ha).trans (hmoved.regs a ha)
  have hrows : ∀ k, dpxState s = k → replyRows r z = replyRowsOf k r (replyAdopted r z) := fun k hk => by
    rw [replyRows_eq, hz.state, hk]
  obtain ⟨hmoved, hstate, hloop, hlog, hfrom⟩ := replyAdopted_effect r z
  have hgrows : LogGrows s (replyAdopted r z) := LogGrows.of_log (.refl s) (hlog.trans hz.log)
  have hroom' : Room 4 (replyAdopted r z) := by
    rw [Room, hlog]
    exact hroom
  refine ⟨(fld_of_rd (hinputs _ (by decide)) _).trans hz.said, (hinputs _ (by decide)).trans hz.partner,
    fun h1 h2 h3 h4 => absurd ⟨h1, h2, h3, h4⟩ hc, fun hs hr hrun => ?_, fun hs hne hr hrun => ?_, fun hs hrel => ?_, fun hs hr hside => ?_,
    fun hs hr hside => ?_, fun hs hrel => ?_, fun hs hne hr hrun => ?_⟩
  · rw [hrows _ hs, replyRowsOf_listen_active _ hr hrun]
    generalize replyAdopted r z = w at hloop
    obtain ⟨-, hepoch, -, -, htakeLoop⟩ := takeEpoch_effect r.epoch w
    generalize takeEpoch r.epoch w = v at hepoch htakeLoop
    obtain ⟨-, hdeg, hprobe, hdegLoop, hdegEpoch⟩ := degrade_effect v
    exact ⟨hdeg, hprobe, hdegLoop.trans (htakeLoop.trans (hloop.trans hz.loop)), hdegEpoch.trans hepoch⟩
  · rw [hrows _ hs, replyRowsOf_taking, showsReleased_false hne, if_neg Bool.false_ne_true, if_pos ⟨hr, hrun⟩]
    generalize replyAdopted r z = w at hloop hgrows hroom'
    obtain ⟨hdegMoved, hdeg, hprobe, hdegLoop, -⟩ := degrade_effect w
    generalize degrade w = v at hdegMoved hdeg hprobe hdegLoop
    obtain ⟨hev, hevState⟩ := statusMoved_logEvent 0xA007 0 (BitVec.ofNat 32 r.state) v
    have htold := raises_logEvent 0xA007 0 (BitVec.ofNat 32 r.state) (hdegMoved.grows.room (Nat.le_trans (by omega) hroom') : Room 1 v)
    refine ⟨hevState.trans hdeg, (congrArg (·.probeAt) hev.rest).trans hprobe, hev.loop.trans (hdegLoop.trans (hloop.trans hz.loop)), ?_⟩
    exact raises_after (hgrows.trans hdegMoved.grows.logGrows) htold
  · rw [hrows _ hs, replyRowsOf_taking, showsReleased_true hrel, if_pos rfl, takingSource, hfrom, hz.dpx]
    exact takenWith_adopted _ hz hroom
  · have hs' : sideB (replyAdopted r z) = false := (hmoved.flg (by decide)).trans ((flg_of_rd hz.status _).trans hside)
    rw [hrows _ hs, replyRowsOf_listen_none _ hr, hs', if_neg Bool.false_ne_true]
    exact takenWith_adopted _ hz hroom
  · have hs' : sideB (replyAdopted r z) = true := (hmoved.flg (by decide)).trans ((flg_of_rd hz.status _).trans hside)
    rw [hrows _ hs, replyRowsOf_listen_none _ hr, hs', if_pos rfl]
    generalize replyAdopted r z = w at hstate
    exact ⟨hstate.trans (hz.state.trans hs), rfl, rfl⟩
  · rw [hrows _ hs, replyRowsOf_degraded, showsReleased_true hrel, if_pos rfl]
    exact takenWith_adopted _ hz hroom
  · rw [hrows _ hs, replyRowsOf_degraded, showsReleased_false hne, if_neg Bool.false_ne_true, if_pos ⟨hr, hrun⟩]
    generalize replyAdopted r z = w at hstate
    obtain ⟨-, hkept, hun, hprobe⟩ := answered_effect w
    exact ⟨hkept.trans (hstate.trans (hz.state.trans hs)), hun, hprobe⟩

theorem execProbeReply_clear (r : ProbeReply) (hclear : Clear (portUnit r.port) s) : exec (.probeReply r) s = probeReplyIn r s :=
  Eq.trans (b := execProbeReply r s) rfl (arrives_clear hclear)

theorem probeReply_done {a : Nat} (hclear : Clear (portUnit r.port) s) (ha : s.dpx.probeAt = some a) (hl : localNs s ≤ a + tConf s)
    (hroom : Room 32 s) : ∃ t, exec (.probeReply r) s = .next t ∧ ReplyDone r s t := by
  have hexec := (execProbeReply_clear r hclear).trans (probeReplyIn_some r ha hl)
  have hz := replyShown_ready r s
  generalize replyShown r s = z at hexec hz
  have hroom' : Room 4 z := by
    rw [Room, hz.log]
    exact Nat.le_trans (by omega) hroom
  have hacts : actsAlone z = actsAlone s := by rw [actsAlone, actsAlone, hz.state]
  rw [hz.loop, hacts, hz.epoch] at hexec
  by_cases hc : r.role = 1 ∧ s.loop.owner = true ∧ actsAlone s = true ∧ ownEpoch s < r.epoch
  · rw [if_pos hc] at hexec
    exact ⟨_, hexec, conflict_done hz hroom' hc.2.2.1⟩
  · rw [if_neg hc] at hexec
    exact ⟨_, hexec, rows_done hz hroom' hc⟩

/-! ### PROBE_TIMEOUT (R370, rows 5, 23 and 26) -/

/-- One more probe without an answer. -/
def onceMore (s : State) : State := setDpxRec { s.dpx with probeAt := none, unanswered := s.dpx.unanswered + 1 } s

/-- The rows of a timeout. -/
def timeoutRows (s : State) : State :=
  if dpxState s = dpxListen then takeover 4 dpxAlone s
  else if dpxState s = dpxTaking then takeover (takingSource s 3) dpxAlone s
  else if dpxState s = dpxDegraded then if 3 ≤ (onceMore s).dpx.unanswered then takeover 4 dpxAlone (onceMore s) else onceMore s
  else setDpxRec { s.dpx with probeAt := none } s

theorem execProbeTimeout_none (h : s.dpx.probeAt = none) : execProbeTimeout s = .next s := by
  unfold execProbeTimeout
  split
  · rfl
  next q hq => cases h.symm.trans hq

theorem execProbeTimeout_some {a : Nat} (h : s.dpx.probeAt = some a) :
    execProbeTimeout s = .next (timeoutRows (reachLocal (a + tConf s) s)) := by
  unfold execProbeTimeout
  split
  next hq => cases h.symm.trans hq
  next q hq =>
    obtain rfl : q = a := Option.some.inj (hq.symm.trans h)
    generalize reachLocal (q + tConf s) s = x
    dsimp only [timeoutRows]
    simp only [apply_ite Host.Outcome.next]
    rfl

/-- What a timeout at an instant does, by the state it finds. -/
structure TimedOut (q : Nat) (s t : State) : Prop where
  reached : q ≤ localNs t
  probe : t.dpx.probeAt = none
  listens : dpxState s = dpxListen → TakenWith s t 4 (rd s Reg.DPX_PARTNER_EPOCH)
  takes : dpxState s = dpxTaking → TakenWith s t (if s.dpx.fromSynced then 3 else 4) (rd s Reg.DPX_PARTNER_EPOCH)
  waits : dpxState s = dpxDegraded → s.dpx.unanswered < 2 → dpxState t = dpxDegraded ∧ t.dpx.unanswered = s.dpx.unanswered + 1
  succeeds : dpxState s = dpxDegraded → 2 ≤ s.dpx.unanswered → TakenWith s t 4 (rd s Reg.DPX_PARTNER_EPOCH)

theorem onceMore_kept (s : State) : (onceMore s).regs = s.regs ∧ (onceMore s).log = s.log ∧ (onceMore s).ticks = s.ticks ∧
    (onceMore s).dpx.unanswered = s.dpx.unanswered + 1 ∧ (onceMore s).dpx.probeAt = none := ⟨rfl, rfl, rfl, rfl, rfl⟩

/-- A takeover at a state whose registers and log are those of another. -/
theorem takenWith_same (src : Nat) (hregs : x.regs = s.regs) (hlog : x.log = s.log) (hroom : Room 4 s) :
    TakenWith s (takeover src dpxAlone x) src (rd s Reg.DPX_PARTNER_EPOCH) ∧ (takeover src dpxAlone x).dpx.probeAt = none ∧
      localNs (takeover src dpxAlone x) = localNs x := by
  have hroom' : Room 4 x := by
    rw [Room, hlog]
    exact hroom
  have h := takeover_tookOver src dpxAlone (by decide) hroom'
  rw [← rd_of_regs hregs Reg.DPX_PARTNER_EPOCH]
  exact ⟨takenWith_of src (LogGrows.of_log (.refl s) hlog) (rd_of_regs hregs _) hroom', h.probe.1, h.moved.localNs⟩

theorem timeoutRows_done (q : Nat) (hroom : Room 4 s) : TimedOut q s (timeoutRows (reachLocal q s)) := by
  have hreach := localNs_reachLocal q s
  obtain ⟨hregs, hlog, hdpx, -, -⟩ := reachLocal_dpx q s
  generalize reachLocal q s = x at hreach hregs hlog hdpx
  have hstate : dpxState x = dpxState s := dpxState_of_rd (rd_of_regs hregs _)
  unfold timeoutRows
  rw [hstate]
  by_cases h1 : dpxState s = dpxListen
  · rw [if_pos h1]
    obtain ⟨htaken, hprobe, hnow⟩ := takenWith_same 4 hregs hlog hroom
    exact ⟨by rw [hnow]; exact hreach, hprobe, fun _ => htaken, fun hs => absurd (h1.symm.trans hs) (by decide),
      fun hs => absurd (h1.symm.trans hs) (by decide), fun hs => absurd (h1.symm.trans hs) (by decide)⟩
  · rw [if_neg h1]
    by_cases h2 : dpxState s = dpxTaking
    · rw [if_pos h2, takingSource, hdpx]
      obtain ⟨htaken, hprobe, hnow⟩ := takenWith_same (if s.dpx.fromSynced then 3 else 4) hregs hlog hroom
      exact ⟨by rw [hnow]; exact hreach, hprobe, fun hs => absurd hs h1, fun _ => htaken,
        fun hs => absurd (h2.symm.trans hs) (by decide), fun hs => absurd (h2.symm.trans hs) (by decide)⟩
    · rw [if_neg h2]
      by_cases h3 : dpxState s = dpxDegraded
      · rw [if_pos h3]
        obtain ⟨hkregs, hklog, hkticks, hun, hkprobe⟩ := onceMore_kept x
        generalize onceMore x = y at hkregs hklog hkticks hun hkprobe
        rw [hdpx] at hun
        by_cases h4 : 3 ≤ y.dpx.unanswered
        · rw [if_pos h4]
          obtain ⟨htaken, hprobe, hnow⟩ := takenWith_same 4 (hkregs.trans hregs) (hklog.trans hlog) hroom
          exact ⟨by rw [hnow, localNs_of_ticks hkticks]; exact hreach, hprobe, fun hs => absurd hs h1, fun hs => absurd hs h2,
            fun _ hlt => absurd h4 (by omega), fun _ _ => htaken⟩
        · rw [if_neg h4]
          exact ⟨by rw [localNs_of_ticks hkticks]; exact hreach, hkprobe, fun hs => absurd hs h1, fun hs => absurd hs h2,
            fun _ _ => ⟨(dpxState_of_rd (rd_of_regs hkregs _)).trans (hstate.trans h3), hun⟩, fun _ hge => absurd h4 (by omega)⟩
      · rw [if_neg h3]
        exact ⟨hreach, rfl, fun hs => absurd hs h1, fun hs => absurd hs h2, fun hs => absurd hs h3, fun hs => absurd hs h3⟩

/-! ### The first copy of a heartbeat, by its row -/

theorem staleHeartbeat_of_role {h : GuyHeader} (hr : h.role = 0) : staleHeartbeat s h = false := by
  simp [staleHeartbeat, hr]

theorem staleHeartbeat_of_listen (h : GuyHeader) (hs : dpxState s = dpxListen) : staleHeartbeat s h = false := by
  simp [staleHeartbeat, hs]

theorem staleHeartbeat_of_epoch {h : GuyHeader} (he : ¬ h.epoch < ownEpoch s) : staleHeartbeat s h = false := by
  simp [staleHeartbeat, he]

/-- A fact about the row's state holds after the heartbeat, as no rejoin follows outside DEGRADED_STANDBY. -/
theorem BeatDone.row {h : GuyHeader} {b : Heartbeat} {P : State → Prop} (hd : BeatDone h b s t) (hst : staleHeartbeat s h = false)
    (hP : ∀ y, RowsDone h b s y → dpxState y ≠ dpxDegraded ∧ P y) : P t := by
  obtain ⟨-, -, hrow⟩ := hd
  obtain ⟨y, hy, hsame⟩ := hrow hst
  obtain ⟨hne, hp⟩ := hP y hy
  rw [hsame hne]
  exact hp

theorem ne_degraded {k : Nat} (hk : dpxState t = k) (hne : k ≠ dpxDegraded) : dpxState t ≠ dpxDegraded := hk ▸ hne

theorem BeatDone.joins {h : GuyHeader} {b : Heartbeat} (hd : BeatDone h b s t) (hon : dpxOn s = true) (hs : dpxState s = dpxListen)
    (hr : h.role = 1) : dpxState t = dpxSyncing ∧ ownEpoch t = h.epoch ∧ t.dpx.emberEpoch = h.epoch ∧
      t.dpx.firstHb = localNs t ∧ (t.dpx.sent[10]).map (·.payload) = some (.syncReq (ownVersions s)) :=
  hd.row (P := fun t => dpxState t = dpxSyncing ∧ ownEpoch t = h.epoch ∧ t.dpx.emberEpoch = h.epoch ∧
    t.dpx.firstHb = localNs t ∧ (t.dpx.sent[10]).map (·.payload) = some (.syncReq (ownVersions s)))
    (staleHeartbeat_of_listen h hs) fun _ hy => ⟨ne_degraded (hy.joins hs hr hon).1 (by decide), hy.joins hs hr hon⟩

theorem BeatDone.takes {h : GuyHeader} {b : Heartbeat} (hd : BeatDone h b s t) (hs : dpxState s = dpxListen) (hr : h.role = 0)
    (hside : sideB s = false) : TakenWith s t 4 h.epoch :=
  hd.row (P := fun t => TakenWith s t 4 h.epoch) (staleHeartbeat_of_role hr)
    fun _ hy => ⟨ne_degraded (hy.takes hs hr hside).1 (by decide), hy.takes hs hr hside⟩

theorem BeatDone.gives {h : GuyHeader} {b : Heartbeat} (hd : BeatDone h b s t) (hc : Claims h s) : dpxState t = dpxReleased ∧
    t.loop.owner = false ∧ ownEpoch t = ownEpoch s ∧ flg t Reg.DPX_STATUS F.DPX_STATUS_conflict_seen = true ∧ Raises 0xA009 0 h.epoch s t := by
  have hst : staleHeartbeat s h = false := staleHeartbeat_of_epoch (BitVec.not_lt.mpr (BitVec.le_of_lt hc.2.2.2))
  exact hd.row (P := fun t => dpxState t = dpxReleased ∧ t.loop.owner = false ∧ ownEpoch t = ownEpoch s ∧
    flg t Reg.DPX_STATUS F.DPX_STATUS_conflict_seen = true ∧ Raises 0xA009 0 h.epoch s t) hst
    fun _ hy => ⟨ne_degraded (hy.gives hc).1 (by decide), hy.gives hc⟩

theorem staleHeartbeat_of_same {h : GuyHeader} (he : h.epoch = ownEpoch s) : staleHeartbeat s h = false :=
  staleHeartbeat_of_epoch (by rw [he]; exact BitVec.lt_irrefl _)

theorem BeatDone.finds {h : GuyHeader} {b : Heartbeat} (hd : BeatDone h b s t) (he : h.epoch = ownEpoch s) (hs : dpxState s = dpxAlone)
    (hr : h.role = 2) (hb : b.state.val = dpxSynced) : dpxState t = dpxActive :=
  hd.row (P := fun t => dpxState t = dpxActive) (staleHeartbeat_of_same he)
    fun _ hy => ⟨ne_degraded (hy.finds he hs hr hb) (by decide), hy.finds he hs hr hb⟩

theorem BeatDone.loses {h : GuyHeader} {b : Heartbeat} (hd : BeatDone h b s t) (he : h.epoch = ownEpoch s) (hs : dpxState s = dpxActive)
    (hb : b.state.val ≠ dpxSynced) : dpxState t = dpxAlone ∧ Raises 0xA004 0 (BitVec.ofNat 32 b.state) s t :=
  hd.row (P := fun t => dpxState t = dpxAlone ∧ Raises 0xA004 0 (BitVec.ofNat 32 b.state) s t) (staleHeartbeat_of_same he)
    fun _ hy => ⟨ne_degraded (hy.loses he hs hb).1 (by decide), hy.loses he hs hb⟩

theorem BeatDone.returns {h : GuyHeader} {b : Heartbeat} (hd : BeatDone h b s t) (he : h.epoch = ownEpoch s) (hs : dpxState s = dpxTaking)
    (hr : h.role = 1) : t.dpx.probeAt = none ∧ dpxState t = if s.dpx.fromSynced then dpxSynced else dpxSyncing :=
  hd.row (P := fun t => t.dpx.probeAt = none ∧ dpxState t = if s.dpx.fromSynced then dpxSynced else dpxSyncing)
    (staleHeartbeat_of_same he) fun _ hy =>
      ⟨ne_degraded (hy.returns he hs hr).2 (by cases s.dpx.fromSynced <;> decide), hy.returns he hs hr⟩

end Sys2Proof.Machine

namespace Sys2Proof.Proofs

open Sys2Proof Sys2Proof.Machine Sys2Proof.Safety Sys2Proof.Laws

/-- Settles O54: a heartbeat counts for its path, its first copy takes the row of the state it finds, and a path it brings up begins a
rejoin; a probe, its reply and its timeout take theirs. -/
theorem dpxPaths : Obligations.DpxPaths := by
  unfold Obligations.DpxPaths
  refine ⟨fun h b s hclear => ⟨heartbeat_off b hclear, fun hon hs hcrc => ?_, pathUp_idle b hclear, fun hon hs hcrc hroom => ?_⟩,
    fun p s => ⟨fun h => ?_, fun hon hup hroom => ?_⟩, fun s => ⟨partnerLost_idle, fun hon hroom hs => ?_⟩,
    fun good s => ⟨heartbeatSend_off good, fun hon hs hroom => heartbeatSend_sends good hon hs hroom⟩, fun s => ?_,
    fun port mac e s hclear => ?_, fun r s hclear => ⟨fun h => ?_, fun a ha => ⟨fun hl => ?_, fun hl hroom => ?_⟩⟩,
    fun s => ⟨fun h => ?_, fun a ha hroom => ?_⟩⟩
  · exact (exec_heartbeat b hclear).trans (congrArg _ (heard_crc h b hon hs hcrc))
  · obtain ⟨t, ht, hat, hnow, hpath, hup, hfirst⟩ := heartbeat_heard b hclear hon hs hcrc hroom
    refine ⟨t, ht, hat, hnow, hpath, hup, fun hf => ?_⟩
    have hd := hfirst hf
    have ⟨hseq, hstale, _⟩ := hd
    refine ⟨hseq, hstale, hd.joins hon, hd.takes, fun hr hown hacts hlt => ?_, fun he => ⟨hd.finds he, hd.loses he, hd.returns he⟩⟩
    obtain ⟨h1, h2, h3, hseen, htold⟩ := hd.gives ⟨hr, hown, hacts, hlt⟩
    exact ⟨⟨h1, h2, h3⟩, hseen, htold⟩
  · exact Eq.trans (b := execPathDown p s) rfl (if_pos (h.imp (fun h => by rw [h]; rfl) fun h => by rw [h]; rfl))
  · have hd := pathDown_down p ((s.dpx.paths[p]).last + 90000) hup hroom
    exact ⟨_, Eq.trans (b := execPathDown p s) rfl (execPathDown_up p hon hup), hd.up, hd.reached, hd.good, hd.seen, hd.told, hd.missed⟩
  · obtain ⟨t, ht, hl, hactive, hstandby⟩ := partnerLost_lost hon hroom hs
    exact ⟨t, ht, hl.reached, hl.loop, hl.told, hactive, hstandby⟩
  · refine ⟨releaseTimer_idle, fun hacts hroom => ?_, degradedProbe_idle, fun hs hroom => ?_, listenTimeout_idle, fun hs hp hroom => ?_⟩
    · obtain ⟨t, ht, hr⟩ := releaseTimer_releases hacts hroom
      exact ⟨t, ht, hr.released, hr.reached, hr.told⟩
    · obtain ⟨t, ht, hp⟩ := degradedProbe_probes hs hroom
      exact ⟨t, ht, hp.reached, hp.probed, hp.net, hp.loop⟩
    · obtain ⟨t, ht, hp⟩ := listenTimeout_probes hs hp hroom
      exact ⟨t, ht, hp.probed, hp.reached, hp.net, hp.loop⟩
  · exact ⟨fun hmine => (execProbe_clear ⟨port, mac⟩ e hclear).trans (probeIn_other e hmine),
      fun hmine hg hroom => probe_keeps (q := ⟨port, mac⟩) hclear hmine hg hroom,
      fun hmine hg hroom => probe_releases (q := ⟨port, mac⟩) hclear hmine hg hroom⟩
  · exact (execProbeReply_clear r hclear).trans (probeReplyIn_none r h)
  · exact (execProbeReply_clear r hclear).trans (probeReplyIn_late r ha hl)
  · obtain ⟨t, ht, hd⟩ := probeReply_done hclear ha hl hroom
    exact ⟨t, ht, hd.said, hd.epochSeen, hd.gives, hd.joins, hd.abandons, hd.takes, hd.begins, hd.listens, hd.succeeds, hd.stays⟩
  · exact Eq.trans (b := execProbeTimeout s) rfl (execProbeTimeout_none h)
  · have hd := timeoutRows_done (a + tConf s) (Nat.le_trans (by omega) hroom : Room 4 s)
    exact ⟨_, Eq.trans (b := execProbeTimeout s) rfl (execProbeTimeout_some ha), hd.reached, hd.probe, hd.listens, hd.takes, hd.waits,
      hd.succeeds⟩

end Sys2Proof.Proofs
end
